-- ==== Sys2Proof/Machine/Table.lean ====
section
/-!
DEFINITION. Machine/Table.lean: finite tables from natural-number keys to entries, as plain data.
A table is a list of (key, entry) pairs with strictly rising keys. It holds the sparse collections of the machine: the
register file, the bytes of DDR, queue-pair contexts, tags, segments, domains and so on.
-/
namespace Sys2Proof.Machine

/-- A finite table: (key, entry) pairs, keys strictly rising. -/
abbrev Table (α : Type) := List (Nat × α)

variable {α : Type}

/-- The entry under a key. -/
def Table.find (k : Nat) : Table α → Option α
  | [] => none
  | (a, x) :: r => if a = k then some x else Table.find k r

/-- The table with an entry put under a key, in the place of the one that stood there. -/
def Table.put (k : Nat) (v : α) : Table α → Table α
  | [] => [(k, v)]
  | (a, x) :: r =>
    if k < a then (k, v) :: (a, x) :: r
    else if k = a then (k, v) :: r
    else (a, x) :: Table.put k v r

/-- The table without a key. -/
def Table.drop (k : Nat) : Table α → Table α
  | [] => []
  | (a, x) :: r => if a = k then Table.drop k r else (a, x) :: Table.drop k r

/-- The entry under a key, or a default. -/
def Table.get (k : Nat) (d : α) (t : Table α) : α := (Table.find k t).getD d

/-- The table with the entry under a key changed by a function; unchanged where the key has none. -/
def Table.modify (k : Nat) (f : α → α) (t : Table α) : Table α :=
  match Table.find k t with
  | some x => Table.put k (f x) t
  | none => t

/-- The table with the entry under a key, or else a default, changed by a function. -/
def Table.upd (k : Nat) (d : α) (f : α → α) (t : Table α) : Table α :=
  Table.put k (f (Table.get k d t)) t

/-- Whether a key has an entry. -/
def Table.has (k : Nat) (t : Table α) : Bool := (Table.find k t).isSome

/-- The keys of a table, rising. -/
def Table.keys (t : Table α) : List Nat := t.map Prod.fst

/-- The entries of a table. -/
def Table.vals (t : Table α) : List α := t.map Prod.snd

/-- The table of every entry changed by a function of its key and value. -/
def Table.mapVals (f : Nat → α → α) (t : Table α) : Table α := t.map fun e => (e.1, f e.1 e.2)

/-- The table of the entries that a test keeps. -/
def Table.keep (p : Nat → α → Bool) (t : Table α) : Table α := t.filter fun e => p e.1 e.2

/-- How many entries pass a test. -/
def Table.countIf (p : α → Bool) (t : Table α) : Nat := t.countP fun e => p e.2

/-- The first entry, in rising key order, that passes a test. -/
def Table.first (p : Nat → α → Bool) (t : Table α) : Option (Nat × α) := t.find? fun e => p e.1 e.2

/-- The form every table keeps: keys strictly rising. -/
def Table.Rising (t : Table α) : Prop := (t.map Prod.fst).Pairwise (· < ·)

end Sys2Proof.Machine
end

