-- ==== Sys2Proof/Machine/TypesPower.lean ====
section
/-!
DEFINITION. Machine/TypesPower.lean: the data of chapters 15, 16, 17 and 19: supply, quarters, the Square, heat, straps,
boot images and boot records, self-test, DDR channels, the event recorder and the slow pins.
-/
namespace Sys2Proof.Machine

/-- The states of a switched quarter (R423), in the order of their codes. -/
inductive QuarterState where
  | off | waking | active | retain | closing | fenced
  deriving DecidableEq, Repr

/-- The code of a quarter state in SQR_Q_STATE.STATE (R423). -/
def QuarterState.code : QuarterState → Nat
  | .off => 0 | .waking => 1 | .active => 2 | .retain => 3 | .closing => 4 | .fenced => 5

/-- The roles of a quarter (TST_QSTAT.ROLE, R475). -/
inductive QuarterRole where
  | active | standby | fenced | underTest
  deriving DecidableEq, Repr

/-- The code of a role in TST_QSTAT.ROLE (R475). -/
def QuarterRole.code : QuarterRole → Nat
  | .active => 0 | .standby => 1 | .fenced => 2 | .underTest => 3

/-- The kinds of quarter (R18). -/
inductive QuarterKind where
  | qa | qe | qt | qc | qb | qm | qs | ql | qg | qd | qx | qk
  deriving DecidableEq, Repr

/-- What a closing quarter goes to once it has drained (R432, R462). -/
inductive DrainGoal where
  | off | retain | test
  deriving DecidableEq, Repr

/-- One quarter (R18, R423): its state, its role, what it drains to while Closing, whether it wakes only to be tested, the failed quarter it takes
over from while it wakes and the clock at which that one was fenced (R461), and the QT or QS role it serves (R51, R185); of a QM quarter the bank
that is its spare, and the banks found bad (R25, R460). -/
structure Quarter where
  state     : QuarterState := .off
  role      : QuarterRole := .active
  goal      : DrainGoal := .off
  wakeTest  : Bool := false
  takesFor  : Option Nat := none
  fencedAt  : Nat := 0
  duty      : Nat := 0
  spare     : Nat := 16
  badBanks  : List Nat := []
  deriving DecidableEq, Repr

/-- A grant or a waiting request of tokens (R425, R428): the quarter, the class of the work, the tokens. -/
structure TokenLot where
  quarter : Nat
  cls     : Nat
  tokens  : Nat
  deriving DecidableEq, Repr

/-- The thermal states (R434). -/
inductive Thermal where
  | normal | derating | critical | trip
  deriving DecidableEq, Repr

/-- The code of a thermal state in TMP_STATUS.STATE (R441). -/
def Thermal.code : Thermal → Nat
  | .normal => 0 | .derating => 1 | .critical => 2 | .trip => 3

/-- The cause that the converter's stop latch holds (R418). -/
inductive StopCause where
  | none | undervoltage | overvoltage
  deriving DecidableEq, Repr

/-- What the margin planner keeps for one quarter (R437, R438): intervals in a row above twice the target, the floor of
VOLT set at the last power-up, and the shifts of the last 30 days with the clock at which each was reached, newest first, down to the one in force 30
days ago. -/
structure MarginPlan where
  above      : Nat := 0
  floor      : Nat := 10
  shifts : List (Nat × Nat) := []
  deriving DecidableEq, Repr

/-- The supply, the Square, heat and ageing (chapter 15). -/
structure Power where
  vinGood     : Bool := true
  converterOn : Bool := true
  stopLatch   : StopCause := .none
  phasesLost  : Nat := 0
  sysclkLost  : Bool := false
  headLost    : Bool := false
  quarters    : Table Quarter
  granted     : List TokenLot := []
  waiting     : List TokenLot := []
  recalls     : List TokenLot := []
  wakeQueue   : List Nat := []
  rampStart   : Nat := 0
  rampUsed    : Nat := 0
  frozen      : Option Nat := none
  stateCap    : Option Nat := none
  thermalCap  : Option Nat := none
  thermal     : Thermal := .normal
  disagree    : Table Nat := []
  plans       : Table MarginPlan := []
  deriving DecidableEq, Repr

/-- The slow balls of R488 and PCIE_PERST_N (R494), as levels: true is high. FAULT_N and THERMTRIP_N are what the part
drives; `resetLatched` is an assertion of RESET_N held back during a destage (R492); `xspiResetN` is XSPI0_RESET_N and XSPI1_RESET_N, which
the part drives together (R498). -/
structure Pins where
  resetN       : Bool := true
  pwrfailN     : Bool := true
  perstN       : Bool := true
  faultN       : Bool := true
  thermtripN   : Bool := true
  resetLatched : Bool := false
  xspiResetN   : Bool := false
  testen       : Bool := false
  deriving DecidableEq, Repr

/-- The 14 straps (R442). -/
structure Straps where
  head     : Nat
  keeper   : Nat
  deputy   : Nat
  boot     : Nat
  budget   : Nat
  ethmode  : Nat
  leafrate : Nat
  secure   : Nat
  testlock : Nat
  ddrdpc   : Nat
  deriving DecidableEq, Repr

/-- The fuses (R10, R450): device ID, silicon stepping, the security version counter, the revoked key sets, and the
hashes of the four key sets (R448). -/
structure Fuses where
  deviceId  : Nat := 0
  stepping  : Nat := 0
  svn       : Nat := 0
  revoked   : Nat := 0
  keyHashes : List (List Byte) := []
  deriving DecidableEq, Repr

/-- One boot record entry (R452); slot false is A, true is B. -/
structure BootRecord where
  slot       : Bool
  pending    : Bool := false
  trial      : Bool := false
  confirming : Bool := false
  sequence   : Nat := 0
  format0    : Nat := 0
  format1    : Nat := 0
  bank       : Bool := false
  otherValid : Bool := false
  version    : Nat := 0
  ceiling    : Nat := 0
  time       : Nat := 0
  shifts     : List Nat := []
  deriving DecidableEq, Repr

/-- The operations of BOOT_CMD (R453). -/
inductive BootOp where
  | verify | write | activate | confirm | revert | revoke
  deriving DecidableEq, Repr

/-- Where an image being loaded or run comes from (R457, BOOT_STATUS.SOURCE, R459). -/
inductive BootSource where
  | nor | pcie | ring | live
  deriving DecidableEq, Repr

/-- The code of a source in BOOT_STATUS.SOURCE (R459). -/
def BootSource.code : BootSource → Nat
  | .nor => 0 | .pcie => 1 | .ring => 2 | .live => 3

/-- How a WRITE ends (R453): programmed and read back, a NOR program or erase failure, or a readback digest mismatch. -/
inductive NorResult where
  | good | failed | mismatch
  deriving DecidableEq, Repr

/-- What boot and update hold (chapter 16): whether the straps have been sampled, the slot being tried, whether both have been tried,
whether an image is loading, the running image and the confirmed image's copy in the DDR firmware area, whether the ROM recovers over the
ring, the bytes being received or programmed, an operation of R453 in progress with the initiator's tag that drives it and whether
ACTIVATE follows, whether a pause runs with its fall-back reason (0: an activation), and the model's clock at the end of the confirm
window. -/
structure Boot where
  sampled    : Bool := false
  trying     : Bool := false
  secondTry  : Bool := false
  loading    : Bool := false
  image      : List Byte := []
  confirmedCopy : List Byte := []
  recovering : Bool := false
  rx         : List Byte := []
  op         : Option BootOp := none
  byNvme     : Option Nat := none
  thenActivate : Bool := false
  pause      : Bool := false
  fallReason : Nat := 0
  trialLeft  : Option Nat := none
  deriving DecidableEq, Repr

/-- The unit tests of R460 that TST_CMD starts, as the part holds one in progress. -/
inductive TestJob where
  | rotation (quarter standby : Nat)
  | direct (quarter : Nat)
  | unit (quarter unit : Nat)
  | standby (quarter : Nat)
  deriving DecidableEq, Repr

/-- The state of a DDR channel (DDR_CH_STATUS.STATE, R477). -/
inductive ChannelState where
  | noDimm | inService | lost | calibrating
  deriving DecidableEq, Repr

/-- The code of a DDR channel's state (R477). -/
def ChannelState.code : ChannelState → Nat
  | .noDimm => 0 | .inService => 1 | .lost => 2 | .calibrating => 3

/-- Self-test and the DDR channels (chapter 17): the test in progress, and per channel its state and the failed
calibrations in a row (R464, R466); whether DDR has been trained at start, and the installed bytes. -/
structure Test where
  job      : Option TestJob := none
  channels : Table ChannelState := []
  calFails : Table Nat := []
  trained  : Bool := false
  installed : Nat := 0
  deriving DecidableEq, Repr

/-- One event record (R469). `trunc` marks a record cut to its first 256 bytes; `ringTime` is present when EXT is set;
`detail` is the detail bytes. -/
structure EventRecord where
  code     : Nat
  trunc    : Bool := false
  cycles   : Nat := 0
  seconds  : Nat := 0
  ringTime : Option Nat := none
  detail   : List Byte := []
  deriving DecidableEq, Repr

/-- The token bucket of one event code (R471): its level in ticks × RATE, when it was last filled, the records dropped. -/
structure EventBucket where
  level   : Nat
  filled  : Nat
  dropped : Nat := 0
  deriving DecidableEq, Repr

/-- The part of the event recorder that lives in Old Town (R471, R472, R473): the buffer, oldest first, with the time of
its first record; the token buckets; an overflow not yet reported; the nonce with the time it was made; the nonce of a
clearing that runs; operating time in ticks; the histogram counters by class × 1,024 + bucket. -/
structure Recorder where
  buffer    : List EventRecord := []
  since     : Option Nat := none
  buckets   : Table EventBucket := []
  overflow  : Bool := false
  fullNoted : Bool := false
  nonce     : Option (Nat × Nat) := none
  clearing  : Option Nat := none
  selected  : Option EventRecord := none
  opTicks   : Nat := 0
  cycles    : Nat := 0
  hist      : Table Nat := []
  deriving DecidableEq, Repr

/-- The boot flash (R444, R468): the two image slots, the boot records (newest first), the settings formats, the event
area (running-area pages newest first, front matter oldest first, the control entry), and the ledger and time areas. -/
structure BootFlash where
  slotA      : List Byte := []
  slotB      : List Byte := []
  records    : List BootRecord := []
  tornRecord : Bool := false
  running    : List (List EventRecord) := []
  front      : List EventRecord := []
  savedCycles : Nat := 0
  savedTicks  : Nat := 0
  lastTrip   : Bool := false
  shifts     : Table Nat := []
  deriving DecidableEq, Repr

/-- Why the PCIe function is reset (R384, R480). -/
inductive FuncResetCause where
  | flr | hotReset | dlDown
  deriving DecidableEq, Repr

/-- The fault that stops a quarter (R19, R428, R431, R433). -/
inductive QuarterFaultCause where
  | logic | clock | recall | overcurrent | canary
  deriving DecidableEq, Repr

/-- What one quarter reports to the margin planner (R437): its lowest canary slack in picoseconds (signed). -/
structure CanaryReport where
  quarter : Nat
  slackPs : Int
  deriving DecidableEq, Repr

end Sys2Proof.Machine
end

