-- ==== Sys2Proof/Machine/TypesHost.lean ====
section
/-!
DEFINITION. Machine/TypesHost.lean: the data of chapter 14: slices, descriptor rings, MSI-X, frame buffers and DMA.
-/
namespace Sys2Proof.Machine

/-- A command of a descriptor ring as a step names it (R391): the slice, the ring, the command ID, and the NO_IRQ flag. -/
structure HostCmd where
  slice : Nat
  ring  : Nat
  cid   : Nat
  noIrq : Bool := false
  deriving DecidableEq, Repr

/-- A submission entry (R391), as read from host memory. `reservedZero` says that its reserved and unused fields are 0. -/
structure SqEntry where
  opcode : Nat
  fence  : Bool := false
  noIrq  : Bool := false
  cid    : Nat
  reservedZero : Bool := true
  deriving DecidableEq, Repr

/-- A command that a ring has started and not completed (R394). `cancelled` marks a job to be stopped (R402) and
`squashed` one whose completion is not written (R403). -/
structure Started where
  ring   : Nat
  cid    : Nat
  opcode : Nat
  noIrq  : Bool := false
  cancelled : Bool := false
  squashed  : Bool := false
  deriving DecidableEq, Repr

/-- The states of a slice (R386). -/
inductive SliceState where
  | free | created | active | frozen | saved | resetting
  deriving DecidableEq, Repr

/-- The code of a slice state in CHI_SLICE_STATE.STATE (R386). -/
def SliceState.code : SliceState → Nat
  | .free => 0 | .created => 1 | .active => 2 | .frozen => 3 | .saved => 4 | .resetting => 5

/-- A ring pair (R390, R392, R394, R395). `waiting` lists the CQ entries not yet consumed, oldest first: the time each
was written, whether it has NO_IRQ, and whether it is an event. `phase` is the PHASE of the next entry. -/
structure Ring where
  sqLog2 : Nat
  cqLog2 : Nat
  prio   : Nat := 0
  vector : Nat := 0
  count  : Nat := 1
  timeUs : Nat := 0
  sqBase : Nat := 0
  cqBase : Nat := 0
  sqHead : Nat := 0
  sqTail : Nat := 0
  cqHead : Nat := 0
  cqTail : Nat := 0
  phase  : Nat := 1
  armed  : Bool := true
  fenced : Bool := false
  waiting : List (Nat × Bool × Bool) := []
  deriving DecidableEq, Repr

/-- The parameters of SLICE_CREATE (R387). -/
structure SliceParams where
  slice   : Nat
  pasid   : Nat
  caps    : Nat
  tenant  : Nat
  rings   : Nat
  channels : Nat
  firstVector : Nat
  vectors : Nat
  credits : Nat
  sqBase  : Nat
  cqBase  : Nat
  sqLog2  : Nat
  cqLog2  : Nat
  reservedZero : Bool := true
  deriving DecidableEq, Repr

/-- The parameters of RING_CREATE (R390). -/
structure RingParams where
  ring   : Nat
  sqLog2 : Nat
  cqLog2 : Nat
  prio   : Nat
  vector : Nat
  count  : Nat
  timeUs : Nat
  sqBase : Nat
  cqBase : Nat
  reservedZero : Bool := true
  deriving DecidableEq, Repr

/-- One slice (R386). `quiesce` is the command that completes when the slice has quiesced: a reset with its mode
(true: squash) or a freeze; `destroying` marks a squash that ends in Free (R389); `cancelled` lists entries cancelled before
their fetch (R402); `served` is the ring last fetched from, from which the round robin goes on (R394). -/
structure Slice where
  state   : SliceState := .free
  pasid   : Nat := 0
  caps    : Nat := 0
  tenant  : Nat := 0xFFFF
  ringMax : Nat := 1
  rings   : Table Ring := []
  channels : List Nat := []
  firstVector : Nat := 0
  vectors : Nat := 0
  credits : Nat := 0
  creditsUsed : Nat := 0
  minor   : Nat := 0
  started : List Started := []
  dropped : Bool := false
  quiesce : Option HostCmd := none
  squash  : Bool := false
  destroying : Bool := false
  fetching : Bool := true
  cancelled : List (Nat × Nat) := []
  served  : Nat := 63
  deriving DecidableEq, Repr

/-- A vector of the MSI-X table (R382): message address and data, mask, pending bit. -/
structure MsixVector where
  address : Nat := 0
  data    : Nat := 0
  masked  : Bool := true
  pending : Bool := false
  deriving DecidableEq, Repr

/-- A posted receive buffer (R400). -/
structure FrameBuffer where
  cmd     : HostCmd
  address : Nat
  length  : Nat
  deriving DecidableEq, Repr

/-- An event that waits for slice 0 to be created again (R384): code and detail. -/
structure HeldEvent where
  code   : Nat
  result0 : Nat
  time   : Nat
  deriving DecidableEq, Repr

/-- The address spaces of a DMA transfer (R408). -/
inductive DmaSpace where
  | host | ddr | region | reserved
  deriving DecidableEq, Repr

/-- A DMA descriptor (R408). -/
structure DmaDesc where
  channel  : Nat
  srcSpace : DmaSpace
  dstSpace : DmaSpace
  swap     : Nat
  lineLen  : Nat
  src      : Nat
  dst      : Nat
  srcKey   : Nat := 0
  dstKey   : Nat := 0
  lines    : Nat := 1
  srcStride : Nat := 0
  dstStride : Nat := 0
  reservedZero : Bool := true
  deriving DecidableEq, Repr

/-- A transfer on a channel: its command, its descriptor, the offset (in transfer order) of the next burst to issue,
the bursts in flight (offset and length, oldest first), and the bytes done. -/
structure DmaXfer where
  cmd     : HostCmd
  desc    : DmaDesc
  next    : Nat := 0
  flight  : List (Nat × Nat) := []
  done    : Nat := 0
  withdrawn : Bool := false
  failed  : Option (Nat × Nat) := none
  squashed : Bool := false
  canceller : Option HostCmd := none
  deriving DecidableEq, Repr

/-- The states of a DMA channel (R417). -/
inductive ChanState where
  | idle | running | pausing | paused | withdrawing
  deriving DecidableEq, Repr

/-- The code of a channel state in DMA_CH_STATUS.STATE (R417). -/
def ChanState.code : ChanState → Nat
  | .idle => 0 | .running => 1 | .pausing => 2 | .paused => 3 | .withdrawing => 4

/-- One DMA channel (R407): owner, state, the current transfer, the queued ones, the commands that wait for a pause. -/
structure Channel where
  owner  : Option Nat := none
  state  : ChanState := .idle
  cur    : Option DmaXfer := none
  queue  : List DmaXfer := []
  pausers : List HostCmd := []
  lastDone : Nat := 0
  deriving DecidableEq, Repr

/-- The PCIe function (chapter 14): link up, D3hot, slices, MSI-X, frame-buffer claims and buffers per logical port,
events held for slice 0, DMA channels, ATS invalidations that wait for requests outstanding. -/
structure HostIf where
  linkUp  : Bool := false
  d3hot   : Bool := false
  slices  : Table Slice := []
  msix    : Table MsixVector := []
  claims  : Table Nat := []
  buffers : Table (List FrameBuffer) := []
  held    : List HeldEvent := []
  channels : Table Channel := []
  ats     : List Nat := []
  deriving DecidableEq, Repr

/-- The modes of SLICE_RESET (R403). -/
inductive ResetMode where
  | drain | squash
  deriving DecidableEq, Repr

/-- Which doorbell, command or job a failed host request belongs to (R385). -/
inductive HostReqOwner where
  | ringCmd (c : HostCmd)
  | dma (channel : Nat)
  deriving DecidableEq, Repr

end Sys2Proof.Machine
end

