-- ==== Sys2Proof/Machine/TypesNet.lean ====
section
/-!
DEFINITION. Machine/TypesNet.lean: the data of chapter 02: frames, MACsec, PTP stamps, RoCEv2 packets, queue-pair contexts,
the lay-by, regions and work requests.
-/
namespace Sys2Proof.Machine

/-- A status of NVMe: status code type, status code, completion dword 0. -/
structure NvmeStatus where
  sct : Nat
  sc  : Nat
  dw0 : Nat := 0
  dw1 : Nat := 0
  deriving DecidableEq, Repr

/-- Where a received frame is addressed (R39). -/
inductive FrameDest where
  | portMac | paeGroup | broadcast | subscribed | other
  deriving DecidableEq, Repr

/-- The PTP event messages a port stamps, by transport (R45, R47). -/
inductive PtpTransport where
  | l2 | udp4 | udp6
  deriving DecidableEq, Repr

/-- A PTP event message in a frame: transport, messageType, sequenceId, domainNumber (R45, R47, R69). -/
structure PtpMsg where
  transport : PtpTransport
  msgType   : Nat
  seqId     : Nat
  domain    : Nat
  deriving DecidableEq, Repr

/-- The SecTAG of a protected frame (R43): the index of the secure channel, the association number, the packet number,
and whether the GCM tag verifies under the SAK of that association. -/
structure SecTag where
  channel : Nat
  an      : Nat
  pn      : Nat
  icvOk   : Bool
  deriving DecidableEq, Repr

/-- The RETH of an RDMA WRITE First or Only or of a READ Request: virtual address, R_Key, DMA length. -/
structure Reth where
  va   : Nat
  key  : Nat
  len  : Nat
  deriving DecidableEq, Repr

/-- A RoCEv2 packet (R48): destination QP, base transport opcode, PSN, source QP; the AckReq bit and the CE mark; its
RETH, immediate data, invalidated R_Key and AETH (syndrome, MSN) where its opcode has them; its payload; its frame's
length; whether the ICRC and pad count, and the IP and UDP lengths, are consistent (R68). -/
structure Packet where
  qpn      : Nat
  opcode   : Nat
  psn      : Nat
  ackReq   : Bool := false
  ce       : Bool := false
  reth     : Option Reth := none
  imm      : Option Nat := none
  invKey   : Option Nat := none
  aeth     : Option (Nat × Nat) := none
  payload  : List Byte := []
  frameLen : Nat := 64
  icrcOk   : Bool := true
  lengthOk : Bool := true
  deriving DecidableEq, Repr

/-- A frame as a front port receives it whole (R38, R39). `roce` holds the packet of a frame to UDP port 4791 at a local
IP address. -/
structure Frame where
  lport     : Nat
  length    : Nat
  uncorrect : Bool := false
  etherType : Nat := 0x0800
  dest      : FrameDest := .portMac
  secTag    : Option SecTag := none
  ptp       : Option PtpMsg := none
  roce      : Option Packet := none
  bytes     : List Byte := []
  deriving DecidableEq, Repr

/-- A frame queued for transmission (R47): logical port, whether it is EAPOL, its PTP message, the residence time and
the command that waits for its egress stamp (R400). -/
structure TxFrame where
  lport     : Nat
  prio      : Nat := 0
  eapol     : Bool := false
  ptp       : Option PtpMsg := none
  residence : Nat := 0
  cmd       : Option HostCmd := none
  bytes     : List Byte := []
  deriving DecidableEq, Repr

/-- A transmit stamp entry (R47, R69). -/
structure StampEntry where
  stamp   : Nat
  seqId   : Nat
  msgType : Nat
  domain  : Nat
  subport : Nat
  deriving DecidableEq, Repr

/-- The SecTAG of a frame that the part protects (R43): the association number, the packet number, and whether the SCI is in it. -/
structure SecOut where
  an  : Nat
  pn  : Nat
  sci : Bool
  deriving DecidableEq, Repr

/-- A MACsec secure association (R43, R44): its key, salt and SSCI, whether it is installed and enabled, the next packet number, and
whether the 2^62 report has been made. -/
structure SecAssoc where
  key      : List Byte := []
  salt     : List Byte := []
  ssci     : Nat := 0
  enabled  : Bool := false
  nextPn   : Nat := 1
  reported : Bool := false
  deriving DecidableEq, Repr

/-- The states of a queue pair (R53). -/
inductive QpState where
  | reset | init | rtr | rts | sqd | error | frozen
  deriving DecidableEq, Repr

/-- The code of a queue-pair state (R53). -/
def QpState.code : QpState → Nat
  | .reset => 0 | .init => 1 | .rtr => 2 | .rts => 3 | .sqd => 4 | .error => 6 | .frozen => 7

/-- The operations of a work request (R48, R399): those that WR_POST names, and SEND with Invalidate, which the part's own requests
use. -/
inductive WrOp where
  | send | sendImm | write | writeImm | read | sendInv
  deriving DecidableEq, Repr

/-- A work request (R399), with the ring command that posted it; none for the part's own. `lastPsn` is the
PSN of its last packet once it is `sent`, `latched` that its trigger came before it (R67), `remoteKey` of a SEND with Invalidate the
R_Key that it invalidates, and `index` its place in the send queue, in the order of posting (R52). -/
structure WorkReq where
  qpn       : Nat
  op        : WrOp
  armed     : Bool := false
  trigger   : Nat := 0
  offset    : Nat := 0
  length    : Nat := 0
  imm       : Nat := 0
  remote    : Nat := 0
  remoteKey : Nat := 0
  localKey  : Nat := 0
  cmd       : Option HostCmd := none
  sent      : Bool := false
  lastPsn   : Nat := 0
  latched   : Bool := false
  index     : Nat := 0
  deriving DecidableEq, Repr

/-- An RDMA Read of the part (R49, R68): the tag and segment it fetches for, its length and the bytes not yet returned, whether it is part of a
work request of the control host (`segment` is then its offset in the request), whether its bytes are no longer wanted (R105), and whether it
has been issued: 64 of a queue pair may be outstanding, each with staging space reserved for its whole response. Once issued it has the PSN of
its request and the PSN that its next response carries. -/
structure ReadReq where
  tag     : Nat
  segment : Nat := 0
  len     : Nat
  left    : Nat
  local_  : Bool := false
  void    : Bool := false
  issued  : Bool := false
  psn     : Nat := 0
  next    : Nat := 0
  deriving DecidableEq, Repr

/-- What the part answers or sends on a queue pair (R48, R49, R68). An RNR NAK carries the timer of the context; a completion capsule the
queue's SQ head (R80) and, sent as SEND with Invalidate, the R_Key that the command asked to have invalidated. -/
inductive RoceOut where
  | ack (psn : Nat)
  | nakInvalid (psn : Nat)
  | nakAccess (psn : Nat)
  | nakSequence (psn : Nat)
  | rnrNak (psn timer : Nat)
  | cnp
  | readRequest (tag seg len : Nat)
  | readResponse (bytes : List Byte)
  | writeData (tag off : Nat) (bytes : List Byte)
  | completion (cid : Nat) (status : NvmeStatus) (sqHead : Nat) (inv : Option Nat)
  | work (w : WorkReq)
  | retransmit (psn : Nat)
  deriving DecidableEq, Repr

/-- The payload bytes of what is sent on a queue pair (R52, the context's counters). -/
def RoceOut.payload : RoceOut → Nat
  | .readResponse b | .writeData _ _ b => b.length
  | .completion .. => 16
  | .work w => if w.op = .read then 0 else w.length
  | .ack _ | .nakInvalid _ | .nakAccess _ | .nakSequence _ | .rnrNak .. | .cnp | .readRequest .. | .retransmit _ => 0

/-- One logical port: host-bound frames in the current 1 ms window, paused priorities, the transmit secure channel's
associations and the AN in use, the receive channels' associations (channel × 4 + AN), the MACsec failure counter, the frames that wait for a
paused priority, and the RoCEv2 packets that wait for one or for their QT role's standby (R461), oldest first (R41). -/
structure LPort where
  hostFrames : Nat := 0
  limitDrops : Nat := 0
  paused     : List Nat := []
  txAn       : Nat := 0
  txSa       : Table SecAssoc := []
  rxSa       : Table SecAssoc := []
  secFails   : Nat := 0
  txq        : List TxFrame := []
  held       : List (Nat × RoceOut) := []
  deriving DecidableEq, Repr

/-- A message part-received on a queue pair: an RDMA WRITE with its key, next offset and bytes remaining, or a SEND with
the bytes so far (R52, R68). -/
inductive Inbound where
  | none
  | write (key offset left : Nat)
  | send (bytes : List Byte)
  deriving DecidableEq, Repr

/-- A write payload checked and not yet placed (R62, R64): region index, DDR address, bytes. -/
structure Placement where
  region : Nat
  addr   : Nat
  bytes  : List Byte
  deriving DecidableEq, Repr

/-- A final-flagged message that waits for placement (R64): an RDMA WRITE with Immediate, a SEND, or a READ Request. -/
inductive FinalMsg where
  | imm (data : Nat)
  | send (bytes : List Byte) (imm : Option Nat)
  | read (r : Reth)
  deriving DecidableEq, Repr

/-- The NVMe-oF queue state of a context (R52, R80): the SQ's size and head, whether flow control is off, and the in-capsule size. The
commands outstanding are those that hold a tag or wait in intake. -/
structure NvmeQueue where
  size   : Nat := 0
  head   : Nat := 0
  noFlow : Bool := false
  capsule : Nat := 0
  deriving DecidableEq, Repr

/-- A queue-pair context (R52), typed. `rnrDelay` is the timer that its RNR NAKs carry, `rnrTimer` that an RNR NAK of the remote side has stopped
it, `crcOk` that the DDR copy's CRC32C passes (R56). `deadline` is the retransmit deadline in ring time (0: no packet is unacknowledged or there
is no timeout), `lastCnpRx` the ring time of the last CNP received, and `lastCnpTx` when the last one was sent (R42). `sendNext` and `recvNext`
count what has been posted to the send queue and taken from the receive queue: their indexes. -/
structure Qp where
  state      : QpState := .reset
  remoteQpn  : Nat := 0
  mtu        : Nat := 5
  tenant     : Nat := 0
  slice      : Nat := 0
  controller : Nat := 0
  queue      : Nat := 0
  generation : Nat := 0
  pinned     : Bool := false
  relaxed    : Bool := false
  trigEnable : Bool := false
  marker     : Nat := 0
  lastUse    : Nat := 0
  lport      : Nat := 0
  path       : List Byte := []
  sendPsn    : Nat := 0
  unackedPsn : Nat := 0
  sendMsn    : Nat := 0
  retryMax   : Nat := 7
  rnrMax     : Nat := 7
  deadline   : Nat := 0
  retries    : Nat := 0
  rnrTries   : Nat := 0
  timeoutExp : Nat := 14
  rnrTimer   : Nat := 0
  rnrDelay   : Nat := 0
  sqBase     : Nat := 0
  sqSize     : Nat := 16
  sendNext   : Nat := 0
  sendQueue  : List WorkReq := []
  rate       : Nat := 0
  targetRate : Nat := 0
  lastCnpRx  : Nat := 0
  lastCnpTx  : Option Nat := none
  expPsn     : Nat := 0
  recvMsn    : Nat := 0
  unackedRx  : Nat := 0
  recvBase   : Nat := 0
  recvBufs   : Nat := 0
  recvSize   : Nat := 0
  recvNext   : Nat := 0
  inbound    : Inbound := .none
  placements : List Placement := []
  finals     : List FinalMsg := []
  reads      : List ReadReq := []
  armed      : List WorkReq := []
  triggers   : List Nat := []
  nvme       : NvmeQueue := {}
  capsulesUnacked : Nat := 0
  saved      : Option QpState := none
  pktsIn     : Nat := 0
  pktsOut    : Nat := 0
  bytesIn    : Nat := 0
  bytesOut   : Nat := 0
  naksIn     : Nat := 0
  naksOut    : Nat := 0
  retrans    : Nat := 0
  cnps       : Nat := 0
  crcOk      : Bool := true
  deriving DecidableEq, Repr

/-- When a packet of a queue pair that leaves at a ring time has to be sent again (R49): the timeout is 4.096 µs × 2^t. -/
def Qp.deadlineFrom (q : Qp) (now : Nat) : Nat := if q.timeoutExp = 0 then 0 else now + 32768 * 2 ^ q.timeoutExp

/-- A registered region (R60). `invalidating` holds the commands that wait for the invalidation to complete (R62). -/
structure Region where
  base    : Nat
  length  : Nat
  variant : Nat
  valid   : Bool := true
  read    : Bool := false
  write   : Bool := false
  relaxed : Bool := false
  invSend : Bool := false
  tenant  : Nat := 0
  slice   : Nat := 0
  invalidating : List HostCmd := []
  deriving DecidableEq, Repr

/-- The header and contents of a slice image (R405), typed: what SLICE_SAVE writes and SLICE_RESTORE reads. `crcOk` says
that both CRCs of an image being read pass. -/
structure SliceImage where
  version : Nat := 1
  minor   : Nat
  tenant  : Nat
  caps    : Nat
  rings   : List (Nat × Ring)
  transfers : List DmaXfer
  channels : Nat
  qps     : List (Nat × Qp)
  regions : List (Nat × Region)
  time    : Nat
  device  : Nat
  firstVector : Nat
  vectors : Nat
  credits : Nat
  crcOk   : Bool := true
  deriving DecidableEq, Repr

/-- RDMA transport (chapter 02): contexts; per role and set the on-die contexts, most recently used first; contexts
leaving, being fetched and waiting for a victim; the lay-by FIFO per queue pair, oldest first; packets on the direct path
that their own step has not processed yet (R58); whether XOFF is in force; regions; transmit stamp FIFOs by front port, oldest
first (R47). -/
structure Transport where
  qps      : Table Qp := []
  sets     : Table (List Nat) := []
  leaving  : List Nat := []
  fetching : List Nat := []
  fetchWait : List Nat := []
  layby    : Table (List Packet) := []
  direct   : List Packet := []
  xoff     : Bool := false
  regions  : Table Region := []
  stamps   : Table (List StampEntry) := []
  generation : Nat := 0
  deriving DecidableEq, Repr

/-- What comes back with a fetched context (R56): good, CRC32C failed, or uncorrectable. -/
inductive FetchResult where
  | good | crcFail | uncorrectable
  deriving DecidableEq, Repr

end Sys2Proof.Machine
end

