-- ==== Sys2Proof/Machine/TypesData.lean ====
section
/-!
DEFINITION. Machine/TypesData.lean: the data of chapters 03, 04, 05 and 06: capsules, controllers, tags and range locks;
segments, chunks and the dedup index; containers, key slots and jobs; segments of the write cache and mirror records;
and the locations and extents of chapter 09 that they share.
-/
namespace Sys2Proof.Machine

/-- A location (R250). `cache`: the head whose own region holds it (false: A), segment, generation, offset, container
size. `flash`, `remote`, `lost`: pool (or home ring address with pool), quire, signature, data member, offset in the
member's payload in 16-byte units, container size. `image`: the image of a map page that waits for its place (the model's own kind). -/
inductive Loc where
  | unmapped
  | zero
  | cache (head : Bool) (seg gen off size : Nat)
  | flash (pool quire sig mem off size : Nat)
  | remote (home pool quire sig mem off size : Nat)
  | lost (pool quire sig mem off size : Nat)
  | image (page : Nat)
  deriving DecidableEq, Repr

/-- An extent entry with its fingerprint where one follows (R251, R252). -/
structure Extent where
  addr    : Nat
  len     : Nat
  off     : Nat := 0
  isNew   : Bool := false
  noIndex : Bool := false
  loc     : Loc
  fp      : Option (List Byte) := none
  deriving DecidableEq, Repr

/-- A container as the write cache and the mirror hold it: its bytes (header and encrypted payload, R132, R133). -/
abbrev Container := List Byte

/-- How a capsule's data pointer is given (R76). -/
inductive SglKind where
  | keyed | inCapsule | other
  deriving DecidableEq, Repr

/-- The NVMe commands that the part accepts (R73), by name; `other` is any other opcode. -/
inductive NvmeOp where
  | getLogPage | identify | abort | setFeatures | getFeatures | asyncEventRequest
  | firmwareCommit | firmwareDownload | keepAlive | connect | propertyGet | propertySet | disconnect | formatNvm
  | flush | write | read | compare | writeZeroes | datasetManagement
  | resvRegister | resvReport | resvAcquire | resvRelease
  | snapshotCreate | snapshotDelete | snapshotList | cloneCreate | programRun | programResults
  | other
  deriving DecidableEq, Repr

/-- A fused capsule's half (R99). -/
inductive Fused where
  | none | first | second
  deriving DecidableEq, Repr

/-- A command capsule as QT hands it to QC (R72 to R76, R99): the queue pair it came on, its command identifier, opcode
and NSID, dwords 10 to 15, fused mark, data pointer (kind, length, address, R_Key, and whether a keyed one asks for its key to be invalidated by the
completion), in-capsule data and length in bytes,
the parameter data that firmware reads for it, and whether every reserved dword and field is zero. -/
structure Capsule where
  qpn    : Nat
  cid    : Nat
  op     : NvmeOp
  nsid   : Nat := 0
  cdw10  : Nat := 0
  cdw11  : Nat := 0
  cdw12  : Nat := 0
  cdw13  : Nat := 0
  cdw14  : Nat := 0
  cdw15  : Nat := 0
  fused  : Fused := .none
  sgl    : SglKind := .keyed
  sglLen : Nat := 0
  sglAddr : Nat := 0
  sglKey : Nat := 0
  invalidate : Bool := false
  data   : List Byte := []
  bytes  : Nat := 64
  reservedZero : Bool := true
  deriving DecidableEq, Repr

/-- The states of a tag (R82). -/
inductive TagState where
  | free | decode | lockWait | held | running | pastReturn | forwarded | completing
  deriving DecidableEq, Repr

/-- The code of a tag state in CMD_TAG_STATE (R82). -/
def TagState.code : TagState → Nat
  | .free => 0 | .decode => 1 | .lockWait => 2 | .held => 3 | .running => 4 | .pastReturn => 5 | .forwarded => 6
  | .completing => 7

/-- The classes that share the tag pool (R78). -/
inductive TagClass where
  | initiator | forwardedIn | internal
  deriving DecidableEq, Repr

/-- What became of a chunk (R109, R118, R125, R136). -/
inductive ChunkState where
  | waiting
  | zero
  | asked
  | hit (loc : Loc)
  | verifying (loc : Loc)
  | stored (container : Container) (noIndex : Bool)
  deriving DecidableEq, Repr

/-- A chunk of a write (R106, R110): its first byte in the command, its original bytes, the ring time and lane of its
cut, its fingerprint, the index place it pins (by its index key),
QM's answer once it is on its way, the stored copy read for a verify (R125), the container and length of a forwarded chunk
(R363), the digest key that it was started with (R507), and its state. -/
structure Chunk where
  off   : Nat
  bytes : List Byte
  cut   : Nat := 0
  lane  : Nat := 0
  fp    : Option (List Byte) := none
  pin   : Option Nat := none
  answer : Option (Option Loc) := none
  copy  : Option (Option Container) := none
  fwd   : Option (Nat × Container) := none
  key   : Option (List Byte) := none
  state : ChunkState := .waiting
  deriving DecidableEq, Repr

/-- The original bytes of a chunk, in number: a forwarded chunk has them in its extent (R363). -/
def Chunk.len (k : Chunk) : Nat :=
  match k.fwd with
  | some f => f.1
  | none => k.bytes.length

/-- A segment of a write on a lane (R103, R104, R106, R112): its first byte and length in the command, its lane, whether its data may not
be asked for yet, whether it is a stream of the lane, the bytes that staging holds for it, the
bytes streamed, the gear hash, the bytes of the chunk being cut, and the digest key that it was started with (R507). -/
structure Segment where
  off    : Nat
  len    : Nat
  lane   : Nat
  wait   : Bool := false
  begun  : Bool := false
  staged : List Byte := []
  got    : Nat := 0
  h      : Nat := 0
  cur    : List Byte := []
  key    : Option (List Byte) := none
  deriving DecidableEq, Repr

/-- The data path of one write: segments, chunks in order of their cut, its map delta once built, whether its records have been queued, the mirror
sequences not yet acknowledged, and whether its commit point has passed (R29, R163). -/
structure WriteJob where
  segs      : List Segment := []
  chunks    : List Chunk := []
  delta     : List Extent := []
  queued    : Bool := false
  stalled   : Option Nat := none
  unacked   : List Nat := []
  committed : Bool := false
  time      : Nat := 0
  deriving DecidableEq, Repr

/-- A piece of a read: a byte range of the command and the extent that serves it; its container once it has come (none inside:
its source returned none); its original bytes, for a Compare; whether it has been decoded and sent; and the code of its first
failure once the second copy has been asked for (R140). -/
structure ReadPiece where
  off    : Nat
  len    : Nat
  chunkOff : Nat
  loc    : Loc
  copy   : Option (Option Container) := none
  plain  : List Byte := []
  sent   : Bool := false
  second : Option Nat := none
  deriving DecidableEq, Repr

/-- A reservation on a namespace (R73): registrations (host, key), the holder and the type, and whether it persists through a loss of power. -/
structure Reservation where
  regs    : List (Nat × Nat) := []
  holder  : Option Nat := none
  rtype   : Nat := 0
  gen     : Nat := 0
  ptpl    : Bool := false
  deriving DecidableEq, Repr

/-- A change of a namespace's reservation (R73), which takes effect on the reservation as it stands then: a registration (host, CDW10, current
key, new key, and whether the reservations persist from then on), an acquisition (host, type), a preemption (host, key preempted, type), a
release, a clearing, a change of persistence (R505), and what takes the change of a cancelled command back. -/
inductive ResvOp where
  | register (host cdw10 cur new : Nat) (ptpl : Option Bool)
  | acquire (host rtype : Nat)
  | preempt (host key rtype : Nat)
  | release (host : Nat)
  | clear
  | persist (on : Bool)
  | set (r : Reservation)
  deriving DecidableEq, Repr

/-- A metadata change that a record of type 2 carries (R163, R270), by operation; a Format is a namespace change that puts
an empty tree in the place of the live root (R72). The root of a new tree is known once its record is queued. -/
inductive MetaOp where
  | snapCreate (nsid id time : Nat) (group : Option Nat)
  | snapDelete (nsid id : Nat)
  | clone (src id target : Nat)
  | nsCreate (nsid tenant pool size group : Nat) (programs : Bool) (root : Nat := 0)
  | nsDelete (nsid : Nat)
  | nsChange (nsid : Nat) (size : Option Nat) (programs : Option Bool) (move : Option (Option Nat))
  | format (nsid : Nat) (root : Nat := 0)
  | reservation (nsid : Nat) (op : ResvOp)
  deriving DecidableEq, Repr

/-- What a container is gathered from the leaves for: a piece of a command's read, the verify of a chunk (R125), collection
into a pool (R200, R264), another pair's remote read or the peer's request for a second copy (R128, R140; the asking pair, its
tag and piece), the re-key sweep of a domain (R152), a
unit that a replica set ships (R293, R296), or a piece of a run's span (R315). -/
inductive GatherFor where
  | piece (tag index : Nat)
  | verify (tag off : Nat)
  | collect (pool : Nat)
  | remote (pair tag index : Nat)
  | rekey
  | ship (set job index : Nat)
  | span (run tile : Nat)
  deriving DecidableEq, Repr

/-- What one lane contributes to a write's records: extents whose new containers have no place yet. -/
abbrev RecItem := Extent × Option Container

/-- The internal work that a tag is taken for (R77): a metadata change that a ring command or the part itself asks for; the hand-over of an
read from where it lies; an entry of the reconciler that a home has still to answer (R122, R127). -/
inductive InternalJob where
  | change (op : MetaOp)
  | handOver
  | items (lanes : List (Nat × List RecItem))
  | run
  | fetch (use : GatherFor) (loc : Loc)
  | reconcile (seq : Nat)
  deriving DecidableEq, Repr

/-- One command that holds a tag (R77, R82). `ticket` is its place in the order of arrival, which no other command has. `order` is its place among
range locks, `heldAt` among held commands; `lockEntry` an entry in the lock table, `locked` one that is granted; `begun` that its own step has
run; `readsLeft` the RDMA Reads not answered; `discard` a completion to be discarded (R94); `partner` the tag of its fused other half; `peerTag`
the other head's tag (of a forwarded-in command, or of a Forwarded one once ACCEPTED); `sent` that its first RDMA Write of data has been queued;
`covers` the writes a Flush waits for, by tag and ticket; `data` initiator data fetched, by offset; `host` the ring command that an internal
command serves; `work` the replica set and member whose working tree a write goes to (R294); `returned` that a forwarded-in command goes back
unstarted (R362); `hostId` the host that a forwarded-in command comes from; `job` the internal work that the tag is held for; `resvAt` the place
of its reservation change among those queued, and `serves` the tag and ticket of the Set Features that waits for it (R505). -/
structure Cmd where
  state   : TagState := .decode
  cls     : TagClass := .initiator
  cap     : Capsule
  ctrl    : Nat := 0
  tenant  : Nat := 0
  admin   : Bool := false
  order   : Nat := 0
  heldAt  : Nat := 0
  lockEntry : Bool := false
  locked  : Bool := false
  begun   : Bool := false
  readsLeft : Nat := 0
  discard : Bool := false
  partner : Option Nat := none
  peerTag : Option Nat := none
  started : Nat := 0
  sent    : Bool := false
  leafRead : Bool := false
  covers  : List (Nat × Nat) := []
  data    : List (Nat × List Byte) := []
  write   : Option WriteJob := none
  pieces  : List ReadPiece := []
  change  : Option MetaOp := none
  status  : Option NvmeStatus := none
  abortOf : Option (Nat × Nat) := none
  host    : Option HostCmd := none
  fwdLast : Bool := false
  returned : Bool := false
  work    : Option (Nat × Nat) := none
  hostId  : Nat := 0
  ticket  : Nat := 0
  job     : Option InternalJob := none
  resvAt  : Nat := 0
  serves  : Option (Nat × Nat) := none
  deriving DecidableEq, Repr

/-- An NVMe controller (R74, R94, R95, R97, R100, R503, R505), with the reservation notifications (type, namespace) that its log holds and their
count. -/
structure Controller where
  connected : Bool := true
  adminQp  : Nat
  ioQps    : List (Nat × Nat) := []
  cc       : Nat := 0
  en       : Bool := false
  rdy      : Bool := false
  resetting : Bool := false
  shn      : Nat := 0
  shst     : Nat := 0
  ps       : Nat := 0
  lastOpPs : Nat := 0
  arb      : Nat := 0
  grant    : Option Nat := none
  aec      : Nat := 0
  kato     : Nat := 0
  resvMask : Nat := 0
  hostId   : Nat := 0
  aers     : List Nat := []
  notices  : List (Nat × Nat) := []
  anaCount : Nat := 0
  keepAlives : Nat := 0
  changedNs : List Nat := []
  resvLog  : List (Nat × Nat) := []
  resvCount : Nat := 0
  deriving DecidableEq, Repr

/-- The phases of a power-state change that holds commands (R98). -/
inductive PsPhase where
  | steady | entering | exiting
  deriving DecidableEq, Repr

/-- A capsule that waits for a tag (R79): the capsule, whether it is an admin or Fabrics capsule, its tenant and controller,
its place in the order of arrival, the receiving head's tag and the host of a forwarded-in command, and the command that internal work
becomes. -/
structure Waiting where
  cap    : Capsule
  admin  : Bool := false
  tenant : Nat := 0
  ctrl   : Nat := 0
  at_    : Nat := 0
  rtag   : Option Nat := none
  hostId : Nat := 0
  made   : Option Cmd := none
  deriving DecidableEq, Repr

/-- The command quarter (chapter 03): controllers by ID; intake FIFOs by role, oldest first, with the admin mark; tags in
use; the lock-order counter; commands waiting for a lock-table entry and held commands are in the tags, by order;
arbitration credit per class and tenant; the power-state phase with what to return to, and whether a request has changed meanwhile; the tags
whose completions are queued to QT and not yet accepted, oldest first; reservations per namespace; quiesce for power fail. -/
structure CmdQuarter where
  ctrls   : Table Controller := []
  intake0 : List Waiting := []
  intake1 : List Waiting := []
  fwdIn   : List Waiting := []
  internal : List Waiting := []
  tags    : Table Cmd := []
  order   : Nat := 0
  credit  : Table Int := []
  phase   : PsPhase := .steady
  psBefore : Nat := 0
  psWake  : Option Nat := none
  psWaiter : Option Nat := none
  psAgain : Bool := false
  posting : List Nat := []
  resv    : Table Reservation := []
  stopped : Bool := false
  nextCtrl : Nat := 1
  deriving DecidableEq, Repr

/-- The three ways a doubled compare can end (R113). -/
inductive Compare where
  | equal | unequal | fault
  deriving DecidableEq, Repr

/-- A DDR index entry (R117). -/
structure IndexEntry where
  fp     : List Byte
  domain : Nat
  pins   : Nat := 0
  loc    : Loc
  deriving DecidableEq, Repr

/-- A pending entry (R120): domain, fingerprint, the tag of the writing command. -/
structure PendingFp where
  domain : Nat
  fp     : List Byte
  tag    : Nat
  deriving DecidableEq, Repr

/-- A journal entry of the reconciler (R119, R122). -/
structure JournalEntry where
  domain : Nat
  fp     : List Byte
  loc    : Loc
  deriving DecidableEq, Repr

/-- A container that other pairs refer to (R127): the place they were told, where it is now, and the references that each
pair holds. -/
structure HomeRef where
  name  : Loc
  cur   : Loc
  pairs : Table Nat := []
  deriving DecidableEq, Repr

/-- A read of a container at another pair (R128): what it serves, the remote reference, and whether it has been sent. -/
structure RemoteAsk where
  use  : GatherFor
  loc  : Loc
  sent : Bool := false
  deriving DecidableEq, Repr

/-- The dedup front end (chapter 04). Index entries are keyed by ((quarter × 393,216 + bucket) × 30 + slot) (R116), next
victims by quarter × 393,216 + bucket; damaged entries that were removed while pinned keep their pins in `ghosts`; pending entries are
listed per quarter; the journal is oldest first, with the entries taken so far, which give the place of the next in its ring; the flash
index lists (domain, fingerprint, location). Cascade: the last sequence sent, the sequences applied at the home per pair,
remote references counted at the home, the answers that wait, and the reads at other pairs not yet answered. -/
structure Dedup where
  index    : Table IndexEntry := []
  ghosts   : Table IndexEntry := []
  victim   : Table Nat := []
  pend     : Table (List PendingFp) := []
  journal  : List JournalEntry := []
  taken    : Nat := 0
  flash    : List JournalEntry := []
  deferred : List Loc := []
  sweeps   : List Nat := []
  remote   : List RemoteAsk := []
  seqOut   : Nat := 0
  asked    : Table JournalEntry := []
  applied  : List (Nat × Nat) := []
  homeRefs : List HomeRef := []
  deriving DecidableEq, Repr

/-- The types of a key (R149). -/
inductive KeyType where
  | aes128 | aes256 | xts128 | xts256 | hmac | sak
  deriving DecidableEq, Repr

/-- The code of a key type (R149). -/
def KeyType.code : KeyType → Nat
  | .aes128 => 1 | .aes256 => 2 | .xts128 => 3 | .xts256 => 4 | .hmac => 5 | .sak => 6

/-- The key bytes of a type (R149). -/
def KeyType.bytes : KeyType → Nat
  | .aes128 => 16 | .aes256 => 32 | .xts128 => 32 | .xts256 => 64 | .hmac => 32 | .sak => 32

/-- One generation of a cipher slot (R149). -/
structure KeyGen where
  gen  : Nat
  type : KeyType
  key  : List Byte
  deriving DecidableEq, Repr

/-- A cipher slot (R149, R154): its current and previous generation; Damaged; the seals of its entry in the two copies of the table. -/
structure CipherSlot where
  tenant  : Nat := 0
  cur     : Option KeyGen := none
  prev    : Option KeyGen := none
  damaged : Bool := false
  seals   : Nat × Nat := (0, 0)
  deriving DecidableEq, Repr

/-- A keyed-digest slot (R507, R111): its key, whether its two states are computed and stored, the seal of the stored states, and
the seals of its entry in the two copies of the slot table (R154). -/
structure DigestSlot where
  tenant  : Nat := 0
  key     : List Byte
  ready   : Bool := false
  sealId  : Nat := 0
  seals   : Nat × Nat := (0, 0)
  damaged : Bool := false
  deriving DecidableEq, Repr

/-- A generation ledger entry (R155): tenant, current and previous generation, the generation last issued, and for each
generation with stored containers its count and revoked flag. -/
structure Ledger where
  tenant : Nat := 0
  cur    : Option Nat := none
  prev   : Option Nat := none
  last   : Nat := 0
  counts : Table (Nat × Bool) := []
  deriving DecidableEq, Repr

/-- The operations of a load block (R150). -/
structure KeyLoad where
  type    : Nat
  kek     : Nat
  slot    : Nat
  tenant  : Nat
  gen     : Nat := 0
  op      : Nat := 0
  wrapped : List Byte
  salt    : List Byte := []
  ssci    : Nat := 0
  reservedZero : Bool := true
  deriving DecidableEq, Repr

/-- Whether a key operation names a cipher slot or a keyed-digest slot (R152, R507). -/
inductive SlotKind where
  | cipher | digest
  deriving DecidableEq, Repr

/-- What the part keeps of one stored container (R119, R132, R152): its place, its domain, the slot, generation and cut time
of its header, and its fingerprint where it may stand in an index. -/
structure StoredMark where
  loc    : Loc
  domain : Nat
  slot   : Nat
  gen    : Nat
  cut    : Nat
  fp     : Option (List Byte) := none
  deriving DecidableEq, Repr

/-- Key slots (chapter 05): the internal wrapping key, which is drawn at every power-up and never readable (R154), loaded KEKs, slots, the ledger
with the stored containers that it counts, sweeps running per domain, containers read for a sweep and not yet rewritten, the replica of the peer's
ledger (R155, R376), and the revoked generations (slot, number) until their number is issued again: a chunk encrypted before the revoke may still
be stored under one (R153, R155). -/
structure Keys where
  wrap    : Nat := 0
  keks    : Table (List Byte) := []
  cipher  : Table CipherSlot := []
  digest  : Table DigestSlot := []
  ledger  : Table Ledger := []
  sweeps  : Table (List HostCmd) := []
  stored  : List StoredMark := []
  rekeyed : List (Loc × Container) := []
  peerLedger : Table Ledger := []
  gone    : List (Nat × Nat) := []
  deriving DecidableEq, Repr

/-- The operations of a compression job (R143). -/
inductive CompOp where
  | compress | decompress | crc | importOp
  deriving DecidableEq, Repr

/-- The formats of a compression job (R143). -/
inductive CompFormat where
  | deflate | zlib | gzip | lz4
  deriving DecidableEq, Repr

/-- A compression job's parameters (R143). -/
structure CompParams where
  op     : CompOp
  format : CompFormat
  level  : Nat
  inLen  : Nat
  outLimit : Nat
  seed   : Nat := 0
  domain : Nat := 0
  dst    : Nat := 0
  reservedZero : Bool := true
  deriving DecidableEq, Repr

/-- The modes of a cipher job (R144). -/
inductive CipherMode where
  | cbc | ctr | cfb | xts | gcm
  deriving DecidableEq, Repr

/-- A cipher job's parameters (R144). -/
structure CipherParams where
  mode     : CipherMode
  decrypt  : Bool := false
  buffered : Bool := false
  scrub    : Bool := false
  slot     : Nat
  gen      : Nat
  tagLen   : Nat := 0
  ctrWidth : Nat := 0
  duLog2   : Nat := 0
  msgLen   : Nat
  aadLen   : Nat := 0
  iv       : List Byte
  expected : List Byte := []
  dst      : Nat := 0
  reservedZero : Bool := true
  deriving DecidableEq, Repr

/-- A job on a lane (R147): its command, lane, whether it is one of the lane's streams, parameters, input taken so far and bytes written. -/
structure Job where
  cmd     : HostCmd
  lane    : Nat
  begun   : Bool := false
  comp    : Option CompParams := none
  cipher  : Option CipherParams := none
  input   : List Byte := []
  written : Nat := 0
  stop    : Bool := false
  squashed : Bool := false
  deriving DecidableEq, Repr

/-- The result block of a job (R145). -/
structure JobResult where
  status    : Nat
  untrusted : Bool := false
  scrubbed  : Bool := false
  crc       : Nat := 0
  written   : Nat := 0
  tag       : List Byte := []
  deriving DecidableEq, Repr

/-- The bindery (chapters 04 and 05): per lane the 16 digest slots most recently used, whose states it caches (R111), the stream last
served (ticket of its command, first byte of its segment) and the time of its last
cut, and the jobs. -/
structure Bindery where
  states   : Table (List Nat) := []
  lastStream : Table (Nat × Nat) := []
  lastCut  : Table Nat := []
  jobs     : List Job := []
  deriving DecidableEq, Repr

/-- The states of an own segment (R161). -/
inductive SegState where
  | free | opened | full | destaging | released
  deriving DecidableEq, Repr

/-- A root change of a metadata record (R270): the change, and the 64-byte table entry as it stands after it. -/
structure RootChange where
  op    : MetaOp
  entry : List Byte := []
  deriving DecidableEq, Repr

/-- What a mirror record carries (R163). -/
inductive RecBody where
  | write (delta : List Extent) (containers : List (Nat × Container))
  | metadata (changes : List RootChange)
  | release
  deriving DecidableEq, Repr

/-- A mirror record (R163). `containers` pairs each container with its offset in the segment. -/
structure MirRec where
  retransmit : Bool := false
  opened  : Bool := false
  head    : Bool
  epoch   : Nat
  seq     : Nat
  seg     : Nat
  gen     : Nat
  off     : Nat
  len     : Nat
  tag     : Nat := 0
  time    : Nat := 0
  nsid    : Nat := 0
  part    : Nat := 0
  parts   : Nat := 1
  body    : RecBody
  deriving DecidableEq, Repr

/-- An own segment (R161, R163): state, generation, bytes filled, the lane it is open for (36: metadata), when it became
Full, its records in order, and the offsets of the containers that stand in complete signatures or are lost. -/
structure OwnSeg where
  state : SegState := .free
  gen   : Nat := 0
  fill  : Nat := 0
  lane  : Nat := 0
  fullAt : Nat := 0
  recs  : List MirRec := []
  done  : List Nat := []
  deriving DecidableEq, Repr

/-- A mirror segment (R161, R167): Held, its generation, held in this epoch, its records, whether it is adopted (R173), and
the offsets of its containers that stand in complete signatures. -/
structure MirSeg where
  held  : Bool := false
  gen   : Nat := 0
  inEpoch : Bool := false
  recs  : List MirRec := []
  adopted : Bool := false
  done  : List Nat := []
  deriving DecidableEq, Repr

/-- A record in the own region: the record, its timeouts since it was sent, its acknowledgement, and whether it has left
(R165: at most 8,192 of an epoch are unacknowledged). -/
structure SentRec where
  rcd      : MirRec
  timeouts : Nat := 0
  acked    : Bool := false
  onWire   : Bool := true
  deriving DecidableEq, Repr

/-- A mirror acknowledgement (R164); `head` is the acknowledging head (true: head B). -/
structure MirAck where
  result  : Nat
  head    : Bool := false
  seg     : Nat
  epoch   : Nat
  seq     : Nat
  applied : Nat
  gen     : Nat
  deriving DecidableEq, Repr

/-- Whether a record or acknowledgement passes its CRC checks (R164). -/
inductive CrcCheck where
  | pass | fail
  deriving DecidableEq, Repr

/-- The mirror modes (R170). -/
inductive MirMode where
  | off | mirrored | suspect | solo | resync | destage
  deriving DecidableEq, Repr

/-- The code of a mirror mode in DDR_MIR_STATE.MODE (R170). -/
def MirMode.code : MirMode → Nat
  | .off => 0 | .mirrored => 1 | .suspect => 2 | .solo => 3 | .resync => 4 | .destage => 5

/-- A segment that a manifest names (R176): an own or adopted segment, its generation and its sequence range. -/
structure ManSeg where
  adopted : Bool
  seg     : Nat
  gen     : Nat
  first   : Nat
  last    : Nat
  deriving DecidableEq, Repr

/-- A destage manifest (R176): epoch, head, ring time of the warning, segments with generation and sequence range, the places that its
containers took, sealed, bytes destaged, and the duration in ms (DDR_PF_STATUS.LAST_MS). -/
structure Manifest where
  epoch  : Nat
  head   : Bool
  time   : Nat
  segs   : List ManSeg
  places : List Loc := []
  sealed : Bool := false
  bytes  : Nat := 0
  ms     : Nat := 0
  deriving DecidableEq, Repr

/-- The write cache, the mirror and the power-fail machine (chapter 06). Own and mirror segments by number; the records of
this epoch by sequence; the sender's next sequence; the receiver's applied mark and the sequences applied above it, the
records applied of writes not yet complete, the ring times of the last metadata change applied and of the last one before this epoch,
the acknowledgements that wait for QD; the copies that wait for a training port (R165); the containers asked for at the peer because they
cannot be read here, by request, and those that have come (R177, R509); the mode and the mode Suspect returns to;
lanes stalled at the hand-off; the re-sent records still open; the open or sealed manifest and the start of the warning; whether the
peer's records are no longer applied (R175) and whether sending has stopped (R166). -/
structure Cache where
  own     : Table OwnSeg := []
  mir     : Table MirSeg := []
  sent    : Table SentRec := []
  nextSeq : Nat := 1
  applied : Nat := 0
  above   : List Nat := []
  rx      : List MirRec := []
  metaTime : Nat := 0
  metaSeen : Nat := 0
  ackWait : List MirRec := []
  copies  : List (Nat × MirRec) := []
  asks    : Table Loc := []
  fetched : List (Loc × Container) := []
  mode    : MirMode := .off
  back    : MirMode := .mirrored
  stalled : List Nat := []
  resyncLeft : List Nat := []
  warnAt  : Nat := 0
  destage : Option Manifest := none
  stopped : Bool := false
  halted  : Bool := false
  deriving DecidableEq, Repr

end Sys2Proof.Machine
end

