-- ==== Sys2Proof/Machine/TypesStore.lean ====
section
/-!
DEFINITION. Machine/TypesStore.lean: the data of chapters 07, 08 and 09: quires, signatures and the sewing log; leaves, hops
and die plans; namespaces, map pages, snapshots and the map cache.
-/
namespace Sys2Proof.Machine

/-! Chapter 07 -/

/-- The states of a quire (R199); a Free quire is not listed. -/
inductive QuireState where
  | opened | closed | collecting | draining | erasing
  deriving DecidableEq, Repr

/-- Why a quire is queued for collection, in order of urgency (R200, R208, R214, R205). -/
inductive CollectFor where
  | rebuild | finding | drain | space
  deriving DecidableEq, Repr

/-- A quire (R189, R197, R199, R202): its pool and shape, the slots (leaf, unit), the head that opened it, its place in
opening order, the next signature index, the containers of its complete signatures, the
forwarding entries from old to new place, the slots erased, and why it is queued for collection. -/
structure Quire where
  pool    : Nat
  width   : Nat
  parity  : Nat
  slots   : List (Nat × Nat)
  head    : Bool
  state   : QuireState := .opened
  order   : Nat := 0
  next    : Nat := 0
  held    : List Loc := []
  forwards : List (Loc × Loc) := []
  erased  : List Nat := []
  queued  : Option CollectFor := none
  deriving DecidableEq, Repr

/-- The body of a sewing-log entry (R194). -/
inductive LogBody where
  | opened (slots : List (Nat × Nat))
  | sewn (crcs : List Nat)
  | voided
  | closed (count : Nat)
  | released
  | watermark
  deriving DecidableEq, Repr

/-- The type byte of a sewing-log entry (R194). -/
def LogBody.code : LogBody → Nat
  | .opened _ => 1 | .sewn _ => 2 | .voided => 3 | .closed _ => 4 | .released => 5 | .watermark => 6

/-- A sewing-log entry (R194). -/
structure LogEntry where
  head   : Bool
  epoch  : Nat
  seq    : Nat
  time   : Nat
  pool   : Nat := 0
  width  : Nat := 0
  parity : Nat := 0
  quire  : Nat := 0
  sig    : Nat := 0
  retire : Nat := 0
  body   : LogBody
  deriving DecidableEq, Repr

/-- A sewing-log page that has been sent: its number, its entries, the copies that have acknowledged it, and whether it is durable (R193). -/
structure LogPage where
  number  : Nat
  entries : List LogEntry
  acks    : List Nat := []
  durable : Bool := false
  deriving DecidableEq, Repr

/-- One copy of the sewing log (R193, R195, R236): its leaf; whether it is current; while it is reseeded, whether it is; and the pages that it
holds, each as its last entry's sequence and the page of the leaf's region. -/
structure LogCopy where
  leaf    : Nat
  valid   : Bool
  reseeding : Bool := false
  pages   : List (Nat × Nat) := []
  deriving DecidableEq, Repr

/-- A signature in flight (R191): where it lies, its log sequence, each container's old and new place, the gathered containers among them, the
folios, whether its entry is durable and its writes issued, the members acknowledged. -/
structure Sig where
  pool    : Nat
  quire   : Nat
  index   : Nat
  seq     : Nat
  moves   : List (Loc × Loc)
  taken   : List (Loc × List Byte) := []
  folios  : List (List Byte)
  issued  : Bool := false
  acked   : List Nat := []
  deriving DecidableEq, Repr

/-- A pool configuration as the heads exchange it (R186): EN, WIDTH, PARITY, EXPRESS, META and the member leaves. -/
structure PoolCfg where
  en      : Bool
  width   : Nat
  parity  : Nat
  express : Bool
  isMeta  : Bool
  members : List Nat
  deriving DecidableEq, Repr

/-- A sewn signature whose trailers are being read (R196): its log entry, the members whose trailer is there and matches it, and whether one is
not there or does not match. -/
structure TrailerCheck where
  entry : LogEntry
  good  : List Nat := []
  bad   : Bool := false
  deriving DecidableEq, Repr

/-- A signature that patrol reads (R213): its place, whether a dummy round goes wrong in the DEEP check (R156), the codewords that have come
(member, codeword, bytes) and those that cannot be read (member, codeword). -/
structure Patrol where
  quire : Nat
  sig   : Nat
  fault : Bool := false
  got   : List (Nat × Nat × List Byte) := []
  bad   : List (Nat × Nat) := []
  deriving DecidableEq, Repr

/-- Signatures (chapter 07): quires by number with the opening order's counter, signatures in flight, containers gathered
for sewing by pool (from collection or the mover), the sewing log of this head, the pool configurations last agreed with
the peer, the leaf that a drain works on, the signatures patrolled in this pass, the failed leaves whose loss has been accepted per
pool, whether a rebuild runs, the leaves whose log regions are being read for R196, and whether the start's reading is still to come,
the QS role whose signatures a standby is taking up (R461), the entries that the reading of the log has found, the signatures whose trailers are
being read and the log region that they are of (R196), and the signatures that patrol reads (R213). -/
structure Signatures where
  quires   : Table Quire := []
  order    : Nat := 0
  flight   : List Sig := []
  staged   : Table (List (Loc × List Byte)) := []
  logSeq   : Nat := 0
  page     : List LogEntry := []
  pageNo   : Nat := 0
  sent     : List LogPage := []
  copies   : List LogCopy := []
  live     : List LogEntry := []
  paused   : Bool := false
  agreed   : Table PoolCfg := []
  cmdLeaf  : Option Nat := none
  patrolAt : Nat := 0
  accepted : Table (List Nat) := []
  rebuilding : Bool := false
  scans    : List Nat := []
  scanStart : Bool := false
  retake   : Option Nat := none
  found    : List LogEntry := []
  checks   : List TrailerCheck := []
  checking : Option Nat := none
  patrols  : List Patrol := []
  deriving DecidableEq, Repr

/-! Chapter 08 -/

/-- The states of a hop or a ring link's physical layer (R226). -/
inductive HopState where
  | down | detect | equalize | lock | active | retrain
  deriving DecidableEq, Repr

/-- The code of a hop state (R226). -/
def HopState.code : HopState → Nat
  | .down => 0 | .detect => 1 | .equalize => 2 | .lock => 3 | .active => 4 | .retrain => 5

/-- A hop of a leaf lane (R225, R226): its state, the sequence last replayed and how often, and the retrains that failed in a row. -/
structure Hop where
  state    : HopState := .down
  seq      : Nat := 0
  replays  : Nat := 0
  fails    : Nat := 0
  deriving DecidableEq, Repr

/-- What IDENTIFY returns (R229). -/
structure LeafId where
  serial  : Nat
  port    : Nat := 0
  bits    : Nat := 3
  dies    : Nat := 1
  unitsPerDie : Nat := 256
  unitMiB : Nat := 16
  modes   : Nat := 1
  senses  : Nat := 1
  programs : Nat := 1
  erases  : Nat := 1
  firmware : Nat := 0
  dead    : Bool := false
  deriving DecidableEq, Repr

/-- A die plan (R240). -/
structure DiePlan where
  gen     : Nat := 0
  mode    : Nat := 0
  sense   : Nat := 0
  program : Nat := 0
  erase   : Nat := 0
  suspend : Bool := false
  delta   : Nat := 1
  base    : List Int := []
  slopes  : List Int := []
  ladder  : List Int := []
  deriving DecidableEq, Repr

/-- A die's report in a HEALTH completion (R233, R244): the highest and the mean erase count, the mean program and erase times, the retired blocks,
the temperature, and whether the leaf reports the die failed. -/
structure DieHealth where
  die    : Nat
  erases : Nat
  mean   : Nat := 0
  programTime : Nat := 0
  eraseTime : Nat := 0
  retiredBlocks : Nat := 0
  temperature : Nat := 0
  failed : Bool := false
  deriving DecidableEq, Repr

/-- What the planner keeps for a die (R243, R244): the plan, whether it is retired, and over the interval the codewords
hard-decoded with the bits corrected, the reads, those that needed a retry step and the soft step, the successes of each
step, unreadable codewords, the erase count as last reported, the multiple of AGE_STEP that it had reached at the last look, the
valley-search reads left with what each trial corrected (threshold, offset, bits), and the last HEALTH report. -/
structure Die where
  plan    : DiePlan := {}
  retired : Bool := false
  words   : Nat := 0
  bitsFixed : Nat := 0
  reads   : Nat := 0
  retried : Nat := 0
  soft    : Nat := 0
  steps   : Table Nat := []
  unreadable : Nat := 0
  erases  : Nat := 0
  aged    : Option Nat := none
  valley  : Nat := 0
  trials  : List (Nat × Int × Nat) := []
  report  : Option DieHealth := none
  deriving DecidableEq, Repr

/-- The condition of a member leaf (R203). -/
inductive MemberCond where
  | present | oneSided | absent | failed | draining
  deriving DecidableEq, Repr

/-- One leaf as this head knows it (R203, R204, R229 to R231, R236, R244): its identity, the serial the peer found, the
serial that it joined its pool with, its condition, the dirty-region bitmap (quire numbers), the blocks of 256 units
granted (true: to this head), the units in quires, the next page of this head's log region, its dies, whether the control host drains it (R205),
and the units that failed in the NAND (R248). -/
structure Leaf where
  id      : Option LeafId := none
  peerId  : Option Nat := none
  joined  : Option Nat := none
  cond    : MemberCond := .present
  bitmap  : List Nat := []
  blocks  : Table Bool := []
  used    : List Nat := []
  logNext : Nat := 0
  dies    : Table Die := []
  drain   : Bool := false
  bad     : List Nat := []
  deriving DecidableEq, Repr

/-- A container being read from the leaves (R188, R206): what for, its place, the parts in (offset in the container,
bytes), and whether it waits for the log to be read (R196). -/
structure Gather where
  for_  : GatherFor
  loc   : Loc
  parts : List (Nat × List Byte) := []
  parked : Bool := false
  deriving DecidableEq, Repr

/-- What a leaf read serves: a gathered container, a member's codeword of a degraded read, a proxy read of the peer, the check of a trailer
(R196), patrol (R213), or the look at a leaf that has returned (R204). -/
inductive ReadUse where
  | gather (id : Nat)
  | degraded (id member : Nat)
  | proxy (id : Nat)
  | trailer (quire sig member : Nat)
  | patrol (quire sig member : Nat)
  | visit
  deriving DecidableEq, Repr

/-- A read of codewords (R206, R233, R239): the place (leaf, unit, folio, first codeword, count), what it serves, its quire
and member, the payload range wanted and where that goes in what is read, the ladder step (9: the soft step), the re-read
taken, the step that corrected the most bits, whether it has been overtaken (R207), and the trial of a valley search that it makes (R243): a
threshold and the offset from its base. -/
structure LeafRead where
  leaf    : Nat
  unit    : Nat
  folio   : Nat
  first   : Nat
  count   : Nat
  use     : ReadUse
  quire   : Nat := 0
  member  : Nat := 0
  off     : Nat := 0
  len     : Nat := 0
  start   : Nat := 0
  step    : Nat := 0
  reread  : Bool := false
  best    : Nat × Nat := (0, 0)
  overtaken : Bool := false
  trial   : Option (Nat × Int) := none
  deriving DecidableEq, Repr

/-- The commands of the leaf link (R233), by name, and the enumeration (R228). -/
inductive LeafCmd where
  | identify | health | read | readSoft | program | erase | logAppend | logRead | logTrim | setPlan | getPlan | grant
  | witnessRead | witnessCas | portReset | enumerate
  deriving DecidableEq, Repr

/-- The opcode of a leaf command (R233); the enumeration has none. -/
def LeafCmd.code : LeafCmd → Nat
  | .identify => 0x01 | .health => 0x02 | .read => 0x10 | .readSoft => 0x11 | .program => 0x12 | .erase => 0x13
  | .logAppend => 0x20 | .logRead => 0x21 | .logTrim => 0x22 | .setPlan => 0x30 | .getPlan => 0x31 | .grant => 0x40
  | .witnessRead => 0x50 | .witnessCas => 0x51 | .portReset => 0x7F | .enumerate => 0

/-- What a command outstanding at a leaf is for (R233): the rows' own uses, a trim of the log (R236), a full erase (R205), an enumeration (R228). -/
inductive LeafFor where
  | identify
  | health (die count : Nat)
  | read (r : LeafRead)
  | proxied (r : LeafRead)
  | folio (quire sig member : Nat)
  | erase (quire slot : Nat)
  | log (copy page : Nat)
  | logRead (copy first : Nat)
  | grant (op block : Nat)
  | plan (die : Nat) (p : DiePlan)
  | witnessRead
  | witnessCas
  | trim
  | wipe
  | enumerate
  deriving DecidableEq, Repr

/-- A command to a leaf (R223, R234): the leaf, what it is for, the command, its parameter bytes and data, and the tag index under which it is
outstanding; none while it waits. -/
structure LeafOp where
  leaf : Nat
  for_ : LeafFor
  cmd  : LeafCmd
  params : List Byte := []
  bytes : List Byte := []
  tag  : Option Nat := none
  deriving DecidableEq, Repr

/-- What the two ends of a hop do beside carrying flits (R225, R226): Detect is tried, codewords are replayed from a sequence, or the far end is
asked for a replay from one. -/
inductive HopAct where
  | detect
  | replay (seq : Nat)
  | request (seq : Nat)
  deriving DecidableEq, Repr

/-- A degraded read of one codeword under way (R206): the read it stands for, the members asked for, the bytes in, and the members that failed. -/
structure Degraded where
  want    : LeafRead
  asked   : List Nat
  got     : List (Nat × List Byte) := []
  failed  : List Nat := []
  deriving DecidableEq, Repr

/-- The outcome of decoding the codewords of a completion (R238): the bits corrected and the bytes, or a failure. -/
inductive Decoded where
  | good (bitsFixed : Nat) (bytes : List Byte)
  | failed (bitsFixed : Nat)
  deriving DecidableEq, Repr

/-- A witness record (R245). Holder: 0 none, 1 head A, 2 head B. -/
structure Witness where
  holder : Nat := 0
  fence  : Bool := false
  term   : Nat := 0
  epoch  : Nat := 0
  writer : Nat := 0
  time   : Nat := 0
  crcOk  : Bool := true
  deriving DecidableEq, Repr

/-- The leaf side (chapter 08): hops by lane × 16 + position, leaves by number, commands by number with the next number free,
containers being gathered, degraded reads, and per lane the flits of commands that the first leaf holds (R224). -/
structure LeafSide where
  hops     : Table Hop := []
  leaves   : Table Leaf := []
  ops      : Table LeafOp := []
  nextId   : Nat := 0
  gathers  : Table Gather := []
  degraded : Table Degraded := []
  flits    : Table Nat := []
  deriving DecidableEq, Repr

/-! Chapter 09 -/

/-- A map page (R254, R255): level, addresses covered, entries (interior: first address and child; leaf: extents), its
reference count, its DDR slot, whether an image of it has been written back, whether it is dirty, whether it cannot be rebuilt, the ring time of
its last write-back, and the place of its image in the metadata pool once the image's signature is complete. -/
structure MapPage where
  level : Nat := 0
  lo    : Nat := 0
  hi    : Nat
  kids  : List (Nat × Nat) := []
  exts  : List Extent := []
  refs  : Nat := 1
  slot  : Option Nat := none
  image : Bool := false
  dirty : Bool := true
  gone  : Bool := false
  saved : Nat := 0
  place : Option Loc := none
  deriving DecidableEq, Repr

/-- A namespace-table entry (R263). -/
structure Namespace where
  tenant   : Nat
  pool     : Nat
  size     : Nat
  root     : Nat
  group    : Nat
  programs : Bool := false
  moving   : Option Nat := none
  source   : Option (Nat × Nat) := none
  deriving DecidableEq, Repr

/-- A snapshot-table entry (R266). -/
structure Snapshot where
  root     : Nat
  time     : Nat
  group    : Option Nat := none
  clones   : Nat := 0
  deleting : Bool := false
  deriving DecidableEq, Repr

/-- The parameters of NS_CREATE and NS_CHANGE (R263, R264, R397), as the descriptor gives them. -/
structure NsParams where
  nsid     : Nat
  tenant   : Nat := 0
  pool     : Nat := 0
  size     : Nat := 1
  group    : Nat := 0
  programs : Bool := false
  newPool  : Option Nat := none
  newSize  : Option Nat := none
  newPrograms : Option Bool := none
  reservedZero : Bool := true
  deriving DecidableEq, Repr

/-- A set of the map cache (R272): its ways (tag, prefetched and not yet hit) and the 15 pseudo-LRU bits. -/
structure CacheSet where
  ways : List (Option (Nat × Bool))
  plru : Nat := 0
  deriving DecidableEq, Repr

/-- An outstanding fill (R273, R276): line number (address ÷ 256), whether a prefetch, poisoned, and its waiters. -/
structure Fill where
  line     : Nat
  prefetch : Bool := false
  poisoned : Bool := false
  waiters  : Nat := 1
  deriving DecidableEq, Repr

/-- A cache maintenance operation in progress (R275). -/
inductive CacheOp where
  | all | range
  deriving DecidableEq, Repr

/-- What comes of a page-in (R256): good, rebuilt from parity, or not rebuilt. -/
inductive PageIn where
  | good | rebuilt | unreadable
  deriving DecidableEq, Repr

/-- A map delta of the peer that waits to enter the replica (R168, R256): its namespace, its extents, and the page that it waits for, none where
it waits for MAP_CTRL.EN or for a page number. -/
structure PendingDelta where
  nsid  : Nat
  delta : List Extent
  page  : Option Nat := none
  deriving DecidableEq, Repr

/-- The map (chapter 09): namespaces by NSID, snapshots by NSID × 65,536 + ID, pages by number with the numbers freed and
the next unused one per head, pages at count zero, the container reference table, the lookups that wait for a page
(page, tag), the tags whose lookup or update waits for MAP_CTRL.EN or for page numbers, joined members by consistency group, the map cache, its
fills, its maintenance and the addresses whose lookups stall; the referrer lists by holder (R258), the pages rewritten while not resident with the
holder of the old place, the replica's waiting deltas, and whether the change being made has found no page number or slot. -/
structure MapSide where
  ns       : Table Namespace := []
  snaps    : Table Snapshot := []
  pages    : Table MapPage := []
  freed    : List Nat := []
  nextA    : Nat := 0
  nextB    : Nat := 0
  zero     : List Nat := []
  counts   : List (Loc × Nat) := []
  faults   : List (Nat × Nat) := []
  waiting  : List Nat := []
  joined   : Table (List Nat) := []
  sets     : Table CacheSet := []
  fills    : List Fill := []
  maint    : Option CacheOp := none
  stalled  : List Nat := []
  referrers : Table (List Nat) := []
  late     : List (Nat × Nat) := []
  deltas   : List PendingDelta := []
  short    : Bool := false
  deriving DecidableEq, Repr

end Sys2Proof.Machine
end

