-- ==== Sys2Proof/Machine/TypesPair.lean ====
section
/-!
DEFINITION. Machine/TypesPair.lean: the data of chapters 12 and 13: ring links, the directory and time; the ownership
table, the witness contest, forwarding and the scrub.
-/
namespace Sys2Proof.Machine

/-! Chapter 12 -/

/-- The states of a ring link (R338). -/
inductive LinkState where
  | down | detect | equalize | lock | hello | active | retrain | isolated
  deriving DecidableEq, Repr

/-- The code of a ring link's state in XRN_LINK_STATUS (R338). -/
def LinkState.code : LinkState → Nat
  | .down => 0 | .detect => 1 | .equalize => 2 | .lock => 3 | .hello => 4 | .active => 5 | .retrain => 6 | .isolated => 7

/-- A hello flit (R339): device ID, STRAP_HEAD, keeper and deputy, versions, features, time floor, and the number that the
far end gives the link. -/
structure Hello where
  device   : Nat
  head     : Bool
  keeper   : Bool := false
  deputy   : Bool := false
  major    : Nat := 1
  minMinor : Nat := 0
  maxMinor : Nat := 2
  features : Nat := 15
  floor    : Nat := 0
  link     : Nat := 0
  deriving DecidableEq, Repr

/-- One ring link (R337 to R339, R348): its state, retrains failed in a row, the sequence last replayed and how often, the
far end's hello, the delays of the last exchanges in 1/256 tick, the time flits sent and received, and whether the last
received carried usable time, and at what depth and term. -/
structure RingLink where
  state    : LinkState := .down
  failed   : Nat := 0
  seq      : Nat := 0
  replays  : Nat := 0
  far      : Option Hello := none
  delays   : List Int := []
  sentSeq  : Nat := 0
  recvSeq  : Nat := 0
  recvAt   : Int := 0
  timeValid : Bool := false
  depth    : Nat := 0xFF
  term     : Nat := 0
  deriving DecidableEq, Repr

/-- The states of a device (R344). -/
inductive DeviceState where
  | isolated | joining | locking | attached | leaving | gone
  deriving DecidableEq, Repr

/-- The code of a device state (R344). -/
def DeviceState.code : DeviceState → Nat
  | .isolated => 0 | .joining => 1 | .locking => 2 | .attached => 3 | .leaving => 4 | .gone => 5

/-- A directory entry (R342); a device ID of 0 stands for a free address that keeps its floor (R351). -/
structure DirEntry where
  device   : Nat
  parent   : Nat := 0
  keeper   : Bool := false
  deputy   : Bool := false
  head     : Bool := false
  depth    : Nat := 0
  state    : DeviceState := .joining
  minor    : Nat := 2
  hops     : Nat := 0
  features : Nat := 15
  floor    : Nat := 0
  deriving DecidableEq, Repr

/-- A join message (R342): the hello's contents, the address asked for, state, depth, neighbours (device, link), and the settings of the domains
whose home the joining pair is (R128): (domain, HMAC). -/
structure Join where
  hello   : Hello
  request : Nat
  state   : DeviceState := .joining
  depth   : Nat := 0
  parentDevice : Nat := 0
  neighbours : List (Nat × Nat) := []
  settings : List (Nat × List Byte) := []
  deriving DecidableEq, Repr

/-- A time flit as it is received (R348): validity, depth, term, keeper, its departure and our last flit's arrival at the far
end, in 1/256 tick, when that flit of ours departed and when this one arrived here, and the sequences. -/
structure TimeFlit where
  valid   : Bool
  depth   : Nat
  term    : Nat
  keeper  : Nat
  seq     : Nat
  t1      : Int
  t2      : Int
  t3      : Int
  t4      : Int
  deriving DecidableEq, Repr

/-- The ring (chapter 12): links, the directory, the parent link and depth, device state, whether it has been Attached, runs of good and
bad time flits, the floor, whether the keeper still gathers joins, joins gathered, holdover, the servo's rate in parts in 10^9, the part
of a tick not yet counted in 10^-9 tick, the enumeration last taken (term, keeper, depth), the neighbour lists last reported to the keeper by
device, and whether ring time is still to pass the floor (R352). -/
structure RingSide where
  links     : Table RingLink := []
  dir       : Table DirEntry := []
  parent    : Option Nat := none
  depth     : Nat := 0
  state     : DeviceState := .isolated
  good      : Nat := 0
  bad       : Nat := 0
  floor     : Nat := 0
  gathering : Bool := false
  joins     : List Join := []
  holdover  : Bool := false
  rate      : Int := 0
  phase     : Nat := 0
  attachedOnce : Bool := false
  enumSeen  : Option (Nat × Nat × Nat) := none
  neigh     : Table (List (Nat × Nat)) := []
  floorWait : Bool := false
  deriving DecidableEq, Repr

/-! Chapter 13 -/

/-- The states of a group (R359). -/
inductive GroupState where
  | settled | moving | taking
  deriving DecidableEq, Repr

/-- The code of a group state in OWN_GROUP_CFG.STATE (R380). -/
def GroupState.code : GroupState → Nat
  | .settled => 0 | .moving => 1 | .taking => 2

/-- An entry of the ownership table (R359): owner (true: head B), generation, state. -/
structure Group where
  owner : Bool
  gen   : Nat := 0
  state : GroupState := .settled
  deriving DecidableEq, Repr

/-- A contest (R369): the round, the term N that this head proposes (0 until the reads are in), the leaves asked, the
records read, the leaves whose CAS has been answered with whether ours was installed, the records that came back, whether the round ended
open, whether R370 started it, and whether any CAS has been issued. -/
structure Contest where
  round   : Nat := 1
  term    : Nat := 0
  asked   : List Nat
  read    : List (Nat × Option Witness) := []
  cas     : List Nat := []
  won     : List Nat := []
  back    : List (Nat × Option Witness) := []
  opened  : Bool := false
  atStart : Bool := false
  issued  : Bool := false
  deriving DecidableEq, Repr

/-- A forwarding header (R361), with the host that the command comes from, which the owner needs for reservations (R99; DESIGN CHOICE, log
entry 89: R361's header names no host). -/
structure FwdHeader where
  rtag     : Nat
  otag     : Nat := 0
  tenant   : Nat := 0
  group    : Nat := 0
  cancel   : Bool := false
  accepted : Bool := false
  final    : Bool := false
  lastData : Bool := false
  returned : Bool := false
  port     : Nat := 0
  status   : NvmeStatus := { sct := 0, sc := 0 }
  gen      : Nat := 0
  hostId   : Nat := 0
  deriving DecidableEq, Repr

/-- A unit group of forwarded data (R363, R364): an extent with its container. -/
structure FwdUnit where
  ext       : Extent
  container : List Byte := []
  deriving DecidableEq, Repr

/-- A heartbeat (R365). -/
structure Heartbeat where
  head      : Bool
  ready     : Bool := false
  witness   : Bool := false
  contesting : Bool := false
  destage   : Bool := false
  mode      : Nat := 0
  epoch     : Nat := 0
  term      : Nat := 0
  seq       : Nat := 0
  time      : Nat := 0
  applied   : Nat := 0
  genSum    : Nat := 0
  deriving DecidableEq, Repr

/-- An epoch proposal (R367): the epoch, the group table, the witness set. -/
structure Proposal where
  epoch  : Nat
  groups : Table Group
  witness : List Nat
  deriving DecidableEq, Repr

/-- A slice of the scrub (R376): 4,096 page numbers by number, or 256 KiB of a table (0 namespaces, 1 snapshots, 2 groups) by number. -/
inductive ScrubSlice where
  | pages (first : Nat)
  | table (which offset : Nat)
  deriving DecidableEq, Repr

/-- What answers a scrub page request (R376): a page, or an entry of a table, as the owner holds it; none where it holds none. -/
inductive ScrubImage where
  | page (n : Nat) (p : Option MapPage)
  | ns (nsid : Nat) (e : Option Namespace)
  | snap (nsid id : Nat) (e : Option Snapshot)
  | group (g : Nat) (x : Group)
  | ledger (slot : Nat) (l : Option Ledger)
  deriving DecidableEq, Repr

/-- Ownership (chapter 13): the table, whether the heads have paired before, the contest, a power-fail holdoff, whether this head waits at start,
the group being moved and whether this head is the one that gives it up, the time of the last heartbeat, the heartbeat and suspicion times, the
scrub position with the pages asked for and whether a pass has ended this epoch, a rejoin being waited for, the epoch proposed and the highest
that the peer has used, whether this head lost, the term at which a winner fences the leaves, and whether the peer's health report shows it on
trial (R454). -/
structure Ownership where
  groups   : Table Group := []
  paired   : Bool := false
  contest  : Option Contest := none
  holdoff  : Bool := false
  starting : Bool := false
  move     : Option Nat := none
  lastBeat : Option Nat := none
  suspect  : Option Nat := none
  beatSeq  : Nat := 0
  scrubAt  : Nat := 0
  scrubBad : List Nat := []
  passDone : Bool := false
  rejoin   : Bool := false
  proposed : Option Nat := none
  peerEpoch : Nat := 0
  loser    : Bool := false
  fencing  : Option Nat := none
  peerTrial : Bool := false
  deriving DecidableEq, Repr

/-- What the metadata pool and the destaged signatures hold over a loss of power (R175, R176, R181, R256): the manifest in its two copies, the map
with its page images, quires and sewing log, the key ledger, the reconcile journal and the flash index, the ownership table, the
own and adopted segments that a destage wrote, the reservations that persist (R73); and whether the part has run since its last clean stop. -/
structure Store where
  manifest : Option Manifest := none
  manifest2 : Option Manifest := none
  map      : MapSide := {}
  sig      : Signatures := {}
  ledger   : Table Ledger := []
  stored   : List StoredMark := []
  journal  : List JournalEntry := []
  flash    : List JournalEntry := []
  groups   : Table Group := []
  own      : Table OwnSeg := []
  mir      : Table MirSeg := []
  resv     : Table Reservation := []
  running  : Bool := false
  deriving DecidableEq, Repr

end Sys2Proof.Machine
end

