-- ==== Sys2Proof/Machine/TypesRun.lean ====
section
/-!
DEFINITION. Machine/TypesRun.lean: the data of chapters 10 and 11: replica sets, envelopes and links; program packages, runs,
tiles and accounting.
-/
namespace Sys2Proof.Machine

/-! Chapter 10 -/

/-- An entry unit of an envelope's body (R284) with the container and fingerprint that follow it. Form: 0 remove, 1 zero,
2 container follows, 3 reference. -/
structure RepUnit where
  addr   : Nat
  len    : Nat
  off    : Nat := 0
  member : Nat
  form   : Nat
  loc    : Loc := .unmapped
  container : List Byte := []
  fp     : Option (List Byte) := none
  last   : Bool := false
  deriving DecidableEq, Repr

/-- A replication acknowledgement's body (R285). -/
structure RepAck where
  result   : Nat
  set      : Nat
  session  : Nat
  seq      : Nat
  consumed : Nat := 0
  anchor   : Nat := 0
  wants    : List (Nat × Nat) := []
  refused  : Nat := 0
  deriving DecidableEq, Repr

/-- An envelope (R282): type 1 stream batch, 2 difference, 3 want reply, 4 anchor mark, 5 acknowledgement, 6 probe. `ring` is its offset in the
receive ring (R281); `crcOk` says whether the header CRC of a received one verifies, `tag` holds the two flags of the compare of its GCM tag
(R113, R142). -/
structure Envelope where
  kind    : Nat
  retransmit : Bool := false
  last    : Bool := false
  revert  : Bool := false
  head    : Bool := false
  set     : Nat
  session : Nat
  seq     : Nat
  slot    : Nat := 0
  gen     : Nat := 0
  time    : Nat := 0
  units   : List RepUnit := []
  ack     : Option RepAck := none
  watermark : Nat := 0
  base    : Nat := 0
  ring    : Nat := 0
  crcOk   : Bool := true
  tag     : Bool × Bool := (true, false)
  deriving DecidableEq, Repr

/-- The states of a set (R305). -/
inductive SetState where
  | off | resync | synchronous | cycling | stalled | tracking | broken | target | reversing
  deriving DecidableEq, Repr

/-- The code of a set's state in REP_SET_STATE.STATE (R305). -/
def SetState.code : SetState → Nat
  | .off => 0 | .resync => 1 | .synchronous => 2 | .cycling => 3 | .stalled => 4 | .tracking => 5 | .broken => 6
  | .target => 7 | .reversing => 8

/-- The stream that this head sends for a set (R283, R287, R298): session and its counter, the next sequence, the open
batch with when its first unit joined, the send buffer, tag failures by sequence, the envelopes that wait for buffer space, and the jobs of the writes
that wait, in order, to join it (R280). -/
structure RepStream where
  session : Nat := 0
  counter : Nat := 0
  seq     : Nat := 1
  batch   : List RepUnit := []
  batchAt : Nat := 0
  batchTime : Nat := 0
  unacked : List Envelope := []
  fails   : Table Nat := []
  room    : List Envelope := []
  writes  : List Nat := []
  deriving DecidableEq, Repr

/-- What the receiver keeps per stream (R286, R289): session, applied mark, the last watermark, envelopes whose tag has
passed and that wait, the wants not answered (sequence, entry), the containers that came for wants, the envelopes whose writes have been
handed to the cache with their tags, the last envelope whose writes are all committed, and the cut time of an anchor to be taken. -/
structure RepRecv where
  session : Nat := 0
  mark    : Nat := 0
  watermark : Nat := 0
  held    : List Envelope := []
  wants   : List (Nat × Nat) := []
  answers : List RepUnit := []
  applying : List (Nat × List Nat) := []
  done    : Nat := 0
  anchorAt : Option Nat := none
  deriving DecidableEq, Repr

/-- A landing entry (R295): source array, domain, source location, fingerprint. -/
structure Landing where
  array  : Nat
  domain : Nat
  loc    : Loc
  fp     : List Byte
  deriving DecidableEq, Repr

/-- What an anchor that is being shipped is for (R299, R301, R292). -/
inductive AnchorUse where
  | cycle | resync | finalResync | reverse
  deriving DecidableEq, Repr

/-- Units being made ready to be shipped (R293, R296): the envelope type, cut time and base, whether the first envelope reverts, the
units, and which of them still wait for their container. -/
structure ShipJob where
  kind   : Nat
  time   : Nat
  base   : Nat := 0
  revert : Bool := false
  units  : List RepUnit
  wait   : List Nat := []
  deriving DecidableEq, Repr

/-- A replica set (R279, R288, R290, R291): its members (source, target), state, the anchors held (cut time, rotation
number), the base, the anchor being shipped, the stream, the receivers by sending head, the commands whose completion
waits for the target (tag, sequence), whether the domain settings differ (R280), the target's working roots by
member (R294), whether member writes are refused for a reversal (R301), units being made ready by job, the body bytes of the last
difference (R299), and whether a snapshot is kept before the next revert (R302). -/
structure RepSet where
  members  : List (Nat × Nat) := []
  state    : SetState := .off
  anchors  : List (Nat × Nat) := []
  rotation : Nat := 0
  base     : Nat := 0
  shipping : Option (Nat × AnchorUse) := none
  stream   : RepStream := {}
  recv     : Table RepRecv := []
  waiting  : List (Nat × Nat) := []
  allCopies : Bool := false
  working  : Table Nat := []
  writesRefused : Bool := false
  jobs     : Table ShipJob := []
  nextJob  : Nat := 0
  lastBody : Nat := 0
  keepFirst : Bool := false
  deriving DecidableEq, Repr

/-- A replication link (R281, R303): the table entry, an outstanding probe with when it was sent, and the probes in a row
that went unanswered or came back slow; the far ring's next offset, the places (offset, length) not yet reported consumed, the envelopes
that wait for ring space, the offset up to which this head has consumed its own ring, and that ring's place and size. -/
structure RepLink where
  qpn    : Nat
  key    : Nat
  ring   : Nat
  ringSize : Nat
  array  : Nat
  probe  : Option Nat := none
  missed : Nat := 0
  slow   : Nat := 0
  next   : Nat := 0
  inRing : List (Nat × Nat) := []
  queue  : List Envelope := []
  done   : Nat := 0
  own    : Nat := 0
  ownSize : Nat := 0
  deriving DecidableEq, Repr

/-- Replication (chapter 10): sets, links, the landing index by slot. -/
structure Replication where
  sets    : Table RepSet := []
  links   : Table RepLink := []
  landing : Table Landing := []
  deriving DecidableEq, Repr

/-! Chapter 11 -/

/-- A loaded program (R310): tenant, slot, the package's bytes. -/
structure Program where
  tenant : Nat
  slot   : Nat
  bytes  : List Byte
  deriving DecidableEq, Repr

/-- A kept record (R320). -/
structure PrgRecord where
  tile  : Nat
  seq   : Nat
  addr  : Nat
  bytes : List Byte
  deriving DecidableEq, Repr

/-- What started a run (R308): an initiator's command by its tag, a host run or an index build with its command, the
destination in host memory and its length, or a tap. -/
inductive RunKind where
  | scan (tag : Nat)
  | host (c : HostCmd) (dest len : Nat)
  | index (c : HostCmd) (dest len : Nat)
  | tap (c : HostCmd) (dest len : Nat)
  deriving DecidableEq, Repr

/-- A span of a run (R315, R317): its tile, addresses, the address of the next piece, whether it has ended, the bytes of a
record not yet whole with their address, whether the first delimiter has still to be discarded, the next record's
index, and of the piece that it waits for: the container asked for, the container once it has come (none inside: its source returned none),
the code of its first failure once the second copy has been asked for (R140), and whether parity could not rebuild it. -/
structure Span where
  tile   : Nat
  lo     : Nat
  hi     : Nat
  pos    : Nat
  ended  : Bool := false
  carry  : List Byte := []
  carryAt : Nat := 0
  skip   : Bool := false
  record : Nat := 0
  loc    : Option Loc := none
  copy   : Option (Option Container) := none
  second : Option Nat := none
  lost   : Bool := false
  deriving DecidableEq, Repr

/-- An index entry of a build (R322): key, value, address. -/
structure IndexAdd where
  key   : List Byte
  value : Nat
  addr  : Nat
  deriving DecidableEq, Repr

/-- What one tile holds for its run (R306, R313): the contents of the program's maps and of the stack, and the next record's
sequence. -/
structure TileState where
  maps     : List (List Byte) := []
  stack    : List Byte := []
  seq      : Nat := 0
  deriving DecidableEq, Repr

/-- An accounting entry (R326). -/
structure Acct where
  started  : Nat := 0
  failed   : Nat := 0
  tileUs   : Nat := 0
  instr    : Nat := 0
  bytes    : Nat := 0
  kept     : Nat := 0
  delivered : Nat := 0
  indexed  : Nat := 0
  skipped  : Nat := 0
  deriving DecidableEq, Repr

/-- A run (R318 to R322): kind, the tag it holds, or the place in the order of arrival of the internal work that waits for one, slot generation,
tenant and program slot, the image granted, namespace and snapshot read, byte range, parameter block, tiles asked for and granted, spans, records
kept and not delivered, their dwords, the index entries added, counters, truncation, instructions executed, when tiles were granted, the ticks its
tiles were frozen, its end status, when it completed, the records and bytes that went to the host, the chunks that wait at a tap's tiles (tile,
address, bytes), and what its tenant's accounting entry has not yet been given, since when. -/
structure Run where
  kind     : RunKind
  tag      : Option Nat := none
  ticket   : Option Nat := none
  gen      : Nat := 0
  tenant   : Nat
  slot     : Nat
  image    : List Byte := []
  nsid     : Nat
  snap     : Option Nat := none
  lo       : Nat
  hi       : Nat
  params   : List Byte := []
  asked    : Nat := 0
  tiles    : Table TileState := []
  spans    : List Span := []
  records  : List PrgRecord := []
  total    : Nat := 0
  adds     : List IndexAdd := []
  counters : List Nat := []
  truncated : Bool := false
  startedAt : Option Nat := none
  frozen   : Nat := 0
  status   : Option NvmeStatus := none
  doneAt   : Option Nat := none
  delivered : Nat := 0
  written  : Nat := 0
  taps     : List (Nat × Nat × List Byte) := []
  instr    : Nat := 0
  acct     : Acct := {}
  acctFrom : Nat := 0
  deriving DecidableEq, Repr

/-- The parameters of HOST_RUN and INDEX_BUILD (R322). -/
structure HostRunParams where
  tenant : Nat
  slot   : Nat
  nsid   : Nat
  lo     : Nat
  hi     : Nat
  snap   : Option Nat := none
  tiles  : Nat := 0
  params : List Byte := []
  dest   : Nat
  len    : Nat
  reservedZero : Bool := true
  deriving DecidableEq, Repr

/-- Programs (chapter 11): the program table, runs by run slot (from 4,096 on: runs that wait for one), the last generation of each
slot, accounting by tenant, and since when PS3 has frozen the tiles of runs. -/
structure Programs where
  table  : List Program := []
  runs   : Table Run := []
  gens   : Table Nat := []
  acct   : Table Acct := []
  frozenAt : Option Nat := none
  deriving DecidableEq, Repr

end Sys2Proof.Machine
end

