-- ==== Sys2Proof/Machine/TypesOut.lean ====
section
/-!
DEFINITION. Machine/TypesOut.lean: what the part sends at its boundary, as plain data.
The list of what has been sent is the model's own field of the state (NOTES.md): the spec gives the block no such record,
but every effect outside the part that a rule names (a packet, a frame, a leaf command, a ring message, a write of host
memory, an interrupt) is an entry of it. At the end stand the channels of the ring links (R335) and what some commands carry.
-/
namespace Sys2Proof.Machine

/-- One thing that the part sends, drives or writes outside itself. -/
inductive Out where
  | packet (qpn : Nat) (p : RoceOut)
  | secured (qpn : Nat) (p : RoceOut) (lport : Nat) (tags : List SecOut)
  | deliver (qpn : Nat) (bytes : List Byte) (imm : Option Nat) (unlatched : Bool)
  | frame (lport : Nat) (bytes : List Byte)
  | pfc (lport prio quanta : Nat)
  | leaf (lane : Nat) (flit data : List Byte)
  | hop (lane pos : Nat) (act : HopAct)
  | ring (kind : Nat) (args : List Nat) (bytes : List Byte)
  | ringFlit (link : Nat) (kind : Nat) (args : List Nat)
  | mirror (port : Option Nat) (rcd : MirRec)
  | mirrorAck (ack : MirAck)
  | forward (h : FwdHeader) (cap : Capsule)
  | forwardCancel (tag : Nat)
  | forwardData (h : FwdHeader) (units : List FwdUnit)
  | forwardReply (h : FwdHeader)
  | hostWrite (slice addr : Nat) (bytes : List Byte)
  | cqEntry (slice ring cid status sqHead : Nat) (result0 result1 : Nat) (phase : Nat)
  | jobResult (c : HostCmd) (r : JobResult)
  | context (c : HostCmd) (bytes : List Byte)
  | image (c : HostCmd) (bytes : List Byte)
  | msix (vector address data : Nat)
  | aer (kind : Nat)
  | unsupportedRequest
  | readValue (address value : Nat)
  | lookup (domain : Nat) (fp : List Byte) (tag chunk : Nat)
  | nor (device : Nat) (what : Nat)
  | tap (tile : Nat) (bytes : List Byte)
  | results (tag : Nat) (bytes : List Byte)
  | atsDone (tag : Nat)
  | envelope (link : Nat) (e : Envelope) (bytes : List Byte)
  | saReport (lport an : Nat)
  | adminData (tag kind sel : Nat) (fields : List Nat)
  deriving DecidableEq, Repr

/-- What the ring links send (R335): per link and virtual channel, the flits of it that the far end holds, the flits sent while others waited,
and the messages that wait for credits; and the messages of shared dedup that wait for their pair to be reached (R127). -/
structure Channels where
  used    : Table Nat := []
  share   : Table Nat := []
  waiting : Table (List Out) := []
  owed    : List Out := []
  deriving DecidableEq, Repr

/-! What some commands carry -/

/-- A digest slot whose states are ready, and whether the stored ones were found damaged (R111, R129). -/
structure StatesReady where
  slot    : Nat
  damaged : Bool := false
  deriving DecidableEq, Repr

/-- The faults of a verify: a compare that is upset (R113), a dummy round with a wrong result as the chunk is stored (R156). -/
structure VerifyFaults where
  upset : Bool := false
  fault : Bool := false
  deriving DecidableEq, Repr

/-- A domain to sweep (R123), and the places in the sweep whose compare is upset (R113). -/
structure SweepOf where
  domain : Nat
  upset  : List Nat := []
  deriving DecidableEq, Repr

/-- A home's answer (R127): nothing or its copy's location, and whether the pair's own compare is upset (R113). -/
structure HomeAnswer where
  found : Option Loc
  upset : Bool := false
  deriving DecidableEq, Repr

/-- The piece to decode (R139), whether its DDR read is uncorrectable, and a dummy round with a wrong result (R156). -/
structure DecodePiece where
  piece : Nat
  ddr   : Bool := false
  fault : Bool := false
  deriving DecidableEq, Repr

/-- A second copy as it comes (R140), none where its source has none, and a dummy round with a wrong result as it is decrypted (R156). -/
structure CopyIn where
  copy  : Option Container
  fault : Bool := false
  deriving DecidableEq, Repr

/-- What befalls a piece on its way to a tile: an uncorrectable DDR read of its container (R139), a dummy round with a wrong result (R156). -/
structure PieceFaults where
  ddr   : Bool := false
  fault : Bool := false
  deriving DecidableEq, Repr

/-- A compression job's parameter block, domain and destination (R143). -/
structure CompBlock where
  block  : List Byte
  domain : Nat
  dst    : Nat
  deriving DecidableEq, Repr

/-- A cipher job's parameter block and destination (R144). -/
structure CipherBlock where
  block : List Byte
  dst   : Nat
  deriving DecidableEq, Repr

/-- A namespace of the far array as that array tells of it (R279, R281): its size in blocks and the head that owns its group. -/
structure FarNs where
  nsid : Nat
  size : Nat
  head : Bool := false
  deriving DecidableEq, Repr

/-- What the far array tells when a set is enabled (R279, R280): whether the domain settings differ, and its member namespaces. -/
structure FarSide where
  differ : Bool := false
  ns     : List FarNs := []
  deriving DecidableEq, Repr

/-- A hop of a leaf lane and the state that it takes (R226). -/
structure HopTo where
  pos : Nat
  state : HopState := .active
  deriving DecidableEq, Repr

/-- What comes up from the retry of a hop (R222, R225): the far end asks for a replay from a sequence; this end meets an uncorrectable or
out-of-order codeword and needs a sequence first; or codewords came with symbols corrected. -/
inductive HopNews where
  | replay (seq : Nat)
  | bad (seq : Nat)
  | corrected (count : Nat)
  deriving DecidableEq, Repr

/-- A message of ring kind 0x0052 (R197): the peer asks for a block of a leaf, or has given one. -/
structure GrantAsk where
  leaf  : Nat
  given : Option Nat := none
  deriving DecidableEq, Repr

/-- What a WITNESS_CAS completion carries (R246): the leaf status and the record as stored. -/
structure CasAnswer where
  status : Nat := 0
  rcd    : Witness
  deriving DecidableEq, Repr

/-- A domain whose sweep goes a step on (R152), and a dummy round with a wrong result (R156). -/
structure RekeyStep where
  domain : Nat
  fault  : Bool := false
  deriving DecidableEq, Repr

end Sys2Proof.Machine
end

