-- ==== Sys2Proof/Syntax.lean ====
section
/-!
DEFINITION. Syntax.lean: the commands of the block, one constructor per row of the command table, in its order.
A command is what reaches the block from outside or what its clock brings about: a register access, a packet, a ring
message, a completion, an expiry. Each docstring is the row's own summary.
-/
namespace Sys2Proof
open Sys2Proof.Machine

/-- The commands of the block (the rows of the command table). -/
inductive Instr where
  /-- A BAR0 register write that has no row of its own sets or ignores fields under the access codes, the R500 range rules and the R501 guard rules. (R11) -/
  | registerWrite (address size value : Nat)
  /-- A read of a read-to-clear field returns its value and clears it; a lower-half read of a 64-bit field also fills the holding register. (R502) -/
  | rcRead (address size : Nat)
  /-- A BAR0 or BAR2 access that is not an aligned 4-byte or 8-byte access is refused (a read completes with Unsupported Request, a write is dropped) and is logged through AER. (R383) -/
  | badSizeAccess (write : Bool) (address size : Nat)
  /-- A write of 1 to a block's set-up lock checks the order and the base placement; it then locks the block's RWL fields or records the first failed check in OLD_LOCK_FAULT. (R483) -/
  | setupLockWrite (block value : Nat)
  /-- VIN has stayed above 44.0 V for 10 ms; the converter starts and the internal power-up order of R421 runs. (R418) -/
  | vinGood (latchLost : Bool)
  /-- VIN falls below 35.0 V; the converter stops and the rails fall in the reverse order of R421. (R418) -/
  | vinCollapse (torn : Bool)
  /-- VIN stays above 78.0 V for 1 µs; the converter stops and latches an overvoltage cause. (R418) -/
  | vinOvervoltage (torn : Bool)
  /-- A first-stage converter phase fails; the stage goes on with 11 phases and records event 0x9003, and a second loss is a head loss. (R419) -/
  | converterPhaseLoss
  /-- RESET_N is held low; the part resets, or during a destage the assertion is latched until the manifest is sealed. (R492) -/
  | resetBallAssert
  /-- At the later of internal power good and the release of RESET_N the straps are latched and the reset sequence of R443 begins. (R442) -/
  | strapSample (straps : Straps) (qk0 : Bool)
  /-- The image load ends; both signatures and the other checks are applied, and the ROM jumps to the image, tries the other slot or waits for recovery. (R448) -/
  | bootImageLoaded
  /-- The firmware starts, trains DDR, reloads the ledgers and indexes, reads the destage manifest and acts on it, and records the start record. (R181) -/
  | firmwareStart (good bad : List Nat) (installed : Nat) (pairEpoch : Option Nat)
  /-- After sealing, VIN has stayed above THRESH + 2.0 V for 10 ms and the part resets itself as from power-up. (R178) -/
  | partSelfReset
  /-- PCIE_PERST_N is asserted and takes the link to DL_Down, which causes a function reset. (R494) -/
  | pciePerstAssert
  /-- An FLR, a hot reset or DL_Down squashes every slice, resets CHI and DMA, and keeps every data-path object. (R384) -/
  | functionReset (cause : FuncResetCause)
  /-- An ATS invalidation request arrives; it completes once every request that used the translation has completed. (R385) -/
  | atsInvalidate (tag : Nat)
  /-- A host memory request is refused by ATS or completes with UR or CA; the command fails with 0x1007 or 0x2006 and the request is logged through AER. (R385) -/
  | hostRequestFailed (owner : HostReqOwner)
  /-- A front port receives a whole frame; it is decoded and classified to QT, to the control host or to a drop. (R39) -/
  | frameReceive (frame : Frame)
  /-- A 1 ms host-bound frame window ends and the frame count of each logical port starts again. (R40) -/
  | hostLimitWindow
  /-- A front logical port's link comes up or goes down; LINK_UP and LINK_CHANGE are updated. (R69) -/
  | linkChange (lport : Nat) (up : Bool)
  /-- A received PFC frame stops transmission on each honoured priority. (R41) -/
  | pfcReceive (lport : Nat) (times : List (Nat × Nat))
  /-- Half the quanta interval passes while the lay-by stays above LOW_WM and XOFF is sent again. (R41) -/
  | xoffRefresh
  /-- A received CNP cuts its queue pair's send rate by DECREASE/256, never below 100 Mb/s. (R42) -/
  | roceCnp (qpn : Nat)
  /-- 50 µs pass without a CNP and the queue pair's rate rises by INCREASE, up to line rate. (R42) -/
  | rateIncrease (qpn : Nat)
  /-- A frame leaves a front port with MACsec applied and with one-step or two-step PTP stamping. (R47) -/
  | frameTransmit (frame : TxFrame)
  /-- A read of ETH_PTP_TX_STAMP_HI returns and removes the oldest transmit stamp entry. (R47) -/
  | ptpTxStampRead (port : Nat)
  /-- DDR acknowledges a context write-back and the waiting fetch for that context is issued. (R55) -/
  | contextWritebackAck (qpn : Nat)
  /-- A context of a full set becomes eligible for replacement and the waiting fetch proceeds. (R54) -/
  | contextEligible (qpn : Nat)
  /-- A fetched context arrives and is installed, or is loaded in Error on a CRC failure or an uncorrectable read. (R56) -/
  | contextFetchDone (qpn ns : Nat) (result : FetchResult)
  /-- One lay-by packet of an installed context is processed in arrival order, one every 16 ns. (R58) -/
  | laybyDrainPacket (qpn : Nat)
  /-- A SEND packet (with or without Immediate) is processed for its queue pair: the capsule is handed on, or an RNR or Invalid Request NAK is sent. (R48) -/
  | roceSend (packet : Packet)
  /-- A SEND with Invalidate is processed and invalidates the named R_Key. (R62) -/
  | roceSendInvalidate (packet : Packet)
  /-- An RDMA WRITE packet is key-checked and its payload is placed, or the write is NAKed with Remote Access Error. (R61) -/
  | roceRdmaWrite (packet : Packet)
  /-- An RDMA READ Request is key-checked and then served from a registered region. (R61) -/
  | roceReadRequest (packet : Packet)
  /-- An RDMA READ Response packet delivers read data to staging and to the lanes, or is checked against the request. (R68) -/
  | roceReadResponse (packet : Packet)
  /-- An Acknowledge or NAK packet is processed for its queue pair. (R49) -/
  | roceAcknowledge (packet : Packet)
  /-- An atomic or unknown RC opcode is answered with an Invalid Request NAK and the queue pair moves to Error. (R48) -/
  | roceAtomic (packet : Packet)
  /-- 2 µs pass after the oldest unacknowledged received packet and an ACK is sent. (R49) -/
  | ackCoalesceTimer (qpn : Nat)
  /-- The local ACK timeout expires; the part retransmits, or moves the queue pair to Error when the retry count is exhausted. (R49) -/
  | ackTimeout (qpn : Nat)
  /-- An RNR wait ends and the part retries the SEND, or moves the queue pair to Error when the RNR retry count is exhausted. (R49) -/
  | rnrTimer (qpn : Nat)
  /-- Once every earlier write payload is placed, a final-flagged message is processed. (R64) -/
  | finalFlagProcess (qpn : Nat)
  /-- No packet checked against the invalidated key has bytes left unplaced, and the invalidation completes. (R62) -/
  | invalidationComplete (region : Nat)
  /-- A write of TRN_CTRL.STATE changes the transport state; entry to service clears the whole-space key. (R63) -/
  | trnStateWrite (value : Nat)
  /-- A command capsule reaches QC; it is checked for a command ID conflict and sequence errors and enters intake, or is refused with an RNR NAK when intake is full. (R81) -/
  | capsuleArrive (cap : Capsule)
  /-- QC assigns a tag to the next capsule chosen by arbitration and reserves; it decodes the command and requests its range lock. (R83) -/
  | tagAssign
  /-- A command's completion is queued to QT and its range lock is released. (R30) -/
  | completionQueued (tag : Nat)
  /-- A completing tag is freed once its queue has accepted the completion and every RDMA Read it issued is answered. (R82) -/
  | tagFree (tag : Nat)
  /-- An activation, power-state or ANA hold ends; held Aborts are checked first, then the held commands start, oldest first. (R96) -/
  | holdRelease
  /-- The admin command Get Log Page returns a supported log. (R73) -/
  | getLogPage (tag : Nat)
  /-- The admin command Identify returns the controller, namespace or list data. (R74) -/
  | identify (tag : Nat)
  /-- The admin command Abort is checked against the named tag and cancels the command or lets it run on. (R91) -/
  | abort (tag : Nat)
  /-- The admin command Set Features sets a supported feature, including a power-state request. (R505) -/
  | setFeatures (tag : Nat)
  /-- The admin command Get Features returns a supported feature. (R505) -/
  | getFeatures (tag : Nat)
  /-- The admin command Asynchronous Event Request stays outstanding until an event occurs. (R73) -/
  | asynchronousEventRequest (tag : Nat)
  /-- The admin command Firmware Image Download writes image bytes into staging. (R451) -/
  | firmwareImageDownload (tag : Nat)
  /-- The admin command Firmware Commit runs WRITE, or WRITE then ACTIVATE, on a slot. (R451) -/
  | firmwareCommit (tag : Nat)
  /-- The admin command Keep Alive restarts the keep-alive timer. (R100) -/
  | keepAlive (tag : Nat)
  /-- The keep-alive timer expires and the controller is reset. (R94) -/
  | keepAliveExpiry (ctrl : Nat)
  /-- The Fabrics command Connect creates a controller association or an I/O queue. (R503) -/
  | fabricsConnect (tag : Nat)
  /-- The Fabrics command Property Get reads a controller property. (R503) -/
  | propertyGet (tag : Nat)
  /-- The Fabrics command Property Set writes a property, which may start a reset through CC.EN or a shutdown through CC.SHN. (R94) -/
  | propertySet (tag : Nat)
  /-- The Fabrics command Disconnect ends the association and resets the controller. (R94) -/
  | disconnect (tag : Nat)
  /-- Every tag of a resetting controller is free and CSTS.RDY goes to 0. (R94) -/
  | cstsRdyClear (ctrl : Nat)
  /-- Every accepted command of a controller under shutdown has completed and SHST becomes 0b10. (R95) -/
  | shutdownComplete (ctrl : Nat)
  /-- The admin command Format NVM replaces the namespace's live root with an empty tree at the commit point of a metadata record. (R72) -/
  | formatNvm (tag : Nat)
  /-- The I/O command Flush waits for the covered writes to reach their commit points. (R93) -/
  | flush (tag : Nat)
  /-- The I/O command Write fetches its data, reduces it in the bindery, mirrors it and commits it. (R26) -/
  | write (tag : Nat)
  /-- The I/O command Read resolves the map and reads its containers from the cache or the leaves. (R31) -/
  | read (tag : Nat)
  /-- The I/O command Compare, alone or as the first half of Compare-and-Write, compares stored data with the initiator's data. (R90) -/
  | compare (tag : Nat)
  /-- The I/O command Write Zeroes writes or deallocates a range. (R73) -/
  | writeZeroes (tag : Nat)
  /-- The I/O command Dataset Management deallocates ranges. (R84) -/
  | datasetManagement (tag : Nat)
  /-- The I/O command Reservation Register changes a registration. (R73) -/
  | reservationRegister (tag : Nat)
  /-- The I/O command Reservation Report returns the reservation status. (R73) -/
  | reservationReport (tag : Nat)
  /-- The I/O command Reservation Acquire takes or preempts a reservation. (R73) -/
  | reservationAcquire (tag : Nat)
  /-- The I/O command Reservation Release releases a reservation. (R73) -/
  | reservationRelease (tag : Nat)
  /-- The vendor command Snapshot Create takes a whole-namespace lock, cuts the root and completes at its record's commit point. (R267) -/
  | snapshotCreate (tag : Nat)
  /-- The vendor command Snapshot Delete marks the snapshot deleting and removes it at its record's commit point. (R268) -/
  | snapshotDelete (tag : Nat)
  /-- The vendor command Snapshot List returns snapshot entries. (R73) -/
  | snapshotList (tag : Nat)
  /-- The vendor command Clone Create makes a writable namespace rooted at a snapshot. (R269) -/
  | cloneCreate (tag : Nat)
  /-- The vendor command Program Run is decided at decode, reads its parameter block and starts a scan run. (R318) -/
  | programRun (tag : Nat)
  /-- The vendor command Program Results returns whole result records of a run. (R321) -/
  | programResults (tag : Nat)
  /-- PS3 entry ends; the Set Features completion is queued, and exit begins at once when a command is held. (R98) -/
  | ps3EntryEnd
  /-- PS3 exit ends and the held commands start. (R98) -/
  | ps3ExitEnd
  /-- A write of BND_GEAR_SEED regenerates the gear table. (R107) -/
  | gearSeedWrite (value : Nat)
  /-- The inner and outer HMAC states of a loaded digest slot are computed and stored, and waiting chunks proceed. (R111) -/
  | digestStateDone (ready : StatesReady)
  /-- QM receives a (domain, fingerprint) lookup and checks bucket tags, DDR entries and the pending table. (R118) -/
  | dedupLookup (tag off : Nat) (damaged upset : List Nat)
  /-- A lookup answer reaches the lane, which drops the chunk on a hit or encrypts the container on a miss; it builds the mirror records once all chunks are decided. (R136) -/
  | lookupAnswer (tag off : Nat) (fault : Bool)
  /-- The stored container of a verified hit has been read and is compared with the original. (R125) -/
  | verifyCompare (tag off : Nat) (faults : VerifyFaults)
  /-- The reconciler takes one destaged journal entry and enters, skips or redirects it against the flash index. (R122) -/
  | reconcileEntry (upset : Bool)
  /-- The reconciler sweeps a domain with SWEEP_NEEDED set and clears the bit. (R123) -/
  | domainSweep (sweep : SweepOf)
  /-- A write of DDP_DOMAIN_CFG enables or disables a domain and changes guarded fields only as R501 allows. (R114) -/
  | domainCfgWrite (domain value : Nat)
  /-- The home receives a journal entry of a non-home pair and answers with nothing or a remote reference. (R127) -/
  | cascadeJournalEntry (domain : Nat) (fp : List Byte) (pair seq : Nat) (upset : Bool)
  /-- A pair receives the home's answer and enters the fingerprint or redirects to a remote reference. (R127) -/
  | cascadeHomeAnswer (seq : Nat) (answer : HomeAnswer)
  /-- The home receives a release and drops one remote reference, once per sequence. (R127) -/
  | cascadeRelease (pair seq : Nat) (loc : Loc)
  /-- The home receives a remote read request and returns the encrypted container. (R128) -/
  | remoteRead (pair tag piece : Nat) (loc : Loc)
  /-- The remote read data reaches the asking pair's bindery for decoding. (R128) -/
  | remoteReadData (tag piece : Nat) (container : Option Container)
  /-- A pair receives a lost notice from a cascade home and scans its maps for lost extents. (R211) -/
  | lostNotice (domain home : Nat) (loc : Loc)
  /-- A container reaches the bindery on the read path and is header-checked, decrypted, decompressed and CRC-checked. (R139) -/
  | containerDecode (tag : Nat) (at_ : DecodePiece)
  /-- The second copy of a failed container arrives and is decoded; the read goes on or fails with 0xE0. (R140) -/
  | secondCopyArrive (tag piece : Nat) (copy : CopyIn)
  /-- The ring command COMP_JOB starts a compression, decompression, CRC or import job on a lane stream. (R143) -/
  | compJob (c : HostCmd) (job : CompBlock)
  /-- The ring command CIPHER_JOB checks its length rules and starts a cipher job on a lane stream. (R144) -/
  | cipherJob (c : HostCmd) (job : CipherBlock)
  /-- A job's 64 KiB slice ends; the job's state is saved, and the job ends with its result or waits for its next slice. (R147) -/
  | jobSliceEnd (c : HostCmd) (bytes : List Byte) (fault upset : Bool)
  /-- The ring command KEY_LOAD checks, unwraps and installs a wrapped key, or restores a generation. (R150) -/
  | keyLoad (c : HostCmd) (load : KeyLoad) (damaged : Option (SlotKind × Nat × Bool × Bool))
  /-- The ring command KEY_RETIRE drops a cipher slot's previous generation. (R152) -/
  | keyRetire (c : HostCmd) (slot : Nat)
  /-- The ring command KEY_REVOKE drops both generations of a slot at each lane's next boundary. (R153) -/
  | keyRevoke (c : HostCmd) (kind : SlotKind) (slot : Nat)
  /-- The ring command KEY_RESWEEP re-encrypts a domain's containers from the previous generation to the current one. (R152) -/
  | keyResweep (c : HostCmd) (domain : Nat)
  /-- A write of KEY_KEK_CMD.GO loads KEY_KEK_DATA into the named KEK before the lock. (R151) -/
  | kekLoad (value : Nat)
  /-- The peer receives a write mirror record, judges it on epoch, generation and sequence, applies it or discards it, and acknowledges. (R167) -/
  | mirrorWriteRecord (rcd : MirRec) (crc : CrcCheck)
  /-- The peer receives a metadata record and applies its root changes once all parts are applied. (R270) -/
  | mirrorMetadataRecord (rcd : MirRec) (crc : CrcCheck)
  /-- The peer receives a release record and frees the mirror segment. (R161) -/
  | mirrorReleaseRecord (rcd : MirRec) (crc : CrcCheck)
  /-- QD acknowledges a received record's DDR writes and the acknowledgement is sent. (R168) -/
  | mirrorApplyDdrAck (seq : Nat)
  /-- A mirror acknowledgement reaches the sender; it may complete a write's commit point, apply its map delta, free a segment or start a resynchronisation. (R166) -/
  | mirrorAck (ack : MirAck)
  /-- ACK_TIMEOUT expires for a record, which is retransmitted; two successive timeouts enter Suspect. (R165) -/
  | mirrorAckTimeout (seq : Nat)
  /-- In Off or Solo, QD acknowledges a write's last record into the own region and the write commits. (R171) -/
  | soloDdrAck (tag : Nat)
  /-- A Full segment has been Full for AGE_MS below START and its destage begins. (R162) -/
  | segmentAgeExpiry (seg : Nat)
  /-- A segment returns to Free and a stalled lane resumes its hand-off in the next clock. (R162) -/
  | laneStallResume (lane : Nat)
  /-- VIN stays below THRESH for FILTER µs, the power-fail warning is latched and destage begins. (R174) -/
  | vinLowWarning
  /-- PWRFAIL_N is held low for 1 µs with PIN_EN set and the power-fail warning is raised. (R493) -/
  | pwrfailNLow
  /-- A write of DDR_PF_CMD.DESTAGE_NOW raises the power-fail warning for a planned stop. (R174) -/
  | destageNow
  /-- 100 µs after the warning, front links go down and incomplete writes are kept or dropped. (R175) -/
  | frontLinksDown
  /-- Destage ends, the manifest is sealed in both copies, and every quarter except Old Town powers down. (R175) -/
  | destageSealed
  /-- The peer's power-fail notice arrives and the holdoff before a contest begins. (R366) -/
  | powerFailNotice
  /-- PF_HOLDOFF_US passes without this head's own warning and a contest starts. (R366) -/
  | pfHoldoffExpiry
  /-- QS fills a signature's data stream, computes parity and trailers, and appends a sewn entry to the log. (R191) -/
  | sewSignature (pool : Nat) (bad : List Loc)
  /-- A sewing log page is sent to the three copies, at most 16 µs after its first entry. (R193) -/
  | logPageSend
  /-- A log copy acknowledges a page; on the second acknowledgement the signature's folio writes are issued. (R191) -/
  | logAppendAck (id : Nat)
  /-- A log copy has not acknowledged a page for 10 ms and is declared lost; a reseed starts. (R195) -/
  | logCopyTimeout (copy : Nat)
  /-- The new log copy has caught up and joins the set. (R195) -/
  | logReseedDone (copy : Nat)
  /-- A folio write is acknowledged; when all W are in, the signature is complete and QM updates the map and index. (R191) -/
  | folioWriteComplete (id : Nat)
  /-- A member write fails or times out after 10 ms; the signature is voided and its containers are sewn again. (R192) -/
  | folioWriteFail (id : Nat) (nand : Bool)
  /-- The peer receives a request for a block of erase-unit grants. (R197) -/
  | grantRequest (ask : GrantAsk)
  /-- A head receives the peer's pool table at an epoch start and keeps the agreed configuration. (R186) -/
  | poolTable (pools : Table PoolCfg)
  /-- Garbage collection takes the Closed quire with the lowest live ratio and copies its live containers. (R200) -/
  | gcCollect (pool : Nat)
  /-- No reference or pre-move pin remains on a Draining quire and its erases are sent. (R202) -/
  | quireDrained (quire : Nat)
  /-- All W erases of a quire are acknowledged and it becomes Free. (R202) -/
  | quireEraseComplete (id : Nat)
  /-- Neither head reaches a member leaf; it becomes Absent and its dirty-region bitmap starts. (R203) -/
  | leafAbsent (leaf : Nat)
  /-- A leaf stays Absent for ABSENT_S and is failed; rebuild starts. (R203) -/
  | leafAbsentTimeout (leaf : Nat)
  /-- An absent leaf returns; the quires in its bitmap are visited and it becomes present. (R204) -/
  | leafReturn (leaf : Nat)
  /-- The SIG_LEAF_CMD operation Drain collects every quire on the leaf and removes it from the pool. (R205) -/
  | leafDrain (leaf : Nat)
  /-- The SIG_LEAF_CMD operation Fail fails the leaf at once. (R205) -/
  | leafFail (leaf : Nat)
  /-- The SIG_LEAF_CMD operation Readmit erases a returned failed leaf and rejoins it as an empty member. (R205) -/
  | leafReadmit (leaf : Nat)
  /-- A drained leaf's last quire is collected; it leaves the pool and event 0x5014 is recorded. (R205) -/
  | drainComplete (leaf : Nat)
  /-- In an EXPRESS pool a member read unanswered after 2.5 ms is overtaken by a reconstruction. (R207) -/
  | slowMemberTimeout (id : Nat)
  /-- Rebuild takes the next quire on a failed leaf in priority order and collects it. (R208) -/
  | rebuildQuire
  /-- A write of SIG_POOL_CMD.ACCEPT_LOSS takes a pool out of state Lost with LOSS set. (R209) -/
  | acceptLoss (pool : Nat)
  /-- Patrol reads one signature, checks trailers and parity, and queues collection on a finding. (R213) -/
  | patrolSignature (quire sig : Nat) (fault : Bool)
  /-- A write of SIG_POOL_CFG.EN checks the configuration and enables the pool, or sets CFG_ERR. (R217) -/
  | poolEnable (pool value : Nat)
  /-- A write of 1 to a SIG_POOL_MEMBERS bit adds the leaf to the pool, or records event 0x5001. (R217) -/
  | poolMemberAdd (pool word value : Nat)
  /-- A leaf hop becomes Active, or changes state, and QL enumerates the chain. (R228) -/
  | leafHopActive (lane : Nat) (new : HopTo)
  /-- A leaf hop goes Down; commands beyond it complete with 0x5808 and the chain is re-enumerated. (R227) -/
  | leafHopDown (lane pos : Nat)
  /-- A Down hop tries Detect every 100 ms. (R226) -/
  | leafHopDetect (lane pos : Nat)
  /-- A replay request on a leaf hop makes the sender replay from the named codeword, or retrain after 4 replays. (R225) -/
  | leafReplayRequest (lane pos : Nat) (news : HopNews)
  /-- The last leaf answers the enumeration and QL sends IDENTIFY to each position. (R228) -/
  | leafEnumerationAnswer (lane answer : Nat)
  /-- An IDENTIFY completion returns a leaf's identity and geometry. (R229) -/
  | leafIdentifyCompletion (id : Nat) (ident : LeafId)
  /-- The peer's leaf serials arrive; a differing number is marked MISCABLED. (R230) -/
  | leafSerialExchange (serials : Table Nat)
  /-- A READ or READ_SOFT completion arrives; LDPC decodes it or the next step of the retry ladder is issued. (R239) -/
  | leafReadCompletion (id used current : Nat) (words : List Decoded)
  /-- A leaf command completes with a non-zero leaf status, reported as 0x5800 + status. (R248) -/
  | leafErrorCompletion (id status : Nat)
  /-- A head receives a proxy read for a leaf that the peer cannot reach and serves it. (R203) -/
  | proxyLeafRead (id leaf unit folio first count : Nat)
  /-- The planning head receives the other head's per-die measurements. (R241) -/
  | plannerMeasurements (measures : List (Nat × Nat × Die))
  /-- A planning interval ends and the planner adjusts die plans and queues collections. (R243) -/
  | planInterval
  /-- A WITNESS_READ completion returns a leaf's witness record to a contest. (R369) -/
  | witnessReadCompletion (id : Nat) (rcd : Witness)
  /-- A WITNESS_CAS completion is counted; the contest is won, lost or left open. (R369) -/
  | witnessCasCompletion (id : Nat) (answer : CasAnswer)
  /-- Firmware has read and checked a faulted map page and placed it in a slot; the lookup resumes. (R256) -/
  | pageInComplete (page : Nat) (result : PageIn)
  /-- Reclaim frees one zero-count page and lowers its children's and containers' counts. (R261) -/
  | reclaimPage
  /-- The ring command NS_CREATE creates a namespace. (R263) -/
  | nsCreate (c : HostCmd) (params : NsParams)
  /-- The ring command NS_CHANGE resizes a namespace, changes its flags or starts a pool move. (R264) -/
  | nsChange (c : HostCmd) (params : NsParams)
  /-- The ring command NS_DELETE drops a namespace's roots, or is refused with 0x400C. (R263) -/
  | nsDelete (c : HostCmd) (nsid : Nat)
  /-- The ring command MAP_IMPORT places an imported container and commits it. (R265) -/
  | mapImport (c : HostCmd) (nsid addr : Nat) (container : Container)
  /-- The mover has copied every container out of the old pool, and the namespace's pool field is set. (R264) -/
  | poolMoveComplete (nsid : Nat)
  /-- A write of MAP_CG_CFG.ARMED = 1 arms a consistency cut at T, or is refused when T has passed. (R271) -/
  | cgArm (group : Nat)
  /-- A write of ARMED = 0 before T abandons the cut and completes the joined members with 0xC6. (R271) -/
  | cgAbandon (group : Nat)
  /-- Ring time reaches T and the cuts of all joined members are taken in one clock. (R271) -/
  | consistencyCut (group : Nat)
  /-- Fill data for a map cache line arrives; it is installed, or discarded if the fill was poisoned. (R276) -/
  | mapCacheFill (line : Nat) (parity : Bool)
  /-- A write of MAP_CACHE_CTRL.EN enables the cache when INV_DONE is 1, or disables it and clears INV_DONE. (R274) -/
  | mapCacheEnable (value : Nat)
  /-- The MAP_CACHE_MAINT_CMD operation invalidates every line and poisons every outstanding fill. (R275) -/
  | invalidateAll
  /-- The MAP_CACHE_MAINT_CMD operation invalidates LINES consecutive lines. (R275) -/
  | invalidateRange (lines : Nat)
  /-- A map cache maintenance command ends; BUSY clears, and INV_DONE is set after an invalidate-all. (R274) -/
  | invalidateDone
  /-- The target receives a stream batch envelope, checks it and holds it until the watermarks release it. (R289) -/
  | streamBatch (e : Envelope)
  /-- The target receives a difference envelope and applies it to the working trees. (R294) -/
  | difference (e : Envelope)
  /-- The target receives wanted containers and resolves the waiting writes. (R296) -/
  | wantReply (e : Envelope)
  /-- The target receives an anchor mark and takes its anchor once every earlier envelope is applied. (R290) -/
  | anchorMark (e : Envelope)
  /-- A replication acknowledgement releases envelopes, completes waiting writes, answers wants or starts a retransmit. (R285) -/
  | replicationAck (e : Envelope) (probe : Option Nat)
  /-- A probe envelope arrives and is answered by an acknowledgement. (R303) -/
  | probe (link : Nat) (e : Envelope)
  /-- Every 100 ms a link probe is sent, and ten missed or slow probes act as a link down. (R303) -/
  | probeTimer (link : Nat)
  /-- Every stream's watermark has passed an envelope's ring time and its writes are applied on the target. (R289) -/
  | envelopeRelease (set head : Nat)
  /-- BATCH_NS passes after a batch's first unit and the envelope is sealed and sent. (R287) -/
  | batchClose (set : Nat)
  /-- A stream idle for 5 µs sends an empty batch carrying its watermark. (R287) -/
  | idleWatermark (set : Nat)
  /-- PERIOD ends and the source takes an anchor and ships a difference or a mark. (R292) -/
  | anchorPeriod (set : Nat)
  /-- A replication link's queue pair leaves Ready to Send; synchronous sets move to Stalled. (R298) -/
  | replicationLinkDown (link : Nat)
  /-- SUSPEND_MS passes in Stalled with ON_BREAK set and the set enters Tracking. (R298) -/
  | suspendExpiry (set : Nat)
  /-- A write of REP_SET_CFG.EN checks the set and enables it with a resynchronisation, or refuses it. (R279) -/
  | setEnable (set value : Nat) (far : FarSide) (lacksKey : Bool)
  /-- A write of REP_LINK_CTRL.EN reads the link table entry and brings the link up. (R281) -/
  | replicationLinkEnable (link value : Nat)
  /-- The REP_SET_CMD operation Resynchronise starts a new session and ships the difference from the base. (R299) -/
  | resynchronise (set : Nat)
  /-- The REP_SET_CMD operation Reverse swaps source and target without loss. (R301) -/
  | reverse (set : Nat)
  /-- The REP_SET_CMD operation Promote makes the target the source. (R302) -/
  | promote (set : Nat)
  /-- The ring command PRG_LOAD checks a package and installs it in a tenant slot, and sends it to the peer. (R310) -/
  | prgLoad (c : HostCmd) (tenant slot : Nat) (replace reservedZero : Bool) (package : List Byte)
  /-- The ring command PRG_UNLOAD removes a program from a slot. (R310) -/
  | prgUnload (c : HostCmd) (tenant slot : Nat)
  /-- The peer receives a program table update and applies it. (R310) -/
  | programTableUpdate (tenant slot : Nat) (package : Option (List Byte))
  /-- The ring command HOST_RUN starts a run whose records go to host memory. (R322) -/
  | hostRun (c : HostCmd) (params : HostRunParams)
  /-- The ring command INDEX_BUILD starts a run that writes sorted index entries. (R322) -/
  | indexBuild (c : HostCmd) (params : HostRunParams)
  /-- The ring command TAP_ATTACH attaches a slot to a namespace with reserved tiles. (R323) -/
  | tapAttach (c : HostCmd) (nsid slot tiles dest len : Nat)
  /-- The ring command TAP_DETACH detaches a tap. (R323) -/
  | tapDetach (c : HostCmd) (nsid slot : Nat)
  /-- Tiles and a run slot become free and a waiting run is granted tiles and loads its image. (R318) -/
  | tileGrant
  /-- A piece reaches a tile; the scan unit frames and filters it and the BPF program runs on it. (R315) -/
  | pieceDeliver (run tile : Nat) (faults : PieceFaults)
  /-- An instruction or time budget is exhausted and the run ends with 0xD2. (R314) -/
  | budgetExceeded (run : Nat)
  /-- Every tile of a run has ended its last span and its finish entry, and the run completes. (R318) -/
  | runComplete (run : Nat)
  /-- KEEP_S passes after a run's completion and its undelivered results are discarded. (R319) -/
  | resultKeepExpiry (run : Nat)
  /-- A tile fault or a monitor watchdog expiry fences the tile; a stateless run reassigns its spans and any other run ends with 0xD5. (R325) -/
  | tileFence (tile : Nat)
  /-- Once per second the accounting entries of running runs and taps are updated. (R326) -/
  | accountingUpdate
  /-- A write of PRG_ACCT_CLEAR.GO zeroes one accounting entry, or all of them. (R328) -/
  | acctClear (value : Nat)
  /-- A hello flit is received on a ring link and the link's version is settled, or the link is Isolated. (R339) -/
  | ringHello (link : Nat) (hello : Hello)
  /-- A ring link goes Down; its buffers and partial messages are discarded. (R338) -/
  | ringLinkDown (link partials : Nat)
  /-- A Down ring link tries Detect every 100 ms. (R338) -/
  | ringLinkDetect (link : Nat)
  /-- A ring link misses its Detect-to-Active, Hello or retrain bound and goes Down or counts a failed retrain. (R338) -/
  | ringTrainingTimeout (link : Nat)
  /-- A replay request on a ring link makes the sender replay, or retrain after 4 replays. (R337) -/
  | ringReplayRequest (link seq : Nat)
  /-- 1 ms passes without the next packet of a message and the partial message is discarded. (R334) -/
  | partialMessageTimeout (link : Nat)
  /-- A device receives an enumeration flit, picks its parent, forwards the flit and sends a join. (R342) -/
  | enumerationFlit (link term keeper depth : Nat)
  /-- The keeper receives a join and assigns addresses. (R343) -/
  | enumerationJoin (join : Join)
  /-- A device receives the keeper's directory, stores it and routes by it. (R342) -/
  | enumerationDirectory (entries : Table DirEntry) (homes : List (Nat × List Byte))
  /-- GATHER_MS passes at power-up and the keeper starts ring time at the highest floor. (R351) -/
  | keeperGatherExpiry
  /-- RESERVE_S passes and a gone device's address is freed. (R343) -/
  | addressReserveExpiry (address : Nat)
  /-- A write of XRN_CTRL.LEAVE sends a leave notice and makes the device Gone. (R344) -/
  | leave
  /-- A leave notice is received and the device is marked Gone in the directory. (R344) -/
  | leaveNotice (device : Nat)
  /-- A device's links have all been Down for 64 µs and it becomes Gone. (R344) -/
  | deviceIsolatedTimeout (device : Nat)
  /-- Every 1 µs each end of each Active link sends a time flit. (R348) -/
  | timeFlitSend (link : Nat)
  /-- A time flit is received, the link delay is averaged and the servo corrects the offset. (R349) -/
  | timeFlit (link : Nat) (flit : TimeFlit)
  /-- The parent's time flits stop; the device takes another parent or holds its rate. (R354) -/
  | parentTimeLost
  /-- 1 ms in holdover passes and the device leaves Attached for Locking. (R354) -/
  | holdoverExpiry
  /-- A deputy sees no time flit of the term for 64 µs, takes term + 1 and becomes keeper. (R345) -/
  | keeperLost
  /-- Ring time passes a Joining device's floor and the device moves to Locking. (R352) -/
  | floorPassed
  /-- Ring time comes within 2^35 ticks of the ceiling and the ceiling is rewritten in boot flash. (R351) -/
  | timeCeilingRewrite
  /-- Every 10 µs a heartbeat is sent on each Active peer link. (R365) -/
  | heartbeatSend
  /-- A heartbeat from the peer is received and clears suspicion before the first CAS. (R366) -/
  | heartbeat (beat : Heartbeat)
  /-- 80 µs pass without a heartbeat on either link; the head enters Suspect and starts a contest. (R366) -/
  | peerSuspect
  /-- Mirror mode has been Suspect for STUCK_US while heartbeats still arrive, and a contest starts. (R366) -/
  | stuckSuspectExpiry
  /-- At start, 10 s pass without a heartbeat; the head contests unless a witness fences it. (R370) -/
  | startHeartbeatTimeout
  /-- The backoff after an open contest round ends and a new round starts. (R369) -/
  | contestRetry
  /-- A write of OWN_CTRL.FORCE starts a contest. (R370) -/
  | force
  /-- The peer receives an epoch proposal, records the epoch and table, and answers with an accept. (R367) -/
  | epochProposal (prop : Proposal)
  /-- An epoch accept arrives and mirroring resynchronises in the new epoch. (R169) -/
  | epochAccept (epoch : Nat)
  /-- The owner receives a forwarded command, or a cancellation, and serves it, or returns it unstarted. (R361) -/
  | forwardedCommand (h : FwdHeader) (cap : Capsule)
  /-- Forwarded data units arrive: chunks are looked up at the owner, or containers are decoded at the receiving head. (R363) -/
  | forwardedData (fromOwner : Bool) (h : FwdHeader) (units : List FwdUnit)
  /-- The receiving head receives ACCEPTED, a completion, or a return unstarted. (R362) -/
  | forwardedCompletion (h : FwdHeader)
  /-- The new owner receives a move request, takes the group and answers with a move accept. (R378) -/
  | moveRequest (group : Nat) (take : Bool)
  /-- The old owner receives a move accept and the held commands of the group start. (R378) -/
  | moveAccept (group gen : Nat)
  /-- A write of OWN_MOVE.GO starts an explicit move of a group, or is refused. (R378) -/
  | ownMove (value : Nat)
  /-- Every running command of a moving group has ended and the move request is sent. (R378) -/
  | moveDrained
  /-- Every 1 ms a head sends its health report. (R377) -/
  | healthReportSend
  /-- The peer's health report is received and PEER_READY is updated. (R377) -/
  | healthReport (ready trial : Bool)
  /-- The peer receives a rejoin request and accepts it once it holds no adopted segment. (R375) -/
  | rejoinRequest
  /-- The owner scrubs the next slice and sends a scrub digest. (R376) -/
  | scrubStep
  /-- The standby compares a scrub digest with its replica and requests the pages that differ. (R376) -/
  | scrubDigest (what : ScrubSlice) (digest : Nat) (last : Bool)
  /-- The owner receives a page request and sends the page image. (R376) -/
  | scrubPageRequest (what : ScrubSlice)
  /-- The standby receives a page image and repairs its replica. (R376) -/
  | scrubPageImage (image : ScrubImage)
  /-- An SQ tail doorbell write sets a ring's tail, or counts an invalid doorbell. (R393) -/
  | sqTailDoorbell (offset size value : Nat)
  /-- A CQ head doorbell write frees entries and rearms the CQ. (R395) -/
  | cqHeadDoorbell (offset size value : Nat)
  /-- With a CQ entry and a credit reserved, the next SQ entry is fetched and started. (R394) -/
  | sqFetch (slice ring : Nat) (entry : SqEntry)
  /-- The oldest unconsumed entry of an armed CQ has waited TIME_US and its vector fires. (R395) -/
  | cqInterruptTimer (slice ring : Nat)
  /-- The ring command HELLO negotiates the ABI minor and makes the slice Active. (R398) -/
  | hello (c : HostCmd) (major lo hi : Nat)
  /-- The ring command NOP completes with no effect. (R397) -/
  | nop (c : HostCmd)
  /-- The ring command CANCEL cancels or withdraws a named command of the same ring. (R402) -/
  | cancel (c : HostCmd) (ring cid : Nat) (waiting : Bool)
  /-- The ring command RING_CREATE makes a ring pair. (R390) -/
  | ringCreate (c : HostCmd) (params : RingParams)
  /-- The ring command RING_DELETE removes a ring pair. (R397) -/
  | ringDelete (c : HostCmd) (ring : Nat)
  /-- The ring command SLICE_CREATE creates a slice from the pool. (R387) -/
  | sliceCreate (c : HostCmd) (params : SliceParams)
  /-- The ring command SLICE_DESTROY squashes a slice and removes its queue pairs and regions. (R389) -/
  | sliceDestroy (c : HostCmd) (slice : Nat)
  /-- The ring command SLICE_FREEZE quiesces a slice for a move. (R404) -/
  | sliceFreeze (c : HostCmd) (slice : Nat)
  /-- The ring command SLICE_THAW returns a frozen slice to Active. (R404) -/
  | sliceThaw (c : HostCmd) (slice : Nat)
  /-- The ring command SLICE_SAVE writes the slice image. (R405) -/
  | sliceSave (c : HostCmd) (slice : Nat)
  /-- The ring command SLICE_RESTORE restores a slice image into a Free slice. (R406) -/
  | sliceRestore (c : HostCmd) (slice pasid : Nat) (image : SliceImage)
  /-- The ring command SLICE_RESET drains or squashes a slice. (R403) -/
  | sliceReset (c : HostCmd) (slice : Nat) (mode : ResetMode) (unfetched : List HostCmd)
  /-- A resetting or freezing slice has no work outstanding; the reset or freeze completes. (R403) -/
  | sliceQuiesced (slice : Nat)
  /-- A write of CHI_MGR_CTRL.EN creates or destroys slice 0. (R387) -/
  | mgrEnable (value : Nat)
  /-- The ring command FRAME_SEND transmits a control-host frame on a logical port. (R400) -/
  | frameSend (c : HostCmd) (frame : TxFrame)
  /-- The ring command FRAME_RX_POST posts a receive buffer for host-bound frames. (R400) -/
  | frameRxPost (c : HostCmd) (lport address length : Nat)
  /-- The ring command QP_CREATE installs a queue-pair context. (R399) -/
  | qpCreate (c : HostCmd) (qpn : Nat) (ctx : Qp)
  /-- The ring command QP_MODIFY replaces context lines and changes the state. (R399) -/
  | qpModify (c : HostCmd) (qpn mask : Nat) (ctx : Qp)
  /-- The ring command QP_DESTROY ends a queue pair's commands and removes it. (R399) -/
  | qpDestroy (c : HostCmd) (qpn : Nat)
  /-- The ring command QP_QUERY writes a context to host memory. (R399) -/
  | qpQuery (c : HostCmd) (qpn : Nat)
  /-- The ring command REGION_REGISTER registers a region and returns its R_Key. (R399) -/
  | regionRegister (c : HostCmd) (index : Option Nat) (region : Region)
  /-- The ring command REGION_INVALIDATE invalidates a region key. (R62) -/
  | regionInvalidate (c : HostCmd) (key : Nat)
  /-- The ring command WR_POST posts a work request, armed or not. (R399) -/
  | wrPost (c : HostCmd) (wr : WorkReq)
  /-- The ring command DMA_XFER checks a descriptor and queues the transfer on its channel. (R408) -/
  | dmaXfer (c : HostCmd) (desc : DmaDesc)
  /-- The ring command DMA_PAUSE pauses a channel once its bursts in flight finish. (R411) -/
  | dmaPause (c : HostCmd) (channel : Nat)
  /-- The ring command DMA_RESUME resumes a paused channel. (R411) -/
  | dmaResume (c : HostCmd) (channel : Nat)
  /-- A write of DMA_CH_CTRL.PAUSE pauses the channel. (R411) -/
  | dmaChPause (channel : Nat)
  /-- A write of DMA_CH_CTRL.RESUME resumes the channel. (R411) -/
  | dmaChResume (channel : Nat)
  /-- A write of DMA_CH_CTRL.WITHDRAW withdraws the channel's current transfer. (R412) -/
  | dmaChWithdraw (channel : Nat)
  /-- A burst's reads return and its writes are issued, or a read fails and the transfer ends; the next burst or transfer follows. (R410) -/
  | dmaBurstDone (channel : Nat) (host : List Byte) (failure : Option Nat)
  /-- A quarter asks the Square for tokens, which are granted within budget and ramp, or wait. (R425) -/
  | tokenRequest (quarter cls tokens : Nat)
  /-- A quarter idle for 2 µs hands its tokens back and waiting grants are served. (R425) -/
  | tokenReturn (quarter : Nat)
  /-- A recalled quarter acknowledges its recall and the waiting grants may proceed. (R428) -/
  | recallAck (quarter : Nat)
  /-- A recall is not acknowledged within 2 µs and the quarter is fenced. (R428) -/
  | recallTimeout (quarter : Nat)
  /-- A write of SQR_BUDGET.TOKENS changes the software budget and the effective budget. (R426) -/
  | budgetWrite (value : Nat)
  /-- Every 100 µs the measured input power is compared with the budget and a trim is applied. (R429) -/
  | powerCheck (millivolts measured : Nat)
  /-- Each millisecond below 97 % of budget, the trim falls by one token. (R429) -/
  | trimDecay
  /-- A quarter clock is more than 1 % off for 1 µs and the quarter is fenced. (R431) -/
  | quarterClockFault (quarter : Nat)
  /-- SYSCLK shows no edge for 1 µs; the part stops every switched quarter and the head is lost. (R431) -/
  | sysclkLoss
  /-- The SQR_Q_CMD operation wakes a quarter to Active. (R424) -/
  | quarterWake (quarter : Nat)
  /-- The SQR_Q_CMD operation powers a quarter down to Off after a drain. (R432) -/
  | quarterPowerOff (quarter : Nat)
  /-- The SQR_Q_CMD operation powers a quarter down to Retain after a drain. (R432) -/
  | quarterRetain (quarter : Nat)
  /-- A waking quarter becomes Active and its units enter service. (R424) -/
  | quarterWakeDone (quarter : Nat)
  /-- A closing quarter holds no work and no credits; its clock stops and its tokens return. (R432) -/
  | quarterDrained (quarter : Nat)
  /-- SQR_DRAIN_US passes without the drain ending; the power-down is abandoned. (R432) -/
  | drainTimeout (quarter : Nat)
  /-- A quarter faults and is fenced at once; its standby or owning protocol takes up the work, or the head is lost. (R433) -/
  | quarterFault (quarter : Nat) (cause : QuarterFaultCause)
  /-- Every 100 µs the sensors are sampled and the thermal state and limit are updated. (R434) -/
  | thermalSample (temps : List Int)
  /-- A canary reports negative slack and the quarter's voltage is raised by 10 mV. (R436) -/
  | canaryError (quarter : Nat)
  /-- The margin planner's interval ends, or a temperature moves, and each quarter's VOLT is adjusted. (R437) -/
  | marginPlan (reports : List CanaryReport)
  /-- The BOOT_CMD operation VERIFY checks the staged image under R448. (R453) -/
  | verify
  /-- The BOOT_CMD operation WRITE programs the staged image into the other slot and appends a PENDING record. (R453) -/
  | bootWrite
  /-- The slot program and readback end and the PENDING record is appended. (R453) -/
  | bootWriteComplete (result : NorResult)
  /-- The BOOT_CMD operation ACTIVATE checks compatibility and starts the activation pause. (R454) -/
  | activate
  /-- The new firmware runs, the hold is cleared and the trial begins. (R454) -/
  | activationPauseEnd (dropped : List Nat)
  /-- The BOOT_CMD operation CONFIRM appends the confirming record, raises the counter and confirms the slot. (R455) -/
  | confirm
  /-- The BOOT_CMD operation REVERT falls back live to the confirmed slot. (R455) -/
  | revert
  /-- The BOOT_CMD operation REVOKE blows a key set's revocation fuse. (R453) -/
  | revoke (keyset : Nat)
  /-- The confirm window passes without CONFIRM and the part falls back. (R455) -/
  | confirmWindowExpiry
  /-- The firmware watchdog goes 10 ms unserviced and the part falls back to the confirmed image. (R455) -/
  | firmwareWatchdogExpiry
  /-- A write of BOOT_RCV_CMD.GO fetches and checks a recovery image over PCIe. (R457) -/
  | recoveryGo (image : List Byte)
  /-- A peer with SERVE_EN receives a ROM recovery request and sends its confirmed image. (R457) -/
  | recoveryRequest
  /-- The ROM receives recovery image messages, checks the image and runs it. (R457) -/
  | recoveryImage (bytes : List Byte) (last : Bool)
  /-- The TST_CMD operation tests a quarter, by rotation or directly. (R463) -/
  | testQuarter (quarter : Nat) (force : Bool)
  /-- The TST_CMD operation tests one tile, QM bank or unit. (R460) -/
  | testUnit (quarter unit : Nat)
  /-- The TST_CMD operation runs DDR calibration on a channel at once. (R464) -/
  | calibrateChannel (channel : Nat) (good : Bool)
  /-- The TST_CMD operation wakes, tests and powers down the kind's standby. (R462) -/
  | testStandby (quarter : Nat)
  /-- A self-test ends; the quarter becomes standby or returns to service, or is fenced. (R462) -/
  | testComplete (pass : Bool)
  /-- ROTATE_DAYS pass and the kind's active role rotates to the next quarter. (R462) -/
  | rotationTimer (kind : QuarterKind)
  /-- STANDBY_H hours pass and the standby is woken and tested. (R462) -/
  | standbyTestTimer (kind : QuarterKind)
  /-- Every 128 ms a channel runs ZQ calibration and strobe recentring. (R464) -/
  | ddrCalibration (channel : Nat) (good : Bool)
  /-- A DDR channel fails and is taken out of use; metadata is then served from parity. (R466) -/
  | ddrChannelLost (channel : Nat)
  /-- An event page is full, or 1 s old, and is written to the running area. (R471) -/
  | eventPageWrite
  /-- Every 60 s the operating seconds and counts are stored in the control sectors. (R469) -/
  | eventControlSave
  /-- A write of EVT_READ_SEL selects a record into EVT_READ_DATA. (R476) -/
  | eventReadSelect (index area : Nat)
  /-- A write of EVT_CLEAR_CMD.NEW_NONCE makes a clearing nonce. (R472) -/
  | newNonce
  /-- A write of EVT_CLEAR_CMD.GO checks the signature and clears the running area, or refuses. (R472) -/
  | clearGo
  /-- The running-area erase ends and the clearing record is written. (R472) -/
  | clearComplete
  /-- A write of EVT_CTRL.HIST_SWAP copies the latency histograms to DDR and zeroes them. (R473) -/
  | histSwap
  /-- A write of CMD_TAG_QUERY samples the named tag's state into CMD_TAG_STATE. (R102) -/
  | cmdTagQuery (value : Nat)
  /-- The pause time of a received PFC frame runs out and transmission resumes on that priority. (R41) -/
  | pfcPauseExpiry (lport priority : Nat)
  /-- VIN leaves the 36–75 V band in service without reaching the warning, collapse or overvoltage thresholds, and event 0x9001 is recorded. (R439) -/
  | vinOutOfRange (millivolts : Nat)
  /-- PCIE_PERST_N goes high and the endpoint starts link training and answers configuration within 100 ms. (R494) -/
  | pciePerstRelease (speed width : Nat)
  /-- A ring link's training reaches lock and enters Hello, sending its hello flit, or a retrain ends back in Active. (R338) -/
  | ringLinkTrained (link : Nat) (narrow : Bool)
  /-- The data of a proxy leaf read returns over the ring to the head that cannot reach the leaf and goes on to the bindery. (R203) -/
  | proxyReadData (id : Nat) (words : Option (List (List Byte)))
  /-- The background mover copies the next container of a moving namespace into the target pool. (R264) -/
  | poolMoveCopy (nsid : Nat)
  /-- Firmware rewrites the next stored container of the domain from the previous key generation to the current one. (R152) -/
  | rekeySweepStep (step : RekeyStep)
  /-- In service, firmware writes dirty map pages and other metadata back to the metadata pool ahead of need, retiring sewing-log entries. (R176) -/
  | metadataWriteback
  /-- A write to the MSI-X table or its mask bits in BAR4 changes a vector, and unmasking sends a pending message. (R382) -/
  | msixTableWrite (vector address data : Nat) (masked : Bool)
  /-- The host moves the function between D0 and D3hot, and in D3hot the function issues no request. (R381) -/
  | d3hotTransition (hot : Bool)
  /-- A HEALTH completion returns per-die erase counts and failure reports that the planner and die retirement use. (R244) -/
  | leafHealthCompletion (id : Nat) (dies : List DieHealth)
  /-- A LOG_READ completion returns sewing-log pages for the start or takeover scan, or for a copy being reseeded. (R196) -/
  | logReadCompletion (id : Nat) (pages : List (List Byte)) (failed : List Nat)
  deriving DecidableEq, Repr

end Sys2Proof
end

