-- ==== Sys2Proof/Decode.lean ====
section
/-!
DEFINITION. Decode.lean: the command that a word spells. The command table gives no row any bits (every row's field list is empty): the block
takes commands, not words, and so no word spells one.
-/
namespace Sys2Proof
open Sys2Proof.Machine

/-- The command that a word of the table's bits spells: none, since no row has bits. -/
def decodeTableWord (_nbits _w : Nat) : Option Instr := none

end Sys2Proof
end

