-- ==== Sys2Proof/Config.lean ====
section
/-!
DEFINITION. Config.lean: what the model leaves uninterpreted, each as an opaque function of its inputs: one public standard that the spec
names and does not restate (ML-DSA), the choices that the spec leaves to the part (the compressor's matches, a nonce), and the free
values, which the spec does not state. Nothing here has a body, so no proof can rest on one.
-/
namespace Sys2Proof.Config

/-- Whether a HashML-DSA-87 signature verifies: public key, digest, signature (R446). -/
opaque mldsaVerify : List Byte → List Byte → List Byte → Bool

/-- The match candidates that the compressor's 4-byte hash gives at a position of a chunk, at a level: their distances, in the order in which they
are tried (R137 gives how many are tried, and not the hash). -/
opaque matchAt : Nat → List Byte → Nat → List Nat

/-- The symbols that the compressor puts into a block, by level, chunk and the block's place (R137 gives the most). -/
opaque blockSize : Nat → List Byte → Nat → Nat

/-- The codes that the compressor makes for a dynamic block of some symbols (match length and distance, or 0 and a literal), as the bits of the
block's header after its type (R137 gives the limits of the code lengths, and not how they are chosen). -/
opaque dynHeader : Nat → List (Nat × Nat) → List Bool

/-- The detail byte of the class 0x31 code that reports a gzip stream which does not start with the two bytes of a gzip member: R138 refuses
it, R139 names no code. -/
opaque gzipMagicError : Nat

/-- The code of the event that reports a queue pair in Error (R50, R396): the spec gives its reasons and no code. -/
opaque qpEventCode : Nat

/-- What the spec leaves open inside a program's invocation, by the invocation and a number: where the regions that it may reach lie in
the tile, what the registers that R311 does not name hold at entry, what a helper answers where R312 states no answer. -/
opaque tileWord : Nat → Nat → BitVec 64

/-- A byte of an entry that the part keeps in DDR in a form that the spec does not give, or sealed under a key that is never readable (R111,
R123, R154): by what marks the entry and by the offset in it. -/
opaque entryByte : Nat → Nat → BitVec 8

/-- The parity of the part's LDPC code (R237), of which the spec gives the rate and not the code: a byte of it, by the 4,096 information bytes and
its position. -/
opaque ldpcParity : List (BitVec 8) → Nat → BitVec 8

/-- The fields of the place in a signature that a container of the peer took (R257): by its place in the peer's segment and the field. No message
tells the peer. -/
opaque sewnPlace : List (BitVec 8) → Nat → Nat

/-- A free value: what the spec leaves unstated or to chance, such as the nonce of R472, by the count of free values taken so far. -/
opaque freeNat : Nat → Nat

end Sys2Proof.Config
end

