-- ==== Sys2Proof/Machine/Flags.lean ====
section
/-!
DEFINITION. Machine/Flags.lean: the checks the block computes: CRC32C, the GF(2^8) arithmetic of parity, the doubled
compare, and the hash of the chunker.
-/
namespace Sys2Proof.Machine
open Sys2Proof

/-- One bit of the reflected Castagnoli CRC (R134). -/
def crcBit (c : Nat) : Nat := if c % 2 = 1 then (c / 2) ^^^ 0x82F63B78 else c / 2

/-- One byte of the CRC (R134). -/
def crcByte (c : Nat) (b : Byte) : Nat := crcBit (crcBit (crcBit (crcBit (crcBit (crcBit (crcBit (crcBit (c ^^^ b.toNat))))))))

/-- CRC32C continued from the value of a run before it, 0 for none (R134, R143, R312). -/
def crc32cFrom (seed : Nat) (bytes : List Byte) : Nat := (bytes.foldl crcByte (seed ^^^ 0xFFFFFFFF)) ^^^ 0xFFFFFFFF

/-- CRC32C (R134). -/
def crc32c (bytes : List Byte) : Nat := crc32cFrom 0 bytes

/-- Multiplication by α = 0x02 in GF(2^8) with the polynomial 0x11D (R190). -/
def gfDouble (a : Nat) : Nat := if 128 ≤ a then (2 * a) ^^^ 0x11D else 2 * a

/-- The product in GF(2^8) over the low `n` bits of the second factor (R190). -/
def gfMulBits : Nat → Nat → Nat → Nat
  | 0, _, _ => 0
  | n + 1, a, b => (if b % 2 = 1 then a else 0) ^^^ gfMulBits n (gfDouble a) (b / 2)

/-- The product in GF(2^8) (R190). -/
def gfMul (a b : Nat) : Nat := gfMulBits 8 a b

/-- A power in GF(2^8). -/
def gfPow (a : Nat) : Nat → Nat
  | 0 => 1
  | n + 1 => gfMul a (gfPow a n)

/-- The inverse of a non-zero element of GF(2^8): its 254th power. -/
def gfInv (a : Nat) : Nat := gfPow a 254

/-- The coefficient of data member j in parity row k: α^(k·j), with rows P, Q and R for k = 0, 1, 2 (R190). -/
def parityCoef (k j : Nat) : Nat := gfPow 2 (k * j)

/-- The parity byte of row k at one offset over the data bytes in member order, from member j on (R190). -/
def parityByte (k : Nat) : Nat → List Nat → Nat
  | _, [] => 0
  | j, d :: ds => gfMul (parityCoef k j) d ^^^ parityByte k (j + 1) ds

/-- A parity payload of row k over the data payloads (R190). -/
def parityPayload (k len : Nat) (datas : List (List Byte)) : List Byte :=
  (List.range len).map fun x => byteOf (parityByte k 0 (datas.map fun d => (d.getD x 0).toNat))

/-- Solves linear equations over GF(2^8) by elimination on the first unknown: each equation is its coefficients and its
right side. The answer lists the unknowns in order; an equation system without a unique answer gives zeros. -/
def gfSolve : Nat → List (List Nat × Nat) → List Nat
  | 0, _ => []
  | n + 1, eqs =>
    match eqs.find? fun e => e.1.headD 0 != 0 with
    | none => 0 :: gfSolve n (eqs.map fun e => (e.1.drop 1, e.2))
    | some p =>
      have inv := gfInv (p.1.headD 0)
      have pc := (p.1.drop 1).map (gfMul inv)
      have pr := gfMul inv p.2
      have rest := (eqs.filter fun e => e != p).map fun e =>
        (List.zipWith (fun c d => c ^^^ gfMul (e.1.headD 0) d) (e.1.drop 1) pc, e.2 ^^^ gfMul (e.1.headD 0) pr)
      have tail := gfSolve n rest
      (List.zipWith gfMul pc tail).foldl (· ^^^ ·) pr :: tail

/-- The lost bytes at one offset (R190, R206): D data members, the data members lost, and what the other members hold
(member number, byte; members from D on are the parities). The answer follows the order of the lost members. -/
def reconstructByte (dataCount : Nat) (lost : List Nat) (have_ : List (Nat × Nat)) : List Nat :=
  have data := have_.filter fun e => e.1 < dataCount
  have eqs := (have_.filter fun e => dataCount ≤ e.1).map fun e =>
    (lost.map fun j => parityCoef (e.1 - dataCount) j,
     data.foldl (fun acc d => acc ^^^ gfMul (parityCoef (e.1 - dataCount) d.1) d.2) e.2)
  gfSolve lost.length eqs

/-- Reconstructs the bytes of one member from other members' bytes over the same range (R206). A lost parity is made again
from the data. -/
def reconstruct (dataCount width want len : Nat) (got : List (Nat × List Byte)) : List Byte :=
  (List.range len).map fun x =>
    have at_ := got.map fun g => (g.1, (g.2.getD x 0).toNat)
    have lost := (List.range dataCount).filter fun j => !(got.any fun g => g.1 == j)
    have found := lost.zip (reconstructByte dataCount lost at_)
    if want < dataCount then byteOf ((found.find? fun e => e.1 == want).elim 0 Prod.snd)
    else
      have all := (List.range dataCount).map fun j =>
        match at_.find? fun e => e.1 == j with
        | some e => e.2
        | none => (found.find? fun e => e.1 == j).elim 0 Prod.snd
      if want < width then byteOf (parityByte (want - dataCount) 0 all) else 0

/-- The flags MATCH and MATCH_N of a doubled compare (R113): equality and its complement from separately latched copies. A
fault is an upset that makes them agree. -/
def doubledCompare (a b : List Byte) (upset : Bool) : Bool × Bool :=
  (decide (a = b), if upset then decide (a = b) else !decide (a = b))

/-- The reading of the two flags (R113). -/
def readCompare : Bool × Bool → Compare
  | (true, false) => .equal
  | (false, true) => .unequal
  | (true, true) | (false, false) => .fault

/-- The gear table's entry (R107). -/
def gearEntry (seed i : Nat) : Nat :=
  have x := (seed + (i + 1) * 0x9E3779B97F4A7C15) % 2 ^ 64
  have z := (x ^^^ (x >>> 30)) * 0xBF58476D1CE4E5B9 % 2 ^ 64
  have z := (z ^^^ (z >>> 27)) * 0x94D049BB133111EB % 2 ^ 64
  z ^^^ (z >>> 31)

/-- MASK_S and MASK_L (R106). -/
def cutMask (len : Nat) : Nat := if len ≤ 8192 then 0x0000D90103730000 else 0x0000D90003730000

/-- Whether the chunker cuts after a byte that makes the chunk `len` bytes long and the gear hash `h` (R106). -/
def cutsAfter (h len : Nat) : Bool := decide (2048 ≤ len) && (h &&& cutMask len == 0 || len == 65536)

/-- The gear hash after one more byte (R106). -/
def gearNext (seed h : Nat) (b : Byte) : Nat := (2 * h + gearEntry seed b.toNat) % 2 ^ 64

/-- The signed 16-bit difference of two generations or numbers (R167, R241). -/
def diff16 (a b : Nat) : Int := signedOf 16 ((a + 65536 - b % 65536) % 65536)

end Sys2Proof.Machine
end

