-- ==== Sys2Proof/Machine/Operands.lean ====
section
/-!
DEFINITION. Machine/Operands.lean: the packed forms that the spec gives the block's operands: locations, containers,
folio trailers, sewing-log and lost-list entries, forwarded units, NVMe completions, and how each is laid out in bytes.
-/
namespace Sys2Proof.Machine
open Sys2Proof

/-- The little-endian bytes of a number. -/
def le (n v : Nat) : List Byte := (List.range n).map fun k => byteOf (v / 256 ^ k)

/-- A run of zero bytes. -/
def zeros (n : Nat) : List Byte := List.replicate n 0

/-- A byte string extended with zeros to a whole multiple of `m`. -/
def padTo (m : Nat) (b : List Byte) : List Byte := b ++ zeros ((m - b.length % m) % m)

/-! Locations (R250) -/

/-- The size and place field of the flash forms: [11:0] offset ÷ 16, [28:12] container size. -/
def placeWord (off size : Nat) : Nat := off % 4096 + size % 131072 * 4096

/-- The bytes 0x04 to 0x0F of a flash, remote or lost location. -/
def placeBytes (quire sig mem off size : Nat) : List Byte :=
  le 4 (quire % 2 ^ 24) ++ le 2 (sig % 4096) ++ [byteOf (mem % 32), 0] ++ le 4 (placeWord off size)

/-- The 16 bytes of a location (R250). -/
def Loc.bytes : Loc → List Byte
  | .unmapped => zeros 16
  | .zero => 1 :: zeros 15
  | .cache head seg gen off size =>
    [2, if head then 1 else 0] ++ le 2 seg ++ le 2 gen ++ [0, 0] ++ le 4 off ++ le 4 (placeWord 0 size)
  | .flash pool quire sig mem off size => [3, byteOf (pool % 64), 0, 0] ++ placeBytes quire sig mem off size
  | .remote home pool quire sig mem off size => [4, byteOf (pool % 64)] ++ le 2 (home % 4096) ++ placeBytes quire sig mem off size
  | .lost pool quire sig mem off size => [5, byteOf (pool % 64), 0, 0] ++ placeBytes quire sig mem off size
  | .image _ => zeros 16

/-- The size of the container that a location names. -/
def Loc.size : Loc → Nat
  | .unmapped | .zero => 0
  | .image _ => 4096
  | .cache _ _ _ _ n | .flash _ _ _ _ _ n | .remote _ _ _ _ _ _ n | .lost _ _ _ _ _ n => n

/-- The pool of a place in a signature. -/
def Loc.pool : Loc → Option Nat
  | .flash p .. | .lost p .. => some p
  | .remote _ p .. => some p
  | .unmapped | .zero | .cache .. | .image _ => none

/-- The quire of a place in a signature of this head pair. -/
def Loc.quire : Loc → Option Nat
  | .flash _ q .. => some q
  | .unmapped | .zero | .cache .. | .remote .. | .lost .. | .image _ => none

/-- The number of the own segment, of the peer's segment or of the quire that holds a place, among all of them: each keeps a referrer list
(R258). -/
def Loc.holder : Loc → Option Nat
  | .cache head seg .. => some (3 * seg + if head then 2 else 1)
  | .flash _ q .. => some (3 * q)
  | .unmapped | .zero | .remote .. | .lost .. | .image _ => none

/-- Whether a location carries a reference (R259): kinds 2, 3 and 4. -/
def Loc.counted : Loc → Bool
  | .cache .. | .flash .. | .remote .. => true
  | .unmapped | .zero | .lost .. | .image _ => false

/-- The location marked lost (R211). -/
def Loc.toLost : Loc → Loc
  | .flash p q s m o n => .lost p q s m o n
  | .remote _ p q s m o n => .lost p q s m o n
  | .cache _ seg _ off n => .lost 0 0 seg 0 off n
  | x => x

/-! The chunk container (R132, R133) -/

/-- A container header (R132). -/
structure Header where
  alg    : Nat
  domain : Nat
  slot   : Nat
  gen    : Nat
  orig   : Nat
  payload : Nat
  cut    : Nat
  ring   : Nat
  lane   : Nat
  crc    : Nat
  deriving DecidableEq, Repr

/-- The 32 bytes of a container header (R132). PAD is set when the payload is shorter than 16 bytes. -/
def Header.bytes (h : Header) : List Byte :=
  [0xC9, byteOf (1 + 16 * h.alg + if h.payload < 16 then 64 else 0)] ++ le 2 (h.domain % 4096) ++ le 2 (h.slot % 8192) ++
    [byteOf h.gen, 0] ++ le 4 h.orig ++ le 4 h.payload ++ le 8 h.cut ++ le 4 (h.ring % 4096 + 4096 * h.lane) ++ le 4 h.crc

/-- The number that some bytes spell, little-endian. -/
def num : List Byte → Nat
  | [] => 0
  | b :: r => b.toNat + 256 * num r

/-- Bytes from an offset on. -/
def slice (b : List Byte) (off len : Nat) : List Byte := (b.drop off).take len

/-- The header fields that bytes spell (R132). -/
def Header.parse (b : List Byte) : Header :=
  { alg := num (slice b 1 1) / 16 % 4, domain := num (slice b 2 2) % 4096, slot := num (slice b 4 2) % 8192,
    gen := num (slice b 6 1), orig := num (slice b 8 4) % 131072, payload := num (slice b 12 4) % 131072,
    cut := num (slice b 16 8), ring := num (slice b 24 4) % 4096, lane := num (slice b 24 4) / 4096 % 64,
    crc := num (slice b 28 4) }

/-- The bytes that a container of a payload length occupies (R133). -/
def containerSize (payload : Nat) : Nat := 32 + max payload 16

/-- The container damage checks that need no payload byte (R139, 0x3105): magic, version, reserved bits, lengths, ALG and
PAD against the lengths, the domain that the map expects, and the size in the map location. -/
def headerGood (b : List Byte) (domain size : Nat) : Bool :=
  have h := Header.parse b
  have byte1 := num (slice b 1 1)
  num (slice b 0 1) == 0xC9 && byte1 % 16 == 1 && byte1 / 128 == 0 && h.alg != 3 &&
    num (slice b 2 2) / 4096 == 0 && num (slice b 4 2) / 8192 == 0 && num (slice b 7 1) == 0 &&
    num (slice b 8 4) / 131072 == 0 && num (slice b 12 4) / 131072 == 0 && num (slice b 24 4) / 2 ^ 18 == 0 &&
    decide (1 ≤ h.orig ∧ h.orig ≤ 65536 ∧ 1 ≤ h.payload ∧ h.payload ≤ 65536) &&
    (h.alg != 0 || h.payload == h.orig) && decide ((byte1 / 64 % 2 = 1) ↔ h.payload < 16) &&
    h.domain == domain && containerSize h.payload == size

/-- The 16-byte XTS tweak of a container: header bytes 0x10 to 0x1B, then zero (R133). -/
def tweak (header : List Byte) : List Byte := slice header 16 12 ++ zeros 4

/-! Signatures (R187, R188) -/

/-- Payload bytes of a folio (R187). -/
def folioPayload : Nat := 65472

/-- A folio's trailer without its CRC (R187). -/
def trailer (isParity : Bool) (pool mem width parity quire sig leaf time seq used firstOff : Nat) : List Byte :=
  le 2 0x5CF0 ++ [1, if isParity then 1 else 0, byteOf pool, byteOf mem, byteOf width, byteOf parity] ++ le 4 quire ++
    le 2 sig ++ le 2 leaf ++ le 8 time ++ le 8 seq ++ le 2 used ++ le 2 firstOff ++ zeros 24

/-- A whole folio: payload, trailer, CRC32C of all that precedes it (R187). -/
def folio (payload tr : List Byte) : List Byte :=
  have b := payload ++ tr
  b ++ le 4 (crc32c b)

/-- The position in a signature's data stream of a place (R188): offsets are held in 16-byte units (R250). -/
def streamPos (mem off : Nat) : Nat := mem * folioPayload + 16 * off

/-- The parts of a stream range that lie in each data member (R188): member, payload offset, length, offset in the range.
`n` bounds the members visited. -/
def memberParts : Nat → Nat → Nat → Nat → List (Nat × Nat × Nat × Nat)
  | 0, _, _, _ => []
  | n + 1, pos, len, start =>
    if len = 0 then []
    else
      have off := pos % folioPayload
      have take := min len (folioPayload - off)
      (pos / folioPayload, off, take, start) :: memberParts n (pos + take) (len - take) (start + take)

/-! The sewing log (R194) -/

/-- The body of a sewing-log entry, padded to 188 bytes (R194). -/
def LogBody.bytes (b : LogBody) : List Byte :=
  have x := match b with
    | .opened slots => slots.flatMap fun s => le 5 (s.1 % 512 + s.2 * 512)
    | .sewn crcs => crcs.flatMap (le 4)
    | .closed n => le 2 (n % 4096)
    | .voided | .released | .watermark => []
  x ++ zeros (188 - x.length)

/-- The 256 bytes of a sewing-log entry (R194). -/
def LogEntry.bytes (e : LogEntry) : List Byte :=
  have b := [byteOf e.body.code, if e.head then 1 else 0, 0, 0] ++ le 4 e.epoch ++ le 8 e.seq ++ le 8 e.time ++
    [byteOf e.pool, byteOf e.width, byteOf e.parity, 0] ++ le 4 e.quire ++ le 2 e.sig ++ zeros 6 ++ le 8 e.retire ++
    zeros 16 ++ e.body.bytes
  b ++ le 4 (crc32c b)

/-- The body of a sewing-log entry that bytes spell (R194). -/
def LogBody.parse (code width : Nat) (b : List Byte) : Option LogBody :=
  match code with
  | 1 => some (.opened ((List.range width).map fun k => (num (slice b (5 * k) 5) % 512, num (slice b (5 * k) 5) / 512)))
  | 2 => some (.sewn ((List.range width).map fun k => num (slice b (4 * k) 4)))
  | 3 => some .voided
  | 4 => some (.closed (num (slice b 0 2) % 4096))
  | 5 => some .released
  | 6 => some .watermark
  | _ => none

/-- The sewing-log entry that 256 bytes spell, where its CRC is valid (R194, R196). -/
def LogEntry.parse (b : List Byte) : Option LogEntry :=
  if num (slice b 0xFC 4) ≠ crc32c (b.take 0xFC) then none
  else (LogBody.parse (num (slice b 0 1)) (num (slice b 0x19 1)) (slice b 0x40 188)).map fun body =>
    { head := num (slice b 1 1) == 1, epoch := num (slice b 4 4), seq := num (slice b 8 8), time := num (slice b 0x10 8),
      pool := num (slice b 0x18 1), width := num (slice b 0x19 1), parity := num (slice b 0x1A 1), quire := num (slice b 0x1C 4) % 2 ^ 24,
      sig := num (slice b 0x20 2) % 4096, retire := num (slice b 0x28 8), body := body }

/-- The entries of a log page, those with a valid CRC (R193, R196). -/
def pageEntries (page : List Byte) : List LogEntry :=
  (List.range 16).filterMap fun k => LogEntry.parse (slice page (256 * k) 256)

/-- The CRC32C that a folio carries (R187), which the sewn entry repeats (R194; DEDUCED, log entry 120). -/
def folioCrc (folio : List Byte) : Nat := num (slice folio 0xFFFC 4)

/-- Whether a folio's trailer, the last 64 bytes of its codeword 15, is that of a sewn entry's member (R187, R196): magic, log sequence, CRC32C. -/
def trailerMatches (e : LogEntry) (member : Nat) (word : List Byte) : Bool :=
  have t := slice word 0xFC0 64
  match e.body with
  | .sewn crcs => num (slice t 0 2) == 0x5CF0 && num (slice t 0x18 8) == e.seq && crcs[member]? == some (num (slice t 0x3C 4))
  | .opened _ | .voided | .closed _ | .released | .watermark => false

/-! The leaf link (R223, R233) -/

/-- The 128 bytes of a control flit from the part (R223): type, the leaf position it goes to, source 0x10, virtual channel 0, tag index and
position, the data flits that follow and their CRC32C, opcode, parameters. -/
def controlFlit (type dest pos tag code : Nat) (params data : List Byte) : List Byte :=
  have b := [byteOf type, byteOf dest, 0x10, 0] ++ le 2 (tag % 256 + pos * 256) ++ le 2 ((data.length + 127) / 128) ++ [byteOf code, 0, 0, 0] ++
    le 4 (if data.isEmpty then 0 else crc32c data) ++ params ++ zeros (108 - params.length)
  b ++ le 4 (crc32c b)

/-- The control flit of a command to a leaf (R223); an enumeration goes to every leaf (R228). -/
def commandFlit (leaf tag : Nat) (cmd : LeafCmd) (params data : List Byte) : List Byte :=
  if cmd = .enumerate then controlFlit 4 0x1F 0 0 0 params data
  else controlFlit 1 (leaf % 16) (leaf % 16) tag cmd.code params data

/-- Signed bytes, padded to a length. -/
def signedBytes (n : Nat) (l : List Int) : List Byte := (List.range n).map fun k => BitVec.ofInt 8 (l.getD k 0)

/-- The 64 bytes of a die plan (R240). -/
def DiePlan.bytes (p : DiePlan) : List Byte :=
  have b := le 2 p.gen ++ [byteOf p.mode, byteOf p.sense, byteOf p.program, byteOf p.erase, if p.suspend then 1 else 0, byteOf p.delta] ++
    signedBytes 15 p.base ++ [0] ++ signedBytes 15 p.slopes ++ [0] ++ signedBytes 8 p.ladder ++ zeros 12
  b ++ le 4 (crc32c b)

/-- The 64 bytes of a witness record (R245). -/
def Witness.bytes (w : Witness) : List Byte :=
  have b := le 2 0x91E7 ++ [1, byteOf (w.holder % 4 + if w.fence then 4 else 0)] ++ le 4 w.term ++ le 4 w.epoch ++ le 2 (w.writer % 4096) ++ zeros 2 ++
    le 8 w.time ++ zeros 36
  b ++ le 4 (crc32c b)

/-! Extents, deltas and forwarded units -/

/-- The 32 bytes of an extent entry (R251). -/
def Extent.bytes (e : Extent) : List Byte :=
  le 8 (e.addr % 2 ^ 63) ++ le 4 e.len ++ le 2 e.off ++
    [byteOf ((if e.fp.isSome then 1 else 0) + (if e.isNew then 2 else 0) + if e.noIndex then 4 else 0), 0] ++ e.loc.bytes

/-- The units of a map delta (R252): an entry, and its fingerprint where FP_FOLLOWS is set. -/
def deltaUnits (d : List Extent) : Nat := (d.map fun e => if e.fp.isSome then 2 else 1).sum

/-- The bytes that a write record takes (R163): header, delta padded to 64, each container on a 64-byte boundary. -/
def recordLen (units : Nat) (sizes : List Nat) : Nat :=
  64 + (units * 32 + 63) / 64 * 64 + (sizes.map fun n => (n + 63) / 64 * 64).sum

/-- The 64 bytes of a lost-list entry (R212). Kind 1 names a container, kind 2 an extent. -/
def lostEntry (kind pool domain quire sig mem off size nsid lba blocks snap time : Nat) : List Byte :=
  have b := [byteOf kind, byteOf pool] ++ le 2 domain ++ le 4 quire ++ le 2 sig ++ [byteOf mem, 0] ++ le 2 off ++ zeros 2 ++
    le 4 size ++ le 4 nsid ++ le 8 lba ++ le 4 blocks ++ le 4 snap ++ le 8 time ++ zeros 12
  b ++ le 4 (crc32c b)

end Sys2Proof.Machine
end

