-- ==== Sys2Proof/Machine/Hash.lean ====
section
/-!
DEFINITION. Machine/Hash.lean: the hash functions that the spec names and takes from the public standards: SHA-256, SHA-384 and SHA-512/256
(FIPS 180-4), SHA3-256 (FIPS 202), and HMAC (FIPS 198-1) as R110 uses it.
-/
namespace Sys2Proof.Machine
open Sys2Proof

/-- The number that some bytes spell, most significant byte first. -/
def numBE (b : List Byte) : Nat := num b.reverse

/-- The most-significant-first bytes of a number. -/
def be (n v : Nat) : List Byte := (le n v).reverse

/-- A rotation to the right of a `w`-bit word. -/
def rotr (w n x : Nat) : Nat := (x >>> n ||| x <<< (w - n)) % 2 ^ w

/-- Bytewise exclusive or, to the length of the shorter. -/
def xorBytes (a b : List Byte) : List Byte := List.zipWith (· ^^^ ·) a b

/-- A byte string in groups of `n` bytes (R110: the block of a hash); `fuel` bounds the groups. -/
def groupsOf (n : Nat) : Nat → List Byte → List (List Byte)
  | 0, _ => []
  | fuel + 1, b => if b.isEmpty then [] else b.take n :: groupsOf n fuel (b.drop n)

/-! SHA-2 -/

/-- The round constants of SHA-512; those of SHA-256 are the upper halves of the first 64. -/
def sha2K : List Nat :=
  [0x428A2F98D728AE22, 0x7137449123EF65CD, 0xB5C0FBCFEC4D3B2F, 0xE9B5DBA58189DBBC,
   0x3956C25BF348B538, 0x59F111F1B605D019, 0x923F82A4AF194F9B, 0xAB1C5ED5DA6D8118,
   0xD807AA98A3030242, 0x12835B0145706FBE, 0x243185BE4EE4B28C, 0x550C7DC3D5FFB4E2,
   0x72BE5D74F27B896F, 0x80DEB1FE3B1696B1, 0x9BDC06A725C71235, 0xC19BF174CF692694] ++
  [0xE49B69C19EF14AD2, 0xEFBE4786384F25E3, 0x0FC19DC68B8CD5B5, 0x240CA1CC77AC9C65,
   0x2DE92C6F592B0275, 0x4A7484AA6EA6E483, 0x5CB0A9DCBD41FBD4, 0x76F988DA831153B5,
   0x983E5152EE66DFAB, 0xA831C66D2DB43210, 0xB00327C898FB213F, 0xBF597FC7BEEF0EE4,
   0xC6E00BF33DA88FC2, 0xD5A79147930AA725, 0x06CA6351E003826F, 0x142929670A0E6E70] ++
  [0x27B70A8546D22FFC, 0x2E1B21385C26C926, 0x4D2C6DFC5AC42AED, 0x53380D139D95B3DF,
   0x650A73548BAF63DE, 0x766A0ABB3C77B2A8, 0x81C2C92E47EDAEE6, 0x92722C851482353B,
   0xA2BFE8A14CF10364, 0xA81A664BBC423001, 0xC24B8B70D0F89791, 0xC76C51A30654BE30,
   0xD192E819D6EF5218, 0xD69906245565A910, 0xF40E35855771202A, 0x106AA07032BBD1B8] ++
  [0x19A4C116B8D2D0C8, 0x1E376C085141AB53, 0x2748774CDF8EEB99, 0x34B0BCB5E19B48A8,
   0x391C0CB3C5C95A63, 0x4ED8AA4AE3418ACB, 0x5B9CCA4F7763E373, 0x682E6FF3D6B2B8A3,
   0x748F82EE5DEFB2FC, 0x78A5636F43172F60, 0x84C87814A1F0AB72, 0x8CC702081A6439EC,
   0x90BEFFFA23631E28, 0xA4506CEBDE82BDE9, 0xBEF9A3F7B2C67915, 0xC67178F2E372532B] ++
  [0xCA273ECEEA26619C, 0xD186B8C721C0C207, 0xEADA7DD6CDE0EB1E, 0xF57D4F7FEE6ED178,
   0x06F067AA72176FBA, 0x0A637DC5A2C898A6, 0x113F9804BEF90DAE, 0x1B710B35131C471B,
   0x28DB77F523047D84, 0x32CAAB7B40C72493, 0x3C9EBE0A15C9BEBC, 0x431D67C49C100D4C,
   0x4CC5D4BECB3E42B6, 0x597F299CFC657E2A, 0x5FCB6FAB3AD6FAEC, 0x6C44198C4A475817]

/-- A member of the SHA-2 family: word size in bits, round constants, and the rotations (the last of the small sigmas is a shift). -/
structure Sha2 where
  w      : Nat
  k      : List Nat
  bigA   : Nat × Nat × Nat
  bigE   : Nat × Nat × Nat
  small0 : Nat × Nat × Nat
  small1 : Nat × Nat × Nat
  deriving DecidableEq, Repr

/-- The 32-bit member. -/
def Sha2.short : Sha2 :=
  { w := 32, k := (sha2K.take 64).map fun x => x >>> 32, bigA := (2, 13, 22), bigE := (6, 11, 25), small0 := (7, 18, 3), small1 := (17, 19, 10) }

/-- The 64-bit member. -/
def Sha2.long : Sha2 :=
  { w := 64, k := sha2K, bigA := (28, 34, 39), bigE := (14, 18, 41), small0 := (1, 8, 7), small1 := (19, 61, 6) }

/-- Three rotations together. -/
def Sha2.big (p : Sha2) (r : Nat × Nat × Nat) (x : Nat) : Nat := rotr p.w r.1 x ^^^ rotr p.w r.2.1 x ^^^ rotr p.w r.2.2 x

/-- Two rotations and a shift together. -/
def Sha2.small (p : Sha2) (r : Nat × Nat × Nat) (x : Nat) : Nat := rotr p.w r.1 x ^^^ rotr p.w r.2.1 x ^^^ x >>> r.2.2

/-- One round: the eight working words with a constant and a schedule word added in. -/
def Sha2.round (p : Sha2) (v : List Nat) (k w : Nat) : List Nat :=
  match v with
  | [a, b, c, d, e, f, g, h] =>
    have t1 := h + p.big p.bigE e + ((e &&& f) ^^^ ((2 ^ p.w - 1 - e) &&& g)) + k + w
    have t2 := p.big p.bigA a + ((a &&& b) ^^^ (a &&& c) ^^^ (b &&& c))
    [(t1 + t2) % 2 ^ p.w, a, b, c, (d + t1) % 2 ^ p.w, e, f, g]
  | _ => v

/-- The rounds, with the next 16 words of the message schedule. -/
def Sha2.rounds (p : Sha2) : List Nat → List Nat → List Nat → List Nat
  | [], _, v => v
  | k :: ks, ws, v =>
    have w := ws.headD 0
    have next := (p.small p.small1 (ws.getD 14 0) + ws.getD 9 0 + p.small p.small0 (ws.getD 1 0) + w) % 2 ^ p.w
    p.rounds ks (ws.drop 1 ++ [next]) (p.round v k w)

/-- The compression of one block into the chaining words. -/
def Sha2.compress (p : Sha2) (h : List Nat) (block : List Byte) : List Nat :=
  have ws := (groupsOf (p.w / 8) 16 block).map numBE
  List.zipWith (fun a b => (a + b) % 2 ^ p.w) h (p.rounds p.k ws h)

/-- The padding of a message of `n` bytes: a one bit, zeros, and the length in bits in two words. -/
def Sha2.padding (p : Sha2) (n : Nat) : List Byte :=
  0x80 :: (zeros ((2 * p.w - (n + 1 + p.w / 4) % (2 * p.w)) % (2 * p.w)) ++ be (p.w / 4) (8 * n))

/-- The hash of a message from an initial value; every chaining word. -/
def Sha2.hash (p : Sha2) (iv : List Nat) (m : List Byte) : List Byte :=
  have b := m ++ p.padding m.length
  ((groupsOf (2 * p.w) b.length b).foldl p.compress iv).flatMap (be (p.w / 8))

/-- The initial value of SHA-512; that of SHA-256 is its upper halves. -/
def sha512Iv : List Nat :=
  [0x6A09E667F3BCC908, 0xBB67AE8584CAA73B, 0x3C6EF372FE94F82B, 0xA54FF53A5F1D36F1,
   0x510E527FADE682D1, 0x9B05688C2B3E6C1F, 0x1F83D9ABFB41BD6B, 0x5BE0CD19137E2179]

/-- SHA-256 (R309, R312). -/
def sha256 (m : List Byte) : List Byte := Sha2.short.hash (sha512Iv.map fun x => x >>> 32) m

/-- SHA-384 (R446, R448, R472). -/
def sha384 (m : List Byte) : List Byte :=
  (Sha2.long.hash
    [0xCBBB9D5DC1059ED8, 0x629A292A367CD507, 0x9159015A3070DD17, 0x152FECD8F70E5939,
     0x67332667FFC00B31, 0x8EB44A8768581511, 0xDB0C2E0D64F98FA7, 0x47B5481DBEFA4FA4] m).take 48

/-- SHA-512/256 (R110). -/
def sha512t256 (m : List Byte) : List Byte :=
  (Sha2.long.hash
    [0x22312194FC2BF72C, 0x9F555FA3C84C64C2, 0x2393B86B6F53B151, 0x963877195940EABD,
     0x96283EE2A88EFFE3, 0xBE5E1E2553863992, 0x2B0199FC2C85B8AA, 0x0EB72DDC81C52CA2] m).take 32

/-! SHA-3 -/

/-- The round constants of Keccak-f[1600]. -/
def keccakRc : List Nat :=
  [0x0000000000000001, 0x0000000000008082, 0x800000000000808A, 0x8000000080008000,
   0x000000000000808B, 0x0000000080000001, 0x8000000080008081, 0x8000000000008009,
   0x000000000000008A, 0x0000000000000088, 0x0000000080008009, 0x000000008000000A] ++
  [0x000000008000808B, 0x800000000000008B, 0x8000000000008089, 0x8000000000008003,
   0x8000000000008002, 0x8000000000000080, 0x000000000000800A, 0x800000008000000A,
   0x8000000080008081, 0x8000000000008080, 0x0000000080000001, 0x8000000080008008]

/-- The rotations to the left of the 25 lanes, lane x + 5y. -/
def keccakRot : List Nat :=
  [0, 1, 62, 28, 27, 36, 44, 6, 55, 20, 3, 10, 43, 25, 39, 41, 45, 15, 21, 8, 18, 2, 61, 56, 14]

/-- One round of Keccak-f[1600] on the 25 lanes. -/
def keccakRound (a : List Nat) (rc : Nat) : List Nat :=
  have at_ (x y : Nat) : Nat := a.getD (x % 5 + 5 * (y % 5)) 0
  have c := (List.range 5).map fun x => at_ x 0 ^^^ at_ x 1 ^^^ at_ x 2 ^^^ at_ x 3 ^^^ at_ x 4
  have d := (List.range 5).map fun x => c.getD ((x + 4) % 5) 0 ^^^ rotr 64 63 (c.getD ((x + 1) % 5) 0)
  have b := (List.range 25).map fun k =>
    have x := k % 5
    have y := k / 5
    have x' := (x + 3 * y) % 5
    rotr 64 ((64 - keccakRot.getD (x' + 5 * x) 0) % 64) (at_ x' x ^^^ d.getD x' 0)
  (List.range 25).map fun k =>
    have x := k % 5
    have y := k / 5
    b.getD k 0 ^^^ ((2 ^ 64 - 1 - b.getD ((x + 1) % 5 + 5 * y) 0) &&& b.getD ((x + 2) % 5 + 5 * y) 0) ^^^ (if k = 0 then rc else 0)

/-- The absorption of one block of 136 bytes. -/
def keccakAbsorb (a : List Nat) (block : List Byte) : List Nat :=
  have ws := (groupsOf 8 17 block).map num
  keccakRc.foldl keccakRound ((List.range 25).map fun k => a.getD k 0 ^^^ ws.getD k 0)

/-- SHA3-256 (R110). -/
def sha3_256 (m : List Byte) : List Byte :=
  have n := 136 - m.length % 136
  have pad : List Byte := if n = 1 then [0x86] else 0x06 :: (zeros (n - 2) ++ [0x80])
  have b := m ++ pad
  (((groupsOf 136 b.length b).foldl keccakAbsorb (List.replicate 25 0)).flatMap (le 8)).take 32

/-! HMAC -/

/-- The hash and its block by the domain's DIGEST (R110). -/
def digestHash (sel : Nat) : (List Byte → List Byte) × Nat :=
  if sel = 0 then (sha256, 64) else if sel = 1 then (sha512t256, 128) else (sha3_256, 136)

/-- HMAC(K, m) with the hash of a DIGEST value (R110, R111): the inner state from K with ipad, the outer from K with opad. -/
def hmac (sel : Nat) (key m : List Byte) : List Byte :=
  let (h, block) := digestHash sel
  have k := key ++ zeros (block - key.length)
  h (k.map (· ^^^ 0x5C) ++ h (k.map (· ^^^ 0x36) ++ m))

end Sys2Proof.Machine
end

