-- ==== Sys2Proof/Machine/Aes.lean ====
section
/-!
DEFINITION. Machine/Aes.lean: AES (FIPS 197) and the modes of R141: CBC, CTR and CFB-128 (SP 800-38A), XTS (IEEE 1619), GCM (SP 800-38D), and
AES-KW unwrap (SP 800-38F, R150). A key of 16 bytes is AES-128, of 32 bytes AES-256.
-/
namespace Sys2Proof.Machine
open Sys2Proof

/-! The block cipher -/

/-- Multiplication by x in the field of AES. -/
def aesDouble (a : Nat) : Nat := if 128 ≤ a then (2 * a) ^^^ 0x11B else 2 * a

/-- The product in the field of AES over the low `n` bits of the second factor. -/
def aesMulBits : Nat → Nat → Nat → Nat
  | 0, _, _ => 0
  | n + 1, a, b => (if b % 2 = 1 then a else 0) ^^^ aesMulBits n (aesDouble a) (b / 2)

/-- The product in the field of AES. -/
def aesMul (a b : Nat) : Nat := aesMulBits 8 a b

/-- a to the power 2^(n+1) − 2: with n = 7 the inverse, 0 for 0. -/
def aesInvPow : Nat → Nat → Nat
  | 0, _ => 1
  | n + 1, a =>
    have b := aesMul a a
    aesMul b (aesInvPow n b)

/-- The inverse in the field of AES. -/
def aesInv (a : Nat) : Nat := aesInvPow 7 a

/-- A byte rotated to the left. -/
def rotByte (n x : Nat) : Nat := rotr 8 (8 - n) x

/-- SubBytes of one byte. -/
def aesSub (x : Nat) : Nat :=
  have i := aesInv x
  i ^^^ rotByte 1 i ^^^ rotByte 2 i ^^^ rotByte 3 i ^^^ rotByte 4 i ^^^ 0x63

/-- InvSubBytes of one byte. -/
def aesUnsub (y : Nat) : Nat := aesInv (rotByte 1 y ^^^ rotByte 3 y ^^^ rotByte 6 y ^^^ 0x05)

/-- Bytewise exclusive or of numbers. -/
def xorNats (a b : List Nat) : List Nat := List.zipWith (· ^^^ ·) a b

/-- ShiftRows by `r` places per row, on the 16 bytes column by column: 1 encrypts, 3 undoes it. -/
def aesShift (r : Nat) (s : List Nat) : List Nat :=
  (List.range 16).map fun k => s.getD (k % 4 + 4 * ((k / 4 + r * (k % 4)) % 4)) 0

/-- MixColumns with a row of coefficients: 2 3 1 1 encrypts, 14 11 13 9 undoes it. -/
def aesMix (row : List Nat) (s : List Nat) : List Nat :=
  (List.range 16).map fun k =>
    ((List.range 4).map fun j => aesMul (row.getD ((j + 4 - k % 4) % 4) 0) (s.getD (4 * (k / 4) + j) 0)).foldl (· ^^^ ·) 0

/-- The next word of the key schedule: `nk` words of key, word number `i`, the words so far, newest first, and the round constant. -/
def aesNextWord (nk i rcon : Nat) (ws : List (List Nat)) : List Nat :=
  have prev := ws.headD []
  have t :=
    if i % nk = 0 then xorNats ((prev.drop 1 ++ prev.take 1).map aesSub) [rcon, 0, 0, 0]
    else if 6 < nk ∧ i % nk = 4 then prev.map aesSub
    else prev
  xorNats (ws.getD (nk - 1) []) t

/-- The key schedule from word `i` on, newest first. -/
def aesExpand (nk : Nat) : Nat → Nat → Nat → List (List Nat) → List (List Nat)
  | 0, _, _, ws => ws
  | n + 1, i, rcon, ws =>
    aesExpand nk n (i + 1) (if i % nk = 0 then aesDouble rcon else rcon) (aesNextWord nk i rcon ws :: ws)

/-- The words of a key, oldest first. -/
def wordsOf (b : List Byte) : List (List Nat) := (groupsOf 4 b.length b).map fun g => g.map BitVec.toNat

/-- The round keys of a key, 16 bytes each. -/
def aesKeys (key : List Byte) : List (List Nat) :=
  have nk := key.length / 4
  have total := 4 * (nk + 7)
  have ws := (aesExpand nk (total - nk) nk 1 (wordsOf key).reverse).reverse
  (List.range (nk + 7)).map fun r => ((ws.drop (4 * r)).take 4).flatten

/-- One block enciphered. -/
def aesEncrypt (key block : List Byte) : List Byte :=
  have ks := aesKeys key
  have s := xorNats (block.map BitVec.toNat) (ks.headD [])
  have s := ((ks.drop 1).dropLast).foldl (fun s k => xorNats (aesMix [2, 3, 1, 1] (aesShift 1 (s.map aesSub))) k) s
  (xorNats (aesShift 1 (s.map aesSub)) (ks.getLastD [])).map byteOf

/-- One block deciphered. -/
def aesDecrypt (key block : List Byte) : List Byte :=
  have ks := (aesKeys key).reverse
  have s := (aesShift 3 (xorNats (block.map BitVec.toNat) (ks.headD []))).map aesUnsub
  have s := ((ks.drop 1).dropLast).foldl (fun s k => (aesShift 3 (aesMix [14, 11, 13, 9] (xorNats s k))).map aesUnsub) s
  (xorNats s (ks.getLastD [])).map byteOf

/-! CBC, CTR and CFB-128 -/

/-- CBC over the blocks of a message, from the chaining value. -/
def cbcBlocks (decrypt : Bool) (key : List Byte) : List Byte → List (List Byte) → List Byte
  | _, [] => []
  | iv, b :: rest =>
    if decrypt then xorBytes (aesDecrypt key b) iv ++ cbcBlocks decrypt key b rest
    else
      have c := aesEncrypt key (xorBytes b iv)
      c ++ cbcBlocks decrypt key c rest

/-- A counter block with the low `w` bits of its big-endian number advanced by `n` (R141). -/
def counterBlock (w n : Nat) (iv : List Byte) : List Byte :=
  have v := numBE iv
  be 16 (v / 2 ^ w * 2 ^ w + (v + n) % 2 ^ w)

/-- CTR: the message with the keystream of the counter blocks, the last block cut to what is left of the message. -/
def ctrText (w : Nat) (key iv msg : List Byte) : List Byte :=
  ((groupsOf 16 msg.length msg).zipIdx).flatMap fun b => xorBytes b.1 (aesEncrypt key (counterBlock w b.2 iv))

/-- CFB-128: the feedback is the ciphertext block, and a last partial segment is cut (R141). -/
def cfbBlocks (decrypt : Bool) (key : List Byte) : List Byte → List (List Byte) → List Byte
  | _, [] => []
  | iv, b :: rest =>
    have o := xorBytes b (aesEncrypt key iv)
    o ++ cfbBlocks decrypt key (if decrypt then b else o) rest

/-- The text of a cipher job in CBC, CTR or CFB-128, by the mode number of R144. -/
def aesMode (mode width : Nat) (decrypt : Bool) (key iv msg : List Byte) : List Byte :=
  if mode = 0 then cbcBlocks decrypt key iv (groupsOf 16 msg.length msg)
  else if mode = 1 then ctrText width key iv msg
  else cfbBlocks decrypt key iv (groupsOf 16 msg.length msg)

/-! XTS -/

/-- The tweak of the next block: multiplication by α of the little-endian number. -/
def xtsNext (t : List Byte) : List Byte :=
  have v := 2 * num t
  le 16 (if 2 ^ 128 ≤ v then (v - 2 ^ 128) ^^^ 0x87 else v)

/-- One block between two additions of its tweak. -/
def xtsBlock (decrypt : Bool) (key t b : List Byte) : List Byte :=
  xorBytes (if decrypt then aesDecrypt key (xorBytes b t) else aesEncrypt key (xorBytes b t)) t

/-- The blocks of a data unit from the tweak of the first; `fuel` bounds them. The last whole block of a unit that is no multiple of 16 bytes
shares its bytes with the partial block after it (ciphertext stealing, R133). -/
def xtsBlocks (decrypt : Bool) (key : List Byte) : Nat → List Byte → List Byte → List Byte
  | 0, _, _ => []
  | fuel + 1, t, m =>
    if m.length < 16 then []
    else if m.length = 16 ∨ 32 ≤ m.length then
      xtsBlock decrypt key t (m.take 16) ++ xtsBlocks decrypt key fuel (xtsNext t) (m.drop 16)
    else
      have n := m.length - 16
      have x := xtsBlock decrypt key (if decrypt then xtsNext t else t) (m.take 16)
      xtsBlock decrypt key (if decrypt then t else xtsNext t) (m.drop 16 ++ x.drop n) ++ x.take n

/-- XTS of one data unit: the first half of the key serves the blocks, the second the tweak (R133). -/
def xts (decrypt : Bool) (key tweak m : List Byte) : List Byte :=
  have h := key.length / 2
  xtsBlocks decrypt (key.take h) m.length (aesEncrypt (key.drop h) tweak) m

/-! GCM -/

/-- The product in the field of GHASH over the remaining bits of x, most significant first. -/
def gcmMulBits : Nat → Nat → Nat → Nat → Nat
  | 0, _, _, z => z
  | n + 1, x, v, z =>
    gcmMulBits n x (if v % 2 = 1 then (v / 2) ^^^ 0xE1 * 2 ^ 120 else v / 2) (if x.testBit n then z ^^^ v else z)

/-- The product in the field of GHASH. -/
def gcmMul (x v : Nat) : Nat := gcmMulBits 128 x v 0

/-- GHASH of a padded string under the hash subkey. -/
def ghash (h : Nat) (b : List Byte) : Nat := (groupsOf 16 b.length b).foldl (fun y g => gcmMul (y ^^^ numBE g) h) 0

/-- The text of AES-GCM with a 96-bit IV: the counter block 2 serves the first block of the message (R141). -/
def gcmText (key iv msg : List Byte) : List Byte := ctrText 32 key (iv ++ be 4 2) msg

/-- The 16-byte tag of AES-GCM over the AAD and the ciphertext (R141, R146). -/
def gcmTag (key iv aad cipher : List Byte) : List Byte :=
  have h := numBE (aesEncrypt key (zeros 16))
  have s := ghash h (padTo 16 aad ++ padTo 16 cipher ++ be 8 (8 * aad.length) ++ be 8 (8 * cipher.length))
  xorBytes (be 16 s) (aesEncrypt key (iv ++ be 4 1))

/-! Key unwrapping -/

/-- One step of the unwrap: the integrity register and the semiblocks, with step number `t`, whose semiblock is the last; it moves to the
front. -/
def kwStep (kek : List Byte) (st : List Byte × List (List Byte)) (t : Nat) : List Byte × List (List Byte) :=
  have b := aesDecrypt kek (be 8 (numBE st.1 ^^^ t) ++ st.2.getLastD [])
  (b.take 8, b.drop 8 :: st.2.dropLast)

/-- AES-KW unwrap of a wrapped key; none where the integrity check fails (R150). -/
def kwUnwrap (kek wrapped : List Byte) : Option (List Byte) :=
  have sb := groupsOf 8 wrapped.length wrapped
  have n := sb.length - 1
  let (a, r) := ((List.range (6 * n)).reverse.map (· + 1)).foldl (kwStep kek) (sb.headD [], sb.drop 1)
  if a = List.replicate 8 0xA6 then some r.flatten else none

end Sys2Proof.Machine
end

