-- ==== Sys2Proof/Machine/Curve.lean ====
section
/-!
DEFINITION. Machine/Curve.lean: verification of an ECDSA P-384 signature (FIPS 186-5, SP 800-186), which R446 and R472 name.
-/
namespace Sys2Proof.Machine
open Sys2Proof

/-- The field prime of P-384. -/
def p384 : Nat := 2 ^ 384 - 2 ^ 128 - 2 ^ 96 + 2 ^ 32 - 1

/-- The order of the base point. -/
def p384Order : Nat :=
  0xFFFFFFFFFFFFFFFFFFFFFFFFFFFFFFFFFFFFFFFFFFFFFFFFC7634D81F4372DDF581A0DB248B0A77AECEC196ACCC52973

/-- The coefficient b; the coefficient a is −3. -/
def p384B : Nat :=
  0xB3312FA7E23EE7E4988E056BE3F82D19181D9C6EFE8141120314088F5013875AC656398D8A2ED19D2A85C8EDD3EC2AEF

/-- A point: none is the point at infinity. -/
abbrev Point := Option (Nat × Nat)

/-- The base point. -/
def p384Base : Point :=
  some (0xAA87CA22BE8B05378EB1C71EF320AD746E1D3B628BA79B9859F741E082542A385502F25DBF55296C3A545E3872760AB7,
    0x3617DE4A96262C6F5D9E98BF9292DC29F8F41DBD289A147CE9DA3113B5F0B8C00A60B1CE1D7E819D7A431D7C90EA0E5F)

/-- A power modulo m, over the low `n` bits of the exponent. -/
def modPow (m : Nat) : Nat → Nat → Nat → Nat
  | 0, _, _ => 1 % m
  | n + 1, a, e =>
    have r := modPow m n (a * a % m) (e / 2)
    if e % 2 = 1 then a * r % m else r

/-- The inverse modulo a prime of 384 bits. -/
def modInv (m a : Nat) : Nat := modPow m 384 a (m - 2)

/-- Whether a pair of numbers is a point of the curve. -/
def onCurve (x y : Nat) : Bool := decide (x < p384 ∧ y < p384) && y * y % p384 == (x * x * x + (p384 - 3) * x + p384B) % p384

/-- The third point on the line of slope `l` through two points with x coordinates x1 and x2, the first with y coordinate y1, mirrored. -/
def lineEnd (l x1 y1 x2 : Nat) : Point :=
  have x := (l * l + 2 * p384 - x1 - x2) % p384
  some (x, (l * (x1 + p384 - x) + p384 - y1) % p384)

/-- The sum of two points. -/
def Point.add : Point → Point → Point
  | none, q => q
  | p, none => p
  | some (x1, y1), some (x2, y2) =>
    if x1 = x2 then
      if (y1 + y2) % p384 = 0 then none
      else lineEnd ((3 * x1 * x1 + p384 - 3) * modInv p384 (2 * y1 % p384) % p384) x1 y1 x2
    else lineEnd ((y2 + p384 - y1) * modInv p384 ((x2 + p384 - x1) % p384) % p384) x1 y1 x2

/-- A multiple of a point, over the low `n` bits of the factor. -/
def Point.mul : Nat → Nat → Point → Point
  | 0, _, _ => none
  | n + 1, k, p =>
    have r := Point.mul n (k / 2) (p.add p)
    if k % 2 = 1 then p.add r else r

/-- Whether an ECDSA P-384 signature, r then s, verifies over a 48-byte digest under a public key 0x04, X, Y (R446, R472). -/
def ecdsaVerify (key digest sig : List Byte) : Bool :=
  have x := numBE (slice key 1 48)
  have y := numBE (slice key 49 48)
  have r := numBE (slice sig 0 48)
  have s := numBE (slice sig 48 48)
  have w := modInv p384Order s
  have u := numBE (digest.take 48) * w % p384Order
  have v := r * w % p384Order
  slice key 0 1 == [0x04] && onCurve x y && decide (0 < r ∧ r < p384Order ∧ 0 < s ∧ s < p384Order) &&
    match (p384Base.mul 384 u).add (Point.mul 384 v (some (x, y))) with
    | some (x, _) => x % p384Order == r
    | none => false

end Sys2Proof.Machine
end

