-- ==== Sys2Proof/Machine/Inflate.lean ====
section
/-!
DEFINITION. Machine/Inflate.lean: the compressor's and the decompressor's streams (R137 to R139, R143): raw DEFLATE (RFC 1951), zlib (RFC 1950),
gzip (RFC 1952) and the LZ4 block, decoded with the first error in stream order; and the wrappers of what the compressor writes.
-/
namespace Sys2Proof.Machine
open Sys2Proof

/-- A decoder's answer: a value and what is left of the input, or the code of the first error (R139). -/
abbrev Decode (α β : Type) := Except Nat (α × β)

/-! Checks of the wrappers -/

/-- One bit of the reflected CRC-32 of gzip. -/
def crc32Bit (c : Nat) : Nat := if c % 2 = 1 then (c / 2) ^^^ 0xEDB88320 else c / 2

/-- The CRC-32 of gzip. -/
def crc32 (b : List Byte) : Nat :=
  (b.foldl (fun c x => (List.range 8).foldl (fun c _ => crc32Bit c) (c ^^^ x.toNat)) 0xFFFFFFFF) ^^^ 0xFFFFFFFF

/-- The Adler-32 of zlib. -/
def adler32 (b : List Byte) : Nat :=
  have r := b.foldl (fun (s : Nat × Nat) x => ((s.1 + x.toNat) % 65521, (s.2 + s.1 + x.toNat) % 65521)) (1, 0)
  r.2 * 65536 + r.1

/-! Bits and Huffman codes -/

/-- The bits of a byte string, each byte from its low bit on. -/
def bitsOf (b : List Byte) : List Bool := b.flatMap fun x => (List.range 8).map x.toNat.testBit

/-- A number of `n` bits, low bit first; 0x3106 where the input ends. -/
def takeBits : Nat → List Bool → Decode Nat (List Bool)
  | 0, bs => .ok (0, bs)
  | _ + 1, [] => .error 0x3106
  | n + 1, b :: bs => (takeBits n bs).map fun r => ((if b then 1 else 0) + 2 * r.1, r.2)

/-- A Huffman code: the code length of each symbol, 0 for a symbol without one. -/
abbrev Lengths := List Nat

/-- The number of codes of a length. -/
def Lengths.count (l : Lengths) (n : Nat) : Nat := List.countP (fun k => k == n) l

/-- The codes left over when each length has taken its own, in units of the longest (15 bits); negative where over-subscribed. -/
def Lengths.left (l : Lengths) : Int := 32768 - (((List.range 15).map fun k => l.count (k + 1) * 2 ^ (14 - k)).sum : Nat)

/-- A complete code. -/
def Lengths.complete (l : Lengths) : Bool := l.left == 0

/-- A distance code that is accepted: complete, without any code, or a single code of one bit (R138). -/
def Lengths.goodDistances (l : Lengths) : Bool := l.complete || l.all (· == 0) || (l.count 1 == 1 && l.all fun n => decide (n ≤ 1))

/-- The symbols with codes of a length, in order. -/
def Lengths.symbols (l : Lengths) (n : Nat) : List Nat := (l.zipIdx.filter fun e => e.1 == n).map Prod.snd

/-- One symbol: `n` lengths are still to be tried, `len` bits have been read and spell `code`, the first code of the next length is
`first`. A code that no symbol has is an illegal code (R139). -/
def decodeSymbol (l : Lengths) : Nat → Nat → Nat → Nat → List Bool → Decode Nat (List Bool)
  | 0, _, _, _, _ => .error 0x3101
  | _ + 1, _, _, _, [] => .error 0x3106
  | n + 1, len, code, first, b :: bs =>
    have code := 2 * code + if b then 1 else 0
    have c := l.count (len + 1)
    if code < first + c then .ok ((l.symbols (len + 1)).getD (code - first) 0, bs)
    else decodeSymbol l n (len + 1) code ((first + c) * 2) bs

/-- One symbol of a code (RFC 1951, 3.2.2). -/
def Lengths.next (l : Lengths) (bs : List Bool) : Decode Nat (List Bool) := decodeSymbol l 15 0 0 0 bs

/-! Blocks -/

/-- The extra bits of the length symbols 257 to 285. -/
def lengthExtra (s : Nat) : Nat := if s < 265 ∨ s = 285 then 0 else (s - 261) / 4

/-- The base of the length symbols 257 to 285. -/
def lengthBase (s : Nat) : Nat :=
  if s = 285 then 258 else if s < 265 then s - 254 else 3 + (4 + (s - 261) % 4) * 2 ^ ((s - 261) / 4)

/-- The extra bits of the distance symbols 0 to 29. -/
def distExtra (s : Nat) : Nat := if s < 4 then 0 else s / 2 - 1

/-- The base of the distance symbols 0 to 29. -/
def distBase (s : Nat) : Nat := if s < 4 then s + 1 else 1 + (2 + s % 2) * 2 ^ (s / 2 - 1)

/-- The output copied `n` times from a distance back; output is kept newest first, `k` bytes of it. -/
def copyBack (dist : Nat) : Nat → List Byte → List Byte
  | 0, out => out
  | n + 1, out => copyBack dist n (out.getD (dist - 1) 0 :: out)

/-- A match: the distance lies within what the stream has produced (0x3102), and the output within the limit (0x3103). -/
def doMatch (limit dist len : Nat) (out : List Byte) : Except Nat (List Byte) :=
  if out.length < dist then .error 0x3102
  else if limit < out.length + len then .error 0x3103
  else .ok (copyBack dist len out)

/-- The symbols of a block up to its end-of-block symbol; `fuel` bounds them. -/
def inflateSymbols (limit : Nat) (lit dist : Lengths) : Nat → List Byte → List Bool → Decode (List Byte) (List Bool)
  | 0, _, _ => .error 0x3106
  | fuel + 1, out, bs =>
    (lit.next bs).bind fun (s, bs) =>
      if s < 256 then
        if limit ≤ out.length then .error 0x3103 else inflateSymbols limit lit dist fuel (byteOf s :: out) bs
      else if s = 256 then .ok (out, bs)
      else if 286 ≤ s then .error 0x3101
      else
        (takeBits (lengthExtra s) bs).bind fun (x, bs) =>
          (dist.next bs).bind fun (d, bs) =>
            if 30 ≤ d then .error 0x3101
            else
              (takeBits (distExtra d) bs).bind fun (y, bs) =>
                (doMatch limit (distBase d + y) (lengthBase s + x) out).bind fun out =>
                  inflateSymbols limit lit dist fuel out bs

/-- Bytes of input copied to the output as they are: where the input ends first 0x3106, where the limit comes first 0x3103. -/
def copyInput (limit len avail have_ : Nat) : Option Nat :=
  if len ≤ avail ∧ have_ + len ≤ limit then none
  else if avail < len ∧ have_ + avail ≤ limit then some 0x3106
  else some 0x3103

/-- The bytes that some bits spell; a partial byte at the end is left out. -/
def bytesOf : Nat → List Bool → List Byte
  | 0, _ => []
  | n + 1, bs =>
    match takeBits 8 bs with
    | .ok (v, rest) => byteOf v :: bytesOf n rest
    | .error _ => []

/-- A stored block: it starts at a byte boundary with LEN and its ones' complement. -/
def inflateStored (limit : Nat) (out : List Byte) (bs : List Bool) : Decode (List Byte) (List Bool) :=
  (takeBits 16 (bs.drop (bs.length % 8))).bind fun (len, bs) =>
    (takeBits 16 bs).bind fun (nlen, bs) =>
      if len + nlen ≠ 65535 then .error 0x3101
      else
        match copyInput limit len (bs.length / 8) out.length with
        | some e => .error e
        | none => .ok ((bytesOf len bs).reverse ++ out, bs.drop (8 * len))

/-- The order in which the code lengths of the code-length code stand. -/
def clOrder : List Nat := [16, 17, 18, 0, 8, 7, 9, 6, 10, 5, 11, 4, 12, 3, 13, 2, 14, 1, 15]

/-- The lengths of the code-length code, `n` of them, by symbol. -/
def clLengths : List Nat → Nat → Lengths → List Bool → Decode Lengths (List Bool)
  | _, 0, l, bs => .ok (l, bs)
  | [], _ + 1, l, bs => .ok (l, bs)
  | s :: ss, n + 1, l, bs => (takeBits 3 bs).bind fun (v, bs) => clLengths ss n (l.set s v) bs

/-- The code lengths of a dynamic block, newest first, up to `total`; a repeat without a length before it or beyond the total is an illegal
code (R139). -/
def dynLengths (cl : Lengths) (total : Nat) : Nat → List Nat → List Bool → Decode (List Nat) (List Bool)
  | 0, _, _ => .error 0x3106
  | fuel + 1, acc, bs =>
    if total ≤ acc.length then .ok (acc, bs)
    else
      (cl.next bs).bind fun (s, bs) =>
        if s < 16 then dynLengths cl total fuel (s :: acc) bs
        else
          (takeBits (if s = 16 then 2 else if s = 17 then 3 else 7) bs).bind fun (x, bs) =>
            have n := if s = 18 then 11 + x else 3 + x
            if (s = 16 ∧ acc = []) ∨ total < acc.length + n then .error 0x3101
            else dynLengths cl total fuel (List.replicate n (if s = 16 then acc.headD 0 else 0) ++ acc) bs

/-- The two codes of a dynamic block (RFC 1951, 3.2.7). -/
def dynCodes (bs : List Bool) : Decode (Lengths × Lengths) (List Bool) :=
  (takeBits 5 bs).bind fun (hlit, bs) => (takeBits 5 bs).bind fun (hdist, bs) => (takeBits 4 bs).bind fun (hclen, bs) =>
    (clLengths clOrder (hclen + 4) (List.replicate 19 0) bs).bind fun (cl, bs) =>
      if !cl.complete then .error 0x3101
      else
        (dynLengths cl (hlit + hdist + 258) (bs.length + 2) [] bs).bind fun (acc, bs) =>
          have all := acc.reverse
          have lit : Lengths := all.take (hlit + 257)
          have dist : Lengths := all.drop (hlit + 257)
          if !lit.complete || !dist.goodDistances then .error 0x3101 else .ok ((lit, dist), bs)

/-- The fixed codes (RFC 1951, 3.2.6). -/
def fixedCodes : Lengths × Lengths :=
  (List.replicate 144 8 ++ List.replicate 112 9 ++ List.replicate 24 7 ++ List.replicate 8 8, List.replicate 32 5)

/-- The blocks of a raw DEFLATE stream; `fuel` bounds them. The output stands newest first, with the bits after the last block. -/
def inflateBlocks (limit : Nat) : Nat → List Byte → List Bool → Decode (List Byte) (List Bool)
  | 0, _, _ => .error 0x3106
  | fuel + 1, out, bs =>
    (takeBits 1 bs).bind fun (final, bs) => (takeBits 2 bs).bind fun (kind, bs) =>
      have block : Decode (List Byte) (List Bool) :=
        match kind with
        | 0 => inflateStored limit out bs
        | 1 => inflateSymbols limit fixedCodes.1 fixedCodes.2 (bs.length + 1) out bs
        | 2 => (dynCodes bs).bind fun (c, bs) => inflateSymbols limit c.1 c.2 (bs.length + 1) out bs
        | _ => .error 0x3101
      block.bind fun (out, bs) => if final = 1 then .ok (out, bs) else inflateBlocks limit fuel out bs

/-- A raw DEFLATE stream: its output and the bytes after its end (R138). -/
def inflate (limit : Nat) (b : List Byte) : Decode (List Byte) (List Byte) :=
  (inflateBlocks limit (8 * b.length + 1) [] (bitsOf b)).map fun r => (r.1.reverse, b.drop (b.length - r.2.length / 8))

/-! Wrappers -/

/-- A number of `n` bytes; 0x3106 where the input ends. -/
def takeBytes (n : Nat) (b : List Byte) : Decode (List Byte) (List Byte) :=
  if b.length < n then .error 0x3106 else .ok (b.take n, b.drop n)

/-- A zlib stream (RFC 1950): CM and CINFO, then FCHECK, then FDICT; at the end the Adler-32. -/
def inflateZlib (limit : Nat) (b : List Byte) : Decode (List Byte) (List Byte) :=
  (takeBytes 1 b).bind fun (cmf, b) =>
    if num cmf % 16 ≠ 8 ∨ 8 ≤ num cmf / 16 then .error 0x310A
    else
      (takeBytes 1 b).bind fun (flg, b) =>
        if (256 * num cmf + num flg) % 31 ≠ 0 then .error 0x3109
        else if (num flg).testBit 5 then .error 0x310A
        else
          (inflate limit b).bind fun (out, b) => (takeBytes 4 b).bind fun (sum, b) =>
            if numBE sum ≠ adler32 out then .error 0x3109 else .ok (out, b)

/-- A string that a zero byte ends, skipped where its flag is set. -/
def skipName (there : Bool) (b : List Byte) : Decode Unit (List Byte) :=
  if !there then .ok ((), b)
  else
    match b.findIdx? fun x => x == 0 with
    | none => .error 0x3106
    | some k => .ok ((), b.drop (k + 1))

/-- The extra field of gzip, skipped where its flag is set. -/
def skipExtra (there : Bool) (b : List Byte) : Decode Unit (List Byte) :=
  if !there then .ok ((), b)
  else (takeBytes 2 b).bind fun (n, b) => (takeBytes (num n) b).map fun r => ((), r.2)

/-- The header of a gzip member after ID1 and ID2 (RFC 1952): CM, the flags, and the fields they announce; `all` is the whole member. -/
def gzipHeader (all b : List Byte) : Decode Unit (List Byte) :=
  (takeBytes 1 b).bind fun (cm, b) =>
    if num cm ≠ 8 then .error 0x310A
    else
      (takeBytes 1 b).bind fun (flg, b) =>
        have f := num flg
        if 32 ≤ f then .error 0x310A
        else
          (takeBytes 6 b).bind fun (_, b) => (skipExtra (f.testBit 2) b).bind fun (_, b) => (skipName (f.testBit 3) b).bind fun (_, b) =>
            (skipName (f.testBit 4) b).bind fun (_, b) =>
              if !(f.testBit 1) then .ok ((), b)
              else
                (takeBytes 2 b).bind fun (crc, rest) =>
                  if num crc ≠ crc32 (all.take (all.length - b.length)) % 65536 then .error 0x3109 else .ok ((), rest)

/-- A gzip member (RFC 1952); at the end CRC-32 and ISIZE. The code for a member that does not start 1F 8B is open within the class of
R15: R139 names none. -/
def inflateGzip (limit : Nat) (b : List Byte) : Decode (List Byte) (List Byte) :=
  (takeBytes 2 b).bind fun (id, r) =>
    if id ≠ [0x1F, 0x8B] then .error (0x3100 + Config.gzipMagicError % 256)
    else
      (gzipHeader b r).bind fun (_, r) => (inflate limit r).bind fun (out, r) => (takeBytes 4 r).bind fun (crc, r) =>
        if num crc ≠ crc32 out then .error 0x3109
        else (takeBytes 4 r).bind fun (size, r) => if num size ≠ out.length % 2 ^ 32 then .error 0x3109 else .ok (out, r)

/-! LZ4 -/

/-- A length of LZ4 that starts at 15: bytes are added until one is not 255. -/
def lz4More : List Byte → Nat → Decode Nat (List Byte)
  | [], _ => .error 0x3106
  | b :: r, n => if b = 0xFF then lz4More r (n + 255) else .ok (n + b.toNat, r)

/-- A length of LZ4 from its four bits. -/
def lz4Length (n : Nat) (b : List Byte) : Decode Nat (List Byte) := if n = 15 then lz4More b 15 else .ok (n, b)

/-- The sequences of an LZ4 block; the last one ends with its literals. `fuel` bounds them. -/
def lz4Sequences (limit : Nat) : Nat → List Byte → List Byte → Except Nat (List Byte)
  | 0, _, _ => .error 0x3106
  | fuel + 1, out, b =>
    (takeBytes 1 b).bind fun (token, b) =>
      (lz4Length (num token / 16) b).bind fun (lits, b) =>
        match copyInput limit lits b.length out.length with
        | some e => .error e
        | none =>
          have out := (b.take lits).reverse ++ out
          have b := b.drop lits
          if b = [] then .ok out
          else
            (takeBytes 2 b).bind fun (off, b) =>
              if num off = 0 then .error 0x3101
              else if out.length < num off then .error 0x3102
              else
                (lz4Length (num token % 16) b).bind fun (len, b) =>
                  (doMatch limit (num off) (len + 4) out).bind fun out => lz4Sequences limit fuel out b

/-- An LZ4 block (R138). -/
def lz4 (limit : Nat) (b : List Byte) : Decode (List Byte) (List Byte) :=
  (lz4Sequences limit (b.length + 1) [] b).map fun out => (out.reverse, [])

/-! What the compressor writes (R137) -/

/-- A symbol of a block: a literal byte, or a match of a length at a distance. -/
inductive Token where
  | literal (b : Byte)
  | copy (len dist : Nat)
  deriving DecidableEq, Repr

/-- The bytes that two strings have in common at their start, up to a limit. -/
def matchLen : Nat → List Byte → List Byte → Nat
  | n + 1, a :: as, b :: bs => if a = b then matchLen n as bs + 1 else 0
  | _, _, _ => 0

/-- The longest match at a position among the candidates that a level tries: 1, 2, 4 or 8 (R137); the first of equal ones. Its length is 3 to 258,
its distance 1 to 32,768, and it lies within the chunk. -/
def bestMatch (level : Nat) (b : List Byte) (pos : Nat) : Option (Nat × Nat) :=
  ((Config.matchAt level b pos).take (2 ^ level)).foldl (fun best d =>
    if d = 0 ∨ 32768 < d ∨ pos < d then best
    else
      have n := matchLen 258 (b.drop (pos - d)) (b.drop pos)
      if 3 ≤ n && best.all (fun m => decide (m.1 < n)) then some (n, d) else best) none

/-- The symbols of a chunk from a position on (R137): a match where there is one; at levels 2 and 3 a longer one at the next position goes before
it. `fuel` bounds them. -/
def tokensFrom (level : Nat) (b : List Byte) : Nat → Nat → List Token
  | 0, _ => []
  | fuel + 1, pos =>
    match b[pos]? with
    | none => []
    | some x =>
      match bestMatch level b pos with
      | none => .literal x :: tokensFrom level b fuel (pos + 1)
      | some (n, d) =>
        if 2 ≤ level && (bestMatch level b (pos + 1)).any (fun m => decide (n < m.1)) then .literal x :: tokensFrom level b fuel (pos + 1)
        else .copy n d :: tokensFrom level b fuel (pos + n)

/-- Symbols in blocks, at most 16,384 to one (R137). `fuel` bounds the blocks. -/
def blocksOf (size : Nat → Nat) : Nat → Nat → List Token → List (List Token)
  | 0, _, ts => [ts]
  | fuel + 1, k, ts =>
    have n := max 1 (min 16384 (size k))
    if ts.length ≤ n then [ts] else ts.take n :: blocksOf size fuel (k + 1) (ts.drop n)

/-- The first code of a length (RFC 1951, 3.2.2). -/
def Lengths.firstCode (l : Lengths) : Nat → Nat
  | 0 => 0
  | n + 1 => (l.firstCode n + if n = 0 then 0 else l.count n) * 2

/-- The code of a symbol, its first bit first (RFC 1951, 3.2.2). -/
def Lengths.spell (l : Lengths) (s : Nat) : List Bool :=
  have n := l.getD s 0
  ((List.range n).reverse).map (l.firstCode n + Lengths.count (l.take s) n).testBit

/-- The symbol of a length or distance: the last of `n` from `lo` on whose base is not above it. -/
def symbolFor (base : Nat → Nat) (lo n v : Nat) : Nat := lo + (((List.range n).filter fun k => decide (base (lo + k) ≤ v)).length - 1)

/-- The symbols of a block's symbol in the two codes: literal or length, and distance. -/
def Token.symbols : Token → Nat × Option Nat
  | .literal b => (b.toNat, none)
  | .copy n d => (symbolFor lengthBase 257 29 n, some (symbolFor distBase 0 30 d))

/-- A symbol in two codes, with its extra bits (RFC 1951, 3.2.5). -/
def Token.bits (lit dist : Lengths) : Token → List Bool
  | .literal b => lit.spell b.toNat
  | .copy n d =>
    have x := symbolFor lengthBase 257 29 n
    have y := symbolFor distBase 0 30 d
    lit.spell x ++ (List.range (lengthExtra x)).map (n - lengthBase x).testBit ++ dist.spell y ++
      (List.range (distExtra y)).map (d - distBase y).testBit

/-- Whether two codes have a code for every symbol of a block and for its end. -/
def codesFit (lit dist : Lengths) (ts : List Token) : Bool :=
  lit.getD 256 0 != 0 && ts.all fun t => lit.getD t.symbols.1 0 != 0 && t.symbols.2.all fun y => dist.getD y 0 != 0

/-- A block's symbols and its end in two codes. -/
def bodyBits (lit dist : Lengths) (ts : List Token) : List Bool := ts.flatMap (Token.bits lit dist) ++ lit.spell 256

/-- A symbol as `Config.dynHeader` takes it. -/
def Token.pair : Token → Nat × Nat
  | .literal b => (0, b.toNat)
  | .copy n d => (n, d)

/-- A block (R137): the shorter of its form in the fixed codes and its form in the codes made for it; of two as long, the fixed (DESIGN CHOICE, log
entry 95). -/
def blockBits (level : Nat) (final : Bool) (ts : List Token) : List Bool :=
  have fixed := [final, true, false] ++ bodyBits fixedCodes.1 fixedCodes.2 ts
  have head := Config.dynHeader level (ts.map Token.pair)
  match dynCodes head with
  | .ok (c, []) =>
    have dynamic := [final, false, true] ++ head ++ bodyBits c.1 c.2 ts
    if codesFit c.1 c.2 ts && decide (dynamic.length < fixed.length) then dynamic else fixed
  | _ => fixed

/-- The blocks of a stream; only the last has BFINAL = 1. -/
def streamBits (level : Nat) : List (List Token) → List Bool
  | [] => []
  | ts :: r => blockBits level r.isEmpty ts ++ streamBits level r

/-- The raw DEFLATE stream of the compressor (R137). Which candidates its hash gives, how it cuts blocks and which codes it makes for one is open
(DESIGN CHOICE, log entry 95). -/
def deflate (level : Nat) (b : List Byte) : List Byte :=
  have ts := tokensFrom level b b.length 0
  have bits := streamBits level (blocksOf (Config.blockSize level b) ts.length 0 ts)
  bytesOf ((bits.length + 7) / 8) (bits ++ List.replicate 7 false)

/-! Both ways -/

/-- The decompressor (R138, R139): the output, or the first error in stream order. A container asks for its whole original length (`whole`): an
output that is short is reported before bytes after the end of the stream. -/
def decompress (format limit : Nat) (whole : Bool) (b : List Byte) : Except Nat (List Byte) :=
  (if format = 0 then inflate limit b else if format = 1 then inflateZlib limit b else if format = 2 then inflateGzip limit b else lz4 limit b).bind
    fun (out, rest) =>
      if whole ∧ out.length < limit then .error 0x3107
      else if rest ≠ [] then .error 0x3108
      else .ok out

/-- The compressor (R137, R143): the raw DEFLATE stream of a level, alone or in the wrapper of a format. -/
def compress (level format : Nat) (b : List Byte) : List Byte :=
  have raw := deflate level b
  if format = 1 then [0x78, 0x9C] ++ raw ++ be 4 (adler32 b)
  else if format = 2 then [0x1F, 0x8B, 8, 0, 0, 0, 0, 0, 0, 0xFF] ++ raw ++ le 4 (crc32 b) ++ le 4 b.length
  else raw

end Sys2Proof.Machine
end

