-- ==== Sys2Proof/Machine/Layout.lean ====
section
/-!
DEFINITION. Machine/Layout.lean: the bytes of the structures that the part keeps in DDR or writes to the host as typed data elsewhere in
the model: queue-pair contexts, region entries, index and journal entries and slice images (chapters 02, 04 and 14).
-/
namespace Sys2Proof.Machine

/-- A byte string cut or extended with zeros to a length. -/
def fit (n : Nat) (b : List Byte) : List Byte := (b ++ zeros n).take n

/-- A structure closed by the CRC32C of all its bytes; a damaged one carries another value (R52, R56). -/
def sealed (b : List Byte) (good : Bool := true) : List Byte :=
  b ++ le 4 (if good then crc32c b else crc32c b ^^^ 0xFFFFFFFF)

/-- A bit of a packed word. -/
def bit (b : Bool) (k : Nat) : Nat := if b then 2 ^ k else 0

/-! Queue-pair contexts (R52) -/

/-- Lines 0 and 0x020: identity, attributes and path. -/
def Qp.identity (n : Nat) (q : Qp) : List Byte :=
  le 4 (n % 2 ^ 24 + 2 ^ 24 * q.state.code) ++ le 4 (q.remoteQpn % 2 ^ 24 + 2 ^ 24 * q.mtu) ++ le 2 q.tenant ++ le 2 q.slice ++
    le 2 q.controller ++ le 2 q.queue ++ le 4 q.generation ++
    le 4 (bit q.pinned 0 + bit q.relaxed 1 + bit q.trigEnable 2 + 2 ^ 16 * q.marker) ++ le 8 q.lastUse ++
    fit 7 q.path ++ [byteOf q.lport] ++ fit 24 (q.path.drop 8)

/-- The RDMA READs of the remote side that a queue pair has taken and not answered (R49). -/
def Qp.inboundReads (q : Qp) : Nat := q.finals.countP fun m => match m with
  | .read _ => true
  | .imm _ | .send _ _ => false

/-- Bytes 0x040 to 0x07F: what the requester keeps. The indexes of the send queue are those of the next request and of the oldest one in it. -/
def Qp.requester (q : Qp) : List Byte :=
  le 4 q.sendPsn ++ le 4 q.unackedPsn ++ le 4 q.sendMsn ++
    [byteOf (q.retryMax + 16 * q.rnrMax), byteOf (q.retries + 16 * q.rnrTries), byteOf q.timeoutExp, byteOf (q.rnrDelay + 128 * q.rnrTimer)] ++
    le 8 q.deadline ++ le 8 q.sqBase ++ le 2 q.sendNext ++ le 2 ((q.sendQueue.head?.map WorkReq.index).getD q.sendNext) ++ le 4 q.sqSize ++ le 8 q.rate ++ le 8 q.targetRate ++ le 8 q.lastCnpRx

/-- The part-received message of a context (R52): region index, offset, R_Key, bytes remaining. -/
def Inbound.bytes : Inbound → List Byte
  | .none => zeros 24
  | .write key off left => le 4 (key / 256) ++ le 8 off ++ le 4 key ++ le 8 left
  | .send b => zeros 16 ++ le 8 b.length

/-- Bytes 0x080 to 0x0BF: what the responder keeps. The indexes of the receive queue are those of the next buffer and of the one after the last
that is posted; the read-response queue holds the READs of the remote side that wait to be answered. -/
def Qp.responder (q : Qp) : List Byte :=
  le 4 q.expPsn ++ le 4 q.recvMsn ++ le 4 q.unackedRx ++ le 2 q.recvNext ++ le 2 (q.recvNext + q.recvBufs) ++ le 8 q.recvBase ++
    q.inbound.bytes ++ le 4 q.placements.length ++ le 4 (if q.finals.isEmpty then 0 else 1) ++ le 8 q.inboundReads

/-- Bytes 0x0C0 to 0x0FF: the NVMe-oF queue state. -/
def NvmeQueue.bytes (v : NvmeQueue) (outstanding : Nat) : List Byte :=
  fit 64 (le 2 v.size ++ le 2 v.head ++ le 2 outstanding ++ [byteOf (bit v.noFlow 0), 0] ++ le 4 v.capsule)

/-- Bytes 0x100 to 0x13F: armed work requests and pending triggers; a Frozen context of an image keeps its saved state in the reserved
bytes (R405). -/
def Qp.triggerBytes (q : Qp) : List Byte :=
  fit 32 ((q.armed.take 4).flatMap fun w => le 8 (w.trigger % 65536 + 2 ^ 16 * (w.index % 65536) + 2 ^ 32)) ++
    fit 16 ((q.triggers.take 4).flatMap fun v => le 4 (v % 65536 + 2 ^ 16)) ++
    le 4 ((q.saved.map QpState.code).getD 0) ++ zeros 12

/-- The counters of a context, 0x140 to 0x17B. -/
def Qp.counters (q : Qp) : List Byte :=
  fit 60 (le 8 q.pktsIn ++ le 8 q.pktsOut ++ le 8 q.bytesIn ++ le 8 q.bytesOut ++ le 4 q.naksOut ++ le 4 q.naksIn ++ le 4 q.retrans ++
    le 4 q.cnps)

/-- The 384 bytes of the context of a queue pair with a number of NVMe commands outstanding, closed by the CRC32C of bytes 0x000 to
0x17B (R52). -/
def Qp.bytes (n outstanding : Nat) (q : Qp) : List Byte :=
  sealed (q.identity n ++ q.requester ++ q.responder ++ q.nvme.bytes outstanding ++ q.triggerBytes ++ q.counters) q.crcOk

/-- Bytes that a structure takes at a stride from a base on: the byte at an address, where a row stands there. -/
def areaByte (base stride : Nat) (row : Nat → Option (List Byte)) (a : Nat) : Option Byte :=
  if base = 0 ∨ a < base then none else (row ((a - base) / stride)).bind fun b => b[(a - base) % stride]?

/-! Regions (R60) -/

/-- The 32 bytes of a region entry. -/
def Region.bytes (r : Region) : List Byte :=
  le 8 r.base ++ le 8 r.length ++
    [byteOf r.variant, byteOf (bit r.valid 0 + bit r.read 1 + bit r.write 2 + bit r.relaxed 3 + bit r.invSend 4)] ++ le 2 r.tenant ++
    le 2 r.slice ++ zeros 10

/-! Dedup (R117, R123) -/

/-- The 64 bytes of a DDR index entry, closed by the CRC32C of bytes 0x00 to 0x3B (R117). -/
def IndexEntry.bytes (e : IndexEntry) : List Byte :=
  have flags := match e.loc with
    | .cache .. => 3
    | .remote .. => 5
    | .unmapped | .zero | .flash .. | .lost .. | .image _ => 1
  sealed (fit 32 e.fp ++ le 2 e.domain ++ [byteOf e.pins, byteOf flags] ++ zeros 4 ++ e.loc.bytes ++ zeros 4)

/-- The bytes of an entry whose form the spec does not give, or that is sealed, by its mark: free values. -/
def hiddenBytes (mark n : Nat) : List Byte := (List.range n).map (Config.entryByte mark)

/-- The 64 bytes of a journal entry in DDR (R123). -/
def JournalEntry.bytes (e : JournalEntry) : List Byte := hiddenBytes (num (le 2 e.domain ++ e.fp ++ e.loc.bytes)) 64

/-! The map (R251, R252, R254, R255, R263, R266) -/

/-- The units of a map delta (R252): each entry, and its fingerprint directly after it. -/
def deltaBytes (d : List Extent) : List Byte := d.flatMap fun e => e.bytes ++ ((e.fp.map (fit 32)).getD [])

/-- The 64 bytes of a namespace-table entry, with the number of snapshots held (R263). -/
def Namespace.bytes (nsid snaps : Nat) (n : Namespace) : List Byte :=
  sealed (le 4 nsid ++ le 2 n.tenant ++ [byteOf n.pool, byteOf (bit true 0 + bit n.programs 1 + bit n.source.isSome 2 + bit n.moving.isSome 3)] ++
    le 8 n.size ++ le 8 n.root ++ le 2 n.group ++ [byteOf (n.moving.getD 0), 0] ++ le 4 snaps ++ le 4 ((n.source.map Prod.fst).getD 0) ++
    le 2 ((n.source.map Prod.snd).getD 0) ++ zeros 22)

/-- The 64 bytes of a snapshot-table entry (R266). -/
def Snapshot.bytes (nsid id : Nat) (x : Snapshot) : List Byte :=
  sealed (le 4 nsid ++ le 2 id ++ le 2 (bit x.group.isSome 0 + bit (decide (0 < x.clones)) 1 + bit x.deleting 2) ++ le 8 x.time ++ le 8 x.root ++
    le 4 x.clones ++ [byteOf (x.group.getD 0)] ++ zeros 31)

/-- The 4,096 bytes of a map page (R254). -/
def MapPage.bytes (n : Nat) (p : MapPage) : List Byte :=
  have leaf := decide (p.level = 0)
  have entries := if leaf then p.exts.flatMap Extent.bytes else p.kids.flatMap fun k => le 8 k.1 ++ le 8 (k.2 % 2 ^ 40)
  sealed (le 2 0xA7C3 ++ [1, if leaf then 2 else 1, byteOf p.level, 0] ++ le 2 (if leaf then p.exts.length else p.kids.length) ++ le 8 (n % 2 ^ 40) ++
    le 8 p.lo ++ le 8 p.hi ++ le 8 p.saved ++ zeros 24 ++ fit 4028 entries)

/-- The 16 bytes of a page-directory entry (R255). The image is on flash once its signature is complete. -/
def MapPage.entry (p : MapPage) : List Byte :=
  have place := match p.place with
    | some (.flash _ q g m o _) => q % 2 ^ 24 + g % 2 ^ 12 * 2 ^ 24 + m % 2 ^ 5 * 2 ^ 36 + o % 2 ^ 12 * 2 ^ 41
    | _ => 0
  le 8 (place + bit true 53 + bit p.place.isSome 54 + bit p.dirty 55) ++ le 4 p.refs ++ le 4 (p.slot.getD 0xFFFFFFFF)

/-- A namespace-table entry with the fields of its bytes but for the root, which is a page of this head's own replica of the tree (R263, R270). -/
def Namespace.taken (n : Namespace) (b : List Byte) : Namespace :=
  have flags := num (slice b 7 1)
  { n with
    tenant := num (slice b 4 2)
    pool := num (slice b 6 1) % 64
    size := num (slice b 8 8)
    group := num (slice b 0x18 2) % 1024
    programs := flags.testBit 1
    moving := if flags.testBit 3 then some (num (slice b 0x1A 1) % 64) else none
    source := if flags.testBit 2 then some (num (slice b 0x20 4), num (slice b 0x24 2)) else none }

/-- A snapshot-table entry with the fields of its bytes but for the root (R266, R270). -/
def Snapshot.taken (x : Snapshot) (b : List Byte) : Snapshot :=
  have flags := num (slice b 6 2)
  { x with
    time := num (slice b 8 8)
    group := if flags.testBit 0 then some (num (slice b 0x1C 1)) else none
    clones := num (slice b 0x18 4)
    deleting := flags.testBit 2 }

/-- A namespace-table entry that is not valid any more (R263, R270). -/
def invalidRow (b : List Byte) : List Byte := sealed (b.take 7 ++ [byteOf (num (slice b 7 1) / 2 * 2)] ++ slice b 8 52)

/-- Whether a table entry passes its CRC32C (R263, R266). -/
def rowGood (b : List Byte) : Bool := decide (b.length = 64) && num (slice b 60 4) == crc32c (b.take 60)

/-! The mirror (R163, R164, R270) -/

/-- A byte string with zeros up to a multiple of 64. -/
def pad64 (b : List Byte) : List Byte := fit ((b.length + 63) / 64 * 64) b

/-- The operation of a root change (R270). A reservation change has another form, which the spec leaves to its owning chapter. -/
def MetaOp.code : MetaOp → Nat
  | .snapCreate .. => 1
  | .snapDelete .. => 2
  | .clone .. => 3
  | .nsCreate .. => 4
  | .nsDelete _ => 5
  | .nsChange .. | .format .. => 6
  | .reservation .. => 0

/-- The 128 bytes of a root change (R270). -/
def RootChange.bytes (x : RootChange) : List Byte :=
  match x.op with
  | .snapCreate _ _ time group => [1, 0, 0, 0, byteOf (group.getD 0), 0, 0, 0] ++ le 8 time ++ zeros 48 ++ fit 64 x.entry
  | .snapDelete .. | .clone .. | .nsCreate .. | .nsDelete _ | .nsChange .. | .format .. => byteOf x.op.code :: zeros 63 ++ fit 64 x.entry
  | .reservation nsid _ => hiddenBytes nsid 128

/-- What follows the header of a mirror record (R163). -/
def RecBody.bytes : RecBody → List Byte
  | .write d cs => pad64 (deltaBytes d) ++ cs.flatMap fun c => pad64 c.2
  | .metadata xs => xs.flatMap RootChange.bytes
  | .release => []

/-- The type of a mirror record, its container count and its map delta entry count (R163). -/
def RecBody.counts : RecBody → Nat × Nat × Nat
  | .write d cs => (1, cs.length, deltaUnits d)
  | .metadata _ => (2, 0, 0)
  | .release => (3, 0, 0)

/-- A mirror record as it is sent and as it stands in a segment (R163): the 64-byte header with both CRCs, and the body. -/
def MirRec.bytes (r : MirRec) : List Byte :=
  have body := r.body.bytes
  let (kind, containers, units) := r.body.counts
  sealed ([byteOf kind, byteOf (bit r.retransmit 0 + bit r.opened 1), 1, byteOf (bit r.head 0)] ++ le 4 r.epoch ++ le 8 r.seq ++ le 2 r.seg ++
    le 2 r.gen ++ le 4 r.off ++ le 4 r.len ++ le 4 (r.tag % 2 ^ 17) ++ le 8 r.time ++ le 4 r.nsid ++ [byteOf r.part, byteOf r.parts] ++
    le 2 containers ++ le 2 units ++ zeros 6 ++ le 4 (if body.isEmpty then 0 else crc32c body)) ++ body

/-- A mirror acknowledgement as it is sent (R164). -/
def MirAck.bytes (a : MirAck) : List Byte :=
  sealed ([byteOf a.result, byteOf (bit a.head 0)] ++ le 2 a.seg ++ le 4 a.epoch ++ le 8 a.seq ++ le 8 a.applied ++ le 2 a.gen ++ zeros 2)

/-- The byte of a segment at an offset: of the record that stands there. -/
def segByte (recs : List MirRec) (off : Nat) : Option Byte :=
  (recs.find? fun r => decide (r.off ≤ off ∧ off < r.off + r.len)).bind fun r => r.bytes[off - r.off]?

/-- The code of a segment's state in the segment tables (R160, R161). -/
def SegState.code : SegState → Nat
  | .free => 0 | .opened => 1 | .full => 2 | .destaging => 3 | .released => 4

/-- The oldest sequence in a segment, 0 where it holds no record (R160). -/
def oldestSeq (recs : List MirRec) : Nat := (recs.map MirRec.seq).foldl (fun a n => if a = 0 then n else min a n) 0

/-- An entry of a segment table (R160): state, generation, fill, oldest sequence. No rule gives its form: its bytes are free values. -/
def segEntry (state gen fill oldest : Nat) : List Byte := hiddenBytes (((oldest * 2 ^ 21 + fill) * 2 ^ 16 + gen) * 8 + state) 64

/-! Slice images (R405) -/

/-- A ring record. -/
def Ring.record (k : Nat) (r : Ring) : List Byte :=
  fit 64 ([byteOf k, byteOf (r.sqLog2 + 16 * r.cqLog2), byteOf r.prio, 0] ++ le 2 r.vector ++ le 2 r.count ++ le 4 r.timeUs ++ le 8 r.sqBase ++
    le 8 r.cqBase ++ le 2 r.sqHead ++ le 2 r.sqTail ++ le 2 r.cqTail ++ [byteOf r.phase, 0])

/-- The code of an address space (R408). -/
def DmaSpace.code : DmaSpace → Nat
  | .host => 0 | .ddr => 1 | .region => 2 | .reserved => 3

/-- The 64 bytes of a transfer's descriptor (R408). -/
def DmaDesc.bytes (d : DmaDesc) : List Byte :=
  fit 64 ([byteOf d.channel, byteOf (d.srcSpace.code + 4 * d.dstSpace.code + 16 * d.swap), 0, 0] ++ le 4 d.lineLen ++ le 8 d.src ++ le 8 d.dst ++
    le 4 d.srcKey ++ le 4 d.dstKey ++ le 4 d.lines ++ zeros 4 ++ le 8 d.srcStride ++ le 8 d.dstStride)

/-- A channel record: the descriptor, the command ID and ring, the next line, the offset in that line, the bytes done. -/
def DmaXfer.record (x : DmaXfer) : List Byte :=
  fit 128 (x.desc.bytes ++ le 4 x.cmd.cid ++ le 4 x.cmd.ring ++ le 8 (x.done / x.desc.lineLen) ++ le 8 (x.done % x.desc.lineLen) ++ le 8 x.done)

/-- The bytes of a slice image that an image of the header's fields takes. -/
def SliceImage.size (im : SliceImage) : Nat :=
  64 + 64 * im.rings.length + 128 * im.transfers.length + 384 * im.qps.length + 48 * im.regions.length + 4

/-- The header of an image. -/
def SliceImage.header (im : SliceImage) : List Byte :=
  sealed (le 2 0x5C1E ++ [byteOf im.version, byteOf im.minor] ++ le 2 im.tenant ++ zeros 2 ++ le 4 im.caps ++
    [byteOf im.rings.length, byteOf im.transfers.length, 0, 0] ++ le 4 im.qps.length ++ le 4 im.regions.length ++ le 8 im.time ++ le 8 im.device ++
    le 8 im.size ++ zeros 12)

/-- The bytes of a slice image. -/
def SliceImage.bytes (im : SliceImage) : List Byte :=
  sealed (im.header ++ (im.rings.flatMap fun e => e.2.record e.1) ++ im.transfers.flatMap DmaXfer.record ++
    (im.qps.flatMap fun e => e.2.bytes e.1 0) ++ im.regions.flatMap fun e => le 4 e.1 ++ zeros 12 ++ e.2.bytes)

/-! Envelopes (R282, R284, R285) and the landing index (R295) -/

/-- The units of an entry (R284): 32 bytes, the container padded to a multiple of 32, the fingerprint. -/
def RepUnit.wire (u : RepUnit) : List Byte :=
  le 8 (u.addr + bit u.last 63) ++ le 4 u.len ++ le 2 u.off ++ le 2 (u.member + 2 ^ 10 * u.form + bit u.fp.isSome 14) ++
    (if 2 ≤ u.form then u.loc.bytes else zeros 16) ++ fit ((u.container.length + 31) / 32 * 32) u.container ++ ((u.fp.map (fit 32)).getD [])

/-- The body of an acknowledgement with its want units (R285). -/
def RepAck.wire (a : RepAck) : List Byte :=
  [byteOf a.result, 0] ++ le 2 a.set ++ le 4 a.session ++ le 8 a.seq ++ le 8 a.consumed ++ le 8 a.anchor ++ le 4 a.wants.length ++ zeros 4 ++
    le 8 a.refused ++ zeros 16 ++ a.wants.flatMap fun w => le 8 w.1 ++ le 4 w.2 ++ zeros 4

/-- The body of an envelope in the clear. -/
def Envelope.body (e : Envelope) : List Byte := e.units.flatMap RepUnit.wire ++ (e.ack.map RepAck.wire).getD []

/-- The 64-byte header of an envelope (R282). The body units are counted in 32 bytes (DESIGN CHOICE, log entry 101). -/
def Envelope.header (e : Envelope) : List Byte :=
  sealed (le 2 0x6E71 ++ [1, byteOf e.kind, byteOf (bit e.retransmit 0 + bit e.last 1 + bit e.revert 2), byteOf (bit e.head 0)] ++ le 2 e.set ++
    le 4 e.session ++ le 8 e.seq ++ le 2 e.slot ++ [byteOf e.gen, 0] ++ le 8 e.time ++ le 4 e.body.length ++ le 4 (e.body.length / 32) ++
    le 8 e.watermark ++ le 8 e.base ++ zeros 4) e.crcOk

/-- An envelope as it crosses the network (R282, R283): the header, which is the additional data and whose bytes 0x08 to 0x13 are the IV,
the body under AES-256-GCM, and the tag. -/
def Envelope.wire (e : Envelope) (key : List Byte) : List Byte :=
  have h := e.header
  have iv := slice h 8 12
  have c := gcmText key iv e.body
  h ++ c ++ gcmTag key iv h c

/-- The 64 bytes of a landing entry. -/
def Landing.bytes (g : Landing) : List Byte :=
  sealed (le 2 g.array ++ le 2 g.domain ++ zeros 4 ++ g.loc.bytes ++ fit 32 g.fp ++ zeros 4)

/-! The boot flash (R452, R468) -/

/-- A boot record entry (R452): 64 bytes, closed by the CRC32C of the first 60. -/
def BootRecord.bytes (r : BootRecord) : List Byte :=
  sealed (le 2 0xB0C7 ++ [1, byteOf (bit r.slot 0 + bit r.pending 1 + bit r.trial 2 + bit r.confirming 3)] ++ le 4 r.sequence ++
    le 2 r.format0 ++ le 2 r.format1 ++ [byteOf (bit r.bank 0 + bit r.otherValid 1), byteOf r.version] ++ zeros 2 ++
    le 8 r.ceiling ++ le 8 r.time ++ le 26 (r.shifts.foldr (fun v n => v % 32 + 32 * n) 0) ++ zeros 2)

/-- A page of the event area's running part (R468): whole records, then the page's sequence and the CRC32C of the page. -/
def eventPage (seq : Nat) (records : List (List Byte)) : List Byte := sealed (fit 4088 records.flatten ++ le 4 seq)

/-- A slot of the front matter (R468): one record, with its CRC32C in the slot's last 4 bytes. -/
def frontSlot (record : List Byte) : List Byte := sealed (fit 508 record)

end Sys2Proof.Machine
end

