-- ==== Sys2Proof/Machine/Regs.lean ====
section
/-!
DEFINITION. Machine/Regs.lean: the register tables of the spec, one constant per field of BAR0.
A field is named as the spec names it, REGISTER.FIELD; its home is a key made of the byte address of
its register (R9), its lowest bit, and the element of an array. A reset written "strap", "fuse", "per cause" or "per R18" stands
here as 0; the step that supplies it is STRAP_SAMPLE, or the fuses of the state (R10).
The constants are transcribed from the register tables of chapters 02 to 18.
-/
namespace Sys2Proof.Machine

/-- The access codes of R11. -/
inductive Access where
  | ro | rw | w1c | w1s | rc | wo | rwl
  deriving DecidableEq, Repr

/-- What R500 lets a write leave in one field: `any` value of its width; a `range`; a `multiple` of a step up to a
maximum, from one step on; any multiple of a step (`aligned`); an `odd` number of a range; a two's complement number of a width within a bound
(`signedAbs`); or any value, one above the bound reading as the bound (`clamp`). -/
inductive Legal where
  | any
  | range (lo hi : Nat)
  | multiple (step hi : Nat)
  | aligned (step : Nat)
  | odd (lo hi : Nat)
  | signedAbs (width bound : Nat)
  | clamp (hi : Nat)
  deriving DecidableEq, Repr

/-- One field of a register table (R10): the byte address of element 0 of its register, its lowest bit and width, its
access code and reset value, the values R500 lets a write leave in it, whether its register is 64 bits wide, and the
extent and stride of the (at most two) indices of an array of registers. -/
structure RField where
  base  : Nat
  lsb   : Nat
  width : Nat
  acc   : Access
  reset : Nat
  legal : Legal := .any
  wide  : Bool := false
  n1    : Nat := 1
  st1   : Nat := 0
  n2    : Nat := 1
  st2   : Nat := 0
  deriving DecidableEq, Repr

/-- The byte address in BAR0 of the register that holds element (i, j) of a field (R9). -/
def RField.addr (f : RField) (i j : Nat) : Nat := f.base + f.st1 * i + f.st2 * j

/-- The number of a field: its byte address and its lowest bit. No two fields share one. -/
def RField.id (f : RField) : Nat := 64 * f.base + f.lsb % 64

/-- The key under which the state holds the value of element (i, j) of a field. No array is longer than 4,096. -/
def RField.key (f : RField) (i j : Nat) : Nat := 2 ^ 24 * f.id + 2 ^ 12 * (i % 2 ^ 12) + j % 2 ^ 12

/-- The index of the 1 MiB block that a field stands in (R478). -/
def RField.block (f : RField) : Nat := f.base / 0x100000

/-- The index of the block that a key of the register file stands in. -/
def keyBlock (k : Nat) : Nat := k / 2 ^ 50

namespace Reg

/-- ETH_PORT_MODE.MODE (R69, 02_front_ports_and_transport.md); reset: strap. -/
def ETH_PORT_MODE.MODE : RField := { base := 0x800000, lsb := 0, width := 2, acc := .rwl, reset := 0, n1 := 4, st1 := 0x40000 }
/-- ETH_PORT_MODE.AN_EN (R69, 02_front_ports_and_transport.md). -/
def ETH_PORT_MODE.AN_EN : RField := { base := 0x800000, lsb := 8, width := 1, acc := .rwl, reset := 1, n1 := 4, st1 := 0x40000 }
/-- ETH_PORT_MODE.MEDIUM (R69, 02_front_ports_and_transport.md). -/
def ETH_PORT_MODE.MEDIUM : RField := { base := 0x800000, lsb := 9, width := 1, acc := .rwl, reset := 0, n1 := 4, st1 := 0x40000 }
/-- ETH_PORT_MODE.SUBPORT_EN (R69, 02_front_ports_and_transport.md). -/
def ETH_PORT_MODE.SUBPORT_EN : RField := { base := 0x800000, lsb := 12, width := 4, acc := .rwl, reset := 15, n1 := 4, st1 := 0x40000 }
/-- ETH_LANE_MAP.LANE_SEL (R69, 02_front_ports_and_transport.md). -/
def ETH_LANE_MAP.LANE_SEL : RField := { base := 0x800004, lsb := 0, width := 8, acc := .rwl, reset := 228, n1 := 4, st1 := 0x40000 }
/-- ETH_LANE_MAP.TX_INVERT (R69, 02_front_ports_and_transport.md). -/
def ETH_LANE_MAP.TX_INVERT : RField := { base := 0x800004, lsb := 8, width := 4, acc := .rwl, reset := 0, n1 := 4, st1 := 0x40000 }
/-- ETH_LANE_MAP.RX_INVERT (R69, 02_front_ports_and_transport.md). -/
def ETH_LANE_MAP.RX_INVERT : RField := { base := 0x800004, lsb := 12, width := 4, acc := .rwl, reset := 0, n1 := 4, st1 := 0x40000 }
/-- ETH_LINK_STATUS.LINK_UP (R69, 02_front_ports_and_transport.md). -/
def ETH_LINK_STATUS.LINK_UP : RField := { base := 0x800010, lsb := 0, width := 4, acc := .ro, reset := 0, n1 := 4, st1 := 0x40000 }
/-- ETH_LINK_STATUS.LINK_CHANGE (R69, 02_front_ports_and_transport.md). -/
def ETH_LINK_STATUS.LINK_CHANGE : RField := { base := 0x800010, lsb := 8, width := 4, acc := .w1c, reset := 0, n1 := 4, st1 := 0x40000 }
/-- ETH_LINK_STATUS.MAP_ERR (R69, 02_front_ports_and_transport.md). -/
def ETH_LINK_STATUS.MAP_ERR : RField := { base := 0x800010, lsb := 12, width := 1, acc := .ro, reset := 0, n1 := 4, st1 := 0x40000 }
/-- ETH_FEC_UNCORR.COUNT (R69, 02_front_ports_and_transport.md). -/
def ETH_FEC_UNCORR.COUNT : RField := { base := 0x800018, lsb := 0, width := 32, acc := .rc, reset := 0, n1 := 4, st1 := 0x40000 }
/-- ETH_PFC_CTRL.PAUSE_HONOUR (R69, 02_front_ports_and_transport.md). -/
def ETH_PFC_CTRL.PAUSE_HONOUR : RField := { base := 0x800020, lsb := 0, width := 8, acc := .rwl, reset := 0, n1 := 4, st1 := 0x40000 }
/-- ETH_PFC_CTRL.ROCE_PRIO (R69, 02_front_ports_and_transport.md). -/
def ETH_PFC_CTRL.ROCE_PRIO : RField := { base := 0x800020, lsb := 8, width := 3, acc := .rwl, reset := 3, n1 := 4, st1 := 0x40000 }
/-- ETH_PFC_CTRL.GEN_EN (R69, 02_front_ports_and_transport.md). -/
def ETH_PFC_CTRL.GEN_EN : RField := { base := 0x800020, lsb := 11, width := 1, acc := .rwl, reset := 0, n1 := 4, st1 := 0x40000 }
/-- ETH_PFC_CTRL.QUANTA (R69, 02_front_ports_and_transport.md). -/
def ETH_PFC_CTRL.QUANTA : RField := { base := 0x800020, lsb := 16, width := 16, acc := .rwl, reset := 0xffff, n1 := 4, st1 := 0x40000 }
/-- ETH_HOST_LIMIT.FRAMES_PER_S (R69, 02_front_ports_and_transport.md). -/
def ETH_HOST_LIMIT.FRAMES_PER_S : RField := { base := 0x800030, lsb := 0, width := 24, acc := .rw, reset := 0x1e8480, n1 := 4, st1 := 0x40000 }
/-- ETH_MACSEC_CTRL.EN (R69, 02_front_ports_and_transport.md). -/
def ETH_MACSEC_CTRL.EN : RField := { base := 0x800100, lsb := 0, width := 1, acc := .rwl, reset := 0, n1 := 4, st1 := 0x40000 }
/-- ETH_MACSEC_CTRL.VALIDATE (R69, 02_front_ports_and_transport.md). -/
def ETH_MACSEC_CTRL.VALIDATE : RField := { base := 0x800100, lsb := 1, width := 1, acc := .rwl, reset := 1, n1 := 4, st1 := 0x40000 }
/-- ETH_MACSEC_CTRL.SEND_SCI (R69, 02_front_ports_and_transport.md). -/
def ETH_MACSEC_CTRL.SEND_SCI : RField := { base := 0x800100, lsb := 2, width := 1, acc := .rwl, reset := 1, n1 := 4, st1 := 0x40000 }
/-- ETH_MACSEC_REPLAY.WINDOW (R69, 02_front_ports_and_transport.md). -/
def ETH_MACSEC_REPLAY.WINDOW : RField := { base := 0x800104, lsb := 0, width := 30, acc := .rwl, reset := 0, n1 := 4, st1 := 0x40000 }
/-- ETH_PTP_CTRL.STAMP_EN (R69, 02_front_ports_and_transport.md). -/
def ETH_PTP_CTRL.STAMP_EN : RField := { base := 0x800200, lsb := 0, width := 1, acc := .rw, reset := 1, n1 := 4, st1 := 0x40000 }
/-- ETH_PTP_CTRL.ONE_STEP (R69, 02_front_ports_and_transport.md). -/
def ETH_PTP_CTRL.ONE_STEP : RField := { base := 0x800200, lsb := 1, width := 1, acc := .rw, reset := 0, n1 := 4, st1 := 0x40000 }
/-- ETH_PTP_CTRL.L2 (R69, 02_front_ports_and_transport.md). -/
def ETH_PTP_CTRL.L2 : RField := { base := 0x800200, lsb := 2, width := 1, acc := .rw, reset := 1, n1 := 4, st1 := 0x40000 }
/-- ETH_PTP_CTRL.UDP4 (R69, 02_front_ports_and_transport.md). -/
def ETH_PTP_CTRL.UDP4 : RField := { base := 0x800200, lsb := 3, width := 1, acc := .rw, reset := 1, n1 := 4, st1 := 0x40000 }
/-- ETH_PTP_CTRL.UDP6 (R69, 02_front_ports_and_transport.md). -/
def ETH_PTP_CTRL.UDP6 : RField := { base := 0x800200, lsb := 4, width := 1, acc := .rw, reset := 1, n1 := 4, st1 := 0x40000 }
/-- ETH_PTP_OFFSET.OFFSET (R69, 02_front_ports_and_transport.md). -/
def ETH_PTP_OFFSET.OFFSET : RField := { base := 0x800208, lsb := 0, width := 64, acc := .rw, reset := 0, wide := true, n1 := 4, st1 := 0x40000 }
/-- ETH_PTP_TX_STAMP_LO.STAMP (R69, 02_front_ports_and_transport.md). -/
def ETH_PTP_TX_STAMP_LO.STAMP : RField := { base := 0x800210, lsb := 0, width := 64, acc := .ro, reset := 0, wide := true, n1 := 4, st1 := 0x40000 }
/-- ETH_PTP_TX_STAMP_HI.SEQUENCE_ID (R69, 02_front_ports_and_transport.md). -/
def ETH_PTP_TX_STAMP_HI.SEQUENCE_ID : RField := { base := 0x800218, lsb := 0, width := 16, acc := .rc, reset := 0, n1 := 4, st1 := 0x40000 }
/-- ETH_PTP_TX_STAMP_HI.MSG_TYPE (R69, 02_front_ports_and_transport.md). -/
def ETH_PTP_TX_STAMP_HI.MSG_TYPE : RField := { base := 0x800218, lsb := 16, width := 4, acc := .rc, reset := 0, n1 := 4, st1 := 0x40000 }
/-- ETH_PTP_TX_STAMP_HI.DOMAIN (R69, 02_front_ports_and_transport.md). -/
def ETH_PTP_TX_STAMP_HI.DOMAIN : RField := { base := 0x800218, lsb := 20, width := 8, acc := .rc, reset := 0, n1 := 4, st1 := 0x40000 }
/-- ETH_PTP_TX_STAMP_HI.SUBPORT (R69, 02_front_ports_and_transport.md). -/
def ETH_PTP_TX_STAMP_HI.SUBPORT : RField := { base := 0x800218, lsb := 28, width := 2, acc := .rc, reset := 0, n1 := 4, st1 := 0x40000 }
/-- ETH_PTP_TX_STAMP_HI.OVERFLOW (R69, 02_front_ports_and_transport.md). -/
def ETH_PTP_TX_STAMP_HI.OVERFLOW : RField := { base := 0x800218, lsb := 30, width := 1, acc := .rc, reset := 0, n1 := 4, st1 := 0x40000 }
/-- ETH_PTP_TX_STAMP_HI.VALID (R69, 02_front_ports_and_transport.md). -/
def ETH_PTP_TX_STAMP_HI.VALID : RField := { base := 0x800218, lsb := 31, width := 1, acc := .rc, reset := 0, n1 := 4, st1 := 0x40000 }
/-- ETH_SETUP_LOCK.LOCK (R69, 02_front_ports_and_transport.md). -/
def ETH_SETUP_LOCK.LOCK : RField := { base := 0x83fffc, lsb := 0, width := 1, acc := .wo, reset := 0 }
/-- TRN_CTRL.STATE (R70, 02_front_ports_and_transport.md). -/
def TRN_CTRL.STATE : RField := { base := 0x900000, lsb := 0, width := 2, acc := .rw, reset := 0 }
/-- TRN_CTX_BASE.BASE (R70, 02_front_ports_and_transport.md). -/
def TRN_CTX_BASE.BASE : RField := { base := 0x900008, lsb := 0, width := 64, acc := .rwl, reset := 0, wide := true }
/-- TRN_CTX_COUNT.COUNT (R70, 02_front_ports_and_transport.md). -/
def TRN_CTX_COUNT.COUNT : RField := { base := 0x900010, lsb := 0, width := 23, acc := .rwl, reset := 0x20000, legal := .multiple 131072 4194304 }
/-- TRN_REGION_BASE.BASE (R70, 02_front_ports_and_transport.md). -/
def TRN_REGION_BASE.BASE : RField := { base := 0x900018, lsb := 0, width := 64, acc := .rwl, reset := 0, wide := true }
/-- TRN_REGION_COUNT.COUNT (R70, 02_front_ports_and_transport.md). -/
def TRN_REGION_COUNT.COUNT : RField := { base := 0x900020, lsb := 0, width := 21, acc := .rwl, reset := 0, legal := .range 0 1048576 }
/-- TRN_WHOLE_KEY.EN (R70, 02_front_ports_and_transport.md). -/
def TRN_WHOLE_KEY.EN : RField := { base := 0x900028, lsb := 0, width := 1, acc := .rw, reset := 0 }
/-- TRN_WHOLE_KEY.VARIANT (R70, 02_front_ports_and_transport.md). -/
def TRN_WHOLE_KEY.VARIANT : RField := { base := 0x900028, lsb := 8, width := 8, acc := .rw, reset := 0 }
/-- TRN_LAYBY_WM.HIGH_WM (R70, 02_front_ports_and_transport.md). -/
def TRN_LAYBY_WM.HIGH_WM : RField := { base := 0x900030, lsb := 0, width := 16, acc := .rwl, reset := 0x3000 }
/-- TRN_LAYBY_WM.LOW_WM (R70, 02_front_ports_and_transport.md). -/
def TRN_LAYBY_WM.LOW_WM : RField := { base := 0x900030, lsb := 16, width := 16, acc := .rwl, reset := 0x2000 }
/-- TRN_LAYBY_QPMAX.MAX (R70, 02_front_ports_and_transport.md). -/
def TRN_LAYBY_QPMAX.MAX : RField := { base := 0x900034, lsb := 0, width := 11, acc := .rwl, reset := 64, legal := .range 17 1024 }
/-- TRN_LAYBY_USE.ROLE0_CELLS (R70, 02_front_ports_and_transport.md). -/
def TRN_LAYBY_USE.ROLE0_CELLS : RField := { base := 0x900038, lsb := 0, width := 16, acc := .ro, reset := 0 }
/-- TRN_LAYBY_USE.ROLE1_CELLS (R70, 02_front_ports_and_transport.md). -/
def TRN_LAYBY_USE.ROLE1_CELLS : RField := { base := 0x900038, lsb := 16, width := 16, acc := .ro, reset := 0 }
/-- TRN_DROP.COUNT (R70, 02_front_ports_and_transport.md). -/
def TRN_DROP.COUNT : RField := { base := 0x900040, lsb := 0, width := 32, acc := .rc, reset := 0, n1 := 4, st1 := 0x4 }
/-- TRN_FETCH_STAT.FETCHES (R70, 02_front_ports_and_transport.md). -/
def TRN_FETCH_STAT.FETCHES : RField := { base := 0x900050, lsb := 0, width := 32, acc := .rc, reset := 0 }
/-- TRN_FETCH_MAX.MAX_NS (R70, 02_front_ports_and_transport.md). -/
def TRN_FETCH_MAX.MAX_NS : RField := { base := 0x900054, lsb := 0, width := 16, acc := .rc, reset := 0 }
/-- TRN_CC_CFG.CNP_GAP (R70, 02_front_ports_and_transport.md). -/
def TRN_CC_CFG.CNP_GAP : RField := { base := 0x900060, lsb := 0, width := 8, acc := .rwl, reset := 4, legal := .range 1 255 }
/-- TRN_CC_CFG.DECREASE (R70, 02_front_ports_and_transport.md). -/
def TRN_CC_CFG.DECREASE : RField := { base := 0x900060, lsb := 8, width := 8, acc := .rwl, reset := 128 }
/-- TRN_CC_CFG.INCREASE (R70, 02_front_ports_and_transport.md). -/
def TRN_CC_CFG.INCREASE : RField := { base := 0x900060, lsb := 16, width := 16, acc := .rwl, reset := 0x190 }
/-- TRN_SETUP_LOCK.LOCK (R70, 02_front_ports_and_transport.md). -/
def TRN_SETUP_LOCK.LOCK : RField := { base := 0x900ffc, lsb := 0, width := 1, acc := .wo, reset := 0 }
/-- CMD_CTRL.DISPATCH_EN (R102, 03_command_quarter.md). -/
def CMD_CTRL.DISPATCH_EN : RField := { base := 0xa00000, lsb := 0, width := 1, acc := .rw, reset := 0 }
/-- CMD_CTRL.INIT_FW_EN (R102, 03_command_quarter.md). -/
def CMD_CTRL.INIT_FW_EN : RField := { base := 0xa00000, lsb := 1, width := 1, acc := .rwl, reset := 0 }
/-- CMD_CTRL.UNMIRRORED (R102, 03_command_quarter.md). -/
def CMD_CTRL.UNMIRRORED : RField := { base := 0xa00000, lsb := 2, width := 1, acc := .rwl, reset := 0 }
/-- CMD_TAG_RESERVE.INTERNAL (R102, 03_command_quarter.md). -/
def CMD_TAG_RESERVE.INTERNAL : RField := { base := 0xa00008, lsb := 0, width := 16, acc := .rwl, reset := 0x2000 }
/-- CMD_TAG_RESERVE.FORWARDED (R102, 03_command_quarter.md). -/
def CMD_TAG_RESERVE.FORWARDED : RField := { base := 0xa00008, lsb := 16, width := 16, acc := .rwl, reset := 0x4000 }
/-- CMD_TAG_USE.IN_USE (R102, 03_command_quarter.md). -/
def CMD_TAG_USE.IN_USE : RField := { base := 0xa00010, lsb := 0, width := 18, acc := .ro, reset := 0 }
/-- CMD_TAG_PEAK.PEAK (R102, 03_command_quarter.md). -/
def CMD_TAG_PEAK.PEAK : RField := { base := 0xa00014, lsb := 0, width := 18, acc := .rc, reset := 0 }
/-- CMD_INTAKE.ROLE0 (R102, 03_command_quarter.md). -/
def CMD_INTAKE.ROLE0 : RField := { base := 0xa00018, lsb := 0, width := 16, acc := .ro, reset := 0 }
/-- CMD_INTAKE.ROLE1 (R102, 03_command_quarter.md). -/
def CMD_INTAKE.ROLE1 : RField := { base := 0xa00018, lsb := 16, width := 16, acc := .ro, reset := 0 }
/-- CMD_INTAKE_RNR.COUNT (R102, 03_command_quarter.md). -/
def CMD_INTAKE_RNR.COUNT : RField := { base := 0xa0001c, lsb := 0, width := 32, acc := .rc, reset := 0 }
/-- CMD_LOCK_USE.IN_USE (R102, 03_command_quarter.md). -/
def CMD_LOCK_USE.IN_USE : RField := { base := 0xa00020, lsb := 0, width := 15, acc := .ro, reset := 0 }
/-- CMD_LOCK_USE.WAITING (R102, 03_command_quarter.md). -/
def CMD_LOCK_USE.WAITING : RField := { base := 0xa00020, lsb := 15, width := 17, acc := .ro, reset := 0 }
/-- CMD_LOCK_FULL.COUNT (R102, 03_command_quarter.md). -/
def CMD_LOCK_FULL.COUNT : RField := { base := 0xa00024, lsb := 0, width := 32, acc := .rc, reset := 0 }
/-- CMD_ARB_CFG.INTERNAL_WEIGHT (R102, 03_command_quarter.md). -/
def CMD_ARB_CFG.INTERNAL_WEIGHT : RField := { base := 0xa00030, lsb := 0, width := 8, acc := .rwl, reset := 32 }
/-- CMD_ARB_CFG.FORWARDED_WEIGHT (R102, 03_command_quarter.md). -/
def CMD_ARB_CFG.FORWARDED_WEIGHT : RField := { base := 0xa00030, lsb := 8, width := 8, acc := .rwl, reset := 64 }
/-- CMD_HOLD.ACTIVATION (R102, 03_command_quarter.md). -/
def CMD_HOLD.ACTIVATION : RField := { base := 0xa00040, lsb := 0, width := 1, acc := .ro, reset := 0 }
/-- CMD_HOLD.POWER_STATE (R102, 03_command_quarter.md). -/
def CMD_HOLD.POWER_STATE : RField := { base := 0xa00040, lsb := 1, width := 1, acc := .ro, reset := 0 }
/-- CMD_HOLD.ANA_CHANGE (R102, 03_command_quarter.md). -/
def CMD_HOLD.ANA_CHANGE : RField := { base := 0xa00040, lsb := 2, width := 1, acc := .ro, reset := 0 }
/-- CMD_HOLD.HELD (R102, 03_command_quarter.md). -/
def CMD_HOLD.HELD : RField := { base := 0xa00040, lsb := 16, width := 16, acc := .ro, reset := 0 }
/-- CMD_PS_CFG.MAX_PS (R102, 03_command_quarter.md). -/
def CMD_PS_CFG.MAX_PS : RField := { base := 0xa00050, lsb := 0, width := 2, acc := .rw, reset := 3 }
/-- CMD_PS_CFG.EFFECTIVE (R102, 03_command_quarter.md). -/
def CMD_PS_CFG.EFFECTIVE : RField := { base := 0xa00050, lsb := 4, width := 2, acc := .ro, reset := 0 }
/-- CMD_ABORT_STAT.ABORTED (R102, 03_command_quarter.md). -/
def CMD_ABORT_STAT.ABORTED : RField := { base := 0xa00060, lsb := 0, width := 16, acc := .rc, reset := 0 }
/-- CMD_ABORT_STAT.NOT_ABORTED (R102, 03_command_quarter.md). -/
def CMD_ABORT_STAT.NOT_ABORTED : RField := { base := 0xa00060, lsb := 16, width := 16, acc := .rc, reset := 0 }
/-- CMD_FWD_STAT.FORWARDED (R102, 03_command_quarter.md). -/
def CMD_FWD_STAT.FORWARDED : RField := { base := 0xa00068, lsb := 0, width := 32, acc := .rc, reset := 0 }
/-- CMD_TAG_QUERY.TAG (R102, 03_command_quarter.md). -/
def CMD_TAG_QUERY.TAG : RField := { base := 0xa00070, lsb := 0, width := 17, acc := .wo, reset := 0 }
/-- CMD_TAG_STATE.STATE (R102, 03_command_quarter.md). -/
def CMD_TAG_STATE.STATE : RField := { base := 0xa00074, lsb := 0, width := 4, acc := .ro, reset := 0 }
/-- CMD_SETUP_LOCK.LOCK (R102, 03_command_quarter.md). -/
def CMD_SETUP_LOCK.LOCK : RField := { base := 0xa00ffc, lsb := 0, width := 1, acc := .wo, reset := 0 }
/-- CMD_TENANT_WEIGHT.W0 (R102, 03_command_quarter.md). -/
def CMD_TENANT_WEIGHT.W0 : RField := { base := 0xa01000, lsb := 0, width := 8, acc := .rw, reset := 16, n1 := 1024, st1 := 0x4 }
/-- CMD_TENANT_WEIGHT.W1 (R102, 03_command_quarter.md). -/
def CMD_TENANT_WEIGHT.W1 : RField := { base := 0xa01000, lsb := 8, width := 8, acc := .rw, reset := 16, n1 := 1024, st1 := 0x4 }
/-- CMD_TENANT_WEIGHT.W2 (R102, 03_command_quarter.md). -/
def CMD_TENANT_WEIGHT.W2 : RField := { base := 0xa01000, lsb := 16, width := 8, acc := .rw, reset := 16, n1 := 1024, st1 := 0x4 }
/-- CMD_TENANT_WEIGHT.W3 (R102, 03_command_quarter.md). -/
def CMD_TENANT_WEIGHT.W3 : RField := { base := 0xa01000, lsb := 24, width := 8, acc := .rw, reset := 16, n1 := 1024, st1 := 0x4 }
/-- BND_LANE_INSERVICE.LANES (R130, 04_chunking_fingerprints_dedup.md). -/
def BND_LANE_INSERVICE.LANES : RField := { base := 0xb00000, lsb := 0, width := 36, acc := .ro, reset := 0xffffffff, wide := true }
/-- BND_GEAR_SEED.SEED (R130, 04_chunking_fingerprints_dedup.md). -/
def BND_GEAR_SEED.SEED : RField := { base := 0xb00008, lsb := 0, width := 64, acc := .rwl, reset := 0x5c3a91e407b26df8, wide := true }
/-- BND_SPLIT.SEG (R130, 04_chunking_fingerprints_dedup.md). -/
def BND_SPLIT.SEG : RField := { base := 0xb00010, lsb := 0, width := 2, acc := .rwl, reset := 1 }
/-- BND_CHUNKS.COUNT (R130, 04_chunking_fingerprints_dedup.md). -/
def BND_CHUNKS.COUNT : RField := { base := 0xb00018, lsb := 0, width := 32, acc := .rc, reset := 0 }
/-- BND_CUTS.MAXLEN (R130, 04_chunking_fingerprints_dedup.md). -/
def BND_CUTS.MAXLEN : RField := { base := 0xb0001c, lsb := 0, width := 16, acc := .rc, reset := 0 }
/-- BND_CUTS.SEAM (R130, 04_chunking_fingerprints_dedup.md). -/
def BND_CUTS.SEAM : RField := { base := 0xb0001c, lsb := 16, width := 16, acc := .rc, reset := 0 }
/-- BND_ZERO.COUNT (R130, 04_chunking_fingerprints_dedup.md). -/
def BND_ZERO.COUNT : RField := { base := 0xb00020, lsb := 0, width := 32, acc := .rc, reset := 0 }
/-- BND_DIGEST_FAULT.COUNT (R130, 04_chunking_fingerprints_dedup.md). -/
def BND_DIGEST_FAULT.COUNT : RField := { base := 0xb00024, lsb := 0, width := 32, acc := .rc, reset := 0 }
/-- BND_STREAM_SWITCH.COUNT (R130, 04_chunking_fingerprints_dedup.md). -/
def BND_STREAM_SWITCH.COUNT : RField := { base := 0xb00028, lsb := 0, width := 32, acc := .rc, reset := 0 }
/-- BND_DSTATE_BASE.BASE (R130, 04_chunking_fingerprints_dedup.md). -/
def BND_DSTATE_BASE.BASE : RField := { base := 0xb00030, lsb := 0, width := 64, acc := .rwl, reset := 0, wide := true }
/-- BND_SETUP_LOCK.LOCK (R130, 04_chunking_fingerprints_dedup.md). -/
def BND_SETUP_LOCK.LOCK : RField := { base := 0xb00ffc, lsb := 0, width := 1, acc := .wo, reset := 0 }
/-- DDP_CTRL.LOOKUP_EN (R131, 04_chunking_fingerprints_dedup.md). -/
def DDP_CTRL.LOOKUP_EN : RField := { base := 0xc00000, lsb := 0, width := 1, acc := .rw, reset := 0 }
/-- DDP_CTRL.RECON_EN (R131, 04_chunking_fingerprints_dedup.md). -/
def DDP_CTRL.RECON_EN : RField := { base := 0xc00000, lsb := 1, width := 1, acc := .rw, reset := 0 }
/-- DDP_INDEX_BASE.BASE (R131, 04_chunking_fingerprints_dedup.md). -/
def DDP_INDEX_BASE.BASE : RField := { base := 0xc00008, lsb := 0, width := 64, acc := .rwl, reset := 0, wide := true }
/-- DDP_FILTER_USE.TAGS (R131, 04_chunking_fingerprints_dedup.md). -/
def DDP_FILTER_USE.TAGS : RField := { base := 0xc00010, lsb := 0, width := 26, acc := .ro, reset := 0 }
/-- DDP_HITS.COUNT (R131, 04_chunking_fingerprints_dedup.md). -/
def DDP_HITS.COUNT : RField := { base := 0xc00018, lsb := 0, width := 32, acc := .rc, reset := 0 }
/-- DDP_MISSES.COUNT (R131, 04_chunking_fingerprints_dedup.md). -/
def DDP_MISSES.COUNT : RField := { base := 0xc0001c, lsb := 0, width := 32, acc := .rc, reset := 0 }
/-- DDP_FALSE_POS.COUNT (R131, 04_chunking_fingerprints_dedup.md). -/
def DDP_FALSE_POS.COUNT : RField := { base := 0xc00020, lsb := 0, width := 32, acc := .rc, reset := 0 }
/-- DDP_PENDING.COLLISIONS (R131, 04_chunking_fingerprints_dedup.md). -/
def DDP_PENDING.COLLISIONS : RField := { base := 0xc00024, lsb := 0, width := 16, acc := .rc, reset := 0 }
/-- DDP_PENDING.FULL (R131, 04_chunking_fingerprints_dedup.md). -/
def DDP_PENDING.FULL : RField := { base := 0xc00024, lsb := 16, width := 16, acc := .rc, reset := 0 }
/-- DDP_INSERT_SKIP.COUNT (R131, 04_chunking_fingerprints_dedup.md). -/
def DDP_INSERT_SKIP.COUNT : RField := { base := 0xc00028, lsb := 0, width := 32, acc := .rc, reset := 0 }
/-- DDP_RECON_BASE.BASE (R131, 04_chunking_fingerprints_dedup.md). -/
def DDP_RECON_BASE.BASE : RField := { base := 0xc00030, lsb := 0, width := 64, acc := .rwl, reset := 0, wide := true }
/-- DDP_RECON_SIZE.LOG2 (R131, 04_chunking_fingerprints_dedup.md). -/
def DDP_RECON_SIZE.LOG2 : RField := { base := 0xc00038, lsb := 0, width := 5, acc := .rwl, reset := 16, legal := .range 16 26 }
/-- DDP_RECON_FILL.ENTRIES (R131, 04_chunking_fingerprints_dedup.md). -/
def DDP_RECON_FILL.ENTRIES : RField := { base := 0xc0003c, lsb := 0, width := 27, acc := .ro, reset := 0 }
/-- DDP_RECON_RATE.PER_MS (R131, 04_chunking_fingerprints_dedup.md). -/
def DDP_RECON_RATE.PER_MS : RField := { base := 0xc00040, lsb := 0, width := 16, acc := .rw, reset := 0x7d0 }
/-- DDP_VERIFY_MATCH.COUNT (R131, 04_chunking_fingerprints_dedup.md). -/
def DDP_VERIFY_MATCH.COUNT : RField := { base := 0xc00048, lsb := 0, width := 32, acc := .rc, reset := 0 }
/-- DDP_VERIFY_MISMATCH.COUNT (R131, 04_chunking_fingerprints_dedup.md). -/
def DDP_VERIFY_MISMATCH.COUNT : RField := { base := 0xc0004c, lsb := 0, width := 32, acc := .rc, reset := 0 }
/-- DDP_SETUP_LOCK.LOCK (R131, 04_chunking_fingerprints_dedup.md). -/
def DDP_SETUP_LOCK.LOCK : RField := { base := 0xc00ffc, lsb := 0, width := 1, acc := .wo, reset := 0 }
/-- DDP_DOMAIN_CFG.EN (R131, 04_chunking_fingerprints_dedup.md). -/
def DDP_DOMAIN_CFG.EN : RField := { base := 0xc10000, lsb := 0, width := 1, acc := .rw, reset := 0, n1 := 4096, st1 := 0x10 }
/-- DDP_DOMAIN_CFG.MODE (R131, 04_chunking_fingerprints_dedup.md). -/
def DDP_DOMAIN_CFG.MODE : RField := { base := 0xc10000, lsb := 1, width := 2, acc := .rw, reset := 0, legal := .range 0 2, n1 := 4096, st1 := 0x10 }
/-- DDP_DOMAIN_CFG.CHUNK (R131, 04_chunking_fingerprints_dedup.md). -/
def DDP_DOMAIN_CFG.CHUNK : RField := { base := 0xc10000, lsb := 3, width := 2, acc := .rw, reset := 0, n1 := 4096, st1 := 0x10 }
/-- DDP_DOMAIN_CFG.DIGEST (R131, 04_chunking_fingerprints_dedup.md). -/
def DDP_DOMAIN_CFG.DIGEST : RField := { base := 0xc10000, lsb := 5, width := 2, acc := .rw, reset := 0, legal := .range 0 2, n1 := 4096, st1 := 0x10 }
/-- DDP_DOMAIN_CFG.VERIFY (R131, 04_chunking_fingerprints_dedup.md). -/
def DDP_DOMAIN_CFG.VERIFY : RField := { base := 0xc10000, lsb := 7, width := 1, acc := .rw, reset := 0, n1 := 4096, st1 := 0x10 }
/-- DDP_DOMAIN_CFG.CASCADE (R131, 04_chunking_fingerprints_dedup.md). -/
def DDP_DOMAIN_CFG.CASCADE : RField := { base := 0xc10000, lsb := 8, width := 1, acc := .rw, reset := 0, n1 := 4096, st1 := 0x10 }
/-- DDP_DOMAIN_KEYS.DIGEST_SLOT (R131, 04_chunking_fingerprints_dedup.md). -/
def DDP_DOMAIN_KEYS.DIGEST_SLOT : RField := { base := 0xc10004, lsb := 0, width := 12, acc := .rw, reset := 0, n1 := 4096, st1 := 0x10 }
/-- DDP_DOMAIN_KEYS.CIPHER_SLOT (R131, 04_chunking_fingerprints_dedup.md). -/
def DDP_DOMAIN_KEYS.CIPHER_SLOT : RField := { base := 0xc10004, lsb := 16, width := 13, acc := .rw, reset := 0, n1 := 4096, st1 := 0x10 }
/-- DDP_DOMAIN_HOME.HOME (R131, 04_chunking_fingerprints_dedup.md). -/
def DDP_DOMAIN_HOME.HOME : RField := { base := 0xc10008, lsb := 0, width := 12, acc := .rw, reset := 0, n1 := 4096, st1 := 0x10 }
/-- DDP_DOMAIN_STAT.SWEEP_NEEDED (R131, 04_chunking_fingerprints_dedup.md). -/
def DDP_DOMAIN_STAT.SWEEP_NEEDED : RField := { base := 0xc1000c, lsb := 0, width := 1, acc := .w1c, reset := 0, n1 := 4096, st1 := 0x10 }
/-- DDP_DOMAIN_STAT.CASCADE_OFF (R131, 04_chunking_fingerprints_dedup.md). -/
def DDP_DOMAIN_STAT.CASCADE_OFF : RField := { base := 0xc1000c, lsb := 1, width := 1, acc := .ro, reset := 0, n1 := 4096, st1 := 0x10 }
/-- BND_COMP_CFG.LEVEL (R158, 05_compression_and_cipher.md). -/
def BND_COMP_CFG.LEVEL : RField := { base := 0xb00100, lsb := 0, width := 2, acc := .rwl, reset := 2 }
/-- BND_COMP_CFG.MIN_SAVE (R158, 05_compression_and_cipher.md). -/
def BND_COMP_CFG.MIN_SAVE : RField := { base := 0xb00100, lsb := 8, width := 8, acc := .rwl, reset := 4 }
/-- BND_COMP_STORED.COUNT (R158, 05_compression_and_cipher.md). -/
def BND_COMP_STORED.COUNT : RField := { base := 0xb00108, lsb := 0, width := 32, acc := .rc, reset := 0 }
/-- BND_COMP_BYTES_IN.BYTES (R158, 05_compression_and_cipher.md). -/
def BND_COMP_BYTES_IN.BYTES : RField := { base := 0xb00110, lsb := 0, width := 64, acc := .rc, reset := 0, wide := true }
/-- BND_COMP_BYTES_OUT.BYTES (R158, 05_compression_and_cipher.md). -/
def BND_COMP_BYTES_OUT.BYTES : RField := { base := 0xb00118, lsb := 0, width := 64, acc := .rc, reset := 0, wide := true }
/-- BND_DECOMP_ERR.COUNT (R158, 05_compression_and_cipher.md). -/
def BND_DECOMP_ERR.COUNT : RField := { base := 0xb00120, lsb := 0, width := 16, acc := .rc, reset := 0 }
/-- BND_DECOMP_ERR.LAST (R158, 05_compression_and_cipher.md). -/
def BND_DECOMP_ERR.LAST : RField := { base := 0xb00120, lsb := 16, width := 8, acc := .ro, reset := 0 }
/-- BND_SIDECH.DUMMY (R158, 05_compression_and_cipher.md). -/
def BND_SIDECH.DUMMY : RField := { base := 0xb00130, lsb := 0, width := 3, acc := .rwl, reset := 6, legal := .range 0 6 }
/-- BND_SIDECH.SHUFFLE (R158, 05_compression_and_cipher.md). -/
def BND_SIDECH.SHUFFLE : RField := { base := 0xb00130, lsb := 3, width := 1, acc := .rwl, reset := 1 }
/-- BND_CIPHER_FAULT.COUNT (R158, 05_compression_and_cipher.md). -/
def BND_CIPHER_FAULT.COUNT : RField := { base := 0xb00134, lsb := 0, width := 32, acc := .rc, reset := 0 }
/-- BND_JOB_SHARE.PERCENT (R158, 05_compression_and_cipher.md). -/
def BND_JOB_SHARE.PERCENT : RField := { base := 0xb00140, lsb := 0, width := 7, acc := .rw, reset := 25, legal := .clamp 100 }
/-- BND_GCM_UNTRUSTED.COUNT (R158, 05_compression_and_cipher.md). -/
def BND_GCM_UNTRUSTED.COUNT : RField := { base := 0xb00148, lsb := 0, width := 32, acc := .rc, reset := 0 }
/-- KEY_SLOT_BASE.BASE (R159, 05_compression_and_cipher.md). -/
def KEY_SLOT_BASE.BASE : RField := { base := 0x1500008, lsb := 0, width := 64, acc := .rwl, reset := 0, wide := true }
/-- KEY_KEK_DATA.DATA (R159, 05_compression_and_cipher.md). -/
def KEY_KEK_DATA.DATA : RField := { base := 0x1500100, lsb := 0, width := 64, acc := .wo, reset := 0, wide := true, n1 := 4, st1 := 0x8 }
/-- KEY_KEK_CMD.INDEX (R159, 05_compression_and_cipher.md). -/
def KEY_KEK_CMD.INDEX : RField := { base := 0x1500120, lsb := 0, width := 4, acc := .wo, reset := 0 }
/-- KEY_KEK_CMD.GO (R159, 05_compression_and_cipher.md). -/
def KEY_KEK_CMD.GO : RField := { base := 0x1500120, lsb := 4, width := 1, acc := .wo, reset := 0 }
/-- KEY_KEK_STATUS.LOADED (R159, 05_compression_and_cipher.md). -/
def KEY_KEK_STATUS.LOADED : RField := { base := 0x1500128, lsb := 1, width := 15, acc := .ro, reset := 0 }
/-- KEY_UNWRAP_FAIL.COUNT (R159, 05_compression_and_cipher.md). -/
def KEY_UNWRAP_FAIL.COUNT : RField := { base := 0x1500130, lsb := 0, width := 32, acc := .rc, reset := 0 }
/-- KEY_SLOTS_USED.CIPHER (R159, 05_compression_and_cipher.md). -/
def KEY_SLOTS_USED.CIPHER : RField := { base := 0x1500138, lsb := 0, width := 14, acc := .ro, reset := 0 }
/-- KEY_SLOTS_USED.DIGEST (R159, 05_compression_and_cipher.md). -/
def KEY_SLOTS_USED.DIGEST : RField := { base := 0x1500138, lsb := 16, width := 13, acc := .ro, reset := 0 }
/-- KEY_SLOTS_USED.DAMAGED (R159, 05_compression_and_cipher.md). -/
def KEY_SLOTS_USED.DAMAGED : RField := { base := 0x1500138, lsb := 31, width := 1, acc := .ro, reset := 0 }
/-- KEY_SETUP_LOCK.LOCK (R159, 05_compression_and_cipher.md). -/
def KEY_SETUP_LOCK.LOCK : RField := { base := 0x1500ffc, lsb := 0, width := 1, acc := .wo, reset := 0 }
/-- DDR_WC_BASE.BASE (R183, 06_write_cache_and_mirror.md). -/
def DDR_WC_BASE.BASE : RField := { base := 0x1400400, lsb := 0, width := 64, acc := .rwl, reset := 0, wide := true }
/-- DDR_WC_CFG.LIMIT_SEGS (R183, 06_write_cache_and_mirror.md). -/
def DDR_WC_CFG.LIMIT_SEGS : RField := { base := 0x1400408, lsb := 0, width := 15, acc := .rwl, reset := 0x6000, legal := .range 1024 24576 }
/-- DDR_WC_CFG.START (R183, 06_write_cache_and_mirror.md). -/
def DDR_WC_CFG.START : RField := { base := 0x1400408, lsb := 16, width := 8, acc := .rwl, reset := 25, legal := .range 0 100 }
/-- DDR_WC_CFG.URGENT (R183, 06_write_cache_and_mirror.md). -/
def DDR_WC_CFG.URGENT : RField := { base := 0x1400408, lsb := 24, width := 8, acc := .rwl, reset := 88, legal := .range 0 100 }
/-- DDR_WC_AGE.AGE_MS (R183, 06_write_cache_and_mirror.md). -/
def DDR_WC_AGE.AGE_MS : RField := { base := 0x140040c, lsb := 0, width := 16, acc := .rw, reset := 0x3e8 }
/-- DDR_WC_DIRTY.OWN (R183, 06_write_cache_and_mirror.md). -/
def DDR_WC_DIRTY.OWN : RField := { base := 0x1400410, lsb := 0, width := 15, acc := .ro, reset := 0 }
/-- DDR_WC_DIRTY.MIRROR (R183, 06_write_cache_and_mirror.md). -/
def DDR_WC_DIRTY.MIRROR : RField := { base := 0x1400410, lsb := 16, width := 15, acc := .ro, reset := 0 }
/-- DDR_WC_META.MIB (R183, 06_write_cache_and_mirror.md). -/
def DDR_WC_META.MIB : RField := { base := 0x1400414, lsb := 0, width := 13, acc := .ro, reset := 0 }
/-- DDR_WC_STALL.COUNT (R183, 06_write_cache_and_mirror.md). -/
def DDR_WC_STALL.COUNT : RField := { base := 0x1400418, lsb := 0, width := 32, acc := .rc, reset := 0 }
/-- DDR_MIR_STATE.MODE (R183, 06_write_cache_and_mirror.md). -/
def DDR_MIR_STATE.MODE : RField := { base := 0x1400420, lsb := 0, width := 3, acc := .ro, reset := 0 }
/-- DDR_MIR_EPOCH.EPOCH (R183, 06_write_cache_and_mirror.md). -/
def DDR_MIR_EPOCH.EPOCH : RField := { base := 0x1400424, lsb := 0, width := 32, acc := .ro, reset := 0 }
/-- DDR_MIR_CFG.ACK_TIMEOUT (R183, 06_write_cache_and_mirror.md). -/
def DDR_MIR_CFG.ACK_TIMEOUT : RField := { base := 0x1400428, lsb := 0, width := 10, acc := .rwl, reset := 20, legal := .range 5 1000 }
/-- DDR_MIR_SENT.SEQ (R183, 06_write_cache_and_mirror.md). -/
def DDR_MIR_SENT.SEQ : RField := { base := 0x1400430, lsb := 0, width := 64, acc := .ro, reset := 0, wide := true }
/-- DDR_MIR_ACKED.SEQ (R183, 06_write_cache_and_mirror.md). -/
def DDR_MIR_ACKED.SEQ : RField := { base := 0x1400438, lsb := 0, width := 64, acc := .ro, reset := 0, wide := true }
/-- DDR_MIR_APPLIED.SEQ (R183, 06_write_cache_and_mirror.md). -/
def DDR_MIR_APPLIED.SEQ : RField := { base := 0x1400440, lsb := 0, width := 64, acc := .ro, reset := 0, wide := true }
/-- DDR_MIR_RETX.COUNT (R183, 06_write_cache_and_mirror.md). -/
def DDR_MIR_RETX.COUNT : RField := { base := 0x1400448, lsb := 0, width := 32, acc := .rc, reset := 0 }
/-- DDR_MIR_DUP.SAME_GEN (R183, 06_write_cache_and_mirror.md). -/
def DDR_MIR_DUP.SAME_GEN : RField := { base := 0x140044c, lsb := 0, width := 16, acc := .rc, reset := 0 }
/-- DDR_MIR_DUP.OLDER_GEN (R183, 06_write_cache_and_mirror.md). -/
def DDR_MIR_DUP.OLDER_GEN : RField := { base := 0x140044c, lsb := 16, width := 16, acc := .rc, reset := 0 }
/-- DDR_MIR_FAULT.STALE (R183, 06_write_cache_and_mirror.md). -/
def DDR_MIR_FAULT.STALE : RField := { base := 0x1400450, lsb := 0, width := 8, acc := .rc, reset := 0 }
/-- DDR_MIR_FAULT.REJECTED (R183, 06_write_cache_and_mirror.md). -/
def DDR_MIR_FAULT.REJECTED : RField := { base := 0x1400450, lsb := 8, width := 8, acc := .rc, reset := 0 }
/-- DDR_MIR_FAULT.CRC (R183, 06_write_cache_and_mirror.md). -/
def DDR_MIR_FAULT.CRC : RField := { base := 0x1400450, lsb := 16, width := 16, acc := .rc, reset := 0 }
/-- DDR_PF_CFG.THRESH (R183, 06_write_cache_and_mirror.md). -/
def DDR_PF_CFG.THRESH : RField := { base := 0x1400480, lsb := 0, width := 5, acc := .rwl, reset := 8, legal := .range 0 20 }
/-- DDR_PF_CFG.FILTER (R183, 06_write_cache_and_mirror.md). -/
def DDR_PF_CFG.FILTER : RField := { base := 0x1400480, lsb := 8, width := 5, acc := .rwl, reset := 2, legal := .range 1 20 }
/-- DDR_PF_CFG.PIN_EN (R183, 06_write_cache_and_mirror.md). -/
def DDR_PF_CFG.PIN_EN : RField := { base := 0x1400480, lsb := 16, width := 1, acc := .rwl, reset := 1 }
/-- DDR_PF_CMD.DESTAGE_NOW (R183, 06_write_cache_and_mirror.md). -/
def DDR_PF_CMD.DESTAGE_NOW : RField := { base := 0x1400484, lsb := 0, width := 1, acc := .wo, reset := 0 }
/-- DDR_PF_STATUS.WARN (R183, 06_write_cache_and_mirror.md). -/
def DDR_PF_STATUS.WARN : RField := { base := 0x1400488, lsb := 0, width := 1, acc := .ro, reset := 0 }
/-- DDR_PF_STATUS.SOURCE (R183, 06_write_cache_and_mirror.md). -/
def DDR_PF_STATUS.SOURCE : RField := { base := 0x1400488, lsb := 1, width := 2, acc := .ro, reset := 0 }
/-- DDR_PF_STATUS.SEALED (R183, 06_write_cache_and_mirror.md). -/
def DDR_PF_STATUS.SEALED : RField := { base := 0x1400488, lsb := 3, width := 1, acc := .ro, reset := 0 }
/-- DDR_PF_STATUS.LAST_MS (R183, 06_write_cache_and_mirror.md). -/
def DDR_PF_STATUS.LAST_MS : RField := { base := 0x1400488, lsb := 16, width := 16, acc := .ro, reset := 0 }
/-- DDR_SETUP_LOCK.LOCK (R183, 06_write_cache_and_mirror.md). -/
def DDR_SETUP_LOCK.LOCK : RField := { base := 0x1400ffc, lsb := 0, width := 1, acc := .wo, reset := 0 }
/-- SIG_CTRL.SEW_EN (R217, 07_signatures.md). -/
def SIG_CTRL.SEW_EN : RField := { base := 0xe00000, lsb := 0, width := 1, acc := .rw, reset := 0 }
/-- SIG_CTRL.GC_EN (R217, 07_signatures.md). -/
def SIG_CTRL.GC_EN : RField := { base := 0xe00000, lsb := 1, width := 1, acc := .rw, reset := 0 }
/-- SIG_CTRL.PATROL_EN (R217, 07_signatures.md). -/
def SIG_CTRL.PATROL_EN : RField := { base := 0xe00000, lsb := 2, width := 1, acc := .rw, reset := 0 }
/-- SIG_CTRL.REBUILD_EN (R217, 07_signatures.md). -/
def SIG_CTRL.REBUILD_EN : RField := { base := 0xe00000, lsb := 3, width := 1, acc := .rw, reset := 1 }
/-- SIG_LOG_COPIES.LEAF0 (R217, 07_signatures.md). -/
def SIG_LOG_COPIES.LEAF0 : RField := { base := 0xe00008, lsb := 0, width := 9, acc := .ro, reset := 0, wide := true }
/-- SIG_LOG_COPIES.VALID0 (R217, 07_signatures.md). -/
def SIG_LOG_COPIES.VALID0 : RField := { base := 0xe00008, lsb := 9, width := 1, acc := .ro, reset := 0, wide := true }
/-- SIG_LOG_COPIES.LEAF1 (R217, 07_signatures.md). -/
def SIG_LOG_COPIES.LEAF1 : RField := { base := 0xe00008, lsb := 16, width := 9, acc := .ro, reset := 0, wide := true }
/-- SIG_LOG_COPIES.VALID1 (R217, 07_signatures.md). -/
def SIG_LOG_COPIES.VALID1 : RField := { base := 0xe00008, lsb := 25, width := 1, acc := .ro, reset := 0, wide := true }
/-- SIG_LOG_COPIES.LEAF2 (R217, 07_signatures.md). -/
def SIG_LOG_COPIES.LEAF2 : RField := { base := 0xe00008, lsb := 32, width := 9, acc := .ro, reset := 0, wide := true }
/-- SIG_LOG_COPIES.VALID2 (R217, 07_signatures.md). -/
def SIG_LOG_COPIES.VALID2 : RField := { base := 0xe00008, lsb := 41, width := 1, acc := .ro, reset := 0, wide := true }
/-- SIG_LOG_FILL.LIVE (R217, 07_signatures.md). -/
def SIG_LOG_FILL.LIVE : RField := { base := 0xe00010, lsb := 0, width := 23, acc := .ro, reset := 0 }
/-- SIG_ABSENT.ABSENT_S (R217, 07_signatures.md). -/
def SIG_ABSENT.ABSENT_S : RField := { base := 0xe00018, lsb := 0, width := 12, acc := .rwl, reset := 30, legal := .range 1 3600 }
/-- SIG_GC_CFG.START (R217, 07_signatures.md). -/
def SIG_GC_CFG.START : RField := { base := 0xe00020, lsb := 0, width := 8, acc := .rwl, reset := 12 }
/-- SIG_GC_CFG.URGENT (R217, 07_signatures.md). -/
def SIG_GC_CFG.URGENT : RField := { base := 0xe00020, lsb := 8, width := 8, acc := .rwl, reset := 6 }
/-- SIG_PATROL_RATE.PERIOD_DAYS (R217, 07_signatures.md). -/
def SIG_PATROL_RATE.PERIOD_DAYS : RField := { base := 0xe00030, lsb := 0, width := 10, acc := .rw, reset := 14, legal := .range 1 1000 }
/-- SIG_PATROL_RATE.DEEP (R217, 07_signatures.md). -/
def SIG_PATROL_RATE.DEEP : RField := { base := 0xe00030, lsb := 16, width := 1, acc := .rw, reset := 0 }
/-- SIG_PATROL_STAT.PROGRESS (R217, 07_signatures.md). -/
def SIG_PATROL_STAT.PROGRESS : RField := { base := 0xe00034, lsb := 0, width := 10, acc := .ro, reset := 0 }
/-- SIG_PATROL_STAT.PASSES (R217, 07_signatures.md). -/
def SIG_PATROL_STAT.PASSES : RField := { base := 0xe00034, lsb := 16, width := 16, acc := .ro, reset := 0 }
/-- SIG_PATROL_FOUND.UNREADABLE (R217, 07_signatures.md). -/
def SIG_PATROL_FOUND.UNREADABLE : RField := { base := 0xe00038, lsb := 0, width := 16, acc := .rc, reset := 0 }
/-- SIG_PATROL_FOUND.MISMATCH (R217, 07_signatures.md). -/
def SIG_PATROL_FOUND.MISMATCH : RField := { base := 0xe00038, lsb := 16, width := 16, acc := .rc, reset := 0 }
/-- SIG_REBUILD_RATE.GBPS (R217, 07_signatures.md). -/
def SIG_REBUILD_RATE.GBPS : RField := { base := 0xe00040, lsb := 0, width := 10, acc := .rw, reset := 40 }
/-- SIG_REBUILD_STAT.POOL (R217, 07_signatures.md). -/
def SIG_REBUILD_STAT.POOL : RField := { base := 0xe00044, lsb := 0, width := 6, acc := .ro, reset := 0 }
/-- SIG_REBUILD_STAT.ACTIVE (R217, 07_signatures.md). -/
def SIG_REBUILD_STAT.ACTIVE : RField := { base := 0xe00044, lsb := 6, width := 1, acc := .ro, reset := 0 }
/-- SIG_REBUILD_STAT.QUIRES_LEFT (R217, 07_signatures.md). -/
def SIG_REBUILD_STAT.QUIRES_LEFT : RField := { base := 0xe00044, lsb := 8, width := 24, acc := .ro, reset := 0 }
/-- SIG_DEGRADED.COUNT (R217, 07_signatures.md). -/
def SIG_DEGRADED.COUNT : RField := { base := 0xe00048, lsb := 0, width := 32, acc := .rc, reset := 0 }
/-- SIG_SLOW.COUNT (R217, 07_signatures.md). -/
def SIG_SLOW.COUNT : RField := { base := 0xe0004c, lsb := 0, width := 32, acc := .rc, reset := 0 }
/-- SIG_VOIDED.COUNT (R217, 07_signatures.md). -/
def SIG_VOIDED.COUNT : RField := { base := 0xe00050, lsb := 0, width := 32, acc := .rc, reset := 0 }
/-- SIG_LOST_BASE.BASE (R217, 07_signatures.md). -/
def SIG_LOST_BASE.BASE : RField := { base := 0xe00058, lsb := 0, width := 64, acc := .rwl, reset := 0, wide := true }
/-- SIG_LOST_PROD.PROD (R217, 07_signatures.md). -/
def SIG_LOST_PROD.PROD : RField := { base := 0xe00060, lsb := 0, width := 16, acc := .ro, reset := 0 }
/-- SIG_LOST_PROD.OVERFLOW (R217, 07_signatures.md). -/
def SIG_LOST_PROD.OVERFLOW : RField := { base := 0xe00060, lsb := 31, width := 1, acc := .w1c, reset := 0 }
/-- SIG_LOST_CONS.CONS (R217, 07_signatures.md). -/
def SIG_LOST_CONS.CONS : RField := { base := 0xe00064, lsb := 0, width := 16, acc := .rw, reset := 0 }
/-- SIG_LEAF_CMD.LEAF (R217, 07_signatures.md). -/
def SIG_LEAF_CMD.LEAF : RField := { base := 0xe00070, lsb := 0, width := 9, acc := .wo, reset := 0 }
/-- SIG_LEAF_CMD.OP (R217, 07_signatures.md). -/
def SIG_LEAF_CMD.OP : RField := { base := 0xe00070, lsb := 9, width := 2, acc := .wo, reset := 0 }
/-- SIG_LEAF_CMD.GO (R217, 07_signatures.md). -/
def SIG_LEAF_CMD.GO : RField := { base := 0xe00070, lsb := 11, width := 1, acc := .wo, reset := 0 }
/-- SIG_LEAF_RESULT.STATUS (R217, 07_signatures.md). -/
def SIG_LEAF_RESULT.STATUS : RField := { base := 0xe00074, lsb := 0, width := 16, acc := .ro, reset := 0 }
/-- SIG_LEAF_RESULT.BUSY (R217, 07_signatures.md). -/
def SIG_LEAF_RESULT.BUSY : RField := { base := 0xe00074, lsb := 16, width := 1, acc := .ro, reset := 0 }
/-- SIG_SETUP_LOCK.LOCK (R217, 07_signatures.md). -/
def SIG_SETUP_LOCK.LOCK : RField := { base := 0xe00ffc, lsb := 0, width := 1, acc := .wo, reset := 0 }
/-- SIG_POOL_CFG.EN (R217, 07_signatures.md). -/
def SIG_POOL_CFG.EN : RField := { base := 0xe01000, lsb := 0, width := 1, acc := .rw, reset := 0, n1 := 64, st1 := 0x100 }
/-- SIG_POOL_CFG.WIDTH (R217, 07_signatures.md). -/
def SIG_POOL_CFG.WIDTH : RField := { base := 0xe01000, lsb := 1, width := 6, acc := .rw, reset := 0, legal := .range 4 32, n1 := 64, st1 := 0x100 }
/-- SIG_POOL_CFG.PARITY (R217, 07_signatures.md). -/
def SIG_POOL_CFG.PARITY : RField := { base := 0xe01000, lsb := 7, width := 2, acc := .rw, reset := 0, legal := .range 1 3, n1 := 64, st1 := 0x100 }
/-- SIG_POOL_CFG.EXPRESS (R217, 07_signatures.md). -/
def SIG_POOL_CFG.EXPRESS : RField := { base := 0xe01000, lsb := 9, width := 1, acc := .rw, reset := 0, n1 := 64, st1 := 0x100 }
/-- SIG_POOL_CFG.META (R217, 07_signatures.md). -/
def SIG_POOL_CFG.META : RField := { base := 0xe01000, lsb := 10, width := 1, acc := .rw, reset := 0, n1 := 64, st1 := 0x100 }
/-- SIG_POOL_STATE.STATE (R217, 07_signatures.md). -/
def SIG_POOL_STATE.STATE : RField := { base := 0xe01004, lsb := 0, width := 3, acc := .ro, reset := 0, n1 := 64, st1 := 0x100 }
/-- SIG_POOL_STATE.LOSS (R217, 07_signatures.md). -/
def SIG_POOL_STATE.LOSS : RField := { base := 0xe01004, lsb := 3, width := 1, acc := .ro, reset := 0, n1 := 64, st1 := 0x100 }
/-- SIG_POOL_STATE.FULL (R217, 07_signatures.md). -/
def SIG_POOL_STATE.FULL : RField := { base := 0xe01004, lsb := 4, width := 1, acc := .ro, reset := 0, n1 := 64, st1 := 0x100 }
/-- SIG_POOL_STATE.CFG_ERR (R217, 07_signatures.md). -/
def SIG_POOL_STATE.CFG_ERR : RField := { base := 0xe01004, lsb := 5, width := 1, acc := .ro, reset := 0, n1 := 64, st1 := 0x100 }
/-- SIG_POOL_STATE.PEER_DIFF (R217, 07_signatures.md). -/
def SIG_POOL_STATE.PEER_DIFF : RField := { base := 0xe01004, lsb := 6, width := 1, acc := .ro, reset := 0, n1 := 64, st1 := 0x100 }
/-- SIG_POOL_STATE.ABSENT (R217, 07_signatures.md). -/
def SIG_POOL_STATE.ABSENT : RField := { base := 0xe01004, lsb := 8, width := 8, acc := .ro, reset := 0, n1 := 64, st1 := 0x100 }
/-- SIG_POOL_STATE.FAILED (R217, 07_signatures.md). -/
def SIG_POOL_STATE.FAILED : RField := { base := 0xe01004, lsb := 16, width := 8, acc := .ro, reset := 0, n1 := 64, st1 := 0x100 }
/-- SIG_POOL_CMD.ACCEPT_LOSS (R217, 07_signatures.md). -/
def SIG_POOL_CMD.ACCEPT_LOSS : RField := { base := 0xe01008, lsb := 0, width := 1, acc := .wo, reset := 0, n1 := 64, st1 := 0x100 }
/-- SIG_POOL_FREE.UNITS (R217, 07_signatures.md). -/
def SIG_POOL_FREE.UNITS : RField := { base := 0xe01010, lsb := 0, width := 32, acc := .ro, reset := 0, n1 := 64, st1 := 0x100 }
/-- SIG_POOL_UNITS.UNITS (R217, 07_signatures.md). -/
def SIG_POOL_UNITS.UNITS : RField := { base := 0xe01014, lsb := 0, width := 32, acc := .ro, reset := 0, n1 := 64, st1 := 0x100 }
/-- SIG_POOL_MEMBERS.LEAVES (R217, 07_signatures.md). -/
def SIG_POOL_MEMBERS.LEAVES : RField := { base := 0xe01040, lsb := 0, width := 32, acc := .w1s, reset := 0, n1 := 64, st1 := 0x100, n2 := 16, st2 := 0x4 }
/-- LFL_CTRL.PLAN_EN (R249, 08_leaves.md). -/
def LFL_CTRL.PLAN_EN : RField := { base := 0xf00000, lsb := 0, width := 1, acc := .rw, reset := 0 }
/-- LFL_CTRL.VALLEY_EN (R249, 08_leaves.md). -/
def LFL_CTRL.VALLEY_EN : RField := { base := 0xf00000, lsb := 1, width := 1, acc := .rw, reset := 1 }
/-- LFL_PLAN_CFG.INTERVAL_MIN (R249, 08_leaves.md). -/
def LFL_PLAN_CFG.INTERVAL_MIN : RField := { base := 0xf00008, lsb := 0, width := 11, acc := .rwl, reset := 60, legal := .range 1 1440 }
/-- LFL_PLAN_CFG.AGE_STEP (R249, 08_leaves.md). -/
def LFL_PLAN_CFG.AGE_STEP : RField := { base := 0xf00008, lsb := 12, width := 12, acc := .rwl, reset := 0x1f4, legal := .range 50 4000 }
/-- LFL_PLAN_CFG.DIE_LIMIT (R249, 08_leaves.md). -/
def LFL_PLAN_CFG.DIE_LIMIT : RField := { base := 0xf00008, lsb := 24, width := 7, acc := .rwl, reset := 12, legal := .range 1 100 }
/-- LFL_LDPC_HARD_FAIL.COUNT (R249, 08_leaves.md). -/
def LFL_LDPC_HARD_FAIL.COUNT : RField := { base := 0xf00010, lsb := 0, width := 32, acc := .rc, reset := 0 }
/-- LFL_LDPC_SOFT_OK.COUNT (R249, 08_leaves.md). -/
def LFL_LDPC_SOFT_OK.COUNT : RField := { base := 0xf00014, lsb := 0, width := 32, acc := .rc, reset := 0 }
/-- LFL_LDPC_UNREADABLE.COUNT (R249, 08_leaves.md). -/
def LFL_LDPC_UNREADABLE.COUNT : RField := { base := 0xf00018, lsb := 0, width := 32, acc := .rc, reset := 0 }
/-- LFL_PLAN_STAT.PLANS (R249, 08_leaves.md). -/
def LFL_PLAN_STAT.PLANS : RField := { base := 0xf00020, lsb := 0, width := 16, acc := .rc, reset := 0 }
/-- LFL_PLAN_STAT.REREAD (R249, 08_leaves.md). -/
def LFL_PLAN_STAT.REREAD : RField := { base := 0xf00020, lsb := 16, width := 16, acc := .rc, reset := 0 }
/-- LFL_SETUP_LOCK.LOCK (R249, 08_leaves.md). -/
def LFL_SETUP_LOCK.LOCK : RField := { base := 0xf00ffc, lsb := 0, width := 1, acc := .wo, reset := 0 }
/-- LFL_LANE_CFG.EN (R249, 08_leaves.md). -/
def LFL_LANE_CFG.EN : RField := { base := 0xf01000, lsb := 0, width := 1, acc := .rwl, reset := 1, n1 := 32, st1 := 0x40 }
/-- LFL_LANE_CFG.RATE (R249, 08_leaves.md); reset: strap. -/
def LFL_LANE_CFG.RATE : RField := { base := 0xf01000, lsb := 1, width := 1, acc := .rwl, reset := 0, n1 := 32, st1 := 0x40 }
/-- LFL_LANE_CFG.TX_INVERT (R249, 08_leaves.md). -/
def LFL_LANE_CFG.TX_INVERT : RField := { base := 0xf01000, lsb := 2, width := 1, acc := .rwl, reset := 0, n1 := 32, st1 := 0x40 }
/-- LFL_LANE_CFG.RX_INVERT (R249, 08_leaves.md). -/
def LFL_LANE_CFG.RX_INVERT : RField := { base := 0xf01000, lsb := 3, width := 1, acc := .rwl, reset := 0, n1 := 32, st1 := 0x40 }
/-- LFL_LANE_STATUS.STATE (R249, 08_leaves.md). -/
def LFL_LANE_STATUS.STATE : RField := { base := 0xf01004, lsb := 0, width := 3, acc := .ro, reset := 0, n1 := 32, st1 := 0x40 }
/-- LFL_LANE_STATUS.LEAVES (R249, 08_leaves.md). -/
def LFL_LANE_STATUS.LEAVES : RField := { base := 0xf01004, lsb := 8, width := 5, acc := .ro, reset := 0, n1 := 32, st1 := 0x40 }
/-- LFL_LANE_STATUS.OVERLONG (R249, 08_leaves.md). -/
def LFL_LANE_STATUS.OVERLONG : RField := { base := 0xf01004, lsb := 13, width := 1, acc := .ro, reset := 0, n1 := 32, st1 := 0x40 }
/-- LFL_LANE_STATUS.CHANGE (R249, 08_leaves.md). -/
def LFL_LANE_STATUS.CHANGE : RField := { base := 0xf01004, lsb := 14, width := 1, acc := .w1c, reset := 0, n1 := 32, st1 := 0x40 }
/-- LFL_LANE_STATUS.BREAK_AT (R249, 08_leaves.md). -/
def LFL_LANE_STATUS.BREAK_AT : RField := { base := 0xf01004, lsb := 16, width := 5, acc := .ro, reset := 16, n1 := 32, st1 := 0x40 }
/-- LFL_LANE_FEC.CORRECTED (R249, 08_leaves.md). -/
def LFL_LANE_FEC.CORRECTED : RField := { base := 0xf01008, lsb := 0, width := 32, acc := .rc, reset := 0, n1 := 32, st1 := 0x40 }
/-- LFL_LANE_RETRY.REPLAYS (R249, 08_leaves.md). -/
def LFL_LANE_RETRY.REPLAYS : RField := { base := 0xf0100c, lsb := 0, width := 16, acc := .rc, reset := 0, n1 := 32, st1 := 0x40 }
/-- LFL_LANE_RETRY.RETRAINS (R249, 08_leaves.md). -/
def LFL_LANE_RETRY.RETRAINS : RField := { base := 0xf0100c, lsb := 16, width := 16, acc := .rc, reset := 0, n1 := 32, st1 := 0x40 }
/-- LFL_LEAF.REACH_SELF (R249, 08_leaves.md). -/
def LFL_LEAF.REACH_SELF : RField := { base := 0xf02000, lsb := 0, width := 1, acc := .ro, reset := 0, n1 := 512, st1 := 0x4 }
/-- LFL_LEAF.REACH_PEER (R249, 08_leaves.md). -/
def LFL_LEAF.REACH_PEER : RField := { base := 0xf02000, lsb := 1, width := 1, acc := .ro, reset := 0, n1 := 512, st1 := 0x4 }
/-- LFL_LEAF.MISCABLED (R249, 08_leaves.md). -/
def LFL_LEAF.MISCABLED : RField := { base := 0xf02000, lsb := 2, width := 1, acc := .ro, reset := 0, n1 := 512, st1 := 0x4 }
/-- LFL_LEAF.FENCED (R249, 08_leaves.md). -/
def LFL_LEAF.FENCED : RField := { base := 0xf02000, lsb := 3, width := 1, acc := .ro, reset := 0, n1 := 512, st1 := 0x4 }
/-- LFL_LEAF.DIE_LIMIT (R249, 08_leaves.md). -/
def LFL_LEAF.DIE_LIMIT : RField := { base := 0xf02000, lsb := 4, width := 1, acc := .ro, reset := 0, n1 := 512, st1 := 0x4 }
/-- LFL_LEAF.DIES_RETIRED (R249, 08_leaves.md). -/
def LFL_LEAF.DIES_RETIRED : RField := { base := 0xf02000, lsb := 8, width := 8, acc := .ro, reset := 0, n1 := 512, st1 := 0x4 }
/-- MAP_CTRL.EN (R278, 09_map_and_snapshots.md). -/
def MAP_CTRL.EN : RField := { base := 0xd00000, lsb := 0, width := 1, acc := .rw, reset := 0 }
/-- MAP_CTRL.RECLAIM_EN (R278, 09_map_and_snapshots.md). -/
def MAP_CTRL.RECLAIM_EN : RField := { base := 0xd00000, lsb := 1, width := 1, acc := .rw, reset := 1 }
/-- MAP_NS_BASE.BASE (R278, 09_map_and_snapshots.md). -/
def MAP_NS_BASE.BASE : RField := { base := 0xd00008, lsb := 0, width := 64, acc := .rwl, reset := 0, wide := true }
/-- MAP_SNAP_BASE.BASE (R278, 09_map_and_snapshots.md). -/
def MAP_SNAP_BASE.BASE : RField := { base := 0xd00010, lsb := 0, width := 64, acc := .rwl, reset := 0, wide := true }
/-- MAP_DIR_BASE.BASE (R278, 09_map_and_snapshots.md). -/
def MAP_DIR_BASE.BASE : RField := { base := 0xd00018, lsb := 0, width := 64, acc := .rwl, reset := 0, wide := true }
/-- MAP_DIR_COUNT.LOG2 (R278, 09_map_and_snapshots.md). -/
def MAP_DIR_COUNT.LOG2 : RField := { base := 0xd00020, lsb := 0, width := 6, acc := .rwl, reset := 28, legal := .range 24 34 }
/-- MAP_POOL_BASE.BASE (R278, 09_map_and_snapshots.md). -/
def MAP_POOL_BASE.BASE : RField := { base := 0xd00028, lsb := 0, width := 64, acc := .rwl, reset := 0, wide := true }
/-- MAP_POOL_SLOTS.SLOTS (R278, 09_map_and_snapshots.md). -/
def MAP_POOL_SLOTS.SLOTS : RField := { base := 0xd00030, lsb := 0, width := 32, acc := .rwl, reset := 0x40000, legal := .range 262144 4294967295 }
/-- MAP_POOL_USE.RESIDENT (R278, 09_map_and_snapshots.md). -/
def MAP_POOL_USE.RESIDENT : RField := { base := 0xd00038, lsb := 0, width := 32, acc := .ro, reset := 0 }
/-- MAP_PAGE_FAULTS.COUNT (R278, 09_map_and_snapshots.md). -/
def MAP_PAGE_FAULTS.COUNT : RField := { base := 0xd0003c, lsb := 0, width := 32, acc := .rc, reset := 0 }
/-- MAP_RECLAIM.PAGES (R278, 09_map_and_snapshots.md). -/
def MAP_RECLAIM.PAGES : RField := { base := 0xd00040, lsb := 0, width := 40, acc := .ro, reset := 0, wide := true }
/-- MAP_CACHE_CTRL.EN (R278, 09_map_and_snapshots.md). -/
def MAP_CACHE_CTRL.EN : RField := { base := 0xd00100, lsb := 0, width := 1, acc := .rw, reset := 0 }
/-- MAP_CACHE_CTRL.PREFETCH_EN (R278, 09_map_and_snapshots.md). -/
def MAP_CACHE_CTRL.PREFETCH_EN : RField := { base := 0xd00100, lsb := 1, width := 1, acc := .rw, reset := 1 }
/-- MAP_CACHE_CTRL.INV_DONE (R278, 09_map_and_snapshots.md). -/
def MAP_CACHE_CTRL.INV_DONE : RField := { base := 0xd00100, lsb := 2, width := 1, acc := .ro, reset := 0 }
/-- MAP_CACHE_MAINT_ADDR.LINE (R278, 09_map_and_snapshots.md). -/
def MAP_CACHE_MAINT_ADDR.LINE : RField := { base := 0xd00108, lsb := 8, width := 56, acc := .rw, reset := 0, wide := true }
/-- MAP_CACHE_MAINT_CMD.OP (R278, 09_map_and_snapshots.md). -/
def MAP_CACHE_MAINT_CMD.OP : RField := { base := 0xd00110, lsb := 0, width := 2, acc := .wo, reset := 0 }
/-- MAP_CACHE_MAINT_CMD.BUSY (R278, 09_map_and_snapshots.md). -/
def MAP_CACHE_MAINT_CMD.BUSY : RField := { base := 0xd00110, lsb := 2, width := 1, acc := .ro, reset := 0 }
/-- MAP_CACHE_MAINT_CMD.LINES (R278, 09_map_and_snapshots.md). -/
def MAP_CACHE_MAINT_CMD.LINES : RField := { base := 0xd00110, lsb := 16, width := 16, acc := .wo, reset := 0 }
/-- MAP_CACHE_HITS.COUNT (R278, 09_map_and_snapshots.md). -/
def MAP_CACHE_HITS.COUNT : RField := { base := 0xd00120, lsb := 0, width := 32, acc := .rc, reset := 0 }
/-- MAP_CACHE_MISSES.COUNT (R278, 09_map_and_snapshots.md). -/
def MAP_CACHE_MISSES.COUNT : RField := { base := 0xd00124, lsb := 0, width := 32, acc := .rc, reset := 0 }
/-- MAP_CACHE_RACE.POISONED (R278, 09_map_and_snapshots.md). -/
def MAP_CACHE_RACE.POISONED : RField := { base := 0xd00128, lsb := 0, width := 16, acc := .rc, reset := 0 }
/-- MAP_CACHE_RACE.MERGED (R278, 09_map_and_snapshots.md). -/
def MAP_CACHE_RACE.MERGED : RField := { base := 0xd00128, lsb := 16, width := 16, acc := .rc, reset := 0 }
/-- MAP_CACHE_PREFETCH.ISSUED (R278, 09_map_and_snapshots.md). -/
def MAP_CACHE_PREFETCH.ISSUED : RField := { base := 0xd0012c, lsb := 0, width := 16, acc := .rc, reset := 0 }
/-- MAP_CACHE_PREFETCH.USED (R278, 09_map_and_snapshots.md). -/
def MAP_CACHE_PREFETCH.USED : RField := { base := 0xd0012c, lsb := 16, width := 16, acc := .rc, reset := 0 }
/-- MAP_CACHE_PARITY.COUNT (R278, 09_map_and_snapshots.md). -/
def MAP_CACHE_PARITY.COUNT : RField := { base := 0xd00130, lsb := 0, width := 32, acc := .rc, reset := 0 }
/-- MAP_SETUP_LOCK.LOCK (R278, 09_map_and_snapshots.md). -/
def MAP_SETUP_LOCK.LOCK : RField := { base := 0xd00ffc, lsb := 0, width := 1, acc := .wo, reset := 0 }
/-- MAP_CG_CFG.ARMED (R278, 09_map_and_snapshots.md). -/
def MAP_CG_CFG.ARMED : RField := { base := 0xd01000, lsb := 0, width := 1, acc := .rw, reset := 0, n1 := 256, st1 := 0x10 }
/-- MAP_CG_CFG.TAKEN (R278, 09_map_and_snapshots.md). -/
def MAP_CG_CFG.TAKEN : RField := { base := 0xd01000, lsb := 1, width := 1, acc := .ro, reset := 0, n1 := 256, st1 := 0x10 }
/-- MAP_CG_CFG.JOINED (R278, 09_map_and_snapshots.md). -/
def MAP_CG_CFG.JOINED : RField := { base := 0xd01000, lsb := 16, width := 16, acc := .ro, reset := 0, n1 := 256, st1 := 0x10 }
/-- MAP_CG_TIME.T (R278, 09_map_and_snapshots.md). -/
def MAP_CG_TIME.T : RField := { base := 0xd01008, lsb := 0, width := 64, acc := .rw, reset := 0, wide := true, n1 := 256, st1 := 0x10 }
/-- REP_CTRL.EN (R305, 10_replication.md). -/
def REP_CTRL.EN : RField := { base := 0x1200000, lsb := 0, width := 1, acc := .rw, reset := 0 }
/-- REP_ARRAY_ID.ID (R305, 10_replication.md). -/
def REP_ARRAY_ID.ID : RField := { base := 0x1200004, lsb := 0, width := 16, acc := .rwl, reset := 0 }
/-- REP_SET_BASE.BASE (R305, 10_replication.md). -/
def REP_SET_BASE.BASE : RField := { base := 0x1200008, lsb := 0, width := 64, acc := .rwl, reset := 0, wide := true }
/-- REP_LINK_BASE.BASE (R305, 10_replication.md). -/
def REP_LINK_BASE.BASE : RField := { base := 0x1200010, lsb := 0, width := 64, acc := .rwl, reset := 0, wide := true }
/-- REP_LANDING_BASE.BASE (R305, 10_replication.md). -/
def REP_LANDING_BASE.BASE : RField := { base := 0x1200018, lsb := 0, width := 64, acc := .rwl, reset := 0, wide := true }
/-- REP_LANDING_SIZE.LOG2 (R305, 10_replication.md). -/
def REP_LANDING_SIZE.LOG2 : RField := { base := 0x1200020, lsb := 0, width := 5, acc := .rwl, reset := 24, legal := .range 20 30 }
/-- REP_SEND_BASE.BASE (R305, 10_replication.md). -/
def REP_SEND_BASE.BASE : RField := { base := 0x1200028, lsb := 0, width := 64, acc := .rwl, reset := 0, wide := true }
/-- REP_SEND_SIZE.GIB (R305, 10_replication.md). -/
def REP_SEND_SIZE.GIB : RField := { base := 0x1200030, lsb := 0, width := 7, acc := .rwl, reset := 16, legal := .range 1 64 }
/-- REP_BATCH.BATCH_NS (R305, 10_replication.md). -/
def REP_BATCH.BATCH_NS : RField := { base := 0x1200038, lsb := 0, width := 16, acc := .rw, reset := 0x3e8, legal := .range 100 50000 }
/-- REP_TAG_FAIL.COUNT (R305, 10_replication.md). -/
def REP_TAG_FAIL.COUNT : RField := { base := 0x1200040, lsb := 0, width := 32, acc := .rc, reset := 0 }
/-- REP_WANTS.COUNT (R305, 10_replication.md). -/
def REP_WANTS.COUNT : RField := { base := 0x1200044, lsb := 0, width := 32, acc := .rc, reset := 0 }
/-- REP_BYTES_OUT.BYTES (R305, 10_replication.md). -/
def REP_BYTES_OUT.BYTES : RField := { base := 0x1200048, lsb := 0, width := 64, acc := .rc, reset := 0, wide := true }
/-- REP_BYTES_IN.BYTES (R305, 10_replication.md). -/
def REP_BYTES_IN.BYTES : RField := { base := 0x1200050, lsb := 0, width := 64, acc := .rc, reset := 0, wide := true }
/-- REP_SETUP_LOCK.LOCK (R305, 10_replication.md). -/
def REP_SETUP_LOCK.LOCK : RField := { base := 0x1200ffc, lsb := 0, width := 1, acc := .wo, reset := 0 }
/-- REP_SET_CFG.EN (R305, 10_replication.md). -/
def REP_SET_CFG.EN : RField := { base := 0x1201000, lsb := 0, width := 1, acc := .rw, reset := 0, n1 := 256, st1 := 0x10 }
/-- REP_SET_CFG.MODE (R305, 10_replication.md). -/
def REP_SET_CFG.MODE : RField := { base := 0x1201000, lsb := 1, width := 2, acc := .rw, reset := 0, legal := .range 0 2, n1 := 256, st1 := 0x10 }
/-- REP_SET_CFG.ROLE (R305, 10_replication.md). -/
def REP_SET_CFG.ROLE : RField := { base := 0x1201000, lsb := 3, width := 1, acc := .rw, reset := 0, n1 := 256, st1 := 0x10 }
/-- REP_SET_CFG.ON_BREAK (R305, 10_replication.md). -/
def REP_SET_CFG.ON_BREAK : RField := { base := 0x1201000, lsb := 4, width := 1, acc := .rw, reset := 1, n1 := 256, st1 := 0x10 }
/-- REP_SET_CFG.LINK (R305, 10_replication.md). -/
def REP_SET_CFG.LINK : RField := { base := 0x1201000, lsb := 5, width := 6, acc := .rw, reset := 0, n1 := 256, st1 := 0x10 }
/-- REP_SET_CFG.KEY_SLOT (R305, 10_replication.md). -/
def REP_SET_CFG.KEY_SLOT : RField := { base := 0x1201000, lsb := 11, width := 13, acc := .rw, reset := 0, n1 := 256, st1 := 0x10 }
/-- REP_SET_CFG.RTT_MAX (R305, 10_replication.md). -/
def REP_SET_CFG.RTT_MAX : RField := { base := 0x1201000, lsb := 24, width := 6, acc := .rw, reset := 10, legal := .range 1 40, n1 := 256, st1 := 0x10 }
/-- REP_SET_TIMING.PERIOD (R305, 10_replication.md). -/
def REP_SET_TIMING.PERIOD : RField := { base := 0x1201004, lsb := 0, width := 16, acc := .rw, reset := 100, legal := .range 1 65535, n1 := 256, st1 := 0x10 }
/-- REP_SET_TIMING.SUSPEND_MS (R305, 10_replication.md). -/
def REP_SET_TIMING.SUSPEND_MS : RField := { base := 0x1201004, lsb := 16, width := 16, acc := .rw, reset := 10, legal := .range 1 65535, n1 := 256, st1 := 0x10 }
/-- REP_SET_STATE.STATE (R305, 10_replication.md). -/
def REP_SET_STATE.STATE : RField := { base := 0x1201008, lsb := 0, width := 4, acc := .ro, reset := 0, n1 := 256, st1 := 0x10 }
/-- REP_SET_STATE.STATUS (R305, 10_replication.md). -/
def REP_SET_STATE.STATUS : RField := { base := 0x1201008, lsb := 16, width := 16, acc := .ro, reset := 0, n1 := 256, st1 := 0x10 }
/-- REP_SET_CMD.OP (R305, 10_replication.md). -/
def REP_SET_CMD.OP : RField := { base := 0x120100c, lsb := 0, width := 2, acc := .wo, reset := 0, n1 := 256, st1 := 0x10 }
/-- REP_SET_APPLIED.T (R305, 10_replication.md). -/
def REP_SET_APPLIED.T : RField := { base := 0x1202000, lsb := 0, width := 64, acc := .ro, reset := 0, wide := true, n1 := 256, st1 := 0x8 }
/-- REP_LINK_CTRL.EN (R305, 10_replication.md). -/
def REP_LINK_CTRL.EN : RField := { base := 0x1203000, lsb := 0, width := 1, acc := .rw, reset := 0, n1 := 64, st1 := 0x8 }
/-- REP_LINK_CTRL.STATE (R305, 10_replication.md). -/
def REP_LINK_CTRL.STATE : RField := { base := 0x1203000, lsb := 1, width := 3, acc := .ro, reset := 0, n1 := 64, st1 := 0x8 }
/-- REP_LINK_CTRL.RTT_US (R305, 10_replication.md). -/
def REP_LINK_CTRL.RTT_US : RField := { base := 0x1203000, lsb := 12, width := 20, acc := .ro, reset := 0, n1 := 64, st1 := 0x8 }
/-- PRG_CTRL.EN (R328, 11_programs_at_the_flash.md). -/
def PRG_CTRL.EN : RField := { base := 0x1300000, lsb := 0, width := 1, acc := .rw, reset := 0 }
/-- PRG_CTRL.TAP_EN (R328, 11_programs_at_the_flash.md). -/
def PRG_CTRL.TAP_EN : RField := { base := 0x1300000, lsb := 1, width := 1, acc := .rw, reset := 0 }
/-- PRG_TABLE_BASE.BASE (R328, 11_programs_at_the_flash.md). -/
def PRG_TABLE_BASE.BASE : RField := { base := 0x1300008, lsb := 0, width := 64, acc := .rwl, reset := 0, wide := true }
/-- PRG_STORE_BASE.BASE (R328, 11_programs_at_the_flash.md). -/
def PRG_STORE_BASE.BASE : RField := { base := 0x1300010, lsb := 0, width := 64, acc := .rwl, reset := 0, wide := true }
/-- PRG_SLOTMAP_BASE.BASE (R328, 11_programs_at_the_flash.md). -/
def PRG_SLOTMAP_BASE.BASE : RField := { base := 0x1300018, lsb := 0, width := 64, acc := .rwl, reset := 0, wide := true }
/-- PRG_RESULT_BASE.BASE (R328, 11_programs_at_the_flash.md). -/
def PRG_RESULT_BASE.BASE : RField := { base := 0x1300020, lsb := 0, width := 64, acc := .rwl, reset := 0, wide := true }
/-- PRG_RESULT_SIZE.GIB (R328, 11_programs_at_the_flash.md). -/
def PRG_RESULT_SIZE.GIB : RField := { base := 0x1300028, lsb := 0, width := 7, acc := .rwl, reset := 8, legal := .range 1 64 }
/-- PRG_ACCT_BASE.BASE (R328, 11_programs_at_the_flash.md). -/
def PRG_ACCT_BASE.BASE : RField := { base := 0x1300030, lsb := 0, width := 64, acc := .rwl, reset := 0, wide := true }
/-- PRG_RUN_LIMIT.DEFAULT_MS (R328, 11_programs_at_the_flash.md). -/
def PRG_RUN_LIMIT.DEFAULT_MS : RField := { base := 0x1300038, lsb := 0, width := 16, acc := .rw, reset := 0xea60, legal := .range 1 65535 }
/-- PRG_RUN_LIMIT.DEFAULT_RESULT_MIB (R328, 11_programs_at_the_flash.md). -/
def PRG_RUN_LIMIT.DEFAULT_RESULT_MIB : RField := { base := 0x1300038, lsb := 16, width := 16, acc := .rw, reset := 64, legal := .range 1 65535 }
/-- PRG_RESULT_KEEP.KEEP_S (R328, 11_programs_at_the_flash.md). -/
def PRG_RESULT_KEEP.KEEP_S : RField := { base := 0x130003c, lsb := 0, width := 16, acc := .rw, reset := 0x258, legal := .range 1 65535 }
/-- PRG_TILE_INSERVICE.TILES (R328, 11_programs_at_the_flash.md). -/
def PRG_TILE_INSERVICE.TILES : RField := { base := 0x1300040, lsb := 0, width := 32, acc := .ro, reset := 0xffffffff }
/-- PRG_TILE_FENCED.TILES (R328, 11_programs_at_the_flash.md). -/
def PRG_TILE_FENCED.TILES : RField := { base := 0x1300044, lsb := 0, width := 32, acc := .ro, reset := 0 }
/-- PRG_TILE_BUSY.TILES (R328, 11_programs_at_the_flash.md). -/
def PRG_TILE_BUSY.TILES : RField := { base := 0x1300048, lsb := 0, width := 32, acc := .ro, reset := 0 }
/-- PRG_RUNS.RUNNING (R328, 11_programs_at_the_flash.md). -/
def PRG_RUNS.RUNNING : RField := { base := 0x1300050, lsb := 0, width := 13, acc := .ro, reset := 0 }
/-- PRG_RUNS.HOLDING (R328, 11_programs_at_the_flash.md). -/
def PRG_RUNS.HOLDING : RField := { base := 0x1300050, lsb := 16, width := 13, acc := .ro, reset := 0 }
/-- PRG_TAP_SKIP.COUNT (R328, 11_programs_at_the_flash.md). -/
def PRG_TAP_SKIP.COUNT : RField := { base := 0x1300058, lsb := 0, width := 32, acc := .rc, reset := 0 }
/-- PRG_ACCT_CLEAR.TENANT (R328, 11_programs_at_the_flash.md). -/
def PRG_ACCT_CLEAR.TENANT : RField := { base := 0x1300060, lsb := 0, width := 12, acc := .wo, reset := 0 }
/-- PRG_ACCT_CLEAR.GO (R328, 11_programs_at_the_flash.md). -/
def PRG_ACCT_CLEAR.GO : RField := { base := 0x1300060, lsb := 12, width := 1, acc := .wo, reset := 0 }
/-- PRG_ACCT_CLEAR.ALL (R328, 11_programs_at_the_flash.md). -/
def PRG_ACCT_CLEAR.ALL : RField := { base := 0x1300060, lsb := 13, width := 1, acc := .wo, reset := 0 }
/-- PRG_SETUP_LOCK.LOCK (R328, 11_programs_at_the_flash.md). -/
def PRG_SETUP_LOCK.LOCK : RField := { base := 0x1300ffc, lsb := 0, width := 1, acc := .wo, reset := 0 }
/-- PRG_TENANT_CFG.MAX_TILES (R328, 11_programs_at_the_flash.md). -/
def PRG_TENANT_CFG.MAX_TILES : RField := { base := 0x1310000, lsb := 0, width := 6, acc := .rw, reset := 8, legal := .clamp 32, n1 := 4096, st1 := 0x4 }
/-- XRN_CTRL.EN (R358, 12_ring_cascade_and_time.md). -/
def XRN_CTRL.EN : RField := { base := 0x1000000, lsb := 0, width := 1, acc := .rw, reset := 0 }
/-- XRN_CTRL.LEAVE (R358, 12_ring_cascade_and_time.md). -/
def XRN_CTRL.LEAVE : RField := { base := 0x1000000, lsb := 1, width := 1, acc := .wo, reset := 0 }
/-- XRN_TOPO.KIND (R358, 12_ring_cascade_and_time.md). -/
def XRN_TOPO.KIND : RField := { base := 0x1000008, lsb := 0, width := 2, acc := .rwl, reset := 0, legal := .range 0 2 }
/-- XRN_TOPO.GATHER_MS (R358, 12_ring_cascade_and_time.md). -/
def XRN_TOPO.GATHER_MS : RField := { base := 0x1000008, lsb := 2, width := 14, acc := .rwl, reset := 100, legal := .range 1 10000 }
/-- XRN_TOPO.RESERVE_S (R358, 12_ring_cascade_and_time.md). -/
def XRN_TOPO.RESERVE_S : RField := { base := 0x1000008, lsb := 16, width := 16, acc := .rwl, reset := 0x258 }
/-- XRN_PORT_CFG.SPLIT (R358, 12_ring_cascade_and_time.md). -/
def XRN_PORT_CFG.SPLIT : RField := { base := 0x1000010, lsb := 0, width := 1, acc := .rwl, reset := 0, n1 := 2, st1 := 0x8 }
/-- XRN_PORT_CFG.TX_INVERT (R358, 12_ring_cascade_and_time.md). -/
def XRN_PORT_CFG.TX_INVERT : RField := { base := 0x1000010, lsb := 8, width := 8, acc := .rwl, reset := 0, n1 := 2, st1 := 0x8 }
/-- XRN_PORT_CFG.RX_INVERT (R358, 12_ring_cascade_and_time.md). -/
def XRN_PORT_CFG.RX_INVERT : RField := { base := 0x1000010, lsb := 16, width := 8, acc := .rwl, reset := 0, n1 := 2, st1 := 0x8 }
/-- XRN_LINK_STATUS.STATE (R358, 12_ring_cascade_and_time.md). -/
def XRN_LINK_STATUS.STATE : RField := { base := 0x1000040, lsb := 0, width := 3, acc := .ro, reset := 0, n1 := 4, st1 := 0x8 }
/-- XRN_LINK_STATUS.NARROW (R358, 12_ring_cascade_and_time.md). -/
def XRN_LINK_STATUS.NARROW : RField := { base := 0x1000040, lsb := 3, width := 1, acc := .ro, reset := 0, n1 := 4, st1 := 0x8 }
/-- XRN_LINK_STATUS.PEER (R358, 12_ring_cascade_and_time.md). -/
def XRN_LINK_STATUS.PEER : RField := { base := 0x1000040, lsb := 4, width := 1, acc := .ro, reset := 0, n1 := 4, st1 := 0x8 }
/-- XRN_LINK_STATUS.CHANGE (R358, 12_ring_cascade_and_time.md). -/
def XRN_LINK_STATUS.CHANGE : RField := { base := 0x1000040, lsb := 5, width := 1, acc := .w1c, reset := 0, n1 := 4, st1 := 0x8 }
/-- XRN_LINK_STATUS.MINOR (R358, 12_ring_cascade_and_time.md). -/
def XRN_LINK_STATUS.MINOR : RField := { base := 0x1000040, lsb := 8, width := 8, acc := .ro, reset := 0, n1 := 4, st1 := 0x8 }
/-- XRN_LINK_DELAY.DELAY (R358, 12_ring_cascade_and_time.md). -/
def XRN_LINK_DELAY.DELAY : RField := { base := 0x1000060, lsb := 0, width := 32, acc := .ro, reset := 0, n1 := 4, st1 := 0x8 }
/-- XRN_LINK_ASYM.ASYM (R358, 12_ring_cascade_and_time.md). -/
def XRN_LINK_ASYM.ASYM : RField := { base := 0x1000080, lsb := 0, width := 16, acc := .rwl, reset := 0, n1 := 4, st1 := 0x8 }
/-- XRN_LINK_RETRY.REPLAYS (R358, 12_ring_cascade_and_time.md). -/
def XRN_LINK_RETRY.REPLAYS : RField := { base := 0x10000a0, lsb := 0, width := 16, acc := .rc, reset := 0, n1 := 4, st1 := 0x8 }
/-- XRN_LINK_RETRY.RETRAINS (R358, 12_ring_cascade_and_time.md). -/
def XRN_LINK_RETRY.RETRAINS : RField := { base := 0x10000a0, lsb := 16, width := 16, acc := .rc, reset := 0, n1 := 4, st1 := 0x8 }
/-- XRN_ADDR.REQUEST (R358, 12_ring_cascade_and_time.md). -/
def XRN_ADDR.REQUEST : RField := { base := 0x1000100, lsb := 0, width := 12, acc := .rwl, reset := 0 }
/-- XRN_ADDR.ASSIGNED (R358, 12_ring_cascade_and_time.md). -/
def XRN_ADDR.ASSIGNED : RField := { base := 0x1000100, lsb := 16, width := 12, acc := .ro, reset := 0 }
/-- XRN_ADDR.VALID (R358, 12_ring_cascade_and_time.md). -/
def XRN_ADDR.VALID : RField := { base := 0x1000100, lsb := 28, width := 1, acc := .ro, reset := 0 }
/-- XRN_ADDR.STATE (R358, 12_ring_cascade_and_time.md). -/
def XRN_ADDR.STATE : RField := { base := 0x1000100, lsb := 29, width := 3, acc := .ro, reset := 0 }
/-- XRN_ROLE.KEEPER_STRAP (R358, 12_ring_cascade_and_time.md); reset: strap. -/
def XRN_ROLE.KEEPER_STRAP : RField := { base := 0x1000104, lsb := 0, width := 1, acc := .ro, reset := 0 }
/-- XRN_ROLE.DEPUTY_EN (R358, 12_ring_cascade_and_time.md); reset: strap. -/
def XRN_ROLE.DEPUTY_EN : RField := { base := 0x1000104, lsb := 1, width := 1, acc := .rwl, reset := 0 }
/-- XRN_ROLE.IS_KEEPER (R358, 12_ring_cascade_and_time.md). -/
def XRN_ROLE.IS_KEEPER : RField := { base := 0x1000104, lsb := 2, width := 1, acc := .ro, reset := 0 }
/-- XRN_TERM.TERM (R358, 12_ring_cascade_and_time.md). -/
def XRN_TERM.TERM : RField := { base := 0x1000108, lsb := 0, width := 32, acc := .ro, reset := 0 }
/-- XRN_KEEPER_ID.ID (R358, 12_ring_cascade_and_time.md). -/
def XRN_KEEPER_ID.ID : RField := { base := 0x1000110, lsb := 0, width := 64, acc := .ro, reset := 0, wide := true }
/-- XRN_DEVICE_ID.ID (R358, 12_ring_cascade_and_time.md). -/
def XRN_DEVICE_ID.ID : RField := { base := 0x1000118, lsb := 0, width := 64, acc := .ro, reset := 0, wide := true }
/-- XRN_DEVICES.COUNT (R358, 12_ring_cascade_and_time.md). -/
def XRN_DEVICES.COUNT : RField := { base := 0x1000120, lsb := 0, width := 13, acc := .ro, reset := 0 }
/-- XRN_DEVICES.DEPTH (R358, 12_ring_cascade_and_time.md). -/
def XRN_DEVICES.DEPTH : RField := { base := 0x1000120, lsb := 16, width := 5, acc := .ro, reset := 0 }
/-- XRN_VERSION.MAJOR (R358, 12_ring_cascade_and_time.md). -/
def XRN_VERSION.MAJOR : RField := { base := 0x1000128, lsb := 0, width := 8, acc := .ro, reset := 1 }
/-- XRN_VERSION.MIN_MINOR (R358, 12_ring_cascade_and_time.md). -/
def XRN_VERSION.MIN_MINOR : RField := { base := 0x1000128, lsb := 8, width := 8, acc := .ro, reset := 0 }
/-- XRN_VERSION.MAX_MINOR (R358, 12_ring_cascade_and_time.md). -/
def XRN_VERSION.MAX_MINOR : RField := { base := 0x1000128, lsb := 16, width := 8, acc := .ro, reset := 2 }
/-- XRN_VERSION.CASCADE_MINOR (R358, 12_ring_cascade_and_time.md). -/
def XRN_VERSION.CASCADE_MINOR : RField := { base := 0x1000128, lsb := 24, width := 8, acc := .ro, reset := 0 }
/-- XRN_FEATURES.BITS (R358, 12_ring_cascade_and_time.md). -/
def XRN_FEATURES.BITS : RField := { base := 0x1000130, lsb := 0, width := 64, acc := .ro, reset := 15, wide := true }
/-- XRN_FEATURES_CASCADE.BITS (R358, 12_ring_cascade_and_time.md). -/
def XRN_FEATURES_CASCADE.BITS : RField := { base := 0x1000138, lsb := 0, width := 64, acc := .ro, reset := 0, wide := true }
/-- XRN_DIR_BASE.BASE (R358, 12_ring_cascade_and_time.md). -/
def XRN_DIR_BASE.BASE : RField := { base := 0x1000140, lsb := 0, width := 64, acc := .rwl, reset := 0, wide := true }
/-- XRN_DROP.PARTIAL (R358, 12_ring_cascade_and_time.md). -/
def XRN_DROP.PARTIAL : RField := { base := 0x1000148, lsb := 0, width := 8, acc := .rc, reset := 0 }
/-- XRN_DROP.HOPS (R358, 12_ring_cascade_and_time.md). -/
def XRN_DROP.HOPS : RField := { base := 0x1000148, lsb := 8, width := 8, acc := .rc, reset := 0 }
/-- XRN_DROP.KIND (R358, 12_ring_cascade_and_time.md). -/
def XRN_DROP.KIND : RField := { base := 0x1000148, lsb := 16, width := 8, acc := .rc, reset := 0 }
/-- XRN_DROP.VERSION (R358, 12_ring_cascade_and_time.md). -/
def XRN_DROP.VERSION : RField := { base := 0x1000148, lsb := 24, width := 8, acc := .rc, reset := 0 }
/-- XRN_TIME.TICKS (R358, 12_ring_cascade_and_time.md). -/
def XRN_TIME.TICKS : RField := { base := 0x1000200, lsb := 0, width := 64, acc := .ro, reset := 0, wide := true }
/-- XRN_TIME_STATUS.LOCK (R358, 12_ring_cascade_and_time.md). -/
def XRN_TIME_STATUS.LOCK : RField := { base := 0x1000208, lsb := 0, width := 1, acc := .ro, reset := 0 }
/-- XRN_TIME_STATUS.HOLDOVER (R358, 12_ring_cascade_and_time.md). -/
def XRN_TIME_STATUS.HOLDOVER : RField := { base := 0x1000208, lsb := 1, width := 1, acc := .ro, reset := 0 }
/-- XRN_TIME_STATUS.OFFSET (R358, 12_ring_cascade_and_time.md). -/
def XRN_TIME_STATUS.OFFSET : RField := { base := 0x1000208, lsb := 16, width := 16, acc := .ro, reset := 0 }
/-- XRN_TIME_TRIM.PPB (R358, 12_ring_cascade_and_time.md). -/
def XRN_TIME_TRIM.PPB : RField := { base := 0x1000210, lsb := 0, width := 24, acc := .rw, reset := 0, legal := .signedAbs 24 100000 }
/-- XRN_TIME_CEILING.TICKS (R358, 12_ring_cascade_and_time.md). -/
def XRN_TIME_CEILING.TICKS : RField := { base := 0x1000218, lsb := 0, width := 64, acc := .ro, reset := 0, wide := true }
/-- XRN_SETUP_LOCK.LOCK (R358, 12_ring_cascade_and_time.md). -/
def XRN_SETUP_LOCK.LOCK : RField := { base := 0x1000ffc, lsb := 0, width := 1, acc := .wo, reset := 0 }
/-- OWN_CTRL.EN (R380, 13_ownership_and_takeover.md). -/
def OWN_CTRL.EN : RField := { base := 0x1100000, lsb := 0, width := 1, acc := .rw, reset := 0 }
/-- OWN_CTRL.FORCE (R380, 13_ownership_and_takeover.md). -/
def OWN_CTRL.FORCE : RField := { base := 0x1100000, lsb := 1, width := 1, acc := .wo, reset := 0 }
/-- OWN_HB_CFG.PF_HOLDOFF_US (R380, 13_ownership_and_takeover.md). -/
def OWN_HB_CFG.PF_HOLDOFF_US : RField := { base := 0x1100008, lsb := 0, width := 10, acc := .rwl, reset := 100, legal := .range 10 1000 }
/-- OWN_HB_CFG.STUCK_US (R380, 13_ownership_and_takeover.md). -/
def OWN_HB_CFG.STUCK_US : RField := { base := 0x1100008, lsb := 16, width := 10, acc := .rwl, reset := 0x1f4, legal := .range 100 1000 }
/-- OWN_STATE.PEER (R380, 13_ownership_and_takeover.md). -/
def OWN_STATE.PEER : RField := { base := 0x1100010, lsb := 0, width := 3, acc := .ro, reset := 0 }
/-- OWN_STATE.WITNESS_HELD (R380, 13_ownership_and_takeover.md). -/
def OWN_STATE.WITNESS_HELD : RField := { base := 0x1100010, lsb := 3, width := 1, acc := .ro, reset := 0 }
/-- OWN_STATE.CONTESTING (R380, 13_ownership_and_takeover.md). -/
def OWN_STATE.CONTESTING : RField := { base := 0x1100010, lsb := 4, width := 1, acc := .ro, reset := 0 }
/-- OWN_TERM.TERM (R380, 13_ownership_and_takeover.md). -/
def OWN_TERM.TERM : RField := { base := 0x1100018, lsb := 0, width := 32, acc := .ro, reset := 0 }
/-- OWN_WITNESS_CFG.COUNT (R380, 13_ownership_and_takeover.md). -/
def OWN_WITNESS_CFG.COUNT : RField := { base := 0x1100020, lsb := 0, width := 4, acc := .rwl, reset := 7, legal := .odd 3 15 }
/-- OWN_WITNESS_LEAF.LEAF (R380, 13_ownership_and_takeover.md). -/
def OWN_WITNESS_LEAF.LEAF : RField := { base := 0x1100040, lsb := 0, width := 9, acc := .ro, reset := 0, n1 := 15, st1 := 0x4 }
/-- OWN_WITNESS_LEAF.VALID (R380, 13_ownership_and_takeover.md). -/
def OWN_WITNESS_LEAF.VALID : RField := { base := 0x1100040, lsb := 9, width := 1, acc := .ro, reset := 0, n1 := 15, st1 := 0x4 }
/-- OWN_WITNESS_LEAF.WON (R380, 13_ownership_and_takeover.md). -/
def OWN_WITNESS_LEAF.WON : RField := { base := 0x1100040, lsb := 10, width := 1, acc := .ro, reset := 0, n1 := 15, st1 := 0x4 }
/-- OWN_TAKEOVER_STAT.LAST_CYCLES (R380, 13_ownership_and_takeover.md). -/
def OWN_TAKEOVER_STAT.LAST_CYCLES : RField := { base := 0x1100080, lsb := 0, width := 21, acc := .ro, reset := 0 }
/-- OWN_TAKEOVER_STAT.COUNT (R380, 13_ownership_and_takeover.md). -/
def OWN_TAKEOVER_STAT.COUNT : RField := { base := 0x1100080, lsb := 24, width := 8, acc := .ro, reset := 0 }
/-- OWN_MOVE.GROUP (R380, 13_ownership_and_takeover.md). -/
def OWN_MOVE.GROUP : RField := { base := 0x1100100, lsb := 0, width := 10, acc := .wo, reset := 0 }
/-- OWN_MOVE.GO (R380, 13_ownership_and_takeover.md). -/
def OWN_MOVE.GO : RField := { base := 0x1100100, lsb := 10, width := 1, acc := .wo, reset := 0 }
/-- OWN_MOVE_RESULT.STATUS (R380, 13_ownership_and_takeover.md). -/
def OWN_MOVE_RESULT.STATUS : RField := { base := 0x1100104, lsb := 0, width := 16, acc := .ro, reset := 0 }
/-- OWN_MOVE_RESULT.BUSY (R380, 13_ownership_and_takeover.md). -/
def OWN_MOVE_RESULT.BUSY : RField := { base := 0x1100104, lsb := 16, width := 1, acc := .ro, reset := 0 }
/-- OWN_HEALTH.SELF_READY (R380, 13_ownership_and_takeover.md). -/
def OWN_HEALTH.SELF_READY : RField := { base := 0x1100110, lsb := 0, width := 1, acc := .ro, reset := 0 }
/-- OWN_HEALTH.PEER_READY (R380, 13_ownership_and_takeover.md). -/
def OWN_HEALTH.PEER_READY : RField := { base := 0x1100110, lsb := 1, width := 1, acc := .ro, reset := 0 }
/-- OWN_HEALTH.LAG_US (R380, 13_ownership_and_takeover.md). -/
def OWN_HEALTH.LAG_US : RField := { base := 0x1100110, lsb := 16, width := 16, acc := .ro, reset := 0 }
/-- OWN_SCRUB_CFG.PERIOD_S (R380, 13_ownership_and_takeover.md). -/
def OWN_SCRUB_CFG.PERIOD_S : RField := { base := 0x1100118, lsb := 0, width := 16, acc := .rw, reset := 0xe10, legal := .range 1 65535 }
/-- OWN_SCRUB_STAT.REPAIRED (R380, 13_ownership_and_takeover.md). -/
def OWN_SCRUB_STAT.REPAIRED : RField := { base := 0x110011c, lsb := 0, width := 16, acc := .rc, reset := 0 }
/-- OWN_SCRUB_STAT.PROGRESS (R380, 13_ownership_and_takeover.md). -/
def OWN_SCRUB_STAT.PROGRESS : RField := { base := 0x110011c, lsb := 16, width := 10, acc := .ro, reset := 0 }
/-- OWN_SETUP_LOCK.LOCK (R380, 13_ownership_and_takeover.md). -/
def OWN_SETUP_LOCK.LOCK : RField := { base := 0x1100ffc, lsb := 0, width := 1, acc := .wo, reset := 0 }
/-- OWN_GROUP_CFG.HOME (R380, 13_ownership_and_takeover.md). -/
def OWN_GROUP_CFG.HOME : RField := { base := 0x1101000, lsb := 0, width := 1, acc := .rwl, reset := 0, n1 := 1024, st1 := 0x4 }
/-- OWN_GROUP_CFG.OWNER (R380, 13_ownership_and_takeover.md). -/
def OWN_GROUP_CFG.OWNER : RField := { base := 0x1101000, lsb := 1, width := 1, acc := .ro, reset := 0, n1 := 1024, st1 := 0x4 }
/-- OWN_GROUP_CFG.STATE (R380, 13_ownership_and_takeover.md). -/
def OWN_GROUP_CFG.STATE : RField := { base := 0x1101000, lsb := 2, width := 2, acc := .ro, reset := 0, n1 := 1024, st1 := 0x4 }
/-- OWN_GROUP_CFG.GEN (R380, 13_ownership_and_takeover.md). -/
def OWN_GROUP_CFG.GEN : RField := { base := 0x1101000, lsb := 16, width := 16, acc := .ro, reset := 0, n1 := 1024, st1 := 0x4 }
/-- CHI_ABI.MAJOR (R416, 14_control_host_interface.md). -/
def CHI_ABI.MAJOR : RField := { base := 0x600000, lsb := 0, width := 8, acc := .ro, reset := 1 }
/-- CHI_ABI.MIN_MINOR (R416, 14_control_host_interface.md). -/
def CHI_ABI.MIN_MINOR : RField := { base := 0x600000, lsb := 8, width := 8, acc := .ro, reset := 0 }
/-- CHI_ABI.MAX_MINOR (R416, 14_control_host_interface.md). -/
def CHI_ABI.MAX_MINOR : RField := { base := 0x600000, lsb := 16, width := 8, acc := .ro, reset := 2 }
/-- CHI_MGR_SQ_BASE.BASE (R416, 14_control_host_interface.md). -/
def CHI_MGR_SQ_BASE.BASE : RField := { base := 0x600008, lsb := 0, width := 64, acc := .rwl, reset := 0, wide := true }
/-- CHI_MGR_CQ_BASE.BASE (R416, 14_control_host_interface.md). -/
def CHI_MGR_CQ_BASE.BASE : RField := { base := 0x600010, lsb := 0, width := 64, acc := .rwl, reset := 0, wide := true }
/-- CHI_MGR_CFG.SQ_LOG2 (R416, 14_control_host_interface.md). -/
def CHI_MGR_CFG.SQ_LOG2 : RField := { base := 0x600018, lsb := 0, width := 5, acc := .rwl, reset := 8, legal := .range 4 16 }
/-- CHI_MGR_CFG.CQ_LOG2 (R416, 14_control_host_interface.md). -/
def CHI_MGR_CFG.CQ_LOG2 : RField := { base := 0x600018, lsb := 8, width := 5, acc := .rwl, reset := 8, legal := .range 5 16 }
/-- CHI_MGR_CFG.RINGS (R416, 14_control_host_interface.md). -/
def CHI_MGR_CFG.RINGS : RField := { base := 0x600018, lsb := 16, width := 7, acc := .rwl, reset := 4, legal := .range 1 64 }
/-- CHI_MGR_CFG.VECTORS (R416, 14_control_host_interface.md). -/
def CHI_MGR_CFG.VECTORS : RField := { base := 0x600018, lsb := 24, width := 8, acc := .rwl, reset := 16, legal := .range 1 255 }
/-- CHI_MGR_CTRL.EN (R416, 14_control_host_interface.md). -/
def CHI_MGR_CTRL.EN : RField := { base := 0x600020, lsb := 0, width := 1, acc := .rw, reset := 0 }
/-- CHI_POOL_FREE.RINGS (R416, 14_control_host_interface.md). -/
def CHI_POOL_FREE.RINGS : RField := { base := 0x600028, lsb := 0, width := 14, acc := .ro, reset := 0x2000, wide := true }
/-- CHI_POOL_FREE.CHANNELS (R416, 14_control_host_interface.md). -/
def CHI_POOL_FREE.CHANNELS : RField := { base := 0x600028, lsb := 16, width := 7, acc := .ro, reset := 64, wide := true }
/-- CHI_POOL_FREE.VECTORS (R416, 14_control_host_interface.md). -/
def CHI_POOL_FREE.VECTORS : RField := { base := 0x600028, lsb := 32, width := 13, acc := .ro, reset := 0x1000, wide := true }
/-- CHI_POOL_CREDITS.FREE (R416, 14_control_host_interface.md). -/
def CHI_POOL_CREDITS.FREE : RField := { base := 0x600030, lsb := 0, width := 19, acc := .ro, reset := 0x40000 }
/-- CHI_DB_ERR.COUNT (R416, 14_control_host_interface.md). -/
def CHI_DB_ERR.COUNT : RField := { base := 0x600038, lsb := 0, width := 32, acc := .rc, reset := 0 }
/-- CHI_EVT_DROP.COUNT (R416, 14_control_host_interface.md). -/
def CHI_EVT_DROP.COUNT : RField := { base := 0x60003c, lsb := 0, width := 32, acc := .rc, reset := 0 }
/-- CHI_FRAME_DROP.COUNT (R416, 14_control_host_interface.md). -/
def CHI_FRAME_DROP.COUNT : RField := { base := 0x600040, lsb := 0, width := 32, acc := .rc, reset := 0 }
/-- CHI_LINK.SPEED (R416, 14_control_host_interface.md). -/
def CHI_LINK.SPEED : RField := { base := 0x600048, lsb := 0, width := 3, acc := .ro, reset := 0 }
/-- CHI_LINK.WIDTH (R416, 14_control_host_interface.md). -/
def CHI_LINK.WIDTH : RField := { base := 0x600048, lsb := 4, width := 5, acc := .ro, reset := 0 }
/-- CHI_LINK.FLIT (R416, 14_control_host_interface.md). -/
def CHI_LINK.FLIT : RField := { base := 0x600048, lsb := 9, width := 1, acc := .ro, reset := 0 }
/-- CHI_LINK.UP (R416, 14_control_host_interface.md). -/
def CHI_LINK.UP : RField := { base := 0x600048, lsb := 10, width := 1, acc := .ro, reset := 0 }
/-- CHI_SETUP_LOCK.LOCK (R416, 14_control_host_interface.md). -/
def CHI_SETUP_LOCK.LOCK : RField := { base := 0x600ffc, lsb := 0, width := 1, acc := .wo, reset := 0 }
/-- CHI_SLICE_STATE.STATE (R416, 14_control_host_interface.md). -/
def CHI_SLICE_STATE.STATE : RField := { base := 0x601000, lsb := 0, width := 3, acc := .ro, reset := 0, wide := true, n1 := 1024, st1 := 0x8 }
/-- CHI_SLICE_STATE.PASID (R416, 14_control_host_interface.md). -/
def CHI_SLICE_STATE.PASID : RField := { base := 0x601000, lsb := 8, width := 20, acc := .ro, reset := 0, wide := true, n1 := 1024, st1 := 0x8 }
/-- CHI_SLICE_STATE.MINOR (R416, 14_control_host_interface.md). -/
def CHI_SLICE_STATE.MINOR : RField := { base := 0x601000, lsb := 32, width := 8, acc := .ro, reset := 0, wide := true, n1 := 1024, st1 := 0x8 }
/-- DMA_CTRL.EN (R417, 14_control_host_interface.md). -/
def DMA_CTRL.EN : RField := { base := 0x700000, lsb := 0, width := 1, acc := .rw, reset := 1 }
/-- DMA_CFG.INFLIGHT (R417, 14_control_host_interface.md). -/
def DMA_CFG.INFLIGHT : RField := { base := 0x700004, lsb := 0, width := 4, acc := .rwl, reset := 8, legal := .range 1 8 }
/-- DMA_BYTES.BYTES (R417, 14_control_host_interface.md). -/
def DMA_BYTES.BYTES : RField := { base := 0x700008, lsb := 0, width := 64, acc := .rc, reset := 0, wide := true }
/-- DMA_SETUP_LOCK.LOCK (R417, 14_control_host_interface.md). -/
def DMA_SETUP_LOCK.LOCK : RField := { base := 0x700ffc, lsb := 0, width := 1, acc := .wo, reset := 0 }
/-- DMA_CH_OWNER.SLICE (R417, 14_control_host_interface.md). -/
def DMA_CH_OWNER.SLICE : RField := { base := 0x701000, lsb := 0, width := 10, acc := .ro, reset := 0, n1 := 64, st1 := 0x40 }
/-- DMA_CH_OWNER.ASSIGNED (R417, 14_control_host_interface.md). -/
def DMA_CH_OWNER.ASSIGNED : RField := { base := 0x701000, lsb := 10, width := 1, acc := .ro, reset := 0, n1 := 64, st1 := 0x40 }
/-- DMA_CH_CFG.PRIO (R417, 14_control_host_interface.md). -/
def DMA_CH_CFG.PRIO : RField := { base := 0x701004, lsb := 0, width := 2, acc := .rw, reset := 1, n1 := 64, st1 := 0x40 }
/-- DMA_CH_CTRL.PAUSE (R417, 14_control_host_interface.md). -/
def DMA_CH_CTRL.PAUSE : RField := { base := 0x701008, lsb := 0, width := 1, acc := .wo, reset := 0, n1 := 64, st1 := 0x40 }
/-- DMA_CH_CTRL.RESUME (R417, 14_control_host_interface.md). -/
def DMA_CH_CTRL.RESUME : RField := { base := 0x701008, lsb := 1, width := 1, acc := .wo, reset := 0, n1 := 64, st1 := 0x40 }
/-- DMA_CH_CTRL.WITHDRAW (R417, 14_control_host_interface.md). -/
def DMA_CH_CTRL.WITHDRAW : RField := { base := 0x701008, lsb := 2, width := 1, acc := .wo, reset := 0, n1 := 64, st1 := 0x40 }
/-- DMA_CH_STATUS.STATE (R417, 14_control_host_interface.md). -/
def DMA_CH_STATUS.STATE : RField := { base := 0x70100c, lsb := 0, width := 3, acc := .ro, reset := 0, n1 := 64, st1 := 0x40 }
/-- DMA_CH_STATUS.QUEUED (R417, 14_control_host_interface.md). -/
def DMA_CH_STATUS.QUEUED : RField := { base := 0x70100c, lsb := 8, width := 16, acc := .ro, reset := 0, n1 := 64, st1 := 0x40 }
/-- DMA_CH_DONE.BYTES (R417, 14_control_host_interface.md). -/
def DMA_CH_DONE.BYTES : RField := { base := 0x701010, lsb := 0, width := 64, acc := .ro, reset := 0, wide := true, n1 := 64, st1 := 0x40 }
/-- SQR_BUDGET.TOKENS (R440, 15_power_clocks_and_margins.md); reset: strap. -/
def SQR_BUDGET.TOKENS : RField := { base := 0x100000, lsb := 0, width := 12, acc := .rw, reset := 0 }
/-- SQR_BUDGET.STRAP_TOKENS (R440, 15_power_clocks_and_margins.md); reset: strap. -/
def SQR_BUDGET.STRAP_TOKENS : RField := { base := 0x100000, lsb := 16, width := 12, acc := .ro, reset := 0 }
/-- SQR_EFFECTIVE.TOKENS (R440, 15_power_clocks_and_margins.md); reset: strap. -/
def SQR_EFFECTIVE.TOKENS : RField := { base := 0x100008, lsb := 0, width := 12, acc := .ro, reset := 0 }
/-- SQR_EFFECTIVE.LIMITER (R440, 15_power_clocks_and_margins.md). -/
def SQR_EFFECTIVE.LIMITER : RField := { base := 0x100008, lsb := 16, width := 2, acc := .ro, reset := 0 }
/-- SQR_GRANTED.TOKENS (R440, 15_power_clocks_and_margins.md). -/
def SQR_GRANTED.TOKENS : RField := { base := 0x100010, lsb := 0, width := 12, acc := .ro, reset := 0 }
/-- SQR_GRANTED.PEAK (R440, 15_power_clocks_and_margins.md). -/
def SQR_GRANTED.PEAK : RField := { base := 0x100010, lsb := 16, width := 12, acc := .rc, reset := 0 }
/-- SQR_RAMP.TOKENS_PER_US (R440, 15_power_clocks_and_margins.md). -/
def SQR_RAMP.TOKENS_PER_US : RField := { base := 0x100018, lsb := 0, width := 8, acc := .rwl, reset := 64, legal := .range 8 255 }
/-- SQR_VIN.MV (R440, 15_power_clocks_and_margins.md). -/
def SQR_VIN.MV : RField := { base := 0x100020, lsb := 0, width := 16, acc := .ro, reset := 0 }
/-- SQR_VIN.POWER (R440, 15_power_clocks_and_margins.md). -/
def SQR_VIN.POWER : RField := { base := 0x100020, lsb := 16, width := 13, acc := .ro, reset := 0 }
/-- SQR_TRIM.TOKENS (R440, 15_power_clocks_and_margins.md). -/
def SQR_TRIM.TOKENS : RField := { base := 0x100024, lsb := 0, width := 12, acc := .ro, reset := 0 }
/-- SQR_WAIT.COUNT (R440, 15_power_clocks_and_margins.md). -/
def SQR_WAIT.COUNT : RField := { base := 0x100028, lsb := 0, width := 32, acc := .rc, reset := 0 }
/-- SQR_DRAIN_US.US (R440, 15_power_clocks_and_margins.md). -/
def SQR_DRAIN_US.US : RField := { base := 0x100030, lsb := 0, width := 12, acc := .rwl, reset := 200, legal := .range 10 4000 }
/-- SQR_Q_CMD.QUARTER (R440, 15_power_clocks_and_margins.md). -/
def SQR_Q_CMD.QUARTER : RField := { base := 0x100038, lsb := 0, width := 6, acc := .wo, reset := 0 }
/-- SQR_Q_CMD.OP (R440, 15_power_clocks_and_margins.md). -/
def SQR_Q_CMD.OP : RField := { base := 0x100038, lsb := 6, width := 2, acc := .wo, reset := 0 }
/-- SQR_Q_CMD.GO (R440, 15_power_clocks_and_margins.md). -/
def SQR_Q_CMD.GO : RField := { base := 0x100038, lsb := 8, width := 1, acc := .wo, reset := 0 }
/-- SQR_Q_RESULT.STATUS (R440, 15_power_clocks_and_margins.md). -/
def SQR_Q_RESULT.STATUS : RField := { base := 0x10003c, lsb := 0, width := 16, acc := .ro, reset := 0 }
/-- SQR_Q_RESULT.BUSY (R440, 15_power_clocks_and_margins.md). -/
def SQR_Q_RESULT.BUSY : RField := { base := 0x10003c, lsb := 16, width := 1, acc := .ro, reset := 0 }
/-- SQR_SETUP_LOCK.LOCK (R440, 15_power_clocks_and_margins.md). -/
def SQR_SETUP_LOCK.LOCK : RField := { base := 0x100ffc, lsb := 0, width := 1, acc := .wo, reset := 0 }
/-- SQR_Q_STATE.STATE (R440, 15_power_clocks_and_margins.md). -/
def SQR_Q_STATE.STATE : RField := { base := 0x101000, lsb := 0, width := 3, acc := .ro, reset := 0, n1 := 42, st1 := 0x8 }
/-- SQR_Q_STATE.FENCED (R440, 15_power_clocks_and_margins.md). -/
def SQR_Q_STATE.FENCED : RField := { base := 0x101000, lsb := 3, width := 1, acc := .ro, reset := 0, n1 := 42, st1 := 0x8 }
/-- SQR_Q_STATE.HELD (R440, 15_power_clocks_and_margins.md). -/
def SQR_Q_STATE.HELD : RField := { base := 0x101000, lsb := 16, width := 12, acc := .ro, reset := 0, n1 := 42, st1 := 0x8 }
/-- TMP_CFG.DERATE_C (R441, 15_power_clocks_and_margins.md). -/
def TMP_CFG.DERATE_C : RField := { base := 0x200000, lsb := 0, width := 8, acc := .rwl, reset := 140, legal := .range 100 145 }
/-- TMP_CFG.DERATE_STEP (R441, 15_power_clocks_and_margins.md). -/
def TMP_CFG.DERATE_STEP : RField := { base := 0x200000, lsb := 8, width := 8, acc := .rwl, reset := 80, legal := .range 8 255 }
/-- TMP_CFG.CRIT_C (R441, 15_power_clocks_and_margins.md). -/
def TMP_CFG.CRIT_C : RField := { base := 0x200000, lsb := 16, width := 8, acc := .rwl, reset := 150, legal := .range 0 150 }
/-- TMP_MAX.TEMP (R441, 15_power_clocks_and_margins.md). -/
def TMP_MAX.TEMP : RField := { base := 0x200008, lsb := 0, width := 16, acc := .ro, reset := 0 }
/-- TMP_MAX.SENSOR (R441, 15_power_clocks_and_margins.md). -/
def TMP_MAX.SENSOR : RField := { base := 0x200008, lsb := 16, width := 6, acc := .ro, reset := 0 }
/-- TMP_STATUS.STATE (R441, 15_power_clocks_and_margins.md). -/
def TMP_STATUS.STATE : RField := { base := 0x20000c, lsb := 0, width := 2, acc := .ro, reset := 0 }
/-- TMP_STATUS.LAST_TRIP (R441, 15_power_clocks_and_margins.md). -/
def TMP_STATUS.LAST_TRIP : RField := { base := 0x20000c, lsb := 2, width := 1, acc := .ro, reset := 0 }
/-- TMP_PEAK.TEMP (R441, 15_power_clocks_and_margins.md). -/
def TMP_PEAK.TEMP : RField := { base := 0x200010, lsb := 0, width := 16, acc := .rc, reset := 0 }
/-- TMP_SENSOR.TEMP (R441, 15_power_clocks_and_margins.md). -/
def TMP_SENSOR.TEMP : RField := { base := 0x200100, lsb := 0, width := 16, acc := .ro, reset := 0, n1 := 64, st1 := 0x4 }
/-- TMP_SENSOR.OUT (R441, 15_power_clocks_and_margins.md). -/
def TMP_SENSOR.OUT : RField := { base := 0x200100, lsb := 16, width := 1, acc := .ro, reset := 0, n1 := 64, st1 := 0x4 }
/-- TMP_AGE_CFG.INTERVAL_MIN (R441, 15_power_clocks_and_margins.md). -/
def TMP_AGE_CFG.INTERVAL_MIN : RField := { base := 0x200200, lsb := 0, width := 11, acc := .rwl, reset := 10, legal := .range 1 1440 }
/-- TMP_AGE_CFG.TARGET_PS (R441, 15_power_clocks_and_margins.md). -/
def TMP_AGE_CFG.TARGET_PS : RField := { base := 0x200200, lsb := 12, width := 8, acc := .rwl, reset := 25, legal := .range 5 100 }
/-- TMP_AGE_CFG.PLAN_EN (R441, 15_power_clocks_and_margins.md). -/
def TMP_AGE_CFG.PLAN_EN : RField := { base := 0x200200, lsb := 20, width := 1, acc := .rw, reset := 1 }
/-- TMP_AGE_STAT.RAISES (R441, 15_power_clocks_and_margins.md). -/
def TMP_AGE_STAT.RAISES : RField := { base := 0x200208, lsb := 0, width := 16, acc := .rc, reset := 0 }
/-- TMP_AGE_STAT.CANARY (R441, 15_power_clocks_and_margins.md). -/
def TMP_AGE_STAT.CANARY : RField := { base := 0x200208, lsb := 16, width := 16, acc := .rc, reset := 0 }
/-- TMP_SETUP_LOCK.LOCK (R441, 15_power_clocks_and_margins.md). -/
def TMP_SETUP_LOCK.LOCK : RField := { base := 0x200ffc, lsb := 0, width := 1, acc := .wo, reset := 0 }
/-- TMP_AGE.VOLT (R441, 15_power_clocks_and_margins.md). -/
def TMP_AGE.VOLT : RField := { base := 0x201000, lsb := 0, width := 5, acc := .ro, reset := 10, n1 := 42, st1 := 0x8 }
/-- TMP_AGE.SLACK_PS (R441, 15_power_clocks_and_margins.md). -/
def TMP_AGE.SLACK_PS : RField := { base := 0x201000, lsb := 8, width := 8, acc := .ro, reset := 0, n1 := 42, st1 := 0x8 }
/-- TMP_AGE.SHIFT (R441, 15_power_clocks_and_margins.md). -/
def TMP_AGE.SHIFT : RField := { base := 0x201000, lsb := 16, width := 5, acc := .ro, reset := 0, n1 := 42, st1 := 0x8 }
/-- TMP_AGE.MARGIN_LOW (R441, 15_power_clocks_and_margins.md). -/
def TMP_AGE.MARGIN_LOW : RField := { base := 0x201000, lsb := 21, width := 1, acc := .ro, reset := 0, n1 := 42, st1 := 0x8 }
/-- TMP_AGE.CANARY (R441, 15_power_clocks_and_margins.md). -/
def TMP_AGE.CANARY : RField := { base := 0x201000, lsb := 22, width := 1, acc := .w1c, reset := 0, n1 := 42, st1 := 0x8 }
/-- BOOT_STRAPS.HEAD (R459, 16_boot_and_firmware_update.md); reset: strap. -/
def BOOT_STRAPS.HEAD : RField := { base := 0x300000, lsb := 0, width := 1, acc := .ro, reset := 0 }
/-- BOOT_STRAPS.KEEPER (R459, 16_boot_and_firmware_update.md); reset: strap. -/
def BOOT_STRAPS.KEEPER : RField := { base := 0x300000, lsb := 1, width := 1, acc := .ro, reset := 0 }
/-- BOOT_STRAPS.DEPUTY (R459, 16_boot_and_firmware_update.md); reset: strap. -/
def BOOT_STRAPS.DEPUTY : RField := { base := 0x300000, lsb := 2, width := 1, acc := .ro, reset := 0 }
/-- BOOT_STRAPS.BOOT (R459, 16_boot_and_firmware_update.md); reset: strap. -/
def BOOT_STRAPS.BOOT : RField := { base := 0x300000, lsb := 3, width := 2, acc := .ro, reset := 0 }
/-- BOOT_STRAPS.BUDGET (R459, 16_boot_and_firmware_update.md); reset: strap. -/
def BOOT_STRAPS.BUDGET : RField := { base := 0x300000, lsb := 5, width := 3, acc := .ro, reset := 0 }
/-- BOOT_STRAPS.ETHMODE (R459, 16_boot_and_firmware_update.md); reset: strap. -/
def BOOT_STRAPS.ETHMODE : RField := { base := 0x300000, lsb := 8, width := 2, acc := .ro, reset := 0 }
/-- BOOT_STRAPS.LEAFRATE (R459, 16_boot_and_firmware_update.md); reset: strap. -/
def BOOT_STRAPS.LEAFRATE : RField := { base := 0x300000, lsb := 10, width := 1, acc := .ro, reset := 0 }
/-- BOOT_STRAPS.SECURE (R459, 16_boot_and_firmware_update.md); reset: strap. -/
def BOOT_STRAPS.SECURE : RField := { base := 0x300000, lsb := 11, width := 1, acc := .ro, reset := 0 }
/-- BOOT_STRAPS.TESTLOCK (R459, 16_boot_and_firmware_update.md); reset: strap. -/
def BOOT_STRAPS.TESTLOCK : RField := { base := 0x300000, lsb := 12, width := 1, acc := .ro, reset := 0 }
/-- BOOT_STRAPS.DDRDPC (R459, 16_boot_and_firmware_update.md); reset: strap. -/
def BOOT_STRAPS.DDRDPC : RField := { base := 0x300000, lsb := 13, width := 1, acc := .ro, reset := 0 }
/-- BOOT_STATUS.STAGE (R459, 16_boot_and_firmware_update.md). -/
def BOOT_STATUS.STAGE : RField := { base := 0x300008, lsb := 0, width := 3, acc := .ro, reset := 0 }
/-- BOOT_STATUS.RUNNING_SLOT (R459, 16_boot_and_firmware_update.md). -/
def BOOT_STATUS.RUNNING_SLOT : RField := { base := 0x300008, lsb := 3, width := 1, acc := .ro, reset := 0 }
/-- BOOT_STATUS.CONFIRMED_SLOT (R459, 16_boot_and_firmware_update.md). -/
def BOOT_STATUS.CONFIRMED_SLOT : RField := { base := 0x300008, lsb := 4, width := 1, acc := .ro, reset := 0 }
/-- BOOT_STATUS.PENDING (R459, 16_boot_and_firmware_update.md). -/
def BOOT_STATUS.PENDING : RField := { base := 0x300008, lsb := 5, width := 1, acc := .ro, reset := 0 }
/-- BOOT_STATUS.TRIAL (R459, 16_boot_and_firmware_update.md). -/
def BOOT_STATUS.TRIAL : RField := { base := 0x300008, lsb := 6, width := 1, acc := .ro, reset := 0 }
/-- BOOT_STATUS.SOURCE (R459, 16_boot_and_firmware_update.md). -/
def BOOT_STATUS.SOURCE : RField := { base := 0x300008, lsb := 8, width := 2, acc := .ro, reset := 0 }
/-- BOOT_STATUS.LAST_FAIL (R459, 16_boot_and_firmware_update.md). -/
def BOOT_STATUS.LAST_FAIL : RField := { base := 0x300008, lsb := 16, width := 16, acc := .ro, reset := 0 }
/-- BOOT_VERSION.VERSION (R459, 16_boot_and_firmware_update.md). -/
def BOOT_VERSION.VERSION : RField := { base := 0x300010, lsb := 0, width := 64, acc := .ro, reset := 0, wide := true }
/-- BOOT_SVN.FUSED (R459, 16_boot_and_firmware_update.md); reset: fuse. -/
def BOOT_SVN.FUSED : RField := { base := 0x300018, lsb := 0, width := 8, acc := .ro, reset := 0 }
/-- BOOT_SVN.RUNNING (R459, 16_boot_and_firmware_update.md). -/
def BOOT_SVN.RUNNING : RField := { base := 0x300018, lsb := 8, width := 8, acc := .ro, reset := 0 }
/-- BOOT_SVN.REVOKED (R459, 16_boot_and_firmware_update.md); reset: fuse. -/
def BOOT_SVN.REVOKED : RField := { base := 0x300018, lsb := 16, width := 4, acc := .ro, reset := 0 }
/-- BOOT_FW_BASE.BASE (R459, 16_boot_and_firmware_update.md). -/
def BOOT_FW_BASE.BASE : RField := { base := 0x300020, lsb := 0, width := 64, acc := .rwl, reset := 0, wide := true }
/-- BOOT_STAGE_LEN.BYTES (R459, 16_boot_and_firmware_update.md). -/
def BOOT_STAGE_LEN.BYTES : RField := { base := 0x300028, lsb := 0, width := 25, acc := .rw, reset := 0, legal := .range 0 25165824 }
/-- BOOT_CMD.OP (R459, 16_boot_and_firmware_update.md). -/
def BOOT_CMD.OP : RField := { base := 0x300030, lsb := 0, width := 3, acc := .wo, reset := 0 }
/-- BOOT_CMD.KEYSET (R459, 16_boot_and_firmware_update.md). -/
def BOOT_CMD.KEYSET : RField := { base := 0x300030, lsb := 3, width := 2, acc := .wo, reset := 0 }
/-- BOOT_CMD.GO (R459, 16_boot_and_firmware_update.md). -/
def BOOT_CMD.GO : RField := { base := 0x300030, lsb := 5, width := 1, acc := .wo, reset := 0 }
/-- BOOT_RESULT.STATUS (R459, 16_boot_and_firmware_update.md). -/
def BOOT_RESULT.STATUS : RField := { base := 0x300034, lsb := 0, width := 16, acc := .ro, reset := 0 }
/-- BOOT_RESULT.BUSY (R459, 16_boot_and_firmware_update.md). -/
def BOOT_RESULT.BUSY : RField := { base := 0x300034, lsb := 16, width := 1, acc := .ro, reset := 0 }
/-- BOOT_RESULT.PROGRESS (R459, 16_boot_and_firmware_update.md). -/
def BOOT_RESULT.PROGRESS : RField := { base := 0x300034, lsb := 20, width := 10, acc := .ro, reset := 0 }
/-- BOOT_CONFIRM.WINDOW_S (R459, 16_boot_and_firmware_update.md). -/
def BOOT_CONFIRM.WINDOW_S : RField := { base := 0x300038, lsb := 0, width := 16, acc := .rw, reset := 0x258, legal := .range 60 65535 }
/-- BOOT_CONFIRM.REMAINING_S (R459, 16_boot_and_firmware_update.md). -/
def BOOT_CONFIRM.REMAINING_S : RField := { base := 0x300038, lsb := 16, width := 16, acc := .ro, reset := 0 }
/-- BOOT_CFG.SERVE_EN (R459, 16_boot_and_firmware_update.md). -/
def BOOT_CFG.SERVE_EN : RField := { base := 0x300040, lsb := 0, width := 1, acc := .rw, reset := 0 }
/-- BOOT_RCV_ADDR.ADDR (R459, 16_boot_and_firmware_update.md). -/
def BOOT_RCV_ADDR.ADDR : RField := { base := 0x300080, lsb := 0, width := 64, acc := .rw, reset := 0, wide := true, legal := .aligned 4096 }
/-- BOOT_RCV_LEN.BYTES (R459, 16_boot_and_firmware_update.md). -/
def BOOT_RCV_LEN.BYTES : RField := { base := 0x300088, lsb := 0, width := 25, acc := .rw, reset := 0 }
/-- BOOT_RCV_CMD.GO (R459, 16_boot_and_firmware_update.md). -/
def BOOT_RCV_CMD.GO : RField := { base := 0x30008c, lsb := 0, width := 1, acc := .wo, reset := 0 }
/-- BOOT_SETUP_LOCK.LOCK (R459, 16_boot_and_firmware_update.md). -/
def BOOT_SETUP_LOCK.LOCK : RField := { base := 0x300ffc, lsb := 0, width := 1, acc := .wo, reset := 0 }
/-- TST_CMD.QUARTER (R475, 17_self_test_sparing_and_records.md). -/
def TST_CMD.QUARTER : RField := { base := 0x500000, lsb := 0, width := 6, acc := .wo, reset := 0 }
/-- TST_CMD.UNIT (R475, 17_self_test_sparing_and_records.md). -/
def TST_CMD.UNIT : RField := { base := 0x500000, lsb := 6, width := 5, acc := .wo, reset := 0 }
/-- TST_CMD.OP (R475, 17_self_test_sparing_and_records.md). -/
def TST_CMD.OP : RField := { base := 0x500000, lsb := 11, width := 3, acc := .wo, reset := 0 }
/-- TST_CMD.FORCE (R475, 17_self_test_sparing_and_records.md). -/
def TST_CMD.FORCE : RField := { base := 0x500000, lsb := 14, width := 1, acc := .wo, reset := 0 }
/-- TST_CMD.GO (R475, 17_self_test_sparing_and_records.md). -/
def TST_CMD.GO : RField := { base := 0x500000, lsb := 15, width := 1, acc := .wo, reset := 0 }
/-- TST_RESULT.STATUS (R475, 17_self_test_sparing_and_records.md). -/
def TST_RESULT.STATUS : RField := { base := 0x500004, lsb := 0, width := 16, acc := .ro, reset := 0 }
/-- TST_RESULT.BUSY (R475, 17_self_test_sparing_and_records.md). -/
def TST_RESULT.BUSY : RField := { base := 0x500004, lsb := 16, width := 1, acc := .ro, reset := 0 }
/-- TST_CFG.ROTATE_DAYS (R475, 17_self_test_sparing_and_records.md). -/
def TST_CFG.ROTATE_DAYS : RField := { base := 0x500008, lsb := 0, width := 8, acc := .rw, reset := 7 }
/-- TST_CFG.STANDBY_H (R475, 17_self_test_sparing_and_records.md). -/
def TST_CFG.STANDBY_H : RField := { base := 0x500008, lsb := 8, width := 8, acc := .rw, reset := 24, legal := .range 1 255 }
/-- TST_SAVE_BASE.BASE (R475, 17_self_test_sparing_and_records.md). -/
def TST_SAVE_BASE.BASE : RField := { base := 0x500010, lsb := 0, width := 64, acc := .rwl, reset := 0, wide := true }
/-- TST_SETUP_LOCK.LOCK (R475, 17_self_test_sparing_and_records.md). -/
def TST_SETUP_LOCK.LOCK : RField := { base := 0x500ffc, lsb := 0, width := 1, acc := .wo, reset := 0 }
/-- TST_QSTAT.ROLE (R475, 17_self_test_sparing_and_records.md); reset: per R18. -/
def TST_QSTAT.ROLE : RField := { base := 0x501000, lsb := 0, width := 2, acc := .ro, reset := 0, n1 := 42, st1 := 0x8 }
/-- TST_QSTAT.LAST_PASS (R475, 17_self_test_sparing_and_records.md). -/
def TST_QSTAT.LAST_PASS : RField := { base := 0x501000, lsb := 2, width := 1, acc := .ro, reset := 0, n1 := 42, st1 := 0x8 }
/-- TST_QSTAT.TESTS (R475, 17_self_test_sparing_and_records.md). -/
def TST_QSTAT.TESTS : RField := { base := 0x501000, lsb := 16, width := 16, acc := .ro, reset := 0, n1 := 42, st1 := 0x8 }
/-- EVT_CTRL.EN (R476, 17_self_test_sparing_and_records.md). -/
def EVT_CTRL.EN : RField := { base := 0x400000, lsb := 0, width := 1, acc := .rw, reset := 1 }
/-- EVT_CTRL.HIST_SWAP (R476, 17_self_test_sparing_and_records.md). -/
def EVT_CTRL.HIST_SWAP : RField := { base := 0x400000, lsb := 1, width := 1, acc := .wo, reset := 0 }
/-- EVT_RATE.PER_S (R476, 17_self_test_sparing_and_records.md). -/
def EVT_RATE.PER_S : RField := { base := 0x400004, lsb := 0, width := 8, acc := .rwl, reset := 16, legal := .range 1 255 }
/-- EVT_RATE.BURST (R476, 17_self_test_sparing_and_records.md). -/
def EVT_RATE.BURST : RField := { base := 0x400004, lsb := 8, width := 8, acc := .rwl, reset := 64, legal := .range 1 255 }
/-- EVT_STATUS.FRONT_USED (R476, 17_self_test_sparing_and_records.md). -/
def EVT_STATUS.FRONT_USED : RField := { base := 0x400008, lsb := 0, width := 13, acc := .ro, reset := 0 }
/-- EVT_STATUS.FRONT_FULL (R476, 17_self_test_sparing_and_records.md). -/
def EVT_STATUS.FRONT_FULL : RField := { base := 0x400008, lsb := 13, width := 1, acc := .ro, reset := 0 }
/-- EVT_STATUS.LOST (R476, 17_self_test_sparing_and_records.md). -/
def EVT_STATUS.LOST : RField := { base := 0x400008, lsb := 16, width := 16, acc := .rc, reset := 0 }
/-- EVT_POWER_CYCLES.COUNT (R476, 17_self_test_sparing_and_records.md). -/
def EVT_POWER_CYCLES.COUNT : RField := { base := 0x400010, lsb := 0, width := 32, acc := .ro, reset := 0 }
/-- EVT_OPSEC.SECONDS (R476, 17_self_test_sparing_and_records.md). -/
def EVT_OPSEC.SECONDS : RField := { base := 0x400018, lsb := 0, width := 64, acc := .ro, reset := 0, wide := true }
/-- EVT_READ_SEL.INDEX (R476, 17_self_test_sparing_and_records.md). -/
def EVT_READ_SEL.INDEX : RField := { base := 0x400020, lsb := 0, width := 19, acc := .rw, reset := 0 }
/-- EVT_READ_SEL.AREA (R476, 17_self_test_sparing_and_records.md). -/
def EVT_READ_SEL.AREA : RField := { base := 0x400020, lsb := 19, width := 1, acc := .rw, reset := 0 }
/-- EVT_READ_STAT.VALID (R476, 17_self_test_sparing_and_records.md). -/
def EVT_READ_STAT.VALID : RField := { base := 0x400028, lsb := 0, width := 1, acc := .ro, reset := 0 }
/-- EVT_READ_DATA.BYTES (R476, 17_self_test_sparing_and_records.md). -/
def EVT_READ_DATA.BYTES : RField := { base := 0x400100, lsb := 0, width := 64, acc := .ro, reset := 0, wide := true, n1 := 32, st1 := 0x8 }
/-- EVT_CLEAR_NONCE.NONCE (R476, 17_self_test_sparing_and_records.md). -/
def EVT_CLEAR_NONCE.NONCE : RField := { base := 0x400030, lsb := 0, width := 64, acc := .ro, reset := 0, wide := true }
/-- EVT_CLEAR_CMD.NEW_NONCE (R476, 17_self_test_sparing_and_records.md). -/
def EVT_CLEAR_CMD.NEW_NONCE : RField := { base := 0x400038, lsb := 0, width := 1, acc := .wo, reset := 0 }
/-- EVT_CLEAR_CMD.GO (R476, 17_self_test_sparing_and_records.md). -/
def EVT_CLEAR_CMD.GO : RField := { base := 0x400038, lsb := 1, width := 1, acc := .wo, reset := 0 }
/-- EVT_CLEAR_RESULT.STATUS (R476, 17_self_test_sparing_and_records.md). -/
def EVT_CLEAR_RESULT.STATUS : RField := { base := 0x40003c, lsb := 0, width := 16, acc := .ro, reset := 0 }
/-- EVT_CLEAR_RESULT.BUSY (R476, 17_self_test_sparing_and_records.md). -/
def EVT_CLEAR_RESULT.BUSY : RField := { base := 0x40003c, lsb := 16, width := 1, acc := .ro, reset := 0 }
/-- EVT_HIST_BASE.BASE (R476, 17_self_test_sparing_and_records.md). -/
def EVT_HIST_BASE.BASE : RField := { base := 0x400040, lsb := 0, width := 64, acc := .rwl, reset := 0, wide := true }
/-- EVT_HIST_STAT.SEQ (R476, 17_self_test_sparing_and_records.md). -/
def EVT_HIST_STAT.SEQ : RField := { base := 0x400048, lsb := 0, width := 32, acc := .ro, reset := 0 }
/-- EVT_CLEAR_SIG.BYTES (R476, 17_self_test_sparing_and_records.md). -/
def EVT_CLEAR_SIG.BYTES : RField := { base := 0x400200, lsb := 0, width := 64, acc := .wo, reset := 0, wide := true, n1 := 12, st1 := 0x8 }
/-- EVT_SETUP_LOCK.LOCK (R476, 17_self_test_sparing_and_records.md). -/
def EVT_SETUP_LOCK.LOCK : RField := { base := 0x400ffc, lsb := 0, width := 1, acc := .wo, reset := 0 }
/-- DDR_META_BASE.BASE (R477, 17_self_test_sparing_and_records.md). -/
def DDR_META_BASE.BASE : RField := { base := 0x1400000, lsb := 0, width := 64, acc := .rwl, reset := 0, wide := true }
/-- DDR_META_SIZE.GIB (R477, 17_self_test_sparing_and_records.md). -/
def DDR_META_SIZE.GIB : RField := { base := 0x1400008, lsb := 0, width := 12, acc := .rwl, reset := 64, legal := .range 1 3840 }
/-- DDR_CH_STATUS.STATE (R477, 17_self_test_sparing_and_records.md). -/
def DDR_CH_STATUS.STATE : RField := { base := 0x1400040, lsb := 0, width := 2, acc := .ro, reset := 0, n1 := 16, st1 := 0x8 }
/-- DDR_CH_STATUS.PARITY (R477, 17_self_test_sparing_and_records.md). -/
def DDR_CH_STATUS.PARITY : RField := { base := 0x1400040, lsb := 2, width := 1, acc := .ro, reset := 0, n1 := 16, st1 := 0x8 }
/-- DDR_CH_STATUS.UNCORR (R477, 17_self_test_sparing_and_records.md). -/
def DDR_CH_STATUS.UNCORR : RField := { base := 0x1400040, lsb := 16, width := 16, acc := .rc, reset := 0, n1 := 16, st1 := 0x8 }
/-- OLD_ID.PART (R485, 18_register_index.md). -/
def OLD_ID.PART : RField := { base := 0x0, lsb := 0, width := 16, acc := .ro, reset := 0x9640 }
/-- OLD_ID.STEPPING (R485, 18_register_index.md); reset: fuse. -/
def OLD_ID.STEPPING : RField := { base := 0x0, lsb := 16, width := 8, acc := .ro, reset := 0 }
/-- OLD_LOCK_STATUS.LOCKED (R485, 18_register_index.md). -/
def OLD_LOCK_STATUS.LOCKED : RField := { base := 0x8, lsb := 1, width := 21, acc := .ro, reset := 0 }
/-- OLD_LOCK_FAULT.BLOCK (R485, 18_register_index.md). -/
def OLD_LOCK_FAULT.BLOCK : RField := { base := 0x10, lsb := 0, width := 5, acc := .ro, reset := 0 }
/-- OLD_LOCK_FAULT.OFFSET (R485, 18_register_index.md). -/
def OLD_LOCK_FAULT.OFFSET : RField := { base := 0x10, lsb := 8, width := 12, acc := .ro, reset := 0 }
/-- OLD_LOCK_FAULT.CAUSE (R485, 18_register_index.md). -/
def OLD_LOCK_FAULT.CAUSE : RField := { base := 0x10, lsb := 20, width := 3, acc := .ro, reset := 0 }
/-- OLD_LOCK_FAULT.VALID (R485, 18_register_index.md). -/
def OLD_LOCK_FAULT.VALID : RField := { base := 0x10, lsb := 31, width := 1, acc := .w1c, reset := 0 }
/-- OLD_RESET_CAUSE.PART (R485, 18_register_index.md); reset: per cause. -/
def OLD_RESET_CAUSE.PART : RField := { base := 0x18, lsb := 0, width := 2, acc := .ro, reset := 0 }
/-- OLD_RESET_CAUSE.FUNC (R485, 18_register_index.md). -/
def OLD_RESET_CAUSE.FUNC : RField := { base := 0x18, lsb := 8, width := 1, acc := .w1c, reset := 0 }

/-- The fields of block OLD. -/
def fieldsOLD : List RField :=
  [OLD_ID.PART, OLD_ID.STEPPING, OLD_LOCK_STATUS.LOCKED, OLD_LOCK_FAULT.BLOCK, OLD_LOCK_FAULT.OFFSET, OLD_LOCK_FAULT.CAUSE, OLD_LOCK_FAULT.VALID, OLD_RESET_CAUSE.PART, OLD_RESET_CAUSE.FUNC]

/-- The fields of block SQR. -/
def fieldsSQR : List RField :=
  [SQR_BUDGET.TOKENS, SQR_BUDGET.STRAP_TOKENS, SQR_EFFECTIVE.TOKENS, SQR_EFFECTIVE.LIMITER, SQR_GRANTED.TOKENS, SQR_GRANTED.PEAK, SQR_RAMP.TOKENS_PER_US, SQR_VIN.MV, SQR_VIN.POWER, SQR_TRIM.TOKENS, SQR_WAIT.COUNT, SQR_DRAIN_US.US, SQR_Q_CMD.QUARTER, SQR_Q_CMD.OP, SQR_Q_CMD.GO, SQR_Q_RESULT.STATUS, SQR_Q_RESULT.BUSY, SQR_SETUP_LOCK.LOCK, SQR_Q_STATE.STATE, SQR_Q_STATE.FENCED, SQR_Q_STATE.HELD]

/-- The fields of block TMP. -/
def fieldsTMP : List RField :=
  [TMP_CFG.DERATE_C, TMP_CFG.DERATE_STEP, TMP_CFG.CRIT_C, TMP_MAX.TEMP, TMP_MAX.SENSOR, TMP_STATUS.STATE, TMP_STATUS.LAST_TRIP, TMP_PEAK.TEMP, TMP_SENSOR.TEMP, TMP_SENSOR.OUT, TMP_AGE_CFG.INTERVAL_MIN, TMP_AGE_CFG.TARGET_PS, TMP_AGE_CFG.PLAN_EN, TMP_AGE_STAT.RAISES, TMP_AGE_STAT.CANARY, TMP_SETUP_LOCK.LOCK, TMP_AGE.VOLT, TMP_AGE.SLACK_PS, TMP_AGE.SHIFT, TMP_AGE.MARGIN_LOW, TMP_AGE.CANARY]

/-- The fields of block BOOT. -/
def fieldsBOOT : List RField :=
  [BOOT_STRAPS.HEAD, BOOT_STRAPS.KEEPER, BOOT_STRAPS.DEPUTY, BOOT_STRAPS.BOOT, BOOT_STRAPS.BUDGET, BOOT_STRAPS.ETHMODE, BOOT_STRAPS.LEAFRATE, BOOT_STRAPS.SECURE, BOOT_STRAPS.TESTLOCK, BOOT_STRAPS.DDRDPC, BOOT_STATUS.STAGE, BOOT_STATUS.RUNNING_SLOT, BOOT_STATUS.CONFIRMED_SLOT, BOOT_STATUS.PENDING, BOOT_STATUS.TRIAL, BOOT_STATUS.SOURCE, BOOT_STATUS.LAST_FAIL, BOOT_VERSION.VERSION, BOOT_SVN.FUSED, BOOT_SVN.RUNNING, BOOT_SVN.REVOKED, BOOT_FW_BASE.BASE, BOOT_STAGE_LEN.BYTES, BOOT_CMD.OP, BOOT_CMD.KEYSET, BOOT_CMD.GO, BOOT_RESULT.STATUS, BOOT_RESULT.BUSY, BOOT_RESULT.PROGRESS, BOOT_CONFIRM.WINDOW_S, BOOT_CONFIRM.REMAINING_S, BOOT_CFG.SERVE_EN, BOOT_RCV_ADDR.ADDR, BOOT_RCV_LEN.BYTES, BOOT_RCV_CMD.GO, BOOT_SETUP_LOCK.LOCK]

/-- The fields of block EVT. -/
def fieldsEVT : List RField :=
  [EVT_CTRL.EN, EVT_CTRL.HIST_SWAP, EVT_RATE.PER_S, EVT_RATE.BURST, EVT_STATUS.FRONT_USED, EVT_STATUS.FRONT_FULL, EVT_STATUS.LOST, EVT_POWER_CYCLES.COUNT, EVT_OPSEC.SECONDS, EVT_READ_SEL.INDEX, EVT_READ_SEL.AREA, EVT_READ_STAT.VALID, EVT_READ_DATA.BYTES, EVT_CLEAR_NONCE.NONCE, EVT_CLEAR_CMD.NEW_NONCE, EVT_CLEAR_CMD.GO, EVT_CLEAR_RESULT.STATUS, EVT_CLEAR_RESULT.BUSY, EVT_HIST_BASE.BASE, EVT_HIST_STAT.SEQ, EVT_CLEAR_SIG.BYTES, EVT_SETUP_LOCK.LOCK]

/-- The fields of block TST. -/
def fieldsTST : List RField :=
  [TST_CMD.QUARTER, TST_CMD.UNIT, TST_CMD.OP, TST_CMD.FORCE, TST_CMD.GO, TST_RESULT.STATUS, TST_RESULT.BUSY, TST_CFG.ROTATE_DAYS, TST_CFG.STANDBY_H, TST_SAVE_BASE.BASE, TST_SETUP_LOCK.LOCK, TST_QSTAT.ROLE, TST_QSTAT.LAST_PASS, TST_QSTAT.TESTS]

/-- The fields of block CHI. -/
def fieldsCHI : List RField :=
  [CHI_ABI.MAJOR, CHI_ABI.MIN_MINOR, CHI_ABI.MAX_MINOR, CHI_MGR_SQ_BASE.BASE, CHI_MGR_CQ_BASE.BASE, CHI_MGR_CFG.SQ_LOG2, CHI_MGR_CFG.CQ_LOG2, CHI_MGR_CFG.RINGS, CHI_MGR_CFG.VECTORS, CHI_MGR_CTRL.EN, CHI_POOL_FREE.RINGS, CHI_POOL_FREE.CHANNELS, CHI_POOL_FREE.VECTORS, CHI_POOL_CREDITS.FREE, CHI_DB_ERR.COUNT, CHI_EVT_DROP.COUNT, CHI_FRAME_DROP.COUNT, CHI_LINK.SPEED, CHI_LINK.WIDTH, CHI_LINK.FLIT, CHI_LINK.UP, CHI_SETUP_LOCK.LOCK, CHI_SLICE_STATE.STATE, CHI_SLICE_STATE.PASID, CHI_SLICE_STATE.MINOR]

/-- The fields of block DMA. -/
def fieldsDMA : List RField :=
  [DMA_CTRL.EN, DMA_CFG.INFLIGHT, DMA_BYTES.BYTES, DMA_SETUP_LOCK.LOCK, DMA_CH_OWNER.SLICE, DMA_CH_OWNER.ASSIGNED, DMA_CH_CFG.PRIO, DMA_CH_CTRL.PAUSE, DMA_CH_CTRL.RESUME, DMA_CH_CTRL.WITHDRAW, DMA_CH_STATUS.STATE, DMA_CH_STATUS.QUEUED, DMA_CH_DONE.BYTES]

/-- The fields of block ETH. -/
def fieldsETH : List RField :=
  [ETH_PORT_MODE.MODE, ETH_PORT_MODE.AN_EN, ETH_PORT_MODE.MEDIUM, ETH_PORT_MODE.SUBPORT_EN, ETH_LANE_MAP.LANE_SEL, ETH_LANE_MAP.TX_INVERT, ETH_LANE_MAP.RX_INVERT, ETH_LINK_STATUS.LINK_UP, ETH_LINK_STATUS.LINK_CHANGE, ETH_LINK_STATUS.MAP_ERR, ETH_FEC_UNCORR.COUNT, ETH_PFC_CTRL.PAUSE_HONOUR, ETH_PFC_CTRL.ROCE_PRIO, ETH_PFC_CTRL.GEN_EN, ETH_PFC_CTRL.QUANTA, ETH_HOST_LIMIT.FRAMES_PER_S, ETH_MACSEC_CTRL.EN, ETH_MACSEC_CTRL.VALIDATE, ETH_MACSEC_CTRL.SEND_SCI, ETH_MACSEC_REPLAY.WINDOW, ETH_PTP_CTRL.STAMP_EN, ETH_PTP_CTRL.ONE_STEP, ETH_PTP_CTRL.L2, ETH_PTP_CTRL.UDP4, ETH_PTP_CTRL.UDP6, ETH_PTP_OFFSET.OFFSET, ETH_PTP_TX_STAMP_LO.STAMP, ETH_PTP_TX_STAMP_HI.SEQUENCE_ID, ETH_PTP_TX_STAMP_HI.MSG_TYPE, ETH_PTP_TX_STAMP_HI.DOMAIN, ETH_PTP_TX_STAMP_HI.SUBPORT, ETH_PTP_TX_STAMP_HI.OVERFLOW, ETH_PTP_TX_STAMP_HI.VALID, ETH_SETUP_LOCK.LOCK]

/-- The fields of block TRN. -/
def fieldsTRN : List RField :=
  [TRN_CTRL.STATE, TRN_CTX_BASE.BASE, TRN_CTX_COUNT.COUNT, TRN_REGION_BASE.BASE, TRN_REGION_COUNT.COUNT, TRN_WHOLE_KEY.EN, TRN_WHOLE_KEY.VARIANT, TRN_LAYBY_WM.HIGH_WM, TRN_LAYBY_WM.LOW_WM, TRN_LAYBY_QPMAX.MAX, TRN_LAYBY_USE.ROLE0_CELLS, TRN_LAYBY_USE.ROLE1_CELLS, TRN_DROP.COUNT, TRN_FETCH_STAT.FETCHES, TRN_FETCH_MAX.MAX_NS, TRN_CC_CFG.CNP_GAP, TRN_CC_CFG.DECREASE, TRN_CC_CFG.INCREASE, TRN_SETUP_LOCK.LOCK]

/-- The fields of block CMD. -/
def fieldsCMD : List RField :=
  [CMD_CTRL.DISPATCH_EN, CMD_CTRL.INIT_FW_EN, CMD_CTRL.UNMIRRORED, CMD_TAG_RESERVE.INTERNAL, CMD_TAG_RESERVE.FORWARDED, CMD_TAG_USE.IN_USE, CMD_TAG_PEAK.PEAK, CMD_INTAKE.ROLE0, CMD_INTAKE.ROLE1, CMD_INTAKE_RNR.COUNT, CMD_LOCK_USE.IN_USE, CMD_LOCK_USE.WAITING, CMD_LOCK_FULL.COUNT, CMD_ARB_CFG.INTERNAL_WEIGHT, CMD_ARB_CFG.FORWARDED_WEIGHT, CMD_HOLD.ACTIVATION, CMD_HOLD.POWER_STATE, CMD_HOLD.ANA_CHANGE, CMD_HOLD.HELD, CMD_PS_CFG.MAX_PS, CMD_PS_CFG.EFFECTIVE, CMD_ABORT_STAT.ABORTED, CMD_ABORT_STAT.NOT_ABORTED, CMD_FWD_STAT.FORWARDED, CMD_TAG_QUERY.TAG, CMD_TAG_STATE.STATE, CMD_SETUP_LOCK.LOCK, CMD_TENANT_WEIGHT.W0, CMD_TENANT_WEIGHT.W1, CMD_TENANT_WEIGHT.W2, CMD_TENANT_WEIGHT.W3]

/-- The fields of block BND. -/
def fieldsBND : List RField :=
  [BND_LANE_INSERVICE.LANES, BND_GEAR_SEED.SEED, BND_SPLIT.SEG, BND_CHUNKS.COUNT, BND_CUTS.MAXLEN, BND_CUTS.SEAM, BND_ZERO.COUNT, BND_DIGEST_FAULT.COUNT, BND_STREAM_SWITCH.COUNT, BND_DSTATE_BASE.BASE, BND_SETUP_LOCK.LOCK, BND_COMP_CFG.LEVEL, BND_COMP_CFG.MIN_SAVE, BND_COMP_STORED.COUNT, BND_COMP_BYTES_IN.BYTES, BND_COMP_BYTES_OUT.BYTES, BND_DECOMP_ERR.COUNT, BND_DECOMP_ERR.LAST, BND_SIDECH.DUMMY, BND_SIDECH.SHUFFLE, BND_CIPHER_FAULT.COUNT, BND_JOB_SHARE.PERCENT, BND_GCM_UNTRUSTED.COUNT]

/-- The fields of block DDP. -/
def fieldsDDP : List RField :=
  [DDP_CTRL.LOOKUP_EN, DDP_CTRL.RECON_EN, DDP_INDEX_BASE.BASE, DDP_FILTER_USE.TAGS, DDP_HITS.COUNT, DDP_MISSES.COUNT, DDP_FALSE_POS.COUNT, DDP_PENDING.COLLISIONS, DDP_PENDING.FULL, DDP_INSERT_SKIP.COUNT, DDP_RECON_BASE.BASE, DDP_RECON_SIZE.LOG2, DDP_RECON_FILL.ENTRIES, DDP_RECON_RATE.PER_MS, DDP_VERIFY_MATCH.COUNT, DDP_VERIFY_MISMATCH.COUNT, DDP_SETUP_LOCK.LOCK, DDP_DOMAIN_CFG.EN, DDP_DOMAIN_CFG.MODE, DDP_DOMAIN_CFG.CHUNK, DDP_DOMAIN_CFG.DIGEST, DDP_DOMAIN_CFG.VERIFY, DDP_DOMAIN_CFG.CASCADE, DDP_DOMAIN_KEYS.DIGEST_SLOT, DDP_DOMAIN_KEYS.CIPHER_SLOT, DDP_DOMAIN_HOME.HOME, DDP_DOMAIN_STAT.SWEEP_NEEDED, DDP_DOMAIN_STAT.CASCADE_OFF]

/-- The fields of block MAP. -/
def fieldsMAP : List RField :=
  [MAP_CTRL.EN, MAP_CTRL.RECLAIM_EN, MAP_NS_BASE.BASE, MAP_SNAP_BASE.BASE, MAP_DIR_BASE.BASE, MAP_DIR_COUNT.LOG2, MAP_POOL_BASE.BASE, MAP_POOL_SLOTS.SLOTS, MAP_POOL_USE.RESIDENT, MAP_PAGE_FAULTS.COUNT, MAP_RECLAIM.PAGES, MAP_CACHE_CTRL.EN, MAP_CACHE_CTRL.PREFETCH_EN, MAP_CACHE_CTRL.INV_DONE, MAP_CACHE_MAINT_ADDR.LINE, MAP_CACHE_MAINT_CMD.OP, MAP_CACHE_MAINT_CMD.BUSY, MAP_CACHE_MAINT_CMD.LINES, MAP_CACHE_HITS.COUNT, MAP_CACHE_MISSES.COUNT, MAP_CACHE_RACE.POISONED, MAP_CACHE_RACE.MERGED, MAP_CACHE_PREFETCH.ISSUED, MAP_CACHE_PREFETCH.USED, MAP_CACHE_PARITY.COUNT, MAP_SETUP_LOCK.LOCK, MAP_CG_CFG.ARMED, MAP_CG_CFG.TAKEN, MAP_CG_CFG.JOINED, MAP_CG_TIME.T]

/-- The fields of block SIG. -/
def fieldsSIG : List RField :=
  [SIG_CTRL.SEW_EN, SIG_CTRL.GC_EN, SIG_CTRL.PATROL_EN, SIG_CTRL.REBUILD_EN, SIG_LOG_COPIES.LEAF0, SIG_LOG_COPIES.VALID0, SIG_LOG_COPIES.LEAF1, SIG_LOG_COPIES.VALID1, SIG_LOG_COPIES.LEAF2, SIG_LOG_COPIES.VALID2, SIG_LOG_FILL.LIVE, SIG_ABSENT.ABSENT_S, SIG_GC_CFG.START, SIG_GC_CFG.URGENT, SIG_PATROL_RATE.PERIOD_DAYS, SIG_PATROL_RATE.DEEP, SIG_PATROL_STAT.PROGRESS, SIG_PATROL_STAT.PASSES, SIG_PATROL_FOUND.UNREADABLE, SIG_PATROL_FOUND.MISMATCH, SIG_REBUILD_RATE.GBPS, SIG_REBUILD_STAT.POOL, SIG_REBUILD_STAT.ACTIVE, SIG_REBUILD_STAT.QUIRES_LEFT, SIG_DEGRADED.COUNT, SIG_SLOW.COUNT, SIG_VOIDED.COUNT, SIG_LOST_BASE.BASE, SIG_LOST_PROD.PROD, SIG_LOST_PROD.OVERFLOW, SIG_LOST_CONS.CONS, SIG_LEAF_CMD.LEAF, SIG_LEAF_CMD.OP, SIG_LEAF_CMD.GO, SIG_LEAF_RESULT.STATUS, SIG_LEAF_RESULT.BUSY, SIG_SETUP_LOCK.LOCK, SIG_POOL_CFG.EN, SIG_POOL_CFG.WIDTH, SIG_POOL_CFG.PARITY] ++
  [SIG_POOL_CFG.EXPRESS, SIG_POOL_CFG.META, SIG_POOL_STATE.STATE, SIG_POOL_STATE.LOSS, SIG_POOL_STATE.FULL, SIG_POOL_STATE.CFG_ERR, SIG_POOL_STATE.PEER_DIFF, SIG_POOL_STATE.ABSENT, SIG_POOL_STATE.FAILED, SIG_POOL_CMD.ACCEPT_LOSS, SIG_POOL_FREE.UNITS, SIG_POOL_UNITS.UNITS, SIG_POOL_MEMBERS.LEAVES]

/-- The fields of block LFL. -/
def fieldsLFL : List RField :=
  [LFL_CTRL.PLAN_EN, LFL_CTRL.VALLEY_EN, LFL_PLAN_CFG.INTERVAL_MIN, LFL_PLAN_CFG.AGE_STEP, LFL_PLAN_CFG.DIE_LIMIT, LFL_LDPC_HARD_FAIL.COUNT, LFL_LDPC_SOFT_OK.COUNT, LFL_LDPC_UNREADABLE.COUNT, LFL_PLAN_STAT.PLANS, LFL_PLAN_STAT.REREAD, LFL_SETUP_LOCK.LOCK, LFL_LANE_CFG.EN, LFL_LANE_CFG.RATE, LFL_LANE_CFG.TX_INVERT, LFL_LANE_CFG.RX_INVERT, LFL_LANE_STATUS.STATE, LFL_LANE_STATUS.LEAVES, LFL_LANE_STATUS.OVERLONG, LFL_LANE_STATUS.CHANGE, LFL_LANE_STATUS.BREAK_AT, LFL_LANE_FEC.CORRECTED, LFL_LANE_RETRY.REPLAYS, LFL_LANE_RETRY.RETRAINS, LFL_LEAF.REACH_SELF, LFL_LEAF.REACH_PEER, LFL_LEAF.MISCABLED, LFL_LEAF.FENCED, LFL_LEAF.DIE_LIMIT, LFL_LEAF.DIES_RETIRED]

/-- The fields of block XRN. -/
def fieldsXRN : List RField :=
  [XRN_CTRL.EN, XRN_CTRL.LEAVE, XRN_TOPO.KIND, XRN_TOPO.GATHER_MS, XRN_TOPO.RESERVE_S, XRN_PORT_CFG.SPLIT, XRN_PORT_CFG.TX_INVERT, XRN_PORT_CFG.RX_INVERT, XRN_LINK_STATUS.STATE, XRN_LINK_STATUS.NARROW, XRN_LINK_STATUS.PEER, XRN_LINK_STATUS.CHANGE, XRN_LINK_STATUS.MINOR, XRN_LINK_DELAY.DELAY, XRN_LINK_ASYM.ASYM, XRN_LINK_RETRY.REPLAYS, XRN_LINK_RETRY.RETRAINS, XRN_ADDR.REQUEST, XRN_ADDR.ASSIGNED, XRN_ADDR.VALID, XRN_ADDR.STATE, XRN_ROLE.KEEPER_STRAP, XRN_ROLE.DEPUTY_EN, XRN_ROLE.IS_KEEPER, XRN_TERM.TERM, XRN_KEEPER_ID.ID, XRN_DEVICE_ID.ID, XRN_DEVICES.COUNT, XRN_DEVICES.DEPTH, XRN_VERSION.MAJOR, XRN_VERSION.MIN_MINOR, XRN_VERSION.MAX_MINOR, XRN_VERSION.CASCADE_MINOR, XRN_FEATURES.BITS, XRN_FEATURES_CASCADE.BITS, XRN_DIR_BASE.BASE, XRN_DROP.PARTIAL, XRN_DROP.HOPS, XRN_DROP.KIND, XRN_DROP.VERSION] ++
  [XRN_TIME.TICKS, XRN_TIME_STATUS.LOCK, XRN_TIME_STATUS.HOLDOVER, XRN_TIME_STATUS.OFFSET, XRN_TIME_TRIM.PPB, XRN_TIME_CEILING.TICKS, XRN_SETUP_LOCK.LOCK]

/-- The fields of block OWN. -/
def fieldsOWN : List RField :=
  [OWN_CTRL.EN, OWN_CTRL.FORCE, OWN_HB_CFG.PF_HOLDOFF_US, OWN_HB_CFG.STUCK_US, OWN_STATE.PEER, OWN_STATE.WITNESS_HELD, OWN_STATE.CONTESTING, OWN_TERM.TERM, OWN_WITNESS_CFG.COUNT, OWN_WITNESS_LEAF.LEAF, OWN_WITNESS_LEAF.VALID, OWN_WITNESS_LEAF.WON, OWN_TAKEOVER_STAT.LAST_CYCLES, OWN_TAKEOVER_STAT.COUNT, OWN_MOVE.GROUP, OWN_MOVE.GO, OWN_MOVE_RESULT.STATUS, OWN_MOVE_RESULT.BUSY, OWN_HEALTH.SELF_READY, OWN_HEALTH.PEER_READY, OWN_HEALTH.LAG_US, OWN_SCRUB_CFG.PERIOD_S, OWN_SCRUB_STAT.REPAIRED, OWN_SCRUB_STAT.PROGRESS, OWN_SETUP_LOCK.LOCK, OWN_GROUP_CFG.HOME, OWN_GROUP_CFG.OWNER, OWN_GROUP_CFG.STATE, OWN_GROUP_CFG.GEN]

/-- The fields of block REP. -/
def fieldsREP : List RField :=
  [REP_CTRL.EN, REP_ARRAY_ID.ID, REP_SET_BASE.BASE, REP_LINK_BASE.BASE, REP_LANDING_BASE.BASE, REP_LANDING_SIZE.LOG2, REP_SEND_BASE.BASE, REP_SEND_SIZE.GIB, REP_BATCH.BATCH_NS, REP_TAG_FAIL.COUNT, REP_WANTS.COUNT, REP_BYTES_OUT.BYTES, REP_BYTES_IN.BYTES, REP_SETUP_LOCK.LOCK, REP_SET_CFG.EN, REP_SET_CFG.MODE, REP_SET_CFG.ROLE, REP_SET_CFG.ON_BREAK, REP_SET_CFG.LINK, REP_SET_CFG.KEY_SLOT, REP_SET_CFG.RTT_MAX, REP_SET_TIMING.PERIOD, REP_SET_TIMING.SUSPEND_MS, REP_SET_STATE.STATE, REP_SET_STATE.STATUS, REP_SET_CMD.OP, REP_SET_APPLIED.T, REP_LINK_CTRL.EN, REP_LINK_CTRL.STATE, REP_LINK_CTRL.RTT_US]

/-- The fields of block PRG. -/
def fieldsPRG : List RField :=
  [PRG_CTRL.EN, PRG_CTRL.TAP_EN, PRG_TABLE_BASE.BASE, PRG_STORE_BASE.BASE, PRG_SLOTMAP_BASE.BASE, PRG_RESULT_BASE.BASE, PRG_RESULT_SIZE.GIB, PRG_ACCT_BASE.BASE, PRG_RUN_LIMIT.DEFAULT_MS, PRG_RUN_LIMIT.DEFAULT_RESULT_MIB, PRG_RESULT_KEEP.KEEP_S, PRG_TILE_INSERVICE.TILES, PRG_TILE_FENCED.TILES, PRG_TILE_BUSY.TILES, PRG_RUNS.RUNNING, PRG_RUNS.HOLDING, PRG_TAP_SKIP.COUNT, PRG_ACCT_CLEAR.TENANT, PRG_ACCT_CLEAR.GO, PRG_ACCT_CLEAR.ALL, PRG_SETUP_LOCK.LOCK, PRG_TENANT_CFG.MAX_TILES]

/-- The fields of block DDR. -/
def fieldsDDR : List RField :=
  [DDR_WC_BASE.BASE, DDR_WC_CFG.LIMIT_SEGS, DDR_WC_CFG.START, DDR_WC_CFG.URGENT, DDR_WC_AGE.AGE_MS, DDR_WC_DIRTY.OWN, DDR_WC_DIRTY.MIRROR, DDR_WC_META.MIB, DDR_WC_STALL.COUNT, DDR_MIR_STATE.MODE, DDR_MIR_EPOCH.EPOCH, DDR_MIR_CFG.ACK_TIMEOUT, DDR_MIR_SENT.SEQ, DDR_MIR_ACKED.SEQ, DDR_MIR_APPLIED.SEQ, DDR_MIR_RETX.COUNT, DDR_MIR_DUP.SAME_GEN, DDR_MIR_DUP.OLDER_GEN, DDR_MIR_FAULT.STALE, DDR_MIR_FAULT.REJECTED, DDR_MIR_FAULT.CRC, DDR_PF_CFG.THRESH, DDR_PF_CFG.FILTER, DDR_PF_CFG.PIN_EN, DDR_PF_CMD.DESTAGE_NOW, DDR_PF_STATUS.WARN, DDR_PF_STATUS.SOURCE, DDR_PF_STATUS.SEALED, DDR_PF_STATUS.LAST_MS, DDR_SETUP_LOCK.LOCK, DDR_META_BASE.BASE, DDR_META_SIZE.GIB, DDR_CH_STATUS.STATE, DDR_CH_STATUS.PARITY, DDR_CH_STATUS.UNCORR]

/-- The fields of block KEY. -/
def fieldsKEY : List RField :=
  [KEY_SLOT_BASE.BASE, KEY_KEK_DATA.DATA, KEY_KEK_CMD.INDEX, KEY_KEK_CMD.GO, KEY_KEK_STATUS.LOADED, KEY_UNWRAP_FAIL.COUNT, KEY_SLOTS_USED.CIPHER, KEY_SLOTS_USED.DIGEST, KEY_SLOTS_USED.DAMAGED, KEY_SETUP_LOCK.LOCK]

/-- Every field of every register table (R9, R478). -/
def all : List RField :=
  fieldsOLD ++ fieldsSQR ++ fieldsTMP ++ fieldsBOOT ++ fieldsEVT ++ fieldsTST ++ fieldsCHI ++ fieldsDMA ++ fieldsETH ++ fieldsTRN ++ fieldsCMD ++ fieldsBND ++ fieldsDDP ++ fieldsMAP ++ fieldsSIG ++ fieldsLFL ++ fieldsXRN ++ fieldsOWN ++ fieldsREP ++ fieldsPRG ++ fieldsDDR ++ fieldsKEY

end Reg
end Sys2Proof.Machine
end

