-- ==== Sys2Proof/Machine/State.lean ====
section
/-!
DEFINITION. Machine/State.lean: the state of the block as plain data, the reasons a command can stop, and reset.
Every register field of BAR0 has one home, `regs`, under the key of the field (Machine/Regs.lean); a field that is
not listed holds its reset value. Everything that is not a register field stands in the sub-structures of the chapters.
-/
namespace Sys2Proof.Machine
open Sys2Proof

/-- The reasons a command stops the block. The spec gives every row of the table an effect, so no meaning raises one:
`none` is raised by nobody (safe). -/
inductive Fault where
  /-- Raised by no command; a claim that no command faults is about the whole table (safe). -/
  | none
  deriving DecidableEq, Repr

/-- The reasons the model gives no meaning to a command. -/
inductive Refusal where
  /-- Raised by Dispatch.lean alone, for a command whose meaning is not written; it stops where the hardware goes on
  (safe). -/
  | notModelled (mnemonic : String)
  deriving DecidableEq, Repr

/-- What the register file holds besides the fields: by block, the upper half of a 64-bit RC field taken at the last lower-half read
(R502); the fields as they stood at the start of the present clock, less what a read has cleared since; and the status bits that the part has
set in this clock, set before or not (R13). -/
structure Holding where
  upper  : Table Nat := []
  seen   : Table Nat := []
  raised : Table Nat := []
  deriving DecidableEq, Repr

/-- The state of the block. -/
structure State where
  /-- The commands that wait, first in first out. -/
  pending : List Instr
  /-- The register fields that differ from their reset value, by key (R9). -/
  regs    : Table Nat
  /-- The holding register of each block (R502), and what the present clock found and raised (R13). -/
  holding : Holding
  /-- Ticks of an eighth of a nanosecond since the block's supply first rose: the model's own clock for durations. -/
  clock   : Nat
  /-- Ring time in ticks (R6). -/
  ringTime : Nat
  pins    : Pins
  fuses   : Fuses
  straps  : Straps
  power   : Power
  boot    : Boot
  test    : Test
  evt     : Recorder
  /-- The boot flash and everything in it: no reset changes it. -/
  nor     : BootFlash
  host    : HostIf
  /-- The logical ports 4n + s (R37). -/
  ports   : Table LPort
  trn     : Transport
  cmd     : CmdQuarter
  bnd     : Bindery
  ddp     : Dedup
  keys    : Keys
  wc      : Cache
  sig     : Signatures
  lfl     : LeafSide
  map     : MapSide
  rep     : Replication
  prg     : Programs
  xrn     : RingSide
  /-- The virtual channels of the ring links (R335). -/
  chan    : Channels
  own     : Ownership
  /-- What the metadata pool holds over a loss of power: no reset changes it. -/
  store   : Store
  /-- The bytes of DDR, in canonical form; an unlisted address reads as `Memory.unlisted`. -/
  mem     : List Host.Cell
  /-- The model's own: how many free values have been taken. -/
  free    : Nat
  /-- The model's own: what the part has sent, newest first. -/
  out     : List Out
  /-- Host requests that wait while the function is in D3hot (R381), oldest first. -/
  hostWait : List Out
  deriving DecidableEq, Repr

/-- The quarters right after reset (R18, R423): Old Town Active, every switched quarter Off, and the highest-numbered
quarter of the kinds with a standby in the standby role; QT1 and QS1 serve role 1 (R51, R185). A quarter not listed is Off with the active role. -/
def Quarter.resetTable : Table Quarter :=
  [(0, { state := .active }), (6, { duty := 1 }), (7, { role := .standby }), (9, { role := .standby }), (18, { role := .standby }),
   (24, { duty := 1 }), (25, { role := .standby })]

/-- The straps as the internal pull-downs give them (R495), held until the first sampling. -/
def Straps.pulledDown : Straps :=
  { head := 0, keeper := 0, deputy := 0, boot := 0, budget := 0, ethmode := 0, leafrate := 0, secure := 0, testlock := 0,
    ddrdpc := 0 }

/-- The block right after a part reset with VIN good and the straps not yet sampled (R443, R480): every register field at
its reset value, nothing stored. -/
def State.reset : State :=
  { pending := [], regs := [], holding := {}, clock := 0, ringTime := 0, pins := {}, fuses := {},
    straps := Straps.pulledDown, power := { quarters := Quarter.resetTable }, boot := {}, test := {}, evt := {},
    nor := {}, host := {}, ports := [], trn := {}, cmd := {}, bnd := {}, ddp := {}, keys := {}, wc := {}, sig := {}, lfl := {}, map := {}, rep := {}, prg := {},
    xrn := {}, chan := {}, own := {}, store := {}, mem := [],
    free := 0, out := [], hostWait := [] }

end Sys2Proof.Machine
end

