-- ==== Sys2Proof/Machine/Ops.lean ====
section
/-!
DEFINITION. Machine/Ops.lean: the named operations that the meanings share: register fields, DDR bytes, free values, what
is sent, event records, completions on descriptor rings, and fencing.
-/
namespace Sys2Proof.Machine
open Sys2Proof

/-- The answer of a command that has its effect: the next state. -/
abbrev Res := Host.Outcome State Fault Refusal

/-! Register fields -/

/-- The value of element (i, j) of a register field (R11): what was last put there, or its reset value. -/
def State.rd (s : State) (f : RField) (i : Nat := 0) (j : Nat := 0) : Nat :=
  Table.get (f.key i j) f.reset s.regs

/-- Whether a one-bit field is 1. -/
def State.on (s : State) (f : RField) (i : Nat := 0) (j : Nat := 0) : Bool := s.rd f i j == 1

/-- The state with a value put into element (i, j) of a field, taken modulo the field's width. A field at its reset value
is not listed, so equal register files are equal data. -/
def State.wr (s : State) (f : RField) (v : Nat) (i : Nat := 0) (j : Nat := 0) : State :=
  have v := v % 2 ^ f.width
  { s with regs := if v = f.reset then Table.drop (f.key i j) s.regs else Table.put (f.key i j) v s.regs }

/-- The state with a counter field raised by `n`, saturating at the largest value of its width. -/
def State.bump (s : State) (f : RField) (n : Nat := 1) (i : Nat := 0) (j : Nat := 0) : State :=
  s.wr f (satAdd f.width (s.rd f i j) n) i j

/-- The state with a peak field raised to a value it lies below. -/
def State.peak (s : State) (f : RField) (v : Nat) (i : Nat := 0) (j : Nat := 0) : State :=
  s.wr f (max (s.rd f i j) (min v (2 ^ f.width - 1))) i j

/-- The state with status bits of a field set by the part, and noted as set in this clock (R13). -/
def State.raise (s : State) (f : RField) (bits : Nat := 1) (i : Nat := 0) : State :=
  have t := s.wr f (s.rd f i ||| bits) i
  { t with holding.raised := Table.put (f.key i 0) (Table.get (f.key i 0) 0 s.holding.raised ||| bits) t.holding.raised }

/-- The bits of a field that the part has set in this clock (R13). -/
def State.raisedBits (s : State) (f : RField) (i j : Nat) : Nat := Table.get (f.key i j) 0 s.holding.raised

/-- Whether a block's set-up lock is in force (R14, R485): its bit of OLD_LOCK_STATUS.LOCKED, bit 1 first. -/
def State.locked (s : State) (block : Nat) : Bool :=
  (s.rd Reg.OLD_LOCK_STATUS.LOCKED).testBit (block - 1)

/-- Whether the firmware runs: BOOT_STATUS.STAGE is Running (R459, R478). -/
def State.running (s : State) : Bool := s.rd Reg.BOOT_STATUS.STAGE == 3

/-- Whether a block of BAR0, by its index, takes accesses: Old Town's blocks always, the others once the firmware runs (R478). -/
def State.writable (s : State) (block : Nat) : Bool := decide (block ≤ 4) || block == 6 || s.running

/-- Whether this head is head B (STRAP_HEAD, R442). -/
def State.headB (s : State) : Bool := s.straps.head == 1

/-- Whether the power-fail warning is latched (R174). -/
def State.warned (s : State) : Bool := s.on Reg.DDR_PF_STATUS.WARN

/-! Output and free values -/

/-- The state with one more thing sent. -/
def State.send (s : State) (o : Out) : State := { s with out := o :: s.out }

/-- A request to the host: in D3hot the function issues none, and it waits (R381). -/
def State.sendHost (s : State) (o : Out) : State :=
  if s.host.d3hot then { s with hostWait := s.hostWait ++ [o] } else s.send o

/-- The state with several things sent, in list order. -/
def State.sendAll (s : State) (os : List Out) : State := { s with out := os.reverse ++ s.out }

/-- A fresh free value, and the state that has taken it. -/
def State.fresh (s : State) : Nat × State := (Config.freeNat s.free, { s with free := s.free + 1 })

/-- Whether a dummy round with a wrong result can be: BND_SIDECH.DUMMY of them run beside every AES block (R156). -/
def State.dummyFails (s : State) (fault : Bool) : Bool := fault && decide (0 < s.rd Reg.BND_SIDECH.DUMMY)

/-- Whether a dummy round fails in work that no command names (R156): a free value, while dummy rounds run. -/
def State.dummyRound (s : State) : Bool × State :=
  if s.rd Reg.BND_SIDECH.DUMMY = 0 then (false, s)
  else
    let (v, s) := s.fresh
    (v.testBit 0, s)

/-! DDR bytes -/

/-- What a byte of DDR reads as that nothing has written since power-up (the assumption log names the choice). -/
def Memory.unlisted : Byte := 0

/-- The DDR byte at an address. -/
def Memory.read (m : List Host.Cell) (a : Nat) : Byte := Table.get a Memory.unlisted m

/-- DDR with one byte written, in canonical form: a byte equal to what an unlisted address reads as is not listed. -/
def Memory.write (m : List Host.Cell) (a : Nat) (b : Byte) : List Host.Cell :=
  if b = Memory.unlisted then Table.drop a m else Table.put a b m

/-- DDR with a run of bytes written from an address on. -/
def Memory.writeList (m : List Host.Cell) (a : Nat) : List Byte → List Host.Cell
  | [] => m
  | b :: r => Memory.writeList (Memory.write m a b) (a + 1) r

/-- The canonical form of the DDR bytes: addresses strictly rising, no entry equal to an unlisted byte. -/
abbrev Memory.wf (m : List Host.Cell) : Prop :=
  (m.map Prod.fst).Pairwise (· < ·) ∧ ∀ e ∈ m, e.2 ≠ Memory.unlisted

/-- Whether an address lies in the parity share of the metadata region (R465). -/
def State.inParityShare (s : State) (a : Nat) : Bool :=
  have base := s.rd Reg.DDR_META_BASE.BASE
  have size := s.rd Reg.DDR_META_SIZE.GIB * 2 ^ 30
  decide (base + size ≤ a ∧ a < base + size + size / 15)

/-- Whether an address lies in the metadata region, which its channel parity covers (R465). -/
def State.inMetadata (s : State) (a : Nat) : Bool :=
  have base := s.rd Reg.DDR_META_BASE.BASE
  decide (base ≤ a ∧ a < base + s.rd Reg.DDR_META_SIZE.GIB * 2 ^ 30)

/-- Whether an address lies in the segment tables of the write cache, which count as metadata wherever they lie (R465). -/
def State.inSegTables (s : State) (a : Nat) : Bool :=
  have base := s.rd Reg.DDR_WC_BASE.BASE + 48 * 2 ^ 30
  decide (s.rd Reg.DDR_WC_BASE.BASE ≠ 0 ∧ base ≤ a ∧ a < base + 2 ^ 22)

/-- The DDR channel of an address (R465): the metadata region lies in lines of 256 bytes across channels 0 to 14 in turn, every other address
across all 16. -/
def State.channelOf (s : State) (a : Nat) : Nat :=
  if s.inMetadata a then (a - s.rd Reg.DDR_META_BASE.BASE) / 256 % 15 else a / 256 % 16

/-- Whether an address lies on a line that a lost channel holds and parity does not rebuild (R466). -/
def State.onLostLine (s : State) (a : Nat) : Bool :=
  !s.inMetadata a && !s.inSegTables a && Table.get (s.channelOf a) .noDimm s.test.channels == .lost

/-- Whether a run of bytes touches a lost line (R466). -/
def State.touchesLost (s : State) (a n : Nat) : Bool :=
  (List.range (n / 256 + 2)).any fun k =>
    have line := (a / 256 + k) * 256
    decide (line < a + n) && s.onLostLine line

/-- The DDR address of a container in the write cache (R160): in the own region, or in the mirror region; 0 for any other place. -/
def State.cacheAddr (s : State) : Loc → Nat
  | .cache head seg _ off _ => s.rd Reg.DDR_WC_BASE.BASE + (if head = s.headB then 0 else 24 * 2 ^ 30) + seg * 2 ^ 20 + off
  | .unmapped | .zero | .flash .. | .remote .. | .lost .. | .image _ => 0

/-- Whether a container in the write cache stands on a lost line (R466). -/
def State.cacheLost (s : State) (loc : Loc) : Bool :=
  match loc with
  | .cache _ _ _ _ size => s.rd Reg.DDR_WC_BASE.BASE != 0 && s.touchesLost (s.cacheAddr loc) size
  | .unmapped | .zero | .flash .. | .remote .. | .lost .. | .image _ => false

/-- An uncorrectable read is counted for its channel (R477). -/
def State.noteUncorr (s : State) (a : Nat) : State := s.bump Reg.DDR_CH_STATUS.UNCORR 1 (s.channelOf a)

/-- The NVMe commands of a queue pair that are outstanding (R52, R80): those that hold a tag and those in intake. -/
def State.outstanding (s : State) (n : Nat) : Nat :=
  (s.cmd.tags.countP fun e => e.2.cap.qpn == n && e.2.cls == .initiator && e.2.state != .completing) +
    (s.cmd.intake0 ++ s.cmd.intake1).countP fun w => w.cap.qpn == n

/-- A row of the reconcile journal's ring (R123): the entry that stands at a place of it. -/
def State.journalRow (s : State) (k : Nat) : Option JournalEntry :=
  have size := 2 ^ s.rd Reg.DDP_RECON_SIZE.LOG2
  if size ≤ k then none else s.ddp.journal[(k + size - s.ddp.taken % size) % size]?

/-- An entry of a copy of the slot table (R154): 8,192 cipher slots, then 4,096 keyed-digest slots, sealed under the wrapping key. -/
def State.keyRow (s : State) (second : Bool) (k : Nat) : Option (List Byte) :=
  have row (x : Nat × Nat) : List Byte := hiddenBytes (s.keys.wrap + 2 ^ 64 * if second then x.2 else x.1) 256
  if k < 8192 then (Table.find k s.keys.cipher).map fun (c : CipherSlot) => row c.seals
  else if k < 12288 then (Table.find (k - 8192) s.keys.digest).map fun (d : DigestSlot) => row d.seals
  else none

/-- The namespace-table entry of a namespace as it stands (R263). -/
def State.nsRow (s : State) (nsid : Nat) : Option (List Byte) :=
  (Table.find nsid s.map.ns).map fun n => n.bytes nsid (s.map.snaps.countP fun e => e.1 / 65536 == nsid)

/-- The table entry that a metadata change concerns, as it stands (R270). -/
def State.changedRow (s : State) (op : MetaOp) : List Byte :=
  have snap (nsid id : Nat) : List Byte := ((Table.find (nsid * 65536 + id) s.map.snaps).map (Snapshot.bytes nsid id)).getD []
  match op with
  | .snapCreate nsid id _ _ | .snapDelete nsid id => snap nsid id
  | .clone _ _ nsid | .nsCreate nsid .. | .nsDelete nsid | .nsChange nsid .. | .format nsid _ => (s.nsRow nsid).getD []
  | .reservation .. => []

/-- The byte of the write-cache area at an address (R160): the own region, the peer's mirror region, and the segment tables of both. -/
def State.cacheByte (s : State) (a : Nat) : Option Byte :=
  have base := s.rd Reg.DDR_WC_BASE.BASE
  have off := a - base
  have region := 24 * 2 ^ 30
  if base = 0 ∨ a < base then none
  else if off < region then (Table.find (off / 2 ^ 20) s.wc.own).bind fun g => segByte g.recs (off % 2 ^ 20)
  else if off < 2 * region then (Table.find ((off - region) / 2 ^ 20) s.wc.mir).bind fun g => segByte g.recs (off % 2 ^ 20)
  else
    have k := (off - 2 * region) / 64
    have row : List Byte :=
      if k < 32768 then
        have g : OwnSeg := Table.get k {} s.wc.own
        segEntry g.state.code g.gen g.fill (oldestSeq g.recs)
      else
        have g : MirSeg := Table.get (k - 32768) {} s.wc.mir
        segEntry (bit g.held 0) g.gen ((g.recs.map fun r => r.off + r.len).foldl max 0) (oldestSeq g.recs)
    if off < 2 * region + 2 ^ 22 ∧ k % 32768 < 24576 then row[(off - 2 * region) % 64]? else none

/-- The byte of the map's tables at an address (R254, R255, R263, R266): the namespace table, the snapshot table with its entries in the order of
their keys (DESIGN CHOICE, log entry 123) and the search structure after it, whose form is internal, the page directory with the replica of the
peer's, and the page pool. -/
def State.mapByte (s : State) (a : Nat) : Option Byte :=
  have half := 2 ^ s.rd Reg.MAP_DIR_COUNT.LOG2
  have number (k : Nat) : Nat := if k < half then 2 * k + bit s.headB 0 else 2 * (k - half) + bit (!s.headB) 0
  have dir (k : Nat) : Option (List Byte) :=
    if k < 2 * half then some (((Table.find (number k) s.map.pages).map MapPage.entry).getD (zeros 12 ++ le 4 0xFFFFFFFF)) else none
  have pool (k : Nat) : Option (List Byte) := (s.map.pages.find? fun e => e.2.slot == some k).map fun e => e.2.bytes e.1
  have snap (k : Nat) : Option (List Byte) :=
    if k < 2 ^ 24 then (s.map.snaps[k]?).map fun e => e.2.bytes (e.1 / 65536) (e.1 % 65536)
    else if k < 2 ^ 25 then some (hiddenBytes (2 ^ 70 + k) 64)
    else none
  (areaByte (s.rd Reg.MAP_NS_BASE.BASE) 64 (fun k => s.nsRow (k + 1)) a).or <|
    (areaByte (s.rd Reg.MAP_SNAP_BASE.BASE) 64 snap a).or <|
    (areaByte (s.rd Reg.MAP_DIR_BASE.BASE) 16 dir a).or (areaByte (s.rd Reg.MAP_POOL_BASE.BASE) 4096 pool a)

/-- The byte of the tables that the part keeps in DDR at an address: the contexts at TRN_CTX_BASE, which every change is written through to (R51,
R461), the region table at TRN_REGION_BASE (R60), the index at DDP_INDEX_BASE (R116, R117), the journal at DDP_RECON_BASE (R123), the digest
states at BND_DSTATE_BASE (R111), the two copies of the slot table at KEY_SLOT_BASE (R154), the write cache at DDR_WC_BASE (R160), the copy of tag
and lock state at TST_SAVE_BASE (R461), the landing index at REP_LANDING_BASE (R295) and the map's tables (R254, R255, R263, R266). None where no
table of theirs has a row there. -/
def State.tableByte (s : State) (a : Nat) : Option Byte :=
  have ctx (n : Nat) : Option (List Byte) := (Table.find n s.trn.qps).map fun q => q.bytes n (s.outstanding n)
  have region (k : Nat) : Option (List Byte) := (Table.find k s.trn.regions).map Region.bytes
  have index (k : Nat) : Option (List Byte) := (Table.find k s.ddp.index).map IndexEntry.bytes
  have states (k : Nat) : Option (List Byte) :=
    ((Table.find k s.keys.digest).filter fun d => d.ready).map fun (d : DigestSlot) => hiddenBytes (s.keys.wrap + 2 ^ 64 * d.sealId) 512
  (areaByte (s.rd Reg.TRN_CTX_BASE.BASE) 384 ctx a).or <| (areaByte (s.rd Reg.TRN_REGION_BASE.BASE) 32 region a).or <|
    (areaByte (s.rd Reg.DDP_INDEX_BASE.BASE) 64 index a).or <|
    (areaByte (s.rd Reg.DDP_RECON_BASE.BASE) 64 (fun k => (s.journalRow k).map JournalEntry.bytes) a).or <|
    (areaByte (s.rd Reg.BND_DSTATE_BASE.BASE) 512 states a).or <|
    (areaByte (s.rd Reg.KEY_SLOT_BASE.BASE) 256 (s.keyRow false) a).or <|
    (areaByte (if s.rd Reg.KEY_SLOT_BASE.BASE = 0 then 0 else s.rd Reg.KEY_SLOT_BASE.BASE + 2 ^ 22) 256 (s.keyRow true) a).or <|
    (areaByte (s.rd Reg.TST_SAVE_BASE.BASE) 128 (fun t => (Table.find t s.cmd.tags).map fun c => hiddenBytes (8 * c.order + c.state.code) 128) a).or <|
    (areaByte (s.rd Reg.REP_LANDING_BASE.BASE) 64 (fun k => (Table.find k s.rep.landing).map Landing.bytes) a).or <|
    (s.cacheByte a).or (s.mapByte a)

/-- A DDR read by DMA or RDMA: the parity share reads as zero (R465), a table of the part as its rows are laid out, any other byte as it
was last written. -/
def State.ddrRead (s : State) (a : Nat) : Byte :=
  if s.inParityShare a then 0 else (s.tableByte a).getD (Memory.read s.mem a)

/-- A run of DDR bytes as DMA or RDMA reads it. -/
def State.ddrReadList (s : State) (a n : Nat) : List Byte := (List.range n).map fun k => s.ddrRead (a + k)

/-- A DDR write by DMA or RDMA: a byte of the parity share is not written (R465), nor one on a lost line (R466). -/
def State.ddrWrite (s : State) (a : Nat) (b : Byte) : State :=
  if s.inParityShare a || s.onLostLine a then s else { s with mem := Memory.write s.mem a b }

/-- A run of bytes that DMA or RDMA writes to DDR. -/
def State.ddrWriteList (s : State) (a : Nat) : List Byte → State
  | [] => s
  | b :: r => (s.ddrWrite a b).ddrWriteList (a + 1) r

/-! MSI-X and completion queues -/

/-- Fires a vector of the MSI-X table: a masked vector sets its pending bit (R382, R395). The function issues no request
in D3hot (R381). -/
def State.fireVector (s : State) (v : Nat) : State :=
  have e := Table.get v {} s.host.msix
  if e.masked || s.host.d3hot then { s with host.msix := Table.put v { e with pending := true } s.host.msix }
  else s.send (.msix v e.address e.data)

/-- The entries of a CQ that count towards its interrupt (R395): those without NO_IRQ. -/
def Ring.counted (r : Ring) : List (Nat × Bool × Bool) := r.waiting.filter fun e => !e.2.1

/-- Whether the interrupt condition of an armed CQ holds at a time in ticks (R395): COUNT entries wait, or the oldest has
waited TIME_US (8,000 ticks to the microsecond). -/
def Ring.due (r : Ring) (now : Nat) : Bool :=
  match r.counted with
  | [] => false
  | e :: _ => decide (r.count ≤ r.counted.length) || decide (e.1 + 8000 * r.timeUs ≤ now)

/-- The state with a slice put in place. -/
def State.setSlice (s : State) (n : Nat) (sl : Slice) : State :=
  { s with host.slices := Table.put n sl s.host.slices }

/-- The state with a ring of a slice put in place. -/
def State.setRing (s : State) (n : Nat) (sl : Slice) (ring : Nat) (r : Ring) : State :=
  s.setSlice n { sl with rings := Table.put ring r sl.rings }

/-- The slice's ring after its interrupt condition has been looked at (R395), and the vector that fires. -/
def State.pollRing (s : State) (n ring : Nat) : State :=
  match Table.find n s.host.slices with
  | none => s
  | some sl =>
    match Table.find ring sl.rings with
    | none => s
    | some r =>
      if r.armed && r.due s.clock then
        (s.setRing n sl ring { r with armed := false }).fireVector (sl.firstVector + r.vector)
      else s

/-- Writes a CQ entry of a slice's ring (R392) and looks at its interrupt: PHASE flips where the CQ wraps. -/
def State.cqWrite (s : State) (n ring cid status r0 r1 : Nat) (noIrq isEvent : Bool) : State :=
  match Table.find n s.host.slices with
  | none => s
  | some sl =>
    match Table.find ring sl.rings with
    | none => s
    | some r =>
      have size := 2 ^ r.cqLog2
      have r' := { r with
        cqTail := (r.cqTail + 1) % size
        phase := if r.cqTail + 1 = size then 1 - r.phase else r.phase
        waiting := r.waiting ++ [(s.clock, noIrq, isEvent)] }
      have s := s.setRing n sl ring r'
      (s.sendHost (.cqEntry n ring cid status r.sqHead r0 r1 r.phase)).pollRing n ring

/-- Whether the slice's rings exist, so that entries can reach it (R386, R396). -/
def Slice.live (sl : Slice) : Bool := sl.state != .free

/-- Posts an event to a slice on its CQ 0 (R396): command ID 0xFFFF_FFFF, the code as status, the detail as result 0, the
ring time as result 1 with bit 63 set when events were dropped before. Sixteen entries of CQ 0 are kept for events; an
event that finds none free is dropped and counted. An event for a slice that is gone goes to slice 0, and waits where
slice 0 is gone too (R384). -/
def State.postTo (s : State) (n code detail : Nat) : State :=
  match Table.find n s.host.slices with
  | some sl =>
    if sl.live then
      match Table.find 0 sl.rings with
      | none => s
      | some r =>
        if 16 ≤ (r.waiting.filter fun e => e.2.2).length then
          (s.setSlice n { sl with dropped := true }).bump Reg.CHI_EVT_DROP.COUNT
        else
          have s' := s.cqWrite n 0 0xFFFFFFFF code detail
            (s.ringTime % 2 ^ 63 + if sl.dropped then 2 ^ 63 else 0) false true
          { s' with host.slices := Table.modify n (fun sl => { sl with dropped := false }) s'.host.slices }
    else { s with host.held := s.host.held ++ [⟨code, detail, s.ringTime⟩] }
  | none => { s with host.held := s.host.held ++ [⟨code, detail, s.ringTime⟩] }

/-- Posts an event of an object to the slice that the object names, or to slice 0 where that slice is gone (R384, R396). -/
def State.postObject (s : State) (n code detail : Nat) : State :=
  match Table.find n s.host.slices with
  | some sl => if sl.live then s.postTo n code detail else s.postTo 0 code detail
  | none => s.postTo 0 code detail

/-! Queue pairs -/

/-- A queue-pair context; one that nothing has made is in Reset (R52, R53). -/
def State.qp (s : State) (q : Nat) : Qp := Table.get q {} s.trn.qps

/-- The state with a context put in place. -/
def State.setQp (s : State) (n : Nat) (q : Qp) : State := { s with trn.qps := Table.put n q s.trn.qps }

/-- Payload bytes of a path MTU code (R52). -/
def mtuBytes (m : Nat) : Nat := if m = 3 then 1024 else if m = 4 then 2048 else 4096

/-- The packets of a work request, or of its response. -/
def Qp.packets (q : Qp) (len : Nat) : Nat := max 1 ((len + mtuBytes q.mtu - 1) / mtuBytes q.mtu)

/-! Logical ports, MACsec and RoCEv2 packets (R41, R43, R44) -/

/-- A logical port. -/
def State.lport (s : State) (l : Nat) : LPort := Table.get l {} s.ports

/-- The state with a logical port put in place. -/
def State.setLPort (s : State) (l : Nat) (p : LPort) : State := { s with ports := Table.put l p s.ports }

/-- What MACsec does with a frame to be sent (R43, R44): it leaves as it is, it is dropped, or it is protected under an association with
a SecTAG for each frame. -/
inductive SecOutcome where
  | plain
  | drop
  | protect (a : SecAssoc) (tags : List SecOut)
  deriving DecidableEq, Repr

/-- Frames that are not EAPOL take their packet numbers on a logical port (R43, R44), each its own: an association that reaches packet number
2^62 is reported, and at 2^64 − 1 it sends no more. -/
def State.secTake (s : State) (l : Nat) (frames : Nat := 1) : SecOutcome × State :=
  if !(s.on Reg.ETH_MACSEC_CTRL.EN (l / 4)) then (.plain, s)
  else
    have p := s.lport l
    match Table.find p.txAn p.txSa with
    | none => (.drop, s)
    | some a =>
      if !a.enabled || decide (2 ^ 64 - 1 ≤ a.nextPn) then (.drop, s)
      else
        have k := min frames (2 ^ 64 - 1 - a.nextPn)
        have n := a.nextPn + k
        have tell := decide (2 ^ 62 ≤ n) && !a.reported
        have s := s.setLPort l { p with txSa := Table.put p.txAn { a with nextPn := n, reported := a.reported || tell } p.txSa }
        (.protect a ((List.range k).map fun i => { an := p.txAn, pn := a.nextPn + i, sci := s.on Reg.ETH_MACSEC_CTRL.SEND_SCI (l / 4) }),
          if tell then s.send (.saReport l p.txAn) else s)

/-! Quarters (R18) -/

/-- The kind of a quarter, by number (R18). -/
def quarterKind (q : Nat) : QuarterKind :=
  if q = 0 then .qa else if q ≤ 4 then .qe else if q ≤ 7 then .qt else if q ≤ 9 then .qc else if q ≤ 18 then .qb
  else if q ≤ 22 then .qm else if q ≤ 25 then .qs else if q ≤ 29 then .ql else if q ≤ 31 then .qg
  else if q ≤ 35 then .qd else if q ≤ 39 then .qx else .qk

/-- The quarters of a kind, in number order (R18). -/
def QuarterKind.members : QuarterKind → List Nat
  | .qa => [0] | .qe => [1, 2, 3, 4] | .qt => [5, 6, 7] | .qc => [8, 9]
  | .qb => [10, 11, 12, 13, 14, 15, 16, 17, 18] | .qm => [19, 20, 21, 22] | .qs => [23, 24, 25]
  | .ql => [26, 27, 28, 29] | .qg => [30, 31] | .qd => [32, 33, 34, 35] | .qx => [36, 37, 38, 39] | .qk => [40, 41]

/-- The active count of a kind (R18). -/
def QuarterKind.activeCount : QuarterKind → Nat
  | .qa => 1 | .qe => 4 | .qt => 2 | .qc => 1 | .qb => 8 | .qm => 4 | .qs => 2 | .ql => 4 | .qg => 2 | .qd => 4
  | .qx => 4 | .qk => 2

/-- A quarter of the state. -/
def State.quarter (s : State) (q : Nat) : Quarter := Table.get q {} s.power.quarters

/-- Whether a role of a kind is between quarters (R19, R461): its standby has been named for it and is not Active yet. -/
def State.roleGap (s : State) (k : QuarterKind) (duty : Nat) : Bool :=
  k.members.any fun q => (s.quarter q).takesFor.isSome && (s.quarter q).duty == duty && (s.quarter q).state != .active

/-! RoCEv2 packets -/

/-- The PSNs that a packet and its frames take, and the frames that it makes on the wire (R49): a READ is one frame, whatever PSNs its response
takes; what is sent again makes the frames from its first PSN on, a READ among them one. -/
def Qp.frames (q : Qp) : RoceOut → Nat
  | .readResponse b | .writeData _ _ b => q.packets b.length
  | .work w => if w.op = .read then 1 else q.packets w.length
  | .retransmit psn =>
    have span := (q.sendPsn + 2 ^ 24 - psn % 2 ^ 24) % 2 ^ 24
    span - ((q.reads.filter ReadReq.issued).map fun r => q.packets r.len - 1).sum
  | .ack _ | .nakInvalid _ | .nakAccess _ | .nakSequence _ | .rnrNak .. | .cnp | .readRequest .. | .completion .. => 1

/-- A RoCEv2 message leaves its logical port. Where MACsec protects it, each of its frames takes a packet number and its SecTAG; the frames
for which the association has no number left are dropped (R43, R44). -/
def State.wirePacket (s : State) (l n : Nat) (o : RoceOut) : State :=
  let (w, s) := s.secTake l ((s.qp n).frames o)
  match w with
  | .plain => s.send (.packet n o)
  | .drop => s
  | .protect _ tags => s.send (.secured n o l tags)

/-- Whether the RoCEv2 packets of a queue pair wait at a logical port: while ROCE_PRIO is paused there (R41), or while the QT role of the
queue pair is between quarters (R461). -/
def State.packetsWait (s : State) (l n : Nat) : Bool :=
  (s.lport l).paused.contains (s.rd Reg.ETH_PFC_CTRL.ROCE_PRIO (l / 4)) || s.roleGap .qt (n % 2)

/-- A RoCEv2 packet of a queue pair leaves its logical port, or waits (R41, R461). -/
def State.sendPacket (s : State) (n : Nat) (o : RoceOut) : State :=
  have l := (s.qp n).lport
  have p := s.lport l
  if s.packetsWait l n then s.setLPort l { p with held := p.held ++ [(n, o)] }
  else s.wirePacket l n o

/-- The RoCEv2 packets that wait at a logical port and need not any longer leave, oldest first. -/
def State.releasePackets (s : State) (l : Nat) : State :=
  have p := s.lport l
  have stay := p.held.filter fun e => s.packetsWait l e.1
  if stay.length = p.held.length then s
  else (p.held.filter fun e => !(s.packetsWait l e.1)).foldl (fun s e => s.wirePacket l e.1 e.2) (s.setLPort l { p with held := stay })

/-- The state with a packet sent on a queue pair, which takes `n` packet sequence numbers (R49); the retransmit deadline runs from
the oldest packet that is not acknowledged (R52). -/
def State.transmit (s : State) (qpn n : Nat) (o : RoceOut) : State :=
  have bump (q : Qp) : Qp := { q with
    sendPsn := (q.sendPsn + n) % 2 ^ 24
    deadline := if q.deadline = 0 then q.deadlineFrom s.ringTime else q.deadline
    pktsOut := q.pktsOut + n
    bytesOut := q.bytesOut + o.payload }
  ({ s with trn.qps := Table.modify qpn bump s.trn.qps }).sendPacket qpn o

/-! The part's own reads (R49, R57, R68) -/

/-- The staging buffers of a QT quarter, in bytes (R57). -/
def stagingBytes : Nat := 12 * 2 ^ 20

/-- The staging space that a read reserves for its whole response (R68): what it still has to return. -/
def ReadReq.space (r : ReadReq) : Nat := r.left

/-- The bytes of the chunks that lanes hold in staging for a verify, by the QT role that fetched them (R125, R126). -/
def State.heldChunks (s : State) (role : Nat) : Nat :=
  ((s.cmd.tags.filter fun e => e.2.cap.qpn % 2 == role).map fun e =>
    match e.2.write with
    | some w => (w.chunks.map fun k => match k.state with
        | .verifying _ => k.bytes.length
        | .waiting | .zero | .asked | .hit _ | .stored _ _ => 0).sum
    | none => 0).sum

/-- The staging bytes of a QT role that are reserved for the responses of reads issued (R57, R68); read data on its way out leaves the
buffers as it enters them, in the step that sends it. -/
def State.stagingUse (s : State) (role : Nat) : Nat :=
  s.heldChunks role + ((s.trn.qps.filter fun e => e.1 % 2 == role).map fun e => ((e.2.reads.filter ReadReq.issued).map ReadReq.space).sum).sum

/-- The oldest read of a queue pair that waits is issued, where fewer than 64 are outstanding and staging space for its whole response
is left (R49, R57, R68). -/
def State.issueRead (s : State) (n : Nat) : State :=
  have q := s.qp n
  match q.reads.findIdx? fun r => !r.issued with
  | none => s
  | some k =>
    match q.reads[k]? with
    | none => s
    | some r =>
      if 64 ≤ q.reads.countP ReadReq.issued ∨ stagingBytes < s.stagingUse (n % 2) + r.space then s
      else
        have s := s.setQp n { q with reads := q.reads.set k { r with issued := true, psn := q.sendPsn, next := q.sendPsn } }
        if r.local_ then
          match (q.sendQueue.filter fun w => w.op == .read && w.sent)[((q.reads.take (k + 1)).countP fun x => x.local_ && x.segment == 0) - 1]? with
          | some w =>
            have part : WorkReq := { w with offset := w.offset + r.segment, remote := w.remote + r.segment, length := r.len }
            s.transmit n (q.packets r.len) (.work part)
          | none => s
        else s.transmit n (q.packets r.left) (.readRequest r.tag r.segment r.left)

/-- The reads of a QT role that wait are issued as far as staging space is left (R68), by rising queue-pair number. -/
def State.issueReads (s : State) (role : Nat) : State :=
  (s.trn.qps.filter fun e => e.1 % 2 == role && e.2.reads.any fun r => !r.issued).foldl
    (fun s e => e.2.reads.foldl (fun s _ => s.issueRead e.1) s) s

/-- The part reads from the remote side for a tag (R49, R68): the read is issued, or waits behind those before it. -/
def State.queueRead (s : State) (n t segment len : Nat) : State :=
  have q := s.qp n
  have r : ReadReq := { tag := t, segment := segment, len := len, left := len }
  have s := s.setQp n { q with reads := q.reads ++ [r] }
  ({ s with cmd.tags := Table.modify t (fun c => { c with readsLeft := c.readsLeft + 1 }) s.cmd.tags }).issueRead n

/-! Ports in use, the lay-by (R57 to R59) and PFC (R41) -/

/-- The line rate of a logical port in Mb/s (R36, R42). -/
def State.lineRate (s : State) (lport : Nat) : Nat :=
  match s.rd Reg.ETH_PORT_MODE.MODE (lport / 4) with
  | 0 => 800000
  | 1 => 400000
  | 2 => 200000
  | _ => 100

/-- The logical lanes of a front port that serve a subport in a mode (R37). -/
def subportLanes (mode sub : Nat) : List Nat :=
  match mode with
  | 0 => if sub = 0 then [0, 1, 2, 3] else []
  | 1 => if sub < 2 then [2 * sub, 2 * sub + 1] else []
  | 2 => if sub < 4 then [sub] else []
  | _ => []

/-- The logical ports in use (R36, R37): those whose subport has lanes in the port's mode and is enabled. -/
def State.portsInUse (s : State) : List Nat :=
  (List.range 16).filter fun l =>
    !(subportLanes (s.rd Reg.ETH_PORT_MODE.MODE (l / 4)) (l % 4)).isEmpty && (s.rd Reg.ETH_PORT_MODE.SUBPORT_EN (l / 4)).testBit (l % 4)

/-- The packets of a queue pair in the lay-by, oldest first. -/
def State.waitingPackets (s : State) (q : Nat) : List Packet := Table.get q [] s.trn.layby

/-- The cells that a packet takes (R57). -/
def Packet.cells (p : Packet) : Nat := (p.frameLen + 255) / 256

/-- The cells in use by a QT role. -/
def State.laybyCells (s : State) (role : Nat) : Nat :=
  ((s.trn.layby.filter fun e => e.1 % 2 == role).map fun e => (e.2.map Packet.cells).sum).sum

/-- PFC on RoCE priority with a pause time, on every logical port in use whose port generates PFC (R41). -/
def State.sendPfc (s : State) (xoff : Bool) : State :=
  s.portsInUse.foldl (fun s l =>
    if s.on Reg.ETH_PFC_CTRL.GEN_EN (l / 4) then
      s.send (.pfc l (s.rd Reg.ETH_PFC_CTRL.ROCE_PRIO (l / 4)) (if xoff then s.rd Reg.ETH_PFC_CTRL.QUANTA (l / 4) else 0))
    else s) s

/-- TRN_LAYBY_USE follows the lay-by; XOFF above HIGH_WM of either role, XON when it falls to LOW_WM (R41). -/
def State.noteLayby (s : State) : State :=
  have a := s.laybyCells 0
  have b := s.laybyCells 1
  have s := (s.wr Reg.TRN_LAYBY_USE.ROLE0_CELLS a).wr Reg.TRN_LAYBY_USE.ROLE1_CELLS b
  if !s.trn.xoff && decide (s.rd Reg.TRN_LAYBY_WM.HIGH_WM < max a b) then ({ s with trn.xoff := true }).sendPfc true
  else if s.trn.xoff && decide (max a b ≤ s.rd Reg.TRN_LAYBY_WM.LOW_WM) then ({ s with trn.xoff := false }).sendPfc false
  else s

/-! Event records -/

/-- The number of the little-endian bytes of a detail's first 8 bytes: result 0 of R396, R469. -/
def detailWord (bytes : List Byte) : Nat :=
  ((bytes.take 8).zipIdx.map fun p => p.1.toNat * 256 ^ p.2).sum

/-- The codes that go to front matter as well (R470). -/
def frontCodes : List Nat :=
  [0x9007, 0x9013, 0x90C3, 0x90C4, 0x500B, 0x500C, 0xA021, 0xA027, 0xB003, 0xB007]

/-- The codes that no token bucket limits (R471): classes 0xA0 and 0xB0, and 0x90C0 to 0x90C7. -/
def rateExempt (code : Nat) : Bool :=
  code / 256 == 0xA0 || code / 256 == 0xB0 || decide (0x90C0 ≤ code ∧ code ≤ 0x90C7)

/-- Ticks in one second. -/
def ticksPerSecond : Nat := 8000000000

/-- Operating seconds (R469). -/
def State.opSeconds (s : State) : Nat := s.evt.opTicks / ticksPerSecond

/-- The record of an event as the part makes it (R469): cut to 256 bytes with TRUNC where its detail is longer. -/
def State.makeRecord (s : State) (code : Nat) (detail : List Byte) : EventRecord :=
  { code := code, trunc := decide (240 < detail.length), cycles := s.evt.cycles % 4096,
    seconds := s.opSeconds % 2 ^ 29, ringTime := some s.ringTime, detail := detail.take 240 }

/-- The bytes a record takes (R469): header, ring time and detail, in units of 8. -/
def EventRecord.size (r : EventRecord) : Nat :=
  8 + (if r.ringTime.isSome then 8 else 0) + (r.detail.length + 7) / 8 * 8

/-- Puts a record into the buffer in Old Town (R471): 256 KiB; a record that does not fit is dropped and counted. -/
def State.bufferRecord (s : State) (r : EventRecord) : State :=
  if s.on Reg.EVT_CTRL.EN then
    if (s.evt.buffer.map EventRecord.size).sum + r.size ≤ 262144 then
      { s with evt := { s.evt with buffer := s.evt.buffer ++ [r], since := some (s.evt.since.getD s.clock) } }
    else ({ s with evt.overflow := true }).bump Reg.EVT_STATUS.LOST
  else s

/-- Writes a record to the next free front-matter slot (R470): slots 0 to 4,063 for the listed codes, 4,064 to 4,095 for
clearing records; when slots 0 to 4,063 are full FRONT_FULL is set and event 0xB023 is recorded once. -/
def State.frontRecord (s : State) (r : EventRecord) (clearing : Bool) : State :=
  have limit := if clearing then 4096 else 4064
  if s.nor.front.length < limit then
    have s := { s with nor.front := s.nor.front ++ [r] }
    have s := s.wr Reg.EVT_STATUS.FRONT_USED s.nor.front.length
    if 4064 ≤ s.nor.front.length && !s.evt.fullNoted then
      (({ s with evt.fullNoted := true }).wr Reg.EVT_STATUS.FRONT_FULL 1).bufferRecord (s.makeRecord 0xB023 [])
    else s
  else s

/-- The slices that event-recorder events go to (R396): slice 0 and every slice with EVENTS. -/
def State.eventSlices (s : State) : List Nat :=
  0 :: ((s.host.slices.filter fun e => e.1 != 0 && e.2.live && e.2.caps.testBit 7).map Prod.fst)

/-- Stores and posts one record that has passed its bucket (R470, R471, R396). -/
def State.passRecord (s : State) (code : Nat) (detail : List Byte) : State :=
  have r := s.makeRecord code detail
  have s := s.bufferRecord r
  have s := if frontCodes.contains code then s.frontRecord r false else s
  s.eventSlices.foldl (fun s n => s.postTo n code (detailWord detail)) s

/-- The state with the token bucket of a code put in place (R471). -/
def State.setBucket (s : State) (code : Nat) (b : EventBucket) : State :=
  { s with evt.buckets := Table.put code b s.evt.buckets }

/-- Records an event (R471). Each code has a token bucket of RATE per second and burst BURST, exempt codes apart. A record
that finds its bucket empty is neither stored nor posted; the next one that passes is preceded by event 0xB010 with the
code and the count dropped, saturating at 65,535. -/
def State.event (s : State) (code : Nat) (detail : List Byte := []) : State :=
  if rateExempt code then s.passRecord code detail
  else
    have rate := s.rd Reg.EVT_RATE.PER_S
    have burst := s.rd Reg.EVT_RATE.BURST * ticksPerSecond
    have b := Table.get code { level := burst, filled := s.clock } s.evt.buckets
    have level := min burst (b.level + (s.clock - b.filled) * rate)
    if level < ticksPerSecond then
      s.setBucket code { level := level, filled := s.clock, dropped := min 65535 (b.dropped + 1) }
    else
      have s := s.setBucket code { level := level - ticksPerSecond, filled := s.clock }
      have s := if b.dropped = 0 then s else s.passRecord 0xB010 (le 4 code ++ le 4 b.dropped)
      s.passRecord code detail

/-- An event with one number as its detail. -/
def State.event1 (s : State) (code v : Nat) : State := s.event code (le 8 v)

/-! Ring commands -/

/-- Completes a ring command (R392, R394): its entry leaves the started list, its credit returns, and its CQ entry is
written, unless a squash withholds it (R403). -/
def State.complete (s : State) (c : HostCmd) (status : Nat) (r0 : Nat := 0) (r1 : Nat := 0) : State :=
  match Table.find c.slice s.host.slices with
  | none => s
  | some sl =>
    have mine (st : Started) : Bool := st.ring == c.ring && st.cid == c.cid
    have squashed := (sl.started.find? mine).any Started.squashed
    have s' := s.setSlice c.slice { sl with
      started := sl.started.filter fun st => !mine st
      creditsUsed := sl.creditsUsed - if sl.started.any mine then 1 else 0 }
    if squashed then s' else s'.cqWrite c.slice c.ring c.cid status r0 r1 c.noIrq false

/-- Whether a slice may name an object of a tenant (R388): a slice bound to one tenant names that tenant's only. -/
def Slice.mayName (sl : Slice) (tenant : Nat) : Bool := sl.tenant == 0xFFFF || sl.tenant == tenant

/-- The capability bits of R388. -/
inductive Cap where
  | any | frames | qp | keys | jobs | namespaces | programs | dmaDdr | slices
  deriving DecidableEq, Repr

/-- Whether a slice holds a capability (R388); slice 0 holds every one (R387). -/
def Slice.holds (sl : Slice) (n : Nat) : Cap → Bool
  | .any => true
  | .frames => n == 0 || sl.caps.testBit 0
  | .qp => n == 0 || sl.caps.testBit 1
  | .keys => n == 0 || sl.caps.testBit 2
  | .jobs => n == 0 || sl.caps.testBit 3
  | .namespaces => n == 0 || sl.caps.testBit 4
  | .programs => n == 0 || sl.caps.testBit 5
  | .dmaDdr => n == 0 || sl.caps.testBit 6
  | .slices => n == 0

/-- The slice of a ring command. -/
def State.sliceOf (s : State) (c : HostCmd) : Slice := Table.get c.slice {} s.host.slices

/-- The gate of every ring command but HELLO (R386, R388, R398): a slice that is Created answers 0x1003, a slice without
the capability 0x1006; otherwise the command runs. A slice in any other state than Active and Created has no command
started on it, and nothing changes. -/
def State.ringGate (s : State) (c : HostCmd) (cap : Cap) (run : Slice → State) : State :=
  have sl := s.sliceOf c
  match sl.state with
  | .created => s.complete c 0x1003
  | .active => if sl.holds c.slice cap then run sl else s.complete c 0x1006
  | _ => if (sl.started.any fun st => st.ring == c.ring && st.cid == c.cid) && sl.holds c.slice cap then run sl else s

/-! Access sizes (R383) -/

/-- Whether an access is an aligned 4-byte or 8-byte access (R383). -/
def goodSize (address size : Nat) : Bool := (size == 4 || size == 8) && address % size == 0

end Sys2Proof.Machine
end

