-- ==== Sys2Proof/Machine/BootCore.lean ====
section
/-!
DEFINITION. Machine/BootCore.lean: the boot record and the event pages in the boot flash, and the reset of the part, as the meanings share
them (R452, R468, R480).
-/
namespace Sys2Proof.Machine
open Sys2Proof

/-- The newest good boot record entry (R445). -/
def State.bootRecord (s : State) : BootRecord := s.nor.records.headD { slot := s.straps.boot == 1 }

/-- Appends a boot record entry (R452): one above the newest sequence, with the ring time and the shifts of quarters 1 to 41. -/
def State.appendRecord (s : State) (f : BootRecord → BootRecord) : State :=
  have old := s.bootRecord
  have r := { f old with
    sequence := (old.sequence + 1) % 2 ^ 32
    time := s.ringTime
    shifts := (List.range 41).map fun q => Table.get (q + 1) 0 s.nor.shifts }
  { s with nor.records := r :: s.nor.records }

/-- The time ceiling is rewritten to ring time + 2^36 ticks (R351). -/
def State.raiseCeiling (s : State) : State :=
  have c := s.ringTime + 2 ^ 36
  (s.appendRecord fun r => { r with ceiling := c }).wr Reg.XRN_TIME_CEILING.TICKS c

/-! Event pages (R468, R471) -/

/-- The records that one 4 KiB page takes, from the oldest: whole records, before its sequence and CRC (R468). -/
def pageTake : List EventRecord → Nat → List EventRecord
  | [], _ => []
  | r :: t, used => if used + r.size ≤ 4088 then r :: pageTake t (used + r.size) else []

/-- One page of the buffer is written to the running area (R468, R471), which holds 446 sectors of 16 pages less the sector erased ahead. An
overflow of the buffer is reported once there is room again. -/
def State.writePage (s : State) : State :=
  have page := pageTake s.evt.buffer 0
  if page.isEmpty then s
  else
    have rest := s.evt.buffer.drop page.length
    have s := { s with
      nor.running := (page :: s.nor.running).take (445 * 16)
      evt.buffer := rest
      evt.since := if rest.isEmpty then none else some s.clock }
    if s.evt.overflow then ({ s with evt.overflow := false }).passRecord 0xB011 [] else s

/-- Every record in the buffer is written to the running area, a page at a time; `n` bounds the pages. -/
def State.writePages : Nat → State → State
  | 0, s => s
  | n + 1, s => if s.evt.buffer.isEmpty then s else State.writePages n s.writePage

/-- The whole buffer is written before the seal (R471). -/
def State.flushBuffer (s : State) : State := State.writePages (s.evt.buffer.length + 1) s

/-! The reset of the part (R480) -/

/-- What a leaf and its dies keep over a reset of the part: the membership, the bitmap and blocks of its metadata, its log region and plans;
the identity is read again. -/
def Leaf.kept (l : Leaf) : Leaf :=
  { l with
    id := none
    peerId := none
    cond := match l.cond with
      | .failed => .failed
      | .absent => .absent
      | .present | .oneSided | .draining => if l.drain then .draining else .present }

/-- What the metadata keeps of a replica set (R283, R290, R295): its anchors, base, rotation and session counter. -/
def RepSet.kept (x : RepSet) : RepSet :=
  { members := x.members, anchors := x.anchors, rotation := x.rotation, base := x.base,
    stream := { counter := x.stream.counter }, keepFirst := x.keepFirst }

/-- A WRITE cut short leaves its slot without an image (R456). -/
def State.tornSlot (s : State) : State :=
  if s.boot.op = some .write then
    if s.on Reg.BOOT_STATUS.RUNNING_SLOT then { s with nor.slotA := [] } else { s with nor.slotB := [] }
  else s

/-- The fields whose reset is a fuse or the trip latch (R10, R441, R450, R485). -/
def State.readFuses (s : State) : State :=
  have s := (s.wr Reg.OLD_ID.STEPPING s.fuses.stepping).wr Reg.BOOT_SVN.FUSED s.fuses.svn
  have s := (s.wr Reg.BOOT_SVN.REVOKED s.fuses.revoked).wr Reg.XRN_DEVICE_ID.ID s.fuses.deviceId
  ({ s with nor.lastTrip := false }).wr Reg.TMP_STATUS.LAST_TRIP (if s.nor.lastTrip then 1 else 0)

/-- Every block at its reset values, with what a part reset leaves alone. -/
def State.resetCore (s : State) : State :=
  { State.reset with
    pending := s.pending
    clock := s.clock
    pins := { s.pins with faultN := true, thermtripN := true, resetLatched := false, xspiResetN := false }
    fuses := s.fuses
    straps := s.straps
    power := { State.reset.power with vinGood := s.power.vinGood, converterOn := s.power.converterOn, stopLatch := s.power.stopLatch }
    evt := { cycles := s.evt.cycles, opTicks := s.evt.opTicks }
    nor := s.nor
    lfl := { leaves := Table.mapVals (fun _ l => l.kept) s.lfl.leaves }
    rep := { sets := Table.mapVals (fun _ x => x.kept) s.rep.sets, landing := s.rep.landing }
    own := { paired := s.own.paired }
    store := s.store
    mem := s.mem
    free := s.free
    out := s.out }

/-- The part is reset (R443, R480): every block returns to its reset values and waits for its straps to be sampled. The boot flash, the
fuses, what the metadata pool and the leaves hold, and the counts of power cycles and operating time stay. `cause` is OLD_RESET_CAUSE.PART. -/
def State.partReset (s : State) (cause : Nat) : State := (s.tornSlot.resetCore.wr Reg.OLD_RESET_CAUSE.PART cause).readFuses


end Sys2Proof.Machine
end

