-- ==== Sys2Proof/Machine/Channel.lean ====
section
/-!
DEFINITION. Machine/Channel.lean: how a ring link sends messages: virtual channels, their order of precedence, weights and credits (R334 to
R336).
-/
namespace Sys2Proof.Machine
open Sys2Proof

/-- The virtual channel of a message kind (R336). -/
def kindChannel (kind : Nat) : Nat :=
  if kind ≤ 0x11 ∨ kind = 0x22 then 0
  else if kind = 0x21 ∨ kind = 0x32 then 1
  else if kind = 0x20 then 2
  else if kind = 0x30 ∨ kind = 0x31 then 3
  else 4

/-- The virtual channel of what the part sends on the ring (R336). -/
def Out.channel : Out → Nat
  | .ring kind _ _ => kindChannel kind
  | .mirror _ _ => 2
  | .mirrorAck _ | .forwardReply _ => 1
  | .forward _ _ | .forwardCancel _ | .forwardData _ _ => 3
  | _ => 0

/-- The bytes of a message. A kind whose form the spec gives has its size there; the model's own form of any other is counted with 8 bytes
for each number (DESIGN CHOICE, log entry 97). -/
def Out.messageBytes : Out → Nat
  | .ring _ args bytes => 8 * args.length + bytes.length
  | .mirror _ r => r.len
  | .mirrorAck _ => 32
  | .forward _ cap => 128 + cap.data.length
  | .forwardData _ units => 64 + (units.map fun u => 32 + u.container.length).sum
  | .forwardReply _ | .forwardCancel _ => 64
  | _ => 0

/-- The flits of a message (R334): packets of a header flit, with 96 bytes inline, and up to 16 data flits of 128 bytes. -/
def Out.flits (o : Out) : Nat :=
  have n := o.messageBytes
  n / 2144 * 17 + if n % 2144 = 0 ∧ 0 < n then 0 else 1 + (n % 2144 - 96 + 127) / 128

/-- The weight of a weighted channel (R335): 8, 4 and 1 for VC2, VC3 and VC4. -/
def channelWeight (vc : Nat) : Nat := if vc = 2 then 8 else if vc = 3 then 4 else 1

/-- The ring ports whose peer link is up, or up or training (R165, R338): the peer links are 0 and 2. -/
def State.peerPorts (s : State) (training : Bool) : List Nat :=
  [0, 2].filter fun l =>
    have st := s.rd Reg.XRN_LINK_STATUS.STATE l
    if training then decide (1 ≤ st ∧ st ≤ 6) else st == 5

/-- The link that a message takes out of the part: a copy for a port that port, a join the parent's (R342), a message to the peer a peer
link, any other the first link that is Active (DESIGN CHOICE, log entry 97). -/
def State.linkFor (s : State) (o : Out) : Option Nat :=
  have up (l : Nat) : Bool := s.rd Reg.XRN_LINK_STATUS.STATE l == 5
  match o with
  | .mirror (some p) _ => if up p then some p else none
  | .ring kind args _ =>
    if kind = 0x01 ∨ kind = 0x22 then args.head?.filter up
    else if kind = 0x10 then s.xrn.parent.filter up
    else if kind < 0x40 then (s.peerPorts false).head?
    else (List.range 4).find? up
  | _ => (s.peerPorts false).head?

/-- The key of a channel of a link. -/
def chanKey (link vc : Nat) : Nat := 8 * link + vc

/-- Whether a channel of a link has a credit left: 512 flits at the receiver (R335). A message whose first packet has one goes; the flits
beyond the credits follow as they come back. -/
def State.hasCredit (s : State) (k : Nat) : Bool := decide (Table.get k 0 s.chan.used < 512)

/-- Whether this device may send on a channel (R344): everything once it is Attached, VC0 before. -/
def State.mayChannel (s : State) (vc : Nat) : Bool := vc == 0 || s.xrn.state == .attached || s.xrn.state == .leaving

/-- A message leaves on a link: its channel's credits are taken. -/
def State.onLink (s : State) (l : Nat) (o : Out) : State :=
  have k := chanKey l o.channel
  ({ s with chan := { s.chan with
      used := Table.put k (Table.get k 0 s.chan.used + o.flits) s.chan.used
      share := Table.put k (Table.get k 0 s.chan.share + o.flits) s.chan.share } }).send o

/-- A message is sent on a link (R334, R335): at once where the device may send on its channel, which has credits on the link and on which
nothing waits; behind what waits otherwise. -/
def State.sendOn (s : State) (l : Nat) (o : Out) : State :=
  have k := chanKey l o.channel
  if s.mayChannel o.channel && s.hasCredit k && (Table.get k [] s.chan.waiting).isEmpty then s.onLink l o
  else { s with chan := { s.chan with waiting := Table.upd k [] (fun q => q ++ [o]) s.chan.waiting } }

/-- Whether either head of a pair is Attached in the directory. -/
def State.pairReached (s : State) (addr : Nat) : Bool :=
  [addr, addr + 1].any fun a => (Table.find a s.xrn.dir).any fun (e : DirEntry) => e.state == .attached

/-- The pair that a message of shared dedup goes to (R127, R211): a journal entry, its answer, a release, a lost notice. Each is applied once,
and none may be missing. -/
def Out.owedTo : Out → Option Nat
  | .ring kind args _ => if kind = 0x40 ∨ kind = 0x41 ∨ kind = 0x44 ∨ kind = 0x45 then args.head? else none
  | _ => none

/-- Whether a message waits for the pair that it goes to: no link is up, or neither head of the pair is Attached (R127, R128). -/
def State.waitsForPair (s : State) (o : Out) : Bool := (s.linkFor o).isNone || o.owedTo.any fun a => !(s.pairReached a)

/-- A message is sent on the ring. One of shared dedup that cannot reach its pair now is kept (R127); any other with no link to go out on is
discarded, as what the buffers of a link hold when it goes Down (R337). -/
def State.sendRing (s : State) (o : Out) : State :=
  if s.waitsForPair o then
    if o.owedTo.isSome then { s with chan.owed := s.chan.owed ++ [o] } else s
  else
    match s.linkFor o with
    | none => s
    | some l => s.sendOn l o

/-- The messages kept for pairs go out to those that are reached now (R127). -/
def State.sendOwed (s : State) : State := s.chan.owed.foldl State.sendRing { s with chan.owed := [] }

/-- The channel of a link that sends next (R335): VC0 before VC1 before the others, and of VC2 to VC4 the one furthest behind its weighted
share. -/
def State.nextChannel (s : State) (l : Nat) : Option Nat :=
  have ready (vc : Nat) : Bool := s.mayChannel vc && s.hasCredit (chanKey l vc) && !(Table.get (chanKey l vc) [] s.chan.waiting).isEmpty
  have share (vc : Nat) : Nat := Table.get (chanKey l vc) 0 s.chan.share
  if ready 0 then some 0
  else if ready 1 then some 1
  else ([2, 3, 4].filter ready).foldl (fun best vc => match best with
    | none => some vc
    | some b => if share vc * channelWeight b < share b * channelWeight vc then some vc else some b) none

/-- A link sends messages that wait, as far as credits go. -/
def State.pumpLink (l : Nat) : Nat → State → State
  | 0, s => s
  | n + 1, s =>
    match s.nextChannel l with
    | none => s
    | some vc =>
      have k := chanKey l vc
      match Table.get k [] s.chan.waiting with
      | [] => s
      | o :: q => State.pumpLink l n (State.onLink { s with chan := { s.chan with waiting := Table.put k q s.chan.waiting } } l o)

/-- Time passes on the links (R335): the receivers give their credits back, and what waits goes on. A link on which nothing waits starts its
shares anew. -/
def State.pumpLinks (s : State) : State :=
  have busy := s.chan.waiting.any fun e => !e.2.isEmpty
  have s := { s with chan := { s.chan with
    used := []
    share := if busy then s.chan.share else [] } }
  (List.range 4).foldl (fun s l => State.pumpLink l ((s.chan.waiting.map fun e => e.2.length).sum) s) s

/-- A link has gone Down (R337): what it has not sent is discarded, but for the messages of shared dedup (R127), and its credits are whole
again. -/
def State.dropLink (s : State) (l : Nat) : State :=
  have lost := (s.chan.waiting.filter fun e => e.1 / 8 == l).flatMap Prod.snd
  { s with chan := {
      owed := s.chan.owed ++ lost.filter fun o => o.owedTo.isSome
      used := s.chan.used.filter fun e => e.1 / 8 != l
      share := s.chan.share.filter fun e => e.1 / 8 != l
      waiting := s.chan.waiting.filter fun e => e.1 / 8 != l } }

end Sys2Proof.Machine
end

