-- ==== Sys2Proof/Machine/MapCache.lean ====
section
/-!
DEFINITION. Machine/MapCache.lean: pools as configured (chapter 07), map pages, and the map cache with its fills and invalidations (chapter 09),
as the meanings share them.
-/
namespace Sys2Proof.Machine
open Sys2Proof

/-! Pools -/

/-- Whether a leaf is a member of a pool (R217). -/
def State.isMemberLeaf (s : State) (pool l : Nat) : Bool :=
  (s.rd Reg.SIG_POOL_MEMBERS.LEAVES pool (l / 32)).testBit (l % 32)

/-- The member leaves of a pool as this head's registers name them, rising (R217). -/
def State.ownMembers (s : State) (pool : Nat) : List Nat :=
  (List.range 16).flatMap fun w =>
    have bits := s.rd Reg.SIG_POOL_MEMBERS.LEAVES pool w
    if bits = 0 then [] else ((List.range 32).filter fun k => bits.testBit k).map fun k => 32 * w + k

/-- The configuration of a pool as this head has it (R186). -/
def State.poolCfg (s : State) (p : Nat) : PoolCfg :=
  { en := s.on Reg.SIG_POOL_CFG.EN p, width := s.rd Reg.SIG_POOL_CFG.WIDTH p, parity := s.rd Reg.SIG_POOL_CFG.PARITY p,
    express := s.on Reg.SIG_POOL_CFG.EXPRESS p, isMeta := s.on Reg.SIG_POOL_CFG.META p, members := s.ownMembers p }

/-- The configuration in force of a pool (R186): the one last agreed on where the heads differ. -/
def State.poolEff (s : State) (p : Nat) : PoolCfg :=
  if s.on Reg.SIG_POOL_STATE.PEER_DIFF p then
    match Table.find p s.sig.agreed with
    | some c => c
    | none => { s.poolCfg p with en := false }
  else s.poolCfg p

/-- The member leaves of a pool in force, rising (R186, R217). -/
def State.members (s : State) (pool : Nat) : List Nat := (s.poolEff pool).members

/-- The pool that a leaf is a member of. -/
def State.poolOf (s : State) (l : Nat) : Option Nat := (List.range 64).find? fun p => s.isMemberLeaf p l

/-- The metadata pool (R184). -/
def State.metaPool (s : State) : Option Nat :=
  (List.range 64).find? fun p => (s.poolEff p).en && (s.poolEff p).isMeta

/-! Pages -/

/-- A map page. -/
def State.page (s : State) (n : Nat) : MapPage := Table.get n { hi := 0 } s.map.pages

/-- The state with a page put in place. -/
def State.setPage (s : State) (n : Nat) (p : MapPage) : State := { s with map.pages := Table.put n p s.map.pages }

/-! The map cache (R272 to R276) -/

/-- The way that the pseudo-LRU tree names, over `n` levels from a node on (R272). -/
def plruWay : Nat → Nat → Nat → Nat
  | 0, _, _ => 0
  | n + 1, bits, node =>
    have b := if bits.testBit node then 1 else 0
    b * 2 ^ n + plruWay n bits (2 * node + 1 + b)

/-- The tree after a way has been used: every node on its path points away from it (R272). -/
def plruTouch : Nat → Nat → Nat → Nat → Nat
  | 0, bits, _, _ => bits
  | n + 1, bits, node, way =>
    have b := way / 2 ^ n % 2
    have clear := bits - (bits &&& 2 ^ node)
    plruTouch n (if b = 0 then clear + 2 ^ node else clear) (2 * node + 1 + b) way

/-- The set of a line: quarter × 8,192 + set, and its tag (R272). A line is an address ÷ 256. -/
def lineSet (line : Nat) : Nat := line % 4 * 8192 + line / 4 % 8192
/-- The tag of a line (R272). -/
def lineTag (line : Nat) : Nat := line / 32768

/-- A set of the map cache; it starts with 16 invalid ways. -/
def State.cacheSet (s : State) (k : Nat) : CacheSet := Table.get k { ways := List.replicate 16 none } s.map.sets

/-- The way that holds a tag. -/
def CacheSet.wayOf (c : CacheSet) (tag : Nat) : Option Nat :=
  (List.range 16).find? fun k => match c.ways.getD k none with
    | some w => w.1 == tag
    | none => false

/-- Whether a line is present. -/
def State.linePresent (s : State) (line : Nat) : Bool := ((s.cacheSet (lineSet line)).wayOf (lineTag line)).isSome

/-- Whether a fill of a line is outstanding. -/
def State.filling (s : State) (line : Nat) : Bool := s.map.fills.any fun f => f.line == line

/-- Whether a quarter has room for a fill of a line: it holds up to 64 (R272). -/
def State.fillRoom (s : State) (line : Nat) : Bool := decide ((s.map.fills.countP fun f => f.line % 4 == line % 4) < 64)

/-- A fill is issued, and on a demand miss with PREFETCH_EN one of the next line where that line lies in the same 4 KiB page and is not
present (R273) and its quarter has room. -/
def State.issueFill (s : State) (line : Nat) : State :=
  have s := { s with map.fills := s.map.fills ++ [{ line := line }] }
  have next := line + 1
  if s.on Reg.MAP_CACHE_CTRL.PREFETCH_EN && next / 16 == line / 16 && !(s.linePresent next) && !(s.filling next) && s.fillRoom next then
    have f : Fill := { line := next, prefetch := true, waiters := 0 }
    ({ s with map.fills := s.map.fills ++ [f] }).bump Reg.MAP_CACHE_PREFETCH.ISSUED
  else s

/-- A demand lookup of the line that holds an address (R272, R273, R276). It stalls where all 64 fills are in use, or its fill has its 16
waiters. With EN at 0 it reads DDR and changes nothing (R274). -/
def State.cacheLookup (s : State) (addr : Nat) : State :=
  if s.on Reg.MAP_CACHE_CTRL.EN then
    have line := addr / 256
    have c := s.cacheSet (lineSet line)
    have stalls := { s with map.stalled := s.map.stalled ++ [addr] }
    match c.wayOf (lineTag line) with
    | some w =>
      have fresh := match c.ways.getD w none with
        | some e => e.2
        | none => false
      have c := { c with ways := c.ways.set w (some (lineTag line, false)), plru := plruTouch 4 c.plru 0 w }
      have s := ({ s with map.sets := Table.put (lineSet line) c s.map.sets }).bump Reg.MAP_CACHE_HITS.COUNT
      if fresh then s.bump Reg.MAP_CACHE_PREFETCH.USED else s
    | none =>
      match s.map.fills.find? fun f => f.line == line with
      | some f =>
        if f.waiters < 16 then
          have join (x : Fill) : Fill := if x.line = line then { x with waiters := x.waiters + 1, prefetch := false } else x
          (({ s with map.fills := s.map.fills.map join }).bump Reg.MAP_CACHE_MISSES.COUNT).bump Reg.MAP_CACHE_RACE.MERGED
        else stalls
      | none => if s.fillRoom line then (s.bump Reg.MAP_CACHE_MISSES.COUNT).issueFill line else stalls
  else s

/-- A fill has ended: the lookups that stall are made again, in order (R272). -/
def State.resumeLookups (s : State) : State := s.map.stalled.foldl State.cacheLookup { s with map.stalled := [] }

/-- A QM write to a line, or its invalidation, poisons an outstanding fill of it (R276). -/
def State.poisonFills (s : State) (hit : Nat → Bool) : State :=
  have n := s.map.fills.countP fun f => hit f.line && !f.poisoned
  ({ s with map.fills := s.map.fills.map fun (f : Fill) => if hit f.line then { f with poisoned := true } else f }).bump
    Reg.MAP_CACHE_RACE.POISONED n

/-- The DDR address of a page's directory entry (R255): this head's directory, or the replica of the peer's after it. -/
def State.dirAddr (s : State) (n : Nat) : Nat :=
  s.rd Reg.MAP_DIR_BASE.BASE + 16 * (n / 2) +
    if (n % 2 == 1) == s.headB then 0 else 16 * 2 ^ s.rd Reg.MAP_DIR_COUNT.LOG2

/-- The DDR address of a resident page. -/
def State.pageAddr (s : State) (p : MapPage) : Nat := s.rd Reg.MAP_POOL_BASE.BASE + 4096 * p.slot.getD 0

/-- A QM write to a run of DDR lines poisons an outstanding fill of them (R273, R276). -/
def State.qmLines (s : State) (addr n : Nat) : State :=
  if s.on Reg.MAP_CACHE_CTRL.EN then s.poisonFills fun l => decide (addr / 256 ≤ l ∧ l < addr / 256 + n) else s

/-- A QM write of a page's directory entry (R255, R273, R276). -/
def State.qmDir (s : State) (n : Nat) : State := s.qmLines (s.dirAddr n) 1

/-- A QM write of a page: its directory entry, and the lines of its slot (R273, R276). -/
def State.qmWrite (s : State) (n : Nat) : State :=
  have s := s.qmDir n
  if (s.page n).slot.isSome then s.qmLines (s.pageAddr (s.page n)) 16 else s

/-- The DDR address of a namespace's entry (R263). -/
def State.nsAddr (s : State) (nsid : Nat) : Nat := s.rd Reg.MAP_NS_BASE.BASE + 64 * (nsid - 1)

/-- The DDR address of a snapshot's entry (R266; DESIGN CHOICE, log entry 123). -/
def State.snapAddr (s : State) (key : Nat) : Nat :=
  s.rd Reg.MAP_SNAP_BASE.BASE + 64 * s.map.snaps.findIdx fun e => e.1 == key

/-- Lines are invalidated, and outstanding fills of them poisoned (R275, R276). -/
def State.dropLines (s : State) (hit : Nat → Bool) : State :=
  have clear (k : Nat) (c : CacheSet) : CacheSet := { c with ways := c.ways.map fun w =>
    match w with
    | some (tag, _) => if hit (tag * 32768 + k % 8192 * 4 + k / 8192) then none else w
    | none => none }
  ({ s with map.sets := Table.mapVals clear s.map.sets }).poisonFills hit

/-- Firmware invalidates the line of a page's directory entry, which it has changed (R275). -/
def State.dropDir (s : State) (n : Nat) : State :=
  have a := s.dirAddr n / 256
  s.dropLines fun l => l == a

/-- Firmware invalidates the lines of a slot that it has filled, and of the page's directory entry (R275). -/
def State.dropPageLines (s : State) (n : Nat) : State :=
  have a := s.dirAddr n / 256
  have b := s.pageAddr (s.page n) / 256
  s.dropLines fun l => l == a || decide (b ≤ l ∧ l < b + 16)

end Sys2Proof.Machine
end

