-- ==== Sys2Proof/Machine/DdpCore.lean ====
section
/-!
DEFINITION. Machine/DdpCore.lean: the summary filter, the DDR index, the pending table, pins and the journal as the meanings
share them (chapter 04).
-/
namespace Sys2Proof.Machine
open Sys2Proof

/-- The QM quarter of a fingerprint (R116). -/
def fpQuarter (fp : List Byte) : Nat := num (slice fp 0 1) % 4

/-- The bucket of a fingerprint (R116). -/
def fpBucket (fp : List Byte) : Nat := num (slice fp 4 4) * 393216 / 2 ^ 32

/-- The filter tag of a fingerprint in a domain (R116). -/
def fpTag (domain : Nat) (fp : List Byte) : Nat :=
  have t := num (slice fp 8 2) ^^^ (domain * 0x9E37 % 65536)
  if t = 0 then 1 else t

/-- The first index key of a fingerprint's bucket: (quarter × 393,216 + bucket) × 30 (R116). -/
def fpBase (fp : List Byte) : Nat := (fpQuarter fp * 393216 + fpBucket fp) * 30

/-- The DDR address of an index entry (R116). -/
def State.indexAddr (s : State) (key : Nat) : Nat := s.rd Reg.DDP_INDEX_BASE.BASE + 64 * key

/-- The index keys of a bucket whose filter tag equals the tag of the fingerprint, lowest slot first (R118 step 2). Every
valid entry has its filter tag (R116), so the tag is the entry's own. -/
def State.tagMatches (s : State) (domain : Nat) (fp : List Byte) : List Nat :=
  ((List.range 30).map fun k => fpBase fp + k).filter fun k =>
    match Table.find k s.ddp.index with
    | some e => fpTag e.domain e.fp == fpTag domain fp
    | none => false

/-- DDP_FILTER_USE follows the index (R131). -/
def State.noteFilter (s : State) : State := s.wr Reg.DDP_FILTER_USE.TAGS s.ddp.index.length

/-- An index entry and its filter tag are removed. -/
def State.dropIndex (s : State) (key : Nat) : State :=
  ({ s with ddp.index := Table.drop key s.ddp.index }).noteFilter

/-- The entry that a pin names: one of the index, or a damaged one that was removed while it was pinned. -/
def State.pinned (s : State) (key : Nat) : Option IndexEntry := (Table.find key s.ddp.index).or (Table.find key s.ddp.ghosts)

/-- An entry is removed with its tag: a damaged one (R118 step 3), one whose container is lost (R211), or one whose storage is released (R261).
The pins that writes hold on it stay, under a key that no bucket has (R121; DESIGN CHOICE, log entry 92). -/
def State.removeIndex (s : State) (key : Nat) : State :=
  match Table.find key s.ddp.index with
  | none => s
  | some e =>
    if e.pins = 0 then s.dropIndex key
    else
      have k := s.ddp.ghosts.foldl (fun k g => max k (g.1 + 1)) (2 ^ 32)
      have chunk (x : Chunk) : Chunk := if x.pin = some key then { x with pin := some k } else x
      have tag (c : Cmd) : Cmd := { c with write := c.write.map fun (w : WriteJob) => { w with chunks := w.chunks.map chunk } }
      State.dropIndex { s with
        ddp.ghosts := Table.put k e s.ddp.ghosts
        cmd.tags := Table.mapVals (fun _ c => tag c) s.cmd.tags } key

/-- The index entries that name a location. -/
def State.indexKeysOf (s : State) (loc : Loc) : List Nat :=
  (s.ddp.index.filter fun e => e.2.loc == loc).map Prod.fst

/-- Whether an index entry that names a location is pinned (R121). -/
def State.pinnedLoc (s : State) (loc : Loc) : Bool :=
  (s.ddp.index ++ s.ddp.ghosts).any fun e => e.2.loc == loc && decide (0 < e.2.pins)

/-- A compare of R113 that ends in a fault is counted and recorded. -/
def State.noteCompare (s : State) (domain : Nat) (c : Compare) : State :=
  if c = .fault then (s.event1 0x3002 domain).bump Reg.BND_DIGEST_FAULT.COUNT else s

/-- The doubled compare of two fingerprints of domains (R113). -/
def sameFp (d : Nat) (f : List Byte) (domain : Nat) (fp : List Byte) (upset : Bool) : Compare :=
  readCompare (doubledCompare (le 2 d ++ f) (le 2 domain ++ fp) upset)

/-- Whether (d, F) stands in the index (R119). The compares are those of R113; which of them are upset is a free value, its
bit for each slot of the bucket (DESIGN CHOICE, log entry 93). -/
def State.indexed (s : State) (domain : Nat) (fp : List Byte) : Bool × State :=
  match s.tagMatches domain fp with
  | [] => (false, s)
  | keys =>
    let (v, s) := s.fresh
    have got := keys.filterMap fun k => (Table.find k s.ddp.index).map fun (e : IndexEntry) =>
      sameFp e.domain e.fp domain fp (v.testBit (k % 30))
    (got.contains .equal, got.foldl (State.noteCompare · domain) s)

/-- The slot that an insertion takes (R119): the lowest empty slot of the bucket, else the next victim or the first slot
after it, modulo 30, that is not pinned. -/
def State.indexSlot (s : State) (fp : List Byte) : Option (Nat × Bool) :=
  have base := fpBase fp
  match (List.range 30).find? fun k => !(Table.has (base + k) s.ddp.index) with
  | some k => some (k, false)
  | none =>
    have v := Table.get (base / 30) 0 s.ddp.victim
    match ((List.range 30).map fun k => (v + k) % 30).find? fun k =>
        match Table.find (base + k) s.ddp.index with
        | some e => e.pins == 0
        | none => true with
    | some k => some (k, true)
    | none => none

/-- A new chunk enters the DDR index at its commit point (R119). -/
def State.insertIndex (s : State) (domain : Nat) (fp : List Byte) (loc : Loc) : State :=
  let (there, s) := s.indexed domain fp
  if there then s
  else
    match s.indexSlot fp with
    | none => s.bump Reg.DDP_INSERT_SKIP.COUNT
    | some (k, evicts) =>
      have base := fpBase fp
      ({ s with
        ddp.index := Table.put (base + k) { fp := fp, domain := domain, loc := loc } s.ddp.index
        ddp.victim := if evicts then Table.put (base / 30) ((k + 1) % 30) s.ddp.victim else s.ddp.victim }).noteFilter

/-- The bytes of dirty metadata (R175 step 7, R176): dirty map pages, the reconcile journal, the open page of the sewing log and the entries of
the segment tables in use. -/
def State.dirtyMeta (s : State) : Nat :=
  4096 * (s.map.pages.countP fun e => e.2.dirty) + 64 * s.ddp.journal.length + 256 * s.sig.page.length +
    64 * ((s.wc.own.countP fun e => e.2.state != .free) + s.wc.mir.countP fun e => e.2.held)

/-- A dirty page is written back (R176, R255): its image, which carries this ring time, waits to be sewn into the metadata pool's data streams as a
container does, and takes the place of an older image that waits. Firmware invalidates the line of its directory entry (R275). -/
def State.writeBack (s : State) (n : Nat) : State :=
  have p := s.page n
  if p.dirty then
    have p := { p with dirty := false, image := true, saved := s.ringTime }
    have s := (s.setPage n p).dropDir n
    match s.metaPool with
    | some m =>
      have others (l : List (Loc × Container)) : List (Loc × Container) := l.filter fun e => e.1 != .image n
      { s with sig.staged := Table.upd m [] (fun l => others l ++ [(.image n, p.bytes n)]) s.sig.staged }
    | none => s
  else s

/-- Every dirty page of the map is written back (R175, R176). -/
def State.cleanPages (s : State) : State := ((s.map.pages.filter fun e => e.2.dirty).map Prod.fst).foldl State.writeBack s

/-- What the metadata pool holds after a write-back (R176, R256). -/
def State.saveStore (s : State) : State :=
  { s with
    store.map := s.map
    store.sig := s.sig
    store.ledger := s.keys.ledger
    store.stored := s.keys.stored
    store.journal := s.ddp.journal
    store.flash := s.ddp.flash
    store.groups := s.own.groups }

/-- DDR_WC_META shows the dirty metadata (R183). -/
def State.showMeta (s : State) : State := s.wr Reg.DDR_WC_META.MIB (min 6144 ((s.dirtyMeta + 1048575) / 1048576))

/-- DDR_WC_META follows the dirty metadata (R183). What lies above 6 GiB is written back ahead of need (R176). -/
def State.noteMeta (s : State) : State :=
  if 6442450944 < s.dirtyMeta then s.cleanPages.saveStore.showMeta else s.showMeta

/-- DDP_RECON_FILL follows the journal (R131). -/
def State.noteJournal (s : State) : State := (s.wr Reg.DDP_RECON_FILL.ENTRIES s.ddp.journal.length).noteMeta

/-- One journal entry is appended (R119, R123); when the journal is full it is dropped, SWEEP_NEEDED is set, and event
0x3006 is recorded. -/
def State.appendJournal (s : State) (e : JournalEntry) : State :=
  if s.ddp.journal.length < 2 ^ s.rd Reg.DDP_RECON_SIZE.LOG2 then
    ({ s with ddp.journal := s.ddp.journal ++ [e] }).noteJournal
  else (s.raise Reg.DDP_DOMAIN_STAT.SWEEP_NEEDED 1 e.domain).event1 0x3006 e.domain

/-- The pending entries of a QM quarter (R120). -/
def State.pendingOf (s : State) (q : Nat) : List PendingFp := Table.get q [] s.ddp.pend

/-- A miss looks at the pending table (R113, R120): a collision or a full table is counted; otherwise an entry is added. `upset` is a
compare with the table that ends in a fault. -/
def State.addPending (s : State) (domain : Nat) (fp : List Byte) (tag : Nat) (upset : Bool) : State :=
  have p := s.pendingOf (fpQuarter fp)
  have s := if upset && !p.isEmpty then s.noteCompare domain .fault else s
  if p.any fun e => sameFp e.domain e.fp domain fp upset == .equal then s.bump Reg.DDP_PENDING.COLLISIONS
  else if 32768 ≤ p.length then s.bump Reg.DDP_PENDING.FULL
  else { s with ddp.pend := Table.put (fpQuarter fp) (p ++ [{ domain := domain, fp := fp, tag := tag }]) s.ddp.pend }

/-- A command's pending entries are removed, at its commit point or its cancellation (R120). -/
def State.dropPending (s : State) (tag : Nat) : State :=
  { s with ddp.pend := Table.mapVals (fun _ l => l.filter fun e => e.tag != tag) s.ddp.pend }

/-- The reference count of a container (R259). -/
def State.refCount (s : State) (loc : Loc) : Nat :=
  match s.map.counts.find? fun e => e.1 == loc with
  | some e => e.2
  | none => 0

/-- The reference table with a container's count set; a count of zero is not listed. -/
def State.setCount (s : State) (loc : Loc) (n : Nat) : State :=
  have rest := s.map.counts.filter fun e => e.1 != loc
  { s with map.counts := if n = 0 then rest else (loc, n) :: rest }

/-- A stored container is counted under its key generation (R152, R155), which is marked revoked where it has been revoked since. -/
def State.countStored (s : State) (m : StoredMark) : State :=
  have gone := s.keys.gone.contains (m.slot, m.gen)
  have bump (l : Ledger) : Ledger := { l with counts := Table.upd m.gen (0, false) (fun c => (c.1 + 1, c.2 || gone)) l.counts }
  { s with
    keys.stored := m :: s.keys.stored
    keys.ledger := Table.upd m.slot {} bump s.keys.ledger }

/-- A container is no longer stored (R152, R155): a generation leaves the ledger when its count reaches zero. -/
def State.uncountStored (s : State) (loc : Loc) : State :=
  match s.keys.stored.find? fun m => m.loc == loc with
  | none => s
  | some m =>
    have less (l : Ledger) : Ledger :=
      have c := Table.get m.gen (0, false) l.counts
      { l with counts := if c.1 ≤ 1 then Table.drop m.gen l.counts else Table.put m.gen (c.1 - 1, c.2) l.counts }
    { s with
      keys.stored := s.keys.stored.filter fun x => x.loc != loc
      keys.ledger := Table.upd m.slot {} less s.keys.ledger }

/-- A counted container has moved. -/
def State.moveStored (s : State) (old new : Loc) : State :=
  { s with keys.stored := s.keys.stored.map fun (m : StoredMark) => if m.loc = old then { m with loc := new } else m }

/-- A container's storage is released (R261): its DDR index and flash index entries go; the last use of a remote reference sends a release
with a new sequence to the home (R127). -/
def State.releaseStorage (s : State) (loc : Loc) : State :=
  have s := ((s.indexKeysOf loc).foldl State.removeIndex s).uncountStored loc
  have s := { s with ddp.flash := s.ddp.flash.filter fun e => e.loc != loc }
  match loc with
  | .remote home .. =>
    have s := { s with ddp.seqOut := (s.ddp.seqOut + 1) % 2 ^ 32 }
    s.sendRing (.ring 0x44 [home, s.ddp.seqOut] loc.bytes)
  | _ => s

/-- One reference is added to a container (R259). -/
def State.addRef (s : State) (loc : Loc) : State :=
  if loc.counted then s.setCount loc (s.refCount loc + 1) else s

/-- One reference is taken from a container (R259, R261): at zero its storage is released, unless an index entry pins it,
which defers the release (R121). -/
def State.dropRef (s : State) (loc : Loc) : State :=
  if loc.counted && decide (0 < s.refCount loc) then
    have n := s.refCount loc - 1
    have s := s.setCount loc n
    if n = 0 then
      if s.pinnedLoc loc then { s with ddp.deferred := loc :: s.ddp.deferred } else s.releaseStorage loc
    else s
  else s

/-- An index entry is pinned once more (R118 step 4). -/
def State.pin (s : State) (key : Nat) : State :=
  { s with ddp.index := Table.modify key (fun e => { e with pins := e.pins + 1 }) s.ddp.index }

/-- A pin ends (R121): at zero pins a deferred release is retried, and abandoned where the chunk has a reference again. -/
def State.unpin (s : State) (key : Nat) : State :=
  match s.pinned key with
  | none => s
  | some e =>
    have e' := { e with pins := e.pins - 1 }
    have s :=
      if Table.has key s.ddp.index then { s with ddp.index := Table.put key e' s.ddp.index }
      else { s with ddp.ghosts := if e'.pins = 0 then Table.drop key s.ddp.ghosts else Table.put key e' s.ddp.ghosts }
    if e.pins ≤ 1 && s.ddp.deferred.contains e.loc then
      have s := { s with ddp.deferred := s.ddp.deferred.filter fun l => l != e.loc }
      if s.refCount e.loc = 0 then s.releaseStorage e.loc else s
    else s

/-- The pins that a write's chunks hold are released (R121). -/
def State.unpinChunks (s : State) (chunks : List Chunk) : State :=
  (chunks.filterMap Chunk.pin).foldl State.unpin s

/-- A location is rewritten wherever dedup names it (R117, R202): the DDR index, the journal, the flash index, entries asked at
a home, deferred releases, and the references of other pairs. -/
def State.moveIndex (s : State) (old new : Loc) : State :=
  have moved (l : Loc) : Loc := if l = old then new else l
  have entry (e : JournalEntry) : JournalEntry := { e with loc := moved e.loc }
  { s with
    ddp.index := Table.mapVals (fun _ (e : IndexEntry) => { e with loc := moved e.loc }) s.ddp.index
    ddp.ghosts := Table.mapVals (fun _ (e : IndexEntry) => { e with loc := moved e.loc }) s.ddp.ghosts
    ddp.journal := s.ddp.journal.map entry
    ddp.flash := s.ddp.flash.map entry
    ddp.asked := Table.mapVals (fun _ e => entry e) s.ddp.asked
    ddp.deferred := s.ddp.deferred.map moved
    ddp.homeRefs := s.ddp.homeRefs.map fun (r : HomeRef) => { r with cur := moved r.cur } }

end Sys2Proof.Machine
end

