-- ==== Sys2Proof/Machine/Fence.lean ====
section
/-!
DEFINITION. Machine/Fence.lean: the quarters as the meanings share them: kinds and units, lanes, standby takeover, fencing,
loss of the head, and the Square's grants and recalls (chapters 01, 15 and 17).
-/
namespace Sys2Proof.Machine
open Sys2Proof

/-- Whether a kind has a standby quarter (R18). -/
def QuarterKind.hasStandby : QuarterKind → Bool
  | .qt | .qc | .qb | .qs => true
  | _ => false

/-- The state with a quarter put in place. -/
def State.setQuarter (s : State) (q : Nat) (x : Quarter) : State :=
  { s with power.quarters := Table.put q x s.power.quarters }

/-- The bits of the units that a quarter holds: bindery lanes for QB, tiles for QX (R18). -/
def unitBits (q : Nat) : Nat :=
  match quarterKind q with
  | .qb => 0xF * 2 ^ (4 * (q - 10))
  | .qx => 0xFF * 2 ^ (8 * (q - 36))
  | _ => 0

/-- The lanes of a QB quarter (R18, R21). -/
def lanesOf (q : Nat) : List Nat :=
  match quarterKind q with
  | .qb => (List.range 4).map fun k => 4 * (q - 10) + k
  | _ => []

/-- A quarter's units enter the in-service register of their block (R21, R432); a fenced tile stays out (R325). -/
def State.unitsIn (s : State) (q : Nat) : State :=
  match quarterKind q with
  | .qb => s.wr Reg.BND_LANE_INSERVICE.LANES (s.rd Reg.BND_LANE_INSERVICE.LANES ||| unitBits q)
  | .qx => s.wr Reg.PRG_TILE_INSERVICE.TILES
      (s.rd Reg.PRG_TILE_INSERVICE.TILES |||
        (unitBits q - (unitBits q &&& s.rd Reg.PRG_TILE_FENCED.TILES)))
  | _ => s

/-- A quarter's units leave the in-service register of their block (R432). -/
def State.unitsOut (s : State) (q : Nat) : State :=
  match quarterKind q with
  | .qb =>
    have v := s.rd Reg.BND_LANE_INSERVICE.LANES
    s.wr Reg.BND_LANE_INSERVICE.LANES (v - (v &&& unitBits q))
  | .qx =>
    have v := s.rd Reg.PRG_TILE_INSERVICE.TILES
    s.wr Reg.PRG_TILE_INSERVICE.TILES (v - (v &&& unitBits q))
  | _ => s

/-! Lanes and segments -/

/-- The input that a job takes in all. -/
def Job.total (j : Job) : Nat :=
  match j.comp, j.cipher with
  | some p, _ => p.inLen
  | none, some p => (if p.mode = .gcm then p.aadLen else 0) + p.msgLen
  | none, none => 0

/-- The bytes queued on a lane: what its segments and jobs have not yet taken in (R104, R147). -/
def State.laneLoad (s : State) (lane : Nat) : Nat :=
  (s.cmd.tags.map fun e =>
    match e.2.write with
    | some w => ((w.segs.filter fun g => g.lane == lane).map fun g => g.len - g.got).sum
    | none => 0).sum + ((s.bnd.jobs.filter fun j => j.lane == lane).map fun j => j.total - j.input.length).sum

/-- The lanes in service, in number order (R21). -/
def State.lanesInService (s : State) : List Nat :=
  (List.range 36).filter fun k => (s.rd Reg.BND_LANE_INSERVICE.LANES).testBit k

/-- Of the lanes given, the one with the fewest bytes queued; ties go to the lowest number (R104). `extra` gives bytes just queued on
lanes. -/
def State.leastLoaded (s : State) (extra : List (Nat × Nat)) : List Nat → Option Nat
  | [] => none
  | l :: ls =>
    have load (l : Nat) : Nat := s.laneLoad l + ((extra.filter fun x => x.1 == l).map Prod.snd).sum
    match s.leastLoaded extra ls with
    | none => some l
    | some b => if load l ≤ load b then some l else some b

/-- The lane that a new segment is given to: in service, fewest bytes queued, other than the lanes on which bytes have just been queued while
one remains (R104). -/
def State.pickLane (s : State) (extra : List (Nat × Nat)) : Nat :=
  have inService := s.lanesInService
  match s.leastLoaded [] (inService.filter fun l => !(extra.any fun x => x.1 == l)) with
  | some l => l
  | none => (s.leastLoaded extra inService).getD 0

/-- The segments and jobs in progress on a lane: its streams (R112, R147). -/
def State.laneStreams (s : State) (lane : Nat) : Nat :=
  (s.cmd.tags.map fun e =>
    match e.2.write with
    | some w => w.segs.countP fun g => g.lane == lane && g.begun && decide (g.got < g.len)
    | none => 0).sum + s.bnd.jobs.countP fun j => j.lane == lane && j.begun

/-- Jobs that wait become streams of their lanes, in their order, while a lane holds fewer than 16 (R112, R147). -/
def State.startJobs (s : State) : State :=
  (s.bnd.jobs.filter fun j => !j.begun).foldl (fun s j =>
    if 16 ≤ s.laneStreams j.lane then s
    else { s with bnd.jobs := s.bnd.jobs.map fun (x : Job) => if x.cmd = j.cmd then { x with begun := true } else x }) s

/-- A segment becomes a stream of its lane while the lane holds fewer than 16 (R112): its data is fetched from the initiator, or taken from
the capsule. -/
def State.startSeg (s : State) (t off : Nat) : State :=
  match Table.find t s.cmd.tags with
  | none => s
  | some c =>
    match c.write.bind fun w => w.segs.find? fun g => g.off == off && !g.begun && !g.wait with
    | none => s
    | some g =>
      if 16 ≤ s.laneStreams g.lane then s
      else
        have held := c.cap.sgl == .inCapsule
        have fix (x : Segment) : Segment :=
          if x.off = off then { x with begun := true, staged := if held then slice c.cap.data g.off g.len else [] } else x
        have s := { s with cmd.tags := Table.modify t (fun c =>
          { c with write := c.write.map fun (w : WriteJob) => { w with segs := w.segs.map fix } }) s.cmd.tags }
        if held then s else s.queueRead c.cap.qpn t g.off g.len

/-- One segment of a command goes to another lane in service (R105), one without a segment of the command while there is one: what was read
of it, its fingerprints and its lookup answers are discarded, and its data is fetched again. -/
def State.moveSeg (s : State) (t : Nat) (c : Cmd) (w : WriteJob) (g : Segment) : State :=
  have mine (k : Chunk) : Bool := decide (g.off ≤ k.off ∧ k.off < g.off + g.len)
  have lane := s.pickLane (w.segs.map fun x => (x.lane, 0))
  have fresh : Segment := { off := g.off, len := g.len, lane := lane, wait := g.wait }
  have fix (c : Cmd) : Cmd := { c with write := c.write.map fun (w : WriteJob) =>
    { w with segs := w.segs.map fun x => if x.off = g.off then fresh else x, chunks := w.chunks.filter fun k => !(mine k) } }
  have void (q : Qp) : Qp := { q with
    reads := q.reads.map fun (r : ReadReq) => if r.tag = t ∧ r.segment = g.off ∧ r.local_ = false then { r with void := true } else r }
  have s := s.unpinChunks (w.chunks.filter mine)
  have s := { s with
    cmd.tags := Table.modify t fix s.cmd.tags
    trn.qps := Table.modify c.cap.qpn void s.trn.qps }
  s.startSeg t g.off

/-- A command's segments on failed lanes go to other lanes (R105). A write past its point of no return repeats nothing; the chunks of a
forwarded-in write came from the other head and are kept. -/
def State.reassign (s : State) (lanes : List Nat) : State :=
  s.cmd.tags.foldl (fun s e =>
    match e.2.write with
    | none => s
    | some w =>
      if w.queued then s
      else if e.2.cls = .forwardedIn then
        have lane := s.pickLane []
        have fix (c : Cmd) : Cmd := { c with write := c.write.map fun (w : WriteJob) =>
          { w with segs := w.segs.map fun x => if lanes.contains x.lane then { x with lane := lane } else x } }
        { s with cmd.tags := Table.modify e.1 fix s.cmd.tags }
      else (w.segs.filter fun g => lanes.contains g.lane).foldl (fun s g =>
        match (Table.find e.1 s.cmd.tags).bind Cmd.write with
        | some w => s.moveSeg e.1 e.2 w g
        | none => s) s) s

/-! Loss of the head -/

/-- The head is lost (R20): FAULT_N is driven low until the next part reset, and its heartbeats stop. -/
def State.headLoss (s : State) : State := { s with power.headLost := true, pins.faultN := false }

/-! Tokens -/

/-- The tokens granted (R425). -/
def State.grantedSum (s : State) : Nat := (s.power.granted.map TokenLot.tokens).sum

/-- The tokens under recall (R428). -/
def State.recallSum (s : State) : Nat := (s.power.recalls.map TokenLot.tokens).sum

/-- The effective budget and the limiter that sets it (R426): the lowest of the software budget, the power-state cap and
the thermal limit; frozen from a power-fail warning on. -/
def State.effective (s : State) : Nat × Nat :=
  match s.power.frozen with
  | some v => (v, 3)
  | none =>
    have soft := (s.rd Reg.SQR_BUDGET.TOKENS, 0)
    have a := match s.power.stateCap with
      | some v => if v < soft.1 then (v, 1) else soft
      | none => soft
    match s.power.thermalCap with
    | some v => if v < a.1 then (v, 2) else a
    | none => a

/-- SQR_GRANTED follows the grants (R440). -/
def State.noteGranted (s : State) : State :=
  (s.wr Reg.SQR_GRANTED.TOKENS s.grantedSum).peak Reg.SQR_GRANTED.PEAK s.grantedSum

/-- Recalls lots of the given class, newest first, until the excess is met (R428). -/
def recallClass (cls : Nat) : List TokenLot → Nat → List TokenLot × Nat
  | [], need => ([], need)
  | l :: r, need =>
    if need = 0 then ([], 0)
    else if l.cls = cls then
      let (x, n) := recallClass cls r (need - l.tokens)
      (l :: x, n)
    else recallClass cls r need

/-- The lots to recall to give up an excess: class 4 first, then 3, 2 and 1; newest first within a class (R428). -/
def recallPlan (granted : List TokenLot) (need : Nat) : List TokenLot :=
  let (a, n) := recallClass 4 granted need
  let (b, n) := recallClass 3 granted n
  let (c, n) := recallClass 2 granted n
  a ++ b ++ c ++ (recallClass 1 granted n).1

/-- Recalls tokens where the effective budget lies below the tokens granted (R428). -/
def State.recallExcess (s : State) : State :=
  have need := s.grantedSum - s.recallSum - s.effective.1
  if need = 0 then s
  else
    have free := s.power.granted.filter fun l => !s.power.recalls.contains l
    { s with power.recalls := s.power.recalls ++ recallPlan free need }

/-- The tokens that the ramp still allows in the current microsecond (R427), and the window they count in. -/
def State.rampRoom (s : State) : Nat × Nat × Nat :=
  have limit := s.rd Reg.SQR_RAMP.TOKENS_PER_US
  if s.power.rampStart + 8000 ≤ s.clock then (limit, s.clock, 0)
  else (limit - s.power.rampUsed, s.power.rampStart, s.power.rampUsed)

/-- Whether a class may be granted in the present thermal state (R434): in Critical and Trip only classes 0 and 1. -/
def State.classAllowed (s : State) (cls : Nat) : Bool :=
  match s.power.thermal with
  | .critical | .trip => s.warned || decide (cls ≤ 1)
  | _ => true

/-- Serves the waiting requests in class order (R425, R427, R428): a request is granted where the whole of it fits the
effective budget less the trim, in slices as the ramp allows; the first that cannot go on holds those behind it. -/
def State.serve : List TokenLot → State → State
  | [], s => { s with power.waiting := [] }
  | l :: r, s =>
    have room := s.effective.1 - s.rd Reg.SQR_TRIM.TOKENS - s.grantedSum
    let (ramp, start, used) := s.rampRoom
    have give := min ramp l.tokens
    if s.power.recalls.isEmpty && s.classAllowed l.cls && decide (l.tokens ≤ room) && decide (0 < give) then
      have s' := { s with
        power.granted := { l with tokens := give } :: s.power.granted
        power.rampStart := start
        power.rampUsed := used + give }
      if give = l.tokens then State.serve r s'
      else { s' with power.waiting := { l with tokens := l.tokens - give } :: r }
    else { s with power.waiting := l :: r }

/-- Looks at every waiting request again, and keeps SQR_GRANTED. -/
def State.serveWaiting (s : State) : State := (State.serve s.power.waiting s).noteGranted

/-- A quarter's tokens of the given classes return to the Square (R425). -/
def State.returnTokens (s : State) (q : Nat) (keep : TokenLot → Bool) : State :=
  ({ s with
    power.granted := s.power.granted.filter fun l => l.quarter != q || keep l
    power.recalls := s.power.recalls.filter fun l => l.quarter != q || keep l }).serveWaiting

/-- Writes SQR_EFFECTIVE after a limit has changed (R426): event 0x9004 where the value changed, then the recall. -/
def State.settleBudget (s : State) : State :=
  let (v, lim) := s.effective
  have s' := (s.wr Reg.SQR_EFFECTIVE.TOKENS v).wr Reg.SQR_EFFECTIVE.LIMITER lim
  have s' := if s.rd Reg.SQR_EFFECTIVE.TOKENS = v then s' else s'.event1 0x9004 v
  s'.recallExcess.serveWaiting

/-! Waking -/

/-- The quarters that are waking. -/
def State.wakingCount (s : State) : Nat := s.power.quarters.countP fun e => e.2.state == .waking

/-- Starts a quarter's wake, or queues it while two are waking (R424). -/
def State.wake (s : State) (q : Nat) : State :=
  if s.wakingCount < 2 then s.setQuarter q { s.quarter q with state := .waking }
  else if s.power.wakeQueue.contains q then s
  else { s with power.wakeQueue := s.power.wakeQueue ++ [q] }

/-- A standby quarter of a kind that is powered down and available for a test or a rotation (R19, R463). -/
def State.standbyOf (s : State) (k : QuarterKind) : Option Nat :=
  if k.hasStandby then
    k.members.find? fun q => (s.quarter q).role == .standby && (s.quarter q).state == .off
  else none

/-- The standby quarter of a kind that takes over from a failed one (R19): the kind's standby, powered down or already waking, and the one
that is woken for its own test (R462). No quarter that is fenced, or that stays out of service until it is tested (R463), is one. -/
def State.coverOf (s : State) (k : QuarterKind) : Option Nat :=
  if k.hasStandby then
    k.members.find? fun q => (s.quarter q).state != .fenced && ((s.quarter q).role == .standby || s.test.job == some (.standby q))
  else none

/-- A standby takes over the role of a failed quarter (R19). A standby that waked for a rotation or its own test serves the fault instead: that
job ends with no result, and the quarter that the rotation named stays in service. One that runs starts again, as it takes over with empty SRAM
(DESIGN CHOICE, log entry 108: R463 lists neither case). -/
def State.standbyTakes (s : State) (y q : Nat) : State :=
  have x := s.quarter y
  have named := match s.test.job with
    | some (.rotation _ b) | some (.standby b) => b == y
    | some (.direct _) | some (.unit ..) | none => false
  have s := if named then ({ s with test.job := none }).wr Reg.TST_RESULT.BUSY 0 else s
  have s := s.setQuarter y { x with
    state := if x.state = .waking then .waking else .off
    role := .active
    takesFor := some q
    fencedAt := s.clock
    duty := (s.quarter q).duty
    wakeTest := false }
  if x.state = .waking then s else s.wake y

/-! Fencing -/

/-- What a QT standby finds (R19, R461): the on-die contexts and lay-by of the role are empty, and packets refill on
demand. -/
def State.emptyRole (s : State) (role : Nat) : State :=
  State.noteLayby { s with
    trn.sets := s.trn.sets.filter fun e => e.1 / 4096 != role
    trn.layby := s.trn.layby.filter fun e => e.1 % 2 != role
    trn.direct := s.trn.direct.filter fun p => p.qpn % 2 != role
    trn.leaving := s.trn.leaving.filter fun q => q % 2 != role
    trn.fetching := s.trn.fetching.filter fun q => q % 2 != role
    trn.fetchWait := s.trn.fetchWait.filter fun q => q % 2 != role }

/-- A command restarts from decode with its tag: what it fetched is fetched again, its pins end (R121), and reads still under way bring
nothing. -/
def State.restartTag (s : State) (t : Nat) : State :=
  match Table.find t s.cmd.tags with
  | none => s
  | some c =>
    have void (q : Qp) : Qp := { q with
      reads := q.reads.map fun (r : ReadReq) => if r.tag = t && !r.local_ then { r with void := true } else r }
    have c' : Cmd := { c with
      state := .decode
      locked := false
      lockEntry := false
      begun := false
      sent := false
      leafRead := false
      fwdLast := false
      peerTag := if c.cls = .forwardedIn then c.peerTag else none
      data := []
      write := none
      pieces := [] }
    have s := match c.write with
      | some w => s.unpinChunks w.chunks
      | none => s
    { s with
      cmd.tags := Table.put t c' s.cmd.tags
      trn.qps := Table.modify c.cap.qpn void s.trn.qps }

/-- What a QC standby does (R461): commands before their point of no return restart from decode with the same tag, and
commands past it run on. -/
def State.restartTags (s : State) : State :=
  s.cmd.tags.foldl (fun s e =>
    match e.2.state with
    | .lockWait | .held | .running => if e.2.cls = .internal then s else s.restartTag e.1
    | .free | .decode | .pastReturn | .forwarded | .completing => s) s

/-- The work of a failed quarter is taken up (R461) when its standby takes over: by kind. What QS takes up waits for the standby to be
Active. -/
def State.takeUpWork (s : State) (failed : Nat) : State :=
  match quarterKind failed with
  | .qt => s.emptyRole (s.quarter failed).duty
  | .qc => s.restartTags
  | .qb => s.reassign (lanesOf failed)
  | _ => s

/-- The links of a front port drop with its QE quarter (R18). -/
def State.dropPort (s : State) (port : Nat) : State :=
  have up := s.rd Reg.ETH_LINK_STATUS.LINK_UP port
  (s.wr Reg.ETH_LINK_STATUS.LINK_UP 0 port).raise Reg.ETH_LINK_STATUS.LINK_CHANGE up port

/-- A quarter is fenced at once (R433): clamps close, its units leave service, its tokens return, FENCED is set and event
0x9031 is recorded. -/
def State.fenceOnly (s : State) (q : Nat) : State :=
  have x := s.quarter q
  have s := s.setQuarter q { x with state := .fenced, role := .fenced, takesFor := none, wakeTest := false }
  have s := { s with
    power.waiting := s.power.waiting.filter fun l => l.quarter != q
    power.wakeQueue := s.power.wakeQueue.filter fun y => y != q }
  have s := ((s.unitsOut q).wr Reg.SQR_Q_STATE.FENCED 1 q).returnTokens q fun _ => false
  s.event1 0x9031 q

/-- A quarter is fenced and its work is covered (R18, R19, R20, R433): by the kind's standby, by the protocol that owns
the work, or not at all, which is a loss of the head; a kind whose standby is itself out of service has none. A quarter that was itself a
standby or under test holds no work. What covers the links of QL and QG and the tiles of QX stands in Machine/Faults.lean. -/
def State.fence (s : State) (q : Nat) : State :=
  have x := s.quarter q
  if x.state = .fenced then s
  else
    have idle : Bool := x.role == .standby || x.role == .underTest || x.state == .off
    have s := s.fenceOnly q
    if idle then s
    else
      match quarterKind q with
      | .qa | .qm | .qd => s.headLoss
      | .qe => s.dropPort (q - 1)
      | .qt | .qc | .qb | .qs =>
        match s.coverOf (quarterKind q) with
        | some y => (s.standbyTakes y q).takeUpWork q
        | none => s.headLoss
      | .qk =>
        have other := s.quarter (81 - q)
        if other.state = .fenced ∨ other.role = .underTest then s.headLoss else s
      | .ql | .qg | .qx => s

/-- A rotation stops at its next step boundary (R463): the quarter under test, or draining for it, goes Off and stays out of service until
it is tested again; a standby that was still waking for it goes Off. -/
def State.stopRotation (s : State) : State :=
  match s.test.job with
  | some (.rotation a b) =>
    have s := ({ s with test.job := none }).wr Reg.TST_RESULT.BUSY 0
    have x := s.quarter a
    if (s.quarter b).state = .waking then s.setQuarter b { s.quarter b with state := .off, role := .standby }
    else
      match x.state with
      | .closing => s.setQuarter a { x with goal := .off, role := .underTest }
      | .active => if x.role = .underTest then (s.setQuarter a { x with state := .off }).returnTokens a fun _ => false else s
      | .off | .waking | .retain | .fenced => s
  | _ => s

/-- Every switched quarter is fenced (R434): a thermal trip. -/
def State.fenceAll (s : State) : State :=
  (List.range 41).foldl (fun s k => if (s.quarter (k + 1)).state = .fenced then s else s.fenceOnly (k + 1)) s

end Sys2Proof.Machine
end

