-- ==== Sys2Proof/Machine/MapOps.lean ====
section
/-!
DEFINITION. Machine/MapOps.lean: the forward map as the meanings share it (chapter 09, and R211): page numbers and slots, the
map cache, walks, changes with copy on write, namespaces, snapshots, and the lost list.
-/
namespace Sys2Proof.Machine
open Sys2Proof

/-! Groups and owners -/

/-- An entry of the ownership table; before the first pairing a group belongs to its HOME (R360). -/
def State.groupOf (s : State) (g : Nat) : Group := Table.get g { owner := s.on Reg.OWN_GROUP_CFG.HOME g } s.own.groups

/-- Whether a group is served here by the table (R359): with OWN_CTRL.EN at 0 every group is (R380). -/
def State.ownsGroup (s : State) (g : Nat) : Bool := !(s.on Reg.OWN_CTRL.EN) || (s.groupOf g).owner == s.headB

/-- The head whose page numbers a namespace's tree uses (R255): its owner. True: head B. -/
def State.nsOwner (s : State) (nsid : Nat) : Bool :=
  match Table.find nsid s.map.ns with
  | some n => if s.on Reg.OWN_CTRL.EN then (s.groupOf n.group).owner else s.headB
  | none => s.headB

/-! Pages -/

/-- MAP_POOL_USE, MAP_RECLAIM and DDR_WC_META follow the pages (R176, R183, R278). -/
def State.noteMap (s : State) : State :=
  have s := s.noteMeta
  (s.wr Reg.MAP_POOL_USE.RESIDENT (s.map.pages.countP fun e => e.2.slot.isSome)).wr Reg.MAP_RECLAIM.PAGES s.map.zero.length

/-- The page numbers that a head has left (R255, R262). -/
def State.numbersLeft (s : State) (b : Bool) : Nat :=
  2 ^ s.rd Reg.MAP_DIR_COUNT.LOG2 - (if b then s.map.nextB else s.map.nextA) +
    (s.map.freed.countP fun n => n % 2 == if b then 1 else 0)

/-- A free page number of a head (R255): one returned to the free list, else the next unused. Event 0x4002 when it is the last (R262). With none
left the change that asked for it finds none. -/
def State.takeNumber (s : State) (b : Bool) : Nat × State :=
  have left := s.numbersLeft b
  if left = 0 then (0, { s with map.short := true })
  else
    have number (k : Nat) : Nat := if b then 2 * k + 1 else 2 * k
    let (n, s) := match s.map.freed.find? fun n => n % 2 == if b then 1 else 0 with
      | some n => (n, { s with map.freed := s.map.freed.erase n })
      | none =>
        have first := if b then s.map.nextB else s.map.nextA
        have k := first + (((List.range (s.map.pages.length + 1)).find? fun k => !(Table.has (number (first + k)) s.map.pages)).getD 0)
        (number k, if b then { s with map.nextB := k + 1 } else { s with map.nextA := k + 1 })
    (n, if left = 1 then s.event 0x4002 else s)

/-- The roots of namespaces and snapshots: a page pinned in the pool (R256). -/
def State.isRoot (s : State) (n : Nat) : Bool := s.map.ns.any fun e => e.2.root == n

/-- Whether any child of a page is resident: such a page stays (R256). -/
def State.residentChild (s : State) (p : MapPage) : Bool := p.kids.any fun k => (s.page k.2).slot.isSome

/-- A free slot of the page pool (R256): one unused, else one of a page evicted, from the leaves up, a clean one first; a dirty one is written back
before. Pages that the caller works on stay. None where every page is a root or has a resident child (R262). -/
def State.takeSlot (s : State) (keep : List Nat) : Option Nat × State :=
  have used := s.map.pages.filterMap fun e => e.2.slot
  if used.length < s.rd Reg.MAP_POOL_SLOTS.SLOTS then
    ((List.range (used.length + 1)).find? fun k => !used.contains k, s)
  else
    have may := s.map.pages.filter fun e => e.2.slot.isSome && !(s.isRoot e.1) && !(s.residentChild e.2) && !(keep.contains e.1)
    match (may.find? fun e => !e.2.dirty).or may.head? with
    | some e =>
      have s := s.writeBack e.1
      (e.2.slot, ((s.setPage e.1 { s.page e.1 with slot := none }).dropDir e.1))
    | none => (none, s.event 0x4003)

/-- The referrer lists take a page for the places that it names (R258). -/
def State.refer (s : State) (n : Nat) (locs : List Loc) : State :=
  { s with map.referrers := (locs.filterMap Loc.holder).foldl (fun t k =>
      Table.upd k [] (fun l => if l.contains n then l else l ++ [n]) t) s.map.referrers }

/-- QM changes a page: its referrer lists follow, and outstanding fills of its lines are poisoned (R258, R273, R276). -/
def State.putPage (s : State) (n : Nat) (p : MapPage) : State :=
  ((s.setPage n { p with dirty := true }).refer n (p.exts.map Extent.loc)).qmWrite n

/-- A new page (R260): a number, a slot, a count of 1. A change that finds no number or no slot waits. -/
def State.newPage (s : State) (b : Bool) (keep : List Nat) (p : MapPage) : Nat × State :=
  let (n, s) := s.takeNumber b
  let (slot, s) := s.takeSlot keep
  have s := if slot.isNone then { s with map.short := true } else s
  (n, (s.putPage n { p with refs := 1, slot := slot, image := false, place := none }).noteMap)

/-- QM changes a page's count, in its directory entry (R255, R259). -/
def State.putRefs (s : State) (n refs : Nat) : State := (s.setPage n { s.page n with refs := refs }).qmDir n

/-- A page's count rises by 1 (R259). -/
def State.holdPage (s : State) (n : Nat) : State := s.putRefs n ((s.page n).refs + 1)

/-- A page's count falls by 1; at zero it waits for reclaim (R261). -/
def State.dropPage (s : State) (n : Nat) : State :=
  have r := (s.page n).refs
  have s := s.putRefs n (r - 1)
  if r ≤ 1 then ({ s with map.zero := s.map.zero ++ [n] }).noteMap else s

/-! Walks -/

/-- The bounds of a child: from its first address to the next child's, or to the page's end. -/
def kidBounds (hi : Nat) : List (Nat × Nat) → List (Nat × Nat × Nat)
  | [] => []
  | [(a, n)] => [(a, hi, n)]
  | (a, n) :: (b, m) :: r => (a, b, n) :: kidBounds hi ((b, m) :: r)

/-- The pages that a lookup of a range visits, parents first (R256). -/
def State.walk (s : State) : Nat → Nat → Nat → Nat → List Nat
  | 0, n, _, _ => [n]
  | d + 1, n, lo, hi =>
    have p := s.page n
    n :: ((kidBounds p.hi p.kids).filter fun k => decide (k.1 < hi ∧ lo < k.2.1)).flatMap fun k => s.walk d k.2.2 lo hi

/-- The offsets in a page of the entries that a lookup of a range reads (R254, R256). -/
def MapPage.reads (p : MapPage) (lo hi : Nat) : List Nat :=
  if p.level = 0 then (p.exts.zipIdx.filter fun x => decide (x.1.addr < hi ∧ lo < x.1.addr + x.1.len)).map fun x => 64 + 32 * x.2
  else ((kidBounds p.hi p.kids).zipIdx.filter fun x => decide (x.1.1 < hi ∧ lo < x.1.2.1)).map fun x => 64 + 16 * x.2

/-- A walk's look at a page (R256): the line of its directory entry, and where it is resident the lines of the entries needed. -/
def State.touchPage (s : State) (lo hi n : Nat) : State :=
  have s := s.cacheLookup (s.dirAddr n)
  have p := s.page n
  if p.slot.isSome then
    (((p.reads lo hi).map fun o => o / 256).eraseDups.map fun l => s.pageAddr p + 256 * l).foldl State.cacheLookup s
  else s

/-- The lookups of a walk through the map cache (R256, R272): the namespace's entry, then each page, up to the first that is not resident. -/
def State.touchWalk (s : State) (nsid root lo hi : Nat) : State :=
  have pages := s.walk 8 root lo hi
  have there := pages.takeWhile fun n => (s.page n).slot.isSome
  (pages.take (there.length + 1)).foldl (State.touchPage · lo hi ·) (s.cacheLookup (s.nsAddr nsid))

/-- The first page of a lookup that is not resident (R256). -/
def State.firstFault (s : State) (root lo hi : Nat) : Option Nat :=
  (s.walk 8 root lo hi).find? fun n => (s.page n).slot.isNone

/-- The extents that overlap a range (R253), in address order. -/
def State.extents (s : State) (root lo hi : Nat) : List Extent :=
  (s.walk 8 root lo hi).flatMap fun n => (s.page n).exts.filter fun e => decide (e.addr < hi ∧ lo < e.addr + e.len)

/-- An extent cut to a range, its chunk offset advanced (R253). -/
def Extent.clip (e : Extent) (lo hi : Nat) : Extent :=
  have a := max e.addr lo
  have b := min (e.addr + e.len) hi
  { e with addr := a, len := b - a, off := e.off + (a - e.addr) }

/-- A range as pieces in address order: the extents over it, and zeros where no extent lies (R253). -/
def cover (hi : Nat) : List Extent → Nat → List Extent
  | [], at_ => if at_ < hi then [{ addr := at_, len := hi - at_, loc := .zero }] else []
  | e :: r, at_ =>
    have rest := e :: cover hi r (e.addr + e.len)
    if at_ < e.addr then { addr := at_, len := e.addr - at_, loc := .zero } :: rest else rest

/-- What a lookup of a byte range of a tree answers (R253, R256). -/
def State.resolve (s : State) (root lo hi : Nat) : List Extent :=
  cover hi ((s.extents root lo hi).map fun e => e.clip lo hi) lo

/-! Changes -/

/-- A page made private to one parent before a change (R260): a page whose count is above 1 is copied, the copy counts 1, the
original one less, and every child or container that the copy names one more. -/
def State.privatePage (s : State) (b : Bool) (keep : List Nat) (n : Nat) : Nat × State :=
  have p := s.page n
  if p.refs ≤ 1 then (n, s)
  else
    let (m, s) := s.newPage b (n :: keep) p
    have s := p.kids.foldl (fun s k => s.holdPage k.2) s
    have s := p.exts.foldl (fun s e => s.addRef e.loc) s
    (m, s.dropPage n)

/-- A leaf's extents with a range cut out (R253). -/
def cutRange (lo hi : Nat) (es : List Extent) : List Extent :=
  es.flatMap fun e =>
    (if e.addr < lo then [e.clip e.addr (min lo (e.addr + e.len))] else []) ++
      (if hi < e.addr + e.len then [e.clip (max hi e.addr) (e.addr + e.len)] else [])

/-- An extent put in its place by address. -/
def placeExtent (e : Extent) : List Extent → List Extent
  | [] => [e]
  | x :: r => if x.addr < e.addr then x :: placeExtent e r else e :: x :: r

/-- A leaf's extents after an extent has been applied (R253): an extent of kind 0 only removes. -/
def applyExtents (e : Extent) (es : List Extent) : List Extent :=
  have rest := (cutRange e.addr (e.addr + e.len) es).filter fun x => decide (0 < x.len)
  match e.loc with
  | .unmapped => rest
  | _ => placeExtent { e with fp := none, isNew := false, noIndex := false } rest

/-- A leaf page takes new extents: every reference of the new list is counted before one of the old is dropped (R260). A leaf
with more than 125 entries is split in two (R254). -/
def State.setLeaf (s : State) (b : Bool) (keep : List Nat) (n : Nat) (es : List Extent) : List (Nat × Nat) × State :=
  have p := s.page n
  have s := es.foldl (fun s e => s.addRef e.loc) s
  have s := p.exts.foldl (fun s e => s.dropRef e.loc) s
  if es.length ≤ 125 then ([(p.lo, n)], s.putPage n { p with exts := es })
  else
    have half := es.length / 2
    have mid := ((es.drop half).map Extent.addr).headD p.hi
    let (m, s) := s.newPage b (n :: keep) { lo := mid, hi := p.hi, exts := es.drop half }
    ([(p.lo, n), (mid, m)], s.putPage n { p with hi := mid, exts := es.take half })

/-- An interior page takes new children; one with more than 251 is split in two (R254). -/
def State.setKids (s : State) (b : Bool) (keep : List Nat) (n : Nat) (ks : List (Nat × Nat)) : List (Nat × Nat) × State :=
  have p := s.page n
  if ks.length ≤ 251 then ([(p.lo, n)], s.putPage n { p with kids := ks })
  else
    have half := ks.length / 2
    have mid := ((ks.drop half).map Prod.fst).headD p.hi
    let (m, s) := s.newPage b (n :: keep) { level := p.level, lo := mid, hi := p.hi, kids := ks.drop half }
    ([(p.lo, n), (mid, m)], s.putPage n { p with hi := mid, kids := ks.take half })

/-- An extent is applied under a page (R253, R260): the answer lists the pages that take the page's place in its parent. `keep` lists the pages above
it. -/
def State.applyUnder (b : Bool) (e : Extent) : Nat → List Nat → Nat → State → List (Nat × Nat) × State
  | 0, _, n, s => ([((s.page n).lo, n)], s)
  | d + 1, keep, n, s =>
    let (n, s) := s.privatePage b keep n
    have p := s.page n
    if p.level = 0 then s.setLeaf b keep n (applyExtents e p.exts)
    else
      let (ks, s) := (kidBounds p.hi p.kids).foldl (fun acc k =>
        if k.1 < e.addr + e.len ∧ e.addr < k.2.1 then
          let (new, s) := State.applyUnder b (e.clip k.1 k.2.1) d (n :: keep) k.2.2 acc.2
          (acc.1 ++ new, s)
        else (acc.1 ++ [(k.1, k.2.2)], acc.2)) ([], s)
      s.setKids b keep n ks

/-- An extent is applied to a tree: its new root (R253, R260). A root that splits gets a new root above it. -/
def State.applyRoot (s : State) (b : Bool) (root : Nat) (e : Extent) : Nat × State :=
  let (ks, s) := State.applyUnder b e 8 [] root s
  match ks with
  | [] => (root, s)
  | [(_, n)] => (n, s)
  | (a, n) :: r =>
    have p := s.page n
    s.newPage b [n] { level := p.level + 1, lo := 0, hi := 2 ^ 63, kids := (a, n) :: r }

/-- A namespace with its tree changed, which QM writes (R263, R273). -/
def State.setRoot (s : State) (nsid root : Nat) : State :=
  ({ s with map.ns := Table.modify nsid (fun n => { n with root := root }) s.map.ns }).qmLines (s.nsAddr nsid) 1

/-- The containers that a delta names gain a reference before any extent of it is applied (R260): none reaches zero in passing. -/
def State.holdRefs (s : State) (delta : List Extent) : State := delta.foldl (fun s e => s.addRef e.loc) s

/-- The containers that a delta names lose the reference again, after the last extent is applied (R260). -/
def State.dropRefs (s : State) (delta : List Extent) : State := delta.foldl (fun s e => s.dropRef e.loc) s

/-- A map delta is applied to a namespace's live tree (R253, R257, R260). -/
def State.applyDelta (s : State) (nsid : Nat) (delta : List Extent) : State :=
  ((delta.foldl (fun s e =>
    match Table.find nsid s.map.ns with
    | none => s
    | some n =>
      let (root, s) := s.applyRoot (s.nsOwner nsid) n.root e
      s.setRoot nsid root) (s.holdRefs delta)).dropRefs delta).noteMap

/-- The page that an update of a tree waits for: the first on the way to one of its extents that is not resident and can be read (R256). -/
def State.updateFault (s : State) (root : Nat) (delta : List Extent) : Option Nat :=
  delta.findSome? fun e => (s.walk 8 root e.addr (e.addr + e.len)).find? fun n => (s.page n).slot.isNone && !(s.page n).gone

/-- An update of a namespace's live tree, and whether it could be made: it waits for MAP_CTRL.EN (R278), for a page (R256), or for a page number or a
slot (R262). -/
def State.updateTree (s : State) (nsid : Nat) (delta : List Extent) : Bool × State :=
  have root := ((Table.find nsid s.map.ns).map Namespace.root).getD 0
  if !(s.on Reg.MAP_CTRL.EN) || (Table.has nsid s.map.ns && (s.updateFault root delta).isSome) then (false, s)
  else
    have t := State.applyDelta { s with map.short := false } nsid delta
    if t.map.short then (false, s) else (true, t)

/-- A page fault of an update is raised (R256). -/
def State.raiseUpdate (s : State) (nsid : Nat) (delta : List Extent) : Option Nat × State :=
  have root := ((Table.find nsid s.map.ns).map Namespace.root).getD 0
  match s.on Reg.MAP_CTRL.EN, s.updateFault root delta with
  | true, some p => (some p, s.bump Reg.MAP_PAGE_FAULTS.COUNT)
  | _, _ => (none, s)

/-- A delta of the peer waits (R168, R256). -/
def State.queueDelta (s : State) (nsid : Nat) (delta : List Extent) : State :=
  let (p, s) := s.raiseUpdate nsid delta
  { s with map.deltas := s.map.deltas ++ [{ nsid := nsid, delta := delta, page := p }] }

/-- A delta of the peer enters the replica, or waits with those of its namespace that wait before it (R168, R256). -/
def State.replicaDelta (s : State) (nsid : Nat) (delta : List Extent) : State :=
  if s.map.deltas.any fun d => d.nsid == nsid then s.queueDelta nsid delta
  else
    let (done, s) := s.updateTree nsid delta
    if done then s else s.queueDelta nsid delta

/-- The waiting deltas are tried again, in order: those that waited for a page that is there now, or for something else. -/
def State.resumeDeltas (s : State) : State :=
  have all := s.map.deltas
  all.foldl (fun s d =>
    if d.page.any fun p => (s.page p).slot.isNone && !(s.page p).gone && Table.has p s.map.pages then { s with map.deltas := s.map.deltas ++ [d] }
    else s.replicaDelta d.nsid d.delta) { s with map.deltas := [] }

/-- An empty tree (R72): one leaf page that covers every address. A number asked for is taken where it is unused. -/
def State.emptyTree (s : State) (b : Bool) (want : Option Nat := none) : Nat × State :=
  match want with
  | some n =>
    if Table.has n s.map.pages || (n % 2 == 1) != b then s.newPage b [] { hi := 2 ^ 63 }
    else
      have s := { s with map.freed := s.map.freed.erase n }
      let (slot, s) := s.takeSlot []
      (n, (s.putPage n { hi := 2 ^ 63, refs := 1, slot := slot }).noteMap)
  | none => s.newPage b [] { hi := 2 ^ 63 }

/-- The pages that name a place: those of its holder's referrer list that still do (R257, R258); a remote place has no holder here, and every page is
looked at. -/
def State.referring (s : State) (loc : Loc) : List Nat :=
  have names (n : Nat) : Bool := (s.page n).exts.any fun e => e.loc == loc
  match loc.holder with
  | some k => (Table.get k [] s.map.referrers).filter names
  | none => (s.map.pages.map Prod.fst).filter names

/-- Every extent that names a place is rewritten to another, in place, in every tree (R257). A page that is not resident is faulted in for it, and the
old place's holder waits for that (R258). -/
def State.rewritePages (s : State) (old new : Loc) : State :=
  have moved (e : Extent) : Extent := if e.loc = old then { e with loc := new } else e
  (s.referring old).foldl (fun s n =>
    have p := s.page n
    have s := s.putPage n { p with exts := p.exts.map moved }
    match p.slot, p.gone, old.holder with
    | none, false, some k => ({ s with map.late := s.map.late ++ [(n, k)] }).bump Reg.MAP_PAGE_FAULTS.COUNT
    | _, _, _ => s) s

/-- Whether the referrer list of a holder is still being walked: a page of it is not resident yet (R258). -/
def State.walkOpen (s : State) (holder : Nat) : Bool := s.map.late.any fun e => e.2 == holder

/-- The images of pages at a place follow it (R255). -/
def State.movePlaces (s : State) (old new : Loc) : State :=
  ((s.map.pages.filter fun e => e.2.place == some old).map Prod.fst).foldl (fun s n =>
    (s.setPage n { s.page n with place := some new }).dropDir n) s

/-- Whether a place holds the image of a map page (R255). -/
def State.isImage (s : State) (loc : Loc) : Bool := s.map.pages.any fun e => e.2.place == some loc

/-- Every extent that names a place is rewritten to another (R257), in place, in every tree; the references, a page whose image lies there, and the index
entry follow, and no count changes. -/
def State.rewriteLoc (s : State) (old new : Loc) : State :=
  if old = new then s
  else
    have n := s.refCount old
    have s := (s.rewritePages old new).movePlaces old new
    have s := if new.counted then s.moveStored old new else s.uncountStored old
    (((s.setCount old 0).setCount new (if new.counted then s.refCount new + n else 0)).moveIndex old new).noteMap

/-- Every reference to a copy goes to another copy (R122, R127), snapshots' included, and this copy is released. What a write
pins goes with the references, so that the write refers to the other copy as well; the other index entries are removed. -/
def State.redirect (s : State) (old new : Loc) : State :=
  have n := s.refCount old
  have s := s.rewritePages old new
  have s := (s.setCount old 0).setCount new (s.refCount new + n)
  have follow (e : IndexEntry) : IndexEntry := if e.loc = old ∧ 0 < e.pins then { e with loc := new } else e
  have s := { s with
    ddp.index := Table.mapVals (fun _ e => follow e) s.ddp.index
    ddp.ghosts := Table.mapVals (fun _ e => follow e) s.ddp.ghosts
    ddp.deferred := s.ddp.deferred.filter fun l => l != old }
  s.releaseStorage old

/-! Namespaces and snapshots -/

/-- The key of a snapshot: NSID × 65,536 + ID. -/
def snapKey (nsid id : Nat) : Nat := nsid * 65536 + id

/-- A snapshot of a namespace. -/
def State.snap (s : State) (nsid id : Nat) : Option Snapshot := Table.find (snapKey nsid id) s.map.snaps

/-- The snapshot IDs that a namespace holds. -/
def State.snapIds (s : State) (nsid : Nat) : List Nat :=
  (s.map.snaps.filter fun e => e.1 / 65536 == nsid).map fun e => e.1 % 65536

/-- Whether a namespace is a member of an enabled replica set (R279, R290). -/
def State.isMember (s : State) (nsid : Nat) : Bool :=
  s.rep.sets.any fun e => e.2.members.any fun m =>
    (if s.on Reg.REP_SET_CFG.ROLE e.1 then m.2 else m.1) == nsid

/-- The metadata changes that are queued, or wait to be, and have not reached their commit point. -/
def State.openChanges (s : State) : List MetaOp :=
  have asked (c : Cmd) : Option MetaOp := match c.change, c.job with
    | some op, _ => some op
    | none, some (.change op) => some op
    | none, _ => none
  (s.cmd.tags.filterMap fun e => if e.2.write.any WriteJob.committed then none else asked e.2) ++
    s.cmd.internal.filterMap fun w => w.made.bind asked

/-- Whether a snapshot's delete has not completed: its ID is not free (R268). -/
def State.idLeaving (s : State) (nsid id : Nat) : Bool := s.cmd.tags.any fun e => e.2.change == some (.snapDelete nsid id)

/-- Whether a snapshot ID of a namespace is in use (R267, R268). -/
def State.idTaken (s : State) (nsid id : Nat) : Bool := (s.snap nsid id).isSome || s.idLeaving nsid id

/-- Whether a clone uses a snapshot: one that is there, or one whose record is queued (R268, R269). -/
def State.snapUsed (s : State) (nsid id : Nat) : Bool :=
  ((s.snap nsid id).any fun x => decide (0 < x.clones)) || s.openChanges.any fun op => match op with
    | .clone src i _ => src == nsid && i == id
    | _ => false

/-- Whether an NSID is in use, or is about to be (R263, R269). -/
def State.nsidTaken (s : State) (nsid : Nat) : Bool :=
  Table.has nsid s.map.ns || s.openChanges.any fun op => match op with
    | .clone _ _ target => target == nsid
    | .nsCreate n .. => n == nsid
    | _ => false

/-- The lowest free snapshot ID of a namespace (R267); a member's own choice never takes an anchor's ID (R290). -/
def State.freeSnapId (s : State) (nsid : Nat) : Option Nat :=
  have limit := if s.isMember nsid then 65532 else 65536
  (List.range (min limit ((s.snapIds nsid).length + s.cmd.tags.length + 1))).find? fun k => !(s.idTaken nsid k)

/-- QM writes a snapshot's entry (R266, R273). -/
def State.qmSnap (s : State) (key : Nat) : State := s.qmLines (s.snapAddr key) 1

/-- The cut of a snapshot (R267 step 3): its entry names the live root, whose count rises by 1. -/
def State.takeCut (s : State) (nsid id time : Nat) (group : Option Nat) : State :=
  match Table.find nsid s.map.ns with
  | none => s
  | some n =>
    have s := { s with map.snaps := Table.put (snapKey nsid id) { root := n.root, time := time, group := group } s.map.snaps }
    (s.qmSnap (snapKey nsid id)).holdPage n.root

/-- A snapshot's entry is removed and its root's count falls by 1 (R268). -/
def State.removeSnap (s : State) (nsid id : Nat) : State :=
  match s.snap nsid id with
  | none => s
  | some x => ({ (s.qmSnap (snapKey nsid id)) with map.snaps := Table.drop (snapKey nsid id) s.map.snaps }).dropPage x.root

/-- A snapshot's clones change by one in number (R269). -/
def State.countClone (s : State) (src id : Nat) (f : Nat → Nat) : State :=
  ({ s with map.snaps := Table.modify (snapKey src id) (fun x => { x with clones := f x.clones }) s.map.snaps }).qmSnap (snapKey src id)

/-- A clone is made (R269): its root is the snapshot's, whose count rises by 1; the snapshot holds one clone more. -/
def State.makeClone (s : State) (src id target : Nat) : State :=
  match s.snap src id, Table.find src s.map.ns with
  | some x, some n =>
    have row : Namespace := { n with root := x.root, source := some (src, id), moving := none, programs := n.programs }
    ((({ s with map.ns := Table.put target row s.map.ns }).qmLines (s.nsAddr target) 1).countClone src id (· + 1)).holdPage x.root
  | _, _ => s

/-- A namespace is deleted (R263): its live root and every snapshot root are dropped; a clone lets its snapshot go (R269). -/
def State.deleteNs (s : State) (nsid : Nat) : State :=
  match Table.find nsid s.map.ns with
  | none => s
  | some n =>
    have s := (s.snapIds nsid).foldl (fun s id => s.removeSnap nsid id) s
    have s := (({ s with map.ns := Table.drop nsid s.map.ns }).qmLines (s.nsAddr nsid) 1).dropPage n.root
    match n.source with
    | none => s
    | some (src, id) => s.countClone src id (· - 1)

/-- A namespace enters the namespace table (R263). -/
def State.addNs (s : State) (nsid : Nat) (n : Namespace) : State :=
  ({ s with map.ns := Table.put nsid n s.map.ns }).qmLines (s.nsAddr nsid) 1

/-- The reservation of a namespace is as a change leaves it (R73): with Persist Through Power Loss the metadata pool keeps it. -/
def State.setResv (s : State) (nsid : Nat) (r : Reservation) : State :=
  { s with
    cmd.resv := Table.put nsid r s.cmd.resv
    store.resv := if r.ptpl then Table.put nsid r s.store.resv else Table.drop nsid s.store.resv }

/-- A namespace's reservation. -/
def State.resvOf (s : State) (nsid : Nat) : Reservation := Table.get nsid {} s.cmd.resv

/-- A host's key on a namespace. -/
def Reservation.keyOf (r : Reservation) (host : Nat) : Option Nat := (r.regs.find? fun e => e.1 == host).map Prod.snd

/-- A reservation without a host: its registration goes, and the reservation with its holder, or with the last registrant of an
all-registrants type. -/
def Reservation.without (r : Reservation) (host : Nat) : Reservation :=
  have regs := r.regs.filter fun e => e.1 != host
  have ends := if r.rtype = 5 ∨ r.rtype = 6 then regs.isEmpty else r.holder == some host
  if ends then { r with regs := regs, holder := none, rtype := 0, gen := r.gen + 1 } else { r with regs := regs, gen := r.gen + 1 }

/-- A registration change: CDW10 [2:0] 0 registers, 1 unregisters, 2 replaces; [3] ignores the current key. None is a conflict. -/
def Reservation.register (r : Reservation) (host cdw10 cur new : Nat) : Option Reservation :=
  have ignores := cdw10.testBit 3
  match cdw10 % 8, r.keyOf host with
  | 0, none => some { r with regs := r.regs ++ [(host, new)], gen := r.gen + 1 }
  | 0, some k => if k = new then some r else none
  | 1, some k => if ignores || k == cur then some (r.without host) else none
  | 2, some k =>
    if ignores || k == cur then
      some { r with regs := r.regs.map fun e => if e.1 = host then (host, new) else e, gen := r.gen + 1 }
    else none
  | 2, none => if ignores then some { r with regs := r.regs ++ [(host, new)], gen := r.gen + 1 } else none
  | _, _ => none

/-- The registrants that a preemption removes: those with the key preempted, but for the host that asks. -/
def Reservation.preempted (r : Reservation) (host key : Nat) : List Nat :=
  (r.regs.filter fun e => e.1 != host && e.2 == key).map Prod.fst

/-- What a change makes of a reservation (R73); none where it conflicts with it. -/
def Reservation.change (r : Reservation) : ResvOp → Option Reservation
  | .register host cdw10 cur new ptpl => (r.register host cdw10 cur new).map fun (r : Reservation) => { r with ptpl := ptpl.getD r.ptpl }
  | .acquire host rtype =>
    match r.holder with
    | none => some { r with holder := some host, rtype := rtype }
    | some h => if h = host ∧ r.rtype = rtype then some r else none
  | .preempt host key rtype =>
    have gone := r.preempted host key
    have kept : Reservation := { r with regs := r.regs.filter (fun e => !gone.contains e.1), gen := r.gen + 1 }
    if r.holder.any fun h => h == host || gone.contains h then some { kept with holder := some host, rtype := rtype } else some kept
  | .release host => if r.holder = some host then some { r with holder := none, rtype := 0 } else some r
  | .clear => some { gen := r.gen + 1, ptpl := r.ptpl }
  | .persist on => some { r with ptpl := on }
  | .set r => some r

/-- A metadata change with the root of its new tree (R270): the empty tree is made before the change is queued, at the peer with the number that the
entry gives. -/
def State.withTree (s : State) (op : MetaOp) (want : Option Nat) : MetaOp × State :=
  match op with
  | .nsCreate nsid tenant pool size group programs _ =>
    let (root, s) := s.emptyTree (s.groupOf group).owner want
    (.nsCreate nsid tenant pool size group programs root, s)
  | .format nsid _ =>
    let (root, s) := s.emptyTree (s.nsOwner nsid) want
    (.format nsid root, s)
  | op => (op, s)

/-- A metadata change takes effect on the tables (R270). A Format puts an empty tree in the place of the live root (R72); a move that ends
sets the pool field (R264). -/
def State.applyMeta (s : State) : MetaOp → State
  | .snapCreate nsid id time group => if (s.snap nsid id).isSome then s else s.takeCut nsid id time group
  | .snapDelete nsid id => s.removeSnap nsid id
  | .clone src id target => if (Table.find target s.map.ns).isSome then s else s.makeClone src id target
  | .nsCreate nsid tenant pool size group programs root =>
    if Table.has nsid s.map.ns then s else
    s.addNs nsid { tenant := tenant, pool := pool, size := size, root := root, group := group, programs := programs }
  | .nsDelete nsid => s.deleteNs nsid
  | .nsChange nsid size programs move =>
    ({ s with map.ns := Table.modify nsid (fun n => { n with
        size := size.getD n.size
        programs := programs.getD n.programs
        pool := if move = some none then n.moving.getD n.pool else n.pool
        moving := move.getD n.moving }) s.map.ns }).qmLines (s.nsAddr nsid) 1
  | .format nsid root =>
    match Table.find nsid s.map.ns with
    | none => s
    | some n => (s.setRoot nsid root).dropPage n.root
  | .reservation nsid op =>
    match (s.resvOf nsid).change op with
    | some r => s.setResv nsid r
    | none => s

/-- The table entry of a metadata change as it stands after the change (R270). -/
def State.rowAfter (s : State) (op : MetaOp) : List Byte :=
  have before := s.changedRow op
  have after := (s.applyMeta op).changedRow op
  match op with
  | .nsDelete _ => invalidRow before
  | _ => if after.isEmpty then before else after

/-- An entry that the peer sends is taken: every field but the root, which is a page of this head's replica of the tree (R270). -/
def State.takeRow (s : State) (x : RootChange) : State :=
  if !(rowGood x.entry) then s
  else
    match x.op with
    | .snapCreate nsid id .. =>
      { s with map.snaps := Table.modify (snapKey nsid id) (fun y => y.taken x.entry) s.map.snaps }
    | .clone _ _ nsid | .nsCreate nsid .. | .nsChange nsid .. | .format nsid _ =>
      { s with map.ns := Table.modify nsid (fun n => n.taken x.entry) s.map.ns }
    | .snapDelete .. | .nsDelete _ | .reservation .. => s

/-! The lost list (R211, R212) -/

/-- An entry is written at PROD and PROD advances; when PROD would reach CONS the entry is dropped (R212). -/
def State.lostAppend (s : State) (entry : List Byte) : State :=
  have prod := s.rd Reg.SIG_LOST_PROD.PROD
  have next := (prod + 1) % 65536
  if next = s.rd Reg.SIG_LOST_CONS.CONS then (s.raise Reg.SIG_LOST_PROD.OVERFLOW).event 0x5017
  else
    ({ s with mem := Memory.writeList s.mem (s.rd Reg.SIG_LOST_BASE.BASE + 64 * prod) entry }).wr Reg.SIG_LOST_PROD.PROD next

/-- The fields of a place that a lost-list entry holds. -/
def Loc.fields : Loc → Nat × Nat × Nat × Nat × Nat
  | .flash p q g m o _ | .lost p q g m o _ => (p, q, g, m, 16 * o)
  | .remote _ p q g m o _ => (p, q, g, m, 16 * o)
  | .unmapped | .zero | .cache .. | .image _ => (0, 0, 0, 0, 0)

/-- Every tree: NSID, snapshot ID or 0x1_FFFF for the live tree, root. -/
def State.trees (s : State) : List (Nat × Nat × Nat) :=
  (s.map.ns.map fun e => (e.1, 0x1FFFF, e.2.root)) ++ s.map.snaps.map fun e => (e.1 / 65536, e.1 % 65536, e.2.root)

/-- The extents of every tree that name a place are listed with event 0x500D each (R211 step 4). `full` keeps the container's
fields; a container lost from the write cache is listed with them zero (R509). -/
def State.listExtents (s : State) (loc : Loc) (domain : Nat) (full : Bool) : State :=
  let (p, q, g, m, o) := loc.fields
  s.trees.foldl (fun s t =>
    ((s.extents t.2.2 0 (2 ^ 63)).filter fun e => e.loc == loc).foldl (fun s e =>
      have lba := e.addr / 4096
      have blocks := (e.addr + e.len + 4095) / 4096 - lba
      have entry :=
        if full then lostEntry 2 p domain q g m o loc.size t.1 lba blocks t.2.1 s.ringTime
        else lostEntry 2 0 domain 0 0 0 0 0 t.1 lba blocks t.2.1 s.ringTime
      (s.lostAppend entry).event 0x500D (le 4 t.1 ++ le 4 (lba % 2 ^ 32))) s) s

/-- The lost-list entry of a container (R212). -/
def Loc.lostEntry (loc : Loc) (domain time : Nat) : List Byte :=
  let (p, q, g, m, o) := loc.fields
  Machine.lostEntry 1 p domain q g m o loc.size 0 0 0 0 time

/-- The detail of event 0x500C: the container's quire and signature. -/
def Loc.lostDetail (loc : Loc) : List Byte :=
  let (_, q, g, _, _) := loc.fields
  le 4 q ++ le 4 g

/-- The index entries of a container go, in the index and on flash. -/
def State.forgetIndex (s : State) (loc : Loc) : State :=
  have s := (s.indexKeysOf loc).foldl State.removeIndex s
  { s with ddp.flash := s.ddp.flash.filter fun e => e.loc != loc }

/-- The pool of a lost container shows the loss (R212). -/
def State.markLoss (s : State) (loc : Loc) : State :=
  match loc with
  | .flash pool .. => s.wr Reg.SIG_POOL_STATE.LOSS 1 pool
  | _ => s

/-- The image of a page is lost: a resident page is written back again, and one that is not is found unreadable when it is faulted in (R256). -/
def State.loseImage (s : State) (loc : Loc) : State :=
  ((s.map.pages.filter fun e => e.2.place == some loc).map Prod.fst).foldl (fun s n =>
    have p := s.page n
    (s.setPage n { p with place := none, dirty := p.dirty || p.slot.isSome }).dropDir n) s

/-- A container is lost (R211): it is listed with event 0x500C, leaves both indexes, is marked lost wherever it is named, its
extents are listed, and pairs that hold remote references are told. -/
def State.loseContainer (s : State) (loc : Loc) (domain : Nat) : State :=
  if s.isImage loc then s.loseImage loc else
  have s := (s.lostAppend (loc.lostEntry domain s.ringTime)).event 0x500C loc.lostDetail
  have s := (s.forgetIndex loc).listExtents loc domain true
  have s := (s.rewriteLoc loc loc.toLost).markLoss loc
  (s.ddp.homeRefs.filter fun r => r.cur == loc.toLost || r.cur == loc).foldl (fun s r =>
    r.pairs.foldl (fun s p => s.sendRing (.ring 0x45 [p.1, domain] r.name.bytes)) s) s

/-- A container that cannot be read from the own region is lost where no peer answers (R509): its extents are listed with the
container fields zero. -/
def State.loseCached (s : State) (loc : Loc) (domain : Nat) : State :=
  have s := s.listExtents loc domain false
  have s := (s.indexKeysOf loc).foldl State.removeIndex s
  s.rewriteLoc loc loc.toLost

/-- The domain of a stored container. -/
def State.domainOf (s : State) (loc : Loc) : Nat :=
  match s.keys.stored.find? fun m => m.loc == loc with
  | some m => m.domain
  | none => 0

end Sys2Proof.Machine
end

