-- ==== Sys2Proof/Machine/CmdCore.lean ====
section
/-!
DEFINITION. Machine/CmdCore.lean: tags, decode, range locks, ownership, holds, completion and cancellation of NVMe commands,
as the meanings share them (chapter 03).
-/
namespace Sys2Proof.Machine
open Sys2Proof

/-- An NVMe status of the generic type (SCT 0x0). -/
def generic (sc : Nat) : NvmeStatus := { sct := 0, sc := sc }
/-- A vendor status (SCT 0x7, R101). -/
def vendor (sc : Nat) : NvmeStatus := { sct := 7, sc := sc }

/-- A failing status that no rule states, of a free value: any code type and code, but never success, none of the vendor type, as no 'Returned
when' of R101 holds where it is used, and not Asymmetric Access Transition, which R89 says is never returned. -/
def openStatus (v : Nat) : NvmeStatus :=
  have sct := v / 256 % 7
  if sct = 0 ∧ v % 256 = 0 then { sct := 0, sc := 0x06 }
  else if sct = 3 ∧ v % 256 = 3 then { sct := 3, sc := 0 }
  else { sct := sct, sc := v % 256 }
/-- A media status (SCT 0x2). -/
def media (sc : Nat) : NvmeStatus := { sct := 2, sc := sc }
/-- A path status (SCT 0x3, R89). -/
def pathStatus (sc : Nat) : NvmeStatus := { sct := 3, sc := sc }
/-- The status code type under which the model keeps a status of R415 or of a class code for work that serves a ring command; no
NVMe completion carries it. -/
def ringSct : Nat := 15
/-- Success. -/
def success : NvmeStatus := { sct := 0, sc := 0 }

/-- Blocks of a Read, Write, Compare or Write Zeroes: CDW12[15:0] + 1. -/
def Capsule.nlb (c : Capsule) : Nat := c.cdw12 % 65536 + 1
/-- First LBA of a Read, Write, Compare or Write Zeroes: CDW11 and CDW10. -/
def Capsule.slba (c : Capsule) : Nat := c.cdw10 + 2 ^ 32 * c.cdw11
/-- First LBA of a Program Run: CDW13 and CDW12 (R76). -/
def Capsule.runLba (c : Capsule) : Nat := c.cdw12 + 2 ^ 32 * c.cdw13

/-- The ranges of a Dataset Management: first LBA and block count of each 16-byte range, CDW10[7:0] + 1 of them. -/
def Capsule.ranges (c : Capsule) : List (Nat × Nat) :=
  (List.range (c.cdw10 % 256 + 1)).map fun k => (num (slice c.data (16 * k + 8) 8), num (slice c.data (16 * k + 4) 4))

/-- The last LBA of a namespace. -/
def lastLba : Nat := 2 ^ 64 - 1

/-- The lock that a command takes (R84): exclusive, namespace, first and last LBA. -/
def Capsule.lock (c : Capsule) : Option (Bool × Nat × Nat × Nat) :=
  match c.op with
  | .read => some (false, c.nsid, c.slba, c.slba + c.nlb - 1)
  | .compare => some (c.fused == .first, c.nsid, c.slba, c.slba + c.nlb - 1)
  | .programRun => some (false, c.nsid, c.runLba, c.runLba + c.cdw14 - 1)
  | .write | .writeZeroes => some (true, c.nsid, c.slba, c.slba + c.nlb - 1)
  | .datasetManagement =>
    if c.cdw11.testBit 2 then
      some (true, c.nsid, (c.ranges.map Prod.fst).foldl min lastLba, (c.ranges.map fun r => r.1 + r.2 - 1).foldl max 0)
    else none
  | .snapshotCreate | .cloneCreate | .formatNvm => some (true, c.nsid, 0, lastLba)
  | _ => none

/-- Whether two lock ranges conflict (R85). -/
def locksConflict (a b : Bool × Nat × Nat × Nat) : Bool :=
  a.2.1 == b.2.1 && decide (a.2.2.1 ≤ b.2.2.2 ∧ b.2.2.1 ≤ a.2.2.2) && (a.1 || b.1)

/-- The bytes a command costs in arbitration (R83). -/
def Capsule.cost (c : Capsule) : Nat :=
  have n := match c.op with
    | .read | .write | .compare => c.nlb * 4096
    | .programRun => c.cdw14 * 4096
    | _ => c.sglLen
  min 2097152 (max 4096 n)

/-- Whether an opcode belongs to the admin and Fabrics commands. -/
def NvmeOp.isAdmin : NvmeOp → Bool
  | .getLogPage | .identify | .abort | .setFeatures | .getFeatures | .asyncEventRequest | .firmwareCommit
  | .firmwareDownload | .keepAlive | .connect | .propertyGet | .propertySet | .disconnect | .formatNvm => true
  | _ => false

/-- Whether an opcode is one of the vendor commands (R76). -/
def NvmeOp.isVendor : NvmeOp → Bool
  | .snapshotCreate | .snapshotDelete | .snapshotList | .cloneCreate | .programRun | .programResults => true
  | _ => false

/-- Whether a command changes blocks. -/
def NvmeOp.writes : NvmeOp → Bool
  | .write | .writeZeroes | .datasetManagement => true
  | _ => false

/-! Tags -/

/-- A tag in use. -/
def State.tag (s : State) (t : Nat) : Option Cmd := Table.find t s.cmd.tags

/-- The state with a tag's command put in place. -/
def State.setTag (s : State) (t : Nat) (c : Cmd) : State := { s with cmd.tags := Table.put t c s.cmd.tags }

/-- The state with a tag's command changed. -/
def State.modTag (s : State) (t : Nat) (f : Cmd → Cmd) : State := { s with cmd.tags := Table.modify t f s.cmd.tags }

/-- The counters of R102 follow the tags. -/
def State.noteTags (s : State) : State :=
  have n := s.cmd.tags.length
  have s := (s.wr Reg.CMD_TAG_USE.IN_USE n).peak Reg.CMD_TAG_PEAK.PEAK n
  have s := s.wr Reg.CMD_LOCK_USE.IN_USE (s.cmd.tags.countP fun e => e.2.lockEntry)
  have s := s.wr Reg.CMD_LOCK_USE.WAITING (s.cmd.tags.countP fun e => e.2.state == .lockWait)
  have s := s.wr Reg.CMD_HOLD.HELD (min 65535 (s.cmd.tags.countP fun e => e.2.state == .held))
  (s.wr Reg.CMD_INTAKE.ROLE0 s.cmd.intake0.length).wr Reg.CMD_INTAKE.ROLE1 s.cmd.intake1.length

/-- The lowest number that rising keys leave free. -/
def lowestFree : List Nat → Nat → Nat
  | [], n => n
  | k :: r, n => if k = n then lowestFree r (n + 1) else n

/-- Whether a class may take a tag (R78): no class takes the unused part of another's reserve. -/
def State.mayTag (s : State) (cls : TagClass) : Bool :=
  have free := 131072 - s.cmd.tags.length
  have used (k : TagClass) : Nat := s.cmd.tags.countP fun e => e.2.cls == k
  have int := s.rd Reg.CMD_TAG_RESERVE.INTERNAL - used .internal
  have fwd := s.rd Reg.CMD_TAG_RESERVE.FORWARDED - used .forwardedIn
  match cls with
  | .initiator => decide (int + fwd < free)
  | .internal => decide (fwd < free)
  | .forwardedIn => decide (int < free)

/-! Ownership -/

/-- Whether a peer link is Active (R330, R338). -/
def State.peerReached (s : State) : Bool :=
  [0, 2].any fun l => s.rd Reg.XRN_LINK_STATUS.STATE l == 5 && s.on Reg.XRN_LINK_STATUS.PEER l

/-- What the ownership check finds for a namespace (R87 to R89, R374). -/
inductive Route where
  | here | forward | hold | inaccessible | lost
  deriving DecidableEq, Repr

/-- The route of a group's commands (R89). -/
def State.routeGroup (s : State) (g : Nat) : Route :=
  if !(s.on Reg.OWN_CTRL.EN) then .here
  else if s.own.loser then (if s.peerReached then .forward else .inaccessible)
  else
    have x := s.groupOf g
    match x.state with
    | .moving | .taking => .hold
    | .settled =>
      if x.owner = s.headB then .here
      else if s.own.suspect.isSome then .hold
      else .forward

/-- The route of a namespace's commands: a pool in state Lost answers Persistent Loss where the command would be served
(R89, R209). -/
def State.route (s : State) (nsid : Nat) : Route :=
  match Table.find nsid s.map.ns with
  | none => .here
  | some n =>
    match s.routeGroup n.group with
    | .here => if s.rd Reg.SIG_POOL_STATE.STATE n.pool = 5 then .lost else .here
    | r => r

/-- The ANA state code that this head reports for a group (R89). -/
def State.anaCode (s : State) (g : Nat) : Nat :=
  match s.routeGroup g with
  | .here => if s.map.ns.any fun e => e.2.group == g && s.rd Reg.SIG_POOL_STATE.STATE e.2.pool == 5 then 4 else 1
  | .forward => 2
  | .inaccessible => 3
  | .lost => 4
  | .hold => 0xF

/-! Asynchronous events of a controller -/

/-- A controller's event is reported: it answers an outstanding Asynchronous Event Request, or waits for one (R73). `code` is
the completion's dword 0, `about` its dword 1. -/
def State.notice (s : State) (ctrl code : Nat) (about : Nat := 0) : State :=
  match Table.find ctrl s.cmd.ctrls with
  | none => s
  | some k =>
    match k.aers with
    | [] => { s with cmd.ctrls := Table.put ctrl { k with notices := k.notices ++ [(code, about)] } s.cmd.ctrls }
    | t :: r =>
      have s := { s with cmd.ctrls := Table.put ctrl { k with aers := r } s.cmd.ctrls }
      s.modTag t fun c => { c with status := some { sct := 0, sc := 0, dw0 := code, dw1 := about } }

/-- The groups in use. -/
def State.groupsUsed (s : State) : List Nat := (s.map.ns.map fun e => e.2.group).dedup.mergeSort fun a b => decide (a ≤ b)

/-- The change of one group's ANA state (R89): the change count rises, and every controller that enabled the notice is told, with the group as
ANAGRPID g + 1 (R74) in dword 1 (DESIGN CHOICE, log entry 90: no rule says where a notice carries it). -/
def State.anaNotice (s : State) (g : Nat) : State :=
  have s := { s with cmd.ctrls := Table.mapVals (fun _ k => { k with anaCount := k.anaCount + 1 }) s.cmd.ctrls }
  s.cmd.ctrls.foldl (fun s e => if e.2.aec.testBit 11 then s.notice e.1 0x0C0302 (g + 1) else s) s

/-- What has changed since a state `before` is reported for each group in use whose ANA state is another now (R89). -/
def State.anaChange (s before : State) : State :=
  (s.groupsUsed.filter fun g => before.anaCode g != s.anaCode g).foldl State.anaNotice s

/-- A change of a namespace is entered in every controller's Changed Namespace list, and told to those that enabled the notice (R73,
R505). -/
def State.tellNs (s : State) (nsid : Nat) : State :=
  have s := { s with cmd.ctrls := Table.mapVals (fun _ (k : Controller) =>
    if k.changedNs.contains nsid then k else { k with changedNs := k.changedNs ++ [nsid] }) s.cmd.ctrls }
  s.cmd.ctrls.foldl (fun s e => if e.2.aec.testBit 8 then s.notice e.1 0x040002 else s) s

/-- A metadata change takes effect on the tables (R270), and a namespace's change is told to the controllers. -/
def State.applyChange (s : State) (op : MetaOp) : State :=
  have s := s.applyMeta op
  match op with
  | .nsCreate nsid .. | .nsDelete nsid | .nsChange nsid .. | .clone _ _ nsid => s.tellNs nsid
  | .snapCreate .. | .snapDelete .. | .format .. | .reservation .. => s

/-- A root change of the peer is applied to the replica (R168, R270). -/
def State.applyRootChange (s : State) (x : RootChange) : State :=
  have want := match x.op with
    | .nsCreate _ _ _ _ _ _ root | .format _ root => some root
    | _ => none
  let (op, s) := s.withTree x.op want
  (s.applyChange op).takeRow x

/-- The event that a committed change records (R264, R267 to R269, R277). -/
def State.metaEvent (s : State) : MetaOp → State
  | .snapCreate nsid id _ _ => s.event 0x4004 (le 4 nsid ++ le 4 id)
  | .snapDelete nsid id => s.event 0x4005 (le 4 nsid ++ le 4 id)
  | .clone src _ target => s.event 0x4006 (le 4 src ++ le 4 target)
  | .nsChange nsid _ _ (some none) => s.event1 0x400A nsid
  | .nsChange .. | .nsCreate .. | .nsDelete _ | .format .. | .reservation .. => s

/-! Decode -/

/-- A namespace's tenant. -/
def State.tenantOf (s : State) (nsid : Nat) : Nat :=
  match Table.find nsid s.map.ns with
  | some n => n.tenant
  | none => 0

/-- Whether a namespace is the target of an enabled replica set (R72, R294). -/
def State.isTarget (s : State) (nsid : Nat) : Bool :=
  s.rep.sets.any fun e => s.on Reg.REP_SET_CFG.EN e.1 && (s.on Reg.REP_SET_CFG.ROLE e.1 || e.2.writesRefused) &&
    e.2.members.any fun m => (if s.on Reg.REP_SET_CFG.ROLE e.1 then m.2 else m.1) == nsid

/-- Whether a reservation permits an access by a host (R99). Types 1 to 6 are those of NVMe: write exclusive and exclusive
access, for the holder, for registrants only, and for all registrants. -/
def Reservation.permits (r : Reservation) (host : Nat) (writes : Bool) : Bool :=
  have registered := r.regs.any fun e => e.1 == host
  match r.holder with
  | none => true
  | some h =>
    h == host ||
      match r.rtype with
      | 1 => !writes
      | 2 => false
      | 3 | 5 => !writes || registered
      | _ => registered

/-- The host that a command comes from: its controller's, or the one that a forwarded-in command names; internal work comes from none. -/
def State.hostOf (s : State) (c : Cmd) : Option Nat :=
  match c.cls with
  | .initiator => (Table.find c.ctrl s.cmd.ctrls).map Controller.hostId
  | .forwardedIn => some c.hostId
  | .internal => none

/-- The reservation check of a command (R99). -/
def State.resvPermits (s : State) (c : Cmd) : Bool :=
  match Table.find c.cap.nsid s.cmd.resv, s.hostOf c with
  | some r, some h => r.permits h (c.cap.op.writes || c.cap.op == .formatNvm)
  | _, _ => true

/-- The range checks of the vendor commands' own dwords (R76): values outside the stated ranges. -/
def Capsule.vendorRange (c : Capsule) : Bool :=
  match c.op with
  | .snapshotCreate => decide (c.cdw10 ≤ 0x10000) && decide (c.cdw11 ≤ 1) && (c.cdw11 == 1 || c.cdw12 == 0)
  | .snapshotDelete | .snapshotList => decide (c.cdw10 ≤ 0xFFFF)
  | .cloneCreate => decide (c.cdw10 ≤ 0xFFFF)
  | .programRun => decide (c.cdw10 ≤ 0xFF)
  | _ => true

/-- Whether a command's transfer is what its SGL declares: the commands with data whose length no block count gives (R83, R99). -/
def NvmeOp.declaresAll : NvmeOp → Bool
  | .getLogPage | .identify | .firmwareDownload | .connect | .resvRegister | .resvReport | .resvAcquire | .resvRelease | .snapshotList
  | .programRun | .programResults => true
  | _ => false

/-- The checks of a capsule against its own contents (R73, R76, R99): the first that fails. -/
def State.checkFields (s : State) (c : Cmd) : Option NvmeStatus :=
  have k := c.cap
  if c.admin != k.op.isAdmin then some (generic 0x01)
  else if k.op = .other then some (generic 0x01)
  else if (k.op = .firmwareCommit ∨ k.op = .firmwareDownload) ∧ s.on Reg.CMD_CTRL.INIT_FW_EN = false then some (generic 0x01)
  else if k.op.isVendor && !(k.reservedZero && k.vendorRange) then some (generic 0x02)
  else if k.sgl = .other then some (generic 0x11)
  else if k.sgl = .inCapsule ∧ (k.data.length < k.sglLen ∨ 8192 < k.data.length) then some (generic 0x0F)
  else if k.op.declaresAll && decide (2097152 < k.sglLen) then some (generic 0x02)
  else if k.op.isAdmin then none
  else if k.op = .flush ∧ k.nsid = 0xFFFFFFFF then none
  else if k.op = .programResults then none
  else
    match Table.find k.nsid s.map.ns with
    | none => some (generic 0x0B)
    | some n =>
      match k.op with
      | .read | .write | .compare =>
        if k.sglLen < k.nlb * 4096 then some (generic 0x0F)
        else if 2097152 < k.nlb * 4096 then some (generic 0x02)
        else if n.size < k.slba + k.nlb then some (generic 0x80)
        else none
      | .writeZeroes => if n.size < k.slba + k.nlb then some (generic 0x80) else none
      | .datasetManagement =>
        if k.cdw11.testBit 2 && k.ranges.any fun r => decide (n.size < r.1 + r.2) then some (generic 0x80) else none
      | _ => none

/-- The key that encrypts a domain's containers: its cipher slot's current generation, of type XTS-AES-256. A slot that is Damaged or has none
cannot serve (0x3207), nor can one with a key of another type (0x3208) (R154, R157, R508). -/
def State.containerKey (s : State) (domain : Nat) : Except Nat KeyGen :=
  match (Table.find (s.rd Reg.DDP_DOMAIN_KEYS.CIPHER_SLOT domain) s.keys.cipher).bind fun k => if k.damaged then none else k.cur with
  | none => .error 0x3207
  | some g => if g.type = .xts256 then .ok g else .error 0x3208

/-- Whether a domain's keyed-digest slot holds a key (R111); a domain in mode off needs none (R110). -/
def State.digestLoaded (s : State) (domain : Nat) : Bool :=
  s.rd Reg.DDP_DOMAIN_CFG.MODE domain == 0 || Table.has (s.rd Reg.DDP_DOMAIN_KEYS.DIGEST_SLOT domain) s.keys.digest

/-- The event of a key that a write's domain lacks (R111, R154, R157, R508); none where both keys can serve. -/
def State.keyLacking (s : State) (domain : Nat) : Option Nat :=
  have digest := s.rd Reg.DDP_DOMAIN_CFG.MODE domain != 0
  if !(s.digestLoaded domain) then some 0x3001
  else if digest && (Table.find (s.rd Reg.DDP_DOMAIN_KEYS.DIGEST_SLOT domain) s.keys.digest).any DigestSlot.damaged then some 0x3207
  else
    match s.containerKey domain with
    | .error e => some e
    | .ok _ => none

/-- Whether writes are refused because no peer is reachable (R102, R171): UNMIRRORED is 1 in Off or Solo. -/
def State.refusesWrites (s : State) : Bool := s.on Reg.CMD_CTRL.UNMIRRORED && (s.wc.mode == .off || s.wc.mode == .solo)

/-- The refusals of a command that changes blocks, where it is served: the tenant quiesced (R114), no peer with UNMIRRORED
(R102, R171), a full pool (R201), no page number left (R262), a replica target (R294), a key that is missing (R111, R508),
with the event each records. -/
def State.checkWrite (s : State) (c : Cmd) : Option (NvmeStatus × Nat) :=
  match Table.find c.cap.nsid s.map.ns with
  | none => none
  | some n =>
    if !(s.on Reg.DDP_DOMAIN_CFG.EN n.tenant) then some (vendor 0xE2, 0x3009)
    else if s.refusesWrites then some (vendor 0xE3, 0)
    else if s.on Reg.SIG_POOL_STATE.FULL n.pool then some (generic 0x81, 0)
    else if s.numbersLeft (s.nsOwner c.cap.nsid) = 0 then some (generic 0x81, 0)
    else if s.isTarget c.cap.nsid then some (generic 0x20, 0)
    else if c.cap.op != .write then none
    else (s.keyLacking n.tenant).map fun ev => (vendor 0xE1, ev)

/-- The consistency-group check of a Snapshot Create (R267 check 2, R271). -/
def State.groupKnown (s : State) (k : Capsule) : Bool :=
  k.cdw11 % 2 == 0 || (decide (k.cdw12 ≤ 255) && (s.on Reg.MAP_CG_CFG.ARMED k.cdw12 || s.on Reg.MAP_CG_CFG.TAKEN k.cdw12))

/-- Whether a snapshot ID is kept for a replica set's anchors (R290). -/
def State.anchorId (s : State) (nsid id : Nat) : Bool := s.isMember nsid && decide (65532 ≤ id ∧ id ≤ 65535)

/-- The refusals of Snapshot Create, checks 2 to 5 (R267), made at decode and again at the lock's grant. A namespace with no ID left to
choose from is refused as a full one is (DESIGN CHOICE, log entry 124: a member of a replica set keeps four IDs, R290). -/
def State.checkSnapCreate (s : State) (k : Capsule) : Option NvmeStatus :=
  if !(s.groupKnown k) then some (vendor 0xC6)
  else if k.cdw10 != 0x10000 && (s.idTaken k.nsid k.cdw10 || s.anchorId k.nsid k.cdw10) then some (vendor 0xC3)
  else if 65536 ≤ (s.snapIds k.nsid).length || (k.cdw10 == 0x10000 && (s.freeSnapId k.nsid).isNone) then some (vendor 0xC0)
  else if 16777216 ≤ s.map.snaps.length then some (vendor 0xC1)
  else none

/-- Whether a snapshot can be named: it exists and is not being deleted (R268). -/
def State.snapNamed (s : State) (nsid id : Nat) : Bool := (s.snap nsid id).any fun x => !x.deleting

/-- The refusals of Clone Create (R269). -/
def State.checkClone (s : State) (k : Capsule) : Option NvmeStatus :=
  if !(decide (1 ≤ k.cdw11 ∧ k.cdw11 ≤ 65536)) then some (generic 0x02)
  else if !(s.snapNamed k.nsid k.cdw10) then some (vendor 0xC2)
  else if s.nsidTaken k.cdw11 then some (vendor 0xC5)
  else none

/-- A tenant's program slot (R310). -/
def State.programAt (s : State) (tenant slot : Nat) : Option Program :=
  s.prg.table.find? fun p => p.tenant == tenant && p.slot == slot

/-- The refusals of Program Run (R318). With PRG_CTRL.EN at 0, or MAX_TILES at 0, runs are refused with 0xD1 (R328). -/
def State.checkRun (s : State) (k : Capsule) : Option NvmeStatus :=
  match Table.find k.nsid s.map.ns with
  | none => none
  | some n =>
    if !(s.on Reg.PRG_CTRL.EN) || s.rd Reg.PRG_TENANT_CFG.MAX_TILES n.tenant == 0 || !n.programs then some (vendor 0xD1)
    else
      match s.programAt n.tenant k.cdw10 with
      | none => some (vendor 0xD0)
      | some p =>
        if !(s.on Reg.DDP_DOMAIN_CFG.EN n.tenant) then some (vendor 0xE2)
        else if (num (slice p.bytes 3 1)).testBit 4 then some (vendor 0xD1)
        else if k.cdw14 = 0 then some (generic 0x02)
        else if n.size < k.runLba + k.cdw14 then some (generic 0x80)
        else if k.sglLen < 64 ∨ 4096 < k.sglLen then some (generic 0x0F)
        else none

/-- Format NVM is decided by the first row that matches (R72). CDW10: [3:0] format, [4] metadata settings, [7:5] protection
information, [8] its place, [11:9] Secure Erase Settings. -/
def State.checkFormat (s : State) (k : Capsule) : Option NvmeStatus :=
  if k.nsid = 0xFFFFFFFF ∨ Table.has k.nsid s.map.ns = false then some (generic 0x0B)
  else if k.cdw10 % 512 ≠ 0 then some { sct := 1, sc := 0x0A }
  else if 2 ≤ k.cdw10 / 512 % 8 then some (generic 0x02)
  else if s.isTarget k.nsid then some (generic 0x20)
  else none

/-- The checks that a command meets on the head that serves it (R72, R99, R267, R269, R318). A Format meets the rows of R72 first. A
reservation governs the commands that take a range lock, a Snapshot Create and a Clone Create among them as reads, and no other (DESIGN CHOICE,
log entry 114: R73 and R99 do not say which accesses they are). -/
def State.checkServed (s : State) (c : Cmd) : Option (NvmeStatus × Nat) :=
  if c.cap.op = .formatNvm ∧ (s.checkFormat c.cap).isSome then (s.checkFormat c.cap).map fun x => (x, 0)
  else if !(s.resvPermits c) && c.cap.lock.isSome then some (generic 0x83, 0)
  else if c.cap.op.writes then s.checkWrite c
  else
    match c.cap.op with
    | .snapshotCreate => (s.checkSnapCreate c.cap).map fun x => (x, 0)
    | .cloneCreate => (s.checkClone c.cap).map fun x => (x, 0)
    | .programRun => (s.checkRun c.cap).map fun x => (x, 0)
    | _ => none

/-! Segments (R104, R108) -/

/-- The bytes of a segment (R104). -/
def State.segBytes (s : State) : Nat := 262144 * 2 ^ s.rd Reg.BND_SPLIT.SEG

/-- The grid of a domain's fixed mode in bytes, 0 for the content-defined cut (R108). -/
def State.grid (s : State) (domain : Nat) : Nat :=
  match s.rd Reg.DDP_DOMAIN_CFG.CHUNK domain with
  | 1 => 4096
  | 2 => 8192
  | 3 => 16384
  | _ => 0

/-- A division point moved up to the grid (R108); the content-defined mode moves none. -/
def moveUp (grid base p : Nat) : Nat := if grid = 0 then p else (base + p + grid - 1) / grid * grid - base

/-- The parts of a length between rising division points. -/
def cutAt (n : Nat) : List Nat → Nat → List (Nat × Nat)
  | [], at_ => if at_ < n then [(at_, n - at_)] else []
  | p :: r, at_ => if at_ < p then (at_, p - at_) :: cutAt n r p else cutAt n r at_

/-- The segments of a write of `n` bytes whose first byte stands at byte address `base` of its namespace (R104, R108): first
byte and length of each. A moved point that reaches the command's end or the next point is dropped. -/
def divide (seg grid base n : Nat) : List (Nat × Nat) :=
  have pts := ((List.range (n / seg + 1)).drop 1).map fun k => moveUp grid base (k * seg)
  cutAt n (pts.filter fun p => decide (p < n)) 0

/-- The segments of a write, each on its lane (R104): different lanes while enough are in service, then the one with the fewest bytes
queued, the command's own among them. -/
def State.assignLanes (s : State) (wait : Bool) : List (Nat × Nat) → List (Nat × Nat) → List Segment
  | [], _ => []
  | (off, len) :: r, used =>
    have lane := s.pickLane used
    { off := off, len := len, lane := lane, wait := wait } :: s.assignLanes wait r ((lane, len) :: used)

/-! Locks and the start of a command -/

/-- The lock that a tag's command takes. -/
def State.lockOf (s : State) (t : Nat) : Option (Bool × Nat × Nat × Nat) := (s.tag t).bind fun c => c.cap.lock

/-- Whether a tag's lock conflicts with an entry that entered the table before it (R85). -/
def State.lockBlocked (s : State) (t : Nat) (c : Cmd) : Bool :=
  match c.cap.lock with
  | none => false
  | some l => s.cmd.tags.any fun e => e.1 != t && e.2.lockEntry && decide (e.2.order < c.order) &&
      match e.2.cap.lock with
      | some m => locksConflict l m
      | none => false

/-- Lock-table entries in use (R86). -/
def State.lockEntries (s : State) : Nat := s.cmd.tags.countP fun e => e.2.lockEntry

/-- Whether a hold keeps a command from starting (R96, R98): an activation pause holds every command; PS3 entry and exit
hold every command but Keep Alive. -/
def State.holds (s : State) (c : Cmd) : Bool :=
  s.on Reg.CMD_HOLD.ACTIVATION || (s.cmd.phase != .steady && c.cap.op != .keepAlive)

/-- The power state that a command ends a stay in PS3 for (R98): the last operational state of its controller, or what was in
force before. -/
def State.psReturn (s : State) (c : Cmd) : Nat :=
  match Table.find c.ctrl s.cmd.ctrls with
  | some k => if c.cls = .initiator then k.lastOpPs else s.cmd.psBefore
  | none => s.cmd.psBefore

/-- A command becomes Held, behind those held before it (R82, R96). During PS3 entry the first one says what the part returns
to (R98). -/
def State.hold (s : State) (t : Nat) : State :=
  have n := s.cmd.order
  have s := { s with cmd.order := n + 1 }
  have s := s.modTag t fun c => { c with state := .held, heldAt := n }
  if s.cmd.phase = .entering ∧ s.cmd.psWake = none then { s with cmd.psWake := (s.tag t).map s.psReturn } else s

/-- A command starts, or is held (R82). In PS3 a command other than Keep Alive is Held and ends the stay (R98). -/
def State.start (s : State) (t : Nat) : State :=
  match s.tag t with
  | none => s
  | some c =>
    if s.holds c then s.hold t
    else if s.rd Reg.CMD_PS_CFG.EFFECTIVE = 3 ∧ s.cmd.phase = .steady ∧ c.cap.op ≠ .keepAlive then
      (({ s with
        cmd.phase := .exiting
        cmd.psWake := some (s.psReturn c) }).wr Reg.CMD_HOLD.POWER_STATE 1).hold t
    else s.modTag t fun c => { c with state := .running }

/-- A command ends with a status before it has done anything. At decode it holds no lock (R99); one that has been granted is held until the
completion is queued (R85). -/
def State.refuse (s : State) (t : Nat) (st : NvmeStatus) : State := s.modTag t fun c => { c with status := some st }

/-- A lock has been granted (R85). A Snapshot Create is checked again, and a member of a consistency group joins its cut and
is Held until T, or misses it (R267, R271); a Clone Create is checked again (R269). -/
def State.afterLock (s : State) (t : Nat) : State :=
  match s.tag t with
  | none => s
  | some c =>
    match c.cap.op with
    | .snapshotCreate =>
      match s.checkSnapCreate c.cap with
      | some st => s.refuse t st
      | none =>
        if c.cap.cdw11 % 2 = 1 then
          have g := c.cap.cdw12
          if s.on Reg.MAP_CG_CFG.TAKEN g ∨ s.rd Reg.MAP_CG_TIME.T g ≤ s.ringTime then (s.refuse t (vendor 0xC7)).event1 0x4008 g
          else
            have s := { s with map.joined := Table.upd g [] (fun l => l ++ [t]) s.map.joined }
            (s.bump Reg.MAP_CG_CFG.JOINED 1 g).hold t
        else s.start t
    | .cloneCreate =>
      match s.checkClone c.cap with
      | some st => s.refuse t st
      | none => s.start t
    | _ => s.start t

/-- Waiting commands enter the table in arrival order while it has room (R86). -/
def State.admitLocks (s : State) : State :=
  have waiting := s.cmd.tags.filter fun e => e.2.state == .lockWait && !e.2.lockEntry && e.2.status.isNone
  have byOrder := waiting.mergeSort fun a b => decide (a.2.order ≤ b.2.order)
  (byOrder.take (16384 - s.lockEntries)).foldl (fun s e => s.modTag e.1 fun c => { c with lockEntry := true }) s

/-- Every waiting command that no longer conflicts is granted, in the same clock (R85). -/
def State.grantLocks (s : State) : State :=
  have s := s.admitLocks
  have ready := s.cmd.tags.filter fun e => e.2.state == .lockWait && e.2.lockEntry && !e.2.locked && e.2.status.isNone && !(s.lockBlocked e.1 e.2)
  (ready.mergeSort fun a b => decide (a.2.order ≤ b.2.order)).foldl (fun s e =>
    (s.modTag e.1 fun c => { c with locked := true }).afterLock e.1) s

/-- A command asks for its lock (R84 to R86); a command without one starts. -/
def State.requestLock (s : State) (t : Nat) : State :=
  match s.tag t with
  | none => s
  | some c =>
    match c.cap.lock with
    | none => s.start t
    | some _ =>
      have n := s.cmd.order
      have full := decide (16384 ≤ s.lockEntries)
      have s := { s with cmd.order := n + 1 }
      have s := s.setTag t { c with state := .lockWait, order := n, lockEntry := !full }
      (if full then s.bump Reg.CMD_LOCK_FULL.COUNT else s).grantLocks

/-- Internal work waits for a tag of its class (R77, R83). -/
def State.askInternal (s : State) (c : Cmd) : State :=
  have w : Waiting := { cap := c.cap, tenant := c.tenant, at_ := s.cmd.order, made := some c }
  { s with
    cmd.order := s.cmd.order + 1
    cmd.internal := s.cmd.internal ++ [w] }

/-- The internal command of a piece of work. -/
def internalCmd (job : InternalJob) (host : Option HostCmd) (nsid tenant : Nat) : Cmd :=
  { cls := .internal, cap := { qpn := 0, cid := 0, op := .other, nsid := nsid }, tenant := tenant, host := host, job := some job }

/-- The receiving head of a forwarded Write or Compare fetches its data as for a local one (R363, R506). -/
def State.fetchForwarded (s : State) (t : Nat) (c : Cmd) : State :=
  have n := c.cap.nlb * 4096
  match c.cap.op with
  | .write =>
    have segs := s.assignLanes (c.cap.sgl == .inCapsule) (divide s.segBytes (s.grid c.tenant) (c.cap.slba * 4096) n) []
    have s := s.modTag t fun c => { c with write := some { segs := segs } }
    segs.foldl (fun s g => s.startSeg t g.off) s
  | .compare =>
    match c.cap.sgl with
    | .inCapsule => s.modTag t fun c => { c with data := [(0, c.cap.data.take n)] }
    | .keyed | .other => s.queueRead c.cap.qpn t 0 n
  | _ => s

/-- One command is forwarded to the peer (R87, R361). Data of the initiator stays at this head, whose lanes reduce it (R26, R28). The write half
of a Compare-and-Write waits for the compare (R506). -/
def State.forwardOne (s : State) (t : Nat) : State :=
  match s.tag t with
  | none => s
  | some c =>
    have g := match Table.find c.cap.nsid s.map.ns with
      | some n => n.group
      | none => 0
    have s := s.modTag t fun c => { c with state := .forwarded }
    have h : FwdHeader :=
      { rtag := t, tenant := c.tenant, group := g, port := (s.qp c.cap.qpn).lport, gen := (s.groupOf g).gen, hostId := (s.hostOf c).getD 0 }
    have raw := c.cap.op == .write || c.cap.op == .compare
    have s := (s.sendRing (.forward h { c.cap with data := if raw then [] else c.cap.data })).bump Reg.CMD_FWD_STAT.FORWARDED
    if c.cap.fused = .second then s else s.fetchForwarded t c

/-- A command is forwarded to the peer, with its fused other half (R84, R87, R361). -/
def State.forward (s : State) (t : Nat) : State :=
  have s := s.forwardOne t
  match (s.tag t).bind fun c => c.partner with
  | none => s
  | some p => if (s.tag p).any fun c => c.state == .decode then s.forwardOne p else s

/-- The route of a command: Program Results goes to the head named by the handle's bit 31; of a head that is lost, this head answers
(R321). -/
def State.routeCmd (s : State) (c : Cmd) : Route :=
  match c.cap.op with
  | .programResults =>
    if !(s.on Reg.OWN_CTRL.EN) || (c.cap.cdw10.testBit 31 == s.headB) || s.rd Reg.OWN_STATE.PEER == 3 then .here
    else if s.peerReached then .forward else .hold
  | .flush => if c.cap.nsid = 0xFFFFFFFF then .here else s.route c.cap.nsid
  | _ => s.route c.cap.nsid

/-- After decode (R87, R89): the command is served here, forwarded, held, or answered with its group's state. -/
def State.advance (s : State) (t : Nat) : State :=
  match s.tag t with
  | none => s
  | some c =>
    if c.admin && c.cap.op != .formatNvm then s.start t
    else
      match s.routeCmd c with
      | .hold => s.hold t
      | .forward =>
        if c.cls = .forwardedIn then (s.modTag t fun (x : Cmd) => { x with returned := true }).refuse t success else if s.holds c then s.hold t else s.forward t
      | .inaccessible => s.refuse t (pathStatus 0x02)
      | .lost => s.refuse t (pathStatus 0x01)
      | .here =>
        match s.checkServed c with
        | some (st, ev) =>
          have s := s.refuse t st
          if ev = 0 then s else s.event1 ev c.tenant
        | none => s.requestLock t

/-! Completion -/

/-- The latency bucket of a number of nanoseconds (R473). -/
def latencyBucket (l : Nat) : Nat :=
  if l < 64 then l
  else if 2 ^ 32 ≤ l then 896
  else
    have e := Nat.log2 l
    64 + 32 * (e - 6) + (l >>> (e - 5)) % 32

/-- The latency class of a command (R473). -/
def Cmd.latencyClass (c : Cmd) : Nat :=
  if c.cls = .forwardedIn then 4
  else if c.admin then 6
  else if c.peerTag.isSome then 3
  else
    match c.cap.op with
    | .write | .writeZeroes | .datasetManagement => 0
    | .read => if c.leafRead then 1 else 2
    | .programRun => 7
    | _ => 5

/-- A command's latency is counted (R473): one ring cycle is one nanosecond, eight ticks of the model's clock. -/
def State.countLatency (s : State) (c : Cmd) : State :=
  have k := c.latencyClass * 1024 + latencyBucket ((s.clock - c.started) / 8)
  { s with evt.hist := Table.upd k 0 (fun n => n + 1) s.evt.hist }

/-- Whether the write of a tag and ticket is neither past its commit point nor ended (R93). -/
def State.writeOpen (s : State) (t : Nat × Nat) : Bool :=
  match s.tag t.1 with
  | none => false
  | some c => c.ticket == t.2 && c.status.isNone && c.state != .completing && !(c.write.any WriteJob.committed)

/-- Every Flush whose covered writes have all ended completes (R93). -/
def State.settleFlush (s : State) : State :=
  have done := s.cmd.tags.filter fun e =>
    e.2.cap.op == .flush && e.2.begun && e.2.status.isNone && !(e.2.covers.any s.writeOpen)
  done.foldl (fun s e => s.modTag e.1 fun c => { c with status := some success }) s

/-- A command's status is set: its completion can be queued. -/
def State.finish (s : State) (t : Nat) (st : NvmeStatus) : State :=
  s.modTag t fun c => { c with status := some (c.status.getD st) }

/-- A capsule's completion (R80): the status, the SQ head of its queue, and the key to invalidate where the capsule asks for that. -/
def State.completionOf (s : State) (k : Capsule) (st : NvmeStatus) : RoceOut :=
  .completion k.cid st (s.qp k.qpn).nvme.head (if k.invalidate && k.sgl == .keyed then some k.sglKey else none)

/-- The answer of a completion to whoever sent the command (R30, R362). -/
def State.answer (s : State) (t : Nat) (c : Cmd) (st : NvmeStatus) : State :=
  if c.discard then s
  else
    match c.cls with
    | .initiator =>
      have owe (q : Qp) : Qp := { q with capsulesUnacked := q.capsulesUnacked + 1 }
      have s := { s with trn.qps := Table.modify c.cap.qpn owe s.trn.qps }
      s.transmit c.cap.qpn 1 (s.completionOf c.cap st)
    | .forwardedIn =>
      have h : FwdHeader :=
        { rtag := c.peerTag.getD 0, otag := t, tenant := c.tenant, final := true, returned := c.returned, status := if c.returned then success else st }
      s.sendRing (.forwardReply h)
    | .internal =>
      match c.host with
      | some h => s.complete h (if st.sct = ringSct then st.sc else 0) st.dw0
      | none => s

/-- A run no longer answers to the tag of its command (R319): its results wait under its handle. -/
def State.detachRuns (s : State) (t : Nat) : State :=
  { s with prg.runs := Table.mapVals (fun _ (r : Run) => if r.tag = some t then { r with tag := none } else r) s.prg.runs }

/-- What the end of one half of a fused pair is for the other (R99): a first half that fails aborts a second one that has not started, and a
half that ends is no longer waited for. -/
def State.endHalf (s : State) (c : Cmd) (st : NvmeStatus) : State :=
  match c.partner with
  | none => s
  | some p =>
    match s.tag p with
    | none => s
    | some w =>
      have s := s.modTag p fun w => { w with partner := none }
      if c.cap.fused = .first ∧ w.state = .decode ∧ w.status.isNone = true ∧ ¬(st.sct = 0 ∧ st.sc = 0) then s.refuse p (generic 0x09) else s

/-- The reservation changes of a namespace whose records have been queued and that have yet to take effect, in that order. -/
def State.resvQueue (s : State) (nsid : Nat) : List (Nat × Cmd) :=
  (s.cmd.tags.filter fun e => e.2.state != .completing && (e.2.write.any WriteJob.queued) && (match e.2.change with
    | some (.reservation n _) => n == nsid
    | _ => false)).mergeSort fun a b => decide (a.2.resvAt ≤ b.2.resvAt)

/-- A namespace's reservation as it will stand after the changes that are under way, by which a further one is judged. -/
def State.resvDue (s : State) (nsid : Nat) : Reservation :=
  (s.resvQueue nsid).foldl (fun r e => match e.2.change with
    | some (.reservation _ op) => (r.change op).getD r
    | _ => r) (s.resvOf nsid)

/-- Whether a reservation change waits for one of its namespace that was queued before it: they take effect in the order of their records,
as at the peer. -/
def State.resvBehind (s : State) (t : Nat) (c : Cmd) : Bool :=
  match c.change with
  | some (.reservation nsid _) => (s.resvQueue nsid).any fun e => e.1 != t && decide (e.2.resvAt < c.resvAt)
  | _ => false

/-- The internal work that a Set Features asked for is done (R505): the command completes. -/
def State.endServed (s : State) (t : Nat) (c : Cmd) : State :=
  match c.serves with
  | none => s
  | some u =>
    have left := (s.cmd.internal.any fun w => w.made.bind Cmd.serves == some u) ||
      s.cmd.tags.any fun e => e.1 != t && e.2.serves == some u && e.2.state != .completing
    if !left && (s.tag u.1).any fun x => x.ticket == u.2 then s.finish u.1 success else s

/-- A completion is queued to QT (R30, R82, R85): the command is Completing, its lock is released, and every command that no
longer conflicts is granted. A reservation change takes effect here, where it can no longer be aborted (R90), and is a conflict where one that was
cancelled meanwhile has left it no ground (R99). -/
def State.queueCompletion (s : State) (t : Nat) : State :=
  match s.tag t with
  | none => s
  | some c =>
    match c.status with
    | none => s
    | some st =>
      if c.state = .completing || s.resvBehind t c then s
      else
        have st := match c.change with
          | some (.reservation nsid op) => if st = success ∧ ((s.resvOf nsid).change op).isNone then generic 0x83 else st
          | _ => st
        have c := { c with status := some st }
        have s := { s.setTag t { c with state := .completing, locked := false, lockEntry := false } with cmd.posting := s.cmd.posting ++ [t] }
        have s := if c.discard then s else s.countLatency c
        have s := if c.cap.op = .programRun then s.detachRuns t else s
        have s := match c.change with
          | some (.reservation nsid r) => if st.sct = 0 ∧ st.sc = 0 then s.applyChange (.reservation nsid r) else s
          | _ => s
        (((s.endServed t c).endHalf c st).grantLocks.settleFlush).noteTags

/-- The completion of one tag is accepted, and the rest wait (R29, R81). -/
def State.acceptOne (s : State) (u : Nat) (rest : List Nat) : State :=
  have s := { s with cmd.posting := rest }
  match s.tag u with
  | some c => s.answer u c (c.status.getD success)
  | none => s

/-- The queue accepts the completions up to that of a tag, in the order they were queued (R82, R92): each leaves, unless it is discarded
(R94). -/
def State.acceptUpTo (t : Nat) : List Nat → State → State
  | [], s => s
  | u :: r, s =>
    have s := s.acceptOne u r
    if u = t then s else State.acceptUpTo t r s

/-- A completing tag is freed once the queue has accepted its completion and every RDMA Read it issued is answered or its queue pair has gone to
Error (R82). -/
def State.freeTag (s : State) (t : Nat) : State :=
  have s := if s.cmd.posting.contains t then State.acceptUpTo t s.cmd.posting s else s
  match s.tag t with
  | none => s
  | some c =>
    have dead := match Table.find c.cap.qpn s.trn.qps with
      | some q => q.state == .error
      | none => true
    if c.state == .completing && (c.readsLeft == 0 || dead) then ({ s with
        cmd.tags := Table.drop t s.cmd.tags
        map.faults := s.map.faults.filter fun f => f.2 != t
        map.waiting := s.map.waiting.filter fun u => u != t }).noteTags
    else s

/-- Whether a container is being read for a use that a test picks, or waits for the tag that its read needs. -/
def State.fetching (s : State) (p : GatherFor → Loc → Bool) : Bool :=
  have hit (j : Option InternalJob) : Bool := match j with
    | some (.fetch f l) => p f l
    | _ => false
  (s.lfl.gathers.any fun g => p g.2.for_ g.2.loc) || (s.cmd.internal.any fun w => hit (w.made.bind Cmd.job)) || s.cmd.tags.any fun e => hit e.2.job

/-- A container is to be read as internal work (R77): the read starts when it has its tag. -/
def State.askFetch (s : State) (use : GatherFor) (loc : Loc) (tenant : Nat) : State :=
  s.askInternal (internalCmd (.fetch use loc) none 0 tenant)

/-- The tag of internal work that answers nobody is free again as soon as the work is done (R77). -/
def State.dropJob (s : State) (job : InternalJob) : State :=
  match s.cmd.tags.find? fun e => e.2.job == some job with
  | some e => ({ s with cmd.tags := Table.drop e.1 s.cmd.tags }).noteTags
  | none => s

/-- A piece of internal work that its row starts takes a tag, the lowest free one (R77, R78), ahead of the work that waits for one (DESIGN
CHOICE, log entry 116). -/
def State.holdTag (s : State) (job : InternalJob) (tenant : Nat) : State :=
  have n := s.cmd.order
  have c : Cmd := { internalCmd job none 0 tenant with state := .running, begun := true, started := s.clock, order := n, ticket := n }
  (({ s with cmd.order := n + 1 }).setTag (lowestFree (s.cmd.tags.map Prod.fst) 0) c).noteTags

/-- A capsule refused without a tag is completed at once (R81, R503). -/
def State.refuseCapsule (s : State) (k : Capsule) (st : NvmeStatus) : State := s.transmit k.qpn 1 (s.completionOf k st)

/-! Cancellation -/

/-- A joined member leaves its consistency group before the cut (R271). -/
def State.leaveGroup (s : State) (t : Nat) (c : Cmd) : State :=
  have g := c.cap.cdw12
  if c.cap.op = .snapshotCreate ∧ (Table.get g [] s.map.joined).contains t then
    have s := { s with map.joined := Table.put g ((Table.get g [] s.map.joined).filter fun x => x != t) s.map.joined }
    if s.on Reg.MAP_CG_CFG.ARMED g then s.wr Reg.MAP_CG_CFG.JOINED (s.rd Reg.MAP_CG_CFG.JOINED g - 1) g else s
  else s

/-- PRG_TILE_BUSY and PRG_RUNS follow the runs (R328). -/
def State.noteRuns (s : State) : State :=
  have busy := (s.prg.runs.flatMap fun e => e.2.tiles.map fun t => 2 ^ t.1).foldl (· ||| ·) 0
  have s := s.wr Reg.PRG_TILE_BUSY.TILES busy
  (s.wr Reg.PRG_RUNS.RUNNING (s.prg.runs.countP fun e => !e.2.tiles.isEmpty)).wr Reg.PRG_RUNS.HOLDING
    (s.prg.runs.countP fun e => e.2.doneAt.isSome)

/-- A run whose command is cancelled stops, its results are discarded and its tiles are free (R90, R324). -/
def State.stopRun (s : State) (t : Nat) : State := ({ s with prg.runs := s.prg.runs.filter fun e => e.2.tag != some t }).noteRuns

/-- What a cancelled command held is given up (R90): its pins and pending entries, its containers and map delta, a snapshot
cut in a group but not yet past its point of no return, its run. A reservation change whose record has been mirrored is taken back by a record
with the reservation as it is due without it (DEDUCED, log entry 91). -/
def State.giveUp (s : State) (t : Nat) (c : Cmd) : State :=
  have s := match c.write with
    | some w => (s.unpinChunks w.chunks).dropPending t
    | none => s
  have s := match c.change with
    | some (.snapCreate nsid id _ _) => s.removeSnap nsid id
    | some (.reservation nsid _) =>
      if c.write.any WriteJob.queued then s.askInternal (internalCmd (.change (.reservation nsid (.set {}))) none nsid c.tenant)
      else s
    | some (.snapDelete nsid id) => { s with map.snaps := Table.modify (snapKey nsid id) (fun (x : Snapshot) => { x with deleting := false }) s.map.snaps }
    | _ => s
  have s := (s.leaveGroup t c).stopRun t
  { s with lfl.gathers := s.lfl.gathers.filter fun e => match e.2.for_ with
      | .piece x _ | .verify x _ => x != t
      | .collect _ | .remote _ _ _ | .rekey | .ship _ _ _ | .span _ _ => true }

/-- A command before its point of no return is cancelled (R90): what it held is given up, and it ends with a status. -/
def State.cancelWith (s : State) (t : Nat) (st : NvmeStatus) : State :=
  match s.tag t with
  | none => s
  | some c =>
    have s := s.giveUp t c
    have s := if s.cmd.psWaiter = some t then { s with cmd.psWaiter := none } else s
    s.modTag t fun c => { c with status := some st, write := none, pieces := [], change := none }

/-- Whether a Forwarded command is past the point of no return on this head (R91): a read, Snapshot List or Program Results
whose first RDMA Write of data has been queued here. -/
def Cmd.fwdPast (c : Cmd) : Bool := c.sent && (c.cap.op == .read || c.cap.op == .snapshotList || c.cap.op == .programResults)

/-- No replica set holds a tag's completion for its target any more. -/
def State.leaveSets (s : State) (t : Nat) : State :=
  { s with rep.sets := Table.mapVals (fun _ (x : RepSet) => { x with waiting := x.waiting.filter fun w => w.1 != t }) s.rep.sets }

/-- A command of a controller that is reset, or of a queue pair lost, is treated by its tag state (R94). A committed write waits for no
replication target. -/
def State.resetTag (s : State) (t : Nat) : State :=
  match s.tag t with
  | none => s
  | some c =>
    match c.state with
    | .free => s
    | .decode | .lockWait | .held | .running =>
      have s := s.cancelWith t (generic 0x07)
      have s := s.modTag t fun c => { c with discard := true }
      (s.queueCompletion t).freeTag t
    | .forwarded =>
      have s := s.modTag t fun c => { c with discard := true }
      if c.fwdPast then s else s.sendRing (.forwardCancel t)
    | .pastReturn =>
      have s := s.modTag t fun c => { c with discard := true }
      if c.write.any WriteJob.committed then (s.leaveSets t).finish t success else s
    | .completing => (s.modTag t fun c => { c with discard := true }).freeTag t

/-- The capsules of a controller or queue pair leave the intake queues (R94). -/
def State.dropIntake (s : State) (hit : Waiting → Bool) : State :=
  { s with
    cmd.intake0 := s.cmd.intake0.filter fun w => !(hit w)
    cmd.intake1 := s.cmd.intake1.filter fun w => !(hit w) }

/-- The effective power state (R97): the lowest that a live controller requests, no deeper than MAX_PS; PS0 while none is
live. -/
def State.effectivePs (s : State) : Nat :=
  have live := (s.cmd.ctrls.filter fun e => e.2.en && e.2.shn == 0).map fun e => e.2.ps
  match live with
  | [] => 0
  | a :: r => min (s.rd Reg.CMD_PS_CFG.MAX_PS) (r.foldl min a)

/-- The power-state cap on the token budget (R97, R426): a token is 125 mW (R425). -/
def psCap : Nat → Option Nat
  | 1 => some 2720
  | 2 => some 2240
  | 3 => some 1200
  | _ => none

/-- Sets a quarter to Closing towards a goal (R432 step 1): its units leave service in the same clock. -/
def State.close (s : State) (q : Nat) (goal : DrainGoal) : State :=
  (s.setQuarter q { s.quarter q with state := .closing, goal := goal }).unitsOut q

/-- The bindery and tile quarters, which PS3 powers down and its exit wakes (R97). -/
def ps3Quarters : List Nat := QuarterKind.members .qb ++ QuarterKind.members .qx

/-- Whether a QX quarter holds a tile of a run or tap (R324). -/
def State.runsOn (s : State) (q : Nat) : Bool := quarterKind q == .qx && s.prg.runs.any fun e => e.2.tiles.any fun t => t.1 / 8 + 36 == q

/-- PS3 sets one of its quarters to Closing (R97, R432): towards Off, or towards Retain where it holds a run or tap (R324). -/
def State.ps3Close (s : State) (q : Nat) : State :=
  if (s.quarter q).state = .active then s.close q (if s.runsOn q then .retain else .off) else s

/-- Whether the head enters PS3 or is in it (R98). -/
def State.inPs3 (s : State) : Bool := s.cmd.phase == .entering || (s.cmd.phase == .steady && s.rd Reg.CMD_PS_CFG.EFFECTIVE == 3)

/-- The head takes up its effective power state (R97, R98): PS3 is entered through an entry that holds commands; any other
state changes the Square's budget. A command's Set Features that caused an entry waits for its end. What is asked for during an entry or exit is
looked at when it ends. -/
def State.settlePs (s : State) (waiter : Option Nat) : State :=
  have ps := s.effectivePs
  if s.cmd.phase ≠ .steady then { s with cmd.psAgain := true }
  else if s.rd Reg.CMD_PS_CFG.EFFECTIVE = ps then s
  else if ps = 3 then
    have s := { s with
      cmd.phase := .entering
      cmd.psBefore := s.rd Reg.CMD_PS_CFG.EFFECTIVE
      cmd.psWaiter := waiter
      cmd.psWake := none }
    ps3Quarters.foldl State.ps3Close ((s.wr Reg.CMD_HOLD.POWER_STATE 1).wr Reg.CMD_PS_CFG.EFFECTIVE 3).stopRotation
  else if s.rd Reg.CMD_PS_CFG.EFFECTIVE = 3 then
    ({ s with cmd.phase := .exiting, cmd.psWake := some ps }).wr Reg.CMD_HOLD.POWER_STATE 1
  else (({ s with power.stateCap := psCap ps }).wr Reg.CMD_PS_CFG.EFFECTIVE ps).settleBudget

/-- A controller is reset (R94): every command of it is treated by its tag state, its capsules leave intake, and its
outstanding event requests end. CSTS.RDY falls by a step of its own, once every tag is free. The command that asks for the
reset (`keep`) is answered. -/
def State.resetController (s : State) (ctrl : Nat) (keep : Option Nat := none) : State :=
  match Table.find ctrl s.cmd.ctrls with
  | none => s
  | some k =>
    have s := { s with cmd.ctrls := Table.put ctrl { k with resetting := true, en := false, aers := [], notices := [] } s.cmd.ctrls }
    have mine := (s.cmd.tags.filter fun e => e.2.ctrl == ctrl && e.2.cls == .initiator && some e.1 != keep).map Prod.fst
    have s := mine.foldl State.resetTag s
    ((s.dropIntake fun w => w.ctrl == ctrl).noteTags).settlePs none

/-- The controller of a queue pair (R503). -/
def State.ctrlOf (s : State) (qpn : Nat) : Option Nat :=
  (s.cmd.ctrls.find? fun e => e.2.connected && (e.2.adminQp == qpn || e.2.ioQps.any fun q => q.2 == qpn)).map Prod.fst

/-- The commands of a queue pair that is lost (R94): an admin queue resets its controller, an I/O queue pair has its own
commands treated the same way. -/
def State.queueLost (s : State) (qpn : Nat) : State :=
  match s.ctrlOf qpn with
  | none => s
  | some ctrl =>
    if (Table.find ctrl s.cmd.ctrls).any fun k => k.adminQp == qpn then s.resetController ctrl
    else
      have mine := (s.cmd.tags.filter fun e => e.2.cap.qpn == qpn && e.2.cls == .initiator).map Prod.fst
      ((mine.foldl State.resetTag s).dropIntake fun w => w.cap.qpn == qpn).noteTags

/-- A tag whose own step may run: Running, not begun, with this opcode (R82). On a lost head none may (R20). -/
def State.ready (s : State) (t : Nat) (op : NvmeOp) : Option Cmd :=
  (s.tag t).filter fun c => c.state == .running && !c.begun && c.cap.op == op && c.status.isNone && !s.power.headLost

/-- A command's own step runs: marks it begun and goes on. -/
def State.begin (s : State) (t : Nat) (op : NvmeOp) (run : Cmd → State → State) : State :=
  match s.ready t op with
  | none => s
  | some c => run { c with begun := true } (s.setTag t { c with begun := true })

end Sys2Proof.Machine
end

