-- ==== Sys2Proof/Machine/NetCore.lean ====
section
/-!
DEFINITION. Machine/NetCore.lean: queue pairs, their contexts on die and in the lay-by, regions and keys, placement, the final
flag and work requests, as the meanings share them (chapter 02).
-/
namespace Sys2Proof.Machine
open Sys2Proof

/-! Queue pairs -/

/-- Whether a queue-pair number is valid (R51). -/
def State.validQpn (s : State) (q : Nat) : Bool := decide (2 ≤ q ∧ q < s.rd Reg.TRN_CTX_COUNT.COUNT)

/-- A packet is dropped and counted under a cause (R70). -/
def State.dropPacket (s : State) (k : Nat) : State := s.bump Reg.TRN_DROP.COUNT 1 k

/-- The packet sequence number before another. -/
def prevPsn (p : Nat) : Nat := (p + 2 ^ 24 - 1) % 2 ^ 24

/-- The signed distance of two packet sequence numbers. -/
def psnDiff (a b : Nat) : Int := signedOf 24 ((a + 2 ^ 24 - b % 2 ^ 24) % 2 ^ 24)

/-! Contexts on die (R51, R54 to R56) -/

/-- The set of a queue pair: role × 4,096 + QPN[12:1] (R51). -/
def qpSet (q : Nat) : Nat := q % 2 * 4096 + q / 2 % 4096

/-- The contexts of a set that are on die, most recently used first. -/
def State.dieSet (s : State) (k : Nat) : List Nat := Table.get k [] s.trn.sets

/-- Whether a context is on die. -/
def State.onDie (s : State) (q : Nat) : Bool := (s.dieSet (qpSet q)).contains q

/-- Whether a context has something in flight (R54): a packet in the lay-by or on the direct path, a placement, a read of its own or
one that it serves, or a message part-received. -/
def State.inFlight (s : State) (q : Nat) : Bool :=
  have x := s.qp q
  !(s.waitingPackets q).isEmpty || (s.trn.direct.any fun p => p.qpn == q) || !x.placements.isEmpty || !x.reads.isEmpty ||
    !x.finals.isEmpty || x.inbound != .none

/-- Whether a context may be replaced (R54). -/
def State.eligible (s : State) (q : Nat) : Bool := !(s.qp q).pinned && !(s.inFlight q)

/-- A context becomes the most recently used of its set (R54), and its last use is noted (R52). -/
def State.touchQp (s : State) (q : Nat) : State :=
  have set := s.dieSet (qpSet q)
  have s := if set.contains q then { s with trn.sets := Table.put (qpSet q) (q :: set.erase q) s.trn.sets } else s
  { s with trn.qps := Table.modify q (fun x => { x with lastUse := s.ringTime }) s.trn.qps }

/-- A context leaves the die: it is copied to the write-back buffer and marked leaving (R55). -/
def State.evict (s : State) (q : Nat) : State :=
  { s with
    trn.sets := Table.put (qpSet q) ((s.dieSet (qpSet q)).erase q) s.trn.sets
    trn.leaving := s.trn.leaving ++ [q] }

/-- The places of a set in use: contexts on die and contexts being fetched. -/
def State.setUse (s : State) (k : Nat) : Nat := (s.dieSet k).length + s.trn.fetching.countP fun q => qpSet q == k

/-- A fetch is issued (R55). -/
def State.issueFetch (s : State) (q : Nat) : State :=
  ({ s with
    trn.fetching := s.trn.fetching ++ [q]
    trn.fetchWait := s.trn.fetchWait.filter fun x => x != q }).bump Reg.TRN_FETCH_STAT.FETCHES

/-- A context that is missed is fetched (R54 to R56): at once into a free place, else into that of the least recently used
eligible context of its set; else the fetch waits. One that is leaving is fetched after its write-back. -/
def State.startFetch (s : State) (q : Nat) : State :=
  if !(s.validQpn q) || s.onDie q || s.trn.leaving.contains q || s.trn.fetching.contains q then s
  else if s.setUse (qpSet q) < 16 then s.issueFetch q
  else
    match (s.dieSet (qpSet q)).reverse.find? s.eligible with
    | some v => (s.evict v).issueFetch q
    | none => if s.trn.fetchWait.contains q then s else { s with trn.fetchWait := s.trn.fetchWait ++ [q] }

/-! The lay-by (R57 to R59) -/

/-- A packet joins its queue pair's FIFO, or is dropped where it would pass a cap (R59). One that would pass both is counted once, under the
queue pair's cap (DESIGN CHOICE, log entry 109: R59 does not say under which). -/
def State.laybyJoin (s : State) (p : Packet) : State :=
  have mine := ((s.waitingPackets p.qpn).map Packet.cells).sum
  if s.rd Reg.TRN_LAYBY_QPMAX.MAX < mine + p.cells then s.dropPacket 1
  else if 16384 < s.laybyCells (p.qpn % 2) + p.cells then s.dropPacket 0
  else ({ s with trn.layby := Table.put p.qpn (s.waitingPackets p.qpn ++ [p]) s.trn.layby }).noteLayby

/-! Regions and keys (R60 to R63) -/

/-- The DDR address of a byte range under a key, where the key passes the check of R61; a tenant of none belongs to a slice
that may name any. A virtual address of a region is an offset from its base (DESIGN CHOICE, log entry 71: the spec gives the mapping of
the whole-space key only, R63). -/
def State.keyCheck (s : State) (key : Nat) (tenant : Option Nat) (write : Bool) (va len : Nat) : Option Nat :=
  if key / 256 = 0xFFFFFF then
    if s.on Reg.TRN_WHOLE_KEY.EN && s.rd Reg.TRN_WHOLE_KEY.VARIANT == key % 256 && s.rd Reg.TRN_CTRL.STATE != 1 &&
        (!write || s.straps.secure == 0) && decide (va + len ≤ s.test.installed) then some va
    else none
  else
    match Table.find (key / 256) s.trn.regions with
    | none => none
    | some r =>
      if r.valid && r.variant == key % 256 && (tenant.isNone || tenant == some r.tenant) && (if write then r.write else r.read) &&
          decide (va + len ≤ r.length) then some (r.base + va)
      else none

/-- Whether placement under a key may be reordered (R64): the region is relaxed. -/
def State.relaxedKey (s : State) (key : Nat) : Bool := (Table.find (key / 256) s.trn.regions).any Region.relaxed

/-- A checked payload is placed at once, or, where the region and the queue pair both allow relaxed placement, waits to be
placed in any order (R64). -/
def State.place (s : State) (n : Nat) (key addr : Nat) (bytes : List Byte) : State :=
  have q := s.qp n
  if q.relaxed && s.relaxedKey key then
    s.setQp n { q with placements := q.placements ++ [{ region := key / 256, addr := addr, bytes := bytes }] }
  else s.ddrWriteList addr bytes

/-- The payloads of a queue pair that a test names are placed (R62, R64). -/
def State.placeAll (s : State) (n : Nat) (which : Placement → Bool) : State :=
  have q := s.qp n
  have s := (q.placements.filter which).foldl (fun s p => s.ddrWriteList p.addr p.bytes) s
  s.setQp n { q with placements := q.placements.filter fun p => !(which p) }

/-- Whether payloads checked against a region are left unplaced (R62). -/
def State.unplaced (s : State) (region : Nat) : Bool :=
  s.trn.qps.any fun e => e.2.placements.any fun p => p.region == region

/-- A region's key is invalidated (R62): every later packet fails its check. -/
def State.invalidate (s : State) (region : Nat) : State :=
  { s with trn.regions := Table.modify region (fun r => { r with valid := false }) s.trn.regions }

/-- An invalidation completes once nothing checked against its key is left unplaced (R62): the commands that wait complete. -/
def State.endInvalidation (s : State) (region : Nat) : State :=
  match Table.find region s.trn.regions with
  | none => s
  | some r =>
    if r.valid || s.unplaced region then s
    else
      have s := { s with trn.regions := Table.put region { r with invalidating := [] } s.trn.regions }
      r.invalidating.foldl (fun s c => s.complete c 0) s

/-- Whether a region index is in use: its entry is valid, or an invalidation of it has not completed, so that a payload checked against
the old key is told from one of the new (DESIGN CHOICE, log entry 72: R399 names the valid entry only). -/
def Region.busy (r : Region) : Bool := r.valid || !r.invalidating.isEmpty

/-! Work requests (R66, R67, R399) -/

/-- The RDMA Reads that a READ work request is made of: each is at most as long as the staging buffers, so that space for the whole response of
every one can be reserved (R68; DESIGN CHOICE, log entry 110, for a longer request). -/
def localReads (length : Nat) : List ReadReq :=
  (List.range (max 1 ((length + stagingBytes - 1) / stagingBytes))).map fun k =>
    have n := min stagingBytes (length - k * stagingBytes)
    { tag := 0, segment := k * stagingBytes, len := n, left := n, local_ := true }

/-- A work request is sent (R399): it takes packet sequence numbers, and a READ is outstanding from now on (R49). -/
def State.sendWork (s : State) (w : WorkReq) : State :=
  have q := s.qp w.qpn
  have n := q.packets w.length
  have w := { w with sent := true, lastPsn := (q.sendPsn + n - 1) % 2 ^ 24 }
  have s := s.setQp w.qpn { q with sendQueue := q.sendQueue ++ [w], sendMsn := (q.sendMsn + 1) % 2 ^ 24 }
  if w.op = .read then
    (localReads w.length).foldl (fun s _ => s.issueRead w.qpn)
      (s.setQp w.qpn { s.qp w.qpn with reads := q.reads ++ localReads w.length })
  else s.transmit w.qpn n (.work w)

/-- The oldest outstanding read of a queue pair has been answered in full (R49): its staging space is free. -/
def State.popRead (s : State) (n : Nat) : State :=
  have q := s.qp n
  (s.setQp n { q with reads := q.reads.drop 1 }).issueReads (n % 2)

/-- A work request joins the send queue; a drained queue sends nothing (R53). -/
def State.postWork (s : State) (w : WorkReq) : State :=
  if (s.qp w.qpn).state = .sqd then s.setQp w.qpn { s.qp w.qpn with sendQueue := (s.qp w.qpn).sendQueue ++ [w] } else s.sendWork w

/-- A work request completes (R399): its command answers, with LATCHED where its trigger came first (R67). -/
def State.endWork (s : State) (w : WorkReq) (status : Nat) : State :=
  match w.cmd with
  | some c => s.complete c status (if w.latched then 1 else 0)
  | none => s

/-- A queue pair's work requests end with a flush status, armed ones too (R50), and the staging space of its reads is free. The status is
0x1009, which R414 calls 'Flushed by a drain reset' (DESIGN CHOICE, log entry 73: R50 names no code). -/
def State.flushWork (s : State) (n : Nat) : State :=
  have q := s.qp n
  have s := s.setQp n { q with sendQueue := [], armed := [], triggers := [], reads := [], inbound := .none, finals := [] }
  ((q.sendQueue ++ q.armed).foldl (fun s w => s.endWork w 0x1009) s).issueReads (n % 2)

/-- The class bytes that R15 lists. -/
def statusClasses : List Nat := [0x10, 0x20, 0x30, 0x31, 0x32, 0x40, 0x50, 0x58, 0x60, 0x70, 0x80, 0x90, 0xA0, 0xB0]

/-- The status of a queue pair's event in Error: the spec gives none, and R15 that it is no success and of a listed class (log entry 74). -/
def qpErrorStatus : Nat := statusClasses.getD (Config.qpEventCode / 256 % statusClasses.length) 0x10 * 256 + Config.qpEventCode % 256

/-- A queue pair moves to Error (R50): work requests are flushed, the event is posted to CQ 0 of the context's slice (R396), and its
commands are treated by R94. A reason of none is one that the table of R50 does not list: a free value. The event's code is not in the
spec either (log entry 74): the status of its entry is `qpErrorStatus`, result 0 the QPN with the reason in [31:24]. -/
def State.qpError (s : State) (n : Nat) (reason : Option Nat) : State :=
  if (s.qp n).state = .error then s
  else
    have s := s.setQp n { s.qp n with state := .error }
    have s := s.flushWork n
    let (r, s) := match reason with
      | some r => (r, s)
      | none => s.fresh
    (s.postObject (s.qp n).slice qpErrorStatus (n + 2 ^ 24 * (r % 256))).queueLost n

/-- An armed request fires (R66): it joins the send queue as if posted at that moment, so a full queue ends it with 0x100D (R399). -/
def State.fireWork (s : State) (w : WorkReq) : State :=
  if (s.qp w.qpn).sqSize ≤ (s.qp w.qpn).sendQueue.length then s.endWork w 0x100D else s.postWork w

/-- A trigger reaches a queue pair (R66, R67): it fires the armed request, or is latched in a pending slot, or finds none
free. The answer says whether it is UNLATCHED. -/
def State.trigger (s : State) (n imm : Nat) : Bool × State :=
  have q := s.qp n
  if q.trigEnable && imm / 65536 == q.marker then
    match q.armed.find? fun w => w.trigger == imm % 65536 with
    | some w => (false, (s.setQp n { q with armed := q.armed.erase w }).fireWork w)
    | none =>
      if q.triggers.length < 4 then (false, s.setQp n { q with triggers := q.triggers ++ [imm % 65536] })
      else (true, s)
  else (false, s)

/-- A final-flagged message is processed (R64, R66): triggers, then delivery; a READ is served from its region. -/
def State.processFinal (s : State) (n : Nat) : FinalMsg → State
  | .imm d =>
    let (u, s) := s.trigger n d
    s.send (.deliver n [] (some d) u)
  | .send b none => s.send (.deliver n b none false)
  | .send b (some d) =>
    let (u, s) := s.trigger n d
    s.send (.deliver n b (some d) u)
  | .read r => s.sendPacket n (.readResponse (s.ddrReadList r.va r.len))

/-- A final-flagged message waits for every earlier payload, or is processed where none is left (R64). -/
def State.finalFlag (s : State) (n : Nat) (m : FinalMsg) : State :=
  have q := s.qp n
  if q.placements.isEmpty && q.finals.isEmpty then s.processFinal n m else s.setQp n { q with finals := q.finals ++ [m] }

/-! Receiving (R48, R49, R61, R68) -/

/-- A responder's NAK. -/
def State.nak (s : State) (n : Nat) (o : RoceOut) : State :=
  (s.setQp n { s.qp n with naksOut := (s.qp n).naksOut + 1 }).sendPacket n o

/-- A NAK of Invalid Request, and Error (R48, R68). -/
def State.nakInvalid (s : State) (p : Packet) (reason : Option Nat) : State :=
  (s.nak p.qpn (.nakInvalid p.psn)).qpError p.qpn reason

/-- A NAK of Remote Access Error, and Error (R61). -/
def State.nakAccess (s : State) (p : Packet) : State := (s.nak p.qpn (.nakAccess p.psn)).qpError p.qpn none

/-- A request packet is processed in PSN order (R58, R59, R67): a duplicate is only acknowledged, a gap draws a NAK. So is a duplicate READ
Request: its data is not sent again (DESIGN CHOICE, log entry 111: the spec gives no answer to one). -/
def State.inOrder (s : State) (p : Packet) (run : Qp → State) : State :=
  have q := s.qp p.qpn
  have d := psnDiff p.psn q.expPsn
  if d = 0 then run { q with pktsIn := q.pktsIn + 1, bytesIn := q.bytesIn + p.payload.length }
  else if d < 0 then s.sendPacket p.qpn (.ack (prevPsn q.expPsn))
  else s.nak p.qpn (.nakSequence q.expPsn)

/-- A request packet has been taken (R49): `n` sequence numbers pass; an acknowledgement goes out at the end of a message,
where one is asked for, and at 16 packets. -/
def State.takePacket (s : State) (p : Packet) (q : Qp) (n : Nat) (last : Bool) : State :=
  have q := { q with
    expPsn := (q.expPsn + n) % 2 ^ 24
    recvMsn := if last then (q.recvMsn + 1) % 2 ^ 24 else q.recvMsn
    unackedRx := q.unackedRx + 1 }
  if last || p.ackReq || decide (16 ≤ q.unackedRx) then
    (s.setQp p.qpn { q with unackedRx := 0 }).sendPacket p.qpn (.ack (prevPsn q.expPsn))
  else s.setQp p.qpn q

/-- Whether an opcode begins a message, and whether it ends one: SEND and RDMA WRITE (R48). -/
def firstOf (op : Nat) : Bool := [0x00, 0x04, 0x05, 0x06, 0x0A, 0x0B, 0x17].contains op
/-- Whether an opcode ends a SEND or RDMA WRITE message (R48). -/
def lastOf (op : Nat) : Bool := [0x02, 0x03, 0x04, 0x05, 0x08, 0x09, 0x0A, 0x0B, 0x16, 0x17].contains op

/-- Whether the queue pairs of a slice answer new SENDs with an RNR NAK (R404): a freeze is under way. -/
def State.freezing (s : State) (slice : Nat) : Bool :=
  (Table.find slice s.host.slices).any fun sl => sl.state == .active && sl.quiesce.isSome && !sl.fetching

/-- Whether a queue pair carries NVMe capsules: a controller has it as its admin or an I/O queue. -/
def State.carriesNvme (s : State) (n : Nat) : Bool := (s.ctrlOf n).isSome

/-- Whether the intake queue of a queue pair's role is full (R79). -/
def State.intakeFull (s : State) (n : Nat) : Bool := decide (32768 ≤ (if n % 2 = 0 then s.cmd.intake0 else s.cmd.intake1).length)

/-- A SEND packet (R48, R68): the message is put together, and its last packet hands it on. The table of R68 lists neither a Middle or Last
packet with no message begun, which is a NAK of Invalid Request with reason 0x07 here, nor a First inside a message, which begins a new one
(DESIGN CHOICE, log entry 112). -/
def State.recvSend (s : State) (p : Packet) : State :=
  s.inOrder p fun q =>
    if firstOf p.opcode && (q.recvBufs == 0 || s.freezing q.slice) then (s.setQp p.qpn q).nak p.qpn (.rnrNak p.psn q.rnrDelay)
    else if firstOf p.opcode && s.carriesNvme p.qpn && s.intakeFull p.qpn then
      ((s.setQp p.qpn q).nak p.qpn (.rnrNak p.psn q.rnrDelay)).bump Reg.CMD_INTAKE_RNR.COUNT
    else
      have before := match q.inbound with
        | .send b => b
        | _ => []
      have bytes := if firstOf p.opcode then p.payload else before ++ p.payload
      if (!(lastOf p.opcode) && p.payload.length != mtuBytes q.mtu) || decide (q.recvSize < bytes.length) ||
          (!(firstOf p.opcode) && !(match q.inbound with | .send _ => true | _ => false)) then
        (s.setQp p.qpn q).nakInvalid p (some 0x07)
      else if lastOf p.opcode then
        (s.takePacket p { q with inbound := .none, recvBufs := q.recvBufs - 1, recvNext := (q.recvNext + 1) % 2 ^ 16 } 1 true).finalFlag p.qpn (.send bytes p.imm)
      else s.takePacket p { q with inbound := .send bytes } 1 false

/-- An RDMA WRITE packet (R61, R68): its key is checked again for every packet; a payload that passes is placed. Of a packet that fails
both checks, the key's answers it: a Remote Access Error comes before an Invalid Request (DESIGN CHOICE, log entry 75). A Middle or Last with no
message begun and a First inside one are as for a SEND (DESIGN CHOICE, log entry 112). -/
def State.recvWrite (s : State) (p : Packet) : State :=
  s.inOrder p fun q =>
    have s := s.setQp p.qpn q
    have r := p.reth.getD { va := 0, key := 0, len := 0 }
    let (key, off, left, begun) := match q.inbound with
      | .write k o l => if firstOf p.opcode then (r.key, r.va, r.len, true) else (k, o, l, true)
      | _ => (r.key, r.va, r.len, firstOf p.opcode)
    if !begun then s.nakInvalid p (some 0x07)
    else
      match s.keyCheck key (some q.tenant) true off p.payload.length with
      | none => s.nakAccess p
      | some addr =>
        if !(lastOf p.opcode) && p.payload.length != mtuBytes q.mtu then s.nakInvalid p (some 0x07)
        else if left < p.payload.length then s.nakInvalid p (some 0x07)
        else
          have s := s.place p.qpn key addr p.payload
          have q := s.qp p.qpn
          if lastOf p.opcode then
            if left = p.payload.length then
              have s := s.takePacket p { q with inbound := .none } 1 true
              match p.imm with
              | some d => s.finalFlag p.qpn (.imm d)
              | none => s
            else s.nakInvalid p (some 0x07)
          else s.takePacket p { q with inbound := .write key (off + p.payload.length) (left - p.payload.length) } 1 false

/-- An RDMA READ Request (R49, R61, R64): its key is checked, and it is served as a final-flagged message. A 65th that is outstanding
draws a NAK of Invalid Request (DESIGN CHOICE, log entry 76: R49 gives the limit of 64 and no answer). -/
def State.recvReadRequest (s : State) (p : Packet) : State :=
  s.inOrder p fun q =>
    have s := s.setQp p.qpn q
    have r := p.reth.getD { va := 0, key := 0, len := 0 }
    match s.keyCheck r.key (some q.tenant) false r.va r.len with
    | none => s.nakAccess p
    | some addr =>
      if 64 ≤ q.inboundReads then s.nakInvalid p none
      else (s.takePacket p q (q.packets r.len) true).finalFlag p.qpn (.read { r with va := addr })

/-- Packets up to one are acknowledged (R49): the work requests that end there complete. -/
def State.ackUpTo (s : State) (n psn : Nat) : State :=
  have q := s.qp n
  if psnDiff psn q.unackedPsn < 0 ∨ 0 ≤ psnDiff psn q.sendPsn then s
  else
    have done (w : WorkReq) : Bool := w.sent && w.op != .read && decide (psnDiff w.lastPsn psn ≤ 0)
    have next := (psn + 1) % 2 ^ 24
    have s := s.setQp n { q with
      unackedPsn := next
      deadline := if next = q.sendPsn then 0 else q.deadlineFrom s.ringTime
      retries := 0
      rnrTries := 0
      capsulesUnacked := if next = q.sendPsn then 0 else q.capsulesUnacked
      sendQueue := q.sendQueue.filter fun w => !(done w) }
    (q.sendQueue.filter done).foldl (fun s w => s.endWork w 0) s

/-- The part sends again from its oldest unacknowledged packet, or moves the queue pair to Error when the retry count is
exhausted (R49, R50). -/
def State.retry (s : State) (n : Nat) : State :=
  have q := s.qp n
  if q.retryMax ≤ q.retries then s.qpError n (some 0x01)
  else
    (s.setQp n { q with
      retries := q.retries + 1
      deadline := q.deadlineFrom s.ringTime
      retrans := q.retrans + 1 }).sendPacket n (.retransmit q.unackedPsn)

/-- An Acknowledge or NAK (R49, R50). The AETH's syndrome: [6:5] 0 ACK, 1 RNR NAK, 3 NAK with its code in [4:0]. -/
def State.recvAck (s : State) (p : Packet) : State :=
  have syn := (p.aeth.getD (0, 0)).1
  have n := p.qpn
  match syn / 32 % 4 with
  | 0 => s.ackUpTo n p.psn
  | 1 =>
    have s := s.ackUpTo n (prevPsn p.psn)
    s.setQp n { s.qp n with naksIn := (s.qp n).naksIn + 1, rnrTimer := 1 }
  | 3 =>
    have s := s.setQp n { s.qp n with naksIn := (s.qp n).naksIn + 1 }
    match syn % 32 with
    | 0 => (s.ackUpTo n (prevPsn p.psn)).retry n
    | 1 => s.qpError n (some 0x03)
    | 2 => s.qpError n (some 0x04)
    | 3 => s.qpError n (some 0x05)
    | _ => s
  | _ => s

/-! Congestion (R42) -/

/-- A CE-marked packet of a queue pair draws a CNP, at most one per queue pair in CNP_GAP µs (R42). -/
def State.markCe (s : State) (p : Packet) : State :=
  have q := s.qp p.qpn
  have gap := 8000 * s.rd Reg.TRN_CC_CFG.CNP_GAP
  have quiet := match q.lastCnpTx with
    | some t => decide (t + gap ≤ s.clock)
    | none => true
  if p.ce && quiet && Table.has p.qpn s.trn.qps then (s.setQp p.qpn { q with lastCnpTx := some s.clock }).sendPacket p.qpn .cnp else s

/-- A CNP cuts the send rate by DECREASE/256, never below 100 Mb/s (R42), and the context keeps its ring time (R52). -/
def State.cutRate (s : State) (n : Nat) : State :=
  have q := s.qp n
  s.setQp n { q with
    rate := max 100 (q.rate * (256 - s.rd Reg.TRN_CC_CFG.DECREASE) / 256)
    lastCnpRx := s.ringTime
    cnps := q.cnps + 1 }

end Sys2Proof.Machine
end

