-- ==== Sys2Proof/Machine/HostCore.lean ====
section
/-!
DEFINITION. Machine/HostCore.lean: DMA channels, the pool of slices, squash and quiescence, received and sent frames, as the
meanings share them (chapter 14, and R38 to R47).
-/
namespace Sys2Proof.Machine
open Sys2Proof

/-! DMA data (R408 to R410) -/

/-- The unit of a swap mode in bytes (R409). -/
def swapUnit : Nat → Nat
  | 1 => 2
  | 2 | 4 => 4
  | 3 | 5 => 8
  | _ => 1

/-- One unit swapped (R409): its bytes, or its half-words, in the opposite order. -/
def swapOne (mode : Nat) (u : List Byte) : List Byte :=
  if mode = 4 ∨ mode = 5 then (groupsOf 2 u.length u).reverse.flatten else u.reverse

/-- Bytes after a swap mode (R409). -/
def swapBytes (mode : Nat) (b : List Byte) : List Byte := (groupsOf (swapUnit mode) b.length b).flatMap (swapOne mode)

/-- The bytes of a transfer. -/
def DmaDesc.total (d : DmaDesc) : Nat := d.lineLen * d.lines

/-- Issues up to `n` bursts (R410): up to 4,096 bytes each, within one line, in transfer order. -/
def DmaXfer.issue : Nat → DmaXfer → DmaXfer
  | 0, x => x
  | n + 1, x =>
    if x.next < x.desc.total then
      have len := min 4096 (x.desc.lineLen - x.next % x.desc.lineLen)
      DmaXfer.issue n { x with flight := x.flight ++ [(x.next, len)], next := x.next + len }
    else x

/-! Channels (R407, R411, R412) -/

/-- A DMA channel. -/
def State.channel (s : State) (c : Nat) : Channel := Table.get c {} s.host.channels

/-- The state with a channel put in place; its status registers follow (R417). -/
def State.setChannel (s : State) (c : Nat) (ch : Channel) : State :=
  have done := match ch.cur with
    | some x => x.done
    | none => ch.lastDone
  have s := { s with host.channels := Table.put c ch s.host.channels }
  have s := (s.wr Reg.DMA_CH_STATUS.STATE ch.state.code c).wr Reg.DMA_CH_STATUS.QUEUED (min 65535 ch.queue.length) c
  have s := (s.wr Reg.DMA_CH_DONE.BYTES done c).wr Reg.DMA_CH_OWNER.SLICE (ch.owner.getD 0) c
  s.wr Reg.DMA_CH_OWNER.ASSIGNED (if ch.owner.isSome then 1 else 0) c

/-- A channel goes on (R407, R410): an idle one takes its next transfer, and bursts are issued while DMA_CTRL.EN is 1 and the
function may issue requests. -/
def State.runChannel (s : State) (c : Nat) : State :=
  have ch := s.channel c
  match ch.state with
  | .pausing | .paused | .withdrawing => s
  | .idle | .running =>
    have ch := match ch.cur, ch.queue with
      | none, x :: r => { ch with cur := some x, queue := r }
      | _, _ => ch
    match ch.cur with
    | none => s.setChannel c { ch with state := .idle }
    | some x =>
      have x := if s.on Reg.DMA_CTRL.EN && !s.host.d3hot then x.issue (s.rd Reg.DMA_CFG.INFLIGHT - x.flight.length) else x
      s.setChannel c { ch with cur := some x, state := .running }

/-- The commands that wait for a pause complete (R411). -/
def State.endPause (s : State) (c : Nat) : State :=
  have ch := s.channel c
  have s := s.setChannel c { ch with state := .paused, pausers := [] }
  ch.pausers.foldl (fun s p => s.complete p 0) s

/-- The current transfer ends (R412, R413): it completes with its bytes done, unless it is squashed, then the CANCEL that
withdrew it; the channel pauses where a pause waits, and else takes its next transfer. -/
def State.endTransfer (s : State) (c status r0 : Nat) : State :=
  have ch := s.channel c
  match ch.cur with
  | none => s
  | some x =>
    have s := s.setChannel c { ch with cur := none, lastDone := x.done, state := .idle }
    have s := if x.squashed then s else s.complete x.cmd status r0 x.done
    have s := match x.canceller with
      | some k => s.complete k 0 (if status = 0 then 1 else 0)
      | none => s
    if ch.pausers.isEmpty && ch.state != .pausing then s.runChannel c else s.endPause c

/-- A channel after a burst (R410 to R413): the transfer ends, the pause begins, or bursts go on. -/
def State.settleChannel (s : State) (c : Nat) : State :=
  have ch := s.channel c
  match ch.cur with
  | none => s
  | some x =>
    match x.failed with
    | some (code, off) => s.endTransfer c code off
    | none =>
      if x.flight.isEmpty then
        if x.withdrawn then s.endTransfer c (if x.squashed then 0x2008 else 0x2004) 0
        else if x.desc.total ≤ x.next then s.endTransfer c 0 0
        else if ch.state = .pausing then s.endPause c
        else s.runChannel c
      else s.runChannel c

/-- A channel is paused (R411): at once where no burst is in flight. -/
def State.pauseChannel (s : State) (c : Nat) (who : List HostCmd) : State :=
  have ch := s.channel c
  have ch := { ch with pausers := ch.pausers ++ who }
  have busy := match ch.cur with
    | some x => !x.flight.isEmpty
    | none => false
  match ch.state with
  | .withdrawing => s.setChannel c ch
  | _ => if busy then s.setChannel c { ch with state := .pausing } else (s.setChannel c ch).endPause c

/-- A channel is resumed (R411). -/
def State.resumeChannel (s : State) (c : Nat) : State :=
  have ch := s.channel c
  match ch.state with
  | .pausing | .paused =>
    have s := s.setChannel c { ch with pausers := [], state := .running }
    (ch.pausers.foldl (fun s p => s.complete p 0) s).runChannel c
  | .idle | .running | .withdrawing => s

/-- The current transfer is withdrawn (R412): no further burst is issued; it ends once no burst is in flight. -/
def State.withdraw (s : State) (c : Nat) (squash : Bool) (who : Option HostCmd) : State :=
  have ch := s.channel c
  match ch.cur with
  | none => s
  | some x =>
    have x := { x with withdrawn := true, squashed := x.squashed || squash, canceller := who }
    if x.flight.isEmpty then (s.setChannel c { ch with cur := some x }).settleChannel c
    else s.setChannel c { ch with cur := some x, state := .withdrawing }

/-! Slices and the pool (R386, R387) -/

/-- The slices that are not Free. -/
def State.liveSlices (s : State) : Table Slice := s.host.slices.filter fun e => e.2.live

/-- The free part of the pool: rings, channels, vectors, credits (R387). -/
def State.pool (s : State) : Nat × Nat × Nat × Nat :=
  have l := s.liveSlices.map Prod.snd
  (8192 - (l.map Slice.ringMax).sum, 64 - (l.map fun x => x.channels.length).sum, 4096 - (l.map Slice.vectors).sum,
    262144 - (l.map Slice.credits).sum)

/-- The state with a slice put in place; its state register and the pool registers follow (R416). -/
def State.putSlice (s : State) (n : Nat) (sl : Slice) : State :=
  have s := s.setSlice n sl
  let (r, c, v, k) := s.pool
  have s := ((s.wr Reg.CHI_POOL_FREE.RINGS r).wr Reg.CHI_POOL_FREE.CHANNELS c).wr Reg.CHI_POOL_FREE.VECTORS v
  have s := (s.wr Reg.CHI_POOL_CREDITS.FREE k).wr Reg.CHI_SLICE_STATE.STATE sl.state.code n
  (s.wr Reg.CHI_SLICE_STATE.PASID sl.pasid n).wr Reg.CHI_SLICE_STATE.MINOR sl.minor n

/-- Whether a slice's named vectors are free (R387). -/
def State.vectorsFree (s : State) (first n : Nat) : Bool :=
  decide (first + n ≤ 4096) && !(s.liveSlices.any fun e => decide (e.2.firstVector < first + n ∧ first < e.2.firstVector + e.2.vectors))

/-- The lowest-numbered free channels (R387). -/
def State.freeChannels (s : State) (n : Nat) : List Nat :=
  ((List.range 64).filter fun c => (s.channel c).owner.isNone).take n

/-- Channels as a bitmap (R387). -/
def channelMap (cs : List Nat) : Nat := (cs.map fun c => 2 ^ c).sum

/-- A slice takes channels. -/
def State.giveChannels (s : State) (n : Nat) (cs : List Nat) : State :=
  cs.foldl (fun s c => s.setChannel c { owner := some n }) s

/-! Squash (R403) -/

/-- Runs that a test names stop, and their tiles are free. -/
def State.dropRuns (s : State) (which : Run → Bool) : State :=
  have tags := (s.prg.runs.filter fun e => which e.2).filterMap fun e => e.2.tag
  have tickets := (s.prg.runs.filter fun e => which e.2).filterMap fun e => e.2.ticket
  have s := ({ s with
    prg.runs := s.prg.runs.filter fun e => !(which e.2)
    cmd.internal := s.cmd.internal.filter fun w => !(tickets.contains w.at_) }).noteRuns
  tags.foldl State.resetTag s

/-- Whether a run was started by a slice. -/
def Run.ofSlice (n : Nat) (r : Run) : Bool :=
  match r.kind with
  | .host c _ _ | .index c _ _ | .tap c _ _ => c.slice == n
  | .scan _ => false

/-- The work requests of a slice answer nobody any more (R403). -/
def State.muteWork (s : State) (n : Nat) : State :=
  have mute (w : WorkReq) : WorkReq := if w.cmd.any fun c => c.slice == n then { w with cmd := none } else w
  { s with trn.qps := Table.mapVals (fun _ (q : Qp) => { q with
      sendQueue := q.sendQueue.map mute
      armed := q.armed.map mute }) s.trn.qps }

/-- The work of a slice is squashed (R403): no completion is written; jobs stop at their next boundary, runs stop, transfers
are withdrawn, frame buffers are dropped. The reset's own command is spared. -/
def State.squashWork (s : State) (n : Nat) (own : Option HostCmd) : State :=
  match Table.find n s.host.slices with
  | none => s
  | some sl =>
    have isOwn (st : Started) : Bool := own.any fun c => c.slice == n && c.ring == st.ring && c.cid == st.cid
    have lasting (st : Started) : Bool := st.opcode == 0x36 || st.opcode == 0x21 || (0x72 ≤ st.opcode && st.opcode ≤ 0x75)
    have s := s.setSlice n { sl with started := (sl.started.filter fun st => isOwn st || !(lasting st)).map fun (st : Started) =>
      (if isOwn st then st else { st with squashed := true }) }
    have s := { s with
      host.buffers := Table.mapVals (fun _ l => l.filter fun (b : FrameBuffer) => b.cmd.slice != n) s.host.buffers
      bnd.jobs := s.bnd.jobs.map fun (j : Job) => if j.cmd.slice = n then { j with stop := true, squashed := true } else j }
    have s := (s.muteWork n).dropRuns (Run.ofSlice n)
    sl.channels.foldl (fun s c =>
      have ch := s.channel c
      (s.setChannel c { ch with queue := [] }).withdraw c true none) s

/-- A drain ends what has not started (R403): entries not fetched, posted buffers and queued transfers complete with 0x1009. -/
def State.drainWork (s : State) (n : Nat) (unfetched : List HostCmd) : State :=
  match Table.find n s.host.slices with
  | none => s
  | some sl =>
    have bufs := (s.host.buffers.flatMap fun e => e.2).filter fun b => b.cmd.slice == n
    have queued := sl.channels.flatMap fun c => (s.channel c).queue
    have s := { s with
      host.buffers := Table.mapVals (fun _ l => l.filter fun (b : FrameBuffer) => b.cmd.slice != n) s.host.buffers }
    have s := sl.channels.foldl (fun s c => s.setChannel c { s.channel c with queue := [] }) s
    (unfetched ++ bufs.map FrameBuffer.cmd ++ queued.map DmaXfer.cmd).foldl (fun s c => s.complete c 0x1009) s

/-- A slice reset begins (R403): fetching stops and the slice is Resetting. -/
def State.beginReset (s : State) (n : Nat) (squash destroying : Bool) (who : Option HostCmd) (unfetched : List HostCmd) : State :=
  match Table.find n s.host.slices with
  | none => s
  | some sl =>
    have s := s.putSlice n { sl with
      state := .resetting
      fetching := false
      quiesce := who
      squash := squash
      destroying := destroying }
    if squash then s.squashWork n who else s.drainWork n unfetched

/-- Whether a slice has no work outstanding but the command that waits for that (R403, R404). -/
def State.idleSlice (s : State) (n : Nat) (sl : Slice) : Bool :=
  (sl.started.all fun st => sl.quiesce.any fun c => c.slice == n && c.ring == st.ring && c.cid == st.cid) &&
    !(s.bnd.jobs.any fun j => j.cmd.slice == n) &&
    sl.channels.all fun c => (s.channel c).cur.isNone && (s.channel c).queue.isEmpty

/-- A ring emptied (R403): heads and tails 0, PHASE back to 1. -/
def Ring.emptied (r : Ring) : Ring :=
  { r with sqHead := 0, sqTail := 0, cqHead := 0, cqTail := 0, phase := 1, armed := true, fenced := false, waiting := [] }

/-- The queue pairs of a slice are removed and its regions invalidated, without a word on the wire (R389). -/
def State.removeObjects (s : State) (n : Nat) : State :=
  have qs := (s.trn.qps.filter fun e => e.2.slice == n).map Prod.fst
  have s := qs.foldl (fun s q => s.placeAll q fun _ => true) s
  have s := qs.foldl State.queueLost s
  have rs := (s.trn.regions.filter fun e => e.2.slice == n && e.2.valid).map Prod.fst
  have s := rs.foldl (fun s r => (s.trn.qps.map Prod.fst).foldl (fun s q => s.placeAll q fun p => p.region == r) (s.invalidate r)) s
  State.noteLayby { s with
    trn.qps := s.trn.qps.filter fun e => !(qs.contains e.1)
    trn.sets := Table.mapVals (fun _ l => l.filter fun q => !(qs.contains q)) s.trn.sets
    trn.layby := s.trn.layby.filter fun e => !(qs.contains e.1)
    trn.direct := s.trn.direct.filter fun p => !(qs.contains p.qpn)
    trn.leaving := s.trn.leaving.filter fun q => !(qs.contains q)
    trn.fetching := s.trn.fetching.filter fun q => !(qs.contains q)
    trn.fetchWait := s.trn.fetchWait.filter fun q => !(qs.contains q) }

/-- A slice becomes Free: its channels, its claims on ports and its other resources go back (R389, R400). -/
def State.freeSlice (s : State) (n : Nat) : State :=
  have cs := (s.sliceOf { slice := n, ring := 0, cid := 0 }).channels
  have s := cs.foldl (fun s c => s.setChannel c {}) s
  ({ s with host.claims := s.host.claims.filter fun e => e.2 != n }).putSlice n {}

/-! Frames (R38 to R47, R400) -/

/-- A PTP event message is stamped with ring time plus the port's offset (R45, R46): none where stamping is off for it. -/
def State.ptpStamp (s : State) (lport : Nat) (ptp : Option PtpMsg) : Option Nat :=
  match ptp with
  | none => none
  | some m =>
    have p := lport / 4
    have on := match m.transport with
      | .l2 => s.on Reg.ETH_PTP_CTRL.L2 p
      | .udp4 => s.on Reg.ETH_PTP_CTRL.UDP4 p
      | .udp6 => s.on Reg.ETH_PTP_CTRL.UDP6 p
    if s.on Reg.ETH_PTP_CTRL.STAMP_EN p && on && decide (m.msgType ≤ 3) then
      some ((s.ringTime + s.rd Reg.ETH_PTP_OFFSET.OFFSET p) % 2 ^ 64)
    else none

/-- The PTP form of a stamp (R46): seconds, nanoseconds, correction in 2^−16 ns. -/
def ptpForm (stamp : Nat) : Nat × Nat × Nat := (stamp / 8 / 10 ^ 9, stamp / 8 % 10 ^ 9, stamp % 8 * 8192)

/-- A front port's transmit stamp registers show its oldest entry (R47, R69). -/
def State.showStamp (s : State) (port : Nat) : State :=
  have e := ((Table.get port [] s.trn.stamps).head?)
  have z : StampEntry := { stamp := 0, seqId := 0, msgType := 0, domain := 0, subport := 0 }
  have x := e.getD z
  have s := (s.wr Reg.ETH_PTP_TX_STAMP_LO.STAMP x.stamp port).wr Reg.ETH_PTP_TX_STAMP_HI.SEQUENCE_ID x.seqId port
  have s := (s.wr Reg.ETH_PTP_TX_STAMP_HI.MSG_TYPE x.msgType port).wr Reg.ETH_PTP_TX_STAMP_HI.DOMAIN x.domain port
  (s.wr Reg.ETH_PTP_TX_STAMP_HI.SUBPORT x.subport port).wr Reg.ETH_PTP_TX_STAMP_HI.VALID (if e.isSome then 1 else 0) port

/-- An egress stamp enters the FIFO of 16; a full FIFO loses its oldest entry and OVERFLOW is set (R47). -/
def State.pushStamp (s : State) (port : Nat) (e : StampEntry) : State :=
  have l := Table.get port [] s.trn.stamps
  have s := if 16 ≤ l.length then s.raise Reg.ETH_PTP_TX_STAMP_HI.OVERFLOW 1 port else s
  have s := ({ s with trn.stamps := Table.put port ((if 16 ≤ l.length then l.drop 1 else l) ++ [e]) s.trn.stamps }).showStamp port
  if l.isEmpty then s.raise Reg.ETH_PTP_TX_STAMP_HI.VALID 1 port else s

/-- Bytes put over others from an offset on. -/
def patchBytes (b : List Byte) (off : Nat) (new : List Byte) : List Byte := b.take off ++ new ++ b.drop (off + new.length)

/-- Where the PTP header of an untagged frame begins, by transport (IEEE 1588-2019: behind the Ethernet header, or behind it and the IP and
UDP headers; PRESUMED, log entry 77). -/
def ptpStart : PtpTransport → Nat
  | .l2 => 14
  | .udp4 => 42
  | .udp6 => 62

/-- The ones' complement sum of big-endian 16-bit words. -/
def onesSum (b : List Byte) : Nat :=
  have t := ((groupsOf 2 b.length b).map fun g => numBE (fit 2 g)).sum
  (t - 1) % 65535 + if t = 0 then 0 else 1

/-- A frame's UDP checksum computed again (R47), over the pseudo-header and the datagram (RFC 768, RFC 8200; PRESUMED, log entry 77). -/
def udpChecksum (v : PtpTransport) (b : List Byte) : List Byte :=
  match v with
  | .l2 => b
  | .udp4 | .udp6 =>
    have u := ptpStart v - 8
    have addrs := if v = .udp4 then slice b 26 8 else slice b 22 32
    have len := numBE (slice b (u + 4) 2)
    have datagram := slice (patchBytes b (u + 6) [0, 0]) u len
    have c := 65535 - onesSum (addrs ++ be 4 17 ++ be 4 len ++ datagram)
    patchBytes b (u + 6) (be 2 (if c = 0 then 65535 else c))

/-- A one-step message as it leaves (R46, R47): a Sync has its originTimestamp written and the sub-nanosecond remainder added to
correctionField, a Pdelay_Resp its residence time in ticks added to correctionField; the UDP checksum follows. -/
def oneStep (m : PtpMsg) (stamp residence : Nat) (b : List Byte) : List Byte :=
  have h := ptpStart m.transport
  let (sec, ns, corr) := ptpForm stamp
  have add := if m.msgType = 0 then corr else residence * 8192
  have b := patchBytes b (h + 8) (be 8 ((numBE (slice b (h + 8) 8) + add) % 2 ^ 64))
  udpChecksum m.transport (if m.msgType = 0 then patchBytes b (h + 34) (be 6 sec ++ be 4 ns) else b)

/-- The bytes of a protected frame (R43; IEEE 802.1AE, PRESUMED in log entry 78): the addresses, the SecTAG with EtherType 0x88E5, TCI and AN,
short length, the low half of the packet number and the SCI where it is included, then the rest of the frame under GCM-AES-XPN-256 with
confidentiality offset 0, and its 16-byte integrity check value. -/
def securedFrame (a : SecAssoc) (tag : SecOut) (b : List Byte) : List Byte :=
  have rest := b.drop 12
  have sci := if tag.sci then slice b 6 6 ++ be 2 1 else []
  have sectag := [0x88, 0xE5, byteOf (bit tag.sci 5 + 12 + tag.an), byteOf (if rest.length < 48 then rest.length else 0)] ++ be 4 tag.pn ++ sci
  have iv := xorBytes (be 4 a.ssci ++ be 8 tag.pn) (fit 12 a.salt)
  have cipher := gcmText a.key iv rest
  b.take 12 ++ sectag ++ cipher ++ gcmTag a.key iv (b.take 12 ++ sectag) cipher

/-- The ring command of a frame that has been handled completes with its stamp (R45). A frame that MACsec drops, for want of an
association or of packet numbers (R44), completes with status 0 and stamp 0 (DESIGN CHOICE, log entry 79: no rule gives its status). -/
def State.frameDone (s : State) (f : TxFrame) (ok : Bool) (stamp : Option Nat) : State :=
  match f.cmd with
  | some c => s.complete c 0 (if ok then stamp.getD 0 else 0)
  | none => s

/-- The bytes of a frame leave its port, EAPOL on the uncontrolled port and any other as MACsec has it (R43, R44); the answer is whether
they left. -/
def State.wireFrame (s : State) (f : TxFrame) (bytes : List Byte) : Bool × State :=
  if f.eapol then (true, s.send (.frame f.lport bytes))
  else
    let (w, s) := s.secTake f.lport
    match w with
    | .plain => (true, s.send (.frame f.lport bytes))
    | .drop => (false, s)
    | .protect a tags => (true, s.sendAll (tags.map fun tag => .frame f.lport (securedFrame a tag bytes)))

/-- A frame leaves a port (R47): it is stamped and protected. In one-step mode a Sync carries its time and a Pdelay_Resp its
residence; every other stamp, that of a Delay_Req or Pdelay_Req in one-step mode among them (DESIGN CHOICE, log entry 80: R47's one-step
row names two messages only), enters the FIFO and is the result of the frame's completion. -/
def State.emitFrame (s : State) (f : TxFrame) : State :=
  have stamp := s.ptpStamp f.lport f.ptp
  match f.ptp, stamp with
  | some m, some t =>
    if s.on Reg.ETH_PTP_CTRL.ONE_STEP (f.lport / 4) && (m.msgType == 0 || m.msgType == 3) then
      let (ok, s) := s.wireFrame f (oneStep m t f.residence f.bytes)
      s.frameDone f ok stamp
    else
      let (ok, s) := s.wireFrame f f.bytes
      have e : StampEntry := { stamp := t, seqId := m.seqId, msgType := m.msgType, domain := m.domain, subport := f.lport % 4 }
      (if ok then s.pushStamp (f.lport / 4) e else s).frameDone f ok stamp
  | _, _ =>
    let (ok, s) := s.wireFrame f f.bytes
    s.frameDone f ok stamp

/-- A frame is given to a port: it leaves, or waits while its priority is paused (R41). -/
def State.transmitFrame (s : State) (f : TxFrame) : State :=
  have p := s.lport f.lport
  if p.paused.contains f.prio then s.setLPort f.lport { p with txq := p.txq ++ [f] } else s.emitFrame f

/-- Transmission resumes on a priority (R41): the frames that waited for it leave in order, and on ROCE_PRIO the RoCEv2 packets. -/
def State.unpause (s : State) (l prio : Nat) : State :=
  have p := s.lport l
  have go := p.txq.filter fun f => f.prio == prio
  have s := s.setLPort l { p with
    paused := p.paused.filter fun x => x != prio
    txq := p.txq.filter fun f => f.prio != prio }
  (go.foldl State.emitFrame s).releasePackets l

/-- Whether the part has set a bit of a front port's transmit stamp register in this clock (R13). -/
def State.stampRaised (s : State) (f : RField) (port : Nat) : Bool := s.raisedBits f port 0 == 1

/-- What a read of a front port's ETH_PTP_TX_STAMP_HI answers (R69): the entry shown. What came in this clock is as before it came (R13): an
entry that has just become valid reads as none, and an OVERFLOW just set as 0. -/
def State.stampWord (s : State) (port : Nat) : Nat :=
  have lost := if s.stampRaised Reg.ETH_PTP_TX_STAMP_HI.OVERFLOW port then 0 else s.rd Reg.ETH_PTP_TX_STAMP_HI.OVERFLOW port
  2 ^ 30 * lost + if s.stampRaised Reg.ETH_PTP_TX_STAMP_HI.VALID port then 0
    else s.rd Reg.ETH_PTP_TX_STAMP_HI.SEQUENCE_ID port + 2 ^ 16 * s.rd Reg.ETH_PTP_TX_STAMP_HI.MSG_TYPE port +
      2 ^ 20 * s.rd Reg.ETH_PTP_TX_STAMP_HI.DOMAIN port + 2 ^ 28 * s.rd Reg.ETH_PTP_TX_STAMP_HI.SUBPORT port +
      2 ^ 31 * s.rd Reg.ETH_PTP_TX_STAMP_HI.VALID port

/-- A read of a front port's ETH_PTP_TX_STAMP_HI clears OVERFLOW and removes the entry it showed, and the next one appears (R69). What came in
this clock stays (R13). -/
def State.popStamp (s : State) (port : Nat) : State :=
  have s := if s.stampRaised Reg.ETH_PTP_TX_STAMP_HI.OVERFLOW port then s else s.wr Reg.ETH_PTP_TX_STAMP_HI.OVERFLOW 0 port
  if s.stampRaised Reg.ETH_PTP_TX_STAMP_HI.VALID port then s
  else ({ s with trn.stamps := Table.put port ((Table.get port [] s.trn.stamps).drop 1) s.trn.stamps }).showStamp port

/-- A host-bound frame fills the oldest buffer of the slice that claimed its port, or is dropped with event 0x100F (R400). -/
def State.deliverFrame (s : State) (f : Frame) (uncontrolled : Bool) : State :=
  match Table.get f.lport [] s.host.buffers with
  | [] => (s.bump Reg.CHI_FRAME_DROP.COUNT).postObject (Table.get f.lport 0 s.host.claims) 0x100F f.lport
  | b :: r =>
    have s := { s with host.buffers := Table.put f.lport r s.host.buffers }
    have s := s.sendHost (.hostWrite b.cmd.slice b.address f.bytes)
    s.complete b.cmd 0 ((s.ptpStamp f.lport f.ptp).getD 0)
      ((f.length - 4) % 65536 + 2 ^ 16 * f.lport + if uncontrolled then 2 ^ 20 else 0)

/-- A frame is bound for the control host, within the port's limit of a 1 ms window (R40). A limit of 0, which R69 says 'means none', is no
limit, and a window passes a thousandth of the limit rounded up (DESIGN CHOICE, log entry 81). -/
def State.hostFrame (s : State) (f : Frame) (uncontrolled : Bool) : State :=
  have limit := s.rd Reg.ETH_HOST_LIMIT.FRAMES_PER_S (f.lport / 4)
  have p := s.lport f.lport
  if limit ≠ 0 ∧ limit ≤ p.hostFrames * 1000 then s.setLPort f.lport { p with limitDrops := p.limitDrops + 1 }
  else (s.setLPort f.lport { p with hostFrames := p.hostFrames + 1 }).deliverFrame f uncontrolled

/-- MACsec on reception (R43): whether the frame may go on. A frame fails where it carries no tag, its association is not
enabled, its integrity check fails, or its packet number lies below the replay window; failing frames are counted, and in
check mode delivered. -/
def State.validate (s : State) (f : Frame) : Bool × State :=
  have port := f.lport / 4
  if !(s.on Reg.ETH_MACSEC_CTRL.EN port) then (true, s)
  else
    have p := s.lport f.lport
    have sa (t : SecTag) : SecAssoc := Table.get (t.channel * 4 + t.an) {} p.rxSa
    have good := match f.secTag with
      | none => false
      | some t => t.icvOk && (sa t).enabled && decide ((sa t).nextPn ≤ t.pn + s.rd Reg.ETH_MACSEC_REPLAY.WINDOW port)
    if good then
      match f.secTag with
      | none => (true, s)
      | some t => (true, s.setLPort f.lport { p with
          rxSa := Table.put (t.channel * 4 + t.an) { sa t with nextPn := max (sa t).nextPn (t.pn + 1) } p.rxSa })
    else (!(s.on Reg.ETH_MACSEC_CTRL.VALIDATE port), s.setLPort f.lport { p with secFails := p.secFails + 1 })

end Sys2Proof.Machine
end

