-- ==== Sys2Proof/Machine/RepCore.lean ====
section
/-!
DEFINITION. Machine/RepCore.lean: replica sets and their streams as the meanings share them (chapter 10): batches, envelopes,
completions that wait for the target, and changes of a set's state.
-/
namespace Sys2Proof.Machine
open Sys2Proof

/-- A replica set. -/
def State.repSet (s : State) (n : Nat) : RepSet := Table.get n {} s.rep.sets

/-- The state with a set put in place; its state register follows (R305). -/
def State.setRep (s : State) (n : Nat) (x : RepSet) : State :=
  ({ s with rep.sets := Table.put n x s.rep.sets }).wr Reg.REP_SET_STATE.STATE x.state.code n

/-- Whether a set runs here as a source, or as a target (R279, R305). -/
def State.repRuns (s : State) (n : Nat) (target : Bool) : Bool :=
  s.on Reg.REP_CTRL.EN && s.on Reg.REP_SET_CFG.EN n && (s.on Reg.REP_SET_CFG.ROLE n == target)

/-- The source namespace of a member, or the target's, as this array knows it (R279). -/
def State.memberNsid (s : State) (n : Nat) (m : Nat × Nat) : Nat := if s.on Reg.REP_SET_CFG.ROLE n then m.2 else m.1

/-- The body bytes of a unit (R284): 32, a container padded to 32, a fingerprint. -/
def RepUnit.bytes (u : RepUnit) : Nat :=
  32 + (u.container.length + 31) / 32 * 32 + if u.fp.isSome then 32 else 0

/-- The body bytes of units. -/
def unitsBytes (us : List RepUnit) : Nat := (us.map RepUnit.bytes).sum

/-- An envelope's bytes on the wire: header, body and tag (R282, R285). -/
def Envelope.bytes (e : Envelope) : Nat :=
  80 + unitsBytes e.units +
    match e.ack with
    | some a => 64 + 16 * a.wants.length
    | none => 0

/-- The ring bytes of an envelope: every envelope starts on a 64-byte boundary (R281). -/
def Envelope.ringBytes (e : Envelope) : Nat := (e.bytes + 63) / 64 * 64

/-- The envelopes not acknowledged, in bytes on the wire (R298). -/
def RepStream.buffered (x : RepStream) : Nat := (x.unacked.map Envelope.bytes).sum

/-- Where the next envelope of so many bytes goes in the far ring: behind the last one, or at the start where the end would not hold it;
nowhere while bytes that are not reported consumed stand there (R281). -/
def RepLink.place (k : RepLink) (n : Nat) : Option Nat :=
  have o := if k.next + n ≤ k.ringSize then k.next else 0
  if o + n ≤ k.ringSize && k.inRing.all fun p => decide (p.1 + p.2 ≤ o ∨ o + n ≤ p.1) then some o else none

/-- The key of the current generation of a cipher slot, with its number. -/
def State.slotKey (s : State) (slot : Nat) : Option KeyGen := (Table.find slot s.keys.cipher).bind fun k => if k.damaged then none else k.cur

/-- An envelope's bytes under the key that it names (R282); without that key nothing can be sealed. -/
def State.sealEnvelope (s : State) (e : Envelope) : List Byte :=
  match s.slotKey e.slot with
  | some k => if k.gen = e.gen then e.wire k.key else []
  | none => []

/-- A dummy round with a wrong result while an envelope is encrypted withholds the output (R156): the fault is counted with 0x320C, and the envelope is
encrypted again (DESIGN CHOICE, log entry 117). -/
def State.noteSeal (s : State) : State :=
  let (bad, s) := s.dummyRound
  if bad then (s.bump Reg.BND_CIPHER_FAULT.COUNT).event 0x320C else s

/-- An envelope with the header fields of a set's stream here (R282, R283): head, session, next sequence, key slot and generation. -/
def State.stampEnvelope (s : State) (n : Nat) (e : Envelope) : Envelope :=
  have x := s.repSet n
  have slot := s.rd Reg.REP_SET_CFG.KEY_SLOT n
  { e with
    head := s.headB
    set := n
    session := x.stream.session
    seq := x.stream.seq
    slot := slot
    gen := ((s.slotKey slot).map KeyGen.gen).getD 0 }

/-- The set's stream here has used a sequence. -/
def State.nextEnvelope (s : State) (n : Nat) : State :=
  have x := s.repSet n
  s.setRep n { x with stream := { x.stream with seq := x.stream.seq + 1 } }

/-- A link's envelopes are written into the far ring in order, as far as it has space (R281). -/
def State.writeRing (l : Nat) : List Envelope → State → State
  | [], s => s
  | e :: r, s =>
    match Table.find l s.rep.links with
    | none => s
    | some k =>
      match k.place e.ringBytes with
      | none => { s with rep.links := Table.put l { k with queue := e :: r } s.rep.links }
      | some o =>
        have k' : RepLink := { k with next := o + e.ringBytes, inRing := k.inRing ++ [(o, e.ringBytes)], queue := r }
        have s := State.noteSeal { s with rep.links := Table.put l k' s.rep.links }
        State.writeRing l r ((s.send (.envelope l { e with ring := o } (s.sealEnvelope e))).bump Reg.REP_BYTES_OUT.BYTES e.bytes)

/-- An envelope is sent on a link that is up; on another it is not sent (R281, R298). -/
def State.postEnvelope (s : State) (l : Nat) (e : Envelope) : State :=
  match Table.find l s.rep.links with
  | none => s
  | some k => if s.rd Reg.REP_LINK_CTRL.STATE l = 2 then State.writeRing l (k.queue ++ [e]) s else s

/-- An envelope has been received and consumed from this head's receive ring (R281), which is ignored while no set runs (R305). -/
def State.consumeRing (s : State) (l : Nat) (e : Envelope) : State :=
  if s.on Reg.REP_CTRL.EN then
    ({ s with rep.links := Table.modify l (fun (k : RepLink) => { k with done := e.ring + e.ringBytes }) s.rep.links }).bump
      Reg.REP_BYTES_IN.BYTES e.bytes
  else s

/-- The far side reports the offset up to which it has consumed its ring; what waits for space goes on (R281). -/
def State.ringConsumed (s : State) (l off : Nat) : State :=
  match Table.find l s.rep.links with
  | none => s
  | some k =>
    if k.inRing.any fun p => p.1 + p.2 == off then
      have left := (k.inRing.dropWhile fun p => p.1 + p.2 != off).drop 1
      State.writeRing l k.queue { s with rep.links := Table.put l { k with inRing := left } s.rep.links }
    else s

/-- The link of a set, and the offset consumed of its ring here. -/
def State.linkOf (s : State) (n : Nat) : Nat := s.rd Reg.REP_SET_CFG.LINK n

/-- The offset that an acknowledgement on a link reports. -/
def State.consumedOf (s : State) (l : Nat) : Nat :=
  match Table.find l s.rep.links with
  | some k => k.done
  | none => 0

/-- Whether the send buffer, which the sets share, holds so many bytes more (R298). -/
def State.sendRoom (s : State) (n : Nat) : Bool :=
  decide ((s.rep.sets.map fun e => e.2.stream.buffered).sum + n ≤ s.rd Reg.REP_SEND_SIZE.GIB * 2 ^ 30)

/-- Envelopes that wait for buffer space enter the send buffer in order and are sent (R298). -/
def State.fillBuffer (n : Nat) : List Envelope → State → State
  | [], s => s
  | e :: r, s =>
    have x := s.repSet n
    if s.sendRoom e.bytes then
      State.fillBuffer n r ((s.setRep n { x with stream := { x.stream with
        unacked := x.stream.unacked ++ [e]
        room := r } }).postEnvelope (s.linkOf n) e)
    else s.setRep n { x with stream := { x.stream with room := e :: r } }

/-- Every waiting completion of a set is set (R298, R300). -/
def State.releaseAll (s : State) (n : Nat) : State :=
  have x := s.repSet n
  have s := s.setRep n { x with waiting := [] }
  x.waiting.foldl (fun s w => s.finish w.1 success) s

/-- A Stalled set enters Tracking (R298): the send buffer's envelopes are dropped and the commands it held complete. -/
def State.enterTracking (s : State) (n : Nat) : State :=
  have x := s.repSet n
  have s := s.setRep n { x with state := .tracking, stream := { x.stream with batch := [], unacked := [], room := [], writes := [] } }
  (s.event1 0x6005 n).releaseAll n

/-- A Stalled set with ON_BREAK enters Tracking when the send buffer fills (R298). -/
def State.noteFull (s : State) (n : Nat) : State :=
  have x := s.repSet n
  if x.state == .stalled && !x.stream.room.isEmpty && s.on Reg.REP_SET_CFG.ON_BREAK n then s.enterTracking n else s

/-- An envelope leaves on the set's stream: it takes the next sequence and stays in the send buffer, for whose space it waits
(R282, R298). -/
def State.sendEnvelope (s : State) (n : Nat) (e : Envelope) : State :=
  have e := { s.stampEnvelope n e with watermark := s.ringTime - 1 }
  have s := s.nextEnvelope n
  (State.fillBuffer n ((s.repSet n).stream.room ++ [e]) s).noteFull n

/-- The open batch is sealed and sent (R287); an empty one carries its watermark alone. -/
def State.sealBatch (s : State) (n : Nat) : State :=
  have x := s.repSet n
  have s := s.setRep n { x with stream := { x.stream with batch := [], batchAt := 0 } }
  s.sendEnvelope n { kind := 1, set := n, session := 0, seq := 0, units := x.stream.batch, time := x.stream.batchTime }

/-- A unit joins the open batch (R287): an envelope that 1,048,576 body bytes would not hold is closed first. -/
def State.joinUnit (s : State) (n time : Nat) (u : RepUnit) : State :=
  have s := if 1048576 < unitsBytes (s.repSet n).stream.batch + u.bytes then s.sealBatch n else s
  have x := s.repSet n
  s.setRep n { x with stream := { x.stream with
    batch := x.stream.batch ++ [u]
    batchAt := if x.stream.batch.isEmpty then s.clock else x.stream.batchAt
    batchTime := time } }

/-- The unit of an extent (R284, R287): a container with its fingerprint for a new chunk, or where every copy is shipped, a
reference for a hit. -/
def RepSet.unitOf (x : RepSet) (member : Nat) (e : Extent) (bytes : List Byte) (last : Bool) : RepUnit :=
  have base : RepUnit := { addr := e.addr, len := e.len, off := e.off, member := member, form := 0, last := last }
  match e.loc with
  | .unmapped => base
  | .zero => { base with form := 1 }
  | loc =>
    if e.isNew || x.allCopies then { base with form := 2, loc := loc, container := bytes, fp := e.fp }
    else { base with form := 3, loc := loc }

/-- The synchronous sets that a namespace's writes join, with the member index (R287): those that stream. -/
def State.streamsOf (s : State) (nsid : Nat) : List (Nat × Nat) :=
  s.rep.sets.filterMap fun e =>
    have streaming := match e.2.state with
      | .synchronous | .stalled => true
      | .resync => e.2.shipping.any fun a => a.2 == .finalResync
      | .reversing => true
      | _ => false
    if s.repRuns e.1 false && s.rd Reg.REP_SET_CFG.MODE e.1 == 1 && streaming then
      (e.2.members.findIdx? fun m => m.1 == nsid).map fun k => (e.1, k)
    else none

/-- The mark of a completion whose write still waits to join its stream: beyond every sequence. -/
def writeMark (job : Nat) : Nat := 2 ^ 64 + job

/-- The units of a write join the stream (R287), and its completion waits for the sequence of the envelope that carries the last one (R288). In
Tracking they are dropped (R298). -/
def State.joinUnits (s : State) (n job time : Nat) (units : List RepUnit) : State :=
  have s := units.foldl (fun s u => s.joinUnit n time u) s
  have x := s.repSet n
  if x.state = .tracking then s.setRep n { x with stream := { x.stream with batch := [] } }
  else
    s.setRep n { x with waiting := x.waiting.map fun w => if w.2 = writeMark job then (w.1, x.stream.seq) else w }

/-- The writes of a set that wait to join its stream do so in their order, as far as every container of theirs has come. -/
def State.drainWrites (n : Nat) : List Nat → State → State
  | [], s => s
  | job :: r, s =>
    have x := s.repSet n
    match Table.find job x.jobs with
    | none => State.drainWrites n r (s.setRep n { x with stream := { x.stream with writes := r } })
    | some j =>
      if j.wait.isEmpty then
        have s := s.setRep n { x with jobs := Table.drop job x.jobs, stream := { x.stream with writes := r } }
        State.drainWrites n r (s.joinUnits n job j.time j.units)
      else s

/-- A write joins its set's stream at its commit point (R287). `bytes` gives a container of the write cache; a hit that lies elsewhere and is
shipped as its container is fetched first (R280), and the writes after it keep their order. The answer is the set and the mark with which its
completion waits for the target (R288); none where the set has entered Tracking over it, and its units are dropped (R298). -/
def State.joinStream (s : State) (nsid : Nat) (delta : List Extent) (bytes : Loc → Option (List Byte)) : Option (Nat × Nat) × State :=
  match s.streamsOf nsid with
  | [] => (none, s)
  | (n, k) :: _ =>
    have x := s.repSet n
    have id := x.nextJob
    have units := delta.zipIdx.map fun p => x.unitOf k p.1 ((bytes p.1.loc).getD []) (p.2 + 1 == delta.length)
    have need := (units.zipIdx.filter fun p => p.1.form == 2 && (bytes p.1.loc).isNone).map Prod.snd
    if need.isEmpty && x.stream.writes.isEmpty then
      have s := s.joinUnits n id s.ringTime units
      have x := s.repSet n
      (if x.state = .tracking then none else some (n, x.stream.seq), s)
    else
      have j : ShipJob := { kind := 1, time := s.ringTime, units := units, wait := need }
      have s := s.setRep n { x with
        nextJob := id + 1
        jobs := Table.put id j x.jobs
        stream := { x.stream with writes := x.stream.writes ++ [id] } }
      have s := units.zipIdx.foldl (fun s p => if need.contains p.2 then s.askFetch (.ship n id p.2) p.1.loc 0 else s) s
      (some (n, writeMark id), s)

/-- The completions of a set that wait for the target up to a sequence are set (R288). -/
def State.releaseCompletions (s : State) (n upTo : Nat) : State :=
  have x := s.repSet n
  have go := x.waiting.filter fun w => decide (w.2 ≤ upTo)
  have s := s.setRep n { x with waiting := x.waiting.filter fun w => !(decide (w.2 ≤ upTo)) }
  go.foldl (fun s w => s.finish w.1 success) s

/-- A set becomes Broken with a code (R283, R286, R297). -/
def State.breakSet (s : State) (n code event : Nat) : State :=
  (((s.setRep n { s.repSet n with state := .broken }).wr Reg.REP_SET_STATE.STATUS code n).event1 event n).releaseAll n

/-- A session starts (R283): the counter advances; past its last number the set is Broken. -/
def State.startSession (s : State) (n : Nat) : State :=
  have x := s.repSet n
  have c := x.stream.counter + 1
  if 2 ^ 30 - 1 < c then s.breakSet n 0x600F 0x600F
  else
    have link := s.rd Reg.REP_SET_CFG.LINK n
    have far := match Table.find link s.rep.links with
      | some l => l.array
      | none => 0
    have side := if s.rd Reg.REP_ARRAY_ID.ID ≤ far then 0 else 2 ^ 31
    have session := side + (if s.headB then 2 ^ 30 else 0) + c
    have waiting := x.waiting.map fun w => if 2 ^ 64 ≤ w.2 then (w.1, x.stream.seq) else w
    s.setRep n { x with waiting := waiting, stream := { x.stream with
      session := session
      counter := c
      seq := 1
      batch := []
      unacked := []
      room := []
      writes := []
      fails := [] } }

/-! Units that are made ready (R293, R296) -/

/-- Units in envelopes of at most 1,048,576 body bytes (R287). -/
def splitUnits : List RepUnit → List RepUnit → List (List RepUnit)
  | [], cur => [cur]
  | u :: r, cur =>
    if !cur.isEmpty && decide (1048576 < unitsBytes (cur ++ [u])) then cur :: splitUnits r [u] else splitUnits r (cur ++ [u])

/-- A job whose containers are all in is sent (R293, R296): a difference with REVERT on its first envelope where it reverts and LAST on
its last, or want replies; a write of the stream joins it in its turn (R280, R287). -/
def State.pumpShip (s : State) (n job : Nat) : State :=
  have x := s.repSet n
  match Table.find job x.jobs with
  | none => s
  | some j =>
    if !j.wait.isEmpty then s
    else if j.kind = 1 then State.drainWrites n x.stream.writes s
    else
      have parts := splitUnits j.units []
      have s := s.setRep n { x with
        jobs := Table.drop job x.jobs
        lastBody := if j.kind = 2 then unitsBytes j.units else x.lastBody }
      parts.zipIdx.foldl (fun s p =>
        s.sendEnvelope n { kind := j.kind, set := n, session := 0, seq := 0, units := p.1, time := j.time, base := j.base,
                           revert := j.revert && p.2 == 0, last := j.kind == 2 && p.2 + 1 == parts.length }) s

/-- The container of a unit has come, or cannot be read, which drops the unit's data (R293). -/
def State.shipUnit (s : State) (n job k : Nat) (copy : Option Container) : State :=
  have x := s.repSet n
  have fix (u : RepUnit) : RepUnit :=
    match copy with
    | some b => { u with container := b }
    | none => { u with form := 0 }
  have fill (j : ShipJob) : ShipJob := { j with
    wait := j.wait.filter fun i => i != k
    units := j.units.zipIdx.map fun p => if p.2 = k then fix p.1 else p.1 }
  (s.setRep n { x with jobs := Table.modify job fill x.jobs }).pumpShip n job

/-! Acknowledgements of a target (R285, R289) -/

/-- An acknowledgement is sent to the source (R285). It goes in this head's own session of the set, so that no IV repeats (R283). -/
def State.sendRepAck (s : State) (n head result refused : Nat) (wants : List (Nat × Nat)) : State :=
  have x := s.repSet n
  have r := Table.get head {} x.recv
  have anchor := match x.anchors with
    | a :: _ => a.1
    | [] => 0
  have ack : RepAck := { result := result, set := n, session := r.session, seq := r.done, anchor := anchor,
                         consumed := s.consumedOf (s.linkOf n), wants := wants, refused := refused }
  have e : Envelope := s.stampEnvelope n { kind := 5, set := n, session := 0, seq := 0, ack := some ack }
  (s.nextEnvelope n).postEnvelope (s.linkOf n) e

/-- The snapshot ID of an anchor (R290). -/
def anchorSnap (rotation : Nat) : Nat := 65532 + rotation % 4

/-- An anchor is taken of every member (R290, R291): a snapshot at T under the next ID in rotation; the second anchor before it goes. On
a target with working trees these become the members' trees in the same clock (R294). -/
def State.takeAnchor (s : State) (n t : Nat) : State :=
  have x := s.repSet n
  have rot := x.rotation + 1
  have s := x.members.zipIdx.foldl (fun s p =>
    have nsid := s.memberNsid n p.1
    match Table.find nsid s.map.ns with
    | none => s
    | some ns =>
      have s := match Table.find p.2 x.working with
        | some root => (s.setRoot nsid root).dropPage ns.root
        | none => s
      have old := (x.anchors.drop 1).map fun a => anchorSnap a.2
      have s := old.foldl (fun s id => s.removeSnap nsid id) s
      (s.removeSnap nsid (anchorSnap rot)).takeCut nsid (anchorSnap rot) t none) s
  s.setRep n { s.repSet n with anchors := (t, rot) :: x.anchors.take 1, rotation := rot, working := [] }

/-- Whether the internal work of a ticket is still to reach its commit point: it waits for a tag, or its write is open. -/
def State.ticketOpen (s : State) (k : Nat) : Bool :=
  (s.cmd.internal.any fun w => w.at_ == k) || s.cmd.tags.any fun e => e.2.ticket == k && s.writeOpen (e.1, k)

/-- Writes of a target's envelopes that have all committed are acknowledged (R289); an anchor whose envelopes are all applied is taken and
acknowledged with its cut time (R290, R294). -/
def State.settleStream (s : State) (n head : Nat) : State :=
  have x := s.repSet n
  have r := Table.get head {} x.recv
  have (done, left) := (r.applying.takeWhile (fun (e : Nat × List Nat) => e.2.all fun k => !(s.ticketOpen k)),
    r.applying.dropWhile fun (e : Nat × List Nat) => e.2.all fun k => !(s.ticketOpen k))
  have mark := (done.map Prod.fst).foldl max r.done
  have s := if done.isEmpty then s
    else
      have s := s.setRep n { x with recv := Table.put head { r with applying := left, done := mark } x.recv }
      s.sendRepAck n head 0 0 []
  have x := s.repSet n
  have r := Table.get head {} x.recv
  match r.anchorAt with
  | some t =>
    if r.applying.isEmpty && r.held.isEmpty then
      have s := s.setRep n { x with recv := Table.put head { r with anchorAt := none } x.recv }
      (s.takeAnchor n t).sendRepAck n head 0 0 []
    else s
  | none => s

/-- Every stream that a target receives is looked at. -/
def State.settleRep (s : State) : State :=
  s.rep.sets.foldl (fun s e => if e.2.state == .target then e.2.recv.foldl (fun s r => s.settleStream e.1 r.1) s else s) s

end Sys2Proof.Machine
end

