-- ==== Sys2Proof/Machine/WriteCore.lean ====
section
/-!
DEFINITION. Machine/WriteCore.lean: the data path of a write as the meanings share it: segments and lanes, the cut, containers,
the write cache's segments, mirror records, the commit point, and metadata changes (chapters 04, 05 and 06).
-/
namespace Sys2Proof.Machine
open Sys2Proof

/-! The cut (R106 to R112) -/

/-- One byte of a segment (R106, R108): the segment after it, and the chunk that ends with it. `base` is the byte address of the
write's first byte. -/
def Segment.feed (seed grid base : Nat) (g : Segment) (b : Byte) : Segment × Option (Nat × List Byte) :=
  have cur := g.cur ++ [b]
  have got := g.got + 1
  have h := if grid = 0 then gearNext seed g.h b else 0
  have ends := got == g.len || (if grid = 0 then cutsAfter h cur.length else (base + g.off + got) % grid == 0)
  if ends then ({ g with got := got, h := 0, cur := [] }, some (g.off + got - cur.length, cur))
  else ({ g with got := got, h := h, cur := cur }, none)

/-- Bytes of a segment in order: the segment after them and the chunks cut. -/
def Segment.feedAll (seed grid base : Nat) : List Byte → Segment → List (Nat × List Byte) → Segment × List (Nat × List Byte)
  | [], g, cuts => (g, cuts)
  | b :: r, g, cuts =>
    if g.len ≤ g.got then (g, cuts)
    else
      let (g, c) := g.feed seed grid base b
      Segment.feedAll seed grid base r g (cuts ++ c.toList)

/-- The time of a cut on a lane (R133): ring time, at least a lane clock of 5 ticks after the lane's last cut. -/
def State.cutTime (s : State) (lane : Nat) : Nat :=
  match Table.find lane s.bnd.lastCut with
  | some t => max s.ringTime (t + 5)
  | none => s.ringTime

/-- A write that cannot go on before its point of no return ends with a status, and an event is recorded. -/
def State.failWrite (s : State) (t : Nat) (st : NvmeStatus) (event : Nat) : State :=
  have d := match s.tag t with
    | some c => c.tenant
    | none => 0
  (s.cancelWith t st).event1 event d

/-- The state with a write job changed. -/
def State.modWrite (s : State) (t : Nat) (f : WriteJob → WriteJob) : State :=
  s.modTag t fun c => { c with write := c.write.map f }

/-- A chunk of a write, by the offset of its first byte. -/
def WriteJob.chunkAt (w : WriteJob) (off : Nat) : Option Chunk := w.chunks.find? fun k => k.off == off

/-- The state with a write's chunk changed. -/
def State.modChunk (s : State) (t off : Nat) (f : Chunk → Chunk) : State :=
  s.modWrite t fun w => { w with chunks := w.chunks.map fun k => if k.off = off then f k else k }

/-- The container of a chunk (R133, R135, R136): compressed where that saves enough, encrypted under the domain's slot. The
error is the event code of a key that cannot serve (R153, R508). -/
def State.buildContainer (s : State) (domain : Nat) (bytes : List Byte) (cut lane : Nat) : Except Nat Container :=
  match s.containerKey domain with
  | .error e => .error e
  | .ok g =>
    have z := compress (s.rd Reg.BND_COMP_CFG.LEVEL) 0 bytes
    have keep := decide (z.length + 16 * s.rd Reg.BND_COMP_CFG.MIN_SAVE ≤ bytes.length)
    have payload := if keep then z else bytes
    have h : Header := { alg := if keep then 1 else 0, domain := domain, slot := s.rd Reg.DDP_DOMAIN_KEYS.CIPHER_SLOT domain, gen := g.gen,
                         orig := bytes.length, payload := payload.length, cut := cut, ring := s.rd Reg.XRN_ADDR.ASSIGNED, lane := lane,
                         crc := crc32c bytes }
    .ok (h.bytes ++ xts false g.key (tweak h.bytes) (payload ++ zeros (16 - payload.length)))

/-- A unit of a forwarded write goes to the owner (R363); LAST_DATA marks the last. -/
def State.forwardUnit (s : State) (t : Nat) (e : Extent) (container : Container) : State :=
  match s.tag t with
  | none => s
  | some c =>
    have g := match Table.find c.cap.nsid s.map.ns with
      | some n => n.group
      | none => 0
    have last := c.write.any fun (w : WriteJob) =>
      (w.chunks.map Chunk.len).sum == (w.segs.map Segment.len).sum && w.chunks.all fun k => match k.state with
        | .zero | .stored _ _ => true
        | .waiting | .asked | .hit _ | .verifying _ => false
    have h : FwdHeader := { rtag := t, otag := c.peerTag.getD 0, tenant := c.tenant, group := g, lastData := last, gen := (s.groupOf g).gen }
    s.sendRing (.forwardData h [{ ext := { e with addr := c.cap.slba * 4096 + e.addr }, container := container }])

/-- A dummy round gave a wrong result while a chunk was encrypted (R156): the chunk fails with 0x320C, and its write with a
status that the spec does not state. -/
def State.cipherFault (s : State) (t : Nat) : State :=
  let (v, s) := s.fresh
  (s.bump Reg.BND_CIPHER_FAULT.COUNT).failWrite t (openStatus v) 0x320C

/-- A chunk of a forwarded write is encrypted, where no dummy round fails (R156), and sent to the owner, which looks it up (R363). -/
def State.forwardChunk (s : State) (t domain : Nat) (k : Chunk) (fp : Option (List Byte)) : State :=
  match s.buildContainer domain k.bytes k.cut k.lane with
  | .error ev => (s.failWrite t (vendor 0xE1) ev).sendRing (.forwardCancel t)
  | .ok b =>
    let (bad, s) := s.dummyRound
    if bad then (s.cipherFault t).sendRing (.forwardCancel t)
    else (s.modChunk t k.off fun k => { k with state := .stored b false }).forwardUnit t
      { addr := k.off, len := k.bytes.length, isNew := true, loc := .unmapped, fp := fp } b

/-- Whether a tag's command is Forwarded: this head is the receiving head. -/
def State.isForwarded (s : State) (t : Nat) : Bool := (s.tag t).any fun c => c.state == .forwarded

/-- A lane uses the states of a digest slot, which are then among the 16 that it caches (R111). -/
def State.useStates (s : State) (lane slot : Nat) : State :=
  { s with bnd.states := Table.upd lane [] (fun l => (slot :: l.filter fun x => x != slot).take 16) s.bnd.states }

/-- The digest key that a chunk is started with (R507): that of its domain's slot, where the slot's states are computed. -/
def State.digestKey (s : State) (domain : Nat) : Option (List Byte) :=
  (Table.find (s.rd Reg.DDP_DOMAIN_KEYS.DIGEST_SLOT domain) s.keys.digest).bind fun d =>
    if d.ready && !d.damaged then some d.key else none

/-- A chunk asks QM for its fingerprint (R110, R111, R118): with the key that its digest was started with (R507); one that has none waits while
its slot's states are not computed. An empty or damaged slot ends the write with 0xE1. -/
def State.askChunk (s : State) (t domain : Nat) (k : Chunk) : State :=
  match Table.find (s.rd Reg.DDP_DOMAIN_KEYS.DIGEST_SLOT domain) s.keys.digest with
  | none => s.failWrite t (vendor 0xE1) 0x3001
  | some d =>
    if d.damaged then s.failWrite t (vendor 0xE1) 0x3207
    else
      match k.key.or (s.digestKey domain) with
      | none => s
      | some key =>
      have fp := hmac (s.rd Reg.DDP_DOMAIN_CFG.DIGEST domain) key k.bytes
      have s := s.useStates k.lane (s.rd Reg.DDP_DOMAIN_KEYS.DIGEST_SLOT domain)
      if s.isForwarded t then s.forwardChunk t domain k (some fp)
      else (s.modChunk t k.off fun k => { k with fp := some fp, state := .asked }).send (.lookup domain fp t k.off)

/-- A chunk is stored new (R136): its container is built, or its write ends with 0xE1. -/
def State.storeChunk (s : State) (t domain : Nat) (k : Chunk) (noIndex : Bool) : State :=
  have built : Except Nat Container := match k.fwd with
    | some f => .ok f.2
    | none => s.buildContainer domain k.bytes k.cut k.lane
  match built with
  | .error ev => s.failWrite t (vendor 0xE1) ev
  | .ok c =>
    have h := Header.parse c
    have s := s.modChunk t k.off fun k => { k with state := .stored c noIndex }
    have s := if h.alg = 0 then s.bump Reg.BND_COMP_STORED.COUNT else s
    (s.bump Reg.BND_COMP_BYTES_IN.BYTES k.len).bump Reg.BND_COMP_BYTES_OUT.BYTES h.payload

/-- A chunk is cut (R106, R109, R110): a zero chunk is done; in dedup mode off the chunk is stored, unless a dummy round fails (R156); otherwise
it is looked up. The write's `total` bytes tell a cut at a division point from one at its end. -/
def State.cutChunk (s : State) (t domain total : Nat) (g : Segment) (off : Nat) (bytes : List Byte) : State :=
  have time := s.cutTime g.lane
  have k : Chunk := { off := off, bytes := bytes, cut := time, lane := g.lane, key := g.key }
  have s := s.modWrite t fun w => { w with chunks := w.chunks ++ [k] }
  have s := ({ s with bnd.lastCut := Table.put g.lane time s.bnd.lastCut }).bump Reg.BND_CHUNKS.COUNT
  have s := if bytes.length = 65536 ∧ s.grid domain = 0 then s.bump Reg.BND_CUTS.MAXLEN else s
  have s := if off + bytes.length = g.off + g.len ∧ g.off + g.len < total then s.bump Reg.BND_CUTS.SEAM else s
  if bytes.all fun b => b == 0 then
    have s := (s.modChunk t off fun k => { k with state := .zero }).bump Reg.BND_ZERO.COUNT
    if s.isForwarded t then s.forwardUnit t { addr := off, len := bytes.length, loc := .zero } [] else s
  else if s.rd Reg.DDP_DOMAIN_CFG.MODE domain = 0 then
    if s.isForwarded t then s.forwardChunk t domain k none
    else
      let (bad, s) := s.dummyRound
      if bad then s.cipherFault t else s.storeChunk t domain k false
  else s.askChunk t domain k

/-- A lane serves a stream (R112): a change from another stream, at its end or at a whole multiple of 4,096 bytes, is a switch. -/
def State.serveStream (s : State) (ticket : Nat) (g : Segment) : State :=
  have me := (ticket, g.off)
  have s' := { s with bnd.lastStream := Table.put g.lane me s.bnd.lastStream }
  match Table.find g.lane s.bnd.lastStream with
  | some other => if other = me then s' else s'.bump Reg.BND_STREAM_SWITCH.COUNT
  | none => s'

/-- A lane takes in what staging holds for one of its streams, in whole units of 4,096 bytes or to the segment's end, so that it changes
streams only there (R106, R112). A chunk's digest is started with the key of its first byte's time (R507). -/
def State.takeIn (s : State) (t segOff : Nat) : State :=
  match s.tag t with
  | none => s
  | some c =>
    match c.write with
    | none => s
    | some w =>
      match w.segs.find? fun g => g.off == segOff && g.begun with
      | none => s
      | some old =>
        have n := if old.len ≤ old.got + old.staged.length then old.len - old.got else old.staged.length / 4096 * 4096
        if n = 0 then s
        else
          have total := (w.segs.map Segment.len).sum
          have g := { old with staged := old.staged.drop n }
          let (g', cuts) :=
            Segment.feedAll (s.rd Reg.BND_GEAR_SEED.SEED) (s.grid c.tenant) (c.cap.slba * 4096)
              (old.staged.take n) g []
          have now := s.digestKey c.tenant
          have first := if old.cur.isEmpty then now else old.key
          have g' := { g' with key := if g'.cur.isEmpty then none else if cuts.isEmpty then first else now }
          have s := s.modWrite t fun w => { w with segs := w.segs.map fun x => if x.off = segOff then g' else x }
          cuts.zipIdx.foldl (fun s k => s.cutChunk t c.tenant total { g with key := if k.2 = 0 then first else now } k.1.1 k.1.2)
            (s.serveStream c.ticket g')

/-- Bytes of a write reach staging for their segment, and its lane takes them in. -/
def State.feedSegment (s : State) (t segOff : Nat) (bytes : List Byte) : State :=
  (s.modWrite t fun w => { w with
    segs := w.segs.map fun x => if x.off = segOff then { x with staged := x.staged ++ bytes.take (x.len - x.got - x.staged.length) } else x }).takeIn t segOff

/-- A chunk that the receiving head has sent is looked up, or stored as it came (R363). -/
def State.takeForwarded (s : State) (t domain : Nat) (k : Chunk) : State :=
  match k.state, k.fp with
  | .waiting, some fp => (s.modChunk t k.off fun k => { k with state := .asked }).send (.lookup domain fp t k.off)
  | .waiting, none => s.storeChunk t domain k false
  | _, _ => s

/-! Own segments (R161, R162) -/

/-- An own segment. -/
def State.ownSeg (s : State) (n : Nat) : OwnSeg := Table.get n {} s.wc.own

/-- DDR_WC_DIRTY and DDR_WC_META follow the segments (R183). -/
def State.noteDirty (s : State) : State :=
  ((s.wr Reg.DDR_WC_DIRTY.OWN (s.wc.own.countP fun e => e.2.state != .free)).wr Reg.DDR_WC_DIRTY.MIRROR
    (s.wc.mir.countP fun e => e.2.held)).noteMeta

/-- The state with an own segment put in place. -/
def State.setOwn (s : State) (n : Nat) (g : OwnSeg) : State := ({ s with wc.own := Table.put n g s.wc.own }).noteDirty

/-- The lane number of the open segment for metadata records (R161). -/
def metaLane : Nat := 36

/-- The open segment of a lane (R161). -/
def State.openSeg (s : State) (lane : Nat) : Option (Nat × OwnSeg) :=
  s.wc.own.find? fun e => e.2.state == .opened && e.2.lane == lane

/-- The lowest-numbered Free segment within LIMIT_SEGS (R161, R162). -/
def State.freeSeg (s : State) : Option Nat :=
  have limit := s.rd Reg.DDR_WC_CFG.LIMIT_SEGS
  if limit ≤ s.wc.own.countP fun e => e.2.state != .free then none
  else (List.range (s.wc.own.length + 1)).find? fun n => (s.ownSeg n).state == .free && decide (n < 24576)

/-- Room for a record (R161): in the lane's open segment, or in a Free segment opened for it at its next generation; a segment
without room becomes Full either way. The answer is the segment, whether the record opens it, and none where no segment is
Free. -/
def State.roomFor (s : State) (lane len : Nat) : Option (Nat × Bool) × State :=
  have fits := match s.openSeg lane with
    | some (n, g) => if g.fill + len ≤ 1048576 then some n else none
    | none => none
  match fits with
  | some n => (some (n, false), s)
  | none =>
    have s := match s.openSeg lane with
      | some (n, g) => s.setOwn n { g with state := .full, fullAt := s.clock }
      | none => s
    match s.freeSeg with
    | none => (none, s)
    | some n =>
      have g := s.ownSeg n
      (some (n, true), s.setOwn n { state := .opened, gen := (g.gen + 1) % 65536, lane := lane })

/-! Mirror records (R163 to R166) -/

/-- Whether the mirror mode sends records to the peer (R165, R170). -/
def MirMode.mirrors : MirMode → Bool
  | .mirrored | .suspect | .resync => true
  | .off | .solo | .destage => false

/-- DDR_MIR_SENT and DDR_MIR_ACKED follow the records (R183). -/
def State.noteMirror (s : State) : State :=
  have open_ := (s.wc.sent.filter fun e => !e.2.acked).map Prod.fst
  have acked := match open_ with
    | k :: _ => k - 1
    | [] => s.wc.nextSeq - 1
  have waiting := s.wc.sent.countP fun e => !e.2.onWire
  (s.wr Reg.DDR_MIR_SENT.SEQ (s.wc.nextSeq - 1 - waiting)).wr Reg.DDR_MIR_ACKED.SEQ acked

/-- The ring port that is ready first for a record (R165): of those that are up, one with credit on VC2 and nothing waiting there, else the one
with the fewest messages waiting; of two alike the lower-numbered (DESIGN CHOICE, log entry 98). -/
def State.readyPort (s : State) : Option Nat :=
  have queued (p : Nat) : Nat := (Table.get (chanKey p 2) [] s.chan.waiting).length + if s.hasCredit (chanKey p 2) then 0 else 1
  (s.peerPorts false).foldl (fun best p =>
    match best with
    | none => some p
    | some b => if queued p < queued b then some p else some b) none

/-- A record leaves on the port that is ready first. -/
def State.sendRecord (s : State) (n : Nat) (x : SentRec) : State :=
  match s.readyPort with
  | none => s
  | some p => ({ s with wc.sent := Table.put n { x with onWire := true } s.wc.sent }).sendRing (.mirror (some p) x.rcd)

/-- Records that wait for the window of 8,192 leave as acknowledgements come in (R165): none while no port is up, none after a result 2 (R166). -/
def State.pumpMirror (s : State) : State :=
  if s.wc.halted then s
  else
    have wire := s.wc.sent.countP fun e => e.2.onWire && !e.2.acked
    ((s.wc.sent.filter fun e => !e.2.onWire).take (8192 - wire)).foldl (fun s e => s.sendRecord e.1 e.2) s

/-- A record takes the next sequence and is sent (R163, R165). -/
def State.mirrorRecord (s : State) (r : MirRec) : Nat × State :=
  have n := s.wc.nextSeq
  have s := { s with
    wc.nextSeq := n + 1
    wc.sent := Table.put n { rcd := { r with seq := n }, onWire := false } s.wc.sent }
  (n, s.pumpMirror.noteMirror)

/-- A record is written into the own region, and mirrored where the mode mirrors; the answer lists the sequences to wait for
(R163, R171). -/
def State.queueRecord (s : State) (r : MirRec) : List Nat × State :=
  have g := s.ownSeg r.seg
  have r := { r with
    head := s.headB
    epoch := s.rd Reg.DDR_MIR_EPOCH.EPOCH
    time := s.ringTime
    gen := g.gen }
  if s.wc.mode.mirrors then
    let (n, s) := s.mirrorRecord r
    ([n], s.setOwn r.seg { g with fill := r.off + r.len, recs := g.recs ++ [{ r with seq := n }] })
  else ([], s.setOwn r.seg { g with fill := r.off + r.len, recs := g.recs ++ [r] })

/-! The commit point (R29, R119, R257) -/

/-- The bytes of a container in the own or an adopted mirror segment, by its place. -/
def State.cachedBytes (s : State) (loc : Loc) : Option Container :=
  match loc with
  | .cache head seg gen off _ =>
    have recs := if head = s.headB then (if (s.ownSeg seg).gen = gen then (s.ownSeg seg).recs else [])
      else
        have m := Table.get seg {} s.wc.mir
        if m.gen = gen then m.recs else []
    recs.findSome? fun r => match r.body with
      | .write _ cs => (cs.find? fun c => c.1 == off).map Prod.snd
      | _ => none
  | _ => none

/-- The new chunks of a committed write enter the index and, in an exact domain, the journal (R119). `journals` is false on the
peer. -/
def State.indexDelta (s : State) (domain : Nat) (delta : List Extent) (journals : Bool) : State :=
  delta.foldl (fun s e =>
    match e.fp with
    | none => s
    | some fp =>
      if e.noIndex then s
      else
        have s := s.insertIndex domain fp e.loc
        if journals && s.rd Reg.DDP_DOMAIN_CFG.MODE domain == 2 then s.appendJournal { domain := domain, fp := fp, loc := e.loc }
        else s) s

/-- The new containers of a delta are counted under their keys (R152). -/
def State.countDelta (s : State) (delta : List Extent) : State :=
  delta.foldl (fun s e =>
    if e.isNew then
      match s.cachedBytes e.loc with
      | some b =>
        have h := Header.parse b
        s.countStored { loc := e.loc, domain := h.domain, slot := h.slot, gen := h.gen, cut := h.cut, fp := if e.noIndex then none else e.fp }
      | none => s
    else s) s

/-- The delta of a write with the current places of its hits, which may have moved since their lookup (R202). -/
def State.currentDelta (s : State) (w : WriteJob) : List Extent :=
  have moved := w.chunks.filterMap fun k =>
    match k.state, k.pin with
    | .hit loc, some key => (s.pinned key).map fun (e : IndexEntry) => (loc, e.loc)
    | _, _ => none
  w.delta.map fun (e : Extent) =>
    match moved.find? fun m => m.1 == e.loc with
    | some m => { e with loc := m.2 }
    | none => e

/-- A delta is applied to a member's working tree at a target (R294). -/
def State.applyWork (s : State) (n k : Nat) (delta : List Extent) : State :=
  ((delta.foldl (fun s e =>
    have x := s.repSet n
    match Table.find k x.working with
    | none => s
    | some root =>
      let (root, s) := s.applyRoot s.headB root e
      s.setRep n { s.repSet n with working := Table.put k root (s.repSet n).working }) (s.holdRefs delta)).dropRefs delta).noteMap

/-- The delta of a command enters its tree, a member's working tree (R294) or the namespace's live tree, and whether it could: the update may have to
wait (R256, R262, R278). -/
def State.updateFor (s : State) (c : Cmd) (delta : List Extent) : Bool × State :=
  match c.work with
  | none => s.updateTree c.cap.nsid delta
  | some (n, k) =>
    have root := (Table.find k (s.repSet n).working).getD 0
    if !(s.on Reg.MAP_CTRL.EN) || (s.updateFault root delta).isSome then (false, s)
    else
      have t := State.applyWork { s with map.short := false } n k delta
      if t.map.short then (false, s) else (true, t)

/-- An update waits, for the page that it faults on, or for MAP_CTRL.EN, a page number or a slot (R256, R262, R278). -/
def State.deferUpdate (s : State) (t nsid : Nat) (delta : List Extent) : State :=
  match s.raiseUpdate nsid delta with
  | (some p, s) => { s with map.faults := s.map.faults ++ [(p, t)] }
  | (none, s) => { s with map.waiting := s.map.waiting ++ [t] }

/-- A command reaches its commit point (R29): its delta is applied to the live tree, its new chunks are indexed, its pins and
pending entries end, it joins its set's stream, and its success is set, at once or at the target's acknowledgement (R288). -/
def State.commitTag (s : State) (t : Nat) : State :=
  match s.tag t with
  | none => s
  | some c =>
    match c.write with
    | none => s
    | some w =>
      if w.committed then s
      else
        have before := s
        have s := s.modWrite t fun w => { w with committed := true }
        match c.change with
        | some op =>
          have s := match op with
            | .reservation .. => s
            | _ => (s.applyChange op).metaEvent op
          have dw0 := match op with
            | .snapCreate _ id _ _ => id
            | .clone _ _ target => target
            | _ => 0
          ((s.finish t { sct := 0, sc := 0, dw0 := dw0 }).settleFlush).noteTags
        | none =>
          have delta := s.currentDelta w
          let (done, s) := (s.countDelta delta).updateFor c delta
          if !done then before.deferUpdate t c.cap.nsid delta else
          have s := s.indexDelta c.tenant delta true
          have s := (s.unpinChunks w.chunks).dropPending t
          let (wait, s) := s.joinStream c.cap.nsid delta s.cachedBytes
          have s := match wait with
            | some (n, seq) =>
              have x : RepSet := s.repSet n
              if (x.state = SetState.synchronous ∨ x.state = SetState.stalled) ∧ c.discard = false then s.setRep n { x with waiting := x.waiting ++ [(t, seq)] }
              else s.finish t success
            | none => s.finish t success
          s.settleFlush.settleRep

/-! The hand-off (R163) -/

/-- Whether a chunk is decided (R163). -/
def Chunk.decided (k : Chunk) : Bool :=
  match k.state with
  | .zero | .hit _ | .stored _ _ => true
  | .waiting | .asked | .verifying _ => false

/-- The item of a decided chunk (R251, R252). -/
def Chunk.item (base : Nat) (k : Chunk) : RecItem :=
  have e : Extent := { addr := base + k.off, len := k.len, loc := .zero }
  match k.state with
  | .hit loc => ({ e with loc := loc }, none)
  | .stored c noIndex => ({ e with isNew := true, noIndex := noIndex, fp := k.fp }, some c)
  | .zero | .waiting | .asked | .verifying _ => (e, none)

/-- The bytes of a record of items (R163). -/
def itemsLen (items : List RecItem) : Nat :=
  recordLen (deltaUnits (items.map Prod.fst)) (items.filterMap fun i => i.2.map List.length)

/-- Items packed into records of at most 1 MiB, in order (R163). -/
def packItems : List RecItem → List RecItem → List (List RecItem)
  | [], cur => if cur.isEmpty then [] else [cur]
  | i :: r, cur =>
    if !cur.isEmpty && decide (1048576 < itemsLen (cur ++ [i])) then cur :: packItems r [i] else packItems r (cur ++ [i])

/-- The containers of a record with their offsets in the segment, each on a 64-byte boundary (R163). -/
def placeItems (head : Bool) (seg gen : Nat) : List RecItem → Nat → List (Extent × Option (Nat × Container))
  | [], _ => []
  | (e, none) :: r, at_ => (e, none) :: placeItems head seg gen r at_
  | (e, some c) :: r, at_ =>
    ({ e with loc := .cache head seg gen at_ c.length }, some (at_, c)) ::
      placeItems head seg gen r (at_ + (c.length + 63) / 64 * 64)

/-- The records of a write are built and queued one after another (R163): each takes its place in its lane's segment. The answer
is the delta and the sequences to wait for, or the lane that finds no Free segment. -/
def State.buildRecords (t nsid parts : Nat) :
    List (Nat × List RecItem) → Nat → State → Except (Nat × State) (List Extent × List Nat × State)
  | [], _, s => .ok ([], [], s)
  | (lane, items) :: r, k, s =>
    have len := itemsLen items
    match s.roomFor lane len with
    | (none, s') => .error (lane, s')
    | (some (n, opens), s') =>
      have g := s'.ownSeg n
      have start := g.fill + 64 + (deltaUnits (items.map Prod.fst) * 32 + 63) / 64 * 64
      have placed := placeItems s'.headB n g.gen items start
      have r0 : MirRec := { opened := opens, head := s'.headB, epoch := 0, seq := 0, seg := n, gen := g.gen, off := g.fill, len := len,
                            tag := t, nsid := nsid, part := k, parts := parts,
                            body := .write (placed.map Prod.fst) (placed.filterMap Prod.snd) }
      let (seqs, s'') := s'.queueRecord r0
      match State.buildRecords t nsid parts r (k + 1) s'' with
      | .error x => .error x
      | .ok (d, q, z) => .ok (placed.map Prod.fst ++ d, seqs ++ q, z)

/-- A lane finds no Free segment at the hand-off (R162): it holds its container and stalls. Its open segment has become Full. -/
def State.stall (s : State) (t lane : Nat) : State :=
  have first := match s.tag t with
    | some c => !(c.write.any fun (w : WriteJob) => w.stalled.isSome)
    | none => false
  have s := match s.openSeg lane with
    | some (n, g) => s.setOwn n { g with state := .full, fullAt := s.clock }
    | none => s
  have s := if first then s.bump Reg.DDR_WC_STALL.COUNT else s
  ({ s with wc.stalled := if s.wc.stalled.contains lane then s.wc.stalled else s.wc.stalled ++ [lane] }).modWrite t fun w =>
    { w with stalled := some lane }

/-- Whether a change is refused at its hand-off: an initiator's where the mode is Off or Solo and UNMIRRORED is 1 (R171), any in Destage, which
takes no new writes (R170). -/
def State.bars (s : State) (t : Nat) : Bool :=
  s.wc.mode == .destage || s.refusesWrites && (s.tag t).any fun (c : Cmd) => c.cls != .internal

/-- The segments that an attempt to queue records has found without room before it came to a lane without a Free segment (R161): they were open,
and the attempt left them Full with nothing added. -/
def State.closedBy (s s' : State) : List Nat :=
  (s.wc.own.filter fun e => e.2.state == .opened && (s'.ownSeg e.1).state == .full && (s'.ownSeg e.1).fill == e.2.fill).map Prod.fst

/-- Segments become Full. -/
def State.fillSegs (s : State) (ns : List Nat) : State :=
  ns.foldl (fun s n => s.setOwn n { s.ownSeg n with state := .full, fullAt := s.clock }) s

/-- The records of a write or metadata change are queued: its point of no return (R90, R163). No record of it is queued where a
lane finds no room; none where it would not be mirrored and must be (R171). -/
def State.queueItems (s : State) (t nsid : Nat) (lanes : List (Nat × List RecItem)) : State :=
  if s.bars t then s.cancelWith t (vendor 0xE3) else
  match State.buildRecords t nsid lanes.length lanes 0 s with
  | .error (lane, s') => (s.fillSegs (s.closedBy s')).stall t lane
  | .ok (delta, seqs, s) =>
    have s := s.modWrite t fun w => { w with
      delta := delta
      queued := true
      stalled := none
      unacked := seqs
      time := s.ringTime }
    s.modTag t fun c => { c with state := .pastReturn }

/-- The write of a tag is handed off once every byte has come and every chunk is decided (R163). -/
def State.tryHandOff (s : State) (t : Nat) : State :=
  match s.tag t with
  | none => s
  | some c =>
    match c.write with
    | none => s
    | some w =>
      if c.state == .running && c.status.isNone && !w.queued && c.change.isNone && s.wc.mode != .destage &&
          (w.segs.all fun g => g.got == g.len) && (w.chunks.all Chunk.decided) then
        have sorted := w.chunks.mergeSort fun a b => decide (a.off ≤ b.off)
        have lanes := w.segs.flatMap fun g =>
          have mine := sorted.filter fun k => decide (g.off ≤ k.off ∧ k.off < g.off + g.len)
          (packItems (mine.map (Chunk.item (c.cap.slba * 4096))) []).map fun p => (g.lane, p)
        s.queueItems t c.cap.nsid lanes
      else s

/-- The segments of a write that wait become streams as far as their lanes take them (R112), and the write is handed off where it is
complete. -/
def State.pumpTag (s : State) (t : Nat) : State :=
  match (s.tag t).bind Cmd.write with
  | none => s
  | some w => (w.segs.foldl (fun s g => (s.startSeg t g.off).takeIn t g.off) s).tryHandOff t

/-- Every write with a segment that waits for a stream, or with bytes that its lane has yet to take in, goes on (R112), by tag number (DESIGN
CHOICE, log entry 94: no rule says which of the waiting segments is first); jobs take what streams are left (R147, R148). -/
def State.pumpLanes (s : State) : State :=
  State.startJobs <| (s.cmd.tags.filter fun e => e.2.cls != .forwardedIn && e.2.write.any fun w => !w.queued && w.segs.any fun g =>
      !g.wait && decide (g.got < g.len) && (!g.begun || !g.staged.isEmpty)).foldl (fun s e => s.pumpTag e.1) s

/-- The in-capsule data of a forwarded write is cut here as well, once the owner has taken the command (R361, R363). -/
def State.feedInCapsule (s : State) (t : Nat) : State :=
  match s.tag t with
  | none => s
  | some c =>
    if c.cap.sgl == .inCapsule && c.state == .forwarded then
      (s.modWrite t fun w => { w with segs := w.segs.map fun (g : Segment) => { g with wait := false } }).pumpTag t
    else s

/-- A change without data is handed off (R163): the extents of a Write Zeroes or a deallocation. -/
def State.handOffExtents (s : State) (t nsid : Nat) (es : List Extent) : State :=
  have s := s.modTag t fun c => { c with write := some { delta := es } }
  s.queueItems t nsid ((packItems (es.map fun e => (e, none)) []).map fun p => (metaLane, p))

/-- A metadata change is queued as a record of type 2 (R163, R270): 64 bytes of header and a root change of 128. It is the point of no return but
for a reservation change of an initiator (R90). -/
def State.queueMeta (s : State) (t nsid : Nat) (op : MetaOp) : State :=
  have op := match op with
    | .reservation n (.set _) => .reservation n (.set (s.resvDue n))
    | o => o
  have stays := match op with
    | .reservation .. => (s.tag t).any fun (c : Cmd) => c.cls != TagClass.internal
    | _ => false
  if s.bars t then (s.modTag t fun c => { c with change := some op }).cancelWith t (vendor 0xE3) else
  match s.roomFor metaLane 192 with
  | (none, _) => (s.modTag t fun c => { c with write := some {}, change := some op }).stall t metaLane
  | (some (n, opens), s') =>
    let (op, s') := s'.withTree op none
    have g := s'.ownSeg n
    have r : MirRec := { opened := opens, head := s'.headB, epoch := 0, seq := 0, seg := n, gen := g.gen, off := g.fill, len := 192, tag := t,
                         nsid := nsid, body := .metadata [{ op := op, entry := s'.rowAfter op }] }
    let (seqs, s'') := s'.queueRecord r
    have s'' := { s'' with cmd.order := s''.cmd.order + 1 }
    s''.modTag t fun c => { c with
      state := if stays then .running else .pastReturn
      resvAt := s''.cmd.order
      change := some op
      write := some { queued := true, unacked := seqs, time := s''.ringTime } }

/-- A stalled lane resumes its hand-off (R162): the writes that stalled there try again, in tag order. -/
def State.resumeLane (s : State) (lane : Nat) : State :=
  have hit := (s.cmd.tags.filter fun e => e.2.write.any fun w => w.stalled == some lane && !w.queued).map Prod.fst
  have s := { s with wc.stalled := s.wc.stalled.filter fun l => l != lane }
  hit.foldl (fun s t =>
    match s.tag t with
    | none => s
    | some c =>
      match c.change with
      | some op => if c.state = .running then s.queueMeta t c.cap.nsid op else s
      | none =>
        match c.write with
        | some w =>
          if c.state = .running ∧ w.segs.isEmpty ∧ c.status.isNone then s.handOffExtents t c.cap.nsid w.delta else s.tryHandOff t
        | none => s) s

/-- The mirror mode changes (R170): event 0x80C2 with the old mode and the new. No change leads out of Destage: the part never resumes service
from it (R178), and only a reset ends it. -/
def State.setMode (s : State) (m : MirMode) : State :=
  if s.wc.mode = m ∨ s.wc.mode = .destage then s
  else (({ s with wc.mode := m }).wr Reg.DDR_MIR_STATE.MODE m.code).event 0x80C2 [byteOf s.wc.mode.code, byteOf m.code]

/-- Every write whose records wait for an acknowledgement commits (R171). -/
def State.commitWaiting (s : State) : State :=
  have hit := (s.cmd.tags.filter fun e => e.2.write.any fun w => w.queued && !w.committed).map Prod.fst
  hit.foldl (fun s t => (s.modWrite t fun w => { w with unacked := [] }).commitTag t) s

/-- A segment returns to Free (R161); its generation is kept. -/
def State.emptySeg (s : State) (n : Nat) : State :=
  have g := s.ownSeg n
  have gone := g.recs.map MirRec.seq
  ({ s with
    wc.sent := s.wc.sent.filter fun e => !(e.2.acked && gone.contains e.1)
    map.referrers := Table.drop (3 * n + if s.headB then 2 else 1) s.map.referrers }).setOwn n { gen := g.gen }

/-- Whether a container in a segment still needs its place there: something refers to it or pins it, and it does not stand in a
complete signature. -/
def State.needsPlace (s : State) (done : List Nat) (loc : Loc) : Bool :=
  match loc with
  | .cache _ _ _ off _ => !(done.contains off) && (decide (0 < s.refCount loc) || s.pinnedLoc loc)
  | _ => false

/-- The places of a segment's containers. -/
def recLocs (head : Bool) (seg gen : Nat) (recs : List MirRec) : List Loc :=
  recs.flatMap fun r => match r.body with
    | .write _ cs => cs.map fun c => .cache head seg gen c.1 c.2.length
    | _ => []

/-- Whether any write with records in a segment has yet to commit. -/
def State.segBusy (s : State) (recs : List MirRec) : Bool :=
  recs.any fun r => s.cmd.tags.any fun t => t.1 == r.tag && t.2.write.any fun w => w.queued && !w.committed

/-- A destaging segment whose destage is complete is released (R161, R165): with a release record where the mode mirrors and
every record in it is acknowledged, at once otherwise. -/
def State.settleSegment (s : State) (n : Nat) : State :=
  have g := s.ownSeg n
  if g.state = .destaging then
    have left := (recLocs s.headB n g.gen g.recs).any fun l => s.needsPlace g.done l
    have waits := g.recs.any fun r => (Table.find r.seq s.wc.sent).any fun x => !x.acked
    if left || s.segBusy g.recs || s.walkOpen (3 * n + if s.headB then 2 else 1) then s
    else if s.wc.mode.mirrors then
      if waits then s
      else
        have r : MirRec := { head := s.headB, epoch := s.rd Reg.DDR_MIR_EPOCH.EPOCH, seq := 0, seg := n, gen := g.gen, off := 0,
                             len := 64, time := s.ringTime, body := .release }
        let (_, s) := s.mirrorRecord r
        s.setOwn n { g with state := .released }
    else s.emptySeg n
  else s

/-- Every destaging segment is looked at, and the adopted ones that are done are dropped (R161, R173). -/
def State.settleSegments (s : State) : State :=
  have s := (s.wc.own.map Prod.fst).foldl State.settleSegment s
  have done := s.wc.mir.filter fun e => e.2.adopted && !((recLocs (!s.headB) e.1 e.2.gen e.2.recs).any fun l => s.needsPlace e.2.done l)
  (done.foldl (fun s e =>
    { s with wc.mir := Table.put e.1 { e.2 with held := false, adopted := false, recs := [], done := [] } s.wc.mir }) s).noteDirty

/-- The tag that a request to the peer carries when no command asks (R140, R177): one beyond the tags (DESIGN CHOICE, log entry 100). -/
def mirrorTag : Nat := 131072

/-- The containers of the write that holds a container of an own segment (R177). -/
def State.writeOf (s : State) (loc : Loc) : List Loc :=
  have all := s.wc.own.flatMap fun e => e.2.recs.map fun r => (r, recLocs s.headB e.1 e.2.gen [r])
  match all.find? fun x => x.2.contains loc with
  | none => [loc]
  | some x => (all.filter fun y => y.1.tag == x.1.tag && y.1.time == x.1.time && y.1.nsid == x.1.nsid && y.1.parts == x.1.parts).flatMap Prod.snd

/-- A container that no copy replaces (R177, R509): in service it is lost alone; in Destage the whole write that holds it is. Event 0x90C6 tells
the outcome. -/
def State.loseWrite (s : State) (loc : Loc) : State :=
  have s := if s.wc.mode = .destage then
      ((s.writeOf loc).filter fun l => l != loc).foldl (fun s l => s.loseCached l (s.domainOf l)) s
    else s
  (s.loseCached loc (s.domainOf loc)).event1 0x90C6 1

/-- The peer's copy of a container comes, or none does (R177, R509): it is sewn from the copy, or lost. In Destage the outcome is recorded
either way. -/
def State.settleAsk (s : State) (id : Nat) (copy : Option Container) : State :=
  match Table.find id s.wc.asks with
  | none => s
  | some loc =>
    have s := { s with wc.asks := Table.drop id s.wc.asks }
    match copy with
    | none => s.loseWrite loc
    | some b =>
      have s := { s with wc.fetched := s.wc.fetched ++ [(loc, b)] }
      if s.wc.mode = .destage then s.event1 0x90C6 0 else s

/-- The requests to the peer for containers that cannot be read here end without an answer (R177, R509): those containers are lost. -/
def State.dropAsks (s : State) : State :=
  s.wc.asks.foldl (fun s e => s.settleAsk e.1 none) s

/-- Solo is entered (R161, R171): waiting writes commit, Released segments return to Free, and so do those whose destage is complete. What
the peer was asked for does not come (R509). -/
def State.enterSolo (s : State) : State :=
  have s := (s.setMode .solo).commitWaiting
  have released := (s.wc.own.filter fun e => e.2.state == .released).map Prod.fst
  have s := released.foldl State.emptySeg s
  (State.dropAsks { s with wc.sent := [], wc.copies := [] }).settleSegments

/-- A write that is lost with its place (R181, R466): event 0x90C3 with its NSID and the LBA range of its records. -/
def State.reportLost (s : State) (recs : List MirRec) : State :=
  have delta := recs.flatMap fun r => match r.body with
    | .write d _ => d
    | .metadata _ | .release => []
  have lo := (delta.map fun (x : Extent) => x.addr).foldl min (delta.headD { addr := 0, len := 0, loc := .zero }).addr
  have hi := (delta.map fun (x : Extent) => x.addr + x.len).foldl max lo
  have nsid := match recs.head? with
    | some r => r.nsid
    | none => 0
  s.event 0x90C3 (le 4 nsid ++ le 8 (lo / 4096) ++ le 4 ((hi + 4095) / 4096 - lo / 4096))

/-- Writes whose containers are lost (R181, R466): each record with the places that it loses. Each write with one is reported lost, once, and
the places are marked lost. -/
def State.loseRecords (s : State) (all : List (MirRec × List Loc)) : State :=
  have name (r : MirRec) : Nat × Nat × Nat := (r.tag, r.time, r.nsid)
  have lost := ((all.filter fun x => !x.2.isEmpty).map fun x => name x.1).dedup
  have s := lost.foldl (fun s k => s.reportLost ((all.filter fun x => name x.1 == k).map Prod.fst)) s
  (all.flatMap Prod.snd).foldl (fun s l => s.rewriteLoc l l.toLost) s

end Sys2Proof.Machine
end

