-- ==== Sys2Proof/Machine/ReadCore.lean ====
section
/-!
DEFINITION. Machine/ReadCore.lean: the read path as the meanings share it: decoding a container, leaf commands, gathering a
container from the leaves, degraded reads, and the pieces of a read (chapters 05, 07 and 08).
-/
namespace Sys2Proof.Machine
open Sys2Proof

/-! Decoding a container (R132 to R139) -/

/-- Why a container cannot be decoded: it is damaged (R139), or its key cannot serve (R153, R508). -/
inductive DecodeErr where
  | damage (code : Nat)
  | key (code : Nat)
  deriving DecidableEq, Repr

/-- The generation that a container names, in its slot. -/
def State.keyGen (s : State) (slot gen : Nat) : Option KeyGen :=
  match Table.find slot s.keys.cipher with
  | none => none
  | some k => if k.damaged then none else (k.cur.toList ++ k.prev.toList).find? fun g => g.gen == gen

/-- The original bytes of a container (R133, R138, R139), or the first error: header, key, payload, length, CRC32C. -/
def State.decodeContainer (s : State) (domain size : Nat) (b : Container) : Except DecodeErr (List Byte) :=
  have h := Header.parse b
  if b.length < size then .error (.damage 0x310B)
  else if !(headerGood b domain size) then .error (.damage 0x3105)
  else
    match s.keyGen h.slot h.gen with
    | none => .error (.key 0x3207)
    | some g =>
      match g.type with
      | .xts256 =>
        have clear := (xts true g.key (tweak (b.take 32)) (b.drop 32)).take h.payload
        have out : Except Nat (List Byte) :=
          if h.alg = 0 then .ok clear else decompress (if h.alg = 1 then 0 else 3) h.orig true clear
        match out with
        | .error c => .error (.damage c)
        | .ok o =>
          if crc32c o ≠ h.crc then .error (.damage 0x3104)
          else .ok o
      | _ => .error (.key 0x3208)

/-- A decode that failed under R139 is counted (R158). -/
def State.countDecode (s : State) (code : Nat) : State :=
  (s.bump Reg.BND_DECOMP_ERR.COUNT).wr Reg.BND_DECOMP_ERR.LAST (code % 256)

/-! Leaf commands (R233, R234) -/

/-- A leaf as this head knows it. -/
def State.leaf (s : State) (l : Nat) : Leaf := Table.get l {} s.lfl.leaves

/-- The state with a leaf put in place. -/
def State.putLeaf (s : State) (l : Nat) (x : Leaf) : State := { s with lfl.leaves := Table.put l x s.lfl.leaves }

/-- Whether a row of the table ends a command: grants, plans, trims and full erases have none, and count as accepted at the tick after they
were sent (DESIGN CHOICE, log entry 119). -/
def LeafFor.answered : LeafFor → Bool
  | .grant _ _ | .plan _ _ | .trim | .wipe => false
  | _ => true

/-- Whether a command takes one of a leaf's 256 tags (R234): a proxied read is the peer's, and an enumeration goes to every leaf. -/
def LeafFor.takesTag : LeafFor → Bool
  | .proxied _ | .enumerate => false
  | _ => true

/-- Whether a command waits to be sent on the leaf link. -/
def LeafOp.waits (op : LeafOp) : Bool :=
  op.tag.isNone && match op.for_ with
    | .proxied _ => false
    | _ => true

/-- The commands outstanding at a leaf that hold a tag. -/
def State.leafTags (s : State) (l : Nat) : List Nat :=
  (s.lfl.ops.filter fun e => e.2.leaf == l && e.2.for_.takesTag).filterMap fun e => e.2.tag

/-- Commands outstanding at a leaf. -/
def State.leafBusy (s : State) (l : Nat) : Nat := (s.leafTags l).length

/-- The lowest tag index that is free at a leaf (R223, R234). -/
def State.freeLeafTag (s : State) (l : Nat) : Nat := ((List.range 256).find? fun k => !((s.leafTags l).contains k)).getD 0

/-- Folio bytes or a log page as they go to a leaf (R237): each 4,096 bytes are a codeword with 256 bytes of parity. -/
def codewords (b : List Byte) : List Byte :=
  (groupsOf 4096 (b.length + 1) b).flatMap fun c => c ++ (List.range 256).map (Config.ldpcParity c)

/-- The flits of a command to a leaf (R223, R233): a control flit and its data flits of 128 bytes. -/
def leafFlits (bytes : List Byte) : Nat := 1 + ((codewords bytes).length + 127) / 128

/-- Whether a command may leave for a leaf now: fewer than 256 are outstanding there (R234), and the first hop holds credit on the request channel
for all its flits, of 2,048 (R224). -/
def State.leafReady (s : State) (l : Nat) (bytes : List Byte) : Bool :=
  decide (s.leafBusy l < 256) && decide (Table.get (l / 16) 0 s.lfl.flits + leafFlits bytes ≤ 2048)

/-- A command takes its tag, and its flits go out on its lane. -/
def State.sendOp (s : State) (id : Nat) (op : LeafOp) : State :=
  have tag := if op.for_.takesTag then s.freeLeafTag op.leaf else 0
  ({ s with
    lfl.ops := Table.put id { op with tag := some tag } s.lfl.ops
    lfl.flits := Table.upd (op.leaf / 16) 0 (fun n => n + leafFlits op.bytes) s.lfl.flits }).send
    (.leaf (op.leaf / 16) (commandFlit op.leaf tag op.cmd op.params (codewords op.bytes)) (codewords op.bytes))

/-- A command goes to a leaf, or waits its turn. -/
def State.leafOp (s : State) (l : Nat) (f : LeafFor) (cmd : LeafCmd) (params : List Byte) (bytes : List Byte := []) : State :=
  have id := s.lfl.nextId
  have go := s.leafReady l bytes && !(s.lfl.ops.any fun e => e.2.leaf == l && e.2.waits)
  have op : LeafOp := { leaf := l, for_ := f, cmd := cmd, params := params, bytes := bytes }
  have s := { s with
    lfl.ops := Table.put id op s.lfl.ops
    lfl.nextId := id + 1 }
  if go then s.sendOp id op else s

/-- The oldest command that waits for a leaf is sent, if it may be. -/
def State.sendNext (s : State) (l : Nat) : State :=
  match s.lfl.ops.find? fun e => e.2.leaf == l && e.2.waits with
  | none => s
  | some e => if s.leafReady l e.2.bytes then s.sendOp e.1 e.2 else s

/-- A leaf command has ended: the oldest that waits for the leaf is sent. -/
def State.endLeafOp (s : State) (id : Nat) : State :=
  match Table.find id s.lfl.ops with
  | none => s
  | some op => ({ s with lfl.ops := Table.drop id s.lfl.ops }).sendNext op.leaf

/-- The blocks of a leaf that are known to be granted are changed. -/
def State.setBlocks (s : State) (l : Nat) (b : Table Bool) : State := s.putLeaf l { s.leaf l with blocks := b }

/-- A leaf has accepted a command that no row answers: a block claimed is this head's, one given is the peer's, which hears of it (R197), and TAKE
makes every block this head's (R231); a plan is the die's (R241, R243, event 0x5812). -/
def State.acceptOp (s : State) (op : LeafOp) : State :=
  match op.for_ with
  | .grant 0 b => s.setBlocks op.leaf (Table.put b true (s.leaf op.leaf).blocks)
  | .grant 1 b => s.sendRing (.ring 0x52 [op.leaf, b] [])
  | .grant _ _ => s.setBlocks op.leaf (Table.mapVals (fun _ _ => true) (s.leaf op.leaf).blocks)
  | .plan die p =>
    have l := s.leaf op.leaf
    have s := s.putLeaf op.leaf { l with dies := Table.upd die {} (fun (d : Die) => { d with plan := p }) l.dies }
    (s.bump Reg.LFL_PLAN_STAT.PLANS).event 0x5812 (le 4 op.leaf ++ le 4 die)
  | _ => s

/-- Time passes on the leaf lanes (R224): commands that no row answers have been accepted, the leaves give their credits back, and what waits for
them goes on. -/
def State.pumpLeaves (s : State) : State :=
  have taken := s.lfl.ops.filter fun e => e.2.tag.isSome && !e.2.for_.answered
  have s := taken.foldl (fun s e => ({ s with lfl.ops := Table.drop e.1 s.lfl.ops }).acceptOp e.2) s
  have waits := s.lfl.ops.filter fun e => e.2.waits
  waits.foldl (fun s e => s.sendNext e.2.leaf) { s with lfl.flits := [] }

/-! Members of a signature (R189, R203, R244) -/

/-- How a member's folio can be read (R203, R244): at the leaf, through the peer, or not at all. -/
inductive Reach where
  | direct | peer | missing
  deriving DecidableEq, Repr

/-- The die of an erase unit (R229). -/
def Leaf.dieOf (l : Leaf) (unit : Nat) : Nat :=
  match l.id with
  | some i => if i.unitsPerDie = 0 then 0 else unit / i.unitsPerDie
  | none => 0

/-- How an erase unit of a leaf can be read. A slot whose leaf was readmitted blank (R205) names no leaf; a
miscabled leaf is not used (R230). -/
def State.reach (s : State) (leaf unit : Nat) : Reach :=
  have l := s.leaf leaf
  if 512 ≤ leaf || s.on Reg.LFL_LEAF.MISCABLED leaf then .missing
  else if (Table.find (l.dieOf unit) l.dies).any fun (d : Die) => d.retired then .missing
  else
    match l.cond with
    | .present | .draining => .direct
    | .oneSided => .peer
    | .absent | .failed => .missing

/-- The leaf and unit of a member of a signature (R189). -/
def Quire.place (q : Quire) (sig member : Nat) : Nat × Nat := q.slots.getD ((member + sig) % max q.width 1) (0, 0)

/-- The data members of a quire's signatures (R184). -/
def Quire.data (q : Quire) : Nat := q.width - q.parity

/-- A quire. -/
def State.quire (s : State) (n : Nat) : Option Quire := Table.find n s.sig.quires

/-- The state with a quire put in place. -/
def State.setQuire (s : State) (n : Nat) (q : Quire) : State := { s with sig.quires := Table.put n q s.sig.quires }

/-! Reads of codewords (R206, R233) -/

/-- The trial that read `k` of a valley search makes (R243): a threshold, and its base or two DAC steps to either side of it, in turn. -/
def valleyTrial (thresholds k : Nat) : Nat × Int := (k / 3 % max thresholds 1, if k % 3 = 0 then -2 else if k % 3 = 1 then 0 else 2)

/-- The thresholds of a leaf's cells (R240). -/
def Leaf.thresholds (l : Leaf) : Nat :=
  match l.id with
  | some i => 2 ^ i.bits - 1
  | none => 7

/-- Whether a read serves patrol. -/
def ReadUse.isPatrol : ReadUse → Bool
  | .patrol _ _ _ => true
  | _ => false

/-- A first read of a die in a valley search makes the next trial (R243), while VALLEY_EN is set: a patrol read where patrol has any. How the leaf
learns the trial's offset the spec does not say; the model keeps the trial with the read (DESIGN CHOICE, log entry 121). -/
def State.trialRead (s : State) (r : LeafRead) : LeafRead × State :=
  have l := s.leaf r.leaf
  match Table.find (l.dieOf r.unit) l.dies with
  | none => (r, s)
  | some d =>
    if 0 < d.valley ∧ s.on Reg.LFL_CTRL.VALLEY_EN = true ∧ r.step = 0 ∧ r.reread = false ∧ (r.use.isPatrol || !(s.on Reg.SIG_CTRL.PATROL_EN)) = true then
      ({ r with trial := some (valleyTrial l.thresholds (64 - d.valley)) },
        s.putLeaf r.leaf { l with dies := Table.put (l.dieOf r.unit) { d with valley := d.valley - 1 } l.dies })
    else (r, s)

/-- The parameter bytes of READ and READ_SOFT (R233). -/
def LeafRead.params (r : LeafRead) : List Byte :=
  le 4 r.unit ++ le 2 r.folio ++ [byteOf r.first, byteOf r.count, byteOf (if r.step = 9 then r.best.2 else r.step)]

/-- A read of codewords is sent to its leaf, or to the peer for a leaf that only the peer reaches (R203). -/
def State.sendRead (s : State) (r : LeafRead) : State :=
  match s.reach r.leaf r.unit with
  | .direct =>
    have cmd : LeafCmd := if r.step = 9 then .readSoft else .read
    let (r, s) := s.trialRead r
    s.leafOp r.leaf (.read r) cmd r.params
  | .peer =>
    have id := s.lfl.nextId
    have op : LeafOp := { leaf := r.leaf, for_ := .proxied r, cmd := .read }
    ({ s with
      lfl.ops := Table.put id op s.lfl.ops
      lfl.nextId := id + 1 }).sendRing (.ring 0x50 [id, r.leaf, r.unit, r.folio, r.first, r.count] [])
  | .missing => s

/-- The members that can stand in for one of a signature, in order: data members, then P, Q and R (R206). -/
def State.standIns (s : State) (q : Quire) (sig member : Nat) : List Nat :=
  (List.range q.width).filter fun m => m != member &&
    match s.reach (q.place sig m).1 (q.place sig m).2 with
    | .missing => false
    | .direct | .peer => true

/-- The read of a member's codeword for a degraded read. -/
def degradedRead (q : Quire) (quire id : Nat) (want : LeafRead) (m : Nat) : LeafRead :=
  have p := q.place want.folio m
  { leaf := p.1, unit := p.2, folio := want.folio, first := want.first, count := 1, use := .degraded id m, quire := quire, member := m,
    len := 4096 }

/-! The end of a gathered container -/

/-- The state with a piece of a tag's read changed. -/
def State.modPiece (s : State) (t k : Nat) (f : ReadPiece → ReadPiece) : State :=
  s.modTag t fun c => { c with pieces := c.pieces.zipIdx.map fun p => if p.2 = k then f p.1 else p.1 }

/-- A read before its point of no return, or past it, ends with a status (R30). -/
def State.failRead (s : State) (t : Nat) (st : NvmeStatus) : State := s.finish t st

/-- The span that a tile of a run works on (R315). -/
def State.spanOf (s : State) (run tile : Nat) : Option Span :=
  (Table.find run s.prg.runs).bind fun r => r.spans.find? fun p => p.tile == tile && !p.ended

/-- The state with the span that a tile of a run works on changed. -/
def State.modSpan (s : State) (run tile : Nat) (f : Span → Span) : State :=
  match Table.find run s.prg.runs with
  | none => s
  | some r =>
    match r.spans.findIdx? fun p => p.tile == tile && !p.ended with
    | none => s
    | some i => { s with prg.runs := Table.put run { r with spans := r.spans.modify i f } s.prg.runs }

/-- The container of a span's piece has come, or could not be had; one that the span does not wait for is dropped. -/
def State.deliverSpan (s : State) (run tile : Nat) (loc : Loc) (copy : Option Container) (lost : Bool) : State :=
  if (s.spanOf run tile).any fun p => p.loc == some loc && p.copy.isNone then
    s.modSpan run tile fun p => { p with copy := some copy, lost := lost }
  else s

/-- A stored copy comes for a use, or does not come (none). A piece of a forwarded-in command goes to the receiving head as it is
(R364). Internal work has its tag free again (R77). -/
def State.deliverCopy (s : State) (u : GatherFor) (loc : Loc) (copy : Option Container) : State :=
  match u with
  | .piece t k => s.modPiece t k fun p => { p with copy := some copy }
  | .verify t off => s.modChunk t off fun k => { k with copy := some copy }
  | .collect pool =>
    match copy with
    | none => s.dropJob (.fetch u loc)
    | some b => ({ s with sig.staged := Table.upd pool [] (fun l => l ++ [(loc, b)]) s.sig.staged }).dropJob (.fetch u loc)
  | .remote pair t k => (s.sendRing (.ring 0x43 [pair, t, k, if copy.isSome then 1 else 0] (copy.getD []))).dropJob (.fetch u loc)
  | .rekey =>
    match copy with
    | none => s.dropJob (.fetch u loc)
    | some b => ({ s with keys.rekeyed := s.keys.rekeyed ++ [(loc, b)] }).dropJob (.fetch u loc)
  | .ship n job k => (s.dropJob (.fetch u loc)).shipUnit n job k copy
  | .span run tile => s.deliverSpan run tile loc copy false

/-- A gathered container is whole, or more comes (R188). Each part is taken once. -/
def State.gatherPart (s : State) (id start : Nat) (bytes : List Byte) : State :=
  match Table.find id s.lfl.gathers with
  | none => s
  | some g =>
    if g.parts.any fun p => p.1 == start then s
    else
      have parts := g.parts ++ [(start, bytes)]
      if (parts.map fun p => p.2.length).sum < g.loc.size then
        { s with lfl.gathers := Table.put id { g with parts := parts } s.lfl.gathers }
      else
        have whole := (parts.mergeSort fun a b => decide (a.1 ≤ b.1)).flatMap Prod.snd
        ({ s with lfl.gathers := Table.drop id s.lfl.gathers }).deliverCopy g.for_ g.loc (some whole)

/-- A container that parity cannot rebuild is lost (R206, R211). Where it was to be decoded, for a read, a run or a re-key sweep, R139 reports
and counts it as 0x310B; a verify does so when it compares. What waited for it learns so: a read ends with Unrecovered Read Error. -/
def State.gatherLost (s : State) (id : Nat) : State :=
  match Table.find id s.lfl.gathers with
  | none => s
  | some g =>
    have s := { s with lfl.gathers := Table.drop id s.lfl.gathers }
    have domain := s.domainOf g.loc
    have s' := (s.countDecode 0x310B).event1 0x310B domain
    have second := match g.for_ with
      | .piece t k => (s.tag t).any fun (c : Cmd) => (c.pieces[k]?).any fun (p : ReadPiece) => p.second.isSome
      | .span run tile => (s.spanOf run tile).any fun (p : Span) => p.second.isSome
      | _ => false
    if second then s.deliverCopy g.for_ g.loc none
    else
      match g.for_ with
      | .piece t _ => (s'.loseContainer g.loc domain).failRead t (media 0x81)
      | .span run tile => (s'.loseContainer g.loc domain).deliverSpan run tile g.loc none true
      | .rekey => (s'.loseContainer g.loc domain).deliverCopy g.for_ g.loc none
      | _ => (s.loseContainer g.loc domain).deliverCopy g.for_ g.loc none

/-- A trailer has been read, or cannot be (R196). -/
def State.noteTrailer (s : State) (quire sig member : Nat) (word : Option (List Byte)) : State :=
  have note (c : TrailerCheck) : TrailerCheck :=
    if c.entry.quire = quire ∧ c.entry.sig = sig then
      if word.any fun w => trailerMatches c.entry member w then
        if c.good.contains member then c else { c with good := member :: c.good }
      else { c with bad := true }
    else c
  { s with sig.checks := s.sig.checks.map note }

/-- A codeword of a signature that patrol reads has come, or cannot be read (R213). -/
def State.notePatrol (s : State) (quire sig member word : Nat) (bytes : Option (List Byte)) : State :=
  have note (p : Patrol) : Patrol :=
    if p.quire = quire ∧ p.sig = sig then
      match bytes with
      | some b => if p.got.any fun g => g.1 == member && g.2.1 == word then p else { p with got := (member, word, b) :: p.got }
      | none => if p.bad.contains (member, word) then p else { p with bad := (member, word) :: p.bad }
    else p
  { s with sig.patrols := s.sig.patrols.map note }

/-- Whether a container is live (R199): a map or index entry still references it, or it is the image of a map page (R255). -/
def State.liveLoc (s : State) (l : Loc) : Bool := decide (0 < s.refCount l) || s.pinnedLoc l || s.isImage l

/-- Whether a container of a signature overlaps a codeword of one of its data members (R206). -/
def Loc.overlaps (l : Loc) (quire sig word : Nat) (members : List Nat) : Bool :=
  match l with
  | .flash _ q g mem off size => q == quire && g == sig && members.any fun m =>
      decide (m * folioPayload + 4096 * word < streamPos mem off + size ∧ streamPos mem off < m * folioPayload + min folioPayload (4096 * word + 4096))
  | .unmapped | .zero | .cache .. | .remote .. | .lost .. | .image _ => false

/-- The bytes of a codeword of some data members cannot be rebuilt (R206): every live container that overlaps them is lost, but one that its own
read loses. -/
def State.loseWord (s : State) (q : Quire) (quire sig word : Nat) (members : List Nat) (but : Option Loc) : State :=
  have data := members.filter fun m => decide (m < q.data)
  (q.held.filter fun l => l.overlaps quire sig word data && some l != but && s.liveLoc l).foldl (fun s l => s.loseContainer l (s.domainOf l)) s

/-- A member's part reaches what it serves. A degraded read with D members in is reconstructed (R190, R206). What a read that was overtaken brings
is discarded (R207, R239). -/
def State.deliverWord (s : State) (r : LeafRead) (word : Nat) (bytes : List Byte) : State :=
  if r.overtaken then s else
  have lo := max r.off (4096 * word)
  have hi := min (r.off + r.len) (4096 * word + 4096)
  have part := slice bytes (lo - 4096 * word) (hi - lo)
  match r.use with
  | .gather id => if lo < hi then s.gatherPart id (r.start + (lo - r.off)) part else s
  | .proxy id => s.sendRing (.ring 0x50 [id, word, 1] bytes)
  | .trailer q g m => s.noteTrailer q g m (some bytes)
  | .patrol q g m => s.notePatrol q g m word (some bytes)
  | .visit => s
  | .degraded id m =>
    match Table.find id s.lfl.degraded with
    | none => s
    | some d =>
      have got := d.got ++ [(m, bytes)]
      match s.quire d.want.quire with
      | none => s
      | some q =>
        if got.length < q.data then { s with lfl.degraded := Table.put id { d with got := got } s.lfl.degraded }
        else
          have s := { s with lfl.degraded := Table.drop id s.lfl.degraded }
          have made := reconstruct q.data q.width d.want.member 4096 got
          match d.want.use with
          | .gather g =>
            have lo := max d.want.off (4096 * d.want.first)
            have hi := min (d.want.off + d.want.len) (4096 * d.want.first + 4096)
            if lo < hi then s.gatherPart g (d.want.start + (lo - d.want.off)) (slice made (lo - 4096 * d.want.first) (hi - lo)) else s
          | .proxy _ | .degraded _ _ | .trailer _ _ _ | .patrol _ _ _ | .visit => s

/-- The members of a signature that cannot be read at all. -/
def State.missingMembers (s : State) (q : Quire) (sig : Nat) : List Nat :=
  (List.range q.width).filter fun m => s.reach (q.place sig m).1 (q.place sig m).2 == .missing

/-- What cannot be rebuilt is lost (R206): with the container being read, every other that overlaps the lost bytes. -/
def State.wordGone (s : State) (g : Nat) (want : LeafRead) (failed : List Nat) : State :=
  match s.quire want.quire, Table.find g s.lfl.gathers with
  | some q, some x =>
    (s.loseWord q want.quire want.folio want.first (want.member :: failed ++ s.missingMembers q want.folio) (some x.loc)).gatherLost g
  | _, _ => s.gatherLost g

/-- A codeword of a member is served degraded (R206): the same range of D other members is read. A codeword with fewer left is
lost. A member of a degraded read that fails is replaced by the next. -/
def State.degradeWord (s : State) (r : LeafRead) : State :=
  match r.use with
  | .proxy id => s.sendRing (.ring 0x50 [id, r.first, 0] [])
  | .trailer q g m => s.noteTrailer q g m none
  | .patrol q g m => s.notePatrol q g m r.first none
  | .visit => s
  | .gather g =>
    match s.quire r.quire with
    | none => s.gatherLost g
    | some q =>
      have others := s.standIns q r.folio r.member
      if others.length < q.data then s.wordGone g r []
      else
        have id := s.lfl.nextId
        have ask := others.take q.data
        have s := { s with
          lfl.degraded := Table.put id { want := r, asked := ask } s.lfl.degraded
          lfl.nextId := id + 1 }
        ask.foldl (fun s m => s.sendRead (degradedRead q r.quire id r m)) s
  | .degraded id m =>
    match Table.find id s.lfl.degraded with
    | none => s
    | some d =>
      match s.quire d.want.quire, d.want.use with
      | some q, .gather g =>
        match (s.standIns q d.want.folio d.want.member).find? fun m => !(d.asked.contains m) with
        | some n =>
          ({ s with lfl.degraded := Table.put id { d with asked := d.asked ++ [n], failed := m :: d.failed } s.lfl.degraded }).sendRead
            (degradedRead q d.want.quire id d.want n)
        | none => ({ s with lfl.degraded := Table.drop id s.lfl.degraded }).wordGone g d.want (m :: d.failed)
      | _, _ => s

/-- Each codeword of a member's range goes another way. -/
def State.degradeWords (s : State) (r : LeafRead) : State :=
  (List.range r.count).foldl (fun s k => s.degradeWord { r with first := r.first + k, count := 1 }) s

/-- A range of a member is served degraded, codeword by codeword; it counts once in SIG_DEGRADED (R206). -/
def State.degrade (s : State) (r : LeafRead) : State :=
  (s.bump Reg.SIG_DEGRADED.COUNT).degradeWords r

/-- A member's range is read, or served degraded where the member is missing (R203, R206). -/
def State.startRead (s : State) (r : LeafRead) (forced : Bool) : State :=
  match s.reach r.leaf r.unit with
  | .missing => s.degrade r
  | .direct | .peer => if forced then s.degrade r else s.sendRead r

/-- A member's codewords are read for a check, which a member that cannot be read fails. -/
def State.readMember (s : State) (r : LeafRead) : State :=
  match s.reach r.leaf r.unit with
  | .missing => s.degradeWords r
  | .direct | .peer => s.sendRead r

/-- A container in a signature is read (R188, R206): the codewords of each member that it overlaps. `forced` takes the bytes from
the other members, as a second copy (R140). A container of a quire that the reading of the log has still to find waits for it (R196). -/
def State.gather (s : State) (f : GatherFor) (loc : Loc) (forced : Bool) : State :=
  match loc with
  | .flash _ quire sig mem off size =>
    match s.quire quire with
    | none =>
      if s.sig.scans.isEmpty && !s.sig.scanStart then s.deliverCopy f loc none
      else
        have id := s.lfl.nextId
        { s with
          lfl.gathers := Table.put id { for_ := f, loc := loc, parked := true } s.lfl.gathers
          lfl.nextId := id + 1 }
    | some q =>
      have id := s.lfl.nextId
      have s := { s with
        lfl.gathers := Table.put id { for_ := f, loc := loc } s.lfl.gathers
        lfl.nextId := id + 1 }
      (memberParts 3 (streamPos mem off) size 0).foldl (fun s p =>
        have place := q.place sig p.1
        have first := p.2.1 / 4096
        have r : LeafRead :=
          { leaf := place.1, unit := place.2, folio := sig, first := first, count := (p.2.1 + p.2.2.1 - 1) / 4096 - first + 1, use := .gather id,
            quire := quire, member := p.1, off := p.2.1, len := p.2.2.1, start := p.2.2.2 }
        s.startRead r forced) s
  | _ => s.deliverCopy f loc none

/-- The tag that a read of a container is for. -/
def State.askerOf (s : State) (f : GatherFor) (loc : Loc) : Option (Nat × List Nat) :=
  match f with
  | .piece t k => if (s.tag t).any fun c => (c.pieces[k]?).any fun p => p.loc == loc && p.copy.isNone then some (t, [k]) else none
  | .verify t off =>
    if (s.tag t).any fun c => (c.write.bind fun w => w.chunkAt off).any fun k => k.state == .verifying loc && k.copy.isNone then
      some (t, [off, 1])
    else none
  | .ship _ _ k => (s.cmd.tags.find? fun e => e.2.job == some (.fetch f loc)).map fun e => (e.1, [k])
  | .span run tile =>
    if (s.spanOf run tile).any fun p => p.loc == some loc && p.copy.isNone then
      ((Table.find run s.prg.runs).bind Run.tag).map fun t => (t, [tile])
    else none
  | .collect _ | .remote _ _ _ | .rekey => none

/-- The reads at other pairs go out whose home is reachable; those whose home is not wait until it is (R100, R128). One that nothing waits
for any more is forgotten. -/
def State.settleRemote (s : State) : State :=
  (s.ddp.remote.filter fun r => (s.askerOf r.use r.loc).isSome).foldl (fun s r =>
    match r.loc, s.askerOf r.use r.loc with
    | .remote home .., some (t, where_) =>
      have near := s.pairReached home
      have s := { s with ddp.remote := s.ddp.remote ++ [{ r with sent := near }] }
      if near && !r.sent then s.sendRing (.ring 0x42 (home :: t :: where_) r.loc.bytes) else s
    | _, _ => s) { s with ddp.remote := [] }

/-- A read request for a remote reference is due (R128). -/
def State.askRemote (s : State) (f : GatherFor) (loc : Loc) : State :=
  if (s.askerOf f loc).isSome then State.settleRemote { s with ddp.remote := s.ddp.remote ++ [{ use := f, loc := loc }] }
  else s.deliverCopy f loc none

/-- A container is fetched from where it lives (R31, R128, R140). -/
def State.fetchCopy (s : State) (f : GatherFor) (loc : Loc) (forced : Bool) : State :=
  match loc with
  | .cache .. => s.deliverCopy f loc (s.cachedBytes loc)
  | .flash .. => s.gather f loc forced
  | .remote .. => s.askRemote f loc
  | .unmapped | .zero | .lost .. | .image _ => s.deliverCopy f loc none

/-! The pieces of a read (R31, R140, R364) -/

/-- Data of a read goes to the initiator by RDMA Write (R65); the first write queued is the read's point of no return (R90). -/
def State.sendData (s : State) (t off : Nat) (bytes : List Byte) : State :=
  match s.tag t with
  | none => s
  | some c =>
    have st := match c.state with
      | .running => TagState.pastReturn
      | x => x
    (s.setTag t { c with sent := true, state := st }).transmit c.cap.qpn ((s.qp c.cap.qpn).packets bytes.length) (.writeData t off bytes)

/-- Whether a read's command wants its bytes compared (R506). -/
def Cmd.compares (c : Cmd) : Bool := c.cap.op == .compare

/-- The initiator's data of a command, in order. -/
def Cmd.bytes (c : Cmd) : List Byte := c.data.flatMap Prod.snd

/-- A piece has its original bytes: they are sent, or kept for the compare. -/
def State.pieceDone (s : State) (t k : Nat) (p : ReadPiece) (plain : List Byte) : State :=
  match s.tag t with
  | none => s
  | some c =>
    if c.compares then s.modPiece t k fun p => { p with sent := true, plain := plain }
    else (s.modPiece t k fun p => { p with sent := true }).sendData t p.off plain

/-- A read all of whose data has been queued completes (R65). A Forwarded one waits for the owner's FINAL (R364). -/
def State.checkRead (s : State) (t : Nat) : State :=
  match s.tag t with
  | none => s
  | some c =>
    if c.cap.op == .read && c.status.isNone && c.begun && !c.pieces.isEmpty && c.pieces.all ReadPiece.sent then
      if c.state = .forwarded then (if c.fwdLast then s.finish t success else s) else s.finish t success
    else s

/-- A container of a forwarded read goes to the receiving head unchanged (R364): an extent with its location, then the
container. -/
def State.sendForwardedPiece (s : State) (t k : Nat) (c : Cmd) (p : ReadPiece) (container : Container) : State :=
  have h : FwdHeader := { rtag := c.peerTag.getD 0, otag := t, tenant := c.tenant }
  have s := s.sendRing (.forwardData h [{ ext := { addr := c.cap.slba * 4096 + p.off, len := p.len, off := p.chunkOff, loc := p.loc },
                                          container := container }])
  have s := s.modPiece t k fun p => { p with sent := true }
  if c.compares then s else s.checkRead t

/-- Pieces of zeros are sent at once, others are fetched. -/
def State.startPieces (s : State) (t : Nat) (pieces : List ReadPiece) : State :=
  pieces.zipIdx.foldl (fun s x =>
    have p := x.1
    match s.tag t with
    | none => s
    | some c =>
      match p.loc with
      | .zero | .unmapped =>
        if c.cls = .forwardedIn then s.sendForwardedPiece t x.2 c p [] else s.pieceDone t x.2 p (zeros p.len)
      | .cache .. | .flash .. | .remote .. | .lost .. | .image _ => s.fetchCopy (.piece t x.2) p.loc false) s

/-- The pieces of a range of a tree (R253). -/
def State.piecesOf (s : State) (root lo hi : Nat) : List ReadPiece :=
  (s.resolve root lo hi).map fun e => { off := e.addr - lo, len := e.len, chunkOff := e.off, loc := e.loc }

/-- The map is resolved for a read of the live tree (R31, R256): a page that is not resident raises a page fault to firmware and the read waits,
as every lookup does while MAP_CTRL.EN is 0 (R278); one that cannot be rebuilt, and a container marked lost, end it with Unrecovered Read Error
(R211). -/
def State.resolveRead (s : State) (t : Nat) : State :=
  match s.tag t with
  | none => s
  | some c =>
    match Table.find c.cap.nsid s.map.ns with
    | none => s.failRead t (generic 0x0B)
    | some n =>
      if !(s.on Reg.MAP_CTRL.EN) then { s with map.waiting := s.map.waiting ++ [t] } else
      have lo := c.cap.slba * 4096
      have hi := lo + c.cap.nlb * 4096
      if s.map.deltas.any fun d => d.nsid == c.cap.nsid then { s with map.waiting := s.map.waiting ++ [t] } else
      have s := s.touchWalk c.cap.nsid n.root lo hi
      match s.firstFault n.root lo hi with
      | some p =>
        if (s.page p).gone then s.failRead t (media 0x81)
        else
          ({ s with map.faults := s.map.faults ++ [(p, t)] }).bump Reg.MAP_PAGE_FAULTS.COUNT
      | none =>
        have pieces := s.piecesOf n.root lo hi
        if pieces.any fun p => match p.loc with | .lost .. => true | _ => false then s.failRead t (media 0x81)
        else
          have onFlash := pieces.any fun p => match p.loc with | .flash .. | .remote .. => true | _ => false
          ((s.modTag t fun c => { c with pieces := pieces, leafRead := onFlash }).startPieces t pieces).checkRead t

/-- What waited for the map goes on (R256): an update whose records are all acknowledged, else a read's lookup. -/
def State.resumeTag (s : State) (t : Nat) : State :=
  if (s.tag t).any fun (c : Cmd) => c.write.any fun w => w.queued && !w.committed && w.unacked.isEmpty then s.commitTag t else s.resolveRead t

/-- The map can be used again, or has room again (R262, R278): the replica's deltas, then the lookups and updates that waited, go on. -/
def State.resumeMap (s : State) : State :=
  have s := s.resumeDeltas
  s.map.waiting.foldl State.resumeTag { s with map.waiting := [] }

/-! Compare (R90, R99, R506) -/

/-- A Compare ends (R99): unequal is Compare Failure, and fails the write half of a Compare-and-Write; equal starts the write half,
to which the lock goes over (R84), unless a check of the write refuses it. The known result is the compare's point of no return (R90). -/
def State.endCompare (s : State) (t : Nat) (equal : Bool) : State :=
  match s.tag t with
  | none => s
  | some c =>
    have s := (s.finish t (if equal then success else media 0x85)).modTag t fun c => { c with state := if c.state = .running then .pastReturn else c.state }
    match c.partner.bind fun p => (s.tag p).map fun w => (p, w) with
    | none => s
    | some (p, w) =>
      if w.state != .decode || w.status.isSome then s
      else if !equal then s.refuse p (generic 0x09)
      else
        match s.checkServed w with
        | some (st, ev) =>
          have s := s.refuse p st
          if ev = 0 then s else s.event1 ev w.tenant
        | none =>
          have s := s.modTag p fun w => { w with lockEntry := c.lockEntry, locked := c.locked, order := c.order }
          have s := s.modTag t fun c => { c with lockEntry := false, locked := false }
          (s.start p).noteTags

/-- A Compare with its data and every piece is judged under R113. The receiving head of a forwarded one tells the owner, and goes
on with the write half where they are equal (R506); the owner's FINAL completes it. -/
def State.checkCompare (s : State) (t : Nat) (upset : Bool := false) : State :=
  match s.tag t with
  | none => s
  | some c =>
    have ready := c.compares && c.cls != .forwardedIn && c.status.isNone && !c.sent && !c.pieces.isEmpty && (c.pieces.all ReadPiece.sent) &&
      c.bytes.length == c.cap.nlb * 4096
    if ready then
      have got := readCompare (doubledCompare (c.pieces.flatMap ReadPiece.plain) c.bytes upset)
      have s := if got = .fault then (s.event1 0x3002 c.tenant).bump Reg.BND_DIGEST_FAULT.COUNT else s
      have equal := got == .equal
      if c.state = .forwarded then
        have h : FwdHeader :=
          { rtag := t, otag := c.peerTag.getD 0, tenant := c.tenant, lastData := !(equal && c.partner.isSome),
            status := if equal then success else media 0x85 }
        have s := (s.sendRing (.forwardData h [])).modTag t fun c => { c with sent := true }
        match c.partner with
        | none => s
        | some p =>
          match s.tag p with
          | some w => if equal then (s.fetchForwarded p w).feedInCapsule p else s
          | none => s
      else s.endCompare t equal
    else s

end Sys2Proof.Machine
end

