-- ==== Sys2Proof/Machine/RegCore.lean ====
section
/-!
DEFINITION. Machine/RegCore.lean: registers by address (chapters 01 and 18): the fields of a block, the element of an array
that an address names, and the value of a whole register.
-/
namespace Sys2Proof.Machine
open Sys2Proof

/-- The fields of a block of R478, by its index in BAR0. -/
def Reg.ofBlock : Nat → List RField
  | 0 => Reg.fieldsOLD
  | 1 => Reg.fieldsSQR
  | 2 => Reg.fieldsTMP
  | 3 => Reg.fieldsBOOT
  | 4 => Reg.fieldsEVT
  | 5 => Reg.fieldsTST
  | 6 => Reg.fieldsCHI
  | 7 => Reg.fieldsDMA
  | 8 => Reg.fieldsETH
  | 9 => Reg.fieldsTRN
  | 10 => Reg.fieldsCMD
  | 11 => Reg.fieldsBND
  | 12 => Reg.fieldsDDP
  | 13 => Reg.fieldsMAP
  | 14 => Reg.fieldsSIG
  | 15 => Reg.fieldsLFL
  | 16 => Reg.fieldsXRN
  | 17 => Reg.fieldsOWN
  | 18 => Reg.fieldsREP
  | 19 => Reg.fieldsPRG
  | 20 => Reg.fieldsDDR
  | 21 => Reg.fieldsKEY
  | _ => []

/-- The element of a field's register array that holds the 32-bit word at an address, and whether it is the upper half of a
64-bit register (R11, R12). -/
def RField.element (f : RField) (a : Nat) : Option (Nat × Nat × Bool) :=
  if a < f.base then none
  else
    have off := a - f.base
    have i := off / f.st1
    have j := (off - f.st1 * i) / f.st2
    have left := off - f.st1 * i - f.st2 * j
    if i < f.n1 ∧ j < f.n2 then
      if left = 0 then some (i, j, false) else if left = 4 ∧ f.wide then some (i, j, true) else none
    else none

/-- A field of the register at an address. -/
abbrev FieldAt := RField × Nat × Nat × Bool

/-- The fields of the register that holds the word at an address. -/
def Reg.fieldsAt (a : Nat) : List FieldAt :=
  (Reg.ofBlock (a / 0x100000)).filterMap fun f => (f.element a).map fun e => (f, e)

/-- The value of the whole register that some fields make up (R10). -/
def State.regValue (s : State) (fs : List FieldAt) : Nat := (fs.map fun f => s.rd f.1 f.2.1 f.2.2.1 * 2 ^ f.1.lsb).sum

end Sys2Proof.Machine
end

