-- ==== Sys2Proof/Machine/Net.lean ====
section
/-!
DEFINITION. Machine/Net.lean: the meanings of the commands of chapter 02: frames, flow control, queue-pair contexts, the
lay-by, RoCEv2 packets, their timers, and the transport state.
-/
namespace Sys2Proof.Machine
open Sys2Proof

/-! Packets -/

/-- A packet's context is looked at before it is processed (R48, R53, R404): a context in Reset or Init counts an unknown
queue pair, one in Error answers nothing and is counted nowhere (DESIGN CHOICE, log entry 113: the spec gives no outcome), and a Frozen one
draws an RNR NAK for a SEND and is dropped otherwise. -/
def State.atQp (s : State) (p : Packet) (isSend : Bool) (run : State → State) : State :=
  match (s.qp p.qpn).state with
  | .reset | .init => s.dropPacket 2
  | .error => s
  | .frozen => if isSend then s.nak p.qpn (.rnrNak p.psn (s.qp p.qpn).rnrDelay) else s.dropPacket 2
  | .rtr | .rts | .sqd => run s

/-- A packet leaves the direct path, where it stood there, as it is processed (R58). -/
def State.takeDirect (s : State) (p : Packet) : State := { s with trn.direct := s.trn.direct.erase p }

/-- A SEND with Invalidate (R62): its key must name a valid region of the tenant that allows it. The SEND is processed, and the
key is invalid from then on. One whose key does not is answered with a Remote Access Error, its queue pair goes to Error, and nothing of it
is delivered (DESIGN CHOICE, log entry 85: the spec gives no outcome). -/
def State.recvSendInvalidate (s : State) (p : Packet) : State :=
  have q := s.qp p.qpn
  have key := p.invKey.getD 0
  if psnDiff p.psn q.expPsn = 0 then
    match Table.find (key / 256) s.trn.regions with
    | none => s.nakAccess p
    | some r =>
      if r.valid && r.variant == key % 256 && r.tenant == q.tenant && r.invSend then
        have s' := s.recvSend p
        if (s'.qp p.qpn).expPsn = q.expPsn then s' else (s'.invalidate (key / 256)).endInvalidation (key / 256)
      else s.nakAccess p
  else s.recvSend p

/-- Bytes that a read of the part brings (R68): to the lane of its segment, to its command, or to the local region of a work
request. -/
def State.landRead (s : State) (n : Nat) (r : ReadReq) (bytes : List Byte) : State :=
  if r.void then s
  else if r.local_ then
    match (s.qp n).sendQueue.find? fun w => w.op == .read && w.sent with
    | none => s
    | some w =>
      match s.keyCheck w.localKey (some (s.qp n).tenant) true (w.offset + r.segment + (r.len - r.left)) bytes.length with
      | some a => s.ddrWriteList a bytes
      | none => s
  else
    match s.tag r.tag with
    | none => s
    | some c =>
      if c.write.isSome then s.feedSegment r.tag r.segment bytes
      else s.modTag r.tag fun c => { c with data := c.data ++ [(r.segment, bytes)] }

/-- A read of the part has been answered in full (R49, R82). -/
def State.endRead (s : State) (n : Nat) (r : ReadReq) : State :=
  have s := s.popRead n
  if r.local_ then
    have q := s.qp n
    match q.sendQueue.find? fun w => w.op == .read && w.sent with
    | none => s
    | some w =>
      if r.segment + r.len < w.length then s else (s.setQp n { q with sendQueue := q.sendQueue.erase w }).endWork w 0
  else ((s.modTag r.tag fun c => { c with readsLeft := c.readsLeft - 1 }).tryHandOff r.tag).checkCompare r.tag |>.pumpLanes

/-- An RDMA READ Response packet (R49, R68): its PSN is the next of the oldest read outstanding; one whose PSN lies in no read that the part has
issued is dropped and counted, one ahead of its turn or come twice is dropped (the retransmission of R49 brings it again), and bytes that
sum to another length move the queue pair to Error. It acknowledges what was sent before it, and the staging space of its bytes is free. -/
def State.recvReadResponse (s : State) (p : Packet) : State :=
  have q := s.qp p.qpn
  match q.reads with
  | [] => s.dropPacket 2
  | r :: _ =>
    have last := p.opcode == 0x0F || p.opcode == 0x10
    have asked := q.reads.any fun x => x.issued && decide (0 ≤ psnDiff p.psn x.psn ∧ psnDiff p.psn x.psn < q.packets x.len)
    if !asked then s.dropPacket 2
    else if !r.issued || p.psn != r.next then s
    else if r.left < p.payload.length || (last && r.left != p.payload.length) then s.qpError p.qpn (some 0x06)
    else
      have s := s.ackUpTo p.qpn p.psn
      have q := s.qp p.qpn
      have s := s.setQp p.qpn { q with
        pktsIn := q.pktsIn + 1
        bytesIn := q.bytesIn + p.payload.length
        reads := q.reads.set 0 { r with left := r.left - p.payload.length, next := (r.next + 1) % 2 ^ 24 } }
      have s := s.landRead p.qpn r p.payload
      if last then s.endRead p.qpn r else s.issueReads (p.qpn % 2)

/-- A packet is processed for its queue pair, by its opcode (R48): the implemented ones have their effect; any other opcode of
the reliable connected service draws a NAK of Invalid Request. -/
def State.processPacket (s : State) (p : Packet) : State :=
  if p.opcode ≤ 0x05 then s.atQp p true fun s => s.recvSend p
  else if p.opcode = 0x16 ∨ p.opcode = 0x17 then s.atQp p true fun s => s.recvSendInvalidate p
  else if p.opcode ≤ 0x0B then s.atQp p false fun s => s.recvWrite p
  else if p.opcode = 0x0C then s.atQp p false fun s => s.recvReadRequest p
  else if p.opcode ≤ 0x10 then s.atQp p false fun s => s.recvReadResponse p
  else if p.opcode = 0x11 then s.atQp p false fun s => s.recvAck p
  else s.atQp p false fun s => s.nakInvalid p none

/-- Whether an opcode belongs to the reliable connected service (R48). -/
def rcOpcode (op : Nat) : Bool := decide (op < 0x20)

/-! Frames -/

/-- A RoCEv2 packet reaches QT (R42, R51, R54 to R59, R68): a damaged one, one of another service and one outside the queue
pairs are dropped and counted; a CE mark draws a CNP; the packet takes the direct path where its context is on die and its FIFO
is empty, and otherwise waits in the lay-by for its context. While the role is between quarters the packet is lost, and the initiator sends
it again (R461; DEDUCED, log entry 88). -/
def State.arriveQt (s : State) (p : Packet) : State :=
  if !p.icrcOk || !p.lengthOk then s.dropPacket 3
  else if !(rcOpcode p.opcode) || !(s.validQpn p.qpn) then s.dropPacket 2
  else if s.roleGap .qt (p.qpn % 2) then s
  else
    have s := s.markCe p
    if s.onDie p.qpn && (s.waitingPackets p.qpn).isEmpty && !s.trn.leaving.contains p.qpn then
      { s.touchQp p.qpn with trn.direct := s.trn.direct ++ [p] }
    else (s.laybyJoin p).startFetch p.qpn

/-- FRAME_RECEIVE (R38, R39): the FEC and length checks, EAPOL, MACsec, and the classification, first row that matches. A lost head takes
no frame (R20). -/
def execFrameReceive (frame : Frame) (s : State) : Res :=
  have f := frame
  if s.power.headLost then .next s
  else if f.uncorrect then .next (s.bump Reg.ETH_FEC_UNCORR.COUNT 1 (f.lport / 4))
  else if f.length < 64 ∨ 9216 < f.length then .next s
  else if f.etherType = 0x888E ∧ (f.dest = .portMac ∨ f.dest = .paeGroup) then .next (s.hostFrame f true)
  else
    let (ok, s) := s.validate f
    if !ok then .next s
    else
      match f.roce with
      | some p =>
        if p.qpn = 1 then .next (s.hostFrame f false)
        else if p.opcode = 0x81 then .next (if p.icrcOk && p.lengthOk then s else s.dropPacket 3)
        else .next (s.arriveQt p)
      | none =>
        match f.dest with
        | .portMac | .broadcast | .subscribed => .next (s.hostFrame f false)
        | .paeGroup | .other => .next s

/-- HOST_LIMIT_WINDOW (R40): every logical port's count of host-bound frames starts again. -/
def execHostLimitWindow (s : State) : Res :=
  .next { s with ports := Table.mapVals (fun _ p => { p with hostFrames := 0 }) s.ports }

/-- LINK_CHANGE (R36, R37, R69): LINK_UP follows the link and LINK_CHANGE is set where it changes. A port whose lane map is no
permutation stays down, and so does a logical port that is not in use. -/
def execLinkChange (lport : Nat) (up : Bool) (s : State) : Res :=
  have port := lport / 4
  have bit := 2 ^ (lport % 4)
  have old := s.rd Reg.ETH_LINK_STATUS.LINK_UP port
  if up == old.testBit (lport % 4) || (up && (s.on Reg.ETH_LINK_STATUS.MAP_ERR port || !(s.portsInUse.contains lport))) then .next s
  else
    .next ((s.wr Reg.ETH_LINK_STATUS.LINK_UP (old ^^^ bit) port).raise Reg.ETH_LINK_STATUS.LINK_CHANGE bit port)

/-- PFC_RECEIVE (R41): each honoured priority stops, or resumes where its pause time is 0. -/
def execPfcReceive (lport : Nat) (times : List (Nat × Nat)) (s : State) : Res :=
  .next (times.foldl (fun s t =>
    if (s.rd Reg.ETH_PFC_CTRL.PAUSE_HONOUR (lport / 4)).testBit t.1 then
      if t.2 = 0 then s.unpause lport t.1
      else
        have p := s.lport lport
        s.setLPort lport { p with paused := if p.paused.contains t.1 then p.paused else p.paused ++ [t.1] }
    else s) s)

/-- PFC_PAUSE_EXPIRY (R41): transmission resumes on the priority. -/
def execPfcPauseExpiry (lport priority : Nat) (s : State) : Res := .next (s.unpause lport priority)

/-- XOFF_REFRESH (R41): XOFF is sent again while the lay-by stays above LOW_WM. -/
def execXoffRefresh (s : State) : Res := .next (if s.trn.xoff then s.sendPfc true else s)

/-- FRAME_TRANSMIT (R41, R43 to R47): a frame leaves its port, or waits for its paused priority. -/
def execFrameTransmit (frame : TxFrame) (s : State) : Res := .next (s.transmitFrame frame)

/-- PTP_TX_STAMP_READ (R47, R69): the read of HI answers the oldest entry and removes it; the next one then appears. One
that came in the same clock is not seen yet (R13). -/
def execPtpTxStampRead (port : Nat) (s : State) : Res :=
  have addr := Reg.ETH_PTP_TX_STAMP_HI.VALID.addr port 0
  if !(s.writable 8) then .next (s.send (.readValue addr 0))
  else .next ((s.send (.readValue addr (s.stampWord port))).popStamp port)

/-! Congestion -/

/-- Whether a context takes packets (R53): it exists and is in neither Reset nor Init. -/
def State.takesPackets (s : State) (n : Nat) : Bool :=
  (Table.find n s.trn.qps).any fun q => q.state != .reset && q.state != .init

/-- ROCE_CNP (R42, R53): the queue pair's send rate is cut; for a context in Reset or Init the packet is dropped and counted. -/
def execRoceCnp (qpn : Nat) (s : State) : Res :=
  .next (if s.takesPackets qpn then s.cutRate qpn else s.dropPacket 2)

/-- RATE_INCREASE (R42): the rate rises by INCREASE, up to line rate. -/
def execRateIncrease (qpn : Nat) (s : State) : Res :=
  have grow (q : Qp) : Qp := { q with
    rate := min (s.lineRate q.lport) (q.rate + s.rd Reg.TRN_CC_CFG.INCREASE)
    targetRate := s.lineRate q.lport }
  .next { s with trn.qps := Table.modify qpn grow s.trn.qps }

/-! Contexts and the lay-by -/

/-- CONTEXT_WRITEBACK_ACK (R55): the context has left the die; the fetch that packets wait for is issued. -/
def execContextWritebackAck (qpn : Nat) (s : State) : Res :=
  if s.trn.leaving.contains qpn then
    have s := { s with trn.leaving := s.trn.leaving.erase qpn }
    .next (if (s.waitingPackets qpn).isEmpty then s else s.startFetch qpn)
  else .next s

/-- CONTEXT_ELIGIBLE (R54): the context becomes the victim of the oldest fetch that waits for a place in its set. -/
def execContextEligible (qpn : Nat) (s : State) : Res :=
  if s.onDie qpn && s.eligible qpn then
    match s.trn.fetchWait.find? fun q => qpSet q == qpSet qpn with
    | some w => .next ((s.evict qpn).issueFetch w)
    | none => .next s
  else .next s

/-- A fetched context is on the die. -/
def State.endFetch (s : State) (qpn : Nat) : State :=
  { s with
    trn.fetching := s.trn.fetching.erase qpn
    trn.sets := Table.put (qpSet qpn) (qpn :: s.dieSet (qpSet qpn)) s.trn.sets }

/-- A context that could not be fetched: its lay-by is emptied and its queue pair goes to Error. -/
def State.failFetch (s : State) (qpn reason : Nat) : State :=
  (({ s with trn.layby := Table.drop qpn s.trn.layby }).noteLayby).qpError qpn (some reason)

/-- CONTEXT_FETCH_DONE (R56): the context is installed; a failed one is loaded in Error with its reason, and its packets in the
lay-by are dropped. -/
def execContextFetchDone (qpn ns : Nat) (result : FetchResult) (s : State) : Res :=
  if s.trn.fetching.contains qpn then
    have s := (s.endFetch qpn).peak Reg.TRN_FETCH_MAX.MAX_NS ns
    match result with
    | .good => .next (if (s.qp qpn).crcOk then s else s.failFetch qpn 0x08)
    | .crcFail => .next (s.failFetch qpn 0x08)
    | .uncorrectable => .next ((s.noteUncorr (s.rd Reg.TRN_CTX_BASE.BASE + 384 * qpn)).failFetch qpn 0x09)
  else .next s

/-- LAYBY_DRAIN_PACKET (R58): the oldest packet of an installed context leaves the lay-by and is processed. -/
def execLaybyDrainPacket (qpn : Nat) (s : State) : Res :=
  match s.waitingPackets qpn with
  | [] => .next s
  | p :: r =>
    if s.onDie qpn then
      have s := { s with trn.layby := if r.isEmpty then Table.drop qpn s.trn.layby else Table.put qpn r s.trn.layby }
      .next ((s.noteLayby.touchQp qpn).processPacket p)
    else .next s

/-! RoCEv2 packets on the direct path -/

/-- A packet operand of the row it belongs to is processed, in arrival order (R58): it is its queue pair's oldest on the direct path, and the
context is on die. Any other is no event of this row. -/
def State.roceRow (s : State) (p : Packet) (mine : Nat → Bool) : State :=
  if mine p.opcode && (s.trn.direct.find? fun x => x.qpn == p.qpn) == some p && s.onDie p.qpn then (s.takeDirect p).processPacket p else s

/-- ROCE_SEND (R48, R68). -/
def execRoceSend (packet : Packet) (s : State) : Res := .next (s.roceRow packet fun o => decide (o ≤ 0x05))

/-- ROCE_SEND_INVALIDATE (R62). -/
def execRoceSendInvalidate (packet : Packet) (s : State) : Res := .next (s.roceRow packet fun o => o == 0x16 || o == 0x17)

/-- ROCE_RDMA_WRITE (R61, R63, R68). -/
def execRoceRdmaWrite (packet : Packet) (s : State) : Res := .next (s.roceRow packet fun o => decide (0x06 ≤ o ∧ o ≤ 0x0B))

/-- ROCE_READ_REQUEST (R61, R63, R64). -/
def execRoceReadRequest (packet : Packet) (s : State) : Res := .next (s.roceRow packet fun o => o == 0x0C)

/-- ROCE_READ_RESPONSE (R68, and R106 to R112 for a write's data). -/
def execRoceReadResponse (packet : Packet) (s : State) : Res := .next (s.roceRow packet fun o => decide (0x0D ≤ o ∧ o ≤ 0x10))

/-- ROCE_ACKNOWLEDGE (R49, R50). -/
def execRoceAcknowledge (packet : Packet) (s : State) : Res := .next (s.roceRow packet fun o => o == 0x11)

/-- ROCE_ATOMIC (R48): an atomic, or any opcode of the service that the part does not implement. -/
def execRoceAtomic (packet : Packet) (s : State) : Res :=
  .next (s.roceRow packet fun o => decide (0x12 ≤ o ∧ o ≤ 0x15) || decide (0x18 ≤ o ∧ o < 0x20))

/-! Timers, the final flag and invalidation -/

/-- ACK_COALESCE_TIMER (R49): what has been received and not acknowledged is acknowledged. -/
def execAckCoalesceTimer (qpn : Nat) (s : State) : Res :=
  have q := s.qp qpn
  if q.unackedRx = 0 then .next s
  else .next ((s.setQp qpn { q with unackedRx := 0 }).sendPacket qpn (.ack (prevPsn q.expPsn)))

/-- ACK_TIMEOUT (R49, R50): the part sends again, or the queue pair goes to Error. A timeout code of 0 never expires, nor does a
queue pair with nothing unacknowledged. -/
def execAckTimeout (qpn : Nat) (s : State) : Res :=
  have q := s.qp qpn
  if q.timeoutExp = 0 ∨ q.unackedPsn = q.sendPsn ∨ (q.state ≠ .rts ∧ q.state ≠ .sqd) then .next s else .next (s.retry qpn)

/-- RNR_TIMER (R49, R50): the part retries, without limit at a count of 7, or the queue pair goes to Error. -/
def execRnrTimer (qpn : Nat) (s : State) : Res :=
  have q := s.qp qpn
  if q.rnrTimer = 0 then .next s
  else if q.rnrMax = 7 ∨ q.rnrTries < q.rnrMax then
    .next ((s.setQp qpn { q with
      rnrTimer := 0
      rnrTries := min 7 (q.rnrTries + 1)
      deadline := q.deadlineFrom s.ringTime
      retrans := q.retrans + 1 }).sendPacket qpn (.retransmit q.unackedPsn))
  else .next ((s.setQp qpn { q with rnrTimer := 0 }).qpError qpn (some 0x02))

/-- FINAL_FLAG_PROCESS (R64): every earlier payload of the queue pair has been placed, and the oldest final-flagged message is
processed. -/
def execFinalFlagProcess (qpn : Nat) (s : State) : Res :=
  have s := s.placeAll qpn fun _ => true
  have q := s.qp qpn
  match q.finals with
  | [] => .next s
  | m :: r => .next ((s.setQp qpn { q with finals := r }).processFinal qpn m)

/-- INVALIDATION_COMPLETE (R62): what was checked against the key has been placed, and the invalidation completes. -/
def execInvalidationComplete (region : Nat) (s : State) : Res :=
  if (Table.find region s.trn.regions).any fun r => !r.valid then
    have s := (s.trn.qps.map Prod.fst).foldl (fun s q => s.placeAll q fun p => p.region == region) s
    .next (s.endInvalidation region)
  else .next s

/-- TRN_STATE_WRITE (R63, R70): a change that the table allows; entry to service clears the whole-space key. -/
def execTrnStateWrite (value : Nat) (s : State) : Res :=
  have old := s.rd Reg.TRN_CTRL.STATE
  if !(s.writable 9) then .next s
  else if (value = 1 ∧ (old = 0 ∨ old = 2)) ∨ (value = 2 ∧ old = 0) ∨ (value = 3 ∧ old = 1) then
    have s := s.wr Reg.TRN_CTRL.STATE value
    .next (if value = 1 then s.wr Reg.TRN_WHOLE_KEY.EN 0 else s)
  else .next s

end Sys2Proof.Machine
end

