-- ==== Sys2Proof/Machine/Power.lean ====
section
/-!
DEFINITION. Machine/Power.lean: the commands of chapter 15: the Square, quarters switched on and off, heat, and the
margin planner. What faults do stands in Machine/Faults.lean. The supply's own commands stand in Machine/Reset.lean.
-/
namespace Sys2Proof.Machine
open Sys2Proof

/-- A converter phase is lost (R419): event 0x9003; the second loss is a loss of the head. -/
def execConverterPhaseLoss (s : State) : Res :=
  have s := { s with power.phasesLost := s.power.phasesLost + 1 }
  have s := s.event 0x9003
  .next (if 2 ≤ s.power.phasesLost then s.headLoss else s)

/-- VIN leaves 36 to 75 V in service (R439): event 0x9001. -/
def execVinOutOfRange (millivolts : Nat) (s : State) : Res :=
  .next ((s.wr Reg.SQR_VIN.MV millivolts).event1 0x9001 millivolts)

/-- Where a request of a class joins the waiting list: behind every request of its class or a lower-numbered one (R428). -/
def insertByClass (l : TokenLot) : List TokenLot → List TokenLot
  | [] => [l]
  | x :: r => if x.cls ≤ l.cls then x :: insertByClass l r else l :: x :: r

/-- Whether QS collects ahead of bindery and tile work (R200, R428): a pool's free units are below SIG_GC_CFG.URGENT % while it is collected, or a
rebuild has a quire with nothing to spare (R208, R209). -/
def State.collectsUrgently (s : State) : Bool :=
  (List.range 64).any fun p =>
    (s.sig.quires.any (fun e => e.2.pool == p && e.2.state == .collecting) &&
      decide (s.rd Reg.SIG_POOL_FREE.UNITS p * 100 < s.rd Reg.SIG_GC_CFG.URGENT * s.rd Reg.SIG_POOL_UNITS.UNITS p)) ||
    (s.sig.rebuilding && s.rd Reg.SIG_POOL_STATE.STATE p == 4)

/-- The class in which a request is served (R162, R428): sewing, class 3 of a QS quarter, is destage of class 2 while own dirty data stands at or
above URGENT % of LIMIT_SEGS, and of class 1 after a warning. -/
def State.sewClass (s : State) (quarter cls : Nat) : Nat :=
  if quarterKind quarter == .qs && cls == 3 then
    if s.warned then 1
    else if s.collectsUrgently then 2
    else if s.rd Reg.DDR_WC_CFG.URGENT * s.rd Reg.DDR_WC_CFG.LIMIT_SEGS ≤ s.rd Reg.DDR_WC_DIRTY.OWN * 100 then 2
    else 3
  else cls

/-- A quarter asks for tokens (R425, R427, R428). Class 0 is always granted, and taken first from the budget; any other
request is granted where it fits the budget and the ramp, or waits and counts in SQR_WAIT. -/
def execTokenRequest (quarter cls tokens : Nat) (s : State) : Res :=
  have l : TokenLot := { quarter := quarter, cls := s.sewClass quarter cls, tokens := tokens }
  if cls = 0 then
    .next ({ s with power.granted := l :: s.power.granted }).recallExcess.noteGranted
  else
    have before := s.power.waiting.length
    have s := ({ s with power.waiting := insertByClass l s.power.waiting }).serveWaiting
    .next (if before < s.power.waiting.length then s.bump Reg.SQR_WAIT.COUNT else s)

/-- An idle quarter hands its tokens back (R425); the idle floor of class 0 stays. -/
def execTokenReturn (quarter : Nat) (s : State) : Res :=
  .next (s.returnTokens quarter fun l => l.cls == 0)

/-- A recalled quarter acknowledges (R428): the recalled lots leave the grants, and the waiting grants are looked at. -/
def execRecallAck (quarter : Nat) (s : State) : Res :=
  have mine := s.power.recalls.filter fun l => l.quarter == quarter
  have s := { s with
    power.granted := mine.foldl (fun g l => g.erase l) s.power.granted
    power.recalls := s.power.recalls.filter fun l => l.quarter != quarter }
  .next s.serveWaiting

/-- A write of SQR_BUDGET.TOKENS (R440): 1,200 up to STRAP_TOKENS; no effect after a power-fail warning. -/
def execBudgetWrite (value : Nat) (s : State) : Res :=
  if s.warned || !(decide (1200 ≤ value ∧ value ≤ s.rd Reg.SQR_BUDGET.STRAP_TOKENS)) then .next s
  else .next (s.wr Reg.SQR_BUDGET.TOKENS value).settleBudget

/-- The measured input power is compared with the effective budget (R429): above it by more than 2 %, the excess is
withheld as SQR_TRIM and event 0x9006 is recorded. -/
def execPowerCheck (millivolts measured : Nat) (s : State) : Res :=
  have s := (s.wr Reg.SQR_VIN.MV millivolts).wr Reg.SQR_VIN.POWER measured
  have eff := s.effective.1
  if eff * 102 < measured * 100 then .next ((s.wr Reg.SQR_TRIM.TOKENS (measured - eff)).event1 0x9006 (measured - eff))
  else .next s

/-- The trim falls by one token per millisecond while the measured power is below 97 % of the effective budget (R429). -/
def execTrimDecay (s : State) : Res :=
  if s.rd Reg.SQR_VIN.POWER * 100 < s.effective.1 * 97 then
    .next (s.wr Reg.SQR_TRIM.TOKENS (s.rd Reg.SQR_TRIM.TOKENS - 1)).serveWaiting
  else .next s

/-- Whether a quarter's clock runs (R423). -/
def QuarterState.clocked : QuarterState → Bool
  | .waking | .active | .closing => true
  | _ => false

/-- SYSCLK is lost (R431): Old Town goes on on its own oscillator, every switched quarter stops, event 0x9007, and the head
is lost. -/
def execSysclkLoss (s : State) : Res :=
  have stop (e : Nat × Quarter) : Nat × Quarter :=
    if e.1 = 0 || e.2.state == .fenced then e else (e.1, { e.2 with state := .off, takesFor := none })
  have s := { s with
    power.sysclkLost := true
    power.quarters := s.power.quarters.map stop
    power.wakeQueue := [] }
  .next (s.event 0x9007).headLoss

/-- Starts an operation of SQR_Q_CMD (R440): the quarter is named and BUSY is set. -/
def State.startQCmd (s : State) (q : Nat) : State :=
  ((s.wr Reg.SQR_Q_CMD.QUARTER q).wr Reg.SQR_Q_RESULT.STATUS 0).wr Reg.SQR_Q_RESULT.BUSY 1

/-- Ends an operation of SQR_Q_CMD on a quarter (R440). -/
def State.endQCmd (s : State) (q status : Nat) : State :=
  if s.on Reg.SQR_Q_RESULT.BUSY && s.rd Reg.SQR_Q_CMD.QUARTER == q then
    (s.wr Reg.SQR_Q_RESULT.STATUS status).wr Reg.SQR_Q_RESULT.BUSY 0
  else s

/-- Refuses an operation of SQR_Q_CMD (R440). -/
def State.refuseQCmd (s : State) (status : Nat) : State := s.wr Reg.SQR_Q_RESULT.STATUS status

/-- SQR_Q_CMD wakes a quarter to Active (R424, R440). A fenced quarter returns to service by a self-test only. -/
def execQuarterWake (quarter : Nat) (s : State) : Res :=
  if s.on Reg.SQR_Q_RESULT.BUSY || quarter = 0 || 41 < quarter then .next s
  else
    match (s.quarter quarter).state with
    | .off | .retain => .next ((s.startQCmd quarter).wake quarter)
    | .fenced => .next (s.refuseQCmd 0x9031)
    | .waking | .active | .closing => .next (s.refuseQCmd 0)

/-- Whether a kind keeps its active count without a quarter (R440). -/
def State.canSpare (s : State) (q : Nat) : Bool :=
  have k := quarterKind q
  decide (k.activeCount ≤ (k.members.filter fun y => y != q && (s.quarter y).state == .active).length)

/-- SQR_Q_CMD powers a quarter down after a drain (R432, R440): refused with 0x9030 where its kind would fall below its
active count. -/
def State.powerDown (s : State) (q : Nat) (goal : DrainGoal) : State :=
  if s.on Reg.SQR_Q_RESULT.BUSY || q = 0 || 41 < q then s
  else
    match (s.quarter q).state with
    | .active => if s.canSpare q then (s.startQCmd q).close q goal else s.refuseQCmd 0x9030
    | .fenced => s.refuseQCmd 0x9031
    | .off | .waking | .retain | .closing => s.refuseQCmd 0

/-- SQR_Q_CMD powers a quarter down to Off (R432). -/
def execQuarterPowerOff (quarter : Nat) (s : State) : Res := .next (s.powerDown quarter .off)

/-- SQR_Q_CMD powers a quarter down to Retain (R432). -/
def execQuarterRetain (quarter : Nat) (s : State) : Res := .next (s.powerDown quarter .retain)

/-- The quarter whose test a rotation makes way for, once the standby is Active (R462 step 3): it enters Closing. QC and QT
hand over without a drain: QC from a consistent copy, QT by writing every on-die context back. -/
def State.rotateNow (s : State) (a : Nat) : State :=
  match quarterKind a with
  | .qc => s.setQuarter a { s.quarter a with role := .underTest }
  | .qt => (s.setQuarter a { s.quarter a with role := .underTest }).emptyRole (s.quarter a).duty
  | _ => (s.close a .test).setQuarter a { s.quarter a with state := .closing, goal := .test, role := .active }

/-- Commands that restart from decode with the same tag once the standby QC has taken over (R461), in the order of their
locks. -/
def State.redecode (s : State) : State :=
  have hit := (s.cmd.tags.filter fun e => e.2.state == .decode && e.2.status.isNone && e.2.cap.fused != .second).mergeSort fun a b =>
    decide (a.2.order ≤ b.2.order)
  hit.foldl (fun s e => s.advance e.1) s

/-- A closing quarter holds no work and no credits (R432 step 4): its clock stops and its tokens return; or its test
begins (R462). -/
def execQuarterDrained (quarter : Nat) (s : State) : Res :=
  have x := s.quarter quarter
  if x.state = .closing then
    match x.goal with
    | .off => .next (((s.setQuarter quarter { x with state := .off }).returnTokens quarter fun _ => false).endQCmd quarter 0)
    | .retain => .next (((s.setQuarter quarter { x with state := .retain }).returnTokens quarter fun _ => false).endQCmd quarter 0)
    | .test => .next (s.setQuarter quarter { x with state := .active, role := .underTest })
  else .next s

/-- The test that a quarter drained for ends with 0xB006. -/
def State.endTestDrain (s : State) : State := (({ s with test.job := none }).wr Reg.TST_RESULT.STATUS 0xB006).wr Reg.TST_RESULT.BUSY 0

/-- The drain does not end within SQR_DRAIN_US (R432): the power-down is abandoned, the quarter returns to Active with its
units back in service, and event 0x9030 is recorded. A rotation that waited for it ends, and the standby that it woke stays Active with its
units: R432 and R463 are silent on that standby (DESIGN CHOICE, log entry 86). In PS3 the abandoned quarter runs on, and the next period of
SQR_DRAIN_US tries its power-down again. -/
def execDrainTimeout (quarter : Nat) (s : State) : Res :=
  have x := s.quarter quarter
  if x.state = .active ∧ s.inPs3 ∧ quarter ∈ ps3Quarters then .next (s.ps3Close quarter)
  else if x.state = .closing then
    have s := (((s.setQuarter quarter { x with state := .active }).unitsIn quarter).event1 0x9030 quarter).endQCmd quarter 0x9030
    match x.goal with
    | .test => .next s.endTestDrain
    | .off | .retain => .next s
  else .next s

/-! Heat -/

/-- The sensors in a quarter (R434): its own, the two hot spots of QB, the SerDes sensor of QE. -/
def sensorsOf (q : Nat) : List Nat :=
  match quarterKind q with
  | .qb => [q, 42 + 2 * (q - 10), 43 + 2 * (q - 10)]
  | .qe => [q, 59 + q]
  | _ => [q]

/-- The quarter that holds a sensor (R434). -/
def sensorQuarter (k : Nat) : Nat :=
  if k ≤ 41 then k else if k ≤ 59 then 10 + (k - 42) / 2 else k - 59

/-- The neighbouring quarters of a quarter: those next to it in number (a DESIGN CHOICE: the spec gives no geometry). -/
def neighbours (q : Nat) : List Nat := (if q = 0 then [] else [q - 1]) ++ (if q = 41 then [] else [q + 1])

/-- The mean of some readings. -/
def meanOf (xs : List Int) : Int := xs.sum / (max xs.length 1 : Nat)

/-- The readings a sensor is compared with (R435): its quarter's other sensors, or those of the neighbouring quarters. -/
def peersOf (temps : List Int) (k : Nat) : List Int :=
  have q := sensorQuarter k
  have others := (sensorsOf q).filter fun j => j != k
  have ids := if others.isEmpty then (neighbours q).flatMap sensorsOf else others
  ids.map fun j => temps.getD j 0

/-- One sensor's sample (R434, R435): stored, and counted where it differs by more than 10 °C from its peers; the tenth in
a row takes the sensor out of use with event 0x9014. -/
def State.sampleSensor (s : State) (temps : List Int) (k : Nat) : State :=
  have t := temps.getD k 0
  have s := s.wr Reg.TMP_SENSOR.TEMP (unsignedOf 16 t) k
  if s.on Reg.TMP_SENSOR.OUT k then s
  else
    have d := t - meanOf (peersOf temps k)
    if 160 < d ∨ d < -160 then
      have n := Table.get k 0 s.power.disagree + 1
      have s := { s with power.disagree := Table.put k n s.power.disagree }
      if 10 ≤ n then (s.wr Reg.TMP_SENSOR.OUT 1 k).event1 0x9014 k else s
    else { s with power.disagree := Table.drop k s.power.disagree }

/-- The reading used for a sensor (R435): its own, or the highest neighbouring reading plus 5 °C where it is out of use. -/
def State.usedTemp (s : State) (temps : List Int) (k : Nat) : Int :=
  if s.on Reg.TMP_SENSOR.OUT k then
    (((neighbours (sensorQuarter k)).flatMap sensorsOf).map fun j => temps.getD j 0).foldl max (-640) + 80
  else temps.getD k 0

/-- The hottest reading in use and its sensor (R434). -/
def State.hottest (s : State) (temps : List Int) : Int × Nat :=
  (List.range 64).foldl (fun b k => if b.1 < s.usedTemp temps k then (s.usedTemp temps k, k) else b) (s.usedTemp temps 0, 0)

/-- The thermal state for a hottest reading in 1/16 °C, with each state left 3 °C below its entry temperature (R434). -/
def nextThermal (derate crit : Nat) (cur : Thermal) (t : Int) : Thermal :=
  have d : Int := 16 * derate
  have c : Int := 16 * crit
  match cur with
  | .trip => .trip
  | .critical => if 2480 ≤ t then .trip else if c - 48 ≤ t then .critical else if d - 48 ≤ t then .derating else .normal
  | .derating => if 2480 ≤ t then .trip else if c ≤ t then .critical else if d - 48 ≤ t then .derating else .normal
  | .normal => if 2480 ≤ t then .trip else if c ≤ t then .critical else if d ≤ t then .derating else .normal

/-- The thermal limit of R434: strapped budget less DERATE_STEP tokens for each whole °C above DERATE_C. -/
def State.thermalLimit (s : State) (t : Int) : Nat :=
  s.rd Reg.SQR_BUDGET.STRAP_TOKENS -
    s.rd Reg.TMP_CFG.DERATE_STEP * ((t / 16) - (s.rd Reg.TMP_CFG.DERATE_C : Int)).toNat

/-- Recalls every grant above class 1 (R434, Critical). -/
def State.recallUpper (s : State) : State :=
  { s with power.recalls := s.power.recalls ++
      s.power.granted.filter fun l => decide (2 ≤ l.cls) && !s.power.recalls.contains l }

/-- The thermal state that a temperature gives, with its limit on the budget (R434). -/
def State.setThermal (s : State) (t : Int) (new : Thermal) : State :=
  ({ s with
    power.thermal := new
    power.thermalCap := match new with
      | .normal => none
      | .derating | .critical | .trip => some (s.thermalLimit t) }).wr Reg.TMP_STATUS.STATE new.code

/-- The hottest sensor in use is shown (R434). -/
def State.showHottest (s : State) (t : Int) (k : Nat) : State :=
  ((s.wr Reg.TMP_MAX.TEMP (unsignedOf 16 t)).wr Reg.TMP_MAX.SENSOR k).peak Reg.TMP_PEAK.TEMP t.toNat

/-! Ageing -/

/-- 30 days in ticks (R6, R438). -/
def monthTicks : Nat := 30 * 86400 * 8000000000

/-- The shifts of a quarter from the one in force 30 days ago on (R438); the list is newest first. -/
def lastMonth (now : Nat) : List (Nat × Nat) → List (Nat × Nat)
  | [] => []
  | (t, v) :: rest => if t + monthTicks ≤ now then [(t, v)] else (t, v) :: lastMonth now rest

/-- A quarter's VOLT is set (R437, R438): its shift since first power-up follows, and is kept for the boot record. A shift more than 4 codes above
one of the last 30 days sets MARGIN_LOW early. -/
def State.setVolt (s : State) (q volt : Nat) : State :=
  have old := s.rd Reg.TMP_AGE.VOLT q
  have shift := (s.rd Reg.TMP_AGE.SHIFT q + volt) - old
  have past := lastMonth s.clock (Table.get q {} s.power.plans).shifts
  have past := if past.isEmpty then [(s.clock, s.rd Reg.TMP_AGE.SHIFT q)] else past
  have early := past.any fun e => e.2 + 4 < shift
  have s := (s.wr Reg.TMP_AGE.VOLT volt q).wr Reg.TMP_AGE.SHIFT shift q
  have s := { s with
    nor.shifts := Table.put q shift s.nor.shifts
    power.plans := Table.upd q {} (fun p => { p with shifts := (s.clock, shift) :: past }) s.power.plans }
  if early then s.wr Reg.TMP_AGE.MARGIN_LOW 1 q else s

/-- What the planner keeps of a quarter. -/
def State.setPlan (s : State) (q : Nat) (p : MarginPlan) : State := { s with power.plans := Table.put q p s.power.plans }

/-- The planner's action on one quarter (R437). -/
def State.planQuarter (s : State) (r : CanaryReport) : State :=
  have q := r.quarter
  if (s.quarter q).state = .active ∧ q ≠ 0 then
    have s := s.wr Reg.TMP_AGE.SLACK_PS (unsignedOf 8 r.slackPs) q
    have target : Int := s.rd Reg.TMP_AGE_CFG.TARGET_PS
    have v := s.rd Reg.TMP_AGE.VOLT q
    have p := Table.get q {} s.power.plans
    if r.slackPs < target then
      have s := s.setPlan q { p with above := 0 }
      if 30 ≤ v then (s.wr Reg.TMP_AGE.MARGIN_LOW 1 q).event1 0x9022 q
      else ((s.setVolt q (v + 1)).bump Reg.TMP_AGE_STAT.RAISES).event1 0x9020 q
    else if 2 * target < r.slackPs then
      if 2 ≤ p.above then
        have s := s.setPlan q { p with above := 0 }
        if p.floor < v then s.setVolt q (v - 1) else s
      else s.setPlan q { p with above := p.above + 1 }
    else s.setPlan q { p with above := 0 }
  else s

/-- The margin planner runs (R437): at the end of its interval for every quarter, or at once for one whose temperature has
moved. -/
def execMarginPlan (reports : List CanaryReport) (s : State) : Res :=
  if s.on Reg.TMP_AGE_CFG.PLAN_EN then .next (reports.foldl State.planQuarter s) else .next s

end Sys2Proof.Machine
end

