-- ==== Sys2Proof/Machine/Cmd.lean ====
section
/-!
DEFINITION. Machine/Cmd.lean: the meanings of chapter 03's commands: capsules, tags and arbitration, completion, holds, aborts,
the admin and Fabrics commands, flush, writes, reservations and power states.
-/
namespace Sys2Proof.Machine
open Sys2Proof

/-! Intake (R79 to R81, R99, R503) -/

/-- Whether a capsule's identifier is held by another command of its submission queue (R81). -/
def State.cidInUse (s : State) (k : Capsule) : Bool :=
  (s.cmd.tags.any fun e => e.2.cls == .initiator && e.2.cap.qpn == k.qpn && e.2.cap.cid == k.cid) ||
    ((s.cmd.intake0 ++ s.cmd.intake1).any fun w => w.cap.qpn == k.qpn && w.cap.cid == k.cid)

/-- Whether an opcode is one of the Fabrics commands. -/
def NvmeOp.isFabrics : NvmeOp → Bool
  | .connect | .propertyGet | .propertySet | .disconnect => true
  | _ => false

/-- Whether a capsule is refused with Command Sequence Error, by its controller's state (R503). -/
def State.outOfSequence (s : State) (k : Capsule) : Bool :=
  match s.ctrlOf k.qpn with
  | none => k.op != .connect
  | some n =>
    match Table.find n s.cmd.ctrls with
    | none => true
    | some c =>
      if c.adminQp = k.qpn then !k.op.isFabrics && !(c.en && c.rdy)
      else !(c.en && c.rdy && c.shn == 0)

/-- The SQ head of a queue advances (R80), round at the queue's size. -/
def NvmeQueue.advance (v : NvmeQueue) : NvmeQueue := { v with head := (v.head + 1) % (if v.size = 0 then 65536 else v.size) }

/-- A capsule that finds its role's intake full (R79): its SEND is turned away with an RNR NAK and is the next one expected again, with its
receive buffer back, as R68 has it for a SEND without a buffer. -/
def State.turnAway (s : State) (k : Capsule) : State :=
  have q := s.qp k.qpn
  have first := (q.expPsn + 2 ^ 24 - q.packets k.bytes) % 2 ^ 24
  ((s.setQp k.qpn { q with expPsn := first, recvMsn := (q.recvMsn + 2 ^ 24 - 1) % 2 ^ 24, recvBufs := q.recvBufs + 1 }).nak k.qpn
    (.rnrNak first q.rnrDelay)).bump Reg.CMD_INTAKE_RNR.COUNT

/-- A capsule enters the intake queue of its role, which advances SQHD (R79, R80). -/
def State.enterIntake (s : State) (k : Capsule) : State :=
  have n := s.ctrlOf k.qpn
  have isAdmin := match n.bind fun n => Table.find n s.cmd.ctrls with
    | some c => c.adminQp == k.qpn
    | none => true
  have w : Waiting := { cap := k, admin := isAdmin, tenant := (s.qp k.qpn).tenant, ctrl := n.getD 0, at_ := s.cmd.order }
  have q := s.qp k.qpn
  have s := s.setQp k.qpn { q with recvBufs := q.recvBufs + 1, nvme := q.nvme.advance }
  have s := { s with cmd.order := s.cmd.order + 1 }
  if k.qpn % 2 = 0 then ({ s with cmd.intake0 := s.cmd.intake0 ++ [w] }).noteTags
  else ({ s with cmd.intake1 := s.cmd.intake1 ++ [w] }).noteTags

/-- CAPSULE_ARRIVE (R79 to R81, R99, R503): a short capsule is an error of its queue pair; an identifier in use and a capsule out
of sequence are completed at once; a full intake queue draws an RNR NAK. -/
def execCapsuleArrive (cap : Capsule) (s : State) : Res :=
  if cap.bytes < 64 then .next (s.qpError cap.qpn (some 0x07))
  else if s.cidInUse cap then .next (s.refuseCapsule cap (generic 0x03))
  else if s.outOfSequence cap then .next (s.refuseCapsule cap (generic 0x0C))
  else if 32768 ≤ (if cap.qpn % 2 = 0 then s.cmd.intake0 else s.cmd.intake1).length then
    .next (s.turnAway cap)
  else .next (s.enterIntake cap)

/-! Arbitration (R78, R83) -/

/-- A weight of R83: 0 is treated as 1. -/
def weightOf (w : Nat) : Nat := max 1 w

/-- The weight of an arbitration class: 0 forwarded in, 1 internal, 2 + tenant. -/
def State.weight (s : State) (k : Nat) : Nat :=
  match k with
  | 0 => weightOf (s.rd Reg.CMD_ARB_CFG.FORWARDED_WEIGHT)
  | 1 => weightOf (s.rd Reg.CMD_ARB_CFG.INTERNAL_WEIGHT)
  | k + 2 =>
    match k % 4 with
    | 0 => weightOf (s.rd Reg.CMD_TENANT_WEIGHT.W0 (k / 4))
    | 1 => weightOf (s.rd Reg.CMD_TENANT_WEIGHT.W1 (k / 4))
    | 2 => weightOf (s.rd Reg.CMD_TENANT_WEIGHT.W2 (k / 4))
    | _ => weightOf (s.rd Reg.CMD_TENANT_WEIGHT.W3 (k / 4))

/-- The next capsule of the same queue behind one that waits. -/
def nextOfQueue (w : Waiting) : List Waiting → Option Waiting
  | [] => none
  | x :: r => if x = w then r.find? fun y => y.cap.qpn == w.cap.qpn else nextOfQueue w r

/-- Whether a waiting capsule can be assigned: the first half of a fused pair waits for the next capsule of its queue (R99). -/
def assignable (queue : List Waiting) (w : Waiting) : Bool := w.cap.fused != .first || (nextOfQueue w queue).isSome

/-- The oldest of some waiting capsules that can be assigned. -/
def oldest (queue : List Waiting) (which : Waiting → Bool) : Option Waiting :=
  (queue.filter which).foldl (fun best w =>
    match best with
    | some b => if w.at_ < b.at_ then some w else some b
    | none => some w) none

/-- The intake queues of both roles. -/
def State.intake (s : State) : List Waiting := s.cmd.intake0 ++ s.cmd.intake1

/-- Whether initiator capsules are taken from intake (R102, R175). -/
def State.dispatches (s : State) : Bool := s.on Reg.CMD_CTRL.DISPATCH_EN && !s.cmd.stopped

/-- The head of every arbitration class that may take a tag: class, capsule, tag class (R78, R83); after a warning none of an initiator or of the
peer (R175). -/
def State.classHeads (s : State) : List (Nat × Waiting × TagClass) :=
  have first (k : Nat) (cls : TagClass) (q : List Waiting) : List (Nat × Waiting × TagClass) :=
    match q.head? with
    | some w => if s.mayTag cls && assignable q w then [(k, w, cls)] else []
    | none => []
  have plain := s.intake.filter fun w => !w.admin
  have tenants := (plain.map Waiting.tenant).dedup.mergeSort (fun a b => decide (a ≤ b))
  (if s.cmd.stopped then [] else first 0 .forwardedIn s.cmd.fwdIn) ++ first 1 .internal s.cmd.internal ++
    (if s.dispatches && s.mayTag .initiator then
      tenants.filterMap fun t =>
        match oldest plain fun w => w.tenant == t with
        | some w => if assignable s.intake w then some (t + 2, w, .initiator) else none
        | none => none
    else [])

/-- The rounds that a class must wait for before its credit covers a cost (R83). -/
def roundsFor (credit : Int) (cost weight : Nat) : Nat :=
  if (cost : Int) ≤ credit then 0 else (((cost : Int) - credit).toNat + weight * 4096 - 1) / (weight * 4096)

/-- The classes that have work waiting, whether or not it may take a tag now. -/
def State.classesWaiting (s : State) : List Nat :=
  (if s.cmd.fwdIn.isEmpty then [] else [0]) ++ (if s.cmd.internal.isEmpty then [] else [1]) ++
    ((s.intake.filter fun w => !w.admin).map fun w => w.tenant + 2).dedup

/-- Deficit weighted round robin (R83): the rounds pass that the first class to be served needs; every class with work waiting earns its
credit in each and keeps what it has; the lowest class served in that round is charged. The answer is the class's capsule and the state. -/
def State.arbitrate (s : State) (heads : List (Nat × Waiting × TagClass)) : Option (Waiting × TagClass) × State :=
  have need (h : Nat × Waiting × TagClass) : Nat := roundsFor (Table.get h.1 0 s.cmd.credit) h.2.1.cap.cost (s.weight h.1)
  match heads with
  | [] => (none, s)
  | h :: r =>
    have rounds := (r.map need).foldl min (need h)
    have earned : Table Int := s.classesWaiting.foldl (fun t x =>
      Table.put x (Table.get x 0 s.cmd.credit + (rounds * (s.weight x * 4096) : Nat)) t) []
    match (h :: r).find? fun x => need x == rounds with
    | none => (none, s)
    | some x =>
      (some x.2, { s with cmd.credit := Table.upd x.1 0 (fun c => c - (x.2.1.cap.cost : Nat)) earned })

/-- The capsule that gets the next tag (R83): an admin or Fabrics capsule first, oldest first. -/
def State.choose (s : State) : Option (Waiting × TagClass) × State :=
  match if s.dispatches && s.mayTag .initiator then oldest s.intake (fun w => w.admin) else none with
  | some w => (some (w, .initiator), s)
  | none => s.arbitrate s.classHeads

/-- A capsule leaves the queue that it waits in. -/
def State.unqueue (s : State) (w : Waiting) : State :=
  { s with
    cmd.intake0 := s.cmd.intake0.erase w
    cmd.intake1 := s.cmd.intake1.erase w
    cmd.fwdIn := s.cmd.fwdIn.erase w
    cmd.internal := s.cmd.internal.erase w }

/-- The writes that a Flush covers, as it gets its tag (R93): those that hold a tag for its namespace, or for every namespace. -/
def State.coveredBy (s : State) (k : Capsule) : List (Nat × Nat) :=
  ((s.cmd.tags.map fun e => ((e.1, e.2.ticket), e.2)).filter fun e =>
    e.2.cap.op.writes && s.writeOpen e.1 && (k.nsid == 0xFFFFFFFF || e.2.cap.nsid == k.nsid)).map Prod.fst

/-- The run of a ring command learns the tag of its internal work. -/
def State.tagRun (s : State) (ticket t : Nat) : State :=
  { s with prg.runs := Table.mapVals (fun _ (r : Run) => if r.ticket = some ticket then { r with tag := some t, ticket := none } else r) s.prg.runs }

/-- A capsule gets the lowest free tag (R78), in state Decode. The head that forwarded a command learns its tag (R361). -/
def State.giveTag (s : State) (w : Waiting) (cls : TagClass) : Nat × State :=
  have t := lowestFree (s.cmd.tags.map Prod.fst) 0
  have c : Cmd := { cls := cls, cap := w.cap, ctrl := w.ctrl, tenant := w.tenant, admin := w.admin, order := w.at_,
                    peerTag := w.rtag, started := s.clock, hostId := w.hostId, ticket := w.at_,
                    covers := if w.cap.op = .flush then s.coveredBy w.cap else [] }
  have c := match w.made with
    | some m => { m with started := s.clock, order := w.at_, ticket := w.at_ }
    | none => c
  have s := (((s.unqueue w).setTag t c).noteTags).tagRun w.at_ t
  match w.rtag with
  | some r =>
    have h : FwdHeader := { rtag := r, otag := t, tenant := w.tenant, accepted := true }
    (t, s.sendRing (.forwardReply h))
  | none => (t, s)

/-- Internal work that its tag lets run starts (R77, R82). A run waits for its tiles. -/
def State.runJob (s : State) (t : Nat) : State :=
  match s.tag t with
  | none => s
  | some c =>
    if c.state != .running || c.begun then s
    else
      have s := s.setTag t { c with begun := true }
      match c.job with
      | some (.change op) => s.queueMeta t c.cap.nsid op
      | some .handOver => s.tryHandOff t
      | some (.items lanes) => s.queueItems t c.cap.nsid lanes
      | some (.fetch f loc) => s.fetchCopy f loc false
      | some .run | some (.reconcile _) | none => s

/-- Internal work that has a tag takes its lock, if it needs one, and starts, or is held (R84, R98). -/
def State.startInternal (s : State) (t : Nat) : State := (s.requestLock t).runJob t

/-- A tag's command is decoded (R73, R76, R99) and, where it passes, goes on to the ownership check (R87). A command forwarded in
was decoded by the head that received it. -/
def State.decodeTag (s : State) (t : Nat) : State :=
  match s.tag t with
  | none => s
  | some c =>
    match c.cls with
    | .initiator =>
      match s.checkFields c with
      | some st => s.refuse t st
      | none => s.advance t
    | .forwardedIn => s.advance t
    | .internal => s.startInternal t

/-- Whether the halves of a Compare-and-Write disagree (R99). -/
def fusedDisagree (a b : Capsule) : Bool :=
  a.nsid != b.nsid || a.slba != b.slba || a.nlb != b.nlb || decide (16 < a.nlb)

/-- The arbitration class that a capsule is charged to (R83): 0 forwarded in, 1 internal, 2 + tenant. -/
def chargeKey (w : Waiting) : TagClass → Nat
  | .forwardedIn => 0
  | .internal => 1
  | .initiator => w.tenant + 2

/-- A fused pair gets two tags, linked to each other (R84, R99); each half is charged (R83). Each half is judged by its own contents, and the
other half of one that fails ends with it. The first half asks for the lock of both. -/
def State.assignPair (s : State) (a b : Waiting) (cls : TagClass) : State :=
  let (x, s) := s.giveTag a cls
  let (y, s) := s.giveTag b cls
  have s := { s with cmd.credit := Table.upd (chargeKey b cls) 0 (fun c => c - (b.cap.cost : Nat)) s.cmd.credit }
  have s := s.modTag x fun c => { c with partner := some y }
  have s := s.modTag y fun c => { c with partner := some x }
  if fusedDisagree a.cap b.cap then (s.refuse x (generic 0x02)).refuse y (generic 0x02)
  else
    have judge (t : Nat) : Option NvmeStatus := if cls = .initiator then (s.tag t).bind s.checkFields else none
    match judge x, judge y with
    | some st, other => (s.refuse x st).refuse y (other.getD (generic 0x09))
    | none, some st => (s.refuse y st).refuse x (generic 0x09)
    | none, none => s.decodeTag x

/-- TAG_ASSIGN (R19, R20, R78, R83, R85 to R87, R89, R99): none is given on a lost head or while the QC role is between quarters; the next capsule
by arbitration gets a tag and is decoded; a fused pair waits until both halves may have one; a fused half without its partner in the next capsule
of its queue is aborted. -/
def execTagAssign (s : State) : Res :=
  let (pick, s') := if s.power.headLost || s.roleGap .qc 0 then (none, s) else s.choose
  match pick with
  | none => .next s
  | some (w, cls) =>
    have queue := match cls with
      | .initiator => s.intake
      | .forwardedIn => s.cmd.fwdIn
      | .internal => s.cmd.internal
    match w.cap.fused with
    | .none =>
      let (t, s) := s'.giveTag w cls
      .next (s.decodeTag t).noteTags
    | .second =>
      let (t, s) := s'.giveTag w cls
      .next (s.refuse t (generic 0x0A)).noteTags
    | .first =>
      match nextOfQueue w queue with
      | some b =>
        if b.cap.fused = .second ∧ b.cap.op = .write ∧ w.cap.op = .compare then
          (if (s'.giveTag w cls).2.mayTag cls then .next (s'.assignPair w b cls).noteTags else .next s)
        else
          let (t, s) := s'.giveTag w cls
          .next (s.refuse t (generic 0x0A)).noteTags
      | none =>
        let (t, s) := s'.giveTag w cls
        .next (s.refuse t (generic 0x0A)).noteTags

/-! Completion -/

/-- COMPLETION_QUEUED (R30, R82, R85, R99): the completion is queued to QT, the lock is released. -/
def execCompletionQueued (tag : Nat) (s : State) : Res := .next (s.queueCompletion tag)

/-- TAG_FREE (R82): the queue accepts the completion, and the tag is free once its reads are answered. Streams that a cancelled write has left
are given to segments that wait (R112). -/
def execTagFree (tag : Nat) (s : State) : Res := .next (s.freeTag tag).pumpLanes

/-- CMD_TAG_QUERY (R82, R102): the state of the named tag. -/
def execCmdTagQuery (value : Nat) (s : State) : Res :=
  have code := match s.tag (value % 2 ^ 17) with
    | some c => c.state.code
    | none => 0
  .next (if s.writable 10 then s.wr Reg.CMD_TAG_STATE.STATE code else s)

/-! Abort (R91, R92) -/

/-- The queue pair that a submission queue number names on an association. -/
def Controller.qpOf (k : Controller) (sqid : Nat) : Option Nat :=
  if sqid = 0 then some k.adminQp else (k.ioQps.find? fun q => q.1 == sqid).map Prod.snd

/-- An Abort ends with bit 0 of its result, and the outcome is counted (R91, R92). -/
def State.endAbort (s : State) (t : Nat) (ran : Bool) : State :=
  have s := s.finish t { sct := 0, sc := 0, dw0 := if ran then 1 else 0 }
  if ran then s.bump Reg.CMD_ABORT_STAT.NOT_ABORTED else s.bump Reg.CMD_ABORT_STAT.ABORTED

/-- A command is cancelled by an Abort: its completion is queued before the Abort's (R92). -/
def State.abortTag (s : State) (t : Nat) : State := (s.cancelWith t (generic 0x07)).queueCompletion t

/-- An Abort is checked against the command that it names (R91): CDW10 [15:0] submission queue, [31:16] command identifier. -/
def State.checkAbort (s : State) (t : Nat) : State :=
  s.begin t .abort fun c s =>
    match Table.find c.ctrl s.cmd.ctrls with
    | none => s.endAbort t true
    | some k =>
      have others := s.cmd.tags.countP fun e =>
        e.1 != t && e.2.ctrl == c.ctrl && e.2.cap.op == .abort && e.2.begun && e.2.state != .completing
      if 4 ≤ others then s.finish t { sct := 1, sc := 0x03 }
      else
        have qpn := k.qpOf (c.cap.cdw10 % 65536)
        have cid := c.cap.cdw10 / 65536
        match s.intake.find? fun w => some w.cap.qpn == qpn && w.cap.cid == cid && !w.cap.op.isAdmin with
        | some w => (((s.unqueue w).refuseCapsule w.cap (generic 0x07)).noteTags).endAbort t false
        | none =>
          match s.cmd.tags.find? fun e =>
              e.1 != t && e.2.cls == .initiator && some e.2.cap.qpn == qpn && e.2.cap.cid == cid with
          | none => s.endAbort t true
          | some (x, d) =>
            if d.cap.op.isAdmin then s.endAbort t true
            else
              match d.state with
              | .decode | .lockWait | .held | .running => (s.abortTag x).endAbort t false
              | .forwarded =>
                if d.fwdPast then s.endAbort t true
                else (s.sendRing (.forwardCancel x)).modTag t fun a => { a with abortOf := some (x, d.cap.cid) }
              | .free | .pastReturn | .completing => s.endAbort t true

/-- ABORT (R91, R92). -/
def execAbort (tag : Nat) (s : State) : Res := .next (s.checkAbort tag)

/-! Holds (R88, R89, R96, R98) -/

/-- Whether a held command still waits on something: a hold of R96 or R98, a group in Change, or its consistency cut (R271). -/
def State.stillHeld (s : State) (t : Nat) (c : Cmd) : Bool :=
  s.holds c || (!c.locked && c.cls != .internal && !(c.admin && c.cap.op != .formatNvm) && s.routeCmd c == .hold) ||
    (Table.get c.cap.cdw12 [] s.map.joined).contains t

/-- A held command goes on from where it was held: after its lock's grant, or before the ownership check. -/
def State.release (s : State) (t : Nat) : State :=
  match s.tag t with
  | none => s
  | some c => if c.cls == .internal then (s.start t).runJob t else if c.locked then s.start t else s.advance t

/-- Every command that is no longer held starts (R96): held Aborts are checked first, then the rest, each in the order they were
held. -/
def State.releaseHeld (s : State) : State :=
  have held := (s.cmd.tags.filter fun e => e.2.state == .held && !(s.stillHeld e.1 e.2)).mergeSort fun a b =>
    decide (a.2.heldAt ≤ b.2.heldAt)
  have aborts := held.filter fun e => e.2.cap.op == .abort
  have rest := held.filter fun e => e.2.cap.op != .abort
  have s := aborts.foldl (fun s e => (s.release e.1).checkAbort e.1) s
  (rest.foldl (fun s e => if (s.tag e.1).any fun c => c.state == .held then s.release e.1 else s) s).noteTags

/-- HOLD_RELEASE (R88, R89, R96). -/
def execHoldRelease (s : State) : Res := .next s.releaseHeld

/-! Power states (R97, R98) -/

/-- What the end of the entry to PS3 finds of a quarter (R97, R432): one still Closing is drained and goes Off, or is frozen with its SRAM
retained where it holds a run or tap (R324); a standby that runs goes Off; a quarter whose power-down was abandoned runs on. -/
def State.ps3Down (s : State) (q : Nat) : State :=
  match (s.quarter q).state, (s.quarter q).role with
  | .closing, _ =>
    if s.runsOn q then (s.setQuarter q { s.quarter q with state := .retain }).returnTokens q fun _ => false
    else (s.setQuarter q { s.quarter q with state := .off }).returnTokens q fun _ => false
  | .active, .standby | .waking, .standby => ((s.unitsOut q).setQuarter q { s.quarter q with state := .off }).returnTokens q fun _ => false
  | _, _ => s

/-- A quarter that PS3 powered down, or tries to, is Active again (R97, R324); the standby of its kind stays down. -/
def State.ps3Up (s : State) (q : Nat) : State :=
  if ((s.quarter q).state = .off ∧ (s.quarter q).role = .active) ∨ (s.quarter q).state = .closing ∨
      ((s.quarter q).state = .retain ∧ s.runsOn q) then
    (s.setQuarter q { s.quarter q with state := .active }).unitsIn q
  else s

/-- The time that the tiles of runs were frozen does not count against their budgets (R314). -/
def State.thawRuns (s : State) : State :=
  match s.prg.frozenAt with
  | none => s
  | some t =>
    { s with
      prg.frozenAt := none
      prg.runs := Table.mapVals (fun _ (r : Run) =>
        if r.startedAt.isSome then { r with frozen := r.frozen + (s.clock - t), acctFrom := r.acctFrom + (s.clock - t) } else r) s.prg.runs }

/-- The programs are frozen (R97). -/
def State.freezePrograms (s : State) : State := { s with prg.frozenAt := some s.clock }

/-- The standby quarters, which are down in PS3 (R97). -/
def State.standbys (s : State) : List Nat := (s.power.quarters.filter fun e => e.2.role == .standby).map Prod.fst

/-- The cap of a power state. -/
def State.setStateCap (s : State) (ps : Nat) : State := { s with power.stateCap := psCap ps }

/-- The cap of PS3 holds and the programs are frozen. -/
def State.ps3Capped (s : State) : State := ((s.setStateCap 3).freezePrograms).settleBudget

/-- The Set Features command that asked for PS3 completes. -/
def State.answerPs3 (s : State) : State :=
  match s.cmd.psWaiter with
  | some t => ({ s with cmd.psWaiter := none }).finish t success |>.queueCompletion t
  | none => s

/-- PS3 holds; with a command held, or another state asked for meanwhile, exit begins at once. -/
def State.settlePs3 (s : State) : State :=
  if s.cmd.psWake.isSome then { s with cmd.phase := .exiting }
  else if s.cmd.psAgain && s.effectivePs != 3 then { s with cmd.phase := .exiting, cmd.psWake := some s.effectivePs, cmd.psAgain := false } else ({ s with cmd.phase := .steady }).wr Reg.CMD_HOLD.POWER_STATE 0

/-- PS3_ENTRY_END (R97, R98): the bindery, tile and standby quarters are down and the cap holds; the Set Features completion is
queued; with a command held, exit begins at once. -/
def execPs3EntryEnd (s : State) : Res :=
  if s.cmd.phase = .entering then
    have s := (ps3Quarters ++ s.standbys).foldl State.ps3Down s
    .next s.ps3Capped.answerPs3.settlePs3
  else .next s

/-- PS3 ends in another power state. -/
def State.leavePs3 (s : State) (ps : Nat) : State :=
  { s with
    cmd.phase := .steady
    cmd.psWake := none
    power.stateCap := psCap ps }

/-- PS3_EXIT_END (R98): the quarters are up, the state that exit returns to is in force, the held commands start, and then a request made meanwhile
is looked at. -/
def execPs3ExitEnd (s : State) : Res :=
  if s.cmd.phase = .exiting then
    have ps := s.cmd.psWake.getD 0
    have s := (ps3Quarters.foldl State.ps3Up s).thawRuns.leavePs3 ps
    have s := (s.wr Reg.CMD_HOLD.POWER_STATE 0).wr Reg.CMD_PS_CFG.EFFECTIVE ps
    have again := s.cmd.psAgain
    have s : State := { s with cmd.psAgain := false }
    have s := s.settleBudget.releaseHeld
    .next (if again then s.settlePs none else s)
  else .next s

/-! Admin and Fabrics commands (R73, R74, R94, R95, R100, R503 to R505) -/

/-- The controller of a command. -/
def State.ctrlFor (s : State) (c : Cmd) : Controller := Table.get c.ctrl { adminQp := 0 } s.cmd.ctrls

/-- The state with a controller changed. -/
def State.modCtrl (s : State) (n : Nat) (f : Controller → Controller) : State :=
  { s with cmd.ctrls := Table.modify n f s.cmd.ctrls }

/-- A command ends well with its data sent to the initiator. -/
def State.answerData (s : State) (t kind sel : Nat) (fields : List Nat) (dw0 : Nat := 0) : State :=
  (s.send (.adminData t kind sel fields)).finish t { sct := 0, sc := 0, dw0 := dw0 }

/-- The opcodes that the Commands Supported log lists (R73): admin and Fabrics, then I/O. The firmware commands count while INIT_FW_EN is 1. -/
def State.supported (s : State) : List Nat × List Nat :=
  have fw := if s.on Reg.CMD_CTRL.INIT_FW_EN then [0x10, 0x11] else []
  ([0x02, 0x06, 0x08, 0x09, 0x0A, 0x0C] ++ fw ++ [0x18, 0x7F, 0x80],
   [0x00, 0x01, 0x02, 0x05, 0x08, 0x09, 0x0D, 0x0E, 0x11, 0x15, 0x80, 0x84, 0x86, 0x88, 0x91, 0x92])

/-- GET_LOG_PAGE (R73, R74, R89): CDW10 [7:0] names the log. The ANA log holds the change count and, per group in use, its
ANAGRPID, its state and its namespaces; the Changed Namespace log is emptied as it is read; the Firmware Slot log gives the slot that runs and
the one that a commit has named; the Commands Supported log the opcodes of R73; the Reservation Notification log its oldest entry (count, type,
entries left, namespace), which it drops. The contents of the Error, SMART and 0xC0 logs are not in the spec. -/
def execGetLogPage (tag : Nat) (s : State) : Res :=
  .next (s.begin tag .getLogPage fun c s =>
    match c.cap.cdw10 % 256 with
    | 0x0C =>
      have groups := s.groupsUsed
      have part (g : Nat) : List Nat :=
        have ids := (s.map.ns.filter fun e => e.2.group == g).map Prod.fst
        [g + 1, s.anaCode g, ids.length] ++ ids
      s.answerData tag 2 0x0C ([(s.ctrlFor c).anaCount, groups.length] ++ groups.flatMap part)
    | 0x04 => (s.answerData tag 2 0x04 (s.ctrlFor c).changedNs).modCtrl c.ctrl fun k => { k with changedNs := [] }
    | 0x03 => s.answerData tag 2 0x03 [s.rd Reg.BOOT_STATUS.RUNNING_SLOT, s.rd Reg.BOOT_STATUS.CONFIRMED_SLOT, s.rd Reg.BOOT_STATUS.PENDING]
    | 0x05 =>
      have l := s.supported
      s.answerData tag 2 0x05 ([l.1.length] ++ l.1 ++ [l.2.length] ++ l.2)
    | 0x80 =>
      have k := s.ctrlFor c
      match k.resvLog with
      | [] => s.answerData tag 2 0x80 [0, 0, 0, 0]
      | e :: r => (s.answerData tag 2 0x80 [k.resvCount - r.length, e.1, r.length, e.2]).modCtrl c.ctrl fun k => { k with resvLog := r }
    | 0x01 | 0x02 | 0xC0 =>
      let (v, s) := s.fresh
      s.answerData tag 2 (c.cap.cdw10 % 256) [v]
    | _ => s.finish tag { sct := 1, sc := 0x09 })

/-- A power state's descriptor (R97): its most power in milliwatts, whether commands run in it, and its entry and exit latencies in
microseconds. A token of the strapped budget is 125 mW (R425). -/
def State.psDescriptor (s : State) (ps : Nat) : List Nat :=
  have strapped := 125 * s.rd Reg.SQR_BUDGET.STRAP_TOKENS
  match ps with
  | 0 => [strapped, 1, 0, 0]
  | 1 => [min 340000 strapped, 1, 50, 50]
  | 2 => [280000, 1, 50, 50]
  | _ => [150000, 0, 300, 700]

/-- IDENTIFY (R72, R74): CDW10 [7:0] names the structure: a namespace (size, block size, DLFEAT, NAWUN, NAWUPF, NABSN, NABO,
ANAGRPID; one LBA format, format 0 of 2^12 bytes in use, without metadata; no protection information), the controller (its ID, the limits of
R73 and R74, and the power states of R97), the active namespaces above the NSID, or a namespace's
descriptors. -/
def execIdentify (tag : Nat) (s : State) : Res :=
  .next (s.begin tag .identify fun c s =>
    match c.cap.cdw10 % 256 with
    | 0 =>
      match Table.find c.cap.nsid s.map.ns with
      | some n => s.answerData tag 6 0 [n.size, 4096, 0x09, 31, 31, 31, 0, n.group + 1, 1, 0, 12, 0, 0, 0]
      | none => s.finish tag (generic 0x0B)
    | 1 => s.answerData tag 6 1 ([c.ctrl, 9, 516, 3, 3, 31, 31, 1024, 1024, 1, 1, 3, 16, 256] ++ (List.range 4).flatMap s.psDescriptor)
    | 2 => s.answerData tag 6 2 ((s.map.ns.map Prod.fst).filter fun n => decide (c.cap.nsid < n))
    | 3 =>
      match Table.find c.cap.nsid s.map.ns with
      | some _ => s.answerData tag 6 3 [c.cap.nsid]
      | none => s.finish tag (generic 0x0B)
    | _ => s.finish tag (generic 0x02))

/-- The notices that Asynchronous Event Configuration enables (R505): Namespace Attribute, Firmware Activation, ANA Change. -/
def aecBits : Nat := 2 ^ 8 + 2 ^ 9 + 2 ^ 11

/-- Set Features on a feature of R505: none where the value is refused. CDW11 holds the value. -/
def Controller.setFeature (k : Controller) (fid v : Nat) : Option (Controller × Nat) :=
  match fid with
  | 0x01 => some ({ k with arb := v }, 0)
  | 0x02 =>
    if v ≤ 3 then some ({ k with ps := v, lastOpPs := if v ≤ 2 then v else k.lastOpPs }, 0) else none
  | 0x07 =>
    have g := k.grant.getD (min (v % 65536 + 1) 128)
    some ({ k with grant := some g }, (g - 1) * 65537)
  | 0x0B => if v &&& aecBits = v then some ({ k with aec := v }, 0) else none
  | 0x0F => if 1000 ≤ v ∧ v ≤ 3600000 then some ({ k with kato := (v + 99) / 100 * 100 }, 0) else none
  | 0x82 => if v &&& 14 = v then some ({ k with resvMask := v }, 0) else none
  | 0x83 => if v ≤ 1 then some (k, 0) else none
  | _ => none

/-- Reservation Persistence (R73, R505): whether the reservations of the named namespace, or of all, persist through a loss of power changes
by a mirrored record for each, and the command completes when all have taken effect. -/
def State.setPersist (s : State) (t : Nat) (c : Cmd) : State :=
  have on := c.cap.cdw11 == 1
  have all := (s.map.ns.map Prod.fst).filter fun n => c.cap.nsid == 0xFFFFFFFF || c.cap.nsid == n
  if all.isEmpty then s.finish t success
  else
    all.foldl (fun s n =>
      s.askInternal { internalCmd (.change (.reservation n (.persist on))) none n (s.tenantOf n) with serves := some (t, c.ticket) }) s

/-- SET_FEATURES (R97, R98, R505): CDW10 [7:0] feature, [30:8] reserved, [31] SV; CDW12 to CDW15 reserved. A request that makes the head enter PS3
completes when entry ends. Of a command that R505 refuses on two grounds SV answers first, and Reservation Persistence with an NSID that names no
active namespace answers Invalid Namespace (DESIGN CHOICE, log entry 115: R505 gives neither). -/
def execSetFeatures (tag : Nat) (s : State) : Res :=
  .next (s.begin tag .setFeatures fun c s =>
    if c.cap.cdw10.testBit 31 then s.finish tag { sct := 1, sc := 0x0D }
    else if c.cap.cdw10 / 256 % 2 ^ 23 ≠ 0 ∨ c.cap.cdw12 ≠ 0 ∨ c.cap.cdw13 ≠ 0 ∨ c.cap.cdw14 ≠ 0 ∨ c.cap.cdw15 ≠ 0 then s.finish tag (generic 0x02)
    else if c.cap.cdw10 % 256 = 0x83 ∧ c.cap.nsid ≠ 0xFFFFFFFF ∧ Table.has c.cap.nsid s.map.ns = false then s.finish tag (generic 0x0B)
    else
      match (s.ctrlFor c).setFeature (c.cap.cdw10 % 256) c.cap.cdw11 with
      | none => s.finish tag (generic 0x02)
      | some (k, dw0) =>
        have s := s.modCtrl c.ctrl fun _ => k
        have s := if c.cap.cdw10 % 256 = 0x02 then s.settlePs (some tag) else s
        if c.cap.cdw10 % 256 = 0x83 then s.setPersist tag c
        else if s.cmd.phase = .entering ∧ s.cmd.psWaiter = some tag then s
        else s.finish tag { sct := 0, sc := 0, dw0 := dw0 })

/-- The value that Get Features returns (R97, R505). -/
def Controller.getFeature (k : Controller) : Nat → Option Nat
  | 0x01 => some k.arb
  | 0x02 => some k.ps
  | 0x07 => some ((k.grant.getD 128 - 1) * 65537)
  | 0x0B => some k.aec
  | 0x0F => some k.kato
  | 0x82 => some k.resvMask
  | _ => none

/-- GET_FEATURES (R505): CDW10 [7:0] feature; the rest of CDW10, and CDW11 to CDW15, reserved. Reservation Persistence is that of the named
namespace. -/
def execGetFeatures (tag : Nat) (s : State) : Res :=
  .next (s.begin tag .getFeatures fun c s =>
    if c.cap.cdw10 / 256 ≠ 0 ∨ c.cap.cdw11 ≠ 0 ∨ c.cap.cdw12 ≠ 0 ∨ c.cap.cdw13 ≠ 0 ∨ c.cap.cdw14 ≠ 0 ∨ c.cap.cdw15 ≠ 0 then s.finish tag (generic 0x02)
    else if c.cap.cdw10 % 256 = 0x83 then
      (if Table.has c.cap.nsid s.map.ns then
        s.finish tag { sct := 0, sc := 0, dw0 := if (Table.get c.cap.nsid ({} : Reservation) s.cmd.resv).ptpl then 1 else 0 }
      else s.finish tag (generic 0x0B))
    else
    match (s.ctrlFor c).getFeature (c.cap.cdw10 % 256) with
    | some v => s.finish tag { sct := 0, sc := 0, dw0 := v }
    | none => s.finish tag (generic 0x02))

/-- ASYNCHRONOUS_EVENT_REQUEST (R73): it stays outstanding until an event occurs; one that already waits answers it at once. A
fifth outstanding request is over the limit. -/
def execAsynchronousEventRequest (tag : Nat) (s : State) : Res :=
  .next (s.begin tag .asyncEventRequest fun c s =>
    have k := s.ctrlFor c
    match k.notices with
    | n :: r => (s.modCtrl c.ctrl fun k => { k with notices := r }).finish tag { sct := 0, sc := 0, dw0 := n.1, dw1 := n.2 }
    | [] =>
      if 4 ≤ k.aers.length then s.finish tag { sct := 1, sc := 0x05 }
      else s.modCtrl c.ctrl fun k => { k with aers := k.aers ++ [tag] })

/-- KEEP_ALIVE (R100): the timer starts again. -/
def execKeepAlive (tag : Nat) (s : State) : Res :=
  .next (s.begin tag .keepAlive fun c s =>
    (s.modCtrl c.ctrl fun k => { k with keepAlives := k.keepAlives + 1 }).finish tag success)

/-- KEEP_ALIVE_EXPIRY (R94, R100): the controller is reset. A timer of 0 does not run. -/
def execKeepAliveExpiry (ctrl : Nat) (s : State) : Res :=
  match Table.find ctrl s.cmd.ctrls with
  | some k => if k.kato = 0 then .next s else .next (s.resetController ctrl)
  | none => .next s

/-- FABRICS_CONNECT (R503, R505): CDW10 [31:16] names the queue; CDW12 is the keep-alive time; the data holds the host ID in its
first 16 bytes and the controller ID in the next 2. Queue 0 makes a controller; any other adds an I/O queue of it, within the
grant, or within 128 where no Number of Queues has been granted yet (DESIGN CHOICE, log entry 22: R505 gives the limit of a grant only). -/
def execFabricsConnect (tag : Nat) (s : State) : Res :=
  .next (s.begin tag .connect fun c s =>
    have qid := c.cap.cdw10 / 65536
    have bad : NvmeStatus := { sct := 1, sc := 0x82 }
    if qid = 0 then
      if (s.ctrlOf c.cap.qpn).isSome then s.finish tag bad
      else
        have n := s.cmd.nextCtrl
        have k : Controller := { adminQp := c.cap.qpn, kato := c.cap.cdw12, hostId := num (slice c.cap.data 0 16) }
        have s := { s with
          cmd.ctrls := Table.put n k s.cmd.ctrls
          cmd.nextCtrl := n + 1 }
        (s.modTag tag fun c => { c with ctrl := n }).finish tag { sct := 0, sc := 0, dw0 := n }
    else
      have n := num (slice c.cap.data 16 2)
      match Table.find n s.cmd.ctrls with
      | none => s.finish tag bad
      | some k =>
        if !k.connected || (s.ctrlOf c.cap.qpn).isSome || decide (k.grant.getD 128 < qid) || (k.ioQps.any fun q => q.1 == qid) then
          s.finish tag bad
        else
          have s := s.modCtrl n fun k => { k with ioQps := k.ioQps ++ [(qid, c.cap.qpn)] }
          (s.modTag tag fun c => { c with ctrl := n }).finish tag { sct := 0, sc := 0, dw0 := n })

/-- The controller status register: [0] RDY, [3:2] SHST. -/
def Controller.csts (k : Controller) : Nat := (if k.rdy then 1 else 0) + 4 * k.shst

/-- PROPERTY_GET (R503): CDW11 names the property; CAP and VS have no value in the spec. -/
def execPropertyGet (tag : Nat) (s : State) : Res :=
  .next (s.begin tag .propertyGet fun c s =>
    match c.cap.cdw11 with
    | 0x14 => s.finish tag { sct := 0, sc := 0, dw0 := (s.ctrlFor c).cc }
    | 0x1C => s.finish tag { sct := 0, sc := 0, dw0 := (s.ctrlFor c).csts }
    | 0x00 | 0x08 =>
      let (v, s) := s.fresh
      s.finish tag { sct := 0, sc := 0, dw0 := v }
    | _ => s.finish tag (generic 0x02))

/-- A write of CC (R94, R95, R97): EN from 1 to 0 resets the controller, EN from 0 to 1 enables it; SHN notifies a shutdown, an
abrupt one being a reset, after which SHST is 0b10. -/
def State.writeCc (s : State) (t ctrl v : Nat) : State :=
  match Table.find ctrl s.cmd.ctrls with
  | none => s
  | some k =>
    have s := s.modCtrl ctrl fun k => { k with cc := v }
    if k.en && v % 2 == 0 then s.resetController ctrl (some t)
    else
      have s := if !k.en && v % 2 == 1 && !k.resetting then
          (s.modCtrl ctrl fun k => { k with en := true, rdy := true, shn := 0, shst := 0 }).settlePs none
        else s
      match v / 2 ^ 14 % 4 with
      | 1 => if k.shn = 0 then (s.modCtrl ctrl fun k => { k with shn := 1, shst := 1 }).settlePs none else s
      | 2 => if k.shn ≠ 2 then (s.resetController ctrl (some t)).modCtrl ctrl fun k => { k with shn := 2, shst := 1 } else s
      | _ => s

/-- PROPERTY_SET (R94, R95, R503): CDW11 names the property, CDW12 is its value. -/
def execPropertySet (tag : Nat) (s : State) : Res :=
  .next (s.begin tag .propertySet fun c s =>
    if c.cap.cdw11 = 0x14 then (s.writeCc tag c.ctrl c.cap.cdw12).finish tag success else s.finish tag (generic 0x02))

/-- DISCONNECT (R94): the association ends and the controller is reset. -/
def execDisconnect (tag : Nat) (s : State) : Res :=
  .next (s.begin tag .disconnect fun c s =>
    ((s.resetController c.ctrl (some tag)).modCtrl c.ctrl fun k => { k with connected := false }).finish tag success)

/-- CSTS_RDY_CLEAR (R94): no tag of the resetting controller is left, and RDY falls; SHST is 0b10 after an abrupt notification (R95); an
association that has ended is gone. -/
def execCstsRdyClear (ctrl : Nat) (s : State) : Res :=
  match Table.find ctrl s.cmd.ctrls with
  | none => .next s
  | some k =>
    if k.resetting && !(s.cmd.tags.any fun e => e.2.cls == .initiator && e.2.ctrl == ctrl) then
      if k.connected then .next (s.modCtrl ctrl fun k => { k with rdy := false, resetting := false, shst := if k.shn = 2 then 2 else k.shst })
      else .next { s with cmd.ctrls := Table.drop ctrl s.cmd.ctrls }
    else .next s

/-- SHUTDOWN_COMPLETE (R95): every command accepted has completed, the event requests apart, and SHST becomes 0b10. -/
def execShutdownComplete (ctrl : Nat) (s : State) : Res :=
  match Table.find ctrl s.cmd.ctrls with
  | none => .next s
  | some k =>
    have left := s.cmd.tags.any fun e => e.2.cls == .initiator && e.2.ctrl == ctrl && !(k.aers.contains e.1)
    if k.shn == 1 && k.shst == 1 && !left && !(s.intake.any fun w => w.ctrl == ctrl) then
      .next (s.modCtrl ctrl fun k => { k with shst := 2 })
    else .next s

/-- FORMAT_NVM (R72): the live root is replaced by an empty tree at the commit point of its metadata record. -/
def execFormatNvm (tag : Nat) (s : State) : Res :=
  .next (s.begin tag .formatNvm fun c s => s.queueMeta tag c.cap.nsid (.format c.cap.nsid))

/-! I/O commands without a read of blocks -/

/-- FLUSH (R93): it completes when every write that it covered as it got its tag has reached its commit point or ended. -/
def execFlush (tag : Nat) (s : State) : Res := .next (s.begin tag .flush fun _ s => s.settleFlush)

/-- WRITE (R26, R104, R112): the write is divided into segments on lanes, and its data is fetched by RDMA Read, or taken from the
capsule, as its segments become streams. -/
def execWrite (tag : Nat) (s : State) : Res :=
  .next (s.begin tag .write fun c s =>
    have n := c.cap.nlb * 4096
    if c.cls = .forwardedIn then
      have fresh : WriteJob := { segs := [{ off := 0, len := n, lane := s.pickLane [] }] }
      have w := c.write.getD fresh
      have s := s.modTag tag fun c => { c with write := some w }
      (w.chunks.foldl (fun s k => s.takeForwarded tag c.tenant k) s).tryHandOff tag
    else
    have segs := s.assignLanes false (divide s.segBytes (s.grid c.tenant) (c.cap.slba * 4096) n) []
    (s.modTag tag fun c => { c with write := some { segs := segs } }).pumpTag tag)

/-- The extents of kind 0 or 1 over a run of bytes: each is at most 0xFFFF_F000 bytes long (R251). -/
def bareExtents (loc : Loc) (addr len : Nat) : List Extent :=
  (List.range ((len + 0xFFFFEFFF) / 0xFFFFF000)).map fun k =>
    { addr := addr + k * 0xFFFFF000, len := min 0xFFFFF000 (len - k * 0xFFFFF000), loc := loc }

/-- WRITE_ZEROES (R73, R74): CDW12 [25] deallocates; either way the range reads as zeros from its commit point. -/
def execWriteZeroes (tag : Nat) (s : State) : Res :=
  .next (s.begin tag .writeZeroes fun c s =>
    have loc := if c.cap.cdw12.testBit 25 then Loc.unmapped else Loc.zero
    s.handOffExtents tag c.cap.nsid (bareExtents loc (c.cap.slba * 4096) (c.cap.nlb * 4096)))

/-- DATASET_MANAGEMENT (R73, R84): with the Deallocate attribute its ranges are deallocated; other attributes are ignored. -/
def execDatasetManagement (tag : Nat) (s : State) : Res :=
  .next (s.begin tag .datasetManagement fun c s =>
    have es := c.cap.ranges.flatMap fun r => bareExtents .unmapped (r.1 * 4096) (r.2 * 4096)
    if c.cap.cdw11.testBit 2 && !es.isEmpty then s.handOffExtents tag c.cap.nsid es else s.finish tag success)

/-! Reservations (R73) -/

/-- The completion dword of a reservation notification: event type 6, log 0x80. -/
def resvNotice : Nat := 0x800006

/-- Hosts are told of a reservation change (R73, R505): `bit` is the mask bit that silences it, and the
type that the log shows. -/
def State.tellHosts (s : State) (nsid : Nat) (hosts : List Nat) (bit : Nat) : State :=
  s.cmd.ctrls.foldl (fun s e =>
    if hosts.contains e.2.hostId && !(e.2.resvMask.testBit bit) then
      (s.notice e.1 resvNotice).modCtrl e.1 fun k => { k with resvLog := k.resvLog ++ [(bit, nsid)], resvCount := k.resvCount + 1 }
    else s) s

/-- A reservation change is mirrored as a metadata record (R163) and takes effect on its completion; until that is queued the command can still
be aborted (R90). -/
def State.queueResv (s : State) (t nsid : Nat) (op : ResvOp) : State := s.queueMeta t nsid (.reservation nsid op)

/-- RESERVATION_REGISTER (R73): the data holds the current key and the new one; CDW10 [31:30] changes whether reservations persist through a
loss of power (2 no, 3 yes). -/
def execReservationRegister (tag : Nat) (s : State) : Res :=
  .next (s.begin tag .resvRegister fun c s =>
    have cptpl := c.cap.cdw10 / 2 ^ 30 % 4
    if 3 ≤ c.cap.cdw10 % 8 ∨ cptpl = 1 then s.finish tag (generic 0x02)
    else
      have op : ResvOp := .register ((s.hostOf c).getD 0) c.cap.cdw10 (num (slice c.cap.data 0 8)) (num (slice c.cap.data 8 8))
        (if cptpl = 0 then none else some (cptpl == 3))
      match (s.resvDue c.cap.nsid).change op with
      | none => s.finish tag (generic 0x83)
      | some _ => s.queueResv tag c.cap.nsid op)

/-- RESERVATION_REPORT (R73): generation, type, persistence, holder and the registrations. -/
def execReservationReport (tag : Nat) (s : State) : Res :=
  .next (s.begin tag .resvReport fun c s =>
    have r := s.resvOf c.cap.nsid
    s.answerData tag 0x0E c.cap.nsid ([r.gen, r.rtype, if r.ptpl then 1 else 0, r.holder.getD 0, r.regs.length] ++ r.regs.flatMap fun e => [e.1, e.2]))

/-- RESERVATION_ACQUIRE (R73): CDW10 [2:0] 0 acquires, 1 preempts, 2 preempts and aborts; [15:8] type; the data holds the current
key and the key to preempt. -/
def execReservationAcquire (tag : Nat) (s : State) : Res :=
  .next (s.begin tag .resvAcquire fun c s =>
    have r := s.resvDue c.cap.nsid
    have host := ((s.hostOf c).getD 0)
    have rtype := c.cap.cdw10 / 256 % 256
    have act := c.cap.cdw10 % 8
    have prKey := num (slice c.cap.data 8 8)
    if rtype = 0 ∨ 6 < rtype ∨ 2 < act then s.finish tag (generic 0x02)
    else if r.keyOf host ≠ some (num (slice c.cap.data 0 8)) then s.finish tag (generic 0x83)
    else if act = 0 then
      match r.holder, r.change (.acquire host rtype) with
      | none, _ => s.queueResv tag c.cap.nsid (.acquire host rtype)
      | some _, some _ => s.finish tag success
      | some _, none => s.finish tag (generic 0x83)
    else
      have gone := r.preempted host prKey
      have s := s.tellHosts c.cap.nsid gone 1
      have victims := (s.cmd.tags.filter fun e => act == 2 && e.2.cls == .initiator && e.2.cap.nsid == c.cap.nsid &&
        gone.contains ((s.hostOf e.2).getD 0) && (match e.2.state with
          | .decode | .lockWait | .held | .running => true
          | _ => false)).map Prod.fst
      (victims.foldl State.abortTag s).queueResv tag c.cap.nsid (.preempt host prKey rtype))

/-- RESERVATION_RELEASE (R73): CDW10 [2:0] 0 releases, 1 clears; [15:8] type. -/
def execReservationRelease (tag : Nat) (s : State) : Res :=
  .next (s.begin tag .resvRelease fun c s =>
    have r := s.resvDue c.cap.nsid
    have host := ((s.hostOf c).getD 0)
    if 2 ≤ c.cap.cdw10 % 8 then s.finish tag (generic 0x02)
    else if r.keyOf host ≠ some (num (slice c.cap.data 0 8)) then s.finish tag (generic 0x83)
    else
      have others := (r.regs.map Prod.fst).filter fun h => h != host
      if c.cap.cdw10 % 8 = 1 then
        (s.tellHosts c.cap.nsid others 3).queueResv tag c.cap.nsid .clear
      else if r.holder ≠ some host then s.finish tag success
      else if r.rtype ≠ c.cap.cdw10 / 256 % 256 then s.finish tag (generic 0x02)
      else (s.tellHosts c.cap.nsid others 2).queueResv tag c.cap.nsid (.release host))

end Sys2Proof.Machine
end

