-- ==== Sys2Proof/Machine/OwnCore.lean ====
section
/-!
DEFINITION. Machine/OwnCore.lean: pools and the witness set, the ownership table, and the start of an epoch, as the meanings share
them (chapters 06, 07 and 13).
-/
namespace Sys2Proof.Machine
open Sys2Proof

/-! Leaves -/

/-- Whether this head uses a leaf (R203, R230): it is Present, has told what it is and is not dead, and is not miscabled. -/
def State.leafUsable (s : State) (l : Nat) : Bool :=
  (s.leaf l).cond == .present && (s.leaf l).id.any (fun i => !i.dead) && !(s.on Reg.LFL_LEAF.MISCABLED l)

/-- The lane of a leaf (R218). -/
def leafLane (l : Nat) : Nat := l / 16

/-- Leaves in an order that spreads them over their lanes: the first of each lane, then the second of each, and so on (R198). -/
def spreadLanes (ls : List Nat) : List Nat :=
  have ranked := ls.zipIdx.map fun p => (p.1, (ls.take p.2).countP fun x => leafLane x == leafLane p.1)
  (ranked.mergeSort fun a b => decide (a.2 ≤ b.2)).map Prod.fst

/-! The witness set (R368) -/

/-- The witness set in force: the valid entries of OWN_WITNESS_LEAF. -/
def State.witnessSet (s : State) : List Nat :=
  ((List.range 15).filter fun i => s.on Reg.OWN_WITNESS_LEAF.VALID i).map fun i => s.rd Reg.OWN_WITNESS_LEAF.LEAF i

/-- The majority of the witness set (R368). -/
def State.majority (s : State) : Nat := (s.witnessSet.length + 1) / 2

/-- A witness set is put into force. -/
def State.setWitness (s : State) (ls : List Nat) : State :=
  (List.range 15).foldl (fun s i =>
    match ls[i]? with
    | some l => ((s.wr Reg.OWN_WITNESS_LEAF.LEAF l i).wr Reg.OWN_WITNESS_LEAF.VALID 1 i).wr Reg.OWN_WITNESS_LEAF.WON 0 i
    | none => ((s.wr Reg.OWN_WITNESS_LEAF.LEAF 0 i).wr Reg.OWN_WITNESS_LEAF.VALID 0 i).wr Reg.OWN_WITNESS_LEAF.WON 0 i) s

/-- The proposer chooses the witness set (R368): Present leaves of the metadata pool, spread over lanes; fewer than COUNT give the
largest odd number of them with event 0x804C, and none keeps the set. -/
def State.chooseWitness (s : State) : State :=
  match s.metaPool with
  | none => s
  | some p =>
    have cands := spreadLanes ((s.members p).filter fun l => s.leafUsable l && s.on Reg.LFL_LEAF.REACH_PEER l)
    have n := s.rd Reg.OWN_WITNESS_CFG.COUNT
    if n ≤ cands.length then s.setWitness (cands.take n)
    else
      have k := if cands.length % 2 = 1 then cands.length else cands.length - 1
      if cands.isEmpty then s else (s.setWitness (cands.take k)).event1 0x804C k

/-! The ownership table (R359) -/

/-- An entry of the ownership table is put in place; OWN_GROUP_CFG follows (R380). -/
def State.setGroup (s : State) (g : Nat) (x : Group) : State :=
  ((({ s with own.groups := Table.put g x s.own.groups }).wr Reg.OWN_GROUP_CFG.OWNER (if x.owner then 1 else 0) g).wr
    Reg.OWN_GROUP_CFG.STATE x.state.code g).wr Reg.OWN_GROUP_CFG.GEN (x.gen % 65536) g

/-- The sum of the generations of all groups (R365). -/
def State.genSum (s : State) : Nat := (s.own.groups.map fun e => e.2.gen).sum % 2 ^ 32

/-- What this head thinks of its peer (OWN_STATE.PEER, R380). -/
inductive PeerView where
  | unknown | healthy | suspect | lost | winner
  deriving DecidableEq, Repr

/-- The code of a peer view in OWN_STATE.PEER (R380). -/
def PeerView.code : PeerView → Nat
  | .unknown => 0 | .healthy => 1 | .suspect => 2 | .lost => 3 | .winner => 4

/-- OWN_STATE.PEER is set. -/
def State.setPeer (s : State) (v : PeerView) : State := s.wr Reg.OWN_STATE.PEER v.code

/-! A location under another name -/

/-- A chunk with its places renamed. -/
def Chunk.mapLoc (f : Loc → Loc) (k : Chunk) : Chunk :=
  match k.state with
  | .hit l => { k with state := .hit (f l) }
  | .verifying l => { k with state := .verifying (f l) }
  | .waiting | .zero | .asked | .stored _ _ => k

/-- A command with its places renamed. -/
def Cmd.mapLoc (f : Loc → Loc) (c : Cmd) : Cmd :=
  have ext (e : Extent) : Extent := { e with loc := f e.loc }
  have job (w : WriteJob) : WriteJob := { w with
    chunks := w.chunks.map (Chunk.mapLoc f)
    delta := w.delta.map ext }
  { c with
    write := c.write.map job
    pieces := c.pieces.map fun (p : ReadPiece) => { p with loc := f p.loc } }

/-- A mirror record with the places in its delta renamed. -/
def MirRec.mapLoc (f : Loc → Loc) (r : MirRec) : MirRec :=
  match r.body with
  | .write d cs => { r with body := .write (d.map fun (e : Extent) => { e with loc := f e.loc }) cs }
  | .metadata _ | .release => r

/-- Every place that the head keeps is renamed: trees, counts, dedup, keys, commands, own records and signatures. -/
def State.mapLocs (s : State) (f : Loc → Loc) : State :=
  have ext (e : Extent) : Extent := { e with loc := f e.loc }
  have entry (e : JournalEntry) : JournalEntry := { e with loc := f e.loc }
  have pages := Table.mapVals (fun _ (p : MapPage) => { p with exts := p.exts.map ext }) s.map.pages
  have counts := s.map.counts.map fun (e : Loc × Nat) => (f e.1, e.2)
  have ddp := { s.ddp with
    index := Table.mapVals (fun _ (e : IndexEntry) => { e with loc := f e.loc }) s.ddp.index
    ghosts := Table.mapVals (fun _ (e : IndexEntry) => { e with loc := f e.loc }) s.ddp.ghosts
    journal := s.ddp.journal.map entry
    flash := s.ddp.flash.map entry
    asked := Table.mapVals (fun _ e => entry e) s.ddp.asked
    deferred := s.ddp.deferred.map f
    homeRefs := s.ddp.homeRefs.map fun (r : HomeRef) => { r with cur := f r.cur } }
  have stored := s.keys.stored.map fun (m : StoredMark) => { m with loc := f m.loc }
  have rekeyed := s.keys.rekeyed.map fun (e : Loc × Container) => (f e.1, e.2)
  have tags := Table.mapVals (fun _ (c : Cmd) => c.mapLoc f) s.cmd.tags
  have own := Table.mapVals (fun _ (g : OwnSeg) => { g with recs := g.recs.map (MirRec.mapLoc f) }) s.wc.own
  have staged := Table.mapVals (fun _ (l : List (Loc × Container)) => l.map fun e => (f e.1, e.2)) s.sig.staged
  have flight := s.sig.flight.map fun (x : Sig) => { x with moves := x.moves.map fun m => (f m.1, m.2) }
  { s with
    map.pages := pages
    map.counts := counts
    ddp := ddp
    keys.stored := stored
    keys.rekeyed := rekeyed
    cmd.tags := tags
    wc.own := own
    sig.staged := staged
    sig.flight := flight }

/-! The start of an epoch (R169, R367) -/

/-- A place in an own segment that is re-sent, under its next generation (R169). -/
def nextGen (head : Bool) (segs : List (Nat × Nat)) : Loc → Loc
  | .cache h seg gen off size =>
    if h = head && segs.contains (seg, gen) then .cache h seg ((gen + 1) % 65536) off size else .cache h seg gen off size
  | l => l

/-- One own segment is re-sent from offset 0 at its next generation, with OPEN on its first record (R169). -/
def State.resendSeg (s : State) (n : Nat) : State :=
  have g := s.ownSeg n
  have gen := (g.gen + 1) % 65536
  have s := s.setOwn n { g with gen := gen, recs := [] }
  g.recs.zipIdx.foldl (fun s p =>
    have r : MirRec := { p.1 with epoch := s.rd Reg.DDR_MIR_EPOCH.EPOCH, gen := gen, opened := p.2 == 0, retransmit := false }
    let (seq, s) := s.mirrorRecord r
    have x := s.ownSeg n
    s.setOwn n { x with recs := x.recs ++ [{ r with seq := seq }] }) s

/-- The own segments that a new epoch re-sends, oldest first (R169). -/
def State.resendOrder (s : State) : List Nat :=
  have live := s.wc.own.filter fun e => match e.2.state with
    | .opened | .full | .destaging => true
    | .free | .released => false
  have age (g : OwnSeg) : Nat := (g.recs.map MirRec.time).headD 0
  (live.mergeSort fun a b => decide (age a.2 ≤ age b.2)).map Prod.fst

/-- Writes not yet committed wait for the new acknowledgements of their records (R169, R170). -/
def State.waitAgain (s : State) : State :=
  have recs := s.wc.own.flatMap fun e => e.2.recs
  have again (t : Nat) (c : Cmd) : Cmd :=
    have job (w : WriteJob) : WriteJob :=
      if w.queued && !w.committed then
        { w with unacked := (recs.filter fun r => r.tag == t && r.time == w.time).map MirRec.seq }
      else w
    { c with write := c.write.map job }
  { s with cmd.tags := Table.mapVals again s.cmd.tags }

/-- The serials that this head found go to the peer (R230). -/
def State.sendSerials (s : State) : State :=
  s.sendRing (.ring 0x54 (s.lfl.leaves.flatMap fun e => match e.2.id with
    | some i => if s.on Reg.LFL_LEAF.REACH_SELF e.1 then [e.1, i.serial] else []
    | none => []) [])

/-- The pool table and the serials go to the peer at an epoch's start (R186, R230). -/
def State.sendTables (s : State) : State :=
  have pools := (List.range 64).filter fun p => s.on Reg.SIG_POOL_CFG.EN p
  have table := pools.flatMap fun p =>
    have c := s.poolCfg p
    [p, c.width, c.parity, if c.express then 1 else 0, if c.isMeta then 1 else 0, c.members.length] ++ c.members
  (s.sendRing (.ring 0x53 table [])).sendSerials

/-- Resynchronisation ends once every re-sent record is acknowledged (R170): the mode is Mirrored, event 0x80C4. -/
def State.endResync (s : State) : State :=
  if s.wc.mode == .resync && s.wc.resyncLeft.isEmpty then (s.setMode .mirrored).event 0x80C4 else s

/-- A new epoch starts on this head (R169, R186, R367): Released segments return to Free; the mirror region of the peer is emptied,
with each segment's generation kept (R167); every Open, Full and Destaging segment is re-sent; the scrub pass starts again. -/
def State.startEpoch (s : State) (epoch : Nat) : State :=
  have released := (s.wc.own.filter fun e => e.2.state == .released).map Prod.fst
  have s := released.foldl State.emptySeg s
  have emptied := Table.mapVals (fun _ (m : MirSeg) =>
    if m.adopted then m else { m with held := false, inEpoch := false, recs := [], done := [] }) s.wc.mir
  have s := { s with
    wc.sent := []
    wc.nextSeq := 1
    wc.applied := 0
    wc.above := []
    wc.rx := []
    wc.metaSeen := s.wc.metaTime
    wc.halted := false
    wc.mir := emptied
    own.proposed := none
    own.peerEpoch := max s.own.peerEpoch epoch
    own.passDone := false
    own.scrubAt := 0
    own.scrubBad := []
    own.rejoin := false
    own.loser := false
    own.starting := false
    own.paired := true }
  have s := ((s.wr Reg.DDR_MIR_EPOCH.EPOCH epoch).wr Reg.DDR_MIR_APPLIED.SEQ 0).wr Reg.OWN_SCRUB_STAT.PROGRESS 0
  have order := s.resendOrder
  have s := s.mapLocs (nextGen s.headB (order.map fun n => (n, (s.ownSeg n).gen)))
  have s := order.foldl State.resendSeg s
  have s := { s with wc.resyncLeft := s.wc.sent.map Prod.fst }
  ((((s.waitAgain.setMode .resync).setPeer .healthy).noteDirty).noteMirror).sendTables.endResync

/-- A head proposes a new epoch (R367): one above the highest that either head has used, with its group table and the witness set. -/
def State.proposeEpoch (s : State) : State :=
  have n := max (s.rd Reg.DDR_MIR_EPOCH.EPOCH) s.own.peerEpoch + 1
  have s := s.chooseWitness
  have groups := s.own.groups.flatMap fun e => [e.1, if e.2.owner then 1 else 0, e.2.gen]
  ({ s with own.proposed := some n }).sendRing (.ring 0x02 (n :: s.witnessSet.length :: s.witnessSet ++ groups) [])

/-- The mirror enters Suspect from Mirrored or Resync (R170). -/
def State.enterSuspect (s : State) : State :=
  match s.wc.mode with
  | .mirrored => ({ s with wc.back := .mirrored }).setMode .suspect
  | .resync => ({ s with wc.back := .resync }).setMode .suspect
  | .off | .suspect | .solo | .destage => s

end Sys2Proof.Machine
end

