-- ==== Sys2Proof/Machine/SigCore.lean ====
section
/-!
DEFINITION. Machine/SigCore.lean: pool states, leaves' units, the sewing log, quires and their collection, as the meanings share them
(chapter 07).
-/
namespace Sys2Proof.Machine
open Sys2Proof

/-! Units of a leaf (R197, R198, R229) -/

/-- Whether a unit lies on a retired die (R244). -/
def Leaf.onRetired (l : Leaf) (u : Nat) : Bool := (Table.find (l.dieOf u) l.dies).any fun (d : Die) => d.retired

/-- The condition of a leaf that both heads reach (R203): one that the control host drains is Draining. -/
def Leaf.home (l : Leaf) : MemberCond := if l.drain then .draining else .present

/-- The erase units of a leaf, without those of retired dies (R229, R244). -/
def Leaf.units (l : Leaf) : Nat :=
  match l.id with
  | some i => (i.dies - l.dies.countP fun e => e.2.retired) * i.unitsPerDie
  | none => 0

/-- Whether an erase unit can be allocated: in a block granted to this head, on a die in use, in no quire, not failed in the NAND (R244, R248). -/
def Leaf.unitFree (l : Leaf) (u : Nat) : Bool :=
  (Table.find (u / 256) l.blocks == some true) && !(l.used.contains u) && !(l.bad.contains u) &&
    match l.id with
    | some i => decide (u < i.dies * i.unitsPerDie) && !(l.onRetired u)
    | none => false

/-- The units of a leaf's dies in use that stand in quires or failed in the NAND. -/
def Leaf.inUse (l : Leaf) : Nat := (l.used ++ l.bad.filter fun u => !(l.used.contains u)).countP fun u => !(l.onRetired u)

/-- The units of a leaf that are in no quire. -/
def Leaf.spare (l : Leaf) : Nat := l.units - l.inUse

/-- The lowest free unit among some blocks. -/
def Leaf.firstFree (l : Leaf) (blocks : List Nat) : Option Nat :=
  blocks.findSome? fun b => ((List.range 256).map fun k => 256 * b + k).find? fun u => l.unitFree u

/-- The blocks of 256 units granted to this head. -/
def Leaf.myBlocks (l : Leaf) : List Nat := (l.blocks.filter fun e => e.2).map Prod.fst

/-- The units granted to this head that can be allocated, in number (R198). -/
def Leaf.freeUnits (l : Leaf) : Nat := (l.myBlocks.map fun b => (List.range 256).countP fun k => l.unitFree (256 * b + k)).sum

/-- The erase cycles of a leaf's dies together. -/
def Leaf.erases (l : Leaf) : Nat := (l.dies.map fun e => e.2.erases).sum

/-- Whether a leaf may take units of a new quire (R198, R230): the peer reaches it as well. -/
def State.leafTakes (s : State) (l : Nat) : Bool := s.leafUsable l && s.on Reg.LFL_LEAF.REACH_PEER l

/-! Pools -/

/-- The leaves of a quire that are gone: failed, or absent too (R208). -/
def State.missingOf (s : State) (q : Quire) (failedOnly : Bool) : Nat :=
  q.slots.countP fun x => decide (512 ≤ x.1) ||
    match (s.leaf x.1).cond with
    | .failed => true
    | .absent => !failedOnly
    | .present | .oneSided | .draining => false

/-- The quires of a pool. -/
def State.quiresOf (s : State) (p : Nat) : List (Nat × Quire) := s.sig.quires.filter fun e => e.2.pool == p

/-- Whether a quire has more failed members than P, beyond what the control host has accepted (R209). -/
def State.quireLost (s : State) (p : Nat) (q : Quire) : Bool :=
  decide (q.parity < s.missingOf q true) &&
    q.slots.any fun x => decide (x.1 < 512) && (s.leaf x.1).cond == .failed && !((Table.get p [] s.sig.accepted).contains x.1)

/-- The codes of SIG_POOL_STATE.STATE (R209). -/
def poolOff : Nat := 0
/-- Every member present or one-sided. -/
def poolNormal : Nat := 1
/-- Members missing, no rebuild running. -/
def poolDegraded : Nat := 2
/-- A rebuild runs. -/
def poolRebuilding : Nat := 3
/-- A quire has nothing to spare. -/
def poolCritical : Nat := 4
/-- A quire has more failed members than P. -/
def poolLost : Nat := 5

/-- The quires with a unit on a leaf. -/
def State.quiresOn (s : State) (l : Nat) : List Nat := (s.sig.quires.filter fun e => e.2.slots.any fun x => x.1 == l).map Prod.fst

/-- Whether a leaf is failed and not yet rebuilt away (R209, R217): a quire still has a unit on it. -/
def State.notRebuilt (s : State) (l : Nat) : Bool := (s.leaf l).cond == .failed && !(s.quiresOn l).isEmpty

/-- The state of a pool (R209). -/
def State.poolState (s : State) (p : Nat) : Nat :=
  have qs := s.quiresOf p
  if !(s.poolEff p).en then poolOff
  else if qs.any fun e => s.quireLost p e.2 then poolLost
  else if qs.any fun e => decide (0 < s.missingOf e.2 false ∧ e.2.parity ≤ s.missingOf e.2 false) then poolCritical
  else if s.sig.rebuilding && qs.any fun e => e.2.queued == some .rebuild || decide (0 < s.missingOf e.2 true) then poolRebuilding
  else if (s.members p).any fun l => (s.leaf l).cond == .absent || s.notRebuilt l then poolDegraded
  else poolNormal

/-- All erase units on a pool's present and one-sided leaves, and the free ones (R217). -/
def State.poolUnits (s : State) (p : Nat) : Nat × Nat :=
  (s.members p).foldl (fun acc l =>
    match (s.leaf l).cond with
    | .present | .oneSided => (acc.1 + (s.leaf l).units, acc.2 + (s.leaf l).spare)
    | .draining | .absent | .failed => acc) (0, 0)

/-- The reserve of a pool (R201): the units used on its fullest leaf, and two quires. -/
def State.poolReserve (s : State) (p : Nat) : Nat :=
  ((s.members p).map fun l => (s.leaf l).inUse).foldl max 0 + 2 * (s.poolEff p).width

/-- The registers of a pool follow its leaves and quires (R201, R209, R217): event 0x500B on entry to Critical, and a change of ANA
state where it enters or leaves Lost. FULL ends above the reserve plus 1 % of the pool. -/
def State.notePool (s : State) (p : Nat) : State :=
  have before := s
  have old := s.rd Reg.SIG_POOL_STATE.STATE p
  have new := s.poolState p
  have units := s.poolUnits p
  have ms := s.members p
  have s := s.wr Reg.SIG_POOL_STATE.STATE new p
  have s := s.wr Reg.SIG_POOL_STATE.ABSENT (ms.countP fun l => (s.leaf l).cond == .absent) p
  have s := s.wr Reg.SIG_POOL_STATE.FAILED (ms.countP s.notRebuilt) p
  have s := (s.wr Reg.SIG_POOL_UNITS.UNITS units.1 p).wr Reg.SIG_POOL_FREE.UNITS units.2 p
  have s := if s.poolReserve p + units.1 / 100 < units.2 then s.wr Reg.SIG_POOL_STATE.FULL 0 p else s
  have s := if new = poolCritical ∧ old ≠ poolCritical then s.event1 0x500B p else s
  if (new == poolLost) != (old == poolLost) then s.anaChange before else s

/-- Every pool of some leaves is looked at. -/
def State.noteLeaf (s : State) (l : Nat) : State :=
  match s.poolOf l with
  | some p => s.notePool p
  | none => s

/-! The sewing log (R193 to R195) -/

/-- SIG_LOG_COPIES and SIG_LOG_FILL follow the log (R217). -/
def State.noteLog (s : State) : State :=
  have leaf (k : Nat) : Nat := match s.sig.copies[k]? with
    | some c => c.leaf
    | none => 0
  have good (k : Nat) : Nat := match s.sig.copies[k]? with
    | some c => if c.valid then 1 else 0
    | none => 0
  have s := (s.wr Reg.SIG_LOG_COPIES.LEAF0 (leaf 0)).wr Reg.SIG_LOG_COPIES.VALID0 (good 0)
  have s := (s.wr Reg.SIG_LOG_COPIES.LEAF1 (leaf 1)).wr Reg.SIG_LOG_COPIES.VALID1 (good 1)
  have s := (s.wr Reg.SIG_LOG_COPIES.LEAF2 (leaf 2)).wr Reg.SIG_LOG_COPIES.VALID2 (good 2)
  (s.wr Reg.SIG_LOG_FILL.LIVE s.sig.live.length).noteMeta

/-- The QL quarter of a leaf's lane (R218). -/
def leafQuarter (l : Nat) : Nat := leafLane l / 8

/-- A leaf of the metadata pool for a copy of the log beside others (R193): on another lane, and in another QL quarter where the pool
allows it. `not` names a leaf that is not to be taken. -/
def State.logLeaf (s : State) (not : Option Nat) (others : List Nat) : Option Nat :=
  match s.metaPool with
  | none => none
  | some p =>
    have ok := (s.members p).filter fun l => s.leafUsable l && some l != not && !(others.any fun o => leafLane o == leafLane l)
    match ok.find? fun l => !(others.any fun o => leafQuarter o == leafQuarter l) with
    | some l => some l
    | none => ok.head?

/-- The three copies are chosen when the log starts (R193). -/
def State.startLog (s : State) : State :=
  if s.sig.copies.isEmpty then
    have ls := (List.range 3).foldl (fun acc _ => match s.logLeaf none acc with
      | some l => acc ++ [l]
      | none => acc) []
    have cs : List LogCopy := ls.map fun l => { leaf := l, valid := true }
    ({ s with sig.copies := cs }).noteLog
  else s

/-- The bytes of a log page: 16 entries of 256 bytes (R193). -/
def pageBytes (es : List LogEntry) : List Byte :=
  have b := es.flatMap LogEntry.bytes
  b ++ zeros (4096 - b.length)

/-- A page is appended to a copy: it names the next page of the region of the copy's leaf (R236). -/
def State.appendPage (s : State) (copy number : Nat) (es : List LogEntry) : State :=
  match s.sig.copies[copy]? with
  | none => s
  | some c =>
    have pos := (s.leaf c.leaf).logNext
    have last := (es.map LogEntry.seq).foldl max 0
    have s := s.putLeaf c.leaf { s.leaf c.leaf with logNext := (pos + 1) % 262144 }
    ({ s with sig.copies := s.sig.copies.set copy { c with pages := c.pages ++ [(last, pos)] } }).leafOp c.leaf (.log copy number) .logAppend (le 4 pos)
      (pageBytes es)

/-- A log page goes to the copies that are current (R193, R195). -/
def State.sendPage (s : State) : State :=
  if s.sig.page.isEmpty then s
  else
    have n := s.sig.pageNo
    have es := s.sig.page
    have page : LogPage := { number := n, entries := es }
    have s := { s with
      sig.page := []
      sig.pageNo := n + 1
      sig.sent := s.sig.sent ++ [page] }
    s.sig.copies.zipIdx.foldl (fun s c => if c.1.valid then s.appendPage c.2 n es else s) s

/-- The sequence below which every entry is retired (R194). -/
def State.retireMark (s : State) : Nat :=
  match s.sig.live with
  | e :: _ => e.seq
  | [] => s.sig.logSeq + 1

/-- An entry joins the open page; a full page is sent first (R193, R194). -/
def State.appendLog (s : State) (pool width parity quire sig : Nat) (body : LogBody) : Nat × State :=
  have s := s.startLog
  have s := if 16 ≤ s.sig.page.length then s.sendPage else s
  have n := s.sig.logSeq + 1
  have e : LogEntry := { head := s.headB, epoch := s.rd Reg.DDR_MIR_EPOCH.EPOCH, seq := n, time := s.ringTime, pool := pool, width := width, parity := parity,
                         quire := quire, sig := sig, retire := s.retireMark, body := body }
  (n, ({ s with
    sig.logSeq := n
    sig.page := s.sig.page ++ [e]
    sig.live := s.sig.live ++ [e] }).noteLog)

/-- Copies of the log that are current. -/
def State.logCopies (s : State) : Nat := s.sig.copies.countP fun c => c.valid

/-! Signatures in flight -/

/-- A signature in flight is changed. -/
def State.modSig (s : State) (quire sig : Nat) (f : Sig → Sig) : State :=
  { s with sig.flight := s.sig.flight.map fun x => if x.quire = quire ∧ x.index = sig then f x else x }

/-! Containers that wait to be sewn (R191, R173) -/

/-- The pool into which a namespace's new chunks are sewn (R185, R264). -/
def State.destPool (s : State) (nsid : Nat) : Option Nat := (Table.find nsid s.map.ns).map fun n => n.moving.getD n.pool

/-- Whether a container is already in a signature in flight. -/
def State.sewing (s : State) (loc : Loc) : Bool := s.sig.flight.any fun x => x.moves.any fun m => m.1 == loc

/-- The containers of some records that go to a pool and still need a place there. -/
def State.recPending (s : State) (pool : Nat) (head : Bool) (seg gen : Nat) (done : List Nat) (recs : List MirRec) : List (Loc × Container) :=
  recs.flatMap fun r =>
    if s.destPool r.nsid = some pool then
      match r.body with
      | .write _ cs => cs.filterMap fun c =>
          have loc : Loc := .cache head seg gen c.1 c.2.length
          if s.needsPlace done loc && !(s.sewing loc) then some (loc, c.2) else none
      | .metadata _ | .release => []
    else []

/-- Whether full segments are destaged now: from START % of LIMIT_SEGS on (R162), and in Destage (R175). -/
def State.destageNow (s : State) : Bool :=
  s.wc.mode == .destage || decide (s.rd Reg.DDR_WC_CFG.START * s.rd Reg.DDR_WC_CFG.LIMIT_SEGS ≤ s.rd Reg.DDR_WC_DIRTY.OWN * 100)

/-- Whether every container that a destage covers stands in a complete signature (R173, R175 step 6). -/
def State.dataDestaged (s : State) : Bool :=
  (s.wc.own.all fun e => !((recLocs s.headB e.1 e.2.gen e.2.recs).any fun l => s.needsPlace e.2.done l) && !(s.segBusy e.2.recs)) &&
    s.wc.mir.all fun e => !e.2.adopted || !((recLocs (!s.headB) e.1 e.2.gen e.2.recs).any fun l => s.needsPlace e.2.done l)

/-- Own segments whose containers are being written into signatures, oldest first. From START on, Full ones join them. In Destage the dirty pages of the
map follow the data (R175 step 7). -/
def State.startDestage (s : State) : State :=
  if s.destageNow then
    have begun (g : OwnSeg) : OwnSeg := if g.state = .full then { g with state := .destaging } else g
    have s := { s with wc.own := Table.mapVals (fun _ g => begun g) s.wc.own }
    if s.wc.mode == .destage && s.dataDestaged then s.cleanPages else s
  else s

/-- The containers that wait to be sewn into a pool, in order (R173, R191): gathered ones, adopted segments, then own segments, oldest
first. The flag says a gathered one. -/
def State.waitingFor (s : State) (pool : Nat) : List (Bool × Loc × Container) :=
  have staged := (Table.get pool [] s.sig.staged).map fun e => (true, e.1, e.2)
  have adopted := (s.wc.mir.filter fun e => e.2.adopted).flatMap fun e =>
    (s.recPending pool (!s.headB) e.1 e.2.gen e.2.done e.2.recs).map fun c => (false, c.1, c.2)
  have own := (s.wc.own.filter fun e => e.2.state == .destaging).mergeSort fun a b => decide (a.2.fullAt ≤ b.2.fullAt)
  staged ++ adopted ++ own.flatMap fun e =>
    (s.recPending pool s.headB e.1 e.2.gen e.2.done e.2.recs).map fun c => (false, c.1, c.2)

/-- Containers laid end to end in a stream of `room` bytes, each on a 16-byte boundary (R188): those that fit, with their positions. -/
def layStream (room : Nat) : Nat → List (Bool × Loc × Container) → List (Nat × Bool × Loc × Container)
  | _, [] => []
  | at_, c :: r =>
    have len := c.2.2.length
    if at_ + len ≤ room then (at_, c) :: layStream room ((at_ + len + 15) / 16 * 16) r else []

/-- The bytes of a data stream: the laid containers and zeros between and after them (R188). -/
def streamBytes (room : Nat) (laid : List (Nat × Bool × Loc × Container)) : List Byte :=
  have b := laid.foldl (fun acc c => acc ++ zeros (c.1 - acc.length) ++ c.2.2.2) []
  b ++ zeros (room - b.length)

/-! Quires -/

/-- Folios of an erase unit (R184). -/
def State.quireDepth (s : State) (p : Nat) : Nat :=
  match (s.members p).findSome? fun l => (s.leaf l).id with
  | some i => i.unitMiB * 16
  | none => 0

/-- The leaves of a new quire (R198): those with most free units granted, lowest erase count at a tie, spread over lanes. -/
def State.chooseLeaves (s : State) (p width : Nat) : Option (List Nat) :=
  have ok := (s.members p).filter fun l => s.leafTakes l && ((s.leaf l).firstFree (s.leaf l).myBlocks).isSome
  have best (a b : Nat) : Bool :=
    have x := s.leaf a
    have y := s.leaf b
    decide (y.freeUnits < x.freeUnits ∨ (x.freeUnits = y.freeUnits ∧ x.erases ≤ y.erases))
  have order := spreadLanes (ok.mergeSort best)
  if width ≤ order.length ∧ 0 < width then some (order.take width) else none

/-- The lowest block of a leaf that is granted to neither head, as far as this head knows. -/
def Leaf.freeBlock (l : Leaf) : Option Nat :=
  match l.id with
  | some i =>
    have n := (i.dies * i.unitsPerDie + 255) / 256
    (List.range n).find? fun b => !(Table.has b l.blocks)
  | none => none

/-- A head short of units claims an unowned block of each leaf that has none free, or asks the peer for one (R197, R231). -/
def State.claimBlocks (s : State) (p : Nat) : State :=
  ((s.members p).filter fun l => s.leafTakes l && ((s.leaf l).firstFree (s.leaf l).myBlocks).isNone).foldl (fun s l =>
    if s.lfl.ops.any fun e => e.2.leaf == l && match e.2.for_ with | .grant _ _ => true | _ => false then s
    else
      match (s.leaf l).freeBlock with
      | some b => s.leafOp l (.grant 0 b) .grant (0 :: le 4 b)
      | none => s.sendRing (.ring 0x52 [l] [])) s

/-- The lowest quire number of this head that is free (R197). -/
def State.quireNumber (s : State) : Nat :=
  have odd := if s.headB then 1 else 0
  (((List.range (s.sig.quires.length + 1)).map fun k => 2 * k + odd).find? fun n => !(Table.has n s.sig.quires)).getD odd

/-- A quire is opened (R198, R199, R201): its units are taken and its open entry logged. A quire that would take units of the reserve
sets FULL with event 0x5013; collection, rebuild and drain may still use the reserve. -/
def State.openQuire (s : State) (p : Nat) (mayReserve : Bool) : Option Nat × State :=
  have c := s.poolEff p
  have tight := decide ((s.poolUnits p).2 < s.poolReserve p + c.width)
  have s := if tight && !(s.on Reg.SIG_POOL_STATE.FULL p) then (s.wr Reg.SIG_POOL_STATE.FULL 1 p).event1 0x5013 p else s
  if tight && !mayReserve then (none, s)
  else
    match s.chooseLeaves p c.width with
    | none => (none, s.claimBlocks p)
    | some ls =>
      have slots := ls.map fun l => (l, ((s.leaf l).firstFree (s.leaf l).myBlocks).getD 0)
      have s := slots.foldl (fun s x => s.putLeaf x.1 { s.leaf x.1 with used := x.2 :: (s.leaf x.1).used }) s
      have n := s.quireNumber
      have q : Quire := { pool := p, width := c.width, parity := c.parity, slots := slots, head := s.headB, order := s.sig.order }
      have s := ({ s with sig.order := s.sig.order + 1 }).setQuire n q
      let (_, s) := s.appendLog p c.width c.parity n 0 (.opened slots)
      (some n, s.notePool p)

/-- Absent leaves with a unit in a quire mark it in their bitmaps (R204). -/
def State.markBitmaps (s : State) (n : Nat) (q : Quire) : State :=
  q.slots.foldl (fun s x =>
    have l := s.leaf x.1
    if l.cond = .absent && !(l.bitmap.contains n) then s.putLeaf x.1 { l with bitmap := n :: l.bitmap } else s) s

/-- A quire is closed (R192, R194, R199). -/
def State.closeQuire (s : State) (n : Nat) : State :=
  match s.quire n with
  | none => s
  | some q =>
    if q.state = .opened then
      let (_, s) := (s.setQuire n { q with state := .closed }).appendLog q.pool q.width q.parity n 0 (.closed q.next)
      s.markBitmaps n q
    else s

/-- The live bytes of a quire (R199). -/
def State.liveBytes (s : State) (q : Quire) : Nat := ((q.held.filter s.liveLoc).map Loc.size).sum

/-- The bytes that a quire can hold. -/
def State.capacity (s : State) (q : Quire) : Nat := s.quireDepth q.pool * q.data * folioPayload

/-- Whether a container of a quire is being read for its collection. -/
def State.gathering (s : State) (n : Nat) : Bool := s.fetching fun f l => match f with
  | .collect _ => l.quire == some n
  | _ => false

/-- The signature of a place. -/
def Loc.sigIndex (l : Loc) : Nat := l.fields.2.2.1

/-- The live containers of a quire that are still to be read for its collection. -/
def State.toCollect (s : State) (q : Quire) : List Loc :=
  q.held.filter fun l => s.liveLoc l && !(s.sig.staged.any fun e => e.2.any fun c => c.1 == l) && !(s.sewing l) &&
    !(s.fetching fun f x => match f with
      | .collect _ => x == l
      | _ => false)

/-- A quire's collection goes on with its next signature (R200, R202, R210): its live containers are gathered for new signatures of the same
pool. -/
def State.collect (s : State) (n : Nat) : State :=
  match s.quire n with
  | none => s
  | some q =>
    have s := s.setQuire n { q with state := .collecting, queued := some (q.queued.getD .space) }
    match s.toCollect q with
    | [] => s
    | l :: rest =>
      have sig := (rest.map Loc.sigIndex).foldl min l.sigIndex
      ((l :: rest).filter fun x => x.sigIndex == sig).foldl (fun s l => s.askFetch (.collect q.pool) l (s.domainOf l)) s

/-- Whether a quire's collection can go on now: Closed, or Collecting with a signature still to read, with none being read and no signature of it
in flight. -/
def State.collectable (s : State) (n : Nat) (q : Quire) : Bool :=
  (q.state == .closed || (q.state == .collecting && !(s.toCollect q).isEmpty)) && !(s.gathering n) && !(s.sig.flight.any fun x => x.quire == n)

/-- Whether a chunk holds a pin on a place (R121), from its lookup on. -/
def Chunk.pinsAt (k : Chunk) (p : Loc → Bool) : Bool :=
  match k.state with
  | .hit l | .verifying l => p l
  | .asked => (k.answer.bind fun a => a).any p
  | .waiting | .zero | .stored _ _ => false

/-- Whether a read, a patrol pass or a pin keeps a quire from being erased (R202): a container of it being read, a signature of it that patrol
reads, or a write not yet committed that found a hit there. -/
def State.quireHeld (s : State) (n : Nat) : Bool :=
  (s.fetching fun _ l => l.quire == some n) || s.walkOpen (3 * n) || (s.sig.patrols.any fun p => p.quire == n) ||
    s.cmd.tags.any fun e => e.2.write.any fun w => !w.committed && w.chunks.any fun k => k.pinsAt fun l => l.quire == some n

/-- A Collecting quire with no live container left, none being read and none waiting to be sewn, drains (R202). -/
def State.settleQuires (s : State) : State :=
  have busy (n : Nat) : Bool :=
    (s.sig.staged.any fun e => e.2.any fun c => c.1.quire == some n) || s.sig.flight.any fun x => x.moves.any fun m => m.1.quire == some n
  { s with sig.quires := Table.mapVals (fun n (q : Quire) =>
      if q.state = .collecting && !(q.held.any s.liveLoc) && !(busy n) && !(s.gathering n) then
        { q with state := .draining, queued := none } else q) s.sig.quires }

/-- A quire is queued for collection, never behind where it already stands (R208, R214, R205). -/
def State.queueQuire (s : State) (n : Nat) (why : CollectFor) : State :=
  match s.quire n with
  | none => s
  | some q =>
    have rank : CollectFor → Nat := fun w => match w with
      | .rebuild => 0
      | .finding => 1
      | .drain => 2
      | .space => 3
    match q.queued with
    | some w => if rank why < rank w then s.setQuire n { q with queued := some why } else s
    | none => if q.state = .opened ∨ q.state = .closed then s.setQuire n { q with queued := some why } else s

/-- SIG_REBUILD_STAT follows the queue (R208, R217). -/
def State.noteRebuild (s : State) : State :=
  have left := s.sig.quires.filter fun e => e.2.queued == some .rebuild
  have pool := match left with
    | e :: _ => e.2.pool
    | [] => 0
  have s := s.wr Reg.SIG_REBUILD_STAT.ACTIVE (if s.sig.rebuilding then 1 else 0)
  (s.wr Reg.SIG_REBUILD_STAT.POOL (if s.sig.rebuilding then pool else 0)).wr Reg.SIG_REBUILD_STAT.QUIRES_LEFT
    (left.countP fun e => e.2.pool == pool)

/-! Void signatures and durable pages (R191, R192, R195, R248) -/

/-- A signature is void (R192): a void entry, SIG_VOIDED, event 0x5005; its gathered containers wait to be sewn again, and those of
segments do so as before. -/
def State.voidSig (s : State) (x : Sig) : State :=
  have s := { s with
    sig.flight := s.sig.flight.filter fun y => !(y.quire == x.quire && y.index == x.index)
    sig.staged := Table.upd x.pool [] (fun l => x.taken ++ l) s.sig.staged }
  match s.quire x.quire with
  | none => s
  | some q =>
    let (_, s) := s.appendLog x.pool q.width q.parity x.quire x.index .voided
    (((s.markBitmaps x.quire q).bump Reg.SIG_VOIDED.COUNT).event 0x5005 (le 4 x.quire ++ le 4 x.index))

/-- A folio write fails or times out (R192, R248): the signature is void. Where the leaf has become absent, its open quires are closed
first; where the NAND failed, the unit leaves the free grants and the quire is closed. -/
def State.folioFailed (s : State) (quire sig member : Nat) (nand : Bool) : State :=
  match s.quire quire with
  | none => s
  | some q =>
    have p := q.place sig member
    have s := if (s.leaf p.1).cond = .absent then (s.quiresOn p.1).foldl State.closeQuire s else s
    have s := if nand then
        (s.putLeaf p.1 { s.leaf p.1 with bad := if (s.leaf p.1).bad.contains p.2 then (s.leaf p.1).bad else p.2 :: (s.leaf p.1).bad }).closeQuire quire
      else s
    match s.sig.flight.find? fun x => x.quire == quire && x.index == sig with
    | none => s
    | some x => s.voidSig x

/-- Whether a folio can be written on a leaf now (R203, R230). -/
def State.leafWrites (s : State) (l : Nat) : Bool :=
  !(s.on Reg.LFL_LEAF.MISCABLED l) && match (s.leaf l).cond with
    | .present | .draining => true
    | .oneSided | .absent | .failed => false

/-- The folio writes of a signature are issued (R191 step 4). One that cannot be written makes the signature void at once (R192). -/
def State.issueSig (s : State) (x : Sig) : State :=
  match s.quire x.quire with
  | none => s
  | some q =>
    match (List.range x.folios.length).find? fun m => !(s.leafWrites (q.place x.index m).1) with
    | some m => s.folioFailed x.quire x.index m false
    | none =>
      x.folios.zipIdx.foldl (fun s f =>
        have p := q.place x.index f.2
        s.leafOp p.1 (.folio x.quire x.index f.2) .program (le 4 p.2 ++ le 2 x.index) f.1) s

/-- A log page has become durable (R191, R193): the folio writes of the signatures sewn on it go out. -/
def State.pageDurable (s : State) (es : List LogEntry) : State :=
  es.foldl (fun s e =>
    match e.body with
    | .sewn _ =>
      match s.sig.flight.find? fun x => x.quire == e.quire && x.index == e.sig && !x.issued with
      | some x => (s.modSig e.quire e.sig fun x => { x with issued := true }).issueSig x
      | none => s
    | .opened _ | .voided | .closed _ | .released | .watermark => s) s

/-- The copies that must have acknowledged a page for it to be durable (R193): two, and in Destage one where one is left (R195). -/
def State.pageNeed (s : State) : Nat := if s.wc.mode == .destage && s.logCopies ≤ 1 then 1 else 2

/-- Whether every current copy has acknowledged a page. -/
def State.pageDone (s : State) (p : LogPage) : Bool := s.sig.copies.zipIdx.all fun c => !c.1.valid || p.acks.contains c.2

/-- The pages that have been sent are judged (R193, R195): those with copies enough are durable, and one that is durable and acknowledged by every
current copy is done with. -/
def State.settlePages (s : State) : State :=
  have need := s.pageNeed
  have ripe := s.sig.sent.filter fun p => !p.durable && decide (need ≤ p.acks.length)
  have marked := s.sig.sent.map fun p => if need ≤ p.acks.length then { p with durable := true } else p
  have s := { s with sig.sent := marked.filter fun p => !(p.durable && s.pageDone p) }
  ripe.foldl (fun s p => s.pageDurable p.entries) s

/-! Copies that are lost (R195) -/

/-- LOG_READ of up to 16 pages of a region, for a scan (16 + region) or a copy being reseeded. -/
def State.readLog (s : State) (l copy region first count : Nat) : State :=
  s.leafOp l (.logRead copy first) .logRead (byteOf region :: le 4 first ++ [byteOf (min 16 count)])

/-- This head's log region on every leaf: port 0's is head A's (R236). -/
def State.ownRegion (s : State) : Nat := if s.headB then 1 else 0

/-- The pages between two places of a log region (R236). -/
def pagesBetween (first next : Nat) : Nat := (next + 262144 - first) % 262144

/-- The live part of a surviving copy is read for a copy that is reseeded (R195). -/
def State.startReseed (s : State) (k : Nat) : State :=
  match s.sig.copies.find? fun c => c.valid with
  | none => s
  | some c =>
    match c.pages.head? with
    | none => s
    | some p => s.readLog c.leaf k s.ownRegion p.2 (pagesBetween p.2 (s.leaf c.leaf).logNext)

/-- A copy that has no leaf gets a new one, where R193 gives one, and is reseeded (R195). -/
def State.reseat (s : State) (k : Nat) : State :=
  match s.sig.copies[k]? with
  | none => s
  | some c =>
    if c.valid || c.reseeding then s
    else
      have others := (s.sig.copies.zipIdx.filter fun x => x.2 != k && (x.1.valid || x.1.reseeding)).map fun x => x.1.leaf
      match s.logLeaf (some c.leaf) others with
      | none => s
      | some l =>
        have c' : LogCopy := { leaf := l, valid := false, reseeding := true }
        ({ s with sig.copies := s.sig.copies.set k c' }).startReseed k

/-- Every copy that has no leaf looks for one. -/
def State.reseatAll (s : State) : State := ((List.range s.sig.copies.length).foldl State.reseat s).noteLog

/-- A copy of the log is not there any more, and what it had acknowledged counts no more (R195): event 0x5010. -/
def State.unseat (s : State) (k : Nat) (c : LogCopy) : State :=
  have lost : LogCopy := { leaf := c.leaf, valid := false }
  State.event1 { s with
    sig.copies := s.sig.copies.set k lost
    sig.sent := s.sig.sent.map fun (p : LogPage) => { p with acks := p.acks.filter fun a => a != k } } 0x5010 c.leaf

/-- Where one copy is left of two, sewing pauses (R195): event 0x5012. -/
def State.pauseAt (s : State) (k was : Nat) : State :=
  if s.logCopies = 1 ∧ was = 2 then State.event1 { s with sig.paused := true } 0x5012 k else s

/-- A copy of the log is lost (R195): event 0x5010; what it had acknowledged counts no more; a new leaf is chosen and the live part is read from a
surviving copy; where only one copy is left, sewing pauses with event 0x5012. -/
def State.loseCopy (s : State) (k : Nat) : State :=
  match s.sig.copies[k]? with
  | none => s
  | some c =>
    if !c.valid && !c.reseeding then s
    else
      (((s.unseat k c).reseat k).pauseAt k s.logCopies).settlePages.noteLog

/-- The copies of the log on a leaf are lost (R195). -/
def State.loseCopiesOn (s : State) (l : Nat) : State :=
  (s.sig.copies.zipIdx.filter fun c => c.1.leaf == l).foldl (fun s c => s.loseCopy c.2) s

/-- SIG has quires to rebuild (R208). -/
def State.setRebuilding (s : State) : State := { s with sig.rebuilding := true }

/-- The quires of a failed leaf are queued for rebuild (R208). -/
def State.startRebuild (s : State) (l : Nat) : State :=
  (((s.quiresOn l).foldl (fun s n => (s.closeQuire n).queueQuire n .rebuild) s).event1 0x5009 l).setRebuilding

/-- A quire whose W erases are in is Free, and its units are back in the grants (R199, R202). -/
def State.freeQuire (s : State) (n : Nat) : State :=
  match s.quire n with
  | none => s
  | some q =>
    if q.state == .erasing && decide (q.slots.length ≤ q.erased.length) then
      have s := q.slots.foldl (fun s x => if x.1 < 512 then s.putLeaf x.1 { s.leaf x.1 with used := (s.leaf x.1).used.erase x.2 } else s) s
      ({ s with
        sig.quires := Table.drop n s.sig.quires
        map.referrers := Table.drop (3 * n) s.map.referrers }).notePool q.pool
    else s

/-- A slot of a quire needs no erase any more. -/
def State.markErased (s : State) (n slot : Nat) : State :=
  have add (q : Quire) : Quire := if q.erased.contains slot then q else { q with erased := slot :: q.erased }
  { s with sig.quires := Table.modify n add s.sig.quires }

/-- The erase of a slot of an Erasing quire (R202): it is sent where this head reaches the leaf, a failed or readmitted leaf needs none, and any other
leaf's waits for its return (R204). -/
def State.eraseSlot (s : State) (n slot : Nat) (place : Nat × Nat) : State :=
  if 512 ≤ place.1 then s.markErased n slot
  else
    match (s.leaf place.1).cond with
    | .failed => s.markErased n slot
    | .present | .draining =>
      if s.on Reg.LFL_LEAF.MISCABLED place.1 || s.lfl.ops.any fun e => e.2.for_ == .erase n slot then s
      else s.leafOp place.1 (.erase n slot) .erase (le 4 place.2)
    | .oneSided | .absent => s

/-- The slots of an Erasing quire that are not erased yet, or those on one leaf. -/
def State.eraseSlots (s : State) (n : Nat) (only : Option Nat) : State :=
  match s.quire n with
  | none => s
  | some q =>
    if q.state = .erasing then
      ((q.slots.zipIdx.filter fun x => !(q.erased.contains x.2) && only.all fun l => x.1.1 == l).foldl (fun s x => s.eraseSlot n x.2 x.1) s).freeQuire n
    else s

/-- The erases that waited for a leaf go on (R202, R204). -/
def State.resumeErases (s : State) (l : Nat) : State :=
  ((s.sig.quires.filter fun e => e.2.state == .erasing).map Prod.fst).foldl (fun s n => s.eraseSlots n (some l)) s

/-- A member leaf is failed (R203, R208): its bitmap goes, its quires are queued for rebuild with event 0x5009, and no erase waits for it. -/
def State.failLeaf (s : State) (l : Nat) : State :=
  have s := s.putLeaf l { s.leaf l with cond := .failed, bitmap := [] }
  have s := s.loseCopiesOn l
  have s := if s.on Reg.SIG_CTRL.REBUILD_EN then s.startRebuild l else s
  (s.resumeErases l).noteRebuild.noteLeaf l

/-! The end of a signature (R191, R192) -/

/-- A container that has moved with new bytes is counted under the key of its header (R152, R155). -/
def State.restamp (s : State) (new : Loc) (b : Container) : State :=
  have h := Header.parse b
  match s.keys.stored.find? fun m => m.loc == new with
  | some m =>
    if m.slot = h.slot ∧ m.gen = h.gen then s
    else (s.uncountStored new).countStored { m with slot := h.slot, gen := h.gen, cut := h.cut }
  | none => s

/-- The image of a page that still exists has its place (R255): the older image is not live any more. Firmware writes the directory entry and
invalidates its line (R275). -/
def State.placeImage (s : State) (old new : Loc) : State :=
  match old with
  | .image n => if Table.has n s.map.pages then (s.setPage n { s.page n with place := some new }).dropDir n else s
  | .unmapped | .zero | .cache .. | .flash .. | .remote .. | .lost .. => s

/-- One container of a complete signature takes its new place (R191 step 5, R202, R257): only where the map or an index still names
the old one. -/
def State.moveContainer (s : State) (quire : Nat) (old new : Loc) (bytes : Option Container) : State :=
  have s := s.placeImage old new
  have s := if s.liveLoc old then
      have s := s.rewriteLoc old new
      match bytes with
      | some b => s.restamp new b
      | none => s
    else s
  have s := { s with sig.quires := Table.modify quire (fun q => { q with held := new :: q.held }) s.sig.quires }
  match old with
  | .cache h seg gen off _ =>
    if h = s.headB then
      have g := s.ownSeg seg
      if g.gen = gen then s.setOwn seg { g with done := off :: g.done } else s
    else { s with wc.mir := Table.modify seg (fun (m : MirSeg) => if m.gen = gen then { m with done := off :: m.done } else m) s.wc.mir }
  | .flash _ q .. =>
    { s with sig.quires := Table.modify q (fun (x : Quire) => { x with
        held := x.held.filter fun l => l != old
        forwards := (old, new) :: x.forwards }) s.sig.quires }
  | .unmapped | .zero | .remote .. | .lost .. | .image _ => s

/-- A signature is complete (R191 step 5): its containers take their places and segments that are done are released. A watermark is
logged when no signature is left in flight (R194). -/
def State.completeSig (s : State) (x : Sig) : State :=
  have s := { s with sig.flight := s.sig.flight.filter fun y => !(y.quire == x.quire && y.index == x.index) }
  have s := x.moves.foldl (fun s m =>
    s.moveContainer x.quire m.1 m.2 ((x.taken.find? fun t => t.1 == m.1).map Prod.snd)) s
  have s := if s.wc.mode = .destage then
      { s with wc.destage := s.wc.destage.map fun m => { m with places := m.places ++ x.moves.map Prod.snd } }
    else s
  have s := if s.sig.flight.isEmpty then (s.appendLog 0 0 0 0 0 .watermark).2 else s
  s.settleQuires.settleSegments

/-! The reading of the log (R196) -/

/-- One entry of the log of a head that is taken up (R196): quires are made as their open entries say, with their units' blocks known as that
head's, which are this head's after a takeover (R231); signatures raise the next index, and released quires go. The containers of a quire are
those that the map refers to there. -/
def State.scanEntry (s : State) (e : LogEntry) : State :=
  match e.body with
  | .opened slots =>
    if (s.quire e.quire).isSome then s
    else
      have held := (s.map.counts.filter fun c => c.1.quire == some e.quire && decide (0 < c.2)).map Prod.fst
      have mine := e.head == s.headB || s.own.fencing.isSome
      have s := slots.foldl (fun s x =>
        have l := s.leaf x.1
        s.putLeaf x.1 { l with
          used := if l.used.contains x.2 then l.used else x.2 :: l.used
          blocks := Table.put (x.2 / 256) mine l.blocks }) s
      have q : Quire := { pool := e.pool, width := e.width, parity := e.parity, slots := slots, head := e.head, order := s.sig.order, held := held }
      ({ s with sig.order := s.sig.order + 1 }).setQuire e.quire q
  | .sewn _ | .voided =>
    match s.quire e.quire with
    | none => s
    | some q => s.setQuire e.quire { q with next := max q.next (e.sig + 1) }
  | .closed n =>
    match s.quire e.quire with
    | none => s
    | some q => if q.state = .opened then s.setQuire e.quire { q with state := .closed, next := max q.next n } else s
  | .released =>
    match s.quire e.quire with
    | none => s
    | some q =>
      if q.state = .opened ∨ q.state = .closed then
        have s := q.slots.foldl (fun s x => s.putLeaf x.1 { s.leaf x.1 with used := (s.leaf x.1).used.erase x.2 }) s
        { s with sig.quires := Table.drop e.quire s.sig.quires }
      else s
  | .watermark => s

/-- The W trailers of a sewn signature are read (R196). -/
def State.askTrailers (s : State) (e : LogEntry) : State :=
  match s.quire e.quire with
  | none => s.noteTrailer e.quire e.sig 0 none
  | some q =>
    (List.range q.width).foldl (fun s m =>
      have p := q.place e.sig m
      s.readMember { leaf := p.1, unit := p.2, folio := e.sig, first := 15, count := 1, use := .trailer e.quire e.sig m, quire := e.quire, member := m }) s

/-- Open quires of the head whose log was read are closed, and reads that waited for the reading go on (R196). -/
def State.endScan (s : State) (region : Nat) : State :=
  have mine := s.sig.quires.filter fun e => e.2.state == .opened && (e.2.head == (region == 1))
  have s := { s with
    sig.scanStart := false
    sig.checking := none }
  have s := mine.foldl (fun s e => s.closeQuire e.1) s
  have parked := s.lfl.gathers.filter fun e => e.2.parked
  parked.foldl (fun s e => ({ s with lfl.gathers := Table.drop e.1 s.lfl.gathers }).gather e.2.for_ e.2.loc false) s

/-- A signature that a log entry names is void (R192, R196). -/
def State.voidEntry (s : State) (e : LogEntry) : State :=
  match s.sig.flight.find? fun x => x.quire == e.quire && x.index == e.sig with
  | some x => s.voidSig x
  | none => (s.appendLog e.pool e.width e.parity e.quire e.sig .voided).2.bump Reg.SIG_VOIDED.COUNT

/-- A torn signature is void, with event 0x5015 (R196). -/
def State.tornSig (s : State) (e : LogEntry) : State := (s.event 0x5015 (le 4 e.quire ++ le 4 e.sig)).voidEntry e

/-- A signature whose trailers are all there is complete (R196). -/
def State.wholeSig (s : State) (e : LogEntry) : State :=
  match s.sig.flight.find? fun x => x.quire == e.quire && x.index == e.sig with
  | some x => s.completeSig x
  | none => s

/-- Whether a scan of the log is being read. -/
def State.readsLog (s : State) : Bool := s.lfl.ops.any fun e => match e.2.for_ with
  | .logRead copy _ => decide (16 ≤ copy)
  | _ => false

/-- The checks of R196 that have all their trailers, or lack one, end; with the last of them the reading of the log is over. -/
def State.settleChecks (s : State) : State :=
  have ended (c : TrailerCheck) : Bool := c.bad || decide (c.entry.width ≤ c.good.length)
  match s.sig.checks.filter ended with
  | [] => s
  | done =>
    have s := { s with sig.checks := s.sig.checks.filter fun c => !(ended c) }
    have s := done.foldl (fun s c => if c.bad then s.tornSig c.entry else s.wholeSig c.entry) s
    if s.sig.checks.isEmpty then
      have s := if s.readsLog then s else { s with sig.retake := none }
      match s.sig.checking with
      | some region => s.endScan region
      | none => s
    else s

/-- The sewn entries that R196 checks: those with no later watermark, not void since, of quires that are not released. -/
def unsure (es : List LogEntry) : List LogEntry :=
  have mark := (es.filter fun e => e.body == .watermark).foldl (fun m e => max m e.seq) 0
  es.filter fun e => match e.body with
    | .sewn _ => decide (mark < e.seq) && !(es.any fun x => x.quire == e.quire && decide (e.seq < x.seq) &&
        (x.body == .released || (x.body == .voided && x.sig == e.sig)))
    | .opened _ | .voided | .closed _ | .released | .watermark => false

/-- Every readable copy of a head's log has been read (R196): its entries are taken up in order, and the trailers of the signatures that may be
torn are read. This head's own log goes on after the entries found. -/
def State.takeFound (s : State) (region : Nat) : State :=
  have es := (s.sig.found.filter fun e => e.head == (region == 1)).mergeSort fun a b => decide (a.seq ≤ b.seq)
  have own := decide (region = s.ownRegion)
  have top := (es.map LogEntry.seq).foldl max 0
  have retired := (es.map LogEntry.retire).foldl max 0
  have fresh := es.filter fun e => decide (s.sig.logSeq < e.seq ∧ retired ≤ e.seq)
  have s := { s with
    sig.found := []
    sig.logSeq := if own then max s.sig.logSeq top else s.sig.logSeq
    sig.live := if own then s.sig.live ++ fresh else s.sig.live
    sig.checking := some region }
  have s := es.foldl State.scanEntry s
  have ask := (unsure es).filter fun e => (s.quire e.quire).isSome
  have s := { s with sig.checks := s.sig.checks ++ ask.map fun (e : LogEntry) => ({ entry := e } : TrailerCheck) }
  if ask.isEmpty then s.endScan region else (ask.foldl State.askTrailers s).settleChecks

/-- A QS standby has read its log (R196, R461): the trailers of its role's signatures that are sewn and not complete are read. -/
def State.takeRetake (s : State) (duty : Nat) : State :=
  have xs := s.sig.flight.filter fun x => x.issued && x.pool % 2 == duty
  have entry (x : Sig) : LogEntry :=
    { head := s.headB, epoch := 0, seq := x.seq, time := 0, pool := x.pool, width := x.folios.length, quire := x.quire, sig := x.index,
      body := .sewn (x.folios.map folioCrc) }
  have s := { s with
    sig.found := []
    sig.checks := s.sig.checks ++ xs.map fun (x : Sig) => ({ entry := entry x } : TrailerCheck) }
  if xs.isEmpty then { s with sig.retake := none } else (xs.foldl (fun s x => s.askTrailers (entry x)) s).settleChecks

/-- A leaf's part of a start's or a takeover's reading is over. -/
def State.scanDone (s : State) (l region : Nat) : State :=
  if s.sig.scans.contains l then
    have s := { s with sig.scans := s.sig.scans.erase l }
    if s.sig.scans.isEmpty then s.takeFound region else s
  else s

/-- A leaf's part of the reading of the log is over; with the last leaf's the entries found are taken up. -/
def State.scanOver (s : State) (l region : Nat) : State :=
  match s.sig.retake with
  | some duty => if region = s.ownRegion then s.takeRetake duty else s.scanDone l region
  | none => s.scanDone l region

/-- The entries that a leaf's pages bring join those found, one of each sequence (R196). -/
def State.addFound (s : State) (es : List LogEntry) : State :=
  { s with sig.found := es.foldl (fun found e => if found.any fun x => x.seq == e.seq && x.head == e.head then found else found ++ [e]) s.sig.found }

/-! What patrol has read (R213, R214) -/

/-- The signatures that a pass of patrol reads: those of every Closed quire of every enabled pool. -/
def State.patrolTotal (s : State) : Nat :=
  ((s.sig.quires.filter fun e => e.2.state == .closed && (s.poolEff e.2.pool).en).map fun e => e.2.next).sum

/-- Patrol has read one signature; SIG_PATROL_STAT follows, and a pass ends with the last one. -/
def State.patrolStep (s : State) : State :=
  have n := s.sig.patrolAt + 1
  have total := s.patrolTotal
  if total ≤ n then (({ s with sig.patrolAt := 0 }).wr Reg.SIG_PATROL_STAT.PROGRESS 0).bump Reg.SIG_PATROL_STAT.PASSES
  else ({ s with sig.patrolAt := n }).wr Reg.SIG_PATROL_STAT.PROGRESS (n * 1000 / total)

/-- A codeword that patrol has read. -/
def Patrol.word (p : Patrol) (member word : Nat) : Option (List Byte) := (p.got.find? fun g => g.1 == member && g.2.1 == word).map fun g => g.2.2

/-- The bytes of a member's folio that patrol has read. -/
def Patrol.folio (p : Patrol) (member : Nat) : List Byte := (List.range 16).flatMap fun k => (p.word member k).getD []

/-- Whether a codeword of a member is lost to patrol: it cannot be read, or its folio fails its CRC32C (R213). -/
def Patrol.erased (p : Patrol) (member word : Nat) : Bool :=
  if (List.range 16).all fun k => (p.word member k).isSome then folioCrc (p.folio member) != crc32c ((p.folio member).take 0xFFFC)
  else (p.word member word).isNone

/-- The members with an erased codeword at a range. -/
def Patrol.gone (p : Patrol) (q : Quire) (word : Nat) : List Nat := (List.range q.width).filter fun m => p.erased m word

/-- A codeword of a data member: as read, or made from the other members, which a second copy always is (R140, R206). -/
def Patrol.bytesAt (p : Patrol) (q : Quire) (second : Bool) (member word : Nat) : List Byte :=
  if second || p.erased member word then
    have others := ((List.range q.width).filter fun m => m != member && !(p.erased m word)).take q.data
    reconstruct q.data q.width member 4096 (others.map fun m => (m, (p.word m word).getD []))
  else (p.word member word).getD []

/-- The bytes of a container in the signature that patrol has read. -/
def Patrol.container (p : Patrol) (q : Quire) (second : Bool) (l : Loc) : List Byte :=
  match l with
  | .flash _ _ _ mem off size =>
    (memberParts 3 (streamPos mem off) size 0).flatMap fun x =>
      have first := x.2.1 / 4096
      have words := (List.range ((x.2.1 + x.2.2.1 - 1) / 4096 - first + 1)).flatMap fun k => p.bytesAt q second x.1 (first + k)
      slice words (x.2.1 - 4096 * first) x.2.2.1
  | .unmapped | .zero | .cache .. | .remote .. | .lost .. | .image _ => []

/-- The first payload offset at which parity differs from what the data members give (R214). -/
def Patrol.unequal (p : Patrol) (q : Quire) : Option Nat :=
  have datas := (List.range q.data).map fun m => (p.folio m).take folioPayload
  have bad := (List.range q.parity).map fun k =>
    have want := parityPayload k folioPayload datas
    have got := (p.folio (q.data + k)).take folioPayload
    ((want.zip got).zipIdx.find? fun x => x.1.1 != x.1.2).map Prod.snd
  (bad.filterMap id).foldl (fun (m : Option Nat) x => some (min x (m.getD x))) none

/-- DEEP: a live container passes a bindery lane (R213, R214). Where its check fails it is read again under R140, and it is lost where the second
copy fails as well. A dummy round with a wrong result tells of the lane, not of the container (R156). -/
def State.deepCheck (s : State) (p : Patrol) (q : Quire) (l : Loc) : State :=
  have where_ := le 4 p.quire ++ le 4 p.sig
  have domain := s.domainOf l
  match s.decodeContainer domain l.size (p.container q false l) with
  | .ok _ => if s.dummyFails p.fault then (s.bump Reg.BND_CIPHER_FAULT.COUNT).event1 0x320C domain else s
  | .error (.key code) => s.event code where_
  | .error (.damage code) =>
    have s := (s.countDecode code).event code where_
    match s.decodeContainer domain l.size (p.container q true l) with
    | .ok _ | .error (.key _) => s
    | .error (.damage code) => ((s.countDecode code).event code where_).loseContainer l domain

/-- Patrol acts on what it has found in a signature (R214). -/
def State.judgePatrol (s : State) (p : Patrol) : State :=
  match s.quire p.quire with
  | none => s
  | some q =>
    have where_ := le 4 p.quire ++ le 4 p.sig
    have beyond := (List.range 16).filter fun k => decide (q.parity < (p.gone q k).length)
    have s := beyond.foldl (fun s k => s.loseWord q p.quire p.sig k (p.gone q k) none) s
    have s := if (List.range 16).any fun k => !(p.gone q k).isEmpty then
        ((s.bump Reg.SIG_PATROL_FOUND.UNREADABLE).event 0x500E where_).queueQuire p.quire .finding
      else
        match p.unequal q with
        | some off => ((s.bump Reg.SIG_PATROL_FOUND.MISMATCH).event1 0x500F off).queueQuire p.quire .finding
        | none => s
    have s := if s.on Reg.SIG_PATROL_RATE.DEEP then
        (q.held.filter fun l => l.sigIndex == p.sig && s.liveLoc l && !(s.isImage l)).foldl (fun s l => s.deepCheck p q l) s
      else s
    s.patrolStep

/-- The signatures of which patrol has every codeword are judged. -/
def State.settlePatrols (s : State) : State :=
  have ended (p : Patrol) : Bool := match s.quire p.quire with
    | some q => decide (16 * q.width ≤ p.got.length + p.bad.length)
    | none => true
  match s.sig.patrols.filter ended with
  | [] => s
  | done => done.foldl State.judgePatrol { s with sig.patrols := s.sig.patrols.filter fun p => !(ended p) }

/-- The reads that served a check or patrol have come: what they were for goes on. -/
def State.settleReadsOf (s : State) : State := s.settleChecks.settlePatrols

end Sys2Proof.Machine
end

