-- ==== Sys2Proof/Machine/Read.lean ====
section
/-!
DEFINITION. Machine/Read.lean: the meanings of the read path's commands: Read, Compare, container decode and second copies, leaf
read completions, proxy and remote reads (R31, R128, R139, R140, R203, R206, R207, R239, R256).
-/
namespace Sys2Proof.Machine
open Sys2Proof

/-- READ (R31). -/
def execRead (tag : Nat) (s : State) : Res := .next (s.begin tag .read fun _ s => s.resolveRead tag)

/-- COMPARE (R90, R99): the initiator's data is fetched and the stored data is read. -/
def execCompare (tag : Nat) (s : State) : Res :=
  .next (s.begin tag .compare fun c s =>
    have n := c.cap.nlb * 4096
    have s := if c.cls = .forwardedIn then s else
      match c.cap.sgl with
      | .inCapsule => s.modTag tag fun c => { c with data := [(0, c.cap.data.take n)] }
      | .keyed | .other => s.queueRead c.cap.qpn tag 0 n
    (s.resolveRead tag).checkCompare tag)

/-! Decoding (R139, R140, R323) -/

/-- Bytes queued at a tap's tile. -/
def Run.tapBytes (r : Run) (tile : Nat) : Nat := ((r.taps.filter fun p => p.1 == tile).map fun p => p.2.2.length).sum

/-- Of a tap's tiles, the one with the fewest bytes queued. -/
def Run.tapTile (r : Run) : Option Nat :=
  (r.tiles.map Prod.fst).foldl (fun best t =>
    match best with
    | none => some t
    | some b => if r.tapBytes t < r.tapBytes b then some t else some b) none

/-- A chunk that a Read brings up is copied to the namespace's taps (R323): a copy that finds the 384 KiB of piece buffers full is
dropped and counted. -/
def State.tapCopy (s : State) (nsid addr : Nat) (bytes : List Byte) : State :=
  if !(s.on Reg.PRG_CTRL.TAP_EN) then s
  else
    s.prg.runs.foldl (fun s e =>
      match e.2.kind with
      | .tap _ _ _ =>
        if e.2.nsid ≠ nsid then s
        else
          match e.2.tapTile with
          | none => s
          | some t =>
            if 393216 < e.2.tapBytes t + bytes.length then
              { (s.bump Reg.PRG_TAP_SKIP.COUNT) with
                prg.acct := Table.upd e.2.tenant {} (fun (a : Acct) => { a with skipped := a.skipped + 1 }) s.prg.acct }
            else
              { s with prg.runs := Table.put e.1 { e.2 with taps := e.2.taps ++ [(t, addr, bytes)] } s.prg.runs }
      | .scan _ | .host _ _ _ | .index _ _ _ => s) s

/-- The command of a tag ends because a key cannot serve (R153, R508). -/
def State.failKey (s : State) (t code domain : Nat) : State := (s.event1 code domain).failRead t (vendor 0xE1)

/-- A piece has been decoded: its range goes on, and a Read's chunk to the taps. -/
def State.pieceBytes (s : State) (t k : Nat) (c : Cmd) (p : ReadPiece) (plain : List Byte) : State :=
  have s := s.pieceDone t k p (slice plain p.chunkOff p.len)
  have s := if c.cap.op = .read then s.tapCopy c.cap.nsid (c.cap.slba * 4096 + p.off - p.chunkOff) plain else s
  (s.checkRead t).checkCompare t

/-- The second copy of a failed container is asked for (R140). The receiving head of a forwarded read asks the owner (R364); the
write cache's second source is the peer's mirror copy. -/
def State.askSecond (s : State) (t k : Nat) (c : Cmd) (p : ReadPiece) : State :=
  if c.state = .forwarded then
    s.sendRing (.forwardData { rtag := t, otag := c.peerTag.getD 0, tenant := c.tenant }
      [{ ext := { addr := c.cap.slba * 4096 + p.off, len := p.len, off := p.chunkOff, loc := p.loc } }])
  else
    match p.loc with
    | .cache .. => s.sendRing (.ring 0x42 [s.rd Reg.XRN_ADDR.ASSIGNED, t, k] p.loc.bytes)
    | _ => s.fetchCopy (.piece t k) p.loc true

/-- A dummy round gave a wrong result while a container was decrypted (R156): the read fails with 0x320C and a status that the spec does not
state. -/
def State.readFault (s : State) (t domain : Nat) : State :=
  let (v, s) := s.fresh
  ((s.bump Reg.BND_CIPHER_FAULT.COUNT).event1 0x320C domain).failRead t (openStatus v)

/-- Whether a place lies in the write cache. -/
def Loc.inCache : Loc → Bool
  | .cache .. => true
  | .unmapped | .zero | .flash .. | .remote .. | .lost .. | .image _ => false

/-- CONTAINER_DECODE (R139, R140): a piece's container is decoded. The first failure asks for the second copy. `ddr` is an uncorrectable DDR
read of a container in the write cache, which a read of a lost line is too (R466); `fault` a dummy round with a wrong result (R156). -/
def execContainerDecode (tag : Nat) (at_ : DecodePiece) (s : State) : Res :=
  match s.tag tag with
  | none => .next s
  | some c =>
    match c.pieces[at_.piece]? with
    | none => .next s
    | some p =>
      match p.copy.map fun b => if (at_.ddr && p.loc.inCache) || s.cacheLost p.loc then none else b with
      | none => .next s
      | some copy =>
        have s := if at_.ddr && p.loc.inCache then s.noteUncorr (s.cacheAddr p.loc) else s
        if p.sent || p.second.isSome || c.status.isSome then .next s
        else if c.cls = .forwardedIn then
          match copy with
          | some b => .next (s.sendForwardedPiece tag at_.piece c p b)
          | none =>
            have s := (s.countDecode 0x310B).modPiece tag at_.piece fun p => { p with second := some 0x310B, copy := none }
            .next (s.askSecond tag at_.piece c p)
        else
          match s.decodeContainer c.tenant p.loc.size (copy.getD []) with
          | .ok plain => .next (if s.dummyFails at_.fault then s.readFault tag c.tenant else s.pieceBytes tag at_.piece c p plain)
          | .error (.key code) => .next (s.failKey tag code c.tenant)
          | .error (.damage code) =>
            have s := (s.countDecode code).modPiece tag at_.piece fun p => { p with second := some code, copy := none }
            .next (s.askSecond tag at_.piece c p)

/-- The run that a tag holds (R318, R322). -/
def State.runOf (s : State) (t : Nat) : Option Nat := (s.prg.runs.find? fun e => e.2.tag == some t).map Prod.fst

/-- A container comes for a run's tile (R128, R140, R315). -/
def State.spanCopy (s : State) (t tile : Nat) (copy : Option Container) : State :=
  match s.runOf t with
  | none => s
  | some run =>
    match (s.spanOf run tile).bind Span.loc with
    | some loc => s.deliverSpan run tile loc copy false
    | none => s

/-- SECOND_COPY_ARRIVE (R140): the second copy, which the leaves' other members, the peer, the home or the owner gave; for a run, `piece` is the
tile; for a container that is to be sewn, the request (R177, R509). A dummy round may fail as the copy is decrypted (R156). -/
def execSecondCopyArrive (tag piece : Nat) (copy : CopyIn) (s : State) : Res :=
  if tag = mirrorTag then .next (s.settleAsk piece copy.copy) else
  match s.tag tag with
  | none => .next s
  | some c =>
    match c.pieces[piece]? with
    | none => .next (s.spanCopy tag piece copy.copy)
    | some p =>
      match p.second with
      | none => .next s
      | some first =>
        if p.sent || c.status.isSome then .next s
        else
          have b := (copy.copy.or (p.copy.getD none)).getD []
          match s.decodeContainer c.tenant p.loc.size b with
          | .ok plain =>
            have s := s.event1 first c.tenant
            if c.cls = .forwardedIn then .next (s.sendForwardedPiece tag piece c p b)
            else if s.dummyFails copy.fault then .next (s.readFault tag c.tenant)
            else .next (s.pieceBytes tag piece c p plain)
          | .error (.key code) => .next (s.failKey tag code c.tenant)
          | .error (.damage code) =>
            .next ((((s.countDecode code).event1 first c.tenant).event1 code c.tenant).failRead tag (vendor 0xE0))

/-! Leaf reads (R238, R239, R243) -/

/-- A die's measures after a codeword (R243). -/
def State.noteWord (s : State) (r : LeafRead) (f : Die → Die) : State :=
  have l := s.leaf r.leaf
  s.putLeaf r.leaf { l with dies := Table.upd (l.dieOf r.unit) {} f l.dies }

/-- The quires with units on a die, oldest first. -/
def State.quiresOnDie (s : State) (leaf die : Nat) : List Nat :=
  have l := s.leaf leaf
  ((s.sig.quires.filter fun e => e.2.slots.any fun p => p.1 == leaf && l.dieOf p.2 == die).mergeSort fun a b =>
    decide (a.2.order ≤ b.2.order)).map Prod.fst

/-- The quires on a retired die are queued for collection (R244), as a finding of patrol is (R214); open ones are closed first. -/
def State.queueDie (s : State) (leaf die : Nat) : State :=
  (s.quiresOnDie leaf die).foldl (fun s n => (s.closeQuire n).queueQuire n .finding) s

/-- LFL_LEAF shows the retired dies of a leaf (R249). -/
def State.noteDies (s : State) (leaf : Nat) : State :=
  have l := s.leaf leaf
  have n := l.dies.countP fun e => e.2.retired
  have all := match l.id with
    | some i => i.dies
    | none => 1
  (s.wr Reg.LFL_LEAF.DIES_RETIRED (min 255 n) leaf).wr Reg.LFL_LEAF.DIE_LIMIT (if s.rd Reg.LFL_PLAN_CFG.DIE_LIMIT * all < 100 * n then 1 else 0) leaf

/-- A die is retired (R244): its quires are queued for collection, and event 0x580B is recorded; above DIE_LIMIT % of the leaf's
dies DIE_LIMIT is set with event 0x5810. -/
def State.retireDie (s : State) (leaf die : Nat) : State :=
  have l := s.leaf leaf
  have d := Table.get die {} l.dies
  if d.retired then s
  else
    have was := s.on Reg.LFL_LEAF.DIE_LIMIT leaf
    have s := (s.putLeaf leaf { l with dies := Table.put die { d with retired := true } l.dies }).noteDies leaf
    have s := ((s.event 0x580B (le 4 leaf ++ le 4 die)).queueDie leaf die).noteLeaf leaf
    if s.on Reg.LFL_LEAF.DIE_LIMIT leaf && !was then s.event1 0x5810 leaf else s

/-- A codeword is unreadable after its ladder (R239, R244): code 0x5809 for its range (leaf, unit, then folio and codeword in 16 bits), and the read
goes on degraded; what a read that was overtaken finds is discarded (R207). Sixteen on a die in one interval retire it. -/
def State.unreadable (s : State) (r : LeafRead) : State :=
  have s := (s.bump Reg.LFL_LDPC_UNREADABLE.COUNT).event 0x5809 (le 2 r.leaf ++ le 4 r.unit ++ le 2 (16 * (r.folio % 4096) + r.first))
  have s := s.noteWord r fun d => { d with unreadable := d.unreadable + 1 }
  have die := (s.leaf r.leaf).dieOf r.unit
  have s := if 16 ≤ (Table.get die {} (s.leaf r.leaf).dies).unreadable then s.retireDie r.leaf die else s
  if r.overtaken then s
  else
    match r.use with
    | .gather _ => s.degrade r
    | .degraded _ _ | .proxy _ | .trailer _ _ _ | .patrol _ _ _ | .visit => s.degradeWord r

/-- A codeword that failed goes to its next read (R239): the re-read under a newer plan, steps 1 to 8, the soft step. -/
def State.nextStep (s : State) (r : LeafRead) (fixed : Nat) (older : Bool) : State :=
  have best := if r.best.1 < fixed then (fixed, min r.step 8) else r.best
  have r := { r with
    best := best
    trial := none }
  if r.step = 0 ∧ r.reread = false ∧ older then (s.sendRead { r with reread := true }).bump Reg.LFL_PLAN_STAT.REREAD
  else if r.step = 9 then s.unreadable r
  else
    have s := s.noteWord r fun d => { d with
      retried := if r.step = 0 then d.retried + 1 else d.retried
      soft := if r.step = 8 then d.soft + 1 else d.soft }
    s.sendRead { r with step := r.step + 1 }

/-- The generation that a die's next plan takes (R241): one above its last, or above one that is on its way. -/
def State.nextPlanGen (s : State) (leaf die : Nat) : Nat :=
  have known := (Table.get die {} (s.leaf leaf).dies).plan.gen
  (s.lfl.ops.foldl (fun g e => match e.2.for_ with
    | .plan d p => if e.2.leaf = leaf ∧ d = die then p.gen else g
    | _ => g) known + 1) % 65536

/-- A die's next plan goes to its leaf (R240, R241, R243); it is the die's once the leaf has accepted it. A miscabled leaf is not used (R230). -/
def State.installPlan (s : State) (leaf die : Nat) (p : DiePlan) : State :=
  if s.on Reg.LFL_LEAF.MISCABLED leaf then s
  else
    have p' : DiePlan := { p with gen := s.nextPlanGen leaf die }
    s.leafOp leaf (.plan die p') .setPlan (le 2 die ++ p'.bytes)

/-- The offset of a threshold that the fewest corrected bits speak for. -/
def bestTrial (trials : List (Nat × Int × Nat)) (t : Nat) : Int :=
  have mine := (trials.filter fun x => x.1 == t).mergeSort fun a b => decide (a.2.2 ≤ b.2.2)
  match mine.head? with
  | some x => x.2.1
  | none => 0

/-- A hard-decoded codeword of a valley search's read (R243): what its trial corrected is kept. -/
def State.valleyRead (s : State) (r : LeafRead) (fixed : Nat) : State :=
  match r.trial with
  | none => s
  | some t =>
    have l := s.leaf r.leaf
    s.putLeaf r.leaf { l with dies := Table.modify (l.dieOf r.unit) (fun (d : Die) => { d with trials := d.trials ++ [(t.1, t.2, fixed)] }) l.dies }

/-- With the last of a valley search's 64 reads, each base moves to the offset with the fewest corrected bits (R243). -/
def State.valleyEnd (s : State) (r : LeafRead) : State :=
  have l := s.leaf r.leaf
  have die := l.dieOf r.unit
  have more := s.lfl.ops.any fun e => e.2.leaf == r.leaf && match e.2.for_ with
    | .read x => x.trial.isSome && l.dieOf x.unit == die
    | _ => false
  match r.trial, Table.find die l.dies with
  | some _, some d =>
    if d.valley = 0 ∧ more = false then
      have base := (List.range l.thresholds).map fun t => d.plan.base.getD t 0 + bestTrial d.trials t
      (s.putLeaf r.leaf { l with dies := Table.put die { d with trials := [] } l.dies }).installPlan r.leaf die { d.plan with base := base }
    else s
  | _, _ => s

/-- One codeword of a completion (R238, R239). -/
def State.takeWord (s : State) (r : LeafRead) (older : Bool) (w : Decoded) : State :=
  have s := if r.step = 0 ∧ r.reread = false then s.noteWord r fun d => { d with reads := d.reads + 1 } else s
  match w with
  | .good fixed bytes =>
    have s := s.noteWord r fun d => { d with
      words := if r.step = 9 then d.words else d.words + 1
      bitsFixed := if r.step = 9 then d.bitsFixed else d.bitsFixed + fixed
      steps := if 1 ≤ r.step ∧ r.step ≤ 8 then Table.upd r.step 0 (fun n => n + 1) d.steps else d.steps }
    have s := if r.step = 9 then s.bump Reg.LFL_LDPC_SOFT_OK.COUNT else s
    (s.valleyRead r fixed).deliverWord r r.first bytes
  | .failed fixed =>
    have s := if r.step = 9 then s else s.bump Reg.LFL_LDPC_HARD_FAIL.COUNT
    s.nextStep r fixed older

/-- LEAF_READ_COMPLETION (R238 to R242): each codeword is decoded; a good one goes on, a failed one is read again by itself. `used`
and `current` are the plan generations that the completion names. A read that was overtaken is discarded (R207). -/
def execLeafReadCompletion (id used current : Nat) (words : List Decoded) (s : State) : Res :=
  match Table.find id s.lfl.ops with
  | none => .next s
  | some op =>
    match op.for_ with
    | .read r =>
      have s := s.endLeafOp id
      have older := decide (diff16 used current < 0)
      have s := s.noteWord r fun d => { d with plan := if 0 < diff16 current d.plan.gen then { d.plan with gen := current } else d.plan }
      have s := (words.take r.count).zipIdx.foldl (fun s w => s.takeWord { r with first := r.first + w.2, count := 1 } older w.1) s
      .next (s.valleyEnd r).settleReadsOf
    | _ => .next s

/-- A member read is overtaken (R207): SIG_SLOW and event 0x5006; the other members are read for its range. -/
def State.overtake (s : State) (id : Nat) (op : LeafOp) (r : LeafRead) (proxied : Bool) : State :=
  have late : LeafRead := { r with overtaken := true }
  have s := { s with lfl.ops := Table.put id { op with for_ := if proxied then .proxied late else .read late } s.lfl.ops }
  (s.bump Reg.SIG_SLOW.COUNT).event1 0x5006 r.leaf

/-- One more member is read for a degraded read (R206). -/
def State.askMember (s : State) (q : Quire) (quire d : Nat) (x : Degraded) (n : Nat) : State :=
  ({ s with lfl.degraded := Table.put d { x with asked := x.asked ++ [n] } s.lfl.degraded }).sendRead (degradedRead q quire d x.want n)

/-- A member read that may be overtaken (R207): one of a container, where members enough are left, or a member's codeword of a degraded read, where
another member can stand in; direct or through the peer, in an EXPRESS pool, once. -/
def State.slowRead (s : State) (id : Nat) (op : LeafOp) (r : LeafRead) (proxied : Bool) : State :=
  match r.use, s.quire r.quire with
  | .gather _, some q =>
    if (s.poolEff q.pool).express && !r.overtaken && decide (q.data ≤ (s.standIns q r.folio r.member).length) then
      (s.overtake id op r proxied).degradeWords r
    else s
  | .degraded d _, some q =>
    match Table.find d s.lfl.degraded with
    | none => s
    | some x =>
      match (s.standIns q x.want.folio x.want.member).find? fun m => !(x.asked.contains m) with
      | some n =>
        if (s.poolEff q.pool).express && !r.overtaken then
          (s.overtake id op r proxied).askMember q r.quire d x n
        else s
      | none => s
  | _, _ => s

/-- SLOW_MEMBER_TIMEOUT (R207): in an EXPRESS pool, a member read unanswered after 2.5 ms is overtaken once, where members enough
are left. -/
def execSlowMemberTimeout (id : Nat) (s : State) : Res :=
  match Table.find id s.lfl.ops with
  | none => .next s
  | some op =>
    match op.for_ with
    | .read r => .next (s.slowRead id op r false)
    | .proxied r => .next (s.slowRead id op r true)
    | _ => .next s

/-! Proxy reads (R203) -/

/-- PROXY_LEAF_READ (R203): the peer asks for codewords of a leaf that it cannot reach; `id` is the peer's number of the read. -/
def execProxyLeafRead (id leaf unit folio first count : Nat) (s : State) : Res :=
  have r : LeafRead := { leaf := leaf, unit := unit, folio := folio, first := first, count := count, use := .proxy id }
  match s.reach leaf unit with
  | .direct => .next (s.sendRead r)
  | .peer | .missing => .next (s.sendRing (.ring 0x50 [id, first, 0] []))

/-- PROXY_READ_DATA (R203): the codewords of a proxy read come back, or could not be read. -/
def execProxyReadData (id : Nat) (words : Option (List (List Byte))) (s : State) : Res :=
  match Table.find id s.lfl.ops with
  | none => .next s
  | some op =>
    match op.for_ with
    | .proxied r =>
      have s := { s with lfl.ops := Table.drop id s.lfl.ops }
      have s := match words with
        | none =>
          if r.overtaken then s
          else
            match r.use with
            | .gather _ => s.degrade r
            | .degraded _ _ | .proxy _ | .trailer _ _ _ | .patrol _ _ _ | .visit => s.degradeWords r
        | some ws => (ws.take r.count).zipIdx.foldl (fun s (w : List Byte × Nat) => s.deliverWord r (r.first + w.2) w.1) s
      .next s.settleReadsOf
    | _ => .next s

/-! Remote reads (R128, R140) -/

/-- Where a container is that another pair names (R127): the home follows it as it moves. -/
def State.homePlace (s : State) (loc : Loc) : Loc :=
  match loc with
  | .remote _ p q g m o n =>
    match s.ddp.homeRefs.find? fun r => r.name == .flash p q g m o n with
    | some r => r.cur
    | none => .flash p q g m o n
  | l => l

/-- REMOTE_READ (R128, R140): another pair, or the peer for a second copy, asks for a container; it goes back as it is stored. The read is internal
work (R77). -/
def execRemoteRead (pair tag piece : Nat) (loc : Loc) (s : State) : Res :=
  .next (s.askFetch (.remote pair tag piece) (s.homePlace loc) 0)

/-- A read at another pair has its answer. -/
def State.remoteDone (s : State) (f : GatherFor) : State := { s with ddp.remote := s.ddp.remote.filter fun r => r.use != f }

/-- REMOTE_READ_DATA (R128): the container comes to the bindery for the piece that asked; none where the home returns none. -/
def execRemoteReadData (tag piece : Nat) (container : Option Container) (s : State) : Res :=
  match s.tag tag with
  | none => .next s
  | some c =>
    match c.job with
    | some (.fetch f loc) => .next ((s.remoteDone f).deliverCopy f loc container)
    | _ =>
      if (s.runOf tag).isSome then
        .next ((s.remoteDone (.span ((s.runOf tag).getD 0) piece)).spanCopy tag piece container)
      else if c.write.isSome then
        .next ((s.remoteDone (.verify tag piece)).modChunk tag piece fun k => { k with copy := some container })
      else
        .next ((s.remoteDone (.piece tag piece)).modPiece tag piece fun p => if p.copy.isNone then { p with copy := some container } else p)

end Sys2Proof.Machine
end

