-- ==== Sys2Proof/Machine/Keys.lean ====
section
/-!
DEFINITION. Machine/Keys.lean: the meanings of the key commands of chapter 05: KEKs, loads and restores, retire, revoke and the
re-key sweep.
-/
namespace Sys2Proof.Machine
open Sys2Proof

/-- A cipher slot. -/
def State.cipherSlot (s : State) (n : Nat) : CipherSlot := Table.get n {} s.keys.cipher

/-- The counts of R159 follow the slots. -/
def State.noteKeys (s : State) : State :=
  have s := s.wr Reg.KEY_SLOTS_USED.CIPHER (s.keys.cipher.countP fun e => e.2.cur.isSome || e.2.prev.isSome)
  have s := s.wr Reg.KEY_SLOTS_USED.DIGEST s.keys.digest.length
  s.wr Reg.KEY_SLOTS_USED.DAMAGED (if (s.keys.cipher.any fun e => e.2.damaged) || s.keys.digest.any fun e => e.2.damaged then 1 else 0)

/-- The state with a cipher slot put in place. -/
def State.setCipher (s : State) (n : Nat) (k : CipherSlot) : State := ({ s with keys.cipher := Table.put n k s.keys.cipher }).noteKeys

/-- A cipher slot is changed, and its entry sealed anew in both copies of the table (R154). -/
def State.sealCipher (s : State) (n : Nat) (k : CipherSlot) : State :=
  let (a, s) := s.fresh
  let (b, s) := s.fresh
  s.setCipher n { k with seals := (a, b) }

/-- The ledger entry of a cipher slot (R155). -/
def State.ledger (s : State) (n : Nat) : Ledger := Table.get n {} s.keys.ledger

/-- The state with a ledger entry put in place. -/
def State.setLedger (s : State) (n : Nat) (l : Ledger) : State := { s with keys.ledger := Table.put n l s.keys.ledger }

/-- The stored containers under a generation (R152). -/
def Ledger.count (l : Ledger) (gen : Nat) : Nat := (Table.get gen (0, false) l.counts).1

/-- The type that a code of R149 names. -/
def keyTypeOf : Nat → Option KeyType
  | 1 => some .aes128
  | 2 => some .aes256
  | 3 => some .xts128
  | 4 => some .xts256
  | 5 => some .hmac
  | 6 => some .sak
  | _ => none

/-- Whether a SAK's slot field is in range (R150). -/
def sakFieldOk (slot : Nat) : Bool := decide (slot < 4096) && (slot / 512 % 2 == 0 || slot / 16 % 32 == 0)

/-- Whether a load block's fields are in range (R150). -/
def KeyLoad.fieldsOk (k : KeyLoad) : Bool :=
  match keyTypeOf k.type with
  | none => false
  | some t =>
    have slotOk := match t with
      | .sak => sakFieldOk k.slot
      | .hmac => decide (k.slot < 4096)
      | _ => decide (k.slot < 8192)
    decide (1 ≤ k.kek ∧ k.kek ≤ 15) && decide (k.tenant < 4096) && slotOk && decide (k.op ≤ 1) && (k.op != 0 || k.gen == 0) &&
      k.wrapped.length == t.bytes + 8 && k.reservedZero && (k.op != 1 || t != .hmac || k.gen == 0)

/-- Whether the slot of a load holds keys of another tenant (R150); for a load, the generations that the ledger names count too, whether they
have been restored or not (R155). -/
def State.slotTaken (s : State) (t : KeyType) (k : KeyLoad) : Bool :=
  match t with
  | .sak => false
  | .hmac => (Table.find k.slot s.keys.digest).any fun d => d.tenant != k.tenant
  | _ =>
    ((Table.find k.slot s.keys.cipher).any fun c => (c.cur.isSome || c.prev.isSome) && c.tenant != k.tenant) ||
      (k.op == 0 && (Table.find k.slot s.keys.ledger).any fun l => (l.cur.isSome || l.prev.isSome) && l.tenant != k.tenant)

/-- Whether a key type belongs to cipher slots. -/
def KeyType.isCipher : KeyType → Bool
  | .aes128 | .aes256 | .xts128 | .xts256 => true
  | .hmac | .sak => false

/-- The generation that a load of a cipher slot issues (R150): the next after the last issued that no stored container uses. -/
def Ledger.nextGen (l : Ledger) : Option Nat :=
  ((List.range 256).map fun k => (l.last + 1 + k) % 256).find? fun g => l.count g == 0

/-- Whether a restore is accepted (R155): a cipher key for what the ledger shows, a digest key always (R507), a SAK, of which the ledger shows
nothing, never. -/
def State.restoreOk (s : State) (t : KeyType) (k : KeyLoad) : Bool :=
  if t.isCipher then
    match Table.find k.slot s.keys.ledger with
    | none => false
    | some l =>
      l.tenant == k.tenant && (l.cur == some k.gen || l.prev == some k.gen) && !(Table.get k.gen (0, false) l.counts).2
  else t == .hmac

/-- Whether the two halves of a key are equal (R150). -/
def halvesEqual (t : KeyType) (key : List Byte) : Bool :=
  (t == .xts128 || t == .xts256) && key.take (t.bytes / 2) == key.drop (t.bytes / 2)

/-- A load or restore is checked in the order of R150, and its key unwrapped. -/
def State.checkLoad (s : State) (k : KeyLoad) : Except Nat (KeyType × List Byte) :=
  if !(s.locked 21) then .error 0x3202
  else if !k.fieldsOk then .error 0x3202
  else
    match keyTypeOf k.type with
    | none => .error 0x3202
    | some t =>
      have slot := s.cipherSlot k.slot
      if t != .sak && s.rd Reg.KEY_SLOT_BASE.BASE == 0 then .error 0x100E
      else if s.slotTaken t k then .error 0x3208
      else if t.isCipher && k.op == 0 && (s.ledger k.slot).cur.isSome && (s.ledger k.slot).prev.isSome then .error 0x320D
      else
        match (Table.find k.kek s.keys.keks).bind fun kek => kwUnwrap kek k.wrapped with
        | none => .error 0x320A
        | some key =>
          if halvesEqual t key then .error 0x3209
          else if k.op = 1 ∧ s.restoreOk t k = false then .error 0x3207
          else if k.op = 0 ∧ t.isCipher ∧ slot.damaged then .error 0x3207
          else if k.op = 0 ∧ t.isCipher ∧ (s.ledger k.slot).nextGen.isNone then .error 0x320D
          else .ok (t, key)

/-- A new generation of an envelope key restarts the session counters of the sets that use its slot (R283). -/
def State.restartCounters (s : State) (slot : Nat) : State :=
  { s with rep.sets := Table.mapVals (fun n (x : RepSet) =>
      if s.rd Reg.REP_SET_CFG.KEY_SLOT n = slot then { x with stream := { x.stream with counter := 0 } } else x) s.rep.sets }

/-- A cipher key is loaded: a new generation (R150). -/
def State.loadCipher (s : State) (t : KeyType) (k : KeyLoad) (key : List Byte) : State :=
  have l := s.ledger k.slot
  have slot := s.cipherSlot k.slot
  have g := l.nextGen.getD 0
  have old := if l.cur.isSome then slot.cur else slot.prev
  have s := s.sealCipher k.slot { tenant := k.tenant, cur := some { gen := g, type := t, key := key }, prev := old }
  have s := { s with keys.gone := s.keys.gone.filter fun x => x != (k.slot, g) }
  s.setLedger k.slot { l with tenant := k.tenant, cur := some g, prev := l.cur.or l.prev, last := g }

/-- A cipher generation is restored in its place (R154, R155); the slot stays Damaged until every generation is back. -/
def State.restoreCipher (s : State) (t : KeyType) (k : KeyLoad) (key : List Byte) : State :=
  have l := s.ledger k.slot
  have slot := s.cipherSlot k.slot
  have g : KeyGen := { gen := k.gen, type := t, key := key }
  have slot := if l.cur = some k.gen then { slot with tenant := k.tenant, cur := some g } else { slot with tenant := k.tenant, prev := some g }
  have whole := slot.cur.isSome == l.cur.isSome && slot.prev.isSome == l.prev.isSome
  s.sealCipher k.slot { slot with damaged := slot.damaged && !whole }

/-- A SAK is installed in its secure association, which is enabled with packet numbers from 1 (R44, R150). -/
def State.loadSak (s : State) (k : KeyLoad) (key : List Byte) : State :=
  have slot := k.slot
  have lport := 4 * (slot / 1024 % 4) + slot % 4
  have an := slot / 4 % 4
  have p := Table.get lport {} s.ports
  have sa : SecAssoc := { enabled := true, key := key, salt := k.salt, ssci := k.ssci }
  have p := if slot / 512 % 2 = 1 then { p with txSa := Table.put an sa p.txSa, txAn := an }
    else { p with rxSa := Table.put (slot / 16 % 32 * 4 + an) sa p.rxSa }
  { s with ports := Table.put lport p s.ports }

/-- Writes whose chunks wait for the states of a digest slot that can no longer serve end (R111, R153). -/
def State.endKeyWaits (s : State) (slot code : Nat) : State :=
  (s.cmd.tags.filter fun e => s.rd Reg.DDP_DOMAIN_KEYS.DIGEST_SLOT e.2.tenant == slot && e.2.write.any fun (w : WriteJob) =>
      w.chunks.any fun k => k.state == .waiting).foldl (fun s e => s.failWrite e.1 (vendor 0xE1) code) s

/-- A lane's copy of a digest slot's states is void. -/
def State.dropStates (s : State) (slot : Nat) : State :=
  { s with bnd.states := Table.mapVals (fun _ l => l.filter fun x => x != slot) s.bnd.states }

/-- A slot-table entry fails in both copies (R154): the slot enters Damaged, with event 0x320F, and uses of it fail with 0x3207. -/
def State.damageSlot (s : State) (kind : SlotKind) (n : Nat) : State :=
  match kind with
  | .cipher =>
    if Table.has n s.keys.cipher then
      (s.setCipher n { s.cipherSlot n with cur := none, prev := none, damaged := true }).event1 0x320F n
    else s
  | .digest =>
    match Table.find n s.keys.digest with
    | none => s
    | some d =>
      have s := { s with keys.digest := Table.put n { d with damaged := true, ready := false } s.keys.digest }
      ((s.noteKeys.event1 0x320F n).dropStates n).endKeyWaits n 0x3207

/-- One copy of a slot-table entry fails (R154): the entry is read from the other, and the damaged copy is rewritten. -/
def State.resealSlot (s : State) (kind : SlotKind) (n : Nat) (second : Bool) : State :=
  let (v, s) := s.fresh
  have fix (x : Nat × Nat) : Nat × Nat := if second then (x.1, v) else (v, x.2)
  match kind with
  | .cipher => { s with keys.cipher := Table.modify n (fun (k : CipherSlot) => { k with seals := fix k.seals }) s.keys.cipher }
  | .digest => { s with keys.digest := Table.modify n (fun (k : DigestSlot) => { k with seals := fix k.seals }) s.keys.digest }

/-- A digest key is put into its slot. -/
def State.setDigest (s : State) (slot tenant : Nat) (key : List Byte) : State :=
  let (a, s) := s.fresh
  let (b, s) := s.fresh
  State.dropStates { s with keys.digest := Table.put slot { tenant := tenant, key := key, seals := (a, b) } s.keys.digest } slot

/-- A slot-table entry found damaged, if any: in the first copy, the second, or both (R154). -/
def State.damageAny (s : State) (d : Option (SlotKind × Nat × Bool × Bool)) : State :=
  match d with
  | some (kind, n, true, true) => s.damageSlot kind n
  | some (kind, n, true, false) => s.resealSlot kind n false
  | some (kind, n, false, true) => s.resealSlot kind n true
  | some (_, _, false, false) | none => s

/-- KEY_LOAD (R150, R151, R154, R155, R507). `damaged` names a slot and the copies of its table entry that are found
unreadable. -/
def execKeyLoad (c : HostCmd) (load : KeyLoad) (damaged : Option (SlotKind × Nat × Bool × Bool)) (s : State) : Res :=
  have s := s.damageAny damaged
  .next (s.ringGate c .keys fun sl =>
    if !(sl.mayName load.tenant) then s.complete c 0x1006
    else
      match s.checkLoad load with
      | .error code =>
        (if code = 0x320A then s.bump Reg.KEY_UNWRAP_FAIL.COUNT else s).complete c code
      | .ok (t, key) =>
        match t with
        | .sak => (s.loadSak load key).complete c 0
        | .hmac =>
          (s.setDigest load.slot load.tenant key).noteKeys.complete c 0
        | .aes128 | .aes256 | .xts128 | .xts256 =>
          if load.op = 0 then ((s.loadCipher t load key).restartCounters load.slot).complete c 0 else (s.restoreCipher t load key).complete c 0)

/-- Whether a cipher slot has anything to revoke: keys, or generations that the ledger names and no restore has brought back. -/
def State.slotInUse (s : State) (slot : Nat) : Bool := Table.has slot s.keys.cipher || Table.has slot s.keys.ledger

/-- The tenant that a cipher slot is bound to (R149, R155). -/
def State.slotTenant (s : State) (slot : Nat) : Nat :=
  match Table.find slot s.keys.ledger with
  | some l => l.tenant
  | none => (s.cipherSlot slot).tenant

/-- KEY_RETIRE (R152): the previous generation goes, unless containers are stored under it. -/
def execKeyRetire (c : HostCmd) (slot : Nat) (s : State) : Res :=
  .next (s.ringGate c .keys fun sl =>
    have k := s.cipherSlot slot
    have l := s.ledger slot
    if 8192 ≤ slot then s.complete c 0x3202
    else if s.slotInUse slot && !(sl.mayName (s.slotTenant slot)) then s.complete c 0x1006
    else
      match l.prev with
      | none => s.complete c 0
      | some g =>
        if l.count g ≠ 0 then s.complete c 0x320E
        else ((s.sealCipher slot { k with prev := none }).setLedger slot { l with prev := none }).complete c 0)

/-- A generation's ledger count is marked revoked (R155). -/
def Ledger.revoke (l : Ledger) : Ledger :=
  have hit (g : Nat) : Bool := l.cur == some g || l.prev == some g
  { l with cur := none, prev := none, counts := Table.mapVals (fun g c => (c.1, c.2 || hit g)) l.counts }

/-- A digest slot is emptied (R153, R507); writes whose chunks wait for its states end. -/
def State.emptyDigest (s : State) (slot : Nat) : State :=
  ((({ s with keys.digest := Table.drop slot s.keys.digest }).noteKeys).dropStates slot).endKeyWaits slot 0x3001

/-- KEY_REVOKE (R152, R153, R155, R507): never refused to whoever may name the slot's tenant. -/
def execKeyRevoke (c : HostCmd) (kind : SlotKind) (slot : Nat) (s : State) : Res :=
  .next (s.ringGate c .keys fun sl =>
    match kind with
    | .cipher =>
      if !(s.slotInUse slot) then s.complete c 0
      else if !(sl.mayName (s.slotTenant slot)) then s.complete c 0x1006
      else
        have l := s.ledger slot
        have s := { s with keys.gone := s.keys.gone ++ (l.cur.toList ++ l.prev.toList).map fun g => (slot, g) }
        have s := s.setLedger slot l.revoke
        (if Table.has slot s.keys.cipher then
          s.sealCipher slot { s.cipherSlot slot with cur := none, prev := none, damaged := false }
        else s).complete c 0
    | .digest =>
      match Table.find slot s.keys.digest with
      | none => s.complete c 0
      | some d => if sl.mayName d.tenant then (s.emptyDigest slot).complete c 0 else s.complete c 0x1006)

/-- The previous generation of a domain's slot. -/
def State.oldGen (s : State) (domain : Nat) : Option Nat :=
  (s.ledger (s.rd Reg.DDP_DOMAIN_KEYS.CIPHER_SLOT domain)).prev

/-- The sweeps of a domain complete once nothing is stored under the previous generation (R152). -/
def State.settleSweep (s : State) (domain : Nat) : State :=
  have slot := s.rd Reg.DDP_DOMAIN_KEYS.CIPHER_SLOT domain
  have left := match s.oldGen domain with
    | some g => (s.ledger slot).count g
    | none => 0
  if left = 0 then
    have waiting := Table.get domain [] s.keys.sweeps
    waiting.foldl (fun s c => s.complete c 0) { s with keys.sweeps := Table.drop domain s.keys.sweeps }
  else s

/-- Every sweep is looked at. -/
def State.settleSweeps (s : State) : State := (s.keys.sweeps.map Prod.fst).foldl State.settleSweep s

/-- KEY_RESWEEP (R152): the domain's containers move to the current generation. -/
def execKeyResweep (c : HostCmd) (domain : Nat) (s : State) : Res :=
  .next (s.ringGate c .keys fun sl =>
    if 4096 ≤ domain then s.complete c 0x3202
    else if !(sl.mayName domain) then s.complete c 0x1006
    else if (s.cipherSlot (s.rd Reg.DDP_DOMAIN_KEYS.CIPHER_SLOT domain)).cur.isNone then s.complete c 0x3207
    else ({ s with keys.sweeps := Table.upd domain [] (fun l => l ++ [c]) s.keys.sweeps }).settleSweep domain)

/-- Whether a container is being moved already: it is read for a sweep, or staged for a signature, or in one in flight. -/
def State.onTheMove (s : State) (loc : Loc) : Bool :=
  (s.fetching fun f l => l == loc && f == .rekey) || (s.keys.rekeyed.any fun e => e.1 == loc) ||
    (s.sig.staged.any fun e => e.2.any fun x => x.1 == loc) || (s.sig.flight.any fun f => f.moves.any fun m => m.1 == loc)

/-- REKEY_SWEEP_STEP (R152): the next stored container of the domain under the previous generation is read, or one that has been
read is encrypted under the current generation and gathered for sewing in its pool. `fault` is a dummy round with a wrong result (R156): the
container is read and encrypted again later. -/
def execRekeySweepStep (step : RekeyStep) (s : State) : Res :=
  if !(Table.has step.domain s.keys.sweeps) then .next s
  else
    match s.keys.rekeyed.find? fun e => s.domainOf e.1 == step.domain with
    | some e =>
      have s := { s with keys.rekeyed := s.keys.rekeyed.filter fun x => x != e }
      have h := Header.parse e.2
      match s.decodeContainer step.domain e.1.size e.2 with
      | .error (.damage code) => .next (((s.countDecode code).event1 code step.domain).settleSweep step.domain)
      | .error (.key _) => .next (s.settleSweep step.domain)
      | .ok plain =>
        if s.dummyFails step.fault then .next ((s.bump Reg.BND_CIPHER_FAULT.COUNT).event1 0x320C step.domain)
        else
        match s.buildContainer step.domain plain h.cut h.lane with
        | .error _ => .next s
        | .ok b => .next { s with sig.staged := Table.upd (e.1.pool.getD 0) [] (fun l => l ++ [(e.1, b)]) s.sig.staged }
    | none =>
      have slot := s.rd Reg.DDP_DOMAIN_KEYS.CIPHER_SLOT step.domain
      match s.keys.stored.find? fun m =>
          m.domain == step.domain && m.slot == slot && some m.gen == s.oldGen step.domain && m.loc.quire.isSome && !(s.onTheMove m.loc) with
      | some m => .next (s.askFetch .rekey m.loc step.domain)
      | none => .next (s.settleSweep step.domain)

/-- KEK_LOAD (R151, R159): before the lock, a write of KEY_KEK_CMD with GO loads the data registers into the KEK and clears them. -/
def execKekLoad (value : Nat) (s : State) : Res :=
  have index := value % 16
  if s.writable 21 && !(s.locked 21) && value.testBit 4 && index != 0 then
    have key := (List.range 4).flatMap fun i => le 8 (s.rd Reg.KEY_KEK_DATA.DATA i)
    have s := (List.range 4).foldl (fun s i => s.wr Reg.KEY_KEK_DATA.DATA 0 i) s
    .next (({ s with keys.keks := Table.put index key s.keys.keks }).wr Reg.KEY_KEK_STATUS.LOADED
      (s.rd Reg.KEY_KEK_STATUS.LOADED ||| 2 ^ (index - 1)))
  else .next s

end Sys2Proof.Machine
end

