-- ==== Sys2Proof/Machine/Map.lean ====
section
/-!
DEFINITION. Machine/Map.lean: snapshots and clones, consistency groups, page faults and reclaim, namespaces and pool moves, and the map
cache (chapter 09).
-/
namespace Sys2Proof.Machine
open Sys2Proof

/-! Snapshots and clones (R267 to R269) -/

/-- The ID of a Snapshot Create (R267 step 2): the one named, or the lowest free one. -/
def State.snapIdFor (s : State) (k : Capsule) : Option Nat := if k.cdw10 = 0x10000 then s.freeSnapId k.nsid else some k.cdw10

/-- SNAPSHOT_CREATE (R267): the ID is chosen, the cut taken at this ring time, and the record queued. A member of a consistency group has
its cut already (R271). -/
def execSnapshotCreate (tag : Nat) (s : State) : Res :=
  .next (s.begin tag .snapshotCreate fun c s =>
    match c.change with
    | some op => s.queueMeta tag c.cap.nsid op
    | none =>
      have t := s.ringTime
      match s.snapIdFor c.cap with
      | none => s.finish tag (vendor 0xC0)
      | some id => (s.takeCut c.cap.nsid id t none).queueMeta tag c.cap.nsid (.snapCreate c.cap.nsid id t none))

/-- SNAPSHOT_DELETE (R268): 0xC2 where the ID names no snapshot or one being deleted, 0xC4 where a clone uses it; else it is marked and
the record queued. -/
def execSnapshotDelete (tag : Nat) (s : State) : Res :=
  .next (s.begin tag .snapshotDelete fun c s =>
    have id := c.cap.cdw10
    have s := s.cacheLookup (s.snapAddr (snapKey c.cap.nsid id))
    match s.snap c.cap.nsid id with
    | none => s.finish tag (vendor 0xC2)
    | some x =>
      if x.deleting then s.finish tag (vendor 0xC2)
      else if s.snapUsed c.cap.nsid id then s.finish tag (vendor 0xC4)
      else
        have s := { s with map.snaps := Table.put (snapKey c.cap.nsid id) { x with deleting := true } s.map.snaps }
        (s.qmSnap (snapKey c.cap.nsid id)).queueMeta tag c.cap.nsid (.snapDelete c.cap.nsid id))

/-- An entry of Snapshot List (R73, R266): ID, flags, ring time of the cut. -/
def snapListEntry (id : Nat) (x : Snapshot) : List Byte :=
  have flags := (if x.group.isSome then 1 else 0) + (if 0 < x.clones then 2 else 0) + (if x.deleting then 4 else 0)
  le 2 id ++ le 2 flags ++ zeros 4 ++ le 8 x.time

/-- The data of a command served for the peer's initiator goes to the receiving head, which sends it on (R361). -/
def State.sendResult (s : State) (t : Nat) (c : Cmd) (bytes : List Byte) : State :=
  if c.cls = .forwardedIn then
    have h : FwdHeader := { rtag := c.peerTag.getD 0, otag := t, tenant := c.tenant }
    s.sendRing (.forwardData h [{ ext := { addr := 0, len := bytes.length, loc := .unmapped }, container := bytes }])
  else s.sendData t 0 bytes

/-- SNAPSHOT_LIST (R73): entries from the first ID named on, as many as the dwords asked for hold; DW0 counts them. -/
def execSnapshotList (tag : Nat) (s : State) : Res :=
  .next (s.begin tag .snapshotList fun c s =>
    have ids := (s.snapIds c.cap.nsid).filter fun i => decide (c.cap.cdw10 ≤ i)
    have take := (ids.mergeSort fun a b => decide (a ≤ b)).take ((c.cap.cdw11 + 1) / 4)
    have bytes := take.flatMap fun i => match s.snap c.cap.nsid i with
      | some x => snapListEntry i x
      | none => []
    have s := if bytes.isEmpty then s else s.sendResult tag c bytes
    s.finish tag { success with dw0 := take.length })

/-- CLONE_CREATE (R269): the record is queued; the target stands at its commit point, with its NSID in DW0. -/
def execCloneCreate (tag : Nat) (s : State) : Res :=
  .next (s.begin tag .cloneCreate fun c s =>
    (s.cacheLookup (s.snapAddr (snapKey c.cap.nsid c.cap.cdw10))).queueMeta tag c.cap.nsid (.clone c.cap.nsid c.cap.cdw10 c.cap.cdw11))

/-! Consistency groups (R271) -/

/-- One member's cut of a consistency group (R267, R271). -/
def State.cutMember (s : State) (group time t : Nat) : State :=
  match s.tag t with
  | none => s
  | some c =>
    match s.snapIdFor c.cap with
    | none => s.refuse t (vendor 0xC0)
    | some id =>
      (s.takeCut c.cap.nsid id time (some group)).modTag t fun c => { c with change := some (.snapCreate c.cap.nsid id time (some group)) }

/-- Ring time has reached the T of an armed group (R271): the cuts of the joined members are taken, TAKEN set, ARMED cleared, and event 0x4007
counts the members, which then go on. Before T nothing happens. -/
def State.consistencyCut (s : State) (group : Nat) : State :=
  have time := s.rd Reg.MAP_CG_TIME.T group
  if 256 ≤ group || !(s.on Reg.MAP_CG_CFG.ARMED group) || s.ringTime < time then s
  else
    have members := Table.get group [] s.map.joined
    have s := members.foldl (fun s t => s.cutMember group time t) s
    have s := { s with map.joined := Table.drop group s.map.joined }
    have s := (s.wr Reg.MAP_CG_CFG.TAKEN 1 group).wr Reg.MAP_CG_CFG.ARMED 0 group
    (s.event 0x4007 (le 4 group ++ le 4 members.length)).releaseHeld

/-- CONSISTENCY_CUT (R271). -/
def execConsistencyCut (group : Nat) (s : State) : Res := .next (s.consistencyCut group)

/-- CG_ARM (R271): a group armed in time has TAKEN and JOINED clear; T at or below the ring time has no effect but event 0x4008. A cut that is due is
taken first. A write of 1 to a group that is armed changes nothing: its members stay joined (DESIGN CHOICE, log entry 126). -/
def execCgArm (group : Nat) (s : State) : Res :=
  if 256 ≤ group || !(s.writable 13) then .next s
  else
    have s := s.consistencyCut group
    if s.rd Reg.MAP_CG_TIME.T group ≤ s.ringTime then .next (s.event 0x4008 (le 4 group ++ le 4 0))
    else if s.on Reg.MAP_CG_CFG.ARMED group then .next s
    else .next (((s.wr Reg.MAP_CG_CFG.ARMED 1 group).wr Reg.MAP_CG_CFG.TAKEN 0 group).wr Reg.MAP_CG_CFG.JOINED 0 group)

/-- CG_ABANDON (R271): joined members release their locks and complete with 0xC6, and event 0x4008 records no member. From T on the cut is taken, and
the write finds ARMED at 0. -/
def execCgAbandon (group : Nat) (s : State) : Res :=
  if 256 ≤ group || !(s.writable 13) then .next s
  else
    have s := s.consistencyCut group
    if s.on Reg.MAP_CG_CFG.ARMED group then
      have members := Table.get group [] s.map.joined
      have s := { s with map.joined := Table.drop group s.map.joined }
      have s := ((s.wr Reg.MAP_CG_CFG.ARMED 0 group).wr Reg.MAP_CG_CFG.JOINED 0 group).event 0x4008 (le 4 group ++ le 4 0)
      .next (members.foldl (fun s t => s.refuse t (vendor 0xC6)) s)
    else .next s

/-! Pages (R256, R261, R262) -/

/-- A range of blocks of a tree is listed as lost (R212): extent entries, each of as many blocks as its count field holds. -/
def State.listRange (s : State) (nsid snap lba blocks : Nat) : State :=
  have most := 2 ^ 32 - 1
  (List.range ((blocks + most - 1) / most)).foldl (fun s k =>
    s.lostAppend (lostEntry 2 0 (s.tenantOf nsid) 0 0 0 0 0 nsid (lba + k * most) (min most (blocks - k * most)) snap s.ringTime)) s

/-- The range below a page that cannot be rebuilt is listed as lost, in every tree that the page belongs to (R212, R256), within the blocks of the
namespace. -/
def State.listPage (s : State) (n : Nat) : State :=
  have p := s.page n
  (s.trees.filter fun t => (s.walk 8 t.2.2 p.lo p.hi).contains n).foldl (fun s t =>
    have lba := p.lo / 4096
    have size := ((Table.find t.1 s.map.ns).map Namespace.size).getD 0
    s.listRange t.1 t.2.1 lba (min ((p.hi + 4095) / 4096) size - lba)) s

/-- The lookups and updates that wait for a page go on (R256). What was rewritten in it is walked (R258), so segments may be released. -/
def State.resumeFaults (s : State) (n : Nat) : State :=
  have hit := (s.map.faults.filter fun f => f.1 == n).map Prod.snd
  have s := { s with
    map.faults := s.map.faults.filter fun f => f.1 != n
    map.late := s.map.late.filter fun e => e.1 != n }
  (hit.foldl State.resumeTag s).resumeMap.settleSegments

/-- PAGE_IN_COMPLETE (R256, R262): the page takes a slot and the lookups that wait go on; one rebuilt from parity records 0x4001, and one
that cannot be rebuilt 0x400B, with its extents lost. Without a free slot page faults wait. -/
def execPageInComplete (page : Nat) (result : PageIn) (s : State) : Res :=
  if !(Table.has page s.map.pages) || (s.page page).slot.isSome then .next s
  else
    match result with
    | .unreadable =>
      have s := (s.setPage page { s.page page with gone := true }).event 0x400B (le 8 page)
      .next ((s.listPage page).resumeFaults page)
    | .good | .rebuilt =>
      have s := if result = .rebuilt then s.event 0x4001 (le 8 page) else s
      match s.takeSlot ((s.map.pages.filter fun e => e.2.kids.any fun k => k.2 == page).map Prod.fst) with
      | (none, s) => .next s
      | (some k, s) =>
        have s := (s.setPage page { s.page page with slot := some k, image := true }).noteMap
        .next ((s.dropPageLines page).resumeFaults page)

/-- RECLAIM_PAGE (R261): a page at count zero is freed; its children and containers lose a reference each, and its number returns to the
free list, for which updates may wait (R262). Firmware invalidates its directory line (R275). -/
def execReclaimPage (s : State) : Res :=
  match s.map.zero with
  | [] => .next s
  | n :: rest =>
    if s.on Reg.MAP_CTRL.RECLAIM_EN then
      have p := s.page n
      have s := { s with
        map.zero := rest
        map.pages := Table.drop n s.map.pages
        map.freed := s.map.freed ++ [n]
        map.late := s.map.late.filter fun e => e.1 != n }
      have s := s.dropDir n
      have s := p.kids.foldl (fun s k => s.dropPage k.2) s
      .next (p.exts.foldl (fun s e => s.dropRef e.loc) s).noteMap.resumeMap
    else .next s

/-! Namespaces (R263 to R265) -/

/-- A change of the namespace table asked for by a ring command is internal work (R77), queued as a metadata record once it has its tag. -/
def State.changeNs (s : State) (c : HostCmd) (nsid tenant : Nat) (op : MetaOp) : State :=
  s.askInternal (internalCmd (.change op) (some c) nsid tenant)

/-- NS_CREATE (R263, R397). -/
def execNsCreate (c : HostCmd) (params : NsParams) (s : State) : Res :=
  .next (s.ringGate c .namespaces fun sl =>
    if s.rd Reg.MAP_NS_BASE.BASE = 0 then s.complete c 0x100E
    else if !params.reservedZero || !(decide (1 ≤ params.nsid ∧ params.nsid ≤ 65536)) || s.nsidTaken params.nsid || 4096 ≤ params.tenant ||
        64 ≤ params.pool || 1024 ≤ params.group || !(decide (1 ≤ params.size ∧ params.size ≤ 2 ^ 40)) then s.complete c 0x1001
    else if !(sl.mayName params.tenant) then s.complete c 0x1006
    else if s.numbersLeft (s.groupOf params.group).owner = 0 then s.complete c 0x4002
    else s.changeNs c params.nsid params.tenant (.nsCreate params.nsid params.tenant params.pool params.size params.group params.programs))

/-- NS_CHANGE (R263, R264): a resize, the programs flag, or a pool move. -/
def execNsChange (c : HostCmd) (params : NsParams) (s : State) : Res :=
  .next (s.ringGate c .namespaces fun sl =>
    match Table.find params.nsid s.map.ns with
    | none => s.complete c 0x1001
    | some n =>
      have sizeOk := match params.newSize with
        | some z => decide (1 ≤ z ∧ z ≤ 2 ^ 40)
        | none => true
      have poolOk := match params.newPool with
        | some p => decide (p < 64)
        | none => true
      if !params.reservedZero || !sizeOk || !poolOk then s.complete c 0x1001
      else if !(sl.mayName n.tenant) then s.complete c 0x1006
      else s.changeNs c params.nsid n.tenant (.nsChange params.nsid params.newSize params.newPrograms (params.newPool.map some)))

/-- NS_DELETE (R263): refused with 0x400C while a clone uses one of the namespace's snapshots. -/
def execNsDelete (c : HostCmd) (nsid : Nat) (s : State) : Res :=
  .next (s.ringGate c .namespaces fun sl =>
    match Table.find nsid s.map.ns with
    | none => s.complete c 0x1001
    | some n =>
      if !(sl.mayName n.tenant) then s.complete c 0x1006
      else if (s.snapIds nsid).any (s.snapUsed nsid) then (s.event1 0x400C nsid).complete c 0x400C
      else s.changeNs c nsid n.tenant (.nsDelete nsid))

/-- MAP_IMPORT (R265): the container is appended to an own segment, mirrored with a NEW entry and no fingerprint, and commits under
R29, once it has the tag of its internal work. -/
def execMapImport (c : HostCmd) (nsid addr : Nat) (container : Container) (s : State) : Res :=
  .next (s.ringGate c .namespaces fun sl =>
    match Table.find nsid s.map.ns with
    | none => s.complete c 0x1001
    | some n =>
      have h := Header.parse container
      if !(sl.mayName n.tenant) then s.complete c 0x1006
      else if !(headerGood container n.tenant container.length) || n.size * 4096 < addr + h.orig then s.complete c 0x1001
      else if s.numbersLeft (s.nsOwner nsid) = 0 then s.complete c 0x4002
      else
        have lane := s.pickLane []
        have seg : Segment := { off := addr, len := h.orig, lane := lane, got := h.orig }
        have k : Chunk := { off := addr, bytes := [], lane := lane, fwd := some (h.orig, container), state := .stored container false }
        s.askInternal { internalCmd .handOver (some c) nsid n.tenant with write := some { segs := [seg], chunks := [k] } })

/-- The containers of a moving namespace, in its live tree and snapshots, that lie outside the target pool (R264). -/
def State.toMove (s : State) (nsid target : Nat) : List Loc :=
  ((s.trees.filter fun t => t.1 == nsid).flatMap fun t => (s.extents t.2.2 0 (2 ^ 63)).map Extent.loc).filter fun l =>
    match l with
    | .flash p .. => p != target
    | .cache .. | .remote .. | .lost .. | .zero | .unmapped | .image _ => false

/-- POOL_MOVE_COPY (R264): the mover reads the next container outside the target pool, to be sewn there as collection does. -/
def execPoolMoveCopy (nsid : Nat) (s : State) : Res :=
  match (Table.find nsid s.map.ns).bind fun n => n.moving with
  | none => .next s
  | some target =>
    have busy (l : Loc) : Bool := s.sewing l || (s.fetching fun f x => x == l && f == .collect target) ||
      (Table.get target [] s.sig.staged).any fun e => e.1 == l
    match (s.toMove nsid target).find? fun l => !(busy l) with
    | some l => .next (s.askFetch (.collect target) l (s.tenantOf nsid))
    | none => .next s

/-- POOL_MOVE_COMPLETE (R264): no container is left outside; the pool field is set and moving cleared, with event 0x400A at the record's
commit point. -/
def execPoolMoveComplete (nsid : Nat) (s : State) : Res :=
  match Table.find nsid s.map.ns with
  | none => .next s
  | some n =>
    match n.moving with
    | none => .next s
    | some target =>
      have asked := s.cmd.internal.any fun w => w.made.any fun c => c.job == some (.change (.nsChange nsid none none (some none)))
      if (s.toMove nsid target).isEmpty && !asked then
        .next (s.askInternal (internalCmd (.change (.nsChange nsid none none (some none))) none nsid n.tenant))
      else .next s

/-! The map cache (R272 to R276) -/

/-- The way that takes a line: an invalid one, lowest first, else the one that pseudo-LRU names (R272). -/
def CacheSet.victim (c : CacheSet) : Nat :=
  match (List.range 16).find? fun k => (c.ways.getD k none).isNone with
  | some k => k
  | none => plruWay 4 c.plru 0

/-- A line that a lookup hits with a parity error (R276): it is invalidated, and the lookup misses and fills; MAP_CACHE_PARITY and event 0x4009. -/
def State.parityMiss (s : State) (line : Nat) : State :=
  have k := lineSet line
  have c := s.cacheSet k
  have ways := c.ways.map fun w => if (w.map Prod.fst) = some (lineTag line) then none else w
  have s := { s with map.sets := Table.put k { c with ways := ways } s.map.sets }
  ((s.bump Reg.MAP_CACHE_PARITY.COUNT).event1 0x4009 line).cacheLookup (256 * line)

/-- MAP_CACHE_FILL (R272, R273, R276): the data of a poisoned fill is discarded and its waiters issue a new one; other data takes a way,
a prefetched line without touching pseudo-LRU. Lookups that stall go on. With `parity` the line is present and met with a parity error. -/
def execMapCacheFill (line : Nat) (parity : Bool) (s : State) : Res :=
  if parity && s.on Reg.MAP_CACHE_CTRL.EN && s.linePresent line then .next (s.parityMiss line)
  else
    match s.map.fills.find? fun f => f.line == line with
    | none => .next s
    | some f =>
      have s := { s with map.fills := s.map.fills.filter fun x => x.line != line }
      if f.poisoned then
        if 0 < f.waiters then .next { s with map.fills := s.map.fills ++ [{ f with poisoned := false }] } else .next s.resumeLookups
      else if !(s.on Reg.MAP_CACHE_CTRL.EN) then .next s.resumeLookups
      else
        have k := lineSet line
        have c := s.cacheSet k
        have w := (c.wayOf (lineTag line)).getD c.victim
        have c' : CacheSet := { c with
          ways := c.ways.set w (some (lineTag line, f.prefetch))
          plru := if f.prefetch then c.plru else plruTouch 4 c.plru 0 w }
        .next (State.resumeLookups { s with map.sets := Table.put k c' s.map.sets })

/-- MAP_CACHE_ENABLE (R274): [0] EN, [1] PREFETCH_EN. EN is set only while INV_DONE is 1; clearing it clears INV_DONE. -/
def execMapCacheEnable (value : Nat) (s : State) : Res :=
  if s.writable 13 then
    have s := s.wr Reg.MAP_CACHE_CTRL.PREFETCH_EN (value / 2 % 2)
    if value % 2 = 1 then .next (if s.on Reg.MAP_CACHE_CTRL.INV_DONE then s.wr Reg.MAP_CACHE_CTRL.EN 1 else s)
    else .next (State.resumeLookups ((s.wr Reg.MAP_CACHE_CTRL.EN 0).wr Reg.MAP_CACHE_CTRL.INV_DONE 0))
  else .next s

/-- A maintenance command begins (R275): BUSY is set. -/
def State.beginMaint (s : State) (op : CacheOp) : State := ({ s with map.maint := some op }).wr Reg.MAP_CACHE_MAINT_CMD.BUSY 1

/-- INVALIDATE_ALL (R275, R276): every line goes, and every outstanding fill is poisoned. -/
def execInvalidateAll (s : State) : Res :=
  if s.writable 13 && s.map.maint.isNone then
    .next ((({ s with map.sets := [] }).poisonFills fun _ => true).beginMaint .all)
  else .next s

/-- INVALIDATE_RANGE (R275, R276): LINES consecutive lines from MAP_CACHE_MAINT_ADDR. -/
def execInvalidateRange (lines : Nat) (s : State) : Res :=
  if s.writable 13 && s.map.maint.isNone then
    have first := s.rd Reg.MAP_CACHE_MAINT_ADDR.LINE
    .next ((s.dropLines fun l => decide (first ≤ l ∧ l < first + lines)).beginMaint .range)
  else .next s

/-- INVALIDATE_DONE (R274, R275): BUSY clears, and an invalidate-all sets INV_DONE. -/
def execInvalidateDone (s : State) : Res :=
  match s.map.maint with
  | none => .next s
  | some op =>
    have s := ({ s with map.maint := none }).wr Reg.MAP_CACHE_MAINT_CMD.BUSY 0
    .next (match op with
      | .all => s.wr Reg.MAP_CACHE_CTRL.INV_DONE 1
      | .range => s)

/-! Metadata (R176, R194) -/

/-- A copy of the log is trimmed (R194, R236): the trim page is that of the first page with a live entry, or the region's next page. -/
def State.trimCopy (s : State) (k : Nat) : State :=
  match s.sig.copies[k]? with
  | none => s
  | some c =>
    if !c.valid then s
    else
      have keep := c.pages.dropWhile fun p => decide (p.1 < s.retireMark)
      have page := match keep with
        | p :: _ => p.2
        | [] => (s.leaf c.leaf).logNext
      ({ s with sig.copies := s.sig.copies.set k { c with pages := keep } }).leafOp c.leaf .trim .logTrim (le 4 page)

/-- METADATA_WRITEBACK (R176, R194): dirty pages are written to the metadata pool; the log entries of signatures that are no longer in
flight are retired, and the copies trimmed. -/
def execMetadataWriteback (s : State) : Res :=
  have s := s.cleanPages
  have busy (e : LogEntry) : Bool := s.sig.flight.any fun x => decide (x.seq ≤ e.seq)
  have had := s.sig.live.length
  have s := { s with sig.live := s.sig.live.filter busy }
  have s := if s.sig.live.length < had then
      (List.range s.sig.copies.length).foldl State.trimCopy s
    else s
  .next s.noteLog.noteMap.saveStore

end Sys2Proof.Machine
end

