-- ==== Sys2Proof/Machine/RepSync.lean ====
section
/-!
DEFINITION. Machine/RepSync.lean: differences between anchors, and the resynchronisation of a replica set, as the meanings share them
(chapter 10).
-/
namespace Sys2Proof.Machine
open Sys2Proof

/-- The extents of a member at an anchor's cut time; none at cut time 0, the empty base (R299). -/
def State.anchorExtents (s : State) (x : RepSet) (nsid t : Nat) : List Extent :=
  match x.anchors.find? fun a => a.1 == t with
  | none => []
  | some a =>
    match s.snap nsid (anchorSnap a.2) with
    | some sn => s.extents sn.root 0 (2 ^ 63)
    | none => []

/-- The cut time of a container (R132). -/
def State.cutOf (s : State) (loc : Loc) : Nat :=
  match s.keys.stored.find? fun m => m.loc == loc with
  | some m => m.cut
  | none => 0

/-- The units of a difference in one member (R293): removals of what the base had and the anchor has not, then the anchor's extents that
the base has not: a container cut later than the base in form 2, any other in form 3. -/
def State.diffUnits (s : State) (x : RepSet) (k nsid base t : Nat) : List RepUnit :=
  have old := s.anchorExtents x nsid base
  have new := s.anchorExtents x nsid t
  have same (a b : Extent) : Bool := a.addr == b.addr && a.len == b.len && a.off == b.off && a.loc == b.loc
  have gone := (old.filter fun e => !(new.any (same e))).map fun e => ({ addr := e.addr, len := e.len, member := k, form := 0 } : RepUnit)
  have come := (new.filter fun e => !(old.any (same e))).map fun e =>
    have isNew := decide (base < s.cutOf e.loc)
    x.unitOf k { e with isNew := isNew } [] false
  gone ++ come

/-- Units are made ready: each container of form 2 is fetched from the cache, the leaves or its home (R293, R296). -/
def State.startShip (s : State) (n : Nat) (j : ShipJob) : State :=
  have x := s.repSet n
  have id := x.nextJob
  have need := (j.units.zipIdx.filter fun p => p.1.form == 2).map Prod.snd
  have s := s.setRep n { x with nextJob := id + 1, jobs := Table.put id { j with wait := need } x.jobs }
  have s := j.units.zipIdx.foldl (fun s p => if p.1.form = 2 then s.askFetch (.ship n id p.2) p.1.loc 0 else s) s
  if need.isEmpty then s.pumpShip n id else s

/-- A source takes an anchor at the ring time and ships the difference from a base (R291, R292, R299). -/
def State.shipAnchor (s : State) (n : Nat) (use : AnchorUse) (revert : Bool) : State :=
  have t := s.ringTime
  have base := (s.repSet n).base
  have s := (s.takeAnchor n t).event1 0x600B n
  have x := s.repSet n
  have units := x.members.zipIdx.flatMap fun m => s.diffUnits x m.2 m.1.1 base t
  have s := s.setRep n { x with shipping := some (t, use) }
  s.startShip n { kind := 2, time := t, base := base, revert := revert, units := units }

/-- A resynchronisation starts (R299): event 0x6007, a new session, an anchor, and the difference from the base with REVERT. -/
def State.startResync (s : State) (n : Nat) : State :=
  have s := s.event1 0x6007 n
  have x := s.repSet n
  have s := (s.setRep n { x with state := .resync, jobs := [], shipping := none }).wr Reg.REP_SET_STATE.STATUS 0 n
  have s := s.startSession n
  if (s.repSet n).state = .broken then s else s.shipAnchor n .resync true

/-- Streams end at a takeover or a power-up (R300): a source resynchronises from its base, and ON_BREAK decides whether the completions
that wait are queued at once. A target's streams end with their sessions. -/
def State.endStream (s : State) (n : Nat) : State :=
  if s.repRuns n false then
    have s := if s.on Reg.REP_SET_CFG.ON_BREAK n then s.releaseAll n else s
    s.startResync n
  else if s.repRuns n true then (s.setRep n { s.repSet n with recv := [], working := [] }).startSession n
  else s

/-- The replica sets with a member in some groups end their streams (R300). -/
def State.repTakeover (s : State) (groups : List Nat) : State :=
  have hit := s.rep.sets.filter fun e => e.2.members.any fun m =>
    (Table.find (s.memberNsid e.1 m) s.map.ns).any fun (x : Namespace) => groups.contains x.group
  hit.foldl (fun s e => s.endStream e.1) s

end Sys2Proof.Machine
end

