-- ==== Sys2Proof/Machine/Contest.lean ====
section
/-!
DEFINITION. Machine/Contest.lean: the witness contest, takeover and what follows a lost contest, as the meanings share them
(chapter 13).
-/
namespace Sys2Proof.Machine
open Sys2Proof

/-! The contest (R369) -/

/-- The holder code of this head in a witness record (R245). -/
def State.selfHolder (s : State) : Nat := if s.headB then 2 else 1

/-- The holder code of the peer. -/
def State.peerHolder (s : State) : Nat := 3 - s.selfHolder

/-- Whether a witness record names the peer. -/
def State.namesPeer (s : State) (w : Witness) : Bool := w.crcOk && w.holder == s.peerHolder

/-- LFL_LEAF.FENCED and OWN_TERM follow a record that has been read (R247, R249, R380). -/
def State.noteWitness (s : State) (l : Nat) (w : Witness) : State :=
  if w.crcOk then (s.wr Reg.LFL_LEAF.FENCED (if s.namesPeer w && w.fence then 1 else 0) l).peak Reg.OWN_TERM.TERM w.term else s

/-- The record that this head writes at a term (R245, R369). -/
def State.ownRecord (s : State) (term : Nat) (fence : Bool) : Witness :=
  { holder := s.selfHolder, fence := fence, term := term, epoch := s.rd Reg.DDR_MIR_EPOCH.EPOCH, writer := s.rd Reg.XRN_ADDR.ASSIGNED,
    time := s.ringTime }

/-- WITNESS_CAS of a record to a leaf whose stored term and holder are expected (R246). -/
def State.sendCas (s : State) (l term holder : Nat) (w : Witness) : State :=
  s.leafOp l .witnessCas .witnessCas (le 4 term ++ [byteOf holder] ++ w.bytes)

/-- The records that came back from the reads, without those of leaves that did not answer. -/
def Contest.answered (c : Contest) : List (Nat × Witness) := c.read.filterMap fun e => e.2.map fun w => (e.1, w)

/-- The state with the contest ended. -/
def State.endContest (s : State) : State := ({ s with own.contest := none }).wr Reg.OWN_STATE.CONTESTING 0

/-- A round ends open (R369): event 0x8044; CONTEST_RETRY starts the next. -/
def State.openRound (s : State) (c : Contest) : State :=
  ({ s with own.contest := some { c with opened := true, round := c.round + 1 } }).event1 0x8044 c.round

/-! Takeover (R371 to R373) -/

/-- The groups that the peer owns. -/
def State.peerGroups (s : State) : List Nat := (List.range 1024).filter fun g => (s.groupOf g).owner != s.headB

/-- An adopted write with any byte on a lost line of the mirror region is lost and reported (R466, event 0x90C3). -/
def State.loseAdopted (s : State) : State :=
  have all := (s.wc.mir.filter fun e => e.2.adopted).flatMap fun e => e.2.recs.map fun r => (r, recLocs (!s.headB) e.1 e.2.gen [r])
  have name (r : MirRec) : Nat × Nat × Nat := (r.tag, r.time, r.nsid)
  have bad := (all.filter fun x => x.2.any s.cacheLost).map fun x => name x.1
  s.loseRecords (all.map fun x => (x.1, if bad.contains (name x.1) then x.2 else []))

/-- The peer's Held mirror segments become adopted segments (R173); parts of writes that were not all applied are discarded (R168).
Event 0x90C7 where own and adopted data exceed 24 GiB. -/
def State.adopt (s : State) : State :=
  have adopted (m : MirSeg) : MirSeg := if m.held then { m with adopted := true } else m
  have s := ({ s with
    wc.mir := Table.mapVals (fun _ m => adopted m) s.wc.mir
    wc.rx := []
    wc.ackWait := [] }).noteDirty
  have s := s.loseAdopted
  have n := (s.wc.mir.countP fun e => e.2.adopted) + s.rd Reg.DDR_WC_DIRTY.OWN
  if 24576 < n then s.event1 0x90C7 n else s

/-- Whether a write of the lost head is held complete (R373): a record with its tag, whose parts have all been applied. -/
def heldComplete (recs : List MirRec) (c : Cmd) : Bool :=
  match c.peerTag with
  | none => false
  | some p => recs.any fun r => r.tag == p && r.nsid == c.cap.nsid && match r.body with
    | .write _ _ => true
    | .metadata _ | .release => false

/-- One Forwarded tag is resolved (R373): a write held complete is completed with success; anything else restarts from decode with
event 0x8046, and the data is fetched again, unless an Abort of it is waiting (R91). The second half of a Compare-and-Write restarts with its first. -/
def State.resolveTag (s : State) (recs : List MirRec) (t : Nat) (c : Cmd) : State :=
  have aborts := (s.cmd.tags.filter fun e => e.2.status.isNone && e.2.abortOf.any fun a => a.1 == t).map Prod.fst
  if heldComplete recs c then aborts.foldl (fun s a => s.endAbort a true) (s.finish t success)
  else if c.discard then s.finish t (generic 0x07)
  else if !aborts.isEmpty then aborts.foldl (fun s a => s.endAbort a false) (s.abortTag t)
  else
    have s := (s.restartTag t).event1 0x8046 t
    have s := if c.cap.op = .programRun then s.event1 0x7016 t else s
    if c.cap.fused = .second then s else s.advance t

/-- No suspicion, hold-off, start or rejoin is under way (R367, R371). -/
def State.dropSuspicion (s : State) : State :=
  { s with
    own.suspect := none
    own.holdoff := false
    own.starting := false
    own.rejoin := false }

/-- A move that the peer cannot end ends at a takeover with status 0x8048 (R366, R372). -/
def State.failMove (s : State) (groups : List Nat) : State :=
  match s.own.move with
  | some g =>
    if (s.groupOf g).state == GroupState.moving && !(groups.contains g) then
      ((s.setGroup g { s.groupOf g with state := .settled }).wr Reg.OWN_MOVE_RESULT.STATUS 0x8048).event1 0x8048 g
    else s
  | none => s

/-- No move is under way (R366). -/
def State.clearMove (s : State) : State := ({ s with own.move := none }).wr Reg.OWN_MOVE_RESULT.BUSY 0

/-- The peer's groups become this head's (R372). -/
def State.takeGroups (s : State) (groups : List Nat) : State :=
  groups.foldl (fun s g =>
    s.setGroup g { owner := s.headB, gen := ((s.groupOf g).gen + 1) % 2 ^ 32, state := .settled }) s

/-- The Forwarded tags are resolved (R373). -/
def State.resolveForwarded (s : State) (recs : List MirRec) : State :=
  (s.cmd.tags.filter fun e => e.2.state == .forwarded).foldl (fun s e => s.resolveTag recs e.1 e.2) s

/-- The commands that the peer forwarded to this head are gone (R373). -/
def State.dropInward (s : State) : State :=
  have s := (s.cmd.tags.filter fun e => e.2.cls == .forwardedIn).foldl (fun s e => s.resetTag e.1) s
  { s with cmd.fwdIn := [] }

/-- OWN_TAKEOVER_STAT: the time from the last heartbeat, and the count (R371). -/
def State.countTakeover (s : State) : State :=
  have cycles := match s.own.lastBeat with
    | some t => (s.ringTime - t) / 8
    | none => 0
  (s.wr Reg.OWN_TAKEOVER_STAT.LAST_CYCLES (min (2 ^ 21 - 1) cycles)).bump Reg.OWN_TAKEOVER_STAT.COUNT

/-- What is known of the mirror's held records (R373): those that are not still on their way. -/
def State.heldRecords (s : State) : List MirRec :=
  (s.wc.mir.filter fun e => e.2.held).flatMap fun e => e.2.recs.filter fun r => !(s.wc.rx.contains r)

/-- The first steps of a takeover: the witness, the term, Solo and adoption (R371, R372). -/
def State.openTakeover (s : State) (term : Nat) : State :=
  ((((s.endContest.wr Reg.OWN_STATE.WITNESS_HELD 1).peak Reg.OWN_TERM.TERM term).event1 0x8042 term).dropSuspicion).enterSolo.adopt

/-- A sweep is due of every enabled exact domain, since the lost head's journal has gone with it (R119). -/
def State.sweepExact (s : State) : State :=
  ((List.range 4096).filter fun d => s.on Reg.DDP_DOMAIN_CFG.EN d && s.rd Reg.DDP_DOMAIN_CFG.MODE d == 2).foldl
    (fun s d => s.raise Reg.DDP_DOMAIN_STAT.SWEEP_NEEDED 1 d) s

/-- A ledger entry with what the peer's says of the same slot (R155): no count falls, and what is revoked stays so. -/
def Ledger.join (a b : Ledger) : Ledger :=
  { a with counts := b.counts.foldl (fun t e => Table.upd e.1 (0, false) (fun c => (max c.1 e.2.1, c.2 || e.2.2)) t) a.counts }

/-- The replica of the peer's ledger goes live with the peer's tables (R155, R371). -/
def State.takeLedger (s : State) : State :=
  have add (t : Table Ledger) (e : Nat × Ledger) : Table Ledger :=
    match Table.find e.1 t with
    | none => Table.put e.1 e.2 t
    | some l => Table.put e.1 (l.join e.2) t
  { s with
    keys.ledger := s.keys.peerLedger.foldl add s.keys.ledger
    keys.peerLedger := [] }

/-- A takeover (R371 to R373): Solo, adoption, the peer's groups, the Forwarded tags, the held commands, sweeps, and replication. -/
def State.takeOver (s : State) (term : Nat) : State :=
  have before := s
  have recs := s.heldRecords
  have s := (s.openTakeover term).takeLedger
  have groups := s.peerGroups
  have s := (((s.takeGroups groups).failMove groups).clearMove.setPeer .lost).resolveForwarded recs
  (((s.dropInward.anaChange before).releaseHeld).event1 0x8045 term).countTakeover.sweepExact.repTakeover groups

/-- The leaves that this head reaches itself and uses (R230). -/
def State.reached (s : State) : List Nat :=
  (s.lfl.leaves.filter fun e => e.2.id.isSome && s.on Reg.LFL_LEAF.REACH_SELF e.1 && !(s.on Reg.LFL_LEAF.MISCABLED e.1)).map Prod.fst

/-- A leaf's log region is read page by page (R196): region 0 is port 0's, head A's. -/
def State.scanLog (s : State) (l region first : Nat) : State := s.readLog l (16 + region) region first 16

/-- GRANT TAKE to a leaf that holds this head's record (R231, R371): once accepted, every block of it is this head's. -/
def State.takeBlocks (s : State) (l : Nat) : State := s.leafOp l (.grant 2 0) .grant (2 :: le 4 0)

/-- Whether the last CAS at a leaf of the witness set installed this head's record. -/
def State.wonAt (s : State) (l : Nat) : Bool :=
  (List.range 15).any fun i => s.on Reg.OWN_WITNESS_LEAF.VALID i && s.on Reg.OWN_WITNESS_LEAF.WON i && s.rd Reg.OWN_WITNESS_LEAF.LEAF i == l

/-- The winner installs its record on every other leaf that it reaches, takes the peer's blocks, and reads the peer's log (R196, R231,
R371). -/
def State.fenceLeaves (s : State) (term : Nat) : State :=
  have near := s.reached
  have s := { s with own.fencing := some term }
  have s := near.foldl (fun s l => if s.wonAt l then s.takeBlocks l else s.leafOp l .witnessRead .witnessRead []) s
  match s.metaPool with
  | none => s
  | some p =>
    have ls := (s.members p).filter fun l => near.contains l
    have s := { s with sig.scans := ls }
    ls.foldl (fun s l => s.scanLog l (if s.headB then 0 else 1) 0) s

/-- A contest is won (R369, R371). -/
def State.winContest (s : State) (term : Nat) : State := (s.takeOver term).fenceLeaves term

/-! A lost contest (R374) -/

/-- A head that has lost asks to rejoin where it reaches its peer, or waits for the ring (R374, R375). -/
def State.askRejoin (s : State) : State :=
  if s.peerReached then ({ s with own.rejoin := true }).sendRing (.ring 0x07 [] [])
  else s

/-- This head is the loser of the contest, and no suspicion is under way (R374). -/
def State.setLoser (s : State) : State :=
  { s with
    own.loser := true
    own.suspect := none
    own.holdoff := false
    own.starting := false }

/-- The writes that wait for the mirror end with a status (R374). -/
def State.endWaiting (s : State) (st : NvmeStatus) : State :=
  s.cmd.tags.foldl (fun s e =>
    if e.2.write.any fun w => w.queued && !w.committed then s.finish e.1 st else s) s

/-- A contest is lost (R374): sewing and planning stop, writes that wait for the mirror end with the status that ANA then reports, held
commands go on, and the head rejoins when it can. The code that ANA's Non-optimized gives such a write is a free value, never Asymmetric Access
Transition (R89): the spec names none. -/
def State.loseContest (s : State) (term : Nat) : State :=
  have before := s
  have s := (((s.endContest.wr Reg.OWN_STATE.WITNESS_HELD 0).event1 0x8043 term).setPeer .winner).setLoser
  have v := s.fresh.1
  have s := s.fresh.2
  have sc := if v % 256 = 3 then 0 else v % 256
  have st := if s.peerReached then pathStatus sc else pathStatus 0x02
  (((s.endWaiting st).anaChange before).releaseHeld).askRejoin

/-! The steps of a round (R369, R370) -/

/-- Every CAS is in, or enough are: the round is judged (R369). A round in which no leaf answered is open. -/
def State.judgeRound (s : State) : State :=
  match s.own.contest with
  | none => s
  | some c =>
    have naming := c.back.countP fun e => e.2.any fun w => s.namesPeer w && decide (c.term ≤ w.term)
    if c.opened || c.term = 0 then s
    else if s.majority ≤ c.won.length && !c.won.isEmpty then s.winContest c.term
    else if s.majority ≤ naming && naming != 0 then s.loseContest c.term
    else if c.cas.length = c.answered.length then s.openRound c
    else s

/-- Every record of a round is in (R369, R370): CAS goes to each leaf that answered. A contest at start that finds a record fencing this
head waits for the peer, or for FORCE. -/
def State.startCas (s : State) (c : Contest) : State :=
  if c.atStart && c.answered.any fun e => s.namesPeer e.2 && e.2.fence then
    have s := s.endContest
    { s with own.starting := true }
  else
    have term := 1 + (c.answered.map fun e => e.2.term).foldl max 0
    have s := { s with own.contest := some { c with term := term, cas := [], won := [], back := [], issued := c.issued || !c.answered.isEmpty } }
    have rcd := s.ownRecord term true
    (c.answered.foldl (fun s e => s.sendCas e.1 e.2.term e.2.holder rcd) s).judgeRound

/-- A round goes on once every leaf asked has answered or cannot. -/
def State.settleReads (s : State) : State :=
  match s.own.contest with
  | none => s
  | some c => if c.term = 0 && !c.opened && c.asked.all fun l => c.read.any fun e => e.1 == l then s.startCas c else s

/-- A round starts (R369): WITNESS_READ to every leaf of the set; one that this head does not reach counts as not answering. -/
def State.startRound (s : State) (c : Contest) : State :=
  have set := s.witnessSet
  have near := set.filter fun l => s.on Reg.LFL_LEAF.REACH_SELF l && !(s.on Reg.LFL_LEAF.MISCABLED l)
  have far : List (Nat × Option Witness) := (set.filter fun l => !(near.contains l)).map fun l => (l, none)
  have c' : Contest := { c with term := 0, asked := set, read := far, cas := [], won := [], back := [], opened := false }
  have s := { s with own.contest := some c' }
  (near.foldl (fun s l => s.leafOp l .witnessRead .witnessRead []) s).settleReads

/-- A contest starts (R366, R369, R370), unless one runs, this head destages, or ownership is off. -/
def State.startContest (s : State) (atStart : Bool) : State :=
  if !(s.on Reg.OWN_CTRL.EN) || s.own.contest.isSome || s.wc.mode == .destage || s.own.loser then s
  else (s.wr Reg.OWN_STATE.CONTESTING 1).startRound { asked := [], atStart := atStart }

/-- A witness record comes from a leaf, or the leaf did not answer (R369). After a takeover the winner's record follows (R371). -/
def State.witnessIn (s : State) (l : Nat) (w : Option Witness) : State :=
  have s := match w with
    | some r => s.noteWitness l r
    | none => s
  match s.own.contest with
  | some c =>
    if c.term = 0 && !c.opened && (c.asked.contains l) && !(c.read.any fun e => e.1 == l) then
      ({ s with own.contest := some { c with read := c.read ++ [(l, w.filter Witness.crcOk)] } }).settleReads
    else s
  | none =>
    match s.own.fencing, w with
    | some term, some r => if r.crcOk && decide (r.term < term) then s.sendCas l r.term r.holder (s.ownRecord term true) else s
    | _, _ => s

/-- Whether a record is this head's at a term (R369). -/
def State.isOwnRecord (s : State) (term : Nat) (w : Witness) : Bool :=
  w.crcOk && w.holder == s.selfHolder && w.term == term && w.writer == s.rd Reg.XRN_ADDR.ASSIGNED

/-- OWN_WITNESS_LEAF.WON of a leaf follows its last CAS (R380). -/
def State.noteWon (s : State) (l : Nat) (won : Bool) : State :=
  (List.range 15).foldl (fun s i =>
    if s.on Reg.OWN_WITNESS_LEAF.VALID i && s.rd Reg.OWN_WITNESS_LEAF.LEAF i == l then s.wr Reg.OWN_WITNESS_LEAF.WON (if won then 1 else 0) i
    else s) s

/-- A CAS has been answered with the record as stored, or its path was lost (R227, R369): counted, and the round judged; `installed` tells that the
leaf installed the record (R246). Where the winner's record is now on the leaf, it takes the peer's blocks (R371). -/
def State.casIn (s : State) (l : Nat) (w : Option Witness) (installed : Bool) : State :=
  have s := match w with
    | some r => s.noteWitness l r
    | none => s
  have s := s.noteWon l installed
  match s.own.contest with
  | none => if installed && s.own.fencing.isSome && w.any fun r => s.isOwnRecord r.term r && r.fence then s.takeBlocks l else s
  | some c =>
    if c.term = 0 || c.opened || c.cas.contains l then s
    else
      have mine := installed && w.any fun r => s.isOwnRecord c.term r
      have s := { s with own.contest := some { c with
        cas := l :: c.cas
        won := if mine then l :: c.won else c.won
        back := (l, w) :: c.back } }
      s.judgeRound

end Sys2Proof.Machine
end

