-- ==== Sys2Proof/Machine/Ownership.lean ====
section
/-!
DEFINITION. Machine/Ownership.lean: heartbeats and suspicion, epochs, forwarded commands, explicit moves, health and the rejoin
(chapter 13).
-/
namespace Sys2Proof.Machine
open Sys2Proof

/-! Heartbeats and suspicion (R365, R366, R370) -/

/-- A winner that holds no adopted segment any more takes a head that asks to rejoin (R375): a record of the next term without FENCE on
every leaf it reaches, and a new epoch. -/
def State.takeRejoin (s : State) : State :=
  if s.own.rejoin && s.rd Reg.OWN_STATE.PEER == 3 && s.own.proposed.isNone && !(s.wc.mir.any fun e => e.2.adopted) then
    have term := s.rd Reg.OWN_TERM.TERM
    have rcd := s.ownRecord (term + 1) false
    have s := ({ s with own.fencing := none }).peak Reg.OWN_TERM.TERM (term + 1)
    (s.reached.foldl (fun s l => s.sendCas l term s.selfHolder rcd) s).proposeEpoch
  else s

/-- HEARTBEAT_SEND (R20, R365): on each peer link that is Active, unless this head is lost. -/
def execHeartbeatSend (s : State) : Res :=
  if s.on Reg.OWN_CTRL.EN && !s.power.headLost then
    have seq := (s.own.beatSeq + 1) % 2 ^ 32
    have s := ({ s with own.beatSeq := seq }).takeRejoin
    have flag (b : Bool) : Nat := if b then 1 else 0
    have body := [flag s.headB, s.rd Reg.OWN_HEALTH.SELF_READY, s.rd Reg.OWN_STATE.WITNESS_HELD, s.rd Reg.OWN_STATE.CONTESTING,
      flag (s.wc.mode == .destage), s.wc.mode.code, s.rd Reg.DDR_MIR_EPOCH.EPOCH, s.rd Reg.OWN_TERM.TERM, seq, s.ringTime, s.wc.applied, s.genSum]
    .next ((s.peerPorts false).foldl (fun s l => s.sendRing (.ring 0x01 (l :: body) [])) s)
  else .next s

/-- Acknowledgements, or there being none to wait for, return Suspect to the mode that it left (R170). -/
def State.leaveSuspect (s : State) : State :=
  if s.wc.mode == .suspect && !s.wc.halted && !(s.wc.sent.any fun e => !e.2.acked) then s.setMode s.wc.back else s

/-- Suspicion ends before the contest has issued a CAS (R366): event 0x8041, and the contest is cancelled. -/
def State.clearSuspicion (s : State) : State :=
  have issued := s.own.contest.any Contest.issued
  if s.own.suspect.isSome && !issued then
    have t := { s with own.suspect := none }
    ((((t.endContest.setPeer .healthy).event 0x8041).leaveSuspect).anaChange s).releaseHeld
  else s

/-- HEARTBEAT (R365 to R367, R370, R375): it clears suspicion before the first CAS. Two heads that start together begin their first epoch,
proposed by head A; a head that finds its peer alone in service asks to rejoin. -/
def execHeartbeat (beat : Heartbeat) (s : State) : Res :=
  if !(s.on Reg.OWN_CTRL.EN) || beat.head == s.headB then .next s
  else
    have s := { s with
      own.lastBeat := some s.ringTime
      own.peerEpoch := max s.own.peerEpoch beat.epoch }
    have s := s.peak Reg.OWN_TERM.TERM beat.term
    have s := s.clearSuspicion
    have s := if s.rd Reg.OWN_STATE.PEER = 0 then s.setPeer .healthy else s
    if s.wc.mode = .off && s.own.proposed.isNone && !s.own.rejoin then
      if beat.mode = 3 then .next ({ s with own.starting := false }).askRejoin
      else if beat.mode = 0 && !s.headB then .next ({ s with own.starting := false }).proposeEpoch
      else .next { s with own.starting := false }
    else .next { s with own.starting := false }

/-- PEER_SUSPECT (R366): 80 µs without a heartbeat on either link. -/
def execPeerSuspect (s : State) : Res :=
  have view := s.rd Reg.OWN_STATE.PEER
  if s.on Reg.OWN_CTRL.EN && s.own.lastBeat.isSome && s.own.suspect.isNone && s.wc.mode != .destage && decide (view ≤ 1) && !s.own.loser then
    have t := ({ s with own.suspect := some s.clock }).enterSuspect
    .next ((((t.setPeer .suspect).event 0x8040).anaChange s).startContest false)
  else .next s

/-- STUCK_SUSPECT_EXPIRY (R366): the mirror has been Suspect for STUCK_US while heartbeats arrive. -/
def execStuckSuspectExpiry (s : State) : Res :=
  if s.wc.mode = .suspect && s.own.suspect.isNone then .next (s.startContest false) else .next s

/-- POWER_FAIL_NOTICE (R366): the holdoff begins, unless this head is itself in Destage. -/
def execPowerFailNotice (s : State) : Res :=
  if s.on Reg.OWN_CTRL.EN && s.wc.mode != .destage && !s.own.loser then .next { s with own.holdoff := true } else .next s

/-- PF_HOLDOFF_EXPIRY (R366): a contest starts, unless this head has raised its own warning. -/
def execPfHoldoffExpiry (s : State) : Res :=
  if s.own.holdoff && s.wc.mode != .destage && !s.warned then .next (({ s with own.holdoff := false }).startContest false)
  else .next { s with own.holdoff := false }

/-- START_HEARTBEAT_TIMEOUT (R370): no heartbeat within 10 s of the start. -/
def execStartHeartbeatTimeout (s : State) : Res :=
  if s.own.starting && s.own.lastBeat.isNone then .next (s.startContest true) else .next s

/-- FORCE (R370, R380): the control host starts a contest. -/
def execForce (s : State) : Res := if s.writable 17 then .next (s.startContest false) else .next s

/-- CONTEST_RETRY (R369): the backoff after an open round ends. -/
def execContestRetry (s : State) : Res :=
  match s.own.contest with
  | some c => if c.opened then .next (s.startRound c) else .next s
  | none => .next s

/-! Epochs and the rejoin (R367, R375) -/

/-- A head that rejoins discards its own and mirror regions (R375); what waited for them has ended (R374). -/
def State.discardRegions (s : State) : State :=
  have s := (s.wc.own.map Prod.fst).foldl State.emptySeg s
  ({ s with
    wc.mir := Table.mapVals (fun _ (m : MirSeg) => { gen := m.gen }) s.wc.mir
    wc.sent := []
    wc.rx := [] }).noteDirty

/-- EPOCH_PROPOSAL (R367): the epoch is recorded, the table and witness set taken, and an accept answered; an epoch no higher than this
head's is no proposal. -/
def execEpochProposal (prop : Proposal) (s : State) : Res :=
  if !(s.on Reg.OWN_CTRL.EN) || prop.epoch ≤ s.rd Reg.DDR_MIR_EPOCH.EPOCH || s.wc.mode == .destage then .next s
  else
    have before := s
    have s := if s.own.loser || s.own.rejoin then s.discardRegions else s
    have s := prop.groups.foldl (fun s e => s.setGroup e.1 e.2) s
    have s := s.setWitness prop.witness
    have s := ((s.startEpoch prop.epoch).sendRing (.ring 0x03 [prop.epoch] [])).wr Reg.OWN_STATE.WITNESS_HELD 0
    .next (s.anaChange before).releaseHeld

/-- EPOCH_ACCEPT (R169, R367): mirroring begins in the epoch that this head proposed. -/
def execEpochAccept (epoch : Nat) (s : State) : Res :=
  if s.own.proposed = some epoch && s.wc.mode != .destage then .next (((s.startEpoch epoch).anaChange s).releaseHeld) else .next s

/-- REJOIN_REQUEST (R375): it waits until this head holds no adopted segment. -/
def execRejoinRequest (s : State) : Res :=
  if s.rd Reg.OWN_STATE.PEER = 3 then .next ({ s with own.rejoin := true }).takeRejoin else .next s

/-! Forwarded commands (R361 to R364, R506) -/

/-- The tag that serves a command forwarded in, by the receiving head's tag. -/
def State.servedFor (s : State) (rtag : Nat) : Option (Nat × Cmd) :=
  s.cmd.tags.find? fun e => e.2.cls == .forwardedIn && e.2.peerTag == some rtag

/-- A cancellation reaches the owner (R90, R361): a command before its point of no return is cancelled and answered so; one past it runs
on, and its own end is the answer. -/
def State.cancelForwarded (s : State) (rtag : Nat) : State :=
  have st := generic 0x07
  match s.cmd.fwdIn.find? fun w => w.rtag == some rtag with
  | some w => (s.unqueue w).sendRing (.forwardReply { rtag := rtag, tenant := w.tenant, final := true, status := st })
  | none =>
    match s.servedFor rtag with
    | none => s
    | some e =>
      match e.2.state with
      | .decode | .lockWait | .held | .running => if e.2.status.isNone then s.abortTag e.1 else s
      | .free | .pastReturn | .forwarded | .completing => s

/-- FORWARDED_COMMAND (R87, R361, R362): the owner queues the command for a tag of its FORWARDED reserve; a head that does not own the
group returns it once it has looked. A head that destages takes none (R175). -/
def execForwardedCommand (h : FwdHeader) (cap : Capsule) (s : State) : Res :=
  if s.power.headLost then .next s
  else if h.cancel then .next (s.cancelForwarded h.rtag)
  else
    have w : Waiting := { cap := cap, tenant := h.tenant, at_ := s.cmd.order, rtag := some h.rtag, hostId := h.hostId }
    .next ({ s with
      cmd.order := s.cmd.order + 1
      cmd.fwdIn := s.cmd.fwdIn ++ [w] }).noteTags

/-- A unit of a forwarded write reaches the owner (R363): it becomes a chunk of the write, and is looked up once the write has begun. -/
def State.takeUnit (s : State) (t : Nat) (u : FwdUnit) : State :=
  match s.tag t with
  | none => s
  | some c =>
    have fresh : WriteJob := { segs := [{ off := 0, len := c.cap.nlb * 4096, lane := s.pickLane [] }] }
    have w := c.write.getD fresh
    have off := u.ext.addr - c.cap.slba * 4096
    if (w.chunkAt off).isSome || c.status.isSome then s
    else
      have zero := decide (u.ext.loc = .zero)
      have k : Chunk := { off := off, bytes := [], lane := (w.segs.map Segment.lane).headD 0, fp := if zero then none else u.ext.fp,
                          fwd := some (u.ext.len, u.container), state := if zero then .zero else .waiting }
      have w' : WriteJob := { w with
        chunks := w.chunks ++ [k]
        segs := w.segs.map fun (g : Segment) => { g with got := min g.len (g.got + u.ext.len) } }
      have s := s.modTag t fun c => { c with write := some w' }
      if c.begun then (s.takeForwarded t c.tenant k).tryHandOff t else s

/-- The receiving head asks again for a container that failed its check (R364): the owner takes the second copy (R140). -/
def State.askedAgain (s : State) (t : Nat) (c : Cmd) (u : FwdUnit) : State :=
  have off := u.ext.addr - c.cap.slba * 4096
  match c.pieces.zipIdx.find? fun p => p.1.off == off with
  | none => s
  | some p =>
    if p.1.second.isSome then s
    else
      have s := s.modPiece t p.2 fun (x : ReadPiece) => { x with second := some 0x310B, sent := false, copy := none }
      s.askSecond t p.2 c p.1

/-- A container reaches the receiving head (R364): a new piece of the read, or the second copy of one. -/
def State.takePiece (s : State) (t : Nat) (u : FwdUnit) : State :=
  match s.tag t with
  | none => s
  | some c =>
    have off := u.ext.addr - c.cap.slba * 4096
    match c.pieces.zipIdx.find? fun p => p.1.off == off with
    | some p => if p.1.second.isSome && !p.1.sent then s.modPiece t p.2 fun (x : ReadPiece) => { x with copy := some (some u.container) } else s
    | none =>
      have blank := match u.ext.loc with
        | .zero | .unmapped => true
        | .cache .. | .flash .. | .remote .. | .lost .. | .image _ => false
      have p : ReadPiece := { off := off, len := u.ext.len, chunkOff := u.ext.off, loc := u.ext.loc, copy := if blank then none else some (some u.container) }
      have k := c.pieces.length
      have s := s.modTag t fun (x : Cmd) => { x with pieces := x.pieces ++ [p], begun := true }
      if blank then ((s.pieceDone t k p (zeros p.len)).checkRead t).checkCompare t else s

/-- FORWARDED_DATA (R363, R364, R506), towards the owner or, with `fromOwner`, towards the receiving head. -/
def execForwardedData (fromOwner : Bool) (h : FwdHeader) (units : List FwdUnit) (s : State) : Res :=
  if fromOwner then
    match s.tag h.rtag with
    | none => .next s
    | some c =>
      if c.state != .forwarded then .next s
      else if c.cap.op = .snapshotList || c.cap.op = .programResults then
        .next (units.foldl (fun (s : State) u => s.sendData h.rtag u.ext.addr u.container) s)
      else .next (units.foldl (fun s u => s.takePiece h.rtag u) s)
  else
    match s.servedFor h.rtag with
    | none => .next s
    | some e =>
      match e.2.cap.op with
      | .write => .next (units.foldl (fun s u => s.takeUnit e.1 u) s)
      | .compare =>
        if units.isEmpty && e.2.status.isNone && e.2.begun then .next (s.endCompare e.1 (h.status == success))
        else .next (units.foldl (fun s u => s.askedAgain e.1 e.2 u) s)
      | _ => .next (units.foldl (fun s u => s.askedAgain e.1 e.2 u) s)

/-- Aborts that waited for a forwarded command's end have their answer (R91). -/
def State.endAborts (s : State) (t : Nat) (ran : Bool) : State :=
  have aborts := (s.cmd.tags.filter fun e => e.2.status.isNone && e.2.abortOf.any fun a => a.1 == t).map Prod.fst
  aborts.foldl (fun s a => s.endAbort a ran) s

/-- A forwarded command comes back unstarted (R88, R362): it is Held until ownership of its group is settled, and starts or is forwarded
again. -/
def State.takeBack (s : State) (t : Nat) (c : Cmd) : State :=
  if s.cmd.tags.any fun e => e.2.status.isNone && e.2.abortOf.any fun a => a.1 == t then (s.abortTag t).endAborts t false
  else
    have s := s.restartTag t
    if c.cap.fused = .second then s
    else
      match s.routeCmd c with
      | .hold | .forward => s.hold t
      | .here | .inaccessible | .lost => s.advance t

/-- FORWARDED_COMPLETION (R88, R361, R362, R364): ACCEPTED brings the owner's tag; FINAL ends the command, or with RETURNED gives it
back. A read completes after its last RDMA Write. -/
def execForwardedCompletion (h : FwdHeader) (s : State) : Res :=
  have t := h.rtag
  match s.tag t with
  | none => .next s
  | some c =>
    if c.state ≠ .forwarded then .next s
    else if h.accepted && !h.final then
      have s := s.modTag t fun c => { c with peerTag := some h.otag }
      .next (if c.cap.fused = .second then s else s.feedInCapsule t)
    else if h.final && h.returned then .next (s.takeBack t c).noteTags
    else if h.final then
      have s := s.endAborts t (h.status != generic 0x07)
      if c.cap.op = .read && h.status == success then .next ((s.modTag t fun c => { c with fwdLast := true }).checkRead t)
      else .next (s.finish t h.status)
    else .next s

/-! Explicit moves (R378) -/

/-- The group of a command's namespace. -/
def State.groupOfCmd (s : State) (c : Cmd) : Option Nat := (Table.find c.cap.nsid s.map.ns).map fun n => n.group

/-- A move begins on this head (R378): the group is Moving and reported in Change. -/
def State.beginMove (s : State) (g : Nat) : State :=
  have t := s.setGroup g { s.groupOf g with state := .moving }
  (({ t with own.move := some g }).wr Reg.OWN_MOVE_RESULT.BUSY 1).anaChange s

/-- A move ends on this head, with the group's owner (R378): event 0x8047 and 0 in OWN_MOVE_RESULT where it moved. -/
def State.endMove (s : State) (g : Nat) (x : Group) : State :=
  have t := ({ s with own.move := none }).setGroup g { x with state := .settled }
  have t := (t.wr Reg.OWN_MOVE_RESULT.BUSY 0).wr Reg.OWN_MOVE_RESULT.STATUS 0
  ((t.event1 0x8047 g).anaChange s).releaseHeld

/-- A move is refused (R378): 0x8048. -/
def State.refuseMove (s : State) (g : Nat) : State := (s.wr Reg.OWN_MOVE_RESULT.STATUS 0x8048).event1 0x8048 g

/-- OWN_MOVE (R378, R380): [9:0] the group, [10] GO. Refused unless Mirrored, with the new owner READY and no move running. The other head
is told, so that both set the group to Moving. -/
def execOwnMove (value : Nat) (s : State) : Res :=
  have g := value % 1024
  have mine := (s.groupOf g).owner == s.headB
  have ready := if mine then s.on Reg.OWN_HEALTH.PEER_READY else s.on Reg.OWN_HEALTH.SELF_READY
  if !(s.writable 17) || !(value.testBit 10) then .next s
  else if !(s.on Reg.OWN_CTRL.EN) || s.wc.mode != .mirrored || !ready || s.own.move.isSome || (s.groupOf g).state != .settled then .next (s.refuseMove g)
  else .next ((s.beginMove g).sendRing (.ring 0x04 [g, 0] []))

/-- MOVE_DRAINED (R96, R378): every running command of the group has ended, and the owner asks the new owner to take it. It waits for an
activation pause to end. -/
def execMoveDrained (s : State) : Res :=
  match s.own.move with
  | none => .next s
  | some g =>
    have busy := s.cmd.tags.any fun e => s.groupOfCmd e.2 == some g && match e.2.state with
      | .lockWait | .running | .pastReturn => true
      | .free | .decode | .held | .forwarded | .completing => false
    if busy || s.boot.pause || (s.groupOf g).owner != s.headB || (s.groupOf g).state != .moving then .next s
    else .next (s.sendRing (.ring 0x04 [g, 1, s.ringTime] []))

/-- MOVE_REQUEST (R378): without `take`, the peer's control host has asked for a move, and it begins here too; with it, the owner has
drained the group, and this head takes it, with the next generation, and answers. -/
def execMoveRequest (group : Nat) (take : Bool) (s : State) : Res :=
  if !(s.on Reg.OWN_CTRL.EN) || 1024 ≤ group then .next s
  else
    have x := s.groupOf group
    if !take then (if x.state = .settled && s.own.move.isNone then .next (s.beginMove group) else .next s)
    else if x.owner == s.headB || x.state != .moving then .next s
    else
      have x' : Group := { owner := s.headB, gen := (x.gen + 1) % 2 ^ 32 }
      .next ((s.endMove group x').sendRing (.ring 0x05 [group, x'.gen] []))

/-- MOVE_ACCEPT (R378): the group is the peer's. -/
def execMoveAccept (group gen : Nat) (s : State) : Res :=
  have x := s.groupOf group
  if s.own.move = some group && x.owner == s.headB && x.state == .moving then .next (s.endMove group { owner := !s.headB, gen := gen }) else .next s

/-! Health (R377) -/

/-- The oldest record of the peer's that is not yet applied whole, in µs. -/
def State.lagUs (s : State) : Nat := (s.wc.rx.map fun r => (s.ringTime - r.time) / 8000).foldl max 0

/-- Whether this head is READY (R377). -/
def State.isReady (s : State) : Bool :=
  s.wc.mode == .mirrored && s.own.passDone && s.own.scrubBad.isEmpty && decide (s.lagUs ≤ 100) &&
    decide (s.majority ≤ s.witnessSet.countP fun l => s.on Reg.LFL_LEAF.REACH_SELF l) &&
    [QuarterKind.qt, .qc, .qb, .qm, .qs, .ql, .qg, .qd, .qx, .qk].all fun k => !k.hasStandby || (s.standbyOf k).isSome

/-- HEALTH_REPORT_SEND (R377): READY is looked at, a change recorded as event 0x804B, and the report sent. -/
def execHealthReportSend (s : State) : Res :=
  if !(s.on Reg.OWN_CTRL.EN) then .next s
  else
    have r := if s.isReady then 1 else 0
    have s := if s.rd Reg.OWN_HEALTH.SELF_READY = r then s else (s.wr Reg.OWN_HEALTH.SELF_READY r).event1 0x804B r
    have s := s.wr Reg.OWN_HEALTH.LAG_US (min 65535 s.lagUs)
    .next (s.sendRing (.ring 0x06 [r, min 65535 s.lagUs, s.rd Reg.BOOT_STATUS.TRIAL] []))

/-- HEALTH_REPORT (R377): the peer's copy is shown in OWN_HEALTH; whether the peer is on trial gates an activation (R454). -/
def execHealthReport (ready trial : Bool) (s : State) : Res :=
  if s.on Reg.OWN_CTRL.EN then .next (({ s with own.peerTrial := trial }).wr Reg.OWN_HEALTH.PEER_READY (if ready then 1 else 0)) else .next s

end Sys2Proof.Machine
end

