-- ==== Sys2Proof/Machine/Scrub.lean ====
section
/-!
DEFINITION. Machine/Scrub.lean: the owner's scrub of the standby's replica (R376), and the bytes of map pages, of the namespace, snapshot
and group tables and of the key ledger that it compares (R155, R254, R263, R266, R359).
-/
namespace Sys2Proof.Machine
open Sys2Proof

/-- Bytes with the CRC32C of all of them after them. -/
def withCrc (b : List Byte) : List Byte := b ++ le 4 (crc32c b)

/-- The 4,096 bytes of a map page as the heads compare them (R254, R376); the time of the last write-back, which is each head's own, is 0 (DEDUCED, log
entry 41). -/
def MapPage.image4k (n : Nat) (p : MapPage) : List Byte := MapPage.bytes n { p with saved := 0 }

/-- The 64 bytes of a namespace-table entry (R263). -/
def State.nsBytes (s : State) (nsid : Nat) (n : Namespace) : List Byte := n.bytes nsid (s.snapIds nsid).length

/-- What a slice covers at a head whose pages have one parity (true: head B): the items by number, 4,096 of them (R376). Snapshot slices
cover 4,096 consecutive IDs of a namespace. Table 3 is the key ledger by slot (R155). -/
def ScrubSlice.items : ScrubSlice → Bool → List Nat
  | .pages first, b => (List.range 4096).map fun k => 2 * (first + k) + if b then 1 else 0
  | .table 0 off, _ => (List.range 4096).map fun k => 4096 * off + k + 1
  | .table 1 off, _ => (List.range 4096).map fun k => 4096 * off + k
  | .table 2 _, _ => List.range 1024
  | .table _ off, _ => (List.range 4096).map fun k => 4096 * off + k

/-- What this head holds of an item, where the item belongs to groups of one owner (true: head B). -/
def State.scrubItem (s : State) (what : ScrubSlice) (owner : Bool) (n : Nat) : Option ScrubImage :=
  match what with
  | .pages _ => some (.page n (Table.find n s.map.pages))
  | .table 0 _ => if Table.has n s.map.ns && s.nsOwner n != owner then none else some (.ns n (Table.find n s.map.ns))
  | .table 1 _ =>
    if Table.has (n / 65536) s.map.ns && s.nsOwner (n / 65536) != owner then none
    else some (.snap (n / 65536) (n % 65536) (Table.find n s.map.snaps))
  | .table 2 _ => if (s.groupOf n).owner == owner then some (.group n (s.groupOf n)) else none
  | .table _ _ => some (.ledger n (Table.find n (if owner == s.headB then s.keys.ledger else s.keys.peerLedger)))

/-- The bytes of a ledger entry (R155); the spec gives it no layout (DESIGN CHOICE, log entry 55). -/
def Ledger.bytes (slot : Nat) (l : Ledger) : List Byte :=
  have opt (g : Option Nat) : List Byte := [byteOf (g.getD 0), byteOf (bit g.isSome 0)]
  le 2 slot ++ le 2 l.tenant ++ opt l.cur ++ opt l.prev ++ l.counts.flatMap fun e => [byteOf e.1, byteOf (bit e.2.2 0)] ++ le 8 e.2.1

/-- The bytes that stand for an item in its slice's digest: a page's CRC, or the entry's bytes; nothing where it is absent. -/
def State.scrubBytes (s : State) : ScrubImage → List Byte
  | .page n (some p) => (p.image4k n).drop 4092
  | .ns nsid (some e) => s.nsBytes nsid e
  | .snap nsid id (some e) => e.bytes nsid id
  | .group g x => le 2 g ++ [if x.owner then 1 else 0, byteOf x.state.code] ++ le 4 x.gen
  | .ledger slot (some l) => l.bytes slot
  | .page _ none | .ns _ none | .snap _ _ none | .ledger _ none => []

/-- The digest of a slice as this head holds it (R376). -/
def State.scrubDigestOf (s : State) (what : ScrubSlice) (owner : Bool) : Nat :=
  crc32c (((what.items owner).filterMap (s.scrubItem what owner)).flatMap s.scrubBytes)

/-- The slices of a pass: this head's page numbers in use, the namespace table, the snapshots, the groups, the ledger (R376). -/
def State.scrubPass (s : State) : List ScrubSlice :=
  have used := if s.headB then s.map.nextB else s.map.nextA
  ((List.range ((used + 4095) / 4096)).map fun k => .pages (4096 * k)) ++ ((List.range 16).map (.table 0)) ++
    ((s.map.snaps.map fun e => e.1 / 4096).eraseDups.map (.table 1)) ++ [.table 2 0, .table 3 0, .table 3 1]

/-- The slice as it stands in a ring message. -/
def ScrubSlice.args : ScrubSlice → List Nat
  | .pages first => [0, first]
  | .table which off => [1 + which, off]

/-- SCRUB_STEP (R376): the digest of the next slice goes to the standby, marked when it is the last of the pass. -/
def execScrubStep (s : State) : Res :=
  if !(s.on Reg.OWN_CTRL.EN) then .next s
  else
    have pass := s.scrubPass
    have at_ := if pass.length ≤ s.own.scrubAt then 0 else s.own.scrubAt
    have what := pass.getD at_ (.table 2 0)
    have last := decide (at_ + 1 = pass.length)
    have s := s.sendRing (.ring 0x08 (what.args ++ [s.scrubDigestOf what s.headB, if last then 1 else 0]) [])
    have next := if last then 0 else at_ + 1
    .next (({ s with own.scrubAt := next }).wr Reg.OWN_SCRUB_STAT.PROGRESS ((at_ + 1) * 1000 / pass.length))

/-- The number of an item among the items whose image has been asked for. -/
def ScrubSlice.itemKey (what : ScrubSlice) (n : Nat) : Nat :=
  match what with
  | .pages _ => 5 * n
  | .table 0 _ => 5 * n + 1
  | .table 1 _ => 5 * n + 2
  | .table 2 _ => 5 * n + 3
  | .table _ _ => 5 * n + 4

/-- SCRUB_DIGEST (R376): the standby computes the digest over its replica; where it differs it asks for the slice's images. The pass has
ended with the digest marked last (R377). -/
def execScrubDigest (what : ScrubSlice) (digest : Nat) (last : Bool) (s : State) : Res :=
  if !(s.on Reg.OWN_CTRL.EN) then .next s
  else
    have keys := (what.items (!s.headB)).map what.itemKey
    have rest := s.own.scrubBad.filter fun k => !keys.contains k
    have differs := decide (s.scrubDigestOf what (!s.headB) ≠ digest)
    have s := { s with
      own.scrubBad := if differs then rest ++ keys else rest
      own.passDone := s.own.passDone || last }
    .next (if differs then s.sendRing (.ring 0x09 what.args []) else s)

/-- SCRUB_PAGE_REQUEST (R376): the owner sends its image of every item of the slice. -/
def execScrubPageRequest (what : ScrubSlice) (s : State) : Res :=
  if !(s.on Reg.OWN_CTRL.EN) then .next s
  else
    have image (n : Nat) : List Out :=
      match s.scrubItem what s.headB n with
      | some (.page n (some p)) => [.ring 0x0A [0, n, 1] (p.image4k n)]
      | some x => [.ring 0x0A [what.itemKey n % 5, n, if (s.scrubBytes x).isEmpty then 0 else 1] (s.scrubBytes x)]
      | none => []
    .next (((what.items s.headB).flatMap image).foldl State.sendRing s)

/-- A replica page is replaced by the owner's image, or dropped where the owner holds none: what the new page names gains its references
before the old one's lose theirs (R260). Its directory entry keeps its slot and count. -/
def State.replacePage (s : State) (n : Nat) (p : Option MapPage) : State :=
  have old := Table.find n s.map.pages
  have s : State := match p with
    | some q => q.exts.foldl (fun (s : State) e => s.addRef e.loc) s
    | none => s
  have s := { s with map.pages := match p, old with
    | some q, some o => Table.put n { q with refs := o.refs, slot := o.slot, image := o.image, place := o.place, dirty := true } s.map.pages
    | some q, none => Table.put n { q with slot := none, image := true, place := none } s.map.pages
    | none, _ => Table.drop n s.map.pages }
  have s := (s.refer n ((p.map MapPage.exts).getD [] |>.map Extent.loc)).dropPageLines n
  have s : State := match old with
    | some o => o.exts.foldl (fun (s : State) e => s.dropRef e.loc) s
    | none => s
  s.noteMap

/-- What a page says, apart from its directory entry (R254, R255). -/
def MapPage.content (p : MapPage) : MapPage := { p with refs := 1, slot := none, image := false, dirty := true, gone := false, saved := 0, place := none }

/-- The state with the owner's image of an item in the replica, and whether the replica differed (R376). -/
def State.applyImage (s : State) : ScrubImage → Bool × State
  | .page n p =>
    if (n % 2 == 1) == s.headB then (false, s)
    else if (Table.find n s.map.pages).map MapPage.content = p.map MapPage.content then (false, s)
    else (true, s.replacePage n p)
  | .ns nsid e =>
    if Table.find nsid s.map.ns = e then (false, s)
    else (true, { s with map.ns := match e with
      | some x => Table.put nsid x s.map.ns
      | none => Table.drop nsid s.map.ns })
  | .snap nsid id e =>
    if s.snap nsid id = e then (false, s)
    else (true, { s with map.snaps := match e with
      | some x => Table.put (snapKey nsid id) x s.map.snaps
      | none => Table.drop (snapKey nsid id) s.map.snaps })
  | .group g x => if s.groupOf g = x then (false, s) else (true, s.setGroup g x)
  | .ledger slot e =>
    if Table.find slot s.keys.peerLedger = e then (false, s)
    else (true, { s with keys.peerLedger := match e with
      | some x => Table.put slot x s.keys.peerLedger
      | none => Table.drop slot s.keys.peerLedger })

/-- The number of an image among the images asked for. -/
def ScrubImage.key : ScrubImage → Nat
  | .page n _ => 5 * n
  | .ns nsid _ => 5 * nsid + 1
  | .snap nsid id _ => 5 * snapKey nsid id + 2
  | .group g _ => 5 * g + 3
  | .ledger slot _ => 5 * slot + 4

/-- SCRUB_PAGE_IMAGE (R376): the standby replaces what differs, counts the repair in REPAIRED and records event 0x804A. An image that
nobody asked for changes nothing. -/
def execScrubPageImage (image : ScrubImage) (s : State) : Res :=
  if !(s.own.scrubBad.contains image.key) then .next s
  else
    have s := { s with own.scrubBad := s.own.scrubBad.erase image.key }
    let (differed, s) := s.applyImage image
    .next (if differed then (s.bump Reg.OWN_SCRUB_STAT.REPAIRED).event1 0x804A (image.key / 5) else s)

end Sys2Proof.Machine
end

