-- ==== Sys2Proof/Machine/Ring.lean ====
section
/-!
DEFINITION. Machine/Ring.lean: ring links, hellos, enumeration and the directory, leaving, and ring time (chapter 12).
-/
namespace Sys2Proof.Machine
open Sys2Proof

/-! Links (R329, R330, R337, R338) -/

/-- A ring link. -/
def State.link (s : State) (l : Nat) : RingLink := Table.get l {} s.xrn.links

/-- Whether a link exists (R329): links 0 and 2 always, links 1 and 3 while their port is split. -/
def State.linkExists (s : State) (l : Nat) : Bool := l < 4 && (l % 2 == 0 || s.on Reg.XRN_PORT_CFG.SPLIT (l / 2))

/-- A link has become Active: copies of records that waited for it leave, records that found no port up (R165), and what was kept for
other pairs (R127). -/
def State.mirrorReady (s : State) (l : Nat) : State :=
  have mine := s.wc.copies.filter fun e => e.1 == l
  have s := mine.foldl (fun s e => s.sendRing (.mirror (some l) e.2)) { s with wc.copies := s.wc.copies.filter fun e => e.1 != l }
  s.sendOwed.pumpMirror.noteMirror

/-- A link put in place, with XRN_LINK_STATUS following its state; CHANGE is set where the state changes. -/
def State.setLink (s : State) (l : Nat) (x : RingLink) : State :=
  have changed := s.rd Reg.XRN_LINK_STATUS.STATE l != x.state.code
  have s := ({ s with xrn.links := Table.put l x s.xrn.links }).wr Reg.XRN_LINK_STATUS.STATE x.state.code l
  have s := if x.state = .down then s.dropLink l else if x.state = .active ∧ changed then s.mirrorReady l else s
  if changed then s.raise Reg.XRN_LINK_STATUS.CHANGE 1 l else s

/-- The links that are Active. -/
def State.activeLinks (s : State) : List Nat := (List.range 4).filter fun l => (s.link l).state == .active

/-- Whether this part is keeper. -/
def State.isKeeper (s : State) : Bool := s.on Reg.XRN_ROLE.IS_KEEPER

/-- The hello of this part on a link (R339). -/
def State.ownHello (s : State) (l : Nat) : Hello :=
  { device := s.fuses.deviceId, head := s.headB, keeper := s.on Reg.XRN_ROLE.KEEPER_STRAP, deputy := s.on Reg.XRN_ROLE.DEPUTY_EN,
    features := s.rd Reg.XRN_FEATURES.BITS, floor := s.xrn.floor, link := l }

/-- A hello flit is sent on a link (R339). -/
def State.sendHello (s : State) (l : Nat) : State :=
  have h := s.ownHello l
  s.send (.ringFlit l 2 [h.device, if h.head then 1 else 0, if h.keeper then 1 else 0, if h.deputy then 1 else 0, h.major, h.minMinor,
    h.maxMinor, h.features, h.floor, l])

/-- RING_LINK_DETECT (R338): a Down link tries Detect. -/
def execRingLinkDetect (link : Nat) (s : State) : Res :=
  if s.on Reg.XRN_CTRL.EN && s.linkExists link && (s.link link).state == .down then
    .next (s.setLink link { state := .detect })
  else .next s

/-- RING_LINK_TRAINED (R338): a link that has locked enters Hello and sends its hello flit; a retrain ends in Active with event 0x8003.
A link that trains at half its width sets NARROW and records 0x8003. -/
def execRingLinkTrained (link : Nat) (narrow : Bool) (s : State) : Res :=
  if s.on Reg.XRN_CTRL.EN && s.linkExists link then
    have x := s.link link
    have n := if narrow then 1 else 0
    match x.state with
    | .detect | .equalize | .lock =>
      have s := (s.setLink link { x with state := .hello }).wr Reg.XRN_LINK_STATUS.NARROW n link
      .next ((if narrow then s.event1 0x8003 link else s).sendHello link)
    | .retrain =>
      .next (((s.setLink link { x with
        state := .active
        failed := 0
        replays := 0 }).wr Reg.XRN_LINK_STATUS.NARROW n link).event1 0x8003 link)
    | .down | .hello | .active | .isolated => .next s
  else .next s

/-! Enumeration (R341, R342) -/

/-- An enumeration flit goes out on links: term, keeper, depth (R342). -/
def State.sendEnum (s : State) (links : List Nat) : State :=
  links.foldl (fun s l => s.send (.ringFlit l 4 [s.rd Reg.XRN_TERM.TERM, s.rd Reg.XRN_KEEPER_ID.ID, s.xrn.depth])) s

/-- The neighbours of this part: device and link number for each Active link (R342). -/
def State.neighbours (s : State) : List (Nat × Nat) :=
  s.activeLinks.filterMap fun l => ((s.link l).far).map fun h => (h.device, l)

/-- The join of this part (R342). -/
def State.ownJoin (s : State) : Join :=
  { hello := s.ownHello 0, request := s.rd Reg.XRN_ADDR.REQUEST, state := s.xrn.state, depth := s.xrn.depth,
    parentDevice := ((s.xrn.parent.bind fun l => (s.link l).far).map Hello.device).getD 0, neighbours := s.neighbours }

/-- A join goes to the keeper through the parent (R342). -/
def State.sendJoin (s : State) : State :=
  have j := s.ownJoin
  s.sendRing (.ring 0x10 ([j.hello.device, if j.hello.head then 1 else 0, j.request, j.state.code, j.depth, j.hello.floor] ++
    j.neighbours.flatMap fun n => [n.1, n.2]) [])

/-- A change of a link is told to the keeper, who enumerates again (R342). -/
def State.reportLinks (s : State) : State :=
  if s.isKeeper then s.sendEnum s.activeLinks
  else if s.xrn.parent.isSome then s.sendJoin
  else s

/-- This part becomes keeper at a term (R341, R345). -/
def State.becomeKeeper (s : State) (term : Nat) : State :=
  have s := { s with
    xrn.parent := none
    xrn.depth := 0
    xrn.holdover := false
    xrn.rate := 0
    xrn.enumSeen := some (term, s.fuses.deviceId, 0) }
  have s := (s.wr Reg.XRN_ROLE.IS_KEEPER 1).wr Reg.XRN_TERM.TERM term
  have s := (s.wr Reg.XRN_KEEPER_ID.ID s.fuses.deviceId).wr Reg.XRN_DEVICES.DEPTH 0
  (s.wr Reg.XRN_TIME_STATUS.HOLDOVER 0).wr Reg.XRN_TIME_STATUS.LOCK 1

/-- XRN_CTRL.EN becomes 1: links train, and a part strapped as keeper gathers joins from term 1 (R341, R351). -/
def State.startRing (s : State) : State :=
  have s := s.wr Reg.XRN_CTRL.EN 1
  if s.on Reg.XRN_ROLE.KEEPER_STRAP && !s.isKeeper then { (s.becomeKeeper 1) with xrn.gathering := true } else s

/-- The device state, with XRN_ADDR.STATE and LOCK (R344, R358). -/
def State.setDevice (s : State) (d : DeviceState) : State :=
  have s := ({ s with xrn.state := d }).wr Reg.XRN_ADDR.STATE d.code
  s.wr Reg.XRN_TIME_STATUS.LOCK (if d = .attached || s.isKeeper then 1 else 0)

/-! Hellos (R330, R339) -/

/-- Whether the wiring of a link allows it (R330): the heads differ, and either both ends are peer links or neither is. -/
def wiringGood (head : Bool) (l : Nat) (h : Hello) : Bool := h.head != head && (l % 2 == h.link % 2)

/-- Whether two version ranges overlap in one major (R339). -/
def versionGood (h : Hello) : Bool := h.major == 1 && decide (h.minMinor ≤ 2)

/-- A link's end settled by the far end's hello (R330, R339): Active with the lower of the highest minors, or Isolated with 0x8004. A loser
whose peer is reached again asks to rejoin (R374). -/
def State.settleHello (s : State) (l : Nat) (h : Hello) : State :=
  have x := { s.link l with far := some h }
  if wiringGood s.headB l h && versionGood h then
    have was := x.state == .active
    have s := s.setLink l { x with
      state := .active
      failed := 0 }
    have s := (s.wr Reg.XRN_LINK_STATUS.MINOR (min 2 h.maxMinor) l).wr Reg.XRN_LINK_STATUS.PEER (if l % 2 = 0 then 1 else 0) l
    have s := if was then s else s.event1 0x8001 l
    have s := s.reportLinks
    if l % 2 = 0 && s.own.loser && !s.own.rejoin then s.askRejoin else s
  else
    have s := (s.setLink l { x with state := .isolated }).event1 0x8004 l
    (s.wr Reg.XRN_LINK_STATUS.PEER 0 l).wr Reg.XRN_LINK_STATUS.MINOR 0 l

/-- RING_HELLO (R339, R340). -/
def execRingHello (link : Nat) (hello : Hello) (s : State) : Res :=
  match (s.link link).state with
  | .hello | .active => .next (s.settleHello link hello)
  | .down | .detect | .equalize | .lock | .retrain | .isolated => .next s

/-- A link goes Down (R334, R337, R338): its buffers are discarded, its partial messages counted, event 0x8002 recorded. -/
def State.ringLinkDown (s : State) (l partials : Nat) : State :=
  have was := (s.link l).state == .active
  have s := ((s.setLink l {}).bump Reg.XRN_DROP.PARTIAL partials).event1 0x8002 l
  have s := (s.wr Reg.XRN_LINK_STATUS.PEER 0 l).wr Reg.XRN_LINK_STATUS.NARROW 0 l
  if was then s.reportLinks else s

/-- RING_LINK_DOWN (R337, R338). -/
def execRingLinkDown (link partials : Nat) (s : State) : Res :=
  if !(s.linkExists link) || (s.link link).state == .down then .next s else .next (s.ringLinkDown link partials)

/-- XRN_CTRL.EN becomes 0: every link is held Down (R358). -/
def State.stopRing (s : State) : State :=
  (List.range 4).foldl (fun s l => if (s.link l).state = .down then s else s.ringLinkDown l 0) (s.wr Reg.XRN_CTRL.EN 0)

/-- RING_TRAINING_TIMEOUT (R338): a link that is not Active in time goes Down; a retrain counts as failed, and the third in a row takes
the link Down. -/
def execRingTrainingTimeout (link : Nat) (s : State) : Res :=
  have x := s.link link
  match x.state with
  | .detect | .equalize | .lock | .hello => .next (s.ringLinkDown link 0)
  | .retrain =>
    if 2 ≤ x.failed then .next (s.ringLinkDown link 0)
    else .next ((s.setLink link { x with failed := x.failed + 1 }).bump Reg.XRN_LINK_RETRY.RETRAINS 1 link)
  | .down | .active | .isolated => .next s

/-- RING_REPLAY_REQUEST (R337): the sender replays from the sequence; with 4 replays of one sequence made, it retrains. -/
def execRingReplayRequest (link seq : Nat) (s : State) : Res :=
  have x := s.link link
  if x.state = .active then
    have s := s.bump Reg.XRN_LINK_RETRY.REPLAYS 1 link
    have n := if x.seq = seq % 1024 then x.replays else 0
    if 4 ≤ n then
      .next ((s.setLink link { x with
        state := .retrain
        replays := 0 }).bump Reg.XRN_LINK_RETRY.RETRAINS 1 link)
    else
      .next ((s.setLink link { x with
        seq := seq % 1024
        replays := n + 1 }).send (.ringFlit link 2 [seq % 1024]))
  else .next s

/-- PARTIAL_MESSAGE_TIMEOUT (R334): a partial message is discarded and counted. -/
def execPartialMessageTimeout (link : Nat) (s : State) : Res :=
  if (s.link link).state = .active then .next (s.bump Reg.XRN_DROP.PARTIAL) else .next s

/-! The directory (R342, R343, R346) -/

/-- The bytes of a directory entry (R342). -/
def DirEntry.bytes (e : DirEntry) : List Byte :=
  have flags := (if e.keeper then 4096 else 0) + (if e.deputy then 8192 else 0) + if e.head then 16384 else 0
  le 8 e.device ++ le 2 (e.parent % 4096 + flags) ++ [byteOf e.depth, byteOf e.state.code, byteOf e.minor, 0] ++ le 2 e.hops ++
    le 8 e.features ++ le 8 e.floor

/-- The addresses from one up the parent tree to the keeper (R342). -/
def parentChain (dir : Table DirEntry) : Nat → Nat → List Nat
  | 0, a => [a]
  | n + 1, a =>
    match Table.find a dir with
    | none => [a]
    | some e => if e.keeper || e.parent = a then [a] else a :: parentChain dir n e.parent

/-- The hops between two addresses along the parent tree (R346). -/
def treeHops (dir : Table DirEntry) (a b : Nat) : Nat :=
  have x := parentChain dir 16 a
  have y := parentChain dir 16 b
  (x.filter fun k => !y.contains k).length + (y.filter fun k => !x.contains k).length

/-- A directory is put in place (R342): in DDR at XRN_DIR_BASE, with the hops from this part, and XRN_DEVICES, CASCADE_MINOR and
XRN_FEATURES_CASCADE over the Attached devices (R358). Reads of remote references, and what is kept for other pairs, follow
what is reachable (R127, R128). -/
def State.setDir (s : State) (dir : Table DirEntry) : State :=
  have here := s.rd Reg.XRN_ADDR.ASSIGNED
  have dir := Table.mapVals (fun a (e : DirEntry) => { e with hops := treeHops dir here a }) dir
  have on := dir.filter fun e => e.2.state == .attached && e.2.device != 0
  have s := (State.settleRemote { s with xrn.dir := dir }).sendOwed
  have s := s.wr Reg.XRN_DEVICES.COUNT on.length
  have s := s.wr Reg.XRN_VERSION.CASCADE_MINOR (if on.isEmpty then 0 else (on.map fun e => e.2.minor).foldl min 255)
  have s := s.wr Reg.XRN_FEATURES_CASCADE.BITS (if on.isEmpty then 0 else (on.map fun e => e.2.features).foldl (· &&& ·) (2 ^ 64 - 1))
  if s.rd Reg.XRN_DIR_BASE.BASE = 0 then s
  else dir.foldl (fun s e => s.ddrWriteList (s.rd Reg.XRN_DIR_BASE.BASE + 32 * e.1) e.2.bytes) s

/-- The links down the parent tree (R342): the Active ones but the parent's, without those to a device that has another parent. -/
def State.childLinks (s : State) : List Nat :=
  s.activeLinks.filter fun l => some l != s.xrn.parent && ((s.link l).far).all fun h =>
    match s.xrn.dir.find? fun e => e.2.device == h.device with
    | none => true
    | some e => e.2.parent == s.rd Reg.XRN_ADDR.ASSIGNED

/-- A broadcast goes along the parent tree only (R342). -/
def State.castRing (s : State) (o : Out) : State := s.childLinks.foldl (fun s l => s.sendOn l o) s

/-- The directory is broadcast (R342). -/
def State.broadcastDir (s : State) : State :=
  s.castRing (.ring 0x11 [s.rd Reg.XRN_TERM.TERM] (s.xrn.dir.flatMap fun e => le 2 e.1 ++ e.2.bytes))

/-- The address of a device in a directory. -/
def addressOf (dir : Table DirEntry) (device : Nat) : Option Nat :=
  (dir.find? fun e => e.2.device == device && device != 0).map Prod.fst

/-- Whether an address is free (R343): no device holds it or has it reserved. -/
def addressFree (dir : Table DirEntry) (a : Nat) : Bool :=
  match Table.find a dir with
  | none => true
  | some e => e.device == 0

/-- The peer's address, where the peer is placed (R343): the device at the far end of a peer link. -/
def Join.peerAddress (j : Join) (dir : Table DirEntry) : Option Nat :=
  (j.neighbours.find? fun n => n.2 % 2 == 0).bind fun n => addressOf dir n.1

/-- The address that a join gets (R343): its own while it is present or reserved to it, the one requested where that is granted, else
the lowest free pair that fits; none where no address is left. -/
def grantAddress (dir : Table DirEntry) (j : Join) : Option Nat :=
  have odd := if j.hello.head then 1 else 0
  have fits (a : Nat) : Bool := addressFree dir a && a % 2 == odd && match j.peerAddress dir with
    | some p => p / 2 == a / 2
    | none => true
  match addressOf dir j.hello.device with
  | some a => some a
  | none =>
    if fits j.request then some j.request
    else
      match j.peerAddress dir with
      | some p => if addressFree dir (p / 2 * 2 + odd) then some (p / 2 * 2 + odd) else none
      | none => ((List.range 2048).find? fun k => addressFree dir (2 * k) && addressFree dir (2 * k + 1)).map fun k => 2 * k + odd

/-- Whether a tree takes the device with no cycle but each pair's peer links (R346): its neighbours that are placed are its parent, its
peer, or devices whose parent it is. -/
def treeGood (dir : Table DirEntry) (j : Join) : Bool :=
  j.neighbours.all fun n =>
    match dir.find? fun e => e.2.device == n.1 with
    | none => true
    | some e => n.1 == j.parentDevice || n.2 % 2 == 0 || addressOf dir j.hello.device == some e.2.parent

/-- Whether the limits of R346 take a device. -/
def State.limitsGood (s : State) (j : Join) : Bool :=
  have present := (s.xrn.dir.filter fun e => e.2.device != 0 && e.2.device != j.hello.device && e.2.state != .gone).length
  have kind := s.rd Reg.XRN_TOPO.KIND
  decide (j.depth ≤ 16 ∧ present < 4096) && (kind != 1 || decide (present < 16)) && (kind != 2 || treeGood s.xrn.dir j)

/-- The keeper places one join in its directory (R343, R346, R351). -/
def State.admitJoin (s : State) (j : Join) : State :=
  if !(s.limitsGood j) then s.event1 0x8006 j.hello.device
  else
    match grantAddress s.xrn.dir j with
    | none => s.event1 0x8006 j.hello.device
    | some a =>
      have s := if a = j.request || (addressOf s.xrn.dir j.hello.device).isSome then s else s.event 0x8005 (le 4 j.request ++ le 4 a)
      have old := Table.get a { device := 0 } s.xrn.dir
      have self := j.hello.device == s.fuses.deviceId
      have e : DirEntry :=
        { device := j.hello.device, parent := (addressOf s.xrn.dir j.parentDevice).getD a, keeper := self, deputy := j.hello.deputy,
          head := j.hello.head, depth := j.depth, state := if j.state = .isolated then .joining else j.state, minor := j.hello.maxMinor,
          features := j.hello.features, floor := max old.floor j.hello.floor }
      s.setDir (Table.put a e s.xrn.dir)

/-- The keeper's own entry: it is Attached at its own address. -/
def State.admitSelf (s : State) : State :=
  have s := s.admitJoin { s.ownJoin with
    state := .attached
    depth := 0 }
  match addressOf s.xrn.dir s.fuses.deviceId with
  | some a =>
    have fresh := s.xrn.state != .attached
    have s := ((s.wr Reg.XRN_ADDR.ASSIGNED a).wr Reg.XRN_ADDR.VALID 1).setDevice .attached
    have s := { s with xrn.attachedOnce := true }
    if fresh then s.event1 0x800D a else s
  | none => s

/-- ENUMERATION_FLIT (R341, R342): a keeper that meets a higher term, or its own term from a lower ID, stands down (event 0x8008 where it
is strapped); while it gathers at power-up it goes one above instead. Another device takes the link of the newest term at the lowest depth
as parent, forwards the flit and sends its join. -/
def execEnumerationFlit (link term keeper depth : Nat) (s : State) : Res :=
  if (s.link link).state != .active then .next s
  else
    have seen := s.xrn.enumSeen
    have mine := s.rd Reg.XRN_TERM.TERM
    have newer := match seen with
      | none => true
      | some (t, k, _) => decide (t < term) || (term == t && decide (keeper < k))
    have same := match seen with
      | none => false
      | some (t, k, d) => t == term && k == keeper && (decide (depth + 1 < d) || (depth + 1 == d && decide (link ≤ s.xrn.parent.getD 4)))
    if s.isKeeper && s.xrn.gathering && s.on Reg.XRN_ROLE.KEEPER_STRAP && newer then
      .next ((s.becomeKeeper (max (mine + 1) (term + 1))).sendEnum s.activeLinks)
    else if !newer && !same then .next s
    else if s.isKeeper && !newer then .next s
    else if 16 < depth + 1 then .next s
    else
      have stood := s.isKeeper
      have s := if stood && s.on Reg.XRN_ROLE.KEEPER_STRAP then s.event1 0x8008 term else s
      have s := { s with
        xrn.parent := some link
        xrn.depth := depth + 1
        xrn.gathering := false
        xrn.enumSeen := some (term, keeper, depth + 1) }
      have s := ((s.wr Reg.XRN_ROLE.IS_KEEPER 0).wr Reg.XRN_TERM.TERM term).wr Reg.XRN_KEEPER_ID.ID keeper
      have s := s.wr Reg.XRN_DEVICES.DEPTH (depth + 1)
      have s := if stood then s.setDevice .locking else s
      .next ((s.sendEnum (s.activeLinks.filter fun l => l != link)).sendJoin)

/-- ENUMERATION_JOIN (R342, R343, R351): the keeper gathers joins at power-up, and places others at once and broadcasts the directory. A join
that reports other neighbours than before tells of a link that changed, and the keeper enumerates again. -/
def execEnumerationJoin (join : Join) (s : State) : Res :=
  if !s.isKeeper then .next s
  else if s.xrn.gathering then
    .next { s with
      xrn.neigh := Table.put join.hello.device join.neighbours s.xrn.neigh
      xrn.joins := (s.xrn.joins.filter fun (j : Join) => j.hello.device != join.hello.device) ++ [join] }
  else
    have moved := Table.find join.hello.device s.xrn.neigh != some join.neighbours
    have s := { s with xrn.neigh := Table.put join.hello.device join.neighbours s.xrn.neigh }
    have s := (s.admitJoin join).broadcastDir
    .next (if moved then s.sendEnum s.activeLinks else s)

/-- The keeper stops gathering, and ring time stands at the highest floor at least (R353). -/
def State.endGathering (s : State) (floor : Nat) : State :=
  { s with
    ringTime := max s.ringTime floor
    xrn.gathering := false
    xrn.joins := [] }

/-- The check of a CASCADE domain's settings against its home (R128): an HMAC under the digest key over the gear seed and the CFG word. -/
def State.settingsHmac (s : State) (domain : Nat) : List Byte :=
  match Table.find (s.rd Reg.DDP_DOMAIN_KEYS.DIGEST_SLOT domain) s.keys.digest with
  | none => []
  | some d =>
    have cfg := s.rd Reg.DDP_DOMAIN_CFG.EN domain + 2 * s.rd Reg.DDP_DOMAIN_CFG.MODE domain + 8 * s.rd Reg.DDP_DOMAIN_CFG.CHUNK domain +
      32 * s.rd Reg.DDP_DOMAIN_CFG.DIGEST domain + 128 * s.rd Reg.DDP_DOMAIN_CFG.VERIFY domain + 256 * s.rd Reg.DDP_DOMAIN_CFG.CASCADE domain
    hmac (s.rd Reg.DDP_DOMAIN_CFG.DIGEST domain) d.key (le 8 (s.rd Reg.BND_GEAR_SEED.SEED) ++ le 4 cfg)

/-- One domain is checked against what its home sent (R128): CASCADE is ignored where they differ, with event 0x3008. -/
def State.checkSettings (s : State) (domain : Nat) (home : List Byte) : State :=
  if 4096 ≤ domain || !(s.on Reg.DDP_DOMAIN_CFG.CASCADE domain) then s
  else if s.settingsHmac domain = home then s.wr Reg.DDP_DOMAIN_STAT.CASCADE_OFF 0 domain
  else (s.wr Reg.DDP_DOMAIN_STAT.CASCADE_OFF 1 domain).event1 0x3008 domain

/-- KEEPER_GATHER_EXPIRY (R351): the keeper starts ring time at the highest floor, places itself and the joins, and broadcasts. As it
attaches, the homes' settings that came with the joins are checked (R128). -/
def execKeeperGatherExpiry (s : State) : Res :=
  if !s.isKeeper || !s.xrn.gathering then .next s
  else
    have joins := s.xrn.joins
    have floor := (joins.map fun j => j.hello.floor).foldl max s.xrn.floor
    have s := s.endGathering floor
    have s := (joins.foldl State.admitJoin s.admitSelf).broadcastDir
    .next ((joins.flatMap Join.settings).foldl (fun s h => s.checkSettings h.1 h.2) s)

/-- ENUMERATION_DIRECTORY (R342, R343, R344, R128): the directory is stored and forwarded along the parent tree; a device placed in it takes
its address and the higher of its own floor and the address's. The homes' settings that come with an attach are checked, by the keeper too. -/
def execEnumerationDirectory (entries : Table DirEntry) (homes : List (Nat × List Byte)) (s : State) : Res :=
  if s.isKeeper then .next (homes.foldl (fun s h => s.checkSettings h.1 h.2) s)
  else
    have s : State := match addressOf entries s.fuses.deviceId with
      | none => (s.wr Reg.XRN_ADDR.VALID 0).setDevice .isolated
      | some a =>
        have e : DirEntry := Table.get a { device := 0 } entries
        have s := (s.wr Reg.XRN_ADDR.ASSIGNED a).wr Reg.XRN_ADDR.VALID 1
        have s := { s with xrn.floor := max s.xrn.floor e.floor }
        if e.state == .gone then s.setDevice DeviceState.gone
        else if s.xrn.state == .isolated || s.xrn.state == .gone then s.setDevice DeviceState.joining
        else s
    .next (homes.foldl (fun s h => s.checkSettings h.1 h.2) (s.setDir entries).broadcastDir)

/-- A device is marked Gone in this part's directory (R344); its address stays reserved. -/
def State.markGone (s : State) (device : Nat) : State :=
  match addressOf s.xrn.dir device with
  | none => s
  | some a =>
    have s := s.setDir (Table.modify a (fun (e : DirEntry) => { e with state := .gone }) s.xrn.dir)
    if s.isKeeper then s.broadcastDir else s

/-- ADDRESS_RESERVE_EXPIRY (R343): a gone device's address is free; the address keeps its floor (R351). -/
def execAddressReserveExpiry (address : Nat) (s : State) : Res :=
  match Table.find address s.xrn.dir with
  | none => .next s
  | some e =>
    if !s.isKeeper || e.state != .gone then .next s
    else
      have free : DirEntry := { device := 0, state := .gone, floor := e.floor, minor := 0, features := 0 }
      .next ((s.setDir (Table.put address free s.xrn.dir)).broadcastDir)

/-- LEAVE (R344): a leave notice goes out on every Active link, and the device becomes Gone. -/
def execLeave (s : State) : Res :=
  if !(s.writable 16) || s.xrn.state == .gone then .next s
  else
    have s := s.activeLinks.foldl (fun s l => s.send (.ringFlit l 2 [s.fuses.deviceId])) s
    .next ((s.markGone s.fuses.deviceId).setDevice .gone)

/-- LEAVE_NOTICE (R344). -/
def execLeaveNotice (device : Nat) (s : State) : Res := .next (s.markGone device)

/-- DEVICE_ISOLATED_TIMEOUT (R344): this device, where every link of it is Down and it is not keeper, becomes Gone; another one becomes
Gone in the keeper's directory, with event 0x800E. -/
def execDeviceIsolatedTimeout (device : Nat) (s : State) : Res :=
  if device = s.fuses.deviceId then
    if s.isKeeper || !((List.range 4).all fun l => (s.link l).state == .down) then .next s
    else .next ((s.markGone device).setDevice .gone)
  else if s.isKeeper && (s.xrn.dir.any fun e => e.2.device == device && e.2.state != .gone) then
    .next ((s.event1 0x800E device).markGone device)
  else .next s

/-! Time (R347 to R354) -/

/-- TIME_FLIT_SEND (R348). -/
def execTimeFlitSend (link : Nat) (s : State) : Res :=
  have x := s.link link
  if x.state = .active then
    have n := (x.sentSeq + 1) % 2 ^ 32
    have valid := if s.isKeeper || s.xrn.state == .attached then 1 else 0
    have depth := if s.isKeeper || s.xrn.parent.isSome then s.xrn.depth else 0xFF
    .next ((s.setLink link { x with sentSeq := n }).send (.ringFlit link 3
      [valid, depth, s.rd Reg.XRN_TERM.TERM, s.rd Reg.XRN_KEEPER_ID.ID, s.ringTime, s.xrn.phase * 256 / 10 ^ 9, n, x.recvSeq, x.recvAt.toNat]))
  else .next s

/-- The delay of a link in 1/256 tick by one exchange (R348): ((t4 − t1) − (t3 − t2)) ÷ 2 + ASYM. -/
def TimeFlit.delay (f : TimeFlit) (asym : Int) : Int := ((f.t4 - f.t1) - (f.t3 - f.t2)) / 2 + asym

/-- The mean of the delays kept. -/
def meanDelay (ds : List Int) : Int := ds.sum / (max 1 ds.length : Nat)

/-- A whole number kept within bounds. -/
def clampInt (lo hi x : Int) : Int := max lo (min hi x)

/-- The servo's rate for an offset in 1/256 tick (R349): a time constant of 50 µs, ±500 ppm. -/
def servoRate (offset : Int) : Int := clampInt (-500000) 500000 (offset * 1250 / 128)

/-- 0.25 ns in 1/256 tick. -/
def lockBound : Int := 512

/-- Ring time moves on by whole ticks, and its fraction is 0 (R352). -/
def State.advanceTime (s : State) (ticks : Nat) : State :=
  { s with
    ringTime := s.ringTime + ticks
    xrn.phase := 0 }

/-- Ring time steps forward (R352): the cuts armed at a time that the step passes over are taken. -/
def State.stepTime (s : State) (ticks : Nat) : State :=
  have s := s.advanceTime ticks
  have passed := (List.range 256).filter fun g => s.on Reg.MAP_CG_CFG.ARMED g && decide (s.rd Reg.MAP_CG_TIME.T g ≤ s.ringTime)
  passed.foldl State.consistencyCut s

/-- A device becomes Attached (R344, R349). -/
def State.attach (s : State) : State :=
  have again := s.xrn.attachedOnce
  have s := (({ s with xrn.attachedOnce := true }).setDevice .attached).event1 0x800D (s.rd Reg.XRN_ADDR.ASSIGNED)
  (if again then s.event 0x800A else s).sendJoin

/-- A device leaves Attached for Locking with event 0x8009 (R349, R354). -/
def State.loseLock (s : State) : State :=
  (({ s with
    xrn.good := 0
    xrn.bad := 0 }).setDevice .locking).event 0x8009

/-- The runs of time flits inside and outside ±0.25 ns (R344, R349): 64 in a row attach a Locking device, or end an Attached one's lock. -/
def State.countLock (s : State) (offset : Int) : State :=
  if -lockBound ≤ offset ∧ offset ≤ lockBound then
    have s := { s with
      xrn.good := s.xrn.good + 1
      xrn.bad := 0 }
    if 64 ≤ s.xrn.good && s.xrn.state == .locking then s.attach else s
  else
    have s := { s with
      xrn.bad := s.xrn.bad + 1
      xrn.good := 0 }
    if 64 ≤ s.xrn.bad && s.xrn.state == .attached then s.loseLock else s

/-- The servo on a time flit from the parent (R349, R352): a Joining device takes the parent's time, and goes to Locking once that is not below
its floor, where it has waited at FLOOR_PASSED; a time behind by more than 1 µs steps forward with event 0x8010; one ahead by more than 1 ms is
Isolated with 0x800C; else the rate corrects the offset. -/
def State.servo (s : State) (offset : Int) : State :=
  have s := s.wr Reg.XRN_TIME_STATUS.OFFSET (unsignedOf 16 (clampInt (-32768) 32767 offset))
  if s.xrn.state = .joining then
    have s := s.stepTime (offset / 256).toNat
    if s.ringTime < s.xrn.floor then { s with xrn.floorWait := true }
    else if s.xrn.floorWait then s
    else s.setDevice .locking
  else if 8000 * 256 < offset then (s.stepTime (offset / 256).toNat).event 0x8010
  else if offset < -(8000000 * 256) then ((s.wr Reg.XRN_ADDR.VALID 0).setDevice .isolated).event 0x800C
  else ({ s with xrn.rate := servoRate offset }).countLock offset

/-- TIME_FLIT (R348, R349): the delay is averaged over the last 1,024 exchanges; a flit with usable time from the parent corrects the
servo and ends a holdover. -/
def execTimeFlit (link : Nat) (flit : TimeFlit) (s : State) : Res :=
  have x := s.link link
  if x.state != .active then .next s
  else
    have ds := (flit.delay (signedOf 16 (s.rd Reg.XRN_LINK_ASYM.ASYM link)) :: x.delays).take 1024
    have mean := meanDelay ds
    have s := s.setLink link { x with
      delays := ds
      recvSeq := flit.seq
      recvAt := flit.t4
      timeValid := flit.valid
      depth := flit.depth
      term := flit.term }
    have s := s.wr Reg.XRN_LINK_DELAY.DELAY (unsignedOf 32 mean) link
    if s.isKeeper || s.xrn.parent != some link || !flit.valid then .next s
    else
      have s := ({ s with xrn.holdover := false }).wr Reg.XRN_TIME_STATUS.HOLDOVER 0
      match s.xrn.state with
      | .joining | .locking | .attached | .leaving => .next (s.servo (flit.t3 + mean - flit.t4))
      | .isolated | .gone => .next s

/-- PARENT_TIME_LOST (R354): another Active neighbour with a lower depth and the current term becomes the parent; else the device holds its
rate. -/
def execParentTimeLost (s : State) : Res :=
  if s.isKeeper || s.xrn.parent.isNone then .next s
  else
    have good (l : Nat) : Bool :=
      have x := s.link l
      some l != s.xrn.parent && x.timeValid && x.term == s.rd Reg.XRN_TERM.TERM && decide (x.depth < s.xrn.depth)
    match s.activeLinks.find? good with
    | some l =>
      .next (({ s with
        xrn.parent := some l
        xrn.depth := (s.link l).depth + 1 }).wr Reg.XRN_DEVICES.DEPTH ((s.link l).depth + 1))
    | none => .next (({ s with xrn.holdover := true }).wr Reg.XRN_TIME_STATUS.HOLDOVER 1)

/-- HOLDOVER_EXPIRY (R354): after 1 ms in holdover an Attached device goes to Locking. -/
def execHoldoverExpiry (s : State) : Res :=
  if s.xrn.holdover && s.xrn.state == .attached then .next s.loseLock else .next s

/-- KEEPER_LOST (R345): an Attached deputy takes term + 1 and becomes keeper from its own ring time; the former keeper is Gone in its
directory, and enumeration starts. -/
def execKeeperLost (s : State) : Res :=
  if !(s.on Reg.XRN_ROLE.DEPUTY_EN) || s.isKeeper || s.xrn.state != .attached then .next s
  else
    have former := s.rd Reg.XRN_KEEPER_ID.ID
    have term := (s.rd Reg.XRN_TERM.TERM + 1) % 2 ^ 32
    have dir := Table.mapVals (fun _ (e : DirEntry) => { e with
      keeper := e.device == s.fuses.deviceId
      state := if e.device = former then .gone else e.state }) s.xrn.dir
    have s := ((s.becomeKeeper term).setDir dir).event1 0x8007 term
    .next ((s.sendEnum s.activeLinks).broadcastDir)

/-- FLOOR_PASSED (R352): a Joining device whose floor ring time has passed moves to Locking with event 0x800B. -/
def execFloorPassed (s : State) : Res :=
  if s.xrn.state = .joining ∧ s.xrn.floor ≤ s.ringTime then .next (({ s with xrn.floorWait := false }.setDevice .locking).event 0x800B) else .next s

/-- TIME_CEILING_REWRITE (R351): within 2^35 ticks of the ceiling it is rewritten. -/
def execTimeCeilingRewrite (s : State) : Res :=
  if s.bootRecord.ceiling ≤ s.ringTime + 2 ^ 35 then .next s.raiseCeiling else .next s

end Sys2Proof.Machine
end

