-- ==== Sys2Proof/Machine/Clock.lean ====
section
/-!
DEFINITION. Machine/Clock.lean: what passes when no command waits: one nanosecond of the block's clocks (R5, R6, R347, R353).
-/
namespace Sys2Proof.Machine
open Sys2Proof

/-- The rate of ring time against this part's own clock, in parts in 10^9: the servo's rate (R349), and on the keeper its trim (R353). -/
def State.timeRate (s : State) : Int :=
  s.xrn.rate + if s.isKeeper then signedOf 24 (s.rd Reg.XRN_TIME_TRIM.PPB) else 0

/-- One nanosecond (eight ticks) passes: the model's clock, the operating time while VIN is good (R473), and ring time at its rate while the
part is supplied (R6, R349). A new clock begins (R13), and the ring links and leaf lanes send what waits (R224, R335). -/
def State.tick (s : State) : State :=
  have on := s.power.converterOn
  have total := s.xrn.phase + (8 * (1000000000 + s.timeRate)).toNat
  have s := s.pumpLinks.pumpLeaves
  { s with
    clock := s.clock + 8
    holding.seen := s.regs
    holding.raised := []
    evt.opTicks := if s.power.vinGood then s.evt.opTicks + 8 else s.evt.opTicks
    ringTime := if on then s.ringTime + total / 1000000000 else s.ringTime
    xrn.phase := if on then total % 1000000000 else s.xrn.phase }

end Sys2Proof.Machine
end

