-- ==== Sys2Proof/Machine/PowerFail.lean ====
section
/-!
DEFINITION. Machine/PowerFail.lean: the power-fail warning and the destage (R174 to R178).
-/
namespace Sys2Proof.Machine
open Sys2Proof

/-- Operating seconds and the power-cycle count are stored in the control sectors (R469). -/
def State.saveCounts (s : State) : State :=
  { s with
    nor.savedCycles := s.evt.cycles
    nor.savedTicks := s.evt.opTicks }

/-- Whether a bindery quarter has no segment and no job on its lanes. -/
def State.idleBindery (s : State) (q : Nat) : Bool :=
  (lanesOf q).all fun l => s.laneLoad l == 0 && !(s.bnd.jobs.any fun j => j.lane == l)

/-- The lots that the Square withdraws at a warning (R175 step 3, R428): those of QX, of class 4, which replication belongs to, and of idle
bindery quarters, idle floors apart. -/
def State.withdrawn (s : State) (l : TokenLot) : Bool :=
  l.cls != 0 && (quarterKind l.quarter == .qx || l.cls == 4 || (quarterKind l.quarter == .qb && s.idleBindery l.quarter))

/-- The Square's part in a warning (R175 step 3, R426): the effective budget is frozen and the withdrawal is a recall. -/
def State.freezeBudget (s : State) : State :=
  have s := ({ s with power.frozen := some (max (s.rd Reg.SQR_BUDGET.TOKENS) 2240) }).settleBudget
  { s with power.recalls := s.power.recalls ++ s.power.granted.filter fun l => s.withdrawn l && !(s.power.recalls.contains l) }

/-- Whether a command is cancelled at a warning (R175 step 4): it has not passed its point of no return. -/
def Cmd.cutByWarning (c : Cmd) : Bool :=
  match c.state with
  | .decode | .lockWait | .held | .running => true
  | .forwarded => !(c.fwdPast)
  | .free | .pastReturn | .completing => false

/-- The commands' part in a warning (R175 steps 2 and 4): no tag is assigned any more, and commands before their point of no return are
cancelled as by a controller reset. -/
def State.cutCommands (s : State) : State :=
  have hit := (s.cmd.tags.filter fun e => e.2.cutByWarning).map Prod.fst
  (hit.foldl State.resetTag { s with cmd.stopped := true }).noteTags

/-- Every slice but slice 0 is squashed at a warning (R404). -/
def State.squashSlices (s : State) : State :=
  have hit := (s.liveSlices.filter fun e => e.1 != 0 && e.2.state != .resetting).map Prod.fst
  hit.foldl (fun s n => s.beginReset n true false none []) s

/-- Destage begins (R173, R175 step 3, R176): Full and Open own segments destage with the adopted ones, and the manifest is written open. -/
def State.openManifest (s : State) : State :=
  have begun (g : OwnSeg) : OwnSeg := match g.state with
    | .opened | .full => { g with state := .destaging, fullAt := if g.state = .opened then s.clock else g.fullAt }
    | .free | .destaging | .released => g
  have s := { s with wc.own := Table.mapVals (fun _ g => begun g) s.wc.own }
  have segs := s.wc.own.filter fun e => e.2.state == .destaging
  have adopted := s.wc.mir.filter fun e => e.2.adopted
  have row (a : Bool) (n gen : Nat) (recs : List MirRec) : ManSeg :=
    { adopted := a, seg := n, gen := gen, first := oldestSeq recs, last := (recs.map MirRec.seq).foldl max 0 }
  have m : Manifest := { epoch := s.rd Reg.DDR_MIR_EPOCH.EPOCH, head := s.headB, time := s.ringTime,
                         segs := (segs.map fun e => row false e.1 e.2.gen e.2.recs) ++ adopted.map fun e => row true e.1 e.2.gen e.2.recs,
                         bytes := (segs.map fun e => e.2.fill).sum + (adopted.map fun e => (e.2.recs.map MirRec.len).sum).sum }
  { s with
    wc.destage := some m
    store.manifest := some m
    store.manifest2 := some m }

/-- The power-fail warning is raised (R174, R175): the first cause is latched, and the steps up to t + 2 µs are taken. A head in Destage never
contests (R366), so a contest under way ends. -/
def State.raiseWarning (s : State) (source : Nat) : State :=
  if s.warned then s
  else
    have s := ((s.wr Reg.DDR_PF_STATUS.WARN 1).wr Reg.DDR_PF_STATUS.SOURCE source).event1 0x90C0 source
    have s := (({ s with wc.warnAt := s.clock }).setMode .destage).endContest
    have s := { s with wc.stopped := true }
    have s := [0, 2].foldl (fun s l => s.sendRing (.ring 0x22 [l] [])) s
    have s := (s.dropRuns fun _ => true).stopRotation
    (s.cutCommands.squashSlices.freezeBudget.openManifest).saveCounts

/-- VIN_LOW_WARNING (R174): VIN has stayed below THRESH for FILTER µs. -/
def execVinLowWarning (s : State) : Res := .next (s.raiseWarning 0)

/-- PWRFAIL_N is low (R174). -/
def State.dropPwrfail (s : State) : State := { s with pins.pwrfailN := false }

/-- PWRFAIL_N_LOW (R174, R493): the ball has been low for 1 µs; it acts while PIN_EN is 1, and from step 9 of R443 on. -/
def execPwrfailNLow (s : State) : Res :=
  have s := s.dropPwrfail
  .next (if s.on Reg.DDR_PF_CFG.PIN_EN && s.running then s.raiseWarning 1 else s)

/-- DESTAGE_NOW (R174): a write of DDR_PF_CMD.DESTAGE_NOW raises the warning; the register answers once the firmware runs (R478). -/
def execDestageNow (s : State) : Res := .next (if s.running then s.raiseWarning 2 else s)

/-- FRONT_LINKS_DOWN (R175 step 5): the front links go down. A write still without acknowledgement completes to nobody; its parts in the own
region, all of which are there, are destaged. -/
def execFrontLinksDown (s : State) : Res :=
  if s.warned && s.wc.mode == .destage then
    have s := (List.range 4).foldl State.dropPort s
    have hit := (s.cmd.tags.filter fun e => e.2.write.any fun w => w.queued && !w.committed).map Prod.fst
    .next (hit.foldl (fun s t => ((s.modTag t fun c => { c with discard := true }).modWrite t fun w => { w with unacked := [] }).commitTag t) s)
  else .next s

/-- Whether the destage has reached its end (R175 steps 6 and 7): every container that it covers stands in a complete signature, and so does the image
of every page where there is a metadata pool. -/
def State.destaged (s : State) : Bool :=
  s.sig.flight.isEmpty && s.dataDestaged &&
    s.metaPool.all fun m => !(s.map.pages.any fun e => e.2.dirty) && (Table.get m [] s.sig.staged).isEmpty

/-- Every quarter but Old Town powers down (R175 step 9). -/
def State.quartersDown (s : State) : State :=
  have down (e : Nat × Quarter) : Nat × Quarter :=
    if e.1 = 0 || e.2.state == .fenced then e else (e.1, { e.2 with state := .off, takesFor := none, wakeTest := false })
  ({ s with power := { s.power with
      quarters := s.power.quarters.map down
      granted := s.power.granted.filter fun l => l.quarter == 0
      waiting := []
      recalls := []
      wakeQueue := [] } }).noteGranted

/-- The sealed manifest and what the store holds with it (R175, R176). -/
def State.sealManifest (s : State) (m : Manifest) : State :=
  { s with
    wc.destage := some m
    store.manifest := some m
    store.manifest2 := some m
    store.own := s.wc.own
    store.running := false }

/-- A reset that waited for the seal follows it (R175). -/
def State.latchedReset (s : State) : State := if s.pins.resetLatched then s.partReset 1 else s

/-- The manifest is sealed (R175 steps 7 to 9, R176): dirty metadata is written, SEALED is set, event 0x90C1 carries the duration in ms and
the bytes, and the quarters power down. A latched assertion of RESET_N takes effect (R492). -/
def execDestageSealed (s : State) : Res :=
  match s.wc.destage with
  | none => .next s
  | some m =>
    if s.warned && !(s.on Reg.DDR_PF_STATUS.SEALED) && s.destaged then
      have ms := (s.clock - s.wc.warnAt) / 8000000
      have s := s.cleanPages.saveStore.sealManifest { m with sealed := true, ms := ms }
      have s := (s.wr Reg.DDR_PF_STATUS.SEALED 1).event 0x90C1 (le 8 ms ++ le 8 m.bytes)
      .next s.flushBuffer.quartersDown.latchedReset
    else .next s

end Sys2Proof.Machine
end

