-- ==== Sys2Proof/Machine/Boot.lean ====
section
/-!
DEFINITION. Machine/Boot.lean: power-up and resets, straps, the boot ROM, the start of the firmware, and firmware update and recovery
(chapters 15, 16 and 19).
-/
namespace Sys2Proof.Machine
open Sys2Proof

/-! Images (R446, R448) -/

/-- The colophon of an image: its last 8,192 bytes (R446). -/
def colophon (img : List Byte) : List Byte := img.drop (img.length - 8192)

/-- A field of the colophon. -/
def coField (img : List Byte) (off len : Nat) : Nat := num (slice (colophon img) off len)

/-- The key set of an image. -/
def keySet (img : List Byte) : Nat := coField img 6 1 % 4

/-- The security version of an image. -/
def securityVersion (img : List Byte) : Nat := coField img 0x18 1

/-- Whether bytes are all zero. -/
def allZero (b : List Byte) : Bool := b.all fun x => x == 0

/-- The first check of R448: magic, version, CRC32C, length and reserved fields. -/
def colophonGood (img : List Byte) : Bool :=
  have c := colophon img
  decide (65536 ≤ img.length ∧ img.length ≤ 25165824) && img.length % 4096 == 0 && coField img 0 4 == 0x0C019640 &&
    coField img 4 2 == 1 && coField img 8 4 == img.length && coField img 0x1FFC 4 == crc32c (c.take 0x1FFC) &&
    coField img 6 1 / 4 == 0 && coField img 7 1 / 2 == 0 && coField img 0x1F 1 == 0 && allZero (slice c 0x24 28) &&
    coField img 0x40 1 == 4 && allZero (slice c (0x40 + 97) 31) && allZero (slice c 0x1D53 681)

/-- The digest of an image (R446). -/
def imageDigest (img : List Byte) : List Byte :=
  sha384 (img.take (img.length - 8192) ++ (colophon img).take 0x0AE0)

/-- The checks of R448 in order: the code of the first that fails. -/
def State.checkImage (s : State) (img : List Byte) : Option Nat :=
  have c := colophon img
  have ecdsaKey := slice c 0x40 97
  have mldsaKey := slice c 0xC0 2592
  if !(colophonGood img) then some 0xA010
  else if s.fuses.keyHashes[keySet img]? != some (sha384 (ecdsaKey ++ mldsaKey)) || s.fuses.revoked.testBit (keySet img) then some 0xA011
  else if coField img 7 1 % 2 = 1 ∧ s.straps.secure = 1 then some 0xA015
  else if securityVersion img < s.fuses.svn then some 0xA014
  else if !(ecdsaVerify ecdsaKey (imageDigest img) (slice c 0x0AE0 96)) then some 0xA012
  else if !(Config.mldsaVerify mldsaKey (imageDigest img) (slice c 0x0B40 4627)) then some 0xA013
  else none

/-- The image in a slot (false: A). -/
def State.slotImage (s : State) (slot : Bool) : List Byte := if slot then s.nor.slotB else s.nor.slotA

/-- The state with an image in a slot. -/
def State.setSlot (s : State) (slot : Bool) (img : List Byte) : State :=
  if slot then { s with nor.slotB := img } else { s with nor.slotA := img }

/-- The slot running (BOOT_STATUS.RUNNING_SLOT). -/
def State.runSlot (s : State) : Bool := s.on Reg.BOOT_STATUS.RUNNING_SLOT

/-- The bit of a slot. -/
def slotBit (slot : Bool) : Nat := if slot then 1 else 0

/-- BOOT_STATUS follows the newest boot record (R459). -/
def State.noteRecord (s : State) : State :=
  (s.wr Reg.BOOT_STATUS.CONFIRMED_SLOT (slotBit s.bootRecord.slot)).wr Reg.BOOT_STATUS.PENDING (if s.bootRecord.pending then 1 else 0)

/-- BOOT_STATUS, BOOT_VERSION and BOOT_SVN of an image that takes over the cores (R459). -/
def State.noteImage (s : State) (slot : Bool) (source : BootSource) (img : List Byte) : State :=
  have s := { s with boot.image := img }
  have s := (s.wr Reg.BOOT_STATUS.RUNNING_SLOT (slotBit slot)).wr Reg.BOOT_STATUS.SOURCE source.code
  (s.wr Reg.BOOT_VERSION.VERSION (coField img 0x10 8)).wr Reg.BOOT_SVN.RUNNING (securityVersion img)

/-- The counter is raised to a security version (R450); it never falls. -/
def State.raiseSvn (s : State) (v : Nat) : State :=
  have n := max s.fuses.svn (min 255 v)
  ({ s with fuses.svn := n }).wr Reg.BOOT_SVN.FUSED n

/-! Supply and resets (R418, R480, R491, R492) -/

/-- What the store keeps of a destage that was cut short (R176, R181). -/
def State.keepDestage (s : State) : State :=
  match s.wc.destage with
  | some m => if m.sealed then s else { s.saveStore with store.own := s.wc.own, store.mir := s.wc.mir.filter fun e => e.2.adopted }
  | none => s

/-- VIN and the converter are gone, DDR with them (R418). -/
def State.losePower (s : State) (cause : StopCause) (torn : Bool) : State :=
  { s with
    nor.tornRecord := s.nor.tornRecord || torn
    power.vinGood := false
    power.converterOn := false
    power.stopLatch := cause
    mem := [] }

/-- The converter stops (R418, R422): every rail collapses. What an open destage has put into the metadata pool and the signatures stays
(R181); DDR loses its contents; a boot record being written is torn. -/
def State.collapse (s : State) (cause : StopCause) (torn : Bool) : State :=
  (s.keepDestage.losePower cause torn).partReset 0

/-- VIN_GOOD (R418, R421, R469): the converter starts, Old Town leaves reset, and the power-cycle count rises by 1. An overvoltage stop is
recorded, unless VIN has been below 20 V since (R491). -/
def execVinGood (latchLost : Bool) (s : State) : Res :=
  if s.power.vinGood then .next s
  else
    have wasOver := s.power.stopLatch == .overvoltage && !latchLost
    have n := s.nor.savedCycles + 1
    have s := { s with
      power.vinGood := true
      power.converterOn := true
      power.stopLatch := .none
      nor.savedCycles := n
      evt.cycles := n
      evt.opTicks := s.nor.savedTicks }
    have s := s.partReset 0
    .next (if wasOver then s.event 0x9002 else s)

/-- VIN_COLLAPSE (R418): VIN falls below 35.0 V. -/
def execVinCollapse (torn : Bool) (s : State) : Res :=
  if s.power.converterOn then .next (s.collapse .undervoltage torn) else .next s

/-- VIN_OVERVOLTAGE (R418): VIN stays above 78.0 V for 1 µs. -/
def execVinOvervoltage (torn : Bool) (s : State) : Res :=
  if s.power.converterOn then .next (s.collapse .overvoltage torn) else .next s

/-- RESET_BALL_ASSERT (R443, R492): the part resets, or the assertion is latched while a destage runs. -/
def execResetBallAssert (s : State) : Res :=
  have s := { s with pins.resetN := false }
  if !s.power.vinGood then .next s
  else if s.warned && !(s.on Reg.DDR_PF_STATUS.SEALED) then .next { s with pins.resetLatched := true }
  else .next (s.partReset 1)

/-- PART_SELF_RESET (R178): after sealing, VIN has stayed above THRESH + 2.0 V for 10 ms. -/
def execPartSelfReset (s : State) : Res :=
  if s.power.vinGood && s.on Reg.DDR_PF_STATUS.SEALED then .next (s.partReset 2) else .next s

/-! The boot ROM (R442, R443, R447) -/

/-- Tokens of STRAP_BUDGET (R425, R442): 280, 340, 400 and 460 W; a reserved code counts as 280 W. -/
def strapTokens (budget : Nat) : Nat :=
  if budget = 1 then 2720 else if budget = 2 then 3200 else if budget = 3 then 3680 else 2240

/-- The registers whose reset is a strap (R36, R221, R442, R459). -/
def State.strapRegisters (s : State) : State :=
  have x := s.straps
  have s := ((s.wr Reg.BOOT_STRAPS.HEAD x.head).wr Reg.BOOT_STRAPS.KEEPER x.keeper).wr Reg.BOOT_STRAPS.DEPUTY x.deputy
  have s := ((s.wr Reg.BOOT_STRAPS.BOOT x.boot).wr Reg.BOOT_STRAPS.BUDGET x.budget).wr Reg.BOOT_STRAPS.ETHMODE x.ethmode
  have s := ((s.wr Reg.BOOT_STRAPS.LEAFRATE x.leafrate).wr Reg.BOOT_STRAPS.SECURE x.secure).wr Reg.BOOT_STRAPS.TESTLOCK x.testlock
  have s := (s.wr Reg.BOOT_STRAPS.DDRDPC x.ddrdpc).wr Reg.XRN_ROLE.KEEPER_STRAP x.keeper
  have n := strapTokens x.budget
  have s := ((s.wr Reg.XRN_ROLE.DEPUTY_EN x.deputy).wr Reg.SQR_BUDGET.STRAP_TOKENS n).wr Reg.SQR_BUDGET.TOKENS n
  have s := s.wr Reg.SQR_EFFECTIVE.TOKENS n
  have s := (List.range 4).foldl (fun s p => s.wr Reg.ETH_PORT_MODE.MODE x.ethmode p) s
  have s := (List.range 32).foldl (fun s l => s.wr Reg.LFL_LANE_CFG.RATE x.leafrate l) s
  if 4 ≤ x.budget then s.event 0xA005 else s

/-- What the ROM finds in the boot record area (R456): a torn record is ignored with event 0xA026; a record with CONFIRMING set is finished; a
trial has lapsed with event 0xA025. -/
def State.settleRecord (s : State) : State :=
  have s := if s.nor.tornRecord then ({ s with nor.tornRecord := false }).event 0xA026 else s
  have r := s.bootRecord
  if s.nor.records.isEmpty then s
  else if r.confirming then
    (((s.raiseSvn r.version).appendRecord fun r => { r with
      slot := !r.slot
      confirming := false
      trial := false
      pending := false
      bank := !r.bank
      otherValid := false }).event1 0xA021 s.fuses.svn)
  else if r.trial then (s.appendRecord fun r => { r with trial := false }).event 0xA025
  else s

/-- The ROM loads the slot that it tries (R443 step 7). -/
def State.loadSlot (s : State) (slot second : Bool) : State :=
  ({ s with boot := { s.boot with trying := slot, secondTry := second, loading := true } }).wr Reg.BOOT_STATUS.STAGE 1

/-- STRAP_SAMPLE (R442, R443, R447): the straps are latched, QK0 and QM0 wake (QK1 with event 0xA006 where QK0 does not), and the ROM loads
the confirmed slot, or the strapped one where no record is readable, or waits for recovery where STRAP_BOOT says so. The wrapping key of the
slot table is drawn (R154), and the boot flash's resets are released (R498). With TESTEN high the part does not boot (R488). -/
def execStrapSample (straps : Straps) (qk0 : Bool) (s : State) : Res :=
  if s.boot.sampled || !s.power.converterOn || s.pins.testen then .next s
  else
    let (wrap, s) := s.fresh
    have s := ({ s with
      straps := straps
      boot.sampled := true
      keys.wrap := wrap
      pins.resetN := true
      pins.xspiResetN := true }).strapRegisters
    have s := s.setQuarter 19 { s.quarter 19 with state := .active }
    have s := if qk0 then s.setQuarter 40 { s.quarter 40 with state := .active }
      else (s.setQuarter 41 { s.quarter 41 with state := .active }).event 0xA006
    have s := s.settleRecord.noteRecord
    if straps.boot = 2 then .next (s.wr Reg.BOOT_STATUS.STAGE 4)
    else if straps.boot = 3 then
      .next ((({ s with boot.recovering := true }).wr Reg.BOOT_STATUS.STAGE 4).sendRing (.ring 0x70 [0, 2] []))
    else .next (s.loadSlot s.bootRecord.slot false)

/-- The image that runs, and no load under way (R443). -/
def State.setImage (s : State) (img : List Byte) : State :=
  { s with boot := { s.boot with loading := false, recovering := false, rx := [], confirmedCopy := img } }

/-- The ROM jumps to a good image (R443 step 9): STAGE is Running, event 0xA001 with slot and version. -/
def State.runImage (s : State) (slot : Bool) (source : BootSource) (img : List Byte) : State :=
  have s := ((s.noteImage slot source img).wr Reg.BOOT_STATUS.STAGE 3).setImage img
  s.event 0xA001 (le 4 (slotBit slot) ++ le 8 (coField img 0x10 8))

/-- BOOT_IMAGE_LOADED (R443 step 8, R447): a good image runs; the other slot is named as confirmed where it passes after the first has
failed (event 0xA002); where both fail, event 0xA003 and the ROM waits for recovery. The other slot is not tried while the record names it as
pending only. -/
def execBootImageLoaded (s : State) : Res :=
  if !s.boot.loading then .next s
  else
    have slot := s.boot.trying
    match s.checkImage (s.slotImage slot) with
    | none =>
      have s := if s.boot.secondTry then
          (s.appendRecord fun r => { r with slot := slot, pending := false, trial := false }).noteRecord
        else s
      .next (s.runImage slot .nor (s.slotImage slot))
    | some code =>
      have s := (s.event 0xA002 (le 4 (slotBit slot) ++ le 4 code)).wr Reg.BOOT_STATUS.LAST_FAIL code
      if s.boot.secondTry || s.bootRecord.pending then .next ((({ s with boot.loading := false }).event 0xA003).wr Reg.BOOT_STATUS.STAGE 4)
      else .next (s.loadSlot (!slot) true)

/-! The firmware's start -/

/-- The containers of the own and adopted segments that an interrupted destage did not reach (R181): each committed write with one is reported
lost, once, and its places are marked lost. -/
def State.dropUndestaged (s : State) : State :=
  have left (head : Bool) (n gen : Nat) (recs : List MirRec) (done : List Nat) : List (MirRec × List Loc) :=
    recs.map fun r => (r, (recLocs head n gen [r]).filter fun l => s.needsPlace done l)
  s.loseRecords ((s.wc.own.flatMap fun e => left s.headB e.1 e.2.gen e.2.recs e.2.done) ++
    (s.wc.mir.filter fun e => e.2.adopted).flatMap fun e => left (!s.headB) e.1 e.2.gen e.2.recs e.2.done)

/-- What a sealed destage of a head that was taken over has put into signatures is released and not mapped (R181). -/
def State.releaseDestaged (s : State) (m : Manifest) : State :=
  have s := m.places.foldl (fun s l => s.rewriteLoc l .unmapped) s
  { s with sig.quires := Table.mapVals (fun _ (q : Quire) => { q with held := q.held.filter fun l => !(m.places.contains l) }) s.sig.quires }

/-- The map as the metadata pool holds it: no page is in the cache. -/
def State.reloadMap (s : State) : State :=
  have resident (p : MapPage) : MapPage := { p with slot := none }
  have m := s.store.map
  { s with map := { m with
      pages := Table.mapVals (fun _ p => resident p) m.pages
      sets := []
      fills := []
      maint := none } }

/-- The quires and the log as the metadata pool holds them: nothing is in flight, and the log is scanned where there is one. -/
def State.reloadSig (s : State) : State :=
  have r := s.store.sig
  { s with sig := { r with
      flight := []
      staged := []
      page := []
      sent := []
      rebuilding := false
      scans := []
      scanStart := !r.quires.isEmpty } }

/-- The key ledger, the counts of what is stored under each key, and the index journal as the metadata pool holds them. The DDR index takes
the part of the flash index entered last, up to its capacity (R124). -/
def State.reloadIndex (s : State) : State :=
  have s := State.noteJournal { s with
    keys.ledger := s.store.ledger
    keys.stored := s.store.stored
    ddp.journal := s.store.journal
    ddp.taken := 0
    ddp.flash := s.store.flash }
  (s.ddp.flash.drop (s.ddp.flash.length - 47185920)).foldl (fun s e => s.insertIndex e.domain e.fp e.loc) s

/-- The groups of namespaces as the metadata pool holds them. -/
def State.reloadGroups (s : State) : State := { s with own.groups := s.store.groups }

/-- The reservations that persist over a loss of power (R73). -/
def State.reloadResv (s : State) : State := { s with cmd.resv := s.store.resv }

/-- What the metadata pool holds is taken as the state (R124, R155, R181, R256): the map, quires and log, the ledger, journal and flash index,
and the ownership table. The DDR index and the summary filter start empty and take the last of the flash index. -/
def State.reloadStore (s : State) : State :=
  s.reloadMap.reloadSig.reloadIndex.reloadGroups.noteMap.noteLog.reloadResv

/-- The own and adopted segments are empty again; their generations stay. -/
def State.emptyOwn (s : State) : State :=
  ({ s with
    wc.own := Table.mapVals (fun _ (g : OwnSeg) => { gen := g.gen }) s.store.own
    wc.mir := Table.mapVals (fun _ (m : MirSeg) => { gen := m.gen }) s.store.mir }).noteDirty

/-- The own and adopted segments as the interrupted destage left them (R181). -/
def State.restoreOwn (s : State) : State :=
  { s with
    wc.own := s.store.own
    wc.mir := s.store.mir }

/-- The part acts on the destage manifest that it finds (R181). A sealed one whose epoch is the pair's is the state; with a lower epoch what
was destaged is released and the map is the peer's; an open one is taken as far as it came; with none since the last clean stop the power
was lost without a warning. -/
def State.takeManifest (s : State) (pairEpoch : Option Nat) : State :=
  match s.store.manifest.or s.store.manifest2 with
  | some m =>
    have s := (s.wr Reg.DDR_PF_STATUS.LAST_MS m.ms)
    if m.sealed then
      if pairEpoch.any fun e => decide (m.epoch < e) then
        ((s.event1 0x90C5 m.epoch).reloadStore.releaseDestaged m).emptyOwn
      else s.reloadStore.emptyOwn
    else
      have s := (s.event1 0x90C2 m.epoch).reloadStore
      s.restoreOwn.dropUndestaged.emptyOwn
  | none =>
    have s := s.reloadStore
    if s.store.running then s.event 0x90C4 else s

/-- The DDR channels after training (R443, R466): in service, or lost with event 0xB007, or without a DIMM. A second loss is a loss of the
head. -/
def State.trainDdr (s : State) (good bad : List Nat) (installed : Nat) : State :=
  have state (c : Nat) : ChannelState := if bad.contains c then .lost else if good.contains c then .inService else .noDimm
  have s := { s with test := { s.test with
    channels := (List.range 16).map fun c => (c, state c)
    trained := true
    installed := installed } }
  have lost := (List.range 16).filter fun c => bad.contains c
  have s := lost.foldl (fun s c => s.event1 0xB007 c) s
  if 2 ≤ lost.length then s.headLoss else s

/-- The quarters of the active roles wake, two at a time (R424). -/
def State.wakeActive (s : State) : State :=
  (List.range 41).foldl (fun s k =>
    have x := s.quarter (k + 1)
    if x.state = .off ∧ x.role = .active then s.wake (k + 1) else s) s

/-- The ageing shifts come back from the boot flash (R438): VOLT is the reset code plus the shift. -/
def State.restoreShifts (s : State) : State :=
  s.nor.shifts.foldl (fun s e => (s.wr Reg.TMP_AGE.SHIFT e.2 e.1).wr Reg.TMP_AGE.VOLT (min 30 (10 + e.2)) e.1) s

/-- The store holds no manifest and no own segments any more, and what it holds next is of a part that runs (R181). -/
def State.openStore (s : State) : State :=
  { s with
    store.manifest := none
    store.manifest2 := none
    store.own := []
    store.running := true }

/-- What the firmware knows at its start: the pair's epoch, the time floor of the newest boot record (R351), and replication counters that
have moved on (R283). -/
def State.startCounts (s : State) (epoch : Nat) : State :=
  { s with
    own.starting := true
    own.peerEpoch := epoch
    xrn.floor := s.bootRecord.ceiling
    evt.fullNoted := decide (4064 ≤ s.nor.front.length)
    rep.sets := Table.mapVals (fun _ (x : RepSet) => { x with stream := { x.stream with counter := x.stream.counter + 1024 } }) s.rep.sets }

/-- The epoch of the destage manifest, where there is one (R181). -/
def State.manifestEpoch (s : State) : Nat :=
  match s.store.manifest with
  | some m => m.epoch
  | none => 0

/-- The firmware takes what the store and the NOR held (R181, R283, R351). -/
def State.takeStart (s : State) (pairEpoch : Option Nat) : State :=
  (s.takeManifest pairEpoch).openStore.startCounts (max s.manifestEpoch (pairEpoch.getD 0))

/-- The registers that show the start: the time ceiling (R351) and the use of the front region (R469). -/
def State.showStart (s : State) : State :=
  have s := (s.wr Reg.XRN_TIME_CEILING.TICKS s.xrn.floor).wr Reg.EVT_STATUS.FRONT_USED s.nor.front.length
  s.wr Reg.EVT_STATUS.FRONT_FULL (if 4064 ≤ s.nor.front.length then 1 else 0)

/-- FIRMWARE_START: the firmware trains DDR, invalidates the map cache, wakes the quarters it uses (R443), reloads the metadata and acts on
the destage manifest (R181), takes its time floor (R351), starts the replication counters anew (R283), and writes the start record (R469). -/
def execFirmwareStart (good bad : List Nat) (installed : Nat) (pairEpoch : Option Nat) (s : State) : Res :=
  if !s.running || s.test.trained then .next s
  else
    have s := ((s.trainDdr good bad installed).wr Reg.MAP_CACHE_CTRL.INV_DONE 1).wakeActive.restoreShifts
    have s := (s.takeStart pairEpoch).showStart
    .next (s.event 0xB001 (le 4 s.evt.cycles ++ le 8 s.opSeconds ++ le 8 s.xrn.floor))

/-! Update (R451 to R455) -/

/-- The staged image: BOOT_STAGE_LEN bytes from BOOT_FW_BASE on. -/
def State.staged (s : State) : List Byte :=
  (List.range (s.rd Reg.BOOT_STAGE_LEN.BYTES)).map fun k => Memory.read s.mem (s.rd Reg.BOOT_FW_BASE.BASE + k)

/-- Whether BOOT_CMD takes an operation: the firmware runs and BOOT_RESULT.BUSY is 0 (R459). -/
def State.bootReady (s : State) : Bool := s.running && !(s.on Reg.BOOT_RESULT.BUSY)

/-- An operation of BOOT_CMD ends with a status (R459). -/
def State.endBoot (s : State) (status : Nat) : State :=
  (({ s with boot.op := none }).wr Reg.BOOT_RESULT.STATUS status).wr Reg.BOOT_RESULT.BUSY 0

/-- Whether a trial runs. -/
def State.onTrial (s : State) : Bool := s.on Reg.BOOT_STATUS.TRIAL

/-- VERIFY (R453): the checks of R448 on the staged image. -/
def execVerify (s : State) : Res :=
  .next (if s.bootReady then s.endBoot ((s.checkImage s.staged).getD 0) else s)

/-- Why a WRITE is refused (R453): 0xA017 during a trial or while PENDING names the running slot, or the code of R448. -/
def State.writeRefused (s : State) : Option Nat :=
  if s.onTrial || (s.on Reg.BOOT_STATUS.PENDING && s.runSlot != s.on Reg.BOOT_STATUS.CONFIRMED_SLOT) then some 0xA017
  else s.checkImage s.staged

/-- A WRITE begins (R453): the slot that is not running is erased and programmed. -/
def State.beginWrite (s : State) : State :=
  have s := { s with boot := { s.boot with op := some .write, rx := s.staged } }
  (((s.setSlot (!s.runSlot) []).wr Reg.BOOT_RESULT.BUSY 1).wr Reg.BOOT_RESULT.STATUS 0).wr Reg.BOOT_RESULT.PROGRESS 0

/-- BOOT_WRITE (R453). -/
def execBootWrite (s : State) : Res :=
  .next (if s.bootReady then
      match s.writeRefused with
      | some code => s.endBoot code
      | none => s.beginWrite
    else s)

/-- Whether a range of minors [lo, hi] holds a number, at an equal major. -/
def inRange (lo hi n : Nat) : Bool := decide (lo ≤ n ∧ n ≤ hi)

/-- The settings format in use (R452). -/
def BootRecord.format (r : BootRecord) : Nat := if r.bank then r.format1 else r.format0

/-- The versions that a ring neighbour's head offers (R339), where the peer is reachable. -/
def State.peerHello (s : State) : Option Hello := ([0, 2].filterMap fun l => if (s.link l).state = .active then (s.link l).far else none).head?

/-- Whether an image suits what runs (R454): every Active slice's ABI minor, the reachable peer's ring range, the settings format. -/
def State.compatible (s : State) (img : List Byte) : Bool :=
  have f := s.bootRecord.format
  (s.host.slices.all fun e => e.2.state != .active ||
      (coField img 0x1C 1 == 1 && inRange (coField img 0x1D 1) (coField img 0x1E 1) e.2.minor)) &&
    (s.peerHello.all fun h => h.major == coField img 0x19 1 && decide (coField img 0x1A 1 ≤ h.maxMinor ∧ h.minMinor ≤ coField img 0x1B 1)) &&
    inRange (coField img 0x22 2) (coField img 0x20 2) f

/-- Why an ACTIVATE is refused (R454). -/
def State.activateRefused (s : State) : Option Nat :=
  have img := s.slotImage (!s.on Reg.BOOT_STATUS.CONFIRMED_SLOT)
  if !(s.on Reg.BOOT_STATUS.PENDING) || s.onTrial || s.own.peerTrial then some 0xA017
  else if !(s.compatible img) then some 0xA016
  else s.checkImage img

/-- Every controller that enabled Firmware Activation notices is told that an activation starts (R505). -/
def State.tellActivation (s : State) : State :=
  s.cmd.ctrls.foldl (fun s e => if e.2.aec.testBit 9 then s.notice e.1 0x030102 else s) s

/-- A pause begins (R96, R454 step 1): the hold is set, ring fetching stops with it, and a rotation stops (R463). -/
def State.beginPause (s : State) (reason : Nat) : State :=
  have s := { s.tellActivation with boot := { s.boot with pause := true, fallReason := reason } }
  ((s.wr Reg.CMD_HOLD.ACTIVATION 1).wr Reg.BOOT_RESULT.BUSY 1).stopRotation

/-- The activation pause of the pending slot (R454): a record with TRIAL set is appended; at its first start the new image migrates the
settings into the other bank with event 0xA023. -/
def State.beginActivate (s : State) : State :=
  have img := s.slotImage (!s.on Reg.BOOT_STATUS.CONFIRMED_SLOT)
  have s := ({ s with boot.op := some .activate, boot.rx := img }).beginPause 0
  have migrate (r : BootRecord) : BootRecord :=
    if r.bank then { r with format0 := coField img 0x20 2, otherValid := true, trial := true }
    else { r with format1 := coField img 0x20 2, otherValid := true, trial := true }
  (s.appendRecord migrate).event1 0xA023 (coField img 0x20 2)

/-- ACTIVATE (R453, R454). -/
def execActivate (s : State) : Res :=
  .next (if s.bootReady then
      match s.activateRefused with
      | some code => s.endBoot code
      | none => s.beginActivate
    else s)

/-- An initiator's Firmware Commit that drives an operation ends (R451): success, Invalid Firmware Image for a code of R448, and a status that
the spec does not state for any other code. -/
def State.endCommit (s : State) (code : Nat) : State :=
  match s.boot.byNvme with
  | none => s
  | some t =>
    have s := { s with boot := { s.boot with byNvme := none, thenActivate := false } }
    if code = 0 then (s.finish t success).queueCompletion t
    else if 0xA010 ≤ code ∧ code ≤ 0xA015 then (s.finish t { sct := 1, sc := 0x07 }).queueCompletion t
    else
      let (v, s) := s.fresh
      (s.finish t (openStatus v)).queueCompletion t

/-- BOOT_WRITE_COMPLETE (R453): the readback has ended; a record with PENDING set is appended. A commit that asked for it activates next. -/
def execBootWriteComplete (result : NorResult) (s : State) : Res :=
  if s.boot.op = some .write then
    match result with
    | .good =>
      have s := s.setSlot (!s.runSlot) s.boot.rx
      have slot := s.bootRecord.slot
      have s := (s.appendRecord fun r => { r with slot := slot, pending := true, trial := false }).noteRecord
      have s := (s.endBoot 0).wr Reg.BOOT_RESULT.PROGRESS 1000
      if s.boot.thenActivate then
        match s.activateRefused with
        | some code => .next ((s.endBoot code).endCommit code)
        | none => .next s.beginActivate
      else .next (s.endCommit 0)
    | .failed => .next ((s.endBoot 0xA018).endCommit 0xA018)
    | .mismatch => .next ((s.endBoot 0xA019).endCommit 0xA019)
  else .next s

/-- A hello goes out on every Active link (R340). -/
def State.helloAll (s : State) : State := s.activeLinks.foldl State.sendHello s

/-- A trial starts (R454). -/
def State.startTrial (s : State) : State :=
  { s with boot := { s.boot with rx := [], trialLeft := some (s.clock + s.rd Reg.BOOT_CONFIRM.WINDOW_S * ticksPerSecond) } }

/-- A trial is over, and no staged image is left (R455). -/
def State.endTrial (s : State) : State :=
  { s with boot := { s.boot with rx := [], trialLeft := none, fallReason := 0 } }

/-- The pause is over (R96, R454). -/
def State.endActivationPause (s : State) : State := ({ s with boot.pause := false }).wr Reg.CMD_HOLD.ACTIVATION 0

/-- The new image runs on trial (R454): event 0xA020. -/
def State.beginTrial (s : State) : State :=
  have s := (s.noteImage (!s.on Reg.BOOT_STATUS.CONFIRMED_SLOT) .live s.boot.rx).startTrial
  have s := ((s.wr Reg.BOOT_STATUS.TRIAL 1).helloAll.event 0xA020).endBoot 0
  (s.endCommit 0).releaseHeld

/-- The confirmed image runs again after a trial that failed (R455): event 0xA022 gives the reason, 0xA024 each settings field dropped. -/
def State.endFailedTrial (s : State) (dropped : List Nat) (reason : Nat) : State :=
  have s := s.noteImage (s.on Reg.BOOT_STATUS.CONFIRMED_SLOT) .live s.boot.confirmedCopy
  have s := ((s.appendRecord fun r => { r with trial := false, otherValid := false }).wr Reg.BOOT_STATUS.TRIAL 0).endTrial
  have s := dropped.foldl (fun s f => s.event1 0xA024 f) (s.helloAll.event1 0xA022 reason)
  (s.endBoot 0).releaseHeld

/-- ACTIVATION_PAUSE_END (R96, R340, R454, R455): the new firmware runs, hellos go out again on every ring link, and held commands start.
After an activation the trial begins with event 0xA020; after a fall-back event 0xA022 gives its reason, and each settings field dropped
is event 0xA024. -/
def execActivationPauseEnd (dropped : List Nat) (s : State) : Res :=
  if !s.boot.pause then .next s
  else
    have s := s.endActivationPause
    .next (if s.boot.fallReason = 0 then s.beginTrial else s.endFailedTrial dropped s.boot.fallReason)

/-- CONFIRM (R453, R455): the record with CONFIRMING set, the counter, the record that names the new slot, event 0xA021. -/
def execConfirm (s : State) : Res :=
  .next (if s.bootReady then
      if s.onTrial then
        have v := s.rd Reg.BOOT_SVN.RUNNING
        have s := (s.appendRecord fun r => { r with confirming := true, version := v }).raiseSvn v
        have s := s.appendRecord fun r => { r with
          slot := !r.slot
          confirming := false
          pending := false
          trial := false
          bank := !r.bank
          otherValid := false }
        have s := (s.noteRecord.wr Reg.BOOT_STATUS.TRIAL 0).event1 0xA021 s.fuses.svn
        ({ s with boot := { s.boot with trialLeft := none, confirmedCopy := s.boot.image } }).endBoot 0
      else s.endBoot 0xA017
    else s)

/-- A live fall-back to the confirmed image begins (R455). A commit that drives an activation ends with it. -/
def State.fallBack (s : State) (reason : Nat) : State :=
  (({ s with boot.op := none }).beginPause reason).endCommit 0xA017

/-- REVERT (R453, R455). -/
def execRevert (s : State) : Res :=
  .next (if s.bootReady then
      if s.onTrial then s.fallBack 1 else s.endBoot 0xA017
    else s)

/-- CONFIRM_WINDOW_EXPIRY (R455): the window has passed without CONFIRM. -/
def execConfirmWindowExpiry (s : State) : Res :=
  .next (if s.onTrial && !s.boot.pause && (s.boot.trialLeft.any fun t => decide (t ≤ s.clock)) then s.fallBack 2 else s)

/-- FIRMWARE_WATCHDOG_EXPIRY (R455): event 0xA028, and a fall-back to the confirmed image. -/
def execFirmwareWatchdogExpiry (s : State) : Res :=
  .next (if s.running then (s.event 0xA028).fallBack 3 else s)

/-- REVOKE (R453): the revocation fuse of a key set is blown, event 0xA027; refused while the running, confirmed or pending image uses the
set, or where no unrevoked set would remain. -/
def execRevoke (keyset : Nat) (s : State) : Res :=
  .next (if s.bootReady then
      have k := keyset % 4
      have confirmed := s.on Reg.BOOT_STATUS.CONFIRMED_SLOT
      have pending := s.on Reg.BOOT_STATUS.PENDING && keySet (s.slotImage (!confirmed)) == k
      have bits := s.fuses.revoked ||| 2 ^ k
      if keySet s.boot.image = k ∨ keySet (s.slotImage confirmed) = k ∨ pending ∨ bits % 16 = 15 then s.endBoot 0xA017
      else ((({ s with fuses.revoked := bits }).wr Reg.BOOT_SVN.REVOKED bits).event1 0xA027 k).endBoot 0
    else s)

/-! Recovery (R457) -/

/-- A recovery image is checked (R457): a good one runs from SRAM with event 0xA004 and its source; a bad one leaves the ROM waiting with
its code. It changes no NOR byte. -/
def State.recover (s : State) (source : BootSource) (img : List Byte) : State :=
  match s.checkImage img with
  | some code => ({ s with boot.rx := [] }).wr Reg.BOOT_RESULT.STATUS code
  | none => (s.runImage s.bootRecord.slot source img).event1 0xA004 source.code

/-- RECOVERY_GO (R457, R459): the ROM, while it waits, fetches the image of BOOT_RCV_LEN bytes from host memory. -/
def execRecoveryGo (image : List Byte) (s : State) : Res :=
  .next (if s.rd Reg.BOOT_STATUS.STAGE = 4 then s.recover .pcie (image.take (s.rd Reg.BOOT_RCV_LEN.BYTES)) else s)

/-- RECOVERY_REQUEST (R457): with SERVE_EN, the confirmed image is sent to the peer. -/
def execRecoveryRequest (s : State) : Res :=
  .next (if s.running && s.on Reg.BOOT_CFG.SERVE_EN then s.sendRing (.ring 0x71 [] s.boot.confirmedCopy) else s)

/-- RECOVERY_IMAGE (R457): image bytes come over the ring; after the last the image is checked. -/
def execRecoveryImage (bytes : List Byte) (last : Bool) (s : State) : Res :=
  if s.boot.recovering then
    have img := s.boot.rx ++ bytes
    .next (if last then s.recover .ring img else { s with boot.rx := img })
  else .next s

/-! The initiator's firmware commands (R451) -/

/-- FIRMWARE_IMAGE_DOWNLOAD (R451): the bytes go into staging at the offset given; BOOT_STAGE_LEN follows. -/
def execFirmwareImageDownload (tag : Nat) (s : State) : Res :=
  .next (s.begin tag .firmwareDownload fun c s =>
    have off := 4 * c.cap.cdw11
    have len := 4 * (c.cap.cdw10 + 1)
    if 25165824 < off + len then s.finish tag (generic 0x02)
    else
      have s := s.ddrWriteList (s.rd Reg.BOOT_FW_BASE.BASE + off) (c.cap.data.take len)
      have n := if off = 0 then len else max (s.rd Reg.BOOT_STAGE_LEN.BYTES) (off + len)
      (s.wr Reg.BOOT_STAGE_LEN.BYTES n).finish tag success)

/-- FIRMWARE_COMMIT (R451): WRITE into the slot named, and ACTIVATE for action 3. -/
def execFirmwareCommit (tag : Nat) (s : State) : Res :=
  .next (s.begin tag .firmwareCommit fun c s =>
    have slot := c.cap.cdw10 % 8
    have action := c.cap.cdw10 / 8 % 8
    if action ≠ 0 ∧ action ≠ 3 then s.finish tag (generic 0x02)
    else if !(slot == 1 || slot == 2) || ((slot == 2) == s.runSlot) then s.finish tag { sct := 1, sc := 0x06 }
    else
      if !s.bootReady then
        let (v, s) := s.fresh
        s.finish tag (openStatus v)
      else
        have s := { s with boot := { s.boot with byNvme := some tag, thenActivate := action == 3 } }
        match s.writeRefused with
        | some code => (s.endBoot code).endCommit code
        | none => s.beginWrite)

end Sys2Proof.Machine
end

