-- ==== Sys2Proof/Machine/Cipher.lean ====
section
/-!
DEFINITION. Machine/Cipher.lean: the meanings of the compression and cipher jobs of the control host (chapter 05, R141 to R148).
-/
namespace Sys2Proof.Machine
open Sys2Proof

/-- The number of a format for the compressor and decompressor (R143). -/
def CompFormat.code : CompFormat → Nat
  | .deflate => 0
  | .zlib => 1
  | .gzip => 2
  | .lz4 => 3

/-- The number of a cipher mode (R144). -/
def CipherMode.code : CipherMode → Nat
  | .cbc => 0
  | .ctr => 1
  | .cfb => 2
  | .xts => 3
  | .gcm => 4

/-- A job is given to the lane chosen as a segment's, and waits there for a stream (R104, R147). -/
def State.startJob (s : State) (j : Job) : State :=
  State.startJobs { s with bnd.jobs := s.bnd.jobs ++ [{ j with lane := s.pickLane [] }] }

/-- A job is refused before it starts: it ends with a result block of its status all the same (R145). -/
def State.refuseJob (s : State) (c : HostCmd) (code : Nat) : State :=
  (s.sendHost (.jobResult c { status := code })).complete c code

/-- The operation that a byte of the parameter block names (R143). -/
def compOpOf : Nat → Option CompOp
  | 0 => some .compress
  | 1 => some .decompress
  | 2 => some .crc
  | 3 => some .importOp
  | _ => none

/-- The format that a byte of the parameter block names (R143). -/
def compFormatOf : Nat → Option CompFormat
  | 0 => some .deflate
  | 1 => some .zlib
  | 2 => some .gzip
  | 3 => some .lz4
  | _ => none

/-- The 32-byte parameter block of a compression job (R143), with the destination and domain of its descriptor; none where an operation or a
format is not one of R143's. -/
def CompParams.parse (b : List Byte) (domain dst : Nat) : Option CompParams :=
  match compOpOf (num (slice b 0 1)), compFormatOf (num (slice b 1 1)) with
  | some op, some format => some
    { op := op, format := format, level := num (slice b 2 1), inLen := num (slice b 8 8), outLimit := num (slice b 0x10 8), seed := num (slice b 0x18 4),
      domain := domain, dst := dst, reservedZero := slice b 3 5 == zeros 5 && slice b 0x1C 4 == zeros 4 }
  | _, _ => none

/-- Whether a compression job's fields are in range (R143). An import takes a raw DEFLATE or LZ4 payload that a container can hold. -/
def CompParams.good (p : CompParams) : Bool :=
  p.reservedZero && decide (p.level ≤ 3 ∧ 1 ≤ p.inLen ∧ p.inLen ≤ 2 ^ 36) &&
    (p.op != .importOp || ((p.format == .deflate || p.format == .lz4) && decide (p.inLen ≤ 65536)))

/-- COMP_JOB (R143, R145): a field out of range is refused with 0x1001 (DESIGN CHOICE, log entry 96), compression in LZ4 format with 0x310A,
which counts as a decode error (R139). -/
def execCompJob (c : HostCmd) (job : CompBlock) (s : State) : Res :=
  .next (s.ringGate c .jobs fun _ =>
    match CompParams.parse (fit 32 job.block) job.domain job.dst with
    | none => s.refuseJob c 0x1001
    | some p =>
      if !p.good then s.refuseJob c 0x1001
      else if p.op = .compress ∧ p.format = .lz4 then (s.countDecode 0x310A).refuseJob c 0x310A
      else s.startJob { cmd := c, lane := 0, comp := some p })

/-- The mode that a byte of the parameter block names (R144). -/
def cipherModeOf : Nat → Option CipherMode
  | 0 => some .cbc
  | 1 => some .ctr
  | 2 => some .cfb
  | 3 => some .xts
  | 4 => some .gcm
  | _ => none

/-- The 64-byte parameter block of a cipher job (R144), with the destination of its descriptor; none where MODE is not one of R144's. -/
def CipherParams.parse (b : List Byte) (dst : Nat) : Option CipherParams :=
  have flags := num (slice b 1 1)
  have slot := num (slice b 2 2)
  (cipherModeOf (num (slice b 0 1))).map fun mode =>
    { mode := mode, decrypt := flags.testBit 0, buffered := flags.testBit 1, scrub := flags.testBit 2, slot := slot % 8192,
      gen := num (slice b 4 1), tagLen := num (slice b 5 1), ctrWidth := num (slice b 6 1), duLog2 := num (slice b 7 1),
      msgLen := num (slice b 8 8), aadLen := num (slice b 0x10 8), iv := slice b 0x18 16, expected := slice b 0x28 16, dst := dst,
      reservedZero := decide (flags < 8 ∧ slot < 8192) && slice b 0x38 8 == zeros 8 }

/-- Whether a job's fields are in range (R144): 0x3205 for a GCM tag length, 0x3204 for its IV, 0x3202 for the rest. -/
def CipherParams.fields (p : CipherParams) : Nat :=
  have tagOk := match p.mode with
    | .gcm => decide (12 ≤ p.tagLen ∧ p.tagLen ≤ 16)
    | _ => p.tagLen == 0
  have widthOk := match p.mode with
    | .ctr => p.ctrWidth == 32 || p.ctrWidth == 64 || p.ctrWidth == 128
    | _ => p.ctrWidth == 0
  have duOk := match p.mode with
    | .xts => p.duLog2 == 0 || decide (9 ≤ p.duLog2 ∧ p.duLog2 ≤ 20)
    | _ => p.duLog2 == 0
  if !p.reservedZero ∨ !widthOk ∨ !duOk ∨ 8192 ≤ p.slot ∨ 256 ≤ p.gen then 0x3202
  else if !tagOk then (if p.mode = .gcm then 0x3205 else 0x3202)
  else if p.mode = .gcm ∧ p.iv.drop 12 ≠ zeros 4 then 0x3204
  else 0

/-- Whether a job's length keeps the limits of its mode (R141). -/
def CipherParams.length (p : CipherParams) : Nat :=
  have n := p.msgLen
  match p.mode with
  | .cbc => if n % 16 ≠ 0 then 0x3201 else if n < 16 ∨ 2 ^ 36 < n then 0x3202 else 0
  | .ctr =>
    if n < 1 ∨ 2 ^ 36 < n then 0x3202
    else
      have start := num p.iv.reverse % 2 ^ p.ctrWidth
      if 2 ^ p.ctrWidth < start + (n + 15) / 16 then 0x3203 else 0
  | .cfb => if n < 1 ∨ 2 ^ 36 < n then 0x3202 else 0
  | .xts =>
    if p.duLog2 = 0 then (if n < 16 ∨ 2 ^ 24 < n then 0x3202 else 0)
    else if n % 2 ^ p.duLog2 ≠ 0 then 0x3201
    else if n < 1 ∨ 2 ^ 36 < n then 0x3202
    else 0
  | .gcm =>
    if 2 ^ 36 - 32 < n ∨ 2 ^ 32 - 1 < p.aadLen then 0x3202
    else if p.buffered ∧ 1048576 < n then 0x3202
    else 0

/-- Whether a key type fits a mode (R141). -/
def KeyType.fits (t : KeyType) : CipherMode → Bool
  | .xts => t == .xts128 || t == .xts256
  | .cbc | .ctr | .cfb | .gcm => t == .aes128 || t == .aes256

/-- Whether a slot is the envelope key of an enabled replica set (R283). -/
def State.envelopeSlot (s : State) (slot : Nat) : Bool :=
  s.rep.sets.any fun e => s.on Reg.REP_SET_CFG.EN e.1 && s.rd Reg.REP_SET_CFG.KEY_SLOT e.1 == slot

/-- CIPHER_JOB (R141, R144, R145): the checks before any byte is read. -/
def execCipherJob (c : HostCmd) (job : CipherBlock) (s : State) : Res :=
  .next (s.ringGate c .jobs fun sl =>
    match CipherParams.parse (fit 64 job.block) job.dst with
    | none => s.refuseJob c 0x3202
    | some params =>
      if params.fields ≠ 0 then s.refuseJob c params.fields
      else if params.length ≠ 0 then s.refuseJob c params.length
      else
        match s.keyGen params.slot params.gen with
        | none => s.refuseJob c 0x3207
        | some g =>
          if !(g.type.fits params.mode) || !(sl.mayName (s.cipherSlot params.slot).tenant) || s.envelopeSlot params.slot then s.refuseJob c 0x3208
          else s.startJob { cmd := c, lane := 0, cipher := some params })

/-- A job's result is posted: the result block over the parameter block, and the completion (R145, R397). A squashed job's result is
not posted (R403). -/
def State.endJob (s : State) (j : Job) (r : JobResult) : State :=
  have s := State.startJobs { s with bnd.jobs := s.bnd.jobs.filter fun x => x.cmd != j.cmd }
  if j.squashed then s.complete j.cmd r.status 0 r.written
  else (s.sendHost (.jobResult j.cmd r)).complete j.cmd r.status 0 r.written

/-- Bytes of a job go to its destination in host memory. -/
def State.jobWrite (s : State) (j : Job) (dst : Nat) (bytes : List Byte) : State :=
  if bytes.isEmpty then s else s.sendHost (.hostWrite j.cmd.slice (dst + j.written) bytes)

/-- A GCM decryption ends without a matching tag (R146): what it wrote unbuffered is untrusted, and is overwritten with zeros where
SCRUB is set. -/
def State.endUntrusted (s : State) (j : Job) (p : CipherParams) (status written : Nat) : State :=
  have bad := decide (0 < written)
  have s := if bad then s.bump Reg.BND_GCM_UNTRUSTED.COUNT else s
  have s := if bad && p.scrub then s.sendHost (.hostWrite j.cmd.slice p.dst (zeros written)) else s
  s.endJob j { status := status, untrusted := bad, scrubbed := bad && p.scrub, written := written }

/-- Whether a job streams plaintext before its tag is judged (R146). -/
def CipherParams.streams (p : CipherParams) : Bool := p.mode == .gcm && p.decrypt && !p.buffered

/-- The text of a cipher job over the message bytes so far. -/
def CipherParams.text (p : CipherParams) (g : KeyGen) (msg : List Byte) : List Byte :=
  match p.mode with
  | .xts =>
    have du := if p.duLog2 = 0 then msg.length else 2 ^ p.duLog2
    have units := groupsOf du msg.length msg
    units.zipIdx.flatMap fun u => xts p.decrypt g.key (le 16 (num p.iv + u.2)) u.1
  | .gcm => gcmText g.key (p.iv.take 12) msg
  | .cbc | .ctr | .cfb => aesMode p.mode.code p.ctrWidth p.decrypt g.key p.iv msg

/-- A job goes behind the others of its lane with its input so far (R148). -/
def State.requeueJob (s : State) (j : Job) : State :=
  { s with bnd.jobs := (s.bnd.jobs.filter fun x => x.cmd != j.cmd) ++ [j] }

/-- A cipher job after a slice (R145 to R147): its bytes are written as they are produced, and the job ends with its last one. -/
def State.cipherSlice (s : State) (j : Job) (p : CipherParams) (upset : Bool) : State :=
  match s.keyGen p.slot p.gen with
  | none => if p.streams then s.endUntrusted j p 0x3207 j.written else s.endJob j { status := 0x3207, written := j.written }
  | some g =>
    have aad := if p.mode = .gcm then j.input.take p.aadLen else []
    have msg := j.input.drop aad.length
    have out := p.text g msg
    have fresh := out.drop j.written
    have whole := decide (j.total ≤ j.input.length)
    have hold := p.mode == .gcm && p.decrypt && p.buffered
    have s := if hold then s else s.jobWrite j p.dst fresh
    have written := if hold then 0 else out.length
    have j := { j with written := written }
    if !whole then s.requeueJob j
    else
      match p.mode, p.decrypt with
      | .gcm, true =>
        have tag := (gcmTag g.key (p.iv.take 12) aad msg).take p.tagLen
        have got := readCompare (doubledCompare tag (p.expected.take p.tagLen) upset)
        have s := if got = .fault then s.bump Reg.BND_CIPHER_FAULT.COUNT else s
        if got = .equal then
          if hold then (s.jobWrite j p.dst out).endJob j { status := 0, written := out.length }
          else s.endJob j { status := 0, written := written }
        else if hold then s.endJob j { status := 0x3206 }
        else s.endUntrusted j p 0x3206 written
      | .gcm, false =>
        s.endJob j { status := 0, written := written, tag := (gcmTag g.key (p.iv.take 12) aad out).take p.tagLen }
      | _, _ => s.endJob j { status := 0, written := written }

/-- A compression job that failed under R139. -/
def State.compFailed (s : State) (j : Job) (code : Nat) : State := (s.countDecode code).endJob j { status := code }

/-- A compression job with its whole input (R138, R143). An import whose stream decodes to no bytes fails with 0x3103, as no container holds them
(DESIGN CHOICE, log entry 118). -/
def State.compEnd (s : State) (j : Job) (p : CompParams) : State :=
  match p.op with
  | .crc => s.endJob j { status := 0, crc := crc32cFrom p.seed j.input }
  | .compress =>
    have out := compress p.level p.format.code j.input
    if p.outLimit < out.length then s.compFailed j 0x3103
    else (s.jobWrite j p.dst out).endJob j { status := 0, crc := crc32c j.input, written := out.length }
  | .decompress =>
    match decompress p.format.code p.outLimit false j.input with
    | .error e => s.compFailed j e
    | .ok out => (s.jobWrite j p.dst out).endJob j { status := 0, crc := crc32c out, written := out.length }
  | .importOp =>
    match decompress p.format.code 65536 false j.input with
    | .error e => s.compFailed j e
    | .ok plain =>
      if plain.isEmpty then s.compFailed j 0x3103
      else
        match s.containerKey p.domain with
        | .error e => s.endJob j { status := e }
        | .ok g =>
            have slot := s.rd Reg.DDP_DOMAIN_KEYS.CIPHER_SLOT p.domain
            have h : Header :=
              { alg := if p.format = .lz4 then 2 else 1, domain := p.domain, slot := slot, gen := g.gen, orig := plain.length,
                payload := j.input.length, cut := s.cutTime j.lane, ring := s.rd Reg.XRN_ADDR.ASSIGNED, lane := j.lane, crc := crc32c plain }
            have out := h.bytes ++ xts false g.key (tweak h.bytes) (j.input ++ zeros (16 - j.input.length))
            have s := { s with bnd.lastCut := Table.put j.lane h.cut s.bnd.lastCut }
            if p.outLimit < out.length then s.compFailed j 0x3103
            else (s.jobWrite j p.dst out).endJob j { status := 0, crc := h.crc, written := out.length }

/-- A job that is stopped at its slice boundary (R402, R403): 0x100C, untrusted where it streamed plaintext. -/
def State.stopJob (s : State) (j : Job) : State :=
  match j.cipher with
  | some p => if p.streams then s.endUntrusted j p 0x100C j.written else s.endJob j { status := 0x100C, written := j.written }
  | none => s.endJob j { status := 0x100C, written := j.written }

/-- The bytes of a job's next slice (R147): 64 KiB, or what is left. A slice of an XTS job that does not end on a data-unit boundary leaves at
least the final 32 bytes of its data unit to the next. -/
def Job.sliceLen (j : Job) : Nat :=
  have left := j.total - j.input.length
  if left ≤ 65536 then left
  else
    match j.cipher with
    | some p =>
      if p.mode = .xts ∧ p.duLog2 = 0 ∧ left < 65536 + 32 then (left - 32) / 16 * 16 else 65536
    | none => 65536

/-- Whether a job is the one that its lane serves next (R148): jobs on one lane take slices in round robin. -/
def State.servesNext (s : State) (j : Job) : Bool :=
  (s.bnd.jobs.find? fun x => x.lane == j.lane && x.begun).any fun x => x.cmd == j.cmd

/-- Whether a job runs AES blocks (R156): a cipher job, or the import of a container. -/
def Job.ciphers (j : Job) : Bool := j.cipher.isSome || j.comp.any fun p => p.op == .importOp

/-- A dummy round gave a wrong result in a job's slice (R156): the job fails with 0x320C. -/
def State.jobFault (s : State) (j : Job) : State :=
  have s := s.bump Reg.BND_CIPHER_FAULT.COUNT
  match j.cipher with
  | some p => if p.streams then s.endUntrusted j p 0x320C j.written else s.endJob j { status := 0x320C, written := j.written }
  | none => s.endJob j { status := 0x320C, written := j.written }

/-- JOB_SLICE_END (R147, R148): the job that its lane serves next has taken in a slice, whose bytes are those that the source holds. `fault` is a
dummy round with a wrong result (R156), `upset` an upset of the tag compare (R142). -/
def execJobSliceEnd (c : HostCmd) (bytes : List Byte) (fault upset : Bool) (s : State) : Res :=
  match s.bnd.jobs.find? fun j => j.cmd.slice == c.slice && j.cmd.ring == c.ring && j.cmd.cid == c.cid with
  | none => .next s
  | some j =>
    if j.stop then .next (s.stopJob j).pumpLanes
    else if !(s.servesNext j) || bytes.length != j.sliceLen then .next s
    else
      have j := { j with input := j.input ++ bytes }
      have t : State :=
        if s.dummyFails fault && j.ciphers then s.jobFault j
        else
          match j.comp, j.cipher with
          | some p, _ => if j.total ≤ j.input.length then s.compEnd j p else s.requeueJob j
          | none, some p => s.cipherSlice j p upset
          | none, none => s
      .next t.pumpLanes

end Sys2Proof.Machine
end

