-- ==== Sys2Proof/Machine/Dedup.lean ====
section
/-!
DEFINITION. Machine/Dedup.lean: the meanings of the commands of chapter 04: the gear seed, digest states, lookups and their
answers, verify, the reconciler and sweeps, domain settings, and dedup across the cascade.
-/
namespace Sys2Proof.Machine
open Sys2Proof

/-- GEAR_SEED_WRITE (R107): the gear table follows the seed. -/
def execGearSeedWrite (value : Nat) (s : State) : Res :=
  .next (if s.writable 11 && !(s.locked 11) then s.wr Reg.BND_GEAR_SEED.SEED value else s)

/-- The chunks of a write that wait for a digest slot (R111). -/
def waitingChunks (c : Cmd) : List Chunk :=
  match c.write with
  | some w => w.chunks.filter fun k => k.state == .waiting
  | none => []

/-- The states of a digest slot are computed and stored in its entry (R111). -/
def State.storeStates (s : State) (slot : Nat) (d : DigestSlot) : State :=
  let (v, s) := s.fresh
  { s with keys.digest := Table.put slot { d with ready := true, sealId := v } s.keys.digest }

/-- DIGEST_STATE_DONE (R111): the slot's states are computed and stored, and the chunks that wait for them go on. `damaged` in it tells that the
stored ones could not be read and have been computed again: event 0x300A (R129). -/
def execDigestStateDone (ready : StatesReady) (s : State) : Res :=
  match Table.find ready.slot s.keys.digest with
  | none => .next s
  | some d =>
    have s := if ready.damaged && d.ready then s.event1 0x300A ready.slot else s
    have s := s.storeStates ready.slot d
    .next (s.cmd.tags.foldl (fun s e =>
      if s.rd Reg.DDP_DOMAIN_KEYS.DIGEST_SLOT e.2.tenant = ready.slot then
        (waitingChunks e.2).foldl (fun s k => s.askChunk e.1 e.2.tenant k) s
      else s) s)

/-! Lookups (R113, R116 to R121) -/

/-- The candidates of a lookup in slot order (R118 step 3): the key of the first match, and the state after the look. `damaged` and
`upset` name slots whose entry is damaged, and whose compare is upset. -/
def State.scanBucket (domain : Nat) (fp : List Byte) (damaged upset : List Nat) : List Nat → State → Option Nat × State
  | [], s => (none, s)
  | key :: r, s =>
    match Table.find key s.ddp.index with
    | none => State.scanBucket domain fp damaged upset r s
    | some e =>
      if damaged.contains (key % 30) then
        State.scanBucket domain fp damaged upset r ((s.removeIndex key).event1 0x3004 domain)
      else
        match sameFp e.domain e.fp domain fp (upset.contains (key % 30)) with
        | .equal => (some key, s)
        | .unequal => State.scanBucket domain fp damaged upset r (s.bump Reg.DDP_FALSE_POS.COUNT)
        | .fault => State.scanBucket domain fp damaged upset r (s.noteCompare domain .fault)

/-- A lookup answers "miss" (R118 step 5, R120). -/
def State.answerMiss (s : State) (t domain off : Nat) (fp : List Byte) (upset : Bool) : State :=
  ((s.addPending domain fp t upset).bump Reg.DDP_MISSES.COUNT).modChunk t off fun k => { k with answer := some none }

/-- DEDUP_LOOKUP (R113, R118, R120, R121): a lookup of a chunk's fingerprint reaches QM. `upset` names the slots whose compare is upset, and
30 for the compare with the pending table. -/
def execDedupLookup (tag off : Nat) (damaged upset : List Nat) (s : State) : Res :=
  match s.tag tag with
  | none => .next s
  | some c =>
    match (c.write.bind fun w => w.chunkAt off).filter fun k => k.state == .asked && k.answer.isNone with
    | none => .next s
    | some k =>
      have fp := k.fp.getD []
      have up := upset.contains 30
      if s.on Reg.DDP_CTRL.LOOKUP_EN then
        let (hit, s) := State.scanBucket c.tenant fp damaged upset (s.tagMatches c.tenant fp) s
        match hit with
        | none => .next (s.answerMiss tag c.tenant off fp up)
        | some key =>
          match Table.find key s.ddp.index with
          | none => .next (s.answerMiss tag c.tenant off fp up)
          | some e =>
            if 255 ≤ e.pins then .next (s.answerMiss tag c.tenant off fp up)
            else
              .next (((s.pin key).bump Reg.DDP_HITS.COUNT).modChunk tag off fun k =>
                { k with answer := some (some e.loc), pin := some key })
      else .next (s.answerMiss tag c.tenant off fp up)

/-- A chunk is stored, unless a dummy round gives a wrong result (R156). -/
def State.keepChunk (s : State) (t domain : Nat) (k : Chunk) (noIndex fault : Bool) : State :=
  if s.dummyFails fault then s.cipherFault t else s.storeChunk t domain k noIndex

/-- LOOKUP_ANSWER (R118, R125, R136): on a hit the chunk is a reference, or is verified first; on a miss its container is stored.
`fault` is a dummy round with a wrong result (R156). -/
def execLookupAnswer (tag off : Nat) (fault : Bool) (s : State) : Res :=
  match s.tag tag with
  | none => .next s
  | some c =>
    match (c.write.bind fun w => w.chunkAt off).filter fun k => k.state == .asked with
    | none => .next s
    | some k =>
      match k.answer with
      | none => .next s
      | some none => .next ((s.keepChunk tag c.tenant k false fault).tryHandOff tag)
      | some (some loc) =>
        if s.on Reg.DDP_DOMAIN_CFG.VERIFY c.tenant then
          .next ((s.modChunk tag off fun k => { k with state := .verifying loc }).fetchCopy (.verify tag off) loc false)
        else .next ((s.modChunk tag off fun k => { k with state := .hit loc }).tryHandOff tag)

/-- The original bytes of a chunk that a lane holds; a forwarded one is decrypted in a lane of the owner (R363). -/
def State.chunkBytes (s : State) (domain : Nat) (k : Chunk) : List Byte :=
  match k.fwd with
  | none => k.bytes
  | some f =>
    match s.decodeContainer domain f.2.length f.2 with
    | .ok b => b
    | .error _ => []

/-- VERIFY_COMPARE (R125, R126): the stored copy of a verified hit is compared with the original; `upset` is a compare fault, `fault` a dummy round
with a wrong result as the chunk is stored (R156). The staging space of the chunk is free again, and reads that waited for space go out. -/
def execVerifyCompare (tag off : Nat) (faults : VerifyFaults) (s : State) : Res :=
  match s.tag tag with
  | none => .next s
  | some c =>
    match c.write.bind fun w => w.chunkAt off with
    | none => .next s
    | some k =>
      match k.state, k.copy with
      | .verifying loc, some copy =>
        match s.decodeContainer c.tenant loc.size (copy.getD []) with
        | .error e =>
          have s := match e with
            | .damage code => s.countDecode code
            | .key _ => s
          .next (((((s.event1 0x3005 c.tenant).keepChunk tag c.tenant k false faults.fault)).tryHandOff tag).issueReads (c.cap.qpn % 2))
        | .ok stored =>
          have got := readCompare (doubledCompare stored (s.chunkBytes c.tenant k) faults.upset)
          have s := s.noteCompare c.tenant got
          match got with
          | .equal => .next (((s.bump Reg.DDP_VERIFY_MATCH.COUNT).modChunk tag off fun k => { k with state := .hit loc }).tryHandOff tag |>.issueReads (c.cap.qpn % 2))
          | .unequal | .fault =>
            have s := (s.bump Reg.DDP_VERIFY_MISMATCH.COUNT).event 0x3003 (le 4 c.tenant ++ (k.fp.getD []).take 8)
            .next (((s.keepChunk tag c.tenant k true faults.fault).tryHandOff tag).issueReads (c.cap.qpn % 2))
      | _, _ => .next s

/-! The reconciler (R122, R123) -/

/-- The flash index's entry for a fingerprint. -/
def State.flashEntry (s : State) (domain : Nat) (fp : List Byte) : Option JournalEntry :=
  s.ddp.flash.find? fun e => e.domain == domain && e.fp == fp

/-- Whether a container is still stored. -/
def State.isStored (s : State) (loc : Loc) : Bool := s.keys.stored.any fun m => m.loc == loc

/-- An entry enters the flash index. -/
def State.enterFlash (s : State) (e : JournalEntry) : State := { s with ddp.flash := s.ddp.flash ++ [e] }

/-- One entry is settled against the flash index (R113, R122): entered, left, or redirected to the copy that stands there. -/
def State.reconcile (s : State) (e : JournalEntry) (upset : Bool) : State :=
  match s.flashEntry e.domain e.fp with
  | none => s.enterFlash e
  | some x =>
    match sameFp x.domain x.fp e.domain e.fp upset with
    | .equal => if x.loc = e.loc then s else s.redirect e.loc x.loc
    | .unequal => s.enterFlash e
    | .fault => (s.noteCompare e.domain .fault).enterFlash e

/-- The ring address of this pair's head A (R127). -/
def State.pairAddr (s : State) : Nat := s.rd Reg.XRN_ADDR.ASSIGNED / 2 * 2

/-- Whether a domain is shared and its home is another pair (R127, R128). -/
def State.cascaded (s : State) (domain : Nat) : Bool :=
  s.on Reg.DDP_DOMAIN_CFG.CASCADE domain && !(s.on Reg.DDP_DOMAIN_STAT.CASCADE_OFF domain) &&
    s.rd Reg.DDP_DOMAIN_HOME.HOME domain != s.pairAddr

/-- An entry of the reconciler is settled (R122, R127): a shared domain's goes to its home; none while the home is unreachable or
no internal tag is left for the entry, which holds one until the home answers (R77). -/
def State.settleEntry (s : State) (e : JournalEntry) (upset : Bool) : Bool × State :=
  if s.cascaded e.domain then
    have home := s.rd Reg.DDP_DOMAIN_HOME.HOME e.domain
    if s.pairReached home && s.mayTag .internal then
      have n := (s.ddp.seqOut + 1) % 2 ^ 32
      have s := ({ s with
        ddp.seqOut := n
        ddp.asked := Table.put n e s.ddp.asked }).holdTag (.reconcile n) e.domain
      (true, s.sendRing (.ring 0x40 [home, e.domain, s.pairAddr, n] e.fp))
    else (false, s)
  else (true, s.reconcile e upset)

/-- Whether the reconciler may work on a domain's entries (R77, R122): it is enabled, and internal work may take a tag. An entry of
this pair's own flash index holds it for the one command, one of a home until the home answers. -/
def State.mayReconcile (s : State) : Bool := s.on Reg.DDP_CTRL.RECON_EN && s.mayTag .internal

/-- The reconciler has taken the journal's oldest entry (R123). -/
def State.takeJournal (s : State) (rest : List JournalEntry) : State :=
  State.noteJournal { s with
    ddp.journal := rest
    ddp.taken := s.ddp.taken + 1 }

/-- RECONCILE_ENTRY (R122, R127): the oldest journal entry is taken once its chunk is destaged; one whose container is gone is
skipped. A shared domain's entry is held, with event 0x3007, while the home is unreachable (R128). -/
def execReconcileEntry (upset : Bool) (s : State) : Res :=
  match s.ddp.journal with
  | [] => .next s
  | e :: r =>
    if !s.mayReconcile || s.rd Reg.DDP_RECON_RATE.PER_MS == 0 then .next s
    else
      have taken := s.takeJournal r
      if !(s.isStored e.loc) || s.rd Reg.DDP_DOMAIN_CFG.MODE e.domain != 2 then .next taken
      else
        match e.loc with
        | .flash .. =>
          if (taken.settleEntry e upset).1 then .next (taken.settleEntry e upset).2 else .next (s.event1 0x3007 e.domain)
        | _ => .next s

/-- Whether a place lies in a signature. -/
def Loc.inFlash : Loc → Bool
  | .flash .. => true
  | .unmapped | .zero | .cache .. | .remote .. | .lost .. | .image _ => false

/-- One stored chunk of a sweep is compared against the flash index (R123); the answer tells whether it could be. One that
its home has already been asked for is left. `upset` names stored chunks, by their place among the domain's, whose compare ends in a fault. -/
def State.sweepOne (s : State) (upset : List Nat) (m : StoredMark × Nat) : Bool × State :=
  match m.1.fp with
  | some fp =>
    have e : JournalEntry := { domain := m.1.domain, fp := fp, loc := m.1.loc }
    if s.isStored e.loc && ((s.flashEntry e.domain fp).all fun x => x.loc != e.loc) && !(s.ddp.asked.any fun a => a.2 == e) then
      s.settleEntry e (upset.contains m.2)
    else (true, s)
  | none => (true, s)

/-- Whether a stored chunk of a sweep has yet to be compared: it is still in the write cache and no journal entry stands for it. -/
def State.sweepLeft (s : State) (m : StoredMark) : Bool :=
  m.fp.isSome && !m.loc.inFlash && !(s.ddp.journal.any fun e => e.domain == m.domain && e.loc == m.loc)

/-- DOMAIN_SWEEP (R123): every stored chunk of a domain with SWEEP_NEEDED is compared against the flash index. The sweep ends, and the bit
is cleared, where none is left; one whose home is unreachable is held with event 0x3007 (R128). -/
def execDomainSweep (sweep : SweepOf) (s : State) : Res :=
  if s.on Reg.DDP_DOMAIN_STAT.SWEEP_NEEDED sweep.domain && s.mayReconcile && s.rd Reg.DDP_DOMAIN_CFG.MODE sweep.domain == 2 then
    if s.cascaded sweep.domain && !(s.pairReached (s.rd Reg.DDP_DOMAIN_HOME.HOME sweep.domain)) then .next (s.event1 0x3007 sweep.domain)
    else
      have marks := s.keys.stored.filter fun m => m.domain == sweep.domain
      let (all, s) := (marks.filter fun m => m.loc.inFlash).zipIdx.foldl
        (fun acc m => (acc.1 && (acc.2.sweepOne sweep.upset m).1, (acc.2.sweepOne sweep.upset m).2)) (true, s)
      .next (if !all || marks.any s.sweepLeft then s else s.wr Reg.DDP_DOMAIN_STAT.SWEEP_NEEDED 0 sweep.domain)
  else .next s

/-! Domain settings (R114) -/

/-- DOMAIN_CFG_WRITE (R114, R131): EN as it stands before the write decides whether the other fields change; a reserved mode or
digest has no effect. -/
def execDomainCfgWrite (domain value : Nat) (s : State) : Res :=
  if !(s.writable 12) ∨ 4096 ≤ domain then .next s
  else
    have mode := value / 2 % 4
    have digest := value / 32 % 4
    have s := if s.on Reg.DDP_DOMAIN_CFG.EN domain then s
      else
        have s := if mode = 3 then s else s.wr Reg.DDP_DOMAIN_CFG.MODE mode domain
        have s := s.wr Reg.DDP_DOMAIN_CFG.CHUNK (value / 8 % 4) domain
        have s := if digest = 3 then s else s.wr Reg.DDP_DOMAIN_CFG.DIGEST digest domain
        (s.wr Reg.DDP_DOMAIN_CFG.VERIFY (value / 128 % 2) domain).wr Reg.DDP_DOMAIN_CFG.CASCADE (value / 256 % 2) domain
    .next (s.wr Reg.DDP_DOMAIN_CFG.EN (value % 2) domain)

/-! The cascade (R127, R211) -/

/-- A container's place as another pair names it. -/
def Loc.atHome : Loc → Loc
  | .remote _ p q g m o n => .flash p q g m o n
  | l => l

/-- A home counts one more reference of a pair on a container (R127). -/
def State.addHomeRef (s : State) (pair : Nat) (loc : Loc) : State :=
  have s := s.setCount loc (s.refCount loc + 1)
  if s.ddp.homeRefs.any fun r => r.cur == loc then
    { s with ddp.homeRefs := s.ddp.homeRefs.map fun (r : HomeRef) =>
        if r.cur = loc then { r with pairs := Table.upd pair 0 (fun n => n + 1) r.pairs } else r }
  else { s with ddp.homeRefs := { name := loc, cur := loc, pairs := [(pair, 1)] } :: s.ddp.homeRefs }

/-- The place under which a container is known to other pairs. -/
def State.homeName (s : State) (loc : Loc) : Loc :=
  match s.ddp.homeRefs.find? fun r => r.cur == loc with
  | some r => r.name
  | none => loc

/-- CASCADE_JOURNAL_ENTRY (R127): the home applies a pair's entry once and answers with what its flash index holds. A repeated sequence gets
no second answer (DESIGN CHOICE, log entry 27). -/
def execCascadeJournalEntry (domain : Nat) (fp : List Byte) (pair seq : Nat) (upset : Bool) (s : State) : Res :=
  if s.ddp.applied.contains (pair, seq) then .next s
  else
    have s := { s with ddp.applied := (pair, seq) :: s.ddp.applied }
    match s.flashEntry domain fp with
    | none => .next (s.sendRing (.ring 0x41 [pair, seq, 0] []))
    | some x =>
      have got := sameFp x.domain x.fp domain fp upset
      if got ≠ .equal then .next ((s.noteCompare domain got).sendRing (.ring 0x41 [pair, seq, 0] []))
      else
        have s := s.addHomeRef pair x.loc
        .next (s.sendRing (.ring 0x41 [pair, seq, 1] (s.homeName x.loc).bytes))

/-- The remote location for a container of a home. -/
def Loc.toRemote (home : Nat) : Loc → Loc
  | .flash p q g m o n => .remote home p q g m o n
  | l => l

/-- A remote reference that nothing uses is given back with a new sequence (R127). -/
def State.releaseRemote (s : State) (home : Nat) (loc : Loc) : State :=
  have n := (s.ddp.seqOut + 1) % 2 ^ 32
  ({ s with ddp.seqOut := n }).sendRing (.ring 0x44 [home, n] loc.bytes)

/-- CASCADE_HOME_ANSWER (R127): the asking pair enters its copy in its own flash index, where it may meet a copy that was entered meanwhile
(R122), or redirects its references to the home's. A
copy that has gone meanwhile gives the reference back. The entry's tag is free again (R77). -/
def execCascadeHomeAnswer (seq : Nat) (answer : HomeAnswer) (s : State) : Res :=
  match Table.find seq s.ddp.asked with
  | none => .next s
  | some e =>
    have s := ({ s with ddp.asked := Table.drop seq s.ddp.asked }).dropJob (.reconcile seq)
    have home := s.rd Reg.DDP_DOMAIN_HOME.HOME e.domain
    match answer.found with
    | none => .next (if s.isStored e.loc then s.reconcile e answer.upset else s)
    | some l =>
      have far := l.toRemote home
      .next (if s.isStored e.loc then s.redirect e.loc far else s.releaseRemote home far)

/-- CASCADE_RELEASE (R127): the home drops one of a pair's references, once for each sequence. -/
def execCascadeRelease (pair seq : Nat) (loc : Loc) (s : State) : Res :=
  if s.ddp.applied.contains (pair, seq) then .next s
  else
    have s := { s with ddp.applied := (pair, seq) :: s.ddp.applied }
    match s.ddp.homeRefs.find? fun r => r.name == loc.atHome && decide (0 < Table.get pair 0 r.pairs) with
    | none => .next s
    | some r =>
      have left := Table.get pair 0 r.pairs - 1
      have pairs := if left = 0 then Table.drop pair r.pairs else Table.put pair left r.pairs
      have rest := s.ddp.homeRefs.filter fun x => x != r
      have s := { s with ddp.homeRefs := if pairs.isEmpty then rest else { r with pairs := pairs } :: rest }
      .next (s.dropRef r.cur)

/-- LOST_NOTICE (R211): a pair that holds remote references to a lost container lists its extents and marks them lost. -/
def execLostNotice (domain home : Nat) (loc : Loc) (s : State) : Res :=
  have far := (loc.atHome).toRemote home
  have s := (s.indexKeysOf far).foldl State.removeIndex s
  .next ((s.listExtents far domain true).rewriteLoc far far.toLost)

end Sys2Proof.Machine
end

