-- ==== Sys2Proof/Machine/Signature.lean ====
section
/-!
DEFINITION. Machine/Signature.lean: the commands of chapter 07: sewing, the log, quires, leaves that go away, rebuild, patrol, pools.
-/
namespace Sys2Proof.Machine
open Sys2Proof

/-! Sewing (R191, R192, R509) -/

/-- Whether the QS role of a pool works (R185, R461): it is not between quarters, and its standby has taken up the log. -/
def State.qsReady (s : State) (pool : Nat) : Bool := !(s.roleGap .qs (pool % 2)) && s.sig.retake != some (pool % 2)

/-- Whether signatures are sewn now: SEW_EN, the pool on, the log not paused but in Destage, room in the log and with the pool's QS role, and
this head has not lost the witness (R185, R194, R195, R374). -/
def State.maySew (s : State) (pool : Nat) : Bool :=
  s.on Reg.SIG_CTRL.SEW_EN && (s.poolEff pool).en && !s.own.loser && !s.sig.scanStart && decide (s.sig.live.length < 4194304) && (s.sig.copies.all fun c => decide (c.pages.length < 262143)) && s.sig.checking.isNone &&
    decide ((s.sig.flight.countP fun x => x.pool % 2 == pool % 2) < 1024) && s.qsReady pool &&
    (if s.wc.mode == .destage then decide (1 ≤ s.logCopies) || s.sig.copies.isEmpty else !s.sig.paused && (s.sig.copies.isEmpty || decide (2 ≤ s.logCopies)))

/-- Whether the peer is asked for a copy of a container (R177, R509): not in Off or Solo, and with a ring port up. -/
def State.mirrorAnswers (s : State) : Bool := s.wc.mode != .off && s.wc.mode != .solo && !(s.peerPorts false).isEmpty

/-- A container that cannot be read from the own region (R177, R509): the peer's mirror copy is asked for once; where no peer answers, what
is lost is lost. -/
def State.replaceBad (s : State) (loc : Loc) : State :=
  if s.wc.asks.any fun e => e.2 == loc then s
  else if s.wc.fetched.any fun e => e.1 == loc then s
  else if s.mirrorAnswers then
    have id := s.wc.asks.foldl (fun k e => max k (e.1 + 1)) 0
    ({ s with wc.asks := Table.put id loc s.wc.asks }).sendRing (.ring 0x42 [s.rd Reg.XRN_ADDR.ASSIGNED, mirrorTag, id] loc.bytes)
  else s.loseWrite loc

/-- The open quire of this head that takes the next signature of a pool, or a new one (R198, R199). -/
def State.sewQuire (s : State) (pool : Nat) (reserve : Bool) : Option Nat × State :=
  match (s.quiresOf pool).find? fun e => e.2.state == .opened && e.2.head == s.headB && decide (e.2.next < s.quireDepth pool) with
  | some e => (some e.1, s)
  | none => s.openQuire pool reserve

/-- The folios of a signature: data members, parities, and every trailer (R187 to R190). -/
def State.buildFolios (s : State) (n : Nat) (q : Quire) (seq : Nat) (laid : List (Nat × Bool × Loc × Container)) : List (List Byte) :=
  have room := q.data * folioPayload
  have stream := streamBytes room laid
  have used := (laid.map fun c => c.1 + c.2.2.2.length).foldl max 0
  have datas := (List.range q.data).map fun m => slice stream (m * folioPayload) folioPayload
  have parities := (List.range q.parity).map fun k => parityPayload k folioPayload datas
  (datas ++ parities).zipIdx.map fun p =>
    have m := p.2
    have isParity := decide (q.data ≤ m)
    have inUse := if isParity then 0 else min folioPayload (used - m * folioPayload)
    have first := match laid.find? fun c => c.1 / folioPayload == m with
      | some c => if isParity then 0xFFFF else c.1 % folioPayload
      | none => 0xFFFF
    folio p.1 (trailer isParity q.pool m q.width q.parity n q.next (q.place q.next m).1 s.ringTime seq inUse first)

/-- QS sews a signature (R191 steps 1 to 3): it fills the data stream from the containers that wait, in order, computes parity and
trailers, and appends the sewn entry. `bad` lists containers that an uncorrectable DDR read makes unreadable in the own region, and those on a
lost line are (R466): they wait for the peer's copy, which SECOND_COPY_ARRIVE brings (R509). -/
def execSewSignature (pool : Nat) (bad : List Loc) (s : State) : Res :=
  if !(s.maySew pool) then .next s
  else
    have s := bad.foldl (fun s l => s.noteUncorr (s.cacheAddr l)) s
    have dead := ((s.waitingFor pool).map fun c => c.2.1).filter s.cacheLost
    have s := ((bad ++ dead).foldl State.replaceBad s).startDestage
    have copy (c : Bool × Loc × Container) : Bool × Loc × Container :=
      match s.wc.fetched.find? fun b => b.1 == c.2.1 with
      | some (_, b) => (c.1, c.2.1, b)
      | none => c
    have want := ((s.waitingFor pool).map copy).filter fun c => !(s.wc.asks.any fun e => e.2 == c.2.1)
    if want.isEmpty then .next s.settleSegments
    else
      match s.sewQuire pool (want.any fun c => c.1) with
      | (none, s) => .next s
      | (some n, s) =>
        match s.quire n with
        | none => .next s
        | some q =>
          have laid := layStream (q.data * folioPayload) 0 want
          if laid.isEmpty then .next s
          else
            have seq := s.sig.logSeq + 1
            have folios := s.buildFolios n q seq laid
            have moves := laid.map fun c =>
              (c.2.2.1, Loc.flash pool n q.next (c.1 / folioPayload) (c.1 % folioPayload / 16) c.2.2.2.length)
            have taken := (laid.filter fun c => c.2.1).map fun c => (c.2.2.1, c.2.2.2)
            have x : Sig := { pool := pool, quire := n, index := q.next, seq := seq, moves := moves, taken := taken, folios := folios }
            have s := { s with
              sig.flight := s.sig.flight ++ [x]
              wc.fetched := s.wc.fetched.filter fun b => !(moves.any fun m => m.1 == b.1)
              sig.staged := Table.upd pool [] (fun l => l.filter fun e => !(taken.any fun t => t.1 == e.1)) s.sig.staged }
            let (_, s) := (s.setQuire n { q with next := q.next + 1 }).appendLog pool q.width q.parity n q.next (.sewn (folios.map folioCrc))
            .next (if s.quireDepth pool ≤ q.next + 1 then s.closeQuire n else s)

/-- A log page is sent, 16 µs after its first entry at the latest (R193). -/
def execLogPageSend (s : State) : Res := .next s.sendPage

/-- A copy acknowledges a log page (R191 step 3, R193): with the second copy it is durable and its signatures are issued. In Destage
one copy is enough where one is left (R195). -/
def execLogAppendAck (id : Nat) (s : State) : Res :=
  match Table.find id s.lfl.ops with
  | none => .next s
  | some op =>
    match op.for_ with
    | .log copy page =>
      have s := s.endLeafOp id
      have ack (p : LogPage) : LogPage := if p.number = page ∧ p.acks.contains copy = false then { p with acks := copy :: p.acks } else p
      .next (State.settlePages { s with sig.sent := s.sig.sent.map ack })
    | _ => .next s

/-- A copy has not acknowledged a page for 10 ms: it is lost (R195). One that found no leaf before looks again. -/
def execLogCopyTimeout (copy : Nat) (s : State) : Res := .next ((s.loseCopy copy).reseat copy).noteLog

/-- The new copy has caught up and joins (R195): event 0x5011. It holds the pages that the surviving copy had acknowledged, and those sent meanwhile
are appended to it; sewing goes on once two copies are current. -/
def execLogReseedDone (copy : Nat) (s : State) : Res :=
  match s.sig.copies[copy]? with
  | none => .next s
  | some c =>
    if c.reseeding then
      have s := { s with sig.copies := s.sig.copies.set copy { c with valid := true, reseeding := false } }
      have held (p : LogPage) : LogPage := if p.acks.isEmpty || p.acks.contains copy then p else { p with acks := copy :: p.acks }
      have later := s.sig.sent.filter fun p => p.acks.isEmpty
      have s := { s with sig.sent := s.sig.sent.map held }
      have s := later.foldl (fun s p => s.appendPage copy p.number p.entries) s
      have s := if 2 ≤ s.logCopies then { s with sig.paused := false } else s
      .next ((s.settlePages.event1 0x5011 c.leaf).noteLog)
    else .next s

/-- A folio write is acknowledged (R191): with the last of W the signature is complete. -/
def execFolioWriteComplete (id : Nat) (s : State) : Res :=
  match Table.find id s.lfl.ops with
  | none => .next s
  | some op =>
    match op.for_ with
    | .folio quire sig member =>
      have s := s.endLeafOp id
      match s.sig.flight.find? fun x => x.quire == quire && x.index == sig with
      | none => .next s
      | some x =>
        have acked := if x.acked.contains member then x.acked else member :: x.acked
        if x.folios.length ≤ acked.length then .next (s.completeSig x).settleSweeps
        else .next (s.modSig quire sig fun x => { x with acked := acked })
    | _ => .next s

/-- A folio write fails in the NAND, with event 0x580E (R248), or has no acknowledgement 10 ms after its issue (R192). -/
def execFolioWriteFail (id : Nat) (nand : Bool) (s : State) : Res :=
  match Table.find id s.lfl.ops with
  | none => .next s
  | some op =>
    match op.for_ with
    | .folio quire sig member =>
      have s := s.endLeafOp id
      .next ((if nand then s.event1 0x580E op.leaf else s).folioFailed quire sig member nand)
    | _ => .next s

/-! Grants and pools -/

/-- A message of kind 0x0052 (R197, R231): the peer asks for a block of a leaf, and one of this head's unused blocks is given to it, which it hears of
once the leaf has accepted; or the peer has given a block, which is then this head's (DESIGN CHOICE, log entry 122). -/
def execGrantRequest (ask : GrantAsk) (s : State) : Res :=
  have l := s.leaf ask.leaf
  match ask.given with
  | some b => .next (s.setBlocks ask.leaf (Table.put b true l.blocks))
  | none =>
    match l.myBlocks.find? fun b => !(l.used.any fun u => u / 256 == b) with
    | some b => .next ((s.setBlocks ask.leaf (Table.put b false l.blocks)).leafOp ask.leaf (.grant 1 b) .grant (1 :: le 4 b))
    | none => .next s

/-- One pool of the peer's table is compared (R186). -/
def State.comparePool (s : State) (p : Nat) (far : PoolCfg) : State :=
  if far = s.poolCfg p then
    (({ s with sig.agreed := if far.en then Table.put p far s.sig.agreed else Table.drop p s.sig.agreed }).wr
      Reg.SIG_POOL_STATE.PEER_DIFF 0 p).notePool p
  else ((s.wr Reg.SIG_POOL_STATE.PEER_DIFF 1 p).event1 0x5016 p).notePool p

/-- The peer's pool table arrives at an epoch's start (R186). A pool that it does not list is off there. -/
def execPoolTable (pools : Table PoolCfg) (s : State) : Res :=
  have off : PoolCfg := { en := false, width := 0, parity := 0, express := false, isMeta := false, members := [] }
  have mine := (List.range 64).filter fun p => s.on Reg.SIG_POOL_CFG.EN p || Table.has p pools
  .next (mine.foldl (fun s p => s.comparePool p (Table.get p off pools)) s)

/-- A write of SIG_POOL_CFG (R184, R215, R217): the shape changes only while the pool is off and holds no quire, otherwise event 0x5002;
EXPRESS and META only while EN is 0. EN is set only on a valid configuration; an invalid one sets CFG_ERR with event 0x5001. -/
def execPoolEnable (pool value : Nat) (s : State) : Res :=
  if !(s.writable 14) then .next s
  else
    have kept (v lo hi old : Nat) : Nat := if lo ≤ v ∧ v ≤ hi then v else old
    have width := kept (value / 2 % 64) 4 32 (s.rd Reg.SIG_POOL_CFG.WIDTH pool)
    have parity := kept (value / 128 % 4) 1 3 (s.rd Reg.SIG_POOL_CFG.PARITY pool)
    have on := s.on Reg.SIG_POOL_CFG.EN pool
    have held := !(s.quiresOf pool).isEmpty
    have reshape := width != s.rd Reg.SIG_POOL_CFG.WIDTH pool || parity != s.rd Reg.SIG_POOL_CFG.PARITY pool
    have barred := on || held
    have s := if reshape && !barred then (s.wr Reg.SIG_POOL_CFG.WIDTH width pool).wr Reg.SIG_POOL_CFG.PARITY parity pool else s
    have s := if reshape && barred then s.event1 0x5002 pool else s
    have s := if on then s
      else (s.wr Reg.SIG_POOL_CFG.EXPRESS (value / 512 % 2) pool).wr Reg.SIG_POOL_CFG.META (value / 1024 % 2) pool
    if value % 2 = 0 then .next ((s.wr Reg.SIG_POOL_CFG.EN 0 pool).notePool pool)
    else if on then .next s
    else
      have c := s.poolCfg pool
      have sizes := c.members.filterMap fun l => (s.leaf l).id.map LeafId.unitMiB
      have oneSize := sizes.all fun x => some x == sizes.head?
      have other := (List.range 64).any fun p => p != pool && s.on Reg.SIG_POOL_CFG.EN p && s.on Reg.SIG_POOL_CFG.META p
      have shape := decide (4 ≤ c.width ∧ c.width ≤ 32 ∧ 1 ≤ c.parity ∧ c.parity ≤ 3 ∧ c.parity + 2 ≤ c.width)
      if shape && decide (c.width ≤ c.members.length) && oneSize && (!c.isMeta || (decide (2 ≤ c.parity) && !other)) then
        .next (((s.wr Reg.SIG_POOL_CFG.EN 1 pool).wr Reg.SIG_POOL_STATE.CFG_ERR 0 pool).notePool pool)
      else .next ((s.wr Reg.SIG_POOL_STATE.CFG_ERR 1 pool).event1 0x5001 pool)

/-- One leaf joins a pool (R217), or event 0x5001: it is in another pool, or its erase units differ from the pool's. -/
def State.addMember (s : State) (pool l : Nat) : State :=
  have size (x : Nat) : Option Nat := (s.leaf x).id.map LeafId.unitMiB
  have sizes := (s.members pool).filterMap size
  have differs := match size l, sizes.head? with
    | some a, some b => a != b
    | _, _ => false
  match s.poolOf l with
  | some p => if p = pool then s else s.event1 0x5001 l
  | none =>
    if differs then s.event1 0x5001 l
    else
      have bits := s.rd Reg.SIG_POOL_MEMBERS.LEAVES pool (l / 32)
      have s := s.wr Reg.SIG_POOL_MEMBERS.LEAVES (bits ||| 2 ^ (l % 32)) pool (l / 32)
      (s.putLeaf l { s.leaf l with joined := (s.leaf l).id.map LeafId.serial }).notePool pool

/-- A write of SIG_POOL_MEMBERS: each bit written 1 adds its leaf (R217). -/
def execPoolMemberAdd (pool word value : Nat) (s : State) : Res :=
  if s.writable 14 then .next (((List.range 32).filter fun k => value.testBit k).foldl (fun s k => s.addMember pool (32 * word + k)) s)
  else .next s

/-- A write of ACCEPT_LOSS takes a pool out of state Lost (R209): LOSS is set, and the failed leaves count no more as a new loss. -/
def execAcceptLoss (pool : Nat) (s : State) : Res :=
  if s.writable 14 && s.rd Reg.SIG_POOL_STATE.STATE pool == poolLost then
    have gone := (s.members pool).filter fun l => (s.leaf l).cond == .failed
    .next ((({ s with sig.accepted := Table.put pool gone s.sig.accepted }).wr Reg.SIG_POOL_STATE.LOSS 1 pool).notePool pool)
  else .next s

/-! Collection (R200, R202, R208) -/

/-- Whether this head collects a quire: it opened it, or it took its peer over and has read its log (R197, R371). -/
def State.minesQuire (s : State) (q : Quire) : Bool :=
  q.head == s.headB || (s.rd Reg.OWN_STATE.PEER == 3 && s.sig.scans.isEmpty && s.sig.checking.isNone)

/-- The quires of a pool whose collection can go on now. -/
def State.readyQuires (s : State) (pool : Nat) : List (Nat × Quire) :=
  (s.quiresOf pool).filter fun e => s.minesQuire e.2 && s.collectable e.1 e.2

/-- Of some quires the one opened first. -/
def firstOpened (qs : List (Nat × Quire)) : Option (Nat × Quire) := (qs.mergeSort fun a b => decide (a.2.order ≤ b.2.order)).head?

/-- Garbage collection goes on with a quire of a pool, or takes one (R200, R210): one queued on a finding first, then one queued for a drain or
begun for space, the oldest first; otherwise, with GC_EN and free units below START %, the one with the lowest live ratio, the oldest at a tie. -/
def execGcCollect (pool : Nat) (s : State) : Res :=
  have cs := if s.qsReady pool then s.readyQuires pool else []
  match firstOpened (cs.filter fun e => e.2.queued == some .finding), firstOpened (cs.filter fun e => e.2.queued == some .drain || e.2.queued == some .space) with
  | some e, _ => .next (s.collect e.1).settleQuires
  | none, some e => .next (s.collect e.1).settleQuires
  | none, none =>
    have u := s.poolUnits pool
    if s.on Reg.SIG_CTRL.GC_EN && !cs.isEmpty && decide (u.2 * 100 < s.rd Reg.SIG_GC_CFG.START * u.1) then
      have better (a b : Nat × Quire) : Bool :=
        have x := s.liveBytes a.2
        have y := s.liveBytes b.2
        decide (x < y ∨ (x = y ∧ a.2.order ≤ b.2.order))
      match (cs.filter fun e => e.2.queued.isNone).mergeSort better with
      | e :: _ => .next (s.collect e.1).settleQuires
      | [] => .next s
    else .next s

/-- Rebuild takes the next signature of the quire that comes first (R208, R210): fewest erasures to spare, most live bytes, lowest number. When no
quire has a unit on a failed leaf, event 0x500A. -/
def execRebuildQuire (s : State) : Res :=
  if !s.sig.rebuilding then .next s
  else
    have queued := s.sig.quires.filter fun e => e.2.queued == some .rebuild && s.minesQuire e.2
    have spare (q : Quire) : Int := (q.parity : Int) - s.missingOf q false
    have better (a b : Nat × Quire) : Bool :=
      have x := s.liveBytes a.2
      have y := s.liveBytes b.2
      decide (spare a.2 < spare b.2 ∨ (spare a.2 = spare b.2 ∧ (y < x ∨ (x = y ∧ a.1 ≤ b.1))))
    have ready := queued.filter fun e => s.qsReady e.2.pool && s.collectable e.1 e.2
    match ready.mergeSort better with
    | e :: _ => .next (((s.collect e.1).settleQuires.noteRebuild).notePool e.2.pool)
    | [] =>
      if s.sig.quires.any fun e => decide (0 < s.missingOf e.2 true) && s.minesQuire e.2 then .next s
      else
        have s := (({ s with sig.rebuilding := false }).event 0x500A).noteRebuild
        .next ((List.range 64).foldl (fun s p => if (s.poolEff p).en then s.notePool p else s) s)

/-- No reference is left on a Draining quire: it is logged as released and its erases go out (R202); an absent leaf's bitmap takes it (R204). -/
def execQuireDrained (quire : Nat) (s : State) : Res :=
  match s.quire quire with
  | none => .next s
  | some q =>
    if q.state == .draining && !(s.quireHeld quire) then
      let (_, s) := (s.setQuire quire { q with state := .erasing }).appendLog q.pool q.width q.parity quire 0 .released
      .next ((s.markBitmaps quire q).eraseSlots quire none)
    else .next s

/-- An erase is acknowledged (R202). -/
def execQuireEraseComplete (id : Nat) (s : State) : Res :=
  match Table.find id s.lfl.ops with
  | none => .next s
  | some op =>
    match op.for_ with
    | .erase quire slot =>
      have s := s.endLeafOp id
      .next ((s.markErased quire slot).freeQuire quire)
    | _ => .next s

/-! Members that go away (R203 to R205) -/

/-- Neither head reaches a member leaf (R203, R204): it is Absent with event 0x5007 and an empty bitmap; a ninth absent leaf of a pool
is failed at once. Its log copy is lost (R195). -/
def State.leafAbsent (s : State) (leaf : Nat) : State :=
  match (s.leaf leaf).cond, s.poolOf leaf with
  | .present, some p | .oneSided, some p | .draining, some p =>
    have s := (s.putLeaf leaf { s.leaf leaf with cond := .absent, bitmap := [] }).event1 0x5007 leaf
    have s := s.loseCopiesOn leaf
    if 8 < ((s.members p).countP fun l => (s.leaf l).cond == .absent) then s.failLeaf leaf else s.notePool p
  | _, _ => s

/-- LEAF_ABSENT (R203, R204). -/
def execLeafAbsent (leaf : Nat) (s : State) : Res := .next (s.leafAbsent leaf)

/-- A leaf has been Absent for ABSENT_S: it is failed (R203). -/
def execLeafAbsentTimeout (leaf : Nat) (s : State) : Res :=
  if (s.leaf leaf).cond = .absent then .next (s.failLeaf leaf) else .next s

/-- The last complete signature of a closed quire is looked at on a leaf that has returned (R204): its trailer there is read. Positions beyond it stay
unused, as those of every closed quire do. -/
def State.visitQuire (s : State) (leaf n : Nat) : State :=
  match s.quire n with
  | none => s
  | some q =>
    if q.state = .erasing ∨ q.next = 0 then s
    else
      (q.slots.zipIdx.filter fun x => x.1.1 == leaf).foldl (fun s x =>
        s.readMember { leaf := leaf, unit := x.1.2, folio := q.next - 1, first := 15, count := 1, use := .visit, quire := n, member := x.2 }) s

/-- An absent leaf returns (R204, R230): the units of released quires are erased and closed quires in its bitmap are looked at, the bitmap goes, and
it is Present, or Draining again, with event 0x5008. A leaf with another serial stays Absent. A copy of the log without a leaf may take it. -/
def execLeafReturn (leaf : Nat) (s : State) : Res :=
  have l := s.leaf leaf
  have same := match l.joined, l.id with
    | some a, some i => a == i.serial
    | _, _ => true
  if l.cond == .absent && same then
    have s := (s.putLeaf leaf { l with cond := l.home, bitmap := [] }).event1 0x5008 leaf
    have s := l.bitmap.foldl (fun s n => s.visitQuire leaf n) (s.resumeErases leaf)
    .next (s.reseatAll.noteLeaf leaf)
  else .next s

/-- An operation of SIG_LEAF_CMD is refused with a code (R205, R217). -/
def State.refuseLeafCmd (s : State) (code : Nat) : State := s.wr Reg.SIG_LEAF_RESULT.STATUS code

/-- Drain (R205): refused with 0x5003 for a leaf in no pool, with 0x5004 where fewer than W leaves or the reserve would not be left;
otherwise every quire on the leaf is queued for collection, and the operation runs until the leaf is empty. A leaf that is not Present is read as its
condition has it (R203), and drains all the same. -/
def execLeafDrain (leaf : Nat) (s : State) : Res :=
  if !(s.writable 14) || s.on Reg.SIG_LEAF_RESULT.BUSY then .next s
  else
    match s.poolOf leaf with
    | none => .next (s.refuseLeafCmd 0x5003)
    | some p =>
      have left := (s.members p).length - 1
      have free := (s.poolUnits p).2 - if (s.leaf leaf).cond = .present ∨ (s.leaf leaf).cond = .oneSided then (s.leaf leaf).spare else 0
      if left < (s.poolEff p).width ∨ free < s.poolReserve p then .next (s.refuseLeafCmd 0x5004)
      else
        have c := (s.leaf leaf).cond
        have s := s.putLeaf leaf { s.leaf leaf with drain := true, cond := if c = .present then .draining else c }
        have s := (s.quiresOn leaf).foldl (fun s n => (s.closeQuire n).queueQuire n .drain) s
        have s := { s with sig.cmdLeaf := some leaf }
        .next (((s.wr Reg.SIG_LEAF_RESULT.STATUS 0).wr Reg.SIG_LEAF_RESULT.BUSY 1).noteLeaf leaf)

/-- Fail (R205): the leaf is failed at once; 0x5003 for a leaf in no pool. -/
def execLeafFail (leaf : Nat) (s : State) : Res :=
  if !(s.writable 14) || s.on Reg.SIG_LEAF_RESULT.BUSY then .next s
  else if (s.poolOf leaf).isNone then .next (s.refuseLeafCmd 0x5003)
  else .next ((s.failLeaf leaf).wr Reg.SIG_LEAF_RESULT.STATUS 0)

/-- Readmit (R205, R231): a failed leaf that this head reaches is erased in full, by an ERASE that names unit 0xFFFF_FFFF (DESIGN CHOICE, log entry
119), and rejoins as a new, empty member with every block
unowned; quires that had units on it have them no more. 0x5003 where it is not failed or not reachable. -/
def execLeafReadmit (leaf : Nat) (s : State) : Res :=
  if !(s.writable 14) || s.on Reg.SIG_LEAF_RESULT.BUSY then .next s
  else if (s.poolOf leaf).isNone || (s.leaf leaf).cond != .failed || !(s.on Reg.LFL_LEAF.REACH_SELF leaf) then .next (s.refuseLeafCmd 0x5003)
  else
    have l := s.leaf leaf
    have blank (q : Quire) : Quire := { q with slots := q.slots.map fun x => if x.1 = leaf then (512, x.2) else x }
    have s := { s with sig.quires := Table.mapVals (fun _ q => blank q) s.sig.quires }
    have s := s.putLeaf leaf { l with cond := .present, blocks := [], used := [], bitmap := [], joined := l.id.map LeafId.serial, drain := false, bad := [] }
    .next (((s.leafOp leaf .wipe .erase (le 4 (2 ^ 32 - 1))).wr Reg.SIG_LEAF_RESULT.STATUS 0).reseatAll.noteLeaf leaf)

/-- The leaf operation of SIG on this leaf ends with status 0 (R205). -/
def State.endLeafCmd (s : State) (leaf : Nat) : State :=
  if s.sig.cmdLeaf = some leaf then ({ s with sig.cmdLeaf := none }).wr Reg.SIG_LEAF_RESULT.BUSY 0 else s

/-- A leaf leaves its pool with event 0x5014 (R205). -/
def State.leavePool (s : State) (leaf : Nat) : State :=
  (s.putLeaf leaf { s.leaf leaf with cond := .present, joined := none, drain := false }).event1 0x5014 leaf

/-- A drained leaf's last quire has been collected (R205): the leaf leaves the pool with event 0x5014 and the operation ends. -/
def execDrainComplete (leaf : Nat) (s : State) : Res :=
  match s.poolOf leaf with
  | none => .next s
  | some p =>
    if (s.leaf leaf).drain && (s.quiresOn leaf).isEmpty then
      have bits := s.rd Reg.SIG_POOL_MEMBERS.LEAVES p (leaf / 32)
      have s := s.wr Reg.SIG_POOL_MEMBERS.LEAVES (bits - (bits &&& 2 ^ (leaf % 32))) p (leaf / 32)
      .next (((s.leavePool leaf).endLeafCmd leaf).notePool p)
    else .next s

/-! Patrol (R213, R214) -/

/-- Patrol reads one signature of a Closed quire (R213): all 16 codewords of its W folios; what it finds is judged once they have come (R214). A quire
with a unit on an absent leaf is skipped. `fault` is a dummy round with a wrong result in the DEEP check (R156). -/
def execPatrolSignature (quire sig : Nat) (fault : Bool) (s : State) : Res :=
  match s.quire quire with
  | none => .next s
  | some q =>
    have absent := q.slots.any fun x => (s.leaf x.1).cond == .absent
    if !(s.on Reg.SIG_CTRL.PATROL_EN) || !(s.qsReady q.pool) || q.state != .closed || absent || !(s.poolEff q.pool).en || decide (q.next ≤ sig) ||
        s.sig.patrols.any (fun p => p.quire == quire && p.sig == sig) then .next s
    else
      have s := { s with sig.patrols := s.sig.patrols ++ [({ quire := quire, sig := sig, fault := fault } : Patrol)] }
      .next ((List.range q.width).foldl (fun (s : State) m =>
        have p := q.place sig m
        s.readMember { leaf := p.1, unit := p.2, folio := sig, first := 0, count := 16, use := .patrol quire sig m, quire := quire, member := m })
        s).settlePatrols

end Sys2Proof.Machine
end

