-- ==== Sys2Proof/Machine/Leaf.lean ====
section
/-!
DEFINITION. Machine/Leaf.lean: the leaf lanes, enumeration and identity, errors of leaf commands, die plans, and the completions of the
witness and log commands (chapter 08).
-/
namespace Sys2Proof.Machine
open Sys2Proof

/-! Hops (R225 to R228) -/

/-- A hop of a leaf lane. -/
def State.hop (s : State) (lane pos : Nat) : Hop := Table.get (16 * lane + pos) {} s.lfl.hops

/-- A hop is put in place; LFL_LANE_STATUS follows (R249). -/
def State.setHop (s : State) (lane pos : Nat) (h : Hop) : State :=
  have s := { s with lfl.hops := Table.put (16 * lane + pos) h s.lfl.hops }
  have broken := ((List.range 15).map fun k => k + 1).find? fun k => (Table.find (16 * lane + k) s.lfl.hops).any fun x => x.state == .down
  (s.wr Reg.LFL_LANE_STATUS.STATE (s.hop lane 0).state.code lane).wr Reg.LFL_LANE_STATUS.BREAK_AT (broken.getD 16) lane

/-- The chain of a lane is enumerated while hop 0 is Active (R228): a flit with count 0 to every leaf, in its turn. -/
def State.enumerate (s : State) (lane : Nat) : State :=
  if (s.hop lane 0).state = .active then s.leafOp (16 * lane) .enumerate .enumerate [0] else s

/-- A hop changes its state, and the chain is enumerated (R228). -/
def State.moveHop (s : State) (lane pos : Nat) (h : Hop) : State := (s.setHop lane pos h).enumerate lane

/-- A lane's hop exists. -/
def hopNamed (lane pos : Nat) : Bool := decide (lane < 32 ∧ pos < 16)

/-- Whether a hop may train (R226, R249): hop 0 is held Down while EN is 0. -/
def State.mayTrain (s : State) (lane pos : Nat) : Bool := hopNamed lane pos && (pos != 0 || s.on Reg.LFL_LANE_CFG.EN lane)

/-- A Down hop tries Detect (R226). -/
def execLeafHopDetect (lane pos : Nat) (s : State) : Res :=
  have h := s.hop lane pos
  if s.mayTrain lane pos && h.state == .down then
    .next ((s.moveHop lane pos { h with state := .detect, replays := 0, fails := 0 }).send (.hop lane pos .detect))
  else .next s

/-- A hop retrains, and its buffers are kept (R225, R226). -/
def State.retrainHop (s : State) (lane pos : Nat) (h : Hop) : State :=
  (s.moveHop lane pos { h with state := .retrain, replays := 0 }).bump Reg.LFL_LANE_RETRY.RETRAINS 1 lane

/-! The end of a command without its completion (R227, R248) -/

/-- A read that its leaf has not served goes on by another way (R206, R207): the peer, or degraded. A read that was overtaken is
discarded. -/
def State.readFailed (s : State) (r : LeafRead) (forced : Bool) : State :=
  if r.overtaken then s
  else
    match r.use with
    | .gather _ => s.startRead r forced
    | .proxy _ => s.degradeWord r
    | .degraded _ _ | .trailer _ _ _ | .patrol _ _ _ | .visit => s.degradeWords r

/-- An erase that will not be acknowledged now: an absent leaf marks the quire in its bitmap (R204). -/
def State.eraseLost (s : State) (l quire : Nat) : State :=
  have x := s.leaf l
  if x.cond = .absent && !(x.bitmap.contains quire) then s.putLeaf l { x with bitmap := quire :: x.bitmap } else s

/-- The reading of a copy for a reseed goes on from another copy (R195). -/
def State.rereadCopy (s : State) (copy : Nat) : State :=
  if (s.sig.copies[copy]?).any LogCopy.reseeding then s.startReseed copy else s

/-- A command to a leaf beyond a broken hop ends with 0x5808 (R227). Of a grant what the leaf made is undetermined: a block that was to be claimed
or given away is left alone. -/
def State.pathLost (s : State) (id : Nat) (op : LeafOp) : State :=
  have s := ({ s with lfl.ops := Table.drop id s.lfl.ops }).event1 0x5808 op.leaf
  match op.for_ with
  | .read r => s.readFailed r false
  | .folio quire sig member => s.folioFailed quire sig member false
  | .erase quire _ => s.eraseLost op.leaf quire
  | .logRead copy _ => if 16 ≤ copy then s.scanOver op.leaf (copy - 16) else s.rereadCopy copy
  | .log copy _ => s.loseCopy copy
  | .witnessRead => s.witnessIn op.leaf none
  | .witnessCas => s.casIn op.leaf none false
  | .identify | .health _ _ | .proxied _ | .plan _ _ | .grant _ _ | .trim | .wipe | .enumerate => s

/-- A leaf is not reached any more (R203, R227): One-sided where the peer reaches it, Absent where it does not. -/
def State.unreach (s : State) (l : Nat) : State :=
  have s := s.wr Reg.LFL_LEAF.REACH_SELF 0 l
  match (s.leaf l).cond with
  | .present | .draining =>
    if s.on Reg.LFL_LEAF.REACH_PEER l then (s.putLeaf l { s.leaf l with cond := .oneSided }).noteLeaf l else s.leafAbsent l
  | .oneSided => if s.on Reg.LFL_LEAF.REACH_PEER l then s else s.leafAbsent l
  | .absent | .failed => s

/-- The leaves of a lane from a position on are not reached, and the commands outstanding there end (R227). -/
def State.loseChain (s : State) (lane pos : Nat) : State :=
  have gone (l : Nat) : Bool := decide (16 * lane + pos ≤ l ∧ l < 16 * lane + 16)
  have known := ((List.range 16).map fun p => 16 * lane + p).filter fun l => gone l && s.on Reg.LFL_LEAF.REACH_SELF l
  have ops := s.lfl.ops.filter fun e => gone e.2.leaf && match e.2.for_ with
    | .proxied _ => false
    | .enumerate => decide (pos = 0)
    | _ => true
  have s := known.foldl State.unreach s
  (ops.foldl (fun s e => if Table.has e.1 s.lfl.ops then s.pathLost e.1 e.2 else s) s).settleReadsOf

/-- A hop goes Down (R226, R227): event 0x5802 with the lane and the position of the break; commands beyond it end, and the chain is
enumerated again. -/
def State.dropHop (s : State) (lane pos : Nat) : State :=
  have was := (s.hop lane pos).state
  have s := s.setHop lane pos { s.hop lane pos with state := .down, replays := 0, fails := 0 }
  if was = .down then s
  else
    have s := s.event 0x5802 [byteOf lane, byteOf pos]
    have s := s.loseChain lane pos
    if pos = 0 then
      have changed := s.rd Reg.LFL_LANE_STATUS.LEAVES lane != 0
      have s := s.wr Reg.LFL_LANE_STATUS.LEAVES 0 lane
      if changed then s.raise Reg.LFL_LANE_STATUS.CHANGE 1 lane else s
    else s.enumerate lane

/-- LEAF_HOP_DOWN (R226). -/
def execLeafHopDown (lane pos : Nat) (s : State) : Res := if hopNamed lane pos then .next (s.dropHop lane pos) else .next s

/-- A hop takes a state (R225, R226): the training of a hop whose far end has been sensed goes on, with its sequences at 0 from Lock on, and an
Active or retraining hop retrains, or becomes Active again with event 0x5801; one that fails 3 retrains in a row goes Down. Only Detect leads out of
Down, which LEAF_HOP_DETECT tries. -/
def State.hopTo (s : State) (lane pos : Nat) (new : HopState) : State :=
  have h := s.hop lane pos
  match h.state, new with
  | .detect, .equalize => s.moveHop lane pos { h with state := .equalize }
  | .detect, .lock | .equalize, .lock => s.moveHop lane pos { h with state := .lock, seq := 0 }
  | .detect, .active | .equalize, .active | .lock, .active =>
    s.moveHop lane pos { state := .active }
  | .retrain, .active =>
    (s.event 0x5801 [byteOf lane, byteOf pos]).moveHop lane pos { h with state := .active, replays := 0, fails := 0 }
  | .active, .retrain => s.retrainHop lane pos h
  | .retrain, .retrain => if 2 ≤ h.fails then s.dropHop lane pos else s.retrainHop lane pos { h with fails := h.fails + 1 }
  | _, _ => s

/-- A hop becomes Active, or changes state (R226, R228); the chain is enumerated. -/
def execLeafHopActive (lane : Nat) (new : HopTo) (s : State) : Res :=
  if s.mayTrain lane new.pos then .next (s.hopTo lane new.pos new.state) else .next s

/-- What the retry of a hop brings up (R222, R225). A replay request names the first codeword that the far end needs: it is replayed, by this head on
hop 0, and one that has been replayed 4 times retrains the hop. An uncorrectable or out-of-order codeword is discarded with what follows it, and the
far end of hop 0 is asked for a replay. Codewords received on hop 0 with symbols corrected are counted. -/
def execLeafReplayRequest (lane pos : Nat) (news : HopNews) (s : State) : Res :=
  have h := s.hop lane pos
  if hopNamed lane pos && h.state == .active then
    match news with
    | .replay seq =>
      have s := s.bump Reg.LFL_LANE_RETRY.REPLAYS 1 lane
      have n := if h.seq = seq % 1024 then h.replays else 0
      if 4 ≤ n then .next (s.retrainHop lane pos h)
      else
        have s := s.setHop lane pos { h with seq := seq % 1024, replays := n + 1 }
        .next (if pos = 0 then s.send (.hop lane 0 (.replay (seq % 1024))) else s)
    | .bad seq =>
      have s := s.bump Reg.LFL_LANE_RETRY.REPLAYS 1 lane
      .next (if pos = 0 then s.send (.hop lane 0 (.request (seq % 1024))) else s)
    | .corrected n => .next (if pos = 0 then s.bump Reg.LFL_LANE_FEC.CORRECTED n lane else s)
  else .next s

/-! Enumeration and identity (R228 to R230) -/

/-- The last leaf of a chain answers (R228): each position found is asked for its identity; a count of 16 tells of a longer chain, with
event 0x5803. -/
def execLeafEnumerationAnswer (lane answer : Nat) (s : State) : Res :=
  if lane < 32 && (s.hop lane 0).state == .active then
    have n := min (answer + 1) 16
    have long := decide (16 ≤ answer)
    have changed := s.rd Reg.LFL_LANE_STATUS.LEAVES lane != n || s.on Reg.LFL_LANE_STATUS.OVERLONG lane != long
    have s := { s with lfl.ops := s.lfl.ops.filter fun e => !(e.2.leaf == 16 * lane && e.2.for_ == LeafFor.enumerate) }
    have s := (s.wr Reg.LFL_LANE_STATUS.LEAVES n lane).wr Reg.LFL_LANE_STATUS.OVERLONG (if long then 1 else 0) lane
    have s := if changed then s.raise Reg.LFL_LANE_STATUS.CHANGE 1 lane else s
    have s := if long then s.event1 0x5803 lane else s
    have s := if n < 16 then s.loseChain lane n else s
    .next ((List.range n).foldl (fun s p => s.leafOp (16 * lane + p) .identify .identify []) s)
  else .next s

/-- The health of every die of a leaf is asked for, 16 dies at a time (R233). -/
def State.askHealth (s : State) (l : Nat) : State :=
  match (s.leaf l).id with
  | some i => (List.range ((i.dies + 15) / 16)).foldl (fun s k =>
      have n := min 16 (i.dies - 16 * k)
      s.leafOp l (.health (16 * k) n) .health (le 2 (16 * k) ++ le 2 n)) s
  | none => s

/-- MISCABLED of a leaf number (R230): it is set, with event 0x5804, where the serials that the heads found there differ, and this head stops using the
leaf: its open quires are closed, and a copy of the log on it is lost. It ends once both found the same serial. -/
def State.judgeSerial (s : State) (l : Nat) : State :=
  have x := s.leaf l
  match x.id, x.peerId with
  | some i, some p =>
    if i.serial = p then s.wr Reg.LFL_LEAF.MISCABLED 0 l
    else if s.on Reg.LFL_LEAF.MISCABLED l then s
    else
      have s := (s.wr Reg.LFL_LEAF.MISCABLED 1 l).event1 0x5804 l
      ((s.quiresOn l).foldl State.closeQuire s).loseCopiesOn l
  | _, _ => s

/-- A leaf tells what it is (R229, R230): it is reached; a pool member keeps its place only under the serial it joined with; a dead leaf
is failed. The last identity of an enumeration sends the serials to the peer. -/
def execLeafIdentifyCompletion (id : Nat) (ident : LeafId) (s : State) : Res :=
  match Table.find id s.lfl.ops with
  | none => .next s
  | some op =>
    match op.for_ with
    | .identify =>
      have l := op.leaf
      have s := s.endLeafOp id
      have x := s.leaf l
      have member := (s.poolOf l).isSome
      have joined := if member && x.joined.isNone then some ident.serial else x.joined
      have same := match joined with
        | some j => !member || j == ident.serial
        | none => true
      have back := if x.cond = .oneSided && same then x.home else x.cond
      have s := (s.putLeaf l { x with id := some ident, joined := joined, cond := back }).wr Reg.LFL_LEAF.REACH_SELF 1 l
      have s := if same then s else s.leafAbsent l
      have s := (((s.judgeSerial l).noteDies l).askHealth l).resumeErases l
      have s := if ident.dead && member then s.failLeaf l else s.noteLeaf l
      have scanned := s.sig.scanStart && same && (s.metaPool.any fun p => s.isMemberLeaf p l) && !(s.sig.scans.contains l)
      have s := if scanned then ({ s with sig.scans := l :: s.sig.scans }).scanLog l (if s.headB then 1 else 0) 0 else s
      have more := s.lfl.ops.any fun e => e.2.leaf / 16 == l / 16 && e.2.for_ == .identify
      .next (if more then s else s.reseatAll.sendSerials)
    | _ => .next s

/-- The peer's serials arrive (R230): REACH_PEER follows, a differing number is marked, and members that only one head reaches change
their condition (R203). -/
def execLeafSerialExchange (serials : Table Nat) (s : State) : Res :=
  have all := (s.lfl.leaves.map Prod.fst) ++ (serials.map Prod.fst).filter fun l => !(Table.has l s.lfl.leaves)
  .next (all.foldl (fun s l =>
    if 512 ≤ l then s
    else
      have far := Table.find l serials
      have s := (s.putLeaf l { s.leaf l with peerId := far }).wr Reg.LFL_LEAF.REACH_PEER (if far.isSome then 1 else 0) l
      have s := s.judgeSerial l
      if s.on Reg.LFL_LEAF.REACH_SELF l then s.noteLeaf l else s.unreach l) s)

/-! Errors (R248) -/

/-- A leaf refuses or fails a command (R248): event 0x5800 + status. A NAND failure of a PROGRAM closes the quire; one of an ERASE leaves
its unit out of use; a block that could not be claimed is the peer's, and one that could not be given stays this head's; a refused plan leaves the
die's as it was (R241); a fenced port shows in FENCED. -/
def State.leafError (s : State) (op : LeafOp) (status : Nat) : State :=
  have l := op.leaf
  match op.for_ with
  | .read r => s.readFailed r true
  | .folio quire sig member => s.folioFailed quire sig member (status == 0x0E)
  | .erase quire slot =>
    if status = 0x0E then
      have unit := (s.quire quire).bind fun q => q.slots[slot]?
      have s := match unit with
        | some x => s.putLeaf l { s.leaf l with bad := x.2 :: (s.leaf l).bad }
        | none => s
      (s.markErased quire slot).freeQuire quire
    else s.eraseLost l quire
  | .log copy _ => s.loseCopy copy
  | .logRead copy _ => if 16 ≤ copy then s.scanOver l (copy - 16) else s.rereadCopy copy
  | .grant 0 b => s.setBlocks l (Table.put b false (s.leaf l).blocks)
  | .grant 1 b => s.setBlocks l (Table.put b true (s.leaf l).blocks)
  | .witnessRead => s.witnessIn l none
  | .witnessCas => s.casIn l none false
  | .grant _ _ | .identify | .health _ _ | .proxied _ | .plan _ _ | .trim | .wipe | .enumerate => s

/-- LEAF_ERROR_COMPLETION (R248). -/
def execLeafErrorCompletion (id status : Nat) (s : State) : Res :=
  match Table.find id s.lfl.ops with
  | none => .next s
  | some op =>
    have s := (s.endLeafOp id).event1 (0x5800 + status % 256) op.leaf
    have s := if status = 0x07 then s.wr Reg.LFL_LEAF.FENCED 1 op.leaf else s
    .next (s.leafError op status).settleReadsOf

/-! Health and plans (R240 to R244) -/

/-- A leaf's dies report (R244): their erase counts are kept, and a die that the leaf calls failed is retired. -/
def execLeafHealthCompletion (id : Nat) (dies : List DieHealth) (s : State) : Res :=
  match Table.find id s.lfl.ops with
  | none => .next s
  | some op =>
    match op.for_ with
    | .health first n =>
      have s := s.endLeafOp id
      have step := s.rd Reg.LFL_PLAN_CFG.AGE_STEP
      .next ((dies.filter fun d => decide (first ≤ d.die ∧ d.die < first + n)).foldl (fun s d =>
        have note (x : Die) : Die := { x with erases := d.erases, aged := some (x.aged.getD (d.erases / step)), report := some d }
        have s := s.putLeaf op.leaf { s.leaf op.leaf with dies := Table.upd d.die {} note (s.leaf op.leaf).dies }
        if d.failed then s.retireDie op.leaf d.die else s) s)
    | _ => .next s

/-- Whether the margin planner runs on this head (R241): on head A in Mirrored or Resync, on head B in Solo. -/
def State.plans (s : State) : Bool :=
  if s.headB then s.wc.mode == .solo else s.wc.mode == .mirrored || s.wc.mode == .resync

/-- The measures of a die over an interval, as one head sends them to the other (R241). -/
def Die.measures (d : Die) : List Nat :=
  [d.words, d.bitsFixed, d.reads, d.retried, d.soft] ++ ((List.range 8).map fun k => Table.get (k + 1) 0 d.steps)

/-- The measures of the other head's reads are added to this head's (R241). -/
def Die.join (d e : Die) : Die := { d with
  words := d.words + e.words
  bitsFixed := d.bitsFixed + e.bitsFixed
  reads := d.reads + e.reads
  retried := d.retried + e.retried
  soft := d.soft + e.soft
  steps := e.steps.foldl (fun t x => Table.upd x.1 0 (fun n => n + x.2) t) d.steps }

/-- The planning head receives the other head's measurements (R241), by leaf and die. -/
def execPlannerMeasurements (measures : List (Nat × Nat × Die)) (s : State) : Res :=
  if s.plans then
    .next (measures.foldl (fun s m =>
      have l := s.leaf m.1
      if l.id.isSome then s.putLeaf m.1 { l with dies := Table.upd m.2.1 {} (fun d => d.join m.2.2) l.dies } else s) s)
  else .next s

/-- The retry step that succeeded most often (R243). -/
def Die.bestStep (d : Die) : Nat :=
  match (d.steps.mergeSort fun a b => decide (b.2 ≤ a.2)).head? with
  | some e => e.1
  | none => 0

/-- The offset of a threshold at a retry step (R240). -/
def DiePlan.offset (p : DiePlan) (k t : Nat) : Int :=
  have b := p.base.getD (t - 1) 0
  if k = 0 then b else max (-128) (min 127 (b + (p.ladder.getD (k - 1) 0 * p.slopes.getD (t - 1) 0).shiftRight 2))

/-- The plan that an interval's measures ask for (R243): the base offsets take the step that succeeded most often, and the program and
erase indices rise with age. -/
def Die.nextPlan (d : Die) (i : LeafId) (step thresholds : Nat) : DiePlan :=
  have p := if d.reads < 100 * d.retried then
      { d.plan with base := (List.range thresholds).map fun t => d.plan.offset d.bestStep (t + 1) }
    else d.plan
  match d.aged with
  | some a =>
    if a < d.erases / step then
      { p with program := min (p.program + 1) (i.programs - 1), erase := min (p.erase + 1) (i.erases - 1) }
    else p
  | none => p

/-- One die at the end of an interval (R243): a valley search starts, the plan changes, quires are queued for collection; the measures
start again. -/
def State.planDie (s : State) (leaf die : Nat) (i : LeafId) (d : Die) : State :=
  have step := s.rd Reg.LFL_PLAN_CFG.AGE_STEP
  have p := d.nextPlan i step (s.leaf leaf).thresholds
  have search := s.on Reg.LFL_CTRL.VALLEY_EN && d.valley == 0 && decide (62 * d.words < d.bitsFixed)
  have fresh : Die := { d with
    words := 0
    bitsFixed := 0
    reads := 0
    retried := 0
    soft := 0
    steps := []
    unreadable := 0
    aged := d.aged.map fun a => max a (d.erases / step)
    valley := if search then 64 else d.valley
    trials := if search then [] else d.trials }
  have s := s.putLeaf leaf { s.leaf leaf with dies := Table.put die fresh (s.leaf leaf).dies }
  have s := if p = d.plan then s else s.installPlan leaf die p
  if d.reads < 1000 * d.soft then s.queueDie leaf die else s

/-- A planning interval ends (R241, R243). The planner acts on every die in use; a head that does not plan sends its measures to the one
that does. The dies' health is asked for again. While PLAN_EN is 0, only R244's count of unreadable codewords starts again. -/
def execPlanInterval (s : State) : Res :=
  if !(s.on Reg.LFL_CTRL.PLAN_EN) then
    have clear (d : Die) : Die := { d with unreadable := 0 }
    .next { s with lfl.leaves := Table.mapVals (fun _ (l : Leaf) => { l with dies := Table.mapVals (fun _ d => clear d) l.dies }) s.lfl.leaves }
  else
    have leaves := s.lfl.leaves.filter fun e => e.2.id.isSome && s.on Reg.LFL_LEAF.REACH_SELF e.1
    if s.plans then
      .next (leaves.foldl (fun s e =>
        match e.2.id with
        | none => s
        | some i =>
          have s := e.2.dies.foldl (fun s d => if d.2.retired then s else s.planDie e.1 d.1 i d.2) s
          s.askHealth e.1) s)
    else
      have report := leaves.flatMap fun e => e.2.dies.flatMap fun d => [e.1, d.1] ++ d.2.measures
      have clear (d : Die) : Die := { d with words := 0, bitsFixed := 0, reads := 0, retried := 0, soft := 0, steps := [], unreadable := 0 }
      have s := { s with lfl.leaves := Table.mapVals (fun _ (l : Leaf) => { l with dies := Table.mapVals (fun _ d => clear d) l.dies }) s.lfl.leaves }
      .next (leaves.foldl (fun s e => s.askHealth e.1) (s.sendRing (.ring 0x51 report [])))

/-! The witness (R245, R246, R369) -/

/-- A witness record has been read. -/
def execWitnessReadCompletion (id : Nat) (rcd : Witness) (s : State) : Res :=
  match Table.find id s.lfl.ops with
  | none => .next s
  | some op =>
    match op.for_ with
    | .witnessRead => .next ((s.endLeafOp id).witnessIn op.leaf (some rcd))
    | _ => .next s

/-- A CAS is answered with the record as stored (R246): one that the leaf refused has status 0x0C, event 0x580C. -/
def execWitnessCasCompletion (id : Nat) (answer : CasAnswer) (s : State) : Res :=
  match Table.find id s.lfl.ops with
  | none => .next s
  | some op =>
    match op.for_ with
    | .witnessCas =>
      have s := s.endLeafOp id
      have s := if answer.status = 0 then s else s.event1 (0x5800 + answer.status % 256) op.leaf
      .next (s.casIn op.leaf (some answer.rcd) (answer.status == 0))
    | _ => .next s

/-! The reading of the log (R195, R196) -/

/-- Where the pages of this head's own region end on a leaf, as a reading of it shows (R236). -/
def State.notePages (s : State) (l region first : Nat) (pages : List (List Byte)) : State :=
  if region = s.ownRegion then
    have top := pages.zipIdx.foldl (fun (m : Option Nat) p =>
      if (pageEntries p.1).any fun e => decide (s.sig.logSeq < e.seq) then some p.2 else m) none
    match top with
    | some k => s.putLeaf l { s.leaf l with logNext := (first + k + 1) % 262144 }
    | none => s
  else s

/-- Pages read from a surviving copy go to the copy being reseeded, those that hold a live entry (R195). -/
def State.reseed (s : State) (copy : Nat) (pages : List (List Byte)) : State :=
  pages.foldl (fun s p =>
    have es := pageEntries p
    if es.any fun e => decide (s.retireMark ≤ e.seq) then s.appendPage copy (2 ^ 64) es else s) s

/-- LOG_READ completes (R195, R196): the entries of a scan's pages join those found; the pages read for a reseed are appended to the new copy.
`failed` names pages whose codeword fails decoding. A scan goes on until a completion brings fewer than 16 pages or the region ends, a reseed until
the copy that it reads ends. -/
def execLogReadCompletion (id : Nat) (pages : List (List Byte)) (failed : List Nat) (s : State) : Res :=
  match Table.find id s.lfl.ops with
  | none => .next s
  | some op =>
    match op.for_ with
    | .logRead copy first =>
      have s := s.endLeafOp id
      have good := pages.zipIdx.map fun p => if failed.contains p.2 then [] else p.1
      if 16 ≤ copy then
        have region := copy - 16
        have more := decide (16 ≤ pages.length ∧ first + 32 ≤ 262144)
        have s := (s.notePages op.leaf region first good).addFound ((good.flatMap pageEntries).filter fun e => e.head == (region == 1))
        .next (if more then s.scanLog op.leaf region (first + 16) else s.scanOver op.leaf region)
      else if (s.sig.copies[copy]?).any LogCopy.reseeding then
        have s := s.reseed copy good
        have next := (first + 16) % 262144
        have left := pagesBetween first (s.leaf op.leaf).logNext
        .next (if 16 < left then s.readLog op.leaf copy s.ownRegion next (left - 16) else s)
      else .next s
    | _ => .next s

end Sys2Proof.Machine
end

