-- ==== Sys2Proof/Machine/Bpf.lean ====
section
/-!
DEFINITION. Machine/Bpf.lean: program packages (R309, R310), the BPF subset of the BPF unit (R311, RFC 9669), the helpers (R312) and
the sandbox (R313).
-/
namespace Sys2Proof.Machine
open Sys2Proof

/-! Packages (R309) -/

/-- A number of a package, little-endian. -/
def pkgNum (b : List Byte) (off n : Nat) : Nat := num (slice b off n)

/-- A flag of a package: 0 STATELESS, 1 ZERO_DATA, 2 USES_SCAN, 3 FINISH, 4 INDEX (R309). -/
def pkgFlag (b : List Byte) (k : Nat) : Bool := (pkgNum b 3 1).testBit k

/-- The instruction slots of a package. -/
def pkgSlots (b : List Byte) : Nat := pkgNum b 4 4

/-- An entry of a package's map table (R309): size, read-only, initialised, offset of its initial data. -/
structure MapDef where
  size : Nat
  ro   : Bool
  init : Bool
  off  : Nat
  zero : Bool
  deriving DecidableEq, Repr

/-- The map table of a package. -/
def pkgMaps (b : List Byte) : List MapDef :=
  (List.range (pkgNum b 0x10 2)).map fun k =>
    have o := 160 + 8 * pkgSlots b + 16 * k
    have flags := pkgNum b (o + 4) 4
    { size := pkgNum b o 4, ro := flags.testBit 0, init := flags.testBit 1, off := pkgNum b (o + 8) 4,
      zero := flags < 4 && pkgNum b (o + 12) 4 == 0 }

/-- What a map holds when a run starts (R309): its initial data, or zeros. -/
def MapDef.start (m : MapDef) (b : List Byte) : List Byte := if m.init then slice b m.off m.size else zeros m.size

/-- A predicate of the scan descriptor (R316). -/
structure Predicate where
  off   : Nat
  width : Nat
  signed : Bool
  big   : Bool
  op    : Nat
  const : Nat
  zero  : Bool
  deriving DecidableEq, Repr

/-- The predicates that a package's scan descriptor uses (R316). -/
def pkgPredicates (b : List Byte) : List Predicate :=
  (List.range (pkgNum b 0x34 1)).map fun k =>
    have o := 0x38 + 12 * k
    have c := pkgNum b (o + 2) 1
    { off := pkgNum b o 2, width := 2 ^ (c % 4), signed := c.testBit 2, big := c.testBit 3, op := c / 16 % 8,
      const := pkgNum b (o + 4) 8, zero := !c.testBit 7 && pkgNum b (o + 3) 1 == 0 }

/-- The scan descriptor's fields are ones that R316 names. -/
def scanGood (b : List Byte) : Bool :=
  have framing := pkgNum b 0x30 1
  have len := pkgNum b 0x32 2
  decide (framing ≤ 2) && (framing == 0 || decide (1 ≤ len ∧ len ≤ 4096)) && decide (pkgNum b 0x34 1 ≤ 4) && decide (pkgNum b 0x35 1 ≤ 1) &&
    pkgNum b 0x36 2 == 0 && pkgNum b 0x68 8 == 0 && (pkgPredicates b).all fun p => p.zero && p.op != 7

/-- The first check of R310: magic, version, CRC32C, length fields, reserved fields, flags. -/
def headerValid (b : List Byte) : Bool :=
  decide (160 ≤ b.length ∧ b.length ≤ 262144) && pkgNum b 0 2 == 0xB9F1 && pkgNum b 2 1 == 1 && decide (pkgNum b 3 1 < 32) &&
    pkgNum b 0x9C 4 == crc32c (b.take 0x9C) && decide (1 ≤ pkgSlots b ∧ pkgSlots b ≤ 32748) &&
    decide (160 + 8 * pkgSlots b + 16 * pkgNum b 0x10 2 ≤ b.length) && pkgNum b 0x12 2 == 0 && pkgNum b 0x90 12 == 0 &&
    decide (1 ≤ pkgNum b 0x1C 4) && (pkgFlag b 3 || pkgNum b 0x0C 4 == 0) && !(pkgFlag b 0 && pkgFlag b 3) &&
    (!(pkgFlag b 2) || scanGood b)

/-! Instructions (RFC 9669) -/

/-- One instruction slot: opcode, registers, signed offset and immediate. -/
structure Insn where
  op  : Nat
  dst : Nat
  src : Nat
  off : Int
  imm : Int
  deriving DecidableEq, Repr

/-- The class of an instruction. -/
def Insn.cls (i : Insn) : Nat := i.op % 8
/-- The operation code of an arithmetic or jump instruction. -/
def Insn.code (i : Insn) : Nat := i.op / 16
/-- Whether an arithmetic or jump instruction takes its second operand from a register. -/
def Insn.reg (i : Insn) : Bool := i.op.testBit 3
/-- The mode of a load or store. -/
def Insn.mode (i : Insn) : Nat := i.op / 32
/-- The bytes that a load or store moves. -/
def Insn.size (i : Insn) : Nat :=
  match i.op / 8 % 4 with
  | 0 => 4
  | 1 => 2
  | 2 => 1
  | _ => 8
/-- The first half of a 64-bit immediate load. -/
def Insn.wide (i : Insn) : Bool := i.op == 0x18

/-- The instruction that 8 bytes spell. -/
def Insn.parse (b : List Byte) : Insn :=
  { op := num (slice b 0 1), dst := num (slice b 1 1) % 16, src := num (slice b 1 1) / 16, off := signedOf 16 (num (slice b 2 2)),
    imm := signedOf 32 (num (slice b 4 4)) }

/-- The instruction slots of a package. -/
def pkgCode (b : List Byte) : List Insn := (List.range (pkgSlots b)).map fun k => Insn.parse (slice b (160 + 8 * k) 8)

/-- The slots at which instructions start, with the slot after each where it is the second half of a 64-bit immediate. -/
def starts : Nat → List Insn → List (Nat × Insn × Option Insn)
  | _, [] => []
  | k, i :: [] => [(k, i, none)]
  | k, i :: j :: r => if i.wide then (k, i, some j) :: starts (k + 2) r else (k, i, none) :: starts (k + 1) (j :: r)

/-- An arithmetic instruction of base32, base64, divmul32 and divmul64 (R311). -/
def aluGood (i : Insn) : Bool :=
  have operand := if i.reg then i.imm == 0 && decide (i.src ≤ 10) else i.src == 0
  decide (i.dst ≤ 9) &&
    match i.code with
    | 3 | 9 => operand && (i.off == 0 || i.off == 1)
    | 8 => !i.reg && i.src == 0 && i.imm == 0 && i.off == 0
    | 0xB => operand && (i.off == 0 || (i.reg && (i.off == 8 || i.off == 16 || (i.off == 32 && i.cls == 7))))
    | 0xD => i.src == 0 && i.off == 0 && (i.imm == 16 || i.imm == 32 || i.imm == 64) && (i.cls == 4 || !i.reg)
    | 0xE | 0xF => false
    | _ => operand && i.off == 0

/-- A jump, call or exit of base32 and base64 (R311). -/
def jumpGood (i : Insn) : Bool :=
  match i.code with
  | 0 => !i.reg && i.src == 0 && i.dst == 0 && (if i.cls = 5 then i.imm == 0 else i.off == 0)
  | 8 => i.cls == 5 && !i.reg && decide (i.src ≤ 1) && i.dst == 0 && i.off == 0
  | 9 => i.cls == 5 && !i.reg && i.src == 0 && i.dst == 0 && i.off == 0 && i.imm == 0
  | 0xE | 0xF => false
  | _ => decide (i.dst ≤ 10) && if i.reg then i.imm == 0 && decide (i.src ≤ 10) else i.src == 0

/-- Whether an instruction lies in the subset (R311). -/
def insnGood (i : Insn) (second : Option Insn) : Bool :=
  match i.cls with
  | 0 => i.wide && decide (i.dst ≤ 9) && (i.src == 0 || i.src == 5 || i.src == 6) && i.off == 0 &&
      second.any fun j => j.op == 0 && j.dst == 0 && j.src == 0 && j.off == 0
  | 1 => (i.mode == 3 || (i.mode == 4 && i.size != 8)) && decide (i.dst ≤ 9) && decide (i.src ≤ 10) && i.imm == 0
  | 2 => i.mode == 3 && decide (i.dst ≤ 10) && i.src == 0
  | 3 => i.mode == 3 && decide (i.dst ≤ 10) && decide (i.src ≤ 10) && i.imm == 0
  | 5 | 6 => jumpGood i
  | _ => aluGood i

/-- Whether an instruction is EXIT. -/
def Insn.isExit (i : Insn) : Bool := i.op == 0x95
/-- Whether an instruction is an unconditional jump. -/
def Insn.isJump (i : Insn) : Bool := i.op == 0x05 || i.op == 0x06
/-- Whether an instruction calls a helper. -/
def Insn.isHelper (i : Insn) : Bool := i.op == 0x85 && i.src == 0

/-- Where a jump or local call at a slot goes. -/
def Insn.target (i : Insn) (k : Nat) : Option Int :=
  if i.cls != 5 && i.cls != 6 then none
  else if i.isExit || i.isHelper then none
  else if i.op == 0x85 || i.op == 0x06 then some (k + 1 + i.imm)
  else some (k + 1 + i.off)

/-- The checks of R310 before the table is looked at; the first that fails decides. -/
def packageFault (b : List Byte) : Option Nat :=
  have ins := starts 0 (pkgCode b)
  have at_ (k : Int) : Bool := ins.any fun e => (e.1 : Int) == k
  have maps := pkgMaps b
  have helpers := (ins.filter fun e => e.2.1.isHelper).map fun e => e.2.1.imm
  if !(headerValid b) then some 0x7001
  else if sha256 (b.drop 0xA0) != slice b 0x70 32 then some 0x7002
  else if !(ins.all fun e => insnGood e.2.1 e.2.2) then some 0x7003
  else if !(ins.all fun e => (e.2.1.target e.1).all at_) || !(ins.getLast?.any fun e => e.2.1.isExit || e.2.1.isJump) ||
      !(at_ (pkgNum b 8 4)) || (pkgFlag b 3 && !(at_ (pkgNum b 0x0C 4))) then some 0x7004
  else if !(helpers.all fun h => decide (1 ≤ h ∧ h ≤ 8) && (pkgNum b 0x18 4).testBit h.toNat && (h != 6 || pkgFlag b 4)) then some 0x7005
  else if !(decide (maps.length ≤ 64)) || !(maps.all fun m => m.zero && decide (8 ≤ m.size ∧ m.size ≤ 1044480) &&
        (!m.init || decide (m.off + m.size ≤ b.length))) ||
      (maps.map MapDef.size).sum != pkgNum b 0x14 4 || 1044480 < pkgNum b 0x14 4 ||
      !(ins.all fun e => !e.2.1.wide || e.2.1.src == 0 || decide (0 ≤ e.2.1.imm ∧ e.2.1.imm < maps.length)) then some 0x7006
  else none

/-! The sandbox (R313) -/

/-- What one invocation of a program is given (R313): the number of the invocation, its code, the context, the parameters, the data,
which maps are read-only, the ring time, the stored record bytes and index entries that may still be kept, and the address that its
records carry. -/
structure Invocation where
  inv     : Nat
  code    : List Insn
  ctx     : List Byte
  params  : List Byte
  data    : List Byte
  ro      : List Bool
  time    : Nat
  room    : Nat
  addRoom : Nat
  addr    : Nat
  tile    : Nat

/-- A run on one tile: registers, the next slot, the frames below the current one (return slot, r6 to r9), the stack and maps, the
records of the piece and their bytes, the next record's sequence, index entries added (key, value, address), counters, a refused emit, the
instructions executed. -/
structure Vm where
  regs    : List (BitVec 64) := []
  pc      : Nat := 0
  frames  : List (Nat × List (BitVec 64)) := []
  stack   : List Byte
  maps    : List (List Byte)
  recs    : List (Nat × Nat × List Byte) := []
  staged  : Nat := 0
  seq     : Nat := 0
  adds    : List (List Byte × Nat × Nat) := []
  counters : List Nat
  refused : Bool := false
  steps   : Nat := 0
  deriving DecidableEq, Repr

/-- How an invocation ends (R311 to R314): EXIT with r0, a budget exceeded, an access outside the sandbox (slot, address), a helper refused
(slot). -/
inductive VmEnd where
  | exited (r0 : BitVec 64)
  | budget
  | memory (slot : Nat) (addr : BitVec 64)
  | helper (slot : Nat)
  deriving DecidableEq, Repr

/-- A register. -/
def Vm.reg (v : Vm) (k : Nat) : BitVec 64 := v.regs.getD k 0

/-- The machine with a register written, at the next slot. -/
def Vm.setReg (v : Vm) (k : Nat) (x : BitVec 64) : Vm := { v with regs := v.regs.set k x }

/-- The first byte of a region in the tile: 0 the context, 1 the parameters, 2 the data, 3 the stack, from 4 on the maps. -/
def regionBase (inv k : Nat) : BitVec 64 := Config.tileWord inv k

/-- The lowest byte of the stack's current frames (R311): 8 frames of 512 bytes, the first at the top. -/
def Vm.frameLow (v : Vm) : Nat := (7 - v.frames.length) * 512

/-- The bytes of a region. -/
def Vm.region (v : Vm) (e : Invocation) (k : Nat) : List Byte :=
  match k with
  | 0 => e.ctx
  | 1 => e.params
  | 2 => e.data
  | 3 => v.stack
  | k + 4 => v.maps.getD k []

/-- The region that a range lies wholly inside, and its offset there (R313); `writes` asks for one that may be written. -/
def Vm.locate (v : Vm) (e : Invocation) (a : BitVec 64) (n : Nat) (writes : Bool) : Option (Nat × Nat) :=
  (List.range (4 + v.maps.length)).findSome? fun k =>
    have off := (a - regionBase e.inv k).toNat
    have mayWrite := match k with
      | 0 | 1 | 2 => false
      | 3 => true
      | k + 4 => !(e.ro.getD k true)
    if decide (off + n ≤ (v.region e k).length) && (k != 3 || decide (v.frameLow ≤ off)) && (!writes || mayWrite) then some (k, off) else none

/-- A checked read. -/
def Vm.load (v : Vm) (e : Invocation) (a : BitVec 64) (n : Nat) : Option (List Byte) :=
  if n = 0 then some [] else (v.locate e a n false).map fun p => slice (v.region e p.1) p.2 n

/-- Bytes put over others at an offset. -/
def overlay (b : List Byte) (off : Nat) (x : List Byte) : List Byte := b.take off ++ x ++ b.drop (off + x.length)

/-- A checked write. -/
def Vm.store (v : Vm) (e : Invocation) (a : BitVec 64) (x : List Byte) : Option Vm :=
  if x.isEmpty then some v
  else
    (v.locate e a x.length true).map fun p =>
      if p.1 = 3 then { v with stack := overlay v.stack p.2 x }
      else { v with maps := v.maps.set (p.1 - 4) (overlay (v.maps.getD (p.1 - 4) []) p.2 x) }

/-! Execution (R311) -/

/-- An arithmetic operation of RFC 9669 at a width; division and modulo by zero give 0 and the dividend, shift counts are taken modulo the
width. -/
def alu (w code : Nat) (off : Int) (a b : BitVec w) : BitVec w :=
  match code with
  | 0 => a + b
  | 1 => a - b
  | 2 => a * b
  | 3 => if b = 0 then 0 else if off = 1 then a.sdiv b else a / b
  | 4 => a ||| b
  | 5 => a &&& b
  | 6 => a <<< (b.toNat % w)
  | 7 => a >>> (b.toNat % w)
  | 8 => -a
  | 9 => if b = 0 then a else if off = 1 then a.srem b else a % b
  | 0xA => a ^^^ b
  | 0xB => if off = 0 then b else (b.setWidth off.toNat).signExtend w
  | _ => a.sshiftRight (b.toNat % w)

/-- The byte swap of the low `n` bytes. -/
def reverseBytes (n : Nat) (a : BitVec 64) : BitVec 64 := BitVec.ofNat 64 (num (le n a.toNat).reverse)

/-- The comparison of a conditional jump at a width. -/
def jumps (w code : Nat) (a b : BitVec w) : Bool :=
  match code with
  | 1 => a == b
  | 2 => b.ult a
  | 3 => b.ule a
  | 4 => (a &&& b) != 0
  | 5 => a != b
  | 6 => b.slt a
  | 7 => b.sle a
  | 0xA => a.ult b
  | 0xB => a.ule b
  | 0xC => a.slt b
  | _ => a.sle b

/-- The stored length of a record of some emitted bytes (R320): header and bytes, padded to a whole dword. -/
def storedLen (n : Nat) : Nat := (16 + n + 3) / 4 * 4

/-- −28 as a helper returns it (R312). -/
def noRoom : BitVec 64 := BitVec.ofInt 64 (-28)

/-- A helper call (R312): what it answers in r0 and does; none where its pointers fail the checks. An argument for which R312 states no
answer (a counter above 7, a key length outside 1 to 32) does nothing and answers a free value. -/
def Vm.helper (v : Vm) (e : Invocation) (h : Nat) : Option (BitVec 64 × Vm) :=
  have r1 := v.reg 1
  have r2 := v.reg 2
  have r3 := v.reg 3
  have unstated : BitVec 64 × Vm := (Config.tileWord e.inv (4096 + v.steps), v)
  match h with
  | 1 =>
    have n := r2.toNat
    if n < 1 ∨ 4080 < n then some (BitVec.ofInt 64 (-22), v)
    else
      match v.load e r1 n with
      | none => none
      | some b =>
        have need := v.staged + storedLen n
        if e.room < need ∨ 131072 < need then some (noRoom, { v with refused := true })
        else some (0, { v with
          recs := v.recs ++ [(v.seq, e.addr, b)]
          staged := need
          seq := v.seq + 1 })
  | 2 => some (BitVec.ofNat 64 e.time, v)
  | 3 => (v.load e r2 r3.toNat).bind fun b => (v.store e r1 b).map fun v => (0, v)
  | 4 =>
    if r3.toNat = 0 then some (0, v)
    else (v.locate e r1 r3.toNat true).bind fun _ => (v.store e r1 (List.replicate r3.toNat (r2.setWidth 8))).map fun v => (0, v)
  | 5 => (v.load e r1 r2.toNat).map fun b => (BitVec.ofNat 64 (crc32cFrom (r3.toNat % 2 ^ 32) b), v)
  | 6 =>
    have n := r2.toNat
    if n < 1 ∨ 32 < n then some unstated
    else
      match v.load e r1 n with
      | none => none
      | some b =>
        if e.addRoom ≤ v.adds.length then some (noRoom, v)
        else some (0, { v with adds := v.adds ++ [(b, r3.toNat, e.addr)] })
  | 7 =>
    if 7 < r1.toNat then some unstated
    else some (0, { v with counters := v.counters.set r1.toNat (satAdd 32 (v.counters.getD r1.toNat 0) r2.toNat) })
  | _ => (v.load e r1 r2.toNat).bind fun b => (v.store e r3 (sha256 b)).map fun v => (0, v)

/-- One instruction: the machine after it, or how the invocation ends. -/
def Vm.step (v : Vm) (e : Invocation) : Except VmEnd Vm :=
  match e.code[v.pc]? with
  | none => .error (.memory v.pc (BitVec.ofNat 64 v.pc))
  | some i =>
    have v' := { v with
      steps := v.steps + 1
      pc := v.pc + 1 }
    have imm : BitVec 64 := BitVec.ofInt 64 i.imm
    have b := if i.reg then v.reg i.src else imm
    have a := v.reg i.dst
    have ea (r : BitVec 64) : BitVec 64 := r + BitVec.ofInt 64 i.off
    have stored (x : BitVec 64) : Except VmEnd Vm :=
      match v'.store e (ea a) (le i.size x.toNat) with
      | some w => .ok w
      | none => .error (.memory v.pc (ea a))
    match i.cls with
    | 0 =>
      have next := ((e.code[v.pc + 1]?).map Insn.imm).getD 0
      have low := (BitVec.ofInt 32 i.imm).toNat
      have value : BitVec 64 :=
        if i.src = 0 then BitVec.ofNat 64 (low + 2 ^ 32 * (BitVec.ofInt 32 next).toNat)
        else if i.src = 5 then regionBase e.inv (4 + low)
        else regionBase e.inv (4 + low) + BitVec.ofInt 64 next
      .ok { (v'.setReg i.dst value) with pc := v.pc + 2 }
    | 1 =>
      match v.load e (ea (v.reg i.src)) i.size with
      | none => .error (.memory v.pc (ea (v.reg i.src)))
      | some x =>
        have n := num x
        .ok (v'.setReg i.dst (if i.mode = 4 then BitVec.ofInt 64 (signedOf (8 * i.size) n) else BitVec.ofNat 64 n))
    | 2 => stored imm
    | 3 => stored (v.reg i.src)
    | 4 =>
      if i.code = 0xD then
        have n := i.imm.toNat / 8
        .ok (v'.setReg i.dst (if i.reg then reverseBytes n a else BitVec.ofNat 64 (a.toNat % 2 ^ (8 * n))))
      else .ok (v'.setReg i.dst ((alu 32 i.code i.off (a.setWidth 32) (b.setWidth 32)).setWidth 64))
    | 7 => if i.code = 0xD then .ok (v'.setReg i.dst (reverseBytes (i.imm.toNat / 8) a)) else .ok (v'.setReg i.dst (alu 64 i.code i.off a b))
    | _ =>
      have goto : Vm := { v' with pc := ((i.target v.pc).getD 0).toNat }
      if i.isExit then
        match v'.frames with
        | [] => .error (.exited (v.reg 0))
        | (ret, saved) :: rest =>
          .ok { v' with
            pc := ret
            frames := rest
            regs := (v'.regs.take 6 ++ saved).set 10 (v.reg 10 + 512) }
      else if i.isHelper then
        match v'.helper e i.imm.toNat with
        | none => .error (.helper v.pc)
        | some (r0, w) => .ok (w.setReg 0 r0)
      else if i.op = 0x85 then
        if 7 ≤ v'.frames.length then .error (.memory v.pc (v.reg 10 - 512))
        else
          .ok { goto with
            frames := (v.pc + 1, slice' v.regs) :: v'.frames
            regs := v'.regs.set 10 (v.reg 10 - 512) }
      else if i.code = 0 then .ok goto
      else if (if i.cls = 5 then jumps 64 i.code a b else jumps 32 i.code (a.setWidth 32) (b.setWidth 32)) then .ok goto
      else .ok v'
where
  /-- r6 to r10, which a local call saves. -/
  slice' (regs : List (BitVec 64)) : List (BitVec 64) := (regs.drop 6).take 5

/-- An invocation of at most `budget` instructions (R314). -/
def Vm.run (e : Invocation) : Nat → Vm → VmEnd × Vm
  | 0, v => (.budget, v)
  | n + 1, v =>
    match v.step e with
    | .ok w => Vm.run e n w
    | .error (.exited r) => (.exited r, { v with steps := v.steps + 1 })
    | .error x => (x, v)

/-- The machine at an entry (R311): r1 points to the context, r2 to r5 are zero, r10 to the top of the first frame; the others are not
stated. -/
def Vm.enter (v : Vm) (inv pc : Nat) : Vm :=
  have free (k : Nat) : BitVec 64 := Config.tileWord inv (1024 + k)
  { v with
    pc := pc
    frames := []
    regs := [free 0, regionBase inv 0, 0, 0, 0, 0, free 6, free 7, free 8, free 9, regionBase inv 3 + 4096] }

/-- The 64 bytes of the context (R313). -/
def contextBytes (inv addr len flags nsid tile params index start : Nat) (hasData : Bool) : List Byte :=
  have data := if hasData then (regionBase inv 2).toNat else 0
  le 8 data ++ le 8 (if hasData then data + len else 0) ++ le 8 addr ++ le 4 len ++ le 4 flags ++ le 4 nsid ++ le 2 tile ++ zeros 2 ++
    le 8 (regionBase inv 1).toNat ++ le 4 params ++ le 4 index ++ le 8 start

/-! The scan unit (R316, R317) -/

/-- The value of a record's field as a predicate reads it. -/
def Predicate.field (p : Predicate) (rcd : List Byte) : Nat :=
  have b := slice rcd p.off p.width
  num (if p.big then b.reverse else b)

/-- Whether a predicate holds of a record (R316); a field beyond the record's end does not. -/
def Predicate.holds (p : Predicate) (rcd : List Byte) : Bool :=
  if rcd.length < p.off + p.width then false
  else
    have f := p.field rcd
    have c := p.const % 2 ^ (8 * p.width)
    have x : Int := if p.signed then signedOf (8 * p.width) f else f
    have y : Int := if p.signed then signedOf (8 * p.width) c else c
    match p.op with
    | 0 => decide (x = y)
    | 1 => decide (x ≠ y)
    | 2 => decide (x < y)
    | 3 => decide (x ≤ y)
    | 4 => decide (x > y)
    | 5 => decide (x ≥ y)
    | _ => f &&& c == c

/-- Whether a record passes a package's scan descriptor (R316). -/
def passes (b : List Byte) (rcd : List Byte) : Bool :=
  have ps := pkgPredicates b
  ps.isEmpty || if pkgNum b 0x35 1 = 0 then ps.all fun p => p.holds rcd else ps.any fun p => p.holds rcd

/-- The length of the next record at the start of some bytes (R317): framing 1 whole records of `len`, framing 2 up to the delimiter or
`len`; at the end of the range, what is left. -/
def nextRecord (framing delim len : Nat) (atEnd : Bool) (b : List Byte) : Option Nat :=
  have cut := if framing = 2 then (b.take len).findIdx? fun x => x.toNat == delim else none
  match cut with
  | some k => some (k + 1)
  | none => if len ≤ b.length then some len else if atEnd && !b.isEmpty then some b.length else none

end Sys2Proof.Machine
end

