-- ==== Sys2Proof/Machine/Program.lean ====
section
/-!
DEFINITION. Machine/Program.lean: program loads, runs on the tiles, their pieces and results, taps, fencing of tiles and accounting
(chapter 11).
-/
namespace Sys2Proof.Machine
open Sys2Proof

/-! Accounting (R326) -/

/-- The 64 bytes of an accounting entry (R326). -/
def Acct.entry (a : Acct) : List Byte :=
  withCrc (le 4 (min a.started (2 ^ 32 - 1)) ++ le 4 (min a.failed (2 ^ 32 - 1)) ++ le 8 a.tileUs ++ le 8 a.instr ++ le 8 a.bytes ++ le 8 a.kept ++
    le 8 a.delivered ++ le 8 a.indexed ++ le 4 (min a.skipped (2 ^ 32 - 1)))

/-- The sum of two entries. -/
def Acct.plus (a b : Acct) : Acct :=
  { started := a.started + b.started, failed := a.failed + b.failed, tileUs := a.tileUs + b.tileUs, instr := a.instr + b.instr,
    bytes := a.bytes + b.bytes, kept := a.kept + b.kept, delivered := a.delivered + b.delivered, indexed := a.indexed + b.indexed,
    skipped := a.skipped + b.skipped }

/-- A tenant's entry is set, in the table in DDR as well (R326). -/
def State.setAcct (s : State) (tenant : Nat) (a : Acct) : State :=
  have s := { s with prg.acct := Table.put tenant a s.prg.acct }
  if s.rd Reg.PRG_ACCT_BASE.BASE = 0 then s else s.ddrWriteList (s.rd Reg.PRG_ACCT_BASE.BASE + 64 * tenant) a.entry

/-- A tenant's entry is raised. -/
def State.addAcct (s : State) (tenant : Nat) (a : Acct) : State := s.setAcct tenant ((Table.get tenant {} s.prg.acct).plus a)

/-- What a run has not yet added to its tenant's entry is added (R326): with its tile time since the last update. -/
def State.postAcct (s : State) (slot : Nat) (r : Run) : State :=
  if r.startedAt.isNone then s
  else
    have us := (s.clock - r.acctFrom) / 8000
    have s := s.addAcct r.tenant (r.acct.plus { tileUs := us * r.tiles.length })
    { s with prg.runs := Table.put slot { r with
        acct := {}
        acctFrom := r.acctFrom + us * 8000 } s.prg.runs }

/-- ACCOUNTING_UPDATE (R326): the entries of running runs and taps are updated. -/
def execAccountingUpdate (s : State) : Res :=
  .next (s.prg.runs.foldl (fun s e => if e.2.doneAt.isNone then s.postAcct e.1 e.2 else s) s)

/-- ACCT_CLEAR (R328): PRG_ACCT_CLEAR written with GO zeroes the tenant's entry, or with ALL every one, and rewrites the CRC. -/
def execAcctClear (value : Nat) (s : State) : Res :=
  if !(s.writable 19) || !(value.testBit 12) then .next s
  else if value.testBit 13 then .next ((s.prg.acct.map Prod.fst).foldl (fun s t => s.setAcct t {}) s)
  else .next (s.setAcct (value % 4096) {})

/-! Loads (R310) -/

/-- The program table with a tenant's slot set. -/
def State.setProgram (s : State) (tenant slot : Nat) (package : Option (List Byte)) : State :=
  have rest := s.prg.table.filter fun p => !(p.tenant == tenant && p.slot == slot)
  { s with prg.table := match package with
    | some b => rest ++ [{ tenant := tenant, slot := slot, bytes := b }]
    | none => rest }

/-- Whether a slice may use programs of a tenant: the bases are programmed and the tenant is the slice's (R388, R397, R328). -/
def State.programGate (s : State) (c : HostCmd) (tenant : Nat) (run : State) : State :=
  s.ringGate c .programs fun sl =>
    if s.rd Reg.PRG_TABLE_BASE.BASE = 0 ∨ s.rd Reg.PRG_STORE_BASE.BASE = 0 ∨ s.rd Reg.PRG_SLOTMAP_BASE.BASE = 0 then s.complete c 0x100E
    else if 4096 ≤ tenant then s.complete c 0x1001
    else if !(sl.mayName tenant) then s.complete c 0x1006
    else run

/-- PRG_LOAD (R310): the package is checked and installed, and the load sent to the peer before it completes. -/
def execPrgLoad (c : HostCmd) (tenant slot : Nat) (replace reservedZero : Bool) (package : List Byte) (s : State) : Res :=
  .next (s.programGate c tenant
    (if !reservedZero || 256 ≤ slot then s.complete c 0x1001
    else
      match packageFault package with
      | some code => s.complete c code
      | none =>
        have held := (s.programAt tenant slot).isSome
        if 16384 ≤ s.prg.table.length && !held then s.complete c 0x7007
        else if held && !replace then s.complete c 0x7008
        else
          have s := s.setProgram tenant slot (some package)
          have s := if s.on Reg.OWN_CTRL.EN then s.sendRing (.ring 0x60 [1, tenant, slot] package) else s
          s.complete c 0))

/-- PRG_UNLOAD (R310): the slot is emptied on both heads; runs that hold the image go on with it. -/
def execPrgUnload (c : HostCmd) (tenant slot : Nat) (s : State) : Res :=
  .next (s.programGate c tenant
    (if (s.programAt tenant slot).isNone then s.complete c 0x1001
    else
      have s := s.setProgram tenant slot none
      have s := if s.on Reg.OWN_CTRL.EN then s.sendRing (.ring 0x60 [0, tenant, slot] []) else s
      s.complete c 0))

/-- PROGRAM_TABLE_UPDATE (R310): the peer's load or unload is applied. -/
def execProgramTableUpdate (tenant slot : Nat) (package : Option (List Byte)) (s : State) : Res :=
  if 4096 ≤ tenant ∨ 256 ≤ slot then .next s else .next (s.setProgram tenant slot package)

/-! Ends of runs (R319, R321, R322) -/

/-- A run's handle (R319). -/
def State.handle (s : State) (slot gen : Nat) : Nat := (if s.headB then 2 ^ 31 else 0) + gen % 2 ^ 19 * 4096 + slot

/-- The dwords that a record takes (R320). -/
def PrgRecord.dwords (r : PrgRecord) : Nat := storedLen r.bytes.length / 4

/-- The bytes of a stored record (R320). -/
def PrgRecord.stored (r : PrgRecord) : List Byte :=
  le 2 r.dwords ++ le 2 r.tile ++ le 4 r.seq ++ le 8 r.addr ++ padTo 4 r.bytes

/-- The 64 bytes of the results header (R321): records in this return, dwords still held, run status, TRUNCATED, counters. -/
def resultsHeader (r : Run) (returned held : Nat) (st : NvmeStatus) : List Byte :=
  le 4 returned ++ le 4 held ++ le 2 (st.sct * 256 + st.sc) ++ le 2 (if r.truncated then 1 else 0) ++ zeros 4 ++
    ((List.range 8).flatMap fun k => le 4 (r.counters.getD k 0)) ++ zeros 16

/-- Whether one byte string stands before or at another. -/
def bytesLe : List Byte → List Byte → Bool
  | [], _ => true
  | _ :: _, [] => false
  | a :: x, b :: y => a.toNat < b.toNat || (a == b && bytesLe x y)

/-- The order of index entries (R322): by key bytes, then value. -/
def indexLe (a b : List Byte × Nat × Nat) : Bool := if a.1 == b.1 then decide (a.2.1 ≤ b.2.1) else bytesLe a.1 b.1

/-- The 64 bytes of an index entry (R322). -/
def indexBytes (e : List Byte × Nat × Nat) : List Byte :=
  withCrc (e.1 ++ zeros (32 - e.1.length) ++ [byteOf e.1.length] ++ zeros 7 ++ le 8 e.2.1 ++ le 8 e.2.2 ++ zeros 4)

/-- The completion code of a host run or index build by its run's status (R327); where R327 gives none, a free value. -/
def State.runCode (s : State) (st : NvmeStatus) : Nat × State :=
  if st = success then (0, s)
  else if st.sct = 7 ∧ st.sc = 0xD2 then (0x7011, s)
  else if st.sct = 7 ∧ st.sc = 0xD3 then (0x7012, s)
  else if st.sct = 7 ∧ st.sc = 0xD4 then (0x7013, s)
  else if st.sct = 7 ∧ st.sc = 0xD5 then (0x7010, s)
  else s.fresh

/-- The end of a host run or index build (R322): the sorted entries of a build that succeeded and the header go to the destination, and the
command completes with the bytes written; the run holds nothing. -/
def State.endHostRun (s : State) (slot : Nat) (r : Run) (c : HostCmd) (dest len : Nat) (build : Bool) (st : NvmeStatus) : State :=
  have entries := if build && st == success then (r.adds.map fun a => (a.key, a.value, a.addr)).mergeSort indexLe else []
  have bytes := (entries.flatMap indexBytes).take (len - 64)
  have s := if entries.isEmpty then s else s.sendHost (.hostWrite c.slice (dest + 64) bytes)
  have s := s.sendHost (.hostWrite c.slice dest (resultsHeader r r.delivered 0 st))
  have s := s.addAcct r.tenant { indexed := entries.length }
  have written := if build then bytes.length else r.written
  let (code, s) := s.runCode st
  have s := ({ s with prg.runs := Table.drop slot s.prg.runs }).noteRuns
  match r.tag with
  | some t => s.finish t { sct := ringSct, sc := code, dw0 := written }
  | none => s.complete c code written

/-- A tap is detached (R323): its tiles are free. -/
def State.detachTap (s : State) (slot : Nat) (r : Run) : State :=
  have s := s.postAcct slot r
  ({ s with prg.runs := Table.drop slot s.prg.runs }).noteRuns

/-- A run ends with a status (R318, R319): its tiles are free, its accounting entry is updated, and its command completes; the results of a
scan run stay under its handle. -/
def State.endRun (s : State) (slot : Nat) (st : NvmeStatus) : State :=
  match Table.find slot s.prg.runs with
  | none => s
  | some r =>
    if r.doneAt.isSome then s
    else
      have r := { r with acct := r.acct.plus { failed := if st = success then 0 else 1 } }
      have s := s.postAcct slot r
      have r := { r with
        tiles := []
        spans := []
        acct := {}
        status := some st
        doneAt := some s.clock }
      match r.kind with
      | .scan t =>
        have s := ({ s with prg.runs := Table.put slot r s.prg.runs }).noteRuns
        s.finish t { st with dw0 := s.handle slot r.gen }
      | .host c dest len => s.endHostRun slot r c dest len false st
      | .index c dest len => s.endHostRun slot r c dest len true st
      | .tap _ _ _ => ({ s with prg.runs := Table.drop slot s.prg.runs }).noteRuns

/-- A run that ends before tiles were granted: 0xD0, with DW0 = 0 and no results (R310). -/
def State.endUnstarted (s : State) (slot : Nat) (r : Run) : State :=
  match r.kind with
  | .scan t => ({ s with prg.runs := Table.drop slot s.prg.runs }).finish t (vendor 0xD0)
  | .host c dest len => s.endHostRun slot r c dest len false (vendor 0xD0)
  | .index c dest len => s.endHostRun slot r c dest len true (vendor 0xD0)
  | .tap _ _ _ => { s with prg.runs := Table.drop slot s.prg.runs }

/-! Grants of tiles (R315, R317, R318) -/

/-- The tiles that are in service and held by no run. -/
def State.freeTiles (s : State) : List Nat :=
  (List.range 32).filter fun k => (s.rd Reg.PRG_TILE_INSERVICE.TILES).testBit k && !((s.rd Reg.PRG_TILE_BUSY.TILES).testBit k)

/-- The framing of a package (R316, R317): 0 where it does not use the scan unit. -/
def framing (b : List Byte) : Nat := if pkgFlag b 2 then pkgNum b 0x30 1 else 0

/-- A span of a run (R315, R317): where its first record starts. -/
def firstSpan (b : List Byte) (lo tile a z : Nat) : Span :=
  have len := pkgNum b 0x32 2
  { tile := tile, lo := a, hi := z, pos := a,
    carryAt := if framing b = 1 then lo + (a - lo + len - 1) / len * len else a,
    skip := framing b == 2 && a != lo }

/-- The spans of a byte range: 1 MiB, aligned, clipped (R315). -/
def spanCuts (lo hi : Nat) : List (Nat × Nat) :=
  (List.range ((hi + 1048575) / 1048576 - lo / 1048576)).map fun k =>
    have a := (lo / 1048576 + k) * 1048576
    (max lo a, min hi (a + 1048576))

/-- The tile with the fewest bytes queued; ties go to the first (R315). -/
def leastQueued (spans : List Span) : List Nat → Option Nat
  | [] => none
  | t :: ts =>
    have load (k : Nat) : Nat := ((spans.filter fun (p : Span) => p.tile == k && !p.ended).map fun p => p.hi - p.pos).sum
    match leastQueued spans ts with
    | none => some t
    | some b => if load t ≤ load b then some t else some b

/-- Every span of a range given to a tile of the group (R315). -/
def assignSpans (b : List Byte) (lo : Nat) (tiles : List Nat) (cuts : List (Nat × Nat)) : List Span :=
  cuts.foldl (fun spans c => spans ++ [firstSpan b lo ((leastQueued spans tiles).getD 0) c.1 c.2]) []

/-- A tile as its run starts on it: maps with their initial data, a stack of zeros (R309, R313). -/
def freshTile (b : List Byte) : TileState := { maps := (pkgMaps b).map fun m => m.start b, stack := zeros 4096 }

/-- The parameter block of a Program Run (R318): predicates' constants replaced in the image, tiles asked for, parameters. -/
def withConstants (b block : List Byte) : List Byte :=
  (List.range 4).foldl (fun b k =>
    if (num (slice block 0x20 1)).testBit k then overlay b (0x30 + 8 + 12 * k + 4) (slice block (8 * k) 8) else b) b

/-- The next generation of a run slot: 1 to 2^19 − 1 (R319). -/
def State.nextGen (s : State) (slot : Nat) : Nat :=
  have g := Table.get slot 0 s.prg.gens + 1
  if g < 2 ^ 19 then g else 1

/-- The run slots that are free. -/
def State.freeRunSlot (s : State) : Option Nat := (List.range 4096).find? fun k => !(Table.has k s.prg.runs)

/-- A waiting run is granted tiles and a run slot (R318, R319): min(asked, MAX_TILES, free), never fewer than one. The image is the one in
its slot now (R310). -/
def State.grantRun (s : State) (wait : Nat) (r : Run) (slot : Nat) : State :=
  match s.programAt r.tenant r.slot with
  | none => s.endUnstarted wait r
  | some p =>
    have block := match r.tag.bind s.tag with
      | some c =>
        match r.kind with
        | .scan _ => if c.bytes.isEmpty then c.cap.data else c.bytes
        | .host _ _ _ | .index _ _ _ | .tap _ _ _ => []
      | none => []
    have limit := s.rd Reg.PRG_TENANT_CFG.MAX_TILES r.tenant
    have asked := if block.isEmpty then r.asked else num (slice block 0x21 1)
    have count := max 1 (min (if asked = 0 then limit else asked) limit)
    have tiles := s.freeTiles.take count
    have image := withConstants p.bytes block
    have gen := s.nextGen slot
    have r := { r with
      gen := gen
      image := image
      params := if block.isEmpty then r.params else (block.drop 64).take 4032
      tiles := tiles.map fun t => (t, freshTile image)
      spans := assignSpans image r.lo tiles (spanCuts r.lo r.hi)
      counters := List.replicate 8 0
      startedAt := some s.clock
      acct := { started := 1 }
      acctFrom := s.clock }
    ({ s with
      prg.gens := Table.put slot gen s.prg.gens
      prg.runs := Table.put slot r (Table.drop wait s.prg.runs) }).noteRuns

/-- Whether a waiting run may be granted tiles: its command holds its lock and its parameter block is in. -/
def State.runReady (s : State) (r : Run) : Bool :=
  match r.tag with
  | none => r.ticket.isNone
  | some t =>
    match s.tag t with
    | none => false
    | some c => c.status.isNone && c.state == .running && c.readsLeft == 0 &&
        ((match r.kind with
          | .scan _ => false
          | .host _ _ _ | .index _ _ _ | .tap _ _ _ => true) || decide (c.cap.sglLen ≤ max c.bytes.length c.cap.data.length))

/-- A granted run whose tiles were all fenced takes a free tile for its spans (R325). -/
def State.regrant (s : State) : State :=
  match s.prg.runs.find? fun e => decide (e.1 < 4096) && e.2.startedAt.isSome && e.2.doneAt.isNone && e.2.tiles.isEmpty, s.freeTiles with
  | some e, t :: _ =>
    ({ s with prg.runs := Table.put e.1 { e.2 with
        tiles := [(t, freshTile e.2.image)]
        spans := e.2.spans.map fun (p : Span) => if p.ended then p else { p with
          tile := t
          loc := none
          copy := none
          second := none } } s.prg.runs }).noteRuns
  | _, _ => s

/-- Free tiles and run slots are given to the run that has waited longest (R318); none during an activation pause (R324). -/
def State.grantRuns (s : State) : State :=
  have s := s.regrant
  if s.on Reg.CMD_HOLD.ACTIVATION || s.freeTiles.isEmpty then s
  else
    match s.prg.runs.find? fun e => decide (4096 ≤ e.1) && s.runReady e.2, s.freeRunSlot with
    | some e, some slot => s.grantRun e.1 e.2 slot
    | _, _ => s

/-- A run joins those that wait for tiles. -/
def State.awaitTiles (s : State) (r : Run) : State :=
  have key := s.prg.runs.foldl (fun k e => max k (e.1 + 1)) 4096
  ({ s with prg.runs := Table.put key r s.prg.runs }).grantRuns

/-- TILE_GRANT (R318). -/
def execTileGrant (s : State) : Res := .next s.grantRuns

/-! Starts of runs (R318, R322, R323) -/

/-- PROGRAM_RUN (R318): its parameter block is read, and the run waits for tiles. -/
def execProgramRun (tag : Nat) (s : State) : Res :=
  .next (s.begin tag .programRun fun c s =>
    have here : Bool := c.cls == .forwardedIn || c.cap.sgl == .inCapsule
    have s := if here then s else s.queueRead c.cap.qpn tag 0 c.cap.sglLen
    s.awaitTiles
      { kind := .scan tag, tag := some tag, tenant := c.tenant, slot := c.cap.cdw10, nsid := c.cap.nsid, lo := c.cap.runLba * 4096,
        hi := (c.cap.runLba + c.cap.cdw14) * 4096 })

/-- The checks of HOST_RUN and INDEX_BUILD (R322, R328, R401): the code of the first that fails. -/
def State.hostRunFault (s : State) (p : HostRunParams) (build : Bool) : Option Nat :=
  match Table.find p.nsid s.map.ns with
  | none => some 0x1001
  | some n =>
    if !p.reservedZero || n.tenant != p.tenant || p.len < 64 || 4032 < p.params.length || p.hi ≤ p.lo || n.size * 4096 < p.hi ||
        !(p.snap.all fun i => s.snapNamed p.nsid i) then some 0x1001
    else if !(s.on Reg.PRG_CTRL.EN) || !n.programs || s.rd Reg.PRG_TENANT_CFG.MAX_TILES p.tenant == 0 then some 0x1006
    else
      match s.programAt p.tenant p.slot with
      | none => some 0x1001
      | some q =>
        if pkgFlag q.bytes 4 && !build then some 0x7001
        else if !(s.on Reg.DDP_DOMAIN_CFG.EN p.tenant) then some 0x1005
        else none

/-- A host run or index build starts: on the live namespace it takes a shared lock of it, on a snapshot none (R308), once it has
the tag of its internal work (R77). -/
def State.startHostRun (s : State) (c : HostCmd) (p : HostRunParams) (build : Bool) : State :=
  s.programGate c p.tenant
    (match s.hostRunFault p build with
    | some code => s.complete c code
    | none =>
      have size := ((Table.find p.nsid s.map.ns).map Namespace.size).getD 1
      have cap : Capsule :=
        { qpn := 0, cid := 0, op := if p.snap.isSome then .other else .programRun, nsid := p.nsid, cdw14 := size }
      (s.askInternal { internalCmd .run (some c) p.nsid p.tenant with cap := cap }).awaitTiles
        { kind := if build then .index c p.dest p.len else .host c p.dest p.len, ticket := some s.cmd.order, tenant := p.tenant, slot := p.slot,
          nsid := p.nsid, snap := p.snap, lo := p.lo, hi := p.hi, params := p.params, asked := p.tiles })

/-- HOST_RUN (R322, R401). -/
def execHostRun (c : HostCmd) (params : HostRunParams) (s : State) : Res := .next (s.startHostRun c params false)

/-- INDEX_BUILD (R322, R401). -/
def execIndexBuild (c : HostCmd) (params : HostRunParams) (s : State) : Res := .next (s.startHostRun c params true)

/-- TAP_ATTACH (R323): 1 to 8 free tiles are reserved for the tap, whose records go to the result ring. -/
def execTapAttach (c : HostCmd) (nsid slot tiles dest len : Nat) (s : State) : Res :=
  have tenant := s.tenantOf nsid
  .next (s.programGate c tenant
    (match Table.find nsid s.map.ns, s.programAt tenant slot with
    | some n, some p =>
      if !(decide (1 ≤ tiles ∧ tiles ≤ 8)) || pkgFlag p.bytes 4 || len = 0 then s.complete c 0x1001
      else if !(s.on Reg.PRG_CTRL.TAP_EN) || !n.programs || s.rd Reg.PRG_TENANT_CFG.MAX_TILES tenant < tiles then s.complete c 0x1006
      else
        match s.freeRunSlot with
        | none => s.complete c 0x1004
        | some k =>
          if s.freeTiles.length < tiles then s.complete c 0x1004
          else
            have r : Run :=
              { kind := .tap c dest len, tenant := tenant, slot := slot, image := p.bytes, nsid := nsid, lo := 0, hi := 0,
                tiles := (s.freeTiles.take tiles).map fun t => (t, freshTile p.bytes), counters := List.replicate 8 0,
                startedAt := some s.clock, acct := { started := 1 }, acctFrom := s.clock }
            (({ s with prg.runs := Table.put k r s.prg.runs }).noteRuns).complete c 0
    | _, _ => s.complete c 0x1001))

/-- TAP_DETACH (R323). -/
def execTapDetach (c : HostCmd) (nsid slot : Nat) (s : State) : Res :=
  .next (s.programGate c (s.tenantOf nsid)
    (match s.prg.runs.find? fun e => e.2.nsid == nsid && e.2.slot == slot && match e.2.kind with
        | .tap _ _ _ => true
        | .scan _ | .host _ _ _ | .index _ _ _ => false with
    | some e => (s.detachTap e.1 e.2).complete c 0
    | none => s.complete c 0x1001))

/-! Pieces (R312 to R317, R320, R323) -/

/-- What the main entry runs on: address, bytes, length, context flags, record index. -/
structure Delivery where
  addr  : Nat
  bytes : List Byte
  len   : Nat
  flags : Nat
  index : Nat := 0

/-- The stored record bytes that a run may still keep (R309, R322, R328). -/
def State.roomOf (s : State) (r : Run) : Nat :=
  have kib := pkgNum r.image 0x2C 4
  have limit := if kib = 0 then s.rd Reg.PRG_RUN_LIMIT.DEFAULT_RESULT_MIB * 2 ^ 20 else kib * 1024
  match r.kind with
  | .scan _ =>
    have area := s.rd Reg.PRG_RESULT_SIZE.GIB * 2 ^ 30 - 4 * (s.prg.runs.map fun e => e.2.total).sum
    min (limit - 4 * r.total) area
  | .host _ _ len => min (limit - r.written) (len - 64 - r.written)
  | .index _ _ _ => limit
  | .tap _ _ _ => limit

/-- The entries that an index build takes: destination size ÷ 64 (R322). -/
def Run.addLimit (r : Run) : Nat :=
  match r.kind with
  | .index _ _ len => len / 64
  | .scan _ | .host _ _ _ | .tap _ _ _ => 0

/-- The instructions that one invocation may execute (R309, R314): the budget per invocation, and what is left of the run's. -/
def Run.budget (r : Run) (done : Nat) : Nat :=
  have total := pkgNum r.image 0x20 8
  have one := pkgNum r.image 0x1C 4
  if total = 0 then one else min one (total - (r.instr + done))

/-- One invocation of an entry of the program (R311 to R314), numbered by the free values taken. -/
def State.invoke (s : State) (r : Run) (tile pc : Nat) (d : Delivery) (v : Vm) : VmEnd × Vm × State :=
  have inv := s.free
  have s := { s with free := inv + 1 }
  have e : Invocation :=
    { inv := inv, code := pkgCode r.image,
      ctx := contextBytes inv d.addr d.len d.flags r.nsid tile r.params.length d.index (r.startedAt.getD 0) (!d.bytes.isEmpty),
      params := r.params, data := d.bytes, ro := (pkgMaps r.image).map MapDef.ro, time := s.ringTime, room := s.roomOf r,
      addRoom := r.addLimit, addr := d.addr, tile := tile }
  let (x, v) := Vm.run e (r.budget v.steps) (v.enter inv pc)
  (x, v, s)

/-- The main entry over the deliveries of one piece, in order, until one ends the run. -/
def State.invokeAll (r : Run) (tile pc : Nat) : List Delivery → Vm → State → Option VmEnd × Vm × State
  | [], v, s => (none, v, s)
  | d :: ds, v, s =>
    let (x, v, s) := s.invoke r tile pc d v
    match x with
    | .exited r0 => if r0 = 1 then (some x, v, s) else State.invokeAll r tile pc ds v s
    | _ => (some x, v, s)

/-- Records go to host memory or are kept, once their piece has ended (R320, R322, R323). -/
def State.keepRecords (s : State) (slot : Nat) (r : Run) (recs : List PrgRecord) : State :=
  have bytes := recs.flatMap PrgRecord.stored
  have r := { r with
    total := r.total + bytes.length / 4
    acct := r.acct.plus { kept := recs.length } }
  match r.kind with
  | .scan _ => { s with prg.runs := Table.put slot { r with records := r.records ++ recs } s.prg.runs }
  | .host c dest _ | .index c dest _ =>
    have s := if bytes.isEmpty then s else s.sendHost (.hostWrite c.slice (dest + 64 + r.written) bytes)
    { s with prg.runs := Table.put slot { r with
        delivered := r.delivered + recs.length
        written := r.written + bytes.length
        acct := r.acct.plus { delivered := bytes.length } } s.prg.runs }
  | .tap c dest len =>
    have at_ := r.written % len
    have s := if bytes.isEmpty then s
      else if at_ + bytes.length ≤ len then s.sendHost (.hostWrite c.slice (dest + at_) bytes)
      else (s.sendHost (.hostWrite c.slice (dest + at_) (bytes.take (len - at_)))).sendHost (.hostWrite c.slice dest (bytes.drop (len - at_)))
    { s with prg.runs := Table.put slot { r with
        delivered := r.delivered + recs.length
        written := r.written + bytes.length
        acct := r.acct.plus { delivered := bytes.length } } s.prg.runs }

/-- The event and status of an invocation that does not go on (R311 to R314). -/
def State.invokeEnd (s : State) (tile : Nat) : VmEnd → NvmeStatus × State
  | .exited _ => (success, s)
  | .budget => (vendor 0xD2, s.event 0x7011 (le 4 tile))
  | .memory k a => (vendor 0xD3, s.event 0x7012 (le 4 tile ++ le 4 k ++ le 8 a.toNat))
  | .helper k => (vendor 0xD4, s.event 0x7013 (le 4 tile ++ le 4 k))

/-- A tap that breaks a budget or faults is detached with event 0x7014 (R323); a run ends. -/
def State.stopBy (s : State) (slot tile : Nat) (x : VmEnd) : State :=
  let (st, s) := s.invokeEnd tile x
  match Table.find slot s.prg.runs with
  | none => s
  | some r =>
    match r.kind with
    | .tap _ _ _ => if st = success then s.detachTap slot r else (s.detachTap slot r).event1 0x7014 slot
    | .scan _ | .host _ _ _ | .index _ _ _ => s.endRun slot st

/-- An entry of the program runs over some deliveries of a tile; `bytes` of piece data came with them. The records of a piece that ends
are kept; of one that faults they are not (R320). -/
def State.runPiece (s : State) (slot : Nat) (r : Run) (tile pc bytes : Nat) (ds : List Delivery) : State :=
  have t := Table.get tile {} r.tiles
  have v : Vm := { stack := t.stack, maps := t.maps, seq := t.seq, counters := r.counters, adds := r.adds.map fun a => (a.key, a.value, a.addr) }
  let (x, v, s) := State.invokeAll r tile pc ds v s
  have r := { r with
    tiles := Table.put tile { maps := v.maps, stack := v.stack, seq := v.seq } r.tiles
    counters := v.counters
    adds := v.adds.map fun a => { key := a.1, value := a.2.1, addr := a.2.2 }
    truncated := r.truncated || v.refused
    instr := r.instr + v.steps
    acct := r.acct.plus { instr := v.steps, bytes := bytes } }
  have whole := match x with
    | none | some (.exited _) => true
    | some _ => false
  have recs := if whole then v.recs.map fun e => ({ tile := tile, seq := e.1, addr := e.2.1, bytes := e.2.2 } : PrgRecord) else []
  have s := s.keepRecords slot r recs
  match x with
  | some e => s.stopBy slot tile e
  | none => s

/-- The records that bytes complete, from a record start on, while records belong to the span (R317). -/
def takeRecords (b : List Byte) (belongs : Nat → Bool) (atEnd : Bool) : Nat → Nat → List Byte → List (Nat × List Byte) × Nat × List Byte
  | 0, at_, carry => ([], at_, carry)
  | n + 1, at_, carry =>
    if belongs at_ then
      match nextRecord (framing b) (pkgNum b 0x31 1) (pkgNum b 0x32 2) atEnd carry with
      | some k =>
        let (rs, z, c) := takeRecords b belongs atEnd n (at_ + k) (carry.drop k)
        ((at_, carry.take k) :: rs, z, c)
      | none => ([], at_, carry)
    else ([], at_, carry)

/-- A span after bytes at its position, and the records that they complete (R317). -/
def Span.feed (p : Span) (r : Run) (bytes : List Byte) : List (Nat × List Byte) × Span :=
  have b := r.image
  have z := p.pos + bytes.length
  have delim (x : Byte) : Bool := x.toNat == pkgNum b 0x31 1
  have cut := if p.skip then (bytes.findIdx? delim).map fun k => k + 1 else some 0
  match cut with
  | none => ([], { p with
      pos := z
      carryAt := z
      ended := decide (p.hi ≤ z) })
  | some k =>
    have start := if p.skip then p.pos + k else p.carryAt
    have carry := if p.skip then bytes.drop k else if p.carry.isEmpty then bytes.drop (p.carryAt - p.pos) else p.carry ++ bytes
    have belongs (a : Nat) : Bool := decide (a < p.hi) || (framing b == 2 && a == p.hi && decide (p.hi < r.hi))
    let (rs, a, c) := takeRecords b belongs (decide (r.hi ≤ z)) (carry.length + 1) start carry
    (rs, { p with
      pos := z
      skip := false
      carryAt := a
      carry := c
      record := p.record + rs.length
      ended := decide (r.hi ≤ z) || (decide (p.hi ≤ z) && !(belongs a)) })

/-- The end of what a span reads next (R315, R317): its own end; beyond it, as far as its last record can reach. -/
def Span.limit (p : Span) (r : Run) : Nat :=
  if p.pos < p.hi then p.hi else min r.hi (p.carryAt + pkgNum r.image 0x32 2)

/-- The root that a run reads: the namespace's, or its snapshot's. -/
def State.runRoot (s : State) (r : Run) : Nat :=
  match r.snap with
  | some i => ((s.snap r.nsid i).map Snapshot.root).getD 0
  | none => ((Table.find r.nsid s.map.ns).map Namespace.root).getD 0

/-- Whether an extent becomes a piece with ZERO set (R315). -/
def Loc.reads0 : Loc → Bool
  | .unmapped | .zero => true
  | .cache .. | .flash .. | .remote .. | .lost .. | .image _ => false

/-- What a piece delivers to the main entry with framing 0 (R315, R317): the piece itself where the scan unit passes it. -/
def wholePiece (b : List Byte) (addr : Nat) (bytes : List Byte) (zero tap : Bool) : List Delivery :=
  have flags := (if zero then 1 else 0) + if tap then 8 else 0
  if tap || !(pkgFlag b 2) || passes b bytes then
    [{ addr := addr, bytes := if zero && !(pkgFlag b 1) then [] else bytes, len := bytes.length, flags := flags }]
  else []

/-- The extent that a tile's span reads next (R315). -/
def State.nextExtent (s : State) (r : Run) (p : Span) : Option Extent := (s.resolve (s.runRoot r) p.pos (p.limit r)).head?

/-- The read path fetches the container of the piece that a tile's span reads next (R315); a piece of zeros needs none. -/
def State.fetchSpan (s : State) (slot tile : Nat) : State :=
  match Table.find slot s.prg.runs, s.spanOf slot tile with
  | some r, some p =>
    match s.nextExtent r p with
    | none => s
    | some e =>
      if r.startedAt.isNone || r.doneAt.isSome || p.loc.isSome || e.loc.reads0 then s
      else (s.modSpan slot tile fun p => { p with loc := some e.loc }).fetchCopy (.span slot tile) e.loc false
  | _, _ => s

/-- Every tile of a run fetches its next piece. -/
def State.fetchSpans (s : State) (slot : Nat) : State :=
  match Table.find slot s.prg.runs with
  | none => s
  | some r => (r.tiles.map Prod.fst).foldl (fun s t => s.fetchSpan slot t) s

/-- A piece's bytes are framed and filtered, and the program runs on what they complete (R315 to R317). -/
def State.spanBytes (s : State) (slot : Nat) (r : Run) (i tile : Nat) (p : Span) (bytes : List Byte) (zero : Bool) : State :=
  have p := { p with
    loc := none
    copy := none
    second := none }
  have pc := pkgNum r.image 8 4
  have n := if zero then 0 else bytes.length
  have s := if framing r.image = 0 then
      have q := { p with
        pos := p.pos + bytes.length
        ended := decide (p.hi ≤ p.pos + bytes.length) }
      s.runPiece slot { r with spans := r.spans.set i q } tile pc n (wholePiece r.image p.pos bytes zero false)
    else
      let (recs, q) := p.feed r bytes
      have numbered := recs.zipIdx p.record
      have good := numbered.filter fun x => passes r.image x.1.2
      s.runPiece slot { r with spans := r.spans.set i q } tile pc n
        (good.map fun x => { addr := x.1.1, bytes := x.1.2, len := x.1.2.length, flags := 2, index := x.2 })
  s.fetchSpan slot tile

/-- A container of a piece failed for the first time (R140): it is fetched once more from a second source. -/
def State.spanSecond (s : State) (slot tile : Nat) (r : Run) (loc : Loc) (code : Nat) : State :=
  have s := (s.countDecode code).modSpan slot tile fun p => { p with second := some code, copy := none }
  match loc with
  | .cache .. => s.sendRing (.ring 0x42 [s.rd Reg.XRN_ADDR.ASSIGNED, r.tag.getD 0, tile] loc.bytes)
  | _ => s.fetchCopy (.span slot tile) loc true

/-- A dummy round gave a wrong result while a piece was decrypted (R156): its run ends with 0x320C recorded and a status that the spec does not
state. -/
def State.spanFault (s : State) (slot tenant : Nat) : State :=
  let (v, s) := s.fresh
  ((s.bump Reg.BND_CIPHER_FAULT.COUNT).event1 0x320C tenant).endRun slot (openStatus v)

/-- A piece of a run's span reaches its tile (R139, R140, R315): its container is decoded. -/
def State.spanPiece (s : State) (slot : Nat) (r : Run) (tile : Nat) (faults : PieceFaults) : State :=
  match r.spans.findIdx? fun p => p.tile == tile && !p.ended, s.spanOf slot tile with
  | some i, some p =>
    match s.nextExtent r p with
    | none => s
    | some e =>
      if e.loc.reads0 then s.spanBytes slot r i tile p (zeros e.len) true
      else if p.lost then s.endRun slot (media 0x81)
      else
        match p.copy with
        | none => s.fetchSpan slot tile
        | some copy =>
          have loc := p.loc.getD e.loc
          have bad := p.second.isNone && loc.inCache && faults.ddr
          have s := if bad then s.noteUncorr (s.cacheAddr loc) else s
          have copy := if bad || (p.second.isNone && s.cacheLost loc) then none else copy
          match s.decodeContainer r.tenant loc.size (copy.getD []) with
          | .ok plain =>
            have s := match p.second with
              | some first => s.event1 first r.tenant
              | none => s
            if s.dummyFails faults.fault then s.spanFault slot r.tenant
            else s.spanBytes slot r i tile p (slice plain e.off e.len) false
          | .error (.key code) => (s.event1 code r.tenant).endRun slot (vendor 0xE1)
          | .error (.damage code) =>
            match p.second with
            | none => s.spanSecond slot tile r loc code
            | some first => (((s.countDecode code).event1 first r.tenant).event1 code r.tenant).endRun slot (vendor 0xE0)
  | _, _ => s

/-- PIECE_DELIVER (R315 to R317, R323): a piece reaches a tile of a run, is framed and filtered, and the program runs on it. A piece whose
container is still on its way is asked for and changes nothing else. A tap's tile takes the chunk that has waited longest at it. -/
def execPieceDeliver (run tile : Nat) (faults : PieceFaults) (s : State) : Res :=
  match Table.find run s.prg.runs with
  | none => .next s
  | some r =>
    if r.startedAt.isNone || r.doneAt.isSome || !(Table.has tile r.tiles) || s.prg.frozenAt.isSome then .next s
    else
      match r.kind with
      | .tap _ _ _ =>
        match r.taps.find? fun x => x.1 == tile with
        | none => .next s
        | some x =>
          .next (s.runPiece run { r with taps := r.taps.erase x } tile (pkgNum r.image 8 4) x.2.2.length (wholePiece r.image x.2.1 x.2.2 false true))
      | .scan _ | .host _ _ _ | .index _ _ _ => .next (s.spanPiece run r tile faults)

/-- BUDGET_EXCEEDED (R314, R323): a run's time budget has passed. -/
def execBudgetExceeded (run : Nat) (s : State) : Res :=
  match Table.find run s.prg.runs with
  | none => .next s
  | some r => if r.startedAt.isNone || r.doneAt.isSome then .next s else .next (s.stopBy run ((r.tiles.map Prod.fst).headD 32) .budget)

/-! Completion and results (R318 to R321) -/

/-- The finish entry runs on a tile (R309, R320): its records carry the address of all ones. -/
def State.finishTile (s : State) (slot tile : Nat) : State :=
  match Table.find slot s.prg.runs with
  | none => s
  | some r =>
    if r.doneAt.isSome then s
    else s.runPiece slot r tile (pkgNum r.image 0x0C 4) 0 [{ addr := 2 ^ 64 - 1, bytes := [], len := 0, flags := 4 }]

/-- RUN_COMPLETE (R318): every span has ended; each tile's finish entry runs, and the run completes. -/
def execRunComplete (run : Nat) (s : State) : Res :=
  match Table.find run s.prg.runs with
  | none => .next s
  | some r =>
    have tap := match r.kind with
      | .tap _ _ _ => true
      | .scan _ | .host _ _ _ | .index _ _ _ => false
    if tap || r.startedAt.isNone || r.doneAt.isSome || !(r.spans.all Span.ended) then .next s
    else
      have s := if pkgFlag r.image 3 then (r.tiles.map Prod.fst).foldl (fun s t => s.finishTile run t) s else s
      .next (s.endRun run success)

/-- The records that fit a return of some dwords, oldest first, whole (R321). -/
def takeWhole : Nat → List PrgRecord → List PrgRecord
  | _, [] => []
  | room, r :: rs => if r.dwords ≤ room then r :: takeWhole (room - r.dwords) rs else []

/-- PROGRAM_RESULTS (R321): 0xD7 where the handle names no run of the tenant that holds results here, 0xD6 where the next record does not
fit; else the header and whole records. -/
def execProgramResults (tag : Nat) (s : State) : Res :=
  .next (s.begin tag .programResults fun c s =>
    have h := c.cap.cdw10
    have slot := h % 4096
    match Table.find slot s.prg.runs with
    | none => s.finish tag (vendor 0xD7)
    | some r =>
      have isScan := match r.kind with
        | .scan _ => true
        | .host _ _ _ | .index _ _ _ | .tap _ _ _ => false
      if r.doneAt.isNone || !isScan || s.handle slot r.gen != h || r.tenant != c.tenant then s.finish tag (vendor 0xD7)
      else
        have room := c.cap.cdw11 + 1
        have next := ((r.records.head?).map PrgRecord.dwords).getD 0
        if room < 16 + next then s.finish tag (vendor 0xD6)
        else
          have recs := takeWhole (room - 16) r.records
          have rest := r.records.drop recs.length
          have held := (rest.map PrgRecord.dwords).sum
          have bytes := recs.flatMap PrgRecord.stored
          have left := { r with
            records := rest
            total := held }
          have s := { s with prg.runs := if rest.isEmpty then Table.drop slot s.prg.runs else Table.put slot left s.prg.runs }
          have s := s.noteRuns.addAcct r.tenant { delivered := bytes.length }
          have s := s.sendResult tag c (resultsHeader r recs.length held (r.status.getD success) ++ bytes)
          s.finish tag { success with dw0 := 16 + bytes.length / 4 })

/-- RESULT_KEEP_EXPIRY (R319): a completed run's results are discarded and its slot is free; event 0x7015 if records were left. -/
def execResultKeepExpiry (run : Nat) (s : State) : Res :=
  match Table.find run s.prg.runs with
  | none => .next s
  | some r =>
    if r.doneAt.isNone then .next s
    else
      have s' := ({ s with prg.runs := Table.drop run s.prg.runs }).noteRuns
      .next (if r.records.isEmpty then s' else s'.event1 0x7015 (s.handle run r.gen))

/-! Tile fencing (R325) -/

/-- A run goes on without a tile (R325): a stateless one gives the tile's unended spans again from their start to another tile of its
group, or to the next tile granted; any other ends with 0xD5. A tap goes on with its other tiles. -/
def State.leaveTile (s : State) (slot tile : Nat) (r : Run) : State :=
  have tiles := Table.drop tile r.tiles
  match r.kind with
  | .tap _ _ _ =>
    have r := { r with
      tiles := tiles
      taps := r.taps.filter fun x => x.1 != tile }
    if tiles.isEmpty then (s.detachTap slot r).event1 0x7014 slot
    else ({ s with prg.runs := Table.put slot r s.prg.runs }).noteRuns
  | .scan _ | .host _ _ _ | .index _ _ _ =>
    if pkgFlag r.image 0 then
      have again (spans : List Span) (p : Span) : List Span :=
        if p.tile = tile ∧ !p.ended then spans ++ [firstSpan r.image r.lo ((leastQueued spans (tiles.map Prod.fst)).getD 32) p.lo p.hi]
        else spans ++ [p]
      have r := { r with
        tiles := tiles
        spans := r.spans.foldl again [] }
      (({ s with prg.runs := Table.put slot r s.prg.runs }).noteRuns).regrant
    else s.endRun slot (vendor 0xD5)

/-- The run a tile works on, if any, goes on without it or ends (R325). -/
def State.leaveRun (s : State) (tile : Nat) : State :=
  match s.prg.runs.find? fun e => Table.has tile e.2.tiles with
  | none => s
  | some e => s.leaveTile e.1 tile e.2

/-- A tile's bits of a fence (R325): out of PRG_TILE_INSERVICE, in PRG_TILE_FENCED. -/
def State.markFenced (s : State) (tile : Nat) : State :=
  have inS := s.rd Reg.PRG_TILE_INSERVICE.TILES
  have s := s.wr Reg.PRG_TILE_INSERVICE.TILES (inS - (inS &&& 2 ^ tile))
  s.wr Reg.PRG_TILE_FENCED.TILES (s.rd Reg.PRG_TILE_FENCED.TILES ||| 2 ^ tile)

/-- A tile leaves service and is fenced (R325): event 0x7010, and the run on it goes on or ends. -/
def State.fenceTile (s : State) (tile : Nat) : State := (((s.markFenced tile).event1 0x7010 tile).leaveRun tile)

/-- TILE_FENCE (R325). -/
def execTileFence (tile : Nat) (s : State) : Res := if 32 ≤ tile then .next s else .next (s.fenceTile tile)

end Sys2Proof.Machine
end

