-- ==== Sys2Proof/Machine/Faults.lean ====
section
/-!
DEFINITION. Machine/Faults.lean: quarter faults and the waking of quarters (chapters 01, 15 and 17): what covers a fault of each kind, what a
standby takes up when it becomes Active, and the faults that heat and ageing bring.
-/
namespace Sys2Proof.Machine
open Sys2Proof

/-- The leaf lanes of a QL quarter (R18). -/
def leafLanesOf (q : Nat) : List Nat := (List.range 8).map fun k => 8 * (q - 26) + k

/-- What a fenced QL, QG or QX quarter takes with it (R18): its 8 leaf lanes go down, whose leaves the peer's path then covers; or its ring
port's links, whose traffic the other ring port carries; or its 8 tiles are fenced (R325). -/
def State.cutLinks (s : State) (q : Nat) : State :=
  match quarterKind q with
  | .ql => (leafLanesOf q).foldl (fun s l => s.dropHop l 0) s
  | .qg =>
    have port := q - 30
    [2 * port, 2 * port + 1].foldl (fun s l => if (s.link l).state = .down then s else s.ringLinkDown l 0) s
  | .qx => (List.range 8).foldl (fun s k => s.fenceTile (8 * (q - 36) + k)) s
  | .qa | .qe | .qt | .qc | .qb | .qm | .qs | .qd | .qk => s

/-- The job of TST_CMD ends with 0xB003 at a fault of a quarter (R463). -/
def State.abandonTest (s : State) (q : Nat) : State :=
  ((({ s with test.job := none }).event1 0xB003 q).wr Reg.TST_RESULT.STATUS 0xB003).wr Reg.TST_RESULT.BUSY 0

/-- The job of TST_CMD after a fault of a quarter (R463): a rotation whose waking standby faults is abandoned with 0xB003, one whose tested
quarter faults is over; a standby's or a quarter's own test fails. `waking` tells whether the quarter was waking. -/
def State.faultMeetsTest (s : State) (q : Nat) (waking : Bool) : State :=
  match s.test.job with
  | some (.rotation a b) =>
    if q = b then (if waking then s.abandonTest q else s)
    else if q = a then (({ s with test.job := none }).wr Reg.TST_RESULT.BUSY 0) else s
  | some (.standby b) | some (.direct b) => if q = b then s.abandonTest q else s
  | some (.unit ..) | none => s

/-- What a standby takes up when it becomes Active in place of a failed quarter (R461): QC goes on with the commands that restart from decode;
QS reads the live entries of the sewing log, where it has a copy, to apply R196 to the signatures sewn and not complete; what waited for QT's
role leaves. -/
def State.takeUpWaking (s : State) (failed duty : Nat) : State :=
  match quarterKind failed with
  | .qc => s.redecode
  | .qs =>
    match s.sig.copies.find? fun c => c.valid with
    | some c => ({ s with sig.retake := some duty }).scanLog c.leaf (if s.headB then 1 else 0) 0
    | none => s
  | .qt => (List.range 16).foldl State.releasePackets s
  | .qa | .qe | .qb | .qm | .ql | .qg | .qd | .qx | .qk => s

/-- Whether another quarter has taken over from one that still drains or is to be tested (R462, R463). -/
def State.handedOver (s : State) (q : Nat) : Bool :=
  have x := s.quarter q
  (quarterKind q).hasStandby && x.state == .closing && match s.test.job with
    | some (.rotation a b) => q == a && (s.quarter b).state == .active
    | some (.standby _) | some (.direct _) | some (.unit ..) | none => x.role == .underTest

/-- A quarter under rotation that faults while it drains: the standby is already Active and takes the work under R461, with event 0xB005 and no
refill time (R463). Any other fault is covered as R18 has it. -/
def State.rotationCover (s : State) (q : Nat) : State :=
  if s.handedOver q then
    have duty := (s.quarter q).duty
    have by_ := ((quarterKind q).members.find? fun y => y != q && (s.quarter y).state == .active && (s.quarter y).duty == duty).getD q
    (((s.fenceOnly q).event 0xB005 (le 4 q ++ le 4 by_ ++ le 8 0)).takeUpWork q).takeUpWaking q duty
  else s.fence q

/-- A quarter faults (R18, R19, R433, R463): it is fenced at once, and its work is covered; the test that it meets is settled. -/
def State.quarterFault (s : State) (q : Nat) : State :=
  if q = 0 then s.headLoss
  else
    have x := s.quarter q
    have t := s.rotationCover q
    have t := if x.state = .fenced then t else t.cutLinks q
    (t.faultMeetsTest q (x.state == .waking)).pumpLanes

/-- A recall is not acknowledged within 2 µs (R428): event 0x9005, and the quarter is fenced. -/
def execRecallTimeout (quarter : Nat) (s : State) : Res :=
  if s.power.recalls.any fun l => l.quarter == quarter then .next ((s.event1 0x9005 quarter).quarterFault quarter)
  else .next s

/-- A quarter faults (R433); a waiting SQR_Q_CMD on it ends with 0x9031. -/
def execQuarterFault (quarter : Nat) (cause : QuarterFaultCause) (s : State) : Res :=
  have s := match cause with
    | .clock => s.event1 0x9008 quarter
    | .recall => s.event1 0x9005 quarter
    | .logic | .overcurrent | .canary => s
  have busy := s.on Reg.SQR_Q_RESULT.BUSY && s.rd Reg.SQR_Q_CMD.QUARTER == quarter
  have s := s.quarterFault quarter
  .next (if busy then (s.wr Reg.SQR_Q_RESULT.STATUS 0x9031).wr Reg.SQR_Q_RESULT.BUSY 0 else s)

/-- A quarter clock is more than 1 % off for 1 µs (R431): event 0x9008, and the quarter is fenced. -/
def execQuarterClockFault (quarter : Nat) (s : State) : Res :=
  if (s.quarter quarter).state.clocked then .next ((s.event1 0x9008 quarter).quarterFault quarter) else .next s

/-! Waking -/

/-- A waking quarter becomes Active (R424): its units enter service, its voltage stands at its last planned VOLT and is
the planner's floor, a takeover is recorded with event 0xB005, a rotation goes on, and a queued wake starts. -/
def execQuarterWakeDone (quarter : Nat) (s : State) : Res :=
  have x := s.quarter quarter
  if x.state = .waking then
    have role := if x.wakeTest then .underTest else x.role
    have s := s.setQuarter quarter { x with state := .active, takesFor := none, wakeTest := false, role := role }
    have s := if x.wakeTest then s else s.unitsIn quarter
    have s := s.endQCmd quarter 0
    have v := s.rd Reg.TMP_AGE.VOLT quarter
    have s := { s with
      power.plans := Table.upd quarter {} (fun p => { p with floor := v }) s.power.plans }
    have s := match x.takesFor with
      | some f =>
        have s := s.event 0xB005 (le 4 f ++ le 4 quarter ++ le 8 (s.clock - x.fencedAt))
        s.takeUpWaking f x.duty
      | none => s
    have s := match s.test.job with
      | some (.rotation a b) => if b = quarter then (s.rotateNow a).setQuarter b { s.quarter b with role := .active, duty := (s.quarter a).duty } else s
      | _ => s
    .next (match s.power.wakeQueue with
      | [] => s
      | q :: r => ({ s with power.wakeQueue := r }).wake q)
  else .next s

/-! Heat and ageing -/

/-- Every switched quarter is fenced and its links go down. -/
def State.darkenAll (s : State) : State := (List.range 41).foldl (fun s k => s.cutLinks (k + 1)) s.fenceAll

/-- THERMTRIP_N is driven low, and the trip is remembered over the next reset (R434). -/
def State.markTrip (s : State) : State := { s with pins.thermtripN := false, nor.lastTrip := true }

/-- A thermal trip (R434): every switched quarter is fenced and its links go down, THERMTRIP_N is driven low, event 0x9013, and the head is
lost; the trip is remembered over the next reset. -/
def State.thermalTrip (s : State) : State :=
  ((s.darkenAll.markTrip).event 0x9013).headLoss

/-- What a change of the thermal state brings about (R434). -/
def State.thermalChange (s : State) (old new : Thermal) : State :=
  if old = new then s
  else
    match new with
    | .normal => s.event 0x9011
    | .derating => if old = .normal then s.event 0x9010 else s
    | .critical => (s.event 0x9012).recallUpper
    | .trip => s.thermalTrip

/-- The sensors are sampled (R434, R435): the hottest in use sets the thermal state and limit. -/
def execThermalSample (temps : List Int) (s : State) : Res :=
  have s := (List.range 64).foldl (fun s k => s.sampleSensor temps k) s
  have h := s.hottest temps
  have s := s.showHottest h.1 h.2
  have old := s.power.thermal
  have new := nextThermal (s.rd Reg.TMP_CFG.DERATE_C) (s.rd Reg.TMP_CFG.CRIT_C) old h.1
  .next ((s.setThermal h.1 new).thermalChange old new).settleBudget

/-- A canary reports negative slack (R436): the quarter's voltage rises by 10 mV, two codes; at the ceiling it is a fault
of the quarter. -/
def execCanaryError (quarter : Nat) (s : State) : Res :=
  have v := s.rd Reg.TMP_AGE.VOLT quarter
  if 30 ≤ v then .next (s.quarterFault quarter)
  else
    have s := s.setVolt quarter (min 30 (v + 2))
    have s := (s.raise Reg.TMP_AGE.CANARY 1 quarter).bump Reg.TMP_AGE_STAT.CANARY
    .next (s.event1 0x9021 quarter)

end Sys2Proof.Machine
end

