-- ==== Sys2Proof/Machine/Host.lean ====
section
/-!
DEFINITION. Machine/Host.lean: the meanings of chapter 14: the PCIe function, doorbells and fetching, slices, rings, queue
pairs and regions by ring command, frames, and the DMA engine.
-/
namespace Sys2Proof.Machine
open Sys2Proof

/-! The function -/

/-- The work of the host's slices on the objects of the data path ends, and the objects stay (R384). -/
def State.dropObjectWork (s : State) : State :=
  { s with
    bnd.jobs := []
    keys.sweeps := Table.mapVals (fun _ _ => []) s.keys.sweeps
    trn.regions := Table.mapVals (fun _ (r : Region) => { r with invalidating := [] }) s.trn.regions }

/-- The host interface at its reset values: the registers of CHI and DMA with their holding registers, slices, rings, channels, the MSI-X
table (R384, R502). -/
def State.clearHost (s : State) (linkDown : Bool) : State :=
  { s with
    regs := s.regs.filter fun e => keyBlock e.1 != 6 && keyBlock e.1 != 7
    holding.upper := s.holding.upper.filter fun e => e.1 != 6 && e.1 != 7
    hostWait := []
    host := { linkUp := s.host.linkUp && !linkDown, held := ⟨0x1011, 0, s.ringTime⟩ :: s.host.held } }

/-- A function reset (R384, R480): every slice returns to Free with nothing of its work left, CHI and DMA return to their reset
values with their locks, the MSI-X table is cleared, and every object of the data path stays. Event 0x1011 heads the events
that wait for slice 0. -/
def State.functionReset (s : State) (linkDown : Bool) : State :=
  have slices := s.host.slices.map Prod.fst
  have s := slices.foldl State.muteWork s
  have s := s.dropRuns fun r => match r.kind with
    | .scan _ => false
    | _ => true
  have locks := s.rd Reg.OLD_LOCK_STATUS.LOCKED
  have link := (s.rd Reg.CHI_LINK.SPEED, s.rd Reg.CHI_LINK.WIDTH, s.rd Reg.CHI_LINK.FLIT)
  have s := s.dropObjectWork.clearHost linkDown
  have s := (s.wr Reg.OLD_LOCK_STATUS.LOCKED (locks - (locks &&& 0x60))).raise Reg.OLD_RESET_CAUSE.FUNC
  if linkDown then s
  else
    ((s.wr Reg.CHI_LINK.SPEED link.1).wr Reg.CHI_LINK.WIDTH link.2.1).wr Reg.CHI_LINK.FLIT link.2.2
      |>.wr Reg.CHI_LINK.UP (if s.host.linkUp then 1 else 0)

/-- PCIE_PERST_N is asserted (R494): the link goes to DL_Down, which is a function reset. -/
def execPciePerstAssert (s : State) : Res := .next (({ s with pins.perstN := false }).functionReset true)

/-- PCIE_PERST_N is released (R494): the endpoint trains at the rate and width given and answers configuration. -/
def execPciePerstRelease (speed width : Nat) (s : State) : Res :=
  have s := { s with pins.perstN := true, host.linkUp := true }
  have s := (s.wr Reg.CHI_LINK.SPEED speed).wr Reg.CHI_LINK.WIDTH width
  .next ((s.wr Reg.CHI_LINK.FLIT (if speed = 6 then 1 else 0)).wr Reg.CHI_LINK.UP 1)

/-- A function reset (R384). -/
def execFunctionReset (cause : FuncResetCause) (s : State) : Res :=
  .next (s.functionReset (match cause with
    | .dlDown => true
    | .flr | .hotReset => false))

/-- Whether a burst in flight uses a host address (R385). -/
def State.hostBursts (s : State) : Bool :=
  s.host.channels.any fun e => e.2.cur.any fun x => !x.flight.isEmpty && (x.desc.srcSpace == .host || x.desc.dstSpace == .host)

/-- An ATS invalidation completes once every request that used the translation has completed (R385). -/
def execAtsInvalidate (tag : Nat) (s : State) : Res :=
  if s.hostBursts then .next { s with host.ats := s.host.ats ++ [tag] } else .next (s.send (.atsDone tag))

/-- The invalidations that wait complete where no request is left that used a translation (R385). -/
def State.settleAts (s : State) : State :=
  if s.hostBursts then s else (({ s with host.ats := [] }).sendAll (s.host.ats.map Out.atsDone))

/-- A transfer's oldest burst has failed (R413): no further burst is issued, and the transfer ends with the status and the
burst's offset. -/
def State.failBurst (s : State) (c code : Nat) : State :=
  have ch := s.channel c
  match ch.cur with
  | none => s
  | some x =>
    match x.flight with
    | [] => s
    | (off, _) :: _ =>
      ((s.setChannel c { ch with cur := some { x with failed := some (code, off), flight := [] } }).settleChannel c).settleAts

/-- A host request is refused or fails (R385): the ring command completes with 0x1007, or the transfer ends with 0x2006, and
the request is logged through AER. -/
def execHostRequestFailed (owner : HostReqOwner) (s : State) : Res :=
  have s := s.send (.aer 0)
  match owner with
  | .ringCmd c => .next (s.complete c 0x1007)
  | .dma channel => .next (s.failBurst channel 0x2006)

/-- A vector of the MSI-X table is written (R382): unmasking sends a pending message. -/
def execMsixTableWrite (vector address data : Nat) (masked : Bool) (s : State) : Res :=
  if 4096 ≤ vector then .next s
  else
    have e := Table.get vector {} s.host.msix
    have s := { s with host.msix := Table.put vector { e with address := address, data := data, masked := masked } s.host.msix }
    if e.pending && !masked && !s.host.d3hot then
      .next (({ s with host.msix := Table.put vector { address := address, data := data, masked := masked } s.host.msix }).send
        (.msix vector address data))
    else .next s

/-- The function moves between D0 and D3hot (R381): in D3hot it issues no request; back in D0 what waited is issued, pending
vectors fire and channels go on. -/
def execD3hotTransition (hot : Bool) (s : State) : Res :=
  if hot then .next { s with host.d3hot := true }
  else if s.host.d3hot then
    have s := ({ s with host.d3hot := false, hostWait := [] }).sendAll s.hostWait
    have due := s.host.msix.filter fun e => e.2.pending && !e.2.masked
    have s := due.foldl (fun s e =>
      ({ s with host.msix := Table.put e.1 { e.2 with pending := false } s.host.msix }).send (.msix e.1 e.2.address e.2.data)) s
    .next ((s.host.channels.map Prod.fst).foldl State.runChannel s)
  else .next s

/-! Doorbells and fetching -/

/-- An invalid doorbell write (R393): it is counted, and event 0x1002 goes to the slice. -/
def State.badDoorbell (s : State) (n ring : Nat) : State := (s.bump Reg.CHI_DB_ERR.COUNT).postObject n 0x1002 ring

/-- Whether a slice takes doorbells (R393). -/
def Slice.takesDoorbells (sl : Slice) : Bool := sl.state == .created || sl.state == .active

/-- The slice whose 4 KiB doorbell page holds a BAR2 offset (R9). -/
def pageSlice (offset : Nat) : Nat := offset / 0x1000

/-- The ring that an offset of a doorbell page names, where a doorbell stands there (R393): the SQ tail at 16 × r, the CQ head at 16 × r + 8,
for r from 0 to 63. -/
def pageRing (offset : Nat) (head : Bool) : Option Nat :=
  have at_ := offset % 0x1000
  if at_ < 1024 ∧ at_ % 16 = (if head then 8 else 0) then some (at_ / 16) else none

/-- The SQ tail doorbell of a slice's ring (R393). -/
def State.sqDoorbell (s : State) (slice ring index : Nat) : Res :=
  match Table.find slice s.host.slices with
  | none => .next (s.badDoorbell slice ring)
  | some sl =>
    match Table.find ring sl.rings with
    | none => .next (s.badDoorbell slice ring)
    | some r =>
      if sl.takesDoorbells && decide (index < 2 ^ r.sqLog2) then .next (s.setRing slice sl ring { r with sqTail := index })
      else .next (s.badDoorbell slice ring)

/-- SQ_TAIL_DOORBELL (R9, R393): a write to an SQ tail of BAR2, the index in bits [15:0]. The rest of a page is reserved. A write
that is no aligned 4-byte or 8-byte access is dropped and logged through AER (R383). -/
def execSqTailDoorbell (offset size value : Nat) (s : State) : Res :=
  if !(goodSize offset size) then .next (s.send (.aer 0)) else
  match pageRing offset false with
  | some r => if pageSlice offset < 1024 then s.sqDoorbell (pageSlice offset) r (value % 65536) else .next s
  | none => .next s

/-- The CQ head doorbell of a slice's ring (R393, R395): entries are freed, and the CQ is armed again. -/
def State.cqDoorbell (s : State) (slice ring index : Nat) : Res :=
  match Table.find slice s.host.slices with
  | none => .next (s.badDoorbell slice ring)
  | some sl =>
    match Table.find ring sl.rings with
    | none => .next (s.badDoorbell slice ring)
    | some r =>
      have size := 2 ^ r.cqLog2
      if sl.takesDoorbells && decide (index < size) then
        have n := (index + size - r.cqHead) % size
        .next ((s.setRing slice sl ring { r with
          cqHead := index
          waiting := r.waiting.drop n
          armed := true }).pollRing slice ring)
      else .next (s.badDoorbell slice ring)

/-- CQ_HEAD_DOORBELL (R9, R393, R395): a write to a CQ head of BAR2, as for the SQ tail. -/
def execCqHeadDoorbell (offset size value : Nat) (s : State) : Res :=
  if !(goodSize offset size) then .next (s.send (.aer 0)) else
  match pageRing offset true with
  | some r => if pageSlice offset < 1024 then s.cqDoorbell (pageSlice offset) r (value % 65536) else .next s
  | none => .next s

/-- Whether an opcode is one of R397. -/
def knownOpcode (op : Nat) : Bool :=
  decide ((1 ≤ op ∧ op ≤ 5) ∨ (0x10 ≤ op ∧ op ≤ 0x16) ∨ op = 0x20 ∨ op = 0x21 ∨ (0x30 ≤ op ∧ op ≤ 0x36) ∨ (0x40 ≤ op ∧ op ≤ 0x43) ∨
    op = 0x50 ∨ op = 0x51 ∨ (0x60 ≤ op ∧ op ≤ 0x63) ∨ (0x70 ≤ op ∧ op ≤ 0x75) ∨ (0x80 ≤ op ∧ op ≤ 0x82))

/-- Whether a ring of a slice has an entry, a CQ entry and a credit to start it with (R394, R396). -/
def Slice.fetchable (sl : Slice) (k : Nat) (r : Ring) : Bool :=
  have kept := if k = 0 then 16 else 0
  have used := (r.waiting.countP fun e => k != 0 || !e.2.2) + sl.started.countP fun st => st.ring == k
  r.sqHead != r.sqTail && decide (used + kept < 2 ^ r.cqLog2) && decide (sl.creditsUsed < sl.credits)

/-- Whether it is a ring's turn (R394): no ring of a higher priority can be served, and none of its own that comes before it in the round
after the ring last served. -/
def Slice.turnOf (sl : Slice) (k : Nat) (r : Ring) : Bool :=
  have place (n : Nat) : Nat := (n + 63 - sl.served) % 64
  !(sl.rings.any fun e => sl.fetchable e.1 e.2 && (decide (r.prio < e.2.prio) || (r.prio == e.2.prio && decide (place e.1 < place k))))

/-- An SQ entry is fetched and started (R394, R398): in ring order, from the highest priority that has one, round robin within it, with a CQ entry
and a credit reserved; a fenced entry once every earlier one of its ring has completed; none during an activation pause. An
entry cancelled before its fetch has had its completion (R402). -/
def execSqFetch (slice ring : Nat) (entry : SqEntry) (s : State) : Res :=
  match Table.find slice s.host.slices with
  | none => .next s
  | some sl =>
    match Table.find ring sl.rings with
    | none => .next s
    | some r =>
      have ok := sl.fetching && sl.takesDoorbells && !(s.on Reg.CMD_HOLD.ACTIVATION) && !s.host.d3hot && sl.fetchable ring r && sl.turnOf ring r &&
        !(entry.fence && sl.started.any fun st => st.ring == ring)
      if ok then
        have r := { r with sqHead := (r.sqHead + 1) % 2 ^ r.sqLog2 }
        have sl := { sl with served := ring }
        if sl.cancelled.contains (ring, entry.cid) then
          .next (s.setSlice slice { sl with
            cancelled := sl.cancelled.erase (ring, entry.cid)
            rings := Table.put ring r sl.rings })
        else
          have st : Started := { ring := ring, cid := entry.cid, opcode := entry.opcode, noIrq := entry.noIrq }
          have s := s.setSlice slice { sl with
            rings := Table.put ring r sl.rings
            started := sl.started ++ [st]
            creditsUsed := sl.creditsUsed + 1 }
          if knownOpcode entry.opcode && entry.reservedZero then .next s
          else .next (s.complete { slice := slice, ring := ring, cid := entry.cid, noIrq := entry.noIrq } 0x1001)
      else .next s

/-- The oldest entry of an armed CQ has waited TIME_US (R395): the vector fires and the CQ is disarmed. -/
def execCqInterruptTimer (slice ring : Nat) (s : State) : Res :=
  match Table.find slice s.host.slices with
  | none => .next s
  | some sl =>
    match Table.find ring sl.rings with
    | none => .next s
    | some r =>
      if r.armed && !r.counted.isEmpty then
        .next ((s.setRing slice sl ring { r with armed := false }).fireVector (sl.firstVector + r.vector))
      else .next s

/-! Ring commands on rings and slices -/

/-- HELLO (R398): the slice becomes Active where the major agrees and a minor suits both. -/
def execHello (c : HostCmd) (major lo hi : Nat) (s : State) : Res :=
  have sl := s.sliceOf c
  have minor := min 2 hi
  match sl.state with
  | .active => .next (s.complete c 0x1005)
  | .created =>
    if c.ring ≠ 0 then .next (s.complete c 0x1001)
    else if major = 1 ∧ lo ≤ minor then
      .next ((s.putSlice c.slice { sl with state := .active, minor := minor, fetching := true }).complete c 0 (1 + 256 * minor))
    else .next (s.complete c 0x1003)
  | _ => .next s

/-- NOP (R397). -/
def execNop (c : HostCmd) (s : State) : Res := .next (s.ringGate c .any fun _ => s.complete c 0)

/-- CANCEL (R402): an entry not yet fetched and a queued transfer complete with 0x100C, a transfer that runs is withdrawn, a job
stops at its next boundary, anything else runs on. `waiting` says that the named entry has not been fetched. -/
def execCancel (c : HostCmd) (ring cid : Nat) (waiting : Bool) (s : State) : Res :=
  .next (s.ringGate c .any fun sl =>
    have target : HostCmd := { slice := c.slice, ring := ring, cid := cid }
    have same (k : HostCmd) : Bool := k.slice == c.slice && k.ring == ring && k.cid == cid
    have queued := sl.channels.find? fun ch => (s.channel ch).queue.any fun x => same x.cmd
    have running := sl.channels.find? fun ch => (s.channel ch).cur.any fun x => same x.cmd
    if ring ≠ c.ring then s.complete c 0 1
    else if waiting then
      have s := s.setSlice c.slice { sl with cancelled := sl.cancelled ++ [(ring, cid)] }
      (s.cqWrite c.slice ring cid 0x100C 0 0 false false).complete c 0
    else
      match queued, running with
      | some ch, _ =>
        have x := s.channel ch
        have s := s.setChannel ch { x with queue := x.queue.filter fun t => !(same t.cmd) }
        (s.complete target 0x100C).complete c 0
      | none, some ch => s.withdraw ch false (some c)
      | none, none =>
        if s.bnd.jobs.any fun j => same j.cmd then
          ({ s with bnd.jobs := s.bnd.jobs.map fun (j : Job) => if same j.cmd then { j with stop := true } else j }).complete c 0
        else s.complete c 0 1)

/-- The ring that RING_CREATE or a slice create makes (R390). -/
def RingParams.ok (p : RingParams) (sl : Slice) : Bool :=
  p.reservedZero && decide (1 ≤ p.ring ∧ p.ring < sl.ringMax ∧ 4 ≤ p.sqLog2 ∧ p.sqLog2 ≤ 16 ∧ 4 ≤ p.cqLog2 ∧ p.cqLog2 ≤ 16 ∧ p.prio ≤ 3 ∧
    p.vector < sl.vectors ∧ 1 ≤ p.count ∧ p.count ≤ 256 ∧ p.timeUs ≤ 1000 ∧ p.sqBase % 4096 = 0 ∧ p.cqBase % 4096 = 0)

/-- RING_CREATE (R390), on ring 0. -/
def execRingCreate (c : HostCmd) (params : RingParams) (s : State) : Res :=
  .next (s.ringGate c .any fun sl =>
    if c.ring ≠ 0 ∨ params.ok sl = false then s.complete c 0x1001
    else if Table.has params.ring sl.rings then s.complete c 0x1005
    else
      have r : Ring := { sqLog2 := params.sqLog2, cqLog2 := params.cqLog2, prio := params.prio, vector := params.vector,
                         count := params.count, timeUs := params.timeUs, sqBase := params.sqBase, cqBase := params.cqBase }
      (s.setRing c.slice sl params.ring r).complete c 0)

/-- RING_DELETE (R397), on ring 0: a ring other than 0. -/
def execRingDelete (c : HostCmd) (ring : Nat) (s : State) : Res :=
  .next (s.ringGate c .any fun sl =>
    if c.ring ≠ 0 ∨ ring = 0 ∨ Table.has ring sl.rings = false then s.complete c 0x1001
    else (s.setSlice c.slice { sl with rings := Table.drop ring sl.rings }).complete c 0)

/-- Whether the fields of a slice create are in range (R387, R390). -/
def SliceParams.ok (p : SliceParams) : Bool :=
  p.reservedZero && decide (1 ≤ p.slice ∧ p.slice ≤ 1023 ∧ p.pasid < 2 ^ 20 ∧ p.caps < 2 ^ 9 ∧ (p.tenant ≤ 4095 ∨ p.tenant = 0xFFFF) ∧
    1 ≤ p.rings ∧ p.rings ≤ 64 ∧ p.channels ≤ 64 ∧ p.firstVector < 4096 ∧ 1 ≤ p.vectors ∧ p.vectors ≤ 4096 ∧ 16 ≤ p.credits ∧
    p.credits ≤ 65536 ∧ 4 ≤ p.sqLog2 ∧ p.sqLog2 ≤ 16 ∧ 5 ≤ p.cqLog2 ∧ p.cqLog2 ≤ 16 ∧ p.sqBase % 4096 = 0 ∧ p.cqBase % 4096 = 0)

/-- Whether the pool holds what a slice asks for (R387). -/
def State.poolHas (s : State) (rings channels first vectors credits : Nat) : Bool :=
  let (r, c, _, k) := s.pool
  decide (rings ≤ r ∧ channels ≤ c ∧ credits ≤ k) && s.vectorsFree first vectors

/-- Whether a PASID may be given to a slice (R386, R387). -/
def State.pasidFree (s : State) (p : Nat) : Bool := p != 0 && !(s.liveSlices.any fun e => e.2.pasid == p)

/-- SLICE_CREATE (R387). -/
def execSliceCreate (c : HostCmd) (params : SliceParams) (s : State) : Res :=
  .next (s.ringGate c .slices fun _ =>
    have p := params
    if !p.ok then s.complete c 0x1001
    else if !(s.poolHas p.rings p.channels p.firstVector p.vectors p.credits) then s.complete c 0x1004
    else if (Table.find p.slice s.host.slices).any Slice.live || !(s.pasidFree p.pasid) then s.complete c 0x1005
    else if p.caps.testBit 8 then s.complete c 0x1006
    else
      have cs := s.freeChannels p.channels
      have ring0 : Ring := { sqLog2 := p.sqLog2, cqLog2 := p.cqLog2, sqBase := p.sqBase, cqBase := p.cqBase }
      have sl : Slice := { state := .created, pasid := p.pasid, caps := p.caps, tenant := p.tenant, ringMax := p.rings,
                           rings := [(0, ring0)], channels := cs, firstVector := p.firstVector, vectors := p.vectors,
                           credits := p.credits }
      ((s.putSlice p.slice sl).giveChannels p.slice cs).complete c 0 (channelMap cs))

/-- SLICE_DESTROY (R389): the slice is squashed; it becomes Free when it has quiesced. -/
def execSliceDestroy (c : HostCmd) (slice : Nat) (s : State) : Res :=
  .next (s.ringGate c .slices fun _ =>
    if slice = 0 ∨ 1023 < slice then s.complete c 0x1001
    else if (Table.find slice s.host.slices).any Slice.live then s.beginReset slice true true (some c) []
    else s.complete c 0x1005)

/-- SLICE_FREEZE (R404): fetching stops, queue pairs turn new SENDs away and channels pause; the freeze completes when the
slice has quiesced. -/
def execSliceFreeze (c : HostCmd) (slice : Nat) (s : State) : Res :=
  .next (s.ringGate c .slices fun _ =>
    if slice = 0 ∨ 1023 < slice then s.complete c 0x1001
    else
      match Table.find slice s.host.slices with
      | none => s.complete c 0x1005
      | some sl =>
        if sl.state = .active ∧ sl.quiesce = none then
          have s := s.putSlice slice { sl with fetching := false, quiesce := some c }
          sl.channels.foldl (fun s ch => s.pauseChannel ch []) s
        else s.complete c 0x1005)

/-- A slice's queue pairs leave Frozen for the states they were saved in (R404). -/
def State.thawQps (s : State) (n : Nat) : State :=
  { s with trn.qps := Table.mapVals (fun _ (q : Qp) =>
      if q.slice = n ∧ q.state = .frozen then { q with state := q.saved.getD .rts, saved := none } else q) s.trn.qps }

/-- SLICE_THAW (R404): a Frozen slice returns to Active, its queue pairs to their states, its channels go on. -/
def execSliceThaw (c : HostCmd) (slice : Nat) (s : State) : Res :=
  .next (s.ringGate c .slices fun _ =>
    match Table.find slice s.host.slices with
    | none => s.complete c 0x1005
    | some sl =>
      if sl.state = .frozen then
        have s := (s.putSlice slice { sl with state := .active, fetching := true }).thawQps slice
        (sl.channels.foldl State.resumeChannel s).complete c 0
      else s.complete c 0x1005)

/-- The image of a slice (R405). -/
def State.imageOf (s : State) (n : Nat) (sl : Slice) : SliceImage :=
  { minor := sl.minor, tenant := sl.tenant, caps := sl.caps, rings := sl.rings,
    transfers := if 2 ≤ sl.minor then sl.channels.filterMap fun c => (s.channel c).cur else [],
    channels := sl.channels.length, qps := s.trn.qps.filter fun e => e.2.slice == n,
    regions := s.trn.regions.filter fun e => e.2.slice == n && e.2.valid,
    time := s.ringTime, device := s.fuses.deviceId, firstVector := sl.firstVector, vectors := sl.vectors, credits := sl.credits }

/-- SLICE_SAVE (R405): the image is written and the slice is Saved. -/
def execSliceSave (c : HostCmd) (slice : Nat) (s : State) : Res :=
  .next (s.ringGate c .slices fun _ =>
    match Table.find slice s.host.slices with
    | none => s.complete c 0x1005
    | some sl =>
      if sl.state = .frozen then
        have im := s.imageOf slice sl
        ((s.putSlice slice { sl with state := .saved }).sendHost (.image c im.bytes)).complete c 0 0 im.size
      else s.complete c 0x1005)

/-- Whether an image's contexts pin more of a set than may be pinned (R54). -/
def State.pinsTooMany (s : State) (qps : List (Nat × Qp)) : Bool :=
  qps.any fun e => e.2.pinned && decide (8 < (s.trn.qps.countP fun x => qpSet x.1 == qpSet e.1 && x.2.pinned) +
    qps.countP fun x => qpSet x.1 == qpSet e.1 && x.2.pinned)

/-- SLICE_RESTORE (R406; an image that would pin more than 8 contexts of a set lacks room in the pool: 0x1004, DESIGN CHOICE, log entry 82): a
Free slice takes the image's rings, queue pairs and regions and channels of this part, and is
Frozen. -/
def execSliceRestore (c : HostCmd) (slice pasid : Nat) (image : SliceImage) (s : State) : Res :=
  .next (s.ringGate c .slices fun _ =>
    have im := image
    if !im.crcOk || im.version != 1 || decide (2 < im.minor) then s.complete c 0x100A
    else if im.qps.any (fun e => !(s.validQpn e.1) || Table.has e.1 s.trn.qps) ||
        im.regions.any (fun e => (Table.find e.1 s.trn.regions).any Region.busy) then s.complete c 0x100A
    else if slice = 0 ∨ 1023 < slice ∨ (Table.find slice s.host.slices).any Slice.live ∨ s.pasidFree pasid = false then
      s.complete c 0x1005
    else if !(s.poolHas im.rings.length im.channels im.firstVector im.vectors im.credits) || s.pinsTooMany im.qps then s.complete c 0x1004
    else
      have cs := s.freeChannels im.channels
      have sl : Slice := { state := .frozen, pasid := pasid, caps := im.caps, tenant := im.tenant, ringMax := im.rings.length,
                           rings := im.rings, channels := cs, firstVector := im.firstVector, vectors := im.vectors,
                           credits := im.credits, minor := im.minor, fetching := false }
      have s := (s.putSlice slice sl).giveChannels slice cs
      have s := im.qps.foldl (fun s e => s.setQp e.1 { e.2 with slice := slice, state := .frozen }) s
      have s := im.regions.foldl (fun s e =>
        { s with trn.regions := Table.put e.1 { e.2 with slice := slice } s.trn.regions }) s
      have s := (cs.zip im.transfers).foldl (fun s e =>
        have x : DmaXfer := { e.2 with cmd := { e.2.cmd with slice := slice }, flight := [], next := e.2.done }
        s.setChannel e.1 { s.channel e.1 with cur := some x, state := .paused }) s
      s.complete c 0 (channelMap cs))

/-- SLICE_RESET (R403), by the manager, or by the slice itself on its ring 0. -/
def execSliceReset (c : HostCmd) (slice : Nat) (mode : ResetMode) (unfetched : List HostCmd) (s : State) : Res :=
  .next (s.ringGate c .any fun _ =>
    if 1023 < slice then s.complete c 0x1001
    else if c.slice ≠ 0 ∧ (c.slice ≠ slice ∨ c.ring ≠ 0) then s.complete c 0x1006
    else
      match Table.find slice s.host.slices with
      | none => s.complete c 0x1005
      | some sl =>
        if sl.live && sl.state != .resetting then
          s.beginReset slice (match mode with
            | .squash => true
            | .drain => false) false (some c) unfetched
        else s.complete c 0x1005)

/-- Whether the queue pairs of a freezing slice have quiesced (R404): no command of theirs holds a tag, and every completion
capsule has been acknowledged. -/
def State.qpsQuiet (s : State) (n : Nat) : Bool :=
  s.trn.qps.all fun e => e.2.slice != n ||
    (e.2.capsulesUnacked == 0 && !(s.cmd.tags.any fun t => t.2.cap.qpn == e.1 && t.2.cls == .initiator))

/-- The command that asked a slice to quiesce completes. -/
def State.answerQuiesce (s : State) (sl : Slice) : State :=
  match sl.quiesce with
  | some c => s.complete c 0
  | none => s

/-- The queue pairs of a slice are frozen (R404). -/
def State.freezeQps (s : State) (slice : Nat) : State :=
  have freeze (q : Qp) : Qp := if q.slice = slice then { q with state := .frozen, saved := some q.state } else q
  { s with trn.qps := Table.mapVals (fun _ q => freeze q) s.trn.qps }

/-- A slice has quiesced (R389, R403, R404): a reset completes and leaves it Created with its rings emptied, a destruction
leaves it Free, a freeze leaves it Frozen with its queue pairs. -/
def execSliceQuiesced (slice : Nat) (s : State) : Res :=
  match Table.find slice s.host.slices with
  | none => .next s
  | some sl =>
    match sl.state with
    | .resetting =>
      if s.idleSlice slice sl then
        if sl.destroying then .next (((s.removeObjects slice).freeSlice slice).answerQuiesce sl)
        else
          have s := s.answerQuiesce sl
          have sl := s.sliceOf { slice := slice, ring := 0, cid := 0 }
          .next (s.putSlice slice { sl with
            state := .created
            rings := Table.mapVals (fun _ r => r.emptied) sl.rings
            started := []
            creditsUsed := 0
            cancelled := []
            minor := 0
            quiesce := none
            squash := false
            fetching := true })
      else .next s
    | .active =>
      match sl.quiesce with
      | none => .next s
      | some c =>
        have paused := sl.channels.all fun ch => (s.channel ch).state == .paused
        if paused && sl.started.isEmpty && s.qpsQuiet slice then
          have s := s.freezeQps slice
          .next ((s.putSlice slice { sl with state := .frozen, quiesce := none }).complete c 0)
        else .next s
    | _ => .next s

/-- A write of CHI_MGR_CTRL.EN (R384, R387, R389): 1 makes slice 0 and the events that waited are posted; 0 destroys it. -/
def execMgrEnable (value : Nat) (s : State) : Res :=
  have live := (Table.find 0 s.host.slices).any Slice.live
  if value % 2 = 1 then
    if live then .next s
    else
      have ring0 : Ring := { sqLog2 := s.rd Reg.CHI_MGR_CFG.SQ_LOG2, cqLog2 := s.rd Reg.CHI_MGR_CFG.CQ_LOG2,
                             sqBase := s.rd Reg.CHI_MGR_SQ_BASE.BASE, cqBase := s.rd Reg.CHI_MGR_CQ_BASE.BASE }
      have sl : Slice := { state := .created, caps := 0x1FF, ringMax := s.rd Reg.CHI_MGR_CFG.RINGS, rings := [(0, ring0)],
                           vectors := s.rd Reg.CHI_MGR_CFG.VECTORS, credits := 4096 }
      have held := s.host.held
      have s := (({ s with host.held := [] }).wr Reg.CHI_MGR_CTRL.EN 1).putSlice 0 sl
      .next (held.foldl (fun s e => s.postTo 0 e.code e.result0) s)
  else
    have s := s.wr Reg.CHI_MGR_CTRL.EN 0
    if live then .next (s.beginReset 0 true true none []) else .next s

/-! Frames -/

/-- FRAME_SEND (R400): a frame of 60 to 9,212 bytes leaves its logical port, and the command completes with its egress
stamp. -/
def execFrameSend (c : HostCmd) (frame : TxFrame) (s : State) : Res :=
  .next (s.ringGate c .frames fun _ =>
    if 15 < frame.lport ∨ frame.bytes.length < 60 ∨ 9212 < frame.bytes.length then s.complete c 0x1001
    else s.transmitFrame { frame with cmd := some c })

/-- FRAME_RX_POST (R400): a buffer of at least 9,216 bytes; the first post claims the port for its slice. -/
def execFrameRxPost (c : HostCmd) (lport address length : Nat) (s : State) : Res :=
  .next (s.ringGate c .frames fun _ =>
    if 15 < lport ∨ length < 9216 then s.complete c 0x1001
    else if Table.get lport c.slice s.host.claims ≠ c.slice then s.complete c 0x1006
    else
      { s with
        host.claims := Table.put lport c.slice s.host.claims
        host.buffers := Table.upd lport [] (fun l => l ++ [{ cmd := c, address := address, length := length }]) s.host.buffers })

/-! Queue pairs and regions -/

/-- Whether a context may be pinned: at most 8 of a set are (R54). -/
def State.mayPin (s : State) (n : Nat) : Bool :=
  decide ((s.trn.qps.countP fun e => e.1 != n && qpSet e.1 == qpSet n && e.2.pinned) < 8)

/-- Whether a context's transport fields are in their ranges (R49, R52): path MTU 3 to 5, timeout code 0 to 31, retry counts 0 to 7. -/
def Qp.fieldsOk (q : Qp) : Bool :=
  decide (3 ≤ q.mtu ∧ q.mtu ≤ 5 ∧ q.timeoutExp ≤ 31 ∧ q.retryMax ≤ 7 ∧ q.rnrMax ≤ 7 ∧ q.rnrDelay ≤ 31 ∧ q.lport ≤ 15)

/-- QP_CREATE (R399): the context is installed in Reset or Init, with the slice and a new generation; it starts at line rate
(R42). A field out of its range is refused with 0x1001 (R394), a ninth pin of a set with 0x1004 (DESIGN CHOICE, log entry 82: R54 names no
code). -/
def execQpCreate (c : HostCmd) (qpn : Nat) (ctx : Qp) (s : State) : Res :=
  .next (s.ringGate c .qp fun sl =>
    if s.rd Reg.TRN_CTX_BASE.BASE = 0 then s.complete c 0x100E
    else if !(s.validQpn qpn) || Table.has qpn s.trn.qps then s.complete c 0x1005
    else if (ctx.state ≠ .reset ∧ ctx.state ≠ .init) ∨ ctx.fieldsOk = false then s.complete c 0x1001
    else if !(sl.mayName ctx.tenant) then s.complete c 0x1006
    else if ctx.pinned && !(s.mayPin qpn) then s.complete c 0x1004
    else
      have gen := s.trn.generation + 1
      have q := { ctx with
        slice := c.slice
        generation := gen
        rate := s.lineRate ctx.lport
        targetRate := s.lineRate ctx.lport
        crcOk := true }
      (({ s with trn.generation := gen }).setQp qpn q).complete c 0)

/-- The context lines that QP_MODIFY replaces (R52, R399); line 5 is ignored. -/
def Qp.mergeLine (old new : Qp) : Nat → Qp
  | 0 => { old with
    state := new.state
    remoteQpn := new.remoteQpn
    mtu := new.mtu
    tenant := new.tenant
    controller := new.controller
    queue := new.queue
    pinned := new.pinned
    relaxed := new.relaxed
    trigEnable := new.trigEnable
    marker := new.marker
    lastUse := new.lastUse
    lport := new.lport
    path := new.path }
  | 1 => { old with
    sendPsn := new.sendPsn
    unackedPsn := new.unackedPsn
    sendMsn := new.sendMsn
    retryMax := new.retryMax
    rnrMax := new.rnrMax
    retries := new.retries
    rnrTries := new.rnrTries
    rnrDelay := new.rnrDelay
    sqBase := new.sqBase
    timeoutExp := new.timeoutExp
    sqSize := new.sqSize
    sendQueue := new.sendQueue
    rate := new.rate
    targetRate := new.targetRate
    deadline := new.deadline
    lastCnpRx := new.lastCnpRx }
  | 2 => { old with
    expPsn := new.expPsn
    recvMsn := new.recvMsn
    recvBase := new.recvBase
    recvBufs := new.recvBufs
    recvSize := new.recvSize
    rnrTimer := new.rnrTimer
    inbound := new.inbound
    placements := new.placements
    finals := new.finals }
  | 3 => { old with nvme := new.nvme }
  | 4 => { old with armed := new.armed, triggers := new.triggers }
  | _ => old

/-- The state changes that QP_MODIFY allows (R399). -/
def qpChangeOk : QpState → QpState → Bool
  | .reset, .init | .init, .rtr | .rtr, .rts | .rts, .sqd | .sqd, .rts | .error, .reset => true
  | .frozen, _ => false
  | _, .error => true
  | a, b => a == b

/-- QP_MODIFY (R399): masked lines replace the stored ones, and the state changes as allowed. A move to Error is R50's; a queue
that is no longer drained sends what waited. -/
def execQpModify (c : HostCmd) (qpn mask : Nat) (ctx : Qp) (s : State) : Res :=
  .next (s.ringGate c .qp fun sl =>
    match Table.find qpn s.trn.qps with
    | none => s.complete c 0x1001
    | some q =>
      have lines := (List.range 5).filter fun k => mask.testBit k
      have new := lines.foldl (fun (o : Qp) k => o.mergeLine ctx k) q
      if 64 ≤ mask ∨ new.fieldsOk = false then s.complete c 0x1001
      else if !(sl.mayName q.tenant) || !(sl.mayName new.tenant) then s.complete c 0x1006
      else if !(qpChangeOk q.state new.state) then s.complete c 0x1008
      else if new.pinned && !(s.mayPin qpn) then s.complete c 0x1004
      else if new.state = .error ∧ q.state ≠ .error then
        ((s.setQp qpn { new with state := q.state }).qpError qpn none).complete c 0
      else if q.state = .sqd ∧ new.state = .rts then
        have wait := new.sendQueue.filter fun w => !w.sent
        have s := s.setQp qpn { new with sendQueue := new.sendQueue.filter WorkReq.sent }
        (wait.foldl State.sendWork s).complete c 0
      else (s.setQp qpn new).complete c 0)

/-- QP_DESTROY (R399): the queue pair's commands are treated by R94, then its context is removed. -/
def execQpDestroy (c : HostCmd) (qpn : Nat) (s : State) : Res :=
  .next (s.ringGate c .qp fun sl =>
    match Table.find qpn s.trn.qps with
    | none => s.complete c 0x1001
    | some q =>
      if !(sl.mayName q.tenant) then s.complete c 0x1006
      else
        have s := (s.placeAll qpn fun _ => true).flushWork qpn
        have s := s.queueLost qpn
        have s := ({ s with
          trn.qps := Table.drop qpn s.trn.qps
          trn.sets := Table.mapVals (fun _ l => l.filter fun x => x != qpn) s.trn.sets
          trn.layby := Table.drop qpn s.trn.layby
          trn.direct := s.trn.direct.filter fun p => p.qpn != qpn
          trn.leaving := s.trn.leaving.filter fun x => x != qpn
          trn.fetching := s.trn.fetching.filter fun x => x != qpn
          trn.fetchWait := s.trn.fetchWait.filter fun x => x != qpn }).noteLayby
        s.complete c 0)

/-- QP_QUERY (R399): the context is written to host memory. -/
def execQpQuery (c : HostCmd) (qpn : Nat) (s : State) : Res :=
  .next (s.ringGate c .qp fun sl =>
    match Table.find qpn s.trn.qps with
    | none => s.complete c 0x1001
    | some q => if sl.mayName q.tenant then (s.sendHost (.context c (q.bytes qpn (s.outstanding qpn)))).complete c 0 else s.complete c 0x1006)

/-- The lowest region index that is free (R399). -/
def State.freeRegion (s : State) : Nat := lowestFree ((s.trn.regions.filter fun e => e.2.busy).map Prod.fst) 0

/-- REGION_REGISTER (R60, R399): the entry becomes valid with its variant advanced, and the R_Key is the result. An index of
none asks for the lowest free one. The variant of an index never registered before is 0 (DESIGN CHOICE, log entry 83: R60 gives the step
and no start). -/
def execRegionRegister (c : HostCmd) (index : Option Nat) (region : Region) (s : State) : Res :=
  .next (s.ringGate c .qp fun sl =>
    have k := index.getD s.freeRegion
    have old := Table.find k s.trn.regions
    if s.rd Reg.TRN_REGION_BASE.BASE = 0 then s.complete c 0x100E
    else if region.length = 0 ∨ 2 ^ 40 < region.length then s.complete c 0x1001
    else if !(sl.mayName region.tenant) then s.complete c 0x1006
    else if s.rd Reg.TRN_REGION_COUNT.COUNT ≤ k then s.complete c (if index.isSome then 0x1001 else 0x1004)
    else if old.any Region.busy then s.complete c 0x1005
    else
      have variant := match old with
        | some r => (r.variant + 1) % 256
        | none => 0
      have r := { region with variant := variant, valid := true, slice := c.slice, invalidating := [] }
      ({ s with trn.regions := Table.put k r s.trn.regions }).complete c 0 (256 * k + variant))

/-- REGION_INVALIDATE (R62): it takes effect at once, and completes once nothing checked against the key is unplaced. -/
def execRegionInvalidate (c : HostCmd) (key : Nat) (s : State) : Res :=
  .next (s.ringGate c .qp fun sl =>
    match Table.find (key / 256) s.trn.regions with
    | none => s.complete c 0x1001
    | some r =>
      if !r.valid || r.variant != key % 256 then s.complete c 0x1001
      else if !(sl.mayName r.tenant) then s.complete c 0x1006
      else
        have r := { r with valid := false, invalidating := r.invalidating ++ [c] }
        ({ s with trn.regions := Table.put (key / 256) r s.trn.regions }).endInvalidation (key / 256))

/-- WR_POST (R66, R67, R399): a work request joins the send queue, or is armed; an armed one whose trigger is pending fires at
once with LATCHED. It completes when the work request does. The operations are 0 to 4: SEND with Invalidate is not among them. A fifth
armed request is refused with 0x100D, as a full send queue is (DESIGN CHOICE, log entry 84: R66 names no code). -/
def execWrPost (c : HostCmd) (wr : WorkReq) (s : State) : Res :=
  .next (s.ringGate c .qp fun sl =>
    match Table.find wr.qpn s.trn.qps with
    | none => s.complete c 0x1001
    | some q =>
      have w := { wr with cmd := some c, sent := false, latched := false, index := q.sendNext }
      have taken : Qp := { q with sendNext := (q.sendNext + 1) % 2 ^ 16 }
      if wr.op = .sendInv then s.complete c 0x1001
      else if !(sl.mayName q.tenant) then s.complete c 0x1006
      else if (s.keyCheck wr.localKey (some q.tenant) (wr.op == .read) wr.offset wr.length).isNone then s.complete c 0x1006
      else if q.state = .error then s.complete c 0x1009
      else if q.state ≠ .rts ∧ q.state ≠ .sqd then s.complete c 0x1008
      else if wr.armed then
        if q.triggers.contains wr.trigger then
          (s.setQp wr.qpn { taken with triggers := q.triggers.erase wr.trigger }).fireWork { w with latched := true }
        else if 4 ≤ q.armed.length then s.complete c 0x100D
        else s.setQp wr.qpn { taken with armed := q.armed ++ [w] }
      else if q.sqSize ≤ q.sendQueue.length then s.complete c 0x100D
      else (s.setQp wr.qpn taken).postWork w)

/-! The DMA engine -/

/-- The places that a descriptor's lines touch on one side: offset of the last line's start, plus a line. -/
def lineReach (stride lineLen lines : Nat) : Nat := stride * (lines - 1) + lineLen

/-- The refusals of a descriptor (R397, R398, R408, R409), before the first byte moves. -/
def State.checkDma (s : State) (sl : Slice) (n : Nat) (d : DmaDesc) : Option Nat :=
  have tenant := if sl.tenant = 0xFFFF then none else some sl.tenant
  have lines := List.range d.lines
  if !d.reservedZero || d.srcSpace == .reserved || d.dstSpace == .reserved ||
      decide (63 < d.channel ∨ d.lineLen = 0 ∨ 2 ^ 31 < d.lineLen ∨ d.lines = 0 ∨ 2 ^ 24 < d.lines ∨ 5 < d.swap ∨ 2 ^ 40 < d.total ∨
        (1 < d.lines ∧ d.dstStride < d.lineLen)) then some 0x2001
  else if sl.minor = 0 ∧ (d.lines ≠ 1 ∨ d.swap ≠ 0) then some 0x1001
  else if !(sl.channels.contains d.channel) then some 0x2002
  else if (d.srcSpace == .ddr || d.dstSpace == .ddr) && !(sl.holds n .dmaDdr) then some 0x1006
  else if d.lineLen % swapUnit d.swap ≠ 0 then some 0x2003
  else if d.srcSpace == .region &&
      !(lines.all fun i => (s.keyCheck d.srcKey tenant false (d.src + i * d.srcStride) d.lineLen).isSome) then some 0x2007
  else if d.dstSpace == .region &&
      !(lines.all fun i => (s.keyCheck d.dstKey tenant true (d.dst + i * d.dstStride) d.lineLen).isSome) then some 0x2007
  else none

/-- DMA_XFER (R407, R408): a descriptor that passes its checks queues on its channel. -/
def execDmaXfer (c : HostCmd) (desc : DmaDesc) (s : State) : Res :=
  .next (s.ringGate c .any fun sl =>
    match s.checkDma sl c.slice desc with
    | some code => s.complete c code
    | none =>
      have ch := s.channel desc.channel
      (s.setChannel desc.channel { ch with queue := ch.queue ++ [{ cmd := c, desc := desc }] }).runChannel desc.channel)

/-- DMA_PAUSE (R411): it completes when the bursts in flight have finished. -/
def execDmaPause (c : HostCmd) (channel : Nat) (s : State) : Res :=
  .next (s.ringGate c .any fun sl =>
    if sl.channels.contains channel then s.pauseChannel channel [c] else s.complete c 0x2002)

/-- DMA_RESUME (R411). -/
def execDmaResume (c : HostCmd) (channel : Nat) (s : State) : Res :=
  .next (s.ringGate c .any fun sl =>
    if sl.channels.contains channel then (s.resumeChannel channel).complete c 0 else s.complete c 0x2002)

/-- A write of DMA_CH_CTRL.PAUSE (R411). -/
def execDmaChPause (channel : Nat) (s : State) : Res := if channel < 64 ∧ s.writable 7 then .next (s.pauseChannel channel []) else .next s

/-- A write of DMA_CH_CTRL.RESUME (R411). -/
def execDmaChResume (channel : Nat) (s : State) : Res := if channel < 64 ∧ s.writable 7 then .next (s.resumeChannel channel) else .next s

/-- A write of DMA_CH_CTRL.WITHDRAW (R412). -/
def execDmaChWithdraw (channel : Nat) (s : State) : Res :=
  if channel < 64 ∧ s.writable 7 then .next (s.withdraw channel false none) else .next s

/-- The DDR address of a place in a transfer; none in host memory (R408). -/
def State.dmaAddr (s : State) (space : DmaSpace) (key addr : Nat) : Option Nat :=
  match space with
  | .ddr => some addr
  | .region => if key / 256 = 0xFFFFFF then some addr else (Table.find (key / 256) s.trn.regions).map fun r => r.base + addr
  | .host | .reserved => none

/-- A burst's DDR read that fails for want of correction is counted for its channel (R477). -/
def State.noteDmaRead (s : State) (channel code : Nat) : State :=
  match (s.channel channel).cur with
  | none => s
  | some x =>
    match x.flight with
    | [] => s
    | (off, _) :: _ =>
      have d := x.desc
      match s.dmaAddr d.srcSpace d.srcKey (d.src + off / d.lineLen * d.srcStride + off % d.lineLen) with
      | some a => if code = 0x2005 then s.noteUncorr a else s
      | none => s

/-- A burst ends (R410, R413): its bytes, read from DDR or as the host returned them, are swapped (R409) and written, and the
transfer goes on; or its read has failed with the code given. -/
def execDmaBurstDone (channel : Nat) (host : List Byte) (failure : Option Nat) (s : State) : Res :=
  match failure with
  | some code => .next ((s.noteDmaRead channel code).failBurst channel code)
  | none =>
    have ch := s.channel channel
    match ch.cur with
    | none => .next s
    | some x =>
      match x.flight with
      | [] => .next s
      | (off, len) :: rest =>
        have d := x.desc
        have line := off / d.lineLen
        have src := d.src + line * d.srcStride + off % d.lineLen
        have dst := d.dst + line * d.dstStride + off % d.lineLen
        have dead := match s.dmaAddr d.srcSpace d.srcKey src with
          | some a => s.touchesLost a len
          | none => false
        if dead then .next (s.failBurst channel 0x2005) else
        have data := match s.dmaAddr d.srcSpace d.srcKey src with
          | some a => s.ddrReadList a len
          | none => (host ++ zeros len).take len
        have data := swapBytes d.swap data
        have s := match s.dmaAddr d.dstSpace d.dstKey dst with
          | some a => s.ddrWriteList a data
          | none => s.sendHost (.hostWrite x.cmd.slice dst data)
        have s := s.bump Reg.DMA_BYTES.BYTES len
        have s := s.setChannel channel { ch with cur := some { x with flight := rest, done := x.done + len } }
        .next ((s.settleChannel channel).settleAts)

end Sys2Proof.Machine
end

