-- ==== Sys2Proof/Machine/Mirror.lean ====
section
/-!
DEFINITION. Machine/Mirror.lean: the commands of the peer mirror and of the write cache's segments (chapter 06).
-/
namespace Sys2Proof.Machine
open Sys2Proof

/-- What the receiver decides about a record (R167). -/
inductive Verdict where
  | apply | stale | rejected | sameGen | olderGen
  deriving DecidableEq, Repr

/-- A mirror segment. -/
def State.mirSeg (s : State) (n : Nat) : MirSeg := Table.get n {} s.wc.mir

/-- Whether a sequence has been applied (R167). -/
def State.seqApplied (s : State) (n : Nat) : Bool := decide (n ≤ s.wc.applied) || s.wc.above.contains n

/-- The rows of R167, in order; the first that matches decides. -/
def State.judge (s : State) (r : MirRec) : Verdict :=
  have m := s.mirSeg r.seg
  have d := diff16 r.gen m.gen
  have done := s.seqApplied r.seq
  have fresh := !done && decide (r.seq ≤ s.wc.applied + 8192)
  have epoch := s.rd Reg.DDR_MIR_EPOCH.EPOCH
  if r.epoch < epoch then .stale
  else if epoch < r.epoch then .rejected
  else if !m.inEpoch then (if r.opened && fresh then .apply else .rejected)
  else if (decide (d = 0) || (decide (d = 1) && r.opened)) && fresh then .apply
  else if decide (d = 0) && done then .sameGen
  else if decide (d < 0) && done then .olderGen
  else .rejected

/-- The acknowledgement of a record with a result (R164): it echoes the record and carries the applied mark. -/
def State.ackOf (s : State) (r : MirRec) (result : Nat) : MirAck :=
  { result := result, head := s.headB, seg := r.seg, epoch := r.epoch, seq := r.seq, applied := s.wc.applied, gen := r.gen }

/-- The applied mark over the sequences applied above it (R167). -/
def advanceMark : Nat → Nat → List Nat → Nat × List Nat
  | 0, a, up => (a, up)
  | n + 1, a, up => if up.contains (a + 1) then advanceMark n (a + 1) (up.filter fun x => x != a + 1) else (a, up)

/-- A sequence is applied: the mark advances, DDR_MIR_APPLIED follows (R183). -/
def State.markApplied (s : State) (n : Nat) : State :=
  let (a, up) := advanceMark (s.wc.above.length + 1) s.wc.applied (n :: s.wc.above)
  ({ s with
    wc.applied := a
    wc.above := up }).wr Reg.DDR_MIR_APPLIED.SEQ a

/-- The parts of a record's write that have been applied, in part order: the sender's tag, the namespace and the part count of the header
name the write; of two records that claim one part, the one queued nearest in time to this record is its part (DEDUCED, log entry 99). -/
def State.partsOf (s : State) (r : MirRec) : List MirRec :=
  have mine := s.wc.rx.filter fun x => x.tag == r.tag && x.parts == r.parts && x.nsid == r.nsid
  have apart (x : MirRec) : Nat := (x.time - r.time) + (r.time - x.time)
  (List.range r.parts).filterMap fun k =>
    if k = r.part then some r
    else ((mine.filter fun x => x.part == k).mergeSort fun a b => decide (apart a ≤ apart b)).head?

/-- A whole write or change takes effect in the replica (R168, R270): its map delta, and the index insertions of R119 without the
journal's, which is the owner's. A change that an earlier epoch has applied is not repeated. -/
def State.applyReplica (s : State) (parts : List MirRec) : State :=
  match parts.head? with
  | none => s
  | some r =>
    match r.body with
    | .write _ _ =>
      have delta := parts.flatMap fun x => match x.body with
        | .write d _ => d
        | .metadata _ | .release => []
      ((s.countDelta delta).replicaDelta r.nsid delta).indexDelta (s.tenantOf r.nsid) delta false
    | .metadata changes =>
      if r.time ≤ s.wc.metaSeen ∧ s.wc.metaSeen ≠ 0 then s
      else (changes.foldl State.applyRootChange { s with wc.metaTime := max s.wc.metaTime r.time }).noteMap
    | .release => s

/-- A mirror segment changes with the records that wait for the rest of their write. -/
def State.setMirror (s : State) (seg : Nat) (m : MirSeg) (rx : List MirRec) : State :=
  { s with
    wc.mir := Table.put seg m s.wc.mir
    wc.rx := rx }

/-- The records that wait for the rest of their write change. -/
def State.setWaitingParts (s : State) (rx : List MirRec) : State := { s with wc.rx := rx }

/-- The place in a signature that a container of the peer has taken when its segment is released. The peer's record does not tell which: a free value
(DESIGN CHOICE, log entry 125). -/
def Loc.sewnPlace (l : Loc) (pool : Nat) : Loc :=
  .flash pool (Config.sewnPlace l.bytes 0 % 2 ^ 24) (Config.sewnPlace l.bytes 1 % 4096) (Config.sewnPlace l.bytes 2 % 32) (Config.sewnPlace l.bytes 3 % 4096) l.size

/-- The pool of the namespace that a container of the peer was written to. -/
def State.poolAt (s : State) (l : Loc) : Nat :=
  have ns := s.wc.mir.findSome? fun e => (e.2.recs.find? fun r => (recLocs r.head e.1 e.2.gen [r]).contains l).map MirRec.nsid
  ((ns.bind fun n => Table.find n s.map.ns).map Namespace.pool).getD 0

/-- A record is applied (R167, R168): written to its mirror segment, and, with the last of its parts, to the replica. A release
frees the segment and keeps its generation (R161). -/
def State.applyRecord (s : State) (r : MirRec) : State :=
  have s := s.markApplied r.seq
  have m := s.mirSeg r.seg
  match r.body with
  | .release =>
    have named := (recLocs r.head r.seg m.gen m.recs).filter fun l => decide (0 < s.refCount l) || !(s.indexKeysOf l).isEmpty
    have s := named.foldl (fun s l => s.rewriteLoc l (l.sewnPlace (s.poolAt l))) s
    have s := { s with map.referrers := Table.drop (3 * r.seg + if r.head then 2 else 1) s.map.referrers }
    (s.setMirror r.seg { gen := m.gen, inEpoch := m.inEpoch } (s.wc.rx.filter fun x => !(x.seg == r.seg && x.gen == m.gen))).noteDirty
  | .write _ _ | .metadata _ =>
    have m' : MirSeg := { m with held := true, gen := r.gen, inEpoch := true, recs := if r.opened then [r] else m.recs ++ [r] }
    have s := (s.setMirror r.seg m' (s.wc.rx ++ [r])).noteDirty
    have parts := s.partsOf r
    if parts.length < r.parts then s
    else (s.setWaitingParts (s.wc.rx.filter fun x => !(parts.contains x))).applyReplica parts

/-- A record arrives (R164, R167). A lost head takes none (R20). One that fails a CRC is counted and gets no acknowledgement; after a power-fail
warning here none is applied and none acknowledged (R175). A duplicate whose first copy QD has not yet acknowledged is answered after it. -/
def State.receiveRecord (s : State) (r : MirRec) (crc : CrcCheck) : State :=
  if s.wc.stopped || s.power.headLost then s
  else
    match crc with
    | .fail => (s.bump Reg.DDR_MIR_FAULT.CRC).event1 0x80C3 r.seq
    | .pass =>
      match s.judge r with
      | .apply => ({ s with wc.ackWait := s.wc.ackWait ++ [r] }).applyRecord r
      | .stale => (s.bump Reg.DDR_MIR_FAULT.STALE).sendRing (.mirrorAck (s.ackOf r 2))
      | .rejected => ((s.bump Reg.DDR_MIR_FAULT.REJECTED).event1 0x80C0 r.seq).sendRing (.mirrorAck (s.ackOf r 3))
      | .sameGen =>
        have s := s.bump Reg.DDR_MIR_DUP.SAME_GEN
        if s.wc.ackWait.any fun x => x.seq == r.seq && x.epoch == r.epoch then { s with wc.ackWait := s.wc.ackWait ++ [r] } else s.sendRing (.mirrorAck (s.ackOf r 1))
      | .olderGen => (s.bump Reg.DDR_MIR_DUP.OLDER_GEN).sendRing (.mirrorAck (s.ackOf r 1))

/-- A write record arrives (R167). -/
def execMirrorWriteRecord (rcd : MirRec) (crc : CrcCheck) (s : State) : Res :=
  match rcd.body with
  | .write _ _ => .next (s.receiveRecord rcd crc)
  | .metadata _ | .release => .next s

/-- A metadata record arrives (R167, R270). -/
def execMirrorMetadataRecord (rcd : MirRec) (crc : CrcCheck) (s : State) : Res :=
  match rcd.body with
  | .metadata _ => .next (s.receiveRecord rcd crc)
  | .write _ _ | .release => .next s

/-- A release record arrives (R161, R167). -/
def execMirrorReleaseRecord (rcd : MirRec) (crc : CrcCheck) (s : State) : Res :=
  match rcd.body with
  | .release => .next (s.receiveRecord rcd crc)
  | .write _ _ | .metadata _ => .next s

/-- QD has acknowledged a record's DDR writes: its acknowledgement leaves with result 0 (R168), and those of duplicates that came meanwhile with
result 1 (R164). A record that waited when a new epoch started is answered before those of that epoch. -/
def execMirrorApplyDdrAck (seq : Nat) (s : State) : Res :=
  if s.wc.stopped then .next s
  else
    match s.wc.ackWait.find? fun r => r.seq == seq with
    | none => .next s
    | some r =>
      have mine (x : MirRec) : Bool := x.seq == seq && x.epoch == r.epoch
      have more := (s.wc.ackWait.filter mine).drop 1
      have s := { s with wc.ackWait := s.wc.ackWait.filter fun x => !(mine x) }
      .next (more.foldl (fun s x => s.sendRing (.mirrorAck (s.ackOf x 1))) (s.sendRing (.mirrorAck (s.ackOf r 0))))

/-- A record of this head has been acknowledged with result 0 or 1 (R166): the mode returns from Suspect, a write whose last part it
was commits, a release frees its segment, and the last re-sent record ends the resynchronisation. -/
def State.acked (s : State) (n : Nat) (x : SentRec) : State :=
  have s := { s with
    wc.sent := Table.put n { x with acked := true } s.wc.sent
    wc.resyncLeft := s.wc.resyncLeft.filter fun k => k != n }
  have s := if s.wc.mode == .suspect then s.setMode s.wc.back else s
  have hit := (s.cmd.tags.filter fun e => e.2.write.any fun w => w.queued && !w.committed && w.unacked.contains n).map Prod.fst
  have s := hit.foldl (fun s t =>
    have s := s.modWrite t fun w => { w with unacked := w.unacked.filter fun k => k != n }
    if (s.tag t).any fun (c : Cmd) => c.write.any fun (w : WriteJob) => w.unacked.isEmpty then s.commitTag t else s) s
  have s := match x.rcd.body with
    | .release => ({ s with wc.sent := Table.drop n s.wc.sent }).emptySeg x.rcd.seg
    | .write _ _ | .metadata _ => s
  (s.pumpMirror.noteMirror).endResync.settleSegments

/-- An acknowledgement arrives (R166): it is matched to its record by epoch, segment, sequence and generation; a late one is
ignored. -/
def execMirrorAck (ack : MirAck) (s : State) : Res :=
  match Table.find ack.seq s.wc.sent with
  | none => .next s
  | some x =>
    if x.acked || ack.seg != x.rcd.seg || ack.epoch != x.rcd.epoch || ack.gen != x.rcd.gen then .next s
    else if ack.result ≤ 1 then .next (s.acked ack.seq x)
    else if ack.result = 2 then .next (({ s with wc.halted := true }).event1 0x80C1 ack.seq).enterSuspect
    else if s.own.proposed.isSome then .next s
    else .next s.proposeEpoch

/-- ACK_TIMEOUT expires for a record (R165, R170): it is sent again with RETRANSMIT on every ring port that is up, and a copy waits for each
that is training; the second successive timeout enters Suspect. -/
def execMirrorAckTimeout (seq : Nat) (s : State) : Res :=
  match Table.find seq s.wc.sent with
  | none => .next s
  | some x =>
    if x.acked || !x.onWire || !s.wc.mode.mirrors || s.wc.halted then .next s
    else
      have s := { s with wc.sent := Table.put seq { x with timeouts := x.timeouts + 1 } s.wc.sent }
      have r : MirRec := { x.rcd with retransmit := true }
      have s := (s.peerPorts true).foldl (fun s p =>
        if (s.peerPorts false).contains p then s.sendRing (.mirror (some p) r) else { s with wc.copies := s.wc.copies ++ [(p, r)] }) s
      have s := s.bump Reg.DDR_MIR_RETX.COUNT
      .next (if 1 ≤ x.timeouts then s.enterSuspect else s)

/-- QD acknowledges a write's last record into the own region: in Off and Solo this is its commit point (R171), and for a write queued there
also after a warning (R175 step 4). With UNMIRRORED at 1 no initiator's write is queued there. -/
def execSoloDdrAck (tag : Nat) (s : State) : Res :=
  match s.tag tag with
  | none => .next s
  | some c =>
    have waits := c.write.any fun (w : WriteJob) => w.queued && !w.committed && w.unacked.isEmpty
    if waits && (s.wc.mode == .off || s.wc.mode == .solo || s.wc.mode == .destage) then .next (s.commitTag tag).settleSegments
    else .next s

/-- A Full segment has been Full for AGE_MS while own dirty data is below START % of LIMIT_SEGS: its destage begins (R162). -/
def execSegmentAgeExpiry (seg : Nat) (s : State) : Res :=
  have g := s.ownSeg seg
  have low := decide (s.rd Reg.DDR_WC_DIRTY.OWN * 100 < s.rd Reg.DDR_WC_CFG.START * s.rd Reg.DDR_WC_CFG.LIMIT_SEGS)
  if g.state = .full ∧ low then .next (s.setOwn seg { g with state := .destaging }).settleSegments else .next s

/-- A segment has returned to Free and a stalled lane resumes its hand-off (R162). -/
def execLaneStallResume (lane : Nat) (s : State) : Res :=
  if s.wc.stalled.contains lane && s.freeSeg.isSome then .next (s.resumeLane lane) else .next s

end Sys2Proof.Machine
end

