-- ==== Sys2Proof/Machine/SelfTest.lean ====
section
/-!
DEFINITION. Machine/SelfTest.lean: self-test and rotation, calibration, the loss of a DDR channel, the event recorder's own commands and the
histograms (chapter 17).
-/
namespace Sys2Proof.Machine
open Sys2Proof

/-! Self-test and rotation (R460 to R463) -/

/-- A test begins: TST_RESULT is busy with it. -/
def State.startTest (s : State) (j : TestJob) : State :=
  (({ s with test.job := some j }).wr Reg.TST_RESULT.STATUS 0).wr Reg.TST_RESULT.BUSY 1

/-- A test ends with a status of R474, 0 for a pass. -/
def State.endTest (s : State) (status : Nat) : State :=
  (({ s with test.job := none }).wr Reg.TST_RESULT.STATUS status).wr Reg.TST_RESULT.BUSY 0

/-- A test is refused (R463). -/
def State.refuseTest (s : State) : State := s.wr Reg.TST_RESULT.STATUS 0xB006

/-- A rotation starts (R462 step 1): the standby quarter wakes. -/
def State.startRotation (s : State) (a b : Nat) : State := (s.wake b).startTest (.rotation a b)

/-- A standby's test starts (R462): it wakes to be tested. -/
def State.startStandbyTest (s : State) (b : Nat) : State :=
  ((s.setQuarter b { s.quarter b with wakeTest := true }).wake b).startTest (.standby b)

/-- An in-service quarter is taken out of service for a test of its own (R460). -/
def State.startDirect (s : State) (q : Nat) : State :=
  ((s.unitsOut q).setQuarter q { s.quarter q with role := .underTest }).startTest (.direct q)

/-- Whether the peer reaches every leaf that this head reaches on a QL quarter's lanes (R460). -/
def State.peerReachesLanes (s : State) (q : Nat) : Bool :=
  (leafLanesOf q).all fun l => (List.range 16).all fun p =>
    !(s.on Reg.LFL_LEAF.REACH_SELF (16 * l + p)) || s.on Reg.LFL_LEAF.REACH_PEER (16 * l + p)

/-- The test of an in-service quarter of a kind without a standby (R460, R463): QE and QL with FORCE, QG while the other ring port has a peer
link Active, QK while the other cluster runs; any other is refused. -/
def State.testInService (s : State) (q : Nat) (force : Bool) : State :=
  match quarterKind q with
  | .qe => if force then (s.dropPort (q - 1)).startDirect q else s.refuseTest
  | .ql =>
    if force && s.peerReachesLanes q then (s.cutLinks q).startDirect q
    else s.refuseTest
  | .qg =>
    have port := q - 30
    if (s.link (2 * (1 - port))).state = .active then
      (s.cutLinks q).startDirect q
    else s.refuseTest
  | .qk => if (s.quarter (81 - q)).state = .active then s.startDirect q else s.refuseTest
  | .qt | .qc | .qb | .qs =>
    match s.standbyOf (quarterKind q) with
    | some b => s.startRotation q b
    | none => s.refuseTest
  | .qa | .qm | .qd | .qx => s.refuseTest

/-- Whether TST_CMD takes a request (R463, R475): the firmware runs and no test does. -/
def State.testReady (s : State) : Bool := s.running && !(s.on Reg.TST_RESULT.BUSY)

/-- TEST_QUARTER (R463): an in-service quarter by rotation or directly; a fenced one, or one that a stopped rotation left out of service, is
woken to be tested. A standby quarter takes the standby's test. -/
def execTestQuarter (quarter : Nat) (force : Bool) (s : State) : Res :=
  if !s.testReady then .next s
  else if quarter = 0 ∨ 41 < quarter ∨ quarterKind quarter = .qd then .next s.refuseTest
  else
    have x := s.quarter quarter
    match x.state, x.role with
    | .active, .active => .next (s.testInService quarter force)
    | .fenced, _ | .off, .underTest =>
      .next (((s.setQuarter quarter { x with state := .off, role := .underTest, wakeTest := true }).wake quarter).startTest (.direct quarter))
    | .off, .standby => .next (s.startStandbyTest quarter)
    | _, _ => .next s.refuseTest

/-- TEST_UNIT (R460, R463): a tile that holds no run or tap, or one bank of a QM quarter, while the quarter has a good spare to take its copy
(DESIGN CHOICE, log entry 87: R460 is silent on a quarter without one). -/
def execTestUnit (quarter unit : Nat) (s : State) : Res :=
  if !s.testReady then .next s
  else
    match quarterKind quarter with
    | .qx =>
      have tile := 8 * (quarter - 36) + unit
      have busy := s.prg.runs.any fun e => Table.has tile e.2.tiles
      if (s.quarter quarter).state = .active ∧ unit < 8 ∧ busy = false then
        have v := s.rd Reg.PRG_TILE_INSERVICE.TILES
        .next ((s.wr Reg.PRG_TILE_INSERVICE.TILES (v - (v &&& 2 ^ tile))).startTest (.unit quarter unit))
      else .next s.refuseTest
    | .qm =>
      have x := s.quarter quarter
      if x.state = .active ∧ unit ≤ 16 ∧ x.badBanks.contains x.spare = false then .next (s.startTest (.unit quarter unit))
      else .next s.refuseTest
    | .qa | .qe | .qt | .qc | .qb | .qs | .ql | .qg | .qd | .qk => .next s.refuseTest

/-- TEST_STANDBY (R475): the standby of the named quarter's kind is woken, tested and powered down. -/
def execTestStandby (quarter : Nat) (s : State) : Res :=
  if !s.testReady then .next s
  else
    match s.standbyOf (quarterKind quarter) with
    | some b => .next (s.startStandbyTest b)
    | none => .next s.refuseTest

/-- TST_QSTAT of a quarter counts a test (R475). -/
def State.countTest (s : State) (q : Nat) (pass : Bool) : State :=
  (s.bump Reg.TST_QSTAT.TESTS 1 q).wr Reg.TST_QSTAT.LAST_PASS (if pass then 1 else 0) q

/-- A quarter becomes its kind's standby and is powered Off (R462 step 5). -/
def State.becomeStandby (s : State) (q : Nat) : State :=
  (s.setQuarter q { state := .off, role := .standby }).returnTokens q fun _ => false

/-- A quarter that failed its test is fenced (R462 step 6): event 0xB003. -/
def State.failTest (s : State) (q : Nat) : State := ((s.fenceOnly q).event1 0xB003 q).endTest 0xB003

/-- A tested quarter of a kind without a standby returns to service with its units; a QX quarter's tiles are no longer fenced. -/
def State.backInService (s : State) (q : Nat) : State :=
  have s := s.setQuarter q { s.quarter q with state := .active, role := .active, wakeTest := false }
  have f := s.rd Reg.PRG_TILE_FENCED.TILES
  have s := if quarterKind q = .qx then s.wr Reg.PRG_TILE_FENCED.TILES (f - (f &&& unitBits q)) else s
  s.unitsIn q

/-- TEST_COMPLETE (R462, R463): a self-test ends. Event 0xB002 or 0xB003; a rotation ends with 0xB004, a tile's return to service with
0xB00B, a bad QM bank with 0xB00A. The spare takes the place of the tested bank, which becomes the spare (R460). -/
def execTestComplete (pass : Bool) (s : State) : Res :=
  match s.test.job with
  | none => .next s
  | some (.rotation a _) =>
    if (s.quarter a).state = .active ∧ (s.quarter a).role = .underTest then
      have s := s.countTest a pass
      if pass then .next ((((s.becomeStandby a).event1 0xB002 a).event1 0xB004 a).endTest 0)
      else .next (s.failTest a)
    else .next s
  | some (.standby b) =>
    if (s.quarter b).state = .active then
      have s := s.countTest b pass
      if pass then .next (((s.becomeStandby b).event1 0xB002 b).endTest 0) else .next (s.failTest b)
    else .next s
  | some (.direct q) =>
    if (s.quarter q).state = .active then
      have s := s.countTest q pass
      if pass then
        have s := if (quarterKind q).hasStandby then s.becomeStandby q else s.backInService q
        .next ((s.event1 0xB002 q).endTest 0)
      else .next (s.failTest q)
    else .next s
  | some (.unit q u) =>
    if quarterKind q = .qx then
      have bit := 2 ^ (8 * (q - 36) + u)
      have f := s.rd Reg.PRG_TILE_FENCED.TILES
      have tile := 8 * (q - 36) + u
      if pass then
        have s := (s.wr Reg.PRG_TILE_INSERVICE.TILES (s.rd Reg.PRG_TILE_INSERVICE.TILES ||| bit)).wr Reg.PRG_TILE_FENCED.TILES
          (f - (f &&& bit))
        have s := s.event1 0xB002 tile
        .next ((if f.testBit tile then s.event1 0xB00B tile else s).endTest 0)
      else .next (((s.wr Reg.PRG_TILE_FENCED.TILES (f ||| bit)).event1 0xB003 tile).endTest 0xB003)
    else
      have x := s.quarter q
      have s := s.setQuarter q { x with spare := u, badBanks := if pass then x.badBanks else u :: x.badBanks }
      if pass then .next ((s.event1 0xB002 q).endTest 0)
      else .next ((s.event 0xB00A (le 4 q ++ le 4 u)).endTest 0xB00A)

/-- The quarter that the next rotation of a kind tests (R462): the one after its standby in number order, round. -/
def QuarterKind.after (k : QuarterKind) (b : Nat) : Option Nat :=
  match k.members.filter fun q => decide (b < q) with
  | q :: _ => some q
  | [] => k.members.head?

/-- ROTATION_TIMER (R462): ROTATE_DAYS have passed, and the active role moves to the kind's standby. -/
def execRotationTimer (kind : QuarterKind) (s : State) : Res :=
  if s.testReady && s.test.job.isNone && s.rd Reg.TST_CFG.ROTATE_DAYS != 0 && !s.warned && !(s.on Reg.CMD_HOLD.ACTIVATION) &&
      s.rd Reg.CMD_PS_CFG.EFFECTIVE != 3 then
    match s.standbyOf kind with
    | none => .next s
    | some b =>
      match kind.after b with
      | none => .next s
      | some a => if (s.quarter a).state = .active ∧ (s.quarter a).role = .active then .next (s.startRotation a b) else .next s
  else .next s

/-- STANDBY_TEST_TIMER (R462): STANDBY_H hours have passed, and the kind's standby is tested. -/
def execStandbyTestTimer (kind : QuarterKind) (s : State) : Res :=
  if s.testReady && s.test.job.isNone && !s.warned then
    match s.standbyOf kind with
    | some b => .next (s.startStandbyTest b)
    | none => .next s
  else .next s

/-! DDR channels (R464, R466) -/

/-- The state of a DDR channel. -/
def State.ddrChannel (s : State) (c : Nat) : ChannelState := Table.get c .noDimm s.test.channels

/-- A channel is lost (R466): nothing is issued to it any more, event 0xB007; the second is a loss of the head. -/
def State.loseChannel (s : State) (c : Nat) : State :=
  have s := ({ s with test.channels := Table.put c .lost s.test.channels }).event1 0xB007 c
  if 2 ≤ s.test.channels.countP fun e => e.2 == .lost then s.headLoss else s

/-- A calibration ends (R464): the second failure in a row loses the channel. -/
def State.calibrated (s : State) (c : Nat) (good : Bool) : State :=
  if good then { s with test.calFails := Table.drop c s.test.calFails }
  else if Table.has c s.test.calFails then ({ s with test.calFails := Table.drop c s.test.calFails }).loseChannel c
  else { s with test.calFails := Table.put c 1 s.test.calFails }

/-- CALIBRATE_CHANNEL (R464): the named channel is calibrated at once, with event 0xB008, or 0xB009 where it fails. A channel that is not in
service is refused. -/
def execCalibrateChannel (channel : Nat) (good : Bool) (s : State) : Res :=
  if !s.testReady then .next s
  else if s.ddrChannel channel = .inService then
    have code := if good then 0xB008 else 0xB009
    .next (((s.event1 code channel).calibrated channel good).wr Reg.TST_RESULT.STATUS (if good then 0 else 0xB009))
  else .next s.refuseTest

/-- DDR_CALIBRATION (R464): every 128 ms. -/
def execDdrCalibration (channel : Nat) (good : Bool) (s : State) : Res :=
  if s.ddrChannel channel = .inService then .next (s.calibrated channel good) else .next s

/-- DDR_CHANNEL_LOST (R466): 16 uncorrectable reads within 1 s, or an address parity error that 3 retries do not clear. -/
def execDdrChannelLost (channel : Nat) (s : State) : Res :=
  if s.ddrChannel channel = .inService then .next (s.loseChannel channel) else .next s

/-! The event recorder (R469 to R472) -/

/-- Whether a page is to be written now (R471): a page is full, its first record is 1 s old, or a warning is latched. -/
def State.pageDue (s : State) : Bool :=
  decide ((pageTake s.evt.buffer 0).length < s.evt.buffer.length) || s.warned ||
    s.evt.since.any fun t => decide (t + ticksPerSecond ≤ s.clock)

/-- EVENT_PAGE_WRITE (R471). Records made while a clear runs wait for the clearing record (R472). -/
def execEventPageWrite (s : State) : Res := if s.pageDue && s.evt.clearing.isNone then .next s.writePage else .next s

/-- EVENT_CONTROL_SAVE (R469): every 60 s. -/
def execEventControlSave (s : State) : Res := .next s.saveCounts

/-- The record that EVT_READ_SEL names (R476): counted back from the newest of the running area, or by front-matter slot. -/
def State.recordAt (s : State) (index area : Nat) : Option EventRecord :=
  if area = 0 then (s.nor.running.flatMap List.reverse)[index]? else s.nor.front[index]?

/-- EVENT_READ_SELECT (R476). -/
def execEventReadSelect (index area : Nat) (s : State) : Res :=
  have i := index % 2 ^ 19
  have r := s.recordAt i (area % 2)
  have s := (s.wr Reg.EVT_READ_SEL.INDEX i).wr Reg.EVT_READ_SEL.AREA area
  .next (({ s with evt.selected := r }).wr Reg.EVT_READ_STAT.VALID (if r.isSome then 1 else 0))

/-- NEW_NONCE (R472): a nonce is made. -/
def execNewNonce (s : State) : Res :=
  let (v, s) := s.fresh
  .next (({ s with evt.nonce := some (v % 2 ^ 64, s.clock) }).wr Reg.EVT_CLEAR_NONCE.NONCE v)

/-- Whether a clearing is authorised (R472): a nonce not yet used and at most 60 s old, and, under STRAP_SECURE, the signature in EVT_CLEAR_SIG
over the device ID and the nonce, under the running image's ECDSA key. -/
def State.clearAllowed (s : State) : Bool :=
  match s.evt.nonce with
  | none => false
  | some (n, t) =>
    have sig := (List.range 12).flatMap fun i => le 8 (s.rd Reg.EVT_CLEAR_SIG.BYTES i)
    decide (s.clock ≤ t + 60 * ticksPerSecond) &&
      (s.straps.secure == 0 ||
        ecdsaVerify (slice (colophon s.boot.image) 0x40 97) (sha384 (le 8 s.fuses.deviceId ++ le 8 n)) sig)

/-- CLEAR_GO (R472, R476): the running area's erase begins, or is refused with 0xB021 or 0xB022. A nonce serves one GO. -/
def execClearGo (s : State) : Res :=
  if s.evt.clearing.isSome then .next s
  else
    have nonce := (s.evt.nonce.map Prod.fst).getD 0
    have allowed := s.clearAllowed
    have s := { s with evt.nonce := none }
    if !allowed then .next ((s.event 0xB021).wr Reg.EVT_CLEAR_RESULT.STATUS 0xB021)
    else if 4096 ≤ s.nor.front.length then .next (s.wr Reg.EVT_CLEAR_RESULT.STATUS 0xB022)
    else .next ((({ s with evt.clearing := some nonce }).wr Reg.EVT_CLEAR_RESULT.STATUS 0).wr Reg.EVT_CLEAR_RESULT.BUSY 1)

/-- CLEAR_COMPLETE (R472): the running area is empty but for the clearing record, with the count of records erased, the nonce and the ring
time; it takes the next front-matter slot too. -/
def execClearComplete (s : State) : Res :=
  match s.evt.clearing with
  | none => .next s
  | some nonce =>
    have count := (s.nor.running.map List.length).sum
    have r := s.makeRecord 0xB020 (le 8 count ++ le 8 nonce ++ le 8 s.ringTime)
    have s := { s with
      nor.running := [[r]]
      evt.clearing := none }
    have s := (s.frontRecord r true).wr Reg.EVT_CLEAR_RESULT.BUSY 0
    .next (s.eventSlices.foldl (fun s n => s.postTo n 0xB020 count) s)

/-! Histograms (R473) -/

/-- The bytes of a histogram bank: class × 1,024 + bucket, 8 bytes each. -/
def State.histBytes (s : State) : List Byte := (List.range 8192).flatMap fun k => le 8 (Table.get k 0 s.evt.hist)

/-- The histograms start again from zero (R473). -/
def State.clearHist (s : State) : State := { s with evt.hist := [] }

/-- HIST_SWAP (R473): the counts since the last swap go to the bank of the new SEQ, and start again from zero. -/
def execHistSwap (s : State) : Res :=
  if s.running then
    have seq := (s.rd Reg.EVT_HIST_STAT.SEQ + 1) % 2 ^ 32
    have a := s.rd Reg.EVT_HIST_BASE.BASE + 65536 * (seq % 2)
    .next ((s.ddrWriteList a s.histBytes).clearHist.wr Reg.EVT_HIST_STAT.SEQ seq)
  else .next s

end Sys2Proof.Machine
end

