-- ==== Sys2Proof/Machine/RegWrite.lean ====
section
/-!
DEFINITION. Machine/RegWrite.lean: register accesses that have no row of their own: writes under the access codes, ranges and guards of R11,
R500 and R501, reads of read-to-clear fields (R502), refused accesses (R383), and the set-up locks (R483, R484).
-/
namespace Sys2Proof.Machine
open Sys2Proof

/-! What a read returns (R11) -/

/-- The bytes of an event record (R469): header, ring time when EXT is set, detail padded to a multiple of 8. -/
def EventRecord.bytes (r : EventRecord) : List Byte :=
  have ext := if r.ringTime.isSome then 1 else 0
  have head := r.code % 65536 + 2 ^ 16 * (r.size / 8 - 1) + 2 ^ 21 * (if r.trunc then 1 else 0) + 2 ^ 22 * ext +
    2 ^ 23 * (r.cycles % 4096) + 2 ^ 35 * (r.seconds % 2 ^ 29)
  have time := match r.ringTime with
    | some t => le 8 t
    | none => []
  padTo 8 (le 8 head ++ time ++ r.detail)

/-- The seconds left of the confirm window (R459). -/
def State.trialSeconds (s : State) : Nat :=
  match s.boot.trialLeft with
  | some t => (t - s.clock + (ticksPerSecond - 1)) / ticksPerSecond
  | none => 0

/-- The value that a read of element (i, j) of a field returns (R11): zero of a write-only field; what the fields that report another part of
the state stand for; what the field holds otherwise. -/
def State.readField (s : State) (f : RField) (i j : Nat) : Nat :=
  if f.acc = .wo then 0
  else if f = Reg.XRN_TIME.TICKS then s.ringTime % 2 ^ 64
  else if f = Reg.EVT_POWER_CYCLES.COUNT then s.evt.cycles % 2 ^ 32
  else if f = Reg.EVT_OPSEC.SECONDS then s.opSeconds % 2 ^ 64
  else if f = Reg.EVT_READ_DATA.BYTES then
    match s.evt.selected with
    | some r => num (slice r.bytes (8 * i) 8)
    | none => 0
  else if f = Reg.SQR_Q_STATE.STATE then (s.quarter i).state.code
  else if f = Reg.SQR_Q_STATE.HELD then min 4095 ((s.power.granted.filter fun l => l.quarter == i).map TokenLot.tokens).sum
  else if f = Reg.TST_QSTAT.ROLE then (s.quarter i).role.code
  else if f = Reg.DDR_CH_STATUS.STATE then (s.ddrChannel i).code
  else if f = Reg.DDR_CH_STATUS.PARITY then (if i = 15 then 1 else 0)
  else if f = Reg.BOOT_CONFIRM.REMAINING_S then min 65535 s.trialSeconds
  else if f = Reg.CMD_HOLD.ANA_CHANGE then (if (List.range 1024).any fun g => s.anaCode g == 0x0F then 1 else 0)
  else s.rd f i j

/-- The value of the 64-bit or 32-bit register that some fields make up, as a read returns it. -/
def State.readReg (s : State) (fs : List FieldAt) : Nat := (fs.map fun f => s.readField f.1 f.2.1 f.2.2.1 * 2 ^ f.1.lsb).sum

/-! Refused accesses (R383) -/

/-- BAD_SIZE_ACCESS (R383): a read completes with Unsupported Request, a write is dropped, and both are logged through AER. An access of a
good size is none of these. -/
def execBadSizeAccess (write : Bool) (address size : Nat) (s : State) : Res :=
  if goodSize address size then .next s
  else .next (if write then s.send (.aer 0) else (s.send .unsupportedRequest).send (.aer 0))

/-! Reads that clear (R11, R502) -/

/-- The value of a field as the present clock found it (R13). -/
def State.seen (s : State) (f : RField) (i j : Nat) : Nat := Table.get (f.key i j) f.reset s.holding.seen

/-- What a clearing read of a field answers, and what it leaves (R11, R13, R502). Of a 64-bit field it answers the value that the clock began
with and leaves what the part has added in this clock; of a narrower one it leaves the status bits set in this clock, and answers the rest. -/
def State.rcSplit (s : State) (f : RField) (i j : Nat) : Nat × Nat :=
  have now := s.rd f i j
  if f.wide then (min (s.seen f i j) now, now - s.seen f i j)
  else (now - (now &&& s.raisedBits f i j), now &&& s.raisedBits f i j)

/-- A read-to-clear field is cleared by a read, but for what the part has set in the same clock (R13). -/
def State.clearRead (s : State) (f : FieldAt) : State :=
  have t := s.wr f.1 (s.rcSplit f.1 f.2.1 f.2.2.1).2 f.2.1 f.2.2.1
  if f.1.wide then { t with holding.seen := Table.drop (f.1.key f.2.1 f.2.2.1) t.holding.seen } else t

/-- The value of the register that some fields make up, as a clearing read returns it. -/
def State.readClear (s : State) (fs : List FieldAt) : Nat :=
  (fs.map fun f => (if f.1.acc == .rc then (s.rcSplit f.1 f.2.1 f.2.2.1).1 else s.readField f.1 f.2.1 f.2.2.1) * 2 ^ f.1.lsb).sum

/-- A word of a register is read: the state after it and the value. A lower-half read of a 64-bit read-to-clear field copies the upper half to
the block's holding register and clears the field; an upper-half read returns the holding register. A whole 64-bit read clears. A read of
ETH_PTP_TX_STAMP_HI removes the oldest stamp (R69). -/
def State.readWord (s : State) (a : Nat) (whole : Bool) : Nat × State :=
  have fs := Reg.fieldsAt a
  have value := s.readClear fs
  have upper := fs.any fun f => f.2.2.2
  have rc := fs.filter fun f => f.1.acc == .rc
  have block := a / 0x100000
  if upper && !whole then
    if rc.isEmpty then (value / 2 ^ 32, s) else (Table.get block 0 s.holding.upper, s)
  else
    match fs.find? fun f => f.1 == Reg.ETH_PTP_TX_STAMP_HI.VALID with
    | some f => (s.stampWord f.2.1, s.popStamp f.2.1)
    | none =>
      have s' := rc.foldl State.clearRead s
      have wide := rc.any fun f => f.1.wide
      have s' := if wide && !whole then { s' with holding.upper := Table.put block (value / 2 ^ 32) s'.holding.upper } else s'
      (if whole then value else value % 2 ^ 32, s')

/-- Whether the register at an address is 64 bits wide. -/
def Reg.wideAt (a : Nat) : Bool := (Reg.fieldsAt a).any fun f => f.1.wide

/-- RC_READ (R11, R502): a read of BAR0. A block that does not answer yet reads as zero (R478). -/
def execRcRead (address size : Nat) (s : State) : Res :=
  if !(goodSize address size) || !s.power.converterOn then .next s
  else if !(s.writable (address / 0x100000)) then .next (s.send (.readValue address 0))
  else if size = 4 then
    let (v, s) := s.readWord address false
    .next (s.send (.readValue address v))
  else if Reg.wideAt address then
    let (v, s) := s.readWord address true
    .next (s.send (.readValue address v))
  else
    let (v, s) := s.readWord address false
    let (w, s) := s.readWord (address + 4) false
    .next (s.send (.readValue address (v + 2 ^ 32 * w)))

/-! Writes (R11, R500, R501) -/

/-- The fields whose write is a command of its own: a plain register write leaves them alone. -/
def Reg.ownRow : List RField :=
  [Reg.TRN_CTRL.STATE, Reg.BND_GEAR_SEED.SEED, Reg.DDP_DOMAIN_CFG.EN, Reg.DDP_DOMAIN_CFG.MODE, Reg.DDP_DOMAIN_CFG.CHUNK,
   Reg.DDP_DOMAIN_CFG.DIGEST, Reg.DDP_DOMAIN_CFG.VERIFY, Reg.DDP_DOMAIN_CFG.CASCADE, Reg.KEY_KEK_CMD.INDEX, Reg.KEY_KEK_CMD.GO,
   Reg.DDR_PF_CMD.DESTAGE_NOW, Reg.SIG_POOL_CMD.ACCEPT_LOSS, Reg.SIG_POOL_CFG.EN, Reg.SIG_POOL_CFG.WIDTH, Reg.SIG_POOL_CFG.PARITY,
   Reg.SIG_POOL_CFG.EXPRESS, Reg.SIG_POOL_CFG.META, Reg.SIG_POOL_MEMBERS.LEAVES, Reg.SIG_LEAF_CMD.LEAF, Reg.SIG_LEAF_CMD.OP,
   Reg.SIG_LEAF_CMD.GO, Reg.MAP_CG_CFG.ARMED] ++
  [Reg.MAP_CACHE_CTRL.EN, Reg.MAP_CACHE_CTRL.PREFETCH_EN, Reg.MAP_CACHE_MAINT_CMD.OP, Reg.MAP_CACHE_MAINT_CMD.LINES, Reg.REP_SET_CFG.EN,
   Reg.REP_SET_CFG.MODE, Reg.REP_SET_CFG.ROLE, Reg.REP_SET_CFG.ON_BREAK, Reg.REP_SET_CFG.LINK, Reg.REP_SET_CFG.KEY_SLOT,
   Reg.REP_SET_CFG.RTT_MAX, Reg.REP_SET_CMD.OP, Reg.REP_LINK_CTRL.EN, Reg.PRG_ACCT_CLEAR.TENANT, Reg.PRG_ACCT_CLEAR.GO,
   Reg.PRG_ACCT_CLEAR.ALL, Reg.XRN_CTRL.LEAVE, Reg.OWN_CTRL.FORCE, Reg.OWN_MOVE.GROUP, Reg.OWN_MOVE.GO, Reg.CHI_MGR_CTRL.EN] ++
  [Reg.DMA_CH_CTRL.PAUSE, Reg.DMA_CH_CTRL.RESUME, Reg.DMA_CH_CTRL.WITHDRAW, Reg.SQR_BUDGET.TOKENS, Reg.SQR_Q_CMD.QUARTER,
   Reg.SQR_Q_CMD.OP, Reg.SQR_Q_CMD.GO, Reg.BOOT_CMD.OP, Reg.BOOT_CMD.KEYSET, Reg.BOOT_CMD.GO, Reg.BOOT_RCV_CMD.GO, Reg.TST_CMD.QUARTER,
   Reg.TST_CMD.UNIT, Reg.TST_CMD.OP, Reg.TST_CMD.FORCE, Reg.TST_CMD.GO, Reg.EVT_CTRL.HIST_SWAP, Reg.EVT_READ_SEL.INDEX,
   Reg.EVT_READ_SEL.AREA, Reg.EVT_CLEAR_CMD.NEW_NONCE, Reg.EVT_CLEAR_CMD.GO, Reg.CMD_TAG_QUERY.TAG]

/-- The set-up lock fields, whose write is SETUP_LOCK_WRITE. -/
def Reg.lockFields : List RField :=
  [Reg.SQR_SETUP_LOCK.LOCK, Reg.TMP_SETUP_LOCK.LOCK, Reg.BOOT_SETUP_LOCK.LOCK, Reg.EVT_SETUP_LOCK.LOCK, Reg.TST_SETUP_LOCK.LOCK,
   Reg.CHI_SETUP_LOCK.LOCK, Reg.DMA_SETUP_LOCK.LOCK, Reg.ETH_SETUP_LOCK.LOCK, Reg.TRN_SETUP_LOCK.LOCK, Reg.CMD_SETUP_LOCK.LOCK,
   Reg.BND_SETUP_LOCK.LOCK, Reg.DDP_SETUP_LOCK.LOCK, Reg.MAP_SETUP_LOCK.LOCK, Reg.SIG_SETUP_LOCK.LOCK, Reg.LFL_SETUP_LOCK.LOCK,
   Reg.XRN_SETUP_LOCK.LOCK, Reg.OWN_SETUP_LOCK.LOCK, Reg.REP_SETUP_LOCK.LOCK, Reg.PRG_SETUP_LOCK.LOCK, Reg.DDR_SETUP_LOCK.LOCK,
   Reg.KEY_SETUP_LOCK.LOCK]

/-- Whether a guard allows a field's write (R501), or the KEKs are still open (R151), judged on the state before the write. -/
def State.guardOpen (s : State) (f : RField) (i : Nat) : Bool :=
  if f = Reg.DDP_DOMAIN_KEYS.DIGEST_SLOT ∨ f = Reg.DDP_DOMAIN_KEYS.CIPHER_SLOT ∨ f = Reg.DDP_DOMAIN_HOME.HOME then
    !(s.on Reg.DDP_DOMAIN_CFG.EN i)
  else if f = Reg.MAP_CG_TIME.T then !(s.on Reg.MAP_CG_CFG.ARMED i)
  else if f = Reg.KEY_KEK_DATA.DATA then !(s.locked 21)
  else true

/-- Whether software's write reaches a field at all (R11): a writable access code, an open guard, no lock in force on an RWL field, and no row of
its own. -/
def State.takesWrite (s : State) (f : RField) (i : Nat) : Bool :=
  match f.acc with
  | .ro | .rc => false
  | .rwl => !(s.locked f.block) && s.guardOpen f i
  | .rw | .wo | .w1s => !(Reg.ownRow.contains f) && !(Reg.lockFields.contains f) && s.guardOpen f i
  | .w1c => true

/-- The relations between two fields of one register (R500), with what must hold of the pair as the write would leave it. -/
def Reg.relations : List (RField × RField × (Nat → Nat → Bool)) :=
  [(Reg.TRN_LAYBY_WM.LOW_WM, Reg.TRN_LAYBY_WM.HIGH_WM, fun a b => decide (a < b)),
   (Reg.CMD_TAG_RESERVE.INTERNAL, Reg.CMD_TAG_RESERVE.FORWARDED, fun a b => decide (a + b ≤ 65536)),
   (Reg.DDR_WC_CFG.START, Reg.DDR_WC_CFG.URGENT, fun a b => decide (a < b ∧ b ≤ 100)),
   (Reg.SIG_GC_CFG.URGENT, Reg.SIG_GC_CFG.START, fun a b => decide (a < b)),
   (Reg.TMP_CFG.DERATE_C, Reg.TMP_CFG.CRIT_C, fun a b => decide (a + 5 ≤ b))]

/-- Whether a value is one that R500 lets a write leave in a field. The multiples of a step count from one step on, so 0 is none of them: R500
and the row of TRN_CTX_COUNT do not say whether it is (DESIGN CHOICE, log entry 107). -/
def Legal.allows (l : Legal) (v : Nat) : Bool :=
  match l with
  | .any | .clamp _ => true
  | .range lo hi => decide (lo ≤ v ∧ v ≤ hi)
  | .multiple step hi => v % step == 0 && decide (step ≤ v ∧ v ≤ hi)
  | .odd lo hi => v % 2 == 1 && decide (lo ≤ v ∧ v ≤ hi)
  | .aligned step => v % step == 0
  | .signedAbs w b => decide (-(b : Int) ≤ signedOf w v ∧ signedOf w v ≤ b)

/-- The value that is stored for one written: clamped where the row says so. -/
def Legal.store (l : Legal) (v : Nat) : Nat :=
  match l with
  | .clamp hi => min v hi
  | _ => v

/-- A pending update of one element of a field. -/
structure FieldWrite where
  field : RField
  i     : Nat
  j     : Nat
  value : Nat
  deriving DecidableEq, Repr

/-- With STRAP_SECURE high, a write that lowers BND_SIDECH.DUMMY below 6 or clears SHUFFLE has no effect (R156). -/
def State.secureAllows (s : State) (u : FieldWrite) : Bool :=
  s.straps.secure == 0 ||
    !((u.field == Reg.BND_SIDECH.DUMMY && decide (u.value < 6)) || (u.field == Reg.BND_SIDECH.SHUFFLE && u.value == 0))

/-- The value that a write leaves in a field by its access code (R11), from the bits that the access carries for it and the value the field
would have if they replaced its own. A status bit that the part has set in the same clock stays set (R13). -/
def State.leaves (s : State) (f : FieldAt) (bits merged : Nat) : Nat :=
  have old := s.rd f.1 f.2.1 f.2.2.1
  match f.1.acc with
  | .w1c =>
    have hit := old &&& bits
    old - (hit - (hit &&& s.raisedBits f.1 f.2.1 f.2.2.1))
  | .w1s => old ||| bits
  | .ro | .rc | .rw | .rwl | .wo => merged

/-- The value that a 32-bit write of a word would leave in a field (R11). -/
def State.wouldLeave (s : State) (f : FieldAt) (word : Nat) : Nat :=
  have placed := if f.2.2.2 then word * 2 ^ 32 else word
  have bits := placed / 2 ^ f.1.lsb % 2 ^ f.1.width
  have whole := s.rd f.1 f.2.1 f.2.2.1 * 2 ^ f.1.lsb
  have merged := if f.2.2.2 then whole % 2 ^ 32 + placed else whole / 2 ^ 32 * 2 ^ 32 + placed
  s.leaves f bits (merged / 2 ^ f.1.lsb % 2 ^ f.1.width)

/-- The registers that state that a failing write has no effect on any of their fields (R500): TMP_CFG. -/
def Reg.wholeWrites : List (List RField) := [[Reg.TMP_CFG.DERATE_C, Reg.TMP_CFG.DERATE_STEP, Reg.TMP_CFG.CRIT_C]]

/-- The updates of a 32-bit write of the word at an address (R500): a value out of its field's range drops the field; a relation that the pair
breaks, with both values as written or with what the range leaves of them, drops both; in a register that says so, one failure drops every
field. -/
def State.wordUpdates (s : State) (a word : Nat) : List FieldWrite :=
  have fs := (Reg.fieldsAt a).filter fun f => s.takesWrite f.1 f.2.1
  have us := fs.map fun f => ({ field := f.1, i := f.2.1, j := f.2.2.1, value := s.wouldLeave f word } : FieldWrite)
  have ok := us.filter fun u => u.field.legal.allows u.value && s.secureAllows u
  have after (l : List FieldWrite) (g : RField) : Nat := match l.find? fun u => u.field == g with
    | some u => u.value
    | none => s.rd g
  have breaks (l : List FieldWrite) (r : RField × RField × (Nat → Nat → Bool)) : Bool :=
    (l.any fun u => u.field == r.1 || u.field == r.2.1) && !(r.2.2 (after l r.1) (after l r.2.1))
  have broken := Reg.relations.filter fun r => breaks us r || breaks ok r
  have kept := ok.filter fun u => !(broken.any fun r => u.field == r.1 || u.field == r.2.1)
  have failed (g : List RField) : Bool := us.any fun u => g.contains u.field && !(kept.contains u)
  kept.filter fun u => !(Reg.wholeWrites.any fun g => g.contains u.field && failed g)

/-- Whether the lane map of a front port is a permutation (R37). -/
def laneMapGood (sel : Nat) : Bool :=
  ((List.range 4).map fun k => sel / 4 ^ k % 4).mergeSort (fun a b => decide (a ≤ b)) == [0, 1, 2, 3]

/-- The subports of a front port that are not in use lose their links (R36, R37). -/
def State.dropUnused (s : State) (port : Nat) : State :=
  have up := s.rd Reg.ETH_LINK_STATUS.LINK_UP port
  have stay := ((List.range 4).filter fun k => up.testBit k && s.portsInUse.contains (4 * port + k)).map fun k => 2 ^ k
  (s.wr Reg.ETH_LINK_STATUS.LINK_UP stay.sum port).raise Reg.ETH_LINK_STATUS.LINK_CHANGE (up - stay.sum) port

/-- What follows from new register values: a port's new mode takes the links of the subports that are not in use down (R37); a lane map that is no
permutation keeps its port down with MAP_ERR (R37); a leaf lane whose EN is 0 is held Down (R249); the ring starts or stops with XRN_CTRL.EN
(R358); map lookups that wait for MAP_CTRL.EN go on (R278); MAX_PS bounds the power state (R97). -/
def State.afterWrite (s before : State) : State :=
  have s := (List.range 4).foldl (fun s p =>
    if before.rd Reg.ETH_PORT_MODE.MODE p = s.rd Reg.ETH_PORT_MODE.MODE p ∧
        before.rd Reg.ETH_PORT_MODE.SUBPORT_EN p = s.rd Reg.ETH_PORT_MODE.SUBPORT_EN p then s
    else s.dropUnused p) s
  have s := (List.range 4).foldl (fun s p =>
    have sel := s.rd Reg.ETH_LANE_MAP.LANE_SEL p
    if before.rd Reg.ETH_LANE_MAP.LANE_SEL p = sel then s
    else if laneMapGood sel then s.wr Reg.ETH_LINK_STATUS.MAP_ERR 0 p
    else (s.dropPort p).wr Reg.ETH_LINK_STATUS.MAP_ERR 1 p) s
  have s := (List.range 32).foldl (fun s l =>
    if before.on Reg.LFL_LANE_CFG.EN l && !(s.on Reg.LFL_LANE_CFG.EN l) then s.dropHop l 0 else s) s
  have s := if before.on Reg.XRN_CTRL.EN = s.on Reg.XRN_CTRL.EN then s
    else if s.on Reg.XRN_CTRL.EN then s.startRing else s.stopRing
  have s := if before.on Reg.MAP_CTRL.EN || !(s.on Reg.MAP_CTRL.EN) then s
    else s.resumeMap
  if before.rd Reg.CMD_PS_CFG.MAX_PS = s.rd Reg.CMD_PS_CFG.MAX_PS then s else s.settlePs none

/-- A pending update takes effect. -/
def State.applyWrite1 (s : State) (u : FieldWrite) : State := s.wr u.field (u.field.legal.store u.value) u.i u.j

/-- The word at an address is written: the updates are judged on the state before the access. -/
def State.writeWord (s before : State) (a word : Nat) : State :=
  (before.wordUpdates a word).foldl State.applyWrite1 s

/-- The updates of a 64-bit write of a 64-bit register (R500): a value out of its field's range drops the field. -/
def State.wideUpdates (s : State) (a value : Nat) : List FieldWrite :=
  have fs := (Reg.fieldsAt a).filter fun f => s.takesWrite f.1 f.2.1
  have us := fs.map fun f =>
    have bits := value / 2 ^ f.1.lsb % 2 ^ f.1.width
    ({ field := f.1, i := f.2.1, j := f.2.2.1, value := s.leaves f bits bits } : FieldWrite)
  us.filter fun u => u.field.legal.allows u.value && s.secureAllows u

/-- REGISTER_WRITE (R8, R11, R12, R14, R383, R478, R500, R501). -/
def execRegisterWrite (address size value : Nat) (s : State) : Res :=
  if !(goodSize address size) || !s.power.converterOn || !(s.writable (address / 0x100000)) then .next s
  else
    have t := s.writeWord s address (value % 2 ^ 32)
    have t := if size = 8 then
        (if Reg.wideAt address then
          (s.wideUpdates address value).foldl State.applyWrite1 s
        else t.writeWord s (address + 4) (value / 2 ^ 32 % 2 ^ 32))
      else t
    .next (t.afterWrite s)

/-! Set-up locks (R483, R484) -/

/-- A base field as its lock checks it: the low bits that must be zero, and the area it names in DDR, if it names one, as its bytes and
whether it must lie in the metadata region. -/
structure BaseCheck where
  field : RField
  low   : Nat
  area  : Option (Nat × Bool) := none

/-- The base fields of a block (R483, R484), the areas' sizes taken from the registers as they stand. -/
def State.baseChecks (s : State) (block : Nat) : List BaseCheck :=
  match block with
  | 3 => [⟨Reg.BOOT_FW_BASE.BASE, 27, some (2 ^ 27, true)⟩]
  | 4 => [⟨Reg.EVT_HIST_BASE.BASE, 17, some (2 ^ 17, false)⟩]
  | 5 => [⟨Reg.TST_SAVE_BASE.BASE, 24, some (2 ^ 24, true)⟩]
  | 6 => [⟨Reg.CHI_MGR_SQ_BASE.BASE, 12, none⟩, ⟨Reg.CHI_MGR_CQ_BASE.BASE, 12, none⟩]
  | 9 => [⟨Reg.TRN_CTX_BASE.BASE, 21, some (s.rd Reg.TRN_CTX_COUNT.COUNT * 384, true)⟩,
          ⟨Reg.TRN_REGION_BASE.BASE, 12, some (s.rd Reg.TRN_REGION_COUNT.COUNT * 32, false)⟩]
  | 11 => [⟨Reg.BND_DSTATE_BASE.BASE, 21, some (2 ^ 21, true)⟩]
  | 12 => [⟨Reg.DDP_INDEX_BASE.BASE, 30, some (45 * 2 ^ 26, true)⟩,
           ⟨Reg.DDP_RECON_BASE.BASE, 12, some (2 ^ s.rd Reg.DDP_RECON_SIZE.LOG2 * 64, true)⟩]
  | 13 => [⟨Reg.MAP_NS_BASE.BASE, 22, some (2 ^ 22, true)⟩, ⟨Reg.MAP_SNAP_BASE.BASE, 31, some (2 ^ 31, true)⟩,
           ⟨Reg.MAP_DIR_BASE.BASE, 30, some (32 * 2 ^ s.rd Reg.MAP_DIR_COUNT.LOG2, true)⟩,
           ⟨Reg.MAP_POOL_BASE.BASE, 30, some (s.rd Reg.MAP_POOL_SLOTS.SLOTS * 4096, true)⟩]
  | 14 => [⟨Reg.SIG_LOST_BASE.BASE, 22, some (2 ^ 22, true)⟩]
  | 16 => [⟨Reg.XRN_DIR_BASE.BASE, 17, some (2 ^ 17, true)⟩]
  | 18 => [⟨Reg.REP_SET_BASE.BASE, 21, some (2 ^ 21, false)⟩, ⟨Reg.REP_LINK_BASE.BASE, 12, some (4096, false)⟩,
           ⟨Reg.REP_LANDING_BASE.BASE, 30, some (2 ^ s.rd Reg.REP_LANDING_SIZE.LOG2 * 64, false)⟩,
           ⟨Reg.REP_SEND_BASE.BASE, 30, some (s.rd Reg.REP_SEND_SIZE.GIB * 2 ^ 30, false)⟩]
  | 19 => [⟨Reg.PRG_TABLE_BASE.BASE, 20, some (2 ^ 20, true)⟩, ⟨Reg.PRG_STORE_BASE.BASE, 32, some (2 ^ 32, true)⟩,
           ⟨Reg.PRG_SLOTMAP_BASE.BASE, 21, some (2 ^ 21, true)⟩,
           ⟨Reg.PRG_RESULT_BASE.BASE, 30, some (s.rd Reg.PRG_RESULT_SIZE.GIB * 2 ^ 30, false)⟩,
           ⟨Reg.PRG_ACCT_BASE.BASE, 18, some (2 ^ 18, false)⟩]
  | 20 => [⟨Reg.DDR_META_BASE.BASE, 30, none⟩, ⟨Reg.DDR_WC_BASE.BASE, 30, none⟩]
  | 21 => [⟨Reg.KEY_SLOT_BASE.BASE, 23, some (2 ^ 23, true)⟩]
  | _ => []

/-- Whether an area lies inside the metadata region, outside the parity share (R484). -/
def State.areaInMeta (s : State) (base len : Nat) : Bool :=
  have lo := s.rd Reg.DDR_META_BASE.BASE
  decide (lo ≤ base ∧ base + len ≤ lo + s.rd Reg.DDR_META_SIZE.GIB * 2 ^ 30)

/-- The bytes of the write-cache area with its segment tables (R160, R465). -/
def writeCacheBytes : Nat := 48 * 2 ^ 30 + 2 ^ 22

/-- The end of the metadata region with its parity share (R465). -/
def State.metaEnd (s : State) : Nat :=
  s.rd Reg.DDR_META_BASE.BASE + (s.rd Reg.DDR_META_SIZE.GIB * 2 ^ 30 * 16 + 14) / 15

/-- The checks of the DDR lock beyond the low bits (R483, order 2): training, overlap, installed DDR; the cause and the register's offset. -/
def State.ddrLockFault (s : State) : Option (Nat × Nat) :=
  have wc := s.rd Reg.DDR_WC_BASE.BASE
  have lo := s.rd Reg.DDR_META_BASE.BASE
  have wcSet := decide (wc ≠ 0)
  have metaSet := decide (lo ≠ 0)
  if !s.test.trained then some (4, 0)
  else if wcSet && metaSet && decide (wc < s.metaEnd ∧ lo < wc + writeCacheBytes) then some (3, 0x400)
  else if (wcSet && decide (s.test.installed < wc + writeCacheBytes)) || (metaSet && decide (s.test.installed < s.metaEnd)) then some (4, 0)
  else none

/-- The first check of the lock of a block that fails (R483): its cause and the offset of the register. -/
def State.lockFault (s : State) (block : Nat) : Option (Nat × Nat) :=
  have checks := (s.baseChecks block).filter fun c => s.rd c.field != 0
  have low := checks.find? fun c => s.rd c.field % 2 ^ c.low != 0
  have order1 := [1, 2, 6, 7, 8, 10, 15, 17].contains block
  if !order1 && block != 20 && !(s.locked 20) then some (1, 0)
  else
    match low with
    | some c => some (2, c.field.base % 0x100000)
    | none =>
      if order1 then none
      else if block = 20 then s.ddrLockFault
      else
        match checks.find? fun c => c.area.any fun a => a.2 && !(s.areaInMeta (s.rd c.field) a.1) with
        | some c => some (3, c.field.base % 0x100000)
        | none =>
          if checks.any fun c => c.area.any fun a => decide (s.test.installed < s.rd c.field + a.1) then some (4, 0) else none

/-- SETUP_LOCK_WRITE (R14, R483, R485): a write to the set-up lock of a block. Writing 1 takes effect where every check passes; the first that
fails is recorded in OLD_LOCK_FAULT otherwise. -/
def execSetupLockWrite (block value : Nat) (s : State) : Res :=
  if value % 2 = 0 ∨ block = 0 ∨ 21 < block ∨ s.writable block = false ∨ s.locked block = true then .next s
  else
    match s.lockFault block with
    | none => .next (s.wr Reg.OLD_LOCK_STATUS.LOCKED (s.rd Reg.OLD_LOCK_STATUS.LOCKED ||| 2 ^ (block - 1)))
    | some (cause, offset) =>
      .next ((((s.wr Reg.OLD_LOCK_FAULT.BLOCK block).wr Reg.OLD_LOCK_FAULT.OFFSET offset).wr Reg.OLD_LOCK_FAULT.CAUSE cause).raise
        Reg.OLD_LOCK_FAULT.VALID)

end Sys2Proof.Machine
end

