-- ==== Sys2Proof/Machine/Replication.lean ====
section
/-!
DEFINITION. Machine/Replication.lean: the commands of chapter 10: envelopes as the target receives them, acknowledgements, probes, links,
and the operations on a replica set.
-/
namespace Sys2Proof.Machine
open Sys2Proof

/-! The target (R286, R289, R294 to R297) -/

/-- What a target knows of the stream of a source head. -/
def State.stream (s : State) (n head : Nat) : RepRecv := Table.get head {} (s.repSet n).recv

/-- The state with a received stream put in place. -/
def State.setStream (s : State) (n head : Nat) (r : RepRecv) : State :=
  have x := s.repSet n
  s.setRep n { x with recv := Table.put head r x.recv }

/-- A tag that fails (R297): the envelope is discarded with result 3, REP_TAG_FAIL and event 0x6003; the third failure of one sequence
breaks the set with event 0x6004. -/
def State.tagFailed (s : State) (n head seq : Nat) : State :=
  have x := s.repSet n
  have fails := Table.get seq 0 x.stream.fails + 1
  have s := s.setRep n { x with stream := { x.stream with fails := Table.put seq fails x.stream.fails } }
  have s := ((s.bump Reg.REP_TAG_FAIL.COUNT).event1 0x6003 n).sendRepAck n head 3 seq []
  if 3 ≤ fails then s.breakSet n 0x6004 0x6004 else s

/-- Whether the compare of an envelope's tag tells a match (R113, R142). -/
def Envelope.tagOk (e : Envelope) : Bool := readCompare e.tag == .equal

/-- A compare fault of an envelope's tag is counted (R142). -/
def State.noteTag (s : State) (e : Envelope) : State :=
  if readCompare e.tag = .fault then s.bump Reg.BND_CIPHER_FAULT.COUNT else s

/-- An envelope is judged (R286) and, where it passes, taken: the mark and the watermark move (R282). A dummy round with a wrong result withholds
the output (R156), as a tag that fails does (DESIGN CHOICE, log entry 117). -/
def State.judgeEnvelope (s : State) (n head : Nat) (e : Envelope) (r : RepRecv) (take : State → State) : State :=
  if e.seq ≤ r.mark then (s.setStream n head r).sendRepAck n head 1 0 []
  else if r.mark + 1 < e.seq then ((s.setStream n head r).sendRepAck n head 4 e.seq []).breakSet n 0x6010 0x6010
  else if !e.tagOk then ((s.noteTag e).setStream n head r).tagFailed n head e.seq
  else
    let (bad, s) := s.dummyRound
    if bad then (((s.bump Reg.BND_CIPHER_FAULT.COUNT).event 0x320C).setStream n head r).tagFailed n head e.seq
  else take (s.setStream n head { r with mark := e.seq, watermark := max r.watermark e.watermark })

/-- The head that sent an envelope, as a stream's key. -/
def Envelope.from_ (e : Envelope) : Nat := if e.head then 1 else 0

/-- A received envelope (R286): its session is looked at, then its sequence and its tag. -/
def State.checkSession (s : State) (e : Envelope) (take : State → State) : State :=
  if !(s.repRuns e.set true) || !e.crcOk then s
  else if e.session < (s.stream e.set e.from_).session then s.sendRepAck e.set e.from_ 2 e.seq []
  else if (s.stream e.set e.from_).session < e.session ∧ e.seq ≠ 1 then (s.sendRepAck e.set e.from_ 4 e.seq []).breakSet e.set 0x6010 0x6010
  else s.judgeEnvelope e.set e.from_ e (if (s.stream e.set e.from_).session < e.session then { session := e.session } else s.stream e.set e.from_) take

/-- An envelope is received: it leaves the receive ring and is judged (R281, R286). -/
def State.receiveEnvelope (s : State) (e : Envelope) (take : State → State) : State :=
  (s.consumeRing (s.linkOf e.set) e).checkSession e take

/-- The slot of a location in the landing index (R295). -/
def State.landingSlot (s : State) (loc : Loc) : Nat := crc32c loc.bytes % 2 ^ s.rd Reg.REP_LANDING_SIZE.LOG2

/-- This array's copy of a chunk, by its fingerprint (R118). -/
def State.indexFind (s : State) (domain : Nat) (fp : List Byte) : Option (Nat × Loc) :=
  (s.tagMatches domain fp).findSome? fun k =>
    match Table.find k s.ddp.index with
    | some e => if e.domain = domain ∧ e.fp = fp then some (k, e.loc) else none
    | none => none

/-- The far array of a set's link. -/
def State.farArray (s : State) (n : Nat) : Nat :=
  match Table.find (s.rd Reg.REP_SET_CFG.LINK n) s.rep.links with
  | some l => l.array
  | none => 0

/-- How one unit is served at the target. -/
inductive Served where
  | plain (loc : Loc)
  | hit (key : Nat) (loc : Loc)
  | store (container : Container) (fp : Option (List Byte))
  | wanted
  | noKey
  deriving DecidableEq, Repr

/-- A unit with its container (R295): its fingerprint comes with it, or a bindery lane computes it; a hit drops the container. -/
def State.serveContainer (s : State) (domain : Nat) (u : RepUnit) : Served × Option (List Byte) :=
  have size := u.loc.size
  have fp : Except Nat (Option (List Byte)) := match u.fp with
    | some f => .ok (some f)
    | none =>
      match s.decodeContainer domain size u.container with
      | .ok plain =>
        match Table.find (s.rd Reg.DDP_DOMAIN_KEYS.DIGEST_SLOT domain) s.keys.digest with
        | some d => .ok (if s.rd Reg.DDP_DOMAIN_CFG.MODE domain = 0 then none else some (hmac (s.rd Reg.DDP_DOMAIN_CFG.DIGEST domain) d.key plain))
        | none => .ok none
      | .error (.key c) => .error c
      | .error (.damage _) => .ok none
  have known := s.keyGen (Header.parse u.container).slot (Header.parse u.container).gen
  if known.isNone then (.noKey, none)
  else
    match fp with
    | .error _ => (.noKey, none)
    | .ok none => (.store u.container none, none)
    | .ok (some f) =>
      match s.indexFind domain f with
      | some (k, l) => (.hit k l, some f)
      | none => (.store u.container (some f), some f)

/-- How a unit of an envelope is served (R284, R295, R296), with the fingerprint for its landing entry. -/
def State.serveUnit (s : State) (n head domain : Nat) (u : RepUnit) : Served × Option (List Byte) :=
  match u.form with
  | 0 => (.plain .unmapped, none)
  | 1 => (.plain .zero, none)
  | 2 => s.serveContainer domain u
  | _ =>
    match (s.stream n head).answers.find? fun a => a.loc == u.loc with
    | some a => s.serveContainer domain { u with container := a.container, fp := a.fp }
    | none =>
      match Table.find (s.landingSlot u.loc) s.rep.landing with
      | some g =>
        if g.array = s.farArray n ∧ g.loc = u.loc then
          match s.indexFind domain g.fp with
          | some (k, l) => (.hit k l, some g.fp)
          | none => (.wanted, none)
        else (.wanted, none)
      | none => (.wanted, none)

/-- The target namespace of a member, and its tenant. -/
def State.targetOf (s : State) (n k : Nat) : Nat × Nat :=
  match (s.repSet n).members[k]? with
  | some m => (m.2, s.tenantOf m.2)
  | none => (0, 0)

/-- The units of an envelope that are wanted (R296). -/
def State.wantsOf (s : State) (n head : Nat) (e : Envelope) : List (Nat × Nat) :=
  (e.units.zipIdx.filter fun p => (s.serveUnit n head (s.targetOf n p.1.member).2 p.1).1 == .wanted).map fun p => (e.seq, p.2)

/-- One write of an envelope is handed to the target's cache (R289): an internal command whose records are mirrored; what it hits stays
pinned until it commits. The answer is its place in the order of arrival; it starts when it has its tag (R77). -/
def State.applyWrite (s : State) (n head : Nat) (toWork : Bool) (units : List RepUnit) : Option Nat × State :=
  match units.head? with
  | none => (none, s)
  | some u0 =>
    have (nsid, domain) := s.targetOf n u0.member
    have ticket := s.cmd.order
    have served := units.map fun u => (u, s.serveUnit n head domain u)
    have items : List RecItem := served.map fun p =>
      have e : Extent := { addr := p.1.addr, len := p.1.len, off := p.1.off, loc := .zero }
      match p.2.1 with
      | .plain l => ({ e with loc := l }, none)
      | .hit _ l => ({ e with loc := l }, none)
      | .store c fp => ({ e with isNew := true, fp := fp, noIndex := fp.isNone }, some c)
      | .wanted | .noKey => (e, none)
    have s := served.foldl (fun s p =>
      match p.2.2 with
      | some f =>
        have land : Landing := { array := s.farArray n, domain := domain, loc := p.1.loc, fp := f }
        { s with rep.landing := Table.put (s.landingSlot p.1.loc) land s.rep.landing }
      | none => s) s
    have chunks : List Chunk := served.filterMap fun p => match p.2.1 with
      | .hit k l => some { off := p.1.addr, bytes := [], pin := some k, state := .hit l }
      | _ => none
    have s := (chunks.filterMap Chunk.pin).foldl State.pin s
    have first := (units.map fun u => u.addr / 4096).foldl min lastLba
    have last := (units.map fun u => (u.addr + u.len - 1) / 4096).foldl max 0
    have cap : Capsule := { qpn := 0, cid := 0, op := .datasetManagement, nsid := nsid, cdw10 := 1, cdw11 := 4,
                            data := zeros 4 ++ le 4 1 ++ le 8 first ++ zeros 4 ++ le 4 1 ++ le 8 last }
    have lanes := (packItems items []).map fun p => (s.pickLane [], p)
    have c : Cmd := { internalCmd (.items lanes) none nsid domain with
                      cap := cap, write := some { chunks := chunks }, work := if toWork then some (n, u0.member) else none }
    (some ticket, s.askInternal c)

/-- The writes of an envelope: the units of each run to the entry with LAST_OF_WRITE (R284). -/
def writesOf : List RepUnit → List RepUnit → List (List RepUnit)
  | [], cur => if cur.isEmpty then [] else [cur]
  | u :: r, cur => if u.last then (cur ++ [u]) :: writesOf r [] else writesOf r (cur ++ [u])

/-- An envelope's writes are handed to the cache, or its wants are asked for (R289, R296). A container whose key the target lacks breaks
the set (R280). The envelope leaves the queue once it is handed over. -/
def State.applyEnvelope (s : State) (n head : Nat) (e : Envelope) (toWork : Bool) : State :=
  have missing := e.units.any fun u => (s.serveUnit n head (s.targetOf n u.member).2 u).1 == .noKey
  have wants := s.wantsOf n head e
  if missing then s.breakSet n 0x6009 0x6009
  else if !wants.isEmpty then
    have r := s.stream n head
    have new := wants.filter fun w => !(r.wants.contains w)
    if new.isEmpty then s
    else ((s.setStream n head { r with wants := r.wants ++ new }).bump Reg.REP_WANTS.COUNT new.length).sendRepAck n head 0 0 new
  else
    have groups := if e.kind = 2 then e.units.map fun u => [u] else writesOf e.units []
    have (tags, s) := groups.foldl (fun acc g =>
      match acc.2.applyWrite n head toWork g with
      | (some t, s) => (acc.1 ++ [t], s)
      | (none, s) => (acc.1, s)) (([] : List Nat), s)
    have r := s.stream n head
    have s := s.setStream n head { r with
      held := r.held.filter fun x => x.seq != e.seq
      wants := r.wants.filter fun w => w.1 != e.seq
      applying := r.applying ++ [(e.seq, tags)]
      anchorAt := if e.kind = 2 ∧ e.last then some e.time else r.anchorAt }
    s.settleStream n head

/-- STREAM_BATCH (R286, R289): the envelope is held until the watermarks release it. -/
def execStreamBatch (e : Envelope) (s : State) : Res :=
  .next (s.receiveEnvelope e fun s =>
    have head := if e.head then 1 else 0
    have r := s.stream e.set head
    s.setStream e.set head { r with held := r.held ++ [e] })

/-- Whether a held envelope may be released (R289): every stream of the set has shown a watermark at or beyond its ring time, and no
envelope of the set with an earlier time, or an equal one of head A, is held before it. -/
def State.mayRelease (s : State) (n head : Nat) (e : Envelope) : Bool :=
  (s.repSet n).recv.all fun r =>
    decide (e.time ≤ r.2.watermark) &&
      (r.1 == head || r.2.held.all fun x => decide (e.time < x.time) || (decide (e.time = x.time) && decide (head < r.1)))

/-- ENVELOPE_RELEASE (R289): the first held envelope of a stream is applied, each write whole, through the target's own cache. -/
def execEnvelopeRelease (set head : Nat) (s : State) : Res :=
  if !(s.repRuns set true) then .next s
  else
    match (s.stream set head).held.head? with
    | some e => if e.kind = 1 && s.mayRelease set head e then .next (s.applyEnvelope set head e false) else
        if e.kind = 2 then .next (s.applyEnvelope set head e true) else .next s
    | none => .next s

/-- Every member reverts to the base (R299, R302): its working tree is the base anchor's, and reads are served from that anchor; the old
source of a promotion first keeps an ordinary snapshot of each member, with event 0x600C. -/
def State.revert (s : State) (n base : Nat) : State :=
  have x := s.repSet n
  have s := x.members.zipIdx.foldl (fun s m =>
    have nsid := m.1.2
    match Table.find nsid s.map.ns with
    | none => s
    | some ns =>
      have s := if x.keepFirst then
          match s.freeSnapId nsid with
          | some id => (s.takeCut nsid id s.ringTime none).event 0x600C (le 4 nsid ++ le 4 id)
          | none => s
        else s
      have at_ := (x.anchors.find? fun a => a.1 == base).bind fun a => (s.snap nsid (anchorSnap a.2)).map Snapshot.root
      have (root, s) := match at_ with
        | some r => (r, (s.holdPage r).holdPage r)
        | none =>
          have (r, s) := s.emptyTree s.headB
          (r, s.holdPage r)
      have s := (s.setRoot nsid root).dropPage ns.root
      s.setRep n { s.repSet n with working := Table.put m.2 root (s.repSet n).working }) s
  s.setRep n { s.repSet n with keepFirst := false }

/-- DIFFERENCE (R294, R299): the envelope is applied to the working trees; the first of a resynchronisation reverts them to the base, and after
the last the anchor is taken and acknowledged. With no page number left for the working trees it stays in the receive ring unprocessed, and comes
again (R262; DESIGN CHOICE, log entry 127). -/
def execDifference (e : Envelope) (s : State) : Res :=
  if s.numbersLeft s.headB = 0 then .next s else
  .next (s.receiveEnvelope e fun s =>
    have head := if e.head then 1 else 0
    have s := if e.revert || (s.repSet e.set).working.isEmpty then s.revert e.set e.base else s
    have r := s.stream e.set head
    have s := s.setStream e.set head { r with held := r.held ++ [e] }
    if r.held.isEmpty then s.applyEnvelope e.set head e true else s)

/-- WANT_REPLY (R296): the containers answer the wants, and what waited for them goes on. -/
def execWantReply (e : Envelope) (s : State) : Res :=
  .next (s.receiveEnvelope e fun s =>
    have head := if e.head then 1 else 0
    have r := s.stream e.set head
    have s := s.setStream e.set head { r with answers := r.answers ++ e.units, applying := r.applying ++ [(e.seq, [])] }
    match r.held.head? with
    | some x => if r.wants.any fun w => w.1 == x.seq then s.applyEnvelope e.set head x (x.kind == 2) else s
    | none => s)

/-- ANCHOR_MARK (R290): the anchor is taken once every earlier envelope is applied. -/
def execAnchorMark (e : Envelope) (s : State) : Res :=
  .next (s.receiveEnvelope e fun s =>
    have head := if e.head then 1 else 0
    have r := s.stream e.set head
    (s.setStream e.set head { r with anchorAt := some e.time, applying := r.applying ++ [(e.seq, [])] }).settleStream e.set head)

/-! The source (R285, R288, R296, R298) -/

/-- The anchor that was shipped is acknowledged (R291, R299, R301). -/
def State.anchorAcked (s : State) (n : Nat) : State :=
  have x := s.repSet n
  match x.shipping with
  | none => s
  | some (t, use) =>
    have s := (s.setRep n { x with base := t, shipping := none }).wr Reg.REP_SET_APPLIED.T t n
    match use with
    | .cycle => s
    | .resync =>
      if s.rd Reg.REP_SET_CFG.MODE n = 2 then (s.setRep n { s.repSet n with state := .cycling }).event1 0x6008 n
      else if x.lastBody ≤ 268435456 then s.shipAnchor n .finalResync false
      else
        have s := s.startSession n
        if (s.repSet n).state = .broken then s else s.shipAnchor n .resync true
    | .finalResync => (s.setRep n { s.repSet n with state := .synchronous }).event1 0x6008 n
    | .reverse =>
      have s := s.setRep n { s.repSet n with state := .target, writesRefused := false, recv := [] }
      ((s.wr Reg.REP_SET_CFG.ROLE 1 n).releaseAll n).event1 0x600D n

/-- The units wanted of envelopes that are still in the send buffer (R296), shipped in form 2. -/
def State.wantedUnits (s : State) (n : Nat) (wants : List (Nat × Nat)) : List RepUnit :=
  wants.filterMap fun w =>
    (((s.repSet n).stream.unacked.find? fun e => e.seq == w.1).bind fun (e : Envelope) => e.units[w.2]?).map fun (u : RepUnit) => { u with form := 2 }

/-- The answer to a link's probe gives its round trip (R303). -/
def State.probeAnswered (s : State) (l : Nat) : State :=
  match Table.find l s.rep.links with
  | none => s
  | some k =>
    match k.probe with
    | none => s
    | some at_ =>
      have us := (s.clock - at_) / 8000
      have sets := s.rep.sets.filter fun x => s.repRuns x.1 false && s.rd Reg.REP_SET_CFG.LINK x.1 == l
      have slowOne := sets.any fun x =>
        decide ((if s.rd Reg.REP_SET_CFG.MODE x.1 = 1 then 100 * s.rd Reg.REP_SET_CFG.RTT_MAX x.1 else 500000) < us)
      have k' : RepLink := { k with probe := none, missed := 0, slow := if slowOne then k.slow + 1 else 0 }
      ({ s with rep.links := Table.put l k' s.rep.links }).wr Reg.REP_LINK_CTRL.RTT_US (min (2 ^ 20 - 1) us) l

/-- What an acknowledgement covers leaves the send buffer, and completions are released (R285, R288, R298). -/
def State.ackEnvelopes (s : State) (n : Nat) (a : RepAck) : State :=
  have x := s.repSet n
  have s := s.setRep n { x with stream := { x.stream with
    unacked := x.stream.unacked.filter fun v => decide (a.seq < v.seq) || a.wants.any fun w => w.1 == v.seq } }
  (State.fillBuffer n (s.repSet n).stream.room s).releaseCompletions n a.seq

/-- An envelope whose tag failed at the target is sent again; the third failure of one sequence breaks the set (R297). -/
def State.resendRefused (s : State) (n link : Nat) (a : RepAck) : State :=
  have y := s.repSet n
  have fails := Table.get a.refused 0 y.stream.fails + 1
  have s := s.setRep n { y with stream := { y.stream with fails := Table.put a.refused fails y.stream.fails } }
  if 3 ≤ fails then s.breakSet n 0x6004 0x6004
  else
    match y.stream.unacked.find? fun v => v.seq == a.refused with
    | some v => s.postEnvelope link { v with retransmit := true }
    | none => s

/-- An acknowledgement of a set's stream (R285, R288, R296, R297). -/
def State.takeRepAck (s : State) (n link : Nat) (a : RepAck) : State :=
  have shipping := (s.repSet n).shipping
  have s := s.ackEnvelopes n a
  have units := s.wantedUnits n a.wants
  have s := if units.isEmpty then s else s.startShip n { kind := 3, time := 0, units := units }
  have s := if (shipping.any fun y => y.1 == a.anchor) && decide (a.result ≤ 1) then s.anchorAcked n else s
  if a.result = 3 then s.resendRefused n link a else if a.result = 4 then s.breakSet n 0x6010 0x6010 else s

/-- The ring's consumed offset that an acknowledgement reports (R281). -/
def State.ackRing (s : State) (link : Nat) (e : Envelope) : State :=
  match e.ack with
  | some a => if e.crcOk && e.tagOk then s.ringConsumed link a.consumed else s
  | none => s

/-- A received probe or acknowledgement of a running stream counts as one of its envelopes (R286): the mark moves past its sequence. -/
def State.takeSeq (s : State) (e : Envelope) : State :=
  have r := s.stream e.set e.from_
  have r : RepRecv := if r.session < e.session then { session := e.session } else r
  if s.repRuns e.set true && r.session == e.session && e.seq == r.mark + 1 then
    s.setStream e.set e.from_ { r with mark := e.seq, applying := r.applying ++ [(e.seq, [])] }
  else s

/-- REPLICATION_ACK (R285, R288, R296, R297): envelopes leave the send buffer and completions are released; wants are answered; an
envelope whose tag failed is sent again, and the third failure breaks the set; results of a fault break it. An answer to a probe
gives the link's round trip. -/
def execReplicationAck (e : Envelope) (probe : Option Nat) (s : State) : Res :=
  have link := probe.getD (s.linkOf e.set)
  have s := ((s.noteTag e).consumeRing link e).ackRing link e
  match probe with
  | some l => .next ((if e.crcOk && e.tagOk then s.takeSeq e else s).probeAnswered l)
  | none =>
    match e.ack with
    | none => .next s
    | some a =>
      if !(s.repRuns e.set false) || !e.crcOk || !e.tagOk || a.session != (s.repSet e.set).stream.session then .next s
      else .next (s.takeRepAck e.set link a)

/-! Batches and anchors in time (R287, R291, R292) -/

/-- BATCH_CLOSE (R287, R298): BATCH_NS after a batch's first unit the envelope is sealed and sent; a Stalled set with ON_BREAK whose send
buffer is full enters Tracking. -/
def execBatchClose (set : Nat) (s : State) : Res :=
  have x := s.repSet set
  if x.stream.batch.isEmpty || !(s.repRuns set false) then .next s
  else .next (s.sealBatch set)

/-- IDLE_WATERMARK (R287): a stream that has sent nothing for 5 µs sends an empty batch with its watermark. -/
def execIdleWatermark (set : Nat) (s : State) : Res :=
  have x := s.repSet set
  if s.repRuns set false && x.stream.batch.isEmpty && (x.state == .synchronous || x.state == .resync && x.shipping.any fun y => y.2 == .finalResync) then
    .next (s.sealBatch set)
  else .next s

/-- ANCHOR_PERIOD (R291, R292): a source whose last anchor is acknowledged takes the next: an asynchronous one ships the difference, a
synchronous one sends the mark after its last write before T. -/
def execAnchorPeriod (set : Nat) (s : State) : Res :=
  have x := s.repSet set
  if !(s.repRuns set false) || x.shipping.isSome then .next s
  else
    match x.state with
    | .cycling => .next (s.shipAnchor set .cycle false)
    | .synchronous =>
      have s := if x.stream.batch.isEmpty then s else s.sealBatch set
      have t := s.ringTime
      have s := (s.takeAnchor set t).event1 0x600B set
      have s := s.setRep set { s.repSet set with shipping := some (t, .cycle) }
      .next (s.sendEnvelope set { kind := 4, set := set, session := 0, seq := 0, time := t })
    | .off | .resync | .stalled | .tracking | .broken | .target | .reversing => .next s

/-! Links (R281, R298, R303) -/

/-- The sets that use a link. -/
def State.setsOn (s : State) (l : Nat) : List Nat :=
  (s.rep.sets.filter fun e => s.repRuns e.1 false && s.rd Reg.REP_SET_CFG.LINK e.1 == l).map Prod.fst

/-- A break of a set's delivery (R298): a synchronous set moves to Stalled. -/
def State.stallSet (s : State) (n : Nat) : State :=
  have x := s.repSet n
  if x.state = .synchronous then s.setRep n { x with state := .stalled } else s

/-- A link goes down (R298): event 0x6002, and its synchronous sets are Stalled. -/
def State.linkDown (s : State) (l : Nat) : State :=
  if s.rd Reg.REP_LINK_CTRL.STATE l = 3 then s
  else
    have s := (s.wr Reg.REP_LINK_CTRL.STATE 3 l).event1 0x6002 l
    (s.setsOn l).foldl State.stallSet s

/-- REPLICATION_LINK_DOWN (R298): the link's queue pair has left Ready to Send. -/
def execReplicationLinkDown (link : Nat) (s : State) : Res :=
  if Table.has link s.rep.links then .next (s.linkDown link) else .next s

/-- A link comes up (R298, R299): every unacknowledged envelope of its sets is sent again in order and Stalled sets run on; a Tracking set
resynchronises. -/
def State.linkUp (s : State) (l : Nat) : State :=
  have s := s.wr Reg.REP_LINK_CTRL.STATE 2 l
  (s.setsOn l).foldl (fun s n =>
    have x := s.repSet n
    match x.state with
    | .tracking => s.startResync n
    | .stalled =>
      have s := s.setRep n { x with state := .synchronous }
      x.stream.unacked.foldl (fun s e => s.postEnvelope l e) s
    | .resync | .cycling | .reversing | .synchronous => x.stream.unacked.foldl (fun s e => s.postEnvelope l e) s
    | .off | .broken | .target => s) s

/-- Whether a queue pair is Ready to Send. -/
def State.qpReady (s : State) (q : Nat) : Bool := (s.qp q).state == .rts

/-- Whether a link's entry keeps the rules of R281: the local ring is of whole MiB, at least 2, in a registered region with remote write, and the queue
pair has trigger enable clear. -/
def State.linkValid (s : State) (k : RepLink) : Bool :=
  k.ownSize % 2 ^ 20 == 0 && decide (2 ^ 21 ≤ k.ownSize) && !(s.qp k.qpn).trigEnable &&
    s.trn.regions.any fun e => e.2.valid && e.2.write && decide (e.2.base ≤ k.own ∧ k.own + k.ownSize ≤ e.2.base + e.2.length)

/-- REPLICATION_LINK_ENABLE (R281, R305): a write of REP_LINK_CTRL.EN. Set, it reads the table entry, whose CRC must hold, and the link is
up, or waits for its queue pair; cleared, the link is off. An entry that breaks R281 leaves EN at 0 (DESIGN CHOICE, log entry 127). -/
def execReplicationLinkEnable (link value : Nat) (s : State) : Res :=
  if !(s.writable 18) || 64 ≤ link then .next s
  else if value % 2 = 0 then
    .next ((({ s with rep.links := Table.drop link s.rep.links }).wr Reg.REP_LINK_CTRL.EN 0 link).wr Reg.REP_LINK_CTRL.STATE 0 link)
  else if s.on Reg.REP_LINK_CTRL.EN link then .next s
  else
    have b := (List.range 64).map fun k => Memory.read s.mem (s.rd Reg.REP_LINK_BASE.BASE + 64 * link + k)
    if crc32c (b.take 60) ≠ num (slice b 60 4) then .next s
    else
      have k : RepLink := { qpn := num (slice b 0 4) % 2 ^ 24, key := num (slice b 4 4), ring := num (slice b 8 8), ringSize := num (slice b 16 8),
                            array := num (slice b 40 2), own := num (slice b 24 8), ownSize := num (slice b 32 8) }
      if !(s.linkValid k) then .next s else
      have s := ({ s with rep.links := Table.put link k s.rep.links }).wr Reg.REP_LINK_CTRL.EN 1 link
      .next (if s.qpReady k.qpn then s.linkUp link else s.wr Reg.REP_LINK_CTRL.STATE 1 link)

/-- PROBE (R303): a probe is answered by an acknowledgement. -/
def execProbe (link : Nat) (e : Envelope) (s : State) : Res :=
  have s := (s.noteTag e).consumeRing link e
  if s.on Reg.REP_CTRL.EN && e.crcOk && e.tagOk then
    if s.repRuns e.set true then .next ((s.takeSeq e).sendRepAck e.set e.from_ 0 0 [])
    else
      have ack : RepAck := { result := 0, set := e.set, session := e.session, seq := 0, consumed := s.consumedOf link }
      have a : Envelope := { kind := 5, set := e.set, session := e.session, seq := 0, head := s.headB, ack := some ack }
      .next (if s.repRuns e.set false then s.sendEnvelope e.set a else s.postEnvelope link a)
  else .next s

/-- A probe is sent on a link (R303): in the stream of the first source set that uses it, else in the session of the first target set; a link
that no set uses has no key, and its probe goes out bare (DESIGN CHOICE, log entry 101). -/
def State.sendProbe (s : State) (link : Nat) : State :=
  have e : Envelope := { kind := 6, set := 0, session := 0, seq := 0, head := s.headB }
  match s.setsOn link, s.rep.sets.find? fun x => s.repRuns x.1 true && s.rd Reg.REP_SET_CFG.LINK x.1 == link with
  | n :: _, _ => s.sendEnvelope n e
  | [], some (n, _) => (s.nextEnvelope n).postEnvelope link (s.stampEnvelope n e)
  | [], none => s.postEnvelope link e

/-- PROBE_TIMER (R303): every 100 ms a probe is sent; ten that went unanswered, or came back slow, in a row act as a link down, for
synchronous sets with event 0x6006. A link whose queue pair has become Ready to Send comes up. -/
def execProbeTimer (link : Nat) (s : State) : Res :=
  match Table.find link s.rep.links with
  | none => .next s
  | some k =>
    if s.rd Reg.REP_LINK_CTRL.STATE link = 1 then .next (if s.qpReady k.qpn then s.linkUp link else s)
    else if s.rd Reg.REP_LINK_CTRL.STATE link ≠ 2 then .next s
    else
      have missed := if k.probe.isSome then k.missed + 1 else k.missed
      have sent : RepLink := { k with probe := some s.clock, missed := missed }
      have s := ({ s with rep.links := Table.put link sent s.rep.links }).sendProbe link
      if 10 ≤ missed then .next (s.linkDown link)
      else if 10 ≤ k.slow then
        have sync := (s.setsOn link).filter fun n => s.rd Reg.REP_SET_CFG.MODE n == 1
        if sync.isEmpty then .next (s.linkDown link)
        else .next (sync.foldl State.stallSet (s.event1 0x6006 link))
      else .next s

/-- SUSPEND_EXPIRY (R298): SUSPEND_MS in Stalled with ON_BREAK set, and the set enters Tracking. -/
def execSuspendExpiry (set : Nat) (s : State) : Res :=
  if (s.repSet set).state == .stalled && s.on Reg.REP_SET_CFG.ON_BREAK set then .next (s.enterTracking set) else .next s

/-! Operations on a set (R279, R299 to R302) -/

/-- The member table of a set in DDR (R305): pairs of source and target NSID by member index, a row with 0 unused; nothing after the last row in use. -/
def State.readMembers (s : State) (n : Nat) : List (Nat × Nat) :=
  have base := s.rd Reg.REP_SET_BASE.BASE + 8192 * n
  have word (a : Nat) : Nat := num ((List.range 4).map fun k => Memory.read s.mem (a + k))
  have rows := (List.range 1024).map fun k => (word (base + 8 * k), word (base + 8 * k + 4))
  (rows.reverse.dropWhile fun m => m.1 == 0).reverse

/-- Whether the far namespaces of a set suit it (R279, R281): each is there and has the size of this array's member, and all those on the target array
lie in groups of one head, on whichever side the target is (that a set which breaks R281's rule is refused likewise: DESIGN CHOICE, log entry 127). -/
def State.farValid (s : State) (n : Nat) (used : List (Nat × Nat)) (far : FarSide) : Bool :=
  have target := s.on Reg.REP_SET_CFG.ROLE n
  have farOf (m : Nat × Nat) : Option FarNs := far.ns.find? fun f => f.nsid == if target then m.1 else m.2
  have size (x : Nat) : Option Nat := (Table.find x s.map.ns).map Namespace.size
  have heads := used.map fun m => if target then some (s.nsOwner m.2) else (farOf m).map FarNs.head
  (used.all fun m => (farOf m).any fun f => some f.size == size (s.memberNsid n m)) && heads.all fun h => some h == heads.head?

/-- Whether a set's configuration is valid here (R279, R281, R283, R290): a mode, members of one tenant that exist and belong to no other
enabled set, none with a snapshot under an anchor's ID but the set's own anchors, far namespaces that suit them, and an AES-256 envelope key in a
slot of its own. -/
def State.setValid (s : State) (n : Nat) (ms : List (Nat × Nat)) (far : FarSide) : Bool :=
  have used := ms.filter fun m => m.1 != 0
  have mine := used.map (s.memberNsid n)
  have tenants := mine.map s.tenantOf
  have slot := s.rd Reg.REP_SET_CFG.KEY_SLOT n
  have own := (s.repSet n).anchors.map fun a => anchorSnap a.2
  have others := s.rep.sets.filter fun e => e.1 != n && s.on Reg.REP_SET_CFG.EN e.1
  s.rd Reg.REP_SET_CFG.MODE n != 0 && !used.isEmpty && (mine.all fun x => Table.has x s.map.ns) && (tenants.all fun t => some t == tenants.head?) &&
    (mine.all fun x => (s.snapIds x).all fun id => id < 65532 || own.contains id) && s.farValid n used far &&
    (others.all fun e => s.rd Reg.REP_SET_CFG.KEY_SLOT e.1 != slot && (e.2.members.all fun m => !(mine.contains (s.memberNsid e.1 m)))) &&
    ((Table.find slot s.keys.cipher).any fun k => !k.damaged && k.cur.any fun g => g.type == .aes256)

/-- The settings that a write of REP_SET_CFG carries (R305): ON_BREAK and a good RTT_MAX always, MODE, ROLE, LINK and KEY_SLOT only while EN
is 0. -/
def State.writeSetCfg (s : State) (set value : Nat) : State :=
  have on := s.on Reg.REP_SET_CFG.EN set
  have s := s.wr Reg.REP_SET_CFG.ON_BREAK (value / 16 % 2) set
  have rtt := value / 2 ^ 24 % 64
  have s := if 1 ≤ rtt ∧ rtt ≤ 40 then s.wr Reg.REP_SET_CFG.RTT_MAX rtt set else s
  if on then s
  else
    have s := if value / 2 % 4 = 3 then s else s.wr Reg.REP_SET_CFG.MODE (value / 2 % 4) set
    have s := s.wr Reg.REP_SET_CFG.ROLE (value / 8 % 2) set
    (s.wr Reg.REP_SET_CFG.LINK (value / 32 % 64) set).wr Reg.REP_SET_CFG.KEY_SLOT (value / 2048 % 8192) set

/-- SET_ENABLE (R279, R280, R305): a write of REP_SET_CFG. MODE, ROLE, LINK and KEY_SLOT change only while EN is 0. EN set checks the set:
refused with 0x6001 it stays 0; otherwise a source resynchronises and a target waits. A set whose target lacks a key is Broken with 0x6009, which a
resynchronisation leaves. `far` is what the other array tells of its namespaces and of the domain check, `lacksKey` the outcome of that of the keys. -/
def execSetEnable (set value : Nat) (far : FarSide) (lacksKey : Bool) (s : State) : Res :=
  if !(s.writable 18) || 256 ≤ set then .next s
  else
    have on := s.on Reg.REP_SET_CFG.EN set
    have s := s.writeSetCfg set value
    if value % 2 = 0 then
      if on then .next (((s.wr Reg.REP_SET_CFG.EN 0 set).setRep set { s.repSet set with state := .off }).releaseAll set) else .next s
    else if on then .next s
    else
      have ms := s.readMembers set
      if !(s.setValid set ms far) then .next (s.wr Reg.REP_SET_STATE.STATUS 0x6001 set)
      else
        have x := s.repSet set
        have target := s.on Reg.REP_SET_CFG.ROLE set
        have x' : RepSet := { x with members := ms, allCopies := far.differ, recv := [], keepFirst := target && !x.anchors.isEmpty,
                                     state := if target then .target else x.state }
        have s := ((s.setRep set x').wr Reg.REP_SET_CFG.EN 1 set).wr Reg.REP_SET_STATE.STATUS 0 set
        have s := if far.differ then s.event1 0x600A set else s
        if lacksKey then .next (s.breakSet set 0x6009 0x6009)
        else .next (if target then s.startSession set else if s.on Reg.REP_CTRL.EN then s.startResync set else s)

/-- RESYNCHRONISE (R299): operation 1 of REP_SET_CMD, on a source. -/
def execResynchronise (set : Nat) (s : State) : Res :=
  if s.writable 18 && s.repRuns set false then .next (s.startResync set) else .next s

/-- REVERSE (R301): operation 2, on a source that runs. Member writes are refused, and a final anchor with its difference is shipped; the
roles swap at its acknowledgement. -/
def execReverse (set : Nat) (s : State) : Res :=
  have x := s.repSet set
  if s.writable 18 && s.repRuns set false && (x.state == .synchronous || x.state == .cycling) && x.shipping.isNone then
    have s := s.setRep set { x with state := .reversing, writesRefused := true }
    have s := if x.stream.batch.isEmpty then s else s.sealBatch set
    .next (s.shipAnchor set .reverse false)
  else .next s

/-- PROMOTE (R302): operation 3, on a target: an anchor of its applied state, and it is the source with writable members, event 0x600E. -/
def execPromote (set : Nat) (s : State) : Res :=
  if s.writable 18 && s.repRuns set true then
    have s := s.takeAnchor set s.ringTime
    have s := s.setRep set { s.repSet set with state := .tracking, recv := [], working := [] }
    .next ((s.wr Reg.REP_SET_CFG.ROLE 0 set).event1 0x600E set)
  else .next s

end Sys2Proof.Machine
end

