-- ==== Sys2Proof/Machine/Dispatch.lean ====
section
/-!
DEFINITION. Machine/Dispatch.lean: the meaning of each command, one arm per constructor of Instr.
-/
namespace Sys2Proof.Machine
open Sys2Proof

/-- The effect of a command on everything but the queue. -/
def exec (i : Instr) (s : State) : Host.Outcome State Fault Refusal :=
  match i with
  | .registerWrite address size value => Sys2Proof.Machine.execRegisterWrite address size value s
  | .rcRead address size => Sys2Proof.Machine.execRcRead address size s
  | .badSizeAccess write address size => Sys2Proof.Machine.execBadSizeAccess write address size s
  | .setupLockWrite block value => Sys2Proof.Machine.execSetupLockWrite block value s
  | .vinGood latchLost => Sys2Proof.Machine.execVinGood latchLost s
  | .vinCollapse torn => Sys2Proof.Machine.execVinCollapse torn s
  | .vinOvervoltage torn => Sys2Proof.Machine.execVinOvervoltage torn s
  | .converterPhaseLoss => Sys2Proof.Machine.execConverterPhaseLoss s
  | .resetBallAssert => Sys2Proof.Machine.execResetBallAssert s
  | .strapSample straps qk0 => Sys2Proof.Machine.execStrapSample straps qk0 s
  | .bootImageLoaded => Sys2Proof.Machine.execBootImageLoaded s
  | .firmwareStart good bad installed pairEpoch => Sys2Proof.Machine.execFirmwareStart good bad installed pairEpoch s
  | .partSelfReset => Sys2Proof.Machine.execPartSelfReset s
  | .pciePerstAssert => Sys2Proof.Machine.execPciePerstAssert s
  | .functionReset cause => Sys2Proof.Machine.execFunctionReset cause s
  | .atsInvalidate tag => Sys2Proof.Machine.execAtsInvalidate tag s
  | .hostRequestFailed owner => Sys2Proof.Machine.execHostRequestFailed owner s
  | .frameReceive frame => Sys2Proof.Machine.execFrameReceive frame s
  | .hostLimitWindow => Sys2Proof.Machine.execHostLimitWindow s
  | .linkChange lport up => Sys2Proof.Machine.execLinkChange lport up s
  | .pfcReceive lport times => Sys2Proof.Machine.execPfcReceive lport times s
  | .xoffRefresh => Sys2Proof.Machine.execXoffRefresh s
  | .roceCnp qpn => Sys2Proof.Machine.execRoceCnp qpn s
  | .rateIncrease qpn => Sys2Proof.Machine.execRateIncrease qpn s
  | .frameTransmit frame => Sys2Proof.Machine.execFrameTransmit frame s
  | .ptpTxStampRead port => Sys2Proof.Machine.execPtpTxStampRead port s
  | .contextWritebackAck qpn => Sys2Proof.Machine.execContextWritebackAck qpn s
  | .contextEligible qpn => Sys2Proof.Machine.execContextEligible qpn s
  | .contextFetchDone qpn ns result => Sys2Proof.Machine.execContextFetchDone qpn ns result s
  | .laybyDrainPacket qpn => Sys2Proof.Machine.execLaybyDrainPacket qpn s
  | .roceSend packet => Sys2Proof.Machine.execRoceSend packet s
  | .roceSendInvalidate packet => Sys2Proof.Machine.execRoceSendInvalidate packet s
  | .roceRdmaWrite packet => Sys2Proof.Machine.execRoceRdmaWrite packet s
  | .roceReadRequest packet => Sys2Proof.Machine.execRoceReadRequest packet s
  | .roceReadResponse packet => Sys2Proof.Machine.execRoceReadResponse packet s
  | .roceAcknowledge packet => Sys2Proof.Machine.execRoceAcknowledge packet s
  | .roceAtomic packet => Sys2Proof.Machine.execRoceAtomic packet s
  | .ackCoalesceTimer qpn => Sys2Proof.Machine.execAckCoalesceTimer qpn s
  | .ackTimeout qpn => Sys2Proof.Machine.execAckTimeout qpn s
  | .rnrTimer qpn => Sys2Proof.Machine.execRnrTimer qpn s
  | .finalFlagProcess qpn => Sys2Proof.Machine.execFinalFlagProcess qpn s
  | .invalidationComplete region => Sys2Proof.Machine.execInvalidationComplete region s
  | .trnStateWrite value => Sys2Proof.Machine.execTrnStateWrite value s
  | .capsuleArrive cap => Sys2Proof.Machine.execCapsuleArrive cap s
  | .tagAssign => Sys2Proof.Machine.execTagAssign s
  | .completionQueued tag => Sys2Proof.Machine.execCompletionQueued tag s
  | .tagFree tag => Sys2Proof.Machine.execTagFree tag s
  | .holdRelease => Sys2Proof.Machine.execHoldRelease s
  | .getLogPage tag => Sys2Proof.Machine.execGetLogPage tag s
  | .identify tag => Sys2Proof.Machine.execIdentify tag s
  | .abort tag => Sys2Proof.Machine.execAbort tag s
  | .setFeatures tag => Sys2Proof.Machine.execSetFeatures tag s
  | .getFeatures tag => Sys2Proof.Machine.execGetFeatures tag s
  | .asynchronousEventRequest tag => Sys2Proof.Machine.execAsynchronousEventRequest tag s
  | .firmwareImageDownload tag => Sys2Proof.Machine.execFirmwareImageDownload tag s
  | .firmwareCommit tag => Sys2Proof.Machine.execFirmwareCommit tag s
  | .keepAlive tag => Sys2Proof.Machine.execKeepAlive tag s
  | .keepAliveExpiry ctrl => Sys2Proof.Machine.execKeepAliveExpiry ctrl s
  | .fabricsConnect tag => Sys2Proof.Machine.execFabricsConnect tag s
  | .propertyGet tag => Sys2Proof.Machine.execPropertyGet tag s
  | .propertySet tag => Sys2Proof.Machine.execPropertySet tag s
  | .disconnect tag => Sys2Proof.Machine.execDisconnect tag s
  | .cstsRdyClear ctrl => Sys2Proof.Machine.execCstsRdyClear ctrl s
  | .shutdownComplete ctrl => Sys2Proof.Machine.execShutdownComplete ctrl s
  | .formatNvm tag => Sys2Proof.Machine.execFormatNvm tag s
  | .flush tag => Sys2Proof.Machine.execFlush tag s
  | .write tag => Sys2Proof.Machine.execWrite tag s
  | .read tag => Sys2Proof.Machine.execRead tag s
  | .compare tag => Sys2Proof.Machine.execCompare tag s
  | .writeZeroes tag => Sys2Proof.Machine.execWriteZeroes tag s
  | .datasetManagement tag => Sys2Proof.Machine.execDatasetManagement tag s
  | .reservationRegister tag => Sys2Proof.Machine.execReservationRegister tag s
  | .reservationReport tag => Sys2Proof.Machine.execReservationReport tag s
  | .reservationAcquire tag => Sys2Proof.Machine.execReservationAcquire tag s
  | .reservationRelease tag => Sys2Proof.Machine.execReservationRelease tag s
  | .snapshotCreate tag => Sys2Proof.Machine.execSnapshotCreate tag s
  | .snapshotDelete tag => Sys2Proof.Machine.execSnapshotDelete tag s
  | .snapshotList tag => Sys2Proof.Machine.execSnapshotList tag s
  | .cloneCreate tag => Sys2Proof.Machine.execCloneCreate tag s
  | .programRun tag => Sys2Proof.Machine.execProgramRun tag s
  | .programResults tag => Sys2Proof.Machine.execProgramResults tag s
  | .ps3EntryEnd => Sys2Proof.Machine.execPs3EntryEnd s
  | .ps3ExitEnd => Sys2Proof.Machine.execPs3ExitEnd s
  | .gearSeedWrite value => Sys2Proof.Machine.execGearSeedWrite value s
  | .digestStateDone ready => Sys2Proof.Machine.execDigestStateDone ready s
  | .dedupLookup tag off damaged upset => Sys2Proof.Machine.execDedupLookup tag off damaged upset s
  | .lookupAnswer tag off fault => Sys2Proof.Machine.execLookupAnswer tag off fault s
  | .verifyCompare tag off faults => Sys2Proof.Machine.execVerifyCompare tag off faults s
  | .reconcileEntry upset => Sys2Proof.Machine.execReconcileEntry upset s
  | .domainSweep sweep => Sys2Proof.Machine.execDomainSweep sweep s
  | .domainCfgWrite domain value => Sys2Proof.Machine.execDomainCfgWrite domain value s
  | .cascadeJournalEntry domain fp pair seq upset => Sys2Proof.Machine.execCascadeJournalEntry domain fp pair seq upset s
  | .cascadeHomeAnswer seq answer => Sys2Proof.Machine.execCascadeHomeAnswer seq answer s
  | .cascadeRelease pair seq loc => Sys2Proof.Machine.execCascadeRelease pair seq loc s
  | .remoteRead pair tag piece loc => Sys2Proof.Machine.execRemoteRead pair tag piece loc s
  | .remoteReadData tag piece container => Sys2Proof.Machine.execRemoteReadData tag piece container s
  | .lostNotice domain home loc => Sys2Proof.Machine.execLostNotice domain home loc s
  | .containerDecode tag at_ => Sys2Proof.Machine.execContainerDecode tag at_ s
  | .secondCopyArrive tag piece copy => Sys2Proof.Machine.execSecondCopyArrive tag piece copy s
  | .compJob c job => Sys2Proof.Machine.execCompJob c job s
  | .cipherJob c job => Sys2Proof.Machine.execCipherJob c job s
  | .jobSliceEnd c bytes fault upset => Sys2Proof.Machine.execJobSliceEnd c bytes fault upset s
  | .keyLoad c load damaged => Sys2Proof.Machine.execKeyLoad c load damaged s
  | .keyRetire c slot => Sys2Proof.Machine.execKeyRetire c slot s
  | .keyRevoke c kind slot => Sys2Proof.Machine.execKeyRevoke c kind slot s
  | .keyResweep c domain => Sys2Proof.Machine.execKeyResweep c domain s
  | .kekLoad value => Sys2Proof.Machine.execKekLoad value s
  | .mirrorWriteRecord rcd crc => Sys2Proof.Machine.execMirrorWriteRecord rcd crc s
  | .mirrorMetadataRecord rcd crc => Sys2Proof.Machine.execMirrorMetadataRecord rcd crc s
  | .mirrorReleaseRecord rcd crc => Sys2Proof.Machine.execMirrorReleaseRecord rcd crc s
  | .mirrorApplyDdrAck seq => Sys2Proof.Machine.execMirrorApplyDdrAck seq s
  | .mirrorAck ack => Sys2Proof.Machine.execMirrorAck ack s
  | .mirrorAckTimeout seq => Sys2Proof.Machine.execMirrorAckTimeout seq s
  | .soloDdrAck tag => Sys2Proof.Machine.execSoloDdrAck tag s
  | .segmentAgeExpiry seg => Sys2Proof.Machine.execSegmentAgeExpiry seg s
  | .laneStallResume lane => Sys2Proof.Machine.execLaneStallResume lane s
  | .vinLowWarning => Sys2Proof.Machine.execVinLowWarning s
  | .pwrfailNLow => Sys2Proof.Machine.execPwrfailNLow s
  | .destageNow => Sys2Proof.Machine.execDestageNow s
  | .frontLinksDown => Sys2Proof.Machine.execFrontLinksDown s
  | .destageSealed => Sys2Proof.Machine.execDestageSealed s
  | .powerFailNotice => Sys2Proof.Machine.execPowerFailNotice s
  | .pfHoldoffExpiry => Sys2Proof.Machine.execPfHoldoffExpiry s
  | .sewSignature pool bad => Sys2Proof.Machine.execSewSignature pool bad s
  | .logPageSend => Sys2Proof.Machine.execLogPageSend s
  | .logAppendAck id => Sys2Proof.Machine.execLogAppendAck id s
  | .logCopyTimeout copy => Sys2Proof.Machine.execLogCopyTimeout copy s
  | .logReseedDone copy => Sys2Proof.Machine.execLogReseedDone copy s
  | .folioWriteComplete id => Sys2Proof.Machine.execFolioWriteComplete id s
  | .folioWriteFail id nand => Sys2Proof.Machine.execFolioWriteFail id nand s
  | .grantRequest leaf => Sys2Proof.Machine.execGrantRequest leaf s
  | .poolTable pools => Sys2Proof.Machine.execPoolTable pools s
  | .gcCollect pool => Sys2Proof.Machine.execGcCollect pool s
  | .quireDrained quire => Sys2Proof.Machine.execQuireDrained quire s
  | .quireEraseComplete id => Sys2Proof.Machine.execQuireEraseComplete id s
  | .leafAbsent leaf => Sys2Proof.Machine.execLeafAbsent leaf s
  | .leafAbsentTimeout leaf => Sys2Proof.Machine.execLeafAbsentTimeout leaf s
  | .leafReturn leaf => Sys2Proof.Machine.execLeafReturn leaf s
  | .leafDrain leaf => Sys2Proof.Machine.execLeafDrain leaf s
  | .leafFail leaf => Sys2Proof.Machine.execLeafFail leaf s
  | .leafReadmit leaf => Sys2Proof.Machine.execLeafReadmit leaf s
  | .drainComplete leaf => Sys2Proof.Machine.execDrainComplete leaf s
  | .slowMemberTimeout id => Sys2Proof.Machine.execSlowMemberTimeout id s
  | .rebuildQuire => Sys2Proof.Machine.execRebuildQuire s
  | .acceptLoss pool => Sys2Proof.Machine.execAcceptLoss pool s
  | .patrolSignature quire sig found => Sys2Proof.Machine.execPatrolSignature quire sig found s
  | .poolEnable pool value => Sys2Proof.Machine.execPoolEnable pool value s
  | .poolMemberAdd pool word value => Sys2Proof.Machine.execPoolMemberAdd pool word value s
  | .leafHopActive lane pos => Sys2Proof.Machine.execLeafHopActive lane pos s
  | .leafHopDown lane pos => Sys2Proof.Machine.execLeafHopDown lane pos s
  | .leafHopDetect lane pos => Sys2Proof.Machine.execLeafHopDetect lane pos s
  | .leafReplayRequest lane pos seq => Sys2Proof.Machine.execLeafReplayRequest lane pos seq s
  | .leafEnumerationAnswer lane answer => Sys2Proof.Machine.execLeafEnumerationAnswer lane answer s
  | .leafIdentifyCompletion id ident => Sys2Proof.Machine.execLeafIdentifyCompletion id ident s
  | .leafSerialExchange serials => Sys2Proof.Machine.execLeafSerialExchange serials s
  | .leafReadCompletion id used current words => Sys2Proof.Machine.execLeafReadCompletion id used current words s
  | .leafErrorCompletion id status => Sys2Proof.Machine.execLeafErrorCompletion id status s
  | .proxyLeafRead id leaf unit folio first count => Sys2Proof.Machine.execProxyLeafRead id leaf unit folio first count s
  | .plannerMeasurements measures => Sys2Proof.Machine.execPlannerMeasurements measures s
  | .planInterval => Sys2Proof.Machine.execPlanInterval s
  | .witnessReadCompletion id rcd => Sys2Proof.Machine.execWitnessReadCompletion id rcd s
  | .witnessCasCompletion id rcd => Sys2Proof.Machine.execWitnessCasCompletion id rcd s
  | .pageInComplete page result => Sys2Proof.Machine.execPageInComplete page result s
  | .reclaimPage => Sys2Proof.Machine.execReclaimPage s
  | .nsCreate c params => Sys2Proof.Machine.execNsCreate c params s
  | .nsChange c params => Sys2Proof.Machine.execNsChange c params s
  | .nsDelete c nsid => Sys2Proof.Machine.execNsDelete c nsid s
  | .mapImport c nsid addr container => Sys2Proof.Machine.execMapImport c nsid addr container s
  | .poolMoveComplete nsid => Sys2Proof.Machine.execPoolMoveComplete nsid s
  | .cgArm group => Sys2Proof.Machine.execCgArm group s
  | .cgAbandon group => Sys2Proof.Machine.execCgAbandon group s
  | .consistencyCut group => Sys2Proof.Machine.execConsistencyCut group s
  | .mapCacheFill line parity => Sys2Proof.Machine.execMapCacheFill line parity s
  | .mapCacheEnable value => Sys2Proof.Machine.execMapCacheEnable value s
  | .invalidateAll => Sys2Proof.Machine.execInvalidateAll s
  | .invalidateRange lines => Sys2Proof.Machine.execInvalidateRange lines s
  | .invalidateDone => Sys2Proof.Machine.execInvalidateDone s
  | .streamBatch e => Sys2Proof.Machine.execStreamBatch e s
  | .difference e => Sys2Proof.Machine.execDifference e s
  | .wantReply e => Sys2Proof.Machine.execWantReply e s
  | .anchorMark e => Sys2Proof.Machine.execAnchorMark e s
  | .replicationAck e probe => Sys2Proof.Machine.execReplicationAck e probe s
  | .probe link e => Sys2Proof.Machine.execProbe link e s
  | .probeTimer link => Sys2Proof.Machine.execProbeTimer link s
  | .envelopeRelease set head => Sys2Proof.Machine.execEnvelopeRelease set head s
  | .batchClose set => Sys2Proof.Machine.execBatchClose set s
  | .idleWatermark set => Sys2Proof.Machine.execIdleWatermark set s
  | .anchorPeriod set => Sys2Proof.Machine.execAnchorPeriod set s
  | .replicationLinkDown link => Sys2Proof.Machine.execReplicationLinkDown link s
  | .suspendExpiry set => Sys2Proof.Machine.execSuspendExpiry set s
  | .setEnable set value far lacksKey => Sys2Proof.Machine.execSetEnable set value far lacksKey s
  | .replicationLinkEnable link value => Sys2Proof.Machine.execReplicationLinkEnable link value s
  | .resynchronise set => Sys2Proof.Machine.execResynchronise set s
  | .reverse set => Sys2Proof.Machine.execReverse set s
  | .promote set => Sys2Proof.Machine.execPromote set s
  | .prgLoad c tenant slot replace reservedZero package => Sys2Proof.Machine.execPrgLoad c tenant slot replace reservedZero package s
  | .prgUnload c tenant slot => Sys2Proof.Machine.execPrgUnload c tenant slot s
  | .programTableUpdate tenant slot package => Sys2Proof.Machine.execProgramTableUpdate tenant slot package s
  | .hostRun c params => Sys2Proof.Machine.execHostRun c params s
  | .indexBuild c params => Sys2Proof.Machine.execIndexBuild c params s
  | .tapAttach c nsid slot tiles dest len => Sys2Proof.Machine.execTapAttach c nsid slot tiles dest len s
  | .tapDetach c nsid slot => Sys2Proof.Machine.execTapDetach c nsid slot s
  | .tileGrant => Sys2Proof.Machine.execTileGrant s
  | .pieceDeliver run tile faults => Sys2Proof.Machine.execPieceDeliver run tile faults s
  | .budgetExceeded run => Sys2Proof.Machine.execBudgetExceeded run s
  | .runComplete run => Sys2Proof.Machine.execRunComplete run s
  | .resultKeepExpiry run => Sys2Proof.Machine.execResultKeepExpiry run s
  | .tileFence tile => Sys2Proof.Machine.execTileFence tile s
  | .accountingUpdate => Sys2Proof.Machine.execAccountingUpdate s
  | .acctClear value => Sys2Proof.Machine.execAcctClear value s
  | .ringHello link hello => Sys2Proof.Machine.execRingHello link hello s
  | .ringLinkDown link partials => Sys2Proof.Machine.execRingLinkDown link partials s
  | .ringLinkDetect link => Sys2Proof.Machine.execRingLinkDetect link s
  | .ringTrainingTimeout link => Sys2Proof.Machine.execRingTrainingTimeout link s
  | .ringReplayRequest link seq => Sys2Proof.Machine.execRingReplayRequest link seq s
  | .partialMessageTimeout link => Sys2Proof.Machine.execPartialMessageTimeout link s
  | .enumerationFlit link term keeper depth => Sys2Proof.Machine.execEnumerationFlit link term keeper depth s
  | .enumerationJoin join => Sys2Proof.Machine.execEnumerationJoin join s
  | .enumerationDirectory entries homes => Sys2Proof.Machine.execEnumerationDirectory entries homes s
  | .keeperGatherExpiry => Sys2Proof.Machine.execKeeperGatherExpiry s
  | .addressReserveExpiry address => Sys2Proof.Machine.execAddressReserveExpiry address s
  | .leave => Sys2Proof.Machine.execLeave s
  | .leaveNotice device => Sys2Proof.Machine.execLeaveNotice device s
  | .deviceIsolatedTimeout device => Sys2Proof.Machine.execDeviceIsolatedTimeout device s
  | .timeFlitSend link => Sys2Proof.Machine.execTimeFlitSend link s
  | .timeFlit link flit => Sys2Proof.Machine.execTimeFlit link flit s
  | .parentTimeLost => Sys2Proof.Machine.execParentTimeLost s
  | .holdoverExpiry => Sys2Proof.Machine.execHoldoverExpiry s
  | .keeperLost => Sys2Proof.Machine.execKeeperLost s
  | .floorPassed => Sys2Proof.Machine.execFloorPassed s
  | .timeCeilingRewrite => Sys2Proof.Machine.execTimeCeilingRewrite s
  | .heartbeatSend => Sys2Proof.Machine.execHeartbeatSend s
  | .heartbeat beat => Sys2Proof.Machine.execHeartbeat beat s
  | .peerSuspect => Sys2Proof.Machine.execPeerSuspect s
  | .stuckSuspectExpiry => Sys2Proof.Machine.execStuckSuspectExpiry s
  | .startHeartbeatTimeout => Sys2Proof.Machine.execStartHeartbeatTimeout s
  | .contestRetry => Sys2Proof.Machine.execContestRetry s
  | .force => Sys2Proof.Machine.execForce s
  | .epochProposal prop => Sys2Proof.Machine.execEpochProposal prop s
  | .epochAccept epoch => Sys2Proof.Machine.execEpochAccept epoch s
  | .forwardedCommand h cap => Sys2Proof.Machine.execForwardedCommand h cap s
  | .forwardedData fromOwner h units => Sys2Proof.Machine.execForwardedData fromOwner h units s
  | .forwardedCompletion h => Sys2Proof.Machine.execForwardedCompletion h s
  | .moveRequest group take => Sys2Proof.Machine.execMoveRequest group take s
  | .moveAccept group gen => Sys2Proof.Machine.execMoveAccept group gen s
  | .ownMove value => Sys2Proof.Machine.execOwnMove value s
  | .moveDrained => Sys2Proof.Machine.execMoveDrained s
  | .healthReportSend => Sys2Proof.Machine.execHealthReportSend s
  | .healthReport ready trial => Sys2Proof.Machine.execHealthReport ready trial s
  | .rejoinRequest => Sys2Proof.Machine.execRejoinRequest s
  | .scrubStep => Sys2Proof.Machine.execScrubStep s
  | .scrubDigest what digest last => Sys2Proof.Machine.execScrubDigest what digest last s
  | .scrubPageRequest what => Sys2Proof.Machine.execScrubPageRequest what s
  | .scrubPageImage image => Sys2Proof.Machine.execScrubPageImage image s
  | .sqTailDoorbell offset size value => Sys2Proof.Machine.execSqTailDoorbell offset size value s
  | .cqHeadDoorbell offset size value => Sys2Proof.Machine.execCqHeadDoorbell offset size value s
  | .sqFetch slice ring entry => Sys2Proof.Machine.execSqFetch slice ring entry s
  | .cqInterruptTimer slice ring => Sys2Proof.Machine.execCqInterruptTimer slice ring s
  | .hello c major lo hi => Sys2Proof.Machine.execHello c major lo hi s
  | .nop c => Sys2Proof.Machine.execNop c s
  | .cancel c ring cid waiting => Sys2Proof.Machine.execCancel c ring cid waiting s
  | .ringCreate c params => Sys2Proof.Machine.execRingCreate c params s
  | .ringDelete c ring => Sys2Proof.Machine.execRingDelete c ring s
  | .sliceCreate c params => Sys2Proof.Machine.execSliceCreate c params s
  | .sliceDestroy c slice => Sys2Proof.Machine.execSliceDestroy c slice s
  | .sliceFreeze c slice => Sys2Proof.Machine.execSliceFreeze c slice s
  | .sliceThaw c slice => Sys2Proof.Machine.execSliceThaw c slice s
  | .sliceSave c slice => Sys2Proof.Machine.execSliceSave c slice s
  | .sliceRestore c slice pasid image => Sys2Proof.Machine.execSliceRestore c slice pasid image s
  | .sliceReset c slice mode unfetched => Sys2Proof.Machine.execSliceReset c slice mode unfetched s
  | .sliceQuiesced slice => Sys2Proof.Machine.execSliceQuiesced slice s
  | .mgrEnable value => Sys2Proof.Machine.execMgrEnable value s
  | .frameSend c frame => Sys2Proof.Machine.execFrameSend c frame s
  | .frameRxPost c lport address length => Sys2Proof.Machine.execFrameRxPost c lport address length s
  | .qpCreate c qpn ctx => Sys2Proof.Machine.execQpCreate c qpn ctx s
  | .qpModify c qpn mask ctx => Sys2Proof.Machine.execQpModify c qpn mask ctx s
  | .qpDestroy c qpn => Sys2Proof.Machine.execQpDestroy c qpn s
  | .qpQuery c qpn => Sys2Proof.Machine.execQpQuery c qpn s
  | .regionRegister c index region => Sys2Proof.Machine.execRegionRegister c index region s
  | .regionInvalidate c key => Sys2Proof.Machine.execRegionInvalidate c key s
  | .wrPost c wr => Sys2Proof.Machine.execWrPost c wr s
  | .dmaXfer c desc => Sys2Proof.Machine.execDmaXfer c desc s
  | .dmaPause c channel => Sys2Proof.Machine.execDmaPause c channel s
  | .dmaResume c channel => Sys2Proof.Machine.execDmaResume c channel s
  | .dmaChPause channel => Sys2Proof.Machine.execDmaChPause channel s
  | .dmaChResume channel => Sys2Proof.Machine.execDmaChResume channel s
  | .dmaChWithdraw channel => Sys2Proof.Machine.execDmaChWithdraw channel s
  | .dmaBurstDone channel host failure => Sys2Proof.Machine.execDmaBurstDone channel host failure s
  | .tokenRequest quarter cls tokens => Sys2Proof.Machine.execTokenRequest quarter cls tokens s
  | .tokenReturn quarter => Sys2Proof.Machine.execTokenReturn quarter s
  | .recallAck quarter => Sys2Proof.Machine.execRecallAck quarter s
  | .recallTimeout quarter => Sys2Proof.Machine.execRecallTimeout quarter s
  | .budgetWrite value => Sys2Proof.Machine.execBudgetWrite value s
  | .powerCheck millivolts measured => Sys2Proof.Machine.execPowerCheck millivolts measured s
  | .trimDecay => Sys2Proof.Machine.execTrimDecay s
  | .quarterClockFault quarter => Sys2Proof.Machine.execQuarterClockFault quarter s
  | .sysclkLoss => Sys2Proof.Machine.execSysclkLoss s
  | .quarterWake quarter => Sys2Proof.Machine.execQuarterWake quarter s
  | .quarterPowerOff quarter => Sys2Proof.Machine.execQuarterPowerOff quarter s
  | .quarterRetain quarter => Sys2Proof.Machine.execQuarterRetain quarter s
  | .quarterWakeDone quarter => Sys2Proof.Machine.execQuarterWakeDone quarter s
  | .quarterDrained quarter => Sys2Proof.Machine.execQuarterDrained quarter s
  | .drainTimeout quarter => Sys2Proof.Machine.execDrainTimeout quarter s
  | .quarterFault quarter cause => Sys2Proof.Machine.execQuarterFault quarter cause s
  | .thermalSample temps => Sys2Proof.Machine.execThermalSample temps s
  | .canaryError quarter => Sys2Proof.Machine.execCanaryError quarter s
  | .marginPlan reports => Sys2Proof.Machine.execMarginPlan reports s
  | .verify => Sys2Proof.Machine.execVerify s
  | .bootWrite => Sys2Proof.Machine.execBootWrite s
  | .bootWriteComplete result => Sys2Proof.Machine.execBootWriteComplete result s
  | .activate => Sys2Proof.Machine.execActivate s
  | .activationPauseEnd dropped => Sys2Proof.Machine.execActivationPauseEnd dropped s
  | .confirm => Sys2Proof.Machine.execConfirm s
  | .revert => Sys2Proof.Machine.execRevert s
  | .revoke keyset => Sys2Proof.Machine.execRevoke keyset s
  | .confirmWindowExpiry => Sys2Proof.Machine.execConfirmWindowExpiry s
  | .firmwareWatchdogExpiry => Sys2Proof.Machine.execFirmwareWatchdogExpiry s
  | .recoveryGo image => Sys2Proof.Machine.execRecoveryGo image s
  | .recoveryRequest => Sys2Proof.Machine.execRecoveryRequest s
  | .recoveryImage bytes last => Sys2Proof.Machine.execRecoveryImage bytes last s
  | .testQuarter quarter force => Sys2Proof.Machine.execTestQuarter quarter force s
  | .testUnit quarter unit => Sys2Proof.Machine.execTestUnit quarter unit s
  | .calibrateChannel channel good => Sys2Proof.Machine.execCalibrateChannel channel good s
  | .testStandby quarter => Sys2Proof.Machine.execTestStandby quarter s
  | .testComplete pass => Sys2Proof.Machine.execTestComplete pass s
  | .rotationTimer kind => Sys2Proof.Machine.execRotationTimer kind s
  | .standbyTestTimer kind => Sys2Proof.Machine.execStandbyTestTimer kind s
  | .ddrCalibration channel good => Sys2Proof.Machine.execDdrCalibration channel good s
  | .ddrChannelLost channel => Sys2Proof.Machine.execDdrChannelLost channel s
  | .eventPageWrite => Sys2Proof.Machine.execEventPageWrite s
  | .eventControlSave => Sys2Proof.Machine.execEventControlSave s
  | .eventReadSelect index area => Sys2Proof.Machine.execEventReadSelect index area s
  | .newNonce => Sys2Proof.Machine.execNewNonce s
  | .clearGo => Sys2Proof.Machine.execClearGo s
  | .clearComplete => Sys2Proof.Machine.execClearComplete s
  | .histSwap => Sys2Proof.Machine.execHistSwap s
  | .cmdTagQuery value => Sys2Proof.Machine.execCmdTagQuery value s
  | .pfcPauseExpiry lport priority => Sys2Proof.Machine.execPfcPauseExpiry lport priority s
  | .vinOutOfRange millivolts => Sys2Proof.Machine.execVinOutOfRange millivolts s
  | .pciePerstRelease speed width => Sys2Proof.Machine.execPciePerstRelease speed width s
  | .ringLinkTrained link narrow => Sys2Proof.Machine.execRingLinkTrained link narrow s
  | .proxyReadData id words => Sys2Proof.Machine.execProxyReadData id words s
  | .poolMoveCopy nsid => Sys2Proof.Machine.execPoolMoveCopy nsid s
  | .rekeySweepStep step => Sys2Proof.Machine.execRekeySweepStep step s
  | .metadataWriteback => Sys2Proof.Machine.execMetadataWriteback s
  | .msixTableWrite vector address data masked => Sys2Proof.Machine.execMsixTableWrite vector address data masked s
  | .d3hotTransition hot => Sys2Proof.Machine.execD3hotTransition hot s
  | .leafHealthCompletion id dies => Sys2Proof.Machine.execLeafHealthCompletion id dies s
  | .logReadCompletion id pages torn => Sys2Proof.Machine.execLogReadCompletion id pages torn s

end Sys2Proof.Machine
end

