-- ==== Sys2Proof/Safety.lean ====
section
/-!
DEFINITION. Safety.lean: the terms that claims use: the parts of the state and what it is to change only some of them, the invariant of the
block's plain data, and a command that answers.
-/
namespace Sys2Proof.Machine
open Sys2Proof

/-- The parts of the state that a command may change: every field but the queue and the model's clock. Of the register file, one block of
R478 is a part (0 OLD, 1 SQR, 2 TMP, 3 BOOT, 4 EVT, 5 TST, 6 CHI, 7 DMA, 8 ETH, 9 TRN, 10 CMD, 11 BND, 12 DDP, 13 MAP, 14 SIG, 15 LFL,
16 XRN, 17 OWN, 18 REP, 19 PRG, 20 DDR, 21 KEY), and so is the whole file. -/
inductive Part where
  | block (b : Nat) | regs | holding | ringTime | pins | fuses | straps | power | boot | test | evt | nor | host | ports | trn | cmd | bnd | ddp | keys | wc | sig | lfl | map | rep | prg | xrn | chan | own | store | mem | free | out | hostWait
  deriving DecidableEq, Repr

/-- The state with one part blanked. -/
def State.blank (s : State) : Part → State
  | .block b => { s with regs := s.regs.filter fun e => keyBlock e.1 != b }
  | .regs => { s with regs := [] }
  | .holding => { s with holding := {} }
  | .ringTime => { s with ringTime := 0 }
  | .pins => { s with pins := {} }
  | .fuses => { s with fuses := {} }
  | .straps => { s with straps := Straps.pulledDown }
  | .power => { s with power := { quarters := [] } }
  | .boot => { s with boot := {} }
  | .test => { s with test := {} }
  | .evt => { s with evt := {} }
  | .nor => { s with nor := {} }
  | .host => { s with host := {} }
  | .ports => { s with ports := [] }
  | .trn => { s with trn := {} }
  | .cmd => { s with cmd := {} }
  | .bnd => { s with bnd := {} }
  | .ddp => { s with ddp := {} }
  | .keys => { s with keys := {} }
  | .wc => { s with wc := {} }
  | .sig => { s with sig := {} }
  | .lfl => { s with lfl := {} }
  | .map => { s with map := {} }
  | .rep => { s with rep := {} }
  | .prg => { s with prg := {} }
  | .xrn => { s with xrn := {} }
  | .chan => { s with chan := {} }
  | .own => { s with own := {} }
  | .store => { s with store := {} }
  | .mem => { s with mem := [] }
  | .free => { s with free := 0 }
  | .out => { s with out := [] }
  | .hostWait => { s with hostWait := [] }

/-- The state with several parts blanked. -/
def State.blankAll (s : State) : List Part → State
  | [] => s
  | p :: ps => (s.blank p).blankAll ps

/-- Two states agree in the queue, the model's clock and every part but those listed: `t` differs from `s` at most there. -/
def OnlyIn (ps : List Part) (s t : State) : Prop := t.blankAll ps = s.blankAll ps

/-- The plain data of the block is in its canonical form: the DDR bytes (strictly rising addresses, no byte listed that an unlisted address
reads as), and the register file (strictly rising keys). -/
def State.Inv (s : State) : Prop := Memory.wf s.mem ∧ Table.Rising s.regs

/-- A command answers a next state, of which something holds. -/
def Answers (c : Instr) (s : State) (post : State → Prop) : Prop := ∃ t, exec c s = .next t ∧ post t

/-! Short words for what a completion statement says -/

/-- What a write of a value leaves in a field: its low bits, as many as the field is wide. -/
def RField.fit (f : RField) (v : Nat) : Nat := v % 2 ^ f.width

/-- The tokens that requests hold or wait for (R425). -/
def State.heldTokens (s : State) : Nat :=
  (s.power.granted.map TokenLot.tokens).sum + (s.power.waiting.map TokenLot.tokens).sum

/-- A command has sent an output: it stands among those that the next state has beyond this one's. -/
def Sends (s t : State) (o : Out) : Prop := ∃ new, t.out = new ++ s.out ∧ o ∈ new

/-- A RoCEv2 packet has been given to the port of its queue pair: it has left, as it is or with the SecTAGs that MACsec gives its frames, it
waits while RoCE's priority is paused there (R41) or its QT role is between quarters (R461), or MACsec, with no association that may send,
drops it (R43, R44). -/
def Emits (s t : State) (n : Nat) (o : RoceOut) : Prop :=
  Sends s t (.packet n o) ∨ (∃ tags, Sends s t (.secured n o (s.qp n).lport tags)) ∨ (n, o) ∈ (t.lport (s.qp n).lport).held ∨
    (t.secTake (s.qp n).lport).1 = .drop

/-- A message has been given to the ring (R335): where a link takes it, it has left or waits in its virtual channel. -/
def Rings (s t : State) (o : Out) : Prop :=
  ∀ l, s.linkFor o = some l → Sends s t o ∨ o ∈ Table.get (chanKey l o.channel) [] t.chan.waiting ∨ s.waitsForPair o = true ∧ o ∈ t.chan.owed

/-- A message has been broadcast (R342): on every link down the parent tree it has left or waits in its virtual channel. -/
def Casts (s t : State) (o : Out) : Prop :=
  ∀ l ∈ t.childLinks, Sends s t o ∨ o ∈ Table.get (chanKey l o.channel) [] t.chan.waiting

/-- A frame bound for the control host has been counted on its logical port: within the limit of R40 among the frames of the window, above it
among the drops. -/
def HostBound (s t : State) (l : Nat) : Prop :=
  if s.rd Reg.ETH_HOST_LIMIT.FRAMES_PER_S (l / 4) = 0 ∨ (s.lport l).hostFrames * 1000 < s.rd Reg.ETH_HOST_LIMIT.FRAMES_PER_S (l / 4) then
    (t.lport l).hostFrames = (s.lport l).hostFrames + 1
  else (t.lport l).limitDrops = (s.lport l).limitDrops + 1

/-- A slice can take an event at once (R381, R396): it lives, its CQ 0 has one of the 16 entries free, and the function is not in D3hot. -/
def State.takesEvents (s : State) (n : Nat) : Bool :=
  !s.host.d3hot && (Table.find n s.host.slices).any fun sl => sl.live &&
    (Table.find 0 sl.rings).any fun r => decide ((r.waiting.filter fun e => e.2.2).length < 16)

/-- An event stands in CQ 0 of a slice, with its code and detail (R396). -/
def Posts (s t : State) (n code detail : Nat) : Prop := ∃ h r1 p, Sends s t (.cqEntry n 0 0xFFFFFFFF code h detail r1 p)

/-- A queue pair has gone to Error and its slice has the event of it, with the reason in [31:24] (R50; the event's code is the model's, log
entry 74). -/
def Fails (s t : State) (n reason : Nat) : Prop :=
  (t.qp n).state = .error ∧
    (s.takesEvents (s.qp n).slice = true → Posts s t (s.qp n).slice qpErrorStatus (n + 2 ^ 24 * (reason % 256)))

/-- A packet is the oldest of its queue pair on the direct path, and the context is on die (R58). -/
def State.first (s : State) (p : Packet) : Bool := (s.trn.direct.find? fun x => x.qpn == p.qpn) == some p && s.onDie p.qpn

/-- A command for a leaf is outstanding there, or waits its turn (R233, R234). -/
def AtLeaf (t : State) (l : Nat) (f : LeafFor) : Prop := ∃ e ∈ t.lfl.ops, e.2.leaf = l ∧ e.2.for_ = f

/-- A ring command can be answered: its slice holds its ring, no reset has squashed it, and the function is not in D3hot (R398, R399). -/
def State.answers (s : State) (c : HostCmd) : Bool :=
  !s.host.d3hot && (Table.find c.slice s.host.slices).any fun sl =>
    Table.has c.ring sl.rings && !(sl.started.any fun x => x.squashed && x.ring == c.ring && x.cid == c.cid)

/-- A ring command that its slice takes: Active, with the capability, able to be answered (R395, R397). -/
def State.accepts (s : State) (c : HostCmd) (cap : Cap) : Bool :=
  s.answers c && (s.sliceOf c).state == .active && (s.sliceOf c).holds c.slice cap

/-- A ring command completes: an entry of its ring carries its identifier, a status and two results (R392). -/
def Completes (s t : State) (c : HostCmd) (status r0 r1 : Nat) : Prop :=
  ∃ h p, Sends s t (.cqEntry c.slice c.ring c.cid status h r0 r1 p)

/-- A ring of a slice. -/
def State.ringAt (s : State) (n k : Nat) : Option Ring := (Table.find n s.host.slices).bind fun sl => Table.find k sl.rings

/-- The state that a slice number shows; Free where none lives there. -/
def State.sliceState (s : State) (n : Nat) : SliceState := ((Table.find n s.host.slices).map Slice.state).getD .free

/-- Internal work has joined those that wait for a tag, to answer a ring command or none (R77). -/
def Asks (s t : State) (job : InternalJob) (host : Option HostCmd) : Prop :=
  ∃ w, t.cmd.internal = s.cmd.internal ++ [w] ∧ w.made.map (fun (c : Cmd) => (c.job, c.host)) = some (some job, host)

/-- The status with which the command in a tag has ended. -/
def State.ended (s : State) (n : Nat) : Option NvmeStatus := (s.tag n).bind Cmd.status

/-- A change of metadata has been handed off: its record is queued and its command is past the point of no return (R29). -/
def State.handedOff (t : State) (n : Nat) (op : MetaOp) : Prop :=
  ∃ c w, t.tag n = some c ∧ c.state = .pastReturn ∧ c.change = some op ∧ c.write = some w ∧ w.queued = true

/-- A record of the metadata lane finds room in a segment (R162). -/
def State.hasRoom (s : State) (len : Nat) : Bool := (s.roomFor metaLane len).1.isSome

/-- The state in which a command's own step runs. -/
def State.begun (s : State) (n : Nat) (c : Cmd) : State := s.setTag n { c with begun := true }

/-- The state after a lookup has read the pages of a range through the map cache (R256). -/
def State.touched (s : State) (nsid root lo hi : Nat) : State := s.touchWalk nsid root lo hi

/-- The delta of the write in a tag can enter its tree at its commit point (R256, R262, R278): MAP_CTRL.EN is 1, the pages on its way are resident
or cannot be read, and a page number and a slot are left for each page that it makes. -/
def State.canUpdate (s : State) (n : Nat) (c : Cmd) (w : WriteJob) : Bool :=
  have u := s.modWrite n fun w => { w with committed := true }
  ((u.countDelta (u.currentDelta w)).updateFor c (u.currentDelta w)).1

/-- A piece of the read in a tag. -/
def State.pieceAt (s : State) (n k : Nat) : Option ReadPiece := (s.tag n).bind fun c => c.pieces[k]?

/-- A chunk of the write in a tag, by its offset. -/
def State.chunkOf (s : State) (n off : Nat) : Option Chunk := ((s.tag n).bind Cmd.write).bind fun w => w.chunkAt off

/-- This head may start a contest (R366). -/
def State.mayContest (s : State) : Bool :=
  s.on Reg.OWN_CTRL.EN && s.own.contest.isNone && s.wc.mode != .destage && !s.own.loser

/-- The tables of the programs have their place in DDR (R310). -/
def State.programsPlaced (s : State) : Bool :=
  s.rd Reg.PRG_TABLE_BASE.BASE != 0 && s.rd Reg.PRG_STORE_BASE.BASE != 0 && s.rd Reg.PRG_SLOTMAP_BASE.BASE != 0

/-- A run that is a tap (R323). -/
def RunKind.isTap : RunKind → Bool
  | .tap _ _ _ => true
  | .scan _ | .host _ _ _ | .index _ _ _ => false

/-- An envelope that a running target takes: good, of the stream's session, and the next of it (R286, R288). -/
def State.inSession (s : State) (e : Envelope) : Bool :=
  s.repRuns e.set true && e.crcOk && e.tagOk && (s.stream e.set e.from_).session == e.session &&
    e.seq == (s.stream e.set e.from_).mark + 1

/-! Resets, and the values that an encoding admits -/

/-- A command that resets the domain of a block (R478, R480): the part's resets every block, a function reset CHI and DMA. -/
def resetsDomain (b : Nat) : Instr → Bool
  | .vinGood _ | .vinCollapse _ | .vinOvervoltage _ | .resetBallAssert | .partSelfReset | .destageSealed => true
  | .pciePerstAssert | .functionReset _ => b == 6 || b == 7
  | _ => false

/-- A header whose fields have values of their widths (R132). -/
def Header.fits (h : Header) : Bool :=
  decide (h.alg < 4 ∧ h.domain < 4096 ∧ h.slot < 8192 ∧ h.gen < 256 ∧ h.orig < 131072 ∧ h.payload < 131072 ∧ h.cut < 2 ^ 64 ∧ h.ring < 4096 ∧
    h.lane < 64 ∧ h.crc < 2 ^ 32)

/-- A location whose fields have values of their widths (R250). -/
def Loc.fits : Loc → Bool
  | .unmapped | .zero => true
  | .image _ => false
  | .cache _ seg gen off size => decide (seg < 65536 ∧ gen < 65536 ∧ off < 2 ^ 32 ∧ size < 131072)
  | .flash pool quire sig mem off size | .lost pool quire sig mem off size =>
    decide (pool < 64 ∧ quire < 2 ^ 24 ∧ sig < 4096 ∧ mem < 32 ∧ off < 4096 ∧ size < 131072)
  | .remote home pool quire sig mem off size =>
    decide (home < 4096 ∧ pool < 64 ∧ quire < 2 ^ 24 ∧ sig < 4096 ∧ mem < 32 ∧ off < 4096 ∧ size < 131072)

end Sys2Proof.Machine
end

