-- ==== Sys2Proof/Footprint.lean ====
section
/-!
DEFINITION. Footprint.lean: for every command the parts of the state that it may change, which the frame statements name. A part that is not
listed for a command is left as it is by it, on every path: so is every byte of DDR memory where `.mem` is not listed, every register of a
block whose `.block` is not listed, and every component whose name is not listed.
-/
namespace Sys2Proof.Machine
open Sys2Proof

/-- The parts of the state that each command may change. A command that resets the part lists every part that a reset sets. -/
def partsOf : Instr → List Part
  | .registerWrite _ _ _ => [.regs, .holding, .power, .test, .evt, .nor, .host, .ports, .trn, .cmd, .ddp, .keys, .wc, .sig, .lfl, .map,
      .rep, .prg, .xrn, .chan, .own, .store, .mem, .free, .out, .hostWait]
  | .rcRead _ _ => [.regs, .holding, .trn, .out]
  | .badSizeAccess _ _ _ => [.out]
  | .setupLockWrite _ _ => [.regs, .holding]
  | .vinGood _ => [.regs, .holding, .ringTime, .pins, .power, .boot, .test, .evt, .nor, .host, .ports, .trn, .cmd, .bnd, .ddp, .keys, .wc,
      .sig, .lfl, .map, .rep, .prg, .xrn, .chan, .own, .out, .hostWait]
  | .vinCollapse _ => [.regs, .holding, .ringTime, .pins, .power, .boot, .test, .evt, .nor, .host, .ports, .trn, .cmd, .bnd, .ddp, .keys,
      .wc, .sig, .lfl, .map, .rep, .prg, .xrn, .chan, .own, .store, .mem, .hostWait]
  | .vinOvervoltage _ => [.regs, .holding, .ringTime, .pins, .power, .boot, .test, .evt, .nor, .host, .ports, .trn, .cmd, .bnd, .ddp, .keys,
      .wc, .sig, .lfl, .map, .rep, .prg, .xrn, .chan, .own, .store, .mem, .hostWait]
  | .converterPhaseLoss => [.block 4, .block 6, .pins, .power, .evt, .nor, .host, .out, .hostWait]
  | .resetBallAssert => [.regs, .holding, .ringTime, .pins, .power, .boot, .test, .evt, .nor, .host, .ports, .trn, .cmd, .bnd, .ddp, .keys,
      .wc, .sig, .lfl, .map, .rep, .prg, .xrn, .chan, .own, .hostWait]
  | .strapSample _ _ => [.block 1, .block 3, .block 4, .block 6, .block 8, .block 15, .block 16, .pins, .fuses, .straps, .power, .boot,
      .evt, .nor, .host, .keys, .chan, .free, .out, .hostWait]
  | .bootImageLoaded => [.block 3, .block 4, .block 6, .boot, .evt, .nor, .host, .out, .hostWait]
  | .firmwareStart _ _ _ _ => [.block 2, .block 4, .block 6, .block 11, .block 12, .block 13, .block 14, .block 16, .block 20, .pins,
      .power, .test, .evt, .nor, .host, .cmd, .ddp, .keys, .wc, .sig, .map, .rep, .xrn, .own, .store, .free, .out, .hostWait]
  | .partSelfReset => [.regs, .holding, .ringTime, .pins, .power, .boot, .test, .evt, .nor, .host, .ports, .trn, .cmd, .bnd, .ddp, .keys,
      .wc, .sig, .lfl, .map, .rep, .prg, .xrn, .chan, .own, .hostWait]
  | .pciePerstAssert => [.regs, .holding, .pins, .evt, .nor, .host, .ports, .trn, .cmd, .bnd, .ddp, .keys, .sig, .lfl, .map, .rep, .prg,
      .chan, .store, .out, .hostWait]
  | .functionReset _ => [.regs, .holding, .evt, .nor, .host, .ports, .trn, .cmd, .bnd, .ddp, .keys, .sig, .lfl, .map, .rep, .prg, .chan,
      .store, .out, .hostWait]
  | .atsInvalidate _ => [.host, .out]
  | .hostRequestFailed _ => [.block 7, .host, .out, .hostWait]
  | .frameReceive _ => [.block 6, .block 8, .block 9, .host, .ports, .trn, .out, .hostWait]
  | .hostLimitWindow => [.ports]
  | .linkChange _ _ => [.regs, .holding]
  | .pfcReceive _ _ => [.regs, .holding, .host, .ports, .trn, .out, .hostWait]
  | .xoffRefresh => [.out]
  | .roceCnp _ => [.block 9, .trn]
  | .rateIncrease _ => [.trn]
  | .frameTransmit _ => [.regs, .holding, .host, .ports, .trn, .out, .hostWait]
  | .ptpTxStampRead _ => [.block 8, .trn, .out]
  | .contextWritebackAck _ => [.block 9, .trn]
  | .contextEligible _ => [.block 9, .trn]
  | .contextFetchDone _ _ _ => [.block 1, .block 4, .block 5, .block 6, .block 9, .block 10, .block 11, .block 12, .block 13, .block 19,
      .block 20, .power, .test, .evt, .nor, .host, .ports, .trn, .cmd, .ddp, .keys, .sig, .lfl, .map, .rep, .prg, .chan, .store, .free,
      .out, .hostWait]
  | .laybyDrainPacket _ => [.block 1, .block 4, .block 5, .block 6, .block 9, .block 10, .block 11, .block 12, .block 13, .block 19,
      .block 20, .power, .test, .evt, .nor, .host, .ports, .trn, .cmd, .bnd, .ddp, .keys, .wc, .sig, .lfl, .map, .rep, .prg, .chan, .store,
      .mem, .free, .out, .hostWait]
  | .roceSend _ => [.block 1, .block 4, .block 5, .block 6, .block 9, .block 10, .block 11, .block 12, .block 13, .block 19, .block 20,
      .power, .test, .evt, .nor, .host, .ports, .trn, .cmd, .bnd, .ddp, .keys, .wc, .sig, .lfl, .map, .rep, .prg, .chan, .store, .mem,
      .free, .out, .hostWait]
  | .roceSendInvalidate _ => [.block 1, .block 4, .block 5, .block 6, .block 9, .block 10, .block 11, .block 12, .block 13, .block 19,
      .block 20, .power, .test, .evt, .nor, .host, .ports, .trn, .cmd, .bnd, .ddp, .keys, .wc, .sig, .lfl, .map, .rep, .prg, .chan, .store,
      .mem, .free, .out, .hostWait]
  | .roceRdmaWrite _ => [.block 1, .block 4, .block 5, .block 6, .block 9, .block 10, .block 11, .block 12, .block 13, .block 19, .block 20,
      .power, .test, .evt, .nor, .host, .ports, .trn, .cmd, .bnd, .ddp, .keys, .wc, .sig, .lfl, .map, .rep, .prg, .chan, .store, .mem,
      .free, .out, .hostWait]
  | .roceReadRequest _ => [.block 1, .block 4, .block 5, .block 6, .block 9, .block 10, .block 11, .block 12, .block 13, .block 19,
      .block 20, .power, .test, .evt, .nor, .host, .ports, .trn, .cmd, .bnd, .ddp, .keys, .wc, .sig, .lfl, .map, .rep, .prg, .chan, .store,
      .mem, .free, .out, .hostWait]
  | .roceReadResponse _ => [.block 1, .block 4, .block 5, .block 6, .block 9, .block 10, .block 11, .block 12, .block 13, .block 19,
      .block 20, .power, .test, .evt, .nor, .host, .ports, .trn, .cmd, .bnd, .ddp, .keys, .wc, .sig, .lfl, .map, .rep, .prg, .chan, .store,
      .mem, .free, .out, .hostWait]
  | .roceAcknowledge _ => [.block 1, .block 4, .block 5, .block 6, .block 9, .block 10, .block 11, .block 12, .block 13, .block 19,
      .block 20, .power, .test, .evt, .nor, .host, .ports, .trn, .cmd, .bnd, .ddp, .keys, .wc, .sig, .lfl, .map, .rep, .prg, .chan, .store,
      .mem, .free, .out, .hostWait]
  | .roceAtomic _ => [.block 1, .block 4, .block 5, .block 6, .block 9, .block 10, .block 11, .block 12, .block 13, .block 19, .block 20,
      .power, .test, .evt, .nor, .host, .ports, .trn, .cmd, .bnd, .ddp, .keys, .wc, .sig, .lfl, .map, .rep, .prg, .chan, .store, .mem,
      .free, .out, .hostWait]
  | .ackCoalesceTimer _ => [.ports, .trn, .out]
  | .ackTimeout _ => [.block 1, .block 4, .block 5, .block 6, .block 10, .block 11, .block 12, .block 13, .block 19, .block 20, .power,
      .test, .evt, .nor, .host, .ports, .trn, .cmd, .ddp, .keys, .sig, .lfl, .map, .rep, .prg, .chan, .store, .free, .out, .hostWait]
  | .rnrTimer _ => [.block 1, .block 4, .block 5, .block 6, .block 10, .block 11, .block 12, .block 13, .block 19, .block 20, .power, .test,
      .evt, .nor, .host, .ports, .trn, .cmd, .ddp, .keys, .sig, .lfl, .map, .rep, .prg, .chan, .store, .free, .out, .hostWait]
  | .finalFlagProcess _ => [.host, .ports, .trn, .mem, .out, .hostWait]
  | .invalidationComplete _ => [.host, .trn, .mem, .out, .hostWait]
  | .trnStateWrite _ => [.block 9]
  | .capsuleArrive _ => [.block 1, .block 4, .block 5, .block 6, .block 10, .block 11, .block 12, .block 13, .block 19, .block 20, .power,
      .test, .evt, .nor, .host, .ports, .trn, .cmd, .ddp, .keys, .sig, .lfl, .map, .rep, .prg, .chan, .store, .free, .out, .hostWait]
  | .tagAssign => [.regs, .holding, .evt, .nor, .host, .ports, .trn, .cmd, .ddp, .keys, .wc, .sig, .lfl, .map, .rep, .prg, .chan, .store,
      .mem, .free, .out, .hostWait]
  | .completionQueued _ => [.block 4, .block 6, .block 10, .block 13, .block 20, .evt, .nor, .host, .cmd, .sig, .map, .prg, .store, .out,
      .hostWait]
  | .tagFree _ => [.block 4, .block 6, .block 10, .block 11, .block 12, .block 13, .block 19, .block 20, .evt, .nor, .host, .ports, .trn,
      .cmd, .bnd, .ddp, .keys, .wc, .sig, .lfl, .map, .prg, .chan, .store, .free, .out, .hostWait]
  | .holdRelease => [.regs, .holding, .evt, .nor, .host, .ports, .trn, .cmd, .ddp, .keys, .wc, .sig, .lfl, .map, .rep, .prg, .chan, .store,
      .mem, .free, .out, .hostWait]
  | .getLogPage _ => [.cmd, .free, .out]
  | .identify _ => [.cmd, .out]
  | .abort _ => [.block 4, .block 6, .block 10, .block 12, .block 13, .block 19, .block 20, .evt, .nor, .host, .ports, .trn, .cmd, .ddp,
      .keys, .sig, .lfl, .map, .prg, .chan, .store, .out, .hostWait]
  | .setFeatures _ => [.block 1, .block 4, .block 5, .block 6, .block 10, .block 11, .block 19, .power, .test, .evt, .nor, .host, .cmd,
      .out, .hostWait]
  | .getFeatures _ => [.cmd]
  | .asynchronousEventRequest _ => [.cmd]
  | .firmwareImageDownload _ => [.block 3, .cmd, .mem]
  | .firmwareCommit _ => [.block 3, .block 4, .block 6, .block 10, .block 13, .block 20, .boot, .evt, .nor, .host, .cmd, .sig, .map, .prg,
      .store, .free, .out, .hostWait]
  | .keepAlive _ => [.cmd]
  | .keepAliveExpiry _ => [.block 1, .block 4, .block 5, .block 6, .block 10, .block 11, .block 12, .block 13, .block 19, .block 20, .power,
      .test, .evt, .nor, .host, .ports, .trn, .cmd, .ddp, .keys, .sig, .lfl, .map, .rep, .prg, .chan, .store, .out, .hostWait]
  | .fabricsConnect _ => [.cmd]
  | .propertyGet _ => [.cmd, .free]
  | .propertySet _ => [.block 1, .block 4, .block 5, .block 6, .block 10, .block 11, .block 12, .block 13, .block 19, .block 20, .power,
      .test, .evt, .nor, .host, .ports, .trn, .cmd, .ddp, .keys, .sig, .lfl, .map, .rep, .prg, .chan, .store, .out, .hostWait]
  | .disconnect _ => [.block 1, .block 4, .block 5, .block 6, .block 10, .block 11, .block 12, .block 13, .block 19, .block 20, .power,
      .test, .evt, .nor, .host, .ports, .trn, .cmd, .ddp, .keys, .sig, .lfl, .map, .rep, .prg, .chan, .store, .out, .hostWait]
  | .cstsRdyClear _ => [.cmd]
  | .shutdownComplete _ => [.cmd]
  | .formatNvm _ => [.block 4, .block 6, .block 12, .block 13, .block 19, .block 20, .evt, .nor, .host, .cmd, .ddp, .keys, .wc, .sig, .lfl,
      .map, .prg, .chan, .store, .out, .hostWait]
  | .flush _ => [.cmd]
  | .write _ => [.block 4, .block 6, .block 11, .block 12, .block 13, .block 19, .block 20, .evt, .nor, .host, .ports, .trn, .cmd, .bnd,
      .ddp, .keys, .wc, .sig, .lfl, .map, .prg, .chan, .store, .free, .out, .hostWait]
  | .read _ => [.regs, .holding, .evt, .nor, .host, .ports, .trn, .cmd, .ddp, .keys, .sig, .lfl, .map, .rep, .prg, .chan, .store, .mem,
      .free, .out, .hostWait]
  | .compare _ => [.regs, .holding, .evt, .nor, .host, .ports, .trn, .cmd, .bnd, .ddp, .keys, .wc, .sig, .lfl, .map, .rep, .prg, .chan,
      .store, .mem, .free, .out, .hostWait]
  | .writeZeroes _ => [.block 12, .block 13, .block 19, .block 20, .cmd, .ddp, .keys, .wc, .sig, .lfl, .map, .prg, .chan, .store, .out]
  | .datasetManagement _ => [.block 12, .block 13, .block 19, .block 20, .cmd, .ddp, .keys, .wc, .sig, .lfl, .map, .prg, .chan, .store,
      .out]
  | .reservationRegister _ => [.block 4, .block 6, .block 12, .block 13, .block 19, .block 20, .evt, .nor, .host, .cmd, .ddp, .keys, .wc,
      .sig, .lfl, .map, .prg, .chan, .store, .out, .hostWait]
  | .reservationReport _ => [.cmd, .out]
  | .reservationAcquire _ => [.block 4, .block 6, .block 10, .block 12, .block 13, .block 19, .block 20, .evt, .nor, .host, .cmd, .ddp,
      .keys, .wc, .sig, .lfl, .map, .prg, .chan, .store, .out, .hostWait]
  | .reservationRelease _ => [.block 4, .block 6, .block 12, .block 13, .block 19, .block 20, .evt, .nor, .host, .cmd, .ddp, .keys, .wc,
      .sig, .lfl, .map, .prg, .chan, .store, .out, .hostWait]
  | .snapshotCreate _ => [.block 4, .block 6, .block 12, .block 13, .block 19, .block 20, .evt, .nor, .host, .cmd, .ddp, .keys, .wc, .sig,
      .lfl, .map, .prg, .chan, .store, .out, .hostWait]
  | .snapshotDelete _ => [.block 4, .block 6, .block 12, .block 13, .block 19, .block 20, .evt, .nor, .host, .cmd, .ddp, .keys, .wc, .sig,
      .lfl, .map, .prg, .chan, .store, .out, .hostWait]
  | .snapshotList _ => [.ports, .trn, .cmd, .chan, .out]
  | .cloneCreate _ => [.block 4, .block 6, .block 12, .block 13, .block 19, .block 20, .evt, .nor, .host, .cmd, .ddp, .keys, .wc, .sig,
      .lfl, .map, .prg, .chan, .store, .out, .hostWait]
  | .programRun _ => [.block 19, .host, .ports, .trn, .cmd, .prg, .mem, .free, .out, .hostWait]
  | .programResults _ => [.block 19, .ports, .trn, .cmd, .prg, .chan, .mem, .out]
  | .ps3EntryEnd => [.block 1, .block 4, .block 6, .block 10, .block 11, .block 13, .block 19, .block 20, .power, .evt, .nor, .host, .cmd,
      .sig, .map, .prg, .store, .out, .hostWait]
  | .ps3ExitEnd => [.regs, .holding, .power, .test, .evt, .nor, .host, .ports, .trn, .cmd, .ddp, .keys, .wc, .sig, .lfl, .map, .rep, .prg,
      .chan, .store, .mem, .free, .out, .hostWait]
  | .gearSeedWrite _ => [.block 11]
  | .digestStateDone _ => [.block 4, .block 6, .block 11, .block 12, .block 13, .block 19, .block 20, .evt, .nor, .host, .cmd, .bnd, .ddp,
      .keys, .sig, .lfl, .map, .prg, .chan, .store, .free, .out, .hostWait]
  | .dedupLookup _ _ _ _ => [.block 4, .block 6, .block 11, .block 12, .evt, .nor, .host, .cmd, .ddp, .out, .hostWait]
  | .lookupAnswer _ _ _ => [.regs, .holding, .evt, .nor, .host, .cmd, .ddp, .keys, .wc, .sig, .lfl, .map, .rep, .prg, .chan, .store, .mem,
      .free, .out, .hostWait]
  | .verifyCompare _ _ _ => [.block 4, .block 6, .block 11, .block 12, .block 13, .block 19, .block 20, .evt, .nor, .host, .ports, .trn,
      .cmd, .ddp, .keys, .wc, .sig, .lfl, .map, .prg, .chan, .store, .free, .out, .hostWait]
  | .reconcileEntry _ => [.block 4, .block 6, .block 10, .block 11, .block 12, .block 13, .block 20, .evt, .nor, .host, .cmd, .ddp, .keys,
      .sig, .map, .chan, .store, .out, .hostWait]
  | .domainSweep _ => [.block 4, .block 6, .block 10, .block 11, .block 12, .block 13, .evt, .nor, .host, .cmd, .ddp, .keys, .map, .chan,
      .out, .hostWait]
  | .domainCfgWrite _ _ => [.block 12]
  | .cascadeJournalEntry _ _ _ _ _ => [.block 4, .block 6, .block 11, .evt, .nor, .host, .ddp, .map, .chan, .out, .hostWait]
  | .cascadeHomeAnswer _ _ => [.block 4, .block 6, .block 10, .block 11, .block 12, .block 13, .evt, .nor, .host, .cmd, .ddp, .keys, .map,
      .chan, .out, .hostWait]
  | .cascadeRelease _ _ _ => [.block 12, .cmd, .ddp, .keys, .map, .chan, .out]
  | .remoteRead _ _ _ _ => [.cmd]
  | .remoteReadData _ _ _ => [.block 4, .block 6, .block 10, .block 11, .block 18, .evt, .nor, .host, .cmd, .ddp, .keys, .sig, .rep, .prg,
      .chan, .free, .out, .hostWait]
  | .lostNotice _ _ _ => [.regs, .holding, .evt, .nor, .host, .cmd, .ddp, .keys, .sig, .map, .store, .mem, .out, .hostWait]
  | .containerDecode _ _ => [.regs, .holding, .evt, .nor, .host, .ports, .trn, .cmd, .bnd, .ddp, .keys, .wc, .sig, .lfl, .map, .rep, .prg,
      .chan, .store, .mem, .free, .out, .hostWait]
  | .secondCopyArrive _ _ _ => [.regs, .holding, .evt, .nor, .host, .ports, .trn, .cmd, .bnd, .ddp, .keys, .wc, .sig, .lfl, .map, .prg,
      .chan, .store, .mem, .free, .out, .hostWait]
  | .compJob _ _ => [.block 11, .host, .bnd, .out, .hostWait]
  | .cipherJob _ _ => [.host, .bnd, .out, .hostWait]
  | .jobSliceEnd _ _ _ _ => [.block 4, .block 6, .block 11, .block 12, .block 13, .block 19, .block 20, .evt, .nor, .host, .ports, .trn,
      .cmd, .bnd, .ddp, .keys, .wc, .sig, .lfl, .map, .prg, .chan, .store, .free, .out, .hostWait]
  | .keyLoad _ _ _ => [.block 4, .block 6, .block 12, .block 13, .block 19, .block 20, .block 21, .evt, .nor, .host, .ports, .cmd, .bnd,
      .ddp, .keys, .sig, .lfl, .map, .rep, .prg, .chan, .store, .free, .out, .hostWait]
  | .keyRetire _ _ => [.block 21, .host, .keys, .free, .out, .hostWait]
  | .keyRevoke _ _ _ => [.block 4, .block 6, .block 12, .block 13, .block 19, .block 20, .block 21, .evt, .nor, .host, .cmd, .bnd, .ddp,
      .keys, .sig, .lfl, .map, .prg, .chan, .store, .free, .out, .hostWait]
  | .keyResweep _ _ => [.host, .keys, .out, .hostWait]
  | .kekLoad _ => [.block 21, .keys]
  | .mirrorWriteRecord _ _ => [.regs, .holding, .evt, .nor, .host, .cmd, .ddp, .keys, .wc, .sig, .map, .chan, .store, .free, .out,
      .hostWait]
  | .mirrorMetadataRecord _ _ => [.regs, .holding, .evt, .nor, .host, .cmd, .ddp, .keys, .wc, .sig, .map, .chan, .store, .free, .out,
      .hostWait]
  | .mirrorReleaseRecord _ _ => [.regs, .holding, .evt, .nor, .host, .cmd, .ddp, .keys, .wc, .sig, .map, .chan, .store, .free, .out,
      .hostWait]
  | .mirrorApplyDdrAck _ => [.wc, .chan, .out]
  | .mirrorAck _ => [.regs, .holding, .evt, .nor, .host, .cmd, .ddp, .keys, .wc, .sig, .map, .rep, .chan, .own, .store, .free, .out,
      .hostWait]
  | .mirrorAckTimeout _ => [.block 4, .block 6, .block 20, .evt, .nor, .host, .wc, .chan, .out, .hostWait]
  | .soloDdrAck _ => [.regs, .holding, .evt, .nor, .host, .cmd, .ddp, .keys, .wc, .sig, .map, .rep, .chan, .store, .free, .out, .hostWait]
  | .segmentAgeExpiry _ => [.block 13, .block 20, .wc, .sig, .map, .chan, .store, .out]
  | .laneStallResume _ => [.block 4, .block 6, .block 12, .block 13, .block 19, .block 20, .evt, .nor, .host, .cmd, .ddp, .keys, .wc, .sig,
      .lfl, .map, .prg, .chan, .store, .out, .hostWait]
  | .vinLowWarning => [.block 1, .block 4, .block 5, .block 6, .block 7, .block 10, .block 12, .block 13, .block 17, .block 19, .block 20,
      .power, .test, .evt, .nor, .host, .ports, .trn, .cmd, .bnd, .ddp, .keys, .wc, .sig, .lfl, .map, .rep, .prg, .chan, .own, .store, .out,
      .hostWait]
  | .pwrfailNLow => [.block 1, .block 4, .block 5, .block 6, .block 7, .block 10, .block 12, .block 13, .block 17, .block 19, .block 20,
      .pins, .power, .test, .evt, .nor, .host, .ports, .trn, .cmd, .bnd, .ddp, .keys, .wc, .sig, .lfl, .map, .rep, .prg, .chan, .own,
      .store, .out, .hostWait]
  | .destageNow => [.block 1, .block 4, .block 5, .block 6, .block 7, .block 10, .block 12, .block 13, .block 17, .block 19, .block 20,
      .power, .test, .evt, .nor, .host, .ports, .trn, .cmd, .bnd, .ddp, .keys, .wc, .sig, .lfl, .map, .rep, .prg, .chan, .own, .store, .out,
      .hostWait]
  | .frontLinksDown => [.regs, .holding, .evt, .nor, .host, .cmd, .ddp, .keys, .sig, .map, .rep, .chan, .store, .free, .out, .hostWait]
  | .destageSealed => [.regs, .holding, .ringTime, .pins, .power, .boot, .test, .evt, .nor, .host, .ports, .trn, .cmd, .bnd, .ddp, .keys,
      .wc, .sig, .lfl, .map, .rep, .prg, .xrn, .chan, .own, .store, .out, .hostWait]
  | .powerFailNotice => [.own]
  | .pfHoldoffExpiry => [.regs, .holding, .evt, .nor, .host, .ports, .trn, .cmd, .ddp, .keys, .wc, .sig, .lfl, .map, .rep, .prg, .chan,
      .own, .store, .mem, .free, .out, .hostWait]
  | .sewSignature _ _ => [.regs, .holding, .evt, .nor, .host, .cmd, .ddp, .keys, .wc, .sig, .lfl, .map, .chan, .store, .mem, .out,
      .hostWait]
  | .logPageSend => [.sig, .lfl, .out]
  | .logAppendAck _ => [.block 4, .block 6, .block 13, .block 14, .block 20, .evt, .nor, .host, .sig, .lfl, .map, .store, .out, .hostWait]
  | .logCopyTimeout _ => [.block 4, .block 6, .block 13, .block 14, .block 20, .evt, .nor, .host, .sig, .lfl, .map, .store, .out, .hostWait]
  | .logReseedDone _ => [.block 4, .block 6, .block 13, .block 14, .block 20, .evt, .nor, .host, .sig, .lfl, .map, .store, .out, .hostWait]
  | .folioWriteComplete _ => [.block 13, .block 14, .block 20, .host, .ddp, .keys, .wc, .sig, .lfl, .map, .chan, .store, .out, .hostWait]
  | .folioWriteFail _ _ => [.block 4, .block 6, .block 13, .block 14, .block 20, .evt, .nor, .host, .sig, .lfl, .map, .store, .out,
      .hostWait]
  | .grantRequest _ => [.lfl, .out]
  | .poolTable _ => [.block 4, .block 6, .block 14, .evt, .nor, .host, .cmd, .sig, .out, .hostWait]
  | .gcCollect _ => [.cmd, .sig]
  | .quireDrained _ => [.block 4, .block 6, .block 13, .block 14, .block 20, .evt, .nor, .host, .cmd, .sig, .lfl, .map, .store, .out,
      .hostWait]
  | .quireEraseComplete _ => [.block 4, .block 6, .block 14, .evt, .nor, .host, .cmd, .sig, .lfl, .map, .out, .hostWait]
  | .leafAbsent _ => [.block 4, .block 6, .block 13, .block 14, .block 20, .evt, .nor, .host, .cmd, .sig, .lfl, .map, .store, .out,
      .hostWait]
  | .leafAbsentTimeout _ => [.block 4, .block 6, .block 13, .block 14, .block 20, .evt, .nor, .host, .cmd, .sig, .lfl, .map, .store, .out,
      .hostWait]
  | .leafReturn _ => [.regs, .holding, .evt, .nor, .host, .cmd, .ddp, .keys, .sig, .lfl, .map, .rep, .prg, .chan, .store, .mem, .free, .out,
      .hostWait]
  | .leafDrain _ => [.block 4, .block 6, .block 13, .block 14, .block 20, .evt, .nor, .host, .cmd, .sig, .lfl, .map, .store, .out,
      .hostWait]
  | .leafFail _ => [.block 4, .block 6, .block 13, .block 14, .block 20, .evt, .nor, .host, .cmd, .sig, .lfl, .map, .store, .out, .hostWait]
  | .leafReadmit _ => [.block 4, .block 6, .block 13, .block 14, .block 20, .evt, .nor, .host, .cmd, .sig, .lfl, .map, .store, .out,
      .hostWait]
  | .drainComplete _ => [.block 4, .block 6, .block 14, .evt, .nor, .host, .cmd, .sig, .lfl, .out, .hostWait]
  | .slowMemberTimeout _ => [.regs, .holding, .evt, .nor, .host, .cmd, .ddp, .keys, .sig, .lfl, .map, .rep, .prg, .chan, .store, .mem,
      .free, .out, .hostWait]
  | .rebuildQuire => [.block 4, .block 6, .block 14, .evt, .nor, .host, .cmd, .sig, .out, .hostWait]
  | .acceptLoss _ => [.block 4, .block 6, .block 14, .evt, .nor, .host, .cmd, .sig, .out, .hostWait]
  | .patrolSignature _ _ _ => [.regs, .holding, .evt, .nor, .host, .cmd, .ddp, .keys, .sig, .lfl, .map, .rep, .prg, .chan, .store, .mem,
      .free, .out, .hostWait]
  | .poolEnable _ _ => [.block 4, .block 6, .block 14, .evt, .nor, .host, .cmd, .out, .hostWait]
  | .poolMemberAdd _ _ _ => [.block 4, .block 6, .block 14, .evt, .nor, .host, .cmd, .lfl, .out, .hostWait]
  | .leafHopActive _ _ => [.regs, .holding, .evt, .nor, .host, .ports, .trn, .cmd, .ddp, .keys, .wc, .sig, .lfl, .map, .rep, .prg, .chan,
      .own, .store, .mem, .free, .out, .hostWait]
  | .leafHopDown _ _ => [.regs, .holding, .evt, .nor, .host, .ports, .trn, .cmd, .ddp, .keys, .wc, .sig, .lfl, .map, .rep, .prg, .chan,
      .own, .store, .mem, .free, .out, .hostWait]
  | .leafHopDetect _ _ => [.block 15, .lfl, .out]
  | .leafReplayRequest _ _ _ => [.block 15, .lfl, .out]
  | .leafEnumerationAnswer _ _ => [.regs, .holding, .evt, .nor, .host, .ports, .trn, .cmd, .ddp, .keys, .wc, .sig, .lfl, .map, .rep, .prg,
      .chan, .own, .store, .mem, .free, .out, .hostWait]
  | .leafIdentifyCompletion _ _ => [.block 4, .block 6, .block 13, .block 14, .block 15, .block 20, .evt, .nor, .host, .cmd, .sig, .lfl,
      .map, .chan, .store, .out, .hostWait]
  | .leafSerialExchange _ => [.block 4, .block 6, .block 13, .block 14, .block 15, .block 20, .evt, .nor, .host, .cmd, .sig, .lfl, .map,
      .store, .out, .hostWait]
  | .leafReadCompletion _ _ _ _ => [.regs, .holding, .evt, .nor, .host, .cmd, .ddp, .keys, .wc, .sig, .lfl, .map, .rep, .prg, .chan, .store,
      .mem, .free, .out, .hostWait]
  | .leafErrorCompletion _ _ => [.regs, .holding, .evt, .nor, .host, .ports, .trn, .cmd, .ddp, .keys, .wc, .sig, .lfl, .map, .rep, .prg,
      .chan, .own, .store, .mem, .free, .out, .hostWait]
  | .proxyLeafRead _ _ _ _ _ _ => [.lfl, .chan, .out]
  | .plannerMeasurements _ => [.lfl]
  | .planInterval => [.block 13, .block 14, .block 20, .sig, .lfl, .map, .chan, .store, .out]
  | .witnessReadCompletion _ _ => [.regs, .holding, .evt, .nor, .host, .ports, .trn, .cmd, .ddp, .keys, .wc, .sig, .lfl, .map, .rep, .prg,
      .chan, .own, .store, .mem, .free, .out, .hostWait]
  | .witnessCasCompletion _ _ => [.regs, .holding, .evt, .nor, .host, .ports, .trn, .cmd, .ddp, .keys, .wc, .sig, .lfl, .map, .rep, .prg,
      .chan, .own, .store, .mem, .free, .out, .hostWait]
  | .pageInComplete _ _ => [.regs, .holding, .evt, .nor, .host, .ports, .trn, .cmd, .ddp, .keys, .wc, .sig, .lfl, .map, .rep, .prg, .chan,
      .store, .mem, .free, .out, .hostWait]
  | .reclaimPage => [.regs, .holding, .evt, .nor, .host, .ports, .trn, .cmd, .ddp, .keys, .sig, .lfl, .map, .rep, .prg, .chan, .store, .mem,
      .free, .out, .hostWait]
  | .nsCreate _ _ => [.host, .cmd, .out, .hostWait]
  | .nsChange _ _ => [.host, .cmd, .out, .hostWait]
  | .nsDelete _ _ => [.block 4, .block 6, .evt, .nor, .host, .cmd, .out, .hostWait]
  | .mapImport _ _ _ _ => [.host, .cmd, .out, .hostWait]
  | .poolMoveComplete _ => [.cmd]
  | .cgArm _ => [.regs, .holding, .evt, .nor, .host, .ports, .trn, .cmd, .ddp, .keys, .wc, .sig, .lfl, .map, .rep, .prg, .chan, .store,
      .mem, .free, .out, .hostWait]
  | .cgAbandon _ => [.regs, .holding, .evt, .nor, .host, .ports, .trn, .cmd, .ddp, .keys, .wc, .sig, .lfl, .map, .rep, .prg, .chan, .store,
      .mem, .free, .out, .hostWait]
  | .consistencyCut _ => [.regs, .holding, .evt, .nor, .host, .ports, .trn, .cmd, .ddp, .keys, .wc, .sig, .lfl, .map, .rep, .prg, .chan,
      .store, .mem, .free, .out, .hostWait]
  | .mapCacheFill _ _ => [.block 4, .block 6, .block 13, .evt, .nor, .host, .map, .out, .hostWait]
  | .mapCacheEnable _ => [.block 13, .map]
  | .invalidateAll => [.block 13, .map]
  | .invalidateRange _ => [.block 13, .map]
  | .invalidateDone => [.block 13, .map]
  | .streamBatch _ => [.block 4, .block 6, .block 11, .block 18, .evt, .nor, .host, .cmd, .rep, .free, .out, .hostWait]
  | .difference _ => [.block 4, .block 6, .block 11, .block 13, .block 18, .block 20, .evt, .nor, .host, .cmd, .ddp, .sig, .map, .rep,
      .store, .free, .out, .hostWait]
  | .wantReply _ => [.block 4, .block 6, .block 11, .block 13, .block 18, .block 20, .evt, .nor, .host, .cmd, .ddp, .sig, .map, .rep,
      .store, .free, .out, .hostWait]
  | .anchorMark _ => [.block 4, .block 6, .block 11, .block 13, .block 18, .block 20, .evt, .nor, .host, .cmd, .sig, .map, .rep, .store,
      .free, .out, .hostWait]
  | .replicationAck _ _ => [.block 4, .block 6, .block 11, .block 13, .block 18, .block 20, .evt, .nor, .host, .cmd, .sig, .map, .rep,
      .store, .free, .out, .hostWait]
  | .probe _ _ => [.block 4, .block 6, .block 11, .block 18, .evt, .nor, .host, .cmd, .rep, .free, .out, .hostWait]
  | .probeTimer _ => [.block 4, .block 6, .block 11, .block 13, .block 18, .block 20, .evt, .nor, .host, .cmd, .sig, .map, .rep, .store,
      .free, .out, .hostWait]
  | .envelopeRelease _ _ => [.block 4, .block 6, .block 11, .block 13, .block 18, .block 20, .evt, .nor, .host, .cmd, .ddp, .sig, .map,
      .rep, .store, .free, .out, .hostWait]
  | .batchClose _ => [.block 4, .block 6, .block 11, .block 18, .evt, .nor, .host, .cmd, .rep, .free, .out, .hostWait]
  | .idleWatermark _ => [.block 4, .block 6, .block 11, .block 18, .evt, .nor, .host, .cmd, .rep, .free, .out, .hostWait]
  | .anchorPeriod _ => [.block 4, .block 6, .block 11, .block 13, .block 18, .block 20, .evt, .nor, .host, .cmd, .sig, .map, .rep, .store,
      .free, .out, .hostWait]
  | .replicationLinkDown _ => [.block 4, .block 6, .block 18, .evt, .nor, .host, .rep, .out, .hostWait]
  | .suspendExpiry _ => [.block 4, .block 6, .block 18, .evt, .nor, .host, .cmd, .rep, .out, .hostWait]
  | .setEnable _ _ _ _ => [.block 4, .block 6, .block 11, .block 13, .block 18, .block 20, .evt, .nor, .host, .cmd, .sig, .map, .rep,
      .store, .free, .out, .hostWait]
  | .replicationLinkEnable _ _ => [.block 4, .block 6, .block 11, .block 13, .block 18, .block 20, .evt, .nor, .host, .cmd, .sig, .map,
      .rep, .store, .free, .out, .hostWait]
  | .resynchronise _ => [.block 4, .block 6, .block 11, .block 13, .block 18, .block 20, .evt, .nor, .host, .cmd, .sig, .map, .rep, .store,
      .free, .out, .hostWait]
  | .reverse _ => [.block 4, .block 6, .block 11, .block 13, .block 18, .block 20, .evt, .nor, .host, .cmd, .sig, .map, .rep, .store, .free,
      .out, .hostWait]
  | .promote _ => [.block 4, .block 6, .block 13, .block 18, .block 20, .evt, .nor, .host, .sig, .map, .rep, .store, .out, .hostWait]
  | .prgLoad _ _ _ _ _ _ => [.host, .prg, .chan, .out, .hostWait]
  | .prgUnload _ _ _ => [.host, .prg, .chan, .out, .hostWait]
  | .programTableUpdate _ _ _ => [.prg]
  | .hostRun _ _ => [.block 19, .host, .cmd, .prg, .mem, .free, .out, .hostWait]
  | .indexBuild _ _ => [.block 19, .host, .cmd, .prg, .mem, .free, .out, .hostWait]
  | .tapAttach _ _ _ _ _ _ => [.block 19, .host, .prg, .out, .hostWait]
  | .tapDetach _ _ _ => [.block 19, .host, .prg, .mem, .out, .hostWait]
  | .tileGrant => [.block 19, .host, .cmd, .prg, .mem, .free, .out, .hostWait]
  | .pieceDeliver _ _ _ => [.regs, .holding, .evt, .nor, .host, .cmd, .ddp, .keys, .sig, .lfl, .map, .rep, .prg, .chan, .store, .mem, .free,
      .out, .hostWait]
  | .budgetExceeded _ => [.block 4, .block 6, .block 19, .evt, .nor, .host, .cmd, .prg, .mem, .free, .out, .hostWait]
  | .runComplete _ => [.block 4, .block 6, .block 19, .evt, .nor, .host, .cmd, .prg, .mem, .free, .out, .hostWait]
  | .resultKeepExpiry _ => [.block 4, .block 6, .block 19, .evt, .nor, .host, .prg, .out, .hostWait]
  | .tileFence _ => [.block 4, .block 6, .block 19, .evt, .nor, .host, .cmd, .prg, .mem, .free, .out, .hostWait]
  | .accountingUpdate => [.prg, .mem]
  | .acctClear _ => [.prg, .mem]
  | .ringHello _ _ => [.regs, .holding, .evt, .nor, .host, .wc, .xrn, .chan, .own, .out, .hostWait]
  | .ringLinkDown _ _ => [.regs, .holding, .evt, .nor, .host, .wc, .xrn, .chan, .out, .hostWait]
  | .ringLinkDetect _ => [.regs, .holding, .wc, .xrn, .chan, .out]
  | .ringTrainingTimeout _ => [.regs, .holding, .evt, .nor, .host, .wc, .xrn, .chan, .out, .hostWait]
  | .ringReplayRequest _ _ => [.regs, .holding, .wc, .xrn, .chan, .out]
  | .partialMessageTimeout _ => [.block 16]
  | .enumerationFlit _ _ _ _ => [.block 4, .block 6, .block 16, .evt, .nor, .host, .xrn, .chan, .out, .hostWait]
  | .enumerationJoin _ => [.block 4, .block 6, .block 16, .evt, .nor, .host, .ddp, .xrn, .chan, .mem, .out, .hostWait]
  | .enumerationDirectory _ _ => [.block 4, .block 6, .block 12, .block 16, .evt, .nor, .host, .ddp, .xrn, .chan, .mem, .out, .hostWait]
  | .keeperGatherExpiry => [.block 4, .block 6, .block 12, .block 16, .ringTime, .evt, .nor, .host, .ddp, .xrn, .chan, .mem, .out,
      .hostWait]
  | .addressReserveExpiry _ => [.block 16, .ddp, .xrn, .chan, .mem, .out]
  | .leave => [.block 16, .ddp, .xrn, .chan, .mem, .out]
  | .leaveNotice _ => [.block 16, .ddp, .xrn, .chan, .mem, .out]
  | .deviceIsolatedTimeout _ => [.block 4, .block 6, .block 16, .evt, .nor, .host, .ddp, .xrn, .chan, .mem, .out, .hostWait]
  | .timeFlitSend _ => [.regs, .holding, .wc, .xrn, .chan, .out]
  | .timeFlit _ _ => [.regs, .holding, .ringTime, .evt, .nor, .host, .ports, .trn, .cmd, .ddp, .keys, .wc, .sig, .lfl, .map, .rep, .prg,
      .xrn, .chan, .store, .mem, .free, .out, .hostWait]
  | .parentTimeLost => [.block 16, .xrn]
  | .holdoverExpiry => [.block 4, .block 6, .block 16, .evt, .nor, .host, .xrn, .out, .hostWait]
  | .keeperLost => [.block 4, .block 6, .block 16, .evt, .nor, .host, .ddp, .xrn, .chan, .mem, .out, .hostWait]
  | .floorPassed => [.block 4, .block 6, .block 16, .evt, .nor, .host, .xrn, .out, .hostWait]
  | .timeCeilingRewrite => [.block 16, .nor]
  | .heartbeatSend => [.block 4, .block 6, .block 17, .evt, .nor, .host, .lfl, .chan, .own, .out, .hostWait]
  | .heartbeat _ => [.regs, .holding, .evt, .nor, .host, .ports, .trn, .cmd, .ddp, .keys, .wc, .sig, .lfl, .map, .rep, .prg, .chan, .own,
      .store, .mem, .free, .out, .hostWait]
  | .peerSuspect => [.regs, .holding, .evt, .nor, .host, .ports, .trn, .cmd, .ddp, .keys, .wc, .sig, .lfl, .map, .rep, .prg, .chan, .own,
      .store, .mem, .free, .out, .hostWait]
  | .stuckSuspectExpiry => [.regs, .holding, .evt, .nor, .host, .ports, .trn, .cmd, .ddp, .keys, .wc, .sig, .lfl, .map, .rep, .prg, .chan,
      .own, .store, .mem, .free, .out, .hostWait]
  | .startHeartbeatTimeout => [.regs, .holding, .evt, .nor, .host, .ports, .trn, .cmd, .ddp, .keys, .wc, .sig, .lfl, .map, .rep, .prg,
      .chan, .own, .store, .mem, .free, .out, .hostWait]
  | .contestRetry => [.regs, .holding, .evt, .nor, .host, .ports, .trn, .cmd, .ddp, .keys, .wc, .sig, .lfl, .map, .rep, .prg, .chan, .own,
      .store, .mem, .free, .out, .hostWait]
  | .force => [.regs, .holding, .evt, .nor, .host, .ports, .trn, .cmd, .ddp, .keys, .wc, .sig, .lfl, .map, .rep, .prg, .chan, .own, .store,
      .mem, .free, .out, .hostWait]
  | .epochProposal _ => [.regs, .holding, .evt, .nor, .host, .ports, .trn, .cmd, .ddp, .keys, .wc, .sig, .lfl, .map, .rep, .prg, .chan,
      .own, .store, .mem, .free, .out, .hostWait]
  | .epochAccept _ => [.regs, .holding, .evt, .nor, .host, .ports, .trn, .cmd, .ddp, .keys, .wc, .sig, .lfl, .map, .rep, .prg, .chan, .own,
      .store, .mem, .free, .out, .hostWait]
  | .forwardedCommand _ _ => [.block 4, .block 6, .block 10, .block 12, .block 13, .block 19, .block 20, .evt, .nor, .host, .cmd, .ddp,
      .keys, .sig, .lfl, .map, .prg, .chan, .store, .out, .hostWait]
  | .forwardedData _ _ _ => [.regs, .holding, .evt, .nor, .host, .ports, .trn, .cmd, .bnd, .ddp, .keys, .wc, .sig, .lfl, .map, .rep, .prg,
      .chan, .store, .mem, .free, .out, .hostWait]
  | .forwardedCompletion _ => [.block 4, .block 6, .block 10, .block 11, .block 12, .block 13, .block 19, .block 20, .evt, .nor, .host,
      .ports, .trn, .cmd, .bnd, .ddp, .keys, .wc, .sig, .lfl, .map, .prg, .chan, .store, .free, .out, .hostWait]
  | .moveRequest _ _ => [.regs, .holding, .evt, .nor, .host, .ports, .trn, .cmd, .ddp, .keys, .wc, .sig, .lfl, .map, .rep, .prg, .chan,
      .own, .store, .mem, .free, .out, .hostWait]
  | .moveAccept _ _ => [.regs, .holding, .evt, .nor, .host, .ports, .trn, .cmd, .ddp, .keys, .wc, .sig, .lfl, .map, .rep, .prg, .chan, .own,
      .store, .mem, .free, .out, .hostWait]
  | .ownMove _ => [.block 4, .block 6, .block 17, .evt, .nor, .host, .cmd, .chan, .own, .out, .hostWait]
  | .moveDrained => [.chan, .out]
  | .healthReportSend => [.block 4, .block 6, .block 17, .evt, .nor, .host, .chan, .out, .hostWait]
  | .healthReport _ _ => [.block 17, .own]
  | .rejoinRequest => [.block 4, .block 6, .block 17, .evt, .nor, .host, .lfl, .chan, .own, .out, .hostWait]
  | .scrubStep => [.block 17, .chan, .own, .out]
  | .scrubDigest _ _ _ => [.chan, .own, .out]
  | .scrubPageRequest _ => [.chan, .out]
  | .scrubPageImage _ => [.block 4, .block 6, .block 12, .block 13, .block 17, .block 20, .evt, .nor, .host, .cmd, .ddp, .keys, .sig, .map,
      .chan, .own, .store, .out, .hostWait]
  | .sqTailDoorbell _ _ _ => [.block 6, .host, .out, .hostWait]
  | .cqHeadDoorbell _ _ _ => [.block 6, .host, .out, .hostWait]
  | .sqFetch _ _ _ => [.host, .out, .hostWait]
  | .cqInterruptTimer _ _ => [.host, .out]
  | .hello _ _ _ _ => [.block 6, .host, .out, .hostWait]
  | .nop _ => [.host, .out, .hostWait]
  | .cancel _ _ _ _ => [.block 7, .host, .bnd, .out, .hostWait]
  | .ringCreate _ _ => [.host, .out, .hostWait]
  | .ringDelete _ _ => [.host, .out, .hostWait]
  | .sliceCreate _ _ => [.block 6, .block 7, .host, .out, .hostWait]
  | .sliceDestroy _ _ => [.block 4, .block 6, .block 7, .block 10, .block 12, .block 13, .block 19, .block 20, .evt, .nor, .host, .ports,
      .trn, .cmd, .bnd, .ddp, .keys, .sig, .lfl, .map, .rep, .prg, .chan, .store, .out, .hostWait]
  | .sliceFreeze _ _ => [.block 6, .block 7, .host, .out, .hostWait]
  | .sliceThaw _ _ => [.block 6, .block 7, .host, .trn, .out, .hostWait]
  | .sliceSave _ _ => [.block 6, .host, .out, .hostWait]
  | .sliceRestore _ _ _ _ => [.block 6, .block 7, .host, .trn, .out, .hostWait]
  | .sliceReset _ _ _ _ => [.block 4, .block 6, .block 7, .block 10, .block 12, .block 13, .block 19, .block 20, .evt, .nor, .host, .ports,
      .trn, .cmd, .bnd, .ddp, .keys, .sig, .lfl, .map, .rep, .prg, .chan, .store, .out, .hostWait]
  | .sliceQuiesced _ => [.block 1, .block 4, .block 5, .block 6, .block 7, .block 9, .block 10, .block 11, .block 12, .block 13, .block 19,
      .block 20, .power, .test, .evt, .nor, .host, .ports, .trn, .cmd, .ddp, .keys, .sig, .lfl, .map, .rep, .prg, .chan, .store, .mem, .out,
      .hostWait]
  | .mgrEnable _ => [.block 4, .block 6, .block 7, .block 10, .block 12, .block 13, .block 19, .block 20, .evt, .nor, .host, .ports, .trn,
      .cmd, .bnd, .ddp, .keys, .sig, .lfl, .map, .rep, .prg, .chan, .store, .out, .hostWait]
  | .frameSend _ _ => [.regs, .holding, .host, .ports, .trn, .out, .hostWait]
  | .frameRxPost _ _ _ _ => [.host, .out, .hostWait]
  | .qpCreate _ _ _ => [.host, .trn, .out, .hostWait]
  | .qpModify _ _ _ _ => [.block 1, .block 4, .block 5, .block 6, .block 10, .block 11, .block 12, .block 13, .block 19, .block 20, .power,
      .test, .evt, .nor, .host, .ports, .trn, .cmd, .ddp, .keys, .sig, .lfl, .map, .rep, .prg, .chan, .store, .free, .out, .hostWait]
  | .qpDestroy _ _ => [.block 1, .block 4, .block 5, .block 6, .block 9, .block 10, .block 11, .block 12, .block 13, .block 19, .block 20,
      .power, .test, .evt, .nor, .host, .ports, .trn, .cmd, .ddp, .keys, .sig, .lfl, .map, .rep, .prg, .chan, .store, .mem, .out, .hostWait]
  | .qpQuery _ _ => [.host, .out, .hostWait]
  | .regionRegister _ _ _ => [.host, .trn, .out, .hostWait]
  | .regionInvalidate _ _ => [.host, .trn, .out, .hostWait]
  | .wrPost _ _ => [.host, .ports, .trn, .out, .hostWait]
  | .dmaXfer _ _ => [.block 7, .host, .out, .hostWait]
  | .dmaPause _ _ => [.block 7, .host, .out, .hostWait]
  | .dmaResume _ _ => [.block 7, .host, .out, .hostWait]
  | .dmaChPause _ => [.block 7, .host, .out, .hostWait]
  | .dmaChResume _ => [.block 7, .host, .out, .hostWait]
  | .dmaChWithdraw _ => [.block 7, .host, .out, .hostWait]
  | .dmaBurstDone _ _ _ => [.block 7, .block 20, .host, .mem, .out, .hostWait]
  | .tokenRequest _ _ _ => [.block 1, .power]
  | .tokenReturn _ => [.block 1, .power]
  | .recallAck _ => [.block 1, .power]
  | .recallTimeout _ => [.regs, .holding, .pins, .power, .test, .evt, .nor, .host, .ports, .trn, .cmd, .bnd, .ddp, .keys, .wc, .sig, .lfl,
      .map, .rep, .prg, .xrn, .chan, .own, .store, .mem, .free, .out, .hostWait]
  | .budgetWrite _ => [.block 1, .block 4, .block 6, .power, .evt, .nor, .host, .out, .hostWait]
  | .powerCheck _ _ => [.block 1, .block 4, .block 6, .evt, .nor, .host, .out, .hostWait]
  | .trimDecay => [.block 1, .power]
  | .quarterClockFault _ => [.regs, .holding, .pins, .power, .test, .evt, .nor, .host, .ports, .trn, .cmd, .bnd, .ddp, .keys, .wc, .sig,
      .lfl, .map, .rep, .prg, .xrn, .chan, .own, .store, .mem, .free, .out, .hostWait]
  | .sysclkLoss => [.block 4, .block 6, .pins, .power, .evt, .nor, .host, .out, .hostWait]
  | .quarterWake _ => [.block 1, .power]
  | .quarterPowerOff _ => [.block 1, .block 11, .block 19, .power]
  | .quarterRetain _ => [.block 1, .block 11, .block 19, .power]
  | .quarterWakeDone _ => [.block 1, .block 4, .block 6, .block 9, .block 10, .block 11, .block 13, .block 19, .power, .evt, .nor, .host,
      .ports, .trn, .cmd, .sig, .lfl, .map, .chan, .out, .hostWait]
  | .quarterDrained _ => [.block 1, .power]
  | .drainTimeout _ => [.block 1, .block 4, .block 5, .block 6, .block 11, .block 19, .power, .test, .evt, .nor, .host, .out, .hostWait]
  | .quarterFault _ _ => [.regs, .holding, .pins, .power, .test, .evt, .nor, .host, .ports, .trn, .cmd, .bnd, .ddp, .keys, .wc, .sig, .lfl,
      .map, .rep, .prg, .xrn, .chan, .own, .store, .mem, .free, .out, .hostWait]
  | .thermalSample _ => [.regs, .holding, .pins, .power, .evt, .nor, .host, .ports, .trn, .cmd, .ddp, .keys, .wc, .sig, .lfl, .map, .rep,
      .prg, .xrn, .chan, .own, .store, .mem, .free, .out, .hostWait]
  | .canaryError _ => [.regs, .holding, .pins, .power, .test, .evt, .nor, .host, .ports, .trn, .cmd, .bnd, .ddp, .keys, .wc, .sig, .lfl,
      .map, .rep, .prg, .xrn, .chan, .own, .store, .mem, .free, .out, .hostWait]
  | .marginPlan _ => [.block 2, .block 4, .block 6, .power, .evt, .nor, .host, .out, .hostWait]
  | .verify => [.block 3, .boot]
  | .bootWrite => [.block 3, .boot, .nor]
  | .bootWriteComplete _ => [.block 1, .block 3, .block 4, .block 5, .block 6, .block 10, .block 13, .block 20, .power, .boot, .test, .evt,
      .nor, .host, .cmd, .sig, .map, .prg, .store, .free, .out, .hostWait]
  | .activate => [.block 1, .block 3, .block 4, .block 5, .block 6, .block 10, .power, .boot, .test, .evt, .nor, .host, .cmd, .out,
      .hostWait]
  | .activationPauseEnd _ => [.regs, .holding, .boot, .evt, .nor, .host, .ports, .trn, .cmd, .ddp, .keys, .wc, .sig, .lfl, .map, .rep, .prg,
      .chan, .store, .mem, .free, .out, .hostWait]
  | .confirm => [.block 3, .block 4, .block 6, .fuses, .boot, .evt, .nor, .host, .out, .hostWait]
  | .revert => [.block 1, .block 3, .block 4, .block 5, .block 6, .block 10, .block 13, .block 20, .power, .boot, .test, .evt, .nor, .host,
      .cmd, .sig, .map, .prg, .store, .free, .out, .hostWait]
  | .revoke _ => [.block 3, .block 4, .block 6, .fuses, .boot, .evt, .nor, .host, .out, .hostWait]
  | .confirmWindowExpiry => [.block 1, .block 3, .block 4, .block 5, .block 6, .block 10, .block 13, .block 20, .power, .boot, .test, .evt,
      .nor, .host, .cmd, .sig, .map, .prg, .store, .free, .out, .hostWait]
  | .firmwareWatchdogExpiry => [.block 1, .block 3, .block 4, .block 5, .block 6, .block 10, .block 13, .block 20, .power, .boot, .test,
      .evt, .nor, .host, .cmd, .sig, .map, .prg, .store, .free, .out, .hostWait]
  | .recoveryGo _ => [.block 3, .block 4, .block 6, .boot, .evt, .nor, .host, .out, .hostWait]
  | .recoveryRequest => [.chan, .out]
  | .recoveryImage _ _ => [.block 3, .block 4, .block 6, .boot, .evt, .nor, .host, .out, .hostWait]
  | .testQuarter _ _ => [.regs, .holding, .power, .test, .evt, .nor, .host, .ports, .trn, .cmd, .ddp, .keys, .wc, .sig, .lfl, .map, .rep,
      .prg, .xrn, .chan, .own, .store, .mem, .free, .out, .hostWait]
  | .testUnit _ _ => [.block 5, .block 19, .test]
  | .calibrateChannel _ _ => [.block 4, .block 5, .block 6, .pins, .power, .test, .evt, .nor, .host, .out, .hostWait]
  | .testStandby _ => [.block 5, .power, .test]
  | .testComplete _ => [.block 1, .block 4, .block 5, .block 6, .block 11, .block 19, .power, .test, .evt, .nor, .host, .out, .hostWait]
  | .rotationTimer _ => [.block 5, .power, .test]
  | .standbyTestTimer _ => [.block 5, .power, .test]
  | .ddrCalibration _ _ => [.block 4, .block 6, .pins, .power, .test, .evt, .nor, .host, .out, .hostWait]
  | .ddrChannelLost _ => [.block 4, .block 6, .pins, .power, .test, .evt, .nor, .host, .out, .hostWait]
  | .eventPageWrite => [.block 4, .block 6, .evt, .nor, .host, .out, .hostWait]
  | .eventControlSave => [.nor]
  | .eventReadSelect _ _ => [.block 4, .evt]
  | .newNonce => [.block 4, .evt, .free]
  | .clearGo => [.block 4, .block 6, .evt, .nor, .host, .out, .hostWait]
  | .clearComplete => [.block 4, .block 6, .evt, .nor, .host, .out, .hostWait]
  | .histSwap => [.block 4, .evt, .mem]
  | .cmdTagQuery _ => [.block 10]
  | .pfcPauseExpiry _ _ => [.regs, .holding, .host, .ports, .trn, .out, .hostWait]
  | .vinOutOfRange _ => [.block 1, .block 4, .block 6, .evt, .nor, .host, .out, .hostWait]
  | .pciePerstRelease _ _ => [.block 6, .pins, .host]
  | .ringLinkTrained _ _ => [.regs, .holding, .evt, .nor, .host, .wc, .xrn, .chan, .out, .hostWait]
  | .proxyReadData _ _ => [.regs, .holding, .evt, .nor, .host, .cmd, .ddp, .keys, .wc, .sig, .lfl, .map, .rep, .prg, .chan, .store, .mem,
      .free, .out, .hostWait]
  | .poolMoveCopy _ => [.cmd]
  | .rekeySweepStep _ => [.block 4, .block 6, .block 11, .evt, .nor, .host, .cmd, .keys, .sig, .out, .hostWait]
  | .metadataWriteback => [.block 13, .block 14, .block 20, .sig, .lfl, .map, .store, .out]
  | .msixTableWrite _ _ _ _ => [.host, .out]
  | .d3hotTransition _ => [.block 7, .host, .out, .hostWait]
  | .leafHealthCompletion _ _ => [.block 4, .block 6, .block 13, .block 14, .block 15, .block 20, .evt, .nor, .host, .cmd, .sig, .lfl, .map,
      .store, .out, .hostWait]
  | .logReadCompletion _ _ _ => [.regs, .holding, .evt, .nor, .host, .cmd, .ddp, .keys, .wc, .sig, .lfl, .map, .rep, .prg, .chan, .store,
      .mem, .free, .out, .hostWait]

end Sys2Proof.Machine
end

