-- ==== Sys2Proof/Certificates/Slice0/Obligations.lean ====
section
/-!
DEFINITION. Certificates/Slice0/Obligations.lean: the statements for the provers. In a statement `Answers c s post` says that command c has a
next state in s, of which post holds; `Sends s t o` that t has output o beyond s; `Completes` that a ring command is answered.
-/
open Sys2Proof Sys2Proof.Machine

set_option linter.all false

/-- Commands of the Square's token budget complete with their effect. Derived from R425, R426, R428, R429, R434, R439, R440. TOKEN_REQUEST
of any class answers a next state, and moves or splits requests only: the tokens granted and waiting together rise by the tokens asked for;
a class-0 request is granted at once, whole. TOKEN_RETURN keeps every lot of another quarter and every class-0 lot, and takes the quarter's
other lots out of the recalls. RECALL_ACK leaves the recalls of the other quarters alone standing. RECALL_TIMEOUT of a switched quarter with
a recall leaves that quarter fenced; of Old Town it is a loss of the head, with FAULT_N low. BUDGET_WRITE of 1,200 up to STRAP_TOKENS sets
SQR_BUDGET.TOKENS where no power-fail warning is latched; outside that range, or after a warning, it changes nothing. POWER_CHECK stores the
measured input power, and where that lies more than 2 % above the effective budget SQR_TRIM becomes the excess. TRIM_DECAY lowers SQR_TRIM
by one token while the measured power lies below 97 % of the effective budget, and else changes nothing. VIN_OUT_OF_RANGE stores the
measured voltage in SQR_VIN.MV. -/
def Obligations.SquareTokens : Prop :=
  (∀ (s : State) q cls n, Answers (.tokenRequest q cls n) s fun t =>
       t.heldTokens = s.heldTokens + n ∧ (cls = 0 → t.power.granted = { quarter := q, cls := 0, tokens := n } :: s.power.granted)) ∧
  (∀ (s : State) q, Answers (.tokenReturn q) s fun t =>
       (∀ l ∈ s.power.granted, l.quarter ≠ q ∨ l.cls = 0 → l ∈ t.power.granted) ∧
       t.power.recalls = s.power.recalls.filter fun l => l.quarter != q || l.cls == 0) ∧
  (∀ (s : State) q, Answers (.recallAck q) s fun t => t.power.recalls = s.power.recalls.filter fun l => l.quarter != q) ∧
  (∀ (s : State) q, (s.power.recalls.any fun l => l.quarter == q) = true →
       Answers (.recallTimeout q) s fun t => if q = 0 then t.pins.faultN = false else (t.quarter q).state = .fenced) ∧
  (∀ (s : State) v, (s.warned = false → 1200 ≤ v → v ≤ s.rd Reg.SQR_BUDGET.STRAP_TOKENS → v < 4096 →
         Answers (.budgetWrite v) s fun t => t.rd Reg.SQR_BUDGET.TOKENS = v) ∧
       (s.warned = true ∨ v < 1200 ∨ s.rd Reg.SQR_BUDGET.STRAP_TOKENS < v → exec (.budgetWrite v) s = .next s)) ∧
  (∀ (s : State) mv p, Answers (.powerCheck mv p) s fun t =>
       t.rd Reg.SQR_VIN.POWER = Reg.SQR_VIN.POWER.fit p ∧
       (s.effective.1 * 102 < p * 100 → t.rd Reg.SQR_TRIM.TOKENS = Reg.SQR_TRIM.TOKENS.fit (p - s.effective.1))) ∧
  (∀ (s : State), Answers .trimDecay s fun t =>
       t.rd Reg.SQR_TRIM.TOKENS = (if s.rd Reg.SQR_VIN.POWER * 100 < s.effective.1 * 97 then Reg.SQR_TRIM.TOKENS.fit (s.rd Reg.SQR_TRIM.TOKENS - 1)
         else s.rd Reg.SQR_TRIM.TOKENS)) ∧
  (∀ (s : State) mv, Answers (.vinOutOfRange mv) s fun t => t.rd Reg.SQR_VIN.MV = Reg.SQR_VIN.MV.fit mv)

/-- Commands that wake, drain, stop and fence quarters complete with their effect. Derived from R18, R19, R20, R419, R423, R424, R431, R432,
R433, R440, R462. QUARTER_WAKE of a quarter that is Off or in Retain, while no operation is busy, sets BUSY, and the quarter is Waking or
queued for it. QUARTER_POWER_OFF of an Active quarter whose kind keeps its active count without it, while no operation is busy, starts its
drain towards Off. QUARTER_RETAIN does so towards Retain. QUARTER_WAKE_DONE makes a Waking quarter Active, where it is not itself queued for
a wake nor rotated with itself. QUARTER_DRAINED takes a Closing quarter to Off, to Retain, or, for a test, to Active in the role under test.
DRAIN_TIMEOUT returns a Closing quarter to Active. QUARTER_FAULT of a switched quarter leaves it fenced; a fault of Old Town is a loss of
the head, with FAULT_N low. QUARTER_CLOCK_FAULT of a switched quarter whose clock runs leaves it fenced. SYSCLK_LOSS is a loss of the head,
and leaves every switched quarter Off or fenced. CONVERTER_PHASE_LOSS counts the phase, and the second loss is a loss of the head. -/
def Obligations.QuarterPower : Prop :=
  (∀ (s : State) q, s.on Reg.SQR_Q_RESULT.BUSY = false → 0 < q → q ≤ 41 → (s.quarter q).state = .off ∨ (s.quarter q).state = .retain →
       Answers (.quarterWake q) s fun t => t.on Reg.SQR_Q_RESULT.BUSY = true ∧ ((t.quarter q).state = .waking ∨ q ∈ t.power.wakeQueue)) ∧
  (∀ (s : State) q, s.on Reg.SQR_Q_RESULT.BUSY = false → 0 < q → q ≤ 41 → (s.quarter q).state = .active → s.canSpare q = true →
       Answers (.quarterPowerOff q) s fun t => (t.quarter q).state = .closing ∧ (t.quarter q).goal = .off ∧ t.on Reg.SQR_Q_RESULT.BUSY = true) ∧
  (∀ (s : State) q, s.on Reg.SQR_Q_RESULT.BUSY = false → 0 < q → q ≤ 41 → (s.quarter q).state = .active → s.canSpare q = true →
       Answers (.quarterRetain q) s fun t => (t.quarter q).state = .closing ∧ (t.quarter q).goal = .retain ∧ t.on Reg.SQR_Q_RESULT.BUSY = true) ∧
  (∀ (s : State) q, (s.quarter q).state = .waking → q ∉ s.power.wakeQueue → (∀ a b, s.test.job = some (.rotation a b) → a ≠ b) →
       Answers (.quarterWakeDone q) s fun t => (t.quarter q).state = .active) ∧
  (∀ (s : State) q, (s.quarter q).state = .closing →
       Answers (.quarterDrained q) s fun t => match (s.quarter q).goal with
         | .off => (t.quarter q).state = .off
         | .retain => (t.quarter q).state = .retain
         | .test => (t.quarter q).state = .active ∧ (t.quarter q).role = .underTest) ∧
  (∀ (s : State) q, (s.quarter q).state = .closing → Answers (.drainTimeout q) s fun t => (t.quarter q).state = .active) ∧
  (∀ (s : State) q cause, Answers (.quarterFault q cause) s fun t => if q = 0 then t.pins.faultN = false else (t.quarter q).state = .fenced) ∧
  (∀ (s : State) q, (s.quarter q).state.clocked = true → q ≠ 0 → Answers (.quarterClockFault q) s fun t => (t.quarter q).state = .fenced) ∧
  (∀ (s : State), Answers .sysclkLoss s fun t => t.power.sysclkLost = true ∧ t.pins.faultN = false ∧
       ∀ e ∈ t.power.quarters, e.1 = 0 ∨ e.2.state = .off ∨ e.2.state = .fenced) ∧
  (∀ (s : State), Answers .converterPhaseLoss s fun t =>
       t.power.phasesLost = s.power.phasesLost + 1 ∧ (1 ≤ s.power.phasesLost → t.power.headLost = true ∧ t.pins.faultN = false))

/-- Thermal samples, canaries and the margin planner complete with their effect. Derived from R434, R435, R436, R437, R438. THERMAL_SAMPLE
stores the reading of each of the 64 sensors. CANARY_ERROR raises the quarter's VOLT by two codes, 30 at most, and sets its CANARY bit; at
the ceiling of 30 a switched quarter is fenced. MARGIN_PLAN shows, while PLAN_EN is 1, the slack reported for each Active switched quarter.
-/
def Obligations.ThermalAndAge : Prop :=
  (∀ (s : State) temps, Answers (.thermalSample temps) s fun t =>
       ∀ k, k < 64 → t.rd Reg.TMP_SENSOR.TEMP k = unsignedOf 16 (temps.getD k 0)) ∧
  (∀ (s : State) q, Answers (.canaryError q) s fun t =>
       if s.rd Reg.TMP_AGE.VOLT q < 30 then t.rd Reg.TMP_AGE.VOLT q = min 30 (s.rd Reg.TMP_AGE.VOLT q + 2) ∧ t.on Reg.TMP_AGE.CANARY q = true
       else q ≠ 0 → (t.quarter q).state = .fenced) ∧
  (∀ (s : State) reports, s.on Reg.TMP_AGE_CFG.PLAN_EN = true → (reports.map CanaryReport.quarter).Nodup → (∀ r ∈ reports, r.quarter ≤ 41) →
       Answers (.marginPlan reports) s fun t => ∀ r ∈ reports, r.quarter ≠ 0 → (s.quarter r.quarter).state = .active →
         t.rd Reg.TMP_AGE.SLACK_PS r.quarter = unsignedOf 8 r.slackPs)

/-- Frames that a front port receives complete with their effect. Derived from R20, R38, R39, R40, R43, R54, R58, R68. A lost head takes no
frame. On another FRAME_RECEIVE counts a frame with uncorrectable FEC in ETH_FEC_UNCORR; drops one whose length lies outside 64 to 9,216
bytes; takes an EAPOL frame to the port's own address or the PAE group address for the control host, MACsec on or off; and drops and counts
any other that bears no SecTAG, or one whose integrity check fails, where MACsec is on in strict mode. Of the frames that MACsec lets go on,
a RoCE packet of queue pair 1 and a frame to the port, to broadcast or to a subscribed multicast address go to the control host; a damaged
RoCE packet and one of another service or outside the queue pairs are counted by cause; a good CNP changes no more here; a good packet for a
context on die joins the direct path; and a frame for nobody is dropped. A frame for the control host is counted within the port's limit of
R40, or dropped and counted above it. -/
def Obligations.FrontPorts : Prop :=
  (∀ (s : State) f, (s.power.headLost = true → exec (.frameReceive f) s = .next s) ∧
       (s.power.headLost = false → f.uncorrect = true → Answers (.frameReceive f) s fun t =>
         t.rd Reg.ETH_FEC_UNCORR.COUNT (f.lport / 4) =
           Reg.ETH_FEC_UNCORR.COUNT.fit (satAdd Reg.ETH_FEC_UNCORR.COUNT.width (s.rd Reg.ETH_FEC_UNCORR.COUNT (f.lport / 4)) 1)) ∧
       (f.uncorrect = false → f.length < 64 ∨ 9216 < f.length → exec (.frameReceive f) s = .next s)) ∧
  (∀ (s : State) f, s.power.headLost = false → 64 ≤ f.length → f.length ≤ 9216 → f.uncorrect = false →
       (f.etherType = 0x888E → f.dest = .portMac ∨ f.dest = .paeGroup → Answers (.frameReceive f) s fun t => HostBound s t f.lport) ∧
       (¬ (f.etherType = 0x888E ∧ (f.dest = .portMac ∨ f.dest = .paeGroup)) → s.on Reg.ETH_MACSEC_CTRL.EN (f.lport / 4) = true →
         s.on Reg.ETH_MACSEC_CTRL.VALIDATE (f.lport / 4) = true → (∀ g, f.secTag = some g → g.icvOk = false) →
         exec (.frameReceive f) s = .next (s.setLPort f.lport { s.lport f.lport with secFails := (s.lport f.lport).secFails + 1 }))) ∧
  (∀ (s : State) f, s.power.headLost = false → 64 ≤ f.length → f.length ≤ 9216 → f.uncorrect = false →
       ¬ (f.etherType = 0x888E ∧ (f.dest = .portMac ∨ f.dest = .paeGroup)) → (s.validate f).1 = true →
       (f.roce = none → f.dest = .portMac ∨ f.dest = .broadcast ∨ f.dest = .subscribed →
         Answers (.frameReceive f) s fun t => HostBound s t f.lport) ∧
       (f.roce = none → f.dest = .paeGroup ∨ f.dest = .other → exec (.frameReceive f) s = .next (s.validate f).2) ∧
       (∀ p, f.roce = some p →
         (p.qpn = 1 → Answers (.frameReceive f) s fun t => HostBound s t f.lport) ∧
         (p.qpn ≠ 1 → p.icrcOk = false ∨ p.lengthOk = false → Answers (.frameReceive f) s fun t =>
           t.rd Reg.TRN_DROP.COUNT 3 = Reg.TRN_DROP.COUNT.fit (satAdd Reg.TRN_DROP.COUNT.width (s.rd Reg.TRN_DROP.COUNT 3) 1)) ∧
         (p.qpn ≠ 1 → p.icrcOk = true → p.lengthOk = true → p.opcode = 0x81 → exec (.frameReceive f) s = .next (s.validate f).2) ∧
         (p.qpn ≠ 1 → p.icrcOk = true → p.lengthOk = true → p.opcode ≠ 0x81 → rcOpcode p.opcode = false ∨ s.validQpn p.qpn = false →
           Answers (.frameReceive f) s fun t =>
             t.rd Reg.TRN_DROP.COUNT 2 = Reg.TRN_DROP.COUNT.fit (satAdd Reg.TRN_DROP.COUNT.width (s.rd Reg.TRN_DROP.COUNT 2) 1)) ∧
         (p.icrcOk = true → p.lengthOk = true → rcOpcode p.opcode = true → p.qpn ≠ 1 → s.validQpn p.qpn = true →
           s.roleGap .qt (p.qpn % 2) = false → p.ce = false → s.onDie p.qpn = true → s.waitingPackets p.qpn = [] → p.qpn ∉ s.trn.leaving →
           Answers (.frameReceive f) s fun t => t.trn.direct = s.trn.direct ++ [p])))

/-- Commands on queue-pair rates, contexts and timers complete with their effect. Derived from R42, R49, R50, R53, R54, R55, R56, R58, R62,
R63, R64, R70. ROCE_CNP cuts the rate of a queue pair past Init by DECREASE/256, not below 100 Mb/s, and counts; for any other it counts a
drop. RATE_INCREASE raises the rate by INCREASE up to line rate. CONTEXT_WRITEBACK_ACK of a leaving context takes it off the leaving list.
CONTEXT_ELIGIBLE gives the place of an eligible context on die to the oldest fetch that waits in its set: the context leaves, and the fetch
is issued. CONTEXT_FETCH_DONE of a good context puts it on die first in its set; a failed one moves the queue pair to Error with reason 08h
or 09h, posted to its slice. LAYBY_DRAIN_PACKET takes the oldest packet of a context on die out of the lay-by; where its queue pair is in
Reset the packet is dropped and counted. ACK_COALESCE_TIMER acknowledges what a queue pair has received and not acknowledged. ACK_TIMEOUT of
a queue pair in RTS or SQD with something unacknowledged sends again from the oldest unacknowledged packet while retries are left, and else
moves the queue pair to Error with reason 01h. RNR_TIMER of a queue pair that waits sends again, without limit at a count of 7, or moves it
to Error with reason 02h. FINAL_FLAG_PROCESS places every payload of the queue pair that waits, and delivers the oldest final-flagged SEND.
INVALIDATION_COMPLETE of a region whose key is no longer valid leaves no queue pair with a payload unplaced that was checked against it.
TRN_STATE_WRITE makes the changes 0 or 2 to 1, 0 to 2 and 1 to 3, clearing the whole-space key on the entry to 1, and changes nothing for
any other. The code of the error event is the model's (log entry 74). -/
def Obligations.QueuePairContexts : Prop :=
  (∀ (s : State) q, Answers (.roceCnp q) s fun t =>
       if s.takesPackets q = true then
         (t.qp q).rate = max 100 ((s.qp q).rate * (256 - s.rd Reg.TRN_CC_CFG.DECREASE) / 256) ∧ (t.qp q).cnps = (s.qp q).cnps + 1
       else t.rd Reg.TRN_DROP.COUNT 2 = Reg.TRN_DROP.COUNT.fit (satAdd Reg.TRN_DROP.COUNT.width (s.rd Reg.TRN_DROP.COUNT 2) 1)) ∧
  (∀ (s : State) q, Table.has q s.trn.qps = true → Answers (.rateIncrease q) s fun t =>
       (t.qp q).rate = min (s.lineRate (s.qp q).lport) ((s.qp q).rate + s.rd Reg.TRN_CC_CFG.INCREASE)) ∧
  (∀ (s : State) q, q ∈ s.trn.leaving → Answers (.contextWritebackAck q) s fun t => t.trn.leaving.count q + 1 = s.trn.leaving.count q) ∧
  (∀ (s : State) q w, s.onDie q = true → s.eligible q = true → (s.trn.fetchWait.find? fun x => qpSet x == qpSet q) = some w →
       Answers (.contextEligible q) s fun t => t.trn.leaving = s.trn.leaving ++ [q] ∧ t.trn.fetching = s.trn.fetching ++ [w]) ∧
  (∀ (s : State) q ns, q ∈ s.trn.fetching →
       ((s.qp q).crcOk = true → Answers (.contextFetchDone q ns .good) s fun t =>
         t.dieSet (qpSet q) = q :: s.dieSet (qpSet q) ∧ t.trn.fetching = s.trn.fetching.erase q) ∧
       ((s.qp q).state ≠ .error → Answers (.contextFetchDone q ns .crcFail) s fun t => Fails s t q 0x08) ∧
       ((s.qp q).state ≠ .error → Answers (.contextFetchDone q ns .uncorrectable) s fun t => Fails s t q 0x09)) ∧
  (∀ (s : State) q p r, s.waitingPackets q = p :: r → s.onDie q = true → p.qpn = q → (s.qp q).state = .reset →
       Answers (.laybyDrainPacket q) s fun t => t.waitingPackets q = r ∧
         t.rd Reg.TRN_DROP.COUNT 2 = Reg.TRN_DROP.COUNT.fit (satAdd Reg.TRN_DROP.COUNT.width (s.rd Reg.TRN_DROP.COUNT 2) 1)) ∧
  (∀ (s : State) q, (s.qp q).unackedRx ≠ 0 → Answers (.ackCoalesceTimer q) s fun t =>
       (t.qp q).unackedRx = 0 ∧ Emits s t q (.ack (prevPsn (s.qp q).expPsn))) ∧
  (∀ (s : State) q, (s.qp q).timeoutExp ≠ 0 → (s.qp q).unackedPsn ≠ (s.qp q).sendPsn → (s.qp q).state = .rts ∨ (s.qp q).state = .sqd →
       Answers (.ackTimeout q) s fun t =>
         if (s.qp q).retries < (s.qp q).retryMax then
           (t.qp q).retries = (s.qp q).retries + 1 ∧ Emits s t q (.retransmit (s.qp q).unackedPsn)
         else Fails s t q 0x01) ∧
  (∀ (s : State) q, (s.qp q).rnrTimer ≠ 0 → (s.qp q).state ≠ .error → Answers (.rnrTimer q) s fun t =>
       if (s.qp q).rnrMax = 7 ∨ (s.qp q).rnrTries < (s.qp q).rnrMax then
         (t.qp q).rnrTimer = 0 ∧ Emits s t q (.retransmit (s.qp q).unackedPsn)
       else Fails s t q 0x02) ∧
  (∀ (s : State) q b r, (s.qp q).finals = .send b none :: r → Answers (.finalFlagProcess q) s fun t =>
       (t.qp q).placements = [] ∧ (t.qp q).finals = r ∧ Sends s t (.deliver q b none false)) ∧
  (∀ (s : State) k r, Table.find k s.trn.regions = some r → r.valid = false →
    Answers (.invalidationComplete k) s fun t => ∀ q, ∀ p ∈ (t.qp q).placements, p.region ≠ k) ∧
  (∀ (s : State) v, s.running = true → Answers (.trnStateWrite v) s fun t =>
       if (v = 1 ∧ (s.rd Reg.TRN_CTRL.STATE = 0 ∨ s.rd Reg.TRN_CTRL.STATE = 2)) ∨ (v = 2 ∧ s.rd Reg.TRN_CTRL.STATE = 0) ∨
           (v = 3 ∧ s.rd Reg.TRN_CTRL.STATE = 1) then
         t.rd Reg.TRN_CTRL.STATE = v ∧ (v = 1 → t.on Reg.TRN_WHOLE_KEY.EN = false)
       else t = s)

/-- RoCE packets complete with their effect on their queue pair. Derived from R48, R49, R50, R53, R58, R61, R62, R64, R67, R68. Each packet
here is its queue pair's oldest on the direct path, with the context on die. ROCE_SEND behind the expected PSN is acknowledged only, ahead
of it draws a sequence NAK, and one that begins a message draws an RNR NAK where no buffer is posted; a SEND Only in sequence, with a buffer
posted and large enough, room in the intake of an NVMe queue, and nothing of the queue pair unplaced, is delivered, and the expected PSN
moves on by one. ROCE_SEND_INVALIDATE so received, with the key of a region of the tenant that allows it, is delivered and leaves the key
invalid; one whose key names no region draws a NAK of Remote Access Error. ROCE_RDMA_WRITE in sequence whose message begins with it and
whose key fails the check draws a NAK of Remote Access Error; an RDMA WRITE Only whose key passes, with the length it gives, stands in DDR
at once where the queue pair is not relaxed. ROCE_READ_REQUEST in sequence whose key passes, with nothing of the queue pair unplaced, is
answered with the bytes of DDR that it names, outside the part's own tables; one whose key fails draws a NAK of Remote Access Error.
ROCE_READ_RESPONSE for no outstanding read, or with a PSN in no read that was issued, is dropped and counted; with the next PSN of the
oldest read, in its middle, it takes its bytes off what is left, and puts those of a work request into its local region. ROCE_ACKNOWLEDGE of
a packet sent and not seen acknowledged moves the oldest unacknowledged PSN behind it; an RNR NAK starts the wait; a NAK of another fault
moves the queue pair to Error with its reason. ROCE_ATOMIC draws a NAK of Invalid Request and moves the queue pair to Error. -/
def Obligations.RocePackets : Prop :=
  (∀ (s : State) p, p.opcode ≤ 0x05 → s.first p = true → (s.qp p.qpn).state = .rtr ∨ (s.qp p.qpn).state = .rts ∨ (s.qp p.qpn).state = .sqd →
       Answers (.roceSend p) s fun t =>
         (psnDiff p.psn (s.qp p.qpn).expPsn < 0 → Emits s t p.qpn (.ack (prevPsn (s.qp p.qpn).expPsn))) ∧
         (0 < psnDiff p.psn (s.qp p.qpn).expPsn → Emits s t p.qpn (.nakSequence (s.qp p.qpn).expPsn)) ∧
         (psnDiff p.psn (s.qp p.qpn).expPsn = 0 → firstOf p.opcode = true → (s.qp p.qpn).recvBufs = 0 →
           Emits s t p.qpn (.rnrNak p.psn (s.qp p.qpn).rnrDelay)) ∧
         (psnDiff p.psn (s.qp p.qpn).expPsn = 0 → p.opcode = 0x04 → p.imm = none → (s.qp p.qpn).recvBufs ≠ 0 →
           s.freezing (s.qp p.qpn).slice = false →
           (s.carriesNvme p.qpn && s.intakeFull p.qpn) = false → p.payload.length ≤ (s.qp p.qpn).recvSize → (s.qp p.qpn).placements = [] →
             (s.qp p.qpn).finals = [] →
           Sends s t (.deliver p.qpn p.payload none false) ∧ (t.qp p.qpn).expPsn = ((s.qp p.qpn).expPsn + 1) % 2 ^ 24)) ∧
  (∀ (s : State) p, p.opcode = 0x16 ∨ p.opcode = 0x17 → s.first p = true → (s.qp p.qpn).state = .rts → psnDiff p.psn (s.qp p.qpn).expPsn = 0 →
       (Table.find (p.invKey.getD 0 / 256) s.trn.regions = none →
         Answers (.roceSendInvalidate p) s fun t => Emits s t p.qpn (.nakAccess p.psn)) ∧
       (∀ r, Table.find (p.invKey.getD 0 / 256) s.trn.regions = some r → r.valid = true → r.variant = p.invKey.getD 0 % 256 →
         r.tenant = (s.qp p.qpn).tenant →
         r.invSend = true → p.opcode = 0x17 → p.imm = none → (s.qp p.qpn).recvBufs ≠ 0 → s.freezing (s.qp p.qpn).slice = false →
         (s.carriesNvme p.qpn && s.intakeFull p.qpn) = false → p.payload.length ≤ (s.qp p.qpn).recvSize → (s.qp p.qpn).placements = [] →
           (s.qp p.qpn).finals = [] →
         Answers (.roceSendInvalidate p) s fun t => Sends s t (.deliver p.qpn p.payload none false) ∧
           (Table.find (p.invKey.getD 0 / 256) t.trn.regions).map Region.valid = some false)) ∧
  (∀ (s : State) p r, p.opcode = 0x06 ∨ p.opcode = 0x0A ∨ p.opcode = 0x0B → p.reth = some r → s.first p = true → (s.qp p.qpn).state = .rts →
       psnDiff p.psn (s.qp p.qpn).expPsn = 0 →
       (s.keyCheck r.key (some (s.qp p.qpn).tenant) true r.va p.payload.length = none →
         Answers (.roceRdmaWrite p) s fun t => Emits s t p.qpn (.nakAccess p.psn)) ∧
       (∀ a, s.keyCheck r.key (some (s.qp p.qpn).tenant) true r.va p.payload.length = some a → p.opcode = 0x0A → p.imm = none →
         p.payload.length = r.len →
         (s.qp p.qpn).relaxed = false → Answers (.roceRdmaWrite p) s fun t =>
           t.mem = (s.ddrWriteList a p.payload).mem ∧ (t.qp p.qpn).expPsn = ((s.qp p.qpn).expPsn + 1) % 2 ^ 24)) ∧
  (∀ (s : State) p r, p.opcode = 0x0C → p.reth = some r → s.first p = true → (s.qp p.qpn).state = .rts → psnDiff p.psn (s.qp p.qpn).expPsn = 0 →
       Answers (.roceReadRequest p) s fun t => match s.keyCheck r.key (some (s.qp p.qpn).tenant) false r.va r.len with
         | none => Emits s t p.qpn (.nakAccess p.psn)
         | some a => (s.qp p.qpn).placements = [] → (s.qp p.qpn).finals = [] → (∀ k, k < r.len → s.tableByte (a + k) = none) →
             Emits s t p.qpn (.readResponse (s.ddrReadList a r.len))) ∧
  (∀ (s : State) p, 0x0D ≤ p.opcode → p.opcode ≤ 0x10 → s.first p = true → (s.qp p.qpn).state = .rts →
       (∀ r ∈ (s.qp p.qpn).reads, r.issued = true → psnDiff p.psn r.psn < 0 ∨ (s.qp p.qpn).packets r.len ≤ psnDiff p.psn r.psn) →
       Answers (.roceReadResponse p) s fun t =>
         t.rd Reg.TRN_DROP.COUNT 2 = Reg.TRN_DROP.COUNT.fit (satAdd Reg.TRN_DROP.COUNT.width (s.rd Reg.TRN_DROP.COUNT 2) 1)) ∧
  (∀ (s : State) p r rs, p.opcode = 0x0E → s.first p = true → (s.qp p.qpn).state = .rts → (s.qp p.qpn).reads = r :: rs → r.issued = true →
       0 ≤ psnDiff p.psn r.psn → psnDiff p.psn r.psn < (s.qp p.qpn).packets r.len → p.psn = r.next → p.payload.length ≤ r.left →
       (r.void = true ∨ r.local_ = true → Answers (.roceReadResponse p) s fun t =>
         (t.qp p.qpn).reads.head? = some { r with left := r.left - p.payload.length, next := (r.next + 1) % 2 ^ 24 }) ∧
       (∀ w a, r.void = false → r.local_ = true → ((s.qp p.qpn).sendQueue.find? fun w => w.op == .read && w.sent) = some w →
         s.keyCheck w.localKey (some (s.qp p.qpn).tenant) true (w.offset + r.segment + (r.len - r.left)) p.payload.length = some a →
         Answers (.roceReadResponse p) s fun t => t.mem = (s.ddrWriteList a p.payload).mem)) ∧
  (∀ (s : State) p m k, p.opcode = 0x11 → p.aeth = some (k, m) → s.first p = true → (s.qp p.qpn).state = .rts →
    Answers (.roceAcknowledge p) s fun t =>
       (k = 0 → 0 ≤ psnDiff p.psn (s.qp p.qpn).unackedPsn → psnDiff p.psn (s.qp p.qpn).sendPsn < 0 →
         (t.qp p.qpn).unackedPsn = (p.psn + 1) % 2 ^ 24) ∧
       (k / 32 % 4 = 1 → (t.qp p.qpn).rnrTimer = 1 ∧ (t.qp p.qpn).naksIn = (s.qp p.qpn).naksIn + 1) ∧
       (k = 97 ∨ k = 98 ∨ k = 99 → Fails s t p.qpn (k - 94))) ∧
  (∀ (s : State) p, (0x12 ≤ p.opcode ∧ p.opcode ≤ 0x15) ∨ (0x18 ≤ p.opcode ∧ p.opcode < 0x20) → s.first p = true → (s.qp p.qpn).state = .rts →
       Answers (.roceAtomic p) s fun t => Emits s t p.qpn (.nakInvalid p.psn) ∧ ∃ r, Fails s t p.qpn r)

/-- Commands of the PCIe function complete with their effect. Derived from R381, R382, R384, R385, R387, R494. PCIE_PERST_ASSERT is a
function reset with the link down: no slice is left, and RESET_CAUSE.FUNC is set. PCIE_PERST_RELEASE shows the trained link in CHI_LINK, in
flit mode at speed 6 alone. FUNCTION_RESET of any cause leaves no slice and no job of one, and sets RESET_CAUSE.FUNC. ATS_INVALIDATE
completes at once where no request uses a translation, and else waits. HOST_REQUEST_FAILED is logged through AER, and a ring command that
can be answered completes with 0x1007. MSIX_TABLE_WRITE of a vector below 4,096 sets its address, data and mask, and sends a pending message
that it unmasks in D0. D3HOT_TRANSITION sets the power state, and on the return to D0 sends every host request that waited. MGR_ENABLE with
bit 0 set creates slice 0 where it is not live; with bit 0 clear, and slice 0 not live, it clears EN and nothing else. -/
def Obligations.HostEndpoint : Prop :=
  (∀ (s : State), Answers .pciePerstAssert s fun t =>
       t.host.slices = [] ∧ t.host.linkUp = false ∧ t.on Reg.CHI_LINK.UP = false ∧ t.on Reg.OLD_RESET_CAUSE.FUNC = true) ∧
  (∀ (s : State) speed width, Answers (.pciePerstRelease speed width) s fun t =>
       t.host.linkUp = true ∧ t.on Reg.CHI_LINK.UP = true ∧ t.rd Reg.CHI_LINK.SPEED = Reg.CHI_LINK.SPEED.fit speed ∧
       t.rd Reg.CHI_LINK.WIDTH = Reg.CHI_LINK.WIDTH.fit width ∧ t.rd Reg.CHI_LINK.FLIT = if speed = 6 then 1 else 0) ∧
  (∀ (s : State) cause, Answers (.functionReset cause) s fun t => t.host.slices = [] ∧ t.bnd.jobs = [] ∧ t.on Reg.OLD_RESET_CAUSE.FUNC = true) ∧
  (∀ (s : State) tag, Answers (.atsInvalidate tag) s fun t =>
       if s.hostBursts = true then t.host.ats = s.host.ats ++ [tag] else Sends s t (.atsDone tag)) ∧
  (∀ (s : State) owner, Answers (.hostRequestFailed owner) s fun t => Sends s t (.aer 0) ∧
       ∀ c, owner = .ringCmd c → s.answers c = true → Completes s t c 0x1007 0 0) ∧
  (∀ (s : State) v a d m, v < 4096 → Answers (.msixTableWrite v a d m) s fun t =>
       (Table.get v {} t.host.msix).address = a ∧ (Table.get v {} t.host.msix).data = d ∧ (Table.get v {} t.host.msix).masked = m ∧
       ((Table.get v {} s.host.msix).pending = true → m = false → s.host.d3hot = false → Sends s t (.msix v a d))) ∧
  (∀ (s : State) hot, Answers (.d3hotTransition hot) s fun t => t.host.d3hot = hot ∧
       (hot = false → s.host.d3hot = true → ∀ o ∈ s.hostWait, Sends s t o)) ∧
  (∀ (s : State) v, (Table.find 0 s.host.slices).any Slice.live = false →
       (v % 2 = 1 → Answers (.mgrEnable v) s fun t => t.sliceState 0 = .created) ∧
       (v % 2 = 0 → exec (.mgrEnable v) s = .next (s.wr Reg.CHI_MGR_CTRL.EN 0)))

/-- Doorbells, fetching and the commands on rings complete with their effect. Derived from R9, R383, R390, R392, R393, R394, R395, R397,
R398, R402. SQ_TAIL_DOORBELL at offset 0x1000 n + 16 k of BAR2, with a good index, sets the tail of slice n's ring k and nothing else;
CQ_HEAD_DOORBELL at 8 beyond sets the head and frees the entries up to it. A write at an offset of BAR2 where no doorbell stands changes
nothing, and one that is no aligned 4-byte or 8-byte access is only logged through AER. SQ_FETCH, where the ring may fetch and it is its
turn, moves the head on and takes a credit; an entry of a known opcode with its reserved fields 0 is listed as started. CQ_INTERRUPT_TIMER
of an armed CQ with entries that count disarms it, and an unmasked vector fires in D0. HELLO on ring 0 of a Created slice, with major 1 and
a minor range from 2 or below, makes the slice Active with the highest minor that suits both. NOP completes with 0. CANCEL of an entry of
its own ring that has not been fetched notes it, and the entry completes with 0x100C; for another ring CANCEL completes with result 1.
RING_CREATE on ring 0 with good parameters for a ring that is not there makes it, empty. RING_DELETE on ring 0 removes another ring of the
slice. -/
def Obligations.HostRings : Prop :=
  (∀ (s : State) n k z v sl r, n < 1024 → k < 64 → z = 4 ∨ z = 8 → Table.find n s.host.slices = some sl → Table.find k sl.rings = some r →
       sl.takesDoorbells = true → (v % 65536 < 2 ^ r.sqLog2 →
         exec (.sqTailDoorbell (0x1000 * n + 16 * k) z v) s = .next (s.setRing n sl k { r with sqTail := v % 65536 })) ∧
       (v % 65536 < 2 ^ r.cqLog2 → Answers (.cqHeadDoorbell (0x1000 * n + 16 * k + 8) z v) s fun t => (t.ringAt n k).map Ring.cqHead = some (v % 65536) ∧
         (t.ringAt n k).map Ring.waiting = some (r.waiting.drop ((v % 65536 + 2 ^ r.cqLog2 - r.cqHead) % 2 ^ r.cqLog2)))) ∧
  (∀ (s : State) off z v, (goodSize off z = true → 0x400000 ≤ off ∨ 1024 ≤ off % 0x1000 ∨ off % 8 ≠ 0 →
         exec (.sqTailDoorbell off z v) s = .next s ∧ exec (.cqHeadDoorbell off z v) s = .next s) ∧
       (goodSize off z = false → exec (.sqTailDoorbell off z v) s = .next (s.send (.aer 0)) ∧
         exec (.cqHeadDoorbell off z v) s = .next (s.send (.aer 0)))) ∧
  (∀ (s : State) n k e sl r, Table.find n s.host.slices = some sl → Table.find k sl.rings = some r → sl.fetching = true →
    sl.takesDoorbells = true →
       s.on Reg.CMD_HOLD.ACTIVATION = false → s.host.d3hot = false → sl.fetchable k r = true →
       sl.turnOf k r = true →
       (e.fence && sl.started.any fun st => st.ring == k) = false → sl.cancelled.contains (k, e.cid) = false →
       knownOpcode e.opcode = true → e.reservedZero = true →
       Answers (.sqFetch n k e) s fun t => (t.ringAt n k).map Ring.sqHead = some ((r.sqHead + 1) % 2 ^ r.sqLog2) ∧
         (Table.find n t.host.slices).map Slice.creditsUsed = some (sl.creditsUsed + 1) ∧
         (Table.find n t.host.slices).map Slice.started = some (sl.started ++ [{ ring := k, cid := e.cid, opcode := e.opcode, noIrq := e.noIrq }])) ∧
  (∀ (s : State) n k sl r, Table.find n s.host.slices = some sl → Table.find k sl.rings = some r → r.armed = true → r.counted ≠ [] →
       Answers (.cqInterruptTimer n k) s fun t => (t.ringAt n k).map Ring.armed = some false ∧
         ((Table.get (sl.firstVector + r.vector) {} s.host.msix).masked = false → s.host.d3hot = false →
           Sends s t (.msix (sl.firstVector + r.vector) (Table.get (sl.firstVector + r.vector) {} s.host.msix).address
             (Table.get (sl.firstVector + r.vector) {} s.host.msix).data))) ∧
  (∀ (s : State) c lo hi, (s.sliceOf c).state = .created → c.ring = 0 → lo ≤ min 2 hi → Answers (.hello c 1 lo hi) s fun t =>
       t.sliceState c.slice = .active ∧ (t.sliceOf c).minor = min 2 hi) ∧
  (∀ (s : State) c, s.accepts c .any = true → Answers (.nop c) s fun t => Completes s t c 0 0 0) ∧
  (∀ (s : State) c k cid w, s.accepts c .any = true → Answers (.cancel c k cid w) s fun t =>
       (k ≠ c.ring → Completes s t c 0 1 0) ∧
       (k = c.ring → w = true → (t.sliceOf c).cancelled = (s.sliceOf c).cancelled ++ [(k, cid)] ∧
         Completes s t { slice := c.slice, ring := k, cid := cid } 0x100C 0 0)) ∧
  (∀ (s : State) c p, s.accepts c .any = true → c.ring = 0 → p.ok (s.sliceOf c) = true → Table.has p.ring (s.sliceOf c).rings = false →
       Answers (.ringCreate c p) s fun t => Completes s t c 0 0 0 ∧
         t.ringAt c.slice p.ring = some { sqLog2 := p.sqLog2, cqLog2 := p.cqLog2, prio := p.prio, vector := p.vector, count := p.count, timeUs := p.timeUs, sqBase := p.sqBase, cqBase := p.cqBase }) ∧
  (∀ (s : State) c k, s.accepts c .any = true → c.ring = 0 → k ≠ 0 → Table.has k (s.sliceOf c).rings = true →
       Answers (.ringDelete c k) s fun t => t.ringAt c.slice k = none ∧ Completes s t c 0 0 0)

/-- The manager's commands on slices complete with their effect. Derived from R386, R387, R389, R403, R404, R405, R406. SLICE_CREATE with
good parameters, from the free pool, makes the slice Created with its capabilities and tenant. SLICE_DESTROY of a live slice other than 0
starts its squash towards Free. SLICE_FREEZE of an Active slice other than 0 stops its fetching. SLICE_THAW returns a Frozen slice to
Active. SLICE_SAVE writes the image of a Frozen slice, which is then Saved. SLICE_RESTORE of a good image into a slice that is not live
leaves it Frozen with the image's rings. SLICE_RESET by the manager of a live slice that is not Resetting leaves it Resetting.
SLICE_QUIESCED leaves a Resetting slice without work Created, and a freezing one whose channels are paused and whose commands have ended
Frozen. -/
def Obligations.HostSlices : Prop :=
  (∀ (s : State) c p, s.accepts c .slices = true → p.ok = true → s.poolHas p.rings p.channels p.firstVector p.vectors p.credits = true →
       (Table.find p.slice s.host.slices).any Slice.live = false → s.pasidFree p.pasid = true → p.caps.testBit 8 = false →
       Answers (.sliceCreate c p) s fun t => t.sliceState p.slice = .created ∧
         (Table.find p.slice t.host.slices).map Slice.caps = some p.caps ∧ (Table.find p.slice t.host.slices).map Slice.tenant = some p.tenant) ∧
  (∀ (s : State) c n, s.accepts c .slices = true → n ≠ 0 → n ≤ 1023 → (Table.find n s.host.slices).any Slice.live = true →
       Answers (.sliceDestroy c n) s fun t => t.sliceState n = .resetting ∧ (Table.find n t.host.slices).any Slice.destroying = true) ∧
  (∀ (s : State) c n sl, s.accepts c .slices = true → n ≠ 0 → n ≤ 1023 → Table.find n s.host.slices = some sl → sl.state = .active →
    sl.quiesce = none →
       Answers (.sliceFreeze c n) s fun t => (Table.find n t.host.slices).map Slice.fetching = some false ∧
         (Table.find n t.host.slices).map Slice.quiesce = some (some c)) ∧
  (∀ (s : State) c n sl, s.accepts c .slices = true → Table.find n s.host.slices = some sl → sl.state = .frozen →
       Answers (.sliceThaw c n) s fun t => t.sliceState n = .active) ∧
  (∀ (s : State) c n sl, s.accepts c .slices = true → Table.find n s.host.slices = some sl → sl.state = .frozen →
       Answers (.sliceSave c n) s fun t => t.sliceState n = .saved ∧ Sends s t (.image c (s.imageOf n sl).bytes) ∧
         Completes s t c 0 0 (s.imageOf n sl).size) ∧
  (∀ (s : State) c n pasid im, s.accepts c .slices = true → im.crcOk = true → im.version = 1 → im.minor ≤ 2 →
       (im.qps.any fun e => !(s.validQpn e.1) || Table.has e.1 s.trn.qps) = false →
       (im.regions.any fun e => (Table.find e.1 s.trn.regions).any Region.busy) = false → s.pinsTooMany im.qps = false → n ≠ 0 → n ≤ 1023 →
         n ≠ c.slice →
       (Table.find n s.host.slices).any Slice.live = false → s.pasidFree pasid = true →
       s.poolHas im.rings.length im.channels im.firstVector im.vectors im.credits = true →
       Answers (.sliceRestore c n pasid im) s fun t => t.sliceState n = .frozen ∧ (Table.find n t.host.slices).map Slice.rings = some im.rings) ∧
  (∀ (s : State) c n mode un sl, s.accepts c .any = true → c.slice = 0 → n ≤ 1023 → Table.find n s.host.slices = some sl → sl.live = true →
    sl.state ≠ .resetting →
       Answers (.sliceReset c n mode un) s fun t => t.sliceState n = .resetting) ∧
  (∀ (s : State) n sl, Table.find n s.host.slices = some sl →
       (sl.state = .resetting → sl.destroying = false → s.idleSlice n sl = true →
         Answers (.sliceQuiesced n) s fun t => t.sliceState n = .created) ∧
       (∀ c, sl.state = .active → sl.quiesce = some c → (sl.channels.all fun ch => (s.channel ch).state == .paused) = true → sl.started = [] →
         s.qpsQuiet n = true → Answers (.sliceQuiesced n) s fun t => t.sliceState n = .frozen))

/-- Ring commands on frames, queue pairs and regions complete with their effect. Derived from R60, R62, R66, R399, R400. FRAME_SEND of a
frame of 60 to 9,212 bytes without PTP, to a port with MACsec off whose priority is not paused, leaves the port and completes; on a paused
priority it waits at the port; of another length it ends with 0x1001. FRAME_RX_POST of a buffer of 9,216 bytes or more on a port that is
unclaimed or the slice's own claims the port and queues the buffer. QP_CREATE of a free valid queue pair in Reset or Init, with its fields
in range, of a tenant the slice may name, not the ninth pin of its set, installs the context for the slice. QP_MODIFY with fields in range,
tenants the slice may name, an allowed change of state and no ninth pin merges the lines that its mask names and completes, where it neither
moves the queue pair to Error nor from SQD to RTS; a mask of 64 or more completes with 0x1001. QP_DESTROY removes the context. QP_QUERY
writes the context to host memory and completes. REGION_REGISTER of a free entry below the count, with a length of 1 to 2^40, makes the key
valid with its variant advanced (for an entry never registered 0, the model's choice: log entry 83), and answers the key. REGION_INVALIDATE
of a valid key takes effect at once. WR_POST of an unarmed request whose key passes, to a queue pair in RTS or SQD with room in its send
queue, joins the send queue. -/
def Obligations.HostObjects : Prop :=
  (∀ (s : State) c f, s.accepts c .frames = true → f.lport ≤ 15 →
       (60 ≤ f.bytes.length → f.bytes.length ≤ 9212 → f.ptp = none → f.prio ∉ (s.lport f.lport).paused →
         s.on Reg.ETH_MACSEC_CTRL.EN (f.lport / 4) = false →
         Answers (.frameSend c f) s fun t => Sends s t (.frame f.lport f.bytes) ∧ Completes s t c 0 0 0) ∧
       (60 ≤ f.bytes.length → f.bytes.length ≤ 9212 → f.prio ∈ (s.lport f.lport).paused →
         Answers (.frameSend c f) s fun t => (t.lport f.lport).txq = (s.lport f.lport).txq ++ [{ f with cmd := some c }]) ∧
       (f.bytes.length < 60 ∨ 9212 < f.bytes.length → Answers (.frameSend c f) s fun t => Completes s t c 0x1001 0 0)) ∧
  (∀ (s : State) c l a n, s.accepts c .frames = true → l ≤ 15 → 9216 ≤ n → Table.get l c.slice s.host.claims = c.slice →
       Answers (.frameRxPost c l a n) s fun t => Table.find l t.host.claims = some c.slice ∧
         Table.get l [] t.host.buffers = Table.get l [] s.host.buffers ++ [{ cmd := c, address := a, length := n }]) ∧
  (∀ (s : State) c q ctx, s.accepts c .qp = true → s.rd Reg.TRN_CTX_BASE.BASE ≠ 0 → s.validQpn q = true → Table.has q s.trn.qps = false →
       ctx.state = .reset ∨ ctx.state = .init → ctx.fieldsOk = true → (s.sliceOf c).mayName ctx.tenant = true →
         (ctx.pinned && !(s.mayPin q)) = false →
       Answers (.qpCreate c q ctx) s fun t => t.qp q = { ctx with slice := c.slice, generation := s.trn.generation + 1, rate := s.lineRate ctx.lport, targetRate := s.lineRate ctx.lport, crcOk := true } ∧
         Completes s t c 0 0 0) ∧
  (∀ (s : State) c q x mask ctx, s.accepts c .qp = true → Table.find q s.trn.qps = some x →
       (64 ≤ mask → Answers (.qpModify c q mask ctx) s fun t => Completes s t c 0x1001 0 0) ∧
       (∀ new, new = ((List.range 5).filter fun k => mask.testBit k).foldl (fun (o : Qp) k => o.mergeLine ctx k) x → mask < 64 →
         new.fieldsOk = true →
         (s.sliceOf c).mayName x.tenant = true → (s.sliceOf c).mayName new.tenant = true → qpChangeOk x.state new.state = true →
         (new.pinned && !(s.mayPin q)) = false → (new.state = .error → x.state = .error) → (x.state = .sqd → new.state ≠ .rts) →
         Answers (.qpModify c q mask ctx) s fun t => t.qp q = new ∧ Completes s t c 0 0 0)) ∧
  (∀ (s : State) c q x, s.accepts c .qp = true → Table.find q s.trn.qps = some x → (s.sliceOf c).mayName x.tenant = true →
       Answers (.qpDestroy c q) s fun t => Table.find q t.trn.qps = none ∧ Table.find q t.trn.layby = none) ∧
  (∀ (s : State) c q x, s.accepts c .qp = true → Table.find q s.trn.qps = some x → (s.sliceOf c).mayName x.tenant = true →
       Answers (.qpQuery c q) s fun t => Sends s t (.context c (x.bytes q (s.outstanding q))) ∧ Completes s t c 0 0 0) ∧
  (∀ (s : State) c k r, s.accepts c .qp = true → s.rd Reg.TRN_REGION_BASE.BASE ≠ 0 → 0 < r.length → r.length ≤ 2 ^ 40 →
    (s.sliceOf c).mayName r.tenant = true →
       k < s.rd Reg.TRN_REGION_COUNT.COUNT → (Table.find k s.trn.regions).any Region.busy = false →
       Answers (.regionRegister c (some k) r) s fun t =>
         (Table.find k t.trn.regions).any (fun x => x.valid && x.base == r.base && x.length == r.length && x.slice == c.slice) = true ∧
         Completes s t c 0 (256 * k + match Table.find k s.trn.regions with | some x => (x.variant + 1) % 256 | none => 0) 0) ∧
  (∀ (s : State) c key r, s.accepts c .qp = true → Table.find (key / 256) s.trn.regions = some r → r.valid = true → r.variant = key % 256 →
       (s.sliceOf c).mayName r.tenant = true → Answers (.regionInvalidate c key) s fun t =>
         (Table.find (key / 256) t.trn.regions).map Region.valid = some false) ∧
  (∀ (s : State) c w q, s.accepts c .qp = true → w.op ≠ .sendInv → Table.find w.qpn s.trn.qps = some q → (s.sliceOf c).mayName q.tenant = true →
       (s.keyCheck w.localKey (some q.tenant) (w.op == .read) w.offset w.length).isSome = true → q.state = .rts ∨ q.state = .sqd →
         w.armed = false →
       q.sendQueue.length < q.sqSize → Answers (.wrPost c w) s fun t =>
         (t.qp w.qpn).sendQueue.map WorkReq.cmd = q.sendQueue.map WorkReq.cmd ++ [some c])

/-- DMA commands complete with their effect on their channel. Derived from R407, R408, R409, R410, R411, R412, R466. DMA_XFER of a
descriptor that passes its checks, to a Paused channel, queues there; to an idle channel with nothing queued it becomes the current
transfer. DMA_PAUSE of an own channel with no transfer pauses it at once and completes. DMA_RESUME of an own Paused channel lets it go on.
DMA_CH_PAUSE pauses an idle channel below 64 once the firmware runs. DMA_CH_RESUME lets a Paused channel below 64 go on once the firmware
runs. DMA_CH_WITHDRAW of a transfer with bursts in flight leaves the channel Withdrawing. DMA_BURST_DONE of a burst from DDR to DDR leaves
there the burst's bytes, swapped as the descriptor says; where its source lies on a lost channel it writes nothing. -/
def Obligations.DmaChannels : Prop :=
  (∀ (s : State) c d, s.accepts c .any = true → s.checkDma (s.sliceOf c) c.slice d = none → Answers (.dmaXfer c d) s fun t =>
       ((s.channel d.channel).state = .paused → (t.channel d.channel).queue = (s.channel d.channel).queue ++ [{ cmd := c, desc := d }]) ∧
       ((s.channel d.channel).state = .idle → (s.channel d.channel).cur = none → (s.channel d.channel).queue = [] →
         (t.channel d.channel).cur.map DmaXfer.desc = some d ∧ (t.channel d.channel).state = .running)) ∧
  (∀ (s : State) c ch, s.accepts c .any = true → ch ∈ (s.sliceOf c).channels → (s.channel ch).cur = none → (s.channel ch).state = .idle →
    (s.channel ch).pausers = [] →
       Answers (.dmaPause c ch) s fun t => (t.channel ch).state = .paused ∧ Completes s t c 0 0 0) ∧
  (∀ (s : State) c ch, s.accepts c .any = true → ch ∈ (s.sliceOf c).channels → (s.channel ch).state = .paused →
       Answers (.dmaResume c ch) s fun t => (t.channel ch).state = .idle ∨ (t.channel ch).state = .running) ∧
  (∀ (s : State) ch, ch < 64 → s.running = true → (s.channel ch).state = .idle → (s.channel ch).cur = none →
       Answers (.dmaChPause ch) s fun t => (t.channel ch).state = .paused) ∧
  (∀ (s : State) ch, ch < 64 → s.running = true → (s.channel ch).state = .paused →
       Answers (.dmaChResume ch) s fun t => (t.channel ch).state = .idle ∨ (t.channel ch).state = .running) ∧
  (∀ (s : State) ch x, ch < 64 → s.running = true → (s.channel ch).cur = some x → x.flight ≠ [] →
       Answers (.dmaChWithdraw ch) s fun t => (t.channel ch).state = .withdrawing ∧ (t.channel ch).cur.any DmaXfer.withdrawn = true) ∧
  (∀ (s : State) ch host x off len rest a b, (s.channel ch).cur = some x → x.flight = (off, len) :: rest →
       s.dmaAddr x.desc.srcSpace x.desc.srcKey (x.desc.src + off / x.desc.lineLen * x.desc.srcStride + off % x.desc.lineLen) = some a →
       s.dmaAddr x.desc.dstSpace x.desc.dstKey (x.desc.dst + off / x.desc.lineLen * x.desc.dstStride + off % x.desc.lineLen) = some b →
       Answers (.dmaBurstDone ch host none) s fun t =>
         t.mem = if s.touchesLost a len then s.mem else (s.ddrWriteList b (swapBytes x.desc.swap (s.ddrReadList a len))).mem)

/-- Commands on capsules, tags, holds and PS3 complete with their effect. Derived from R30, R50, R78, R79, R80, R81, R82, R83, R92, R96,
R97, R98. CAPSULE_ARRIVE enters a good capsule at the end of its role's intake; one shorter than 64 bytes moves its queue pair to Error with
reason 07h, one whose identifier is in use is completed at once with 0/03, one out of sequence with 0/0C, and one that finds the intake full
draws an RNR NAK and has its buffer back. TAG_ASSIGN gives the oldest admin capsule that passes decode, while commands are dispatched, none
is held, and QC serves, the lowest free tag, in state Running. COMPLETION_QUEUED of a command with a status, but for a reservation change
with an earlier one of its namespace still to complete, queues its completion behind those queued before. TAG_FREE of a Completing tag with
no RDMA Read open takes the tag out of use, and sends the initiator the completion that waited. CMD_TAG_QUERY shows the named tag's state in
CMD_TAG_STATE, 0 for a free tag. ABORT of an I/O capsule that still waits in intake completes that capsule with 0/07, and ends itself with
bit 0 of its result clear. HOLD_RELEASE starts a Held command whose lock is granted, the only one that nothing holds any longer.
PS3_ENTRY_END during an entry ends it: steady with the hold lifted, or, where a command is held or another state is asked for, exiting.
PS3_EXIT_END during an exit, with nothing else asked for meanwhile, puts the cap of the power state returned to in force. -/
def Obligations.CapsuleTags : Prop :=
  (∀ (s : State) k, k.bytes < 64 → (s.qp k.qpn).state ≠ .error → Answers (.capsuleArrive k) s fun t => Fails s t k.qpn 0x07) ∧
  (∀ (s : State) k, 64 ≤ k.bytes → (s.cidInUse k = true →
    Answers (.capsuleArrive k) s fun t => Emits s t k.qpn (s.completionOf k (generic 0x03))) ∧
       (s.cidInUse k = false → s.outOfSequence k = true →
         Answers (.capsuleArrive k) s fun t => Emits s t k.qpn (s.completionOf k (generic 0x0C))) ∧
       (s.cidInUse k = false → s.outOfSequence k = false → 32768 ≤ (if k.qpn % 2 = 0 then s.cmd.intake0 else s.cmd.intake1).length →
         Answers (.capsuleArrive k) s fun t => (t.qp k.qpn).recvBufs = (s.qp k.qpn).recvBufs + 1 ∧
           Emits s t k.qpn (.rnrNak (((s.qp k.qpn).expPsn + 2 ^ 24 - (s.qp k.qpn).packets k.bytes) % 2 ^ 24) (s.qp k.qpn).rnrDelay)) ∧
       (s.cidInUse k = false → s.outOfSequence k = false → k.qpn % 2 = 0 → s.cmd.intake0.length < 32768 →
         Answers (.capsuleArrive k) s fun t => ∃ w : Waiting, w.cap = k ∧ t.cmd.intake0 = s.cmd.intake0 ++ [w]) ∧
       (s.cidInUse k = false → s.outOfSequence k = false → k.qpn % 2 = 1 → s.cmd.intake1.length < 32768 →
         Answers (.capsuleArrive k) s fun t => ∃ w : Waiting, w.cap = k ∧ t.cmd.intake1 = s.cmd.intake1 ++ [w])) ∧
  (∀ (s : State) w, s.power.headLost = false → s.roleGap .qc 0 = false → s.dispatches = true → s.mayTag .initiator = true →
       oldest s.intake (fun w => w.admin) = some w → w.admin = true → w.cap.fused = .none → w.cap.op ≠ .formatNvm → w.cap.op ≠ .flush →
         w.rtag = none →
       w.made = none → s.rd Reg.CMD_PS_CFG.EFFECTIVE ≠ 3 →
       ∀ c : Cmd, c = { cap := w.cap, ctrl := w.ctrl, tenant := w.tenant, admin := true, order := w.at_, started := s.clock, hostId := w.hostId,
                        ticket := w.at_ } →
       s.checkFields c = none → s.holds c = false → Answers .tagAssign s fun t =>
         t.tag (lowestFree (s.cmd.tags.map Prod.fst) 0) = some { c with state := .running } ∧
         t.cmd.intake0 = s.cmd.intake0.erase w ∧ t.cmd.intake1 = s.cmd.intake1.erase w) ∧
  (∀ (s : State) n c st, s.tag n = some c → c.status = some st → c.state ≠ .completing → s.resvBehind n c = false →
       Answers (.completionQueued n) s fun t => (s.cmd.posting ++ [n]) <+: t.cmd.posting) ∧
  (∀ (s : State) n c, s.tag n = some c → c.state = .completing → c.readsLeft = 0 → Answers (.tagFree n) s fun t => t.tag n = none ∧
       (∀ st, n ∈ s.cmd.posting → c.status = some st → c.discard = false → c.cls = .initiator → Emits s t c.cap.qpn (s.completionOf c.cap st))) ∧
  (∀ (s : State) v, s.writable 10 = true → Answers (.cmdTagQuery v) s fun t =>
       t.rd Reg.CMD_TAG_STATE.STATE = match s.tag (v % 2 ^ 17) with | some c => c.state.code | none => 0) ∧
  (∀ (s : State) n c k w, s.ready n .abort = some c → Table.find c.ctrl s.cmd.ctrls = some k →
    (s.cmd.tags.countP fun e => e.2.cap.op == .abort) ≤ 4 →
       s.intake.find? (fun w => some w.cap.qpn == k.qpOf (c.cap.cdw10 % 65536) && w.cap.cid == c.cap.cdw10 / 65536 && !w.cap.op.isAdmin) = some w →
       Answers (.abort n) s fun t => Emits s t w.cap.qpn (s.completionOf w.cap (generic 0x07)) ∧ t.ended n = some success ∧
         t.cmd.intake0 = s.cmd.intake0.erase w) ∧
  (∀ (s : State) n c, s.tag n = some c → (s.cmd.tags.filter fun e => e.2.state == .held && !(s.stillHeld e.1 e.2)) = [(n, c)] →
       c.cap.op ≠ .abort → c.cls ≠ .internal → c.state = .held → c.locked = true → s.holds c = false → s.rd Reg.CMD_PS_CFG.EFFECTIVE ≠ 3 →
       Answers .holdRelease s fun t => (t.tag n).map Cmd.state = some .running) ∧
  (∀ (s : State), s.cmd.phase = .entering → Answers .ps3EntryEnd s fun t =>
       (t.cmd.phase = .steady ∧ t.rd Reg.CMD_HOLD.POWER_STATE = 0) ∨ t.cmd.phase = .exiting) ∧
  (∀ (s : State), s.cmd.phase = .exiting → s.cmd.psAgain = false → Answers .ps3ExitEnd s fun t => t.power.stateCap = psCap (s.cmd.psWake.getD 0))

/-- NVMe admin and Fabrics commands complete with their effect. Derived from R72, R73, R74, R89, R94, R95, R97, R100, R503, R505.
GET_LOG_PAGE of the Changed Namespace log (04h) sends the list, empties it, and ends well; of a log that is not one of R73's it ends with
1/09. IDENTIFY of a namespace (CNS 0) sends its size, block size, limits, group and one LBA format; of one that does not exist it ends with
0/0B. SET_FEATURES stores what the controller takes, the power state among it, and ends with its dword; for the persistence of reservations
it asks for internal work on every namespace named, which ends it (of a namespace that does not exist it ends with 0/0B by the model's
choice: log entry 115); with the save bit it ends with 1/0D, with a reserved field not 0 it ends with 0/02. GET_FEATURES of a feature that
the controller holds ends with its value; of another, or with a reserved field not 0, with 0/02. ASYNCHRONOUS_EVENT_REQUEST is answered by
an event that waits, stays outstanding where none does, and is over the limit as the fifth. KEEP_ALIVE restarts its controller's timer and
ends well. KEEP_ALIVE_EXPIRY of a controller with a timer resets it: none of its capsules is left in intake. FABRICS_CONNECT of queue 0 on a
queue pair of no association makes the next controller, with its keep-alive time and host identifier, and answers its ID. PROPERTY_GET of CC
and of CSTS answers the controller's value. PROPERTY_SET of CC that raises EN, with no shutdown, enables the controller and sets RDY; of
another property it ends with 0/02. DISCONNECT ends the association: its controller is no longer connected, and none of its capsules is left
in intake. CSTS_RDY_CLEAR of a resetting controller without a tag clears RDY, with SHST 10b after an abrupt shutdown; of one whose
association has ended it removes the controller. SHUTDOWN_COMPLETE of a controller in shutdown with nothing left but event requests sets
SHST to 10b. -/
def Obligations.AdminCommands : Prop :=
  (∀ (s : State) n c k, s.ready n .getLogPage = some c → Table.find c.ctrl s.cmd.ctrls = some k →
       (c.cap.cdw10 % 256 = 4 → Answers (.getLogPage n) s fun t => Sends s t (.adminData n 2 4 k.changedNs) ∧ t.ended n = some success ∧
         (Table.find c.ctrl t.cmd.ctrls).map Controller.changedNs = some []) ∧
       (c.cap.cdw10 % 256 = 0x7F → Answers (.getLogPage n) s fun t => t.ended n = some { sct := 1, sc := 0x09 })) ∧
  (∀ (s : State) n c, s.ready n .identify = some c → c.cap.cdw10 % 256 = 0 →
       (∀ x, Table.find c.cap.nsid s.map.ns = some x → Answers (.identify n) s fun t =>
         Sends s t (.adminData n 6 0 [x.size, 4096, 0x09, 31, 31, 31, 0, x.group + 1, 1, 0, 12, 0, 0, 0]) ∧ t.ended n = some success) ∧
       (Table.find c.cap.nsid s.map.ns = none → Answers (.identify n) s fun t => t.ended n = some (generic 0x0B))) ∧
  (∀ (s : State) n c k, s.ready n .setFeatures = some c → Table.find c.ctrl s.cmd.ctrls = some k →
       (c.cap.cdw10.testBit 31 = true → Answers (.setFeatures n) s fun t => t.ended n = some { sct := 1, sc := 0x0D }) ∧
       (c.cap.cdw10.testBit 31 = false → c.cap.cdw10 / 256 % 2 ^ 23 ≠ 0 ∨ c.cap.cdw12 ≠ 0 ∨ c.cap.cdw13 ≠ 0 ∨ c.cap.cdw14 ≠ 0 ∨ c.cap.cdw15 ≠ 0 →
         Answers (.setFeatures n) s fun t => t.ended n = some (generic 0x02)) ∧
       (c.cap.cdw12 = 0 → c.cap.cdw13 = 0 → c.cap.cdw14 = 0 → c.cap.cdw15 = 0 →
         (∀ k' d, c.cap.cdw10 < 256 → c.cap.cdw10 ≠ 2 → c.cap.cdw10 ≠ 0x83 → k.setFeature c.cap.cdw10 c.cap.cdw11 = some (k', d) →
           s.cmd.phase ≠ .entering ∨ s.cmd.psWaiter ≠ some n → Answers (.setFeatures n) s fun t =>
             Table.find c.ctrl t.cmd.ctrls = some k' ∧ t.ended n = some { sct := 0, sc := 0, dw0 := d }) ∧
         (c.cap.cdw10 = 2 → c.cap.cdw11 ≤ 3 → Answers (.setFeatures n) s fun t =>
           (Table.find c.ctrl t.cmd.ctrls).map Controller.ps = some c.cap.cdw11) ∧
         (c.cap.cdw10 = 0x83 → c.cap.cdw11 ≤ 1 →
           (c.cap.nsid ≠ 0xFFFFFFFF → Table.has c.cap.nsid s.map.ns = false →
             Answers (.setFeatures n) s fun t => t.ended n = some (generic 0x0B)) ∧
           (c.cap.nsid = 0xFFFFFFFF → s.map.ns = [] → Answers (.setFeatures n) s fun t => t.ended n = some success) ∧
           (∀ x, Table.has x s.map.ns = true → c.cap.nsid = 0xFFFFFFFF ∨ c.cap.nsid = x → Answers (.setFeatures n) s fun t => t.ended n = none ∧
             ∃ w ∈ t.cmd.internal, w.made.map (fun (m : Cmd) => (m.job, m.serves)) =
               some (some (.change (.reservation x (.persist (c.cap.cdw11 == 1)))), some (n, c.ticket)))))) ∧
  (∀ (s : State) n c k, s.ready n .getFeatures = some c → Table.find c.ctrl s.cmd.ctrls = some k →
       (c.cap.cdw10 < 256 → c.cap.cdw10 ≠ 0x83 → c.cap.cdw11 = 0 → c.cap.cdw12 = 0 → c.cap.cdw13 = 0 → c.cap.cdw14 = 0 → c.cap.cdw15 = 0 →
         Answers (.getFeatures n) s fun t =>
           t.ended n = some (match k.getFeature c.cap.cdw10 with | some v => { sct := 0, sc := 0, dw0 := v } | none => generic 0x02)) ∧
       (256 ≤ c.cap.cdw10 ∨ c.cap.cdw11 ≠ 0 ∨ c.cap.cdw12 ≠ 0 ∨ c.cap.cdw13 ≠ 0 ∨ c.cap.cdw14 ≠ 0 ∨ c.cap.cdw15 ≠ 0 →
         Answers (.getFeatures n) s fun t => t.ended n = some (generic 0x02))) ∧
  (∀ (s : State) n c k, s.ready n .asyncEventRequest = some c → Table.find c.ctrl s.cmd.ctrls = some k →
       (∀ a r, k.notices = a :: r → Answers (.asynchronousEventRequest n) s fun t =>
         t.ended n = some { sct := 0, sc := 0, dw0 := a.1, dw1 := a.2 } ∧ (Table.find c.ctrl t.cmd.ctrls).map Controller.notices = some r) ∧
       (k.notices = [] → k.aers.length < 4 → Answers (.asynchronousEventRequest n) s fun t =>
         t.ended n = none ∧ (Table.find c.ctrl t.cmd.ctrls).map Controller.aers = some (k.aers ++ [n])) ∧
       (k.notices = [] → 4 ≤ k.aers.length → Answers (.asynchronousEventRequest n) s fun t => t.ended n = some { sct := 1, sc := 0x05 })) ∧
  (∀ (s : State) n c k, s.ready n .keepAlive = some c → Table.find c.ctrl s.cmd.ctrls = some k → Answers (.keepAlive n) s fun t =>
       Table.find c.ctrl t.cmd.ctrls = some { k with keepAlives := k.keepAlives + 1 } ∧ t.ended n = some success) ∧
  (∀ (s : State) x k, Table.find x s.cmd.ctrls = some k → k.kato ≠ 0 → Answers (.keepAliveExpiry x) s fun t => ∀ w ∈ t.intake, w.ctrl ≠ x) ∧
  (∀ (s : State) n c, s.ready n .connect = some c → c.cap.cdw10 < 65536 → s.ctrlOf c.cap.qpn = none → Answers (.fabricsConnect n) s fun t =>
       Table.find s.cmd.nextCtrl t.cmd.ctrls =
         some { adminQp := c.cap.qpn, kato := c.cap.cdw12, hostId := num (slice c.cap.data 0 16) } ∧
       t.cmd.nextCtrl = s.cmd.nextCtrl + 1 ∧ t.ended n = some { sct := 0, sc := 0, dw0 := s.cmd.nextCtrl }) ∧
  (∀ (s : State) n c k, s.ready n .propertyGet = some c → Table.find c.ctrl s.cmd.ctrls = some k →
       (c.cap.cdw11 = 0x14 → Answers (.propertyGet n) s fun t => t.ended n = some { sct := 0, sc := 0, dw0 := k.cc }) ∧
       (c.cap.cdw11 = 0x1C → Answers (.propertyGet n) s fun t => t.ended n = some { sct := 0, sc := 0, dw0 := k.csts })) ∧
  (∀ (s : State) n c k, s.ready n .propertySet = some c → Table.find c.ctrl s.cmd.ctrls = some k →
       (c.cap.cdw11 = 0x14 → c.cap.cdw12 % 2 = 1 → c.cap.cdw12 / 2 ^ 14 % 4 = 0 → k.en = false → k.resetting = false →
         Answers (.propertySet n) s fun t => (Table.find c.ctrl t.cmd.ctrls).any (fun x => x.en && x.rdy && x.cc == c.cap.cdw12) = true ∧
           t.ended n = some success) ∧
       (c.cap.cdw11 ≠ 0x14 → Answers (.propertySet n) s fun t => t.ended n = some (generic 0x02))) ∧
  (∀ (s : State) n c k, s.ready n .disconnect = some c → Table.find c.ctrl s.cmd.ctrls = some k → Answers (.disconnect n) s fun t =>
       (∀ w ∈ t.intake, w.ctrl ≠ c.ctrl) ∧ ∀ x, Table.find c.ctrl t.cmd.ctrls = some x → x.connected = false) ∧
  (∀ (s : State) x k, Table.find x s.cmd.ctrls = some k → k.resetting = true →
    (s.cmd.tags.any fun e => e.2.cls == .initiator && e.2.ctrl == x) = false →
       Answers (.cstsRdyClear x) s fun t => Table.find x t.cmd.ctrls =
         if k.connected then some { k with rdy := false, resetting := false, shst := if k.shn = 2 then 2 else k.shst } else none) ∧
  (∀ (s : State) x k, Table.find x s.cmd.ctrls = some k → k.shn = 1 → k.shst = 1 →
       (s.cmd.tags.any fun e => e.2.cls == .initiator && e.2.ctrl == x && !(k.aers.contains e.1)) = false →
       (s.intake.any fun w => w.ctrl == x) = false →
         Answers (.shutdownComplete x) s fun t => Table.find x t.cmd.ctrls = some { k with shst := 2 })

/-- Writes, flushes, formats and reservations complete with their effect. Derived from R72, R73, R74, R84, R93, R104, R112, R163, R171,
R505. FORMAT_NVM hands off a metadata record that replaces the live root: past its point of no return; where UNMIRRORED bars it, it ends
with 7/E3. FLUSH ends well at once where none of the writes it covers is open, and else waits. WRITE is divided into its segments, and of
one with a keyed data pointer an RDMA Read asks for each segment that a lane takes as a stream; a forwarded-in Write is one segment.
WRITE_ZEROES hands off one extent, Zero or, with the deallocate bit, Unmapped, over its blocks. DATASET_MANAGEMENT deallocates its one
range, handed off as Unmapped extents of at most 0xFFFF_F000 bytes over it; without the Deallocate attribute, or with no block named, it
ends well. RESERVATION_REGISTER hands off a metadata record with the changed registrations and persistence, or ends with 0/83 where the
change is a conflict, or with 0/02 where its fields are reserved. RESERVATION_REPORT sends the generation, type, persistence, holder and
registrations, and ends well. RESERVATION_ACQUIRE by a registrant of a free reservation hands off a metadata record with the host as holder;
with a wrong key it ends with 0/83. RESERVATION_RELEASE by a registrant that is not the holder ends well; by a host with a wrong key it ends
with 0/83; by the holder, of the right type, it hands off a free reservation; a clear with the right key hands off an empty one. -/
def Obligations.BlockCommands : Prop :=
  (∀ (s : State) n c, s.ready n .formatNvm = some c →
       (s.bars n = false → s.hasRoom 192 = true → Answers (.formatNvm n) s fun t => ∃ root, t.handedOff n (.format c.cap.nsid root)) ∧
       (s.bars n = true → Answers (.formatNvm n) s fun t => t.ended n = some (vendor 0xE3))) ∧
  (∀ (s : State) n c, s.ready n .flush = some c → Answers (.flush n) s fun t =>
       (c.covers.any s.writeOpen = false → t.ended n = some success) ∧
       (c.covers.any s.writeOpen = true → (∀ e ∈ s.cmd.tags, e.1 = n → e.2 = c) → t.ended n = none)) ∧
  (∀ (s : State) n c, s.ready n .write = some c → 0 < c.cap.nlb →
       (c.cls ≠ .forwardedIn → Answers (.write n) s fun t => t.ended n ≠ none ∨
         ((t.tag n).bind Cmd.write).map (fun w => w.segs.map fun g => (g.off, g.len)) =
           some (divide s.segBytes (s.grid c.tenant) (c.cap.slba * 4096) (c.cap.nlb * 4096))) ∧
       (c.cls ≠ .forwardedIn → c.cap.sgl = .keyed → Answers (.write n) s fun t => ∃ w, (t.tag n).bind Cmd.write = some w ∧
         (w.segs.map fun g => (g.off, g.len)) = divide s.segBytes (s.grid c.tenant) (c.cap.slba * 4096) (c.cap.nlb * 4096) ∧
         (t.tag n).map Cmd.readsLeft = some (c.readsLeft + w.segs.countP Segment.begun)) ∧
       (c.cls = .forwardedIn → c.write = none → Answers (.write n) s fun t =>
         ((t.tag n).bind Cmd.write).map (fun w => w.segs.map fun g => (g.off, g.len)) = some [(0, c.cap.nlb * 4096)])) ∧
  (∀ (s : State) n c e, s.ready n .writeZeroes = some c → s.bars n = false →
       e = ({ addr := c.cap.slba * 4096, len := c.cap.nlb * 4096, loc := if c.cap.cdw12.testBit 25 then .unmapped else .zero } : Extent) →
       s.hasRoom (itemsLen [(e, none)]) = true → Answers (.writeZeroes n) s fun t =>
         (t.tag n).map Cmd.state = some .pastReturn ∧ ((t.tag n).bind Cmd.write).map WriteJob.delta = some [e]) ∧
  (∀ (s : State) n c, s.ready n .datasetManagement = some c →
       (c.cap.cdw11.testBit 2 = false ∨ (∀ r ∈ c.cap.ranges, r.2 = 0) → Answers (.datasetManagement n) s fun t => t.ended n = some success) ∧
       (∀ lba k es, c.cap.cdw11.testBit 2 = true → s.bars n = false → c.cap.ranges = [(lba, k)] → 0 < k →
         es = bareExtents .unmapped (lba * 4096) (k * 4096) → s.hasRoom (itemsLen (es.map fun e => (e, none))) = true →
         Answers (.datasetManagement n) s fun t => (t.tag n).map Cmd.state = some .pastReturn ∧
           ((t.tag n).bind Cmd.write).map WriteJob.delta = some es ∧ (∀ e ∈ es, e.len ≤ 0xFFFFF000) ∧ (es.map Extent.len).sum = k * 4096)) ∧
  (∀ (s : State) n c, s.ready n .resvRegister = some c →
       (3 ≤ c.cap.cdw10 % 8 ∨ c.cap.cdw10 / 2 ^ 30 % 4 = 1 → Answers (.reservationRegister n) s fun t => t.ended n = some (generic 0x02)) ∧
       (∀ r op, r = (s.begun n c).resvDue c.cap.nsid → c.cap.cdw10 % 8 < 3 → c.cap.cdw10 / 2 ^ 30 % 4 ≠ 1 →
         op = ResvOp.register ((s.hostOf c).getD 0) c.cap.cdw10 (num (slice c.cap.data 0 8)) (num (slice c.cap.data 8 8))
           (if c.cap.cdw10 / 2 ^ 30 % 4 = 0 then none else some (c.cap.cdw10 / 2 ^ 30 % 4 == 3)) →
         match r.register ((s.hostOf c).getD 0) c.cap.cdw10 (num (slice c.cap.data 0 8)) (num (slice c.cap.data 8 8)) with
         | none => Answers (.reservationRegister n) s fun t => t.ended n = some (generic 0x83)
         | some x => s.bars n = false → s.hasRoom 192 = true → Answers (.reservationRegister n) s fun t =>
             (t.tag n).bind Cmd.change = some (.reservation c.cap.nsid op) ∧
             r.change op = some { x with ptpl := if c.cap.cdw10 / 2 ^ 30 % 4 = 0 then x.ptpl else c.cap.cdw10 / 2 ^ 30 % 4 == 3 })) ∧
  (∀ (s : State) n c, s.ready n .resvReport = some c → Answers (.reservationReport n) s fun t => t.ended n = some success ∧
       Sends s t (.adminData n 0x0E c.cap.nsid ([(s.resvOf c.cap.nsid).gen, (s.resvOf c.cap.nsid).rtype, if (s.resvOf c.cap.nsid).ptpl then 1 else 0,
         (s.resvOf c.cap.nsid).holder.getD 0, (s.resvOf c.cap.nsid).regs.length] ++ (s.resvOf c.cap.nsid).regs.flatMap fun e => [e.1, e.2]))) ∧
  (∀ (s : State) n c r, s.ready n .resvAcquire = some c → r = (s.begun n c).resvDue c.cap.nsid → c.cap.cdw10 % 8 = 0 →
       1 ≤ c.cap.cdw10 / 256 % 256 → c.cap.cdw10 / 256 % 256 ≤ 6 →
       (r.keyOf ((s.hostOf c).getD 0) ≠ some (num (slice c.cap.data 0 8)) →
         Answers (.reservationAcquire n) s fun t => t.ended n = some (generic 0x83)) ∧
       (r.keyOf ((s.hostOf c).getD 0) = some (num (slice c.cap.data 0 8)) → r.holder = none → s.bars n = false → s.hasRoom 192 = true →
         Answers (.reservationAcquire n) s fun t => ∃ op, (t.tag n).bind Cmd.change = some (.reservation c.cap.nsid op) ∧
           r.change op = some { r with holder := some ((s.hostOf c).getD 0), rtype := c.cap.cdw10 / 256 % 256 })) ∧
  (∀ (s : State) n c r, s.ready n .resvRelease = some c → r = (s.begun n c).resvDue c.cap.nsid → c.cap.cdw10 % 8 < 2 →
       (r.keyOf ((s.hostOf c).getD 0) ≠ some (num (slice c.cap.data 0 8)) →
         Answers (.reservationRelease n) s fun t => t.ended n = some (generic 0x83)) ∧
       (r.keyOf ((s.hostOf c).getD 0) = some (num (slice c.cap.data 0 8)) →
         (c.cap.cdw10 % 8 = 0 → r.holder ≠ some ((s.hostOf c).getD 0) → Answers (.reservationRelease n) s fun t => t.ended n = some success) ∧
         (c.cap.cdw10 % 8 = 0 → r.holder = some ((s.hostOf c).getD 0) → r.rtype = c.cap.cdw10 / 256 % 256 → s.bars n = false →
           s.hasRoom 192 = true → Answers (.reservationRelease n) s fun t => ∃ op, (t.tag n).bind Cmd.change = some (.reservation c.cap.nsid op) ∧
             r.change op = some { r with holder := none, rtype := 0 }) ∧
         (c.cap.cdw10 % 8 = 1 → s.bars n = false → s.hasRoom 192 = true → Answers (.reservationRelease n) s fun t =>
           ∃ op, (t.tag n).bind Cmd.change = some (.reservation c.cap.nsid op) ∧ r.change op = some { gen := r.gen + 1, ptpl := r.ptpl })))

/-- Commands of the read path complete with their effect. Derived from R31, R65, R99, R113, R128, R139, R140, R203, R206, R207, R256, R364.
READ of blocks that are Unmapped or Zero, with MAP_CTRL.EN 1, the map resident and no change of it that waits for a page, gives zeros to the
initiator's port and ends well. COMPARE of in-capsule data against such blocks ends well where the data is all zeros, and else with Compare
Failure (2/85). CONTAINER_DECODE of an initiator's read gives the port the piece's range of the decoded chunk; a damaged container sets
BND_DECOMP_ERR.LAST and asks for the second copy, as does one of the write cache that DDR cannot give, with 0x0B; a key that cannot serve
ends the command with 7/E1; a wrong dummy round, where any run, counts in BND_CIPHER_FAULT. A forwarded-in command's container goes to the
ring as it is. SECOND_COPY_ARRIVE of a piece that waits for its second copy gives the port the range where that copy decodes, and else ends
the read with 7/E0 (damage) or 7/E1 (key). LEAF_READ_COMPLETION of a codeword decoded at the first read gives the ring the data of a proxy
read. SLOW_MEMBER_TIMEOUT of a member read of a pool that uses EXPRESS, not overtaken before, with members enough left, counts in SIG_SLOW.
PROXY_LEAF_READ of a leaf that this head reaches makes a read of it, sent at once where the lane and the leaf have room and nothing waits;
of another it answers that the codewords cannot be read. PROXY_READ_DATA of one codeword that could not be read, for a container, ends the
proxy read, has the codeword served from members enough, and counts in SIG_DEGRADED. REMOTE_READ queues internal work that reads the
container where it is now. REMOTE_READ_DATA for a read's piece without a copy keeps the copy. -/
def Obligations.ReadPath : Prop :=
  (∀ (s : State) n c x p, s.ready n .read = some c → c.cls = .initiator → Table.find c.cap.nsid s.map.ns = some x → s.on Reg.MAP_CTRL.EN = true →
       (s.map.deltas.any fun d => d.nsid == c.cap.nsid) = false →
       (have u := (s.begun n c).touched c.cap.nsid x.root (c.cap.slba * 4096) (c.cap.slba * 4096 + c.cap.nlb * 4096)
        u.firstFault x.root (c.cap.slba * 4096) (c.cap.slba * 4096 + c.cap.nlb * 4096) = none ∧
        u.piecesOf x.root (c.cap.slba * 4096) (c.cap.slba * 4096 + c.cap.nlb * 4096) = [p]) → p.sent = false → p.loc = .unmapped ∨
          p.loc = .zero →
       Answers (.read n) s fun t => Emits s t c.cap.qpn (.writeData n p.off (zeros p.len)) ∧ t.ended n = some success) ∧
  (∀ (s : State) n c x p, s.ready n .compare = some c → c.cls = .initiator → c.sent = false → c.partner = none → c.cap.sgl = .inCapsule →
       c.cap.nlb * 4096 ≤ c.cap.data.length → Table.find c.cap.nsid s.map.ns = some x → s.on Reg.MAP_CTRL.EN = true →
       (s.map.deltas.any fun d => d.nsid == c.cap.nsid) = false →
       (have u := (s.begun n c).touched c.cap.nsid x.root (c.cap.slba * 4096) (c.cap.slba * 4096 + c.cap.nlb * 4096)
        u.firstFault x.root (c.cap.slba * 4096) (c.cap.slba * 4096 + c.cap.nlb * 4096) = none ∧
        u.piecesOf x.root (c.cap.slba * 4096) (c.cap.slba * 4096 + c.cap.nlb * 4096) = [p]) → p.sent = false → p.loc = .unmapped ∨
          p.loc = .zero →
       Answers (.compare n) s fun t => t.ended n = some (if zeros p.len = c.cap.data.take (c.cap.nlb * 4096) then success else media 0x85)) ∧
  (∀ (s : State) n k c p b, s.tag n = some c → c.pieces[k]? = some p → p.copy = some (some b) → p.sent = false → p.second = none →
    c.status = none →
       (∀ f, f = false ∨ s.rd Reg.BND_SIDECH.DUMMY = 0 → c.cls = .initiator → c.cap.op = .read → s.cacheLost p.loc = false →
         Answers (.containerDecode n { piece := k, fault := f }) s fun t =>
         match s.decodeContainer c.tenant p.loc.size b with
         | .ok plain => Emits s t c.cap.qpn (.writeData n p.off (slice plain p.chunkOff p.len))
         | .error (.damage code) => t.rd Reg.BND_DECOMP_ERR.LAST = code % 256
         | .error (.key _) => t.ended n = some (vendor 0xE1)) ∧
       (∀ fault, c.cls = .initiator → c.cap.op = .read → p.loc.inCache = true → 0 < p.loc.size →
         Answers (.containerDecode n { piece := k, ddr := true, fault := fault }) s fun t =>
         t.rd Reg.BND_DECOMP_ERR.LAST = 0x0B) ∧
       (∀ plain, c.cls = .initiator → s.cacheLost p.loc = false → s.decodeContainer c.tenant p.loc.size b = .ok plain →
         0 < s.rd Reg.BND_SIDECH.DUMMY →
         Answers (.containerDecode n { piece := k, fault := true }) s fun t => t.rd Reg.BND_CIPHER_FAULT.COUNT =
           Reg.BND_CIPHER_FAULT.COUNT.fit (satAdd Reg.BND_CIPHER_FAULT.COUNT.width (s.rd Reg.BND_CIPHER_FAULT.COUNT) 1)) ∧
       (c.cls = .forwardedIn → s.cacheLost p.loc = false → Answers (.containerDecode n { piece := k }) s fun t =>
         Rings s t (.forwardData { rtag := c.peerTag.getD 0, otag := n, tenant := c.tenant }
           [{ ext := { addr := c.cap.slba * 4096 + p.off, len := p.len, off := p.chunkOff, loc := p.loc }, container := b }]))) ∧
  (∀ (s : State) n k c p code b, n ≠ mirrorTag → s.tag n = some c → c.pieces[k]? = some p → p.second = some code → p.sent = false →
    c.status = none →
       c.cls = .initiator → c.cap.op = .read → Answers (.secondCopyArrive n k { copy := some b }) s fun t =>
         match s.decodeContainer c.tenant p.loc.size b with
         | .ok plain => Emits s t c.cap.qpn (.writeData n p.off (slice plain p.chunkOff p.len))
         | .error (.damage _) => t.ended n = some (vendor 0xE0)
         | .error (.key _) => t.ended n = some (vendor 0xE1)) ∧
  (∀ (s : State) id used current fixed b op r pid, Table.find id s.lfl.ops = some op → op.for_ = .read r → r.use = .proxy pid →
    r.count = 1 → r.step = 0 →
       Answers (.leafReadCompletion id used current [.good fixed b]) s fun t => Rings s t (.ring 0x50 [pid, r.first, 1] b)) ∧
  (∀ (s : State) id op r g q, Table.find id s.lfl.ops = some op → op.for_ = .read r → r.use = .gather g → s.quire r.quire = some q →
       (s.poolEff q.pool).express = true → r.overtaken = false → q.data ≤ (s.standIns q r.folio r.member).length →
       Answers (.slowMemberTimeout id) s fun t => t.rd Reg.SIG_SLOW.COUNT = Reg.SIG_SLOW.COUNT.fit (satAdd Reg.SIG_SLOW.COUNT.width (s.rd Reg.SIG_SLOW.COUNT) 1)) ∧
  (∀ (s : State) id l u f a k, (s.reach l u = .direct → Answers (.proxyLeafRead id l u f a k) s fun t =>
         (Table.find s.lfl.nextId t.lfl.ops).map (fun (o : LeafOp) => (o.leaf, o.cmd)) = some (l, .read) ∧
         (s.leafReady l [] = true → (∀ e ∈ s.lfl.ops, e.2.leaf = l → e.2.waits = false) → Table.find s.lfl.nextId s.lfl.ops = none →
           Sends s t (.leaf (l / 16) (commandFlit l (s.freeLeafTag l) .read (le 4 u ++ le 2 f ++ [byteOf a, byteOf k, byteOf 0]) []) []))) ∧
       (s.reach l u ≠ .direct → Answers (.proxyLeafRead id l u f a k) s fun t => Rings s t (.ring 0x50 [id, a, 0] []))) ∧
  (∀ (s : State) id op r g q, Table.find id s.lfl.ops = some op → op.for_ = .proxied r → r.use = .gather g → r.overtaken = false →
    r.count = 1 → id < s.lfl.nextId →
       s.sig.checks = [] → s.sig.patrols = [] →
       s.quire r.quire = some q → q.data ≤ (s.standIns q r.folio r.member).length → Answers (.proxyReadData id none) s fun t =>
         Table.find id t.lfl.ops = none ∧
         Table.find s.lfl.nextId t.lfl.degraded = some { want := r, asked := (s.standIns q r.folio r.member).take q.data } ∧
         t.rd Reg.SIG_DEGRADED.COUNT = Reg.SIG_DEGRADED.COUNT.fit (satAdd Reg.SIG_DEGRADED.COUNT.width (s.rd Reg.SIG_DEGRADED.COUNT) 1)) ∧
  (∀ (s : State) pair n k loc, Answers (.remoteRead pair n k loc) s fun t =>
       Asks s t (.fetch (.remote pair n k) (s.homePlace loc)) none) ∧
  (∀ (s : State) n k b c p, s.tag n = some c → c.job = none → s.runOf n = none → c.write = none → c.pieces[k]? = some p → p.copy = none →
       Answers (.remoteReadData n k b) s fun t => t.pieceAt n k = some { p with copy := some b })

/-- Commands of the dedup path complete with their effect. Derived from R107, R111, R114, R118, R120, R121, R122, R123, R125, R127, R131,
R211. GEAR_SEED_WRITE sets the seed while the bindery's set-up lock is open, and nothing while it is in force. DIGEST_STATE_DONE makes a
loaded slot's states ready; with no chunk that waits for them no command changes, and one chunk that waits, alone, has its lookup sent with
the HMAC under the key that its digest was started with, which is the slot's where it has none yet. DEDUP_LOOKUP with no entry of the tag,
or lookups off, answers a miss and counts it; with one candidate, equal and with a pin to spare, it answers the entry's place and pins it.
LOOKUP_ANSWER of a hit in a domain without VERIFY makes the chunk a reference; before every byte of the write has come it changes nothing
else. VERIFY_COMPARE of a stored copy that decodes counts a match where it is the chunk's own bytes, and else a mismatch. RECONCILE_ENTRY
takes the oldest journal entry and enters its fingerprint in the flash index, where the chunk is destaged, the domain exact and not
cascaded, and the index holds none. DOMAIN_SWEEP of an exact domain with SWEEP_NEEDED, while the reconciler may work and its home can be
reached, clears the bit where every chunk of the domain stands in flash or has no fingerprint. DOMAIN_CFG_WRITE of a domain with EN 0 writes
the fields, a reserved MODE or DIGEST apart; of one with EN 1 it writes EN alone. CASCADE_JOURNAL_ENTRY, once for each sequence, answers
that the home holds none, or adds a reference to the container that it holds and answers with it. CASCADE_HOME_ANSWER of a home that holds
none enters the pair's own copy in its flash index, where none stands, and the question is closed; of one that holds a copy, where the
pair's own has gone, gives the reference back. CASCADE_RELEASE is applied once for each sequence. LOST_NOTICE leaves no index entry with the
remote location of the lost container. -/
def Obligations.DedupCommands : Prop :=
  (∀ (s : State) v, s.writable 11 = true → (s.locked 11 = false →
    Answers (.gearSeedWrite v) s fun t => t.rd Reg.BND_GEAR_SEED.SEED = Reg.BND_GEAR_SEED.SEED.fit v) ∧
       (s.locked 11 = true → exec (.gearSeedWrite v) s = .next s)) ∧
  (∀ (s : State) n dmg d, Table.find n s.keys.digest = some d → Answers (.digestStateDone { slot := n, damaged := dmg }) s fun t =>
       (Table.find n t.keys.digest).any DigestSlot.ready = true ∧
       ((∀ e ∈ s.cmd.tags, waitingChunks e.2 = []) → t.cmd = s.cmd) ∧
       (∀ x c k, s.cmd.tags = [(x, c)] → waitingChunks c = [k] → s.rd Reg.DDP_DOMAIN_KEYS.DIGEST_SLOT c.tenant = n → d.damaged = false →
         s.isForwarded x = false → Sends s t (.lookup c.tenant (hmac (s.rd Reg.DDP_DOMAIN_CFG.DIGEST c.tenant) (k.key.getD d.key) k.bytes) x k.off))) ∧
  (∀ (s : State) n off c w k, s.tag n = some c → c.write = some w → w.chunkAt off = some k → k.state = .asked → k.answer = none →
       (s.on Reg.DDP_CTRL.LOOKUP_EN = false ∨ s.tagMatches c.tenant (k.fp.getD []) = [] → Answers (.dedupLookup n off [] []) s fun t =>
         t.chunkOf n off = some { k with answer := some none } ∧
         t.rd Reg.DDP_MISSES.COUNT = Reg.DDP_MISSES.COUNT.fit (satAdd Reg.DDP_MISSES.COUNT.width (s.rd Reg.DDP_MISSES.COUNT) 1)) ∧
       (∀ key e, s.on Reg.DDP_CTRL.LOOKUP_EN = true → s.tagMatches c.tenant (k.fp.getD []) = [key] → Table.find key s.ddp.index = some e →
         le 2 e.domain ++ e.fp = le 2 c.tenant ++ k.fp.getD [] → e.pins < 255 → Answers (.dedupLookup n off [] []) s fun t =>
           t.chunkOf n off = some { k with answer := some (some e.loc), pin := some key } ∧
           Table.find key t.ddp.index = some { e with pins := e.pins + 1 })) ∧
  (∀ (s : State) n off c w k loc, s.tag n = some c → c.write = some w → w.chunkAt off = some k → k.state = .asked → k.answer = some (some loc) →
       s.on Reg.DDP_DOMAIN_CFG.VERIFY c.tenant = false → (w.segs.all fun g => g.got == g.len) = false →
       exec (.lookupAnswer n off false) s = .next (s.modChunk n off fun k => { k with state := .hit loc })) ∧
  (∀ (s : State) n off fault c w k loc b stored, s.tag n = some c → c.write = some w → w.chunkAt off = some k → k.state = .verifying loc →
       k.copy = some (some b) → s.decodeContainer c.tenant loc.size b = .ok stored → Answers (.verifyCompare n off { fault := fault }) s fun t =>
         if stored = s.chunkBytes c.tenant k then
           t.rd Reg.DDP_VERIFY_MATCH.COUNT = Reg.DDP_VERIFY_MATCH.COUNT.fit (satAdd Reg.DDP_VERIFY_MATCH.COUNT.width (s.rd Reg.DDP_VERIFY_MATCH.COUNT) 1)
         else t.rd Reg.DDP_VERIFY_MISMATCH.COUNT =
           Reg.DDP_VERIFY_MISMATCH.COUNT.fit (satAdd Reg.DDP_VERIFY_MISMATCH.COUNT.width (s.rd Reg.DDP_VERIFY_MISMATCH.COUNT) 1)) ∧
  (∀ (s : State) upset e r pool q g m o z, s.ddp.journal = e :: r → s.mayReconcile = true → s.rd Reg.DDP_RECON_RATE.PER_MS ≠ 0 →
       s.isStored e.loc = true → s.rd Reg.DDP_DOMAIN_CFG.MODE e.domain = 2 → e.loc = .flash pool q g m o z → s.cascaded e.domain = false →
       s.flashEntry e.domain e.fp = none → Answers (.reconcileEntry upset) s fun t => t.ddp.journal = r ∧ t.ddp.flash = s.ddp.flash ++ [e]) ∧
  (∀ (s : State) d upset, s.on Reg.DDP_DOMAIN_STAT.SWEEP_NEEDED d = true → s.mayReconcile = true → s.rd Reg.DDP_DOMAIN_CFG.MODE d = 2 →
       (s.cascaded d && !(s.pairReached (s.rd Reg.DDP_DOMAIN_HOME.HOME d))) = false →
       (∀ m ∈ s.keys.stored, m.domain = d → m.loc.inFlash = true ∨ m.fp = none) →
       Answers (.domainSweep { domain := d, upset := upset }) s fun t => t.on Reg.DDP_DOMAIN_STAT.SWEEP_NEEDED d = false) ∧
  (∀ (s : State) d v, s.writable 12 = true → d < 4096 →
       (s.on Reg.DDP_DOMAIN_CFG.EN d = false → Answers (.domainCfgWrite d v) s fun t =>
         t.rd Reg.DDP_DOMAIN_CFG.EN d = v % 2 ∧ t.rd Reg.DDP_DOMAIN_CFG.MODE d = (if v / 2 % 4 = 3 then s.rd Reg.DDP_DOMAIN_CFG.MODE d else v / 2 % 4) ∧
         t.rd Reg.DDP_DOMAIN_CFG.CHUNK d = v / 8 % 4 ∧
         t.rd Reg.DDP_DOMAIN_CFG.DIGEST d = (if v / 32 % 4 = 3 then s.rd Reg.DDP_DOMAIN_CFG.DIGEST d else v / 32 % 4) ∧
         t.rd Reg.DDP_DOMAIN_CFG.VERIFY d = v / 128 % 2 ∧ t.rd Reg.DDP_DOMAIN_CFG.CASCADE d = v / 256 % 2) ∧
       (s.on Reg.DDP_DOMAIN_CFG.EN d = true → exec (.domainCfgWrite d v) s = .next (s.wr Reg.DDP_DOMAIN_CFG.EN (v % 2) d))) ∧
  (∀ (s : State) d fp pair seq, s.ddp.applied.contains (pair, seq) = false →
       (∀ upset, s.flashEntry d fp = none → Answers (.cascadeJournalEntry d fp pair seq upset) s fun t => Rings s t (.ring 0x41 [pair, seq, 0] []) ∧
         t.ddp.applied = (pair, seq) :: s.ddp.applied) ∧
       (∀ x, s.flashEntry d fp = some x → Answers (.cascadeJournalEntry d fp pair seq false) s fun t =>
         t.refCount x.loc = s.refCount x.loc + 1 ∧ ∃ b, Rings s t (.ring 0x41 [pair, seq, 1] b))) ∧
  (∀ (s : State) q upset e, Table.find q s.ddp.asked = some e →
       (s.isStored e.loc = true → s.flashEntry e.domain e.fp = none → Answers (.cascadeHomeAnswer q { found := none, upset := upset }) s fun t =>
         t.ddp.flash = s.ddp.flash ++ [e] ∧ Table.find q t.ddp.asked = none) ∧
       (∀ l, s.isStored e.loc = false → Answers (.cascadeHomeAnswer q { found := some l, upset := upset }) s fun t => Table.find q t.ddp.asked = none ∧
         Rings s t (.ring 0x44 [s.rd Reg.DDP_DOMAIN_HOME.HOME e.domain, (s.ddp.seqOut + 1) % 2 ^ 32]
           (l.toRemote (s.rd Reg.DDP_DOMAIN_HOME.HOME e.domain)).bytes))) ∧
  (∀ (s : State) pair seq loc, (s.ddp.applied.contains (pair, seq) = false → Answers (.cascadeRelease pair seq loc) s fun t =>
         t.ddp.applied = (pair, seq) :: s.ddp.applied) ∧ (s.ddp.applied.contains (pair, seq) = true →
           exec (.cascadeRelease pair seq loc) s = .next s)) ∧
  (∀ (s : State) d home loc, Answers (.lostNotice d home loc) s fun t => ∀ e ∈ t.ddp.index, e.2.loc ≠ (loc.atHome).toRemote home)

/-- Commands on keys and generations complete with their effect. Derived from R149, R150, R151, R152, R155, R159, R507. KEY_LOAD for a
tenant that the slice may name completes with the first check of R150 that fails, or, where all pass, with 0; a digest key then stands in
its slot, and a loaded cipher key is the slot's current generation, under the number that its ledger gives. KEY_RETIRE of a slot whose
ledger names a previous generation with no container stored under it removes that generation; with containers it completes with 0x320E, and
with no previous generation with 0. KEY_REVOKE of a cipher slot in use leaves it, and its ledger, with no generation and not damaged; of a
digest slot, empty. KEY_RESWEEP of a domain whose slot has a current generation waits while containers are stored under the previous one,
and with none, and no other sweep, completes with 0. REKEY_SWEEP_STEP of a domain with no container left under a previous generation ends
its sweeps. KEK_LOAD with GO and an index from 1, before the set-up lock, loads the 32 bytes of KEY_KEK_DATA, shows the KEK loaded, and
clears the data; after the lock it changes nothing. COMP_JOB whose parameter block is good starts a job on the lane chosen; one that is not
completes with 0x1001 (the model's choice, log entry 96), and LZ4 compression with 0x310A. CIPHER_JOB with good fields and length, on a
generation that fits its mode, of a tenant that the slice may name and no envelope key, starts a job; a field out of range completes with
its code. JOB_SLICE_END with the last slice of a CRC job that its lane serves next posts the CRC32C of the input from its seed, and the job
is over. -/
def Obligations.KeySlots : Prop :=
  (∀ (s : State) c k, s.accepts c .keys = true → (s.sliceOf c).mayName k.tenant = true → Answers (.keyLoad c k none) s fun t =>
       match s.checkLoad k with
       | .error code => Completes s t c code 0 0
       | .ok (type, key) => Completes s t c 0 0 0 ∧
         (type = .hmac → (Table.find k.slot t.keys.digest).map (fun d => (d.tenant, d.key)) = some (k.tenant, key)) ∧
         (type.isCipher = true → k.op = 0 →
           (t.cipherSlot k.slot).cur = some { gen := (s.ledger k.slot).nextGen.getD 0, type := type, key := key } ∧
           (t.ledger k.slot).cur = some ((s.ledger k.slot).nextGen.getD 0))) ∧
  (∀ (s : State) c n, s.accepts c .keys = true → n < 8192 → (s.slotInUse n && !((s.sliceOf c).mayName (s.slotTenant n))) = false →
       (∀ g, (s.ledger n).prev = some g → (s.ledger n).count g = 0 → Answers (.keyRetire c n) s fun t => (t.cipherSlot n).prev = none ∧
         (t.ledger n).prev = none ∧ (t.cipherSlot n).cur = (s.cipherSlot n).cur ∧ Completes s t c 0 0 0) ∧
       (∀ g, (s.ledger n).prev = some g → (s.ledger n).count g ≠ 0 → Answers (.keyRetire c n) s fun t => Completes s t c 0x320E 0 0) ∧
       ((s.ledger n).prev = none → Answers (.keyRetire c n) s fun t => Completes s t c 0 0 0)) ∧
  (∀ (s : State) c n, s.accepts c .keys = true →
       (s.slotInUse n = true → (s.sliceOf c).mayName (s.slotTenant n) = true → Answers (.keyRevoke c .cipher n) s fun t =>
         (t.cipherSlot n).cur = none ∧ (t.cipherSlot n).prev = none ∧ (t.cipherSlot n).damaged = false ∧
         (t.ledger n).cur = none ∧ (t.ledger n).prev = none ∧ Completes s t c 0 0 0) ∧
       (∀ d, Table.find n s.keys.digest = some d → (s.sliceOf c).mayName d.tenant = true → Answers (.keyRevoke c .digest n) s fun t =>
         Table.find n t.keys.digest = none ∧ Completes s t c 0 0 0)) ∧
  (∀ (s : State) c d, s.accepts c .keys = true → d < 4096 → (s.sliceOf c).mayName d = true →
       (s.cipherSlot (s.rd Reg.DDP_DOMAIN_KEYS.CIPHER_SLOT d)).cur.isSome = true →
       (∀ g, s.oldGen d = some g → (s.ledger (s.rd Reg.DDP_DOMAIN_KEYS.CIPHER_SLOT d)).count g ≠ 0 → Answers (.keyResweep c d) s fun t =>
         Table.find d t.keys.sweeps = some (Table.get d [] s.keys.sweeps ++ [c])) ∧
       (s.oldGen d = none → Table.find d s.keys.sweeps = none → Answers (.keyResweep c d) s fun t => Completes s t c 0 0 0 ∧
         Table.find d t.keys.sweeps = none)) ∧
  (∀ (s : State) d fault, Table.has d s.keys.sweeps = true → (s.keys.rekeyed.find? fun e => s.domainOf e.1 == d) = none → s.oldGen d = none →
       Answers (.rekeySweepStep { domain := d, fault := fault }) s fun t => Table.find d t.keys.sweeps = none) ∧
  (∀ (s : State) v, s.writable 21 = true → v.testBit 4 = true → v % 16 ≠ 0 →
       (s.locked 21 = false → Answers (.kekLoad v) s fun t =>
         Table.find (v % 16) t.keys.keks = some (le 8 (s.rd Reg.KEY_KEK_DATA.DATA 0) ++ le 8 (s.rd Reg.KEY_KEK_DATA.DATA 1) ++
           le 8 (s.rd Reg.KEY_KEK_DATA.DATA 2) ++ le 8 (s.rd Reg.KEY_KEK_DATA.DATA 3)) ∧
         (t.rd Reg.KEY_KEK_STATUS.LOADED) = Reg.KEY_KEK_STATUS.LOADED.fit (s.rd Reg.KEY_KEK_STATUS.LOADED ||| 2 ^ (v % 16 - 1)) ∧
         ∀ i, i < 4 → t.rd Reg.KEY_KEK_DATA.DATA i = 0) ∧
       (s.locked 21 = true → exec (.kekLoad v) s = .next s)) ∧
  (∀ (s : State) c block domain dst, s.accepts c .jobs = true →
       (∀ p, CompParams.parse (fit 32 block) domain dst = some p → p.good = true →
         (¬(p.op = .compress ∧ p.format = .lz4) → Answers (.compJob c { block := block, domain := domain, dst := dst }) s fun t =>
           t.bnd.jobs.map Job.cmd = s.bnd.jobs.map Job.cmd ++ [c] ∧
           t.bnd.jobs.getLast?.map (fun j => (j.cmd, j.lane, j.comp)) = some (c, s.pickLane [], some p)) ∧
         (p.op = .compress → p.format = .lz4 → Answers (.compJob c { block := block, domain := domain, dst := dst }) s fun t =>
           Sends s t (.jobResult c { status := 0x310A }) ∧ Completes s t c 0x310A 0 0)) ∧
       ((CompParams.parse (fit 32 block) domain dst).all CompParams.good = false ∨ CompParams.parse (fit 32 block) domain dst = none →
         Answers (.compJob c { block := block, domain := domain, dst := dst }) s fun t => Sends s t (.jobResult c { status := 0x1001 }) ∧
           Completes s t c 0x1001 0 0)) ∧
  (∀ (s : State) c block dst, s.accepts c .jobs = true →
       (CipherParams.parse (fit 64 block) dst = none →
         Answers (.cipherJob c { block := block, dst := dst }) s fun t => Completes s t c 0x3202 0 0) ∧
       (∀ p, CipherParams.parse (fit 64 block) dst = some p → p.fields ≠ 0 →
         Answers (.cipherJob c { block := block, dst := dst }) s fun t => Completes s t c p.fields 0 0) ∧
       (∀ p g, CipherParams.parse (fit 64 block) dst = some p → p.fields = 0 → p.length = 0 → s.keyGen p.slot p.gen = some g →
         g.type.fits p.mode = true → (s.sliceOf c).mayName (s.cipherSlot p.slot).tenant = true → s.envelopeSlot p.slot = false →
         Answers (.cipherJob c { block := block, dst := dst }) s fun t => t.bnd.jobs.map Job.cmd = s.bnd.jobs.map Job.cmd ++ [c] ∧
           t.bnd.jobs.getLast?.map (fun j => (j.cmd, j.lane, j.cipher)) = some (c, s.pickLane [], some p))) ∧
  (∀ (s : State) c j p b fault upset, (s.bnd.jobs.find? fun j => j.cmd.slice == c.slice && j.cmd.ring == c.ring && j.cmd.cid == c.cid) = some j →
       j.comp = some p → p.op = .crc → j.cipher = none → j.stop = false → j.squashed = false → s.servesNext j = true → b.length = j.sliceLen →
       j.input.length + b.length = p.inLen → s.host.d3hot = false → Answers (.jobSliceEnd c b fault upset) s fun t =>
         Sends s t (.jobResult j.cmd { status := 0, crc := crc32cFrom p.seed (j.input ++ b) }) ∧
         t.bnd.jobs.map Job.cmd = (s.bnd.jobs.filter fun x => x.cmd != j.cmd).map Job.cmd)

/-- Commands of the mirror complete with their effect. Derived from R161, R162, R164, R165, R166, R167, R168, R170, R171. At a head that is
not lost and has no warning of its own, MIRROR_WRITE_RECORD that R167 applies waits for QD's acknowledgement; a record of an older epoch is
acknowledged with result 2, one that R167 rejects with 3; one that fails a CRC is counted. MIRROR_METADATA_RECORD that R167 applies waits
for QD's acknowledgement; a duplicate of an older generation is acknowledged with result 1, as is one of the same generation, which waits
for QD where the first copy still does. MIRROR_RELEASE_RECORD that R167 applies empties its mirror segment, and waits for QD's
acknowledgement. MIRROR_APPLY_DDR_ACK gives the ring the record's acknowledgement with result 0 and the applied mark, and those of
duplicates that came meanwhile with result 1. MIRROR_ACK with result 0 or 1 for a record not yet acknowledged takes it off what the
resynchronisation waits for; with result 2 no further record is sent. MIRROR_ACK_TIMEOUT of a record on the wire sends it again, with
RETRANSMIT, on every peer port that is up, keeps a copy for every one that is training, and counts it. SOLO_DDR_ACK of a write whose records
are queued, in mode Off, Solo or Destage, is its commit point, where the map can take its delta. SEGMENT_AGE_EXPIRY of a Full segment, with
own dirty data below START %, starts its destage. LANE_STALL_RESUME of a stalled lane, once a segment is Free, ends the stall where no write
is left that stalled there. -/
def Obligations.MirrorRecords : Prop :=
  (∀ (s : State) r d cs, r.body = .write d cs → s.wc.stopped = false → s.power.headLost = false →
       (s.judge r = .apply → Answers (.mirrorWriteRecord r .pass) s fun t => r ∈ t.wc.ackWait) ∧
       (s.judge r = .stale → Answers (.mirrorWriteRecord r .pass) s fun t => Rings s t (.mirrorAck (s.ackOf r 2))) ∧
       (s.judge r = .rejected → Answers (.mirrorWriteRecord r .pass) s fun t => Rings s t (.mirrorAck (s.ackOf r 3))) ∧
       (Answers (.mirrorWriteRecord r .fail) s fun t =>
         t.rd Reg.DDR_MIR_FAULT.CRC = Reg.DDR_MIR_FAULT.CRC.fit (satAdd Reg.DDR_MIR_FAULT.CRC.width (s.rd Reg.DDR_MIR_FAULT.CRC) 1))) ∧
  (∀ (s : State) r op, r.body = .metadata op → s.wc.stopped = false → s.power.headLost = false →
       (s.judge r = .apply → Answers (.mirrorMetadataRecord r .pass) s fun t => r ∈ t.wc.ackWait) ∧
       (s.judge r = .olderGen → Answers (.mirrorMetadataRecord r .pass) s fun t => Rings s t (.mirrorAck (s.ackOf r 1))) ∧
       (s.judge r = .sameGen → Answers (.mirrorMetadataRecord r .pass) s fun t =>
         if s.wc.ackWait.any fun x => x.seq == r.seq && x.epoch == r.epoch then t.wc.ackWait = s.wc.ackWait ++ [r] else Rings s t (.mirrorAck (s.ackOf r 1)))) ∧
  (∀ (s : State) r, r.body = .release → s.wc.stopped = false → s.power.headLost = false → s.judge r = .apply →
    Answers (.mirrorReleaseRecord r .pass) s fun t =>
       (t.mirSeg r.seg).held = false ∧ (t.mirSeg r.seg).recs = [] ∧ (t.mirSeg r.seg).gen = (s.mirSeg r.seg).gen ∧ r ∈ t.wc.ackWait) ∧
  (∀ (s : State) q r, s.wc.stopped = false → (s.wc.ackWait.find? fun r => r.seq == q) = some r → Answers (.mirrorApplyDdrAck q) s fun t =>
       Rings s t (.mirrorAck (s.ackOf r 0)) ∧
       (∀ x ∈ (s.wc.ackWait.filter fun x => x.seq == q && x.epoch == r.epoch).drop 1, Rings s t (.mirrorAck (s.ackOf x 1))) ∧
       t.wc.ackWait = s.wc.ackWait.filter fun x => !(x.seq == q && x.epoch == r.epoch)) ∧
  (∀ (s : State) a x, Table.find a.seq s.wc.sent = some x → x.acked = false → a.seg = x.rcd.seg → a.epoch = x.rcd.epoch → a.gen = x.rcd.gen →
       (a.result ≤ 1 → Answers (.mirrorAck a) s fun t => t.wc.resyncLeft = s.wc.resyncLeft.filter fun k => k != a.seq) ∧
       (a.result = 2 → Answers (.mirrorAck a) s fun t => t.wc.halted = true)) ∧
  (∀ (s : State) q x, Table.find q s.wc.sent = some x → x.acked = false → x.onWire = true → s.wc.mode.mirrors = true → s.wc.halted = false →
       Answers (.mirrorAckTimeout q) s fun t => (∀ p ∈ s.peerPorts true,
         if p ∈ s.peerPorts false then Rings s t (.mirror (some p) { x.rcd with retransmit := true })
         else (p, { x.rcd with retransmit := true }) ∈ t.wc.copies) ∧
         t.rd Reg.DDR_MIR_RETX.COUNT = Reg.DDR_MIR_RETX.COUNT.fit (satAdd Reg.DDR_MIR_RETX.COUNT.width (s.rd Reg.DDR_MIR_RETX.COUNT) 1)) ∧
  (∀ (s : State) n c w, s.tag n = some c → c.write = some w → w.queued = true → w.committed = false → w.unacked = [] → c.change = none →
       s.canUpdate n c w = true → s.wc.mode = .off ∨ s.wc.mode = .solo ∨ s.wc.mode = .destage → Answers (.soloDdrAck n) s fun t =>
         ((t.tag n).bind Cmd.write).map WriteJob.committed = some true) ∧
  (∀ (s : State) n, (s.ownSeg n).state = .full →
       s.rd Reg.DDR_WC_DIRTY.OWN * 100 < s.rd Reg.DDR_WC_CFG.START * s.rd Reg.DDR_WC_CFG.LIMIT_SEGS →
       Answers (.segmentAgeExpiry n) s fun t => (t.ownSeg n).state ≠ .full) ∧
  (∀ (s : State) l, s.wc.stalled.contains l = true → s.freeSeg.isSome = true →
    (s.cmd.tags.any fun e => e.2.write.any fun w => w.stalled == some l && !w.queued) = false →
       exec (.laneStallResume l) s = .next { s with wc.stalled := s.wc.stalled.filter fun x => x != l })

/-- Commands of a power-fail warning complete with their effect. Derived from R174, R175, R176, R493. VIN_LOW_WARNING, no warning being
latched, tells both neighbours and opens the destage manifest, in both its copies; after a warning it changes nothing. PWRFAIL_N_LOW lowers
the pin, and is a warning while PIN_EN is 1 and the firmware runs. DESTAGE_NOW is a warning while the firmware runs. FRONT_LINKS_DOWN during
the destage drops every front link. DESTAGE_SEALED, everything covered being destaged and no reset latched, seals the manifest, sets SEALED,
and leaves every quarter but Old Town Off or fenced. -/
def Obligations.PowerFailCommands : Prop :=
  (∀ (s : State), (s.warned = false → Answers .vinLowWarning s fun t => Rings s t (.ring 0x22 [0] []) ∧ Rings s t (.ring 0x22 [2] []) ∧
         ∃ m, t.wc.destage = some m ∧ t.store.manifest = some m ∧ t.store.manifest2 = some m ∧ m.sealed = false) ∧
       (s.warned = true → exec .vinLowWarning s = .next s)) ∧
  (∀ (s : State), (s.on Reg.DDR_PF_CFG.PIN_EN = true → s.running = true → s.warned = false → Answers .pwrfailNLow s fun t =>
         Rings s t (.ring 0x22 [0] []) ∧ ∃ m, t.wc.destage = some m ∧ t.store.manifest = some m ∧ t.store.manifest2 = some m ∧
           m.sealed = false) ∧
       (s.on Reg.DDR_PF_CFG.PIN_EN = false → exec .pwrfailNLow s = .next { s with pins.pwrfailN := false })) ∧
  (∀ (s : State), s.running = true → s.warned = false → Answers .destageNow s fun t =>
       Rings s t (.ring 0x22 [0] []) ∧ ∃ m, t.wc.destage = some m ∧ t.store.manifest = some m ∧ t.store.manifest2 = some m ∧ m.sealed = false) ∧
  (∀ (s : State), s.warned = true → s.wc.mode = .destage → Answers .frontLinksDown s fun t => ∀ n, n < 4 →
    t.rd Reg.ETH_LINK_STATUS.LINK_UP n = 0) ∧
  (∀ (s : State) m, s.wc.destage = some m → s.warned = true → s.on Reg.DDR_PF_STATUS.SEALED = false → s.destaged = true →
    s.pins.resetLatched = false →
       Answers .destageSealed s fun t => t.on Reg.DDR_PF_STATUS.SEALED = true ∧ t.store.manifest.any Manifest.sealed = true ∧
         ∀ e ∈ t.power.quarters, e.1 = 0 ∨ e.2.state = .off ∨ e.2.state = .fenced)

/-- Commands that sew, log and end signatures complete with their effect. Derived from R191, R192, R193, R194, R195, R197, R202.
SEW_SIGNATURE with containers waiting, none of them unreadable or asked for at the peer, and an open quire of this head with room puts a
signature of that quire's next folio in flight. LOG_PAGE_SEND of an open page with entries sends it under the next page number.
LOG_APPEND_ACK of a copy that has not acknowledged the page before notes it, and with copies enough the page is durable. LOG_COPY_TIMEOUT of
a current copy makes it one that is not. LOG_RESEED_DONE of a copy being caught up makes it current. FOLIO_WRITE_COMPLETE notes the member;
with the last member of a signature it is complete and no longer in flight. FOLIO_WRITE_FAIL of a signature in flight makes the signature
void and counts it. GRANT_REQUEST for a leaf with a block of this head that holds no unit in use gives that block away, by a GRANT to the
leaf; one that says which block the peer has given makes it this head's. QUIRE_DRAINED of a Draining quire that nothing holds starts its
erase, or frees it where every slot was erased before. QUIRE_ERASE_COMPLETE notes the erased unit, and with the last one the quire is Free.
-/
def Obligations.SewingAndLog : Prop :=
  (∀ (s : State) pool c r n q, s.maySew pool = true → s.destageNow = false → s.waitingFor pool = c :: r → c.2.2.length ≤ q.data * folioPayload →
       (∀ x ∈ s.waitingFor pool, s.cacheLost x.2.1 = false) → s.wc.asks = [] → s.wc.fetched = [] →
       ((s.quiresOf pool).find? fun e => e.2.state == .opened && e.2.head == s.headB && decide (e.2.next < s.quireDepth pool)) = some (n, q) →
       s.quire n = some q → Answers (.sewSignature pool []) s fun t =>
         ∃ x : Sig, t.sig.flight = s.sig.flight ++ [x] ∧ x.pool = pool ∧ x.quire = n ∧ x.index = q.next) ∧
  (∀ (s : State), s.sig.page ≠ [] → Answers .logPageSend s fun t => t.sig.page = [] ∧ t.sig.pageNo = s.sig.pageNo + 1 ∧
       t.sig.sent = s.sig.sent ++ [{ number := s.sig.pageNo, entries := s.sig.page }]) ∧
  (∀ (s : State) id op copy page p, Table.find id s.lfl.ops = some op → op.for_ = .log copy page →
    (s.sig.sent.find? fun p => p.number == page) = some p →
       (∀ x ∈ s.sig.sent, x.number = page → x = p) → page < s.sig.pageNo → p.durable = false →
       p.acks.contains copy = false → Answers (.logAppendAck id) s fun t =>
         if s.pageNeed ≤ p.acks.length + 1 then ∀ x ∈ t.sig.sent, x.number = page → x.durable = true
         else { p with acks := copy :: p.acks } ∈ t.sig.sent) ∧
  (∀ (s : State) k c, s.sig.copies[k]? = some c → c.valid = true →
    Answers (.logCopyTimeout k) s fun t => (t.sig.copies[k]?).map LogCopy.valid = some false) ∧
  (∀ (s : State) k c, s.sig.copies[k]? = some c → c.reseeding = true →
    Answers (.logReseedDone k) s fun t => (t.sig.copies[k]?).map LogCopy.valid = some true) ∧
  (∀ (s : State) id op n g m x, Table.find id s.lfl.ops = some op → op.for_ = .folio n g m →
    (s.sig.flight.find? fun x => x.quire == n && x.index == g) = some x →
       x.acked.contains m = false → Answers (.folioWriteComplete id) s fun t =>
         t.sig.flight = if x.folios.length ≤ x.acked.length + 1 then s.sig.flight.filter fun y => !(y.quire == x.quire && y.index == x.index)
           else s.sig.flight.map fun y => if y.quire = n ∧ y.index = g then { y with acked := m :: x.acked } else y) ∧
  (∀ (s : State) id nand op n g m q x, Table.find id s.lfl.ops = some op → op.for_ = .folio n g m →
    (s.sig.flight.find? fun x => x.quire == n && x.index == g) = some x →
       s.quire n = some q → Answers (.folioWriteFail id nand) s fun t =>
         (t.sig.flight = s.sig.flight.filter fun y => !(y.quire == x.quire && y.index == x.index)) ∧
         t.rd Reg.SIG_VOIDED.COUNT = Reg.SIG_VOIDED.COUNT.fit (satAdd Reg.SIG_VOIDED.COUNT.width (s.rd Reg.SIG_VOIDED.COUNT) 1)) ∧
  (∀ (s : State) l b, ((s.leaf l).myBlocks.find? fun b => !((s.leaf l).used.any fun u => u / 256 == b)) = some b →
       Answers (.grantRequest { leaf := l }) s fun t => Table.find b (t.leaf l).blocks = some false ∧ AtLeaf t l (.grant 1 b)) ∧
  (∀ (s : State) l b, Answers (.grantRequest { leaf := l, given := some b }) s fun t => Table.find b (t.leaf l).blocks = some true) ∧
  (∀ (s : State) n q, s.quire n = some q → q.state = .draining → s.quireHeld n = false → Answers (.quireDrained n) s fun t =>
       (t.quire n).map Quire.state = some .erasing ∨ t.quire n = none ∧ ∀ x ∈ q.slots, 512 ≤ x.1 ∨ (s.leaf x.1).cond = .failed ∨ q.erased ≠ []) ∧
  (∀ (s : State) id op n k q, Table.find id s.lfl.ops = some op → op.for_ = .erase n k → s.quire n = some q → q.state = .erasing →
    q.erased.contains k = false →
       Answers (.quireEraseComplete id) s fun t =>
         if q.slots.length ≤ q.erased.length + 1 then t.quire n = none else (t.quire n).map Quire.erased = some (k :: q.erased))

/-- Commands on pools, their leaves, collection, rebuild and patrol complete with their effect. Derived from R184, R186, R200, R203, R204,
R205, R208, R209, R213, R214, R217. GC_COLLECT of a pool whose QS role works takes the first Closed quire queued on a finding; with no live
container in it, it is then Collecting or already Draining. REBUILD_QUIRE with nothing queued and no quire with a unit on a failed leaf ends
the rebuild. LEAF_ABSENT of a present member, of a pool of at most eight leaves, leaves it Absent with an empty bitmap. LEAF_ABSENT_TIMEOUT
fails an Absent leaf. LEAF_RETURN of an Absent leaf with its own serial leaves it Present with an empty bitmap, or Draining where it is in
drain. LEAF_DRAIN of a leaf in no pool ends with 0x5003, and of one whose pool keeps enough starts, with BUSY set. LEAF_FAIL of a member
fails it at once, with status 0; of another leaf it ends with 0x5003. LEAF_READMIT of a failed member that this head reaches has it erased
in full and leaves it Present with no unit in use; of another it ends with 0x5003. DRAIN_COMPLETE of a leaf in drain with no quire takes it
out of its pool, and ends the operation. ACCEPT_LOSS of a pool in state Lost sets LOSS, and its failed leaves count no more as a new loss.
PATROL_SIGNATURE of a signature of a Closed quire of an enabled pool, with no member absent, that this head does not read already, has it
read: it is judged once its codewords have come. POOL_ENABLE of a pool that is off and holds no quire writes its shape, a width outside 4 to
32 and a parity of 0 apart; with EN it is then on, or CFG_ERR is set, as where the parity leaves fewer than two data members; a write of EN
0 turns a pool off. POOL_MEMBER_ADD of a leaf that is in no pool adds it to a pool that has none. POOL_TABLE sets PEER_DIFF of each pool
that either head has on where the configurations differ, and clears it where they agree. -/
def Obligations.PoolsAndLeaves : Prop :=
  (∀ (s : State) pool n q, s.qsReady pool = true →
    firstOpened ((s.readyQuires pool).filter fun e => e.2.queued == some .finding) = some (n, q) → s.quire n = some q →
       q.held.filter s.liveLoc = [] →
       Answers (.gcCollect pool) s fun t => (t.quire n).map Quire.state = some .collecting ∨ (t.quire n).map Quire.state = some .draining) ∧
  (∀ (s : State), s.sig.rebuilding = true → (s.sig.quires.filter fun e => e.2.queued == some .rebuild && s.minesQuire e.2) = [] →
       (s.sig.quires.any fun e => decide (0 < s.missingOf e.2 true) && s.minesQuire e.2) = false →
       Answers .rebuildQuire s fun t => t.sig.rebuilding = false ∧ t.rd Reg.SIG_REBUILD_STAT.ACTIVE = 0) ∧
  (∀ (s : State) l p, (s.leaf l).cond = .present → s.poolOf l = some p → (s.members p).length ≤ 8 → Answers (.leafAbsent l) s fun t =>
       (t.leaf l).cond = .absent ∧ (t.leaf l).bitmap = []) ∧
  (∀ (s : State) l, (s.leaf l).cond = .absent → Answers (.leafAbsentTimeout l) s fun t => (t.leaf l).cond = .failed) ∧
  (∀ (s : State) l, (s.leaf l).cond = .absent → (∀ a i, (s.leaf l).joined = some a → (s.leaf l).id = some i → a = i.serial) →
       Answers (.leafReturn l) s fun t => (t.leaf l).cond = (s.leaf l).home ∧ (t.leaf l).bitmap = []) ∧
  (∀ (s : State) l, s.writable 14 = true → s.on Reg.SIG_LEAF_RESULT.BUSY = false →
       (s.poolOf l = none → Answers (.leafDrain l) s fun t => t.rd Reg.SIG_LEAF_RESULT.STATUS = 0x5003) ∧
       (∀ p, s.poolOf l = some p → (s.poolEff p).width ≤ (s.members p).length - 1 →
         s.poolReserve p ≤ (s.poolUnits p).2 - (if (s.leaf l).cond = .present ∨ (s.leaf l).cond = .oneSided then (s.leaf l).spare else 0) →
         Answers (.leafDrain l) s fun t => t.on Reg.SIG_LEAF_RESULT.BUSY = true ∧ t.rd Reg.SIG_LEAF_RESULT.STATUS = 0 ∧
           t.sig.cmdLeaf = some l)) ∧
  (∀ (s : State) l, s.writable 14 = true → s.on Reg.SIG_LEAF_RESULT.BUSY = false →
       (s.poolOf l = none → Answers (.leafFail l) s fun t => t.rd Reg.SIG_LEAF_RESULT.STATUS = 0x5003) ∧
       ((s.poolOf l).isSome = true → Answers (.leafFail l) s fun t => (t.leaf l).cond = .failed ∧ t.rd Reg.SIG_LEAF_RESULT.STATUS = 0)) ∧
  (∀ (s : State) l, s.writable 14 = true → s.on Reg.SIG_LEAF_RESULT.BUSY = false →
       ((s.leaf l).cond ≠ .failed → Answers (.leafReadmit l) s fun t => t.rd Reg.SIG_LEAF_RESULT.STATUS = 0x5003) ∧
       ((s.poolOf l).isSome = true → (s.leaf l).cond = .failed → s.on Reg.LFL_LEAF.REACH_SELF l = true → Answers (.leafReadmit l) s fun t =>
         (t.leaf l).cond = .present ∧ (t.leaf l).used = [] ∧ (t.leaf l).blocks = [] ∧ t.rd Reg.SIG_LEAF_RESULT.STATUS = 0 ∧ AtLeaf t l .wipe)) ∧
  (∀ (s : State) l p, s.poolOf l = some p → (s.leaf l).drain = true → s.quiresOn l = [] → Answers (.drainComplete l) s fun t =>
       (t.leaf l).cond = .present ∧ (t.leaf l).joined = none ∧ (s.sig.cmdLeaf = some l → t.on Reg.SIG_LEAF_RESULT.BUSY = false) ∧
       (t.rd Reg.SIG_POOL_MEMBERS.LEAVES p (l / 32)).testBit (l % 32) = false) ∧
  (∀ (s : State) p, s.writable 14 = true → s.rd Reg.SIG_POOL_STATE.STATE p = 5 → Answers (.acceptLoss p) s fun t =>
       t.on Reg.SIG_POOL_STATE.LOSS p = true ∧ Table.find p t.sig.accepted = some ((s.members p).filter fun l => (s.leaf l).cond == .failed)) ∧
  (∀ (s : State) n g q, s.quire n = some q → s.on Reg.SIG_CTRL.PATROL_EN = true → q.state = .closed →
    (q.slots.any fun x => (s.leaf x.1).cond == .absent) = false →
       s.qsReady q.pool = true → (s.poolEff q.pool).en = true → g < q.next → (∀ p ∈ s.sig.patrols, p.quire = n → p.sig ≠ g) → 0 < q.width →
       (∀ m, m < q.width → s.reach (q.place g m).1 (q.place g m).2 = .direct) → ∀ fault, Answers (.patrolSignature n g fault) s fun t =>
         ({ quire := n, sig := g, fault := fault } : Patrol) ∈ t.sig.patrols) ∧
  (∀ (s : State) p v, s.writable 14 = true → (v % 2 = 0 → Answers (.poolEnable p v) s fun t => t.on Reg.SIG_POOL_CFG.EN p = false) ∧
       (s.on Reg.SIG_POOL_CFG.EN p = false → s.quiresOf p = [] → Answers (.poolEnable p v) s fun t =>
         t.rd Reg.SIG_POOL_CFG.WIDTH p = (if 4 ≤ v / 2 % 64 ∧ v / 2 % 64 ≤ 32 then v / 2 % 64 else s.rd Reg.SIG_POOL_CFG.WIDTH p) ∧
         t.rd Reg.SIG_POOL_CFG.PARITY p = (if v / 128 % 4 = 0 then s.rd Reg.SIG_POOL_CFG.PARITY p else v / 128 % 4) ∧
         (v % 2 = 1 → t.on Reg.SIG_POOL_CFG.EN p = true ∨ t.on Reg.SIG_POOL_STATE.CFG_ERR p = true) ∧
         (v % 2 = 1 → t.rd Reg.SIG_POOL_CFG.WIDTH p < t.rd Reg.SIG_POOL_CFG.PARITY p + 2 → t.on Reg.SIG_POOL_CFG.EN p = false ∧
           t.on Reg.SIG_POOL_STATE.CFG_ERR p = true))) ∧
  (∀ (s : State) p w k, s.writable 14 = true → k < 32 → s.poolOf (32 * w + k) = none → s.members p = [] →
    Answers (.poolMemberAdd p w (2 ^ k)) s fun t =>
       (t.rd Reg.SIG_POOL_MEMBERS.LEAVES p w).testBit k = true) ∧
  (∀ (s : State) pools, Answers (.poolTable pools) s fun t => ∀ p, p < 64 → s.on Reg.SIG_POOL_CFG.EN p = true ∨ Table.has p pools = true →
       t.rd Reg.SIG_POOL_STATE.PEER_DIFF p =
         if Table.get p { en := false, width := 0, parity := 0, express := false, isMeta := false, members := [] } pools = s.poolCfg p then 0 else 1)

/-- Commands of the leaf lanes and leaf commands complete with their effect. Derived from R196, R225, R226, R227, R228, R229, R230, R231,
R241, R244, R246, R369. LEAF_HOP_ACTIVE of a hop that trains makes it Active, and an enumeration of the chain is asked for; with Lock the
sequences start at 0. LEAF_HOP_DOWN of hop 0, not Down before, leaves its lane with no leaf. LEAF_HOP_DETECT of a Down hop that may train
moves it to Detect and sends the pattern. LEAF_REPLAY_REQUEST on an Active hop replays hop 0 from the codeword named, and at the fifth
request for the same one retrains the hop; of a bad codeword on hop 0 it asks the far end for a replay, and it counts corrected codewords.
LEAF_ENUMERATION_ANSWER while hop 0 is Active, with nothing known beyond the chain, shows the leaves found, 16 at most, and OVERLONG above
that. LEAF_IDENTIFY_COMPLETION shows the leaf as reached by this head. LEAF_SERIAL_EXCHANGE makes REACH_PEER of every leaf that either head
knows say whether the peer listed it. LEAF_ERROR_COMPLETION of a block claimed leaves the block to the other head. LEAF_HEALTH_COMPLETION
keeps the erase count of a die in the range asked for. PLANNER_MEASUREMENTS on the head that plans adds the other head's measures of a die
to its own. PLAN_INTERVAL on the head that does not plan sends its measures to the one that does. WITNESS_READ_COMPLETION in a round that
still waits for another leaf adds the record, none where its CRC fails, to those read. WITNESS_CAS_COMPLETION outside a contest makes WON of
each entry of the leaf say whether the leaf installed the record. LOG_READ_COMPLETION of a leaf whose last pages these are takes it off the
leaves still being read, where another is left and no QS standby reads this head's log. -/
def Obligations.LeafLanes : Prop :=
  (∀ (s : State) l p, s.mayTrain l p = true →
       ((s.hop l p).state = .detect ∨ (s.hop l p).state = .equalize ∨ (s.hop l p).state = .lock ∨ (s.hop l p).state = .retrain →
         Answers (.leafHopActive l { pos := p }) s fun t => (t.hop l p).state = .active ∧ ((t.hop l 0).state = .active →
           AtLeaf t (16 * l) .enumerate)) ∧
       ((s.hop l p).state = .detect ∨ (s.hop l p).state = .equalize → Answers (.leafHopActive l { pos := p, state := .lock }) s fun t =>
         (t.hop l p).state = .lock ∧ (t.hop l p).seq = 0)) ∧
  (∀ (s : State) l, l < 32 → (s.hop l 0).state ≠ .down → Answers (.leafHopDown l 0) s fun t => t.rd Reg.LFL_LANE_STATUS.LEAVES l = 0) ∧
  (∀ (s : State) l p, s.mayTrain l p = true → (s.hop l p).state = .down → Answers (.leafHopDetect l p) s fun t =>
       (t.hop l p).state = .detect ∧ Sends s t (.hop l p .detect)) ∧
  (∀ (s : State) l p q, hopNamed l p = true → (s.hop l p).state = .active →
       ((s.hop l p).seq ≠ q % 1024 ∨ (s.hop l p).replays < 4 → Answers (.leafReplayRequest l p (.replay q)) s fun t =>
         (p = 0 → Sends s t (.hop l 0 (.replay (q % 1024)))) ∧ (t.hop l p).seq = q % 1024) ∧
       ((s.hop l p).seq = q % 1024 → 4 ≤ (s.hop l p).replays →
         Answers (.leafReplayRequest l p (.replay q)) s fun t => (t.hop l p).state = .retrain)) ∧
  (∀ (s : State) l q, hopNamed l 0 = true → (s.hop l 0).state = .active →
       Answers (.leafReplayRequest l 0 (.bad q)) s (fun t => Sends s t (.hop l 0 (.request (q % 1024)))) ∧
       Answers (.leafReplayRequest l 0 (.corrected q)) s fun t => t.rd Reg.LFL_LANE_FEC.CORRECTED l =
         Reg.LFL_LANE_FEC.CORRECTED.fit (satAdd Reg.LFL_LANE_FEC.CORRECTED.width (s.rd Reg.LFL_LANE_FEC.CORRECTED l) q)) ∧
  (∀ (s : State) l a, l < 32 → (s.hop l 0).state = .active →
       (∀ k, 16 * l + (a + 1) ≤ k → k < 16 * l + 16 → s.on Reg.LFL_LEAF.REACH_SELF k = false ∧ ∀ e ∈ s.lfl.ops, e.2.leaf ≠ k) →
       Answers (.leafEnumerationAnswer l a) s fun t => t.rd Reg.LFL_LANE_STATUS.LEAVES l = min (a + 1) 16 ∧
         t.rd Reg.LFL_LANE_STATUS.OVERLONG l = if 16 ≤ a then 1 else 0) ∧
  (∀ (s : State) id i op, Table.find id s.lfl.ops = some op → op.for_ = .identify → Answers (.leafIdentifyCompletion id i) s fun t =>
       t.on Reg.LFL_LEAF.REACH_SELF op.leaf = true) ∧
  (∀ (s : State) serials, Answers (.leafSerialExchange serials) s fun t => ∀ l, l < 512 → Table.has l s.lfl.leaves = true ∨
    Table.has l serials = true →
       t.on Reg.LFL_LEAF.REACH_PEER l = Table.has l serials) ∧
  (∀ (s : State) id st op b, Table.find id s.lfl.ops = some op → op.for_ = .grant 0 b → Answers (.leafErrorCompletion id st) s fun t =>
       Table.find b (t.leaf op.leaf).blocks = some false) ∧
  (∀ (s : State) id op a n d, Table.find id s.lfl.ops = some op → op.for_ = .health a n → a ≤ d.die → d.die < a + n → d.failed = false →
       Answers (.leafHealthCompletion id [d]) s fun t => (Table.get d.die {} (t.leaf op.leaf).dies).erases = d.erases) ∧
  (∀ (s : State) l d m, s.plans = true → (s.leaf l).id.isSome = true → Answers (.plannerMeasurements [(l, d, m)]) s fun t =>
       Table.get d {} (t.leaf l).dies = (Table.get d {} (s.leaf l).dies).join m) ∧
  (∀ (s : State), s.on Reg.LFL_CTRL.PLAN_EN = true → s.plans = false → Answers .planInterval s fun t => ∃ r, Rings s t (.ring 0x51 r [])) ∧
  (∀ (s : State) id w op c, Table.find id s.lfl.ops = some op → op.for_ = .witnessRead → s.own.contest = some c → c.term = 0 → c.opened = false →
       c.asked.contains op.leaf = true → (c.read.any fun e => e.1 == op.leaf) = false →
       (∃ l ∈ c.asked, l ≠ op.leaf ∧ ∀ e ∈ c.read, e.1 ≠ l) → Answers (.witnessReadCompletion id w) s fun t =>
         t.own.contest = some { c with read := c.read ++ [(op.leaf, (some w).filter Witness.crcOk)] }) ∧
  (∀ (s : State) id w op, Table.find id s.lfl.ops = some op → op.for_ = .witnessCas → s.own.contest = none → s.own.fencing = none →
       Answers (.witnessCasCompletion id w) s fun t => ∀ i, i < 15 → s.on Reg.OWN_WITNESS_LEAF.VALID i = true →
         s.rd Reg.OWN_WITNESS_LEAF.LEAF i = op.leaf →
         t.on Reg.OWN_WITNESS_LEAF.WON i = (w.status == 0)) ∧
  (∀ (s : State) id pages torn op k a, Table.find id s.lfl.ops = some op → op.for_ = .logRead k a → 16 ≤ k → pages.length < 16 →
       s.sig.scans.contains op.leaf = true → s.sig.scans.erase op.leaf ≠ [] → s.sig.retake = none →
         Answers (.logReadCompletion id pages torn) s fun t =>
         t.sig.scans = s.sig.scans.erase op.leaf)

/-- Commands of heartbeats, suspicion, contests and epochs complete with their effect. Derived from R20, R169, R365, R366, R367, R369, R370,
R375, R377. POWER_FAIL_NOTICE starts the hold-off, outside this head's own destage. PF_HOLDOFF_EXPIRY starts a contest, unless this head has
raised its own warning. HEARTBEAT_SEND sends a heartbeat with the next sequence on each Active peer link, and none from a lost head.
HEARTBEAT of the peer is noted with its time, and ends the wait for a peer at start. PEER_SUSPECT after heartbeats have come makes the peer
Suspect and starts a contest. STUCK_SUSPECT_EXPIRY of a mirror in Suspect with no suspicion of heartbeats starts a contest.
START_HEARTBEAT_TIMEOUT with no heartbeat since the start starts the contest of a start. CONTEST_RETRY of an open round starts the next,
over the witness set. FORCE starts a contest. EPOCH_PROPOSAL of a higher epoch is accepted: this head is paired, and no proposal of its own
is left. EPOCH_ACCEPT of the epoch that this head proposed starts it: this head is paired, and the scrub pass starts again. REJOIN_REQUEST
at a winner waits while it holds adopted segments; without them it proposes an epoch. HEALTH_REPORT_SEND shows whether this head is READY in
OWN_HEALTH, and sends the report. HEALTH_REPORT shows whether the peer is READY, and whether it is on trial. -/
def Obligations.HeartbeatsAndContests : Prop :=
  (∀ (s : State), s.on Reg.OWN_CTRL.EN = true → s.wc.mode ≠ .destage → s.own.loser = false →
    exec .powerFailNotice s = .next { s with own.holdoff := true }) ∧
  (∀ (s : State), s.own.holdoff = true → (s.warned = false → s.mayContest = true → Answers .pfHoldoffExpiry s fun t =>
         t.own.holdoff = false ∧ t.own.contest.isSome = true ∧ t.on Reg.OWN_STATE.CONTESTING = true) ∧
       (s.warned = true → exec .pfHoldoffExpiry s = .next { s with own.holdoff := false })) ∧
  (∀ (s : State), s.on Reg.OWN_CTRL.EN = true → s.power.headLost = false → s.own.rejoin = false → Answers .heartbeatSend s fun t =>
       t.own.beatSeq = (s.own.beatSeq + 1) % 2 ^ 32 ∧ ∀ l ∈ s.peerPorts false, ∃ b, Rings s t (.ring 0x01 (l :: b) [])) ∧
  (∀ (s : State), s.power.headLost = true → exec .heartbeatSend s = .next s) ∧
  (∀ (s : State) b, s.on Reg.OWN_CTRL.EN = true → b.head ≠ s.headB → Answers (.heartbeat b) s fun t =>
       t.own.lastBeat = some s.ringTime ∧ t.own.starting = false) ∧
  (∀ (s : State), s.mayContest = true → s.own.lastBeat.isSome = true → s.own.suspect = none → s.rd Reg.OWN_STATE.PEER ≤ 1 →
    Answers .peerSuspect s fun t =>
       t.own.suspect = some s.clock ∧ t.rd Reg.OWN_STATE.PEER = 2 ∧ t.own.contest.isSome = true) ∧
  (∀ (s : State), s.mayContest = true → s.wc.mode = .suspect → s.own.suspect = none →
    Answers .stuckSuspectExpiry s fun t => t.own.contest.isSome = true) ∧
  (∀ (s : State), s.mayContest = true → s.own.starting = true → s.own.lastBeat = none → Answers .startHeartbeatTimeout s fun t =>
       t.own.contest.any Contest.atStart = true) ∧
  (∀ (s : State) c, s.own.contest = some c → c.opened = true →
    Answers .contestRetry s fun t => t.own.contest.any (fun x => x.asked == s.witnessSet) = true) ∧
  (∀ (s : State), s.writable 17 = true → s.mayContest = true → Answers .force s fun t => t.own.contest.isSome = true) ∧
  (∀ (s : State) p, s.on Reg.OWN_CTRL.EN = true → s.rd Reg.DDR_MIR_EPOCH.EPOCH < p.epoch → s.wc.mode ≠ .destage →
    Answers (.epochProposal p) s fun t =>
       Rings s t (.ring 0x03 [p.epoch] []) ∧ t.own.paired = true ∧ t.own.proposed = none ∧ t.on Reg.OWN_STATE.WITNESS_HELD = false) ∧
  (∀ (s : State) n, s.own.proposed = some n → s.wc.mode ≠ .destage → Answers (.epochAccept n) s fun t =>
       t.own.paired = true ∧ t.own.proposed = none ∧ t.own.passDone = false ∧ t.own.scrubAt = 0) ∧
  (∀ (s : State), s.rd Reg.OWN_STATE.PEER = 3 → ((s.wc.mir.any fun e => e.2.adopted) = true →
    exec .rejoinRequest s = .next { s with own.rejoin := true }) ∧
       ((s.wc.mir.any fun e => e.2.adopted) = false → s.own.proposed = none → Answers .rejoinRequest s fun t => t.own.proposed.isSome = true)) ∧
  (∀ (s : State), s.on Reg.OWN_CTRL.EN = true → Answers .healthReportSend s fun t =>
       t.rd Reg.OWN_HEALTH.SELF_READY = (if s.isReady then 1 else 0) ∧
       Rings s t (.ring 0x06 [if s.isReady then 1 else 0, min 65535 s.lagUs, s.rd Reg.BOOT_STATUS.TRIAL] [])) ∧
  (∀ (s : State) r tr, s.on Reg.OWN_CTRL.EN = true → Answers (.healthReport r tr) s fun t => t.on Reg.OWN_HEALTH.PEER_READY = r ∧
    t.own.peerTrial = tr)

/-- Commands of moves, forwarding and scrub complete with their effect. Derived from R361, R362, R363, R364, R376, R378. FORWARDED_COMMAND
queues the command for a tag of the forwarded reserve; with CANCEL of one that still waits it is answered as aborted. FORWARDED_DATA of the
owner for a Forwarded Snapshot List or Program Results goes to the initiator; a unit of a write at the owner becomes a chunk of it.
FORWARDED_COMPLETION with ACCEPTED brings the owner's tag; with FINAL it ends a command that is no read with the owner's status.
MOVE_REQUEST of a settled group, none moving, makes it Moving; with take, of a Moving group of the peer, this head owns it at the next
generation and answers. MOVE_ACCEPT of the group that this head gives up leaves it the peer's, at the generation named. OWN_MOVE with GO
begins the move, in Mirrored with the new owner READY and no other move; otherwise it is refused with 0x8048. MOVE_DRAINED, no command of
the group running and no pause held, asks the new owner to take it. SCRUB_STEP sends the digest of the next slice, marked at the last of the
pass, and moves on. SCRUB_DIGEST asks for the slice's images where the digest differs, and notes the end of the pass. SCRUB_PAGE_REQUEST
sends the image of every page of the slice that this head holds. SCRUB_PAGE_IMAGE of a namespace entry that was asked for and differs
replaces the replica's, and counts the repair. -/
def Obligations.MovesForwardingScrub : Prop :=
  (∀ (s : State) h k, s.power.headLost = false → (h.cancel = false → Answers (.forwardedCommand h k) s fun t =>
         t.cmd.fwdIn = s.cmd.fwdIn ++ [{ cap := k, tenant := h.tenant, at_ := s.cmd.order, rtag := some h.rtag, hostId := h.hostId }]) ∧
       (∀ w, h.cancel = true → (s.cmd.fwdIn.find? fun w => w.rtag == some h.rtag) = some w → Answers (.forwardedCommand h k) s fun t =>
         Rings s t (.forwardReply { rtag := h.rtag, tenant := w.tenant, final := true, status := generic 0x07 }) ∧
           t.cmd.fwdIn = s.cmd.fwdIn.erase w)) ∧
  (∀ (s : State) h u, (∀ c, s.tag h.rtag = some c → c.state = .forwarded → c.cap.op = .snapshotList ∨ c.cap.op = .programResults →
         Answers (.forwardedData true h [u]) s fun t => Emits s t c.cap.qpn (.writeData h.rtag u.ext.addr u.container)) ∧
       (∀ n c, s.servedFor h.rtag = some (n, c) → s.tag n = some c → c.cap.op = .write → c.begun = false → c.status = none →
         c.write = none → u.ext.loc = .unmapped →
         Answers (.forwardedData false h [u]) s fun t =>
           (t.chunkOf n (u.ext.addr - c.cap.slba * 4096)).map (fun k => (k.fwd, k.fp, k.state)) = some (some (u.ext.len, u.container), u.ext.fp, .waiting))) ∧
  (∀ (s : State) h c, s.tag h.rtag = some c → c.state = .forwarded →
       (h.accepted = true → h.final = false → c.cap.sgl ≠ .inCapsule →
         Answers (.forwardedCompletion h) s fun t => (t.tag h.rtag).bind Cmd.peerTag = some h.otag) ∧
       (h.final = true → h.returned = false → c.cap.op ≠ .read → c.status = none →
         (s.cmd.tags.any fun e => e.2.abortOf.any fun a => a.1 == h.rtag) = false →
         Answers (.forwardedCompletion h) s fun t => t.ended h.rtag = some h.status)) ∧
  (∀ (s : State) g, s.on Reg.OWN_CTRL.EN = true → g < 1024 →
       ((s.groupOf g).state = .settled → s.own.move = none → Answers (.moveRequest g false) s fun t =>
         (t.groupOf g).state = .moving ∧ t.own.move = some g ∧ t.on Reg.OWN_MOVE_RESULT.BUSY = true) ∧
       ((s.groupOf g).owner ≠ s.headB → (s.groupOf g).state = .moving → Answers (.moveRequest g true) s fun t =>
         t.groupOf g = { owner := s.headB, gen := ((s.groupOf g).gen + 1) % 2 ^ 32, state := .settled } ∧
         Rings s t (.ring 0x05 [g, ((s.groupOf g).gen + 1) % 2 ^ 32] []))) ∧
  (∀ (s : State) g n, s.own.move = some g → (s.groupOf g).owner = s.headB → (s.groupOf g).state = .moving → Answers (.moveAccept g n) s fun t =>
       t.groupOf g = { owner := !s.headB, gen := n, state := .settled } ∧ t.own.move = none ∧ t.on Reg.OWN_MOVE_RESULT.BUSY = false) ∧
  (∀ (s : State) v, s.writable 17 = true → v.testBit 10 = true → s.on Reg.OWN_CTRL.EN = true →
       (s.wc.mode = .mirrored → s.on Reg.OWN_HEALTH.PEER_READY = true → s.on Reg.OWN_HEALTH.SELF_READY = true → s.own.move = none →
         (s.groupOf (v % 1024)).state = .settled → Answers (.ownMove v) s fun t =>
           (t.groupOf (v % 1024)).state = .moving ∧ t.own.move = some (v % 1024) ∧ Rings s t (.ring 0x04 [v % 1024, 0] [])) ∧
       (s.wc.mode ≠ .mirrored → Answers (.ownMove v) s fun t => t.rd Reg.OWN_MOVE_RESULT.STATUS = 0x8048)) ∧
  (∀ (s : State) g, s.own.move = some g → s.cmd.tags = [] → s.boot.pause = false → (s.groupOf g).owner = s.headB →
    (s.groupOf g).state = .moving →
       Answers .moveDrained s fun t => Rings s t (.ring 0x04 [g, 1, s.ringTime] [])) ∧
  (∀ (s : State), s.on Reg.OWN_CTRL.EN = true → s.own.scrubAt < s.scrubPass.length → Answers .scrubStep s fun t =>
       Rings s t (.ring 0x08 ((s.scrubPass.getD s.own.scrubAt (.table 2 0)).args ++ [s.scrubDigestOf (s.scrubPass.getD s.own.scrubAt (.table 2 0)) s.headB,
         if s.own.scrubAt + 1 = s.scrubPass.length then 1 else 0]) []) ∧
       t.own.scrubAt = if s.own.scrubAt + 1 = s.scrubPass.length then 0 else s.own.scrubAt + 1) ∧
  (∀ (s : State) w d l, s.on Reg.OWN_CTRL.EN = true → Answers (.scrubDigest w d l) s fun t => t.own.passDone = (s.own.passDone || l) ∧
       (s.scrubDigestOf w (!s.headB) ≠ d → Rings s t (.ring 0x09 w.args []))) ∧
  (∀ (s : State) a n p, s.on Reg.OWN_CTRL.EN = true → n ∈ (ScrubSlice.pages a).items s.headB → Table.find n s.map.pages = some p →
       Answers (.scrubPageRequest (.pages a)) s fun t => Rings s t (.ring 0x0A [0, n, 1] (p.image4k n))) ∧
  (∀ (s : State) n e, s.own.scrubBad.contains (5 * n + 1) = true → Table.find n s.map.ns ≠ e → Answers (.scrubPageImage (.ns n e)) s fun t =>
       Table.find n t.map.ns = e ∧
       t.rd Reg.OWN_SCRUB_STAT.REPAIRED = Reg.OWN_SCRUB_STAT.REPAIRED.fit (satAdd Reg.OWN_SCRUB_STAT.REPAIRED.width (s.rd Reg.OWN_SCRUB_STAT.REPAIRED) 1))

/-- Snapshot, clone and consistency-group commands complete with their effect. Derived from R73, R102, R171, R267, R268, R269, R271.
SNAPSHOT_CREATE of a namespace, outside a group, takes the cut at this ring time under the ID given, or a free one, and hands off its
record. SNAPSHOT_DELETE ends with C2 where the ID names no snapshot or one being deleted and with C4 where a clone uses it; else the
snapshot is marked and the record handed off. SNAPSHOT_LIST ends well, and DW0 counts the snapshots from the first ID named on that the
length asked for can hold. CLONE_CREATE hands off the record of the clone. A change that must be mirrored and would not be ends with E3 in
place of its record, and a Snapshot Create with no ID left with C0. CG_ARM of a group in time sets ARMED and clears TAKEN and JOINED, and
changes nothing else; of an armed group it changes nothing (the model's choice, log entry 126); with a T that has passed no group is armed.
CG_ABANDON of an armed group before T clears ARMED and JOINED, and every joined member ends with C6; from T on the cut is taken instead.
CONSISTENCY_CUT of an armed group before T changes nothing; from T on it sets TAKEN and clears ARMED, and where no Abort is in a tag, its
one member has its snapshot, cut at T. That a Snapshot Create with no ID left ends with C0 is the model's choice (log entry 124). -/
def Obligations.SnapshotsAndGroups : Prop :=
  (∀ (s : State) n c x, s.ready n .snapshotCreate = some c → c.change = none → Table.find c.cap.nsid s.map.ns = some x → 
       (s.bars n = false → s.hasRoom 192 = true →
        ∀ id, s.snapIdFor c.cap = some id → Answers (.snapshotCreate n) s fun t => t.snap c.cap.nsid id = some { root := x.root, time := s.ringTime } ∧
          t.handedOff n (.snapCreate c.cap.nsid id s.ringTime none)) ∧
       (s.snapIdFor c.cap = none → Answers (.snapshotCreate n) s fun t => t.ended n = some (vendor 0xC0)) ∧
       (s.bars n = true → (s.snapIdFor c.cap).isSome = true → Answers (.snapshotCreate n) s fun t => t.ended n = some (vendor 0xE3))) ∧
  (∀ (s : State) n c, s.ready n .snapshotDelete = some c → match s.snap c.cap.nsid c.cap.cdw10 with
       | none => Answers (.snapshotDelete n) s fun t => t.ended n = some (vendor 0xC2)
       | some x => (x.deleting = true → Answers (.snapshotDelete n) s fun t => t.ended n = some (vendor 0xC2)) ∧
           (x.deleting = false → s.snapUsed c.cap.nsid c.cap.cdw10 = true →
             Answers (.snapshotDelete n) s fun t => t.ended n = some (vendor 0xC4)) ∧
           (x.deleting = false → s.snapUsed c.cap.nsid c.cap.cdw10 = false → s.bars n = true →
             Answers (.snapshotDelete n) s fun t => t.ended n = some (vendor 0xE3)) ∧
           (x.deleting = false → s.snapUsed c.cap.nsid c.cap.cdw10 = false → s.bars n = false → s.hasRoom 192 = true →
             Answers (.snapshotDelete n) s fun t =>
             t.snap c.cap.nsid c.cap.cdw10 = some { x with deleting := true } ∧ t.handedOff n (.snapDelete c.cap.nsid c.cap.cdw10))) ∧
  (∀ (s : State) n c, s.ready n .snapshotList = some c → Answers (.snapshotList n) s fun t =>
       t.ended n = some { success with dw0 := min ((c.cap.cdw11 + 1) / 4) ((s.snapIds c.cap.nsid).filter fun i => decide (c.cap.cdw10 ≤ i)).length }) ∧
  (∀ (s : State) n c, s.ready n .cloneCreate = some c →
       (s.bars n = false → s.hasRoom 192 = true →
         Answers (.cloneCreate n) s fun t => t.handedOff n (.clone c.cap.nsid c.cap.cdw10 c.cap.cdw11)) ∧
       (s.bars n = true → Answers (.cloneCreate n) s fun t => t.ended n = some (vendor 0xE3))) ∧
  (∀ (s : State) g, g < 256 → s.writable 13 = true →
       (s.ringTime < s.rd Reg.MAP_CG_TIME.T g → s.on Reg.MAP_CG_CFG.ARMED g = false →
         exec (.cgArm g) s = .next (((s.wr Reg.MAP_CG_CFG.ARMED 1 g).wr Reg.MAP_CG_CFG.TAKEN 0 g).wr Reg.MAP_CG_CFG.JOINED 0 g)) ∧
       (s.ringTime < s.rd Reg.MAP_CG_TIME.T g → s.on Reg.MAP_CG_CFG.ARMED g = true → exec (.cgArm g) s = .next s) ∧
       (s.rd Reg.MAP_CG_TIME.T g ≤ s.ringTime → Answers (.cgArm g) s fun t => t.on Reg.MAP_CG_CFG.ARMED g = false)) ∧
  (∀ (s : State) g, g < 256 → s.writable 13 = true → s.on Reg.MAP_CG_CFG.ARMED g = true →
       (s.ringTime < s.rd Reg.MAP_CG_TIME.T g → Answers (.cgAbandon g) s fun t =>
         t.on Reg.MAP_CG_CFG.ARMED g = false ∧ t.rd Reg.MAP_CG_CFG.JOINED g = 0 ∧
         ∀ n ∈ Table.get g [] s.map.joined, (s.tag n).isSome = true → t.ended n = some (vendor 0xC6)) ∧
       (s.rd Reg.MAP_CG_TIME.T g ≤ s.ringTime → Answers (.cgAbandon g) s fun t => t.on Reg.MAP_CG_CFG.ARMED g = false ∧
         t.on Reg.MAP_CG_CFG.TAKEN g = true)) ∧
  (∀ (s : State) g, g < 256 → s.on Reg.MAP_CG_CFG.ARMED g = true →
       (s.ringTime < s.rd Reg.MAP_CG_TIME.T g → exec (.consistencyCut g) s = .next s) ∧
       (s.rd Reg.MAP_CG_TIME.T g ≤ s.ringTime → Answers (.consistencyCut g) s fun t =>
         t.on Reg.MAP_CG_CFG.TAKEN g = true ∧ t.on Reg.MAP_CG_CFG.ARMED g = false ∧
         ∀ n c x, Table.get g [] s.map.joined = [n] → s.tag n = some c → Table.find c.cap.nsid s.map.ns = some x → c.cap.cdw10 ≠ 0x10000 →
           (s.cmd.tags.all fun e => e.2.cap.op != .abort) = true →
           t.snap c.cap.nsid c.cap.cdw10 = some { root := x.root, time := s.rd Reg.MAP_CG_TIME.T g, group := some g }))

/-- Commands on namespaces and pool moves complete with their effect. Derived from R29, R77, R263, R264, R265, R397. Their work is internal:
it waits for a tag, with the ring command that it answers. NS_CREATE of a new namespace with good parameters queues its record; with
MAP_NS_BASE 0 it completes with 0x100E, with bad parameters with 0x1001, and with no page number left with 0x4002. NS_CHANGE of a namespace
queues its record; of one that does not exist it completes with 0x1001. NS_DELETE completes with 0x400C while a clone uses one of the
namespace's snapshots; else it queues its record. MAP_IMPORT of a good container of the namespace's domain, inside it, queues a write of
that container without a fingerprint; a bad one completes with 0x1001, and with no page number left one completes with 0x4002.
POOL_MOVE_COPY asks for the first container outside the target pool that nothing moves yet, to be sewn there. POOL_MOVE_COMPLETE with no
container left outside queues the record that ends the move, once. -/
def Obligations.Namespaces : Prop :=
  (∀ (s : State) c p, s.accepts c .namespaces = true →
       (s.rd Reg.MAP_NS_BASE.BASE = 0 → Answers (.nsCreate c p) s fun t => Completes s t c 0x100E 0 0) ∧
       (s.rd Reg.MAP_NS_BASE.BASE ≠ 0 → p.reservedZero = false ∨ s.nsidTaken p.nsid = true ∨ p.size = 0 →
         Answers (.nsCreate c p) s fun t => Completes s t c 0x1001 0 0) ∧
       (s.rd Reg.MAP_NS_BASE.BASE ≠ 0 → p.reservedZero = true → 1 ≤ p.nsid → p.nsid ≤ 65536 → s.nsidTaken p.nsid = false → p.tenant < 4096 →
         p.pool < 64 → p.group < 1024 → 1 ≤ p.size → p.size ≤ 2 ^ 40 → (s.sliceOf c).mayName p.tenant = true →
         if s.numbersLeft (s.groupOf p.group).owner = 0 then Answers (.nsCreate c p) s fun t => Completes s t c 0x4002 0 0
         else Answers (.nsCreate c p) s fun t => Asks s t (.change (.nsCreate p.nsid p.tenant p.pool p.size p.group p.programs)) (some c))) ∧
  (∀ (s : State) c p, s.accepts c .namespaces = true → match Table.find p.nsid s.map.ns with
       | none => Answers (.nsChange c p) s fun t => Completes s t c 0x1001 0 0
       | some x => p.reservedZero = true → (∀ z, p.newSize = some z → 1 ≤ z ∧ z ≤ 2 ^ 40) → (∀ q, p.newPool = some q → q < 64) →
           (s.sliceOf c).mayName x.tenant = true →
           Answers (.nsChange c p) s fun t => Asks s t (.change (.nsChange p.nsid p.newSize p.newPrograms (p.newPool.map some))) (some c)) ∧
  (∀ (s : State) c nsid x, s.accepts c .namespaces = true → Table.find nsid s.map.ns = some x → (s.sliceOf c).mayName x.tenant = true →
       if (s.snapIds nsid).any (s.snapUsed nsid) = true then
         Answers (.nsDelete c nsid) s fun t => Completes s t c 0x400C 0 0
       else Answers (.nsDelete c nsid) s fun t => Asks s t (.change (.nsDelete nsid)) (some c)) ∧
  (∀ (s : State) c nsid addr b x, s.accepts c .namespaces = true → Table.find nsid s.map.ns = some x → (s.sliceOf c).mayName x.tenant = true →
       (headerGood b x.tenant b.length = false → Answers (.mapImport c nsid addr b) s fun t => Completes s t c 0x1001 0 0) ∧
       (headerGood b x.tenant b.length = true → addr + (Header.parse b).orig ≤ x.size * 4096 → s.numbersLeft (s.nsOwner nsid) ≠ 0 →
         Answers (.mapImport c nsid addr b) s fun t => Asks s t .handOver (some c) ∧ ∃ i m w k, t.cmd.internal.getLast? = some i ∧
           i.made = some m ∧
           m.write = some w ∧ m.cap.nsid = nsid ∧ w.chunks = [k] ∧ k.off = addr ∧ k.state = .stored b false ∧ k.fp = none) ∧
       (headerGood b x.tenant b.length = true → addr + (Header.parse b).orig ≤ x.size * 4096 → s.numbersLeft (s.nsOwner nsid) = 0 →
         Answers (.mapImport c nsid addr b) s fun t => Completes s t c 0x4002 0 0)) ∧
  (∀ (s : State) nsid x p l, Table.find nsid s.map.ns = some x → x.moving = some p →
       ((s.toMove nsid p).find? fun l => !(s.sewing l || (s.fetching fun f y => y == l && f == .collect p) ||
         (Table.get p [] s.sig.staged).any fun y => y.1 == l)) = some l →
           Answers (.poolMoveCopy nsid) s fun t => Asks s t (.fetch (.collect p) l) none) ∧
  (∀ (s : State) nsid x p, Table.find nsid s.map.ns = some x → x.moving = some p → s.toMove nsid p = [] →
       ((s.cmd.internal.any fun w => w.made.any fun c => c.job == some (.change (.nsChange nsid none none (some none)))) = false →
         Answers (.poolMoveComplete nsid) s fun t => Asks s t (.change (.nsChange nsid none none (some none))) none) ∧
       ((s.cmd.internal.any fun w => w.made.any fun c => c.job == some (.change (.nsChange nsid none none (some none)))) = true →
         exec (.poolMoveComplete nsid) s = .next s))

/-- Commands on map pages and the map cache complete with their effect. Derived from R176, R194, R255, R256, R261, R262, R272, R273, R274,
R275, R276. PAGE_IN_COMPLETE of a good read of a page that is not resident gives it a slot, where one is free and no lookup waits for it;
one that cannot be read is marked gone. RECLAIM_PAGE, with RECLAIM_EN and nothing waiting for a page number, frees the first page at count
zero and puts its number in the free list. MAP_CACHE_FILL takes the fill out of those outstanding: one not poisoned puts its line in a way
of its set while EN is 1, a poisoned one with waiters is issued again; a parity error of a line takes it from the cache, is counted, and the
line is filled again. MAP_CACHE_ENABLE sets EN only while INV_DONE is 1, and clearing EN clears INV_DONE. INVALIDATE_ALL, no maintenance
running, drops every line, poisons every outstanding fill, and sets BUSY. INVALIDATE_RANGE poisons the outstanding fills of its lines, and
leaves none of them in a way of its set. INVALIDATE_DONE of the running operation clears BUSY, and after an invalidate-all sets INV_DONE.
METADATA_WRITEBACK leaves no dirty page, retires the log entries of the signatures no longer in flight, and brings what flash holds up to
the map. -/
def Obligations.PagesAndMapCache : Prop :=
  (∀ (s : State) n, Table.has n s.map.pages = true → (s.page n).slot = none → (s.map.faults.filter fun f => f.1 == n) = [] →
       (∀ k, (s.takeSlot ((s.map.pages.filter fun e => e.2.kids.any fun k => k.2 == n).map Prod.fst)).1 = some k →
         Answers (.pageInComplete n .good) s fun t => (t.page n).slot = some k ∧ (t.page n).image = true) ∧
       Answers (.pageInComplete n .unreadable) s fun t => (t.page n).gone = true) ∧
  (∀ (s : State) n r, s.map.zero = n :: r → s.on Reg.MAP_CTRL.RECLAIM_EN = true → (s.page n).kids = [] → s.map.waiting = [] →
    s.map.deltas = [] → Answers .reclaimPage s fun t =>
       Table.find n t.map.pages = none ∧ t.map.zero = r ∧ t.map.freed = s.map.freed ++ [n]) ∧
  (∀ (s : State) line f, (s.map.fills.find? fun f => f.line == line) = some f →
       (f.poisoned = true → 0 < f.waiters → Answers (.mapCacheFill line false) s fun t =>
         t.map.fills = (s.map.fills.filter fun x => x.line != line) ++ [{ f with poisoned := false }]) ∧
       (f.poisoned = false → s.on Reg.MAP_CACHE_CTRL.EN = true → s.map.stalled = [] → Answers (.mapCacheFill line false) s fun t =>
         t.map.fills = (s.map.fills.filter fun x => x.line != line) ∧
         (t.cacheSet (lineSet line)).ways = (s.cacheSet (lineSet line)).ways.set
           (((s.cacheSet (lineSet line)).wayOf (lineTag line)).getD (s.cacheSet (lineSet line)).victim) (some (lineTag line, f.prefetch)))) ∧
  (∀ (s : State) line, s.on Reg.MAP_CACHE_CTRL.EN = true → s.linePresent line = true → s.filling line = false → s.fillRoom line = true →
       Answers (.mapCacheFill line true) s fun t => (t.cacheSet (lineSet line)).wayOf (lineTag line) = none ∧ t.filling line = true ∧
         t.rd Reg.MAP_CACHE_PARITY.COUNT = Reg.MAP_CACHE_PARITY.COUNT.fit (satAdd Reg.MAP_CACHE_PARITY.COUNT.width (s.rd Reg.MAP_CACHE_PARITY.COUNT) 1)) ∧
  (∀ (s : State) v, s.writable 13 = true → Answers (.mapCacheEnable v) s fun t => t.rd Reg.MAP_CACHE_CTRL.PREFETCH_EN = v / 2 % 2 ∧
       (v % 2 = 1 → t.on Reg.MAP_CACHE_CTRL.EN = (s.on Reg.MAP_CACHE_CTRL.EN || s.on Reg.MAP_CACHE_CTRL.INV_DONE)) ∧
       (v % 2 = 0 → t.on Reg.MAP_CACHE_CTRL.EN = false ∧ t.on Reg.MAP_CACHE_CTRL.INV_DONE = false)) ∧
  (∀ (s : State), s.writable 13 = true → s.map.maint = none → Answers .invalidateAll s fun t =>
       t.map.sets = [] ∧ (∀ f ∈ t.map.fills, f.poisoned = true) ∧ t.map.maint = some .all ∧ t.on Reg.MAP_CACHE_MAINT_CMD.BUSY = true) ∧
  (∀ (s : State) n, s.writable 13 = true → s.map.maint = none → Answers (.invalidateRange n) s fun t =>
       t.map.maint = some .range ∧ t.on Reg.MAP_CACHE_MAINT_CMD.BUSY = true ∧
       (∀ f ∈ t.map.fills, s.rd Reg.MAP_CACHE_MAINT_ADDR.LINE ≤ f.line → f.line < s.rd Reg.MAP_CACHE_MAINT_ADDR.LINE + n → f.poisoned = true) ∧
       (∀ line, s.rd Reg.MAP_CACHE_MAINT_ADDR.LINE ≤ line → line < s.rd Reg.MAP_CACHE_MAINT_ADDR.LINE + n →
         (t.cacheSet (lineSet line)).wayOf (lineTag line) = none)) ∧
  (∀ (s : State) op, s.map.maint = some op → Answers .invalidateDone s fun t => t.map.maint = none ∧ t.on Reg.MAP_CACHE_MAINT_CMD.BUSY = false ∧
       t.on Reg.MAP_CACHE_CTRL.INV_DONE = (s.on Reg.MAP_CACHE_CTRL.INV_DONE || decide (op = .all))) ∧
  (∀ (s : State), Answers .metadataWriteback s fun t => (∀ e ∈ t.map.pages, e.2.dirty = false) ∧ t.store.map = t.map ∧
       t.sig.live = s.sig.live.filter fun e => s.sig.flight.any fun x => decide (x.seq ≤ e.seq))

/-- Commands that load programs and start or attach them complete with their effect. Derived from R310, R322, R323, R326, R328, R401.
PRG_LOAD of a good package into an empty slot installs it and completes with 0; a package that fails its check completes with that check's
code, and a slot in use without the replace bit with 0x7008. PRG_UNLOAD empties a slot in use and completes with 0; of an empty slot it
completes with 0x1001. PROGRAM_TABLE_UPDATE puts the peer's package in its slot, or empties the slot. HOST_RUN with a fault in its
parameters completes with that fault's code; without one it queues internal work that answers the ring command, and its run waits for that
work's tag. INDEX_BUILD does the same for a run that builds an index. TAP_ATTACH of a loaded program to a namespace with the programs flag,
1 to 8 of its tenant's tiles being free, starts a run on that many tiles whose records go to the ring, and completes with 0. TAP_DETACH of a
tap of the namespace and program takes it away and completes with 0; where there is none it completes with 0x1001. -/
def Obligations.ProgramPackages : Prop :=
  (∀ (s : State) c d k rep b, s.accepts c .programs = true → s.programsPlaced = true → d < 4096 → (s.sliceOf c).mayName d = true → k < 256 →
       (∀ x, packageFault b = some x → Answers (.prgLoad c d k rep true b) s fun t => Completes s t c x 0 0) ∧
       (packageFault b = none → s.prg.table.length < 16384 → (s.programAt d k).isSome = true →
         Answers (.prgLoad c d k false true b) s fun t => Completes s t c 0x7008 0 0) ∧
       (packageFault b = none → s.prg.table.length < 16384 → s.programAt d k = none → Answers (.prgLoad c d k rep true b) s fun t =>
         Completes s t c 0 0 0 ∧ (t.programAt d k).map Program.bytes = some b)) ∧
  (∀ (s : State) c d k, s.accepts c .programs = true → s.programsPlaced = true → d < 4096 → (s.sliceOf c).mayName d = true →
       (s.programAt d k = none → Answers (.prgUnload c d k) s fun t => Completes s t c 0x1001 0 0) ∧
       ((s.programAt d k).isSome = true → Answers (.prgUnload c d k) s fun t => Completes s t c 0 0 0 ∧ t.programAt d k = none)) ∧
  (∀ (s : State) d k b, d < 4096 → k < 256 → Answers (.programTableUpdate d k b) s fun t => (t.programAt d k).map Program.bytes = b) ∧
  (∀ (s : State) c p, s.accepts c .programs = true → s.programsPlaced = true → p.tenant < 4096 → (s.sliceOf c).mayName p.tenant = true →
       (∀ x, s.hostRunFault p false = some x → Answers (.hostRun c p) s fun t => Completes s t c x 0 0) ∧
       (s.hostRunFault p false = none → Answers (.hostRun c p) s fun t => Asks s t .run (some c) ∧ ∃ e, e ∈ t.prg.runs ∧
         e.2.ticket = some s.cmd.order ∧ e.2.kind = .host c p.dest p.len ∧ e.2.lo = p.lo ∧ e.2.hi = p.hi)) ∧
  (∀ (s : State) c p, s.accepts c .programs = true → s.programsPlaced = true → p.tenant < 4096 → (s.sliceOf c).mayName p.tenant = true →
       (∀ x, s.hostRunFault p true = some x → Answers (.indexBuild c p) s fun t => Completes s t c x 0 0) ∧
       (s.hostRunFault p true = none → Answers (.indexBuild c p) s fun t => Asks s t .run (some c) ∧ ∃ e, e ∈ t.prg.runs ∧
         e.2.ticket = some s.cmd.order ∧ e.2.kind = .index c p.dest p.len ∧ e.2.lo = p.lo ∧ e.2.hi = p.hi)) ∧
  (∀ (s : State) c nsid k m a len x p r, s.accepts c .programs = true → s.programsPlaced = true → s.tenantOf nsid < 4096 →
       (s.sliceOf c).mayName (s.tenantOf nsid) = true → Table.find nsid s.map.ns = some x → s.programAt (s.tenantOf nsid) k = some p →
       1 ≤ m → m ≤ 8 → pkgFlag p.bytes 4 = false → len ≠ 0 → s.on Reg.PRG_CTRL.TAP_EN = true → x.programs = true →
       m ≤ s.rd Reg.PRG_TENANT_CFG.MAX_TILES (s.tenantOf nsid) → s.freeRunSlot = some r → m ≤ s.freeTiles.length →
       Answers (.tapAttach c nsid k m a len) s fun t => Completes s t c 0 0 0 ∧
         ∃ y, Table.find r t.prg.runs = some y ∧ y.kind = .tap c a len ∧ y.tiles.length = m ∧ y.nsid = nsid ∧ y.startedAt = some s.clock) ∧
  (∀ (s : State) c nsid k, s.accepts c .programs = true → s.programsPlaced = true → s.tenantOf nsid < 4096 →
    (s.sliceOf c).mayName (s.tenantOf nsid) = true →
       match s.prg.runs.find? fun e => e.2.nsid == nsid && e.2.slot == k && e.2.kind.isTap with
       | some e => Answers (.tapDetach c nsid k) s fun t => Completes s t c 0 0 0 ∧ Table.find e.1 t.prg.runs = none
       | none => Answers (.tapDetach c nsid k) s fun t => Completes s t c 0x1001 0 0)

/-- Commands on runs, tiles, results and their accounts complete with their effect. Derived from R139, R140, R314, R315, R317, R318, R319,
R321, R323, R325, R326, R328. PROGRAM_RUN of a loaded program is a scan of its blocks, waiting for tiles or on them. TILE_GRANT gives the
first waiting run that is ready free tiles and a slot, and it starts. PIECE_DELIVER of a scan's next whole piece (framing 0), a hole or a
container that has come and decodes, moves its span on by the piece, or ends the run; a lost container ends it with 2/81, one whose key
cannot serve with 7/E1, and one damaged in both its copies with 7/E0; damage in the first is shown in BND_DECOMP_ERR.LAST. BUDGET_EXCEEDED
ends a scan with D2, and takes a tap away. RUN_COMPLETE of a scan whose spans have all ended completes the run, well where the program has
no finish entry. PROGRAM_RESULTS of a handle that names no run here ends with D7; of a completed scan of the tenant it ends with D6 where
the next record does not fit, and else well, DW0 counting the header and the whole records taken. RESULT_KEEP_EXPIRY of a completed run
frees its slot. TILE_FENCE of a tile below 32 takes it out of service and shows it fenced. ACCOUNTING_UPDATE books what every started,
unfinished run has used: none is left to book. ACCT_CLEAR with GO zeroes the tenant's entry, and with ALL every entry. -/
def Obligations.RunsAndTiles : Prop :=
  (∀ (s : State) n c, s.ready n .programRun = some c → (s.programAt c.tenant c.cap.cdw10).isSome = true → Answers (.programRun n) s fun t =>
       ∃ e, e ∈ t.prg.runs ∧ e.2.kind = .scan n ∧ e.2.tag = some n ∧ e.2.slot = c.cap.cdw10 ∧ e.2.lo = c.cap.runLba * 4096 ∧
         e.2.hi = (c.cap.runLba + c.cap.cdw14) * 4096) ∧
  (∀ (s : State) e k, (s.prg.runs.find? fun e => decide (e.1 < 4096) && e.2.startedAt.isSome && e.2.doneAt.isNone && e.2.tiles.isEmpty) = none →
       s.on Reg.CMD_HOLD.ACTIVATION = false → s.freeTiles ≠ [] → (s.prg.runs.find? fun e => decide (4096 ≤ e.1) && s.runReady e.2) = some e →
       s.freeRunSlot = some k → (s.programAt e.2.tenant e.2.slot).isSome = true → Answers .tileGrant s fun t =>
         ∃ r, Table.find k t.prg.runs = some r ∧ r.startedAt = some s.clock ∧ r.tiles ≠ [] ∧ r.kind = e.2.kind) ∧
  (∀ (s : State) k r n m i p e, Table.find k s.prg.runs = some r → r.kind = .scan n → r.startedAt.isSome = true → r.doneAt = none →
       Table.has m r.tiles = true → s.prg.frozenAt = none → (r.spans.findIdx? fun p => p.tile == m && !p.ended) = some i → r.spans[i]? = some p →
       s.nextExtent r p = some e →
       (e.loc.reads0 = true → framing r.image = 0 → Answers (.pieceDeliver k m {}) s fun t => ∃ y, Table.find k t.prg.runs = some y ∧
         (y.doneAt.isSome = true ∨ (y.spans[i]?).map Span.pos = some (p.pos + e.len))) ∧
       (e.loc.reads0 = false → p.lost = true → Answers (.pieceDeliver k m {}) s fun t => (Table.find k t.prg.runs).bind Run.status = some (media 0x81)) ∧
       (∀ c, e.loc.reads0 = false → p.lost = false → p.copy = some (some c) → s.cacheLost (p.loc.getD e.loc) = false →
         match s.decodeContainer r.tenant (p.loc.getD e.loc).size c with
         | .ok plain => framing r.image = 0 → Answers (.pieceDeliver k m {}) s fun t => ∃ y, Table.find k t.prg.runs = some y ∧
             (y.doneAt.isSome = true ∨ (y.spans[i]?).map Span.pos = some (p.pos + (slice plain e.off e.len).length))
         | .error (.key _) => Answers (.pieceDeliver k m {}) s fun t => (Table.find k t.prg.runs).bind Run.status = some (vendor 0xE1)
         | .error (.damage code) => Answers (.pieceDeliver k m {}) s fun t =>
             if p.second.isSome then (Table.find k t.prg.runs).bind Run.status = some (vendor 0xE0) else t.rd Reg.BND_DECOMP_ERR.LAST = code % 256)) ∧
  (∀ (s : State) k r, Table.find k s.prg.runs = some r → r.startedAt.isSome = true → r.doneAt = none →
       (∀ n, r.kind = .scan n → Answers (.budgetExceeded k) s fun t => (Table.find k t.prg.runs).bind Run.status = some (vendor 0xD2)) ∧
       (r.kind.isTap = true → Answers (.budgetExceeded k) s fun t => Table.find k t.prg.runs = none)) ∧
  (∀ (s : State) k r n, Table.find k s.prg.runs = some r → r.kind = .scan n → r.startedAt.isSome = true → r.doneAt = none →
    (r.spans.all Span.ended) = true →
       Answers (.runComplete k) s fun t => (Table.find k t.prg.runs).any (fun y => y.doneAt.isSome) = true ∧
         (pkgFlag r.image 3 = false → (Table.find k t.prg.runs).bind Run.status = some success)) ∧
  (∀ (s : State) n c, s.ready n .programResults = some c →
       (Table.find (c.cap.cdw10 % 4096) s.prg.runs = none → Answers (.programResults n) s fun t => t.ended n = some (vendor 0xD7)) ∧
       ∀ r m, Table.find (c.cap.cdw10 % 4096) s.prg.runs = some r → r.kind = .scan m → r.doneAt.isSome = true →
         s.handle (c.cap.cdw10 % 4096) r.gen = c.cap.cdw10 → r.tenant = c.tenant → Answers (.programResults n) s fun t =>
           if c.cap.cdw11 + 1 < 16 + ((r.records.head?).map PrgRecord.dwords).getD 0 then t.ended n = some (vendor 0xD6)
           else t.ended n = some { success with dw0 := 16 + ((takeWhole (c.cap.cdw11 + 1 - 16) r.records).flatMap PrgRecord.stored).length / 4 }) ∧
  (∀ (s : State) k r, Table.find k s.prg.runs = some r → r.doneAt.isSome = true →
    Answers (.resultKeepExpiry k) s fun t => Table.find k t.prg.runs = none) ∧
  (∀ (s : State) m, m < 32 → Answers (.tileFence m) s fun t => (t.rd Reg.PRG_TILE_INSERVICE.TILES).testBit m = false ∧
       (t.rd Reg.PRG_TILE_FENCED.TILES).testBit m = true) ∧
  (∀ (s : State), Answers .accountingUpdate s fun t => ∀ k r, Table.find k t.prg.runs = some r → r.startedAt.isSome = true →
    r.doneAt = none → r.acct = {}) ∧
  (∀ (s : State) v, s.writable 19 = true → v.testBit 12 = true → Answers (.acctClear v) s fun t =>
       (v.testBit 13 = false → Table.find (v % 4096) t.prg.acct = some {}) ∧ (v.testBit 13 = true → ∀ d, Table.get d {} t.prg.acct = {}))

/-- Envelopes that a replication target takes complete with their effect. Derived from R285, R286, R287, R288, R289, R290, R294, R296, R297,
R299. STREAM_BATCH holds the envelope, and moves the stream's mark to it. ENVELOPE_RELEASE of a held batch that the watermarks release, with
every key and container here, hands its writes to the cache: it is no longer held; one that wants containers records the wants. DIFFERENCE
behind a held envelope is held; the last one, empty, with nothing held or being applied, is applied at once and its anchor taken. WANT_REPLY
with nothing held adds the containers to the stream's answers. ANCHOR_MARK with nothing held or being applied takes the anchor of its time.
REPLICATION_ACK of a running source's session takes the envelopes up to its sequence from the send buffer and ends the writes that waited
for them; as a probe's answer it closes the probe. PROBE on an up link with room in its ring is answered by an acknowledgement: of a set
that runs on that link, a source's with room in the send buffer, or of a set that does not run. PROBE_TIMER of an up link with room, that of
the send buffer where a source's stream carries the probe, sends a probe; of a link that waits for its queue pair, now ready, it brings the
link up. That probes take a stream's sequence, and that a link without a set sends a bare one, is the model's choice (log entry 101). -/
def Obligations.ReplicationReceive : Prop :=
  (∀ (s : State) e, s.inSession e = true →
    Answers (.streamBatch e) s fun t => (t.stream e.set (if e.head then 1 else 0)).held = (s.stream e.set (if e.head then 1 else 0)).held ++ [e] ∧
       (t.stream e.set (if e.head then 1 else 0)).mark = e.seq) ∧
  (∀ (s : State) n h e r, s.repRuns n true = true → (s.stream n h).held = e :: r → e.kind = 1 → s.mayRelease n h e = true →
       (e.units.any fun u => (s.serveUnit n h (s.targetOf n u.member).2 u).1 == .noKey) = false →
       (s.wantsOf n h e = [] → Answers (.envelopeRelease n h) s fun t => (t.stream n h).held = (e :: r).filter fun x => x.seq != e.seq) ∧
       (s.wantsOf n h e ≠ [] → Answers (.envelopeRelease n h) s fun t => ∀ w ∈ s.wantsOf n h e, w ∈ (t.stream n h).wants)) ∧
  (∀ (s : State) e, s.inSession e = true → e.revert = false → (s.repSet e.set).working ≠ [] →
       ((s.stream e.set (if e.head then 1 else 0)).held ≠ [] → Answers (.difference e) s fun t =>
         (t.stream e.set (if e.head then 1 else 0)).held = (s.stream e.set (if e.head then 1 else 0)).held ++ [e]) ∧
       ((s.stream e.set (if e.head then 1 else 0)).held = [] → (s.stream e.set (if e.head then 1 else 0)).applying = [] → e.kind = 2 →
         e.last = true → e.units = [] →
         Answers (.difference e) s fun t => (t.repSet e.set).anchors.head?.map Prod.fst = some e.time)) ∧
  (∀ (s : State) e, s.inSession e = true → (s.stream e.set (if e.head then 1 else 0)).held = [] → Answers (.wantReply e) s fun t =>
       (t.stream e.set (if e.head then 1 else 0)).answers = (s.stream e.set (if e.head then 1 else 0)).answers ++ e.units ∧
       (t.stream e.set (if e.head then 1 else 0)).mark = e.seq) ∧
  (∀ (s : State) e, s.inSession e = true → (s.stream e.set (if e.head then 1 else 0)).held = [] →
    (s.stream e.set (if e.head then 1 else 0)).applying = [] →
       Answers (.anchorMark e) s fun t => (t.repSet e.set).anchors.head?.map Prod.fst = some e.time) ∧
  (∀ (s : State) e, (∀ a, e.ack = some a → s.repRuns e.set false = true → e.crcOk = true → e.tagOk = true →
    a.session = (s.repSet e.set).stream.session →
         a.result = 0 → a.wants = [] → (s.repSet e.set).shipping = none → (s.repSet e.set).stream.room = [] →
           Answers (.replicationAck e none) s fun t =>
           (t.repSet e.set).stream.unacked = ((s.repSet e.set).stream.unacked.filter fun v => decide (a.seq < v.seq)) ∧
           ∀ w ∈ (s.repSet e.set).waiting, w.2 ≤ a.seq → (s.tag w.1).isSome = true → (t.ended w.1).isSome = true) ∧
       (∀ l k x, e.ack = none → Table.find l s.rep.links = some k → k.probe = some x → Answers (.replicationAck e (some l)) s fun t =>
         (Table.find l t.rep.links).map RepLink.probe = some none)) ∧
  (∀ (s : State) l e k, Table.find l s.rep.links = some k → k.queue = [] → (k.place 192).isSome = true →
    s.rd Reg.REP_LINK_CTRL.STATE l = 2 → s.on Reg.REP_CTRL.EN = true →
       e.crcOk = true → e.tagOk = true → (∀ r, s.repRuns e.set r = true → s.linkOf e.set = l) →
       (s.repRuns e.set false = true → (s.repSet e.set).stream.room = [] ∧ (s.nextEnvelope e.set).sendRoom 144 = true) →
       Answers (.probe l e) s fun t => ∃ a b, Sends s t (.envelope l a b) ∧ a.kind = 5 ∧ a.set = e.set ∧ a.ack.isSome = true) ∧
  (∀ (s : State) l k, Table.find l s.rep.links = some k →
       (s.rd Reg.REP_LINK_CTRL.STATE l = 2 → k.queue = [] → (k.place 128).isSome = true → k.missed < 9 → k.slow < 10 →
         (∀ n, (s.setsOn l).head? = some n → (s.repSet n).stream.room = [] ∧ (s.nextEnvelope n).sendRoom 80 = true) →
           Answers (.probeTimer l) s fun t =>
         (∃ e b, Sends s t (.envelope l e b) ∧ e.kind = 6) ∧ (Table.find l t.rep.links).map RepLink.probe = some (some s.clock)) ∧
       (s.rd Reg.REP_LINK_CTRL.STATE l = 1 → s.qpReady k.qpn = true → Answers (.probeTimer l) s fun t => t.rd Reg.REP_LINK_CTRL.STATE l = 2))

/-- Commands on replication sets and links complete with their effect. Derived from R279, R280, R281, R287, R291, R292, R298, R299, R301,
R302, R305. BATCH_CLOSE of a running source's batch seals it under the next sequence number. IDLE_WATERMARK of a synchronous source with no
batch open sends an empty one. ANCHOR_PERIOD of a synchronous or cycling source whose last anchor is acknowledged takes the anchor of this
ring time and ships it. REPLICATION_LINK_DOWN of a link that is not down shows it down and stalls its synchronous sets.
REPLICATION_LINK_ENABLE with EN 0 takes the link off; with EN 1, of a link that is off, it reads the table entry: one with a good CRC that
keeps the rules of R281 enables the link, up or waiting by its queue pair, any other changes nothing (that a breach of R281 does is the
model's choice, log entry 127). SUSPEND_EXPIRY of a stalled set with ON_BREAK takes it to Tracking and ends the writes that wait. SET_ENABLE
with EN 0 stops a set, and writes the settings of one that is off; with EN 1, of a set that is off, an invalid set is refused with 0x6001,
one whose target lacks a key is Broken with 0x6009, and any other is enabled, a target with a session number left waiting as Target.
RESYNCHRONISE on a running source starts a resynchronisation, or, its sessions used up, breaks the set. REVERSE on a running synchronous or
cycling source with no anchor on its way refuses member writes and ships the final anchor. PROMOTE on a running target makes it the source,
in Tracking, with an anchor of this ring time. -/
def Obligations.ReplicationSource : Prop :=
  (∀ (s : State) n, s.repRuns n false = true → (s.repSet n).stream.batch ≠ [] → Answers (.batchClose n) s fun t =>
       (t.repSet n).stream.batch = [] ∧ (t.repSet n).stream.seq = (s.repSet n).stream.seq + 1) ∧
  (∀ (s : State) n, s.repRuns n false = true → (s.repSet n).stream.batch = [] → (s.repSet n).state = .synchronous →
    Answers (.idleWatermark n) s fun t =>
       (t.repSet n).stream.seq = (s.repSet n).stream.seq + 1) ∧
  (∀ (s : State) n, s.repRuns n false = true → (s.repSet n).shipping = none → (s.repSet n).state = .synchronous ∨ (s.repSet n).state = .cycling →
       Answers (.anchorPeriod n) s fun t => (t.repSet n).shipping = some (s.ringTime, .cycle) ∧
         (t.repSet n).anchors.head?.map Prod.fst = some s.ringTime) ∧
  (∀ (s : State) l, Table.has l s.rep.links = true → s.rd Reg.REP_LINK_CTRL.STATE l ≠ 3 → Answers (.replicationLinkDown l) s fun t =>
       t.rd Reg.REP_LINK_CTRL.STATE l = 3 ∧ ∀ n ∈ s.setsOn l, (s.repSet n).state = .synchronous → (t.repSet n).state = .stalled) ∧
  (∀ (s : State) l v, s.writable 18 = true → l < 64 →
       (v % 2 = 0 → Answers (.replicationLinkEnable l v) s fun t => t.on Reg.REP_LINK_CTRL.EN l = false ∧
         t.rd Reg.REP_LINK_CTRL.STATE l = 0 ∧ Table.find l t.rep.links = none) ∧
       (∀ b, b = ((List.range 64).map fun k => Memory.read s.mem (s.rd Reg.REP_LINK_BASE.BASE + 64 * l + k)) → v % 2 = 1 →
         s.on Reg.REP_LINK_CTRL.EN l = false →
         have k : RepLink := { qpn := num (slice b 0 4) % 2 ^ 24, key := num (slice b 4 4), ring := num (slice b 8 8), ringSize := num (slice b 16 8),
                               array := num (slice b 40 2), own := num (slice b 24 8), ownSize := num (slice b 32 8) }
         (crc32c (b.take 60) ≠ num (slice b 60 4) ∨ s.linkValid k = false → exec (.replicationLinkEnable l v) s = .next s) ∧
         (crc32c (b.take 60) = num (slice b 60 4) → s.linkValid k = true →
           Answers (.replicationLinkEnable l v) s fun t => t.on Reg.REP_LINK_CTRL.EN l = true ∧
           t.rd Reg.REP_LINK_CTRL.STATE l = if s.qpReady (num (slice b 0 4) % 2 ^ 24) then 2 else 1))) ∧
  (∀ (s : State) n, (s.repSet n).state = .stalled → s.on Reg.REP_SET_CFG.ON_BREAK n = true → Answers (.suspendExpiry n) s fun t =>
       (t.repSet n).state = .tracking ∧ (t.repSet n).waiting = []) ∧
  (∀ (s : State) n v d k, s.writable 18 = true → n < 256 →
       (v % 2 = 0 → s.on Reg.REP_SET_CFG.EN n = true → Answers (.setEnable n v d k) s fun t => t.on Reg.REP_SET_CFG.EN n = false ∧
         (t.repSet n).state = .off) ∧
       (v % 2 = 0 → s.on Reg.REP_SET_CFG.EN n = false → v / 2 % 4 ≠ 3 → Answers (.setEnable n v d k) s fun t =>
         t.rd Reg.REP_SET_CFG.MODE n = v / 2 % 4 ∧ t.rd Reg.REP_SET_CFG.ROLE n = v / 8 % 2 ∧ t.rd Reg.REP_SET_CFG.LINK n = v / 32 % 64 ∧
         t.rd Reg.REP_SET_CFG.KEY_SLOT n = v / 2048 % 8192) ∧
       (v % 2 = 1 → s.on Reg.REP_SET_CFG.EN n = false → Answers (.setEnable n v d k) s fun t =>
         if (s.writeSetCfg n v).setValid n ((s.writeSetCfg n v).readMembers n) d = true then
           if k = true then t.on Reg.REP_SET_CFG.EN n = true ∧ (t.repSet n).state = .broken ∧ t.rd Reg.REP_SET_STATE.STATUS n = 0x6009
           else t.on Reg.REP_SET_CFG.EN n = true ∧ (v / 8 % 2 = 1 → (s.repSet n).stream.counter < 2 ^ 30 - 1 → (t.repSet n).state = .target)
         else t.on Reg.REP_SET_CFG.EN n = false ∧ t.rd Reg.REP_SET_STATE.STATUS n = 0x6001)) ∧
  (∀ (s : State) n, s.writable 18 = true → s.repRuns n false = true → Answers (.resynchronise n) s fun t => (t.repSet n).state = .resync ∨
    (t.repSet n).state = .broken) ∧
  (∀ (s : State) n, s.writable 18 = true → s.repRuns n false = true → (s.repSet n).state = .synchronous ∨ (s.repSet n).state = .cycling →
    (s.repSet n).shipping = none →
       Answers (.reverse n) s fun t => (t.repSet n).state = .reversing ∧ (t.repSet n).writesRefused = true ∧
         (t.repSet n).shipping = some (s.ringTime, .reverse)) ∧
  (∀ (s : State) n, s.writable 18 = true → s.repRuns n true = true → Answers (.promote n) s fun t =>
       t.on Reg.REP_SET_CFG.ROLE n = false ∧ (t.repSet n).state = .tracking ∧ (t.repSet n).anchors.head?.map Prod.fst = some s.ringTime)

/-- Commands on ring links, enumeration and the directory complete with their effect. Derived from R128, R334, R337, R338, R339, R340, R341,
R342, R343, R344, R351. RING_LINK_DETECT of a Down link that exists, the ring enabled, takes it to Detect. RING_LINK_TRAINED of a link in
Detect, Equalize or Lock takes it to Hello and sends a control flit; of one in Retrain, to Active. RING_HELLO on a link in Hello of the
other head, wired and versioned right, makes the link Active; any other makes it Isolated. RING_LINK_DOWN of a link that is not Down takes
it Down, and PEER is cleared. RING_TRAINING_TIMEOUT takes a link that has not got to Active Down; a retrain counts as failed, and the third
in a row takes the link Down. RING_REPLAY_REQUEST on an Active link replays from the sequence, and the fifth for one sequence retrains the
link. PARTIAL_MESSAGE_TIMEOUT on an Active link counts the message dropped. ENUMERATION_FLIT of a newer term on an Active link makes the
link the parent of a device that is not gathering, which takes over the term and keeper, and is no keeper any more. ENUMERATION_JOIN at a
gathering keeper is kept; at another keeper a device within the limits, for which an address is free, takes its place in the directory,
which is sent out. ENUMERATION_DIRECTORY at a device that is no keeper: without an entry it is Isolated; with one it takes the address, and,
isolated before and the entry not Gone, is Joining and forwards the directory. KEEPER_GATHER_EXPIRY at a gathering keeper starts ring time
at the highest floor and sends the directory. ADDRESS_RESERVE_EXPIRY of a Gone device's address, at the keeper, frees the address and sends
the directory. A directory goes out on every link down the parent tree. -/
def Obligations.RingLinks : Prop :=
  (∀ (s : State) l, s.on Reg.XRN_CTRL.EN = true → s.linkExists l = true → (s.link l).state = .down → Answers (.ringLinkDetect l) s fun t =>
       (t.link l).state = .detect ∧ t.rd Reg.XRN_LINK_STATUS.STATE l = LinkState.detect.code) ∧
  (∀ (s : State) l n, s.on Reg.XRN_CTRL.EN = true → s.linkExists l = true →
       ((s.link l).state = .detect ∨ (s.link l).state = .equalize ∨ (s.link l).state = .lock → Answers (.ringLinkTrained l n) s fun t =>
         (t.link l).state = .hello ∧ (∃ b, Sends s t (.ringFlit l 2 b)) ∧ t.on Reg.XRN_LINK_STATUS.NARROW l = n) ∧
       ((s.link l).state = .retrain → Answers (.ringLinkTrained l n) s fun t => (t.link l).state = .active ∧
         t.on Reg.XRN_LINK_STATUS.NARROW l = n)) ∧
  (∀ (s : State) l h, (s.link l).state = .hello → Answers (.ringHello l h) s fun t =>
       (t.link l).state = if wiringGood s.headB l h && versionGood h then .active else .isolated) ∧
  (∀ (s : State) l n, s.linkExists l = true → (s.link l).state ≠ .down → Answers (.ringLinkDown l n) s fun t =>
       (t.link l).state = .down ∧ t.rd Reg.XRN_LINK_STATUS.STATE l = LinkState.down.code ∧ t.on Reg.XRN_LINK_STATUS.PEER l = false) ∧
  (∀ (s : State) l, ((s.link l).state = .detect ∨ (s.link l).state = .equalize ∨ (s.link l).state = .lock ∨ (s.link l).state = .hello →
         Answers (.ringTrainingTimeout l) s fun t => (t.link l).state = .down) ∧
       ((s.link l).state = .retrain → 2 ≤ (s.link l).failed → Answers (.ringTrainingTimeout l) s fun t => (t.link l).state = .down) ∧
       ((s.link l).state = .retrain → (s.link l).failed < 2 → Answers (.ringTrainingTimeout l) s fun t =>
         t.link l = { s.link l with failed := (s.link l).failed + 1 })) ∧
  (∀ (s : State) l n, (s.link l).state = .active →
       ((s.link l).seq = n % 1024 → 4 ≤ (s.link l).replays → Answers (.ringReplayRequest l n) s fun t => (t.link l).state = .retrain) ∧
       ((s.link l).seq ≠ n % 1024 → Answers (.ringReplayRequest l n) s fun t => Sends s t (.ringFlit l 2 [n % 1024]) ∧
         (t.link l).seq = n % 1024 ∧ (t.link l).replays = 1)) ∧
  (∀ (s : State) l, (s.link l).state = .active → Answers (.partialMessageTimeout l) s fun t =>
       t.rd Reg.XRN_DROP.PARTIAL = Reg.XRN_DROP.PARTIAL.fit (satAdd Reg.XRN_DROP.PARTIAL.width (s.rd Reg.XRN_DROP.PARTIAL) 1)) ∧
  (∀ (s : State) l n k d, (s.link l).state = .active → s.xrn.gathering = false → d < 16 →
       s.xrn.enumSeen = none ∨ (∃ u v w, s.xrn.enumSeen = some (u, v, w) ∧ u < n) → Answers (.enumerationFlit l n k d) s fun t =>
         t.xrn.parent = some l ∧ t.xrn.depth = d + 1 ∧ t.on Reg.XRN_ROLE.IS_KEEPER = false ∧ t.rd Reg.XRN_TERM.TERM = Reg.XRN_TERM.TERM.fit n ∧
         t.rd Reg.XRN_KEEPER_ID.ID = Reg.XRN_KEEPER_ID.ID.fit k) ∧
  (∀ (s : State) j, s.isKeeper = true → (s.xrn.gathering = true → Answers (.enumerationJoin j) s fun t => j ∈ t.xrn.joins) ∧
       (∀ a, s.xrn.gathering = false → s.limitsGood j = true → grantAddress s.xrn.dir j = some a → Answers (.enumerationJoin j) s fun t =>
         (Table.find a t.xrn.dir).map DirEntry.device = some j.hello.device ∧ ∃ b c, Casts s t (.ring 0x11 b c))) ∧
  (∀ (s : State) d, s.isKeeper = false → (addressOf d s.fuses.deviceId = none → Answers (.enumerationDirectory d []) s fun t =>
         t.xrn.state = .isolated ∧ t.on Reg.XRN_ADDR.VALID = false) ∧
       (∀ a, addressOf d s.fuses.deviceId = some a → (Table.get a { device := 0 } d).state ≠ .gone → s.xrn.state = .isolated →
         Answers (.enumerationDirectory d []) s fun t => t.xrn.state = .joining ∧ t.on Reg.XRN_ADDR.VALID = true ∧
           t.rd Reg.XRN_ADDR.ASSIGNED = Reg.XRN_ADDR.ASSIGNED.fit a ∧ t.xrn.floor = max s.xrn.floor (Table.get a { device := 0 } d).floor ∧
             ∃ b c, Casts s t (.ring 0x11 b c))) ∧
  (∀ (s : State), s.isKeeper = true → s.xrn.gathering = true → Answers .keeperGatherExpiry s fun t => t.xrn.gathering = false ∧
       t.ringTime = max s.ringTime ((s.xrn.joins.map fun j => j.hello.floor).foldl max s.xrn.floor) ∧ ∃ b c, Casts s t (.ring 0x11 b c)) ∧
  (∀ (s : State) a e, Table.find a s.xrn.dir = some e → s.isKeeper = true → e.state = .gone → Answers (.addressReserveExpiry a) s fun t =>
       (Table.find a t.xrn.dir).map DirEntry.device = some 0 ∧ (Table.find a t.xrn.dir).map DirEntry.floor = some e.floor ∧
         ∃ b c, Casts s t (.ring 0x11 b c))

/-- Commands on leaving, ring time and the keeper complete with their effect. Derived from R344, R345, R348, R349, R351, R352, R354. LEAVE
of a device that is not Gone sends a leave notice on every Active link, and the device is Gone. LEAVE_NOTICE of a device in the directory
shows it Gone there. DEVICE_ISOLATED_TIMEOUT of this device, no keeper, with every link Down, makes it Gone; of another device, at the
keeper, the directory shows it Gone. TIME_FLIT_SEND on an Active link sends a time flit under the next sequence number. TIME_FLIT on an
Active link is noted with its sequence, and shows the mean of the last 1,024 delays in LINK_DELAY; usable time from the parent ends a
holdover. PARENT_TIME_LOST takes another Active neighbour of a lower depth and this term, with usable time, as parent; without one the
device is in holdover. HOLDOVER_EXPIRY of an Attached device in holdover takes it to Locking. KEEPER_LOST at an Attached deputy makes it the
keeper of the next term, and it sends the directory. FLOOR_PASSED of a Joining device whose floor ring time has reached takes it to Locking.
TIME_CEILING_REWRITE within 2^35 ticks of the ceiling writes a boot record with the ceiling 2^36 ticks ahead of ring time. -/
def Obligations.RingTime : Prop :=
  (∀ (s : State), s.writable 16 = true → s.xrn.state ≠ .gone → Answers .leave s fun t => t.xrn.state = .gone ∧
       ∀ l ∈ s.activeLinks, Sends s t (.ringFlit l 2 [s.fuses.deviceId])) ∧
  (∀ (s : State) d a, addressOf s.xrn.dir d = some a →
    Answers (.leaveNotice d) s fun t => (Table.find a t.xrn.dir).map DirEntry.state = some .gone) ∧
  (∀ (s : State) d, (d = s.fuses.deviceId → s.isKeeper = false → (∀ l, l < 4 → (s.link l).state = .down) →
    Answers (.deviceIsolatedTimeout d) s fun t => t.xrn.state = .gone) ∧
       (∀ a, d ≠ s.fuses.deviceId → s.isKeeper = true → addressOf s.xrn.dir d = some a → (Table.get a { device := 0 } s.xrn.dir).state ≠ .gone →
         (s.xrn.dir.any fun e => e.2.device == d && e.2.state != .gone) = true → Answers (.deviceIsolatedTimeout d) s fun t =>
           (Table.find a t.xrn.dir).map DirEntry.state = some .gone)) ∧
  (∀ (s : State) l, (s.link l).state = .active → Answers (.timeFlitSend l) s fun t => (∃ b, Sends s t (.ringFlit l 3 b)) ∧
       (t.link l).sentSeq = ((s.link l).sentSeq + 1) % 2 ^ 32) ∧
  (∀ (s : State) l f, (s.link l).state = .active → Answers (.timeFlit l f) s fun t =>
       (s.xrn.parent ≠ some l → (t.link l).recvSeq = f.seq ∧ t.rd Reg.XRN_LINK_DELAY.DELAY l = Reg.XRN_LINK_DELAY.DELAY.fit (unsignedOf 32
         (meanDelay ((f.delay (signedOf 16 (s.rd Reg.XRN_LINK_ASYM.ASYM l)) :: (s.link l).delays).take 1024)))) ∧
       (s.isKeeper = false → s.xrn.parent = some l → f.valid = true → t.xrn.holdover = false)) ∧
  (∀ (s : State), s.isKeeper = false → s.xrn.parent.isSome = true → Answers .parentTimeLost s fun t =>
       match s.activeLinks.find? fun l => some l != s.xrn.parent && (s.link l).timeValid && (s.link l).term == s.rd Reg.XRN_TERM.TERM && decide ((s.link l).depth < s.xrn.depth) with
       | some l => t.xrn.parent = some l ∧ t.xrn.depth = (s.link l).depth + 1
       | none => t.xrn.holdover = true ∧ t.on Reg.XRN_TIME_STATUS.HOLDOVER = true) ∧
  (∀ (s : State), s.xrn.holdover = true → s.xrn.state = .attached → Answers .holdoverExpiry s fun t => t.xrn.state = .locking) ∧
  (∀ (s : State), s.on Reg.XRN_ROLE.DEPUTY_EN = true → s.isKeeper = false → s.xrn.state = .attached → Answers .keeperLost s fun t =>
       t.isKeeper = true ∧ t.rd Reg.XRN_TERM.TERM = (s.rd Reg.XRN_TERM.TERM + 1) % 2 ^ 32 ∧
       t.rd Reg.XRN_KEEPER_ID.ID = Reg.XRN_KEEPER_ID.ID.fit s.fuses.deviceId ∧ ∃ b c, Casts s t (.ring 0x11 b c)) ∧
  (∀ (s : State), s.xrn.state = .joining → s.xrn.floor ≤ s.ringTime → Answers .floorPassed s fun t => t.xrn.state = .locking) ∧
  (∀ (s : State), s.bootRecord.ceiling ≤ s.ringTime + 2 ^ 35 → Answers .timeCeilingRewrite s fun t =>
       t.bootRecord.ceiling = s.ringTime + 2 ^ 36 ∧ t.rd Reg.XRN_TIME_CEILING.TICKS = Reg.XRN_TIME_CEILING.TICKS.fit (s.ringTime + 2 ^ 36))

/-- Supply, reset, straps, boot and recovery commands complete with their effect. Derived from R178, R418, R421, R442, R443, R447, R457,
R459, R469, R488, R491, R498. VIN_GOOD starts the converter, counts a power cycle, and leaves the part just out of a power-on reset.
VIN_COLLAPSE stops the converter, empties DDR and resets the part. VIN_OVERVOLTAGE does the same, latching an overvoltage stop.
RESET_BALL_ASSERT with VIN good resets the part with cause 1, or is latched while a destage is under way; with VIN not good it moves the pin
alone. PART_SELF_RESET with VIN good, the destage sealed, resets the part with cause 2. STRAP_SAMPLE latches the straps and releases the
boot flash's resets, which a part reset has pulled low; the ROM waits for recovery at STRAP_BOOT 2 and 3, and else loads the confirmed slot;
with TESTEN high nothing happens. BOOT_IMAGE_LOADED runs an image that passes every check; one that fails is named in LAST_FAIL, and the
other slot is tried, or, the second failing or the other slot only pending, the ROM waits for recovery. FIRMWARE_START, the firmware running
and DDR not trained, trains it. RECOVERY_GO while the ROM waits runs a good image of the length set, and shows the fault of another.
RECOVERY_REQUEST with SERVE_EN sends the confirmed image to the peer. RECOVERY_IMAGE gathers the image; the last part has it checked and
run. -/
def Obligations.ResetAndBoot : Prop :=
  (∀ (s : State) b, s.power.vinGood = false → Answers (.vinGood b) s fun t => t.power.vinGood = true ∧ t.power.converterOn = true ∧
       t.evt.cycles = s.nor.savedCycles + 1 ∧ t.nor.savedCycles = s.nor.savedCycles + 1 ∧ t.rd Reg.OLD_RESET_CAUSE.PART = 0 ∧
         t.boot.sampled = false) ∧
  (∀ (s : State) b, s.power.converterOn = true → Answers (.vinCollapse b) s fun t => t.power.vinGood = false ∧ t.power.converterOn = false ∧
       t.power.stopLatch = .undervoltage ∧ t.mem = [] ∧ t.boot.sampled = false) ∧
  (∀ (s : State) b, s.power.converterOn = true → Answers (.vinOvervoltage b) s fun t => t.power.vinGood = false ∧ t.power.converterOn = false ∧
       t.power.stopLatch = .overvoltage ∧ t.mem = []) ∧
  (∀ (s : State), (s.power.vinGood = false → exec .resetBallAssert s = .next { s with pins.resetN := false }) ∧
       (s.power.vinGood = true → s.warned = true → s.on Reg.DDR_PF_STATUS.SEALED = false →
         Answers .resetBallAssert s fun t => t.pins.resetLatched = true) ∧
       (s.power.vinGood = true → s.warned = false → Answers .resetBallAssert s fun t => t.rd Reg.OLD_RESET_CAUSE.PART = 1 ∧
         t.boot.sampled = false ∧ t.pins.resetN = false ∧ t.pins.xspiResetN = false)) ∧
  (∀ (s : State) x b, s.pins.testen = true → exec (.strapSample x b) s = .next s) ∧
  (∀ (s : State), s.power.vinGood = true → s.on Reg.DDR_PF_STATUS.SEALED = true →
    Answers .partSelfReset s fun t => t.rd Reg.OLD_RESET_CAUSE.PART = 2 ∧ t.boot.sampled = false) ∧
  (∀ (s : State) x b, s.boot.sampled = false → s.power.converterOn = true → s.pins.testen = false →
    Answers (.strapSample x b) s fun t => t.straps = x ∧ t.boot.sampled = true ∧
       t.pins.xspiResetN = true ∧
       if x.boot = 2 ∨ x.boot = 3 then t.rd Reg.BOOT_STATUS.STAGE = 4
       else t.rd Reg.BOOT_STATUS.STAGE = 1 ∧ t.boot.loading = true ∧ t.boot.trying = t.bootRecord.slot) ∧
  (∀ (s : State), s.boot.loading = true → Answers .bootImageLoaded s fun t => match s.checkImage (s.slotImage s.boot.trying) with
       | none => t.rd Reg.BOOT_STATUS.STAGE = 3 ∧ t.boot.image = s.slotImage s.boot.trying
       | some code => t.rd Reg.BOOT_STATUS.LAST_FAIL = Reg.BOOT_STATUS.LAST_FAIL.fit code ∧
           if s.boot.secondTry = true ∨ s.bootRecord.pending = true then t.rd Reg.BOOT_STATUS.STAGE = 4
           else t.rd Reg.BOOT_STATUS.STAGE = 1 ∧ t.boot.trying = !s.boot.trying ∧ t.boot.secondTry = true) ∧
  (∀ (s : State) g b n e, s.running = true → s.test.trained = false → Answers (.firmwareStart g b n e) s fun t => t.test.trained = true ∧
    t.test.installed = n ∧
       ∀ c, c < 16 → t.ddrChannel c = if b.contains c then .lost else if g.contains c then .inService else .noDimm) ∧
  (∀ (s : State) b, s.rd Reg.BOOT_STATUS.STAGE = 4 →
    Answers (.recoveryGo b) s fun t => match s.checkImage (b.take (s.rd Reg.BOOT_RCV_LEN.BYTES)) with
       | none => t.rd Reg.BOOT_STATUS.STAGE = 3
       | some code => t.rd Reg.BOOT_RESULT.STATUS = Reg.BOOT_RESULT.STATUS.fit code) ∧
  (∀ (s : State), s.running = true → s.on Reg.BOOT_CFG.SERVE_EN = true →
    Answers .recoveryRequest s fun t => Rings s t (.ring 0x71 [] s.boot.confirmedCopy)) ∧
  (∀ (s : State) b, s.boot.recovering = true → (Answers (.recoveryImage b false) s fun t => t.boot.rx = s.boot.rx ++ b) ∧
       Answers (.recoveryImage b true) s fun t => match s.checkImage (s.boot.rx ++ b) with
         | none => t.rd Reg.BOOT_STATUS.STAGE = 3
         | some code => t.rd Reg.BOOT_RESULT.STATUS = Reg.BOOT_RESULT.STATUS.fit code ∧ t.boot.rx = [])

/-- Commands of firmware update, trial and revocation complete with their effect. Derived from R448, R451, R453, R454, R455.
FIRMWARE_IMAGE_DOWNLOAD within 24 MiB ends well with the staged length moved on; beyond it ends with 0/02. FIRMWARE_COMMIT of actions 0 and
3 into the slot that does not run begins the write where no check refuses it; another action ends with 0/02, and another slot with 1/06.
VERIFY shows the result of the checks of the staged image. BOOT_WRITE that is not refused begins: BUSY is set and the slot that does not run
is empty; a refused one shows its code. BOOT_WRITE_COMPLETE of a good write that is not to activate leaves the image in its slot and a
pending record; of a failed one it shows 0xA018, and of a mismatch 0xA019. ACTIVATE that is not refused begins the pause, commands held; a
refused one shows its code. ACTIVATION_PAUSE_END lifts the hold; TRIAL is set after an activation, and clear after a fall-back. CONFIRM on
trial raises the version fuses to the running image's, names the new slot in the boot record and ends the trial; off trial it shows 0xA017.
REVERT on trial begins the fall-back of reason 1; off trial it shows 0xA017. CONFIRM_WINDOW_EXPIRY on trial, the window passed, begins the
fall-back of reason 2. FIRMWARE_WATCHDOG_EXPIRY of running firmware begins the fall-back of reason 3. REVOKE blows the fuse of a key set
that no image in use needs and that is not the last; else it shows 0xA017 and blows none. -/
def Obligations.FirmwareUpdate : Prop :=
  (∀ (s : State) n c, s.ready n .firmwareDownload = some c →
       (25165824 < 4 * c.cap.cdw11 + 4 * (c.cap.cdw10 + 1) → Answers (.firmwareImageDownload n) s fun t => t.ended n = some (generic 0x02)) ∧
       (4 * c.cap.cdw11 + 4 * (c.cap.cdw10 + 1) ≤ 25165824 → Answers (.firmwareImageDownload n) s fun t => t.ended n = some success ∧
         t.rd Reg.BOOT_STAGE_LEN.BYTES = Reg.BOOT_STAGE_LEN.BYTES.fit (if c.cap.cdw11 = 0 then 4 * (c.cap.cdw10 + 1)
           else max (s.rd Reg.BOOT_STAGE_LEN.BYTES) (4 * c.cap.cdw11 + 4 * (c.cap.cdw10 + 1))))) ∧
  (∀ (s : State) n c, s.ready n .firmwareCommit = some c →
       (c.cap.cdw10 / 8 % 8 ≠ 0 → c.cap.cdw10 / 8 % 8 ≠ 3 → Answers (.firmwareCommit n) s fun t => t.ended n = some (generic 0x02)) ∧
       (c.cap.cdw10 / 8 % 8 = 0 ∨ c.cap.cdw10 / 8 % 8 = 3 → c.cap.cdw10 % 8 ≠ 1 → c.cap.cdw10 % 8 ≠ 2 → Answers (.firmwareCommit n) s fun t =>
         t.ended n = some { sct := 1, sc := 0x06 }) ∧
       (c.cap.cdw10 / 8 % 8 = 0 ∨ c.cap.cdw10 / 8 % 8 = 3 → c.cap.cdw10 % 8 = (if s.runSlot then 1 else 2) → s.bootReady = true →
         s.writeRefused = none →
         Answers (.firmwareCommit n) s fun t => t.boot.op = some .write ∧ t.boot.byNvme = some n ∧ t.on Reg.BOOT_RESULT.BUSY = true)) ∧
  (∀ (s : State), s.bootReady = true → Answers .verify s fun t => t.on Reg.BOOT_RESULT.BUSY = false ∧
       t.rd Reg.BOOT_RESULT.STATUS = Reg.BOOT_RESULT.STATUS.fit ((s.checkImage s.staged).getD 0)) ∧
  (∀ (s : State), s.bootReady = true → Answers .bootWrite s fun t => match s.writeRefused with
       | none => t.boot.op = some .write ∧ t.on Reg.BOOT_RESULT.BUSY = true ∧ t.slotImage (!s.runSlot) = []
       | some code => t.rd Reg.BOOT_RESULT.STATUS = Reg.BOOT_RESULT.STATUS.fit code ∧ t.on Reg.BOOT_RESULT.BUSY = false) ∧
  (∀ (s : State), s.boot.op = some .write → (s.boot.thenActivate = false → Answers (.bootWriteComplete .good) s fun t =>
         t.slotImage (!s.runSlot) = s.boot.rx ∧ t.bootRecord.pending = true ∧ t.rd Reg.BOOT_RESULT.STATUS = 0 ∧ t.boot.op = none) ∧
       (Answers (.bootWriteComplete .failed) s fun t => t.rd Reg.BOOT_RESULT.STATUS = 0xA018 ∧ t.boot.op = none) ∧
       Answers (.bootWriteComplete .mismatch) s fun t => t.rd Reg.BOOT_RESULT.STATUS = 0xA019 ∧ t.boot.op = none) ∧
  (∀ (s : State), s.bootReady = true → Answers .activate s fun t => match s.activateRefused with
       | none => t.boot.pause = true ∧ t.on Reg.CMD_HOLD.ACTIVATION = true ∧ t.on Reg.BOOT_RESULT.BUSY = true
       | some code => t.rd Reg.BOOT_RESULT.STATUS = Reg.BOOT_RESULT.STATUS.fit code ∧ t.boot.pause = s.boot.pause) ∧
  (∀ (s : State) d, s.boot.pause = true → Answers (.activationPauseEnd d) s fun t => t.boot.pause = false ∧
    t.on Reg.CMD_HOLD.ACTIVATION = false ∧
       t.on Reg.BOOT_STATUS.TRIAL = decide (s.boot.fallReason = 0)) ∧
  (∀ (s : State), s.bootReady = true → (s.onTrial = true →
    Answers .confirm s fun t => t.fuses.svn = max s.fuses.svn (min 255 (s.rd Reg.BOOT_SVN.RUNNING)) ∧
         t.bootRecord.slot = !s.bootRecord.slot ∧ t.bootRecord.pending = false ∧ t.onTrial = false ∧ t.boot.confirmedCopy = s.boot.image) ∧
       (s.onTrial = false → Answers .confirm s fun t => t.rd Reg.BOOT_RESULT.STATUS = 0xA017 ∧ t.fuses = s.fuses)) ∧
  (∀ (s : State), s.bootReady = true → (s.onTrial = true → Answers .revert s fun t => t.boot.pause = true ∧ t.boot.fallReason = 1) ∧
       (s.onTrial = false → Answers .revert s fun t => t.rd Reg.BOOT_RESULT.STATUS = 0xA017 ∧ t.boot.pause = s.boot.pause)) ∧
  (∀ (s : State) e, s.onTrial = true → s.boot.pause = false → s.boot.trialLeft = some e → e ≤ s.clock → Answers .confirmWindowExpiry s fun t =>
       t.boot.pause = true ∧ t.boot.fallReason = 2 ∧ t.on Reg.CMD_HOLD.ACTIVATION = true) ∧
  (∀ (s : State), s.running = true → Answers .firmwareWatchdogExpiry s fun t => t.boot.pause = true ∧ t.boot.fallReason = 3 ∧
    t.on Reg.CMD_HOLD.ACTIVATION = true) ∧
  (∀ (s : State) k, s.bootReady = true → Answers (.revoke k) s fun t =>
       if keySet s.boot.image = k % 4 ∨ keySet (s.slotImage (s.on Reg.BOOT_STATUS.CONFIRMED_SLOT)) = k % 4 ∨
           (s.on Reg.BOOT_STATUS.PENDING && keySet (s.slotImage (!s.on Reg.BOOT_STATUS.CONFIRMED_SLOT)) == k % 4) = true ∨
             (s.fuses.revoked ||| 2 ^ (k % 4)) % 16 = 15 then
         t.rd Reg.BOOT_RESULT.STATUS = 0xA017 ∧ t.fuses = s.fuses
       else t.fuses = { s.fuses with revoked := s.fuses.revoked ||| 2 ^ (k % 4) } ∧ t.rd Reg.BOOT_RESULT.STATUS = 0)

/-- Self-test, rotation and DDR calibration commands complete with their effect. Derived from R460, R462, R463, R464, R466, R475.
TEST_QUARTER of a fenced quarter, or of one with a standby in service, starts its test; quarter 0 and one beyond 41 are refused with 0xB006.
TEST_UNIT of a bank of an Active QM quarter with a good spare starts its test (that one without is refused is the model's choice, log entry
87); of a tile that no run holds it takes the tile out of service and starts. CALIBRATE_CHANNEL of a channel in service shows 0 or 0xB009 by
its outcome; of another it is refused with 0xB006. TEST_STANDBY of a quarter whose kind has a standby powered down starts its test; of
another it is refused with 0xB006. TEST_COMPLETE of the standby's, a quarter's own or a rotation's test shows its outcome and ends it; a
failed one leaves 0xB003. ROTATION_TIMER, rotation set and nothing against it, starts the rotation to the kind's standby. STANDBY_TEST_TIMER
starts the test of the kind's standby. DDR_CALIBRATION of a channel in service: the second failure in a row loses the channel; a good one
forgets the first. DDR_CHANNEL_LOST of a channel in service takes it out, and with it a second lost one is the loss of the head. -/
def Obligations.SelfTests : Prop :=
  (∀ (s : State) q f, s.testReady = true → (q = 0 ∨ 41 < q → Answers (.testQuarter q f) s fun t => t.rd Reg.TST_RESULT.STATUS = 0xB006 ∧
    t.test = s.test) ∧
       (1 ≤ q → q ≤ 41 → quarterKind q ≠ .qd → (s.quarter q).state = .fenced → Answers (.testQuarter q f) s fun t =>
         t.test.job = some (.direct q) ∧ t.on Reg.TST_RESULT.BUSY = true) ∧
       (∀ b, 1 ≤ q → q ≤ 41 → (s.quarter q).state = .active → (s.quarter q).role = .active → s.standbyOf (quarterKind q) = some b →
         Answers (.testQuarter q f) s fun t => t.test.job = some (.rotation q b) ∧ t.on Reg.TST_RESULT.BUSY = true)) ∧
  (∀ (s : State) q u, s.testReady = true → (s.quarter q).state = .active →
       (quarterKind q = .qm → u ≤ 16 → (s.quarter q).badBanks.contains (s.quarter q).spare = false →
         Answers (.testUnit q u) s fun t => t.test.job = some (.unit q u) ∧ t.on Reg.TST_RESULT.BUSY = true) ∧
       (quarterKind q = .qx → u < 8 → (s.prg.runs.any fun e => Table.has (8 * (q - 36) + u) e.2.tiles) = false →
         Answers (.testUnit q u) s fun t =>
         t.test.job = some (.unit q u) ∧ (t.rd Reg.PRG_TILE_INSERVICE.TILES).testBit (8 * (q - 36) + u) = false)) ∧
  (∀ (s : State) c g, s.testReady = true → (s.ddrChannel c = .inService →
    Answers (.calibrateChannel c g) s fun t => t.rd Reg.TST_RESULT.STATUS = if g then 0 else 0xB009) ∧
       (s.ddrChannel c ≠ .inService → Answers (.calibrateChannel c g) s fun t => t.rd Reg.TST_RESULT.STATUS = 0xB006)) ∧
  (∀ (s : State) q, s.testReady = true → Answers (.testStandby q) s fun t => match s.standbyOf (quarterKind q) with
       | some b => t.test.job = some (.standby b) ∧ t.on Reg.TST_RESULT.BUSY = true
       | none => t.rd Reg.TST_RESULT.STATUS = 0xB006) ∧
  (∀ (s : State) q p, s.test.job = some (.standby q) ∨ s.test.job = some (.direct q) ∨
         (∃ b, s.test.job = some (.rotation q b) ∧ (s.quarter q).role = .underTest) → (s.quarter q).state = .active →
           Answers (.testComplete p) s fun t =>
       t.test.job = none ∧ t.on Reg.TST_RESULT.BUSY = false ∧ t.rd Reg.TST_RESULT.STATUS = (if p then 0 else 0xB003) ∧
         t.on Reg.TST_QSTAT.LAST_PASS q = p) ∧
  (∀ (s : State) k a b, s.testReady = true → s.test.job = none → s.rd Reg.TST_CFG.ROTATE_DAYS ≠ 0 → s.warned = false →
    s.on Reg.CMD_HOLD.ACTIVATION = false →
       s.rd Reg.CMD_PS_CFG.EFFECTIVE ≠ 3 → s.standbyOf k = some b → k.after b = some a → (s.quarter a).state = .active →
         (s.quarter a).role = .active →
       Answers (.rotationTimer k) s fun t => t.test.job = some (.rotation a b) ∧ t.on Reg.TST_RESULT.BUSY = true) ∧
  (∀ (s : State) k b, s.testReady = true → s.test.job = none → s.warned = false → s.standbyOf k = some b →
    Answers (.standbyTestTimer k) s fun t =>
       t.test.job = some (.standby b) ∧ t.on Reg.TST_RESULT.BUSY = true) ∧
  (∀ (s : State) c, s.ddrChannel c = .inService → (Answers (.ddrCalibration c true) s fun t => Table.has c t.test.calFails = false) ∧
       (Table.has c s.test.calFails = true → Answers (.ddrCalibration c false) s fun t => t.ddrChannel c = .lost) ∧
       (Table.has c s.test.calFails = false → Answers (.ddrCalibration c false) s fun t => t.ddrChannel c = .inService ∧
         Table.has c t.test.calFails = true)) ∧
  (∀ (s : State) c, s.ddrChannel c = .inService → Answers (.ddrChannelLost c) s fun t => t.ddrChannel c = .lost ∧
       (2 ≤ (t.test.channels.countP fun e => e.2 == .lost) → t.power.headLost = true ∧ t.pins.faultN = false))

/-- Commands on event records, histograms and registers complete with their effect. Derived from R11, R13, R14, R383, R469, R471, R472,
R473, R476, R483, R500, R502. EVENT_PAGE_WRITE of a page that is due, with no clear running, puts it first in the running area.
EVENT_CONTROL_SAVE stores the power cycles and the operating time, and changes nothing else. EVENT_READ_SELECT takes up the record of the
index, or shows that there is none. NEW_NONCE makes a nonce, whatever its value, and notes when. CLEAR_GO uses up the nonce: with a good one
the clear begins, or is refused with 0xB022 where the front area is full; without one it is refused with 0xB021. CLEAR_COMPLETE leaves the
running area with the clearing record alone, and clears BUSY. HIST_SWAP of running firmware starts the counts again from zero under the next
SEQ. BAD_SIZE_ACCESS of a bad size is logged through AER, and a read is answered Unsupported Request. RC_READ of a block that does not
answer yet gives zero; of the map cache's parity count it gives the count and clears it, but for bits set in the same clock. REGISTER_WRITE
of EVT_RATE, an RWL register, sets each field whose value is in its range while the block's lock is open and changes nothing afterwards; of
LFL_LANE_STATUS it clears CHANGE by a 1, unless the part has set it in the same clock. SETUP_LOCK_WRITE of 1 to an open lock locks the block
where every check passes, and else shows the first fault in OLD_LOCK_FAULT and locks nothing. -/
def Obligations.EventsAndRegisters : Prop :=
  (∀ (s : State), s.pageDue = true → s.evt.clearing = none → pageTake s.evt.buffer 0 ≠ [] → Answers .eventPageWrite s fun t =>
       t.nor.running.head? = some (pageTake s.evt.buffer 0)) ∧
  (∀ (s : State), exec .eventControlSave s = .next { s with nor.savedCycles := s.evt.cycles, nor.savedTicks := s.evt.opTicks }) ∧
  (∀ (s : State) i a, Answers (.eventReadSelect i a) s fun t => t.evt.selected = s.recordAt (i % 2 ^ 19) (a % 2) ∧
       t.on Reg.EVT_READ_STAT.VALID = (s.recordAt (i % 2 ^ 19) (a % 2)).isSome) ∧
  (∀ (s : State), Answers .newNonce s fun t => ∃ v, t.evt.nonce = some (v % 2 ^ 64, s.clock) ∧
    t.rd Reg.EVT_CLEAR_NONCE.NONCE = Reg.EVT_CLEAR_NONCE.NONCE.fit v) ∧
  (∀ (s : State), s.evt.clearing = none → Answers .clearGo s fun t => t.evt.nonce = none ∧
       if s.clearAllowed = false then t.rd Reg.EVT_CLEAR_RESULT.STATUS = 0xB021 ∧ t.evt.clearing = none
       else if 4096 ≤ s.nor.front.length then t.rd Reg.EVT_CLEAR_RESULT.STATUS = 0xB022 ∧ t.evt.clearing = none
       else t.on Reg.EVT_CLEAR_RESULT.BUSY = true ∧ t.evt.clearing = s.evt.nonce.map Prod.fst) ∧
  (∀ (s : State) n, s.evt.clearing = some n → Answers .clearComplete s fun t => t.evt.clearing = none ∧ t.on Reg.EVT_CLEAR_RESULT.BUSY = false ∧
       t.nor.running = [[s.makeRecord 0xB020 (le 8 (s.nor.running.map List.length).sum ++ le 8 n ++ le 8 s.ringTime)]]) ∧
  (∀ (s : State), s.running = true → Answers .histSwap s fun t => t.evt.hist = [] ∧
    t.rd Reg.EVT_HIST_STAT.SEQ = (s.rd Reg.EVT_HIST_STAT.SEQ + 1) % 2 ^ 32) ∧
  (∀ (s : State) w a z, goodSize a z = false → Answers (.badSizeAccess w a z) s fun t => Sends s t (.aer 0) ∧ (w = false →
    Sends s t .unsupportedRequest)) ∧
  (∀ (s : State), s.power.converterOn = true → (∀ a z, goodSize a z = true → s.writable (a / 0x100000) = false →
    Answers (.rcRead a z) s fun t => Sends s t (.readValue a 0)) ∧
       (s.writable 13 = true → Answers (.rcRead 0xd00130 4) s fun t =>
         Sends s t (.readValue 0xd00130 ((s.rcSplit Reg.MAP_CACHE_PARITY.COUNT 0 0).1 % 2 ^ 32)) ∧
           t.rd Reg.MAP_CACHE_PARITY.COUNT = Reg.MAP_CACHE_PARITY.COUNT.fit (s.rcSplit Reg.MAP_CACHE_PARITY.COUNT 0 0).2)) ∧
  (∀ (s : State) v, s.power.converterOn = true → (s.writable 4 = true → s.locked 4 = false → Answers (.registerWrite 0x400004 4 v) s fun t =>
         t.rd Reg.EVT_RATE.PER_S = (if v % 256 = 0 then s.rd Reg.EVT_RATE.PER_S else v % 256) ∧
         t.rd Reg.EVT_RATE.BURST = if v / 256 % 256 = 0 then s.rd Reg.EVT_RATE.BURST else v / 256 % 256) ∧
       (s.writable 4 = true → s.locked 4 = true → exec (.registerWrite 0x400004 4 v) s = .next s) ∧
       (∀ i, i < 32 → s.writable 15 = true → v.testBit 14 = true →
         Answers (.registerWrite (0xf01004 + 0x40 * i) 4 v) s fun t => t.on Reg.LFL_LANE_STATUS.CHANGE i =
         (s.rd Reg.LFL_LANE_STATUS.CHANGE i % 2 == 1 && s.raisedBits Reg.LFL_LANE_STATUS.CHANGE i 0 % 2 == 1))) ∧
  (∀ (s : State) b v, v % 2 = 1 → 1 ≤ b → b ≤ 21 → s.writable b = true → s.locked b = false →
    Answers (.setupLockWrite b v) s fun t => match s.lockFault b with
       | none => t.locked b = true
       | some (c, o) => t.locked b = false ∧ t.on Reg.OLD_LOCK_FAULT.VALID = true ∧ t.rd Reg.OLD_LOCK_FAULT.BLOCK = b ∧
           t.rd Reg.OLD_LOCK_FAULT.CAUSE = Reg.OLD_LOCK_FAULT.CAUSE.fit c ∧ t.rd Reg.OLD_LOCK_FAULT.OFFSET = Reg.OLD_LOCK_FAULT.OFFSET.fit o)

/-- A step takes the command at the front of the queue and runs it on the rest. Derived from R1, R7. For every command, queue and state: a
step of a state whose queue holds command c in front is the effect of c on that state with the rest of the queue. No word spells a command,
since no row of the table has bits; the state is then unchanged. -/
def Obligations.StepRunsTheFrontCommand : Prop :=
  (∀ (s : State) c r, s.pending = c :: r → step s = exec c { s with pending := r }) ∧
  (∀ (s : State) n w, decodeTableWord n w = none ∧ State.withFetchWord s n w = s)

/-- On an empty queue time passes (the model's choice, log entry 2): the step is a clock tick that moves time and what waits on the links.
Derived from R6, R13, R224, R335. For every state with an empty queue, by the model's own choice (log entry 2): a step answers the state one
clock later: eight ticks on the model's clock, DDR, the commands, the map and the supply as before, and ring time never back. What waits on
ring links and leaf lanes may leave. A leaf has accepted what no row answers, a block claimed being this head's (the model's choice, log
entry 119); where there is no such command the registers stay, and where nothing waits either, nothing is sent. What the registers hold is
what the new clock finds, and nothing has been set in it. -/
def Obligations.IdleStepIsATick : Prop :=
  (∀ (s : State), s.pending = [] → step s = .next s.tick ∧ s.tick.clock = s.clock + 8 ∧ s.tick.mem = s.mem ∧
       s.tick.power = s.power ∧ s.tick.cmd = s.cmd ∧ s.tick.map = s.map ∧ s.ringTime ≤ s.tick.ringTime ∧
       s.tick.holding.seen = s.tick.regs ∧ s.tick.holding.raised = [] ∧ (∃ new, s.tick.out = new ++ s.out) ∧
       ((∀ e ∈ s.lfl.ops, e.2.for_.answered = true) → s.tick.regs = s.regs ∧
         ((∀ e ∈ s.chan.waiting, e.2 = []) → (∀ e ∈ s.lfl.ops, e.2.waits = false) → s.tick.out = s.out))) ∧
  (∀ (s : State) id op b, s.pending = [] → s.lfl.ops = [(id, op)] → op.tag.isSome = true → op.for_ = .grant 0 b → ∃ t, step s = .next t ∧
       t.lfl.ops = [] ∧ Table.find b (t.leaf op.leaf).blocks = some true)

/-- After reset every field reads its reset value, the queue and memory are empty, and the plain data is in canonical form. Derived from
R10, R480. The state after reset: every element of every register field reads the field's Reset value. The queue is empty, DDR lists
nothing, no output has been sent, the holding registers are zero, no field has changed in the clock, and the canonical form holds. -/
def Obligations.ResetState : Prop :=
  (∀ f i j, State.reset.rd f i j = f.reset) ∧
  (State.reset.Inv ∧ State.reset.pending = [] ∧ State.reset.mem = [] ∧ State.reset.out = [] ∧
    (∀ b, Table.get b 0 State.reset.holding.upper = 0) ∧ ∀ f i j, State.reset.seen f i j = f.reset ∧ State.reset.raisedBits f i j = 0)

/-- No command stops the block: in every state every command has a next state. Derived from R11, R15, R383. For every command of the table,
every operand and every state, the command has a next state: none ends in a fault or a refusal. -/
def Obligations.EveryCommandAnswers : Prop :=
  (∀ (s : State) c, ∃ t, exec c s = .next t)

/-- Every step keeps the memory and the register file in their canonical form. Derived from R4, R7, R9. For every state whose DDR bytes are
listed at strictly rising addresses, none equal to what an unlisted address reads as, and whose register file has strictly rising keys: the
next state of a step, a command's or a tick, has both properties too. -/
def Obligations.StepKeepsInv : Prop :=
  (∀ (s : State) t, s.Inv → step s = .next t → t.Inv)

/-- Every command changes only the parts of the state that its footprint lists. Derived from R11, R478. A footprint lists, for every
command, the register blocks of R478, the components, DDR, the outputs and the free-value counter that it may change. For every command,
operand and state, the next state agrees with the state before in every part that the command's footprint does not list, in the queue and in
the model's clock. So a command whose footprint lists no DDR leaves every byte of DDR, and one that lists neither a block nor the register
file leaves every field of that block. -/
def Obligations.CommandsStayInTheirParts : Prop :=
  (∀ (s : State) c t, exec c s = .next t → OnlyIn (partsOf c) s t) ∧
  (∀ (s : State) c t, exec c s = .next t → (Part.mem ∉ partsOf c → t.mem = s.mem) ∧
       ∀ f i j, Part.regs ∉ partsOf c → Part.block f.block ∉ partsOf c → t.rd f i j = s.rd f i j)

/-- No command changes the queue or the clock, or takes back an output. Derived from R13, R394. For every command, operand and state, in the
next state the queue and the model's clock are as before, and the outputs sent before stand at the end of the list of outputs. -/
def Obligations.CommandsLeaveQueueAndOutputs : Prop :=
  (∀ (s : State) c t, exec c s = .next t → t.pending = s.pending ∧ t.clock = s.clock) ∧
  (∀ (s : State) c t, exec c s = .next t → ∃ new, t.out = new ++ s.out)

/-- Fuses are blown and never restored: no step lowers the version fuses or clears a revocation, and none changes the others. Derived from
R442, R447, R453, R455. For every state and every step to a next state: the version fuses do not fall, no revocation bit clears, and the
device ID, the stepping and the key hashes stay. Only STRAP_SAMPLE, CONFIRM and REVOKE change a fuse. -/
def Obligations.FusesOneWay : Prop :=
  (∀ (s : State) t, step s = .next t → s.fuses.svn ≤ t.fuses.svn ∧ (∀ k, s.fuses.revoked.testBit k = true → t.fuses.revoked.testBit k = true) ∧
       t.fuses.deviceId = s.fuses.deviceId ∧ t.fuses.stepping = s.fuses.stepping ∧ t.fuses.keyHashes = s.fuses.keyHashes) ∧
  (∀ (s : State) c t, exec c s = .next t → t.fuses ≠ s.fuses → (∃ x b, c = .strapSample x b) ∨ c = .confirm ∨ ∃ k, c = .revoke k)

/-- A set-up lock in force is released by no command but a reset of its block's domain. Stated: R14. For every command, operand and state,
and each of the blocks 1 to 21 with its set-up lock in force (its bit of OLD_LOCK_STATUS.LOCKED set): after the command the lock is in force
still, unless the command resets the domain: VIN_GOOD, VIN_COLLAPSE, VIN_OVERVOLTAGE, RESET_BALL_ASSERT, PART_SELF_RESET or DESTAGE_SEALED
for any block, FUNCTION_RESET or PCIE_PERST_ASSERT for CHI and DMA (6 and 7). In particular no register write releases one, at any address
and of any value. -/
def Obligations.LocksStand : Prop :=
  (∀ (s : State) c b t, exec c s = .next t → 1 ≤ b → b ≤ 21 → s.locked b = true → resetsDomain b c = false → t.locked b = true) ∧
  (∀ (s : State) a z v b, 1 ≤ b → b ≤ 21 → s.locked b = true → Answers (.registerWrite a z v) s fun t => t.locked b = true)

/-- The BAR0 space beyond the blocks reads as zero and ignores writes. Stated: R8. For every BAR0 address from 0x0160_0000 to 0x03FF_FFFF
and every state whose converter runs: a read of a good size returns zero, and does nothing else; a write has no effect at all. -/
def Obligations.ReservedSpace : Prop :=
  (∀ (s : State) a z, 0x01600000 ≤ a → a ≤ 0x03FFFFFF → goodSize a z = true → s.power.converterOn = true →
    exec (.rcRead a z) s = .next (s.send (.readValue a 0))) ∧
  (∀ (s : State) a z v, 0x01600000 ≤ a → a ≤ 0x03FFFFFF → exec (.registerWrite a z v) s = .next s)

/-- An offset inside a block that no table defines reads as zero and ignores writes. Derived from R479, R383. For every 4-byte access at an
address where no field of a register table stands, the converter running: the read returns zero and does nothing else, and a write has no
effect. -/
def Obligations.UndefinedOffsets : Prop :=
  (∀ (s : State) a v, Reg.fieldsAt a = [] → a % 4 = 0 → s.power.converterOn = true →
       exec (.rcRead a 4) s = .next (s.send (.readValue a 0)) ∧ exec (.registerWrite a 4 v) s = .next s)

/-- A part reset and a function reset return the fields of their domain to the Reset value. Derived from R480, R384, R443, R502. For every
state: after the reset ball has reset the part, every field but the six that take a fuse, the cause or the last trip reads its Reset value.
After a function reset every field of CHI and DMA but those of CHI_LINK reads its Reset value, their locks are clear, DMA's holding register
is zero, and every other lock stands. -/
def Obligations.ResetDomains : Prop :=
  (∀ (s : State), s.power.vinGood = true → s.warned = false → Answers .resetBallAssert s fun t => ∀ f i j,
       (∀ g ∈ [Reg.OLD_RESET_CAUSE.PART, Reg.OLD_ID.STEPPING, Reg.BOOT_SVN.FUSED, Reg.BOOT_SVN.REVOKED, Reg.XRN_DEVICE_ID.ID, Reg.TMP_STATUS.LAST_TRIP], f.id ≠ g.id) →
       t.rd f i j = f.reset) ∧
  (∀ (s : State) x, Answers (.functionReset x) s fun t => (∀ f i j, f.block = 6 ∨ f.block = 7 →
         (∀ g ∈ [Reg.CHI_LINK.UP, Reg.CHI_LINK.SPEED, Reg.CHI_LINK.WIDTH, Reg.CHI_LINK.FLIT], f.id ≠ g.id) → t.rd f i j = f.reset) ∧
       t.locked 6 = false ∧ t.locked 7 = false ∧ Table.get 7 0 t.holding.upper = 0 ∧ ∀ b, 1 ≤ b → b ≤ 21 → b ≠ 6 → b ≠ 7 →
         t.locked b = s.locked b)

/-- A 64-bit RC counter is read whole by 8 bytes, and by halves through the holding register of its block. Derived from R502, R11. For each
of the 64-bit fields of access RC (BND_COMP_BYTES_IN and OUT, REP_BYTES_OUT and IN, DMA_BYTES), in a block that answers: these five are all
of them. The value is split into what the clock began with, which is read, and what the part has added in the clock, which stays; where
nothing was added, all of it is read. An 8-byte read returns the first and leaves the second; a read of the lower half returns bits 31 to 0
of the first, copies the rest of it into the holding register and leaves the second; a read of the upper half returns the holding register
and changes nothing else. -/
def Obligations.HalvesOfWideCounters : Prop :=
  (∀ f ∈ Reg.all, f.acc = .rc → f.wide = true →
    f ∈ [Reg.BND_COMP_BYTES_IN.BYTES, Reg.BND_COMP_BYTES_OUT.BYTES, Reg.REP_BYTES_OUT.BYTES, Reg.REP_BYTES_IN.BYTES, Reg.DMA_BYTES.BYTES]) ∧
  (∀ (s : State) f, f ∈ [Reg.BND_COMP_BYTES_IN.BYTES, Reg.BND_COMP_BYTES_OUT.BYTES, Reg.REP_BYTES_OUT.BYTES, Reg.REP_BYTES_IN.BYTES, Reg.DMA_BYTES.BYTES] →
       s.power.converterOn = true → s.writable f.block = true →
       (s.seen f 0 0 = s.rd f → s.rcSplit f 0 0 = (s.rd f, 0)) ∧ (s.rcSplit f 0 0).1 + (s.rcSplit f 0 0).2 = s.rd f ∧
       (Answers (.rcRead f.base 8) s fun t => Sends s t (.readValue f.base (s.rcSplit f 0 0).1) ∧ t.rd f = f.fit (s.rcSplit f 0 0).2) ∧
       (Answers (.rcRead f.base 4) s fun t => Sends s t (.readValue f.base ((s.rcSplit f 0 0).1 % 2 ^ 32)) ∧ t.rd f = f.fit (s.rcSplit f 0 0).2 ∧
         Table.get f.block 0 t.holding.upper = (s.rcSplit f 0 0).1 / 2 ^ 32) ∧
       exec (.rcRead (f.base + 4) 4) s = .next (s.send (.readValue (f.base + 4) (Table.get f.block 0 s.holding.upper))))

/-- Commands that store to DDR leave every byte outside the bytes they store. Derived from R64, R62, R328, R343, R410, R451, R473. For every
state and operand, every byte of DDR reads as before after a DMA burst outside the burst's bytes at its destination, and everywhere where
the destination is host memory; after FINAL_FLAG_PROCESS outside the payloads of the queue pair that wait to be placed, and after
INVALIDATION_COMPLETE outside those of every queue pair; after a firmware download outside the staged range named, and after HIST_SWAP
outside the bank of the new SEQ; after ACCT_CLEAR of one tenant outside that tenant's entry, and after LEAVE_NOTICE outside the directory's
entries. -/
def Obligations.MemoryStores : Prop :=
  (∀ (s : State) k h x off len r, (s.channel k).cur = some x → x.flight = (off, len) :: r →
       Answers (.dmaBurstDone k h none) s fun t => match s.dmaAddr x.desc.dstSpace x.desc.dstKey (x.desc.dst + off / x.desc.lineLen * x.desc.dstStride + off % x.desc.lineLen) with
         | some a => ∀ y, y < a ∨ a + len ≤ y → Memory.read t.mem y = Memory.read s.mem y
         | none => t.mem = s.mem) ∧
  (∀ (s : State) n, (Answers (.finalFlagProcess n) s fun t => ∀ y, (∀ p ∈ (s.qp n).placements, y < p.addr ∨ p.addr + p.bytes.length ≤ y) →
    Memory.read t.mem y = Memory.read s.mem y) ∧
       Answers (.invalidationComplete n) s fun t => ∀ y, (∀ q, ∀ p ∈ (s.qp q).placements, y < p.addr ∨ p.addr + p.bytes.length ≤ y) →
         Memory.read t.mem y = Memory.read s.mem y) ∧
  (∀ (s : State) n c, s.ready n .firmwareDownload = some c → Answers (.firmwareImageDownload n) s fun t => ∀ y,
       y < s.rd Reg.BOOT_FW_BASE.BASE + 4 * c.cap.cdw11 ∨ s.rd Reg.BOOT_FW_BASE.BASE + 4 * c.cap.cdw11 + 4 * (c.cap.cdw10 + 1) ≤ y →
       Memory.read t.mem y = Memory.read s.mem y) ∧
  (∀ (s : State), Answers .histSwap s fun t => ∀ y,
       y < s.rd Reg.EVT_HIST_BASE.BASE + 65536 * ((s.rd Reg.EVT_HIST_STAT.SEQ + 1) % 2 ^ 32 % 2) ∨
         s.rd Reg.EVT_HIST_BASE.BASE + 65536 * ((s.rd Reg.EVT_HIST_STAT.SEQ + 1) % 2 ^ 32 % 2) + 65536 ≤ y →
       Memory.read t.mem y = Memory.read s.mem y) ∧
  (∀ (s : State) v, v.testBit 13 = false → Answers (.acctClear v) s fun t => ∀ y,
       y < s.rd Reg.PRG_ACCT_BASE.BASE + 64 * (v % 4096) ∨ s.rd Reg.PRG_ACCT_BASE.BASE + 64 * (v % 4096) + 64 ≤ y →
         Memory.read t.mem y = Memory.read s.mem y) ∧
  (∀ (s : State) d, Answers (.leaveNotice d) s fun t => ∀ y,
       (∀ e ∈ s.xrn.dir, y < s.rd Reg.XRN_DIR_BASE.BASE + 32 * e.1 ∨ s.rd Reg.XRN_DIR_BASE.BASE + 32 * e.1 + 32 ≤ y) →
         Memory.read t.mem y = Memory.read s.mem y)

/-- A container header's 32 bytes give back every field of the header. Derived from R132, R133, R135. For every header whose fields have the
values that their widths admit, and any bytes after it: its encoding is 32 bytes long, and decoding gives the header back, every field as it
was. -/
def Obligations.ContainerHeaderRoundTrip : Prop :=
  (∀ (h : Header) (b : List Byte), h.fits = true → h.bytes.length = 32 ∧ Header.parse (h.bytes ++ b) = h)

/-- A location is 16 bytes, and no two locations share them. Derived from R250. For every two locations whose fields have the values that
their widths admit: each is encoded in 16 bytes, and equal bytes mean the same location, of the same kind, with every field the same. -/
def Obligations.LocationEncodingIsExact : Prop :=
  (∀ (a b : Loc), a.fits = true → b.fits = true → a.bytes.length = 16 ∧ (a.bytes = b.bytes → a = b))

/-- The model computes the spec's worked examples. Derived from R46, R134, R190, R240, R250, R409, R473. The spec's worked values: the
CRC32C of the nine bytes "123456789" is 0xE306_9283; the parity bytes of 3A 91 07 C4 are P 68, Q 77 and R 63; a latency of 12,345 ns falls
in bucket 304; a stamp of 13,600,000,000,000,003 ticks is 1,700,000 s with a correction of 24,576; the container of 3,936 bytes at offset
0x5E40 of member 7 of signature 377 of quire 0x1A40, pool 2, has the location of R250; the swap modes 0 to 5 turn 00 11 22 33 44 55 66 77
into the rows of R409. Step 3 of a plan with b[5] = -6, s[5] = 8 and l[3] = -3 reads threshold 5 at -12. -/
def Obligations.WorkedExamples : Prop :=
  (crc32c [0x31, 0x32, 0x33, 0x34, 0x35, 0x36, 0x37, 0x38, 0x39] = 0xE3069283) ∧
  ([0, 1, 2].map (fun k => parityByte k 0 [0x3A, 0x91, 0x07, 0xC4]) = [0x68, 0x77, 0x63]) ∧
  (latencyBucket 12345 = 304) ∧
  (ptpForm 13600000000000003 = (1700000, 0, 24576)) ∧
  ((Loc.flash 2 0x1A40 377 7 0x5E4 3936).bytes = [0x03, 0x02, 0x00, 0x00, 0x40, 0x1A, 0x00, 0x00, 0x79, 0x01, 0x07, 0x00, 0xE4, 0x05, 0xF6, 0x00]) ∧
  ([0, 1, 2, 3, 4, 5].map (fun m => swapBytes m [0x00, 0x11, 0x22, 0x33, 0x44, 0x55, 0x66, 0x77]) =
       [[0x00, 0x11, 0x22, 0x33, 0x44, 0x55, 0x66, 0x77], [0x11, 0x00, 0x33, 0x22, 0x55, 0x44, 0x77, 0x66], [0x33, 0x22, 0x11, 0x00, 0x77, 0x66, 0x55, 0x44],
        [0x77, 0x66, 0x55, 0x44, 0x33, 0x22, 0x11, 0x00], [0x22, 0x33, 0x00, 0x11, 0x66, 0x77, 0x44, 0x55], [0x66, 0x77, 0x44, 0x55, 0x22, 0x33, 0x00, 0x11]]) ∧
  (({ base := [0, 0, 0, 0, -6], slopes := [0, 0, 0, 0, 8], ladder := [0, 0, -3] } : DiePlan).offset 3 5 = -12)

/-- Flow control and links of the front ports complete with their effect. Derived from R36, R37, R40, R41, R69. HOST_LIMIT_WINDOW starts
every logical port's count of host-bound frames again, and changes nothing else. LINK_CHANGE leaves LINK_UP's bit as the link is, and sets
LINK_CHANGE's bit where that is a change; a port with MAP_ERR and a logical port not in use do not come up. PFC_RECEIVE with pause times
other than 0 stops each priority that the port honours; one with a pause time of 0 alone lets an honoured priority go on; one for priorities
that are not honoured changes nothing. PFC_PAUSE_EXPIRY lets the priority transmit again, and a lone frame that waited for it leaves, where
MACsec is off. XOFF_REFRESH sends XOFF again on each port in use that generates PFC while XOFF stands, and else changes nothing. -/
def Obligations.PortFlow : Prop :=
  (∀ (s : State), exec .hostLimitWindow s = .next { s with ports := Table.mapVals (fun _ p => { p with hostFrames := 0 }) s.ports } ∧
       Answers .hostLimitWindow s fun t => t.ports.map Prod.fst = s.ports.map Prod.fst ∧ ∀ e ∈ t.ports, e.2.hostFrames = 0) ∧
  (∀ (s : State) l up,
       (up = true → s.on Reg.ETH_LINK_STATUS.MAP_ERR (l / 4) = true ∨ l ∉ s.portsInUse → exec (.linkChange l up) s = .next s) ∧
       (up = false ∨ s.on Reg.ETH_LINK_STATUS.MAP_ERR (l / 4) = false ∧ l ∈ s.portsInUse → Answers (.linkChange l up) s fun t =>
         (t.rd Reg.ETH_LINK_STATUS.LINK_UP (l / 4)).testBit (l % 4) = up ∧
         ((s.rd Reg.ETH_LINK_STATUS.LINK_UP (l / 4)).testBit (l % 4) ≠ up →
           (t.rd Reg.ETH_LINK_STATUS.LINK_CHANGE (l / 4)).testBit (l % 4) = true))) ∧
  (∀ (s : State) l times, ((∀ x ∈ times, x.2 ≠ 0) → Answers (.pfcReceive l times) s fun t =>
         ∀ x ∈ times, (s.rd Reg.ETH_PFC_CTRL.PAUSE_HONOUR (l / 4)).testBit x.1 = true → x.1 ∈ (t.lport l).paused) ∧
       ((∀ x ∈ times, (s.rd Reg.ETH_PFC_CTRL.PAUSE_HONOUR (l / 4)).testBit x.1 = false) → exec (.pfcReceive l times) s = .next s)) ∧
  (∀ (s : State) l p, (s.rd Reg.ETH_PFC_CTRL.PAUSE_HONOUR (l / 4)).testBit p = true →
    Answers (.pfcReceive l [(p, 0)]) s fun t => p ∉ (t.lport l).paused) ∧
  (∀ (s : State) l p, Answers (.pfcPauseExpiry l p) s fun t => p ∉ (t.lport l).paused ∧
       ∀ f, ((s.lport l).txq.filter fun g => g.prio == p) = [f] → f.ptp = none → s.on Reg.ETH_MACSEC_CTRL.EN (f.lport / 4) = false →
         Sends s t (.frame f.lport f.bytes)) ∧
  (∀ (s : State), (s.trn.xoff = true → Answers .xoffRefresh s fun t => ∀ l ∈ s.portsInUse, s.on Reg.ETH_PFC_CTRL.GEN_EN (l / 4) = true →
         Sends s t (.pfc l (s.rd Reg.ETH_PFC_CTRL.ROCE_PRIO (l / 4)) (s.rd Reg.ETH_PFC_CTRL.QUANTA (l / 4)))) ∧
       (s.trn.xoff = false → exec .xoffRefresh s = .next s))

/-- Frames that a front port sends complete with their effect. Derived from R41, R43, R44, R46, R47, R69, R502. FRAME_TRANSMIT on a paused
priority leaves the frame waiting at its port. On another, a frame without a PTP message leaves as it is where it is EAPOL or MACsec is off;
with MACsec on, any other leaves protected under the association in use, whose packet number goes up by one, or is dropped where none may
send. A PTP message that is stamped, with MACsec off, leaves in one-step mode with its time or residence written, where it is a Sync or a
Pdelay_Resp, and else (of the other messages in one-step mode by the model's choice: log entry 80) enters the transmit stamp FIFO, over the
oldest of 16. PTP_TX_STAMP_READ answers the register's value; it clears OVERFLOW and removes the oldest stamp, but for what came in the same
clock. A read before the firmware runs answers 0. -/
def Obligations.FrameTransmission : Prop :=
  (∀ (s : State) f, (f.prio ∈ (s.lport f.lport).paused →
    Answers (.frameTransmit f) s fun t => (t.lport f.lport).txq = (s.lport f.lport).txq ++ [f]) ∧
       (f.prio ∉ (s.lport f.lport).paused → f.ptp = none → f.eapol = true ∨ s.on Reg.ETH_MACSEC_CTRL.EN (f.lport / 4) = false →
         Answers (.frameTransmit f) s fun t => Sends s t (.frame f.lport f.bytes))) ∧
  (∀ (s : State) f p, p = s.lport f.lport → f.prio ∉ p.paused → f.ptp = none → f.eapol = false →
    s.on Reg.ETH_MACSEC_CTRL.EN (f.lport / 4) = true →
       (∀ a, Table.find p.txAn p.txSa = some a → a.enabled = true → a.nextPn < 2 ^ 64 - 1 → Answers (.frameTransmit f) s fun t =>
         Sends s t (.frame f.lport (securedFrame a { an := p.txAn, pn := a.nextPn, sci := s.on Reg.ETH_MACSEC_CTRL.SEND_SCI (f.lport / 4) } f.bytes)) ∧
         (Table.find p.txAn (t.lport f.lport).txSa).map SecAssoc.nextPn = some (a.nextPn + 1)) ∧
       ((∀ a, Table.find p.txAn p.txSa = some a → a.enabled = false ∨ 2 ^ 64 - 1 ≤ a.nextPn) → f.cmd = none →
         exec (.frameTransmit f) s = .next s)) ∧
  (∀ (s : State) f m x, f.prio ∉ (s.lport f.lport).paused → f.ptp = some m → s.ptpStamp f.lport f.ptp = some x →
       f.eapol = true ∨ s.on Reg.ETH_MACSEC_CTRL.EN (f.lport / 4) = false →
       (s.on Reg.ETH_PTP_CTRL.ONE_STEP (f.lport / 4) = true → m.msgType = 0 ∨ m.msgType = 3 → Answers (.frameTransmit f) s fun t =>
         Sends s t (.frame f.lport (oneStep m x f.residence f.bytes))) ∧
       (s.on Reg.ETH_PTP_CTRL.ONE_STEP (f.lport / 4) = false ∨ m.msgType = 1 ∨ m.msgType = 2 → Answers (.frameTransmit f) s fun t =>
         Sends s t (.frame f.lport f.bytes) ∧ Table.get (f.lport / 4) [] t.trn.stamps =
           (if (Table.get (f.lport / 4) [] s.trn.stamps).length < 16 then Table.get (f.lport / 4) [] s.trn.stamps
             else (Table.get (f.lport / 4) [] s.trn.stamps).drop 1) ++
           [{ stamp := x, seqId := m.seqId, msgType := m.msgType, domain := m.domain, subport := f.lport % 4 }])) ∧
  (∀ (s : State) p, (s.writable 8 = true → Answers (.ptpTxStampRead p) s fun t =>
         Sends s t (.readValue (Reg.ETH_PTP_TX_STAMP_HI.VALID.addr p 0) (s.stampWord p)) ∧
         (s.stampRaised Reg.ETH_PTP_TX_STAMP_HI.OVERFLOW p = false → t.on Reg.ETH_PTP_TX_STAMP_HI.OVERFLOW p = false) ∧
         Table.get p [] t.trn.stamps =
           if s.stampRaised Reg.ETH_PTP_TX_STAMP_HI.VALID p then Table.get p [] s.trn.stamps else (Table.get p [] s.trn.stamps).drop 1) ∧
       (s.writable 8 = false → exec (.ptpTxStampRead p) s = .next (s.send (.readValue (Reg.ETH_PTP_TX_STAMP_HI.VALID.addr p 0) 0))))
end

