-- ==== Sys2Proof/Laws/Table.lean ====
section
/-!
SUPPORT. Laws/Table.lean: what looking up, putting and dropping do to a table, and that they keep its keys rising.
-/
namespace Sys2Proof.Machine

variable {α : Type}

theorem Table.find_put_same (k : Nat) (v : α) (t : Table α) : Table.find k (Table.put k v t) = some v := by
  induction t with
  | nil => simp [Table.put, Table.find]
  | cons e r ih =>
    obtain ⟨a, x⟩ := e
    simp only [Table.put]
    split
    · simp [Table.find]
    · split
      · simp [Table.find]
      · simp only [Table.find]
        rw [if_neg (by omega)]
        exact ih

theorem Table.find_put_other {k l : Nat} (h : l ≠ k) (v : α) (t : Table α) : Table.find l (Table.put k v t) = Table.find l t := by
  induction t with
  | nil => simp [Table.put, Table.find, Ne.symm h]
  | cons e r ih =>
    obtain ⟨a, x⟩ := e
    simp only [Table.put]
    split
    · simp [Table.find, Ne.symm h]
    · split
      · next h2 => subst h2; simp [Table.find, Ne.symm h]
      · simp only [Table.find, ih]

theorem Table.find_drop_same (k : Nat) (t : Table α) : Table.find k (Table.drop k t) = none := by
  induction t with
  | nil => rfl
  | cons e r ih =>
    obtain ⟨a, x⟩ := e
    simp only [Table.drop]
    split
    · exact ih
    · next h => simp [Table.find, h, ih]

theorem Table.find_drop_other {k l : Nat} (h : l ≠ k) (t : Table α) : Table.find l (Table.drop k t) = Table.find l t := by
  induction t with
  | nil => rfl
  | cons e r ih =>
    obtain ⟨a, x⟩ := e
    simp only [Table.drop]
    split
    · next h2 => subst h2; simp [Table.find, Ne.symm h, ih]
    · simp only [Table.find, ih]

@[simp] theorem Table.get_put_same (k : Nat) (d v : α) (t : Table α) : Table.get k d (Table.put k v t) = v := by
  simp [Table.get, Table.find_put_same]

theorem Table.get_put_other {k l : Nat} (h : l ≠ k) (d v : α) (t : Table α) : Table.get l d (Table.put k v t) = Table.get l d t := by
  simp [Table.get, Table.find_put_other h]

@[simp] theorem Table.get_drop_same (k : Nat) (d : α) (t : Table α) : Table.get k d (Table.drop k t) = d := by
  simp [Table.get, Table.find_drop_same]

theorem Table.get_drop_other {k l : Nat} (h : l ≠ k) (d : α) (t : Table α) : Table.get l d (Table.drop k t) = Table.get l d t := by
  simp [Table.get, Table.find_drop_other h]

theorem Table.mem_put {k : Nat} {v : α} {t : Table α} {e : Nat × α} (h : e ∈ Table.put k v t) : e = (k, v) ∨ e ∈ t := by
  induction t with
  | nil => simpa [Table.put] using h
  | cons x r ih =>
    obtain ⟨a, y⟩ := x
    simp only [Table.put] at h
    split at h
    · simpa using h
    · split at h
      · rcases List.mem_cons.1 h with h | h
        · exact .inl h
        · exact .inr (List.mem_cons_of_mem _ h)
      · rcases List.mem_cons.1 h with h | h
        · exact .inr (by simp [h])
        · exact (ih h).imp_right (List.mem_cons_of_mem _)

theorem Table.mem_drop {k : Nat} {t : Table α} {e : Nat × α} (h : e ∈ Table.drop k t) : e ∈ t := by
  induction t with
  | nil => exact h
  | cons x r ih =>
    obtain ⟨a, y⟩ := x
    simp only [Table.drop] at h
    split at h
    · exact List.mem_cons_of_mem _ (ih h)
    · rcases List.mem_cons.1 h with h | h
      · simp [h]
      · exact List.mem_cons_of_mem _ (ih h)

theorem Table.rising_nil : Table.Rising ([] : Table α) := by simp [Table.Rising]

theorem Table.rising_put (k : Nat) (v : α) {t : Table α} (h : Table.Rising t) : Table.Rising (Table.put k v t) := by
  induction t with
  | nil => simp [Table.put, Table.Rising]
  | cons e r ih =>
    obtain ⟨a, x⟩ := e
    have h' : (∀ b ∈ r, a < b.1) ∧ Table.Rising r := by
      simpa [Table.Rising, List.pairwise_cons] using h
    simp only [Table.put]
    split
    · next hk =>
      simp only [Table.Rising, List.map_cons, List.pairwise_cons, List.mem_cons, List.mem_map]
      refine ⟨?_, ?_, ?_⟩
      · rintro b (rfl | ⟨c, hc, rfl⟩)
        · exact hk
        · exact Nat.lt_trans hk (h'.1 c hc)
      · rintro b ⟨c, hc, rfl⟩
        exact h'.1 c hc
      · exact h'.2
    · split
      · next hk => subst hk; simpa [Table.Rising, List.pairwise_cons] using h
      · next h1 h2 =>
        have hr := ih h'.2
        simp only [Table.Rising, List.map_cons, List.pairwise_cons, List.mem_map]
        refine ⟨?_, hr⟩
        rintro b ⟨c, hc, rfl⟩
        rcases Table.mem_put hc with rfl | hc
        · change a < k; omega
        · exact h'.1 c hc

theorem Table.rising_filter (p : Nat × α → Bool) {t : Table α} (h : Table.Rising t) : Table.Rising (t.filter p) :=
  List.Pairwise.sublist (List.Sublist.map Prod.fst List.filter_sublist) h

theorem Table.rising_drop (k : Nat) {t : Table α} (h : Table.Rising t) : Table.Rising (Table.drop k t) := by
  induction t with
  | nil => exact h
  | cons e r ih =>
    obtain ⟨a, x⟩ := e
    have h' : (∀ b ∈ r, a < b.1) ∧ Table.Rising r := by
      simpa [Table.Rising, List.pairwise_cons] using h
    simp only [Table.drop]
    split
    · exact ih h'.2
    · simp only [Table.Rising, List.map_cons, List.pairwise_cons, List.mem_map]
      refine ⟨?_, ih h'.2⟩
      rintro b ⟨c, hc, rfl⟩
      exact h'.1 c (Table.mem_drop hc)

end Sys2Proof.Machine
end

