-- ==== Sys2Proof/Laws/Memory.lean ====
section
/-!
SUPPORT. Laws/Memory.lean: DDR bytes: a read after a write, and the canonical form, which every memory operation keeps.
-/
namespace Sys2Proof.Machine
open Sys2Proof

theorem Memory.read_write_same (m : List Host.Cell) (a : Nat) (b : Byte) : Memory.read (Memory.write m a b) a = b := by
  unfold Memory.read Memory.write
  split
  · next h => rw [h]; exact Table.get_drop_same _ _ _
  · exact Table.get_put_same _ _ _ _

theorem Memory.read_write_other {a k : Nat} (h : k ≠ a) (m : List Host.Cell) (b : Byte) :
    Memory.read (Memory.write m a b) k = Memory.read m k := by
  unfold Memory.read Memory.write
  split
  · exact Table.get_drop_other h _ _
  · exact Table.get_put_other h _ _ _

theorem Memory.wf_nil : Memory.wf [] := by simp [Memory.wf]

theorem Memory.wf_write {m : List Host.Cell} (a : Nat) (b : Byte) (h : Memory.wf m) : Memory.wf (Memory.write m a b) := by
  unfold Memory.write
  split
  · exact ⟨Table.rising_drop a h.1, fun e he => h.2 e (Table.mem_drop he)⟩
  · next hb =>
    refine ⟨Table.rising_put a b h.1, fun e he => ?_⟩
    rcases Table.mem_put he with rfl | he
    · exact hb
    · exact h.2 e he

theorem Memory.wf_writeList {m : List Host.Cell} (a : Nat) (l : List Byte) (h : Memory.wf m) : Memory.wf (Memory.writeList m a l) := by
  induction l generalizing m a with
  | nil => exact h
  | cons b r ih => exact ih (a + 1) (Memory.wf_write a b h)

/-- A run of bytes leaves every address outside it alone. -/
theorem Memory.read_writeList_other {a k : Nat} (l : List Byte) (m : List Host.Cell) (h : k < a ∨ a + l.length ≤ k) :
    Memory.read (Memory.writeList m a l) k = Memory.read m k := by
  induction l generalizing m a with
  | nil => rfl
  | cons b r ih =>
    have hl : (b :: r).length = r.length + 1 := rfl
    rw [Memory.writeList, ih (Memory.write m a b) (by omega), Memory.read_write_other (by omega)]

end Sys2Proof.Machine
end

