-- ==== Sys2Proof/Laws/Frame.lean ====
section
/-!
SUPPORT. Laws/Frame.lean: states that agree but for some parts, as the frame lemmas of the meanings use it: a frame composes, widens, and
gives the equality of every part that it does not list.
-/
namespace Sys2Proof.Machine
open Sys2Proof

set_option Elab.async false

/-- `t` differs from `s` in the listed parts at most, is in canonical form where `s` is, and has sent all that `s` has. -/
structure Within (ps : List Part) (s t : State) : Prop where
  only : OnlyIn ps s t
  inv  : s.Inv → t.Inv
  sent : s.out <:+ t.out

/-- An answer's next state is within the listed parts. -/
def Lands (ps : List Part) (s : State) : Res → Prop
  | .next t => Within ps s t
  | .fault _ => True
  | .refused _ => True

/-- A part of the register file. -/
def Part.inRegs : Part → Bool
  | .block _ | .regs => true
  | _ => false

/-- Every part of one list stands in another, or is a part of one that does. -/
def Part.sub (a b : List Part) : Bool := a.all fun p => b.contains p || (p.inRegs && b.contains .regs)

theorem Part.sub_refl (a : List Part) : Part.sub a a = true := by
  simp only [Part.sub, List.all_eq_true, Bool.or_eq_true, List.contains_iff_mem]
  exact fun x hx => .inl hx

theorem Part.sub_trans {a b c : List Part} (h : Part.sub a b = true) (g : Part.sub b c = true) : Part.sub a c = true := by
  simp only [Part.sub, List.all_eq_true, Bool.or_eq_true, Bool.and_eq_true, List.contains_iff_mem] at *
  intro x hx
  rcases h x hx with h | ⟨h, k⟩
  · exact g x h
  · rcases g _ k with g | g
    · exact .inr ⟨h, g⟩
    · exact .inr ⟨h, g.2⟩

theorem State.blank_comm (s : State) (p q : Part) : (s.blank p).blank q = (s.blank q).blank p := by
  cases p with
  | block a => cases q with
    | block b =>
      simp only [State.blank, List.filter_filter]
      congr 1
      exact List.filter_congr fun x _ => Bool.and_comm _ _
    | _ => rfl
  | _ => cases q <;> rfl

theorem State.blank_twice (s : State) (p : Part) : (s.blank p).blank p = s.blank p := by
  cases p with
  | block a => simp only [State.blank, List.filter_filter, Bool.and_self]
  | _ => rfl

theorem State.blank_regs (s : State) {p : Part} (h : p.inRegs = true) : (s.blank p).blank .regs = s.blank .regs := by
  cases p <;> first | rfl | cases h

theorem State.blankAll_blank (ps : List Part) (s : State) (p : Part) : (s.blank p).blankAll ps = (s.blankAll ps).blank p := by
  induction ps generalizing s with
  | nil => rfl
  | cons q r ih => rw [State.blankAll, State.blankAll, State.blank_comm, ih]

theorem State.blankAll_mem {ps : List Part} {p : Part} (h : p ∈ ps) (s : State) : (s.blank p).blankAll ps = s.blankAll ps := by
  induction ps generalizing s with
  | nil => simp at h
  | cons q r ih =>
    rcases List.mem_cons.1 h with rfl | h
    · rw [State.blankAll, State.blankAll, State.blank_twice]
    · rw [State.blankAll, State.blankAll, State.blank_comm, ih h]

theorem State.blankAll_sub {a b : List Part} (h : Part.sub a b = true) (s : State) : (s.blankAll a).blankAll b = s.blankAll b := by
  induction a generalizing s with
  | nil => rfl
  | cons p r ih =>
    simp only [Part.sub, List.all_cons, Bool.and_eq_true, Bool.or_eq_true, List.contains_iff_mem] at h
    rw [State.blankAll, ih h.2]
    rcases h.1 with h | ⟨h, g⟩
    · exact State.blankAll_mem h s
    · rw [← State.blankAll_mem g, State.blank_regs s h, State.blankAll_mem g]

theorem OnlyIn.mono {a b : List Part} {s t : State} (h : OnlyIn a s t) (hab : Part.sub a b = true) : OnlyIn b s t := by
  have := congrArg (fun x => x.blankAll b) h
  simpa only [OnlyIn, State.blankAll_sub hab] using this

theorem Within.refl (ps : List Part) (s : State) : Within ps s s := ⟨rfl, id, List.suffix_refl _⟩

theorem Within.mono {a b : List Part} {s t : State} (h : Within a s t) (hab : Part.sub a b = true) : Within b s t :=
  ⟨h.only.mono hab, h.inv, h.sent⟩

/-- A further change within the same parts. -/
theorem Within.step {ps a : List Part} {s t u : State} (h : Within ps s t) (g : Within a t u) (hab : Part.sub a ps = true := by decide) :
    Within ps s u :=
  ⟨(g.only.mono hab).trans h.only, fun hi => g.inv (h.inv hi), h.sent.trans g.sent⟩

/-- A record update that leaves the DDR bytes and the register file alone. -/
theorem Within.put {ps a : List Part} {s t : State}
    {a_pending a_regs a_holding a_clock a_ringTime a_pins a_fuses a_straps a_power a_boot a_test a_evt a_nor a_host a_ports a_trn a_cmd a_bnd a_ddp a_keys a_wc a_sig a_lfl a_map a_rep a_prg a_xrn a_chan a_own a_store a_mem a_free a_out a_hostWait}
    (h : Within ps s t) (hu : a_out = t.out) (hm : a_mem = t.mem) (hr : a_regs = t.regs)
    (ho : (State.mk a_pending a_regs a_holding a_clock a_ringTime a_pins a_fuses a_straps a_power a_boot a_test a_evt a_nor a_host a_ports a_trn a_cmd a_bnd a_ddp a_keys a_wc a_sig a_lfl a_map a_rep a_prg a_xrn a_chan a_own a_store a_mem a_free a_out a_hostWait).blankAll a = t.blankAll a)
    (hs : Part.sub a ps = true) :
    Within ps s (State.mk a_pending a_regs a_holding a_clock a_ringTime a_pins a_fuses a_straps a_power a_boot a_test a_evt a_nor a_host a_ports a_trn a_cmd a_bnd a_ddp a_keys a_wc a_sig a_lfl a_map a_rep a_prg a_xrn a_chan a_own a_store a_mem a_free a_out a_hostWait) :=
  ⟨(OnlyIn.mono (a := a) ho hs).trans h.only, fun hi => by
    have := h.inv hi
    unfold State.Inv at this ⊢
    rw [← hm, ← hr] at this
    exact this, hu ▸ h.sent⟩

/-- A record update of the DDR bytes that keeps their canonical form. -/
theorem Within.putMem {ps : List Part} {s t : State}
    {a_pending a_regs a_holding a_clock a_ringTime a_pins a_fuses a_straps a_power a_boot a_test a_evt a_nor a_host a_ports a_trn a_cmd a_bnd a_ddp a_keys a_wc a_sig a_lfl a_map a_rep a_prg a_xrn a_chan a_own a_store a_mem a_free a_out a_hostWait}
    (h : Within ps s t) (hu : a_out = t.out) (hm : Memory.wf t.mem → Memory.wf a_mem) (hr : a_regs = t.regs)
    (ho : (State.mk a_pending a_regs a_holding a_clock a_ringTime a_pins a_fuses a_straps a_power a_boot a_test a_evt a_nor a_host a_ports a_trn a_cmd a_bnd a_ddp a_keys a_wc a_sig a_lfl a_map a_rep a_prg a_xrn a_chan a_own a_store a_mem a_free a_out a_hostWait).blankAll ps = t.blankAll ps) :
    Within ps s (State.mk a_pending a_regs a_holding a_clock a_ringTime a_pins a_fuses a_straps a_power a_boot a_test a_evt a_nor a_host a_ports a_trn a_cmd a_bnd a_ddp a_keys a_wc a_sig a_lfl a_map a_rep a_prg a_xrn a_chan a_own a_store a_mem a_free a_out a_hostWait) :=
  ⟨ho.trans h.only, fun hi => by
    have := h.inv hi
    unfold State.Inv at this ⊢
    rw [← hr] at this
    exact ⟨hm this.1, this.2⟩, hu ▸ h.sent⟩

theorem Within.trans {ps : List Part} {s t u : State} (h : Within ps s t) (g : Within ps t u) : Within ps s u :=
  h.step g (Part.sub_refl ps)

theorem Within.cut {ps : List Part} {s u v : State} (h : Within ps s u) (g : Within ps s u → Within ps s v) : Within ps s v := g h

/-- The second part of a pair that a definition answers. -/
theorem Within.of_pair {α : Type} {ps : List Part} {s u : State} {a : α} {p : α × State} (e : p = (a, u)) (h : Within ps s p.2) :
    Within ps s u := by
  subst e
  exact h

theorem Lands.cut {ps : List Part} {s u : State} {r : Res} (h : Within ps s u) (g : Within ps s u → Lands ps s r) : Lands ps s r := g h

theorem Within.ite {ps : List Part} {s t u : State} {c : Prop} [Decidable c] (h : Within ps s t) (g : Within ps s u) :
    Within ps s (if c then t else u) := by
  split
  · exact h
  · exact g

theorem Within.foldl {α : Type} {ps : List Part} {s t : State} {f : State → α → State} (l : List α) (h : Within ps s t)
    (g : ∀ u x, Within ps u (f u x)) : Within ps s (l.foldl f t) := by
  induction l generalizing t with
  | nil => exact h
  | cons x r ih => exact ih (h.trans (g t x))

theorem Within.foldl_snd {α β : Type} {ps : List Part} {s : State} {a : β × State} {f : β × State → α → β × State} (l : List α)
    (h : Within ps s a.2) (g : ∀ u x, Within ps u.2 (f u x).2) : Within ps s (l.foldl f a).2 := by
  induction l generalizing a with
  | nil => exact h
  | cons x r ih => exact ih (h.trans (g a x))

theorem Lands.next {ps : List Part} {s t : State} (h : Within ps s t) : Lands ps s (.next t) := h

theorem Lands.ite {ps : List Part} {s : State} {a b : Res} {c : Prop} [Decidable c] (h : Lands ps s a) (g : Lands ps s b) :
    Lands ps s (if c then a else b) := by
  split
  · exact h
  · exact g

theorem Lands.mono {a b : List Part} {s : State} {r : Res} (h : Lands a s r) (hab : Part.sub a b = true) : Lands b s r := by
  cases r with
  | next t => exact Within.mono h hab
  | fault _ => trivial
  | refused _ => trivial

theorem OnlyIn.pending {ps : List Part} {s t : State} (h : OnlyIn ps s t) : t.pending = s.pending := by
  have e (ps : List Part) (s : State) : (s.blankAll ps).pending = s.pending := by
    induction ps generalizing s with
    | nil => rfl
    | cons p r ih => rw [State.blankAll, ih]; cases p <;> rfl
  rw [← e ps t, h, e]

theorem Table.find_filter {α : Type} (t : Table α) (p : Nat → Bool) (k : Nat) (h : p k = true) :
    Table.find k (t.filter fun e => p e.1) = Table.find k t := by
  induction t with
  | nil => rfl
  | cons x r ih =>
    obtain ⟨a, v⟩ := x
    by_cases ha : a = k
    · subst ha
      simp [Table.find, h]
    · by_cases hp : p a = true
      · simp [Table.find, hp, ha, ih]
      · simp [Table.find, hp, ha, ih]

theorem Table.filter_drop {α : Type} (t : Table α) (p : Nat → Bool) (k : Nat) (h : p k = false) :
    (Table.drop k t).filter (fun e => p e.1) = t.filter fun e => p e.1 := by
  induction t with
  | nil => rfl
  | cons x r ih =>
    obtain ⟨a, v⟩ := x
    by_cases ha : a = k
    · subst ha
      simp [Table.drop, h, ih]
    · simp [Table.drop, ha, List.filter_cons, ih]

theorem Table.filter_put {α : Type} (t : Table α) (p : Nat → Bool) (k : Nat) (v : α) (h : p k = false) :
    (Table.put k v t).filter (fun e => p e.1) = t.filter fun e => p e.1 := by
  induction t with
  | nil => simp [Table.put, h]
  | cons x r ih =>
    obtain ⟨a, w⟩ := x
    by_cases hlt : k < a
    · simp [Table.put, hlt, List.filter_cons, h]
    · by_cases ha : k = a
      · subst ha
        simp [Table.put, h]
      · simp [Table.put, hlt, ha, List.filter_cons, ih]

theorem RField.keyBlock_key (f : RField) (i j : Nat) : keyBlock (f.key i j) = f.block := by
  unfold keyBlock RField.key RField.id RField.block
  omega

/-- The register file agrees in every block that is not listed. -/
theorem OnlyIn.find {ps : List Part} {s t : State} (h : OnlyIn ps s t) (k : Nat) (hr : ps.contains .regs = false)
    (hb : ps.contains (.block (keyBlock k)) = false) : Table.find k t.regs = Table.find k s.regs := by
  have e (ps : List Part) (hr : ps.contains .regs = false) (hb : ps.contains (.block (keyBlock k)) = false) (s : State) :
      Table.find k (s.blankAll ps).regs = Table.find k s.regs := by
    induction ps generalizing s with
    | nil => rfl
    | cons p r ih =>
      rw [List.contains_cons, Bool.or_eq_false_iff] at hr hb
      rw [State.blankAll, ih hr.2 hb.2]
      cases p with
      | block b =>
        simp only [State.blank]
        refine Table.find_filter _ (fun x => keyBlock x != b) k ?_
        have := hb.1
        simp only [beq_eq_false_iff_ne, ne_eq, Part.block.injEq] at this
        simpa using this
      | regs => simp at hr
      | _ => rfl
  rw [← e ps hr hb t, h, e ps hr hb]

/-- A register of a block that is not listed reads as before. -/
theorem OnlyIn.rd {ps : List Part} {s t : State} (h : OnlyIn ps s t) (f : RField) (i j : Nat) (hr : ps.contains .regs = false)
    (hb : ps.contains (.block f.block) = false) : t.rd f i j = s.rd f i j := by
  unfold State.rd Table.get
  rw [h.find _ hr (by rw [RField.keyBlock_key]; exact hb)]

theorem OnlyIn.clock {ps : List Part} {s t : State} (h : OnlyIn ps s t) : t.clock = s.clock := by
  have e (ps : List Part) (s : State) : (s.blankAll ps).clock = s.clock := by
    induction ps generalizing s with
    | nil => rfl
    | cons p r ih => rw [State.blankAll, ih]; cases p <;> rfl
  rw [← e ps t, h, e]

theorem OnlyIn.holding {ps : List Part} {s t : State} (h : OnlyIn ps s t) (hp : ps.contains .holding = false) : t.holding = s.holding := by
  have e (ps : List Part) (hp : ps.contains .holding = false) (s : State) : (s.blankAll ps).holding = s.holding := by
    induction ps generalizing s with
    | nil => rfl
    | cons p r ih =>
      rw [List.contains_cons, Bool.or_eq_false_iff] at hp
      rw [State.blankAll, ih hp.2]
      cases p <;> first | rfl | simp at hp
  rw [← e ps hp t, h, e ps hp]

theorem OnlyIn.ringTime {ps : List Part} {s t : State} (h : OnlyIn ps s t) (hp : ps.contains .ringTime = false) : t.ringTime = s.ringTime := by
  have e (ps : List Part) (hp : ps.contains .ringTime = false) (s : State) : (s.blankAll ps).ringTime = s.ringTime := by
    induction ps generalizing s with
    | nil => rfl
    | cons p r ih =>
      rw [List.contains_cons, Bool.or_eq_false_iff] at hp
      rw [State.blankAll, ih hp.2]
      cases p <;> first | rfl | simp at hp
  rw [← e ps hp t, h, e ps hp]

theorem OnlyIn.pins {ps : List Part} {s t : State} (h : OnlyIn ps s t) (hp : ps.contains .pins = false) : t.pins = s.pins := by
  have e (ps : List Part) (hp : ps.contains .pins = false) (s : State) : (s.blankAll ps).pins = s.pins := by
    induction ps generalizing s with
    | nil => rfl
    | cons p r ih =>
      rw [List.contains_cons, Bool.or_eq_false_iff] at hp
      rw [State.blankAll, ih hp.2]
      cases p <;> first | rfl | simp at hp
  rw [← e ps hp t, h, e ps hp]

theorem OnlyIn.fuses {ps : List Part} {s t : State} (h : OnlyIn ps s t) (hp : ps.contains .fuses = false) : t.fuses = s.fuses := by
  have e (ps : List Part) (hp : ps.contains .fuses = false) (s : State) : (s.blankAll ps).fuses = s.fuses := by
    induction ps generalizing s with
    | nil => rfl
    | cons p r ih =>
      rw [List.contains_cons, Bool.or_eq_false_iff] at hp
      rw [State.blankAll, ih hp.2]
      cases p <;> first | rfl | simp at hp
  rw [← e ps hp t, h, e ps hp]

theorem OnlyIn.straps {ps : List Part} {s t : State} (h : OnlyIn ps s t) (hp : ps.contains .straps = false) : t.straps = s.straps := by
  have e (ps : List Part) (hp : ps.contains .straps = false) (s : State) : (s.blankAll ps).straps = s.straps := by
    induction ps generalizing s with
    | nil => rfl
    | cons p r ih =>
      rw [List.contains_cons, Bool.or_eq_false_iff] at hp
      rw [State.blankAll, ih hp.2]
      cases p <;> first | rfl | simp at hp
  rw [← e ps hp t, h, e ps hp]

theorem OnlyIn.power {ps : List Part} {s t : State} (h : OnlyIn ps s t) (hp : ps.contains .power = false) : t.power = s.power := by
  have e (ps : List Part) (hp : ps.contains .power = false) (s : State) : (s.blankAll ps).power = s.power := by
    induction ps generalizing s with
    | nil => rfl
    | cons p r ih =>
      rw [List.contains_cons, Bool.or_eq_false_iff] at hp
      rw [State.blankAll, ih hp.2]
      cases p <;> first | rfl | simp at hp
  rw [← e ps hp t, h, e ps hp]

theorem OnlyIn.boot {ps : List Part} {s t : State} (h : OnlyIn ps s t) (hp : ps.contains .boot = false) : t.boot = s.boot := by
  have e (ps : List Part) (hp : ps.contains .boot = false) (s : State) : (s.blankAll ps).boot = s.boot := by
    induction ps generalizing s with
    | nil => rfl
    | cons p r ih =>
      rw [List.contains_cons, Bool.or_eq_false_iff] at hp
      rw [State.blankAll, ih hp.2]
      cases p <;> first | rfl | simp at hp
  rw [← e ps hp t, h, e ps hp]

theorem OnlyIn.test {ps : List Part} {s t : State} (h : OnlyIn ps s t) (hp : ps.contains .test = false) : t.test = s.test := by
  have e (ps : List Part) (hp : ps.contains .test = false) (s : State) : (s.blankAll ps).test = s.test := by
    induction ps generalizing s with
    | nil => rfl
    | cons p r ih =>
      rw [List.contains_cons, Bool.or_eq_false_iff] at hp
      rw [State.blankAll, ih hp.2]
      cases p <;> first | rfl | simp at hp
  rw [← e ps hp t, h, e ps hp]

theorem OnlyIn.evt {ps : List Part} {s t : State} (h : OnlyIn ps s t) (hp : ps.contains .evt = false) : t.evt = s.evt := by
  have e (ps : List Part) (hp : ps.contains .evt = false) (s : State) : (s.blankAll ps).evt = s.evt := by
    induction ps generalizing s with
    | nil => rfl
    | cons p r ih =>
      rw [List.contains_cons, Bool.or_eq_false_iff] at hp
      rw [State.blankAll, ih hp.2]
      cases p <;> first | rfl | simp at hp
  rw [← e ps hp t, h, e ps hp]

theorem OnlyIn.nor {ps : List Part} {s t : State} (h : OnlyIn ps s t) (hp : ps.contains .nor = false) : t.nor = s.nor := by
  have e (ps : List Part) (hp : ps.contains .nor = false) (s : State) : (s.blankAll ps).nor = s.nor := by
    induction ps generalizing s with
    | nil => rfl
    | cons p r ih =>
      rw [List.contains_cons, Bool.or_eq_false_iff] at hp
      rw [State.blankAll, ih hp.2]
      cases p <;> first | rfl | simp at hp
  rw [← e ps hp t, h, e ps hp]

theorem OnlyIn.host {ps : List Part} {s t : State} (h : OnlyIn ps s t) (hp : ps.contains .host = false) : t.host = s.host := by
  have e (ps : List Part) (hp : ps.contains .host = false) (s : State) : (s.blankAll ps).host = s.host := by
    induction ps generalizing s with
    | nil => rfl
    | cons p r ih =>
      rw [List.contains_cons, Bool.or_eq_false_iff] at hp
      rw [State.blankAll, ih hp.2]
      cases p <;> first | rfl | simp at hp
  rw [← e ps hp t, h, e ps hp]

theorem OnlyIn.ports {ps : List Part} {s t : State} (h : OnlyIn ps s t) (hp : ps.contains .ports = false) : t.ports = s.ports := by
  have e (ps : List Part) (hp : ps.contains .ports = false) (s : State) : (s.blankAll ps).ports = s.ports := by
    induction ps generalizing s with
    | nil => rfl
    | cons p r ih =>
      rw [List.contains_cons, Bool.or_eq_false_iff] at hp
      rw [State.blankAll, ih hp.2]
      cases p <;> first | rfl | simp at hp
  rw [← e ps hp t, h, e ps hp]

theorem OnlyIn.trn {ps : List Part} {s t : State} (h : OnlyIn ps s t) (hp : ps.contains .trn = false) : t.trn = s.trn := by
  have e (ps : List Part) (hp : ps.contains .trn = false) (s : State) : (s.blankAll ps).trn = s.trn := by
    induction ps generalizing s with
    | nil => rfl
    | cons p r ih =>
      rw [List.contains_cons, Bool.or_eq_false_iff] at hp
      rw [State.blankAll, ih hp.2]
      cases p <;> first | rfl | simp at hp
  rw [← e ps hp t, h, e ps hp]

theorem OnlyIn.cmd {ps : List Part} {s t : State} (h : OnlyIn ps s t) (hp : ps.contains .cmd = false) : t.cmd = s.cmd := by
  have e (ps : List Part) (hp : ps.contains .cmd = false) (s : State) : (s.blankAll ps).cmd = s.cmd := by
    induction ps generalizing s with
    | nil => rfl
    | cons p r ih =>
      rw [List.contains_cons, Bool.or_eq_false_iff] at hp
      rw [State.blankAll, ih hp.2]
      cases p <;> first | rfl | simp at hp
  rw [← e ps hp t, h, e ps hp]

theorem OnlyIn.bnd {ps : List Part} {s t : State} (h : OnlyIn ps s t) (hp : ps.contains .bnd = false) : t.bnd = s.bnd := by
  have e (ps : List Part) (hp : ps.contains .bnd = false) (s : State) : (s.blankAll ps).bnd = s.bnd := by
    induction ps generalizing s with
    | nil => rfl
    | cons p r ih =>
      rw [List.contains_cons, Bool.or_eq_false_iff] at hp
      rw [State.blankAll, ih hp.2]
      cases p <;> first | rfl | simp at hp
  rw [← e ps hp t, h, e ps hp]

theorem OnlyIn.ddp {ps : List Part} {s t : State} (h : OnlyIn ps s t) (hp : ps.contains .ddp = false) : t.ddp = s.ddp := by
  have e (ps : List Part) (hp : ps.contains .ddp = false) (s : State) : (s.blankAll ps).ddp = s.ddp := by
    induction ps generalizing s with
    | nil => rfl
    | cons p r ih =>
      rw [List.contains_cons, Bool.or_eq_false_iff] at hp
      rw [State.blankAll, ih hp.2]
      cases p <;> first | rfl | simp at hp
  rw [← e ps hp t, h, e ps hp]

theorem OnlyIn.keys {ps : List Part} {s t : State} (h : OnlyIn ps s t) (hp : ps.contains .keys = false) : t.keys = s.keys := by
  have e (ps : List Part) (hp : ps.contains .keys = false) (s : State) : (s.blankAll ps).keys = s.keys := by
    induction ps generalizing s with
    | nil => rfl
    | cons p r ih =>
      rw [List.contains_cons, Bool.or_eq_false_iff] at hp
      rw [State.blankAll, ih hp.2]
      cases p <;> first | rfl | simp at hp
  rw [← e ps hp t, h, e ps hp]

theorem OnlyIn.wc {ps : List Part} {s t : State} (h : OnlyIn ps s t) (hp : ps.contains .wc = false) : t.wc = s.wc := by
  have e (ps : List Part) (hp : ps.contains .wc = false) (s : State) : (s.blankAll ps).wc = s.wc := by
    induction ps generalizing s with
    | nil => rfl
    | cons p r ih =>
      rw [List.contains_cons, Bool.or_eq_false_iff] at hp
      rw [State.blankAll, ih hp.2]
      cases p <;> first | rfl | simp at hp
  rw [← e ps hp t, h, e ps hp]

theorem OnlyIn.sig {ps : List Part} {s t : State} (h : OnlyIn ps s t) (hp : ps.contains .sig = false) : t.sig = s.sig := by
  have e (ps : List Part) (hp : ps.contains .sig = false) (s : State) : (s.blankAll ps).sig = s.sig := by
    induction ps generalizing s with
    | nil => rfl
    | cons p r ih =>
      rw [List.contains_cons, Bool.or_eq_false_iff] at hp
      rw [State.blankAll, ih hp.2]
      cases p <;> first | rfl | simp at hp
  rw [← e ps hp t, h, e ps hp]

theorem OnlyIn.lfl {ps : List Part} {s t : State} (h : OnlyIn ps s t) (hp : ps.contains .lfl = false) : t.lfl = s.lfl := by
  have e (ps : List Part) (hp : ps.contains .lfl = false) (s : State) : (s.blankAll ps).lfl = s.lfl := by
    induction ps generalizing s with
    | nil => rfl
    | cons p r ih =>
      rw [List.contains_cons, Bool.or_eq_false_iff] at hp
      rw [State.blankAll, ih hp.2]
      cases p <;> first | rfl | simp at hp
  rw [← e ps hp t, h, e ps hp]

theorem OnlyIn.map {ps : List Part} {s t : State} (h : OnlyIn ps s t) (hp : ps.contains .map = false) : t.map = s.map := by
  have e (ps : List Part) (hp : ps.contains .map = false) (s : State) : (s.blankAll ps).map = s.map := by
    induction ps generalizing s with
    | nil => rfl
    | cons p r ih =>
      rw [List.contains_cons, Bool.or_eq_false_iff] at hp
      rw [State.blankAll, ih hp.2]
      cases p <;> first | rfl | simp at hp
  rw [← e ps hp t, h, e ps hp]

theorem OnlyIn.rep {ps : List Part} {s t : State} (h : OnlyIn ps s t) (hp : ps.contains .rep = false) : t.rep = s.rep := by
  have e (ps : List Part) (hp : ps.contains .rep = false) (s : State) : (s.blankAll ps).rep = s.rep := by
    induction ps generalizing s with
    | nil => rfl
    | cons p r ih =>
      rw [List.contains_cons, Bool.or_eq_false_iff] at hp
      rw [State.blankAll, ih hp.2]
      cases p <;> first | rfl | simp at hp
  rw [← e ps hp t, h, e ps hp]

theorem OnlyIn.prg {ps : List Part} {s t : State} (h : OnlyIn ps s t) (hp : ps.contains .prg = false) : t.prg = s.prg := by
  have e (ps : List Part) (hp : ps.contains .prg = false) (s : State) : (s.blankAll ps).prg = s.prg := by
    induction ps generalizing s with
    | nil => rfl
    | cons p r ih =>
      rw [List.contains_cons, Bool.or_eq_false_iff] at hp
      rw [State.blankAll, ih hp.2]
      cases p <;> first | rfl | simp at hp
  rw [← e ps hp t, h, e ps hp]

theorem OnlyIn.xrn {ps : List Part} {s t : State} (h : OnlyIn ps s t) (hp : ps.contains .xrn = false) : t.xrn = s.xrn := by
  have e (ps : List Part) (hp : ps.contains .xrn = false) (s : State) : (s.blankAll ps).xrn = s.xrn := by
    induction ps generalizing s with
    | nil => rfl
    | cons p r ih =>
      rw [List.contains_cons, Bool.or_eq_false_iff] at hp
      rw [State.blankAll, ih hp.2]
      cases p <;> first | rfl | simp at hp
  rw [← e ps hp t, h, e ps hp]

theorem OnlyIn.chan {ps : List Part} {s t : State} (h : OnlyIn ps s t) (hp : ps.contains .chan = false) : t.chan = s.chan := by
  have e (ps : List Part) (hp : ps.contains .chan = false) (s : State) : (s.blankAll ps).chan = s.chan := by
    induction ps generalizing s with
    | nil => rfl
    | cons p r ih =>
      rw [List.contains_cons, Bool.or_eq_false_iff] at hp
      rw [State.blankAll, ih hp.2]
      cases p <;> first | rfl | simp at hp
  rw [← e ps hp t, h, e ps hp]

theorem OnlyIn.own {ps : List Part} {s t : State} (h : OnlyIn ps s t) (hp : ps.contains .own = false) : t.own = s.own := by
  have e (ps : List Part) (hp : ps.contains .own = false) (s : State) : (s.blankAll ps).own = s.own := by
    induction ps generalizing s with
    | nil => rfl
    | cons p r ih =>
      rw [List.contains_cons, Bool.or_eq_false_iff] at hp
      rw [State.blankAll, ih hp.2]
      cases p <;> first | rfl | simp at hp
  rw [← e ps hp t, h, e ps hp]

theorem OnlyIn.store {ps : List Part} {s t : State} (h : OnlyIn ps s t) (hp : ps.contains .store = false) : t.store = s.store := by
  have e (ps : List Part) (hp : ps.contains .store = false) (s : State) : (s.blankAll ps).store = s.store := by
    induction ps generalizing s with
    | nil => rfl
    | cons p r ih =>
      rw [List.contains_cons, Bool.or_eq_false_iff] at hp
      rw [State.blankAll, ih hp.2]
      cases p <;> first | rfl | simp at hp
  rw [← e ps hp t, h, e ps hp]

theorem OnlyIn.mem {ps : List Part} {s t : State} (h : OnlyIn ps s t) (hp : ps.contains .mem = false) : t.mem = s.mem := by
  have e (ps : List Part) (hp : ps.contains .mem = false) (s : State) : (s.blankAll ps).mem = s.mem := by
    induction ps generalizing s with
    | nil => rfl
    | cons p r ih =>
      rw [List.contains_cons, Bool.or_eq_false_iff] at hp
      rw [State.blankAll, ih hp.2]
      cases p <;> first | rfl | simp at hp
  rw [← e ps hp t, h, e ps hp]

theorem OnlyIn.free {ps : List Part} {s t : State} (h : OnlyIn ps s t) (hp : ps.contains .free = false) : t.free = s.free := by
  have e (ps : List Part) (hp : ps.contains .free = false) (s : State) : (s.blankAll ps).free = s.free := by
    induction ps generalizing s with
    | nil => rfl
    | cons p r ih =>
      rw [List.contains_cons, Bool.or_eq_false_iff] at hp
      rw [State.blankAll, ih hp.2]
      cases p <;> first | rfl | simp at hp
  rw [← e ps hp t, h, e ps hp]

theorem OnlyIn.out {ps : List Part} {s t : State} (h : OnlyIn ps s t) (hp : ps.contains .out = false) : t.out = s.out := by
  have e (ps : List Part) (hp : ps.contains .out = false) (s : State) : (s.blankAll ps).out = s.out := by
    induction ps generalizing s with
    | nil => rfl
    | cons p r ih =>
      rw [List.contains_cons, Bool.or_eq_false_iff] at hp
      rw [State.blankAll, ih hp.2]
      cases p <;> first | rfl | simp at hp
  rw [← e ps hp t, h, e ps hp]

theorem OnlyIn.hostWait {ps : List Part} {s t : State} (h : OnlyIn ps s t) (hp : ps.contains .hostWait = false) : t.hostWait = s.hostWait := by
  have e (ps : List Part) (hp : ps.contains .hostWait = false) (s : State) : (s.blankAll ps).hostWait = s.hostWait := by
    induction ps generalizing s with
    | nil => rfl
    | cons p r ih =>
      rw [List.contains_cons, Bool.or_eq_false_iff] at hp
      rw [State.blankAll, ih hp.2]
      cases p <;> first | rfl | simp at hp
  rw [← e ps hp t, h, e ps hp]

end Sys2Proof.Machine
end

