-- ==== Sys2Proof/Laws/FrameOps.lean ====
section
/-!
SUPPORT. Laws/FrameOps.lean: what the definitions of Machine/Ops.lean leave alone: each changes the listed parts at most, and keeps the
canonical form.
-/
namespace Sys2Proof.Machine
open Sys2Proof

set_option Elab.async false
set_option linter.all false

theorem State.wr_frame {ps s t} f v i j (h : Within ps s t) (hp : Part.sub [.block f.block] ps = true) : Within ps s (State.wr t f v i j) := by
  refine h.step (a := [.block f.block]) ⟨?_, fun h => ⟨h.1, ?_⟩, List.suffix_refl _⟩ hp
  · have hk : (keyBlock (f.key i j) != f.block) = false := by rw [RField.keyBlock_key]; simp
    simp only [OnlyIn, State.blankAll, State.blank, State.wr]
    split
    · rw [Table.filter_drop _ (fun k => keyBlock k != f.block) _ hk]
    · rw [Table.filter_put _ (fun k => keyBlock k != f.block) _ _ hk]
  · simp only [State.wr]
    split
    · exact Table.rising_drop _ h.2
    · exact Table.rising_put _ _ h.2

theorem State.bump_frame {ps s t} f n i j (h : Within ps s t) (hp : Part.sub [.block f.block] ps = true) : Within ps s (State.bump t f n i j) := by
  unfold State.bump
  exact State.wr_frame f _ i j h hp

theorem State.peak_frame {ps s t} f v i j (h : Within ps s t) (hp : Part.sub [.block f.block] ps = true) : Within ps s (State.peak t f v i j) := by
  unfold State.peak
  exact State.wr_frame f _ i j h hp

theorem State.raise_frame {ps s t} f bits i (h : Within ps s t) (hp : Part.sub [.regs, .holding] ps = true) : Within ps s (State.raise t f bits i) := by
  refine h.step (a := [.regs, .holding]) ?_ hp
  unfold State.raise
  repeat' first
    | with_reducible exact Within.refl _ _
    | with_reducible assumption
    | (show Part.sub _ _ = true; rfl)
    | (extract_lets +onlyGivenNames x; with_reducible refine Within.cut (u := x) ?_ ?_; rotate_left; intro hx; clear_value x; rename' x => y; rotate_right; unfold x; clear x)
    | (extract_lets +onlyGivenNames x; clear_value x; rename' x => z)
    | (extract_lets +onlyGivenNames x; rename' x => z)
    | dsimp -zeta only
    | with_reducible apply State.wr_frame
    | with_reducible apply Within.ite
    | fail_if_no_progress (with_reducible refine Within.put (a := [.regs, .holding]) ?_ rfl rfl rfl rfl rfl)
    | split

theorem State.send_frame {ps s t} o (h : Within ps s t) (hp : Part.sub [.out] ps = true) : Within ps s (State.send t o) := by
  exact h.step (a := [.out]) ⟨rfl, id, List.suffix_cons _ _⟩ hp

theorem State.sendHost_frame {ps s t} o (h : Within ps s t) (hp : Part.sub [.out, .hostWait] ps = true) : Within ps s (State.sendHost t o) := by
  refine h.step (a := [.out, .hostWait]) ?_ hp
  unfold State.sendHost
  repeat' first
    | with_reducible exact Within.refl _ _
    | with_reducible assumption
    | (show Part.sub _ _ = true; rfl)
    | dsimp -zeta only
    | with_reducible apply State.send_frame
    | with_reducible apply Within.ite
    | fail_if_no_progress (with_reducible refine Within.put (a := [.hostWait]) ?_ rfl rfl rfl rfl rfl)
    | split

theorem State.sendAll_frame {ps s t} os (h : Within ps s t) (hp : Part.sub [.out] ps = true) : Within ps s (State.sendAll t os) := by
  exact h.step (a := [.out]) ⟨rfl, id, List.suffix_append _ _⟩ hp

theorem State.fresh_frame {ps s t}  (h : Within ps s t) (hp : Part.sub [.free] ps = true) : Within ps s (State.fresh t).2 := by
  refine h.step (a := [.free]) ?_ hp
  unfold State.fresh
  repeat' first
    | with_reducible exact Within.refl _ _
    | with_reducible assumption
    | (show Part.sub _ _ = true; rfl)
    | dsimp -zeta only
    | with_reducible apply Within.ite
    | fail_if_no_progress (with_reducible refine Within.put (a := [.free]) ?_ rfl rfl rfl rfl rfl)
    | split

theorem State.dummyRound_frame {ps s t}  (h : Within ps s t) (hp : Part.sub [.free] ps = true) : Within ps s (State.dummyRound t).2 := by
  refine h.step (a := [.free]) ?_ hp
  unfold State.dummyRound
  repeat' first
    | with_reducible exact Within.refl _ _
    | with_reducible assumption
    | (show Part.sub _ _ = true; rfl)
    | (extract_lets +onlyGivenNames x; with_reducible refine Within.cut (u := x) ?_ ?_; rotate_left; intro hx; clear_value x; rename' x => y; rotate_right; unfold x; clear x)
    | (extract_lets +onlyGivenNames x; clear_value x; rename' x => z)
    | (extract_lets +onlyGivenNames x; rename' x => z)
    | dsimp -zeta only
    | with_reducible apply State.fresh_frame
    | with_reducible apply Within.ite
    | split
    | (with_reducible refine Within.of_pair (by assumption) ?_)

theorem State.noteUncorr_frame {ps s t} a (h : Within ps s t) (hp : Part.sub [.block 20] ps = true) : Within ps s (State.noteUncorr t a) := by
  refine h.step (a := [.block 20]) ?_ hp
  unfold State.noteUncorr
  repeat' first
    | with_reducible exact Within.refl _ _
    | with_reducible assumption
    | (show Part.sub _ _ = true; rfl)
    | dsimp -zeta only
    | with_reducible apply State.bump_frame
    | with_reducible apply Within.ite
    | split

theorem State.ddrWrite_frame {ps s t} a b (h : Within ps s t) (hp : Part.sub [.mem] ps = true) : Within ps s (State.ddrWrite t a b) := by
  refine h.step (a := [.mem]) ?_ hp
  unfold State.ddrWrite
  split
  · exact .refl _ _
  · exact ⟨rfl, fun h => ⟨Memory.wf_write a b h.1, h.2⟩, List.suffix_refl _⟩

theorem State.ddrWriteList_frame {ps s t} a x2 (h : Within ps s t) (hp : Part.sub [.mem] ps = true) : Within ps s (State.ddrWriteList t a x2) := by
  induction x2 generalizing t a with
  | nil => exact h
  | cons b r ih => exact ih _ (State.ddrWrite_frame a b h hp)

theorem State.fireVector_frame {ps s t} v (h : Within ps s t) (hp : Part.sub [.host, .out] ps = true) : Within ps s (State.fireVector t v) := by
  refine h.step (a := [.host, .out]) ?_ hp
  unfold State.fireVector
  repeat' first
    | with_reducible exact Within.refl _ _
    | with_reducible assumption
    | (show Part.sub _ _ = true; rfl)
    | (extract_lets +onlyGivenNames x; with_reducible refine Within.cut (u := x) ?_ ?_; rotate_left; intro hx; clear_value x; rename' x => y; rotate_right; unfold x; clear x)
    | (extract_lets +onlyGivenNames x; clear_value x; rename' x => z)
    | (extract_lets +onlyGivenNames x; rename' x => z)
    | dsimp -zeta only
    | with_reducible apply State.send_frame
    | with_reducible apply Within.ite
    | fail_if_no_progress (with_reducible refine Within.put (a := [.host]) ?_ rfl rfl rfl rfl rfl)
    | split

theorem State.setSlice_frame {ps s t} n sl (h : Within ps s t) (hp : Part.sub [.host] ps = true) : Within ps s (State.setSlice t n sl) := by
  refine h.step (a := [.host]) ?_ hp
  unfold State.setSlice
  repeat' first
    | with_reducible exact Within.refl _ _
    | with_reducible assumption
    | (show Part.sub _ _ = true; rfl)
    | dsimp -zeta only
    | with_reducible apply Within.ite
    | fail_if_no_progress (with_reducible refine Within.put (a := [.host]) ?_ rfl rfl rfl rfl rfl)
    | split

theorem State.setRing_frame {ps s t} n sl ring r (h : Within ps s t) (hp : Part.sub [.host] ps = true) : Within ps s (State.setRing t n sl ring r) := by
  refine h.step (a := [.host]) ?_ hp
  unfold State.setRing
  repeat' first
    | with_reducible exact Within.refl _ _
    | with_reducible assumption
    | (show Part.sub _ _ = true; rfl)
    | dsimp -zeta only
    | with_reducible apply State.setSlice_frame
    | with_reducible apply Within.ite
    | fail_if_no_progress (with_reducible refine Within.put (a := []) ?_ rfl rfl rfl rfl rfl)
    | split

theorem State.pollRing_frame {ps s t} n ring (h : Within ps s t) (hp : Part.sub [.host, .out] ps = true) : Within ps s (State.pollRing t n ring) := by
  refine h.step (a := [.host, .out]) ?_ hp
  unfold State.pollRing
  repeat' first
    | with_reducible exact Within.refl _ _
    | with_reducible assumption
    | (show Part.sub _ _ = true; rfl)
    | dsimp -zeta only
    | with_reducible apply State.fireVector_frame
    | with_reducible apply State.setRing_frame
    | with_reducible apply Within.ite
    | fail_if_no_progress (with_reducible refine Within.put (a := []) ?_ rfl rfl rfl rfl rfl)
    | split

theorem State.cqWrite_frame {ps s t} n ring cid status r0 r1 noIrq isEvent (h : Within ps s t) (hp : Part.sub [.host, .out, .hostWait] ps = true) : Within ps s (State.cqWrite t n ring cid status r0 r1 noIrq isEvent) := by
  refine h.step (a := [.host, .out, .hostWait]) ?_ hp
  unfold State.cqWrite
  repeat' first
    | with_reducible exact Within.refl _ _
    | with_reducible assumption
    | (show Part.sub _ _ = true; rfl)
    | (extract_lets +onlyGivenNames x; with_reducible refine Within.cut (u := x) ?_ ?_; rotate_left; intro hx; clear_value x; rename' x => y; rotate_right; unfold x; clear x)
    | (extract_lets +onlyGivenNames x; clear_value x; rename' x => z)
    | (extract_lets +onlyGivenNames x; rename' x => z)
    | dsimp -zeta only
    | with_reducible apply State.sendHost_frame
    | with_reducible apply State.setRing_frame
    | with_reducible apply State.pollRing_frame
    | with_reducible apply Within.ite
    | fail_if_no_progress (with_reducible refine Within.put (a := []) ?_ rfl rfl rfl rfl rfl)
    | split

theorem State.postTo_frame {ps s t} n code detail (h : Within ps s t) (hp : Part.sub [.block 6, .host, .out, .hostWait] ps = true) : Within ps s (State.postTo t n code detail) := by
  refine h.step (a := [.block 6, .host, .out, .hostWait]) ?_ hp
  unfold State.postTo
  repeat' first
    | with_reducible exact Within.refl _ _
    | with_reducible assumption
    | (show Part.sub _ _ = true; rfl)
    | (extract_lets +onlyGivenNames x; with_reducible refine Within.cut (u := x) ?_ ?_; rotate_left; intro hx; clear_value x; rename' x => y; rotate_right; unfold x; clear x)
    | (extract_lets +onlyGivenNames x; clear_value x; rename' x => z)
    | (extract_lets +onlyGivenNames x; rename' x => z)
    | dsimp -zeta only
    | with_reducible apply State.bump_frame
    | with_reducible apply State.setSlice_frame
    | with_reducible apply State.cqWrite_frame
    | with_reducible apply Within.ite
    | fail_if_no_progress (with_reducible refine Within.put (a := [.host]) ?_ rfl rfl rfl rfl rfl)
    | split

theorem State.postObject_frame {ps s t} n code detail (h : Within ps s t) (hp : Part.sub [.block 6, .host, .out, .hostWait] ps = true) : Within ps s (State.postObject t n code detail) := by
  refine h.step (a := [.block 6, .host, .out, .hostWait]) ?_ hp
  unfold State.postObject
  repeat' first
    | with_reducible exact Within.refl _ _
    | with_reducible assumption
    | (show Part.sub _ _ = true; rfl)
    | dsimp -zeta only
    | with_reducible apply State.postTo_frame
    | with_reducible apply Within.ite
    | fail_if_no_progress (with_reducible refine Within.put (a := []) ?_ rfl rfl rfl rfl rfl)
    | split

theorem State.setQp_frame {ps s t} n q (h : Within ps s t) (hp : Part.sub [.trn] ps = true) : Within ps s (State.setQp t n q) := by
  refine h.step (a := [.trn]) ?_ hp
  unfold State.setQp
  repeat' first
    | with_reducible exact Within.refl _ _
    | with_reducible assumption
    | (show Part.sub _ _ = true; rfl)
    | dsimp -zeta only
    | with_reducible apply Within.ite
    | fail_if_no_progress (with_reducible refine Within.put (a := [.trn]) ?_ rfl rfl rfl rfl rfl)
    | split

theorem State.setLPort_frame {ps s t} l p (h : Within ps s t) (hp : Part.sub [.ports] ps = true) : Within ps s (State.setLPort t l p) := by
  refine h.step (a := [.ports]) ?_ hp
  unfold State.setLPort
  repeat' first
    | with_reducible exact Within.refl _ _
    | with_reducible assumption
    | (show Part.sub _ _ = true; rfl)
    | dsimp -zeta only
    | with_reducible apply Within.ite
    | fail_if_no_progress (with_reducible refine Within.put (a := [.ports]) ?_ rfl rfl rfl rfl rfl)
    | split

theorem State.secTake_frame {ps s t} l frames (h : Within ps s t) (hp : Part.sub [.ports, .out] ps = true) : Within ps s (State.secTake t l frames).2 := by
  refine h.step (a := [.ports, .out]) ?_ hp
  unfold State.secTake
  repeat' first
    | with_reducible exact Within.refl _ _
    | with_reducible assumption
    | (show Part.sub _ _ = true; rfl)
    | (extract_lets +onlyGivenNames x; with_reducible refine Within.cut (u := x) ?_ ?_; rotate_left; intro hx; clear_value x; rename' x => y; rotate_right; unfold x; clear x)
    | (extract_lets +onlyGivenNames x; clear_value x; rename' x => z)
    | (extract_lets +onlyGivenNames x; rename' x => z)
    | dsimp -zeta only
    | with_reducible apply State.send_frame
    | with_reducible apply State.setLPort_frame
    | with_reducible apply Within.ite
    | fail_if_no_progress (with_reducible refine Within.put (a := []) ?_ rfl rfl rfl rfl rfl)
    | split

theorem State.wirePacket_frame {ps s t} l n o (h : Within ps s t) (hp : Part.sub [.ports, .out] ps = true) : Within ps s (State.wirePacket t l n o) := by
  refine h.step (a := [.ports, .out]) ?_ hp
  unfold State.wirePacket
  repeat' first
    | with_reducible exact Within.refl _ _
    | with_reducible assumption
    | (show Part.sub _ _ = true; rfl)
    | (extract_lets +onlyGivenNames x; with_reducible refine Within.cut (u := x) ?_ ?_; rotate_left; intro hx; clear_value x; rename' x => y; rotate_right; unfold x; clear x)
    | (extract_lets +onlyGivenNames x; clear_value x; rename' x => z)
    | (extract_lets +onlyGivenNames x; rename' x => z)
    | dsimp -zeta only
    | with_reducible apply State.send_frame
    | with_reducible apply State.secTake_frame
    | with_reducible apply Within.ite
    | fail_if_no_progress (with_reducible refine Within.put (a := []) ?_ rfl rfl rfl rfl rfl)
    | split
    | (with_reducible refine Within.of_pair (by assumption) ?_)

theorem State.sendPacket_frame {ps s t} n o (h : Within ps s t) (hp : Part.sub [.ports, .out] ps = true) : Within ps s (State.sendPacket t n o) := by
  refine h.step (a := [.ports, .out]) ?_ hp
  unfold State.sendPacket
  repeat' first
    | with_reducible exact Within.refl _ _
    | with_reducible assumption
    | (show Part.sub _ _ = true; rfl)
    | (extract_lets +onlyGivenNames x; with_reducible refine Within.cut (u := x) ?_ ?_; rotate_left; intro hx; clear_value x; rename' x => y; rotate_right; unfold x; clear x)
    | (extract_lets +onlyGivenNames x; clear_value x; rename' x => z)
    | (extract_lets +onlyGivenNames x; rename' x => z)
    | dsimp -zeta only
    | with_reducible apply State.setLPort_frame
    | with_reducible apply State.wirePacket_frame
    | with_reducible apply Within.ite
    | fail_if_no_progress (with_reducible refine Within.put (a := []) ?_ rfl rfl rfl rfl rfl)
    | split

theorem State.releasePackets_frame {ps s t} l (h : Within ps s t) (hp : Part.sub [.ports, .out] ps = true) : Within ps s (State.releasePackets t l) := by
  refine h.step (a := [.ports, .out]) ?_ hp
  unfold State.releasePackets
  repeat' first
    | with_reducible exact Within.refl _ _
    | with_reducible assumption
    | (show Part.sub _ _ = true; rfl)
    | (extract_lets +onlyGivenNames x; with_reducible refine Within.cut (u := x) ?_ ?_; rotate_left; intro hx; clear_value x; rename' x => y; rotate_right; unfold x; clear x)
    | (extract_lets +onlyGivenNames x; clear_value x; rename' x => z)
    | (extract_lets +onlyGivenNames x; rename' x => z)
    | dsimp -zeta only
    | with_reducible apply State.setLPort_frame
    | with_reducible apply State.wirePacket_frame
    | with_reducible apply Within.ite
    | (with_reducible refine Within.foldl _ ?_ ?_; rotate_left; intro _ _)
    | (with_reducible refine Within.foldl_snd _ ?_ ?_; rotate_left; intro _ _)
    | fail_if_no_progress (with_reducible refine Within.put (a := []) ?_ rfl rfl rfl rfl rfl)
    | split

theorem State.transmit_frame {ps s t} qpn n o (h : Within ps s t) (hp : Part.sub [.ports, .trn, .out] ps = true) : Within ps s (State.transmit t qpn n o) := by
  refine h.step (a := [.ports, .trn, .out]) ?_ hp
  unfold State.transmit
  repeat' first
    | with_reducible exact Within.refl _ _
    | with_reducible assumption
    | (show Part.sub _ _ = true; rfl)
    | (extract_lets +onlyGivenNames x; with_reducible refine Within.cut (u := x) ?_ ?_; rotate_left; intro hx; clear_value x; rename' x => y; rotate_right; unfold x; clear x)
    | (extract_lets +onlyGivenNames x; clear_value x; rename' x => z)
    | (extract_lets +onlyGivenNames x; rename' x => z)
    | dsimp -zeta only
    | with_reducible apply State.sendPacket_frame
    | with_reducible apply Within.ite
    | fail_if_no_progress (with_reducible refine Within.put (a := [.trn]) ?_ rfl rfl rfl rfl rfl)
    | split

theorem State.issueRead_frame {ps s t} n (h : Within ps s t) (hp : Part.sub [.ports, .trn, .out] ps = true) : Within ps s (State.issueRead t n) := by
  refine h.step (a := [.ports, .trn, .out]) ?_ hp
  unfold State.issueRead
  repeat' first
    | with_reducible exact Within.refl _ _
    | with_reducible assumption
    | (show Part.sub _ _ = true; rfl)
    | (extract_lets +onlyGivenNames x; with_reducible refine Within.cut (u := x) ?_ ?_; rotate_left; intro hx; clear_value x; rename' x => y; rotate_right; unfold x; clear x)
    | (extract_lets +onlyGivenNames x; clear_value x; rename' x => z)
    | (extract_lets +onlyGivenNames x; rename' x => z)
    | dsimp -zeta only
    | with_reducible apply State.setQp_frame
    | with_reducible apply State.transmit_frame
    | with_reducible apply Within.ite
    | fail_if_no_progress (with_reducible refine Within.put (a := []) ?_ rfl rfl rfl rfl rfl)
    | split

theorem State.issueReads_frame {ps s t} role (h : Within ps s t) (hp : Part.sub [.ports, .trn, .out] ps = true) : Within ps s (State.issueReads t role) := by
  refine h.step (a := [.ports, .trn, .out]) ?_ hp
  unfold State.issueReads
  repeat' first
    | with_reducible exact Within.refl _ _
    | with_reducible assumption
    | (show Part.sub _ _ = true; rfl)
    | dsimp -zeta only
    | with_reducible apply State.issueRead_frame
    | with_reducible apply Within.ite
    | (with_reducible refine Within.foldl _ ?_ ?_; rotate_left; intro _ _)
    | (with_reducible refine Within.foldl_snd _ ?_ ?_; rotate_left; intro _ _)
    | split

theorem State.queueRead_frame {ps s t} n bt segment len (h : Within ps s t) (hp : Part.sub [.ports, .trn, .cmd, .out] ps = true) : Within ps s (State.queueRead t n bt segment len) := by
  refine h.step (a := [.ports, .trn, .cmd, .out]) ?_ hp
  unfold State.queueRead
  repeat' first
    | with_reducible exact Within.refl _ _
    | with_reducible assumption
    | (show Part.sub _ _ = true; rfl)
    | (extract_lets +onlyGivenNames x; with_reducible refine Within.cut (u := x) ?_ ?_; rotate_left; intro hx; clear_value x; rename' x => y; rotate_right; unfold x; clear x)
    | (extract_lets +onlyGivenNames x; clear_value x; rename' x => z)
    | (extract_lets +onlyGivenNames x; rename' x => z)
    | dsimp -zeta only
    | with_reducible apply State.setQp_frame
    | with_reducible apply State.issueRead_frame
    | with_reducible apply Within.ite
    | fail_if_no_progress (with_reducible refine Within.put (a := [.cmd]) ?_ rfl rfl rfl rfl rfl)
    | split

theorem State.sendPfc_frame {ps s t} xoff (h : Within ps s t) (hp : Part.sub [.out] ps = true) : Within ps s (State.sendPfc t xoff) := by
  refine h.step (a := [.out]) ?_ hp
  unfold State.sendPfc
  repeat' first
    | with_reducible exact Within.refl _ _
    | with_reducible assumption
    | (show Part.sub _ _ = true; rfl)
    | dsimp -zeta only
    | with_reducible apply State.send_frame
    | with_reducible apply Within.ite
    | (with_reducible refine Within.foldl _ ?_ ?_; rotate_left; intro _ _)
    | (with_reducible refine Within.foldl_snd _ ?_ ?_; rotate_left; intro _ _)
    | split

theorem State.noteLayby_frame {ps s t}  (h : Within ps s t) (hp : Part.sub [.block 9, .trn, .out] ps = true) : Within ps s (State.noteLayby t) := by
  refine h.step (a := [.block 9, .trn, .out]) ?_ hp
  unfold State.noteLayby
  repeat' first
    | with_reducible exact Within.refl _ _
    | with_reducible assumption
    | (show Part.sub _ _ = true; rfl)
    | (extract_lets +onlyGivenNames x; with_reducible refine Within.cut (u := x) ?_ ?_; rotate_left; intro hx; clear_value x; rename' x => y; rotate_right; unfold x; clear x)
    | (extract_lets +onlyGivenNames x; clear_value x; rename' x => z)
    | (extract_lets +onlyGivenNames x; rename' x => z)
    | dsimp -zeta only
    | with_reducible apply State.wr_frame
    | with_reducible apply State.sendPfc_frame
    | with_reducible apply Within.ite
    | fail_if_no_progress (with_reducible refine Within.put (a := [.trn]) ?_ rfl rfl rfl rfl rfl)
    | split

theorem State.bufferRecord_frame {ps s t} r (h : Within ps s t) (hp : Part.sub [.block 4, .evt] ps = true) : Within ps s (State.bufferRecord t r) := by
  refine h.step (a := [.block 4, .evt]) ?_ hp
  unfold State.bufferRecord
  repeat' first
    | with_reducible exact Within.refl _ _
    | with_reducible assumption
    | (show Part.sub _ _ = true; rfl)
    | dsimp -zeta only
    | with_reducible apply State.bump_frame
    | with_reducible apply Within.ite
    | fail_if_no_progress (with_reducible refine Within.put (a := [.evt]) ?_ rfl rfl rfl rfl rfl)
    | split

theorem State.frontRecord_frame {ps s t} r clearing (h : Within ps s t) (hp : Part.sub [.block 4, .evt, .nor] ps = true) : Within ps s (State.frontRecord t r clearing) := by
  refine h.step (a := [.block 4, .evt, .nor]) ?_ hp
  unfold State.frontRecord
  repeat' first
    | with_reducible exact Within.refl _ _
    | with_reducible assumption
    | (show Part.sub _ _ = true; rfl)
    | (extract_lets +onlyGivenNames x; with_reducible refine Within.cut (u := x) ?_ ?_; rotate_left; intro hx; clear_value x; rename' x => y; rotate_right; unfold x; clear x)
    | (extract_lets +onlyGivenNames x; clear_value x; rename' x => z)
    | (extract_lets +onlyGivenNames x; rename' x => z)
    | dsimp -zeta only
    | with_reducible apply State.wr_frame
    | with_reducible apply State.bufferRecord_frame
    | with_reducible apply Within.ite
    | fail_if_no_progress (with_reducible refine Within.put (a := [.evt, .nor]) ?_ rfl rfl rfl rfl rfl)
    | split

theorem State.passRecord_frame {ps s t} code detail (h : Within ps s t) (hp : Part.sub [.block 4, .block 6, .evt, .nor, .host, .out, .hostWait] ps = true) : Within ps s (State.passRecord t code detail) := by
  refine h.step (a := [.block 4, .block 6, .evt, .nor, .host, .out, .hostWait]) ?_ hp
  unfold State.passRecord
  repeat' first
    | with_reducible exact Within.refl _ _
    | with_reducible assumption
    | (show Part.sub _ _ = true; rfl)
    | (extract_lets +onlyGivenNames x; with_reducible refine Within.cut (u := x) ?_ ?_; rotate_left; intro hx; clear_value x; rename' x => y; rotate_right; unfold x; clear x)
    | (extract_lets +onlyGivenNames x; clear_value x; rename' x => z)
    | (extract_lets +onlyGivenNames x; rename' x => z)
    | dsimp -zeta only
    | with_reducible apply State.postTo_frame
    | with_reducible apply State.bufferRecord_frame
    | with_reducible apply State.frontRecord_frame
    | with_reducible apply Within.ite
    | (with_reducible refine Within.foldl _ ?_ ?_; rotate_left; intro _ _)
    | (with_reducible refine Within.foldl_snd _ ?_ ?_; rotate_left; intro _ _)
    | split

theorem State.setBucket_frame {ps s t} code b (h : Within ps s t) (hp : Part.sub [.evt] ps = true) : Within ps s (State.setBucket t code b) := by
  refine h.step (a := [.evt]) ?_ hp
  unfold State.setBucket
  repeat' first
    | with_reducible exact Within.refl _ _
    | with_reducible assumption
    | (show Part.sub _ _ = true; rfl)
    | dsimp -zeta only
    | with_reducible apply Within.ite
    | fail_if_no_progress (with_reducible refine Within.put (a := [.evt]) ?_ rfl rfl rfl rfl rfl)
    | split

theorem State.event_frame {ps s t} code detail (h : Within ps s t) (hp : Part.sub [.block 4, .block 6, .evt, .nor, .host, .out, .hostWait] ps = true) : Within ps s (State.event t code detail) := by
  refine h.step (a := [.block 4, .block 6, .evt, .nor, .host, .out, .hostWait]) ?_ hp
  unfold State.event
  repeat' first
    | with_reducible exact Within.refl _ _
    | with_reducible assumption
    | (show Part.sub _ _ = true; rfl)
    | (extract_lets +onlyGivenNames x; with_reducible refine Within.cut (u := x) ?_ ?_; rotate_left; intro hx; clear_value x; rename' x => y; rotate_right; unfold x; clear x)
    | (extract_lets +onlyGivenNames x; clear_value x; rename' x => z)
    | (extract_lets +onlyGivenNames x; rename' x => z)
    | dsimp -zeta only
    | with_reducible apply State.passRecord_frame
    | with_reducible apply State.setBucket_frame
    | with_reducible apply Within.ite
    | split

theorem State.event1_frame {ps s t} code v (h : Within ps s t) (hp : Part.sub [.block 4, .block 6, .evt, .nor, .host, .out, .hostWait] ps = true) : Within ps s (State.event1 t code v) := by
  refine h.step (a := [.block 4, .block 6, .evt, .nor, .host, .out, .hostWait]) ?_ hp
  unfold State.event1
  repeat' first
    | with_reducible exact Within.refl _ _
    | with_reducible assumption
    | (show Part.sub _ _ = true; rfl)
    | dsimp -zeta only
    | with_reducible apply State.event_frame
    | with_reducible apply Within.ite
    | split

theorem State.complete_frame {ps s t} c status r0 r1 (h : Within ps s t) (hp : Part.sub [.host, .out, .hostWait] ps = true) : Within ps s (State.complete t c status r0 r1) := by
  refine h.step (a := [.host, .out, .hostWait]) ?_ hp
  unfold State.complete
  repeat' first
    | with_reducible exact Within.refl _ _
    | with_reducible assumption
    | (show Part.sub _ _ = true; rfl)
    | (extract_lets +onlyGivenNames x; with_reducible refine Within.cut (u := x) ?_ ?_; rotate_left; intro hx; clear_value x; rename' x => y; rotate_right; unfold x; clear x)
    | (extract_lets +onlyGivenNames x; clear_value x; rename' x => z)
    | (extract_lets +onlyGivenNames x; rename' x => z)
    | dsimp -zeta only
    | with_reducible apply State.setSlice_frame
    | with_reducible apply State.cqWrite_frame
    | with_reducible apply Within.ite
    | fail_if_no_progress (with_reducible refine Within.put (a := []) ?_ rfl rfl rfl rfl rfl)
    | split

theorem State.ringGate_frame {ps s t} c cap run (h : Within ps s t) (hp : Part.sub [.host, .out, .hostWait] ps = true)
    (hr : ∀ sl, Within ps t (run sl)) : Within ps s (State.ringGate t c cap run) := by
  unfold State.ringGate
  dsimp only
  split
  · exact State.complete_frame c _ _ _ h hp
  · split
    · exact h.trans (hr _)
    · exact State.complete_frame c _ _ _ h hp
  · split
    · exact h.trans (hr _)
    · exact h

end Sys2Proof.Machine
end

