-- ==== Sys2Proof/Laws/FrameBootCore.lean ====
section
/-!
SUPPORT. Laws/FrameBootCore.lean: what the definitions of Machine/BootCore.lean leave alone: each changes the listed parts at most, and keeps the
canonical form.
-/
namespace Sys2Proof.Machine
open Sys2Proof

set_option Elab.async false
set_option linter.all false

theorem State.appendRecord_frame {ps s t} f (h : Within ps s t) (hp : Part.sub [.nor] ps = true) : Within ps s (State.appendRecord t f) := by
  refine h.step (a := [.nor]) ?_ hp
  unfold State.appendRecord
  repeat' first
    | with_reducible exact Within.refl _ _
    | with_reducible assumption
    | (show Part.sub _ _ = true; rfl)
    | (extract_lets +onlyGivenNames x; with_reducible refine Within.cut (u := x) ?_ ?_; rotate_left; intro hx; clear_value x; rename' x => y; rotate_right; unfold x; clear x)
    | (extract_lets +onlyGivenNames x; clear_value x; rename' x => z)
    | (extract_lets +onlyGivenNames x; rename' x => z)
    | dsimp -zeta only
    | with_reducible apply Within.ite
    | fail_if_no_progress (with_reducible refine Within.put (a := [.nor]) ?_ rfl rfl rfl rfl rfl)
    | split

theorem State.raiseCeiling_frame {ps s t}  (h : Within ps s t) (hp : Part.sub [.block 16, .nor] ps = true) : Within ps s (State.raiseCeiling t) := by
  refine h.step (a := [.block 16, .nor]) ?_ hp
  unfold State.raiseCeiling
  repeat' first
    | with_reducible exact Within.refl _ _
    | with_reducible assumption
    | (show Part.sub _ _ = true; rfl)
    | (extract_lets +onlyGivenNames x; with_reducible refine Within.cut (u := x) ?_ ?_; rotate_left; intro hx; clear_value x; rename' x => y; rotate_right; unfold x; clear x)
    | (extract_lets +onlyGivenNames x; clear_value x; rename' x => z)
    | (extract_lets +onlyGivenNames x; rename' x => z)
    | dsimp -zeta only
    | with_reducible apply State.wr_frame
    | with_reducible apply State.appendRecord_frame
    | with_reducible apply Within.ite
    | fail_if_no_progress (with_reducible refine Within.put (a := []) ?_ rfl rfl rfl rfl rfl)
    | split

theorem State.writePage_frame {ps s t}  (h : Within ps s t) (hp : Part.sub [.block 4, .block 6, .evt, .nor, .host, .out, .hostWait] ps = true) : Within ps s (State.writePage t) := by
  refine h.step (a := [.block 4, .block 6, .evt, .nor, .host, .out, .hostWait]) ?_ hp
  unfold State.writePage
  repeat' first
    | with_reducible exact Within.refl _ _
    | with_reducible assumption
    | (show Part.sub _ _ = true; rfl)
    | (extract_lets +onlyGivenNames x; with_reducible refine Within.cut (u := x) ?_ ?_; rotate_left; intro hx; clear_value x; rename' x => y; rotate_right; unfold x; clear x)
    | (extract_lets +onlyGivenNames x; clear_value x; rename' x => z)
    | (extract_lets +onlyGivenNames x; rename' x => z)
    | dsimp -zeta only
    | with_reducible apply State.passRecord_frame
    | with_reducible apply Within.ite
    | fail_if_no_progress (with_reducible refine Within.put (a := [.evt, .nor]) ?_ rfl rfl rfl rfl rfl)
    | split

theorem State.writePages_frame {ps s t} n (h : Within ps s t) (hp : Part.sub [.block 4, .block 6, .evt, .nor, .host, .out, .hostWait] ps = true) : Within ps s (State.writePages n t) := by
  induction n generalizing t with
  | zero => exact h
  | succ n ih => exact Within.ite h (ih (State.writePage_frame h hp))

theorem State.flushBuffer_frame {ps s t}  (h : Within ps s t) (hp : Part.sub [.block 4, .block 6, .evt, .nor, .host, .out, .hostWait] ps = true) : Within ps s (State.flushBuffer t) := by
  refine h.step (a := [.block 4, .block 6, .evt, .nor, .host, .out, .hostWait]) ?_ hp
  unfold State.flushBuffer
  repeat' first
    | with_reducible exact Within.refl _ _
    | with_reducible assumption
    | (show Part.sub _ _ = true; rfl)
    | dsimp -zeta only
    | with_reducible apply State.writePages_frame
    | with_reducible apply Within.ite
    | split

theorem State.tornSlot_frame {ps s t}  (h : Within ps s t) (hp : Part.sub [.nor] ps = true) : Within ps s (State.tornSlot t) := by
  refine h.step (a := [.nor]) ?_ hp
  unfold State.tornSlot
  repeat' first
    | with_reducible exact Within.refl _ _
    | with_reducible assumption
    | (show Part.sub _ _ = true; rfl)
    | dsimp -zeta only
    | with_reducible apply Within.ite
    | fail_if_no_progress (with_reducible refine Within.put (a := [.nor]) ?_ rfl rfl rfl rfl rfl)
    | split

theorem State.readFuses_frame {ps s t}  (h : Within ps s t) (hp : Part.sub [.block 0, .block 2, .block 3, .block 16, .nor] ps = true) : Within ps s (State.readFuses t) := by
  refine h.step (a := [.block 0, .block 2, .block 3, .block 16, .nor]) ?_ hp
  unfold State.readFuses
  repeat' first
    | with_reducible exact Within.refl _ _
    | with_reducible assumption
    | (show Part.sub _ _ = true; rfl)
    | (extract_lets +onlyGivenNames x; with_reducible refine Within.cut (u := x) ?_ ?_; rotate_left; intro hx; clear_value x; rename' x => y; rotate_right; unfold x; clear x)
    | (extract_lets +onlyGivenNames x; clear_value x; rename' x => z)
    | (extract_lets +onlyGivenNames x; rename' x => z)
    | dsimp -zeta only
    | with_reducible apply State.wr_frame
    | with_reducible apply Within.ite
    | fail_if_no_progress (with_reducible refine Within.put (a := [.nor]) ?_ rfl rfl rfl rfl rfl)
    | split

theorem State.resetCore_frame {ps s t}  (h : Within ps s t) (hp : Part.sub [.regs, .holding, .ringTime, .pins, .power, .boot, .test, .evt, .host, .ports, .trn, .cmd, .bnd, .ddp, .keys, .wc, .sig, .lfl, .map, .rep, .prg, .xrn, .chan, .own, .hostWait] ps = true) : Within ps s (State.resetCore t) := by
  refine h.step (a := [.regs, .holding, .ringTime, .pins, .power, .boot, .test, .evt, .host, .ports, .trn, .cmd, .bnd, .ddp, .keys, .wc, .sig, .lfl, .map, .rep, .prg, .xrn, .chan, .own, .hostWait]) ⟨?_, fun hi => ⟨hi.1, Table.rising_nil⟩, List.suffix_refl _⟩ hp
  simp only [OnlyIn, State.blankAll, State.blank, State.resetCore, State.reset]

theorem State.partReset_frame {ps s t} cause (h : Within ps s t) (hp : Part.sub [.regs, .holding, .ringTime, .pins, .power, .boot, .test, .evt, .nor, .host, .ports, .trn, .cmd, .bnd, .ddp, .keys, .wc, .sig, .lfl, .map, .rep, .prg, .xrn, .chan, .own, .hostWait] ps = true) : Within ps s (State.partReset t cause) := by
  refine h.step (a := [.regs, .holding, .ringTime, .pins, .power, .boot, .test, .evt, .nor, .host, .ports, .trn, .cmd, .bnd, .ddp, .keys, .wc, .sig, .lfl, .map, .rep, .prg, .xrn, .chan, .own, .hostWait]) ?_ hp
  unfold State.partReset
  repeat' first
    | with_reducible exact Within.refl _ _
    | with_reducible assumption
    | (show Part.sub _ _ = true; rfl)
    | dsimp -zeta only
    | with_reducible apply State.wr_frame
    | with_reducible apply State.tornSlot_frame
    | with_reducible apply State.readFuses_frame
    | with_reducible apply State.resetCore_frame
    | with_reducible apply Within.ite
    | split

end Sys2Proof.Machine
end

