-- ==== Sys2Proof/Laws/FrameChannel.lean ====
section
/-!
SUPPORT. Laws/FrameChannel.lean: what the definitions of Machine/Channel.lean leave alone: each changes the listed parts at most, and keeps the
canonical form.
-/
namespace Sys2Proof.Machine
open Sys2Proof

set_option Elab.async false
set_option linter.all false

theorem State.onLink_frame {ps s t} l o (h : Within ps s t) (hp : Part.sub [.chan, .out] ps = true) : Within ps s (State.onLink t l o) := by
  refine h.step (a := [.chan, .out]) ?_ hp
  unfold State.onLink
  repeat' first
    | with_reducible exact Within.refl _ _
    | with_reducible assumption
    | (show Part.sub _ _ = true; rfl)
    | (extract_lets +onlyGivenNames x; with_reducible refine Within.cut (u := x) ?_ ?_; rotate_left; intro hx; clear_value x; rename' x => y; rotate_right; unfold x; clear x)
    | (extract_lets +onlyGivenNames x; clear_value x; rename' x => z)
    | (extract_lets +onlyGivenNames x; rename' x => z)
    | dsimp -zeta only
    | with_reducible apply State.send_frame
    | with_reducible apply Within.ite
    | fail_if_no_progress (with_reducible refine Within.put (a := [.chan]) ?_ rfl rfl rfl rfl rfl)
    | split

theorem State.sendOn_frame {ps s t} l o (h : Within ps s t) (hp : Part.sub [.chan, .out] ps = true) : Within ps s (State.sendOn t l o) := by
  refine h.step (a := [.chan, .out]) ?_ hp
  unfold State.sendOn
  repeat' first
    | with_reducible exact Within.refl _ _
    | with_reducible assumption
    | (show Part.sub _ _ = true; rfl)
    | (extract_lets +onlyGivenNames x; with_reducible refine Within.cut (u := x) ?_ ?_; rotate_left; intro hx; clear_value x; rename' x => y; rotate_right; unfold x; clear x)
    | (extract_lets +onlyGivenNames x; clear_value x; rename' x => z)
    | (extract_lets +onlyGivenNames x; rename' x => z)
    | dsimp -zeta only
    | with_reducible apply State.onLink_frame
    | with_reducible apply Within.ite
    | fail_if_no_progress (with_reducible refine Within.put (a := [.chan]) ?_ rfl rfl rfl rfl rfl)
    | split

theorem State.sendRing_frame {ps s t} o (h : Within ps s t) (hp : Part.sub [.chan, .out] ps = true) : Within ps s (State.sendRing t o) := by
  refine h.step (a := [.chan, .out]) ?_ hp
  unfold State.sendRing
  repeat' first
    | with_reducible exact Within.refl _ _
    | with_reducible assumption
    | (show Part.sub _ _ = true; rfl)
    | dsimp -zeta only
    | with_reducible apply State.sendOn_frame
    | with_reducible apply Within.ite
    | fail_if_no_progress (with_reducible refine Within.put (a := [.chan]) ?_ rfl rfl rfl rfl rfl)
    | split

theorem State.sendOwed_frame {ps s t}  (h : Within ps s t) (hp : Part.sub [.chan, .out] ps = true) : Within ps s (State.sendOwed t) := by
  refine h.step (a := [.chan, .out]) ?_ hp
  unfold State.sendOwed
  repeat' first
    | with_reducible exact Within.refl _ _
    | with_reducible assumption
    | (show Part.sub _ _ = true; rfl)
    | dsimp -zeta only
    | with_reducible apply State.sendRing_frame
    | with_reducible apply Within.ite
    | (with_reducible refine Within.foldl _ ?_ ?_; rotate_left; intro _ _)
    | (with_reducible refine Within.foldl_snd _ ?_ ?_; rotate_left; intro _ _)
    | fail_if_no_progress (with_reducible refine Within.put (a := [.chan]) ?_ rfl rfl rfl rfl rfl)
    | split

theorem State.pumpLink_frame {ps s t} l n (h : Within ps s t) (hp : Part.sub [.chan, .out] ps = true) : Within ps s (State.pumpLink l n t) := by
  refine h.step (a := [.chan, .out]) ?_ hp
  clear h
  induction n generalizing t with
  | zero => exact .refl _ _
  | succ n ih =>
    unfold State.pumpLink
    split
    · exact .refl _ _
    · dsimp only
      split
      · exact .refl _ _
      · exact (State.onLink_frame _ _ (Within.put (a := [.chan]) (.refl _ _) rfl rfl rfl rfl rfl) (by decide)).trans ih

theorem State.pumpLinks_frame {ps s t}  (h : Within ps s t) (hp : Part.sub [.chan, .out] ps = true) : Within ps s (State.pumpLinks t) := by
  refine h.step (a := [.chan, .out]) ?_ hp
  unfold State.pumpLinks
  repeat' first
    | with_reducible exact Within.refl _ _
    | with_reducible assumption
    | (show Part.sub _ _ = true; rfl)
    | (extract_lets +onlyGivenNames x; with_reducible refine Within.cut (u := x) ?_ ?_; rotate_left; intro hx; clear_value x; rename' x => y; rotate_right; unfold x; clear x)
    | (extract_lets +onlyGivenNames x; clear_value x; rename' x => z)
    | (extract_lets +onlyGivenNames x; rename' x => z)
    | dsimp -zeta only
    | with_reducible apply State.pumpLink_frame
    | with_reducible apply Within.ite
    | (with_reducible refine Within.foldl _ ?_ ?_; rotate_left; intro _ _)
    | (with_reducible refine Within.foldl_snd _ ?_ ?_; rotate_left; intro _ _)
    | fail_if_no_progress (with_reducible refine Within.put (a := [.chan]) ?_ rfl rfl rfl rfl rfl)
    | split

theorem State.dropLink_frame {ps s t} l (h : Within ps s t) (hp : Part.sub [.chan] ps = true) : Within ps s (State.dropLink t l) := by
  refine h.step (a := [.chan]) ?_ hp
  unfold State.dropLink
  repeat' first
    | with_reducible exact Within.refl _ _
    | with_reducible assumption
    | (show Part.sub _ _ = true; rfl)
    | (extract_lets +onlyGivenNames x; with_reducible refine Within.cut (u := x) ?_ ?_; rotate_left; intro hx; clear_value x; rename' x => y; rotate_right; unfold x; clear x)
    | (extract_lets +onlyGivenNames x; clear_value x; rename' x => z)
    | (extract_lets +onlyGivenNames x; rename' x => z)
    | dsimp -zeta only
    | with_reducible apply Within.ite
    | fail_if_no_progress (with_reducible refine Within.put (a := [.chan]) ?_ rfl rfl rfl rfl rfl)
    | split

end Sys2Proof.Machine
end

