-- ==== Sys2Proof/Laws/FrameMapCache.lean ====
section
/-!
SUPPORT. Laws/FrameMapCache.lean: what the definitions of Machine/MapCache.lean leave alone: each changes the listed parts at most, and keeps the
canonical form.
-/
namespace Sys2Proof.Machine
open Sys2Proof

set_option Elab.async false
set_option linter.all false

theorem State.setPage_frame {ps s t} n p (h : Within ps s t) (hp : Part.sub [.map] ps = true) : Within ps s (State.setPage t n p) := by
  refine h.step (a := [.map]) ?_ hp
  unfold State.setPage
  repeat' first
    | with_reducible exact Within.refl _ _
    | with_reducible assumption
    | (show Part.sub _ _ = true; rfl)
    | dsimp -zeta only
    | with_reducible apply Within.ite
    | fail_if_no_progress (with_reducible refine Within.put (a := [.map]) ?_ rfl rfl rfl rfl rfl)
    | split

theorem State.issueFill_frame {ps s t} line (h : Within ps s t) (hp : Part.sub [.block 13, .map] ps = true) : Within ps s (State.issueFill t line) := by
  refine h.step (a := [.block 13, .map]) ?_ hp
  unfold State.issueFill
  repeat' first
    | with_reducible exact Within.refl _ _
    | with_reducible assumption
    | (show Part.sub _ _ = true; rfl)
    | (extract_lets +onlyGivenNames x; with_reducible refine Within.cut (u := x) ?_ ?_; rotate_left; intro hx; clear_value x; rename' x => y; rotate_right; unfold x; clear x)
    | (extract_lets +onlyGivenNames x; clear_value x; rename' x => z)
    | (extract_lets +onlyGivenNames x; rename' x => z)
    | dsimp -zeta only
    | with_reducible apply State.bump_frame
    | with_reducible apply Within.ite
    | fail_if_no_progress (with_reducible refine Within.put (a := [.map]) ?_ rfl rfl rfl rfl rfl)
    | split

theorem State.cacheLookup_frame {ps s t} addr (h : Within ps s t) (hp : Part.sub [.block 13, .map] ps = true) : Within ps s (State.cacheLookup t addr) := by
  refine h.step (a := [.block 13, .map]) ?_ hp
  unfold State.cacheLookup
  repeat' first
    | with_reducible exact Within.refl _ _
    | with_reducible assumption
    | (show Part.sub _ _ = true; rfl)
    | (extract_lets +onlyGivenNames x; with_reducible refine Within.cut (u := x) ?_ ?_; rotate_left; intro hx; clear_value x; rename' x => y; rotate_right; unfold x; clear x)
    | (extract_lets +onlyGivenNames x; clear_value x; rename' x => z)
    | (extract_lets +onlyGivenNames x; rename' x => z)
    | dsimp -zeta only
    | with_reducible apply State.bump_frame
    | with_reducible apply State.issueFill_frame
    | with_reducible apply Within.ite
    | fail_if_no_progress (with_reducible refine Within.put (a := [.map]) ?_ rfl rfl rfl rfl rfl)
    | split

theorem State.resumeLookups_frame {ps s t}  (h : Within ps s t) (hp : Part.sub [.block 13, .map] ps = true) : Within ps s (State.resumeLookups t) := by
  refine h.step (a := [.block 13, .map]) ?_ hp
  unfold State.resumeLookups
  repeat' first
    | with_reducible exact Within.refl _ _
    | with_reducible assumption
    | (show Part.sub _ _ = true; rfl)
    | dsimp -zeta only
    | with_reducible apply State.cacheLookup_frame
    | with_reducible apply Within.ite
    | (with_reducible refine Within.foldl _ ?_ ?_; rotate_left; intro _ _)
    | (with_reducible refine Within.foldl_snd _ ?_ ?_; rotate_left; intro _ _)
    | fail_if_no_progress (with_reducible refine Within.put (a := [.map]) ?_ rfl rfl rfl rfl rfl)
    | split

theorem State.poisonFills_frame {ps s t} hit (h : Within ps s t) (hp : Part.sub [.block 13, .map] ps = true) : Within ps s (State.poisonFills t hit) := by
  refine h.step (a := [.block 13, .map]) ?_ hp
  unfold State.poisonFills
  repeat' first
    | with_reducible exact Within.refl _ _
    | with_reducible assumption
    | (show Part.sub _ _ = true; rfl)
    | (extract_lets +onlyGivenNames x; with_reducible refine Within.cut (u := x) ?_ ?_; rotate_left; intro hx; clear_value x; rename' x => y; rotate_right; unfold x; clear x)
    | (extract_lets +onlyGivenNames x; clear_value x; rename' x => z)
    | (extract_lets +onlyGivenNames x; rename' x => z)
    | dsimp -zeta only
    | with_reducible apply State.bump_frame
    | with_reducible apply Within.ite
    | fail_if_no_progress (with_reducible refine Within.put (a := [.map]) ?_ rfl rfl rfl rfl rfl)
    | split

theorem State.qmLines_frame {ps s t} addr n (h : Within ps s t) (hp : Part.sub [.block 13, .map] ps = true) : Within ps s (State.qmLines t addr n) := by
  refine h.step (a := [.block 13, .map]) ?_ hp
  unfold State.qmLines
  repeat' first
    | with_reducible exact Within.refl _ _
    | with_reducible assumption
    | (show Part.sub _ _ = true; rfl)
    | dsimp -zeta only
    | with_reducible apply State.poisonFills_frame
    | with_reducible apply Within.ite
    | split

theorem State.qmDir_frame {ps s t} n (h : Within ps s t) (hp : Part.sub [.block 13, .map] ps = true) : Within ps s (State.qmDir t n) := by
  refine h.step (a := [.block 13, .map]) ?_ hp
  unfold State.qmDir
  repeat' first
    | with_reducible exact Within.refl _ _
    | with_reducible assumption
    | (show Part.sub _ _ = true; rfl)
    | dsimp -zeta only
    | with_reducible apply State.qmLines_frame
    | with_reducible apply Within.ite
    | split

theorem State.qmWrite_frame {ps s t} n (h : Within ps s t) (hp : Part.sub [.block 13, .map] ps = true) : Within ps s (State.qmWrite t n) := by
  refine h.step (a := [.block 13, .map]) ?_ hp
  unfold State.qmWrite
  repeat' first
    | with_reducible exact Within.refl _ _
    | with_reducible assumption
    | (show Part.sub _ _ = true; rfl)
    | (extract_lets +onlyGivenNames x; with_reducible refine Within.cut (u := x) ?_ ?_; rotate_left; intro hx; clear_value x; rename' x => y; rotate_right; unfold x; clear x)
    | (extract_lets +onlyGivenNames x; clear_value x; rename' x => z)
    | (extract_lets +onlyGivenNames x; rename' x => z)
    | dsimp -zeta only
    | with_reducible apply State.qmLines_frame
    | with_reducible apply State.qmDir_frame
    | with_reducible apply Within.ite
    | split

theorem State.dropLines_frame {ps s t} hit (h : Within ps s t) (hp : Part.sub [.block 13, .map] ps = true) : Within ps s (State.dropLines t hit) := by
  refine h.step (a := [.block 13, .map]) ?_ hp
  unfold State.dropLines
  repeat' first
    | with_reducible exact Within.refl _ _
    | with_reducible assumption
    | (show Part.sub _ _ = true; rfl)
    | (extract_lets +onlyGivenNames x; with_reducible refine Within.cut (u := x) ?_ ?_; rotate_left; intro hx; clear_value x; rename' x => y; rotate_right; unfold x; clear x)
    | (extract_lets +onlyGivenNames x; clear_value x; rename' x => z)
    | (extract_lets +onlyGivenNames x; rename' x => z)
    | dsimp -zeta only
    | with_reducible apply State.poisonFills_frame
    | with_reducible apply Within.ite
    | fail_if_no_progress (with_reducible refine Within.put (a := [.map]) ?_ rfl rfl rfl rfl rfl)
    | split

theorem State.dropDir_frame {ps s t} n (h : Within ps s t) (hp : Part.sub [.block 13, .map] ps = true) : Within ps s (State.dropDir t n) := by
  refine h.step (a := [.block 13, .map]) ?_ hp
  unfold State.dropDir
  repeat' first
    | with_reducible exact Within.refl _ _
    | with_reducible assumption
    | (show Part.sub _ _ = true; rfl)
    | (extract_lets +onlyGivenNames x; with_reducible refine Within.cut (u := x) ?_ ?_; rotate_left; intro hx; clear_value x; rename' x => y; rotate_right; unfold x; clear x)
    | (extract_lets +onlyGivenNames x; clear_value x; rename' x => z)
    | (extract_lets +onlyGivenNames x; rename' x => z)
    | dsimp -zeta only
    | with_reducible apply State.dropLines_frame
    | with_reducible apply Within.ite
    | split

theorem State.dropPageLines_frame {ps s t} n (h : Within ps s t) (hp : Part.sub [.block 13, .map] ps = true) : Within ps s (State.dropPageLines t n) := by
  refine h.step (a := [.block 13, .map]) ?_ hp
  unfold State.dropPageLines
  repeat' first
    | with_reducible exact Within.refl _ _
    | with_reducible assumption
    | (show Part.sub _ _ = true; rfl)
    | (extract_lets +onlyGivenNames x; with_reducible refine Within.cut (u := x) ?_ ?_; rotate_left; intro hx; clear_value x; rename' x => y; rotate_right; unfold x; clear x)
    | (extract_lets +onlyGivenNames x; clear_value x; rename' x => z)
    | (extract_lets +onlyGivenNames x; rename' x => z)
    | dsimp -zeta only
    | with_reducible apply State.dropLines_frame
    | with_reducible apply Within.ite
    | split

end Sys2Proof.Machine
end

