-- ==== Sys2Proof/Laws/FrameDdpCore.lean ====
section
/-!
SUPPORT. Laws/FrameDdpCore.lean: what the definitions of Machine/DdpCore.lean leave alone: each changes the listed parts at most, and keeps the
canonical form.
-/
namespace Sys2Proof.Machine
open Sys2Proof

set_option Elab.async false
set_option linter.all false

theorem State.noteFilter_frame {ps s t}  (h : Within ps s t) (hp : Part.sub [.block 12] ps = true) : Within ps s (State.noteFilter t) := by
  refine h.step (a := [.block 12]) ?_ hp
  unfold State.noteFilter
  repeat' first
    | with_reducible exact Within.refl _ _
    | with_reducible assumption
    | (show Part.sub _ _ = true; rfl)
    | dsimp -zeta only
    | with_reducible apply State.wr_frame
    | with_reducible apply Within.ite
    | split

theorem State.dropIndex_frame {ps s t} key (h : Within ps s t) (hp : Part.sub [.block 12, .ddp] ps = true) : Within ps s (State.dropIndex t key) := by
  refine h.step (a := [.block 12, .ddp]) ?_ hp
  unfold State.dropIndex
  repeat' first
    | with_reducible exact Within.refl _ _
    | with_reducible assumption
    | (show Part.sub _ _ = true; rfl)
    | dsimp -zeta only
    | with_reducible apply State.noteFilter_frame
    | with_reducible apply Within.ite
    | fail_if_no_progress (with_reducible refine Within.put (a := [.ddp]) ?_ rfl rfl rfl rfl rfl)
    | split

theorem State.removeIndex_frame {ps s t} key (h : Within ps s t) (hp : Part.sub [.block 12, .cmd, .ddp] ps = true) : Within ps s (State.removeIndex t key) := by
  refine h.step (a := [.block 12, .cmd, .ddp]) ?_ hp
  unfold State.removeIndex
  repeat' first
    | with_reducible exact Within.refl _ _
    | with_reducible assumption
    | (show Part.sub _ _ = true; rfl)
    | (extract_lets +onlyGivenNames x; with_reducible refine Within.cut (u := x) ?_ ?_; rotate_left; intro hx; clear_value x; rename' x => y; rotate_right; unfold x; clear x)
    | (extract_lets +onlyGivenNames x; clear_value x; rename' x => z)
    | (extract_lets +onlyGivenNames x; rename' x => z)
    | dsimp -zeta only
    | with_reducible apply State.dropIndex_frame
    | with_reducible apply Within.ite
    | (with_reducible refine Within.foldl _ ?_ ?_; rotate_left; intro _ _)
    | (with_reducible refine Within.foldl_snd _ ?_ ?_; rotate_left; intro _ _)
    | fail_if_no_progress (with_reducible refine Within.put (a := [.cmd, .ddp]) ?_ rfl rfl rfl rfl rfl)
    | split

theorem State.noteCompare_frame {ps s t} domain c (h : Within ps s t) (hp : Part.sub [.block 4, .block 6, .block 11, .evt, .nor, .host, .out, .hostWait] ps = true) : Within ps s (State.noteCompare t domain c) := by
  refine h.step (a := [.block 4, .block 6, .block 11, .evt, .nor, .host, .out, .hostWait]) ?_ hp
  unfold State.noteCompare
  repeat' first
    | with_reducible exact Within.refl _ _
    | with_reducible assumption
    | (show Part.sub _ _ = true; rfl)
    | dsimp -zeta only
    | with_reducible apply State.bump_frame
    | with_reducible apply State.event1_frame
    | with_reducible apply Within.ite
    | split

theorem State.indexed_frame {ps s t} domain fp (h : Within ps s t) (hp : Part.sub [.block 4, .block 6, .block 11, .evt, .nor, .host, .free, .out, .hostWait] ps = true) : Within ps s (State.indexed t domain fp).2 := by
  refine h.step (a := [.block 4, .block 6, .block 11, .evt, .nor, .host, .free, .out, .hostWait]) ?_ hp
  unfold State.indexed
  repeat' first
    | with_reducible exact Within.refl _ _
    | with_reducible assumption
    | (show Part.sub _ _ = true; rfl)
    | (extract_lets +onlyGivenNames x; with_reducible refine Within.cut (u := x) ?_ ?_; rotate_left; intro hx; clear_value x; rename' x => y; rotate_right; unfold x; clear x)
    | (extract_lets +onlyGivenNames x; clear_value x; rename' x => z)
    | (extract_lets +onlyGivenNames x; rename' x => z)
    | dsimp -zeta only
    | with_reducible apply State.fresh_frame
    | with_reducible apply State.noteCompare_frame
    | with_reducible apply Within.ite
    | (with_reducible refine Within.foldl _ ?_ ?_; rotate_left; intro _ _)
    | (with_reducible refine Within.foldl_snd _ ?_ ?_; rotate_left; intro _ _)
    | fail_if_no_progress (with_reducible refine Within.put (a := []) ?_ rfl rfl rfl rfl rfl)
    | split
    | (with_reducible refine Within.of_pair (by assumption) ?_)

theorem State.insertIndex_frame {ps s t} domain fp loc (h : Within ps s t) (hp : Part.sub [.block 4, .block 6, .block 11, .block 12, .evt, .nor, .host, .ddp, .free, .out, .hostWait] ps = true) : Within ps s (State.insertIndex t domain fp loc) := by
  refine h.step (a := [.block 4, .block 6, .block 11, .block 12, .evt, .nor, .host, .ddp, .free, .out, .hostWait]) ?_ hp
  unfold State.insertIndex
  repeat' first
    | with_reducible exact Within.refl _ _
    | with_reducible assumption
    | (show Part.sub _ _ = true; rfl)
    | (extract_lets +onlyGivenNames x; with_reducible refine Within.cut (u := x) ?_ ?_; rotate_left; intro hx; clear_value x; rename' x => y; rotate_right; unfold x; clear x)
    | (extract_lets +onlyGivenNames x; clear_value x; rename' x => z)
    | (extract_lets +onlyGivenNames x; rename' x => z)
    | dsimp -zeta only
    | with_reducible apply State.bump_frame
    | with_reducible apply State.noteFilter_frame
    | with_reducible apply State.indexed_frame
    | with_reducible apply Within.ite
    | fail_if_no_progress (with_reducible refine Within.put (a := [.ddp]) ?_ rfl rfl rfl rfl rfl)
    | split
    | (with_reducible refine Within.of_pair (by assumption) ?_)

theorem State.writeBack_frame {ps s t} n (h : Within ps s t) (hp : Part.sub [.block 13, .sig, .map] ps = true) : Within ps s (State.writeBack t n) := by
  refine h.step (a := [.block 13, .sig, .map]) ?_ hp
  unfold State.writeBack
  repeat' first
    | with_reducible exact Within.refl _ _
    | with_reducible assumption
    | (show Part.sub _ _ = true; rfl)
    | (extract_lets +onlyGivenNames x; with_reducible refine Within.cut (u := x) ?_ ?_; rotate_left; intro hx; clear_value x; rename' x => y; rotate_right; unfold x; clear x)
    | (extract_lets +onlyGivenNames x; clear_value x; rename' x => z)
    | (extract_lets +onlyGivenNames x; rename' x => z)
    | dsimp -zeta only
    | with_reducible apply State.setPage_frame
    | with_reducible apply State.dropDir_frame
    | with_reducible apply Within.ite
    | fail_if_no_progress (with_reducible refine Within.put (a := [.sig]) ?_ rfl rfl rfl rfl rfl)
    | split

theorem State.cleanPages_frame {ps s t}  (h : Within ps s t) (hp : Part.sub [.block 13, .sig, .map] ps = true) : Within ps s (State.cleanPages t) := by
  refine h.step (a := [.block 13, .sig, .map]) ?_ hp
  unfold State.cleanPages
  repeat' first
    | with_reducible exact Within.refl _ _
    | with_reducible assumption
    | (show Part.sub _ _ = true; rfl)
    | dsimp -zeta only
    | with_reducible apply State.writeBack_frame
    | with_reducible apply Within.ite
    | (with_reducible refine Within.foldl _ ?_ ?_; rotate_left; intro _ _)
    | (with_reducible refine Within.foldl_snd _ ?_ ?_; rotate_left; intro _ _)
    | split

theorem State.saveStore_frame {ps s t}  (h : Within ps s t) (hp : Part.sub [.store] ps = true) : Within ps s (State.saveStore t) := by
  refine h.step (a := [.store]) ?_ hp
  unfold State.saveStore
  repeat' first
    | with_reducible exact Within.refl _ _
    | with_reducible assumption
    | (show Part.sub _ _ = true; rfl)
    | dsimp -zeta only
    | with_reducible apply Within.ite
    | fail_if_no_progress (with_reducible refine Within.put (a := [.store]) ?_ rfl rfl rfl rfl rfl)
    | split

theorem State.showMeta_frame {ps s t}  (h : Within ps s t) (hp : Part.sub [.block 20] ps = true) : Within ps s (State.showMeta t) := by
  refine h.step (a := [.block 20]) ?_ hp
  unfold State.showMeta
  repeat' first
    | with_reducible exact Within.refl _ _
    | with_reducible assumption
    | (show Part.sub _ _ = true; rfl)
    | dsimp -zeta only
    | with_reducible apply State.wr_frame
    | with_reducible apply Within.ite
    | split

theorem State.noteMeta_frame {ps s t}  (h : Within ps s t) (hp : Part.sub [.block 13, .block 20, .sig, .map, .store] ps = true) : Within ps s (State.noteMeta t) := by
  refine h.step (a := [.block 13, .block 20, .sig, .map, .store]) ?_ hp
  unfold State.noteMeta
  repeat' first
    | with_reducible exact Within.refl _ _
    | with_reducible assumption
    | (show Part.sub _ _ = true; rfl)
    | dsimp -zeta only
    | with_reducible apply State.cleanPages_frame
    | with_reducible apply State.saveStore_frame
    | with_reducible apply State.showMeta_frame
    | with_reducible apply Within.ite
    | split

theorem State.noteJournal_frame {ps s t}  (h : Within ps s t) (hp : Part.sub [.block 12, .block 13, .block 20, .sig, .map, .store] ps = true) : Within ps s (State.noteJournal t) := by
  refine h.step (a := [.block 12, .block 13, .block 20, .sig, .map, .store]) ?_ hp
  unfold State.noteJournal
  repeat' first
    | with_reducible exact Within.refl _ _
    | with_reducible assumption
    | (show Part.sub _ _ = true; rfl)
    | dsimp -zeta only
    | with_reducible apply State.wr_frame
    | with_reducible apply State.noteMeta_frame
    | with_reducible apply Within.ite
    | split

theorem State.appendJournal_frame {ps s t} e (h : Within ps s t) (hp : Part.sub [.regs, .holding, .evt, .nor, .host, .ddp, .sig, .map, .store, .out, .hostWait] ps = true) : Within ps s (State.appendJournal t e) := by
  refine h.step (a := [.regs, .holding, .evt, .nor, .host, .ddp, .sig, .map, .store, .out, .hostWait]) ?_ hp
  unfold State.appendJournal
  repeat' first
    | with_reducible exact Within.refl _ _
    | with_reducible assumption
    | (show Part.sub _ _ = true; rfl)
    | dsimp -zeta only
    | with_reducible apply State.raise_frame
    | with_reducible apply State.event1_frame
    | with_reducible apply State.noteJournal_frame
    | with_reducible apply Within.ite
    | fail_if_no_progress (with_reducible refine Within.put (a := [.ddp]) ?_ rfl rfl rfl rfl rfl)
    | split

theorem State.addPending_frame {ps s t} domain fp tag upset (h : Within ps s t) (hp : Part.sub [.block 4, .block 6, .block 11, .block 12, .evt, .nor, .host, .ddp, .out, .hostWait] ps = true) : Within ps s (State.addPending t domain fp tag upset) := by
  refine h.step (a := [.block 4, .block 6, .block 11, .block 12, .evt, .nor, .host, .ddp, .out, .hostWait]) ?_ hp
  unfold State.addPending
  repeat' first
    | with_reducible exact Within.refl _ _
    | with_reducible assumption
    | (show Part.sub _ _ = true; rfl)
    | (extract_lets +onlyGivenNames x; with_reducible refine Within.cut (u := x) ?_ ?_; rotate_left; intro hx; clear_value x; rename' x => y; rotate_right; unfold x; clear x)
    | (extract_lets +onlyGivenNames x; clear_value x; rename' x => z)
    | (extract_lets +onlyGivenNames x; rename' x => z)
    | dsimp -zeta only
    | with_reducible apply State.bump_frame
    | with_reducible apply State.noteCompare_frame
    | with_reducible apply Within.ite
    | fail_if_no_progress (with_reducible refine Within.put (a := [.ddp]) ?_ rfl rfl rfl rfl rfl)
    | split

theorem State.dropPending_frame {ps s t} tag (h : Within ps s t) (hp : Part.sub [.ddp] ps = true) : Within ps s (State.dropPending t tag) := by
  refine h.step (a := [.ddp]) ?_ hp
  unfold State.dropPending
  repeat' first
    | with_reducible exact Within.refl _ _
    | with_reducible assumption
    | (show Part.sub _ _ = true; rfl)
    | dsimp -zeta only
    | with_reducible apply Within.ite
    | fail_if_no_progress (with_reducible refine Within.put (a := [.ddp]) ?_ rfl rfl rfl rfl rfl)
    | split

theorem State.setCount_frame {ps s t} loc n (h : Within ps s t) (hp : Part.sub [.map] ps = true) : Within ps s (State.setCount t loc n) := by
  refine h.step (a := [.map]) ?_ hp
  unfold State.setCount
  repeat' first
    | with_reducible exact Within.refl _ _
    | with_reducible assumption
    | (show Part.sub _ _ = true; rfl)
    | (extract_lets +onlyGivenNames x; with_reducible refine Within.cut (u := x) ?_ ?_; rotate_left; intro hx; clear_value x; rename' x => y; rotate_right; unfold x; clear x)
    | (extract_lets +onlyGivenNames x; clear_value x; rename' x => z)
    | (extract_lets +onlyGivenNames x; rename' x => z)
    | dsimp -zeta only
    | with_reducible apply Within.ite
    | fail_if_no_progress (with_reducible refine Within.put (a := [.map]) ?_ rfl rfl rfl rfl rfl)
    | split

theorem State.countStored_frame {ps s t} m (h : Within ps s t) (hp : Part.sub [.keys] ps = true) : Within ps s (State.countStored t m) := by
  refine h.step (a := [.keys]) ?_ hp
  unfold State.countStored
  repeat' first
    | with_reducible exact Within.refl _ _
    | with_reducible assumption
    | (show Part.sub _ _ = true; rfl)
    | (extract_lets +onlyGivenNames x; with_reducible refine Within.cut (u := x) ?_ ?_; rotate_left; intro hx; clear_value x; rename' x => y; rotate_right; unfold x; clear x)
    | (extract_lets +onlyGivenNames x; clear_value x; rename' x => z)
    | (extract_lets +onlyGivenNames x; rename' x => z)
    | dsimp -zeta only
    | with_reducible apply Within.ite
    | fail_if_no_progress (with_reducible refine Within.put (a := [.keys]) ?_ rfl rfl rfl rfl rfl)
    | split

theorem State.uncountStored_frame {ps s t} loc (h : Within ps s t) (hp : Part.sub [.keys] ps = true) : Within ps s (State.uncountStored t loc) := by
  refine h.step (a := [.keys]) ?_ hp
  unfold State.uncountStored
  repeat' first
    | with_reducible exact Within.refl _ _
    | with_reducible assumption
    | (show Part.sub _ _ = true; rfl)
    | (extract_lets +onlyGivenNames x; with_reducible refine Within.cut (u := x) ?_ ?_; rotate_left; intro hx; clear_value x; rename' x => y; rotate_right; unfold x; clear x)
    | (extract_lets +onlyGivenNames x; clear_value x; rename' x => z)
    | (extract_lets +onlyGivenNames x; rename' x => z)
    | dsimp -zeta only
    | with_reducible apply Within.ite
    | fail_if_no_progress (with_reducible refine Within.put (a := [.keys]) ?_ rfl rfl rfl rfl rfl)
    | split

theorem State.moveStored_frame {ps s t} old new (h : Within ps s t) (hp : Part.sub [.keys] ps = true) : Within ps s (State.moveStored t old new) := by
  refine h.step (a := [.keys]) ?_ hp
  unfold State.moveStored
  repeat' first
    | with_reducible exact Within.refl _ _
    | with_reducible assumption
    | (show Part.sub _ _ = true; rfl)
    | dsimp -zeta only
    | with_reducible apply Within.ite
    | fail_if_no_progress (with_reducible refine Within.put (a := [.keys]) ?_ rfl rfl rfl rfl rfl)
    | split

theorem State.releaseStorage_frame {ps s t} loc (h : Within ps s t) (hp : Part.sub [.block 12, .cmd, .ddp, .keys, .chan, .out] ps = true) : Within ps s (State.releaseStorage t loc) := by
  refine h.step (a := [.block 12, .cmd, .ddp, .keys, .chan, .out]) ?_ hp
  unfold State.releaseStorage
  repeat' first
    | with_reducible exact Within.refl _ _
    | with_reducible assumption
    | (show Part.sub _ _ = true; rfl)
    | (extract_lets +onlyGivenNames x; with_reducible refine Within.cut (u := x) ?_ ?_; rotate_left; intro hx; clear_value x; rename' x => y; rotate_right; unfold x; clear x)
    | (extract_lets +onlyGivenNames x; clear_value x; rename' x => z)
    | (extract_lets +onlyGivenNames x; rename' x => z)
    | dsimp -zeta only
    | with_reducible apply State.sendRing_frame
    | with_reducible apply State.removeIndex_frame
    | with_reducible apply State.uncountStored_frame
    | with_reducible apply Within.ite
    | (with_reducible refine Within.foldl _ ?_ ?_; rotate_left; intro _ _)
    | (with_reducible refine Within.foldl_snd _ ?_ ?_; rotate_left; intro _ _)
    | fail_if_no_progress (with_reducible refine Within.put (a := [.ddp]) ?_ rfl rfl rfl rfl rfl)
    | split

theorem State.addRef_frame {ps s t} loc (h : Within ps s t) (hp : Part.sub [.map] ps = true) : Within ps s (State.addRef t loc) := by
  refine h.step (a := [.map]) ?_ hp
  unfold State.addRef
  repeat' first
    | with_reducible exact Within.refl _ _
    | with_reducible assumption
    | (show Part.sub _ _ = true; rfl)
    | dsimp -zeta only
    | with_reducible apply State.setCount_frame
    | with_reducible apply Within.ite
    | split

theorem State.dropRef_frame {ps s t} loc (h : Within ps s t) (hp : Part.sub [.block 12, .cmd, .ddp, .keys, .map, .chan, .out] ps = true) : Within ps s (State.dropRef t loc) := by
  refine h.step (a := [.block 12, .cmd, .ddp, .keys, .map, .chan, .out]) ?_ hp
  unfold State.dropRef
  repeat' first
    | with_reducible exact Within.refl _ _
    | with_reducible assumption
    | (show Part.sub _ _ = true; rfl)
    | (extract_lets +onlyGivenNames x; with_reducible refine Within.cut (u := x) ?_ ?_; rotate_left; intro hx; clear_value x; rename' x => y; rotate_right; unfold x; clear x)
    | (extract_lets +onlyGivenNames x; clear_value x; rename' x => z)
    | (extract_lets +onlyGivenNames x; rename' x => z)
    | dsimp -zeta only
    | with_reducible apply State.setCount_frame
    | with_reducible apply State.releaseStorage_frame
    | with_reducible apply Within.ite
    | fail_if_no_progress (with_reducible refine Within.put (a := [.ddp]) ?_ rfl rfl rfl rfl rfl)
    | split

theorem State.pin_frame {ps s t} key (h : Within ps s t) (hp : Part.sub [.ddp] ps = true) : Within ps s (State.pin t key) := by
  refine h.step (a := [.ddp]) ?_ hp
  unfold State.pin
  repeat' first
    | with_reducible exact Within.refl _ _
    | with_reducible assumption
    | (show Part.sub _ _ = true; rfl)
    | dsimp -zeta only
    | with_reducible apply Within.ite
    | fail_if_no_progress (with_reducible refine Within.put (a := [.ddp]) ?_ rfl rfl rfl rfl rfl)
    | split

theorem State.unpin_frame {ps s t} key (h : Within ps s t) (hp : Part.sub [.block 12, .cmd, .ddp, .keys, .chan, .out] ps = true) : Within ps s (State.unpin t key) := by
  refine h.step (a := [.block 12, .cmd, .ddp, .keys, .chan, .out]) ?_ hp
  unfold State.unpin
  repeat' first
    | with_reducible exact Within.refl _ _
    | with_reducible assumption
    | (show Part.sub _ _ = true; rfl)
    | (extract_lets +onlyGivenNames x; with_reducible refine Within.cut (u := x) ?_ ?_; rotate_left; intro hx; clear_value x; rename' x => y; rotate_right; unfold x; clear x)
    | (extract_lets +onlyGivenNames x; clear_value x; rename' x => z)
    | (extract_lets +onlyGivenNames x; rename' x => z)
    | dsimp -zeta only
    | with_reducible apply State.releaseStorage_frame
    | with_reducible apply Within.ite
    | fail_if_no_progress (with_reducible refine Within.put (a := [.ddp]) ?_ rfl rfl rfl rfl rfl)
    | split

theorem State.unpinChunks_frame {ps s t} chunks (h : Within ps s t) (hp : Part.sub [.block 12, .cmd, .ddp, .keys, .chan, .out] ps = true) : Within ps s (State.unpinChunks t chunks) := by
  refine h.step (a := [.block 12, .cmd, .ddp, .keys, .chan, .out]) ?_ hp
  unfold State.unpinChunks
  repeat' first
    | with_reducible exact Within.refl _ _
    | with_reducible assumption
    | (show Part.sub _ _ = true; rfl)
    | dsimp -zeta only
    | with_reducible apply State.unpin_frame
    | with_reducible apply Within.ite
    | (with_reducible refine Within.foldl _ ?_ ?_; rotate_left; intro _ _)
    | (with_reducible refine Within.foldl_snd _ ?_ ?_; rotate_left; intro _ _)
    | split

theorem State.moveIndex_frame {ps s t} old new (h : Within ps s t) (hp : Part.sub [.ddp] ps = true) : Within ps s (State.moveIndex t old new) := by
  refine h.step (a := [.ddp]) ?_ hp
  unfold State.moveIndex
  repeat' first
    | with_reducible exact Within.refl _ _
    | with_reducible assumption
    | (show Part.sub _ _ = true; rfl)
    | (extract_lets +onlyGivenNames x; with_reducible refine Within.cut (u := x) ?_ ?_; rotate_left; intro hx; clear_value x; rename' x => y; rotate_right; unfold x; clear x)
    | (extract_lets +onlyGivenNames x; clear_value x; rename' x => z)
    | (extract_lets +onlyGivenNames x; rename' x => z)
    | dsimp -zeta only
    | with_reducible apply Within.ite
    | fail_if_no_progress (with_reducible refine Within.put (a := [.ddp]) ?_ rfl rfl rfl rfl rfl)
    | split

end Sys2Proof.Machine
end

