-- ==== Sys2Proof/Laws/FrameFence.lean ====
section
/-!
SUPPORT. Laws/FrameFence.lean: what the definitions of Machine/Fence.lean leave alone: each changes the listed parts at most, and keeps the
canonical form.
-/
namespace Sys2Proof.Machine
open Sys2Proof

set_option Elab.async false
set_option linter.all false

theorem State.setQuarter_frame {ps s t} q x (h : Within ps s t) (hp : Part.sub [.power] ps = true) : Within ps s (State.setQuarter t q x) := by
  refine h.step (a := [.power]) ?_ hp
  unfold State.setQuarter
  repeat' first
    | with_reducible exact Within.refl _ _
    | with_reducible assumption
    | (show Part.sub _ _ = true; rfl)
    | dsimp -zeta only
    | with_reducible apply Within.ite
    | fail_if_no_progress (with_reducible refine Within.put (a := [.power]) ?_ rfl rfl rfl rfl rfl)
    | split

theorem State.unitsIn_frame {ps s t} q (h : Within ps s t) (hp : Part.sub [.block 11, .block 19] ps = true) : Within ps s (State.unitsIn t q) := by
  refine h.step (a := [.block 11, .block 19]) ?_ hp
  unfold State.unitsIn
  repeat' first
    | with_reducible exact Within.refl _ _
    | with_reducible assumption
    | (show Part.sub _ _ = true; rfl)
    | dsimp -zeta only
    | with_reducible apply State.wr_frame
    | with_reducible apply Within.ite
    | fail_if_no_progress (with_reducible refine Within.put (a := []) ?_ rfl rfl rfl rfl rfl)
    | split

theorem State.unitsOut_frame {ps s t} q (h : Within ps s t) (hp : Part.sub [.block 11, .block 19] ps = true) : Within ps s (State.unitsOut t q) := by
  refine h.step (a := [.block 11, .block 19]) ?_ hp
  unfold State.unitsOut
  repeat' first
    | with_reducible exact Within.refl _ _
    | with_reducible assumption
    | (show Part.sub _ _ = true; rfl)
    | (extract_lets +onlyGivenNames x; with_reducible refine Within.cut (u := x) ?_ ?_; rotate_left; intro hx; clear_value x; rename' x => y; rotate_right; unfold x; clear x)
    | (extract_lets +onlyGivenNames x; clear_value x; rename' x => z)
    | (extract_lets +onlyGivenNames x; rename' x => z)
    | dsimp -zeta only
    | with_reducible apply State.wr_frame
    | with_reducible apply Within.ite
    | fail_if_no_progress (with_reducible refine Within.put (a := []) ?_ rfl rfl rfl rfl rfl)
    | split

theorem State.startJobs_frame {ps s t}  (h : Within ps s t) (hp : Part.sub [.bnd] ps = true) : Within ps s (State.startJobs t) := by
  refine h.step (a := [.bnd]) ?_ hp
  unfold State.startJobs
  repeat' first
    | with_reducible exact Within.refl _ _
    | with_reducible assumption
    | (show Part.sub _ _ = true; rfl)
    | dsimp -zeta only
    | with_reducible apply Within.ite
    | (with_reducible refine Within.foldl _ ?_ ?_; rotate_left; intro _ _)
    | (with_reducible refine Within.foldl_snd _ ?_ ?_; rotate_left; intro _ _)
    | fail_if_no_progress (with_reducible refine Within.put (a := [.bnd]) ?_ rfl rfl rfl rfl rfl)
    | split

theorem State.startSeg_frame {ps s t} bt off (h : Within ps s t) (hp : Part.sub [.ports, .trn, .cmd, .out] ps = true) : Within ps s (State.startSeg t bt off) := by
  refine h.step (a := [.ports, .trn, .cmd, .out]) ?_ hp
  unfold State.startSeg
  repeat' first
    | with_reducible exact Within.refl _ _
    | with_reducible assumption
    | (show Part.sub _ _ = true; rfl)
    | (extract_lets +onlyGivenNames x; with_reducible refine Within.cut (u := x) ?_ ?_; rotate_left; intro hx; clear_value x; rename' x => y; rotate_right; unfold x; clear x)
    | (extract_lets +onlyGivenNames x; clear_value x; rename' x => z)
    | (extract_lets +onlyGivenNames x; rename' x => z)
    | dsimp -zeta only
    | with_reducible apply State.queueRead_frame
    | with_reducible apply Within.ite
    | fail_if_no_progress (with_reducible refine Within.put (a := [.cmd]) ?_ rfl rfl rfl rfl rfl)
    | split

theorem State.moveSeg_frame {ps s t} bt c w g (h : Within ps s t) (hp : Part.sub [.block 12, .ports, .trn, .cmd, .ddp, .keys, .chan, .out] ps = true) : Within ps s (State.moveSeg t bt c w g) := by
  refine h.step (a := [.block 12, .ports, .trn, .cmd, .ddp, .keys, .chan, .out]) ?_ hp
  unfold State.moveSeg
  repeat' first
    | with_reducible exact Within.refl _ _
    | with_reducible assumption
    | (show Part.sub _ _ = true; rfl)
    | (extract_lets +onlyGivenNames x; with_reducible refine Within.cut (u := x) ?_ ?_; rotate_left; intro hx; clear_value x; rename' x => y; rotate_right; unfold x; clear x)
    | (extract_lets +onlyGivenNames x; clear_value x; rename' x => z)
    | (extract_lets +onlyGivenNames x; rename' x => z)
    | dsimp -zeta only
    | with_reducible apply State.unpinChunks_frame
    | with_reducible apply State.startSeg_frame
    | with_reducible apply Within.ite
    | fail_if_no_progress (with_reducible refine Within.put (a := [.trn, .cmd]) ?_ rfl rfl rfl rfl rfl)
    | split

theorem State.reassign_frame {ps s t} lanes (h : Within ps s t) (hp : Part.sub [.block 12, .ports, .trn, .cmd, .ddp, .keys, .chan, .out] ps = true) : Within ps s (State.reassign t lanes) := by
  refine h.step (a := [.block 12, .ports, .trn, .cmd, .ddp, .keys, .chan, .out]) ?_ hp
  unfold State.reassign
  repeat' first
    | with_reducible exact Within.refl _ _
    | with_reducible assumption
    | (show Part.sub _ _ = true; rfl)
    | (extract_lets +onlyGivenNames x; with_reducible refine Within.cut (u := x) ?_ ?_; rotate_left; intro hx; clear_value x; rename' x => y; rotate_right; unfold x; clear x)
    | (extract_lets +onlyGivenNames x; clear_value x; rename' x => z)
    | (extract_lets +onlyGivenNames x; rename' x => z)
    | dsimp -zeta only
    | with_reducible apply State.moveSeg_frame
    | with_reducible apply Within.ite
    | (with_reducible refine Within.foldl _ ?_ ?_; rotate_left; intro _ _)
    | (with_reducible refine Within.foldl_snd _ ?_ ?_; rotate_left; intro _ _)
    | fail_if_no_progress (with_reducible refine Within.put (a := [.cmd]) ?_ rfl rfl rfl rfl rfl)
    | split

theorem State.headLoss_frame {ps s t}  (h : Within ps s t) (hp : Part.sub [.pins, .power] ps = true) : Within ps s (State.headLoss t) := by
  refine h.step (a := [.pins, .power]) ?_ hp
  unfold State.headLoss
  repeat' first
    | with_reducible exact Within.refl _ _
    | with_reducible assumption
    | (show Part.sub _ _ = true; rfl)
    | dsimp -zeta only
    | with_reducible apply Within.ite
    | fail_if_no_progress (with_reducible refine Within.put (a := [.pins, .power]) ?_ rfl rfl rfl rfl rfl)
    | split

theorem State.noteGranted_frame {ps s t}  (h : Within ps s t) (hp : Part.sub [.block 1] ps = true) : Within ps s (State.noteGranted t) := by
  refine h.step (a := [.block 1]) ?_ hp
  unfold State.noteGranted
  repeat' first
    | with_reducible exact Within.refl _ _
    | with_reducible assumption
    | (show Part.sub _ _ = true; rfl)
    | dsimp -zeta only
    | with_reducible apply State.wr_frame
    | with_reducible apply State.peak_frame
    | with_reducible apply Within.ite
    | split

theorem State.recallExcess_frame {ps s t}  (h : Within ps s t) (hp : Part.sub [.power] ps = true) : Within ps s (State.recallExcess t) := by
  refine h.step (a := [.power]) ?_ hp
  unfold State.recallExcess
  repeat' first
    | with_reducible exact Within.refl _ _
    | with_reducible assumption
    | (show Part.sub _ _ = true; rfl)
    | (extract_lets +onlyGivenNames x; with_reducible refine Within.cut (u := x) ?_ ?_; rotate_left; intro hx; clear_value x; rename' x => y; rotate_right; unfold x; clear x)
    | (extract_lets +onlyGivenNames x; clear_value x; rename' x => z)
    | (extract_lets +onlyGivenNames x; rename' x => z)
    | dsimp -zeta only
    | with_reducible apply Within.ite
    | fail_if_no_progress (with_reducible refine Within.put (a := [.power]) ?_ rfl rfl rfl rfl rfl)
    | split

theorem State.serve_frame {ps s t} l (h : Within ps s t) (hp : Part.sub [.power] ps = true) : Within ps s (State.serve l t) := by
  refine h.step (a := [.power]) ?_ hp
  clear h
  induction l generalizing t with
  | nil => exact Within.put (a := [.power]) (.refl _ _) rfl rfl rfl rfl rfl
  | cons x r ih =>
    unfold State.serve
    dsimp only
    refine Within.ite (Within.ite ((Within.put (a := [.power]) (.refl _ _) rfl rfl rfl rfl rfl).trans ih) ?_) ?_
    · exact Within.put (a := [.power]) (.refl _ _) rfl rfl rfl rfl rfl
    · exact Within.put (a := [.power]) (.refl _ _) rfl rfl rfl rfl rfl

theorem State.serveWaiting_frame {ps s t}  (h : Within ps s t) (hp : Part.sub [.block 1, .power] ps = true) : Within ps s (State.serveWaiting t) := by
  refine h.step (a := [.block 1, .power]) ?_ hp
  unfold State.serveWaiting
  repeat' first
    | with_reducible exact Within.refl _ _
    | with_reducible assumption
    | (show Part.sub _ _ = true; rfl)
    | dsimp -zeta only
    | with_reducible apply State.noteGranted_frame
    | with_reducible apply State.serve_frame
    | with_reducible apply Within.ite
    | split

theorem State.returnTokens_frame {ps s t} q keep (h : Within ps s t) (hp : Part.sub [.block 1, .power] ps = true) : Within ps s (State.returnTokens t q keep) := by
  refine h.step (a := [.block 1, .power]) ?_ hp
  unfold State.returnTokens
  repeat' first
    | with_reducible exact Within.refl _ _
    | with_reducible assumption
    | (show Part.sub _ _ = true; rfl)
    | dsimp -zeta only
    | with_reducible apply State.serveWaiting_frame
    | with_reducible apply Within.ite
    | fail_if_no_progress (with_reducible refine Within.put (a := [.power]) ?_ rfl rfl rfl rfl rfl)
    | split

theorem State.settleBudget_frame {ps s t}  (h : Within ps s t) (hp : Part.sub [.block 1, .block 4, .block 6, .power, .evt, .nor, .host, .out, .hostWait] ps = true) : Within ps s (State.settleBudget t) := by
  refine h.step (a := [.block 1, .block 4, .block 6, .power, .evt, .nor, .host, .out, .hostWait]) ?_ hp
  unfold State.settleBudget
  repeat' first
    | with_reducible exact Within.refl _ _
    | with_reducible assumption
    | (show Part.sub _ _ = true; rfl)
    | (extract_lets +onlyGivenNames x; with_reducible refine Within.cut (u := x) ?_ ?_; rotate_left; intro hx; clear_value x; rename' x => y; rotate_right; unfold x; clear x)
    | (extract_lets +onlyGivenNames x; clear_value x; rename' x => z)
    | (extract_lets +onlyGivenNames x; rename' x => z)
    | dsimp -zeta only
    | with_reducible apply State.wr_frame
    | with_reducible apply State.event1_frame
    | with_reducible apply State.recallExcess_frame
    | with_reducible apply State.serveWaiting_frame
    | with_reducible apply Within.ite
    | split

theorem State.wake_frame {ps s t} q (h : Within ps s t) (hp : Part.sub [.power] ps = true) : Within ps s (State.wake t q) := by
  refine h.step (a := [.power]) ?_ hp
  unfold State.wake
  repeat' first
    | with_reducible exact Within.refl _ _
    | with_reducible assumption
    | (show Part.sub _ _ = true; rfl)
    | dsimp -zeta only
    | with_reducible apply State.setQuarter_frame
    | with_reducible apply Within.ite
    | fail_if_no_progress (with_reducible refine Within.put (a := [.power]) ?_ rfl rfl rfl rfl rfl)
    | split

theorem State.standbyTakes_frame {ps s t} y q (h : Within ps s t) (hp : Part.sub [.block 5, .power, .test] ps = true) : Within ps s (State.standbyTakes t y q) := by
  refine h.step (a := [.block 5, .power, .test]) ?_ hp
  unfold State.standbyTakes
  repeat' first
    | with_reducible exact Within.refl _ _
    | with_reducible assumption
    | (show Part.sub _ _ = true; rfl)
    | (extract_lets +onlyGivenNames x; with_reducible refine Within.cut (u := x) ?_ ?_; rotate_left; intro hx; clear_value x; rename' x => y; rotate_right; unfold x; clear x)
    | (extract_lets +onlyGivenNames x; clear_value x; rename' x => z)
    | (extract_lets +onlyGivenNames x; rename' x => z)
    | dsimp -zeta only
    | with_reducible apply State.wr_frame
    | with_reducible apply State.setQuarter_frame
    | with_reducible apply State.wake_frame
    | with_reducible apply Within.ite
    | fail_if_no_progress (with_reducible refine Within.put (a := [.test]) ?_ rfl rfl rfl rfl rfl)
    | split

theorem State.emptyRole_frame {ps s t} role (h : Within ps s t) (hp : Part.sub [.block 9, .trn, .out] ps = true) : Within ps s (State.emptyRole t role) := by
  refine h.step (a := [.block 9, .trn, .out]) ?_ hp
  unfold State.emptyRole
  repeat' first
    | with_reducible exact Within.refl _ _
    | with_reducible assumption
    | (show Part.sub _ _ = true; rfl)
    | dsimp -zeta only
    | with_reducible apply State.noteLayby_frame
    | with_reducible apply Within.ite
    | fail_if_no_progress (with_reducible refine Within.put (a := [.trn]) ?_ rfl rfl rfl rfl rfl)
    | split

theorem State.restartTag_frame {ps s t} bt (h : Within ps s t) (hp : Part.sub [.block 12, .trn, .cmd, .ddp, .keys, .chan, .out] ps = true) : Within ps s (State.restartTag t bt) := by
  refine h.step (a := [.block 12, .trn, .cmd, .ddp, .keys, .chan, .out]) ?_ hp
  unfold State.restartTag
  repeat' first
    | with_reducible exact Within.refl _ _
    | with_reducible assumption
    | (show Part.sub _ _ = true; rfl)
    | (extract_lets +onlyGivenNames x; with_reducible refine Within.cut (u := x) ?_ ?_; rotate_left; intro hx; clear_value x; rename' x => y; rotate_right; unfold x; clear x)
    | (extract_lets +onlyGivenNames x; clear_value x; rename' x => z)
    | (extract_lets +onlyGivenNames x; rename' x => z)
    | dsimp -zeta only
    | with_reducible apply State.unpinChunks_frame
    | with_reducible apply Within.ite
    | fail_if_no_progress (with_reducible refine Within.put (a := [.trn, .cmd]) ?_ rfl rfl rfl rfl rfl)
    | split

theorem State.restartTags_frame {ps s t}  (h : Within ps s t) (hp : Part.sub [.block 12, .trn, .cmd, .ddp, .keys, .chan, .out] ps = true) : Within ps s (State.restartTags t) := by
  refine h.step (a := [.block 12, .trn, .cmd, .ddp, .keys, .chan, .out]) ?_ hp
  unfold State.restartTags
  repeat' first
    | with_reducible exact Within.refl _ _
    | with_reducible assumption
    | (show Part.sub _ _ = true; rfl)
    | dsimp -zeta only
    | with_reducible apply State.restartTag_frame
    | with_reducible apply Within.ite
    | (with_reducible refine Within.foldl _ ?_ ?_; rotate_left; intro _ _)
    | (with_reducible refine Within.foldl_snd _ ?_ ?_; rotate_left; intro _ _)
    | fail_if_no_progress (with_reducible refine Within.put (a := []) ?_ rfl rfl rfl rfl rfl)
    | split

theorem State.takeUpWork_frame {ps s t} failed (h : Within ps s t) (hp : Part.sub [.block 9, .block 12, .ports, .trn, .cmd, .ddp, .keys, .chan, .out] ps = true) : Within ps s (State.takeUpWork t failed) := by
  refine h.step (a := [.block 9, .block 12, .ports, .trn, .cmd, .ddp, .keys, .chan, .out]) ?_ hp
  unfold State.takeUpWork
  repeat' first
    | with_reducible exact Within.refl _ _
    | with_reducible assumption
    | (show Part.sub _ _ = true; rfl)
    | dsimp -zeta only
    | with_reducible apply State.reassign_frame
    | with_reducible apply State.emptyRole_frame
    | with_reducible apply State.restartTags_frame
    | with_reducible apply Within.ite
    | fail_if_no_progress (with_reducible refine Within.put (a := []) ?_ rfl rfl rfl rfl rfl)
    | split

theorem State.dropPort_frame {ps s t} port (h : Within ps s t) (hp : Part.sub [.regs, .holding] ps = true) : Within ps s (State.dropPort t port) := by
  refine h.step (a := [.regs, .holding]) ?_ hp
  unfold State.dropPort
  repeat' first
    | with_reducible exact Within.refl _ _
    | with_reducible assumption
    | (show Part.sub _ _ = true; rfl)
    | (extract_lets +onlyGivenNames x; with_reducible refine Within.cut (u := x) ?_ ?_; rotate_left; intro hx; clear_value x; rename' x => y; rotate_right; unfold x; clear x)
    | (extract_lets +onlyGivenNames x; clear_value x; rename' x => z)
    | (extract_lets +onlyGivenNames x; rename' x => z)
    | dsimp -zeta only
    | with_reducible apply State.wr_frame
    | with_reducible apply State.raise_frame
    | with_reducible apply Within.ite
    | split

theorem State.fenceOnly_frame {ps s t} q (h : Within ps s t) (hp : Part.sub [.block 1, .block 4, .block 6, .block 11, .block 19, .power, .evt, .nor, .host, .out, .hostWait] ps = true) : Within ps s (State.fenceOnly t q) := by
  refine h.step (a := [.block 1, .block 4, .block 6, .block 11, .block 19, .power, .evt, .nor, .host, .out, .hostWait]) ?_ hp
  unfold State.fenceOnly
  repeat' first
    | with_reducible exact Within.refl _ _
    | with_reducible assumption
    | (show Part.sub _ _ = true; rfl)
    | (extract_lets +onlyGivenNames x; with_reducible refine Within.cut (u := x) ?_ ?_; rotate_left; intro hx; clear_value x; rename' x => y; rotate_right; unfold x; clear x)
    | (extract_lets +onlyGivenNames x; clear_value x; rename' x => z)
    | (extract_lets +onlyGivenNames x; rename' x => z)
    | dsimp -zeta only
    | with_reducible apply State.wr_frame
    | with_reducible apply State.event1_frame
    | with_reducible apply State.setQuarter_frame
    | with_reducible apply State.unitsOut_frame
    | with_reducible apply State.returnTokens_frame
    | with_reducible apply Within.ite
    | fail_if_no_progress (with_reducible refine Within.put (a := [.power]) ?_ rfl rfl rfl rfl rfl)
    | split

theorem State.fence_frame {ps s t} q (h : Within ps s t) (hp : Part.sub [.regs, .holding, .pins, .power, .test, .evt, .nor, .host, .ports, .trn, .cmd, .ddp, .keys, .chan, .out, .hostWait] ps = true) : Within ps s (State.fence t q) := by
  refine h.step (a := [.regs, .holding, .pins, .power, .test, .evt, .nor, .host, .ports, .trn, .cmd, .ddp, .keys, .chan, .out, .hostWait]) ?_ hp
  unfold State.fence
  repeat' first
    | with_reducible exact Within.refl _ _
    | with_reducible assumption
    | (show Part.sub _ _ = true; rfl)
    | (extract_lets +onlyGivenNames x; with_reducible refine Within.cut (u := x) ?_ ?_; rotate_left; intro hx; clear_value x; rename' x => y; rotate_right; unfold x; clear x)
    | (extract_lets +onlyGivenNames x; clear_value x; rename' x => z)
    | (extract_lets +onlyGivenNames x; rename' x => z)
    | dsimp -zeta only
    | with_reducible apply State.headLoss_frame
    | with_reducible apply State.standbyTakes_frame
    | with_reducible apply State.takeUpWork_frame
    | with_reducible apply State.dropPort_frame
    | with_reducible apply State.fenceOnly_frame
    | with_reducible apply Within.ite
    | fail_if_no_progress (with_reducible refine Within.put (a := []) ?_ rfl rfl rfl rfl rfl)
    | split

theorem State.stopRotation_frame {ps s t}  (h : Within ps s t) (hp : Part.sub [.block 1, .block 5, .power, .test] ps = true) : Within ps s (State.stopRotation t) := by
  refine h.step (a := [.block 1, .block 5, .power, .test]) ?_ hp
  unfold State.stopRotation
  repeat' first
    | with_reducible exact Within.refl _ _
    | with_reducible assumption
    | (show Part.sub _ _ = true; rfl)
    | (extract_lets +onlyGivenNames x; with_reducible refine Within.cut (u := x) ?_ ?_; rotate_left; intro hx; clear_value x; rename' x => y; rotate_right; unfold x; clear x)
    | (extract_lets +onlyGivenNames x; clear_value x; rename' x => z)
    | (extract_lets +onlyGivenNames x; rename' x => z)
    | dsimp -zeta only
    | with_reducible apply State.wr_frame
    | with_reducible apply State.setQuarter_frame
    | with_reducible apply State.returnTokens_frame
    | with_reducible apply Within.ite
    | fail_if_no_progress (with_reducible refine Within.put (a := [.test]) ?_ rfl rfl rfl rfl rfl)
    | split

theorem State.fenceAll_frame {ps s t}  (h : Within ps s t) (hp : Part.sub [.block 1, .block 4, .block 6, .block 11, .block 19, .power, .evt, .nor, .host, .out, .hostWait] ps = true) : Within ps s (State.fenceAll t) := by
  refine h.step (a := [.block 1, .block 4, .block 6, .block 11, .block 19, .power, .evt, .nor, .host, .out, .hostWait]) ?_ hp
  unfold State.fenceAll
  repeat' first
    | with_reducible exact Within.refl _ _
    | with_reducible assumption
    | (show Part.sub _ _ = true; rfl)
    | dsimp -zeta only
    | with_reducible apply State.fenceOnly_frame
    | with_reducible apply Within.ite
    | (with_reducible refine Within.foldl _ ?_ ?_; rotate_left; intro _ _)
    | (with_reducible refine Within.foldl_snd _ ?_ ?_; rotate_left; intro _ _)
    | split

end Sys2Proof.Machine
end

