-- ==== Sys2Proof/Laws/FrameMapOps.lean ====
section
/-!
SUPPORT. Laws/FrameMapOps.lean: what the definitions of Machine/MapOps.lean leave alone: each changes the listed parts at most, and keeps the
canonical form.
-/
namespace Sys2Proof.Machine
open Sys2Proof

set_option Elab.async false
set_option linter.all false

theorem State.noteMap_frame {ps s t}  (h : Within ps s t) (hp : Part.sub [.block 13, .block 20, .sig, .map, .store] ps = true) : Within ps s (State.noteMap t) := by
  refine h.step (a := [.block 13, .block 20, .sig, .map, .store]) ?_ hp
  unfold State.noteMap
  repeat' first
    | with_reducible exact Within.refl _ _
    | with_reducible assumption
    | (show Part.sub _ _ = true; rfl)
    | (extract_lets +onlyGivenNames x; with_reducible refine Within.cut (u := x) ?_ ?_; rotate_left; intro hx; clear_value x; rename' x => y; rotate_right; unfold x; clear x)
    | (extract_lets +onlyGivenNames x; clear_value x; rename' x => z)
    | (extract_lets +onlyGivenNames x; rename' x => z)
    | dsimp -zeta only
    | with_reducible apply State.wr_frame
    | with_reducible apply State.noteMeta_frame
    | with_reducible apply Within.ite
    | split

theorem State.takeNumber_frame {ps s t} b (h : Within ps s t) (hp : Part.sub [.block 4, .block 6, .evt, .nor, .host, .map, .out, .hostWait] ps = true) : Within ps s (State.takeNumber t b).2 := by
  refine h.step (a := [.block 4, .block 6, .evt, .nor, .host, .map, .out, .hostWait]) ?_ hp
  unfold State.takeNumber
  repeat' first
    | with_reducible exact Within.refl _ _
    | with_reducible assumption
    | (show Part.sub _ _ = true; rfl)
    | (extract_lets +onlyGivenNames x; with_reducible refine Within.cut (u := x) ?_ ?_; rotate_left; intro hx; clear_value x; rename' x => y; rotate_right; unfold x; clear x)
    | (extract_lets +onlyGivenNames x; clear_value x; rename' x => z)
    | (extract_lets +onlyGivenNames x; rename' x => z)
    | dsimp -zeta only
    | with_reducible apply State.event_frame
    | with_reducible apply Within.ite
    | fail_if_no_progress (with_reducible refine Within.put (a := [.map]) ?_ rfl rfl rfl rfl rfl)
    | split

theorem State.takeSlot_frame {ps s t} keep (h : Within ps s t) (hp : Part.sub [.block 4, .block 6, .block 13, .evt, .nor, .host, .sig, .map, .out, .hostWait] ps = true) : Within ps s (State.takeSlot t keep).2 := by
  refine h.step (a := [.block 4, .block 6, .block 13, .evt, .nor, .host, .sig, .map, .out, .hostWait]) ?_ hp
  unfold State.takeSlot
  repeat' first
    | with_reducible exact Within.refl _ _
    | with_reducible assumption
    | (show Part.sub _ _ = true; rfl)
    | (extract_lets +onlyGivenNames x; with_reducible refine Within.cut (u := x) ?_ ?_; rotate_left; intro hx; clear_value x; rename' x => y; rotate_right; unfold x; clear x)
    | (extract_lets +onlyGivenNames x; clear_value x; rename' x => z)
    | (extract_lets +onlyGivenNames x; rename' x => z)
    | dsimp -zeta only
    | with_reducible apply State.event_frame
    | with_reducible apply State.setPage_frame
    | with_reducible apply State.dropDir_frame
    | with_reducible apply State.writeBack_frame
    | with_reducible apply Within.ite
    | fail_if_no_progress (with_reducible refine Within.put (a := []) ?_ rfl rfl rfl rfl rfl)
    | split

theorem State.refer_frame {ps s t} n locs (h : Within ps s t) (hp : Part.sub [.map] ps = true) : Within ps s (State.refer t n locs) := by
  refine h.step (a := [.map]) ?_ hp
  unfold State.refer
  repeat' first
    | with_reducible exact Within.refl _ _
    | with_reducible assumption
    | (show Part.sub _ _ = true; rfl)
    | dsimp -zeta only
    | with_reducible apply Within.ite
    | (with_reducible refine Within.foldl _ ?_ ?_; rotate_left; intro _ _)
    | (with_reducible refine Within.foldl_snd _ ?_ ?_; rotate_left; intro _ _)
    | fail_if_no_progress (with_reducible refine Within.put (a := [.map]) ?_ rfl rfl rfl rfl rfl)
    | split

theorem State.putPage_frame {ps s t} n p (h : Within ps s t) (hp : Part.sub [.block 13, .map] ps = true) : Within ps s (State.putPage t n p) := by
  refine h.step (a := [.block 13, .map]) ?_ hp
  unfold State.putPage
  repeat' first
    | with_reducible exact Within.refl _ _
    | with_reducible assumption
    | (show Part.sub _ _ = true; rfl)
    | dsimp -zeta only
    | with_reducible apply State.setPage_frame
    | with_reducible apply State.qmWrite_frame
    | with_reducible apply State.refer_frame
    | with_reducible apply Within.ite
    | fail_if_no_progress (with_reducible refine Within.put (a := []) ?_ rfl rfl rfl rfl rfl)
    | split

theorem State.newPage_frame {ps s t} b keep p (h : Within ps s t) (hp : Part.sub [.block 4, .block 6, .block 13, .block 20, .evt, .nor, .host, .sig, .map, .store, .out, .hostWait] ps = true) : Within ps s (State.newPage t b keep p).2 := by
  refine h.step (a := [.block 4, .block 6, .block 13, .block 20, .evt, .nor, .host, .sig, .map, .store, .out, .hostWait]) ?_ hp
  unfold State.newPage
  repeat' first
    | with_reducible exact Within.refl _ _
    | with_reducible assumption
    | (show Part.sub _ _ = true; rfl)
    | (extract_lets +onlyGivenNames x; with_reducible refine Within.cut (u := x) ?_ ?_; rotate_left; intro hx; clear_value x; rename' x => y; rotate_right; unfold x; clear x)
    | (extract_lets +onlyGivenNames x; clear_value x; rename' x => z)
    | (extract_lets +onlyGivenNames x; rename' x => z)
    | dsimp -zeta only
    | with_reducible apply State.noteMap_frame
    | with_reducible apply State.takeNumber_frame
    | with_reducible apply State.takeSlot_frame
    | with_reducible apply State.putPage_frame
    | with_reducible apply Within.ite
    | fail_if_no_progress (with_reducible refine Within.put (a := [.map]) ?_ rfl rfl rfl rfl rfl)
    | split
    | (with_reducible refine Within.of_pair (by assumption) ?_)

theorem State.putRefs_frame {ps s t} n refs (h : Within ps s t) (hp : Part.sub [.block 13, .map] ps = true) : Within ps s (State.putRefs t n refs) := by
  refine h.step (a := [.block 13, .map]) ?_ hp
  unfold State.putRefs
  repeat' first
    | with_reducible exact Within.refl _ _
    | with_reducible assumption
    | (show Part.sub _ _ = true; rfl)
    | dsimp -zeta only
    | with_reducible apply State.setPage_frame
    | with_reducible apply State.qmDir_frame
    | with_reducible apply Within.ite
    | fail_if_no_progress (with_reducible refine Within.put (a := []) ?_ rfl rfl rfl rfl rfl)
    | split

theorem State.holdPage_frame {ps s t} n (h : Within ps s t) (hp : Part.sub [.block 13, .map] ps = true) : Within ps s (State.holdPage t n) := by
  refine h.step (a := [.block 13, .map]) ?_ hp
  unfold State.holdPage
  repeat' first
    | with_reducible exact Within.refl _ _
    | with_reducible assumption
    | (show Part.sub _ _ = true; rfl)
    | dsimp -zeta only
    | with_reducible apply State.putRefs_frame
    | with_reducible apply Within.ite
    | split

theorem State.dropPage_frame {ps s t} n (h : Within ps s t) (hp : Part.sub [.block 13, .block 20, .sig, .map, .store] ps = true) : Within ps s (State.dropPage t n) := by
  refine h.step (a := [.block 13, .block 20, .sig, .map, .store]) ?_ hp
  unfold State.dropPage
  repeat' first
    | with_reducible exact Within.refl _ _
    | with_reducible assumption
    | (show Part.sub _ _ = true; rfl)
    | (extract_lets +onlyGivenNames x; with_reducible refine Within.cut (u := x) ?_ ?_; rotate_left; intro hx; clear_value x; rename' x => y; rotate_right; unfold x; clear x)
    | (extract_lets +onlyGivenNames x; clear_value x; rename' x => z)
    | (extract_lets +onlyGivenNames x; rename' x => z)
    | dsimp -zeta only
    | with_reducible apply State.noteMap_frame
    | with_reducible apply State.putRefs_frame
    | with_reducible apply Within.ite
    | fail_if_no_progress (with_reducible refine Within.put (a := [.map]) ?_ rfl rfl rfl rfl rfl)
    | split

theorem State.touchPage_frame {ps s t} lo hi n (h : Within ps s t) (hp : Part.sub [.block 13, .map] ps = true) : Within ps s (State.touchPage t lo hi n) := by
  refine h.step (a := [.block 13, .map]) ?_ hp
  unfold State.touchPage
  repeat' first
    | with_reducible exact Within.refl _ _
    | with_reducible assumption
    | (show Part.sub _ _ = true; rfl)
    | (extract_lets +onlyGivenNames x; with_reducible refine Within.cut (u := x) ?_ ?_; rotate_left; intro hx; clear_value x; rename' x => y; rotate_right; unfold x; clear x)
    | (extract_lets +onlyGivenNames x; clear_value x; rename' x => z)
    | (extract_lets +onlyGivenNames x; rename' x => z)
    | dsimp -zeta only
    | with_reducible apply State.cacheLookup_frame
    | with_reducible apply Within.ite
    | (with_reducible refine Within.foldl _ ?_ ?_; rotate_left; intro _ _)
    | (with_reducible refine Within.foldl_snd _ ?_ ?_; rotate_left; intro _ _)
    | split

theorem State.touchWalk_frame {ps s t} nsid root lo hi (h : Within ps s t) (hp : Part.sub [.block 13, .map] ps = true) : Within ps s (State.touchWalk t nsid root lo hi) := by
  refine h.step (a := [.block 13, .map]) ?_ hp
  unfold State.touchWalk
  repeat' first
    | with_reducible exact Within.refl _ _
    | with_reducible assumption
    | (show Part.sub _ _ = true; rfl)
    | (extract_lets +onlyGivenNames x; with_reducible refine Within.cut (u := x) ?_ ?_; rotate_left; intro hx; clear_value x; rename' x => y; rotate_right; unfold x; clear x)
    | (extract_lets +onlyGivenNames x; clear_value x; rename' x => z)
    | (extract_lets +onlyGivenNames x; rename' x => z)
    | dsimp -zeta only
    | with_reducible apply State.cacheLookup_frame
    | with_reducible apply State.touchPage_frame
    | with_reducible apply Within.ite
    | (with_reducible refine Within.foldl _ ?_ ?_; rotate_left; intro _ _)
    | (with_reducible refine Within.foldl_snd _ ?_ ?_; rotate_left; intro _ _)
    | split

theorem State.privatePage_frame {ps s t} b keep n (h : Within ps s t) (hp : Part.sub [.block 4, .block 6, .block 13, .block 20, .evt, .nor, .host, .sig, .map, .store, .out, .hostWait] ps = true) : Within ps s (State.privatePage t b keep n).2 := by
  refine h.step (a := [.block 4, .block 6, .block 13, .block 20, .evt, .nor, .host, .sig, .map, .store, .out, .hostWait]) ?_ hp
  unfold State.privatePage
  repeat' first
    | with_reducible exact Within.refl _ _
    | with_reducible assumption
    | (show Part.sub _ _ = true; rfl)
    | (extract_lets +onlyGivenNames x; with_reducible refine Within.cut (u := x) ?_ ?_; rotate_left; intro hx; clear_value x; rename' x => y; rotate_right; unfold x; clear x)
    | (extract_lets +onlyGivenNames x; clear_value x; rename' x => z)
    | (extract_lets +onlyGivenNames x; rename' x => z)
    | dsimp -zeta only
    | with_reducible apply State.addRef_frame
    | with_reducible apply State.newPage_frame
    | with_reducible apply State.holdPage_frame
    | with_reducible apply State.dropPage_frame
    | with_reducible apply Within.ite
    | (with_reducible refine Within.foldl _ ?_ ?_; rotate_left; intro _ _)
    | (with_reducible refine Within.foldl_snd _ ?_ ?_; rotate_left; intro _ _)
    | split
    | (with_reducible refine Within.of_pair (by assumption) ?_)

theorem State.setLeaf_frame {ps s t} b keep n es (h : Within ps s t) (hp : Part.sub [.block 4, .block 6, .block 12, .block 13, .block 20, .evt, .nor, .host, .cmd, .ddp, .keys, .sig, .map, .chan, .store, .out, .hostWait] ps = true) : Within ps s (State.setLeaf t b keep n es).2 := by
  refine h.step (a := [.block 4, .block 6, .block 12, .block 13, .block 20, .evt, .nor, .host, .cmd, .ddp, .keys, .sig, .map, .chan, .store, .out, .hostWait]) ?_ hp
  unfold State.setLeaf
  repeat' first
    | with_reducible exact Within.refl _ _
    | with_reducible assumption
    | (show Part.sub _ _ = true; rfl)
    | (extract_lets +onlyGivenNames x; with_reducible refine Within.cut (u := x) ?_ ?_; rotate_left; intro hx; clear_value x; rename' x => y; rotate_right; unfold x; clear x)
    | (extract_lets +onlyGivenNames x; clear_value x; rename' x => z)
    | (extract_lets +onlyGivenNames x; rename' x => z)
    | dsimp -zeta only
    | with_reducible apply State.addRef_frame
    | with_reducible apply State.dropRef_frame
    | with_reducible apply State.putPage_frame
    | with_reducible apply State.newPage_frame
    | with_reducible apply Within.ite
    | (with_reducible refine Within.foldl _ ?_ ?_; rotate_left; intro _ _)
    | (with_reducible refine Within.foldl_snd _ ?_ ?_; rotate_left; intro _ _)
    | fail_if_no_progress (with_reducible refine Within.put (a := []) ?_ rfl rfl rfl rfl rfl)
    | split
    | (with_reducible refine Within.of_pair (by assumption) ?_)

theorem State.setKids_frame {ps s t} b keep n ks (h : Within ps s t) (hp : Part.sub [.block 4, .block 6, .block 13, .block 20, .evt, .nor, .host, .sig, .map, .store, .out, .hostWait] ps = true) : Within ps s (State.setKids t b keep n ks).2 := by
  refine h.step (a := [.block 4, .block 6, .block 13, .block 20, .evt, .nor, .host, .sig, .map, .store, .out, .hostWait]) ?_ hp
  unfold State.setKids
  repeat' first
    | with_reducible exact Within.refl _ _
    | with_reducible assumption
    | (show Part.sub _ _ = true; rfl)
    | (extract_lets +onlyGivenNames x; with_reducible refine Within.cut (u := x) ?_ ?_; rotate_left; intro hx; clear_value x; rename' x => y; rotate_right; unfold x; clear x)
    | (extract_lets +onlyGivenNames x; clear_value x; rename' x => z)
    | (extract_lets +onlyGivenNames x; rename' x => z)
    | dsimp -zeta only
    | with_reducible apply State.putPage_frame
    | with_reducible apply State.newPage_frame
    | with_reducible apply Within.ite
    | fail_if_no_progress (with_reducible refine Within.put (a := []) ?_ rfl rfl rfl rfl rfl)
    | split
    | (with_reducible refine Within.of_pair (by assumption) ?_)

theorem State.applyUnder_frame {ps s t} b e d keep n (h : Within ps s t) (hp : Part.sub [.block 4, .block 6, .block 12, .block 13, .block 20, .evt, .nor, .host, .cmd, .ddp, .keys, .sig, .map, .chan, .store, .out, .hostWait] ps = true) :
    Within ps s (State.applyUnder b e d keep n t).2 := by
  induction d generalizing keep n s t e with
  | zero => exact h
  | succ d ih =>
    have p := State.privatePage_frame b keep n h (Part.sub_trans (by decide) hp)
    unfold State.applyUnder
    dsimp only
    split
    · exact State.setLeaf_frame _ _ _ _ p (Part.sub_trans (by decide) hp)
    · refine State.setKids_frame _ _ _ _ ?_ (Part.sub_trans (by decide) hp)
      refine Within.foldl_snd _ p fun u x => ?_
      split
      · exact ih _ _ _ (.refl _ _)
      · exact .refl _ _

theorem State.applyRoot_frame {ps s t} b root e (h : Within ps s t) (hp : Part.sub [.block 4, .block 6, .block 12, .block 13, .block 20, .evt, .nor, .host, .cmd, .ddp, .keys, .sig, .map, .chan, .store, .out, .hostWait] ps = true) : Within ps s (State.applyRoot t b root e).2 := by
  refine h.step (a := [.block 4, .block 6, .block 12, .block 13, .block 20, .evt, .nor, .host, .cmd, .ddp, .keys, .sig, .map, .chan, .store, .out, .hostWait]) ?_ hp
  unfold State.applyRoot
  repeat' first
    | with_reducible exact Within.refl _ _
    | with_reducible assumption
    | (show Part.sub _ _ = true; rfl)
    | (extract_lets +onlyGivenNames x; with_reducible refine Within.cut (u := x) ?_ ?_; rotate_left; intro hx; clear_value x; rename' x => y; rotate_right; unfold x; clear x)
    | (extract_lets +onlyGivenNames x; clear_value x; rename' x => z)
    | (extract_lets +onlyGivenNames x; rename' x => z)
    | dsimp -zeta only
    | with_reducible apply State.newPage_frame
    | with_reducible apply State.applyUnder_frame
    | with_reducible apply Within.ite
    | fail_if_no_progress (with_reducible refine Within.put (a := []) ?_ rfl rfl rfl rfl rfl)
    | split
    | (with_reducible refine Within.of_pair (by assumption) ?_)

theorem State.setRoot_frame {ps s t} nsid root (h : Within ps s t) (hp : Part.sub [.block 13, .map] ps = true) : Within ps s (State.setRoot t nsid root) := by
  refine h.step (a := [.block 13, .map]) ?_ hp
  unfold State.setRoot
  repeat' first
    | with_reducible exact Within.refl _ _
    | with_reducible assumption
    | (show Part.sub _ _ = true; rfl)
    | dsimp -zeta only
    | with_reducible apply State.qmLines_frame
    | with_reducible apply Within.ite
    | fail_if_no_progress (with_reducible refine Within.put (a := [.map]) ?_ rfl rfl rfl rfl rfl)
    | split

theorem State.holdRefs_frame {ps s t} delta (h : Within ps s t) (hp : Part.sub [.map] ps = true) : Within ps s (State.holdRefs t delta) := by
  refine h.step (a := [.map]) ?_ hp
  unfold State.holdRefs
  repeat' first
    | with_reducible exact Within.refl _ _
    | with_reducible assumption
    | (show Part.sub _ _ = true; rfl)
    | dsimp -zeta only
    | with_reducible apply State.addRef_frame
    | with_reducible apply Within.ite
    | (with_reducible refine Within.foldl _ ?_ ?_; rotate_left; intro _ _)
    | (with_reducible refine Within.foldl_snd _ ?_ ?_; rotate_left; intro _ _)
    | split

theorem State.dropRefs_frame {ps s t} delta (h : Within ps s t) (hp : Part.sub [.block 12, .cmd, .ddp, .keys, .map, .chan, .out] ps = true) : Within ps s (State.dropRefs t delta) := by
  refine h.step (a := [.block 12, .cmd, .ddp, .keys, .map, .chan, .out]) ?_ hp
  unfold State.dropRefs
  repeat' first
    | with_reducible exact Within.refl _ _
    | with_reducible assumption
    | (show Part.sub _ _ = true; rfl)
    | dsimp -zeta only
    | with_reducible apply State.dropRef_frame
    | with_reducible apply Within.ite
    | (with_reducible refine Within.foldl _ ?_ ?_; rotate_left; intro _ _)
    | (with_reducible refine Within.foldl_snd _ ?_ ?_; rotate_left; intro _ _)
    | split

theorem State.applyDelta_frame {ps s t} nsid delta (h : Within ps s t) (hp : Part.sub [.block 4, .block 6, .block 12, .block 13, .block 20, .evt, .nor, .host, .cmd, .ddp, .keys, .sig, .map, .chan, .store, .out, .hostWait] ps = true) : Within ps s (State.applyDelta t nsid delta) := by
  refine h.step (a := [.block 4, .block 6, .block 12, .block 13, .block 20, .evt, .nor, .host, .cmd, .ddp, .keys, .sig, .map, .chan, .store, .out, .hostWait]) ?_ hp
  unfold State.applyDelta
  repeat' first
    | with_reducible exact Within.refl _ _
    | with_reducible assumption
    | (show Part.sub _ _ = true; rfl)
    | (extract_lets +onlyGivenNames x; with_reducible refine Within.cut (u := x) ?_ ?_; rotate_left; intro hx; clear_value x; rename' x => y; rotate_right; unfold x; clear x)
    | (extract_lets +onlyGivenNames x; clear_value x; rename' x => z)
    | (extract_lets +onlyGivenNames x; rename' x => z)
    | dsimp -zeta only
    | with_reducible apply State.noteMap_frame
    | with_reducible apply State.applyRoot_frame
    | with_reducible apply State.setRoot_frame
    | with_reducible apply State.holdRefs_frame
    | with_reducible apply State.dropRefs_frame
    | with_reducible apply Within.ite
    | (with_reducible refine Within.foldl _ ?_ ?_; rotate_left; intro _ _)
    | (with_reducible refine Within.foldl_snd _ ?_ ?_; rotate_left; intro _ _)
    | fail_if_no_progress (with_reducible refine Within.put (a := []) ?_ rfl rfl rfl rfl rfl)
    | split
    | (with_reducible refine Within.of_pair (by assumption) ?_)

theorem State.updateTree_frame {ps s t} nsid delta (h : Within ps s t) (hp : Part.sub [.block 4, .block 6, .block 12, .block 13, .block 20, .evt, .nor, .host, .cmd, .ddp, .keys, .sig, .map, .chan, .store, .out, .hostWait] ps = true) : Within ps s (State.updateTree t nsid delta).2 := by
  refine h.step (a := [.block 4, .block 6, .block 12, .block 13, .block 20, .evt, .nor, .host, .cmd, .ddp, .keys, .sig, .map, .chan, .store, .out, .hostWait]) ?_ hp
  unfold State.updateTree
  repeat' first
    | with_reducible exact Within.refl _ _
    | with_reducible assumption
    | (show Part.sub _ _ = true; rfl)
    | (extract_lets +onlyGivenNames x; with_reducible refine Within.cut (u := x) ?_ ?_; rotate_left; intro hx; clear_value x; rename' x => y; rotate_right; unfold x; clear x)
    | (extract_lets +onlyGivenNames x; clear_value x; rename' x => z)
    | (extract_lets +onlyGivenNames x; rename' x => z)
    | dsimp -zeta only
    | with_reducible apply State.applyDelta_frame
    | with_reducible apply Within.ite
    | fail_if_no_progress (with_reducible refine Within.put (a := [.map]) ?_ rfl rfl rfl rfl rfl)
    | split

theorem State.raiseUpdate_frame {ps s t} nsid delta (h : Within ps s t) (hp : Part.sub [.block 13] ps = true) : Within ps s (State.raiseUpdate t nsid delta).2 := by
  refine h.step (a := [.block 13]) ?_ hp
  unfold State.raiseUpdate
  repeat' first
    | with_reducible exact Within.refl _ _
    | with_reducible assumption
    | (show Part.sub _ _ = true; rfl)
    | (extract_lets +onlyGivenNames x; with_reducible refine Within.cut (u := x) ?_ ?_; rotate_left; intro hx; clear_value x; rename' x => y; rotate_right; unfold x; clear x)
    | (extract_lets +onlyGivenNames x; clear_value x; rename' x => z)
    | (extract_lets +onlyGivenNames x; rename' x => z)
    | dsimp -zeta only
    | with_reducible apply State.bump_frame
    | with_reducible apply Within.ite
    | fail_if_no_progress (with_reducible refine Within.put (a := []) ?_ rfl rfl rfl rfl rfl)
    | split

theorem State.queueDelta_frame {ps s t} nsid delta (h : Within ps s t) (hp : Part.sub [.block 13, .map] ps = true) : Within ps s (State.queueDelta t nsid delta) := by
  refine h.step (a := [.block 13, .map]) ?_ hp
  unfold State.queueDelta
  repeat' first
    | with_reducible exact Within.refl _ _
    | with_reducible assumption
    | (show Part.sub _ _ = true; rfl)
    | (extract_lets +onlyGivenNames x; with_reducible refine Within.cut (u := x) ?_ ?_; rotate_left; intro hx; clear_value x; rename' x => y; rotate_right; unfold x; clear x)
    | (extract_lets +onlyGivenNames x; clear_value x; rename' x => z)
    | (extract_lets +onlyGivenNames x; rename' x => z)
    | dsimp -zeta only
    | with_reducible apply State.raiseUpdate_frame
    | with_reducible apply Within.ite
    | fail_if_no_progress (with_reducible refine Within.put (a := [.map]) ?_ rfl rfl rfl rfl rfl)
    | split
    | (with_reducible refine Within.of_pair (by assumption) ?_)

theorem State.replicaDelta_frame {ps s t} nsid delta (h : Within ps s t) (hp : Part.sub [.block 4, .block 6, .block 12, .block 13, .block 20, .evt, .nor, .host, .cmd, .ddp, .keys, .sig, .map, .chan, .store, .out, .hostWait] ps = true) : Within ps s (State.replicaDelta t nsid delta) := by
  refine h.step (a := [.block 4, .block 6, .block 12, .block 13, .block 20, .evt, .nor, .host, .cmd, .ddp, .keys, .sig, .map, .chan, .store, .out, .hostWait]) ?_ hp
  unfold State.replicaDelta
  repeat' first
    | with_reducible exact Within.refl _ _
    | with_reducible assumption
    | (show Part.sub _ _ = true; rfl)
    | (extract_lets +onlyGivenNames x; with_reducible refine Within.cut (u := x) ?_ ?_; rotate_left; intro hx; clear_value x; rename' x => y; rotate_right; unfold x; clear x)
    | (extract_lets +onlyGivenNames x; clear_value x; rename' x => z)
    | (extract_lets +onlyGivenNames x; rename' x => z)
    | dsimp -zeta only
    | with_reducible apply State.updateTree_frame
    | with_reducible apply State.queueDelta_frame
    | with_reducible apply Within.ite
    | split
    | (with_reducible refine Within.of_pair (by assumption) ?_)

theorem State.resumeDeltas_frame {ps s t}  (h : Within ps s t) (hp : Part.sub [.block 4, .block 6, .block 12, .block 13, .block 20, .evt, .nor, .host, .cmd, .ddp, .keys, .sig, .map, .chan, .store, .out, .hostWait] ps = true) : Within ps s (State.resumeDeltas t) := by
  refine h.step (a := [.block 4, .block 6, .block 12, .block 13, .block 20, .evt, .nor, .host, .cmd, .ddp, .keys, .sig, .map, .chan, .store, .out, .hostWait]) ?_ hp
  unfold State.resumeDeltas
  repeat' first
    | with_reducible exact Within.refl _ _
    | with_reducible assumption
    | (show Part.sub _ _ = true; rfl)
    | (extract_lets +onlyGivenNames x; with_reducible refine Within.cut (u := x) ?_ ?_; rotate_left; intro hx; clear_value x; rename' x => y; rotate_right; unfold x; clear x)
    | (extract_lets +onlyGivenNames x; clear_value x; rename' x => z)
    | (extract_lets +onlyGivenNames x; rename' x => z)
    | dsimp -zeta only
    | with_reducible apply State.replicaDelta_frame
    | with_reducible apply Within.ite
    | (with_reducible refine Within.foldl _ ?_ ?_; rotate_left; intro _ _)
    | (with_reducible refine Within.foldl_snd _ ?_ ?_; rotate_left; intro _ _)
    | fail_if_no_progress (with_reducible refine Within.put (a := [.map]) ?_ rfl rfl rfl rfl rfl)
    | split

theorem State.emptyTree_frame {ps s t} b want (h : Within ps s t) (hp : Part.sub [.block 4, .block 6, .block 13, .block 20, .evt, .nor, .host, .sig, .map, .store, .out, .hostWait] ps = true) : Within ps s (State.emptyTree t b want).2 := by
  refine h.step (a := [.block 4, .block 6, .block 13, .block 20, .evt, .nor, .host, .sig, .map, .store, .out, .hostWait]) ?_ hp
  unfold State.emptyTree
  repeat' first
    | with_reducible exact Within.refl _ _
    | with_reducible assumption
    | (show Part.sub _ _ = true; rfl)
    | (extract_lets +onlyGivenNames x; with_reducible refine Within.cut (u := x) ?_ ?_; rotate_left; intro hx; clear_value x; rename' x => y; rotate_right; unfold x; clear x)
    | (extract_lets +onlyGivenNames x; clear_value x; rename' x => z)
    | (extract_lets +onlyGivenNames x; rename' x => z)
    | dsimp -zeta only
    | with_reducible apply State.noteMap_frame
    | with_reducible apply State.takeSlot_frame
    | with_reducible apply State.putPage_frame
    | with_reducible apply State.newPage_frame
    | with_reducible apply Within.ite
    | fail_if_no_progress (with_reducible refine Within.put (a := [.map]) ?_ rfl rfl rfl rfl rfl)
    | split
    | (with_reducible refine Within.of_pair (by assumption) ?_)

theorem State.rewritePages_frame {ps s t} old new (h : Within ps s t) (hp : Part.sub [.block 13, .map] ps = true) : Within ps s (State.rewritePages t old new) := by
  refine h.step (a := [.block 13, .map]) ?_ hp
  unfold State.rewritePages
  repeat' first
    | with_reducible exact Within.refl _ _
    | with_reducible assumption
    | (show Part.sub _ _ = true; rfl)
    | (extract_lets +onlyGivenNames x; with_reducible refine Within.cut (u := x) ?_ ?_; rotate_left; intro hx; clear_value x; rename' x => y; rotate_right; unfold x; clear x)
    | (extract_lets +onlyGivenNames x; clear_value x; rename' x => z)
    | (extract_lets +onlyGivenNames x; rename' x => z)
    | dsimp -zeta only
    | with_reducible apply State.bump_frame
    | with_reducible apply State.putPage_frame
    | with_reducible apply Within.ite
    | (with_reducible refine Within.foldl _ ?_ ?_; rotate_left; intro _ _)
    | (with_reducible refine Within.foldl_snd _ ?_ ?_; rotate_left; intro _ _)
    | fail_if_no_progress (with_reducible refine Within.put (a := [.map]) ?_ rfl rfl rfl rfl rfl)
    | split

theorem State.movePlaces_frame {ps s t} old new (h : Within ps s t) (hp : Part.sub [.block 13, .map] ps = true) : Within ps s (State.movePlaces t old new) := by
  refine h.step (a := [.block 13, .map]) ?_ hp
  unfold State.movePlaces
  repeat' first
    | with_reducible exact Within.refl _ _
    | with_reducible assumption
    | (show Part.sub _ _ = true; rfl)
    | dsimp -zeta only
    | with_reducible apply State.setPage_frame
    | with_reducible apply State.dropDir_frame
    | with_reducible apply Within.ite
    | (with_reducible refine Within.foldl _ ?_ ?_; rotate_left; intro _ _)
    | (with_reducible refine Within.foldl_snd _ ?_ ?_; rotate_left; intro _ _)
    | fail_if_no_progress (with_reducible refine Within.put (a := []) ?_ rfl rfl rfl rfl rfl)
    | split

theorem State.rewriteLoc_frame {ps s t} old new (h : Within ps s t) (hp : Part.sub [.block 13, .block 20, .ddp, .keys, .sig, .map, .store] ps = true) : Within ps s (State.rewriteLoc t old new) := by
  refine h.step (a := [.block 13, .block 20, .ddp, .keys, .sig, .map, .store]) ?_ hp
  unfold State.rewriteLoc
  repeat' first
    | with_reducible exact Within.refl _ _
    | with_reducible assumption
    | (show Part.sub _ _ = true; rfl)
    | (extract_lets +onlyGivenNames x; with_reducible refine Within.cut (u := x) ?_ ?_; rotate_left; intro hx; clear_value x; rename' x => y; rotate_right; unfold x; clear x)
    | (extract_lets +onlyGivenNames x; clear_value x; rename' x => z)
    | (extract_lets +onlyGivenNames x; rename' x => z)
    | dsimp -zeta only
    | with_reducible apply State.setCount_frame
    | with_reducible apply State.uncountStored_frame
    | with_reducible apply State.moveStored_frame
    | with_reducible apply State.moveIndex_frame
    | with_reducible apply State.noteMap_frame
    | with_reducible apply State.rewritePages_frame
    | with_reducible apply State.movePlaces_frame
    | with_reducible apply Within.ite
    | split

theorem State.redirect_frame {ps s t} old new (h : Within ps s t) (hp : Part.sub [.block 12, .block 13, .cmd, .ddp, .keys, .map, .chan, .out] ps = true) : Within ps s (State.redirect t old new) := by
  refine h.step (a := [.block 12, .block 13, .cmd, .ddp, .keys, .map, .chan, .out]) ?_ hp
  unfold State.redirect
  repeat' first
    | with_reducible exact Within.refl _ _
    | with_reducible assumption
    | (show Part.sub _ _ = true; rfl)
    | (extract_lets +onlyGivenNames x; with_reducible refine Within.cut (u := x) ?_ ?_; rotate_left; intro hx; clear_value x; rename' x => y; rotate_right; unfold x; clear x)
    | (extract_lets +onlyGivenNames x; clear_value x; rename' x => z)
    | (extract_lets +onlyGivenNames x; rename' x => z)
    | dsimp -zeta only
    | with_reducible apply State.setCount_frame
    | with_reducible apply State.releaseStorage_frame
    | with_reducible apply State.rewritePages_frame
    | with_reducible apply Within.ite
    | fail_if_no_progress (with_reducible refine Within.put (a := [.ddp]) ?_ rfl rfl rfl rfl rfl)
    | split

theorem State.qmSnap_frame {ps s t} key (h : Within ps s t) (hp : Part.sub [.block 13, .map] ps = true) : Within ps s (State.qmSnap t key) := by
  refine h.step (a := [.block 13, .map]) ?_ hp
  unfold State.qmSnap
  repeat' first
    | with_reducible exact Within.refl _ _
    | with_reducible assumption
    | (show Part.sub _ _ = true; rfl)
    | dsimp -zeta only
    | with_reducible apply State.qmLines_frame
    | with_reducible apply Within.ite
    | split

theorem State.takeCut_frame {ps s t} nsid id time group (h : Within ps s t) (hp : Part.sub [.block 13, .map] ps = true) : Within ps s (State.takeCut t nsid id time group) := by
  refine h.step (a := [.block 13, .map]) ?_ hp
  unfold State.takeCut
  repeat' first
    | with_reducible exact Within.refl _ _
    | with_reducible assumption
    | (show Part.sub _ _ = true; rfl)
    | (extract_lets +onlyGivenNames x; with_reducible refine Within.cut (u := x) ?_ ?_; rotate_left; intro hx; clear_value x; rename' x => y; rotate_right; unfold x; clear x)
    | (extract_lets +onlyGivenNames x; clear_value x; rename' x => z)
    | (extract_lets +onlyGivenNames x; rename' x => z)
    | dsimp -zeta only
    | with_reducible apply State.holdPage_frame
    | with_reducible apply State.qmSnap_frame
    | with_reducible apply Within.ite
    | fail_if_no_progress (with_reducible refine Within.put (a := [.map]) ?_ rfl rfl rfl rfl rfl)
    | split

theorem State.removeSnap_frame {ps s t} nsid id (h : Within ps s t) (hp : Part.sub [.block 13, .block 20, .sig, .map, .store] ps = true) : Within ps s (State.removeSnap t nsid id) := by
  refine h.step (a := [.block 13, .block 20, .sig, .map, .store]) ?_ hp
  unfold State.removeSnap
  repeat' first
    | with_reducible exact Within.refl _ _
    | with_reducible assumption
    | (show Part.sub _ _ = true; rfl)
    | dsimp -zeta only
    | with_reducible apply State.dropPage_frame
    | with_reducible apply State.qmSnap_frame
    | with_reducible apply Within.ite
    | fail_if_no_progress (with_reducible refine Within.put (a := [.map]) ?_ rfl rfl rfl rfl rfl)
    | split

theorem State.countClone_frame {ps s t} src id f (h : Within ps s t) (hp : Part.sub [.block 13, .map] ps = true) : Within ps s (State.countClone t src id f) := by
  refine h.step (a := [.block 13, .map]) ?_ hp
  unfold State.countClone
  repeat' first
    | with_reducible exact Within.refl _ _
    | with_reducible assumption
    | (show Part.sub _ _ = true; rfl)
    | dsimp -zeta only
    | with_reducible apply State.qmSnap_frame
    | with_reducible apply Within.ite
    | fail_if_no_progress (with_reducible refine Within.put (a := [.map]) ?_ rfl rfl rfl rfl rfl)
    | split

theorem State.makeClone_frame {ps s t} src id target (h : Within ps s t) (hp : Part.sub [.block 13, .map] ps = true) : Within ps s (State.makeClone t src id target) := by
  refine h.step (a := [.block 13, .map]) ?_ hp
  unfold State.makeClone
  repeat' first
    | with_reducible exact Within.refl _ _
    | with_reducible assumption
    | (show Part.sub _ _ = true; rfl)
    | (extract_lets +onlyGivenNames x; with_reducible refine Within.cut (u := x) ?_ ?_; rotate_left; intro hx; clear_value x; rename' x => y; rotate_right; unfold x; clear x)
    | (extract_lets +onlyGivenNames x; clear_value x; rename' x => z)
    | (extract_lets +onlyGivenNames x; rename' x => z)
    | dsimp -zeta only
    | with_reducible apply State.qmLines_frame
    | with_reducible apply State.holdPage_frame
    | with_reducible apply State.countClone_frame
    | with_reducible apply Within.ite
    | fail_if_no_progress (with_reducible refine Within.put (a := [.map]) ?_ rfl rfl rfl rfl rfl)
    | split

theorem State.deleteNs_frame {ps s t} nsid (h : Within ps s t) (hp : Part.sub [.block 13, .block 20, .sig, .map, .store] ps = true) : Within ps s (State.deleteNs t nsid) := by
  refine h.step (a := [.block 13, .block 20, .sig, .map, .store]) ?_ hp
  unfold State.deleteNs
  repeat' first
    | with_reducible exact Within.refl _ _
    | with_reducible assumption
    | (show Part.sub _ _ = true; rfl)
    | (extract_lets +onlyGivenNames x; with_reducible refine Within.cut (u := x) ?_ ?_; rotate_left; intro hx; clear_value x; rename' x => y; rotate_right; unfold x; clear x)
    | (extract_lets +onlyGivenNames x; clear_value x; rename' x => z)
    | (extract_lets +onlyGivenNames x; rename' x => z)
    | dsimp -zeta only
    | with_reducible apply State.qmLines_frame
    | with_reducible apply State.dropPage_frame
    | with_reducible apply State.removeSnap_frame
    | with_reducible apply State.countClone_frame
    | with_reducible apply Within.ite
    | (with_reducible refine Within.foldl _ ?_ ?_; rotate_left; intro _ _)
    | (with_reducible refine Within.foldl_snd _ ?_ ?_; rotate_left; intro _ _)
    | fail_if_no_progress (with_reducible refine Within.put (a := [.map]) ?_ rfl rfl rfl rfl rfl)
    | split

theorem State.addNs_frame {ps s t} nsid n (h : Within ps s t) (hp : Part.sub [.block 13, .map] ps = true) : Within ps s (State.addNs t nsid n) := by
  refine h.step (a := [.block 13, .map]) ?_ hp
  unfold State.addNs
  repeat' first
    | with_reducible exact Within.refl _ _
    | with_reducible assumption
    | (show Part.sub _ _ = true; rfl)
    | dsimp -zeta only
    | with_reducible apply State.qmLines_frame
    | with_reducible apply Within.ite
    | fail_if_no_progress (with_reducible refine Within.put (a := [.map]) ?_ rfl rfl rfl rfl rfl)
    | split

theorem State.setResv_frame {ps s t} nsid r (h : Within ps s t) (hp : Part.sub [.cmd, .store] ps = true) : Within ps s (State.setResv t nsid r) := by
  refine h.step (a := [.cmd, .store]) ?_ hp
  unfold State.setResv
  repeat' first
    | with_reducible exact Within.refl _ _
    | with_reducible assumption
    | (show Part.sub _ _ = true; rfl)
    | dsimp -zeta only
    | with_reducible apply Within.ite
    | fail_if_no_progress (with_reducible refine Within.put (a := [.cmd, .store]) ?_ rfl rfl rfl rfl rfl)
    | split

theorem State.withTree_frame {ps s t} op want (h : Within ps s t) (hp : Part.sub [.block 4, .block 6, .block 13, .block 20, .evt, .nor, .host, .sig, .map, .store, .out, .hostWait] ps = true) : Within ps s (State.withTree t op want).2 := by
  refine h.step (a := [.block 4, .block 6, .block 13, .block 20, .evt, .nor, .host, .sig, .map, .store, .out, .hostWait]) ?_ hp
  unfold State.withTree
  repeat' first
    | with_reducible exact Within.refl _ _
    | with_reducible assumption
    | (show Part.sub _ _ = true; rfl)
    | (extract_lets +onlyGivenNames x; with_reducible refine Within.cut (u := x) ?_ ?_; rotate_left; intro hx; clear_value x; rename' x => y; rotate_right; unfold x; clear x)
    | (extract_lets +onlyGivenNames x; clear_value x; rename' x => z)
    | (extract_lets +onlyGivenNames x; rename' x => z)
    | dsimp -zeta only
    | with_reducible apply State.emptyTree_frame
    | with_reducible apply Within.ite
    | fail_if_no_progress (with_reducible refine Within.put (a := []) ?_ rfl rfl rfl rfl rfl)
    | split
    | (with_reducible refine Within.of_pair (by assumption) ?_)

theorem State.applyMeta_frame {ps s t} x1 (h : Within ps s t) (hp : Part.sub [.block 13, .block 20, .cmd, .sig, .map, .store] ps = true) : Within ps s (State.applyMeta t x1) := by
  refine h.step (a := [.block 13, .block 20, .cmd, .sig, .map, .store]) ?_ hp
  unfold State.applyMeta
  repeat' first
    | with_reducible exact Within.refl _ _
    | with_reducible assumption
    | (show Part.sub _ _ = true; rfl)
    | dsimp -zeta only
    | with_reducible apply State.qmLines_frame
    | with_reducible apply State.dropPage_frame
    | with_reducible apply State.setRoot_frame
    | with_reducible apply State.takeCut_frame
    | with_reducible apply State.removeSnap_frame
    | with_reducible apply State.makeClone_frame
    | with_reducible apply State.deleteNs_frame
    | with_reducible apply State.addNs_frame
    | with_reducible apply State.setResv_frame
    | with_reducible apply Within.ite
    | fail_if_no_progress (with_reducible refine Within.put (a := [.map]) ?_ rfl rfl rfl rfl rfl)
    | split

theorem State.takeRow_frame {ps s t} x (h : Within ps s t) (hp : Part.sub [.map] ps = true) : Within ps s (State.takeRow t x) := by
  refine h.step (a := [.map]) ?_ hp
  unfold State.takeRow
  repeat' first
    | with_reducible exact Within.refl _ _
    | with_reducible assumption
    | (show Part.sub _ _ = true; rfl)
    | dsimp -zeta only
    | with_reducible apply Within.ite
    | fail_if_no_progress (with_reducible refine Within.put (a := [.map]) ?_ rfl rfl rfl rfl rfl)
    | split

theorem State.lostAppend_frame {ps s t} entry (h : Within ps s t) (hp : Part.sub [.regs, .holding, .evt, .nor, .host, .mem, .out, .hostWait] ps = true) : Within ps s (State.lostAppend t entry) := by
  refine h.step (a := [.regs, .holding, .evt, .nor, .host, .mem, .out, .hostWait]) ?_ hp
  unfold State.lostAppend
  repeat' first
    | with_reducible exact Within.refl _ _
    | with_reducible assumption
    | (show Part.sub _ _ = true; rfl)
    | (extract_lets +onlyGivenNames x; with_reducible refine Within.cut (u := x) ?_ ?_; rotate_left; intro hx; clear_value x; rename' x => y; rotate_right; unfold x; clear x)
    | (extract_lets +onlyGivenNames x; clear_value x; rename' x => z)
    | (extract_lets +onlyGivenNames x; rename' x => z)
    | dsimp -zeta only
    | with_reducible apply State.wr_frame
    | with_reducible apply State.raise_frame
    | with_reducible apply State.event_frame
    | with_reducible apply Within.ite
    | fail_if_no_progress (with_reducible refine Within.put (a := [.mem]) ?_ rfl rfl rfl rfl rfl)
    | (refine Within.putMem ?_ rfl (fun h => Memory.wf_writeList _ _ h) rfl rfl)
    | split

theorem State.listExtents_frame {ps s t} loc domain full (h : Within ps s t) (hp : Part.sub [.regs, .holding, .evt, .nor, .host, .mem, .out, .hostWait] ps = true) : Within ps s (State.listExtents t loc domain full) := by
  refine h.step (a := [.regs, .holding, .evt, .nor, .host, .mem, .out, .hostWait]) ?_ hp
  unfold State.listExtents
  repeat' first
    | with_reducible exact Within.refl _ _
    | with_reducible assumption
    | (show Part.sub _ _ = true; rfl)
    | (extract_lets +onlyGivenNames x; with_reducible refine Within.cut (u := x) ?_ ?_; rotate_left; intro hx; clear_value x; rename' x => y; rotate_right; unfold x; clear x)
    | (extract_lets +onlyGivenNames x; clear_value x; rename' x => z)
    | (extract_lets +onlyGivenNames x; rename' x => z)
    | dsimp -zeta only
    | with_reducible apply State.event_frame
    | with_reducible apply State.lostAppend_frame
    | with_reducible apply Within.ite
    | (with_reducible refine Within.foldl _ ?_ ?_; rotate_left; intro _ _)
    | (with_reducible refine Within.foldl_snd _ ?_ ?_; rotate_left; intro _ _)
    | split

theorem State.forgetIndex_frame {ps s t} loc (h : Within ps s t) (hp : Part.sub [.block 12, .cmd, .ddp] ps = true) : Within ps s (State.forgetIndex t loc) := by
  refine h.step (a := [.block 12, .cmd, .ddp]) ?_ hp
  unfold State.forgetIndex
  repeat' first
    | with_reducible exact Within.refl _ _
    | with_reducible assumption
    | (show Part.sub _ _ = true; rfl)
    | (extract_lets +onlyGivenNames x; with_reducible refine Within.cut (u := x) ?_ ?_; rotate_left; intro hx; clear_value x; rename' x => y; rotate_right; unfold x; clear x)
    | (extract_lets +onlyGivenNames x; clear_value x; rename' x => z)
    | (extract_lets +onlyGivenNames x; rename' x => z)
    | dsimp -zeta only
    | with_reducible apply State.removeIndex_frame
    | with_reducible apply Within.ite
    | (with_reducible refine Within.foldl _ ?_ ?_; rotate_left; intro _ _)
    | (with_reducible refine Within.foldl_snd _ ?_ ?_; rotate_left; intro _ _)
    | fail_if_no_progress (with_reducible refine Within.put (a := [.ddp]) ?_ rfl rfl rfl rfl rfl)
    | split

theorem State.markLoss_frame {ps s t} loc (h : Within ps s t) (hp : Part.sub [.block 14] ps = true) : Within ps s (State.markLoss t loc) := by
  refine h.step (a := [.block 14]) ?_ hp
  unfold State.markLoss
  repeat' first
    | with_reducible exact Within.refl _ _
    | with_reducible assumption
    | (show Part.sub _ _ = true; rfl)
    | dsimp -zeta only
    | with_reducible apply State.wr_frame
    | with_reducible apply Within.ite
    | fail_if_no_progress (with_reducible refine Within.put (a := []) ?_ rfl rfl rfl rfl rfl)
    | split

theorem State.loseImage_frame {ps s t} loc (h : Within ps s t) (hp : Part.sub [.block 13, .map] ps = true) : Within ps s (State.loseImage t loc) := by
  refine h.step (a := [.block 13, .map]) ?_ hp
  unfold State.loseImage
  repeat' first
    | with_reducible exact Within.refl _ _
    | with_reducible assumption
    | (show Part.sub _ _ = true; rfl)
    | (extract_lets +onlyGivenNames x; with_reducible refine Within.cut (u := x) ?_ ?_; rotate_left; intro hx; clear_value x; rename' x => y; rotate_right; unfold x; clear x)
    | (extract_lets +onlyGivenNames x; clear_value x; rename' x => z)
    | (extract_lets +onlyGivenNames x; rename' x => z)
    | dsimp -zeta only
    | with_reducible apply State.setPage_frame
    | with_reducible apply State.dropDir_frame
    | with_reducible apply Within.ite
    | (with_reducible refine Within.foldl _ ?_ ?_; rotate_left; intro _ _)
    | (with_reducible refine Within.foldl_snd _ ?_ ?_; rotate_left; intro _ _)
    | fail_if_no_progress (with_reducible refine Within.put (a := []) ?_ rfl rfl rfl rfl rfl)
    | split

theorem State.loseContainer_frame {ps s t} loc domain (h : Within ps s t) (hp : Part.sub [.regs, .holding, .evt, .nor, .host, .cmd, .ddp, .keys, .sig, .map, .chan, .store, .mem, .out, .hostWait] ps = true) : Within ps s (State.loseContainer t loc domain) := by
  refine h.step (a := [.regs, .holding, .evt, .nor, .host, .cmd, .ddp, .keys, .sig, .map, .chan, .store, .mem, .out, .hostWait]) ?_ hp
  unfold State.loseContainer
  repeat' first
    | with_reducible exact Within.refl _ _
    | with_reducible assumption
    | (show Part.sub _ _ = true; rfl)
    | (extract_lets +onlyGivenNames x; with_reducible refine Within.cut (u := x) ?_ ?_; rotate_left; intro hx; clear_value x; rename' x => y; rotate_right; unfold x; clear x)
    | (extract_lets +onlyGivenNames x; clear_value x; rename' x => z)
    | (extract_lets +onlyGivenNames x; rename' x => z)
    | dsimp -zeta only
    | with_reducible apply State.event_frame
    | with_reducible apply State.sendRing_frame
    | with_reducible apply State.rewriteLoc_frame
    | with_reducible apply State.lostAppend_frame
    | with_reducible apply State.listExtents_frame
    | with_reducible apply State.forgetIndex_frame
    | with_reducible apply State.markLoss_frame
    | with_reducible apply State.loseImage_frame
    | with_reducible apply Within.ite
    | (with_reducible refine Within.foldl _ ?_ ?_; rotate_left; intro _ _)
    | (with_reducible refine Within.foldl_snd _ ?_ ?_; rotate_left; intro _ _)
    | split

theorem State.loseCached_frame {ps s t} loc domain (h : Within ps s t) (hp : Part.sub [.regs, .holding, .evt, .nor, .host, .cmd, .ddp, .keys, .sig, .map, .store, .mem, .out, .hostWait] ps = true) : Within ps s (State.loseCached t loc domain) := by
  refine h.step (a := [.regs, .holding, .evt, .nor, .host, .cmd, .ddp, .keys, .sig, .map, .store, .mem, .out, .hostWait]) ?_ hp
  unfold State.loseCached
  repeat' first
    | with_reducible exact Within.refl _ _
    | with_reducible assumption
    | (show Part.sub _ _ = true; rfl)
    | (extract_lets +onlyGivenNames x; with_reducible refine Within.cut (u := x) ?_ ?_; rotate_left; intro hx; clear_value x; rename' x => y; rotate_right; unfold x; clear x)
    | (extract_lets +onlyGivenNames x; clear_value x; rename' x => z)
    | (extract_lets +onlyGivenNames x; rename' x => z)
    | dsimp -zeta only
    | with_reducible apply State.removeIndex_frame
    | with_reducible apply State.rewriteLoc_frame
    | with_reducible apply State.listExtents_frame
    | with_reducible apply Within.ite
    | (with_reducible refine Within.foldl _ ?_ ?_; rotate_left; intro _ _)
    | (with_reducible refine Within.foldl_snd _ ?_ ?_; rotate_left; intro _ _)
    | split

end Sys2Proof.Machine
end

