-- ==== Sys2Proof/Laws/FrameCmdCore.lean ====
section
/-!
SUPPORT. Laws/FrameCmdCore.lean: what the definitions of Machine/CmdCore.lean leave alone: each changes the listed parts at most, and keeps the
canonical form.
-/
namespace Sys2Proof.Machine
open Sys2Proof

set_option Elab.async false
set_option linter.all false

theorem State.setTag_frame {ps s t} bt c (h : Within ps s t) (hp : Part.sub [.cmd] ps = true) : Within ps s (State.setTag t bt c) := by
  refine h.step (a := [.cmd]) ?_ hp
  unfold State.setTag
  repeat' first
    | with_reducible exact Within.refl _ _
    | with_reducible assumption
    | (show Part.sub _ _ = true; rfl)
    | dsimp -zeta only
    | with_reducible apply Within.ite
    | fail_if_no_progress (with_reducible refine Within.put (a := [.cmd]) ?_ rfl rfl rfl rfl rfl)
    | split

theorem State.modTag_frame {ps s t} bt f (h : Within ps s t) (hp : Part.sub [.cmd] ps = true) : Within ps s (State.modTag t bt f) := by
  refine h.step (a := [.cmd]) ?_ hp
  unfold State.modTag
  repeat' first
    | with_reducible exact Within.refl _ _
    | with_reducible assumption
    | (show Part.sub _ _ = true; rfl)
    | dsimp -zeta only
    | with_reducible apply Within.ite
    | fail_if_no_progress (with_reducible refine Within.put (a := [.cmd]) ?_ rfl rfl rfl rfl rfl)
    | split

theorem State.noteTags_frame {ps s t}  (h : Within ps s t) (hp : Part.sub [.block 10] ps = true) : Within ps s (State.noteTags t) := by
  refine h.step (a := [.block 10]) ?_ hp
  unfold State.noteTags
  repeat' first
    | with_reducible exact Within.refl _ _
    | with_reducible assumption
    | (show Part.sub _ _ = true; rfl)
    | (extract_lets +onlyGivenNames x; with_reducible refine Within.cut (u := x) ?_ ?_; rotate_left; intro hx; clear_value x; rename' x => y; rotate_right; unfold x; clear x)
    | (extract_lets +onlyGivenNames x; clear_value x; rename' x => z)
    | (extract_lets +onlyGivenNames x; rename' x => z)
    | dsimp -zeta only
    | with_reducible apply State.wr_frame
    | with_reducible apply State.peak_frame
    | with_reducible apply Within.ite
    | split

theorem State.notice_frame {ps s t} ctrl code about (h : Within ps s t) (hp : Part.sub [.cmd] ps = true) : Within ps s (State.notice t ctrl code about) := by
  refine h.step (a := [.cmd]) ?_ hp
  unfold State.notice
  repeat' first
    | with_reducible exact Within.refl _ _
    | with_reducible assumption
    | (show Part.sub _ _ = true; rfl)
    | (extract_lets +onlyGivenNames x; with_reducible refine Within.cut (u := x) ?_ ?_; rotate_left; intro hx; clear_value x; rename' x => y; rotate_right; unfold x; clear x)
    | (extract_lets +onlyGivenNames x; clear_value x; rename' x => z)
    | (extract_lets +onlyGivenNames x; rename' x => z)
    | dsimp -zeta only
    | with_reducible apply State.modTag_frame
    | with_reducible apply Within.ite
    | fail_if_no_progress (with_reducible refine Within.put (a := [.cmd]) ?_ rfl rfl rfl rfl rfl)
    | split

theorem State.anaNotice_frame {ps s t} g (h : Within ps s t) (hp : Part.sub [.cmd] ps = true) : Within ps s (State.anaNotice t g) := by
  refine h.step (a := [.cmd]) ?_ hp
  unfold State.anaNotice
  repeat' first
    | with_reducible exact Within.refl _ _
    | with_reducible assumption
    | (show Part.sub _ _ = true; rfl)
    | (extract_lets +onlyGivenNames x; with_reducible refine Within.cut (u := x) ?_ ?_; rotate_left; intro hx; clear_value x; rename' x => y; rotate_right; unfold x; clear x)
    | (extract_lets +onlyGivenNames x; clear_value x; rename' x => z)
    | (extract_lets +onlyGivenNames x; rename' x => z)
    | dsimp -zeta only
    | with_reducible apply State.notice_frame
    | with_reducible apply Within.ite
    | (with_reducible refine Within.foldl _ ?_ ?_; rotate_left; intro _ _)
    | (with_reducible refine Within.foldl_snd _ ?_ ?_; rotate_left; intro _ _)
    | fail_if_no_progress (with_reducible refine Within.put (a := [.cmd]) ?_ rfl rfl rfl rfl rfl)
    | split

theorem State.anaChange_frame {ps s t} before (h : Within ps s t) (hp : Part.sub [.cmd] ps = true) : Within ps s (State.anaChange t before) := by
  refine h.step (a := [.cmd]) ?_ hp
  unfold State.anaChange
  repeat' first
    | with_reducible exact Within.refl _ _
    | with_reducible assumption
    | (show Part.sub _ _ = true; rfl)
    | dsimp -zeta only
    | with_reducible apply State.anaNotice_frame
    | with_reducible apply Within.ite
    | (with_reducible refine Within.foldl _ ?_ ?_; rotate_left; intro _ _)
    | (with_reducible refine Within.foldl_snd _ ?_ ?_; rotate_left; intro _ _)
    | split

theorem State.tellNs_frame {ps s t} nsid (h : Within ps s t) (hp : Part.sub [.cmd] ps = true) : Within ps s (State.tellNs t nsid) := by
  refine h.step (a := [.cmd]) ?_ hp
  unfold State.tellNs
  repeat' first
    | with_reducible exact Within.refl _ _
    | with_reducible assumption
    | (show Part.sub _ _ = true; rfl)
    | (extract_lets +onlyGivenNames x; with_reducible refine Within.cut (u := x) ?_ ?_; rotate_left; intro hx; clear_value x; rename' x => y; rotate_right; unfold x; clear x)
    | (extract_lets +onlyGivenNames x; clear_value x; rename' x => z)
    | (extract_lets +onlyGivenNames x; rename' x => z)
    | dsimp -zeta only
    | with_reducible apply State.notice_frame
    | with_reducible apply Within.ite
    | (with_reducible refine Within.foldl _ ?_ ?_; rotate_left; intro _ _)
    | (with_reducible refine Within.foldl_snd _ ?_ ?_; rotate_left; intro _ _)
    | fail_if_no_progress (with_reducible refine Within.put (a := [.cmd]) ?_ rfl rfl rfl rfl rfl)
    | split

theorem State.applyChange_frame {ps s t} op (h : Within ps s t) (hp : Part.sub [.block 13, .block 20, .cmd, .sig, .map, .store] ps = true) : Within ps s (State.applyChange t op) := by
  refine h.step (a := [.block 13, .block 20, .cmd, .sig, .map, .store]) ?_ hp
  unfold State.applyChange
  repeat' first
    | with_reducible exact Within.refl _ _
    | with_reducible assumption
    | (show Part.sub _ _ = true; rfl)
    | (extract_lets +onlyGivenNames x; with_reducible refine Within.cut (u := x) ?_ ?_; rotate_left; intro hx; clear_value x; rename' x => y; rotate_right; unfold x; clear x)
    | (extract_lets +onlyGivenNames x; clear_value x; rename' x => z)
    | (extract_lets +onlyGivenNames x; rename' x => z)
    | dsimp -zeta only
    | with_reducible apply State.applyMeta_frame
    | with_reducible apply State.tellNs_frame
    | with_reducible apply Within.ite
    | fail_if_no_progress (with_reducible refine Within.put (a := []) ?_ rfl rfl rfl rfl rfl)
    | split

theorem State.applyRootChange_frame {ps s t} x (h : Within ps s t) (hp : Part.sub [.block 4, .block 6, .block 13, .block 20, .evt, .nor, .host, .cmd, .sig, .map, .store, .out, .hostWait] ps = true) : Within ps s (State.applyRootChange t x) := by
  refine h.step (a := [.block 4, .block 6, .block 13, .block 20, .evt, .nor, .host, .cmd, .sig, .map, .store, .out, .hostWait]) ?_ hp
  unfold State.applyRootChange
  repeat' first
    | with_reducible exact Within.refl _ _
    | with_reducible assumption
    | (show Part.sub _ _ = true; rfl)
    | (extract_lets +onlyGivenNames x; with_reducible refine Within.cut (u := x) ?_ ?_; rotate_left; intro hx; clear_value x; rename' x => y; rotate_right; unfold x; clear x)
    | (extract_lets +onlyGivenNames x; clear_value x; rename' x => z)
    | (extract_lets +onlyGivenNames x; rename' x => z)
    | dsimp -zeta only
    | with_reducible apply State.withTree_frame
    | with_reducible apply State.takeRow_frame
    | with_reducible apply State.applyChange_frame
    | with_reducible apply Within.ite
    | fail_if_no_progress (with_reducible refine Within.put (a := []) ?_ rfl rfl rfl rfl rfl)
    | split
    | (with_reducible refine Within.of_pair (by assumption) ?_)

theorem State.metaEvent_frame {ps s t} x1 (h : Within ps s t) (hp : Part.sub [.block 4, .block 6, .evt, .nor, .host, .out, .hostWait] ps = true) : Within ps s (State.metaEvent t x1) := by
  refine h.step (a := [.block 4, .block 6, .evt, .nor, .host, .out, .hostWait]) ?_ hp
  unfold State.metaEvent
  repeat' first
    | with_reducible exact Within.refl _ _
    | with_reducible assumption
    | (show Part.sub _ _ = true; rfl)
    | dsimp -zeta only
    | with_reducible apply State.event_frame
    | with_reducible apply State.event1_frame
    | with_reducible apply Within.ite
    | split

theorem State.hold_frame {ps s t} bt (h : Within ps s t) (hp : Part.sub [.cmd] ps = true) : Within ps s (State.hold t bt) := by
  refine h.step (a := [.cmd]) ?_ hp
  unfold State.hold
  repeat' first
    | with_reducible exact Within.refl _ _
    | with_reducible assumption
    | (show Part.sub _ _ = true; rfl)
    | (extract_lets +onlyGivenNames x; with_reducible refine Within.cut (u := x) ?_ ?_; rotate_left; intro hx; clear_value x; rename' x => y; rotate_right; unfold x; clear x)
    | (extract_lets +onlyGivenNames x; clear_value x; rename' x => z)
    | (extract_lets +onlyGivenNames x; rename' x => z)
    | dsimp -zeta only
    | with_reducible apply State.modTag_frame
    | with_reducible apply Within.ite
    | fail_if_no_progress (with_reducible refine Within.put (a := [.cmd]) ?_ rfl rfl rfl rfl rfl)
    | split

theorem State.start_frame {ps s t} bt (h : Within ps s t) (hp : Part.sub [.block 10, .cmd] ps = true) : Within ps s (State.start t bt) := by
  refine h.step (a := [.block 10, .cmd]) ?_ hp
  unfold State.start
  repeat' first
    | with_reducible exact Within.refl _ _
    | with_reducible assumption
    | (show Part.sub _ _ = true; rfl)
    | dsimp -zeta only
    | with_reducible apply State.wr_frame
    | with_reducible apply State.modTag_frame
    | with_reducible apply State.hold_frame
    | with_reducible apply Within.ite
    | fail_if_no_progress (with_reducible refine Within.put (a := [.cmd]) ?_ rfl rfl rfl rfl rfl)
    | split

theorem State.refuse_frame {ps s t} bt st (h : Within ps s t) (hp : Part.sub [.cmd] ps = true) : Within ps s (State.refuse t bt st) := by
  refine h.step (a := [.cmd]) ?_ hp
  unfold State.refuse
  repeat' first
    | with_reducible exact Within.refl _ _
    | with_reducible assumption
    | (show Part.sub _ _ = true; rfl)
    | dsimp -zeta only
    | with_reducible apply State.modTag_frame
    | with_reducible apply Within.ite
    | fail_if_no_progress (with_reducible refine Within.put (a := []) ?_ rfl rfl rfl rfl rfl)
    | split

theorem State.afterLock_frame {ps s t} bt (h : Within ps s t) (hp : Part.sub [.block 4, .block 6, .block 10, .block 13, .evt, .nor, .host, .cmd, .map, .out, .hostWait] ps = true) : Within ps s (State.afterLock t bt) := by
  refine h.step (a := [.block 4, .block 6, .block 10, .block 13, .evt, .nor, .host, .cmd, .map, .out, .hostWait]) ?_ hp
  unfold State.afterLock
  repeat' first
    | with_reducible exact Within.refl _ _
    | with_reducible assumption
    | (show Part.sub _ _ = true; rfl)
    | (extract_lets +onlyGivenNames x; with_reducible refine Within.cut (u := x) ?_ ?_; rotate_left; intro hx; clear_value x; rename' x => y; rotate_right; unfold x; clear x)
    | (extract_lets +onlyGivenNames x; clear_value x; rename' x => z)
    | (extract_lets +onlyGivenNames x; rename' x => z)
    | dsimp -zeta only
    | with_reducible apply State.bump_frame
    | with_reducible apply State.event1_frame
    | with_reducible apply State.hold_frame
    | with_reducible apply State.start_frame
    | with_reducible apply State.refuse_frame
    | with_reducible apply Within.ite
    | fail_if_no_progress (with_reducible refine Within.put (a := [.map]) ?_ rfl rfl rfl rfl rfl)
    | split

theorem State.admitLocks_frame {ps s t}  (h : Within ps s t) (hp : Part.sub [.cmd] ps = true) : Within ps s (State.admitLocks t) := by
  refine h.step (a := [.cmd]) ?_ hp
  unfold State.admitLocks
  repeat' first
    | with_reducible exact Within.refl _ _
    | with_reducible assumption
    | (show Part.sub _ _ = true; rfl)
    | (extract_lets +onlyGivenNames x; with_reducible refine Within.cut (u := x) ?_ ?_; rotate_left; intro hx; clear_value x; rename' x => y; rotate_right; unfold x; clear x)
    | (extract_lets +onlyGivenNames x; clear_value x; rename' x => z)
    | (extract_lets +onlyGivenNames x; rename' x => z)
    | dsimp -zeta only
    | with_reducible apply State.modTag_frame
    | with_reducible apply Within.ite
    | (with_reducible refine Within.foldl _ ?_ ?_; rotate_left; intro _ _)
    | (with_reducible refine Within.foldl_snd _ ?_ ?_; rotate_left; intro _ _)
    | fail_if_no_progress (with_reducible refine Within.put (a := []) ?_ rfl rfl rfl rfl rfl)
    | split

theorem State.grantLocks_frame {ps s t}  (h : Within ps s t) (hp : Part.sub [.block 4, .block 6, .block 10, .block 13, .evt, .nor, .host, .cmd, .map, .out, .hostWait] ps = true) : Within ps s (State.grantLocks t) := by
  refine h.step (a := [.block 4, .block 6, .block 10, .block 13, .evt, .nor, .host, .cmd, .map, .out, .hostWait]) ?_ hp
  unfold State.grantLocks
  repeat' first
    | with_reducible exact Within.refl _ _
    | with_reducible assumption
    | (show Part.sub _ _ = true; rfl)
    | (extract_lets +onlyGivenNames x; with_reducible refine Within.cut (u := x) ?_ ?_; rotate_left; intro hx; clear_value x; rename' x => y; rotate_right; unfold x; clear x)
    | (extract_lets +onlyGivenNames x; clear_value x; rename' x => z)
    | (extract_lets +onlyGivenNames x; rename' x => z)
    | dsimp -zeta only
    | with_reducible apply State.modTag_frame
    | with_reducible apply State.afterLock_frame
    | with_reducible apply State.admitLocks_frame
    | with_reducible apply Within.ite
    | (with_reducible refine Within.foldl _ ?_ ?_; rotate_left; intro _ _)
    | (with_reducible refine Within.foldl_snd _ ?_ ?_; rotate_left; intro _ _)
    | fail_if_no_progress (with_reducible refine Within.put (a := []) ?_ rfl rfl rfl rfl rfl)
    | split

theorem State.requestLock_frame {ps s t} bt (h : Within ps s t) (hp : Part.sub [.block 4, .block 6, .block 10, .block 13, .evt, .nor, .host, .cmd, .map, .out, .hostWait] ps = true) : Within ps s (State.requestLock t bt) := by
  refine h.step (a := [.block 4, .block 6, .block 10, .block 13, .evt, .nor, .host, .cmd, .map, .out, .hostWait]) ?_ hp
  unfold State.requestLock
  repeat' first
    | with_reducible exact Within.refl _ _
    | with_reducible assumption
    | (show Part.sub _ _ = true; rfl)
    | (extract_lets +onlyGivenNames x; with_reducible refine Within.cut (u := x) ?_ ?_; rotate_left; intro hx; clear_value x; rename' x => y; rotate_right; unfold x; clear x)
    | (extract_lets +onlyGivenNames x; clear_value x; rename' x => z)
    | (extract_lets +onlyGivenNames x; rename' x => z)
    | dsimp -zeta only
    | with_reducible apply State.bump_frame
    | with_reducible apply State.setTag_frame
    | with_reducible apply State.start_frame
    | with_reducible apply State.grantLocks_frame
    | with_reducible apply Within.ite
    | fail_if_no_progress (with_reducible refine Within.put (a := [.cmd]) ?_ rfl rfl rfl rfl rfl)
    | split

theorem State.askInternal_frame {ps s t} c (h : Within ps s t) (hp : Part.sub [.cmd] ps = true) : Within ps s (State.askInternal t c) := by
  refine h.step (a := [.cmd]) ?_ hp
  unfold State.askInternal
  repeat' first
    | with_reducible exact Within.refl _ _
    | with_reducible assumption
    | (show Part.sub _ _ = true; rfl)
    | (extract_lets +onlyGivenNames x; with_reducible refine Within.cut (u := x) ?_ ?_; rotate_left; intro hx; clear_value x; rename' x => y; rotate_right; unfold x; clear x)
    | (extract_lets +onlyGivenNames x; clear_value x; rename' x => z)
    | (extract_lets +onlyGivenNames x; rename' x => z)
    | dsimp -zeta only
    | with_reducible apply Within.ite
    | fail_if_no_progress (with_reducible refine Within.put (a := [.cmd]) ?_ rfl rfl rfl rfl rfl)
    | split

theorem State.fetchForwarded_frame {ps s t} bt c (h : Within ps s t) (hp : Part.sub [.ports, .trn, .cmd, .out] ps = true) : Within ps s (State.fetchForwarded t bt c) := by
  refine h.step (a := [.ports, .trn, .cmd, .out]) ?_ hp
  unfold State.fetchForwarded
  repeat' first
    | with_reducible exact Within.refl _ _
    | with_reducible assumption
    | (show Part.sub _ _ = true; rfl)
    | (extract_lets +onlyGivenNames x; with_reducible refine Within.cut (u := x) ?_ ?_; rotate_left; intro hx; clear_value x; rename' x => y; rotate_right; unfold x; clear x)
    | (extract_lets +onlyGivenNames x; clear_value x; rename' x => z)
    | (extract_lets +onlyGivenNames x; rename' x => z)
    | dsimp -zeta only
    | with_reducible apply State.queueRead_frame
    | with_reducible apply State.startSeg_frame
    | with_reducible apply State.modTag_frame
    | with_reducible apply Within.ite
    | (with_reducible refine Within.foldl _ ?_ ?_; rotate_left; intro _ _)
    | (with_reducible refine Within.foldl_snd _ ?_ ?_; rotate_left; intro _ _)
    | fail_if_no_progress (with_reducible refine Within.put (a := []) ?_ rfl rfl rfl rfl rfl)
    | split

theorem State.forwardOne_frame {ps s t} bt (h : Within ps s t) (hp : Part.sub [.block 10, .ports, .trn, .cmd, .chan, .out] ps = true) : Within ps s (State.forwardOne t bt) := by
  refine h.step (a := [.block 10, .ports, .trn, .cmd, .chan, .out]) ?_ hp
  unfold State.forwardOne
  repeat' first
    | with_reducible exact Within.refl _ _
    | with_reducible assumption
    | (show Part.sub _ _ = true; rfl)
    | (extract_lets +onlyGivenNames x; with_reducible refine Within.cut (u := x) ?_ ?_; rotate_left; intro hx; clear_value x; rename' x => y; rotate_right; unfold x; clear x)
    | (extract_lets +onlyGivenNames x; clear_value x; rename' x => z)
    | (extract_lets +onlyGivenNames x; rename' x => z)
    | dsimp -zeta only
    | with_reducible apply State.bump_frame
    | with_reducible apply State.sendRing_frame
    | with_reducible apply State.modTag_frame
    | with_reducible apply State.fetchForwarded_frame
    | with_reducible apply Within.ite
    | fail_if_no_progress (with_reducible refine Within.put (a := []) ?_ rfl rfl rfl rfl rfl)
    | split

theorem State.forward_frame {ps s t} bt (h : Within ps s t) (hp : Part.sub [.block 10, .ports, .trn, .cmd, .chan, .out] ps = true) : Within ps s (State.forward t bt) := by
  refine h.step (a := [.block 10, .ports, .trn, .cmd, .chan, .out]) ?_ hp
  unfold State.forward
  repeat' first
    | with_reducible exact Within.refl _ _
    | with_reducible assumption
    | (show Part.sub _ _ = true; rfl)
    | (extract_lets +onlyGivenNames x; with_reducible refine Within.cut (u := x) ?_ ?_; rotate_left; intro hx; clear_value x; rename' x => y; rotate_right; unfold x; clear x)
    | (extract_lets +onlyGivenNames x; clear_value x; rename' x => z)
    | (extract_lets +onlyGivenNames x; rename' x => z)
    | dsimp -zeta only
    | with_reducible apply State.forwardOne_frame
    | with_reducible apply Within.ite
    | fail_if_no_progress (with_reducible refine Within.put (a := []) ?_ rfl rfl rfl rfl rfl)
    | split

theorem State.advance_frame {ps s t} bt (h : Within ps s t) (hp : Part.sub [.block 4, .block 6, .block 10, .block 13, .evt, .nor, .host, .ports, .trn, .cmd, .map, .chan, .out, .hostWait] ps = true) : Within ps s (State.advance t bt) := by
  refine h.step (a := [.block 4, .block 6, .block 10, .block 13, .evt, .nor, .host, .ports, .trn, .cmd, .map, .chan, .out, .hostWait]) ?_ hp
  unfold State.advance
  repeat' first
    | with_reducible exact Within.refl _ _
    | with_reducible assumption
    | (show Part.sub _ _ = true; rfl)
    | (extract_lets +onlyGivenNames x; with_reducible refine Within.cut (u := x) ?_ ?_; rotate_left; intro hx; clear_value x; rename' x => y; rotate_right; unfold x; clear x)
    | (extract_lets +onlyGivenNames x; clear_value x; rename' x => z)
    | (extract_lets +onlyGivenNames x; rename' x => z)
    | dsimp -zeta only
    | with_reducible apply State.event1_frame
    | with_reducible apply State.modTag_frame
    | with_reducible apply State.hold_frame
    | with_reducible apply State.start_frame
    | with_reducible apply State.refuse_frame
    | with_reducible apply State.requestLock_frame
    | with_reducible apply State.forward_frame
    | with_reducible apply Within.ite
    | fail_if_no_progress (with_reducible refine Within.put (a := []) ?_ rfl rfl rfl rfl rfl)
    | split

theorem State.countLatency_frame {ps s t} c (h : Within ps s t) (hp : Part.sub [.evt] ps = true) : Within ps s (State.countLatency t c) := by
  refine h.step (a := [.evt]) ?_ hp
  unfold State.countLatency
  repeat' first
    | with_reducible exact Within.refl _ _
    | with_reducible assumption
    | (show Part.sub _ _ = true; rfl)
    | (extract_lets +onlyGivenNames x; with_reducible refine Within.cut (u := x) ?_ ?_; rotate_left; intro hx; clear_value x; rename' x => y; rotate_right; unfold x; clear x)
    | (extract_lets +onlyGivenNames x; clear_value x; rename' x => z)
    | (extract_lets +onlyGivenNames x; rename' x => z)
    | dsimp -zeta only
    | with_reducible apply Within.ite
    | fail_if_no_progress (with_reducible refine Within.put (a := [.evt]) ?_ rfl rfl rfl rfl rfl)
    | split

theorem State.settleFlush_frame {ps s t}  (h : Within ps s t) (hp : Part.sub [.cmd] ps = true) : Within ps s (State.settleFlush t) := by
  refine h.step (a := [.cmd]) ?_ hp
  unfold State.settleFlush
  repeat' first
    | with_reducible exact Within.refl _ _
    | with_reducible assumption
    | (show Part.sub _ _ = true; rfl)
    | (extract_lets +onlyGivenNames x; with_reducible refine Within.cut (u := x) ?_ ?_; rotate_left; intro hx; clear_value x; rename' x => y; rotate_right; unfold x; clear x)
    | (extract_lets +onlyGivenNames x; clear_value x; rename' x => z)
    | (extract_lets +onlyGivenNames x; rename' x => z)
    | dsimp -zeta only
    | with_reducible apply State.modTag_frame
    | with_reducible apply Within.ite
    | (with_reducible refine Within.foldl _ ?_ ?_; rotate_left; intro _ _)
    | (with_reducible refine Within.foldl_snd _ ?_ ?_; rotate_left; intro _ _)
    | fail_if_no_progress (with_reducible refine Within.put (a := []) ?_ rfl rfl rfl rfl rfl)
    | split

theorem State.finish_frame {ps s t} bt st (h : Within ps s t) (hp : Part.sub [.cmd] ps = true) : Within ps s (State.finish t bt st) := by
  refine h.step (a := [.cmd]) ?_ hp
  unfold State.finish
  repeat' first
    | with_reducible exact Within.refl _ _
    | with_reducible assumption
    | (show Part.sub _ _ = true; rfl)
    | dsimp -zeta only
    | with_reducible apply State.modTag_frame
    | with_reducible apply Within.ite
    | fail_if_no_progress (with_reducible refine Within.put (a := []) ?_ rfl rfl rfl rfl rfl)
    | split

theorem State.answer_frame {ps s t} bt c st (h : Within ps s t) (hp : Part.sub [.host, .ports, .trn, .chan, .out, .hostWait] ps = true) : Within ps s (State.answer t bt c st) := by
  refine h.step (a := [.host, .ports, .trn, .chan, .out, .hostWait]) ?_ hp
  unfold State.answer
  repeat' first
    | with_reducible exact Within.refl _ _
    | with_reducible assumption
    | (show Part.sub _ _ = true; rfl)
    | (extract_lets +onlyGivenNames x; with_reducible refine Within.cut (u := x) ?_ ?_; rotate_left; intro hx; clear_value x; rename' x => y; rotate_right; unfold x; clear x)
    | (extract_lets +onlyGivenNames x; clear_value x; rename' x => z)
    | (extract_lets +onlyGivenNames x; rename' x => z)
    | dsimp -zeta only
    | with_reducible apply State.transmit_frame
    | with_reducible apply State.complete_frame
    | with_reducible apply State.sendRing_frame
    | with_reducible apply Within.ite
    | fail_if_no_progress (with_reducible refine Within.put (a := [.trn]) ?_ rfl rfl rfl rfl rfl)
    | split

theorem State.detachRuns_frame {ps s t} bt (h : Within ps s t) (hp : Part.sub [.prg] ps = true) : Within ps s (State.detachRuns t bt) := by
  refine h.step (a := [.prg]) ?_ hp
  unfold State.detachRuns
  repeat' first
    | with_reducible exact Within.refl _ _
    | with_reducible assumption
    | (show Part.sub _ _ = true; rfl)
    | dsimp -zeta only
    | with_reducible apply Within.ite
    | fail_if_no_progress (with_reducible refine Within.put (a := [.prg]) ?_ rfl rfl rfl rfl rfl)
    | split

theorem State.endHalf_frame {ps s t} c st (h : Within ps s t) (hp : Part.sub [.cmd] ps = true) : Within ps s (State.endHalf t c st) := by
  refine h.step (a := [.cmd]) ?_ hp
  unfold State.endHalf
  repeat' first
    | with_reducible exact Within.refl _ _
    | with_reducible assumption
    | (show Part.sub _ _ = true; rfl)
    | (extract_lets +onlyGivenNames x; with_reducible refine Within.cut (u := x) ?_ ?_; rotate_left; intro hx; clear_value x; rename' x => y; rotate_right; unfold x; clear x)
    | (extract_lets +onlyGivenNames x; clear_value x; rename' x => z)
    | (extract_lets +onlyGivenNames x; rename' x => z)
    | dsimp -zeta only
    | with_reducible apply State.modTag_frame
    | with_reducible apply State.refuse_frame
    | with_reducible apply Within.ite
    | fail_if_no_progress (with_reducible refine Within.put (a := []) ?_ rfl rfl rfl rfl rfl)
    | split

theorem State.endServed_frame {ps s t} bt c (h : Within ps s t) (hp : Part.sub [.cmd] ps = true) : Within ps s (State.endServed t bt c) := by
  refine h.step (a := [.cmd]) ?_ hp
  unfold State.endServed
  repeat' first
    | with_reducible exact Within.refl _ _
    | with_reducible assumption
    | (show Part.sub _ _ = true; rfl)
    | (extract_lets +onlyGivenNames x; with_reducible refine Within.cut (u := x) ?_ ?_; rotate_left; intro hx; clear_value x; rename' x => y; rotate_right; unfold x; clear x)
    | (extract_lets +onlyGivenNames x; clear_value x; rename' x => z)
    | (extract_lets +onlyGivenNames x; rename' x => z)
    | dsimp -zeta only
    | with_reducible apply State.finish_frame
    | with_reducible apply Within.ite
    | fail_if_no_progress (with_reducible refine Within.put (a := []) ?_ rfl rfl rfl rfl rfl)
    | split

theorem State.queueCompletion_frame {ps s t} bt (h : Within ps s t) (hp : Part.sub [.block 4, .block 6, .block 10, .block 13, .block 20, .evt, .nor, .host, .cmd, .sig, .map, .prg, .store, .out, .hostWait] ps = true) : Within ps s (State.queueCompletion t bt) := by
  refine h.step (a := [.block 4, .block 6, .block 10, .block 13, .block 20, .evt, .nor, .host, .cmd, .sig, .map, .prg, .store, .out, .hostWait]) ?_ hp
  unfold State.queueCompletion
  repeat' first
    | with_reducible exact Within.refl _ _
    | with_reducible assumption
    | (show Part.sub _ _ = true; rfl)
    | (extract_lets +onlyGivenNames x; with_reducible refine Within.cut (u := x) ?_ ?_; rotate_left; intro hx; clear_value x; rename' x => y; rotate_right; unfold x; clear x)
    | (extract_lets +onlyGivenNames x; clear_value x; rename' x => z)
    | (extract_lets +onlyGivenNames x; rename' x => z)
    | dsimp -zeta only
    | with_reducible apply State.setTag_frame
    | with_reducible apply State.noteTags_frame
    | with_reducible apply State.applyChange_frame
    | with_reducible apply State.grantLocks_frame
    | with_reducible apply State.countLatency_frame
    | with_reducible apply State.settleFlush_frame
    | with_reducible apply State.detachRuns_frame
    | with_reducible apply State.endHalf_frame
    | with_reducible apply State.endServed_frame
    | with_reducible apply Within.ite
    | fail_if_no_progress (with_reducible refine Within.put (a := [.cmd]) ?_ rfl rfl rfl rfl rfl)
    | split

theorem State.acceptOne_frame {ps s t} bu rest (h : Within ps s t) (hp : Part.sub [.host, .ports, .trn, .cmd, .chan, .out, .hostWait] ps = true) : Within ps s (State.acceptOne t bu rest) := by
  refine h.step (a := [.host, .ports, .trn, .cmd, .chan, .out, .hostWait]) ?_ hp
  unfold State.acceptOne
  repeat' first
    | with_reducible exact Within.refl _ _
    | with_reducible assumption
    | (show Part.sub _ _ = true; rfl)
    | (extract_lets +onlyGivenNames x; with_reducible refine Within.cut (u := x) ?_ ?_; rotate_left; intro hx; clear_value x; rename' x => y; rotate_right; unfold x; clear x)
    | (extract_lets +onlyGivenNames x; clear_value x; rename' x => z)
    | (extract_lets +onlyGivenNames x; rename' x => z)
    | dsimp -zeta only
    | with_reducible apply State.answer_frame
    | with_reducible apply Within.ite
    | fail_if_no_progress (with_reducible refine Within.put (a := [.cmd]) ?_ rfl rfl rfl rfl rfl)
    | split

theorem State.acceptUpTo_frame {ps s t} bt us (h : Within ps s t) (hp : Part.sub [.host, .ports, .trn, .cmd, .chan, .out, .hostWait] ps = true) : Within ps s (State.acceptUpTo bt us t) := by
  refine h.step (a := [.host, .ports, .trn, .cmd, .chan, .out, .hostWait]) ?_ hp
  clear h
  induction us generalizing t with
  | nil => exact .refl _ _
  | cons u r ih =>
    have a : Within [.host, .ports, .trn, .cmd, .chan, .out, .hostWait] t (t.acceptOne u r) := State.acceptOne_frame _ _ (.refl _ _) (by decide)
    exact Within.ite a (a.trans ih)

theorem State.freeTag_frame {ps s t} bt (h : Within ps s t) (hp : Part.sub [.block 10, .host, .ports, .trn, .cmd, .map, .chan, .out, .hostWait] ps = true) : Within ps s (State.freeTag t bt) := by
  refine h.step (a := [.block 10, .host, .ports, .trn, .cmd, .map, .chan, .out, .hostWait]) ?_ hp
  unfold State.freeTag
  repeat' first
    | with_reducible exact Within.refl _ _
    | with_reducible assumption
    | (show Part.sub _ _ = true; rfl)
    | (extract_lets +onlyGivenNames x; with_reducible refine Within.cut (u := x) ?_ ?_; rotate_left; intro hx; clear_value x; rename' x => y; rotate_right; unfold x; clear x)
    | (extract_lets +onlyGivenNames x; clear_value x; rename' x => z)
    | (extract_lets +onlyGivenNames x; rename' x => z)
    | dsimp -zeta only
    | with_reducible apply State.noteTags_frame
    | with_reducible apply State.acceptUpTo_frame
    | with_reducible apply Within.ite
    | fail_if_no_progress (with_reducible refine Within.put (a := [.cmd, .map]) ?_ rfl rfl rfl rfl rfl)
    | split

theorem State.askFetch_frame {ps s t} use loc tenant (h : Within ps s t) (hp : Part.sub [.cmd] ps = true) : Within ps s (State.askFetch t use loc tenant) := by
  refine h.step (a := [.cmd]) ?_ hp
  unfold State.askFetch
  repeat' first
    | with_reducible exact Within.refl _ _
    | with_reducible assumption
    | (show Part.sub _ _ = true; rfl)
    | dsimp -zeta only
    | with_reducible apply State.askInternal_frame
    | with_reducible apply Within.ite
    | split

theorem State.dropJob_frame {ps s t} job (h : Within ps s t) (hp : Part.sub [.block 10, .cmd] ps = true) : Within ps s (State.dropJob t job) := by
  refine h.step (a := [.block 10, .cmd]) ?_ hp
  unfold State.dropJob
  repeat' first
    | with_reducible exact Within.refl _ _
    | with_reducible assumption
    | (show Part.sub _ _ = true; rfl)
    | dsimp -zeta only
    | with_reducible apply State.noteTags_frame
    | with_reducible apply Within.ite
    | fail_if_no_progress (with_reducible refine Within.put (a := [.cmd]) ?_ rfl rfl rfl rfl rfl)
    | split

theorem State.holdTag_frame {ps s t} job tenant (h : Within ps s t) (hp : Part.sub [.block 10, .cmd] ps = true) : Within ps s (State.holdTag t job tenant) := by
  refine h.step (a := [.block 10, .cmd]) ?_ hp
  unfold State.holdTag
  repeat' first
    | with_reducible exact Within.refl _ _
    | with_reducible assumption
    | (show Part.sub _ _ = true; rfl)
    | (extract_lets +onlyGivenNames x; with_reducible refine Within.cut (u := x) ?_ ?_; rotate_left; intro hx; clear_value x; rename' x => y; rotate_right; unfold x; clear x)
    | (extract_lets +onlyGivenNames x; clear_value x; rename' x => z)
    | (extract_lets +onlyGivenNames x; rename' x => z)
    | dsimp -zeta only
    | with_reducible apply State.setTag_frame
    | with_reducible apply State.noteTags_frame
    | with_reducible apply Within.ite
    | fail_if_no_progress (with_reducible refine Within.put (a := [.cmd]) ?_ rfl rfl rfl rfl rfl)
    | split

theorem State.refuseCapsule_frame {ps s t} k st (h : Within ps s t) (hp : Part.sub [.ports, .trn, .out] ps = true) : Within ps s (State.refuseCapsule t k st) := by
  refine h.step (a := [.ports, .trn, .out]) ?_ hp
  unfold State.refuseCapsule
  repeat' first
    | with_reducible exact Within.refl _ _
    | with_reducible assumption
    | (show Part.sub _ _ = true; rfl)
    | dsimp -zeta only
    | with_reducible apply State.transmit_frame
    | with_reducible apply Within.ite
    | split

theorem State.leaveGroup_frame {ps s t} bt c (h : Within ps s t) (hp : Part.sub [.block 13, .map] ps = true) : Within ps s (State.leaveGroup t bt c) := by
  refine h.step (a := [.block 13, .map]) ?_ hp
  unfold State.leaveGroup
  repeat' first
    | with_reducible exact Within.refl _ _
    | with_reducible assumption
    | (show Part.sub _ _ = true; rfl)
    | (extract_lets +onlyGivenNames x; with_reducible refine Within.cut (u := x) ?_ ?_; rotate_left; intro hx; clear_value x; rename' x => y; rotate_right; unfold x; clear x)
    | (extract_lets +onlyGivenNames x; clear_value x; rename' x => z)
    | (extract_lets +onlyGivenNames x; rename' x => z)
    | dsimp -zeta only
    | with_reducible apply State.wr_frame
    | with_reducible apply Within.ite
    | fail_if_no_progress (with_reducible refine Within.put (a := [.map]) ?_ rfl rfl rfl rfl rfl)
    | split

theorem State.noteRuns_frame {ps s t}  (h : Within ps s t) (hp : Part.sub [.block 19] ps = true) : Within ps s (State.noteRuns t) := by
  refine h.step (a := [.block 19]) ?_ hp
  unfold State.noteRuns
  repeat' first
    | with_reducible exact Within.refl _ _
    | with_reducible assumption
    | (show Part.sub _ _ = true; rfl)
    | (extract_lets +onlyGivenNames x; with_reducible refine Within.cut (u := x) ?_ ?_; rotate_left; intro hx; clear_value x; rename' x => y; rotate_right; unfold x; clear x)
    | (extract_lets +onlyGivenNames x; clear_value x; rename' x => z)
    | (extract_lets +onlyGivenNames x; rename' x => z)
    | dsimp -zeta only
    | with_reducible apply State.wr_frame
    | with_reducible apply Within.ite
    | (with_reducible refine Within.foldl _ ?_ ?_; rotate_left; intro _ _)
    | (with_reducible refine Within.foldl_snd _ ?_ ?_; rotate_left; intro _ _)
    | split

theorem State.stopRun_frame {ps s t} bt (h : Within ps s t) (hp : Part.sub [.block 19, .prg] ps = true) : Within ps s (State.stopRun t bt) := by
  refine h.step (a := [.block 19, .prg]) ?_ hp
  unfold State.stopRun
  repeat' first
    | with_reducible exact Within.refl _ _
    | with_reducible assumption
    | (show Part.sub _ _ = true; rfl)
    | dsimp -zeta only
    | with_reducible apply State.noteRuns_frame
    | with_reducible apply Within.ite
    | fail_if_no_progress (with_reducible refine Within.put (a := [.prg]) ?_ rfl rfl rfl rfl rfl)
    | split

theorem State.giveUp_frame {ps s t} bt c (h : Within ps s t) (hp : Part.sub [.block 12, .block 13, .block 19, .block 20, .cmd, .ddp, .keys, .sig, .lfl, .map, .prg, .chan, .store, .out] ps = true) : Within ps s (State.giveUp t bt c) := by
  refine h.step (a := [.block 12, .block 13, .block 19, .block 20, .cmd, .ddp, .keys, .sig, .lfl, .map, .prg, .chan, .store, .out]) ?_ hp
  unfold State.giveUp
  repeat' first
    | with_reducible exact Within.refl _ _
    | with_reducible assumption
    | (show Part.sub _ _ = true; rfl)
    | (extract_lets +onlyGivenNames x; with_reducible refine Within.cut (u := x) ?_ ?_; rotate_left; intro hx; clear_value x; rename' x => y; rotate_right; unfold x; clear x)
    | (extract_lets +onlyGivenNames x; clear_value x; rename' x => z)
    | (extract_lets +onlyGivenNames x; rename' x => z)
    | dsimp -zeta only
    | with_reducible apply State.dropPending_frame
    | with_reducible apply State.unpinChunks_frame
    | with_reducible apply State.removeSnap_frame
    | with_reducible apply State.askInternal_frame
    | with_reducible apply State.leaveGroup_frame
    | with_reducible apply State.stopRun_frame
    | with_reducible apply Within.ite
    | fail_if_no_progress (with_reducible refine Within.put (a := [.lfl, .map]) ?_ rfl rfl rfl rfl rfl)
    | split

theorem State.cancelWith_frame {ps s t} bt st (h : Within ps s t) (hp : Part.sub [.block 12, .block 13, .block 19, .block 20, .cmd, .ddp, .keys, .sig, .lfl, .map, .prg, .chan, .store, .out] ps = true) : Within ps s (State.cancelWith t bt st) := by
  refine h.step (a := [.block 12, .block 13, .block 19, .block 20, .cmd, .ddp, .keys, .sig, .lfl, .map, .prg, .chan, .store, .out]) ?_ hp
  unfold State.cancelWith
  repeat' first
    | with_reducible exact Within.refl _ _
    | with_reducible assumption
    | (show Part.sub _ _ = true; rfl)
    | (extract_lets +onlyGivenNames x; with_reducible refine Within.cut (u := x) ?_ ?_; rotate_left; intro hx; clear_value x; rename' x => y; rotate_right; unfold x; clear x)
    | (extract_lets +onlyGivenNames x; clear_value x; rename' x => z)
    | (extract_lets +onlyGivenNames x; rename' x => z)
    | dsimp -zeta only
    | with_reducible apply State.modTag_frame
    | with_reducible apply State.giveUp_frame
    | with_reducible apply Within.ite
    | fail_if_no_progress (with_reducible refine Within.put (a := [.cmd]) ?_ rfl rfl rfl rfl rfl)
    | split

theorem State.leaveSets_frame {ps s t} bt (h : Within ps s t) (hp : Part.sub [.rep] ps = true) : Within ps s (State.leaveSets t bt) := by
  refine h.step (a := [.rep]) ?_ hp
  unfold State.leaveSets
  repeat' first
    | with_reducible exact Within.refl _ _
    | with_reducible assumption
    | (show Part.sub _ _ = true; rfl)
    | dsimp -zeta only
    | with_reducible apply Within.ite
    | fail_if_no_progress (with_reducible refine Within.put (a := [.rep]) ?_ rfl rfl rfl rfl rfl)
    | split

theorem State.resetTag_frame {ps s t} bt (h : Within ps s t) (hp : Part.sub [.block 4, .block 6, .block 10, .block 12, .block 13, .block 19, .block 20, .evt, .nor, .host, .ports, .trn, .cmd, .ddp, .keys, .sig, .lfl, .map, .rep, .prg, .chan, .store, .out, .hostWait] ps = true) : Within ps s (State.resetTag t bt) := by
  refine h.step (a := [.block 4, .block 6, .block 10, .block 12, .block 13, .block 19, .block 20, .evt, .nor, .host, .ports, .trn, .cmd, .ddp, .keys, .sig, .lfl, .map, .rep, .prg, .chan, .store, .out, .hostWait]) ?_ hp
  unfold State.resetTag
  repeat' first
    | with_reducible exact Within.refl _ _
    | with_reducible assumption
    | (show Part.sub _ _ = true; rfl)
    | (extract_lets +onlyGivenNames x; with_reducible refine Within.cut (u := x) ?_ ?_; rotate_left; intro hx; clear_value x; rename' x => y; rotate_right; unfold x; clear x)
    | (extract_lets +onlyGivenNames x; clear_value x; rename' x => z)
    | (extract_lets +onlyGivenNames x; rename' x => z)
    | dsimp -zeta only
    | with_reducible apply State.sendRing_frame
    | with_reducible apply State.modTag_frame
    | with_reducible apply State.finish_frame
    | with_reducible apply State.queueCompletion_frame
    | with_reducible apply State.freeTag_frame
    | with_reducible apply State.cancelWith_frame
    | with_reducible apply State.leaveSets_frame
    | with_reducible apply Within.ite
    | fail_if_no_progress (with_reducible refine Within.put (a := []) ?_ rfl rfl rfl rfl rfl)
    | split

theorem State.dropIntake_frame {ps s t} hit (h : Within ps s t) (hp : Part.sub [.cmd] ps = true) : Within ps s (State.dropIntake t hit) := by
  refine h.step (a := [.cmd]) ?_ hp
  unfold State.dropIntake
  repeat' first
    | with_reducible exact Within.refl _ _
    | with_reducible assumption
    | (show Part.sub _ _ = true; rfl)
    | dsimp -zeta only
    | with_reducible apply Within.ite
    | fail_if_no_progress (with_reducible refine Within.put (a := [.cmd]) ?_ rfl rfl rfl rfl rfl)
    | split

theorem State.close_frame {ps s t} q goal (h : Within ps s t) (hp : Part.sub [.block 11, .block 19, .power] ps = true) : Within ps s (State.close t q goal) := by
  refine h.step (a := [.block 11, .block 19, .power]) ?_ hp
  unfold State.close
  repeat' first
    | with_reducible exact Within.refl _ _
    | with_reducible assumption
    | (show Part.sub _ _ = true; rfl)
    | dsimp -zeta only
    | with_reducible apply State.setQuarter_frame
    | with_reducible apply State.unitsOut_frame
    | with_reducible apply Within.ite
    | fail_if_no_progress (with_reducible refine Within.put (a := []) ?_ rfl rfl rfl rfl rfl)
    | split

theorem State.ps3Close_frame {ps s t} q (h : Within ps s t) (hp : Part.sub [.block 11, .block 19, .power] ps = true) : Within ps s (State.ps3Close t q) := by
  refine h.step (a := [.block 11, .block 19, .power]) ?_ hp
  unfold State.ps3Close
  repeat' first
    | with_reducible exact Within.refl _ _
    | with_reducible assumption
    | (show Part.sub _ _ = true; rfl)
    | dsimp -zeta only
    | with_reducible apply State.close_frame
    | with_reducible apply Within.ite
    | split

theorem State.settlePs_frame {ps s t} waiter (h : Within ps s t) (hp : Part.sub [.block 1, .block 4, .block 5, .block 6, .block 10, .block 11, .block 19, .power, .test, .evt, .nor, .host, .cmd, .out, .hostWait] ps = true) : Within ps s (State.settlePs t waiter) := by
  refine h.step (a := [.block 1, .block 4, .block 5, .block 6, .block 10, .block 11, .block 19, .power, .test, .evt, .nor, .host, .cmd, .out, .hostWait]) ?_ hp
  unfold State.settlePs
  repeat' first
    | with_reducible exact Within.refl _ _
    | with_reducible assumption
    | (show Part.sub _ _ = true; rfl)
    | (extract_lets +onlyGivenNames x; with_reducible refine Within.cut (u := x) ?_ ?_; rotate_left; intro hx; clear_value x; rename' x => y; rotate_right; unfold x; clear x)
    | (extract_lets +onlyGivenNames x; clear_value x; rename' x => z)
    | (extract_lets +onlyGivenNames x; rename' x => z)
    | dsimp -zeta only
    | with_reducible apply State.wr_frame
    | with_reducible apply State.settleBudget_frame
    | with_reducible apply State.stopRotation_frame
    | with_reducible apply State.ps3Close_frame
    | with_reducible apply Within.ite
    | (with_reducible refine Within.foldl _ ?_ ?_; rotate_left; intro _ _)
    | (with_reducible refine Within.foldl_snd _ ?_ ?_; rotate_left; intro _ _)
    | fail_if_no_progress (with_reducible refine Within.put (a := [.power, .cmd]) ?_ rfl rfl rfl rfl rfl)
    | split

theorem State.resetController_frame {ps s t} ctrl keep (h : Within ps s t) (hp : Part.sub (.block 1 :: .block 4 :: .block 5 :: .block 6 :: .block 10 :: .block 11 :: .block 12 :: .block 13 :: .block 19 :: .block 20 :: .power :: .test :: .evt :: .nor :: .host :: .ports :: .trn :: .cmd :: .ddp :: .keys :: .sig :: .lfl :: .map :: .rep :: .prg :: .chan :: .store :: .out :: .hostWait :: []) ps = true) : Within ps s (State.resetController t ctrl keep) := by
  refine h.step (a := (.block 1 :: .block 4 :: .block 5 :: .block 6 :: .block 10 :: .block 11 :: .block 12 :: .block 13 :: .block 19 :: .block 20 :: .power :: .test :: .evt :: .nor :: .host :: .ports :: .trn :: .cmd :: .ddp :: .keys :: .sig :: .lfl :: .map :: .rep :: .prg :: .chan :: .store :: .out :: .hostWait :: [])) ?_ hp
  unfold State.resetController
  repeat' first
    | with_reducible exact Within.refl _ _
    | with_reducible assumption
    | (show Part.sub _ _ = true; rfl)
    | (extract_lets +onlyGivenNames x; with_reducible refine Within.cut (u := x) ?_ ?_; rotate_left; intro hx; clear_value x; rename' x => y; rotate_right; unfold x; clear x)
    | (extract_lets +onlyGivenNames x; clear_value x; rename' x => z)
    | (extract_lets +onlyGivenNames x; rename' x => z)
    | dsimp -zeta only
    | with_reducible apply State.noteTags_frame
    | with_reducible apply State.resetTag_frame
    | with_reducible apply State.dropIntake_frame
    | with_reducible apply State.settlePs_frame
    | with_reducible apply Within.ite
    | (with_reducible refine Within.foldl _ ?_ ?_; rotate_left; intro _ _)
    | (with_reducible refine Within.foldl_snd _ ?_ ?_; rotate_left; intro _ _)
    | fail_if_no_progress (with_reducible refine Within.put (a := [.cmd]) ?_ rfl rfl rfl rfl rfl)
    | split

theorem State.queueLost_frame {ps s t} qpn (h : Within ps s t) (hp : Part.sub (.block 1 :: .block 4 :: .block 5 :: .block 6 :: .block 10 :: .block 11 :: .block 12 :: .block 13 :: .block 19 :: .block 20 :: .power :: .test :: .evt :: .nor :: .host :: .ports :: .trn :: .cmd :: .ddp :: .keys :: .sig :: .lfl :: .map :: .rep :: .prg :: .chan :: .store :: .out :: .hostWait :: []) ps = true) : Within ps s (State.queueLost t qpn) := by
  refine h.step (a := (.block 1 :: .block 4 :: .block 5 :: .block 6 :: .block 10 :: .block 11 :: .block 12 :: .block 13 :: .block 19 :: .block 20 :: .power :: .test :: .evt :: .nor :: .host :: .ports :: .trn :: .cmd :: .ddp :: .keys :: .sig :: .lfl :: .map :: .rep :: .prg :: .chan :: .store :: .out :: .hostWait :: [])) ?_ hp
  unfold State.queueLost
  repeat' first
    | with_reducible exact Within.refl _ _
    | with_reducible assumption
    | (show Part.sub _ _ = true; rfl)
    | (extract_lets +onlyGivenNames x; with_reducible refine Within.cut (u := x) ?_ ?_; rotate_left; intro hx; clear_value x; rename' x => y; rotate_right; unfold x; clear x)
    | (extract_lets +onlyGivenNames x; clear_value x; rename' x => z)
    | (extract_lets +onlyGivenNames x; rename' x => z)
    | dsimp -zeta only
    | with_reducible apply State.noteTags_frame
    | with_reducible apply State.resetTag_frame
    | with_reducible apply State.dropIntake_frame
    | with_reducible apply State.resetController_frame
    | with_reducible apply Within.ite
    | (with_reducible refine Within.foldl _ ?_ ?_; rotate_left; intro _ _)
    | (with_reducible refine Within.foldl_snd _ ?_ ?_; rotate_left; intro _ _)
    | fail_if_no_progress (with_reducible refine Within.put (a := []) ?_ rfl rfl rfl rfl rfl)
    | split

theorem State.begin_frame {ps s t} n op run (h : Within ps s t) (hp : Part.sub [.cmd] ps = true)
    (hr : ∀ c u, Within ps u (run c u)) : Within ps s (State.begin t n op run) := by
  unfold State.begin
  split
  · exact h
  · exact (State.setTag_frame n _ h hp).trans (hr _ _)

end Sys2Proof.Machine
end

