-- ==== Sys2Proof/Laws/FrameNetCore.lean ====
section
/-!
SUPPORT. Laws/FrameNetCore.lean: what the definitions of Machine/NetCore.lean leave alone: each changes the listed parts at most, and keeps the
canonical form.
-/
namespace Sys2Proof.Machine
open Sys2Proof

set_option Elab.async false
set_option linter.all false

theorem State.dropPacket_frame {ps s t} k (h : Within ps s t) (hp : Part.sub [.block 9] ps = true) : Within ps s (State.dropPacket t k) := by
  refine h.step (a := [.block 9]) ?_ hp
  unfold State.dropPacket
  repeat' first
    | with_reducible exact Within.refl _ _
    | with_reducible assumption
    | (show Part.sub _ _ = true; rfl)
    | dsimp -zeta only
    | with_reducible apply State.bump_frame
    | with_reducible apply Within.ite
    | split

theorem State.touchQp_frame {ps s t} q (h : Within ps s t) (hp : Part.sub [.trn] ps = true) : Within ps s (State.touchQp t q) := by
  refine h.step (a := [.trn]) ?_ hp
  unfold State.touchQp
  repeat' first
    | with_reducible exact Within.refl _ _
    | with_reducible assumption
    | (show Part.sub _ _ = true; rfl)
    | (extract_lets +onlyGivenNames x; with_reducible refine Within.cut (u := x) ?_ ?_; rotate_left; intro hx; clear_value x; rename' x => y; rotate_right; unfold x; clear x)
    | (extract_lets +onlyGivenNames x; clear_value x; rename' x => z)
    | (extract_lets +onlyGivenNames x; rename' x => z)
    | dsimp -zeta only
    | with_reducible apply Within.ite
    | fail_if_no_progress (with_reducible refine Within.put (a := [.trn]) ?_ rfl rfl rfl rfl rfl)
    | split

theorem State.evict_frame {ps s t} q (h : Within ps s t) (hp : Part.sub [.trn] ps = true) : Within ps s (State.evict t q) := by
  refine h.step (a := [.trn]) ?_ hp
  unfold State.evict
  repeat' first
    | with_reducible exact Within.refl _ _
    | with_reducible assumption
    | (show Part.sub _ _ = true; rfl)
    | dsimp -zeta only
    | with_reducible apply Within.ite
    | fail_if_no_progress (with_reducible refine Within.put (a := [.trn]) ?_ rfl rfl rfl rfl rfl)
    | split

theorem State.issueFetch_frame {ps s t} q (h : Within ps s t) (hp : Part.sub [.block 9, .trn] ps = true) : Within ps s (State.issueFetch t q) := by
  refine h.step (a := [.block 9, .trn]) ?_ hp
  unfold State.issueFetch
  repeat' first
    | with_reducible exact Within.refl _ _
    | with_reducible assumption
    | (show Part.sub _ _ = true; rfl)
    | dsimp -zeta only
    | with_reducible apply State.bump_frame
    | with_reducible apply Within.ite
    | fail_if_no_progress (with_reducible refine Within.put (a := [.trn]) ?_ rfl rfl rfl rfl rfl)
    | split

theorem State.startFetch_frame {ps s t} q (h : Within ps s t) (hp : Part.sub [.block 9, .trn] ps = true) : Within ps s (State.startFetch t q) := by
  refine h.step (a := [.block 9, .trn]) ?_ hp
  unfold State.startFetch
  repeat' first
    | with_reducible exact Within.refl _ _
    | with_reducible assumption
    | (show Part.sub _ _ = true; rfl)
    | dsimp -zeta only
    | with_reducible apply State.evict_frame
    | with_reducible apply State.issueFetch_frame
    | with_reducible apply Within.ite
    | fail_if_no_progress (with_reducible refine Within.put (a := [.trn]) ?_ rfl rfl rfl rfl rfl)
    | split

theorem State.laybyJoin_frame {ps s t} p (h : Within ps s t) (hp : Part.sub [.block 9, .trn, .out] ps = true) : Within ps s (State.laybyJoin t p) := by
  refine h.step (a := [.block 9, .trn, .out]) ?_ hp
  unfold State.laybyJoin
  repeat' first
    | with_reducible exact Within.refl _ _
    | with_reducible assumption
    | (show Part.sub _ _ = true; rfl)
    | (extract_lets +onlyGivenNames x; with_reducible refine Within.cut (u := x) ?_ ?_; rotate_left; intro hx; clear_value x; rename' x => y; rotate_right; unfold x; clear x)
    | (extract_lets +onlyGivenNames x; clear_value x; rename' x => z)
    | (extract_lets +onlyGivenNames x; rename' x => z)
    | dsimp -zeta only
    | with_reducible apply State.noteLayby_frame
    | with_reducible apply State.dropPacket_frame
    | with_reducible apply Within.ite
    | fail_if_no_progress (with_reducible refine Within.put (a := [.trn]) ?_ rfl rfl rfl rfl rfl)
    | split

theorem State.place_frame {ps s t} n key addr bytes (h : Within ps s t) (hp : Part.sub [.trn, .mem] ps = true) : Within ps s (State.place t n key addr bytes) := by
  refine h.step (a := [.trn, .mem]) ?_ hp
  unfold State.place
  repeat' first
    | with_reducible exact Within.refl _ _
    | with_reducible assumption
    | (show Part.sub _ _ = true; rfl)
    | (extract_lets +onlyGivenNames x; with_reducible refine Within.cut (u := x) ?_ ?_; rotate_left; intro hx; clear_value x; rename' x => y; rotate_right; unfold x; clear x)
    | (extract_lets +onlyGivenNames x; clear_value x; rename' x => z)
    | (extract_lets +onlyGivenNames x; rename' x => z)
    | dsimp -zeta only
    | with_reducible apply State.ddrWriteList_frame
    | with_reducible apply State.setQp_frame
    | with_reducible apply Within.ite
    | fail_if_no_progress (with_reducible refine Within.put (a := []) ?_ rfl rfl rfl rfl rfl)
    | split

theorem State.placeAll_frame {ps s t} n which (h : Within ps s t) (hp : Part.sub [.trn, .mem] ps = true) : Within ps s (State.placeAll t n which) := by
  refine h.step (a := [.trn, .mem]) ?_ hp
  unfold State.placeAll
  repeat' first
    | with_reducible exact Within.refl _ _
    | with_reducible assumption
    | (show Part.sub _ _ = true; rfl)
    | (extract_lets +onlyGivenNames x; with_reducible refine Within.cut (u := x) ?_ ?_; rotate_left; intro hx; clear_value x; rename' x => y; rotate_right; unfold x; clear x)
    | (extract_lets +onlyGivenNames x; clear_value x; rename' x => z)
    | (extract_lets +onlyGivenNames x; rename' x => z)
    | dsimp -zeta only
    | with_reducible apply State.ddrWriteList_frame
    | with_reducible apply State.setQp_frame
    | with_reducible apply Within.ite
    | (with_reducible refine Within.foldl _ ?_ ?_; rotate_left; intro _ _)
    | (with_reducible refine Within.foldl_snd _ ?_ ?_; rotate_left; intro _ _)
    | fail_if_no_progress (with_reducible refine Within.put (a := []) ?_ rfl rfl rfl rfl rfl)
    | split

theorem State.invalidate_frame {ps s t} region (h : Within ps s t) (hp : Part.sub [.trn] ps = true) : Within ps s (State.invalidate t region) := by
  refine h.step (a := [.trn]) ?_ hp
  unfold State.invalidate
  repeat' first
    | with_reducible exact Within.refl _ _
    | with_reducible assumption
    | (show Part.sub _ _ = true; rfl)
    | dsimp -zeta only
    | with_reducible apply Within.ite
    | fail_if_no_progress (with_reducible refine Within.put (a := [.trn]) ?_ rfl rfl rfl rfl rfl)
    | split

theorem State.endInvalidation_frame {ps s t} region (h : Within ps s t) (hp : Part.sub [.host, .trn, .out, .hostWait] ps = true) : Within ps s (State.endInvalidation t region) := by
  refine h.step (a := [.host, .trn, .out, .hostWait]) ?_ hp
  unfold State.endInvalidation
  repeat' first
    | with_reducible exact Within.refl _ _
    | with_reducible assumption
    | (show Part.sub _ _ = true; rfl)
    | (extract_lets +onlyGivenNames x; with_reducible refine Within.cut (u := x) ?_ ?_; rotate_left; intro hx; clear_value x; rename' x => y; rotate_right; unfold x; clear x)
    | (extract_lets +onlyGivenNames x; clear_value x; rename' x => z)
    | (extract_lets +onlyGivenNames x; rename' x => z)
    | dsimp -zeta only
    | with_reducible apply State.complete_frame
    | with_reducible apply Within.ite
    | (with_reducible refine Within.foldl _ ?_ ?_; rotate_left; intro _ _)
    | (with_reducible refine Within.foldl_snd _ ?_ ?_; rotate_left; intro _ _)
    | fail_if_no_progress (with_reducible refine Within.put (a := [.trn]) ?_ rfl rfl rfl rfl rfl)
    | split

theorem State.sendWork_frame {ps s t} w (h : Within ps s t) (hp : Part.sub [.ports, .trn, .out] ps = true) : Within ps s (State.sendWork t w) := by
  refine h.step (a := [.ports, .trn, .out]) ?_ hp
  unfold State.sendWork
  repeat' first
    | with_reducible exact Within.refl _ _
    | with_reducible assumption
    | (show Part.sub _ _ = true; rfl)
    | (extract_lets +onlyGivenNames x; with_reducible refine Within.cut (u := x) ?_ ?_; rotate_left; intro hx; clear_value x; rename' x => y; rotate_right; unfold x; clear x)
    | (extract_lets +onlyGivenNames x; clear_value x; rename' x => z)
    | (extract_lets +onlyGivenNames x; rename' x => z)
    | dsimp -zeta only
    | with_reducible apply State.setQp_frame
    | with_reducible apply State.transmit_frame
    | with_reducible apply State.issueRead_frame
    | with_reducible apply Within.ite
    | (with_reducible refine Within.foldl _ ?_ ?_; rotate_left; intro _ _)
    | (with_reducible refine Within.foldl_snd _ ?_ ?_; rotate_left; intro _ _)
    | fail_if_no_progress (with_reducible refine Within.put (a := []) ?_ rfl rfl rfl rfl rfl)
    | split

theorem State.popRead_frame {ps s t} n (h : Within ps s t) (hp : Part.sub [.ports, .trn, .out] ps = true) : Within ps s (State.popRead t n) := by
  refine h.step (a := [.ports, .trn, .out]) ?_ hp
  unfold State.popRead
  repeat' first
    | with_reducible exact Within.refl _ _
    | with_reducible assumption
    | (show Part.sub _ _ = true; rfl)
    | (extract_lets +onlyGivenNames x; with_reducible refine Within.cut (u := x) ?_ ?_; rotate_left; intro hx; clear_value x; rename' x => y; rotate_right; unfold x; clear x)
    | (extract_lets +onlyGivenNames x; clear_value x; rename' x => z)
    | (extract_lets +onlyGivenNames x; rename' x => z)
    | dsimp -zeta only
    | with_reducible apply State.setQp_frame
    | with_reducible apply State.issueReads_frame
    | with_reducible apply Within.ite
    | fail_if_no_progress (with_reducible refine Within.put (a := []) ?_ rfl rfl rfl rfl rfl)
    | split

theorem State.postWork_frame {ps s t} w (h : Within ps s t) (hp : Part.sub [.ports, .trn, .out] ps = true) : Within ps s (State.postWork t w) := by
  refine h.step (a := [.ports, .trn, .out]) ?_ hp
  unfold State.postWork
  repeat' first
    | with_reducible exact Within.refl _ _
    | with_reducible assumption
    | (show Part.sub _ _ = true; rfl)
    | dsimp -zeta only
    | with_reducible apply State.setQp_frame
    | with_reducible apply State.sendWork_frame
    | with_reducible apply Within.ite
    | fail_if_no_progress (with_reducible refine Within.put (a := []) ?_ rfl rfl rfl rfl rfl)
    | split

theorem State.endWork_frame {ps s t} w status (h : Within ps s t) (hp : Part.sub [.host, .out, .hostWait] ps = true) : Within ps s (State.endWork t w status) := by
  refine h.step (a := [.host, .out, .hostWait]) ?_ hp
  unfold State.endWork
  repeat' first
    | with_reducible exact Within.refl _ _
    | with_reducible assumption
    | (show Part.sub _ _ = true; rfl)
    | dsimp -zeta only
    | with_reducible apply State.complete_frame
    | with_reducible apply Within.ite
    | fail_if_no_progress (with_reducible refine Within.put (a := []) ?_ rfl rfl rfl rfl rfl)
    | split

theorem State.flushWork_frame {ps s t} n (h : Within ps s t) (hp : Part.sub [.host, .ports, .trn, .out, .hostWait] ps = true) : Within ps s (State.flushWork t n) := by
  refine h.step (a := [.host, .ports, .trn, .out, .hostWait]) ?_ hp
  unfold State.flushWork
  repeat' first
    | with_reducible exact Within.refl _ _
    | with_reducible assumption
    | (show Part.sub _ _ = true; rfl)
    | (extract_lets +onlyGivenNames x; with_reducible refine Within.cut (u := x) ?_ ?_; rotate_left; intro hx; clear_value x; rename' x => y; rotate_right; unfold x; clear x)
    | (extract_lets +onlyGivenNames x; clear_value x; rename' x => z)
    | (extract_lets +onlyGivenNames x; rename' x => z)
    | dsimp -zeta only
    | with_reducible apply State.setQp_frame
    | with_reducible apply State.issueReads_frame
    | with_reducible apply State.endWork_frame
    | with_reducible apply Within.ite
    | (with_reducible refine Within.foldl _ ?_ ?_; rotate_left; intro _ _)
    | (with_reducible refine Within.foldl_snd _ ?_ ?_; rotate_left; intro _ _)
    | fail_if_no_progress (with_reducible refine Within.put (a := []) ?_ rfl rfl rfl rfl rfl)
    | split

theorem State.qpError_frame {ps s t} n reason (h : Within ps s t) (hp : Part.sub (.block 1 :: .block 4 :: .block 5 :: .block 6 :: .block 10 :: .block 11 :: .block 12 :: .block 13 :: .block 19 :: .block 20 :: .power :: .test :: .evt :: .nor :: .host :: .ports :: .trn :: .cmd :: .ddp :: .keys :: .sig :: .lfl :: .map :: .rep :: .prg :: .chan :: .store :: .free :: .out :: .hostWait :: []) ps = true) : Within ps s (State.qpError t n reason) := by
  refine h.step (a := (.block 1 :: .block 4 :: .block 5 :: .block 6 :: .block 10 :: .block 11 :: .block 12 :: .block 13 :: .block 19 :: .block 20 :: .power :: .test :: .evt :: .nor :: .host :: .ports :: .trn :: .cmd :: .ddp :: .keys :: .sig :: .lfl :: .map :: .rep :: .prg :: .chan :: .store :: .free :: .out :: .hostWait :: [])) ?_ hp
  unfold State.qpError
  repeat' first
    | with_reducible exact Within.refl _ _
    | with_reducible assumption
    | (show Part.sub _ _ = true; rfl)
    | (extract_lets +onlyGivenNames x; with_reducible refine Within.cut (u := x) ?_ ?_; rotate_left; intro hx; clear_value x; rename' x => y; rotate_right; unfold x; clear x)
    | (extract_lets +onlyGivenNames x; clear_value x; rename' x => z)
    | (extract_lets +onlyGivenNames x; rename' x => z)
    | dsimp -zeta only
    | with_reducible apply State.fresh_frame
    | with_reducible apply State.postObject_frame
    | with_reducible apply State.setQp_frame
    | with_reducible apply State.queueLost_frame
    | with_reducible apply State.flushWork_frame
    | with_reducible apply Within.ite
    | fail_if_no_progress (with_reducible refine Within.put (a := []) ?_ rfl rfl rfl rfl rfl)
    | split
    | (with_reducible refine Within.of_pair (by assumption) ?_)

theorem State.fireWork_frame {ps s t} w (h : Within ps s t) (hp : Part.sub [.host, .ports, .trn, .out, .hostWait] ps = true) : Within ps s (State.fireWork t w) := by
  refine h.step (a := [.host, .ports, .trn, .out, .hostWait]) ?_ hp
  unfold State.fireWork
  repeat' first
    | with_reducible exact Within.refl _ _
    | with_reducible assumption
    | (show Part.sub _ _ = true; rfl)
    | dsimp -zeta only
    | with_reducible apply State.postWork_frame
    | with_reducible apply State.endWork_frame
    | with_reducible apply Within.ite
    | split

theorem State.trigger_frame {ps s t} n imm (h : Within ps s t) (hp : Part.sub [.host, .ports, .trn, .out, .hostWait] ps = true) : Within ps s (State.trigger t n imm).2 := by
  refine h.step (a := [.host, .ports, .trn, .out, .hostWait]) ?_ hp
  unfold State.trigger
  repeat' first
    | with_reducible exact Within.refl _ _
    | with_reducible assumption
    | (show Part.sub _ _ = true; rfl)
    | (extract_lets +onlyGivenNames x; with_reducible refine Within.cut (u := x) ?_ ?_; rotate_left; intro hx; clear_value x; rename' x => y; rotate_right; unfold x; clear x)
    | (extract_lets +onlyGivenNames x; clear_value x; rename' x => z)
    | (extract_lets +onlyGivenNames x; rename' x => z)
    | dsimp -zeta only
    | with_reducible apply State.setQp_frame
    | with_reducible apply State.fireWork_frame
    | with_reducible apply Within.ite
    | fail_if_no_progress (with_reducible refine Within.put (a := []) ?_ rfl rfl rfl rfl rfl)
    | split

theorem State.processFinal_frame {ps s t} n x2 (h : Within ps s t) (hp : Part.sub [.host, .ports, .trn, .out, .hostWait] ps = true) : Within ps s (State.processFinal t n x2) := by
  refine h.step (a := [.host, .ports, .trn, .out, .hostWait]) ?_ hp
  unfold State.processFinal
  repeat' first
    | with_reducible exact Within.refl _ _
    | with_reducible assumption
    | (show Part.sub _ _ = true; rfl)
    | (extract_lets +onlyGivenNames x; with_reducible refine Within.cut (u := x) ?_ ?_; rotate_left; intro hx; clear_value x; rename' x => y; rotate_right; unfold x; clear x)
    | (extract_lets +onlyGivenNames x; clear_value x; rename' x => z)
    | (extract_lets +onlyGivenNames x; rename' x => z)
    | dsimp -zeta only
    | with_reducible apply State.send_frame
    | with_reducible apply State.sendPacket_frame
    | with_reducible apply State.trigger_frame
    | with_reducible apply Within.ite
    | split
    | (with_reducible refine Within.of_pair (by assumption) ?_)

theorem State.finalFlag_frame {ps s t} n m (h : Within ps s t) (hp : Part.sub [.host, .ports, .trn, .out, .hostWait] ps = true) : Within ps s (State.finalFlag t n m) := by
  refine h.step (a := [.host, .ports, .trn, .out, .hostWait]) ?_ hp
  unfold State.finalFlag
  repeat' first
    | with_reducible exact Within.refl _ _
    | with_reducible assumption
    | (show Part.sub _ _ = true; rfl)
    | (extract_lets +onlyGivenNames x; with_reducible refine Within.cut (u := x) ?_ ?_; rotate_left; intro hx; clear_value x; rename' x => y; rotate_right; unfold x; clear x)
    | (extract_lets +onlyGivenNames x; clear_value x; rename' x => z)
    | (extract_lets +onlyGivenNames x; rename' x => z)
    | dsimp -zeta only
    | with_reducible apply State.setQp_frame
    | with_reducible apply State.processFinal_frame
    | with_reducible apply Within.ite
    | fail_if_no_progress (with_reducible refine Within.put (a := []) ?_ rfl rfl rfl rfl rfl)
    | split

theorem State.nak_frame {ps s t} n o (h : Within ps s t) (hp : Part.sub [.ports, .trn, .out] ps = true) : Within ps s (State.nak t n o) := by
  refine h.step (a := [.ports, .trn, .out]) ?_ hp
  unfold State.nak
  repeat' first
    | with_reducible exact Within.refl _ _
    | with_reducible assumption
    | (show Part.sub _ _ = true; rfl)
    | dsimp -zeta only
    | with_reducible apply State.setQp_frame
    | with_reducible apply State.sendPacket_frame
    | with_reducible apply Within.ite
    | fail_if_no_progress (with_reducible refine Within.put (a := []) ?_ rfl rfl rfl rfl rfl)
    | split

theorem State.nakInvalid_frame {ps s t} p reason (h : Within ps s t) (hp : Part.sub (.block 1 :: .block 4 :: .block 5 :: .block 6 :: .block 10 :: .block 11 :: .block 12 :: .block 13 :: .block 19 :: .block 20 :: .power :: .test :: .evt :: .nor :: .host :: .ports :: .trn :: .cmd :: .ddp :: .keys :: .sig :: .lfl :: .map :: .rep :: .prg :: .chan :: .store :: .free :: .out :: .hostWait :: []) ps = true) : Within ps s (State.nakInvalid t p reason) := by
  refine h.step (a := (.block 1 :: .block 4 :: .block 5 :: .block 6 :: .block 10 :: .block 11 :: .block 12 :: .block 13 :: .block 19 :: .block 20 :: .power :: .test :: .evt :: .nor :: .host :: .ports :: .trn :: .cmd :: .ddp :: .keys :: .sig :: .lfl :: .map :: .rep :: .prg :: .chan :: .store :: .free :: .out :: .hostWait :: [])) ?_ hp
  unfold State.nakInvalid
  repeat' first
    | with_reducible exact Within.refl _ _
    | with_reducible assumption
    | (show Part.sub _ _ = true; rfl)
    | dsimp -zeta only
    | with_reducible apply State.qpError_frame
    | with_reducible apply State.nak_frame
    | with_reducible apply Within.ite
    | split

theorem State.nakAccess_frame {ps s t} p (h : Within ps s t) (hp : Part.sub (.block 1 :: .block 4 :: .block 5 :: .block 6 :: .block 10 :: .block 11 :: .block 12 :: .block 13 :: .block 19 :: .block 20 :: .power :: .test :: .evt :: .nor :: .host :: .ports :: .trn :: .cmd :: .ddp :: .keys :: .sig :: .lfl :: .map :: .rep :: .prg :: .chan :: .store :: .free :: .out :: .hostWait :: []) ps = true) : Within ps s (State.nakAccess t p) := by
  refine h.step (a := (.block 1 :: .block 4 :: .block 5 :: .block 6 :: .block 10 :: .block 11 :: .block 12 :: .block 13 :: .block 19 :: .block 20 :: .power :: .test :: .evt :: .nor :: .host :: .ports :: .trn :: .cmd :: .ddp :: .keys :: .sig :: .lfl :: .map :: .rep :: .prg :: .chan :: .store :: .free :: .out :: .hostWait :: [])) ?_ hp
  unfold State.nakAccess
  repeat' first
    | with_reducible exact Within.refl _ _
    | with_reducible assumption
    | (show Part.sub _ _ = true; rfl)
    | dsimp -zeta only
    | with_reducible apply State.qpError_frame
    | with_reducible apply State.nak_frame
    | with_reducible apply Within.ite
    | split

theorem State.inOrder_frame {ps s t} p run (h : Within ps s t) (hp : Part.sub [.ports, .trn, .out] ps = true)
    (hr : ∀ q, Within ps t (run q)) : Within ps s (State.inOrder t p run) := by
  unfold State.inOrder
  dsimp only
  repeat' (with_reducible apply Within.ite)
  · exact h.trans (hr _)
  · exact State.sendPacket_frame _ _ h (Part.sub_trans (by decide) hp)
  · exact State.nak_frame _ _ h (Part.sub_trans (by decide) hp)

theorem State.takePacket_frame {ps s t} p q n last (h : Within ps s t) (hp : Part.sub [.ports, .trn, .out] ps = true) : Within ps s (State.takePacket t p q n last) := by
  refine h.step (a := [.ports, .trn, .out]) ?_ hp
  unfold State.takePacket
  repeat' first
    | with_reducible exact Within.refl _ _
    | with_reducible assumption
    | (show Part.sub _ _ = true; rfl)
    | (extract_lets +onlyGivenNames x; with_reducible refine Within.cut (u := x) ?_ ?_; rotate_left; intro hx; clear_value x; rename' x => y; rotate_right; unfold x; clear x)
    | (extract_lets +onlyGivenNames x; clear_value x; rename' x => z)
    | (extract_lets +onlyGivenNames x; rename' x => z)
    | dsimp -zeta only
    | with_reducible apply State.setQp_frame
    | with_reducible apply State.sendPacket_frame
    | with_reducible apply Within.ite
    | fail_if_no_progress (with_reducible refine Within.put (a := []) ?_ rfl rfl rfl rfl rfl)
    | split

theorem State.recvSend_frame {ps s t} p (h : Within ps s t) (hp : Part.sub (.block 1 :: .block 4 :: .block 5 :: .block 6 :: .block 10 :: .block 11 :: .block 12 :: .block 13 :: .block 19 :: .block 20 :: .power :: .test :: .evt :: .nor :: .host :: .ports :: .trn :: .cmd :: .ddp :: .keys :: .sig :: .lfl :: .map :: .rep :: .prg :: .chan :: .store :: .free :: .out :: .hostWait :: []) ps = true) : Within ps s (State.recvSend t p) := by
  refine h.step (a := (.block 1 :: .block 4 :: .block 5 :: .block 6 :: .block 10 :: .block 11 :: .block 12 :: .block 13 :: .block 19 :: .block 20 :: .power :: .test :: .evt :: .nor :: .host :: .ports :: .trn :: .cmd :: .ddp :: .keys :: .sig :: .lfl :: .map :: .rep :: .prg :: .chan :: .store :: .free :: .out :: .hostWait :: [])) ?_ hp
  unfold State.recvSend
  repeat' first
    | with_reducible exact Within.refl _ _
    | with_reducible assumption
    | (show Part.sub _ _ = true; rfl)
    | (extract_lets +onlyGivenNames x; with_reducible refine Within.cut (u := x) ?_ ?_; rotate_left; intro hx; clear_value x; rename' x => y; rotate_right; unfold x; clear x)
    | (extract_lets +onlyGivenNames x; clear_value x; rename' x => z)
    | (extract_lets +onlyGivenNames x; rename' x => z)
    | dsimp -zeta only
    | with_reducible apply State.bump_frame
    | with_reducible apply State.setQp_frame
    | with_reducible apply State.finalFlag_frame
    | with_reducible apply State.nak_frame
    | with_reducible apply State.nakInvalid_frame
    | with_reducible apply State.inOrder_frame
    | with_reducible apply State.takePacket_frame
    | intro _
    | with_reducible apply Within.ite
    | fail_if_no_progress (with_reducible refine Within.put (a := []) ?_ rfl rfl rfl rfl rfl)
    | split

theorem State.recvWrite_frame {ps s t} p (h : Within ps s t) (hp : Part.sub (.block 1 :: .block 4 :: .block 5 :: .block 6 :: .block 10 :: .block 11 :: .block 12 :: .block 13 :: .block 19 :: .block 20 :: .power :: .test :: .evt :: .nor :: .host :: .ports :: .trn :: .cmd :: .ddp :: .keys :: .sig :: .lfl :: .map :: .rep :: .prg :: .chan :: .store :: .mem :: .free :: .out :: .hostWait :: []) ps = true) : Within ps s (State.recvWrite t p) := by
  refine h.step (a := (.block 1 :: .block 4 :: .block 5 :: .block 6 :: .block 10 :: .block 11 :: .block 12 :: .block 13 :: .block 19 :: .block 20 :: .power :: .test :: .evt :: .nor :: .host :: .ports :: .trn :: .cmd :: .ddp :: .keys :: .sig :: .lfl :: .map :: .rep :: .prg :: .chan :: .store :: .mem :: .free :: .out :: .hostWait :: [])) ?_ hp
  unfold State.recvWrite
  repeat' first
    | with_reducible exact Within.refl _ _
    | with_reducible assumption
    | (show Part.sub _ _ = true; rfl)
    | (extract_lets +onlyGivenNames x; with_reducible refine Within.cut (u := x) ?_ ?_; rotate_left; intro hx; clear_value x; rename' x => y; rotate_right; unfold x; clear x)
    | (extract_lets +onlyGivenNames x; clear_value x; rename' x => z)
    | (extract_lets +onlyGivenNames x; rename' x => z)
    | dsimp -zeta only
    | with_reducible apply State.setQp_frame
    | with_reducible apply State.place_frame
    | with_reducible apply State.finalFlag_frame
    | with_reducible apply State.nakInvalid_frame
    | with_reducible apply State.nakAccess_frame
    | with_reducible apply State.inOrder_frame
    | with_reducible apply State.takePacket_frame
    | intro _
    | with_reducible apply Within.ite
    | fail_if_no_progress (with_reducible refine Within.put (a := []) ?_ rfl rfl rfl rfl rfl)
    | split

theorem State.recvReadRequest_frame {ps s t} p (h : Within ps s t) (hp : Part.sub (.block 1 :: .block 4 :: .block 5 :: .block 6 :: .block 10 :: .block 11 :: .block 12 :: .block 13 :: .block 19 :: .block 20 :: .power :: .test :: .evt :: .nor :: .host :: .ports :: .trn :: .cmd :: .ddp :: .keys :: .sig :: .lfl :: .map :: .rep :: .prg :: .chan :: .store :: .free :: .out :: .hostWait :: []) ps = true) : Within ps s (State.recvReadRequest t p) := by
  refine h.step (a := (.block 1 :: .block 4 :: .block 5 :: .block 6 :: .block 10 :: .block 11 :: .block 12 :: .block 13 :: .block 19 :: .block 20 :: .power :: .test :: .evt :: .nor :: .host :: .ports :: .trn :: .cmd :: .ddp :: .keys :: .sig :: .lfl :: .map :: .rep :: .prg :: .chan :: .store :: .free :: .out :: .hostWait :: [])) ?_ hp
  unfold State.recvReadRequest
  repeat' first
    | with_reducible exact Within.refl _ _
    | with_reducible assumption
    | (show Part.sub _ _ = true; rfl)
    | (extract_lets +onlyGivenNames x; with_reducible refine Within.cut (u := x) ?_ ?_; rotate_left; intro hx; clear_value x; rename' x => y; rotate_right; unfold x; clear x)
    | (extract_lets +onlyGivenNames x; clear_value x; rename' x => z)
    | (extract_lets +onlyGivenNames x; rename' x => z)
    | dsimp -zeta only
    | with_reducible apply State.setQp_frame
    | with_reducible apply State.finalFlag_frame
    | with_reducible apply State.nakInvalid_frame
    | with_reducible apply State.nakAccess_frame
    | with_reducible apply State.inOrder_frame
    | with_reducible apply State.takePacket_frame
    | intro _
    | with_reducible apply Within.ite
    | fail_if_no_progress (with_reducible refine Within.put (a := []) ?_ rfl rfl rfl rfl rfl)
    | split

theorem State.ackUpTo_frame {ps s t} n psn (h : Within ps s t) (hp : Part.sub [.host, .trn, .out, .hostWait] ps = true) : Within ps s (State.ackUpTo t n psn) := by
  refine h.step (a := [.host, .trn, .out, .hostWait]) ?_ hp
  unfold State.ackUpTo
  repeat' first
    | with_reducible exact Within.refl _ _
    | with_reducible assumption
    | (show Part.sub _ _ = true; rfl)
    | (extract_lets +onlyGivenNames x; with_reducible refine Within.cut (u := x) ?_ ?_; rotate_left; intro hx; clear_value x; rename' x => y; rotate_right; unfold x; clear x)
    | (extract_lets +onlyGivenNames x; clear_value x; rename' x => z)
    | (extract_lets +onlyGivenNames x; rename' x => z)
    | dsimp -zeta only
    | with_reducible apply State.setQp_frame
    | with_reducible apply State.endWork_frame
    | with_reducible apply Within.ite
    | (with_reducible refine Within.foldl _ ?_ ?_; rotate_left; intro _ _)
    | (with_reducible refine Within.foldl_snd _ ?_ ?_; rotate_left; intro _ _)
    | fail_if_no_progress (with_reducible refine Within.put (a := []) ?_ rfl rfl rfl rfl rfl)
    | split

theorem State.retry_frame {ps s t} n (h : Within ps s t) (hp : Part.sub (.block 1 :: .block 4 :: .block 5 :: .block 6 :: .block 10 :: .block 11 :: .block 12 :: .block 13 :: .block 19 :: .block 20 :: .power :: .test :: .evt :: .nor :: .host :: .ports :: .trn :: .cmd :: .ddp :: .keys :: .sig :: .lfl :: .map :: .rep :: .prg :: .chan :: .store :: .free :: .out :: .hostWait :: []) ps = true) : Within ps s (State.retry t n) := by
  refine h.step (a := (.block 1 :: .block 4 :: .block 5 :: .block 6 :: .block 10 :: .block 11 :: .block 12 :: .block 13 :: .block 19 :: .block 20 :: .power :: .test :: .evt :: .nor :: .host :: .ports :: .trn :: .cmd :: .ddp :: .keys :: .sig :: .lfl :: .map :: .rep :: .prg :: .chan :: .store :: .free :: .out :: .hostWait :: [])) ?_ hp
  unfold State.retry
  repeat' first
    | with_reducible exact Within.refl _ _
    | with_reducible assumption
    | (show Part.sub _ _ = true; rfl)
    | (extract_lets +onlyGivenNames x; with_reducible refine Within.cut (u := x) ?_ ?_; rotate_left; intro hx; clear_value x; rename' x => y; rotate_right; unfold x; clear x)
    | (extract_lets +onlyGivenNames x; clear_value x; rename' x => z)
    | (extract_lets +onlyGivenNames x; rename' x => z)
    | dsimp -zeta only
    | with_reducible apply State.setQp_frame
    | with_reducible apply State.sendPacket_frame
    | with_reducible apply State.qpError_frame
    | with_reducible apply Within.ite
    | fail_if_no_progress (with_reducible refine Within.put (a := []) ?_ rfl rfl rfl rfl rfl)
    | split

theorem State.recvAck_frame {ps s t} p (h : Within ps s t) (hp : Part.sub (.block 1 :: .block 4 :: .block 5 :: .block 6 :: .block 10 :: .block 11 :: .block 12 :: .block 13 :: .block 19 :: .block 20 :: .power :: .test :: .evt :: .nor :: .host :: .ports :: .trn :: .cmd :: .ddp :: .keys :: .sig :: .lfl :: .map :: .rep :: .prg :: .chan :: .store :: .free :: .out :: .hostWait :: []) ps = true) : Within ps s (State.recvAck t p) := by
  refine h.step (a := (.block 1 :: .block 4 :: .block 5 :: .block 6 :: .block 10 :: .block 11 :: .block 12 :: .block 13 :: .block 19 :: .block 20 :: .power :: .test :: .evt :: .nor :: .host :: .ports :: .trn :: .cmd :: .ddp :: .keys :: .sig :: .lfl :: .map :: .rep :: .prg :: .chan :: .store :: .free :: .out :: .hostWait :: [])) ?_ hp
  unfold State.recvAck
  repeat' first
    | with_reducible exact Within.refl _ _
    | with_reducible assumption
    | (show Part.sub _ _ = true; rfl)
    | (extract_lets +onlyGivenNames x; with_reducible refine Within.cut (u := x) ?_ ?_; rotate_left; intro hx; clear_value x; rename' x => y; rotate_right; unfold x; clear x)
    | (extract_lets +onlyGivenNames x; clear_value x; rename' x => z)
    | (extract_lets +onlyGivenNames x; rename' x => z)
    | dsimp -zeta only
    | with_reducible apply State.setQp_frame
    | with_reducible apply State.qpError_frame
    | with_reducible apply State.ackUpTo_frame
    | with_reducible apply State.retry_frame
    | with_reducible apply Within.ite
    | fail_if_no_progress (with_reducible refine Within.put (a := []) ?_ rfl rfl rfl rfl rfl)
    | split

theorem State.markCe_frame {ps s t} p (h : Within ps s t) (hp : Part.sub [.ports, .trn, .out] ps = true) : Within ps s (State.markCe t p) := by
  refine h.step (a := [.ports, .trn, .out]) ?_ hp
  unfold State.markCe
  repeat' first
    | with_reducible exact Within.refl _ _
    | with_reducible assumption
    | (show Part.sub _ _ = true; rfl)
    | (extract_lets +onlyGivenNames x; with_reducible refine Within.cut (u := x) ?_ ?_; rotate_left; intro hx; clear_value x; rename' x => y; rotate_right; unfold x; clear x)
    | (extract_lets +onlyGivenNames x; clear_value x; rename' x => z)
    | (extract_lets +onlyGivenNames x; rename' x => z)
    | dsimp -zeta only
    | with_reducible apply State.setQp_frame
    | with_reducible apply State.sendPacket_frame
    | with_reducible apply Within.ite
    | fail_if_no_progress (with_reducible refine Within.put (a := []) ?_ rfl rfl rfl rfl rfl)
    | split

theorem State.cutRate_frame {ps s t} n (h : Within ps s t) (hp : Part.sub [.trn] ps = true) : Within ps s (State.cutRate t n) := by
  refine h.step (a := [.trn]) ?_ hp
  unfold State.cutRate
  repeat' first
    | with_reducible exact Within.refl _ _
    | with_reducible assumption
    | (show Part.sub _ _ = true; rfl)
    | (extract_lets +onlyGivenNames x; with_reducible refine Within.cut (u := x) ?_ ?_; rotate_left; intro hx; clear_value x; rename' x => y; rotate_right; unfold x; clear x)
    | (extract_lets +onlyGivenNames x; clear_value x; rename' x => z)
    | (extract_lets +onlyGivenNames x; rename' x => z)
    | dsimp -zeta only
    | with_reducible apply State.setQp_frame
    | with_reducible apply Within.ite
    | fail_if_no_progress (with_reducible refine Within.put (a := []) ?_ rfl rfl rfl rfl rfl)
    | split

end Sys2Proof.Machine
end

