-- ==== Sys2Proof/Laws/FrameHostCore.lean ====
section
/-!
SUPPORT. Laws/FrameHostCore.lean: what the definitions of Machine/HostCore.lean leave alone: each changes the listed parts at most, and keeps the
canonical form.
-/
namespace Sys2Proof.Machine
open Sys2Proof

set_option Elab.async false
set_option linter.all false

theorem State.setChannel_frame {ps s t} c ch (h : Within ps s t) (hp : Part.sub [.block 7, .host] ps = true) : Within ps s (State.setChannel t c ch) := by
  refine h.step (a := [.block 7, .host]) ?_ hp
  unfold State.setChannel
  repeat' first
    | with_reducible exact Within.refl _ _
    | with_reducible assumption
    | (show Part.sub _ _ = true; rfl)
    | (extract_lets +onlyGivenNames x; with_reducible refine Within.cut (u := x) ?_ ?_; rotate_left; intro hx; clear_value x; rename' x => y; rotate_right; unfold x; clear x)
    | (extract_lets +onlyGivenNames x; clear_value x; rename' x => z)
    | (extract_lets +onlyGivenNames x; rename' x => z)
    | dsimp -zeta only
    | with_reducible apply State.wr_frame
    | with_reducible apply Within.ite
    | fail_if_no_progress (with_reducible refine Within.put (a := [.host]) ?_ rfl rfl rfl rfl rfl)
    | split

theorem State.runChannel_frame {ps s t} c (h : Within ps s t) (hp : Part.sub [.block 7, .host] ps = true) : Within ps s (State.runChannel t c) := by
  refine h.step (a := [.block 7, .host]) ?_ hp
  unfold State.runChannel
  repeat' first
    | with_reducible exact Within.refl _ _
    | with_reducible assumption
    | (show Part.sub _ _ = true; rfl)
    | (extract_lets +onlyGivenNames x; with_reducible refine Within.cut (u := x) ?_ ?_; rotate_left; intro hx; clear_value x; rename' x => y; rotate_right; unfold x; clear x)
    | (extract_lets +onlyGivenNames x; clear_value x; rename' x => z)
    | (extract_lets +onlyGivenNames x; rename' x => z)
    | dsimp -zeta only
    | with_reducible apply State.setChannel_frame
    | with_reducible apply Within.ite
    | fail_if_no_progress (with_reducible refine Within.put (a := []) ?_ rfl rfl rfl rfl rfl)
    | split

theorem State.endPause_frame {ps s t} c (h : Within ps s t) (hp : Part.sub [.block 7, .host, .out, .hostWait] ps = true) : Within ps s (State.endPause t c) := by
  refine h.step (a := [.block 7, .host, .out, .hostWait]) ?_ hp
  unfold State.endPause
  repeat' first
    | with_reducible exact Within.refl _ _
    | with_reducible assumption
    | (show Part.sub _ _ = true; rfl)
    | (extract_lets +onlyGivenNames x; with_reducible refine Within.cut (u := x) ?_ ?_; rotate_left; intro hx; clear_value x; rename' x => y; rotate_right; unfold x; clear x)
    | (extract_lets +onlyGivenNames x; clear_value x; rename' x => z)
    | (extract_lets +onlyGivenNames x; rename' x => z)
    | dsimp -zeta only
    | with_reducible apply State.complete_frame
    | with_reducible apply State.setChannel_frame
    | with_reducible apply Within.ite
    | (with_reducible refine Within.foldl _ ?_ ?_; rotate_left; intro _ _)
    | (with_reducible refine Within.foldl_snd _ ?_ ?_; rotate_left; intro _ _)
    | fail_if_no_progress (with_reducible refine Within.put (a := []) ?_ rfl rfl rfl rfl rfl)
    | split

theorem State.endTransfer_frame {ps s t} c status r0 (h : Within ps s t) (hp : Part.sub [.block 7, .host, .out, .hostWait] ps = true) : Within ps s (State.endTransfer t c status r0) := by
  refine h.step (a := [.block 7, .host, .out, .hostWait]) ?_ hp
  unfold State.endTransfer
  repeat' first
    | with_reducible exact Within.refl _ _
    | with_reducible assumption
    | (show Part.sub _ _ = true; rfl)
    | (extract_lets +onlyGivenNames x; with_reducible refine Within.cut (u := x) ?_ ?_; rotate_left; intro hx; clear_value x; rename' x => y; rotate_right; unfold x; clear x)
    | (extract_lets +onlyGivenNames x; clear_value x; rename' x => z)
    | (extract_lets +onlyGivenNames x; rename' x => z)
    | dsimp -zeta only
    | with_reducible apply State.complete_frame
    | with_reducible apply State.setChannel_frame
    | with_reducible apply State.runChannel_frame
    | with_reducible apply State.endPause_frame
    | with_reducible apply Within.ite
    | fail_if_no_progress (with_reducible refine Within.put (a := []) ?_ rfl rfl rfl rfl rfl)
    | split

theorem State.settleChannel_frame {ps s t} c (h : Within ps s t) (hp : Part.sub [.block 7, .host, .out, .hostWait] ps = true) : Within ps s (State.settleChannel t c) := by
  refine h.step (a := [.block 7, .host, .out, .hostWait]) ?_ hp
  unfold State.settleChannel
  repeat' first
    | with_reducible exact Within.refl _ _
    | with_reducible assumption
    | (show Part.sub _ _ = true; rfl)
    | (extract_lets +onlyGivenNames x; with_reducible refine Within.cut (u := x) ?_ ?_; rotate_left; intro hx; clear_value x; rename' x => y; rotate_right; unfold x; clear x)
    | (extract_lets +onlyGivenNames x; clear_value x; rename' x => z)
    | (extract_lets +onlyGivenNames x; rename' x => z)
    | dsimp -zeta only
    | with_reducible apply State.runChannel_frame
    | with_reducible apply State.endPause_frame
    | with_reducible apply State.endTransfer_frame
    | with_reducible apply Within.ite
    | fail_if_no_progress (with_reducible refine Within.put (a := []) ?_ rfl rfl rfl rfl rfl)
    | split

theorem State.pauseChannel_frame {ps s t} c who (h : Within ps s t) (hp : Part.sub [.block 7, .host, .out, .hostWait] ps = true) : Within ps s (State.pauseChannel t c who) := by
  refine h.step (a := [.block 7, .host, .out, .hostWait]) ?_ hp
  unfold State.pauseChannel
  repeat' first
    | with_reducible exact Within.refl _ _
    | with_reducible assumption
    | (show Part.sub _ _ = true; rfl)
    | (extract_lets +onlyGivenNames x; with_reducible refine Within.cut (u := x) ?_ ?_; rotate_left; intro hx; clear_value x; rename' x => y; rotate_right; unfold x; clear x)
    | (extract_lets +onlyGivenNames x; clear_value x; rename' x => z)
    | (extract_lets +onlyGivenNames x; rename' x => z)
    | dsimp -zeta only
    | with_reducible apply State.setChannel_frame
    | with_reducible apply State.endPause_frame
    | with_reducible apply Within.ite
    | fail_if_no_progress (with_reducible refine Within.put (a := []) ?_ rfl rfl rfl rfl rfl)
    | split

theorem State.resumeChannel_frame {ps s t} c (h : Within ps s t) (hp : Part.sub [.block 7, .host, .out, .hostWait] ps = true) : Within ps s (State.resumeChannel t c) := by
  refine h.step (a := [.block 7, .host, .out, .hostWait]) ?_ hp
  unfold State.resumeChannel
  repeat' first
    | with_reducible exact Within.refl _ _
    | with_reducible assumption
    | (show Part.sub _ _ = true; rfl)
    | (extract_lets +onlyGivenNames x; with_reducible refine Within.cut (u := x) ?_ ?_; rotate_left; intro hx; clear_value x; rename' x => y; rotate_right; unfold x; clear x)
    | (extract_lets +onlyGivenNames x; clear_value x; rename' x => z)
    | (extract_lets +onlyGivenNames x; rename' x => z)
    | dsimp -zeta only
    | with_reducible apply State.complete_frame
    | with_reducible apply State.setChannel_frame
    | with_reducible apply State.runChannel_frame
    | with_reducible apply Within.ite
    | (with_reducible refine Within.foldl _ ?_ ?_; rotate_left; intro _ _)
    | (with_reducible refine Within.foldl_snd _ ?_ ?_; rotate_left; intro _ _)
    | fail_if_no_progress (with_reducible refine Within.put (a := []) ?_ rfl rfl rfl rfl rfl)
    | split

theorem State.withdraw_frame {ps s t} c squash who (h : Within ps s t) (hp : Part.sub [.block 7, .host, .out, .hostWait] ps = true) : Within ps s (State.withdraw t c squash who) := by
  refine h.step (a := [.block 7, .host, .out, .hostWait]) ?_ hp
  unfold State.withdraw
  repeat' first
    | with_reducible exact Within.refl _ _
    | with_reducible assumption
    | (show Part.sub _ _ = true; rfl)
    | (extract_lets +onlyGivenNames x; with_reducible refine Within.cut (u := x) ?_ ?_; rotate_left; intro hx; clear_value x; rename' x => y; rotate_right; unfold x; clear x)
    | (extract_lets +onlyGivenNames x; clear_value x; rename' x => z)
    | (extract_lets +onlyGivenNames x; rename' x => z)
    | dsimp -zeta only
    | with_reducible apply State.setChannel_frame
    | with_reducible apply State.settleChannel_frame
    | with_reducible apply Within.ite
    | fail_if_no_progress (with_reducible refine Within.put (a := []) ?_ rfl rfl rfl rfl rfl)
    | split

theorem State.putSlice_frame {ps s t} n sl (h : Within ps s t) (hp : Part.sub [.block 6, .host] ps = true) : Within ps s (State.putSlice t n sl) := by
  refine h.step (a := [.block 6, .host]) ?_ hp
  unfold State.putSlice
  repeat' first
    | with_reducible exact Within.refl _ _
    | with_reducible assumption
    | (show Part.sub _ _ = true; rfl)
    | (extract_lets +onlyGivenNames x; with_reducible refine Within.cut (u := x) ?_ ?_; rotate_left; intro hx; clear_value x; rename' x => y; rotate_right; unfold x; clear x)
    | (extract_lets +onlyGivenNames x; clear_value x; rename' x => z)
    | (extract_lets +onlyGivenNames x; rename' x => z)
    | dsimp -zeta only
    | with_reducible apply State.wr_frame
    | with_reducible apply State.setSlice_frame
    | with_reducible apply Within.ite
    | split

theorem State.giveChannels_frame {ps s t} n cs (h : Within ps s t) (hp : Part.sub [.block 7, .host] ps = true) : Within ps s (State.giveChannels t n cs) := by
  refine h.step (a := [.block 7, .host]) ?_ hp
  unfold State.giveChannels
  repeat' first
    | with_reducible exact Within.refl _ _
    | with_reducible assumption
    | (show Part.sub _ _ = true; rfl)
    | dsimp -zeta only
    | with_reducible apply State.setChannel_frame
    | with_reducible apply Within.ite
    | (with_reducible refine Within.foldl _ ?_ ?_; rotate_left; intro _ _)
    | (with_reducible refine Within.foldl_snd _ ?_ ?_; rotate_left; intro _ _)
    | split

theorem State.dropRuns_frame {ps s t} which (h : Within ps s t) (hp : Part.sub [.block 4, .block 6, .block 10, .block 12, .block 13, .block 19, .block 20, .evt, .nor, .host, .ports, .trn, .cmd, .ddp, .keys, .sig, .lfl, .map, .rep, .prg, .chan, .store, .out, .hostWait] ps = true) : Within ps s (State.dropRuns t which) := by
  refine h.step (a := [.block 4, .block 6, .block 10, .block 12, .block 13, .block 19, .block 20, .evt, .nor, .host, .ports, .trn, .cmd, .ddp, .keys, .sig, .lfl, .map, .rep, .prg, .chan, .store, .out, .hostWait]) ?_ hp
  unfold State.dropRuns
  repeat' first
    | with_reducible exact Within.refl _ _
    | with_reducible assumption
    | (show Part.sub _ _ = true; rfl)
    | (extract_lets +onlyGivenNames x; with_reducible refine Within.cut (u := x) ?_ ?_; rotate_left; intro hx; clear_value x; rename' x => y; rotate_right; unfold x; clear x)
    | (extract_lets +onlyGivenNames x; clear_value x; rename' x => z)
    | (extract_lets +onlyGivenNames x; rename' x => z)
    | dsimp -zeta only
    | with_reducible apply State.noteRuns_frame
    | with_reducible apply State.resetTag_frame
    | with_reducible apply Within.ite
    | (with_reducible refine Within.foldl _ ?_ ?_; rotate_left; intro _ _)
    | (with_reducible refine Within.foldl_snd _ ?_ ?_; rotate_left; intro _ _)
    | fail_if_no_progress (with_reducible refine Within.put (a := [.cmd, .prg]) ?_ rfl rfl rfl rfl rfl)
    | split

theorem State.muteWork_frame {ps s t} n (h : Within ps s t) (hp : Part.sub [.trn] ps = true) : Within ps s (State.muteWork t n) := by
  refine h.step (a := [.trn]) ?_ hp
  unfold State.muteWork
  repeat' first
    | with_reducible exact Within.refl _ _
    | with_reducible assumption
    | (show Part.sub _ _ = true; rfl)
    | (extract_lets +onlyGivenNames x; with_reducible refine Within.cut (u := x) ?_ ?_; rotate_left; intro hx; clear_value x; rename' x => y; rotate_right; unfold x; clear x)
    | (extract_lets +onlyGivenNames x; clear_value x; rename' x => z)
    | (extract_lets +onlyGivenNames x; rename' x => z)
    | dsimp -zeta only
    | with_reducible apply Within.ite
    | fail_if_no_progress (with_reducible refine Within.put (a := [.trn]) ?_ rfl rfl rfl rfl rfl)
    | split

theorem State.squashWork_frame {ps s t} n own (h : Within ps s t) (hp : Part.sub [.block 4, .block 6, .block 7, .block 10, .block 12, .block 13, .block 19, .block 20, .evt, .nor, .host, .ports, .trn, .cmd, .bnd, .ddp, .keys, .sig, .lfl, .map, .rep, .prg, .chan, .store, .out, .hostWait] ps = true) : Within ps s (State.squashWork t n own) := by
  refine h.step (a := [.block 4, .block 6, .block 7, .block 10, .block 12, .block 13, .block 19, .block 20, .evt, .nor, .host, .ports, .trn, .cmd, .bnd, .ddp, .keys, .sig, .lfl, .map, .rep, .prg, .chan, .store, .out, .hostWait]) ?_ hp
  unfold State.squashWork
  repeat' first
    | with_reducible exact Within.refl _ _
    | with_reducible assumption
    | (show Part.sub _ _ = true; rfl)
    | (extract_lets +onlyGivenNames x; with_reducible refine Within.cut (u := x) ?_ ?_; rotate_left; intro hx; clear_value x; rename' x => y; rotate_right; unfold x; clear x)
    | (extract_lets +onlyGivenNames x; clear_value x; rename' x => z)
    | (extract_lets +onlyGivenNames x; rename' x => z)
    | dsimp -zeta only
    | with_reducible apply State.setSlice_frame
    | with_reducible apply State.setChannel_frame
    | with_reducible apply State.withdraw_frame
    | with_reducible apply State.dropRuns_frame
    | with_reducible apply State.muteWork_frame
    | with_reducible apply Within.ite
    | (with_reducible refine Within.foldl _ ?_ ?_; rotate_left; intro _ _)
    | (with_reducible refine Within.foldl_snd _ ?_ ?_; rotate_left; intro _ _)
    | fail_if_no_progress (with_reducible refine Within.put (a := [.host, .bnd]) ?_ rfl rfl rfl rfl rfl)
    | split

theorem State.drainWork_frame {ps s t} n unfetched (h : Within ps s t) (hp : Part.sub [.block 7, .host, .out, .hostWait] ps = true) : Within ps s (State.drainWork t n unfetched) := by
  refine h.step (a := [.block 7, .host, .out, .hostWait]) ?_ hp
  unfold State.drainWork
  repeat' first
    | with_reducible exact Within.refl _ _
    | with_reducible assumption
    | (show Part.sub _ _ = true; rfl)
    | (extract_lets +onlyGivenNames x; with_reducible refine Within.cut (u := x) ?_ ?_; rotate_left; intro hx; clear_value x; rename' x => y; rotate_right; unfold x; clear x)
    | (extract_lets +onlyGivenNames x; clear_value x; rename' x => z)
    | (extract_lets +onlyGivenNames x; rename' x => z)
    | dsimp -zeta only
    | with_reducible apply State.complete_frame
    | with_reducible apply State.setChannel_frame
    | with_reducible apply Within.ite
    | (with_reducible refine Within.foldl _ ?_ ?_; rotate_left; intro _ _)
    | (with_reducible refine Within.foldl_snd _ ?_ ?_; rotate_left; intro _ _)
    | fail_if_no_progress (with_reducible refine Within.put (a := [.host]) ?_ rfl rfl rfl rfl rfl)
    | split

theorem State.beginReset_frame {ps s t} n squash destroying who unfetched (h : Within ps s t) (hp : Part.sub [.block 4, .block 6, .block 7, .block 10, .block 12, .block 13, .block 19, .block 20, .evt, .nor, .host, .ports, .trn, .cmd, .bnd, .ddp, .keys, .sig, .lfl, .map, .rep, .prg, .chan, .store, .out, .hostWait] ps = true) : Within ps s (State.beginReset t n squash destroying who unfetched) := by
  refine h.step (a := [.block 4, .block 6, .block 7, .block 10, .block 12, .block 13, .block 19, .block 20, .evt, .nor, .host, .ports, .trn, .cmd, .bnd, .ddp, .keys, .sig, .lfl, .map, .rep, .prg, .chan, .store, .out, .hostWait]) ?_ hp
  unfold State.beginReset
  repeat' first
    | with_reducible exact Within.refl _ _
    | with_reducible assumption
    | (show Part.sub _ _ = true; rfl)
    | (extract_lets +onlyGivenNames x; with_reducible refine Within.cut (u := x) ?_ ?_; rotate_left; intro hx; clear_value x; rename' x => y; rotate_right; unfold x; clear x)
    | (extract_lets +onlyGivenNames x; clear_value x; rename' x => z)
    | (extract_lets +onlyGivenNames x; rename' x => z)
    | dsimp -zeta only
    | with_reducible apply State.putSlice_frame
    | with_reducible apply State.squashWork_frame
    | with_reducible apply State.drainWork_frame
    | with_reducible apply Within.ite
    | fail_if_no_progress (with_reducible refine Within.put (a := []) ?_ rfl rfl rfl rfl rfl)
    | split

theorem State.removeObjects_frame {ps s t} n (h : Within ps s t) (hp : Part.sub (.block 1 :: .block 4 :: .block 5 :: .block 6 :: .block 9 :: .block 10 :: .block 11 :: .block 12 :: .block 13 :: .block 19 :: .block 20 :: .power :: .test :: .evt :: .nor :: .host :: .ports :: .trn :: .cmd :: .ddp :: .keys :: .sig :: .lfl :: .map :: .rep :: .prg :: .chan :: .store :: .mem :: .out :: .hostWait :: []) ps = true) : Within ps s (State.removeObjects t n) := by
  refine h.step (a := (.block 1 :: .block 4 :: .block 5 :: .block 6 :: .block 9 :: .block 10 :: .block 11 :: .block 12 :: .block 13 :: .block 19 :: .block 20 :: .power :: .test :: .evt :: .nor :: .host :: .ports :: .trn :: .cmd :: .ddp :: .keys :: .sig :: .lfl :: .map :: .rep :: .prg :: .chan :: .store :: .mem :: .out :: .hostWait :: [])) ?_ hp
  unfold State.removeObjects
  repeat' first
    | with_reducible exact Within.refl _ _
    | with_reducible assumption
    | (show Part.sub _ _ = true; rfl)
    | (extract_lets +onlyGivenNames x; with_reducible refine Within.cut (u := x) ?_ ?_; rotate_left; intro hx; clear_value x; rename' x => y; rotate_right; unfold x; clear x)
    | (extract_lets +onlyGivenNames x; clear_value x; rename' x => z)
    | (extract_lets +onlyGivenNames x; rename' x => z)
    | dsimp -zeta only
    | with_reducible apply State.noteLayby_frame
    | with_reducible apply State.queueLost_frame
    | with_reducible apply State.placeAll_frame
    | with_reducible apply State.invalidate_frame
    | with_reducible apply Within.ite
    | (with_reducible refine Within.foldl _ ?_ ?_; rotate_left; intro _ _)
    | (with_reducible refine Within.foldl_snd _ ?_ ?_; rotate_left; intro _ _)
    | fail_if_no_progress (with_reducible refine Within.put (a := [.trn]) ?_ rfl rfl rfl rfl rfl)
    | split

theorem State.freeSlice_frame {ps s t} n (h : Within ps s t) (hp : Part.sub [.block 6, .block 7, .host] ps = true) : Within ps s (State.freeSlice t n) := by
  refine h.step (a := [.block 6, .block 7, .host]) ?_ hp
  unfold State.freeSlice
  repeat' first
    | with_reducible exact Within.refl _ _
    | with_reducible assumption
    | (show Part.sub _ _ = true; rfl)
    | (extract_lets +onlyGivenNames x; with_reducible refine Within.cut (u := x) ?_ ?_; rotate_left; intro hx; clear_value x; rename' x => y; rotate_right; unfold x; clear x)
    | (extract_lets +onlyGivenNames x; clear_value x; rename' x => z)
    | (extract_lets +onlyGivenNames x; rename' x => z)
    | dsimp -zeta only
    | with_reducible apply State.setChannel_frame
    | with_reducible apply State.putSlice_frame
    | with_reducible apply Within.ite
    | (with_reducible refine Within.foldl _ ?_ ?_; rotate_left; intro _ _)
    | (with_reducible refine Within.foldl_snd _ ?_ ?_; rotate_left; intro _ _)
    | fail_if_no_progress (with_reducible refine Within.put (a := [.host]) ?_ rfl rfl rfl rfl rfl)
    | split

theorem State.showStamp_frame {ps s t} port (h : Within ps s t) (hp : Part.sub [.block 8] ps = true) : Within ps s (State.showStamp t port) := by
  refine h.step (a := [.block 8]) ?_ hp
  unfold State.showStamp
  repeat' first
    | with_reducible exact Within.refl _ _
    | with_reducible assumption
    | (show Part.sub _ _ = true; rfl)
    | (extract_lets +onlyGivenNames x; with_reducible refine Within.cut (u := x) ?_ ?_; rotate_left; intro hx; clear_value x; rename' x => y; rotate_right; unfold x; clear x)
    | (extract_lets +onlyGivenNames x; clear_value x; rename' x => z)
    | (extract_lets +onlyGivenNames x; rename' x => z)
    | dsimp -zeta only
    | with_reducible apply State.wr_frame
    | with_reducible apply Within.ite
    | split

theorem State.pushStamp_frame {ps s t} port e (h : Within ps s t) (hp : Part.sub [.regs, .holding, .trn] ps = true) : Within ps s (State.pushStamp t port e) := by
  refine h.step (a := [.regs, .holding, .trn]) ?_ hp
  unfold State.pushStamp
  repeat' first
    | with_reducible exact Within.refl _ _
    | with_reducible assumption
    | (show Part.sub _ _ = true; rfl)
    | (extract_lets +onlyGivenNames x; with_reducible refine Within.cut (u := x) ?_ ?_; rotate_left; intro hx; clear_value x; rename' x => y; rotate_right; unfold x; clear x)
    | (extract_lets +onlyGivenNames x; clear_value x; rename' x => z)
    | (extract_lets +onlyGivenNames x; rename' x => z)
    | dsimp -zeta only
    | with_reducible apply State.raise_frame
    | with_reducible apply State.showStamp_frame
    | with_reducible apply Within.ite
    | fail_if_no_progress (with_reducible refine Within.put (a := [.trn]) ?_ rfl rfl rfl rfl rfl)
    | split

theorem State.frameDone_frame {ps s t} f ok stamp (h : Within ps s t) (hp : Part.sub [.host, .out, .hostWait] ps = true) : Within ps s (State.frameDone t f ok stamp) := by
  refine h.step (a := [.host, .out, .hostWait]) ?_ hp
  unfold State.frameDone
  repeat' first
    | with_reducible exact Within.refl _ _
    | with_reducible assumption
    | (show Part.sub _ _ = true; rfl)
    | dsimp -zeta only
    | with_reducible apply State.complete_frame
    | with_reducible apply Within.ite
    | fail_if_no_progress (with_reducible refine Within.put (a := []) ?_ rfl rfl rfl rfl rfl)
    | split

theorem State.wireFrame_frame {ps s t} f bytes (h : Within ps s t) (hp : Part.sub [.ports, .out] ps = true) : Within ps s (State.wireFrame t f bytes).2 := by
  refine h.step (a := [.ports, .out]) ?_ hp
  unfold State.wireFrame
  repeat' first
    | with_reducible exact Within.refl _ _
    | with_reducible assumption
    | (show Part.sub _ _ = true; rfl)
    | (extract_lets +onlyGivenNames x; with_reducible refine Within.cut (u := x) ?_ ?_; rotate_left; intro hx; clear_value x; rename' x => y; rotate_right; unfold x; clear x)
    | (extract_lets +onlyGivenNames x; clear_value x; rename' x => z)
    | (extract_lets +onlyGivenNames x; rename' x => z)
    | dsimp -zeta only
    | with_reducible apply State.send_frame
    | with_reducible apply State.sendAll_frame
    | with_reducible apply State.secTake_frame
    | with_reducible apply Within.ite
    | fail_if_no_progress (with_reducible refine Within.put (a := []) ?_ rfl rfl rfl rfl rfl)
    | split
    | (with_reducible refine Within.of_pair (by assumption) ?_)

theorem State.emitFrame_frame {ps s t} f (h : Within ps s t) (hp : Part.sub [.regs, .holding, .host, .ports, .trn, .out, .hostWait] ps = true) : Within ps s (State.emitFrame t f) := by
  refine h.step (a := [.regs, .holding, .host, .ports, .trn, .out, .hostWait]) ?_ hp
  unfold State.emitFrame
  repeat' first
    | with_reducible exact Within.refl _ _
    | with_reducible assumption
    | (show Part.sub _ _ = true; rfl)
    | (extract_lets +onlyGivenNames x; with_reducible refine Within.cut (u := x) ?_ ?_; rotate_left; intro hx; clear_value x; rename' x => y; rotate_right; unfold x; clear x)
    | (extract_lets +onlyGivenNames x; clear_value x; rename' x => z)
    | (extract_lets +onlyGivenNames x; rename' x => z)
    | dsimp -zeta only
    | with_reducible apply State.pushStamp_frame
    | with_reducible apply State.frameDone_frame
    | with_reducible apply State.wireFrame_frame
    | with_reducible apply Within.ite
    | fail_if_no_progress (with_reducible refine Within.put (a := []) ?_ rfl rfl rfl rfl rfl)
    | split
    | (with_reducible refine Within.of_pair (by assumption) ?_)

theorem State.transmitFrame_frame {ps s t} f (h : Within ps s t) (hp : Part.sub [.regs, .holding, .host, .ports, .trn, .out, .hostWait] ps = true) : Within ps s (State.transmitFrame t f) := by
  refine h.step (a := [.regs, .holding, .host, .ports, .trn, .out, .hostWait]) ?_ hp
  unfold State.transmitFrame
  repeat' first
    | with_reducible exact Within.refl _ _
    | with_reducible assumption
    | (show Part.sub _ _ = true; rfl)
    | (extract_lets +onlyGivenNames x; with_reducible refine Within.cut (u := x) ?_ ?_; rotate_left; intro hx; clear_value x; rename' x => y; rotate_right; unfold x; clear x)
    | (extract_lets +onlyGivenNames x; clear_value x; rename' x => z)
    | (extract_lets +onlyGivenNames x; rename' x => z)
    | dsimp -zeta only
    | with_reducible apply State.setLPort_frame
    | with_reducible apply State.emitFrame_frame
    | with_reducible apply Within.ite
    | fail_if_no_progress (with_reducible refine Within.put (a := []) ?_ rfl rfl rfl rfl rfl)
    | split

theorem State.unpause_frame {ps s t} l prio (h : Within ps s t) (hp : Part.sub [.regs, .holding, .host, .ports, .trn, .out, .hostWait] ps = true) : Within ps s (State.unpause t l prio) := by
  refine h.step (a := [.regs, .holding, .host, .ports, .trn, .out, .hostWait]) ?_ hp
  unfold State.unpause
  repeat' first
    | with_reducible exact Within.refl _ _
    | with_reducible assumption
    | (show Part.sub _ _ = true; rfl)
    | (extract_lets +onlyGivenNames x; with_reducible refine Within.cut (u := x) ?_ ?_; rotate_left; intro hx; clear_value x; rename' x => y; rotate_right; unfold x; clear x)
    | (extract_lets +onlyGivenNames x; clear_value x; rename' x => z)
    | (extract_lets +onlyGivenNames x; rename' x => z)
    | dsimp -zeta only
    | with_reducible apply State.setLPort_frame
    | with_reducible apply State.releasePackets_frame
    | with_reducible apply State.emitFrame_frame
    | with_reducible apply Within.ite
    | (with_reducible refine Within.foldl _ ?_ ?_; rotate_left; intro _ _)
    | (with_reducible refine Within.foldl_snd _ ?_ ?_; rotate_left; intro _ _)
    | fail_if_no_progress (with_reducible refine Within.put (a := []) ?_ rfl rfl rfl rfl rfl)
    | split

theorem State.popStamp_frame {ps s t} port (h : Within ps s t) (hp : Part.sub [.block 8, .trn] ps = true) : Within ps s (State.popStamp t port) := by
  refine h.step (a := [.block 8, .trn]) ?_ hp
  unfold State.popStamp
  repeat' first
    | with_reducible exact Within.refl _ _
    | with_reducible assumption
    | (show Part.sub _ _ = true; rfl)
    | (extract_lets +onlyGivenNames x; with_reducible refine Within.cut (u := x) ?_ ?_; rotate_left; intro hx; clear_value x; rename' x => y; rotate_right; unfold x; clear x)
    | (extract_lets +onlyGivenNames x; clear_value x; rename' x => z)
    | (extract_lets +onlyGivenNames x; rename' x => z)
    | dsimp -zeta only
    | with_reducible apply State.wr_frame
    | with_reducible apply State.showStamp_frame
    | with_reducible apply Within.ite
    | fail_if_no_progress (with_reducible refine Within.put (a := [.trn]) ?_ rfl rfl rfl rfl rfl)
    | split

theorem State.deliverFrame_frame {ps s t} f uncontrolled (h : Within ps s t) (hp : Part.sub [.block 6, .host, .out, .hostWait] ps = true) : Within ps s (State.deliverFrame t f uncontrolled) := by
  refine h.step (a := [.block 6, .host, .out, .hostWait]) ?_ hp
  unfold State.deliverFrame
  repeat' first
    | with_reducible exact Within.refl _ _
    | with_reducible assumption
    | (show Part.sub _ _ = true; rfl)
    | (extract_lets +onlyGivenNames x; with_reducible refine Within.cut (u := x) ?_ ?_; rotate_left; intro hx; clear_value x; rename' x => y; rotate_right; unfold x; clear x)
    | (extract_lets +onlyGivenNames x; clear_value x; rename' x => z)
    | (extract_lets +onlyGivenNames x; rename' x => z)
    | dsimp -zeta only
    | with_reducible apply State.bump_frame
    | with_reducible apply State.sendHost_frame
    | with_reducible apply State.postObject_frame
    | with_reducible apply State.complete_frame
    | with_reducible apply Within.ite
    | fail_if_no_progress (with_reducible refine Within.put (a := [.host]) ?_ rfl rfl rfl rfl rfl)
    | split

theorem State.hostFrame_frame {ps s t} f uncontrolled (h : Within ps s t) (hp : Part.sub [.block 6, .host, .ports, .out, .hostWait] ps = true) : Within ps s (State.hostFrame t f uncontrolled) := by
  refine h.step (a := [.block 6, .host, .ports, .out, .hostWait]) ?_ hp
  unfold State.hostFrame
  repeat' first
    | with_reducible exact Within.refl _ _
    | with_reducible assumption
    | (show Part.sub _ _ = true; rfl)
    | (extract_lets +onlyGivenNames x; with_reducible refine Within.cut (u := x) ?_ ?_; rotate_left; intro hx; clear_value x; rename' x => y; rotate_right; unfold x; clear x)
    | (extract_lets +onlyGivenNames x; clear_value x; rename' x => z)
    | (extract_lets +onlyGivenNames x; rename' x => z)
    | dsimp -zeta only
    | with_reducible apply State.setLPort_frame
    | with_reducible apply State.deliverFrame_frame
    | with_reducible apply Within.ite
    | fail_if_no_progress (with_reducible refine Within.put (a := []) ?_ rfl rfl rfl rfl rfl)
    | split

theorem State.validate_frame {ps s t} f (h : Within ps s t) (hp : Part.sub [.ports] ps = true) : Within ps s (State.validate t f).2 := by
  refine h.step (a := [.ports]) ?_ hp
  unfold State.validate
  repeat' first
    | with_reducible exact Within.refl _ _
    | with_reducible assumption
    | (show Part.sub _ _ = true; rfl)
    | (extract_lets +onlyGivenNames x; with_reducible refine Within.cut (u := x) ?_ ?_; rotate_left; intro hx; clear_value x; rename' x => y; rotate_right; unfold x; clear x)
    | (extract_lets +onlyGivenNames x; clear_value x; rename' x => z)
    | (extract_lets +onlyGivenNames x; rename' x => z)
    | dsimp -zeta only
    | with_reducible apply State.setLPort_frame
    | with_reducible apply Within.ite
    | fail_if_no_progress (with_reducible refine Within.put (a := []) ?_ rfl rfl rfl rfl rfl)
    | split

end Sys2Proof.Machine
end

