-- ==== Sys2Proof/Laws/FrameRepCore.lean ====
section
/-!
SUPPORT. Laws/FrameRepCore.lean: what the definitions of Machine/RepCore.lean leave alone: each changes the listed parts at most, and keeps the
canonical form.
-/
namespace Sys2Proof.Machine
open Sys2Proof

set_option Elab.async false
set_option linter.all false

theorem State.setRep_frame {ps s t} n x (h : Within ps s t) (hp : Part.sub [.block 18, .rep] ps = true) : Within ps s (State.setRep t n x) := by
  refine h.step (a := [.block 18, .rep]) ?_ hp
  unfold State.setRep
  repeat' first
    | with_reducible exact Within.refl _ _
    | with_reducible assumption
    | (show Part.sub _ _ = true; rfl)
    | dsimp -zeta only
    | with_reducible apply State.wr_frame
    | with_reducible apply Within.ite
    | fail_if_no_progress (with_reducible refine Within.put (a := [.rep]) ?_ rfl rfl rfl rfl rfl)
    | split

theorem State.noteSeal_frame {ps s t}  (h : Within ps s t) (hp : Part.sub [.block 4, .block 6, .block 11, .evt, .nor, .host, .free, .out, .hostWait] ps = true) : Within ps s (State.noteSeal t) := by
  refine h.step (a := [.block 4, .block 6, .block 11, .evt, .nor, .host, .free, .out, .hostWait]) ?_ hp
  unfold State.noteSeal
  repeat' first
    | with_reducible exact Within.refl _ _
    | with_reducible assumption
    | (show Part.sub _ _ = true; rfl)
    | (extract_lets +onlyGivenNames x; with_reducible refine Within.cut (u := x) ?_ ?_; rotate_left; intro hx; clear_value x; rename' x => y; rotate_right; unfold x; clear x)
    | (extract_lets +onlyGivenNames x; clear_value x; rename' x => z)
    | (extract_lets +onlyGivenNames x; rename' x => z)
    | dsimp -zeta only
    | with_reducible apply State.bump_frame
    | with_reducible apply State.dummyRound_frame
    | with_reducible apply State.event_frame
    | with_reducible apply Within.ite
    | split
    | (with_reducible refine Within.of_pair (by assumption) ?_)

theorem State.nextEnvelope_frame {ps s t} n (h : Within ps s t) (hp : Part.sub [.block 18, .rep] ps = true) : Within ps s (State.nextEnvelope t n) := by
  refine h.step (a := [.block 18, .rep]) ?_ hp
  unfold State.nextEnvelope
  repeat' first
    | with_reducible exact Within.refl _ _
    | with_reducible assumption
    | (show Part.sub _ _ = true; rfl)
    | (extract_lets +onlyGivenNames x; with_reducible refine Within.cut (u := x) ?_ ?_; rotate_left; intro hx; clear_value x; rename' x => y; rotate_right; unfold x; clear x)
    | (extract_lets +onlyGivenNames x; clear_value x; rename' x => z)
    | (extract_lets +onlyGivenNames x; rename' x => z)
    | dsimp -zeta only
    | with_reducible apply State.setRep_frame
    | with_reducible apply Within.ite
    | fail_if_no_progress (with_reducible refine Within.put (a := []) ?_ rfl rfl rfl rfl rfl)
    | split

theorem State.writeRing_frame {ps s t} l es (h : Within ps s t) (hp : Part.sub [.block 4, .block 6, .block 11, .block 18, .evt, .nor, .host, .rep, .free, .out, .hostWait] ps = true) : Within ps s (State.writeRing l es t) := by
  refine h.step (a := [.block 4, .block 6, .block 11, .block 18, .evt, .nor, .host, .rep, .free, .out, .hostWait]) ?_ hp
  clear h
  induction es generalizing t with
  | nil => exact .refl _ _
  | cons e r ih =>
    unfold State.writeRing
    split
    · exact .refl _ _
    · split
      · exact Within.put (a := [.rep]) (.refl _ _) rfl rfl rfl rfl rfl
      · dsimp only
        refine Within.trans ?_ ih
        refine State.bump_frame _ _ _ _ ?_ (by decide)
        refine State.send_frame _ ?_ (by decide)
        refine State.noteSeal_frame ?_ (by decide)
        exact Within.put (a := [.rep]) (.refl _ _) rfl rfl rfl rfl rfl

theorem State.postEnvelope_frame {ps s t} l e (h : Within ps s t) (hp : Part.sub [.block 4, .block 6, .block 11, .block 18, .evt, .nor, .host, .rep, .free, .out, .hostWait] ps = true) : Within ps s (State.postEnvelope t l e) := by
  refine h.step (a := [.block 4, .block 6, .block 11, .block 18, .evt, .nor, .host, .rep, .free, .out, .hostWait]) ?_ hp
  unfold State.postEnvelope
  repeat' first
    | with_reducible exact Within.refl _ _
    | with_reducible assumption
    | (show Part.sub _ _ = true; rfl)
    | dsimp -zeta only
    | with_reducible apply State.writeRing_frame
    | with_reducible apply Within.ite
    | fail_if_no_progress (with_reducible refine Within.put (a := []) ?_ rfl rfl rfl rfl rfl)
    | split

theorem State.consumeRing_frame {ps s t} l e (h : Within ps s t) (hp : Part.sub [.block 18, .rep] ps = true) : Within ps s (State.consumeRing t l e) := by
  refine h.step (a := [.block 18, .rep]) ?_ hp
  unfold State.consumeRing
  repeat' first
    | with_reducible exact Within.refl _ _
    | with_reducible assumption
    | (show Part.sub _ _ = true; rfl)
    | dsimp -zeta only
    | with_reducible apply State.bump_frame
    | with_reducible apply Within.ite
    | fail_if_no_progress (with_reducible refine Within.put (a := [.rep]) ?_ rfl rfl rfl rfl rfl)
    | split

theorem State.ringConsumed_frame {ps s t} l off (h : Within ps s t) (hp : Part.sub [.block 4, .block 6, .block 11, .block 18, .evt, .nor, .host, .rep, .free, .out, .hostWait] ps = true) : Within ps s (State.ringConsumed t l off) := by
  refine h.step (a := [.block 4, .block 6, .block 11, .block 18, .evt, .nor, .host, .rep, .free, .out, .hostWait]) ?_ hp
  unfold State.ringConsumed
  repeat' first
    | with_reducible exact Within.refl _ _
    | with_reducible assumption
    | (show Part.sub _ _ = true; rfl)
    | (extract_lets +onlyGivenNames x; with_reducible refine Within.cut (u := x) ?_ ?_; rotate_left; intro hx; clear_value x; rename' x => y; rotate_right; unfold x; clear x)
    | (extract_lets +onlyGivenNames x; clear_value x; rename' x => z)
    | (extract_lets +onlyGivenNames x; rename' x => z)
    | dsimp -zeta only
    | with_reducible apply State.writeRing_frame
    | with_reducible apply Within.ite
    | fail_if_no_progress (with_reducible refine Within.put (a := [.rep]) ?_ rfl rfl rfl rfl rfl)
    | split

theorem State.fillBuffer_frame {ps s t} n es (h : Within ps s t) (hp : Part.sub [.block 4, .block 6, .block 11, .block 18, .evt, .nor, .host, .rep, .free, .out, .hostWait] ps = true) : Within ps s (State.fillBuffer n es t) := by
  induction es generalizing t with
  | nil => exact h
  | cons e r ih =>
    have st (x : RepSet) : Within ps s (t.setRep n x) := State.setRep_frame _ _ h (Part.sub_trans (by decide) hp)
    exact Within.ite (ih (State.postEnvelope_frame _ _ (st _) (Part.sub_trans (by decide) hp))) (st _)

theorem State.releaseAll_frame {ps s t} n (h : Within ps s t) (hp : Part.sub [.block 18, .cmd, .rep] ps = true) : Within ps s (State.releaseAll t n) := by
  refine h.step (a := [.block 18, .cmd, .rep]) ?_ hp
  unfold State.releaseAll
  repeat' first
    | with_reducible exact Within.refl _ _
    | with_reducible assumption
    | (show Part.sub _ _ = true; rfl)
    | (extract_lets +onlyGivenNames x; with_reducible refine Within.cut (u := x) ?_ ?_; rotate_left; intro hx; clear_value x; rename' x => y; rotate_right; unfold x; clear x)
    | (extract_lets +onlyGivenNames x; clear_value x; rename' x => z)
    | (extract_lets +onlyGivenNames x; rename' x => z)
    | dsimp -zeta only
    | with_reducible apply State.finish_frame
    | with_reducible apply State.setRep_frame
    | with_reducible apply Within.ite
    | (with_reducible refine Within.foldl _ ?_ ?_; rotate_left; intro _ _)
    | (with_reducible refine Within.foldl_snd _ ?_ ?_; rotate_left; intro _ _)
    | fail_if_no_progress (with_reducible refine Within.put (a := []) ?_ rfl rfl rfl rfl rfl)
    | split

theorem State.enterTracking_frame {ps s t} n (h : Within ps s t) (hp : Part.sub [.block 4, .block 6, .block 18, .evt, .nor, .host, .cmd, .rep, .out, .hostWait] ps = true) : Within ps s (State.enterTracking t n) := by
  refine h.step (a := [.block 4, .block 6, .block 18, .evt, .nor, .host, .cmd, .rep, .out, .hostWait]) ?_ hp
  unfold State.enterTracking
  repeat' first
    | with_reducible exact Within.refl _ _
    | with_reducible assumption
    | (show Part.sub _ _ = true; rfl)
    | (extract_lets +onlyGivenNames x; with_reducible refine Within.cut (u := x) ?_ ?_; rotate_left; intro hx; clear_value x; rename' x => y; rotate_right; unfold x; clear x)
    | (extract_lets +onlyGivenNames x; clear_value x; rename' x => z)
    | (extract_lets +onlyGivenNames x; rename' x => z)
    | dsimp -zeta only
    | with_reducible apply State.event1_frame
    | with_reducible apply State.setRep_frame
    | with_reducible apply State.releaseAll_frame
    | with_reducible apply Within.ite
    | fail_if_no_progress (with_reducible refine Within.put (a := []) ?_ rfl rfl rfl rfl rfl)
    | split

theorem State.noteFull_frame {ps s t} n (h : Within ps s t) (hp : Part.sub [.block 4, .block 6, .block 18, .evt, .nor, .host, .cmd, .rep, .out, .hostWait] ps = true) : Within ps s (State.noteFull t n) := by
  refine h.step (a := [.block 4, .block 6, .block 18, .evt, .nor, .host, .cmd, .rep, .out, .hostWait]) ?_ hp
  unfold State.noteFull
  repeat' first
    | with_reducible exact Within.refl _ _
    | with_reducible assumption
    | (show Part.sub _ _ = true; rfl)
    | (extract_lets +onlyGivenNames x; with_reducible refine Within.cut (u := x) ?_ ?_; rotate_left; intro hx; clear_value x; rename' x => y; rotate_right; unfold x; clear x)
    | (extract_lets +onlyGivenNames x; clear_value x; rename' x => z)
    | (extract_lets +onlyGivenNames x; rename' x => z)
    | dsimp -zeta only
    | with_reducible apply State.enterTracking_frame
    | with_reducible apply Within.ite
    | split

theorem State.sendEnvelope_frame {ps s t} n e (h : Within ps s t) (hp : Part.sub [.block 4, .block 6, .block 11, .block 18, .evt, .nor, .host, .cmd, .rep, .free, .out, .hostWait] ps = true) : Within ps s (State.sendEnvelope t n e) := by
  refine h.step (a := [.block 4, .block 6, .block 11, .block 18, .evt, .nor, .host, .cmd, .rep, .free, .out, .hostWait]) ?_ hp
  unfold State.sendEnvelope
  repeat' first
    | with_reducible exact Within.refl _ _
    | with_reducible assumption
    | (show Part.sub _ _ = true; rfl)
    | (extract_lets +onlyGivenNames x; with_reducible refine Within.cut (u := x) ?_ ?_; rotate_left; intro hx; clear_value x; rename' x => y; rotate_right; unfold x; clear x)
    | (extract_lets +onlyGivenNames x; clear_value x; rename' x => z)
    | (extract_lets +onlyGivenNames x; rename' x => z)
    | dsimp -zeta only
    | with_reducible apply State.nextEnvelope_frame
    | with_reducible apply State.fillBuffer_frame
    | with_reducible apply State.noteFull_frame
    | with_reducible apply Within.ite
    | fail_if_no_progress (with_reducible refine Within.put (a := []) ?_ rfl rfl rfl rfl rfl)
    | split

theorem State.sealBatch_frame {ps s t} n (h : Within ps s t) (hp : Part.sub [.block 4, .block 6, .block 11, .block 18, .evt, .nor, .host, .cmd, .rep, .free, .out, .hostWait] ps = true) : Within ps s (State.sealBatch t n) := by
  refine h.step (a := [.block 4, .block 6, .block 11, .block 18, .evt, .nor, .host, .cmd, .rep, .free, .out, .hostWait]) ?_ hp
  unfold State.sealBatch
  repeat' first
    | with_reducible exact Within.refl _ _
    | with_reducible assumption
    | (show Part.sub _ _ = true; rfl)
    | (extract_lets +onlyGivenNames x; with_reducible refine Within.cut (u := x) ?_ ?_; rotate_left; intro hx; clear_value x; rename' x => y; rotate_right; unfold x; clear x)
    | (extract_lets +onlyGivenNames x; clear_value x; rename' x => z)
    | (extract_lets +onlyGivenNames x; rename' x => z)
    | dsimp -zeta only
    | with_reducible apply State.setRep_frame
    | with_reducible apply State.sendEnvelope_frame
    | with_reducible apply Within.ite
    | fail_if_no_progress (with_reducible refine Within.put (a := []) ?_ rfl rfl rfl rfl rfl)
    | split

theorem State.joinUnit_frame {ps s t} n time bu (h : Within ps s t) (hp : Part.sub [.block 4, .block 6, .block 11, .block 18, .evt, .nor, .host, .cmd, .rep, .free, .out, .hostWait] ps = true) : Within ps s (State.joinUnit t n time bu) := by
  refine h.step (a := [.block 4, .block 6, .block 11, .block 18, .evt, .nor, .host, .cmd, .rep, .free, .out, .hostWait]) ?_ hp
  unfold State.joinUnit
  repeat' first
    | with_reducible exact Within.refl _ _
    | with_reducible assumption
    | (show Part.sub _ _ = true; rfl)
    | (extract_lets +onlyGivenNames x; with_reducible refine Within.cut (u := x) ?_ ?_; rotate_left; intro hx; clear_value x; rename' x => y; rotate_right; unfold x; clear x)
    | (extract_lets +onlyGivenNames x; clear_value x; rename' x => z)
    | (extract_lets +onlyGivenNames x; rename' x => z)
    | dsimp -zeta only
    | with_reducible apply State.setRep_frame
    | with_reducible apply State.sealBatch_frame
    | with_reducible apply Within.ite
    | fail_if_no_progress (with_reducible refine Within.put (a := []) ?_ rfl rfl rfl rfl rfl)
    | split

theorem State.joinUnits_frame {ps s t} n job time units (h : Within ps s t) (hp : Part.sub [.block 4, .block 6, .block 11, .block 18, .evt, .nor, .host, .cmd, .rep, .free, .out, .hostWait] ps = true) : Within ps s (State.joinUnits t n job time units) := by
  refine h.step (a := [.block 4, .block 6, .block 11, .block 18, .evt, .nor, .host, .cmd, .rep, .free, .out, .hostWait]) ?_ hp
  unfold State.joinUnits
  repeat' first
    | with_reducible exact Within.refl _ _
    | with_reducible assumption
    | (show Part.sub _ _ = true; rfl)
    | (extract_lets +onlyGivenNames x; with_reducible refine Within.cut (u := x) ?_ ?_; rotate_left; intro hx; clear_value x; rename' x => y; rotate_right; unfold x; clear x)
    | (extract_lets +onlyGivenNames x; clear_value x; rename' x => z)
    | (extract_lets +onlyGivenNames x; rename' x => z)
    | dsimp -zeta only
    | with_reducible apply State.setRep_frame
    | with_reducible apply State.joinUnit_frame
    | with_reducible apply Within.ite
    | (with_reducible refine Within.foldl _ ?_ ?_; rotate_left; intro _ _)
    | (with_reducible refine Within.foldl_snd _ ?_ ?_; rotate_left; intro _ _)
    | fail_if_no_progress (with_reducible refine Within.put (a := []) ?_ rfl rfl rfl rfl rfl)
    | split

theorem State.drainWrites_frame {ps s t} n ws (h : Within ps s t) (hp : Part.sub [.block 4, .block 6, .block 11, .block 18, .evt, .nor, .host, .cmd, .rep, .free, .out, .hostWait] ps = true) : Within ps s (State.drainWrites n ws t) := by
  induction ws generalizing t with
  | nil => exact h
  | cons j r ih =>
    have st (x : RepSet) : Within ps s (t.setRep n x) := State.setRep_frame _ _ h (Part.sub_trans (by decide) hp)
    unfold State.drainWrites
    dsimp only
    split
    · exact ih (st _)
    · split
      · exact ih (State.joinUnits_frame _ _ _ _ (st _) (Part.sub_trans (by decide) hp))
      · exact h

theorem State.joinStream_frame {ps s t} nsid delta bytes (h : Within ps s t) (hp : Part.sub [.block 4, .block 6, .block 11, .block 18, .evt, .nor, .host, .cmd, .rep, .free, .out, .hostWait] ps = true) : Within ps s (State.joinStream t nsid delta bytes).2 := by
  refine h.step (a := [.block 4, .block 6, .block 11, .block 18, .evt, .nor, .host, .cmd, .rep, .free, .out, .hostWait]) ?_ hp
  unfold State.joinStream
  repeat' first
    | with_reducible exact Within.refl _ _
    | with_reducible assumption
    | (show Part.sub _ _ = true; rfl)
    | (extract_lets +onlyGivenNames x; with_reducible refine Within.cut (u := x) ?_ ?_; rotate_left; intro hx; clear_value x; rename' x => y; rotate_right; unfold x; clear x)
    | (extract_lets +onlyGivenNames x; clear_value x; rename' x => z)
    | (extract_lets +onlyGivenNames x; rename' x => z)
    | dsimp -zeta only
    | with_reducible apply State.askFetch_frame
    | with_reducible apply State.setRep_frame
    | with_reducible apply State.joinUnits_frame
    | with_reducible apply Within.ite
    | (with_reducible refine Within.foldl _ ?_ ?_; rotate_left; intro _ _)
    | (with_reducible refine Within.foldl_snd _ ?_ ?_; rotate_left; intro _ _)
    | fail_if_no_progress (with_reducible refine Within.put (a := []) ?_ rfl rfl rfl rfl rfl)
    | split

theorem State.releaseCompletions_frame {ps s t} n upTo (h : Within ps s t) (hp : Part.sub [.block 18, .cmd, .rep] ps = true) : Within ps s (State.releaseCompletions t n upTo) := by
  refine h.step (a := [.block 18, .cmd, .rep]) ?_ hp
  unfold State.releaseCompletions
  repeat' first
    | with_reducible exact Within.refl _ _
    | with_reducible assumption
    | (show Part.sub _ _ = true; rfl)
    | (extract_lets +onlyGivenNames x; with_reducible refine Within.cut (u := x) ?_ ?_; rotate_left; intro hx; clear_value x; rename' x => y; rotate_right; unfold x; clear x)
    | (extract_lets +onlyGivenNames x; clear_value x; rename' x => z)
    | (extract_lets +onlyGivenNames x; rename' x => z)
    | dsimp -zeta only
    | with_reducible apply State.finish_frame
    | with_reducible apply State.setRep_frame
    | with_reducible apply Within.ite
    | (with_reducible refine Within.foldl _ ?_ ?_; rotate_left; intro _ _)
    | (with_reducible refine Within.foldl_snd _ ?_ ?_; rotate_left; intro _ _)
    | fail_if_no_progress (with_reducible refine Within.put (a := []) ?_ rfl rfl rfl rfl rfl)
    | split

theorem State.breakSet_frame {ps s t} n code event (h : Within ps s t) (hp : Part.sub [.block 4, .block 6, .block 18, .evt, .nor, .host, .cmd, .rep, .out, .hostWait] ps = true) : Within ps s (State.breakSet t n code event) := by
  refine h.step (a := [.block 4, .block 6, .block 18, .evt, .nor, .host, .cmd, .rep, .out, .hostWait]) ?_ hp
  unfold State.breakSet
  repeat' first
    | with_reducible exact Within.refl _ _
    | with_reducible assumption
    | (show Part.sub _ _ = true; rfl)
    | dsimp -zeta only
    | with_reducible apply State.wr_frame
    | with_reducible apply State.event1_frame
    | with_reducible apply State.setRep_frame
    | with_reducible apply State.releaseAll_frame
    | with_reducible apply Within.ite
    | fail_if_no_progress (with_reducible refine Within.put (a := []) ?_ rfl rfl rfl rfl rfl)
    | split

theorem State.startSession_frame {ps s t} n (h : Within ps s t) (hp : Part.sub [.block 4, .block 6, .block 18, .evt, .nor, .host, .cmd, .rep, .out, .hostWait] ps = true) : Within ps s (State.startSession t n) := by
  refine h.step (a := [.block 4, .block 6, .block 18, .evt, .nor, .host, .cmd, .rep, .out, .hostWait]) ?_ hp
  unfold State.startSession
  repeat' first
    | with_reducible exact Within.refl _ _
    | with_reducible assumption
    | (show Part.sub _ _ = true; rfl)
    | (extract_lets +onlyGivenNames x; with_reducible refine Within.cut (u := x) ?_ ?_; rotate_left; intro hx; clear_value x; rename' x => y; rotate_right; unfold x; clear x)
    | (extract_lets +onlyGivenNames x; clear_value x; rename' x => z)
    | (extract_lets +onlyGivenNames x; rename' x => z)
    | dsimp -zeta only
    | with_reducible apply State.setRep_frame
    | with_reducible apply State.breakSet_frame
    | with_reducible apply Within.ite
    | fail_if_no_progress (with_reducible refine Within.put (a := []) ?_ rfl rfl rfl rfl rfl)
    | split

theorem State.pumpShip_frame {ps s t} n job (h : Within ps s t) (hp : Part.sub [.block 4, .block 6, .block 11, .block 18, .evt, .nor, .host, .cmd, .rep, .free, .out, .hostWait] ps = true) : Within ps s (State.pumpShip t n job) := by
  refine h.step (a := [.block 4, .block 6, .block 11, .block 18, .evt, .nor, .host, .cmd, .rep, .free, .out, .hostWait]) ?_ hp
  unfold State.pumpShip
  repeat' first
    | with_reducible exact Within.refl _ _
    | with_reducible assumption
    | (show Part.sub _ _ = true; rfl)
    | (extract_lets +onlyGivenNames x; with_reducible refine Within.cut (u := x) ?_ ?_; rotate_left; intro hx; clear_value x; rename' x => y; rotate_right; unfold x; clear x)
    | (extract_lets +onlyGivenNames x; clear_value x; rename' x => z)
    | (extract_lets +onlyGivenNames x; rename' x => z)
    | dsimp -zeta only
    | with_reducible apply State.setRep_frame
    | with_reducible apply State.sendEnvelope_frame
    | with_reducible apply State.drainWrites_frame
    | with_reducible apply Within.ite
    | (with_reducible refine Within.foldl _ ?_ ?_; rotate_left; intro _ _)
    | (with_reducible refine Within.foldl_snd _ ?_ ?_; rotate_left; intro _ _)
    | fail_if_no_progress (with_reducible refine Within.put (a := []) ?_ rfl rfl rfl rfl rfl)
    | split

theorem State.shipUnit_frame {ps s t} n job k copy (h : Within ps s t) (hp : Part.sub [.block 4, .block 6, .block 11, .block 18, .evt, .nor, .host, .cmd, .rep, .free, .out, .hostWait] ps = true) : Within ps s (State.shipUnit t n job k copy) := by
  refine h.step (a := [.block 4, .block 6, .block 11, .block 18, .evt, .nor, .host, .cmd, .rep, .free, .out, .hostWait]) ?_ hp
  unfold State.shipUnit
  repeat' first
    | with_reducible exact Within.refl _ _
    | with_reducible assumption
    | (show Part.sub _ _ = true; rfl)
    | (extract_lets +onlyGivenNames x; with_reducible refine Within.cut (u := x) ?_ ?_; rotate_left; intro hx; clear_value x; rename' x => y; rotate_right; unfold x; clear x)
    | (extract_lets +onlyGivenNames x; clear_value x; rename' x => z)
    | (extract_lets +onlyGivenNames x; rename' x => z)
    | dsimp -zeta only
    | with_reducible apply State.setRep_frame
    | with_reducible apply State.pumpShip_frame
    | with_reducible apply Within.ite
    | fail_if_no_progress (with_reducible refine Within.put (a := []) ?_ rfl rfl rfl rfl rfl)
    | split

theorem State.sendRepAck_frame {ps s t} n head result refused wants (h : Within ps s t) (hp : Part.sub [.block 4, .block 6, .block 11, .block 18, .evt, .nor, .host, .rep, .free, .out, .hostWait] ps = true) : Within ps s (State.sendRepAck t n head result refused wants) := by
  refine h.step (a := [.block 4, .block 6, .block 11, .block 18, .evt, .nor, .host, .rep, .free, .out, .hostWait]) ?_ hp
  unfold State.sendRepAck
  repeat' first
    | with_reducible exact Within.refl _ _
    | with_reducible assumption
    | (show Part.sub _ _ = true; rfl)
    | (extract_lets +onlyGivenNames x; with_reducible refine Within.cut (u := x) ?_ ?_; rotate_left; intro hx; clear_value x; rename' x => y; rotate_right; unfold x; clear x)
    | (extract_lets +onlyGivenNames x; clear_value x; rename' x => z)
    | (extract_lets +onlyGivenNames x; rename' x => z)
    | dsimp -zeta only
    | with_reducible apply State.nextEnvelope_frame
    | with_reducible apply State.postEnvelope_frame
    | with_reducible apply Within.ite
    | fail_if_no_progress (with_reducible refine Within.put (a := []) ?_ rfl rfl rfl rfl rfl)
    | split

theorem State.takeAnchor_frame {ps s t} n bt (h : Within ps s t) (hp : Part.sub [.block 13, .block 18, .block 20, .sig, .map, .rep, .store] ps = true) : Within ps s (State.takeAnchor t n bt) := by
  refine h.step (a := [.block 13, .block 18, .block 20, .sig, .map, .rep, .store]) ?_ hp
  unfold State.takeAnchor
  repeat' first
    | with_reducible exact Within.refl _ _
    | with_reducible assumption
    | (show Part.sub _ _ = true; rfl)
    | (extract_lets +onlyGivenNames x; with_reducible refine Within.cut (u := x) ?_ ?_; rotate_left; intro hx; clear_value x; rename' x => y; rotate_right; unfold x; clear x)
    | (extract_lets +onlyGivenNames x; clear_value x; rename' x => z)
    | (extract_lets +onlyGivenNames x; rename' x => z)
    | dsimp -zeta only
    | with_reducible apply State.dropPage_frame
    | with_reducible apply State.setRoot_frame
    | with_reducible apply State.takeCut_frame
    | with_reducible apply State.removeSnap_frame
    | with_reducible apply State.setRep_frame
    | with_reducible apply Within.ite
    | (with_reducible refine Within.foldl _ ?_ ?_; rotate_left; intro _ _)
    | (with_reducible refine Within.foldl_snd _ ?_ ?_; rotate_left; intro _ _)
    | fail_if_no_progress (with_reducible refine Within.put (a := []) ?_ rfl rfl rfl rfl rfl)
    | split

theorem State.settleStream_frame {ps s t} n head (h : Within ps s t) (hp : Part.sub [.block 4, .block 6, .block 11, .block 13, .block 18, .block 20, .evt, .nor, .host, .sig, .map, .rep, .store, .free, .out, .hostWait] ps = true) : Within ps s (State.settleStream t n head) := by
  refine h.step (a := [.block 4, .block 6, .block 11, .block 13, .block 18, .block 20, .evt, .nor, .host, .sig, .map, .rep, .store, .free, .out, .hostWait]) ?_ hp
  unfold State.settleStream
  repeat' first
    | with_reducible exact Within.refl _ _
    | with_reducible assumption
    | (show Part.sub _ _ = true; rfl)
    | (extract_lets +onlyGivenNames x; with_reducible refine Within.cut (u := x) ?_ ?_; rotate_left; intro hx; clear_value x; rename' x => y; rotate_right; unfold x; clear x)
    | (extract_lets +onlyGivenNames x; clear_value x; rename' x => z)
    | (extract_lets +onlyGivenNames x; rename' x => z)
    | dsimp -zeta only
    | with_reducible apply State.setRep_frame
    | with_reducible apply State.sendRepAck_frame
    | with_reducible apply State.takeAnchor_frame
    | with_reducible apply Within.ite
    | (with_reducible refine Within.foldl _ ?_ ?_; rotate_left; intro _ _)
    | (with_reducible refine Within.foldl_snd _ ?_ ?_; rotate_left; intro _ _)
    | fail_if_no_progress (with_reducible refine Within.put (a := []) ?_ rfl rfl rfl rfl rfl)
    | split

theorem State.settleRep_frame {ps s t}  (h : Within ps s t) (hp : Part.sub [.block 4, .block 6, .block 11, .block 13, .block 18, .block 20, .evt, .nor, .host, .sig, .map, .rep, .store, .free, .out, .hostWait] ps = true) : Within ps s (State.settleRep t) := by
  refine h.step (a := [.block 4, .block 6, .block 11, .block 13, .block 18, .block 20, .evt, .nor, .host, .sig, .map, .rep, .store, .free, .out, .hostWait]) ?_ hp
  unfold State.settleRep
  repeat' first
    | with_reducible exact Within.refl _ _
    | with_reducible assumption
    | (show Part.sub _ _ = true; rfl)
    | dsimp -zeta only
    | with_reducible apply State.settleStream_frame
    | with_reducible apply Within.ite
    | (with_reducible refine Within.foldl _ ?_ ?_; rotate_left; intro _ _)
    | (with_reducible refine Within.foldl_snd _ ?_ ?_; rotate_left; intro _ _)
    | split

end Sys2Proof.Machine
end

