-- ==== Sys2Proof/Laws/FrameWriteCore.lean ====
section
/-!
SUPPORT. Laws/FrameWriteCore.lean: what the definitions of Machine/WriteCore.lean leave alone: each changes the listed parts at most, and keeps the
canonical form.
-/
namespace Sys2Proof.Machine
open Sys2Proof

set_option Elab.async false
set_option linter.all false

theorem State.failWrite_frame {ps s t} bt st event (h : Within ps s t) (hp : Part.sub [.block 4, .block 6, .block 12, .block 13, .block 19, .block 20, .evt, .nor, .host, .cmd, .ddp, .keys, .sig, .lfl, .map, .prg, .chan, .store, .out, .hostWait] ps = true) : Within ps s (State.failWrite t bt st event) := by
  refine h.step (a := [.block 4, .block 6, .block 12, .block 13, .block 19, .block 20, .evt, .nor, .host, .cmd, .ddp, .keys, .sig, .lfl, .map, .prg, .chan, .store, .out, .hostWait]) ?_ hp
  unfold State.failWrite
  repeat' first
    | with_reducible exact Within.refl _ _
    | with_reducible assumption
    | (show Part.sub _ _ = true; rfl)
    | (extract_lets +onlyGivenNames x; with_reducible refine Within.cut (u := x) ?_ ?_; rotate_left; intro hx; clear_value x; rename' x => y; rotate_right; unfold x; clear x)
    | (extract_lets +onlyGivenNames x; clear_value x; rename' x => z)
    | (extract_lets +onlyGivenNames x; rename' x => z)
    | dsimp -zeta only
    | with_reducible apply State.event1_frame
    | with_reducible apply State.cancelWith_frame
    | with_reducible apply Within.ite
    | fail_if_no_progress (with_reducible refine Within.put (a := []) ?_ rfl rfl rfl rfl rfl)
    | split

theorem State.modWrite_frame {ps s t} bt f (h : Within ps s t) (hp : Part.sub [.cmd] ps = true) : Within ps s (State.modWrite t bt f) := by
  refine h.step (a := [.cmd]) ?_ hp
  unfold State.modWrite
  repeat' first
    | with_reducible exact Within.refl _ _
    | with_reducible assumption
    | (show Part.sub _ _ = true; rfl)
    | dsimp -zeta only
    | with_reducible apply State.modTag_frame
    | with_reducible apply Within.ite
    | fail_if_no_progress (with_reducible refine Within.put (a := []) ?_ rfl rfl rfl rfl rfl)
    | split

theorem State.modChunk_frame {ps s t} bt off f (h : Within ps s t) (hp : Part.sub [.cmd] ps = true) : Within ps s (State.modChunk t bt off f) := by
  refine h.step (a := [.cmd]) ?_ hp
  unfold State.modChunk
  repeat' first
    | with_reducible exact Within.refl _ _
    | with_reducible assumption
    | (show Part.sub _ _ = true; rfl)
    | dsimp -zeta only
    | with_reducible apply State.modWrite_frame
    | with_reducible apply Within.ite
    | fail_if_no_progress (with_reducible refine Within.put (a := []) ?_ rfl rfl rfl rfl rfl)
    | split

theorem State.forwardUnit_frame {ps s t} bt e container (h : Within ps s t) (hp : Part.sub [.chan, .out] ps = true) : Within ps s (State.forwardUnit t bt e container) := by
  refine h.step (a := [.chan, .out]) ?_ hp
  unfold State.forwardUnit
  repeat' first
    | with_reducible exact Within.refl _ _
    | with_reducible assumption
    | (show Part.sub _ _ = true; rfl)
    | (extract_lets +onlyGivenNames x; with_reducible refine Within.cut (u := x) ?_ ?_; rotate_left; intro hx; clear_value x; rename' x => y; rotate_right; unfold x; clear x)
    | (extract_lets +onlyGivenNames x; clear_value x; rename' x => z)
    | (extract_lets +onlyGivenNames x; rename' x => z)
    | dsimp -zeta only
    | with_reducible apply State.sendRing_frame
    | with_reducible apply Within.ite
    | fail_if_no_progress (with_reducible refine Within.put (a := []) ?_ rfl rfl rfl rfl rfl)
    | split

theorem State.cipherFault_frame {ps s t} bt (h : Within ps s t) (hp : Part.sub [.block 4, .block 6, .block 11, .block 12, .block 13, .block 19, .block 20, .evt, .nor, .host, .cmd, .ddp, .keys, .sig, .lfl, .map, .prg, .chan, .store, .free, .out, .hostWait] ps = true) : Within ps s (State.cipherFault t bt) := by
  refine h.step (a := [.block 4, .block 6, .block 11, .block 12, .block 13, .block 19, .block 20, .evt, .nor, .host, .cmd, .ddp, .keys, .sig, .lfl, .map, .prg, .chan, .store, .free, .out, .hostWait]) ?_ hp
  unfold State.cipherFault
  repeat' first
    | with_reducible exact Within.refl _ _
    | with_reducible assumption
    | (show Part.sub _ _ = true; rfl)
    | (extract_lets +onlyGivenNames x; with_reducible refine Within.cut (u := x) ?_ ?_; rotate_left; intro hx; clear_value x; rename' x => y; rotate_right; unfold x; clear x)
    | (extract_lets +onlyGivenNames x; clear_value x; rename' x => z)
    | (extract_lets +onlyGivenNames x; rename' x => z)
    | dsimp -zeta only
    | with_reducible apply State.bump_frame
    | with_reducible apply State.fresh_frame
    | with_reducible apply State.failWrite_frame
    | with_reducible apply Within.ite
    | split
    | (with_reducible refine Within.of_pair (by assumption) ?_)

theorem State.forwardChunk_frame {ps s t} bt domain k fp (h : Within ps s t) (hp : Part.sub [.block 4, .block 6, .block 11, .block 12, .block 13, .block 19, .block 20, .evt, .nor, .host, .cmd, .ddp, .keys, .sig, .lfl, .map, .prg, .chan, .store, .free, .out, .hostWait] ps = true) : Within ps s (State.forwardChunk t bt domain k fp) := by
  refine h.step (a := [.block 4, .block 6, .block 11, .block 12, .block 13, .block 19, .block 20, .evt, .nor, .host, .cmd, .ddp, .keys, .sig, .lfl, .map, .prg, .chan, .store, .free, .out, .hostWait]) ?_ hp
  unfold State.forwardChunk
  repeat' first
    | with_reducible exact Within.refl _ _
    | with_reducible assumption
    | (show Part.sub _ _ = true; rfl)
    | (extract_lets +onlyGivenNames x; with_reducible refine Within.cut (u := x) ?_ ?_; rotate_left; intro hx; clear_value x; rename' x => y; rotate_right; unfold x; clear x)
    | (extract_lets +onlyGivenNames x; clear_value x; rename' x => z)
    | (extract_lets +onlyGivenNames x; rename' x => z)
    | dsimp -zeta only
    | with_reducible apply State.dummyRound_frame
    | with_reducible apply State.sendRing_frame
    | with_reducible apply State.failWrite_frame
    | with_reducible apply State.modChunk_frame
    | with_reducible apply State.forwardUnit_frame
    | with_reducible apply State.cipherFault_frame
    | with_reducible apply Within.ite
    | fail_if_no_progress (with_reducible refine Within.put (a := []) ?_ rfl rfl rfl rfl rfl)
    | split
    | (with_reducible refine Within.of_pair (by assumption) ?_)

theorem State.useStates_frame {ps s t} lane slot (h : Within ps s t) (hp : Part.sub [.bnd] ps = true) : Within ps s (State.useStates t lane slot) := by
  refine h.step (a := [.bnd]) ?_ hp
  unfold State.useStates
  repeat' first
    | with_reducible exact Within.refl _ _
    | with_reducible assumption
    | (show Part.sub _ _ = true; rfl)
    | dsimp -zeta only
    | with_reducible apply Within.ite
    | fail_if_no_progress (with_reducible refine Within.put (a := [.bnd]) ?_ rfl rfl rfl rfl rfl)
    | split

theorem State.askChunk_frame {ps s t} bt domain k (h : Within ps s t) (hp : Part.sub [.block 4, .block 6, .block 11, .block 12, .block 13, .block 19, .block 20, .evt, .nor, .host, .cmd, .bnd, .ddp, .keys, .sig, .lfl, .map, .prg, .chan, .store, .free, .out, .hostWait] ps = true) : Within ps s (State.askChunk t bt domain k) := by
  refine h.step (a := [.block 4, .block 6, .block 11, .block 12, .block 13, .block 19, .block 20, .evt, .nor, .host, .cmd, .bnd, .ddp, .keys, .sig, .lfl, .map, .prg, .chan, .store, .free, .out, .hostWait]) ?_ hp
  unfold State.askChunk
  repeat' first
    | with_reducible exact Within.refl _ _
    | with_reducible assumption
    | (show Part.sub _ _ = true; rfl)
    | (extract_lets +onlyGivenNames x; with_reducible refine Within.cut (u := x) ?_ ?_; rotate_left; intro hx; clear_value x; rename' x => y; rotate_right; unfold x; clear x)
    | (extract_lets +onlyGivenNames x; clear_value x; rename' x => z)
    | (extract_lets +onlyGivenNames x; rename' x => z)
    | dsimp -zeta only
    | with_reducible apply State.send_frame
    | with_reducible apply State.failWrite_frame
    | with_reducible apply State.modChunk_frame
    | with_reducible apply State.forwardChunk_frame
    | with_reducible apply State.useStates_frame
    | with_reducible apply Within.ite
    | fail_if_no_progress (with_reducible refine Within.put (a := []) ?_ rfl rfl rfl rfl rfl)
    | split

theorem State.storeChunk_frame {ps s t} bt domain k noIndex (h : Within ps s t) (hp : Part.sub [.block 4, .block 6, .block 11, .block 12, .block 13, .block 19, .block 20, .evt, .nor, .host, .cmd, .ddp, .keys, .sig, .lfl, .map, .prg, .chan, .store, .out, .hostWait] ps = true) : Within ps s (State.storeChunk t bt domain k noIndex) := by
  refine h.step (a := [.block 4, .block 6, .block 11, .block 12, .block 13, .block 19, .block 20, .evt, .nor, .host, .cmd, .ddp, .keys, .sig, .lfl, .map, .prg, .chan, .store, .out, .hostWait]) ?_ hp
  unfold State.storeChunk
  repeat' first
    | with_reducible exact Within.refl _ _
    | with_reducible assumption
    | (show Part.sub _ _ = true; rfl)
    | (extract_lets +onlyGivenNames x; with_reducible refine Within.cut (u := x) ?_ ?_; rotate_left; intro hx; clear_value x; rename' x => y; rotate_right; unfold x; clear x)
    | (extract_lets +onlyGivenNames x; clear_value x; rename' x => z)
    | (extract_lets +onlyGivenNames x; rename' x => z)
    | dsimp -zeta only
    | with_reducible apply State.bump_frame
    | with_reducible apply State.failWrite_frame
    | with_reducible apply State.modChunk_frame
    | with_reducible apply Within.ite
    | fail_if_no_progress (with_reducible refine Within.put (a := []) ?_ rfl rfl rfl rfl rfl)
    | split

theorem State.cutChunk_frame {ps s t} bt domain total g off bytes (h : Within ps s t) (hp : Part.sub [.block 4, .block 6, .block 11, .block 12, .block 13, .block 19, .block 20, .evt, .nor, .host, .cmd, .bnd, .ddp, .keys, .sig, .lfl, .map, .prg, .chan, .store, .free, .out, .hostWait] ps = true) : Within ps s (State.cutChunk t bt domain total g off bytes) := by
  refine h.step (a := [.block 4, .block 6, .block 11, .block 12, .block 13, .block 19, .block 20, .evt, .nor, .host, .cmd, .bnd, .ddp, .keys, .sig, .lfl, .map, .prg, .chan, .store, .free, .out, .hostWait]) ?_ hp
  unfold State.cutChunk
  repeat' first
    | with_reducible exact Within.refl _ _
    | with_reducible assumption
    | (show Part.sub _ _ = true; rfl)
    | (extract_lets +onlyGivenNames x; with_reducible refine Within.cut (u := x) ?_ ?_; rotate_left; intro hx; clear_value x; rename' x => y; rotate_right; unfold x; clear x)
    | (extract_lets +onlyGivenNames x; clear_value x; rename' x => z)
    | (extract_lets +onlyGivenNames x; rename' x => z)
    | dsimp -zeta only
    | with_reducible apply State.bump_frame
    | with_reducible apply State.dummyRound_frame
    | with_reducible apply State.modWrite_frame
    | with_reducible apply State.modChunk_frame
    | with_reducible apply State.forwardUnit_frame
    | with_reducible apply State.cipherFault_frame
    | with_reducible apply State.forwardChunk_frame
    | with_reducible apply State.askChunk_frame
    | with_reducible apply State.storeChunk_frame
    | with_reducible apply Within.ite
    | fail_if_no_progress (with_reducible refine Within.put (a := [.bnd]) ?_ rfl rfl rfl rfl rfl)
    | split
    | (with_reducible refine Within.of_pair (by assumption) ?_)

theorem State.serveStream_frame {ps s t} ticket g (h : Within ps s t) (hp : Part.sub [.block 11, .bnd] ps = true) : Within ps s (State.serveStream t ticket g) := by
  refine h.step (a := [.block 11, .bnd]) ?_ hp
  unfold State.serveStream
  repeat' first
    | with_reducible exact Within.refl _ _
    | with_reducible assumption
    | (show Part.sub _ _ = true; rfl)
    | (extract_lets +onlyGivenNames x; with_reducible refine Within.cut (u := x) ?_ ?_; rotate_left; intro hx; clear_value x; rename' x => y; rotate_right; unfold x; clear x)
    | (extract_lets +onlyGivenNames x; clear_value x; rename' x => z)
    | (extract_lets +onlyGivenNames x; rename' x => z)
    | dsimp -zeta only
    | with_reducible apply State.bump_frame
    | with_reducible apply Within.ite
    | fail_if_no_progress (with_reducible refine Within.put (a := [.bnd]) ?_ rfl rfl rfl rfl rfl)
    | split

theorem State.takeIn_frame {ps s t} bt segOff (h : Within ps s t) (hp : Part.sub [.block 4, .block 6, .block 11, .block 12, .block 13, .block 19, .block 20, .evt, .nor, .host, .cmd, .bnd, .ddp, .keys, .sig, .lfl, .map, .prg, .chan, .store, .free, .out, .hostWait] ps = true) : Within ps s (State.takeIn t bt segOff) := by
  refine h.step (a := [.block 4, .block 6, .block 11, .block 12, .block 13, .block 19, .block 20, .evt, .nor, .host, .cmd, .bnd, .ddp, .keys, .sig, .lfl, .map, .prg, .chan, .store, .free, .out, .hostWait]) ?_ hp
  unfold State.takeIn
  repeat' first
    | with_reducible exact Within.refl _ _
    | with_reducible assumption
    | (show Part.sub _ _ = true; rfl)
    | (extract_lets +onlyGivenNames x; with_reducible refine Within.cut (u := x) ?_ ?_; rotate_left; intro hx; clear_value x; rename' x => y; rotate_right; unfold x; clear x)
    | (extract_lets +onlyGivenNames x; clear_value x; rename' x => z)
    | (extract_lets +onlyGivenNames x; rename' x => z)
    | dsimp -zeta only
    | with_reducible apply State.modWrite_frame
    | with_reducible apply State.cutChunk_frame
    | with_reducible apply State.serveStream_frame
    | with_reducible apply Within.ite
    | (with_reducible refine Within.foldl _ ?_ ?_; rotate_left; intro _ _)
    | (with_reducible refine Within.foldl_snd _ ?_ ?_; rotate_left; intro _ _)
    | fail_if_no_progress (with_reducible refine Within.put (a := []) ?_ rfl rfl rfl rfl rfl)
    | split

theorem State.feedSegment_frame {ps s t} bt segOff bytes (h : Within ps s t) (hp : Part.sub [.block 4, .block 6, .block 11, .block 12, .block 13, .block 19, .block 20, .evt, .nor, .host, .cmd, .bnd, .ddp, .keys, .sig, .lfl, .map, .prg, .chan, .store, .free, .out, .hostWait] ps = true) : Within ps s (State.feedSegment t bt segOff bytes) := by
  refine h.step (a := [.block 4, .block 6, .block 11, .block 12, .block 13, .block 19, .block 20, .evt, .nor, .host, .cmd, .bnd, .ddp, .keys, .sig, .lfl, .map, .prg, .chan, .store, .free, .out, .hostWait]) ?_ hp
  unfold State.feedSegment
  repeat' first
    | with_reducible exact Within.refl _ _
    | with_reducible assumption
    | (show Part.sub _ _ = true; rfl)
    | dsimp -zeta only
    | with_reducible apply State.modWrite_frame
    | with_reducible apply State.takeIn_frame
    | with_reducible apply Within.ite
    | fail_if_no_progress (with_reducible refine Within.put (a := []) ?_ rfl rfl rfl rfl rfl)
    | split

theorem State.takeForwarded_frame {ps s t} bt domain k (h : Within ps s t) (hp : Part.sub [.block 4, .block 6, .block 11, .block 12, .block 13, .block 19, .block 20, .evt, .nor, .host, .cmd, .ddp, .keys, .sig, .lfl, .map, .prg, .chan, .store, .out, .hostWait] ps = true) : Within ps s (State.takeForwarded t bt domain k) := by
  refine h.step (a := [.block 4, .block 6, .block 11, .block 12, .block 13, .block 19, .block 20, .evt, .nor, .host, .cmd, .ddp, .keys, .sig, .lfl, .map, .prg, .chan, .store, .out, .hostWait]) ?_ hp
  unfold State.takeForwarded
  repeat' first
    | with_reducible exact Within.refl _ _
    | with_reducible assumption
    | (show Part.sub _ _ = true; rfl)
    | dsimp -zeta only
    | with_reducible apply State.send_frame
    | with_reducible apply State.modChunk_frame
    | with_reducible apply State.storeChunk_frame
    | with_reducible apply Within.ite
    | fail_if_no_progress (with_reducible refine Within.put (a := []) ?_ rfl rfl rfl rfl rfl)
    | split

theorem State.noteDirty_frame {ps s t}  (h : Within ps s t) (hp : Part.sub [.block 13, .block 20, .sig, .map, .store] ps = true) : Within ps s (State.noteDirty t) := by
  refine h.step (a := [.block 13, .block 20, .sig, .map, .store]) ?_ hp
  unfold State.noteDirty
  repeat' first
    | with_reducible exact Within.refl _ _
    | with_reducible assumption
    | (show Part.sub _ _ = true; rfl)
    | dsimp -zeta only
    | with_reducible apply State.wr_frame
    | with_reducible apply State.noteMeta_frame
    | with_reducible apply Within.ite
    | split

theorem State.setOwn_frame {ps s t} n g (h : Within ps s t) (hp : Part.sub [.block 13, .block 20, .wc, .sig, .map, .store] ps = true) : Within ps s (State.setOwn t n g) := by
  refine h.step (a := [.block 13, .block 20, .wc, .sig, .map, .store]) ?_ hp
  unfold State.setOwn
  repeat' first
    | with_reducible exact Within.refl _ _
    | with_reducible assumption
    | (show Part.sub _ _ = true; rfl)
    | dsimp -zeta only
    | with_reducible apply State.noteDirty_frame
    | with_reducible apply Within.ite
    | fail_if_no_progress (with_reducible refine Within.put (a := [.wc]) ?_ rfl rfl rfl rfl rfl)
    | split

theorem State.roomFor_frame {ps s t} lane len (h : Within ps s t) (hp : Part.sub [.block 13, .block 20, .wc, .sig, .map, .store] ps = true) : Within ps s (State.roomFor t lane len).2 := by
  refine h.step (a := [.block 13, .block 20, .wc, .sig, .map, .store]) ?_ hp
  unfold State.roomFor
  repeat' first
    | with_reducible exact Within.refl _ _
    | with_reducible assumption
    | (show Part.sub _ _ = true; rfl)
    | (extract_lets +onlyGivenNames x; with_reducible refine Within.cut (u := x) ?_ ?_; rotate_left; intro hx; clear_value x; rename' x => y; rotate_right; unfold x; clear x)
    | (extract_lets +onlyGivenNames x; clear_value x; rename' x => z)
    | (extract_lets +onlyGivenNames x; rename' x => z)
    | dsimp -zeta only
    | with_reducible apply State.setOwn_frame
    | with_reducible apply Within.ite
    | fail_if_no_progress (with_reducible refine Within.put (a := []) ?_ rfl rfl rfl rfl rfl)
    | split

theorem State.noteMirror_frame {ps s t}  (h : Within ps s t) (hp : Part.sub [.block 20] ps = true) : Within ps s (State.noteMirror t) := by
  refine h.step (a := [.block 20]) ?_ hp
  unfold State.noteMirror
  repeat' first
    | with_reducible exact Within.refl _ _
    | with_reducible assumption
    | (show Part.sub _ _ = true; rfl)
    | (extract_lets +onlyGivenNames x; with_reducible refine Within.cut (u := x) ?_ ?_; rotate_left; intro hx; clear_value x; rename' x => y; rotate_right; unfold x; clear x)
    | (extract_lets +onlyGivenNames x; clear_value x; rename' x => z)
    | (extract_lets +onlyGivenNames x; rename' x => z)
    | dsimp -zeta only
    | with_reducible apply State.wr_frame
    | with_reducible apply Within.ite
    | fail_if_no_progress (with_reducible refine Within.put (a := []) ?_ rfl rfl rfl rfl rfl)
    | split

theorem State.sendRecord_frame {ps s t} n x (h : Within ps s t) (hp : Part.sub [.wc, .chan, .out] ps = true) : Within ps s (State.sendRecord t n x) := by
  refine h.step (a := [.wc, .chan, .out]) ?_ hp
  unfold State.sendRecord
  repeat' first
    | with_reducible exact Within.refl _ _
    | with_reducible assumption
    | (show Part.sub _ _ = true; rfl)
    | dsimp -zeta only
    | with_reducible apply State.sendRing_frame
    | with_reducible apply Within.ite
    | fail_if_no_progress (with_reducible refine Within.put (a := [.wc]) ?_ rfl rfl rfl rfl rfl)
    | split

theorem State.pumpMirror_frame {ps s t}  (h : Within ps s t) (hp : Part.sub [.wc, .chan, .out] ps = true) : Within ps s (State.pumpMirror t) := by
  refine h.step (a := [.wc, .chan, .out]) ?_ hp
  unfold State.pumpMirror
  repeat' first
    | with_reducible exact Within.refl _ _
    | with_reducible assumption
    | (show Part.sub _ _ = true; rfl)
    | (extract_lets +onlyGivenNames x; with_reducible refine Within.cut (u := x) ?_ ?_; rotate_left; intro hx; clear_value x; rename' x => y; rotate_right; unfold x; clear x)
    | (extract_lets +onlyGivenNames x; clear_value x; rename' x => z)
    | (extract_lets +onlyGivenNames x; rename' x => z)
    | dsimp -zeta only
    | with_reducible apply State.sendRecord_frame
    | with_reducible apply Within.ite
    | (with_reducible refine Within.foldl _ ?_ ?_; rotate_left; intro _ _)
    | (with_reducible refine Within.foldl_snd _ ?_ ?_; rotate_left; intro _ _)
    | split

theorem State.mirrorRecord_frame {ps s t} r (h : Within ps s t) (hp : Part.sub [.block 20, .wc, .chan, .out] ps = true) : Within ps s (State.mirrorRecord t r).2 := by
  refine h.step (a := [.block 20, .wc, .chan, .out]) ?_ hp
  unfold State.mirrorRecord
  repeat' first
    | with_reducible exact Within.refl _ _
    | with_reducible assumption
    | (show Part.sub _ _ = true; rfl)
    | (extract_lets +onlyGivenNames x; with_reducible refine Within.cut (u := x) ?_ ?_; rotate_left; intro hx; clear_value x; rename' x => y; rotate_right; unfold x; clear x)
    | (extract_lets +onlyGivenNames x; clear_value x; rename' x => z)
    | (extract_lets +onlyGivenNames x; rename' x => z)
    | dsimp -zeta only
    | with_reducible apply State.noteMirror_frame
    | with_reducible apply State.pumpMirror_frame
    | with_reducible apply Within.ite
    | fail_if_no_progress (with_reducible refine Within.put (a := [.wc]) ?_ rfl rfl rfl rfl rfl)
    | split

theorem State.queueRecord_frame {ps s t} r (h : Within ps s t) (hp : Part.sub [.block 13, .block 20, .wc, .sig, .map, .chan, .store, .out] ps = true) : Within ps s (State.queueRecord t r).2 := by
  refine h.step (a := [.block 13, .block 20, .wc, .sig, .map, .chan, .store, .out]) ?_ hp
  unfold State.queueRecord
  repeat' first
    | with_reducible exact Within.refl _ _
    | with_reducible assumption
    | (show Part.sub _ _ = true; rfl)
    | (extract_lets +onlyGivenNames x; with_reducible refine Within.cut (u := x) ?_ ?_; rotate_left; intro hx; clear_value x; rename' x => y; rotate_right; unfold x; clear x)
    | (extract_lets +onlyGivenNames x; clear_value x; rename' x => z)
    | (extract_lets +onlyGivenNames x; rename' x => z)
    | dsimp -zeta only
    | with_reducible apply State.setOwn_frame
    | with_reducible apply State.mirrorRecord_frame
    | with_reducible apply Within.ite
    | fail_if_no_progress (with_reducible refine Within.put (a := []) ?_ rfl rfl rfl rfl rfl)
    | split
    | (with_reducible refine Within.of_pair (by assumption) ?_)

theorem State.indexDelta_frame {ps s t} domain delta journals (h : Within ps s t) (hp : Part.sub [.regs, .holding, .evt, .nor, .host, .ddp, .sig, .map, .store, .free, .out, .hostWait] ps = true) : Within ps s (State.indexDelta t domain delta journals) := by
  refine h.step (a := [.regs, .holding, .evt, .nor, .host, .ddp, .sig, .map, .store, .free, .out, .hostWait]) ?_ hp
  unfold State.indexDelta
  repeat' first
    | with_reducible exact Within.refl _ _
    | with_reducible assumption
    | (show Part.sub _ _ = true; rfl)
    | (extract_lets +onlyGivenNames x; with_reducible refine Within.cut (u := x) ?_ ?_; rotate_left; intro hx; clear_value x; rename' x => y; rotate_right; unfold x; clear x)
    | (extract_lets +onlyGivenNames x; clear_value x; rename' x => z)
    | (extract_lets +onlyGivenNames x; rename' x => z)
    | dsimp -zeta only
    | with_reducible apply State.insertIndex_frame
    | with_reducible apply State.appendJournal_frame
    | with_reducible apply Within.ite
    | (with_reducible refine Within.foldl _ ?_ ?_; rotate_left; intro _ _)
    | (with_reducible refine Within.foldl_snd _ ?_ ?_; rotate_left; intro _ _)
    | fail_if_no_progress (with_reducible refine Within.put (a := []) ?_ rfl rfl rfl rfl rfl)
    | split

theorem State.countDelta_frame {ps s t} delta (h : Within ps s t) (hp : Part.sub [.keys] ps = true) : Within ps s (State.countDelta t delta) := by
  refine h.step (a := [.keys]) ?_ hp
  unfold State.countDelta
  repeat' first
    | with_reducible exact Within.refl _ _
    | with_reducible assumption
    | (show Part.sub _ _ = true; rfl)
    | (extract_lets +onlyGivenNames x; with_reducible refine Within.cut (u := x) ?_ ?_; rotate_left; intro hx; clear_value x; rename' x => y; rotate_right; unfold x; clear x)
    | (extract_lets +onlyGivenNames x; clear_value x; rename' x => z)
    | (extract_lets +onlyGivenNames x; rename' x => z)
    | dsimp -zeta only
    | with_reducible apply State.countStored_frame
    | with_reducible apply Within.ite
    | (with_reducible refine Within.foldl _ ?_ ?_; rotate_left; intro _ _)
    | (with_reducible refine Within.foldl_snd _ ?_ ?_; rotate_left; intro _ _)
    | fail_if_no_progress (with_reducible refine Within.put (a := []) ?_ rfl rfl rfl rfl rfl)
    | split

theorem State.applyWork_frame {ps s t} n k delta (h : Within ps s t) (hp : Part.sub [.block 4, .block 6, .block 12, .block 13, .block 18, .block 20, .evt, .nor, .host, .cmd, .ddp, .keys, .sig, .map, .rep, .chan, .store, .out, .hostWait] ps = true) : Within ps s (State.applyWork t n k delta) := by
  refine h.step (a := [.block 4, .block 6, .block 12, .block 13, .block 18, .block 20, .evt, .nor, .host, .cmd, .ddp, .keys, .sig, .map, .rep, .chan, .store, .out, .hostWait]) ?_ hp
  unfold State.applyWork
  repeat' first
    | with_reducible exact Within.refl _ _
    | with_reducible assumption
    | (show Part.sub _ _ = true; rfl)
    | (extract_lets +onlyGivenNames x; with_reducible refine Within.cut (u := x) ?_ ?_; rotate_left; intro hx; clear_value x; rename' x => y; rotate_right; unfold x; clear x)
    | (extract_lets +onlyGivenNames x; clear_value x; rename' x => z)
    | (extract_lets +onlyGivenNames x; rename' x => z)
    | dsimp -zeta only
    | with_reducible apply State.noteMap_frame
    | with_reducible apply State.applyRoot_frame
    | with_reducible apply State.holdRefs_frame
    | with_reducible apply State.dropRefs_frame
    | with_reducible apply State.setRep_frame
    | with_reducible apply Within.ite
    | (with_reducible refine Within.foldl _ ?_ ?_; rotate_left; intro _ _)
    | (with_reducible refine Within.foldl_snd _ ?_ ?_; rotate_left; intro _ _)
    | fail_if_no_progress (with_reducible refine Within.put (a := []) ?_ rfl rfl rfl rfl rfl)
    | split
    | (with_reducible refine Within.of_pair (by assumption) ?_)

theorem State.updateFor_frame {ps s t} c delta (h : Within ps s t) (hp : Part.sub [.block 4, .block 6, .block 12, .block 13, .block 18, .block 20, .evt, .nor, .host, .cmd, .ddp, .keys, .sig, .map, .rep, .chan, .store, .out, .hostWait] ps = true) : Within ps s (State.updateFor t c delta).2 := by
  refine h.step (a := [.block 4, .block 6, .block 12, .block 13, .block 18, .block 20, .evt, .nor, .host, .cmd, .ddp, .keys, .sig, .map, .rep, .chan, .store, .out, .hostWait]) ?_ hp
  unfold State.updateFor
  repeat' first
    | with_reducible exact Within.refl _ _
    | with_reducible assumption
    | (show Part.sub _ _ = true; rfl)
    | (extract_lets +onlyGivenNames x; with_reducible refine Within.cut (u := x) ?_ ?_; rotate_left; intro hx; clear_value x; rename' x => y; rotate_right; unfold x; clear x)
    | (extract_lets +onlyGivenNames x; clear_value x; rename' x => z)
    | (extract_lets +onlyGivenNames x; rename' x => z)
    | dsimp -zeta only
    | with_reducible apply State.updateTree_frame
    | with_reducible apply State.applyWork_frame
    | with_reducible apply Within.ite
    | fail_if_no_progress (with_reducible refine Within.put (a := [.map]) ?_ rfl rfl rfl rfl rfl)
    | split
    | (with_reducible refine Within.of_pair (by assumption) ?_)

theorem State.deferUpdate_frame {ps s t} bt nsid delta (h : Within ps s t) (hp : Part.sub [.block 13, .map] ps = true) : Within ps s (State.deferUpdate t bt nsid delta) := by
  refine h.step (a := [.block 13, .map]) ?_ hp
  unfold State.deferUpdate
  repeat' first
    | with_reducible exact Within.refl _ _
    | with_reducible assumption
    | (show Part.sub _ _ = true; rfl)
    | dsimp -zeta only
    | with_reducible apply State.raiseUpdate_frame
    | with_reducible apply Within.ite
    | fail_if_no_progress (with_reducible refine Within.put (a := [.map]) ?_ rfl rfl rfl rfl rfl)
    | split
    | (with_reducible refine Within.of_pair (by assumption) ?_)

theorem State.commitTag_frame {ps s t} bt (h : Within ps s t) (hp : Part.sub [.regs, .holding, .evt, .nor, .host, .cmd, .ddp, .keys, .sig, .map, .rep, .chan, .store, .free, .out, .hostWait] ps = true) : Within ps s (State.commitTag t bt) := by
  refine h.step (a := [.regs, .holding, .evt, .nor, .host, .cmd, .ddp, .keys, .sig, .map, .rep, .chan, .store, .free, .out, .hostWait]) ?_ hp
  unfold State.commitTag
  repeat' first
    | with_reducible exact Within.refl _ _
    | with_reducible assumption
    | (show Part.sub _ _ = true; rfl)
    | (extract_lets +onlyGivenNames x; with_reducible refine Within.cut (u := x) ?_ ?_; rotate_left; intro hx; clear_value x; rename' x => y; rotate_right; unfold x; clear x)
    | (extract_lets +onlyGivenNames x; clear_value x; rename' x => z)
    | (extract_lets +onlyGivenNames x; rename' x => z)
    | dsimp -zeta only
    | with_reducible apply State.dropPending_frame
    | with_reducible apply State.unpinChunks_frame
    | with_reducible apply State.noteTags_frame
    | with_reducible apply State.applyChange_frame
    | with_reducible apply State.metaEvent_frame
    | with_reducible apply State.settleFlush_frame
    | with_reducible apply State.finish_frame
    | with_reducible apply State.setRep_frame
    | with_reducible apply State.joinStream_frame
    | with_reducible apply State.settleRep_frame
    | with_reducible apply State.modWrite_frame
    | with_reducible apply State.indexDelta_frame
    | with_reducible apply State.countDelta_frame
    | with_reducible apply State.updateFor_frame
    | with_reducible apply State.deferUpdate_frame
    | with_reducible apply Within.ite
    | fail_if_no_progress (with_reducible refine Within.put (a := []) ?_ rfl rfl rfl rfl rfl)
    | split
    | (with_reducible refine Within.of_pair (by assumption) ?_)

theorem State.buildRecords_frame (bt nsid parts : Nat) (l : List (Nat × List RecItem)) :
    ∀ (k : Nat) (s : State) (d : List Extent) (q : List Nat) (u : State),
      State.buildRecords bt nsid parts l k s = .ok (d, q, u) → Within [.block 13, .block 20, .wc, .sig, .map, .chan, .store, .out] s u := by
  induction l with
  | nil =>
    intro k s d q u h
    simp only [State.buildRecords, Except.ok.injEq, Prod.mk.injEq] at h
    rw [← h.2.2]
    exact .refl _ _
  | cons x r ih =>
    intro k s d q u h
    obtain ⟨lane, items⟩ := x
    unfold State.buildRecords at h
    dsimp only at h
    split at h
    · cases h
    · next n opens s' e =>
      have a : Within [.block 13, .block 20, .wc, .sig, .map, .chan, .store, .out] s s' := Within.of_pair e (State.roomFor_frame _ _ (.refl _ _) (by decide))
      split at h
      · cases h
      · next e2 =>
        simp only [Except.ok.injEq, Prod.mk.injEq] at h
        rw [← h.2.2]
        exact (State.queueRecord_frame _ a (by decide)).trans (ih _ _ _ _ _ e2)

theorem State.stall_frame {ps s t} bt lane (h : Within ps s t) (hp : Part.sub [.block 13, .block 20, .cmd, .wc, .sig, .map, .store] ps = true) : Within ps s (State.stall t bt lane) := by
  refine h.step (a := [.block 13, .block 20, .cmd, .wc, .sig, .map, .store]) ?_ hp
  unfold State.stall
  repeat' first
    | with_reducible exact Within.refl _ _
    | with_reducible assumption
    | (show Part.sub _ _ = true; rfl)
    | (extract_lets +onlyGivenNames x; with_reducible refine Within.cut (u := x) ?_ ?_; rotate_left; intro hx; clear_value x; rename' x => y; rotate_right; unfold x; clear x)
    | (extract_lets +onlyGivenNames x; clear_value x; rename' x => z)
    | (extract_lets +onlyGivenNames x; rename' x => z)
    | dsimp -zeta only
    | with_reducible apply State.bump_frame
    | with_reducible apply State.modWrite_frame
    | with_reducible apply State.setOwn_frame
    | with_reducible apply Within.ite
    | fail_if_no_progress (with_reducible refine Within.put (a := [.wc]) ?_ rfl rfl rfl rfl rfl)
    | split

theorem State.fillSegs_frame {ps s t} ns (h : Within ps s t) (hp : Part.sub [.block 13, .block 20, .wc, .sig, .map, .store] ps = true) : Within ps s (State.fillSegs t ns) := by
  refine h.step (a := [.block 13, .block 20, .wc, .sig, .map, .store]) ?_ hp
  unfold State.fillSegs
  repeat' first
    | with_reducible exact Within.refl _ _
    | with_reducible assumption
    | (show Part.sub _ _ = true; rfl)
    | dsimp -zeta only
    | with_reducible apply State.setOwn_frame
    | with_reducible apply Within.ite
    | (with_reducible refine Within.foldl _ ?_ ?_; rotate_left; intro _ _)
    | (with_reducible refine Within.foldl_snd _ ?_ ?_; rotate_left; intro _ _)
    | fail_if_no_progress (with_reducible refine Within.put (a := []) ?_ rfl rfl rfl rfl rfl)
    | split

theorem State.queueItems_frame {ps s t} bt nsid lanes (h : Within ps s t) (hp : Part.sub [.block 12, .block 13, .block 19, .block 20, .cmd, .ddp, .keys, .wc, .sig, .lfl, .map, .prg, .chan, .store, .out] ps = true) :
    Within ps s (State.queueItems t bt nsid lanes) := by
  refine h.step (a := [.block 12, .block 13, .block 19, .block 20, .cmd, .ddp, .keys, .wc, .sig, .lfl, .map, .prg, .chan, .store, .out]) ?_ hp
  unfold State.queueItems
  apply Within.ite
  · exact State.cancelWith_frame _ _ (.refl _ _) (by decide)
  split
  · exact State.stall_frame _ _ (State.fillSegs_frame _ (.refl _ _) (by decide)) (by decide)
  · next e =>
    exact State.modTag_frame _ _ (State.modWrite_frame _ _
      ((State.buildRecords_frame _ _ _ _ _ _ _ _ _ e).mono (by decide)) (by decide)) (by decide)

theorem State.tryHandOff_frame {ps s t} bt (h : Within ps s t) (hp : Part.sub [.block 12, .block 13, .block 19, .block 20, .cmd, .ddp, .keys, .wc, .sig, .lfl, .map, .prg, .chan, .store, .out] ps = true) : Within ps s (State.tryHandOff t bt) := by
  refine h.step (a := [.block 12, .block 13, .block 19, .block 20, .cmd, .ddp, .keys, .wc, .sig, .lfl, .map, .prg, .chan, .store, .out]) ?_ hp
  unfold State.tryHandOff
  repeat' first
    | with_reducible exact Within.refl _ _
    | with_reducible assumption
    | (show Part.sub _ _ = true; rfl)
    | (extract_lets +onlyGivenNames x; with_reducible refine Within.cut (u := x) ?_ ?_; rotate_left; intro hx; clear_value x; rename' x => y; rotate_right; unfold x; clear x)
    | (extract_lets +onlyGivenNames x; clear_value x; rename' x => z)
    | (extract_lets +onlyGivenNames x; rename' x => z)
    | dsimp -zeta only
    | with_reducible apply State.queueItems_frame
    | with_reducible apply Within.ite
    | fail_if_no_progress (with_reducible refine Within.put (a := []) ?_ rfl rfl rfl rfl rfl)
    | split

theorem State.pumpTag_frame {ps s t} bt (h : Within ps s t) (hp : Part.sub [.block 4, .block 6, .block 11, .block 12, .block 13, .block 19, .block 20, .evt, .nor, .host, .ports, .trn, .cmd, .bnd, .ddp, .keys, .wc, .sig, .lfl, .map, .prg, .chan, .store, .free, .out, .hostWait] ps = true) : Within ps s (State.pumpTag t bt) := by
  refine h.step (a := [.block 4, .block 6, .block 11, .block 12, .block 13, .block 19, .block 20, .evt, .nor, .host, .ports, .trn, .cmd, .bnd, .ddp, .keys, .wc, .sig, .lfl, .map, .prg, .chan, .store, .free, .out, .hostWait]) ?_ hp
  unfold State.pumpTag
  repeat' first
    | with_reducible exact Within.refl _ _
    | with_reducible assumption
    | (show Part.sub _ _ = true; rfl)
    | dsimp -zeta only
    | with_reducible apply State.startSeg_frame
    | with_reducible apply State.takeIn_frame
    | with_reducible apply State.tryHandOff_frame
    | with_reducible apply Within.ite
    | (with_reducible refine Within.foldl _ ?_ ?_; rotate_left; intro _ _)
    | (with_reducible refine Within.foldl_snd _ ?_ ?_; rotate_left; intro _ _)
    | fail_if_no_progress (with_reducible refine Within.put (a := []) ?_ rfl rfl rfl rfl rfl)
    | split

theorem State.pumpLanes_frame {ps s t}  (h : Within ps s t) (hp : Part.sub [.block 4, .block 6, .block 11, .block 12, .block 13, .block 19, .block 20, .evt, .nor, .host, .ports, .trn, .cmd, .bnd, .ddp, .keys, .wc, .sig, .lfl, .map, .prg, .chan, .store, .free, .out, .hostWait] ps = true) : Within ps s (State.pumpLanes t) := by
  refine h.step (a := [.block 4, .block 6, .block 11, .block 12, .block 13, .block 19, .block 20, .evt, .nor, .host, .ports, .trn, .cmd, .bnd, .ddp, .keys, .wc, .sig, .lfl, .map, .prg, .chan, .store, .free, .out, .hostWait]) ?_ hp
  unfold State.pumpLanes
  repeat' first
    | with_reducible exact Within.refl _ _
    | with_reducible assumption
    | (show Part.sub _ _ = true; rfl)
    | dsimp -zeta only
    | with_reducible apply State.startJobs_frame
    | with_reducible apply State.pumpTag_frame
    | with_reducible apply Within.ite
    | (with_reducible refine Within.foldl _ ?_ ?_; rotate_left; intro _ _)
    | (with_reducible refine Within.foldl_snd _ ?_ ?_; rotate_left; intro _ _)
    | split

theorem State.feedInCapsule_frame {ps s t} bt (h : Within ps s t) (hp : Part.sub [.block 4, .block 6, .block 11, .block 12, .block 13, .block 19, .block 20, .evt, .nor, .host, .ports, .trn, .cmd, .bnd, .ddp, .keys, .wc, .sig, .lfl, .map, .prg, .chan, .store, .free, .out, .hostWait] ps = true) : Within ps s (State.feedInCapsule t bt) := by
  refine h.step (a := [.block 4, .block 6, .block 11, .block 12, .block 13, .block 19, .block 20, .evt, .nor, .host, .ports, .trn, .cmd, .bnd, .ddp, .keys, .wc, .sig, .lfl, .map, .prg, .chan, .store, .free, .out, .hostWait]) ?_ hp
  unfold State.feedInCapsule
  repeat' first
    | with_reducible exact Within.refl _ _
    | with_reducible assumption
    | (show Part.sub _ _ = true; rfl)
    | dsimp -zeta only
    | with_reducible apply State.modWrite_frame
    | with_reducible apply State.pumpTag_frame
    | with_reducible apply Within.ite
    | fail_if_no_progress (with_reducible refine Within.put (a := []) ?_ rfl rfl rfl rfl rfl)
    | split

theorem State.handOffExtents_frame {ps s t} bt nsid es (h : Within ps s t) (hp : Part.sub [.block 12, .block 13, .block 19, .block 20, .cmd, .ddp, .keys, .wc, .sig, .lfl, .map, .prg, .chan, .store, .out] ps = true) : Within ps s (State.handOffExtents t bt nsid es) := by
  refine h.step (a := [.block 12, .block 13, .block 19, .block 20, .cmd, .ddp, .keys, .wc, .sig, .lfl, .map, .prg, .chan, .store, .out]) ?_ hp
  unfold State.handOffExtents
  repeat' first
    | with_reducible exact Within.refl _ _
    | with_reducible assumption
    | (show Part.sub _ _ = true; rfl)
    | (extract_lets +onlyGivenNames x; with_reducible refine Within.cut (u := x) ?_ ?_; rotate_left; intro hx; clear_value x; rename' x => y; rotate_right; unfold x; clear x)
    | (extract_lets +onlyGivenNames x; clear_value x; rename' x => z)
    | (extract_lets +onlyGivenNames x; rename' x => z)
    | dsimp -zeta only
    | with_reducible apply State.modTag_frame
    | with_reducible apply State.queueItems_frame
    | with_reducible apply Within.ite
    | fail_if_no_progress (with_reducible refine Within.put (a := []) ?_ rfl rfl rfl rfl rfl)
    | split

theorem State.queueMeta_frame {ps s t} bt nsid op (h : Within ps s t) (hp : Part.sub [.block 4, .block 6, .block 12, .block 13, .block 19, .block 20, .evt, .nor, .host, .cmd, .ddp, .keys, .wc, .sig, .lfl, .map, .prg, .chan, .store, .out, .hostWait] ps = true) : Within ps s (State.queueMeta t bt nsid op) := by
  refine h.step (a := [.block 4, .block 6, .block 12, .block 13, .block 19, .block 20, .evt, .nor, .host, .cmd, .ddp, .keys, .wc, .sig, .lfl, .map, .prg, .chan, .store, .out, .hostWait]) ?_ hp
  unfold State.queueMeta
  repeat' first
    | with_reducible exact Within.refl _ _
    | with_reducible assumption
    | (show Part.sub _ _ = true; rfl)
    | (extract_lets +onlyGivenNames x; with_reducible refine Within.cut (u := x) ?_ ?_; rotate_left; intro hx; clear_value x; rename' x => y; rotate_right; unfold x; clear x)
    | (extract_lets +onlyGivenNames x; clear_value x; rename' x => z)
    | (extract_lets +onlyGivenNames x; rename' x => z)
    | dsimp -zeta only
    | with_reducible apply State.withTree_frame
    | with_reducible apply State.modTag_frame
    | with_reducible apply State.cancelWith_frame
    | with_reducible apply State.roomFor_frame
    | with_reducible apply State.queueRecord_frame
    | with_reducible apply State.stall_frame
    | with_reducible apply Within.ite
    | fail_if_no_progress (with_reducible refine Within.put (a := [.cmd]) ?_ rfl rfl rfl rfl rfl)
    | split
    | (with_reducible refine Within.of_pair (by assumption) ?_)

theorem State.resumeLane_frame {ps s t} lane (h : Within ps s t) (hp : Part.sub [.block 4, .block 6, .block 12, .block 13, .block 19, .block 20, .evt, .nor, .host, .cmd, .ddp, .keys, .wc, .sig, .lfl, .map, .prg, .chan, .store, .out, .hostWait] ps = true) : Within ps s (State.resumeLane t lane) := by
  refine h.step (a := [.block 4, .block 6, .block 12, .block 13, .block 19, .block 20, .evt, .nor, .host, .cmd, .ddp, .keys, .wc, .sig, .lfl, .map, .prg, .chan, .store, .out, .hostWait]) ?_ hp
  unfold State.resumeLane
  repeat' first
    | with_reducible exact Within.refl _ _
    | with_reducible assumption
    | (show Part.sub _ _ = true; rfl)
    | (extract_lets +onlyGivenNames x; with_reducible refine Within.cut (u := x) ?_ ?_; rotate_left; intro hx; clear_value x; rename' x => y; rotate_right; unfold x; clear x)
    | (extract_lets +onlyGivenNames x; clear_value x; rename' x => z)
    | (extract_lets +onlyGivenNames x; rename' x => z)
    | dsimp -zeta only
    | with_reducible apply State.tryHandOff_frame
    | with_reducible apply State.handOffExtents_frame
    | with_reducible apply State.queueMeta_frame
    | with_reducible apply Within.ite
    | (with_reducible refine Within.foldl _ ?_ ?_; rotate_left; intro _ _)
    | (with_reducible refine Within.foldl_snd _ ?_ ?_; rotate_left; intro _ _)
    | fail_if_no_progress (with_reducible refine Within.put (a := [.wc]) ?_ rfl rfl rfl rfl rfl)
    | split

theorem State.setMode_frame {ps s t} m (h : Within ps s t) (hp : Part.sub [.block 4, .block 6, .block 20, .evt, .nor, .host, .wc, .out, .hostWait] ps = true) : Within ps s (State.setMode t m) := by
  refine h.step (a := [.block 4, .block 6, .block 20, .evt, .nor, .host, .wc, .out, .hostWait]) ?_ hp
  unfold State.setMode
  repeat' first
    | with_reducible exact Within.refl _ _
    | with_reducible assumption
    | (show Part.sub _ _ = true; rfl)
    | dsimp -zeta only
    | with_reducible apply State.wr_frame
    | with_reducible apply State.event_frame
    | with_reducible apply Within.ite
    | fail_if_no_progress (with_reducible refine Within.put (a := [.wc]) ?_ rfl rfl rfl rfl rfl)
    | split

theorem State.commitWaiting_frame {ps s t}  (h : Within ps s t) (hp : Part.sub [.regs, .holding, .evt, .nor, .host, .cmd, .ddp, .keys, .sig, .map, .rep, .chan, .store, .free, .out, .hostWait] ps = true) : Within ps s (State.commitWaiting t) := by
  refine h.step (a := [.regs, .holding, .evt, .nor, .host, .cmd, .ddp, .keys, .sig, .map, .rep, .chan, .store, .free, .out, .hostWait]) ?_ hp
  unfold State.commitWaiting
  repeat' first
    | with_reducible exact Within.refl _ _
    | with_reducible assumption
    | (show Part.sub _ _ = true; rfl)
    | (extract_lets +onlyGivenNames x; with_reducible refine Within.cut (u := x) ?_ ?_; rotate_left; intro hx; clear_value x; rename' x => y; rotate_right; unfold x; clear x)
    | (extract_lets +onlyGivenNames x; clear_value x; rename' x => z)
    | (extract_lets +onlyGivenNames x; rename' x => z)
    | dsimp -zeta only
    | with_reducible apply State.modWrite_frame
    | with_reducible apply State.commitTag_frame
    | with_reducible apply Within.ite
    | (with_reducible refine Within.foldl _ ?_ ?_; rotate_left; intro _ _)
    | (with_reducible refine Within.foldl_snd _ ?_ ?_; rotate_left; intro _ _)
    | fail_if_no_progress (with_reducible refine Within.put (a := []) ?_ rfl rfl rfl rfl rfl)
    | split

theorem State.emptySeg_frame {ps s t} n (h : Within ps s t) (hp : Part.sub [.block 13, .block 20, .wc, .sig, .map, .store] ps = true) : Within ps s (State.emptySeg t n) := by
  refine h.step (a := [.block 13, .block 20, .wc, .sig, .map, .store]) ?_ hp
  unfold State.emptySeg
  repeat' first
    | with_reducible exact Within.refl _ _
    | with_reducible assumption
    | (show Part.sub _ _ = true; rfl)
    | (extract_lets +onlyGivenNames x; with_reducible refine Within.cut (u := x) ?_ ?_; rotate_left; intro hx; clear_value x; rename' x => y; rotate_right; unfold x; clear x)
    | (extract_lets +onlyGivenNames x; clear_value x; rename' x => z)
    | (extract_lets +onlyGivenNames x; rename' x => z)
    | dsimp -zeta only
    | with_reducible apply State.setOwn_frame
    | with_reducible apply Within.ite
    | fail_if_no_progress (with_reducible refine Within.put (a := [.wc, .map]) ?_ rfl rfl rfl rfl rfl)
    | split

theorem State.settleSegment_frame {ps s t} n (h : Within ps s t) (hp : Part.sub [.block 13, .block 20, .wc, .sig, .map, .chan, .store, .out] ps = true) : Within ps s (State.settleSegment t n) := by
  refine h.step (a := [.block 13, .block 20, .wc, .sig, .map, .chan, .store, .out]) ?_ hp
  unfold State.settleSegment
  repeat' first
    | with_reducible exact Within.refl _ _
    | with_reducible assumption
    | (show Part.sub _ _ = true; rfl)
    | (extract_lets +onlyGivenNames x; with_reducible refine Within.cut (u := x) ?_ ?_; rotate_left; intro hx; clear_value x; rename' x => y; rotate_right; unfold x; clear x)
    | (extract_lets +onlyGivenNames x; clear_value x; rename' x => z)
    | (extract_lets +onlyGivenNames x; rename' x => z)
    | dsimp -zeta only
    | with_reducible apply State.setOwn_frame
    | with_reducible apply State.mirrorRecord_frame
    | with_reducible apply State.emptySeg_frame
    | with_reducible apply Within.ite
    | fail_if_no_progress (with_reducible refine Within.put (a := []) ?_ rfl rfl rfl rfl rfl)
    | split
    | (with_reducible refine Within.of_pair (by assumption) ?_)

theorem State.settleSegments_frame {ps s t}  (h : Within ps s t) (hp : Part.sub [.block 13, .block 20, .wc, .sig, .map, .chan, .store, .out] ps = true) : Within ps s (State.settleSegments t) := by
  refine h.step (a := [.block 13, .block 20, .wc, .sig, .map, .chan, .store, .out]) ?_ hp
  unfold State.settleSegments
  repeat' first
    | with_reducible exact Within.refl _ _
    | with_reducible assumption
    | (show Part.sub _ _ = true; rfl)
    | (extract_lets +onlyGivenNames x; with_reducible refine Within.cut (u := x) ?_ ?_; rotate_left; intro hx; clear_value x; rename' x => y; rotate_right; unfold x; clear x)
    | (extract_lets +onlyGivenNames x; clear_value x; rename' x => z)
    | (extract_lets +onlyGivenNames x; rename' x => z)
    | dsimp -zeta only
    | with_reducible apply State.noteDirty_frame
    | with_reducible apply State.settleSegment_frame
    | with_reducible apply Within.ite
    | (with_reducible refine Within.foldl _ ?_ ?_; rotate_left; intro _ _)
    | (with_reducible refine Within.foldl_snd _ ?_ ?_; rotate_left; intro _ _)
    | fail_if_no_progress (with_reducible refine Within.put (a := [.wc]) ?_ rfl rfl rfl rfl rfl)
    | split

theorem State.loseWrite_frame {ps s t} loc (h : Within ps s t) (hp : Part.sub [.regs, .holding, .evt, .nor, .host, .cmd, .ddp, .keys, .sig, .map, .store, .mem, .out, .hostWait] ps = true) : Within ps s (State.loseWrite t loc) := by
  refine h.step (a := [.regs, .holding, .evt, .nor, .host, .cmd, .ddp, .keys, .sig, .map, .store, .mem, .out, .hostWait]) ?_ hp
  unfold State.loseWrite
  repeat' first
    | with_reducible exact Within.refl _ _
    | with_reducible assumption
    | (show Part.sub _ _ = true; rfl)
    | (extract_lets +onlyGivenNames x; with_reducible refine Within.cut (u := x) ?_ ?_; rotate_left; intro hx; clear_value x; rename' x => y; rotate_right; unfold x; clear x)
    | (extract_lets +onlyGivenNames x; clear_value x; rename' x => z)
    | (extract_lets +onlyGivenNames x; rename' x => z)
    | dsimp -zeta only
    | with_reducible apply State.event1_frame
    | with_reducible apply State.loseCached_frame
    | with_reducible apply Within.ite
    | (with_reducible refine Within.foldl _ ?_ ?_; rotate_left; intro _ _)
    | (with_reducible refine Within.foldl_snd _ ?_ ?_; rotate_left; intro _ _)
    | split

theorem State.settleAsk_frame {ps s t} id copy (h : Within ps s t) (hp : Part.sub [.regs, .holding, .evt, .nor, .host, .cmd, .ddp, .keys, .wc, .sig, .map, .store, .mem, .out, .hostWait] ps = true) : Within ps s (State.settleAsk t id copy) := by
  refine h.step (a := [.regs, .holding, .evt, .nor, .host, .cmd, .ddp, .keys, .wc, .sig, .map, .store, .mem, .out, .hostWait]) ?_ hp
  unfold State.settleAsk
  repeat' first
    | with_reducible exact Within.refl _ _
    | with_reducible assumption
    | (show Part.sub _ _ = true; rfl)
    | (extract_lets +onlyGivenNames x; with_reducible refine Within.cut (u := x) ?_ ?_; rotate_left; intro hx; clear_value x; rename' x => y; rotate_right; unfold x; clear x)
    | (extract_lets +onlyGivenNames x; clear_value x; rename' x => z)
    | (extract_lets +onlyGivenNames x; rename' x => z)
    | dsimp -zeta only
    | with_reducible apply State.event1_frame
    | with_reducible apply State.loseWrite_frame
    | with_reducible apply Within.ite
    | fail_if_no_progress (with_reducible refine Within.put (a := [.wc]) ?_ rfl rfl rfl rfl rfl)
    | split

theorem State.dropAsks_frame {ps s t}  (h : Within ps s t) (hp : Part.sub [.regs, .holding, .evt, .nor, .host, .cmd, .ddp, .keys, .wc, .sig, .map, .store, .mem, .out, .hostWait] ps = true) : Within ps s (State.dropAsks t) := by
  refine h.step (a := [.regs, .holding, .evt, .nor, .host, .cmd, .ddp, .keys, .wc, .sig, .map, .store, .mem, .out, .hostWait]) ?_ hp
  unfold State.dropAsks
  repeat' first
    | with_reducible exact Within.refl _ _
    | with_reducible assumption
    | (show Part.sub _ _ = true; rfl)
    | dsimp -zeta only
    | with_reducible apply State.settleAsk_frame
    | with_reducible apply Within.ite
    | (with_reducible refine Within.foldl _ ?_ ?_; rotate_left; intro _ _)
    | (with_reducible refine Within.foldl_snd _ ?_ ?_; rotate_left; intro _ _)
    | split

theorem State.enterSolo_frame {ps s t}  (h : Within ps s t) (hp : Part.sub [.regs, .holding, .evt, .nor, .host, .cmd, .ddp, .keys, .wc, .sig, .map, .rep, .chan, .store, .mem, .free, .out, .hostWait] ps = true) : Within ps s (State.enterSolo t) := by
  refine h.step (a := [.regs, .holding, .evt, .nor, .host, .cmd, .ddp, .keys, .wc, .sig, .map, .rep, .chan, .store, .mem, .free, .out, .hostWait]) ?_ hp
  unfold State.enterSolo
  repeat' first
    | with_reducible exact Within.refl _ _
    | with_reducible assumption
    | (show Part.sub _ _ = true; rfl)
    | (extract_lets +onlyGivenNames x; with_reducible refine Within.cut (u := x) ?_ ?_; rotate_left; intro hx; clear_value x; rename' x => y; rotate_right; unfold x; clear x)
    | (extract_lets +onlyGivenNames x; clear_value x; rename' x => z)
    | (extract_lets +onlyGivenNames x; rename' x => z)
    | dsimp -zeta only
    | with_reducible apply State.setMode_frame
    | with_reducible apply State.commitWaiting_frame
    | with_reducible apply State.emptySeg_frame
    | with_reducible apply State.settleSegments_frame
    | with_reducible apply State.dropAsks_frame
    | with_reducible apply Within.ite
    | (with_reducible refine Within.foldl _ ?_ ?_; rotate_left; intro _ _)
    | (with_reducible refine Within.foldl_snd _ ?_ ?_; rotate_left; intro _ _)
    | fail_if_no_progress (with_reducible refine Within.put (a := [.wc]) ?_ rfl rfl rfl rfl rfl)
    | split

theorem State.reportLost_frame {ps s t} recs (h : Within ps s t) (hp : Part.sub [.block 4, .block 6, .evt, .nor, .host, .out, .hostWait] ps = true) : Within ps s (State.reportLost t recs) := by
  refine h.step (a := [.block 4, .block 6, .evt, .nor, .host, .out, .hostWait]) ?_ hp
  unfold State.reportLost
  repeat' first
    | with_reducible exact Within.refl _ _
    | with_reducible assumption
    | (show Part.sub _ _ = true; rfl)
    | (extract_lets +onlyGivenNames x; with_reducible refine Within.cut (u := x) ?_ ?_; rotate_left; intro hx; clear_value x; rename' x => y; rotate_right; unfold x; clear x)
    | (extract_lets +onlyGivenNames x; clear_value x; rename' x => z)
    | (extract_lets +onlyGivenNames x; rename' x => z)
    | dsimp -zeta only
    | with_reducible apply State.event_frame
    | with_reducible apply Within.ite
    | (with_reducible refine Within.foldl _ ?_ ?_; rotate_left; intro _ _)
    | (with_reducible refine Within.foldl_snd _ ?_ ?_; rotate_left; intro _ _)
    | fail_if_no_progress (with_reducible refine Within.put (a := []) ?_ rfl rfl rfl rfl rfl)
    | split

theorem State.loseRecords_frame {ps s t} all (h : Within ps s t) (hp : Part.sub [.block 4, .block 6, .block 13, .block 20, .evt, .nor, .host, .ddp, .keys, .sig, .map, .store, .out, .hostWait] ps = true) : Within ps s (State.loseRecords t all) := by
  refine h.step (a := [.block 4, .block 6, .block 13, .block 20, .evt, .nor, .host, .ddp, .keys, .sig, .map, .store, .out, .hostWait]) ?_ hp
  unfold State.loseRecords
  repeat' first
    | with_reducible exact Within.refl _ _
    | with_reducible assumption
    | (show Part.sub _ _ = true; rfl)
    | (extract_lets +onlyGivenNames x; with_reducible refine Within.cut (u := x) ?_ ?_; rotate_left; intro hx; clear_value x; rename' x => y; rotate_right; unfold x; clear x)
    | (extract_lets +onlyGivenNames x; clear_value x; rename' x => z)
    | (extract_lets +onlyGivenNames x; rename' x => z)
    | dsimp -zeta only
    | with_reducible apply State.rewriteLoc_frame
    | with_reducible apply State.reportLost_frame
    | with_reducible apply Within.ite
    | (with_reducible refine Within.foldl _ ?_ ?_; rotate_left; intro _ _)
    | (with_reducible refine Within.foldl_snd _ ?_ ?_; rotate_left; intro _ _)
    | split

end Sys2Proof.Machine
end

