-- ==== Sys2Proof/Laws/FrameReadCore.lean ====
section
/-!
SUPPORT. Laws/FrameReadCore.lean: what the definitions of Machine/ReadCore.lean leave alone: each changes the listed parts at most, and keeps the
canonical form.
-/
namespace Sys2Proof.Machine
open Sys2Proof

set_option Elab.async false
set_option linter.all false

theorem State.countDecode_frame {ps s t} code (h : Within ps s t) (hp : Part.sub [.block 11] ps = true) : Within ps s (State.countDecode t code) := by
  refine h.step (a := [.block 11]) ?_ hp
  unfold State.countDecode
  repeat' first
    | with_reducible exact Within.refl _ _
    | with_reducible assumption
    | (show Part.sub _ _ = true; rfl)
    | dsimp -zeta only
    | with_reducible apply State.wr_frame
    | with_reducible apply State.bump_frame
    | with_reducible apply Within.ite
    | split

theorem State.putLeaf_frame {ps s t} l x (h : Within ps s t) (hp : Part.sub [.lfl] ps = true) : Within ps s (State.putLeaf t l x) := by
  refine h.step (a := [.lfl]) ?_ hp
  unfold State.putLeaf
  repeat' first
    | with_reducible exact Within.refl _ _
    | with_reducible assumption
    | (show Part.sub _ _ = true; rfl)
    | dsimp -zeta only
    | with_reducible apply Within.ite
    | fail_if_no_progress (with_reducible refine Within.put (a := [.lfl]) ?_ rfl rfl rfl rfl rfl)
    | split

theorem State.sendOp_frame {ps s t} id op (h : Within ps s t) (hp : Part.sub [.lfl, .out] ps = true) : Within ps s (State.sendOp t id op) := by
  refine h.step (a := [.lfl, .out]) ?_ hp
  unfold State.sendOp
  repeat' first
    | with_reducible exact Within.refl _ _
    | with_reducible assumption
    | (show Part.sub _ _ = true; rfl)
    | (extract_lets +onlyGivenNames x; with_reducible refine Within.cut (u := x) ?_ ?_; rotate_left; intro hx; clear_value x; rename' x => y; rotate_right; unfold x; clear x)
    | (extract_lets +onlyGivenNames x; clear_value x; rename' x => z)
    | (extract_lets +onlyGivenNames x; rename' x => z)
    | dsimp -zeta only
    | with_reducible apply State.send_frame
    | with_reducible apply Within.ite
    | fail_if_no_progress (with_reducible refine Within.put (a := [.lfl]) ?_ rfl rfl rfl rfl rfl)
    | split

theorem State.leafOp_frame {ps s t} l f cmd params bytes (h : Within ps s t) (hp : Part.sub [.lfl, .out] ps = true) : Within ps s (State.leafOp t l f cmd params bytes) := by
  refine h.step (a := [.lfl, .out]) ?_ hp
  unfold State.leafOp
  repeat' first
    | with_reducible exact Within.refl _ _
    | with_reducible assumption
    | (show Part.sub _ _ = true; rfl)
    | (extract_lets +onlyGivenNames x; with_reducible refine Within.cut (u := x) ?_ ?_; rotate_left; intro hx; clear_value x; rename' x => y; rotate_right; unfold x; clear x)
    | (extract_lets +onlyGivenNames x; clear_value x; rename' x => z)
    | (extract_lets +onlyGivenNames x; rename' x => z)
    | dsimp -zeta only
    | with_reducible apply State.sendOp_frame
    | with_reducible apply Within.ite
    | fail_if_no_progress (with_reducible refine Within.put (a := [.lfl]) ?_ rfl rfl rfl rfl rfl)
    | split

theorem State.sendNext_frame {ps s t} l (h : Within ps s t) (hp : Part.sub [.lfl, .out] ps = true) : Within ps s (State.sendNext t l) := by
  refine h.step (a := [.lfl, .out]) ?_ hp
  unfold State.sendNext
  repeat' first
    | with_reducible exact Within.refl _ _
    | with_reducible assumption
    | (show Part.sub _ _ = true; rfl)
    | dsimp -zeta only
    | with_reducible apply State.sendOp_frame
    | with_reducible apply Within.ite
    | fail_if_no_progress (with_reducible refine Within.put (a := []) ?_ rfl rfl rfl rfl rfl)
    | split

theorem State.endLeafOp_frame {ps s t} id (h : Within ps s t) (hp : Part.sub [.lfl, .out] ps = true) : Within ps s (State.endLeafOp t id) := by
  refine h.step (a := [.lfl, .out]) ?_ hp
  unfold State.endLeafOp
  repeat' first
    | with_reducible exact Within.refl _ _
    | with_reducible assumption
    | (show Part.sub _ _ = true; rfl)
    | dsimp -zeta only
    | with_reducible apply State.sendNext_frame
    | with_reducible apply Within.ite
    | fail_if_no_progress (with_reducible refine Within.put (a := [.lfl]) ?_ rfl rfl rfl rfl rfl)
    | split

theorem State.setBlocks_frame {ps s t} l b (h : Within ps s t) (hp : Part.sub [.lfl] ps = true) : Within ps s (State.setBlocks t l b) := by
  refine h.step (a := [.lfl]) ?_ hp
  unfold State.setBlocks
  repeat' first
    | with_reducible exact Within.refl _ _
    | with_reducible assumption
    | (show Part.sub _ _ = true; rfl)
    | dsimp -zeta only
    | with_reducible apply State.putLeaf_frame
    | with_reducible apply Within.ite
    | fail_if_no_progress (with_reducible refine Within.put (a := []) ?_ rfl rfl rfl rfl rfl)
    | split

theorem State.acceptOp_frame {ps s t} op (h : Within ps s t) (hp : Part.sub [.block 4, .block 6, .block 15, .evt, .nor, .host, .lfl, .chan, .out, .hostWait] ps = true) : Within ps s (State.acceptOp t op) := by
  refine h.step (a := [.block 4, .block 6, .block 15, .evt, .nor, .host, .lfl, .chan, .out, .hostWait]) ?_ hp
  unfold State.acceptOp
  repeat' first
    | with_reducible exact Within.refl _ _
    | with_reducible assumption
    | (show Part.sub _ _ = true; rfl)
    | (extract_lets +onlyGivenNames x; with_reducible refine Within.cut (u := x) ?_ ?_; rotate_left; intro hx; clear_value x; rename' x => y; rotate_right; unfold x; clear x)
    | (extract_lets +onlyGivenNames x; clear_value x; rename' x => z)
    | (extract_lets +onlyGivenNames x; rename' x => z)
    | dsimp -zeta only
    | with_reducible apply State.bump_frame
    | with_reducible apply State.event_frame
    | with_reducible apply State.sendRing_frame
    | with_reducible apply State.putLeaf_frame
    | with_reducible apply State.setBlocks_frame
    | with_reducible apply Within.ite
    | fail_if_no_progress (with_reducible refine Within.put (a := []) ?_ rfl rfl rfl rfl rfl)
    | split

theorem State.pumpLeaves_frame {ps s t}  (h : Within ps s t) (hp : Part.sub [.block 4, .block 6, .block 15, .evt, .nor, .host, .lfl, .chan, .out, .hostWait] ps = true) : Within ps s (State.pumpLeaves t) := by
  refine h.step (a := [.block 4, .block 6, .block 15, .evt, .nor, .host, .lfl, .chan, .out, .hostWait]) ?_ hp
  unfold State.pumpLeaves
  repeat' first
    | with_reducible exact Within.refl _ _
    | with_reducible assumption
    | (show Part.sub _ _ = true; rfl)
    | (extract_lets +onlyGivenNames x; with_reducible refine Within.cut (u := x) ?_ ?_; rotate_left; intro hx; clear_value x; rename' x => y; rotate_right; unfold x; clear x)
    | (extract_lets +onlyGivenNames x; clear_value x; rename' x => z)
    | (extract_lets +onlyGivenNames x; rename' x => z)
    | dsimp -zeta only
    | with_reducible apply State.sendNext_frame
    | with_reducible apply State.acceptOp_frame
    | with_reducible apply Within.ite
    | (with_reducible refine Within.foldl _ ?_ ?_; rotate_left; intro _ _)
    | (with_reducible refine Within.foldl_snd _ ?_ ?_; rotate_left; intro _ _)
    | fail_if_no_progress (with_reducible refine Within.put (a := [.lfl]) ?_ rfl rfl rfl rfl rfl)
    | split

theorem State.setQuire_frame {ps s t} n q (h : Within ps s t) (hp : Part.sub [.sig] ps = true) : Within ps s (State.setQuire t n q) := by
  refine h.step (a := [.sig]) ?_ hp
  unfold State.setQuire
  repeat' first
    | with_reducible exact Within.refl _ _
    | with_reducible assumption
    | (show Part.sub _ _ = true; rfl)
    | dsimp -zeta only
    | with_reducible apply Within.ite
    | fail_if_no_progress (with_reducible refine Within.put (a := [.sig]) ?_ rfl rfl rfl rfl rfl)
    | split

theorem State.trialRead_frame {ps s t} r (h : Within ps s t) (hp : Part.sub [.lfl] ps = true) : Within ps s (State.trialRead t r).2 := by
  refine h.step (a := [.lfl]) ?_ hp
  unfold State.trialRead
  repeat' first
    | with_reducible exact Within.refl _ _
    | with_reducible assumption
    | (show Part.sub _ _ = true; rfl)
    | (extract_lets +onlyGivenNames x; with_reducible refine Within.cut (u := x) ?_ ?_; rotate_left; intro hx; clear_value x; rename' x => y; rotate_right; unfold x; clear x)
    | (extract_lets +onlyGivenNames x; clear_value x; rename' x => z)
    | (extract_lets +onlyGivenNames x; rename' x => z)
    | dsimp -zeta only
    | with_reducible apply State.putLeaf_frame
    | with_reducible apply Within.ite
    | fail_if_no_progress (with_reducible refine Within.put (a := []) ?_ rfl rfl rfl rfl rfl)
    | split

theorem State.sendRead_frame {ps s t} r (h : Within ps s t) (hp : Part.sub [.lfl, .chan, .out] ps = true) : Within ps s (State.sendRead t r) := by
  refine h.step (a := [.lfl, .chan, .out]) ?_ hp
  unfold State.sendRead
  repeat' first
    | with_reducible exact Within.refl _ _
    | with_reducible assumption
    | (show Part.sub _ _ = true; rfl)
    | (extract_lets +onlyGivenNames x; with_reducible refine Within.cut (u := x) ?_ ?_; rotate_left; intro hx; clear_value x; rename' x => y; rotate_right; unfold x; clear x)
    | (extract_lets +onlyGivenNames x; clear_value x; rename' x => z)
    | (extract_lets +onlyGivenNames x; rename' x => z)
    | dsimp -zeta only
    | with_reducible apply State.sendRing_frame
    | with_reducible apply State.leafOp_frame
    | with_reducible apply State.trialRead_frame
    | with_reducible apply Within.ite
    | fail_if_no_progress (with_reducible refine Within.put (a := [.lfl]) ?_ rfl rfl rfl rfl rfl)
    | split
    | (with_reducible refine Within.of_pair (by assumption) ?_)

theorem State.modPiece_frame {ps s t} bt k f (h : Within ps s t) (hp : Part.sub [.cmd] ps = true) : Within ps s (State.modPiece t bt k f) := by
  refine h.step (a := [.cmd]) ?_ hp
  unfold State.modPiece
  repeat' first
    | with_reducible exact Within.refl _ _
    | with_reducible assumption
    | (show Part.sub _ _ = true; rfl)
    | dsimp -zeta only
    | with_reducible apply State.modTag_frame
    | with_reducible apply Within.ite
    | fail_if_no_progress (with_reducible refine Within.put (a := []) ?_ rfl rfl rfl rfl rfl)
    | split

theorem State.failRead_frame {ps s t} bt st (h : Within ps s t) (hp : Part.sub [.cmd] ps = true) : Within ps s (State.failRead t bt st) := by
  refine h.step (a := [.cmd]) ?_ hp
  unfold State.failRead
  repeat' first
    | with_reducible exact Within.refl _ _
    | with_reducible assumption
    | (show Part.sub _ _ = true; rfl)
    | dsimp -zeta only
    | with_reducible apply State.finish_frame
    | with_reducible apply Within.ite
    | split

theorem State.modSpan_frame {ps s t} run tile f (h : Within ps s t) (hp : Part.sub [.prg] ps = true) : Within ps s (State.modSpan t run tile f) := by
  refine h.step (a := [.prg]) ?_ hp
  unfold State.modSpan
  repeat' first
    | with_reducible exact Within.refl _ _
    | with_reducible assumption
    | (show Part.sub _ _ = true; rfl)
    | dsimp -zeta only
    | with_reducible apply Within.ite
    | fail_if_no_progress (with_reducible refine Within.put (a := [.prg]) ?_ rfl rfl rfl rfl rfl)
    | split

theorem State.deliverSpan_frame {ps s t} run tile loc copy lost (h : Within ps s t) (hp : Part.sub [.prg] ps = true) : Within ps s (State.deliverSpan t run tile loc copy lost) := by
  refine h.step (a := [.prg]) ?_ hp
  unfold State.deliverSpan
  repeat' first
    | with_reducible exact Within.refl _ _
    | with_reducible assumption
    | (show Part.sub _ _ = true; rfl)
    | dsimp -zeta only
    | with_reducible apply State.modSpan_frame
    | with_reducible apply Within.ite
    | fail_if_no_progress (with_reducible refine Within.put (a := []) ?_ rfl rfl rfl rfl rfl)
    | split

theorem State.deliverCopy_frame {ps s t} bu loc copy (h : Within ps s t) (hp : Part.sub [.block 4, .block 6, .block 10, .block 11, .block 18, .evt, .nor, .host, .cmd, .keys, .sig, .rep, .prg, .chan, .free, .out, .hostWait] ps = true) : Within ps s (State.deliverCopy t bu loc copy) := by
  refine h.step (a := [.block 4, .block 6, .block 10, .block 11, .block 18, .evt, .nor, .host, .cmd, .keys, .sig, .rep, .prg, .chan, .free, .out, .hostWait]) ?_ hp
  unfold State.deliverCopy
  repeat' first
    | with_reducible exact Within.refl _ _
    | with_reducible assumption
    | (show Part.sub _ _ = true; rfl)
    | dsimp -zeta only
    | with_reducible apply State.sendRing_frame
    | with_reducible apply State.dropJob_frame
    | with_reducible apply State.shipUnit_frame
    | with_reducible apply State.modChunk_frame
    | with_reducible apply State.modPiece_frame
    | with_reducible apply State.deliverSpan_frame
    | with_reducible apply Within.ite
    | fail_if_no_progress (with_reducible refine Within.put (a := [.keys, .sig]) ?_ rfl rfl rfl rfl rfl)
    | split

theorem State.gatherPart_frame {ps s t} id start bytes (h : Within ps s t) (hp : Part.sub [.block 4, .block 6, .block 10, .block 11, .block 18, .evt, .nor, .host, .cmd, .keys, .sig, .lfl, .rep, .prg, .chan, .free, .out, .hostWait] ps = true) : Within ps s (State.gatherPart t id start bytes) := by
  refine h.step (a := [.block 4, .block 6, .block 10, .block 11, .block 18, .evt, .nor, .host, .cmd, .keys, .sig, .lfl, .rep, .prg, .chan, .free, .out, .hostWait]) ?_ hp
  unfold State.gatherPart
  repeat' first
    | with_reducible exact Within.refl _ _
    | with_reducible assumption
    | (show Part.sub _ _ = true; rfl)
    | (extract_lets +onlyGivenNames x; with_reducible refine Within.cut (u := x) ?_ ?_; rotate_left; intro hx; clear_value x; rename' x => y; rotate_right; unfold x; clear x)
    | (extract_lets +onlyGivenNames x; clear_value x; rename' x => z)
    | (extract_lets +onlyGivenNames x; rename' x => z)
    | dsimp -zeta only
    | with_reducible apply State.deliverCopy_frame
    | with_reducible apply Within.ite
    | fail_if_no_progress (with_reducible refine Within.put (a := [.lfl]) ?_ rfl rfl rfl rfl rfl)
    | split

theorem State.gatherLost_frame {ps s t} id (h : Within ps s t) (hp : Part.sub [.regs, .holding, .evt, .nor, .host, .cmd, .ddp, .keys, .sig, .lfl, .map, .rep, .prg, .chan, .store, .mem, .free, .out, .hostWait] ps = true) : Within ps s (State.gatherLost t id) := by
  refine h.step (a := [.regs, .holding, .evt, .nor, .host, .cmd, .ddp, .keys, .sig, .lfl, .map, .rep, .prg, .chan, .store, .mem, .free, .out, .hostWait]) ?_ hp
  unfold State.gatherLost
  repeat' first
    | with_reducible exact Within.refl _ _
    | with_reducible assumption
    | (show Part.sub _ _ = true; rfl)
    | (extract_lets +onlyGivenNames x; with_reducible refine Within.cut (u := x) ?_ ?_; rotate_left; intro hx; clear_value x; rename' x => y; rotate_right; unfold x; clear x)
    | (extract_lets +onlyGivenNames x; clear_value x; rename' x => z)
    | (extract_lets +onlyGivenNames x; rename' x => z)
    | dsimp -zeta only
    | with_reducible apply State.event1_frame
    | with_reducible apply State.loseContainer_frame
    | with_reducible apply State.countDecode_frame
    | with_reducible apply State.failRead_frame
    | with_reducible apply State.deliverSpan_frame
    | with_reducible apply State.deliverCopy_frame
    | with_reducible apply Within.ite
    | fail_if_no_progress (with_reducible refine Within.put (a := [.lfl]) ?_ rfl rfl rfl rfl rfl)
    | split

theorem State.noteTrailer_frame {ps s t} quire sig member word (h : Within ps s t) (hp : Part.sub [.sig] ps = true) : Within ps s (State.noteTrailer t quire sig member word) := by
  refine h.step (a := [.sig]) ?_ hp
  unfold State.noteTrailer
  repeat' first
    | with_reducible exact Within.refl _ _
    | with_reducible assumption
    | (show Part.sub _ _ = true; rfl)
    | (extract_lets +onlyGivenNames x; with_reducible refine Within.cut (u := x) ?_ ?_; rotate_left; intro hx; clear_value x; rename' x => y; rotate_right; unfold x; clear x)
    | (extract_lets +onlyGivenNames x; clear_value x; rename' x => z)
    | (extract_lets +onlyGivenNames x; rename' x => z)
    | dsimp -zeta only
    | with_reducible apply Within.ite
    | fail_if_no_progress (with_reducible refine Within.put (a := [.sig]) ?_ rfl rfl rfl rfl rfl)
    | split

theorem State.notePatrol_frame {ps s t} quire sig member word bytes (h : Within ps s t) (hp : Part.sub [.sig] ps = true) : Within ps s (State.notePatrol t quire sig member word bytes) := by
  refine h.step (a := [.sig]) ?_ hp
  unfold State.notePatrol
  repeat' first
    | with_reducible exact Within.refl _ _
    | with_reducible assumption
    | (show Part.sub _ _ = true; rfl)
    | (extract_lets +onlyGivenNames x; with_reducible refine Within.cut (u := x) ?_ ?_; rotate_left; intro hx; clear_value x; rename' x => y; rotate_right; unfold x; clear x)
    | (extract_lets +onlyGivenNames x; clear_value x; rename' x => z)
    | (extract_lets +onlyGivenNames x; rename' x => z)
    | dsimp -zeta only
    | with_reducible apply Within.ite
    | fail_if_no_progress (with_reducible refine Within.put (a := [.sig]) ?_ rfl rfl rfl rfl rfl)
    | split

theorem State.loseWord_frame {ps s t} q quire sig word members but (h : Within ps s t) (hp : Part.sub [.regs, .holding, .evt, .nor, .host, .cmd, .ddp, .keys, .sig, .map, .chan, .store, .mem, .out, .hostWait] ps = true) : Within ps s (State.loseWord t q quire sig word members but) := by
  refine h.step (a := [.regs, .holding, .evt, .nor, .host, .cmd, .ddp, .keys, .sig, .map, .chan, .store, .mem, .out, .hostWait]) ?_ hp
  unfold State.loseWord
  repeat' first
    | with_reducible exact Within.refl _ _
    | with_reducible assumption
    | (show Part.sub _ _ = true; rfl)
    | (extract_lets +onlyGivenNames x; with_reducible refine Within.cut (u := x) ?_ ?_; rotate_left; intro hx; clear_value x; rename' x => y; rotate_right; unfold x; clear x)
    | (extract_lets +onlyGivenNames x; clear_value x; rename' x => z)
    | (extract_lets +onlyGivenNames x; rename' x => z)
    | dsimp -zeta only
    | with_reducible apply State.loseContainer_frame
    | with_reducible apply Within.ite
    | (with_reducible refine Within.foldl _ ?_ ?_; rotate_left; intro _ _)
    | (with_reducible refine Within.foldl_snd _ ?_ ?_; rotate_left; intro _ _)
    | split

theorem State.deliverWord_frame {ps s t} r word bytes (h : Within ps s t) (hp : Part.sub [.block 4, .block 6, .block 10, .block 11, .block 18, .evt, .nor, .host, .cmd, .keys, .sig, .lfl, .rep, .prg, .chan, .free, .out, .hostWait] ps = true) : Within ps s (State.deliverWord t r word bytes) := by
  refine h.step (a := [.block 4, .block 6, .block 10, .block 11, .block 18, .evt, .nor, .host, .cmd, .keys, .sig, .lfl, .rep, .prg, .chan, .free, .out, .hostWait]) ?_ hp
  unfold State.deliverWord
  repeat' first
    | with_reducible exact Within.refl _ _
    | with_reducible assumption
    | (show Part.sub _ _ = true; rfl)
    | (extract_lets +onlyGivenNames x; with_reducible refine Within.cut (u := x) ?_ ?_; rotate_left; intro hx; clear_value x; rename' x => y; rotate_right; unfold x; clear x)
    | (extract_lets +onlyGivenNames x; clear_value x; rename' x => z)
    | (extract_lets +onlyGivenNames x; rename' x => z)
    | dsimp -zeta only
    | with_reducible apply State.sendRing_frame
    | with_reducible apply State.gatherPart_frame
    | with_reducible apply State.noteTrailer_frame
    | with_reducible apply State.notePatrol_frame
    | with_reducible apply Within.ite
    | fail_if_no_progress (with_reducible refine Within.put (a := [.lfl]) ?_ rfl rfl rfl rfl rfl)
    | split

theorem State.wordGone_frame {ps s t} g want failed (h : Within ps s t) (hp : Part.sub [.regs, .holding, .evt, .nor, .host, .cmd, .ddp, .keys, .sig, .lfl, .map, .rep, .prg, .chan, .store, .mem, .free, .out, .hostWait] ps = true) : Within ps s (State.wordGone t g want failed) := by
  refine h.step (a := [.regs, .holding, .evt, .nor, .host, .cmd, .ddp, .keys, .sig, .lfl, .map, .rep, .prg, .chan, .store, .mem, .free, .out, .hostWait]) ?_ hp
  unfold State.wordGone
  repeat' first
    | with_reducible exact Within.refl _ _
    | with_reducible assumption
    | (show Part.sub _ _ = true; rfl)
    | dsimp -zeta only
    | with_reducible apply State.gatherLost_frame
    | with_reducible apply State.loseWord_frame
    | with_reducible apply Within.ite
    | fail_if_no_progress (with_reducible refine Within.put (a := []) ?_ rfl rfl rfl rfl rfl)
    | split

theorem State.degradeWord_frame {ps s t} r (h : Within ps s t) (hp : Part.sub [.regs, .holding, .evt, .nor, .host, .cmd, .ddp, .keys, .sig, .lfl, .map, .rep, .prg, .chan, .store, .mem, .free, .out, .hostWait] ps = true) : Within ps s (State.degradeWord t r) := by
  refine h.step (a := [.regs, .holding, .evt, .nor, .host, .cmd, .ddp, .keys, .sig, .lfl, .map, .rep, .prg, .chan, .store, .mem, .free, .out, .hostWait]) ?_ hp
  unfold State.degradeWord
  repeat' first
    | with_reducible exact Within.refl _ _
    | with_reducible assumption
    | (show Part.sub _ _ = true; rfl)
    | (extract_lets +onlyGivenNames x; with_reducible refine Within.cut (u := x) ?_ ?_; rotate_left; intro hx; clear_value x; rename' x => y; rotate_right; unfold x; clear x)
    | (extract_lets +onlyGivenNames x; clear_value x; rename' x => z)
    | (extract_lets +onlyGivenNames x; rename' x => z)
    | dsimp -zeta only
    | with_reducible apply State.sendRing_frame
    | with_reducible apply State.sendRead_frame
    | with_reducible apply State.gatherLost_frame
    | with_reducible apply State.noteTrailer_frame
    | with_reducible apply State.notePatrol_frame
    | with_reducible apply State.wordGone_frame
    | with_reducible apply Within.ite
    | (with_reducible refine Within.foldl _ ?_ ?_; rotate_left; intro _ _)
    | (with_reducible refine Within.foldl_snd _ ?_ ?_; rotate_left; intro _ _)
    | fail_if_no_progress (with_reducible refine Within.put (a := [.lfl]) ?_ rfl rfl rfl rfl rfl)
    | split

theorem State.degradeWords_frame {ps s t} r (h : Within ps s t) (hp : Part.sub [.regs, .holding, .evt, .nor, .host, .cmd, .ddp, .keys, .sig, .lfl, .map, .rep, .prg, .chan, .store, .mem, .free, .out, .hostWait] ps = true) : Within ps s (State.degradeWords t r) := by
  refine h.step (a := [.regs, .holding, .evt, .nor, .host, .cmd, .ddp, .keys, .sig, .lfl, .map, .rep, .prg, .chan, .store, .mem, .free, .out, .hostWait]) ?_ hp
  unfold State.degradeWords
  repeat' first
    | with_reducible exact Within.refl _ _
    | with_reducible assumption
    | (show Part.sub _ _ = true; rfl)
    | dsimp -zeta only
    | with_reducible apply State.degradeWord_frame
    | with_reducible apply Within.ite
    | (with_reducible refine Within.foldl _ ?_ ?_; rotate_left; intro _ _)
    | (with_reducible refine Within.foldl_snd _ ?_ ?_; rotate_left; intro _ _)
    | fail_if_no_progress (with_reducible refine Within.put (a := []) ?_ rfl rfl rfl rfl rfl)
    | split

theorem State.degrade_frame {ps s t} r (h : Within ps s t) (hp : Part.sub [.regs, .holding, .evt, .nor, .host, .cmd, .ddp, .keys, .sig, .lfl, .map, .rep, .prg, .chan, .store, .mem, .free, .out, .hostWait] ps = true) : Within ps s (State.degrade t r) := by
  refine h.step (a := [.regs, .holding, .evt, .nor, .host, .cmd, .ddp, .keys, .sig, .lfl, .map, .rep, .prg, .chan, .store, .mem, .free, .out, .hostWait]) ?_ hp
  unfold State.degrade
  repeat' first
    | with_reducible exact Within.refl _ _
    | with_reducible assumption
    | (show Part.sub _ _ = true; rfl)
    | dsimp -zeta only
    | with_reducible apply State.bump_frame
    | with_reducible apply State.degradeWords_frame
    | with_reducible apply Within.ite
    | split

theorem State.startRead_frame {ps s t} r forced (h : Within ps s t) (hp : Part.sub [.regs, .holding, .evt, .nor, .host, .cmd, .ddp, .keys, .sig, .lfl, .map, .rep, .prg, .chan, .store, .mem, .free, .out, .hostWait] ps = true) : Within ps s (State.startRead t r forced) := by
  refine h.step (a := [.regs, .holding, .evt, .nor, .host, .cmd, .ddp, .keys, .sig, .lfl, .map, .rep, .prg, .chan, .store, .mem, .free, .out, .hostWait]) ?_ hp
  unfold State.startRead
  repeat' first
    | with_reducible exact Within.refl _ _
    | with_reducible assumption
    | (show Part.sub _ _ = true; rfl)
    | dsimp -zeta only
    | with_reducible apply State.sendRead_frame
    | with_reducible apply State.degrade_frame
    | with_reducible apply Within.ite
    | fail_if_no_progress (with_reducible refine Within.put (a := []) ?_ rfl rfl rfl rfl rfl)
    | split

theorem State.readMember_frame {ps s t} r (h : Within ps s t) (hp : Part.sub [.regs, .holding, .evt, .nor, .host, .cmd, .ddp, .keys, .sig, .lfl, .map, .rep, .prg, .chan, .store, .mem, .free, .out, .hostWait] ps = true) : Within ps s (State.readMember t r) := by
  refine h.step (a := [.regs, .holding, .evt, .nor, .host, .cmd, .ddp, .keys, .sig, .lfl, .map, .rep, .prg, .chan, .store, .mem, .free, .out, .hostWait]) ?_ hp
  unfold State.readMember
  repeat' first
    | with_reducible exact Within.refl _ _
    | with_reducible assumption
    | (show Part.sub _ _ = true; rfl)
    | dsimp -zeta only
    | with_reducible apply State.sendRead_frame
    | with_reducible apply State.degradeWords_frame
    | with_reducible apply Within.ite
    | fail_if_no_progress (with_reducible refine Within.put (a := []) ?_ rfl rfl rfl rfl rfl)
    | split

theorem State.gather_frame {ps s t} f loc forced (h : Within ps s t) (hp : Part.sub [.regs, .holding, .evt, .nor, .host, .cmd, .ddp, .keys, .sig, .lfl, .map, .rep, .prg, .chan, .store, .mem, .free, .out, .hostWait] ps = true) : Within ps s (State.gather t f loc forced) := by
  refine h.step (a := [.regs, .holding, .evt, .nor, .host, .cmd, .ddp, .keys, .sig, .lfl, .map, .rep, .prg, .chan, .store, .mem, .free, .out, .hostWait]) ?_ hp
  unfold State.gather
  repeat' first
    | with_reducible exact Within.refl _ _
    | with_reducible assumption
    | (show Part.sub _ _ = true; rfl)
    | (extract_lets +onlyGivenNames x; with_reducible refine Within.cut (u := x) ?_ ?_; rotate_left; intro hx; clear_value x; rename' x => y; rotate_right; unfold x; clear x)
    | (extract_lets +onlyGivenNames x; clear_value x; rename' x => z)
    | (extract_lets +onlyGivenNames x; rename' x => z)
    | dsimp -zeta only
    | with_reducible apply State.deliverCopy_frame
    | with_reducible apply State.startRead_frame
    | with_reducible apply Within.ite
    | (with_reducible refine Within.foldl _ ?_ ?_; rotate_left; intro _ _)
    | (with_reducible refine Within.foldl_snd _ ?_ ?_; rotate_left; intro _ _)
    | fail_if_no_progress (with_reducible refine Within.put (a := [.lfl]) ?_ rfl rfl rfl rfl rfl)
    | split

theorem State.settleRemote_frame {ps s t}  (h : Within ps s t) (hp : Part.sub [.ddp, .chan, .out] ps = true) : Within ps s (State.settleRemote t) := by
  refine h.step (a := [.ddp, .chan, .out]) ?_ hp
  unfold State.settleRemote
  repeat' first
    | with_reducible exact Within.refl _ _
    | with_reducible assumption
    | (show Part.sub _ _ = true; rfl)
    | (extract_lets +onlyGivenNames x; with_reducible refine Within.cut (u := x) ?_ ?_; rotate_left; intro hx; clear_value x; rename' x => y; rotate_right; unfold x; clear x)
    | (extract_lets +onlyGivenNames x; clear_value x; rename' x => z)
    | (extract_lets +onlyGivenNames x; rename' x => z)
    | dsimp -zeta only
    | with_reducible apply State.sendRing_frame
    | with_reducible apply Within.ite
    | (with_reducible refine Within.foldl _ ?_ ?_; rotate_left; intro _ _)
    | (with_reducible refine Within.foldl_snd _ ?_ ?_; rotate_left; intro _ _)
    | fail_if_no_progress (with_reducible refine Within.put (a := [.ddp]) ?_ rfl rfl rfl rfl rfl)
    | split

theorem State.askRemote_frame {ps s t} f loc (h : Within ps s t) (hp : Part.sub [.block 4, .block 6, .block 10, .block 11, .block 18, .evt, .nor, .host, .cmd, .ddp, .keys, .sig, .rep, .prg, .chan, .free, .out, .hostWait] ps = true) : Within ps s (State.askRemote t f loc) := by
  refine h.step (a := [.block 4, .block 6, .block 10, .block 11, .block 18, .evt, .nor, .host, .cmd, .ddp, .keys, .sig, .rep, .prg, .chan, .free, .out, .hostWait]) ?_ hp
  unfold State.askRemote
  repeat' first
    | with_reducible exact Within.refl _ _
    | with_reducible assumption
    | (show Part.sub _ _ = true; rfl)
    | dsimp -zeta only
    | with_reducible apply State.deliverCopy_frame
    | with_reducible apply State.settleRemote_frame
    | with_reducible apply Within.ite
    | fail_if_no_progress (with_reducible refine Within.put (a := [.ddp]) ?_ rfl rfl rfl rfl rfl)
    | split

theorem State.fetchCopy_frame {ps s t} f loc forced (h : Within ps s t) (hp : Part.sub [.regs, .holding, .evt, .nor, .host, .cmd, .ddp, .keys, .sig, .lfl, .map, .rep, .prg, .chan, .store, .mem, .free, .out, .hostWait] ps = true) : Within ps s (State.fetchCopy t f loc forced) := by
  refine h.step (a := [.regs, .holding, .evt, .nor, .host, .cmd, .ddp, .keys, .sig, .lfl, .map, .rep, .prg, .chan, .store, .mem, .free, .out, .hostWait]) ?_ hp
  unfold State.fetchCopy
  repeat' first
    | with_reducible exact Within.refl _ _
    | with_reducible assumption
    | (show Part.sub _ _ = true; rfl)
    | dsimp -zeta only
    | with_reducible apply State.deliverCopy_frame
    | with_reducible apply State.gather_frame
    | with_reducible apply State.askRemote_frame
    | with_reducible apply Within.ite
    | fail_if_no_progress (with_reducible refine Within.put (a := []) ?_ rfl rfl rfl rfl rfl)
    | split

theorem State.sendData_frame {ps s t} bt off bytes (h : Within ps s t) (hp : Part.sub [.ports, .trn, .cmd, .out] ps = true) : Within ps s (State.sendData t bt off bytes) := by
  refine h.step (a := [.ports, .trn, .cmd, .out]) ?_ hp
  unfold State.sendData
  repeat' first
    | with_reducible exact Within.refl _ _
    | with_reducible assumption
    | (show Part.sub _ _ = true; rfl)
    | (extract_lets +onlyGivenNames x; with_reducible refine Within.cut (u := x) ?_ ?_; rotate_left; intro hx; clear_value x; rename' x => y; rotate_right; unfold x; clear x)
    | (extract_lets +onlyGivenNames x; clear_value x; rename' x => z)
    | (extract_lets +onlyGivenNames x; rename' x => z)
    | dsimp -zeta only
    | with_reducible apply State.transmit_frame
    | with_reducible apply State.setTag_frame
    | with_reducible apply Within.ite
    | fail_if_no_progress (with_reducible refine Within.put (a := []) ?_ rfl rfl rfl rfl rfl)
    | split

theorem State.pieceDone_frame {ps s t} bt k p plain (h : Within ps s t) (hp : Part.sub [.ports, .trn, .cmd, .out] ps = true) : Within ps s (State.pieceDone t bt k p plain) := by
  refine h.step (a := [.ports, .trn, .cmd, .out]) ?_ hp
  unfold State.pieceDone
  repeat' first
    | with_reducible exact Within.refl _ _
    | with_reducible assumption
    | (show Part.sub _ _ = true; rfl)
    | dsimp -zeta only
    | with_reducible apply State.modPiece_frame
    | with_reducible apply State.sendData_frame
    | with_reducible apply Within.ite
    | fail_if_no_progress (with_reducible refine Within.put (a := []) ?_ rfl rfl rfl rfl rfl)
    | split

theorem State.checkRead_frame {ps s t} bt (h : Within ps s t) (hp : Part.sub [.cmd] ps = true) : Within ps s (State.checkRead t bt) := by
  refine h.step (a := [.cmd]) ?_ hp
  unfold State.checkRead
  repeat' first
    | with_reducible exact Within.refl _ _
    | with_reducible assumption
    | (show Part.sub _ _ = true; rfl)
    | dsimp -zeta only
    | with_reducible apply State.finish_frame
    | with_reducible apply Within.ite
    | fail_if_no_progress (with_reducible refine Within.put (a := []) ?_ rfl rfl rfl rfl rfl)
    | split

theorem State.sendForwardedPiece_frame {ps s t} bt k c p container (h : Within ps s t) (hp : Part.sub [.cmd, .chan, .out] ps = true) : Within ps s (State.sendForwardedPiece t bt k c p container) := by
  refine h.step (a := [.cmd, .chan, .out]) ?_ hp
  unfold State.sendForwardedPiece
  repeat' first
    | with_reducible exact Within.refl _ _
    | with_reducible assumption
    | (show Part.sub _ _ = true; rfl)
    | (extract_lets +onlyGivenNames x; with_reducible refine Within.cut (u := x) ?_ ?_; rotate_left; intro hx; clear_value x; rename' x => y; rotate_right; unfold x; clear x)
    | (extract_lets +onlyGivenNames x; clear_value x; rename' x => z)
    | (extract_lets +onlyGivenNames x; rename' x => z)
    | dsimp -zeta only
    | with_reducible apply State.sendRing_frame
    | with_reducible apply State.modPiece_frame
    | with_reducible apply State.checkRead_frame
    | with_reducible apply Within.ite
    | fail_if_no_progress (with_reducible refine Within.put (a := []) ?_ rfl rfl rfl rfl rfl)
    | split

theorem State.startPieces_frame {ps s t} bt pieces (h : Within ps s t) (hp : Part.sub [.regs, .holding, .evt, .nor, .host, .ports, .trn, .cmd, .ddp, .keys, .sig, .lfl, .map, .rep, .prg, .chan, .store, .mem, .free, .out, .hostWait] ps = true) : Within ps s (State.startPieces t bt pieces) := by
  refine h.step (a := [.regs, .holding, .evt, .nor, .host, .ports, .trn, .cmd, .ddp, .keys, .sig, .lfl, .map, .rep, .prg, .chan, .store, .mem, .free, .out, .hostWait]) ?_ hp
  unfold State.startPieces
  repeat' first
    | with_reducible exact Within.refl _ _
    | with_reducible assumption
    | (show Part.sub _ _ = true; rfl)
    | (extract_lets +onlyGivenNames x; with_reducible refine Within.cut (u := x) ?_ ?_; rotate_left; intro hx; clear_value x; rename' x => y; rotate_right; unfold x; clear x)
    | (extract_lets +onlyGivenNames x; clear_value x; rename' x => z)
    | (extract_lets +onlyGivenNames x; rename' x => z)
    | dsimp -zeta only
    | with_reducible apply State.fetchCopy_frame
    | with_reducible apply State.pieceDone_frame
    | with_reducible apply State.sendForwardedPiece_frame
    | with_reducible apply Within.ite
    | (with_reducible refine Within.foldl _ ?_ ?_; rotate_left; intro _ _)
    | (with_reducible refine Within.foldl_snd _ ?_ ?_; rotate_left; intro _ _)
    | fail_if_no_progress (with_reducible refine Within.put (a := []) ?_ rfl rfl rfl rfl rfl)
    | split

theorem State.resolveRead_frame {ps s t} bt (h : Within ps s t) (hp : Part.sub [.regs, .holding, .evt, .nor, .host, .ports, .trn, .cmd, .ddp, .keys, .sig, .lfl, .map, .rep, .prg, .chan, .store, .mem, .free, .out, .hostWait] ps = true) : Within ps s (State.resolveRead t bt) := by
  refine h.step (a := [.regs, .holding, .evt, .nor, .host, .ports, .trn, .cmd, .ddp, .keys, .sig, .lfl, .map, .rep, .prg, .chan, .store, .mem, .free, .out, .hostWait]) ?_ hp
  unfold State.resolveRead
  repeat' first
    | with_reducible exact Within.refl _ _
    | with_reducible assumption
    | (show Part.sub _ _ = true; rfl)
    | (extract_lets +onlyGivenNames x; with_reducible refine Within.cut (u := x) ?_ ?_; rotate_left; intro hx; clear_value x; rename' x => y; rotate_right; unfold x; clear x)
    | (extract_lets +onlyGivenNames x; clear_value x; rename' x => z)
    | (extract_lets +onlyGivenNames x; rename' x => z)
    | dsimp -zeta only
    | with_reducible apply State.bump_frame
    | with_reducible apply State.touchWalk_frame
    | with_reducible apply State.modTag_frame
    | with_reducible apply State.failRead_frame
    | with_reducible apply State.checkRead_frame
    | with_reducible apply State.startPieces_frame
    | with_reducible apply Within.ite
    | fail_if_no_progress (with_reducible refine Within.put (a := [.map]) ?_ rfl rfl rfl rfl rfl)
    | split

theorem State.resumeTag_frame {ps s t} bt (h : Within ps s t) (hp : Part.sub [.regs, .holding, .evt, .nor, .host, .ports, .trn, .cmd, .ddp, .keys, .sig, .lfl, .map, .rep, .prg, .chan, .store, .mem, .free, .out, .hostWait] ps = true) : Within ps s (State.resumeTag t bt) := by
  refine h.step (a := [.regs, .holding, .evt, .nor, .host, .ports, .trn, .cmd, .ddp, .keys, .sig, .lfl, .map, .rep, .prg, .chan, .store, .mem, .free, .out, .hostWait]) ?_ hp
  unfold State.resumeTag
  repeat' first
    | with_reducible exact Within.refl _ _
    | with_reducible assumption
    | (show Part.sub _ _ = true; rfl)
    | dsimp -zeta only
    | with_reducible apply State.commitTag_frame
    | with_reducible apply State.resolveRead_frame
    | with_reducible apply Within.ite
    | split

theorem State.resumeMap_frame {ps s t}  (h : Within ps s t) (hp : Part.sub [.regs, .holding, .evt, .nor, .host, .ports, .trn, .cmd, .ddp, .keys, .sig, .lfl, .map, .rep, .prg, .chan, .store, .mem, .free, .out, .hostWait] ps = true) : Within ps s (State.resumeMap t) := by
  refine h.step (a := [.regs, .holding, .evt, .nor, .host, .ports, .trn, .cmd, .ddp, .keys, .sig, .lfl, .map, .rep, .prg, .chan, .store, .mem, .free, .out, .hostWait]) ?_ hp
  unfold State.resumeMap
  repeat' first
    | with_reducible exact Within.refl _ _
    | with_reducible assumption
    | (show Part.sub _ _ = true; rfl)
    | (extract_lets +onlyGivenNames x; with_reducible refine Within.cut (u := x) ?_ ?_; rotate_left; intro hx; clear_value x; rename' x => y; rotate_right; unfold x; clear x)
    | (extract_lets +onlyGivenNames x; clear_value x; rename' x => z)
    | (extract_lets +onlyGivenNames x; rename' x => z)
    | dsimp -zeta only
    | with_reducible apply State.resumeDeltas_frame
    | with_reducible apply State.resumeTag_frame
    | with_reducible apply Within.ite
    | (with_reducible refine Within.foldl _ ?_ ?_; rotate_left; intro _ _)
    | (with_reducible refine Within.foldl_snd _ ?_ ?_; rotate_left; intro _ _)
    | fail_if_no_progress (with_reducible refine Within.put (a := [.map]) ?_ rfl rfl rfl rfl rfl)
    | split

theorem State.endCompare_frame {ps s t} bt equal (h : Within ps s t) (hp : Part.sub [.block 4, .block 6, .block 10, .evt, .nor, .host, .cmd, .out, .hostWait] ps = true) : Within ps s (State.endCompare t bt equal) := by
  refine h.step (a := [.block 4, .block 6, .block 10, .evt, .nor, .host, .cmd, .out, .hostWait]) ?_ hp
  unfold State.endCompare
  repeat' first
    | with_reducible exact Within.refl _ _
    | with_reducible assumption
    | (show Part.sub _ _ = true; rfl)
    | (extract_lets +onlyGivenNames x; with_reducible refine Within.cut (u := x) ?_ ?_; rotate_left; intro hx; clear_value x; rename' x => y; rotate_right; unfold x; clear x)
    | (extract_lets +onlyGivenNames x; clear_value x; rename' x => z)
    | (extract_lets +onlyGivenNames x; rename' x => z)
    | dsimp -zeta only
    | with_reducible apply State.event1_frame
    | with_reducible apply State.modTag_frame
    | with_reducible apply State.noteTags_frame
    | with_reducible apply State.start_frame
    | with_reducible apply State.refuse_frame
    | with_reducible apply State.finish_frame
    | with_reducible apply Within.ite
    | fail_if_no_progress (with_reducible refine Within.put (a := []) ?_ rfl rfl rfl rfl rfl)
    | split

theorem State.checkCompare_frame {ps s t} bt upset (h : Within ps s t) (hp : Part.sub [.block 4, .block 6, .block 10, .block 11, .block 12, .block 13, .block 19, .block 20, .evt, .nor, .host, .ports, .trn, .cmd, .bnd, .ddp, .keys, .wc, .sig, .lfl, .map, .prg, .chan, .store, .free, .out, .hostWait] ps = true) : Within ps s (State.checkCompare t bt upset) := by
  refine h.step (a := [.block 4, .block 6, .block 10, .block 11, .block 12, .block 13, .block 19, .block 20, .evt, .nor, .host, .ports, .trn, .cmd, .bnd, .ddp, .keys, .wc, .sig, .lfl, .map, .prg, .chan, .store, .free, .out, .hostWait]) ?_ hp
  unfold State.checkCompare
  repeat' first
    | with_reducible exact Within.refl _ _
    | with_reducible assumption
    | (show Part.sub _ _ = true; rfl)
    | (extract_lets +onlyGivenNames x; with_reducible refine Within.cut (u := x) ?_ ?_; rotate_left; intro hx; clear_value x; rename' x => y; rotate_right; unfold x; clear x)
    | (extract_lets +onlyGivenNames x; clear_value x; rename' x => z)
    | (extract_lets +onlyGivenNames x; rename' x => z)
    | dsimp -zeta only
    | with_reducible apply State.bump_frame
    | with_reducible apply State.event1_frame
    | with_reducible apply State.sendRing_frame
    | with_reducible apply State.modTag_frame
    | with_reducible apply State.fetchForwarded_frame
    | with_reducible apply State.feedInCapsule_frame
    | with_reducible apply State.endCompare_frame
    | with_reducible apply Within.ite
    | fail_if_no_progress (with_reducible refine Within.put (a := []) ?_ rfl rfl rfl rfl rfl)
    | split

end Sys2Proof.Machine
end

