-- ==== Sys2Proof/Laws/FrameNet.lean ====
section
/-!
SUPPORT. Laws/FrameNet.lean: what the definitions of Machine/Net.lean leave alone: each changes the listed parts at most, and keeps the
canonical form.
-/
namespace Sys2Proof.Machine
open Sys2Proof

set_option Elab.async false
set_option linter.all false

theorem State.atQp_frame {ps s t} p isSend run (h : Within ps s t) (hp : Part.sub [.block 9, .ports, .trn, .out] ps = true)
    (hr : ∀ u, Within ps u (run u)) : Within ps s (State.atQp t p isSend run) := by
  have d : Within ps s (t.dropPacket 2) := State.dropPacket_frame 2 h (Part.sub_trans (by decide) hp)
  have n (x : Nat) : Within ps s (t.nak p.qpn (.rnrNak p.psn x)) := State.nak_frame _ _ h (Part.sub_trans (by decide) hp)
  unfold State.atQp
  split
  · exact d
  · exact d
  · exact h
  · exact Within.ite (n _) d
  · exact h.trans (hr _)
  · exact h.trans (hr _)
  · exact h.trans (hr _)

theorem State.takeDirect_frame {ps s t} p (h : Within ps s t) (hp : Part.sub [.trn] ps = true) : Within ps s (State.takeDirect t p) := by
  refine h.step (a := [.trn]) ?_ hp
  unfold State.takeDirect
  repeat' first
    | with_reducible exact Within.refl _ _
    | with_reducible assumption
    | (show Part.sub _ _ = true; rfl)
    | dsimp -zeta only
    | with_reducible apply Within.ite
    | fail_if_no_progress (with_reducible refine Within.put (a := [.trn]) ?_ rfl rfl rfl rfl rfl)
    | split

theorem State.recvSendInvalidate_frame {ps s t} p (h : Within ps s t) (hp : Part.sub (.block 1 :: .block 4 :: .block 5 :: .block 6 :: .block 10 :: .block 11 :: .block 12 :: .block 13 :: .block 19 :: .block 20 :: .power :: .test :: .evt :: .nor :: .host :: .ports :: .trn :: .cmd :: .ddp :: .keys :: .sig :: .lfl :: .map :: .rep :: .prg :: .chan :: .store :: .free :: .out :: .hostWait :: []) ps = true) : Within ps s (State.recvSendInvalidate t p) := by
  refine h.step (a := (.block 1 :: .block 4 :: .block 5 :: .block 6 :: .block 10 :: .block 11 :: .block 12 :: .block 13 :: .block 19 :: .block 20 :: .power :: .test :: .evt :: .nor :: .host :: .ports :: .trn :: .cmd :: .ddp :: .keys :: .sig :: .lfl :: .map :: .rep :: .prg :: .chan :: .store :: .free :: .out :: .hostWait :: [])) ?_ hp
  unfold State.recvSendInvalidate
  repeat' first
    | with_reducible exact Within.refl _ _
    | with_reducible assumption
    | (show Part.sub _ _ = true; rfl)
    | (extract_lets +onlyGivenNames x; with_reducible refine Within.cut (u := x) ?_ ?_; rotate_left; intro hx; clear_value x; rename' x => y; rotate_right; unfold x; clear x)
    | (extract_lets +onlyGivenNames x; clear_value x; rename' x => z)
    | (extract_lets +onlyGivenNames x; rename' x => z)
    | dsimp -zeta only
    | with_reducible apply State.invalidate_frame
    | with_reducible apply State.endInvalidation_frame
    | with_reducible apply State.nakAccess_frame
    | with_reducible apply State.recvSend_frame
    | with_reducible apply Within.ite
    | fail_if_no_progress (with_reducible refine Within.put (a := []) ?_ rfl rfl rfl rfl rfl)
    | split

theorem State.landRead_frame {ps s t} n r bytes (h : Within ps s t) (hp : Part.sub [.block 4, .block 6, .block 11, .block 12, .block 13, .block 19, .block 20, .evt, .nor, .host, .cmd, .bnd, .ddp, .keys, .sig, .lfl, .map, .prg, .chan, .store, .mem, .free, .out, .hostWait] ps = true) : Within ps s (State.landRead t n r bytes) := by
  refine h.step (a := [.block 4, .block 6, .block 11, .block 12, .block 13, .block 19, .block 20, .evt, .nor, .host, .cmd, .bnd, .ddp, .keys, .sig, .lfl, .map, .prg, .chan, .store, .mem, .free, .out, .hostWait]) ?_ hp
  unfold State.landRead
  repeat' first
    | with_reducible exact Within.refl _ _
    | with_reducible assumption
    | (show Part.sub _ _ = true; rfl)
    | dsimp -zeta only
    | with_reducible apply State.ddrWriteList_frame
    | with_reducible apply State.modTag_frame
    | with_reducible apply State.feedSegment_frame
    | with_reducible apply Within.ite
    | fail_if_no_progress (with_reducible refine Within.put (a := []) ?_ rfl rfl rfl rfl rfl)
    | split

theorem State.endRead_frame {ps s t} n r (h : Within ps s t) (hp : Part.sub [.block 4, .block 6, .block 10, .block 11, .block 12, .block 13, .block 19, .block 20, .evt, .nor, .host, .ports, .trn, .cmd, .bnd, .ddp, .keys, .wc, .sig, .lfl, .map, .prg, .chan, .store, .free, .out, .hostWait] ps = true) : Within ps s (State.endRead t n r) := by
  refine h.step (a := [.block 4, .block 6, .block 10, .block 11, .block 12, .block 13, .block 19, .block 20, .evt, .nor, .host, .ports, .trn, .cmd, .bnd, .ddp, .keys, .wc, .sig, .lfl, .map, .prg, .chan, .store, .free, .out, .hostWait]) ?_ hp
  unfold State.endRead
  repeat' first
    | with_reducible exact Within.refl _ _
    | with_reducible assumption
    | (show Part.sub _ _ = true; rfl)
    | (extract_lets +onlyGivenNames x; with_reducible refine Within.cut (u := x) ?_ ?_; rotate_left; intro hx; clear_value x; rename' x => y; rotate_right; unfold x; clear x)
    | (extract_lets +onlyGivenNames x; clear_value x; rename' x => z)
    | (extract_lets +onlyGivenNames x; rename' x => z)
    | dsimp -zeta only
    | with_reducible apply State.setQp_frame
    | with_reducible apply State.modTag_frame
    | with_reducible apply State.popRead_frame
    | with_reducible apply State.endWork_frame
    | with_reducible apply State.tryHandOff_frame
    | with_reducible apply State.pumpLanes_frame
    | with_reducible apply State.checkCompare_frame
    | with_reducible apply Within.ite
    | fail_if_no_progress (with_reducible refine Within.put (a := []) ?_ rfl rfl rfl rfl rfl)
    | split

theorem State.recvReadResponse_frame {ps s t} p (h : Within ps s t) (hp : Part.sub (.block 1 :: .block 4 :: .block 5 :: .block 6 :: .block 9 :: .block 10 :: .block 11 :: .block 12 :: .block 13 :: .block 19 :: .block 20 :: .power :: .test :: .evt :: .nor :: .host :: .ports :: .trn :: .cmd :: .bnd :: .ddp :: .keys :: .wc :: .sig :: .lfl :: .map :: .rep :: .prg :: .chan :: .store :: .mem :: .free :: .out :: .hostWait :: []) ps = true) : Within ps s (State.recvReadResponse t p) := by
  refine h.step (a := (.block 1 :: .block 4 :: .block 5 :: .block 6 :: .block 9 :: .block 10 :: .block 11 :: .block 12 :: .block 13 :: .block 19 :: .block 20 :: .power :: .test :: .evt :: .nor :: .host :: .ports :: .trn :: .cmd :: .bnd :: .ddp :: .keys :: .wc :: .sig :: .lfl :: .map :: .rep :: .prg :: .chan :: .store :: .mem :: .free :: .out :: .hostWait :: [])) ?_ hp
  unfold State.recvReadResponse
  repeat' first
    | with_reducible exact Within.refl _ _
    | with_reducible assumption
    | (show Part.sub _ _ = true; rfl)
    | (extract_lets +onlyGivenNames x; with_reducible refine Within.cut (u := x) ?_ ?_; rotate_left; intro hx; clear_value x; rename' x => y; rotate_right; unfold x; clear x)
    | (extract_lets +onlyGivenNames x; clear_value x; rename' x => z)
    | (extract_lets +onlyGivenNames x; rename' x => z)
    | dsimp -zeta only
    | with_reducible apply State.setQp_frame
    | with_reducible apply State.issueReads_frame
    | with_reducible apply State.dropPacket_frame
    | with_reducible apply State.qpError_frame
    | with_reducible apply State.ackUpTo_frame
    | with_reducible apply State.landRead_frame
    | with_reducible apply State.endRead_frame
    | with_reducible apply Within.ite
    | fail_if_no_progress (with_reducible refine Within.put (a := []) ?_ rfl rfl rfl rfl rfl)
    | split

theorem State.processPacket_frame {ps s t} p (h : Within ps s t) (hp : Part.sub (.block 1 :: .block 4 :: .block 5 :: .block 6 :: .block 9 :: .block 10 :: .block 11 :: .block 12 :: .block 13 :: .block 19 :: .block 20 :: .power :: .test :: .evt :: .nor :: .host :: .ports :: .trn :: .cmd :: .bnd :: .ddp :: .keys :: .wc :: .sig :: .lfl :: .map :: .rep :: .prg :: .chan :: .store :: .mem :: .free :: .out :: .hostWait :: []) ps = true) : Within ps s (State.processPacket t p) := by
  refine h.step (a := (.block 1 :: .block 4 :: .block 5 :: .block 6 :: .block 9 :: .block 10 :: .block 11 :: .block 12 :: .block 13 :: .block 19 :: .block 20 :: .power :: .test :: .evt :: .nor :: .host :: .ports :: .trn :: .cmd :: .bnd :: .ddp :: .keys :: .wc :: .sig :: .lfl :: .map :: .rep :: .prg :: .chan :: .store :: .mem :: .free :: .out :: .hostWait :: [])) ?_ hp
  unfold State.processPacket
  repeat' first
    | with_reducible exact Within.refl _ _
    | with_reducible assumption
    | (show Part.sub _ _ = true; rfl)
    | dsimp -zeta only
    | with_reducible apply State.nakInvalid_frame
    | with_reducible apply State.recvSend_frame
    | with_reducible apply State.recvWrite_frame
    | with_reducible apply State.recvReadRequest_frame
    | with_reducible apply State.recvAck_frame
    | with_reducible apply State.atQp_frame
    | with_reducible apply State.recvSendInvalidate_frame
    | with_reducible apply State.recvReadResponse_frame
    | intro _
    | with_reducible apply Within.ite
    | split

theorem State.arriveQt_frame {ps s t} p (h : Within ps s t) (hp : Part.sub [.block 9, .ports, .trn, .out] ps = true) : Within ps s (State.arriveQt t p) := by
  refine h.step (a := [.block 9, .ports, .trn, .out]) ?_ hp
  unfold State.arriveQt
  repeat' first
    | with_reducible exact Within.refl _ _
    | with_reducible assumption
    | (show Part.sub _ _ = true; rfl)
    | (extract_lets +onlyGivenNames x; with_reducible refine Within.cut (u := x) ?_ ?_; rotate_left; intro hx; clear_value x; rename' x => y; rotate_right; unfold x; clear x)
    | (extract_lets +onlyGivenNames x; clear_value x; rename' x => z)
    | (extract_lets +onlyGivenNames x; rename' x => z)
    | dsimp -zeta only
    | with_reducible apply State.dropPacket_frame
    | with_reducible apply State.touchQp_frame
    | with_reducible apply State.startFetch_frame
    | with_reducible apply State.laybyJoin_frame
    | with_reducible apply State.markCe_frame
    | with_reducible apply Within.ite
    | fail_if_no_progress (with_reducible refine Within.put (a := [.trn]) ?_ rfl rfl rfl rfl rfl)
    | split

theorem execFrameReceive_frame frame s : Lands [.block 6, .block 8, .block 9, .host, .ports, .trn, .out, .hostWait] s (execFrameReceive frame s) := by
  unfold execFrameReceive
  repeat' first
    | with_reducible exact Within.refl _ _
    | with_reducible assumption
    | (show Part.sub _ _ = true; rfl)
    | with_reducible apply Lands.next
    | (extract_lets +onlyGivenNames x; with_reducible refine Lands.cut (u := x) ?_ ?_; rotate_left; intro hx; clear_value x; rename' x => y; rotate_right; unfold x; clear x)
    | (extract_lets +onlyGivenNames x; with_reducible refine Within.cut (u := x) ?_ ?_; rotate_left; intro hx; clear_value x; rename' x => y; rotate_right; unfold x; clear x)
    | (extract_lets +onlyGivenNames x; clear_value x; rename' x => z)
    | (extract_lets +onlyGivenNames x; rename' x => z)
    | dsimp -zeta only
    | with_reducible apply State.bump_frame
    | with_reducible apply State.dropPacket_frame
    | with_reducible apply State.hostFrame_frame
    | with_reducible apply State.validate_frame
    | with_reducible apply State.arriveQt_frame
    | with_reducible apply Lands.ite
    | with_reducible apply Within.ite
    | fail_if_no_progress (with_reducible refine Within.put (a := []) ?_ rfl rfl rfl rfl rfl)
    | split
    | (with_reducible refine Within.of_pair (by assumption) ?_)

theorem execHostLimitWindow_frame  s : Lands [.ports] s (execHostLimitWindow s) := by
  unfold execHostLimitWindow
  repeat' first
    | with_reducible exact Within.refl _ _
    | with_reducible assumption
    | (show Part.sub _ _ = true; rfl)
    | with_reducible apply Lands.next
    | dsimp -zeta only
    | with_reducible apply Lands.ite
    | with_reducible apply Within.ite
    | fail_if_no_progress (with_reducible refine Within.put (a := [.ports]) ?_ rfl rfl rfl rfl rfl)
    | split

theorem execLinkChange_frame lport up s : Lands [.regs, .holding] s (execLinkChange lport up s) := by
  unfold execLinkChange
  repeat' first
    | with_reducible exact Within.refl _ _
    | with_reducible assumption
    | (show Part.sub _ _ = true; rfl)
    | with_reducible apply Lands.next
    | (extract_lets +onlyGivenNames x; with_reducible refine Lands.cut (u := x) ?_ ?_; rotate_left; intro hx; clear_value x; rename' x => y; rotate_right; unfold x; clear x)
    | (extract_lets +onlyGivenNames x; with_reducible refine Within.cut (u := x) ?_ ?_; rotate_left; intro hx; clear_value x; rename' x => y; rotate_right; unfold x; clear x)
    | (extract_lets +onlyGivenNames x; clear_value x; rename' x => z)
    | (extract_lets +onlyGivenNames x; rename' x => z)
    | dsimp -zeta only
    | with_reducible apply State.wr_frame
    | with_reducible apply State.raise_frame
    | with_reducible apply Lands.ite
    | with_reducible apply Within.ite
    | split

theorem execPfcReceive_frame lport times s : Lands [.regs, .holding, .host, .ports, .trn, .out, .hostWait] s (execPfcReceive lport times s) := by
  unfold execPfcReceive
  repeat' first
    | with_reducible exact Within.refl _ _
    | with_reducible assumption
    | (show Part.sub _ _ = true; rfl)
    | with_reducible apply Lands.next
    | (extract_lets +onlyGivenNames x; with_reducible refine Lands.cut (u := x) ?_ ?_; rotate_left; intro hx; clear_value x; rename' x => y; rotate_right; unfold x; clear x)
    | (extract_lets +onlyGivenNames x; with_reducible refine Within.cut (u := x) ?_ ?_; rotate_left; intro hx; clear_value x; rename' x => y; rotate_right; unfold x; clear x)
    | (extract_lets +onlyGivenNames x; clear_value x; rename' x => z)
    | (extract_lets +onlyGivenNames x; rename' x => z)
    | dsimp -zeta only
    | with_reducible apply State.setLPort_frame
    | with_reducible apply State.unpause_frame
    | with_reducible apply Lands.ite
    | with_reducible apply Within.ite
    | (with_reducible refine Within.foldl _ ?_ ?_; rotate_left; intro _ _)
    | (with_reducible refine Within.foldl_snd _ ?_ ?_; rotate_left; intro _ _)
    | fail_if_no_progress (with_reducible refine Within.put (a := []) ?_ rfl rfl rfl rfl rfl)
    | split

theorem execPfcPauseExpiry_frame lport priority s : Lands [.regs, .holding, .host, .ports, .trn, .out, .hostWait] s (execPfcPauseExpiry lport priority s) := by
  unfold execPfcPauseExpiry
  repeat' first
    | with_reducible exact Within.refl _ _
    | with_reducible assumption
    | (show Part.sub _ _ = true; rfl)
    | with_reducible apply Lands.next
    | dsimp -zeta only
    | with_reducible apply State.unpause_frame
    | with_reducible apply Lands.ite
    | with_reducible apply Within.ite
    | split

theorem execXoffRefresh_frame  s : Lands [.out] s (execXoffRefresh s) := by
  unfold execXoffRefresh
  repeat' first
    | with_reducible exact Within.refl _ _
    | with_reducible assumption
    | (show Part.sub _ _ = true; rfl)
    | with_reducible apply Lands.next
    | dsimp -zeta only
    | with_reducible apply State.sendPfc_frame
    | with_reducible apply Lands.ite
    | with_reducible apply Within.ite
    | split

theorem execFrameTransmit_frame frame s : Lands [.regs, .holding, .host, .ports, .trn, .out, .hostWait] s (execFrameTransmit frame s) := by
  unfold execFrameTransmit
  repeat' first
    | with_reducible exact Within.refl _ _
    | with_reducible assumption
    | (show Part.sub _ _ = true; rfl)
    | with_reducible apply Lands.next
    | dsimp -zeta only
    | with_reducible apply State.transmitFrame_frame
    | with_reducible apply Lands.ite
    | with_reducible apply Within.ite
    | split

theorem execPtpTxStampRead_frame port s : Lands [.block 8, .trn, .out] s (execPtpTxStampRead port s) := by
  unfold execPtpTxStampRead
  repeat' first
    | with_reducible exact Within.refl _ _
    | with_reducible assumption
    | (show Part.sub _ _ = true; rfl)
    | with_reducible apply Lands.next
    | (extract_lets +onlyGivenNames x; with_reducible refine Lands.cut (u := x) ?_ ?_; rotate_left; intro hx; clear_value x; rename' x => y; rotate_right; unfold x; clear x)
    | (extract_lets +onlyGivenNames x; with_reducible refine Within.cut (u := x) ?_ ?_; rotate_left; intro hx; clear_value x; rename' x => y; rotate_right; unfold x; clear x)
    | (extract_lets +onlyGivenNames x; clear_value x; rename' x => z)
    | (extract_lets +onlyGivenNames x; rename' x => z)
    | dsimp -zeta only
    | with_reducible apply State.send_frame
    | with_reducible apply State.popStamp_frame
    | with_reducible apply Lands.ite
    | with_reducible apply Within.ite
    | split

theorem execRoceCnp_frame qpn s : Lands [.block 9, .trn] s (execRoceCnp qpn s) := by
  unfold execRoceCnp
  repeat' first
    | with_reducible exact Within.refl _ _
    | with_reducible assumption
    | (show Part.sub _ _ = true; rfl)
    | with_reducible apply Lands.next
    | dsimp -zeta only
    | with_reducible apply State.dropPacket_frame
    | with_reducible apply State.cutRate_frame
    | with_reducible apply Lands.ite
    | with_reducible apply Within.ite
    | split

theorem execRateIncrease_frame qpn s : Lands [.trn] s (execRateIncrease qpn s) := by
  unfold execRateIncrease
  repeat' first
    | with_reducible exact Within.refl _ _
    | with_reducible assumption
    | (show Part.sub _ _ = true; rfl)
    | with_reducible apply Lands.next
    | (extract_lets +onlyGivenNames x; with_reducible refine Lands.cut (u := x) ?_ ?_; rotate_left; intro hx; clear_value x; rename' x => y; rotate_right; unfold x; clear x)
    | (extract_lets +onlyGivenNames x; with_reducible refine Within.cut (u := x) ?_ ?_; rotate_left; intro hx; clear_value x; rename' x => y; rotate_right; unfold x; clear x)
    | (extract_lets +onlyGivenNames x; clear_value x; rename' x => z)
    | (extract_lets +onlyGivenNames x; rename' x => z)
    | dsimp -zeta only
    | with_reducible apply Lands.ite
    | with_reducible apply Within.ite
    | fail_if_no_progress (with_reducible refine Within.put (a := [.trn]) ?_ rfl rfl rfl rfl rfl)
    | split

theorem execContextWritebackAck_frame qpn s : Lands [.block 9, .trn] s (execContextWritebackAck qpn s) := by
  unfold execContextWritebackAck
  repeat' first
    | with_reducible exact Within.refl _ _
    | with_reducible assumption
    | (show Part.sub _ _ = true; rfl)
    | with_reducible apply Lands.next
    | (extract_lets +onlyGivenNames x; with_reducible refine Lands.cut (u := x) ?_ ?_; rotate_left; intro hx; clear_value x; rename' x => y; rotate_right; unfold x; clear x)
    | (extract_lets +onlyGivenNames x; with_reducible refine Within.cut (u := x) ?_ ?_; rotate_left; intro hx; clear_value x; rename' x => y; rotate_right; unfold x; clear x)
    | (extract_lets +onlyGivenNames x; clear_value x; rename' x => z)
    | (extract_lets +onlyGivenNames x; rename' x => z)
    | dsimp -zeta only
    | with_reducible apply State.startFetch_frame
    | with_reducible apply Lands.ite
    | with_reducible apply Within.ite
    | fail_if_no_progress (with_reducible refine Within.put (a := [.trn]) ?_ rfl rfl rfl rfl rfl)
    | split

theorem execContextEligible_frame qpn s : Lands [.block 9, .trn] s (execContextEligible qpn s) := by
  unfold execContextEligible
  repeat' first
    | with_reducible exact Within.refl _ _
    | with_reducible assumption
    | (show Part.sub _ _ = true; rfl)
    | with_reducible apply Lands.next
    | dsimp -zeta only
    | with_reducible apply State.evict_frame
    | with_reducible apply State.issueFetch_frame
    | with_reducible apply Lands.ite
    | with_reducible apply Within.ite
    | fail_if_no_progress (with_reducible refine Within.put (a := []) ?_ rfl rfl rfl rfl rfl)
    | split

theorem State.endFetch_frame {ps s t} qpn (h : Within ps s t) (hp : Part.sub [.trn] ps = true) : Within ps s (State.endFetch t qpn) := by
  refine h.step (a := [.trn]) ?_ hp
  unfold State.endFetch
  repeat' first
    | with_reducible exact Within.refl _ _
    | with_reducible assumption
    | (show Part.sub _ _ = true; rfl)
    | dsimp -zeta only
    | with_reducible apply Within.ite
    | fail_if_no_progress (with_reducible refine Within.put (a := [.trn]) ?_ rfl rfl rfl rfl rfl)
    | split

theorem State.failFetch_frame {ps s t} qpn reason (h : Within ps s t) (hp : Part.sub (.block 1 :: .block 4 :: .block 5 :: .block 6 :: .block 9 :: .block 10 :: .block 11 :: .block 12 :: .block 13 :: .block 19 :: .block 20 :: .power :: .test :: .evt :: .nor :: .host :: .ports :: .trn :: .cmd :: .ddp :: .keys :: .sig :: .lfl :: .map :: .rep :: .prg :: .chan :: .store :: .free :: .out :: .hostWait :: []) ps = true) : Within ps s (State.failFetch t qpn reason) := by
  refine h.step (a := (.block 1 :: .block 4 :: .block 5 :: .block 6 :: .block 9 :: .block 10 :: .block 11 :: .block 12 :: .block 13 :: .block 19 :: .block 20 :: .power :: .test :: .evt :: .nor :: .host :: .ports :: .trn :: .cmd :: .ddp :: .keys :: .sig :: .lfl :: .map :: .rep :: .prg :: .chan :: .store :: .free :: .out :: .hostWait :: [])) ?_ hp
  unfold State.failFetch
  repeat' first
    | with_reducible exact Within.refl _ _
    | with_reducible assumption
    | (show Part.sub _ _ = true; rfl)
    | dsimp -zeta only
    | with_reducible apply State.noteLayby_frame
    | with_reducible apply State.qpError_frame
    | with_reducible apply Within.ite
    | fail_if_no_progress (with_reducible refine Within.put (a := [.trn]) ?_ rfl rfl rfl rfl rfl)
    | split

theorem execContextFetchDone_frame qpn ns result s : Lands (.block 1 :: .block 4 :: .block 5 :: .block 6 :: .block 9 :: .block 10 :: .block 11 :: .block 12 :: .block 13 :: .block 19 :: .block 20 :: .power :: .test :: .evt :: .nor :: .host :: .ports :: .trn :: .cmd :: .ddp :: .keys :: .sig :: .lfl :: .map :: .rep :: .prg :: .chan :: .store :: .free :: .out :: .hostWait :: []) s (execContextFetchDone qpn ns result s) := by
  unfold execContextFetchDone
  repeat' first
    | with_reducible exact Within.refl _ _
    | with_reducible assumption
    | (show Part.sub _ _ = true; rfl)
    | with_reducible apply Lands.next
    | (extract_lets +onlyGivenNames x; with_reducible refine Lands.cut (u := x) ?_ ?_; rotate_left; intro hx; clear_value x; rename' x => y; rotate_right; unfold x; clear x)
    | (extract_lets +onlyGivenNames x; with_reducible refine Within.cut (u := x) ?_ ?_; rotate_left; intro hx; clear_value x; rename' x => y; rotate_right; unfold x; clear x)
    | (extract_lets +onlyGivenNames x; clear_value x; rename' x => z)
    | (extract_lets +onlyGivenNames x; rename' x => z)
    | dsimp -zeta only
    | with_reducible apply State.peak_frame
    | with_reducible apply State.noteUncorr_frame
    | with_reducible apply State.endFetch_frame
    | with_reducible apply State.failFetch_frame
    | with_reducible apply Lands.ite
    | with_reducible apply Within.ite
    | fail_if_no_progress (with_reducible refine Within.put (a := []) ?_ rfl rfl rfl rfl rfl)
    | split

theorem execLaybyDrainPacket_frame qpn s : Lands (.block 1 :: .block 4 :: .block 5 :: .block 6 :: .block 9 :: .block 10 :: .block 11 :: .block 12 :: .block 13 :: .block 19 :: .block 20 :: .power :: .test :: .evt :: .nor :: .host :: .ports :: .trn :: .cmd :: .bnd :: .ddp :: .keys :: .wc :: .sig :: .lfl :: .map :: .rep :: .prg :: .chan :: .store :: .mem :: .free :: .out :: .hostWait :: []) s (execLaybyDrainPacket qpn s) := by
  unfold execLaybyDrainPacket
  repeat' first
    | with_reducible exact Within.refl _ _
    | with_reducible assumption
    | (show Part.sub _ _ = true; rfl)
    | with_reducible apply Lands.next
    | (extract_lets +onlyGivenNames x; with_reducible refine Lands.cut (u := x) ?_ ?_; rotate_left; intro hx; clear_value x; rename' x => y; rotate_right; unfold x; clear x)
    | (extract_lets +onlyGivenNames x; with_reducible refine Within.cut (u := x) ?_ ?_; rotate_left; intro hx; clear_value x; rename' x => y; rotate_right; unfold x; clear x)
    | (extract_lets +onlyGivenNames x; clear_value x; rename' x => z)
    | (extract_lets +onlyGivenNames x; rename' x => z)
    | dsimp -zeta only
    | with_reducible apply State.noteLayby_frame
    | with_reducible apply State.touchQp_frame
    | with_reducible apply State.processPacket_frame
    | with_reducible apply Lands.ite
    | with_reducible apply Within.ite
    | fail_if_no_progress (with_reducible refine Within.put (a := [.trn]) ?_ rfl rfl rfl rfl rfl)
    | split

theorem State.roceRow_frame {ps s t} p mine (h : Within ps s t) (hp : Part.sub (.block 1 :: .block 4 :: .block 5 :: .block 6 :: .block 9 :: .block 10 :: .block 11 :: .block 12 :: .block 13 :: .block 19 :: .block 20 :: .power :: .test :: .evt :: .nor :: .host :: .ports :: .trn :: .cmd :: .bnd :: .ddp :: .keys :: .wc :: .sig :: .lfl :: .map :: .rep :: .prg :: .chan :: .store :: .mem :: .free :: .out :: .hostWait :: []) ps = true) : Within ps s (State.roceRow t p mine) := by
  refine h.step (a := (.block 1 :: .block 4 :: .block 5 :: .block 6 :: .block 9 :: .block 10 :: .block 11 :: .block 12 :: .block 13 :: .block 19 :: .block 20 :: .power :: .test :: .evt :: .nor :: .host :: .ports :: .trn :: .cmd :: .bnd :: .ddp :: .keys :: .wc :: .sig :: .lfl :: .map :: .rep :: .prg :: .chan :: .store :: .mem :: .free :: .out :: .hostWait :: [])) ?_ hp
  unfold State.roceRow
  repeat' first
    | with_reducible exact Within.refl _ _
    | with_reducible assumption
    | (show Part.sub _ _ = true; rfl)
    | dsimp -zeta only
    | with_reducible apply State.takeDirect_frame
    | with_reducible apply State.processPacket_frame
    | with_reducible apply Within.ite
    | split

theorem execRoceSend_frame packet s : Lands (.block 1 :: .block 4 :: .block 5 :: .block 6 :: .block 9 :: .block 10 :: .block 11 :: .block 12 :: .block 13 :: .block 19 :: .block 20 :: .power :: .test :: .evt :: .nor :: .host :: .ports :: .trn :: .cmd :: .bnd :: .ddp :: .keys :: .wc :: .sig :: .lfl :: .map :: .rep :: .prg :: .chan :: .store :: .mem :: .free :: .out :: .hostWait :: []) s (execRoceSend packet s) := by
  unfold execRoceSend
  repeat' first
    | with_reducible exact Within.refl _ _
    | with_reducible assumption
    | (show Part.sub _ _ = true; rfl)
    | with_reducible apply Lands.next
    | dsimp -zeta only
    | with_reducible apply State.roceRow_frame
    | with_reducible apply Lands.ite
    | with_reducible apply Within.ite
    | split

theorem execRoceSendInvalidate_frame packet s : Lands (.block 1 :: .block 4 :: .block 5 :: .block 6 :: .block 9 :: .block 10 :: .block 11 :: .block 12 :: .block 13 :: .block 19 :: .block 20 :: .power :: .test :: .evt :: .nor :: .host :: .ports :: .trn :: .cmd :: .bnd :: .ddp :: .keys :: .wc :: .sig :: .lfl :: .map :: .rep :: .prg :: .chan :: .store :: .mem :: .free :: .out :: .hostWait :: []) s (execRoceSendInvalidate packet s) := by
  unfold execRoceSendInvalidate
  repeat' first
    | with_reducible exact Within.refl _ _
    | with_reducible assumption
    | (show Part.sub _ _ = true; rfl)
    | with_reducible apply Lands.next
    | dsimp -zeta only
    | with_reducible apply State.roceRow_frame
    | with_reducible apply Lands.ite
    | with_reducible apply Within.ite
    | split

theorem execRoceRdmaWrite_frame packet s : Lands (.block 1 :: .block 4 :: .block 5 :: .block 6 :: .block 9 :: .block 10 :: .block 11 :: .block 12 :: .block 13 :: .block 19 :: .block 20 :: .power :: .test :: .evt :: .nor :: .host :: .ports :: .trn :: .cmd :: .bnd :: .ddp :: .keys :: .wc :: .sig :: .lfl :: .map :: .rep :: .prg :: .chan :: .store :: .mem :: .free :: .out :: .hostWait :: []) s (execRoceRdmaWrite packet s) := by
  unfold execRoceRdmaWrite
  repeat' first
    | with_reducible exact Within.refl _ _
    | with_reducible assumption
    | (show Part.sub _ _ = true; rfl)
    | with_reducible apply Lands.next
    | dsimp -zeta only
    | with_reducible apply State.roceRow_frame
    | with_reducible apply Lands.ite
    | with_reducible apply Within.ite
    | split

theorem execRoceReadRequest_frame packet s : Lands (.block 1 :: .block 4 :: .block 5 :: .block 6 :: .block 9 :: .block 10 :: .block 11 :: .block 12 :: .block 13 :: .block 19 :: .block 20 :: .power :: .test :: .evt :: .nor :: .host :: .ports :: .trn :: .cmd :: .bnd :: .ddp :: .keys :: .wc :: .sig :: .lfl :: .map :: .rep :: .prg :: .chan :: .store :: .mem :: .free :: .out :: .hostWait :: []) s (execRoceReadRequest packet s) := by
  unfold execRoceReadRequest
  repeat' first
    | with_reducible exact Within.refl _ _
    | with_reducible assumption
    | (show Part.sub _ _ = true; rfl)
    | with_reducible apply Lands.next
    | dsimp -zeta only
    | with_reducible apply State.roceRow_frame
    | with_reducible apply Lands.ite
    | with_reducible apply Within.ite
    | split

theorem execRoceReadResponse_frame packet s : Lands (.block 1 :: .block 4 :: .block 5 :: .block 6 :: .block 9 :: .block 10 :: .block 11 :: .block 12 :: .block 13 :: .block 19 :: .block 20 :: .power :: .test :: .evt :: .nor :: .host :: .ports :: .trn :: .cmd :: .bnd :: .ddp :: .keys :: .wc :: .sig :: .lfl :: .map :: .rep :: .prg :: .chan :: .store :: .mem :: .free :: .out :: .hostWait :: []) s (execRoceReadResponse packet s) := by
  unfold execRoceReadResponse
  repeat' first
    | with_reducible exact Within.refl _ _
    | with_reducible assumption
    | (show Part.sub _ _ = true; rfl)
    | with_reducible apply Lands.next
    | dsimp -zeta only
    | with_reducible apply State.roceRow_frame
    | with_reducible apply Lands.ite
    | with_reducible apply Within.ite
    | split

theorem execRoceAcknowledge_frame packet s : Lands (.block 1 :: .block 4 :: .block 5 :: .block 6 :: .block 9 :: .block 10 :: .block 11 :: .block 12 :: .block 13 :: .block 19 :: .block 20 :: .power :: .test :: .evt :: .nor :: .host :: .ports :: .trn :: .cmd :: .bnd :: .ddp :: .keys :: .wc :: .sig :: .lfl :: .map :: .rep :: .prg :: .chan :: .store :: .mem :: .free :: .out :: .hostWait :: []) s (execRoceAcknowledge packet s) := by
  unfold execRoceAcknowledge
  repeat' first
    | with_reducible exact Within.refl _ _
    | with_reducible assumption
    | (show Part.sub _ _ = true; rfl)
    | with_reducible apply Lands.next
    | dsimp -zeta only
    | with_reducible apply State.roceRow_frame
    | with_reducible apply Lands.ite
    | with_reducible apply Within.ite
    | split

theorem execRoceAtomic_frame packet s : Lands (.block 1 :: .block 4 :: .block 5 :: .block 6 :: .block 9 :: .block 10 :: .block 11 :: .block 12 :: .block 13 :: .block 19 :: .block 20 :: .power :: .test :: .evt :: .nor :: .host :: .ports :: .trn :: .cmd :: .bnd :: .ddp :: .keys :: .wc :: .sig :: .lfl :: .map :: .rep :: .prg :: .chan :: .store :: .mem :: .free :: .out :: .hostWait :: []) s (execRoceAtomic packet s) := by
  unfold execRoceAtomic
  repeat' first
    | with_reducible exact Within.refl _ _
    | with_reducible assumption
    | (show Part.sub _ _ = true; rfl)
    | with_reducible apply Lands.next
    | dsimp -zeta only
    | with_reducible apply State.roceRow_frame
    | with_reducible apply Lands.ite
    | with_reducible apply Within.ite
    | split

theorem execAckCoalesceTimer_frame qpn s : Lands [.ports, .trn, .out] s (execAckCoalesceTimer qpn s) := by
  unfold execAckCoalesceTimer
  repeat' first
    | with_reducible exact Within.refl _ _
    | with_reducible assumption
    | (show Part.sub _ _ = true; rfl)
    | with_reducible apply Lands.next
    | (extract_lets +onlyGivenNames x; with_reducible refine Lands.cut (u := x) ?_ ?_; rotate_left; intro hx; clear_value x; rename' x => y; rotate_right; unfold x; clear x)
    | (extract_lets +onlyGivenNames x; with_reducible refine Within.cut (u := x) ?_ ?_; rotate_left; intro hx; clear_value x; rename' x => y; rotate_right; unfold x; clear x)
    | (extract_lets +onlyGivenNames x; clear_value x; rename' x => z)
    | (extract_lets +onlyGivenNames x; rename' x => z)
    | dsimp -zeta only
    | with_reducible apply State.setQp_frame
    | with_reducible apply State.sendPacket_frame
    | with_reducible apply Lands.ite
    | with_reducible apply Within.ite
    | fail_if_no_progress (with_reducible refine Within.put (a := []) ?_ rfl rfl rfl rfl rfl)
    | split

theorem execAckTimeout_frame qpn s : Lands (.block 1 :: .block 4 :: .block 5 :: .block 6 :: .block 10 :: .block 11 :: .block 12 :: .block 13 :: .block 19 :: .block 20 :: .power :: .test :: .evt :: .nor :: .host :: .ports :: .trn :: .cmd :: .ddp :: .keys :: .sig :: .lfl :: .map :: .rep :: .prg :: .chan :: .store :: .free :: .out :: .hostWait :: []) s (execAckTimeout qpn s) := by
  unfold execAckTimeout
  repeat' first
    | with_reducible exact Within.refl _ _
    | with_reducible assumption
    | (show Part.sub _ _ = true; rfl)
    | with_reducible apply Lands.next
    | (extract_lets +onlyGivenNames x; with_reducible refine Lands.cut (u := x) ?_ ?_; rotate_left; intro hx; clear_value x; rename' x => y; rotate_right; unfold x; clear x)
    | (extract_lets +onlyGivenNames x; with_reducible refine Within.cut (u := x) ?_ ?_; rotate_left; intro hx; clear_value x; rename' x => y; rotate_right; unfold x; clear x)
    | (extract_lets +onlyGivenNames x; clear_value x; rename' x => z)
    | (extract_lets +onlyGivenNames x; rename' x => z)
    | dsimp -zeta only
    | with_reducible apply State.retry_frame
    | with_reducible apply Lands.ite
    | with_reducible apply Within.ite
    | split

theorem execRnrTimer_frame qpn s : Lands (.block 1 :: .block 4 :: .block 5 :: .block 6 :: .block 10 :: .block 11 :: .block 12 :: .block 13 :: .block 19 :: .block 20 :: .power :: .test :: .evt :: .nor :: .host :: .ports :: .trn :: .cmd :: .ddp :: .keys :: .sig :: .lfl :: .map :: .rep :: .prg :: .chan :: .store :: .free :: .out :: .hostWait :: []) s (execRnrTimer qpn s) := by
  unfold execRnrTimer
  repeat' first
    | with_reducible exact Within.refl _ _
    | with_reducible assumption
    | (show Part.sub _ _ = true; rfl)
    | with_reducible apply Lands.next
    | (extract_lets +onlyGivenNames x; with_reducible refine Lands.cut (u := x) ?_ ?_; rotate_left; intro hx; clear_value x; rename' x => y; rotate_right; unfold x; clear x)
    | (extract_lets +onlyGivenNames x; with_reducible refine Within.cut (u := x) ?_ ?_; rotate_left; intro hx; clear_value x; rename' x => y; rotate_right; unfold x; clear x)
    | (extract_lets +onlyGivenNames x; clear_value x; rename' x => z)
    | (extract_lets +onlyGivenNames x; rename' x => z)
    | dsimp -zeta only
    | with_reducible apply State.setQp_frame
    | with_reducible apply State.sendPacket_frame
    | with_reducible apply State.qpError_frame
    | with_reducible apply Lands.ite
    | with_reducible apply Within.ite
    | fail_if_no_progress (with_reducible refine Within.put (a := []) ?_ rfl rfl rfl rfl rfl)
    | split

theorem execFinalFlagProcess_frame qpn s : Lands [.host, .ports, .trn, .mem, .out, .hostWait] s (execFinalFlagProcess qpn s) := by
  unfold execFinalFlagProcess
  repeat' first
    | with_reducible exact Within.refl _ _
    | with_reducible assumption
    | (show Part.sub _ _ = true; rfl)
    | with_reducible apply Lands.next
    | (extract_lets +onlyGivenNames x; with_reducible refine Lands.cut (u := x) ?_ ?_; rotate_left; intro hx; clear_value x; rename' x => y; rotate_right; unfold x; clear x)
    | (extract_lets +onlyGivenNames x; with_reducible refine Within.cut (u := x) ?_ ?_; rotate_left; intro hx; clear_value x; rename' x => y; rotate_right; unfold x; clear x)
    | (extract_lets +onlyGivenNames x; clear_value x; rename' x => z)
    | (extract_lets +onlyGivenNames x; rename' x => z)
    | dsimp -zeta only
    | with_reducible apply State.setQp_frame
    | with_reducible apply State.placeAll_frame
    | with_reducible apply State.processFinal_frame
    | with_reducible apply Lands.ite
    | with_reducible apply Within.ite
    | fail_if_no_progress (with_reducible refine Within.put (a := []) ?_ rfl rfl rfl rfl rfl)
    | split

theorem execInvalidationComplete_frame region s : Lands [.host, .trn, .mem, .out, .hostWait] s (execInvalidationComplete region s) := by
  unfold execInvalidationComplete
  repeat' first
    | with_reducible exact Within.refl _ _
    | with_reducible assumption
    | (show Part.sub _ _ = true; rfl)
    | with_reducible apply Lands.next
    | (extract_lets +onlyGivenNames x; with_reducible refine Lands.cut (u := x) ?_ ?_; rotate_left; intro hx; clear_value x; rename' x => y; rotate_right; unfold x; clear x)
    | (extract_lets +onlyGivenNames x; with_reducible refine Within.cut (u := x) ?_ ?_; rotate_left; intro hx; clear_value x; rename' x => y; rotate_right; unfold x; clear x)
    | (extract_lets +onlyGivenNames x; clear_value x; rename' x => z)
    | (extract_lets +onlyGivenNames x; rename' x => z)
    | dsimp -zeta only
    | with_reducible apply State.placeAll_frame
    | with_reducible apply State.endInvalidation_frame
    | with_reducible apply Lands.ite
    | with_reducible apply Within.ite
    | (with_reducible refine Within.foldl _ ?_ ?_; rotate_left; intro _ _)
    | (with_reducible refine Within.foldl_snd _ ?_ ?_; rotate_left; intro _ _)
    | split

theorem execTrnStateWrite_frame value s : Lands [.block 9] s (execTrnStateWrite value s) := by
  unfold execTrnStateWrite
  repeat' first
    | with_reducible exact Within.refl _ _
    | with_reducible assumption
    | (show Part.sub _ _ = true; rfl)
    | with_reducible apply Lands.next
    | (extract_lets +onlyGivenNames x; with_reducible refine Lands.cut (u := x) ?_ ?_; rotate_left; intro hx; clear_value x; rename' x => y; rotate_right; unfold x; clear x)
    | (extract_lets +onlyGivenNames x; with_reducible refine Within.cut (u := x) ?_ ?_; rotate_left; intro hx; clear_value x; rename' x => y; rotate_right; unfold x; clear x)
    | (extract_lets +onlyGivenNames x; clear_value x; rename' x => z)
    | (extract_lets +onlyGivenNames x; rename' x => z)
    | dsimp -zeta only
    | with_reducible apply State.wr_frame
    | with_reducible apply Lands.ite
    | with_reducible apply Within.ite
    | split

end Sys2Proof.Machine
end

