-- ==== Sys2Proof/Laws/FramePower.lean ====
section
/-!
SUPPORT. Laws/FramePower.lean: what the definitions of Machine/Power.lean leave alone: each changes the listed parts at most, and keeps the
canonical form.
-/
namespace Sys2Proof.Machine
open Sys2Proof

set_option Elab.async false
set_option linter.all false

theorem execConverterPhaseLoss_frame  s : Lands [.block 4, .block 6, .pins, .power, .evt, .nor, .host, .out, .hostWait] s (execConverterPhaseLoss s) := by
  unfold execConverterPhaseLoss
  repeat' first
    | with_reducible exact Within.refl _ _
    | with_reducible assumption
    | (show Part.sub _ _ = true; rfl)
    | with_reducible apply Lands.next
    | (extract_lets +onlyGivenNames x; with_reducible refine Lands.cut (u := x) ?_ ?_; rotate_left; intro hx; clear_value x; rename' x => y; rotate_right; unfold x; clear x)
    | (extract_lets +onlyGivenNames x; with_reducible refine Within.cut (u := x) ?_ ?_; rotate_left; intro hx; clear_value x; rename' x => y; rotate_right; unfold x; clear x)
    | (extract_lets +onlyGivenNames x; clear_value x; rename' x => z)
    | (extract_lets +onlyGivenNames x; rename' x => z)
    | dsimp -zeta only
    | with_reducible apply State.event_frame
    | with_reducible apply State.headLoss_frame
    | with_reducible apply Lands.ite
    | with_reducible apply Within.ite
    | fail_if_no_progress (with_reducible refine Within.put (a := [.power]) ?_ rfl rfl rfl rfl rfl)
    | split

theorem execVinOutOfRange_frame millivolts s : Lands [.block 1, .block 4, .block 6, .evt, .nor, .host, .out, .hostWait] s (execVinOutOfRange millivolts s) := by
  unfold execVinOutOfRange
  repeat' first
    | with_reducible exact Within.refl _ _
    | with_reducible assumption
    | (show Part.sub _ _ = true; rfl)
    | with_reducible apply Lands.next
    | dsimp -zeta only
    | with_reducible apply State.wr_frame
    | with_reducible apply State.event1_frame
    | with_reducible apply Lands.ite
    | with_reducible apply Within.ite
    | split

theorem execTokenRequest_frame quarter cls tokens s : Lands [.block 1, .power] s (execTokenRequest quarter cls tokens s) := by
  unfold execTokenRequest
  repeat' first
    | with_reducible exact Within.refl _ _
    | with_reducible assumption
    | (show Part.sub _ _ = true; rfl)
    | with_reducible apply Lands.next
    | (extract_lets +onlyGivenNames x; with_reducible refine Lands.cut (u := x) ?_ ?_; rotate_left; intro hx; clear_value x; rename' x => y; rotate_right; unfold x; clear x)
    | (extract_lets +onlyGivenNames x; with_reducible refine Within.cut (u := x) ?_ ?_; rotate_left; intro hx; clear_value x; rename' x => y; rotate_right; unfold x; clear x)
    | (extract_lets +onlyGivenNames x; clear_value x; rename' x => z)
    | (extract_lets +onlyGivenNames x; rename' x => z)
    | dsimp -zeta only
    | with_reducible apply State.bump_frame
    | with_reducible apply State.noteGranted_frame
    | with_reducible apply State.recallExcess_frame
    | with_reducible apply State.serveWaiting_frame
    | with_reducible apply Lands.ite
    | with_reducible apply Within.ite
    | fail_if_no_progress (with_reducible refine Within.put (a := [.power]) ?_ rfl rfl rfl rfl rfl)
    | split

theorem execTokenReturn_frame quarter s : Lands [.block 1, .power] s (execTokenReturn quarter s) := by
  unfold execTokenReturn
  repeat' first
    | with_reducible exact Within.refl _ _
    | with_reducible assumption
    | (show Part.sub _ _ = true; rfl)
    | with_reducible apply Lands.next
    | dsimp -zeta only
    | with_reducible apply State.returnTokens_frame
    | with_reducible apply Lands.ite
    | with_reducible apply Within.ite
    | split

theorem execRecallAck_frame quarter s : Lands [.block 1, .power] s (execRecallAck quarter s) := by
  unfold execRecallAck
  repeat' first
    | with_reducible exact Within.refl _ _
    | with_reducible assumption
    | (show Part.sub _ _ = true; rfl)
    | with_reducible apply Lands.next
    | (extract_lets +onlyGivenNames x; with_reducible refine Lands.cut (u := x) ?_ ?_; rotate_left; intro hx; clear_value x; rename' x => y; rotate_right; unfold x; clear x)
    | (extract_lets +onlyGivenNames x; with_reducible refine Within.cut (u := x) ?_ ?_; rotate_left; intro hx; clear_value x; rename' x => y; rotate_right; unfold x; clear x)
    | (extract_lets +onlyGivenNames x; clear_value x; rename' x => z)
    | (extract_lets +onlyGivenNames x; rename' x => z)
    | dsimp -zeta only
    | with_reducible apply State.serveWaiting_frame
    | with_reducible apply Lands.ite
    | with_reducible apply Within.ite
    | (with_reducible refine Within.foldl _ ?_ ?_; rotate_left; intro _ _)
    | (with_reducible refine Within.foldl_snd _ ?_ ?_; rotate_left; intro _ _)
    | fail_if_no_progress (with_reducible refine Within.put (a := [.power]) ?_ rfl rfl rfl rfl rfl)
    | split

theorem execBudgetWrite_frame value s : Lands [.block 1, .block 4, .block 6, .power, .evt, .nor, .host, .out, .hostWait] s (execBudgetWrite value s) := by
  unfold execBudgetWrite
  repeat' first
    | with_reducible exact Within.refl _ _
    | with_reducible assumption
    | (show Part.sub _ _ = true; rfl)
    | with_reducible apply Lands.next
    | dsimp -zeta only
    | with_reducible apply State.wr_frame
    | with_reducible apply State.settleBudget_frame
    | with_reducible apply Lands.ite
    | with_reducible apply Within.ite
    | split

theorem execPowerCheck_frame millivolts measured s : Lands [.block 1, .block 4, .block 6, .evt, .nor, .host, .out, .hostWait] s (execPowerCheck millivolts measured s) := by
  unfold execPowerCheck
  repeat' first
    | with_reducible exact Within.refl _ _
    | with_reducible assumption
    | (show Part.sub _ _ = true; rfl)
    | with_reducible apply Lands.next
    | (extract_lets +onlyGivenNames x; with_reducible refine Lands.cut (u := x) ?_ ?_; rotate_left; intro hx; clear_value x; rename' x => y; rotate_right; unfold x; clear x)
    | (extract_lets +onlyGivenNames x; with_reducible refine Within.cut (u := x) ?_ ?_; rotate_left; intro hx; clear_value x; rename' x => y; rotate_right; unfold x; clear x)
    | (extract_lets +onlyGivenNames x; clear_value x; rename' x => z)
    | (extract_lets +onlyGivenNames x; rename' x => z)
    | dsimp -zeta only
    | with_reducible apply State.wr_frame
    | with_reducible apply State.event1_frame
    | with_reducible apply Lands.ite
    | with_reducible apply Within.ite
    | split

theorem execTrimDecay_frame  s : Lands [.block 1, .power] s (execTrimDecay s) := by
  unfold execTrimDecay
  repeat' first
    | with_reducible exact Within.refl _ _
    | with_reducible assumption
    | (show Part.sub _ _ = true; rfl)
    | with_reducible apply Lands.next
    | dsimp -zeta only
    | with_reducible apply State.wr_frame
    | with_reducible apply State.serveWaiting_frame
    | with_reducible apply Lands.ite
    | with_reducible apply Within.ite
    | split

theorem execSysclkLoss_frame  s : Lands [.block 4, .block 6, .pins, .power, .evt, .nor, .host, .out, .hostWait] s (execSysclkLoss s) := by
  unfold execSysclkLoss
  repeat' first
    | with_reducible exact Within.refl _ _
    | with_reducible assumption
    | (show Part.sub _ _ = true; rfl)
    | with_reducible apply Lands.next
    | (extract_lets +onlyGivenNames x; with_reducible refine Lands.cut (u := x) ?_ ?_; rotate_left; intro hx; clear_value x; rename' x => y; rotate_right; unfold x; clear x)
    | (extract_lets +onlyGivenNames x; with_reducible refine Within.cut (u := x) ?_ ?_; rotate_left; intro hx; clear_value x; rename' x => y; rotate_right; unfold x; clear x)
    | (extract_lets +onlyGivenNames x; clear_value x; rename' x => z)
    | (extract_lets +onlyGivenNames x; rename' x => z)
    | dsimp -zeta only
    | with_reducible apply State.event_frame
    | with_reducible apply State.headLoss_frame
    | with_reducible apply Lands.ite
    | with_reducible apply Within.ite
    | fail_if_no_progress (with_reducible refine Within.put (a := [.power]) ?_ rfl rfl rfl rfl rfl)
    | split

theorem State.startQCmd_frame {ps s t} q (h : Within ps s t) (hp : Part.sub [.block 1] ps = true) : Within ps s (State.startQCmd t q) := by
  refine h.step (a := [.block 1]) ?_ hp
  unfold State.startQCmd
  repeat' first
    | with_reducible exact Within.refl _ _
    | with_reducible assumption
    | (show Part.sub _ _ = true; rfl)
    | dsimp -zeta only
    | with_reducible apply State.wr_frame
    | with_reducible apply Within.ite
    | split

theorem State.endQCmd_frame {ps s t} q status (h : Within ps s t) (hp : Part.sub [.block 1] ps = true) : Within ps s (State.endQCmd t q status) := by
  refine h.step (a := [.block 1]) ?_ hp
  unfold State.endQCmd
  repeat' first
    | with_reducible exact Within.refl _ _
    | with_reducible assumption
    | (show Part.sub _ _ = true; rfl)
    | dsimp -zeta only
    | with_reducible apply State.wr_frame
    | with_reducible apply Within.ite
    | split

theorem State.refuseQCmd_frame {ps s t} status (h : Within ps s t) (hp : Part.sub [.block 1] ps = true) : Within ps s (State.refuseQCmd t status) := by
  refine h.step (a := [.block 1]) ?_ hp
  unfold State.refuseQCmd
  repeat' first
    | with_reducible exact Within.refl _ _
    | with_reducible assumption
    | (show Part.sub _ _ = true; rfl)
    | dsimp -zeta only
    | with_reducible apply State.wr_frame
    | with_reducible apply Within.ite
    | split

theorem execQuarterWake_frame quarter s : Lands [.block 1, .power] s (execQuarterWake quarter s) := by
  unfold execQuarterWake
  repeat' first
    | with_reducible exact Within.refl _ _
    | with_reducible assumption
    | (show Part.sub _ _ = true; rfl)
    | with_reducible apply Lands.next
    | dsimp -zeta only
    | with_reducible apply State.wake_frame
    | with_reducible apply State.startQCmd_frame
    | with_reducible apply State.refuseQCmd_frame
    | with_reducible apply Lands.ite
    | with_reducible apply Within.ite
    | fail_if_no_progress (with_reducible refine Within.put (a := []) ?_ rfl rfl rfl rfl rfl)
    | split

theorem State.powerDown_frame {ps s t} q goal (h : Within ps s t) (hp : Part.sub [.block 1, .block 11, .block 19, .power] ps = true) : Within ps s (State.powerDown t q goal) := by
  refine h.step (a := [.block 1, .block 11, .block 19, .power]) ?_ hp
  unfold State.powerDown
  repeat' first
    | with_reducible exact Within.refl _ _
    | with_reducible assumption
    | (show Part.sub _ _ = true; rfl)
    | dsimp -zeta only
    | with_reducible apply State.close_frame
    | with_reducible apply State.startQCmd_frame
    | with_reducible apply State.refuseQCmd_frame
    | with_reducible apply Within.ite
    | fail_if_no_progress (with_reducible refine Within.put (a := []) ?_ rfl rfl rfl rfl rfl)
    | split

theorem execQuarterPowerOff_frame quarter s : Lands [.block 1, .block 11, .block 19, .power] s (execQuarterPowerOff quarter s) := by
  unfold execQuarterPowerOff
  repeat' first
    | with_reducible exact Within.refl _ _
    | with_reducible assumption
    | (show Part.sub _ _ = true; rfl)
    | with_reducible apply Lands.next
    | dsimp -zeta only
    | with_reducible apply State.powerDown_frame
    | with_reducible apply Lands.ite
    | with_reducible apply Within.ite
    | split

theorem execQuarterRetain_frame quarter s : Lands [.block 1, .block 11, .block 19, .power] s (execQuarterRetain quarter s) := by
  unfold execQuarterRetain
  repeat' first
    | with_reducible exact Within.refl _ _
    | with_reducible assumption
    | (show Part.sub _ _ = true; rfl)
    | with_reducible apply Lands.next
    | dsimp -zeta only
    | with_reducible apply State.powerDown_frame
    | with_reducible apply Lands.ite
    | with_reducible apply Within.ite
    | split

theorem State.rotateNow_frame {ps s t} a (h : Within ps s t) (hp : Part.sub [.block 9, .block 11, .block 19, .power, .trn, .out] ps = true) : Within ps s (State.rotateNow t a) := by
  refine h.step (a := [.block 9, .block 11, .block 19, .power, .trn, .out]) ?_ hp
  unfold State.rotateNow
  repeat' first
    | with_reducible exact Within.refl _ _
    | with_reducible assumption
    | (show Part.sub _ _ = true; rfl)
    | dsimp -zeta only
    | with_reducible apply State.setQuarter_frame
    | with_reducible apply State.emptyRole_frame
    | with_reducible apply State.close_frame
    | with_reducible apply Within.ite
    | fail_if_no_progress (with_reducible refine Within.put (a := []) ?_ rfl rfl rfl rfl rfl)
    | split

theorem State.redecode_frame {ps s t}  (h : Within ps s t) (hp : Part.sub [.block 4, .block 6, .block 10, .block 13, .evt, .nor, .host, .ports, .trn, .cmd, .map, .chan, .out, .hostWait] ps = true) : Within ps s (State.redecode t) := by
  refine h.step (a := [.block 4, .block 6, .block 10, .block 13, .evt, .nor, .host, .ports, .trn, .cmd, .map, .chan, .out, .hostWait]) ?_ hp
  unfold State.redecode
  repeat' first
    | with_reducible exact Within.refl _ _
    | with_reducible assumption
    | (show Part.sub _ _ = true; rfl)
    | (extract_lets +onlyGivenNames x; with_reducible refine Within.cut (u := x) ?_ ?_; rotate_left; intro hx; clear_value x; rename' x => y; rotate_right; unfold x; clear x)
    | (extract_lets +onlyGivenNames x; clear_value x; rename' x => z)
    | (extract_lets +onlyGivenNames x; rename' x => z)
    | dsimp -zeta only
    | with_reducible apply State.advance_frame
    | with_reducible apply Within.ite
    | (with_reducible refine Within.foldl _ ?_ ?_; rotate_left; intro _ _)
    | (with_reducible refine Within.foldl_snd _ ?_ ?_; rotate_left; intro _ _)
    | split

theorem execQuarterDrained_frame quarter s : Lands [.block 1, .power] s (execQuarterDrained quarter s) := by
  unfold execQuarterDrained
  repeat' first
    | with_reducible exact Within.refl _ _
    | with_reducible assumption
    | (show Part.sub _ _ = true; rfl)
    | with_reducible apply Lands.next
    | (extract_lets +onlyGivenNames x; with_reducible refine Lands.cut (u := x) ?_ ?_; rotate_left; intro hx; clear_value x; rename' x => y; rotate_right; unfold x; clear x)
    | (extract_lets +onlyGivenNames x; with_reducible refine Within.cut (u := x) ?_ ?_; rotate_left; intro hx; clear_value x; rename' x => y; rotate_right; unfold x; clear x)
    | (extract_lets +onlyGivenNames x; clear_value x; rename' x => z)
    | (extract_lets +onlyGivenNames x; rename' x => z)
    | dsimp -zeta only
    | with_reducible apply State.setQuarter_frame
    | with_reducible apply State.returnTokens_frame
    | with_reducible apply State.endQCmd_frame
    | with_reducible apply Lands.ite
    | with_reducible apply Within.ite
    | fail_if_no_progress (with_reducible refine Within.put (a := []) ?_ rfl rfl rfl rfl rfl)
    | split

theorem State.endTestDrain_frame {ps s t}  (h : Within ps s t) (hp : Part.sub [.block 5, .test] ps = true) : Within ps s (State.endTestDrain t) := by
  refine h.step (a := [.block 5, .test]) ?_ hp
  unfold State.endTestDrain
  repeat' first
    | with_reducible exact Within.refl _ _
    | with_reducible assumption
    | (show Part.sub _ _ = true; rfl)
    | dsimp -zeta only
    | with_reducible apply State.wr_frame
    | with_reducible apply Within.ite
    | fail_if_no_progress (with_reducible refine Within.put (a := [.test]) ?_ rfl rfl rfl rfl rfl)
    | split

theorem execDrainTimeout_frame quarter s : Lands [.block 1, .block 4, .block 5, .block 6, .block 11, .block 19, .power, .test, .evt, .nor, .host, .out, .hostWait] s (execDrainTimeout quarter s) := by
  unfold execDrainTimeout
  repeat' first
    | with_reducible exact Within.refl _ _
    | with_reducible assumption
    | (show Part.sub _ _ = true; rfl)
    | with_reducible apply Lands.next
    | (extract_lets +onlyGivenNames x; with_reducible refine Lands.cut (u := x) ?_ ?_; rotate_left; intro hx; clear_value x; rename' x => y; rotate_right; unfold x; clear x)
    | (extract_lets +onlyGivenNames x; with_reducible refine Within.cut (u := x) ?_ ?_; rotate_left; intro hx; clear_value x; rename' x => y; rotate_right; unfold x; clear x)
    | (extract_lets +onlyGivenNames x; clear_value x; rename' x => z)
    | (extract_lets +onlyGivenNames x; rename' x => z)
    | dsimp -zeta only
    | with_reducible apply State.event1_frame
    | with_reducible apply State.setQuarter_frame
    | with_reducible apply State.unitsIn_frame
    | with_reducible apply State.ps3Close_frame
    | with_reducible apply State.endQCmd_frame
    | with_reducible apply State.endTestDrain_frame
    | with_reducible apply Lands.ite
    | with_reducible apply Within.ite
    | fail_if_no_progress (with_reducible refine Within.put (a := []) ?_ rfl rfl rfl rfl rfl)
    | split

theorem State.sampleSensor_frame {ps s t} temps k (h : Within ps s t) (hp : Part.sub [.block 2, .block 4, .block 6, .power, .evt, .nor, .host, .out, .hostWait] ps = true) : Within ps s (State.sampleSensor t temps k) := by
  refine h.step (a := [.block 2, .block 4, .block 6, .power, .evt, .nor, .host, .out, .hostWait]) ?_ hp
  unfold State.sampleSensor
  repeat' first
    | with_reducible exact Within.refl _ _
    | with_reducible assumption
    | (show Part.sub _ _ = true; rfl)
    | (extract_lets +onlyGivenNames x; with_reducible refine Within.cut (u := x) ?_ ?_; rotate_left; intro hx; clear_value x; rename' x => y; rotate_right; unfold x; clear x)
    | (extract_lets +onlyGivenNames x; clear_value x; rename' x => z)
    | (extract_lets +onlyGivenNames x; rename' x => z)
    | dsimp -zeta only
    | with_reducible apply State.wr_frame
    | with_reducible apply State.event1_frame
    | with_reducible apply Within.ite
    | fail_if_no_progress (with_reducible refine Within.put (a := [.power]) ?_ rfl rfl rfl rfl rfl)
    | split

theorem State.recallUpper_frame {ps s t}  (h : Within ps s t) (hp : Part.sub [.power] ps = true) : Within ps s (State.recallUpper t) := by
  refine h.step (a := [.power]) ?_ hp
  unfold State.recallUpper
  repeat' first
    | with_reducible exact Within.refl _ _
    | with_reducible assumption
    | (show Part.sub _ _ = true; rfl)
    | dsimp -zeta only
    | with_reducible apply Within.ite
    | fail_if_no_progress (with_reducible refine Within.put (a := [.power]) ?_ rfl rfl rfl rfl rfl)
    | split

theorem State.setThermal_frame {ps s t} bt new (h : Within ps s t) (hp : Part.sub [.block 2, .power] ps = true) : Within ps s (State.setThermal t bt new) := by
  refine h.step (a := [.block 2, .power]) ?_ hp
  unfold State.setThermal
  repeat' first
    | with_reducible exact Within.refl _ _
    | with_reducible assumption
    | (show Part.sub _ _ = true; rfl)
    | dsimp -zeta only
    | with_reducible apply State.wr_frame
    | with_reducible apply Within.ite
    | fail_if_no_progress (with_reducible refine Within.put (a := [.power]) ?_ rfl rfl rfl rfl rfl)
    | split

theorem State.showHottest_frame {ps s t} bt k (h : Within ps s t) (hp : Part.sub [.block 2] ps = true) : Within ps s (State.showHottest t bt k) := by
  refine h.step (a := [.block 2]) ?_ hp
  unfold State.showHottest
  repeat' first
    | with_reducible exact Within.refl _ _
    | with_reducible assumption
    | (show Part.sub _ _ = true; rfl)
    | dsimp -zeta only
    | with_reducible apply State.wr_frame
    | with_reducible apply State.peak_frame
    | with_reducible apply Within.ite
    | split

theorem State.setVolt_frame {ps s t} q volt (h : Within ps s t) (hp : Part.sub [.block 2, .power, .nor] ps = true) : Within ps s (State.setVolt t q volt) := by
  refine h.step (a := [.block 2, .power, .nor]) ?_ hp
  unfold State.setVolt
  repeat' first
    | with_reducible exact Within.refl _ _
    | with_reducible assumption
    | (show Part.sub _ _ = true; rfl)
    | (extract_lets +onlyGivenNames x; with_reducible refine Within.cut (u := x) ?_ ?_; rotate_left; intro hx; clear_value x; rename' x => y; rotate_right; unfold x; clear x)
    | (extract_lets +onlyGivenNames x; clear_value x; rename' x => z)
    | (extract_lets +onlyGivenNames x; rename' x => z)
    | dsimp -zeta only
    | with_reducible apply State.wr_frame
    | with_reducible apply Within.ite
    | fail_if_no_progress (with_reducible refine Within.put (a := [.power, .nor]) ?_ rfl rfl rfl rfl rfl)
    | split

theorem State.setPlan_frame {ps s t} q p (h : Within ps s t) (hp : Part.sub [.power] ps = true) : Within ps s (State.setPlan t q p) := by
  refine h.step (a := [.power]) ?_ hp
  unfold State.setPlan
  repeat' first
    | with_reducible exact Within.refl _ _
    | with_reducible assumption
    | (show Part.sub _ _ = true; rfl)
    | dsimp -zeta only
    | with_reducible apply Within.ite
    | fail_if_no_progress (with_reducible refine Within.put (a := [.power]) ?_ rfl rfl rfl rfl rfl)
    | split

theorem State.planQuarter_frame {ps s t} r (h : Within ps s t) (hp : Part.sub [.block 2, .block 4, .block 6, .power, .evt, .nor, .host, .out, .hostWait] ps = true) : Within ps s (State.planQuarter t r) := by
  refine h.step (a := [.block 2, .block 4, .block 6, .power, .evt, .nor, .host, .out, .hostWait]) ?_ hp
  unfold State.planQuarter
  repeat' first
    | with_reducible exact Within.refl _ _
    | with_reducible assumption
    | (show Part.sub _ _ = true; rfl)
    | (extract_lets +onlyGivenNames x; with_reducible refine Within.cut (u := x) ?_ ?_; rotate_left; intro hx; clear_value x; rename' x => y; rotate_right; unfold x; clear x)
    | (extract_lets +onlyGivenNames x; clear_value x; rename' x => z)
    | (extract_lets +onlyGivenNames x; rename' x => z)
    | dsimp -zeta only
    | with_reducible apply State.wr_frame
    | with_reducible apply State.bump_frame
    | with_reducible apply State.event1_frame
    | with_reducible apply State.setVolt_frame
    | with_reducible apply State.setPlan_frame
    | with_reducible apply Within.ite
    | fail_if_no_progress (with_reducible refine Within.put (a := []) ?_ rfl rfl rfl rfl rfl)
    | split

theorem execMarginPlan_frame reports s : Lands [.block 2, .block 4, .block 6, .power, .evt, .nor, .host, .out, .hostWait] s (execMarginPlan reports s) := by
  unfold execMarginPlan
  repeat' first
    | with_reducible exact Within.refl _ _
    | with_reducible assumption
    | (show Part.sub _ _ = true; rfl)
    | with_reducible apply Lands.next
    | dsimp -zeta only
    | with_reducible apply State.planQuarter_frame
    | with_reducible apply Lands.ite
    | with_reducible apply Within.ite
    | (with_reducible refine Within.foldl _ ?_ ?_; rotate_left; intro _ _)
    | (with_reducible refine Within.foldl_snd _ ?_ ?_; rotate_left; intro _ _)
    | split

end Sys2Proof.Machine
end

