-- ==== Sys2Proof/Laws/FrameCmd.lean ====
section
/-!
SUPPORT. Laws/FrameCmd.lean: what the definitions of Machine/Cmd.lean leave alone: each changes the listed parts at most, and keeps the
canonical form.
-/
namespace Sys2Proof.Machine
open Sys2Proof

set_option Elab.async false
set_option linter.all false

theorem State.turnAway_frame {ps s t} k (h : Within ps s t) (hp : Part.sub [.block 10, .ports, .trn, .out] ps = true) : Within ps s (State.turnAway t k) := by
  refine h.step (a := [.block 10, .ports, .trn, .out]) ?_ hp
  unfold State.turnAway
  repeat' first
    | with_reducible exact Within.refl _ _
    | with_reducible assumption
    | (show Part.sub _ _ = true; rfl)
    | (extract_lets +onlyGivenNames x; with_reducible refine Within.cut (u := x) ?_ ?_; rotate_left; intro hx; clear_value x; rename' x => y; rotate_right; unfold x; clear x)
    | (extract_lets +onlyGivenNames x; clear_value x; rename' x => z)
    | (extract_lets +onlyGivenNames x; rename' x => z)
    | dsimp -zeta only
    | with_reducible apply State.bump_frame
    | with_reducible apply State.setQp_frame
    | with_reducible apply State.nak_frame
    | with_reducible apply Within.ite
    | fail_if_no_progress (with_reducible refine Within.put (a := []) ?_ rfl rfl rfl rfl rfl)
    | split

theorem State.enterIntake_frame {ps s t} k (h : Within ps s t) (hp : Part.sub [.block 10, .trn, .cmd] ps = true) : Within ps s (State.enterIntake t k) := by
  refine h.step (a := [.block 10, .trn, .cmd]) ?_ hp
  unfold State.enterIntake
  repeat' first
    | with_reducible exact Within.refl _ _
    | with_reducible assumption
    | (show Part.sub _ _ = true; rfl)
    | (extract_lets +onlyGivenNames x; with_reducible refine Within.cut (u := x) ?_ ?_; rotate_left; intro hx; clear_value x; rename' x => y; rotate_right; unfold x; clear x)
    | (extract_lets +onlyGivenNames x; clear_value x; rename' x => z)
    | (extract_lets +onlyGivenNames x; rename' x => z)
    | dsimp -zeta only
    | with_reducible apply State.setQp_frame
    | with_reducible apply State.noteTags_frame
    | with_reducible apply Within.ite
    | fail_if_no_progress (with_reducible refine Within.put (a := [.cmd]) ?_ rfl rfl rfl rfl rfl)
    | split

theorem execCapsuleArrive_frame cap s : Lands (.block 1 :: .block 4 :: .block 5 :: .block 6 :: .block 10 :: .block 11 :: .block 12 :: .block 13 :: .block 19 :: .block 20 :: .power :: .test :: .evt :: .nor :: .host :: .ports :: .trn :: .cmd :: .ddp :: .keys :: .sig :: .lfl :: .map :: .rep :: .prg :: .chan :: .store :: .free :: .out :: .hostWait :: []) s (execCapsuleArrive cap s) := by
  unfold execCapsuleArrive
  repeat' first
    | with_reducible exact Within.refl _ _
    | with_reducible assumption
    | (show Part.sub _ _ = true; rfl)
    | with_reducible apply Lands.next
    | dsimp -zeta only
    | with_reducible apply State.refuseCapsule_frame
    | with_reducible apply State.qpError_frame
    | with_reducible apply State.turnAway_frame
    | with_reducible apply State.enterIntake_frame
    | with_reducible apply Lands.ite
    | with_reducible apply Within.ite
    | split

theorem State.arbitrate_frame {ps s t} heads (h : Within ps s t) (hp : Part.sub [.cmd] ps = true) : Within ps s (State.arbitrate t heads).2 := by
  refine h.step (a := [.cmd]) ?_ hp
  unfold State.arbitrate
  repeat' first
    | with_reducible exact Within.refl _ _
    | with_reducible assumption
    | (show Part.sub _ _ = true; rfl)
    | (extract_lets +onlyGivenNames x; with_reducible refine Within.cut (u := x) ?_ ?_; rotate_left; intro hx; clear_value x; rename' x => y; rotate_right; unfold x; clear x)
    | (extract_lets +onlyGivenNames x; clear_value x; rename' x => z)
    | (extract_lets +onlyGivenNames x; rename' x => z)
    | dsimp -zeta only
    | with_reducible apply Within.ite
    | (with_reducible refine Within.foldl _ ?_ ?_; rotate_left; intro _ _)
    | (with_reducible refine Within.foldl_snd _ ?_ ?_; rotate_left; intro _ _)
    | fail_if_no_progress (with_reducible refine Within.put (a := [.cmd]) ?_ rfl rfl rfl rfl rfl)
    | split

theorem State.choose_frame {ps s t}  (h : Within ps s t) (hp : Part.sub [.cmd] ps = true) : Within ps s (State.choose t).2 := by
  refine h.step (a := [.cmd]) ?_ hp
  unfold State.choose
  repeat' first
    | with_reducible exact Within.refl _ _
    | with_reducible assumption
    | (show Part.sub _ _ = true; rfl)
    | dsimp -zeta only
    | with_reducible apply State.arbitrate_frame
    | with_reducible apply Within.ite
    | fail_if_no_progress (with_reducible refine Within.put (a := []) ?_ rfl rfl rfl rfl rfl)
    | split
    | (with_reducible refine Within.of_pair (by assumption) ?_)

theorem State.unqueue_frame {ps s t} w (h : Within ps s t) (hp : Part.sub [.cmd] ps = true) : Within ps s (State.unqueue t w) := by
  refine h.step (a := [.cmd]) ?_ hp
  unfold State.unqueue
  repeat' first
    | with_reducible exact Within.refl _ _
    | with_reducible assumption
    | (show Part.sub _ _ = true; rfl)
    | dsimp -zeta only
    | with_reducible apply Within.ite
    | fail_if_no_progress (with_reducible refine Within.put (a := [.cmd]) ?_ rfl rfl rfl rfl rfl)
    | split

theorem State.tagRun_frame {ps s t} ticket bt (h : Within ps s t) (hp : Part.sub [.prg] ps = true) : Within ps s (State.tagRun t ticket bt) := by
  refine h.step (a := [.prg]) ?_ hp
  unfold State.tagRun
  repeat' first
    | with_reducible exact Within.refl _ _
    | with_reducible assumption
    | (show Part.sub _ _ = true; rfl)
    | dsimp -zeta only
    | with_reducible apply Within.ite
    | fail_if_no_progress (with_reducible refine Within.put (a := [.prg]) ?_ rfl rfl rfl rfl rfl)
    | split

theorem State.giveTag_frame {ps s t} w cls (h : Within ps s t) (hp : Part.sub [.block 10, .cmd, .prg, .chan, .out] ps = true) : Within ps s (State.giveTag t w cls).2 := by
  refine h.step (a := [.block 10, .cmd, .prg, .chan, .out]) ?_ hp
  unfold State.giveTag
  repeat' first
    | with_reducible exact Within.refl _ _
    | with_reducible assumption
    | (show Part.sub _ _ = true; rfl)
    | (extract_lets +onlyGivenNames x; with_reducible refine Within.cut (u := x) ?_ ?_; rotate_left; intro hx; clear_value x; rename' x => y; rotate_right; unfold x; clear x)
    | (extract_lets +onlyGivenNames x; clear_value x; rename' x => z)
    | (extract_lets +onlyGivenNames x; rename' x => z)
    | dsimp -zeta only
    | with_reducible apply State.sendRing_frame
    | with_reducible apply State.setTag_frame
    | with_reducible apply State.noteTags_frame
    | with_reducible apply State.unqueue_frame
    | with_reducible apply State.tagRun_frame
    | with_reducible apply Within.ite
    | fail_if_no_progress (with_reducible refine Within.put (a := []) ?_ rfl rfl rfl rfl rfl)
    | split

theorem State.runJob_frame {ps s t} bt (h : Within ps s t) (hp : Part.sub [.regs, .holding, .evt, .nor, .host, .cmd, .ddp, .keys, .wc, .sig, .lfl, .map, .rep, .prg, .chan, .store, .mem, .free, .out, .hostWait] ps = true) : Within ps s (State.runJob t bt) := by
  refine h.step (a := [.regs, .holding, .evt, .nor, .host, .cmd, .ddp, .keys, .wc, .sig, .lfl, .map, .rep, .prg, .chan, .store, .mem, .free, .out, .hostWait]) ?_ hp
  unfold State.runJob
  repeat' first
    | with_reducible exact Within.refl _ _
    | with_reducible assumption
    | (show Part.sub _ _ = true; rfl)
    | (extract_lets +onlyGivenNames x; with_reducible refine Within.cut (u := x) ?_ ?_; rotate_left; intro hx; clear_value x; rename' x => y; rotate_right; unfold x; clear x)
    | (extract_lets +onlyGivenNames x; clear_value x; rename' x => z)
    | (extract_lets +onlyGivenNames x; rename' x => z)
    | dsimp -zeta only
    | with_reducible apply State.setTag_frame
    | with_reducible apply State.queueItems_frame
    | with_reducible apply State.tryHandOff_frame
    | with_reducible apply State.queueMeta_frame
    | with_reducible apply State.fetchCopy_frame
    | with_reducible apply Within.ite
    | fail_if_no_progress (with_reducible refine Within.put (a := []) ?_ rfl rfl rfl rfl rfl)
    | split

theorem State.startInternal_frame {ps s t} bt (h : Within ps s t) (hp : Part.sub [.regs, .holding, .evt, .nor, .host, .cmd, .ddp, .keys, .wc, .sig, .lfl, .map, .rep, .prg, .chan, .store, .mem, .free, .out, .hostWait] ps = true) : Within ps s (State.startInternal t bt) := by
  refine h.step (a := [.regs, .holding, .evt, .nor, .host, .cmd, .ddp, .keys, .wc, .sig, .lfl, .map, .rep, .prg, .chan, .store, .mem, .free, .out, .hostWait]) ?_ hp
  unfold State.startInternal
  repeat' first
    | with_reducible exact Within.refl _ _
    | with_reducible assumption
    | (show Part.sub _ _ = true; rfl)
    | dsimp -zeta only
    | with_reducible apply State.requestLock_frame
    | with_reducible apply State.runJob_frame
    | with_reducible apply Within.ite
    | split

theorem State.decodeTag_frame {ps s t} bt (h : Within ps s t) (hp : Part.sub [.regs, .holding, .evt, .nor, .host, .ports, .trn, .cmd, .ddp, .keys, .wc, .sig, .lfl, .map, .rep, .prg, .chan, .store, .mem, .free, .out, .hostWait] ps = true) : Within ps s (State.decodeTag t bt) := by
  refine h.step (a := [.regs, .holding, .evt, .nor, .host, .ports, .trn, .cmd, .ddp, .keys, .wc, .sig, .lfl, .map, .rep, .prg, .chan, .store, .mem, .free, .out, .hostWait]) ?_ hp
  unfold State.decodeTag
  repeat' first
    | with_reducible exact Within.refl _ _
    | with_reducible assumption
    | (show Part.sub _ _ = true; rfl)
    | dsimp -zeta only
    | with_reducible apply State.refuse_frame
    | with_reducible apply State.advance_frame
    | with_reducible apply State.startInternal_frame
    | with_reducible apply Within.ite
    | fail_if_no_progress (with_reducible refine Within.put (a := []) ?_ rfl rfl rfl rfl rfl)
    | split

theorem State.assignPair_frame {ps s t} a b cls (h : Within ps s t) (hp : Part.sub [.regs, .holding, .evt, .nor, .host, .ports, .trn, .cmd, .ddp, .keys, .wc, .sig, .lfl, .map, .rep, .prg, .chan, .store, .mem, .free, .out, .hostWait] ps = true) : Within ps s (State.assignPair t a b cls) := by
  refine h.step (a := [.regs, .holding, .evt, .nor, .host, .ports, .trn, .cmd, .ddp, .keys, .wc, .sig, .lfl, .map, .rep, .prg, .chan, .store, .mem, .free, .out, .hostWait]) ?_ hp
  unfold State.assignPair
  repeat' first
    | with_reducible exact Within.refl _ _
    | with_reducible assumption
    | (show Part.sub _ _ = true; rfl)
    | (extract_lets +onlyGivenNames x; with_reducible refine Within.cut (u := x) ?_ ?_; rotate_left; intro hx; clear_value x; rename' x => y; rotate_right; unfold x; clear x)
    | (extract_lets +onlyGivenNames x; clear_value x; rename' x => z)
    | (extract_lets +onlyGivenNames x; rename' x => z)
    | dsimp -zeta only
    | with_reducible apply State.modTag_frame
    | with_reducible apply State.refuse_frame
    | with_reducible apply State.giveTag_frame
    | with_reducible apply State.decodeTag_frame
    | with_reducible apply Within.ite
    | fail_if_no_progress (with_reducible refine Within.put (a := [.cmd]) ?_ rfl rfl rfl rfl rfl)
    | split
    | (with_reducible refine Within.of_pair (by assumption) ?_)

theorem execTagAssign_frame  s : Lands [.regs, .holding, .evt, .nor, .host, .ports, .trn, .cmd, .ddp, .keys, .wc, .sig, .lfl, .map, .rep, .prg, .chan, .store, .mem, .free, .out, .hostWait] s (execTagAssign s) := by
  unfold execTagAssign
  repeat' first
    | with_reducible exact Within.refl _ _
    | with_reducible assumption
    | (show Part.sub _ _ = true; rfl)
    | with_reducible apply Lands.next
    | (extract_lets +onlyGivenNames x; with_reducible refine Lands.cut (u := x) ?_ ?_; rotate_left; intro hx; clear_value x; rename' x => y; rotate_right; unfold x; clear x)
    | (extract_lets +onlyGivenNames x; with_reducible refine Within.cut (u := x) ?_ ?_; rotate_left; intro hx; clear_value x; rename' x => y; rotate_right; unfold x; clear x)
    | (extract_lets +onlyGivenNames x; clear_value x; rename' x => z)
    | (extract_lets +onlyGivenNames x; rename' x => z)
    | dsimp -zeta only
    | with_reducible apply State.noteTags_frame
    | with_reducible apply State.refuse_frame
    | with_reducible apply State.choose_frame
    | with_reducible apply State.giveTag_frame
    | with_reducible apply State.decodeTag_frame
    | with_reducible apply State.assignPair_frame
    | with_reducible apply Lands.ite
    | with_reducible apply Within.ite
    | fail_if_no_progress (with_reducible refine Within.put (a := []) ?_ rfl rfl rfl rfl rfl)
    | split
    | (with_reducible refine Within.of_pair (by assumption) ?_)

theorem execCompletionQueued_frame tag s : Lands [.block 4, .block 6, .block 10, .block 13, .block 20, .evt, .nor, .host, .cmd, .sig, .map, .prg, .store, .out, .hostWait] s (execCompletionQueued tag s) := by
  unfold execCompletionQueued
  repeat' first
    | with_reducible exact Within.refl _ _
    | with_reducible assumption
    | (show Part.sub _ _ = true; rfl)
    | with_reducible apply Lands.next
    | dsimp -zeta only
    | with_reducible apply State.queueCompletion_frame
    | with_reducible apply Lands.ite
    | with_reducible apply Within.ite
    | split

theorem execTagFree_frame tag s : Lands [.block 4, .block 6, .block 10, .block 11, .block 12, .block 13, .block 19, .block 20, .evt, .nor, .host, .ports, .trn, .cmd, .bnd, .ddp, .keys, .wc, .sig, .lfl, .map, .prg, .chan, .store, .free, .out, .hostWait] s (execTagFree tag s) := by
  unfold execTagFree
  repeat' first
    | with_reducible exact Within.refl _ _
    | with_reducible assumption
    | (show Part.sub _ _ = true; rfl)
    | with_reducible apply Lands.next
    | dsimp -zeta only
    | with_reducible apply State.freeTag_frame
    | with_reducible apply State.pumpLanes_frame
    | with_reducible apply Lands.ite
    | with_reducible apply Within.ite
    | split

theorem execCmdTagQuery_frame value s : Lands [.block 10] s (execCmdTagQuery value s) := by
  unfold execCmdTagQuery
  repeat' first
    | with_reducible exact Within.refl _ _
    | with_reducible assumption
    | (show Part.sub _ _ = true; rfl)
    | with_reducible apply Lands.next
    | (extract_lets +onlyGivenNames x; with_reducible refine Lands.cut (u := x) ?_ ?_; rotate_left; intro hx; clear_value x; rename' x => y; rotate_right; unfold x; clear x)
    | (extract_lets +onlyGivenNames x; with_reducible refine Within.cut (u := x) ?_ ?_; rotate_left; intro hx; clear_value x; rename' x => y; rotate_right; unfold x; clear x)
    | (extract_lets +onlyGivenNames x; clear_value x; rename' x => z)
    | (extract_lets +onlyGivenNames x; rename' x => z)
    | dsimp -zeta only
    | with_reducible apply State.wr_frame
    | with_reducible apply Lands.ite
    | with_reducible apply Within.ite
    | fail_if_no_progress (with_reducible refine Within.put (a := []) ?_ rfl rfl rfl rfl rfl)
    | split

theorem State.endAbort_frame {ps s t} bt ran (h : Within ps s t) (hp : Part.sub [.block 10, .cmd] ps = true) : Within ps s (State.endAbort t bt ran) := by
  refine h.step (a := [.block 10, .cmd]) ?_ hp
  unfold State.endAbort
  repeat' first
    | with_reducible exact Within.refl _ _
    | with_reducible assumption
    | (show Part.sub _ _ = true; rfl)
    | (extract_lets +onlyGivenNames x; with_reducible refine Within.cut (u := x) ?_ ?_; rotate_left; intro hx; clear_value x; rename' x => y; rotate_right; unfold x; clear x)
    | (extract_lets +onlyGivenNames x; clear_value x; rename' x => z)
    | (extract_lets +onlyGivenNames x; rename' x => z)
    | dsimp -zeta only
    | with_reducible apply State.bump_frame
    | with_reducible apply State.finish_frame
    | with_reducible apply Within.ite
    | split

theorem State.abortTag_frame {ps s t} bt (h : Within ps s t) (hp : Part.sub [.block 4, .block 6, .block 10, .block 12, .block 13, .block 19, .block 20, .evt, .nor, .host, .cmd, .ddp, .keys, .sig, .lfl, .map, .prg, .chan, .store, .out, .hostWait] ps = true) : Within ps s (State.abortTag t bt) := by
  refine h.step (a := [.block 4, .block 6, .block 10, .block 12, .block 13, .block 19, .block 20, .evt, .nor, .host, .cmd, .ddp, .keys, .sig, .lfl, .map, .prg, .chan, .store, .out, .hostWait]) ?_ hp
  unfold State.abortTag
  repeat' first
    | with_reducible exact Within.refl _ _
    | with_reducible assumption
    | (show Part.sub _ _ = true; rfl)
    | dsimp -zeta only
    | with_reducible apply State.queueCompletion_frame
    | with_reducible apply State.cancelWith_frame
    | with_reducible apply Within.ite
    | split

theorem State.checkAbort_frame {ps s t} bt (h : Within ps s t) (hp : Part.sub [.block 4, .block 6, .block 10, .block 12, .block 13, .block 19, .block 20, .evt, .nor, .host, .ports, .trn, .cmd, .ddp, .keys, .sig, .lfl, .map, .prg, .chan, .store, .out, .hostWait] ps = true) : Within ps s (State.checkAbort t bt) := by
  refine h.step (a := [.block 4, .block 6, .block 10, .block 12, .block 13, .block 19, .block 20, .evt, .nor, .host, .ports, .trn, .cmd, .ddp, .keys, .sig, .lfl, .map, .prg, .chan, .store, .out, .hostWait]) ?_ hp
  unfold State.checkAbort
  repeat' first
    | with_reducible exact Within.refl _ _
    | with_reducible assumption
    | (show Part.sub _ _ = true; rfl)
    | (extract_lets +onlyGivenNames x; with_reducible refine Within.cut (u := x) ?_ ?_; rotate_left; intro hx; clear_value x; rename' x => y; rotate_right; unfold x; clear x)
    | (extract_lets +onlyGivenNames x; clear_value x; rename' x => z)
    | (extract_lets +onlyGivenNames x; rename' x => z)
    | dsimp -zeta only
    | with_reducible apply State.sendRing_frame
    | with_reducible apply State.modTag_frame
    | with_reducible apply State.noteTags_frame
    | with_reducible apply State.finish_frame
    | with_reducible apply State.refuseCapsule_frame
    | with_reducible apply State.begin_frame
    | with_reducible apply State.unqueue_frame
    | with_reducible apply State.endAbort_frame
    | with_reducible apply State.abortTag_frame
    | intro _
    | with_reducible apply Within.ite
    | fail_if_no_progress (with_reducible refine Within.put (a := []) ?_ rfl rfl rfl rfl rfl)
    | split

theorem execAbort_frame tag s : Lands [.block 4, .block 6, .block 10, .block 12, .block 13, .block 19, .block 20, .evt, .nor, .host, .ports, .trn, .cmd, .ddp, .keys, .sig, .lfl, .map, .prg, .chan, .store, .out, .hostWait] s (execAbort tag s) := by
  unfold execAbort
  repeat' first
    | with_reducible exact Within.refl _ _
    | with_reducible assumption
    | (show Part.sub _ _ = true; rfl)
    | with_reducible apply Lands.next
    | dsimp -zeta only
    | with_reducible apply State.checkAbort_frame
    | with_reducible apply Lands.ite
    | with_reducible apply Within.ite
    | split

theorem State.release_frame {ps s t} bt (h : Within ps s t) (hp : Part.sub [.regs, .holding, .evt, .nor, .host, .ports, .trn, .cmd, .ddp, .keys, .wc, .sig, .lfl, .map, .rep, .prg, .chan, .store, .mem, .free, .out, .hostWait] ps = true) : Within ps s (State.release t bt) := by
  refine h.step (a := [.regs, .holding, .evt, .nor, .host, .ports, .trn, .cmd, .ddp, .keys, .wc, .sig, .lfl, .map, .rep, .prg, .chan, .store, .mem, .free, .out, .hostWait]) ?_ hp
  unfold State.release
  repeat' first
    | with_reducible exact Within.refl _ _
    | with_reducible assumption
    | (show Part.sub _ _ = true; rfl)
    | dsimp -zeta only
    | with_reducible apply State.start_frame
    | with_reducible apply State.advance_frame
    | with_reducible apply State.runJob_frame
    | with_reducible apply Within.ite
    | fail_if_no_progress (with_reducible refine Within.put (a := []) ?_ rfl rfl rfl rfl rfl)
    | split

theorem State.releaseHeld_frame {ps s t}  (h : Within ps s t) (hp : Part.sub [.regs, .holding, .evt, .nor, .host, .ports, .trn, .cmd, .ddp, .keys, .wc, .sig, .lfl, .map, .rep, .prg, .chan, .store, .mem, .free, .out, .hostWait] ps = true) : Within ps s (State.releaseHeld t) := by
  refine h.step (a := [.regs, .holding, .evt, .nor, .host, .ports, .trn, .cmd, .ddp, .keys, .wc, .sig, .lfl, .map, .rep, .prg, .chan, .store, .mem, .free, .out, .hostWait]) ?_ hp
  unfold State.releaseHeld
  repeat' first
    | with_reducible exact Within.refl _ _
    | with_reducible assumption
    | (show Part.sub _ _ = true; rfl)
    | (extract_lets +onlyGivenNames x; with_reducible refine Within.cut (u := x) ?_ ?_; rotate_left; intro hx; clear_value x; rename' x => y; rotate_right; unfold x; clear x)
    | (extract_lets +onlyGivenNames x; clear_value x; rename' x => z)
    | (extract_lets +onlyGivenNames x; rename' x => z)
    | dsimp -zeta only
    | with_reducible apply State.noteTags_frame
    | with_reducible apply State.checkAbort_frame
    | with_reducible apply State.release_frame
    | with_reducible apply Within.ite
    | (with_reducible refine Within.foldl _ ?_ ?_; rotate_left; intro _ _)
    | (with_reducible refine Within.foldl_snd _ ?_ ?_; rotate_left; intro _ _)
    | split

theorem execHoldRelease_frame  s : Lands [.regs, .holding, .evt, .nor, .host, .ports, .trn, .cmd, .ddp, .keys, .wc, .sig, .lfl, .map, .rep, .prg, .chan, .store, .mem, .free, .out, .hostWait] s (execHoldRelease s) := by
  unfold execHoldRelease
  repeat' first
    | with_reducible exact Within.refl _ _
    | with_reducible assumption
    | (show Part.sub _ _ = true; rfl)
    | with_reducible apply Lands.next
    | dsimp -zeta only
    | with_reducible apply State.releaseHeld_frame
    | with_reducible apply Lands.ite
    | with_reducible apply Within.ite
    | split

theorem State.ps3Down_frame {ps s t} q (h : Within ps s t) (hp : Part.sub [.block 1, .block 11, .block 19, .power] ps = true) : Within ps s (State.ps3Down t q) := by
  refine h.step (a := [.block 1, .block 11, .block 19, .power]) ?_ hp
  unfold State.ps3Down
  repeat' first
    | with_reducible exact Within.refl _ _
    | with_reducible assumption
    | (show Part.sub _ _ = true; rfl)
    | dsimp -zeta only
    | with_reducible apply State.setQuarter_frame
    | with_reducible apply State.unitsOut_frame
    | with_reducible apply State.returnTokens_frame
    | with_reducible apply Within.ite
    | fail_if_no_progress (with_reducible refine Within.put (a := []) ?_ rfl rfl rfl rfl rfl)
    | split

theorem State.ps3Up_frame {ps s t} q (h : Within ps s t) (hp : Part.sub [.block 11, .block 19, .power] ps = true) : Within ps s (State.ps3Up t q) := by
  refine h.step (a := [.block 11, .block 19, .power]) ?_ hp
  unfold State.ps3Up
  repeat' first
    | with_reducible exact Within.refl _ _
    | with_reducible assumption
    | (show Part.sub _ _ = true; rfl)
    | dsimp -zeta only
    | with_reducible apply State.setQuarter_frame
    | with_reducible apply State.unitsIn_frame
    | with_reducible apply Within.ite
    | fail_if_no_progress (with_reducible refine Within.put (a := []) ?_ rfl rfl rfl rfl rfl)
    | split

theorem State.thawRuns_frame {ps s t}  (h : Within ps s t) (hp : Part.sub [.prg] ps = true) : Within ps s (State.thawRuns t) := by
  refine h.step (a := [.prg]) ?_ hp
  unfold State.thawRuns
  repeat' first
    | with_reducible exact Within.refl _ _
    | with_reducible assumption
    | (show Part.sub _ _ = true; rfl)
    | dsimp -zeta only
    | with_reducible apply Within.ite
    | fail_if_no_progress (with_reducible refine Within.put (a := [.prg]) ?_ rfl rfl rfl rfl rfl)
    | split

theorem State.freezePrograms_frame {ps s t}  (h : Within ps s t) (hp : Part.sub [.prg] ps = true) : Within ps s (State.freezePrograms t) := by
  refine h.step (a := [.prg]) ?_ hp
  unfold State.freezePrograms
  repeat' first
    | with_reducible exact Within.refl _ _
    | with_reducible assumption
    | (show Part.sub _ _ = true; rfl)
    | dsimp -zeta only
    | with_reducible apply Within.ite
    | fail_if_no_progress (with_reducible refine Within.put (a := [.prg]) ?_ rfl rfl rfl rfl rfl)
    | split

theorem State.setStateCap_frame {ps s t} bps (h : Within ps s t) (hp : Part.sub [.power] ps = true) : Within ps s (State.setStateCap t bps) := by
  refine h.step (a := [.power]) ?_ hp
  unfold State.setStateCap
  repeat' first
    | with_reducible exact Within.refl _ _
    | with_reducible assumption
    | (show Part.sub _ _ = true; rfl)
    | dsimp -zeta only
    | with_reducible apply Within.ite
    | fail_if_no_progress (with_reducible refine Within.put (a := [.power]) ?_ rfl rfl rfl rfl rfl)
    | split

theorem State.ps3Capped_frame {ps s t}  (h : Within ps s t) (hp : Part.sub [.block 1, .block 4, .block 6, .power, .evt, .nor, .host, .prg, .out, .hostWait] ps = true) : Within ps s (State.ps3Capped t) := by
  refine h.step (a := [.block 1, .block 4, .block 6, .power, .evt, .nor, .host, .prg, .out, .hostWait]) ?_ hp
  unfold State.ps3Capped
  repeat' first
    | with_reducible exact Within.refl _ _
    | with_reducible assumption
    | (show Part.sub _ _ = true; rfl)
    | dsimp -zeta only
    | with_reducible apply State.settleBudget_frame
    | with_reducible apply State.freezePrograms_frame
    | with_reducible apply State.setStateCap_frame
    | with_reducible apply Within.ite
    | split

theorem State.answerPs3_frame {ps s t}  (h : Within ps s t) (hp : Part.sub [.block 4, .block 6, .block 10, .block 13, .block 20, .evt, .nor, .host, .cmd, .sig, .map, .prg, .store, .out, .hostWait] ps = true) : Within ps s (State.answerPs3 t) := by
  refine h.step (a := [.block 4, .block 6, .block 10, .block 13, .block 20, .evt, .nor, .host, .cmd, .sig, .map, .prg, .store, .out, .hostWait]) ?_ hp
  unfold State.answerPs3
  repeat' first
    | with_reducible exact Within.refl _ _
    | with_reducible assumption
    | (show Part.sub _ _ = true; rfl)
    | dsimp -zeta only
    | with_reducible apply State.finish_frame
    | with_reducible apply State.queueCompletion_frame
    | with_reducible apply Within.ite
    | fail_if_no_progress (with_reducible refine Within.put (a := [.cmd]) ?_ rfl rfl rfl rfl rfl)
    | split

theorem State.settlePs3_frame {ps s t}  (h : Within ps s t) (hp : Part.sub [.block 10, .cmd] ps = true) : Within ps s (State.settlePs3 t) := by
  refine h.step (a := [.block 10, .cmd]) ?_ hp
  unfold State.settlePs3
  repeat' first
    | with_reducible exact Within.refl _ _
    | with_reducible assumption
    | (show Part.sub _ _ = true; rfl)
    | dsimp -zeta only
    | with_reducible apply State.wr_frame
    | with_reducible apply Within.ite
    | fail_if_no_progress (with_reducible refine Within.put (a := [.cmd]) ?_ rfl rfl rfl rfl rfl)
    | split

theorem execPs3EntryEnd_frame  s : Lands [.block 1, .block 4, .block 6, .block 10, .block 11, .block 13, .block 19, .block 20, .power, .evt, .nor, .host, .cmd, .sig, .map, .prg, .store, .out, .hostWait] s (execPs3EntryEnd s) := by
  unfold execPs3EntryEnd
  repeat' first
    | with_reducible exact Within.refl _ _
    | with_reducible assumption
    | (show Part.sub _ _ = true; rfl)
    | with_reducible apply Lands.next
    | (extract_lets +onlyGivenNames x; with_reducible refine Lands.cut (u := x) ?_ ?_; rotate_left; intro hx; clear_value x; rename' x => y; rotate_right; unfold x; clear x)
    | (extract_lets +onlyGivenNames x; with_reducible refine Within.cut (u := x) ?_ ?_; rotate_left; intro hx; clear_value x; rename' x => y; rotate_right; unfold x; clear x)
    | (extract_lets +onlyGivenNames x; clear_value x; rename' x => z)
    | (extract_lets +onlyGivenNames x; rename' x => z)
    | dsimp -zeta only
    | with_reducible apply State.ps3Down_frame
    | with_reducible apply State.ps3Capped_frame
    | with_reducible apply State.answerPs3_frame
    | with_reducible apply State.settlePs3_frame
    | with_reducible apply Lands.ite
    | with_reducible apply Within.ite
    | (with_reducible refine Within.foldl _ ?_ ?_; rotate_left; intro _ _)
    | (with_reducible refine Within.foldl_snd _ ?_ ?_; rotate_left; intro _ _)
    | split

theorem State.leavePs3_frame {ps s t} bps (h : Within ps s t) (hp : Part.sub [.power, .cmd] ps = true) : Within ps s (State.leavePs3 t bps) := by
  refine h.step (a := [.power, .cmd]) ?_ hp
  unfold State.leavePs3
  repeat' first
    | with_reducible exact Within.refl _ _
    | with_reducible assumption
    | (show Part.sub _ _ = true; rfl)
    | dsimp -zeta only
    | with_reducible apply Within.ite
    | fail_if_no_progress (with_reducible refine Within.put (a := [.power, .cmd]) ?_ rfl rfl rfl rfl rfl)
    | split

theorem execPs3ExitEnd_frame  s : Lands [.regs, .holding, .power, .test, .evt, .nor, .host, .ports, .trn, .cmd, .ddp, .keys, .wc, .sig, .lfl, .map, .rep, .prg, .chan, .store, .mem, .free, .out, .hostWait] s (execPs3ExitEnd s) := by
  unfold execPs3ExitEnd
  repeat' first
    | with_reducible exact Within.refl _ _
    | with_reducible assumption
    | (show Part.sub _ _ = true; rfl)
    | with_reducible apply Lands.next
    | (extract_lets +onlyGivenNames x; with_reducible refine Lands.cut (u := x) ?_ ?_; rotate_left; intro hx; clear_value x; rename' x => y; rotate_right; unfold x; clear x)
    | (extract_lets +onlyGivenNames x; with_reducible refine Within.cut (u := x) ?_ ?_; rotate_left; intro hx; clear_value x; rename' x => y; rotate_right; unfold x; clear x)
    | (extract_lets +onlyGivenNames x; clear_value x; rename' x => z)
    | (extract_lets +onlyGivenNames x; rename' x => z)
    | dsimp -zeta only
    | with_reducible apply State.wr_frame
    | with_reducible apply State.settleBudget_frame
    | with_reducible apply State.settlePs_frame
    | with_reducible apply State.releaseHeld_frame
    | with_reducible apply State.ps3Up_frame
    | with_reducible apply State.thawRuns_frame
    | with_reducible apply State.leavePs3_frame
    | with_reducible apply Lands.ite
    | with_reducible apply Within.ite
    | (with_reducible refine Within.foldl _ ?_ ?_; rotate_left; intro _ _)
    | (with_reducible refine Within.foldl_snd _ ?_ ?_; rotate_left; intro _ _)
    | fail_if_no_progress (with_reducible refine Within.put (a := [.cmd]) ?_ rfl rfl rfl rfl rfl)
    | split

theorem State.modCtrl_frame {ps s t} n f (h : Within ps s t) (hp : Part.sub [.cmd] ps = true) : Within ps s (State.modCtrl t n f) := by
  refine h.step (a := [.cmd]) ?_ hp
  unfold State.modCtrl
  repeat' first
    | with_reducible exact Within.refl _ _
    | with_reducible assumption
    | (show Part.sub _ _ = true; rfl)
    | dsimp -zeta only
    | with_reducible apply Within.ite
    | fail_if_no_progress (with_reducible refine Within.put (a := [.cmd]) ?_ rfl rfl rfl rfl rfl)
    | split

theorem State.answerData_frame {ps s t} bt kind sel fields dw0 (h : Within ps s t) (hp : Part.sub [.cmd, .out] ps = true) : Within ps s (State.answerData t bt kind sel fields dw0) := by
  refine h.step (a := [.cmd, .out]) ?_ hp
  unfold State.answerData
  repeat' first
    | with_reducible exact Within.refl _ _
    | with_reducible assumption
    | (show Part.sub _ _ = true; rfl)
    | dsimp -zeta only
    | with_reducible apply State.send_frame
    | with_reducible apply State.finish_frame
    | with_reducible apply Within.ite
    | split

theorem execGetLogPage_frame tag s : Lands [.cmd, .free, .out] s (execGetLogPage tag s) := by
  unfold execGetLogPage
  repeat' first
    | with_reducible exact Within.refl _ _
    | with_reducible assumption
    | (show Part.sub _ _ = true; rfl)
    | with_reducible apply Lands.next
    | (extract_lets +onlyGivenNames x; with_reducible refine Lands.cut (u := x) ?_ ?_; rotate_left; intro hx; clear_value x; rename' x => y; rotate_right; unfold x; clear x)
    | (extract_lets +onlyGivenNames x; with_reducible refine Within.cut (u := x) ?_ ?_; rotate_left; intro hx; clear_value x; rename' x => y; rotate_right; unfold x; clear x)
    | (extract_lets +onlyGivenNames x; clear_value x; rename' x => z)
    | (extract_lets +onlyGivenNames x; rename' x => z)
    | dsimp -zeta only
    | with_reducible apply State.fresh_frame
    | with_reducible apply State.finish_frame
    | with_reducible apply State.begin_frame
    | with_reducible apply State.modCtrl_frame
    | with_reducible apply State.answerData_frame
    | intro _
    | with_reducible apply Lands.ite
    | with_reducible apply Within.ite
    | fail_if_no_progress (with_reducible refine Within.put (a := []) ?_ rfl rfl rfl rfl rfl)
    | split
    | (with_reducible refine Within.of_pair (by assumption) ?_)

theorem execIdentify_frame tag s : Lands [.cmd, .out] s (execIdentify tag s) := by
  unfold execIdentify
  repeat' first
    | with_reducible exact Within.refl _ _
    | with_reducible assumption
    | (show Part.sub _ _ = true; rfl)
    | with_reducible apply Lands.next
    | dsimp -zeta only
    | with_reducible apply State.finish_frame
    | with_reducible apply State.begin_frame
    | with_reducible apply State.answerData_frame
    | intro _
    | with_reducible apply Lands.ite
    | with_reducible apply Within.ite
    | fail_if_no_progress (with_reducible refine Within.put (a := []) ?_ rfl rfl rfl rfl rfl)
    | split

theorem State.setPersist_frame {ps s t} bt c (h : Within ps s t) (hp : Part.sub [.cmd] ps = true) : Within ps s (State.setPersist t bt c) := by
  refine h.step (a := [.cmd]) ?_ hp
  unfold State.setPersist
  repeat' first
    | with_reducible exact Within.refl _ _
    | with_reducible assumption
    | (show Part.sub _ _ = true; rfl)
    | (extract_lets +onlyGivenNames x; with_reducible refine Within.cut (u := x) ?_ ?_; rotate_left; intro hx; clear_value x; rename' x => y; rotate_right; unfold x; clear x)
    | (extract_lets +onlyGivenNames x; clear_value x; rename' x => z)
    | (extract_lets +onlyGivenNames x; rename' x => z)
    | dsimp -zeta only
    | with_reducible apply State.askInternal_frame
    | with_reducible apply State.finish_frame
    | with_reducible apply Within.ite
    | (with_reducible refine Within.foldl _ ?_ ?_; rotate_left; intro _ _)
    | (with_reducible refine Within.foldl_snd _ ?_ ?_; rotate_left; intro _ _)
    | fail_if_no_progress (with_reducible refine Within.put (a := []) ?_ rfl rfl rfl rfl rfl)
    | split

theorem execSetFeatures_frame tag s : Lands [.block 1, .block 4, .block 5, .block 6, .block 10, .block 11, .block 19, .power, .test, .evt, .nor, .host, .cmd, .out, .hostWait] s (execSetFeatures tag s) := by
  unfold execSetFeatures
  repeat' first
    | with_reducible exact Within.refl _ _
    | with_reducible assumption
    | (show Part.sub _ _ = true; rfl)
    | with_reducible apply Lands.next
    | (extract_lets +onlyGivenNames x; with_reducible refine Lands.cut (u := x) ?_ ?_; rotate_left; intro hx; clear_value x; rename' x => y; rotate_right; unfold x; clear x)
    | (extract_lets +onlyGivenNames x; with_reducible refine Within.cut (u := x) ?_ ?_; rotate_left; intro hx; clear_value x; rename' x => y; rotate_right; unfold x; clear x)
    | (extract_lets +onlyGivenNames x; clear_value x; rename' x => z)
    | (extract_lets +onlyGivenNames x; rename' x => z)
    | dsimp -zeta only
    | with_reducible apply State.finish_frame
    | with_reducible apply State.settlePs_frame
    | with_reducible apply State.begin_frame
    | with_reducible apply State.modCtrl_frame
    | with_reducible apply State.setPersist_frame
    | intro _
    | with_reducible apply Lands.ite
    | with_reducible apply Within.ite
    | fail_if_no_progress (with_reducible refine Within.put (a := []) ?_ rfl rfl rfl rfl rfl)
    | split

theorem execGetFeatures_frame tag s : Lands [.cmd] s (execGetFeatures tag s) := by
  unfold execGetFeatures
  repeat' first
    | with_reducible exact Within.refl _ _
    | with_reducible assumption
    | (show Part.sub _ _ = true; rfl)
    | with_reducible apply Lands.next
    | dsimp -zeta only
    | with_reducible apply State.finish_frame
    | with_reducible apply State.begin_frame
    | intro _
    | with_reducible apply Lands.ite
    | with_reducible apply Within.ite
    | fail_if_no_progress (with_reducible refine Within.put (a := []) ?_ rfl rfl rfl rfl rfl)
    | split

theorem execAsynchronousEventRequest_frame tag s : Lands [.cmd] s (execAsynchronousEventRequest tag s) := by
  unfold execAsynchronousEventRequest
  repeat' first
    | with_reducible exact Within.refl _ _
    | with_reducible assumption
    | (show Part.sub _ _ = true; rfl)
    | with_reducible apply Lands.next
    | (extract_lets +onlyGivenNames x; with_reducible refine Lands.cut (u := x) ?_ ?_; rotate_left; intro hx; clear_value x; rename' x => y; rotate_right; unfold x; clear x)
    | (extract_lets +onlyGivenNames x; with_reducible refine Within.cut (u := x) ?_ ?_; rotate_left; intro hx; clear_value x; rename' x => y; rotate_right; unfold x; clear x)
    | (extract_lets +onlyGivenNames x; clear_value x; rename' x => z)
    | (extract_lets +onlyGivenNames x; rename' x => z)
    | dsimp -zeta only
    | with_reducible apply State.finish_frame
    | with_reducible apply State.begin_frame
    | with_reducible apply State.modCtrl_frame
    | intro _
    | with_reducible apply Lands.ite
    | with_reducible apply Within.ite
    | fail_if_no_progress (with_reducible refine Within.put (a := []) ?_ rfl rfl rfl rfl rfl)
    | split

theorem execKeepAlive_frame tag s : Lands [.cmd] s (execKeepAlive tag s) := by
  unfold execKeepAlive
  repeat' first
    | with_reducible exact Within.refl _ _
    | with_reducible assumption
    | (show Part.sub _ _ = true; rfl)
    | with_reducible apply Lands.next
    | dsimp -zeta only
    | with_reducible apply State.finish_frame
    | with_reducible apply State.begin_frame
    | with_reducible apply State.modCtrl_frame
    | intro _
    | with_reducible apply Lands.ite
    | with_reducible apply Within.ite
    | fail_if_no_progress (with_reducible refine Within.put (a := []) ?_ rfl rfl rfl rfl rfl)
    | split

theorem execKeepAliveExpiry_frame ctrl s : Lands (.block 1 :: .block 4 :: .block 5 :: .block 6 :: .block 10 :: .block 11 :: .block 12 :: .block 13 :: .block 19 :: .block 20 :: .power :: .test :: .evt :: .nor :: .host :: .ports :: .trn :: .cmd :: .ddp :: .keys :: .sig :: .lfl :: .map :: .rep :: .prg :: .chan :: .store :: .out :: .hostWait :: []) s (execKeepAliveExpiry ctrl s) := by
  unfold execKeepAliveExpiry
  repeat' first
    | with_reducible exact Within.refl _ _
    | with_reducible assumption
    | (show Part.sub _ _ = true; rfl)
    | with_reducible apply Lands.next
    | dsimp -zeta only
    | with_reducible apply State.resetController_frame
    | with_reducible apply Lands.ite
    | with_reducible apply Within.ite
    | fail_if_no_progress (with_reducible refine Within.put (a := []) ?_ rfl rfl rfl rfl rfl)
    | split

theorem execFabricsConnect_frame tag s : Lands [.cmd] s (execFabricsConnect tag s) := by
  unfold execFabricsConnect
  repeat' first
    | with_reducible exact Within.refl _ _
    | with_reducible assumption
    | (show Part.sub _ _ = true; rfl)
    | with_reducible apply Lands.next
    | (extract_lets +onlyGivenNames x; with_reducible refine Lands.cut (u := x) ?_ ?_; rotate_left; intro hx; clear_value x; rename' x => y; rotate_right; unfold x; clear x)
    | (extract_lets +onlyGivenNames x; with_reducible refine Within.cut (u := x) ?_ ?_; rotate_left; intro hx; clear_value x; rename' x => y; rotate_right; unfold x; clear x)
    | (extract_lets +onlyGivenNames x; clear_value x; rename' x => z)
    | (extract_lets +onlyGivenNames x; rename' x => z)
    | dsimp -zeta only
    | with_reducible apply State.modTag_frame
    | with_reducible apply State.finish_frame
    | with_reducible apply State.begin_frame
    | with_reducible apply State.modCtrl_frame
    | intro _
    | with_reducible apply Lands.ite
    | with_reducible apply Within.ite
    | fail_if_no_progress (with_reducible refine Within.put (a := [.cmd]) ?_ rfl rfl rfl rfl rfl)
    | split

theorem execPropertyGet_frame tag s : Lands [.cmd, .free] s (execPropertyGet tag s) := by
  unfold execPropertyGet
  repeat' first
    | with_reducible exact Within.refl _ _
    | with_reducible assumption
    | (show Part.sub _ _ = true; rfl)
    | with_reducible apply Lands.next
    | (extract_lets +onlyGivenNames x; with_reducible refine Lands.cut (u := x) ?_ ?_; rotate_left; intro hx; clear_value x; rename' x => y; rotate_right; unfold x; clear x)
    | (extract_lets +onlyGivenNames x; with_reducible refine Within.cut (u := x) ?_ ?_; rotate_left; intro hx; clear_value x; rename' x => y; rotate_right; unfold x; clear x)
    | (extract_lets +onlyGivenNames x; clear_value x; rename' x => z)
    | (extract_lets +onlyGivenNames x; rename' x => z)
    | dsimp -zeta only
    | with_reducible apply State.fresh_frame
    | with_reducible apply State.finish_frame
    | with_reducible apply State.begin_frame
    | intro _
    | with_reducible apply Lands.ite
    | with_reducible apply Within.ite
    | fail_if_no_progress (with_reducible refine Within.put (a := []) ?_ rfl rfl rfl rfl rfl)
    | split
    | (with_reducible refine Within.of_pair (by assumption) ?_)

theorem State.writeCc_frame {ps s t} bt ctrl v (h : Within ps s t) (hp : Part.sub (.block 1 :: .block 4 :: .block 5 :: .block 6 :: .block 10 :: .block 11 :: .block 12 :: .block 13 :: .block 19 :: .block 20 :: .power :: .test :: .evt :: .nor :: .host :: .ports :: .trn :: .cmd :: .ddp :: .keys :: .sig :: .lfl :: .map :: .rep :: .prg :: .chan :: .store :: .out :: .hostWait :: []) ps = true) : Within ps s (State.writeCc t bt ctrl v) := by
  refine h.step (a := (.block 1 :: .block 4 :: .block 5 :: .block 6 :: .block 10 :: .block 11 :: .block 12 :: .block 13 :: .block 19 :: .block 20 :: .power :: .test :: .evt :: .nor :: .host :: .ports :: .trn :: .cmd :: .ddp :: .keys :: .sig :: .lfl :: .map :: .rep :: .prg :: .chan :: .store :: .out :: .hostWait :: [])) ?_ hp
  unfold State.writeCc
  repeat' first
    | with_reducible exact Within.refl _ _
    | with_reducible assumption
    | (show Part.sub _ _ = true; rfl)
    | (extract_lets +onlyGivenNames x; with_reducible refine Within.cut (u := x) ?_ ?_; rotate_left; intro hx; clear_value x; rename' x => y; rotate_right; unfold x; clear x)
    | (extract_lets +onlyGivenNames x; clear_value x; rename' x => z)
    | (extract_lets +onlyGivenNames x; rename' x => z)
    | dsimp -zeta only
    | with_reducible apply State.settlePs_frame
    | with_reducible apply State.resetController_frame
    | with_reducible apply State.modCtrl_frame
    | with_reducible apply Within.ite
    | fail_if_no_progress (with_reducible refine Within.put (a := []) ?_ rfl rfl rfl rfl rfl)
    | split

theorem execPropertySet_frame tag s : Lands (.block 1 :: .block 4 :: .block 5 :: .block 6 :: .block 10 :: .block 11 :: .block 12 :: .block 13 :: .block 19 :: .block 20 :: .power :: .test :: .evt :: .nor :: .host :: .ports :: .trn :: .cmd :: .ddp :: .keys :: .sig :: .lfl :: .map :: .rep :: .prg :: .chan :: .store :: .out :: .hostWait :: []) s (execPropertySet tag s) := by
  unfold execPropertySet
  repeat' first
    | with_reducible exact Within.refl _ _
    | with_reducible assumption
    | (show Part.sub _ _ = true; rfl)
    | with_reducible apply Lands.next
    | dsimp -zeta only
    | with_reducible apply State.finish_frame
    | with_reducible apply State.begin_frame
    | with_reducible apply State.writeCc_frame
    | intro _
    | with_reducible apply Lands.ite
    | with_reducible apply Within.ite
    | split

theorem execDisconnect_frame tag s : Lands (.block 1 :: .block 4 :: .block 5 :: .block 6 :: .block 10 :: .block 11 :: .block 12 :: .block 13 :: .block 19 :: .block 20 :: .power :: .test :: .evt :: .nor :: .host :: .ports :: .trn :: .cmd :: .ddp :: .keys :: .sig :: .lfl :: .map :: .rep :: .prg :: .chan :: .store :: .out :: .hostWait :: []) s (execDisconnect tag s) := by
  unfold execDisconnect
  repeat' first
    | with_reducible exact Within.refl _ _
    | with_reducible assumption
    | (show Part.sub _ _ = true; rfl)
    | with_reducible apply Lands.next
    | dsimp -zeta only
    | with_reducible apply State.finish_frame
    | with_reducible apply State.resetController_frame
    | with_reducible apply State.begin_frame
    | with_reducible apply State.modCtrl_frame
    | intro _
    | with_reducible apply Lands.ite
    | with_reducible apply Within.ite
    | fail_if_no_progress (with_reducible refine Within.put (a := []) ?_ rfl rfl rfl rfl rfl)
    | split

theorem execCstsRdyClear_frame ctrl s : Lands [.cmd] s (execCstsRdyClear ctrl s) := by
  unfold execCstsRdyClear
  repeat' first
    | with_reducible exact Within.refl _ _
    | with_reducible assumption
    | (show Part.sub _ _ = true; rfl)
    | with_reducible apply Lands.next
    | dsimp -zeta only
    | with_reducible apply State.modCtrl_frame
    | with_reducible apply Lands.ite
    | with_reducible apply Within.ite
    | fail_if_no_progress (with_reducible refine Within.put (a := [.cmd]) ?_ rfl rfl rfl rfl rfl)
    | split

theorem execShutdownComplete_frame ctrl s : Lands [.cmd] s (execShutdownComplete ctrl s) := by
  unfold execShutdownComplete
  repeat' first
    | with_reducible exact Within.refl _ _
    | with_reducible assumption
    | (show Part.sub _ _ = true; rfl)
    | with_reducible apply Lands.next
    | (extract_lets +onlyGivenNames x; with_reducible refine Lands.cut (u := x) ?_ ?_; rotate_left; intro hx; clear_value x; rename' x => y; rotate_right; unfold x; clear x)
    | (extract_lets +onlyGivenNames x; with_reducible refine Within.cut (u := x) ?_ ?_; rotate_left; intro hx; clear_value x; rename' x => y; rotate_right; unfold x; clear x)
    | (extract_lets +onlyGivenNames x; clear_value x; rename' x => z)
    | (extract_lets +onlyGivenNames x; rename' x => z)
    | dsimp -zeta only
    | with_reducible apply State.modCtrl_frame
    | with_reducible apply Lands.ite
    | with_reducible apply Within.ite
    | fail_if_no_progress (with_reducible refine Within.put (a := []) ?_ rfl rfl rfl rfl rfl)
    | split

theorem execFormatNvm_frame tag s : Lands [.block 4, .block 6, .block 12, .block 13, .block 19, .block 20, .evt, .nor, .host, .cmd, .ddp, .keys, .wc, .sig, .lfl, .map, .prg, .chan, .store, .out, .hostWait] s (execFormatNvm tag s) := by
  unfold execFormatNvm
  repeat' first
    | with_reducible exact Within.refl _ _
    | with_reducible assumption
    | (show Part.sub _ _ = true; rfl)
    | with_reducible apply Lands.next
    | dsimp -zeta only
    | with_reducible apply State.begin_frame
    | with_reducible apply State.queueMeta_frame
    | intro _
    | with_reducible apply Lands.ite
    | with_reducible apply Within.ite
    | split

theorem execFlush_frame tag s : Lands [.cmd] s (execFlush tag s) := by
  unfold execFlush
  repeat' first
    | with_reducible exact Within.refl _ _
    | with_reducible assumption
    | (show Part.sub _ _ = true; rfl)
    | with_reducible apply Lands.next
    | dsimp -zeta only
    | with_reducible apply State.settleFlush_frame
    | with_reducible apply State.begin_frame
    | intro _
    | with_reducible apply Lands.ite
    | with_reducible apply Within.ite
    | split

theorem execWrite_frame tag s : Lands [.block 4, .block 6, .block 11, .block 12, .block 13, .block 19, .block 20, .evt, .nor, .host, .ports, .trn, .cmd, .bnd, .ddp, .keys, .wc, .sig, .lfl, .map, .prg, .chan, .store, .free, .out, .hostWait] s (execWrite tag s) := by
  unfold execWrite
  repeat' first
    | with_reducible exact Within.refl _ _
    | with_reducible assumption
    | (show Part.sub _ _ = true; rfl)
    | with_reducible apply Lands.next
    | (extract_lets +onlyGivenNames x; with_reducible refine Lands.cut (u := x) ?_ ?_; rotate_left; intro hx; clear_value x; rename' x => y; rotate_right; unfold x; clear x)
    | (extract_lets +onlyGivenNames x; with_reducible refine Within.cut (u := x) ?_ ?_; rotate_left; intro hx; clear_value x; rename' x => y; rotate_right; unfold x; clear x)
    | (extract_lets +onlyGivenNames x; clear_value x; rename' x => z)
    | (extract_lets +onlyGivenNames x; rename' x => z)
    | dsimp -zeta only
    | with_reducible apply State.modTag_frame
    | with_reducible apply State.begin_frame
    | with_reducible apply State.takeForwarded_frame
    | with_reducible apply State.tryHandOff_frame
    | with_reducible apply State.pumpTag_frame
    | intro _
    | with_reducible apply Lands.ite
    | with_reducible apply Within.ite
    | (with_reducible refine Within.foldl _ ?_ ?_; rotate_left; intro _ _)
    | (with_reducible refine Within.foldl_snd _ ?_ ?_; rotate_left; intro _ _)
    | fail_if_no_progress (with_reducible refine Within.put (a := []) ?_ rfl rfl rfl rfl rfl)
    | split

theorem execWriteZeroes_frame tag s : Lands [.block 12, .block 13, .block 19, .block 20, .cmd, .ddp, .keys, .wc, .sig, .lfl, .map, .prg, .chan, .store, .out] s (execWriteZeroes tag s) := by
  unfold execWriteZeroes
  repeat' first
    | with_reducible exact Within.refl _ _
    | with_reducible assumption
    | (show Part.sub _ _ = true; rfl)
    | with_reducible apply Lands.next
    | (extract_lets +onlyGivenNames x; with_reducible refine Lands.cut (u := x) ?_ ?_; rotate_left; intro hx; clear_value x; rename' x => y; rotate_right; unfold x; clear x)
    | (extract_lets +onlyGivenNames x; with_reducible refine Within.cut (u := x) ?_ ?_; rotate_left; intro hx; clear_value x; rename' x => y; rotate_right; unfold x; clear x)
    | (extract_lets +onlyGivenNames x; clear_value x; rename' x => z)
    | (extract_lets +onlyGivenNames x; rename' x => z)
    | dsimp -zeta only
    | with_reducible apply State.begin_frame
    | with_reducible apply State.handOffExtents_frame
    | intro _
    | with_reducible apply Lands.ite
    | with_reducible apply Within.ite
    | split

theorem execDatasetManagement_frame tag s : Lands [.block 12, .block 13, .block 19, .block 20, .cmd, .ddp, .keys, .wc, .sig, .lfl, .map, .prg, .chan, .store, .out] s (execDatasetManagement tag s) := by
  unfold execDatasetManagement
  repeat' first
    | with_reducible exact Within.refl _ _
    | with_reducible assumption
    | (show Part.sub _ _ = true; rfl)
    | with_reducible apply Lands.next
    | (extract_lets +onlyGivenNames x; with_reducible refine Lands.cut (u := x) ?_ ?_; rotate_left; intro hx; clear_value x; rename' x => y; rotate_right; unfold x; clear x)
    | (extract_lets +onlyGivenNames x; with_reducible refine Within.cut (u := x) ?_ ?_; rotate_left; intro hx; clear_value x; rename' x => y; rotate_right; unfold x; clear x)
    | (extract_lets +onlyGivenNames x; clear_value x; rename' x => z)
    | (extract_lets +onlyGivenNames x; rename' x => z)
    | dsimp -zeta only
    | with_reducible apply State.finish_frame
    | with_reducible apply State.begin_frame
    | with_reducible apply State.handOffExtents_frame
    | intro _
    | with_reducible apply Lands.ite
    | with_reducible apply Within.ite
    | split

theorem State.tellHosts_frame {ps s t} nsid hosts bit (h : Within ps s t) (hp : Part.sub [.cmd] ps = true) : Within ps s (State.tellHosts t nsid hosts bit) := by
  refine h.step (a := [.cmd]) ?_ hp
  unfold State.tellHosts
  repeat' first
    | with_reducible exact Within.refl _ _
    | with_reducible assumption
    | (show Part.sub _ _ = true; rfl)
    | dsimp -zeta only
    | with_reducible apply State.notice_frame
    | with_reducible apply State.modCtrl_frame
    | with_reducible apply Within.ite
    | (with_reducible refine Within.foldl _ ?_ ?_; rotate_left; intro _ _)
    | (with_reducible refine Within.foldl_snd _ ?_ ?_; rotate_left; intro _ _)
    | fail_if_no_progress (with_reducible refine Within.put (a := []) ?_ rfl rfl rfl rfl rfl)
    | split

theorem State.queueResv_frame {ps s t} bt nsid op (h : Within ps s t) (hp : Part.sub [.block 4, .block 6, .block 12, .block 13, .block 19, .block 20, .evt, .nor, .host, .cmd, .ddp, .keys, .wc, .sig, .lfl, .map, .prg, .chan, .store, .out, .hostWait] ps = true) : Within ps s (State.queueResv t bt nsid op) := by
  refine h.step (a := [.block 4, .block 6, .block 12, .block 13, .block 19, .block 20, .evt, .nor, .host, .cmd, .ddp, .keys, .wc, .sig, .lfl, .map, .prg, .chan, .store, .out, .hostWait]) ?_ hp
  unfold State.queueResv
  repeat' first
    | with_reducible exact Within.refl _ _
    | with_reducible assumption
    | (show Part.sub _ _ = true; rfl)
    | dsimp -zeta only
    | with_reducible apply State.queueMeta_frame
    | with_reducible apply Within.ite
    | split

theorem execReservationRegister_frame tag s : Lands [.block 4, .block 6, .block 12, .block 13, .block 19, .block 20, .evt, .nor, .host, .cmd, .ddp, .keys, .wc, .sig, .lfl, .map, .prg, .chan, .store, .out, .hostWait] s (execReservationRegister tag s) := by
  unfold execReservationRegister
  repeat' first
    | with_reducible exact Within.refl _ _
    | with_reducible assumption
    | (show Part.sub _ _ = true; rfl)
    | with_reducible apply Lands.next
    | (extract_lets +onlyGivenNames x; with_reducible refine Lands.cut (u := x) ?_ ?_; rotate_left; intro hx; clear_value x; rename' x => y; rotate_right; unfold x; clear x)
    | (extract_lets +onlyGivenNames x; with_reducible refine Within.cut (u := x) ?_ ?_; rotate_left; intro hx; clear_value x; rename' x => y; rotate_right; unfold x; clear x)
    | (extract_lets +onlyGivenNames x; clear_value x; rename' x => z)
    | (extract_lets +onlyGivenNames x; rename' x => z)
    | dsimp -zeta only
    | with_reducible apply State.finish_frame
    | with_reducible apply State.begin_frame
    | with_reducible apply State.queueResv_frame
    | intro _
    | with_reducible apply Lands.ite
    | with_reducible apply Within.ite
    | fail_if_no_progress (with_reducible refine Within.put (a := []) ?_ rfl rfl rfl rfl rfl)
    | split

theorem execReservationReport_frame tag s : Lands [.cmd, .out] s (execReservationReport tag s) := by
  unfold execReservationReport
  repeat' first
    | with_reducible exact Within.refl _ _
    | with_reducible assumption
    | (show Part.sub _ _ = true; rfl)
    | with_reducible apply Lands.next
    | (extract_lets +onlyGivenNames x; with_reducible refine Lands.cut (u := x) ?_ ?_; rotate_left; intro hx; clear_value x; rename' x => y; rotate_right; unfold x; clear x)
    | (extract_lets +onlyGivenNames x; with_reducible refine Within.cut (u := x) ?_ ?_; rotate_left; intro hx; clear_value x; rename' x => y; rotate_right; unfold x; clear x)
    | (extract_lets +onlyGivenNames x; clear_value x; rename' x => z)
    | (extract_lets +onlyGivenNames x; rename' x => z)
    | dsimp -zeta only
    | with_reducible apply State.begin_frame
    | with_reducible apply State.answerData_frame
    | intro _
    | with_reducible apply Lands.ite
    | with_reducible apply Within.ite
    | split

theorem execReservationAcquire_frame tag s : Lands [.block 4, .block 6, .block 10, .block 12, .block 13, .block 19, .block 20, .evt, .nor, .host, .cmd, .ddp, .keys, .wc, .sig, .lfl, .map, .prg, .chan, .store, .out, .hostWait] s (execReservationAcquire tag s) := by
  unfold execReservationAcquire
  repeat' first
    | with_reducible exact Within.refl _ _
    | with_reducible assumption
    | (show Part.sub _ _ = true; rfl)
    | with_reducible apply Lands.next
    | (extract_lets +onlyGivenNames x; with_reducible refine Lands.cut (u := x) ?_ ?_; rotate_left; intro hx; clear_value x; rename' x => y; rotate_right; unfold x; clear x)
    | (extract_lets +onlyGivenNames x; with_reducible refine Within.cut (u := x) ?_ ?_; rotate_left; intro hx; clear_value x; rename' x => y; rotate_right; unfold x; clear x)
    | (extract_lets +onlyGivenNames x; clear_value x; rename' x => z)
    | (extract_lets +onlyGivenNames x; rename' x => z)
    | dsimp -zeta only
    | with_reducible apply State.finish_frame
    | with_reducible apply State.begin_frame
    | with_reducible apply State.abortTag_frame
    | with_reducible apply State.tellHosts_frame
    | with_reducible apply State.queueResv_frame
    | intro _
    | with_reducible apply Lands.ite
    | with_reducible apply Within.ite
    | (with_reducible refine Within.foldl _ ?_ ?_; rotate_left; intro _ _)
    | (with_reducible refine Within.foldl_snd _ ?_ ?_; rotate_left; intro _ _)
    | fail_if_no_progress (with_reducible refine Within.put (a := []) ?_ rfl rfl rfl rfl rfl)
    | split

theorem execReservationRelease_frame tag s : Lands [.block 4, .block 6, .block 12, .block 13, .block 19, .block 20, .evt, .nor, .host, .cmd, .ddp, .keys, .wc, .sig, .lfl, .map, .prg, .chan, .store, .out, .hostWait] s (execReservationRelease tag s) := by
  unfold execReservationRelease
  repeat' first
    | with_reducible exact Within.refl _ _
    | with_reducible assumption
    | (show Part.sub _ _ = true; rfl)
    | with_reducible apply Lands.next
    | (extract_lets +onlyGivenNames x; with_reducible refine Lands.cut (u := x) ?_ ?_; rotate_left; intro hx; clear_value x; rename' x => y; rotate_right; unfold x; clear x)
    | (extract_lets +onlyGivenNames x; with_reducible refine Within.cut (u := x) ?_ ?_; rotate_left; intro hx; clear_value x; rename' x => y; rotate_right; unfold x; clear x)
    | (extract_lets +onlyGivenNames x; clear_value x; rename' x => z)
    | (extract_lets +onlyGivenNames x; rename' x => z)
    | dsimp -zeta only
    | with_reducible apply State.finish_frame
    | with_reducible apply State.begin_frame
    | with_reducible apply State.tellHosts_frame
    | with_reducible apply State.queueResv_frame
    | intro _
    | with_reducible apply Lands.ite
    | with_reducible apply Within.ite
    | split

end Sys2Proof.Machine
end

