-- ==== Sys2Proof/Laws/FrameOwnCore.lean ====
section
/-!
SUPPORT. Laws/FrameOwnCore.lean: what the definitions of Machine/OwnCore.lean leave alone: each changes the listed parts at most, and keeps the
canonical form.
-/
namespace Sys2Proof.Machine
open Sys2Proof

set_option Elab.async false
set_option linter.all false

theorem State.setWitness_frame {ps s t} ls (h : Within ps s t) (hp : Part.sub [.block 17] ps = true) : Within ps s (State.setWitness t ls) := by
  refine h.step (a := [.block 17]) ?_ hp
  unfold State.setWitness
  repeat' first
    | with_reducible exact Within.refl _ _
    | with_reducible assumption
    | (show Part.sub _ _ = true; rfl)
    | dsimp -zeta only
    | with_reducible apply State.wr_frame
    | with_reducible apply Within.ite
    | (with_reducible refine Within.foldl _ ?_ ?_; rotate_left; intro _ _)
    | (with_reducible refine Within.foldl_snd _ ?_ ?_; rotate_left; intro _ _)
    | fail_if_no_progress (with_reducible refine Within.put (a := []) ?_ rfl rfl rfl rfl rfl)
    | split

theorem State.chooseWitness_frame {ps s t}  (h : Within ps s t) (hp : Part.sub [.block 4, .block 6, .block 17, .evt, .nor, .host, .out, .hostWait] ps = true) : Within ps s (State.chooseWitness t) := by
  refine h.step (a := [.block 4, .block 6, .block 17, .evt, .nor, .host, .out, .hostWait]) ?_ hp
  unfold State.chooseWitness
  repeat' first
    | with_reducible exact Within.refl _ _
    | with_reducible assumption
    | (show Part.sub _ _ = true; rfl)
    | (extract_lets +onlyGivenNames x; with_reducible refine Within.cut (u := x) ?_ ?_; rotate_left; intro hx; clear_value x; rename' x => y; rotate_right; unfold x; clear x)
    | (extract_lets +onlyGivenNames x; clear_value x; rename' x => z)
    | (extract_lets +onlyGivenNames x; rename' x => z)
    | dsimp -zeta only
    | with_reducible apply State.event1_frame
    | with_reducible apply State.setWitness_frame
    | with_reducible apply Within.ite
    | fail_if_no_progress (with_reducible refine Within.put (a := []) ?_ rfl rfl rfl rfl rfl)
    | split

theorem State.setGroup_frame {ps s t} g x (h : Within ps s t) (hp : Part.sub [.block 17, .own] ps = true) : Within ps s (State.setGroup t g x) := by
  refine h.step (a := [.block 17, .own]) ?_ hp
  unfold State.setGroup
  repeat' first
    | with_reducible exact Within.refl _ _
    | with_reducible assumption
    | (show Part.sub _ _ = true; rfl)
    | dsimp -zeta only
    | with_reducible apply State.wr_frame
    | with_reducible apply Within.ite
    | fail_if_no_progress (with_reducible refine Within.put (a := [.own]) ?_ rfl rfl rfl rfl rfl)
    | split

theorem State.setPeer_frame {ps s t} v (h : Within ps s t) (hp : Part.sub [.block 17] ps = true) : Within ps s (State.setPeer t v) := by
  refine h.step (a := [.block 17]) ?_ hp
  unfold State.setPeer
  repeat' first
    | with_reducible exact Within.refl _ _
    | with_reducible assumption
    | (show Part.sub _ _ = true; rfl)
    | dsimp -zeta only
    | with_reducible apply State.wr_frame
    | with_reducible apply Within.ite
    | split

theorem State.mapLocs_frame {ps s t} f (h : Within ps s t) (hp : Part.sub [.cmd, .ddp, .keys, .wc, .sig, .map] ps = true) : Within ps s (State.mapLocs t f) := by
  refine h.step (a := [.cmd, .ddp, .keys, .wc, .sig, .map]) ?_ hp
  unfold State.mapLocs
  repeat' first
    | with_reducible exact Within.refl _ _
    | with_reducible assumption
    | (show Part.sub _ _ = true; rfl)
    | (extract_lets +onlyGivenNames x; with_reducible refine Within.cut (u := x) ?_ ?_; rotate_left; intro hx; clear_value x; rename' x => y; rotate_right; unfold x; clear x)
    | (extract_lets +onlyGivenNames x; clear_value x; rename' x => z)
    | (extract_lets +onlyGivenNames x; rename' x => z)
    | dsimp -zeta only
    | with_reducible apply Within.ite
    | fail_if_no_progress (with_reducible refine Within.put (a := [.cmd, .ddp, .keys, .wc, .sig, .map]) ?_ rfl rfl rfl rfl rfl)
    | split

theorem State.resendSeg_frame {ps s t} n (h : Within ps s t) (hp : Part.sub [.block 13, .block 20, .wc, .sig, .map, .chan, .store, .out] ps = true) : Within ps s (State.resendSeg t n) := by
  refine h.step (a := [.block 13, .block 20, .wc, .sig, .map, .chan, .store, .out]) ?_ hp
  unfold State.resendSeg
  repeat' first
    | with_reducible exact Within.refl _ _
    | with_reducible assumption
    | (show Part.sub _ _ = true; rfl)
    | (extract_lets +onlyGivenNames x; with_reducible refine Within.cut (u := x) ?_ ?_; rotate_left; intro hx; clear_value x; rename' x => y; rotate_right; unfold x; clear x)
    | (extract_lets +onlyGivenNames x; clear_value x; rename' x => z)
    | (extract_lets +onlyGivenNames x; rename' x => z)
    | dsimp -zeta only
    | with_reducible apply State.setOwn_frame
    | with_reducible apply State.mirrorRecord_frame
    | with_reducible apply Within.ite
    | (with_reducible refine Within.foldl _ ?_ ?_; rotate_left; intro _ _)
    | (with_reducible refine Within.foldl_snd _ ?_ ?_; rotate_left; intro _ _)
    | fail_if_no_progress (with_reducible refine Within.put (a := []) ?_ rfl rfl rfl rfl rfl)
    | split
    | (with_reducible refine Within.of_pair (by assumption) ?_)

theorem State.waitAgain_frame {ps s t}  (h : Within ps s t) (hp : Part.sub [.cmd] ps = true) : Within ps s (State.waitAgain t) := by
  refine h.step (a := [.cmd]) ?_ hp
  unfold State.waitAgain
  repeat' first
    | with_reducible exact Within.refl _ _
    | with_reducible assumption
    | (show Part.sub _ _ = true; rfl)
    | (extract_lets +onlyGivenNames x; with_reducible refine Within.cut (u := x) ?_ ?_; rotate_left; intro hx; clear_value x; rename' x => y; rotate_right; unfold x; clear x)
    | (extract_lets +onlyGivenNames x; clear_value x; rename' x => z)
    | (extract_lets +onlyGivenNames x; rename' x => z)
    | dsimp -zeta only
    | with_reducible apply Within.ite
    | fail_if_no_progress (with_reducible refine Within.put (a := [.cmd]) ?_ rfl rfl rfl rfl rfl)
    | split

theorem State.sendSerials_frame {ps s t}  (h : Within ps s t) (hp : Part.sub [.chan, .out] ps = true) : Within ps s (State.sendSerials t) := by
  refine h.step (a := [.chan, .out]) ?_ hp
  unfold State.sendSerials
  repeat' first
    | with_reducible exact Within.refl _ _
    | with_reducible assumption
    | (show Part.sub _ _ = true; rfl)
    | dsimp -zeta only
    | with_reducible apply State.sendRing_frame
    | with_reducible apply Within.ite
    | fail_if_no_progress (with_reducible refine Within.put (a := []) ?_ rfl rfl rfl rfl rfl)
    | split

theorem State.sendTables_frame {ps s t}  (h : Within ps s t) (hp : Part.sub [.chan, .out] ps = true) : Within ps s (State.sendTables t) := by
  refine h.step (a := [.chan, .out]) ?_ hp
  unfold State.sendTables
  repeat' first
    | with_reducible exact Within.refl _ _
    | with_reducible assumption
    | (show Part.sub _ _ = true; rfl)
    | (extract_lets +onlyGivenNames x; with_reducible refine Within.cut (u := x) ?_ ?_; rotate_left; intro hx; clear_value x; rename' x => y; rotate_right; unfold x; clear x)
    | (extract_lets +onlyGivenNames x; clear_value x; rename' x => z)
    | (extract_lets +onlyGivenNames x; rename' x => z)
    | dsimp -zeta only
    | with_reducible apply State.sendRing_frame
    | with_reducible apply State.sendSerials_frame
    | with_reducible apply Within.ite
    | split

theorem State.endResync_frame {ps s t}  (h : Within ps s t) (hp : Part.sub [.block 4, .block 6, .block 20, .evt, .nor, .host, .wc, .out, .hostWait] ps = true) : Within ps s (State.endResync t) := by
  refine h.step (a := [.block 4, .block 6, .block 20, .evt, .nor, .host, .wc, .out, .hostWait]) ?_ hp
  unfold State.endResync
  repeat' first
    | with_reducible exact Within.refl _ _
    | with_reducible assumption
    | (show Part.sub _ _ = true; rfl)
    | dsimp -zeta only
    | with_reducible apply State.event_frame
    | with_reducible apply State.setMode_frame
    | with_reducible apply Within.ite
    | split

theorem State.startEpoch_frame {ps s t} epoch (h : Within ps s t) (hp : Part.sub [.block 4, .block 6, .block 13, .block 17, .block 20, .evt, .nor, .host, .cmd, .ddp, .keys, .wc, .sig, .map, .chan, .own, .store, .out, .hostWait] ps = true) : Within ps s (State.startEpoch t epoch) := by
  refine h.step (a := [.block 4, .block 6, .block 13, .block 17, .block 20, .evt, .nor, .host, .cmd, .ddp, .keys, .wc, .sig, .map, .chan, .own, .store, .out, .hostWait]) ?_ hp
  unfold State.startEpoch
  repeat' first
    | with_reducible exact Within.refl _ _
    | with_reducible assumption
    | (show Part.sub _ _ = true; rfl)
    | (extract_lets +onlyGivenNames x; with_reducible refine Within.cut (u := x) ?_ ?_; rotate_left; intro hx; clear_value x; rename' x => y; rotate_right; unfold x; clear x)
    | (extract_lets +onlyGivenNames x; clear_value x; rename' x => z)
    | (extract_lets +onlyGivenNames x; rename' x => z)
    | dsimp -zeta only
    | with_reducible apply State.wr_frame
    | with_reducible apply State.noteDirty_frame
    | with_reducible apply State.noteMirror_frame
    | with_reducible apply State.setMode_frame
    | with_reducible apply State.emptySeg_frame
    | with_reducible apply State.setPeer_frame
    | with_reducible apply State.mapLocs_frame
    | with_reducible apply State.resendSeg_frame
    | with_reducible apply State.waitAgain_frame
    | with_reducible apply State.sendTables_frame
    | with_reducible apply State.endResync_frame
    | with_reducible apply Within.ite
    | (with_reducible refine Within.foldl _ ?_ ?_; rotate_left; intro _ _)
    | (with_reducible refine Within.foldl_snd _ ?_ ?_; rotate_left; intro _ _)
    | fail_if_no_progress (with_reducible refine Within.put (a := [.wc, .own]) ?_ rfl rfl rfl rfl rfl)
    | split

theorem State.proposeEpoch_frame {ps s t}  (h : Within ps s t) (hp : Part.sub [.block 4, .block 6, .block 17, .evt, .nor, .host, .chan, .own, .out, .hostWait] ps = true) : Within ps s (State.proposeEpoch t) := by
  refine h.step (a := [.block 4, .block 6, .block 17, .evt, .nor, .host, .chan, .own, .out, .hostWait]) ?_ hp
  unfold State.proposeEpoch
  repeat' first
    | with_reducible exact Within.refl _ _
    | with_reducible assumption
    | (show Part.sub _ _ = true; rfl)
    | (extract_lets +onlyGivenNames x; with_reducible refine Within.cut (u := x) ?_ ?_; rotate_left; intro hx; clear_value x; rename' x => y; rotate_right; unfold x; clear x)
    | (extract_lets +onlyGivenNames x; clear_value x; rename' x => z)
    | (extract_lets +onlyGivenNames x; rename' x => z)
    | dsimp -zeta only
    | with_reducible apply State.sendRing_frame
    | with_reducible apply State.chooseWitness_frame
    | with_reducible apply Within.ite
    | fail_if_no_progress (with_reducible refine Within.put (a := [.own]) ?_ rfl rfl rfl rfl rfl)
    | split

theorem State.enterSuspect_frame {ps s t}  (h : Within ps s t) (hp : Part.sub [.block 4, .block 6, .block 20, .evt, .nor, .host, .wc, .out, .hostWait] ps = true) : Within ps s (State.enterSuspect t) := by
  refine h.step (a := [.block 4, .block 6, .block 20, .evt, .nor, .host, .wc, .out, .hostWait]) ?_ hp
  unfold State.enterSuspect
  repeat' first
    | with_reducible exact Within.refl _ _
    | with_reducible assumption
    | (show Part.sub _ _ = true; rfl)
    | dsimp -zeta only
    | with_reducible apply State.setMode_frame
    | with_reducible apply Within.ite
    | fail_if_no_progress (with_reducible refine Within.put (a := [.wc]) ?_ rfl rfl rfl rfl rfl)
    | split

end Sys2Proof.Machine
end

