-- ==== Sys2Proof/Laws/FrameSigCore.lean ====
section
/-!
SUPPORT. Laws/FrameSigCore.lean: what the definitions of Machine/SigCore.lean leave alone: each changes the listed parts at most, and keeps the
canonical form.
-/
namespace Sys2Proof.Machine
open Sys2Proof

set_option Elab.async false
set_option linter.all false

theorem State.notePool_frame {ps s t} p (h : Within ps s t) (hp : Part.sub [.block 4, .block 6, .block 14, .evt, .nor, .host, .cmd, .out, .hostWait] ps = true) : Within ps s (State.notePool t p) := by
  refine h.step (a := [.block 4, .block 6, .block 14, .evt, .nor, .host, .cmd, .out, .hostWait]) ?_ hp
  unfold State.notePool
  repeat' first
    | with_reducible exact Within.refl _ _
    | with_reducible assumption
    | (show Part.sub _ _ = true; rfl)
    | (extract_lets +onlyGivenNames x; with_reducible refine Within.cut (u := x) ?_ ?_; rotate_left; intro hx; clear_value x; rename' x => y; rotate_right; unfold x; clear x)
    | (extract_lets +onlyGivenNames x; clear_value x; rename' x => z)
    | (extract_lets +onlyGivenNames x; rename' x => z)
    | dsimp -zeta only
    | with_reducible apply State.wr_frame
    | with_reducible apply State.event1_frame
    | with_reducible apply State.anaChange_frame
    | with_reducible apply Within.ite
    | split

theorem State.noteLeaf_frame {ps s t} l (h : Within ps s t) (hp : Part.sub [.block 4, .block 6, .block 14, .evt, .nor, .host, .cmd, .out, .hostWait] ps = true) : Within ps s (State.noteLeaf t l) := by
  refine h.step (a := [.block 4, .block 6, .block 14, .evt, .nor, .host, .cmd, .out, .hostWait]) ?_ hp
  unfold State.noteLeaf
  repeat' first
    | with_reducible exact Within.refl _ _
    | with_reducible assumption
    | (show Part.sub _ _ = true; rfl)
    | dsimp -zeta only
    | with_reducible apply State.notePool_frame
    | with_reducible apply Within.ite
    | fail_if_no_progress (with_reducible refine Within.put (a := []) ?_ rfl rfl rfl rfl rfl)
    | split

theorem State.noteLog_frame {ps s t}  (h : Within ps s t) (hp : Part.sub [.block 13, .block 14, .block 20, .sig, .map, .store] ps = true) : Within ps s (State.noteLog t) := by
  refine h.step (a := [.block 13, .block 14, .block 20, .sig, .map, .store]) ?_ hp
  unfold State.noteLog
  repeat' first
    | with_reducible exact Within.refl _ _
    | with_reducible assumption
    | (show Part.sub _ _ = true; rfl)
    | (extract_lets +onlyGivenNames x; with_reducible refine Within.cut (u := x) ?_ ?_; rotate_left; intro hx; clear_value x; rename' x => y; rotate_right; unfold x; clear x)
    | (extract_lets +onlyGivenNames x; clear_value x; rename' x => z)
    | (extract_lets +onlyGivenNames x; rename' x => z)
    | dsimp -zeta only
    | with_reducible apply State.wr_frame
    | with_reducible apply State.noteMeta_frame
    | with_reducible apply Within.ite
    | fail_if_no_progress (with_reducible refine Within.put (a := []) ?_ rfl rfl rfl rfl rfl)
    | split

theorem State.startLog_frame {ps s t}  (h : Within ps s t) (hp : Part.sub [.block 13, .block 14, .block 20, .sig, .map, .store] ps = true) : Within ps s (State.startLog t) := by
  refine h.step (a := [.block 13, .block 14, .block 20, .sig, .map, .store]) ?_ hp
  unfold State.startLog
  repeat' first
    | with_reducible exact Within.refl _ _
    | with_reducible assumption
    | (show Part.sub _ _ = true; rfl)
    | (extract_lets +onlyGivenNames x; with_reducible refine Within.cut (u := x) ?_ ?_; rotate_left; intro hx; clear_value x; rename' x => y; rotate_right; unfold x; clear x)
    | (extract_lets +onlyGivenNames x; clear_value x; rename' x => z)
    | (extract_lets +onlyGivenNames x; rename' x => z)
    | dsimp -zeta only
    | with_reducible apply State.noteLog_frame
    | with_reducible apply Within.ite
    | (with_reducible refine Within.foldl _ ?_ ?_; rotate_left; intro _ _)
    | (with_reducible refine Within.foldl_snd _ ?_ ?_; rotate_left; intro _ _)
    | fail_if_no_progress (with_reducible refine Within.put (a := [.sig]) ?_ rfl rfl rfl rfl rfl)
    | split

theorem State.appendPage_frame {ps s t} copy number es (h : Within ps s t) (hp : Part.sub [.sig, .lfl, .out] ps = true) : Within ps s (State.appendPage t copy number es) := by
  refine h.step (a := [.sig, .lfl, .out]) ?_ hp
  unfold State.appendPage
  repeat' first
    | with_reducible exact Within.refl _ _
    | with_reducible assumption
    | (show Part.sub _ _ = true; rfl)
    | (extract_lets +onlyGivenNames x; with_reducible refine Within.cut (u := x) ?_ ?_; rotate_left; intro hx; clear_value x; rename' x => y; rotate_right; unfold x; clear x)
    | (extract_lets +onlyGivenNames x; clear_value x; rename' x => z)
    | (extract_lets +onlyGivenNames x; rename' x => z)
    | dsimp -zeta only
    | with_reducible apply State.putLeaf_frame
    | with_reducible apply State.leafOp_frame
    | with_reducible apply Within.ite
    | (with_reducible refine Within.foldl _ ?_ ?_; rotate_left; intro _ _)
    | (with_reducible refine Within.foldl_snd _ ?_ ?_; rotate_left; intro _ _)
    | fail_if_no_progress (with_reducible refine Within.put (a := [.sig]) ?_ rfl rfl rfl rfl rfl)
    | split

theorem State.sendPage_frame {ps s t}  (h : Within ps s t) (hp : Part.sub [.sig, .lfl, .out] ps = true) : Within ps s (State.sendPage t) := by
  refine h.step (a := [.sig, .lfl, .out]) ?_ hp
  unfold State.sendPage
  repeat' first
    | with_reducible exact Within.refl _ _
    | with_reducible assumption
    | (show Part.sub _ _ = true; rfl)
    | (extract_lets +onlyGivenNames x; with_reducible refine Within.cut (u := x) ?_ ?_; rotate_left; intro hx; clear_value x; rename' x => y; rotate_right; unfold x; clear x)
    | (extract_lets +onlyGivenNames x; clear_value x; rename' x => z)
    | (extract_lets +onlyGivenNames x; rename' x => z)
    | dsimp -zeta only
    | with_reducible apply State.appendPage_frame
    | with_reducible apply Within.ite
    | (with_reducible refine Within.foldl _ ?_ ?_; rotate_left; intro _ _)
    | (with_reducible refine Within.foldl_snd _ ?_ ?_; rotate_left; intro _ _)
    | fail_if_no_progress (with_reducible refine Within.put (a := [.sig]) ?_ rfl rfl rfl rfl rfl)
    | split

theorem State.appendLog_frame {ps s t} pool width parity quire sig body (h : Within ps s t) (hp : Part.sub [.block 13, .block 14, .block 20, .sig, .lfl, .map, .store, .out] ps = true) : Within ps s (State.appendLog t pool width parity quire sig body).2 := by
  refine h.step (a := [.block 13, .block 14, .block 20, .sig, .lfl, .map, .store, .out]) ?_ hp
  unfold State.appendLog
  repeat' first
    | with_reducible exact Within.refl _ _
    | with_reducible assumption
    | (show Part.sub _ _ = true; rfl)
    | (extract_lets +onlyGivenNames x; with_reducible refine Within.cut (u := x) ?_ ?_; rotate_left; intro hx; clear_value x; rename' x => y; rotate_right; unfold x; clear x)
    | (extract_lets +onlyGivenNames x; clear_value x; rename' x => z)
    | (extract_lets +onlyGivenNames x; rename' x => z)
    | dsimp -zeta only
    | with_reducible apply State.noteLog_frame
    | with_reducible apply State.startLog_frame
    | with_reducible apply State.sendPage_frame
    | with_reducible apply Within.ite
    | fail_if_no_progress (with_reducible refine Within.put (a := [.sig]) ?_ rfl rfl rfl rfl rfl)
    | split

theorem State.modSig_frame {ps s t} quire sig f (h : Within ps s t) (hp : Part.sub [.sig] ps = true) : Within ps s (State.modSig t quire sig f) := by
  refine h.step (a := [.sig]) ?_ hp
  unfold State.modSig
  repeat' first
    | with_reducible exact Within.refl _ _
    | with_reducible assumption
    | (show Part.sub _ _ = true; rfl)
    | dsimp -zeta only
    | with_reducible apply Within.ite
    | fail_if_no_progress (with_reducible refine Within.put (a := [.sig]) ?_ rfl rfl rfl rfl rfl)
    | split

theorem State.startDestage_frame {ps s t}  (h : Within ps s t) (hp : Part.sub [.block 13, .wc, .sig, .map] ps = true) : Within ps s (State.startDestage t) := by
  refine h.step (a := [.block 13, .wc, .sig, .map]) ?_ hp
  unfold State.startDestage
  repeat' first
    | with_reducible exact Within.refl _ _
    | with_reducible assumption
    | (show Part.sub _ _ = true; rfl)
    | (extract_lets +onlyGivenNames x; with_reducible refine Within.cut (u := x) ?_ ?_; rotate_left; intro hx; clear_value x; rename' x => y; rotate_right; unfold x; clear x)
    | (extract_lets +onlyGivenNames x; clear_value x; rename' x => z)
    | (extract_lets +onlyGivenNames x; rename' x => z)
    | dsimp -zeta only
    | with_reducible apply State.cleanPages_frame
    | with_reducible apply Within.ite
    | fail_if_no_progress (with_reducible refine Within.put (a := [.wc]) ?_ rfl rfl rfl rfl rfl)
    | split

theorem State.claimBlocks_frame {ps s t} p (h : Within ps s t) (hp : Part.sub [.lfl, .chan, .out] ps = true) : Within ps s (State.claimBlocks t p) := by
  refine h.step (a := [.lfl, .chan, .out]) ?_ hp
  unfold State.claimBlocks
  repeat' first
    | with_reducible exact Within.refl _ _
    | with_reducible assumption
    | (show Part.sub _ _ = true; rfl)
    | dsimp -zeta only
    | with_reducible apply State.sendRing_frame
    | with_reducible apply State.leafOp_frame
    | with_reducible apply Within.ite
    | (with_reducible refine Within.foldl _ ?_ ?_; rotate_left; intro _ _)
    | (with_reducible refine Within.foldl_snd _ ?_ ?_; rotate_left; intro _ _)
    | fail_if_no_progress (with_reducible refine Within.put (a := []) ?_ rfl rfl rfl rfl rfl)
    | split

theorem State.openQuire_frame {ps s t} p mayReserve (h : Within ps s t) (hp : Part.sub [.block 4, .block 6, .block 13, .block 14, .block 20, .evt, .nor, .host, .cmd, .sig, .lfl, .map, .chan, .store, .out, .hostWait] ps = true) : Within ps s (State.openQuire t p mayReserve).2 := by
  refine h.step (a := [.block 4, .block 6, .block 13, .block 14, .block 20, .evt, .nor, .host, .cmd, .sig, .lfl, .map, .chan, .store, .out, .hostWait]) ?_ hp
  unfold State.openQuire
  repeat' first
    | with_reducible exact Within.refl _ _
    | with_reducible assumption
    | (show Part.sub _ _ = true; rfl)
    | (extract_lets +onlyGivenNames x; with_reducible refine Within.cut (u := x) ?_ ?_; rotate_left; intro hx; clear_value x; rename' x => y; rotate_right; unfold x; clear x)
    | (extract_lets +onlyGivenNames x; clear_value x; rename' x => z)
    | (extract_lets +onlyGivenNames x; rename' x => z)
    | dsimp -zeta only
    | with_reducible apply State.wr_frame
    | with_reducible apply State.event1_frame
    | with_reducible apply State.putLeaf_frame
    | with_reducible apply State.setQuire_frame
    | with_reducible apply State.notePool_frame
    | with_reducible apply State.appendLog_frame
    | with_reducible apply State.claimBlocks_frame
    | with_reducible apply Within.ite
    | (with_reducible refine Within.foldl _ ?_ ?_; rotate_left; intro _ _)
    | (with_reducible refine Within.foldl_snd _ ?_ ?_; rotate_left; intro _ _)
    | fail_if_no_progress (with_reducible refine Within.put (a := [.sig]) ?_ rfl rfl rfl rfl rfl)
    | split
    | (with_reducible refine Within.of_pair (by assumption) ?_)

theorem State.markBitmaps_frame {ps s t} n q (h : Within ps s t) (hp : Part.sub [.lfl] ps = true) : Within ps s (State.markBitmaps t n q) := by
  refine h.step (a := [.lfl]) ?_ hp
  unfold State.markBitmaps
  repeat' first
    | with_reducible exact Within.refl _ _
    | with_reducible assumption
    | (show Part.sub _ _ = true; rfl)
    | (extract_lets +onlyGivenNames x; with_reducible refine Within.cut (u := x) ?_ ?_; rotate_left; intro hx; clear_value x; rename' x => y; rotate_right; unfold x; clear x)
    | (extract_lets +onlyGivenNames x; clear_value x; rename' x => z)
    | (extract_lets +onlyGivenNames x; rename' x => z)
    | dsimp -zeta only
    | with_reducible apply State.putLeaf_frame
    | with_reducible apply Within.ite
    | (with_reducible refine Within.foldl _ ?_ ?_; rotate_left; intro _ _)
    | (with_reducible refine Within.foldl_snd _ ?_ ?_; rotate_left; intro _ _)
    | fail_if_no_progress (with_reducible refine Within.put (a := []) ?_ rfl rfl rfl rfl rfl)
    | split

theorem State.closeQuire_frame {ps s t} n (h : Within ps s t) (hp : Part.sub [.block 13, .block 14, .block 20, .sig, .lfl, .map, .store, .out] ps = true) : Within ps s (State.closeQuire t n) := by
  refine h.step (a := [.block 13, .block 14, .block 20, .sig, .lfl, .map, .store, .out]) ?_ hp
  unfold State.closeQuire
  repeat' first
    | with_reducible exact Within.refl _ _
    | with_reducible assumption
    | (show Part.sub _ _ = true; rfl)
    | (extract_lets +onlyGivenNames x; with_reducible refine Within.cut (u := x) ?_ ?_; rotate_left; intro hx; clear_value x; rename' x => y; rotate_right; unfold x; clear x)
    | (extract_lets +onlyGivenNames x; clear_value x; rename' x => z)
    | (extract_lets +onlyGivenNames x; rename' x => z)
    | dsimp -zeta only
    | with_reducible apply State.setQuire_frame
    | with_reducible apply State.appendLog_frame
    | with_reducible apply State.markBitmaps_frame
    | with_reducible apply Within.ite
    | fail_if_no_progress (with_reducible refine Within.put (a := []) ?_ rfl rfl rfl rfl rfl)
    | split
    | (with_reducible refine Within.of_pair (by assumption) ?_)

theorem State.collect_frame {ps s t} n (h : Within ps s t) (hp : Part.sub [.cmd, .sig] ps = true) : Within ps s (State.collect t n) := by
  refine h.step (a := [.cmd, .sig]) ?_ hp
  unfold State.collect
  repeat' first
    | with_reducible exact Within.refl _ _
    | with_reducible assumption
    | (show Part.sub _ _ = true; rfl)
    | (extract_lets +onlyGivenNames x; with_reducible refine Within.cut (u := x) ?_ ?_; rotate_left; intro hx; clear_value x; rename' x => y; rotate_right; unfold x; clear x)
    | (extract_lets +onlyGivenNames x; clear_value x; rename' x => z)
    | (extract_lets +onlyGivenNames x; rename' x => z)
    | dsimp -zeta only
    | with_reducible apply State.askFetch_frame
    | with_reducible apply State.setQuire_frame
    | with_reducible apply Within.ite
    | (with_reducible refine Within.foldl _ ?_ ?_; rotate_left; intro _ _)
    | (with_reducible refine Within.foldl_snd _ ?_ ?_; rotate_left; intro _ _)
    | fail_if_no_progress (with_reducible refine Within.put (a := []) ?_ rfl rfl rfl rfl rfl)
    | split

theorem State.settleQuires_frame {ps s t}  (h : Within ps s t) (hp : Part.sub [.sig] ps = true) : Within ps s (State.settleQuires t) := by
  refine h.step (a := [.sig]) ?_ hp
  unfold State.settleQuires
  repeat' first
    | with_reducible exact Within.refl _ _
    | with_reducible assumption
    | (show Part.sub _ _ = true; rfl)
    | (extract_lets +onlyGivenNames x; with_reducible refine Within.cut (u := x) ?_ ?_; rotate_left; intro hx; clear_value x; rename' x => y; rotate_right; unfold x; clear x)
    | (extract_lets +onlyGivenNames x; clear_value x; rename' x => z)
    | (extract_lets +onlyGivenNames x; rename' x => z)
    | dsimp -zeta only
    | with_reducible apply Within.ite
    | fail_if_no_progress (with_reducible refine Within.put (a := [.sig]) ?_ rfl rfl rfl rfl rfl)
    | split

theorem State.queueQuire_frame {ps s t} n why (h : Within ps s t) (hp : Part.sub [.sig] ps = true) : Within ps s (State.queueQuire t n why) := by
  refine h.step (a := [.sig]) ?_ hp
  unfold State.queueQuire
  repeat' first
    | with_reducible exact Within.refl _ _
    | with_reducible assumption
    | (show Part.sub _ _ = true; rfl)
    | (extract_lets +onlyGivenNames x; with_reducible refine Within.cut (u := x) ?_ ?_; rotate_left; intro hx; clear_value x; rename' x => y; rotate_right; unfold x; clear x)
    | (extract_lets +onlyGivenNames x; clear_value x; rename' x => z)
    | (extract_lets +onlyGivenNames x; rename' x => z)
    | dsimp -zeta only
    | with_reducible apply State.setQuire_frame
    | with_reducible apply Within.ite
    | fail_if_no_progress (with_reducible refine Within.put (a := []) ?_ rfl rfl rfl rfl rfl)
    | split

theorem State.noteRebuild_frame {ps s t}  (h : Within ps s t) (hp : Part.sub [.block 14] ps = true) : Within ps s (State.noteRebuild t) := by
  refine h.step (a := [.block 14]) ?_ hp
  unfold State.noteRebuild
  repeat' first
    | with_reducible exact Within.refl _ _
    | with_reducible assumption
    | (show Part.sub _ _ = true; rfl)
    | (extract_lets +onlyGivenNames x; with_reducible refine Within.cut (u := x) ?_ ?_; rotate_left; intro hx; clear_value x; rename' x => y; rotate_right; unfold x; clear x)
    | (extract_lets +onlyGivenNames x; clear_value x; rename' x => z)
    | (extract_lets +onlyGivenNames x; rename' x => z)
    | dsimp -zeta only
    | with_reducible apply State.wr_frame
    | with_reducible apply Within.ite
    | fail_if_no_progress (with_reducible refine Within.put (a := []) ?_ rfl rfl rfl rfl rfl)
    | split

theorem State.voidSig_frame {ps s t} x (h : Within ps s t) (hp : Part.sub [.block 4, .block 6, .block 13, .block 14, .block 20, .evt, .nor, .host, .sig, .lfl, .map, .store, .out, .hostWait] ps = true) : Within ps s (State.voidSig t x) := by
  refine h.step (a := [.block 4, .block 6, .block 13, .block 14, .block 20, .evt, .nor, .host, .sig, .lfl, .map, .store, .out, .hostWait]) ?_ hp
  unfold State.voidSig
  repeat' first
    | with_reducible exact Within.refl _ _
    | with_reducible assumption
    | (show Part.sub _ _ = true; rfl)
    | (extract_lets +onlyGivenNames x; with_reducible refine Within.cut (u := x) ?_ ?_; rotate_left; intro hx; clear_value x; rename' x => y; rotate_right; unfold x; clear x)
    | (extract_lets +onlyGivenNames x; clear_value x; rename' x => z)
    | (extract_lets +onlyGivenNames x; rename' x => z)
    | dsimp -zeta only
    | with_reducible apply State.bump_frame
    | with_reducible apply State.event_frame
    | with_reducible apply State.appendLog_frame
    | with_reducible apply State.markBitmaps_frame
    | with_reducible apply Within.ite
    | fail_if_no_progress (with_reducible refine Within.put (a := [.sig]) ?_ rfl rfl rfl rfl rfl)
    | split
    | (with_reducible refine Within.of_pair (by assumption) ?_)

theorem State.folioFailed_frame {ps s t} quire sig member nand (h : Within ps s t) (hp : Part.sub [.block 4, .block 6, .block 13, .block 14, .block 20, .evt, .nor, .host, .sig, .lfl, .map, .store, .out, .hostWait] ps = true) : Within ps s (State.folioFailed t quire sig member nand) := by
  refine h.step (a := [.block 4, .block 6, .block 13, .block 14, .block 20, .evt, .nor, .host, .sig, .lfl, .map, .store, .out, .hostWait]) ?_ hp
  unfold State.folioFailed
  repeat' first
    | with_reducible exact Within.refl _ _
    | with_reducible assumption
    | (show Part.sub _ _ = true; rfl)
    | (extract_lets +onlyGivenNames x; with_reducible refine Within.cut (u := x) ?_ ?_; rotate_left; intro hx; clear_value x; rename' x => y; rotate_right; unfold x; clear x)
    | (extract_lets +onlyGivenNames x; clear_value x; rename' x => z)
    | (extract_lets +onlyGivenNames x; rename' x => z)
    | dsimp -zeta only
    | with_reducible apply State.putLeaf_frame
    | with_reducible apply State.closeQuire_frame
    | with_reducible apply State.voidSig_frame
    | with_reducible apply Within.ite
    | (with_reducible refine Within.foldl _ ?_ ?_; rotate_left; intro _ _)
    | (with_reducible refine Within.foldl_snd _ ?_ ?_; rotate_left; intro _ _)
    | fail_if_no_progress (with_reducible refine Within.put (a := []) ?_ rfl rfl rfl rfl rfl)
    | split

theorem State.issueSig_frame {ps s t} x (h : Within ps s t) (hp : Part.sub [.block 4, .block 6, .block 13, .block 14, .block 20, .evt, .nor, .host, .sig, .lfl, .map, .store, .out, .hostWait] ps = true) : Within ps s (State.issueSig t x) := by
  refine h.step (a := [.block 4, .block 6, .block 13, .block 14, .block 20, .evt, .nor, .host, .sig, .lfl, .map, .store, .out, .hostWait]) ?_ hp
  unfold State.issueSig
  repeat' first
    | with_reducible exact Within.refl _ _
    | with_reducible assumption
    | (show Part.sub _ _ = true; rfl)
    | (extract_lets +onlyGivenNames x; with_reducible refine Within.cut (u := x) ?_ ?_; rotate_left; intro hx; clear_value x; rename' x => y; rotate_right; unfold x; clear x)
    | (extract_lets +onlyGivenNames x; clear_value x; rename' x => z)
    | (extract_lets +onlyGivenNames x; rename' x => z)
    | dsimp -zeta only
    | with_reducible apply State.leafOp_frame
    | with_reducible apply State.folioFailed_frame
    | with_reducible apply Within.ite
    | (with_reducible refine Within.foldl _ ?_ ?_; rotate_left; intro _ _)
    | (with_reducible refine Within.foldl_snd _ ?_ ?_; rotate_left; intro _ _)
    | fail_if_no_progress (with_reducible refine Within.put (a := []) ?_ rfl rfl rfl rfl rfl)
    | split

theorem State.pageDurable_frame {ps s t} es (h : Within ps s t) (hp : Part.sub [.block 4, .block 6, .block 13, .block 14, .block 20, .evt, .nor, .host, .sig, .lfl, .map, .store, .out, .hostWait] ps = true) : Within ps s (State.pageDurable t es) := by
  refine h.step (a := [.block 4, .block 6, .block 13, .block 14, .block 20, .evt, .nor, .host, .sig, .lfl, .map, .store, .out, .hostWait]) ?_ hp
  unfold State.pageDurable
  repeat' first
    | with_reducible exact Within.refl _ _
    | with_reducible assumption
    | (show Part.sub _ _ = true; rfl)
    | dsimp -zeta only
    | with_reducible apply State.modSig_frame
    | with_reducible apply State.issueSig_frame
    | with_reducible apply Within.ite
    | (with_reducible refine Within.foldl _ ?_ ?_; rotate_left; intro _ _)
    | (with_reducible refine Within.foldl_snd _ ?_ ?_; rotate_left; intro _ _)
    | fail_if_no_progress (with_reducible refine Within.put (a := []) ?_ rfl rfl rfl rfl rfl)
    | split

theorem State.settlePages_frame {ps s t}  (h : Within ps s t) (hp : Part.sub [.block 4, .block 6, .block 13, .block 14, .block 20, .evt, .nor, .host, .sig, .lfl, .map, .store, .out, .hostWait] ps = true) : Within ps s (State.settlePages t) := by
  refine h.step (a := [.block 4, .block 6, .block 13, .block 14, .block 20, .evt, .nor, .host, .sig, .lfl, .map, .store, .out, .hostWait]) ?_ hp
  unfold State.settlePages
  repeat' first
    | with_reducible exact Within.refl _ _
    | with_reducible assumption
    | (show Part.sub _ _ = true; rfl)
    | (extract_lets +onlyGivenNames x; with_reducible refine Within.cut (u := x) ?_ ?_; rotate_left; intro hx; clear_value x; rename' x => y; rotate_right; unfold x; clear x)
    | (extract_lets +onlyGivenNames x; clear_value x; rename' x => z)
    | (extract_lets +onlyGivenNames x; rename' x => z)
    | dsimp -zeta only
    | with_reducible apply State.pageDurable_frame
    | with_reducible apply Within.ite
    | (with_reducible refine Within.foldl _ ?_ ?_; rotate_left; intro _ _)
    | (with_reducible refine Within.foldl_snd _ ?_ ?_; rotate_left; intro _ _)
    | fail_if_no_progress (with_reducible refine Within.put (a := [.sig]) ?_ rfl rfl rfl rfl rfl)
    | split

theorem State.readLog_frame {ps s t} l copy region first count (h : Within ps s t) (hp : Part.sub [.lfl, .out] ps = true) : Within ps s (State.readLog t l copy region first count) := by
  refine h.step (a := [.lfl, .out]) ?_ hp
  unfold State.readLog
  repeat' first
    | with_reducible exact Within.refl _ _
    | with_reducible assumption
    | (show Part.sub _ _ = true; rfl)
    | dsimp -zeta only
    | with_reducible apply State.leafOp_frame
    | with_reducible apply Within.ite
    | split

theorem State.startReseed_frame {ps s t} k (h : Within ps s t) (hp : Part.sub [.lfl, .out] ps = true) : Within ps s (State.startReseed t k) := by
  refine h.step (a := [.lfl, .out]) ?_ hp
  unfold State.startReseed
  repeat' first
    | with_reducible exact Within.refl _ _
    | with_reducible assumption
    | (show Part.sub _ _ = true; rfl)
    | dsimp -zeta only
    | with_reducible apply State.readLog_frame
    | with_reducible apply Within.ite
    | fail_if_no_progress (with_reducible refine Within.put (a := []) ?_ rfl rfl rfl rfl rfl)
    | split

theorem State.reseat_frame {ps s t} k (h : Within ps s t) (hp : Part.sub [.sig, .lfl, .out] ps = true) : Within ps s (State.reseat t k) := by
  refine h.step (a := [.sig, .lfl, .out]) ?_ hp
  unfold State.reseat
  repeat' first
    | with_reducible exact Within.refl _ _
    | with_reducible assumption
    | (show Part.sub _ _ = true; rfl)
    | (extract_lets +onlyGivenNames x; with_reducible refine Within.cut (u := x) ?_ ?_; rotate_left; intro hx; clear_value x; rename' x => y; rotate_right; unfold x; clear x)
    | (extract_lets +onlyGivenNames x; clear_value x; rename' x => z)
    | (extract_lets +onlyGivenNames x; rename' x => z)
    | dsimp -zeta only
    | with_reducible apply State.startReseed_frame
    | with_reducible apply Within.ite
    | fail_if_no_progress (with_reducible refine Within.put (a := [.sig]) ?_ rfl rfl rfl rfl rfl)
    | split

theorem State.reseatAll_frame {ps s t}  (h : Within ps s t) (hp : Part.sub [.block 13, .block 14, .block 20, .sig, .lfl, .map, .store, .out] ps = true) : Within ps s (State.reseatAll t) := by
  refine h.step (a := [.block 13, .block 14, .block 20, .sig, .lfl, .map, .store, .out]) ?_ hp
  unfold State.reseatAll
  repeat' first
    | with_reducible exact Within.refl _ _
    | with_reducible assumption
    | (show Part.sub _ _ = true; rfl)
    | dsimp -zeta only
    | with_reducible apply State.noteLog_frame
    | with_reducible apply State.reseat_frame
    | with_reducible apply Within.ite
    | (with_reducible refine Within.foldl _ ?_ ?_; rotate_left; intro _ _)
    | (with_reducible refine Within.foldl_snd _ ?_ ?_; rotate_left; intro _ _)
    | split

theorem State.unseat_frame {ps s t} k c (h : Within ps s t) (hp : Part.sub [.block 4, .block 6, .evt, .nor, .host, .sig, .out, .hostWait] ps = true) : Within ps s (State.unseat t k c) := by
  refine h.step (a := [.block 4, .block 6, .evt, .nor, .host, .sig, .out, .hostWait]) ?_ hp
  unfold State.unseat
  repeat' first
    | with_reducible exact Within.refl _ _
    | with_reducible assumption
    | (show Part.sub _ _ = true; rfl)
    | (extract_lets +onlyGivenNames x; with_reducible refine Within.cut (u := x) ?_ ?_; rotate_left; intro hx; clear_value x; rename' x => y; rotate_right; unfold x; clear x)
    | (extract_lets +onlyGivenNames x; clear_value x; rename' x => z)
    | (extract_lets +onlyGivenNames x; rename' x => z)
    | dsimp -zeta only
    | with_reducible apply State.event1_frame
    | with_reducible apply Within.ite
    | fail_if_no_progress (with_reducible refine Within.put (a := [.sig]) ?_ rfl rfl rfl rfl rfl)
    | split

theorem State.pauseAt_frame {ps s t} k was (h : Within ps s t) (hp : Part.sub [.block 4, .block 6, .evt, .nor, .host, .sig, .out, .hostWait] ps = true) : Within ps s (State.pauseAt t k was) := by
  refine h.step (a := [.block 4, .block 6, .evt, .nor, .host, .sig, .out, .hostWait]) ?_ hp
  unfold State.pauseAt
  repeat' first
    | with_reducible exact Within.refl _ _
    | with_reducible assumption
    | (show Part.sub _ _ = true; rfl)
    | dsimp -zeta only
    | with_reducible apply State.event1_frame
    | with_reducible apply Within.ite
    | fail_if_no_progress (with_reducible refine Within.put (a := [.sig]) ?_ rfl rfl rfl rfl rfl)
    | split

theorem State.loseCopy_frame {ps s t} k (h : Within ps s t) (hp : Part.sub [.block 4, .block 6, .block 13, .block 14, .block 20, .evt, .nor, .host, .sig, .lfl, .map, .store, .out, .hostWait] ps = true) : Within ps s (State.loseCopy t k) := by
  refine h.step (a := [.block 4, .block 6, .block 13, .block 14, .block 20, .evt, .nor, .host, .sig, .lfl, .map, .store, .out, .hostWait]) ?_ hp
  unfold State.loseCopy
  repeat' first
    | with_reducible exact Within.refl _ _
    | with_reducible assumption
    | (show Part.sub _ _ = true; rfl)
    | dsimp -zeta only
    | with_reducible apply State.noteLog_frame
    | with_reducible apply State.settlePages_frame
    | with_reducible apply State.reseat_frame
    | with_reducible apply State.unseat_frame
    | with_reducible apply State.pauseAt_frame
    | with_reducible apply Within.ite
    | fail_if_no_progress (with_reducible refine Within.put (a := []) ?_ rfl rfl rfl rfl rfl)
    | split

theorem State.loseCopiesOn_frame {ps s t} l (h : Within ps s t) (hp : Part.sub [.block 4, .block 6, .block 13, .block 14, .block 20, .evt, .nor, .host, .sig, .lfl, .map, .store, .out, .hostWait] ps = true) : Within ps s (State.loseCopiesOn t l) := by
  refine h.step (a := [.block 4, .block 6, .block 13, .block 14, .block 20, .evt, .nor, .host, .sig, .lfl, .map, .store, .out, .hostWait]) ?_ hp
  unfold State.loseCopiesOn
  repeat' first
    | with_reducible exact Within.refl _ _
    | with_reducible assumption
    | (show Part.sub _ _ = true; rfl)
    | dsimp -zeta only
    | with_reducible apply State.loseCopy_frame
    | with_reducible apply Within.ite
    | (with_reducible refine Within.foldl _ ?_ ?_; rotate_left; intro _ _)
    | (with_reducible refine Within.foldl_snd _ ?_ ?_; rotate_left; intro _ _)
    | split

theorem State.setRebuilding_frame {ps s t}  (h : Within ps s t) (hp : Part.sub [.sig] ps = true) : Within ps s (State.setRebuilding t) := by
  refine h.step (a := [.sig]) ?_ hp
  unfold State.setRebuilding
  repeat' first
    | with_reducible exact Within.refl _ _
    | with_reducible assumption
    | (show Part.sub _ _ = true; rfl)
    | dsimp -zeta only
    | with_reducible apply Within.ite
    | fail_if_no_progress (with_reducible refine Within.put (a := [.sig]) ?_ rfl rfl rfl rfl rfl)
    | split

theorem State.startRebuild_frame {ps s t} l (h : Within ps s t) (hp : Part.sub [.block 4, .block 6, .block 13, .block 14, .block 20, .evt, .nor, .host, .sig, .lfl, .map, .store, .out, .hostWait] ps = true) : Within ps s (State.startRebuild t l) := by
  refine h.step (a := [.block 4, .block 6, .block 13, .block 14, .block 20, .evt, .nor, .host, .sig, .lfl, .map, .store, .out, .hostWait]) ?_ hp
  unfold State.startRebuild
  repeat' first
    | with_reducible exact Within.refl _ _
    | with_reducible assumption
    | (show Part.sub _ _ = true; rfl)
    | dsimp -zeta only
    | with_reducible apply State.event1_frame
    | with_reducible apply State.closeQuire_frame
    | with_reducible apply State.queueQuire_frame
    | with_reducible apply State.setRebuilding_frame
    | with_reducible apply Within.ite
    | (with_reducible refine Within.foldl _ ?_ ?_; rotate_left; intro _ _)
    | (with_reducible refine Within.foldl_snd _ ?_ ?_; rotate_left; intro _ _)
    | split

theorem State.freeQuire_frame {ps s t} n (h : Within ps s t) (hp : Part.sub [.block 4, .block 6, .block 14, .evt, .nor, .host, .cmd, .sig, .lfl, .map, .out, .hostWait] ps = true) : Within ps s (State.freeQuire t n) := by
  refine h.step (a := [.block 4, .block 6, .block 14, .evt, .nor, .host, .cmd, .sig, .lfl, .map, .out, .hostWait]) ?_ hp
  unfold State.freeQuire
  repeat' first
    | with_reducible exact Within.refl _ _
    | with_reducible assumption
    | (show Part.sub _ _ = true; rfl)
    | (extract_lets +onlyGivenNames x; with_reducible refine Within.cut (u := x) ?_ ?_; rotate_left; intro hx; clear_value x; rename' x => y; rotate_right; unfold x; clear x)
    | (extract_lets +onlyGivenNames x; clear_value x; rename' x => z)
    | (extract_lets +onlyGivenNames x; rename' x => z)
    | dsimp -zeta only
    | with_reducible apply State.putLeaf_frame
    | with_reducible apply State.notePool_frame
    | with_reducible apply Within.ite
    | (with_reducible refine Within.foldl _ ?_ ?_; rotate_left; intro _ _)
    | (with_reducible refine Within.foldl_snd _ ?_ ?_; rotate_left; intro _ _)
    | fail_if_no_progress (with_reducible refine Within.put (a := [.sig, .map]) ?_ rfl rfl rfl rfl rfl)
    | split

theorem State.markErased_frame {ps s t} n slot (h : Within ps s t) (hp : Part.sub [.sig] ps = true) : Within ps s (State.markErased t n slot) := by
  refine h.step (a := [.sig]) ?_ hp
  unfold State.markErased
  repeat' first
    | with_reducible exact Within.refl _ _
    | with_reducible assumption
    | (show Part.sub _ _ = true; rfl)
    | (extract_lets +onlyGivenNames x; with_reducible refine Within.cut (u := x) ?_ ?_; rotate_left; intro hx; clear_value x; rename' x => y; rotate_right; unfold x; clear x)
    | (extract_lets +onlyGivenNames x; clear_value x; rename' x => z)
    | (extract_lets +onlyGivenNames x; rename' x => z)
    | dsimp -zeta only
    | with_reducible apply Within.ite
    | fail_if_no_progress (with_reducible refine Within.put (a := [.sig]) ?_ rfl rfl rfl rfl rfl)
    | split

theorem State.eraseSlot_frame {ps s t} n slot place (h : Within ps s t) (hp : Part.sub [.sig, .lfl, .out] ps = true) : Within ps s (State.eraseSlot t n slot place) := by
  refine h.step (a := [.sig, .lfl, .out]) ?_ hp
  unfold State.eraseSlot
  repeat' first
    | with_reducible exact Within.refl _ _
    | with_reducible assumption
    | (show Part.sub _ _ = true; rfl)
    | dsimp -zeta only
    | with_reducible apply State.leafOp_frame
    | with_reducible apply State.markErased_frame
    | with_reducible apply Within.ite
    | fail_if_no_progress (with_reducible refine Within.put (a := []) ?_ rfl rfl rfl rfl rfl)
    | split

theorem State.eraseSlots_frame {ps s t} n only (h : Within ps s t) (hp : Part.sub [.block 4, .block 6, .block 14, .evt, .nor, .host, .cmd, .sig, .lfl, .map, .out, .hostWait] ps = true) : Within ps s (State.eraseSlots t n only) := by
  refine h.step (a := [.block 4, .block 6, .block 14, .evt, .nor, .host, .cmd, .sig, .lfl, .map, .out, .hostWait]) ?_ hp
  unfold State.eraseSlots
  repeat' first
    | with_reducible exact Within.refl _ _
    | with_reducible assumption
    | (show Part.sub _ _ = true; rfl)
    | dsimp -zeta only
    | with_reducible apply State.freeQuire_frame
    | with_reducible apply State.eraseSlot_frame
    | with_reducible apply Within.ite
    | (with_reducible refine Within.foldl _ ?_ ?_; rotate_left; intro _ _)
    | (with_reducible refine Within.foldl_snd _ ?_ ?_; rotate_left; intro _ _)
    | fail_if_no_progress (with_reducible refine Within.put (a := []) ?_ rfl rfl rfl rfl rfl)
    | split

theorem State.resumeErases_frame {ps s t} l (h : Within ps s t) (hp : Part.sub [.block 4, .block 6, .block 14, .evt, .nor, .host, .cmd, .sig, .lfl, .map, .out, .hostWait] ps = true) : Within ps s (State.resumeErases t l) := by
  refine h.step (a := [.block 4, .block 6, .block 14, .evt, .nor, .host, .cmd, .sig, .lfl, .map, .out, .hostWait]) ?_ hp
  unfold State.resumeErases
  repeat' first
    | with_reducible exact Within.refl _ _
    | with_reducible assumption
    | (show Part.sub _ _ = true; rfl)
    | dsimp -zeta only
    | with_reducible apply State.eraseSlots_frame
    | with_reducible apply Within.ite
    | (with_reducible refine Within.foldl _ ?_ ?_; rotate_left; intro _ _)
    | (with_reducible refine Within.foldl_snd _ ?_ ?_; rotate_left; intro _ _)
    | split

theorem State.failLeaf_frame {ps s t} l (h : Within ps s t) (hp : Part.sub [.block 4, .block 6, .block 13, .block 14, .block 20, .evt, .nor, .host, .cmd, .sig, .lfl, .map, .store, .out, .hostWait] ps = true) : Within ps s (State.failLeaf t l) := by
  refine h.step (a := [.block 4, .block 6, .block 13, .block 14, .block 20, .evt, .nor, .host, .cmd, .sig, .lfl, .map, .store, .out, .hostWait]) ?_ hp
  unfold State.failLeaf
  repeat' first
    | with_reducible exact Within.refl _ _
    | with_reducible assumption
    | (show Part.sub _ _ = true; rfl)
    | (extract_lets +onlyGivenNames x; with_reducible refine Within.cut (u := x) ?_ ?_; rotate_left; intro hx; clear_value x; rename' x => y; rotate_right; unfold x; clear x)
    | (extract_lets +onlyGivenNames x; clear_value x; rename' x => z)
    | (extract_lets +onlyGivenNames x; rename' x => z)
    | dsimp -zeta only
    | with_reducible apply State.putLeaf_frame
    | with_reducible apply State.noteLeaf_frame
    | with_reducible apply State.noteRebuild_frame
    | with_reducible apply State.loseCopiesOn_frame
    | with_reducible apply State.startRebuild_frame
    | with_reducible apply State.resumeErases_frame
    | with_reducible apply Within.ite
    | fail_if_no_progress (with_reducible refine Within.put (a := []) ?_ rfl rfl rfl rfl rfl)
    | split

theorem State.restamp_frame {ps s t} new b (h : Within ps s t) (hp : Part.sub [.keys] ps = true) : Within ps s (State.restamp t new b) := by
  refine h.step (a := [.keys]) ?_ hp
  unfold State.restamp
  repeat' first
    | with_reducible exact Within.refl _ _
    | with_reducible assumption
    | (show Part.sub _ _ = true; rfl)
    | (extract_lets +onlyGivenNames x; with_reducible refine Within.cut (u := x) ?_ ?_; rotate_left; intro hx; clear_value x; rename' x => y; rotate_right; unfold x; clear x)
    | (extract_lets +onlyGivenNames x; clear_value x; rename' x => z)
    | (extract_lets +onlyGivenNames x; rename' x => z)
    | dsimp -zeta only
    | with_reducible apply State.countStored_frame
    | with_reducible apply State.uncountStored_frame
    | with_reducible apply Within.ite
    | fail_if_no_progress (with_reducible refine Within.put (a := []) ?_ rfl rfl rfl rfl rfl)
    | split

theorem State.placeImage_frame {ps s t} old new (h : Within ps s t) (hp : Part.sub [.block 13, .map] ps = true) : Within ps s (State.placeImage t old new) := by
  refine h.step (a := [.block 13, .map]) ?_ hp
  unfold State.placeImage
  repeat' first
    | with_reducible exact Within.refl _ _
    | with_reducible assumption
    | (show Part.sub _ _ = true; rfl)
    | dsimp -zeta only
    | with_reducible apply State.setPage_frame
    | with_reducible apply State.dropDir_frame
    | with_reducible apply Within.ite
    | fail_if_no_progress (with_reducible refine Within.put (a := []) ?_ rfl rfl rfl rfl rfl)
    | split

theorem State.moveContainer_frame {ps s t} quire old new bytes (h : Within ps s t) (hp : Part.sub [.block 13, .block 20, .ddp, .keys, .wc, .sig, .map, .store] ps = true) : Within ps s (State.moveContainer t quire old new bytes) := by
  refine h.step (a := [.block 13, .block 20, .ddp, .keys, .wc, .sig, .map, .store]) ?_ hp
  unfold State.moveContainer
  repeat' first
    | with_reducible exact Within.refl _ _
    | with_reducible assumption
    | (show Part.sub _ _ = true; rfl)
    | (extract_lets +onlyGivenNames x; with_reducible refine Within.cut (u := x) ?_ ?_; rotate_left; intro hx; clear_value x; rename' x => y; rotate_right; unfold x; clear x)
    | (extract_lets +onlyGivenNames x; clear_value x; rename' x => z)
    | (extract_lets +onlyGivenNames x; rename' x => z)
    | dsimp -zeta only
    | with_reducible apply State.rewriteLoc_frame
    | with_reducible apply State.setOwn_frame
    | with_reducible apply State.restamp_frame
    | with_reducible apply State.placeImage_frame
    | with_reducible apply Within.ite
    | fail_if_no_progress (with_reducible refine Within.put (a := [.wc, .sig]) ?_ rfl rfl rfl rfl rfl)
    | split

theorem State.completeSig_frame {ps s t} x (h : Within ps s t) (hp : Part.sub [.block 13, .block 14, .block 20, .ddp, .keys, .wc, .sig, .lfl, .map, .chan, .store, .out] ps = true) : Within ps s (State.completeSig t x) := by
  refine h.step (a := [.block 13, .block 14, .block 20, .ddp, .keys, .wc, .sig, .lfl, .map, .chan, .store, .out]) ?_ hp
  unfold State.completeSig
  repeat' first
    | with_reducible exact Within.refl _ _
    | with_reducible assumption
    | (show Part.sub _ _ = true; rfl)
    | (extract_lets +onlyGivenNames x; with_reducible refine Within.cut (u := x) ?_ ?_; rotate_left; intro hx; clear_value x; rename' x => y; rotate_right; unfold x; clear x)
    | (extract_lets +onlyGivenNames x; clear_value x; rename' x => z)
    | (extract_lets +onlyGivenNames x; rename' x => z)
    | dsimp -zeta only
    | with_reducible apply State.settleSegments_frame
    | with_reducible apply State.appendLog_frame
    | with_reducible apply State.settleQuires_frame
    | with_reducible apply State.moveContainer_frame
    | with_reducible apply Within.ite
    | (with_reducible refine Within.foldl _ ?_ ?_; rotate_left; intro _ _)
    | (with_reducible refine Within.foldl_snd _ ?_ ?_; rotate_left; intro _ _)
    | fail_if_no_progress (with_reducible refine Within.put (a := [.wc, .sig]) ?_ rfl rfl rfl rfl rfl)
    | split
    | (with_reducible refine Within.of_pair (by assumption) ?_)

theorem State.scanEntry_frame {ps s t} e (h : Within ps s t) (hp : Part.sub [.sig, .lfl] ps = true) : Within ps s (State.scanEntry t e) := by
  refine h.step (a := [.sig, .lfl]) ?_ hp
  unfold State.scanEntry
  repeat' first
    | with_reducible exact Within.refl _ _
    | with_reducible assumption
    | (show Part.sub _ _ = true; rfl)
    | (extract_lets +onlyGivenNames x; with_reducible refine Within.cut (u := x) ?_ ?_; rotate_left; intro hx; clear_value x; rename' x => y; rotate_right; unfold x; clear x)
    | (extract_lets +onlyGivenNames x; clear_value x; rename' x => z)
    | (extract_lets +onlyGivenNames x; rename' x => z)
    | dsimp -zeta only
    | with_reducible apply State.putLeaf_frame
    | with_reducible apply State.setQuire_frame
    | with_reducible apply Within.ite
    | (with_reducible refine Within.foldl _ ?_ ?_; rotate_left; intro _ _)
    | (with_reducible refine Within.foldl_snd _ ?_ ?_; rotate_left; intro _ _)
    | fail_if_no_progress (with_reducible refine Within.put (a := [.sig]) ?_ rfl rfl rfl rfl rfl)
    | split

theorem State.askTrailers_frame {ps s t} e (h : Within ps s t) (hp : Part.sub [.regs, .holding, .evt, .nor, .host, .cmd, .ddp, .keys, .sig, .lfl, .map, .rep, .prg, .chan, .store, .mem, .free, .out, .hostWait] ps = true) : Within ps s (State.askTrailers t e) := by
  refine h.step (a := [.regs, .holding, .evt, .nor, .host, .cmd, .ddp, .keys, .sig, .lfl, .map, .rep, .prg, .chan, .store, .mem, .free, .out, .hostWait]) ?_ hp
  unfold State.askTrailers
  repeat' first
    | with_reducible exact Within.refl _ _
    | with_reducible assumption
    | (show Part.sub _ _ = true; rfl)
    | (extract_lets +onlyGivenNames x; with_reducible refine Within.cut (u := x) ?_ ?_; rotate_left; intro hx; clear_value x; rename' x => y; rotate_right; unfold x; clear x)
    | (extract_lets +onlyGivenNames x; clear_value x; rename' x => z)
    | (extract_lets +onlyGivenNames x; rename' x => z)
    | dsimp -zeta only
    | with_reducible apply State.noteTrailer_frame
    | with_reducible apply State.readMember_frame
    | with_reducible apply Within.ite
    | (with_reducible refine Within.foldl _ ?_ ?_; rotate_left; intro _ _)
    | (with_reducible refine Within.foldl_snd _ ?_ ?_; rotate_left; intro _ _)
    | fail_if_no_progress (with_reducible refine Within.put (a := []) ?_ rfl rfl rfl rfl rfl)
    | split

theorem State.endScan_frame {ps s t} region (h : Within ps s t) (hp : Part.sub [.regs, .holding, .evt, .nor, .host, .cmd, .ddp, .keys, .sig, .lfl, .map, .rep, .prg, .chan, .store, .mem, .free, .out, .hostWait] ps = true) : Within ps s (State.endScan t region) := by
  refine h.step (a := [.regs, .holding, .evt, .nor, .host, .cmd, .ddp, .keys, .sig, .lfl, .map, .rep, .prg, .chan, .store, .mem, .free, .out, .hostWait]) ?_ hp
  unfold State.endScan
  repeat' first
    | with_reducible exact Within.refl _ _
    | with_reducible assumption
    | (show Part.sub _ _ = true; rfl)
    | (extract_lets +onlyGivenNames x; with_reducible refine Within.cut (u := x) ?_ ?_; rotate_left; intro hx; clear_value x; rename' x => y; rotate_right; unfold x; clear x)
    | (extract_lets +onlyGivenNames x; clear_value x; rename' x => z)
    | (extract_lets +onlyGivenNames x; rename' x => z)
    | dsimp -zeta only
    | with_reducible apply State.gather_frame
    | with_reducible apply State.closeQuire_frame
    | with_reducible apply Within.ite
    | (with_reducible refine Within.foldl _ ?_ ?_; rotate_left; intro _ _)
    | (with_reducible refine Within.foldl_snd _ ?_ ?_; rotate_left; intro _ _)
    | fail_if_no_progress (with_reducible refine Within.put (a := [.sig, .lfl]) ?_ rfl rfl rfl rfl rfl)
    | split

theorem State.voidEntry_frame {ps s t} e (h : Within ps s t) (hp : Part.sub [.block 4, .block 6, .block 13, .block 14, .block 20, .evt, .nor, .host, .sig, .lfl, .map, .store, .out, .hostWait] ps = true) : Within ps s (State.voidEntry t e) := by
  refine h.step (a := [.block 4, .block 6, .block 13, .block 14, .block 20, .evt, .nor, .host, .sig, .lfl, .map, .store, .out, .hostWait]) ?_ hp
  unfold State.voidEntry
  repeat' first
    | with_reducible exact Within.refl _ _
    | with_reducible assumption
    | (show Part.sub _ _ = true; rfl)
    | dsimp -zeta only
    | with_reducible apply State.bump_frame
    | with_reducible apply State.appendLog_frame
    | with_reducible apply State.voidSig_frame
    | with_reducible apply Within.ite
    | fail_if_no_progress (with_reducible refine Within.put (a := []) ?_ rfl rfl rfl rfl rfl)
    | split
    | (with_reducible refine Within.of_pair (by assumption) ?_)

theorem State.tornSig_frame {ps s t} e (h : Within ps s t) (hp : Part.sub [.block 4, .block 6, .block 13, .block 14, .block 20, .evt, .nor, .host, .sig, .lfl, .map, .store, .out, .hostWait] ps = true) : Within ps s (State.tornSig t e) := by
  refine h.step (a := [.block 4, .block 6, .block 13, .block 14, .block 20, .evt, .nor, .host, .sig, .lfl, .map, .store, .out, .hostWait]) ?_ hp
  unfold State.tornSig
  repeat' first
    | with_reducible exact Within.refl _ _
    | with_reducible assumption
    | (show Part.sub _ _ = true; rfl)
    | dsimp -zeta only
    | with_reducible apply State.event_frame
    | with_reducible apply State.voidEntry_frame
    | with_reducible apply Within.ite
    | split

theorem State.wholeSig_frame {ps s t} e (h : Within ps s t) (hp : Part.sub [.block 13, .block 14, .block 20, .ddp, .keys, .wc, .sig, .lfl, .map, .chan, .store, .out] ps = true) : Within ps s (State.wholeSig t e) := by
  refine h.step (a := [.block 13, .block 14, .block 20, .ddp, .keys, .wc, .sig, .lfl, .map, .chan, .store, .out]) ?_ hp
  unfold State.wholeSig
  repeat' first
    | with_reducible exact Within.refl _ _
    | with_reducible assumption
    | (show Part.sub _ _ = true; rfl)
    | dsimp -zeta only
    | with_reducible apply State.completeSig_frame
    | with_reducible apply Within.ite
    | fail_if_no_progress (with_reducible refine Within.put (a := []) ?_ rfl rfl rfl rfl rfl)
    | split

theorem State.settleChecks_frame {ps s t}  (h : Within ps s t) (hp : Part.sub [.regs, .holding, .evt, .nor, .host, .cmd, .ddp, .keys, .wc, .sig, .lfl, .map, .rep, .prg, .chan, .store, .mem, .free, .out, .hostWait] ps = true) : Within ps s (State.settleChecks t) := by
  refine h.step (a := [.regs, .holding, .evt, .nor, .host, .cmd, .ddp, .keys, .wc, .sig, .lfl, .map, .rep, .prg, .chan, .store, .mem, .free, .out, .hostWait]) ?_ hp
  unfold State.settleChecks
  repeat' first
    | with_reducible exact Within.refl _ _
    | with_reducible assumption
    | (show Part.sub _ _ = true; rfl)
    | (extract_lets +onlyGivenNames x; with_reducible refine Within.cut (u := x) ?_ ?_; rotate_left; intro hx; clear_value x; rename' x => y; rotate_right; unfold x; clear x)
    | (extract_lets +onlyGivenNames x; clear_value x; rename' x => z)
    | (extract_lets +onlyGivenNames x; rename' x => z)
    | dsimp -zeta only
    | with_reducible apply State.endScan_frame
    | with_reducible apply State.tornSig_frame
    | with_reducible apply State.wholeSig_frame
    | with_reducible apply Within.ite
    | (with_reducible refine Within.foldl _ ?_ ?_; rotate_left; intro _ _)
    | (with_reducible refine Within.foldl_snd _ ?_ ?_; rotate_left; intro _ _)
    | fail_if_no_progress (with_reducible refine Within.put (a := [.sig]) ?_ rfl rfl rfl rfl rfl)
    | split

theorem State.takeFound_frame {ps s t} region (h : Within ps s t) (hp : Part.sub [.regs, .holding, .evt, .nor, .host, .cmd, .ddp, .keys, .wc, .sig, .lfl, .map, .rep, .prg, .chan, .store, .mem, .free, .out, .hostWait] ps = true) : Within ps s (State.takeFound t region) := by
  refine h.step (a := [.regs, .holding, .evt, .nor, .host, .cmd, .ddp, .keys, .wc, .sig, .lfl, .map, .rep, .prg, .chan, .store, .mem, .free, .out, .hostWait]) ?_ hp
  unfold State.takeFound
  repeat' first
    | with_reducible exact Within.refl _ _
    | with_reducible assumption
    | (show Part.sub _ _ = true; rfl)
    | (extract_lets +onlyGivenNames x; with_reducible refine Within.cut (u := x) ?_ ?_; rotate_left; intro hx; clear_value x; rename' x => y; rotate_right; unfold x; clear x)
    | (extract_lets +onlyGivenNames x; clear_value x; rename' x => z)
    | (extract_lets +onlyGivenNames x; rename' x => z)
    | dsimp -zeta only
    | with_reducible apply State.scanEntry_frame
    | with_reducible apply State.askTrailers_frame
    | with_reducible apply State.endScan_frame
    | with_reducible apply State.settleChecks_frame
    | with_reducible apply Within.ite
    | (with_reducible refine Within.foldl _ ?_ ?_; rotate_left; intro _ _)
    | (with_reducible refine Within.foldl_snd _ ?_ ?_; rotate_left; intro _ _)
    | fail_if_no_progress (with_reducible refine Within.put (a := [.sig]) ?_ rfl rfl rfl rfl rfl)
    | split

theorem State.takeRetake_frame {ps s t} duty (h : Within ps s t) (hp : Part.sub [.regs, .holding, .evt, .nor, .host, .cmd, .ddp, .keys, .wc, .sig, .lfl, .map, .rep, .prg, .chan, .store, .mem, .free, .out, .hostWait] ps = true) : Within ps s (State.takeRetake t duty) := by
  refine h.step (a := [.regs, .holding, .evt, .nor, .host, .cmd, .ddp, .keys, .wc, .sig, .lfl, .map, .rep, .prg, .chan, .store, .mem, .free, .out, .hostWait]) ?_ hp
  unfold State.takeRetake
  repeat' first
    | with_reducible exact Within.refl _ _
    | with_reducible assumption
    | (show Part.sub _ _ = true; rfl)
    | (extract_lets +onlyGivenNames x; with_reducible refine Within.cut (u := x) ?_ ?_; rotate_left; intro hx; clear_value x; rename' x => y; rotate_right; unfold x; clear x)
    | (extract_lets +onlyGivenNames x; clear_value x; rename' x => z)
    | (extract_lets +onlyGivenNames x; rename' x => z)
    | dsimp -zeta only
    | with_reducible apply State.askTrailers_frame
    | with_reducible apply State.settleChecks_frame
    | with_reducible apply Within.ite
    | (with_reducible refine Within.foldl _ ?_ ?_; rotate_left; intro _ _)
    | (with_reducible refine Within.foldl_snd _ ?_ ?_; rotate_left; intro _ _)
    | fail_if_no_progress (with_reducible refine Within.put (a := [.sig]) ?_ rfl rfl rfl rfl rfl)
    | split

theorem State.scanDone_frame {ps s t} l region (h : Within ps s t) (hp : Part.sub [.regs, .holding, .evt, .nor, .host, .cmd, .ddp, .keys, .wc, .sig, .lfl, .map, .rep, .prg, .chan, .store, .mem, .free, .out, .hostWait] ps = true) : Within ps s (State.scanDone t l region) := by
  refine h.step (a := [.regs, .holding, .evt, .nor, .host, .cmd, .ddp, .keys, .wc, .sig, .lfl, .map, .rep, .prg, .chan, .store, .mem, .free, .out, .hostWait]) ?_ hp
  unfold State.scanDone
  repeat' first
    | with_reducible exact Within.refl _ _
    | with_reducible assumption
    | (show Part.sub _ _ = true; rfl)
    | (extract_lets +onlyGivenNames x; with_reducible refine Within.cut (u := x) ?_ ?_; rotate_left; intro hx; clear_value x; rename' x => y; rotate_right; unfold x; clear x)
    | (extract_lets +onlyGivenNames x; clear_value x; rename' x => z)
    | (extract_lets +onlyGivenNames x; rename' x => z)
    | dsimp -zeta only
    | with_reducible apply State.takeFound_frame
    | with_reducible apply Within.ite
    | fail_if_no_progress (with_reducible refine Within.put (a := [.sig]) ?_ rfl rfl rfl rfl rfl)
    | split

theorem State.scanOver_frame {ps s t} l region (h : Within ps s t) (hp : Part.sub [.regs, .holding, .evt, .nor, .host, .cmd, .ddp, .keys, .wc, .sig, .lfl, .map, .rep, .prg, .chan, .store, .mem, .free, .out, .hostWait] ps = true) : Within ps s (State.scanOver t l region) := by
  refine h.step (a := [.regs, .holding, .evt, .nor, .host, .cmd, .ddp, .keys, .wc, .sig, .lfl, .map, .rep, .prg, .chan, .store, .mem, .free, .out, .hostWait]) ?_ hp
  unfold State.scanOver
  repeat' first
    | with_reducible exact Within.refl _ _
    | with_reducible assumption
    | (show Part.sub _ _ = true; rfl)
    | dsimp -zeta only
    | with_reducible apply State.takeRetake_frame
    | with_reducible apply State.scanDone_frame
    | with_reducible apply Within.ite
    | fail_if_no_progress (with_reducible refine Within.put (a := []) ?_ rfl rfl rfl rfl rfl)
    | split

theorem State.addFound_frame {ps s t} es (h : Within ps s t) (hp : Part.sub [.sig] ps = true) : Within ps s (State.addFound t es) := by
  refine h.step (a := [.sig]) ?_ hp
  unfold State.addFound
  repeat' first
    | with_reducible exact Within.refl _ _
    | with_reducible assumption
    | (show Part.sub _ _ = true; rfl)
    | dsimp -zeta only
    | with_reducible apply Within.ite
    | (with_reducible refine Within.foldl _ ?_ ?_; rotate_left; intro _ _)
    | (with_reducible refine Within.foldl_snd _ ?_ ?_; rotate_left; intro _ _)
    | fail_if_no_progress (with_reducible refine Within.put (a := [.sig]) ?_ rfl rfl rfl rfl rfl)
    | split

theorem State.patrolStep_frame {ps s t}  (h : Within ps s t) (hp : Part.sub [.block 14, .sig] ps = true) : Within ps s (State.patrolStep t) := by
  refine h.step (a := [.block 14, .sig]) ?_ hp
  unfold State.patrolStep
  repeat' first
    | with_reducible exact Within.refl _ _
    | with_reducible assumption
    | (show Part.sub _ _ = true; rfl)
    | (extract_lets +onlyGivenNames x; with_reducible refine Within.cut (u := x) ?_ ?_; rotate_left; intro hx; clear_value x; rename' x => y; rotate_right; unfold x; clear x)
    | (extract_lets +onlyGivenNames x; clear_value x; rename' x => z)
    | (extract_lets +onlyGivenNames x; rename' x => z)
    | dsimp -zeta only
    | with_reducible apply State.wr_frame
    | with_reducible apply State.bump_frame
    | with_reducible apply Within.ite
    | fail_if_no_progress (with_reducible refine Within.put (a := [.sig]) ?_ rfl rfl rfl rfl rfl)
    | split

theorem State.deepCheck_frame {ps s t} p q l (h : Within ps s t) (hp : Part.sub [.regs, .holding, .evt, .nor, .host, .cmd, .ddp, .keys, .sig, .map, .chan, .store, .mem, .out, .hostWait] ps = true) : Within ps s (State.deepCheck t p q l) := by
  refine h.step (a := [.regs, .holding, .evt, .nor, .host, .cmd, .ddp, .keys, .sig, .map, .chan, .store, .mem, .out, .hostWait]) ?_ hp
  unfold State.deepCheck
  repeat' first
    | with_reducible exact Within.refl _ _
    | with_reducible assumption
    | (show Part.sub _ _ = true; rfl)
    | (extract_lets +onlyGivenNames x; with_reducible refine Within.cut (u := x) ?_ ?_; rotate_left; intro hx; clear_value x; rename' x => y; rotate_right; unfold x; clear x)
    | (extract_lets +onlyGivenNames x; clear_value x; rename' x => z)
    | (extract_lets +onlyGivenNames x; rename' x => z)
    | dsimp -zeta only
    | with_reducible apply State.bump_frame
    | with_reducible apply State.event_frame
    | with_reducible apply State.event1_frame
    | with_reducible apply State.loseContainer_frame
    | with_reducible apply State.countDecode_frame
    | with_reducible apply Within.ite
    | fail_if_no_progress (with_reducible refine Within.put (a := []) ?_ rfl rfl rfl rfl rfl)
    | split

theorem State.judgePatrol_frame {ps s t} p (h : Within ps s t) (hp : Part.sub [.regs, .holding, .evt, .nor, .host, .cmd, .ddp, .keys, .sig, .map, .chan, .store, .mem, .out, .hostWait] ps = true) : Within ps s (State.judgePatrol t p) := by
  refine h.step (a := [.regs, .holding, .evt, .nor, .host, .cmd, .ddp, .keys, .sig, .map, .chan, .store, .mem, .out, .hostWait]) ?_ hp
  unfold State.judgePatrol
  repeat' first
    | with_reducible exact Within.refl _ _
    | with_reducible assumption
    | (show Part.sub _ _ = true; rfl)
    | (extract_lets +onlyGivenNames x; with_reducible refine Within.cut (u := x) ?_ ?_; rotate_left; intro hx; clear_value x; rename' x => y; rotate_right; unfold x; clear x)
    | (extract_lets +onlyGivenNames x; clear_value x; rename' x => z)
    | (extract_lets +onlyGivenNames x; rename' x => z)
    | dsimp -zeta only
    | with_reducible apply State.bump_frame
    | with_reducible apply State.event_frame
    | with_reducible apply State.event1_frame
    | with_reducible apply State.loseWord_frame
    | with_reducible apply State.queueQuire_frame
    | with_reducible apply State.patrolStep_frame
    | with_reducible apply State.deepCheck_frame
    | with_reducible apply Within.ite
    | (with_reducible refine Within.foldl _ ?_ ?_; rotate_left; intro _ _)
    | (with_reducible refine Within.foldl_snd _ ?_ ?_; rotate_left; intro _ _)
    | fail_if_no_progress (with_reducible refine Within.put (a := []) ?_ rfl rfl rfl rfl rfl)
    | split

theorem State.settlePatrols_frame {ps s t}  (h : Within ps s t) (hp : Part.sub [.regs, .holding, .evt, .nor, .host, .cmd, .ddp, .keys, .sig, .map, .chan, .store, .mem, .out, .hostWait] ps = true) : Within ps s (State.settlePatrols t) := by
  refine h.step (a := [.regs, .holding, .evt, .nor, .host, .cmd, .ddp, .keys, .sig, .map, .chan, .store, .mem, .out, .hostWait]) ?_ hp
  unfold State.settlePatrols
  repeat' first
    | with_reducible exact Within.refl _ _
    | with_reducible assumption
    | (show Part.sub _ _ = true; rfl)
    | (extract_lets +onlyGivenNames x; with_reducible refine Within.cut (u := x) ?_ ?_; rotate_left; intro hx; clear_value x; rename' x => y; rotate_right; unfold x; clear x)
    | (extract_lets +onlyGivenNames x; clear_value x; rename' x => z)
    | (extract_lets +onlyGivenNames x; rename' x => z)
    | dsimp -zeta only
    | with_reducible apply State.judgePatrol_frame
    | with_reducible apply Within.ite
    | (with_reducible refine Within.foldl _ ?_ ?_; rotate_left; intro _ _)
    | (with_reducible refine Within.foldl_snd _ ?_ ?_; rotate_left; intro _ _)
    | fail_if_no_progress (with_reducible refine Within.put (a := [.sig]) ?_ rfl rfl rfl rfl rfl)
    | split

theorem State.settleReadsOf_frame {ps s t}  (h : Within ps s t) (hp : Part.sub [.regs, .holding, .evt, .nor, .host, .cmd, .ddp, .keys, .wc, .sig, .lfl, .map, .rep, .prg, .chan, .store, .mem, .free, .out, .hostWait] ps = true) : Within ps s (State.settleReadsOf t) := by
  refine h.step (a := [.regs, .holding, .evt, .nor, .host, .cmd, .ddp, .keys, .wc, .sig, .lfl, .map, .rep, .prg, .chan, .store, .mem, .free, .out, .hostWait]) ?_ hp
  unfold State.settleReadsOf
  repeat' first
    | with_reducible exact Within.refl _ _
    | with_reducible assumption
    | (show Part.sub _ _ = true; rfl)
    | dsimp -zeta only
    | with_reducible apply State.settleChecks_frame
    | with_reducible apply State.settlePatrols_frame
    | with_reducible apply Within.ite
    | split

end Sys2Proof.Machine
end

