-- ==== Sys2Proof/Laws/FrameRead.lean ====
section
/-!
SUPPORT. Laws/FrameRead.lean: what the definitions of Machine/Read.lean leave alone: each changes the listed parts at most, and keeps the
canonical form.
-/
namespace Sys2Proof.Machine
open Sys2Proof

set_option Elab.async false
set_option linter.all false

theorem execRead_frame tag s : Lands [.regs, .holding, .evt, .nor, .host, .ports, .trn, .cmd, .ddp, .keys, .sig, .lfl, .map, .rep, .prg, .chan, .store, .mem, .free, .out, .hostWait] s (execRead tag s) := by
  unfold execRead
  repeat' first
    | with_reducible exact Within.refl _ _
    | with_reducible assumption
    | (show Part.sub _ _ = true; rfl)
    | with_reducible apply Lands.next
    | dsimp -zeta only
    | with_reducible apply State.begin_frame
    | with_reducible apply State.resolveRead_frame
    | intro _
    | with_reducible apply Lands.ite
    | with_reducible apply Within.ite
    | split

theorem execCompare_frame tag s : Lands [.regs, .holding, .evt, .nor, .host, .ports, .trn, .cmd, .bnd, .ddp, .keys, .wc, .sig, .lfl, .map, .rep, .prg, .chan, .store, .mem, .free, .out, .hostWait] s (execCompare tag s) := by
  unfold execCompare
  repeat' first
    | with_reducible exact Within.refl _ _
    | with_reducible assumption
    | (show Part.sub _ _ = true; rfl)
    | with_reducible apply Lands.next
    | (extract_lets +onlyGivenNames x; with_reducible refine Lands.cut (u := x) ?_ ?_; rotate_left; intro hx; clear_value x; rename' x => y; rotate_right; unfold x; clear x)
    | (extract_lets +onlyGivenNames x; with_reducible refine Within.cut (u := x) ?_ ?_; rotate_left; intro hx; clear_value x; rename' x => y; rotate_right; unfold x; clear x)
    | (extract_lets +onlyGivenNames x; clear_value x; rename' x => z)
    | (extract_lets +onlyGivenNames x; rename' x => z)
    | dsimp -zeta only
    | with_reducible apply State.queueRead_frame
    | with_reducible apply State.modTag_frame
    | with_reducible apply State.begin_frame
    | with_reducible apply State.resolveRead_frame
    | with_reducible apply State.checkCompare_frame
    | intro _
    | with_reducible apply Lands.ite
    | with_reducible apply Within.ite
    | fail_if_no_progress (with_reducible refine Within.put (a := []) ?_ rfl rfl rfl rfl rfl)
    | split

theorem State.tapCopy_frame {ps s t} nsid addr bytes (h : Within ps s t) (hp : Part.sub [.block 19, .prg] ps = true) : Within ps s (State.tapCopy t nsid addr bytes) := by
  refine h.step (a := [.block 19, .prg]) ?_ hp
  unfold State.tapCopy
  repeat' first
    | with_reducible exact Within.refl _ _
    | with_reducible assumption
    | (show Part.sub _ _ = true; rfl)
    | dsimp -zeta only
    | with_reducible apply State.bump_frame
    | with_reducible apply Within.ite
    | (with_reducible refine Within.foldl _ ?_ ?_; rotate_left; intro _ _)
    | (with_reducible refine Within.foldl_snd _ ?_ ?_; rotate_left; intro _ _)
    | fail_if_no_progress (with_reducible refine Within.put (a := [.prg]) ?_ rfl rfl rfl rfl rfl)
    | split

theorem State.failKey_frame {ps s t} bt code domain (h : Within ps s t) (hp : Part.sub [.block 4, .block 6, .evt, .nor, .host, .cmd, .out, .hostWait] ps = true) : Within ps s (State.failKey t bt code domain) := by
  refine h.step (a := [.block 4, .block 6, .evt, .nor, .host, .cmd, .out, .hostWait]) ?_ hp
  unfold State.failKey
  repeat' first
    | with_reducible exact Within.refl _ _
    | with_reducible assumption
    | (show Part.sub _ _ = true; rfl)
    | dsimp -zeta only
    | with_reducible apply State.event1_frame
    | with_reducible apply State.failRead_frame
    | with_reducible apply Within.ite
    | split

theorem State.pieceBytes_frame {ps s t} bt k c p plain (h : Within ps s t) (hp : Part.sub [.block 4, .block 6, .block 10, .block 11, .block 12, .block 13, .block 19, .block 20, .evt, .nor, .host, .ports, .trn, .cmd, .bnd, .ddp, .keys, .wc, .sig, .lfl, .map, .prg, .chan, .store, .free, .out, .hostWait] ps = true) : Within ps s (State.pieceBytes t bt k c p plain) := by
  refine h.step (a := [.block 4, .block 6, .block 10, .block 11, .block 12, .block 13, .block 19, .block 20, .evt, .nor, .host, .ports, .trn, .cmd, .bnd, .ddp, .keys, .wc, .sig, .lfl, .map, .prg, .chan, .store, .free, .out, .hostWait]) ?_ hp
  unfold State.pieceBytes
  repeat' first
    | with_reducible exact Within.refl _ _
    | with_reducible assumption
    | (show Part.sub _ _ = true; rfl)
    | (extract_lets +onlyGivenNames x; with_reducible refine Within.cut (u := x) ?_ ?_; rotate_left; intro hx; clear_value x; rename' x => y; rotate_right; unfold x; clear x)
    | (extract_lets +onlyGivenNames x; clear_value x; rename' x => z)
    | (extract_lets +onlyGivenNames x; rename' x => z)
    | dsimp -zeta only
    | with_reducible apply State.pieceDone_frame
    | with_reducible apply State.checkRead_frame
    | with_reducible apply State.checkCompare_frame
    | with_reducible apply State.tapCopy_frame
    | with_reducible apply Within.ite
    | split

theorem State.askSecond_frame {ps s t} bt k c p (h : Within ps s t) (hp : Part.sub [.regs, .holding, .evt, .nor, .host, .cmd, .ddp, .keys, .sig, .lfl, .map, .rep, .prg, .chan, .store, .mem, .free, .out, .hostWait] ps = true) : Within ps s (State.askSecond t bt k c p) := by
  refine h.step (a := [.regs, .holding, .evt, .nor, .host, .cmd, .ddp, .keys, .sig, .lfl, .map, .rep, .prg, .chan, .store, .mem, .free, .out, .hostWait]) ?_ hp
  unfold State.askSecond
  repeat' first
    | with_reducible exact Within.refl _ _
    | with_reducible assumption
    | (show Part.sub _ _ = true; rfl)
    | dsimp -zeta only
    | with_reducible apply State.sendRing_frame
    | with_reducible apply State.fetchCopy_frame
    | with_reducible apply Within.ite
    | fail_if_no_progress (with_reducible refine Within.put (a := []) ?_ rfl rfl rfl rfl rfl)
    | split

theorem State.readFault_frame {ps s t} bt domain (h : Within ps s t) (hp : Part.sub [.block 4, .block 6, .block 11, .evt, .nor, .host, .cmd, .free, .out, .hostWait] ps = true) : Within ps s (State.readFault t bt domain) := by
  refine h.step (a := [.block 4, .block 6, .block 11, .evt, .nor, .host, .cmd, .free, .out, .hostWait]) ?_ hp
  unfold State.readFault
  repeat' first
    | with_reducible exact Within.refl _ _
    | with_reducible assumption
    | (show Part.sub _ _ = true; rfl)
    | (extract_lets +onlyGivenNames x; with_reducible refine Within.cut (u := x) ?_ ?_; rotate_left; intro hx; clear_value x; rename' x => y; rotate_right; unfold x; clear x)
    | (extract_lets +onlyGivenNames x; clear_value x; rename' x => z)
    | (extract_lets +onlyGivenNames x; rename' x => z)
    | dsimp -zeta only
    | with_reducible apply State.bump_frame
    | with_reducible apply State.fresh_frame
    | with_reducible apply State.event1_frame
    | with_reducible apply State.failRead_frame
    | with_reducible apply Within.ite
    | split
    | (with_reducible refine Within.of_pair (by assumption) ?_)

theorem execContainerDecode_frame tag at_ s : Lands [.regs, .holding, .evt, .nor, .host, .ports, .trn, .cmd, .bnd, .ddp, .keys, .wc, .sig, .lfl, .map, .rep, .prg, .chan, .store, .mem, .free, .out, .hostWait] s (execContainerDecode tag at_ s) := by
  unfold execContainerDecode
  repeat' first
    | with_reducible exact Within.refl _ _
    | with_reducible assumption
    | (show Part.sub _ _ = true; rfl)
    | with_reducible apply Lands.next
    | (extract_lets +onlyGivenNames x; with_reducible refine Lands.cut (u := x) ?_ ?_; rotate_left; intro hx; clear_value x; rename' x => y; rotate_right; unfold x; clear x)
    | (extract_lets +onlyGivenNames x; with_reducible refine Within.cut (u := x) ?_ ?_; rotate_left; intro hx; clear_value x; rename' x => y; rotate_right; unfold x; clear x)
    | (extract_lets +onlyGivenNames x; clear_value x; rename' x => z)
    | (extract_lets +onlyGivenNames x; rename' x => z)
    | dsimp -zeta only
    | with_reducible apply State.noteUncorr_frame
    | with_reducible apply State.countDecode_frame
    | with_reducible apply State.modPiece_frame
    | with_reducible apply State.sendForwardedPiece_frame
    | with_reducible apply State.failKey_frame
    | with_reducible apply State.pieceBytes_frame
    | with_reducible apply State.askSecond_frame
    | with_reducible apply State.readFault_frame
    | with_reducible apply Lands.ite
    | with_reducible apply Within.ite
    | fail_if_no_progress (with_reducible refine Within.put (a := []) ?_ rfl rfl rfl rfl rfl)
    | split

theorem State.spanCopy_frame {ps s t} bt tile copy (h : Within ps s t) (hp : Part.sub [.prg] ps = true) : Within ps s (State.spanCopy t bt tile copy) := by
  refine h.step (a := [.prg]) ?_ hp
  unfold State.spanCopy
  repeat' first
    | with_reducible exact Within.refl _ _
    | with_reducible assumption
    | (show Part.sub _ _ = true; rfl)
    | dsimp -zeta only
    | with_reducible apply State.deliverSpan_frame
    | with_reducible apply Within.ite
    | fail_if_no_progress (with_reducible refine Within.put (a := []) ?_ rfl rfl rfl rfl rfl)
    | split

theorem execSecondCopyArrive_frame tag piece copy s : Lands [.regs, .holding, .evt, .nor, .host, .ports, .trn, .cmd, .bnd, .ddp, .keys, .wc, .sig, .lfl, .map, .prg, .chan, .store, .mem, .free, .out, .hostWait] s (execSecondCopyArrive tag piece copy s) := by
  unfold execSecondCopyArrive
  repeat' first
    | with_reducible exact Within.refl _ _
    | with_reducible assumption
    | (show Part.sub _ _ = true; rfl)
    | with_reducible apply Lands.next
    | (extract_lets +onlyGivenNames x; with_reducible refine Lands.cut (u := x) ?_ ?_; rotate_left; intro hx; clear_value x; rename' x => y; rotate_right; unfold x; clear x)
    | (extract_lets +onlyGivenNames x; with_reducible refine Within.cut (u := x) ?_ ?_; rotate_left; intro hx; clear_value x; rename' x => y; rotate_right; unfold x; clear x)
    | (extract_lets +onlyGivenNames x; clear_value x; rename' x => z)
    | (extract_lets +onlyGivenNames x; rename' x => z)
    | dsimp -zeta only
    | with_reducible apply State.event1_frame
    | with_reducible apply State.settleAsk_frame
    | with_reducible apply State.countDecode_frame
    | with_reducible apply State.failRead_frame
    | with_reducible apply State.sendForwardedPiece_frame
    | with_reducible apply State.failKey_frame
    | with_reducible apply State.pieceBytes_frame
    | with_reducible apply State.readFault_frame
    | with_reducible apply State.spanCopy_frame
    | with_reducible apply Lands.ite
    | with_reducible apply Within.ite
    | fail_if_no_progress (with_reducible refine Within.put (a := []) ?_ rfl rfl rfl rfl rfl)
    | split

theorem State.noteWord_frame {ps s t} r f (h : Within ps s t) (hp : Part.sub [.lfl] ps = true) : Within ps s (State.noteWord t r f) := by
  refine h.step (a := [.lfl]) ?_ hp
  unfold State.noteWord
  repeat' first
    | with_reducible exact Within.refl _ _
    | with_reducible assumption
    | (show Part.sub _ _ = true; rfl)
    | (extract_lets +onlyGivenNames x; with_reducible refine Within.cut (u := x) ?_ ?_; rotate_left; intro hx; clear_value x; rename' x => y; rotate_right; unfold x; clear x)
    | (extract_lets +onlyGivenNames x; clear_value x; rename' x => z)
    | (extract_lets +onlyGivenNames x; rename' x => z)
    | dsimp -zeta only
    | with_reducible apply State.putLeaf_frame
    | with_reducible apply Within.ite
    | fail_if_no_progress (with_reducible refine Within.put (a := []) ?_ rfl rfl rfl rfl rfl)
    | split

theorem State.queueDie_frame {ps s t} leaf die (h : Within ps s t) (hp : Part.sub [.block 13, .block 14, .block 20, .sig, .lfl, .map, .store, .out] ps = true) : Within ps s (State.queueDie t leaf die) := by
  refine h.step (a := [.block 13, .block 14, .block 20, .sig, .lfl, .map, .store, .out]) ?_ hp
  unfold State.queueDie
  repeat' first
    | with_reducible exact Within.refl _ _
    | with_reducible assumption
    | (show Part.sub _ _ = true; rfl)
    | dsimp -zeta only
    | with_reducible apply State.closeQuire_frame
    | with_reducible apply State.queueQuire_frame
    | with_reducible apply Within.ite
    | (with_reducible refine Within.foldl _ ?_ ?_; rotate_left; intro _ _)
    | (with_reducible refine Within.foldl_snd _ ?_ ?_; rotate_left; intro _ _)
    | split

theorem State.noteDies_frame {ps s t} leaf (h : Within ps s t) (hp : Part.sub [.block 15] ps = true) : Within ps s (State.noteDies t leaf) := by
  refine h.step (a := [.block 15]) ?_ hp
  unfold State.noteDies
  repeat' first
    | with_reducible exact Within.refl _ _
    | with_reducible assumption
    | (show Part.sub _ _ = true; rfl)
    | (extract_lets +onlyGivenNames x; with_reducible refine Within.cut (u := x) ?_ ?_; rotate_left; intro hx; clear_value x; rename' x => y; rotate_right; unfold x; clear x)
    | (extract_lets +onlyGivenNames x; clear_value x; rename' x => z)
    | (extract_lets +onlyGivenNames x; rename' x => z)
    | dsimp -zeta only
    | with_reducible apply State.wr_frame
    | with_reducible apply Within.ite
    | fail_if_no_progress (with_reducible refine Within.put (a := []) ?_ rfl rfl rfl rfl rfl)
    | split

theorem State.retireDie_frame {ps s t} leaf die (h : Within ps s t) (hp : Part.sub [.block 4, .block 6, .block 13, .block 14, .block 15, .block 20, .evt, .nor, .host, .cmd, .sig, .lfl, .map, .store, .out, .hostWait] ps = true) : Within ps s (State.retireDie t leaf die) := by
  refine h.step (a := [.block 4, .block 6, .block 13, .block 14, .block 15, .block 20, .evt, .nor, .host, .cmd, .sig, .lfl, .map, .store, .out, .hostWait]) ?_ hp
  unfold State.retireDie
  repeat' first
    | with_reducible exact Within.refl _ _
    | with_reducible assumption
    | (show Part.sub _ _ = true; rfl)
    | (extract_lets +onlyGivenNames x; with_reducible refine Within.cut (u := x) ?_ ?_; rotate_left; intro hx; clear_value x; rename' x => y; rotate_right; unfold x; clear x)
    | (extract_lets +onlyGivenNames x; clear_value x; rename' x => z)
    | (extract_lets +onlyGivenNames x; rename' x => z)
    | dsimp -zeta only
    | with_reducible apply State.event_frame
    | with_reducible apply State.event1_frame
    | with_reducible apply State.putLeaf_frame
    | with_reducible apply State.noteLeaf_frame
    | with_reducible apply State.queueDie_frame
    | with_reducible apply State.noteDies_frame
    | with_reducible apply Within.ite
    | fail_if_no_progress (with_reducible refine Within.put (a := []) ?_ rfl rfl rfl rfl rfl)
    | split

theorem State.unreadable_frame {ps s t} r (h : Within ps s t) (hp : Part.sub [.regs, .holding, .evt, .nor, .host, .cmd, .ddp, .keys, .sig, .lfl, .map, .rep, .prg, .chan, .store, .mem, .free, .out, .hostWait] ps = true) : Within ps s (State.unreadable t r) := by
  refine h.step (a := [.regs, .holding, .evt, .nor, .host, .cmd, .ddp, .keys, .sig, .lfl, .map, .rep, .prg, .chan, .store, .mem, .free, .out, .hostWait]) ?_ hp
  unfold State.unreadable
  repeat' first
    | with_reducible exact Within.refl _ _
    | with_reducible assumption
    | (show Part.sub _ _ = true; rfl)
    | (extract_lets +onlyGivenNames x; with_reducible refine Within.cut (u := x) ?_ ?_; rotate_left; intro hx; clear_value x; rename' x => y; rotate_right; unfold x; clear x)
    | (extract_lets +onlyGivenNames x; clear_value x; rename' x => z)
    | (extract_lets +onlyGivenNames x; rename' x => z)
    | dsimp -zeta only
    | with_reducible apply State.bump_frame
    | with_reducible apply State.event_frame
    | with_reducible apply State.degradeWord_frame
    | with_reducible apply State.degrade_frame
    | with_reducible apply State.noteWord_frame
    | with_reducible apply State.retireDie_frame
    | with_reducible apply Within.ite
    | fail_if_no_progress (with_reducible refine Within.put (a := []) ?_ rfl rfl rfl rfl rfl)
    | split

theorem State.nextStep_frame {ps s t} r fixed older (h : Within ps s t) (hp : Part.sub [.regs, .holding, .evt, .nor, .host, .cmd, .ddp, .keys, .sig, .lfl, .map, .rep, .prg, .chan, .store, .mem, .free, .out, .hostWait] ps = true) : Within ps s (State.nextStep t r fixed older) := by
  refine h.step (a := [.regs, .holding, .evt, .nor, .host, .cmd, .ddp, .keys, .sig, .lfl, .map, .rep, .prg, .chan, .store, .mem, .free, .out, .hostWait]) ?_ hp
  unfold State.nextStep
  repeat' first
    | with_reducible exact Within.refl _ _
    | with_reducible assumption
    | (show Part.sub _ _ = true; rfl)
    | (extract_lets +onlyGivenNames x; with_reducible refine Within.cut (u := x) ?_ ?_; rotate_left; intro hx; clear_value x; rename' x => y; rotate_right; unfold x; clear x)
    | (extract_lets +onlyGivenNames x; clear_value x; rename' x => z)
    | (extract_lets +onlyGivenNames x; rename' x => z)
    | dsimp -zeta only
    | with_reducible apply State.bump_frame
    | with_reducible apply State.sendRead_frame
    | with_reducible apply State.noteWord_frame
    | with_reducible apply State.unreadable_frame
    | with_reducible apply Within.ite
    | fail_if_no_progress (with_reducible refine Within.put (a := []) ?_ rfl rfl rfl rfl rfl)
    | split

theorem State.installPlan_frame {ps s t} leaf die p (h : Within ps s t) (hp : Part.sub [.lfl, .out] ps = true) : Within ps s (State.installPlan t leaf die p) := by
  refine h.step (a := [.lfl, .out]) ?_ hp
  unfold State.installPlan
  repeat' first
    | with_reducible exact Within.refl _ _
    | with_reducible assumption
    | (show Part.sub _ _ = true; rfl)
    | (extract_lets +onlyGivenNames x; with_reducible refine Within.cut (u := x) ?_ ?_; rotate_left; intro hx; clear_value x; rename' x => y; rotate_right; unfold x; clear x)
    | (extract_lets +onlyGivenNames x; clear_value x; rename' x => z)
    | (extract_lets +onlyGivenNames x; rename' x => z)
    | dsimp -zeta only
    | with_reducible apply State.leafOp_frame
    | with_reducible apply Within.ite
    | fail_if_no_progress (with_reducible refine Within.put (a := []) ?_ rfl rfl rfl rfl rfl)
    | split

theorem State.valleyRead_frame {ps s t} r fixed (h : Within ps s t) (hp : Part.sub [.lfl] ps = true) : Within ps s (State.valleyRead t r fixed) := by
  refine h.step (a := [.lfl]) ?_ hp
  unfold State.valleyRead
  repeat' first
    | with_reducible exact Within.refl _ _
    | with_reducible assumption
    | (show Part.sub _ _ = true; rfl)
    | (extract_lets +onlyGivenNames x; with_reducible refine Within.cut (u := x) ?_ ?_; rotate_left; intro hx; clear_value x; rename' x => y; rotate_right; unfold x; clear x)
    | (extract_lets +onlyGivenNames x; clear_value x; rename' x => z)
    | (extract_lets +onlyGivenNames x; rename' x => z)
    | dsimp -zeta only
    | with_reducible apply State.putLeaf_frame
    | with_reducible apply Within.ite
    | fail_if_no_progress (with_reducible refine Within.put (a := []) ?_ rfl rfl rfl rfl rfl)
    | split

theorem State.valleyEnd_frame {ps s t} r (h : Within ps s t) (hp : Part.sub [.lfl, .out] ps = true) : Within ps s (State.valleyEnd t r) := by
  refine h.step (a := [.lfl, .out]) ?_ hp
  unfold State.valleyEnd
  repeat' first
    | with_reducible exact Within.refl _ _
    | with_reducible assumption
    | (show Part.sub _ _ = true; rfl)
    | (extract_lets +onlyGivenNames x; with_reducible refine Within.cut (u := x) ?_ ?_; rotate_left; intro hx; clear_value x; rename' x => y; rotate_right; unfold x; clear x)
    | (extract_lets +onlyGivenNames x; clear_value x; rename' x => z)
    | (extract_lets +onlyGivenNames x; rename' x => z)
    | dsimp -zeta only
    | with_reducible apply State.putLeaf_frame
    | with_reducible apply State.installPlan_frame
    | with_reducible apply Within.ite
    | fail_if_no_progress (with_reducible refine Within.put (a := []) ?_ rfl rfl rfl rfl rfl)
    | split

theorem State.takeWord_frame {ps s t} r older w (h : Within ps s t) (hp : Part.sub [.regs, .holding, .evt, .nor, .host, .cmd, .ddp, .keys, .sig, .lfl, .map, .rep, .prg, .chan, .store, .mem, .free, .out, .hostWait] ps = true) : Within ps s (State.takeWord t r older w) := by
  refine h.step (a := [.regs, .holding, .evt, .nor, .host, .cmd, .ddp, .keys, .sig, .lfl, .map, .rep, .prg, .chan, .store, .mem, .free, .out, .hostWait]) ?_ hp
  unfold State.takeWord
  repeat' first
    | with_reducible exact Within.refl _ _
    | with_reducible assumption
    | (show Part.sub _ _ = true; rfl)
    | (extract_lets +onlyGivenNames x; with_reducible refine Within.cut (u := x) ?_ ?_; rotate_left; intro hx; clear_value x; rename' x => y; rotate_right; unfold x; clear x)
    | (extract_lets +onlyGivenNames x; clear_value x; rename' x => z)
    | (extract_lets +onlyGivenNames x; rename' x => z)
    | dsimp -zeta only
    | with_reducible apply State.bump_frame
    | with_reducible apply State.deliverWord_frame
    | with_reducible apply State.noteWord_frame
    | with_reducible apply State.nextStep_frame
    | with_reducible apply State.valleyRead_frame
    | with_reducible apply Within.ite
    | fail_if_no_progress (with_reducible refine Within.put (a := []) ?_ rfl rfl rfl rfl rfl)
    | split

theorem execLeafReadCompletion_frame id used current words s : Lands [.regs, .holding, .evt, .nor, .host, .cmd, .ddp, .keys, .wc, .sig, .lfl, .map, .rep, .prg, .chan, .store, .mem, .free, .out, .hostWait] s (execLeafReadCompletion id used current words s) := by
  unfold execLeafReadCompletion
  repeat' first
    | with_reducible exact Within.refl _ _
    | with_reducible assumption
    | (show Part.sub _ _ = true; rfl)
    | with_reducible apply Lands.next
    | (extract_lets +onlyGivenNames x; with_reducible refine Lands.cut (u := x) ?_ ?_; rotate_left; intro hx; clear_value x; rename' x => y; rotate_right; unfold x; clear x)
    | (extract_lets +onlyGivenNames x; with_reducible refine Within.cut (u := x) ?_ ?_; rotate_left; intro hx; clear_value x; rename' x => y; rotate_right; unfold x; clear x)
    | (extract_lets +onlyGivenNames x; clear_value x; rename' x => z)
    | (extract_lets +onlyGivenNames x; rename' x => z)
    | dsimp -zeta only
    | with_reducible apply State.endLeafOp_frame
    | with_reducible apply State.settleReadsOf_frame
    | with_reducible apply State.noteWord_frame
    | with_reducible apply State.valleyEnd_frame
    | with_reducible apply State.takeWord_frame
    | with_reducible apply Lands.ite
    | with_reducible apply Within.ite
    | (with_reducible refine Within.foldl _ ?_ ?_; rotate_left; intro _ _)
    | (with_reducible refine Within.foldl_snd _ ?_ ?_; rotate_left; intro _ _)
    | fail_if_no_progress (with_reducible refine Within.put (a := []) ?_ rfl rfl rfl rfl rfl)
    | split

theorem State.overtake_frame {ps s t} id op r proxied (h : Within ps s t) (hp : Part.sub [.block 4, .block 6, .block 14, .evt, .nor, .host, .lfl, .out, .hostWait] ps = true) : Within ps s (State.overtake t id op r proxied) := by
  refine h.step (a := [.block 4, .block 6, .block 14, .evt, .nor, .host, .lfl, .out, .hostWait]) ?_ hp
  unfold State.overtake
  repeat' first
    | with_reducible exact Within.refl _ _
    | with_reducible assumption
    | (show Part.sub _ _ = true; rfl)
    | (extract_lets +onlyGivenNames x; with_reducible refine Within.cut (u := x) ?_ ?_; rotate_left; intro hx; clear_value x; rename' x => y; rotate_right; unfold x; clear x)
    | (extract_lets +onlyGivenNames x; clear_value x; rename' x => z)
    | (extract_lets +onlyGivenNames x; rename' x => z)
    | dsimp -zeta only
    | with_reducible apply State.bump_frame
    | with_reducible apply State.event1_frame
    | with_reducible apply Within.ite
    | fail_if_no_progress (with_reducible refine Within.put (a := [.lfl]) ?_ rfl rfl rfl rfl rfl)
    | split

theorem State.askMember_frame {ps s t} q quire d x n (h : Within ps s t) (hp : Part.sub [.lfl, .chan, .out] ps = true) : Within ps s (State.askMember t q quire d x n) := by
  refine h.step (a := [.lfl, .chan, .out]) ?_ hp
  unfold State.askMember
  repeat' first
    | with_reducible exact Within.refl _ _
    | with_reducible assumption
    | (show Part.sub _ _ = true; rfl)
    | dsimp -zeta only
    | with_reducible apply State.sendRead_frame
    | with_reducible apply Within.ite
    | fail_if_no_progress (with_reducible refine Within.put (a := [.lfl]) ?_ rfl rfl rfl rfl rfl)
    | split

theorem State.slowRead_frame {ps s t} id op r proxied (h : Within ps s t) (hp : Part.sub [.regs, .holding, .evt, .nor, .host, .cmd, .ddp, .keys, .sig, .lfl, .map, .rep, .prg, .chan, .store, .mem, .free, .out, .hostWait] ps = true) : Within ps s (State.slowRead t id op r proxied) := by
  refine h.step (a := [.regs, .holding, .evt, .nor, .host, .cmd, .ddp, .keys, .sig, .lfl, .map, .rep, .prg, .chan, .store, .mem, .free, .out, .hostWait]) ?_ hp
  unfold State.slowRead
  repeat' first
    | with_reducible exact Within.refl _ _
    | with_reducible assumption
    | (show Part.sub _ _ = true; rfl)
    | dsimp -zeta only
    | with_reducible apply State.degradeWords_frame
    | with_reducible apply State.overtake_frame
    | with_reducible apply State.askMember_frame
    | with_reducible apply Within.ite
    | fail_if_no_progress (with_reducible refine Within.put (a := []) ?_ rfl rfl rfl rfl rfl)
    | split

theorem execSlowMemberTimeout_frame id s : Lands [.regs, .holding, .evt, .nor, .host, .cmd, .ddp, .keys, .sig, .lfl, .map, .rep, .prg, .chan, .store, .mem, .free, .out, .hostWait] s (execSlowMemberTimeout id s) := by
  unfold execSlowMemberTimeout
  repeat' first
    | with_reducible exact Within.refl _ _
    | with_reducible assumption
    | (show Part.sub _ _ = true; rfl)
    | with_reducible apply Lands.next
    | dsimp -zeta only
    | with_reducible apply State.slowRead_frame
    | with_reducible apply Lands.ite
    | with_reducible apply Within.ite
    | fail_if_no_progress (with_reducible refine Within.put (a := []) ?_ rfl rfl rfl rfl rfl)
    | split

theorem execProxyLeafRead_frame id leaf unit folio first count s : Lands [.lfl, .chan, .out] s (execProxyLeafRead id leaf unit folio first count s) := by
  unfold execProxyLeafRead
  repeat' first
    | with_reducible exact Within.refl _ _
    | with_reducible assumption
    | (show Part.sub _ _ = true; rfl)
    | with_reducible apply Lands.next
    | (extract_lets +onlyGivenNames x; with_reducible refine Lands.cut (u := x) ?_ ?_; rotate_left; intro hx; clear_value x; rename' x => y; rotate_right; unfold x; clear x)
    | (extract_lets +onlyGivenNames x; with_reducible refine Within.cut (u := x) ?_ ?_; rotate_left; intro hx; clear_value x; rename' x => y; rotate_right; unfold x; clear x)
    | (extract_lets +onlyGivenNames x; clear_value x; rename' x => z)
    | (extract_lets +onlyGivenNames x; rename' x => z)
    | dsimp -zeta only
    | with_reducible apply State.sendRing_frame
    | with_reducible apply State.sendRead_frame
    | with_reducible apply Lands.ite
    | with_reducible apply Within.ite
    | fail_if_no_progress (with_reducible refine Within.put (a := []) ?_ rfl rfl rfl rfl rfl)
    | split

theorem execProxyReadData_frame id words s : Lands [.regs, .holding, .evt, .nor, .host, .cmd, .ddp, .keys, .wc, .sig, .lfl, .map, .rep, .prg, .chan, .store, .mem, .free, .out, .hostWait] s (execProxyReadData id words s) := by
  unfold execProxyReadData
  repeat' first
    | with_reducible exact Within.refl _ _
    | with_reducible assumption
    | (show Part.sub _ _ = true; rfl)
    | with_reducible apply Lands.next
    | (extract_lets +onlyGivenNames x; with_reducible refine Lands.cut (u := x) ?_ ?_; rotate_left; intro hx; clear_value x; rename' x => y; rotate_right; unfold x; clear x)
    | (extract_lets +onlyGivenNames x; with_reducible refine Within.cut (u := x) ?_ ?_; rotate_left; intro hx; clear_value x; rename' x => y; rotate_right; unfold x; clear x)
    | (extract_lets +onlyGivenNames x; clear_value x; rename' x => z)
    | (extract_lets +onlyGivenNames x; rename' x => z)
    | dsimp -zeta only
    | with_reducible apply State.deliverWord_frame
    | with_reducible apply State.degradeWords_frame
    | with_reducible apply State.degrade_frame
    | with_reducible apply State.settleReadsOf_frame
    | with_reducible apply Lands.ite
    | with_reducible apply Within.ite
    | (with_reducible refine Within.foldl _ ?_ ?_; rotate_left; intro _ _)
    | (with_reducible refine Within.foldl_snd _ ?_ ?_; rotate_left; intro _ _)
    | fail_if_no_progress (with_reducible refine Within.put (a := [.lfl]) ?_ rfl rfl rfl rfl rfl)
    | split

theorem execRemoteRead_frame pair tag piece loc s : Lands [.cmd] s (execRemoteRead pair tag piece loc s) := by
  unfold execRemoteRead
  repeat' first
    | with_reducible exact Within.refl _ _
    | with_reducible assumption
    | (show Part.sub _ _ = true; rfl)
    | with_reducible apply Lands.next
    | dsimp -zeta only
    | with_reducible apply State.askFetch_frame
    | with_reducible apply Lands.ite
    | with_reducible apply Within.ite
    | split

theorem State.remoteDone_frame {ps s t} f (h : Within ps s t) (hp : Part.sub [.ddp] ps = true) : Within ps s (State.remoteDone t f) := by
  refine h.step (a := [.ddp]) ?_ hp
  unfold State.remoteDone
  repeat' first
    | with_reducible exact Within.refl _ _
    | with_reducible assumption
    | (show Part.sub _ _ = true; rfl)
    | dsimp -zeta only
    | with_reducible apply Within.ite
    | fail_if_no_progress (with_reducible refine Within.put (a := [.ddp]) ?_ rfl rfl rfl rfl rfl)
    | split

theorem execRemoteReadData_frame tag piece container s : Lands [.block 4, .block 6, .block 10, .block 11, .block 18, .evt, .nor, .host, .cmd, .ddp, .keys, .sig, .rep, .prg, .chan, .free, .out, .hostWait] s (execRemoteReadData tag piece container s) := by
  unfold execRemoteReadData
  repeat' first
    | with_reducible exact Within.refl _ _
    | with_reducible assumption
    | (show Part.sub _ _ = true; rfl)
    | with_reducible apply Lands.next
    | dsimp -zeta only
    | with_reducible apply State.modChunk_frame
    | with_reducible apply State.modPiece_frame
    | with_reducible apply State.deliverCopy_frame
    | with_reducible apply State.spanCopy_frame
    | with_reducible apply State.remoteDone_frame
    | with_reducible apply Lands.ite
    | with_reducible apply Within.ite
    | fail_if_no_progress (with_reducible refine Within.put (a := []) ?_ rfl rfl rfl rfl rfl)
    | split

end Sys2Proof.Machine
end

