-- ==== Sys2Proof/Laws/FrameKeys.lean ====
section
/-!
SUPPORT. Laws/FrameKeys.lean: what the definitions of Machine/Keys.lean leave alone: each changes the listed parts at most, and keeps the
canonical form.
-/
namespace Sys2Proof.Machine
open Sys2Proof

set_option Elab.async false
set_option linter.all false

theorem State.noteKeys_frame {ps s t}  (h : Within ps s t) (hp : Part.sub [.block 21] ps = true) : Within ps s (State.noteKeys t) := by
  refine h.step (a := [.block 21]) ?_ hp
  unfold State.noteKeys
  repeat' first
    | with_reducible exact Within.refl _ _
    | with_reducible assumption
    | (show Part.sub _ _ = true; rfl)
    | (extract_lets +onlyGivenNames x; with_reducible refine Within.cut (u := x) ?_ ?_; rotate_left; intro hx; clear_value x; rename' x => y; rotate_right; unfold x; clear x)
    | (extract_lets +onlyGivenNames x; clear_value x; rename' x => z)
    | (extract_lets +onlyGivenNames x; rename' x => z)
    | dsimp -zeta only
    | with_reducible apply State.wr_frame
    | with_reducible apply Within.ite
    | split

theorem State.setCipher_frame {ps s t} n k (h : Within ps s t) (hp : Part.sub [.block 21, .keys] ps = true) : Within ps s (State.setCipher t n k) := by
  refine h.step (a := [.block 21, .keys]) ?_ hp
  unfold State.setCipher
  repeat' first
    | with_reducible exact Within.refl _ _
    | with_reducible assumption
    | (show Part.sub _ _ = true; rfl)
    | dsimp -zeta only
    | with_reducible apply State.noteKeys_frame
    | with_reducible apply Within.ite
    | fail_if_no_progress (with_reducible refine Within.put (a := [.keys]) ?_ rfl rfl rfl rfl rfl)
    | split

theorem State.sealCipher_frame {ps s t} n k (h : Within ps s t) (hp : Part.sub [.block 21, .keys, .free] ps = true) : Within ps s (State.sealCipher t n k) := by
  refine h.step (a := [.block 21, .keys, .free]) ?_ hp
  unfold State.sealCipher
  repeat' first
    | with_reducible exact Within.refl _ _
    | with_reducible assumption
    | (show Part.sub _ _ = true; rfl)
    | (extract_lets +onlyGivenNames x; with_reducible refine Within.cut (u := x) ?_ ?_; rotate_left; intro hx; clear_value x; rename' x => y; rotate_right; unfold x; clear x)
    | (extract_lets +onlyGivenNames x; clear_value x; rename' x => z)
    | (extract_lets +onlyGivenNames x; rename' x => z)
    | dsimp -zeta only
    | with_reducible apply State.fresh_frame
    | with_reducible apply State.setCipher_frame
    | with_reducible apply Within.ite
    | fail_if_no_progress (with_reducible refine Within.put (a := []) ?_ rfl rfl rfl rfl rfl)
    | split
    | (with_reducible refine Within.of_pair (by assumption) ?_)

theorem State.setLedger_frame {ps s t} n l (h : Within ps s t) (hp : Part.sub [.keys] ps = true) : Within ps s (State.setLedger t n l) := by
  refine h.step (a := [.keys]) ?_ hp
  unfold State.setLedger
  repeat' first
    | with_reducible exact Within.refl _ _
    | with_reducible assumption
    | (show Part.sub _ _ = true; rfl)
    | dsimp -zeta only
    | with_reducible apply Within.ite
    | fail_if_no_progress (with_reducible refine Within.put (a := [.keys]) ?_ rfl rfl rfl rfl rfl)
    | split

theorem State.restartCounters_frame {ps s t} slot (h : Within ps s t) (hp : Part.sub [.rep] ps = true) : Within ps s (State.restartCounters t slot) := by
  refine h.step (a := [.rep]) ?_ hp
  unfold State.restartCounters
  repeat' first
    | with_reducible exact Within.refl _ _
    | with_reducible assumption
    | (show Part.sub _ _ = true; rfl)
    | dsimp -zeta only
    | with_reducible apply Within.ite
    | fail_if_no_progress (with_reducible refine Within.put (a := [.rep]) ?_ rfl rfl rfl rfl rfl)
    | split

theorem State.loadCipher_frame {ps s t} bt k key (h : Within ps s t) (hp : Part.sub [.block 21, .keys, .free] ps = true) : Within ps s (State.loadCipher t bt k key) := by
  refine h.step (a := [.block 21, .keys, .free]) ?_ hp
  unfold State.loadCipher
  repeat' first
    | with_reducible exact Within.refl _ _
    | with_reducible assumption
    | (show Part.sub _ _ = true; rfl)
    | (extract_lets +onlyGivenNames x; with_reducible refine Within.cut (u := x) ?_ ?_; rotate_left; intro hx; clear_value x; rename' x => y; rotate_right; unfold x; clear x)
    | (extract_lets +onlyGivenNames x; clear_value x; rename' x => z)
    | (extract_lets +onlyGivenNames x; rename' x => z)
    | dsimp -zeta only
    | with_reducible apply State.sealCipher_frame
    | with_reducible apply State.setLedger_frame
    | with_reducible apply Within.ite
    | fail_if_no_progress (with_reducible refine Within.put (a := [.keys]) ?_ rfl rfl rfl rfl rfl)
    | split

theorem State.restoreCipher_frame {ps s t} bt k key (h : Within ps s t) (hp : Part.sub [.block 21, .keys, .free] ps = true) : Within ps s (State.restoreCipher t bt k key) := by
  refine h.step (a := [.block 21, .keys, .free]) ?_ hp
  unfold State.restoreCipher
  repeat' first
    | with_reducible exact Within.refl _ _
    | with_reducible assumption
    | (show Part.sub _ _ = true; rfl)
    | (extract_lets +onlyGivenNames x; with_reducible refine Within.cut (u := x) ?_ ?_; rotate_left; intro hx; clear_value x; rename' x => y; rotate_right; unfold x; clear x)
    | (extract_lets +onlyGivenNames x; clear_value x; rename' x => z)
    | (extract_lets +onlyGivenNames x; rename' x => z)
    | dsimp -zeta only
    | with_reducible apply State.sealCipher_frame
    | with_reducible apply Within.ite
    | fail_if_no_progress (with_reducible refine Within.put (a := []) ?_ rfl rfl rfl rfl rfl)
    | split

theorem State.loadSak_frame {ps s t} k key (h : Within ps s t) (hp : Part.sub [.ports] ps = true) : Within ps s (State.loadSak t k key) := by
  refine h.step (a := [.ports]) ?_ hp
  unfold State.loadSak
  repeat' first
    | with_reducible exact Within.refl _ _
    | with_reducible assumption
    | (show Part.sub _ _ = true; rfl)
    | (extract_lets +onlyGivenNames x; with_reducible refine Within.cut (u := x) ?_ ?_; rotate_left; intro hx; clear_value x; rename' x => y; rotate_right; unfold x; clear x)
    | (extract_lets +onlyGivenNames x; clear_value x; rename' x => z)
    | (extract_lets +onlyGivenNames x; rename' x => z)
    | dsimp -zeta only
    | with_reducible apply Within.ite
    | fail_if_no_progress (with_reducible refine Within.put (a := [.ports]) ?_ rfl rfl rfl rfl rfl)
    | split

theorem State.endKeyWaits_frame {ps s t} slot code (h : Within ps s t) (hp : Part.sub [.block 4, .block 6, .block 12, .block 13, .block 19, .block 20, .evt, .nor, .host, .cmd, .ddp, .keys, .sig, .lfl, .map, .prg, .chan, .store, .out, .hostWait] ps = true) : Within ps s (State.endKeyWaits t slot code) := by
  refine h.step (a := [.block 4, .block 6, .block 12, .block 13, .block 19, .block 20, .evt, .nor, .host, .cmd, .ddp, .keys, .sig, .lfl, .map, .prg, .chan, .store, .out, .hostWait]) ?_ hp
  unfold State.endKeyWaits
  repeat' first
    | with_reducible exact Within.refl _ _
    | with_reducible assumption
    | (show Part.sub _ _ = true; rfl)
    | dsimp -zeta only
    | with_reducible apply State.failWrite_frame
    | with_reducible apply Within.ite
    | (with_reducible refine Within.foldl _ ?_ ?_; rotate_left; intro _ _)
    | (with_reducible refine Within.foldl_snd _ ?_ ?_; rotate_left; intro _ _)
    | split

theorem State.dropStates_frame {ps s t} slot (h : Within ps s t) (hp : Part.sub [.bnd] ps = true) : Within ps s (State.dropStates t slot) := by
  refine h.step (a := [.bnd]) ?_ hp
  unfold State.dropStates
  repeat' first
    | with_reducible exact Within.refl _ _
    | with_reducible assumption
    | (show Part.sub _ _ = true; rfl)
    | dsimp -zeta only
    | with_reducible apply Within.ite
    | fail_if_no_progress (with_reducible refine Within.put (a := [.bnd]) ?_ rfl rfl rfl rfl rfl)
    | split

theorem State.damageSlot_frame {ps s t} kind n (h : Within ps s t) (hp : Part.sub [.block 4, .block 6, .block 12, .block 13, .block 19, .block 20, .block 21, .evt, .nor, .host, .cmd, .bnd, .ddp, .keys, .sig, .lfl, .map, .prg, .chan, .store, .out, .hostWait] ps = true) : Within ps s (State.damageSlot t kind n) := by
  refine h.step (a := [.block 4, .block 6, .block 12, .block 13, .block 19, .block 20, .block 21, .evt, .nor, .host, .cmd, .bnd, .ddp, .keys, .sig, .lfl, .map, .prg, .chan, .store, .out, .hostWait]) ?_ hp
  unfold State.damageSlot
  repeat' first
    | with_reducible exact Within.refl _ _
    | with_reducible assumption
    | (show Part.sub _ _ = true; rfl)
    | (extract_lets +onlyGivenNames x; with_reducible refine Within.cut (u := x) ?_ ?_; rotate_left; intro hx; clear_value x; rename' x => y; rotate_right; unfold x; clear x)
    | (extract_lets +onlyGivenNames x; clear_value x; rename' x => z)
    | (extract_lets +onlyGivenNames x; rename' x => z)
    | dsimp -zeta only
    | with_reducible apply State.event1_frame
    | with_reducible apply State.noteKeys_frame
    | with_reducible apply State.setCipher_frame
    | with_reducible apply State.endKeyWaits_frame
    | with_reducible apply State.dropStates_frame
    | with_reducible apply Within.ite
    | fail_if_no_progress (with_reducible refine Within.put (a := [.keys]) ?_ rfl rfl rfl rfl rfl)
    | split

theorem State.resealSlot_frame {ps s t} kind n second (h : Within ps s t) (hp : Part.sub [.keys, .free] ps = true) : Within ps s (State.resealSlot t kind n second) := by
  refine h.step (a := [.keys, .free]) ?_ hp
  unfold State.resealSlot
  repeat' first
    | with_reducible exact Within.refl _ _
    | with_reducible assumption
    | (show Part.sub _ _ = true; rfl)
    | (extract_lets +onlyGivenNames x; with_reducible refine Within.cut (u := x) ?_ ?_; rotate_left; intro hx; clear_value x; rename' x => y; rotate_right; unfold x; clear x)
    | (extract_lets +onlyGivenNames x; clear_value x; rename' x => z)
    | (extract_lets +onlyGivenNames x; rename' x => z)
    | dsimp -zeta only
    | with_reducible apply State.fresh_frame
    | with_reducible apply Within.ite
    | fail_if_no_progress (with_reducible refine Within.put (a := [.keys]) ?_ rfl rfl rfl rfl rfl)
    | split
    | (with_reducible refine Within.of_pair (by assumption) ?_)

theorem State.setDigest_frame {ps s t} slot tenant key (h : Within ps s t) (hp : Part.sub [.bnd, .keys, .free] ps = true) : Within ps s (State.setDigest t slot tenant key) := by
  refine h.step (a := [.bnd, .keys, .free]) ?_ hp
  unfold State.setDigest
  repeat' first
    | with_reducible exact Within.refl _ _
    | with_reducible assumption
    | (show Part.sub _ _ = true; rfl)
    | (extract_lets +onlyGivenNames x; with_reducible refine Within.cut (u := x) ?_ ?_; rotate_left; intro hx; clear_value x; rename' x => y; rotate_right; unfold x; clear x)
    | (extract_lets +onlyGivenNames x; clear_value x; rename' x => z)
    | (extract_lets +onlyGivenNames x; rename' x => z)
    | dsimp -zeta only
    | with_reducible apply State.fresh_frame
    | with_reducible apply State.dropStates_frame
    | with_reducible apply Within.ite
    | fail_if_no_progress (with_reducible refine Within.put (a := [.keys]) ?_ rfl rfl rfl rfl rfl)
    | split
    | (with_reducible refine Within.of_pair (by assumption) ?_)

theorem State.damageAny_frame {ps s t} d (h : Within ps s t) (hp : Part.sub [.block 4, .block 6, .block 12, .block 13, .block 19, .block 20, .block 21, .evt, .nor, .host, .cmd, .bnd, .ddp, .keys, .sig, .lfl, .map, .prg, .chan, .store, .free, .out, .hostWait] ps = true) : Within ps s (State.damageAny t d) := by
  refine h.step (a := [.block 4, .block 6, .block 12, .block 13, .block 19, .block 20, .block 21, .evt, .nor, .host, .cmd, .bnd, .ddp, .keys, .sig, .lfl, .map, .prg, .chan, .store, .free, .out, .hostWait]) ?_ hp
  unfold State.damageAny
  repeat' first
    | with_reducible exact Within.refl _ _
    | with_reducible assumption
    | (show Part.sub _ _ = true; rfl)
    | dsimp -zeta only
    | with_reducible apply State.damageSlot_frame
    | with_reducible apply State.resealSlot_frame
    | with_reducible apply Within.ite
    | fail_if_no_progress (with_reducible refine Within.put (a := []) ?_ rfl rfl rfl rfl rfl)
    | split

theorem execKeyLoad_frame c load damaged s : Lands [.block 4, .block 6, .block 12, .block 13, .block 19, .block 20, .block 21, .evt, .nor, .host, .ports, .cmd, .bnd, .ddp, .keys, .sig, .lfl, .map, .rep, .prg, .chan, .store, .free, .out, .hostWait] s (execKeyLoad c load damaged s) := by
  unfold execKeyLoad
  repeat' first
    | with_reducible exact Within.refl _ _
    | with_reducible assumption
    | (show Part.sub _ _ = true; rfl)
    | with_reducible apply Lands.next
    | (extract_lets +onlyGivenNames x; with_reducible refine Lands.cut (u := x) ?_ ?_; rotate_left; intro hx; clear_value x; rename' x => y; rotate_right; unfold x; clear x)
    | (extract_lets +onlyGivenNames x; with_reducible refine Within.cut (u := x) ?_ ?_; rotate_left; intro hx; clear_value x; rename' x => y; rotate_right; unfold x; clear x)
    | (extract_lets +onlyGivenNames x; clear_value x; rename' x => z)
    | (extract_lets +onlyGivenNames x; rename' x => z)
    | dsimp -zeta only
    | with_reducible apply State.bump_frame
    | with_reducible apply State.complete_frame
    | with_reducible apply State.ringGate_frame
    | with_reducible apply State.noteKeys_frame
    | with_reducible apply State.restartCounters_frame
    | with_reducible apply State.loadCipher_frame
    | with_reducible apply State.restoreCipher_frame
    | with_reducible apply State.loadSak_frame
    | with_reducible apply State.setDigest_frame
    | with_reducible apply State.damageAny_frame
    | intro _
    | with_reducible apply Lands.ite
    | with_reducible apply Within.ite
    | fail_if_no_progress (with_reducible refine Within.put (a := []) ?_ rfl rfl rfl rfl rfl)
    | split

theorem execKeyRetire_frame c slot s : Lands [.block 21, .host, .keys, .free, .out, .hostWait] s (execKeyRetire c slot s) := by
  unfold execKeyRetire
  repeat' first
    | with_reducible exact Within.refl _ _
    | with_reducible assumption
    | (show Part.sub _ _ = true; rfl)
    | with_reducible apply Lands.next
    | (extract_lets +onlyGivenNames x; with_reducible refine Lands.cut (u := x) ?_ ?_; rotate_left; intro hx; clear_value x; rename' x => y; rotate_right; unfold x; clear x)
    | (extract_lets +onlyGivenNames x; with_reducible refine Within.cut (u := x) ?_ ?_; rotate_left; intro hx; clear_value x; rename' x => y; rotate_right; unfold x; clear x)
    | (extract_lets +onlyGivenNames x; clear_value x; rename' x => z)
    | (extract_lets +onlyGivenNames x; rename' x => z)
    | dsimp -zeta only
    | with_reducible apply State.complete_frame
    | with_reducible apply State.ringGate_frame
    | with_reducible apply State.sealCipher_frame
    | with_reducible apply State.setLedger_frame
    | intro _
    | with_reducible apply Lands.ite
    | with_reducible apply Within.ite
    | fail_if_no_progress (with_reducible refine Within.put (a := []) ?_ rfl rfl rfl rfl rfl)
    | split

theorem State.emptyDigest_frame {ps s t} slot (h : Within ps s t) (hp : Part.sub [.block 4, .block 6, .block 12, .block 13, .block 19, .block 20, .block 21, .evt, .nor, .host, .cmd, .bnd, .ddp, .keys, .sig, .lfl, .map, .prg, .chan, .store, .out, .hostWait] ps = true) : Within ps s (State.emptyDigest t slot) := by
  refine h.step (a := [.block 4, .block 6, .block 12, .block 13, .block 19, .block 20, .block 21, .evt, .nor, .host, .cmd, .bnd, .ddp, .keys, .sig, .lfl, .map, .prg, .chan, .store, .out, .hostWait]) ?_ hp
  unfold State.emptyDigest
  repeat' first
    | with_reducible exact Within.refl _ _
    | with_reducible assumption
    | (show Part.sub _ _ = true; rfl)
    | dsimp -zeta only
    | with_reducible apply State.noteKeys_frame
    | with_reducible apply State.endKeyWaits_frame
    | with_reducible apply State.dropStates_frame
    | with_reducible apply Within.ite
    | fail_if_no_progress (with_reducible refine Within.put (a := [.keys]) ?_ rfl rfl rfl rfl rfl)
    | split

theorem execKeyRevoke_frame c kind slot s : Lands [.block 4, .block 6, .block 12, .block 13, .block 19, .block 20, .block 21, .evt, .nor, .host, .cmd, .bnd, .ddp, .keys, .sig, .lfl, .map, .prg, .chan, .store, .free, .out, .hostWait] s (execKeyRevoke c kind slot s) := by
  unfold execKeyRevoke
  repeat' first
    | with_reducible exact Within.refl _ _
    | with_reducible assumption
    | (show Part.sub _ _ = true; rfl)
    | with_reducible apply Lands.next
    | (extract_lets +onlyGivenNames x; with_reducible refine Lands.cut (u := x) ?_ ?_; rotate_left; intro hx; clear_value x; rename' x => y; rotate_right; unfold x; clear x)
    | (extract_lets +onlyGivenNames x; with_reducible refine Within.cut (u := x) ?_ ?_; rotate_left; intro hx; clear_value x; rename' x => y; rotate_right; unfold x; clear x)
    | (extract_lets +onlyGivenNames x; clear_value x; rename' x => z)
    | (extract_lets +onlyGivenNames x; rename' x => z)
    | dsimp -zeta only
    | with_reducible apply State.complete_frame
    | with_reducible apply State.ringGate_frame
    | with_reducible apply State.sealCipher_frame
    | with_reducible apply State.setLedger_frame
    | with_reducible apply State.emptyDigest_frame
    | intro _
    | with_reducible apply Lands.ite
    | with_reducible apply Within.ite
    | fail_if_no_progress (with_reducible refine Within.put (a := [.keys]) ?_ rfl rfl rfl rfl rfl)
    | split

theorem State.settleSweep_frame {ps s t} domain (h : Within ps s t) (hp : Part.sub [.host, .keys, .out, .hostWait] ps = true) : Within ps s (State.settleSweep t domain) := by
  refine h.step (a := [.host, .keys, .out, .hostWait]) ?_ hp
  unfold State.settleSweep
  repeat' first
    | with_reducible exact Within.refl _ _
    | with_reducible assumption
    | (show Part.sub _ _ = true; rfl)
    | (extract_lets +onlyGivenNames x; with_reducible refine Within.cut (u := x) ?_ ?_; rotate_left; intro hx; clear_value x; rename' x => y; rotate_right; unfold x; clear x)
    | (extract_lets +onlyGivenNames x; clear_value x; rename' x => z)
    | (extract_lets +onlyGivenNames x; rename' x => z)
    | dsimp -zeta only
    | with_reducible apply State.complete_frame
    | with_reducible apply Within.ite
    | (with_reducible refine Within.foldl _ ?_ ?_; rotate_left; intro _ _)
    | (with_reducible refine Within.foldl_snd _ ?_ ?_; rotate_left; intro _ _)
    | fail_if_no_progress (with_reducible refine Within.put (a := [.keys]) ?_ rfl rfl rfl rfl rfl)
    | split

theorem State.settleSweeps_frame {ps s t}  (h : Within ps s t) (hp : Part.sub [.host, .keys, .out, .hostWait] ps = true) : Within ps s (State.settleSweeps t) := by
  refine h.step (a := [.host, .keys, .out, .hostWait]) ?_ hp
  unfold State.settleSweeps
  repeat' first
    | with_reducible exact Within.refl _ _
    | with_reducible assumption
    | (show Part.sub _ _ = true; rfl)
    | dsimp -zeta only
    | with_reducible apply State.settleSweep_frame
    | with_reducible apply Within.ite
    | (with_reducible refine Within.foldl _ ?_ ?_; rotate_left; intro _ _)
    | (with_reducible refine Within.foldl_snd _ ?_ ?_; rotate_left; intro _ _)
    | split

theorem execKeyResweep_frame c domain s : Lands [.host, .keys, .out, .hostWait] s (execKeyResweep c domain s) := by
  unfold execKeyResweep
  repeat' first
    | with_reducible exact Within.refl _ _
    | with_reducible assumption
    | (show Part.sub _ _ = true; rfl)
    | with_reducible apply Lands.next
    | dsimp -zeta only
    | with_reducible apply State.complete_frame
    | with_reducible apply State.ringGate_frame
    | with_reducible apply State.settleSweep_frame
    | intro _
    | with_reducible apply Lands.ite
    | with_reducible apply Within.ite
    | fail_if_no_progress (with_reducible refine Within.put (a := [.keys]) ?_ rfl rfl rfl rfl rfl)
    | split

theorem execRekeySweepStep_frame step s : Lands [.block 4, .block 6, .block 11, .evt, .nor, .host, .cmd, .keys, .sig, .out, .hostWait] s (execRekeySweepStep step s) := by
  unfold execRekeySweepStep
  repeat' first
    | with_reducible exact Within.refl _ _
    | with_reducible assumption
    | (show Part.sub _ _ = true; rfl)
    | with_reducible apply Lands.next
    | (extract_lets +onlyGivenNames x; with_reducible refine Lands.cut (u := x) ?_ ?_; rotate_left; intro hx; clear_value x; rename' x => y; rotate_right; unfold x; clear x)
    | (extract_lets +onlyGivenNames x; with_reducible refine Within.cut (u := x) ?_ ?_; rotate_left; intro hx; clear_value x; rename' x => y; rotate_right; unfold x; clear x)
    | (extract_lets +onlyGivenNames x; clear_value x; rename' x => z)
    | (extract_lets +onlyGivenNames x; rename' x => z)
    | dsimp -zeta only
    | with_reducible apply State.bump_frame
    | with_reducible apply State.event1_frame
    | with_reducible apply State.askFetch_frame
    | with_reducible apply State.countDecode_frame
    | with_reducible apply State.settleSweep_frame
    | with_reducible apply Lands.ite
    | with_reducible apply Within.ite
    | fail_if_no_progress (with_reducible refine Within.put (a := [.keys, .sig]) ?_ rfl rfl rfl rfl rfl)
    | split

theorem execKekLoad_frame value s : Lands [.block 21, .keys] s (execKekLoad value s) := by
  unfold execKekLoad
  repeat' first
    | with_reducible exact Within.refl _ _
    | with_reducible assumption
    | (show Part.sub _ _ = true; rfl)
    | with_reducible apply Lands.next
    | (extract_lets +onlyGivenNames x; with_reducible refine Lands.cut (u := x) ?_ ?_; rotate_left; intro hx; clear_value x; rename' x => y; rotate_right; unfold x; clear x)
    | (extract_lets +onlyGivenNames x; with_reducible refine Within.cut (u := x) ?_ ?_; rotate_left; intro hx; clear_value x; rename' x => y; rotate_right; unfold x; clear x)
    | (extract_lets +onlyGivenNames x; clear_value x; rename' x => z)
    | (extract_lets +onlyGivenNames x; rename' x => z)
    | dsimp -zeta only
    | with_reducible apply State.wr_frame
    | with_reducible apply Lands.ite
    | with_reducible apply Within.ite
    | (with_reducible refine Within.foldl _ ?_ ?_; rotate_left; intro _ _)
    | (with_reducible refine Within.foldl_snd _ ?_ ?_; rotate_left; intro _ _)
    | fail_if_no_progress (with_reducible refine Within.put (a := [.keys]) ?_ rfl rfl rfl rfl rfl)
    | split

end Sys2Proof.Machine
end

