-- ==== Sys2Proof/Laws/FrameMap.lean ====
section
/-!
SUPPORT. Laws/FrameMap.lean: what the definitions of Machine/Map.lean leave alone: each changes the listed parts at most, and keeps the
canonical form.
-/
namespace Sys2Proof.Machine
open Sys2Proof

set_option Elab.async false
set_option linter.all false

theorem execSnapshotCreate_frame tag s : Lands [.block 4, .block 6, .block 12, .block 13, .block 19, .block 20, .evt, .nor, .host, .cmd, .ddp, .keys, .wc, .sig, .lfl, .map, .prg, .chan, .store, .out, .hostWait] s (execSnapshotCreate tag s) := by
  unfold execSnapshotCreate
  repeat' first
    | with_reducible exact Within.refl _ _
    | with_reducible assumption
    | (show Part.sub _ _ = true; rfl)
    | with_reducible apply Lands.next
    | (extract_lets +onlyGivenNames x; with_reducible refine Lands.cut (u := x) ?_ ?_; rotate_left; intro hx; clear_value x; rename' x => y; rotate_right; unfold x; clear x)
    | (extract_lets +onlyGivenNames x; with_reducible refine Within.cut (u := x) ?_ ?_; rotate_left; intro hx; clear_value x; rename' x => y; rotate_right; unfold x; clear x)
    | (extract_lets +onlyGivenNames x; clear_value x; rename' x => z)
    | (extract_lets +onlyGivenNames x; rename' x => z)
    | dsimp -zeta only
    | with_reducible apply State.takeCut_frame
    | with_reducible apply State.finish_frame
    | with_reducible apply State.begin_frame
    | with_reducible apply State.queueMeta_frame
    | intro _
    | with_reducible apply Lands.ite
    | with_reducible apply Within.ite
    | fail_if_no_progress (with_reducible refine Within.put (a := []) ?_ rfl rfl rfl rfl rfl)
    | split

theorem execSnapshotDelete_frame tag s : Lands [.block 4, .block 6, .block 12, .block 13, .block 19, .block 20, .evt, .nor, .host, .cmd, .ddp, .keys, .wc, .sig, .lfl, .map, .prg, .chan, .store, .out, .hostWait] s (execSnapshotDelete tag s) := by
  unfold execSnapshotDelete
  repeat' first
    | with_reducible exact Within.refl _ _
    | with_reducible assumption
    | (show Part.sub _ _ = true; rfl)
    | with_reducible apply Lands.next
    | (extract_lets +onlyGivenNames x; with_reducible refine Lands.cut (u := x) ?_ ?_; rotate_left; intro hx; clear_value x; rename' x => y; rotate_right; unfold x; clear x)
    | (extract_lets +onlyGivenNames x; with_reducible refine Within.cut (u := x) ?_ ?_; rotate_left; intro hx; clear_value x; rename' x => y; rotate_right; unfold x; clear x)
    | (extract_lets +onlyGivenNames x; clear_value x; rename' x => z)
    | (extract_lets +onlyGivenNames x; rename' x => z)
    | dsimp -zeta only
    | with_reducible apply State.cacheLookup_frame
    | with_reducible apply State.qmSnap_frame
    | with_reducible apply State.finish_frame
    | with_reducible apply State.begin_frame
    | with_reducible apply State.queueMeta_frame
    | intro _
    | with_reducible apply Lands.ite
    | with_reducible apply Within.ite
    | fail_if_no_progress (with_reducible refine Within.put (a := [.map]) ?_ rfl rfl rfl rfl rfl)
    | split

theorem State.sendResult_frame {ps s t} bt c bytes (h : Within ps s t) (hp : Part.sub [.ports, .trn, .cmd, .chan, .out] ps = true) : Within ps s (State.sendResult t bt c bytes) := by
  refine h.step (a := [.ports, .trn, .cmd, .chan, .out]) ?_ hp
  unfold State.sendResult
  repeat' first
    | with_reducible exact Within.refl _ _
    | with_reducible assumption
    | (show Part.sub _ _ = true; rfl)
    | (extract_lets +onlyGivenNames x; with_reducible refine Within.cut (u := x) ?_ ?_; rotate_left; intro hx; clear_value x; rename' x => y; rotate_right; unfold x; clear x)
    | (extract_lets +onlyGivenNames x; clear_value x; rename' x => z)
    | (extract_lets +onlyGivenNames x; rename' x => z)
    | dsimp -zeta only
    | with_reducible apply State.sendRing_frame
    | with_reducible apply State.sendData_frame
    | with_reducible apply Within.ite
    | split

theorem execSnapshotList_frame tag s : Lands [.ports, .trn, .cmd, .chan, .out] s (execSnapshotList tag s) := by
  unfold execSnapshotList
  repeat' first
    | with_reducible exact Within.refl _ _
    | with_reducible assumption
    | (show Part.sub _ _ = true; rfl)
    | with_reducible apply Lands.next
    | (extract_lets +onlyGivenNames x; with_reducible refine Lands.cut (u := x) ?_ ?_; rotate_left; intro hx; clear_value x; rename' x => y; rotate_right; unfold x; clear x)
    | (extract_lets +onlyGivenNames x; with_reducible refine Within.cut (u := x) ?_ ?_; rotate_left; intro hx; clear_value x; rename' x => y; rotate_right; unfold x; clear x)
    | (extract_lets +onlyGivenNames x; clear_value x; rename' x => z)
    | (extract_lets +onlyGivenNames x; rename' x => z)
    | dsimp -zeta only
    | with_reducible apply State.finish_frame
    | with_reducible apply State.begin_frame
    | with_reducible apply State.sendResult_frame
    | intro _
    | with_reducible apply Lands.ite
    | with_reducible apply Within.ite
    | fail_if_no_progress (with_reducible refine Within.put (a := []) ?_ rfl rfl rfl rfl rfl)
    | split

theorem execCloneCreate_frame tag s : Lands [.block 4, .block 6, .block 12, .block 13, .block 19, .block 20, .evt, .nor, .host, .cmd, .ddp, .keys, .wc, .sig, .lfl, .map, .prg, .chan, .store, .out, .hostWait] s (execCloneCreate tag s) := by
  unfold execCloneCreate
  repeat' first
    | with_reducible exact Within.refl _ _
    | with_reducible assumption
    | (show Part.sub _ _ = true; rfl)
    | with_reducible apply Lands.next
    | dsimp -zeta only
    | with_reducible apply State.cacheLookup_frame
    | with_reducible apply State.begin_frame
    | with_reducible apply State.queueMeta_frame
    | intro _
    | with_reducible apply Lands.ite
    | with_reducible apply Within.ite
    | split

theorem State.cutMember_frame {ps s t} group time bt (h : Within ps s t) (hp : Part.sub [.block 13, .cmd, .map] ps = true) : Within ps s (State.cutMember t group time bt) := by
  refine h.step (a := [.block 13, .cmd, .map]) ?_ hp
  unfold State.cutMember
  repeat' first
    | with_reducible exact Within.refl _ _
    | with_reducible assumption
    | (show Part.sub _ _ = true; rfl)
    | dsimp -zeta only
    | with_reducible apply State.takeCut_frame
    | with_reducible apply State.modTag_frame
    | with_reducible apply State.refuse_frame
    | with_reducible apply Within.ite
    | fail_if_no_progress (with_reducible refine Within.put (a := []) ?_ rfl rfl rfl rfl rfl)
    | split

theorem State.consistencyCut_frame {ps s t} group (h : Within ps s t) (hp : Part.sub [.regs, .holding, .evt, .nor, .host, .ports, .trn, .cmd, .ddp, .keys, .wc, .sig, .lfl, .map, .rep, .prg, .chan, .store, .mem, .free, .out, .hostWait] ps = true) : Within ps s (State.consistencyCut t group) := by
  refine h.step (a := [.regs, .holding, .evt, .nor, .host, .ports, .trn, .cmd, .ddp, .keys, .wc, .sig, .lfl, .map, .rep, .prg, .chan, .store, .mem, .free, .out, .hostWait]) ?_ hp
  unfold State.consistencyCut
  repeat' first
    | with_reducible exact Within.refl _ _
    | with_reducible assumption
    | (show Part.sub _ _ = true; rfl)
    | (extract_lets +onlyGivenNames x; with_reducible refine Within.cut (u := x) ?_ ?_; rotate_left; intro hx; clear_value x; rename' x => y; rotate_right; unfold x; clear x)
    | (extract_lets +onlyGivenNames x; clear_value x; rename' x => z)
    | (extract_lets +onlyGivenNames x; rename' x => z)
    | dsimp -zeta only
    | with_reducible apply State.wr_frame
    | with_reducible apply State.event_frame
    | with_reducible apply State.releaseHeld_frame
    | with_reducible apply State.cutMember_frame
    | with_reducible apply Within.ite
    | (with_reducible refine Within.foldl _ ?_ ?_; rotate_left; intro _ _)
    | (with_reducible refine Within.foldl_snd _ ?_ ?_; rotate_left; intro _ _)
    | fail_if_no_progress (with_reducible refine Within.put (a := [.map]) ?_ rfl rfl rfl rfl rfl)
    | split

theorem execConsistencyCut_frame group s : Lands [.regs, .holding, .evt, .nor, .host, .ports, .trn, .cmd, .ddp, .keys, .wc, .sig, .lfl, .map, .rep, .prg, .chan, .store, .mem, .free, .out, .hostWait] s (execConsistencyCut group s) := by
  unfold execConsistencyCut
  repeat' first
    | with_reducible exact Within.refl _ _
    | with_reducible assumption
    | (show Part.sub _ _ = true; rfl)
    | with_reducible apply Lands.next
    | dsimp -zeta only
    | with_reducible apply State.consistencyCut_frame
    | with_reducible apply Lands.ite
    | with_reducible apply Within.ite
    | split

theorem execCgArm_frame group s : Lands [.regs, .holding, .evt, .nor, .host, .ports, .trn, .cmd, .ddp, .keys, .wc, .sig, .lfl, .map, .rep, .prg, .chan, .store, .mem, .free, .out, .hostWait] s (execCgArm group s) := by
  unfold execCgArm
  repeat' first
    | with_reducible exact Within.refl _ _
    | with_reducible assumption
    | (show Part.sub _ _ = true; rfl)
    | with_reducible apply Lands.next
    | (extract_lets +onlyGivenNames x; with_reducible refine Lands.cut (u := x) ?_ ?_; rotate_left; intro hx; clear_value x; rename' x => y; rotate_right; unfold x; clear x)
    | (extract_lets +onlyGivenNames x; with_reducible refine Within.cut (u := x) ?_ ?_; rotate_left; intro hx; clear_value x; rename' x => y; rotate_right; unfold x; clear x)
    | (extract_lets +onlyGivenNames x; clear_value x; rename' x => z)
    | (extract_lets +onlyGivenNames x; rename' x => z)
    | dsimp -zeta only
    | with_reducible apply State.wr_frame
    | with_reducible apply State.event_frame
    | with_reducible apply State.consistencyCut_frame
    | with_reducible apply Lands.ite
    | with_reducible apply Within.ite
    | split

theorem execCgAbandon_frame group s : Lands [.regs, .holding, .evt, .nor, .host, .ports, .trn, .cmd, .ddp, .keys, .wc, .sig, .lfl, .map, .rep, .prg, .chan, .store, .mem, .free, .out, .hostWait] s (execCgAbandon group s) := by
  unfold execCgAbandon
  repeat' first
    | with_reducible exact Within.refl _ _
    | with_reducible assumption
    | (show Part.sub _ _ = true; rfl)
    | with_reducible apply Lands.next
    | (extract_lets +onlyGivenNames x; with_reducible refine Lands.cut (u := x) ?_ ?_; rotate_left; intro hx; clear_value x; rename' x => y; rotate_right; unfold x; clear x)
    | (extract_lets +onlyGivenNames x; with_reducible refine Within.cut (u := x) ?_ ?_; rotate_left; intro hx; clear_value x; rename' x => y; rotate_right; unfold x; clear x)
    | (extract_lets +onlyGivenNames x; clear_value x; rename' x => z)
    | (extract_lets +onlyGivenNames x; rename' x => z)
    | dsimp -zeta only
    | with_reducible apply State.wr_frame
    | with_reducible apply State.event_frame
    | with_reducible apply State.refuse_frame
    | with_reducible apply State.consistencyCut_frame
    | with_reducible apply Lands.ite
    | with_reducible apply Within.ite
    | (with_reducible refine Within.foldl _ ?_ ?_; rotate_left; intro _ _)
    | (with_reducible refine Within.foldl_snd _ ?_ ?_; rotate_left; intro _ _)
    | fail_if_no_progress (with_reducible refine Within.put (a := [.map]) ?_ rfl rfl rfl rfl rfl)
    | split

theorem State.listRange_frame {ps s t} nsid snap lba blocks (h : Within ps s t) (hp : Part.sub [.regs, .holding, .evt, .nor, .host, .mem, .out, .hostWait] ps = true) : Within ps s (State.listRange t nsid snap lba blocks) := by
  refine h.step (a := [.regs, .holding, .evt, .nor, .host, .mem, .out, .hostWait]) ?_ hp
  unfold State.listRange
  repeat' first
    | with_reducible exact Within.refl _ _
    | with_reducible assumption
    | (show Part.sub _ _ = true; rfl)
    | (extract_lets +onlyGivenNames x; with_reducible refine Within.cut (u := x) ?_ ?_; rotate_left; intro hx; clear_value x; rename' x => y; rotate_right; unfold x; clear x)
    | (extract_lets +onlyGivenNames x; clear_value x; rename' x => z)
    | (extract_lets +onlyGivenNames x; rename' x => z)
    | dsimp -zeta only
    | with_reducible apply State.lostAppend_frame
    | with_reducible apply Within.ite
    | (with_reducible refine Within.foldl _ ?_ ?_; rotate_left; intro _ _)
    | (with_reducible refine Within.foldl_snd _ ?_ ?_; rotate_left; intro _ _)
    | split

theorem State.listPage_frame {ps s t} n (h : Within ps s t) (hp : Part.sub [.regs, .holding, .evt, .nor, .host, .mem, .out, .hostWait] ps = true) : Within ps s (State.listPage t n) := by
  refine h.step (a := [.regs, .holding, .evt, .nor, .host, .mem, .out, .hostWait]) ?_ hp
  unfold State.listPage
  repeat' first
    | with_reducible exact Within.refl _ _
    | with_reducible assumption
    | (show Part.sub _ _ = true; rfl)
    | (extract_lets +onlyGivenNames x; with_reducible refine Within.cut (u := x) ?_ ?_; rotate_left; intro hx; clear_value x; rename' x => y; rotate_right; unfold x; clear x)
    | (extract_lets +onlyGivenNames x; clear_value x; rename' x => z)
    | (extract_lets +onlyGivenNames x; rename' x => z)
    | dsimp -zeta only
    | with_reducible apply State.listRange_frame
    | with_reducible apply Within.ite
    | (with_reducible refine Within.foldl _ ?_ ?_; rotate_left; intro _ _)
    | (with_reducible refine Within.foldl_snd _ ?_ ?_; rotate_left; intro _ _)
    | split

theorem State.resumeFaults_frame {ps s t} n (h : Within ps s t) (hp : Part.sub [.regs, .holding, .evt, .nor, .host, .ports, .trn, .cmd, .ddp, .keys, .wc, .sig, .lfl, .map, .rep, .prg, .chan, .store, .mem, .free, .out, .hostWait] ps = true) : Within ps s (State.resumeFaults t n) := by
  refine h.step (a := [.regs, .holding, .evt, .nor, .host, .ports, .trn, .cmd, .ddp, .keys, .wc, .sig, .lfl, .map, .rep, .prg, .chan, .store, .mem, .free, .out, .hostWait]) ?_ hp
  unfold State.resumeFaults
  repeat' first
    | with_reducible exact Within.refl _ _
    | with_reducible assumption
    | (show Part.sub _ _ = true; rfl)
    | (extract_lets +onlyGivenNames x; with_reducible refine Within.cut (u := x) ?_ ?_; rotate_left; intro hx; clear_value x; rename' x => y; rotate_right; unfold x; clear x)
    | (extract_lets +onlyGivenNames x; clear_value x; rename' x => z)
    | (extract_lets +onlyGivenNames x; rename' x => z)
    | dsimp -zeta only
    | with_reducible apply State.settleSegments_frame
    | with_reducible apply State.resumeTag_frame
    | with_reducible apply State.resumeMap_frame
    | with_reducible apply Within.ite
    | (with_reducible refine Within.foldl _ ?_ ?_; rotate_left; intro _ _)
    | (with_reducible refine Within.foldl_snd _ ?_ ?_; rotate_left; intro _ _)
    | fail_if_no_progress (with_reducible refine Within.put (a := [.map]) ?_ rfl rfl rfl rfl rfl)
    | split

theorem execPageInComplete_frame page result s : Lands [.regs, .holding, .evt, .nor, .host, .ports, .trn, .cmd, .ddp, .keys, .wc, .sig, .lfl, .map, .rep, .prg, .chan, .store, .mem, .free, .out, .hostWait] s (execPageInComplete page result s) := by
  unfold execPageInComplete
  repeat' first
    | with_reducible exact Within.refl _ _
    | with_reducible assumption
    | (show Part.sub _ _ = true; rfl)
    | with_reducible apply Lands.next
    | (extract_lets +onlyGivenNames x; with_reducible refine Lands.cut (u := x) ?_ ?_; rotate_left; intro hx; clear_value x; rename' x => y; rotate_right; unfold x; clear x)
    | (extract_lets +onlyGivenNames x; with_reducible refine Within.cut (u := x) ?_ ?_; rotate_left; intro hx; clear_value x; rename' x => y; rotate_right; unfold x; clear x)
    | (extract_lets +onlyGivenNames x; clear_value x; rename' x => z)
    | (extract_lets +onlyGivenNames x; rename' x => z)
    | dsimp -zeta only
    | with_reducible apply State.event_frame
    | with_reducible apply State.setPage_frame
    | with_reducible apply State.dropPageLines_frame
    | with_reducible apply State.noteMap_frame
    | with_reducible apply State.takeSlot_frame
    | with_reducible apply State.listPage_frame
    | with_reducible apply State.resumeFaults_frame
    | with_reducible apply Lands.ite
    | with_reducible apply Within.ite
    | fail_if_no_progress (with_reducible refine Within.put (a := []) ?_ rfl rfl rfl rfl rfl)
    | split
    | (with_reducible refine Within.of_pair (by assumption) ?_)

theorem execReclaimPage_frame  s : Lands [.regs, .holding, .evt, .nor, .host, .ports, .trn, .cmd, .ddp, .keys, .sig, .lfl, .map, .rep, .prg, .chan, .store, .mem, .free, .out, .hostWait] s (execReclaimPage s) := by
  unfold execReclaimPage
  repeat' first
    | with_reducible exact Within.refl _ _
    | with_reducible assumption
    | (show Part.sub _ _ = true; rfl)
    | with_reducible apply Lands.next
    | (extract_lets +onlyGivenNames x; with_reducible refine Lands.cut (u := x) ?_ ?_; rotate_left; intro hx; clear_value x; rename' x => y; rotate_right; unfold x; clear x)
    | (extract_lets +onlyGivenNames x; with_reducible refine Within.cut (u := x) ?_ ?_; rotate_left; intro hx; clear_value x; rename' x => y; rotate_right; unfold x; clear x)
    | (extract_lets +onlyGivenNames x; clear_value x; rename' x => z)
    | (extract_lets +onlyGivenNames x; rename' x => z)
    | dsimp -zeta only
    | with_reducible apply State.dropDir_frame
    | with_reducible apply State.dropRef_frame
    | with_reducible apply State.noteMap_frame
    | with_reducible apply State.dropPage_frame
    | with_reducible apply State.resumeMap_frame
    | with_reducible apply Lands.ite
    | with_reducible apply Within.ite
    | (with_reducible refine Within.foldl _ ?_ ?_; rotate_left; intro _ _)
    | (with_reducible refine Within.foldl_snd _ ?_ ?_; rotate_left; intro _ _)
    | fail_if_no_progress (with_reducible refine Within.put (a := [.map]) ?_ rfl rfl rfl rfl rfl)
    | split

theorem State.changeNs_frame {ps s t} c nsid tenant op (h : Within ps s t) (hp : Part.sub [.cmd] ps = true) : Within ps s (State.changeNs t c nsid tenant op) := by
  refine h.step (a := [.cmd]) ?_ hp
  unfold State.changeNs
  repeat' first
    | with_reducible exact Within.refl _ _
    | with_reducible assumption
    | (show Part.sub _ _ = true; rfl)
    | dsimp -zeta only
    | with_reducible apply State.askInternal_frame
    | with_reducible apply Within.ite
    | split

theorem execNsCreate_frame c params s : Lands [.host, .cmd, .out, .hostWait] s (execNsCreate c params s) := by
  unfold execNsCreate
  repeat' first
    | with_reducible exact Within.refl _ _
    | with_reducible assumption
    | (show Part.sub _ _ = true; rfl)
    | with_reducible apply Lands.next
    | dsimp -zeta only
    | with_reducible apply State.complete_frame
    | with_reducible apply State.ringGate_frame
    | with_reducible apply State.changeNs_frame
    | intro _
    | with_reducible apply Lands.ite
    | with_reducible apply Within.ite
    | split

theorem execNsChange_frame c params s : Lands [.host, .cmd, .out, .hostWait] s (execNsChange c params s) := by
  unfold execNsChange
  repeat' first
    | with_reducible exact Within.refl _ _
    | with_reducible assumption
    | (show Part.sub _ _ = true; rfl)
    | with_reducible apply Lands.next
    | (extract_lets +onlyGivenNames x; with_reducible refine Lands.cut (u := x) ?_ ?_; rotate_left; intro hx; clear_value x; rename' x => y; rotate_right; unfold x; clear x)
    | (extract_lets +onlyGivenNames x; with_reducible refine Within.cut (u := x) ?_ ?_; rotate_left; intro hx; clear_value x; rename' x => y; rotate_right; unfold x; clear x)
    | (extract_lets +onlyGivenNames x; clear_value x; rename' x => z)
    | (extract_lets +onlyGivenNames x; rename' x => z)
    | dsimp -zeta only
    | with_reducible apply State.complete_frame
    | with_reducible apply State.ringGate_frame
    | with_reducible apply State.changeNs_frame
    | intro _
    | with_reducible apply Lands.ite
    | with_reducible apply Within.ite
    | fail_if_no_progress (with_reducible refine Within.put (a := []) ?_ rfl rfl rfl rfl rfl)
    | split

theorem execNsDelete_frame c nsid s : Lands [.block 4, .block 6, .evt, .nor, .host, .cmd, .out, .hostWait] s (execNsDelete c nsid s) := by
  unfold execNsDelete
  repeat' first
    | with_reducible exact Within.refl _ _
    | with_reducible assumption
    | (show Part.sub _ _ = true; rfl)
    | with_reducible apply Lands.next
    | dsimp -zeta only
    | with_reducible apply State.event1_frame
    | with_reducible apply State.complete_frame
    | with_reducible apply State.ringGate_frame
    | with_reducible apply State.changeNs_frame
    | intro _
    | with_reducible apply Lands.ite
    | with_reducible apply Within.ite
    | fail_if_no_progress (with_reducible refine Within.put (a := []) ?_ rfl rfl rfl rfl rfl)
    | split

theorem execMapImport_frame c nsid addr container s : Lands [.host, .cmd, .out, .hostWait] s (execMapImport c nsid addr container s) := by
  unfold execMapImport
  repeat' first
    | with_reducible exact Within.refl _ _
    | with_reducible assumption
    | (show Part.sub _ _ = true; rfl)
    | with_reducible apply Lands.next
    | (extract_lets +onlyGivenNames x; with_reducible refine Lands.cut (u := x) ?_ ?_; rotate_left; intro hx; clear_value x; rename' x => y; rotate_right; unfold x; clear x)
    | (extract_lets +onlyGivenNames x; with_reducible refine Within.cut (u := x) ?_ ?_; rotate_left; intro hx; clear_value x; rename' x => y; rotate_right; unfold x; clear x)
    | (extract_lets +onlyGivenNames x; clear_value x; rename' x => z)
    | (extract_lets +onlyGivenNames x; rename' x => z)
    | dsimp -zeta only
    | with_reducible apply State.complete_frame
    | with_reducible apply State.ringGate_frame
    | with_reducible apply State.askInternal_frame
    | intro _
    | with_reducible apply Lands.ite
    | with_reducible apply Within.ite
    | fail_if_no_progress (with_reducible refine Within.put (a := []) ?_ rfl rfl rfl rfl rfl)
    | split

theorem execPoolMoveCopy_frame nsid s : Lands [.cmd] s (execPoolMoveCopy nsid s) := by
  unfold execPoolMoveCopy
  repeat' first
    | with_reducible exact Within.refl _ _
    | with_reducible assumption
    | (show Part.sub _ _ = true; rfl)
    | with_reducible apply Lands.next
    | (extract_lets +onlyGivenNames x; with_reducible refine Lands.cut (u := x) ?_ ?_; rotate_left; intro hx; clear_value x; rename' x => y; rotate_right; unfold x; clear x)
    | (extract_lets +onlyGivenNames x; with_reducible refine Within.cut (u := x) ?_ ?_; rotate_left; intro hx; clear_value x; rename' x => y; rotate_right; unfold x; clear x)
    | (extract_lets +onlyGivenNames x; clear_value x; rename' x => z)
    | (extract_lets +onlyGivenNames x; rename' x => z)
    | dsimp -zeta only
    | with_reducible apply State.askFetch_frame
    | with_reducible apply Lands.ite
    | with_reducible apply Within.ite
    | fail_if_no_progress (with_reducible refine Within.put (a := []) ?_ rfl rfl rfl rfl rfl)
    | split

theorem execPoolMoveComplete_frame nsid s : Lands [.cmd] s (execPoolMoveComplete nsid s) := by
  unfold execPoolMoveComplete
  repeat' first
    | with_reducible exact Within.refl _ _
    | with_reducible assumption
    | (show Part.sub _ _ = true; rfl)
    | with_reducible apply Lands.next
    | (extract_lets +onlyGivenNames x; with_reducible refine Lands.cut (u := x) ?_ ?_; rotate_left; intro hx; clear_value x; rename' x => y; rotate_right; unfold x; clear x)
    | (extract_lets +onlyGivenNames x; with_reducible refine Within.cut (u := x) ?_ ?_; rotate_left; intro hx; clear_value x; rename' x => y; rotate_right; unfold x; clear x)
    | (extract_lets +onlyGivenNames x; clear_value x; rename' x => z)
    | (extract_lets +onlyGivenNames x; rename' x => z)
    | dsimp -zeta only
    | with_reducible apply State.askInternal_frame
    | with_reducible apply Lands.ite
    | with_reducible apply Within.ite
    | fail_if_no_progress (with_reducible refine Within.put (a := []) ?_ rfl rfl rfl rfl rfl)
    | split

theorem State.parityMiss_frame {ps s t} line (h : Within ps s t) (hp : Part.sub [.block 4, .block 6, .block 13, .evt, .nor, .host, .map, .out, .hostWait] ps = true) : Within ps s (State.parityMiss t line) := by
  refine h.step (a := [.block 4, .block 6, .block 13, .evt, .nor, .host, .map, .out, .hostWait]) ?_ hp
  unfold State.parityMiss
  repeat' first
    | with_reducible exact Within.refl _ _
    | with_reducible assumption
    | (show Part.sub _ _ = true; rfl)
    | (extract_lets +onlyGivenNames x; with_reducible refine Within.cut (u := x) ?_ ?_; rotate_left; intro hx; clear_value x; rename' x => y; rotate_right; unfold x; clear x)
    | (extract_lets +onlyGivenNames x; clear_value x; rename' x => z)
    | (extract_lets +onlyGivenNames x; rename' x => z)
    | dsimp -zeta only
    | with_reducible apply State.bump_frame
    | with_reducible apply State.event1_frame
    | with_reducible apply State.cacheLookup_frame
    | with_reducible apply Within.ite
    | fail_if_no_progress (with_reducible refine Within.put (a := [.map]) ?_ rfl rfl rfl rfl rfl)
    | split

theorem execMapCacheFill_frame line parity s : Lands [.block 4, .block 6, .block 13, .evt, .nor, .host, .map, .out, .hostWait] s (execMapCacheFill line parity s) := by
  unfold execMapCacheFill
  repeat' first
    | with_reducible exact Within.refl _ _
    | with_reducible assumption
    | (show Part.sub _ _ = true; rfl)
    | with_reducible apply Lands.next
    | (extract_lets +onlyGivenNames x; with_reducible refine Lands.cut (u := x) ?_ ?_; rotate_left; intro hx; clear_value x; rename' x => y; rotate_right; unfold x; clear x)
    | (extract_lets +onlyGivenNames x; with_reducible refine Within.cut (u := x) ?_ ?_; rotate_left; intro hx; clear_value x; rename' x => y; rotate_right; unfold x; clear x)
    | (extract_lets +onlyGivenNames x; clear_value x; rename' x => z)
    | (extract_lets +onlyGivenNames x; rename' x => z)
    | dsimp -zeta only
    | with_reducible apply State.resumeLookups_frame
    | with_reducible apply State.parityMiss_frame
    | with_reducible apply Lands.ite
    | with_reducible apply Within.ite
    | fail_if_no_progress (with_reducible refine Within.put (a := [.map]) ?_ rfl rfl rfl rfl rfl)
    | split

theorem execMapCacheEnable_frame value s : Lands [.block 13, .map] s (execMapCacheEnable value s) := by
  unfold execMapCacheEnable
  repeat' first
    | with_reducible exact Within.refl _ _
    | with_reducible assumption
    | (show Part.sub _ _ = true; rfl)
    | with_reducible apply Lands.next
    | (extract_lets +onlyGivenNames x; with_reducible refine Lands.cut (u := x) ?_ ?_; rotate_left; intro hx; clear_value x; rename' x => y; rotate_right; unfold x; clear x)
    | (extract_lets +onlyGivenNames x; with_reducible refine Within.cut (u := x) ?_ ?_; rotate_left; intro hx; clear_value x; rename' x => y; rotate_right; unfold x; clear x)
    | (extract_lets +onlyGivenNames x; clear_value x; rename' x => z)
    | (extract_lets +onlyGivenNames x; rename' x => z)
    | dsimp -zeta only
    | with_reducible apply State.wr_frame
    | with_reducible apply State.resumeLookups_frame
    | with_reducible apply Lands.ite
    | with_reducible apply Within.ite
    | split

theorem State.beginMaint_frame {ps s t} op (h : Within ps s t) (hp : Part.sub [.block 13, .map] ps = true) : Within ps s (State.beginMaint t op) := by
  refine h.step (a := [.block 13, .map]) ?_ hp
  unfold State.beginMaint
  repeat' first
    | with_reducible exact Within.refl _ _
    | with_reducible assumption
    | (show Part.sub _ _ = true; rfl)
    | dsimp -zeta only
    | with_reducible apply State.wr_frame
    | with_reducible apply Within.ite
    | fail_if_no_progress (with_reducible refine Within.put (a := [.map]) ?_ rfl rfl rfl rfl rfl)
    | split

theorem execInvalidateAll_frame  s : Lands [.block 13, .map] s (execInvalidateAll s) := by
  unfold execInvalidateAll
  repeat' first
    | with_reducible exact Within.refl _ _
    | with_reducible assumption
    | (show Part.sub _ _ = true; rfl)
    | with_reducible apply Lands.next
    | dsimp -zeta only
    | with_reducible apply State.poisonFills_frame
    | with_reducible apply State.beginMaint_frame
    | with_reducible apply Lands.ite
    | with_reducible apply Within.ite
    | fail_if_no_progress (with_reducible refine Within.put (a := [.map]) ?_ rfl rfl rfl rfl rfl)
    | split

theorem execInvalidateRange_frame lines s : Lands [.block 13, .map] s (execInvalidateRange lines s) := by
  unfold execInvalidateRange
  repeat' first
    | with_reducible exact Within.refl _ _
    | with_reducible assumption
    | (show Part.sub _ _ = true; rfl)
    | with_reducible apply Lands.next
    | (extract_lets +onlyGivenNames x; with_reducible refine Lands.cut (u := x) ?_ ?_; rotate_left; intro hx; clear_value x; rename' x => y; rotate_right; unfold x; clear x)
    | (extract_lets +onlyGivenNames x; with_reducible refine Within.cut (u := x) ?_ ?_; rotate_left; intro hx; clear_value x; rename' x => y; rotate_right; unfold x; clear x)
    | (extract_lets +onlyGivenNames x; clear_value x; rename' x => z)
    | (extract_lets +onlyGivenNames x; rename' x => z)
    | dsimp -zeta only
    | with_reducible apply State.dropLines_frame
    | with_reducible apply State.beginMaint_frame
    | with_reducible apply Lands.ite
    | with_reducible apply Within.ite
    | split

theorem execInvalidateDone_frame  s : Lands [.block 13, .map] s (execInvalidateDone s) := by
  unfold execInvalidateDone
  repeat' first
    | with_reducible exact Within.refl _ _
    | with_reducible assumption
    | (show Part.sub _ _ = true; rfl)
    | with_reducible apply Lands.next
    | (extract_lets +onlyGivenNames x; with_reducible refine Lands.cut (u := x) ?_ ?_; rotate_left; intro hx; clear_value x; rename' x => y; rotate_right; unfold x; clear x)
    | (extract_lets +onlyGivenNames x; with_reducible refine Within.cut (u := x) ?_ ?_; rotate_left; intro hx; clear_value x; rename' x => y; rotate_right; unfold x; clear x)
    | (extract_lets +onlyGivenNames x; clear_value x; rename' x => z)
    | (extract_lets +onlyGivenNames x; rename' x => z)
    | dsimp -zeta only
    | with_reducible apply State.wr_frame
    | with_reducible apply Lands.ite
    | with_reducible apply Within.ite
    | fail_if_no_progress (with_reducible refine Within.put (a := [.map]) ?_ rfl rfl rfl rfl rfl)
    | split

theorem State.trimCopy_frame {ps s t} k (h : Within ps s t) (hp : Part.sub [.sig, .lfl, .out] ps = true) : Within ps s (State.trimCopy t k) := by
  refine h.step (a := [.sig, .lfl, .out]) ?_ hp
  unfold State.trimCopy
  repeat' first
    | with_reducible exact Within.refl _ _
    | with_reducible assumption
    | (show Part.sub _ _ = true; rfl)
    | (extract_lets +onlyGivenNames x; with_reducible refine Within.cut (u := x) ?_ ?_; rotate_left; intro hx; clear_value x; rename' x => y; rotate_right; unfold x; clear x)
    | (extract_lets +onlyGivenNames x; clear_value x; rename' x => z)
    | (extract_lets +onlyGivenNames x; rename' x => z)
    | dsimp -zeta only
    | with_reducible apply State.leafOp_frame
    | with_reducible apply Within.ite
    | fail_if_no_progress (with_reducible refine Within.put (a := [.sig]) ?_ rfl rfl rfl rfl rfl)
    | split

theorem execMetadataWriteback_frame  s : Lands [.block 13, .block 14, .block 20, .sig, .lfl, .map, .store, .out] s (execMetadataWriteback s) := by
  unfold execMetadataWriteback
  repeat' first
    | with_reducible exact Within.refl _ _
    | with_reducible assumption
    | (show Part.sub _ _ = true; rfl)
    | with_reducible apply Lands.next
    | (extract_lets +onlyGivenNames x; with_reducible refine Lands.cut (u := x) ?_ ?_; rotate_left; intro hx; clear_value x; rename' x => y; rotate_right; unfold x; clear x)
    | (extract_lets +onlyGivenNames x; with_reducible refine Within.cut (u := x) ?_ ?_; rotate_left; intro hx; clear_value x; rename' x => y; rotate_right; unfold x; clear x)
    | (extract_lets +onlyGivenNames x; clear_value x; rename' x => z)
    | (extract_lets +onlyGivenNames x; rename' x => z)
    | dsimp -zeta only
    | with_reducible apply State.cleanPages_frame
    | with_reducible apply State.saveStore_frame
    | with_reducible apply State.noteMap_frame
    | with_reducible apply State.noteLog_frame
    | with_reducible apply State.trimCopy_frame
    | with_reducible apply Lands.ite
    | with_reducible apply Within.ite
    | (with_reducible refine Within.foldl _ ?_ ?_; rotate_left; intro _ _)
    | (with_reducible refine Within.foldl_snd _ ?_ ?_; rotate_left; intro _ _)
    | fail_if_no_progress (with_reducible refine Within.put (a := [.sig]) ?_ rfl rfl rfl rfl rfl)
    | split

end Sys2Proof.Machine
end

