-- ==== Sys2Proof/Laws/FrameRepSync.lean ====
section
/-!
SUPPORT. Laws/FrameRepSync.lean: what the definitions of Machine/RepSync.lean leave alone: each changes the listed parts at most, and keeps the
canonical form.
-/
namespace Sys2Proof.Machine
open Sys2Proof

set_option Elab.async false
set_option linter.all false

theorem State.startShip_frame {ps s t} n j (h : Within ps s t) (hp : Part.sub [.block 4, .block 6, .block 11, .block 18, .evt, .nor, .host, .cmd, .rep, .free, .out, .hostWait] ps = true) : Within ps s (State.startShip t n j) := by
  refine h.step (a := [.block 4, .block 6, .block 11, .block 18, .evt, .nor, .host, .cmd, .rep, .free, .out, .hostWait]) ?_ hp
  unfold State.startShip
  repeat' first
    | with_reducible exact Within.refl _ _
    | with_reducible assumption
    | (show Part.sub _ _ = true; rfl)
    | (extract_lets +onlyGivenNames x; with_reducible refine Within.cut (u := x) ?_ ?_; rotate_left; intro hx; clear_value x; rename' x => y; rotate_right; unfold x; clear x)
    | (extract_lets +onlyGivenNames x; clear_value x; rename' x => z)
    | (extract_lets +onlyGivenNames x; rename' x => z)
    | dsimp -zeta only
    | with_reducible apply State.askFetch_frame
    | with_reducible apply State.setRep_frame
    | with_reducible apply State.pumpShip_frame
    | with_reducible apply Within.ite
    | (with_reducible refine Within.foldl _ ?_ ?_; rotate_left; intro _ _)
    | (with_reducible refine Within.foldl_snd _ ?_ ?_; rotate_left; intro _ _)
    | fail_if_no_progress (with_reducible refine Within.put (a := []) ?_ rfl rfl rfl rfl rfl)
    | split

theorem State.shipAnchor_frame {ps s t} n use revert (h : Within ps s t) (hp : Part.sub [.block 4, .block 6, .block 11, .block 13, .block 18, .block 20, .evt, .nor, .host, .cmd, .sig, .map, .rep, .store, .free, .out, .hostWait] ps = true) : Within ps s (State.shipAnchor t n use revert) := by
  refine h.step (a := [.block 4, .block 6, .block 11, .block 13, .block 18, .block 20, .evt, .nor, .host, .cmd, .sig, .map, .rep, .store, .free, .out, .hostWait]) ?_ hp
  unfold State.shipAnchor
  repeat' first
    | with_reducible exact Within.refl _ _
    | with_reducible assumption
    | (show Part.sub _ _ = true; rfl)
    | (extract_lets +onlyGivenNames x; with_reducible refine Within.cut (u := x) ?_ ?_; rotate_left; intro hx; clear_value x; rename' x => y; rotate_right; unfold x; clear x)
    | (extract_lets +onlyGivenNames x; clear_value x; rename' x => z)
    | (extract_lets +onlyGivenNames x; rename' x => z)
    | dsimp -zeta only
    | with_reducible apply State.event1_frame
    | with_reducible apply State.setRep_frame
    | with_reducible apply State.takeAnchor_frame
    | with_reducible apply State.startShip_frame
    | with_reducible apply Within.ite
    | fail_if_no_progress (with_reducible refine Within.put (a := []) ?_ rfl rfl rfl rfl rfl)
    | split

theorem State.startResync_frame {ps s t} n (h : Within ps s t) (hp : Part.sub [.block 4, .block 6, .block 11, .block 13, .block 18, .block 20, .evt, .nor, .host, .cmd, .sig, .map, .rep, .store, .free, .out, .hostWait] ps = true) : Within ps s (State.startResync t n) := by
  refine h.step (a := [.block 4, .block 6, .block 11, .block 13, .block 18, .block 20, .evt, .nor, .host, .cmd, .sig, .map, .rep, .store, .free, .out, .hostWait]) ?_ hp
  unfold State.startResync
  repeat' first
    | with_reducible exact Within.refl _ _
    | with_reducible assumption
    | (show Part.sub _ _ = true; rfl)
    | (extract_lets +onlyGivenNames x; with_reducible refine Within.cut (u := x) ?_ ?_; rotate_left; intro hx; clear_value x; rename' x => y; rotate_right; unfold x; clear x)
    | (extract_lets +onlyGivenNames x; clear_value x; rename' x => z)
    | (extract_lets +onlyGivenNames x; rename' x => z)
    | dsimp -zeta only
    | with_reducible apply State.wr_frame
    | with_reducible apply State.event1_frame
    | with_reducible apply State.setRep_frame
    | with_reducible apply State.startSession_frame
    | with_reducible apply State.shipAnchor_frame
    | with_reducible apply Within.ite
    | fail_if_no_progress (with_reducible refine Within.put (a := []) ?_ rfl rfl rfl rfl rfl)
    | split

theorem State.endStream_frame {ps s t} n (h : Within ps s t) (hp : Part.sub [.block 4, .block 6, .block 11, .block 13, .block 18, .block 20, .evt, .nor, .host, .cmd, .sig, .map, .rep, .store, .free, .out, .hostWait] ps = true) : Within ps s (State.endStream t n) := by
  refine h.step (a := [.block 4, .block 6, .block 11, .block 13, .block 18, .block 20, .evt, .nor, .host, .cmd, .sig, .map, .rep, .store, .free, .out, .hostWait]) ?_ hp
  unfold State.endStream
  repeat' first
    | with_reducible exact Within.refl _ _
    | with_reducible assumption
    | (show Part.sub _ _ = true; rfl)
    | (extract_lets +onlyGivenNames x; with_reducible refine Within.cut (u := x) ?_ ?_; rotate_left; intro hx; clear_value x; rename' x => y; rotate_right; unfold x; clear x)
    | (extract_lets +onlyGivenNames x; clear_value x; rename' x => z)
    | (extract_lets +onlyGivenNames x; rename' x => z)
    | dsimp -zeta only
    | with_reducible apply State.setRep_frame
    | with_reducible apply State.releaseAll_frame
    | with_reducible apply State.startSession_frame
    | with_reducible apply State.startResync_frame
    | with_reducible apply Within.ite
    | fail_if_no_progress (with_reducible refine Within.put (a := []) ?_ rfl rfl rfl rfl rfl)
    | split

theorem State.repTakeover_frame {ps s t} groups (h : Within ps s t) (hp : Part.sub [.block 4, .block 6, .block 11, .block 13, .block 18, .block 20, .evt, .nor, .host, .cmd, .sig, .map, .rep, .store, .free, .out, .hostWait] ps = true) : Within ps s (State.repTakeover t groups) := by
  refine h.step (a := [.block 4, .block 6, .block 11, .block 13, .block 18, .block 20, .evt, .nor, .host, .cmd, .sig, .map, .rep, .store, .free, .out, .hostWait]) ?_ hp
  unfold State.repTakeover
  repeat' first
    | with_reducible exact Within.refl _ _
    | with_reducible assumption
    | (show Part.sub _ _ = true; rfl)
    | (extract_lets +onlyGivenNames x; with_reducible refine Within.cut (u := x) ?_ ?_; rotate_left; intro hx; clear_value x; rename' x => y; rotate_right; unfold x; clear x)
    | (extract_lets +onlyGivenNames x; clear_value x; rename' x => z)
    | (extract_lets +onlyGivenNames x; rename' x => z)
    | dsimp -zeta only
    | with_reducible apply State.endStream_frame
    | with_reducible apply Within.ite
    | (with_reducible refine Within.foldl _ ?_ ?_; rotate_left; intro _ _)
    | (with_reducible refine Within.foldl_snd _ ?_ ?_; rotate_left; intro _ _)
    | split

end Sys2Proof.Machine
end

