-- ==== Sys2Proof/Laws/FrameContest.lean ====
section
/-!
SUPPORT. Laws/FrameContest.lean: what the definitions of Machine/Contest.lean leave alone: each changes the listed parts at most, and keeps the
canonical form.
-/
namespace Sys2Proof.Machine
open Sys2Proof

set_option Elab.async false
set_option linter.all false

theorem State.noteWitness_frame {ps s t} l w (h : Within ps s t) (hp : Part.sub [.block 15, .block 17] ps = true) : Within ps s (State.noteWitness t l w) := by
  refine h.step (a := [.block 15, .block 17]) ?_ hp
  unfold State.noteWitness
  repeat' first
    | with_reducible exact Within.refl _ _
    | with_reducible assumption
    | (show Part.sub _ _ = true; rfl)
    | dsimp -zeta only
    | with_reducible apply State.wr_frame
    | with_reducible apply State.peak_frame
    | with_reducible apply Within.ite
    | split

theorem State.sendCas_frame {ps s t} l term holder w (h : Within ps s t) (hp : Part.sub [.lfl, .out] ps = true) : Within ps s (State.sendCas t l term holder w) := by
  refine h.step (a := [.lfl, .out]) ?_ hp
  unfold State.sendCas
  repeat' first
    | with_reducible exact Within.refl _ _
    | with_reducible assumption
    | (show Part.sub _ _ = true; rfl)
    | dsimp -zeta only
    | with_reducible apply State.leafOp_frame
    | with_reducible apply Within.ite
    | split

theorem State.endContest_frame {ps s t}  (h : Within ps s t) (hp : Part.sub [.block 17, .own] ps = true) : Within ps s (State.endContest t) := by
  refine h.step (a := [.block 17, .own]) ?_ hp
  unfold State.endContest
  repeat' first
    | with_reducible exact Within.refl _ _
    | with_reducible assumption
    | (show Part.sub _ _ = true; rfl)
    | dsimp -zeta only
    | with_reducible apply State.wr_frame
    | with_reducible apply Within.ite
    | fail_if_no_progress (with_reducible refine Within.put (a := [.own]) ?_ rfl rfl rfl rfl rfl)
    | split

theorem State.openRound_frame {ps s t} c (h : Within ps s t) (hp : Part.sub [.block 4, .block 6, .evt, .nor, .host, .own, .out, .hostWait] ps = true) : Within ps s (State.openRound t c) := by
  refine h.step (a := [.block 4, .block 6, .evt, .nor, .host, .own, .out, .hostWait]) ?_ hp
  unfold State.openRound
  repeat' first
    | with_reducible exact Within.refl _ _
    | with_reducible assumption
    | (show Part.sub _ _ = true; rfl)
    | dsimp -zeta only
    | with_reducible apply State.event1_frame
    | with_reducible apply Within.ite
    | fail_if_no_progress (with_reducible refine Within.put (a := [.own]) ?_ rfl rfl rfl rfl rfl)
    | split

theorem State.loseAdopted_frame {ps s t}  (h : Within ps s t) (hp : Part.sub [.block 4, .block 6, .block 13, .block 20, .evt, .nor, .host, .ddp, .keys, .sig, .map, .store, .out, .hostWait] ps = true) : Within ps s (State.loseAdopted t) := by
  refine h.step (a := [.block 4, .block 6, .block 13, .block 20, .evt, .nor, .host, .ddp, .keys, .sig, .map, .store, .out, .hostWait]) ?_ hp
  unfold State.loseAdopted
  repeat' first
    | with_reducible exact Within.refl _ _
    | with_reducible assumption
    | (show Part.sub _ _ = true; rfl)
    | (extract_lets +onlyGivenNames x; with_reducible refine Within.cut (u := x) ?_ ?_; rotate_left; intro hx; clear_value x; rename' x => y; rotate_right; unfold x; clear x)
    | (extract_lets +onlyGivenNames x; clear_value x; rename' x => z)
    | (extract_lets +onlyGivenNames x; rename' x => z)
    | dsimp -zeta only
    | with_reducible apply State.loseRecords_frame
    | with_reducible apply Within.ite
    | split

theorem State.adopt_frame {ps s t}  (h : Within ps s t) (hp : Part.sub [.block 4, .block 6, .block 13, .block 20, .evt, .nor, .host, .ddp, .keys, .wc, .sig, .map, .store, .out, .hostWait] ps = true) : Within ps s (State.adopt t) := by
  refine h.step (a := [.block 4, .block 6, .block 13, .block 20, .evt, .nor, .host, .ddp, .keys, .wc, .sig, .map, .store, .out, .hostWait]) ?_ hp
  unfold State.adopt
  repeat' first
    | with_reducible exact Within.refl _ _
    | with_reducible assumption
    | (show Part.sub _ _ = true; rfl)
    | (extract_lets +onlyGivenNames x; with_reducible refine Within.cut (u := x) ?_ ?_; rotate_left; intro hx; clear_value x; rename' x => y; rotate_right; unfold x; clear x)
    | (extract_lets +onlyGivenNames x; clear_value x; rename' x => z)
    | (extract_lets +onlyGivenNames x; rename' x => z)
    | dsimp -zeta only
    | with_reducible apply State.event1_frame
    | with_reducible apply State.noteDirty_frame
    | with_reducible apply State.loseAdopted_frame
    | with_reducible apply Within.ite
    | fail_if_no_progress (with_reducible refine Within.put (a := [.wc]) ?_ rfl rfl rfl rfl rfl)
    | split

theorem State.resolveTag_frame {ps s t} recs bt c (h : Within ps s t) (hp : Part.sub [.block 4, .block 6, .block 10, .block 12, .block 13, .block 19, .block 20, .evt, .nor, .host, .ports, .trn, .cmd, .ddp, .keys, .sig, .lfl, .map, .prg, .chan, .store, .out, .hostWait] ps = true) : Within ps s (State.resolveTag t recs bt c) := by
  refine h.step (a := [.block 4, .block 6, .block 10, .block 12, .block 13, .block 19, .block 20, .evt, .nor, .host, .ports, .trn, .cmd, .ddp, .keys, .sig, .lfl, .map, .prg, .chan, .store, .out, .hostWait]) ?_ hp
  unfold State.resolveTag
  repeat' first
    | with_reducible exact Within.refl _ _
    | with_reducible assumption
    | (show Part.sub _ _ = true; rfl)
    | (extract_lets +onlyGivenNames x; with_reducible refine Within.cut (u := x) ?_ ?_; rotate_left; intro hx; clear_value x; rename' x => y; rotate_right; unfold x; clear x)
    | (extract_lets +onlyGivenNames x; clear_value x; rename' x => z)
    | (extract_lets +onlyGivenNames x; rename' x => z)
    | dsimp -zeta only
    | with_reducible apply State.event1_frame
    | with_reducible apply State.restartTag_frame
    | with_reducible apply State.advance_frame
    | with_reducible apply State.finish_frame
    | with_reducible apply State.endAbort_frame
    | with_reducible apply State.abortTag_frame
    | with_reducible apply Within.ite
    | (with_reducible refine Within.foldl _ ?_ ?_; rotate_left; intro _ _)
    | (with_reducible refine Within.foldl_snd _ ?_ ?_; rotate_left; intro _ _)
    | split

theorem State.dropSuspicion_frame {ps s t}  (h : Within ps s t) (hp : Part.sub [.own] ps = true) : Within ps s (State.dropSuspicion t) := by
  refine h.step (a := [.own]) ?_ hp
  unfold State.dropSuspicion
  repeat' first
    | with_reducible exact Within.refl _ _
    | with_reducible assumption
    | (show Part.sub _ _ = true; rfl)
    | dsimp -zeta only
    | with_reducible apply Within.ite
    | fail_if_no_progress (with_reducible refine Within.put (a := [.own]) ?_ rfl rfl rfl rfl rfl)
    | split

theorem State.failMove_frame {ps s t} groups (h : Within ps s t) (hp : Part.sub [.block 4, .block 6, .block 17, .evt, .nor, .host, .own, .out, .hostWait] ps = true) : Within ps s (State.failMove t groups) := by
  refine h.step (a := [.block 4, .block 6, .block 17, .evt, .nor, .host, .own, .out, .hostWait]) ?_ hp
  unfold State.failMove
  repeat' first
    | with_reducible exact Within.refl _ _
    | with_reducible assumption
    | (show Part.sub _ _ = true; rfl)
    | dsimp -zeta only
    | with_reducible apply State.wr_frame
    | with_reducible apply State.event1_frame
    | with_reducible apply State.setGroup_frame
    | with_reducible apply Within.ite
    | fail_if_no_progress (with_reducible refine Within.put (a := []) ?_ rfl rfl rfl rfl rfl)
    | split

theorem State.clearMove_frame {ps s t}  (h : Within ps s t) (hp : Part.sub [.block 17, .own] ps = true) : Within ps s (State.clearMove t) := by
  refine h.step (a := [.block 17, .own]) ?_ hp
  unfold State.clearMove
  repeat' first
    | with_reducible exact Within.refl _ _
    | with_reducible assumption
    | (show Part.sub _ _ = true; rfl)
    | dsimp -zeta only
    | with_reducible apply State.wr_frame
    | with_reducible apply Within.ite
    | fail_if_no_progress (with_reducible refine Within.put (a := [.own]) ?_ rfl rfl rfl rfl rfl)
    | split

theorem State.takeGroups_frame {ps s t} groups (h : Within ps s t) (hp : Part.sub [.block 17, .own] ps = true) : Within ps s (State.takeGroups t groups) := by
  refine h.step (a := [.block 17, .own]) ?_ hp
  unfold State.takeGroups
  repeat' first
    | with_reducible exact Within.refl _ _
    | with_reducible assumption
    | (show Part.sub _ _ = true; rfl)
    | dsimp -zeta only
    | with_reducible apply State.setGroup_frame
    | with_reducible apply Within.ite
    | (with_reducible refine Within.foldl _ ?_ ?_; rotate_left; intro _ _)
    | (with_reducible refine Within.foldl_snd _ ?_ ?_; rotate_left; intro _ _)
    | split

theorem State.resolveForwarded_frame {ps s t} recs (h : Within ps s t) (hp : Part.sub [.block 4, .block 6, .block 10, .block 12, .block 13, .block 19, .block 20, .evt, .nor, .host, .ports, .trn, .cmd, .ddp, .keys, .sig, .lfl, .map, .prg, .chan, .store, .out, .hostWait] ps = true) : Within ps s (State.resolveForwarded t recs) := by
  refine h.step (a := [.block 4, .block 6, .block 10, .block 12, .block 13, .block 19, .block 20, .evt, .nor, .host, .ports, .trn, .cmd, .ddp, .keys, .sig, .lfl, .map, .prg, .chan, .store, .out, .hostWait]) ?_ hp
  unfold State.resolveForwarded
  repeat' first
    | with_reducible exact Within.refl _ _
    | with_reducible assumption
    | (show Part.sub _ _ = true; rfl)
    | dsimp -zeta only
    | with_reducible apply State.resolveTag_frame
    | with_reducible apply Within.ite
    | (with_reducible refine Within.foldl _ ?_ ?_; rotate_left; intro _ _)
    | (with_reducible refine Within.foldl_snd _ ?_ ?_; rotate_left; intro _ _)
    | split

theorem State.dropInward_frame {ps s t}  (h : Within ps s t) (hp : Part.sub [.block 4, .block 6, .block 10, .block 12, .block 13, .block 19, .block 20, .evt, .nor, .host, .ports, .trn, .cmd, .ddp, .keys, .sig, .lfl, .map, .rep, .prg, .chan, .store, .out, .hostWait] ps = true) : Within ps s (State.dropInward t) := by
  refine h.step (a := [.block 4, .block 6, .block 10, .block 12, .block 13, .block 19, .block 20, .evt, .nor, .host, .ports, .trn, .cmd, .ddp, .keys, .sig, .lfl, .map, .rep, .prg, .chan, .store, .out, .hostWait]) ?_ hp
  unfold State.dropInward
  repeat' first
    | with_reducible exact Within.refl _ _
    | with_reducible assumption
    | (show Part.sub _ _ = true; rfl)
    | (extract_lets +onlyGivenNames x; with_reducible refine Within.cut (u := x) ?_ ?_; rotate_left; intro hx; clear_value x; rename' x => y; rotate_right; unfold x; clear x)
    | (extract_lets +onlyGivenNames x; clear_value x; rename' x => z)
    | (extract_lets +onlyGivenNames x; rename' x => z)
    | dsimp -zeta only
    | with_reducible apply State.resetTag_frame
    | with_reducible apply Within.ite
    | (with_reducible refine Within.foldl _ ?_ ?_; rotate_left; intro _ _)
    | (with_reducible refine Within.foldl_snd _ ?_ ?_; rotate_left; intro _ _)
    | fail_if_no_progress (with_reducible refine Within.put (a := [.cmd]) ?_ rfl rfl rfl rfl rfl)
    | split

theorem State.countTakeover_frame {ps s t}  (h : Within ps s t) (hp : Part.sub [.block 17] ps = true) : Within ps s (State.countTakeover t) := by
  refine h.step (a := [.block 17]) ?_ hp
  unfold State.countTakeover
  repeat' first
    | with_reducible exact Within.refl _ _
    | with_reducible assumption
    | (show Part.sub _ _ = true; rfl)
    | (extract_lets +onlyGivenNames x; with_reducible refine Within.cut (u := x) ?_ ?_; rotate_left; intro hx; clear_value x; rename' x => y; rotate_right; unfold x; clear x)
    | (extract_lets +onlyGivenNames x; clear_value x; rename' x => z)
    | (extract_lets +onlyGivenNames x; rename' x => z)
    | dsimp -zeta only
    | with_reducible apply State.wr_frame
    | with_reducible apply State.bump_frame
    | with_reducible apply Within.ite
    | fail_if_no_progress (with_reducible refine Within.put (a := []) ?_ rfl rfl rfl rfl rfl)
    | split

theorem State.openTakeover_frame {ps s t} term (h : Within ps s t) (hp : Part.sub [.regs, .holding, .evt, .nor, .host, .cmd, .ddp, .keys, .wc, .sig, .map, .rep, .chan, .own, .store, .mem, .free, .out, .hostWait] ps = true) : Within ps s (State.openTakeover t term) := by
  refine h.step (a := [.regs, .holding, .evt, .nor, .host, .cmd, .ddp, .keys, .wc, .sig, .map, .rep, .chan, .own, .store, .mem, .free, .out, .hostWait]) ?_ hp
  unfold State.openTakeover
  repeat' first
    | with_reducible exact Within.refl _ _
    | with_reducible assumption
    | (show Part.sub _ _ = true; rfl)
    | dsimp -zeta only
    | with_reducible apply State.wr_frame
    | with_reducible apply State.peak_frame
    | with_reducible apply State.event1_frame
    | with_reducible apply State.enterSolo_frame
    | with_reducible apply State.endContest_frame
    | with_reducible apply State.adopt_frame
    | with_reducible apply State.dropSuspicion_frame
    | with_reducible apply Within.ite
    | split

theorem State.sweepExact_frame {ps s t}  (h : Within ps s t) (hp : Part.sub [.regs, .holding] ps = true) : Within ps s (State.sweepExact t) := by
  refine h.step (a := [.regs, .holding]) ?_ hp
  unfold State.sweepExact
  repeat' first
    | with_reducible exact Within.refl _ _
    | with_reducible assumption
    | (show Part.sub _ _ = true; rfl)
    | dsimp -zeta only
    | with_reducible apply State.raise_frame
    | with_reducible apply Within.ite
    | (with_reducible refine Within.foldl _ ?_ ?_; rotate_left; intro _ _)
    | (with_reducible refine Within.foldl_snd _ ?_ ?_; rotate_left; intro _ _)
    | split

theorem State.takeLedger_frame {ps s t}  (h : Within ps s t) (hp : Part.sub [.keys] ps = true) : Within ps s (State.takeLedger t) := by
  refine h.step (a := [.keys]) ?_ hp
  unfold State.takeLedger
  repeat' first
    | with_reducible exact Within.refl _ _
    | with_reducible assumption
    | (show Part.sub _ _ = true; rfl)
    | (extract_lets +onlyGivenNames x; with_reducible refine Within.cut (u := x) ?_ ?_; rotate_left; intro hx; clear_value x; rename' x => y; rotate_right; unfold x; clear x)
    | (extract_lets +onlyGivenNames x; clear_value x; rename' x => z)
    | (extract_lets +onlyGivenNames x; rename' x => z)
    | dsimp -zeta only
    | with_reducible apply Within.ite
    | (with_reducible refine Within.foldl _ ?_ ?_; rotate_left; intro _ _)
    | (with_reducible refine Within.foldl_snd _ ?_ ?_; rotate_left; intro _ _)
    | fail_if_no_progress (with_reducible refine Within.put (a := [.keys]) ?_ rfl rfl rfl rfl rfl)
    | split

theorem State.takeOver_frame {ps s t} term (h : Within ps s t) (hp : Part.sub [.regs, .holding, .evt, .nor, .host, .ports, .trn, .cmd, .ddp, .keys, .wc, .sig, .lfl, .map, .rep, .prg, .chan, .own, .store, .mem, .free, .out, .hostWait] ps = true) : Within ps s (State.takeOver t term) := by
  refine h.step (a := [.regs, .holding, .evt, .nor, .host, .ports, .trn, .cmd, .ddp, .keys, .wc, .sig, .lfl, .map, .rep, .prg, .chan, .own, .store, .mem, .free, .out, .hostWait]) ?_ hp
  unfold State.takeOver
  repeat' first
    | with_reducible exact Within.refl _ _
    | with_reducible assumption
    | (show Part.sub _ _ = true; rfl)
    | (extract_lets +onlyGivenNames x; with_reducible refine Within.cut (u := x) ?_ ?_; rotate_left; intro hx; clear_value x; rename' x => y; rotate_right; unfold x; clear x)
    | (extract_lets +onlyGivenNames x; clear_value x; rename' x => z)
    | (extract_lets +onlyGivenNames x; rename' x => z)
    | dsimp -zeta only
    | with_reducible apply State.event1_frame
    | with_reducible apply State.anaChange_frame
    | with_reducible apply State.setPeer_frame
    | with_reducible apply State.releaseHeld_frame
    | with_reducible apply State.repTakeover_frame
    | with_reducible apply State.failMove_frame
    | with_reducible apply State.clearMove_frame
    | with_reducible apply State.takeGroups_frame
    | with_reducible apply State.resolveForwarded_frame
    | with_reducible apply State.dropInward_frame
    | with_reducible apply State.countTakeover_frame
    | with_reducible apply State.openTakeover_frame
    | with_reducible apply State.sweepExact_frame
    | with_reducible apply State.takeLedger_frame
    | with_reducible apply Within.ite
    | split

theorem State.scanLog_frame {ps s t} l region first (h : Within ps s t) (hp : Part.sub [.lfl, .out] ps = true) : Within ps s (State.scanLog t l region first) := by
  refine h.step (a := [.lfl, .out]) ?_ hp
  unfold State.scanLog
  repeat' first
    | with_reducible exact Within.refl _ _
    | with_reducible assumption
    | (show Part.sub _ _ = true; rfl)
    | dsimp -zeta only
    | with_reducible apply State.readLog_frame
    | with_reducible apply Within.ite
    | split

theorem State.takeBlocks_frame {ps s t} l (h : Within ps s t) (hp : Part.sub [.lfl, .out] ps = true) : Within ps s (State.takeBlocks t l) := by
  refine h.step (a := [.lfl, .out]) ?_ hp
  unfold State.takeBlocks
  repeat' first
    | with_reducible exact Within.refl _ _
    | with_reducible assumption
    | (show Part.sub _ _ = true; rfl)
    | dsimp -zeta only
    | with_reducible apply State.leafOp_frame
    | with_reducible apply Within.ite
    | split

theorem State.fenceLeaves_frame {ps s t} term (h : Within ps s t) (hp : Part.sub [.sig, .lfl, .own, .out] ps = true) : Within ps s (State.fenceLeaves t term) := by
  refine h.step (a := [.sig, .lfl, .own, .out]) ?_ hp
  unfold State.fenceLeaves
  repeat' first
    | with_reducible exact Within.refl _ _
    | with_reducible assumption
    | (show Part.sub _ _ = true; rfl)
    | (extract_lets +onlyGivenNames x; with_reducible refine Within.cut (u := x) ?_ ?_; rotate_left; intro hx; clear_value x; rename' x => y; rotate_right; unfold x; clear x)
    | (extract_lets +onlyGivenNames x; clear_value x; rename' x => z)
    | (extract_lets +onlyGivenNames x; rename' x => z)
    | dsimp -zeta only
    | with_reducible apply State.leafOp_frame
    | with_reducible apply State.scanLog_frame
    | with_reducible apply State.takeBlocks_frame
    | with_reducible apply Within.ite
    | (with_reducible refine Within.foldl _ ?_ ?_; rotate_left; intro _ _)
    | (with_reducible refine Within.foldl_snd _ ?_ ?_; rotate_left; intro _ _)
    | fail_if_no_progress (with_reducible refine Within.put (a := [.sig, .own]) ?_ rfl rfl rfl rfl rfl)
    | split

theorem State.winContest_frame {ps s t} term (h : Within ps s t) (hp : Part.sub [.regs, .holding, .evt, .nor, .host, .ports, .trn, .cmd, .ddp, .keys, .wc, .sig, .lfl, .map, .rep, .prg, .chan, .own, .store, .mem, .free, .out, .hostWait] ps = true) : Within ps s (State.winContest t term) := by
  refine h.step (a := [.regs, .holding, .evt, .nor, .host, .ports, .trn, .cmd, .ddp, .keys, .wc, .sig, .lfl, .map, .rep, .prg, .chan, .own, .store, .mem, .free, .out, .hostWait]) ?_ hp
  unfold State.winContest
  repeat' first
    | with_reducible exact Within.refl _ _
    | with_reducible assumption
    | (show Part.sub _ _ = true; rfl)
    | dsimp -zeta only
    | with_reducible apply State.takeOver_frame
    | with_reducible apply State.fenceLeaves_frame
    | with_reducible apply Within.ite
    | split

theorem State.askRejoin_frame {ps s t}  (h : Within ps s t) (hp : Part.sub [.chan, .own, .out] ps = true) : Within ps s (State.askRejoin t) := by
  refine h.step (a := [.chan, .own, .out]) ?_ hp
  unfold State.askRejoin
  repeat' first
    | with_reducible exact Within.refl _ _
    | with_reducible assumption
    | (show Part.sub _ _ = true; rfl)
    | dsimp -zeta only
    | with_reducible apply State.sendRing_frame
    | with_reducible apply Within.ite
    | fail_if_no_progress (with_reducible refine Within.put (a := [.own]) ?_ rfl rfl rfl rfl rfl)
    | split

theorem State.setLoser_frame {ps s t}  (h : Within ps s t) (hp : Part.sub [.own] ps = true) : Within ps s (State.setLoser t) := by
  refine h.step (a := [.own]) ?_ hp
  unfold State.setLoser
  repeat' first
    | with_reducible exact Within.refl _ _
    | with_reducible assumption
    | (show Part.sub _ _ = true; rfl)
    | dsimp -zeta only
    | with_reducible apply Within.ite
    | fail_if_no_progress (with_reducible refine Within.put (a := [.own]) ?_ rfl rfl rfl rfl rfl)
    | split

theorem State.endWaiting_frame {ps s t} st (h : Within ps s t) (hp : Part.sub [.cmd] ps = true) : Within ps s (State.endWaiting t st) := by
  refine h.step (a := [.cmd]) ?_ hp
  unfold State.endWaiting
  repeat' first
    | with_reducible exact Within.refl _ _
    | with_reducible assumption
    | (show Part.sub _ _ = true; rfl)
    | dsimp -zeta only
    | with_reducible apply State.finish_frame
    | with_reducible apply Within.ite
    | (with_reducible refine Within.foldl _ ?_ ?_; rotate_left; intro _ _)
    | (with_reducible refine Within.foldl_snd _ ?_ ?_; rotate_left; intro _ _)
    | split

theorem State.loseContest_frame {ps s t} term (h : Within ps s t) (hp : Part.sub [.regs, .holding, .evt, .nor, .host, .ports, .trn, .cmd, .ddp, .keys, .wc, .sig, .lfl, .map, .rep, .prg, .chan, .own, .store, .mem, .free, .out, .hostWait] ps = true) : Within ps s (State.loseContest t term) := by
  refine h.step (a := [.regs, .holding, .evt, .nor, .host, .ports, .trn, .cmd, .ddp, .keys, .wc, .sig, .lfl, .map, .rep, .prg, .chan, .own, .store, .mem, .free, .out, .hostWait]) ?_ hp
  unfold State.loseContest
  repeat' first
    | with_reducible exact Within.refl _ _
    | with_reducible assumption
    | (show Part.sub _ _ = true; rfl)
    | (extract_lets +onlyGivenNames x; with_reducible refine Within.cut (u := x) ?_ ?_; rotate_left; intro hx; clear_value x; rename' x => y; rotate_right; unfold x; clear x)
    | (extract_lets +onlyGivenNames x; clear_value x; rename' x => z)
    | (extract_lets +onlyGivenNames x; rename' x => z)
    | dsimp -zeta only
    | with_reducible apply State.wr_frame
    | with_reducible apply State.fresh_frame
    | with_reducible apply State.event1_frame
    | with_reducible apply State.anaChange_frame
    | with_reducible apply State.setPeer_frame
    | with_reducible apply State.releaseHeld_frame
    | with_reducible apply State.endContest_frame
    | with_reducible apply State.askRejoin_frame
    | with_reducible apply State.setLoser_frame
    | with_reducible apply State.endWaiting_frame
    | with_reducible apply Within.ite
    | split
    | (with_reducible refine Within.of_pair (by assumption) ?_)

theorem State.judgeRound_frame {ps s t}  (h : Within ps s t) (hp : Part.sub [.regs, .holding, .evt, .nor, .host, .ports, .trn, .cmd, .ddp, .keys, .wc, .sig, .lfl, .map, .rep, .prg, .chan, .own, .store, .mem, .free, .out, .hostWait] ps = true) : Within ps s (State.judgeRound t) := by
  refine h.step (a := [.regs, .holding, .evt, .nor, .host, .ports, .trn, .cmd, .ddp, .keys, .wc, .sig, .lfl, .map, .rep, .prg, .chan, .own, .store, .mem, .free, .out, .hostWait]) ?_ hp
  unfold State.judgeRound
  repeat' first
    | with_reducible exact Within.refl _ _
    | with_reducible assumption
    | (show Part.sub _ _ = true; rfl)
    | (extract_lets +onlyGivenNames x; with_reducible refine Within.cut (u := x) ?_ ?_; rotate_left; intro hx; clear_value x; rename' x => y; rotate_right; unfold x; clear x)
    | (extract_lets +onlyGivenNames x; clear_value x; rename' x => z)
    | (extract_lets +onlyGivenNames x; rename' x => z)
    | dsimp -zeta only
    | with_reducible apply State.openRound_frame
    | with_reducible apply State.winContest_frame
    | with_reducible apply State.loseContest_frame
    | with_reducible apply Within.ite
    | fail_if_no_progress (with_reducible refine Within.put (a := []) ?_ rfl rfl rfl rfl rfl)
    | split

theorem State.startCas_frame {ps s t} c (h : Within ps s t) (hp : Part.sub [.regs, .holding, .evt, .nor, .host, .ports, .trn, .cmd, .ddp, .keys, .wc, .sig, .lfl, .map, .rep, .prg, .chan, .own, .store, .mem, .free, .out, .hostWait] ps = true) : Within ps s (State.startCas t c) := by
  refine h.step (a := [.regs, .holding, .evt, .nor, .host, .ports, .trn, .cmd, .ddp, .keys, .wc, .sig, .lfl, .map, .rep, .prg, .chan, .own, .store, .mem, .free, .out, .hostWait]) ?_ hp
  unfold State.startCas
  repeat' first
    | with_reducible exact Within.refl _ _
    | with_reducible assumption
    | (show Part.sub _ _ = true; rfl)
    | (extract_lets +onlyGivenNames x; with_reducible refine Within.cut (u := x) ?_ ?_; rotate_left; intro hx; clear_value x; rename' x => y; rotate_right; unfold x; clear x)
    | (extract_lets +onlyGivenNames x; clear_value x; rename' x => z)
    | (extract_lets +onlyGivenNames x; rename' x => z)
    | dsimp -zeta only
    | with_reducible apply State.sendCas_frame
    | with_reducible apply State.endContest_frame
    | with_reducible apply State.judgeRound_frame
    | with_reducible apply Within.ite
    | (with_reducible refine Within.foldl _ ?_ ?_; rotate_left; intro _ _)
    | (with_reducible refine Within.foldl_snd _ ?_ ?_; rotate_left; intro _ _)
    | fail_if_no_progress (with_reducible refine Within.put (a := [.own]) ?_ rfl rfl rfl rfl rfl)
    | split

theorem State.settleReads_frame {ps s t}  (h : Within ps s t) (hp : Part.sub [.regs, .holding, .evt, .nor, .host, .ports, .trn, .cmd, .ddp, .keys, .wc, .sig, .lfl, .map, .rep, .prg, .chan, .own, .store, .mem, .free, .out, .hostWait] ps = true) : Within ps s (State.settleReads t) := by
  refine h.step (a := [.regs, .holding, .evt, .nor, .host, .ports, .trn, .cmd, .ddp, .keys, .wc, .sig, .lfl, .map, .rep, .prg, .chan, .own, .store, .mem, .free, .out, .hostWait]) ?_ hp
  unfold State.settleReads
  repeat' first
    | with_reducible exact Within.refl _ _
    | with_reducible assumption
    | (show Part.sub _ _ = true; rfl)
    | dsimp -zeta only
    | with_reducible apply State.startCas_frame
    | with_reducible apply Within.ite
    | fail_if_no_progress (with_reducible refine Within.put (a := []) ?_ rfl rfl rfl rfl rfl)
    | split

theorem State.startRound_frame {ps s t} c (h : Within ps s t) (hp : Part.sub [.regs, .holding, .evt, .nor, .host, .ports, .trn, .cmd, .ddp, .keys, .wc, .sig, .lfl, .map, .rep, .prg, .chan, .own, .store, .mem, .free, .out, .hostWait] ps = true) : Within ps s (State.startRound t c) := by
  refine h.step (a := [.regs, .holding, .evt, .nor, .host, .ports, .trn, .cmd, .ddp, .keys, .wc, .sig, .lfl, .map, .rep, .prg, .chan, .own, .store, .mem, .free, .out, .hostWait]) ?_ hp
  unfold State.startRound
  repeat' first
    | with_reducible exact Within.refl _ _
    | with_reducible assumption
    | (show Part.sub _ _ = true; rfl)
    | (extract_lets +onlyGivenNames x; with_reducible refine Within.cut (u := x) ?_ ?_; rotate_left; intro hx; clear_value x; rename' x => y; rotate_right; unfold x; clear x)
    | (extract_lets +onlyGivenNames x; clear_value x; rename' x => z)
    | (extract_lets +onlyGivenNames x; rename' x => z)
    | dsimp -zeta only
    | with_reducible apply State.leafOp_frame
    | with_reducible apply State.settleReads_frame
    | with_reducible apply Within.ite
    | (with_reducible refine Within.foldl _ ?_ ?_; rotate_left; intro _ _)
    | (with_reducible refine Within.foldl_snd _ ?_ ?_; rotate_left; intro _ _)
    | fail_if_no_progress (with_reducible refine Within.put (a := [.own]) ?_ rfl rfl rfl rfl rfl)
    | split

theorem State.startContest_frame {ps s t} atStart (h : Within ps s t) (hp : Part.sub [.regs, .holding, .evt, .nor, .host, .ports, .trn, .cmd, .ddp, .keys, .wc, .sig, .lfl, .map, .rep, .prg, .chan, .own, .store, .mem, .free, .out, .hostWait] ps = true) : Within ps s (State.startContest t atStart) := by
  refine h.step (a := [.regs, .holding, .evt, .nor, .host, .ports, .trn, .cmd, .ddp, .keys, .wc, .sig, .lfl, .map, .rep, .prg, .chan, .own, .store, .mem, .free, .out, .hostWait]) ?_ hp
  unfold State.startContest
  repeat' first
    | with_reducible exact Within.refl _ _
    | with_reducible assumption
    | (show Part.sub _ _ = true; rfl)
    | dsimp -zeta only
    | with_reducible apply State.wr_frame
    | with_reducible apply State.startRound_frame
    | with_reducible apply Within.ite
    | split

theorem State.witnessIn_frame {ps s t} l w (h : Within ps s t) (hp : Part.sub [.regs, .holding, .evt, .nor, .host, .ports, .trn, .cmd, .ddp, .keys, .wc, .sig, .lfl, .map, .rep, .prg, .chan, .own, .store, .mem, .free, .out, .hostWait] ps = true) : Within ps s (State.witnessIn t l w) := by
  refine h.step (a := [.regs, .holding, .evt, .nor, .host, .ports, .trn, .cmd, .ddp, .keys, .wc, .sig, .lfl, .map, .rep, .prg, .chan, .own, .store, .mem, .free, .out, .hostWait]) ?_ hp
  unfold State.witnessIn
  repeat' first
    | with_reducible exact Within.refl _ _
    | with_reducible assumption
    | (show Part.sub _ _ = true; rfl)
    | (extract_lets +onlyGivenNames x; with_reducible refine Within.cut (u := x) ?_ ?_; rotate_left; intro hx; clear_value x; rename' x => y; rotate_right; unfold x; clear x)
    | (extract_lets +onlyGivenNames x; clear_value x; rename' x => z)
    | (extract_lets +onlyGivenNames x; rename' x => z)
    | dsimp -zeta only
    | with_reducible apply State.noteWitness_frame
    | with_reducible apply State.sendCas_frame
    | with_reducible apply State.settleReads_frame
    | with_reducible apply Within.ite
    | fail_if_no_progress (with_reducible refine Within.put (a := [.own]) ?_ rfl rfl rfl rfl rfl)
    | split

theorem State.noteWon_frame {ps s t} l won (h : Within ps s t) (hp : Part.sub [.block 17] ps = true) : Within ps s (State.noteWon t l won) := by
  refine h.step (a := [.block 17]) ?_ hp
  unfold State.noteWon
  repeat' first
    | with_reducible exact Within.refl _ _
    | with_reducible assumption
    | (show Part.sub _ _ = true; rfl)
    | dsimp -zeta only
    | with_reducible apply State.wr_frame
    | with_reducible apply Within.ite
    | (with_reducible refine Within.foldl _ ?_ ?_; rotate_left; intro _ _)
    | (with_reducible refine Within.foldl_snd _ ?_ ?_; rotate_left; intro _ _)
    | split

theorem State.casIn_frame {ps s t} l w installed (h : Within ps s t) (hp : Part.sub [.regs, .holding, .evt, .nor, .host, .ports, .trn, .cmd, .ddp, .keys, .wc, .sig, .lfl, .map, .rep, .prg, .chan, .own, .store, .mem, .free, .out, .hostWait] ps = true) : Within ps s (State.casIn t l w installed) := by
  refine h.step (a := [.regs, .holding, .evt, .nor, .host, .ports, .trn, .cmd, .ddp, .keys, .wc, .sig, .lfl, .map, .rep, .prg, .chan, .own, .store, .mem, .free, .out, .hostWait]) ?_ hp
  unfold State.casIn
  repeat' first
    | with_reducible exact Within.refl _ _
    | with_reducible assumption
    | (show Part.sub _ _ = true; rfl)
    | (extract_lets +onlyGivenNames x; with_reducible refine Within.cut (u := x) ?_ ?_; rotate_left; intro hx; clear_value x; rename' x => y; rotate_right; unfold x; clear x)
    | (extract_lets +onlyGivenNames x; clear_value x; rename' x => z)
    | (extract_lets +onlyGivenNames x; rename' x => z)
    | dsimp -zeta only
    | with_reducible apply State.noteWitness_frame
    | with_reducible apply State.takeBlocks_frame
    | with_reducible apply State.judgeRound_frame
    | with_reducible apply State.noteWon_frame
    | with_reducible apply Within.ite
    | fail_if_no_progress (with_reducible refine Within.put (a := [.own]) ?_ rfl rfl rfl rfl rfl)
    | split

end Sys2Proof.Machine
end

