-- ==== Sys2Proof/Laws/FrameOwnership.lean ====
section
/-!
SUPPORT. Laws/FrameOwnership.lean: what the definitions of Machine/Ownership.lean leave alone: each changes the listed parts at most, and keeps the
canonical form.
-/
namespace Sys2Proof.Machine
open Sys2Proof

set_option Elab.async false
set_option linter.all false

theorem State.takeRejoin_frame {ps s t}  (h : Within ps s t) (hp : Part.sub [.block 4, .block 6, .block 17, .evt, .nor, .host, .lfl, .chan, .own, .out, .hostWait] ps = true) : Within ps s (State.takeRejoin t) := by
  refine h.step (a := [.block 4, .block 6, .block 17, .evt, .nor, .host, .lfl, .chan, .own, .out, .hostWait]) ?_ hp
  unfold State.takeRejoin
  repeat' first
    | with_reducible exact Within.refl _ _
    | with_reducible assumption
    | (show Part.sub _ _ = true; rfl)
    | (extract_lets +onlyGivenNames x; with_reducible refine Within.cut (u := x) ?_ ?_; rotate_left; intro hx; clear_value x; rename' x => y; rotate_right; unfold x; clear x)
    | (extract_lets +onlyGivenNames x; clear_value x; rename' x => z)
    | (extract_lets +onlyGivenNames x; rename' x => z)
    | dsimp -zeta only
    | with_reducible apply State.peak_frame
    | with_reducible apply State.proposeEpoch_frame
    | with_reducible apply State.sendCas_frame
    | with_reducible apply Within.ite
    | (with_reducible refine Within.foldl _ ?_ ?_; rotate_left; intro _ _)
    | (with_reducible refine Within.foldl_snd _ ?_ ?_; rotate_left; intro _ _)
    | fail_if_no_progress (with_reducible refine Within.put (a := [.own]) ?_ rfl rfl rfl rfl rfl)
    | split

theorem execHeartbeatSend_frame  s : Lands [.block 4, .block 6, .block 17, .evt, .nor, .host, .lfl, .chan, .own, .out, .hostWait] s (execHeartbeatSend s) := by
  unfold execHeartbeatSend
  repeat' first
    | with_reducible exact Within.refl _ _
    | with_reducible assumption
    | (show Part.sub _ _ = true; rfl)
    | with_reducible apply Lands.next
    | (extract_lets +onlyGivenNames x; with_reducible refine Lands.cut (u := x) ?_ ?_; rotate_left; intro hx; clear_value x; rename' x => y; rotate_right; unfold x; clear x)
    | (extract_lets +onlyGivenNames x; with_reducible refine Within.cut (u := x) ?_ ?_; rotate_left; intro hx; clear_value x; rename' x => y; rotate_right; unfold x; clear x)
    | (extract_lets +onlyGivenNames x; clear_value x; rename' x => z)
    | (extract_lets +onlyGivenNames x; rename' x => z)
    | dsimp -zeta only
    | with_reducible apply State.sendRing_frame
    | with_reducible apply State.takeRejoin_frame
    | with_reducible apply Lands.ite
    | with_reducible apply Within.ite
    | (with_reducible refine Within.foldl _ ?_ ?_; rotate_left; intro _ _)
    | (with_reducible refine Within.foldl_snd _ ?_ ?_; rotate_left; intro _ _)
    | fail_if_no_progress (with_reducible refine Within.put (a := [.own]) ?_ rfl rfl rfl rfl rfl)
    | split

theorem State.leaveSuspect_frame {ps s t}  (h : Within ps s t) (hp : Part.sub [.block 4, .block 6, .block 20, .evt, .nor, .host, .wc, .out, .hostWait] ps = true) : Within ps s (State.leaveSuspect t) := by
  refine h.step (a := [.block 4, .block 6, .block 20, .evt, .nor, .host, .wc, .out, .hostWait]) ?_ hp
  unfold State.leaveSuspect
  repeat' first
    | with_reducible exact Within.refl _ _
    | with_reducible assumption
    | (show Part.sub _ _ = true; rfl)
    | dsimp -zeta only
    | with_reducible apply State.setMode_frame
    | with_reducible apply Within.ite
    | split

theorem State.clearSuspicion_frame {ps s t}  (h : Within ps s t) (hp : Part.sub [.regs, .holding, .evt, .nor, .host, .ports, .trn, .cmd, .ddp, .keys, .wc, .sig, .lfl, .map, .rep, .prg, .chan, .own, .store, .mem, .free, .out, .hostWait] ps = true) : Within ps s (State.clearSuspicion t) := by
  refine h.step (a := [.regs, .holding, .evt, .nor, .host, .ports, .trn, .cmd, .ddp, .keys, .wc, .sig, .lfl, .map, .rep, .prg, .chan, .own, .store, .mem, .free, .out, .hostWait]) ?_ hp
  unfold State.clearSuspicion
  repeat' first
    | with_reducible exact Within.refl _ _
    | with_reducible assumption
    | (show Part.sub _ _ = true; rfl)
    | (extract_lets +onlyGivenNames x; with_reducible refine Within.cut (u := x) ?_ ?_; rotate_left; intro hx; clear_value x; rename' x => y; rotate_right; unfold x; clear x)
    | (extract_lets +onlyGivenNames x; clear_value x; rename' x => z)
    | (extract_lets +onlyGivenNames x; rename' x => z)
    | dsimp -zeta only
    | with_reducible apply State.event_frame
    | with_reducible apply State.anaChange_frame
    | with_reducible apply State.setPeer_frame
    | with_reducible apply State.releaseHeld_frame
    | with_reducible apply State.endContest_frame
    | with_reducible apply State.leaveSuspect_frame
    | with_reducible apply Within.ite
    | fail_if_no_progress (with_reducible refine Within.put (a := [.own]) ?_ rfl rfl rfl rfl rfl)
    | split

theorem execHeartbeat_frame beat s : Lands [.regs, .holding, .evt, .nor, .host, .ports, .trn, .cmd, .ddp, .keys, .wc, .sig, .lfl, .map, .rep, .prg, .chan, .own, .store, .mem, .free, .out, .hostWait] s (execHeartbeat beat s) := by
  unfold execHeartbeat
  repeat' first
    | with_reducible exact Within.refl _ _
    | with_reducible assumption
    | (show Part.sub _ _ = true; rfl)
    | with_reducible apply Lands.next
    | (extract_lets +onlyGivenNames x; with_reducible refine Lands.cut (u := x) ?_ ?_; rotate_left; intro hx; clear_value x; rename' x => y; rotate_right; unfold x; clear x)
    | (extract_lets +onlyGivenNames x; with_reducible refine Within.cut (u := x) ?_ ?_; rotate_left; intro hx; clear_value x; rename' x => y; rotate_right; unfold x; clear x)
    | (extract_lets +onlyGivenNames x; clear_value x; rename' x => z)
    | (extract_lets +onlyGivenNames x; rename' x => z)
    | dsimp -zeta only
    | with_reducible apply State.peak_frame
    | with_reducible apply State.setPeer_frame
    | with_reducible apply State.proposeEpoch_frame
    | with_reducible apply State.askRejoin_frame
    | with_reducible apply State.clearSuspicion_frame
    | with_reducible apply Lands.ite
    | with_reducible apply Within.ite
    | fail_if_no_progress (with_reducible refine Within.put (a := [.own]) ?_ rfl rfl rfl rfl rfl)
    | split

theorem execPeerSuspect_frame  s : Lands [.regs, .holding, .evt, .nor, .host, .ports, .trn, .cmd, .ddp, .keys, .wc, .sig, .lfl, .map, .rep, .prg, .chan, .own, .store, .mem, .free, .out, .hostWait] s (execPeerSuspect s) := by
  unfold execPeerSuspect
  repeat' first
    | with_reducible exact Within.refl _ _
    | with_reducible assumption
    | (show Part.sub _ _ = true; rfl)
    | with_reducible apply Lands.next
    | (extract_lets +onlyGivenNames x; with_reducible refine Lands.cut (u := x) ?_ ?_; rotate_left; intro hx; clear_value x; rename' x => y; rotate_right; unfold x; clear x)
    | (extract_lets +onlyGivenNames x; with_reducible refine Within.cut (u := x) ?_ ?_; rotate_left; intro hx; clear_value x; rename' x => y; rotate_right; unfold x; clear x)
    | (extract_lets +onlyGivenNames x; clear_value x; rename' x => z)
    | (extract_lets +onlyGivenNames x; rename' x => z)
    | dsimp -zeta only
    | with_reducible apply State.event_frame
    | with_reducible apply State.anaChange_frame
    | with_reducible apply State.setPeer_frame
    | with_reducible apply State.enterSuspect_frame
    | with_reducible apply State.startContest_frame
    | with_reducible apply Lands.ite
    | with_reducible apply Within.ite
    | fail_if_no_progress (with_reducible refine Within.put (a := [.own]) ?_ rfl rfl rfl rfl rfl)
    | split

theorem execStuckSuspectExpiry_frame  s : Lands [.regs, .holding, .evt, .nor, .host, .ports, .trn, .cmd, .ddp, .keys, .wc, .sig, .lfl, .map, .rep, .prg, .chan, .own, .store, .mem, .free, .out, .hostWait] s (execStuckSuspectExpiry s) := by
  unfold execStuckSuspectExpiry
  repeat' first
    | with_reducible exact Within.refl _ _
    | with_reducible assumption
    | (show Part.sub _ _ = true; rfl)
    | with_reducible apply Lands.next
    | dsimp -zeta only
    | with_reducible apply State.startContest_frame
    | with_reducible apply Lands.ite
    | with_reducible apply Within.ite
    | split

theorem execPowerFailNotice_frame  s : Lands [.own] s (execPowerFailNotice s) := by
  unfold execPowerFailNotice
  repeat' first
    | with_reducible exact Within.refl _ _
    | with_reducible assumption
    | (show Part.sub _ _ = true; rfl)
    | with_reducible apply Lands.next
    | dsimp -zeta only
    | with_reducible apply Lands.ite
    | with_reducible apply Within.ite
    | fail_if_no_progress (with_reducible refine Within.put (a := [.own]) ?_ rfl rfl rfl rfl rfl)
    | split

theorem execPfHoldoffExpiry_frame  s : Lands [.regs, .holding, .evt, .nor, .host, .ports, .trn, .cmd, .ddp, .keys, .wc, .sig, .lfl, .map, .rep, .prg, .chan, .own, .store, .mem, .free, .out, .hostWait] s (execPfHoldoffExpiry s) := by
  unfold execPfHoldoffExpiry
  repeat' first
    | with_reducible exact Within.refl _ _
    | with_reducible assumption
    | (show Part.sub _ _ = true; rfl)
    | with_reducible apply Lands.next
    | dsimp -zeta only
    | with_reducible apply State.startContest_frame
    | with_reducible apply Lands.ite
    | with_reducible apply Within.ite
    | fail_if_no_progress (with_reducible refine Within.put (a := [.own]) ?_ rfl rfl rfl rfl rfl)
    | split

theorem execStartHeartbeatTimeout_frame  s : Lands [.regs, .holding, .evt, .nor, .host, .ports, .trn, .cmd, .ddp, .keys, .wc, .sig, .lfl, .map, .rep, .prg, .chan, .own, .store, .mem, .free, .out, .hostWait] s (execStartHeartbeatTimeout s) := by
  unfold execStartHeartbeatTimeout
  repeat' first
    | with_reducible exact Within.refl _ _
    | with_reducible assumption
    | (show Part.sub _ _ = true; rfl)
    | with_reducible apply Lands.next
    | dsimp -zeta only
    | with_reducible apply State.startContest_frame
    | with_reducible apply Lands.ite
    | with_reducible apply Within.ite
    | split

theorem execForce_frame  s : Lands [.regs, .holding, .evt, .nor, .host, .ports, .trn, .cmd, .ddp, .keys, .wc, .sig, .lfl, .map, .rep, .prg, .chan, .own, .store, .mem, .free, .out, .hostWait] s (execForce s) := by
  unfold execForce
  repeat' first
    | with_reducible exact Within.refl _ _
    | with_reducible assumption
    | (show Part.sub _ _ = true; rfl)
    | with_reducible apply Lands.next
    | dsimp -zeta only
    | with_reducible apply State.startContest_frame
    | with_reducible apply Lands.ite
    | with_reducible apply Within.ite
    | split

theorem execContestRetry_frame  s : Lands [.regs, .holding, .evt, .nor, .host, .ports, .trn, .cmd, .ddp, .keys, .wc, .sig, .lfl, .map, .rep, .prg, .chan, .own, .store, .mem, .free, .out, .hostWait] s (execContestRetry s) := by
  unfold execContestRetry
  repeat' first
    | with_reducible exact Within.refl _ _
    | with_reducible assumption
    | (show Part.sub _ _ = true; rfl)
    | with_reducible apply Lands.next
    | dsimp -zeta only
    | with_reducible apply State.startRound_frame
    | with_reducible apply Lands.ite
    | with_reducible apply Within.ite
    | fail_if_no_progress (with_reducible refine Within.put (a := []) ?_ rfl rfl rfl rfl rfl)
    | split

theorem State.discardRegions_frame {ps s t}  (h : Within ps s t) (hp : Part.sub [.block 13, .block 20, .wc, .sig, .map, .store] ps = true) : Within ps s (State.discardRegions t) := by
  refine h.step (a := [.block 13, .block 20, .wc, .sig, .map, .store]) ?_ hp
  unfold State.discardRegions
  repeat' first
    | with_reducible exact Within.refl _ _
    | with_reducible assumption
    | (show Part.sub _ _ = true; rfl)
    | (extract_lets +onlyGivenNames x; with_reducible refine Within.cut (u := x) ?_ ?_; rotate_left; intro hx; clear_value x; rename' x => y; rotate_right; unfold x; clear x)
    | (extract_lets +onlyGivenNames x; clear_value x; rename' x => z)
    | (extract_lets +onlyGivenNames x; rename' x => z)
    | dsimp -zeta only
    | with_reducible apply State.noteDirty_frame
    | with_reducible apply State.emptySeg_frame
    | with_reducible apply Within.ite
    | (with_reducible refine Within.foldl _ ?_ ?_; rotate_left; intro _ _)
    | (with_reducible refine Within.foldl_snd _ ?_ ?_; rotate_left; intro _ _)
    | fail_if_no_progress (with_reducible refine Within.put (a := [.wc]) ?_ rfl rfl rfl rfl rfl)
    | split

theorem execEpochProposal_frame prop s : Lands [.regs, .holding, .evt, .nor, .host, .ports, .trn, .cmd, .ddp, .keys, .wc, .sig, .lfl, .map, .rep, .prg, .chan, .own, .store, .mem, .free, .out, .hostWait] s (execEpochProposal prop s) := by
  unfold execEpochProposal
  repeat' first
    | with_reducible exact Within.refl _ _
    | with_reducible assumption
    | (show Part.sub _ _ = true; rfl)
    | with_reducible apply Lands.next
    | (extract_lets +onlyGivenNames x; with_reducible refine Lands.cut (u := x) ?_ ?_; rotate_left; intro hx; clear_value x; rename' x => y; rotate_right; unfold x; clear x)
    | (extract_lets +onlyGivenNames x; with_reducible refine Within.cut (u := x) ?_ ?_; rotate_left; intro hx; clear_value x; rename' x => y; rotate_right; unfold x; clear x)
    | (extract_lets +onlyGivenNames x; clear_value x; rename' x => z)
    | (extract_lets +onlyGivenNames x; rename' x => z)
    | dsimp -zeta only
    | with_reducible apply State.wr_frame
    | with_reducible apply State.sendRing_frame
    | with_reducible apply State.anaChange_frame
    | with_reducible apply State.setWitness_frame
    | with_reducible apply State.setGroup_frame
    | with_reducible apply State.startEpoch_frame
    | with_reducible apply State.releaseHeld_frame
    | with_reducible apply State.discardRegions_frame
    | with_reducible apply Lands.ite
    | with_reducible apply Within.ite
    | (with_reducible refine Within.foldl _ ?_ ?_; rotate_left; intro _ _)
    | (with_reducible refine Within.foldl_snd _ ?_ ?_; rotate_left; intro _ _)
    | split

theorem execEpochAccept_frame epoch s : Lands [.regs, .holding, .evt, .nor, .host, .ports, .trn, .cmd, .ddp, .keys, .wc, .sig, .lfl, .map, .rep, .prg, .chan, .own, .store, .mem, .free, .out, .hostWait] s (execEpochAccept epoch s) := by
  unfold execEpochAccept
  repeat' first
    | with_reducible exact Within.refl _ _
    | with_reducible assumption
    | (show Part.sub _ _ = true; rfl)
    | with_reducible apply Lands.next
    | dsimp -zeta only
    | with_reducible apply State.anaChange_frame
    | with_reducible apply State.startEpoch_frame
    | with_reducible apply State.releaseHeld_frame
    | with_reducible apply Lands.ite
    | with_reducible apply Within.ite
    | split

theorem execRejoinRequest_frame  s : Lands [.block 4, .block 6, .block 17, .evt, .nor, .host, .lfl, .chan, .own, .out, .hostWait] s (execRejoinRequest s) := by
  unfold execRejoinRequest
  repeat' first
    | with_reducible exact Within.refl _ _
    | with_reducible assumption
    | (show Part.sub _ _ = true; rfl)
    | with_reducible apply Lands.next
    | dsimp -zeta only
    | with_reducible apply State.takeRejoin_frame
    | with_reducible apply Lands.ite
    | with_reducible apply Within.ite
    | fail_if_no_progress (with_reducible refine Within.put (a := [.own]) ?_ rfl rfl rfl rfl rfl)
    | split

theorem State.cancelForwarded_frame {ps s t} rtag (h : Within ps s t) (hp : Part.sub [.block 4, .block 6, .block 10, .block 12, .block 13, .block 19, .block 20, .evt, .nor, .host, .cmd, .ddp, .keys, .sig, .lfl, .map, .prg, .chan, .store, .out, .hostWait] ps = true) : Within ps s (State.cancelForwarded t rtag) := by
  refine h.step (a := [.block 4, .block 6, .block 10, .block 12, .block 13, .block 19, .block 20, .evt, .nor, .host, .cmd, .ddp, .keys, .sig, .lfl, .map, .prg, .chan, .store, .out, .hostWait]) ?_ hp
  unfold State.cancelForwarded
  repeat' first
    | with_reducible exact Within.refl _ _
    | with_reducible assumption
    | (show Part.sub _ _ = true; rfl)
    | (extract_lets +onlyGivenNames x; with_reducible refine Within.cut (u := x) ?_ ?_; rotate_left; intro hx; clear_value x; rename' x => y; rotate_right; unfold x; clear x)
    | (extract_lets +onlyGivenNames x; clear_value x; rename' x => z)
    | (extract_lets +onlyGivenNames x; rename' x => z)
    | dsimp -zeta only
    | with_reducible apply State.sendRing_frame
    | with_reducible apply State.unqueue_frame
    | with_reducible apply State.abortTag_frame
    | with_reducible apply Within.ite
    | fail_if_no_progress (with_reducible refine Within.put (a := []) ?_ rfl rfl rfl rfl rfl)
    | split

theorem execForwardedCommand_frame bh cap s : Lands [.block 4, .block 6, .block 10, .block 12, .block 13, .block 19, .block 20, .evt, .nor, .host, .cmd, .ddp, .keys, .sig, .lfl, .map, .prg, .chan, .store, .out, .hostWait] s (execForwardedCommand bh cap s) := by
  unfold execForwardedCommand
  repeat' first
    | with_reducible exact Within.refl _ _
    | with_reducible assumption
    | (show Part.sub _ _ = true; rfl)
    | with_reducible apply Lands.next
    | (extract_lets +onlyGivenNames x; with_reducible refine Lands.cut (u := x) ?_ ?_; rotate_left; intro hx; clear_value x; rename' x => y; rotate_right; unfold x; clear x)
    | (extract_lets +onlyGivenNames x; with_reducible refine Within.cut (u := x) ?_ ?_; rotate_left; intro hx; clear_value x; rename' x => y; rotate_right; unfold x; clear x)
    | (extract_lets +onlyGivenNames x; clear_value x; rename' x => z)
    | (extract_lets +onlyGivenNames x; rename' x => z)
    | dsimp -zeta only
    | with_reducible apply State.noteTags_frame
    | with_reducible apply State.cancelForwarded_frame
    | with_reducible apply Lands.ite
    | with_reducible apply Within.ite
    | fail_if_no_progress (with_reducible refine Within.put (a := [.cmd]) ?_ rfl rfl rfl rfl rfl)
    | split

theorem State.takeUnit_frame {ps s t} bt bu (h : Within ps s t) (hp : Part.sub [.block 4, .block 6, .block 11, .block 12, .block 13, .block 19, .block 20, .evt, .nor, .host, .cmd, .ddp, .keys, .wc, .sig, .lfl, .map, .prg, .chan, .store, .out, .hostWait] ps = true) : Within ps s (State.takeUnit t bt bu) := by
  refine h.step (a := [.block 4, .block 6, .block 11, .block 12, .block 13, .block 19, .block 20, .evt, .nor, .host, .cmd, .ddp, .keys, .wc, .sig, .lfl, .map, .prg, .chan, .store, .out, .hostWait]) ?_ hp
  unfold State.takeUnit
  repeat' first
    | with_reducible exact Within.refl _ _
    | with_reducible assumption
    | (show Part.sub _ _ = true; rfl)
    | (extract_lets +onlyGivenNames x; with_reducible refine Within.cut (u := x) ?_ ?_; rotate_left; intro hx; clear_value x; rename' x => y; rotate_right; unfold x; clear x)
    | (extract_lets +onlyGivenNames x; clear_value x; rename' x => z)
    | (extract_lets +onlyGivenNames x; rename' x => z)
    | dsimp -zeta only
    | with_reducible apply State.modTag_frame
    | with_reducible apply State.takeForwarded_frame
    | with_reducible apply State.tryHandOff_frame
    | with_reducible apply Within.ite
    | fail_if_no_progress (with_reducible refine Within.put (a := []) ?_ rfl rfl rfl rfl rfl)
    | split

theorem State.askedAgain_frame {ps s t} bt c bu (h : Within ps s t) (hp : Part.sub [.regs, .holding, .evt, .nor, .host, .cmd, .ddp, .keys, .sig, .lfl, .map, .rep, .prg, .chan, .store, .mem, .free, .out, .hostWait] ps = true) : Within ps s (State.askedAgain t bt c bu) := by
  refine h.step (a := [.regs, .holding, .evt, .nor, .host, .cmd, .ddp, .keys, .sig, .lfl, .map, .rep, .prg, .chan, .store, .mem, .free, .out, .hostWait]) ?_ hp
  unfold State.askedAgain
  repeat' first
    | with_reducible exact Within.refl _ _
    | with_reducible assumption
    | (show Part.sub _ _ = true; rfl)
    | (extract_lets +onlyGivenNames x; with_reducible refine Within.cut (u := x) ?_ ?_; rotate_left; intro hx; clear_value x; rename' x => y; rotate_right; unfold x; clear x)
    | (extract_lets +onlyGivenNames x; clear_value x; rename' x => z)
    | (extract_lets +onlyGivenNames x; rename' x => z)
    | dsimp -zeta only
    | with_reducible apply State.modPiece_frame
    | with_reducible apply State.askSecond_frame
    | with_reducible apply Within.ite
    | fail_if_no_progress (with_reducible refine Within.put (a := []) ?_ rfl rfl rfl rfl rfl)
    | split

theorem State.takePiece_frame {ps s t} bt bu (h : Within ps s t) (hp : Part.sub [.block 4, .block 6, .block 10, .block 11, .block 12, .block 13, .block 19, .block 20, .evt, .nor, .host, .ports, .trn, .cmd, .bnd, .ddp, .keys, .wc, .sig, .lfl, .map, .prg, .chan, .store, .free, .out, .hostWait] ps = true) : Within ps s (State.takePiece t bt bu) := by
  refine h.step (a := [.block 4, .block 6, .block 10, .block 11, .block 12, .block 13, .block 19, .block 20, .evt, .nor, .host, .ports, .trn, .cmd, .bnd, .ddp, .keys, .wc, .sig, .lfl, .map, .prg, .chan, .store, .free, .out, .hostWait]) ?_ hp
  unfold State.takePiece
  repeat' first
    | with_reducible exact Within.refl _ _
    | with_reducible assumption
    | (show Part.sub _ _ = true; rfl)
    | (extract_lets +onlyGivenNames x; with_reducible refine Within.cut (u := x) ?_ ?_; rotate_left; intro hx; clear_value x; rename' x => y; rotate_right; unfold x; clear x)
    | (extract_lets +onlyGivenNames x; clear_value x; rename' x => z)
    | (extract_lets +onlyGivenNames x; rename' x => z)
    | dsimp -zeta only
    | with_reducible apply State.modTag_frame
    | with_reducible apply State.modPiece_frame
    | with_reducible apply State.pieceDone_frame
    | with_reducible apply State.checkRead_frame
    | with_reducible apply State.checkCompare_frame
    | with_reducible apply Within.ite
    | fail_if_no_progress (with_reducible refine Within.put (a := []) ?_ rfl rfl rfl rfl rfl)
    | split

theorem execForwardedData_frame fromOwner bh units s : Lands [.regs, .holding, .evt, .nor, .host, .ports, .trn, .cmd, .bnd, .ddp, .keys, .wc, .sig, .lfl, .map, .rep, .prg, .chan, .store, .mem, .free, .out, .hostWait] s (execForwardedData fromOwner bh units s) := by
  unfold execForwardedData
  repeat' first
    | with_reducible exact Within.refl _ _
    | with_reducible assumption
    | (show Part.sub _ _ = true; rfl)
    | with_reducible apply Lands.next
    | dsimp -zeta only
    | with_reducible apply State.sendData_frame
    | with_reducible apply State.endCompare_frame
    | with_reducible apply State.takeUnit_frame
    | with_reducible apply State.askedAgain_frame
    | with_reducible apply State.takePiece_frame
    | with_reducible apply Lands.ite
    | with_reducible apply Within.ite
    | (with_reducible refine Within.foldl _ ?_ ?_; rotate_left; intro _ _)
    | (with_reducible refine Within.foldl_snd _ ?_ ?_; rotate_left; intro _ _)
    | fail_if_no_progress (with_reducible refine Within.put (a := []) ?_ rfl rfl rfl rfl rfl)
    | split

theorem State.endAborts_frame {ps s t} bt ran (h : Within ps s t) (hp : Part.sub [.block 10, .cmd] ps = true) : Within ps s (State.endAborts t bt ran) := by
  refine h.step (a := [.block 10, .cmd]) ?_ hp
  unfold State.endAborts
  repeat' first
    | with_reducible exact Within.refl _ _
    | with_reducible assumption
    | (show Part.sub _ _ = true; rfl)
    | (extract_lets +onlyGivenNames x; with_reducible refine Within.cut (u := x) ?_ ?_; rotate_left; intro hx; clear_value x; rename' x => y; rotate_right; unfold x; clear x)
    | (extract_lets +onlyGivenNames x; clear_value x; rename' x => z)
    | (extract_lets +onlyGivenNames x; rename' x => z)
    | dsimp -zeta only
    | with_reducible apply State.endAbort_frame
    | with_reducible apply Within.ite
    | (with_reducible refine Within.foldl _ ?_ ?_; rotate_left; intro _ _)
    | (with_reducible refine Within.foldl_snd _ ?_ ?_; rotate_left; intro _ _)
    | split

theorem State.takeBack_frame {ps s t} bt c (h : Within ps s t) (hp : Part.sub [.block 4, .block 6, .block 10, .block 12, .block 13, .block 19, .block 20, .evt, .nor, .host, .ports, .trn, .cmd, .ddp, .keys, .sig, .lfl, .map, .prg, .chan, .store, .out, .hostWait] ps = true) : Within ps s (State.takeBack t bt c) := by
  refine h.step (a := [.block 4, .block 6, .block 10, .block 12, .block 13, .block 19, .block 20, .evt, .nor, .host, .ports, .trn, .cmd, .ddp, .keys, .sig, .lfl, .map, .prg, .chan, .store, .out, .hostWait]) ?_ hp
  unfold State.takeBack
  repeat' first
    | with_reducible exact Within.refl _ _
    | with_reducible assumption
    | (show Part.sub _ _ = true; rfl)
    | (extract_lets +onlyGivenNames x; with_reducible refine Within.cut (u := x) ?_ ?_; rotate_left; intro hx; clear_value x; rename' x => y; rotate_right; unfold x; clear x)
    | (extract_lets +onlyGivenNames x; clear_value x; rename' x => z)
    | (extract_lets +onlyGivenNames x; rename' x => z)
    | dsimp -zeta only
    | with_reducible apply State.restartTag_frame
    | with_reducible apply State.hold_frame
    | with_reducible apply State.advance_frame
    | with_reducible apply State.abortTag_frame
    | with_reducible apply State.endAborts_frame
    | with_reducible apply Within.ite
    | fail_if_no_progress (with_reducible refine Within.put (a := []) ?_ rfl rfl rfl rfl rfl)
    | split

theorem execForwardedCompletion_frame bh s : Lands [.block 4, .block 6, .block 10, .block 11, .block 12, .block 13, .block 19, .block 20, .evt, .nor, .host, .ports, .trn, .cmd, .bnd, .ddp, .keys, .wc, .sig, .lfl, .map, .prg, .chan, .store, .free, .out, .hostWait] s (execForwardedCompletion bh s) := by
  unfold execForwardedCompletion
  repeat' first
    | with_reducible exact Within.refl _ _
    | with_reducible assumption
    | (show Part.sub _ _ = true; rfl)
    | with_reducible apply Lands.next
    | (extract_lets +onlyGivenNames x; with_reducible refine Lands.cut (u := x) ?_ ?_; rotate_left; intro hx; clear_value x; rename' x => y; rotate_right; unfold x; clear x)
    | (extract_lets +onlyGivenNames x; with_reducible refine Within.cut (u := x) ?_ ?_; rotate_left; intro hx; clear_value x; rename' x => y; rotate_right; unfold x; clear x)
    | (extract_lets +onlyGivenNames x; clear_value x; rename' x => z)
    | (extract_lets +onlyGivenNames x; rename' x => z)
    | dsimp -zeta only
    | with_reducible apply State.modTag_frame
    | with_reducible apply State.noteTags_frame
    | with_reducible apply State.finish_frame
    | with_reducible apply State.feedInCapsule_frame
    | with_reducible apply State.checkRead_frame
    | with_reducible apply State.endAborts_frame
    | with_reducible apply State.takeBack_frame
    | with_reducible apply Lands.ite
    | with_reducible apply Within.ite
    | fail_if_no_progress (with_reducible refine Within.put (a := []) ?_ rfl rfl rfl rfl rfl)
    | split

theorem State.beginMove_frame {ps s t} g (h : Within ps s t) (hp : Part.sub [.block 17, .cmd, .own] ps = true) : Within ps s (State.beginMove t g) := by
  refine h.step (a := [.block 17, .cmd, .own]) ?_ hp
  unfold State.beginMove
  repeat' first
    | with_reducible exact Within.refl _ _
    | with_reducible assumption
    | (show Part.sub _ _ = true; rfl)
    | (extract_lets +onlyGivenNames x; with_reducible refine Within.cut (u := x) ?_ ?_; rotate_left; intro hx; clear_value x; rename' x => y; rotate_right; unfold x; clear x)
    | (extract_lets +onlyGivenNames x; clear_value x; rename' x => z)
    | (extract_lets +onlyGivenNames x; rename' x => z)
    | dsimp -zeta only
    | with_reducible apply State.wr_frame
    | with_reducible apply State.anaChange_frame
    | with_reducible apply State.setGroup_frame
    | with_reducible apply Within.ite
    | fail_if_no_progress (with_reducible refine Within.put (a := [.own]) ?_ rfl rfl rfl rfl rfl)
    | split

theorem State.endMove_frame {ps s t} g x (h : Within ps s t) (hp : Part.sub [.regs, .holding, .evt, .nor, .host, .ports, .trn, .cmd, .ddp, .keys, .wc, .sig, .lfl, .map, .rep, .prg, .chan, .own, .store, .mem, .free, .out, .hostWait] ps = true) : Within ps s (State.endMove t g x) := by
  refine h.step (a := [.regs, .holding, .evt, .nor, .host, .ports, .trn, .cmd, .ddp, .keys, .wc, .sig, .lfl, .map, .rep, .prg, .chan, .own, .store, .mem, .free, .out, .hostWait]) ?_ hp
  unfold State.endMove
  repeat' first
    | with_reducible exact Within.refl _ _
    | with_reducible assumption
    | (show Part.sub _ _ = true; rfl)
    | (extract_lets +onlyGivenNames x; with_reducible refine Within.cut (u := x) ?_ ?_; rotate_left; intro hx; clear_value x; rename' x => y; rotate_right; unfold x; clear x)
    | (extract_lets +onlyGivenNames x; clear_value x; rename' x => z)
    | (extract_lets +onlyGivenNames x; rename' x => z)
    | dsimp -zeta only
    | with_reducible apply State.wr_frame
    | with_reducible apply State.event1_frame
    | with_reducible apply State.anaChange_frame
    | with_reducible apply State.setGroup_frame
    | with_reducible apply State.releaseHeld_frame
    | with_reducible apply Within.ite
    | fail_if_no_progress (with_reducible refine Within.put (a := [.own]) ?_ rfl rfl rfl rfl rfl)
    | split

theorem State.refuseMove_frame {ps s t} g (h : Within ps s t) (hp : Part.sub [.block 4, .block 6, .block 17, .evt, .nor, .host, .out, .hostWait] ps = true) : Within ps s (State.refuseMove t g) := by
  refine h.step (a := [.block 4, .block 6, .block 17, .evt, .nor, .host, .out, .hostWait]) ?_ hp
  unfold State.refuseMove
  repeat' first
    | with_reducible exact Within.refl _ _
    | with_reducible assumption
    | (show Part.sub _ _ = true; rfl)
    | dsimp -zeta only
    | with_reducible apply State.wr_frame
    | with_reducible apply State.event1_frame
    | with_reducible apply Within.ite
    | split

theorem execOwnMove_frame value s : Lands [.block 4, .block 6, .block 17, .evt, .nor, .host, .cmd, .chan, .own, .out, .hostWait] s (execOwnMove value s) := by
  unfold execOwnMove
  repeat' first
    | with_reducible exact Within.refl _ _
    | with_reducible assumption
    | (show Part.sub _ _ = true; rfl)
    | with_reducible apply Lands.next
    | (extract_lets +onlyGivenNames x; with_reducible refine Lands.cut (u := x) ?_ ?_; rotate_left; intro hx; clear_value x; rename' x => y; rotate_right; unfold x; clear x)
    | (extract_lets +onlyGivenNames x; with_reducible refine Within.cut (u := x) ?_ ?_; rotate_left; intro hx; clear_value x; rename' x => y; rotate_right; unfold x; clear x)
    | (extract_lets +onlyGivenNames x; clear_value x; rename' x => z)
    | (extract_lets +onlyGivenNames x; rename' x => z)
    | dsimp -zeta only
    | with_reducible apply State.sendRing_frame
    | with_reducible apply State.beginMove_frame
    | with_reducible apply State.refuseMove_frame
    | with_reducible apply Lands.ite
    | with_reducible apply Within.ite
    | split

theorem execMoveDrained_frame  s : Lands [.chan, .out] s (execMoveDrained s) := by
  unfold execMoveDrained
  repeat' first
    | with_reducible exact Within.refl _ _
    | with_reducible assumption
    | (show Part.sub _ _ = true; rfl)
    | with_reducible apply Lands.next
    | (extract_lets +onlyGivenNames x; with_reducible refine Lands.cut (u := x) ?_ ?_; rotate_left; intro hx; clear_value x; rename' x => y; rotate_right; unfold x; clear x)
    | (extract_lets +onlyGivenNames x; with_reducible refine Within.cut (u := x) ?_ ?_; rotate_left; intro hx; clear_value x; rename' x => y; rotate_right; unfold x; clear x)
    | (extract_lets +onlyGivenNames x; clear_value x; rename' x => z)
    | (extract_lets +onlyGivenNames x; rename' x => z)
    | dsimp -zeta only
    | with_reducible apply State.sendRing_frame
    | with_reducible apply Lands.ite
    | with_reducible apply Within.ite
    | fail_if_no_progress (with_reducible refine Within.put (a := []) ?_ rfl rfl rfl rfl rfl)
    | split

theorem execMoveRequest_frame group take s : Lands [.regs, .holding, .evt, .nor, .host, .ports, .trn, .cmd, .ddp, .keys, .wc, .sig, .lfl, .map, .rep, .prg, .chan, .own, .store, .mem, .free, .out, .hostWait] s (execMoveRequest group take s) := by
  unfold execMoveRequest
  repeat' first
    | with_reducible exact Within.refl _ _
    | with_reducible assumption
    | (show Part.sub _ _ = true; rfl)
    | with_reducible apply Lands.next
    | (extract_lets +onlyGivenNames x; with_reducible refine Lands.cut (u := x) ?_ ?_; rotate_left; intro hx; clear_value x; rename' x => y; rotate_right; unfold x; clear x)
    | (extract_lets +onlyGivenNames x; with_reducible refine Within.cut (u := x) ?_ ?_; rotate_left; intro hx; clear_value x; rename' x => y; rotate_right; unfold x; clear x)
    | (extract_lets +onlyGivenNames x; clear_value x; rename' x => z)
    | (extract_lets +onlyGivenNames x; rename' x => z)
    | dsimp -zeta only
    | with_reducible apply State.sendRing_frame
    | with_reducible apply State.beginMove_frame
    | with_reducible apply State.endMove_frame
    | with_reducible apply Lands.ite
    | with_reducible apply Within.ite
    | split

theorem execMoveAccept_frame group gen s : Lands [.regs, .holding, .evt, .nor, .host, .ports, .trn, .cmd, .ddp, .keys, .wc, .sig, .lfl, .map, .rep, .prg, .chan, .own, .store, .mem, .free, .out, .hostWait] s (execMoveAccept group gen s) := by
  unfold execMoveAccept
  repeat' first
    | with_reducible exact Within.refl _ _
    | with_reducible assumption
    | (show Part.sub _ _ = true; rfl)
    | with_reducible apply Lands.next
    | (extract_lets +onlyGivenNames x; with_reducible refine Lands.cut (u := x) ?_ ?_; rotate_left; intro hx; clear_value x; rename' x => y; rotate_right; unfold x; clear x)
    | (extract_lets +onlyGivenNames x; with_reducible refine Within.cut (u := x) ?_ ?_; rotate_left; intro hx; clear_value x; rename' x => y; rotate_right; unfold x; clear x)
    | (extract_lets +onlyGivenNames x; clear_value x; rename' x => z)
    | (extract_lets +onlyGivenNames x; rename' x => z)
    | dsimp -zeta only
    | with_reducible apply State.endMove_frame
    | with_reducible apply Lands.ite
    | with_reducible apply Within.ite
    | split

theorem execHealthReportSend_frame  s : Lands [.block 4, .block 6, .block 17, .evt, .nor, .host, .chan, .out, .hostWait] s (execHealthReportSend s) := by
  unfold execHealthReportSend
  repeat' first
    | with_reducible exact Within.refl _ _
    | with_reducible assumption
    | (show Part.sub _ _ = true; rfl)
    | with_reducible apply Lands.next
    | (extract_lets +onlyGivenNames x; with_reducible refine Lands.cut (u := x) ?_ ?_; rotate_left; intro hx; clear_value x; rename' x => y; rotate_right; unfold x; clear x)
    | (extract_lets +onlyGivenNames x; with_reducible refine Within.cut (u := x) ?_ ?_; rotate_left; intro hx; clear_value x; rename' x => y; rotate_right; unfold x; clear x)
    | (extract_lets +onlyGivenNames x; clear_value x; rename' x => z)
    | (extract_lets +onlyGivenNames x; rename' x => z)
    | dsimp -zeta only
    | with_reducible apply State.wr_frame
    | with_reducible apply State.event1_frame
    | with_reducible apply State.sendRing_frame
    | with_reducible apply Lands.ite
    | with_reducible apply Within.ite
    | split

theorem execHealthReport_frame ready trial s : Lands [.block 17, .own] s (execHealthReport ready trial s) := by
  unfold execHealthReport
  repeat' first
    | with_reducible exact Within.refl _ _
    | with_reducible assumption
    | (show Part.sub _ _ = true; rfl)
    | with_reducible apply Lands.next
    | dsimp -zeta only
    | with_reducible apply State.wr_frame
    | with_reducible apply Lands.ite
    | with_reducible apply Within.ite
    | fail_if_no_progress (with_reducible refine Within.put (a := [.own]) ?_ rfl rfl rfl rfl rfl)
    | split

end Sys2Proof.Machine
end

