-- ==== Sys2Proof/Laws/FramePowerFail.lean ====
section
/-!
SUPPORT. Laws/FramePowerFail.lean: what the definitions of Machine/PowerFail.lean leave alone: each changes the listed parts at most, and keeps the
canonical form.
-/
namespace Sys2Proof.Machine
open Sys2Proof

set_option Elab.async false
set_option linter.all false

theorem State.saveCounts_frame {ps s t}  (h : Within ps s t) (hp : Part.sub [.nor] ps = true) : Within ps s (State.saveCounts t) := by
  refine h.step (a := [.nor]) ?_ hp
  unfold State.saveCounts
  repeat' first
    | with_reducible exact Within.refl _ _
    | with_reducible assumption
    | (show Part.sub _ _ = true; rfl)
    | dsimp -zeta only
    | with_reducible apply Within.ite
    | fail_if_no_progress (with_reducible refine Within.put (a := [.nor]) ?_ rfl rfl rfl rfl rfl)
    | split

theorem State.freezeBudget_frame {ps s t}  (h : Within ps s t) (hp : Part.sub [.block 1, .block 4, .block 6, .power, .evt, .nor, .host, .out, .hostWait] ps = true) : Within ps s (State.freezeBudget t) := by
  refine h.step (a := [.block 1, .block 4, .block 6, .power, .evt, .nor, .host, .out, .hostWait]) ?_ hp
  unfold State.freezeBudget
  repeat' first
    | with_reducible exact Within.refl _ _
    | with_reducible assumption
    | (show Part.sub _ _ = true; rfl)
    | (extract_lets +onlyGivenNames x; with_reducible refine Within.cut (u := x) ?_ ?_; rotate_left; intro hx; clear_value x; rename' x => y; rotate_right; unfold x; clear x)
    | (extract_lets +onlyGivenNames x; clear_value x; rename' x => z)
    | (extract_lets +onlyGivenNames x; rename' x => z)
    | dsimp -zeta only
    | with_reducible apply State.settleBudget_frame
    | with_reducible apply Within.ite
    | fail_if_no_progress (with_reducible refine Within.put (a := [.power]) ?_ rfl rfl rfl rfl rfl)
    | split

theorem State.cutCommands_frame {ps s t}  (h : Within ps s t) (hp : Part.sub [.block 4, .block 6, .block 10, .block 12, .block 13, .block 19, .block 20, .evt, .nor, .host, .ports, .trn, .cmd, .ddp, .keys, .sig, .lfl, .map, .rep, .prg, .chan, .store, .out, .hostWait] ps = true) : Within ps s (State.cutCommands t) := by
  refine h.step (a := [.block 4, .block 6, .block 10, .block 12, .block 13, .block 19, .block 20, .evt, .nor, .host, .ports, .trn, .cmd, .ddp, .keys, .sig, .lfl, .map, .rep, .prg, .chan, .store, .out, .hostWait]) ?_ hp
  unfold State.cutCommands
  repeat' first
    | with_reducible exact Within.refl _ _
    | with_reducible assumption
    | (show Part.sub _ _ = true; rfl)
    | (extract_lets +onlyGivenNames x; with_reducible refine Within.cut (u := x) ?_ ?_; rotate_left; intro hx; clear_value x; rename' x => y; rotate_right; unfold x; clear x)
    | (extract_lets +onlyGivenNames x; clear_value x; rename' x => z)
    | (extract_lets +onlyGivenNames x; rename' x => z)
    | dsimp -zeta only
    | with_reducible apply State.noteTags_frame
    | with_reducible apply State.resetTag_frame
    | with_reducible apply Within.ite
    | (with_reducible refine Within.foldl _ ?_ ?_; rotate_left; intro _ _)
    | (with_reducible refine Within.foldl_snd _ ?_ ?_; rotate_left; intro _ _)
    | fail_if_no_progress (with_reducible refine Within.put (a := [.cmd]) ?_ rfl rfl rfl rfl rfl)
    | split

theorem State.squashSlices_frame {ps s t}  (h : Within ps s t) (hp : Part.sub [.block 4, .block 6, .block 7, .block 10, .block 12, .block 13, .block 19, .block 20, .evt, .nor, .host, .ports, .trn, .cmd, .bnd, .ddp, .keys, .sig, .lfl, .map, .rep, .prg, .chan, .store, .out, .hostWait] ps = true) : Within ps s (State.squashSlices t) := by
  refine h.step (a := [.block 4, .block 6, .block 7, .block 10, .block 12, .block 13, .block 19, .block 20, .evt, .nor, .host, .ports, .trn, .cmd, .bnd, .ddp, .keys, .sig, .lfl, .map, .rep, .prg, .chan, .store, .out, .hostWait]) ?_ hp
  unfold State.squashSlices
  repeat' first
    | with_reducible exact Within.refl _ _
    | with_reducible assumption
    | (show Part.sub _ _ = true; rfl)
    | (extract_lets +onlyGivenNames x; with_reducible refine Within.cut (u := x) ?_ ?_; rotate_left; intro hx; clear_value x; rename' x => y; rotate_right; unfold x; clear x)
    | (extract_lets +onlyGivenNames x; clear_value x; rename' x => z)
    | (extract_lets +onlyGivenNames x; rename' x => z)
    | dsimp -zeta only
    | with_reducible apply State.beginReset_frame
    | with_reducible apply Within.ite
    | (with_reducible refine Within.foldl _ ?_ ?_; rotate_left; intro _ _)
    | (with_reducible refine Within.foldl_snd _ ?_ ?_; rotate_left; intro _ _)
    | split

theorem State.openManifest_frame {ps s t}  (h : Within ps s t) (hp : Part.sub [.wc, .store] ps = true) : Within ps s (State.openManifest t) := by
  refine h.step (a := [.wc, .store]) ?_ hp
  unfold State.openManifest
  repeat' first
    | with_reducible exact Within.refl _ _
    | with_reducible assumption
    | (show Part.sub _ _ = true; rfl)
    | (extract_lets +onlyGivenNames x; with_reducible refine Within.cut (u := x) ?_ ?_; rotate_left; intro hx; clear_value x; rename' x => y; rotate_right; unfold x; clear x)
    | (extract_lets +onlyGivenNames x; clear_value x; rename' x => z)
    | (extract_lets +onlyGivenNames x; rename' x => z)
    | dsimp -zeta only
    | with_reducible apply Within.ite
    | (with_reducible refine Within.foldl _ ?_ ?_; rotate_left; intro _ _)
    | (with_reducible refine Within.foldl_snd _ ?_ ?_; rotate_left; intro _ _)
    | fail_if_no_progress (with_reducible refine Within.put (a := [.wc, .store]) ?_ rfl rfl rfl rfl rfl)
    | split

theorem State.raiseWarning_frame {ps s t} source (h : Within ps s t) (hp : Part.sub (.block 1 :: .block 4 :: .block 5 :: .block 6 :: .block 7 :: .block 10 :: .block 12 :: .block 13 :: .block 17 :: .block 19 :: .block 20 :: .power :: .test :: .evt :: .nor :: .host :: .ports :: .trn :: .cmd :: .bnd :: .ddp :: .keys :: .wc :: .sig :: .lfl :: .map :: .rep :: .prg :: .chan :: .own :: .store :: .out :: .hostWait :: []) ps = true) : Within ps s (State.raiseWarning t source) := by
  refine h.step (a := (.block 1 :: .block 4 :: .block 5 :: .block 6 :: .block 7 :: .block 10 :: .block 12 :: .block 13 :: .block 17 :: .block 19 :: .block 20 :: .power :: .test :: .evt :: .nor :: .host :: .ports :: .trn :: .cmd :: .bnd :: .ddp :: .keys :: .wc :: .sig :: .lfl :: .map :: .rep :: .prg :: .chan :: .own :: .store :: .out :: .hostWait :: [])) ?_ hp
  unfold State.raiseWarning
  repeat' first
    | with_reducible exact Within.refl _ _
    | with_reducible assumption
    | (show Part.sub _ _ = true; rfl)
    | (extract_lets +onlyGivenNames x; with_reducible refine Within.cut (u := x) ?_ ?_; rotate_left; intro hx; clear_value x; rename' x => y; rotate_right; unfold x; clear x)
    | (extract_lets +onlyGivenNames x; clear_value x; rename' x => z)
    | (extract_lets +onlyGivenNames x; rename' x => z)
    | dsimp -zeta only
    | with_reducible apply State.wr_frame
    | with_reducible apply State.event1_frame
    | with_reducible apply State.sendRing_frame
    | with_reducible apply State.stopRotation_frame
    | with_reducible apply State.setMode_frame
    | with_reducible apply State.dropRuns_frame
    | with_reducible apply State.endContest_frame
    | with_reducible apply State.saveCounts_frame
    | with_reducible apply State.freezeBudget_frame
    | with_reducible apply State.cutCommands_frame
    | with_reducible apply State.squashSlices_frame
    | with_reducible apply State.openManifest_frame
    | with_reducible apply Within.ite
    | (with_reducible refine Within.foldl _ ?_ ?_; rotate_left; intro _ _)
    | (with_reducible refine Within.foldl_snd _ ?_ ?_; rotate_left; intro _ _)
    | fail_if_no_progress (with_reducible refine Within.put (a := [.wc]) ?_ rfl rfl rfl rfl rfl)
    | split

theorem execVinLowWarning_frame  s : Lands (.block 1 :: .block 4 :: .block 5 :: .block 6 :: .block 7 :: .block 10 :: .block 12 :: .block 13 :: .block 17 :: .block 19 :: .block 20 :: .power :: .test :: .evt :: .nor :: .host :: .ports :: .trn :: .cmd :: .bnd :: .ddp :: .keys :: .wc :: .sig :: .lfl :: .map :: .rep :: .prg :: .chan :: .own :: .store :: .out :: .hostWait :: []) s (execVinLowWarning s) := by
  unfold execVinLowWarning
  repeat' first
    | with_reducible exact Within.refl _ _
    | with_reducible assumption
    | (show Part.sub _ _ = true; rfl)
    | with_reducible apply Lands.next
    | dsimp -zeta only
    | with_reducible apply State.raiseWarning_frame
    | with_reducible apply Lands.ite
    | with_reducible apply Within.ite
    | split

theorem State.dropPwrfail_frame {ps s t}  (h : Within ps s t) (hp : Part.sub [.pins] ps = true) : Within ps s (State.dropPwrfail t) := by
  refine h.step (a := [.pins]) ?_ hp
  unfold State.dropPwrfail
  repeat' first
    | with_reducible exact Within.refl _ _
    | with_reducible assumption
    | (show Part.sub _ _ = true; rfl)
    | dsimp -zeta only
    | with_reducible apply Within.ite
    | fail_if_no_progress (with_reducible refine Within.put (a := [.pins]) ?_ rfl rfl rfl rfl rfl)
    | split

theorem execPwrfailNLow_frame  s : Lands (.block 1 :: .block 4 :: .block 5 :: .block 6 :: .block 7 :: .block 10 :: .block 12 :: .block 13 :: .block 17 :: .block 19 :: .block 20 :: .pins :: .power :: .test :: .evt :: .nor :: .host :: .ports :: .trn :: .cmd :: .bnd :: .ddp :: .keys :: .wc :: .sig :: .lfl :: .map :: .rep :: .prg :: .chan :: .own :: .store :: .out :: .hostWait :: []) s (execPwrfailNLow s) := by
  unfold execPwrfailNLow
  repeat' first
    | with_reducible exact Within.refl _ _
    | with_reducible assumption
    | (show Part.sub _ _ = true; rfl)
    | with_reducible apply Lands.next
    | (extract_lets +onlyGivenNames x; with_reducible refine Lands.cut (u := x) ?_ ?_; rotate_left; intro hx; clear_value x; rename' x => y; rotate_right; unfold x; clear x)
    | (extract_lets +onlyGivenNames x; with_reducible refine Within.cut (u := x) ?_ ?_; rotate_left; intro hx; clear_value x; rename' x => y; rotate_right; unfold x; clear x)
    | (extract_lets +onlyGivenNames x; clear_value x; rename' x => z)
    | (extract_lets +onlyGivenNames x; rename' x => z)
    | dsimp -zeta only
    | with_reducible apply State.raiseWarning_frame
    | with_reducible apply State.dropPwrfail_frame
    | with_reducible apply Lands.ite
    | with_reducible apply Within.ite
    | split

theorem execDestageNow_frame  s : Lands (.block 1 :: .block 4 :: .block 5 :: .block 6 :: .block 7 :: .block 10 :: .block 12 :: .block 13 :: .block 17 :: .block 19 :: .block 20 :: .power :: .test :: .evt :: .nor :: .host :: .ports :: .trn :: .cmd :: .bnd :: .ddp :: .keys :: .wc :: .sig :: .lfl :: .map :: .rep :: .prg :: .chan :: .own :: .store :: .out :: .hostWait :: []) s (execDestageNow s) := by
  unfold execDestageNow
  repeat' first
    | with_reducible exact Within.refl _ _
    | with_reducible assumption
    | (show Part.sub _ _ = true; rfl)
    | with_reducible apply Lands.next
    | dsimp -zeta only
    | with_reducible apply State.raiseWarning_frame
    | with_reducible apply Lands.ite
    | with_reducible apply Within.ite
    | split

theorem execFrontLinksDown_frame  s : Lands [.regs, .holding, .evt, .nor, .host, .cmd, .ddp, .keys, .sig, .map, .rep, .chan, .store, .free, .out, .hostWait] s (execFrontLinksDown s) := by
  unfold execFrontLinksDown
  repeat' first
    | with_reducible exact Within.refl _ _
    | with_reducible assumption
    | (show Part.sub _ _ = true; rfl)
    | with_reducible apply Lands.next
    | (extract_lets +onlyGivenNames x; with_reducible refine Lands.cut (u := x) ?_ ?_; rotate_left; intro hx; clear_value x; rename' x => y; rotate_right; unfold x; clear x)
    | (extract_lets +onlyGivenNames x; with_reducible refine Within.cut (u := x) ?_ ?_; rotate_left; intro hx; clear_value x; rename' x => y; rotate_right; unfold x; clear x)
    | (extract_lets +onlyGivenNames x; clear_value x; rename' x => z)
    | (extract_lets +onlyGivenNames x; rename' x => z)
    | dsimp -zeta only
    | with_reducible apply State.dropPort_frame
    | with_reducible apply State.modTag_frame
    | with_reducible apply State.modWrite_frame
    | with_reducible apply State.commitTag_frame
    | with_reducible apply Lands.ite
    | with_reducible apply Within.ite
    | (with_reducible refine Within.foldl _ ?_ ?_; rotate_left; intro _ _)
    | (with_reducible refine Within.foldl_snd _ ?_ ?_; rotate_left; intro _ _)
    | fail_if_no_progress (with_reducible refine Within.put (a := []) ?_ rfl rfl rfl rfl rfl)
    | split

theorem State.quartersDown_frame {ps s t}  (h : Within ps s t) (hp : Part.sub [.block 1, .power] ps = true) : Within ps s (State.quartersDown t) := by
  refine h.step (a := [.block 1, .power]) ?_ hp
  unfold State.quartersDown
  repeat' first
    | with_reducible exact Within.refl _ _
    | with_reducible assumption
    | (show Part.sub _ _ = true; rfl)
    | (extract_lets +onlyGivenNames x; with_reducible refine Within.cut (u := x) ?_ ?_; rotate_left; intro hx; clear_value x; rename' x => y; rotate_right; unfold x; clear x)
    | (extract_lets +onlyGivenNames x; clear_value x; rename' x => z)
    | (extract_lets +onlyGivenNames x; rename' x => z)
    | dsimp -zeta only
    | with_reducible apply State.noteGranted_frame
    | with_reducible apply Within.ite
    | fail_if_no_progress (with_reducible refine Within.put (a := [.power]) ?_ rfl rfl rfl rfl rfl)
    | split

theorem State.sealManifest_frame {ps s t} m (h : Within ps s t) (hp : Part.sub [.wc, .store] ps = true) : Within ps s (State.sealManifest t m) := by
  refine h.step (a := [.wc, .store]) ?_ hp
  unfold State.sealManifest
  repeat' first
    | with_reducible exact Within.refl _ _
    | with_reducible assumption
    | (show Part.sub _ _ = true; rfl)
    | dsimp -zeta only
    | with_reducible apply Within.ite
    | fail_if_no_progress (with_reducible refine Within.put (a := [.wc, .store]) ?_ rfl rfl rfl rfl rfl)
    | split

theorem State.latchedReset_frame {ps s t}  (h : Within ps s t) (hp : Part.sub [.regs, .holding, .ringTime, .pins, .power, .boot, .test, .evt, .nor, .host, .ports, .trn, .cmd, .bnd, .ddp, .keys, .wc, .sig, .lfl, .map, .rep, .prg, .xrn, .chan, .own, .hostWait] ps = true) : Within ps s (State.latchedReset t) := by
  refine h.step (a := [.regs, .holding, .ringTime, .pins, .power, .boot, .test, .evt, .nor, .host, .ports, .trn, .cmd, .bnd, .ddp, .keys, .wc, .sig, .lfl, .map, .rep, .prg, .xrn, .chan, .own, .hostWait]) ?_ hp
  unfold State.latchedReset
  repeat' first
    | with_reducible exact Within.refl _ _
    | with_reducible assumption
    | (show Part.sub _ _ = true; rfl)
    | dsimp -zeta only
    | with_reducible apply State.partReset_frame
    | with_reducible apply Within.ite
    | split

theorem execDestageSealed_frame  s : Lands (.regs :: .holding :: .ringTime :: .pins :: .power :: .boot :: .test :: .evt :: .nor :: .host :: .ports :: .trn :: .cmd :: .bnd :: .ddp :: .keys :: .wc :: .sig :: .lfl :: .map :: .rep :: .prg :: .xrn :: .chan :: .own :: .store :: .out :: .hostWait :: []) s (execDestageSealed s) := by
  unfold execDestageSealed
  repeat' first
    | with_reducible exact Within.refl _ _
    | with_reducible assumption
    | (show Part.sub _ _ = true; rfl)
    | with_reducible apply Lands.next
    | (extract_lets +onlyGivenNames x; with_reducible refine Lands.cut (u := x) ?_ ?_; rotate_left; intro hx; clear_value x; rename' x => y; rotate_right; unfold x; clear x)
    | (extract_lets +onlyGivenNames x; with_reducible refine Within.cut (u := x) ?_ ?_; rotate_left; intro hx; clear_value x; rename' x => y; rotate_right; unfold x; clear x)
    | (extract_lets +onlyGivenNames x; clear_value x; rename' x => z)
    | (extract_lets +onlyGivenNames x; rename' x => z)
    | dsimp -zeta only
    | with_reducible apply State.wr_frame
    | with_reducible apply State.event_frame
    | with_reducible apply State.cleanPages_frame
    | with_reducible apply State.saveStore_frame
    | with_reducible apply State.flushBuffer_frame
    | with_reducible apply State.quartersDown_frame
    | with_reducible apply State.sealManifest_frame
    | with_reducible apply State.latchedReset_frame
    | with_reducible apply Lands.ite
    | with_reducible apply Within.ite
    | fail_if_no_progress (with_reducible refine Within.put (a := []) ?_ rfl rfl rfl rfl rfl)
    | split

end Sys2Proof.Machine
end

