-- ==== Sys2Proof/Laws/FrameRing.lean ====
section
/-!
SUPPORT. Laws/FrameRing.lean: what the definitions of Machine/Ring.lean leave alone: each changes the listed parts at most, and keeps the
canonical form.
-/
namespace Sys2Proof.Machine
open Sys2Proof

set_option Elab.async false
set_option linter.all false

theorem State.mirrorReady_frame {ps s t} l (h : Within ps s t) (hp : Part.sub [.block 20, .wc, .chan, .out] ps = true) : Within ps s (State.mirrorReady t l) := by
  refine h.step (a := [.block 20, .wc, .chan, .out]) ?_ hp
  unfold State.mirrorReady
  repeat' first
    | with_reducible exact Within.refl _ _
    | with_reducible assumption
    | (show Part.sub _ _ = true; rfl)
    | (extract_lets +onlyGivenNames x; with_reducible refine Within.cut (u := x) ?_ ?_; rotate_left; intro hx; clear_value x; rename' x => y; rotate_right; unfold x; clear x)
    | (extract_lets +onlyGivenNames x; clear_value x; rename' x => z)
    | (extract_lets +onlyGivenNames x; rename' x => z)
    | dsimp -zeta only
    | with_reducible apply State.sendRing_frame
    | with_reducible apply State.sendOwed_frame
    | with_reducible apply State.noteMirror_frame
    | with_reducible apply State.pumpMirror_frame
    | with_reducible apply Within.ite
    | (with_reducible refine Within.foldl _ ?_ ?_; rotate_left; intro _ _)
    | (with_reducible refine Within.foldl_snd _ ?_ ?_; rotate_left; intro _ _)
    | fail_if_no_progress (with_reducible refine Within.put (a := [.wc]) ?_ rfl rfl rfl rfl rfl)
    | split

theorem State.setLink_frame {ps s t} l x (h : Within ps s t) (hp : Part.sub [.regs, .holding, .wc, .xrn, .chan, .out] ps = true) : Within ps s (State.setLink t l x) := by
  refine h.step (a := [.regs, .holding, .wc, .xrn, .chan, .out]) ?_ hp
  unfold State.setLink
  repeat' first
    | with_reducible exact Within.refl _ _
    | with_reducible assumption
    | (show Part.sub _ _ = true; rfl)
    | (extract_lets +onlyGivenNames x; with_reducible refine Within.cut (u := x) ?_ ?_; rotate_left; intro hx; clear_value x; rename' x => y; rotate_right; unfold x; clear x)
    | (extract_lets +onlyGivenNames x; clear_value x; rename' x => z)
    | (extract_lets +onlyGivenNames x; rename' x => z)
    | dsimp -zeta only
    | with_reducible apply State.wr_frame
    | with_reducible apply State.raise_frame
    | with_reducible apply State.dropLink_frame
    | with_reducible apply State.mirrorReady_frame
    | with_reducible apply Within.ite
    | fail_if_no_progress (with_reducible refine Within.put (a := [.xrn]) ?_ rfl rfl rfl rfl rfl)
    | split

theorem State.sendHello_frame {ps s t} l (h : Within ps s t) (hp : Part.sub [.out] ps = true) : Within ps s (State.sendHello t l) := by
  refine h.step (a := [.out]) ?_ hp
  unfold State.sendHello
  repeat' first
    | with_reducible exact Within.refl _ _
    | with_reducible assumption
    | (show Part.sub _ _ = true; rfl)
    | (extract_lets +onlyGivenNames x; with_reducible refine Within.cut (u := x) ?_ ?_; rotate_left; intro hx; clear_value x; rename' x => y; rotate_right; unfold x; clear x)
    | (extract_lets +onlyGivenNames x; clear_value x; rename' x => z)
    | (extract_lets +onlyGivenNames x; rename' x => z)
    | dsimp -zeta only
    | with_reducible apply State.send_frame
    | with_reducible apply Within.ite
    | split

theorem execRingLinkDetect_frame link s : Lands [.regs, .holding, .wc, .xrn, .chan, .out] s (execRingLinkDetect link s) := by
  unfold execRingLinkDetect
  repeat' first
    | with_reducible exact Within.refl _ _
    | with_reducible assumption
    | (show Part.sub _ _ = true; rfl)
    | with_reducible apply Lands.next
    | dsimp -zeta only
    | with_reducible apply State.setLink_frame
    | with_reducible apply Lands.ite
    | with_reducible apply Within.ite
    | split

theorem execRingLinkTrained_frame link narrow s : Lands [.regs, .holding, .evt, .nor, .host, .wc, .xrn, .chan, .out, .hostWait] s (execRingLinkTrained link narrow s) := by
  unfold execRingLinkTrained
  repeat' first
    | with_reducible exact Within.refl _ _
    | with_reducible assumption
    | (show Part.sub _ _ = true; rfl)
    | with_reducible apply Lands.next
    | (extract_lets +onlyGivenNames x; with_reducible refine Lands.cut (u := x) ?_ ?_; rotate_left; intro hx; clear_value x; rename' x => y; rotate_right; unfold x; clear x)
    | (extract_lets +onlyGivenNames x; with_reducible refine Within.cut (u := x) ?_ ?_; rotate_left; intro hx; clear_value x; rename' x => y; rotate_right; unfold x; clear x)
    | (extract_lets +onlyGivenNames x; clear_value x; rename' x => z)
    | (extract_lets +onlyGivenNames x; rename' x => z)
    | dsimp -zeta only
    | with_reducible apply State.wr_frame
    | with_reducible apply State.event1_frame
    | with_reducible apply State.setLink_frame
    | with_reducible apply State.sendHello_frame
    | with_reducible apply Lands.ite
    | with_reducible apply Within.ite
    | fail_if_no_progress (with_reducible refine Within.put (a := []) ?_ rfl rfl rfl rfl rfl)
    | split

theorem State.sendEnum_frame {ps s t} links (h : Within ps s t) (hp : Part.sub [.out] ps = true) : Within ps s (State.sendEnum t links) := by
  refine h.step (a := [.out]) ?_ hp
  unfold State.sendEnum
  repeat' first
    | with_reducible exact Within.refl _ _
    | with_reducible assumption
    | (show Part.sub _ _ = true; rfl)
    | dsimp -zeta only
    | with_reducible apply State.send_frame
    | with_reducible apply Within.ite
    | (with_reducible refine Within.foldl _ ?_ ?_; rotate_left; intro _ _)
    | (with_reducible refine Within.foldl_snd _ ?_ ?_; rotate_left; intro _ _)
    | split

theorem State.sendJoin_frame {ps s t}  (h : Within ps s t) (hp : Part.sub [.chan, .out] ps = true) : Within ps s (State.sendJoin t) := by
  refine h.step (a := [.chan, .out]) ?_ hp
  unfold State.sendJoin
  repeat' first
    | with_reducible exact Within.refl _ _
    | with_reducible assumption
    | (show Part.sub _ _ = true; rfl)
    | (extract_lets +onlyGivenNames x; with_reducible refine Within.cut (u := x) ?_ ?_; rotate_left; intro hx; clear_value x; rename' x => y; rotate_right; unfold x; clear x)
    | (extract_lets +onlyGivenNames x; clear_value x; rename' x => z)
    | (extract_lets +onlyGivenNames x; rename' x => z)
    | dsimp -zeta only
    | with_reducible apply State.sendRing_frame
    | with_reducible apply Within.ite
    | split

theorem State.reportLinks_frame {ps s t}  (h : Within ps s t) (hp : Part.sub [.chan, .out] ps = true) : Within ps s (State.reportLinks t) := by
  refine h.step (a := [.chan, .out]) ?_ hp
  unfold State.reportLinks
  repeat' first
    | with_reducible exact Within.refl _ _
    | with_reducible assumption
    | (show Part.sub _ _ = true; rfl)
    | dsimp -zeta only
    | with_reducible apply State.sendEnum_frame
    | with_reducible apply State.sendJoin_frame
    | with_reducible apply Within.ite
    | split

theorem State.becomeKeeper_frame {ps s t} term (h : Within ps s t) (hp : Part.sub [.block 16, .xrn] ps = true) : Within ps s (State.becomeKeeper t term) := by
  refine h.step (a := [.block 16, .xrn]) ?_ hp
  unfold State.becomeKeeper
  repeat' first
    | with_reducible exact Within.refl _ _
    | with_reducible assumption
    | (show Part.sub _ _ = true; rfl)
    | (extract_lets +onlyGivenNames x; with_reducible refine Within.cut (u := x) ?_ ?_; rotate_left; intro hx; clear_value x; rename' x => y; rotate_right; unfold x; clear x)
    | (extract_lets +onlyGivenNames x; clear_value x; rename' x => z)
    | (extract_lets +onlyGivenNames x; rename' x => z)
    | dsimp -zeta only
    | with_reducible apply State.wr_frame
    | with_reducible apply Within.ite
    | fail_if_no_progress (with_reducible refine Within.put (a := [.xrn]) ?_ rfl rfl rfl rfl rfl)
    | split

theorem State.startRing_frame {ps s t}  (h : Within ps s t) (hp : Part.sub [.block 16, .xrn] ps = true) : Within ps s (State.startRing t) := by
  refine h.step (a := [.block 16, .xrn]) ?_ hp
  unfold State.startRing
  repeat' first
    | with_reducible exact Within.refl _ _
    | with_reducible assumption
    | (show Part.sub _ _ = true; rfl)
    | (extract_lets +onlyGivenNames x; with_reducible refine Within.cut (u := x) ?_ ?_; rotate_left; intro hx; clear_value x; rename' x => y; rotate_right; unfold x; clear x)
    | (extract_lets +onlyGivenNames x; clear_value x; rename' x => z)
    | (extract_lets +onlyGivenNames x; rename' x => z)
    | dsimp -zeta only
    | with_reducible apply State.wr_frame
    | with_reducible apply State.becomeKeeper_frame
    | with_reducible apply Within.ite
    | fail_if_no_progress (with_reducible refine Within.put (a := [.xrn]) ?_ rfl rfl rfl rfl rfl)
    | split

theorem State.setDevice_frame {ps s t} d (h : Within ps s t) (hp : Part.sub [.block 16, .xrn] ps = true) : Within ps s (State.setDevice t d) := by
  refine h.step (a := [.block 16, .xrn]) ?_ hp
  unfold State.setDevice
  repeat' first
    | with_reducible exact Within.refl _ _
    | with_reducible assumption
    | (show Part.sub _ _ = true; rfl)
    | (extract_lets +onlyGivenNames x; with_reducible refine Within.cut (u := x) ?_ ?_; rotate_left; intro hx; clear_value x; rename' x => y; rotate_right; unfold x; clear x)
    | (extract_lets +onlyGivenNames x; clear_value x; rename' x => z)
    | (extract_lets +onlyGivenNames x; rename' x => z)
    | dsimp -zeta only
    | with_reducible apply State.wr_frame
    | with_reducible apply Within.ite
    | fail_if_no_progress (with_reducible refine Within.put (a := [.xrn]) ?_ rfl rfl rfl rfl rfl)
    | split

theorem State.settleHello_frame {ps s t} l bh (h : Within ps s t) (hp : Part.sub [.regs, .holding, .evt, .nor, .host, .wc, .xrn, .chan, .own, .out, .hostWait] ps = true) : Within ps s (State.settleHello t l bh) := by
  refine h.step (a := [.regs, .holding, .evt, .nor, .host, .wc, .xrn, .chan, .own, .out, .hostWait]) ?_ hp
  unfold State.settleHello
  repeat' first
    | with_reducible exact Within.refl _ _
    | with_reducible assumption
    | (show Part.sub _ _ = true; rfl)
    | (extract_lets +onlyGivenNames x; with_reducible refine Within.cut (u := x) ?_ ?_; rotate_left; intro hx; clear_value x; rename' x => y; rotate_right; unfold x; clear x)
    | (extract_lets +onlyGivenNames x; clear_value x; rename' x => z)
    | (extract_lets +onlyGivenNames x; rename' x => z)
    | dsimp -zeta only
    | with_reducible apply State.wr_frame
    | with_reducible apply State.event1_frame
    | with_reducible apply State.askRejoin_frame
    | with_reducible apply State.setLink_frame
    | with_reducible apply State.reportLinks_frame
    | with_reducible apply Within.ite
    | fail_if_no_progress (with_reducible refine Within.put (a := []) ?_ rfl rfl rfl rfl rfl)
    | split

theorem execRingHello_frame link hello s : Lands [.regs, .holding, .evt, .nor, .host, .wc, .xrn, .chan, .own, .out, .hostWait] s (execRingHello link hello s) := by
  unfold execRingHello
  repeat' first
    | with_reducible exact Within.refl _ _
    | with_reducible assumption
    | (show Part.sub _ _ = true; rfl)
    | with_reducible apply Lands.next
    | dsimp -zeta only
    | with_reducible apply State.settleHello_frame
    | with_reducible apply Lands.ite
    | with_reducible apply Within.ite
    | fail_if_no_progress (with_reducible refine Within.put (a := []) ?_ rfl rfl rfl rfl rfl)
    | split

theorem State.ringLinkDown_frame {ps s t} l partials (h : Within ps s t) (hp : Part.sub [.regs, .holding, .evt, .nor, .host, .wc, .xrn, .chan, .out, .hostWait] ps = true) : Within ps s (State.ringLinkDown t l partials) := by
  refine h.step (a := [.regs, .holding, .evt, .nor, .host, .wc, .xrn, .chan, .out, .hostWait]) ?_ hp
  unfold State.ringLinkDown
  repeat' first
    | with_reducible exact Within.refl _ _
    | with_reducible assumption
    | (show Part.sub _ _ = true; rfl)
    | (extract_lets +onlyGivenNames x; with_reducible refine Within.cut (u := x) ?_ ?_; rotate_left; intro hx; clear_value x; rename' x => y; rotate_right; unfold x; clear x)
    | (extract_lets +onlyGivenNames x; clear_value x; rename' x => z)
    | (extract_lets +onlyGivenNames x; rename' x => z)
    | dsimp -zeta only
    | with_reducible apply State.wr_frame
    | with_reducible apply State.bump_frame
    | with_reducible apply State.event1_frame
    | with_reducible apply State.setLink_frame
    | with_reducible apply State.reportLinks_frame
    | with_reducible apply Within.ite
    | split

theorem execRingLinkDown_frame link partials s : Lands [.regs, .holding, .evt, .nor, .host, .wc, .xrn, .chan, .out, .hostWait] s (execRingLinkDown link partials s) := by
  unfold execRingLinkDown
  repeat' first
    | with_reducible exact Within.refl _ _
    | with_reducible assumption
    | (show Part.sub _ _ = true; rfl)
    | with_reducible apply Lands.next
    | dsimp -zeta only
    | with_reducible apply State.ringLinkDown_frame
    | with_reducible apply Lands.ite
    | with_reducible apply Within.ite
    | split

theorem State.stopRing_frame {ps s t}  (h : Within ps s t) (hp : Part.sub [.regs, .holding, .evt, .nor, .host, .wc, .xrn, .chan, .out, .hostWait] ps = true) : Within ps s (State.stopRing t) := by
  refine h.step (a := [.regs, .holding, .evt, .nor, .host, .wc, .xrn, .chan, .out, .hostWait]) ?_ hp
  unfold State.stopRing
  repeat' first
    | with_reducible exact Within.refl _ _
    | with_reducible assumption
    | (show Part.sub _ _ = true; rfl)
    | dsimp -zeta only
    | with_reducible apply State.wr_frame
    | with_reducible apply State.ringLinkDown_frame
    | with_reducible apply Within.ite
    | (with_reducible refine Within.foldl _ ?_ ?_; rotate_left; intro _ _)
    | (with_reducible refine Within.foldl_snd _ ?_ ?_; rotate_left; intro _ _)
    | split

theorem execRingTrainingTimeout_frame link s : Lands [.regs, .holding, .evt, .nor, .host, .wc, .xrn, .chan, .out, .hostWait] s (execRingTrainingTimeout link s) := by
  unfold execRingTrainingTimeout
  repeat' first
    | with_reducible exact Within.refl _ _
    | with_reducible assumption
    | (show Part.sub _ _ = true; rfl)
    | with_reducible apply Lands.next
    | (extract_lets +onlyGivenNames x; with_reducible refine Lands.cut (u := x) ?_ ?_; rotate_left; intro hx; clear_value x; rename' x => y; rotate_right; unfold x; clear x)
    | (extract_lets +onlyGivenNames x; with_reducible refine Within.cut (u := x) ?_ ?_; rotate_left; intro hx; clear_value x; rename' x => y; rotate_right; unfold x; clear x)
    | (extract_lets +onlyGivenNames x; clear_value x; rename' x => z)
    | (extract_lets +onlyGivenNames x; rename' x => z)
    | dsimp -zeta only
    | with_reducible apply State.bump_frame
    | with_reducible apply State.setLink_frame
    | with_reducible apply State.ringLinkDown_frame
    | with_reducible apply Lands.ite
    | with_reducible apply Within.ite
    | fail_if_no_progress (with_reducible refine Within.put (a := []) ?_ rfl rfl rfl rfl rfl)
    | split

theorem execRingReplayRequest_frame link seq s : Lands [.regs, .holding, .wc, .xrn, .chan, .out] s (execRingReplayRequest link seq s) := by
  unfold execRingReplayRequest
  repeat' first
    | with_reducible exact Within.refl _ _
    | with_reducible assumption
    | (show Part.sub _ _ = true; rfl)
    | with_reducible apply Lands.next
    | (extract_lets +onlyGivenNames x; with_reducible refine Lands.cut (u := x) ?_ ?_; rotate_left; intro hx; clear_value x; rename' x => y; rotate_right; unfold x; clear x)
    | (extract_lets +onlyGivenNames x; with_reducible refine Within.cut (u := x) ?_ ?_; rotate_left; intro hx; clear_value x; rename' x => y; rotate_right; unfold x; clear x)
    | (extract_lets +onlyGivenNames x; clear_value x; rename' x => z)
    | (extract_lets +onlyGivenNames x; rename' x => z)
    | dsimp -zeta only
    | with_reducible apply State.bump_frame
    | with_reducible apply State.send_frame
    | with_reducible apply State.setLink_frame
    | with_reducible apply Lands.ite
    | with_reducible apply Within.ite
    | fail_if_no_progress (with_reducible refine Within.put (a := []) ?_ rfl rfl rfl rfl rfl)
    | split

theorem execPartialMessageTimeout_frame link s : Lands [.block 16] s (execPartialMessageTimeout link s) := by
  unfold execPartialMessageTimeout
  repeat' first
    | with_reducible exact Within.refl _ _
    | with_reducible assumption
    | (show Part.sub _ _ = true; rfl)
    | with_reducible apply Lands.next
    | dsimp -zeta only
    | with_reducible apply State.bump_frame
    | with_reducible apply Lands.ite
    | with_reducible apply Within.ite
    | split

theorem State.setDir_frame {ps s t} dir (h : Within ps s t) (hp : Part.sub [.block 16, .ddp, .xrn, .chan, .mem, .out] ps = true) : Within ps s (State.setDir t dir) := by
  refine h.step (a := [.block 16, .ddp, .xrn, .chan, .mem, .out]) ?_ hp
  unfold State.setDir
  repeat' first
    | with_reducible exact Within.refl _ _
    | with_reducible assumption
    | (show Part.sub _ _ = true; rfl)
    | (extract_lets +onlyGivenNames x; with_reducible refine Within.cut (u := x) ?_ ?_; rotate_left; intro hx; clear_value x; rename' x => y; rotate_right; unfold x; clear x)
    | (extract_lets +onlyGivenNames x; clear_value x; rename' x => z)
    | (extract_lets +onlyGivenNames x; rename' x => z)
    | dsimp -zeta only
    | with_reducible apply State.wr_frame
    | with_reducible apply State.ddrWriteList_frame
    | with_reducible apply State.sendOwed_frame
    | with_reducible apply State.settleRemote_frame
    | with_reducible apply Within.ite
    | (with_reducible refine Within.foldl _ ?_ ?_; rotate_left; intro _ _)
    | (with_reducible refine Within.foldl_snd _ ?_ ?_; rotate_left; intro _ _)
    | fail_if_no_progress (with_reducible refine Within.put (a := [.xrn]) ?_ rfl rfl rfl rfl rfl)
    | split

theorem State.castRing_frame {ps s t} o (h : Within ps s t) (hp : Part.sub [.chan, .out] ps = true) : Within ps s (State.castRing t o) := by
  refine h.step (a := [.chan, .out]) ?_ hp
  unfold State.castRing
  repeat' first
    | with_reducible exact Within.refl _ _
    | with_reducible assumption
    | (show Part.sub _ _ = true; rfl)
    | dsimp -zeta only
    | with_reducible apply State.sendOn_frame
    | with_reducible apply Within.ite
    | (with_reducible refine Within.foldl _ ?_ ?_; rotate_left; intro _ _)
    | (with_reducible refine Within.foldl_snd _ ?_ ?_; rotate_left; intro _ _)
    | split

theorem State.broadcastDir_frame {ps s t}  (h : Within ps s t) (hp : Part.sub [.chan, .out] ps = true) : Within ps s (State.broadcastDir t) := by
  refine h.step (a := [.chan, .out]) ?_ hp
  unfold State.broadcastDir
  repeat' first
    | with_reducible exact Within.refl _ _
    | with_reducible assumption
    | (show Part.sub _ _ = true; rfl)
    | dsimp -zeta only
    | with_reducible apply State.castRing_frame
    | with_reducible apply Within.ite
    | split

theorem State.admitJoin_frame {ps s t} j (h : Within ps s t) (hp : Part.sub [.block 4, .block 6, .block 16, .evt, .nor, .host, .ddp, .xrn, .chan, .mem, .out, .hostWait] ps = true) : Within ps s (State.admitJoin t j) := by
  refine h.step (a := [.block 4, .block 6, .block 16, .evt, .nor, .host, .ddp, .xrn, .chan, .mem, .out, .hostWait]) ?_ hp
  unfold State.admitJoin
  repeat' first
    | with_reducible exact Within.refl _ _
    | with_reducible assumption
    | (show Part.sub _ _ = true; rfl)
    | (extract_lets +onlyGivenNames x; with_reducible refine Within.cut (u := x) ?_ ?_; rotate_left; intro hx; clear_value x; rename' x => y; rotate_right; unfold x; clear x)
    | (extract_lets +onlyGivenNames x; clear_value x; rename' x => z)
    | (extract_lets +onlyGivenNames x; rename' x => z)
    | dsimp -zeta only
    | with_reducible apply State.event_frame
    | with_reducible apply State.event1_frame
    | with_reducible apply State.setDir_frame
    | with_reducible apply Within.ite
    | fail_if_no_progress (with_reducible refine Within.put (a := []) ?_ rfl rfl rfl rfl rfl)
    | split

theorem State.admitSelf_frame {ps s t}  (h : Within ps s t) (hp : Part.sub [.block 4, .block 6, .block 16, .evt, .nor, .host, .ddp, .xrn, .chan, .mem, .out, .hostWait] ps = true) : Within ps s (State.admitSelf t) := by
  refine h.step (a := [.block 4, .block 6, .block 16, .evt, .nor, .host, .ddp, .xrn, .chan, .mem, .out, .hostWait]) ?_ hp
  unfold State.admitSelf
  repeat' first
    | with_reducible exact Within.refl _ _
    | with_reducible assumption
    | (show Part.sub _ _ = true; rfl)
    | (extract_lets +onlyGivenNames x; with_reducible refine Within.cut (u := x) ?_ ?_; rotate_left; intro hx; clear_value x; rename' x => y; rotate_right; unfold x; clear x)
    | (extract_lets +onlyGivenNames x; clear_value x; rename' x => z)
    | (extract_lets +onlyGivenNames x; rename' x => z)
    | dsimp -zeta only
    | with_reducible apply State.wr_frame
    | with_reducible apply State.event1_frame
    | with_reducible apply State.setDevice_frame
    | with_reducible apply State.admitJoin_frame
    | with_reducible apply Within.ite
    | fail_if_no_progress (with_reducible refine Within.put (a := [.xrn]) ?_ rfl rfl rfl rfl rfl)
    | split

theorem execEnumerationFlit_frame link term keeper depth s : Lands [.block 4, .block 6, .block 16, .evt, .nor, .host, .xrn, .chan, .out, .hostWait] s (execEnumerationFlit link term keeper depth s) := by
  unfold execEnumerationFlit
  repeat' first
    | with_reducible exact Within.refl _ _
    | with_reducible assumption
    | (show Part.sub _ _ = true; rfl)
    | with_reducible apply Lands.next
    | (extract_lets +onlyGivenNames x; with_reducible refine Lands.cut (u := x) ?_ ?_; rotate_left; intro hx; clear_value x; rename' x => y; rotate_right; unfold x; clear x)
    | (extract_lets +onlyGivenNames x; with_reducible refine Within.cut (u := x) ?_ ?_; rotate_left; intro hx; clear_value x; rename' x => y; rotate_right; unfold x; clear x)
    | (extract_lets +onlyGivenNames x; clear_value x; rename' x => z)
    | (extract_lets +onlyGivenNames x; rename' x => z)
    | dsimp -zeta only
    | with_reducible apply State.wr_frame
    | with_reducible apply State.event1_frame
    | with_reducible apply State.sendEnum_frame
    | with_reducible apply State.sendJoin_frame
    | with_reducible apply State.becomeKeeper_frame
    | with_reducible apply State.setDevice_frame
    | with_reducible apply Lands.ite
    | with_reducible apply Within.ite
    | fail_if_no_progress (with_reducible refine Within.put (a := [.xrn]) ?_ rfl rfl rfl rfl rfl)
    | split

theorem execEnumerationJoin_frame join s : Lands [.block 4, .block 6, .block 16, .evt, .nor, .host, .ddp, .xrn, .chan, .mem, .out, .hostWait] s (execEnumerationJoin join s) := by
  unfold execEnumerationJoin
  repeat' first
    | with_reducible exact Within.refl _ _
    | with_reducible assumption
    | (show Part.sub _ _ = true; rfl)
    | with_reducible apply Lands.next
    | (extract_lets +onlyGivenNames x; with_reducible refine Lands.cut (u := x) ?_ ?_; rotate_left; intro hx; clear_value x; rename' x => y; rotate_right; unfold x; clear x)
    | (extract_lets +onlyGivenNames x; with_reducible refine Within.cut (u := x) ?_ ?_; rotate_left; intro hx; clear_value x; rename' x => y; rotate_right; unfold x; clear x)
    | (extract_lets +onlyGivenNames x; clear_value x; rename' x => z)
    | (extract_lets +onlyGivenNames x; rename' x => z)
    | dsimp -zeta only
    | with_reducible apply State.sendEnum_frame
    | with_reducible apply State.broadcastDir_frame
    | with_reducible apply State.admitJoin_frame
    | with_reducible apply Lands.ite
    | with_reducible apply Within.ite
    | fail_if_no_progress (with_reducible refine Within.put (a := [.xrn]) ?_ rfl rfl rfl rfl rfl)
    | split

theorem State.endGathering_frame {ps s t} floor (h : Within ps s t) (hp : Part.sub [.ringTime, .xrn] ps = true) : Within ps s (State.endGathering t floor) := by
  refine h.step (a := [.ringTime, .xrn]) ?_ hp
  unfold State.endGathering
  repeat' first
    | with_reducible exact Within.refl _ _
    | with_reducible assumption
    | (show Part.sub _ _ = true; rfl)
    | dsimp -zeta only
    | with_reducible apply Within.ite
    | fail_if_no_progress (with_reducible refine Within.put (a := [.ringTime, .xrn]) ?_ rfl rfl rfl rfl rfl)
    | split

theorem State.checkSettings_frame {ps s t} domain home (h : Within ps s t) (hp : Part.sub [.block 4, .block 6, .block 12, .evt, .nor, .host, .out, .hostWait] ps = true) : Within ps s (State.checkSettings t domain home) := by
  refine h.step (a := [.block 4, .block 6, .block 12, .evt, .nor, .host, .out, .hostWait]) ?_ hp
  unfold State.checkSettings
  repeat' first
    | with_reducible exact Within.refl _ _
    | with_reducible assumption
    | (show Part.sub _ _ = true; rfl)
    | dsimp -zeta only
    | with_reducible apply State.wr_frame
    | with_reducible apply State.event1_frame
    | with_reducible apply Within.ite
    | split

theorem execKeeperGatherExpiry_frame  s : Lands [.block 4, .block 6, .block 12, .block 16, .ringTime, .evt, .nor, .host, .ddp, .xrn, .chan, .mem, .out, .hostWait] s (execKeeperGatherExpiry s) := by
  unfold execKeeperGatherExpiry
  repeat' first
    | with_reducible exact Within.refl _ _
    | with_reducible assumption
    | (show Part.sub _ _ = true; rfl)
    | with_reducible apply Lands.next
    | (extract_lets +onlyGivenNames x; with_reducible refine Lands.cut (u := x) ?_ ?_; rotate_left; intro hx; clear_value x; rename' x => y; rotate_right; unfold x; clear x)
    | (extract_lets +onlyGivenNames x; with_reducible refine Within.cut (u := x) ?_ ?_; rotate_left; intro hx; clear_value x; rename' x => y; rotate_right; unfold x; clear x)
    | (extract_lets +onlyGivenNames x; clear_value x; rename' x => z)
    | (extract_lets +onlyGivenNames x; rename' x => z)
    | dsimp -zeta only
    | with_reducible apply State.broadcastDir_frame
    | with_reducible apply State.admitJoin_frame
    | with_reducible apply State.admitSelf_frame
    | with_reducible apply State.endGathering_frame
    | with_reducible apply State.checkSettings_frame
    | with_reducible apply Lands.ite
    | with_reducible apply Within.ite
    | (with_reducible refine Within.foldl _ ?_ ?_; rotate_left; intro _ _)
    | (with_reducible refine Within.foldl_snd _ ?_ ?_; rotate_left; intro _ _)
    | split

theorem execEnumerationDirectory_frame entries homes s : Lands [.block 4, .block 6, .block 12, .block 16, .evt, .nor, .host, .ddp, .xrn, .chan, .mem, .out, .hostWait] s (execEnumerationDirectory entries homes s) := by
  unfold execEnumerationDirectory
  repeat' first
    | with_reducible exact Within.refl _ _
    | with_reducible assumption
    | (show Part.sub _ _ = true; rfl)
    | with_reducible apply Lands.next
    | (extract_lets +onlyGivenNames x; with_reducible refine Lands.cut (u := x) ?_ ?_; rotate_left; intro hx; clear_value x; rename' x => y; rotate_right; unfold x; clear x)
    | (extract_lets +onlyGivenNames x; with_reducible refine Within.cut (u := x) ?_ ?_; rotate_left; intro hx; clear_value x; rename' x => y; rotate_right; unfold x; clear x)
    | (extract_lets +onlyGivenNames x; clear_value x; rename' x => z)
    | (extract_lets +onlyGivenNames x; rename' x => z)
    | dsimp -zeta only
    | with_reducible apply State.wr_frame
    | with_reducible apply State.setDevice_frame
    | with_reducible apply State.setDir_frame
    | with_reducible apply State.broadcastDir_frame
    | with_reducible apply State.checkSettings_frame
    | with_reducible apply Lands.ite
    | with_reducible apply Within.ite
    | (with_reducible refine Within.foldl _ ?_ ?_; rotate_left; intro _ _)
    | (with_reducible refine Within.foldl_snd _ ?_ ?_; rotate_left; intro _ _)
    | fail_if_no_progress (with_reducible refine Within.put (a := [.xrn]) ?_ rfl rfl rfl rfl rfl)
    | split

theorem State.markGone_frame {ps s t} device (h : Within ps s t) (hp : Part.sub [.block 16, .ddp, .xrn, .chan, .mem, .out] ps = true) : Within ps s (State.markGone t device) := by
  refine h.step (a := [.block 16, .ddp, .xrn, .chan, .mem, .out]) ?_ hp
  unfold State.markGone
  repeat' first
    | with_reducible exact Within.refl _ _
    | with_reducible assumption
    | (show Part.sub _ _ = true; rfl)
    | (extract_lets +onlyGivenNames x; with_reducible refine Within.cut (u := x) ?_ ?_; rotate_left; intro hx; clear_value x; rename' x => y; rotate_right; unfold x; clear x)
    | (extract_lets +onlyGivenNames x; clear_value x; rename' x => z)
    | (extract_lets +onlyGivenNames x; rename' x => z)
    | dsimp -zeta only
    | with_reducible apply State.setDir_frame
    | with_reducible apply State.broadcastDir_frame
    | with_reducible apply Within.ite
    | fail_if_no_progress (with_reducible refine Within.put (a := []) ?_ rfl rfl rfl rfl rfl)
    | split

theorem execAddressReserveExpiry_frame address s : Lands [.block 16, .ddp, .xrn, .chan, .mem, .out] s (execAddressReserveExpiry address s) := by
  unfold execAddressReserveExpiry
  repeat' first
    | with_reducible exact Within.refl _ _
    | with_reducible assumption
    | (show Part.sub _ _ = true; rfl)
    | with_reducible apply Lands.next
    | (extract_lets +onlyGivenNames x; with_reducible refine Lands.cut (u := x) ?_ ?_; rotate_left; intro hx; clear_value x; rename' x => y; rotate_right; unfold x; clear x)
    | (extract_lets +onlyGivenNames x; with_reducible refine Within.cut (u := x) ?_ ?_; rotate_left; intro hx; clear_value x; rename' x => y; rotate_right; unfold x; clear x)
    | (extract_lets +onlyGivenNames x; clear_value x; rename' x => z)
    | (extract_lets +onlyGivenNames x; rename' x => z)
    | dsimp -zeta only
    | with_reducible apply State.setDir_frame
    | with_reducible apply State.broadcastDir_frame
    | with_reducible apply Lands.ite
    | with_reducible apply Within.ite
    | fail_if_no_progress (with_reducible refine Within.put (a := []) ?_ rfl rfl rfl rfl rfl)
    | split

theorem execLeave_frame  s : Lands [.block 16, .ddp, .xrn, .chan, .mem, .out] s (execLeave s) := by
  unfold execLeave
  repeat' first
    | with_reducible exact Within.refl _ _
    | with_reducible assumption
    | (show Part.sub _ _ = true; rfl)
    | with_reducible apply Lands.next
    | (extract_lets +onlyGivenNames x; with_reducible refine Lands.cut (u := x) ?_ ?_; rotate_left; intro hx; clear_value x; rename' x => y; rotate_right; unfold x; clear x)
    | (extract_lets +onlyGivenNames x; with_reducible refine Within.cut (u := x) ?_ ?_; rotate_left; intro hx; clear_value x; rename' x => y; rotate_right; unfold x; clear x)
    | (extract_lets +onlyGivenNames x; clear_value x; rename' x => z)
    | (extract_lets +onlyGivenNames x; rename' x => z)
    | dsimp -zeta only
    | with_reducible apply State.send_frame
    | with_reducible apply State.setDevice_frame
    | with_reducible apply State.markGone_frame
    | with_reducible apply Lands.ite
    | with_reducible apply Within.ite
    | (with_reducible refine Within.foldl _ ?_ ?_; rotate_left; intro _ _)
    | (with_reducible refine Within.foldl_snd _ ?_ ?_; rotate_left; intro _ _)
    | split

theorem execLeaveNotice_frame device s : Lands [.block 16, .ddp, .xrn, .chan, .mem, .out] s (execLeaveNotice device s) := by
  unfold execLeaveNotice
  repeat' first
    | with_reducible exact Within.refl _ _
    | with_reducible assumption
    | (show Part.sub _ _ = true; rfl)
    | with_reducible apply Lands.next
    | dsimp -zeta only
    | with_reducible apply State.markGone_frame
    | with_reducible apply Lands.ite
    | with_reducible apply Within.ite
    | split

theorem execDeviceIsolatedTimeout_frame device s : Lands [.block 4, .block 6, .block 16, .evt, .nor, .host, .ddp, .xrn, .chan, .mem, .out, .hostWait] s (execDeviceIsolatedTimeout device s) := by
  unfold execDeviceIsolatedTimeout
  repeat' first
    | with_reducible exact Within.refl _ _
    | with_reducible assumption
    | (show Part.sub _ _ = true; rfl)
    | with_reducible apply Lands.next
    | dsimp -zeta only
    | with_reducible apply State.event1_frame
    | with_reducible apply State.setDevice_frame
    | with_reducible apply State.markGone_frame
    | with_reducible apply Lands.ite
    | with_reducible apply Within.ite
    | split

theorem execTimeFlitSend_frame link s : Lands [.regs, .holding, .wc, .xrn, .chan, .out] s (execTimeFlitSend link s) := by
  unfold execTimeFlitSend
  repeat' first
    | with_reducible exact Within.refl _ _
    | with_reducible assumption
    | (show Part.sub _ _ = true; rfl)
    | with_reducible apply Lands.next
    | (extract_lets +onlyGivenNames x; with_reducible refine Lands.cut (u := x) ?_ ?_; rotate_left; intro hx; clear_value x; rename' x => y; rotate_right; unfold x; clear x)
    | (extract_lets +onlyGivenNames x; with_reducible refine Within.cut (u := x) ?_ ?_; rotate_left; intro hx; clear_value x; rename' x => y; rotate_right; unfold x; clear x)
    | (extract_lets +onlyGivenNames x; clear_value x; rename' x => z)
    | (extract_lets +onlyGivenNames x; rename' x => z)
    | dsimp -zeta only
    | with_reducible apply State.send_frame
    | with_reducible apply State.setLink_frame
    | with_reducible apply Lands.ite
    | with_reducible apply Within.ite
    | fail_if_no_progress (with_reducible refine Within.put (a := []) ?_ rfl rfl rfl rfl rfl)
    | split

theorem State.advanceTime_frame {ps s t} ticks (h : Within ps s t) (hp : Part.sub [.ringTime, .xrn] ps = true) : Within ps s (State.advanceTime t ticks) := by
  refine h.step (a := [.ringTime, .xrn]) ?_ hp
  unfold State.advanceTime
  repeat' first
    | with_reducible exact Within.refl _ _
    | with_reducible assumption
    | (show Part.sub _ _ = true; rfl)
    | dsimp -zeta only
    | with_reducible apply Within.ite
    | fail_if_no_progress (with_reducible refine Within.put (a := [.ringTime, .xrn]) ?_ rfl rfl rfl rfl rfl)
    | split

theorem State.stepTime_frame {ps s t} ticks (h : Within ps s t) (hp : Part.sub [.regs, .holding, .ringTime, .evt, .nor, .host, .ports, .trn, .cmd, .ddp, .keys, .wc, .sig, .lfl, .map, .rep, .prg, .xrn, .chan, .store, .mem, .free, .out, .hostWait] ps = true) : Within ps s (State.stepTime t ticks) := by
  refine h.step (a := [.regs, .holding, .ringTime, .evt, .nor, .host, .ports, .trn, .cmd, .ddp, .keys, .wc, .sig, .lfl, .map, .rep, .prg, .xrn, .chan, .store, .mem, .free, .out, .hostWait]) ?_ hp
  unfold State.stepTime
  repeat' first
    | with_reducible exact Within.refl _ _
    | with_reducible assumption
    | (show Part.sub _ _ = true; rfl)
    | (extract_lets +onlyGivenNames x; with_reducible refine Within.cut (u := x) ?_ ?_; rotate_left; intro hx; clear_value x; rename' x => y; rotate_right; unfold x; clear x)
    | (extract_lets +onlyGivenNames x; clear_value x; rename' x => z)
    | (extract_lets +onlyGivenNames x; rename' x => z)
    | dsimp -zeta only
    | with_reducible apply State.consistencyCut_frame
    | with_reducible apply State.advanceTime_frame
    | with_reducible apply Within.ite
    | (with_reducible refine Within.foldl _ ?_ ?_; rotate_left; intro _ _)
    | (with_reducible refine Within.foldl_snd _ ?_ ?_; rotate_left; intro _ _)
    | split

theorem State.attach_frame {ps s t}  (h : Within ps s t) (hp : Part.sub [.block 4, .block 6, .block 16, .evt, .nor, .host, .xrn, .chan, .out, .hostWait] ps = true) : Within ps s (State.attach t) := by
  refine h.step (a := [.block 4, .block 6, .block 16, .evt, .nor, .host, .xrn, .chan, .out, .hostWait]) ?_ hp
  unfold State.attach
  repeat' first
    | with_reducible exact Within.refl _ _
    | with_reducible assumption
    | (show Part.sub _ _ = true; rfl)
    | (extract_lets +onlyGivenNames x; with_reducible refine Within.cut (u := x) ?_ ?_; rotate_left; intro hx; clear_value x; rename' x => y; rotate_right; unfold x; clear x)
    | (extract_lets +onlyGivenNames x; clear_value x; rename' x => z)
    | (extract_lets +onlyGivenNames x; rename' x => z)
    | dsimp -zeta only
    | with_reducible apply State.event_frame
    | with_reducible apply State.event1_frame
    | with_reducible apply State.sendJoin_frame
    | with_reducible apply State.setDevice_frame
    | with_reducible apply Within.ite
    | fail_if_no_progress (with_reducible refine Within.put (a := [.xrn]) ?_ rfl rfl rfl rfl rfl)
    | split

theorem State.loseLock_frame {ps s t}  (h : Within ps s t) (hp : Part.sub [.block 4, .block 6, .block 16, .evt, .nor, .host, .xrn, .out, .hostWait] ps = true) : Within ps s (State.loseLock t) := by
  refine h.step (a := [.block 4, .block 6, .block 16, .evt, .nor, .host, .xrn, .out, .hostWait]) ?_ hp
  unfold State.loseLock
  repeat' first
    | with_reducible exact Within.refl _ _
    | with_reducible assumption
    | (show Part.sub _ _ = true; rfl)
    | dsimp -zeta only
    | with_reducible apply State.event_frame
    | with_reducible apply State.setDevice_frame
    | with_reducible apply Within.ite
    | fail_if_no_progress (with_reducible refine Within.put (a := [.xrn]) ?_ rfl rfl rfl rfl rfl)
    | split

theorem State.countLock_frame {ps s t} offset (h : Within ps s t) (hp : Part.sub [.block 4, .block 6, .block 16, .evt, .nor, .host, .xrn, .chan, .out, .hostWait] ps = true) : Within ps s (State.countLock t offset) := by
  refine h.step (a := [.block 4, .block 6, .block 16, .evt, .nor, .host, .xrn, .chan, .out, .hostWait]) ?_ hp
  unfold State.countLock
  repeat' first
    | with_reducible exact Within.refl _ _
    | with_reducible assumption
    | (show Part.sub _ _ = true; rfl)
    | (extract_lets +onlyGivenNames x; with_reducible refine Within.cut (u := x) ?_ ?_; rotate_left; intro hx; clear_value x; rename' x => y; rotate_right; unfold x; clear x)
    | (extract_lets +onlyGivenNames x; clear_value x; rename' x => z)
    | (extract_lets +onlyGivenNames x; rename' x => z)
    | dsimp -zeta only
    | with_reducible apply State.attach_frame
    | with_reducible apply State.loseLock_frame
    | with_reducible apply Within.ite
    | fail_if_no_progress (with_reducible refine Within.put (a := [.xrn]) ?_ rfl rfl rfl rfl rfl)
    | split

theorem State.servo_frame {ps s t} offset (h : Within ps s t) (hp : Part.sub [.regs, .holding, .ringTime, .evt, .nor, .host, .ports, .trn, .cmd, .ddp, .keys, .wc, .sig, .lfl, .map, .rep, .prg, .xrn, .chan, .store, .mem, .free, .out, .hostWait] ps = true) : Within ps s (State.servo t offset) := by
  refine h.step (a := [.regs, .holding, .ringTime, .evt, .nor, .host, .ports, .trn, .cmd, .ddp, .keys, .wc, .sig, .lfl, .map, .rep, .prg, .xrn, .chan, .store, .mem, .free, .out, .hostWait]) ?_ hp
  unfold State.servo
  repeat' first
    | with_reducible exact Within.refl _ _
    | with_reducible assumption
    | (show Part.sub _ _ = true; rfl)
    | (extract_lets +onlyGivenNames x; with_reducible refine Within.cut (u := x) ?_ ?_; rotate_left; intro hx; clear_value x; rename' x => y; rotate_right; unfold x; clear x)
    | (extract_lets +onlyGivenNames x; clear_value x; rename' x => z)
    | (extract_lets +onlyGivenNames x; rename' x => z)
    | dsimp -zeta only
    | with_reducible apply State.wr_frame
    | with_reducible apply State.event_frame
    | with_reducible apply State.setDevice_frame
    | with_reducible apply State.stepTime_frame
    | with_reducible apply State.countLock_frame
    | with_reducible apply Within.ite
    | fail_if_no_progress (with_reducible refine Within.put (a := [.xrn]) ?_ rfl rfl rfl rfl rfl)
    | split

theorem execTimeFlit_frame link flit s : Lands [.regs, .holding, .ringTime, .evt, .nor, .host, .ports, .trn, .cmd, .ddp, .keys, .wc, .sig, .lfl, .map, .rep, .prg, .xrn, .chan, .store, .mem, .free, .out, .hostWait] s (execTimeFlit link flit s) := by
  unfold execTimeFlit
  repeat' first
    | with_reducible exact Within.refl _ _
    | with_reducible assumption
    | (show Part.sub _ _ = true; rfl)
    | with_reducible apply Lands.next
    | (extract_lets +onlyGivenNames x; with_reducible refine Lands.cut (u := x) ?_ ?_; rotate_left; intro hx; clear_value x; rename' x => y; rotate_right; unfold x; clear x)
    | (extract_lets +onlyGivenNames x; with_reducible refine Within.cut (u := x) ?_ ?_; rotate_left; intro hx; clear_value x; rename' x => y; rotate_right; unfold x; clear x)
    | (extract_lets +onlyGivenNames x; clear_value x; rename' x => z)
    | (extract_lets +onlyGivenNames x; rename' x => z)
    | dsimp -zeta only
    | with_reducible apply State.wr_frame
    | with_reducible apply State.setLink_frame
    | with_reducible apply State.servo_frame
    | with_reducible apply Lands.ite
    | with_reducible apply Within.ite
    | fail_if_no_progress (with_reducible refine Within.put (a := [.xrn]) ?_ rfl rfl rfl rfl rfl)
    | split

theorem execParentTimeLost_frame  s : Lands [.block 16, .xrn] s (execParentTimeLost s) := by
  unfold execParentTimeLost
  repeat' first
    | with_reducible exact Within.refl _ _
    | with_reducible assumption
    | (show Part.sub _ _ = true; rfl)
    | with_reducible apply Lands.next
    | (extract_lets +onlyGivenNames x; with_reducible refine Lands.cut (u := x) ?_ ?_; rotate_left; intro hx; clear_value x; rename' x => y; rotate_right; unfold x; clear x)
    | (extract_lets +onlyGivenNames x; with_reducible refine Within.cut (u := x) ?_ ?_; rotate_left; intro hx; clear_value x; rename' x => y; rotate_right; unfold x; clear x)
    | (extract_lets +onlyGivenNames x; clear_value x; rename' x => z)
    | (extract_lets +onlyGivenNames x; rename' x => z)
    | dsimp -zeta only
    | with_reducible apply State.wr_frame
    | with_reducible apply Lands.ite
    | with_reducible apply Within.ite
    | fail_if_no_progress (with_reducible refine Within.put (a := [.xrn]) ?_ rfl rfl rfl rfl rfl)
    | split

theorem execHoldoverExpiry_frame  s : Lands [.block 4, .block 6, .block 16, .evt, .nor, .host, .xrn, .out, .hostWait] s (execHoldoverExpiry s) := by
  unfold execHoldoverExpiry
  repeat' first
    | with_reducible exact Within.refl _ _
    | with_reducible assumption
    | (show Part.sub _ _ = true; rfl)
    | with_reducible apply Lands.next
    | dsimp -zeta only
    | with_reducible apply State.loseLock_frame
    | with_reducible apply Lands.ite
    | with_reducible apply Within.ite
    | split

theorem execKeeperLost_frame  s : Lands [.block 4, .block 6, .block 16, .evt, .nor, .host, .ddp, .xrn, .chan, .mem, .out, .hostWait] s (execKeeperLost s) := by
  unfold execKeeperLost
  repeat' first
    | with_reducible exact Within.refl _ _
    | with_reducible assumption
    | (show Part.sub _ _ = true; rfl)
    | with_reducible apply Lands.next
    | (extract_lets +onlyGivenNames x; with_reducible refine Lands.cut (u := x) ?_ ?_; rotate_left; intro hx; clear_value x; rename' x => y; rotate_right; unfold x; clear x)
    | (extract_lets +onlyGivenNames x; with_reducible refine Within.cut (u := x) ?_ ?_; rotate_left; intro hx; clear_value x; rename' x => y; rotate_right; unfold x; clear x)
    | (extract_lets +onlyGivenNames x; clear_value x; rename' x => z)
    | (extract_lets +onlyGivenNames x; rename' x => z)
    | dsimp -zeta only
    | with_reducible apply State.event1_frame
    | with_reducible apply State.sendEnum_frame
    | with_reducible apply State.becomeKeeper_frame
    | with_reducible apply State.setDir_frame
    | with_reducible apply State.broadcastDir_frame
    | with_reducible apply Lands.ite
    | with_reducible apply Within.ite
    | fail_if_no_progress (with_reducible refine Within.put (a := []) ?_ rfl rfl rfl rfl rfl)
    | split

theorem execFloorPassed_frame  s : Lands [.block 4, .block 6, .block 16, .evt, .nor, .host, .xrn, .out, .hostWait] s (execFloorPassed s) := by
  unfold execFloorPassed
  repeat' first
    | with_reducible exact Within.refl _ _
    | with_reducible assumption
    | (show Part.sub _ _ = true; rfl)
    | with_reducible apply Lands.next
    | dsimp -zeta only
    | with_reducible apply State.event_frame
    | with_reducible apply State.setDevice_frame
    | with_reducible apply Lands.ite
    | with_reducible apply Within.ite
    | fail_if_no_progress (with_reducible refine Within.put (a := [.xrn]) ?_ rfl rfl rfl rfl rfl)
    | split

theorem execTimeCeilingRewrite_frame  s : Lands [.block 16, .nor] s (execTimeCeilingRewrite s) := by
  unfold execTimeCeilingRewrite
  repeat' first
    | with_reducible exact Within.refl _ _
    | with_reducible assumption
    | (show Part.sub _ _ = true; rfl)
    | with_reducible apply Lands.next
    | dsimp -zeta only
    | with_reducible apply State.raiseCeiling_frame
    | with_reducible apply Lands.ite
    | with_reducible apply Within.ite
    | split

end Sys2Proof.Machine
end

