-- ==== Sys2Proof/Laws/FrameBoot.lean ====
section
/-!
SUPPORT. Laws/FrameBoot.lean: what the definitions of Machine/Boot.lean leave alone: each changes the listed parts at most, and keeps the
canonical form.
-/
namespace Sys2Proof.Machine
open Sys2Proof

set_option Elab.async false
set_option linter.all false

theorem State.setSlot_frame {ps s t} slot img (h : Within ps s t) (hp : Part.sub [.nor] ps = true) : Within ps s (State.setSlot t slot img) := by
  refine h.step (a := [.nor]) ?_ hp
  unfold State.setSlot
  repeat' first
    | with_reducible exact Within.refl _ _
    | with_reducible assumption
    | (show Part.sub _ _ = true; rfl)
    | dsimp -zeta only
    | with_reducible apply Within.ite
    | fail_if_no_progress (with_reducible refine Within.put (a := [.nor]) ?_ rfl rfl rfl rfl rfl)
    | split

theorem State.noteRecord_frame {ps s t}  (h : Within ps s t) (hp : Part.sub [.block 3] ps = true) : Within ps s (State.noteRecord t) := by
  refine h.step (a := [.block 3]) ?_ hp
  unfold State.noteRecord
  repeat' first
    | with_reducible exact Within.refl _ _
    | with_reducible assumption
    | (show Part.sub _ _ = true; rfl)
    | dsimp -zeta only
    | with_reducible apply State.wr_frame
    | with_reducible apply Within.ite
    | split

theorem State.noteImage_frame {ps s t} slot source img (h : Within ps s t) (hp : Part.sub [.block 3, .boot] ps = true) : Within ps s (State.noteImage t slot source img) := by
  refine h.step (a := [.block 3, .boot]) ?_ hp
  unfold State.noteImage
  repeat' first
    | with_reducible exact Within.refl _ _
    | with_reducible assumption
    | (show Part.sub _ _ = true; rfl)
    | (extract_lets +onlyGivenNames x; with_reducible refine Within.cut (u := x) ?_ ?_; rotate_left; intro hx; clear_value x; rename' x => y; rotate_right; unfold x; clear x)
    | (extract_lets +onlyGivenNames x; clear_value x; rename' x => z)
    | (extract_lets +onlyGivenNames x; rename' x => z)
    | dsimp -zeta only
    | with_reducible apply State.wr_frame
    | with_reducible apply Within.ite
    | fail_if_no_progress (with_reducible refine Within.put (a := [.boot]) ?_ rfl rfl rfl rfl rfl)
    | split

theorem State.raiseSvn_frame {ps s t} v (h : Within ps s t) (hp : Part.sub [.block 3, .fuses] ps = true) : Within ps s (State.raiseSvn t v) := by
  refine h.step (a := [.block 3, .fuses]) ?_ hp
  unfold State.raiseSvn
  repeat' first
    | with_reducible exact Within.refl _ _
    | with_reducible assumption
    | (show Part.sub _ _ = true; rfl)
    | (extract_lets +onlyGivenNames x; with_reducible refine Within.cut (u := x) ?_ ?_; rotate_left; intro hx; clear_value x; rename' x => y; rotate_right; unfold x; clear x)
    | (extract_lets +onlyGivenNames x; clear_value x; rename' x => z)
    | (extract_lets +onlyGivenNames x; rename' x => z)
    | dsimp -zeta only
    | with_reducible apply State.wr_frame
    | with_reducible apply Within.ite
    | fail_if_no_progress (with_reducible refine Within.put (a := [.fuses]) ?_ rfl rfl rfl rfl rfl)
    | split

theorem State.keepDestage_frame {ps s t}  (h : Within ps s t) (hp : Part.sub [.store] ps = true) : Within ps s (State.keepDestage t) := by
  refine h.step (a := [.store]) ?_ hp
  unfold State.keepDestage
  repeat' first
    | with_reducible exact Within.refl _ _
    | with_reducible assumption
    | (show Part.sub _ _ = true; rfl)
    | dsimp -zeta only
    | with_reducible apply State.saveStore_frame
    | with_reducible apply Within.ite
    | fail_if_no_progress (with_reducible refine Within.put (a := [.store]) ?_ rfl rfl rfl rfl rfl)
    | split

theorem State.losePower_frame {ps s t} cause torn (h : Within ps s t) (hp : Part.sub [.power, .nor, .mem] ps = true) : Within ps s (State.losePower t cause torn) := by
  refine h.step (a := [.power, .nor, .mem]) ?_ hp
  unfold State.losePower
  exact Within.putMem (Within.refl _ _) rfl (fun _ => Memory.wf_nil) rfl rfl

theorem State.collapse_frame {ps s t} cause torn (h : Within ps s t) (hp : Part.sub (.regs :: .holding :: .ringTime :: .pins :: .power :: .boot :: .test :: .evt :: .nor :: .host :: .ports :: .trn :: .cmd :: .bnd :: .ddp :: .keys :: .wc :: .sig :: .lfl :: .map :: .rep :: .prg :: .xrn :: .chan :: .own :: .store :: .mem :: .hostWait :: []) ps = true) : Within ps s (State.collapse t cause torn) := by
  refine h.step (a := (.regs :: .holding :: .ringTime :: .pins :: .power :: .boot :: .test :: .evt :: .nor :: .host :: .ports :: .trn :: .cmd :: .bnd :: .ddp :: .keys :: .wc :: .sig :: .lfl :: .map :: .rep :: .prg :: .xrn :: .chan :: .own :: .store :: .mem :: .hostWait :: [])) ?_ hp
  unfold State.collapse
  repeat' first
    | with_reducible exact Within.refl _ _
    | with_reducible assumption
    | (show Part.sub _ _ = true; rfl)
    | dsimp -zeta only
    | with_reducible apply State.partReset_frame
    | with_reducible apply State.keepDestage_frame
    | with_reducible apply State.losePower_frame
    | with_reducible apply Within.ite
    | split

theorem execVinGood_frame latchLost s : Lands [.regs, .holding, .ringTime, .pins, .power, .boot, .test, .evt, .nor, .host, .ports, .trn, .cmd, .bnd, .ddp, .keys, .wc, .sig, .lfl, .map, .rep, .prg, .xrn, .chan, .own, .out, .hostWait] s (execVinGood latchLost s) := by
  unfold execVinGood
  repeat' first
    | with_reducible exact Within.refl _ _
    | with_reducible assumption
    | (show Part.sub _ _ = true; rfl)
    | with_reducible apply Lands.next
    | (extract_lets +onlyGivenNames x; with_reducible refine Lands.cut (u := x) ?_ ?_; rotate_left; intro hx; clear_value x; rename' x => y; rotate_right; unfold x; clear x)
    | (extract_lets +onlyGivenNames x; with_reducible refine Within.cut (u := x) ?_ ?_; rotate_left; intro hx; clear_value x; rename' x => y; rotate_right; unfold x; clear x)
    | (extract_lets +onlyGivenNames x; clear_value x; rename' x => z)
    | (extract_lets +onlyGivenNames x; rename' x => z)
    | dsimp -zeta only
    | with_reducible apply State.event_frame
    | with_reducible apply State.partReset_frame
    | with_reducible apply Lands.ite
    | with_reducible apply Within.ite
    | fail_if_no_progress (with_reducible refine Within.put (a := [.power, .evt, .nor]) ?_ rfl rfl rfl rfl rfl)
    | split

theorem execVinCollapse_frame torn s : Lands (.regs :: .holding :: .ringTime :: .pins :: .power :: .boot :: .test :: .evt :: .nor :: .host :: .ports :: .trn :: .cmd :: .bnd :: .ddp :: .keys :: .wc :: .sig :: .lfl :: .map :: .rep :: .prg :: .xrn :: .chan :: .own :: .store :: .mem :: .hostWait :: []) s (execVinCollapse torn s) := by
  unfold execVinCollapse
  repeat' first
    | with_reducible exact Within.refl _ _
    | with_reducible assumption
    | (show Part.sub _ _ = true; rfl)
    | with_reducible apply Lands.next
    | dsimp -zeta only
    | with_reducible apply State.collapse_frame
    | with_reducible apply Lands.ite
    | with_reducible apply Within.ite
    | split

theorem execVinOvervoltage_frame torn s : Lands (.regs :: .holding :: .ringTime :: .pins :: .power :: .boot :: .test :: .evt :: .nor :: .host :: .ports :: .trn :: .cmd :: .bnd :: .ddp :: .keys :: .wc :: .sig :: .lfl :: .map :: .rep :: .prg :: .xrn :: .chan :: .own :: .store :: .mem :: .hostWait :: []) s (execVinOvervoltage torn s) := by
  unfold execVinOvervoltage
  repeat' first
    | with_reducible exact Within.refl _ _
    | with_reducible assumption
    | (show Part.sub _ _ = true; rfl)
    | with_reducible apply Lands.next
    | dsimp -zeta only
    | with_reducible apply State.collapse_frame
    | with_reducible apply Lands.ite
    | with_reducible apply Within.ite
    | split

theorem execResetBallAssert_frame  s : Lands [.regs, .holding, .ringTime, .pins, .power, .boot, .test, .evt, .nor, .host, .ports, .trn, .cmd, .bnd, .ddp, .keys, .wc, .sig, .lfl, .map, .rep, .prg, .xrn, .chan, .own, .hostWait] s (execResetBallAssert s) := by
  unfold execResetBallAssert
  repeat' first
    | with_reducible exact Within.refl _ _
    | with_reducible assumption
    | (show Part.sub _ _ = true; rfl)
    | with_reducible apply Lands.next
    | (extract_lets +onlyGivenNames x; with_reducible refine Lands.cut (u := x) ?_ ?_; rotate_left; intro hx; clear_value x; rename' x => y; rotate_right; unfold x; clear x)
    | (extract_lets +onlyGivenNames x; with_reducible refine Within.cut (u := x) ?_ ?_; rotate_left; intro hx; clear_value x; rename' x => y; rotate_right; unfold x; clear x)
    | (extract_lets +onlyGivenNames x; clear_value x; rename' x => z)
    | (extract_lets +onlyGivenNames x; rename' x => z)
    | dsimp -zeta only
    | with_reducible apply State.partReset_frame
    | with_reducible apply Lands.ite
    | with_reducible apply Within.ite
    | fail_if_no_progress (with_reducible refine Within.put (a := [.pins]) ?_ rfl rfl rfl rfl rfl)
    | split

theorem execPartSelfReset_frame  s : Lands [.regs, .holding, .ringTime, .pins, .power, .boot, .test, .evt, .nor, .host, .ports, .trn, .cmd, .bnd, .ddp, .keys, .wc, .sig, .lfl, .map, .rep, .prg, .xrn, .chan, .own, .hostWait] s (execPartSelfReset s) := by
  unfold execPartSelfReset
  repeat' first
    | with_reducible exact Within.refl _ _
    | with_reducible assumption
    | (show Part.sub _ _ = true; rfl)
    | with_reducible apply Lands.next
    | dsimp -zeta only
    | with_reducible apply State.partReset_frame
    | with_reducible apply Lands.ite
    | with_reducible apply Within.ite
    | split

theorem State.strapRegisters_frame {ps s t}  (h : Within ps s t) (hp : Part.sub [.block 1, .block 3, .block 4, .block 6, .block 8, .block 15, .block 16, .evt, .nor, .host, .out, .hostWait] ps = true) : Within ps s (State.strapRegisters t) := by
  refine h.step (a := [.block 1, .block 3, .block 4, .block 6, .block 8, .block 15, .block 16, .evt, .nor, .host, .out, .hostWait]) ?_ hp
  unfold State.strapRegisters
  repeat' first
    | with_reducible exact Within.refl _ _
    | with_reducible assumption
    | (show Part.sub _ _ = true; rfl)
    | (extract_lets +onlyGivenNames x; with_reducible refine Within.cut (u := x) ?_ ?_; rotate_left; intro hx; clear_value x; rename' x => y; rotate_right; unfold x; clear x)
    | (extract_lets +onlyGivenNames x; clear_value x; rename' x => z)
    | (extract_lets +onlyGivenNames x; rename' x => z)
    | dsimp -zeta only
    | with_reducible apply State.wr_frame
    | with_reducible apply State.event_frame
    | with_reducible apply Within.ite
    | (with_reducible refine Within.foldl _ ?_ ?_; rotate_left; intro _ _)
    | (with_reducible refine Within.foldl_snd _ ?_ ?_; rotate_left; intro _ _)
    | split

theorem State.settleRecord_frame {ps s t}  (h : Within ps s t) (hp : Part.sub [.block 3, .block 4, .block 6, .fuses, .evt, .nor, .host, .out, .hostWait] ps = true) : Within ps s (State.settleRecord t) := by
  refine h.step (a := [.block 3, .block 4, .block 6, .fuses, .evt, .nor, .host, .out, .hostWait]) ?_ hp
  unfold State.settleRecord
  repeat' first
    | with_reducible exact Within.refl _ _
    | with_reducible assumption
    | (show Part.sub _ _ = true; rfl)
    | (extract_lets +onlyGivenNames x; with_reducible refine Within.cut (u := x) ?_ ?_; rotate_left; intro hx; clear_value x; rename' x => y; rotate_right; unfold x; clear x)
    | (extract_lets +onlyGivenNames x; clear_value x; rename' x => z)
    | (extract_lets +onlyGivenNames x; rename' x => z)
    | dsimp -zeta only
    | with_reducible apply State.event_frame
    | with_reducible apply State.event1_frame
    | with_reducible apply State.appendRecord_frame
    | with_reducible apply State.raiseSvn_frame
    | with_reducible apply Within.ite
    | fail_if_no_progress (with_reducible refine Within.put (a := [.nor]) ?_ rfl rfl rfl rfl rfl)
    | split

theorem State.loadSlot_frame {ps s t} slot second (h : Within ps s t) (hp : Part.sub [.block 3, .boot] ps = true) : Within ps s (State.loadSlot t slot second) := by
  refine h.step (a := [.block 3, .boot]) ?_ hp
  unfold State.loadSlot
  repeat' first
    | with_reducible exact Within.refl _ _
    | with_reducible assumption
    | (show Part.sub _ _ = true; rfl)
    | dsimp -zeta only
    | with_reducible apply State.wr_frame
    | with_reducible apply Within.ite
    | fail_if_no_progress (with_reducible refine Within.put (a := [.boot]) ?_ rfl rfl rfl rfl rfl)
    | split

theorem execStrapSample_frame straps qk0 s : Lands [.block 1, .block 3, .block 4, .block 6, .block 8, .block 15, .block 16, .pins, .fuses, .straps, .power, .boot, .evt, .nor, .host, .keys, .chan, .free, .out, .hostWait] s (execStrapSample straps qk0 s) := by
  unfold execStrapSample
  repeat' first
    | with_reducible exact Within.refl _ _
    | with_reducible assumption
    | (show Part.sub _ _ = true; rfl)
    | with_reducible apply Lands.next
    | (extract_lets +onlyGivenNames x; with_reducible refine Lands.cut (u := x) ?_ ?_; rotate_left; intro hx; clear_value x; rename' x => y; rotate_right; unfold x; clear x)
    | (extract_lets +onlyGivenNames x; with_reducible refine Within.cut (u := x) ?_ ?_; rotate_left; intro hx; clear_value x; rename' x => y; rotate_right; unfold x; clear x)
    | (extract_lets +onlyGivenNames x; clear_value x; rename' x => z)
    | (extract_lets +onlyGivenNames x; rename' x => z)
    | dsimp -zeta only
    | with_reducible apply State.wr_frame
    | with_reducible apply State.fresh_frame
    | with_reducible apply State.event_frame
    | with_reducible apply State.sendRing_frame
    | with_reducible apply State.setQuarter_frame
    | with_reducible apply State.noteRecord_frame
    | with_reducible apply State.strapRegisters_frame
    | with_reducible apply State.settleRecord_frame
    | with_reducible apply State.loadSlot_frame
    | with_reducible apply Lands.ite
    | with_reducible apply Within.ite
    | fail_if_no_progress (with_reducible refine Within.put (a := [.pins, .straps, .boot, .keys]) ?_ rfl rfl rfl rfl rfl)
    | split
    | (with_reducible refine Within.of_pair (by assumption) ?_)

theorem State.setImage_frame {ps s t} img (h : Within ps s t) (hp : Part.sub [.boot] ps = true) : Within ps s (State.setImage t img) := by
  refine h.step (a := [.boot]) ?_ hp
  unfold State.setImage
  repeat' first
    | with_reducible exact Within.refl _ _
    | with_reducible assumption
    | (show Part.sub _ _ = true; rfl)
    | dsimp -zeta only
    | with_reducible apply Within.ite
    | fail_if_no_progress (with_reducible refine Within.put (a := [.boot]) ?_ rfl rfl rfl rfl rfl)
    | split

theorem State.runImage_frame {ps s t} slot source img (h : Within ps s t) (hp : Part.sub [.block 3, .block 4, .block 6, .boot, .evt, .nor, .host, .out, .hostWait] ps = true) : Within ps s (State.runImage t slot source img) := by
  refine h.step (a := [.block 3, .block 4, .block 6, .boot, .evt, .nor, .host, .out, .hostWait]) ?_ hp
  unfold State.runImage
  repeat' first
    | with_reducible exact Within.refl _ _
    | with_reducible assumption
    | (show Part.sub _ _ = true; rfl)
    | (extract_lets +onlyGivenNames x; with_reducible refine Within.cut (u := x) ?_ ?_; rotate_left; intro hx; clear_value x; rename' x => y; rotate_right; unfold x; clear x)
    | (extract_lets +onlyGivenNames x; clear_value x; rename' x => z)
    | (extract_lets +onlyGivenNames x; rename' x => z)
    | dsimp -zeta only
    | with_reducible apply State.wr_frame
    | with_reducible apply State.event_frame
    | with_reducible apply State.noteImage_frame
    | with_reducible apply State.setImage_frame
    | with_reducible apply Within.ite
    | split

theorem execBootImageLoaded_frame  s : Lands [.block 3, .block 4, .block 6, .boot, .evt, .nor, .host, .out, .hostWait] s (execBootImageLoaded s) := by
  unfold execBootImageLoaded
  repeat' first
    | with_reducible exact Within.refl _ _
    | with_reducible assumption
    | (show Part.sub _ _ = true; rfl)
    | with_reducible apply Lands.next
    | (extract_lets +onlyGivenNames x; with_reducible refine Lands.cut (u := x) ?_ ?_; rotate_left; intro hx; clear_value x; rename' x => y; rotate_right; unfold x; clear x)
    | (extract_lets +onlyGivenNames x; with_reducible refine Within.cut (u := x) ?_ ?_; rotate_left; intro hx; clear_value x; rename' x => y; rotate_right; unfold x; clear x)
    | (extract_lets +onlyGivenNames x; clear_value x; rename' x => z)
    | (extract_lets +onlyGivenNames x; rename' x => z)
    | dsimp -zeta only
    | with_reducible apply State.wr_frame
    | with_reducible apply State.event_frame
    | with_reducible apply State.appendRecord_frame
    | with_reducible apply State.noteRecord_frame
    | with_reducible apply State.loadSlot_frame
    | with_reducible apply State.runImage_frame
    | with_reducible apply Lands.ite
    | with_reducible apply Within.ite
    | fail_if_no_progress (with_reducible refine Within.put (a := [.boot]) ?_ rfl rfl rfl rfl rfl)
    | split

theorem State.dropUndestaged_frame {ps s t}  (h : Within ps s t) (hp : Part.sub [.block 4, .block 6, .block 13, .block 20, .evt, .nor, .host, .ddp, .keys, .sig, .map, .store, .out, .hostWait] ps = true) : Within ps s (State.dropUndestaged t) := by
  refine h.step (a := [.block 4, .block 6, .block 13, .block 20, .evt, .nor, .host, .ddp, .keys, .sig, .map, .store, .out, .hostWait]) ?_ hp
  unfold State.dropUndestaged
  repeat' first
    | with_reducible exact Within.refl _ _
    | with_reducible assumption
    | (show Part.sub _ _ = true; rfl)
    | (extract_lets +onlyGivenNames x; with_reducible refine Within.cut (u := x) ?_ ?_; rotate_left; intro hx; clear_value x; rename' x => y; rotate_right; unfold x; clear x)
    | (extract_lets +onlyGivenNames x; clear_value x; rename' x => z)
    | (extract_lets +onlyGivenNames x; rename' x => z)
    | dsimp -zeta only
    | with_reducible apply State.loseRecords_frame
    | with_reducible apply Within.ite
    | split

theorem State.releaseDestaged_frame {ps s t} m (h : Within ps s t) (hp : Part.sub [.block 13, .block 20, .ddp, .keys, .sig, .map, .store] ps = true) : Within ps s (State.releaseDestaged t m) := by
  refine h.step (a := [.block 13, .block 20, .ddp, .keys, .sig, .map, .store]) ?_ hp
  unfold State.releaseDestaged
  repeat' first
    | with_reducible exact Within.refl _ _
    | with_reducible assumption
    | (show Part.sub _ _ = true; rfl)
    | (extract_lets +onlyGivenNames x; with_reducible refine Within.cut (u := x) ?_ ?_; rotate_left; intro hx; clear_value x; rename' x => y; rotate_right; unfold x; clear x)
    | (extract_lets +onlyGivenNames x; clear_value x; rename' x => z)
    | (extract_lets +onlyGivenNames x; rename' x => z)
    | dsimp -zeta only
    | with_reducible apply State.rewriteLoc_frame
    | with_reducible apply Within.ite
    | (with_reducible refine Within.foldl _ ?_ ?_; rotate_left; intro _ _)
    | (with_reducible refine Within.foldl_snd _ ?_ ?_; rotate_left; intro _ _)
    | fail_if_no_progress (with_reducible refine Within.put (a := [.sig]) ?_ rfl rfl rfl rfl rfl)
    | split

theorem State.reloadMap_frame {ps s t}  (h : Within ps s t) (hp : Part.sub [.map] ps = true) : Within ps s (State.reloadMap t) := by
  refine h.step (a := [.map]) ?_ hp
  unfold State.reloadMap
  repeat' first
    | with_reducible exact Within.refl _ _
    | with_reducible assumption
    | (show Part.sub _ _ = true; rfl)
    | (extract_lets +onlyGivenNames x; with_reducible refine Within.cut (u := x) ?_ ?_; rotate_left; intro hx; clear_value x; rename' x => y; rotate_right; unfold x; clear x)
    | (extract_lets +onlyGivenNames x; clear_value x; rename' x => z)
    | (extract_lets +onlyGivenNames x; rename' x => z)
    | dsimp -zeta only
    | with_reducible apply Within.ite
    | fail_if_no_progress (with_reducible refine Within.put (a := [.map]) ?_ rfl rfl rfl rfl rfl)
    | split

theorem State.reloadSig_frame {ps s t}  (h : Within ps s t) (hp : Part.sub [.sig] ps = true) : Within ps s (State.reloadSig t) := by
  refine h.step (a := [.sig]) ?_ hp
  unfold State.reloadSig
  repeat' first
    | with_reducible exact Within.refl _ _
    | with_reducible assumption
    | (show Part.sub _ _ = true; rfl)
    | (extract_lets +onlyGivenNames x; with_reducible refine Within.cut (u := x) ?_ ?_; rotate_left; intro hx; clear_value x; rename' x => y; rotate_right; unfold x; clear x)
    | (extract_lets +onlyGivenNames x; clear_value x; rename' x => z)
    | (extract_lets +onlyGivenNames x; rename' x => z)
    | dsimp -zeta only
    | with_reducible apply Within.ite
    | fail_if_no_progress (with_reducible refine Within.put (a := [.sig]) ?_ rfl rfl rfl rfl rfl)
    | split

theorem State.reloadIndex_frame {ps s t}  (h : Within ps s t) (hp : Part.sub [.block 4, .block 6, .block 11, .block 12, .block 13, .block 20, .evt, .nor, .host, .ddp, .keys, .sig, .map, .store, .free, .out, .hostWait] ps = true) : Within ps s (State.reloadIndex t) := by
  refine h.step (a := [.block 4, .block 6, .block 11, .block 12, .block 13, .block 20, .evt, .nor, .host, .ddp, .keys, .sig, .map, .store, .free, .out, .hostWait]) ?_ hp
  unfold State.reloadIndex
  repeat' first
    | with_reducible exact Within.refl _ _
    | with_reducible assumption
    | (show Part.sub _ _ = true; rfl)
    | (extract_lets +onlyGivenNames x; with_reducible refine Within.cut (u := x) ?_ ?_; rotate_left; intro hx; clear_value x; rename' x => y; rotate_right; unfold x; clear x)
    | (extract_lets +onlyGivenNames x; clear_value x; rename' x => z)
    | (extract_lets +onlyGivenNames x; rename' x => z)
    | dsimp -zeta only
    | with_reducible apply State.insertIndex_frame
    | with_reducible apply State.noteJournal_frame
    | with_reducible apply Within.ite
    | (with_reducible refine Within.foldl _ ?_ ?_; rotate_left; intro _ _)
    | (with_reducible refine Within.foldl_snd _ ?_ ?_; rotate_left; intro _ _)
    | fail_if_no_progress (with_reducible refine Within.put (a := [.ddp, .keys]) ?_ rfl rfl rfl rfl rfl)
    | split

theorem State.reloadGroups_frame {ps s t}  (h : Within ps s t) (hp : Part.sub [.own] ps = true) : Within ps s (State.reloadGroups t) := by
  refine h.step (a := [.own]) ?_ hp
  unfold State.reloadGroups
  repeat' first
    | with_reducible exact Within.refl _ _
    | with_reducible assumption
    | (show Part.sub _ _ = true; rfl)
    | dsimp -zeta only
    | with_reducible apply Within.ite
    | fail_if_no_progress (with_reducible refine Within.put (a := [.own]) ?_ rfl rfl rfl rfl rfl)
    | split

theorem State.reloadResv_frame {ps s t}  (h : Within ps s t) (hp : Part.sub [.cmd] ps = true) : Within ps s (State.reloadResv t) := by
  refine h.step (a := [.cmd]) ?_ hp
  unfold State.reloadResv
  repeat' first
    | with_reducible exact Within.refl _ _
    | with_reducible assumption
    | (show Part.sub _ _ = true; rfl)
    | dsimp -zeta only
    | with_reducible apply Within.ite
    | fail_if_no_progress (with_reducible refine Within.put (a := [.cmd]) ?_ rfl rfl rfl rfl rfl)
    | split

theorem State.reloadStore_frame {ps s t}  (h : Within ps s t) (hp : Part.sub [.block 4, .block 6, .block 11, .block 12, .block 13, .block 14, .block 20, .evt, .nor, .host, .cmd, .ddp, .keys, .sig, .map, .own, .store, .free, .out, .hostWait] ps = true) : Within ps s (State.reloadStore t) := by
  refine h.step (a := [.block 4, .block 6, .block 11, .block 12, .block 13, .block 14, .block 20, .evt, .nor, .host, .cmd, .ddp, .keys, .sig, .map, .own, .store, .free, .out, .hostWait]) ?_ hp
  unfold State.reloadStore
  repeat' first
    | with_reducible exact Within.refl _ _
    | with_reducible assumption
    | (show Part.sub _ _ = true; rfl)
    | dsimp -zeta only
    | with_reducible apply State.noteMap_frame
    | with_reducible apply State.noteLog_frame
    | with_reducible apply State.reloadMap_frame
    | with_reducible apply State.reloadSig_frame
    | with_reducible apply State.reloadIndex_frame
    | with_reducible apply State.reloadGroups_frame
    | with_reducible apply State.reloadResv_frame
    | with_reducible apply Within.ite
    | split

theorem State.emptyOwn_frame {ps s t}  (h : Within ps s t) (hp : Part.sub [.block 13, .block 20, .wc, .sig, .map, .store] ps = true) : Within ps s (State.emptyOwn t) := by
  refine h.step (a := [.block 13, .block 20, .wc, .sig, .map, .store]) ?_ hp
  unfold State.emptyOwn
  repeat' first
    | with_reducible exact Within.refl _ _
    | with_reducible assumption
    | (show Part.sub _ _ = true; rfl)
    | dsimp -zeta only
    | with_reducible apply State.noteDirty_frame
    | with_reducible apply Within.ite
    | fail_if_no_progress (with_reducible refine Within.put (a := [.wc]) ?_ rfl rfl rfl rfl rfl)
    | split

theorem State.restoreOwn_frame {ps s t}  (h : Within ps s t) (hp : Part.sub [.wc] ps = true) : Within ps s (State.restoreOwn t) := by
  refine h.step (a := [.wc]) ?_ hp
  unfold State.restoreOwn
  repeat' first
    | with_reducible exact Within.refl _ _
    | with_reducible assumption
    | (show Part.sub _ _ = true; rfl)
    | dsimp -zeta only
    | with_reducible apply Within.ite
    | fail_if_no_progress (with_reducible refine Within.put (a := [.wc]) ?_ rfl rfl rfl rfl rfl)
    | split

theorem State.takeManifest_frame {ps s t} pairEpoch (h : Within ps s t) (hp : Part.sub [.block 4, .block 6, .block 11, .block 12, .block 13, .block 14, .block 20, .evt, .nor, .host, .cmd, .ddp, .keys, .wc, .sig, .map, .own, .store, .free, .out, .hostWait] ps = true) : Within ps s (State.takeManifest t pairEpoch) := by
  refine h.step (a := [.block 4, .block 6, .block 11, .block 12, .block 13, .block 14, .block 20, .evt, .nor, .host, .cmd, .ddp, .keys, .wc, .sig, .map, .own, .store, .free, .out, .hostWait]) ?_ hp
  unfold State.takeManifest
  repeat' first
    | with_reducible exact Within.refl _ _
    | with_reducible assumption
    | (show Part.sub _ _ = true; rfl)
    | (extract_lets +onlyGivenNames x; with_reducible refine Within.cut (u := x) ?_ ?_; rotate_left; intro hx; clear_value x; rename' x => y; rotate_right; unfold x; clear x)
    | (extract_lets +onlyGivenNames x; clear_value x; rename' x => z)
    | (extract_lets +onlyGivenNames x; rename' x => z)
    | dsimp -zeta only
    | with_reducible apply State.wr_frame
    | with_reducible apply State.event_frame
    | with_reducible apply State.event1_frame
    | with_reducible apply State.dropUndestaged_frame
    | with_reducible apply State.releaseDestaged_frame
    | with_reducible apply State.reloadStore_frame
    | with_reducible apply State.emptyOwn_frame
    | with_reducible apply State.restoreOwn_frame
    | with_reducible apply Within.ite
    | fail_if_no_progress (with_reducible refine Within.put (a := []) ?_ rfl rfl rfl rfl rfl)
    | split

theorem State.trainDdr_frame {ps s t} good bad installed (h : Within ps s t) (hp : Part.sub [.block 4, .block 6, .pins, .power, .test, .evt, .nor, .host, .out, .hostWait] ps = true) : Within ps s (State.trainDdr t good bad installed) := by
  refine h.step (a := [.block 4, .block 6, .pins, .power, .test, .evt, .nor, .host, .out, .hostWait]) ?_ hp
  unfold State.trainDdr
  repeat' first
    | with_reducible exact Within.refl _ _
    | with_reducible assumption
    | (show Part.sub _ _ = true; rfl)
    | (extract_lets +onlyGivenNames x; with_reducible refine Within.cut (u := x) ?_ ?_; rotate_left; intro hx; clear_value x; rename' x => y; rotate_right; unfold x; clear x)
    | (extract_lets +onlyGivenNames x; clear_value x; rename' x => z)
    | (extract_lets +onlyGivenNames x; rename' x => z)
    | dsimp -zeta only
    | with_reducible apply State.event1_frame
    | with_reducible apply State.headLoss_frame
    | with_reducible apply Within.ite
    | (with_reducible refine Within.foldl _ ?_ ?_; rotate_left; intro _ _)
    | (with_reducible refine Within.foldl_snd _ ?_ ?_; rotate_left; intro _ _)
    | fail_if_no_progress (with_reducible refine Within.put (a := [.test]) ?_ rfl rfl rfl rfl rfl)
    | split

theorem State.wakeActive_frame {ps s t}  (h : Within ps s t) (hp : Part.sub [.power] ps = true) : Within ps s (State.wakeActive t) := by
  refine h.step (a := [.power]) ?_ hp
  unfold State.wakeActive
  repeat' first
    | with_reducible exact Within.refl _ _
    | with_reducible assumption
    | (show Part.sub _ _ = true; rfl)
    | (extract_lets +onlyGivenNames x; with_reducible refine Within.cut (u := x) ?_ ?_; rotate_left; intro hx; clear_value x; rename' x => y; rotate_right; unfold x; clear x)
    | (extract_lets +onlyGivenNames x; clear_value x; rename' x => z)
    | (extract_lets +onlyGivenNames x; rename' x => z)
    | dsimp -zeta only
    | with_reducible apply State.wake_frame
    | with_reducible apply Within.ite
    | (with_reducible refine Within.foldl _ ?_ ?_; rotate_left; intro _ _)
    | (with_reducible refine Within.foldl_snd _ ?_ ?_; rotate_left; intro _ _)
    | split

theorem State.restoreShifts_frame {ps s t}  (h : Within ps s t) (hp : Part.sub [.block 2] ps = true) : Within ps s (State.restoreShifts t) := by
  refine h.step (a := [.block 2]) ?_ hp
  unfold State.restoreShifts
  repeat' first
    | with_reducible exact Within.refl _ _
    | with_reducible assumption
    | (show Part.sub _ _ = true; rfl)
    | dsimp -zeta only
    | with_reducible apply State.wr_frame
    | with_reducible apply Within.ite
    | (with_reducible refine Within.foldl _ ?_ ?_; rotate_left; intro _ _)
    | (with_reducible refine Within.foldl_snd _ ?_ ?_; rotate_left; intro _ _)
    | split

theorem State.openStore_frame {ps s t}  (h : Within ps s t) (hp : Part.sub [.store] ps = true) : Within ps s (State.openStore t) := by
  refine h.step (a := [.store]) ?_ hp
  unfold State.openStore
  repeat' first
    | with_reducible exact Within.refl _ _
    | with_reducible assumption
    | (show Part.sub _ _ = true; rfl)
    | dsimp -zeta only
    | with_reducible apply Within.ite
    | fail_if_no_progress (with_reducible refine Within.put (a := [.store]) ?_ rfl rfl rfl rfl rfl)
    | split

theorem State.startCounts_frame {ps s t} epoch (h : Within ps s t) (hp : Part.sub [.evt, .rep, .xrn, .own] ps = true) : Within ps s (State.startCounts t epoch) := by
  refine h.step (a := [.evt, .rep, .xrn, .own]) ?_ hp
  unfold State.startCounts
  repeat' first
    | with_reducible exact Within.refl _ _
    | with_reducible assumption
    | (show Part.sub _ _ = true; rfl)
    | dsimp -zeta only
    | with_reducible apply Within.ite
    | fail_if_no_progress (with_reducible refine Within.put (a := [.evt, .rep, .xrn, .own]) ?_ rfl rfl rfl rfl rfl)
    | split

theorem State.takeStart_frame {ps s t} pairEpoch (h : Within ps s t) (hp : Part.sub [.block 4, .block 6, .block 11, .block 12, .block 13, .block 14, .block 20, .evt, .nor, .host, .cmd, .ddp, .keys, .wc, .sig, .map, .rep, .xrn, .own, .store, .free, .out, .hostWait] ps = true) : Within ps s (State.takeStart t pairEpoch) := by
  refine h.step (a := [.block 4, .block 6, .block 11, .block 12, .block 13, .block 14, .block 20, .evt, .nor, .host, .cmd, .ddp, .keys, .wc, .sig, .map, .rep, .xrn, .own, .store, .free, .out, .hostWait]) ?_ hp
  unfold State.takeStart
  repeat' first
    | with_reducible exact Within.refl _ _
    | with_reducible assumption
    | (show Part.sub _ _ = true; rfl)
    | dsimp -zeta only
    | with_reducible apply State.takeManifest_frame
    | with_reducible apply State.openStore_frame
    | with_reducible apply State.startCounts_frame
    | with_reducible apply Within.ite
    | split

theorem State.showStart_frame {ps s t}  (h : Within ps s t) (hp : Part.sub [.block 4, .block 16] ps = true) : Within ps s (State.showStart t) := by
  refine h.step (a := [.block 4, .block 16]) ?_ hp
  unfold State.showStart
  repeat' first
    | with_reducible exact Within.refl _ _
    | with_reducible assumption
    | (show Part.sub _ _ = true; rfl)
    | (extract_lets +onlyGivenNames x; with_reducible refine Within.cut (u := x) ?_ ?_; rotate_left; intro hx; clear_value x; rename' x => y; rotate_right; unfold x; clear x)
    | (extract_lets +onlyGivenNames x; clear_value x; rename' x => z)
    | (extract_lets +onlyGivenNames x; rename' x => z)
    | dsimp -zeta only
    | with_reducible apply State.wr_frame
    | with_reducible apply Within.ite
    | split

theorem execFirmwareStart_frame good bad installed pairEpoch s : Lands (.block 2 :: .block 4 :: .block 6 :: .block 11 :: .block 12 :: .block 13 :: .block 14 :: .block 16 :: .block 20 :: .pins :: .power :: .test :: .evt :: .nor :: .host :: .cmd :: .ddp :: .keys :: .wc :: .sig :: .map :: .rep :: .xrn :: .own :: .store :: .free :: .out :: .hostWait :: []) s (execFirmwareStart good bad installed pairEpoch s) := by
  unfold execFirmwareStart
  repeat' first
    | with_reducible exact Within.refl _ _
    | with_reducible assumption
    | (show Part.sub _ _ = true; rfl)
    | with_reducible apply Lands.next
    | (extract_lets +onlyGivenNames x; with_reducible refine Lands.cut (u := x) ?_ ?_; rotate_left; intro hx; clear_value x; rename' x => y; rotate_right; unfold x; clear x)
    | (extract_lets +onlyGivenNames x; with_reducible refine Within.cut (u := x) ?_ ?_; rotate_left; intro hx; clear_value x; rename' x => y; rotate_right; unfold x; clear x)
    | (extract_lets +onlyGivenNames x; clear_value x; rename' x => z)
    | (extract_lets +onlyGivenNames x; rename' x => z)
    | dsimp -zeta only
    | with_reducible apply State.wr_frame
    | with_reducible apply State.event_frame
    | with_reducible apply State.trainDdr_frame
    | with_reducible apply State.wakeActive_frame
    | with_reducible apply State.restoreShifts_frame
    | with_reducible apply State.takeStart_frame
    | with_reducible apply State.showStart_frame
    | with_reducible apply Lands.ite
    | with_reducible apply Within.ite
    | split

theorem State.endBoot_frame {ps s t} status (h : Within ps s t) (hp : Part.sub [.block 3, .boot] ps = true) : Within ps s (State.endBoot t status) := by
  refine h.step (a := [.block 3, .boot]) ?_ hp
  unfold State.endBoot
  repeat' first
    | with_reducible exact Within.refl _ _
    | with_reducible assumption
    | (show Part.sub _ _ = true; rfl)
    | dsimp -zeta only
    | with_reducible apply State.wr_frame
    | with_reducible apply Within.ite
    | fail_if_no_progress (with_reducible refine Within.put (a := [.boot]) ?_ rfl rfl rfl rfl rfl)
    | split

theorem execVerify_frame  s : Lands [.block 3, .boot] s (execVerify s) := by
  unfold execVerify
  repeat' first
    | with_reducible exact Within.refl _ _
    | with_reducible assumption
    | (show Part.sub _ _ = true; rfl)
    | with_reducible apply Lands.next
    | dsimp -zeta only
    | with_reducible apply State.endBoot_frame
    | with_reducible apply Lands.ite
    | with_reducible apply Within.ite
    | split

theorem State.beginWrite_frame {ps s t}  (h : Within ps s t) (hp : Part.sub [.block 3, .boot, .nor] ps = true) : Within ps s (State.beginWrite t) := by
  refine h.step (a := [.block 3, .boot, .nor]) ?_ hp
  unfold State.beginWrite
  repeat' first
    | with_reducible exact Within.refl _ _
    | with_reducible assumption
    | (show Part.sub _ _ = true; rfl)
    | (extract_lets +onlyGivenNames x; with_reducible refine Within.cut (u := x) ?_ ?_; rotate_left; intro hx; clear_value x; rename' x => y; rotate_right; unfold x; clear x)
    | (extract_lets +onlyGivenNames x; clear_value x; rename' x => z)
    | (extract_lets +onlyGivenNames x; rename' x => z)
    | dsimp -zeta only
    | with_reducible apply State.wr_frame
    | with_reducible apply State.setSlot_frame
    | with_reducible apply Within.ite
    | fail_if_no_progress (with_reducible refine Within.put (a := [.boot]) ?_ rfl rfl rfl rfl rfl)
    | split

theorem execBootWrite_frame  s : Lands [.block 3, .boot, .nor] s (execBootWrite s) := by
  unfold execBootWrite
  repeat' first
    | with_reducible exact Within.refl _ _
    | with_reducible assumption
    | (show Part.sub _ _ = true; rfl)
    | with_reducible apply Lands.next
    | dsimp -zeta only
    | with_reducible apply State.endBoot_frame
    | with_reducible apply State.beginWrite_frame
    | with_reducible apply Lands.ite
    | with_reducible apply Within.ite
    | fail_if_no_progress (with_reducible refine Within.put (a := []) ?_ rfl rfl rfl rfl rfl)
    | split

theorem State.tellActivation_frame {ps s t}  (h : Within ps s t) (hp : Part.sub [.cmd] ps = true) : Within ps s (State.tellActivation t) := by
  refine h.step (a := [.cmd]) ?_ hp
  unfold State.tellActivation
  repeat' first
    | with_reducible exact Within.refl _ _
    | with_reducible assumption
    | (show Part.sub _ _ = true; rfl)
    | dsimp -zeta only
    | with_reducible apply State.notice_frame
    | with_reducible apply Within.ite
    | (with_reducible refine Within.foldl _ ?_ ?_; rotate_left; intro _ _)
    | (with_reducible refine Within.foldl_snd _ ?_ ?_; rotate_left; intro _ _)
    | split

theorem State.beginPause_frame {ps s t} reason (h : Within ps s t) (hp : Part.sub [.block 1, .block 3, .block 5, .block 10, .power, .boot, .test, .cmd] ps = true) : Within ps s (State.beginPause t reason) := by
  refine h.step (a := [.block 1, .block 3, .block 5, .block 10, .power, .boot, .test, .cmd]) ?_ hp
  unfold State.beginPause
  repeat' first
    | with_reducible exact Within.refl _ _
    | with_reducible assumption
    | (show Part.sub _ _ = true; rfl)
    | (extract_lets +onlyGivenNames x; with_reducible refine Within.cut (u := x) ?_ ?_; rotate_left; intro hx; clear_value x; rename' x => y; rotate_right; unfold x; clear x)
    | (extract_lets +onlyGivenNames x; clear_value x; rename' x => z)
    | (extract_lets +onlyGivenNames x; rename' x => z)
    | dsimp -zeta only
    | with_reducible apply State.wr_frame
    | with_reducible apply State.stopRotation_frame
    | with_reducible apply State.tellActivation_frame
    | with_reducible apply Within.ite
    | fail_if_no_progress (with_reducible refine Within.put (a := [.boot]) ?_ rfl rfl rfl rfl rfl)
    | split

theorem State.beginActivate_frame {ps s t}  (h : Within ps s t) (hp : Part.sub [.block 1, .block 3, .block 4, .block 5, .block 6, .block 10, .power, .boot, .test, .evt, .nor, .host, .cmd, .out, .hostWait] ps = true) : Within ps s (State.beginActivate t) := by
  refine h.step (a := [.block 1, .block 3, .block 4, .block 5, .block 6, .block 10, .power, .boot, .test, .evt, .nor, .host, .cmd, .out, .hostWait]) ?_ hp
  unfold State.beginActivate
  repeat' first
    | with_reducible exact Within.refl _ _
    | with_reducible assumption
    | (show Part.sub _ _ = true; rfl)
    | (extract_lets +onlyGivenNames x; with_reducible refine Within.cut (u := x) ?_ ?_; rotate_left; intro hx; clear_value x; rename' x => y; rotate_right; unfold x; clear x)
    | (extract_lets +onlyGivenNames x; clear_value x; rename' x => z)
    | (extract_lets +onlyGivenNames x; rename' x => z)
    | dsimp -zeta only
    | with_reducible apply State.event1_frame
    | with_reducible apply State.appendRecord_frame
    | with_reducible apply State.beginPause_frame
    | with_reducible apply Within.ite
    | fail_if_no_progress (with_reducible refine Within.put (a := [.boot]) ?_ rfl rfl rfl rfl rfl)
    | split

theorem execActivate_frame  s : Lands [.block 1, .block 3, .block 4, .block 5, .block 6, .block 10, .power, .boot, .test, .evt, .nor, .host, .cmd, .out, .hostWait] s (execActivate s) := by
  unfold execActivate
  repeat' first
    | with_reducible exact Within.refl _ _
    | with_reducible assumption
    | (show Part.sub _ _ = true; rfl)
    | with_reducible apply Lands.next
    | dsimp -zeta only
    | with_reducible apply State.endBoot_frame
    | with_reducible apply State.beginActivate_frame
    | with_reducible apply Lands.ite
    | with_reducible apply Within.ite
    | fail_if_no_progress (with_reducible refine Within.put (a := []) ?_ rfl rfl rfl rfl rfl)
    | split

theorem State.endCommit_frame {ps s t} code (h : Within ps s t) (hp : Part.sub [.block 4, .block 6, .block 10, .block 13, .block 20, .boot, .evt, .nor, .host, .cmd, .sig, .map, .prg, .store, .free, .out, .hostWait] ps = true) : Within ps s (State.endCommit t code) := by
  refine h.step (a := [.block 4, .block 6, .block 10, .block 13, .block 20, .boot, .evt, .nor, .host, .cmd, .sig, .map, .prg, .store, .free, .out, .hostWait]) ?_ hp
  unfold State.endCommit
  repeat' first
    | with_reducible exact Within.refl _ _
    | with_reducible assumption
    | (show Part.sub _ _ = true; rfl)
    | (extract_lets +onlyGivenNames x; with_reducible refine Within.cut (u := x) ?_ ?_; rotate_left; intro hx; clear_value x; rename' x => y; rotate_right; unfold x; clear x)
    | (extract_lets +onlyGivenNames x; clear_value x; rename' x => z)
    | (extract_lets +onlyGivenNames x; rename' x => z)
    | dsimp -zeta only
    | with_reducible apply State.fresh_frame
    | with_reducible apply State.finish_frame
    | with_reducible apply State.queueCompletion_frame
    | with_reducible apply Within.ite
    | fail_if_no_progress (with_reducible refine Within.put (a := [.boot]) ?_ rfl rfl rfl rfl rfl)
    | split
    | (with_reducible refine Within.of_pair (by assumption) ?_)

theorem execBootWriteComplete_frame result s : Lands [.block 1, .block 3, .block 4, .block 5, .block 6, .block 10, .block 13, .block 20, .power, .boot, .test, .evt, .nor, .host, .cmd, .sig, .map, .prg, .store, .free, .out, .hostWait] s (execBootWriteComplete result s) := by
  unfold execBootWriteComplete
  repeat' first
    | with_reducible exact Within.refl _ _
    | with_reducible assumption
    | (show Part.sub _ _ = true; rfl)
    | with_reducible apply Lands.next
    | (extract_lets +onlyGivenNames x; with_reducible refine Lands.cut (u := x) ?_ ?_; rotate_left; intro hx; clear_value x; rename' x => y; rotate_right; unfold x; clear x)
    | (extract_lets +onlyGivenNames x; with_reducible refine Within.cut (u := x) ?_ ?_; rotate_left; intro hx; clear_value x; rename' x => y; rotate_right; unfold x; clear x)
    | (extract_lets +onlyGivenNames x; clear_value x; rename' x => z)
    | (extract_lets +onlyGivenNames x; rename' x => z)
    | dsimp -zeta only
    | with_reducible apply State.wr_frame
    | with_reducible apply State.appendRecord_frame
    | with_reducible apply State.setSlot_frame
    | with_reducible apply State.noteRecord_frame
    | with_reducible apply State.endBoot_frame
    | with_reducible apply State.beginActivate_frame
    | with_reducible apply State.endCommit_frame
    | with_reducible apply Lands.ite
    | with_reducible apply Within.ite
    | fail_if_no_progress (with_reducible refine Within.put (a := []) ?_ rfl rfl rfl rfl rfl)
    | split

theorem State.helloAll_frame {ps s t}  (h : Within ps s t) (hp : Part.sub [.out] ps = true) : Within ps s (State.helloAll t) := by
  refine h.step (a := [.out]) ?_ hp
  unfold State.helloAll
  repeat' first
    | with_reducible exact Within.refl _ _
    | with_reducible assumption
    | (show Part.sub _ _ = true; rfl)
    | dsimp -zeta only
    | with_reducible apply State.sendHello_frame
    | with_reducible apply Within.ite
    | (with_reducible refine Within.foldl _ ?_ ?_; rotate_left; intro _ _)
    | (with_reducible refine Within.foldl_snd _ ?_ ?_; rotate_left; intro _ _)
    | split

theorem State.startTrial_frame {ps s t}  (h : Within ps s t) (hp : Part.sub [.boot] ps = true) : Within ps s (State.startTrial t) := by
  refine h.step (a := [.boot]) ?_ hp
  unfold State.startTrial
  repeat' first
    | with_reducible exact Within.refl _ _
    | with_reducible assumption
    | (show Part.sub _ _ = true; rfl)
    | dsimp -zeta only
    | with_reducible apply Within.ite
    | fail_if_no_progress (with_reducible refine Within.put (a := [.boot]) ?_ rfl rfl rfl rfl rfl)
    | split

theorem State.endTrial_frame {ps s t}  (h : Within ps s t) (hp : Part.sub [.boot] ps = true) : Within ps s (State.endTrial t) := by
  refine h.step (a := [.boot]) ?_ hp
  unfold State.endTrial
  repeat' first
    | with_reducible exact Within.refl _ _
    | with_reducible assumption
    | (show Part.sub _ _ = true; rfl)
    | dsimp -zeta only
    | with_reducible apply Within.ite
    | fail_if_no_progress (with_reducible refine Within.put (a := [.boot]) ?_ rfl rfl rfl rfl rfl)
    | split

theorem State.endActivationPause_frame {ps s t}  (h : Within ps s t) (hp : Part.sub [.block 10, .boot] ps = true) : Within ps s (State.endActivationPause t) := by
  refine h.step (a := [.block 10, .boot]) ?_ hp
  unfold State.endActivationPause
  repeat' first
    | with_reducible exact Within.refl _ _
    | with_reducible assumption
    | (show Part.sub _ _ = true; rfl)
    | dsimp -zeta only
    | with_reducible apply State.wr_frame
    | with_reducible apply Within.ite
    | fail_if_no_progress (with_reducible refine Within.put (a := [.boot]) ?_ rfl rfl rfl rfl rfl)
    | split

theorem State.beginTrial_frame {ps s t}  (h : Within ps s t) (hp : Part.sub [.regs, .holding, .boot, .evt, .nor, .host, .ports, .trn, .cmd, .ddp, .keys, .wc, .sig, .lfl, .map, .rep, .prg, .chan, .store, .mem, .free, .out, .hostWait] ps = true) : Within ps s (State.beginTrial t) := by
  refine h.step (a := [.regs, .holding, .boot, .evt, .nor, .host, .ports, .trn, .cmd, .ddp, .keys, .wc, .sig, .lfl, .map, .rep, .prg, .chan, .store, .mem, .free, .out, .hostWait]) ?_ hp
  unfold State.beginTrial
  repeat' first
    | with_reducible exact Within.refl _ _
    | with_reducible assumption
    | (show Part.sub _ _ = true; rfl)
    | (extract_lets +onlyGivenNames x; with_reducible refine Within.cut (u := x) ?_ ?_; rotate_left; intro hx; clear_value x; rename' x => y; rotate_right; unfold x; clear x)
    | (extract_lets +onlyGivenNames x; clear_value x; rename' x => z)
    | (extract_lets +onlyGivenNames x; rename' x => z)
    | dsimp -zeta only
    | with_reducible apply State.wr_frame
    | with_reducible apply State.event_frame
    | with_reducible apply State.releaseHeld_frame
    | with_reducible apply State.noteImage_frame
    | with_reducible apply State.endBoot_frame
    | with_reducible apply State.endCommit_frame
    | with_reducible apply State.helloAll_frame
    | with_reducible apply State.startTrial_frame
    | with_reducible apply Within.ite
    | split

theorem State.endFailedTrial_frame {ps s t} dropped reason (h : Within ps s t) (hp : Part.sub [.regs, .holding, .boot, .evt, .nor, .host, .ports, .trn, .cmd, .ddp, .keys, .wc, .sig, .lfl, .map, .rep, .prg, .chan, .store, .mem, .free, .out, .hostWait] ps = true) : Within ps s (State.endFailedTrial t dropped reason) := by
  refine h.step (a := [.regs, .holding, .boot, .evt, .nor, .host, .ports, .trn, .cmd, .ddp, .keys, .wc, .sig, .lfl, .map, .rep, .prg, .chan, .store, .mem, .free, .out, .hostWait]) ?_ hp
  unfold State.endFailedTrial
  repeat' first
    | with_reducible exact Within.refl _ _
    | with_reducible assumption
    | (show Part.sub _ _ = true; rfl)
    | (extract_lets +onlyGivenNames x; with_reducible refine Within.cut (u := x) ?_ ?_; rotate_left; intro hx; clear_value x; rename' x => y; rotate_right; unfold x; clear x)
    | (extract_lets +onlyGivenNames x; clear_value x; rename' x => z)
    | (extract_lets +onlyGivenNames x; rename' x => z)
    | dsimp -zeta only
    | with_reducible apply State.wr_frame
    | with_reducible apply State.event1_frame
    | with_reducible apply State.releaseHeld_frame
    | with_reducible apply State.appendRecord_frame
    | with_reducible apply State.noteImage_frame
    | with_reducible apply State.endBoot_frame
    | with_reducible apply State.helloAll_frame
    | with_reducible apply State.endTrial_frame
    | with_reducible apply Within.ite
    | (with_reducible refine Within.foldl _ ?_ ?_; rotate_left; intro _ _)
    | (with_reducible refine Within.foldl_snd _ ?_ ?_; rotate_left; intro _ _)
    | fail_if_no_progress (with_reducible refine Within.put (a := []) ?_ rfl rfl rfl rfl rfl)
    | split

theorem execActivationPauseEnd_frame dropped s : Lands [.regs, .holding, .boot, .evt, .nor, .host, .ports, .trn, .cmd, .ddp, .keys, .wc, .sig, .lfl, .map, .rep, .prg, .chan, .store, .mem, .free, .out, .hostWait] s (execActivationPauseEnd dropped s) := by
  unfold execActivationPauseEnd
  repeat' first
    | with_reducible exact Within.refl _ _
    | with_reducible assumption
    | (show Part.sub _ _ = true; rfl)
    | with_reducible apply Lands.next
    | (extract_lets +onlyGivenNames x; with_reducible refine Lands.cut (u := x) ?_ ?_; rotate_left; intro hx; clear_value x; rename' x => y; rotate_right; unfold x; clear x)
    | (extract_lets +onlyGivenNames x; with_reducible refine Within.cut (u := x) ?_ ?_; rotate_left; intro hx; clear_value x; rename' x => y; rotate_right; unfold x; clear x)
    | (extract_lets +onlyGivenNames x; clear_value x; rename' x => z)
    | (extract_lets +onlyGivenNames x; rename' x => z)
    | dsimp -zeta only
    | with_reducible apply State.endActivationPause_frame
    | with_reducible apply State.beginTrial_frame
    | with_reducible apply State.endFailedTrial_frame
    | with_reducible apply Lands.ite
    | with_reducible apply Within.ite
    | split

theorem execConfirm_frame  s : Lands [.block 3, .block 4, .block 6, .fuses, .boot, .evt, .nor, .host, .out, .hostWait] s (execConfirm s) := by
  unfold execConfirm
  repeat' first
    | with_reducible exact Within.refl _ _
    | with_reducible assumption
    | (show Part.sub _ _ = true; rfl)
    | with_reducible apply Lands.next
    | (extract_lets +onlyGivenNames x; with_reducible refine Lands.cut (u := x) ?_ ?_; rotate_left; intro hx; clear_value x; rename' x => y; rotate_right; unfold x; clear x)
    | (extract_lets +onlyGivenNames x; with_reducible refine Within.cut (u := x) ?_ ?_; rotate_left; intro hx; clear_value x; rename' x => y; rotate_right; unfold x; clear x)
    | (extract_lets +onlyGivenNames x; clear_value x; rename' x => z)
    | (extract_lets +onlyGivenNames x; rename' x => z)
    | dsimp -zeta only
    | with_reducible apply State.wr_frame
    | with_reducible apply State.event1_frame
    | with_reducible apply State.appendRecord_frame
    | with_reducible apply State.noteRecord_frame
    | with_reducible apply State.raiseSvn_frame
    | with_reducible apply State.endBoot_frame
    | with_reducible apply Lands.ite
    | with_reducible apply Within.ite
    | fail_if_no_progress (with_reducible refine Within.put (a := [.boot]) ?_ rfl rfl rfl rfl rfl)
    | split

theorem State.fallBack_frame {ps s t} reason (h : Within ps s t) (hp : Part.sub [.block 1, .block 3, .block 4, .block 5, .block 6, .block 10, .block 13, .block 20, .power, .boot, .test, .evt, .nor, .host, .cmd, .sig, .map, .prg, .store, .free, .out, .hostWait] ps = true) : Within ps s (State.fallBack t reason) := by
  refine h.step (a := [.block 1, .block 3, .block 4, .block 5, .block 6, .block 10, .block 13, .block 20, .power, .boot, .test, .evt, .nor, .host, .cmd, .sig, .map, .prg, .store, .free, .out, .hostWait]) ?_ hp
  unfold State.fallBack
  repeat' first
    | with_reducible exact Within.refl _ _
    | with_reducible assumption
    | (show Part.sub _ _ = true; rfl)
    | dsimp -zeta only
    | with_reducible apply State.beginPause_frame
    | with_reducible apply State.endCommit_frame
    | with_reducible apply Within.ite
    | fail_if_no_progress (with_reducible refine Within.put (a := [.boot]) ?_ rfl rfl rfl rfl rfl)
    | split

theorem execRevert_frame  s : Lands [.block 1, .block 3, .block 4, .block 5, .block 6, .block 10, .block 13, .block 20, .power, .boot, .test, .evt, .nor, .host, .cmd, .sig, .map, .prg, .store, .free, .out, .hostWait] s (execRevert s) := by
  unfold execRevert
  repeat' first
    | with_reducible exact Within.refl _ _
    | with_reducible assumption
    | (show Part.sub _ _ = true; rfl)
    | with_reducible apply Lands.next
    | dsimp -zeta only
    | with_reducible apply State.endBoot_frame
    | with_reducible apply State.fallBack_frame
    | with_reducible apply Lands.ite
    | with_reducible apply Within.ite
    | split

theorem execConfirmWindowExpiry_frame  s : Lands [.block 1, .block 3, .block 4, .block 5, .block 6, .block 10, .block 13, .block 20, .power, .boot, .test, .evt, .nor, .host, .cmd, .sig, .map, .prg, .store, .free, .out, .hostWait] s (execConfirmWindowExpiry s) := by
  unfold execConfirmWindowExpiry
  repeat' first
    | with_reducible exact Within.refl _ _
    | with_reducible assumption
    | (show Part.sub _ _ = true; rfl)
    | with_reducible apply Lands.next
    | dsimp -zeta only
    | with_reducible apply State.fallBack_frame
    | with_reducible apply Lands.ite
    | with_reducible apply Within.ite
    | split

theorem execFirmwareWatchdogExpiry_frame  s : Lands [.block 1, .block 3, .block 4, .block 5, .block 6, .block 10, .block 13, .block 20, .power, .boot, .test, .evt, .nor, .host, .cmd, .sig, .map, .prg, .store, .free, .out, .hostWait] s (execFirmwareWatchdogExpiry s) := by
  unfold execFirmwareWatchdogExpiry
  repeat' first
    | with_reducible exact Within.refl _ _
    | with_reducible assumption
    | (show Part.sub _ _ = true; rfl)
    | with_reducible apply Lands.next
    | dsimp -zeta only
    | with_reducible apply State.event_frame
    | with_reducible apply State.fallBack_frame
    | with_reducible apply Lands.ite
    | with_reducible apply Within.ite
    | split

theorem execRevoke_frame keyset s : Lands [.block 3, .block 4, .block 6, .fuses, .boot, .evt, .nor, .host, .out, .hostWait] s (execRevoke keyset s) := by
  unfold execRevoke
  repeat' first
    | with_reducible exact Within.refl _ _
    | with_reducible assumption
    | (show Part.sub _ _ = true; rfl)
    | with_reducible apply Lands.next
    | (extract_lets +onlyGivenNames x; with_reducible refine Lands.cut (u := x) ?_ ?_; rotate_left; intro hx; clear_value x; rename' x => y; rotate_right; unfold x; clear x)
    | (extract_lets +onlyGivenNames x; with_reducible refine Within.cut (u := x) ?_ ?_; rotate_left; intro hx; clear_value x; rename' x => y; rotate_right; unfold x; clear x)
    | (extract_lets +onlyGivenNames x; clear_value x; rename' x => z)
    | (extract_lets +onlyGivenNames x; rename' x => z)
    | dsimp -zeta only
    | with_reducible apply State.wr_frame
    | with_reducible apply State.event1_frame
    | with_reducible apply State.endBoot_frame
    | with_reducible apply Lands.ite
    | with_reducible apply Within.ite
    | fail_if_no_progress (with_reducible refine Within.put (a := [.fuses]) ?_ rfl rfl rfl rfl rfl)
    | split

theorem State.recover_frame {ps s t} source img (h : Within ps s t) (hp : Part.sub [.block 3, .block 4, .block 6, .boot, .evt, .nor, .host, .out, .hostWait] ps = true) : Within ps s (State.recover t source img) := by
  refine h.step (a := [.block 3, .block 4, .block 6, .boot, .evt, .nor, .host, .out, .hostWait]) ?_ hp
  unfold State.recover
  repeat' first
    | with_reducible exact Within.refl _ _
    | with_reducible assumption
    | (show Part.sub _ _ = true; rfl)
    | dsimp -zeta only
    | with_reducible apply State.wr_frame
    | with_reducible apply State.event1_frame
    | with_reducible apply State.runImage_frame
    | with_reducible apply Within.ite
    | fail_if_no_progress (with_reducible refine Within.put (a := [.boot]) ?_ rfl rfl rfl rfl rfl)
    | split

theorem execRecoveryGo_frame image s : Lands [.block 3, .block 4, .block 6, .boot, .evt, .nor, .host, .out, .hostWait] s (execRecoveryGo image s) := by
  unfold execRecoveryGo
  repeat' first
    | with_reducible exact Within.refl _ _
    | with_reducible assumption
    | (show Part.sub _ _ = true; rfl)
    | with_reducible apply Lands.next
    | dsimp -zeta only
    | with_reducible apply State.recover_frame
    | with_reducible apply Lands.ite
    | with_reducible apply Within.ite
    | split

theorem execRecoveryRequest_frame  s : Lands [.chan, .out] s (execRecoveryRequest s) := by
  unfold execRecoveryRequest
  repeat' first
    | with_reducible exact Within.refl _ _
    | with_reducible assumption
    | (show Part.sub _ _ = true; rfl)
    | with_reducible apply Lands.next
    | dsimp -zeta only
    | with_reducible apply State.sendRing_frame
    | with_reducible apply Lands.ite
    | with_reducible apply Within.ite
    | split

theorem execRecoveryImage_frame bytes last s : Lands [.block 3, .block 4, .block 6, .boot, .evt, .nor, .host, .out, .hostWait] s (execRecoveryImage bytes last s) := by
  unfold execRecoveryImage
  repeat' first
    | with_reducible exact Within.refl _ _
    | with_reducible assumption
    | (show Part.sub _ _ = true; rfl)
    | with_reducible apply Lands.next
    | (extract_lets +onlyGivenNames x; with_reducible refine Lands.cut (u := x) ?_ ?_; rotate_left; intro hx; clear_value x; rename' x => y; rotate_right; unfold x; clear x)
    | (extract_lets +onlyGivenNames x; with_reducible refine Within.cut (u := x) ?_ ?_; rotate_left; intro hx; clear_value x; rename' x => y; rotate_right; unfold x; clear x)
    | (extract_lets +onlyGivenNames x; clear_value x; rename' x => z)
    | (extract_lets +onlyGivenNames x; rename' x => z)
    | dsimp -zeta only
    | with_reducible apply State.recover_frame
    | with_reducible apply Lands.ite
    | with_reducible apply Within.ite
    | fail_if_no_progress (with_reducible refine Within.put (a := [.boot]) ?_ rfl rfl rfl rfl rfl)
    | split

theorem execFirmwareImageDownload_frame tag s : Lands [.block 3, .cmd, .mem] s (execFirmwareImageDownload tag s) := by
  unfold execFirmwareImageDownload
  repeat' first
    | with_reducible exact Within.refl _ _
    | with_reducible assumption
    | (show Part.sub _ _ = true; rfl)
    | with_reducible apply Lands.next
    | (extract_lets +onlyGivenNames x; with_reducible refine Lands.cut (u := x) ?_ ?_; rotate_left; intro hx; clear_value x; rename' x => y; rotate_right; unfold x; clear x)
    | (extract_lets +onlyGivenNames x; with_reducible refine Within.cut (u := x) ?_ ?_; rotate_left; intro hx; clear_value x; rename' x => y; rotate_right; unfold x; clear x)
    | (extract_lets +onlyGivenNames x; clear_value x; rename' x => z)
    | (extract_lets +onlyGivenNames x; rename' x => z)
    | dsimp -zeta only
    | with_reducible apply State.wr_frame
    | with_reducible apply State.ddrWriteList_frame
    | with_reducible apply State.finish_frame
    | with_reducible apply State.begin_frame
    | intro _
    | with_reducible apply Lands.ite
    | with_reducible apply Within.ite
    | split

theorem execFirmwareCommit_frame tag s : Lands [.block 3, .block 4, .block 6, .block 10, .block 13, .block 20, .boot, .evt, .nor, .host, .cmd, .sig, .map, .prg, .store, .free, .out, .hostWait] s (execFirmwareCommit tag s) := by
  unfold execFirmwareCommit
  repeat' first
    | with_reducible exact Within.refl _ _
    | with_reducible assumption
    | (show Part.sub _ _ = true; rfl)
    | with_reducible apply Lands.next
    | (extract_lets +onlyGivenNames x; with_reducible refine Lands.cut (u := x) ?_ ?_; rotate_left; intro hx; clear_value x; rename' x => y; rotate_right; unfold x; clear x)
    | (extract_lets +onlyGivenNames x; with_reducible refine Within.cut (u := x) ?_ ?_; rotate_left; intro hx; clear_value x; rename' x => y; rotate_right; unfold x; clear x)
    | (extract_lets +onlyGivenNames x; clear_value x; rename' x => z)
    | (extract_lets +onlyGivenNames x; rename' x => z)
    | dsimp -zeta only
    | with_reducible apply State.fresh_frame
    | with_reducible apply State.finish_frame
    | with_reducible apply State.begin_frame
    | with_reducible apply State.endBoot_frame
    | with_reducible apply State.beginWrite_frame
    | with_reducible apply State.endCommit_frame
    | intro _
    | with_reducible apply Lands.ite
    | with_reducible apply Within.ite
    | fail_if_no_progress (with_reducible refine Within.put (a := [.boot]) ?_ rfl rfl rfl rfl rfl)
    | split
    | (with_reducible refine Within.of_pair (by assumption) ?_)

end Sys2Proof.Machine
end

