-- ==== Sys2Proof/Laws/FrameCipher.lean ====
section
/-!
SUPPORT. Laws/FrameCipher.lean: what the definitions of Machine/Cipher.lean leave alone: each changes the listed parts at most, and keeps the
canonical form.
-/
namespace Sys2Proof.Machine
open Sys2Proof

set_option Elab.async false
set_option linter.all false

theorem State.startJob_frame {ps s t} j (h : Within ps s t) (hp : Part.sub [.bnd] ps = true) : Within ps s (State.startJob t j) := by
  refine h.step (a := [.bnd]) ?_ hp
  unfold State.startJob
  repeat' first
    | with_reducible exact Within.refl _ _
    | with_reducible assumption
    | (show Part.sub _ _ = true; rfl)
    | dsimp -zeta only
    | with_reducible apply State.startJobs_frame
    | with_reducible apply Within.ite
    | fail_if_no_progress (with_reducible refine Within.put (a := [.bnd]) ?_ rfl rfl rfl rfl rfl)
    | split

theorem State.refuseJob_frame {ps s t} c code (h : Within ps s t) (hp : Part.sub [.host, .out, .hostWait] ps = true) : Within ps s (State.refuseJob t c code) := by
  refine h.step (a := [.host, .out, .hostWait]) ?_ hp
  unfold State.refuseJob
  repeat' first
    | with_reducible exact Within.refl _ _
    | with_reducible assumption
    | (show Part.sub _ _ = true; rfl)
    | dsimp -zeta only
    | with_reducible apply State.sendHost_frame
    | with_reducible apply State.complete_frame
    | with_reducible apply Within.ite
    | split

theorem execCompJob_frame c job s : Lands [.block 11, .host, .bnd, .out, .hostWait] s (execCompJob c job s) := by
  unfold execCompJob
  repeat' first
    | with_reducible exact Within.refl _ _
    | with_reducible assumption
    | (show Part.sub _ _ = true; rfl)
    | with_reducible apply Lands.next
    | dsimp -zeta only
    | with_reducible apply State.ringGate_frame
    | with_reducible apply State.countDecode_frame
    | with_reducible apply State.startJob_frame
    | with_reducible apply State.refuseJob_frame
    | intro _
    | with_reducible apply Lands.ite
    | with_reducible apply Within.ite
    | fail_if_no_progress (with_reducible refine Within.put (a := []) ?_ rfl rfl rfl rfl rfl)
    | split

theorem execCipherJob_frame c job s : Lands [.host, .bnd, .out, .hostWait] s (execCipherJob c job s) := by
  unfold execCipherJob
  repeat' first
    | with_reducible exact Within.refl _ _
    | with_reducible assumption
    | (show Part.sub _ _ = true; rfl)
    | with_reducible apply Lands.next
    | dsimp -zeta only
    | with_reducible apply State.ringGate_frame
    | with_reducible apply State.startJob_frame
    | with_reducible apply State.refuseJob_frame
    | intro _
    | with_reducible apply Lands.ite
    | with_reducible apply Within.ite
    | fail_if_no_progress (with_reducible refine Within.put (a := []) ?_ rfl rfl rfl rfl rfl)
    | split

theorem State.endJob_frame {ps s t} j r (h : Within ps s t) (hp : Part.sub [.host, .bnd, .out, .hostWait] ps = true) : Within ps s (State.endJob t j r) := by
  refine h.step (a := [.host, .bnd, .out, .hostWait]) ?_ hp
  unfold State.endJob
  repeat' first
    | with_reducible exact Within.refl _ _
    | with_reducible assumption
    | (show Part.sub _ _ = true; rfl)
    | (extract_lets +onlyGivenNames x; with_reducible refine Within.cut (u := x) ?_ ?_; rotate_left; intro hx; clear_value x; rename' x => y; rotate_right; unfold x; clear x)
    | (extract_lets +onlyGivenNames x; clear_value x; rename' x => z)
    | (extract_lets +onlyGivenNames x; rename' x => z)
    | dsimp -zeta only
    | with_reducible apply State.sendHost_frame
    | with_reducible apply State.complete_frame
    | with_reducible apply State.startJobs_frame
    | with_reducible apply Within.ite
    | fail_if_no_progress (with_reducible refine Within.put (a := [.bnd]) ?_ rfl rfl rfl rfl rfl)
    | split

theorem State.jobWrite_frame {ps s t} j dst bytes (h : Within ps s t) (hp : Part.sub [.out, .hostWait] ps = true) : Within ps s (State.jobWrite t j dst bytes) := by
  refine h.step (a := [.out, .hostWait]) ?_ hp
  unfold State.jobWrite
  repeat' first
    | with_reducible exact Within.refl _ _
    | with_reducible assumption
    | (show Part.sub _ _ = true; rfl)
    | dsimp -zeta only
    | with_reducible apply State.sendHost_frame
    | with_reducible apply Within.ite
    | split

theorem State.endUntrusted_frame {ps s t} j p status written (h : Within ps s t) (hp : Part.sub [.block 11, .host, .bnd, .out, .hostWait] ps = true) : Within ps s (State.endUntrusted t j p status written) := by
  refine h.step (a := [.block 11, .host, .bnd, .out, .hostWait]) ?_ hp
  unfold State.endUntrusted
  repeat' first
    | with_reducible exact Within.refl _ _
    | with_reducible assumption
    | (show Part.sub _ _ = true; rfl)
    | (extract_lets +onlyGivenNames x; with_reducible refine Within.cut (u := x) ?_ ?_; rotate_left; intro hx; clear_value x; rename' x => y; rotate_right; unfold x; clear x)
    | (extract_lets +onlyGivenNames x; clear_value x; rename' x => z)
    | (extract_lets +onlyGivenNames x; rename' x => z)
    | dsimp -zeta only
    | with_reducible apply State.bump_frame
    | with_reducible apply State.sendHost_frame
    | with_reducible apply State.endJob_frame
    | with_reducible apply Within.ite
    | split

theorem State.requeueJob_frame {ps s t} j (h : Within ps s t) (hp : Part.sub [.bnd] ps = true) : Within ps s (State.requeueJob t j) := by
  refine h.step (a := [.bnd]) ?_ hp
  unfold State.requeueJob
  repeat' first
    | with_reducible exact Within.refl _ _
    | with_reducible assumption
    | (show Part.sub _ _ = true; rfl)
    | dsimp -zeta only
    | with_reducible apply Within.ite
    | fail_if_no_progress (with_reducible refine Within.put (a := [.bnd]) ?_ rfl rfl rfl rfl rfl)
    | split

theorem State.cipherSlice_frame {ps s t} j p upset (h : Within ps s t) (hp : Part.sub [.block 11, .host, .bnd, .out, .hostWait] ps = true) : Within ps s (State.cipherSlice t j p upset) := by
  refine h.step (a := [.block 11, .host, .bnd, .out, .hostWait]) ?_ hp
  unfold State.cipherSlice
  repeat' first
    | with_reducible exact Within.refl _ _
    | with_reducible assumption
    | (show Part.sub _ _ = true; rfl)
    | (extract_lets +onlyGivenNames x; with_reducible refine Within.cut (u := x) ?_ ?_; rotate_left; intro hx; clear_value x; rename' x => y; rotate_right; unfold x; clear x)
    | (extract_lets +onlyGivenNames x; clear_value x; rename' x => z)
    | (extract_lets +onlyGivenNames x; rename' x => z)
    | dsimp -zeta only
    | with_reducible apply State.bump_frame
    | with_reducible apply State.endJob_frame
    | with_reducible apply State.jobWrite_frame
    | with_reducible apply State.endUntrusted_frame
    | with_reducible apply State.requeueJob_frame
    | with_reducible apply Within.ite
    | fail_if_no_progress (with_reducible refine Within.put (a := []) ?_ rfl rfl rfl rfl rfl)
    | split

theorem State.compFailed_frame {ps s t} j code (h : Within ps s t) (hp : Part.sub [.block 11, .host, .bnd, .out, .hostWait] ps = true) : Within ps s (State.compFailed t j code) := by
  refine h.step (a := [.block 11, .host, .bnd, .out, .hostWait]) ?_ hp
  unfold State.compFailed
  repeat' first
    | with_reducible exact Within.refl _ _
    | with_reducible assumption
    | (show Part.sub _ _ = true; rfl)
    | dsimp -zeta only
    | with_reducible apply State.countDecode_frame
    | with_reducible apply State.endJob_frame
    | with_reducible apply Within.ite
    | split

theorem State.compEnd_frame {ps s t} j p (h : Within ps s t) (hp : Part.sub [.block 11, .host, .bnd, .out, .hostWait] ps = true) : Within ps s (State.compEnd t j p) := by
  refine h.step (a := [.block 11, .host, .bnd, .out, .hostWait]) ?_ hp
  unfold State.compEnd
  repeat' first
    | with_reducible exact Within.refl _ _
    | with_reducible assumption
    | (show Part.sub _ _ = true; rfl)
    | (extract_lets +onlyGivenNames x; with_reducible refine Within.cut (u := x) ?_ ?_; rotate_left; intro hx; clear_value x; rename' x => y; rotate_right; unfold x; clear x)
    | (extract_lets +onlyGivenNames x; clear_value x; rename' x => z)
    | (extract_lets +onlyGivenNames x; rename' x => z)
    | dsimp -zeta only
    | with_reducible apply State.endJob_frame
    | with_reducible apply State.jobWrite_frame
    | with_reducible apply State.compFailed_frame
    | with_reducible apply Within.ite
    | fail_if_no_progress (with_reducible refine Within.put (a := [.bnd]) ?_ rfl rfl rfl rfl rfl)
    | split

theorem State.stopJob_frame {ps s t} j (h : Within ps s t) (hp : Part.sub [.block 11, .host, .bnd, .out, .hostWait] ps = true) : Within ps s (State.stopJob t j) := by
  refine h.step (a := [.block 11, .host, .bnd, .out, .hostWait]) ?_ hp
  unfold State.stopJob
  repeat' first
    | with_reducible exact Within.refl _ _
    | with_reducible assumption
    | (show Part.sub _ _ = true; rfl)
    | dsimp -zeta only
    | with_reducible apply State.endJob_frame
    | with_reducible apply State.endUntrusted_frame
    | with_reducible apply Within.ite
    | fail_if_no_progress (with_reducible refine Within.put (a := []) ?_ rfl rfl rfl rfl rfl)
    | split

theorem State.jobFault_frame {ps s t} j (h : Within ps s t) (hp : Part.sub [.block 11, .host, .bnd, .out, .hostWait] ps = true) : Within ps s (State.jobFault t j) := by
  refine h.step (a := [.block 11, .host, .bnd, .out, .hostWait]) ?_ hp
  unfold State.jobFault
  repeat' first
    | with_reducible exact Within.refl _ _
    | with_reducible assumption
    | (show Part.sub _ _ = true; rfl)
    | (extract_lets +onlyGivenNames x; with_reducible refine Within.cut (u := x) ?_ ?_; rotate_left; intro hx; clear_value x; rename' x => y; rotate_right; unfold x; clear x)
    | (extract_lets +onlyGivenNames x; clear_value x; rename' x => z)
    | (extract_lets +onlyGivenNames x; rename' x => z)
    | dsimp -zeta only
    | with_reducible apply State.bump_frame
    | with_reducible apply State.endJob_frame
    | with_reducible apply State.endUntrusted_frame
    | with_reducible apply Within.ite
    | fail_if_no_progress (with_reducible refine Within.put (a := []) ?_ rfl rfl rfl rfl rfl)
    | split

theorem execJobSliceEnd_frame c bytes fault upset s : Lands [.block 4, .block 6, .block 11, .block 12, .block 13, .block 19, .block 20, .evt, .nor, .host, .ports, .trn, .cmd, .bnd, .ddp, .keys, .wc, .sig, .lfl, .map, .prg, .chan, .store, .free, .out, .hostWait] s (execJobSliceEnd c bytes fault upset s) := by
  unfold execJobSliceEnd
  repeat' first
    | with_reducible exact Within.refl _ _
    | with_reducible assumption
    | (show Part.sub _ _ = true; rfl)
    | with_reducible apply Lands.next
    | (extract_lets +onlyGivenNames x; with_reducible refine Lands.cut (u := x) ?_ ?_; rotate_left; intro hx; clear_value x; rename' x => y; rotate_right; unfold x; clear x)
    | (extract_lets +onlyGivenNames x; with_reducible refine Within.cut (u := x) ?_ ?_; rotate_left; intro hx; clear_value x; rename' x => y; rotate_right; unfold x; clear x)
    | (extract_lets +onlyGivenNames x; clear_value x; rename' x => z)
    | (extract_lets +onlyGivenNames x; rename' x => z)
    | dsimp -zeta only
    | with_reducible apply State.pumpLanes_frame
    | with_reducible apply State.requeueJob_frame
    | with_reducible apply State.cipherSlice_frame
    | with_reducible apply State.compEnd_frame
    | with_reducible apply State.stopJob_frame
    | with_reducible apply State.jobFault_frame
    | with_reducible apply Lands.ite
    | with_reducible apply Within.ite
    | fail_if_no_progress (with_reducible refine Within.put (a := []) ?_ rfl rfl rfl rfl rfl)
    | split

end Sys2Proof.Machine
end

