-- ==== Sys2Proof/Laws/FrameDedup.lean ====
section
/-!
SUPPORT. Laws/FrameDedup.lean: what the definitions of Machine/Dedup.lean leave alone: each changes the listed parts at most, and keeps the
canonical form.
-/
namespace Sys2Proof.Machine
open Sys2Proof

set_option Elab.async false
set_option linter.all false

theorem execGearSeedWrite_frame value s : Lands [.block 11] s (execGearSeedWrite value s) := by
  unfold execGearSeedWrite
  repeat' first
    | with_reducible exact Within.refl _ _
    | with_reducible assumption
    | (show Part.sub _ _ = true; rfl)
    | with_reducible apply Lands.next
    | dsimp -zeta only
    | with_reducible apply State.wr_frame
    | with_reducible apply Lands.ite
    | with_reducible apply Within.ite
    | split

theorem State.storeStates_frame {ps s t} slot d (h : Within ps s t) (hp : Part.sub [.keys, .free] ps = true) : Within ps s (State.storeStates t slot d) := by
  refine h.step (a := [.keys, .free]) ?_ hp
  unfold State.storeStates
  repeat' first
    | with_reducible exact Within.refl _ _
    | with_reducible assumption
    | (show Part.sub _ _ = true; rfl)
    | (extract_lets +onlyGivenNames x; with_reducible refine Within.cut (u := x) ?_ ?_; rotate_left; intro hx; clear_value x; rename' x => y; rotate_right; unfold x; clear x)
    | (extract_lets +onlyGivenNames x; clear_value x; rename' x => z)
    | (extract_lets +onlyGivenNames x; rename' x => z)
    | dsimp -zeta only
    | with_reducible apply State.fresh_frame
    | with_reducible apply Within.ite
    | fail_if_no_progress (with_reducible refine Within.put (a := [.keys]) ?_ rfl rfl rfl rfl rfl)
    | split
    | (with_reducible refine Within.of_pair (by assumption) ?_)

theorem execDigestStateDone_frame ready s : Lands [.block 4, .block 6, .block 11, .block 12, .block 13, .block 19, .block 20, .evt, .nor, .host, .cmd, .bnd, .ddp, .keys, .sig, .lfl, .map, .prg, .chan, .store, .free, .out, .hostWait] s (execDigestStateDone ready s) := by
  unfold execDigestStateDone
  repeat' first
    | with_reducible exact Within.refl _ _
    | with_reducible assumption
    | (show Part.sub _ _ = true; rfl)
    | with_reducible apply Lands.next
    | (extract_lets +onlyGivenNames x; with_reducible refine Lands.cut (u := x) ?_ ?_; rotate_left; intro hx; clear_value x; rename' x => y; rotate_right; unfold x; clear x)
    | (extract_lets +onlyGivenNames x; with_reducible refine Within.cut (u := x) ?_ ?_; rotate_left; intro hx; clear_value x; rename' x => y; rotate_right; unfold x; clear x)
    | (extract_lets +onlyGivenNames x; clear_value x; rename' x => z)
    | (extract_lets +onlyGivenNames x; rename' x => z)
    | dsimp -zeta only
    | with_reducible apply State.event1_frame
    | with_reducible apply State.askChunk_frame
    | with_reducible apply State.storeStates_frame
    | with_reducible apply Lands.ite
    | with_reducible apply Within.ite
    | (with_reducible refine Within.foldl _ ?_ ?_; rotate_left; intro _ _)
    | (with_reducible refine Within.foldl_snd _ ?_ ?_; rotate_left; intro _ _)
    | fail_if_no_progress (with_reducible refine Within.put (a := []) ?_ rfl rfl rfl rfl rfl)
    | split

theorem State.scanBucket_frame {ps s t} domain fp damaged upset l (h : Within ps s t) (hp : Part.sub [.block 4, .block 6, .block 11, .block 12, .evt, .nor, .host, .cmd, .ddp, .out, .hostWait] ps = true) :
    Within ps s (State.scanBucket domain fp damaged upset l t).2 := by
  induction l generalizing t with
  | nil => exact h
  | cons key r ih =>
    unfold State.scanBucket
    split
    · exact ih h
    · split
      · exact ih (State.event1_frame _ _ (State.removeIndex_frame _ h (Part.sub_trans (by decide) hp)) (Part.sub_trans (by decide) hp))
      · split
        · exact h
        · exact ih (State.bump_frame _ _ _ _ h (Part.sub_trans (by decide) hp))
        · exact ih (State.noteCompare_frame _ _ h (Part.sub_trans (by decide) hp))

theorem State.answerMiss_frame {ps s t} bt domain off fp upset (h : Within ps s t) (hp : Part.sub [.block 4, .block 6, .block 11, .block 12, .evt, .nor, .host, .cmd, .ddp, .out, .hostWait] ps = true) : Within ps s (State.answerMiss t bt domain off fp upset) := by
  refine h.step (a := [.block 4, .block 6, .block 11, .block 12, .evt, .nor, .host, .cmd, .ddp, .out, .hostWait]) ?_ hp
  unfold State.answerMiss
  repeat' first
    | with_reducible exact Within.refl _ _
    | with_reducible assumption
    | (show Part.sub _ _ = true; rfl)
    | dsimp -zeta only
    | with_reducible apply State.bump_frame
    | with_reducible apply State.addPending_frame
    | with_reducible apply State.modChunk_frame
    | with_reducible apply Within.ite
    | fail_if_no_progress (with_reducible refine Within.put (a := []) ?_ rfl rfl rfl rfl rfl)
    | split

theorem execDedupLookup_frame tag off damaged upset s : Lands [.block 4, .block 6, .block 11, .block 12, .evt, .nor, .host, .cmd, .ddp, .out, .hostWait] s (execDedupLookup tag off damaged upset s) := by
  unfold execDedupLookup
  repeat' first
    | with_reducible exact Within.refl _ _
    | with_reducible assumption
    | (show Part.sub _ _ = true; rfl)
    | with_reducible apply Lands.next
    | (extract_lets +onlyGivenNames x; with_reducible refine Lands.cut (u := x) ?_ ?_; rotate_left; intro hx; clear_value x; rename' x => y; rotate_right; unfold x; clear x)
    | (extract_lets +onlyGivenNames x; with_reducible refine Within.cut (u := x) ?_ ?_; rotate_left; intro hx; clear_value x; rename' x => y; rotate_right; unfold x; clear x)
    | (extract_lets +onlyGivenNames x; clear_value x; rename' x => z)
    | (extract_lets +onlyGivenNames x; rename' x => z)
    | dsimp -zeta only
    | with_reducible apply State.bump_frame
    | with_reducible apply State.pin_frame
    | with_reducible apply State.modChunk_frame
    | with_reducible apply State.scanBucket_frame
    | with_reducible apply State.answerMiss_frame
    | with_reducible apply Lands.ite
    | with_reducible apply Within.ite
    | fail_if_no_progress (with_reducible refine Within.put (a := []) ?_ rfl rfl rfl rfl rfl)
    | split
    | (with_reducible refine Within.of_pair (by assumption) ?_)

theorem State.keepChunk_frame {ps s t} bt domain k noIndex fault (h : Within ps s t) (hp : Part.sub [.block 4, .block 6, .block 11, .block 12, .block 13, .block 19, .block 20, .evt, .nor, .host, .cmd, .ddp, .keys, .sig, .lfl, .map, .prg, .chan, .store, .free, .out, .hostWait] ps = true) : Within ps s (State.keepChunk t bt domain k noIndex fault) := by
  refine h.step (a := [.block 4, .block 6, .block 11, .block 12, .block 13, .block 19, .block 20, .evt, .nor, .host, .cmd, .ddp, .keys, .sig, .lfl, .map, .prg, .chan, .store, .free, .out, .hostWait]) ?_ hp
  unfold State.keepChunk
  repeat' first
    | with_reducible exact Within.refl _ _
    | with_reducible assumption
    | (show Part.sub _ _ = true; rfl)
    | dsimp -zeta only
    | with_reducible apply State.cipherFault_frame
    | with_reducible apply State.storeChunk_frame
    | with_reducible apply Within.ite
    | split

theorem execLookupAnswer_frame tag off fault s : Lands [.regs, .holding, .evt, .nor, .host, .cmd, .ddp, .keys, .wc, .sig, .lfl, .map, .rep, .prg, .chan, .store, .mem, .free, .out, .hostWait] s (execLookupAnswer tag off fault s) := by
  unfold execLookupAnswer
  repeat' first
    | with_reducible exact Within.refl _ _
    | with_reducible assumption
    | (show Part.sub _ _ = true; rfl)
    | with_reducible apply Lands.next
    | dsimp -zeta only
    | with_reducible apply State.modChunk_frame
    | with_reducible apply State.tryHandOff_frame
    | with_reducible apply State.fetchCopy_frame
    | with_reducible apply State.keepChunk_frame
    | with_reducible apply Lands.ite
    | with_reducible apply Within.ite
    | fail_if_no_progress (with_reducible refine Within.put (a := []) ?_ rfl rfl rfl rfl rfl)
    | split

theorem execVerifyCompare_frame tag off faults s : Lands [.block 4, .block 6, .block 11, .block 12, .block 13, .block 19, .block 20, .evt, .nor, .host, .ports, .trn, .cmd, .ddp, .keys, .wc, .sig, .lfl, .map, .prg, .chan, .store, .free, .out, .hostWait] s (execVerifyCompare tag off faults s) := by
  unfold execVerifyCompare
  repeat' first
    | with_reducible exact Within.refl _ _
    | with_reducible assumption
    | (show Part.sub _ _ = true; rfl)
    | with_reducible apply Lands.next
    | (extract_lets +onlyGivenNames x; with_reducible refine Lands.cut (u := x) ?_ ?_; rotate_left; intro hx; clear_value x; rename' x => y; rotate_right; unfold x; clear x)
    | (extract_lets +onlyGivenNames x; with_reducible refine Within.cut (u := x) ?_ ?_; rotate_left; intro hx; clear_value x; rename' x => y; rotate_right; unfold x; clear x)
    | (extract_lets +onlyGivenNames x; clear_value x; rename' x => z)
    | (extract_lets +onlyGivenNames x; rename' x => z)
    | dsimp -zeta only
    | with_reducible apply State.bump_frame
    | with_reducible apply State.issueReads_frame
    | with_reducible apply State.event_frame
    | with_reducible apply State.event1_frame
    | with_reducible apply State.noteCompare_frame
    | with_reducible apply State.modChunk_frame
    | with_reducible apply State.tryHandOff_frame
    | with_reducible apply State.countDecode_frame
    | with_reducible apply State.keepChunk_frame
    | with_reducible apply Lands.ite
    | with_reducible apply Within.ite
    | fail_if_no_progress (with_reducible refine Within.put (a := []) ?_ rfl rfl rfl rfl rfl)
    | split

theorem State.enterFlash_frame {ps s t} e (h : Within ps s t) (hp : Part.sub [.ddp] ps = true) : Within ps s (State.enterFlash t e) := by
  refine h.step (a := [.ddp]) ?_ hp
  unfold State.enterFlash
  repeat' first
    | with_reducible exact Within.refl _ _
    | with_reducible assumption
    | (show Part.sub _ _ = true; rfl)
    | dsimp -zeta only
    | with_reducible apply Within.ite
    | fail_if_no_progress (with_reducible refine Within.put (a := [.ddp]) ?_ rfl rfl rfl rfl rfl)
    | split

theorem State.reconcile_frame {ps s t} e upset (h : Within ps s t) (hp : Part.sub [.block 4, .block 6, .block 11, .block 12, .block 13, .evt, .nor, .host, .cmd, .ddp, .keys, .map, .chan, .out, .hostWait] ps = true) : Within ps s (State.reconcile t e upset) := by
  refine h.step (a := [.block 4, .block 6, .block 11, .block 12, .block 13, .evt, .nor, .host, .cmd, .ddp, .keys, .map, .chan, .out, .hostWait]) ?_ hp
  unfold State.reconcile
  repeat' first
    | with_reducible exact Within.refl _ _
    | with_reducible assumption
    | (show Part.sub _ _ = true; rfl)
    | dsimp -zeta only
    | with_reducible apply State.noteCompare_frame
    | with_reducible apply State.redirect_frame
    | with_reducible apply State.enterFlash_frame
    | with_reducible apply Within.ite
    | fail_if_no_progress (with_reducible refine Within.put (a := []) ?_ rfl rfl rfl rfl rfl)
    | split

theorem State.settleEntry_frame {ps s t} e upset (h : Within ps s t) (hp : Part.sub [.block 4, .block 6, .block 10, .block 11, .block 12, .block 13, .evt, .nor, .host, .cmd, .ddp, .keys, .map, .chan, .out, .hostWait] ps = true) : Within ps s (State.settleEntry t e upset).2 := by
  refine h.step (a := [.block 4, .block 6, .block 10, .block 11, .block 12, .block 13, .evt, .nor, .host, .cmd, .ddp, .keys, .map, .chan, .out, .hostWait]) ?_ hp
  unfold State.settleEntry
  repeat' first
    | with_reducible exact Within.refl _ _
    | with_reducible assumption
    | (show Part.sub _ _ = true; rfl)
    | (extract_lets +onlyGivenNames x; with_reducible refine Within.cut (u := x) ?_ ?_; rotate_left; intro hx; clear_value x; rename' x => y; rotate_right; unfold x; clear x)
    | (extract_lets +onlyGivenNames x; clear_value x; rename' x => z)
    | (extract_lets +onlyGivenNames x; rename' x => z)
    | dsimp -zeta only
    | with_reducible apply State.sendRing_frame
    | with_reducible apply State.holdTag_frame
    | with_reducible apply State.reconcile_frame
    | with_reducible apply Within.ite
    | fail_if_no_progress (with_reducible refine Within.put (a := [.ddp]) ?_ rfl rfl rfl rfl rfl)
    | split

theorem State.takeJournal_frame {ps s t} rest (h : Within ps s t) (hp : Part.sub [.block 12, .block 13, .block 20, .ddp, .sig, .map, .store] ps = true) : Within ps s (State.takeJournal t rest) := by
  refine h.step (a := [.block 12, .block 13, .block 20, .ddp, .sig, .map, .store]) ?_ hp
  unfold State.takeJournal
  repeat' first
    | with_reducible exact Within.refl _ _
    | with_reducible assumption
    | (show Part.sub _ _ = true; rfl)
    | dsimp -zeta only
    | with_reducible apply State.noteJournal_frame
    | with_reducible apply Within.ite
    | fail_if_no_progress (with_reducible refine Within.put (a := [.ddp]) ?_ rfl rfl rfl rfl rfl)
    | split

theorem execReconcileEntry_frame upset s : Lands [.block 4, .block 6, .block 10, .block 11, .block 12, .block 13, .block 20, .evt, .nor, .host, .cmd, .ddp, .keys, .sig, .map, .chan, .store, .out, .hostWait] s (execReconcileEntry upset s) := by
  unfold execReconcileEntry
  repeat' first
    | with_reducible exact Within.refl _ _
    | with_reducible assumption
    | (show Part.sub _ _ = true; rfl)
    | with_reducible apply Lands.next
    | (extract_lets +onlyGivenNames x; with_reducible refine Lands.cut (u := x) ?_ ?_; rotate_left; intro hx; clear_value x; rename' x => y; rotate_right; unfold x; clear x)
    | (extract_lets +onlyGivenNames x; with_reducible refine Within.cut (u := x) ?_ ?_; rotate_left; intro hx; clear_value x; rename' x => y; rotate_right; unfold x; clear x)
    | (extract_lets +onlyGivenNames x; clear_value x; rename' x => z)
    | (extract_lets +onlyGivenNames x; rename' x => z)
    | dsimp -zeta only
    | with_reducible apply State.event1_frame
    | with_reducible apply State.settleEntry_frame
    | with_reducible apply State.takeJournal_frame
    | with_reducible apply Lands.ite
    | with_reducible apply Within.ite
    | fail_if_no_progress (with_reducible refine Within.put (a := []) ?_ rfl rfl rfl rfl rfl)
    | split
    | (with_reducible refine Within.of_pair (by assumption) ?_)

theorem State.sweepOne_frame {ps s t} upset m (h : Within ps s t) (hp : Part.sub [.block 4, .block 6, .block 10, .block 11, .block 12, .block 13, .evt, .nor, .host, .cmd, .ddp, .keys, .map, .chan, .out, .hostWait] ps = true) : Within ps s (State.sweepOne t upset m).2 := by
  refine h.step (a := [.block 4, .block 6, .block 10, .block 11, .block 12, .block 13, .evt, .nor, .host, .cmd, .ddp, .keys, .map, .chan, .out, .hostWait]) ?_ hp
  unfold State.sweepOne
  repeat' first
    | with_reducible exact Within.refl _ _
    | with_reducible assumption
    | (show Part.sub _ _ = true; rfl)
    | (extract_lets +onlyGivenNames x; with_reducible refine Within.cut (u := x) ?_ ?_; rotate_left; intro hx; clear_value x; rename' x => y; rotate_right; unfold x; clear x)
    | (extract_lets +onlyGivenNames x; clear_value x; rename' x => z)
    | (extract_lets +onlyGivenNames x; rename' x => z)
    | dsimp -zeta only
    | with_reducible apply State.settleEntry_frame
    | with_reducible apply Within.ite
    | fail_if_no_progress (with_reducible refine Within.put (a := []) ?_ rfl rfl rfl rfl rfl)
    | split
    | (with_reducible refine Within.of_pair (by assumption) ?_)

theorem execDomainSweep_frame sweep s : Lands [.block 4, .block 6, .block 10, .block 11, .block 12, .block 13, .evt, .nor, .host, .cmd, .ddp, .keys, .map, .chan, .out, .hostWait] s (execDomainSweep sweep s) := by
  unfold execDomainSweep
  repeat' first
    | with_reducible exact Within.refl _ _
    | with_reducible assumption
    | (show Part.sub _ _ = true; rfl)
    | with_reducible apply Lands.next
    | (extract_lets +onlyGivenNames x; with_reducible refine Lands.cut (u := x) ?_ ?_; rotate_left; intro hx; clear_value x; rename' x => y; rotate_right; unfold x; clear x)
    | (extract_lets +onlyGivenNames x; with_reducible refine Within.cut (u := x) ?_ ?_; rotate_left; intro hx; clear_value x; rename' x => y; rotate_right; unfold x; clear x)
    | (extract_lets +onlyGivenNames x; clear_value x; rename' x => z)
    | (extract_lets +onlyGivenNames x; rename' x => z)
    | dsimp -zeta only
    | with_reducible apply State.wr_frame
    | with_reducible apply State.event1_frame
    | with_reducible apply State.sweepOne_frame
    | with_reducible apply Lands.ite
    | with_reducible apply Within.ite
    | (with_reducible refine Within.foldl _ ?_ ?_; rotate_left; intro _ _)
    | (with_reducible refine Within.foldl_snd _ ?_ ?_; rotate_left; intro _ _)
    | split
    | (with_reducible refine Within.of_pair (by assumption) ?_)

theorem execDomainCfgWrite_frame domain value s : Lands [.block 12] s (execDomainCfgWrite domain value s) := by
  unfold execDomainCfgWrite
  repeat' first
    | with_reducible exact Within.refl _ _
    | with_reducible assumption
    | (show Part.sub _ _ = true; rfl)
    | with_reducible apply Lands.next
    | (extract_lets +onlyGivenNames x; with_reducible refine Lands.cut (u := x) ?_ ?_; rotate_left; intro hx; clear_value x; rename' x => y; rotate_right; unfold x; clear x)
    | (extract_lets +onlyGivenNames x; with_reducible refine Within.cut (u := x) ?_ ?_; rotate_left; intro hx; clear_value x; rename' x => y; rotate_right; unfold x; clear x)
    | (extract_lets +onlyGivenNames x; clear_value x; rename' x => z)
    | (extract_lets +onlyGivenNames x; rename' x => z)
    | dsimp -zeta only
    | with_reducible apply State.wr_frame
    | with_reducible apply Lands.ite
    | with_reducible apply Within.ite
    | split

theorem State.addHomeRef_frame {ps s t} pair loc (h : Within ps s t) (hp : Part.sub [.ddp, .map] ps = true) : Within ps s (State.addHomeRef t pair loc) := by
  refine h.step (a := [.ddp, .map]) ?_ hp
  unfold State.addHomeRef
  repeat' first
    | with_reducible exact Within.refl _ _
    | with_reducible assumption
    | (show Part.sub _ _ = true; rfl)
    | (extract_lets +onlyGivenNames x; with_reducible refine Within.cut (u := x) ?_ ?_; rotate_left; intro hx; clear_value x; rename' x => y; rotate_right; unfold x; clear x)
    | (extract_lets +onlyGivenNames x; clear_value x; rename' x => z)
    | (extract_lets +onlyGivenNames x; rename' x => z)
    | dsimp -zeta only
    | with_reducible apply State.setCount_frame
    | with_reducible apply Within.ite
    | fail_if_no_progress (with_reducible refine Within.put (a := [.ddp]) ?_ rfl rfl rfl rfl rfl)
    | split

theorem execCascadeJournalEntry_frame domain fp pair seq upset s : Lands [.block 4, .block 6, .block 11, .evt, .nor, .host, .ddp, .map, .chan, .out, .hostWait] s (execCascadeJournalEntry domain fp pair seq upset s) := by
  unfold execCascadeJournalEntry
  repeat' first
    | with_reducible exact Within.refl _ _
    | with_reducible assumption
    | (show Part.sub _ _ = true; rfl)
    | with_reducible apply Lands.next
    | (extract_lets +onlyGivenNames x; with_reducible refine Lands.cut (u := x) ?_ ?_; rotate_left; intro hx; clear_value x; rename' x => y; rotate_right; unfold x; clear x)
    | (extract_lets +onlyGivenNames x; with_reducible refine Within.cut (u := x) ?_ ?_; rotate_left; intro hx; clear_value x; rename' x => y; rotate_right; unfold x; clear x)
    | (extract_lets +onlyGivenNames x; clear_value x; rename' x => z)
    | (extract_lets +onlyGivenNames x; rename' x => z)
    | dsimp -zeta only
    | with_reducible apply State.sendRing_frame
    | with_reducible apply State.noteCompare_frame
    | with_reducible apply State.addHomeRef_frame
    | with_reducible apply Lands.ite
    | with_reducible apply Within.ite
    | fail_if_no_progress (with_reducible refine Within.put (a := [.ddp]) ?_ rfl rfl rfl rfl rfl)
    | split

theorem State.releaseRemote_frame {ps s t} home loc (h : Within ps s t) (hp : Part.sub [.ddp, .chan, .out] ps = true) : Within ps s (State.releaseRemote t home loc) := by
  refine h.step (a := [.ddp, .chan, .out]) ?_ hp
  unfold State.releaseRemote
  repeat' first
    | with_reducible exact Within.refl _ _
    | with_reducible assumption
    | (show Part.sub _ _ = true; rfl)
    | (extract_lets +onlyGivenNames x; with_reducible refine Within.cut (u := x) ?_ ?_; rotate_left; intro hx; clear_value x; rename' x => y; rotate_right; unfold x; clear x)
    | (extract_lets +onlyGivenNames x; clear_value x; rename' x => z)
    | (extract_lets +onlyGivenNames x; rename' x => z)
    | dsimp -zeta only
    | with_reducible apply State.sendRing_frame
    | with_reducible apply Within.ite
    | fail_if_no_progress (with_reducible refine Within.put (a := [.ddp]) ?_ rfl rfl rfl rfl rfl)
    | split

theorem execCascadeHomeAnswer_frame seq answer s : Lands [.block 4, .block 6, .block 10, .block 11, .block 12, .block 13, .evt, .nor, .host, .cmd, .ddp, .keys, .map, .chan, .out, .hostWait] s (execCascadeHomeAnswer seq answer s) := by
  unfold execCascadeHomeAnswer
  repeat' first
    | with_reducible exact Within.refl _ _
    | with_reducible assumption
    | (show Part.sub _ _ = true; rfl)
    | with_reducible apply Lands.next
    | (extract_lets +onlyGivenNames x; with_reducible refine Lands.cut (u := x) ?_ ?_; rotate_left; intro hx; clear_value x; rename' x => y; rotate_right; unfold x; clear x)
    | (extract_lets +onlyGivenNames x; with_reducible refine Within.cut (u := x) ?_ ?_; rotate_left; intro hx; clear_value x; rename' x => y; rotate_right; unfold x; clear x)
    | (extract_lets +onlyGivenNames x; clear_value x; rename' x => z)
    | (extract_lets +onlyGivenNames x; rename' x => z)
    | dsimp -zeta only
    | with_reducible apply State.redirect_frame
    | with_reducible apply State.dropJob_frame
    | with_reducible apply State.reconcile_frame
    | with_reducible apply State.releaseRemote_frame
    | with_reducible apply Lands.ite
    | with_reducible apply Within.ite
    | fail_if_no_progress (with_reducible refine Within.put (a := [.ddp]) ?_ rfl rfl rfl rfl rfl)
    | split

theorem execCascadeRelease_frame pair seq loc s : Lands [.block 12, .cmd, .ddp, .keys, .map, .chan, .out] s (execCascadeRelease pair seq loc s) := by
  unfold execCascadeRelease
  repeat' first
    | with_reducible exact Within.refl _ _
    | with_reducible assumption
    | (show Part.sub _ _ = true; rfl)
    | with_reducible apply Lands.next
    | (extract_lets +onlyGivenNames x; with_reducible refine Lands.cut (u := x) ?_ ?_; rotate_left; intro hx; clear_value x; rename' x => y; rotate_right; unfold x; clear x)
    | (extract_lets +onlyGivenNames x; with_reducible refine Within.cut (u := x) ?_ ?_; rotate_left; intro hx; clear_value x; rename' x => y; rotate_right; unfold x; clear x)
    | (extract_lets +onlyGivenNames x; clear_value x; rename' x => z)
    | (extract_lets +onlyGivenNames x; rename' x => z)
    | dsimp -zeta only
    | with_reducible apply State.dropRef_frame
    | with_reducible apply Lands.ite
    | with_reducible apply Within.ite
    | fail_if_no_progress (with_reducible refine Within.put (a := [.ddp]) ?_ rfl rfl rfl rfl rfl)
    | split

theorem execLostNotice_frame domain home loc s : Lands [.regs, .holding, .evt, .nor, .host, .cmd, .ddp, .keys, .sig, .map, .store, .mem, .out, .hostWait] s (execLostNotice domain home loc s) := by
  unfold execLostNotice
  repeat' first
    | with_reducible exact Within.refl _ _
    | with_reducible assumption
    | (show Part.sub _ _ = true; rfl)
    | with_reducible apply Lands.next
    | (extract_lets +onlyGivenNames x; with_reducible refine Lands.cut (u := x) ?_ ?_; rotate_left; intro hx; clear_value x; rename' x => y; rotate_right; unfold x; clear x)
    | (extract_lets +onlyGivenNames x; with_reducible refine Within.cut (u := x) ?_ ?_; rotate_left; intro hx; clear_value x; rename' x => y; rotate_right; unfold x; clear x)
    | (extract_lets +onlyGivenNames x; clear_value x; rename' x => z)
    | (extract_lets +onlyGivenNames x; rename' x => z)
    | dsimp -zeta only
    | with_reducible apply State.removeIndex_frame
    | with_reducible apply State.rewriteLoc_frame
    | with_reducible apply State.listExtents_frame
    | with_reducible apply Lands.ite
    | with_reducible apply Within.ite
    | (with_reducible refine Within.foldl _ ?_ ?_; rotate_left; intro _ _)
    | (with_reducible refine Within.foldl_snd _ ?_ ?_; rotate_left; intro _ _)
    | split

end Sys2Proof.Machine
end

