-- ==== Sys2Proof/Laws/FrameProgram.lean ====
section
/-!
SUPPORT. Laws/FrameProgram.lean: what the definitions of Machine/Program.lean leave alone: each changes the listed parts at most, and keeps the
canonical form.
-/
namespace Sys2Proof.Machine
open Sys2Proof

set_option Elab.async false
set_option linter.all false

theorem State.setAcct_frame {ps s t} tenant a (h : Within ps s t) (hp : Part.sub [.prg, .mem] ps = true) : Within ps s (State.setAcct t tenant a) := by
  refine h.step (a := [.prg, .mem]) ?_ hp
  unfold State.setAcct
  repeat' first
    | with_reducible exact Within.refl _ _
    | with_reducible assumption
    | (show Part.sub _ _ = true; rfl)
    | (extract_lets +onlyGivenNames x; with_reducible refine Within.cut (u := x) ?_ ?_; rotate_left; intro hx; clear_value x; rename' x => y; rotate_right; unfold x; clear x)
    | (extract_lets +onlyGivenNames x; clear_value x; rename' x => z)
    | (extract_lets +onlyGivenNames x; rename' x => z)
    | dsimp -zeta only
    | with_reducible apply State.ddrWriteList_frame
    | with_reducible apply Within.ite
    | fail_if_no_progress (with_reducible refine Within.put (a := [.prg]) ?_ rfl rfl rfl rfl rfl)
    | split

theorem State.addAcct_frame {ps s t} tenant a (h : Within ps s t) (hp : Part.sub [.prg, .mem] ps = true) : Within ps s (State.addAcct t tenant a) := by
  refine h.step (a := [.prg, .mem]) ?_ hp
  unfold State.addAcct
  repeat' first
    | with_reducible exact Within.refl _ _
    | with_reducible assumption
    | (show Part.sub _ _ = true; rfl)
    | dsimp -zeta only
    | with_reducible apply State.setAcct_frame
    | with_reducible apply Within.ite
    | split

theorem State.postAcct_frame {ps s t} slot r (h : Within ps s t) (hp : Part.sub [.prg, .mem] ps = true) : Within ps s (State.postAcct t slot r) := by
  refine h.step (a := [.prg, .mem]) ?_ hp
  unfold State.postAcct
  repeat' first
    | with_reducible exact Within.refl _ _
    | with_reducible assumption
    | (show Part.sub _ _ = true; rfl)
    | (extract_lets +onlyGivenNames x; with_reducible refine Within.cut (u := x) ?_ ?_; rotate_left; intro hx; clear_value x; rename' x => y; rotate_right; unfold x; clear x)
    | (extract_lets +onlyGivenNames x; clear_value x; rename' x => z)
    | (extract_lets +onlyGivenNames x; rename' x => z)
    | dsimp -zeta only
    | with_reducible apply State.addAcct_frame
    | with_reducible apply Within.ite
    | fail_if_no_progress (with_reducible refine Within.put (a := [.prg]) ?_ rfl rfl rfl rfl rfl)
    | split

theorem execAccountingUpdate_frame  s : Lands [.prg, .mem] s (execAccountingUpdate s) := by
  unfold execAccountingUpdate
  repeat' first
    | with_reducible exact Within.refl _ _
    | with_reducible assumption
    | (show Part.sub _ _ = true; rfl)
    | with_reducible apply Lands.next
    | dsimp -zeta only
    | with_reducible apply State.postAcct_frame
    | with_reducible apply Lands.ite
    | with_reducible apply Within.ite
    | (with_reducible refine Within.foldl _ ?_ ?_; rotate_left; intro _ _)
    | (with_reducible refine Within.foldl_snd _ ?_ ?_; rotate_left; intro _ _)
    | split

theorem execAcctClear_frame value s : Lands [.prg, .mem] s (execAcctClear value s) := by
  unfold execAcctClear
  repeat' first
    | with_reducible exact Within.refl _ _
    | with_reducible assumption
    | (show Part.sub _ _ = true; rfl)
    | with_reducible apply Lands.next
    | dsimp -zeta only
    | with_reducible apply State.setAcct_frame
    | with_reducible apply Lands.ite
    | with_reducible apply Within.ite
    | (with_reducible refine Within.foldl _ ?_ ?_; rotate_left; intro _ _)
    | (with_reducible refine Within.foldl_snd _ ?_ ?_; rotate_left; intro _ _)
    | split

theorem State.setProgram_frame {ps s t} tenant slot package (h : Within ps s t) (hp : Part.sub [.prg] ps = true) : Within ps s (State.setProgram t tenant slot package) := by
  refine h.step (a := [.prg]) ?_ hp
  unfold State.setProgram
  repeat' first
    | with_reducible exact Within.refl _ _
    | with_reducible assumption
    | (show Part.sub _ _ = true; rfl)
    | (extract_lets +onlyGivenNames x; with_reducible refine Within.cut (u := x) ?_ ?_; rotate_left; intro hx; clear_value x; rename' x => y; rotate_right; unfold x; clear x)
    | (extract_lets +onlyGivenNames x; clear_value x; rename' x => z)
    | (extract_lets +onlyGivenNames x; rename' x => z)
    | dsimp -zeta only
    | with_reducible apply Within.ite
    | fail_if_no_progress (with_reducible refine Within.put (a := [.prg]) ?_ rfl rfl rfl rfl rfl)
    | split

theorem State.programGate_frame {ps s t} c tenant run (h : Within ps s t) (hr : Within ps s run) (hp : Part.sub [.host, .out, .hostWait] ps = true) :
    Within ps s (State.programGate t c tenant run) := by
  unfold State.programGate State.ringGate
  dsimp only
  have hc (code) : Within ps s (t.complete c code) := State.complete_frame c _ _ _ h hp
  repeat' split
  all_goals first | exact hc _ | exact hr | exact h

theorem execPrgLoad_frame c tenant slot replace reservedZero package s : Lands [.host, .prg, .chan, .out, .hostWait] s (execPrgLoad c tenant slot replace reservedZero package s) := by
  unfold execPrgLoad
  repeat' first
    | with_reducible exact Within.refl _ _
    | with_reducible assumption
    | (show Part.sub _ _ = true; rfl)
    | with_reducible apply Lands.next
    | (extract_lets +onlyGivenNames x; with_reducible refine Lands.cut (u := x) ?_ ?_; rotate_left; intro hx; clear_value x; rename' x => y; rotate_right; unfold x; clear x)
    | (extract_lets +onlyGivenNames x; with_reducible refine Within.cut (u := x) ?_ ?_; rotate_left; intro hx; clear_value x; rename' x => y; rotate_right; unfold x; clear x)
    | (extract_lets +onlyGivenNames x; clear_value x; rename' x => z)
    | (extract_lets +onlyGivenNames x; rename' x => z)
    | dsimp -zeta only
    | with_reducible apply State.complete_frame
    | with_reducible apply State.sendRing_frame
    | with_reducible apply State.setProgram_frame
    | with_reducible apply State.programGate_frame
    | with_reducible apply Lands.ite
    | with_reducible apply Within.ite
    | fail_if_no_progress (with_reducible refine Within.put (a := []) ?_ rfl rfl rfl rfl rfl)
    | split

theorem execPrgUnload_frame c tenant slot s : Lands [.host, .prg, .chan, .out, .hostWait] s (execPrgUnload c tenant slot s) := by
  unfold execPrgUnload
  repeat' first
    | with_reducible exact Within.refl _ _
    | with_reducible assumption
    | (show Part.sub _ _ = true; rfl)
    | with_reducible apply Lands.next
    | (extract_lets +onlyGivenNames x; with_reducible refine Lands.cut (u := x) ?_ ?_; rotate_left; intro hx; clear_value x; rename' x => y; rotate_right; unfold x; clear x)
    | (extract_lets +onlyGivenNames x; with_reducible refine Within.cut (u := x) ?_ ?_; rotate_left; intro hx; clear_value x; rename' x => y; rotate_right; unfold x; clear x)
    | (extract_lets +onlyGivenNames x; clear_value x; rename' x => z)
    | (extract_lets +onlyGivenNames x; rename' x => z)
    | dsimp -zeta only
    | with_reducible apply State.complete_frame
    | with_reducible apply State.sendRing_frame
    | with_reducible apply State.setProgram_frame
    | with_reducible apply State.programGate_frame
    | with_reducible apply Lands.ite
    | with_reducible apply Within.ite
    | split

theorem execProgramTableUpdate_frame tenant slot package s : Lands [.prg] s (execProgramTableUpdate tenant slot package s) := by
  unfold execProgramTableUpdate
  repeat' first
    | with_reducible exact Within.refl _ _
    | with_reducible assumption
    | (show Part.sub _ _ = true; rfl)
    | with_reducible apply Lands.next
    | dsimp -zeta only
    | with_reducible apply State.setProgram_frame
    | with_reducible apply Lands.ite
    | with_reducible apply Within.ite
    | split

theorem State.runCode_frame {ps s t} st (h : Within ps s t) (hp : Part.sub [.free] ps = true) : Within ps s (State.runCode t st).2 := by
  refine h.step (a := [.free]) ?_ hp
  unfold State.runCode
  repeat' first
    | with_reducible exact Within.refl _ _
    | with_reducible assumption
    | (show Part.sub _ _ = true; rfl)
    | dsimp -zeta only
    | with_reducible apply State.fresh_frame
    | with_reducible apply Within.ite
    | split
    | (with_reducible refine Within.of_pair (by assumption) ?_)

theorem State.endHostRun_frame {ps s t} slot r c dest len build st (h : Within ps s t) (hp : Part.sub [.block 19, .host, .cmd, .prg, .mem, .free, .out, .hostWait] ps = true) : Within ps s (State.endHostRun t slot r c dest len build st) := by
  refine h.step (a := [.block 19, .host, .cmd, .prg, .mem, .free, .out, .hostWait]) ?_ hp
  unfold State.endHostRun
  repeat' first
    | with_reducible exact Within.refl _ _
    | with_reducible assumption
    | (show Part.sub _ _ = true; rfl)
    | (extract_lets +onlyGivenNames x; with_reducible refine Within.cut (u := x) ?_ ?_; rotate_left; intro hx; clear_value x; rename' x => y; rotate_right; unfold x; clear x)
    | (extract_lets +onlyGivenNames x; clear_value x; rename' x => z)
    | (extract_lets +onlyGivenNames x; rename' x => z)
    | dsimp -zeta only
    | with_reducible apply State.sendHost_frame
    | with_reducible apply State.complete_frame
    | with_reducible apply State.finish_frame
    | with_reducible apply State.noteRuns_frame
    | with_reducible apply State.addAcct_frame
    | with_reducible apply State.runCode_frame
    | with_reducible apply Within.ite
    | fail_if_no_progress (with_reducible refine Within.put (a := [.prg]) ?_ rfl rfl rfl rfl rfl)
    | split
    | (with_reducible refine Within.of_pair (by assumption) ?_)

theorem State.detachTap_frame {ps s t} slot r (h : Within ps s t) (hp : Part.sub [.block 19, .prg, .mem] ps = true) : Within ps s (State.detachTap t slot r) := by
  refine h.step (a := [.block 19, .prg, .mem]) ?_ hp
  unfold State.detachTap
  repeat' first
    | with_reducible exact Within.refl _ _
    | with_reducible assumption
    | (show Part.sub _ _ = true; rfl)
    | (extract_lets +onlyGivenNames x; with_reducible refine Within.cut (u := x) ?_ ?_; rotate_left; intro hx; clear_value x; rename' x => y; rotate_right; unfold x; clear x)
    | (extract_lets +onlyGivenNames x; clear_value x; rename' x => z)
    | (extract_lets +onlyGivenNames x; rename' x => z)
    | dsimp -zeta only
    | with_reducible apply State.noteRuns_frame
    | with_reducible apply State.postAcct_frame
    | with_reducible apply Within.ite
    | fail_if_no_progress (with_reducible refine Within.put (a := [.prg]) ?_ rfl rfl rfl rfl rfl)
    | split

theorem State.endRun_frame {ps s t} slot st (h : Within ps s t) (hp : Part.sub [.block 19, .host, .cmd, .prg, .mem, .free, .out, .hostWait] ps = true) : Within ps s (State.endRun t slot st) := by
  refine h.step (a := [.block 19, .host, .cmd, .prg, .mem, .free, .out, .hostWait]) ?_ hp
  unfold State.endRun
  repeat' first
    | with_reducible exact Within.refl _ _
    | with_reducible assumption
    | (show Part.sub _ _ = true; rfl)
    | (extract_lets +onlyGivenNames x; with_reducible refine Within.cut (u := x) ?_ ?_; rotate_left; intro hx; clear_value x; rename' x => y; rotate_right; unfold x; clear x)
    | (extract_lets +onlyGivenNames x; clear_value x; rename' x => z)
    | (extract_lets +onlyGivenNames x; rename' x => z)
    | dsimp -zeta only
    | with_reducible apply State.finish_frame
    | with_reducible apply State.noteRuns_frame
    | with_reducible apply State.postAcct_frame
    | with_reducible apply State.endHostRun_frame
    | with_reducible apply Within.ite
    | fail_if_no_progress (with_reducible refine Within.put (a := [.prg]) ?_ rfl rfl rfl rfl rfl)
    | split

theorem State.endUnstarted_frame {ps s t} slot r (h : Within ps s t) (hp : Part.sub [.block 19, .host, .cmd, .prg, .mem, .free, .out, .hostWait] ps = true) : Within ps s (State.endUnstarted t slot r) := by
  refine h.step (a := [.block 19, .host, .cmd, .prg, .mem, .free, .out, .hostWait]) ?_ hp
  unfold State.endUnstarted
  repeat' first
    | with_reducible exact Within.refl _ _
    | with_reducible assumption
    | (show Part.sub _ _ = true; rfl)
    | dsimp -zeta only
    | with_reducible apply State.finish_frame
    | with_reducible apply State.endHostRun_frame
    | with_reducible apply Within.ite
    | fail_if_no_progress (with_reducible refine Within.put (a := [.prg]) ?_ rfl rfl rfl rfl rfl)
    | split

theorem State.grantRun_frame {ps s t} wait r slot (h : Within ps s t) (hp : Part.sub [.block 19, .host, .cmd, .prg, .mem, .free, .out, .hostWait] ps = true) : Within ps s (State.grantRun t wait r slot) := by
  refine h.step (a := [.block 19, .host, .cmd, .prg, .mem, .free, .out, .hostWait]) ?_ hp
  unfold State.grantRun
  repeat' first
    | with_reducible exact Within.refl _ _
    | with_reducible assumption
    | (show Part.sub _ _ = true; rfl)
    | (extract_lets +onlyGivenNames x; with_reducible refine Within.cut (u := x) ?_ ?_; rotate_left; intro hx; clear_value x; rename' x => y; rotate_right; unfold x; clear x)
    | (extract_lets +onlyGivenNames x; clear_value x; rename' x => z)
    | (extract_lets +onlyGivenNames x; rename' x => z)
    | dsimp -zeta only
    | with_reducible apply State.noteRuns_frame
    | with_reducible apply State.endUnstarted_frame
    | with_reducible apply Within.ite
    | fail_if_no_progress (with_reducible refine Within.put (a := [.prg]) ?_ rfl rfl rfl rfl rfl)
    | split

theorem State.regrant_frame {ps s t}  (h : Within ps s t) (hp : Part.sub [.block 19, .prg] ps = true) : Within ps s (State.regrant t) := by
  refine h.step (a := [.block 19, .prg]) ?_ hp
  unfold State.regrant
  repeat' first
    | with_reducible exact Within.refl _ _
    | with_reducible assumption
    | (show Part.sub _ _ = true; rfl)
    | dsimp -zeta only
    | with_reducible apply State.noteRuns_frame
    | with_reducible apply Within.ite
    | fail_if_no_progress (with_reducible refine Within.put (a := [.prg]) ?_ rfl rfl rfl rfl rfl)
    | split

theorem State.grantRuns_frame {ps s t}  (h : Within ps s t) (hp : Part.sub [.block 19, .host, .cmd, .prg, .mem, .free, .out, .hostWait] ps = true) : Within ps s (State.grantRuns t) := by
  refine h.step (a := [.block 19, .host, .cmd, .prg, .mem, .free, .out, .hostWait]) ?_ hp
  unfold State.grantRuns
  repeat' first
    | with_reducible exact Within.refl _ _
    | with_reducible assumption
    | (show Part.sub _ _ = true; rfl)
    | (extract_lets +onlyGivenNames x; with_reducible refine Within.cut (u := x) ?_ ?_; rotate_left; intro hx; clear_value x; rename' x => y; rotate_right; unfold x; clear x)
    | (extract_lets +onlyGivenNames x; clear_value x; rename' x => z)
    | (extract_lets +onlyGivenNames x; rename' x => z)
    | dsimp -zeta only
    | with_reducible apply State.grantRun_frame
    | with_reducible apply State.regrant_frame
    | with_reducible apply Within.ite
    | fail_if_no_progress (with_reducible refine Within.put (a := []) ?_ rfl rfl rfl rfl rfl)
    | split

theorem State.awaitTiles_frame {ps s t} r (h : Within ps s t) (hp : Part.sub [.block 19, .host, .cmd, .prg, .mem, .free, .out, .hostWait] ps = true) : Within ps s (State.awaitTiles t r) := by
  refine h.step (a := [.block 19, .host, .cmd, .prg, .mem, .free, .out, .hostWait]) ?_ hp
  unfold State.awaitTiles
  repeat' first
    | with_reducible exact Within.refl _ _
    | with_reducible assumption
    | (show Part.sub _ _ = true; rfl)
    | (extract_lets +onlyGivenNames x; with_reducible refine Within.cut (u := x) ?_ ?_; rotate_left; intro hx; clear_value x; rename' x => y; rotate_right; unfold x; clear x)
    | (extract_lets +onlyGivenNames x; clear_value x; rename' x => z)
    | (extract_lets +onlyGivenNames x; rename' x => z)
    | dsimp -zeta only
    | with_reducible apply State.grantRuns_frame
    | with_reducible apply Within.ite
    | (with_reducible refine Within.foldl _ ?_ ?_; rotate_left; intro _ _)
    | (with_reducible refine Within.foldl_snd _ ?_ ?_; rotate_left; intro _ _)
    | fail_if_no_progress (with_reducible refine Within.put (a := [.prg]) ?_ rfl rfl rfl rfl rfl)
    | split

theorem execTileGrant_frame  s : Lands [.block 19, .host, .cmd, .prg, .mem, .free, .out, .hostWait] s (execTileGrant s) := by
  unfold execTileGrant
  repeat' first
    | with_reducible exact Within.refl _ _
    | with_reducible assumption
    | (show Part.sub _ _ = true; rfl)
    | with_reducible apply Lands.next
    | dsimp -zeta only
    | with_reducible apply State.grantRuns_frame
    | with_reducible apply Lands.ite
    | with_reducible apply Within.ite
    | split

theorem execProgramRun_frame tag s : Lands [.block 19, .host, .ports, .trn, .cmd, .prg, .mem, .free, .out, .hostWait] s (execProgramRun tag s) := by
  unfold execProgramRun
  repeat' first
    | with_reducible exact Within.refl _ _
    | with_reducible assumption
    | (show Part.sub _ _ = true; rfl)
    | with_reducible apply Lands.next
    | (extract_lets +onlyGivenNames x; with_reducible refine Lands.cut (u := x) ?_ ?_; rotate_left; intro hx; clear_value x; rename' x => y; rotate_right; unfold x; clear x)
    | (extract_lets +onlyGivenNames x; with_reducible refine Within.cut (u := x) ?_ ?_; rotate_left; intro hx; clear_value x; rename' x => y; rotate_right; unfold x; clear x)
    | (extract_lets +onlyGivenNames x; clear_value x; rename' x => z)
    | (extract_lets +onlyGivenNames x; rename' x => z)
    | dsimp -zeta only
    | with_reducible apply State.queueRead_frame
    | with_reducible apply State.begin_frame
    | with_reducible apply State.awaitTiles_frame
    | intro _
    | with_reducible apply Lands.ite
    | with_reducible apply Within.ite
    | split

theorem State.startHostRun_frame {ps s t} c p build (h : Within ps s t) (hp : Part.sub [.block 19, .host, .cmd, .prg, .mem, .free, .out, .hostWait] ps = true) : Within ps s (State.startHostRun t c p build) := by
  refine h.step (a := [.block 19, .host, .cmd, .prg, .mem, .free, .out, .hostWait]) ?_ hp
  unfold State.startHostRun
  repeat' first
    | with_reducible exact Within.refl _ _
    | with_reducible assumption
    | (show Part.sub _ _ = true; rfl)
    | (extract_lets +onlyGivenNames x; with_reducible refine Within.cut (u := x) ?_ ?_; rotate_left; intro hx; clear_value x; rename' x => y; rotate_right; unfold x; clear x)
    | (extract_lets +onlyGivenNames x; clear_value x; rename' x => z)
    | (extract_lets +onlyGivenNames x; rename' x => z)
    | dsimp -zeta only
    | with_reducible apply State.complete_frame
    | with_reducible apply State.askInternal_frame
    | with_reducible apply State.programGate_frame
    | with_reducible apply State.awaitTiles_frame
    | with_reducible apply Within.ite
    | fail_if_no_progress (with_reducible refine Within.put (a := []) ?_ rfl rfl rfl rfl rfl)
    | split

theorem execHostRun_frame c params s : Lands [.block 19, .host, .cmd, .prg, .mem, .free, .out, .hostWait] s (execHostRun c params s) := by
  unfold execHostRun
  repeat' first
    | with_reducible exact Within.refl _ _
    | with_reducible assumption
    | (show Part.sub _ _ = true; rfl)
    | with_reducible apply Lands.next
    | dsimp -zeta only
    | with_reducible apply State.startHostRun_frame
    | with_reducible apply Lands.ite
    | with_reducible apply Within.ite
    | split

theorem execIndexBuild_frame c params s : Lands [.block 19, .host, .cmd, .prg, .mem, .free, .out, .hostWait] s (execIndexBuild c params s) := by
  unfold execIndexBuild
  repeat' first
    | with_reducible exact Within.refl _ _
    | with_reducible assumption
    | (show Part.sub _ _ = true; rfl)
    | with_reducible apply Lands.next
    | dsimp -zeta only
    | with_reducible apply State.startHostRun_frame
    | with_reducible apply Lands.ite
    | with_reducible apply Within.ite
    | split

theorem execTapAttach_frame c nsid slot tiles dest len s : Lands [.block 19, .host, .prg, .out, .hostWait] s (execTapAttach c nsid slot tiles dest len s) := by
  unfold execTapAttach
  repeat' first
    | with_reducible exact Within.refl _ _
    | with_reducible assumption
    | (show Part.sub _ _ = true; rfl)
    | with_reducible apply Lands.next
    | (extract_lets +onlyGivenNames x; with_reducible refine Lands.cut (u := x) ?_ ?_; rotate_left; intro hx; clear_value x; rename' x => y; rotate_right; unfold x; clear x)
    | (extract_lets +onlyGivenNames x; with_reducible refine Within.cut (u := x) ?_ ?_; rotate_left; intro hx; clear_value x; rename' x => y; rotate_right; unfold x; clear x)
    | (extract_lets +onlyGivenNames x; clear_value x; rename' x => z)
    | (extract_lets +onlyGivenNames x; rename' x => z)
    | dsimp -zeta only
    | with_reducible apply State.complete_frame
    | with_reducible apply State.noteRuns_frame
    | with_reducible apply State.programGate_frame
    | with_reducible apply Lands.ite
    | with_reducible apply Within.ite
    | fail_if_no_progress (with_reducible refine Within.put (a := [.prg]) ?_ rfl rfl rfl rfl rfl)
    | split

theorem execTapDetach_frame c nsid slot s : Lands [.block 19, .host, .prg, .mem, .out, .hostWait] s (execTapDetach c nsid slot s) := by
  unfold execTapDetach
  repeat' first
    | with_reducible exact Within.refl _ _
    | with_reducible assumption
    | (show Part.sub _ _ = true; rfl)
    | with_reducible apply Lands.next
    | dsimp -zeta only
    | with_reducible apply State.complete_frame
    | with_reducible apply State.programGate_frame
    | with_reducible apply State.detachTap_frame
    | with_reducible apply Lands.ite
    | with_reducible apply Within.ite
    | fail_if_no_progress (with_reducible refine Within.put (a := []) ?_ rfl rfl rfl rfl rfl)
    | split

theorem State.invoke_frame {ps s t} r tile pc d v (h : Within ps s t) (hp : Part.sub [.free] ps = true) : Within ps s (State.invoke t r tile pc d v).2.2 := by
  refine h.step (a := [.free]) ?_ hp
  unfold State.invoke
  repeat' first
    | with_reducible exact Within.refl _ _
    | with_reducible assumption
    | (show Part.sub _ _ = true; rfl)
    | (extract_lets +onlyGivenNames x; with_reducible refine Within.cut (u := x) ?_ ?_; rotate_left; intro hx; clear_value x; rename' x => y; rotate_right; unfold x; clear x)
    | (extract_lets +onlyGivenNames x; clear_value x; rename' x => z)
    | (extract_lets +onlyGivenNames x; rename' x => z)
    | dsimp -zeta only
    | with_reducible apply Within.ite
    | fail_if_no_progress (with_reducible refine Within.put (a := [.free]) ?_ rfl rfl rfl rfl rfl)
    | split

theorem State.invokeAll_frame {ps s t} r tile pc ds v (h : Within ps s t) (hp : Part.sub [.free] ps = true) :
    Within ps s (State.invokeAll r tile pc ds v t).2.2 := by
  induction ds generalizing v t with
  | nil => exact h
  | cons d ds ih =>
    have hi : Within ps s (t.invoke r tile pc d v).2.2 := State.invoke_frame r tile pc d v h hp
    simp only [State.invokeAll]
    split
    · split
      · exact hi
      · exact ih _ hi
    · exact hi

theorem State.keepRecords_frame {ps s t} slot r recs (h : Within ps s t) (hp : Part.sub [.prg, .out, .hostWait] ps = true) : Within ps s (State.keepRecords t slot r recs) := by
  refine h.step (a := [.prg, .out, .hostWait]) ?_ hp
  unfold State.keepRecords
  repeat' first
    | with_reducible exact Within.refl _ _
    | with_reducible assumption
    | (show Part.sub _ _ = true; rfl)
    | (extract_lets +onlyGivenNames x; with_reducible refine Within.cut (u := x) ?_ ?_; rotate_left; intro hx; clear_value x; rename' x => y; rotate_right; unfold x; clear x)
    | (extract_lets +onlyGivenNames x; clear_value x; rename' x => z)
    | (extract_lets +onlyGivenNames x; rename' x => z)
    | dsimp -zeta only
    | with_reducible apply State.sendHost_frame
    | with_reducible apply Within.ite
    | fail_if_no_progress (with_reducible refine Within.put (a := [.prg]) ?_ rfl rfl rfl rfl rfl)
    | split

theorem State.invokeEnd_frame {ps s t} tile x2 (h : Within ps s t) (hp : Part.sub [.block 4, .block 6, .evt, .nor, .host, .out, .hostWait] ps = true) : Within ps s (State.invokeEnd t tile x2).2 := by
  refine h.step (a := [.block 4, .block 6, .evt, .nor, .host, .out, .hostWait]) ?_ hp
  unfold State.invokeEnd
  repeat' first
    | with_reducible exact Within.refl _ _
    | with_reducible assumption
    | (show Part.sub _ _ = true; rfl)
    | dsimp -zeta only
    | with_reducible apply State.event_frame
    | with_reducible apply Within.ite
    | split

theorem State.stopBy_frame {ps s t} slot tile x (h : Within ps s t) (hp : Part.sub [.block 4, .block 6, .block 19, .evt, .nor, .host, .cmd, .prg, .mem, .free, .out, .hostWait] ps = true) : Within ps s (State.stopBy t slot tile x) := by
  refine h.step (a := [.block 4, .block 6, .block 19, .evt, .nor, .host, .cmd, .prg, .mem, .free, .out, .hostWait]) ?_ hp
  unfold State.stopBy
  repeat' first
    | with_reducible exact Within.refl _ _
    | with_reducible assumption
    | (show Part.sub _ _ = true; rfl)
    | (extract_lets +onlyGivenNames x; with_reducible refine Within.cut (u := x) ?_ ?_; rotate_left; intro hx; clear_value x; rename' x => y; rotate_right; unfold x; clear x)
    | (extract_lets +onlyGivenNames x; clear_value x; rename' x => z)
    | (extract_lets +onlyGivenNames x; rename' x => z)
    | dsimp -zeta only
    | with_reducible apply State.event1_frame
    | with_reducible apply State.detachTap_frame
    | with_reducible apply State.endRun_frame
    | with_reducible apply State.invokeEnd_frame
    | with_reducible apply Within.ite
    | fail_if_no_progress (with_reducible refine Within.put (a := []) ?_ rfl rfl rfl rfl rfl)
    | split
    | (with_reducible refine Within.of_pair (by assumption) ?_)

theorem State.runPiece_frame {ps s t} slot r tile pc bytes ds (h : Within ps s t) (hp : Part.sub [.block 4, .block 6, .block 19, .evt, .nor, .host, .cmd, .prg, .mem, .free, .out, .hostWait] ps = true) : Within ps s (State.runPiece t slot r tile pc bytes ds) := by
  refine h.step (a := [.block 4, .block 6, .block 19, .evt, .nor, .host, .cmd, .prg, .mem, .free, .out, .hostWait]) ?_ hp
  unfold State.runPiece
  repeat' first
    | with_reducible exact Within.refl _ _
    | with_reducible assumption
    | (show Part.sub _ _ = true; rfl)
    | (extract_lets +onlyGivenNames x; with_reducible refine Within.cut (u := x) ?_ ?_; rotate_left; intro hx; clear_value x; rename' x => y; rotate_right; unfold x; clear x)
    | (extract_lets +onlyGivenNames x; clear_value x; rename' x => z)
    | (extract_lets +onlyGivenNames x; rename' x => z)
    | dsimp -zeta only
    | with_reducible apply State.invokeAll_frame
    | with_reducible apply State.keepRecords_frame
    | with_reducible apply State.stopBy_frame
    | with_reducible apply Within.ite
    | fail_if_no_progress (with_reducible refine Within.put (a := []) ?_ rfl rfl rfl rfl rfl)
    | split
    | (with_reducible refine Within.of_pair (by assumption) ?_)

theorem State.fetchSpan_frame {ps s t} slot tile (h : Within ps s t) (hp : Part.sub [.regs, .holding, .evt, .nor, .host, .cmd, .ddp, .keys, .sig, .lfl, .map, .rep, .prg, .chan, .store, .mem, .free, .out, .hostWait] ps = true) : Within ps s (State.fetchSpan t slot tile) := by
  refine h.step (a := [.regs, .holding, .evt, .nor, .host, .cmd, .ddp, .keys, .sig, .lfl, .map, .rep, .prg, .chan, .store, .mem, .free, .out, .hostWait]) ?_ hp
  unfold State.fetchSpan
  repeat' first
    | with_reducible exact Within.refl _ _
    | with_reducible assumption
    | (show Part.sub _ _ = true; rfl)
    | dsimp -zeta only
    | with_reducible apply State.modSpan_frame
    | with_reducible apply State.fetchCopy_frame
    | with_reducible apply Within.ite
    | fail_if_no_progress (with_reducible refine Within.put (a := []) ?_ rfl rfl rfl rfl rfl)
    | split

theorem State.fetchSpans_frame {ps s t} slot (h : Within ps s t) (hp : Part.sub [.regs, .holding, .evt, .nor, .host, .cmd, .ddp, .keys, .sig, .lfl, .map, .rep, .prg, .chan, .store, .mem, .free, .out, .hostWait] ps = true) : Within ps s (State.fetchSpans t slot) := by
  refine h.step (a := [.regs, .holding, .evt, .nor, .host, .cmd, .ddp, .keys, .sig, .lfl, .map, .rep, .prg, .chan, .store, .mem, .free, .out, .hostWait]) ?_ hp
  unfold State.fetchSpans
  repeat' first
    | with_reducible exact Within.refl _ _
    | with_reducible assumption
    | (show Part.sub _ _ = true; rfl)
    | dsimp -zeta only
    | with_reducible apply State.fetchSpan_frame
    | with_reducible apply Within.ite
    | (with_reducible refine Within.foldl _ ?_ ?_; rotate_left; intro _ _)
    | (with_reducible refine Within.foldl_snd _ ?_ ?_; rotate_left; intro _ _)
    | fail_if_no_progress (with_reducible refine Within.put (a := []) ?_ rfl rfl rfl rfl rfl)
    | split

theorem State.spanBytes_frame {ps s t} slot r i tile p bytes zero (h : Within ps s t) (hp : Part.sub [.regs, .holding, .evt, .nor, .host, .cmd, .ddp, .keys, .sig, .lfl, .map, .rep, .prg, .chan, .store, .mem, .free, .out, .hostWait] ps = true) : Within ps s (State.spanBytes t slot r i tile p bytes zero) := by
  refine h.step (a := [.regs, .holding, .evt, .nor, .host, .cmd, .ddp, .keys, .sig, .lfl, .map, .rep, .prg, .chan, .store, .mem, .free, .out, .hostWait]) ?_ hp
  unfold State.spanBytes
  repeat' first
    | with_reducible exact Within.refl _ _
    | with_reducible assumption
    | (show Part.sub _ _ = true; rfl)
    | (extract_lets +onlyGivenNames x; with_reducible refine Within.cut (u := x) ?_ ?_; rotate_left; intro hx; clear_value x; rename' x => y; rotate_right; unfold x; clear x)
    | (extract_lets +onlyGivenNames x; clear_value x; rename' x => z)
    | (extract_lets +onlyGivenNames x; rename' x => z)
    | dsimp -zeta only
    | with_reducible apply State.runPiece_frame
    | with_reducible apply State.fetchSpan_frame
    | with_reducible apply Within.ite
    | fail_if_no_progress (with_reducible refine Within.put (a := []) ?_ rfl rfl rfl rfl rfl)
    | split

theorem State.spanSecond_frame {ps s t} slot tile r loc code (h : Within ps s t) (hp : Part.sub [.regs, .holding, .evt, .nor, .host, .cmd, .ddp, .keys, .sig, .lfl, .map, .rep, .prg, .chan, .store, .mem, .free, .out, .hostWait] ps = true) : Within ps s (State.spanSecond t slot tile r loc code) := by
  refine h.step (a := [.regs, .holding, .evt, .nor, .host, .cmd, .ddp, .keys, .sig, .lfl, .map, .rep, .prg, .chan, .store, .mem, .free, .out, .hostWait]) ?_ hp
  unfold State.spanSecond
  repeat' first
    | with_reducible exact Within.refl _ _
    | with_reducible assumption
    | (show Part.sub _ _ = true; rfl)
    | (extract_lets +onlyGivenNames x; with_reducible refine Within.cut (u := x) ?_ ?_; rotate_left; intro hx; clear_value x; rename' x => y; rotate_right; unfold x; clear x)
    | (extract_lets +onlyGivenNames x; clear_value x; rename' x => z)
    | (extract_lets +onlyGivenNames x; rename' x => z)
    | dsimp -zeta only
    | with_reducible apply State.sendRing_frame
    | with_reducible apply State.countDecode_frame
    | with_reducible apply State.modSpan_frame
    | with_reducible apply State.fetchCopy_frame
    | with_reducible apply Within.ite
    | fail_if_no_progress (with_reducible refine Within.put (a := []) ?_ rfl rfl rfl rfl rfl)
    | split

theorem State.spanFault_frame {ps s t} slot tenant (h : Within ps s t) (hp : Part.sub [.block 4, .block 6, .block 11, .block 19, .evt, .nor, .host, .cmd, .prg, .mem, .free, .out, .hostWait] ps = true) : Within ps s (State.spanFault t slot tenant) := by
  refine h.step (a := [.block 4, .block 6, .block 11, .block 19, .evt, .nor, .host, .cmd, .prg, .mem, .free, .out, .hostWait]) ?_ hp
  unfold State.spanFault
  repeat' first
    | with_reducible exact Within.refl _ _
    | with_reducible assumption
    | (show Part.sub _ _ = true; rfl)
    | (extract_lets +onlyGivenNames x; with_reducible refine Within.cut (u := x) ?_ ?_; rotate_left; intro hx; clear_value x; rename' x => y; rotate_right; unfold x; clear x)
    | (extract_lets +onlyGivenNames x; clear_value x; rename' x => z)
    | (extract_lets +onlyGivenNames x; rename' x => z)
    | dsimp -zeta only
    | with_reducible apply State.bump_frame
    | with_reducible apply State.fresh_frame
    | with_reducible apply State.event1_frame
    | with_reducible apply State.endRun_frame
    | with_reducible apply Within.ite
    | split
    | (with_reducible refine Within.of_pair (by assumption) ?_)

theorem State.spanPiece_frame {ps s t} slot r tile faults (h : Within ps s t) (hp : Part.sub [.regs, .holding, .evt, .nor, .host, .cmd, .ddp, .keys, .sig, .lfl, .map, .rep, .prg, .chan, .store, .mem, .free, .out, .hostWait] ps = true) : Within ps s (State.spanPiece t slot r tile faults) := by
  refine h.step (a := [.regs, .holding, .evt, .nor, .host, .cmd, .ddp, .keys, .sig, .lfl, .map, .rep, .prg, .chan, .store, .mem, .free, .out, .hostWait]) ?_ hp
  unfold State.spanPiece
  repeat' first
    | with_reducible exact Within.refl _ _
    | with_reducible assumption
    | (show Part.sub _ _ = true; rfl)
    | (extract_lets +onlyGivenNames x; with_reducible refine Within.cut (u := x) ?_ ?_; rotate_left; intro hx; clear_value x; rename' x => y; rotate_right; unfold x; clear x)
    | (extract_lets +onlyGivenNames x; clear_value x; rename' x => z)
    | (extract_lets +onlyGivenNames x; rename' x => z)
    | dsimp -zeta only
    | with_reducible apply State.noteUncorr_frame
    | with_reducible apply State.event1_frame
    | with_reducible apply State.countDecode_frame
    | with_reducible apply State.endRun_frame
    | with_reducible apply State.fetchSpan_frame
    | with_reducible apply State.spanBytes_frame
    | with_reducible apply State.spanSecond_frame
    | with_reducible apply State.spanFault_frame
    | with_reducible apply Within.ite
    | fail_if_no_progress (with_reducible refine Within.put (a := []) ?_ rfl rfl rfl rfl rfl)
    | split

theorem execPieceDeliver_frame run tile faults s : Lands [.regs, .holding, .evt, .nor, .host, .cmd, .ddp, .keys, .sig, .lfl, .map, .rep, .prg, .chan, .store, .mem, .free, .out, .hostWait] s (execPieceDeliver run tile faults s) := by
  unfold execPieceDeliver
  repeat' first
    | with_reducible exact Within.refl _ _
    | with_reducible assumption
    | (show Part.sub _ _ = true; rfl)
    | with_reducible apply Lands.next
    | dsimp -zeta only
    | with_reducible apply State.runPiece_frame
    | with_reducible apply State.spanPiece_frame
    | with_reducible apply Lands.ite
    | with_reducible apply Within.ite
    | fail_if_no_progress (with_reducible refine Within.put (a := []) ?_ rfl rfl rfl rfl rfl)
    | split

theorem execBudgetExceeded_frame run s : Lands [.block 4, .block 6, .block 19, .evt, .nor, .host, .cmd, .prg, .mem, .free, .out, .hostWait] s (execBudgetExceeded run s) := by
  unfold execBudgetExceeded
  repeat' first
    | with_reducible exact Within.refl _ _
    | with_reducible assumption
    | (show Part.sub _ _ = true; rfl)
    | with_reducible apply Lands.next
    | dsimp -zeta only
    | with_reducible apply State.stopBy_frame
    | with_reducible apply Lands.ite
    | with_reducible apply Within.ite
    | fail_if_no_progress (with_reducible refine Within.put (a := []) ?_ rfl rfl rfl rfl rfl)
    | split

theorem State.finishTile_frame {ps s t} slot tile (h : Within ps s t) (hp : Part.sub [.block 4, .block 6, .block 19, .evt, .nor, .host, .cmd, .prg, .mem, .free, .out, .hostWait] ps = true) : Within ps s (State.finishTile t slot tile) := by
  refine h.step (a := [.block 4, .block 6, .block 19, .evt, .nor, .host, .cmd, .prg, .mem, .free, .out, .hostWait]) ?_ hp
  unfold State.finishTile
  repeat' first
    | with_reducible exact Within.refl _ _
    | with_reducible assumption
    | (show Part.sub _ _ = true; rfl)
    | dsimp -zeta only
    | with_reducible apply State.runPiece_frame
    | with_reducible apply Within.ite
    | fail_if_no_progress (with_reducible refine Within.put (a := []) ?_ rfl rfl rfl rfl rfl)
    | split

theorem execRunComplete_frame run s : Lands [.block 4, .block 6, .block 19, .evt, .nor, .host, .cmd, .prg, .mem, .free, .out, .hostWait] s (execRunComplete run s) := by
  unfold execRunComplete
  repeat' first
    | with_reducible exact Within.refl _ _
    | with_reducible assumption
    | (show Part.sub _ _ = true; rfl)
    | with_reducible apply Lands.next
    | (extract_lets +onlyGivenNames x; with_reducible refine Lands.cut (u := x) ?_ ?_; rotate_left; intro hx; clear_value x; rename' x => y; rotate_right; unfold x; clear x)
    | (extract_lets +onlyGivenNames x; with_reducible refine Within.cut (u := x) ?_ ?_; rotate_left; intro hx; clear_value x; rename' x => y; rotate_right; unfold x; clear x)
    | (extract_lets +onlyGivenNames x; clear_value x; rename' x => z)
    | (extract_lets +onlyGivenNames x; rename' x => z)
    | dsimp -zeta only
    | with_reducible apply State.endRun_frame
    | with_reducible apply State.finishTile_frame
    | with_reducible apply Lands.ite
    | with_reducible apply Within.ite
    | (with_reducible refine Within.foldl _ ?_ ?_; rotate_left; intro _ _)
    | (with_reducible refine Within.foldl_snd _ ?_ ?_; rotate_left; intro _ _)
    | fail_if_no_progress (with_reducible refine Within.put (a := []) ?_ rfl rfl rfl rfl rfl)
    | split

theorem execProgramResults_frame tag s : Lands [.block 19, .ports, .trn, .cmd, .prg, .chan, .mem, .out] s (execProgramResults tag s) := by
  unfold execProgramResults
  repeat' first
    | with_reducible exact Within.refl _ _
    | with_reducible assumption
    | (show Part.sub _ _ = true; rfl)
    | with_reducible apply Lands.next
    | (extract_lets +onlyGivenNames x; with_reducible refine Lands.cut (u := x) ?_ ?_; rotate_left; intro hx; clear_value x; rename' x => y; rotate_right; unfold x; clear x)
    | (extract_lets +onlyGivenNames x; with_reducible refine Within.cut (u := x) ?_ ?_; rotate_left; intro hx; clear_value x; rename' x => y; rotate_right; unfold x; clear x)
    | (extract_lets +onlyGivenNames x; clear_value x; rename' x => z)
    | (extract_lets +onlyGivenNames x; rename' x => z)
    | dsimp -zeta only
    | with_reducible apply State.finish_frame
    | with_reducible apply State.noteRuns_frame
    | with_reducible apply State.begin_frame
    | with_reducible apply State.sendResult_frame
    | with_reducible apply State.addAcct_frame
    | intro _
    | with_reducible apply Lands.ite
    | with_reducible apply Within.ite
    | fail_if_no_progress (with_reducible refine Within.put (a := [.prg]) ?_ rfl rfl rfl rfl rfl)
    | split

theorem execResultKeepExpiry_frame run s : Lands [.block 4, .block 6, .block 19, .evt, .nor, .host, .prg, .out, .hostWait] s (execResultKeepExpiry run s) := by
  unfold execResultKeepExpiry
  repeat' first
    | with_reducible exact Within.refl _ _
    | with_reducible assumption
    | (show Part.sub _ _ = true; rfl)
    | with_reducible apply Lands.next
    | (extract_lets +onlyGivenNames x; with_reducible refine Lands.cut (u := x) ?_ ?_; rotate_left; intro hx; clear_value x; rename' x => y; rotate_right; unfold x; clear x)
    | (extract_lets +onlyGivenNames x; with_reducible refine Within.cut (u := x) ?_ ?_; rotate_left; intro hx; clear_value x; rename' x => y; rotate_right; unfold x; clear x)
    | (extract_lets +onlyGivenNames x; clear_value x; rename' x => z)
    | (extract_lets +onlyGivenNames x; rename' x => z)
    | dsimp -zeta only
    | with_reducible apply State.event1_frame
    | with_reducible apply State.noteRuns_frame
    | with_reducible apply Lands.ite
    | with_reducible apply Within.ite
    | fail_if_no_progress (with_reducible refine Within.put (a := [.prg]) ?_ rfl rfl rfl rfl rfl)
    | split

theorem State.leaveTile_frame {ps s t} slot tile r (h : Within ps s t) (hp : Part.sub [.block 4, .block 6, .block 19, .evt, .nor, .host, .cmd, .prg, .mem, .free, .out, .hostWait] ps = true) : Within ps s (State.leaveTile t slot tile r) := by
  refine h.step (a := [.block 4, .block 6, .block 19, .evt, .nor, .host, .cmd, .prg, .mem, .free, .out, .hostWait]) ?_ hp
  unfold State.leaveTile
  repeat' first
    | with_reducible exact Within.refl _ _
    | with_reducible assumption
    | (show Part.sub _ _ = true; rfl)
    | (extract_lets +onlyGivenNames x; with_reducible refine Within.cut (u := x) ?_ ?_; rotate_left; intro hx; clear_value x; rename' x => y; rotate_right; unfold x; clear x)
    | (extract_lets +onlyGivenNames x; clear_value x; rename' x => z)
    | (extract_lets +onlyGivenNames x; rename' x => z)
    | dsimp -zeta only
    | with_reducible apply State.event1_frame
    | with_reducible apply State.noteRuns_frame
    | with_reducible apply State.detachTap_frame
    | with_reducible apply State.endRun_frame
    | with_reducible apply State.regrant_frame
    | with_reducible apply Within.ite
    | (with_reducible refine Within.foldl _ ?_ ?_; rotate_left; intro _ _)
    | (with_reducible refine Within.foldl_snd _ ?_ ?_; rotate_left; intro _ _)
    | fail_if_no_progress (with_reducible refine Within.put (a := [.prg]) ?_ rfl rfl rfl rfl rfl)
    | split

theorem State.leaveRun_frame {ps s t} tile (h : Within ps s t) (hp : Part.sub [.block 4, .block 6, .block 19, .evt, .nor, .host, .cmd, .prg, .mem, .free, .out, .hostWait] ps = true) : Within ps s (State.leaveRun t tile) := by
  refine h.step (a := [.block 4, .block 6, .block 19, .evt, .nor, .host, .cmd, .prg, .mem, .free, .out, .hostWait]) ?_ hp
  unfold State.leaveRun
  repeat' first
    | with_reducible exact Within.refl _ _
    | with_reducible assumption
    | (show Part.sub _ _ = true; rfl)
    | dsimp -zeta only
    | with_reducible apply State.leaveTile_frame
    | with_reducible apply Within.ite
    | fail_if_no_progress (with_reducible refine Within.put (a := []) ?_ rfl rfl rfl rfl rfl)
    | split

theorem State.markFenced_frame {ps s t} tile (h : Within ps s t) (hp : Part.sub [.block 19] ps = true) : Within ps s (State.markFenced t tile) := by
  refine h.step (a := [.block 19]) ?_ hp
  unfold State.markFenced
  repeat' first
    | with_reducible exact Within.refl _ _
    | with_reducible assumption
    | (show Part.sub _ _ = true; rfl)
    | (extract_lets +onlyGivenNames x; with_reducible refine Within.cut (u := x) ?_ ?_; rotate_left; intro hx; clear_value x; rename' x => y; rotate_right; unfold x; clear x)
    | (extract_lets +onlyGivenNames x; clear_value x; rename' x => z)
    | (extract_lets +onlyGivenNames x; rename' x => z)
    | dsimp -zeta only
    | with_reducible apply State.wr_frame
    | with_reducible apply Within.ite
    | split

theorem State.fenceTile_frame {ps s t} tile (h : Within ps s t) (hp : Part.sub [.block 4, .block 6, .block 19, .evt, .nor, .host, .cmd, .prg, .mem, .free, .out, .hostWait] ps = true) : Within ps s (State.fenceTile t tile) := by
  refine h.step (a := [.block 4, .block 6, .block 19, .evt, .nor, .host, .cmd, .prg, .mem, .free, .out, .hostWait]) ?_ hp
  unfold State.fenceTile
  repeat' first
    | with_reducible exact Within.refl _ _
    | with_reducible assumption
    | (show Part.sub _ _ = true; rfl)
    | dsimp -zeta only
    | with_reducible apply State.event1_frame
    | with_reducible apply State.leaveRun_frame
    | with_reducible apply State.markFenced_frame
    | with_reducible apply Within.ite
    | split

theorem execTileFence_frame tile s : Lands [.block 4, .block 6, .block 19, .evt, .nor, .host, .cmd, .prg, .mem, .free, .out, .hostWait] s (execTileFence tile s) := by
  unfold execTileFence
  repeat' first
    | with_reducible exact Within.refl _ _
    | with_reducible assumption
    | (show Part.sub _ _ = true; rfl)
    | with_reducible apply Lands.next
    | dsimp -zeta only
    | with_reducible apply State.fenceTile_frame
    | with_reducible apply Lands.ite
    | with_reducible apply Within.ite
    | split

end Sys2Proof.Machine
end

