-- ==== Sys2Proof/Laws/FrameFaults.lean ====
section
/-!
SUPPORT. Laws/FrameFaults.lean: what the definitions of Machine/Faults.lean leave alone: each changes the listed parts at most, and keeps the
canonical form.
-/
namespace Sys2Proof.Machine
open Sys2Proof

set_option Elab.async false
set_option linter.all false

theorem State.cutLinks_frame {ps s t} q (h : Within ps s t) (hp : Part.sub [.regs, .holding, .evt, .nor, .host, .ports, .trn, .cmd, .ddp, .keys, .wc, .sig, .lfl, .map, .rep, .prg, .xrn, .chan, .own, .store, .mem, .free, .out, .hostWait] ps = true) : Within ps s (State.cutLinks t q) := by
  refine h.step (a := [.regs, .holding, .evt, .nor, .host, .ports, .trn, .cmd, .ddp, .keys, .wc, .sig, .lfl, .map, .rep, .prg, .xrn, .chan, .own, .store, .mem, .free, .out, .hostWait]) ?_ hp
  unfold State.cutLinks
  repeat' first
    | with_reducible exact Within.refl _ _
    | with_reducible assumption
    | (show Part.sub _ _ = true; rfl)
    | (extract_lets +onlyGivenNames x; with_reducible refine Within.cut (u := x) ?_ ?_; rotate_left; intro hx; clear_value x; rename' x => y; rotate_right; unfold x; clear x)
    | (extract_lets +onlyGivenNames x; clear_value x; rename' x => z)
    | (extract_lets +onlyGivenNames x; rename' x => z)
    | dsimp -zeta only
    | with_reducible apply State.ringLinkDown_frame
    | with_reducible apply State.dropHop_frame
    | with_reducible apply State.fenceTile_frame
    | with_reducible apply Within.ite
    | (with_reducible refine Within.foldl _ ?_ ?_; rotate_left; intro _ _)
    | (with_reducible refine Within.foldl_snd _ ?_ ?_; rotate_left; intro _ _)
    | fail_if_no_progress (with_reducible refine Within.put (a := []) ?_ rfl rfl rfl rfl rfl)
    | split

theorem State.abandonTest_frame {ps s t} q (h : Within ps s t) (hp : Part.sub [.block 4, .block 5, .block 6, .test, .evt, .nor, .host, .out, .hostWait] ps = true) : Within ps s (State.abandonTest t q) := by
  refine h.step (a := [.block 4, .block 5, .block 6, .test, .evt, .nor, .host, .out, .hostWait]) ?_ hp
  unfold State.abandonTest
  repeat' first
    | with_reducible exact Within.refl _ _
    | with_reducible assumption
    | (show Part.sub _ _ = true; rfl)
    | dsimp -zeta only
    | with_reducible apply State.wr_frame
    | with_reducible apply State.event1_frame
    | with_reducible apply Within.ite
    | fail_if_no_progress (with_reducible refine Within.put (a := [.test]) ?_ rfl rfl rfl rfl rfl)
    | split

theorem State.faultMeetsTest_frame {ps s t} q waking (h : Within ps s t) (hp : Part.sub [.block 4, .block 5, .block 6, .test, .evt, .nor, .host, .out, .hostWait] ps = true) : Within ps s (State.faultMeetsTest t q waking) := by
  refine h.step (a := [.block 4, .block 5, .block 6, .test, .evt, .nor, .host, .out, .hostWait]) ?_ hp
  unfold State.faultMeetsTest
  repeat' first
    | with_reducible exact Within.refl _ _
    | with_reducible assumption
    | (show Part.sub _ _ = true; rfl)
    | dsimp -zeta only
    | with_reducible apply State.wr_frame
    | with_reducible apply State.abandonTest_frame
    | with_reducible apply Within.ite
    | fail_if_no_progress (with_reducible refine Within.put (a := [.test]) ?_ rfl rfl rfl rfl rfl)
    | split

theorem State.takeUpWaking_frame {ps s t} failed duty (h : Within ps s t) (hp : Part.sub [.block 4, .block 6, .block 10, .block 13, .evt, .nor, .host, .ports, .trn, .cmd, .sig, .lfl, .map, .chan, .out, .hostWait] ps = true) : Within ps s (State.takeUpWaking t failed duty) := by
  refine h.step (a := [.block 4, .block 6, .block 10, .block 13, .evt, .nor, .host, .ports, .trn, .cmd, .sig, .lfl, .map, .chan, .out, .hostWait]) ?_ hp
  unfold State.takeUpWaking
  repeat' first
    | with_reducible exact Within.refl _ _
    | with_reducible assumption
    | (show Part.sub _ _ = true; rfl)
    | dsimp -zeta only
    | with_reducible apply State.releasePackets_frame
    | with_reducible apply State.redecode_frame
    | with_reducible apply State.scanLog_frame
    | with_reducible apply Within.ite
    | (with_reducible refine Within.foldl _ ?_ ?_; rotate_left; intro _ _)
    | (with_reducible refine Within.foldl_snd _ ?_ ?_; rotate_left; intro _ _)
    | fail_if_no_progress (with_reducible refine Within.put (a := [.sig]) ?_ rfl rfl rfl rfl rfl)
    | split

theorem State.rotationCover_frame {ps s t} q (h : Within ps s t) (hp : Part.sub [.regs, .holding, .pins, .power, .test, .evt, .nor, .host, .ports, .trn, .cmd, .ddp, .keys, .sig, .lfl, .map, .chan, .out, .hostWait] ps = true) : Within ps s (State.rotationCover t q) := by
  refine h.step (a := [.regs, .holding, .pins, .power, .test, .evt, .nor, .host, .ports, .trn, .cmd, .ddp, .keys, .sig, .lfl, .map, .chan, .out, .hostWait]) ?_ hp
  unfold State.rotationCover
  repeat' first
    | with_reducible exact Within.refl _ _
    | with_reducible assumption
    | (show Part.sub _ _ = true; rfl)
    | (extract_lets +onlyGivenNames x; with_reducible refine Within.cut (u := x) ?_ ?_; rotate_left; intro hx; clear_value x; rename' x => y; rotate_right; unfold x; clear x)
    | (extract_lets +onlyGivenNames x; clear_value x; rename' x => z)
    | (extract_lets +onlyGivenNames x; rename' x => z)
    | dsimp -zeta only
    | with_reducible apply State.event_frame
    | with_reducible apply State.takeUpWork_frame
    | with_reducible apply State.fenceOnly_frame
    | with_reducible apply State.fence_frame
    | with_reducible apply State.takeUpWaking_frame
    | with_reducible apply Within.ite
    | split

theorem State.quarterFault_frame {ps s t} q (h : Within ps s t) (hp : Part.sub (.regs :: .holding :: .pins :: .power :: .test :: .evt :: .nor :: .host :: .ports :: .trn :: .cmd :: .bnd :: .ddp :: .keys :: .wc :: .sig :: .lfl :: .map :: .rep :: .prg :: .xrn :: .chan :: .own :: .store :: .mem :: .free :: .out :: .hostWait :: []) ps = true) : Within ps s (State.quarterFault t q) := by
  refine h.step (a := (.regs :: .holding :: .pins :: .power :: .test :: .evt :: .nor :: .host :: .ports :: .trn :: .cmd :: .bnd :: .ddp :: .keys :: .wc :: .sig :: .lfl :: .map :: .rep :: .prg :: .xrn :: .chan :: .own :: .store :: .mem :: .free :: .out :: .hostWait :: [])) ?_ hp
  unfold State.quarterFault
  repeat' first
    | with_reducible exact Within.refl _ _
    | with_reducible assumption
    | (show Part.sub _ _ = true; rfl)
    | (extract_lets +onlyGivenNames x; with_reducible refine Within.cut (u := x) ?_ ?_; rotate_left; intro hx; clear_value x; rename' x => y; rotate_right; unfold x; clear x)
    | (extract_lets +onlyGivenNames x; clear_value x; rename' x => z)
    | (extract_lets +onlyGivenNames x; rename' x => z)
    | dsimp -zeta only
    | with_reducible apply State.headLoss_frame
    | with_reducible apply State.pumpLanes_frame
    | with_reducible apply State.cutLinks_frame
    | with_reducible apply State.faultMeetsTest_frame
    | with_reducible apply State.rotationCover_frame
    | with_reducible apply Within.ite
    | split

theorem execRecallTimeout_frame quarter s : Lands (.regs :: .holding :: .pins :: .power :: .test :: .evt :: .nor :: .host :: .ports :: .trn :: .cmd :: .bnd :: .ddp :: .keys :: .wc :: .sig :: .lfl :: .map :: .rep :: .prg :: .xrn :: .chan :: .own :: .store :: .mem :: .free :: .out :: .hostWait :: []) s (execRecallTimeout quarter s) := by
  unfold execRecallTimeout
  repeat' first
    | with_reducible exact Within.refl _ _
    | with_reducible assumption
    | (show Part.sub _ _ = true; rfl)
    | with_reducible apply Lands.next
    | dsimp -zeta only
    | with_reducible apply State.event1_frame
    | with_reducible apply State.quarterFault_frame
    | with_reducible apply Lands.ite
    | with_reducible apply Within.ite
    | split

theorem execQuarterFault_frame quarter cause s : Lands (.regs :: .holding :: .pins :: .power :: .test :: .evt :: .nor :: .host :: .ports :: .trn :: .cmd :: .bnd :: .ddp :: .keys :: .wc :: .sig :: .lfl :: .map :: .rep :: .prg :: .xrn :: .chan :: .own :: .store :: .mem :: .free :: .out :: .hostWait :: []) s (execQuarterFault quarter cause s) := by
  unfold execQuarterFault
  repeat' first
    | with_reducible exact Within.refl _ _
    | with_reducible assumption
    | (show Part.sub _ _ = true; rfl)
    | with_reducible apply Lands.next
    | (extract_lets +onlyGivenNames x; with_reducible refine Lands.cut (u := x) ?_ ?_; rotate_left; intro hx; clear_value x; rename' x => y; rotate_right; unfold x; clear x)
    | (extract_lets +onlyGivenNames x; with_reducible refine Within.cut (u := x) ?_ ?_; rotate_left; intro hx; clear_value x; rename' x => y; rotate_right; unfold x; clear x)
    | (extract_lets +onlyGivenNames x; clear_value x; rename' x => z)
    | (extract_lets +onlyGivenNames x; rename' x => z)
    | dsimp -zeta only
    | with_reducible apply State.wr_frame
    | with_reducible apply State.event1_frame
    | with_reducible apply State.quarterFault_frame
    | with_reducible apply Lands.ite
    | with_reducible apply Within.ite
    | fail_if_no_progress (with_reducible refine Within.put (a := []) ?_ rfl rfl rfl rfl rfl)
    | split

theorem execQuarterClockFault_frame quarter s : Lands (.regs :: .holding :: .pins :: .power :: .test :: .evt :: .nor :: .host :: .ports :: .trn :: .cmd :: .bnd :: .ddp :: .keys :: .wc :: .sig :: .lfl :: .map :: .rep :: .prg :: .xrn :: .chan :: .own :: .store :: .mem :: .free :: .out :: .hostWait :: []) s (execQuarterClockFault quarter s) := by
  unfold execQuarterClockFault
  repeat' first
    | with_reducible exact Within.refl _ _
    | with_reducible assumption
    | (show Part.sub _ _ = true; rfl)
    | with_reducible apply Lands.next
    | dsimp -zeta only
    | with_reducible apply State.event1_frame
    | with_reducible apply State.quarterFault_frame
    | with_reducible apply Lands.ite
    | with_reducible apply Within.ite
    | split

theorem execQuarterWakeDone_frame quarter s : Lands [.block 1, .block 4, .block 6, .block 9, .block 10, .block 11, .block 13, .block 19, .power, .evt, .nor, .host, .ports, .trn, .cmd, .sig, .lfl, .map, .chan, .out, .hostWait] s (execQuarterWakeDone quarter s) := by
  unfold execQuarterWakeDone
  repeat' first
    | with_reducible exact Within.refl _ _
    | with_reducible assumption
    | (show Part.sub _ _ = true; rfl)
    | with_reducible apply Lands.next
    | (extract_lets +onlyGivenNames x; with_reducible refine Lands.cut (u := x) ?_ ?_; rotate_left; intro hx; clear_value x; rename' x => y; rotate_right; unfold x; clear x)
    | (extract_lets +onlyGivenNames x; with_reducible refine Within.cut (u := x) ?_ ?_; rotate_left; intro hx; clear_value x; rename' x => y; rotate_right; unfold x; clear x)
    | (extract_lets +onlyGivenNames x; clear_value x; rename' x => z)
    | (extract_lets +onlyGivenNames x; rename' x => z)
    | dsimp -zeta only
    | with_reducible apply State.event_frame
    | with_reducible apply State.setQuarter_frame
    | with_reducible apply State.unitsIn_frame
    | with_reducible apply State.wake_frame
    | with_reducible apply State.endQCmd_frame
    | with_reducible apply State.rotateNow_frame
    | with_reducible apply State.takeUpWaking_frame
    | with_reducible apply Lands.ite
    | with_reducible apply Within.ite
    | fail_if_no_progress (with_reducible refine Within.put (a := [.power]) ?_ rfl rfl rfl rfl rfl)
    | split

theorem State.darkenAll_frame {ps s t}  (h : Within ps s t) (hp : Part.sub [.regs, .holding, .power, .evt, .nor, .host, .ports, .trn, .cmd, .ddp, .keys, .wc, .sig, .lfl, .map, .rep, .prg, .xrn, .chan, .own, .store, .mem, .free, .out, .hostWait] ps = true) : Within ps s (State.darkenAll t) := by
  refine h.step (a := [.regs, .holding, .power, .evt, .nor, .host, .ports, .trn, .cmd, .ddp, .keys, .wc, .sig, .lfl, .map, .rep, .prg, .xrn, .chan, .own, .store, .mem, .free, .out, .hostWait]) ?_ hp
  unfold State.darkenAll
  repeat' first
    | with_reducible exact Within.refl _ _
    | with_reducible assumption
    | (show Part.sub _ _ = true; rfl)
    | dsimp -zeta only
    | with_reducible apply State.fenceAll_frame
    | with_reducible apply State.cutLinks_frame
    | with_reducible apply Within.ite
    | (with_reducible refine Within.foldl _ ?_ ?_; rotate_left; intro _ _)
    | (with_reducible refine Within.foldl_snd _ ?_ ?_; rotate_left; intro _ _)
    | split

theorem State.markTrip_frame {ps s t}  (h : Within ps s t) (hp : Part.sub [.pins, .nor] ps = true) : Within ps s (State.markTrip t) := by
  refine h.step (a := [.pins, .nor]) ?_ hp
  unfold State.markTrip
  repeat' first
    | with_reducible exact Within.refl _ _
    | with_reducible assumption
    | (show Part.sub _ _ = true; rfl)
    | dsimp -zeta only
    | with_reducible apply Within.ite
    | fail_if_no_progress (with_reducible refine Within.put (a := [.pins, .nor]) ?_ rfl rfl rfl rfl rfl)
    | split

theorem State.thermalTrip_frame {ps s t}  (h : Within ps s t) (hp : Part.sub [.regs, .holding, .pins, .power, .evt, .nor, .host, .ports, .trn, .cmd, .ddp, .keys, .wc, .sig, .lfl, .map, .rep, .prg, .xrn, .chan, .own, .store, .mem, .free, .out, .hostWait] ps = true) : Within ps s (State.thermalTrip t) := by
  refine h.step (a := [.regs, .holding, .pins, .power, .evt, .nor, .host, .ports, .trn, .cmd, .ddp, .keys, .wc, .sig, .lfl, .map, .rep, .prg, .xrn, .chan, .own, .store, .mem, .free, .out, .hostWait]) ?_ hp
  unfold State.thermalTrip
  repeat' first
    | with_reducible exact Within.refl _ _
    | with_reducible assumption
    | (show Part.sub _ _ = true; rfl)
    | dsimp -zeta only
    | with_reducible apply State.event_frame
    | with_reducible apply State.headLoss_frame
    | with_reducible apply State.darkenAll_frame
    | with_reducible apply State.markTrip_frame
    | with_reducible apply Within.ite
    | split

theorem State.thermalChange_frame {ps s t} old new (h : Within ps s t) (hp : Part.sub [.regs, .holding, .pins, .power, .evt, .nor, .host, .ports, .trn, .cmd, .ddp, .keys, .wc, .sig, .lfl, .map, .rep, .prg, .xrn, .chan, .own, .store, .mem, .free, .out, .hostWait] ps = true) : Within ps s (State.thermalChange t old new) := by
  refine h.step (a := [.regs, .holding, .pins, .power, .evt, .nor, .host, .ports, .trn, .cmd, .ddp, .keys, .wc, .sig, .lfl, .map, .rep, .prg, .xrn, .chan, .own, .store, .mem, .free, .out, .hostWait]) ?_ hp
  unfold State.thermalChange
  repeat' first
    | with_reducible exact Within.refl _ _
    | with_reducible assumption
    | (show Part.sub _ _ = true; rfl)
    | dsimp -zeta only
    | with_reducible apply State.event_frame
    | with_reducible apply State.recallUpper_frame
    | with_reducible apply State.thermalTrip_frame
    | with_reducible apply Within.ite
    | fail_if_no_progress (with_reducible refine Within.put (a := []) ?_ rfl rfl rfl rfl rfl)
    | split

theorem execThermalSample_frame temps s : Lands [.regs, .holding, .pins, .power, .evt, .nor, .host, .ports, .trn, .cmd, .ddp, .keys, .wc, .sig, .lfl, .map, .rep, .prg, .xrn, .chan, .own, .store, .mem, .free, .out, .hostWait] s (execThermalSample temps s) := by
  unfold execThermalSample
  repeat' first
    | with_reducible exact Within.refl _ _
    | with_reducible assumption
    | (show Part.sub _ _ = true; rfl)
    | with_reducible apply Lands.next
    | (extract_lets +onlyGivenNames x; with_reducible refine Lands.cut (u := x) ?_ ?_; rotate_left; intro hx; clear_value x; rename' x => y; rotate_right; unfold x; clear x)
    | (extract_lets +onlyGivenNames x; with_reducible refine Within.cut (u := x) ?_ ?_; rotate_left; intro hx; clear_value x; rename' x => y; rotate_right; unfold x; clear x)
    | (extract_lets +onlyGivenNames x; clear_value x; rename' x => z)
    | (extract_lets +onlyGivenNames x; rename' x => z)
    | dsimp -zeta only
    | with_reducible apply State.settleBudget_frame
    | with_reducible apply State.sampleSensor_frame
    | with_reducible apply State.setThermal_frame
    | with_reducible apply State.showHottest_frame
    | with_reducible apply State.thermalChange_frame
    | with_reducible apply Lands.ite
    | with_reducible apply Within.ite
    | (with_reducible refine Within.foldl _ ?_ ?_; rotate_left; intro _ _)
    | (with_reducible refine Within.foldl_snd _ ?_ ?_; rotate_left; intro _ _)
    | split

theorem execCanaryError_frame quarter s : Lands (.regs :: .holding :: .pins :: .power :: .test :: .evt :: .nor :: .host :: .ports :: .trn :: .cmd :: .bnd :: .ddp :: .keys :: .wc :: .sig :: .lfl :: .map :: .rep :: .prg :: .xrn :: .chan :: .own :: .store :: .mem :: .free :: .out :: .hostWait :: []) s (execCanaryError quarter s) := by
  unfold execCanaryError
  repeat' first
    | with_reducible exact Within.refl _ _
    | with_reducible assumption
    | (show Part.sub _ _ = true; rfl)
    | with_reducible apply Lands.next
    | (extract_lets +onlyGivenNames x; with_reducible refine Lands.cut (u := x) ?_ ?_; rotate_left; intro hx; clear_value x; rename' x => y; rotate_right; unfold x; clear x)
    | (extract_lets +onlyGivenNames x; with_reducible refine Within.cut (u := x) ?_ ?_; rotate_left; intro hx; clear_value x; rename' x => y; rotate_right; unfold x; clear x)
    | (extract_lets +onlyGivenNames x; clear_value x; rename' x => z)
    | (extract_lets +onlyGivenNames x; rename' x => z)
    | dsimp -zeta only
    | with_reducible apply State.bump_frame
    | with_reducible apply State.raise_frame
    | with_reducible apply State.event1_frame
    | with_reducible apply State.setVolt_frame
    | with_reducible apply State.quarterFault_frame
    | with_reducible apply Lands.ite
    | with_reducible apply Within.ite
    | split

end Sys2Proof.Machine
end

