-- ==== Sys2Proof/Laws/FrameSelfTest.lean ====
section
/-!
SUPPORT. Laws/FrameSelfTest.lean: what the definitions of Machine/SelfTest.lean leave alone: each changes the listed parts at most, and keeps the
canonical form.
-/
namespace Sys2Proof.Machine
open Sys2Proof

set_option Elab.async false
set_option linter.all false

theorem State.startTest_frame {ps s t} j (h : Within ps s t) (hp : Part.sub [.block 5, .test] ps = true) : Within ps s (State.startTest t j) := by
  refine h.step (a := [.block 5, .test]) ?_ hp
  unfold State.startTest
  repeat' first
    | with_reducible exact Within.refl _ _
    | with_reducible assumption
    | (show Part.sub _ _ = true; rfl)
    | dsimp -zeta only
    | with_reducible apply State.wr_frame
    | with_reducible apply Within.ite
    | fail_if_no_progress (with_reducible refine Within.put (a := [.test]) ?_ rfl rfl rfl rfl rfl)
    | split

theorem State.endTest_frame {ps s t} status (h : Within ps s t) (hp : Part.sub [.block 5, .test] ps = true) : Within ps s (State.endTest t status) := by
  refine h.step (a := [.block 5, .test]) ?_ hp
  unfold State.endTest
  repeat' first
    | with_reducible exact Within.refl _ _
    | with_reducible assumption
    | (show Part.sub _ _ = true; rfl)
    | dsimp -zeta only
    | with_reducible apply State.wr_frame
    | with_reducible apply Within.ite
    | fail_if_no_progress (with_reducible refine Within.put (a := [.test]) ?_ rfl rfl rfl rfl rfl)
    | split

theorem State.refuseTest_frame {ps s t}  (h : Within ps s t) (hp : Part.sub [.block 5] ps = true) : Within ps s (State.refuseTest t) := by
  refine h.step (a := [.block 5]) ?_ hp
  unfold State.refuseTest
  repeat' first
    | with_reducible exact Within.refl _ _
    | with_reducible assumption
    | (show Part.sub _ _ = true; rfl)
    | dsimp -zeta only
    | with_reducible apply State.wr_frame
    | with_reducible apply Within.ite
    | split

theorem State.startRotation_frame {ps s t} a b (h : Within ps s t) (hp : Part.sub [.block 5, .power, .test] ps = true) : Within ps s (State.startRotation t a b) := by
  refine h.step (a := [.block 5, .power, .test]) ?_ hp
  unfold State.startRotation
  repeat' first
    | with_reducible exact Within.refl _ _
    | with_reducible assumption
    | (show Part.sub _ _ = true; rfl)
    | dsimp -zeta only
    | with_reducible apply State.wake_frame
    | with_reducible apply State.startTest_frame
    | with_reducible apply Within.ite
    | split

theorem State.startStandbyTest_frame {ps s t} b (h : Within ps s t) (hp : Part.sub [.block 5, .power, .test] ps = true) : Within ps s (State.startStandbyTest t b) := by
  refine h.step (a := [.block 5, .power, .test]) ?_ hp
  unfold State.startStandbyTest
  repeat' first
    | with_reducible exact Within.refl _ _
    | with_reducible assumption
    | (show Part.sub _ _ = true; rfl)
    | dsimp -zeta only
    | with_reducible apply State.setQuarter_frame
    | with_reducible apply State.wake_frame
    | with_reducible apply State.startTest_frame
    | with_reducible apply Within.ite
    | fail_if_no_progress (with_reducible refine Within.put (a := []) ?_ rfl rfl rfl rfl rfl)
    | split

theorem State.startDirect_frame {ps s t} q (h : Within ps s t) (hp : Part.sub [.block 5, .block 11, .block 19, .power, .test] ps = true) : Within ps s (State.startDirect t q) := by
  refine h.step (a := [.block 5, .block 11, .block 19, .power, .test]) ?_ hp
  unfold State.startDirect
  repeat' first
    | with_reducible exact Within.refl _ _
    | with_reducible assumption
    | (show Part.sub _ _ = true; rfl)
    | dsimp -zeta only
    | with_reducible apply State.setQuarter_frame
    | with_reducible apply State.unitsOut_frame
    | with_reducible apply State.startTest_frame
    | with_reducible apply Within.ite
    | fail_if_no_progress (with_reducible refine Within.put (a := []) ?_ rfl rfl rfl rfl rfl)
    | split

theorem State.testInService_frame {ps s t} q force (h : Within ps s t) (hp : Part.sub [.regs, .holding, .power, .test, .evt, .nor, .host, .ports, .trn, .cmd, .ddp, .keys, .wc, .sig, .lfl, .map, .rep, .prg, .xrn, .chan, .own, .store, .mem, .free, .out, .hostWait] ps = true) : Within ps s (State.testInService t q force) := by
  refine h.step (a := [.regs, .holding, .power, .test, .evt, .nor, .host, .ports, .trn, .cmd, .ddp, .keys, .wc, .sig, .lfl, .map, .rep, .prg, .xrn, .chan, .own, .store, .mem, .free, .out, .hostWait]) ?_ hp
  unfold State.testInService
  repeat' first
    | with_reducible exact Within.refl _ _
    | with_reducible assumption
    | (show Part.sub _ _ = true; rfl)
    | (extract_lets +onlyGivenNames x; with_reducible refine Within.cut (u := x) ?_ ?_; rotate_left; intro hx; clear_value x; rename' x => y; rotate_right; unfold x; clear x)
    | (extract_lets +onlyGivenNames x; clear_value x; rename' x => z)
    | (extract_lets +onlyGivenNames x; rename' x => z)
    | dsimp -zeta only
    | with_reducible apply State.dropPort_frame
    | with_reducible apply State.cutLinks_frame
    | with_reducible apply State.refuseTest_frame
    | with_reducible apply State.startRotation_frame
    | with_reducible apply State.startDirect_frame
    | with_reducible apply Within.ite
    | fail_if_no_progress (with_reducible refine Within.put (a := []) ?_ rfl rfl rfl rfl rfl)
    | split

theorem execTestQuarter_frame quarter force s : Lands [.regs, .holding, .power, .test, .evt, .nor, .host, .ports, .trn, .cmd, .ddp, .keys, .wc, .sig, .lfl, .map, .rep, .prg, .xrn, .chan, .own, .store, .mem, .free, .out, .hostWait] s (execTestQuarter quarter force s) := by
  unfold execTestQuarter
  repeat' first
    | with_reducible exact Within.refl _ _
    | with_reducible assumption
    | (show Part.sub _ _ = true; rfl)
    | with_reducible apply Lands.next
    | (extract_lets +onlyGivenNames x; with_reducible refine Lands.cut (u := x) ?_ ?_; rotate_left; intro hx; clear_value x; rename' x => y; rotate_right; unfold x; clear x)
    | (extract_lets +onlyGivenNames x; with_reducible refine Within.cut (u := x) ?_ ?_; rotate_left; intro hx; clear_value x; rename' x => y; rotate_right; unfold x; clear x)
    | (extract_lets +onlyGivenNames x; clear_value x; rename' x => z)
    | (extract_lets +onlyGivenNames x; rename' x => z)
    | dsimp -zeta only
    | with_reducible apply State.setQuarter_frame
    | with_reducible apply State.wake_frame
    | with_reducible apply State.startTest_frame
    | with_reducible apply State.refuseTest_frame
    | with_reducible apply State.startStandbyTest_frame
    | with_reducible apply State.testInService_frame
    | with_reducible apply Lands.ite
    | with_reducible apply Within.ite
    | fail_if_no_progress (with_reducible refine Within.put (a := []) ?_ rfl rfl rfl rfl rfl)
    | split

theorem execTestUnit_frame quarter unit s : Lands [.block 5, .block 19, .test] s (execTestUnit quarter unit s) := by
  unfold execTestUnit
  repeat' first
    | with_reducible exact Within.refl _ _
    | with_reducible assumption
    | (show Part.sub _ _ = true; rfl)
    | with_reducible apply Lands.next
    | (extract_lets +onlyGivenNames x; with_reducible refine Lands.cut (u := x) ?_ ?_; rotate_left; intro hx; clear_value x; rename' x => y; rotate_right; unfold x; clear x)
    | (extract_lets +onlyGivenNames x; with_reducible refine Within.cut (u := x) ?_ ?_; rotate_left; intro hx; clear_value x; rename' x => y; rotate_right; unfold x; clear x)
    | (extract_lets +onlyGivenNames x; clear_value x; rename' x => z)
    | (extract_lets +onlyGivenNames x; rename' x => z)
    | dsimp -zeta only
    | with_reducible apply State.wr_frame
    | with_reducible apply State.startTest_frame
    | with_reducible apply State.refuseTest_frame
    | with_reducible apply Lands.ite
    | with_reducible apply Within.ite
    | fail_if_no_progress (with_reducible refine Within.put (a := []) ?_ rfl rfl rfl rfl rfl)
    | split

theorem execTestStandby_frame quarter s : Lands [.block 5, .power, .test] s (execTestStandby quarter s) := by
  unfold execTestStandby
  repeat' first
    | with_reducible exact Within.refl _ _
    | with_reducible assumption
    | (show Part.sub _ _ = true; rfl)
    | with_reducible apply Lands.next
    | dsimp -zeta only
    | with_reducible apply State.refuseTest_frame
    | with_reducible apply State.startStandbyTest_frame
    | with_reducible apply Lands.ite
    | with_reducible apply Within.ite
    | fail_if_no_progress (with_reducible refine Within.put (a := []) ?_ rfl rfl rfl rfl rfl)
    | split

theorem State.countTest_frame {ps s t} q pass (h : Within ps s t) (hp : Part.sub [.block 5] ps = true) : Within ps s (State.countTest t q pass) := by
  refine h.step (a := [.block 5]) ?_ hp
  unfold State.countTest
  repeat' first
    | with_reducible exact Within.refl _ _
    | with_reducible assumption
    | (show Part.sub _ _ = true; rfl)
    | dsimp -zeta only
    | with_reducible apply State.wr_frame
    | with_reducible apply State.bump_frame
    | with_reducible apply Within.ite
    | split

theorem State.becomeStandby_frame {ps s t} q (h : Within ps s t) (hp : Part.sub [.block 1, .power] ps = true) : Within ps s (State.becomeStandby t q) := by
  refine h.step (a := [.block 1, .power]) ?_ hp
  unfold State.becomeStandby
  repeat' first
    | with_reducible exact Within.refl _ _
    | with_reducible assumption
    | (show Part.sub _ _ = true; rfl)
    | dsimp -zeta only
    | with_reducible apply State.setQuarter_frame
    | with_reducible apply State.returnTokens_frame
    | with_reducible apply Within.ite
    | split

theorem State.failTest_frame {ps s t} q (h : Within ps s t) (hp : Part.sub [.block 1, .block 4, .block 5, .block 6, .block 11, .block 19, .power, .test, .evt, .nor, .host, .out, .hostWait] ps = true) : Within ps s (State.failTest t q) := by
  refine h.step (a := [.block 1, .block 4, .block 5, .block 6, .block 11, .block 19, .power, .test, .evt, .nor, .host, .out, .hostWait]) ?_ hp
  unfold State.failTest
  repeat' first
    | with_reducible exact Within.refl _ _
    | with_reducible assumption
    | (show Part.sub _ _ = true; rfl)
    | dsimp -zeta only
    | with_reducible apply State.event1_frame
    | with_reducible apply State.fenceOnly_frame
    | with_reducible apply State.endTest_frame
    | with_reducible apply Within.ite
    | split

theorem State.backInService_frame {ps s t} q (h : Within ps s t) (hp : Part.sub [.block 11, .block 19, .power] ps = true) : Within ps s (State.backInService t q) := by
  refine h.step (a := [.block 11, .block 19, .power]) ?_ hp
  unfold State.backInService
  repeat' first
    | with_reducible exact Within.refl _ _
    | with_reducible assumption
    | (show Part.sub _ _ = true; rfl)
    | (extract_lets +onlyGivenNames x; with_reducible refine Within.cut (u := x) ?_ ?_; rotate_left; intro hx; clear_value x; rename' x => y; rotate_right; unfold x; clear x)
    | (extract_lets +onlyGivenNames x; clear_value x; rename' x => z)
    | (extract_lets +onlyGivenNames x; rename' x => z)
    | dsimp -zeta only
    | with_reducible apply State.wr_frame
    | with_reducible apply State.setQuarter_frame
    | with_reducible apply State.unitsIn_frame
    | with_reducible apply Within.ite
    | fail_if_no_progress (with_reducible refine Within.put (a := []) ?_ rfl rfl rfl rfl rfl)
    | split

theorem execTestComplete_frame pass s : Lands [.block 1, .block 4, .block 5, .block 6, .block 11, .block 19, .power, .test, .evt, .nor, .host, .out, .hostWait] s (execTestComplete pass s) := by
  unfold execTestComplete
  repeat' first
    | with_reducible exact Within.refl _ _
    | with_reducible assumption
    | (show Part.sub _ _ = true; rfl)
    | with_reducible apply Lands.next
    | (extract_lets +onlyGivenNames x; with_reducible refine Lands.cut (u := x) ?_ ?_; rotate_left; intro hx; clear_value x; rename' x => y; rotate_right; unfold x; clear x)
    | (extract_lets +onlyGivenNames x; with_reducible refine Within.cut (u := x) ?_ ?_; rotate_left; intro hx; clear_value x; rename' x => y; rotate_right; unfold x; clear x)
    | (extract_lets +onlyGivenNames x; clear_value x; rename' x => z)
    | (extract_lets +onlyGivenNames x; rename' x => z)
    | dsimp -zeta only
    | with_reducible apply State.wr_frame
    | with_reducible apply State.event_frame
    | with_reducible apply State.event1_frame
    | with_reducible apply State.setQuarter_frame
    | with_reducible apply State.endTest_frame
    | with_reducible apply State.countTest_frame
    | with_reducible apply State.becomeStandby_frame
    | with_reducible apply State.failTest_frame
    | with_reducible apply State.backInService_frame
    | with_reducible apply Lands.ite
    | with_reducible apply Within.ite
    | fail_if_no_progress (with_reducible refine Within.put (a := []) ?_ rfl rfl rfl rfl rfl)
    | split

theorem execRotationTimer_frame kind s : Lands [.block 5, .power, .test] s (execRotationTimer kind s) := by
  unfold execRotationTimer
  repeat' first
    | with_reducible exact Within.refl _ _
    | with_reducible assumption
    | (show Part.sub _ _ = true; rfl)
    | with_reducible apply Lands.next
    | dsimp -zeta only
    | with_reducible apply State.startRotation_frame
    | with_reducible apply Lands.ite
    | with_reducible apply Within.ite
    | fail_if_no_progress (with_reducible refine Within.put (a := []) ?_ rfl rfl rfl rfl rfl)
    | split

theorem execStandbyTestTimer_frame kind s : Lands [.block 5, .power, .test] s (execStandbyTestTimer kind s) := by
  unfold execStandbyTestTimer
  repeat' first
    | with_reducible exact Within.refl _ _
    | with_reducible assumption
    | (show Part.sub _ _ = true; rfl)
    | with_reducible apply Lands.next
    | dsimp -zeta only
    | with_reducible apply State.startStandbyTest_frame
    | with_reducible apply Lands.ite
    | with_reducible apply Within.ite
    | fail_if_no_progress (with_reducible refine Within.put (a := []) ?_ rfl rfl rfl rfl rfl)
    | split

theorem State.loseChannel_frame {ps s t} c (h : Within ps s t) (hp : Part.sub [.block 4, .block 6, .pins, .power, .test, .evt, .nor, .host, .out, .hostWait] ps = true) : Within ps s (State.loseChannel t c) := by
  refine h.step (a := [.block 4, .block 6, .pins, .power, .test, .evt, .nor, .host, .out, .hostWait]) ?_ hp
  unfold State.loseChannel
  repeat' first
    | with_reducible exact Within.refl _ _
    | with_reducible assumption
    | (show Part.sub _ _ = true; rfl)
    | (extract_lets +onlyGivenNames x; with_reducible refine Within.cut (u := x) ?_ ?_; rotate_left; intro hx; clear_value x; rename' x => y; rotate_right; unfold x; clear x)
    | (extract_lets +onlyGivenNames x; clear_value x; rename' x => z)
    | (extract_lets +onlyGivenNames x; rename' x => z)
    | dsimp -zeta only
    | with_reducible apply State.event1_frame
    | with_reducible apply State.headLoss_frame
    | with_reducible apply Within.ite
    | fail_if_no_progress (with_reducible refine Within.put (a := [.test]) ?_ rfl rfl rfl rfl rfl)
    | split

theorem State.calibrated_frame {ps s t} c good (h : Within ps s t) (hp : Part.sub [.block 4, .block 6, .pins, .power, .test, .evt, .nor, .host, .out, .hostWait] ps = true) : Within ps s (State.calibrated t c good) := by
  refine h.step (a := [.block 4, .block 6, .pins, .power, .test, .evt, .nor, .host, .out, .hostWait]) ?_ hp
  unfold State.calibrated
  repeat' first
    | with_reducible exact Within.refl _ _
    | with_reducible assumption
    | (show Part.sub _ _ = true; rfl)
    | dsimp -zeta only
    | with_reducible apply State.loseChannel_frame
    | with_reducible apply Within.ite
    | fail_if_no_progress (with_reducible refine Within.put (a := [.test]) ?_ rfl rfl rfl rfl rfl)
    | split

theorem execCalibrateChannel_frame channel good s : Lands [.block 4, .block 5, .block 6, .pins, .power, .test, .evt, .nor, .host, .out, .hostWait] s (execCalibrateChannel channel good s) := by
  unfold execCalibrateChannel
  repeat' first
    | with_reducible exact Within.refl _ _
    | with_reducible assumption
    | (show Part.sub _ _ = true; rfl)
    | with_reducible apply Lands.next
    | (extract_lets +onlyGivenNames x; with_reducible refine Lands.cut (u := x) ?_ ?_; rotate_left; intro hx; clear_value x; rename' x => y; rotate_right; unfold x; clear x)
    | (extract_lets +onlyGivenNames x; with_reducible refine Within.cut (u := x) ?_ ?_; rotate_left; intro hx; clear_value x; rename' x => y; rotate_right; unfold x; clear x)
    | (extract_lets +onlyGivenNames x; clear_value x; rename' x => z)
    | (extract_lets +onlyGivenNames x; rename' x => z)
    | dsimp -zeta only
    | with_reducible apply State.wr_frame
    | with_reducible apply State.event1_frame
    | with_reducible apply State.refuseTest_frame
    | with_reducible apply State.calibrated_frame
    | with_reducible apply Lands.ite
    | with_reducible apply Within.ite
    | split

theorem execDdrCalibration_frame channel good s : Lands [.block 4, .block 6, .pins, .power, .test, .evt, .nor, .host, .out, .hostWait] s (execDdrCalibration channel good s) := by
  unfold execDdrCalibration
  repeat' first
    | with_reducible exact Within.refl _ _
    | with_reducible assumption
    | (show Part.sub _ _ = true; rfl)
    | with_reducible apply Lands.next
    | dsimp -zeta only
    | with_reducible apply State.calibrated_frame
    | with_reducible apply Lands.ite
    | with_reducible apply Within.ite
    | split

theorem execDdrChannelLost_frame channel s : Lands [.block 4, .block 6, .pins, .power, .test, .evt, .nor, .host, .out, .hostWait] s (execDdrChannelLost channel s) := by
  unfold execDdrChannelLost
  repeat' first
    | with_reducible exact Within.refl _ _
    | with_reducible assumption
    | (show Part.sub _ _ = true; rfl)
    | with_reducible apply Lands.next
    | dsimp -zeta only
    | with_reducible apply State.loseChannel_frame
    | with_reducible apply Lands.ite
    | with_reducible apply Within.ite
    | split

theorem execEventPageWrite_frame  s : Lands [.block 4, .block 6, .evt, .nor, .host, .out, .hostWait] s (execEventPageWrite s) := by
  unfold execEventPageWrite
  repeat' first
    | with_reducible exact Within.refl _ _
    | with_reducible assumption
    | (show Part.sub _ _ = true; rfl)
    | with_reducible apply Lands.next
    | dsimp -zeta only
    | with_reducible apply State.writePage_frame
    | with_reducible apply Lands.ite
    | with_reducible apply Within.ite
    | split

theorem execEventControlSave_frame  s : Lands [.nor] s (execEventControlSave s) := by
  unfold execEventControlSave
  repeat' first
    | with_reducible exact Within.refl _ _
    | with_reducible assumption
    | (show Part.sub _ _ = true; rfl)
    | with_reducible apply Lands.next
    | dsimp -zeta only
    | with_reducible apply State.saveCounts_frame
    | with_reducible apply Lands.ite
    | with_reducible apply Within.ite
    | split

theorem execEventReadSelect_frame index area s : Lands [.block 4, .evt] s (execEventReadSelect index area s) := by
  unfold execEventReadSelect
  repeat' first
    | with_reducible exact Within.refl _ _
    | with_reducible assumption
    | (show Part.sub _ _ = true; rfl)
    | with_reducible apply Lands.next
    | (extract_lets +onlyGivenNames x; with_reducible refine Lands.cut (u := x) ?_ ?_; rotate_left; intro hx; clear_value x; rename' x => y; rotate_right; unfold x; clear x)
    | (extract_lets +onlyGivenNames x; with_reducible refine Within.cut (u := x) ?_ ?_; rotate_left; intro hx; clear_value x; rename' x => y; rotate_right; unfold x; clear x)
    | (extract_lets +onlyGivenNames x; clear_value x; rename' x => z)
    | (extract_lets +onlyGivenNames x; rename' x => z)
    | dsimp -zeta only
    | with_reducible apply State.wr_frame
    | with_reducible apply Lands.ite
    | with_reducible apply Within.ite
    | fail_if_no_progress (with_reducible refine Within.put (a := [.evt]) ?_ rfl rfl rfl rfl rfl)
    | split

theorem execNewNonce_frame  s : Lands [.block 4, .evt, .free] s (execNewNonce s) := by
  unfold execNewNonce
  repeat' first
    | with_reducible exact Within.refl _ _
    | with_reducible assumption
    | (show Part.sub _ _ = true; rfl)
    | with_reducible apply Lands.next
    | (extract_lets +onlyGivenNames x; with_reducible refine Lands.cut (u := x) ?_ ?_; rotate_left; intro hx; clear_value x; rename' x => y; rotate_right; unfold x; clear x)
    | (extract_lets +onlyGivenNames x; with_reducible refine Within.cut (u := x) ?_ ?_; rotate_left; intro hx; clear_value x; rename' x => y; rotate_right; unfold x; clear x)
    | (extract_lets +onlyGivenNames x; clear_value x; rename' x => z)
    | (extract_lets +onlyGivenNames x; rename' x => z)
    | dsimp -zeta only
    | with_reducible apply State.wr_frame
    | with_reducible apply State.fresh_frame
    | with_reducible apply Lands.ite
    | with_reducible apply Within.ite
    | fail_if_no_progress (with_reducible refine Within.put (a := [.evt]) ?_ rfl rfl rfl rfl rfl)
    | split
    | (with_reducible refine Within.of_pair (by assumption) ?_)

theorem execClearGo_frame  s : Lands [.block 4, .block 6, .evt, .nor, .host, .out, .hostWait] s (execClearGo s) := by
  unfold execClearGo
  repeat' first
    | with_reducible exact Within.refl _ _
    | with_reducible assumption
    | (show Part.sub _ _ = true; rfl)
    | with_reducible apply Lands.next
    | (extract_lets +onlyGivenNames x; with_reducible refine Lands.cut (u := x) ?_ ?_; rotate_left; intro hx; clear_value x; rename' x => y; rotate_right; unfold x; clear x)
    | (extract_lets +onlyGivenNames x; with_reducible refine Within.cut (u := x) ?_ ?_; rotate_left; intro hx; clear_value x; rename' x => y; rotate_right; unfold x; clear x)
    | (extract_lets +onlyGivenNames x; clear_value x; rename' x => z)
    | (extract_lets +onlyGivenNames x; rename' x => z)
    | dsimp -zeta only
    | with_reducible apply State.wr_frame
    | with_reducible apply State.event_frame
    | with_reducible apply Lands.ite
    | with_reducible apply Within.ite
    | fail_if_no_progress (with_reducible refine Within.put (a := [.evt]) ?_ rfl rfl rfl rfl rfl)
    | split

theorem execClearComplete_frame  s : Lands [.block 4, .block 6, .evt, .nor, .host, .out, .hostWait] s (execClearComplete s) := by
  unfold execClearComplete
  repeat' first
    | with_reducible exact Within.refl _ _
    | with_reducible assumption
    | (show Part.sub _ _ = true; rfl)
    | with_reducible apply Lands.next
    | (extract_lets +onlyGivenNames x; with_reducible refine Lands.cut (u := x) ?_ ?_; rotate_left; intro hx; clear_value x; rename' x => y; rotate_right; unfold x; clear x)
    | (extract_lets +onlyGivenNames x; with_reducible refine Within.cut (u := x) ?_ ?_; rotate_left; intro hx; clear_value x; rename' x => y; rotate_right; unfold x; clear x)
    | (extract_lets +onlyGivenNames x; clear_value x; rename' x => z)
    | (extract_lets +onlyGivenNames x; rename' x => z)
    | dsimp -zeta only
    | with_reducible apply State.wr_frame
    | with_reducible apply State.postTo_frame
    | with_reducible apply State.frontRecord_frame
    | with_reducible apply Lands.ite
    | with_reducible apply Within.ite
    | (with_reducible refine Within.foldl _ ?_ ?_; rotate_left; intro _ _)
    | (with_reducible refine Within.foldl_snd _ ?_ ?_; rotate_left; intro _ _)
    | fail_if_no_progress (with_reducible refine Within.put (a := [.evt, .nor]) ?_ rfl rfl rfl rfl rfl)
    | split

theorem State.clearHist_frame {ps s t}  (h : Within ps s t) (hp : Part.sub [.evt] ps = true) : Within ps s (State.clearHist t) := by
  refine h.step (a := [.evt]) ?_ hp
  unfold State.clearHist
  repeat' first
    | with_reducible exact Within.refl _ _
    | with_reducible assumption
    | (show Part.sub _ _ = true; rfl)
    | dsimp -zeta only
    | with_reducible apply Within.ite
    | fail_if_no_progress (with_reducible refine Within.put (a := [.evt]) ?_ rfl rfl rfl rfl rfl)
    | split

theorem execHistSwap_frame  s : Lands [.block 4, .evt, .mem] s (execHistSwap s) := by
  unfold execHistSwap
  repeat' first
    | with_reducible exact Within.refl _ _
    | with_reducible assumption
    | (show Part.sub _ _ = true; rfl)
    | with_reducible apply Lands.next
    | (extract_lets +onlyGivenNames x; with_reducible refine Lands.cut (u := x) ?_ ?_; rotate_left; intro hx; clear_value x; rename' x => y; rotate_right; unfold x; clear x)
    | (extract_lets +onlyGivenNames x; with_reducible refine Within.cut (u := x) ?_ ?_; rotate_left; intro hx; clear_value x; rename' x => y; rotate_right; unfold x; clear x)
    | (extract_lets +onlyGivenNames x; clear_value x; rename' x => z)
    | (extract_lets +onlyGivenNames x; rename' x => z)
    | dsimp -zeta only
    | with_reducible apply State.wr_frame
    | with_reducible apply State.ddrWriteList_frame
    | with_reducible apply State.clearHist_frame
    | with_reducible apply Lands.ite
    | with_reducible apply Within.ite
    | split

end Sys2Proof.Machine
end

