-- ==== Sys2Proof/Laws/FrameRegWrite.lean ====
section
/-!
SUPPORT. Laws/FrameRegWrite.lean: what the definitions of Machine/RegWrite.lean leave alone: each changes the listed parts at most, and keeps the
canonical form.
-/
namespace Sys2Proof.Machine
open Sys2Proof

set_option Elab.async false
set_option linter.all false

theorem execBadSizeAccess_frame write address size s : Lands [.out] s (execBadSizeAccess write address size s) := by
  unfold execBadSizeAccess
  repeat' first
    | with_reducible exact Within.refl _ _
    | with_reducible assumption
    | (show Part.sub _ _ = true; rfl)
    | with_reducible apply Lands.next
    | dsimp -zeta only
    | with_reducible apply State.send_frame
    | with_reducible apply Lands.ite
    | with_reducible apply Within.ite
    | split

theorem State.clearRead_frame {ps s t} f (h : Within ps s t) (hp : Part.sub [.regs, .holding] ps = true) : Within ps s (State.clearRead t f) := by
  refine h.step (a := [.regs, .holding]) ?_ hp
  unfold State.clearRead
  repeat' first
    | with_reducible exact Within.refl _ _
    | with_reducible assumption
    | (show Part.sub _ _ = true; rfl)
    | (extract_lets +onlyGivenNames x; with_reducible refine Within.cut (u := x) ?_ ?_; rotate_left; intro hx; clear_value x; rename' x => y; rotate_right; unfold x; clear x)
    | (extract_lets +onlyGivenNames x; clear_value x; rename' x => z)
    | (extract_lets +onlyGivenNames x; rename' x => z)
    | dsimp -zeta only
    | with_reducible apply State.wr_frame
    | with_reducible apply Within.ite
    | fail_if_no_progress (with_reducible refine Within.put (a := [.regs, .holding]) ?_ rfl rfl rfl rfl rfl)
    | split

theorem State.readWord_frame {ps s t} a whole (h : Within ps s t) (hp : Part.sub [.regs, .holding, .trn] ps = true) : Within ps s (State.readWord t a whole).2 := by
  refine h.step (a := [.regs, .holding, .trn]) ?_ hp
  unfold State.readWord
  repeat' first
    | with_reducible exact Within.refl _ _
    | with_reducible assumption
    | (show Part.sub _ _ = true; rfl)
    | (extract_lets +onlyGivenNames x; with_reducible refine Within.cut (u := x) ?_ ?_; rotate_left; intro hx; clear_value x; rename' x => y; rotate_right; unfold x; clear x)
    | (extract_lets +onlyGivenNames x; clear_value x; rename' x => z)
    | (extract_lets +onlyGivenNames x; rename' x => z)
    | dsimp -zeta only
    | with_reducible apply State.popStamp_frame
    | with_reducible apply State.clearRead_frame
    | with_reducible apply Within.ite
    | (with_reducible refine Within.foldl _ ?_ ?_; rotate_left; intro _ _)
    | (with_reducible refine Within.foldl_snd _ ?_ ?_; rotate_left; intro _ _)
    | fail_if_no_progress (with_reducible refine Within.put (a := [.holding]) ?_ rfl rfl rfl rfl rfl)
    | split

theorem execRcRead_frame address size s : Lands [.regs, .holding, .trn, .out] s (execRcRead address size s) := by
  unfold execRcRead
  repeat' first
    | with_reducible exact Within.refl _ _
    | with_reducible assumption
    | (show Part.sub _ _ = true; rfl)
    | with_reducible apply Lands.next
    | (extract_lets +onlyGivenNames x; with_reducible refine Lands.cut (u := x) ?_ ?_; rotate_left; intro hx; clear_value x; rename' x => y; rotate_right; unfold x; clear x)
    | (extract_lets +onlyGivenNames x; with_reducible refine Within.cut (u := x) ?_ ?_; rotate_left; intro hx; clear_value x; rename' x => y; rotate_right; unfold x; clear x)
    | (extract_lets +onlyGivenNames x; clear_value x; rename' x => z)
    | (extract_lets +onlyGivenNames x; rename' x => z)
    | dsimp -zeta only
    | with_reducible apply State.send_frame
    | with_reducible apply State.readWord_frame
    | with_reducible apply Lands.ite
    | with_reducible apply Within.ite
    | split
    | (with_reducible refine Within.of_pair (by assumption) ?_)

theorem State.dropUnused_frame {ps s t} port (h : Within ps s t) (hp : Part.sub [.regs, .holding] ps = true) : Within ps s (State.dropUnused t port) := by
  refine h.step (a := [.regs, .holding]) ?_ hp
  unfold State.dropUnused
  repeat' first
    | with_reducible exact Within.refl _ _
    | with_reducible assumption
    | (show Part.sub _ _ = true; rfl)
    | (extract_lets +onlyGivenNames x; with_reducible refine Within.cut (u := x) ?_ ?_; rotate_left; intro hx; clear_value x; rename' x => y; rotate_right; unfold x; clear x)
    | (extract_lets +onlyGivenNames x; clear_value x; rename' x => z)
    | (extract_lets +onlyGivenNames x; rename' x => z)
    | dsimp -zeta only
    | with_reducible apply State.wr_frame
    | with_reducible apply State.raise_frame
    | with_reducible apply Within.ite
    | split

theorem State.afterWrite_frame {ps s t} before (h : Within ps s t) (hp : Part.sub [.regs, .holding, .power, .test, .evt, .nor, .host, .ports, .trn, .cmd, .ddp, .keys, .wc, .sig, .lfl, .map, .rep, .prg, .xrn, .chan, .own, .store, .mem, .free, .out, .hostWait] ps = true) : Within ps s (State.afterWrite t before) := by
  refine h.step (a := [.regs, .holding, .power, .test, .evt, .nor, .host, .ports, .trn, .cmd, .ddp, .keys, .wc, .sig, .lfl, .map, .rep, .prg, .xrn, .chan, .own, .store, .mem, .free, .out, .hostWait]) ?_ hp
  unfold State.afterWrite
  repeat' first
    | with_reducible exact Within.refl _ _
    | with_reducible assumption
    | (show Part.sub _ _ = true; rfl)
    | (extract_lets +onlyGivenNames x; with_reducible refine Within.cut (u := x) ?_ ?_; rotate_left; intro hx; clear_value x; rename' x => y; rotate_right; unfold x; clear x)
    | (extract_lets +onlyGivenNames x; clear_value x; rename' x => z)
    | (extract_lets +onlyGivenNames x; rename' x => z)
    | dsimp -zeta only
    | with_reducible apply State.wr_frame
    | with_reducible apply State.dropPort_frame
    | with_reducible apply State.settlePs_frame
    | with_reducible apply State.resumeMap_frame
    | with_reducible apply State.startRing_frame
    | with_reducible apply State.stopRing_frame
    | with_reducible apply State.dropHop_frame
    | with_reducible apply State.dropUnused_frame
    | with_reducible apply Within.ite
    | (with_reducible refine Within.foldl _ ?_ ?_; rotate_left; intro _ _)
    | (with_reducible refine Within.foldl_snd _ ?_ ?_; rotate_left; intro _ _)
    | split

theorem State.applyWrite1_frame {ps s t} bu (h : Within ps s t) (hp : Part.sub [.regs] ps = true) : Within ps s (State.applyWrite1 t bu) := by
  refine h.step (a := [.regs]) ?_ hp
  unfold State.applyWrite1
  repeat' first
    | with_reducible exact Within.refl _ _
    | with_reducible assumption
    | (show Part.sub _ _ = true; rfl)
    | dsimp -zeta only
    | with_reducible apply State.wr_frame
    | with_reducible apply Within.ite
    | split

theorem State.writeWord_frame {ps s t} before a word (h : Within ps s t) (hp : Part.sub [.regs] ps = true) : Within ps s (State.writeWord t before a word) := by
  refine h.step (a := [.regs]) ?_ hp
  unfold State.writeWord
  repeat' first
    | with_reducible exact Within.refl _ _
    | with_reducible assumption
    | (show Part.sub _ _ = true; rfl)
    | dsimp -zeta only
    | with_reducible apply State.applyWrite1_frame
    | with_reducible apply Within.ite
    | (with_reducible refine Within.foldl _ ?_ ?_; rotate_left; intro _ _)
    | (with_reducible refine Within.foldl_snd _ ?_ ?_; rotate_left; intro _ _)
    | split

theorem execRegisterWrite_frame address size value s : Lands [.regs, .holding, .power, .test, .evt, .nor, .host, .ports, .trn, .cmd, .ddp, .keys, .wc, .sig, .lfl, .map, .rep, .prg, .xrn, .chan, .own, .store, .mem, .free, .out, .hostWait] s (execRegisterWrite address size value s) := by
  unfold execRegisterWrite
  repeat' first
    | with_reducible exact Within.refl _ _
    | with_reducible assumption
    | (show Part.sub _ _ = true; rfl)
    | with_reducible apply Lands.next
    | (extract_lets +onlyGivenNames x; with_reducible refine Lands.cut (u := x) ?_ ?_; rotate_left; intro hx; clear_value x; rename' x => y; rotate_right; unfold x; clear x)
    | (extract_lets +onlyGivenNames x; with_reducible refine Within.cut (u := x) ?_ ?_; rotate_left; intro hx; clear_value x; rename' x => y; rotate_right; unfold x; clear x)
    | (extract_lets +onlyGivenNames x; clear_value x; rename' x => z)
    | (extract_lets +onlyGivenNames x; rename' x => z)
    | dsimp -zeta only
    | with_reducible apply State.afterWrite_frame
    | with_reducible apply State.applyWrite1_frame
    | with_reducible apply State.writeWord_frame
    | with_reducible apply Lands.ite
    | with_reducible apply Within.ite
    | (with_reducible refine Within.foldl _ ?_ ?_; rotate_left; intro _ _)
    | (with_reducible refine Within.foldl_snd _ ?_ ?_; rotate_left; intro _ _)
    | split

theorem execSetupLockWrite_frame block value s : Lands [.regs, .holding] s (execSetupLockWrite block value s) := by
  unfold execSetupLockWrite
  repeat' first
    | with_reducible exact Within.refl _ _
    | with_reducible assumption
    | (show Part.sub _ _ = true; rfl)
    | with_reducible apply Lands.next
    | dsimp -zeta only
    | with_reducible apply State.wr_frame
    | with_reducible apply State.raise_frame
    | with_reducible apply Lands.ite
    | with_reducible apply Within.ite
    | fail_if_no_progress (with_reducible refine Within.put (a := []) ?_ rfl rfl rfl rfl rfl)
    | split

end Sys2Proof.Machine
end

