-- ==== Sys2Proof/Laws/FrameReplication.lean ====
section
/-!
SUPPORT. Laws/FrameReplication.lean: what the definitions of Machine/Replication.lean leave alone: each changes the listed parts at most, and keeps the
canonical form.
-/
namespace Sys2Proof.Machine
open Sys2Proof

set_option Elab.async false
set_option linter.all false

theorem State.setStream_frame {ps s t} n head r (h : Within ps s t) (hp : Part.sub [.block 18, .rep] ps = true) : Within ps s (State.setStream t n head r) := by
  refine h.step (a := [.block 18, .rep]) ?_ hp
  unfold State.setStream
  repeat' first
    | with_reducible exact Within.refl _ _
    | with_reducible assumption
    | (show Part.sub _ _ = true; rfl)
    | (extract_lets +onlyGivenNames x; with_reducible refine Within.cut (u := x) ?_ ?_; rotate_left; intro hx; clear_value x; rename' x => y; rotate_right; unfold x; clear x)
    | (extract_lets +onlyGivenNames x; clear_value x; rename' x => z)
    | (extract_lets +onlyGivenNames x; rename' x => z)
    | dsimp -zeta only
    | with_reducible apply State.setRep_frame
    | with_reducible apply Within.ite
    | fail_if_no_progress (with_reducible refine Within.put (a := []) ?_ rfl rfl rfl rfl rfl)
    | split

theorem State.tagFailed_frame {ps s t} n head seq (h : Within ps s t) (hp : Part.sub [.block 4, .block 6, .block 11, .block 18, .evt, .nor, .host, .cmd, .rep, .free, .out, .hostWait] ps = true) : Within ps s (State.tagFailed t n head seq) := by
  refine h.step (a := [.block 4, .block 6, .block 11, .block 18, .evt, .nor, .host, .cmd, .rep, .free, .out, .hostWait]) ?_ hp
  unfold State.tagFailed
  repeat' first
    | with_reducible exact Within.refl _ _
    | with_reducible assumption
    | (show Part.sub _ _ = true; rfl)
    | (extract_lets +onlyGivenNames x; with_reducible refine Within.cut (u := x) ?_ ?_; rotate_left; intro hx; clear_value x; rename' x => y; rotate_right; unfold x; clear x)
    | (extract_lets +onlyGivenNames x; clear_value x; rename' x => z)
    | (extract_lets +onlyGivenNames x; rename' x => z)
    | dsimp -zeta only
    | with_reducible apply State.bump_frame
    | with_reducible apply State.event1_frame
    | with_reducible apply State.setRep_frame
    | with_reducible apply State.breakSet_frame
    | with_reducible apply State.sendRepAck_frame
    | with_reducible apply Within.ite
    | fail_if_no_progress (with_reducible refine Within.put (a := []) ?_ rfl rfl rfl rfl rfl)
    | split

theorem State.noteTag_frame {ps s t} e (h : Within ps s t) (hp : Part.sub [.block 11] ps = true) : Within ps s (State.noteTag t e) := by
  refine h.step (a := [.block 11]) ?_ hp
  unfold State.noteTag
  repeat' first
    | with_reducible exact Within.refl _ _
    | with_reducible assumption
    | (show Part.sub _ _ = true; rfl)
    | dsimp -zeta only
    | with_reducible apply State.bump_frame
    | with_reducible apply Within.ite
    | split

theorem State.judgeEnvelope_frame {ps s t} n head e r take (h : Within ps s t) (hp : Part.sub [.block 4, .block 6, .block 11, .block 18, .evt, .nor, .host, .cmd, .rep, .free, .out, .hostWait] ps = true)
    (hr : ∀ u, Within ps u (take u)) : Within ps s (State.judgeEnvelope t n head e r take) := by
  have st (r : RepRecv) : Within ps s (t.setStream n head r) := State.setStream_frame _ _ _ h (Part.sub_trans (by decide) hp)
  have ak (k q : Nat) : Within ps s ((t.setStream n head r).sendRepAck n head k q []) :=
    State.sendRepAck_frame _ _ _ _ _ (st _) (Part.sub_trans (by decide) hp)
  have nt : Within ps s ((t.noteTag e).setStream n head r) :=
    State.setStream_frame _ _ _ (State.noteTag_frame _ h (Part.sub_trans (by decide) hp)) (Part.sub_trans (by decide) hp)
  unfold State.judgeEnvelope
  repeat' (with_reducible apply Within.ite)
  · exact ak _ _
  · exact State.breakSet_frame _ _ _ (ak _ _) (Part.sub_trans (by decide) hp)
  · exact State.tagFailed_frame _ _ _ nt (Part.sub_trans (by decide) hp)
  · have d : Within ps s t.dummyRound.2 := State.dummyRound_frame h (Part.sub_trans (by decide) hp)
    exact State.tagFailed_frame _ _ _ (State.setStream_frame _ _ _ (State.event_frame _ _ (State.bump_frame _ _ _ _ d
        (Part.sub_trans (by decide) hp)) (Part.sub_trans (by decide) hp)) (Part.sub_trans (by decide) hp)) (Part.sub_trans (by decide) hp)
  · have d : Within ps s t.dummyRound.2 := State.dummyRound_frame h (Part.sub_trans (by decide) hp)
    exact (State.setStream_frame _ _ _ d (Part.sub_trans (by decide) hp)).trans (hr _)

theorem State.checkSession_frame {ps s t} e take (h : Within ps s t) (hp : Part.sub [.block 4, .block 6, .block 11, .block 18, .evt, .nor, .host, .cmd, .rep, .free, .out, .hostWait] ps = true)
    (hr : ∀ u, Within ps u (take u)) : Within ps s (State.checkSession t e take) := by
  have ak (k : Nat) : Within ps s (t.sendRepAck e.set e.from_ k e.seq []) :=
    State.sendRepAck_frame _ _ _ _ _ h (Part.sub_trans (by decide) hp)
  unfold State.checkSession
  apply Within.ite
  · exact h
  · apply Within.ite
    · exact ak _
    · apply Within.ite
      · exact State.breakSet_frame _ _ _ (ak _) (Part.sub_trans (by decide) hp)
      · exact State.judgeEnvelope_frame _ _ _ _ _ h (Part.sub_trans (by decide) hp) hr

theorem State.receiveEnvelope_frame {ps s t} e take (h : Within ps s t) (hp : Part.sub [.block 4, .block 6, .block 11, .block 18, .evt, .nor, .host, .cmd, .rep, .free, .out, .hostWait] ps = true)
    (hr : ∀ u, Within ps u (take u)) : Within ps s (State.receiveEnvelope t e take) :=
  State.checkSession_frame _ _ (State.consumeRing_frame _ _ h (Part.sub_trans (by decide) hp)) (Part.sub_trans (by decide) hp) hr

theorem State.applyWrite_frame {ps s t} n head toWork units (h : Within ps s t) (hp : Part.sub [.cmd, .ddp, .rep] ps = true) : Within ps s (State.applyWrite t n head toWork units).2 := by
  refine h.step (a := [.cmd, .ddp, .rep]) ?_ hp
  unfold State.applyWrite
  repeat' first
    | with_reducible exact Within.refl _ _
    | with_reducible assumption
    | (show Part.sub _ _ = true; rfl)
    | (extract_lets +onlyGivenNames x; with_reducible refine Within.cut (u := x) ?_ ?_; rotate_left; intro hx; clear_value x; rename' x => y; rotate_right; unfold x; clear x)
    | (extract_lets +onlyGivenNames x; clear_value x; rename' x => z)
    | (extract_lets +onlyGivenNames x; rename' x => z)
    | dsimp -zeta only
    | with_reducible apply State.pin_frame
    | with_reducible apply State.askInternal_frame
    | with_reducible apply Within.ite
    | (with_reducible refine Within.foldl _ ?_ ?_; rotate_left; intro _ _)
    | (with_reducible refine Within.foldl_snd _ ?_ ?_; rotate_left; intro _ _)
    | fail_if_no_progress (with_reducible refine Within.put (a := [.rep]) ?_ rfl rfl rfl rfl rfl)
    | split

theorem State.applyEnvelope_frame {ps s t} n head e toWork (h : Within ps s t) (hp : Part.sub [.block 4, .block 6, .block 11, .block 13, .block 18, .block 20, .evt, .nor, .host, .cmd, .ddp, .sig, .map, .rep, .store, .free, .out, .hostWait] ps = true) : Within ps s (State.applyEnvelope t n head e toWork) := by
  refine h.step (a := [.block 4, .block 6, .block 11, .block 13, .block 18, .block 20, .evt, .nor, .host, .cmd, .ddp, .sig, .map, .rep, .store, .free, .out, .hostWait]) ?_ hp
  unfold State.applyEnvelope
  repeat' first
    | with_reducible exact Within.refl _ _
    | with_reducible assumption
    | (show Part.sub _ _ = true; rfl)
    | (extract_lets +onlyGivenNames x; with_reducible refine Within.cut (u := x) ?_ ?_; rotate_left; intro hx; clear_value x; rename' x => y; rotate_right; unfold x; clear x)
    | (extract_lets +onlyGivenNames x; clear_value x; rename' x => z)
    | (extract_lets +onlyGivenNames x; rename' x => z)
    | dsimp -zeta only
    | with_reducible apply State.bump_frame
    | with_reducible apply State.breakSet_frame
    | with_reducible apply State.sendRepAck_frame
    | with_reducible apply State.settleStream_frame
    | with_reducible apply State.setStream_frame
    | with_reducible apply State.applyWrite_frame
    | with_reducible apply Within.ite
    | (with_reducible refine Within.foldl _ ?_ ?_; rotate_left; intro _ _)
    | (with_reducible refine Within.foldl_snd _ ?_ ?_; rotate_left; intro _ _)
    | fail_if_no_progress (with_reducible refine Within.put (a := []) ?_ rfl rfl rfl rfl rfl)
    | split
    | (with_reducible refine Within.of_pair (by assumption) ?_)

theorem execStreamBatch_frame e s : Lands [.block 4, .block 6, .block 11, .block 18, .evt, .nor, .host, .cmd, .rep, .free, .out, .hostWait] s (execStreamBatch e s) := by
  unfold execStreamBatch
  repeat' first
    | with_reducible exact Within.refl _ _
    | with_reducible assumption
    | (show Part.sub _ _ = true; rfl)
    | with_reducible apply Lands.next
    | (extract_lets +onlyGivenNames x; with_reducible refine Lands.cut (u := x) ?_ ?_; rotate_left; intro hx; clear_value x; rename' x => y; rotate_right; unfold x; clear x)
    | (extract_lets +onlyGivenNames x; with_reducible refine Within.cut (u := x) ?_ ?_; rotate_left; intro hx; clear_value x; rename' x => y; rotate_right; unfold x; clear x)
    | (extract_lets +onlyGivenNames x; clear_value x; rename' x => z)
    | (extract_lets +onlyGivenNames x; rename' x => z)
    | dsimp -zeta only
    | with_reducible apply State.setStream_frame
    | with_reducible apply State.receiveEnvelope_frame
    | intro _
    | with_reducible apply Lands.ite
    | with_reducible apply Within.ite
    | fail_if_no_progress (with_reducible refine Within.put (a := []) ?_ rfl rfl rfl rfl rfl)
    | split

theorem execEnvelopeRelease_frame set head s : Lands [.block 4, .block 6, .block 11, .block 13, .block 18, .block 20, .evt, .nor, .host, .cmd, .ddp, .sig, .map, .rep, .store, .free, .out, .hostWait] s (execEnvelopeRelease set head s) := by
  unfold execEnvelopeRelease
  repeat' first
    | with_reducible exact Within.refl _ _
    | with_reducible assumption
    | (show Part.sub _ _ = true; rfl)
    | with_reducible apply Lands.next
    | dsimp -zeta only
    | with_reducible apply State.applyEnvelope_frame
    | with_reducible apply Lands.ite
    | with_reducible apply Within.ite
    | fail_if_no_progress (with_reducible refine Within.put (a := []) ?_ rfl rfl rfl rfl rfl)
    | split

theorem State.revert_frame {ps s t} n base (h : Within ps s t) (hp : Part.sub [.block 4, .block 6, .block 13, .block 18, .block 20, .evt, .nor, .host, .sig, .map, .rep, .store, .out, .hostWait] ps = true) : Within ps s (State.revert t n base) := by
  refine h.step (a := [.block 4, .block 6, .block 13, .block 18, .block 20, .evt, .nor, .host, .sig, .map, .rep, .store, .out, .hostWait]) ?_ hp
  unfold State.revert
  repeat' first
    | with_reducible exact Within.refl _ _
    | with_reducible assumption
    | (show Part.sub _ _ = true; rfl)
    | (extract_lets +onlyGivenNames x; with_reducible refine Within.cut (u := x) ?_ ?_; rotate_left; intro hx; clear_value x; rename' x => y; rotate_right; unfold x; clear x)
    | (extract_lets +onlyGivenNames x; clear_value x; rename' x => z)
    | (extract_lets +onlyGivenNames x; rename' x => z)
    | dsimp -zeta only
    | with_reducible apply State.event_frame
    | with_reducible apply State.holdPage_frame
    | with_reducible apply State.dropPage_frame
    | with_reducible apply State.setRoot_frame
    | with_reducible apply State.emptyTree_frame
    | with_reducible apply State.takeCut_frame
    | with_reducible apply State.setRep_frame
    | with_reducible apply Within.ite
    | (with_reducible refine Within.foldl _ ?_ ?_; rotate_left; intro _ _)
    | (with_reducible refine Within.foldl_snd _ ?_ ?_; rotate_left; intro _ _)
    | fail_if_no_progress (with_reducible refine Within.put (a := []) ?_ rfl rfl rfl rfl rfl)
    | split
    | (with_reducible refine Within.of_pair (by assumption) ?_)

theorem execDifference_frame e s : Lands [.block 4, .block 6, .block 11, .block 13, .block 18, .block 20, .evt, .nor, .host, .cmd, .ddp, .sig, .map, .rep, .store, .free, .out, .hostWait] s (execDifference e s) := by
  unfold execDifference
  repeat' first
    | with_reducible exact Within.refl _ _
    | with_reducible assumption
    | (show Part.sub _ _ = true; rfl)
    | with_reducible apply Lands.next
    | (extract_lets +onlyGivenNames x; with_reducible refine Lands.cut (u := x) ?_ ?_; rotate_left; intro hx; clear_value x; rename' x => y; rotate_right; unfold x; clear x)
    | (extract_lets +onlyGivenNames x; with_reducible refine Within.cut (u := x) ?_ ?_; rotate_left; intro hx; clear_value x; rename' x => y; rotate_right; unfold x; clear x)
    | (extract_lets +onlyGivenNames x; clear_value x; rename' x => z)
    | (extract_lets +onlyGivenNames x; rename' x => z)
    | dsimp -zeta only
    | with_reducible apply State.setStream_frame
    | with_reducible apply State.receiveEnvelope_frame
    | with_reducible apply State.applyEnvelope_frame
    | with_reducible apply State.revert_frame
    | intro _
    | with_reducible apply Lands.ite
    | with_reducible apply Within.ite
    | fail_if_no_progress (with_reducible refine Within.put (a := []) ?_ rfl rfl rfl rfl rfl)
    | split

theorem execWantReply_frame e s : Lands [.block 4, .block 6, .block 11, .block 13, .block 18, .block 20, .evt, .nor, .host, .cmd, .ddp, .sig, .map, .rep, .store, .free, .out, .hostWait] s (execWantReply e s) := by
  unfold execWantReply
  repeat' first
    | with_reducible exact Within.refl _ _
    | with_reducible assumption
    | (show Part.sub _ _ = true; rfl)
    | with_reducible apply Lands.next
    | (extract_lets +onlyGivenNames x; with_reducible refine Lands.cut (u := x) ?_ ?_; rotate_left; intro hx; clear_value x; rename' x => y; rotate_right; unfold x; clear x)
    | (extract_lets +onlyGivenNames x; with_reducible refine Within.cut (u := x) ?_ ?_; rotate_left; intro hx; clear_value x; rename' x => y; rotate_right; unfold x; clear x)
    | (extract_lets +onlyGivenNames x; clear_value x; rename' x => z)
    | (extract_lets +onlyGivenNames x; rename' x => z)
    | dsimp -zeta only
    | with_reducible apply State.setStream_frame
    | with_reducible apply State.receiveEnvelope_frame
    | with_reducible apply State.applyEnvelope_frame
    | intro _
    | with_reducible apply Lands.ite
    | with_reducible apply Within.ite
    | fail_if_no_progress (with_reducible refine Within.put (a := []) ?_ rfl rfl rfl rfl rfl)
    | split

theorem execAnchorMark_frame e s : Lands [.block 4, .block 6, .block 11, .block 13, .block 18, .block 20, .evt, .nor, .host, .cmd, .sig, .map, .rep, .store, .free, .out, .hostWait] s (execAnchorMark e s) := by
  unfold execAnchorMark
  repeat' first
    | with_reducible exact Within.refl _ _
    | with_reducible assumption
    | (show Part.sub _ _ = true; rfl)
    | with_reducible apply Lands.next
    | (extract_lets +onlyGivenNames x; with_reducible refine Lands.cut (u := x) ?_ ?_; rotate_left; intro hx; clear_value x; rename' x => y; rotate_right; unfold x; clear x)
    | (extract_lets +onlyGivenNames x; with_reducible refine Within.cut (u := x) ?_ ?_; rotate_left; intro hx; clear_value x; rename' x => y; rotate_right; unfold x; clear x)
    | (extract_lets +onlyGivenNames x; clear_value x; rename' x => z)
    | (extract_lets +onlyGivenNames x; rename' x => z)
    | dsimp -zeta only
    | with_reducible apply State.settleStream_frame
    | with_reducible apply State.setStream_frame
    | with_reducible apply State.receiveEnvelope_frame
    | intro _
    | with_reducible apply Lands.ite
    | with_reducible apply Within.ite
    | fail_if_no_progress (with_reducible refine Within.put (a := []) ?_ rfl rfl rfl rfl rfl)
    | split

theorem State.anchorAcked_frame {ps s t} n (h : Within ps s t) (hp : Part.sub [.block 4, .block 6, .block 11, .block 13, .block 18, .block 20, .evt, .nor, .host, .cmd, .sig, .map, .rep, .store, .free, .out, .hostWait] ps = true) : Within ps s (State.anchorAcked t n) := by
  refine h.step (a := [.block 4, .block 6, .block 11, .block 13, .block 18, .block 20, .evt, .nor, .host, .cmd, .sig, .map, .rep, .store, .free, .out, .hostWait]) ?_ hp
  unfold State.anchorAcked
  repeat' first
    | with_reducible exact Within.refl _ _
    | with_reducible assumption
    | (show Part.sub _ _ = true; rfl)
    | (extract_lets +onlyGivenNames x; with_reducible refine Within.cut (u := x) ?_ ?_; rotate_left; intro hx; clear_value x; rename' x => y; rotate_right; unfold x; clear x)
    | (extract_lets +onlyGivenNames x; clear_value x; rename' x => z)
    | (extract_lets +onlyGivenNames x; rename' x => z)
    | dsimp -zeta only
    | with_reducible apply State.wr_frame
    | with_reducible apply State.event1_frame
    | with_reducible apply State.setRep_frame
    | with_reducible apply State.releaseAll_frame
    | with_reducible apply State.startSession_frame
    | with_reducible apply State.shipAnchor_frame
    | with_reducible apply Within.ite
    | fail_if_no_progress (with_reducible refine Within.put (a := []) ?_ rfl rfl rfl rfl rfl)
    | split

theorem State.probeAnswered_frame {ps s t} l (h : Within ps s t) (hp : Part.sub [.block 18, .rep] ps = true) : Within ps s (State.probeAnswered t l) := by
  refine h.step (a := [.block 18, .rep]) ?_ hp
  unfold State.probeAnswered
  repeat' first
    | with_reducible exact Within.refl _ _
    | with_reducible assumption
    | (show Part.sub _ _ = true; rfl)
    | (extract_lets +onlyGivenNames x; with_reducible refine Within.cut (u := x) ?_ ?_; rotate_left; intro hx; clear_value x; rename' x => y; rotate_right; unfold x; clear x)
    | (extract_lets +onlyGivenNames x; clear_value x; rename' x => z)
    | (extract_lets +onlyGivenNames x; rename' x => z)
    | dsimp -zeta only
    | with_reducible apply State.wr_frame
    | with_reducible apply Within.ite
    | fail_if_no_progress (with_reducible refine Within.put (a := [.rep]) ?_ rfl rfl rfl rfl rfl)
    | split

theorem State.ackEnvelopes_frame {ps s t} n a (h : Within ps s t) (hp : Part.sub [.block 4, .block 6, .block 11, .block 18, .evt, .nor, .host, .cmd, .rep, .free, .out, .hostWait] ps = true) : Within ps s (State.ackEnvelopes t n a) := by
  refine h.step (a := [.block 4, .block 6, .block 11, .block 18, .evt, .nor, .host, .cmd, .rep, .free, .out, .hostWait]) ?_ hp
  unfold State.ackEnvelopes
  repeat' first
    | with_reducible exact Within.refl _ _
    | with_reducible assumption
    | (show Part.sub _ _ = true; rfl)
    | (extract_lets +onlyGivenNames x; with_reducible refine Within.cut (u := x) ?_ ?_; rotate_left; intro hx; clear_value x; rename' x => y; rotate_right; unfold x; clear x)
    | (extract_lets +onlyGivenNames x; clear_value x; rename' x => z)
    | (extract_lets +onlyGivenNames x; rename' x => z)
    | dsimp -zeta only
    | with_reducible apply State.setRep_frame
    | with_reducible apply State.fillBuffer_frame
    | with_reducible apply State.releaseCompletions_frame
    | with_reducible apply Within.ite
    | fail_if_no_progress (with_reducible refine Within.put (a := []) ?_ rfl rfl rfl rfl rfl)
    | split

theorem State.resendRefused_frame {ps s t} n link a (h : Within ps s t) (hp : Part.sub [.block 4, .block 6, .block 11, .block 18, .evt, .nor, .host, .cmd, .rep, .free, .out, .hostWait] ps = true) : Within ps s (State.resendRefused t n link a) := by
  refine h.step (a := [.block 4, .block 6, .block 11, .block 18, .evt, .nor, .host, .cmd, .rep, .free, .out, .hostWait]) ?_ hp
  unfold State.resendRefused
  repeat' first
    | with_reducible exact Within.refl _ _
    | with_reducible assumption
    | (show Part.sub _ _ = true; rfl)
    | (extract_lets +onlyGivenNames x; with_reducible refine Within.cut (u := x) ?_ ?_; rotate_left; intro hx; clear_value x; rename' x => y; rotate_right; unfold x; clear x)
    | (extract_lets +onlyGivenNames x; clear_value x; rename' x => z)
    | (extract_lets +onlyGivenNames x; rename' x => z)
    | dsimp -zeta only
    | with_reducible apply State.setRep_frame
    | with_reducible apply State.postEnvelope_frame
    | with_reducible apply State.breakSet_frame
    | with_reducible apply Within.ite
    | fail_if_no_progress (with_reducible refine Within.put (a := []) ?_ rfl rfl rfl rfl rfl)
    | split

theorem State.takeRepAck_frame {ps s t} n link a (h : Within ps s t) (hp : Part.sub [.block 4, .block 6, .block 11, .block 13, .block 18, .block 20, .evt, .nor, .host, .cmd, .sig, .map, .rep, .store, .free, .out, .hostWait] ps = true) : Within ps s (State.takeRepAck t n link a) := by
  refine h.step (a := [.block 4, .block 6, .block 11, .block 13, .block 18, .block 20, .evt, .nor, .host, .cmd, .sig, .map, .rep, .store, .free, .out, .hostWait]) ?_ hp
  unfold State.takeRepAck
  repeat' first
    | with_reducible exact Within.refl _ _
    | with_reducible assumption
    | (show Part.sub _ _ = true; rfl)
    | (extract_lets +onlyGivenNames x; with_reducible refine Within.cut (u := x) ?_ ?_; rotate_left; intro hx; clear_value x; rename' x => y; rotate_right; unfold x; clear x)
    | (extract_lets +onlyGivenNames x; clear_value x; rename' x => z)
    | (extract_lets +onlyGivenNames x; rename' x => z)
    | dsimp -zeta only
    | with_reducible apply State.breakSet_frame
    | with_reducible apply State.startShip_frame
    | with_reducible apply State.anchorAcked_frame
    | with_reducible apply State.ackEnvelopes_frame
    | with_reducible apply State.resendRefused_frame
    | with_reducible apply Within.ite
    | split

theorem State.ackRing_frame {ps s t} link e (h : Within ps s t) (hp : Part.sub [.block 4, .block 6, .block 11, .block 18, .evt, .nor, .host, .rep, .free, .out, .hostWait] ps = true) : Within ps s (State.ackRing t link e) := by
  refine h.step (a := [.block 4, .block 6, .block 11, .block 18, .evt, .nor, .host, .rep, .free, .out, .hostWait]) ?_ hp
  unfold State.ackRing
  repeat' first
    | with_reducible exact Within.refl _ _
    | with_reducible assumption
    | (show Part.sub _ _ = true; rfl)
    | dsimp -zeta only
    | with_reducible apply State.ringConsumed_frame
    | with_reducible apply Within.ite
    | fail_if_no_progress (with_reducible refine Within.put (a := []) ?_ rfl rfl rfl rfl rfl)
    | split

theorem State.takeSeq_frame {ps s t} e (h : Within ps s t) (hp : Part.sub [.block 18, .rep] ps = true) : Within ps s (State.takeSeq t e) := by
  refine h.step (a := [.block 18, .rep]) ?_ hp
  unfold State.takeSeq
  repeat' first
    | with_reducible exact Within.refl _ _
    | with_reducible assumption
    | (show Part.sub _ _ = true; rfl)
    | (extract_lets +onlyGivenNames x; with_reducible refine Within.cut (u := x) ?_ ?_; rotate_left; intro hx; clear_value x; rename' x => y; rotate_right; unfold x; clear x)
    | (extract_lets +onlyGivenNames x; clear_value x; rename' x => z)
    | (extract_lets +onlyGivenNames x; rename' x => z)
    | dsimp -zeta only
    | with_reducible apply State.setStream_frame
    | with_reducible apply Within.ite
    | fail_if_no_progress (with_reducible refine Within.put (a := []) ?_ rfl rfl rfl rfl rfl)
    | split

theorem execReplicationAck_frame e probe s : Lands [.block 4, .block 6, .block 11, .block 13, .block 18, .block 20, .evt, .nor, .host, .cmd, .sig, .map, .rep, .store, .free, .out, .hostWait] s (execReplicationAck e probe s) := by
  unfold execReplicationAck
  repeat' first
    | with_reducible exact Within.refl _ _
    | with_reducible assumption
    | (show Part.sub _ _ = true; rfl)
    | with_reducible apply Lands.next
    | (extract_lets +onlyGivenNames x; with_reducible refine Lands.cut (u := x) ?_ ?_; rotate_left; intro hx; clear_value x; rename' x => y; rotate_right; unfold x; clear x)
    | (extract_lets +onlyGivenNames x; with_reducible refine Within.cut (u := x) ?_ ?_; rotate_left; intro hx; clear_value x; rename' x => y; rotate_right; unfold x; clear x)
    | (extract_lets +onlyGivenNames x; clear_value x; rename' x => z)
    | (extract_lets +onlyGivenNames x; rename' x => z)
    | dsimp -zeta only
    | with_reducible apply State.consumeRing_frame
    | with_reducible apply State.noteTag_frame
    | with_reducible apply State.probeAnswered_frame
    | with_reducible apply State.takeRepAck_frame
    | with_reducible apply State.ackRing_frame
    | with_reducible apply State.takeSeq_frame
    | with_reducible apply Lands.ite
    | with_reducible apply Within.ite
    | fail_if_no_progress (with_reducible refine Within.put (a := []) ?_ rfl rfl rfl rfl rfl)
    | split

theorem execBatchClose_frame set s : Lands [.block 4, .block 6, .block 11, .block 18, .evt, .nor, .host, .cmd, .rep, .free, .out, .hostWait] s (execBatchClose set s) := by
  unfold execBatchClose
  repeat' first
    | with_reducible exact Within.refl _ _
    | with_reducible assumption
    | (show Part.sub _ _ = true; rfl)
    | with_reducible apply Lands.next
    | (extract_lets +onlyGivenNames x; with_reducible refine Lands.cut (u := x) ?_ ?_; rotate_left; intro hx; clear_value x; rename' x => y; rotate_right; unfold x; clear x)
    | (extract_lets +onlyGivenNames x; with_reducible refine Within.cut (u := x) ?_ ?_; rotate_left; intro hx; clear_value x; rename' x => y; rotate_right; unfold x; clear x)
    | (extract_lets +onlyGivenNames x; clear_value x; rename' x => z)
    | (extract_lets +onlyGivenNames x; rename' x => z)
    | dsimp -zeta only
    | with_reducible apply State.sealBatch_frame
    | with_reducible apply Lands.ite
    | with_reducible apply Within.ite
    | split

theorem execIdleWatermark_frame set s : Lands [.block 4, .block 6, .block 11, .block 18, .evt, .nor, .host, .cmd, .rep, .free, .out, .hostWait] s (execIdleWatermark set s) := by
  unfold execIdleWatermark
  repeat' first
    | with_reducible exact Within.refl _ _
    | with_reducible assumption
    | (show Part.sub _ _ = true; rfl)
    | with_reducible apply Lands.next
    | (extract_lets +onlyGivenNames x; with_reducible refine Lands.cut (u := x) ?_ ?_; rotate_left; intro hx; clear_value x; rename' x => y; rotate_right; unfold x; clear x)
    | (extract_lets +onlyGivenNames x; with_reducible refine Within.cut (u := x) ?_ ?_; rotate_left; intro hx; clear_value x; rename' x => y; rotate_right; unfold x; clear x)
    | (extract_lets +onlyGivenNames x; clear_value x; rename' x => z)
    | (extract_lets +onlyGivenNames x; rename' x => z)
    | dsimp -zeta only
    | with_reducible apply State.sealBatch_frame
    | with_reducible apply Lands.ite
    | with_reducible apply Within.ite
    | split

theorem execAnchorPeriod_frame set s : Lands [.block 4, .block 6, .block 11, .block 13, .block 18, .block 20, .evt, .nor, .host, .cmd, .sig, .map, .rep, .store, .free, .out, .hostWait] s (execAnchorPeriod set s) := by
  unfold execAnchorPeriod
  repeat' first
    | with_reducible exact Within.refl _ _
    | with_reducible assumption
    | (show Part.sub _ _ = true; rfl)
    | with_reducible apply Lands.next
    | (extract_lets +onlyGivenNames x; with_reducible refine Lands.cut (u := x) ?_ ?_; rotate_left; intro hx; clear_value x; rename' x => y; rotate_right; unfold x; clear x)
    | (extract_lets +onlyGivenNames x; with_reducible refine Within.cut (u := x) ?_ ?_; rotate_left; intro hx; clear_value x; rename' x => y; rotate_right; unfold x; clear x)
    | (extract_lets +onlyGivenNames x; clear_value x; rename' x => z)
    | (extract_lets +onlyGivenNames x; rename' x => z)
    | dsimp -zeta only
    | with_reducible apply State.event1_frame
    | with_reducible apply State.setRep_frame
    | with_reducible apply State.sendEnvelope_frame
    | with_reducible apply State.sealBatch_frame
    | with_reducible apply State.takeAnchor_frame
    | with_reducible apply State.shipAnchor_frame
    | with_reducible apply Lands.ite
    | with_reducible apply Within.ite
    | fail_if_no_progress (with_reducible refine Within.put (a := []) ?_ rfl rfl rfl rfl rfl)
    | split

theorem State.stallSet_frame {ps s t} n (h : Within ps s t) (hp : Part.sub [.block 18, .rep] ps = true) : Within ps s (State.stallSet t n) := by
  refine h.step (a := [.block 18, .rep]) ?_ hp
  unfold State.stallSet
  repeat' first
    | with_reducible exact Within.refl _ _
    | with_reducible assumption
    | (show Part.sub _ _ = true; rfl)
    | (extract_lets +onlyGivenNames x; with_reducible refine Within.cut (u := x) ?_ ?_; rotate_left; intro hx; clear_value x; rename' x => y; rotate_right; unfold x; clear x)
    | (extract_lets +onlyGivenNames x; clear_value x; rename' x => z)
    | (extract_lets +onlyGivenNames x; rename' x => z)
    | dsimp -zeta only
    | with_reducible apply State.setRep_frame
    | with_reducible apply Within.ite
    | fail_if_no_progress (with_reducible refine Within.put (a := []) ?_ rfl rfl rfl rfl rfl)
    | split

theorem State.linkDown_frame {ps s t} l (h : Within ps s t) (hp : Part.sub [.block 4, .block 6, .block 18, .evt, .nor, .host, .rep, .out, .hostWait] ps = true) : Within ps s (State.linkDown t l) := by
  refine h.step (a := [.block 4, .block 6, .block 18, .evt, .nor, .host, .rep, .out, .hostWait]) ?_ hp
  unfold State.linkDown
  repeat' first
    | with_reducible exact Within.refl _ _
    | with_reducible assumption
    | (show Part.sub _ _ = true; rfl)
    | (extract_lets +onlyGivenNames x; with_reducible refine Within.cut (u := x) ?_ ?_; rotate_left; intro hx; clear_value x; rename' x => y; rotate_right; unfold x; clear x)
    | (extract_lets +onlyGivenNames x; clear_value x; rename' x => z)
    | (extract_lets +onlyGivenNames x; rename' x => z)
    | dsimp -zeta only
    | with_reducible apply State.wr_frame
    | with_reducible apply State.event1_frame
    | with_reducible apply State.stallSet_frame
    | with_reducible apply Within.ite
    | (with_reducible refine Within.foldl _ ?_ ?_; rotate_left; intro _ _)
    | (with_reducible refine Within.foldl_snd _ ?_ ?_; rotate_left; intro _ _)
    | split

theorem execReplicationLinkDown_frame link s : Lands [.block 4, .block 6, .block 18, .evt, .nor, .host, .rep, .out, .hostWait] s (execReplicationLinkDown link s) := by
  unfold execReplicationLinkDown
  repeat' first
    | with_reducible exact Within.refl _ _
    | with_reducible assumption
    | (show Part.sub _ _ = true; rfl)
    | with_reducible apply Lands.next
    | dsimp -zeta only
    | with_reducible apply State.linkDown_frame
    | with_reducible apply Lands.ite
    | with_reducible apply Within.ite
    | split

theorem State.linkUp_frame {ps s t} l (h : Within ps s t) (hp : Part.sub [.block 4, .block 6, .block 11, .block 13, .block 18, .block 20, .evt, .nor, .host, .cmd, .sig, .map, .rep, .store, .free, .out, .hostWait] ps = true) : Within ps s (State.linkUp t l) := by
  refine h.step (a := [.block 4, .block 6, .block 11, .block 13, .block 18, .block 20, .evt, .nor, .host, .cmd, .sig, .map, .rep, .store, .free, .out, .hostWait]) ?_ hp
  unfold State.linkUp
  repeat' first
    | with_reducible exact Within.refl _ _
    | with_reducible assumption
    | (show Part.sub _ _ = true; rfl)
    | (extract_lets +onlyGivenNames x; with_reducible refine Within.cut (u := x) ?_ ?_; rotate_left; intro hx; clear_value x; rename' x => y; rotate_right; unfold x; clear x)
    | (extract_lets +onlyGivenNames x; clear_value x; rename' x => z)
    | (extract_lets +onlyGivenNames x; rename' x => z)
    | dsimp -zeta only
    | with_reducible apply State.wr_frame
    | with_reducible apply State.setRep_frame
    | with_reducible apply State.postEnvelope_frame
    | with_reducible apply State.startResync_frame
    | with_reducible apply Within.ite
    | (with_reducible refine Within.foldl _ ?_ ?_; rotate_left; intro _ _)
    | (with_reducible refine Within.foldl_snd _ ?_ ?_; rotate_left; intro _ _)
    | fail_if_no_progress (with_reducible refine Within.put (a := []) ?_ rfl rfl rfl rfl rfl)
    | split

theorem execReplicationLinkEnable_frame link value s : Lands [.block 4, .block 6, .block 11, .block 13, .block 18, .block 20, .evt, .nor, .host, .cmd, .sig, .map, .rep, .store, .free, .out, .hostWait] s (execReplicationLinkEnable link value s) := by
  unfold execReplicationLinkEnable
  repeat' first
    | with_reducible exact Within.refl _ _
    | with_reducible assumption
    | (show Part.sub _ _ = true; rfl)
    | with_reducible apply Lands.next
    | (extract_lets +onlyGivenNames x; with_reducible refine Lands.cut (u := x) ?_ ?_; rotate_left; intro hx; clear_value x; rename' x => y; rotate_right; unfold x; clear x)
    | (extract_lets +onlyGivenNames x; with_reducible refine Within.cut (u := x) ?_ ?_; rotate_left; intro hx; clear_value x; rename' x => y; rotate_right; unfold x; clear x)
    | (extract_lets +onlyGivenNames x; clear_value x; rename' x => z)
    | (extract_lets +onlyGivenNames x; rename' x => z)
    | dsimp -zeta only
    | with_reducible apply State.wr_frame
    | with_reducible apply State.linkUp_frame
    | with_reducible apply Lands.ite
    | with_reducible apply Within.ite
    | fail_if_no_progress (with_reducible refine Within.put (a := [.rep]) ?_ rfl rfl rfl rfl rfl)
    | split

theorem execProbe_frame link e s : Lands [.block 4, .block 6, .block 11, .block 18, .evt, .nor, .host, .cmd, .rep, .free, .out, .hostWait] s (execProbe link e s) := by
  unfold execProbe
  repeat' first
    | with_reducible exact Within.refl _ _
    | with_reducible assumption
    | (show Part.sub _ _ = true; rfl)
    | with_reducible apply Lands.next
    | (extract_lets +onlyGivenNames x; with_reducible refine Lands.cut (u := x) ?_ ?_; rotate_left; intro hx; clear_value x; rename' x => y; rotate_right; unfold x; clear x)
    | (extract_lets +onlyGivenNames x; with_reducible refine Within.cut (u := x) ?_ ?_; rotate_left; intro hx; clear_value x; rename' x => y; rotate_right; unfold x; clear x)
    | (extract_lets +onlyGivenNames x; clear_value x; rename' x => z)
    | (extract_lets +onlyGivenNames x; rename' x => z)
    | dsimp -zeta only
    | with_reducible apply State.postEnvelope_frame
    | with_reducible apply State.consumeRing_frame
    | with_reducible apply State.sendEnvelope_frame
    | with_reducible apply State.sendRepAck_frame
    | with_reducible apply State.noteTag_frame
    | with_reducible apply State.takeSeq_frame
    | with_reducible apply Lands.ite
    | with_reducible apply Within.ite
    | split

theorem State.sendProbe_frame {ps s t} link (h : Within ps s t) (hp : Part.sub [.block 4, .block 6, .block 11, .block 18, .evt, .nor, .host, .cmd, .rep, .free, .out, .hostWait] ps = true) : Within ps s (State.sendProbe t link) := by
  refine h.step (a := [.block 4, .block 6, .block 11, .block 18, .evt, .nor, .host, .cmd, .rep, .free, .out, .hostWait]) ?_ hp
  unfold State.sendProbe
  repeat' first
    | with_reducible exact Within.refl _ _
    | with_reducible assumption
    | (show Part.sub _ _ = true; rfl)
    | (extract_lets +onlyGivenNames x; with_reducible refine Within.cut (u := x) ?_ ?_; rotate_left; intro hx; clear_value x; rename' x => y; rotate_right; unfold x; clear x)
    | (extract_lets +onlyGivenNames x; clear_value x; rename' x => z)
    | (extract_lets +onlyGivenNames x; rename' x => z)
    | dsimp -zeta only
    | with_reducible apply State.nextEnvelope_frame
    | with_reducible apply State.postEnvelope_frame
    | with_reducible apply State.sendEnvelope_frame
    | with_reducible apply Within.ite
    | fail_if_no_progress (with_reducible refine Within.put (a := []) ?_ rfl rfl rfl rfl rfl)
    | split

theorem execProbeTimer_frame link s : Lands [.block 4, .block 6, .block 11, .block 13, .block 18, .block 20, .evt, .nor, .host, .cmd, .sig, .map, .rep, .store, .free, .out, .hostWait] s (execProbeTimer link s) := by
  unfold execProbeTimer
  repeat' first
    | with_reducible exact Within.refl _ _
    | with_reducible assumption
    | (show Part.sub _ _ = true; rfl)
    | with_reducible apply Lands.next
    | (extract_lets +onlyGivenNames x; with_reducible refine Lands.cut (u := x) ?_ ?_; rotate_left; intro hx; clear_value x; rename' x => y; rotate_right; unfold x; clear x)
    | (extract_lets +onlyGivenNames x; with_reducible refine Within.cut (u := x) ?_ ?_; rotate_left; intro hx; clear_value x; rename' x => y; rotate_right; unfold x; clear x)
    | (extract_lets +onlyGivenNames x; clear_value x; rename' x => z)
    | (extract_lets +onlyGivenNames x; rename' x => z)
    | dsimp -zeta only
    | with_reducible apply State.event1_frame
    | with_reducible apply State.stallSet_frame
    | with_reducible apply State.linkDown_frame
    | with_reducible apply State.linkUp_frame
    | with_reducible apply State.sendProbe_frame
    | with_reducible apply Lands.ite
    | with_reducible apply Within.ite
    | (with_reducible refine Within.foldl _ ?_ ?_; rotate_left; intro _ _)
    | (with_reducible refine Within.foldl_snd _ ?_ ?_; rotate_left; intro _ _)
    | fail_if_no_progress (with_reducible refine Within.put (a := [.rep]) ?_ rfl rfl rfl rfl rfl)
    | split

theorem execSuspendExpiry_frame set s : Lands [.block 4, .block 6, .block 18, .evt, .nor, .host, .cmd, .rep, .out, .hostWait] s (execSuspendExpiry set s) := by
  unfold execSuspendExpiry
  repeat' first
    | with_reducible exact Within.refl _ _
    | with_reducible assumption
    | (show Part.sub _ _ = true; rfl)
    | with_reducible apply Lands.next
    | dsimp -zeta only
    | with_reducible apply State.enterTracking_frame
    | with_reducible apply Lands.ite
    | with_reducible apply Within.ite
    | split

theorem State.writeSetCfg_frame {ps s t} set value (h : Within ps s t) (hp : Part.sub [.block 18] ps = true) : Within ps s (State.writeSetCfg t set value) := by
  refine h.step (a := [.block 18]) ?_ hp
  unfold State.writeSetCfg
  repeat' first
    | with_reducible exact Within.refl _ _
    | with_reducible assumption
    | (show Part.sub _ _ = true; rfl)
    | (extract_lets +onlyGivenNames x; with_reducible refine Within.cut (u := x) ?_ ?_; rotate_left; intro hx; clear_value x; rename' x => y; rotate_right; unfold x; clear x)
    | (extract_lets +onlyGivenNames x; clear_value x; rename' x => z)
    | (extract_lets +onlyGivenNames x; rename' x => z)
    | dsimp -zeta only
    | with_reducible apply State.wr_frame
    | with_reducible apply Within.ite
    | split

theorem execSetEnable_frame set value far lacksKey s : Lands [.block 4, .block 6, .block 11, .block 13, .block 18, .block 20, .evt, .nor, .host, .cmd, .sig, .map, .rep, .store, .free, .out, .hostWait] s (execSetEnable set value far lacksKey s) := by
  unfold execSetEnable
  repeat' first
    | with_reducible exact Within.refl _ _
    | with_reducible assumption
    | (show Part.sub _ _ = true; rfl)
    | with_reducible apply Lands.next
    | (extract_lets +onlyGivenNames x; with_reducible refine Lands.cut (u := x) ?_ ?_; rotate_left; intro hx; clear_value x; rename' x => y; rotate_right; unfold x; clear x)
    | (extract_lets +onlyGivenNames x; with_reducible refine Within.cut (u := x) ?_ ?_; rotate_left; intro hx; clear_value x; rename' x => y; rotate_right; unfold x; clear x)
    | (extract_lets +onlyGivenNames x; clear_value x; rename' x => z)
    | (extract_lets +onlyGivenNames x; rename' x => z)
    | dsimp -zeta only
    | with_reducible apply State.wr_frame
    | with_reducible apply State.event1_frame
    | with_reducible apply State.setRep_frame
    | with_reducible apply State.releaseAll_frame
    | with_reducible apply State.breakSet_frame
    | with_reducible apply State.startSession_frame
    | with_reducible apply State.startResync_frame
    | with_reducible apply State.writeSetCfg_frame
    | with_reducible apply Lands.ite
    | with_reducible apply Within.ite
    | fail_if_no_progress (with_reducible refine Within.put (a := []) ?_ rfl rfl rfl rfl rfl)
    | split

theorem execResynchronise_frame set s : Lands [.block 4, .block 6, .block 11, .block 13, .block 18, .block 20, .evt, .nor, .host, .cmd, .sig, .map, .rep, .store, .free, .out, .hostWait] s (execResynchronise set s) := by
  unfold execResynchronise
  repeat' first
    | with_reducible exact Within.refl _ _
    | with_reducible assumption
    | (show Part.sub _ _ = true; rfl)
    | with_reducible apply Lands.next
    | dsimp -zeta only
    | with_reducible apply State.startResync_frame
    | with_reducible apply Lands.ite
    | with_reducible apply Within.ite
    | split

theorem execReverse_frame set s : Lands [.block 4, .block 6, .block 11, .block 13, .block 18, .block 20, .evt, .nor, .host, .cmd, .sig, .map, .rep, .store, .free, .out, .hostWait] s (execReverse set s) := by
  unfold execReverse
  repeat' first
    | with_reducible exact Within.refl _ _
    | with_reducible assumption
    | (show Part.sub _ _ = true; rfl)
    | with_reducible apply Lands.next
    | (extract_lets +onlyGivenNames x; with_reducible refine Lands.cut (u := x) ?_ ?_; rotate_left; intro hx; clear_value x; rename' x => y; rotate_right; unfold x; clear x)
    | (extract_lets +onlyGivenNames x; with_reducible refine Within.cut (u := x) ?_ ?_; rotate_left; intro hx; clear_value x; rename' x => y; rotate_right; unfold x; clear x)
    | (extract_lets +onlyGivenNames x; clear_value x; rename' x => z)
    | (extract_lets +onlyGivenNames x; rename' x => z)
    | dsimp -zeta only
    | with_reducible apply State.setRep_frame
    | with_reducible apply State.sealBatch_frame
    | with_reducible apply State.shipAnchor_frame
    | with_reducible apply Lands.ite
    | with_reducible apply Within.ite
    | fail_if_no_progress (with_reducible refine Within.put (a := []) ?_ rfl rfl rfl rfl rfl)
    | split

theorem execPromote_frame set s : Lands [.block 4, .block 6, .block 13, .block 18, .block 20, .evt, .nor, .host, .sig, .map, .rep, .store, .out, .hostWait] s (execPromote set s) := by
  unfold execPromote
  repeat' first
    | with_reducible exact Within.refl _ _
    | with_reducible assumption
    | (show Part.sub _ _ = true; rfl)
    | with_reducible apply Lands.next
    | (extract_lets +onlyGivenNames x; with_reducible refine Lands.cut (u := x) ?_ ?_; rotate_left; intro hx; clear_value x; rename' x => y; rotate_right; unfold x; clear x)
    | (extract_lets +onlyGivenNames x; with_reducible refine Within.cut (u := x) ?_ ?_; rotate_left; intro hx; clear_value x; rename' x => y; rotate_right; unfold x; clear x)
    | (extract_lets +onlyGivenNames x; clear_value x; rename' x => z)
    | (extract_lets +onlyGivenNames x; rename' x => z)
    | dsimp -zeta only
    | with_reducible apply State.wr_frame
    | with_reducible apply State.event1_frame
    | with_reducible apply State.setRep_frame
    | with_reducible apply State.takeAnchor_frame
    | with_reducible apply Lands.ite
    | with_reducible apply Within.ite
    | fail_if_no_progress (with_reducible refine Within.put (a := []) ?_ rfl rfl rfl rfl rfl)
    | split

end Sys2Proof.Machine
end

