-- ==== Sys2Proof/Laws/State.lean ====
section
/-!
SUPPORT. Laws/State.lean: the register file and the plain updates of the state: what a read gives after a write, and that each update leaves
the other fields alone.
-/
namespace Sys2Proof.Machine
open Sys2Proof

set_option Elab.async false

/-! Register fields -/

/-- What was written is read back, at the field's width. -/
@[simp] theorem State.rd_wr_same (s : State) (f : RField) (v i j : Nat) : (s.wr f v i j).rd f i j = v % 2 ^ f.width := by
  unfold State.rd State.wr
  dsimp only
  split
  · next h => rw [Table.get_drop_same, h]
  · rw [Table.get_put_same]

theorem State.rd_wr_key (s : State) (f g : RField) (v i j i' j' : Nat) (h : f.key i j ≠ g.key i' j') :
    (s.wr f v i j).rd g i' j' = s.rd g i' j' := by
  unfold State.rd State.wr
  dsimp only
  split
  · rw [Table.get_drop_other (Ne.symm h)]
  · rw [Table.get_put_other (Ne.symm h)]

/-- A write of another field leaves a field alone. -/
theorem State.rd_wr_field (s : State) (f g : RField) (v i j i' j' : Nat) (h : f.id ≠ g.id) :
    (s.wr f v i j).rd g i' j' = s.rd g i' j' := by
  refine s.rd_wr_key f g v i j i' j' ?_
  unfold RField.key
  omega

/-- A write of another element leaves an element alone. -/
theorem State.rd_wr_elem (s : State) (f : RField) (v i j i' j' : Nat) (h : i % 4096 ≠ i' % 4096 ∨ j % 4096 ≠ j' % 4096) :
    (s.wr f v i j).rd f i' j' = s.rd f i' j' := by
  refine s.rd_wr_key f f v i j i' j' ?_
  unfold RField.key
  omega

theorem State.on_wr_same (s : State) (f : RField) (v i j : Nat) : (s.wr f v i j).on f i j = (v % 2 ^ f.width == 1) := by
  unfold State.on
  rw [State.rd_wr_same]

theorem State.on_wr_field (s : State) (f g : RField) (v i j i' j' : Nat) (h : f.id ≠ g.id) :
    (s.wr f v i j).on g i' j' = s.on g i' j' := by
  unfold State.on
  rw [State.rd_wr_field _ _ _ _ _ _ _ _ h]

theorem State.rd_bump_same (s : State) (f : RField) (n i j : Nat) : (s.bump f n i j).rd f i j = satAdd f.width (s.rd f i j) n % 2 ^ f.width :=
  State.rd_wr_same ..

theorem State.rd_bump_field (s : State) (f g : RField) (n i j i' j' : Nat) (h : f.id ≠ g.id) :
    (s.bump f n i j).rd g i' j' = s.rd g i' j' := State.rd_wr_field _ _ _ _ _ _ _ _ h

theorem State.rd_peak_field (s : State) (f g : RField) (n i j i' j' : Nat) (h : f.id ≠ g.id) :
    (s.peak f n i j).rd g i' j' = s.rd g i' j' := State.rd_wr_field _ _ _ _ _ _ _ _ h

/-- The register file alone decides what a field reads. -/
theorem State.rd_congr {s t : State} (h : t.regs = s.regs) (f : RField) (i j : Nat) : t.rd f i j = s.rd f i j := by
  unfold State.rd
  rw [h]

/-! Plain updates -/

@[simp] theorem State.wr_pending (s : State) (f : RField) (v i j : Nat) : (s.wr f v i j).pending = s.pending := rfl
@[simp] theorem State.wr_holding (s : State) (f : RField) (v i j : Nat) : (s.wr f v i j).holding = s.holding := rfl
@[simp] theorem State.wr_clock (s : State) (f : RField) (v i j : Nat) : (s.wr f v i j).clock = s.clock := rfl
@[simp] theorem State.wr_ringTime (s : State) (f : RField) (v i j : Nat) : (s.wr f v i j).ringTime = s.ringTime := rfl
@[simp] theorem State.wr_pins (s : State) (f : RField) (v i j : Nat) : (s.wr f v i j).pins = s.pins := rfl
@[simp] theorem State.wr_fuses (s : State) (f : RField) (v i j : Nat) : (s.wr f v i j).fuses = s.fuses := rfl
@[simp] theorem State.wr_straps (s : State) (f : RField) (v i j : Nat) : (s.wr f v i j).straps = s.straps := rfl
@[simp] theorem State.wr_power (s : State) (f : RField) (v i j : Nat) : (s.wr f v i j).power = s.power := rfl
@[simp] theorem State.wr_boot (s : State) (f : RField) (v i j : Nat) : (s.wr f v i j).boot = s.boot := rfl
@[simp] theorem State.wr_test (s : State) (f : RField) (v i j : Nat) : (s.wr f v i j).test = s.test := rfl
@[simp] theorem State.wr_evt (s : State) (f : RField) (v i j : Nat) : (s.wr f v i j).evt = s.evt := rfl
@[simp] theorem State.wr_nor (s : State) (f : RField) (v i j : Nat) : (s.wr f v i j).nor = s.nor := rfl
@[simp] theorem State.wr_host (s : State) (f : RField) (v i j : Nat) : (s.wr f v i j).host = s.host := rfl
@[simp] theorem State.wr_ports (s : State) (f : RField) (v i j : Nat) : (s.wr f v i j).ports = s.ports := rfl
@[simp] theorem State.wr_trn (s : State) (f : RField) (v i j : Nat) : (s.wr f v i j).trn = s.trn := rfl
@[simp] theorem State.wr_cmd (s : State) (f : RField) (v i j : Nat) : (s.wr f v i j).cmd = s.cmd := rfl
@[simp] theorem State.wr_bnd (s : State) (f : RField) (v i j : Nat) : (s.wr f v i j).bnd = s.bnd := rfl
@[simp] theorem State.wr_ddp (s : State) (f : RField) (v i j : Nat) : (s.wr f v i j).ddp = s.ddp := rfl
@[simp] theorem State.wr_keys (s : State) (f : RField) (v i j : Nat) : (s.wr f v i j).keys = s.keys := rfl
@[simp] theorem State.wr_wc (s : State) (f : RField) (v i j : Nat) : (s.wr f v i j).wc = s.wc := rfl
@[simp] theorem State.wr_sig (s : State) (f : RField) (v i j : Nat) : (s.wr f v i j).sig = s.sig := rfl
@[simp] theorem State.wr_lfl (s : State) (f : RField) (v i j : Nat) : (s.wr f v i j).lfl = s.lfl := rfl
@[simp] theorem State.wr_map (s : State) (f : RField) (v i j : Nat) : (s.wr f v i j).map = s.map := rfl
@[simp] theorem State.wr_rep (s : State) (f : RField) (v i j : Nat) : (s.wr f v i j).rep = s.rep := rfl
@[simp] theorem State.wr_prg (s : State) (f : RField) (v i j : Nat) : (s.wr f v i j).prg = s.prg := rfl
@[simp] theorem State.wr_xrn (s : State) (f : RField) (v i j : Nat) : (s.wr f v i j).xrn = s.xrn := rfl
@[simp] theorem State.wr_chan (s : State) (f : RField) (v i j : Nat) : (s.wr f v i j).chan = s.chan := rfl
@[simp] theorem State.wr_own (s : State) (f : RField) (v i j : Nat) : (s.wr f v i j).own = s.own := rfl
@[simp] theorem State.wr_store (s : State) (f : RField) (v i j : Nat) : (s.wr f v i j).store = s.store := rfl
@[simp] theorem State.wr_mem (s : State) (f : RField) (v i j : Nat) : (s.wr f v i j).mem = s.mem := rfl
@[simp] theorem State.wr_free (s : State) (f : RField) (v i j : Nat) : (s.wr f v i j).free = s.free := rfl
@[simp] theorem State.wr_out (s : State) (f : RField) (v i j : Nat) : (s.wr f v i j).out = s.out := rfl
@[simp] theorem State.wr_hostWait (s : State) (f : RField) (v i j : Nat) : (s.wr f v i j).hostWait = s.hostWait := rfl

@[simp] theorem State.bump_pending (s : State) (f : RField) (v i j : Nat) : (s.bump f v i j).pending = s.pending := rfl
@[simp] theorem State.bump_holding (s : State) (f : RField) (v i j : Nat) : (s.bump f v i j).holding = s.holding := rfl
@[simp] theorem State.bump_clock (s : State) (f : RField) (v i j : Nat) : (s.bump f v i j).clock = s.clock := rfl
@[simp] theorem State.bump_ringTime (s : State) (f : RField) (v i j : Nat) : (s.bump f v i j).ringTime = s.ringTime := rfl
@[simp] theorem State.bump_pins (s : State) (f : RField) (v i j : Nat) : (s.bump f v i j).pins = s.pins := rfl
@[simp] theorem State.bump_fuses (s : State) (f : RField) (v i j : Nat) : (s.bump f v i j).fuses = s.fuses := rfl
@[simp] theorem State.bump_straps (s : State) (f : RField) (v i j : Nat) : (s.bump f v i j).straps = s.straps := rfl
@[simp] theorem State.bump_power (s : State) (f : RField) (v i j : Nat) : (s.bump f v i j).power = s.power := rfl
@[simp] theorem State.bump_boot (s : State) (f : RField) (v i j : Nat) : (s.bump f v i j).boot = s.boot := rfl
@[simp] theorem State.bump_test (s : State) (f : RField) (v i j : Nat) : (s.bump f v i j).test = s.test := rfl
@[simp] theorem State.bump_evt (s : State) (f : RField) (v i j : Nat) : (s.bump f v i j).evt = s.evt := rfl
@[simp] theorem State.bump_nor (s : State) (f : RField) (v i j : Nat) : (s.bump f v i j).nor = s.nor := rfl
@[simp] theorem State.bump_host (s : State) (f : RField) (v i j : Nat) : (s.bump f v i j).host = s.host := rfl
@[simp] theorem State.bump_ports (s : State) (f : RField) (v i j : Nat) : (s.bump f v i j).ports = s.ports := rfl
@[simp] theorem State.bump_trn (s : State) (f : RField) (v i j : Nat) : (s.bump f v i j).trn = s.trn := rfl
@[simp] theorem State.bump_cmd (s : State) (f : RField) (v i j : Nat) : (s.bump f v i j).cmd = s.cmd := rfl
@[simp] theorem State.bump_bnd (s : State) (f : RField) (v i j : Nat) : (s.bump f v i j).bnd = s.bnd := rfl
@[simp] theorem State.bump_ddp (s : State) (f : RField) (v i j : Nat) : (s.bump f v i j).ddp = s.ddp := rfl
@[simp] theorem State.bump_keys (s : State) (f : RField) (v i j : Nat) : (s.bump f v i j).keys = s.keys := rfl
@[simp] theorem State.bump_wc (s : State) (f : RField) (v i j : Nat) : (s.bump f v i j).wc = s.wc := rfl
@[simp] theorem State.bump_sig (s : State) (f : RField) (v i j : Nat) : (s.bump f v i j).sig = s.sig := rfl
@[simp] theorem State.bump_lfl (s : State) (f : RField) (v i j : Nat) : (s.bump f v i j).lfl = s.lfl := rfl
@[simp] theorem State.bump_map (s : State) (f : RField) (v i j : Nat) : (s.bump f v i j).map = s.map := rfl
@[simp] theorem State.bump_rep (s : State) (f : RField) (v i j : Nat) : (s.bump f v i j).rep = s.rep := rfl
@[simp] theorem State.bump_prg (s : State) (f : RField) (v i j : Nat) : (s.bump f v i j).prg = s.prg := rfl
@[simp] theorem State.bump_xrn (s : State) (f : RField) (v i j : Nat) : (s.bump f v i j).xrn = s.xrn := rfl
@[simp] theorem State.bump_chan (s : State) (f : RField) (v i j : Nat) : (s.bump f v i j).chan = s.chan := rfl
@[simp] theorem State.bump_own (s : State) (f : RField) (v i j : Nat) : (s.bump f v i j).own = s.own := rfl
@[simp] theorem State.bump_store (s : State) (f : RField) (v i j : Nat) : (s.bump f v i j).store = s.store := rfl
@[simp] theorem State.bump_mem (s : State) (f : RField) (v i j : Nat) : (s.bump f v i j).mem = s.mem := rfl
@[simp] theorem State.bump_free (s : State) (f : RField) (v i j : Nat) : (s.bump f v i j).free = s.free := rfl
@[simp] theorem State.bump_out (s : State) (f : RField) (v i j : Nat) : (s.bump f v i j).out = s.out := rfl
@[simp] theorem State.bump_hostWait (s : State) (f : RField) (v i j : Nat) : (s.bump f v i j).hostWait = s.hostWait := rfl

@[simp] theorem State.peak_pending (s : State) (f : RField) (v i j : Nat) : (s.peak f v i j).pending = s.pending := rfl
@[simp] theorem State.peak_holding (s : State) (f : RField) (v i j : Nat) : (s.peak f v i j).holding = s.holding := rfl
@[simp] theorem State.peak_clock (s : State) (f : RField) (v i j : Nat) : (s.peak f v i j).clock = s.clock := rfl
@[simp] theorem State.peak_ringTime (s : State) (f : RField) (v i j : Nat) : (s.peak f v i j).ringTime = s.ringTime := rfl
@[simp] theorem State.peak_pins (s : State) (f : RField) (v i j : Nat) : (s.peak f v i j).pins = s.pins := rfl
@[simp] theorem State.peak_fuses (s : State) (f : RField) (v i j : Nat) : (s.peak f v i j).fuses = s.fuses := rfl
@[simp] theorem State.peak_straps (s : State) (f : RField) (v i j : Nat) : (s.peak f v i j).straps = s.straps := rfl
@[simp] theorem State.peak_power (s : State) (f : RField) (v i j : Nat) : (s.peak f v i j).power = s.power := rfl
@[simp] theorem State.peak_boot (s : State) (f : RField) (v i j : Nat) : (s.peak f v i j).boot = s.boot := rfl
@[simp] theorem State.peak_test (s : State) (f : RField) (v i j : Nat) : (s.peak f v i j).test = s.test := rfl
@[simp] theorem State.peak_evt (s : State) (f : RField) (v i j : Nat) : (s.peak f v i j).evt = s.evt := rfl
@[simp] theorem State.peak_nor (s : State) (f : RField) (v i j : Nat) : (s.peak f v i j).nor = s.nor := rfl
@[simp] theorem State.peak_host (s : State) (f : RField) (v i j : Nat) : (s.peak f v i j).host = s.host := rfl
@[simp] theorem State.peak_ports (s : State) (f : RField) (v i j : Nat) : (s.peak f v i j).ports = s.ports := rfl
@[simp] theorem State.peak_trn (s : State) (f : RField) (v i j : Nat) : (s.peak f v i j).trn = s.trn := rfl
@[simp] theorem State.peak_cmd (s : State) (f : RField) (v i j : Nat) : (s.peak f v i j).cmd = s.cmd := rfl
@[simp] theorem State.peak_bnd (s : State) (f : RField) (v i j : Nat) : (s.peak f v i j).bnd = s.bnd := rfl
@[simp] theorem State.peak_ddp (s : State) (f : RField) (v i j : Nat) : (s.peak f v i j).ddp = s.ddp := rfl
@[simp] theorem State.peak_keys (s : State) (f : RField) (v i j : Nat) : (s.peak f v i j).keys = s.keys := rfl
@[simp] theorem State.peak_wc (s : State) (f : RField) (v i j : Nat) : (s.peak f v i j).wc = s.wc := rfl
@[simp] theorem State.peak_sig (s : State) (f : RField) (v i j : Nat) : (s.peak f v i j).sig = s.sig := rfl
@[simp] theorem State.peak_lfl (s : State) (f : RField) (v i j : Nat) : (s.peak f v i j).lfl = s.lfl := rfl
@[simp] theorem State.peak_map (s : State) (f : RField) (v i j : Nat) : (s.peak f v i j).map = s.map := rfl
@[simp] theorem State.peak_rep (s : State) (f : RField) (v i j : Nat) : (s.peak f v i j).rep = s.rep := rfl
@[simp] theorem State.peak_prg (s : State) (f : RField) (v i j : Nat) : (s.peak f v i j).prg = s.prg := rfl
@[simp] theorem State.peak_xrn (s : State) (f : RField) (v i j : Nat) : (s.peak f v i j).xrn = s.xrn := rfl
@[simp] theorem State.peak_chan (s : State) (f : RField) (v i j : Nat) : (s.peak f v i j).chan = s.chan := rfl
@[simp] theorem State.peak_own (s : State) (f : RField) (v i j : Nat) : (s.peak f v i j).own = s.own := rfl
@[simp] theorem State.peak_store (s : State) (f : RField) (v i j : Nat) : (s.peak f v i j).store = s.store := rfl
@[simp] theorem State.peak_mem (s : State) (f : RField) (v i j : Nat) : (s.peak f v i j).mem = s.mem := rfl
@[simp] theorem State.peak_free (s : State) (f : RField) (v i j : Nat) : (s.peak f v i j).free = s.free := rfl
@[simp] theorem State.peak_out (s : State) (f : RField) (v i j : Nat) : (s.peak f v i j).out = s.out := rfl
@[simp] theorem State.peak_hostWait (s : State) (f : RField) (v i j : Nat) : (s.peak f v i j).hostWait = s.hostWait := rfl

@[simp] theorem State.send_pending (s : State) (o : Out) : (s.send o).pending = s.pending := rfl
@[simp] theorem State.send_regs (s : State) (o : Out) : (s.send o).regs = s.regs := rfl
@[simp] theorem State.send_holding (s : State) (o : Out) : (s.send o).holding = s.holding := rfl
@[simp] theorem State.send_clock (s : State) (o : Out) : (s.send o).clock = s.clock := rfl
@[simp] theorem State.send_ringTime (s : State) (o : Out) : (s.send o).ringTime = s.ringTime := rfl
@[simp] theorem State.send_pins (s : State) (o : Out) : (s.send o).pins = s.pins := rfl
@[simp] theorem State.send_fuses (s : State) (o : Out) : (s.send o).fuses = s.fuses := rfl
@[simp] theorem State.send_straps (s : State) (o : Out) : (s.send o).straps = s.straps := rfl
@[simp] theorem State.send_power (s : State) (o : Out) : (s.send o).power = s.power := rfl
@[simp] theorem State.send_boot (s : State) (o : Out) : (s.send o).boot = s.boot := rfl
@[simp] theorem State.send_test (s : State) (o : Out) : (s.send o).test = s.test := rfl
@[simp] theorem State.send_evt (s : State) (o : Out) : (s.send o).evt = s.evt := rfl
@[simp] theorem State.send_nor (s : State) (o : Out) : (s.send o).nor = s.nor := rfl
@[simp] theorem State.send_host (s : State) (o : Out) : (s.send o).host = s.host := rfl
@[simp] theorem State.send_ports (s : State) (o : Out) : (s.send o).ports = s.ports := rfl
@[simp] theorem State.send_trn (s : State) (o : Out) : (s.send o).trn = s.trn := rfl
@[simp] theorem State.send_cmd (s : State) (o : Out) : (s.send o).cmd = s.cmd := rfl
@[simp] theorem State.send_bnd (s : State) (o : Out) : (s.send o).bnd = s.bnd := rfl
@[simp] theorem State.send_ddp (s : State) (o : Out) : (s.send o).ddp = s.ddp := rfl
@[simp] theorem State.send_keys (s : State) (o : Out) : (s.send o).keys = s.keys := rfl
@[simp] theorem State.send_wc (s : State) (o : Out) : (s.send o).wc = s.wc := rfl
@[simp] theorem State.send_sig (s : State) (o : Out) : (s.send o).sig = s.sig := rfl
@[simp] theorem State.send_lfl (s : State) (o : Out) : (s.send o).lfl = s.lfl := rfl
@[simp] theorem State.send_map (s : State) (o : Out) : (s.send o).map = s.map := rfl
@[simp] theorem State.send_rep (s : State) (o : Out) : (s.send o).rep = s.rep := rfl
@[simp] theorem State.send_prg (s : State) (o : Out) : (s.send o).prg = s.prg := rfl
@[simp] theorem State.send_xrn (s : State) (o : Out) : (s.send o).xrn = s.xrn := rfl
@[simp] theorem State.send_chan (s : State) (o : Out) : (s.send o).chan = s.chan := rfl
@[simp] theorem State.send_own (s : State) (o : Out) : (s.send o).own = s.own := rfl
@[simp] theorem State.send_store (s : State) (o : Out) : (s.send o).store = s.store := rfl
@[simp] theorem State.send_mem (s : State) (o : Out) : (s.send o).mem = s.mem := rfl
@[simp] theorem State.send_free (s : State) (o : Out) : (s.send o).free = s.free := rfl
@[simp] theorem State.send_hostWait (s : State) (o : Out) : (s.send o).hostWait = s.hostWait := rfl

@[simp] theorem State.setQuarter_pending (s : State) (q : Nat) (x : Quarter) : (s.setQuarter q x).pending = s.pending := rfl
@[simp] theorem State.setQuarter_regs (s : State) (q : Nat) (x : Quarter) : (s.setQuarter q x).regs = s.regs := rfl
@[simp] theorem State.setQuarter_holding (s : State) (q : Nat) (x : Quarter) : (s.setQuarter q x).holding = s.holding := rfl
@[simp] theorem State.setQuarter_clock (s : State) (q : Nat) (x : Quarter) : (s.setQuarter q x).clock = s.clock := rfl
@[simp] theorem State.setQuarter_ringTime (s : State) (q : Nat) (x : Quarter) : (s.setQuarter q x).ringTime = s.ringTime := rfl
@[simp] theorem State.setQuarter_pins (s : State) (q : Nat) (x : Quarter) : (s.setQuarter q x).pins = s.pins := rfl
@[simp] theorem State.setQuarter_fuses (s : State) (q : Nat) (x : Quarter) : (s.setQuarter q x).fuses = s.fuses := rfl
@[simp] theorem State.setQuarter_straps (s : State) (q : Nat) (x : Quarter) : (s.setQuarter q x).straps = s.straps := rfl
@[simp] theorem State.setQuarter_boot (s : State) (q : Nat) (x : Quarter) : (s.setQuarter q x).boot = s.boot := rfl
@[simp] theorem State.setQuarter_test (s : State) (q : Nat) (x : Quarter) : (s.setQuarter q x).test = s.test := rfl
@[simp] theorem State.setQuarter_evt (s : State) (q : Nat) (x : Quarter) : (s.setQuarter q x).evt = s.evt := rfl
@[simp] theorem State.setQuarter_nor (s : State) (q : Nat) (x : Quarter) : (s.setQuarter q x).nor = s.nor := rfl
@[simp] theorem State.setQuarter_host (s : State) (q : Nat) (x : Quarter) : (s.setQuarter q x).host = s.host := rfl
@[simp] theorem State.setQuarter_ports (s : State) (q : Nat) (x : Quarter) : (s.setQuarter q x).ports = s.ports := rfl
@[simp] theorem State.setQuarter_trn (s : State) (q : Nat) (x : Quarter) : (s.setQuarter q x).trn = s.trn := rfl
@[simp] theorem State.setQuarter_cmd (s : State) (q : Nat) (x : Quarter) : (s.setQuarter q x).cmd = s.cmd := rfl
@[simp] theorem State.setQuarter_bnd (s : State) (q : Nat) (x : Quarter) : (s.setQuarter q x).bnd = s.bnd := rfl
@[simp] theorem State.setQuarter_ddp (s : State) (q : Nat) (x : Quarter) : (s.setQuarter q x).ddp = s.ddp := rfl
@[simp] theorem State.setQuarter_keys (s : State) (q : Nat) (x : Quarter) : (s.setQuarter q x).keys = s.keys := rfl
@[simp] theorem State.setQuarter_wc (s : State) (q : Nat) (x : Quarter) : (s.setQuarter q x).wc = s.wc := rfl
@[simp] theorem State.setQuarter_sig (s : State) (q : Nat) (x : Quarter) : (s.setQuarter q x).sig = s.sig := rfl
@[simp] theorem State.setQuarter_lfl (s : State) (q : Nat) (x : Quarter) : (s.setQuarter q x).lfl = s.lfl := rfl
@[simp] theorem State.setQuarter_map (s : State) (q : Nat) (x : Quarter) : (s.setQuarter q x).map = s.map := rfl
@[simp] theorem State.setQuarter_rep (s : State) (q : Nat) (x : Quarter) : (s.setQuarter q x).rep = s.rep := rfl
@[simp] theorem State.setQuarter_prg (s : State) (q : Nat) (x : Quarter) : (s.setQuarter q x).prg = s.prg := rfl
@[simp] theorem State.setQuarter_xrn (s : State) (q : Nat) (x : Quarter) : (s.setQuarter q x).xrn = s.xrn := rfl
@[simp] theorem State.setQuarter_chan (s : State) (q : Nat) (x : Quarter) : (s.setQuarter q x).chan = s.chan := rfl
@[simp] theorem State.setQuarter_own (s : State) (q : Nat) (x : Quarter) : (s.setQuarter q x).own = s.own := rfl
@[simp] theorem State.setQuarter_store (s : State) (q : Nat) (x : Quarter) : (s.setQuarter q x).store = s.store := rfl
@[simp] theorem State.setQuarter_mem (s : State) (q : Nat) (x : Quarter) : (s.setQuarter q x).mem = s.mem := rfl
@[simp] theorem State.setQuarter_free (s : State) (q : Nat) (x : Quarter) : (s.setQuarter q x).free = s.free := rfl
@[simp] theorem State.setQuarter_out (s : State) (q : Nat) (x : Quarter) : (s.setQuarter q x).out = s.out := rfl
@[simp] theorem State.setQuarter_hostWait (s : State) (q : Nat) (x : Quarter) : (s.setQuarter q x).hostWait = s.hostWait := rfl

@[simp] theorem State.setTag_pending (s : State) (t : Nat) (c : Cmd) : (s.setTag t c).pending = s.pending := rfl
@[simp] theorem State.setTag_regs (s : State) (t : Nat) (c : Cmd) : (s.setTag t c).regs = s.regs := rfl
@[simp] theorem State.setTag_holding (s : State) (t : Nat) (c : Cmd) : (s.setTag t c).holding = s.holding := rfl
@[simp] theorem State.setTag_clock (s : State) (t : Nat) (c : Cmd) : (s.setTag t c).clock = s.clock := rfl
@[simp] theorem State.setTag_ringTime (s : State) (t : Nat) (c : Cmd) : (s.setTag t c).ringTime = s.ringTime := rfl
@[simp] theorem State.setTag_pins (s : State) (t : Nat) (c : Cmd) : (s.setTag t c).pins = s.pins := rfl
@[simp] theorem State.setTag_fuses (s : State) (t : Nat) (c : Cmd) : (s.setTag t c).fuses = s.fuses := rfl
@[simp] theorem State.setTag_straps (s : State) (t : Nat) (c : Cmd) : (s.setTag t c).straps = s.straps := rfl
@[simp] theorem State.setTag_power (s : State) (t : Nat) (c : Cmd) : (s.setTag t c).power = s.power := rfl
@[simp] theorem State.setTag_boot (s : State) (t : Nat) (c : Cmd) : (s.setTag t c).boot = s.boot := rfl
@[simp] theorem State.setTag_test (s : State) (t : Nat) (c : Cmd) : (s.setTag t c).test = s.test := rfl
@[simp] theorem State.setTag_evt (s : State) (t : Nat) (c : Cmd) : (s.setTag t c).evt = s.evt := rfl
@[simp] theorem State.setTag_nor (s : State) (t : Nat) (c : Cmd) : (s.setTag t c).nor = s.nor := rfl
@[simp] theorem State.setTag_host (s : State) (t : Nat) (c : Cmd) : (s.setTag t c).host = s.host := rfl
@[simp] theorem State.setTag_ports (s : State) (t : Nat) (c : Cmd) : (s.setTag t c).ports = s.ports := rfl
@[simp] theorem State.setTag_trn (s : State) (t : Nat) (c : Cmd) : (s.setTag t c).trn = s.trn := rfl
@[simp] theorem State.setTag_bnd (s : State) (t : Nat) (c : Cmd) : (s.setTag t c).bnd = s.bnd := rfl
@[simp] theorem State.setTag_ddp (s : State) (t : Nat) (c : Cmd) : (s.setTag t c).ddp = s.ddp := rfl
@[simp] theorem State.setTag_keys (s : State) (t : Nat) (c : Cmd) : (s.setTag t c).keys = s.keys := rfl
@[simp] theorem State.setTag_wc (s : State) (t : Nat) (c : Cmd) : (s.setTag t c).wc = s.wc := rfl
@[simp] theorem State.setTag_sig (s : State) (t : Nat) (c : Cmd) : (s.setTag t c).sig = s.sig := rfl
@[simp] theorem State.setTag_lfl (s : State) (t : Nat) (c : Cmd) : (s.setTag t c).lfl = s.lfl := rfl
@[simp] theorem State.setTag_map (s : State) (t : Nat) (c : Cmd) : (s.setTag t c).map = s.map := rfl
@[simp] theorem State.setTag_rep (s : State) (t : Nat) (c : Cmd) : (s.setTag t c).rep = s.rep := rfl
@[simp] theorem State.setTag_prg (s : State) (t : Nat) (c : Cmd) : (s.setTag t c).prg = s.prg := rfl
@[simp] theorem State.setTag_xrn (s : State) (t : Nat) (c : Cmd) : (s.setTag t c).xrn = s.xrn := rfl
@[simp] theorem State.setTag_chan (s : State) (t : Nat) (c : Cmd) : (s.setTag t c).chan = s.chan := rfl
@[simp] theorem State.setTag_own (s : State) (t : Nat) (c : Cmd) : (s.setTag t c).own = s.own := rfl
@[simp] theorem State.setTag_store (s : State) (t : Nat) (c : Cmd) : (s.setTag t c).store = s.store := rfl
@[simp] theorem State.setTag_mem (s : State) (t : Nat) (c : Cmd) : (s.setTag t c).mem = s.mem := rfl
@[simp] theorem State.setTag_free (s : State) (t : Nat) (c : Cmd) : (s.setTag t c).free = s.free := rfl
@[simp] theorem State.setTag_out (s : State) (t : Nat) (c : Cmd) : (s.setTag t c).out = s.out := rfl
@[simp] theorem State.setTag_hostWait (s : State) (t : Nat) (c : Cmd) : (s.setTag t c).hostWait = s.hostWait := rfl

@[simp] theorem State.setSlice_pending (s : State) (n : Nat) (x : Slice) : (s.setSlice n x).pending = s.pending := rfl
@[simp] theorem State.setSlice_regs (s : State) (n : Nat) (x : Slice) : (s.setSlice n x).regs = s.regs := rfl
@[simp] theorem State.setSlice_holding (s : State) (n : Nat) (x : Slice) : (s.setSlice n x).holding = s.holding := rfl
@[simp] theorem State.setSlice_clock (s : State) (n : Nat) (x : Slice) : (s.setSlice n x).clock = s.clock := rfl
@[simp] theorem State.setSlice_ringTime (s : State) (n : Nat) (x : Slice) : (s.setSlice n x).ringTime = s.ringTime := rfl
@[simp] theorem State.setSlice_pins (s : State) (n : Nat) (x : Slice) : (s.setSlice n x).pins = s.pins := rfl
@[simp] theorem State.setSlice_fuses (s : State) (n : Nat) (x : Slice) : (s.setSlice n x).fuses = s.fuses := rfl
@[simp] theorem State.setSlice_straps (s : State) (n : Nat) (x : Slice) : (s.setSlice n x).straps = s.straps := rfl
@[simp] theorem State.setSlice_power (s : State) (n : Nat) (x : Slice) : (s.setSlice n x).power = s.power := rfl
@[simp] theorem State.setSlice_boot (s : State) (n : Nat) (x : Slice) : (s.setSlice n x).boot = s.boot := rfl
@[simp] theorem State.setSlice_test (s : State) (n : Nat) (x : Slice) : (s.setSlice n x).test = s.test := rfl
@[simp] theorem State.setSlice_evt (s : State) (n : Nat) (x : Slice) : (s.setSlice n x).evt = s.evt := rfl
@[simp] theorem State.setSlice_nor (s : State) (n : Nat) (x : Slice) : (s.setSlice n x).nor = s.nor := rfl
@[simp] theorem State.setSlice_ports (s : State) (n : Nat) (x : Slice) : (s.setSlice n x).ports = s.ports := rfl
@[simp] theorem State.setSlice_trn (s : State) (n : Nat) (x : Slice) : (s.setSlice n x).trn = s.trn := rfl
@[simp] theorem State.setSlice_cmd (s : State) (n : Nat) (x : Slice) : (s.setSlice n x).cmd = s.cmd := rfl
@[simp] theorem State.setSlice_bnd (s : State) (n : Nat) (x : Slice) : (s.setSlice n x).bnd = s.bnd := rfl
@[simp] theorem State.setSlice_ddp (s : State) (n : Nat) (x : Slice) : (s.setSlice n x).ddp = s.ddp := rfl
@[simp] theorem State.setSlice_keys (s : State) (n : Nat) (x : Slice) : (s.setSlice n x).keys = s.keys := rfl
@[simp] theorem State.setSlice_wc (s : State) (n : Nat) (x : Slice) : (s.setSlice n x).wc = s.wc := rfl
@[simp] theorem State.setSlice_sig (s : State) (n : Nat) (x : Slice) : (s.setSlice n x).sig = s.sig := rfl
@[simp] theorem State.setSlice_lfl (s : State) (n : Nat) (x : Slice) : (s.setSlice n x).lfl = s.lfl := rfl
@[simp] theorem State.setSlice_map (s : State) (n : Nat) (x : Slice) : (s.setSlice n x).map = s.map := rfl
@[simp] theorem State.setSlice_rep (s : State) (n : Nat) (x : Slice) : (s.setSlice n x).rep = s.rep := rfl
@[simp] theorem State.setSlice_prg (s : State) (n : Nat) (x : Slice) : (s.setSlice n x).prg = s.prg := rfl
@[simp] theorem State.setSlice_xrn (s : State) (n : Nat) (x : Slice) : (s.setSlice n x).xrn = s.xrn := rfl
@[simp] theorem State.setSlice_chan (s : State) (n : Nat) (x : Slice) : (s.setSlice n x).chan = s.chan := rfl
@[simp] theorem State.setSlice_own (s : State) (n : Nat) (x : Slice) : (s.setSlice n x).own = s.own := rfl
@[simp] theorem State.setSlice_store (s : State) (n : Nat) (x : Slice) : (s.setSlice n x).store = s.store := rfl
@[simp] theorem State.setSlice_mem (s : State) (n : Nat) (x : Slice) : (s.setSlice n x).mem = s.mem := rfl
@[simp] theorem State.setSlice_free (s : State) (n : Nat) (x : Slice) : (s.setSlice n x).free = s.free := rfl
@[simp] theorem State.setSlice_out (s : State) (n : Nat) (x : Slice) : (s.setSlice n x).out = s.out := rfl
@[simp] theorem State.setSlice_hostWait (s : State) (n : Nat) (x : Slice) : (s.setSlice n x).hostWait = s.hostWait := rfl

@[simp] theorem State.setQp_pending (s : State) (n : Nat) (x : Qp) : (s.setQp n x).pending = s.pending := rfl
@[simp] theorem State.setQp_regs (s : State) (n : Nat) (x : Qp) : (s.setQp n x).regs = s.regs := rfl
@[simp] theorem State.setQp_holding (s : State) (n : Nat) (x : Qp) : (s.setQp n x).holding = s.holding := rfl
@[simp] theorem State.setQp_clock (s : State) (n : Nat) (x : Qp) : (s.setQp n x).clock = s.clock := rfl
@[simp] theorem State.setQp_ringTime (s : State) (n : Nat) (x : Qp) : (s.setQp n x).ringTime = s.ringTime := rfl
@[simp] theorem State.setQp_pins (s : State) (n : Nat) (x : Qp) : (s.setQp n x).pins = s.pins := rfl
@[simp] theorem State.setQp_fuses (s : State) (n : Nat) (x : Qp) : (s.setQp n x).fuses = s.fuses := rfl
@[simp] theorem State.setQp_straps (s : State) (n : Nat) (x : Qp) : (s.setQp n x).straps = s.straps := rfl
@[simp] theorem State.setQp_power (s : State) (n : Nat) (x : Qp) : (s.setQp n x).power = s.power := rfl
@[simp] theorem State.setQp_boot (s : State) (n : Nat) (x : Qp) : (s.setQp n x).boot = s.boot := rfl
@[simp] theorem State.setQp_test (s : State) (n : Nat) (x : Qp) : (s.setQp n x).test = s.test := rfl
@[simp] theorem State.setQp_evt (s : State) (n : Nat) (x : Qp) : (s.setQp n x).evt = s.evt := rfl
@[simp] theorem State.setQp_nor (s : State) (n : Nat) (x : Qp) : (s.setQp n x).nor = s.nor := rfl
@[simp] theorem State.setQp_host (s : State) (n : Nat) (x : Qp) : (s.setQp n x).host = s.host := rfl
@[simp] theorem State.setQp_ports (s : State) (n : Nat) (x : Qp) : (s.setQp n x).ports = s.ports := rfl
@[simp] theorem State.setQp_cmd (s : State) (n : Nat) (x : Qp) : (s.setQp n x).cmd = s.cmd := rfl
@[simp] theorem State.setQp_bnd (s : State) (n : Nat) (x : Qp) : (s.setQp n x).bnd = s.bnd := rfl
@[simp] theorem State.setQp_ddp (s : State) (n : Nat) (x : Qp) : (s.setQp n x).ddp = s.ddp := rfl
@[simp] theorem State.setQp_keys (s : State) (n : Nat) (x : Qp) : (s.setQp n x).keys = s.keys := rfl
@[simp] theorem State.setQp_wc (s : State) (n : Nat) (x : Qp) : (s.setQp n x).wc = s.wc := rfl
@[simp] theorem State.setQp_sig (s : State) (n : Nat) (x : Qp) : (s.setQp n x).sig = s.sig := rfl
@[simp] theorem State.setQp_lfl (s : State) (n : Nat) (x : Qp) : (s.setQp n x).lfl = s.lfl := rfl
@[simp] theorem State.setQp_map (s : State) (n : Nat) (x : Qp) : (s.setQp n x).map = s.map := rfl
@[simp] theorem State.setQp_rep (s : State) (n : Nat) (x : Qp) : (s.setQp n x).rep = s.rep := rfl
@[simp] theorem State.setQp_prg (s : State) (n : Nat) (x : Qp) : (s.setQp n x).prg = s.prg := rfl
@[simp] theorem State.setQp_xrn (s : State) (n : Nat) (x : Qp) : (s.setQp n x).xrn = s.xrn := rfl
@[simp] theorem State.setQp_chan (s : State) (n : Nat) (x : Qp) : (s.setQp n x).chan = s.chan := rfl
@[simp] theorem State.setQp_own (s : State) (n : Nat) (x : Qp) : (s.setQp n x).own = s.own := rfl
@[simp] theorem State.setQp_store (s : State) (n : Nat) (x : Qp) : (s.setQp n x).store = s.store := rfl
@[simp] theorem State.setQp_mem (s : State) (n : Nat) (x : Qp) : (s.setQp n x).mem = s.mem := rfl
@[simp] theorem State.setQp_free (s : State) (n : Nat) (x : Qp) : (s.setQp n x).free = s.free := rfl
@[simp] theorem State.setQp_out (s : State) (n : Nat) (x : Qp) : (s.setQp n x).out = s.out := rfl
@[simp] theorem State.setQp_hostWait (s : State) (n : Nat) (x : Qp) : (s.setQp n x).hostWait = s.hostWait := rfl

@[simp] theorem State.send_out (s : State) (o : Out) : (s.send o).out = o :: s.out := rfl

theorem State.quarter_setQuarter (s : State) (q : Nat) (x : Quarter) : (s.setQuarter q x).quarter q = x :=
  Table.get_put_same ..

theorem State.quarter_setQuarter_other (s : State) {q r : Nat} (x : Quarter) (h : r ≠ q) : (s.setQuarter q x).quarter r = s.quarter r :=
  Table.get_put_other h ..

end Sys2Proof.Machine
end

