-- ==== Sys2Proof/Laws/Step.lean ====
section
/-!
SUPPORT. Laws/Step.lean: what a command and a step can do, over the whole table: every command leaves the queue and the model's clock alone and
keeps the canonical form, and so does the passing of time.
-/
namespace Sys2Proof.Machine
open Sys2Proof

set_option Elab.async false
set_option linter.all false

/-- Every part of the state. -/
def Part.every : List Part :=
  [.regs, .holding, .ringTime, .pins, .fuses, .straps, .power, .boot, .test, .evt, .nor, .host, .ports, .trn, .cmd, .bnd, .ddp, .keys, .wc, .sig,
    .lfl, .map, .rep, .prg, .xrn, .chan, .own, .store, .mem, .free, .out, .hostWait]

/-- Each command changes parts of the state alone. -/
theorem exec_lands (c : Instr) (s : State) : Lands Part.every s (exec c s) :=
  match c with
  | .registerWrite address size value => (show Lands _ s (execRegisterWrite address size value s) from (execRegisterWrite_frame _ _ _ s).mono rfl)
  | .rcRead address size => (show Lands _ s (execRcRead address size s) from (execRcRead_frame _ _ s).mono rfl)
  | .badSizeAccess write address size => (show Lands _ s (execBadSizeAccess write address size s) from (execBadSizeAccess_frame _ _ _ s).mono rfl)
  | .setupLockWrite block value => (show Lands _ s (execSetupLockWrite block value s) from (execSetupLockWrite_frame _ _ s).mono rfl)
  | .vinGood latchLost => (show Lands _ s (execVinGood latchLost s) from (execVinGood_frame _ s).mono rfl)
  | .vinCollapse torn => (show Lands _ s (execVinCollapse torn s) from (execVinCollapse_frame _ s).mono rfl)
  | .vinOvervoltage torn => (show Lands _ s (execVinOvervoltage torn s) from (execVinOvervoltage_frame _ s).mono rfl)
  | .converterPhaseLoss => (show Lands _ s (execConverterPhaseLoss s) from (execConverterPhaseLoss_frame  s).mono rfl)
  | .resetBallAssert => (show Lands _ s (execResetBallAssert s) from (execResetBallAssert_frame  s).mono rfl)
  | .strapSample straps qk0 => (show Lands _ s (execStrapSample straps qk0 s) from (execStrapSample_frame _ _ s).mono rfl)
  | .bootImageLoaded => (show Lands _ s (execBootImageLoaded s) from (execBootImageLoaded_frame  s).mono rfl)
  | .firmwareStart good bad installed pairEpoch => (show Lands _ s (execFirmwareStart good bad installed pairEpoch s) from (execFirmwareStart_frame _ _ _ _ s).mono rfl)
  | .partSelfReset => (show Lands _ s (execPartSelfReset s) from (execPartSelfReset_frame  s).mono rfl)
  | .pciePerstAssert => (show Lands _ s (execPciePerstAssert s) from (execPciePerstAssert_frame  s).mono rfl)
  | .functionReset cause => (show Lands _ s (execFunctionReset cause s) from (execFunctionReset_frame _ s).mono rfl)
  | .atsInvalidate tag => (show Lands _ s (execAtsInvalidate tag s) from (execAtsInvalidate_frame _ s).mono rfl)
  | .hostRequestFailed owner => (show Lands _ s (execHostRequestFailed owner s) from (execHostRequestFailed_frame _ s).mono rfl)
  | .frameReceive frame => (show Lands _ s (execFrameReceive frame s) from (execFrameReceive_frame _ s).mono rfl)
  | .hostLimitWindow => (show Lands _ s (execHostLimitWindow s) from (execHostLimitWindow_frame  s).mono rfl)
  | .linkChange lport up => (show Lands _ s (execLinkChange lport up s) from (execLinkChange_frame _ _ s).mono rfl)
  | .pfcReceive lport times => (show Lands _ s (execPfcReceive lport times s) from (execPfcReceive_frame _ _ s).mono rfl)
  | .xoffRefresh => (show Lands _ s (execXoffRefresh s) from (execXoffRefresh_frame  s).mono rfl)
  | .roceCnp qpn => (show Lands _ s (execRoceCnp qpn s) from (execRoceCnp_frame _ s).mono rfl)
  | .rateIncrease qpn => (show Lands _ s (execRateIncrease qpn s) from (execRateIncrease_frame _ s).mono rfl)
  | .frameTransmit frame => (show Lands _ s (execFrameTransmit frame s) from (execFrameTransmit_frame _ s).mono rfl)
  | .ptpTxStampRead port => (show Lands _ s (execPtpTxStampRead port s) from (execPtpTxStampRead_frame _ s).mono rfl)
  | .contextWritebackAck qpn => (show Lands _ s (execContextWritebackAck qpn s) from (execContextWritebackAck_frame _ s).mono rfl)
  | .contextEligible qpn => (show Lands _ s (execContextEligible qpn s) from (execContextEligible_frame _ s).mono rfl)
  | .contextFetchDone qpn ns result => (show Lands _ s (execContextFetchDone qpn ns result s) from (execContextFetchDone_frame _ _ _ s).mono rfl)
  | .laybyDrainPacket qpn => (show Lands _ s (execLaybyDrainPacket qpn s) from (execLaybyDrainPacket_frame _ s).mono rfl)
  | .roceSend packet => (show Lands _ s (execRoceSend packet s) from (execRoceSend_frame _ s).mono rfl)
  | .roceSendInvalidate packet => (show Lands _ s (execRoceSendInvalidate packet s) from (execRoceSendInvalidate_frame _ s).mono rfl)
  | .roceRdmaWrite packet => (show Lands _ s (execRoceRdmaWrite packet s) from (execRoceRdmaWrite_frame _ s).mono rfl)
  | .roceReadRequest packet => (show Lands _ s (execRoceReadRequest packet s) from (execRoceReadRequest_frame _ s).mono rfl)
  | .roceReadResponse packet => (show Lands _ s (execRoceReadResponse packet s) from (execRoceReadResponse_frame _ s).mono rfl)
  | .roceAcknowledge packet => (show Lands _ s (execRoceAcknowledge packet s) from (execRoceAcknowledge_frame _ s).mono rfl)
  | .roceAtomic packet => (show Lands _ s (execRoceAtomic packet s) from (execRoceAtomic_frame _ s).mono rfl)
  | .ackCoalesceTimer qpn => (show Lands _ s (execAckCoalesceTimer qpn s) from (execAckCoalesceTimer_frame _ s).mono rfl)
  | .ackTimeout qpn => (show Lands _ s (execAckTimeout qpn s) from (execAckTimeout_frame _ s).mono rfl)
  | .rnrTimer qpn => (show Lands _ s (execRnrTimer qpn s) from (execRnrTimer_frame _ s).mono rfl)
  | .finalFlagProcess qpn => (show Lands _ s (execFinalFlagProcess qpn s) from (execFinalFlagProcess_frame _ s).mono rfl)
  | .invalidationComplete region => (show Lands _ s (execInvalidationComplete region s) from (execInvalidationComplete_frame _ s).mono rfl)
  | .trnStateWrite value => (show Lands _ s (execTrnStateWrite value s) from (execTrnStateWrite_frame _ s).mono rfl)
  | .capsuleArrive cap => (show Lands _ s (execCapsuleArrive cap s) from (execCapsuleArrive_frame _ s).mono rfl)
  | .tagAssign => (show Lands _ s (execTagAssign s) from (execTagAssign_frame  s).mono rfl)
  | .completionQueued tag => (show Lands _ s (execCompletionQueued tag s) from (execCompletionQueued_frame _ s).mono rfl)
  | .tagFree tag => (show Lands _ s (execTagFree tag s) from (execTagFree_frame _ s).mono rfl)
  | .holdRelease => (show Lands _ s (execHoldRelease s) from (execHoldRelease_frame  s).mono rfl)
  | .getLogPage tag => (show Lands _ s (execGetLogPage tag s) from (execGetLogPage_frame _ s).mono rfl)
  | .identify tag => (show Lands _ s (execIdentify tag s) from (execIdentify_frame _ s).mono rfl)
  | .abort tag => (show Lands _ s (execAbort tag s) from (execAbort_frame _ s).mono rfl)
  | .setFeatures tag => (show Lands _ s (execSetFeatures tag s) from (execSetFeatures_frame _ s).mono rfl)
  | .getFeatures tag => (show Lands _ s (execGetFeatures tag s) from (execGetFeatures_frame _ s).mono rfl)
  | .asynchronousEventRequest tag => (show Lands _ s (execAsynchronousEventRequest tag s) from (execAsynchronousEventRequest_frame _ s).mono rfl)
  | .firmwareImageDownload tag => (show Lands _ s (execFirmwareImageDownload tag s) from (execFirmwareImageDownload_frame _ s).mono rfl)
  | .firmwareCommit tag => (show Lands _ s (execFirmwareCommit tag s) from (execFirmwareCommit_frame _ s).mono rfl)
  | .keepAlive tag => (show Lands _ s (execKeepAlive tag s) from (execKeepAlive_frame _ s).mono rfl)
  | .keepAliveExpiry ctrl => (show Lands _ s (execKeepAliveExpiry ctrl s) from (execKeepAliveExpiry_frame _ s).mono rfl)
  | .fabricsConnect tag => (show Lands _ s (execFabricsConnect tag s) from (execFabricsConnect_frame _ s).mono rfl)
  | .propertyGet tag => (show Lands _ s (execPropertyGet tag s) from (execPropertyGet_frame _ s).mono rfl)
  | .propertySet tag => (show Lands _ s (execPropertySet tag s) from (execPropertySet_frame _ s).mono rfl)
  | .disconnect tag => (show Lands _ s (execDisconnect tag s) from (execDisconnect_frame _ s).mono rfl)
  | .cstsRdyClear ctrl => (show Lands _ s (execCstsRdyClear ctrl s) from (execCstsRdyClear_frame _ s).mono rfl)
  | .shutdownComplete ctrl => (show Lands _ s (execShutdownComplete ctrl s) from (execShutdownComplete_frame _ s).mono rfl)
  | .formatNvm tag => (show Lands _ s (execFormatNvm tag s) from (execFormatNvm_frame _ s).mono rfl)
  | .flush tag => (show Lands _ s (execFlush tag s) from (execFlush_frame _ s).mono rfl)
  | .write tag => (show Lands _ s (execWrite tag s) from (execWrite_frame _ s).mono rfl)
  | .read tag => (show Lands _ s (execRead tag s) from (execRead_frame _ s).mono rfl)
  | .compare tag => (show Lands _ s (execCompare tag s) from (execCompare_frame _ s).mono rfl)
  | .writeZeroes tag => (show Lands _ s (execWriteZeroes tag s) from (execWriteZeroes_frame _ s).mono rfl)
  | .datasetManagement tag => (show Lands _ s (execDatasetManagement tag s) from (execDatasetManagement_frame _ s).mono rfl)
  | .reservationRegister tag => (show Lands _ s (execReservationRegister tag s) from (execReservationRegister_frame _ s).mono rfl)
  | .reservationReport tag => (show Lands _ s (execReservationReport tag s) from (execReservationReport_frame _ s).mono rfl)
  | .reservationAcquire tag => (show Lands _ s (execReservationAcquire tag s) from (execReservationAcquire_frame _ s).mono rfl)
  | .reservationRelease tag => (show Lands _ s (execReservationRelease tag s) from (execReservationRelease_frame _ s).mono rfl)
  | .snapshotCreate tag => (show Lands _ s (execSnapshotCreate tag s) from (execSnapshotCreate_frame _ s).mono rfl)
  | .snapshotDelete tag => (show Lands _ s (execSnapshotDelete tag s) from (execSnapshotDelete_frame _ s).mono rfl)
  | .snapshotList tag => (show Lands _ s (execSnapshotList tag s) from (execSnapshotList_frame _ s).mono rfl)
  | .cloneCreate tag => (show Lands _ s (execCloneCreate tag s) from (execCloneCreate_frame _ s).mono rfl)
  | .programRun tag => (show Lands _ s (execProgramRun tag s) from (execProgramRun_frame _ s).mono rfl)
  | .programResults tag => (show Lands _ s (execProgramResults tag s) from (execProgramResults_frame _ s).mono rfl)
  | .ps3EntryEnd => (show Lands _ s (execPs3EntryEnd s) from (execPs3EntryEnd_frame  s).mono rfl)
  | .ps3ExitEnd => (show Lands _ s (execPs3ExitEnd s) from (execPs3ExitEnd_frame  s).mono rfl)
  | .gearSeedWrite value => (show Lands _ s (execGearSeedWrite value s) from (execGearSeedWrite_frame _ s).mono rfl)
  | .digestStateDone ready => (show Lands _ s (execDigestStateDone ready s) from (execDigestStateDone_frame _ s).mono rfl)
  | .dedupLookup tag off damaged upset => (show Lands _ s (execDedupLookup tag off damaged upset s) from (execDedupLookup_frame _ _ _ _ s).mono rfl)
  | .lookupAnswer tag off fault => (show Lands _ s (execLookupAnswer tag off fault s) from (execLookupAnswer_frame _ _ _ s).mono rfl)
  | .verifyCompare tag off faults => (show Lands _ s (execVerifyCompare tag off faults s) from (execVerifyCompare_frame _ _ _ s).mono rfl)
  | .reconcileEntry upset => (show Lands _ s (execReconcileEntry upset s) from (execReconcileEntry_frame _ s).mono rfl)
  | .domainSweep sweep => (show Lands _ s (execDomainSweep sweep s) from (execDomainSweep_frame _ s).mono rfl)
  | .domainCfgWrite domain value => (show Lands _ s (execDomainCfgWrite domain value s) from (execDomainCfgWrite_frame _ _ s).mono rfl)
  | .cascadeJournalEntry domain fp pair seq upset => (show Lands _ s (execCascadeJournalEntry domain fp pair seq upset s) from (execCascadeJournalEntry_frame _ _ _ _ _ s).mono rfl)
  | .cascadeHomeAnswer seq answer => (show Lands _ s (execCascadeHomeAnswer seq answer s) from (execCascadeHomeAnswer_frame _ _ s).mono rfl)
  | .cascadeRelease pair seq loc => (show Lands _ s (execCascadeRelease pair seq loc s) from (execCascadeRelease_frame _ _ _ s).mono rfl)
  | .remoteRead pair tag piece loc => (show Lands _ s (execRemoteRead pair tag piece loc s) from (execRemoteRead_frame _ _ _ _ s).mono rfl)
  | .remoteReadData tag piece container => (show Lands _ s (execRemoteReadData tag piece container s) from (execRemoteReadData_frame _ _ _ s).mono rfl)
  | .lostNotice domain home loc => (show Lands _ s (execLostNotice domain home loc s) from (execLostNotice_frame _ _ _ s).mono rfl)
  | .containerDecode tag at_ => (show Lands _ s (execContainerDecode tag at_ s) from (execContainerDecode_frame _ _ s).mono rfl)
  | .secondCopyArrive tag piece copy => (show Lands _ s (execSecondCopyArrive tag piece copy s) from (execSecondCopyArrive_frame _ _ _ s).mono rfl)
  | .compJob c job => (show Lands _ s (execCompJob c job s) from (execCompJob_frame _ _ s).mono rfl)
  | .cipherJob c job => (show Lands _ s (execCipherJob c job s) from (execCipherJob_frame _ _ s).mono rfl)
  | .jobSliceEnd c bytes fault upset => (show Lands _ s (execJobSliceEnd c bytes fault upset s) from (execJobSliceEnd_frame _ _ _ _ s).mono rfl)
  | .keyLoad c load damaged => (show Lands _ s (execKeyLoad c load damaged s) from (execKeyLoad_frame _ _ _ s).mono rfl)
  | .keyRetire c slot => (show Lands _ s (execKeyRetire c slot s) from (execKeyRetire_frame _ _ s).mono rfl)
  | .keyRevoke c kind slot => (show Lands _ s (execKeyRevoke c kind slot s) from (execKeyRevoke_frame _ _ _ s).mono rfl)
  | .keyResweep c domain => (show Lands _ s (execKeyResweep c domain s) from (execKeyResweep_frame _ _ s).mono rfl)
  | .kekLoad value => (show Lands _ s (execKekLoad value s) from (execKekLoad_frame _ s).mono rfl)
  | .mirrorWriteRecord rcd crc => (show Lands _ s (execMirrorWriteRecord rcd crc s) from (execMirrorWriteRecord_frame _ _ s).mono rfl)
  | .mirrorMetadataRecord rcd crc => (show Lands _ s (execMirrorMetadataRecord rcd crc s) from (execMirrorMetadataRecord_frame _ _ s).mono rfl)
  | .mirrorReleaseRecord rcd crc => (show Lands _ s (execMirrorReleaseRecord rcd crc s) from (execMirrorReleaseRecord_frame _ _ s).mono rfl)
  | .mirrorApplyDdrAck seq => (show Lands _ s (execMirrorApplyDdrAck seq s) from (execMirrorApplyDdrAck_frame _ s).mono rfl)
  | .mirrorAck ack => (show Lands _ s (execMirrorAck ack s) from (execMirrorAck_frame _ s).mono rfl)
  | .mirrorAckTimeout seq => (show Lands _ s (execMirrorAckTimeout seq s) from (execMirrorAckTimeout_frame _ s).mono rfl)
  | .soloDdrAck tag => (show Lands _ s (execSoloDdrAck tag s) from (execSoloDdrAck_frame _ s).mono rfl)
  | .segmentAgeExpiry seg => (show Lands _ s (execSegmentAgeExpiry seg s) from (execSegmentAgeExpiry_frame _ s).mono rfl)
  | .laneStallResume lane => (show Lands _ s (execLaneStallResume lane s) from (execLaneStallResume_frame _ s).mono rfl)
  | .vinLowWarning => (show Lands _ s (execVinLowWarning s) from (execVinLowWarning_frame  s).mono rfl)
  | .pwrfailNLow => (show Lands _ s (execPwrfailNLow s) from (execPwrfailNLow_frame  s).mono rfl)
  | .destageNow => (show Lands _ s (execDestageNow s) from (execDestageNow_frame  s).mono rfl)
  | .frontLinksDown => (show Lands _ s (execFrontLinksDown s) from (execFrontLinksDown_frame  s).mono rfl)
  | .destageSealed => (show Lands _ s (execDestageSealed s) from (execDestageSealed_frame  s).mono rfl)
  | .powerFailNotice => (show Lands _ s (execPowerFailNotice s) from (execPowerFailNotice_frame  s).mono rfl)
  | .pfHoldoffExpiry => (show Lands _ s (execPfHoldoffExpiry s) from (execPfHoldoffExpiry_frame  s).mono rfl)
  | .sewSignature pool bad => (show Lands _ s (execSewSignature pool bad s) from (execSewSignature_frame _ _ s).mono rfl)
  | .logPageSend => (show Lands _ s (execLogPageSend s) from (execLogPageSend_frame  s).mono rfl)
  | .logAppendAck id => (show Lands _ s (execLogAppendAck id s) from (execLogAppendAck_frame _ s).mono rfl)
  | .logCopyTimeout copy => (show Lands _ s (execLogCopyTimeout copy s) from (execLogCopyTimeout_frame _ s).mono rfl)
  | .logReseedDone copy => (show Lands _ s (execLogReseedDone copy s) from (execLogReseedDone_frame _ s).mono rfl)
  | .folioWriteComplete id => (show Lands _ s (execFolioWriteComplete id s) from (execFolioWriteComplete_frame _ s).mono rfl)
  | .folioWriteFail id nand => (show Lands _ s (execFolioWriteFail id nand s) from (execFolioWriteFail_frame _ _ s).mono rfl)
  | .grantRequest leaf => (show Lands _ s (execGrantRequest leaf s) from (execGrantRequest_frame _ s).mono rfl)
  | .poolTable pools => (show Lands _ s (execPoolTable pools s) from (execPoolTable_frame _ s).mono rfl)
  | .gcCollect pool => (show Lands _ s (execGcCollect pool s) from (execGcCollect_frame _ s).mono rfl)
  | .quireDrained quire => (show Lands _ s (execQuireDrained quire s) from (execQuireDrained_frame _ s).mono rfl)
  | .quireEraseComplete id => (show Lands _ s (execQuireEraseComplete id s) from (execQuireEraseComplete_frame _ s).mono rfl)
  | .leafAbsent leaf => (show Lands _ s (execLeafAbsent leaf s) from (execLeafAbsent_frame _ s).mono rfl)
  | .leafAbsentTimeout leaf => (show Lands _ s (execLeafAbsentTimeout leaf s) from (execLeafAbsentTimeout_frame _ s).mono rfl)
  | .leafReturn leaf => (show Lands _ s (execLeafReturn leaf s) from (execLeafReturn_frame _ s).mono rfl)
  | .leafDrain leaf => (show Lands _ s (execLeafDrain leaf s) from (execLeafDrain_frame _ s).mono rfl)
  | .leafFail leaf => (show Lands _ s (execLeafFail leaf s) from (execLeafFail_frame _ s).mono rfl)
  | .leafReadmit leaf => (show Lands _ s (execLeafReadmit leaf s) from (execLeafReadmit_frame _ s).mono rfl)
  | .drainComplete leaf => (show Lands _ s (execDrainComplete leaf s) from (execDrainComplete_frame _ s).mono rfl)
  | .slowMemberTimeout id => (show Lands _ s (execSlowMemberTimeout id s) from (execSlowMemberTimeout_frame _ s).mono rfl)
  | .rebuildQuire => (show Lands _ s (execRebuildQuire s) from (execRebuildQuire_frame  s).mono rfl)
  | .acceptLoss pool => (show Lands _ s (execAcceptLoss pool s) from (execAcceptLoss_frame _ s).mono rfl)
  | .patrolSignature quire sig found => (show Lands _ s (execPatrolSignature quire sig found s) from (execPatrolSignature_frame _ _ _ s).mono rfl)
  | .poolEnable pool value => (show Lands _ s (execPoolEnable pool value s) from (execPoolEnable_frame _ _ s).mono rfl)
  | .poolMemberAdd pool word value => (show Lands _ s (execPoolMemberAdd pool word value s) from (execPoolMemberAdd_frame _ _ _ s).mono rfl)
  | .leafHopActive lane pos => (show Lands _ s (execLeafHopActive lane pos s) from (execLeafHopActive_frame _ _ s).mono rfl)
  | .leafHopDown lane pos => (show Lands _ s (execLeafHopDown lane pos s) from (execLeafHopDown_frame _ _ s).mono rfl)
  | .leafHopDetect lane pos => (show Lands _ s (execLeafHopDetect lane pos s) from (execLeafHopDetect_frame _ _ s).mono rfl)
  | .leafReplayRequest lane pos seq => (show Lands _ s (execLeafReplayRequest lane pos seq s) from (execLeafReplayRequest_frame _ _ _ s).mono rfl)
  | .leafEnumerationAnswer lane answer => (show Lands _ s (execLeafEnumerationAnswer lane answer s) from (execLeafEnumerationAnswer_frame _ _ s).mono rfl)
  | .leafIdentifyCompletion id ident => (show Lands _ s (execLeafIdentifyCompletion id ident s) from (execLeafIdentifyCompletion_frame _ _ s).mono rfl)
  | .leafSerialExchange serials => (show Lands _ s (execLeafSerialExchange serials s) from (execLeafSerialExchange_frame _ s).mono rfl)
  | .leafReadCompletion id used current words => (show Lands _ s (execLeafReadCompletion id used current words s) from (execLeafReadCompletion_frame _ _ _ _ s).mono rfl)
  | .leafErrorCompletion id status => (show Lands _ s (execLeafErrorCompletion id status s) from (execLeafErrorCompletion_frame _ _ s).mono rfl)
  | .proxyLeafRead id leaf unit folio first count => (show Lands _ s (execProxyLeafRead id leaf unit folio first count s) from (execProxyLeafRead_frame _ _ _ _ _ _ s).mono rfl)
  | .plannerMeasurements measures => (show Lands _ s (execPlannerMeasurements measures s) from (execPlannerMeasurements_frame _ s).mono rfl)
  | .planInterval => (show Lands _ s (execPlanInterval s) from (execPlanInterval_frame  s).mono rfl)
  | .witnessReadCompletion id rcd => (show Lands _ s (execWitnessReadCompletion id rcd s) from (execWitnessReadCompletion_frame _ _ s).mono rfl)
  | .witnessCasCompletion id rcd => (show Lands _ s (execWitnessCasCompletion id rcd s) from (execWitnessCasCompletion_frame _ _ s).mono rfl)
  | .pageInComplete page result => (show Lands _ s (execPageInComplete page result s) from (execPageInComplete_frame _ _ s).mono rfl)
  | .reclaimPage => (show Lands _ s (execReclaimPage s) from (execReclaimPage_frame  s).mono rfl)
  | .nsCreate c params => (show Lands _ s (execNsCreate c params s) from (execNsCreate_frame _ _ s).mono rfl)
  | .nsChange c params => (show Lands _ s (execNsChange c params s) from (execNsChange_frame _ _ s).mono rfl)
  | .nsDelete c nsid => (show Lands _ s (execNsDelete c nsid s) from (execNsDelete_frame _ _ s).mono rfl)
  | .mapImport c nsid addr container => (show Lands _ s (execMapImport c nsid addr container s) from (execMapImport_frame _ _ _ _ s).mono rfl)
  | .poolMoveComplete nsid => (show Lands _ s (execPoolMoveComplete nsid s) from (execPoolMoveComplete_frame _ s).mono rfl)
  | .cgArm group => (show Lands _ s (execCgArm group s) from (execCgArm_frame _ s).mono rfl)
  | .cgAbandon group => (show Lands _ s (execCgAbandon group s) from (execCgAbandon_frame _ s).mono rfl)
  | .consistencyCut group => (show Lands _ s (execConsistencyCut group s) from (execConsistencyCut_frame _ s).mono rfl)
  | .mapCacheFill line parity => (show Lands _ s (execMapCacheFill line parity s) from (execMapCacheFill_frame _ _ s).mono rfl)
  | .mapCacheEnable value => (show Lands _ s (execMapCacheEnable value s) from (execMapCacheEnable_frame _ s).mono rfl)
  | .invalidateAll => (show Lands _ s (execInvalidateAll s) from (execInvalidateAll_frame  s).mono rfl)
  | .invalidateRange lines => (show Lands _ s (execInvalidateRange lines s) from (execInvalidateRange_frame _ s).mono rfl)
  | .invalidateDone => (show Lands _ s (execInvalidateDone s) from (execInvalidateDone_frame  s).mono rfl)
  | .streamBatch e => (show Lands _ s (execStreamBatch e s) from (execStreamBatch_frame _ s).mono rfl)
  | .difference e => (show Lands _ s (execDifference e s) from (execDifference_frame _ s).mono rfl)
  | .wantReply e => (show Lands _ s (execWantReply e s) from (execWantReply_frame _ s).mono rfl)
  | .anchorMark e => (show Lands _ s (execAnchorMark e s) from (execAnchorMark_frame _ s).mono rfl)
  | .replicationAck e probe => (show Lands _ s (execReplicationAck e probe s) from (execReplicationAck_frame _ _ s).mono rfl)
  | .probe link e => (show Lands _ s (execProbe link e s) from (execProbe_frame _ _ s).mono rfl)
  | .probeTimer link => (show Lands _ s (execProbeTimer link s) from (execProbeTimer_frame _ s).mono rfl)
  | .envelopeRelease set head => (show Lands _ s (execEnvelopeRelease set head s) from (execEnvelopeRelease_frame _ _ s).mono rfl)
  | .batchClose set => (show Lands _ s (execBatchClose set s) from (execBatchClose_frame _ s).mono rfl)
  | .idleWatermark set => (show Lands _ s (execIdleWatermark set s) from (execIdleWatermark_frame _ s).mono rfl)
  | .anchorPeriod set => (show Lands _ s (execAnchorPeriod set s) from (execAnchorPeriod_frame _ s).mono rfl)
  | .replicationLinkDown link => (show Lands _ s (execReplicationLinkDown link s) from (execReplicationLinkDown_frame _ s).mono rfl)
  | .suspendExpiry set => (show Lands _ s (execSuspendExpiry set s) from (execSuspendExpiry_frame _ s).mono rfl)
  | .setEnable set value far lacksKey => (show Lands _ s (execSetEnable set value far lacksKey s) from (execSetEnable_frame _ _ _ _ s).mono rfl)
  | .replicationLinkEnable link value => (show Lands _ s (execReplicationLinkEnable link value s) from (execReplicationLinkEnable_frame _ _ s).mono rfl)
  | .resynchronise set => (show Lands _ s (execResynchronise set s) from (execResynchronise_frame _ s).mono rfl)
  | .reverse set => (show Lands _ s (execReverse set s) from (execReverse_frame _ s).mono rfl)
  | .promote set => (show Lands _ s (execPromote set s) from (execPromote_frame _ s).mono rfl)
  | .prgLoad c tenant slot replace reservedZero package => (show Lands _ s (execPrgLoad c tenant slot replace reservedZero package s) from (execPrgLoad_frame _ _ _ _ _ _ s).mono rfl)
  | .prgUnload c tenant slot => (show Lands _ s (execPrgUnload c tenant slot s) from (execPrgUnload_frame _ _ _ s).mono rfl)
  | .programTableUpdate tenant slot package => (show Lands _ s (execProgramTableUpdate tenant slot package s) from (execProgramTableUpdate_frame _ _ _ s).mono rfl)
  | .hostRun c params => (show Lands _ s (execHostRun c params s) from (execHostRun_frame _ _ s).mono rfl)
  | .indexBuild c params => (show Lands _ s (execIndexBuild c params s) from (execIndexBuild_frame _ _ s).mono rfl)
  | .tapAttach c nsid slot tiles dest len => (show Lands _ s (execTapAttach c nsid slot tiles dest len s) from (execTapAttach_frame _ _ _ _ _ _ s).mono rfl)
  | .tapDetach c nsid slot => (show Lands _ s (execTapDetach c nsid slot s) from (execTapDetach_frame _ _ _ s).mono rfl)
  | .tileGrant => (show Lands _ s (execTileGrant s) from (execTileGrant_frame  s).mono rfl)
  | .pieceDeliver run tile faults => (show Lands _ s (execPieceDeliver run tile faults s) from (execPieceDeliver_frame _ _ _ s).mono rfl)
  | .budgetExceeded run => (show Lands _ s (execBudgetExceeded run s) from (execBudgetExceeded_frame _ s).mono rfl)
  | .runComplete run => (show Lands _ s (execRunComplete run s) from (execRunComplete_frame _ s).mono rfl)
  | .resultKeepExpiry run => (show Lands _ s (execResultKeepExpiry run s) from (execResultKeepExpiry_frame _ s).mono rfl)
  | .tileFence tile => (show Lands _ s (execTileFence tile s) from (execTileFence_frame _ s).mono rfl)
  | .accountingUpdate => (show Lands _ s (execAccountingUpdate s) from (execAccountingUpdate_frame  s).mono rfl)
  | .acctClear value => (show Lands _ s (execAcctClear value s) from (execAcctClear_frame _ s).mono rfl)
  | .ringHello link hello => (show Lands _ s (execRingHello link hello s) from (execRingHello_frame _ _ s).mono rfl)
  | .ringLinkDown link partials => (show Lands _ s (execRingLinkDown link partials s) from (execRingLinkDown_frame _ _ s).mono rfl)
  | .ringLinkDetect link => (show Lands _ s (execRingLinkDetect link s) from (execRingLinkDetect_frame _ s).mono rfl)
  | .ringTrainingTimeout link => (show Lands _ s (execRingTrainingTimeout link s) from (execRingTrainingTimeout_frame _ s).mono rfl)
  | .ringReplayRequest link seq => (show Lands _ s (execRingReplayRequest link seq s) from (execRingReplayRequest_frame _ _ s).mono rfl)
  | .partialMessageTimeout link => (show Lands _ s (execPartialMessageTimeout link s) from (execPartialMessageTimeout_frame _ s).mono rfl)
  | .enumerationFlit link term keeper depth => (show Lands _ s (execEnumerationFlit link term keeper depth s) from (execEnumerationFlit_frame _ _ _ _ s).mono rfl)
  | .enumerationJoin join => (show Lands _ s (execEnumerationJoin join s) from (execEnumerationJoin_frame _ s).mono rfl)
  | .enumerationDirectory entries homes => (show Lands _ s (execEnumerationDirectory entries homes s) from (execEnumerationDirectory_frame _ _ s).mono rfl)
  | .keeperGatherExpiry => (show Lands _ s (execKeeperGatherExpiry s) from (execKeeperGatherExpiry_frame  s).mono rfl)
  | .addressReserveExpiry address => (show Lands _ s (execAddressReserveExpiry address s) from (execAddressReserveExpiry_frame _ s).mono rfl)
  | .leave => (show Lands _ s (execLeave s) from (execLeave_frame  s).mono rfl)
  | .leaveNotice device => (show Lands _ s (execLeaveNotice device s) from (execLeaveNotice_frame _ s).mono rfl)
  | .deviceIsolatedTimeout device => (show Lands _ s (execDeviceIsolatedTimeout device s) from (execDeviceIsolatedTimeout_frame _ s).mono rfl)
  | .timeFlitSend link => (show Lands _ s (execTimeFlitSend link s) from (execTimeFlitSend_frame _ s).mono rfl)
  | .timeFlit link flit => (show Lands _ s (execTimeFlit link flit s) from (execTimeFlit_frame _ _ s).mono rfl)
  | .parentTimeLost => (show Lands _ s (execParentTimeLost s) from (execParentTimeLost_frame  s).mono rfl)
  | .holdoverExpiry => (show Lands _ s (execHoldoverExpiry s) from (execHoldoverExpiry_frame  s).mono rfl)
  | .keeperLost => (show Lands _ s (execKeeperLost s) from (execKeeperLost_frame  s).mono rfl)
  | .floorPassed => (show Lands _ s (execFloorPassed s) from (execFloorPassed_frame  s).mono rfl)
  | .timeCeilingRewrite => (show Lands _ s (execTimeCeilingRewrite s) from (execTimeCeilingRewrite_frame  s).mono rfl)
  | .heartbeatSend => (show Lands _ s (execHeartbeatSend s) from (execHeartbeatSend_frame  s).mono rfl)
  | .heartbeat beat => (show Lands _ s (execHeartbeat beat s) from (execHeartbeat_frame _ s).mono rfl)
  | .peerSuspect => (show Lands _ s (execPeerSuspect s) from (execPeerSuspect_frame  s).mono rfl)
  | .stuckSuspectExpiry => (show Lands _ s (execStuckSuspectExpiry s) from (execStuckSuspectExpiry_frame  s).mono rfl)
  | .startHeartbeatTimeout => (show Lands _ s (execStartHeartbeatTimeout s) from (execStartHeartbeatTimeout_frame  s).mono rfl)
  | .contestRetry => (show Lands _ s (execContestRetry s) from (execContestRetry_frame  s).mono rfl)
  | .force => (show Lands _ s (execForce s) from (execForce_frame  s).mono rfl)
  | .epochProposal prop => (show Lands _ s (execEpochProposal prop s) from (execEpochProposal_frame _ s).mono rfl)
  | .epochAccept epoch => (show Lands _ s (execEpochAccept epoch s) from (execEpochAccept_frame _ s).mono rfl)
  | .forwardedCommand h cap => (show Lands _ s (execForwardedCommand h cap s) from (execForwardedCommand_frame _ _ s).mono rfl)
  | .forwardedData fromOwner h units => (show Lands _ s (execForwardedData fromOwner h units s) from (execForwardedData_frame _ _ _ s).mono rfl)
  | .forwardedCompletion h => (show Lands _ s (execForwardedCompletion h s) from (execForwardedCompletion_frame _ s).mono rfl)
  | .moveRequest group take => (show Lands _ s (execMoveRequest group take s) from (execMoveRequest_frame _ _ s).mono rfl)
  | .moveAccept group gen => (show Lands _ s (execMoveAccept group gen s) from (execMoveAccept_frame _ _ s).mono rfl)
  | .ownMove value => (show Lands _ s (execOwnMove value s) from (execOwnMove_frame _ s).mono rfl)
  | .moveDrained => (show Lands _ s (execMoveDrained s) from (execMoveDrained_frame  s).mono rfl)
  | .healthReportSend => (show Lands _ s (execHealthReportSend s) from (execHealthReportSend_frame  s).mono rfl)
  | .healthReport ready trial => (show Lands _ s (execHealthReport ready trial s) from (execHealthReport_frame _ _ s).mono rfl)
  | .rejoinRequest => (show Lands _ s (execRejoinRequest s) from (execRejoinRequest_frame  s).mono rfl)
  | .scrubStep => (show Lands _ s (execScrubStep s) from (execScrubStep_frame  s).mono rfl)
  | .scrubDigest what digest last => (show Lands _ s (execScrubDigest what digest last s) from (execScrubDigest_frame _ _ _ s).mono rfl)
  | .scrubPageRequest what => (show Lands _ s (execScrubPageRequest what s) from (execScrubPageRequest_frame _ s).mono rfl)
  | .scrubPageImage image => (show Lands _ s (execScrubPageImage image s) from (execScrubPageImage_frame _ s).mono rfl)
  | .sqTailDoorbell offset size value => (show Lands _ s (execSqTailDoorbell offset size value s) from (execSqTailDoorbell_frame _ _ _ s).mono rfl)
  | .cqHeadDoorbell offset size value => (show Lands _ s (execCqHeadDoorbell offset size value s) from (execCqHeadDoorbell_frame _ _ _ s).mono rfl)
  | .sqFetch slice ring entry => (show Lands _ s (execSqFetch slice ring entry s) from (execSqFetch_frame _ _ _ s).mono rfl)
  | .cqInterruptTimer slice ring => (show Lands _ s (execCqInterruptTimer slice ring s) from (execCqInterruptTimer_frame _ _ s).mono rfl)
  | .hello c major lo hi => (show Lands _ s (execHello c major lo hi s) from (execHello_frame _ _ _ _ s).mono rfl)
  | .nop c => (show Lands _ s (execNop c s) from (execNop_frame _ s).mono rfl)
  | .cancel c ring cid waiting => (show Lands _ s (execCancel c ring cid waiting s) from (execCancel_frame _ _ _ _ s).mono rfl)
  | .ringCreate c params => (show Lands _ s (execRingCreate c params s) from (execRingCreate_frame _ _ s).mono rfl)
  | .ringDelete c ring => (show Lands _ s (execRingDelete c ring s) from (execRingDelete_frame _ _ s).mono rfl)
  | .sliceCreate c params => (show Lands _ s (execSliceCreate c params s) from (execSliceCreate_frame _ _ s).mono rfl)
  | .sliceDestroy c slice => (show Lands _ s (execSliceDestroy c slice s) from (execSliceDestroy_frame _ _ s).mono rfl)
  | .sliceFreeze c slice => (show Lands _ s (execSliceFreeze c slice s) from (execSliceFreeze_frame _ _ s).mono rfl)
  | .sliceThaw c slice => (show Lands _ s (execSliceThaw c slice s) from (execSliceThaw_frame _ _ s).mono rfl)
  | .sliceSave c slice => (show Lands _ s (execSliceSave c slice s) from (execSliceSave_frame _ _ s).mono rfl)
  | .sliceRestore c slice pasid image => (show Lands _ s (execSliceRestore c slice pasid image s) from (execSliceRestore_frame _ _ _ _ s).mono rfl)
  | .sliceReset c slice mode unfetched => (show Lands _ s (execSliceReset c slice mode unfetched s) from (execSliceReset_frame _ _ _ _ s).mono rfl)
  | .sliceQuiesced slice => (show Lands _ s (execSliceQuiesced slice s) from (execSliceQuiesced_frame _ s).mono rfl)
  | .mgrEnable value => (show Lands _ s (execMgrEnable value s) from (execMgrEnable_frame _ s).mono rfl)
  | .frameSend c frame => (show Lands _ s (execFrameSend c frame s) from (execFrameSend_frame _ _ s).mono rfl)
  | .frameRxPost c lport address length => (show Lands _ s (execFrameRxPost c lport address length s) from (execFrameRxPost_frame _ _ _ _ s).mono rfl)
  | .qpCreate c qpn ctx => (show Lands _ s (execQpCreate c qpn ctx s) from (execQpCreate_frame _ _ _ s).mono rfl)
  | .qpModify c qpn mask ctx => (show Lands _ s (execQpModify c qpn mask ctx s) from (execQpModify_frame _ _ _ _ s).mono rfl)
  | .qpDestroy c qpn => (show Lands _ s (execQpDestroy c qpn s) from (execQpDestroy_frame _ _ s).mono rfl)
  | .qpQuery c qpn => (show Lands _ s (execQpQuery c qpn s) from (execQpQuery_frame _ _ s).mono rfl)
  | .regionRegister c index region => (show Lands _ s (execRegionRegister c index region s) from (execRegionRegister_frame _ _ _ s).mono rfl)
  | .regionInvalidate c key => (show Lands _ s (execRegionInvalidate c key s) from (execRegionInvalidate_frame _ _ s).mono rfl)
  | .wrPost c wr => (show Lands _ s (execWrPost c wr s) from (execWrPost_frame _ _ s).mono rfl)
  | .dmaXfer c desc => (show Lands _ s (execDmaXfer c desc s) from (execDmaXfer_frame _ _ s).mono rfl)
  | .dmaPause c channel => (show Lands _ s (execDmaPause c channel s) from (execDmaPause_frame _ _ s).mono rfl)
  | .dmaResume c channel => (show Lands _ s (execDmaResume c channel s) from (execDmaResume_frame _ _ s).mono rfl)
  | .dmaChPause channel => (show Lands _ s (execDmaChPause channel s) from (execDmaChPause_frame _ s).mono rfl)
  | .dmaChResume channel => (show Lands _ s (execDmaChResume channel s) from (execDmaChResume_frame _ s).mono rfl)
  | .dmaChWithdraw channel => (show Lands _ s (execDmaChWithdraw channel s) from (execDmaChWithdraw_frame _ s).mono rfl)
  | .dmaBurstDone channel host failure => (show Lands _ s (execDmaBurstDone channel host failure s) from (execDmaBurstDone_frame _ _ _ s).mono rfl)
  | .tokenRequest quarter cls tokens => (show Lands _ s (execTokenRequest quarter cls tokens s) from (execTokenRequest_frame _ _ _ s).mono rfl)
  | .tokenReturn quarter => (show Lands _ s (execTokenReturn quarter s) from (execTokenReturn_frame _ s).mono rfl)
  | .recallAck quarter => (show Lands _ s (execRecallAck quarter s) from (execRecallAck_frame _ s).mono rfl)
  | .recallTimeout quarter => (show Lands _ s (execRecallTimeout quarter s) from (execRecallTimeout_frame _ s).mono rfl)
  | .budgetWrite value => (show Lands _ s (execBudgetWrite value s) from (execBudgetWrite_frame _ s).mono rfl)
  | .powerCheck millivolts measured => (show Lands _ s (execPowerCheck millivolts measured s) from (execPowerCheck_frame _ _ s).mono rfl)
  | .trimDecay => (show Lands _ s (execTrimDecay s) from (execTrimDecay_frame  s).mono rfl)
  | .quarterClockFault quarter => (show Lands _ s (execQuarterClockFault quarter s) from (execQuarterClockFault_frame _ s).mono rfl)
  | .sysclkLoss => (show Lands _ s (execSysclkLoss s) from (execSysclkLoss_frame  s).mono rfl)
  | .quarterWake quarter => (show Lands _ s (execQuarterWake quarter s) from (execQuarterWake_frame _ s).mono rfl)
  | .quarterPowerOff quarter => (show Lands _ s (execQuarterPowerOff quarter s) from (execQuarterPowerOff_frame _ s).mono rfl)
  | .quarterRetain quarter => (show Lands _ s (execQuarterRetain quarter s) from (execQuarterRetain_frame _ s).mono rfl)
  | .quarterWakeDone quarter => (show Lands _ s (execQuarterWakeDone quarter s) from (execQuarterWakeDone_frame _ s).mono rfl)
  | .quarterDrained quarter => (show Lands _ s (execQuarterDrained quarter s) from (execQuarterDrained_frame _ s).mono rfl)
  | .drainTimeout quarter => (show Lands _ s (execDrainTimeout quarter s) from (execDrainTimeout_frame _ s).mono rfl)
  | .quarterFault quarter cause => (show Lands _ s (execQuarterFault quarter cause s) from (execQuarterFault_frame _ _ s).mono rfl)
  | .thermalSample temps => (show Lands _ s (execThermalSample temps s) from (execThermalSample_frame _ s).mono rfl)
  | .canaryError quarter => (show Lands _ s (execCanaryError quarter s) from (execCanaryError_frame _ s).mono rfl)
  | .marginPlan reports => (show Lands _ s (execMarginPlan reports s) from (execMarginPlan_frame _ s).mono rfl)
  | .verify => (show Lands _ s (execVerify s) from (execVerify_frame  s).mono rfl)
  | .bootWrite => (show Lands _ s (execBootWrite s) from (execBootWrite_frame  s).mono rfl)
  | .bootWriteComplete result => (show Lands _ s (execBootWriteComplete result s) from (execBootWriteComplete_frame _ s).mono rfl)
  | .activate => (show Lands _ s (execActivate s) from (execActivate_frame  s).mono rfl)
  | .activationPauseEnd dropped => (show Lands _ s (execActivationPauseEnd dropped s) from (execActivationPauseEnd_frame _ s).mono rfl)
  | .confirm => (show Lands _ s (execConfirm s) from (execConfirm_frame  s).mono rfl)
  | .revert => (show Lands _ s (execRevert s) from (execRevert_frame  s).mono rfl)
  | .revoke keyset => (show Lands _ s (execRevoke keyset s) from (execRevoke_frame _ s).mono rfl)
  | .confirmWindowExpiry => (show Lands _ s (execConfirmWindowExpiry s) from (execConfirmWindowExpiry_frame  s).mono rfl)
  | .firmwareWatchdogExpiry => (show Lands _ s (execFirmwareWatchdogExpiry s) from (execFirmwareWatchdogExpiry_frame  s).mono rfl)
  | .recoveryGo image => (show Lands _ s (execRecoveryGo image s) from (execRecoveryGo_frame _ s).mono rfl)
  | .recoveryRequest => (show Lands _ s (execRecoveryRequest s) from (execRecoveryRequest_frame  s).mono rfl)
  | .recoveryImage bytes last => (show Lands _ s (execRecoveryImage bytes last s) from (execRecoveryImage_frame _ _ s).mono rfl)
  | .testQuarter quarter force => (show Lands _ s (execTestQuarter quarter force s) from (execTestQuarter_frame _ _ s).mono rfl)
  | .testUnit quarter unit => (show Lands _ s (execTestUnit quarter unit s) from (execTestUnit_frame _ _ s).mono rfl)
  | .calibrateChannel channel good => (show Lands _ s (execCalibrateChannel channel good s) from (execCalibrateChannel_frame _ _ s).mono rfl)
  | .testStandby quarter => (show Lands _ s (execTestStandby quarter s) from (execTestStandby_frame _ s).mono rfl)
  | .testComplete pass => (show Lands _ s (execTestComplete pass s) from (execTestComplete_frame _ s).mono rfl)
  | .rotationTimer kind => (show Lands _ s (execRotationTimer kind s) from (execRotationTimer_frame _ s).mono rfl)
  | .standbyTestTimer kind => (show Lands _ s (execStandbyTestTimer kind s) from (execStandbyTestTimer_frame _ s).mono rfl)
  | .ddrCalibration channel good => (show Lands _ s (execDdrCalibration channel good s) from (execDdrCalibration_frame _ _ s).mono rfl)
  | .ddrChannelLost channel => (show Lands _ s (execDdrChannelLost channel s) from (execDdrChannelLost_frame _ s).mono rfl)
  | .eventPageWrite => (show Lands _ s (execEventPageWrite s) from (execEventPageWrite_frame  s).mono rfl)
  | .eventControlSave => (show Lands _ s (execEventControlSave s) from (execEventControlSave_frame  s).mono rfl)
  | .eventReadSelect index area => (show Lands _ s (execEventReadSelect index area s) from (execEventReadSelect_frame _ _ s).mono rfl)
  | .newNonce => (show Lands _ s (execNewNonce s) from (execNewNonce_frame  s).mono rfl)
  | .clearGo => (show Lands _ s (execClearGo s) from (execClearGo_frame  s).mono rfl)
  | .clearComplete => (show Lands _ s (execClearComplete s) from (execClearComplete_frame  s).mono rfl)
  | .histSwap => (show Lands _ s (execHistSwap s) from (execHistSwap_frame  s).mono rfl)
  | .cmdTagQuery value => (show Lands _ s (execCmdTagQuery value s) from (execCmdTagQuery_frame _ s).mono rfl)
  | .pfcPauseExpiry lport priority => (show Lands _ s (execPfcPauseExpiry lport priority s) from (execPfcPauseExpiry_frame _ _ s).mono rfl)
  | .vinOutOfRange millivolts => (show Lands _ s (execVinOutOfRange millivolts s) from (execVinOutOfRange_frame _ s).mono rfl)
  | .pciePerstRelease speed width => (show Lands _ s (execPciePerstRelease speed width s) from (execPciePerstRelease_frame _ _ s).mono rfl)
  | .ringLinkTrained link narrow => (show Lands _ s (execRingLinkTrained link narrow s) from (execRingLinkTrained_frame _ _ s).mono rfl)
  | .proxyReadData id words => (show Lands _ s (execProxyReadData id words s) from (execProxyReadData_frame _ _ s).mono rfl)
  | .poolMoveCopy nsid => (show Lands _ s (execPoolMoveCopy nsid s) from (execPoolMoveCopy_frame _ s).mono rfl)
  | .rekeySweepStep step => (show Lands _ s (execRekeySweepStep step s) from (execRekeySweepStep_frame _ s).mono rfl)
  | .metadataWriteback => (show Lands _ s (execMetadataWriteback s) from (execMetadataWriteback_frame  s).mono rfl)
  | .msixTableWrite vector address data masked => (show Lands _ s (execMsixTableWrite vector address data masked s) from (execMsixTableWrite_frame _ _ _ _ s).mono rfl)
  | .d3hotTransition hot => (show Lands _ s (execD3hotTransition hot s) from (execD3hotTransition_frame _ s).mono rfl)
  | .leafHealthCompletion id dies => (show Lands _ s (execLeafHealthCompletion id dies s) from (execLeafHealthCompletion_frame _ _ s).mono rfl)
  | .logReadCompletion id pages torn => (show Lands _ s (execLogReadCompletion id pages torn s) from (execLogReadCompletion_frame _ _ _ s).mono rfl)

/-- A command's next state: the same queue and clock, and the canonical form kept. -/
theorem exec_next {c : Instr} {s t : State} (h : exec c s = .next t) : Within Part.every s t := by
  have := exec_lands c s
  rwa [h] at this

/-- What the ring links and leaf lanes send in a clock. -/
theorem pump_within (s : State) : Within Part.every s s.pumpLinks.pumpLeaves :=
  State.pumpLeaves_frame (State.pumpLinks_frame (.refl _ _) rfl) rfl

theorem tick_inv {s : State} (h : s.Inv) : s.tick.Inv := by
  have w := (pump_within s).inv h
  generalize e : s.pumpLinks.pumpLeaves = t at w
  simp only [State.tick, e]
  exact w

theorem tick_pending (s : State) : s.tick.pending = s.pending := by
  have w := (pump_within s).only.pending
  generalize e : s.pumpLinks.pumpLeaves = t at w
  simp only [State.tick, e]
  exact w

theorem tick_clock (s : State) : s.tick.clock = s.clock + 8 := by
  have w := (pump_within s).only.clock
  generalize e : s.pumpLinks.pumpLeaves = t at w
  simp only [State.tick, e, w]

/-- A step on an empty queue. -/
theorem step_nil {s : State} (h : s.pending = []) : step s = .next s.tick := by
  unfold step
  rw [h]

/-- A step on a queue with a command in front. -/
theorem step_cons {s : State} {c : Instr} {r : List Instr} (h : s.pending = c :: r) : step s = exec c { s with pending := r } := by
  unfold step
  rw [h]

end Sys2Proof.Machine
end

