-- ==== Sys2Proof/WellFormed.lean ====
section
/-!
DEFINITION. WellFormed.lean: the commands that can reach the block: operands inside the numbering of the spec (ports, links, lanes, quarters,
slices, tenants, domains, groups, sets, pools, leaves), and values inside their register. The meanings are total and answer a next state on
other commands too.
-/
namespace Sys2Proof
open Sys2Proof.Machine

/-- A register access of R11 and R383: 4 or 8 bytes, aligned, inside the 64 MiB of BAR0. -/
def goodAccess (address size : Nat) : Bool := (size == 4 || size == 8) && address % size == 0 && decide (address + size ≤ 0x4000000)

/-- The operands of a command lie in the ranges that the spec numbers. -/
def Instr.wellFormed : Instr → Bool
  | .registerWrite a n v => goodAccess a n && decide (v < 256 ^ n)
  | .rcRead a n => goodAccess a n
  | .badSizeAccess _ a n => !(goodAccess a n) && decide (a < 0x4000000)
  | .setupLockWrite b v => decide (b < 22) && decide (v < 2 ^ 32)
  | .ptpTxStampRead p => decide (p < 4)
  | .linkChange p _ | .pfcReceive p _ | .frameRxPost _ p _ _ => decide (p < 16)
  | .pfcPauseExpiry p k => decide (p < 16) && decide (k < 8)
  | .roceCnp q | .rateIncrease q | .contextWritebackAck q | .contextEligible q | .contextFetchDone q _ _ | .laybyDrainPacket q
  | .ackCoalesceTimer q | .ackTimeout q | .rnrTimer q | .finalFlagProcess q | .qpCreate _ q _ | .qpModify _ q _ _ | .qpDestroy _ q
  | .qpQuery _ q => decide (q < 2 ^ 24)
  | .tokenRequest q c _ => decide (q < 42) && decide (c < 5)
  | .tokenReturn q | .recallAck q | .recallTimeout q | .quarterClockFault q | .quarterWake q | .quarterPowerOff q | .quarterRetain q
  | .quarterWakeDone q | .quarterDrained q | .drainTimeout q | .quarterFault q _ | .testQuarter q _ | .testUnit q _
  | .testStandby q => decide (q < 42)
  | .thermalSample t => decide (t.length = 64)
  | .budgetWrite v | .trnStateWrite v | .gearSeedWrite v | .cmdTagQuery v | .mgrEnable v | .kekLoad v | .mapCacheEnable v | .ownMove v
  | .acctClear v => decide (v < 2 ^ 32)
  | .msixTableWrite v _ d _ => decide (v < 2048) && decide (d < 2 ^ 32)
  | .sqTailDoorbell o z v | .cqHeadDoorbell o z v => (z == 4 || z == 8) && o % z == 0 && decide (o + z ≤ 0x400000) && decide (v < 256 ^ z)
  | .sqFetch s _ _ | .cqInterruptTimer s _ | .sliceDestroy _ s | .sliceFreeze _ s
  | .sliceThaw _ s | .sliceSave _ s | .sliceRestore _ s _ _ | .sliceReset _ s _ _ | .sliceQuiesced s => decide (s < 1024)
  | .dmaPause _ c | .dmaResume _ c | .dmaChPause c | .dmaChResume c | .dmaChWithdraw c | .dmaBurstDone c _ _ => decide (c < 64)
  | .domainSweep d => decide (d.domain < 4096)
  | .rekeySweepStep d => decide (d.domain < 4096)
  | .cascadeJournalEntry d _ _ _ _ | .lostNotice d _ _ | .keyResweep _ d => decide (d < 4096)
  | .domainCfgWrite d v => decide (d < 4096) && decide (v < 2 ^ 32)
  | .digestStateDone k => decide (k.slot < 4096)
  | .keyRetire _ k | .keyRevoke _ _ k => decide (k < 8192)
  | .laneStallResume l => decide (l < 36)
  | .grantRequest a => decide (a.leaf < 512)
  | .leafAbsent l | .leafAbsentTimeout l | .leafReturn l | .leafDrain l | .leafFail l | .leafReadmit l
  | .drainComplete l => decide (l < 512)
  | .sewSignature p _ | .gcCollect p | .acceptLoss p => decide (p < 64)
  | .poolEnable p v => decide (p < 64) && decide (v < 2 ^ 32)
  | .poolMemberAdd p w v => decide (p < 64) && decide (w < 16) && decide (v < 2 ^ 32)
  | .envelopeRelease n h => decide (n < 256) && decide (h < 2)
  | .batchClose n | .idleWatermark n | .anchorPeriod n | .suspendExpiry n | .resynchronise n | .reverse n | .promote n => decide (n < 256)
  | .setEnable n v _ _ => decide (n < 256) && decide (v < 2 ^ 32)
  | .probe l _ | .probeTimer l | .replicationLinkDown l => decide (l < 64)
  | .replicationLinkEnable l v => decide (l < 64) && decide (v < 2 ^ 32)
  | .leafHopActive l p => decide (l < 32) && decide (p.pos < 16)
  | .leafHopDown l p | .leafHopDetect l p | .leafReplayRequest l p _ => decide (l < 32) && decide (p < 16)
  | .leafEnumerationAnswer l _ => decide (l < 32)
  | .moveRequest g _ | .moveAccept g _ => decide (g < 1024)
  | .cgArm g | .cgAbandon g | .consistencyCut g => decide (g < 256)
  | .ringHello l _ | .ringLinkDown l _ | .ringLinkDetect l | .ringLinkTrained l _ | .ringTrainingTimeout l | .ringReplayRequest l _
  | .partialMessageTimeout l | .enumerationFlit l _ _ _ | .timeFlitSend l | .timeFlit l _ => decide (l < 4)
  | .addressReserveExpiry a => decide (a < 4096)
  | .leaveNotice d | .deviceIsolatedTimeout d => decide (d < 2 ^ 64)
  | .prgLoad _ t _ _ _ _ | .prgUnload _ t _ | .programTableUpdate t _ _ => decide (t < 4096)
  | .calibrateChannel c _ | .ddrCalibration c _ | .ddrChannelLost c => decide (c < 16)
  | .eventReadSelect _ a => decide (a < 2)
  | _ => true

end Sys2Proof
end

