-- ==== Sys2Proof/Tests/Slice0.lean ====
section
/-!
SUPPORT. Tests/Slice0.lean: the model's own tests: a witness for the hypotheses of every clause of the obligations (witness_<Obligation>_<command>),
ill-formed terms that WellFormed refuses, and single steps on small states (test_<what>).
-/
open Sys2Proof Sys2Proof.Machine

set_option linter.all false
set_option Elab.async false
set_option maxRecDepth 100000

/-! States and operands for the tests -/

/-- A ring command of slice 0, ring 0. -/
def Tests.cmd0 : HostCmd := { slice := 0, ring := 0, cid := 7 }

/-- A host whose slice 0 is Active with every capability, with slices in the other states, DMA channels, a queue pair and a region. -/
def Tests.host : State :=
  have ring : Ring := { sqLog2 := 6, cqLog2 := 6, sqTail := 3 }
  have xfer : DmaXfer :=
    { cmd := Tests.cmd0, desc := { channel := 2, srcSpace := .ddr, dstSpace := .ddr, swap := 0, lineLen := 64, src := 0, dst := 4096 },
      next := 64, flight := [(0, 64)] }
  have slice0 : Slice :=
    { state := .active, caps := 0x1FF, ringMax := 4, rings := [(0, { sqLog2 := 6, cqLog2 := 6 }), (1, ring)], channels := [0, 1, 2],
      vectors := 4, credits := 64, minor := 2 }
  { State.reset with
    host.slices := [(0, slice0), (1, { state := .created, rings := [(0, { sqLog2 := 6, cqLog2 := 6 })] }), (3, { state := .active }),
      (4, { state := .frozen }), (5, { state := .resetting }),
      (6, { state := .active, rings := [(0, { sqLog2 := 6, cqLog2 := 6 })], quiesce := some { slice := 0, ring := 0, cid := 8 } })]
    host.channels := [(0, { owner := some 0 }), (1, { owner := some 0, state := .paused }),
      (2, { owner := some 0, state := .running, cur := some xfer })]
    trn.qps := [(2, { state := .rts })]
    trn.regions := [(7, { base := 4096, length := 4096, variant := 0, read := true, write := true })] }

/-- Queue pair 2 is on die, and a packet stands first on its direct path. -/
def Tests.roce (q : Qp) (p : Packet) : State :=
  { State.reset with trn.qps := [(2, q)], trn.sets := [(1, [2])], trn.direct := [p] }

/-- A region of 4096 bytes that a remote side may read, write and invalidate: its key is 0x501. -/
def Tests.region : Region := { base := 4096, length := 4096, variant := 1, read := true, write := true, invSend := true }

/-- An initiator's capsule that holds tag 5, on the I/O queue pair 4 of controller 1; namespace 9 is empty. -/
def Tests.nvme (k : Capsule) : State :=
  { State.reset with
    cmd.tags := [(5, { state := .running, cap := k, ctrl := 1 })]
    cmd.ctrls := [(1, { adminQp := 2, ioQps := [(1, 4)], en := true, rdy := true, kato := 10000 })]
    map.ns := [(9, { tenant := 0, pool := 0, size := 16777216, root := 1, group := 0 })]
    map.pages := [(1, { hi := 2 ^ 63, slot := some 0 })]
    trn.qps := [(2, { state := .rts }), (4, { state := .rts })] }

/-- A cipher job in CBC. -/
def Tests.cipher : CipherParams := { mode := .cbc, slot := 8, gen := 4, msgLen := 64, iv := zeros 16 }

/-- A decompression job. -/
def Tests.comp : CompParams := { op := .decompress, format := .deflate, level := 0, inLen := 64, outLimit := 4096 }

/-- The bytes of a job block: a compression operation, and a cipher mode with its slot. -/
def Tests.compBlock (op fmt : Nat) : List Byte := [BitVec.ofNat 8 op, BitVec.ofNat 8 fmt] ++ zeros 6 ++ le 8 64 ++ zeros 16

/-- The block of a cipher job: its mode over 64 bytes under slot 8, and a byte that must be zero. -/
def Tests.cipherBlock (m zero : Nat) : List Byte := [BitVec.ofNat 8 m, 0] ++ le 2 8 ++ [4, BitVec.ofNat 8 zero, 0, 0] ++ le 8 64 ++ zeros 48

/-- The first mirror record of an epoch. -/
def Tests.rcd : MirRec := { opened := true, head := true, epoch := 0, seq := 1, seg := 0, gen := 0, off := 0, len := 64, body := .release }

/-- A container of 64 bytes in domain 1. -/
def Tests.container : Container :=
  ({ alg := 0, domain := 1, slot := 14, gen := 3, orig := 32, payload := 32, cut := 77, ring := 1, lane := 9, crc := 0 } : Header).bytes ++ zeros 32

/-- A container of 48 bytes of zeros under the key of cipher slot 0, and a state that holds that key. -/
def Tests.stored : Container :=
  have h : Header := { alg := 0, domain := 0, slot := 0, gen := 3, orig := 48, payload := 48, cut := 0, ring := 1, lane := 9, crc := crc32c (zeros 48) }
  h.bytes ++ xts false (zeros 64) (tweak h.bytes) (zeros 48)

/-- Tag 5 reads a piece from the place of that container, whose key slot 0 holds. -/
def Tests.reading (cls : TagClass) (p : ReadPiece) : State :=
  { State.reset with
    keys.cipher := [(0, { cur := some { gen := 3, type := .xts256, key := zeros 64 } })]
    cmd.tags := [(5, { state := .running, cls := cls, peerTag := some 7, cap := { qpn := 4, cid := 1, op := .read }, pieces := [p] })] }

/-- The piece of that read. -/
def Tests.piece : ReadPiece := { off := 0, len := 48, chunkOff := 0, loc := .cache false 0 1 64 80 }

/-- A program package whose code is one EXIT. -/
def Tests.package : List Byte :=
  le 2 0xB9F1 ++ [1, 0] ++ le 4 1 ++ zeros 20 ++ le 4 1000 ++ zeros 80 ++
    ([225, 66, 82, 41, 200, 101, 172, 139, 130, 34, 209, 57, 114, 240, 80, 152, 240, 132, 66, 106, 37, 132, 40, 194, 181, 164, 112, 147, 58,
      202, 108, 196] : List Byte) ++ zeros 12 ++ le 4 0xA7AED23 ++ (0x95 :: zeros 7)

/-- Pool 2 sews: three members and two spare leaves, an open quire 4 and a container that waits. -/
def Tests.sewing : State :=
  have leaf : Leaf := { id := some { serial := 1 }, joined := some 1, blocks := [(0, true)], used := [0] }
  have s : State :=
    { State.reset with
      lfl.leaves := [(0, leaf), (1, leaf), (2, leaf), (3, leaf), (4, leaf)]
      sig.quires := [(4, { pool := 2, width := 3, parity := 1, slots := [(0, 0), (1, 0), (2, 0)], head := false })]
      sig.staged := [(2, [(.flash 1 9 0 0 0 64, zeros 64)])]
      sig.page := [{ head := false, epoch := 0, seq := 1, time := 0, body := .watermark }] }
  ((((((s.wr Reg.BOOT_STATUS.STAGE 3).wr Reg.SIG_CTRL.SEW_EN 1).wr Reg.SIG_POOL_CFG.EN 1 2).wr Reg.SIG_POOL_CFG.WIDTH 3 2).wr
    Reg.SIG_POOL_CFG.PARITY 1 2).wr Reg.SIG_POOL_MEMBERS.LEAVES 0x1F 2 0)

/-- Firmware runs. -/
def Tests.running : State := State.reset.wr Reg.BOOT_STATUS.STAGE 3

/-- A host whose tenant 1 has a program in slot 3 and a namespace 9 that admits programs. -/
def Tests.programs : State :=
  have s : State :=
    { Tests.host with
      prg.table := [{ tenant := 1, slot := 3, bytes := Tests.package }]
      map.ns := [(9, { tenant := 1, pool := 0, size := 16, root := 1, group := 0, programs := true })] }
  ((((((((s.wr Reg.BOOT_STATUS.STAGE 3).wr Reg.PRG_TABLE_BASE.BASE 4096).wr Reg.PRG_STORE_BASE.BASE 4096).wr Reg.PRG_SLOTMAP_BASE.BASE 4096).wr
    Reg.PRG_CTRL.EN 1).wr Reg.PRG_CTRL.TAP_EN 1).wr Reg.PRG_TENANT_CFG.MAX_TILES 8 1).wr Reg.PRG_TILE_INSERVICE.TILES 0xFFFFFFFF).wr
    Reg.DDP_DOMAIN_CFG.EN 1 1

/-- A started scan run 0 whose tile 31 stands at the start of its span, over one extent or over the unwritten namespace. -/
def Tests.scanning (p : Span) (e : List Extent) : State :=
  have r : Run :=
    { kind := .scan 5, tenant := 1, slot := 3, image := Tests.package, nsid := 9, lo := 0, hi := 4096, tiles := [(31, {})], spans := [p],
      startedAt := some 0 }
  { Tests.nvme { qpn := 4, cid := 1, op := .programRun, nsid := 9 } with
    prg.runs := [(0, r)], map.pages := [(1, { hi := 2 ^ 63, slot := some 0, exts := e })] }

/-- Replication link 3 is up to another array on queue pair 2. -/
def Tests.linked : State :=
  have s : State := { State.reset with rep.links := [(3, { qpn := 2, key := 0, ring := 0, ringSize := 4096, array := 1 })], trn.qps := [(2, { state := .rts })] }
  ((s.wr Reg.REP_LINK_CTRL.STATE 2 3).wr Reg.REP_CTRL.EN 1)

/-- Replica set 255 is enabled, as a source or as a target. -/
def Tests.replica (target : Bool) (x : RepSet) : State :=
  have s : State := { State.reset with rep.sets := [(255, x)] }
  (((s.wr Reg.BOOT_STATUS.STAGE 3).wr Reg.REP_CTRL.EN 1).wr Reg.REP_SET_CFG.EN 1 255).wr Reg.REP_SET_CFG.ROLE (if target then 1 else 0) 255

/-- Replica set 255 is enabled over link 3, which is up. -/
def Tests.joined (target : Bool) (x : RepSet) : State :=
  have s : State := { Tests.replica target x with rep.links := Tests.linked.rep.links, trn := Tests.linked.trn }
  (s.wr Reg.REP_LINK_CTRL.STATE 2 3).wr Reg.REP_SET_CFG.LINK 3 255

/-- A unit that removes an extent. -/
def Tests.unit : RepUnit := { addr := 0, len := 4096, member := 0, form := 0 }

/-- Quarter 8 serves as a QC quarter and quarter 9 stands by. -/
def Tests.rotating : State :=
  (((Tests.running.setQuarter 8 { state := .active }).setQuarter 9 { role := .standby })).wr Reg.TST_CFG.ROTATE_DAYS 30

/-- A quarter that can rotate. -/
def Tests.rotatingQuarter : Nat := 8

/-- A power-fail warning stands. -/
def Tests.warned : State := State.reset.wr Reg.DDR_PF_STATUS.WARN 1

/-! Witnesses of the hypotheses -/

theorem witness_SquareTokens_recallTimeout : (({ State.reset with power.recalls := [⟨20, 2, 8⟩] }).power.recalls.any fun l => l.quarter == 20) = true := by decide
theorem witness_SquareTokens_tokenReturn : (have l : TokenLot := { quarter := 3, cls := 0, tokens := 1 }; l ∈ ({ State.reset with power.granted := [l] } : State).power.granted ∧
    (l.quarter ≠ 4 ∨ l.cls = 0)) := by decide
theorem witness_SquareTokens_budgetWrite : (have s := State.reset.wr Reg.SQR_BUDGET.STRAP_TOKENS 2400; s.warned = false ∧ 1200 ≤ 1300 ∧
    1300 ≤ s.rd Reg.SQR_BUDGET.STRAP_TOKENS ∧ s.rd Reg.SQR_BUDGET.STRAP_TOKENS < 2401) ∧
    (State.reset.wr Reg.DDR_PF_STATUS.WARN 1).warned = true := by decide
theorem witness_QuarterPower_quarterWake : State.reset.on Reg.SQR_Q_RESULT.BUSY = false ∧ (State.reset.quarter 20).state = .off ∧
    ((State.reset.setQuarter 41 { state := .retain }).quarter 41).state = .retain := by decide
theorem witness_QuarterPower_quarterPowerOff : (have s := (State.reset.setQuarter 8 { state := .active }).setQuarter 9 { state := .active }; s.on Reg.SQR_Q_RESULT.BUSY = false ∧
    (s.quarter 9).state = .active ∧ s.canSpare 9 = true) := by decide
theorem witness_QuarterPower_quarterRetain : (have s := (State.reset.setQuarter 8 { state := .active }).setQuarter 9 { state := .active }; s.on Reg.SQR_Q_RESULT.BUSY = false ∧
    (s.quarter 9).state = .active ∧ s.canSpare 9 = true) := by decide
theorem witness_QuarterPower_quarterWakeDone : (have s := State.reset.setQuarter 20 { state := .waking }; (s.quarter 20).state = .waking ∧
    20 ∉ s.power.wakeQueue ∧ s.test.job = none) := by decide
theorem witness_QuarterPower_quarterDrained : ((State.reset.setQuarter 20 { state := .closing, goal := .off }).quarter 20).state = .closing ∧
    ((State.reset.setQuarter 20 { state := .closing, goal := .retain }).quarter 20).state = .closing ∧
    ((State.reset.setQuarter 20 { state := .closing, goal := .test }).quarter 20).state = .closing := by decide
theorem witness_QuarterPower_drainTimeout : ((State.reset.setQuarter 20 { state := .closing }).quarter 20).state = .closing := by decide
theorem witness_QuarterPower_quarterClockFault : ((State.reset.setQuarter 20 { state := .active }).quarter 20).state.clocked = true := by decide
theorem witness_ThermalAndAge_marginPlan : (State.reset.wr Reg.TMP_AGE_CFG.PLAN_EN 1).on Reg.TMP_AGE_CFG.PLAN_EN = true ∧
    ([(⟨20, 3⟩ : CanaryReport), ⟨21, 4⟩].map CanaryReport.quarter).Nodup := by decide
theorem witness_FrontPorts_frameReceive : ({ State.reset with power.headLost := true } : State).power.headLost = true ∧
    State.reset.power.headLost = false ∧ ({ lport := 0, length := 60, uncorrect := true } : Frame).uncorrect = true ∧
    (have f : Frame := { lport := 0, length := 63 }; f.length < 64 ∧ f.uncorrect = false) ∧
    9216 < ({ lport := 0, length := 9217 } : Frame).length ∧
    (have f : Frame := { lport := 0, length := 9216, etherType := 0x888E, dest := .portMac }; f.length ≤ 9216 ∧ f.uncorrect = false ∧
    f.etherType = 0x888E ∧ f.dest = .portMac ∧
    (State.reset.wr Reg.ETH_HOST_LIMIT.FRAMES_PER_S 0 0).rd Reg.ETH_HOST_LIMIT.FRAMES_PER_S (f.lport / 4) = 0) := by decide
theorem witness_FrontPorts_frameReceive2 : (have s : State := { State.reset with ports := [(0, { hostFrames := 1 })] }; (s.lport 0).hostFrames * 1000 < 1001 ∧
    ¬ (s.lport 0).hostFrames * 1000 < 1000) := by decide
theorem witness_FrontPorts_frameReceive3 : (have p : Packet := { qpn := 2, opcode := 4, psn := 0 }; have s := Tests.roce {} p; have f : Frame := { lport := 0, length := 64, roce := some p }; f.etherType ≠ 0x888E ∧
    s.on Reg.ETH_MACSEC_CTRL.EN 0 = false ∧ f.roce = some p ∧ p.icrcOk = true ∧ p.lengthOk = true ∧ rcOpcode p.opcode = true ∧ p.qpn ≠ 1 ∧
    s.validQpn p.qpn = true ∧ s.roleGap .qt (p.qpn % 2) = false ∧ p.ce = false ∧ s.onDie p.qpn = true ∧ s.waitingPackets p.qpn = [] ∧
    p.qpn ∉ s.trn.leaving ∧ ({ p with icrcOk := false } : Packet).icrcOk = false ∧ p.opcode ≠ 0x81 ∧
    ({ lport := 0, length := 64, dest := .other } : Frame).dest = .other) := by decide
theorem witness_FrontPorts_frameReceive4 : (have s := (State.reset.wr Reg.ETH_MACSEC_CTRL.EN 1 0).wr Reg.ETH_MACSEC_CTRL.VALIDATE 1 0; have f : Frame := { lport := 0, length := 64, dest := .paeGroup }; s.power.headLost = false ∧
    ¬ (f.etherType = 0x888E ∧ (f.dest = .portMac ∨ f.dest = .paeGroup)) ∧ s.on Reg.ETH_MACSEC_CTRL.EN (f.lport / 4) = true ∧
    s.on Reg.ETH_MACSEC_CTRL.VALIDATE (f.lport / 4) = true ∧ f.secTag = none ∧
    (have g : SecTag := { channel := 0, an := 0, pn := 1, icvOk := false }; g.icvOk = false) ∧ (State.reset.validate f).1 = true ∧
    (have p : Packet := { qpn := 2, opcode := 4, psn := 0 }; rcOpcode 0x20 = false ∧ s.validQpn 0 = false ∧ p.icrcOk = true ∧ p.lengthOk = true ∧ p.qpn ≠ 1)) := by decide
theorem witness_PortFlow_linkChange : (State.reset.wr Reg.ETH_LINK_STATUS.MAP_ERR 1 0).on Reg.ETH_LINK_STATUS.MAP_ERR 0 = true ∧ 1 ∉ State.reset.portsInUse ∧
    12 ∈ State.reset.portsInUse ∧ State.reset.on Reg.ETH_LINK_STATUS.MAP_ERR 3 = false ∧
    (State.reset.rd Reg.ETH_LINK_STATUS.LINK_UP 3).testBit 0 ≠ true := by decide
theorem witness_PortFlow_pfcReceive : (have s := State.reset.wr Reg.ETH_PFC_CTRL.PAUSE_HONOUR 8 0; (s.rd Reg.ETH_PFC_CTRL.PAUSE_HONOUR 0).testBit 3 = true ∧
    (s.rd Reg.ETH_PFC_CTRL.PAUSE_HONOUR 0).testBit 4 = false) ∧ ∀ x ∈ [(3, 100), (4, 7)], x.2 ≠ 0 := by decide
theorem witness_PortFlow_pfcPauseExpiry : (have f : TxFrame := { lport := 0, prio := 7, bytes := [1] }; have s : State := { State.reset with ports := [(0, { paused := [7], txq := [f] })] }; ((s.lport 0).txq.filter fun g => g.prio == 7) = [f] ∧
    f.ptp = none ∧ s.on Reg.ETH_MACSEC_CTRL.EN (f.lport / 4) = false) := by decide
theorem witness_PortFlow_xoffRefresh : ({ State.reset with trn.xoff := true } : State).trn.xoff = true := by decide
theorem witness_FrameTransmission_frameTransmit : (have s : State := { State.reset with ports := [(0, { paused := [0] })] }; 0 ∈ (s.lport 0).paused) ∧
    (have f : TxFrame := { lport := 0, bytes := [] }; f.prio ∉ (State.reset.lport 0).paused ∧ f.ptp = none ∧
    State.reset.on Reg.ETH_MACSEC_CTRL.EN 0 = false) ∧ ({ lport := 0, bytes := [], eapol := true } : TxFrame).eapol = true := by decide
theorem witness_FrameTransmission_frameTransmit2 : (have f : TxFrame := { lport := 0, bytes := [1] }; have s : State := { State.reset.wr Reg.ETH_MACSEC_CTRL.EN 1 0 with ports := [(0, { txAn := 3, txSa := [(3, { enabled := true, nextPn := 2 ^ 64 - 2 })] })] }; f.prio ∉ (s.lport f.lport).paused ∧
    f.ptp = none ∧ f.eapol = false ∧ s.on Reg.ETH_MACSEC_CTRL.EN (f.lport / 4) = true ∧
    (Table.find (s.lport 0).txAn (s.lport 0).txSa).any (fun a => a.enabled && decide (a.nextPn < 2 ^ 64 - 1)) = true ∧
    Table.find (State.reset.lport 0).txAn (State.reset.lport 0).txSa = none ∧ f.cmd = none) := by decide
theorem witness_FrameTransmission_frameTransmit3 : (have m : PtpMsg := { transport := .l2, msgType := 0, seqId := 65535, domain := 3 }; have f : TxFrame := { lport := 0, ptp := some m, bytes := zeros 60 }; have s := (State.reset.wr Reg.ETH_PTP_CTRL.STAMP_EN 1 0).wr Reg.ETH_PTP_CTRL.L2 1 0; f.prio ∉ (s.lport f.lport).paused ∧
    (s.ptpStamp f.lport f.ptp).isSome ∧ s.on Reg.ETH_MACSEC_CTRL.EN (f.lport / 4) = false ∧ s.on Reg.ETH_PTP_CTRL.ONE_STEP 0 = false ∧
    (s.wr Reg.ETH_PTP_CTRL.ONE_STEP 1 0).on Reg.ETH_PTP_CTRL.ONE_STEP 0 = true ∧
    ((s.wr Reg.ETH_PTP_CTRL.ONE_STEP 1 0).ptpStamp 0 (some { m with msgType := 3 })).isSome ∧ ((s.wr Reg.ETH_PTP_CTRL.ONE_STEP 1 0).ptpStamp 0 (some { m with msgType := 2 })).isSome) := by decide
theorem witness_FrameTransmission_ptpTxStampRead : (State.reset.wr Reg.BOOT_STATUS.STAGE 3).writable 8 = true ∧ State.reset.writable 8 = false ∧
    State.reset.stampRaised Reg.ETH_PTP_TX_STAMP_HI.OVERFLOW 0 = false := by decide
theorem witness_QueuePairContexts_rateIncrease : Table.has 2 ({ State.reset with trn.qps := [(2, {})] } : State).trn.qps = true := by decide
theorem witness_QueuePairContexts_contextWritebackAck : 2 ∈ ({ State.reset with trn.leaving := [2] } : State).trn.leaving := by decide
theorem witness_QueuePairContexts_contextEligible : (have s : State := { State.reset with trn.sets := [(1, [2])], trn.fetchWait := [8194] }; s.onDie 2 = true ∧
    s.eligible 2 = true ∧ (s.trn.fetchWait.find? fun x => qpSet x == qpSet 2) = some 8194) := by decide
theorem witness_QueuePairContexts_contextFetchDone : (have s : State := { State.reset with trn.fetching := [2] }; 2 ∈ s.trn.fetching ∧
    (s.qp 2).crcOk = true ∧ (s.qp 2).state ≠ .error) := by decide
theorem witness_QueuePairContexts_laybyDrainPacket : (have p : Packet := { qpn := 2, opcode := 4, psn := 0 }; have s : State := { State.reset with trn.sets := [(1, [2])], trn.layby := [(2, [p])] }; s.waitingPackets 2 = p :: [] ∧
    s.onDie 2 = true ∧ (s.qp 2).state = .reset) := by decide
theorem witness_QueuePairContexts_ackCoalesceTimer : (({ State.reset with trn.qps := [(2, { unackedRx := 1 })] } : State).qp 2).unackedRx ≠ 0 := by decide
theorem witness_QueuePairContexts_ackTimeout : (have s : State := { State.reset with trn.qps := [(2, { state := .rts, sendPsn := 1 }), (3, { state := .sqd, sendPsn := 1, retries := 7 })] }; (s.qp 2).timeoutExp ≠ 0 ∧
    (s.qp 2).unackedPsn ≠ (s.qp 2).sendPsn ∧ (s.qp 2).state = .rts ∧ (s.qp 2).retries < (s.qp 2).retryMax ∧ ¬ (s.qp 3).retries < (s.qp 3).retryMax ∧
    (s.qp 3).state = .sqd ∧ (s.qp 3).unackedPsn ≠ (s.qp 3).sendPsn) := by decide
theorem witness_QueuePairContexts_rnrTimer : (have s : State := { State.reset with trn.qps := [(2, { state := .rts, rnrTimer := 1 }), (3, { state := .rts, rnrTimer := 1, rnrMax := 3, rnrTries := 3 })] }; (s.qp 2).rnrTimer ≠ 0 ∧
    (s.qp 2).state ≠ .error ∧ (s.qp 2).rnrMax = 7 ∧ (s.qp 3).rnrTimer ≠ 0 ∧ (s.qp 3).state ≠ .error ∧ (s.qp 3).rnrMax ≠ 7 ∧
    ¬ (s.qp 3).rnrTries < (s.qp 3).rnrMax) := by decide
theorem witness_QueuePairContexts_roceCnp : ({ State.reset with trn.qps := [(2, { state := .rts })] } : State).takesPackets 2 = true ∧ State.reset.takesPackets 2 = false := by decide
theorem witness_QueuePairContexts_finalFlagProcess : (({ State.reset with trn.qps := [(2, { finals := [.send [] none] })] } : State).qp 2).finals = .send [] none :: [] := by decide
theorem witness_QueuePairContexts_invalidationComplete : Table.find 5 ({ State.reset with trn.regions := [(5, { base := 0, length := 4096, variant := 0, valid := false })] } : State).trn.regions = some { base := 0, length := 4096, variant := 0, valid := false } := by decide
theorem witness_QueuePairContexts_trnStateWrite : (State.reset.wr Reg.BOOT_STATUS.STAGE 3).running = true := by decide
theorem witness_RocePackets_roceSend : (have p : Packet := { qpn := 2, opcode := 4, psn := 5, payload := zeros 64 }; have s := Tests.roce { state := .rts, recvBufs := 1, recvSize := 64, expPsn := 5 } p; s.first p = true ∧
    (s.qp 2).state = .rts ∧ psnDiff 4 (s.qp 2).expPsn < 0 ∧ 0 < psnDiff 6 (s.qp 2).expPsn ∧ psnDiff 5 (s.qp 2).expPsn = 0 ∧ firstOf p.opcode = true ∧
    p.imm = none ∧ (s.qp 2).recvBufs ≠ 0 ∧ s.freezing (s.qp 2).slice = false ∧ (s.carriesNvme p.qpn && s.intakeFull p.qpn) = false ∧
    p.payload.length ≤ (s.qp 2).recvSize ∧ (s.qp 2).placements = [] ∧ (s.qp 2).finals = [] ∧
    ((Tests.roce { state := .sqd } p).qp 2).recvBufs = 0) := by decide
theorem witness_RocePackets_roceSendInvalidate : (have p : Packet := { qpn := 2, opcode := 0x17, psn := 5, invKey := some 0x501 }; have s := Tests.roce { state := .rts, recvBufs := 1, recvSize := 64, expPsn := 5 } p; s.first p = true ∧
    (s.qp 2).state = .rts ∧ psnDiff p.psn (s.qp 2).expPsn = 0 ∧ Table.find (0x501 / 256) s.trn.regions = none ∧
    Table.find (0x501 / 256) ({ s with trn.regions := [(5, Tests.region)] } : State).trn.regions = some Tests.region ∧ Tests.region.valid = true ∧
    Tests.region.variant = 0x501 % 256 ∧ Tests.region.tenant = (s.qp 2).tenant ∧ Tests.region.invSend = true ∧ p.imm = none ∧
    (s.qp 2).recvBufs ≠ 0 ∧ s.freezing (s.qp 2).slice = false ∧ (s.carriesNvme p.qpn && s.intakeFull p.qpn) = false ∧
    p.payload.length ≤ (s.qp 2).recvSize ∧ (s.qp 2).placements = [] ∧ (s.qp 2).finals = []) := by decide
theorem witness_RocePackets_roceRdmaWrite : (have p : Packet := { qpn := 2, opcode := 0x0A, psn := 5, reth := some { key := 0x501, va := 4094, len := 2 }, payload := [1, 2] }; have s := Tests.roce { state := .rts, expPsn := 5 } p; s.first p = true ∧
    (s.qp 2).state = .rts ∧ psnDiff p.psn (s.qp 2).expPsn = 0 ∧ s.keyCheck 0x501 (some (s.qp 2).tenant) true 4094 2 = none ∧
    ({ s with trn.regions := [(5, Tests.region)] } : State).keyCheck 0x501 (some (s.qp 2).tenant) true 4094 2 = some 8190 ∧
    p.imm = none ∧ (s.qp 2).relaxed = false) := by decide
theorem witness_RocePackets_roceReadRequest : (have p : Packet := { qpn := 2, opcode := 0x0C, psn := 5, reth := some { key := 0x501, va := 16, len := 8 } }; have s : State := { Tests.roce { state := .rts, expPsn := 5 } p with trn.regions := [(5, Tests.region)] }; s.first p = true ∧
    (s.qp 2).state = .rts ∧ psnDiff p.psn (s.qp 2).expPsn = 0 ∧ s.keyCheck 0x501 (some (s.qp 2).tenant) false 16 8 = some 4112 ∧
    s.keyCheck 0x502 (some (s.qp 2).tenant) false 16 8 = none ∧ (s.qp 2).placements = [] ∧ (s.qp 2).finals = [] ∧
    ∀ k, k < 8 → s.tableByte (4112 + k) = none) := by decide
theorem witness_RocePackets_roceReadResponse : (have p : Packet := { qpn := 2, opcode := 0x10, psn := 0 }; have s := Tests.roce { state := .rts } p; s.first p = true ∧
    (s.qp 2).state = .rts ∧ (s.qp 2).reads = []) ∧
    (have r : ReadReq := { tag := 0, len := 64, left := 60, issued := true, psn := 4, next := 4 }; have q : Qp := { state := .rts, reads := [r] }; psnDiff 2 r.psn < 0 ∧
    (q.packets r.len ≤ psnDiff 9 r.psn)) := by decide
theorem witness_RocePackets_roceReadResponse2 : (have p : Packet := { qpn := 2, opcode := 0x0E, psn := 2 ^ 24 - 1, payload := [1] }; have r : ReadReq := { tag := 0, len := 64, left := 60, local_ := true, issued := true, psn := 2 ^ 24 - 1, next := 2 ^ 24 - 1 }; have w : WorkReq := { qpn := 2, op := .read, localKey := 0x501, offset := 8, length := 64, sent := true }; have s : State := { Tests.roce { state := .rts, sendQueue := [w], reads := [r] } p with trn.regions := [(5, Tests.region)] }; s.first p = true ∧
    (s.qp 2).state = .rts ∧ (s.qp 2).reads = r :: [] ∧ r.issued = true ∧ 0 ≤ psnDiff p.psn r.psn ∧ psnDiff p.psn r.psn < (s.qp 2).packets r.len ∧
    p.psn = r.next ∧ p.payload.length ≤ r.left ∧ r.void = false ∧ ((s.qp 2).sendQueue.find? fun w => w.op == .read && w.sent) = some w ∧
    s.keyCheck w.localKey (some (s.qp 2).tenant) true (w.offset + r.segment + (r.len - r.left)) p.payload.length = some 4108) := by decide
theorem witness_RocePackets_roceAcknowledge : (have p : Packet := { qpn := 2, opcode := 0x11, psn := 1, aeth := some (0, 0) }; have s := Tests.roce { state := .rts, sendPsn := 3 } p; s.first p = true ∧
    (s.qp 2).state = .rts ∧ 0 ≤ psnDiff 1 (s.qp 2).unackedPsn ∧ psnDiff 1 (s.qp 2).sendPsn < 0 ∧ 0x3F / 32 % 4 = 1) := by decide
theorem witness_RocePackets_roceAtomic : (have p : Packet := { qpn := 2, opcode := 0x1F, psn := 0 }; have s := Tests.roce { state := .rts } p; s.first p = true ∧
    (s.qp 2).state = .rts ∧ p.opcode < 0x20) := by decide
theorem witness_HostEndpoint_hostRequestFailed : Tests.host.answers Tests.cmd0 = true := by decide
theorem witness_HostEndpoint_msixTableWrite : (Table.get 3 {} ({ State.reset with host.msix := [(3, { pending := true })] } : State).host.msix).pending = true := by decide
theorem witness_HostEndpoint_d3hotTransition : ({ State.reset with host.d3hot := true, hostWait := [.aer 0] } : State).host.d3hot = true := by decide
theorem witness_HostEndpoint_mgrEnable : (Table.find 0 State.reset.host.slices).any Slice.live = false := by decide
theorem witness_HostRings_sqTailDoorbell : (Table.find 0 Tests.host.host.slices).any (fun sl => sl.takesDoorbells && (Table.find 1 sl.rings).any fun r => decide (63 < 2 ^ r.sqLog2 ∧
    63 < 2 ^ r.cqLog2)) = true ∧ goodSize 1024 4 = true ∧ 1024 ≤ 1024 % 0x1000 ∧ goodSize 0x400000 8 = true ∧ goodSize 4 4 = true ∧
    4 % 8 ≠ 0 ∧ goodSize 4 8 = false := by decide
theorem witness_HostRings_cqHeadDoorbell : (Table.find 0 Tests.host.host.slices).any (fun sl => sl.takesDoorbells && (Table.find 1 sl.rings).any fun r => decide (5 < 2 ^ r.cqLog2)) = true := by decide
theorem witness_HostRings_sqFetch : (have e : SqEntry := { opcode := 1, cid := 5 }; (Table.find 0 Tests.host.host.slices).any (fun sl => sl.fetching && sl.takesDoorbells && (Table.find 1 sl.rings).any fun r => sl.fetchable 1 r && sl.turnOf 1 r &&
    !(e.fence && sl.started.any fun st => st.ring == 1) && !(sl.cancelled.contains (1, e.cid))) = true ∧ knownOpcode e.opcode = true ∧ e.reservedZero = true) ∧
    Tests.host.on Reg.CMD_HOLD.ACTIVATION = false ∧ Tests.host.host.d3hot = false := by decide
theorem witness_HostRings_cqInterruptTimer : (have r : Ring := { sqLog2 := 6, cqLog2 := 6, waiting := [(0, false, false)] }; r.armed = true ∧
    r.counted ≠ []) := by decide
theorem witness_HostRings_hello : (Tests.host.sliceOf { slice := 1, ring := 0, cid := 9 }).state = .created := by decide
theorem witness_HostRings_nop : Tests.host.accepts Tests.cmd0 .any = true := by decide
theorem witness_HostRings_cancel : Tests.host.accepts Tests.cmd0 .any = true := by decide
theorem witness_HostRings_ringCreate : (have p : RingParams := { ring := 2, sqLog2 := 4, cqLog2 := 4, prio := 0, vector := 0, count := 1, timeUs := 0, sqBase := 4096, cqBase := 8192 }; Tests.host.accepts Tests.cmd0 .any = true ∧
    p.ok (Tests.host.sliceOf Tests.cmd0) = true ∧ Table.has p.ring (Tests.host.sliceOf Tests.cmd0).rings = false) := by decide
theorem witness_HostRings_ringDelete : Tests.host.accepts Tests.cmd0 .any = true ∧
    Table.has 1 (Tests.host.sliceOf Tests.cmd0).rings = true := by decide
theorem witness_HostSlices_sliceCreate : (have p : SliceParams := { slice := 2, pasid := 5, caps := 3, tenant := 7, rings := 2, channels := 1, firstVector := 64, vectors := 2, credits := 16, sqBase := 4096, cqBase := 8192, sqLog2 := 6, cqLog2 := 6 }; Tests.host.accepts Tests.cmd0 .slices = true ∧
    p.ok = true ∧ Tests.host.poolHas p.rings p.channels p.firstVector p.vectors p.credits = true ∧
    (Table.find p.slice Tests.host.host.slices).any Slice.live = false ∧ Tests.host.pasidFree p.pasid = true ∧
    p.caps.testBit 8 = false) := by decide
theorem witness_HostSlices_sliceDestroy : Tests.host.accepts Tests.cmd0 .slices = true ∧
    (Table.find 1 Tests.host.host.slices).any Slice.live = true := by decide
theorem witness_HostSlices_sliceFreeze : Tests.host.accepts Tests.cmd0 .slices = true ∧
    (Table.find 3 Tests.host.host.slices).any (fun sl => sl.state == .active && sl.quiesce.isNone) = true := by decide
theorem witness_HostSlices_sliceThaw : Tests.host.accepts Tests.cmd0 .slices = true ∧
    (Table.find 4 Tests.host.host.slices).map Slice.state = some .frozen := by decide
theorem witness_HostSlices_sliceSave : Tests.host.accepts Tests.cmd0 .slices = true ∧
    (Table.find 4 Tests.host.host.slices).map Slice.state = some .frozen := by decide
theorem witness_HostSlices_sliceRestore : (have im : SliceImage := { Tests.host.imageOf 4 ((Table.find 4 Tests.host.host.slices).getD {}) with crcOk := true, firstVector := 128 }; im.version = 1 ∧
    im.minor ≤ 2 ∧ (im.qps.any fun e => !(Tests.host.validQpn e.1) || Table.has e.1 Tests.host.trn.qps) = false ∧
    (im.regions.any fun e => (Table.find e.1 Tests.host.trn.regions).any Region.busy) = false ∧ Tests.host.pinsTooMany im.qps = false ∧
    (Table.find 1023 Tests.host.host.slices).any Slice.live = false ∧ Tests.host.pasidFree 99 = true ∧ im.crcOk = true ∧
    Tests.host.accepts Tests.cmd0 .slices = true ∧
    Tests.host.poolHas im.rings.length im.channels im.firstVector im.vectors im.credits = true) := by decide
theorem witness_HostSlices_sliceReset : Tests.host.accepts Tests.cmd0 .any = true ∧
    (Table.find 3 Tests.host.host.slices).any (fun sl => sl.live && sl.state != .resetting) = true := by decide
theorem witness_HostSlices_sliceQuiesced : (Table.find 5 Tests.host.host.slices).any (fun sl => sl.state == .resetting && !sl.destroying && Tests.host.idleSlice 5 sl) = true ∧
    (Table.find 6 Tests.host.host.slices).any (fun sl => sl.state == .active && sl.quiesce.isSome && (sl.channels.all fun ch => (Tests.host.channel ch).state == .paused) && sl.started.isEmpty && Tests.host.qpsQuiet 6) = true := by decide
theorem witness_HostObjects_frameSend : (have f : TxFrame := { lport := 15, bytes := List.replicate 60 0 }; Tests.host.accepts Tests.cmd0 .frames = true ∧
    60 ≤ f.bytes.length ∧ f.bytes.length ≤ 9212 ∧ f.prio ∉ (Tests.host.lport f.lport).paused ∧ f.ptp = none ∧
    Tests.host.on Reg.ETH_MACSEC_CTRL.EN 3 = false ∧
    f.prio ∈ (({ Tests.host with ports := [(15, { paused := [0] })] } : State).lport f.lport).paused) ∧ (List.replicate 59 (0 : Byte)).length < 60 := by decide
theorem witness_HostObjects_frameRxPost : Tests.host.accepts Tests.cmd0 .frames = true ∧ Table.get 0 0 Tests.host.host.claims = 0 := by decide
theorem witness_HostObjects_qpCreate : (have s := (Tests.host.wr Reg.TRN_CTX_BASE.BASE 1).wr Reg.TRN_CTX_COUNT.COUNT 4096; have x : Qp := { state := .init }; s.accepts Tests.cmd0 .qp = true ∧
    s.rd Reg.TRN_CTX_BASE.BASE ≠ 0 ∧ s.validQpn 9 = true ∧ Table.has 9 s.trn.qps = false ∧ x.fieldsOk = true ∧ (x.pinned && !(s.mayPin 9)) = false ∧
    (s.sliceOf Tests.cmd0).mayName 0 = true) := by decide
theorem witness_HostObjects_qpModify : (have x : Qp := { state := .rts }; have new := ((List.range 5).filter fun k => (1 : Nat).testBit k).foldl (fun (o : Qp) k => o.mergeLine { state := .sqd } k) x; Tests.host.accepts Tests.cmd0 .qp = true ∧
    Table.find 2 Tests.host.trn.qps = some x ∧ new.fieldsOk = true ∧ (Tests.host.sliceOf Tests.cmd0).mayName x.tenant = true ∧
    (Tests.host.sliceOf Tests.cmd0).mayName new.tenant = true ∧ qpChangeOk x.state new.state = true ∧ (new.pinned && !(Tests.host.mayPin 2)) = false ∧
    new.state = .sqd) := by decide
theorem witness_HostObjects_qpDestroy : Tests.host.accepts Tests.cmd0 .qp = true ∧ Table.find 2 Tests.host.trn.qps = some { state := .rts } ∧
    (Tests.host.sliceOf Tests.cmd0).mayName 0 = true := by decide
theorem witness_HostObjects_qpQuery : Tests.host.accepts Tests.cmd0 .qp = true ∧ Table.find 2 Tests.host.trn.qps = some { state := .rts } ∧
    (Tests.host.sliceOf Tests.cmd0).mayName 0 = true := by decide
theorem witness_HostObjects_regionRegister : (have s := (Tests.host.wr Reg.TRN_REGION_BASE.BASE 1).wr Reg.TRN_REGION_COUNT.COUNT 64; s.accepts Tests.cmd0 .qp = true ∧
    s.rd Reg.TRN_REGION_BASE.BASE ≠ 0 ∧ 63 < s.rd Reg.TRN_REGION_COUNT.COUNT ∧ (s.sliceOf Tests.cmd0).mayName 0 = true ∧
    Table.find 63 s.trn.regions = none ∧ (Table.find 63 s.trn.regions).any Region.busy = false) := by decide
theorem witness_HostObjects_regionInvalidate : Tests.host.accepts Tests.cmd0 .qp = true ∧
    Table.find (0x700 / 256) Tests.host.trn.regions = some { base := 4096, length := 4096, variant := 0, read := true, write := true } ∧
    (Tests.host.sliceOf Tests.cmd0).mayName 0 = true := by decide
theorem witness_HostObjects_wrPost : (have w : WorkReq := { qpn := 2, op := .write, localKey := 0x700, length := 64 }; have q : Qp := { state := .rts, sqSize := 1 }; have s : State := { Tests.host with trn.qps := [(2, q)] }; s.accepts Tests.cmd0 .qp = true ∧
    Table.find 2 s.trn.qps = some q ∧ (s.sliceOf Tests.cmd0).mayName q.tenant = true ∧ w.armed = false ∧ q.sendQueue.length < q.sqSize ∧
    (s.keyCheck w.localKey (some q.tenant) (w.op == .read) w.offset w.length).isSome = true) := by decide
theorem witness_DmaChannels_dmaXfer : (have d : DmaDesc := { channel := 0, srcSpace := .ddr, dstSpace := .ddr, swap := 0, lineLen := 64, src := 0, dst := 4096 }; Tests.host.accepts Tests.cmd0 .any = true ∧
    Tests.host.checkDma (Tests.host.sliceOf Tests.cmd0) 0 d = none ∧ (Tests.host.channel 0).state = .idle ∧ (Tests.host.channel 0).cur = none ∧
    (Tests.host.channel 0).queue = []) ∧
    (have d : DmaDesc := { channel := 1, srcSpace := .ddr, dstSpace := .ddr, swap := 0, lineLen := 64, src := 0, dst := 4096 }; Tests.host.checkDma (Tests.host.sliceOf Tests.cmd0) 0 d = none ∧
    (Tests.host.channel 1).state = .paused) := by decide
theorem witness_DmaChannels_dmaPause : Tests.host.accepts Tests.cmd0 .any = true ∧ 0 ∈ (Tests.host.sliceOf Tests.cmd0).channels ∧
    (Tests.host.channel 0).cur = none ∧ (Tests.host.channel 0).state = .idle ∧ (Tests.host.channel 0).pausers = [] := by decide
theorem witness_DmaChannels_dmaResume : Tests.host.accepts Tests.cmd0 .any = true ∧ 1 ∈ (Tests.host.sliceOf Tests.cmd0).channels ∧
    (Tests.host.channel 1).state = .paused := by decide
theorem witness_DmaChannels_dmaChPause : (State.reset.wr Reg.BOOT_STATUS.STAGE 3).running = true ∧ (State.reset.channel 0).state = .idle ∧
    (State.reset.channel 0).cur = none := by decide
theorem witness_DmaChannels_dmaChResume : (Tests.host.wr Reg.BOOT_STATUS.STAGE 3).running = true ∧
    (Tests.host.channel 1).state = .paused := by decide
theorem witness_DmaChannels_dmaChWithdraw : (Tests.host.wr Reg.BOOT_STATUS.STAGE 3).running = true ∧
    (Tests.host.channel 2).cur.any (fun x => !x.flight.isEmpty) = true := by decide
theorem witness_DmaChannels_dmaBurstDone : (Tests.host.channel 2).cur.any (fun x => x.flight == [(0, 64)] && (Tests.host.dmaAddr x.desc.srcSpace x.desc.srcKey x.desc.src).isSome && (Tests.host.dmaAddr x.desc.dstSpace x.desc.dstKey x.desc.dst).isSome) = true := by decide
theorem witness_CapsuleTags_capsuleArrive : (have s := Tests.nvme { qpn := 4, cid := 1, op := .read }; (s.qp 4).state ≠ .error ∧ ({ qpn := 4, cid := 2, op := .read, bytes := 63 } : Capsule).bytes < 64 ∧
    s.cidInUse { qpn := 4, cid := 1, op := .read } = true ∧ 64 ≤ ({ qpn := 4, cid := 2, op := .read } : Capsule).bytes ∧
    s.cidInUse { qpn := 4, cid := 2, op := .read } = false ∧ s.outOfSequence { qpn := 4, cid := 2, op := .read } = false ∧
    s.outOfSequence { qpn := 8, cid := 2, op := .read } = true ∧ s.cidInUse { qpn := 5, cid := 1, op := .connect } = false ∧
    s.outOfSequence { qpn := 5, cid := 1, op := .connect } = false ∧ s.cmd.intake0.length < 32768 ∧ s.cmd.intake1.length < 32768) := by decide
theorem witness_CapsuleTags_intakeFull : ∀ n, (have w : Waiting := { cap := { qpn := 4, cid := 7, op := .read } }; have s : State := { Tests.nvme { qpn := 4, cid := 1, op := .read } with cmd.intake0 := List.replicate n w }; s.cidInUse { qpn := 4, cid := 2, op := .read } = false ∧
    s.outOfSequence { qpn := 4, cid := 2, op := .read } = false ∧ n ≤ s.cmd.intake0.length) := by
  intro n
  refine ⟨?_, rfl, by simp⟩
  simp [State.cidInUse, Tests.nvme]
  exact fun x h => nomatch h
theorem witness_CapsuleTags_capsuleArrive2 : (have w : Waiting := { cap := { qpn := 4, cid := 7, op := .read } }; have s : State := { Tests.nvme { qpn := 4, cid := 1, op := .read } with cmd.intake0 := List.replicate 32768 w }; s.cidInUse { qpn := 4, cid := 2, op := .read } = false ∧
    s.outOfSequence { qpn := 4, cid := 2, op := .read } = false ∧ 32768 ≤ s.cmd.intake0.length) :=
  witness_CapsuleTags_intakeFull 32768
theorem witness_CapsuleTags_tagAssign : (have w : Waiting := { cap := { qpn := 2, cid := 9, op := .identify }, admin := true, ctrl := 1 }; have s : State := ({ State.reset with cmd.intake0 := [w] }).wr Reg.CMD_CTRL.DISPATCH_EN 1; have c : Cmd := { cap := w.cap, ctrl := w.ctrl, tenant := w.tenant, admin := true, order := w.at_, started := s.clock, hostId := w.hostId, ticket := w.at_ }; s.power.headLost = false ∧
    s.roleGap .qc 0 = false ∧ s.dispatches = true ∧ s.mayTag .initiator = true ∧ oldest s.intake (fun w => w.admin) = some w ∧
    w.cap.fused = .none ∧ w.rtag = none ∧ w.made = none ∧ s.rd Reg.CMD_PS_CFG.EFFECTIVE ≠ 3 ∧ s.checkFields c = none ∧ s.holds c = false) := by decide
theorem witness_CapsuleTags_completionQueued : (have s := (Tests.nvme { qpn := 4, cid := 1, op := .read }).modTag 5 fun c => { c with status := some success }; (s.tag 5).any fun c => c.status == some success && c.state != .completing && !(s.resvBehind 5 c) && !c.discard && c.cls == .initiator) = true := by decide
theorem witness_CapsuleTags_tagFree : (have s := (Tests.nvme { qpn := 4, cid := 1, op := .read }).modTag 5 fun c => { c with state := .completing, status := some success }; have s : State := { s with cmd.posting := [5] }; (s.tag 5).any fun c => c.state == .completing && c.readsLeft == 0 && c.status == some success && !c.discard && c.cls == .initiator) = true ∧
    5 ∈ ({ State.reset with cmd.posting := [5] } : State).cmd.posting := by decide
theorem witness_CapsuleTags_cmdTagQuery : (State.reset.wr Reg.BOOT_STATUS.STAGE 3).writable 10 = true := by decide
theorem witness_CapsuleTags_abort : (have s : State := { Tests.nvme { qpn := 2, cid := 1, op := .abort, cdw10 := 3 * 65536 + 1 } with cmd.intake0 := [{ cap := { qpn := 4, cid := 3, op := .read } }] }; (s.ready 5 .abort).isSome ∧
    (s.cmd.tags.countP fun e => e.2.cap.op == .abort) ≤ 4 ∧
    ((Table.find 1 s.cmd.ctrls).any fun k => (s.intake.find? fun w => some w.cap.qpn == k.qpOf 1 && w.cap.cid == 3 && !w.cap.op.isAdmin).isSome) = true) := by decide
theorem witness_CapsuleTags_holdRelease : (have s := (Tests.nvme { qpn := 4, cid := 1, op := .read, nsid := 9 }).modTag 5 fun c => { c with state := .held, locked := true }; ((s.cmd.tags.filter fun e => e.2.state == .held && !(s.stillHeld e.1 e.2)).map Prod.fst = [5]) ∧
    (s.tag 5).any (fun c => c.cap.op != .abort && c.locked && !(s.holds c)) = true ∧ s.rd Reg.CMD_PS_CFG.EFFECTIVE ≠ 3) := by decide
theorem witness_CapsuleTags_ps3EntryEnd : ({ State.reset with cmd.phase := .entering } : State).cmd.phase = .entering := by decide
theorem witness_CapsuleTags_ps3ExitEnd : (have s : State := { State.reset with cmd.phase := .exiting }; s.cmd.phase = .exiting ∧ s.cmd.psAgain = false) := by decide
theorem witness_AdminCommands_getLogPage : ((Tests.nvme { qpn := 2, cid := 1, op := .getLogPage, cdw10 := 4 }).ready 5 .getLogPage).any (fun c => (Table.find c.ctrl (Tests.nvme c.cap).cmd.ctrls).isSome) = true ∧
    ((Tests.nvme { qpn := 2, cid := 1, op := .getLogPage, cdw10 := 0x7F }).ready 5 .getLogPage).isSome := by decide
theorem witness_AdminCommands_identify : (have s := Tests.nvme { qpn := 2, cid := 1, op := .identify, nsid := 9 }; (s.ready 5 .identify).isSome ∧
    (Table.find 9 s.map.ns).isSome ∧ Table.find 8 s.map.ns = none) := by decide
theorem witness_AdminCommands_setFeatures : (have s := Tests.nvme { qpn := 2, cid := 1, op := .setFeatures, cdw10 := 7, cdw11 := 127 }; (s.ready 5 .setFeatures).any (fun c => c.cap.cdw12 == 0 && c.cap.cdw13 == 0 && c.cap.cdw14 == 0 && c.cap.cdw15 == 0) = true ∧
    ((Table.find 1 s.cmd.ctrls).bind fun k => k.setFeature 7 127).isSome ∧ s.cmd.phase ≠ .entering) := by decide
theorem witness_AdminCommands_setFeatures2 : ((Tests.nvme { qpn := 2, cid := 1, op := .setFeatures, cdw10 := 2 ^ 31 + 1 }).ready 5 .setFeatures).any (fun c => c.cap.cdw10.testBit 31) = true ∧
    ((Tests.nvme { qpn := 2, cid := 1, op := .setFeatures, cdw10 := 256 }).ready 5 .setFeatures).any (fun c => !c.cap.cdw10.testBit 31 && c.cap.cdw10 / 256 % 2 ^ 23 == 1) = true ∧
    ((Tests.nvme { qpn := 2, cid := 1, op := .setFeatures, cdw10 := 7, cdw12 := 1 }).ready 5 .setFeatures).any (fun c => !c.cap.cdw10.testBit 31 && c.cap.cdw12 == 1) = true ∧
    ((Tests.nvme { qpn := 2, cid := 1, op := .setFeatures, cdw10 := 2, cdw11 := 3 }).ready 5 .setFeatures).any (fun c => c.cap.cdw10 == 2 && c.cap.cdw11 ≤ 3) = true := by decide
theorem witness_AdminCommands_setFeatures3 : (have s := Tests.nvme { qpn := 2, cid := 1, op := .setFeatures, cdw10 := 0x83, cdw11 := 1, nsid := 9 }; (s.ready 5 .setFeatures).any (fun c => c.cap.cdw10 == 0x83 && c.cap.cdw11 ≤ 1 && Table.has c.cap.nsid s.map.ns) = true ∧
    s.cmd.psWaiter ≠ some 5) ∧
    (have s := Tests.nvme { qpn := 2, cid := 1, op := .setFeatures, cdw10 := 0x83, cdw11 := 1, nsid := 0xFFFFFFFF }; (s.ready 5 .setFeatures).any (fun c => c.cap.nsid == 0xFFFFFFFF) = true ∧
    Table.has 9 s.map.ns = true ∧ ({ s with map.ns := [] } : State).map.ns = []) ∧
    (have s := Tests.nvme { qpn := 2, cid := 1, op := .setFeatures, cdw10 := 0x83, cdw11 := 0, nsid := 8 }; (s.ready 5 .setFeatures).any (fun c => c.cap.nsid != 0xFFFFFFFF && !(Table.has c.cap.nsid s.map.ns)) = true) := by decide
theorem witness_AdminCommands_getFeatures : ((Tests.nvme { qpn := 2, cid := 1, op := .getFeatures, cdw10 := 7 }).ready 5 .getFeatures).any (fun c => (Table.find c.ctrl (Tests.nvme c.cap).cmd.ctrls).isSome && c.cap.cdw10 == 7 && c.cap.cdw11 == 0 && c.cap.cdw12 == 0 && c.cap.cdw13 == 0 && c.cap.cdw14 == 0 && c.cap.cdw15 == 0) = true ∧
    ((Tests.nvme { qpn := 2, cid := 1, op := .getFeatures, cdw10 := 256 }).ready 5 .getFeatures).any (fun c => 256 ≤ c.cap.cdw10) = true ∧
    ((Tests.nvme { qpn := 2, cid := 1, op := .getFeatures, cdw10 := 7, cdw11 := 1 }).ready 5 .getFeatures).any (fun c => c.cap.cdw11 == 1) = true := by decide
theorem witness_AdminCommands_asynchronousEventRequest : ((Tests.nvme { qpn := 2, cid := 1, op := .asyncEventRequest }).ready 5 .asyncEventRequest).any (fun c => (Table.find c.ctrl (Tests.nvme c.cap).cmd.ctrls).any fun k => k.notices == [] && decide (k.aers.length < 4)) = true ∧
    (have s : State := { Tests.nvme { qpn := 2, cid := 1, op := .asyncEventRequest } with cmd.ctrls := [(1, { adminQp := 2, notices := [(3, 4), (5, 6)] })] }; (s.ready 5 .asyncEventRequest).any fun c => (Table.find c.ctrl s.cmd.ctrls).any fun k => k.notices == [(3, 4), (5, 6)]) = true ∧
    (have s : State := { Tests.nvme { qpn := 2, cid := 1, op := .asyncEventRequest } with cmd.ctrls := [(1, { adminQp := 2, aers := [6, 7, 8, 9] })] }; (s.ready 5 .asyncEventRequest).any fun c => (Table.find c.ctrl s.cmd.ctrls).any fun k => k.notices == [] && 4 ≤ k.aers.length) = true := by decide
theorem witness_AdminCommands_keepAlive : ((Tests.nvme { qpn := 2, cid := 1, op := .keepAlive }).ready 5 .keepAlive).any (fun c => (Table.find c.ctrl (Tests.nvme c.cap).cmd.ctrls).isSome) = true := by decide
theorem witness_AdminCommands_keepAliveExpiry : (Table.find 1 (Tests.nvme { qpn := 2, cid := 1, op := .read }).cmd.ctrls).any (fun k => k.kato != 0) = true := by decide
theorem witness_AdminCommands_fabricsConnect : (have s := Tests.nvme { qpn := 6, cid := 1, op := .connect }; (s.ready 5 .connect).isSome ∧
    s.ctrlOf 6 = none) := by decide
theorem witness_AdminCommands_propertyGet : ((Tests.nvme { qpn := 2, cid := 1, op := .propertyGet, cdw11 := 0x14 }).ready 5 .propertyGet).isSome ∧
    ((Tests.nvme { qpn := 2, cid := 1, op := .propertyGet, cdw11 := 0x1C }).ready 5 .propertyGet).isSome := by decide
theorem witness_AdminCommands_propertySet : (have s : State := { Tests.nvme { qpn := 2, cid := 1, op := .propertySet, cdw11 := 0x14, cdw12 := 0x460001 } with cmd.ctrls := [(1, { adminQp := 2 })] }; (s.ready 5 .propertySet).isSome ∧
    (0x460001 % 2 = 1) ∧ 0x460001 / 2 ^ 14 % 4 = 0 ∧ (Table.find 1 s.cmd.ctrls).any (fun k => !k.en && !k.resetting) = true) := by decide
theorem witness_AdminCommands_disconnect : ((Tests.nvme { qpn := 2, cid := 1, op := .disconnect }).ready 5 .disconnect).any (fun c => (Table.find c.ctrl (Tests.nvme c.cap).cmd.ctrls).isSome) = true := by decide
theorem witness_AdminCommands_cstsRdyClear : (have s : State := { State.reset with cmd.ctrls := [(1, { adminQp := 2, rdy := true, resetting := true, connected := true, shn := 2 }), (2, { adminQp := 4, resetting := true, connected := false })] }; (Table.find 1 s.cmd.ctrls).any (fun k => k.resetting && k.connected && k.shn == 2) = true ∧
    (Table.find 2 s.cmd.ctrls).any (fun k => k.resetting && !k.connected) = true ∧
    (s.cmd.tags.any fun e => e.2.cls == .initiator && e.2.ctrl == 1) = false) := by decide
theorem witness_AdminCommands_shutdownComplete : (have k : Controller := { adminQp := 2, shn := 1, shst := 1, aers := [5] }; have s : State := { State.reset with cmd.ctrls := [(1, k)], cmd.tags := [(5, { cap := { qpn := 2, cid := 1, op := .asyncEventRequest }, ctrl := 1 })] }; Table.find 1 s.cmd.ctrls = some k ∧
    (s.cmd.tags.any fun e => e.2.cls == .initiator && e.2.ctrl == 1 && !(k.aers.contains e.1)) = false ∧
    (s.intake.any fun w => w.ctrl == 1) = false) := by decide
theorem witness_BlockCommands_formatNvm : (have s := Tests.nvme { qpn := 2, cid := 1, op := .formatNvm, nsid := 9 }; (s.ready 5 .formatNvm).isSome ∧ s.bars 5 = false ∧
    s.hasRoom 192 = true ∧ ((s.wr Reg.CMD_CTRL.UNMIRRORED 1).ready 5 .formatNvm).isSome ∧ (s.wr Reg.CMD_CTRL.UNMIRRORED 1).bars 5 = true) := by decide
theorem witness_BlockCommands_flush : (have s := Tests.nvme { qpn := 4, cid := 1, op := .flush, nsid := 9 }; (s.ready 5 .flush).any (fun c => !c.covers.any s.writeOpen) = true) ∧
    (have s : State := Tests.nvme { qpn := 4, cid := 1, op := .flush, nsid := 9 }; have s := ({ s with cmd.tags := s.cmd.tags ++ [(6, { cap := { qpn := 4, cid := 3, op := .write, nsid := 9 }, ctrl := 1, order := 3, ticket := 9, write := some {} })] } : State).modTag 5 fun c => { c with covers := [(6, 9)] }; (s.ready 5 .flush).any (fun c => c.covers.any s.writeOpen && s.cmd.tags.all fun e => e.1 != 5 || e.2 == c) = true) := by decide
theorem witness_BlockCommands_write : ((Tests.nvme { qpn := 4, cid := 1, op := .write, nsid := 9, cdw12 := 127 }).ready 5 .write).any (fun c => c.cls == .initiator && c.cap.sgl == .keyed && c.cap.nlb == 128) = true ∧
    (((Tests.nvme { qpn := 4, cid := 1, op := .write, nsid := 9, cdw12 := 127 }).modTag 5 fun c => { c with cls := .forwardedIn }).ready 5 .write).any (fun c => c.cls == .forwardedIn && c.write.isNone && decide (0 < c.cap.nlb)) = true := by decide
theorem witness_BlockCommands_writeZeroes : (have s := Tests.nvme { qpn := 4, cid := 1, op := .writeZeroes, nsid := 9, cdw12 := 7 }; (s.ready 5 .writeZeroes).any (fun c => !c.cap.cdw12.testBit 25) = true ∧
    s.bars 5 = false ∧ s.hasRoom (itemsLen [({ addr := 0, len := 32768, loc := .zero }, none)]) = true) ∧
    (have s := Tests.nvme { qpn := 4, cid := 1, op := .writeZeroes, nsid := 9, cdw12 := 2 ^ 25 + 7 }; (s.ready 5 .writeZeroes).any (fun c => c.cap.cdw12.testBit 25) = true ∧
    s.hasRoom (itemsLen [({ addr := 0, len := 32768, loc := .unmapped }, none)]) = true) := by decide
theorem witness_BlockCommands_datasetManagement : ((Tests.nvme { qpn := 4, cid := 1, op := .datasetManagement, nsid := 9 }).ready 5 .datasetManagement).any (fun c => !(c.cap.cdw11.testBit 2)) = true ∧
    (have s := Tests.nvme { qpn := 4, cid := 1, op := .datasetManagement, nsid := 9, cdw11 := 4, data := [0, 0, 0, 0, 8, 0, 0, 0, 16, 0, 0, 0, 0, 0, 0, 0] }; (s.ready 5 .datasetManagement).any (fun c => c.cap.cdw11.testBit 2 && c.cap.ranges == [(16, 8)]) = true ∧
    s.bars 5 = false ∧ s.hasRoom (itemsLen ((bareExtents .unmapped (16 * 4096) (8 * 4096)).map fun e => (e, none))) = true) := by decide
theorem witness_BlockCommands_reservationRegister : (have s := Tests.nvme { qpn := 4, cid := 1, op := .resvRegister, nsid := 9, cdw10 := 3 * 2 ^ 30 }; (s.ready 5 .resvRegister).any (fun c => c.cap.cdw10 % 8 < 3 && c.cap.cdw10 / 2 ^ 30 % 4 != 1 && (((s.begun 5 c).resvDue 9).register ((s.hostOf c).getD 0) c.cap.cdw10 0 0).isSome) = true ∧
    s.bars 5 = false ∧ s.hasRoom 192 = true) ∧
    ((Tests.nvme { qpn := 4, cid := 1, op := .resvRegister, nsid := 9, cdw10 := 3 }).ready 5 .resvRegister).any (fun c => 3 ≤ c.cap.cdw10 % 8) = true ∧
    ((Tests.nvme { qpn := 4, cid := 1, op := .resvRegister, nsid := 9, cdw10 := 2 ^ 30 }).ready 5 .resvRegister).any (fun c => c.cap.cdw10 / 2 ^ 30 % 4 == 1) = true ∧
    (have s := Tests.nvme { qpn := 4, cid := 1, op := .resvRegister, nsid := 9, cdw10 := 1 }; (s.ready 5 .resvRegister).any (fun c => (((s.begun 5 c).resvDue 9).register ((s.hostOf c).getD 0) c.cap.cdw10 0 0).isNone) = true) := by decide +kernel
theorem witness_BlockCommands_reservationReport : ((Tests.nvme { qpn := 4, cid := 1, op := .resvReport, nsid := 9 }).ready 5 .resvReport).isSome := by decide
theorem witness_BlockCommands_reservationAcquire : (have s : State := { Tests.nvme { qpn := 4, cid := 1, op := .resvAcquire, nsid := 9, cdw10 := 6 * 256 } with cmd.resv := [(9, { regs := [(0, 0)] })] }; (s.ready 5 .resvAcquire).any (fun c => c.cap.cdw10 / 256 % 256 == 6 && ((s.begun 5 c).resvDue 9).keyOf ((s.hostOf c).getD 0) == some (num (slice c.cap.data 0 8))) = true ∧
    (s.resvOf 9).holder = none ∧ s.bars 5 = false ∧ s.hasRoom 192 = true) ∧
    (have s : State := { Tests.nvme { qpn := 4, cid := 1, op := .resvAcquire, nsid := 9, cdw10 := 256 } with cmd.resv := [(9, { regs := [(0, 1)] })] }; (s.ready 5 .resvAcquire).any (fun c => ((s.begun 5 c).resvDue 9).keyOf ((s.hostOf c).getD 0) != some (num (slice c.cap.data 0 8))) = true) := by decide +kernel
theorem witness_BlockCommands_reservationRelease : (have s : State := { Tests.nvme { qpn := 4, cid := 1, op := .resvRelease, nsid := 9, cdw10 := 256 } with cmd.resv := [(9, { regs := [(0, 0)], holder := some 0, rtype := 1 })] }; (s.ready 5 .resvRelease).any (fun c => c.cap.cdw10 % 8 == 0 && ((s.begun 5 c).resvDue 9).keyOf ((s.hostOf c).getD 0) == some (num (slice c.cap.data 0 8)) && ((s.begun 5 c).resvDue 9).holder == some ((s.hostOf c).getD 0) && ((s.begun 5 c).resvDue 9).rtype == c.cap.cdw10 / 256 % 256) = true ∧
    s.bars 5 = false ∧ s.hasRoom 192 = true) := by decide +kernel
theorem witness_BlockCommands_reservationRelease2 : (have s : State := { Tests.nvme { qpn := 4, cid := 1, op := .resvRelease, nsid := 9 } with cmd.resv := [(9, { regs := [(0, 0)] })] }; (s.ready 5 .resvRelease).any (fun c => c.cap.cdw10 % 8 == 0 && ((s.begun 5 c).resvDue 9).holder != some ((s.hostOf c).getD 0) && ((s.begun 5 c).resvDue 9).keyOf ((s.hostOf c).getD 0) == some (num (slice c.cap.data 0 8))) = true) ∧
    (have s : State := { Tests.nvme { qpn := 4, cid := 1, op := .resvRelease, nsid := 9, cdw10 := 1 } with cmd.resv := [(9, { regs := [(0, 0)] })] }; (s.ready 5 .resvRelease).any (fun c => c.cap.cdw10 % 8 == 1) = true ∧
    s.hasRoom 192 = true) ∧ (have s := Tests.nvme { qpn := 4, cid := 1, op := .resvRelease, nsid := 9, cdw10 := 1 }; (s.ready 5 .resvRelease).any (fun c => ((s.begun 5 c).resvDue 9).keyOf ((s.hostOf c).getD 0) != some (num (slice c.cap.data 0 8))) = true) := by decide +kernel
theorem witness_ReadPath_read : (have s := (Tests.nvme { qpn := 4, cid := 1, op := .read, nsid := 9 }).wr Reg.MAP_CTRL.EN 1; s.map.deltas = [] ∧ (s.ready 5 .read).any (fun c => c.cls == .initiator && (Table.find 9 s.map.ns).any fun x => ((s.begun 5 c).touched 9 x.root 0 4096).firstFault x.root 0 4096 == none && (((s.begun 5 c).touched 9 x.root 0 4096).piecesOf x.root 0 4096).map ReadPiece.loc == [.zero]) = true ∧
    s.on Reg.MAP_CTRL.EN = true) := by decide
theorem witness_ReadPath_compare : (have s := (Tests.nvme { qpn := 4, cid := 1, op := .compare, nsid := 9, sgl := .inCapsule, data := zeros 4096 }).wr Reg.MAP_CTRL.EN 1; s.map.deltas = [] ∧ (s.ready 5 .compare).any (fun c => c.cls == .initiator && !c.sent && c.partner.isNone && decide (c.cap.nlb * 4096 ≤ c.cap.data.length) && (Table.find 9 s.map.ns).any fun x => ((s.begun 5 c).touched 9 x.root 0 4096).firstFault x.root 0 4096 == none && (((s.begun 5 c).touched 9 x.root 0 4096).piecesOf x.root 0 4096).map ReadPiece.loc == [.zero]) = true) := by decide
theorem witness_ReadPath_containerDecode : (have p : ReadPiece := { Tests.piece with copy := some (some (zeros 80)) }; have s := Tests.reading .initiator p; (s.tag 5).any (fun c => c.cls == .initiator && c.cap.op == .read && c.status.isNone && c.pieces[0]? == some p) = true ∧
    p.sent = false ∧ p.second = none ∧ p.loc.inCache = true ∧ 0 < p.loc.size ∧ s.cacheLost p.loc = false ∧
    0 < (s.wr Reg.BND_SIDECH.DUMMY 1).rd Reg.BND_SIDECH.DUMMY ∧ (s.wr Reg.BND_SIDECH.DUMMY 0).rd Reg.BND_SIDECH.DUMMY = 0 ∧
    (Tests.reading .forwardedIn p).tag 5 = (s.tag 5).map fun c => { c with cls := .forwardedIn }) := by decide
theorem witness_ReadPath_containerDecode2 : (match (Tests.reading .initiator Tests.piece).decodeContainer 0 Tests.piece.loc.size Tests.stored with | .ok _ => true | .error _ => false) = true := by decide +kernel
theorem witness_ReadPath_secondCopyArrive : (have p : ReadPiece := { Tests.piece with second := some 0x3105 }; (((Tests.reading .initiator p).tag 5).any fun c => c.cls == .initiator && c.cap.op == .read && c.status.isNone && c.pieces[0]? == some p) = true ∧
    p.sent = false ∧ 5 ≠ mirrorTag) := by decide
theorem witness_ReadPath_leafReadCompletion : (have r : LeafRead := { leaf := 0, unit := 0, folio := 0, first := 2, count := 1, use := .proxy 77 }; have s : State := { State.reset with lfl.ops := [(3, { leaf := 0, for_ := .read r, cmd := .read })] }; (Table.find 3 s.lfl.ops).any (fun op => op.for_ == .read r) = true ∧
    r.count = 1 ∧ r.step = 0) := by decide
theorem witness_ReadPath_slowMemberTimeout : (have q : Quire := { pool := 2, width := 3, parity := 1, slots := [(0, 0), (1, 0), (2, 0)], head := false }; have r : LeafRead := { leaf := 0, unit := 0, folio := 0, first := 0, count := 1, use := .gather 4, quire := 7 }; have s : State := ({ State.reset with lfl.ops := [(3, { leaf := 0, for_ := .read r, cmd := .read })], sig.quires := [(7, q)], lfl.leaves := [(0, { cond := .present }), (1, { cond := .present }), (2, { cond := .present })] } : State).wr Reg.SIG_POOL_CFG.EXPRESS 1 2; (Table.find 3 s.lfl.ops).any (fun op => op.for_ == .read r) = true ∧
    s.quire 7 = some q ∧ (s.poolEff q.pool).express = true ∧ r.overtaken = false ∧ q.data ≤ (s.standIns q 0 0).length) := by decide
theorem witness_ReadPath_proxyLeafRead : (have s : State := { State.reset with lfl.leaves := [(0, { cond := .present })] }; s.reach 0 0 = .direct ∧ s.leafReady 0 [] = true ∧
    ∀ e ∈ s.lfl.ops, e.2.leaf = 0 → e.2.waits = false) ∧ Table.find State.reset.lfl.nextId State.reset.lfl.ops = none ∧ State.reset.reach 512 0 ≠ .direct := by decide
theorem witness_ReadPath_proxyReadData : (have q : Quire := { pool := 2, width := 3, parity := 1, slots := [(0, 0), (1, 0), (2, 0)], head := false }; have r : LeafRead := { leaf := 0, unit := 0, folio := 0, first := 0, count := 1, use := .gather 4, quire := 7 }; have s : State := { State.reset with lfl.nextId := 4, lfl.ops := [(3, { leaf := 0, for_ := .proxied r, cmd := .read })], sig.quires := [(7, q)], lfl.leaves := [(0, { cond := .present }), (1, { cond := .present }), (2, { cond := .present })] }; (Table.find 3 s.lfl.ops).any (fun op => op.for_ == .proxied r) = true ∧
    r.count = 1 ∧ r.overtaken = false ∧ s.sig.checks = [] ∧ s.sig.patrols = [] ∧ 3 < s.lfl.nextId ∧ s.quire r.quire = some q ∧ q.data ≤ (s.standIns q r.folio r.member).length) := by decide
theorem witness_ReadPath_remoteReadData : (have s := Tests.reading .initiator Tests.piece; (s.tag 5).any (fun c => c.job == none && c.write.isNone && c.pieces[0]? == some Tests.piece) = true ∧
    s.runOf 5 = none ∧ Tests.piece.copy = none) := by decide
theorem witness_DedupCommands_gearSeedWrite : (have s := State.reset.wr Reg.BOOT_STATUS.STAGE 3; s.writable 11 = true ∧ s.locked 11 = false ∧
    (s.wr Reg.OLD_LOCK_STATUS.LOCKED (2 ^ 10)).locked 11 = true) := by decide
theorem witness_DedupCommands_digestStateDone : (have s : State := { State.reset with keys.digest := [(3, { key := [] })] }; (Table.find 3 s.keys.digest).isSome ∧
    ∀ e ∈ s.cmd.tags, waitingChunks e.2 = []) ∧
    (have k : Chunk := { off := 0, bytes := [1], state := .waiting }; have s := ({ State.reset with cmd.tags := [(5, { cap := { qpn := 4, cid := 1, op := .write }, write := some { chunks := [k], segs := [{ off := 0, len := 1, lane := 0 }] } })], keys.digest := [(3, { key := [] })] } : State).wr Reg.DDP_DOMAIN_KEYS.DIGEST_SLOT 3 0; (s.cmd.tags.all fun e => waitingChunks e.2 == [k] && s.rd Reg.DDP_DOMAIN_KEYS.DIGEST_SLOT e.2.tenant == 3) = true ∧
    ({ key := [] } : DigestSlot).damaged = false ∧ s.isForwarded 5 = false) := by decide
theorem witness_DedupCommands_dedupLookup : (have k : Chunk := { off := 0, bytes := [1], fp := some (zeros 32), state := .asked }; have s : State := ({ State.reset with cmd.tags := [(5, { cap := { qpn := 4, cid := 1, op := .write }, write := some { chunks := [k] }, tenant := 3 })], ddp.index := [(0, { fp := zeros 32, domain := 3, loc := .zero, pins := 254 })] } : State); (s.tag 5).any (fun c => (c.write.bind fun w => w.chunkAt 0) == some k) = true ∧
    s.on Reg.DDP_CTRL.LOOKUP_EN = false ∧ s.tagMatches 3 (zeros 32) = [0] ∧
    (s.wr Reg.DDP_CTRL.LOOKUP_EN 1).on Reg.DDP_CTRL.LOOKUP_EN = true) := by decide
theorem witness_DedupCommands_lookupAnswer : (have k : Chunk := { off := 0, bytes := [1], state := .asked, answer := some (some (.cache false 0 1 64 48)) }; have s : State := { State.reset with cmd.tags := [(5, { cap := { qpn := 4, cid := 1, op := .write }, write := some { chunks := [k], segs := [{ off := 0, len := 4096, lane := 0, got := 1 }] } })] }; (s.tag 5).any (fun c => c.write.any fun w => w.chunkAt 0 == some k && !(w.segs.all fun g => g.got == g.len)) = true ∧
    s.on Reg.DDP_DOMAIN_CFG.VERIFY 0 = false) := by decide
theorem witness_DedupCommands_verifyCompare : (have s := Tests.reading .initiator Tests.piece; have k : Chunk := { off := 0, bytes := zeros 48, state := .verifying (.cache false 0 1 64 80), copy := some (some (zeros 80)) }; have s : State := { s with cmd.tags := [(5, { cap := { qpn := 4, cid := 1, op := .write }, write := some { chunks := [k] } })] }; (s.tag 5).any (fun c => (c.write.bind fun w => w.chunkAt 0) == some k) = true) := by decide
theorem witness_DedupCommands_reconcileEntry : (have e : JournalEntry := { domain := 4095, fp := [1], loc := .flash 0 1 2 3 4 5 }; have s : State := ((({ Tests.running with ddp.journal := [e], keys.stored := [{ loc := e.loc, domain := 4095, slot := 0, gen := 1, cut := 0, fp := none }] } : State).wr Reg.DDP_CTRL.RECON_EN 1).wr Reg.DDP_DOMAIN_CFG.MODE 2 4095).wr Reg.DDP_DOMAIN_CFG.EN 1 4095; s.ddp.journal = [e] ∧
    s.mayReconcile = true ∧ s.rd Reg.DDP_RECON_RATE.PER_MS ≠ 0 ∧ s.isStored e.loc = true ∧ s.rd Reg.DDP_DOMAIN_CFG.MODE 4095 = 2 ∧
    s.cascaded 4095 = false ∧ s.flashEntry 4095 [1] = none) := by decide
theorem witness_DedupCommands_domainSweep : (have s := (((({ Tests.running with keys.stored := [{ loc := .flash 0 1 2 3 4 5, domain := 9, slot := 0, gen := 1, cut := 0, fp := some [1] }] } : State).wr Reg.DDP_DOMAIN_STAT.SWEEP_NEEDED 1 9).wr Reg.DDP_CTRL.RECON_EN 1).wr Reg.DDP_DOMAIN_CFG.MODE 2 9).wr Reg.DDP_DOMAIN_CFG.EN 1 9; s.on Reg.DDP_DOMAIN_STAT.SWEEP_NEEDED 9 = true ∧
    s.mayReconcile = true ∧ s.rd Reg.DDP_DOMAIN_CFG.MODE 9 = 2 ∧ (s.cascaded 9 && !(s.pairReached (s.rd Reg.DDP_DOMAIN_HOME.HOME 9))) = false ∧
    ∀ m ∈ s.keys.stored, m.domain = 9 → m.loc.inFlash = true ∨ m.fp = none) := by decide
theorem witness_DedupCommands_domainCfgWrite : (have s := State.reset.wr Reg.BOOT_STATUS.STAGE 3; s.writable 12 = true ∧
    s.on Reg.DDP_DOMAIN_CFG.EN 4095 = false ∧ (s.wr Reg.DDP_DOMAIN_CFG.EN 1 4095).on Reg.DDP_DOMAIN_CFG.EN 4095 = true) := by decide
theorem witness_DedupCommands_cascadeJournalEntry : (have s : State := { State.reset with ddp.flash := [{ domain := 1, fp := [1], loc := .flash 0 1 2 3 4 5 }] }; s.ddp.applied.contains (2, 7) = false ∧
    s.flashEntry 2 [1] = none ∧ (s.flashEntry 1 [1]).isSome) := by decide
theorem witness_DedupCommands_cascadeHomeAnswer : (have e : JournalEntry := { domain := 1, fp := [1], loc := .flash 0 1 2 3 4 5 }; have s : State := { State.reset with ddp.asked := [(9, e)], keys.stored := [{ loc := e.loc, domain := 1, slot := 0, gen := 1, cut := 0, fp := none }] }; Table.find 9 s.ddp.asked = some e ∧
    s.isStored e.loc = true ∧ s.flashEntry 1 [1] = none ∧ ({ s with keys.stored := [] } : State).isStored e.loc = false) := by decide
theorem witness_DedupCommands_cascadeRelease : State.reset.ddp.applied.contains (2, 7) = false ∧
    ({ State.reset with ddp.applied := [(2, 7)] } : State).ddp.applied.contains (2, 7) = true := by decide
theorem witness_KeySlots_keyLoad : Tests.host.accepts Tests.cmd0 .keys = true ∧ (Tests.host.sliceOf Tests.cmd0).mayName 9 = true := by decide
theorem witness_KeySlots_keyRetire : (have s : State := { Tests.host with keys.cipher := [(8191, { prev := some { gen := 4, type := .xts256, key := [] } })], keys.ledger := [(8191, { prev := some 4 })] }; s.accepts Tests.cmd0 .keys = true ∧
    (s.slotInUse 8191 && !((s.sliceOf Tests.cmd0).mayName (s.slotTenant 8191))) = false ∧ (s.ledger 8191).prev = some 4 ∧
    (s.ledger 8191).count 4 = 0 ∧ (s.ledger 0).prev = none ∧ (s.slotInUse 0 && !((s.sliceOf Tests.cmd0).mayName (s.slotTenant 0))) = false ∧
    (({ s with keys.ledger := [(8191, { prev := some 4, counts := [(4, 2, false)] })] } : State).ledger 8191).count 4 ≠ 0) := by decide
theorem witness_KeySlots_keyRevoke : (have s : State := { Tests.host with keys.cipher := [(3, { prev := some { gen := 4, type := .xts256, key := [] } })], keys.digest := [(3, { key := [] })], keys.ledger := [(3, { cur := some 5, prev := some 4 })] }; s.accepts Tests.cmd0 .keys = true ∧
    s.slotInUse 3 = true ∧ (s.sliceOf Tests.cmd0).mayName (s.slotTenant 3) = true ∧
    (Table.find 3 s.keys.digest).any (fun d => (s.sliceOf Tests.cmd0).mayName d.tenant) = true) := by decide
theorem witness_KeySlots_keyResweep : (have s : State := { Tests.host with keys.cipher := [(0, { cur := some { gen := 4, type := .xts256, key := [] } })] }; s.accepts Tests.cmd0 .keys = true ∧
    (s.sliceOf Tests.cmd0).mayName 4095 = true ∧ (s.cipherSlot (s.rd Reg.DDP_DOMAIN_KEYS.CIPHER_SLOT 4095)).cur.isSome = true ∧
    s.oldGen 4095 = none ∧ Table.find 4095 s.keys.sweeps = none ∧
    (have u : State := { s with keys.ledger := [(0, { prev := some 3, counts := [(3, 1, false)] })] }; u.oldGen 4095 = some 3 ∧
    (u.ledger 0).count 3 ≠ 0)) := by decide
theorem witness_KeySlots_rekeySweepStep : (have s : State := { State.reset with keys.sweeps := [(9, [])] }; Table.has 9 s.keys.sweeps = true ∧
    (s.keys.rekeyed.find? fun e => s.domainOf e.1 == 9) = none ∧ s.oldGen 9 = none) := by decide
theorem witness_KeySlots_kekLoad : (have s := State.reset.wr Reg.BOOT_STATUS.STAGE 3; s.writable 21 = true ∧ (31 : Nat).testBit 4 = true ∧
    31 % 16 ≠ 0 ∧ s.locked 21 = false ∧ (s.wr Reg.OLD_LOCK_STATUS.LOCKED (2 ^ 20)).locked 21 = true) := by decide
theorem witness_KeySlots_compJob : Tests.host.accepts Tests.cmd0 .jobs = true ∧
    (CompParams.parse (fit 32 (Tests.compBlock 0 0)) 0 0).any (fun p => p.good && !(p.op == .compress && p.format == .lz4)) = true ∧
    (CompParams.parse (fit 32 (Tests.compBlock 0 3)) 0 0).any (fun p => p.good && p.op == .compress && p.format == .lz4) = true ∧
    CompParams.parse (fit 32 (Tests.compBlock 4 3)) 0 0 = none := by decide
theorem witness_KeySlots_cipherJob : (have s : State := { Tests.host with keys.cipher := [(8, { cur := some { gen := 4, type := .aes256, key := [] } })] }; s.accepts Tests.cmd0 .jobs = true ∧
    CipherParams.parse (fit 64 (Tests.cipherBlock 5 0)) 0 = none ∧
    (CipherParams.parse (fit 64 (Tests.cipherBlock 0 1)) 0).any (fun p => p.fields != 0) = true ∧
    (CipherParams.parse (fit 64 (Tests.cipherBlock 0 0)) 0).any (fun p => p.fields == 0 && p.length == 0 && (s.keyGen p.slot p.gen).any (fun g => g.type.fits p.mode) && (s.sliceOf Tests.cmd0).mayName (s.cipherSlot p.slot).tenant && !(s.envelopeSlot p.slot)) = true) := by decide
theorem witness_KeySlots_jobSliceEnd : (have j : Job := { cmd := Tests.cmd0, lane := 0, begun := true, comp := some { Tests.comp with op := .crc, inLen := 2 } }; have s : State := { Tests.host with bnd.jobs := [j] }; (s.bnd.jobs.find? fun j => j.cmd.slice == Tests.cmd0.slice && j.cmd.ring == Tests.cmd0.ring && j.cmd.cid == Tests.cmd0.cid) = some j ∧
    j.cipher = none ∧ j.stop = false ∧ j.squashed = false ∧ s.servesNext j = true ∧ j.sliceLen = 2 ∧ j.input.length + 2 = 2 ∧
    s.host.d3hot = false) := by decide
theorem witness_MirrorRecords_mirrorWriteRecord : (have r : MirRec := { Tests.rcd with body := .write [] [] }; State.reset.wc.stopped = false ∧ State.reset.power.headLost = false ∧
    State.reset.judge r = .apply ∧ (State.reset.wr Reg.DDR_MIR_EPOCH.EPOCH 9).judge r = .stale ∧
    State.reset.judge { r with opened := false } = .rejected) := by decide
theorem witness_MirrorRecords_mirrorMetadataRecord : (have r : MirRec := { Tests.rcd with body := .metadata [{ op := .format 1 }] }; State.reset.wc.stopped = false ∧ State.reset.power.headLost = false ∧
    State.reset.judge r = .apply ∧ ({ State.reset with wc.applied := 1, wc.mir := [(0, { inEpoch := true, gen := 2 })] } : State).judge r = .olderGen ∧
    (have s : State := { State.reset with wc.applied := 1, wc.ackWait := [r], wc.mir := [(0, { inEpoch := true, gen := 0 })] }; s.judge r = .sameGen ∧
    (s.wc.ackWait.any fun x => x.seq == r.seq && x.epoch == r.epoch) = true ∧ ({ s with wc.ackWait := [] } : State).judge r = .sameGen)) := by decide
theorem witness_MirrorRecords_mirrorReleaseRecord : State.reset.wc.stopped = false ∧ State.reset.power.headLost = false ∧
    State.reset.judge { Tests.rcd with body := .release } = .apply := by decide
theorem witness_MirrorRecords_mirrorApplyDdrAck : (have s : State := { State.reset with wc.ackWait := [Tests.rcd] }; s.wc.stopped = false ∧
    (s.wc.ackWait.find? fun r => r.seq == 1).isSome) := by decide
theorem witness_MirrorRecords_mirrorAck : (have s : State := { State.reset with wc.sent := [(1, { rcd := Tests.rcd, onWire := true })] }; (Table.find 1 s.wc.sent).any (fun x => !x.acked) = true) := by decide
theorem witness_MirrorRecords_mirrorAckTimeout : (have s : State := ({ State.reset with wc.sent := [(1, { rcd := Tests.rcd, onWire := true })], wc.mode := .mirrored } : State); (Table.find 1 s.wc.sent).any (fun x => !x.acked && x.onWire) = true ∧
    s.wc.mode.mirrors = true ∧ s.wc.halted = false ∧ (s.wr Reg.XRN_LINK_STATUS.STATE 5 2).peerPorts true = [2] ∧
    (s.wr Reg.XRN_LINK_STATUS.STATE 5 2).peerPorts false = [2]) := by decide
theorem witness_MirrorRecords_soloDdrAck : (have s : State := { (Tests.nvme { qpn := 4, cid := 1, op := .write, nsid := 9 }).wr Reg.MAP_CTRL.EN 1 with cmd.tags := [(5, { cap := { qpn := 4, cid := 1, op := .write, nsid := 9 }, state := .pastReturn, write := some { queued := true } })], wc.mode := .solo }; (s.tag 5).any (fun c => c.change.isNone && c.write.any fun w => w.queued && !w.committed && w.unacked == [] && s.canUpdate 5 c w) = true ∧
    s.wc.mode = .solo ∧ State.reset.wc.mode = .off) := by decide
theorem witness_MirrorRecords_segmentAgeExpiry : (have s : State := { State.reset with wc.own := [(7, { state := .full })] }; (s.ownSeg 7).state = .full ∧
    s.rd Reg.DDR_WC_DIRTY.OWN * 100 < s.rd Reg.DDR_WC_CFG.START * s.rd Reg.DDR_WC_CFG.LIMIT_SEGS) := by decide
theorem witness_MirrorRecords_laneStallResume : (have s : State := { State.reset with wc.stalled := [35] }; s.wc.stalled.contains 35 = true ∧
    s.freeSeg.isSome = true ∧ (s.cmd.tags.any fun e => e.2.write.any fun w => w.stalled == some 35 && !w.queued) = false) := by decide
theorem witness_PowerFailCommands_vinLowWarning : State.reset.warned = false ∧
    (State.reset.wr Reg.DDR_PF_STATUS.WARN 1).warned = true := by decide
theorem witness_PowerFailCommands_pwrfailNLow : (have s := (State.reset.wr Reg.DDR_PF_CFG.PIN_EN 1).wr Reg.BOOT_STATUS.STAGE 3; s.on Reg.DDR_PF_CFG.PIN_EN = true ∧
    s.running = true ∧ s.warned = false) ∧ (State.reset.wr Reg.DDR_PF_CFG.PIN_EN 0).on Reg.DDR_PF_CFG.PIN_EN = false := by decide
theorem witness_PowerFailCommands_destageNow : (have s := State.reset.wr Reg.BOOT_STATUS.STAGE 3; s.running = true ∧
    s.warned = false) := by decide
theorem witness_PowerFailCommands_frontLinksDown : (have s : State := ({ State.reset with wc.mode := .destage } : State).wr Reg.DDR_PF_STATUS.WARN 1; s.warned = true ∧
    s.wc.mode = .destage) := by decide
theorem witness_PowerFailCommands_destageSealed : (have s : State := ({ State.reset with wc.destage := some { epoch := 1, head := false, time := 0, segs := [], bytes := 0 } } : State).wr Reg.DDR_PF_STATUS.WARN 1; s.wc.destage.isSome ∧
    s.warned = true ∧ s.on Reg.DDR_PF_STATUS.SEALED = false ∧ s.destaged = true ∧ s.pins.resetLatched = false) := by decide
theorem witness_SewingAndLog_sewSignature : (have s := Tests.sewing; s.maySew 2 = true ∧ s.destageNow = false ∧ (s.waitingFor 2 = [] → False) ∧
    (s.waitingFor 2).all (fun x => !s.cacheLost x.2.1) = true ∧ s.wc.asks = [] ∧ s.wc.fetched = [] ∧
    ((s.quiresOf 2).find? fun e => e.2.state == .opened && e.2.head == s.headB && decide (e.2.next < s.quireDepth 2)).any (fun e => e.1 == 4 && s.quire 4 == some e.2 && (s.waitingFor 2).head?.any fun c => decide (c.2.2.length ≤ e.2.data * folioPayload)) = true) := by decide +kernel
theorem witness_SewingAndLog_logPageSend : Tests.sewing.sig.page ≠ [] := by decide
theorem witness_SewingAndLog_logAppendAck : (have s : State := { Tests.sewing with lfl.ops := [(3, { leaf := 1, for_ := .log 0 7, cmd := .logAppend })], sig.pageNo := 8, sig.sent := [{ number := 7, entries := [] }] }; (Table.find 3 s.lfl.ops).any (fun op => op.for_ == .log 0 7) = true ∧
    (s.sig.sent.find? fun p => p.number == 7).any (fun p => !(p.acks.contains 0) && !p.durable && !(decide (s.pageNeed ≤ p.acks.length + 1))) = true ∧ 7 < s.sig.pageNo ∧
    ({ s with wc.mode := .destage } : State).pageNeed ≤ 1) := by decide
theorem witness_SewingAndLog_logCopyTimeout : (({ State.reset with sig.copies := [{ leaf := 0, valid := true }, { leaf := 1, valid := true }, { leaf := 2, valid := true }] } : State).sig.copies[2]?).any (fun c => c.valid) = true := by decide
theorem witness_SewingAndLog_logReseedDone : (({ State.reset with sig.copies := [{ leaf := 0, valid := false, reseeding := true }] } : State).sig.copies[0]?).any (fun c => c.reseeding) = true := by decide
theorem witness_SewingAndLog_folioWriteComplete : (have x : Sig := { pool := 2, quire := 4, index := 0, seq := 1, moves := [], taken := [], folios := [[], []] }; have s : State := { State.reset with lfl.ops := [(3, { leaf := 1, for_ := .folio 4 0 1, cmd := .program })], sig.flight := [x] }; (Table.find 3 s.lfl.ops).any (fun op => op.for_ == .folio 4 0 1) = true ∧
    (s.sig.flight.find? fun x => x.quire == 4 && x.index == 0).any (fun x => !(x.acked.contains 1)) = true) := by decide
theorem witness_SewingAndLog_folioWriteFail : (have x : Sig := { pool := 2, quire := 4, index := 0, seq := 1, moves := [], taken := [], folios := [[], []] }; have s : State := { Tests.sewing with lfl.ops := [(3, { leaf := 1, for_ := .folio 4 0 1, cmd := .program })], sig.flight := [x] }; (Table.find 3 s.lfl.ops).any (fun op => op.for_ == .folio 4 0 1) = true ∧
    (s.sig.flight.find? fun x => x.quire == 4 && x.index == 0).isSome ∧ (s.quire 4).isSome) := by decide
theorem witness_SewingAndLog_grantRequest : (have s : State := { State.reset with lfl.leaves := [(1, { cond := .present, blocks := [(0, true), (1, true)], used := [0] })] }; ((s.leaf 1).myBlocks.find? fun b => !((s.leaf 1).used.any fun u => u / 256 == b)) = some 1) := by decide
theorem witness_SewingAndLog_quireDrained : (have s : State := { Tests.sewing with sig.quires := [(4, { pool := 2, width := 3, parity := 1, slots := [(0, 0), (1, 0), (2, 0)], head := false, state := .draining })] }; (s.quire 4).any (fun q => q.state == .draining) = true ∧
    s.quireHeld 4 = false) := by decide
theorem witness_SewingAndLog_quireEraseComplete : (have s : State := { State.reset with lfl.ops := [(3, { leaf := 1, for_ := .erase 4 1, cmd := .erase })], sig.quires := [(4, { pool := 2, width := 2, parity := 1, slots := [(0, 0), (1, 0)], head := false, state := .erasing, erased := [0] })] }; (Table.find 3 s.lfl.ops).any (fun op => op.for_ == .erase 4 1) = true ∧
    (s.quire 4).any (fun q => q.state == .erasing && !(q.erased.contains 1)) = true) := by decide
theorem witness_PoolsAndLeaves_gcCollect : (have s : State := { Tests.sewing with sig.quires := [(4, { pool := 2, width := 3, parity := 1, slots := [], head := false, state := .closed, queued := some .finding })] }; s.qsReady 2 = true ∧
    (firstOpened ((s.readyQuires 2).filter fun e => e.2.queued == some .finding)).map Prod.fst = some 4 ∧
    (s.quire 4).any (fun q => q.held.filter s.liveLoc == []) = true) := by decide +kernel
theorem witness_PoolsAndLeaves_rebuildQuire : (have s : State := { State.reset with sig.rebuilding := true }; s.sig.rebuilding = true ∧
    (s.sig.quires.filter fun e => e.2.queued == some .rebuild && s.minesQuire e.2) = [] ∧
    (s.sig.quires.any fun e => decide (0 < s.missingOf e.2 true) && s.minesQuire e.2) = false) := by decide
theorem witness_PoolsAndLeaves_leafAbsent : (Tests.sewing.leaf 1).cond = .present ∧ Tests.sewing.poolOf 1 = some 2 ∧
    (Tests.sewing.members 2).length ≤ 8 := by decide
theorem witness_PoolsAndLeaves_leafAbsentTimeout : (({ State.reset with lfl.leaves := [(511, { cond := .absent })] } : State).leaf 511).cond = .absent := by decide
theorem witness_PoolsAndLeaves_leafReturn : (have s : State := { State.reset with lfl.leaves := [(511, { cond := .absent })] }; (s.leaf 511).cond = .absent ∧
    (s.leaf 511).joined = none) := by decide
theorem witness_PoolsAndLeaves_leafDrain : (have s := Tests.sewing; s.writable 14 = true ∧ s.on Reg.SIG_LEAF_RESULT.BUSY = false ∧
    s.poolOf 9 = none ∧ s.poolOf 1 = some 2 ∧ (s.poolEff 2).width ≤ (s.members 2).length - 1 ∧
    s.poolReserve 2 ≤ (s.poolUnits 2).2 - (s.leaf 1).spare ∧ (s.leaf 1).cond = .present) := by decide
theorem witness_PoolsAndLeaves_leafFail : (have s := Tests.sewing; s.writable 14 = true ∧ s.on Reg.SIG_LEAF_RESULT.BUSY = false ∧
    s.poolOf 9 = none ∧ (s.poolOf 1).isSome = true) := by decide
theorem witness_PoolsAndLeaves_leafReadmit : (have s : State := (Tests.sewing.putLeaf 1 { cond := .failed }).wr Reg.LFL_LEAF.REACH_SELF 1 1; s.writable 14 = true ∧
    s.on Reg.SIG_LEAF_RESULT.BUSY = false ∧ (s.leaf 2).cond ≠ .failed ∧ (s.poolOf 1).isSome = true ∧ (s.leaf 1).cond = .failed ∧
    s.on Reg.LFL_LEAF.REACH_SELF 1 = true) := by decide
theorem witness_PoolsAndLeaves_drainComplete : (have s : State := { Tests.sewing.putLeaf 3 { cond := .draining, drain := true } with sig.cmdLeaf := some 3 }; s.poolOf 3 = some 2 ∧
    (s.leaf 3).drain = true ∧ s.quiresOn 3 = []) := by decide
theorem witness_PoolsAndLeaves_acceptLoss : (have s := (State.reset.wr Reg.BOOT_STATUS.STAGE 3).wr Reg.SIG_POOL_STATE.STATE 5 63; s.writable 14 = true ∧
    s.rd Reg.SIG_POOL_STATE.STATE 63 = 5) := by decide
theorem witness_PoolsAndLeaves_patrolSignature : (have s : State := ({ Tests.sewing with sig.quires := [(4, { pool := 2, width := 3, parity := 1, slots := [(0, 0), (1, 0), (2, 0)], head := false, state := .closed, next := 2 })] } : State).wr Reg.SIG_CTRL.PATROL_EN 1; (s.quire 4).any (fun q => q.width == 3 && s.reach (q.place 1 0).1 (q.place 1 0).2 == .direct && s.reach (q.place 1 1).1 (q.place 1 1).2 == .direct && s.reach (q.place 1 2).1 (q.place 1 2).2 == .direct && q.state == .closed && !(q.slots.any fun x => (s.leaf x.1).cond == .absent) && s.qsReady q.pool && (s.poolEff q.pool).en && decide (1 < q.next)) = true ∧
    s.on Reg.SIG_CTRL.PATROL_EN = true ∧ s.sig.patrols = []) := by decide
theorem witness_PoolsAndLeaves_poolEnable : (have s := State.reset.wr Reg.BOOT_STATUS.STAGE 3; s.writable 14 = true ∧ s.on Reg.SIG_POOL_CFG.EN 63 = false ∧ s.quiresOf 63 = [] ∧
    (1 + 2 * 3 + 128) % 2 = 1 ∧ (1 + 2 * 3 + 128) / 2 % 64 < 4 ∧ (4 ≤ (1 + 2 * 32 + 256) / 2 % 64 ∧ (1 + 2 * 32 + 256) / 2 % 64 ≤ 32) ∧
    (1 + 2 * 4 + 128 * 3) / 2 % 64 < (1 + 2 * 4 + 128 * 3) / 128 % 4 + 2) := by decide
theorem witness_PoolsAndLeaves_poolMemberAdd : (have s := State.reset.wr Reg.BOOT_STATUS.STAGE 3; s.writable 14 = true ∧
    s.poolOf (32 * 15 + 31) = none ∧ s.members 63 = []) := by decide
theorem witness_LeafLanes_leafHopActive : (have s : State := { State.reset.wr Reg.LFL_LANE_CFG.EN 1 31 with lfl.hops := [(496, { state := .lock }), (511, { state := .detect })] }; s.mayTrain 31 0 = true ∧
    s.mayTrain 31 15 = true ∧ (s.hop 31 0).state = .lock ∧ (s.hop 31 15).state = .detect) := by decide
theorem witness_LeafLanes_leafHopDown : (({ State.reset with lfl.hops := [(496, { state := .active })] } : State).hop 31 0).state ≠ .down := by decide
theorem witness_LeafLanes_leafHopDetect : State.reset.mayTrain 0 1 = true ∧ (State.reset.hop 0 1).state = .down := by decide
theorem witness_LeafLanes_leafReplayRequest : (have s : State := { State.reset with lfl.hops := [(16, { state := .active, seq := 1023, replays := 4 })] }; hopNamed 1 0 = true ∧
    (s.hop 1 0).state = .active ∧ (s.hop 1 0).seq = 2047 % 1024 ∧ 4 ≤ (s.hop 1 0).replays ∧ (s.hop 1 0).seq ≠ 1022 % 1024) := by decide
theorem witness_LeafLanes_leafEnumerationAnswer : (have s : State := { State.reset with lfl.hops := [(496, { state := .active })] }; (s.hop 31 0).state = .active ∧
    s.lfl.ops = [] ∧ s.on Reg.LFL_LEAF.REACH_SELF 511 = false) := by decide
theorem witness_LeafLanes_leafIdentifyCompletion : (have s : State := { State.reset with lfl.ops := [(3, { leaf := 511, for_ := .identify, cmd := .identify })] }; (Table.find 3 s.lfl.ops).any (fun op => op.for_ == .identify) = true) := by decide
theorem witness_LeafLanes_leafErrorCompletion : (have s : State := { State.reset with lfl.ops := [(3, { leaf := 511, for_ := .grant 0 9, cmd := .grant })] }; (Table.find 3 s.lfl.ops).any (fun op => op.for_ == .grant 0 9) = true) := by decide
theorem witness_LeafLanes_leafHealthCompletion : (have s : State := { State.reset with lfl.ops := [(3, { leaf := 511, for_ := .health 16 1, cmd := .health })] }; (Table.find 3 s.lfl.ops).any (fun op => op.for_ == .health 16 1) = true) := by decide
theorem witness_LeafLanes_plannerMeasurements : (have s : State := { State.reset with wc.mode := .mirrored, lfl.leaves := [(3, { id := some { serial := 1 } })] }; s.plans = true ∧
    (s.leaf 3).id.isSome = true) := by decide
theorem witness_LeafLanes_planInterval : (have s := State.reset.wr Reg.LFL_CTRL.PLAN_EN 1; s.on Reg.LFL_CTRL.PLAN_EN = true ∧
    s.plans = false) := by decide
theorem witness_LeafLanes_witnessReadCompletion : (have c : Contest := { asked := [1, 2] }; have s : State := { State.reset with lfl.ops := [(3, { leaf := 1, for_ := .witnessRead, cmd := .witnessRead })], own.contest := some c }; (Table.find 3 s.lfl.ops).any (fun op => op.for_ == .witnessRead) = true ∧
    c.term = 0 ∧ c.opened = false ∧ c.asked.contains 1 = true ∧ (c.read.any fun e => e.1 == 1) = false ∧ (∃ l ∈ c.asked, l ≠ 1 ∧
    ∀ e ∈ c.read, e.1 ≠ l)) := by decide
theorem witness_LeafLanes_witnessCasCompletion : (have s : State := { State.reset with lfl.ops := [(3, { leaf := 1, for_ := .witnessCas, cmd := .witnessCas })] }; (Table.find 3 s.lfl.ops).any (fun op => op.for_ == .witnessCas) = true ∧
    s.own.contest = none ∧ s.own.fencing = none) := by decide
theorem witness_LeafLanes_logReadCompletion : (have s : State := { State.reset with lfl.ops := [(3, { leaf := 1, for_ := .logRead 16 0, cmd := .logRead })], sig.scans := [1, 2] }; (Table.find 3 s.lfl.ops).any (fun op => op.for_ == .logRead 16 0) = true ∧
    s.sig.scans.contains 1 = true ∧ s.sig.scans.erase 1 ≠ [] ∧ s.sig.retake = none) := by decide
theorem witness_HeartbeatsAndContests_powerFailNotice : (have s := State.reset.wr Reg.OWN_CTRL.EN 1; s.on Reg.OWN_CTRL.EN = true ∧
    s.wc.mode ≠ .destage ∧ s.own.loser = false) := by decide
theorem witness_HeartbeatsAndContests_pfHoldoffExpiry : (have s : State := ({ State.reset with own.holdoff := true } : State).wr Reg.OWN_CTRL.EN 1; s.own.holdoff = true ∧
    s.warned = false ∧ s.mayContest = true ∧ (s.wr Reg.DDR_PF_STATUS.WARN 1).warned = true) := by decide
theorem witness_HeartbeatsAndContests_heartbeatSend : (have s := (State.reset.wr Reg.OWN_CTRL.EN 1).wr Reg.XRN_LINK_STATUS.STATE 5 0; s.on Reg.OWN_CTRL.EN = true ∧
    s.power.headLost = false ∧ s.own.rejoin = false ∧ s.peerPorts false = [0] ∧ ({ s with power.headLost := true } : State).power.headLost = true) := by decide
theorem witness_HeartbeatsAndContests_heartbeat : (State.reset.wr Reg.OWN_CTRL.EN 1).on Reg.OWN_CTRL.EN = true ∧
    true ≠ State.reset.headB := by decide
theorem witness_HeartbeatsAndContests_peerSuspect : (have s : State := ({ State.reset with own.lastBeat := some 0 } : State).wr Reg.OWN_CTRL.EN 1; s.mayContest = true ∧
    s.own.lastBeat.isSome = true ∧ s.own.suspect = none ∧ s.rd Reg.OWN_STATE.PEER ≤ 1) := by decide
theorem witness_HeartbeatsAndContests_stuckSuspectExpiry : (have s : State := ({ State.reset with wc.mode := .suspect } : State).wr Reg.OWN_CTRL.EN 1; s.mayContest = true ∧
    s.wc.mode = .suspect ∧ s.own.suspect = none) := by decide
theorem witness_HeartbeatsAndContests_startHeartbeatTimeout : (have s : State := ({ State.reset with own.starting := true } : State).wr Reg.OWN_CTRL.EN 1; s.mayContest = true ∧
    s.own.starting = true ∧ s.own.lastBeat = none) := by decide
theorem witness_HeartbeatsAndContests_contestRetry : (({ State.reset with own.contest := some { asked := [], opened := true } } : State).own.contest.any Contest.opened) = true := by decide
theorem witness_HeartbeatsAndContests_force : (have s := (State.reset.wr Reg.BOOT_STATUS.STAGE 3).wr Reg.OWN_CTRL.EN 1; s.writable 17 = true ∧
    s.mayContest = true) := by decide
theorem witness_HeartbeatsAndContests_epochProposal : (have s := State.reset.wr Reg.OWN_CTRL.EN 1; s.on Reg.OWN_CTRL.EN = true ∧
    s.rd Reg.DDR_MIR_EPOCH.EPOCH < 1 ∧ s.wc.mode ≠ .destage) := by decide
theorem witness_HeartbeatsAndContests_epochAccept : (have s : State := { State.reset with own.proposed := some 1 }; s.own.proposed = some 1 ∧
    s.wc.mode ≠ .destage) := by decide
theorem witness_HeartbeatsAndContests_rejoinRequest : (have s := State.reset.wr Reg.OWN_STATE.PEER 3; s.rd Reg.OWN_STATE.PEER = 3 ∧
    (s.wc.mir.any fun e => e.2.adopted) = false ∧ s.own.proposed = none ∧
    (({ s with wc.mir := [(0, { adopted := true })] } : State).wc.mir.any fun e => e.2.adopted) = true) := by decide
theorem witness_HeartbeatsAndContests_healthReportSend : (State.reset.wr Reg.OWN_CTRL.EN 1).on Reg.OWN_CTRL.EN = true := by decide
theorem witness_HeartbeatsAndContests_healthReport : (State.reset.wr Reg.OWN_CTRL.EN 1).on Reg.OWN_CTRL.EN = true := by decide
theorem witness_MovesForwardingScrub_forwardedCommand : (have s : State := { State.reset with cmd.fwdIn := [{ cap := { qpn := 4, cid := 1, op := .read }, rtag := some 9 }] }; s.power.headLost = false ∧
    (s.cmd.fwdIn.find? fun w => w.rtag == some 9).isSome ∧ ({ rtag := 9, tenant := 1, cancel := true } : FwdHeader).cancel = true ∧
    ({ rtag := 9, tenant := 1 } : FwdHeader).cancel = false) := by decide
theorem witness_MovesForwardingScrub_forwardedData : (have c : Cmd := { cap := { qpn := 4, cid := 1, op := .write }, cls := .forwardedIn, peerTag := some 9 }; have s : State := { State.reset with cmd.tags := [(5, c), (9, { cap := { qpn := 4, cid := 2, op := .snapshotList }, state := .forwarded })] }; (s.tag 9).any (fun c => c.state == .forwarded && c.cap.op == .snapshotList) = true ∧
    s.servedFor 9 = some (5, c) ∧ s.tag 5 = some c ∧ c.begun = false ∧ c.status = none ∧ c.write = none ∧
    ({ ext := { addr := 0, len := 4096, loc := .unmapped }, container := [1] } : FwdUnit).ext.loc = .unmapped) := by decide
theorem witness_MovesForwardingScrub_forwardedCompletion : (have s : State := { State.reset with cmd.tags := [(9, { cap := { qpn := 4, cid := 2, op := .write }, state := .forwarded })] }; (s.tag 9).any (fun c => c.state == .forwarded && c.cap.sgl != .inCapsule && c.cap.op != .read && c.status.isNone) = true ∧
    (s.cmd.tags.any fun e => e.2.abortOf.any fun a => a.1 == 9) = false) := by decide
theorem witness_MovesForwardingScrub_moveRequest : (have s : State := ({ State.reset with own.groups := [(1023, { owner := true, state := .moving })] } : State).wr Reg.OWN_CTRL.EN 1; s.on Reg.OWN_CTRL.EN = true ∧
    (s.groupOf 0).state = .settled ∧ s.own.move = none ∧ (s.groupOf 1023).owner ≠ s.headB ∧ (s.groupOf 1023).state = .moving) := by decide
theorem witness_MovesForwardingScrub_moveAccept : (have s : State := { State.reset with own.groups := [(3, { owner := false, state := .moving })], own.move := some 3 }; s.own.move = some 3 ∧
    (s.groupOf 3).owner = s.headB ∧ (s.groupOf 3).state = .moving) := by decide
theorem witness_MovesForwardingScrub_ownMove : (have s := ((Tests.running.wr Reg.OWN_CTRL.EN 1).wr Reg.OWN_HEALTH.PEER_READY 1).wr Reg.OWN_HEALTH.SELF_READY 1; s.writable 17 = true ∧
    (2047 : Nat).testBit 10 = true ∧ s.on Reg.OWN_CTRL.EN = true ∧ s.on Reg.OWN_HEALTH.PEER_READY = true ∧ s.on Reg.OWN_HEALTH.SELF_READY = true ∧
    s.own.move = none ∧ (s.groupOf 1023).state = .settled ∧ s.wc.mode ≠ .mirrored ∧
    ({ s with wc.mode := .mirrored } : State).wc.mode = .mirrored) := by decide
theorem witness_MovesForwardingScrub_moveDrained : (have s : State := { State.reset with own.groups := [(3, { owner := false, state := .moving })], own.move := some 3 }; s.own.move = some 3 ∧
    s.cmd.tags = [] ∧ s.boot.pause = false ∧ (s.groupOf 3).owner = s.headB ∧ (s.groupOf 3).state = .moving) := by decide
theorem witness_MovesForwardingScrub_scrubStep : (have s := State.reset.wr Reg.OWN_CTRL.EN 1; s.on Reg.OWN_CTRL.EN = true ∧
    s.own.scrubAt < s.scrubPass.length) := by decide
theorem witness_MovesForwardingScrub_scrubDigest : (State.reset.wr Reg.OWN_CTRL.EN 1).on Reg.OWN_CTRL.EN = true := by decide
theorem witness_MovesForwardingScrub_scrubPageRequest : (State.reset.wr Reg.OWN_CTRL.EN 1).on Reg.OWN_CTRL.EN = true ∧
    2 ∈ (ScrubSlice.pages 0).items State.reset.headB ∧
    (Table.find 2 ({ State.reset with map.pages := [(2, { level := 0, lo := 0, hi := 0 })] } : State).map.pages).isSome := by decide
theorem witness_MovesForwardingScrub_scrubPageImage : (have s : State := { State.reset with own.scrubBad := [46] }; s.own.scrubBad.contains (5 * 9 + 1) = true ∧
    Table.find 9 s.map.ns ≠ Table.find 9 (Tests.nvme { qpn := 4, cid := 1, op := .read }).map.ns ∧
    Table.find 9 (Tests.nvme { qpn := 4, cid := 1, op := .read }).map.ns ≠ none) := by decide
theorem witness_SnapshotsAndGroups_snapshotCreate : (have s := Tests.nvme { qpn := 4, cid := 1, op := .snapshotCreate, nsid := 9, cdw10 := 0x10000 }; (s.ready 5 .snapshotCreate).any (fun c => c.change.isNone && s.snapIdFor c.cap == some 0) = true ∧
    (Table.find 9 s.map.ns).isSome ∧ s.bars 5 = false ∧ s.hasRoom 192 = true ∧ (s.wr Reg.CMD_CTRL.UNMIRRORED 1).bars 5 = true) := by decide
theorem witness_SnapshotsAndGroups_snapshotDelete : (have s : State := { Tests.nvme { qpn := 4, cid := 1, op := .snapshotDelete, nsid := 9, cdw10 := 3 } with map.snaps := [(snapKey 9 3, { root := 1, time := 0 }), (snapKey 9 4, { root := 1, time := 0, clones := 1 }), (snapKey 9 6, { root := 1, time := 0, deleting := true })] }; (s.ready 5 .snapshotDelete).any (fun c => c.cap.cdw10 == 3) = true ∧
    (s.snap 9 3).any (fun x => !x.deleting) = true ∧ s.snapUsed 9 3 = false ∧ (s.snap 9 4).any (fun x => !x.deleting) = true ∧ s.snapUsed 9 4 = true ∧
    (s.snap 9 6).any Snapshot.deleting = true ∧ s.snap 9 5 = none ∧ s.bars 5 = false ∧ s.hasRoom 192 = true ∧
    (s.wr Reg.CMD_CTRL.UNMIRRORED 1).bars 5 = true) := by decide
theorem witness_SnapshotsAndGroups_snapshotList : ((Tests.nvme { qpn := 4, cid := 1, op := .snapshotList, nsid := 9, cdw11 := 1023 }).ready 5 .snapshotList).isSome := by decide
theorem witness_SnapshotsAndGroups_cloneCreate : (have s := Tests.nvme { qpn := 4, cid := 1, op := .cloneCreate, nsid := 9 }; (s.ready 5 .cloneCreate).isSome ∧
    s.bars 5 = false ∧ s.hasRoom 192 = true ∧ (s.wr Reg.CMD_CTRL.UNMIRRORED 1).bars 5 = true) := by decide
theorem witness_SnapshotsAndGroups_cgArm : (have s := (State.reset.wr Reg.BOOT_STATUS.STAGE 3).wr Reg.MAP_CG_TIME.T 5 255; s.writable 13 = true ∧
    s.ringTime < s.rd Reg.MAP_CG_TIME.T 255 ∧ s.rd Reg.MAP_CG_TIME.T 254 ≤ s.ringTime ∧
    s.on Reg.MAP_CG_CFG.ARMED 255 = false ∧ (s.wr Reg.MAP_CG_CFG.ARMED 1 255).on Reg.MAP_CG_CFG.ARMED 255 = true) := by decide
theorem witness_SnapshotsAndGroups_cgAbandon : (have s : State := { ((State.reset.wr Reg.BOOT_STATUS.STAGE 3).wr Reg.MAP_CG_CFG.ARMED 1 255).wr Reg.MAP_CG_TIME.T 5 255 with map.joined := [(255, [5])], cmd.tags := [(5, { cap := { qpn := 4, cid := 1, op := .snapshotCreate } })] }; s.writable 13 = true ∧
    s.on Reg.MAP_CG_CFG.ARMED 255 = true ∧ s.ringTime < s.rd Reg.MAP_CG_TIME.T 255 ∧ (s.wr Reg.MAP_CG_TIME.T 0 255).rd Reg.MAP_CG_TIME.T 255 ≤ s.ringTime ∧
    5 ∈ Table.get 255 [] s.map.joined ∧ (s.tag 5).isSome) := by decide
theorem witness_SnapshotsAndGroups_consistencyCut : (have s : State := { (Tests.nvme { qpn := 4, cid := 1, op := .snapshotCreate, nsid := 9, cdw10 := 3 }).wr Reg.MAP_CG_CFG.ARMED 1 255 with map.joined := [(255, [5])] }; s.on Reg.MAP_CG_CFG.ARMED 255 = true ∧ s.rd Reg.MAP_CG_TIME.T 255 ≤ s.ringTime ∧
    s.ringTime < (s.wr Reg.MAP_CG_TIME.T 5 255).rd Reg.MAP_CG_TIME.T 255 ∧
    Table.get 255 [] s.map.joined = [5] ∧ (s.tag 5).any (fun c => c.cap.cdw10 == 3) = true ∧ (Table.find 9 s.map.ns).isSome ∧
    (s.cmd.tags.all fun e => e.2.cap.op != .abort) = true) := by decide
theorem witness_Namespaces_nsCreate : (have s := Tests.host.wr Reg.MAP_NS_BASE.BASE 4096; Tests.host.accepts Tests.cmd0 .namespaces = true ∧
    Tests.host.rd Reg.MAP_NS_BASE.BASE = 0 ∧ s.accepts Tests.cmd0 .namespaces = true ∧ s.rd Reg.MAP_NS_BASE.BASE ≠ 0 ∧
    s.nsidTaken 65536 = false ∧ s.numbersLeft (s.groupOf 1023).owner ≠ 0 ∧ ({ s with map.nextA := 2 ^ 40, map.nextB := 2 ^ 40 } : State).numbersLeft (s.groupOf 1023).owner = 0 ∧ (s.sliceOf Tests.cmd0).mayName 4095 = true ∧
    (have p : NsParams := { nsid := 65536, tenant := 4095, pool := 63, size := 2 ^ 40, group := 1023 }; p.reservedZero = true ∧ p.size ≤ 2 ^ 40 ∧
    ({ p with size := 0 } : NsParams).size = 0 ∧ ({ p with reservedZero := false } : NsParams).reservedZero = false)) := by decide
theorem witness_Namespaces_nsChange : (have s : State := { Tests.host with map.ns := [(9, { tenant := 1, pool := 0, size := 1, root := 1, group := 0 })] }; s.accepts Tests.cmd0 .namespaces = true ∧
    (Table.find 9 s.map.ns).isSome ∧ Table.find 8 s.map.ns = none ∧ (s.sliceOf Tests.cmd0).mayName 1 = true ∧
    (have p : NsParams := { nsid := 9, newSize := some (2 ^ 40), newPool := some 63 }; p.reservedZero = true ∧ p.newSize = some (2 ^ 40) ∧ p.newPool = some 63)) := by decide
theorem witness_Namespaces_nsDelete : (have s : State := { Tests.host with map.ns := [(9, { tenant := 1, pool := 0, size := 1, root := 1, group := 0 }), (10, { tenant := 1, pool := 0, size := 1, root := 1, group := 0 })], map.snaps := [(snapKey 10 3, { root := 1, time := 0, clones := 1 })] }; s.accepts Tests.cmd0 .namespaces = true ∧
    (Table.find 9 s.map.ns).isSome ∧ (Table.find 10 s.map.ns).isSome ∧ (s.sliceOf Tests.cmd0).mayName 1 = true ∧
    (s.snapIds 10).any (s.snapUsed 10) = true ∧ (s.snapIds 9).any (s.snapUsed 9) = false) := by decide
theorem witness_Namespaces_mapImport : (have s : State := { Tests.host with map.ns := [(9, { tenant := 1, pool := 0, size := 1, root := 1, group := 0 })] }; s.accepts Tests.cmd0 .namespaces = true ∧
    (Table.find 9 s.map.ns).isSome ∧ (s.sliceOf Tests.cmd0).mayName 1 = true ∧ headerGood [] 1 0 = false ∧
    headerGood Tests.container 1 Tests.container.length = true ∧ 0 + (Header.parse Tests.container).orig ≤ 1 * 4096 ∧
    s.numbersLeft (s.nsOwner 9) ≠ 0 ∧ ({ s with map.nextA := 2 ^ 40, map.nextB := 2 ^ 40 } : State).numbersLeft (s.nsOwner 9) = 0) := by decide
theorem witness_Namespaces_poolMoveCopy : (have l : Loc := .flash 1 4 0 0 0 64; have s : State := { Tests.sewing with map.ns := [(9, { tenant := 1, pool := 1, size := 1, root := 0, group := 0, moving := some 2 })], map.pages := [(0, { hi := 2 ^ 40, exts := [{ addr := 0, len := 4096, loc := l }] })] }; (Table.find 9 s.map.ns).any (fun x => x.moving == some 2) = true ∧
    ((s.toMove 9 2).find? fun l => !(s.sewing l || (s.fetching fun f y => y == l && f == .collect 2) || (Table.get 2 [] s.sig.staged).any fun y => y.1 == l)) = some l) := by decide
theorem witness_Namespaces_poolMoveComplete : (have s : State := { Tests.host with map.ns := [(9, { tenant := 1, pool := 0, size := 1, root := 1, group := 0, moving := some 2 })] }; (Table.find 9 s.map.ns).any (fun x => x.moving == some 2) = true ∧
    s.toMove 9 2 = [] ∧ (s.cmd.internal.any fun w => w.made.any fun c => c.job == some (.change (.nsChange 9 none none (some none)))) = false ∧
    (match exec (.poolMoveComplete 9) s with | .next t => t.cmd.internal.any fun w => w.made.any fun c => c.job == some (.change (.nsChange 9 none none (some none))) | _ => false) = true) := by decide
theorem witness_PagesAndMapCache_pageInComplete : (have s : State := ({ State.reset with map.pages := [(3, { hi := 4096 })] } : State).wr Reg.MAP_POOL_SLOTS.SLOTS 1; Table.has 3 s.map.pages = true ∧
    (s.page 3).slot = none ∧ s.map.faults = [] ∧ (s.takeSlot ((s.map.pages.filter fun e => e.2.kids.any fun k => k.2 == 3).map Prod.fst)).1 = some 0) := by decide
theorem witness_PagesAndMapCache_reclaimPage : (have s : State := ({ State.reset with map.zero := [3], map.pages := [(3, { hi := 4096, refs := 0 })] } : State).wr Reg.MAP_CTRL.RECLAIM_EN 1; s.map.zero = [3] ∧
    s.on Reg.MAP_CTRL.RECLAIM_EN = true ∧ (s.page 3).kids = [] ∧ s.map.waiting = [] ∧ s.map.deltas = []) := by decide
theorem witness_PagesAndMapCache_mapCacheFill : (have s : State := ({ State.reset with map.fills := [{ line := 7, poisoned := true }, { line := 8 }] } : State).wr Reg.MAP_CACHE_CTRL.EN 1; (s.map.fills.find? fun f => f.line == 7).any (fun f => f.poisoned && decide (0 < f.waiters)) = true ∧
    (s.map.fills.find? fun f => f.line == 8).any (fun f => !f.poisoned) = true ∧ s.on Reg.MAP_CACHE_CTRL.EN = true ∧ s.map.stalled = []) ∧
    (have c : CacheSet := { ways := [some (lineTag 7, false)] }; have s : State := { State.reset.wr Reg.MAP_CACHE_CTRL.EN 1 with map.sets := [(lineSet 7, c)] }; s.linePresent 7 = true ∧ s.filling 7 = false ∧ s.fillRoom 7 = true) := by decide
theorem witness_PagesAndMapCache_mapCacheEnable : (State.reset.wr Reg.BOOT_STATUS.STAGE 3).writable 13 = true := by decide
theorem witness_PagesAndMapCache_invalidateAll : (State.reset.wr Reg.BOOT_STATUS.STAGE 3).writable 13 = true ∧
    State.reset.map.maint = none := by decide
theorem witness_PagesAndMapCache_invalidateRange : (State.reset.wr Reg.BOOT_STATUS.STAGE 3).writable 13 = true ∧
    State.reset.map.maint = none := by decide
theorem witness_PagesAndMapCache_invalidateDone : ({ State.reset with map.maint := some .all } : State).map.maint = some .all := by decide
theorem witness_ProgramPackages_prgLoad : (have s := Tests.programs; s.accepts Tests.cmd0 .programs = true ∧ s.programsPlaced = true ∧
    (s.sliceOf Tests.cmd0).mayName 4095 = true ∧ packageFault Tests.package = none ∧ packageFault [] ≠ none ∧ s.programAt 4095 255 = none ∧
    (s.programAt 1 3).isSome ∧ s.prg.table.length < 16384) := by decide
theorem witness_ProgramPackages_prgUnload : (have s := Tests.programs; s.accepts Tests.cmd0 .programs = true ∧ s.programsPlaced = true ∧
    (s.sliceOf Tests.cmd0).mayName 1 = true ∧ s.programAt 1 4 = none ∧ (s.programAt 1 3).isSome) := by decide
theorem witness_ProgramPackages_hostRun : (have s := Tests.programs; have p : HostRunParams := { tenant := 1, slot := 3, nsid := 9, lo := 0, hi := 4096, dest := 0, len := 64 }; s.accepts Tests.cmd0 .programs = true ∧
    s.programsPlaced = true ∧ (s.sliceOf Tests.cmd0).mayName 1 = true ∧ s.hostRunFault p false = none ∧
    s.hostRunFault { p with len := 63 } false = some 0x1001) := by decide
theorem witness_ProgramPackages_indexBuild : (have s := Tests.programs; have p : HostRunParams := { tenant := 1, slot := 3, nsid := 9, lo := 0, hi := 4096, dest := 0, len := 64 }; s.accepts Tests.cmd0 .programs = true ∧
    s.programsPlaced = true ∧ (s.sliceOf Tests.cmd0).mayName 1 = true ∧ s.hostRunFault p true = none ∧
    s.hostRunFault { p with hi := 0 } true = some 0x1001) := by decide
theorem witness_ProgramPackages_tapAttach : (have s := Tests.programs; s.accepts Tests.cmd0 .programs = true ∧ s.programsPlaced = true ∧
    s.tenantOf 9 = 1 ∧ (s.sliceOf Tests.cmd0).mayName 1 = true ∧ (Table.find 9 s.map.ns).any (fun x => x.programs) = true ∧
    (s.programAt 1 3).any (fun p => !(pkgFlag p.bytes 4)) = true ∧ s.on Reg.PRG_CTRL.TAP_EN = true ∧ 8 ≤ s.rd Reg.PRG_TENANT_CFG.MAX_TILES 1 ∧
    s.freeRunSlot = some 0 ∧ 8 ≤ s.freeTiles.length) := by decide
theorem witness_ProgramPackages_tapDetach : (have s : State := { Tests.programs with prg.runs := [(0, { kind := .tap Tests.cmd0 0 64, tenant := 1, slot := 3, nsid := 9, lo := 0, hi := 0 })] }; s.accepts Tests.cmd0 .programs = true ∧
    s.programsPlaced = true ∧ s.tenantOf 9 = 1 ∧ (s.sliceOf Tests.cmd0).mayName 1 = true ∧
    (s.prg.runs.find? fun e => e.2.nsid == 9 && e.2.slot == 3 && e.2.kind.isTap).isSome ∧
    (s.prg.runs.find? fun e => e.2.nsid == 9 && e.2.slot == 4 && e.2.kind.isTap) = none) := by decide
theorem witness_RunsAndTiles_programRun : (have s : State := { Tests.nvme { qpn := 4, cid := 1, op := .programRun, nsid := 9, cdw10 := 3 } with prg.table := [{ tenant := 0, slot := 3, bytes := Tests.package }] }; (s.ready 5 .programRun).any (fun c => (s.programAt c.tenant c.cap.cdw10).isSome) = true) := by decide
theorem witness_RunsAndTiles_tileGrant : (have s : State := { Tests.programs with prg.runs := [(4096, { kind := .host Tests.cmd0 0 64, tenant := 1, slot := 3, nsid := 9, lo := 0, hi := 4096 })] }; (s.prg.runs.find? fun e => decide (e.1 < 4096) && e.2.startedAt.isSome && e.2.doneAt.isNone && e.2.tiles.isEmpty) = none ∧
    s.on Reg.CMD_HOLD.ACTIVATION = false ∧ s.freeTiles ≠ [] ∧
    (s.prg.runs.find? fun e => decide (4096 ≤ e.1) && s.runReady e.2).any (fun e => (s.programAt e.2.tenant e.2.slot).isSome) = true ∧
    s.freeRunSlot = some 0) := by decide
theorem witness_RunsAndTiles_pieceDeliver : (have p : Span := { tile := 31, lo := 0, hi := 4096, pos := 0 }; have s := Tests.scanning p []; (Table.find 0 s.prg.runs).any (fun r => r.kind == .scan 5 && r.startedAt.isSome && r.doneAt.isNone && Table.has 31 r.tiles && (r.spans.findIdx? fun p => p.tile == 31 && !p.ended) == some 0 && r.spans[0]? == some p && (s.nextExtent r p).any (fun e => e.loc.reads0) && framing r.image == 0) = true ∧
    s.prg.frozenAt = none) := by decide
theorem witness_RunsAndTiles_pieceDeliver2 : (have p : Span := { tile := 31, lo := 0, hi := 4096, pos := 0, lost := true }; have s := Tests.scanning p [{ addr := 0, len := 48, loc := .cache false 0 1 64 80 }]; (Table.find 0 s.prg.runs).any (fun r => (r.spans.findIdx? fun p => p.tile == 31 && !p.ended) == some 0 && r.spans[0]? == some p && (s.nextExtent r p).any (fun e => !e.loc.reads0)) = true ∧
    p.lost = true) := by decide
theorem witness_RunsAndTiles_pieceDeliver3 : (have p : Span := { tile := 31, lo := 0, hi := 4096, pos := 0, copy := some (some (zeros 80)) }; have s := Tests.scanning p [{ addr := 0, len := 48, loc := .cache false 0 1 64 80 }]; (Table.find 0 s.prg.runs).any (fun r => (r.spans.findIdx? fun p => p.tile == 31 && !p.ended) == some 0 && r.spans[0]? == some p && (s.nextExtent r p).any (fun e => !e.loc.reads0 && !(s.cacheLost (p.loc.getD e.loc)))) = true ∧
    p.lost = false ∧ p.copy = some (some (zeros 80))) := by decide
theorem witness_RunsAndTiles_budgetExceeded : (have s : State := { State.reset with prg.runs := [(0, { kind := .scan 5, tenant := 1, slot := 3, nsid := 9, lo := 0, hi := 0, startedAt := some 0 }), (1, { kind := .tap Tests.cmd0 0 64, tenant := 1, slot := 3, nsid := 9, lo := 0, hi := 0, startedAt := some 0 })] }; (Table.find 0 s.prg.runs).any (fun r => r.kind == .scan 5 && r.startedAt.isSome && r.doneAt.isNone) = true ∧
    (Table.find 1 s.prg.runs).any (fun r => r.kind.isTap && r.startedAt.isSome && r.doneAt.isNone) = true) := by decide
theorem witness_RunsAndTiles_runComplete : (have s : State := { State.reset with prg.runs := [(0, { kind := .scan 5, tenant := 1, slot := 3, nsid := 9, lo := 0, hi := 0, startedAt := some 0 })] }; (Table.find 0 s.prg.runs).any (fun r => r.kind == .scan 5 && r.startedAt.isSome && r.doneAt.isNone && (r.spans.all Span.ended) && !(pkgFlag r.image 3)) = true) := by decide
theorem witness_RunsAndTiles_programResults : (have s : State := { Tests.nvme { qpn := 4, cid := 1, op := .programResults, nsid := 9, cdw10 := 0x1001, cdw11 := 1023 } with prg.runs := [(1, { kind := .scan 5, gen := 1, tenant := 0, slot := 3, nsid := 9, lo := 0, hi := 0, doneAt := some 0 })] }; (s.ready 5 .programResults).any (fun c => (Table.find 1 s.prg.runs).any fun r => r.kind == .scan 5 && r.doneAt.isSome && s.handle 1 r.gen == c.cap.cdw10 && r.tenant == c.tenant) = true ∧
    Table.find 2 s.prg.runs = none) := by decide
theorem witness_RunsAndTiles_resultKeepExpiry : (Table.find 1 ({ State.reset with prg.runs := [(1, { kind := .scan 5, tenant := 0, slot := 3, nsid := 9, lo := 0, hi := 0, doneAt := some 0 })] } : State).prg.runs).any (fun r => r.doneAt.isSome) = true := by decide
theorem witness_RunsAndTiles_acctClear : (State.reset.wr Reg.BOOT_STATUS.STAGE 3).writable 19 = true ∧ (0x1FFF).testBit 12 = true ∧
    (0x3000).testBit 13 = true := by decide
theorem witness_ReplicationReceive_streamBatch : (Tests.replica true { state := .target, recv := [(1, { session := 4 })] }).inSession { kind := 1, head := true, set := 255, session := 4, seq := 1 } = true := by decide
theorem witness_ReplicationReceive_envelopeRelease : (have e : Envelope := { kind := 1, set := 255, session := 4, seq := 1 }; have s := Tests.replica true { state := .target, recv := [(0, { session := 4, held := [e] })] }; s.repRuns 255 true = true ∧
    (s.stream 255 0).held = [e] ∧ s.mayRelease 255 0 e = true ∧ s.wantsOf 255 0 e = [] ∧
    (e.units.any fun u => (s.serveUnit 255 0 (s.targetOf 255 u.member).2 u).1 == .noKey) = false) := by decide
theorem witness_ReplicationReceive_difference : (have e : Envelope := { kind := 2, set := 255, session := 4, seq := 1, last := true, time := 77 }; have s := Tests.replica true { state := .target, recv := [(0, { session := 4 })], working := [(0, 1)] }; s.inSession e = true ∧
    (s.repSet 255).working ≠ [] ∧ (s.stream 255 0).held = [] ∧ (s.stream 255 0).applying = []) := by decide
theorem witness_ReplicationReceive_wantReply : (have s := Tests.replica true { state := .target, recv := [(0, { session := 4 })] }; s.inSession { kind := 3, set := 255, session := 4, seq := 1 } = true ∧
    (s.stream 255 0).held = []) := by decide
theorem witness_ReplicationReceive_anchorMark : (have s := Tests.replica true { state := .target, recv := [(0, { session := 4 })] }; s.inSession { kind := 4, set := 255, session := 4, seq := 1, time := 77 } = true ∧
    (s.stream 255 0).held = [] ∧ (s.stream 255 0).applying = []) := by decide
theorem witness_ReplicationReceive_replicationAck : (have s := Tests.replica false { state := .synchronous, stream := { session := 4, unacked := [{ kind := 1, set := 255, session := 4, seq := 1 }] }, waiting := [(5, 1)] }; s.repRuns 255 false = true ∧
    (s.repSet 255).stream.session = 4 ∧ (s.repSet 255).shipping = none ∧ (s.repSet 255).stream.room = []) ∧
    (Table.find 3 ({ State.reset with rep.links := [(3, { qpn := 2, key := 0, ring := 0, ringSize := 4096, array := 1, probe := some 0 })] } : State).rep.links).any (fun k => k.probe == some 0) = true := by decide
theorem witness_ReplicationReceive_probe : (have s := Tests.linked; (Table.find 3 s.rep.links).any (fun k => k.queue == [] && (k.place 192).isSome) = true ∧
    s.rd Reg.REP_LINK_CTRL.STATE 3 = 2 ∧ s.on Reg.REP_CTRL.EN = true ∧ s.repRuns 7 true = false ∧ s.repRuns 7 false = false ∧
    (have e : Envelope := { kind := 6, set := 7, session := 0, seq := 1 }; e.crcOk = true ∧ e.tagOk = true)) := by decide
theorem witness_ReplicationReceive_probe2 : (have s := Tests.joined true { state := .target }; s.repRuns 255 true = true ∧ s.repRuns 255 false = false ∧ s.linkOf 255 = 3 ∧
    (Table.find 3 s.rep.links).any (fun k => k.queue == [] && (k.place 192).isSome) = true ∧ s.rd Reg.REP_LINK_CTRL.STATE 3 = 2) ∧
    (have s := Tests.joined false { state := .synchronous }; s.repRuns 255 false = true ∧ s.linkOf 255 = 3 ∧ (s.repSet 255).stream.room = [] ∧
    (s.nextEnvelope 255).sendRoom 144 = true) := by decide
theorem witness_ReplicationReceive_probeTimer : (have s := Tests.linked; (Table.find 3 s.rep.links).any (fun k => k.queue == [] && (k.place 128).isSome && decide (k.missed < 9 ∧
    k.slow < 10)) = true ∧ s.rd Reg.REP_LINK_CTRL.STATE 3 = 2 ∧ (s.setsOn 3).head? = none ∧
    (s.wr Reg.REP_LINK_CTRL.STATE 1 3).rd Reg.REP_LINK_CTRL.STATE 3 = 1 ∧ s.qpReady 2 = true) ∧
    (have s := Tests.joined false { state := .synchronous }; (s.setsOn 3).head? = some 255 ∧ (s.repSet 255).stream.room = [] ∧
    (s.nextEnvelope 255).sendRoom 80 = true) := by decide
theorem witness_ReplicationSource_batchClose : (have s := Tests.replica false { state := .synchronous, stream := { batch := [Tests.unit] } }; s.repRuns 255 false = true ∧
    (s.repSet 255).stream.batch ≠ []) := by decide
theorem witness_ReplicationSource_idleWatermark : (have s := Tests.replica false { state := .synchronous }; s.repRuns 255 false = true ∧
    (s.repSet 255).stream.batch = [] ∧ (s.repSet 255).state = .synchronous) := by decide
theorem witness_ReplicationSource_anchorPeriod : (have s := Tests.replica false { state := .cycling }; s.repRuns 255 false = true ∧
    (s.repSet 255).shipping = none ∧ (s.repSet 255).state = .cycling) := by decide
theorem witness_ReplicationSource_replicationLinkDown : (have s := Tests.linked; Table.has 3 s.rep.links = true ∧
    s.rd Reg.REP_LINK_CTRL.STATE 3 ≠ 3) := by decide
theorem witness_ReplicationSource_replicationLinkEnable : (have s := State.reset.wr Reg.BOOT_STATUS.STAGE 3; have u : State := { s with mem := [(4032, 2), (4058, 16), (4066, 32), (4072, 1), (4092, 40), (4093, 107), (4094, 127), (4095, 215)], trn.regions := [(7, { base := 0x100000, length := 0x200000, variant := 0, read := true, write := true })] }; have b := (List.range 64).map fun k => Memory.read u.mem (u.rd Reg.REP_LINK_BASE.BASE + 64 * 63 + k); u.writable 18 = true ∧
    u.on Reg.REP_LINK_CTRL.EN 63 = false ∧ crc32c (b.take 60) = num (slice b 60 4) ∧ crc32c (zeros 60) ≠ num (zeros 4) ∧
    u.linkValid { qpn := num (slice b 0 4) % 2 ^ 24, key := num (slice b 4 4), ring := num (slice b 8 8), ringSize := num (slice b 16 8), array := num (slice b 40 2), own := num (slice b 24 8), ownSize := num (slice b 32 8) } = true ∧
    s.linkValid { qpn := 2, key := 0, ring := 0, ringSize := 0, array := 1 } = false) := by decide
theorem witness_ReplicationSource_suspendExpiry : (have s := (Tests.replica false { state := .stalled }).wr Reg.REP_SET_CFG.ON_BREAK 1 255; (s.repSet 255).state = .stalled ∧
    s.on Reg.REP_SET_CFG.ON_BREAK 255 = true) := by decide
theorem witness_ReplicationSource_setEnable : (have s : State := { State.reset.wr Reg.BOOT_STATUS.STAGE 3 with mem := [(2088960, 9), (2088964, 9)], map.ns := [(9, { tenant := 1, pool := 0, size := 1, root := 1, group := 0 })], keys.cipher := [(5, { tenant := 1, cur := some { gen := 0, type := .aes256, key := zeros 32 } })] }; have v := 1 + 2 + 8 + 5 * 2048; s.writable 18 = true ∧
    s.on Reg.REP_SET_CFG.EN 255 = false ∧ (s.writeSetCfg 255 v).setValid 255 ((s.writeSetCfg 255 v).readMembers 255) { ns := [{ nsid := 9, size := 1 }] } = true ∧
    (s.writeSetCfg 254 v).setValid 254 ((s.writeSetCfg 254 v).readMembers 254) {} = false ∧
    (Tests.replica false {}).on Reg.REP_SET_CFG.EN 255 = true ∧
    (Tests.replica false {}).writable 18 = true ∧ (s.repSet 255).stream.counter < 2 ^ 30 - 1) := by decide
theorem witness_ReplicationSource_resynchronise : (have s := Tests.replica false { state := .tracking }; s.writable 18 = true ∧
    s.repRuns 255 false = true) := by decide
theorem witness_ReplicationSource_reverse : (have s := Tests.replica false { state := .synchronous }; s.writable 18 = true ∧
    s.repRuns 255 false = true ∧ (s.repSet 255).state = .synchronous ∧ (s.repSet 255).shipping = none) := by decide
theorem witness_ReplicationSource_promote : (have s := Tests.replica true { state := .target }; s.writable 18 = true ∧
    s.repRuns 255 true = true) := by decide
theorem witness_RingLinks_ringLinkDetect : (have s := State.reset.wr Reg.XRN_CTRL.EN 1; s.on Reg.XRN_CTRL.EN = true ∧ s.linkExists 2 = true ∧
    (s.link 2).state = .down) := by decide
theorem witness_RingLinks_ringLinkTrained : (have s : State := { State.reset.wr Reg.XRN_CTRL.EN 1 with xrn.links := [(0, { state := .lock }), (2, { state := .retrain })] }; s.on Reg.XRN_CTRL.EN = true ∧
    s.linkExists 0 = true ∧ s.linkExists 2 = true ∧ (s.link 0).state = .lock ∧ (s.link 2).state = .retrain) := by decide
theorem witness_RingLinks_ringHello : (have s : State := { State.reset with xrn.links := [(0, { state := .hello })] }; (s.link 0).state = .hello ∧
    wiringGood s.headB 0 { device := 7, head := !s.headB } = true ∧ wiringGood s.headB 0 { device := 7, head := s.headB } = false) := by decide
theorem witness_RingLinks_ringLinkDown : (have s : State := { State.reset with xrn.links := [(2, { state := .active })] }; s.linkExists 2 = true ∧
    (s.link 2).state ≠ .down) := by decide
theorem witness_RingLinks_ringTrainingTimeout : (have s : State := { State.reset with xrn.links := [(0, { state := .hello }), (1, { state := .retrain, failed := 2 }), (2, { state := .retrain, failed := 1 })] }; (s.link 0).state = .hello ∧
    (s.link 1).state = .retrain ∧ 2 ≤ (s.link 1).failed ∧ (s.link 2).state = .retrain ∧ (s.link 2).failed < 2) := by decide
theorem witness_RingLinks_ringReplayRequest : (have s : State := { State.reset with xrn.links := [(0, { state := .active, seq := 1023, replays := 4 })] }; (s.link 0).state = .active ∧
    (s.link 0).seq = 1023 % 1024 ∧ 4 ≤ (s.link 0).replays ∧ (s.link 0).seq ≠ 1024 % 1024) := by decide
theorem witness_RingLinks_partialMessageTimeout : (({ State.reset with xrn.links := [(0, { state := .active })] } : State).link 0).state = .active := by decide
theorem witness_RingLinks_enumerationFlit : (have s : State := { State.reset with xrn.links := [(2, { state := .active })], xrn.gathering := false, xrn.enumSeen := some (4, 1, 0) }; (s.link 2).state = .active ∧
    s.xrn.gathering = false ∧ s.xrn.enumSeen = some (4, 1, 0)) := by decide
theorem witness_RingLinks_enumerationJoin : (have s : State := { State.reset.wr Reg.XRN_ROLE.IS_KEEPER 1 with xrn.gathering := false }; have j : Join := { hello := { device := 7, head := false }, request := 2 }; s.isKeeper = true ∧
    s.limitsGood j = true ∧ grantAddress s.xrn.dir j = some 2) := by decide
theorem witness_RingLinks_enumerationDirectory : (have s : State := { State.reset with fuses.deviceId := 7 }; s.isKeeper = false ∧
    addressOf [] 7 = none ∧ addressOf [(3, { device := 7 })] 7 = some 3 ∧ s.xrn.state = .isolated) := by decide
theorem witness_RingLinks_keeperGatherExpiry : (have s : State := { State.reset.wr Reg.XRN_ROLE.IS_KEEPER 1 with xrn.gathering := true }; s.isKeeper = true ∧
    s.xrn.gathering = true) := by decide
theorem witness_RingLinks_addressReserveExpiry : (have s : State := { State.reset.wr Reg.XRN_ROLE.IS_KEEPER 1 with xrn.dir := [(3, { device := 7, state := .gone })] }; (Table.find 3 s.xrn.dir).any (fun e => e.state == .gone) = true ∧
    s.isKeeper = true) := by decide
theorem witness_RingTime_leave : (have s : State := { State.reset.wr Reg.BOOT_STATUS.STAGE 3 with xrn.links := [(2, { state := .active })] }; s.writable 16 = true ∧
    s.xrn.state ≠ .gone ∧ 2 ∈ s.activeLinks) := by decide
theorem witness_RingTime_leaveNotice : addressOf ({ State.reset with xrn.dir := [(3, { device := 7 })] } : State).xrn.dir 7 = some 3 := by decide
theorem witness_RingTime_deviceIsolatedTimeout : (have s : State := { State.reset.wr Reg.XRN_ROLE.IS_KEEPER 1 with xrn.dir := [(3, { device := 7 })] }; s.isKeeper = true ∧
    7 ≠ s.fuses.deviceId ∧ addressOf s.xrn.dir 7 = some 3 ∧ (s.xrn.dir.any fun e => e.2.device == 7 && e.2.state != .gone) = true) ∧
    (State.reset.isKeeper = false ∧ ∀ l, l < 4 → (State.reset.link l).state = .down) := by decide
theorem witness_RingTime_timeFlitSend : (({ State.reset with xrn.links := [(0, { state := .active })] } : State).link 0).state = .active := by decide
theorem witness_RingTime_timeFlit : (have s : State := { State.reset with xrn.links := [(0, { state := .active }), (2, { state := .active })], xrn.parent := some 2 }; (s.link 0).state = .active ∧
    (s.link 2).state = .active ∧ s.xrn.parent ≠ some 0 ∧ s.isKeeper = false) := by decide
theorem witness_RingTime_parentTimeLost : (have s : State := { State.reset with xrn.parent := some 2, xrn.depth := 3, xrn.links := [(0, { state := .active, timeValid := true, depth := 1 })] }; s.isKeeper = false ∧
    s.xrn.parent.isSome ∧
    (s.activeLinks.find? fun l => some l != s.xrn.parent && (s.link l).timeValid && (s.link l).term == s.rd Reg.XRN_TERM.TERM && decide ((s.link l).depth < s.xrn.depth)) = some 0) := by decide
theorem witness_RingTime_holdoverExpiry : ({ State.reset with xrn.holdover := true, xrn.state := .attached } : State).xrn.holdover = true := by decide
theorem witness_RingTime_keeperLost : (have s : State := { State.reset.wr Reg.XRN_ROLE.DEPUTY_EN 1 with xrn.state := .attached }; s.on Reg.XRN_ROLE.DEPUTY_EN = true ∧
    s.isKeeper = false ∧ s.xrn.state = .attached) := by decide
theorem witness_RingTime_floorPassed : (have s : State := { State.reset with xrn.state := .joining }; s.xrn.state = .joining ∧
    s.xrn.floor ≤ s.ringTime) := by decide
theorem witness_RingTime_timeCeilingRewrite : State.reset.bootRecord.ceiling ≤ State.reset.ringTime + 2 ^ 35 := by decide
theorem witness_ResetAndBoot_vinGood : ({ State.reset with power.vinGood := false } : State).power.vinGood = false := by decide
theorem witness_ResetAndBoot_vinCollapse : ({ State.reset with power.converterOn := true } : State).power.converterOn = true := by decide
theorem witness_ResetAndBoot_vinOvervoltage : ({ State.reset with power.converterOn := true } : State).power.converterOn = true := by decide
theorem witness_ResetAndBoot_resetBallAssert : ({ State.reset with power.vinGood := false } : State).power.vinGood = false ∧
    (have s : State := { State.reset with power.vinGood := true }; s.power.vinGood = true ∧ s.warned = false) ∧ Tests.warned.power.vinGood = true ∧
    Tests.warned.warned = true ∧ Tests.warned.on Reg.DDR_PF_STATUS.SEALED = false := by decide
theorem witness_ResetAndBoot_partSelfReset : (have s : State := { State.reset.wr Reg.DDR_PF_STATUS.SEALED 1 with power.vinGood := true }; s.power.vinGood = true ∧
    s.on Reg.DDR_PF_STATUS.SEALED = true) := by decide
theorem witness_ResetAndBoot_strapSample : (have s : State := { State.reset with power.converterOn := true }; s.boot.sampled = false ∧
    s.power.converterOn = true ∧ s.pins.testen = false) ∧ ({ State.reset with pins.testen := true } : State).pins.testen = true := by decide
theorem witness_ResetAndBoot_bootImageLoaded : ({ State.reset with boot.loading := true } : State).boot.loading = true := by decide
theorem witness_ResetAndBoot_firmwareStart : (have s := State.reset.wr Reg.BOOT_STATUS.STAGE 3; s.running = true ∧
    s.test.trained = false) := by decide
theorem witness_ResetAndBoot_recoveryGo : (State.reset.wr Reg.BOOT_STATUS.STAGE 4).rd Reg.BOOT_STATUS.STAGE = 4 := by decide
theorem witness_ResetAndBoot_recoveryRequest : (have s := (State.reset.wr Reg.BOOT_STATUS.STAGE 3).wr Reg.BOOT_CFG.SERVE_EN 1; s.running = true ∧
    s.on Reg.BOOT_CFG.SERVE_EN = true) := by decide
theorem witness_ResetAndBoot_recoveryImage : ({ State.reset with boot.recovering := true } : State).boot.recovering = true := by decide
theorem witness_FirmwareUpdate_firmwareImageDownload : ((Tests.nvme { qpn := 2, cid := 1, op := .firmwareDownload, cdw10 := 1023, cdw11 := 1024 }).ready 5 .firmwareDownload).isSome := by decide
theorem witness_FirmwareUpdate_firmwareCommit : (have s := (Tests.nvme { qpn := 2, cid := 1, op := .firmwareCommit, cdw10 := 26 }).wr Reg.BOOT_STATUS.STAGE 3; (s.ready 5 .firmwareCommit).isSome ∧
    s.runSlot = false ∧ s.bootReady = true ∧ 26 % 8 = 2 ∧ 26 / 8 % 8 = 3) ∧
    ((Tests.nvme { qpn := 2, cid := 1, op := .firmwareCommit, cdw10 := 10 }).ready 5 .firmwareCommit).isSome := by decide
theorem witness_FirmwareUpdate_verify : (State.reset.wr Reg.BOOT_STATUS.STAGE 3).bootReady = true := by decide
theorem witness_FirmwareUpdate_bootWrite : (State.reset.wr Reg.BOOT_STATUS.STAGE 3).bootReady = true := by decide
theorem witness_FirmwareUpdate_bootWriteComplete : ({ State.reset with boot.op := some .write } : State).boot.op = some .write := by decide
theorem witness_FirmwareUpdate_activate : (State.reset.wr Reg.BOOT_STATUS.STAGE 3).bootReady = true := by decide
theorem witness_FirmwareUpdate_activationPauseEnd : ({ State.reset with boot.pause := true } : State).boot.pause = true := by decide
theorem witness_FirmwareUpdate_confirm : (have s := State.reset.wr Reg.BOOT_STATUS.STAGE 3; s.bootReady = true ∧ s.onTrial = false ∧
    (s.wr Reg.BOOT_STATUS.TRIAL 1).bootReady = true ∧ (s.wr Reg.BOOT_STATUS.TRIAL 1).onTrial = true) := by decide
theorem witness_FirmwareUpdate_revert : (have s := (State.reset.wr Reg.BOOT_STATUS.STAGE 3).wr Reg.BOOT_STATUS.TRIAL 1; s.bootReady = true ∧
    s.onTrial = true) := by decide
theorem witness_FirmwareUpdate_confirmWindowExpiry : (have s : State := { State.reset.wr Reg.BOOT_STATUS.TRIAL 1 with boot.trialLeft := some 0 }; s.onTrial = true ∧
    s.boot.pause = false ∧ s.boot.trialLeft = some 0 ∧ 0 ≤ s.clock) := by decide
theorem witness_FirmwareUpdate_firmwareWatchdogExpiry : (State.reset.wr Reg.BOOT_STATUS.STAGE 3).running = true := by decide
theorem witness_FirmwareUpdate_revoke : (State.reset.wr Reg.BOOT_STATUS.STAGE 3).bootReady = true := by decide
theorem witness_SelfTests_testQuarter : (have s := (Tests.running.setQuarter 41 { state := .fenced }).setQuarter 6 { state := .active, role := .active }; s.testReady = true ∧
    (s.quarter 41).state = .fenced ∧ quarterKind 41 ≠ .qd) ∧ (have q := Tests.rotatingQuarter; 1 ≤ q ∧ q ≤ 41 ∧
    (Tests.rotating.quarter q).state = .active ∧ (Tests.rotating.quarter q).role = .active ∧
    (Tests.rotating.standbyOf (quarterKind q)).isSome) := by decide
theorem witness_SelfTests_testUnit : (have s := (Tests.running.setQuarter 19 { state := .active }).setQuarter 39 { state := .active }; s.testReady = true ∧
    quarterKind 19 = .qm ∧ (s.quarter 19).state = .active ∧ (s.quarter 19).badBanks.contains (s.quarter 19).spare = false ∧
    quarterKind 39 = .qx ∧ (s.quarter 39).state = .active ∧ (s.prg.runs.any fun e => Table.has (8 * (39 - 36) + 7) e.2.tiles) = false) := by decide
theorem witness_SelfTests_calibrateChannel : (have s : State := { Tests.running with test.channels := [(15, .inService)] }; s.testReady = true ∧
    s.ddrChannel 15 = .inService ∧ s.ddrChannel 14 ≠ .inService) := by decide
theorem witness_SelfTests_testStandby : Tests.running.testReady = true := by decide
theorem witness_SelfTests_testComplete : (have s : State := { Tests.running.setQuarter 41 { state := .active } with test.job := some (.direct 41) }; s.test.job = some (.direct 41) ∧
    (s.quarter 41).state = .active) ∧
    (have s : State := { Tests.running.setQuarter 8 { state := .active, role := .underTest } with test.job := some (.rotation 8 9) }; (s.quarter 8).role = .underTest ∧
    (s.quarter 8).state = .active) := by decide
theorem witness_SelfTests_rotationTimer : (have s := Tests.rotating; s.testReady = true ∧ s.test.job = none ∧ s.rd Reg.TST_CFG.ROTATE_DAYS ≠ 0 ∧
    s.warned = false ∧ s.on Reg.CMD_HOLD.ACTIVATION = false ∧ s.rd Reg.CMD_PS_CFG.EFFECTIVE ≠ 3 ∧
    ((s.standbyOf .qc).bind (QuarterKind.after .qc)).any (fun a => (s.quarter a).state == .active && (s.quarter a).role == .active) = true) := by decide
theorem witness_SelfTests_standbyTestTimer : (have s := Tests.rotating; s.testReady = true ∧ s.test.job = none ∧ s.warned = false ∧
    (s.standbyOf .qc).isSome) := by decide
theorem witness_SelfTests_ddrCalibration : (have s : State := { Tests.running with test.channels := [(14, .inService), (15, .inService)], test.calFails := [(15, 1)] }; s.ddrChannel 14 = .inService ∧
    s.ddrChannel 15 = .inService ∧ Table.has 15 s.test.calFails = true ∧ Table.has 14 s.test.calFails = false) := by decide
theorem witness_SelfTests_ddrChannelLost : ({ Tests.running with test.channels := [(14, .lost), (15, .inService)] } : State).ddrChannel 15 = .inService := by decide
theorem witness_EventsAndRegisters_eventPageWrite : (have s : State := { State.reset with evt.buffer := [{ code := 1, trunc := false, cycles := 0, seconds := 0, ringTime := none, detail := [] }], evt.since := some 0, clock := ticksPerSecond }; s.pageDue = true ∧
    s.evt.clearing = none ∧ pageTake s.evt.buffer 0 ≠ []) := by decide
theorem witness_EventsAndRegisters_clearGo : (have s : State := { State.reset with evt.nonce := some (7, 0) }; s.evt.clearing = none ∧
    s.clearAllowed = true) ∧ State.reset.clearAllowed = false := by decide
theorem witness_EventsAndRegisters_clearComplete : ({ State.reset with evt.clearing := some 7 } : State).evt.clearing = some 7 := by decide
theorem witness_EventsAndRegisters_histSwap : Tests.running.running = true := by decide
theorem witness_EventsAndRegisters_badSizeAccess : goodSize 4 8 = false ∧ goodSize 2 2 = false := by decide
theorem witness_EventsAndRegisters_rcRead : (have s : State := { Tests.running with power.converterOn := true }; s.power.converterOn = true ∧
    s.writable 13 = true) ∧ goodSize 0xd00130 4 = true ∧ State.reset.writable (0xd00130 / 0x100000) = false := by decide
theorem witness_EventsAndRegisters_registerWrite : (have s : State := { Tests.running with power.converterOn := true }; s.power.converterOn = true ∧
    s.writable 4 = true ∧ s.locked 4 = false ∧ (s.wr Reg.OLD_LOCK_STATUS.LOCKED 8).locked 4 = true ∧ s.writable 15 = true) := by decide
theorem witness_EventsAndRegisters_setupLockWrite : Tests.running.writable 21 = true ∧ Tests.running.locked 21 = false := by decide
theorem witness_IdleStepIsATick_idle : State.reset.pending = [] := by decide
theorem witness_IdleStepIsATick_grant : (have s : State := { State.reset with lfl.ops := [(3, { leaf := 1, for_ := .grant 0 9, cmd := .grant, tag := some 0 })] }; s.pending = [] ∧
    (s.lfl.ops.any fun e => e.2.tag.isSome && !e.2.for_.answered) = true) := by decide
theorem witness_StepKeepsInv_inv : Memory.wf ({ State.reset with mem := [(4096, 7)] } : State).mem := by decide
theorem witness_CommandsStayInTheirParts_footprint_mem : Part.mem ∉ partsOf (.xoffRefresh) ∧ Part.regs ∉ partsOf (.xoffRefresh) ∧
    Part.block 3 ∉ partsOf (.xoffRefresh) := by decide
theorem witness_FusesOneWay_fuses_only : (match exec (.revoke 2) ((State.reset.wr Reg.BOOT_STATUS.STAGE 3)) with | .next t => decide (t.fuses.revoked = 4) | _ => false) = true := by decide
theorem witness_LocksStand_locks : (State.reset.wr Reg.OLD_LOCK_STATUS.LOCKED (2 ^ 20)).locked 21 = true ∧
    resetsDomain 21 (.registerWrite 0 4 0) = false := by decide
theorem witness_ReservedSpace_reserved_read : goodSize 0x03FFFFF8 8 = true ∧ goodSize 0x01600000 4 = true ∧
    State.reset.power.converterOn = true := by decide
theorem witness_UndefinedOffsets_undefined : Reg.fieldsAt 0xFFC = [] ∧ State.reset.power.converterOn = true := by decide
theorem witness_ResetDomains_part_reset : State.reset.power.vinGood = true ∧ State.reset.warned = false := by decide
theorem witness_HalvesOfWideCounters_wide_rc_read : (have s := State.reset.wr Reg.BOOT_STATUS.STAGE 3; s.power.converterOn = true ∧
    s.writable Reg.REP_BYTES_IN.BYTES.block = true ∧ s.writable Reg.DMA_BYTES.BYTES.block = true) := by decide
theorem witness_HalvesOfWideCounters_split : (have s := { State.reset with regs := [(Reg.DMA_BYTES.BYTES.key 0 0, 2 ^ 40)], holding.seen := [(Reg.DMA_BYTES.BYTES.key 0 0, 2 ^ 40)] }; s.seen Reg.DMA_BYTES.BYTES 0 0 = s.rd Reg.DMA_BYTES.BYTES) := by decide
theorem witness_MemoryStores_dma_store : ((Tests.host.channel 2).cur.map DmaXfer.flight) = some [(0, 64)] := by decide
theorem witness_MemoryStores_download_store : ((Tests.nvme { qpn := 2, cid := 1, op := .firmwareDownload, data := zeros 4 }).ready 5 .firmwareDownload).isSome := by decide
theorem witness_MemoryStores_acct_store : (0x1FFF).testBit 13 = false := by decide
theorem witness_ContainerHeaderRoundTrip_header : ({ alg := 3, domain := 4095, slot := 8191, gen := 255, orig := 131071, payload := 131071, cut := 2 ^ 64 - 1, ring := 4095, lane := 63, crc := 2 ^ 32 - 1 } : Header).fits = true := by decide
theorem witness_LocationEncodingIsExact_location : (Loc.flash 63 (2 ^ 24 - 1) 4095 31 4095 131071).fits = true ∧
    (Loc.cache true 65535 65535 (2 ^ 32 - 1) 131071).fits = true ∧ (Loc.remote 4095 63 0 0 0 0 48).fits = true := by decide
end

section
/-!
The whole table of commands: each stays within its footprint, and a step keeps the canonical form, the queue, the clock and the outputs (O38,
O40, O42, O43, O44).
-/
namespace Sys2Proof.Machine
open Sys2Proof

/-- Each command lands within its footprint: the lists of `partsOf` are those of the frame lemmas. -/
theorem exec_footprint (c : Instr) (s : State) : Lands (partsOf c) s (exec c s) := by
  cases c with
  | registerWrite _ _ _ => exact execRegisterWrite_frame _ _ _ s
  | rcRead _ _ => exact execRcRead_frame _ _ s
  | badSizeAccess _ _ _ => exact execBadSizeAccess_frame _ _ _ s
  | setupLockWrite _ _ => exact execSetupLockWrite_frame _ _ s
  | vinGood _ => exact execVinGood_frame _ s
  | vinCollapse _ => exact execVinCollapse_frame _ s
  | vinOvervoltage _ => exact execVinOvervoltage_frame _ s
  | converterPhaseLoss => exact execConverterPhaseLoss_frame s
  | resetBallAssert => exact execResetBallAssert_frame s
  | strapSample _ _ => exact execStrapSample_frame _ _ s
  | bootImageLoaded => exact execBootImageLoaded_frame s
  | firmwareStart _ _ _ _ => exact execFirmwareStart_frame _ _ _ _ s
  | partSelfReset => exact execPartSelfReset_frame s
  | pciePerstAssert => exact execPciePerstAssert_frame s
  | functionReset _ => exact execFunctionReset_frame _ s
  | atsInvalidate _ => exact execAtsInvalidate_frame _ s
  | hostRequestFailed _ => exact execHostRequestFailed_frame _ s
  | frameReceive _ => exact execFrameReceive_frame _ s
  | hostLimitWindow => exact execHostLimitWindow_frame s
  | linkChange _ _ => exact execLinkChange_frame _ _ s
  | pfcReceive _ _ => exact execPfcReceive_frame _ _ s
  | xoffRefresh => exact execXoffRefresh_frame s
  | roceCnp _ => exact execRoceCnp_frame _ s
  | rateIncrease _ => exact execRateIncrease_frame _ s
  | frameTransmit _ => exact execFrameTransmit_frame _ s
  | ptpTxStampRead _ => exact execPtpTxStampRead_frame _ s
  | contextWritebackAck _ => exact execContextWritebackAck_frame _ s
  | contextEligible _ => exact execContextEligible_frame _ s
  | contextFetchDone _ _ _ => exact execContextFetchDone_frame _ _ _ s
  | laybyDrainPacket _ => exact execLaybyDrainPacket_frame _ s
  | roceSend _ => exact execRoceSend_frame _ s
  | roceSendInvalidate _ => exact execRoceSendInvalidate_frame _ s
  | roceRdmaWrite _ => exact execRoceRdmaWrite_frame _ s
  | roceReadRequest _ => exact execRoceReadRequest_frame _ s
  | roceReadResponse _ => exact execRoceReadResponse_frame _ s
  | roceAcknowledge _ => exact execRoceAcknowledge_frame _ s
  | roceAtomic _ => exact execRoceAtomic_frame _ s
  | ackCoalesceTimer _ => exact execAckCoalesceTimer_frame _ s
  | ackTimeout _ => exact execAckTimeout_frame _ s
  | rnrTimer _ => exact execRnrTimer_frame _ s
  | finalFlagProcess _ => exact execFinalFlagProcess_frame _ s
  | invalidationComplete _ => exact execInvalidationComplete_frame _ s
  | trnStateWrite _ => exact execTrnStateWrite_frame _ s
  | capsuleArrive _ => exact execCapsuleArrive_frame _ s
  | tagAssign => exact execTagAssign_frame s
  | completionQueued _ => exact execCompletionQueued_frame _ s
  | tagFree _ => exact execTagFree_frame _ s
  | holdRelease => exact execHoldRelease_frame s
  | getLogPage _ => exact execGetLogPage_frame _ s
  | identify _ => exact execIdentify_frame _ s
  | abort _ => exact execAbort_frame _ s
  | setFeatures _ => exact execSetFeatures_frame _ s
  | getFeatures _ => exact execGetFeatures_frame _ s
  | asynchronousEventRequest _ => exact execAsynchronousEventRequest_frame _ s
  | firmwareImageDownload _ => exact execFirmwareImageDownload_frame _ s
  | firmwareCommit _ => exact execFirmwareCommit_frame _ s
  | keepAlive _ => exact execKeepAlive_frame _ s
  | keepAliveExpiry _ => exact execKeepAliveExpiry_frame _ s
  | fabricsConnect _ => exact execFabricsConnect_frame _ s
  | propertyGet _ => exact execPropertyGet_frame _ s
  | propertySet _ => exact execPropertySet_frame _ s
  | disconnect _ => exact execDisconnect_frame _ s
  | cstsRdyClear _ => exact execCstsRdyClear_frame _ s
  | shutdownComplete _ => exact execShutdownComplete_frame _ s
  | formatNvm _ => exact execFormatNvm_frame _ s
  | flush _ => exact execFlush_frame _ s
  | write _ => exact execWrite_frame _ s
  | read _ => exact execRead_frame _ s
  | compare _ => exact execCompare_frame _ s
  | writeZeroes _ => exact execWriteZeroes_frame _ s
  | datasetManagement _ => exact execDatasetManagement_frame _ s
  | reservationRegister _ => exact execReservationRegister_frame _ s
  | reservationReport _ => exact execReservationReport_frame _ s
  | reservationAcquire _ => exact execReservationAcquire_frame _ s
  | reservationRelease _ => exact execReservationRelease_frame _ s
  | snapshotCreate _ => exact execSnapshotCreate_frame _ s
  | snapshotDelete _ => exact execSnapshotDelete_frame _ s
  | snapshotList _ => exact execSnapshotList_frame _ s
  | cloneCreate _ => exact execCloneCreate_frame _ s
  | programRun _ => exact execProgramRun_frame _ s
  | programResults _ => exact execProgramResults_frame _ s
  | ps3EntryEnd => exact execPs3EntryEnd_frame s
  | ps3ExitEnd => exact execPs3ExitEnd_frame s
  | gearSeedWrite _ => exact execGearSeedWrite_frame _ s
  | digestStateDone _ => exact execDigestStateDone_frame _ s
  | dedupLookup _ _ _ _ => exact execDedupLookup_frame _ _ _ _ s
  | lookupAnswer _ _ _ => exact execLookupAnswer_frame _ _ _ s
  | verifyCompare _ _ _ => exact execVerifyCompare_frame _ _ _ s
  | reconcileEntry _ => exact execReconcileEntry_frame _ s
  | domainSweep _ => exact execDomainSweep_frame _ s
  | domainCfgWrite _ _ => exact execDomainCfgWrite_frame _ _ s
  | cascadeJournalEntry _ _ _ _ _ => exact execCascadeJournalEntry_frame _ _ _ _ _ s
  | cascadeHomeAnswer _ _ => exact execCascadeHomeAnswer_frame _ _ s
  | cascadeRelease _ _ _ => exact execCascadeRelease_frame _ _ _ s
  | remoteRead _ _ _ _ => exact execRemoteRead_frame _ _ _ _ s
  | remoteReadData _ _ _ => exact execRemoteReadData_frame _ _ _ s
  | lostNotice _ _ _ => exact execLostNotice_frame _ _ _ s
  | containerDecode _ _ => exact execContainerDecode_frame _ _ s
  | secondCopyArrive _ _ _ => exact execSecondCopyArrive_frame _ _ _ s
  | compJob _ _ => exact execCompJob_frame _ _ s
  | cipherJob _ _ => exact execCipherJob_frame _ _ s
  | jobSliceEnd _ _ _ _ => exact execJobSliceEnd_frame _ _ _ _ s
  | keyLoad _ _ _ => exact execKeyLoad_frame _ _ _ s
  | keyRetire _ _ => exact execKeyRetire_frame _ _ s
  | keyRevoke _ _ _ => exact execKeyRevoke_frame _ _ _ s
  | keyResweep _ _ => exact execKeyResweep_frame _ _ s
  | kekLoad _ => exact execKekLoad_frame _ s
  | mirrorWriteRecord _ _ => exact execMirrorWriteRecord_frame _ _ s
  | mirrorMetadataRecord _ _ => exact execMirrorMetadataRecord_frame _ _ s
  | mirrorReleaseRecord _ _ => exact execMirrorReleaseRecord_frame _ _ s
  | mirrorApplyDdrAck _ => exact execMirrorApplyDdrAck_frame _ s
  | mirrorAck _ => exact execMirrorAck_frame _ s
  | mirrorAckTimeout _ => exact execMirrorAckTimeout_frame _ s
  | soloDdrAck _ => exact execSoloDdrAck_frame _ s
  | segmentAgeExpiry _ => exact execSegmentAgeExpiry_frame _ s
  | laneStallResume _ => exact execLaneStallResume_frame _ s
  | vinLowWarning => exact execVinLowWarning_frame s
  | pwrfailNLow => exact execPwrfailNLow_frame s
  | destageNow => exact execDestageNow_frame s
  | frontLinksDown => exact execFrontLinksDown_frame s
  | destageSealed => exact execDestageSealed_frame s
  | powerFailNotice => exact execPowerFailNotice_frame s
  | pfHoldoffExpiry => exact execPfHoldoffExpiry_frame s
  | sewSignature _ _ => exact execSewSignature_frame _ _ s
  | logPageSend => exact execLogPageSend_frame s
  | logAppendAck _ => exact execLogAppendAck_frame _ s
  | logCopyTimeout _ => exact execLogCopyTimeout_frame _ s
  | logReseedDone _ => exact execLogReseedDone_frame _ s
  | folioWriteComplete _ => exact execFolioWriteComplete_frame _ s
  | folioWriteFail _ _ => exact execFolioWriteFail_frame _ _ s
  | grantRequest _ => exact execGrantRequest_frame _ s
  | poolTable _ => exact execPoolTable_frame _ s
  | gcCollect _ => exact execGcCollect_frame _ s
  | quireDrained _ => exact execQuireDrained_frame _ s
  | quireEraseComplete _ => exact execQuireEraseComplete_frame _ s
  | leafAbsent _ => exact execLeafAbsent_frame _ s
  | leafAbsentTimeout _ => exact execLeafAbsentTimeout_frame _ s
  | leafReturn _ => exact execLeafReturn_frame _ s
  | leafDrain _ => exact execLeafDrain_frame _ s
  | leafFail _ => exact execLeafFail_frame _ s
  | leafReadmit _ => exact execLeafReadmit_frame _ s
  | drainComplete _ => exact execDrainComplete_frame _ s
  | slowMemberTimeout _ => exact execSlowMemberTimeout_frame _ s
  | rebuildQuire => exact execRebuildQuire_frame s
  | acceptLoss _ => exact execAcceptLoss_frame _ s
  | patrolSignature _ _ _ => exact execPatrolSignature_frame _ _ _ s
  | poolEnable _ _ => exact execPoolEnable_frame _ _ s
  | poolMemberAdd _ _ _ => exact execPoolMemberAdd_frame _ _ _ s
  | leafHopActive _ _ => exact execLeafHopActive_frame _ _ s
  | leafHopDown _ _ => exact execLeafHopDown_frame _ _ s
  | leafHopDetect _ _ => exact execLeafHopDetect_frame _ _ s
  | leafReplayRequest _ _ _ => exact execLeafReplayRequest_frame _ _ _ s
  | leafEnumerationAnswer _ _ => exact execLeafEnumerationAnswer_frame _ _ s
  | leafIdentifyCompletion _ _ => exact execLeafIdentifyCompletion_frame _ _ s
  | leafSerialExchange _ => exact execLeafSerialExchange_frame _ s
  | leafReadCompletion _ _ _ _ => exact execLeafReadCompletion_frame _ _ _ _ s
  | leafErrorCompletion _ _ => exact execLeafErrorCompletion_frame _ _ s
  | proxyLeafRead _ _ _ _ _ _ => exact execProxyLeafRead_frame _ _ _ _ _ _ s
  | plannerMeasurements _ => exact execPlannerMeasurements_frame _ s
  | planInterval => exact execPlanInterval_frame s
  | witnessReadCompletion _ _ => exact execWitnessReadCompletion_frame _ _ s
  | witnessCasCompletion _ _ => exact execWitnessCasCompletion_frame _ _ s
  | pageInComplete _ _ => exact execPageInComplete_frame _ _ s
  | reclaimPage => exact execReclaimPage_frame s
  | nsCreate _ _ => exact execNsCreate_frame _ _ s
  | nsChange _ _ => exact execNsChange_frame _ _ s
  | nsDelete _ _ => exact execNsDelete_frame _ _ s
  | mapImport _ _ _ _ => exact execMapImport_frame _ _ _ _ s
  | poolMoveComplete _ => exact execPoolMoveComplete_frame _ s
  | cgArm _ => exact execCgArm_frame _ s
  | cgAbandon _ => exact execCgAbandon_frame _ s
  | consistencyCut _ => exact execConsistencyCut_frame _ s
  | mapCacheFill _ _ => exact execMapCacheFill_frame _ _ s
  | mapCacheEnable _ => exact execMapCacheEnable_frame _ s
  | invalidateAll => exact execInvalidateAll_frame s
  | invalidateRange _ => exact execInvalidateRange_frame _ s
  | invalidateDone => exact execInvalidateDone_frame s
  | streamBatch _ => exact execStreamBatch_frame _ s
  | difference _ => exact execDifference_frame _ s
  | wantReply _ => exact execWantReply_frame _ s
  | anchorMark _ => exact execAnchorMark_frame _ s
  | replicationAck _ _ => exact execReplicationAck_frame _ _ s
  | probe _ _ => exact execProbe_frame _ _ s
  | probeTimer _ => exact execProbeTimer_frame _ s
  | envelopeRelease _ _ => exact execEnvelopeRelease_frame _ _ s
  | batchClose _ => exact execBatchClose_frame _ s
  | idleWatermark _ => exact execIdleWatermark_frame _ s
  | anchorPeriod _ => exact execAnchorPeriod_frame _ s
  | replicationLinkDown _ => exact execReplicationLinkDown_frame _ s
  | suspendExpiry _ => exact execSuspendExpiry_frame _ s
  | setEnable _ _ _ _ => exact execSetEnable_frame _ _ _ _ s
  | replicationLinkEnable _ _ => exact execReplicationLinkEnable_frame _ _ s
  | resynchronise _ => exact execResynchronise_frame _ s
  | reverse _ => exact execReverse_frame _ s
  | promote _ => exact execPromote_frame _ s
  | prgLoad _ _ _ _ _ _ => exact execPrgLoad_frame _ _ _ _ _ _ s
  | prgUnload _ _ _ => exact execPrgUnload_frame _ _ _ s
  | programTableUpdate _ _ _ => exact execProgramTableUpdate_frame _ _ _ s
  | hostRun _ _ => exact execHostRun_frame _ _ s
  | indexBuild _ _ => exact execIndexBuild_frame _ _ s
  | tapAttach c nsid slot tiles dest len => exact execTapAttach_frame c nsid slot tiles dest len s
  | tapDetach _ _ _ => exact execTapDetach_frame _ _ _ s
  | tileGrant => exact execTileGrant_frame s
  | pieceDeliver _ _ _ => exact execPieceDeliver_frame _ _ _ s
  | budgetExceeded _ => exact execBudgetExceeded_frame _ s
  | runComplete _ => exact execRunComplete_frame _ s
  | resultKeepExpiry _ => exact execResultKeepExpiry_frame _ s
  | tileFence _ => exact execTileFence_frame _ s
  | accountingUpdate => exact execAccountingUpdate_frame s
  | acctClear _ => exact execAcctClear_frame _ s
  | ringHello _ _ => exact execRingHello_frame _ _ s
  | ringLinkDown _ _ => exact execRingLinkDown_frame _ _ s
  | ringLinkDetect _ => exact execRingLinkDetect_frame _ s
  | ringTrainingTimeout _ => exact execRingTrainingTimeout_frame _ s
  | ringReplayRequest _ _ => exact execRingReplayRequest_frame _ _ s
  | partialMessageTimeout _ => exact execPartialMessageTimeout_frame _ s
  | enumerationFlit _ _ _ _ => exact execEnumerationFlit_frame _ _ _ _ s
  | enumerationJoin _ => exact execEnumerationJoin_frame _ s
  | enumerationDirectory _ _ => exact execEnumerationDirectory_frame _ _ s
  | keeperGatherExpiry => exact execKeeperGatherExpiry_frame s
  | addressReserveExpiry _ => exact execAddressReserveExpiry_frame _ s
  | leave => exact execLeave_frame s
  | leaveNotice _ => exact execLeaveNotice_frame _ s
  | deviceIsolatedTimeout _ => exact execDeviceIsolatedTimeout_frame _ s
  | timeFlitSend _ => exact execTimeFlitSend_frame _ s
  | timeFlit _ _ => exact execTimeFlit_frame _ _ s
  | parentTimeLost => exact execParentTimeLost_frame s
  | holdoverExpiry => exact execHoldoverExpiry_frame s
  | keeperLost => exact execKeeperLost_frame s
  | floorPassed => exact execFloorPassed_frame s
  | timeCeilingRewrite => exact execTimeCeilingRewrite_frame s
  | heartbeatSend => exact execHeartbeatSend_frame s
  | heartbeat _ => exact execHeartbeat_frame _ s
  | peerSuspect => exact execPeerSuspect_frame s
  | stuckSuspectExpiry => exact execStuckSuspectExpiry_frame s
  | startHeartbeatTimeout => exact execStartHeartbeatTimeout_frame s
  | contestRetry => exact execContestRetry_frame s
  | force => exact execForce_frame s
  | epochProposal _ => exact execEpochProposal_frame _ s
  | epochAccept _ => exact execEpochAccept_frame _ s
  | forwardedCommand _ _ => exact execForwardedCommand_frame _ _ s
  | forwardedData _ _ _ => exact execForwardedData_frame _ _ _ s
  | forwardedCompletion _ => exact execForwardedCompletion_frame _ s
  | moveRequest _ _ => exact execMoveRequest_frame _ _ s
  | moveAccept _ _ => exact execMoveAccept_frame _ _ s
  | ownMove _ => exact execOwnMove_frame _ s
  | moveDrained => exact execMoveDrained_frame s
  | healthReportSend => exact execHealthReportSend_frame s
  | healthReport _ _ => exact execHealthReport_frame _ _ s
  | rejoinRequest => exact execRejoinRequest_frame s
  | scrubStep => exact execScrubStep_frame s
  | scrubDigest _ _ _ => exact execScrubDigest_frame _ _ _ s
  | scrubPageRequest _ => exact execScrubPageRequest_frame _ s
  | scrubPageImage _ => exact execScrubPageImage_frame _ s
  | sqTailDoorbell _ _ _ => exact execSqTailDoorbell_frame _ _ _ s
  | cqHeadDoorbell _ _ _ => exact execCqHeadDoorbell_frame _ _ _ s
  | sqFetch _ _ _ => exact execSqFetch_frame _ _ _ s
  | cqInterruptTimer _ _ => exact execCqInterruptTimer_frame _ _ s
  | hello _ _ _ _ => exact execHello_frame _ _ _ _ s
  | nop _ => exact execNop_frame _ s
  | cancel _ _ _ _ => exact execCancel_frame _ _ _ _ s
  | ringCreate _ _ => exact execRingCreate_frame _ _ s
  | ringDelete _ _ => exact execRingDelete_frame _ _ s
  | sliceCreate _ _ => exact execSliceCreate_frame _ _ s
  | sliceDestroy _ _ => exact execSliceDestroy_frame _ _ s
  | sliceFreeze _ _ => exact execSliceFreeze_frame _ _ s
  | sliceThaw _ _ => exact execSliceThaw_frame _ _ s
  | sliceSave _ _ => exact execSliceSave_frame _ _ s
  | sliceRestore _ _ _ _ => exact execSliceRestore_frame _ _ _ _ s
  | sliceReset _ _ _ _ => exact execSliceReset_frame _ _ _ _ s
  | sliceQuiesced _ => exact execSliceQuiesced_frame _ s
  | mgrEnable _ => exact execMgrEnable_frame _ s
  | frameSend _ _ => exact execFrameSend_frame _ _ s
  | frameRxPost _ _ _ _ => exact execFrameRxPost_frame _ _ _ _ s
  | qpCreate _ _ _ => exact execQpCreate_frame _ _ _ s
  | qpModify _ _ _ _ => exact execQpModify_frame _ _ _ _ s
  | qpDestroy _ _ => exact execQpDestroy_frame _ _ s
  | qpQuery _ _ => exact execQpQuery_frame _ _ s
  | regionRegister _ _ _ => exact execRegionRegister_frame _ _ _ s
  | regionInvalidate _ _ => exact execRegionInvalidate_frame _ _ s
  | wrPost _ _ => exact execWrPost_frame _ _ s
  | dmaXfer _ _ => exact execDmaXfer_frame _ _ s
  | dmaPause _ _ => exact execDmaPause_frame _ _ s
  | dmaResume _ _ => exact execDmaResume_frame _ _ s
  | dmaChPause _ => exact execDmaChPause_frame _ s
  | dmaChResume _ => exact execDmaChResume_frame _ s
  | dmaChWithdraw _ => exact execDmaChWithdraw_frame _ s
  | dmaBurstDone _ _ _ => exact execDmaBurstDone_frame _ _ _ s
  | tokenRequest _ _ _ => exact execTokenRequest_frame _ _ _ s
  | tokenReturn _ => exact execTokenReturn_frame _ s
  | recallAck _ => exact execRecallAck_frame _ s
  | recallTimeout _ => exact execRecallTimeout_frame _ s
  | budgetWrite _ => exact execBudgetWrite_frame _ s
  | powerCheck _ _ => exact execPowerCheck_frame _ _ s
  | trimDecay => exact execTrimDecay_frame s
  | quarterClockFault _ => exact execQuarterClockFault_frame _ s
  | sysclkLoss => exact execSysclkLoss_frame s
  | quarterWake _ => exact execQuarterWake_frame _ s
  | quarterPowerOff _ => exact execQuarterPowerOff_frame _ s
  | quarterRetain _ => exact execQuarterRetain_frame _ s
  | quarterWakeDone _ => exact execQuarterWakeDone_frame _ s
  | quarterDrained _ => exact execQuarterDrained_frame _ s
  | drainTimeout _ => exact execDrainTimeout_frame _ s
  | quarterFault _ _ => exact execQuarterFault_frame _ _ s
  | thermalSample _ => exact execThermalSample_frame _ s
  | canaryError _ => exact execCanaryError_frame _ s
  | marginPlan _ => exact execMarginPlan_frame _ s
  | verify => exact execVerify_frame s
  | bootWrite => exact execBootWrite_frame s
  | bootWriteComplete _ => exact execBootWriteComplete_frame _ s
  | activate => exact execActivate_frame s
  | activationPauseEnd _ => exact execActivationPauseEnd_frame _ s
  | confirm => exact execConfirm_frame s
  | revert => exact execRevert_frame s
  | revoke _ => exact execRevoke_frame _ s
  | confirmWindowExpiry => exact execConfirmWindowExpiry_frame s
  | firmwareWatchdogExpiry => exact execFirmwareWatchdogExpiry_frame s
  | recoveryGo _ => exact execRecoveryGo_frame _ s
  | recoveryRequest => exact execRecoveryRequest_frame s
  | recoveryImage _ _ => exact execRecoveryImage_frame _ _ s
  | testQuarter _ _ => exact execTestQuarter_frame _ _ s
  | testUnit _ _ => exact execTestUnit_frame _ _ s
  | calibrateChannel _ _ => exact execCalibrateChannel_frame _ _ s
  | testStandby _ => exact execTestStandby_frame _ s
  | testComplete _ => exact execTestComplete_frame _ s
  | rotationTimer _ => exact execRotationTimer_frame _ s
  | standbyTestTimer _ => exact execStandbyTestTimer_frame _ s
  | ddrCalibration _ _ => exact execDdrCalibration_frame _ _ s
  | ddrChannelLost _ => exact execDdrChannelLost_frame _ s
  | eventPageWrite => exact execEventPageWrite_frame s
  | eventControlSave => exact execEventControlSave_frame s
  | eventReadSelect _ _ => exact execEventReadSelect_frame _ _ s
  | newNonce => exact execNewNonce_frame s
  | clearGo => exact execClearGo_frame s
  | clearComplete => exact execClearComplete_frame s
  | histSwap => exact execHistSwap_frame s
  | cmdTagQuery _ => exact execCmdTagQuery_frame _ s
  | pfcPauseExpiry _ _ => exact execPfcPauseExpiry_frame _ _ s
  | vinOutOfRange _ => exact execVinOutOfRange_frame _ s
  | pciePerstRelease _ _ => exact execPciePerstRelease_frame _ _ s
  | ringLinkTrained _ _ => exact execRingLinkTrained_frame _ _ s
  | proxyReadData _ _ => exact execProxyReadData_frame _ _ s
  | poolMoveCopy _ => exact execPoolMoveCopy_frame _ s
  | rekeySweepStep _ => exact execRekeySweepStep_frame _ s
  | metadataWriteback => exact execMetadataWriteback_frame s
  | msixTableWrite _ _ _ _ => exact execMsixTableWrite_frame _ _ _ _ s
  | d3hotTransition _ => exact execD3hotTransition_frame _ s
  | leafHealthCompletion _ _ => exact execLeafHealthCompletion_frame _ _ s
  | logReadCompletion _ _ _ => exact execLogReadCompletion_frame _ _ _ s

/-- A command's next state differs from the state before within the command's footprint alone. -/
theorem exec_within {c : Instr} {s t : State} (h : exec c s = .next t) : Within (partsOf c) s t := by
  have lands := exec_footprint c s
  rwa [h] at lands

/-- Settles O43: the frame of each command, read off part by part. -/
theorem commandsStayInTheirParts : Obligations.CommandsStayInTheirParts := by
  unfold Obligations.CommandsStayInTheirParts
  refine ⟨fun s c t h => (exec_within h).only, fun s c t h => ⟨fun hm => ?_, fun f i j hr hb => ?_⟩⟩
  · exact (exec_within h).only.mem (by simpa using hm)
  · exact (exec_within h).only.rd f i j (by simpa using hr) (by simpa using hb)

/-- Settles O44: every command keeps the queue and the clock, and only adds to the outputs. -/
theorem commandsLeaveQueueAndOutputs : Obligations.CommandsLeaveQueueAndOutputs := by
  unfold Obligations.CommandsLeaveQueueAndOutputs
  refine ⟨fun s c t h => ⟨(exec_next h).only.pending, (exec_next h).only.clock⟩, fun s c t h => ?_⟩
  obtain ⟨new, hnew⟩ := (exec_next h).sent
  exact ⟨new, hnew.symm⟩

/-- Settles O42: an empty queue makes the step a tick, a command in front makes it that command; both keep the form. -/
theorem stepKeepsInv : Obligations.StepKeepsInv := by
  unfold Obligations.StepKeepsInv
  intro s t hinv hstep
  cases hq : s.pending with
  | nil =>
    rw [step_nil hq] at hstep
    exact Host.Outcome.next.inj hstep ▸ tick_inv hinv
  | cons c rest =>
    rw [step_cons hq] at hstep
    exact (exec_next hstep).inv (by exact hinv)

/-- Settles O38. -/
theorem stepRunsTheFrontCommand : Obligations.StepRunsTheFrontCommand := by
  unfold Obligations.StepRunsTheFrontCommand
  exact ⟨fun _ _ _ hq => step_cons hq, fun _ _ _ => ⟨rfl, rfl⟩⟩

/-- Settles O40: the register file of the reset state lists nothing, so each field reads its Reset value. -/
theorem resetState : Obligations.ResetState := by
  unfold Obligations.ResetState
  exact ⟨fun _ _ _ => rfl, ⟨Memory.wf_nil, Table.rising_nil⟩, rfl, rfl, rfl, fun _ => rfl, fun _ _ _ => ⟨rfl, rfl⟩⟩

end Sys2Proof.Machine
end

section
/-!
Every command answers a next state (O41): each meaning that branches is walked to the end of every branch, which is a next state; a meaning
without a branch is one as it stands.
-/
namespace Sys2Proof.Machine
open Sys2Proof

theorem execRegisterWrite_answers address size value (s : State) : ∃ t, execRegisterWrite address size value s = .next t := by
  unfold execRegisterWrite
  split <;> exact ⟨_, rfl⟩

theorem execRcRead_answers address size (s : State) : ∃ t, execRcRead address size s = .next t := by
  unfold execRcRead
  repeat' first | with_reducible exact ⟨_, rfl⟩ | split

theorem execBadSizeAccess_answers write address size (s : State) : ∃ t, execBadSizeAccess write address size s = .next t := by
  unfold execBadSizeAccess
  split <;> exact ⟨_, rfl⟩

theorem execSetupLockWrite_answers block value (s : State) : ∃ t, execSetupLockWrite block value s = .next t := by
  unfold execSetupLockWrite
  repeat' first | with_reducible exact ⟨_, rfl⟩ | split

theorem execVinGood_answers latchLost (s : State) : ∃ t, execVinGood latchLost s = .next t := by
  unfold execVinGood
  split <;> exact ⟨_, rfl⟩

theorem execVinCollapse_answers torn (s : State) : ∃ t, execVinCollapse torn s = .next t := by
  unfold execVinCollapse
  split <;> exact ⟨_, rfl⟩

theorem execVinOvervoltage_answers torn (s : State) : ∃ t, execVinOvervoltage torn s = .next t := by
  unfold execVinOvervoltage
  split <;> exact ⟨_, rfl⟩

theorem execResetBallAssert_answers (s : State) : ∃ t, execResetBallAssert s = .next t := by
  unfold execResetBallAssert
  repeat' first | with_reducible exact ⟨_, rfl⟩ | (extract_lets +onlyGivenNames x; clear_value x) | split

theorem execStrapSample_answers straps qk0 (s : State) : ∃ t, execStrapSample straps qk0 s = .next t := by
  unfold execStrapSample
  repeat' first | with_reducible exact ⟨_, rfl⟩ | split

theorem execBootImageLoaded_answers (s : State) : ∃ t, execBootImageLoaded s = .next t := by
  unfold execBootImageLoaded
  repeat' first | with_reducible exact ⟨_, rfl⟩ | (extract_lets +onlyGivenNames x; clear_value x) | split

theorem execFirmwareStart_answers good bad installed pairEpoch (s : State) :
    ∃ t, execFirmwareStart good bad installed pairEpoch s = .next t := by
  unfold execFirmwareStart
  split <;> exact ⟨_, rfl⟩

theorem execPartSelfReset_answers (s : State) : ∃ t, execPartSelfReset s = .next t := by
  unfold execPartSelfReset
  split <;> exact ⟨_, rfl⟩

theorem execAtsInvalidate_answers tag (s : State) : ∃ t, execAtsInvalidate tag s = .next t := by
  unfold execAtsInvalidate
  split <;> exact ⟨_, rfl⟩

theorem execHostRequestFailed_answers owner (s : State) : ∃ t, execHostRequestFailed owner s = .next t := by
  unfold execHostRequestFailed
  split <;> exact ⟨_, rfl⟩

theorem execFrameReceive_answers frame (s : State) : ∃ t, execFrameReceive frame s = .next t := by
  unfold execFrameReceive
  repeat' first | with_reducible exact ⟨_, rfl⟩ | (extract_lets +onlyGivenNames x; clear_value x) | split

theorem execLinkChange_answers lport up (s : State) : ∃ t, execLinkChange lport up s = .next t := by
  unfold execLinkChange
  repeat' first | with_reducible exact ⟨_, rfl⟩ | (extract_lets +onlyGivenNames x; clear_value x) | split

theorem execPtpTxStampRead_answers port (s : State) : ∃ t, execPtpTxStampRead port s = .next t := by
  unfold execPtpTxStampRead
  split <;> exact ⟨_, rfl⟩

theorem execContextWritebackAck_answers qpn (s : State) : ∃ t, execContextWritebackAck qpn s = .next t := by
  unfold execContextWritebackAck
  split <;> exact ⟨_, rfl⟩

theorem execContextEligible_answers qpn (s : State) : ∃ t, execContextEligible qpn s = .next t := by
  unfold execContextEligible
  repeat' first | with_reducible exact ⟨_, rfl⟩ | split

theorem execContextFetchDone_answers qpn ns result (s : State) : ∃ t, execContextFetchDone qpn ns result s = .next t := by
  unfold execContextFetchDone
  repeat' first | with_reducible exact ⟨_, rfl⟩ | split

theorem execLaybyDrainPacket_answers qpn (s : State) : ∃ t, execLaybyDrainPacket qpn s = .next t := by
  unfold execLaybyDrainPacket
  repeat' first | with_reducible exact ⟨_, rfl⟩ | split

theorem execAckCoalesceTimer_answers qpn (s : State) : ∃ t, execAckCoalesceTimer qpn s = .next t := by
  unfold execAckCoalesceTimer
  repeat' first | with_reducible exact ⟨_, rfl⟩ | (extract_lets +onlyGivenNames x; clear_value x) | split

theorem execAckTimeout_answers qpn (s : State) : ∃ t, execAckTimeout qpn s = .next t := by
  unfold execAckTimeout
  repeat' first | with_reducible exact ⟨_, rfl⟩ | (extract_lets +onlyGivenNames x; clear_value x) | split

theorem execRnrTimer_answers qpn (s : State) : ∃ t, execRnrTimer qpn s = .next t := by
  unfold execRnrTimer
  repeat' first | with_reducible exact ⟨_, rfl⟩ | (extract_lets +onlyGivenNames x; clear_value x) | split

theorem execFinalFlagProcess_answers qpn (s : State) : ∃ t, execFinalFlagProcess qpn s = .next t := by
  unfold execFinalFlagProcess
  repeat' first | with_reducible exact ⟨_, rfl⟩ | (extract_lets +onlyGivenNames x; clear_value x) | split

theorem execInvalidationComplete_answers region (s : State) : ∃ t, execInvalidationComplete region s = .next t := by
  unfold execInvalidationComplete
  split <;> exact ⟨_, rfl⟩

theorem execTrnStateWrite_answers value (s : State) : ∃ t, execTrnStateWrite value s = .next t := by
  unfold execTrnStateWrite
  repeat' first | with_reducible exact ⟨_, rfl⟩ | (extract_lets +onlyGivenNames x; clear_value x) | split

theorem execCapsuleArrive_answers cap (s : State) : ∃ t, execCapsuleArrive cap s = .next t := by
  unfold execCapsuleArrive
  repeat' first | with_reducible exact ⟨_, rfl⟩ | split

theorem execTagAssign_answers (s : State) : ∃ t, execTagAssign s = .next t := by
  unfold execTagAssign
  repeat' first | with_reducible exact ⟨_, rfl⟩ | (extract_lets +onlyGivenNames x; clear_value x) | split

theorem execKeepAliveExpiry_answers ctrl (s : State) : ∃ t, execKeepAliveExpiry ctrl s = .next t := by
  unfold execKeepAliveExpiry
  repeat' first | with_reducible exact ⟨_, rfl⟩ | split

theorem execCstsRdyClear_answers ctrl (s : State) : ∃ t, execCstsRdyClear ctrl s = .next t := by
  unfold execCstsRdyClear
  repeat' first | with_reducible exact ⟨_, rfl⟩ | split

theorem execShutdownComplete_answers ctrl (s : State) : ∃ t, execShutdownComplete ctrl s = .next t := by
  unfold execShutdownComplete
  repeat' first | with_reducible exact ⟨_, rfl⟩ | (extract_lets +onlyGivenNames x; clear_value x) | split

theorem execPs3EntryEnd_answers (s : State) : ∃ t, execPs3EntryEnd s = .next t := by
  unfold execPs3EntryEnd
  split <;> exact ⟨_, rfl⟩

theorem execPs3ExitEnd_answers (s : State) : ∃ t, execPs3ExitEnd s = .next t := by
  unfold execPs3ExitEnd
  split <;> exact ⟨_, rfl⟩

theorem execDigestStateDone_answers ready (s : State) : ∃ t, execDigestStateDone ready s = .next t := by
  unfold execDigestStateDone
  split <;> exact ⟨_, rfl⟩

theorem execDedupLookup_answers tag off damaged upset (s : State) : ∃ t, execDedupLookup tag off damaged upset s = .next t := by
  unfold execDedupLookup
  repeat' first | with_reducible exact ⟨_, rfl⟩ | (extract_lets +onlyGivenNames x; clear_value x) | split

theorem execLookupAnswer_answers tag off fault (s : State) : ∃ t, execLookupAnswer tag off fault s = .next t := by
  unfold execLookupAnswer
  repeat' first | with_reducible exact ⟨_, rfl⟩ | split

theorem execVerifyCompare_answers tag off faults (s : State) : ∃ t, execVerifyCompare tag off faults s = .next t := by
  unfold execVerifyCompare
  repeat' first | with_reducible exact ⟨_, rfl⟩ | (extract_lets +onlyGivenNames x; clear_value x) | split

theorem execReconcileEntry_answers upset (s : State) : ∃ t, execReconcileEntry upset s = .next t := by
  unfold execReconcileEntry
  repeat' first | with_reducible exact ⟨_, rfl⟩ | (extract_lets +onlyGivenNames x; clear_value x) | split

theorem execDomainSweep_answers sweep (s : State) : ∃ t, execDomainSweep sweep s = .next t := by
  unfold execDomainSweep
  repeat' first | with_reducible exact ⟨_, rfl⟩ | split

theorem execDomainCfgWrite_answers domain value (s : State) : ∃ t, execDomainCfgWrite domain value s = .next t := by
  unfold execDomainCfgWrite
  split <;> exact ⟨_, rfl⟩

theorem execCascadeJournalEntry_answers domain fp pair seq upset (s : State) :
    ∃ t, execCascadeJournalEntry domain fp pair seq upset s = .next t := by
  unfold execCascadeJournalEntry
  repeat' first | with_reducible exact ⟨_, rfl⟩ | (extract_lets +onlyGivenNames x; clear_value x) | split

theorem execCascadeHomeAnswer_answers seq answer (s : State) : ∃ t, execCascadeHomeAnswer seq answer s = .next t := by
  unfold execCascadeHomeAnswer
  repeat' first | with_reducible exact ⟨_, rfl⟩ | split

theorem execCascadeRelease_answers pair seq loc (s : State) : ∃ t, execCascadeRelease pair seq loc s = .next t := by
  unfold execCascadeRelease
  repeat' first | with_reducible exact ⟨_, rfl⟩ | (extract_lets +onlyGivenNames x; clear_value x) | split

theorem execRemoteReadData_answers tag piece container (s : State) : ∃ t, execRemoteReadData tag piece container s = .next t := by
  unfold execRemoteReadData
  repeat' first | with_reducible exact ⟨_, rfl⟩ | split

theorem execContainerDecode_answers tag at_ (s : State) : ∃ t, execContainerDecode tag at_ s = .next t := by
  unfold execContainerDecode
  repeat' first | with_reducible exact ⟨_, rfl⟩ | (extract_lets +onlyGivenNames x; clear_value x) | split

theorem execSecondCopyArrive_answers tag piece copy (s : State) : ∃ t, execSecondCopyArrive tag piece copy s = .next t := by
  unfold execSecondCopyArrive
  repeat' first | with_reducible exact ⟨_, rfl⟩ | (extract_lets +onlyGivenNames x; clear_value x) | split

theorem execJobSliceEnd_answers c bytes fault upset (s : State) : ∃ t, execJobSliceEnd c bytes fault upset s = .next t := by
  unfold execJobSliceEnd
  repeat' first | with_reducible exact ⟨_, rfl⟩ | split

theorem execKekLoad_answers value (s : State) : ∃ t, execKekLoad value s = .next t := by
  unfold execKekLoad
  repeat' first | with_reducible exact ⟨_, rfl⟩ | (extract_lets +onlyGivenNames x; clear_value x) | split

theorem execMirrorWriteRecord_answers rcd crc (s : State) : ∃ t, execMirrorWriteRecord rcd crc s = .next t := by
  unfold execMirrorWriteRecord
  split <;> exact ⟨_, rfl⟩

theorem execMirrorMetadataRecord_answers rcd crc (s : State) : ∃ t, execMirrorMetadataRecord rcd crc s = .next t := by
  unfold execMirrorMetadataRecord
  split <;> exact ⟨_, rfl⟩

theorem execMirrorReleaseRecord_answers rcd crc (s : State) : ∃ t, execMirrorReleaseRecord rcd crc s = .next t := by
  unfold execMirrorReleaseRecord
  split <;> exact ⟨_, rfl⟩

theorem execMirrorApplyDdrAck_answers seq (s : State) : ∃ t, execMirrorApplyDdrAck seq s = .next t := by
  unfold execMirrorApplyDdrAck
  repeat' first | with_reducible exact ⟨_, rfl⟩ | split

theorem execMirrorAck_answers ack (s : State) : ∃ t, execMirrorAck ack s = .next t := by
  unfold execMirrorAck
  repeat' first | with_reducible exact ⟨_, rfl⟩ | split

theorem execMirrorAckTimeout_answers seq (s : State) : ∃ t, execMirrorAckTimeout seq s = .next t := by
  unfold execMirrorAckTimeout
  repeat' first | with_reducible exact ⟨_, rfl⟩ | split

theorem execSoloDdrAck_answers tag (s : State) : ∃ t, execSoloDdrAck tag s = .next t := by
  unfold execSoloDdrAck
  repeat' first | with_reducible exact ⟨_, rfl⟩ | (extract_lets +onlyGivenNames x; clear_value x) | split

theorem execSegmentAgeExpiry_answers seg (s : State) : ∃ t, execSegmentAgeExpiry seg s = .next t := by
  unfold execSegmentAgeExpiry
  repeat' first | with_reducible exact ⟨_, rfl⟩ | (extract_lets +onlyGivenNames x; clear_value x) | split

theorem execLaneStallResume_answers lane (s : State) : ∃ t, execLaneStallResume lane s = .next t := by
  unfold execLaneStallResume
  split <;> exact ⟨_, rfl⟩

theorem execFrontLinksDown_answers (s : State) : ∃ t, execFrontLinksDown s = .next t := by
  unfold execFrontLinksDown
  split <;> exact ⟨_, rfl⟩

theorem execDestageSealed_answers (s : State) : ∃ t, execDestageSealed s = .next t := by
  unfold execDestageSealed
  repeat' first | with_reducible exact ⟨_, rfl⟩ | split

theorem execPowerFailNotice_answers (s : State) : ∃ t, execPowerFailNotice s = .next t := by
  unfold execPowerFailNotice
  split <;> exact ⟨_, rfl⟩

theorem execPfHoldoffExpiry_answers (s : State) : ∃ t, execPfHoldoffExpiry s = .next t := by
  unfold execPfHoldoffExpiry
  split <;> exact ⟨_, rfl⟩

theorem execSewSignature_answers pool bad (s : State) : ∃ t, execSewSignature pool bad s = .next t := by
  unfold execSewSignature
  repeat' first | with_reducible exact ⟨_, rfl⟩ | (extract_lets +onlyGivenNames x; clear_value x) | split

theorem execLogAppendAck_answers id (s : State) : ∃ t, execLogAppendAck id s = .next t := by
  unfold execLogAppendAck
  repeat' first | with_reducible exact ⟨_, rfl⟩ | split

theorem execLogReseedDone_answers copy (s : State) : ∃ t, execLogReseedDone copy s = .next t := by
  unfold execLogReseedDone
  repeat' first | with_reducible exact ⟨_, rfl⟩ | split

theorem execFolioWriteComplete_answers id (s : State) : ∃ t, execFolioWriteComplete id s = .next t := by
  unfold execFolioWriteComplete
  repeat' first | with_reducible exact ⟨_, rfl⟩ | (extract_lets +onlyGivenNames x; clear_value x) | split

theorem execFolioWriteFail_answers id nand (s : State) : ∃ t, execFolioWriteFail id nand s = .next t := by
  unfold execFolioWriteFail
  repeat' first | with_reducible exact ⟨_, rfl⟩ | split

theorem execGrantRequest_answers leaf (s : State) : ∃ t, execGrantRequest leaf s = .next t := by
  unfold execGrantRequest
  repeat' first | with_reducible exact ⟨_, rfl⟩ | (extract_lets +onlyGivenNames x; clear_value x) | split

theorem execGcCollect_answers pool (s : State) : ∃ t, execGcCollect pool s = .next t := by
  unfold execGcCollect
  repeat' first | with_reducible exact ⟨_, rfl⟩ | (extract_lets +onlyGivenNames x; clear_value x) | split

theorem execQuireDrained_answers quire (s : State) : ∃ t, execQuireDrained quire s = .next t := by
  unfold execQuireDrained
  repeat' first | with_reducible exact ⟨_, rfl⟩ | split

theorem execQuireEraseComplete_answers id (s : State) : ∃ t, execQuireEraseComplete id s = .next t := by
  unfold execQuireEraseComplete
  repeat' first | with_reducible exact ⟨_, rfl⟩ | split

theorem execLeafAbsentTimeout_answers leaf (s : State) : ∃ t, execLeafAbsentTimeout leaf s = .next t := by
  unfold execLeafAbsentTimeout
  split <;> exact ⟨_, rfl⟩

theorem execLeafReturn_answers leaf (s : State) : ∃ t, execLeafReturn leaf s = .next t := by
  unfold execLeafReturn
  repeat' first | with_reducible exact ⟨_, rfl⟩ | (extract_lets +onlyGivenNames x; clear_value x) | split

theorem execLeafDrain_answers leaf (s : State) : ∃ t, execLeafDrain leaf s = .next t := by
  unfold execLeafDrain
  repeat' first | with_reducible exact ⟨_, rfl⟩ | (extract_lets +onlyGivenNames x; clear_value x) | split

theorem execLeafFail_answers leaf (s : State) : ∃ t, execLeafFail leaf s = .next t := by
  unfold execLeafFail
  repeat' first | with_reducible exact ⟨_, rfl⟩ | split

theorem execLeafReadmit_answers leaf (s : State) : ∃ t, execLeafReadmit leaf s = .next t := by
  unfold execLeafReadmit
  repeat' first | with_reducible exact ⟨_, rfl⟩ | split

theorem execDrainComplete_answers leaf (s : State) : ∃ t, execDrainComplete leaf s = .next t := by
  unfold execDrainComplete
  repeat' first | with_reducible exact ⟨_, rfl⟩ | split

theorem execSlowMemberTimeout_answers id (s : State) : ∃ t, execSlowMemberTimeout id s = .next t := by
  unfold execSlowMemberTimeout
  repeat' first | with_reducible exact ⟨_, rfl⟩ | split

theorem execRebuildQuire_answers (s : State) : ∃ t, execRebuildQuire s = .next t := by
  unfold execRebuildQuire
  repeat' first | with_reducible exact ⟨_, rfl⟩ | (extract_lets +onlyGivenNames x; clear_value x) | split

theorem execAcceptLoss_answers pool (s : State) : ∃ t, execAcceptLoss pool s = .next t := by
  unfold execAcceptLoss
  split <;> exact ⟨_, rfl⟩

theorem execPatrolSignature_answers quire sig found (s : State) : ∃ t, execPatrolSignature quire sig found s = .next t := by
  unfold execPatrolSignature
  repeat' first | with_reducible exact ⟨_, rfl⟩ | (extract_lets +onlyGivenNames x; clear_value x) | split

theorem execPoolEnable_answers pool value (s : State) : ∃ t, execPoolEnable pool value s = .next t := by
  unfold execPoolEnable
  repeat' first | with_reducible exact ⟨_, rfl⟩ | (extract_lets +onlyGivenNames x; clear_value x) | split

theorem execPoolMemberAdd_answers pool word value (s : State) : ∃ t, execPoolMemberAdd pool word value s = .next t := by
  unfold execPoolMemberAdd
  split <;> exact ⟨_, rfl⟩

theorem execLeafHopActive_answers lane pos (s : State) : ∃ t, execLeafHopActive lane pos s = .next t := by
  unfold execLeafHopActive
  split <;> exact ⟨_, rfl⟩

theorem execLeafHopDown_answers lane pos (s : State) : ∃ t, execLeafHopDown lane pos s = .next t := by
  unfold execLeafHopDown
  split <;> exact ⟨_, rfl⟩

theorem execLeafHopDetect_answers lane pos (s : State) : ∃ t, execLeafHopDetect lane pos s = .next t := by
  unfold execLeafHopDetect
  repeat' first | with_reducible exact ⟨_, rfl⟩ | (extract_lets +onlyGivenNames x; clear_value x) | split

theorem execLeafReplayRequest_answers lane pos seq (s : State) : ∃ t, execLeafReplayRequest lane pos seq s = .next t := by
  unfold execLeafReplayRequest
  repeat' first | with_reducible exact ⟨_, rfl⟩ | (extract_lets +onlyGivenNames x; clear_value x) | split

theorem execLeafEnumerationAnswer_answers lane answer (s : State) : ∃ t, execLeafEnumerationAnswer lane answer s = .next t := by
  unfold execLeafEnumerationAnswer
  split <;> exact ⟨_, rfl⟩

theorem execLeafIdentifyCompletion_answers id ident (s : State) : ∃ t, execLeafIdentifyCompletion id ident s = .next t := by
  unfold execLeafIdentifyCompletion
  repeat' first | with_reducible exact ⟨_, rfl⟩ | split

theorem execLeafReadCompletion_answers id used current words (s : State) :
    ∃ t, execLeafReadCompletion id used current words s = .next t := by
  unfold execLeafReadCompletion
  repeat' first | with_reducible exact ⟨_, rfl⟩ | split

theorem execLeafErrorCompletion_answers id status (s : State) : ∃ t, execLeafErrorCompletion id status s = .next t := by
  unfold execLeafErrorCompletion
  split <;> exact ⟨_, rfl⟩

theorem execProxyLeafRead_answers id leaf unit folio first count (s : State) :
    ∃ t, execProxyLeafRead id leaf unit folio first count s = .next t := by
  unfold execProxyLeafRead
  split <;> exact ⟨_, rfl⟩

theorem execPlannerMeasurements_answers measures (s : State) : ∃ t, execPlannerMeasurements measures s = .next t := by
  unfold execPlannerMeasurements
  split <;> exact ⟨_, rfl⟩

theorem execPlanInterval_answers (s : State) : ∃ t, execPlanInterval s = .next t := by
  unfold execPlanInterval
  repeat' first | with_reducible exact ⟨_, rfl⟩ | split

theorem execWitnessReadCompletion_answers id rcd (s : State) : ∃ t, execWitnessReadCompletion id rcd s = .next t := by
  unfold execWitnessReadCompletion
  repeat' first | with_reducible exact ⟨_, rfl⟩ | split

theorem execWitnessCasCompletion_answers id rcd (s : State) : ∃ t, execWitnessCasCompletion id rcd s = .next t := by
  unfold execWitnessCasCompletion
  repeat' first | with_reducible exact ⟨_, rfl⟩ | split

theorem execPageInComplete_answers page result (s : State) : ∃ t, execPageInComplete page result s = .next t := by
  unfold execPageInComplete
  repeat' first | with_reducible exact ⟨_, rfl⟩ | (extract_lets +onlyGivenNames x; clear_value x) | split

theorem execReclaimPage_answers (s : State) : ∃ t, execReclaimPage s = .next t := by
  unfold execReclaimPage
  repeat' first | with_reducible exact ⟨_, rfl⟩ | split

theorem execPoolMoveComplete_answers nsid (s : State) : ∃ t, execPoolMoveComplete nsid s = .next t := by
  unfold execPoolMoveComplete
  repeat' first | with_reducible exact ⟨_, rfl⟩ | (extract_lets +onlyGivenNames x; clear_value x) | split

theorem execCgArm_answers group (s : State) : ∃ t, execCgArm group s = .next t := by
  unfold execCgArm
  repeat' first | with_reducible exact ⟨_, rfl⟩ | (extract_lets +onlyGivenNames x; clear_value x) | split

theorem execCgAbandon_answers group (s : State) : ∃ t, execCgAbandon group s = .next t := by
  unfold execCgAbandon
  repeat' first | with_reducible exact ⟨_, rfl⟩ | (extract_lets +onlyGivenNames x; clear_value x) | split

theorem execMapCacheFill_answers line parity (s : State) : ∃ t, execMapCacheFill line parity s = .next t := by
  unfold execMapCacheFill
  repeat' first | with_reducible exact ⟨_, rfl⟩ | (extract_lets +onlyGivenNames x; clear_value x) | split

theorem execMapCacheEnable_answers value (s : State) : ∃ t, execMapCacheEnable value s = .next t := by
  unfold execMapCacheEnable
  repeat' first | with_reducible exact ⟨_, rfl⟩ | split

theorem execInvalidateAll_answers (s : State) : ∃ t, execInvalidateAll s = .next t := by
  unfold execInvalidateAll
  split <;> exact ⟨_, rfl⟩

theorem execInvalidateRange_answers lines (s : State) : ∃ t, execInvalidateRange lines s = .next t := by
  unfold execInvalidateRange
  split <;> exact ⟨_, rfl⟩

theorem execInvalidateDone_answers (s : State) : ∃ t, execInvalidateDone s = .next t := by
  unfold execInvalidateDone
  split <;> exact ⟨_, rfl⟩

theorem execDifference_answers e (s : State) : ∃ t, execDifference e s = .next t := by
  unfold execDifference
  split <;> exact ⟨_, rfl⟩

theorem execReplicationAck_answers e probe (s : State) : ∃ t, execReplicationAck e probe s = .next t := by
  unfold execReplicationAck
  repeat' first | with_reducible exact ⟨_, rfl⟩ | (extract_lets +onlyGivenNames x; clear_value x) | split

theorem execProbe_answers link e (s : State) : ∃ t, execProbe link e s = .next t := by
  unfold execProbe
  repeat' first | with_reducible exact ⟨_, rfl⟩ | (extract_lets +onlyGivenNames x; clear_value x) | split

theorem execProbeTimer_answers link (s : State) : ∃ t, execProbeTimer link s = .next t := by
  unfold execProbeTimer
  repeat' first | with_reducible exact ⟨_, rfl⟩ | (extract_lets +onlyGivenNames x; clear_value x) | split

theorem execEnvelopeRelease_answers set head (s : State) : ∃ t, execEnvelopeRelease set head s = .next t := by
  unfold execEnvelopeRelease
  repeat' first | with_reducible exact ⟨_, rfl⟩ | split

theorem execBatchClose_answers set (s : State) : ∃ t, execBatchClose set s = .next t := by
  unfold execBatchClose
  repeat' first | with_reducible exact ⟨_, rfl⟩ | (extract_lets +onlyGivenNames x; clear_value x) | split

theorem execIdleWatermark_answers set (s : State) : ∃ t, execIdleWatermark set s = .next t := by
  unfold execIdleWatermark
  repeat' first | with_reducible exact ⟨_, rfl⟩ | (extract_lets +onlyGivenNames x; clear_value x) | split

theorem execAnchorPeriod_answers set (s : State) : ∃ t, execAnchorPeriod set s = .next t := by
  unfold execAnchorPeriod
  repeat' first | with_reducible exact ⟨_, rfl⟩ | (extract_lets +onlyGivenNames x; clear_value x) | split

theorem execReplicationLinkDown_answers link (s : State) : ∃ t, execReplicationLinkDown link s = .next t := by
  unfold execReplicationLinkDown
  split <;> exact ⟨_, rfl⟩

theorem execSuspendExpiry_answers set (s : State) : ∃ t, execSuspendExpiry set s = .next t := by
  unfold execSuspendExpiry
  split <;> exact ⟨_, rfl⟩

theorem execSetEnable_answers set value far lacksKey (s : State) : ∃ t, execSetEnable set value far lacksKey s = .next t := by
  unfold execSetEnable
  repeat' first | with_reducible exact ⟨_, rfl⟩ | (extract_lets +onlyGivenNames x; clear_value x) | split

theorem execReplicationLinkEnable_answers link value (s : State) : ∃ t, execReplicationLinkEnable link value s = .next t := by
  unfold execReplicationLinkEnable
  repeat' first | with_reducible exact ⟨_, rfl⟩ | (extract_lets +onlyGivenNames x; clear_value x) | split

theorem execResynchronise_answers set (s : State) : ∃ t, execResynchronise set s = .next t := by
  unfold execResynchronise
  split <;> exact ⟨_, rfl⟩

theorem execReverse_answers set (s : State) : ∃ t, execReverse set s = .next t := by
  unfold execReverse
  repeat' first | with_reducible exact ⟨_, rfl⟩ | (extract_lets +onlyGivenNames x; clear_value x) | split

theorem execPromote_answers set (s : State) : ∃ t, execPromote set s = .next t := by
  unfold execPromote
  split <;> exact ⟨_, rfl⟩

theorem execProgramTableUpdate_answers tenant slot package (s : State) : ∃ t, execProgramTableUpdate tenant slot package s = .next t := by
  unfold execProgramTableUpdate
  split <;> exact ⟨_, rfl⟩

theorem execPieceDeliver_answers run tile faults (s : State) : ∃ t, execPieceDeliver run tile faults s = .next t := by
  unfold execPieceDeliver
  repeat' first | with_reducible exact ⟨_, rfl⟩ | split

theorem execBudgetExceeded_answers run (s : State) : ∃ t, execBudgetExceeded run s = .next t := by
  unfold execBudgetExceeded
  repeat' first | with_reducible exact ⟨_, rfl⟩ | split

theorem execRunComplete_answers run (s : State) : ∃ t, execRunComplete run s = .next t := by
  unfold execRunComplete
  repeat' first | with_reducible exact ⟨_, rfl⟩ | (extract_lets +onlyGivenNames x; clear_value x) | split

theorem execResultKeepExpiry_answers run (s : State) : ∃ t, execResultKeepExpiry run s = .next t := by
  unfold execResultKeepExpiry
  repeat' first | with_reducible exact ⟨_, rfl⟩ | split

theorem execTileFence_answers tile (s : State) : ∃ t, execTileFence tile s = .next t := by
  unfold execTileFence
  split <;> exact ⟨_, rfl⟩

theorem execAcctClear_answers value (s : State) : ∃ t, execAcctClear value s = .next t := by
  unfold execAcctClear
  repeat' first | with_reducible exact ⟨_, rfl⟩ | split

theorem execRingHello_answers link hello (s : State) : ∃ t, execRingHello link hello s = .next t := by
  unfold execRingHello
  split <;> exact ⟨_, rfl⟩

theorem execRingLinkDown_answers link partials (s : State) : ∃ t, execRingLinkDown link partials s = .next t := by
  unfold execRingLinkDown
  split <;> exact ⟨_, rfl⟩

theorem execRingLinkDetect_answers link (s : State) : ∃ t, execRingLinkDetect link s = .next t := by
  unfold execRingLinkDetect
  split <;> exact ⟨_, rfl⟩

theorem execRingTrainingTimeout_answers link (s : State) : ∃ t, execRingTrainingTimeout link s = .next t := by
  unfold execRingTrainingTimeout
  repeat' first | with_reducible exact ⟨_, rfl⟩ | (extract_lets +onlyGivenNames x; clear_value x) | split

theorem execRingReplayRequest_answers link seq (s : State) : ∃ t, execRingReplayRequest link seq s = .next t := by
  unfold execRingReplayRequest
  repeat' first | with_reducible exact ⟨_, rfl⟩ | (extract_lets +onlyGivenNames x; clear_value x) | split

theorem execPartialMessageTimeout_answers link (s : State) : ∃ t, execPartialMessageTimeout link s = .next t := by
  unfold execPartialMessageTimeout
  split <;> exact ⟨_, rfl⟩

theorem execEnumerationFlit_answers link term keeper depth (s : State) : ∃ t, execEnumerationFlit link term keeper depth s = .next t := by
  unfold execEnumerationFlit
  repeat' first | with_reducible exact ⟨_, rfl⟩ | (extract_lets +onlyGivenNames x; clear_value x) | split

theorem execEnumerationJoin_answers join (s : State) : ∃ t, execEnumerationJoin join s = .next t := by
  unfold execEnumerationJoin
  repeat' first | with_reducible exact ⟨_, rfl⟩ | split

theorem execEnumerationDirectory_answers entries homes (s : State) : ∃ t, execEnumerationDirectory entries homes s = .next t := by
  unfold execEnumerationDirectory
  split <;> exact ⟨_, rfl⟩

theorem execKeeperGatherExpiry_answers (s : State) : ∃ t, execKeeperGatherExpiry s = .next t := by
  unfold execKeeperGatherExpiry
  split <;> exact ⟨_, rfl⟩

theorem execAddressReserveExpiry_answers address (s : State) : ∃ t, execAddressReserveExpiry address s = .next t := by
  unfold execAddressReserveExpiry
  repeat' first | with_reducible exact ⟨_, rfl⟩ | split

theorem execLeave_answers (s : State) : ∃ t, execLeave s = .next t := by
  unfold execLeave
  split <;> exact ⟨_, rfl⟩

theorem execDeviceIsolatedTimeout_answers device (s : State) : ∃ t, execDeviceIsolatedTimeout device s = .next t := by
  unfold execDeviceIsolatedTimeout
  repeat' first | with_reducible exact ⟨_, rfl⟩ | split

theorem execTimeFlitSend_answers link (s : State) : ∃ t, execTimeFlitSend link s = .next t := by
  unfold execTimeFlitSend
  repeat' first | with_reducible exact ⟨_, rfl⟩ | (extract_lets +onlyGivenNames x; clear_value x) | split

theorem execTimeFlit_answers link flit (s : State) : ∃ t, execTimeFlit link flit s = .next t := by
  unfold execTimeFlit
  repeat' first | with_reducible exact ⟨_, rfl⟩ | (extract_lets +onlyGivenNames x; clear_value x) | split

theorem execParentTimeLost_answers (s : State) : ∃ t, execParentTimeLost s = .next t := by
  unfold execParentTimeLost
  repeat' first | with_reducible exact ⟨_, rfl⟩ | (extract_lets +onlyGivenNames x; clear_value x) | split

theorem execHoldoverExpiry_answers (s : State) : ∃ t, execHoldoverExpiry s = .next t := by
  unfold execHoldoverExpiry
  split <;> exact ⟨_, rfl⟩

theorem execKeeperLost_answers (s : State) : ∃ t, execKeeperLost s = .next t := by
  unfold execKeeperLost
  split <;> exact ⟨_, rfl⟩

theorem execFloorPassed_answers (s : State) : ∃ t, execFloorPassed s = .next t := by
  unfold execFloorPassed
  split <;> exact ⟨_, rfl⟩

theorem execTimeCeilingRewrite_answers (s : State) : ∃ t, execTimeCeilingRewrite s = .next t := by
  unfold execTimeCeilingRewrite
  split <;> exact ⟨_, rfl⟩

theorem execHeartbeatSend_answers (s : State) : ∃ t, execHeartbeatSend s = .next t := by
  unfold execHeartbeatSend
  split <;> exact ⟨_, rfl⟩

theorem execHeartbeat_answers beat (s : State) : ∃ t, execHeartbeat beat s = .next t := by
  unfold execHeartbeat
  repeat' first | with_reducible exact ⟨_, rfl⟩ | (extract_lets +onlyGivenNames x; clear_value x) | split

theorem execPeerSuspect_answers (s : State) : ∃ t, execPeerSuspect s = .next t := by
  unfold execPeerSuspect
  repeat' first | with_reducible exact ⟨_, rfl⟩ | (extract_lets +onlyGivenNames x; clear_value x) | split

theorem execStuckSuspectExpiry_answers (s : State) : ∃ t, execStuckSuspectExpiry s = .next t := by
  unfold execStuckSuspectExpiry
  split <;> exact ⟨_, rfl⟩

theorem execStartHeartbeatTimeout_answers (s : State) : ∃ t, execStartHeartbeatTimeout s = .next t := by
  unfold execStartHeartbeatTimeout
  split <;> exact ⟨_, rfl⟩

theorem execContestRetry_answers (s : State) : ∃ t, execContestRetry s = .next t := by
  unfold execContestRetry
  repeat' first | with_reducible exact ⟨_, rfl⟩ | split

theorem execForce_answers (s : State) : ∃ t, execForce s = .next t := by
  unfold execForce
  split <;> exact ⟨_, rfl⟩

theorem execEpochProposal_answers prop (s : State) : ∃ t, execEpochProposal prop s = .next t := by
  unfold execEpochProposal
  split <;> exact ⟨_, rfl⟩

theorem execEpochAccept_answers epoch (s : State) : ∃ t, execEpochAccept epoch s = .next t := by
  unfold execEpochAccept
  split <;> exact ⟨_, rfl⟩

theorem execForwardedCommand_answers h cap (s : State) : ∃ t, execForwardedCommand h cap s = .next t := by
  unfold execForwardedCommand
  repeat' first | with_reducible exact ⟨_, rfl⟩ | split

theorem execForwardedData_answers fromOwner h units (s : State) : ∃ t, execForwardedData fromOwner h units s = .next t := by
  unfold execForwardedData
  repeat' first | with_reducible exact ⟨_, rfl⟩ | split

theorem execForwardedCompletion_answers h (s : State) : ∃ t, execForwardedCompletion h s = .next t := by
  unfold execForwardedCompletion
  repeat' first | with_reducible exact ⟨_, rfl⟩ | (extract_lets +onlyGivenNames x; clear_value x) | split

theorem execMoveRequest_answers group take (s : State) : ∃ t, execMoveRequest group take s = .next t := by
  unfold execMoveRequest
  repeat' first | with_reducible exact ⟨_, rfl⟩ | (extract_lets +onlyGivenNames x; clear_value x) | split

theorem execMoveAccept_answers group gen (s : State) : ∃ t, execMoveAccept group gen s = .next t := by
  unfold execMoveAccept
  repeat' first | with_reducible exact ⟨_, rfl⟩ | (extract_lets +onlyGivenNames x; clear_value x) | split

theorem execOwnMove_answers value (s : State) : ∃ t, execOwnMove value s = .next t := by
  unfold execOwnMove
  repeat' first | with_reducible exact ⟨_, rfl⟩ | (extract_lets +onlyGivenNames x; clear_value x) | split

theorem execMoveDrained_answers (s : State) : ∃ t, execMoveDrained s = .next t := by
  unfold execMoveDrained
  repeat' first | with_reducible exact ⟨_, rfl⟩ | (extract_lets +onlyGivenNames x; clear_value x) | split

theorem execHealthReportSend_answers (s : State) : ∃ t, execHealthReportSend s = .next t := by
  unfold execHealthReportSend
  split <;> exact ⟨_, rfl⟩

theorem execHealthReport_answers ready trial (s : State) : ∃ t, execHealthReport ready trial s = .next t := by
  unfold execHealthReport
  split <;> exact ⟨_, rfl⟩

theorem execRejoinRequest_answers (s : State) : ∃ t, execRejoinRequest s = .next t := by
  unfold execRejoinRequest
  split <;> exact ⟨_, rfl⟩

theorem execScrubStep_answers (s : State) : ∃ t, execScrubStep s = .next t := by
  unfold execScrubStep
  split <;> exact ⟨_, rfl⟩

theorem execScrubDigest_answers what digest last (s : State) : ∃ t, execScrubDigest what digest last s = .next t := by
  unfold execScrubDigest
  split <;> exact ⟨_, rfl⟩

theorem execScrubPageRequest_answers what (s : State) : ∃ t, execScrubPageRequest what s = .next t := by
  unfold execScrubPageRequest
  split <;> exact ⟨_, rfl⟩

theorem execScrubPageImage_answers image (s : State) : ∃ t, execScrubPageImage image s = .next t := by
  unfold execScrubPageImage
  split <;> exact ⟨_, rfl⟩

theorem execSqFetch_answers slice ring entry (s : State) : ∃ t, execSqFetch slice ring entry s = .next t := by
  unfold execSqFetch
  repeat' first | with_reducible exact ⟨_, rfl⟩ | (extract_lets +onlyGivenNames x; clear_value x) | split

theorem execCqInterruptTimer_answers slice ring (s : State) : ∃ t, execCqInterruptTimer slice ring s = .next t := by
  unfold execCqInterruptTimer
  repeat' first | with_reducible exact ⟨_, rfl⟩ | split

theorem execHello_answers c major lo hi (s : State) : ∃ t, execHello c major lo hi s = .next t := by
  unfold execHello
  repeat' first | with_reducible exact ⟨_, rfl⟩ | (extract_lets +onlyGivenNames x; clear_value x) | split

theorem execSliceQuiesced_answers slice (s : State) : ∃ t, execSliceQuiesced slice s = .next t := by
  unfold execSliceQuiesced
  repeat' first | with_reducible exact ⟨_, rfl⟩ | (extract_lets +onlyGivenNames x; clear_value x) | split

theorem execMgrEnable_answers value (s : State) : ∃ t, execMgrEnable value s = .next t := by
  unfold execMgrEnable
  repeat' first | with_reducible exact ⟨_, rfl⟩ | (extract_lets +onlyGivenNames x; clear_value x) | split

theorem execDmaChPause_answers channel (s : State) : ∃ t, execDmaChPause channel s = .next t := by
  unfold execDmaChPause
  split <;> exact ⟨_, rfl⟩

theorem execDmaChResume_answers channel (s : State) : ∃ t, execDmaChResume channel s = .next t := by
  unfold execDmaChResume
  split <;> exact ⟨_, rfl⟩

theorem execDmaChWithdraw_answers channel (s : State) : ∃ t, execDmaChWithdraw channel s = .next t := by
  unfold execDmaChWithdraw
  split <;> exact ⟨_, rfl⟩

theorem execDmaBurstDone_answers channel host failure (s : State) : ∃ t, execDmaBurstDone channel host failure s = .next t := by
  unfold execDmaBurstDone
  repeat' first | with_reducible exact ⟨_, rfl⟩ | (extract_lets +onlyGivenNames x; clear_value x) | split

theorem execTokenRequest_answers quarter cls tokens (s : State) : ∃ t, execTokenRequest quarter cls tokens s = .next t := by
  unfold execTokenRequest
  split <;> exact ⟨_, rfl⟩

theorem execRecallTimeout_answers quarter (s : State) : ∃ t, execRecallTimeout quarter s = .next t := by
  unfold execRecallTimeout
  split <;> exact ⟨_, rfl⟩

theorem execBudgetWrite_answers value (s : State) : ∃ t, execBudgetWrite value s = .next t := by
  unfold execBudgetWrite
  split <;> exact ⟨_, rfl⟩

theorem execPowerCheck_answers millivolts measured (s : State) : ∃ t, execPowerCheck millivolts measured s = .next t := by
  unfold execPowerCheck
  repeat' first | with_reducible exact ⟨_, rfl⟩ | (extract_lets +onlyGivenNames x; clear_value x) | split

theorem execTrimDecay_answers (s : State) : ∃ t, execTrimDecay s = .next t := by
  unfold execTrimDecay
  split <;> exact ⟨_, rfl⟩

theorem execQuarterClockFault_answers quarter (s : State) : ∃ t, execQuarterClockFault quarter s = .next t := by
  unfold execQuarterClockFault
  split <;> exact ⟨_, rfl⟩

theorem execQuarterWake_answers quarter (s : State) : ∃ t, execQuarterWake quarter s = .next t := by
  unfold execQuarterWake
  repeat' first | with_reducible exact ⟨_, rfl⟩ | split

theorem execQuarterWakeDone_answers quarter (s : State) : ∃ t, execQuarterWakeDone quarter s = .next t := by
  unfold execQuarterWakeDone
  repeat' first | with_reducible exact ⟨_, rfl⟩ | (extract_lets +onlyGivenNames x; clear_value x) | split

theorem execQuarterDrained_answers quarter (s : State) : ∃ t, execQuarterDrained quarter s = .next t := by
  unfold execQuarterDrained
  repeat' first | with_reducible exact ⟨_, rfl⟩ | (extract_lets +onlyGivenNames x; clear_value x) | split

theorem execDrainTimeout_answers quarter (s : State) : ∃ t, execDrainTimeout quarter s = .next t := by
  unfold execDrainTimeout
  repeat' first | with_reducible exact ⟨_, rfl⟩ | (extract_lets +onlyGivenNames x; clear_value x) | split

theorem execCanaryError_answers quarter (s : State) : ∃ t, execCanaryError quarter s = .next t := by
  unfold execCanaryError
  repeat' first | with_reducible exact ⟨_, rfl⟩ | (extract_lets +onlyGivenNames x; clear_value x) | split

theorem execMarginPlan_answers reports (s : State) : ∃ t, execMarginPlan reports s = .next t := by
  unfold execMarginPlan
  split <;> exact ⟨_, rfl⟩

theorem execBootWriteComplete_answers result (s : State) : ∃ t, execBootWriteComplete result s = .next t := by
  unfold execBootWriteComplete
  repeat' first | with_reducible exact ⟨_, rfl⟩ | (extract_lets +onlyGivenNames x; clear_value x) | split

theorem execActivationPauseEnd_answers dropped (s : State) : ∃ t, execActivationPauseEnd dropped s = .next t := by
  unfold execActivationPauseEnd
  split <;> exact ⟨_, rfl⟩

theorem execRecoveryImage_answers bytes last (s : State) : ∃ t, execRecoveryImage bytes last s = .next t := by
  unfold execRecoveryImage
  split <;> exact ⟨_, rfl⟩

theorem execTestQuarter_answers quarter force (s : State) : ∃ t, execTestQuarter quarter force s = .next t := by
  unfold execTestQuarter
  repeat' first | with_reducible exact ⟨_, rfl⟩ | (extract_lets +onlyGivenNames x; clear_value x) | split

theorem execTestUnit_answers quarter unit (s : State) : ∃ t, execTestUnit quarter unit s = .next t := by
  unfold execTestUnit
  repeat' first | with_reducible exact ⟨_, rfl⟩ | (extract_lets +onlyGivenNames x; clear_value x) | split

theorem execCalibrateChannel_answers channel good (s : State) : ∃ t, execCalibrateChannel channel good s = .next t := by
  unfold execCalibrateChannel
  repeat' first | with_reducible exact ⟨_, rfl⟩ | split

theorem execTestStandby_answers quarter (s : State) : ∃ t, execTestStandby quarter s = .next t := by
  unfold execTestStandby
  repeat' first | with_reducible exact ⟨_, rfl⟩ | split

theorem execTestComplete_answers pass (s : State) : ∃ t, execTestComplete pass s = .next t := by
  unfold execTestComplete
  repeat' first | with_reducible exact ⟨_, rfl⟩ | split

theorem execRotationTimer_answers kind (s : State) : ∃ t, execRotationTimer kind s = .next t := by
  unfold execRotationTimer
  repeat' first | with_reducible exact ⟨_, rfl⟩ | split

theorem execStandbyTestTimer_answers kind (s : State) : ∃ t, execStandbyTestTimer kind s = .next t := by
  unfold execStandbyTestTimer
  repeat' first | with_reducible exact ⟨_, rfl⟩ | split

theorem execDdrCalibration_answers channel good (s : State) : ∃ t, execDdrCalibration channel good s = .next t := by
  unfold execDdrCalibration
  split <;> exact ⟨_, rfl⟩

theorem execDdrChannelLost_answers channel (s : State) : ∃ t, execDdrChannelLost channel s = .next t := by
  unfold execDdrChannelLost
  split <;> exact ⟨_, rfl⟩

theorem execEventPageWrite_answers (s : State) : ∃ t, execEventPageWrite s = .next t := by
  unfold execEventPageWrite
  split <;> exact ⟨_, rfl⟩

theorem execClearGo_answers (s : State) : ∃ t, execClearGo s = .next t := by
  unfold execClearGo
  repeat' first | with_reducible exact ⟨_, rfl⟩ | (extract_lets +onlyGivenNames x; clear_value x) | split

theorem execClearComplete_answers (s : State) : ∃ t, execClearComplete s = .next t := by
  unfold execClearComplete
  split <;> exact ⟨_, rfl⟩

theorem execHistSwap_answers (s : State) : ∃ t, execHistSwap s = .next t := by
  unfold execHistSwap
  split <;> exact ⟨_, rfl⟩

theorem execRingLinkTrained_answers link narrow (s : State) : ∃ t, execRingLinkTrained link narrow s = .next t := by
  unfold execRingLinkTrained
  repeat' first | with_reducible exact ⟨_, rfl⟩ | (extract_lets +onlyGivenNames x; clear_value x) | split

theorem execProxyReadData_answers id words (s : State) : ∃ t, execProxyReadData id words s = .next t := by
  unfold execProxyReadData
  repeat' first | with_reducible exact ⟨_, rfl⟩ | split

theorem execPoolMoveCopy_answers nsid (s : State) : ∃ t, execPoolMoveCopy nsid s = .next t := by
  unfold execPoolMoveCopy
  repeat' first | with_reducible exact ⟨_, rfl⟩ | (extract_lets +onlyGivenNames x; clear_value x) | split

theorem execRekeySweepStep_answers step (s : State) : ∃ t, execRekeySweepStep step s = .next t := by
  unfold execRekeySweepStep
  repeat' first | with_reducible exact ⟨_, rfl⟩ | (extract_lets +onlyGivenNames x; clear_value x) | split

theorem execMsixTableWrite_answers vector address data masked (s : State) :
    ∃ t, execMsixTableWrite vector address data masked s = .next t := by
  unfold execMsixTableWrite
  repeat' first | with_reducible exact ⟨_, rfl⟩ | (extract_lets +onlyGivenNames x; clear_value x) | split

theorem execD3hotTransition_answers hot (s : State) : ∃ t, execD3hotTransition hot s = .next t := by
  unfold execD3hotTransition
  repeat' first | with_reducible exact ⟨_, rfl⟩ | split

theorem execLeafHealthCompletion_answers id dies (s : State) : ∃ t, execLeafHealthCompletion id dies s = .next t := by
  unfold execLeafHealthCompletion
  repeat' first | with_reducible exact ⟨_, rfl⟩ | split

theorem execLogReadCompletion_answers id pages torn (s : State) : ∃ t, execLogReadCompletion id pages torn s = .next t := by
  unfold execLogReadCompletion
  repeat' first | with_reducible exact ⟨_, rfl⟩ | (extract_lets +onlyGivenNames x; clear_value x) | split

theorem State.sqDoorbell_answers (n ring v : Nat) (s : State) : ∃ t, s.sqDoorbell n ring v = .next t := by
  unfold State.sqDoorbell
  repeat' first | with_reducible exact ⟨_, rfl⟩ | split

theorem State.cqDoorbell_answers (n ring v : Nat) (s : State) : ∃ t, s.cqDoorbell n ring v = .next t := by
  unfold State.cqDoorbell
  repeat' first | with_reducible exact ⟨_, rfl⟩ | (extract_lets +onlyGivenNames x; clear_value x) | split

theorem execSqTailDoorbell_answers (offset size value : Nat) (s : State) :
    ∃ t, execSqTailDoorbell offset size value s = .next t := by
  unfold execSqTailDoorbell
  repeat' first | exact State.sqDoorbell_answers .. | with_reducible exact ⟨_, rfl⟩ | split

theorem execCqHeadDoorbell_answers (offset size value : Nat) (s : State) :
    ∃ t, execCqHeadDoorbell offset size value s = .next t := by
  unfold execCqHeadDoorbell
  repeat' first | exact State.cqDoorbell_answers .. | with_reducible exact ⟨_, rfl⟩ | split

/-- Every arm of every command's meaning ends in a next state. -/

theorem exec_answers (c : Instr) (s : State) : ∃ t, exec c s = .next t := by
  cases c with
  | registerWrite _ _ _ => exact execRegisterWrite_answers _ _ _ s
  | rcRead _ _ => exact execRcRead_answers _ _ s
  | badSizeAccess _ _ _ => exact execBadSizeAccess_answers _ _ _ s
  | setupLockWrite _ _ => exact execSetupLockWrite_answers _ _ s
  | vinGood _ => exact execVinGood_answers _ s
  | vinCollapse _ => exact execVinCollapse_answers _ s
  | vinOvervoltage _ => exact execVinOvervoltage_answers _ s
  | resetBallAssert => exact execResetBallAssert_answers s
  | strapSample _ _ => exact execStrapSample_answers _ _ s
  | bootImageLoaded => exact execBootImageLoaded_answers s
  | firmwareStart _ _ _ _ => exact execFirmwareStart_answers _ _ _ _ s
  | partSelfReset => exact execPartSelfReset_answers s
  | atsInvalidate _ => exact execAtsInvalidate_answers _ s
  | hostRequestFailed _ => exact execHostRequestFailed_answers _ s
  | frameReceive _ => exact execFrameReceive_answers _ s
  | linkChange _ _ => exact execLinkChange_answers _ _ s
  | ptpTxStampRead _ => exact execPtpTxStampRead_answers _ s
  | contextWritebackAck _ => exact execContextWritebackAck_answers _ s
  | contextEligible _ => exact execContextEligible_answers _ s
  | contextFetchDone _ _ _ => exact execContextFetchDone_answers _ _ _ s
  | laybyDrainPacket _ => exact execLaybyDrainPacket_answers _ s
  | ackCoalesceTimer _ => exact execAckCoalesceTimer_answers _ s
  | ackTimeout _ => exact execAckTimeout_answers _ s
  | rnrTimer _ => exact execRnrTimer_answers _ s
  | finalFlagProcess _ => exact execFinalFlagProcess_answers _ s
  | invalidationComplete _ => exact execInvalidationComplete_answers _ s
  | trnStateWrite _ => exact execTrnStateWrite_answers _ s
  | capsuleArrive _ => exact execCapsuleArrive_answers _ s
  | tagAssign => exact execTagAssign_answers s
  | keepAliveExpiry _ => exact execKeepAliveExpiry_answers _ s
  | cstsRdyClear _ => exact execCstsRdyClear_answers _ s
  | shutdownComplete _ => exact execShutdownComplete_answers _ s
  | ps3EntryEnd => exact execPs3EntryEnd_answers s
  | ps3ExitEnd => exact execPs3ExitEnd_answers s
  | digestStateDone _ => exact execDigestStateDone_answers _ s
  | dedupLookup _ _ _ _ => exact execDedupLookup_answers _ _ _ _ s
  | lookupAnswer _ _ _ => exact execLookupAnswer_answers _ _ _ s
  | verifyCompare _ _ _ => exact execVerifyCompare_answers _ _ _ s
  | reconcileEntry _ => exact execReconcileEntry_answers _ s
  | domainSweep _ => exact execDomainSweep_answers _ s
  | domainCfgWrite _ _ => exact execDomainCfgWrite_answers _ _ s
  | cascadeJournalEntry _ _ _ _ _ => exact execCascadeJournalEntry_answers _ _ _ _ _ s
  | cascadeHomeAnswer _ _ => exact execCascadeHomeAnswer_answers _ _ s
  | cascadeRelease _ _ _ => exact execCascadeRelease_answers _ _ _ s
  | remoteReadData _ _ _ => exact execRemoteReadData_answers _ _ _ s
  | containerDecode _ _ => exact execContainerDecode_answers _ _ s
  | secondCopyArrive _ _ _ => exact execSecondCopyArrive_answers _ _ _ s
  | jobSliceEnd _ _ _ _ => exact execJobSliceEnd_answers _ _ _ _ s
  | kekLoad _ => exact execKekLoad_answers _ s
  | mirrorWriteRecord _ _ => exact execMirrorWriteRecord_answers _ _ s
  | mirrorMetadataRecord _ _ => exact execMirrorMetadataRecord_answers _ _ s
  | mirrorReleaseRecord _ _ => exact execMirrorReleaseRecord_answers _ _ s
  | mirrorApplyDdrAck _ => exact execMirrorApplyDdrAck_answers _ s
  | mirrorAck _ => exact execMirrorAck_answers _ s
  | mirrorAckTimeout _ => exact execMirrorAckTimeout_answers _ s
  | soloDdrAck _ => exact execSoloDdrAck_answers _ s
  | segmentAgeExpiry _ => exact execSegmentAgeExpiry_answers _ s
  | laneStallResume _ => exact execLaneStallResume_answers _ s
  | frontLinksDown => exact execFrontLinksDown_answers s
  | destageSealed => exact execDestageSealed_answers s
  | powerFailNotice => exact execPowerFailNotice_answers s
  | pfHoldoffExpiry => exact execPfHoldoffExpiry_answers s
  | sewSignature _ _ => exact execSewSignature_answers _ _ s
  | logAppendAck _ => exact execLogAppendAck_answers _ s
  | logReseedDone _ => exact execLogReseedDone_answers _ s
  | folioWriteComplete _ => exact execFolioWriteComplete_answers _ s
  | folioWriteFail _ _ => exact execFolioWriteFail_answers _ _ s
  | grantRequest _ => exact execGrantRequest_answers _ s
  | gcCollect _ => exact execGcCollect_answers _ s
  | quireDrained _ => exact execQuireDrained_answers _ s
  | quireEraseComplete _ => exact execQuireEraseComplete_answers _ s
  | leafAbsentTimeout _ => exact execLeafAbsentTimeout_answers _ s
  | leafReturn _ => exact execLeafReturn_answers _ s
  | leafDrain _ => exact execLeafDrain_answers _ s
  | leafFail _ => exact execLeafFail_answers _ s
  | leafReadmit _ => exact execLeafReadmit_answers _ s
  | drainComplete _ => exact execDrainComplete_answers _ s
  | slowMemberTimeout _ => exact execSlowMemberTimeout_answers _ s
  | rebuildQuire => exact execRebuildQuire_answers s
  | acceptLoss _ => exact execAcceptLoss_answers _ s
  | patrolSignature _ _ _ => exact execPatrolSignature_answers _ _ _ s
  | poolEnable _ _ => exact execPoolEnable_answers _ _ s
  | poolMemberAdd _ _ _ => exact execPoolMemberAdd_answers _ _ _ s
  | leafHopActive _ _ => exact execLeafHopActive_answers _ _ s
  | leafHopDown _ _ => exact execLeafHopDown_answers _ _ s
  | leafHopDetect _ _ => exact execLeafHopDetect_answers _ _ s
  | leafReplayRequest _ _ _ => exact execLeafReplayRequest_answers _ _ _ s
  | leafEnumerationAnswer _ _ => exact execLeafEnumerationAnswer_answers _ _ s
  | leafIdentifyCompletion _ _ => exact execLeafIdentifyCompletion_answers _ _ s
  | leafReadCompletion _ _ _ _ => exact execLeafReadCompletion_answers _ _ _ _ s
  | leafErrorCompletion _ _ => exact execLeafErrorCompletion_answers _ _ s
  | proxyLeafRead _ _ _ _ _ _ => exact execProxyLeafRead_answers _ _ _ _ _ _ s
  | plannerMeasurements _ => exact execPlannerMeasurements_answers _ s
  | planInterval => exact execPlanInterval_answers s
  | witnessReadCompletion _ _ => exact execWitnessReadCompletion_answers _ _ s
  | witnessCasCompletion _ _ => exact execWitnessCasCompletion_answers _ _ s
  | pageInComplete _ _ => exact execPageInComplete_answers _ _ s
  | reclaimPage => exact execReclaimPage_answers s
  | poolMoveComplete _ => exact execPoolMoveComplete_answers _ s
  | cgArm _ => exact execCgArm_answers _ s
  | cgAbandon _ => exact execCgAbandon_answers _ s
  | mapCacheFill _ _ => exact execMapCacheFill_answers _ _ s
  | mapCacheEnable _ => exact execMapCacheEnable_answers _ s
  | invalidateAll => exact execInvalidateAll_answers s
  | invalidateRange _ => exact execInvalidateRange_answers _ s
  | invalidateDone => exact execInvalidateDone_answers s
  | difference _ => exact execDifference_answers _ s
  | replicationAck _ _ => exact execReplicationAck_answers _ _ s
  | probe _ _ => exact execProbe_answers _ _ s
  | probeTimer _ => exact execProbeTimer_answers _ s
  | envelopeRelease _ _ => exact execEnvelopeRelease_answers _ _ s
  | batchClose _ => exact execBatchClose_answers _ s
  | idleWatermark _ => exact execIdleWatermark_answers _ s
  | anchorPeriod _ => exact execAnchorPeriod_answers _ s
  | replicationLinkDown _ => exact execReplicationLinkDown_answers _ s
  | suspendExpiry _ => exact execSuspendExpiry_answers _ s
  | setEnable _ _ _ _ => exact execSetEnable_answers _ _ _ _ s
  | replicationLinkEnable _ _ => exact execReplicationLinkEnable_answers _ _ s
  | resynchronise _ => exact execResynchronise_answers _ s
  | reverse _ => exact execReverse_answers _ s
  | promote _ => exact execPromote_answers _ s
  | programTableUpdate _ _ _ => exact execProgramTableUpdate_answers _ _ _ s
  | pieceDeliver _ _ _ => exact execPieceDeliver_answers _ _ _ s
  | budgetExceeded _ => exact execBudgetExceeded_answers _ s
  | runComplete _ => exact execRunComplete_answers _ s
  | resultKeepExpiry _ => exact execResultKeepExpiry_answers _ s
  | tileFence _ => exact execTileFence_answers _ s
  | acctClear _ => exact execAcctClear_answers _ s
  | ringHello _ _ => exact execRingHello_answers _ _ s
  | ringLinkDown _ _ => exact execRingLinkDown_answers _ _ s
  | ringLinkDetect _ => exact execRingLinkDetect_answers _ s
  | ringTrainingTimeout _ => exact execRingTrainingTimeout_answers _ s
  | ringReplayRequest _ _ => exact execRingReplayRequest_answers _ _ s
  | partialMessageTimeout _ => exact execPartialMessageTimeout_answers _ s
  | enumerationFlit _ _ _ _ => exact execEnumerationFlit_answers _ _ _ _ s
  | enumerationJoin _ => exact execEnumerationJoin_answers _ s
  | enumerationDirectory _ _ => exact execEnumerationDirectory_answers _ _ s
  | keeperGatherExpiry => exact execKeeperGatherExpiry_answers s
  | addressReserveExpiry _ => exact execAddressReserveExpiry_answers _ s
  | leave => exact execLeave_answers s
  | deviceIsolatedTimeout _ => exact execDeviceIsolatedTimeout_answers _ s
  | timeFlitSend _ => exact execTimeFlitSend_answers _ s
  | timeFlit _ _ => exact execTimeFlit_answers _ _ s
  | parentTimeLost => exact execParentTimeLost_answers s
  | holdoverExpiry => exact execHoldoverExpiry_answers s
  | keeperLost => exact execKeeperLost_answers s
  | floorPassed => exact execFloorPassed_answers s
  | timeCeilingRewrite => exact execTimeCeilingRewrite_answers s
  | heartbeatSend => exact execHeartbeatSend_answers s
  | heartbeat _ => exact execHeartbeat_answers _ s
  | peerSuspect => exact execPeerSuspect_answers s
  | stuckSuspectExpiry => exact execStuckSuspectExpiry_answers s
  | startHeartbeatTimeout => exact execStartHeartbeatTimeout_answers s
  | contestRetry => exact execContestRetry_answers s
  | force => exact execForce_answers s
  | epochProposal _ => exact execEpochProposal_answers _ s
  | epochAccept _ => exact execEpochAccept_answers _ s
  | forwardedCommand _ _ => exact execForwardedCommand_answers _ _ s
  | forwardedData _ _ _ => exact execForwardedData_answers _ _ _ s
  | forwardedCompletion _ => exact execForwardedCompletion_answers _ s
  | moveRequest _ _ => exact execMoveRequest_answers _ _ s
  | moveAccept _ _ => exact execMoveAccept_answers _ _ s
  | ownMove _ => exact execOwnMove_answers _ s
  | moveDrained => exact execMoveDrained_answers s
  | healthReportSend => exact execHealthReportSend_answers s
  | healthReport _ _ => exact execHealthReport_answers _ _ s
  | rejoinRequest => exact execRejoinRequest_answers s
  | scrubStep => exact execScrubStep_answers s
  | scrubDigest _ _ _ => exact execScrubDigest_answers _ _ _ s
  | scrubPageRequest _ => exact execScrubPageRequest_answers _ s
  | scrubPageImage _ => exact execScrubPageImage_answers _ s
  | sqTailDoorbell _ _ _ => exact execSqTailDoorbell_answers _ _ _ s
  | cqHeadDoorbell _ _ _ => exact execCqHeadDoorbell_answers _ _ _ s
  | sqFetch _ _ _ => exact execSqFetch_answers _ _ _ s
  | cqInterruptTimer _ _ => exact execCqInterruptTimer_answers _ _ s
  | hello _ _ _ _ => exact execHello_answers _ _ _ _ s
  | sliceQuiesced _ => exact execSliceQuiesced_answers _ s
  | mgrEnable _ => exact execMgrEnable_answers _ s
  | dmaChPause _ => exact execDmaChPause_answers _ s
  | dmaChResume _ => exact execDmaChResume_answers _ s
  | dmaChWithdraw _ => exact execDmaChWithdraw_answers _ s
  | dmaBurstDone _ _ _ => exact execDmaBurstDone_answers _ _ _ s
  | tokenRequest _ _ _ => exact execTokenRequest_answers _ _ _ s
  | recallTimeout _ => exact execRecallTimeout_answers _ s
  | budgetWrite _ => exact execBudgetWrite_answers _ s
  | powerCheck _ _ => exact execPowerCheck_answers _ _ s
  | trimDecay => exact execTrimDecay_answers s
  | quarterClockFault _ => exact execQuarterClockFault_answers _ s
  | quarterWake _ => exact execQuarterWake_answers _ s
  | quarterWakeDone _ => exact execQuarterWakeDone_answers _ s
  | quarterDrained _ => exact execQuarterDrained_answers _ s
  | drainTimeout _ => exact execDrainTimeout_answers _ s
  | canaryError _ => exact execCanaryError_answers _ s
  | marginPlan _ => exact execMarginPlan_answers _ s
  | bootWriteComplete _ => exact execBootWriteComplete_answers _ s
  | activationPauseEnd _ => exact execActivationPauseEnd_answers _ s
  | recoveryImage _ _ => exact execRecoveryImage_answers _ _ s
  | testQuarter _ _ => exact execTestQuarter_answers _ _ s
  | testUnit _ _ => exact execTestUnit_answers _ _ s
  | calibrateChannel _ _ => exact execCalibrateChannel_answers _ _ s
  | testStandby _ => exact execTestStandby_answers _ s
  | testComplete _ => exact execTestComplete_answers _ s
  | rotationTimer _ => exact execRotationTimer_answers _ s
  | standbyTestTimer _ => exact execStandbyTestTimer_answers _ s
  | ddrCalibration _ _ => exact execDdrCalibration_answers _ _ s
  | ddrChannelLost _ => exact execDdrChannelLost_answers _ s
  | eventPageWrite => exact execEventPageWrite_answers s
  | clearGo => exact execClearGo_answers s
  | clearComplete => exact execClearComplete_answers s
  | histSwap => exact execHistSwap_answers s
  | ringLinkTrained _ _ => exact execRingLinkTrained_answers _ _ s
  | proxyReadData _ _ => exact execProxyReadData_answers _ _ s
  | poolMoveCopy _ => exact execPoolMoveCopy_answers _ s
  | rekeySweepStep _ => exact execRekeySweepStep_answers _ s
  | msixTableWrite _ _ _ _ => exact execMsixTableWrite_answers _ _ _ _ s
  | d3hotTransition _ => exact execD3hotTransition_answers _ s
  | leafHealthCompletion _ _ => exact execLeafHealthCompletion_answers _ _ s
  | logReadCompletion _ _ _ => exact execLogReadCompletion_answers _ _ _ s
  | _ => exact ⟨_, rfl⟩

/-- Settles O41. -/
theorem everyCommandAnswers : Obligations.EveryCommandAnswers := by
  unfold Obligations.EveryCommandAnswers
  exact fun s c => exec_answers c s

end Sys2Proof.Machine
end

section
/-!
Register accesses at addresses without a field and at the 64-bit counters (O47, O50).
-/
namespace Sys2Proof.Machine
open Sys2Proof

/-! Register accesses -/

theorem Reg.ofBlock_eq_nil {b : Nat} (h : 22 ≤ b) : Reg.ofBlock b = [] := by
  unfold Reg.ofBlock
  split <;> first | omega | rfl

/-- No field stands behind the last block of BAR0 (R8, R478). -/
theorem Reg.fieldsAt_reserved {a : Nat} (h : 0x01600000 ≤ a) : Reg.fieldsAt a = [] := by
  unfold Reg.fieldsAt
  rw [Reg.ofBlock_eq_nil (by omega)]
  rfl

theorem State.readWord_of_no_field {s : State} {a : Nat} (h : Reg.fieldsAt a = []) (whole : Bool) : s.readWord a whole = (0, s) := by
  cases whole <;> simp [State.readWord, h, State.readClear]

theorem Reg.wideAt_of_no_field {a : Nat} (h : Reg.fieldsAt a = []) : Reg.wideAt a = false := by
  simp [Reg.wideAt, h]

theorem State.writeWord_of_no_field {s before : State} {a : Nat} (h : Reg.fieldsAt a = []) (v : Nat) : s.writeWord before a v = s := by
  simp [State.writeWord, State.wordUpdates, h]

/-- What follows from a write that changed nothing is nothing. -/
theorem State.afterWrite_self (s : State) : s.afterWrite s = s := by
  have stay {α : Type} (l : List α) (f : State → α → State) (h : ∀ x, f s x = s) : l.foldl f s = s := by
    induction l with
    | nil => rfl
    | cons x r ih => rw [List.foldl_cons, h, ih]
  unfold State.afterWrite
  simp [stay]

/-- Settles O47: where no field stands, a read is of no bytes and a write updates nothing. -/
theorem reservedSpace : Obligations.ReservedSpace := by
  unfold Obligations.ReservedSpace
  refine ⟨fun s a z hlo _ hgood hconv => ?_, fun s a z v hlo _ => ?_⟩
  · have here := Reg.fieldsAt_reserved hlo
    have next := Reg.fieldsAt_reserved (a := a + 4) (by omega)
    show execRcRead a z s = _
    simp [execRcRead, hgood, hconv, State.readWord_of_no_field here, State.readWord_of_no_field next, Reg.wideAt_of_no_field here]
  · have here := Reg.fieldsAt_reserved hlo
    have next := Reg.fieldsAt_reserved (a := a + 4) (by omega)
    show execRegisterWrite a z v s = _
    simp [execRegisterWrite, State.writeWord_of_no_field here, State.writeWord_of_no_field next, Reg.wideAt_of_no_field here,
      State.afterWrite_self]

/-! Wide counters -/

/-- The 64-bit counters that a read clears (R502). -/
def Reg.wideCounters : List RField :=
  [Reg.BND_COMP_BYTES_IN.BYTES, Reg.BND_COMP_BYTES_OUT.BYTES, Reg.REP_BYTES_OUT.BYTES, Reg.REP_BYTES_IN.BYTES, Reg.DMA_BYTES.BYTES]

theorem Reg.wideCounters_at : ∀ f ∈ Reg.wideCounters, Reg.fieldsAt f.base = [(f, 0, 0, false)] ∧
    Reg.fieldsAt (f.base + 4) = [(f, 0, 0, true)] := by decide
theorem Reg.wideCounters_shape : ∀ f ∈ Reg.wideCounters, f.acc = .rc ∧ f.wide = true ∧ f.lsb = 0 ∧ f.base % 8 = 0 ∧
    f ≠ Reg.ETH_PTP_TX_STAMP_HI.VALID := by decide
theorem Reg.mem_wideCounters : ∀ f ∈ Reg.all, f.acc = .rc → f.wide = true → f ∈ Reg.wideCounters := by decide +kernel

section
variable {f : RField} (hf : f ∈ Reg.wideCounters)
include hf

theorem State.readClear_wideCounter (s : State) (upper : Bool) : s.readClear [(f, 0, 0, upper)] = (s.rcSplit f 0 0).1 := by
  obtain ⟨hacc, -, hlsb, -, -⟩ := Reg.wideCounters_shape f hf
  simp [State.readClear, hacc, hlsb]

/-- A read of the lower half, or of the whole, clears the counter but for what came in this clock (R502, R13). -/
theorem State.readWord_wideCounter (s : State) (whole : Bool) : ∃ h,
    s.readWord f.base whole = (if whole then (s.rcSplit f 0 0).1 else (s.rcSplit f 0 0).1 % 2 ^ 32,
      { s.wr f (s.rcSplit f 0 0).2 with holding := h }) ∧
    (whole = false → Table.get f.block 0 h.upper = (s.rcSplit f 0 0).1 / 2 ^ 32) := by
  obtain ⟨hacc, hwide, -, -, hstamp⟩ := Reg.wideCounters_shape f hf
  unfold State.readWord
  simp only [(Reg.wideCounters_at f hf).1, State.readClear_wideCounter hf, List.any_cons, List.any_nil, Bool.or_false, Bool.false_and,
    Bool.false_eq_true, if_false, List.find?_cons, beq_eq_false_iff_ne.2 hstamp, List.find?_nil, List.filter_cons, hacc, beq_self_eq_true,
    if_true, List.filter_nil, List.foldl_cons, List.foldl_nil, State.clearRead, hwide, Bool.true_and]
  cases whole
  · exact ⟨_, rfl, fun _ => Table.get_put_same ..⟩
  · exact ⟨_, rfl, nofun⟩

/-- A read of the upper half returns the holding register of the block (R502). -/
theorem State.readWord_wideCounter_upper (s : State) :
    s.readWord (f.base + 4) false = (Table.get f.block 0 s.holding.upper, s) := by
  obtain ⟨hacc, -, -, haligned, -⟩ := Reg.wideCounters_shape f hf
  have hblock : (f.base + 4) / 0x100000 = f.block := by
    unfold RField.block
    omega
  simp [State.readWord, (Reg.wideCounters_at f hf).2, hacc, hblock]

end

theorem State.rcSplit_wide (s : State) {f : RField} (h : f.wide = true) (i j : Nat) :
    s.rcSplit f i j = (min (s.seen f i j) (s.rd f i j), s.rd f i j - s.seen f i j) := by
  simp [State.rcSplit, h]

/-- A command that sends one output sends it. -/
theorem sends_send (s t : State) (o : Out) (h : t.out = s.out) : Sends s (t.send o) o := ⟨[o], by simp [h], by simp⟩

/-- Settles O50: the reads of the five counters' halves and wholes, from what `readWord` does at their addresses. -/
theorem halvesOfWideCounters : Obligations.HalvesOfWideCounters := by
  unfold Obligations.HalvesOfWideCounters
  refine ⟨Reg.mem_wideCounters, fun s f hf hconv hwr => ?_⟩
  change f ∈ Reg.wideCounters at hf
  obtain ⟨-, hwide, -, haligned, -⟩ := Reg.wideCounters_shape f hf
  have hwideAt : Reg.wideAt f.base = true := by simp [Reg.wideAt, (Reg.wideCounters_at f hf).1, hwide]
  have hgood4 : goodSize f.base 4 = true := by simp [goodSize]; omega
  have hgood8 : goodSize f.base 8 = true := by simp [goodSize, haligned]
  have hgoodUp : goodSize (f.base + 4) 4 = true := by simp [goodSize]; omega
  have hwrUp : s.writable ((f.base + 4) / 0x100000) = true := by
    have : (f.base + 4) / 0x100000 = f.block := by unfold RField.block; omega
    rw [this, hwr]
  have hwr' : s.writable (f.base / 0x100000) = true := hwr
  refine ⟨fun hseen => ?_, ?_, ?_, ?_, ?_⟩
  · simp [State.rcSplit_wide s hwide, hseen]
  · rw [State.rcSplit_wide s hwide]
    simp only
    omega
  · obtain ⟨h, hread, -⟩ := State.readWord_wideCounter hf s true
    refine ⟨_, show execRcRead f.base 8 s = .next _ by simp [execRcRead, hgood8, hconv, hwr', hwideAt, hread]; rfl, ?_, ?_⟩
    · exact sends_send _ _ _ rfl
    · exact State.rd_wr_same ..
  · obtain ⟨h, hread, hupper⟩ := State.readWord_wideCounter hf s false
    refine ⟨_, show execRcRead f.base 4 s = .next _ by simp [execRcRead, hgood4, hconv, hwr', hread]; rfl, ?_, ?_, ?_⟩
    · exact sends_send _ _ _ rfl
    · exact State.rd_wr_same ..
    · exact hupper rfl
  · show execRcRead (f.base + 4) 4 s = _
    simp [execRcRead, hgoodUp, hconv, hwrUp, State.readWord_wideCounter_upper hf]

end Sys2Proof.Machine
end

section
/-!
The clock that passes on an empty queue (O39).
-/
namespace Sys2Proof.Machine
open Sys2Proof

/-- Where no part of the register file is listed, the register file stays. -/
theorem OnlyIn.regs_eq {ps : List Part} {s t : State} (h : OnlyIn ps s t) (hp : ps.any Part.inRegs = false) : t.regs = s.regs := by
  have blanked (ps : List Part) (hp : ps.any Part.inRegs = false) (s : State) : (s.blankAll ps).regs = s.regs := by
    induction ps generalizing s with
    | nil => rfl
    | cons p r ih =>
      rw [List.any_cons, Bool.or_eq_false_iff] at hp
      rw [State.blankAll, ih hp.2]
      cases p <;> first | rfl | simp [Part.inRegs] at hp
  rw [← blanked ps hp t, h, blanked ps hp]

/-! What a clock moves on the links and lanes (R224, R335) -/

/-- On the links the channels and the outputs move alone. -/
theorem pumpLinks_within (s : State) : Within [.chan, .out] s s.pumpLinks := State.pumpLinks_frame (.refl _ _) rfl

/-- Where no channel holds a message, none sends next. -/
theorem State.nextChannel_none {s : State} (h : ∀ e ∈ s.chan.waiting, e.2 = []) (l : Nat) : s.nextChannel l = none := by
  have empty (k : Nat) : Table.get k [] s.chan.waiting = [] := by
    generalize s.chan.waiting = w at h
    induction w with
    | nil => rfl
    | cons e r ih =>
      have here := h e (by simp)
      have rest := ih fun x hx => h x (by simp [hx])
      simp only [Table.get, Table.find] at rest ⊢
      split
      · exact here
      · exact rest
  simp [State.nextChannel, empty]

theorem State.pumpLink_idle {s : State} (h : ∀ e ∈ s.chan.waiting, e.2 = []) (l n : Nat) : State.pumpLink l n s = s := by
  cases n with
  | zero => rfl
  | succ n => simp [State.pumpLink, State.nextChannel_none h]

theorem State.pumpLinks_idle_out {s : State} (h : ∀ e ∈ s.chan.waiting, e.2 = []) : s.pumpLinks.out = s.out := by
  have stay {u : State} (h : ∀ e ∈ u.chan.waiting, e.2 = []) (ls : List Nat) :
      ls.foldl (fun s l => State.pumpLink l ((s.chan.waiting.map fun e => e.2.length).sum) s) u = u := by
    induction ls with
    | nil => rfl
    | cons l r ih => rw [List.foldl_cons, State.pumpLink_idle h, ih]
  unfold State.pumpLinks
  extract_lets busy channels u
  have hu : ∀ e ∈ u.chan.waiting, e.2 = [] := h
  have hout : u.out = s.out := rfl
  rw [stay hu, hout]

/-- Where every command at a leaf has a row that ends it, the lanes send what waits and nothing else changes. -/
theorem pumpLeaves_within {s : State} (h : ∀ e ∈ s.lfl.ops, e.2.for_.answered = true) : Within [.lfl, .out] s s.pumpLeaves := by
  have none_taken : (s.lfl.ops.filter fun e => e.2.tag.isSome && !e.2.for_.answered) = [] := by
    rw [List.filter_eq_nil_iff]
    intro e he
    simp [h e he]
  simp only [State.pumpLeaves, none_taken, List.foldl_nil]
  refine Within.foldl _ ?_ fun u e => State.sendNext_frame _ (.refl _ _) rfl
  exact (Within.refl [.lfl, .out] s).put (a := [.lfl]) rfl rfl rfl rfl rfl

theorem State.pumpLeaves_idle_out {s : State} (h : ∀ e ∈ s.lfl.ops, e.2.for_.answered = true) (hw : ∀ e ∈ s.lfl.ops, e.2.waits = false) :
    s.pumpLeaves.out = s.out := by
  have none_taken : (s.lfl.ops.filter fun e => e.2.tag.isSome && !e.2.for_.answered) = [] := by
    rw [List.filter_eq_nil_iff]
    intro e he
    simp [h e he]
  have none_waits : (s.lfl.ops.filter fun e => e.2.waits) = [] := by
    rw [List.filter_eq_nil_iff]
    intro e he
    simp [hw e he]
  simp [State.pumpLeaves, none_taken, none_waits]

/-- A clock leaves the parts alone that neither links nor lanes touch. -/
theorem pump_parts (s : State) : Within [.block 4, .block 6, .block 15, .evt, .nor, .host, .lfl, .chan, .out, .hostWait] s s.pumpLinks.pumpLeaves :=
  State.pumpLeaves_frame (State.pumpLinks_frame (.refl _ _) rfl) rfl

/-- Beside the clocks a tick is what the links and lanes do. -/
theorem tick_pumped {s u : State} (hu : s.pumpLinks.pumpLeaves = u) : s.tick.mem = u.mem ∧ s.tick.power = u.power ∧ s.tick.cmd = u.cmd ∧
    s.tick.map = u.map ∧ s.tick.lfl = u.lfl ∧ s.tick.regs = u.regs ∧ s.tick.out = u.out ∧ s.tick.holding.seen = u.regs ∧
    s.tick.holding.raised = [] ∧ u.ringTime ≤ s.tick.ringTime := by
  simp only [State.tick, hu, true_and]
  split
  · exact Nat.le_add_right ..
  · exact Nat.le_refl _

/-- A clock on a state where one block claim has its tag: the leaf has accepted it, and the block is this head's (R231). -/
theorem tick_accepts_claim {s : State} {id b : Nat} {op : LeafOp} (hops : s.lfl.ops = [(id, op)]) (htag : op.tag.isSome = true)
    (hfor : op.for_ = .grant 0 b) : s.tick.lfl.ops = [] ∧ Table.find b (s.tick.leaf op.leaf).blocks = some true := by
  have same : s.pumpLinks.lfl = s.lfl := (pumpLinks_within s).only.lfl rfl
  rw [← same] at hops
  generalize hu : s.pumpLinks = u at hops
  have hpump : u.pumpLeaves.lfl.ops = [] ∧ Table.find b (u.pumpLeaves.leaf op.leaf).blocks = some true := by
    simp [State.pumpLeaves, hops, htag, hfor, LeafFor.answered, State.acceptOp, State.setBlocks, State.putLeaf, State.leaf,
      Table.drop, Table.find_put_same]
  obtain ⟨-, -, -, -, hlfl, -⟩ := tick_pumped (congrArg State.pumpLeaves hu)
  simpa only [State.leaf, hlfl] using hpump

/-- Settles O39: what the links and lanes of a clock leave alone, and the claim that a leaf accepts. -/
theorem idleStepIsATick : Obligations.IdleStepIsATick := by
  unfold Obligations.IdleStepIsATick
  refine ⟨fun s hq => ?_, fun s id op b hq hops htag hfor => ⟨s.tick, step_nil hq, tick_accepts_claim hops htag hfor⟩⟩
  have parts := pump_parts s
  obtain ⟨hmem, hpower, hcmd, hmap, -, hregs, hout, hseen, hraised, htime⟩ := tick_pumped (s := s) rfl
  rw [hmem, hpower, hcmd, hmap, hseen, hraised, hregs, hout]
  refine ⟨step_nil hq, tick_clock s, parts.only.mem rfl, parts.only.power rfl, parts.only.cmd rfl, parts.only.map rfl,
    (parts.only.ringTime rfl).ge.trans htime, rfl, rfl, ?_, fun hans => ?_⟩
  · obtain ⟨new, hnew⟩ := parts.sent
    exact ⟨new, hnew.symm⟩
  · have hlinks := pumpLinks_within s
    have hlfl : s.pumpLinks.lfl = s.lfl := hlinks.only.lfl rfl
    rw [← hlfl] at hans ⊢
    refine ⟨?_, fun hchan hwaits => ?_⟩
    · exact ((pumpLeaves_within hans).only.regs_eq rfl).trans (hlinks.only.regs_eq rfl)
    · exact (State.pumpLeaves_idle_out hans hwaits).trans (State.pumpLinks_idle_out hchan)

end Sys2Proof.Machine
end

section
/-!
Outputs, rings and slices: what a CQ entry, an interrupt and a completion do; and the commands on rings and doorbells (O8).
-/
namespace Sys2Proof.Machine
open Sys2Proof

/-! Outputs -/

theorem Sends.refl_send (s : State) (o : Out) : Sends s (s.send o) o := ⟨[o], rfl, List.mem_singleton.2 rfl⟩

/-- What has been sent stays sent. -/
theorem Sends.later {s t u : State} {o : Out} (h : Sends s t o) (g : t.out <:+ u.out) : Sends s u o := by
  obtain ⟨new, hnew, ho⟩ := h
  obtain ⟨more, hmore⟩ := g
  exact ⟨more ++ new, by rw [← hmore, hnew, List.append_assoc], List.mem_append_right _ ho⟩

/-- What is sent beyond a state is sent beyond an earlier one. -/
theorem Sends.earlier {r s t : State} {o : Out} (g : r.out <:+ s.out) (h : Sends s t o) : Sends r t o := by
  obtain ⟨new, hnew, ho⟩ := h
  obtain ⟨more, hmore⟩ := g
  exact ⟨new ++ more, by rw [hnew, ← hmore, List.append_assoc], List.mem_append_left _ ho⟩

/-! Vectors, rings and slices -/

theorem State.sendHost_d0 {s : State} (h : s.host.d3hot = false) (o : Out) : s.sendHost o = s.send o := by
  simp [State.sendHost, h]

@[simp] theorem State.sendHost_host (s : State) (o : Out) : (s.sendHost o).host = s.host := by
  unfold State.sendHost
  split <;> rfl

@[simp] theorem State.fireVector_slices (s : State) (v : Nat) : (s.fireVector v).host.slices = s.host.slices := by
  unfold State.fireVector
  extract_lets e
  split <;> rfl

theorem State.fireVector_sends {s : State} {v : Nat} (hm : (Table.get v {} s.host.msix).masked = false) (hd : s.host.d3hot = false) :
    Sends s (s.fireVector v) (.msix v (Table.get v {} s.host.msix).address (Table.get v {} s.host.msix).data) := by
  simp only [State.fireVector, hm, hd, Bool.or_self, Bool.false_eq_true, if_false]
  exact Sends.refl_send ..

@[simp] theorem State.find_setSlice (s : State) (n : Nat) (sl : Slice) : Table.find n (s.setSlice n sl).host.slices = some sl :=
  Table.find_put_same ..

theorem State.find_setRing (s : State) (n : Nat) (sl : Slice) (k : Nat) (r : Ring) :
    Table.find n (s.setRing n sl k r).host.slices = some { sl with rings := Table.put k r sl.rings } :=
  State.find_setSlice ..

/-- A slice has become another whose rings alone may differ, and of those only ring `k`: its head, its tail, its size and place stay. -/
structure RingMoved (k : Nat) (sl sl' : Slice) : Prop where
  rest   : sl' = { sl with rings := sl'.rings }
  others : ∀ j, j ≠ k → Table.find j sl'.rings = Table.find j sl.rings

theorem RingMoved.refl (k : Nat) (sl : Slice) : RingMoved k sl sl := ⟨rfl, fun _ _ => rfl⟩

theorem RingMoved.trans {k : Nat} {a b c : Slice} (h : RingMoved k a b) (g : RingMoved k b c) : RingMoved k a c := by
  refine ⟨?_, fun j hj => (g.others j hj).trans (h.others j hj)⟩
  have hb := h.rest
  have hc := g.rest
  rw [hb] at hc
  exact hc

theorem RingMoved.put (k : Nat) (sl : Slice) (r : Ring) : RingMoved k sl { sl with rings := Table.put k r sl.rings } :=
  ⟨rfl, fun _ hj => Table.find_put_other hj ..⟩

/-- A look at a ring's interrupt disarms the ring at most (R395). -/
theorem State.pollRing_slice {s : State} {n k : Nat} {sl : Slice} {r : Ring} (hsl : Table.find n s.host.slices = some sl)
    (hr : Table.find k sl.rings = some r) : ∃ sl' a, Table.find n (s.pollRing n k).host.slices = some sl' ∧ RingMoved k sl sl' ∧
      Table.find k sl'.rings = some { r with armed := a } := by
  simp only [State.pollRing, hsl, hr]
  split
  · refine ⟨_, false, ?_, RingMoved.put k sl { r with armed := false }, Table.find_put_same ..⟩
    rw [State.fireVector_slices, State.find_setRing]
  · exact ⟨sl, r.armed, hsl, .refl k sl, hr⟩

/-- A CQ entry written moves its own ring alone. -/
theorem State.cqWrite_slice {s : State} {n k : Nat} {sl : Slice} {r : Ring} (hsl : Table.find n s.host.slices = some sl)
    (hr : Table.find k sl.rings = some r) (cid status r0 r1 : Nat) (noIrq isEvent : Bool) :
    ∃ sl' r', Table.find n (s.cqWrite n k cid status r0 r1 noIrq isEvent).host.slices = some sl' ∧ RingMoved k sl sl' ∧
      Table.find k sl'.rings = some r' := by
  simp only [State.cqWrite, hsl, hr]
  generalize hr' : ({ r with
    cqTail := (r.cqTail + 1) % 2 ^ r.cqLog2
    phase := if r.cqTail + 1 = 2 ^ r.cqLog2 then 1 - r.phase else r.phase
    waiting := r.waiting ++ [(s.clock, noIrq, isEvent)] } : Ring) = r'
  obtain ⟨sl', a, hfind, hmoved, hring⟩ := State.pollRing_slice (n := n) (k := k)
    (s := (s.setRing n sl k r').sendHost (.cqEntry n k cid status r.sqHead r0 r1 r.phase)) (r := r')
    (by rw [State.sendHost_host, State.find_setRing]) (Table.find_put_same ..)
  exact ⟨sl', _, hfind, (RingMoved.put k sl r').trans hmoved, hring⟩

/-- In D0 a CQ entry is sent to the host (R392). -/
theorem State.cqWrite_sends {s : State} {n k : Nat} {sl : Slice} {r : Ring} (hsl : Table.find n s.host.slices = some sl)
    (hr : Table.find k sl.rings = some r) (hd : s.host.d3hot = false) (cid status r0 r1 : Nat) (noIrq isEvent : Bool) :
    Sends s (s.cqWrite n k cid status r0 r1 noIrq isEvent) (.cqEntry n k cid status r.sqHead r0 r1 r.phase) := by
  simp only [State.cqWrite, hsl, hr]
  rw [State.sendHost_d0 (by exact hd)]
  refine Sends.later ?_ (State.pollRing_frame (ps := [.host, .out]) n k (.refl _ _) rfl).sent
  exact ⟨[_], rfl, List.mem_singleton.2 rfl⟩

/-! Ring commands -/

/-- What a ring command that can be answered has: its slice, its ring, and no squash in its way. -/
theorem State.answers_iff {s : State} {c : HostCmd} (h : s.answers c = true) : ∃ sl r, s.host.d3hot = false ∧
    Table.find c.slice s.host.slices = some sl ∧ Table.find c.ring sl.rings = some r ∧
    ((sl.started.find? fun st => st.ring == c.ring && st.cid == c.cid).any Started.squashed) = false := by
  simp only [State.answers, Bool.and_eq_true, Bool.not_eq_true', Option.any_eq_true] at h
  obtain ⟨hd, sl, hsl, hring, hsquash⟩ := h
  obtain ⟨r, hr⟩ := Option.isSome_iff_exists.1 hring
  refine ⟨sl, r, hd, hsl, hr, ?_⟩
  rw [Option.any_eq_false]
  intro st hst
  have hmine := List.find?_some hst
  simp only [Bool.and_eq_true] at hmine
  rw [List.any_eq_false] at hsquash
  have hnot := hsquash st (List.mem_of_find?_eq_some hst)
  simpa [hmine] using hnot

/-- A slice without the entry of a command that has ended, its credit given back (R394). -/
def Slice.ended (sl : Slice) (c : HostCmd) : Slice := { sl with
  started := sl.started.filter fun st => !(st.ring == c.ring && st.cid == c.cid)
  creditsUsed := sl.creditsUsed - if sl.started.any (fun st => st.ring == c.ring && st.cid == c.cid) then 1 else 0 }

theorem State.complete_eq {s : State} {c : HostCmd} {sl : Slice} (hsl : Table.find c.slice s.host.slices = some sl) (status r0 r1 : Nat) :
    s.complete c status r0 r1 = if (sl.started.find? fun st => st.ring == c.ring && st.cid == c.cid).any Started.squashed then
      s.setSlice c.slice (sl.ended c)
    else (s.setSlice c.slice (sl.ended c)).cqWrite c.slice c.ring c.cid status r0 r1 c.noIrq false := by
  simp only [State.complete, hsl]
  rfl

/-- The slice of a completed command: its entry has ended, and its ring has moved. -/
theorem State.complete_slice {s : State} {c : HostCmd} {sl : Slice} {r : Ring} (hsl : Table.find c.slice s.host.slices = some sl)
    (hr : Table.find c.ring sl.rings = some r) (status r0 r1 : Nat) : ∃ sl',
      Table.find c.slice (s.complete c status r0 r1).host.slices = some sl' ∧ RingMoved c.ring (sl.ended c) sl' := by
  rw [State.complete_eq hsl]
  split
  · exact ⟨_, State.find_setSlice .., .refl _ _⟩
  · obtain ⟨sl', r', hfind, hmoved, -⟩ := State.cqWrite_slice (State.find_setSlice s c.slice (sl.ended c)) hr c.cid status r0 r1 c.noIrq false
    exact ⟨sl', hfind, hmoved⟩

/-- A command that can be answered is: its entry goes to the host (R392). -/
theorem State.complete_completes {s : State} {c : HostCmd} (h : s.answers c = true) (status r0 r1 : Nat) :
    Completes s (s.complete c status r0 r1) c status r0 r1 := by
  obtain ⟨sl, r, hd, hsl, hr, hsquash⟩ := State.answers_iff h
  rw [State.complete_eq hsl, if_neg (by simp [hsquash])]
  have sends := State.cqWrite_sends (State.find_setSlice s c.slice (sl.ended c)) hr hd c.cid status r0 r1 c.noIrq false
  exact ⟨_, _, sends.earlier (s := s.setSlice c.slice (sl.ended c)) (List.suffix_refl _)⟩

theorem Completes.earlier {r s t : State} {c : HostCmd} {status r0 r1 : Nat} (g : r.out <:+ s.out) (h : Completes s t c status r0 r1) :
    Completes r t c status r0 r1 := by
  obtain ⟨hd, p, hs⟩ := h
  exact ⟨hd, p, hs.earlier g⟩

/-- A ring command that its slice takes runs. -/
theorem State.ringGate_accepts {s : State} {c : HostCmd} {cap : Cap} (h : s.accepts c cap = true) (run : Slice → State) :
    s.ringGate c cap run = run (s.sliceOf c) := by
  simp only [State.accepts, Bool.and_eq_true, beq_iff_eq] at h
  obtain ⟨⟨-, hact⟩, hcap⟩ := h
  simp [State.ringGate, hact, hcap]

theorem State.answers_of_accepts {s : State} {c : HostCmd} {cap : Cap} (h : s.accepts c cap = true) : s.answers c = true := by
  simp only [State.accepts, Bool.and_eq_true] at h
  exact h.1.1

theorem State.sliceOf_eq {s : State} {c : HostCmd} {sl : Slice} (h : Table.find c.slice s.host.slices = some sl) : s.sliceOf c = sl := by
  simp [State.sliceOf, Table.get, h]


theorem State.ringAt_eq {s : State} {n k : Nat} {sl : Slice} (h : Table.find n s.host.slices = some sl) :
    s.ringAt n k = Table.find k sl.rings := by
  simp [State.ringAt, h]

theorem State.sliceState_eq {s : State} {n : Nat} {sl : Slice} (h : Table.find n s.host.slices = some sl) : s.sliceState n = sl.state := by
  simp [State.sliceState, h]

/-- A slice put in place under its pool registers stands there. -/
theorem State.find_putSlice (s : State) (n : Nat) (sl : Slice) : Table.find n (s.putSlice n sl).host.slices = some sl := by
  simp only [State.putSlice, State.wr_host, State.find_setSlice]

/-- A completion leaves its slice's state, minor version and noted cancellations. -/
theorem State.complete_keeps {s : State} {c : HostCmd} {sl : Slice} (hsl : Table.find c.slice s.host.slices = some sl) (status r0 r1 : Nat) :
    ∃ sl', Table.find c.slice (s.complete c status r0 r1).host.slices = some sl' ∧ sl'.state = sl.state ∧ sl'.minor = sl.minor ∧
      sl'.cancelled = sl.cancelled := by
  cases hr : Table.find c.ring sl.rings with
  | some r =>
    obtain ⟨sl', hfind, hmoved⟩ := State.complete_slice hsl hr status r0 r1
    rw [hmoved.rest] at hfind
    exact ⟨_, hfind, rfl, rfl, rfl⟩
  | none =>
    refine ⟨sl.ended c, ?_, rfl, rfl, rfl⟩
    have hr' : Table.find c.ring (sl.ended c).rings = none := hr
    rw [State.complete_eq hsl]
    split
    · exact State.find_setSlice ..
    · simp only [State.cqWrite, State.find_setSlice, hr']

/-! Doorbells (R9, R383, R393) -/

theorem goodSize_tail {n k z : Nat} (h : z = 4 ∨ z = 8) : goodSize (0x1000 * n + 16 * k) z = true := by
  rcases h with rfl | rfl <;> simp [goodSize] <;> omega

theorem pageSlice_doorbell {n k d : Nat} (hk : k < 64) (hd : d < 16) : pageSlice (0x1000 * n + 16 * k + d) = n := by
  unfold pageSlice
  omega

theorem pageRing_tail {n k : Nat} (hk : k < 64) : pageRing (0x1000 * n + 16 * k) false = some k := by
  have h : (0x1000 * n + 16 * k) % 0x1000 = 16 * k := by omega
  simp only [pageRing, h]
  rw [if_pos ⟨by omega, by simp⟩]
  simp

theorem pageRing_head {n k : Nat} (hk : k < 64) : pageRing (0x1000 * n + 16 * k + 8) true = some k := by
  have h : (0x1000 * n + 16 * k + 8) % 0x1000 = 16 * k + 8 := by omega
  simp only [pageRing, h]
  rw [if_pos ⟨by omega, by simp⟩]
  congr 1
  omega

/-- Where no doorbell stands, an offset names no ring, or a page beyond those of the slices. -/
theorem no_doorbell {off : Nat} (h : 0x400000 ≤ off ∨ 1024 ≤ off % 0x1000 ∨ off % 8 ≠ 0) {head : Bool} {k : Nat}
    (hk : pageRing off head = some k) : ¬ pageSlice off < 1024 := by
  simp only [pageRing, Option.ite_none_right_eq_some] at hk
  obtain ⟨⟨hlow, hplace⟩, -⟩ := hk
  have haligned : off % 8 = 0 := by
    cases head <;> simp only [if_true, Bool.false_eq_true, if_false] at hplace <;> omega
  unfold pageSlice
  omega

theorem execSqTailDoorbell_elsewhere {off z : Nat} (v : Nat) (s : State) (hg : goodSize off z = true)
    (h : 0x400000 ≤ off ∨ 1024 ≤ off % 0x1000 ∨ off % 8 ≠ 0) : execSqTailDoorbell off z v s = .next s := by
  simp only [execSqTailDoorbell, hg, Bool.not_true, Bool.false_eq_true, if_false]
  split
  · next k hk => rw [if_neg (no_doorbell h hk)]
  · rfl

theorem execCqHeadDoorbell_elsewhere {off z : Nat} (v : Nat) (s : State) (hg : goodSize off z = true)
    (h : 0x400000 ≤ off ∨ 1024 ≤ off % 0x1000 ∨ off % 8 ≠ 0) : execCqHeadDoorbell off z v s = .next s := by
  simp only [execCqHeadDoorbell, hg, Bool.not_true, Bool.false_eq_true, if_false]
  split
  · next k hk => rw [if_neg (no_doorbell h hk)]
  · rfl

theorem execSqTailDoorbell_good {s : State} {n k z v : Nat} {sl : Slice} {r : Ring} (hn : n < 1024) (hk : k < 64) (hz : z = 4 ∨ z = 8)
    (hsl : Table.find n s.host.slices = some sl) (hr : Table.find k sl.rings = some r) (hd : sl.takesDoorbells = true)
    (hv : v % 65536 < 2 ^ r.sqLog2) :
    execSqTailDoorbell (0x1000 * n + 16 * k) z v s = .next (s.setRing n sl k { r with sqTail := v % 65536 }) := by
  have hpage : pageSlice (0x1000 * n + 16 * k) = n := pageSlice_doorbell (d := 0) hk (by omega)
  simp [execSqTailDoorbell, goodSize_tail hz, pageRing_tail hk, hpage, hn, State.sqDoorbell, hsl, hr, hd, hv]

theorem execCqHeadDoorbell_good {s : State} {n k z v : Nat} {sl : Slice} {r : Ring} (hn : n < 1024) (hk : k < 64) (hz : z = 4 ∨ z = 8)
    (hsl : Table.find n s.host.slices = some sl) (hr : Table.find k sl.rings = some r) (hd : sl.takesDoorbells = true)
    (hv : v % 65536 < 2 ^ r.cqLog2) :
    execCqHeadDoorbell (0x1000 * n + 16 * k + 8) z v s = .next ((s.setRing n sl k { r with
      cqHead := v % 65536
      waiting := r.waiting.drop ((v % 65536 + 2 ^ r.cqLog2 - r.cqHead) % 2 ^ r.cqLog2)
      armed := true }).pollRing n k) := by
  have hgood : goodSize (0x1000 * n + 16 * k + 8) z = true := by
    rcases hz with rfl | rfl <;> simp [goodSize] <;> omega
  simp [execCqHeadDoorbell, hgood, pageRing_head hk, pageSlice_doorbell (n := n) hk (show 8 < 16 by omega), hn, State.cqDoorbell, hsl, hr, hd,
    hv]

theorem cqHeadDoorbell_effect {s : State} {n k z v : Nat} {sl : Slice} {r : Ring} (hn : n < 1024) (hk : k < 64) (hz : z = 4 ∨ z = 8)
    (hsl : Table.find n s.host.slices = some sl) (hr : Table.find k sl.rings = some r) (hd : sl.takesDoorbells = true)
    (hv : v % 65536 < 2 ^ r.cqLog2) : Answers (.cqHeadDoorbell (0x1000 * n + 16 * k + 8) z v) s fun t =>
      (t.ringAt n k).map Ring.cqHead = some (v % 65536) ∧
      (t.ringAt n k).map Ring.waiting = some (r.waiting.drop ((v % 65536 + 2 ^ r.cqLog2 - r.cqHead) % 2 ^ r.cqLog2)) := by
  refine ⟨_, execCqHeadDoorbell_good hn hk hz hsl hr hd hv, ?_⟩
  obtain ⟨sl', a, hfind, -, hring⟩ := State.pollRing_slice (State.find_setRing s n sl k _) (Table.find_put_same k _ _)
  rw [State.ringAt_eq hfind, hring]
  exact ⟨rfl, rfl⟩

/-! Fetching and the interrupt timer (R394, R395) -/

theorem sqFetch_effect {s : State} {n k : Nat} {e : SqEntry} {sl : Slice} {r : Ring} (hsl : Table.find n s.host.slices = some sl)
    (hr : Table.find k sl.rings = some r)
    (hok : (sl.fetching && sl.takesDoorbells && !(s.on Reg.CMD_HOLD.ACTIVATION) && !s.host.d3hot && sl.fetchable k r && sl.turnOf k r &&
      !(e.fence && sl.started.any fun st => st.ring == k)) = true)
    (hcancel : sl.cancelled.contains (k, e.cid) = false) (hknown : (knownOpcode e.opcode && e.reservedZero) = true) :
    Answers (.sqFetch n k e) s fun t => (t.ringAt n k).map Ring.sqHead = some ((r.sqHead + 1) % 2 ^ r.sqLog2) ∧
      (Table.find n t.host.slices).map Slice.creditsUsed = some (sl.creditsUsed + 1) ∧
      (Table.find n t.host.slices).map Slice.started = some (sl.started ++ [{ ring := k, cid := e.cid, opcode := e.opcode, noIrq := e.noIrq }]) := by
  refine ⟨_, show execSqFetch n k e s = .next _ by simp only [execSqFetch, hsl, hr, hok, hcancel, hknown]; rfl, ?_⟩
  dsimp only
  rw [State.ringAt_eq (State.find_setSlice ..), State.find_setSlice, Table.find_put_same]
  exact ⟨rfl, rfl, rfl⟩

theorem cqInterruptTimer_effect {s : State} {n k : Nat} {sl : Slice} {r : Ring} (hsl : Table.find n s.host.slices = some sl)
    (hr : Table.find k sl.rings = some r) (harmed : r.armed = true) (hcount : r.counted ≠ []) :
    Answers (.cqInterruptTimer n k) s fun t => (t.ringAt n k).map Ring.armed = some false ∧
      ((Table.get (sl.firstVector + r.vector) {} s.host.msix).masked = false → s.host.d3hot = false →
        Sends s t (.msix (sl.firstVector + r.vector) (Table.get (sl.firstVector + r.vector) {} s.host.msix).address
          (Table.get (sl.firstVector + r.vector) {} s.host.msix).data)) := by
  have hne : r.counted.isEmpty = false := by simpa using hcount
  refine ⟨_, show execCqInterruptTimer n k s = .next _ by simp only [execCqInterruptTimer, hsl, hr, harmed, hne]; rfl, ?_, fun hm hd => ?_⟩
  · have hfind : Table.find n ((s.setRing n sl k { r with armed := false }).fireVector (sl.firstVector + r.vector)).host.slices =
        some { sl with rings := Table.put k { r with armed := false } sl.rings } := by
      rw [State.fireVector_slices, State.find_setRing]
    rw [State.ringAt_eq hfind, Table.find_put_same]
    rfl
  · exact (State.fireVector_sends (s := s.setRing n sl k { r with armed := false }) hm hd).earlier (List.suffix_refl _)

/-! The commands on rings (R390, R397, R398, R402) -/

theorem hello_effect {s : State} {c : HostCmd} {lo hi : Nat} (hstate : (s.sliceOf c).state = .created) (hring : c.ring = 0)
    (hlo : lo ≤ min 2 hi) : Answers (.hello c 1 lo hi) s fun t => t.sliceState c.slice = .active ∧ (t.sliceOf c).minor = min 2 hi := by
  refine ⟨_, show execHello c 1 lo hi s = .next _ by simp only [execHello, hstate, hring, hlo]; rfl, ?_⟩
  obtain ⟨sl', hfind, hst, hmin, -⟩ := State.complete_keeps (State.find_putSlice s c.slice
    { s.sliceOf c with state := .active, minor := min 2 hi, fetching := true }) 0 (1 + 256 * min 2 hi) 0
  rw [State.sliceState_eq hfind, State.sliceOf_eq hfind]
  exact ⟨hst, hmin⟩

theorem nop_effect {s : State} {c : HostCmd} (h : s.accepts c .any = true) : Answers (.nop c) s fun t => Completes s t c 0 0 0 := by
  refine ⟨_, show execNop c s = .next _ from rfl, ?_⟩
  rw [State.ringGate_accepts h]
  exact State.complete_completes (State.answers_of_accepts h) ..

theorem cancel_other_ring {s : State} {c : HostCmd} {k cid : Nat} {w : Bool} (h : s.accepts c .any = true) (hk : k ≠ c.ring) :
    exec (.cancel c k cid w) s = .next (s.complete c 0 1) := by
  show execCancel c k cid w s = _
  simp only [execCancel, State.ringGate_accepts h]
  rw [if_pos hk]

theorem cancel_waiting {s : State} {c : HostCmd} {cid : Nat} (h : s.accepts c .any = true) :
    exec (.cancel c c.ring cid true) s = .next (((s.setSlice c.slice { s.sliceOf c with
      cancelled := (s.sliceOf c).cancelled ++ [(c.ring, cid)] }).cqWrite c.slice c.ring cid 0x100C 0 0 false false).complete c 0) := by
  show execCancel c c.ring cid true s = _
  simp only [execCancel, State.ringGate_accepts h]
  rw [if_neg (by simp)]
  rfl

theorem cancel_waiting_effect {s : State} {c : HostCmd} {cid : Nat} (h : s.accepts c .any = true) :
    Answers (.cancel c c.ring cid true) s fun t => (t.sliceOf c).cancelled = (s.sliceOf c).cancelled ++ [(c.ring, cid)] ∧
      Completes s t { slice := c.slice, ring := c.ring, cid := cid } 0x100C 0 0 := by
  obtain ⟨sl, r, hd, hsl, hr, -⟩ := State.answers_iff (State.answers_of_accepts h)
  refine ⟨_, cancel_waiting h, ?_⟩
  rw [State.sliceOf_eq hsl]
  generalize hnoted : ({ sl with cancelled := sl.cancelled ++ [(c.ring, cid)] } : Slice) = noted
  have hr' : Table.find c.ring noted.rings = some r := hnoted ▸ hr
  have hcancelled : noted.cancelled = sl.cancelled ++ [(c.ring, cid)] := hnoted ▸ rfl
  have hput := State.find_setSlice s c.slice noted
  obtain ⟨sl₁, r₁, hfind, hmoved, -⟩ := State.cqWrite_slice hput hr' cid 0x100C 0 0 false false
  obtain ⟨sl₂, hfind₂, -, -, hkept⟩ := State.complete_keeps hfind 0 0 0
  constructor
  · rw [State.sliceOf_eq hfind₂, hkept, hmoved.rest, hcancelled]
  · have sends := State.cqWrite_sends hput hr' hd cid 0x100C 0 0 false false
    have later := sends.later (State.complete_frame (ps := [.host, .out, .hostWait]) c 0 0 0 (.refl _ _) rfl).sent
    exact ⟨_, _, later.earlier (s := s.setSlice c.slice noted) (List.suffix_refl _)⟩

/-- RING_CREATE makes the ring that its parameters describe (R390). -/
def RingParams.ringOf (p : RingParams) : Ring :=
  { sqLog2 := p.sqLog2, cqLog2 := p.cqLog2, prio := p.prio, vector := p.vector, count := p.count, timeUs := p.timeUs, sqBase := p.sqBase,
    cqBase := p.cqBase }

/-- A command on ring 0 that changes another ring of its slice can still be answered, and its completion leaves that ring alone. -/
theorem State.complete_other_ring {s : State} {c : HostCmd} {sl : Slice} {rings : Table Ring} (hsl : Table.find c.slice s.host.slices = some sl)
    (ha : s.answers c = true) (hsame : Table.find c.ring rings = Table.find c.ring sl.rings) {k : Nat} (hk : k ≠ c.ring) :
    Completes s ((s.setSlice c.slice { sl with rings := rings }).complete c 0) c 0 0 0 ∧
      ((s.setSlice c.slice { sl with rings := rings }).complete c 0).ringAt c.slice k = Table.find k rings := by
  generalize hnew : ({ sl with rings := rings } : Slice) = new
  have hrings : new.rings = rings := hnew ▸ rfl
  have hput := State.find_setSlice s c.slice new
  obtain ⟨sl', r, -, hsl', hr, -⟩ := State.answers_iff ha
  cases hsl.symm.trans hsl'
  have hr' : Table.find c.ring new.rings = some r := by rw [hrings, hsame, hr]
  have ha' : (s.setSlice c.slice new).answers c = true := by
    simp only [State.answers, hput, hsl, Option.any_some, Table.has, hr, hr'] at ha ⊢
    rw [← hnew]
    exact ha
  constructor
  · exact (State.complete_completes ha' 0 0 0).earlier (List.suffix_refl _)
  · obtain ⟨sl₁, hfind, hmoved⟩ := State.complete_slice hput hr' 0 0 0
    rw [State.ringAt_eq hfind, hmoved.others k hk, ← hrings]
    rfl

theorem ringCreate_effect {s : State} {c : HostCmd} {p : RingParams} (h : s.accepts c .any = true) (hring : c.ring = 0)
    (hok : p.ok (s.sliceOf c) = true) (hnew : Table.has p.ring (s.sliceOf c).rings = false) :
    Answers (.ringCreate c p) s fun t => Completes s t c 0 0 0 ∧ t.ringAt c.slice p.ring = some p.ringOf := by
  have ha := State.answers_of_accepts h
  obtain ⟨sl, r, -, hsl, -, -⟩ := State.answers_iff ha
  rw [State.sliceOf_eq hsl] at hok hnew
  have hpos : p.ring ≠ c.ring := by
    simp only [RingParams.ok, Bool.and_eq_true, decide_eq_true_eq] at hok
    omega
  refine ⟨(s.setSlice c.slice { sl with rings := Table.put p.ring p.ringOf sl.rings }).complete c 0, ?_, ?_⟩
  · show execRingCreate c p s = _
    simp only [execRingCreate, State.ringGate_accepts h, State.sliceOf_eq hsl, hring, hok, hnew]
    rfl
  · have hdone := State.complete_other_ring (rings := Table.put p.ring p.ringOf sl.rings) hsl ha (Table.find_put_other hpos.symm ..) hpos
    rwa [Table.find_put_same] at hdone

theorem ringDelete_effect {s : State} {c : HostCmd} {k : Nat} (h : s.accepts c .any = true) (hring : c.ring = 0) (hk : k ≠ 0)
    (hhas : Table.has k (s.sliceOf c).rings = true) :
    Answers (.ringDelete c k) s fun t => t.ringAt c.slice k = none ∧ Completes s t c 0 0 0 := by
  have ha := State.answers_of_accepts h
  obtain ⟨sl, r, -, hsl, -, -⟩ := State.answers_iff ha
  rw [State.sliceOf_eq hsl] at hhas
  have hother : k ≠ c.ring := hring ▸ hk
  refine ⟨(s.setSlice c.slice { sl with rings := Table.drop k sl.rings }).complete c 0, ?_, ?_⟩
  · show execRingDelete c k s = _
    simp only [execRingDelete, State.ringGate_accepts h, State.sliceOf_eq hsl, hhas]
    rw [if_neg (by simp [hring, hk])]
  · have hdone := State.complete_other_ring (rings := Table.drop k sl.rings) hsl ha (Table.find_drop_other hother.symm ..) hother
    rw [Table.find_drop_same] at hdone
    exact hdone.symm

/-- Settles O8: each command's meaning on a ring that has what the clause asks for, and what its completion leaves. -/
theorem hostRings : Obligations.HostRings := by
  unfold Obligations.HostRings
  refine ⟨fun s n k z v sl r hn hk hz hsl hr hd => ⟨execSqTailDoorbell_good hn hk hz hsl hr hd, cqHeadDoorbell_effect hn hk hz hsl hr hd⟩,
    fun s off z v => ⟨fun hg hoff => ⟨execSqTailDoorbell_elsewhere v s hg hoff, execCqHeadDoorbell_elsewhere v s hg hoff⟩, fun hg => ?_⟩,
    fun s n k e sl r hsl hr hf hd hact hd0 hfb hturn hfence hcancel hop hzero => ?_,
    fun s n k sl r hsl hr harmed hcount => cqInterruptTimer_effect hsl hr harmed hcount,
    fun s c lo hi hstate hring hlo => hello_effect hstate hring hlo,
    fun s c h => nop_effect h,
    fun s c k cid w h => ?_,
    fun s c p h hring hok hnew => ringCreate_effect h hring hok hnew,
    fun s c k h hring hk hhas => ringDelete_effect h hring hk hhas⟩
  · constructor
    · show execSqTailDoorbell off z v s = _
      simp [execSqTailDoorbell, hg]
    · show execCqHeadDoorbell off z v s = _
      simp [execCqHeadDoorbell, hg]
  · exact sqFetch_effect hsl hr (by simp only [hf, hd, hact, hd0, hfb, hturn, hfence]; rfl) hcancel (by simp only [hop, hzero]; rfl)
  · by_cases hk : k = c.ring
    · subst hk
      cases w with
      | false =>
        obtain ⟨t, ht⟩ := exec_answers (.cancel c c.ring cid false) s
        exact ⟨t, ht, fun hne => absurd rfl hne, fun _ hw => absurd hw (by decide)⟩
      | true =>
        obtain ⟨t, ht, hnoted, hdone⟩ := cancel_waiting_effect (cid := cid) h
        exact ⟨t, ht, fun hne => absurd rfl hne, fun _ _ => ⟨hnoted, hdone⟩⟩
    · refine ⟨_, cancel_other_ring h hk, fun _ => ?_, fun heq => absurd heq hk⟩
      exact State.complete_completes (State.answers_of_accepts h) ..
end Sys2Proof.Machine
end
section
/-!
The obligation EventsAndRegisters: writes of a word of registers, event records and their clear, reads that clear, and the set-up lock.
-/
namespace Sys2Proof.Machine
open Sys2Proof

/-! Register writes (R11, R500) -/

/-- The fields whose new value has further effects (R36, R37, R97, R249, R278, R358). -/
def Reg.watched : List RField :=
  [Reg.ETH_PORT_MODE.MODE, Reg.ETH_PORT_MODE.SUBPORT_EN, Reg.ETH_LANE_MAP.LANE_SEL, Reg.LFL_LANE_CFG.EN, Reg.XRN_CTRL.EN, Reg.MAP_CTRL.EN,
   Reg.CMD_PS_CFG.MAX_PS]

/-- A write that leaves the watched fields has no further effect. -/
theorem State.afterWrite_unwatched {s t : State} (h : ∀ f ∈ Reg.watched, ∀ i, t.rd f i = s.rd f i) : t.afterWrite s = t := by
  have stay {α : Type} (l : List α) (f : State → α → State) (h : ∀ x, f t x = t) : l.foldl f t = t := by
    induction l with
    | nil => rfl
    | cons x r ih => rw [List.foldl_cons, h, ih]
  simp only [Reg.watched, List.forall_mem_cons, List.not_mem_nil, false_implies, implies_true, and_true] at h
  obtain ⟨hmode, hsub, hsel, hlane, hring, hmap, hps⟩ := h
  unfold State.afterWrite
  simp [stay, State.on, hmode, hsub, hsel, hlane, hring, hmap, hps]

/-- A field of no relation of R500, and of no register that is written whole. -/
def Reg.unrelated (f : RField) : Bool :=
  !(Reg.relations.any fun r => f == r.1 || f == r.2.1) && !(Reg.wholeWrites.any fun g => g.contains f)

/-- The update of one field that a write of a word makes. -/
def State.updateOf (s : State) (word : Nat) (f : FieldAt) : FieldWrite :=
  { field := f.1, i := f.2.1, j := f.2.2.1, value := s.wouldLeave f word }

/-- In a word of unrelated fields each field is judged by itself. -/
theorem State.wordUpdates_unrelated {s : State} {a word : Nat} (h : ∀ f ∈ Reg.fieldsAt a, Reg.unrelated f.1 = true) :
    s.wordUpdates a word = (((Reg.fieldsAt a).filter fun f => s.takesWrite f.1 f.2.1).map (s.updateOf word)).filter fun u =>
      u.field.legal.allows u.value && s.secureAllows u := by
  unfold State.wordUpdates
  extract_lets fs us ok after breaks broken kept failed
  have unrelated : ∀ u ∈ us, Reg.unrelated u.field = true := by
    intro u hu
    obtain ⟨f, hf, rfl⟩ := List.mem_map.1 hu
    exact h f (List.mem_filter.1 hf).1
  have unbroken (l : List FieldWrite) (hl : ∀ u ∈ l, u ∈ us) (r) (hr : r ∈ Reg.relations) : breaks l r = false := by
    simp only [breaks, Bool.and_eq_false_iff, List.any_eq_false]
    refine .inl fun u hu => ?_
    have hu := unrelated u (hl u hu)
    simp only [Reg.unrelated, Bool.and_eq_true, Bool.not_eq_true', List.any_eq_false] at hu
    exact hu.1 r hr
  have hbroken : broken = [] := by
    rw [List.filter_eq_nil_iff]
    intro r hr
    simp [unbroken us (fun _ h => h) r hr, unbroken ok (fun _ h => (List.mem_filter.1 h).1) r hr]
  have hkept : kept = ok := by simp [kept, hbroken]
  rw [hkept, List.filter_eq_self.2]
  · rfl
  · intro u hu
    have hu := unrelated u (List.mem_filter.1 hu).1
    simp only [Reg.unrelated, Bool.and_eq_true, Bool.not_eq_true', List.any_eq_false] at hu
    simp only [Bool.not_eq_true', List.any_eq_false, Bool.and_eq_true, not_and]
    intro g hg hc
    exact absurd hc (hu.2 g hg)

/-- A 4-byte write of a register whose block takes writes: the updates, and what follows from them. -/
theorem execRegisterWrite_word {s : State} {a v : Nat} (hgood : goodSize a 4 = true) (hconv : s.power.converterOn = true)
    (hwr : s.writable (a / 0x100000) = true) :
    execRegisterWrite a 4 v s = .next ((s.writeWord s a (v % 2 ^ 32)).afterWrite s) := by
  simp [execRegisterWrite, hgood, hconv, hwr]

/-- Updates of other fields leave a field alone. -/
theorem State.rd_applyWrites_other {g : RField} (us : List FieldWrite) (s : State) (h : ∀ u ∈ us, u.field.id ≠ g.id) (i j : Nat) :
    (us.foldl State.applyWrite1 s).rd g i j = s.rd g i j := by
  induction us generalizing s with
  | nil => rfl
  | cons u r ih =>
    rw [List.foldl_cons, ih _ fun x hx => h x (List.mem_cons_of_mem _ hx)]
    exact State.rd_wr_field _ _ _ _ _ _ _ _ (h u List.mem_cons_self)

/-! EVT_RATE and LFL_LANE_STATUS -/

theorem Reg.fieldsAt_EVT_RATE : Reg.fieldsAt 0x400004 = [(Reg.EVT_RATE.PER_S, 0, 0, false), (Reg.EVT_RATE.BURST, 0, 0, false)] := by decide

theorem evtRate_locked {s : State} (v : Nat) (hconv : s.power.converterOn = true) (hwr : s.writable 4 = true) (hl : s.locked 4 = true) :
    exec (.registerWrite 0x400004 4 v) s = .next s := by
  have hnone : s.wordUpdates 0x400004 (v % 2 ^ 32) = [] := by
    rw [State.wordUpdates_unrelated (by rw [Reg.fieldsAt_EVT_RATE]; decide), Reg.fieldsAt_EVT_RATE]
    have hblocks : Reg.EVT_RATE.PER_S.block = 4 ∧ Reg.EVT_RATE.BURST.block = 4 := by decide
    simp [State.takesWrite, Reg.EVT_RATE.PER_S, Reg.EVT_RATE.BURST, RField.block, hl]
  show execRegisterWrite 0x400004 4 v s = _
  rw [execRegisterWrite_word rfl hconv hwr]
  simp only [State.writeWord, hnone, List.foldl_nil]
  rw [State.afterWrite_unwatched fun _ _ _ => rfl]

/-- The value that the merge of R11 gives a byte field of EVT_RATE is that byte of the word. -/
theorem State.wouldLeave_PER_S (s : State) (w : Nat) : s.wouldLeave (Reg.EVT_RATE.PER_S, 0, 0, false) w = w % 256 := by
  simp [State.wouldLeave, State.leaves, Reg.EVT_RATE.PER_S]
  omega

theorem State.wouldLeave_BURST (s : State) (w : Nat) : s.wouldLeave (Reg.EVT_RATE.BURST, 0, 0, false) w = w / 256 % 256 := by
  simp [State.wouldLeave, State.leaves, Reg.EVT_RATE.BURST]
  omega

/-- An open write of EVT_RATE updates each byte that is not 0, the one value out of its range (R471, R500). -/
theorem wordUpdates_EVT_RATE {s : State} (v : Nat) (hl : s.locked 4 = false) : s.wordUpdates 0x400004 (v % 2 ^ 32) =
    (if v % 256 = 0 then [] else [⟨Reg.EVT_RATE.PER_S, 0, 0, v % 256⟩]) ++
      if v / 256 % 256 = 0 then [] else [⟨Reg.EVT_RATE.BURST, 0, 0, v / 256 % 256⟩] := by
  rw [State.wordUpdates_unrelated (by rw [Reg.fieldsAt_EVT_RATE]; decide), Reg.fieldsAt_EVT_RATE]
  have htake : s.takesWrite Reg.EVT_RATE.PER_S 0 = true ∧ s.takesWrite Reg.EVT_RATE.BURST 0 = true := by
    have guards : ∀ f ∈ [Reg.EVT_RATE.PER_S, Reg.EVT_RATE.BURST], s.guardOpen f 0 = true := by
      intro f hf
      simp only [List.mem_cons, List.not_mem_nil, or_false] at hf
      rcases hf with rfl | rfl <;> rfl
    have hlock : s.locked Reg.EVT_RATE.PER_S.block = false ∧ s.locked Reg.EVT_RATE.BURST.block = false := ⟨hl, hl⟩
    have hacc : Reg.EVT_RATE.PER_S.acc = .rwl ∧ Reg.EVT_RATE.BURST.acc = .rwl := by decide
    simp [State.takesWrite, hacc, hlock, guards]
  have hper : v % 2 ^ 32 % 256 = v % 256 := by omega
  have hburst : v % 2 ^ 32 / 256 % 256 = v / 256 % 256 := by omega
  have hallows (b : Nat) : Reg.EVT_RATE.PER_S.legal.allows (b % 256) = !decide (b % 256 = 0) ∧
      Reg.EVT_RATE.BURST.legal.allows (b % 256) = !decide (b % 256 = 0) := by
    have hrange : (decide (1 ≤ b % 256 ∧ b % 256 ≤ 255) : Bool) = !decide (b % 256 = 0) := by
      rw [← decide_not, decide_eq_decide]
      omega
    exact ⟨hrange, hrange⟩
  have hsecure (b : Nat) : s.secureAllows ⟨Reg.EVT_RATE.PER_S, 0, 0, b⟩ = true ∧ s.secureAllows ⟨Reg.EVT_RATE.BURST, 0, 0, b⟩ = true := by
    have hother : (Reg.EVT_RATE.PER_S == Reg.BND_SIDECH.DUMMY) = false ∧ (Reg.EVT_RATE.PER_S == Reg.BND_SIDECH.SHUFFLE) = false ∧
      (Reg.EVT_RATE.BURST == Reg.BND_SIDECH.DUMMY) = false ∧ (Reg.EVT_RATE.BURST == Reg.BND_SIDECH.SHUFFLE) = false := by decide
    simp [State.secureAllows, hother]
  simp only [List.filter_cons, htake, if_true, List.filter_nil, List.map_cons, List.map_nil, State.updateOf, State.wouldLeave_PER_S,
    State.wouldLeave_BURST, hper, hburst, hallows, hsecure, Bool.and_true]
  by_cases h₁ : v % 256 = 0 <;> by_cases h₂ : v / 256 % 256 = 0 <;> simp [h₁, h₂]

theorem evtRate_open {s : State} (v : Nat) (hconv : s.power.converterOn = true) (hwr : s.writable 4 = true) (hl : s.locked 4 = false) :
    Answers (.registerWrite 0x400004 4 v) s fun t =>
      t.rd Reg.EVT_RATE.PER_S = (if v % 256 = 0 then s.rd Reg.EVT_RATE.PER_S else v % 256) ∧
      t.rd Reg.EVT_RATE.BURST = if v / 256 % 256 = 0 then s.rd Reg.EVT_RATE.BURST else v / 256 % 256 := by
  refine ⟨_, execRegisterWrite_word rfl hconv hwr, ?_⟩
  have hwatched : ∀ f ∈ Reg.watched, Reg.EVT_RATE.PER_S.id ≠ f.id ∧ Reg.EVT_RATE.BURST.id ≠ f.id := by decide
  rw [State.writeWord, wordUpdates_EVT_RATE v hl, State.afterWrite_unwatched]
  · have hids : Reg.EVT_RATE.BURST.id ≠ Reg.EVT_RATE.PER_S.id := by decide
    have hstore (x : Nat) : Reg.EVT_RATE.PER_S.legal.store x = x ∧ Reg.EVT_RATE.BURST.legal.store x = x := ⟨rfl, rfl⟩
    have hwidth : Reg.EVT_RATE.PER_S.width = 8 ∧ Reg.EVT_RATE.BURST.width = 8 := by decide
    by_cases h₁ : v % 256 = 0 <;> by_cases h₂ : v / 256 % 256 = 0 <;>
      simp [h₁, h₂, State.applyWrite1, hstore, hwidth, State.rd_wr_field _ _ _ _ _ _ _ _ hids, State.rd_wr_field _ _ _ _ _ _ _ _ hids.symm]
  · intro f hf i
    refine State.rd_applyWrites_other _ _ (fun u hu => ?_) i 0
    rcases List.mem_append.1 hu with hu | hu
    · split at hu
      · simp at hu
      · rw [List.mem_singleton.1 hu]; exact (hwatched f hf).1
    · split at hu
      · simp at hu
      · rw [List.mem_singleton.1 hu]; exact (hwatched f hf).2

/-! LFL_LANE_STATUS -/

theorem Reg.fieldsAt_LFL_LANE_STATUS : ∀ i < 32, Reg.fieldsAt (0xf01004 + 0x40 * i) =
    [(Reg.LFL_LANE_STATUS.STATE, i, 0, false), (Reg.LFL_LANE_STATUS.LEAVES, i, 0, false), (Reg.LFL_LANE_STATUS.OVERLONG, i, 0, false),
     (Reg.LFL_LANE_STATUS.CHANGE, i, 0, false), (Reg.LFL_LANE_STATUS.BREAK_AT, i, 0, false)] := by decide

/-- A 1 written to CHANGE clears it, but for a 1 that the part has set in the same clock (R11, R13). -/
theorem State.wouldLeave_CHANGE (s : State) (i : Nat) {w : Nat} (hw : w / 2 ^ 14 % 2 = 1) :
    s.wouldLeave (Reg.LFL_LANE_STATUS.CHANGE, i, 0, false) w =
      s.rd Reg.LFL_LANE_STATUS.CHANGE i - (s.rd Reg.LFL_LANE_STATUS.CHANGE i % 2 -
        (s.rd Reg.LFL_LANE_STATUS.CHANGE i % 2 &&& s.raisedBits Reg.LFL_LANE_STATUS.CHANGE i 0)) := by
  have hacc : Reg.LFL_LANE_STATUS.CHANGE.acc = .w1c ∧ Reg.LFL_LANE_STATUS.CHANGE.lsb = 14 ∧ Reg.LFL_LANE_STATUS.CHANGE.width = 1 := by decide
  simp only [State.wouldLeave, State.leaves, hacc, Bool.false_eq_true, if_false, Nat.pow_one, hw, Nat.and_one_is_mod]

theorem w1c_bit_clears (old raised : Nat) :
    ((old - (old % 2 - (old % 2 &&& raised))) % 2 ^ 1 == 1) = (old % 2 == 1 && raised % 2 == 1) := by
  rcases Nat.mod_two_eq_zero_or_one old with ho | ho <;> rcases Nat.mod_two_eq_zero_or_one raised with hr | hr
  · simp [ho]
  · simp [ho]
  · have : (1 &&& raised) = 0 := by rw [Nat.and_comm, Nat.and_one_is_mod, hr]
    simp [ho, hr, this]
    omega
  · have : (1 &&& raised) = 1 := by rw [Nat.and_comm, Nat.and_one_is_mod, hr]
    simp [ho, hr, this]

theorem lflLaneStatus_write {s : State} {i v : Nat} (hi : i < 32) (hconv : s.power.converterOn = true) (hwr : s.writable 15 = true)
    (hv : v.testBit 14 = true) : Answers (.registerWrite (0xf01004 + 0x40 * i) 4 v) s fun t => t.on Reg.LFL_LANE_STATUS.CHANGE i =
      (s.rd Reg.LFL_LANE_STATUS.CHANGE i % 2 == 1 && s.raisedBits Reg.LFL_LANE_STATUS.CHANGE i 0 % 2 == 1) := by
  have hblock : (0xf01004 + 0x40 * i) / 0x100000 = 15 := by omega
  have hgood : goodSize (0xf01004 + 0x40 * i) 4 = true := by simp [goodSize]; omega
  have hfields := Reg.fieldsAt_LFL_LANE_STATUS i hi
  have hupdates : s.wordUpdates (0xf01004 + 0x40 * i) (v % 2 ^ 32) =
      [s.updateOf (v % 2 ^ 32) (Reg.LFL_LANE_STATUS.CHANGE, i, 0, false)] := by
    rw [State.wordUpdates_unrelated (by rw [hfields]; simp only [List.forall_mem_cons]; decide), hfields]
    have htake : s.takesWrite Reg.LFL_LANE_STATUS.STATE i = false ∧ s.takesWrite Reg.LFL_LANE_STATUS.LEAVES i = false ∧
        s.takesWrite Reg.LFL_LANE_STATUS.OVERLONG i = false ∧ s.takesWrite Reg.LFL_LANE_STATUS.CHANGE i = true ∧
        s.takesWrite Reg.LFL_LANE_STATUS.BREAK_AT i = false := ⟨rfl, rfl, rfl, rfl, rfl⟩
    have hother : (Reg.LFL_LANE_STATUS.CHANGE == Reg.BND_SIDECH.DUMMY) = false ∧
        (Reg.LFL_LANE_STATUS.CHANGE == Reg.BND_SIDECH.SHUFFLE) = false := by decide
    have hallows (x : Nat) : Reg.LFL_LANE_STATUS.CHANGE.legal.allows x = true := rfl
    simp [htake, State.updateOf, hallows, State.secureAllows, hother]
  refine ⟨_, execRegisterWrite_word hgood hconv (hblock ▸ hwr), ?_⟩
  rw [State.writeWord, hupdates, State.afterWrite_unwatched]
  · have hbit : v % 2 ^ 32 / 2 ^ 14 % 2 = 1 := by
      rw [Nat.testBit_eq_decide_div_mod_eq, decide_eq_true_eq] at hv
      omega
    simp only [List.foldl_cons, List.foldl_nil, State.applyWrite1, State.updateOf, State.on_wr_same,
      State.wouldLeave_CHANGE s i hbit]
    exact w1c_bit_clears ..
  · have hwatched : ∀ f ∈ Reg.watched, Reg.LFL_LANE_STATUS.CHANGE.id ≠ f.id := by decide
    exact fun f hf j => State.rd_applyWrites_other _ _ (fun u hu => by rw [List.mem_singleton.1 hu]; exact hwatched f hf) j 0
/-! Event records (R469 to R472) -/

/-- The posts of an event to slices. -/
theorem State.posts_frame {s t : State} (code detail : Nat) (l : List Nat) (h : Within [.block 6, .host, .out, .hostWait] s t) :
    Within [.block 6, .host, .out, .hostWait] s (l.foldl (fun s n => s.postTo n code detail) t) :=
  .foldl l h fun _ n => State.postTo_frame n code detail (.refl _ _) rfl

/-- `t` has the running area, the nonce and the clear that runs of `s`. -/
structure KeepsClear (s t : State) : Prop where
  running : t.nor.running = s.nor.running
  nonce : t.evt.nonce = s.evt.nonce
  clearing : t.evt.clearing = s.evt.clearing

theorem KeepsClear.trans {s t u : State} (h : KeepsClear s t) (g : KeepsClear t u) : KeepsClear s u :=
  ⟨g.running.trans h.running, g.nonce.trans h.nonce, g.clearing.trans h.clearing⟩

theorem State.bufferRecord_keeps (s : State) (r : EventRecord) : KeepsClear s (s.bufferRecord r) := by
  unfold State.bufferRecord
  split
  · split <;> exact ⟨rfl, rfl, rfl⟩
  · exact ⟨rfl, rfl, rfl⟩

theorem State.frontRecord_keeps (s : State) (r : EventRecord) (clearing : Bool) : KeepsClear s (s.frontRecord r clearing) := by
  unfold State.frontRecord
  extract_lets limit front t u evt
  have hu : KeepsClear s u := ⟨rfl, rfl, rfl⟩
  split
  · split
    · have hfull : KeepsClear u (({ u with evt.fullNoted := true }).wr Reg.EVT_STATUS.FRONT_FULL 1) := ⟨rfl, rfl, rfl⟩
      exact (hu.trans hfull).trans (State.bufferRecord_keeps ..)
    · exact hu
  · exact ⟨rfl, rfl, rfl⟩

theorem State.passRecord_keeps (s : State) (code : Nat) (detail : List Byte) : KeepsClear s (s.passRecord code detail) := by
  unfold State.passRecord
  extract_lets r u w
  have hw : KeepsClear u w := by
    by_cases hfront : frontCodes.contains code
    · simp only [w, hfront, if_true]
      exact State.frontRecord_keeps ..
    · simp only [w, hfront]
      exact ⟨rfl, rfl, rfl⟩
  have posts := State.posts_frame (s := w) code (detailWord detail) w.eventSlices (.refl _ _)
  have hposts : KeepsClear w (w.eventSlices.foldl (fun s n => s.postTo n code (detailWord detail)) w) :=
    ⟨congrArg _ (posts.only.nor rfl), congrArg _ (posts.only.evt rfl), congrArg _ (posts.only.evt rfl)⟩
  exact ((State.bufferRecord_keeps s r).trans hw).trans hposts

theorem State.event_exempt {code : Nat} (h : rateExempt code = true) (s : State) (detail : List Byte) :
    s.event code detail = s.passRecord code detail := by
  simp [State.event, h]

/-- A page written is the newest of the running area. -/
theorem State.writePage_head {s : State} (h : pageTake s.evt.buffer 0 ≠ []) :
    s.writePage.nor.running.head? = some (pageTake s.evt.buffer 0) := by
  unfold State.writePage
  extract_lets page rest boot evt u
  have hu : u.nor.running.head? = some page := rfl
  rw [if_neg (by simpa using h)]
  split
  · rw [(State.passRecord_keeps { u with evt.overflow := false } 0xB011 []).running]
    exact hu
  · exact hu

theorem eventPageWrite_effect {s : State} (hdue : s.pageDue = true) (hclear : s.evt.clearing = none) (hpage : pageTake s.evt.buffer 0 ≠ []) :
    Answers .eventPageWrite s fun t => t.nor.running.head? = some (pageTake s.evt.buffer 0) := by
  refine ⟨_, show execEventPageWrite s = .next _ by simp only [execEventPageWrite, hdue, hclear]; rfl, State.writePage_head hpage⟩

theorem eventReadSelect_effect (s : State) (i a : Nat) : Answers (.eventReadSelect i a) s fun t =>
    t.evt.selected = s.recordAt (i % 2 ^ 19) (a % 2) ∧ t.on Reg.EVT_READ_STAT.VALID = (s.recordAt (i % 2 ^ 19) (a % 2)).isSome := by
  refine ⟨_, rfl, rfl, ?_⟩
  rw [State.on_wr_same]
  cases (s.recordAt (i % 2 ^ 19) (a % 2)).isSome <;> rfl

theorem newNonce_effect (s : State) : Answers .newNonce s fun t => ∃ v, t.evt.nonce = some (v % 2 ^ 64, s.clock) ∧
    t.rd Reg.EVT_CLEAR_NONCE.NONCE = Reg.EVT_CLEAR_NONCE.NONCE.fit v :=
  ⟨_, rfl, Config.freeNat s.free, rfl, State.rd_wr_same ..⟩

/-- A clear that is allowed has a nonce (R472). -/
theorem State.nonce_of_clearAllowed {s : State} (h : s.clearAllowed = true) : s.evt.nonce.isSome = true := by
  unfold State.clearAllowed at h
  split at h
  · cases h
  · next heq => rw [heq]; rfl

theorem clearGo_effect {s : State} (hclear : s.evt.clearing = none) : Answers .clearGo s fun t => t.evt.nonce = none ∧
    if s.clearAllowed = false then t.rd Reg.EVT_CLEAR_RESULT.STATUS = 0xB021 ∧ t.evt.clearing = none
    else if 4096 ≤ s.nor.front.length then t.rd Reg.EVT_CLEAR_RESULT.STATUS = 0xB022 ∧ t.evt.clearing = none
    else t.on Reg.EVT_CLEAR_RESULT.BUSY = true ∧ t.evt.clearing = s.evt.nonce.map Prod.fst := by
  show ∃ t, execClearGo s = .next t ∧ _
  rw [execClearGo, if_neg (by simp [hclear])]
  generalize hu : ({ s with evt.nonce := none } : State) = u
  have hnonce : u.evt.nonce = none := by rw [← hu]
  have hnone : u.evt.clearing = none := by rw [← hu]; exact hclear
  have hfront : u.nor = s.nor := by rw [← hu]
  cases hallowed : s.clearAllowed with
  | false =>
    have keeps := State.passRecord_keeps u 0xB021 []
    refine ⟨_, rfl, ?_, State.rd_wr_same .., ?_⟩
    · rw [State.wr_evt, State.event_exempt rfl, keeps.nonce, hnonce]
    · rw [State.wr_evt, State.event_exempt rfl, keeps.clearing, hnone]
  | true =>
    obtain ⟨⟨n, at_⟩, hn⟩ := Option.isSome_iff_exists.1 (State.nonce_of_clearAllowed hallowed)
    by_cases hfull : 4096 ≤ s.nor.front.length
    · simp only [hfront, hfull, Bool.not_true, Bool.false_eq_true, Bool.true_eq_false, if_true, if_false]
      exact ⟨_, rfl, hnonce, State.rd_wr_same .., hnone⟩
    · simp only [hfront, hfull, hn, Bool.not_true, Bool.false_eq_true, Bool.true_eq_false, if_false]
      exact ⟨_, rfl, hnonce, State.on_wr_same .., rfl⟩

theorem clearComplete_effect {s : State} {n : Nat} (hclear : s.evt.clearing = some n) : Answers .clearComplete s fun t =>
    t.evt.clearing = none ∧ t.on Reg.EVT_CLEAR_RESULT.BUSY = false ∧
    t.nor.running = [[s.makeRecord 0xB020 (le 8 (s.nor.running.map List.length).sum ++ le 8 n ++ le 8 s.ringTime)]] := by
  show ∃ t, execClearComplete s = .next t ∧ _
  simp only [execClearComplete, hclear]
  generalize s.makeRecord 0xB020 (le 8 (s.nor.running.map List.length).sum ++ le 8 n ++ le 8 s.ringTime) = r
  generalize hu : ({ s with nor.running := [[r]], evt.clearing := none } : State) = u
  have keeps := State.frontRecord_keeps u r true
  generalize hw : (u.frontRecord r true).wr Reg.EVT_CLEAR_RESULT.BUSY 0 = w
  have posts := State.posts_frame (s := w) 0xB020 (s.nor.running.map List.length).sum w.eventSlices (.refl _ _)
  refine ⟨_, rfl, ?_, ?_, ?_⟩
  · rw [posts.only.evt rfl, ← hw, State.wr_evt, keeps.clearing, ← hu]
  · unfold State.on
    rw [posts.only.rd _ _ _ rfl rfl, ← hw, State.rd_wr_same]
    rfl
  · rw [posts.only.nor rfl, ← hw, State.wr_nor, keeps.running, ← hu]

theorem histSwap_effect {s : State} (hrun : s.running = true) : Answers .histSwap s fun t => t.evt.hist = [] ∧
    t.rd Reg.EVT_HIST_STAT.SEQ = (s.rd Reg.EVT_HIST_STAT.SEQ + 1) % 2 ^ 32 := by
  refine ⟨_, show execHistSwap s = .next _ by simp only [execHistSwap, hrun]; rfl, rfl, ?_⟩
  rw [State.rd_wr_same]
  exact Nat.mod_mod ..

/-! Accesses and locks -/

theorem badSizeAccess_effect (s : State) (w : Bool) {a z : Nat} (h : goodSize a z = false) : Answers (.badSizeAccess w a z) s fun t =>
    Sends s t (.aer 0) ∧ (w = false → Sends s t .unsupportedRequest) := by
  refine ⟨_, show execBadSizeAccess w a z s = .next _ by simp only [execBadSizeAccess, h]; rfl, ?_⟩
  cases w with
  | false =>
    have answered : Sends s (s.send .unsupportedRequest) .unsupportedRequest := .refl_send ..
    exact ⟨⟨[.aer 0, .unsupportedRequest], rfl, List.mem_cons_self⟩, fun _ => answered.later (List.suffix_cons ..)⟩
  | true => exact ⟨Sends.refl_send .., nofun⟩
/-! RC_READ of a parity count, and the set-up lock (R11, R14) -/

theorem rcRead_unanswered {s : State} {a z : Nat} (hconv : s.power.converterOn = true) (hgood : goodSize a z = true)
    (hwr : s.writable (a / 0x100000) = false) : Answers (.rcRead a z) s fun t => Sends s t (.readValue a 0) :=
  ⟨_, show execRcRead a z s = .next _ by simp only [execRcRead, hgood, hconv, hwr]; rfl, sends_send _ _ _ rfl⟩

theorem Reg.fieldsAt_MAP_CACHE_PARITY : Reg.fieldsAt 0xd00130 = [(Reg.MAP_CACHE_PARITY.COUNT, 0, 0, false)] := by decide

/-- A read of MAP_CACHE_PARITY gives what the clock began with and leaves what came in it (R11, R13). -/
theorem State.readWord_MAP_CACHE_PARITY (s : State) : s.readWord 0xd00130 false =
    ((s.rcSplit Reg.MAP_CACHE_PARITY.COUNT 0 0).1 % 2 ^ 32,
      s.wr Reg.MAP_CACHE_PARITY.COUNT (s.rcSplit Reg.MAP_CACHE_PARITY.COUNT 0 0).2) := by
  have hshape : Reg.MAP_CACHE_PARITY.COUNT.acc = .rc ∧ Reg.MAP_CACHE_PARITY.COUNT.wide = false ∧ Reg.MAP_CACHE_PARITY.COUNT.lsb = 0 ∧
      (Reg.MAP_CACHE_PARITY.COUNT == Reg.ETH_PTP_TX_STAMP_HI.VALID) = false := by decide
  simp [State.readWord, Reg.fieldsAt_MAP_CACHE_PARITY, State.readClear, State.clearRead, hshape]

theorem rcRead_MAP_CACHE_PARITY {s : State} (hconv : s.power.converterOn = true) (hwr : s.writable 13 = true) :
    Answers (.rcRead 0xd00130 4) s fun t =>
      Sends s t (.readValue 0xd00130 ((s.rcSplit Reg.MAP_CACHE_PARITY.COUNT 0 0).1 % 2 ^ 32)) ∧
      t.rd Reg.MAP_CACHE_PARITY.COUNT = Reg.MAP_CACHE_PARITY.COUNT.fit (s.rcSplit Reg.MAP_CACHE_PARITY.COUNT 0 0).2 := by
  have hgood : goodSize 0xd00130 4 = true := rfl
  have run : execRcRead 0xd00130 4 s = .next ((s.wr Reg.MAP_CACHE_PARITY.COUNT (s.rcSplit Reg.MAP_CACHE_PARITY.COUNT 0 0).2).send
      (.readValue 0xd00130 ((s.rcSplit Reg.MAP_CACHE_PARITY.COUNT 0 0).1 % 2 ^ 32))) := by
    simp [execRcRead, hgood, hconv, hwr, State.readWord_MAP_CACHE_PARITY]
  exact ⟨_, run, sends_send _ _ _ rfl, State.rd_wr_same ..⟩

/-- Bits set by the part read as set, of the field they are in alone. -/
theorem State.rd_raise_same (s : State) (f : RField) (bits i : Nat) : (s.raise f bits i).rd f i = (s.rd f i ||| bits) % 2 ^ f.width :=
  State.rd_wr_same ..

theorem State.rd_raise_field (s : State) (f g : RField) (bits i i' j' : Nat) (h : f.id ≠ g.id) : (s.raise f bits i).rd g i' j' = s.rd g i' j' :=
  State.rd_wr_field _ _ _ _ _ _ _ _ h

theorem State.on_raise_bit (s : State) {f : RField} (hf : f.width = 1) : (s.raise f).on f = true := by
  unfold State.on
  rw [State.rd_raise_same, Nat.or_mod_two_pow, hf]
  rcases Nat.mod_two_eq_zero_or_one (s.rd f) with h | h <;> simp [h]

theorem setupLockWrite_effect {s : State} {b v : Nat} (hv : v % 2 = 1) (hb : 1 ≤ b) (hb' : b ≤ 21) (hwr : s.writable b = true)
    (hl : s.locked b = false) : Answers (.setupLockWrite b v) s fun t => match s.lockFault b with
      | none => t.locked b = true
      | some (c, o) => t.locked b = false ∧ t.on Reg.OLD_LOCK_FAULT.VALID = true ∧ t.rd Reg.OLD_LOCK_FAULT.BLOCK = b ∧
          t.rd Reg.OLD_LOCK_FAULT.CAUSE = Reg.OLD_LOCK_FAULT.CAUSE.fit c ∧ t.rd Reg.OLD_LOCK_FAULT.OFFSET = Reg.OLD_LOCK_FAULT.OFFSET.fit o := by
  have hgate : ¬ (v % 2 = 0 ∨ b = 0 ∨ 21 < b ∨ s.writable b = false ∨ s.locked b = true) := by
    simp [hwr, hl]
    omega
  show ∃ t, execSetupLockWrite b v s = .next t ∧ _
  rw [execSetupLockWrite, if_neg hgate]
  cases s.lockFault b with
  | none =>
    refine ⟨_, rfl, ?_⟩
    have hwidth : Reg.OLD_LOCK_STATUS.LOCKED.width = 21 := rfl
    simp only [State.locked, State.rd_wr_same, Nat.testBit_mod_two_pow, Nat.testBit_or, Nat.testBit_two_pow_self, Bool.or_true, hwidth,
      Bool.and_true, decide_eq_true_eq]
    omega
  | some fault =>
    obtain ⟨c, o⟩ := fault
    have hids : Reg.OLD_LOCK_FAULT.VALID.id ≠ Reg.OLD_LOCK_STATUS.LOCKED.id ∧ Reg.OLD_LOCK_FAULT.CAUSE.id ≠ Reg.OLD_LOCK_STATUS.LOCKED.id ∧
        Reg.OLD_LOCK_FAULT.OFFSET.id ≠ Reg.OLD_LOCK_STATUS.LOCKED.id ∧ Reg.OLD_LOCK_FAULT.BLOCK.id ≠ Reg.OLD_LOCK_STATUS.LOCKED.id := by
      decide
    obtain ⟨hvalid, hcause, hoffset, hblock⟩ := hids
    refine ⟨_, rfl, ?_, ?_, ?_, ?_, ?_⟩
    · simpa only [State.locked, State.rd_raise_field _ _ _ _ _ _ _ hvalid, State.rd_wr_field _ _ _ _ _ _ _ _ hcause,
        State.rd_wr_field _ _ _ _ _ _ _ _ hoffset, State.rd_wr_field _ _ _ _ _ _ _ _ hblock] using hl
    · exact State.on_raise_bit _ rfl
    · rw [State.rd_raise_field _ _ _ _ _ _ _ (by decide), State.rd_wr_field _ _ _ _ _ _ _ _ (by decide),
        State.rd_wr_field _ _ _ _ _ _ _ _ (by decide), State.rd_wr_same]
      exact Nat.mod_eq_of_lt (show b < 2 ^ 5 by omega)
    · rw [State.rd_raise_field _ _ _ _ _ _ _ (by decide), State.rd_wr_same]
      rfl
    · rw [State.rd_raise_field _ _ _ _ _ _ _ (by decide), State.rd_wr_field _ _ _ _ _ _ _ _ (by decide), State.rd_wr_same]
      rfl
/-- Settles O37, a clause from each command's lemma. -/
theorem eventsAndRegisters : Obligations.EventsAndRegisters := by
  unfold Obligations.EventsAndRegisters
  refine ⟨fun s => eventPageWrite_effect, fun s => rfl, eventReadSelect_effect, newNonce_effect, fun s => clearGo_effect,
    fun s n => clearComplete_effect, fun s => histSwap_effect, fun s w a z => badSizeAccess_effect s w,
    fun s hconv => ⟨fun a z => rcRead_unanswered hconv, rcRead_MAP_CACHE_PARITY hconv⟩,
    fun s v hconv => ⟨evtRate_open v hconv, evtRate_locked v hconv, fun i hi => lflLaneStatus_write hi hconv⟩, ?_⟩
  exact fun s b v => setupLockWrite_effect

end Sys2Proof.Machine
end
section
/-!
The obligation LocksStand. The frame lemmas say of a function that sets a status bit (`raise`) only that registers may change; here each
function on the way to one is shown to stay outside block OLD, by the same walk through its branches.
-/
namespace Sys2Proof.Machine
open Sys2Proof

/-- Every part of the state but the register block OLD, which holds the lock bits. -/
def Part.others : List Part := [.block 1, .block 2, .block 3, .block 4, .block 5, .block 6, .block 7, .block 8, .block 9, .block 10, .block 11,
  .block 12, .block 13, .block 14, .block 15, .block 16, .block 17, .block 18, .block 19, .block 20, .block 21, .holding, .ringTime, .pins,
  .fuses, .straps, .power, .boot, .test, .evt, .nor, .host, .ports, .trn, .cmd, .bnd, .ddp, .keys, .wc, .sig, .lfl, .map, .rep, .prg, .xrn,
  .chan, .own, .store, .mem, .free, .out, .hostWait]

/-- Status bits set by the part stay in their field's block. -/
theorem State.raise_within {s t : State} (f : RField) (bits i : Nat) (h : Within Part.others s t)
    (hf : Part.sub [.block f.block] Part.others = true) : Within Part.others s (t.raise f bits i) :=
  .put (a := [.holding]) (State.wr_frame f _ _ _ h hf) rfl rfl rfl rfl rfl

section
variable {s t : State} (h : Within Part.others s t)
include h
theorem State.appendJournal_others e : Within Part.others s (State.appendJournal t e) := by
  unfold State.appendJournal
  repeat' first
    | with_reducible assumption
    | exact rfl
    | (with_reducible first | apply Within.ite | apply State.raise_within | apply State.event1_frame | apply State.noteJournal_frame)
    | with_reducible refine Within.put (a := [.ddp]) ?_ rfl rfl rfl rfl rfl

theorem State.dropPort_others port : Within Part.others s (State.dropPort t port) := by
  unfold State.dropPort
  repeat' first
    | with_reducible assumption
    | exact rfl
    | (with_reducible first | apply State.wr_frame | apply State.raise_within)

theorem State.fence_others q : Within Part.others s (State.fence t q) := by
  unfold State.fence
  repeat' first
    | with_reducible assumption
    | exact rfl
    | with_reducible first
        | apply Within.ite | apply State.headLoss_frame | apply State.standbyTakes_frame | apply State.takeUpWork_frame
        | apply State.dropPort_others | apply State.fenceOnly_frame
    | split

theorem State.lostAppend_others entry : Within Part.others s (State.lostAppend t entry) := by
  unfold State.lostAppend
  have stored (a : Nat) : Within [.mem] t { t with mem := Memory.writeList t.mem a entry } :=
    .putMem (.refl _ _) rfl (Memory.wf_writeList _ _) rfl rfl
  dsimp only
  split
  · exact State.event_frame _ _ (State.raise_within _ _ _ h rfl) rfl
  · exact State.wr_frame _ _ _ _ (h.step (stored _) rfl) rfl

theorem State.listExtents_others loc domain full : Within Part.others s (State.listExtents t loc domain full) := by
  unfold State.listExtents
  repeat' first
    | with_reducible exact Within.refl _ _
    | with_reducible assumption
    | exact rfl
    | (with_reducible first | apply Within.ite | apply State.event_frame | apply State.lostAppend_others)
    | with_reducible refine Within.foldl _ ?_ fun _ _ => ?_

theorem State.loseContainer_others loc domain : Within Part.others s (State.loseContainer t loc domain) := by
  unfold State.loseContainer
  repeat' first
    | with_reducible exact Within.refl _ _
    | with_reducible assumption
    | exact rfl
    | with_reducible first
        | apply Within.ite | apply State.event_frame | apply State.sendRing_frame | apply State.rewriteLoc_frame
        | apply State.lostAppend_others | apply State.listExtents_others | apply State.forgetIndex_frame | apply State.markLoss_frame
        | apply State.loseImage_frame
    | with_reducible refine Within.foldl _ ?_ fun _ _ => ?_

theorem State.loseCached_others loc domain : Within Part.others s (State.loseCached t loc domain) := by
  unfold State.loseCached
  repeat' first
    | with_reducible exact Within.refl _ _
    | with_reducible assumption
    | exact rfl
    | with_reducible first
        | apply Within.ite | apply State.removeIndex_frame | apply State.rewriteLoc_frame | apply State.listExtents_others
    | with_reducible refine Within.foldl _ ?_ fun _ _ => ?_

theorem State.pushStamp_others port e : Within Part.others s (State.pushStamp t port e) := by
  unfold State.pushStamp
  repeat' first
    | with_reducible assumption
    | exact rfl
    | (with_reducible first | apply Within.ite | apply State.raise_within | apply State.showStamp_frame)
    | with_reducible refine Within.put (a := [.trn]) ?_ rfl rfl rfl rfl rfl

theorem State.emitFrame_others f : Within Part.others s (State.emitFrame t f) := by
  unfold State.emitFrame
  dsimp only
  repeat' first
    | with_reducible assumption
    | exact rfl
    | (with_reducible first | apply Within.ite | apply State.pushStamp_others | apply State.frameDone_frame | apply State.wireFrame_frame)
    | split

theorem State.transmitFrame_others f : Within Part.others s (State.transmitFrame t f) := by
  unfold State.transmitFrame
  repeat' first
    | with_reducible assumption
    | exact rfl
    | (with_reducible first | apply Within.ite | apply State.setLPort_frame | apply State.emitFrame_others)

theorem State.unpause_others l prio : Within Part.others s (State.unpause t l prio) := by
  unfold State.unpause
  repeat' first
    | with_reducible exact Within.refl _ _
    | with_reducible assumption
    | exact rfl
    | with_reducible first
        | apply Within.ite | apply State.setLPort_frame | apply State.releasePackets_frame | apply State.emitFrame_others
    | with_reducible refine Within.foldl _ ?_ fun _ _ => ?_

theorem State.indexDelta_others domain delta journals : Within Part.others s (State.indexDelta t domain delta journals) := by
  unfold State.indexDelta
  repeat' first
    | with_reducible exact Within.refl _ _
    | with_reducible assumption
    | exact rfl
    | (with_reducible first | apply Within.ite | apply State.insertIndex_frame | apply State.appendJournal_others)
    | with_reducible refine Within.foldl _ ?_ fun _ _ => ?_
    | split

theorem State.commitTag_others bt : Within Part.others s (State.commitTag t bt) := by
  unfold State.commitTag
  repeat' first
    | with_reducible assumption
    | exact rfl
    | with_reducible first
        | apply Within.ite | apply State.dropPending_frame | apply State.unpinChunks_frame | apply State.noteTags_frame
        | apply State.applyChange_frame | apply State.metaEvent_frame | apply State.settleFlush_frame | apply State.finish_frame
        | apply State.setRep_frame | apply State.joinStream_frame | apply State.settleRep_frame | apply State.modWrite_frame
        | apply State.indexDelta_others | apply State.countDelta_frame | apply State.updateFor_frame | apply State.deferUpdate_frame
    | split

theorem State.commitWaiting_others : Within Part.others s (State.commitWaiting t) := by
  unfold State.commitWaiting
  repeat' first
    | with_reducible exact Within.refl _ _
    | with_reducible assumption
    | exact rfl
    | (with_reducible first | apply Within.ite | apply State.modWrite_frame | apply State.commitTag_others)
    | with_reducible refine Within.foldl _ ?_ fun _ _ => ?_

theorem State.loseWrite_others loc : Within Part.others s (State.loseWrite t loc) := by
  unfold State.loseWrite
  repeat' first
    | with_reducible exact Within.refl _ _
    | with_reducible assumption
    | exact rfl
    | (with_reducible first | apply Within.ite | apply State.event1_frame | apply State.loseCached_others)
    | with_reducible refine Within.foldl _ ?_ fun _ _ => ?_

theorem State.settleAsk_others id copy : Within Part.others s (State.settleAsk t id copy) := by
  unfold State.settleAsk
  repeat' first
    | with_reducible assumption
    | exact rfl
    | (with_reducible first | apply Within.ite | apply State.event1_frame | apply State.loseWrite_others)
    | fail_if_no_progress (with_reducible refine Within.put (a := [.wc]) ?_ rfl rfl rfl rfl rfl)
    | split

theorem State.dropAsks_others : Within Part.others s (State.dropAsks t) := by
  unfold State.dropAsks
  repeat' first
    | with_reducible exact Within.refl _ _
    | with_reducible assumption
    | (with_reducible first | apply Within.ite | apply State.settleAsk_others)
    | with_reducible refine Within.foldl _ ?_ fun _ _ => ?_

theorem State.enterSolo_others : Within Part.others s (State.enterSolo t) := by
  unfold State.enterSolo
  repeat' first
    | with_reducible exact Within.refl _ _
    | with_reducible assumption
    | exact rfl
    | with_reducible first
        | apply Within.ite | apply State.setMode_frame | apply State.commitWaiting_others | apply State.emptySeg_frame
        | apply State.settleSegments_frame | apply State.dropAsks_others
    | with_reducible refine Within.foldl _ ?_ fun _ _ => ?_
    | with_reducible refine Within.put (a := [.wc]) ?_ rfl rfl rfl rfl rfl

theorem State.gatherLost_others id : Within Part.others s (State.gatherLost t id) := by
  unfold State.gatherLost
  repeat' first
    | with_reducible assumption
    | exact rfl
    | with_reducible first
        | apply Within.ite | apply State.event1_frame | apply State.loseContainer_others | apply State.countDecode_frame
        | apply State.failRead_frame | apply State.deliverSpan_frame | apply State.deliverCopy_frame
    | fail_if_no_progress (with_reducible refine Within.put (a := [.lfl]) ?_ rfl rfl rfl rfl rfl)
    | split

theorem State.loseWord_others q quire sig word members but : Within Part.others s (State.loseWord t q quire sig word members but) := by
  unfold State.loseWord
  repeat' first
    | with_reducible exact Within.refl _ _
    | with_reducible assumption
    | (with_reducible first | apply Within.ite | apply State.loseContainer_others)
    | with_reducible refine Within.foldl _ ?_ fun _ _ => ?_

theorem State.wordGone_others g want failed : Within Part.others s (State.wordGone t g want failed) := by
  unfold State.wordGone
  repeat' first
    | with_reducible assumption
    | (with_reducible first | apply Within.ite | apply State.gatherLost_others | apply State.loseWord_others)
    | split

theorem State.degradeWord_others r : Within Part.others s (State.degradeWord t r) := by
  unfold State.degradeWord
  repeat' first
    | with_reducible exact Within.refl _ _
    | with_reducible assumption
    | exact rfl
    | with_reducible first
        | apply Within.ite | apply State.sendRing_frame | apply State.sendRead_frame | apply State.gatherLost_others
        | apply State.noteTrailer_frame | apply State.notePatrol_frame | apply State.wordGone_others
    | with_reducible refine Within.foldl _ ?_ fun _ _ => ?_
    | fail_if_no_progress (with_reducible refine Within.put (a := [.lfl]) ?_ rfl rfl rfl rfl rfl)
    | split

theorem State.degradeWords_others r : Within Part.others s (State.degradeWords t r) := by
  unfold State.degradeWords
  repeat' first
    | with_reducible exact Within.refl _ _
    | with_reducible assumption
    | (with_reducible first | apply Within.ite | apply State.degradeWord_others)
    | with_reducible refine Within.foldl _ ?_ fun _ _ => ?_

theorem State.degrade_others r : Within Part.others s (State.degrade t r) := by
  unfold State.degrade
  repeat' first
    | with_reducible assumption
    | exact rfl
    | (with_reducible first | apply State.bump_frame | apply State.degradeWords_others)

theorem State.startRead_others r forced : Within Part.others s (State.startRead t r forced) := by
  unfold State.startRead
  repeat' first
    | with_reducible assumption
    | exact rfl
    | (with_reducible first | apply Within.ite | apply State.sendRead_frame | apply State.degrade_others)
    | split

theorem State.readMember_others r : Within Part.others s (State.readMember t r) := by
  unfold State.readMember
  repeat' first
    | with_reducible assumption
    | exact rfl
    | (with_reducible first | apply Within.ite | apply State.sendRead_frame | apply State.degradeWords_others)
    | split

theorem State.gather_others f loc forced : Within Part.others s (State.gather t f loc forced) := by
  unfold State.gather
  repeat' first
    | with_reducible exact Within.refl _ _
    | with_reducible assumption
    | exact rfl
    | (with_reducible first | apply Within.ite | apply State.deliverCopy_frame | apply State.startRead_others)
    | with_reducible refine Within.foldl _ ?_ fun _ _ => ?_
    | fail_if_no_progress (with_reducible refine Within.put (a := [.lfl]) ?_ rfl rfl rfl rfl rfl)
    | split

theorem State.fetchCopy_others f loc forced : Within Part.others s (State.fetchCopy t f loc forced) := by
  unfold State.fetchCopy
  repeat' first
    | with_reducible assumption
    | exact rfl
    | (with_reducible first | apply Within.ite | apply State.deliverCopy_frame | apply State.gather_others | apply State.askRemote_frame)
    | split

theorem State.startPieces_others bt pieces : Within Part.others s (State.startPieces t bt pieces) := by
  unfold State.startPieces
  dsimp only
  repeat' first
    | with_reducible exact Within.refl _ _
    | with_reducible assumption
    | exact rfl
    | with_reducible first
        | apply Within.ite | apply State.fetchCopy_others | apply State.pieceDone_frame | apply State.sendForwardedPiece_frame
    | with_reducible refine Within.foldl _ ?_ fun _ _ => ?_
    | split

theorem State.resolveRead_others bt : Within Part.others s (State.resolveRead t bt) := by
  unfold State.resolveRead
  dsimp only
  repeat' first
    | with_reducible assumption
    | exact rfl
    | with_reducible first
        | apply Within.ite | apply State.bump_frame | apply State.touchWalk_frame | apply State.modTag_frame | apply State.failRead_frame
        | apply State.checkRead_frame | apply State.startPieces_others
    | fail_if_no_progress (with_reducible refine Within.put (a := [.map]) ?_ rfl rfl rfl rfl rfl)
    | split

theorem State.resumeTag_others bt : Within Part.others s (State.resumeTag t bt) := by
  unfold State.resumeTag
  repeat' first
    | with_reducible assumption
    | (with_reducible first | apply Within.ite | apply State.commitTag_others | apply State.resolveRead_others)

theorem State.resumeMap_others : Within Part.others s (State.resumeMap t) := by
  unfold State.resumeMap
  repeat' first
    | with_reducible exact Within.refl _ _
    | with_reducible assumption
    | exact rfl
    | (with_reducible first | apply Within.ite | apply State.resumeDeltas_frame | apply State.resumeTag_others)
    | with_reducible refine Within.foldl _ ?_ fun _ _ => ?_
    | with_reducible refine Within.put (a := [.map]) ?_ rfl rfl rfl rfl rfl

theorem State.runJob_others bt : Within Part.others s (State.runJob t bt) := by
  unfold State.runJob
  repeat' first
    | with_reducible assumption
    | exact rfl
    | with_reducible first
        | apply Within.ite | apply State.setTag_frame | apply State.queueItems_frame | apply State.tryHandOff_frame
        | apply State.queueMeta_frame | apply State.fetchCopy_others
    | split

theorem State.startInternal_others bt : Within Part.others s (State.startInternal t bt) := by
  unfold State.startInternal
  repeat' first
    | with_reducible assumption
    | exact rfl
    | (with_reducible first | apply State.requestLock_frame | apply State.runJob_others)

theorem State.decodeTag_others bt : Within Part.others s (State.decodeTag t bt) := by
  unfold State.decodeTag
  repeat' first
    | with_reducible assumption
    | exact rfl
    | (with_reducible first | apply Within.ite | apply State.refuse_frame | apply State.advance_frame | apply State.startInternal_others)
    | split

theorem State.assignPair_others a b cls : Within Part.others s (State.assignPair t a b cls) := by
  unfold State.assignPair
  dsimp only
  repeat' first
    | with_reducible assumption
    | exact rfl
    | with_reducible first
        | apply Within.ite | apply State.modTag_frame | apply State.refuse_frame | apply State.giveTag_frame | apply State.decodeTag_others
    | fail_if_no_progress (with_reducible refine Within.put (a := [.cmd]) ?_ rfl rfl rfl rfl rfl)
    | split

theorem State.release_others bt : Within Part.others s (State.release t bt) := by
  unfold State.release
  repeat' first
    | with_reducible assumption
    | exact rfl
    | (with_reducible first | apply Within.ite | apply State.start_frame | apply State.advance_frame | apply State.runJob_others)
    | split

theorem State.releaseHeld_others : Within Part.others s (State.releaseHeld t) := by
  unfold State.releaseHeld
  repeat' first
    | with_reducible exact Within.refl _ _
    | with_reducible assumption
    | exact rfl
    | (with_reducible first | apply Within.ite | apply State.noteTags_frame | apply State.checkAbort_frame | apply State.release_others)
    | with_reducible refine Within.foldl _ ?_ fun _ _ => ?_

theorem State.askTrailers_others e : Within Part.others s (State.askTrailers t e) := by
  unfold State.askTrailers
  repeat' first
    | with_reducible exact Within.refl _ _
    | with_reducible assumption
    | exact rfl
    | (with_reducible first | apply Within.ite | apply State.noteTrailer_frame | apply State.readMember_others)
    | with_reducible refine Within.foldl _ ?_ fun _ _ => ?_
    | split

theorem State.endScan_others region : Within Part.others s (State.endScan t region) := by
  unfold State.endScan
  repeat' first
    | with_reducible exact Within.refl _ _
    | with_reducible assumption
    | exact rfl
    | (with_reducible first | apply Within.ite | apply State.gather_others | apply State.closeQuire_frame)
    | with_reducible refine Within.foldl _ ?_ fun _ _ => ?_
    | with_reducible refine Within.put (a := [.sig, .lfl]) ?_ rfl rfl rfl rfl rfl

theorem State.settleChecks_others : Within Part.others s (State.settleChecks t) := by
  unfold State.settleChecks
  dsimp only
  repeat' first
    | with_reducible exact Within.refl _ _
    | with_reducible assumption
    | exact rfl
    | (with_reducible first | apply Within.ite | apply State.endScan_others | apply State.tornSig_frame | apply State.wholeSig_frame)
    | with_reducible refine Within.foldl _ ?_ fun _ _ => ?_
    | fail_if_no_progress (with_reducible refine Within.put (a := [.sig]) ?_ rfl rfl rfl rfl rfl)
    | split

theorem State.takeFound_others region : Within Part.others s (State.takeFound t region) := by
  unfold State.takeFound
  repeat' first
    | with_reducible exact Within.refl _ _
    | with_reducible assumption
    | exact rfl
    | with_reducible first
        | apply Within.ite | apply State.scanEntry_frame | apply State.askTrailers_others | apply State.endScan_others
        | apply State.settleChecks_others
    | with_reducible refine Within.foldl _ ?_ fun _ _ => ?_
    | with_reducible refine Within.put (a := [.sig]) ?_ rfl rfl rfl rfl rfl

theorem State.takeRetake_others duty : Within Part.others s (State.takeRetake t duty) := by
  unfold State.takeRetake
  repeat' first
    | with_reducible exact Within.refl _ _
    | with_reducible assumption
    | (with_reducible first | apply Within.ite | apply State.askTrailers_others | apply State.settleChecks_others)
    | with_reducible refine Within.foldl _ ?_ fun _ _ => ?_
    | with_reducible refine Within.put (a := [.sig]) ?_ rfl rfl rfl rfl rfl

theorem State.scanDone_others l region : Within Part.others s (State.scanDone t l region) := by
  unfold State.scanDone
  repeat' first
    | with_reducible assumption
    | (with_reducible first | apply Within.ite | apply State.takeFound_others)
    | with_reducible refine Within.put (a := [.sig]) ?_ rfl rfl rfl rfl rfl

theorem State.scanOver_others l region : Within Part.others s (State.scanOver t l region) := by
  unfold State.scanOver
  repeat' first
    | with_reducible assumption
    | (with_reducible first | apply Within.ite | apply State.takeRetake_others | apply State.scanDone_others)
    | split

theorem State.deepCheck_others p q l : Within Part.others s (State.deepCheck t p q l) := by
  unfold State.deepCheck
  dsimp only
  repeat' first
    | with_reducible assumption
    | exact rfl
    | with_reducible first
        | apply Within.ite | apply State.bump_frame | apply State.event_frame | apply State.event1_frame | apply State.loseContainer_others
        | apply State.countDecode_frame
    | split

theorem State.judgePatrol_others p : Within Part.others s (State.judgePatrol t p) := by
  unfold State.judgePatrol
  repeat' first
    | with_reducible exact Within.refl _ _
    | with_reducible assumption
    | exact rfl
    | with_reducible first
        | apply Within.ite | apply State.bump_frame | apply State.event_frame | apply State.event1_frame | apply State.loseWord_others
        | apply State.queueQuire_frame | apply State.patrolStep_frame | apply State.deepCheck_others
    | with_reducible refine Within.foldl _ ?_ fun _ _ => ?_
    | split

theorem State.settlePatrols_others : Within Part.others s (State.settlePatrols t) := by
  unfold State.settlePatrols
  dsimp only
  repeat' first
    | with_reducible exact Within.refl _ _
    | with_reducible assumption
    | (with_reducible first | apply Within.ite | apply State.judgePatrol_others)
    | with_reducible refine Within.foldl _ ?_ fun _ _ => ?_
    | fail_if_no_progress (with_reducible refine Within.put (a := [.sig]) ?_ rfl rfl rfl rfl rfl)
    | split

theorem State.settleReadsOf_others : Within Part.others s (State.settleReadsOf t) := by
  unfold State.settleReadsOf
  repeat' first
    | with_reducible assumption
    | (with_reducible first | apply State.settleChecks_others | apply State.settlePatrols_others)

theorem State.askSecond_others bt k c p : Within Part.others s (State.askSecond t bt k c p) := by
  unfold State.askSecond
  repeat' first
    | with_reducible assumption
    | exact rfl
    | (with_reducible first | apply Within.ite | apply State.sendRing_frame | apply State.fetchCopy_others)
    | split

theorem State.unreadable_others r : Within Part.others s (State.unreadable t r) := by
  unfold State.unreadable
  repeat' first
    | with_reducible assumption
    | exact rfl
    | with_reducible first
        | apply Within.ite | apply State.bump_frame | apply State.event_frame | apply State.degradeWord_others | apply State.degrade_others
        | apply State.noteWord_frame | apply State.retireDie_frame
    | split

theorem State.nextStep_others r fixed older : Within Part.others s (State.nextStep t r fixed older) := by
  unfold State.nextStep
  repeat' first
    | with_reducible assumption
    | exact rfl
    | with_reducible first
        | apply Within.ite | apply State.bump_frame | apply State.sendRead_frame | apply State.noteWord_frame
        | apply State.unreadable_others

theorem State.takeWord_others r older w : Within Part.others s (State.takeWord t r older w) := by
  unfold State.takeWord
  repeat' first
    | with_reducible assumption
    | exact rfl
    | with_reducible first
        | apply Within.ite | apply State.bump_frame | apply State.deliverWord_frame | apply State.noteWord_frame
        | apply State.nextStep_others | apply State.valleyRead_frame
    | split

theorem State.slowRead_others id op r proxied : Within Part.others s (State.slowRead t id op r proxied) := by
  unfold State.slowRead
  repeat' first
    | with_reducible assumption
    | exact rfl
    | (with_reducible first | apply Within.ite | apply State.degradeWords_others | apply State.overtake_frame | apply State.askMember_frame)
    | split

theorem State.consistencyCut_others group : Within Part.others s (State.consistencyCut t group) := by
  unfold State.consistencyCut
  repeat' first
    | with_reducible exact Within.refl _ _
    | with_reducible assumption
    | exact rfl
    | with_reducible first
        | apply Within.ite | apply State.wr_frame | apply State.event_frame | apply State.releaseHeld_others | apply State.cutMember_frame
    | with_reducible refine Within.foldl _ ?_ fun _ _ => ?_
    | with_reducible refine Within.put (a := [.map]) ?_ rfl rfl rfl rfl rfl

theorem State.listRange_others nsid snap lba blocks : Within Part.others s (State.listRange t nsid snap lba blocks) := by
  unfold State.listRange
  repeat' first
    | with_reducible exact Within.refl _ _
    | with_reducible assumption
    | (with_reducible first | apply Within.ite | apply State.lostAppend_others)
    | with_reducible refine Within.foldl _ ?_ fun _ _ => ?_

theorem State.listPage_others n : Within Part.others s (State.listPage t n) := by
  unfold State.listPage
  repeat' first
    | with_reducible exact Within.refl _ _
    | with_reducible assumption
    | (with_reducible first | apply Within.ite | apply State.listRange_others)
    | with_reducible refine Within.foldl _ ?_ fun _ _ => ?_

theorem State.resumeFaults_others n : Within Part.others s (State.resumeFaults t n) := by
  unfold State.resumeFaults
  repeat' first
    | with_reducible exact Within.refl _ _
    | with_reducible assumption
    | exact rfl
    | with_reducible first
        | apply Within.ite | apply State.settleSegments_frame | apply State.resumeTag_others | apply State.resumeMap_others
    | with_reducible refine Within.foldl _ ?_ fun _ _ => ?_
    | with_reducible refine Within.put (a := [.map]) ?_ rfl rfl rfl rfl rfl

theorem State.openTakeover_others term : Within Part.others s (State.openTakeover t term) := by
  unfold State.openTakeover
  repeat' first
    | with_reducible assumption
    | exact rfl
    | with_reducible first
        | apply State.wr_frame | apply State.peak_frame | apply State.event1_frame | apply State.enterSolo_others
        | apply State.endContest_frame | apply State.adopt_frame | apply State.dropSuspicion_frame

theorem State.sweepExact_others : Within Part.others s (State.sweepExact t) := by
  unfold State.sweepExact
  repeat' first
    | with_reducible exact Within.refl _ _
    | with_reducible assumption
    | exact rfl
    | (with_reducible first | apply Within.ite | apply State.raise_within)
    | with_reducible refine Within.foldl _ ?_ fun _ _ => ?_

theorem State.takeOver_others term : Within Part.others s (State.takeOver t term) := by
  unfold State.takeOver
  repeat' first
    | with_reducible assumption
    | exact rfl
    | with_reducible first
        | apply State.event1_frame | apply State.anaChange_frame | apply State.setPeer_frame | apply State.releaseHeld_others
        | apply State.repTakeover_frame | apply State.failMove_frame | apply State.clearMove_frame | apply State.takeGroups_frame
        | apply State.resolveForwarded_frame | apply State.dropInward_frame | apply State.countTakeover_frame
        | apply State.openTakeover_others | apply State.sweepExact_others | apply State.takeLedger_frame

theorem State.winContest_others term : Within Part.others s (State.winContest t term) := by
  unfold State.winContest
  repeat' first
    | with_reducible assumption
    | exact rfl
    | (with_reducible first | apply State.takeOver_others | apply State.fenceLeaves_frame)

theorem State.loseContest_others term : Within Part.others s (State.loseContest t term) := by
  unfold State.loseContest
  repeat' first
    | with_reducible assumption
    | exact rfl
    | with_reducible first
        | apply State.wr_frame | apply State.fresh_frame | apply State.event1_frame | apply State.anaChange_frame
        | apply State.setPeer_frame | apply State.releaseHeld_others | apply State.endContest_frame | apply State.askRejoin_frame
        | apply State.setLoser_frame | apply State.endWaiting_frame

theorem State.judgeRound_others : Within Part.others s (State.judgeRound t) := by
  unfold State.judgeRound
  repeat' first
    | with_reducible assumption
    | exact rfl
    | with_reducible first
        | apply Within.ite | apply State.openRound_frame | apply State.winContest_others | apply State.loseContest_others
    | split

theorem State.startCas_others c : Within Part.others s (State.startCas t c) := by
  unfold State.startCas
  repeat' first
    | with_reducible exact Within.refl _ _
    | with_reducible assumption
    | exact rfl
    | (with_reducible first | apply Within.ite | apply State.sendCas_frame | apply State.endContest_frame | apply State.judgeRound_others)
    | with_reducible refine Within.foldl _ ?_ fun _ _ => ?_
    | with_reducible refine Within.put (a := [.own]) ?_ rfl rfl rfl rfl rfl

theorem State.settleReads_others : Within Part.others s (State.settleReads t) := by
  unfold State.settleReads
  repeat' first
    | with_reducible assumption
    | (with_reducible first | apply Within.ite | apply State.startCas_others)
    | split

theorem State.startRound_others c : Within Part.others s (State.startRound t c) := by
  unfold State.startRound
  repeat' first
    | with_reducible exact Within.refl _ _
    | with_reducible assumption
    | exact rfl
    | (with_reducible first | apply Within.ite | apply State.leafOp_frame | apply State.settleReads_others)
    | with_reducible refine Within.foldl _ ?_ fun _ _ => ?_
    | with_reducible refine Within.put (a := [.own]) ?_ rfl rfl rfl rfl rfl

theorem State.startContest_others atStart : Within Part.others s (State.startContest t atStart) := by
  unfold State.startContest
  repeat' first
    | with_reducible assumption
    | exact rfl
    | (with_reducible first | apply Within.ite | apply State.wr_frame | apply State.startRound_others)

theorem State.witnessIn_others l w : Within Part.others s (State.witnessIn t l w) := by
  unfold State.witnessIn
  dsimp only
  repeat' first
    | with_reducible assumption
    | exact rfl
    | (with_reducible first | apply Within.ite | apply State.noteWitness_frame | apply State.sendCas_frame | apply State.settleReads_others)
    | fail_if_no_progress (with_reducible refine Within.put (a := [.own]) ?_ rfl rfl rfl rfl rfl)
    | split

theorem State.casIn_others l w installed : Within Part.others s (State.casIn t l w installed) := by
  unfold State.casIn
  extract_lets noted won
  have hnoted : Within Part.others s noted := by
    unfold noted
    split
    · exact State.noteWitness_frame _ _ h rfl
    · exact h
  have hwon : Within Part.others s won := State.noteWon_frame _ _ hnoted rfl
  clear_value won
  split
  · exact .ite (State.takeBlocks_frame _ hwon rfl) hwon
  · exact .ite hwon (State.judgeRound_others (.put (a := [.own]) hwon rfl rfl rfl rfl rfl))

theorem State.clearSuspicion_others : Within Part.others s (State.clearSuspicion t) := by
  unfold State.clearSuspicion
  repeat' first
    | with_reducible assumption
    | exact rfl
    | with_reducible first
        | apply Within.ite | apply State.event_frame | apply State.anaChange_frame | apply State.setPeer_frame
        | apply State.releaseHeld_others | apply State.endContest_frame | apply State.leaveSuspect_frame
    | with_reducible refine Within.put (a := [.own]) ?_ rfl rfl rfl rfl rfl

theorem State.askedAgain_others bt c bu : Within Part.others s (State.askedAgain t bt c bu) := by
  unfold State.askedAgain
  dsimp only
  repeat' first
    | with_reducible assumption
    | exact rfl
    | (with_reducible first | apply Within.ite | apply State.modPiece_frame | apply State.askSecond_others)
    | split

theorem State.endMove_others g x : Within Part.others s (State.endMove t g x) := by
  unfold State.endMove
  repeat' first
    | with_reducible assumption
    | exact rfl
    | with_reducible first
        | apply Within.ite | apply State.wr_frame | apply State.event1_frame | apply State.anaChange_frame | apply State.setGroup_frame
        | apply State.releaseHeld_others
    | with_reducible refine Within.put (a := [.own]) ?_ rfl rfl rfl rfl rfl

theorem State.setLink_others l x : Within Part.others s (State.setLink t l x) := by
  unfold State.setLink
  repeat' first
    | with_reducible assumption
    | exact rfl
    | with_reducible first
        | apply Within.ite | apply State.wr_frame | apply State.raise_within | apply State.dropLink_frame | apply State.mirrorReady_frame
    | with_reducible refine Within.put (a := [.xrn]) ?_ rfl rfl rfl rfl rfl

theorem State.settleHello_others l bh : Within Part.others s (State.settleHello t l bh) := by
  unfold State.settleHello
  repeat' first
    | with_reducible assumption
    | exact rfl
    | with_reducible first
        | apply Within.ite | apply State.wr_frame | apply State.event1_frame | apply State.askRejoin_frame | apply State.setLink_others
        | apply State.reportLinks_frame

theorem State.ringLinkDown_others l partials : Within Part.others s (State.ringLinkDown t l partials) := by
  unfold State.ringLinkDown
  repeat' first
    | with_reducible assumption
    | exact rfl
    | with_reducible first
        | apply Within.ite | apply State.wr_frame | apply State.bump_frame | apply State.event1_frame | apply State.setLink_others
        | apply State.reportLinks_frame

theorem State.stopRing_others : Within Part.others s (State.stopRing t) := by
  unfold State.stopRing
  repeat' first
    | with_reducible exact Within.refl _ _
    | with_reducible assumption
    | exact rfl
    | (with_reducible first | apply Within.ite | apply State.wr_frame | apply State.ringLinkDown_others)
    | with_reducible refine Within.foldl _ ?_ fun _ _ => ?_

theorem State.stepTime_others ticks : Within Part.others s (State.stepTime t ticks) := by
  unfold State.stepTime
  repeat' first
    | with_reducible exact Within.refl _ _
    | with_reducible assumption
    | exact rfl
    | (with_reducible first | apply Within.ite | apply State.consistencyCut_others | apply State.advanceTime_frame)
    | with_reducible refine Within.foldl _ ?_ fun _ _ => ?_

theorem State.servo_others offset : Within Part.others s (State.servo t offset) := by
  unfold State.servo
  repeat' first
    | with_reducible assumption
    | exact rfl
    | with_reducible first
        | apply Within.ite | apply State.wr_frame | apply State.event_frame | apply State.setDevice_frame | apply State.stepTime_others
        | apply State.countLock_frame
    | with_reducible refine Within.put (a := [.xrn]) ?_ rfl rfl rfl rfl rfl

theorem State.beginTrial_others : Within Part.others s (State.beginTrial t) := by
  unfold State.beginTrial
  repeat' first
    | with_reducible assumption
    | exact rfl
    | with_reducible first
        | apply State.wr_frame | apply State.event_frame | apply State.releaseHeld_others | apply State.noteImage_frame
        | apply State.endBoot_frame | apply State.endCommit_frame | apply State.helloAll_frame | apply State.startTrial_frame

theorem State.endFailedTrial_others dropped reason : Within Part.others s (State.endFailedTrial t dropped reason) := by
  unfold State.endFailedTrial
  repeat' first
    | with_reducible exact Within.refl _ _
    | with_reducible assumption
    | exact rfl
    | with_reducible first
        | apply Within.ite | apply State.wr_frame | apply State.event1_frame | apply State.releaseHeld_others
        | apply State.appendRecord_frame | apply State.noteImage_frame | apply State.endBoot_frame | apply State.helloAll_frame
        | apply State.endTrial_frame
    | with_reducible refine Within.foldl _ ?_ fun _ _ => ?_

theorem State.replaceBad_others loc : Within Part.others s (State.replaceBad t loc) := by
  unfold State.replaceBad
  repeat' first
    | with_reducible assumption
    | exact rfl
    | (with_reducible first | apply Within.ite | apply State.sendRing_frame | apply State.loseWrite_others)
    | with_reducible refine Within.put (a := [.wc]) ?_ rfl rfl rfl rfl rfl

theorem State.visitQuire_others leaf n : Within Part.others s (State.visitQuire t leaf n) := by
  unfold State.visitQuire
  repeat' first
    | with_reducible exact Within.refl _ _
    | with_reducible assumption
    | (with_reducible first | apply Within.ite | apply State.readMember_others)
    | with_reducible refine Within.foldl _ ?_ fun _ _ => ?_
    | split

theorem State.readFailed_others r forced : Within Part.others s (State.readFailed t r forced) := by
  unfold State.readFailed
  repeat' first
    | with_reducible assumption
    | with_reducible first
        | apply Within.ite | apply State.degradeWord_others | apply State.degradeWords_others | apply State.startRead_others
    | split

theorem State.pathLost_others id op : Within Part.others s (State.pathLost t id op) := by
  unfold State.pathLost
  repeat' first
    | with_reducible assumption
    | exact rfl
    | with_reducible first
        | apply Within.ite | apply State.event1_frame | apply State.folioFailed_frame | apply State.loseCopy_frame
        | apply State.scanOver_others | apply State.witnessIn_others | apply State.casIn_others | apply State.readFailed_others
        | apply State.eraseLost_frame | apply State.rereadCopy_frame
    | fail_if_no_progress (with_reducible refine Within.put (a := [.lfl]) ?_ rfl rfl rfl rfl rfl)
    | split

theorem State.loseChain_others lane pos : Within Part.others s (State.loseChain t lane pos) := by
  unfold State.loseChain
  repeat' first
    | with_reducible exact Within.refl _ _
    | with_reducible assumption
    | exact rfl
    | (with_reducible first | apply Within.ite | apply State.settleReadsOf_others | apply State.pathLost_others | apply State.unreach_frame)
    | with_reducible refine Within.foldl _ ?_ fun _ _ => ?_

theorem State.dropHop_others lane pos : Within Part.others s (State.dropHop t lane pos) := by
  unfold State.dropHop
  repeat' first
    | with_reducible assumption
    | exact rfl
    | with_reducible first
        | apply Within.ite | apply State.wr_frame | apply State.raise_within | apply State.event_frame | apply State.setHop_frame
        | apply State.enumerate_frame | apply State.loseChain_others

theorem State.hopTo_others lane pos new : Within Part.others s (State.hopTo t lane pos new) := by
  unfold State.hopTo
  dsimp only
  repeat' first
    | with_reducible assumption
    | exact rfl
    | with_reducible first
        | apply Within.ite | apply State.event_frame | apply State.moveHop_frame | apply State.retrainHop_frame | apply State.dropHop_others
    | split

theorem State.leafError_others op status : Within Part.others s (State.leafError t op status) := by
  unfold State.leafError
  repeat' first
    | with_reducible assumption
    | exact rfl
    | with_reducible first
        | apply Within.ite | apply State.putLeaf_frame | apply State.setBlocks_frame | apply State.folioFailed_frame
        | apply State.loseCopy_frame | apply State.freeQuire_frame | apply State.markErased_frame | apply State.scanOver_others
        | apply State.witnessIn_others | apply State.casIn_others | apply State.readFailed_others | apply State.eraseLost_frame
        | apply State.rereadCopy_frame
    | split

theorem State.fetchSpan_others slot tile : Within Part.others s (State.fetchSpan t slot tile) := by
  unfold State.fetchSpan
  repeat' first
    | with_reducible assumption
    | exact rfl
    | (with_reducible first | apply Within.ite | apply State.modSpan_frame | apply State.fetchCopy_others)
    | split

theorem State.fetchSpans_others slot : Within Part.others s (State.fetchSpans t slot) := by
  unfold State.fetchSpans
  repeat' first
    | with_reducible exact Within.refl _ _
    | with_reducible assumption
    | (with_reducible first | apply Within.ite | apply State.fetchSpan_others)
    | with_reducible refine Within.foldl _ ?_ fun _ _ => ?_
    | split

theorem State.spanBytes_others slot r i tile p bytes zero : Within Part.others s (State.spanBytes t slot r i tile p bytes zero) := by
  unfold State.spanBytes
  repeat' first
    | with_reducible assumption
    | exact rfl
    | (with_reducible first | apply Within.ite | apply State.runPiece_frame | apply State.fetchSpan_others)

theorem State.spanSecond_others slot tile r loc code : Within Part.others s (State.spanSecond t slot tile r loc code) := by
  unfold State.spanSecond
  repeat' first
    | with_reducible assumption
    | exact rfl
    | with_reducible first
        | apply Within.ite | apply State.sendRing_frame | apply State.countDecode_frame | apply State.modSpan_frame
        | apply State.fetchCopy_others
    | split

theorem State.spanPiece_others slot r tile faults : Within Part.others s (State.spanPiece t slot r tile faults) := by
  unfold State.spanPiece
  dsimp only
  repeat' first
    | with_reducible assumption
    | exact rfl
    | with_reducible first
        | apply Within.ite | apply State.noteUncorr_frame | apply State.event1_frame | apply State.countDecode_frame
        | apply State.endRun_frame | apply State.fetchSpan_others | apply State.spanBytes_others | apply State.spanSecond_others
        | apply State.spanFault_frame
    | split

theorem State.cutLinks_others q : Within Part.others s (State.cutLinks t q) := by
  unfold State.cutLinks
  repeat' first
    | with_reducible exact Within.refl _ _
    | with_reducible assumption
    | exact rfl
    | (with_reducible first | apply Within.ite | apply State.ringLinkDown_others | apply State.dropHop_others | apply State.fenceTile_frame)
    | with_reducible refine Within.foldl _ ?_ fun _ _ => ?_
    | split

theorem State.rotationCover_others q : Within Part.others s (State.rotationCover t q) := by
  unfold State.rotationCover
  repeat' first
    | with_reducible assumption
    | exact rfl
    | with_reducible first
        | apply Within.ite | apply State.event_frame | apply State.takeUpWork_frame | apply State.fenceOnly_frame | apply State.fence_others
        | apply State.takeUpWaking_frame

theorem State.quarterFault_others q : Within Part.others s (State.quarterFault t q) := by
  unfold State.quarterFault
  repeat' first
    | with_reducible assumption
    | exact rfl
    | with_reducible first
        | apply Within.ite | apply State.headLoss_frame | apply State.pumpLanes_frame | apply State.cutLinks_others
        | apply State.faultMeetsTest_frame | apply State.rotationCover_others

theorem State.darkenAll_others : Within Part.others s (State.darkenAll t) := by
  unfold State.darkenAll
  repeat' first
    | with_reducible exact Within.refl _ _
    | with_reducible assumption
    | exact rfl
    | (with_reducible first | apply Within.ite | apply State.fenceAll_frame | apply State.cutLinks_others)
    | with_reducible refine Within.foldl _ ?_ fun _ _ => ?_

theorem State.thermalTrip_others : Within Part.others s (State.thermalTrip t) := by
  unfold State.thermalTrip
  repeat' first
    | with_reducible assumption
    | exact rfl
    | with_reducible first
        | apply State.event_frame | apply State.headLoss_frame | apply State.darkenAll_others | apply State.markTrip_frame

theorem State.thermalChange_others old new : Within Part.others s (State.thermalChange t old new) := by
  unfold State.thermalChange
  repeat' first
    | with_reducible assumption
    | exact rfl
    | (with_reducible first | apply Within.ite | apply State.event_frame | apply State.recallUpper_frame | apply State.thermalTrip_others)
    | split

theorem State.applyReplica_others parts : Within Part.others s (State.applyReplica t parts) := by
  unfold State.applyReplica
  dsimp only
  repeat' first
    | with_reducible exact Within.refl _ _
    | with_reducible assumption
    | exact rfl
    | with_reducible first
        | apply Within.ite | apply State.noteMap_frame | apply State.replicaDelta_frame | apply State.applyRootChange_frame
        | apply State.indexDelta_others | apply State.countDelta_frame
    | with_reducible refine Within.foldl _ ?_ fun _ _ => ?_
    | fail_if_no_progress (with_reducible refine Within.put (a := [.wc]) ?_ rfl rfl rfl rfl rfl)
    | split

theorem State.applyRecord_others r : Within Part.others s (State.applyRecord t r) := by
  unfold State.applyRecord
  dsimp only
  repeat' first
    | with_reducible exact Within.refl _ _
    | with_reducible assumption
    | exact rfl
    | with_reducible first
        | apply Within.ite | apply State.rewriteLoc_frame | apply State.noteDirty_frame | apply State.markApplied_frame
        | apply State.applyReplica_others | apply State.setMirror_frame | apply State.setWaitingParts_frame
    | with_reducible refine Within.foldl _ ?_ fun _ _ => ?_
    | fail_if_no_progress (with_reducible refine Within.put (a := [.map]) ?_ rfl rfl rfl rfl rfl)
    | split

theorem State.receiveRecord_others r crc : Within Part.others s (State.receiveRecord t r crc) := by
  unfold State.receiveRecord
  dsimp only
  repeat' first
    | with_reducible exact Within.refl _ _
    | with_reducible assumption
    | exact rfl
    | with_reducible first
        | apply Within.ite | apply State.bump_frame | apply State.event1_frame | apply State.sendRing_frame | apply State.applyRecord_others
    | fail_if_no_progress (with_reducible refine Within.put (a := [.wc]) ?_ rfl rfl rfl rfl rfl)
    | split

theorem State.acked_others n x : Within Part.others s (State.acked t n x) := by
  unfold State.acked
  dsimp only
  repeat' first
    | with_reducible exact Within.refl _ _
    | with_reducible assumption
    | exact rfl
    | with_reducible first
        | apply Within.ite | apply State.modWrite_frame | apply State.noteMirror_frame | apply State.pumpMirror_frame
        | apply State.commitTag_others | apply State.setMode_frame | apply State.emptySeg_frame | apply State.settleSegments_frame
        | apply State.endResync_frame
    | with_reducible refine Within.foldl _ ?_ fun _ _ => ?_
    | fail_if_no_progress (with_reducible refine Within.put (a := [.wc]) ?_ rfl rfl rfl rfl rfl)
    | split

theorem State.testInService_others q force : Within Part.others s (State.testInService t q force) := by
  unfold State.testInService
  repeat' first
    | with_reducible assumption
    | exact rfl
    | with_reducible first
        | apply Within.ite | apply State.dropPort_others | apply State.cutLinks_others | apply State.refuseTest_frame
        | apply State.startRotation_frame | apply State.startDirect_frame
    | split

theorem State.dropUnused_others port : Within Part.others s (State.dropUnused t port) := by
  unfold State.dropUnused
  repeat' first
    | with_reducible assumption
    | exact rfl
    | (with_reducible first | apply State.wr_frame | apply State.raise_within)

theorem State.afterWrite_others before : Within Part.others s (State.afterWrite t before) := by
  unfold State.afterWrite
  repeat' first
    | with_reducible exact Within.refl _ _
    | with_reducible assumption
    | exact rfl
    | with_reducible first
        | apply Within.ite | apply State.wr_frame | apply State.dropPort_others | apply State.settlePs_frame | apply State.resumeMap_others
        | apply State.startRing_frame | apply State.stopRing_others | apply State.dropHop_others | apply State.dropUnused_others
    | with_reducible refine Within.foldl _ ?_ fun _ _ => ?_

end
theorem execLinkChange_others lport up s : Lands Part.others s (execLinkChange lport up s) := by
  unfold execLinkChange
  repeat' first
    | with_reducible exact Within.refl _ _
    | exact rfl
    | (with_reducible first | apply Lands.next | apply Lands.ite | apply State.wr_frame | apply State.raise_within)

theorem execPfcReceive_others lport times s : Lands Part.others s (execPfcReceive lport times s) := by
  unfold execPfcReceive
  repeat' first
    | with_reducible exact Within.refl _ _
    | exact rfl
    | with_reducible first
        | apply Lands.next | apply Lands.ite | apply Within.ite | apply State.setLPort_frame | apply State.unpause_others
    | with_reducible refine Within.foldl _ ?_ fun _ _ => ?_

theorem execPfcPauseExpiry_others lport priority s : Lands Part.others s (execPfcPauseExpiry lport priority s) := by
  unfold execPfcPauseExpiry
  repeat' first
    | with_reducible exact Within.refl _ _
    | (with_reducible first | apply Lands.next | apply State.unpause_others)

theorem execFrameTransmit_others frame s : Lands Part.others s (execFrameTransmit frame s) := by
  unfold execFrameTransmit
  repeat' first
    | with_reducible exact Within.refl _ _
    | (with_reducible first | apply Lands.next | apply State.transmitFrame_others)

theorem execTagAssign_others s : Lands Part.others s (execTagAssign s) := by
  unfold execTagAssign
  dsimp only
  repeat' first
    | with_reducible exact Within.refl _ _
    | exact rfl
    | with_reducible first
        | apply Lands.next | apply Lands.ite | apply Within.ite | apply State.noteTags_frame | apply State.refuse_frame
        | apply State.choose_frame | apply State.giveTag_frame | apply State.decodeTag_others | apply State.assignPair_others
    | split

theorem execHoldRelease_others s : Lands Part.others s (execHoldRelease s) := by
  unfold execHoldRelease
  repeat' first
    | with_reducible exact Within.refl _ _
    | (with_reducible first | apply Lands.next | apply State.releaseHeld_others)

theorem execPs3ExitEnd_others s : Lands Part.others s (execPs3ExitEnd s) := by
  unfold execPs3ExitEnd
  split
  · extract_lets ps woken effective again cmd fresh released
    have hwoken : Within Part.others s woken :=
      State.leavePs3_frame _ (State.thawRuns_frame (.foldl _ (.refl _ _) fun u q => State.ps3Up_frame q (.refl _ _) rfl) rfl) rfl
    clear_value woken
    have heffective : Within Part.others s effective := State.wr_frame _ _ _ _ (State.wr_frame _ _ _ _ hwoken rfl) rfl
    clear_value effective
    have hfresh : Within Part.others s fresh := .put (a := [.cmd]) heffective rfl rfl rfl rfl rfl
    clear_value fresh
    have hreleased : Within Part.others s released := State.releaseHeld_others (State.settleBudget_frame hfresh rfl)
    clear_value released
    exact Within.ite (State.settlePs_frame _ hreleased rfl) hreleased
  · exact .refl _ _

theorem execRead_others tag s : Lands Part.others s (execRead tag s) := by
  unfold execRead
  repeat' first
    | with_reducible exact Within.refl _ _
    | exact rfl
    | (with_reducible first | apply Lands.next | apply State.begin_frame | apply State.resolveRead_others)
    | intro _

theorem execCompare_others tag s : Lands Part.others s (execCompare tag s) := by
  unfold execCompare
  repeat' first
    | with_reducible exact Within.refl _ _
    | exact rfl
    | with_reducible first
        | apply Lands.next | apply Lands.ite | apply Within.ite | apply State.queueRead_frame | apply State.modTag_frame
        | apply State.begin_frame | apply State.resolveRead_others | apply State.checkCompare_frame
    | intro _
    | split

theorem execContainerDecode_others tag at_ s : Lands Part.others s (execContainerDecode tag at_ s) := by
  unfold execContainerDecode
  repeat' first
    | with_reducible exact Within.refl _ _
    | exact rfl
    | with_reducible first
        | apply Lands.next | apply Lands.ite | apply Within.ite | apply State.noteUncorr_frame | apply State.countDecode_frame
        | apply State.modPiece_frame | apply State.sendForwardedPiece_frame | apply State.failKey_frame | apply State.pieceBytes_frame
        | apply State.askSecond_others | apply State.readFault_frame
    | split

theorem execSecondCopyArrive_others tag piece copy s : Lands Part.others s (execSecondCopyArrive tag piece copy s) := by
  unfold execSecondCopyArrive
  dsimp only
  repeat' first
    | with_reducible exact Within.refl _ _
    | exact rfl
    | with_reducible first
        | apply Lands.next | apply Lands.ite | apply Within.ite | apply State.event1_frame | apply State.settleAsk_others
        | apply State.countDecode_frame | apply State.failRead_frame | apply State.sendForwardedPiece_frame | apply State.failKey_frame
        | apply State.pieceBytes_frame | apply State.readFault_frame | apply State.spanCopy_frame
    | split

theorem execLeafReadCompletion_others id used current words s : Lands Part.others s (execLeafReadCompletion id used current words s) := by
  unfold execLeafReadCompletion
  repeat' first
    | with_reducible exact Within.refl _ _
    | exact rfl
    | with_reducible first
        | apply Lands.next | apply Lands.ite | apply Within.ite | apply State.endLeafOp_frame | apply State.settleReadsOf_others
        | apply State.noteWord_frame | apply State.valleyEnd_frame | apply State.takeWord_others
    | with_reducible refine Within.foldl _ ?_ fun _ _ => ?_
    | split

theorem execSlowMemberTimeout_others id s : Lands Part.others s (execSlowMemberTimeout id s) := by
  unfold execSlowMemberTimeout
  repeat' first
    | with_reducible exact Within.refl _ _
    | (with_reducible first | apply Lands.next | apply Lands.ite | apply Within.ite | apply State.slowRead_others)
    | split

theorem execProxyReadData_others id words s : Lands Part.others s (execProxyReadData id words s) := by
  unfold execProxyReadData
  dsimp only
  repeat' first
    | with_reducible exact Within.refl _ _
    | with_reducible assumption
    | exact rfl
    | with_reducible first
        | apply Lands.next | apply Lands.ite | apply Within.ite | apply State.deliverWord_frame | apply State.degradeWords_others
        | apply State.degrade_others | apply State.settleReadsOf_others
    | with_reducible refine Within.foldl _ ?_ fun _ _ => ?_
    | fail_if_no_progress (with_reducible refine Within.put (a := [.lfl]) ?_ rfl rfl rfl rfl rfl)
    | split

theorem execConsistencyCut_others group s : Lands Part.others s (execConsistencyCut group s) := by
  unfold execConsistencyCut
  repeat' first
    | with_reducible exact Within.refl _ _
    | (with_reducible first | apply Lands.next | apply State.consistencyCut_others)

theorem execCgArm_others group s : Lands Part.others s (execCgArm group s) := by
  unfold execCgArm
  repeat' first
    | with_reducible exact Within.refl _ _
    | exact rfl
    | with_reducible first
        | apply Lands.next | apply Lands.ite | apply State.wr_frame | apply State.event_frame | apply State.consistencyCut_others

theorem execCgAbandon_others group s : Lands Part.others s (execCgAbandon group s) := by
  unfold execCgAbandon
  repeat' first
    | with_reducible exact Within.refl _ _
    | exact rfl
    | with_reducible first
        | apply Lands.next | apply Lands.ite | apply Within.ite | apply State.wr_frame | apply State.event_frame | apply State.refuse_frame
        | apply State.consistencyCut_others
    | with_reducible refine Within.foldl _ ?_ fun _ _ => ?_
    | with_reducible refine Within.put (a := [.map]) ?_ rfl rfl rfl rfl rfl

theorem execPageInComplete_others page result s : Lands Part.others s (execPageInComplete page result s) := by
  unfold execPageInComplete
  repeat' first
    | with_reducible exact Within.refl _ _
    | with_reducible assumption
    | exact rfl
    | (extract_lets +onlyGivenNames x
       with_reducible refine Lands.cut (u := x) ?_ fun _ => ?_
       on_goal 2 => clear_value x; rename' x => y
       unfold x; clear x)
    | (extract_lets +onlyGivenNames x; clear_value x; rename' x => z)
    | with_reducible first
        | apply Lands.next | apply Lands.ite | apply Within.ite | apply State.event_frame | apply State.setPage_frame
        | apply State.dropPageLines_frame | apply State.noteMap_frame | apply State.takeSlot_frame | apply State.listPage_others
        | apply State.resumeFaults_others
    | split
    | (with_reducible refine Within.of_pair (by assumption) ?_)

theorem execReclaimPage_others s : Lands Part.others s (execReclaimPage s) := by
  unfold execReclaimPage
  repeat' first
    | with_reducible exact Within.refl _ _
    | exact rfl
    | with_reducible first
        | apply Lands.next | apply Lands.ite | apply Within.ite | apply State.dropDir_frame | apply State.dropRef_frame
        | apply State.noteMap_frame | apply State.dropPage_frame | apply State.resumeMap_others
    | with_reducible refine Within.foldl _ ?_ fun _ _ => ?_
    | with_reducible refine Within.put (a := [.map]) ?_ rfl rfl rfl rfl rfl
    | split

theorem execHeartbeat_others beat s : Lands Part.others s (execHeartbeat beat s) := by
  unfold execHeartbeat
  repeat' first
    | with_reducible exact Within.refl _ _
    | exact rfl
    | with_reducible first
        | apply Lands.next | apply Lands.ite | apply Within.ite | apply State.peak_frame | apply State.setPeer_frame
        | apply State.proposeEpoch_frame | apply State.askRejoin_frame | apply State.clearSuspicion_others
    | with_reducible refine Within.put (a := [.own]) ?_ rfl rfl rfl rfl rfl

theorem execPeerSuspect_others s : Lands Part.others s (execPeerSuspect s) := by
  unfold execPeerSuspect
  repeat' first
    | with_reducible exact Within.refl _ _
    | exact rfl
    | with_reducible first
        | apply Lands.next | apply Lands.ite | apply Within.ite | apply State.event_frame | apply State.anaChange_frame
        | apply State.setPeer_frame | apply State.enterSuspect_frame | apply State.startContest_others
    | with_reducible refine Within.put (a := [.own]) ?_ rfl rfl rfl rfl rfl

theorem execStuckSuspectExpiry_others s : Lands Part.others s (execStuckSuspectExpiry s) := by
  unfold execStuckSuspectExpiry
  repeat' first
    | with_reducible exact Within.refl _ _
    | (with_reducible first | apply Lands.next | apply Lands.ite | apply State.startContest_others)

theorem execPfHoldoffExpiry_others s : Lands Part.others s (execPfHoldoffExpiry s) := by
  unfold execPfHoldoffExpiry
  repeat' first
    | with_reducible exact Within.refl _ _
    | (with_reducible first | apply Lands.next | apply Lands.ite | apply Within.ite | apply State.startContest_others)
    | with_reducible refine Within.put (a := [.own]) ?_ rfl rfl rfl rfl rfl

theorem execStartHeartbeatTimeout_others s : Lands Part.others s (execStartHeartbeatTimeout s) := by
  unfold execStartHeartbeatTimeout
  repeat' first
    | with_reducible exact Within.refl _ _
    | (with_reducible first | apply Lands.next | apply Lands.ite | apply State.startContest_others)

theorem execForce_others s : Lands Part.others s (execForce s) := by
  unfold execForce
  repeat' first
    | with_reducible exact Within.refl _ _
    | (with_reducible first | apply Lands.next | apply Lands.ite | apply State.startContest_others)

theorem execContestRetry_others s : Lands Part.others s (execContestRetry s) := by
  unfold execContestRetry
  repeat' first
    | with_reducible exact Within.refl _ _
    | (with_reducible first | apply Lands.next | apply Lands.ite | apply Within.ite | apply State.startRound_others)
    | split

theorem execEpochProposal_others prop s : Lands Part.others s (execEpochProposal prop s) := by
  unfold execEpochProposal
  repeat' first
    | with_reducible exact Within.refl _ _
    | exact rfl
    | with_reducible first
        | apply Lands.next | apply Lands.ite | apply Within.ite | apply State.wr_frame | apply State.sendRing_frame
        | apply State.anaChange_frame | apply State.setWitness_frame | apply State.setGroup_frame | apply State.startEpoch_frame
        | apply State.releaseHeld_others | apply State.discardRegions_frame
    | with_reducible refine Within.foldl _ ?_ fun _ _ => ?_

theorem execEpochAccept_others epoch s : Lands Part.others s (execEpochAccept epoch s) := by
  unfold execEpochAccept
  repeat' first
    | with_reducible exact Within.refl _ _
    | exact rfl
    | with_reducible first
        | apply Lands.next | apply Lands.ite | apply State.anaChange_frame | apply State.startEpoch_frame | apply State.releaseHeld_others

theorem execForwardedData_others fromOwner bh units s : Lands Part.others s (execForwardedData fromOwner bh units s) := by
  unfold execForwardedData
  repeat' first
    | with_reducible exact Within.refl _ _
    | exact rfl
    | with_reducible first
        | apply Lands.next | apply Lands.ite | apply Within.ite | apply State.sendData_frame | apply State.endCompare_frame
        | apply State.takeUnit_frame | apply State.askedAgain_others | apply State.takePiece_frame
    | with_reducible refine Within.foldl _ ?_ fun _ _ => ?_
    | split

theorem execMoveRequest_others group take s : Lands Part.others s (execMoveRequest group take s) := by
  unfold execMoveRequest
  repeat' first
    | with_reducible exact Within.refl _ _
    | exact rfl
    | with_reducible first
        | apply Lands.next | apply Lands.ite | apply State.sendRing_frame | apply State.beginMove_frame | apply State.endMove_others

theorem execMoveAccept_others group gen s : Lands Part.others s (execMoveAccept group gen s) := by
  unfold execMoveAccept
  repeat' first
    | with_reducible exact Within.refl _ _
    | (with_reducible first | apply Lands.next | apply Lands.ite | apply State.endMove_others)

theorem execFrontLinksDown_others s : Lands Part.others s (execFrontLinksDown s) := by
  unfold execFrontLinksDown
  repeat' first
    | with_reducible exact Within.refl _ _
    | exact rfl
    | with_reducible first
        | apply Lands.next | apply Lands.ite | apply Within.ite | apply State.dropPort_others | apply State.modTag_frame
        | apply State.modWrite_frame | apply State.commitTag_others
    | with_reducible refine Within.foldl _ ?_ fun _ _ => ?_

theorem execRingLinkDetect_others link s : Lands Part.others s (execRingLinkDetect link s) := by
  unfold execRingLinkDetect
  repeat' first
    | with_reducible exact Within.refl _ _
    | (with_reducible first | apply Lands.next | apply Lands.ite | apply State.setLink_others)

theorem execRingLinkTrained_others link narrow s : Lands Part.others s (execRingLinkTrained link narrow s) := by
  unfold execRingLinkTrained
  dsimp only
  repeat' first
    | with_reducible exact Within.refl _ _
    | exact rfl
    | with_reducible first
        | apply Lands.next | apply Lands.ite | apply Within.ite | apply State.wr_frame | apply State.event1_frame
        | apply State.setLink_others | apply State.sendHello_frame
    | split

theorem execRingHello_others link hello s : Lands Part.others s (execRingHello link hello s) := by
  unfold execRingHello
  repeat' first
    | with_reducible exact Within.refl _ _
    | (with_reducible first | apply Lands.next | apply Lands.ite | apply Within.ite | apply State.settleHello_others)
    | split

theorem execRingLinkDown_others link partials s : Lands Part.others s (execRingLinkDown link partials s) := by
  unfold execRingLinkDown
  repeat' first
    | with_reducible exact Within.refl _ _
    | (with_reducible first | apply Lands.next | apply Lands.ite | apply State.ringLinkDown_others)

theorem execRingTrainingTimeout_others link s : Lands Part.others s (execRingTrainingTimeout link s) := by
  unfold execRingTrainingTimeout
  dsimp only
  repeat' first
    | with_reducible exact Within.refl _ _
    | exact rfl
    | with_reducible first
        | apply Lands.next | apply Lands.ite | apply Within.ite | apply State.bump_frame | apply State.setLink_others
        | apply State.ringLinkDown_others
    | split

theorem execRingReplayRequest_others link seq s : Lands Part.others s (execRingReplayRequest link seq s) := by
  unfold execRingReplayRequest
  repeat' first
    | with_reducible exact Within.refl _ _
    | exact rfl
    | with_reducible first
        | apply Lands.next | apply Lands.ite | apply State.bump_frame | apply State.send_frame | apply State.setLink_others

theorem execTimeFlitSend_others link s : Lands Part.others s (execTimeFlitSend link s) := by
  unfold execTimeFlitSend
  repeat' first
    | with_reducible exact Within.refl _ _
    | exact rfl
    | (with_reducible first | apply Lands.next | apply Lands.ite | apply State.send_frame | apply State.setLink_others)

theorem execTimeFlit_others link flit s : Lands Part.others s (execTimeFlit link flit s) := by
  unfold execTimeFlit
  dsimp only
  repeat' first
    | with_reducible exact Within.refl _ _
    | exact rfl
    | with_reducible first
        | apply Lands.next | apply Lands.ite | apply Within.ite | apply State.wr_frame | apply State.setLink_others
        | apply State.servo_others
    | with_reducible refine Within.put (a := [.xrn]) ?_ rfl rfl rfl rfl rfl
    | split

theorem execActivationPauseEnd_others dropped s : Lands Part.others s (execActivationPauseEnd dropped s) := by
  unfold execActivationPauseEnd
  repeat' first
    | with_reducible exact Within.refl _ _
    | exact rfl
    | with_reducible first
        | apply Lands.next | apply Lands.ite | apply Within.ite | apply State.endActivationPause_frame | apply State.beginTrial_others
        | apply State.endFailedTrial_others

theorem execLookupAnswer_others tag off fault s : Lands Part.others s (execLookupAnswer tag off fault s) := by
  unfold execLookupAnswer
  repeat' first
    | with_reducible exact Within.refl _ _
    | exact rfl
    | with_reducible first
        | apply Lands.next | apply Lands.ite | apply Within.ite | apply State.modChunk_frame | apply State.tryHandOff_frame
        | apply State.fetchCopy_others | apply State.keepChunk_frame
    | split

theorem execLostNotice_others domain home loc s : Lands Part.others s (execLostNotice domain home loc s) := by
  unfold execLostNotice
  repeat' first
    | with_reducible exact Within.refl _ _
    | exact rfl
    | with_reducible first
        | apply Lands.next | apply Lands.ite | apply Within.ite | apply State.removeIndex_frame | apply State.rewriteLoc_frame
        | apply State.listExtents_others
    | with_reducible refine Within.foldl _ ?_ fun _ _ => ?_

theorem execSewSignature_others pool bad s : Lands Part.others s (execSewSignature pool bad s) := by
  unfold execSewSignature
  dsimp only
  repeat' first
    | with_reducible exact Within.refl _ _
    | with_reducible assumption
    | exact rfl
    | with_reducible first
        | apply Lands.next | apply Lands.ite | apply Within.ite | apply State.noteUncorr_frame | apply State.settleSegments_frame
        | apply State.setQuire_frame | apply State.appendLog_frame | apply State.startDestage_frame | apply State.closeQuire_frame
        | apply State.replaceBad_others | apply State.sewQuire_frame
    | with_reducible refine Within.foldl _ ?_ fun _ _ => ?_
    | fail_if_no_progress (with_reducible refine Within.put (a := [.wc, .sig]) ?_ rfl rfl rfl rfl rfl)
    | split
    | (with_reducible refine Within.of_pair (by assumption) ?_)

theorem execLeafReturn_others leaf s : Lands Part.others s (execLeafReturn leaf s) := by
  unfold execLeafReturn
  repeat' first
    | with_reducible exact Within.refl _ _
    | exact rfl
    | with_reducible first
        | apply Lands.next | apply Lands.ite | apply Within.ite | apply State.event1_frame | apply State.putLeaf_frame
        | apply State.noteLeaf_frame | apply State.reseatAll_frame | apply State.resumeErases_frame | apply State.visitQuire_others
    | with_reducible refine Within.foldl _ ?_ fun _ _ => ?_

theorem execPatrolSignature_others quire sig fault s : Lands Part.others s (execPatrolSignature quire sig fault s) := by
  unfold execPatrolSignature
  repeat' first
    | with_reducible exact Within.refl _ _
    | with_reducible first
        | apply Lands.next | apply Lands.ite | apply Within.ite | apply State.readMember_others | apply State.settlePatrols_others
    | with_reducible refine Within.foldl _ ?_ fun _ _ => ?_
    | with_reducible refine Within.put (a := [.sig]) ?_ rfl rfl rfl rfl rfl
    | split

theorem execLeafHopDown_others lane pos s : Lands Part.others s (execLeafHopDown lane pos s) := by
  unfold execLeafHopDown
  repeat' first
    | with_reducible exact Within.refl _ _
    | (with_reducible first | apply Lands.next | apply Lands.ite | apply State.dropHop_others)

theorem execLeafHopActive_others lane new s : Lands Part.others s (execLeafHopActive lane new s) := by
  unfold execLeafHopActive
  repeat' first
    | with_reducible exact Within.refl _ _
    | (with_reducible first | apply Lands.next | apply Lands.ite | apply State.hopTo_others)

theorem execLeafEnumerationAnswer_others lane answer s : Lands Part.others s (execLeafEnumerationAnswer lane answer s) := by
  unfold execLeafEnumerationAnswer
  repeat' first
    | with_reducible exact Within.refl _ _
    | exact rfl
    | with_reducible first
        | apply Lands.next | apply Lands.ite | apply Within.ite | apply State.wr_frame | apply State.raise_within | apply State.event1_frame
        | apply State.leafOp_frame | apply State.loseChain_others
    | with_reducible refine Within.foldl _ ?_ fun _ _ => ?_
    | with_reducible refine Within.put (a := [.lfl]) ?_ rfl rfl rfl rfl rfl

theorem execLeafErrorCompletion_others id status s : Lands Part.others s (execLeafErrorCompletion id status s) := by
  unfold execLeafErrorCompletion
  repeat' first
    | with_reducible exact Within.refl _ _
    | exact rfl
    | with_reducible first
        | apply Lands.next | apply Lands.ite | apply Within.ite | apply State.wr_frame | apply State.event1_frame
        | apply State.endLeafOp_frame | apply State.settleReadsOf_others | apply State.leafError_others
    | split

theorem execWitnessReadCompletion_others id rcd s : Lands Part.others s (execWitnessReadCompletion id rcd s) := by
  unfold execWitnessReadCompletion
  repeat' first
    | with_reducible exact Within.refl _ _
    | exact rfl
    | with_reducible first
        | apply Lands.next | apply Lands.ite | apply Within.ite | apply State.endLeafOp_frame | apply State.witnessIn_others
    | split

theorem execWitnessCasCompletion_others id answer s : Lands Part.others s (execWitnessCasCompletion id answer s) := by
  unfold execWitnessCasCompletion
  repeat' first
    | with_reducible exact Within.refl _ _
    | exact rfl
    | with_reducible first
        | apply Lands.next | apply Lands.ite | apply Within.ite | apply State.event1_frame | apply State.endLeafOp_frame
        | apply State.casIn_others
    | split

theorem execLogReadCompletion_others id pages failed s : Lands Part.others s (execLogReadCompletion id pages failed s) := by
  unfold execLogReadCompletion
  repeat' first
    | with_reducible exact Within.refl _ _
    | exact rfl
    | with_reducible first
        | apply Lands.next | apply Lands.ite | apply Within.ite | apply State.endLeafOp_frame | apply State.readLog_frame
        | apply State.scanOver_others | apply State.addFound_frame | apply State.scanLog_frame | apply State.notePages_frame
        | apply State.reseed_frame
    | split

theorem execPieceDeliver_others run tile faults s : Lands Part.others s (execPieceDeliver run tile faults s) := by
  unfold execPieceDeliver
  repeat' first
    | with_reducible exact Within.refl _ _
    | exact rfl
    | with_reducible first
        | apply Lands.next | apply Lands.ite | apply Within.ite | apply State.runPiece_frame | apply State.spanPiece_others
    | split

theorem execRecallTimeout_others quarter s : Lands Part.others s (execRecallTimeout quarter s) := by
  unfold execRecallTimeout
  repeat' first
    | with_reducible exact Within.refl _ _
    | exact rfl
    | (with_reducible first | apply Lands.next | apply Lands.ite | apply State.event1_frame | apply State.quarterFault_others)

theorem execQuarterFault_others quarter cause s : Lands Part.others s (execQuarterFault quarter cause s) := by
  unfold execQuarterFault
  repeat' first
    | with_reducible exact Within.refl _ _
    | exact rfl
    | with_reducible first
        | apply Lands.next | apply Lands.ite | apply Within.ite | apply State.wr_frame | apply State.event1_frame
        | apply State.quarterFault_others
    | split

theorem execQuarterClockFault_others quarter s : Lands Part.others s (execQuarterClockFault quarter s) := by
  unfold execQuarterClockFault
  repeat' first
    | with_reducible exact Within.refl _ _
    | exact rfl
    | (with_reducible first | apply Lands.next | apply Lands.ite | apply State.event1_frame | apply State.quarterFault_others)

theorem execThermalSample_others temps s : Lands Part.others s (execThermalSample temps s) := by
  unfold execThermalSample
  repeat' first
    | with_reducible exact Within.refl _ _
    | exact rfl
    | with_reducible first
        | apply Lands.next | apply Lands.ite | apply Within.ite | apply State.settleBudget_frame | apply State.sampleSensor_frame
        | apply State.setThermal_frame | apply State.showHottest_frame | apply State.thermalChange_others
    | with_reducible refine Within.foldl _ ?_ fun _ _ => ?_

theorem execCanaryError_others quarter s : Lands Part.others s (execCanaryError quarter s) := by
  unfold execCanaryError
  repeat' first
    | with_reducible exact Within.refl _ _
    | exact rfl
    | with_reducible first
        | apply Lands.next | apply Lands.ite | apply State.bump_frame | apply State.raise_within | apply State.event1_frame
        | apply State.setVolt_frame | apply State.quarterFault_others

theorem execFrameSend_others c frame s : Lands Part.others s (execFrameSend c frame s) := by
  unfold execFrameSend
  repeat' first
    | with_reducible exact Within.refl _ _
    | exact rfl
    | with_reducible first
        | apply Lands.next | apply Lands.ite | apply Within.ite | apply State.complete_frame | apply State.ringGate_frame
        | apply State.transmitFrame_others
    | intro _

theorem execMirrorWriteRecord_others rcd crc s : Lands Part.others s (execMirrorWriteRecord rcd crc s) := by
  unfold execMirrorWriteRecord
  repeat' first
    | with_reducible exact Within.refl _ _
    | (with_reducible first | apply Lands.next | apply Lands.ite | apply Within.ite | apply State.receiveRecord_others)
    | split

theorem execMirrorMetadataRecord_others rcd crc s : Lands Part.others s (execMirrorMetadataRecord rcd crc s) := by
  unfold execMirrorMetadataRecord
  repeat' first
    | with_reducible exact Within.refl _ _
    | (with_reducible first | apply Lands.next | apply Lands.ite | apply Within.ite | apply State.receiveRecord_others)
    | split

theorem execMirrorReleaseRecord_others rcd crc s : Lands Part.others s (execMirrorReleaseRecord rcd crc s) := by
  unfold execMirrorReleaseRecord
  repeat' first
    | with_reducible exact Within.refl _ _
    | (with_reducible first | apply Lands.next | apply Lands.ite | apply Within.ite | apply State.receiveRecord_others)
    | split

theorem execMirrorAck_others ack s : Lands Part.others s (execMirrorAck ack s) := by
  unfold execMirrorAck
  repeat' first
    | with_reducible exact Within.refl _ _
    | exact rfl
    | with_reducible first
        | apply Lands.next | apply Lands.ite | apply Within.ite | apply State.event1_frame | apply State.proposeEpoch_frame
        | apply State.enterSuspect_frame | apply State.acked_others
    | with_reducible refine Within.put (a := [.wc]) ?_ rfl rfl rfl rfl rfl
    | split

theorem execSoloDdrAck_others tag s : Lands Part.others s (execSoloDdrAck tag s) := by
  unfold execSoloDdrAck
  repeat' first
    | with_reducible exact Within.refl _ _
    | exact rfl
    | with_reducible first
        | apply Lands.next | apply Lands.ite | apply Within.ite | apply State.commitTag_others | apply State.settleSegments_frame
    | split

theorem execTestQuarter_others quarter force s : Lands Part.others s (execTestQuarter quarter force s) := by
  unfold execTestQuarter
  dsimp only
  repeat' first
    | with_reducible exact Within.refl _ _
    | exact rfl
    | with_reducible first
        | apply Lands.next | apply Lands.ite | apply Within.ite | apply State.setQuarter_frame | apply State.wake_frame
        | apply State.startTest_frame | apply State.refuseTest_frame | apply State.startStandbyTest_frame | apply State.testInService_others
    | split

/-! What each command that reaches block OLD does to the locks -/

/-- The lock bits of two states agree where they did. -/
theorem State.locked_of_rd {s t : State} (h : t.rd Reg.OLD_LOCK_STATUS.LOCKED = s.rd Reg.OLD_LOCK_STATUS.LOCKED) (b : Nat) :
    t.locked b = s.locked b := by
  unfold State.locked
  rw [h]

/-- A change outside block OLD leaves the lock bits. -/
theorem Within.locks {s t : State} (h : Within Part.others s t) :
    t.rd Reg.OLD_LOCK_STATUS.LOCKED = s.rd Reg.OLD_LOCK_STATUS.LOCKED :=
  h.only.rd _ _ _ rfl rfl

theorem Lands.locks {s t : State} {r : Res} (h : Lands Part.others s r) (hr : r = .next t) :
    t.rd Reg.OLD_LOCK_STATUS.LOCKED = s.rd Reg.OLD_LOCK_STATUS.LOCKED := by
  subst hr
  exact Within.locks h

/-- LOCKED is read-only, and no other field has its place. -/
theorem Reg.id_ne_LOCKED {a : Nat} {f : FieldAt} (hf : f ∈ Reg.fieldsAt a) (hacc : f.1.acc ≠ .ro) :
    f.1.id ≠ Reg.OLD_LOCK_STATUS.LOCKED.id := by
  have listed : ∀ b < 22, ∀ g ∈ Reg.ofBlock b, g.acc ≠ .ro → g.id ≠ Reg.OLD_LOCK_STATUS.LOCKED.id := by decide +kernel
  obtain ⟨g, hg, e, -, rfl⟩ : ∃ g ∈ Reg.ofBlock (a / 0x100000), ∃ e, g.element a = some e ∧ (g, e) = f := by
    simpa [Reg.fieldsAt, List.mem_filterMap] using hf
  by_cases hb : a / 0x100000 < 22
  · exact listed _ hb g hg hacc
  · rw [Reg.ofBlock_eq_nil (by omega)] at hg
    exact absurd hg List.not_mem_nil

/-- A field that takes a write is not read-only. -/
theorem State.takesWrite_acc {s : State} {f : RField} {i : Nat} (h : s.takesWrite f i = true) : f.acc ≠ .ro := by
  intro hro
  simp [State.takesWrite, hro] at h

/-- No update of a write names LOCKED. -/
theorem State.wordUpdates_ne_LOCKED {s : State} {a word : Nat} {u : FieldWrite} (h : u ∈ s.wordUpdates a word) :
    u.field.id ≠ Reg.OLD_LOCK_STATUS.LOCKED.id := by
  simp only [State.wordUpdates, List.mem_filter, List.mem_map] at h
  obtain ⟨⟨⟨⟨f, ⟨hf, htake⟩, rfl⟩, -⟩, -⟩, -⟩ := h
  exact Reg.id_ne_LOCKED hf (State.takesWrite_acc htake)

theorem State.wideUpdates_ne_LOCKED {s : State} {a value : Nat} {u : FieldWrite} (h : u ∈ s.wideUpdates a value) :
    u.field.id ≠ Reg.OLD_LOCK_STATUS.LOCKED.id := by
  simp only [State.wideUpdates, List.mem_filter, List.mem_map] at h
  obtain ⟨⟨f, ⟨hf, htake⟩, rfl⟩, -⟩ := h
  exact Reg.id_ne_LOCKED hf (State.takesWrite_acc htake)

theorem State.writeWord_locks (s before : State) (a word : Nat) :
    (s.writeWord before a word).rd Reg.OLD_LOCK_STATUS.LOCKED = s.rd Reg.OLD_LOCK_STATUS.LOCKED :=
  State.rd_applyWrites_other _ _ (fun _ hu => State.wordUpdates_ne_LOCKED hu) 0 0

/-- No register write changes the lock bits, whatever its address and value (R14). -/
theorem execRegisterWrite_locks {a z v : Nat} {s t : State} (h : execRegisterWrite a z v s = .next t) :
    t.rd Reg.OLD_LOCK_STATUS.LOCKED = s.rd Reg.OLD_LOCK_STATUS.LOCKED := by
  unfold execRegisterWrite at h
  split at h
  · rw [Host.Outcome.next.inj h]
  · rw [← Host.Outcome.next.inj h, (State.afterWrite_others (.refl _ _) s).locks]
    split
    · split
      · exact State.rd_applyWrites_other _ _ (fun _ hu => State.wideUpdates_ne_LOCKED hu) 0 0
      · rw [State.writeWord_locks, State.writeWord_locks]
    · exact State.writeWord_locks ..

/-- A read clears fields of access RC alone, so it leaves the lock bits. -/
theorem State.clearReads_locks {fs : List FieldAt} (s : State) (h : ∀ f ∈ fs, f.1.id ≠ Reg.OLD_LOCK_STATUS.LOCKED.id) :
    (fs.foldl State.clearRead s).rd Reg.OLD_LOCK_STATUS.LOCKED = s.rd Reg.OLD_LOCK_STATUS.LOCKED := by
  induction fs generalizing s with
  | nil => rfl
  | cons f r ih =>
    have first : (s.clearRead f).rd Reg.OLD_LOCK_STATUS.LOCKED = s.rd Reg.OLD_LOCK_STATUS.LOCKED := by
      unfold State.clearRead
      split <;> exact State.rd_wr_field _ _ _ _ _ _ _ _ (h f List.mem_cons_self)
    rw [List.foldl_cons, ih _ fun g hg => h g (List.mem_cons_of_mem _ hg), first]

theorem State.readWord_locks (s : State) (a : Nat) (whole : Bool) :
    (s.readWord a whole).2.rd Reg.OLD_LOCK_STATUS.LOCKED = s.rd Reg.OLD_LOCK_STATUS.LOCKED := by
  unfold State.readWord
  extract_lets fs value upper rc block cleared wide
  have hcleared : cleared.rd Reg.OLD_LOCK_STATUS.LOCKED = s.rd Reg.OLD_LOCK_STATUS.LOCKED := by
    refine State.clearReads_locks s fun f hf => ?_
    obtain ⟨hf, hrc⟩ := List.mem_filter.1 hf
    exact Reg.id_ne_LOCKED hf (by rw [beq_iff_eq.1 hrc]; nofun)
  split
  · split <;> rfl
  · split
    · exact (State.popStamp_frame _ (.refl Part.others s) rfl).locks
    · show State.rd (if _ then _ else _) _ = _
      split <;> exact hcleared

theorem execRcRead_locks {a z : Nat} {s t : State} (h : execRcRead a z s = .next t) :
    t.rd Reg.OLD_LOCK_STATUS.LOCKED = s.rd Reg.OLD_LOCK_STATUS.LOCKED := by
  unfold execRcRead at h
  split at h
  · rw [Host.Outcome.next.inj h]
  split at h
  · rw [← Host.Outcome.next.inj h]; rfl
  split at h
  · rw [← Host.Outcome.next.inj h]; exact State.readWord_locks ..
  split at h
  · rw [← Host.Outcome.next.inj h]; exact State.readWord_locks ..
  · rw [← Host.Outcome.next.inj h]; exact (State.readWord_locks ..).trans (State.readWord_locks ..)

/-- A write to a set-up lock adds a lock bit or notes a fault; it takes none away (R14, R483). -/
theorem execSetupLockWrite_locked {b v : Nat} {s t : State} (h : execSetupLockWrite b v s = .next t) {c : Nat} (hc : 1 ≤ c) (hc' : c ≤ 21)
    (hl : s.locked c = true) : t.locked c = true := by
  unfold execSetupLockWrite at h
  split at h
  · rw [← Host.Outcome.next.inj h, hl]
  split at h
  · rw [← Host.Outcome.next.inj h]
    unfold State.locked at hl ⊢
    have hwidth : c - 1 < Reg.OLD_LOCK_STATUS.LOCKED.width := show c - 1 < 21 by omega
    simp [State.rd_wr_same, Nat.testBit_mod_two_pow, Nat.testBit_or, hl, hwidth]
  · rw [← Host.Outcome.next.inj h, State.locked_of_rd _ c, hl]
    rw [State.rd_raise_field _ _ _ _ _ _ _ (by decide), State.rd_wr_field _ _ _ _ _ _ _ _ (by decide),
      State.rd_wr_field _ _ _ _ _ _ _ _ (by decide), State.rd_wr_field _ _ _ _ _ _ _ _ (by decide)]

/-- Taking away the bits that a number has in common with a mask clears those of the mask. -/
theorem Nat.testBit_sub_and (x m k : Nat) : (x - (x &&& m)).testBit k = (x.testBit k && !m.testBit k) := by
  have hle : x &&& m ≤ x := Nat.and_le_left
  have hlow : (x &&& m) % 2 = x % 2 &&& m % 2 := Nat.and_mod_two_pow (n := 1)
  have hlow' : x % 2 &&& m % 2 ≤ x % 2 := Nat.and_le_left
  induction k generalizing x m with
  | zero =>
    have hsub : (x - (x &&& m)) % 2 = x % 2 - (x % 2 &&& m % 2) := by omega
    rw [Nat.testBit_zero, Nat.testBit_zero, Nat.testBit_zero, hsub]
    rcases Nat.mod_two_eq_zero_or_one x with hx | hx <;> rcases Nat.mod_two_eq_zero_or_one m with hm | hm <;> simp [hx, hm]
  | succ k ih =>
    have hhalf : (x &&& m) / 2 = x / 2 &&& m / 2 := Nat.and_div_two
    have hsub : (x - (x &&& m)) / 2 = x / 2 - (x / 2 &&& m / 2) := by omega
    rw [Nat.testBit_succ, Nat.testBit_succ, Nat.testBit_succ, hsub]
    exact ih _ _ Nat.and_le_left (Nat.and_mod_two_pow (n := 1)) Nat.and_le_left

/-- A function reset releases the locks of CHI and DMA alone (R480). -/
theorem State.functionReset_locked (s : State) (linkDown : Bool) {b : Nat} (hb : 1 ≤ b) (hb' : b ≤ 21) (h67 : b ≠ 6 ∧ b ≠ 7)
    (hl : s.locked b = true) : (s.functionReset linkDown).locked b = true := by
  unfold State.functionReset
  extract_lets slices muted dropped locks link cleared reset
  have hmuted : Within Part.others s muted :=
    .foldl _ (.refl _ _) fun u n => State.muteWork_frame n (.refl _ _) rfl
  have hdropped : Within Part.others s dropped := State.dropRuns_frame _ hmuted rfl
  have hreset : reset.locked b = true := by
    have hlocks : locks.testBit (b - 1) = true := by
      rw [show locks = _ from hdropped.locks]
      exact hl
    have hmask : (0x60 : Nat).testBit (b - 1) = false := by
      have cases : ∀ k < 21, k ≠ 5 ∧ k ≠ 6 → (0x60 : Nat).testBit k = false := by decide
      exact cases _ (by omega) (by omega)
    have hwidth : b - 1 < Reg.OLD_LOCK_STATUS.LOCKED.width := show b - 1 < 21 by omega
    unfold State.locked
    rw [State.rd_raise_field _ _ _ _ _ _ _ (by decide), State.rd_wr_same, Nat.testBit_mod_two_pow, Nat.testBit_sub_and, hlocks, hmask]
    simpa using hwidth
  split
  · exact hreset
  · rw [State.locked_of_rd _ b, hreset]
    rw [State.rd_wr_field _ _ _ _ _ _ _ _ (by decide), State.rd_wr_field _ _ _ _ _ _ _ _ (by decide),
      State.rd_wr_field _ _ _ _ _ _ _ _ (by decide), State.rd_wr_field _ _ _ _ _ _ _ _ (by decide)]
/-- The commands in which block OLD has part: accesses to registers, locks and resets. -/
def reachesOld : Instr → Bool
  | .registerWrite _ _ _ | .rcRead _ _ | .setupLockWrite _ _ | .pciePerstAssert | .functionReset _ => true
  | .vinGood _ | .vinCollapse _ | .vinOvervoltage _ | .resetBallAssert | .partSelfReset | .destageSealed => true
  | _ => false

/-- Every other command stays outside block OLD: by its footprint, or by its lemma above where the footprint says no more than that registers
may change. -/
theorem exec_others {c : Instr} (s : State) (h : reachesOld c = false) : Lands Part.others s (exec c s) := by
  have narrow (hsub : Part.sub (partsOf c) Part.others = true) : Lands Part.others s (exec c s) := (exec_footprint c s).mono hsub
  cases c with
  | linkChange _ _ => exact execLinkChange_others _ _ s
  | pfcReceive _ _ => exact execPfcReceive_others _ _ s
  | frameTransmit _ => exact execFrameTransmit_others _ s
  | tagAssign => exact execTagAssign_others s
  | holdRelease => exact execHoldRelease_others s
  | read _ => exact execRead_others _ s
  | compare _ => exact execCompare_others _ s
  | ps3ExitEnd => exact execPs3ExitEnd_others s
  | lookupAnswer _ _ _ => exact execLookupAnswer_others _ _ _ s
  | lostNotice _ _ _ => exact execLostNotice_others _ _ _ s
  | containerDecode _ _ => exact execContainerDecode_others _ _ s
  | secondCopyArrive _ _ _ => exact execSecondCopyArrive_others _ _ _ s
  | mirrorWriteRecord _ _ => exact execMirrorWriteRecord_others _ _ s
  | mirrorMetadataRecord _ _ => exact execMirrorMetadataRecord_others _ _ s
  | mirrorReleaseRecord _ _ => exact execMirrorReleaseRecord_others _ _ s
  | mirrorAck _ => exact execMirrorAck_others _ s
  | soloDdrAck _ => exact execSoloDdrAck_others _ s
  | frontLinksDown => exact execFrontLinksDown_others s
  | pfHoldoffExpiry => exact execPfHoldoffExpiry_others s
  | sewSignature _ _ => exact execSewSignature_others _ _ s
  | leafReturn _ => exact execLeafReturn_others _ s
  | slowMemberTimeout _ => exact execSlowMemberTimeout_others _ s
  | patrolSignature _ _ _ => exact execPatrolSignature_others _ _ _ s
  | leafHopActive _ _ => exact execLeafHopActive_others _ _ s
  | leafHopDown _ _ => exact execLeafHopDown_others _ _ s
  | leafEnumerationAnswer _ _ => exact execLeafEnumerationAnswer_others _ _ s
  | leafReadCompletion _ _ _ _ => exact execLeafReadCompletion_others _ _ _ _ s
  | leafErrorCompletion _ _ => exact execLeafErrorCompletion_others _ _ s
  | witnessReadCompletion _ _ => exact execWitnessReadCompletion_others _ _ s
  | witnessCasCompletion _ _ => exact execWitnessCasCompletion_others _ _ s
  | pageInComplete _ _ => exact execPageInComplete_others _ _ s
  | reclaimPage => exact execReclaimPage_others s
  | cgArm _ => exact execCgArm_others _ s
  | cgAbandon _ => exact execCgAbandon_others _ s
  | consistencyCut _ => exact execConsistencyCut_others _ s
  | pieceDeliver _ _ _ => exact execPieceDeliver_others _ _ _ s
  | ringHello _ _ => exact execRingHello_others _ _ s
  | ringLinkDown _ _ => exact execRingLinkDown_others _ _ s
  | ringLinkDetect _ => exact execRingLinkDetect_others _ s
  | ringTrainingTimeout _ => exact execRingTrainingTimeout_others _ s
  | ringReplayRequest _ _ => exact execRingReplayRequest_others _ _ s
  | timeFlitSend _ => exact execTimeFlitSend_others _ s
  | timeFlit _ _ => exact execTimeFlit_others _ _ s
  | heartbeat _ => exact execHeartbeat_others _ s
  | peerSuspect => exact execPeerSuspect_others s
  | stuckSuspectExpiry => exact execStuckSuspectExpiry_others s
  | startHeartbeatTimeout => exact execStartHeartbeatTimeout_others s
  | contestRetry => exact execContestRetry_others s
  | force => exact execForce_others s
  | epochProposal _ => exact execEpochProposal_others _ s
  | epochAccept _ => exact execEpochAccept_others _ s
  | forwardedData _ _ _ => exact execForwardedData_others _ _ _ s
  | moveRequest _ _ => exact execMoveRequest_others _ _ s
  | moveAccept _ _ => exact execMoveAccept_others _ _ s
  | frameSend _ _ => exact execFrameSend_others _ _ s
  | recallTimeout _ => exact execRecallTimeout_others _ s
  | quarterClockFault _ => exact execQuarterClockFault_others _ s
  | quarterFault _ _ => exact execQuarterFault_others _ _ s
  | thermalSample _ => exact execThermalSample_others _ s
  | canaryError _ => exact execCanaryError_others _ s
  | activationPauseEnd _ => exact execActivationPauseEnd_others _ s
  | testQuarter _ _ => exact execTestQuarter_others _ _ s
  | pfcPauseExpiry _ _ => exact execPfcPauseExpiry_others _ _ s
  | ringLinkTrained _ _ => exact execRingLinkTrained_others _ _ s
  | proxyReadData _ _ => exact execProxyReadData_others _ _ s
  | logReadCompletion _ _ _ => exact execLogReadCompletion_others _ _ _ s
  | registerWrite _ _ _ | rcRead _ _ | setupLockWrite _ _ | pciePerstAssert | functionReset _ | vinGood _ | vinCollapse _
  | vinOvervoltage _ | resetBallAssert | partSelfReset | destageSealed => cases h
  | _ => exact narrow rfl

/-- A command keeps the lock bits unless it resets the block's domain. -/
theorem exec_locked {c : Instr} {s t : State} {b : Nat} (h : exec c s = .next t) (hb : 1 ≤ b) (hb' : b ≤ 21) (hl : s.locked b = true)
    (hreset : resetsDomain b c = false) : t.locked b = true := by
  cases hreach : reachesOld c with
  | false => rw [State.locked_of_rd ((exec_others s hreach).locks h), hl]
  | true =>
    cases c with
    | registerWrite a z v => rw [State.locked_of_rd (execRegisterWrite_locks h), hl]
    | rcRead a z => rw [State.locked_of_rd (execRcRead_locks h), hl]
    | setupLockWrite c v => exact execSetupLockWrite_locked h hb hb' hl
    | pciePerstAssert =>
      rw [← Host.Outcome.next.inj h]
      exact State.functionReset_locked _ true hb hb' (by simpa [resetsDomain] using hreset) hl
    | functionReset cause =>
      rw [← Host.Outcome.next.inj h]
      exact State.functionReset_locked s _ hb hb' (by simpa [resetsDomain] using hreset) hl
    | vinGood _ | vinCollapse _ | vinOvervoltage _ | resetBallAssert | partSelfReset | destageSealed => cases hreset
    | _ => cases hreach

/-- Settles O46: no command but those of `reachesOld` changes block OLD, and of those only a reset clears a lock bit. -/
theorem locksStand : Obligations.LocksStand := by
  unfold Obligations.LocksStand
  refine ⟨fun s c b t h hb hb' hl hreset => exec_locked h hb hb' hl hreset, fun s a z v b hb hb' hl => ?_⟩
  obtain ⟨t, ht⟩ := exec_answers (.registerWrite a z v) s
  exact ⟨t, ht, exec_locked ht hb hb' hl rfl⟩

end Sys2Proof.Machine
end

section
/-!
What the proofs of chapters 01 to 13 share: an answer from an equation, and the list of every part but some, with which a frame lemma says
that a definition keeps those.
-/
namespace Sys2Proof.Machine
open Sys2Proof

/-- Every part but the listed ones; the whole register file is among them. -/
def Part.but (ps : List Part) : List Part := Part.every.filter fun p => !ps.contains p

/-- Every part of the state but one block of the register file. -/
def Part.butBlock (b : Nat) : List Part := Part.but [.regs] ++ ((List.range 22).filter fun k => k != b).map Part.block

/-- A command whose meaning is known answers what is known of its next state. -/
theorem Answers.of_eq {c : Instr} {s t : State} {post : State → Prop} (h : exec c s = .next t) (p : post t) : Answers c s post := ⟨t, h, p⟩

/-- What holds of an answer's next state holds with a weaker word too. -/
theorem Answers.imp {c : Instr} {s : State} {p r : State → Prop} (h : Answers c s p) (hpr : ∀ t, p t → r t) : Answers c s r := by
  obtain ⟨t, ht, hp⟩ := h
  exact ⟨t, ht, hpr t hp⟩

/-- The register file alone decides a one-bit field. -/
theorem State.on_of_rd {s t : State} {f : RField} {i j : Nat} (h : t.rd f i j = s.rd f i j) : t.on f i j = s.on f i j := by
  unfold State.on
  rw [h]

end Sys2Proof.Machine
end

section
/-!
Quarters that are woken, drained, stopped and fenced (O2): which updates of the state keep the table of quarters, and what each command of
chapter 01 leaves there.
-/
namespace Sys2Proof.Machine
open Sys2Proof

/-! The table of quarters -/

/-- The table of quarters alone decides a quarter. -/
theorem State.quarter_congr {s t : State} (h : t.power.quarters = s.power.quarters) (q : Nat) : t.quarter q = s.quarter q := by
  unfold State.quarter
  rw [h]

/-- A change within every part but the power keeps the power. -/
theorem Within.power_eq {s t : State} (h : Within (Part.but [.power]) s t) : t.power = s.power := h.only.power rfl

/-- A change within every part but the power keeps every quarter. -/
theorem Within.quarter_eq {s t : State} (h : Within (Part.but [.power]) s t) (q : Nat) : t.quarter q = s.quarter q :=
  State.quarter_congr (congrArg Power.quarters h.power_eq) q

theorem State.serve_quarters (l : List TokenLot) (s : State) : (State.serve l s).power.quarters = s.power.quarters := by
  induction l generalizing s with
  | nil => rfl
  | cons x r ih =>
    unfold State.serve
    extract_lets room
    split
    extract_lets give s'
    split
    · split
      · exact ih s'
      · rfl
    · rfl

theorem State.serveWaiting_quarters (s : State) : s.serveWaiting.power.quarters = s.power.quarters :=
  (congrArg Power.quarters (Within.power_eq (State.noteGranted_frame (.refl _ _) rfl))).trans (State.serve_quarters _ s)

theorem State.returnTokens_quarters (s : State) (q : Nat) (keep : TokenLot → Bool) :
    (s.returnTokens q keep).power.quarters = s.power.quarters := State.serveWaiting_quarters _

@[simp] theorem State.quarter_returnTokens (s : State) (q : Nat) (keep : TokenLot → Bool) (r : Nat) :
    (s.returnTokens q keep).quarter r = s.quarter r := State.quarter_congr (s.returnTokens_quarters q keep) r

@[simp] theorem State.quarter_unitsIn (s : State) (q r : Nat) : (s.unitsIn q).quarter r = s.quarter r :=
  Within.quarter_eq (State.unitsIn_frame q (.refl _ _) rfl) r

@[simp] theorem State.quarter_unitsOut (s : State) (q r : Nat) : (s.unitsOut q).quarter r = s.quarter r :=
  Within.quarter_eq (State.unitsOut_frame q (.refl _ _) rfl) r

@[simp] theorem State.quarter_endQCmd (s : State) (q status r : Nat) : (s.endQCmd q status).quarter r = s.quarter r :=
  Within.quarter_eq (State.endQCmd_frame q status (.refl _ _) rfl) r

@[simp] theorem State.quarter_startQCmd (s : State) (q r : Nat) : (s.startQCmd q).quarter r = s.quarter r :=
  Within.quarter_eq (State.startQCmd_frame q (.refl _ _) rfl) r

@[simp] theorem State.quarter_event1 (s : State) (code v r : Nat) : (s.event1 code v).quarter r = s.quarter r :=
  Within.quarter_eq (State.event1_frame code v (.refl _ _) rfl) r

@[simp] theorem State.quarter_wr (s : State) (f : RField) (v i j r : Nat) : (s.wr f v i j).quarter r = s.quarter r := rfl

@[simp] theorem State.quarter_headLoss (s : State) (r : Nat) : s.headLoss.quarter r = s.quarter r := rfl

/-- A wake, begun or queued, leaves the other quarters alone. -/
theorem State.quarter_wake_other (s : State) {q r : Nat} (h : r ≠ q) : (s.wake q).quarter r = s.quarter r := by
  unfold State.wake
  split
  · exact s.quarter_setQuarter_other _ h
  · split <;> rfl

/-- A wake begins, or its quarter stands in the queue (R424). -/
theorem State.wake_begins_or_queues (s : State) (q : Nat) : ((s.wake q).quarter q).state = .waking ∨ q ∈ (s.wake q).power.wakeQueue := by
  unfold State.wake
  split
  · left
    rw [State.quarter_setQuarter]
  · right
    split
    · next h => simpa using h
    · simp

/-- A quarter told to drain is Closing, with its goal. -/
theorem State.quarter_close (s : State) (q : Nat) (goal : DrainGoal) :
    (s.close q goal).quarter q = { s.quarter q with state := .closing, goal := goal } := by
  unfold State.close
  rw [State.quarter_unitsOut, State.quarter_setQuarter]

/-! Operations of SQR_Q_CMD -/

theorem State.startQCmd_busy (s : State) (q : Nat) : (s.startQCmd q).on Reg.SQR_Q_RESULT.BUSY = true := State.on_wr_same ..

/-- The beginning of a wake leaves the registers alone. -/
theorem State.on_wake (s : State) (q : Nat) (f : RField) : (s.wake q).on f = s.on f :=
  State.on_of_rd ((State.wake_frame (ps := [.power]) q (.refl _ _) rfl).only.rd _ _ _ rfl rfl)

theorem State.on_close (s : State) (q : Nat) (goal : DrainGoal) : (s.close q goal).on Reg.SQR_Q_RESULT.BUSY = s.on Reg.SQR_Q_RESULT.BUSY :=
  State.on_of_rd ((State.close_frame (ps := Part.butBlock 1) q goal (.refl _ _) rfl).only.rd _ _ _ rfl rfl)

/-- QUARTER_WAKE of a quarter that is Off or in Retain, with no operation busy, starts its wake. -/
theorem execQuarterWake_starts {s : State} {q : Nat} (hbusy : s.on Reg.SQR_Q_RESULT.BUSY = false) (h0 : 0 < q) (h41 : q ≤ 41)
    (hq : (s.quarter q).state = .off ∨ (s.quarter q).state = .retain) : execQuarterWake q s = .next ((s.startQCmd q).wake q) := by
  unfold execQuarterWake
  rw [if_neg (by simp [hbusy]; omega)]
  rcases hq with h | h <;> rw [h]

/-- A power-down of an Active quarter that its kind can spare, with no operation busy, starts its drain. -/
theorem State.powerDown_drains {s : State} {q : Nat} (goal : DrainGoal) (hbusy : s.on Reg.SQR_Q_RESULT.BUSY = false) (h0 : 0 < q) (h41 : q ≤ 41)
    (hq : (s.quarter q).state = .active) (hspare : s.canSpare q = true) : s.powerDown q goal = (s.startQCmd q).close q goal := by
  unfold State.powerDown
  rw [if_neg (by simp [hbusy]; omega), hq]
  exact if_pos hspare

/-- What a power-down that starts a drain leaves (R432). -/
theorem State.powerDown_closing {s : State} {q : Nat} (goal : DrainGoal) (hbusy : s.on Reg.SQR_Q_RESULT.BUSY = false) (h0 : 0 < q) (h41 : q ≤ 41)
    (hq : (s.quarter q).state = .active) (hspare : s.canSpare q = true) :
    ((s.powerDown q goal).quarter q).state = .closing ∧ ((s.powerDown q goal).quarter q).goal = goal ∧
      (s.powerDown q goal).on Reg.SQR_Q_RESULT.BUSY = true := by
  rw [State.powerDown_drains goal hbusy h0 h41 hq hspare, State.quarter_close, State.on_close]
  exact ⟨rfl, rfl, s.startQCmd_busy q⟩

/-! Waking -/

/-- A quarter is Active, and the queue of wakes is as given. -/
def State.upWith (s : State) (q : Nat) (queue : List Nat) : Prop := (s.quarter q).state = .active ∧ s.power.wakeQueue = queue

theorem State.upWith.within {s t : State} {q : Nat} {queue : List Nat} (h : s.upWith q queue) (hw : Within (Part.but [.power]) s t) :
    t.upWith q queue := ⟨by rw [hw.quarter_eq]; exact h.1, by rw [hw.power_eq]; exact h.2⟩

theorem State.emptyRole_power (s : State) (role : Nat) : (s.emptyRole role).power = s.power :=
  Within.power_eq (State.emptyRole_frame role (.refl _ _) rfl)

theorem State.close_wakeQueue (s : State) (q : Nat) (goal : DrainGoal) : (s.close q goal).power.wakeQueue = s.power.wakeQueue := by
  unfold State.close
  rw [Within.power_eq (State.unitsOut_frame q (.refl _ _) rfl)]
  rfl

/-- What makes way for a rotation leaves the queue of wakes alone. -/
theorem State.rotateNow_wakeQueue (s : State) (a : Nat) : (s.rotateNow a).power.wakeQueue = s.power.wakeQueue := by
  unfold State.rotateNow
  split
  · rfl
  · rw [State.emptyRole_power]
    rfl
  · exact s.close_wakeQueue a .test

/-- The next wake of the queue leaves a quarter that does not stand in it Active. -/
theorem State.upWith.wakeNext {s : State} {q y : Nat} {queue : List Nat} (h : s.upWith q (y :: queue)) (hq : q ≠ y) :
    ((State.wake { s with power.wakeQueue := queue } y).quarter q).state = .active := by
  rw [State.quarter_wake_other _ hq]
  exact h.1

/-- The step of a rotation when its standby has waked leaves the standby Active. -/
theorem State.upWith.rotates {s : State} {q a : Nat} {queue : List Nat} (h : s.upWith q queue) (duty : Nat) :
    ((s.rotateNow a).setQuarter q { s.quarter q with role := .active, duty := duty }).upWith q queue :=
  ⟨by rw [State.quarter_setQuarter]; exact h.1, (s.rotateNow_wakeQueue a).trans h.2⟩

/-- QUARTER_WAKE_DONE leaves a Waking quarter Active that is not queued for a wake itself. -/
theorem execQuarterWakeDone_active {s : State} {q : Nat} (hw : (s.quarter q).state = .waking) (hq : q ∉ s.power.wakeQueue) :
    ∃ t, execQuarterWakeDone q s = .next t ∧ (t.quarter q).state = .active := by
  unfold execQuarterWakeDone
  extract_lets x role s1 s2 s3 v _ s4 s5 s6 _
  rw [if_pos hw]
  refine ⟨_, rfl, ?_⟩
  have h1 : s1.upWith q s.power.wakeQueue := ⟨congrArg Quarter.state (s.quarter_setQuarter q _), rfl⟩
  have h2 : s2.upWith q s.power.wakeQueue := by
    unfold s2
    split
    · exact h1
    · exact h1.within (State.unitsIn_frame q (.refl _ _) rfl)
  have h3 : s3.upWith q s.power.wakeQueue := h2.within (State.endQCmd_frame q 0 (.refl _ _) rfl)
  have h4 : s4.upWith q s.power.wakeQueue := ⟨h3.1, h3.2⟩
  have h5 : s5.upWith q s.power.wakeQueue := by
    unfold s5
    cases x.takesFor with
    | some f => exact h4.within (State.takeUpWaking_frame _ _ (State.event_frame _ _ (.refl _ _) rfl) rfl)
    | none => exact h4
  have h6 : s6.upWith q s.power.wakeQueue := by
    unfold s6
    split
    · split
      · next hb => exact hb ▸ (hb ▸ h5 : s5.upWith _ _).rotates _
      · exact h5
    · exact h5
  clear_value s6
  split
  · exact h6.1
  · next y r hr =>
    have hy : s.power.wakeQueue = y :: r := h6.2.symm.trans hr
    exact State.upWith.wakeNext (hy ▸ h6) fun h => hq (by rw [hy, h]; exact List.mem_cons_self)

/-! Draining -/

/-- A quarter that a power-down has stopped: its tokens are back and the operation is over (R432). -/
theorem State.quarter_stopped (s : State) (q status : Nat) (x : Quarter) (keep : TokenLot → Bool) :
    ((((s.setQuarter q x).returnTokens q keep).endQCmd q status).quarter q) = x := by
  rw [State.quarter_endQCmd, State.quarter_returnTokens, State.quarter_setQuarter]

/-- A drained quarter is in the state that its drain was for (R432, R462). -/
theorem execQuarterDrained_reaches {s : State} {q : Nat} (h : (s.quarter q).state = .closing) :
    ∃ t, execQuarterDrained q s = .next t ∧ match (s.quarter q).goal with
      | .off => (t.quarter q).state = .off
      | .retain => (t.quarter q).state = .retain
      | .test => (t.quarter q).state = .active ∧ (t.quarter q).role = .underTest := by
  unfold execQuarterDrained
  extract_lets x
  rw [if_pos h, show s.quarter q = x from rfl]
  cases x.goal with
  | off | retain => exact ⟨_, rfl, congrArg Quarter.state (State.quarter_stopped ..)⟩
  | test => exact ⟨_, rfl, congrArg Quarter.state (State.quarter_setQuarter ..), congrArg Quarter.role (State.quarter_setQuarter ..)⟩

theorem State.quarter_endTestDrain (s : State) (r : Nat) : s.endTestDrain.quarter r = s.quarter r :=
  Within.quarter_eq (State.endTestDrain_frame (.refl _ _) rfl) r

/-- A drain that takes too long leaves the quarter Active (R432). -/
theorem execDrainTimeout_active {s : State} {q : Nat} (h : (s.quarter q).state = .closing) :
    ∃ t, execDrainTimeout q s = .next t ∧ (t.quarter q).state = .active := by
  unfold execDrainTimeout
  extract_lets x s1
  have h1 : (s1.quarter q).state = .active := by
    unfold s1
    rw [State.quarter_endQCmd, State.quarter_event1, State.quarter_unitsIn, State.quarter_setQuarter]
  clear_value s1
  rw [if_neg (by simp [x, h]), if_pos h]
  cases x.goal with
  | test => exact ⟨_, rfl, by rw [State.quarter_endTestDrain]; exact h1⟩
  | off | retain => exact ⟨_, rfl, h1⟩

/-! Faults -/

/-- A quarter fenced at once is fenced. -/
theorem State.fenceOnly_fenced (s : State) (q : Nat) : ((s.fenceOnly q).quarter q).state = .fenced := by
  unfold State.fenceOnly
  extract_lets x s1 _ s2 s3
  rw [State.quarter_event1]
  unfold s3
  rw [State.quarter_returnTokens, State.quarter_wr, State.quarter_unitsOut]
  exact congrArg Quarter.state (s.quarter_setQuarter q _)

/-- The standby that covers a kind is not a fenced quarter. -/
theorem State.coverOf_not_fenced {s : State} {k : QuarterKind} {y : Nat} (h : s.coverOf k = some y) : (s.quarter y).state ≠ .fenced := by
  unfold State.coverOf at h
  split at h
  · have := List.find?_some h
    simp only [Bool.and_eq_true, bne_iff_ne] at this
    exact this.1
  · cases h

/-- A standby that takes over leaves the other quarters alone. -/
theorem State.quarter_standbyTakes_other (s : State) {y r : Nat} (q : Nat) (h : r ≠ y) : (s.standbyTakes y q).quarter r = s.quarter r := by
  unfold State.standbyTakes
  extract_lets x named _ s1 s2
  have h1 : s1.quarter r = s.quarter r := by unfold s1; split <;> rfl
  have h2 : s2.quarter r = s.quarter r := (s1.quarter_setQuarter_other _ h).trans h1
  clear_value s2
  split
  · exact h2
  · rw [State.quarter_wake_other _ h, h2]

/-- The work of a failed quarter is taken up by a standby: a quarter that is fenced stays so. -/
theorem State.standbyTakes_fenced {s : State} {q y : Nat} {k : QuarterKind} (h : (s.quarter q).state = .fenced) (hy : s.coverOf k = some y) :
    (((s.standbyTakes y q).takeUpWork q).quarter q).state = .fenced := by
  have hne : q ≠ y := fun e => State.coverOf_not_fenced hy (e ▸ h)
  rw [Within.quarter_eq (State.takeUpWork_frame q (.refl _ _) rfl), State.quarter_standbyTakes_other _ _ hne, h]

/-- A failed quarter's work falls to a standby, or the head is lost; either way the quarter stays fenced. -/
theorem State.covered_fenced {s : State} {q : Nat} (h : (s.quarter q).state = .fenced) (k : QuarterKind) :
    (State.quarter (match s.coverOf k with | some y => (s.standbyTakes y q).takeUpWork q | none => s.headLoss) q).state = .fenced := by
  split
  · next hy => exact State.standbyTakes_fenced h hy
  · rw [State.quarter_headLoss, h]

/-- A quarter that faults is fenced, and stays so while its work is covered. -/
theorem State.fence_fenced (s : State) (q : Nat) : ((s.fence q).quarter q).state = .fenced := by
  unfold State.fence
  extract_lets x idle s1 other
  have h1 : (s1.quarter q).state = .fenced := s.fenceOnly_fenced q
  clear_value s1
  have hlost : (s1.headLoss.quarter q).state = .fenced := by rw [State.quarter_headLoss, h1]
  have hcover := State.covered_fenced h1
  split
  · next h => exact h
  · split
    · exact h1
    · split
      case h_1 | h_2 | h_3 => exact hlost
      case h_4 => rw [Within.quarter_eq (State.dropPort_frame _ (.refl _ _) rfl), h1]
      case h_5 | h_6 | h_7 | h_8 => exact hcover _
      case h_9 =>
        split
        · exact hlost
        · exact h1
      case h_10 | h_11 | h_12 => exact h1

/-- A quarter that faults while it drains for a rotation is fenced too (R463). -/
theorem State.rotationCover_fenced (s : State) (q : Nat) : ((s.rotationCover q).quarter q).state = .fenced := by
  unfold State.rotationCover
  split
  · extract_lets duty by_
    rw [Within.quarter_eq (State.takeUpWaking_frame _ _ (State.takeUpWork_frame _ (State.event_frame _ _ (.refl _ _) rfl) rfl) rfl)]
    exact s.fenceOnly_fenced q
  · exact s.fence_fenced q

/-- What a fault of a quarter does beyond the fencing leaves the power alone (R433, R463). -/
theorem State.quarterFault_fenced (s : State) {q : Nat} (h : q ≠ 0) : ((s.quarterFault q).quarter q).state = .fenced := by
  unfold State.quarterFault
  rw [if_neg h]
  extract_lets x t1 t2
  have h1 : (t1.quarter q).state = .fenced := s.rotationCover_fenced q
  clear_value t1
  have h2 : (t2.quarter q).state = .fenced := by
    unfold t2
    split
    · exact h1
    · rw [Within.quarter_eq (State.cutLinks_frame q (.refl _ _) rfl), h1]
  rw [Within.quarter_eq (State.pumpLanes_frame (State.faultMeetsTest_frame q _ (.refl _ _) rfl) rfl), h2]

@[simp] theorem State.headLoss_faultN (s : State) : s.headLoss.pins.faultN = false := rfl

@[simp] theorem State.headLoss_headLost (s : State) : s.headLoss.power.headLost = true := rfl

@[simp] theorem State.headLoss_sysclkLost (s : State) : s.headLoss.power.sysclkLost = s.power.sysclkLost := rfl

@[simp] theorem State.headLoss_phasesLost (s : State) : s.headLoss.power.phasesLost = s.power.phasesLost := rfl

@[simp] theorem State.headLoss_quarters (s : State) : s.headLoss.power.quarters = s.power.quarters := rfl

/-- An event record leaves the power alone. -/
@[simp] theorem State.event_power (s : State) (code : Nat) (detail : List Byte) : (s.event code detail).power = s.power :=
  Within.power_eq (State.event_frame code detail (.refl _ _) rfl)

/-- A fault of Old Town is a loss of the head (R20). -/
theorem State.quarterFault_zero (s : State) : s.quarterFault 0 = s.headLoss := rfl

/-- QUARTER_FAULT: a fault of Old Town is a loss of the head; any other quarter is fenced. -/
theorem execQuarterFault_fences (q : Nat) (cause : QuarterFaultCause) (s : State) :
    ∃ t, execQuarterFault q cause s = .next t ∧ if q = 0 then t.pins.faultN = false else (t.quarter q).state = .fenced := by
  unfold execQuarterFault
  extract_lets s1 busy s2
  refine ⟨_, rfl, ?_⟩
  have h2 : if q = 0 then s2.pins.faultN = false else (s2.quarter q).state = .fenced := by
    split
    · next h =>
      unfold s2
      rw [h, State.quarterFault_zero, State.headLoss_faultN]
    · next h => exact s1.quarterFault_fenced h
  clear_value s2
  cases busy with
  | true => simpa using h2
  | false => simpa using h2

theorem execQuarterClockFault_fences {s : State} {q : Nat} (hq : (s.quarter q).state.clocked = true) (h0 : q ≠ 0) :
    ∃ t, execQuarterClockFault q s = .next t ∧ (t.quarter q).state = .fenced := by
  unfold execQuarterClockFault
  rw [if_pos hq]
  exact ⟨_, rfl, State.quarterFault_fenced _ h0⟩

/-! Loss of the head -/

/-- What a loss of SYSCLK makes of a quarter (R431). -/
def stopped (e : Nat × Quarter) : Nat × Quarter :=
  if e.1 = 0 || e.2.state == .fenced then e else (e.1, { e.2 with state := .off, takesFor := none })

theorem stopped_dark (e : Nat × Quarter) : (stopped e).1 = 0 ∨ (stopped e).2.state = .off ∨ (stopped e).2.state = .fenced := by
  unfold stopped
  split
  · next h =>
    rw [Bool.or_eq_true] at h
    exact h.imp of_decide_eq_true fun h => .inr (beq_iff_eq.1 h)
  · exact .inr (.inl rfl)

/-- SYSCLK_LOSS: every switched quarter stops, and the head is lost. -/
theorem execSysclkLoss_stops (s : State) :
    ∃ t, execSysclkLoss s = .next t ∧ t.power.sysclkLost = true ∧ t.pins.faultN = false ∧
      ∀ e ∈ t.power.quarters, e.1 = 0 ∨ e.2.state = .off ∨ e.2.state = .fenced := by
  unfold execSysclkLoss
  extract_lets stop _ s1
  refine ⟨_, rfl, ?_, rfl, fun e he => ?_⟩
  · rw [State.headLoss_sysclkLost, State.event_power]
  · rw [State.headLoss_quarters, State.event_power] at he
    obtain ⟨x, -, rfl⟩ := List.mem_map.1 he
    exact stopped_dark x

/-- With two phases lost the head is lost; with one it is not. -/
theorem State.headLoss_at_second {s : State} {n : Nat} (h : s.power.phasesLost = n + 1) :
    (if 2 ≤ s.power.phasesLost then s.headLoss else s).power.phasesLost = n + 1 ∧
      (1 ≤ n → (if 2 ≤ s.power.phasesLost then s.headLoss else s).power.headLost = true ∧
        (if 2 ≤ s.power.phasesLost then s.headLoss else s).pins.faultN = false) := by
  split
  · exact ⟨h, fun _ => ⟨rfl, rfl⟩⟩
  · exact ⟨h, fun _ => by omega⟩

/-- CONVERTER_PHASE_LOSS counts the phase; the second loss is a loss of the head. -/
theorem execConverterPhaseLoss_counts (s : State) :
    ∃ t, execConverterPhaseLoss s = .next t ∧ t.power.phasesLost = s.power.phasesLost + 1 ∧
      (1 ≤ s.power.phasesLost → t.power.headLost = true ∧ t.pins.faultN = false) := by
  refine ⟨_, rfl, State.headLoss_at_second ?_⟩
  exact congrArg Power.phasesLost (State.event_power _ _ _)

/-- Settles O2, command by command: the table of quarters is all that these statements read beside BUSY and the pins. -/
theorem quarterPower : Obligations.QuarterPower := by
  unfold Obligations.QuarterPower
  refine ⟨fun s q hbusy h0 h41 hq => ?wake, fun s q hbusy h0 h41 hq hspare => ?off, fun s q hbusy h0 h41 hq hspare => ?retain,
    fun s q hw hq _ => execQuarterWakeDone_active hw hq, fun s q h => execQuarterDrained_reaches h,
    fun s q h => execDrainTimeout_active h, fun s q cause => execQuarterFault_fences q cause s,
    fun s q hq h0 => execQuarterClockFault_fences hq h0, execSysclkLoss_stops, execConverterPhaseLoss_counts⟩
  case wake =>
    exact .of_eq (execQuarterWake_starts hbusy h0 h41 hq) ⟨by rw [State.on_wake, State.startQCmd_busy], State.wake_begins_or_queues ..⟩
  case off => exact .of_eq rfl (State.powerDown_closing .off hbusy h0 h41 hq hspare)
  case retain => exact .of_eq rfl (State.powerDown_closing .retain hbusy h0 h41 hq hspare)

end Sys2Proof.Machine
end

section
/-!
Frames that a front port receives (O4): what MACsec leaves of the state, where a frame goes that may go on, and the count of the frames bound
for the control host.
-/
namespace Sys2Proof.Machine
open Sys2Proof

theorem State.lport_setLPort (s : State) (l : Nat) (p : LPort) : (s.setLPort l p).lport l = p := Table.get_put_same ..

/-- A change within every part but the logical ports keeps each of them. -/
theorem Within.lport_eq {s t : State} (h : Within (Part.but [.ports]) s t) (l : Nat) : t.lport l = s.lport l := by
  unfold State.lport
  rw [h.only.ports rfl]

/-! Frames bound for the control host (R40) -/

/-- What a frame filling a buffer, or finding none, does leaves the logical ports alone. -/
theorem State.lport_deliverFrame (s : State) (f : Frame) (uncontrolled : Bool) (l : Nat) :
    (s.deliverFrame f uncontrolled).lport l = s.lport l := Within.lport_eq (State.deliverFrame_frame _ _ (.refl _ _) rfl) l

/-- A frame bound for the control host is counted within its port's limit, or dropped and counted above it. -/
theorem State.hostFrame_counts (s : State) (f : Frame) (uncontrolled : Bool) : HostBound s (s.hostFrame f uncontrolled) f.lport := by
  unfold HostBound State.hostFrame
  extract_lets limit p
  by_cases h : limit ≠ 0 ∧ limit ≤ p.hostFrames * 1000
  · rw [if_pos h, if_neg (by show ¬ (limit = 0 ∨ p.hostFrames * 1000 < limit); omega), State.lport_setLPort]
  · rw [if_neg h, if_pos (by show limit = 0 ∨ p.hostFrames * 1000 < limit; omega), State.lport_deliverFrame, State.lport_setLPort]

/-! MACsec on reception (R43) -/

/-- Reception under MACsec changes nothing but the logical ports. -/
theorem State.validate_within (s : State) (f : Frame) : Within [.ports] s (s.validate f).2 := State.validate_frame f (.refl _ _) rfl

theorem State.rd_validate (s : State) (f : Frame) (g : RField) (i j : Nat) : (s.validate f).2.rd g i j = s.rd g i j :=
  (s.validate_within f).only.rd g i j rfl rfl

theorem State.trn_validate (s : State) (f : Frame) : (s.validate f).2.trn = s.trn := (s.validate_within f).only.trn rfl

theorem State.roleGap_validate (s : State) (f : Frame) (k : QuarterKind) (duty : Nat) :
    (s.validate f).2.roleGap k duty = s.roleGap k duty := by
  unfold State.roleGap State.quarter
  rw [(s.validate_within f).only.power rfl]

theorem State.validQpn_validate (s : State) (f : Frame) (q : Nat) : (s.validate f).2.validQpn q = s.validQpn q := by
  unfold State.validQpn
  rw [State.rd_validate]

/-- Reception under MACsec counts no frame as bound for the control host, nor as dropped by the limit. -/
theorem State.lport_validate (s : State) (f : Frame) :
    ((s.validate f).2.lport f.lport).hostFrames = (s.lport f.lport).hostFrames ∧
      ((s.validate f).2.lport f.lport).limitDrops = (s.lport f.lport).limitDrops := by
  unfold State.validate
  extract_lets port p sa
  split
  · exact ⟨rfl, rfl⟩
  · split
    · cases f.secTag <;> simp [State.lport_setLPort, p]
    · simp [State.lport_setLPort, p]

/-- In strict mode a frame without a SecTAG, or one whose integrity check fails, is dropped and counted. -/
theorem State.validate_strict {s : State} {f : Frame} (hen : s.on Reg.ETH_MACSEC_CTRL.EN (f.lport / 4) = true)
    (hstrict : s.on Reg.ETH_MACSEC_CTRL.VALIDATE (f.lport / 4) = true) (htag : ∀ g, f.secTag = some g → g.icvOk = false) :
    s.validate f = (false, s.setLPort f.lport { s.lport f.lport with secFails := (s.lport f.lport).secFails + 1 }) := by
  unfold State.validate
  cases h : f.secTag with
  | none => simp [hen, hstrict]
  | some g => simp [hen, hstrict, htag g h]

/-- A frame counted after MACsec is counted from before it. -/
theorem HostBound.of_validate {s t : State} {f : Frame} (h : HostBound (s.validate f).2 t f.lport) : HostBound s t f.lport := by
  unfold HostBound at *
  rw [State.rd_validate, (s.lport_validate f).1, (s.lport_validate f).2] at h
  exact h

/-! Where a frame goes (R38, R39) -/

/-- The rows of R39 for a frame that MACsec lets go on. -/
def State.classify (s : State) (f : Frame) : State :=
  match f.roce with
  | some p =>
    if p.qpn = 1 then s.hostFrame f false
    else if p.opcode = 0x81 then (if p.icrcOk && p.lengthOk then s else s.dropPacket 3)
    else s.arriveQt p
  | none =>
    match f.dest with
    | .portMac | .broadcast | .subscribed => s.hostFrame f false
    | .paeGroup | .other => s

/-- A head in service and a frame of good length whose FEC held. -/
structure Receives (s : State) (f : Frame) : Prop where
  alive : s.power.headLost = false
  fec   : f.uncorrect = false
  long  : 64 ≤ f.length
  short : f.length ≤ 9216

/-- An EAPOL frame for this port (R38). -/
def Frame.isEapol (f : Frame) : Prop := f.etherType = 0x888E ∧ (f.dest = .portMac ∨ f.dest = .paeGroup)

theorem execFrameReceive_eapol {s : State} {f : Frame} (h : Receives s f) (he : f.isEapol) :
    execFrameReceive f s = .next (s.hostFrame f true) := by
  have hlen : ¬ (f.length < 64 ∨ 9216 < f.length) := by have := h.long; have := h.short; omega
  unfold execFrameReceive
  simp only [h.alive, h.fec, Bool.false_eq_true, if_false]
  unfold Frame.isEapol at he
  rw [if_neg hlen, if_pos he]

/-- A frame that is no EAPOL frame for this port goes through MACsec. -/
theorem execFrameReceive_macsec {s : State} {f : Frame} (h : Receives s f) (he : ¬ f.isEapol) :
    execFrameReceive f s = .next (if (s.validate f).1 then (s.validate f).2.classify f else (s.validate f).2) := by
  have hlen : ¬ (f.length < 64 ∨ 9216 < f.length) := by have := h.long; have := h.short; omega
  unfold execFrameReceive State.classify
  simp only [h.alive, h.fec, Bool.false_eq_true, if_false]
  unfold Frame.isEapol at he
  rw [if_neg hlen, if_neg he]
  generalize s.validate f = v
  obtain ⟨ok, t⟩ := v
  cases ok with
  | false => rfl
  | true =>
    cases f.roce with
    | none => cases f.dest <;> rfl
    | some p =>
      simp only [Bool.not_true, Bool.false_eq_true, if_false, if_true]
      split
      · rfl
      · split <;> rfl

/-! RoCEv2 packets (R39, R58) -/

/-- A damaged packet of another queue pair than 1 is dropped and counted as damaged, whatever its opcode. -/
theorem State.classify_damaged {s : State} {f : Frame} {p : Packet} (hp : f.roce = some p) (hq : p.qpn ≠ 1)
    (hbad : p.icrcOk = false ∨ p.lengthOk = false) : s.classify f = s.dropPacket 3 := by
  have hbad' : (p.icrcOk && p.lengthOk) = false := by rcases hbad with h | h <;> simp [h]
  have hbad'' : (!p.icrcOk || !p.lengthOk) = true := by rcases hbad with h | h <;> simp [h]
  unfold State.classify State.arriveQt
  simp [hp, hq, hbad', hbad'']

/-- A good CNP goes no further here. -/
theorem State.classify_cnp {s : State} {f : Frame} {p : Packet} (hp : f.roce = some p) (hq : p.qpn ≠ 1) (hcrc : p.icrcOk = true)
    (hlen : p.lengthOk = true) (hop : p.opcode = 0x81) : s.classify f = s := by
  unfold State.classify
  simp [hp, hq, hcrc, hlen, hop]

/-- A packet of another service, or outside the queue pairs, is dropped and counted as such. -/
theorem State.classify_foreign {s : State} {f : Frame} {p : Packet} (hp : f.roce = some p) (hq : p.qpn ≠ 1) (hcrc : p.icrcOk = true)
    (hlen : p.lengthOk = true) (hop : p.opcode ≠ 0x81) (hforeign : rcOpcode p.opcode = false ∨ s.validQpn p.qpn = false) :
    s.classify f = s.dropPacket 2 := by
  have hforeign' : (!rcOpcode p.opcode || !s.validQpn p.qpn) = true := by rcases hforeign with h | h <;> simp [h]
  unfold State.classify State.arriveQt
  simp [hp, hq, hcrc, hlen, hop, hforeign']

theorem State.markCe_clear {s : State} {p : Packet} (h : p.ce = false) : s.markCe p = s := by
  unfold State.markCe
  simp [h]

/-- A good packet whose context is on die, and whose FIFO is empty, joins the direct path (R58). -/
theorem State.classify_direct {s : State} {f : Frame} {p : Packet} (hp : f.roce = some p) (hcrc : p.icrcOk = true) (hlen : p.lengthOk = true)
    (hrc : rcOpcode p.opcode = true) (hq : p.qpn ≠ 1) (hvalid : s.validQpn p.qpn = true) (hrole : s.roleGap .qt (p.qpn % 2) = false)
    (hce : p.ce = false) (hdie : s.onDie p.qpn = true) (hfifo : s.waitingPackets p.qpn = []) (hleave : p.qpn ∉ s.trn.leaving) :
    (s.classify f).trn.direct = s.trn.direct ++ [p] := by
  have hop : p.opcode ≠ 0x81 := by
    intro h
    rw [h] at hrc
    exact absurd hrc (by decide)
  unfold State.classify State.arriveQt
  simp [hp, hq, hcrc, hlen, hop, hrc, hvalid, hrole, State.markCe_clear hce, hdie, hfifo, hleave]

/-- A drop is counted under its cause. -/
theorem State.rd_dropPacket (s : State) (k : Nat) : (s.dropPacket k).rd Reg.TRN_DROP.COUNT k =
    Reg.TRN_DROP.COUNT.fit (satAdd Reg.TRN_DROP.COUNT.width (s.rd Reg.TRN_DROP.COUNT k) 1) := State.rd_bump_same ..

/-- A frame that goes on under MACsec is classified. -/
theorem execFrameReceive_passed {s : State} {f : Frame} (h : Receives s f) (he : ¬ f.isEapol) (hv : (s.validate f).1 = true) :
    exec (.frameReceive f) s = .next ((s.validate f).2.classify f) := by
  show execFrameReceive f s = _
  rw [execFrameReceive_macsec h he, if_pos hv]

/-- A lost head takes no frame, FEC errors are counted, and a frame of bad length is dropped. -/
theorem execFrameReceive_early (s : State) (f : Frame) :
    (s.power.headLost = true → exec (.frameReceive f) s = .next s) ∧
      (s.power.headLost = false → f.uncorrect = true → exec (.frameReceive f) s = .next (s.bump Reg.ETH_FEC_UNCORR.COUNT 1 (f.lport / 4))) ∧
      (f.uncorrect = false → f.length < 64 ∨ 9216 < f.length → exec (.frameReceive f) s = .next s) := by
  show (_ → execFrameReceive f s = _) ∧ (_ → _ → execFrameReceive f s = _) ∧ (_ → _ → execFrameReceive f s = _)
  unfold execFrameReceive
  refine ⟨fun h => if_pos h, fun h hf => ?_, fun hf hlen => ?_⟩
  · simp only [h, hf, Bool.false_eq_true, if_false, if_true]
  · simp only [hf, Bool.false_eq_true, if_false]
    rw [if_pos hlen]
    exact ite_self _

/-- Settles O4: the early drops, then EAPOL and strict MACsec, then the rows of R39 for a frame that goes on. -/
theorem frontPorts : Obligations.FrontPorts := by
  unfold Obligations.FrontPorts
  refine ⟨fun s f => ?early, fun s f ha hl hs hu => ⟨fun ht hd => ?eapol, fun he hen hstrict htag => ?strict⟩,
    fun s f ha hl hs hu he hv => ?passed⟩
  case early =>
    obtain ⟨hlost, hfec, hlen⟩ := execFrameReceive_early s f
    exact ⟨hlost, fun h hf => .of_eq (hfec h hf) (State.rd_bump_same ..), hlen⟩
  case eapol => exact .of_eq (execFrameReceive_eapol ⟨ha, hu, hl, hs⟩ ⟨ht, hd⟩) (s.hostFrame_counts f true)
  case strict =>
    show execFrameReceive f s = _
    rw [execFrameReceive_macsec ⟨ha, hu, hl, hs⟩ he, State.validate_strict hen hstrict htag]
    rfl
  case passed =>
    have hgo := execFrameReceive_passed ⟨ha, hu, hl, hs⟩ he hv
    have hhost (h : (s.validate f).2.classify f = (s.validate f).2.hostFrame f false) :
        Answers (.frameReceive f) s fun t => HostBound s t f.lport :=
      .of_eq (h ▸ hgo) (.of_validate ((s.validate f).2.hostFrame_counts f false))
    refine ⟨fun hr hd => hhost ?_, fun hr hd => hgo.trans (congrArg _ ?_), fun p hp => ⟨fun hq => hhost ?_, fun hq hbad => ?_, fun hq hc hn hop =>
      hgo.trans (congrArg _ (State.classify_cnp hp hq hc hn hop)), fun hq hc hn hop hf => ?_,
      fun hc hn hrc hq hvalid hrole hce hdie hfifo hleave => ?_⟩⟩
    · rcases hd with h | h | h <;> simp [State.classify, hr, h]
    · rcases hd with h | h <;> simp [State.classify, hr, h]
    · simp [State.classify, hp, hq]
    · refine .of_eq (State.classify_damaged hp hq hbad ▸ hgo) ?_
      rw [State.rd_dropPacket, State.rd_validate]
    · rw [← State.validQpn_validate s f] at hf
      refine .of_eq (State.classify_foreign hp hq hc hn hop hf ▸ hgo) ?_
      rw [State.rd_dropPacket, State.rd_validate]
    · refine .of_eq hgo ?_
      rw [State.classify_direct hp hc hn hrc hq (by rw [State.validQpn_validate, hvalid]) (by rw [State.roleGap_validate, hrole]) hce
        (by rw [← hdie]; unfold State.onDie State.dieSet; rw [State.trn_validate])
        (by rw [← hfifo]; unfold State.waitingPackets; rw [State.trn_validate]) (by rw [State.trn_validate]; exact hleave), State.trn_validate]

end Sys2Proof.Machine
end

section
/-!
Namespaces and pool moves (O26): an event leaves what a ring command's completion needs, and each command's work is internal.
-/
namespace Sys2Proof.Machine
open Sys2Proof

/-! An event leaves what a ring command is answered by -/

/-- The function is awake as before, and each slice holds the rings and the started commands that it held. -/
structure AnswersKept (s t : State) : Prop where
  awake  : t.host.d3hot = s.host.d3hot
  slices : ∀ n sl, Table.find n s.host.slices = some sl → ∃ sl', Table.find n t.host.slices = some sl' ∧ sl'.started = sl.started ∧
    ∀ k, Table.has k sl.rings = true → Table.has k sl'.rings = true

theorem AnswersKept.refl (s : State) : AnswersKept s s := ⟨rfl, fun _ sl h => ⟨sl, h, rfl, fun _ => id⟩⟩

theorem AnswersKept.trans {s t u : State} (h : AnswersKept s t) (g : AnswersKept t u) : AnswersKept s u := by
  refine ⟨g.awake.trans h.awake, fun n sl hsl => ?_⟩
  obtain ⟨sl₁, hsl₁, hstart₁, hrings₁⟩ := h.slices n sl hsl
  obtain ⟨sl₂, hsl₂, hstart₂, hrings₂⟩ := g.slices n sl₁ hsl₁
  exact ⟨sl₂, hsl₂, hstart₂.trans hstart₁, fun k hk => hrings₂ k (hrings₁ k hk)⟩

theorem AnswersKept.of_host {s t : State} (h : t.host = s.host) : AnswersKept s t := by
  refine ⟨by rw [h], fun n sl hsl => ⟨sl, by rw [h]; exact hsl, rfl, fun _ => id⟩⟩

/-- What keeps slices, rings and commands keeps a ring command answerable. -/
theorem AnswersKept.answers {s t : State} (h : AnswersKept s t) {c : HostCmd} (hc : s.answers c = true) : t.answers c = true := by
  simp only [State.answers, Bool.and_eq_true, Bool.not_eq_true', Option.any_eq_true] at hc ⊢
  obtain ⟨hd, sl, hsl, hring, hsquash⟩ := hc
  obtain ⟨sl', hsl', hstart, hrings⟩ := h.slices _ sl hsl
  exact ⟨h.awake.trans hd, sl', hsl', hrings _ hring, by rw [hstart]; exact hsquash⟩

/-- A slice put in place of one with its started commands and rings. -/
theorem AnswersKept.setSlice {s : State} {n : Nat} {sl sl' : Slice} (hsl : Table.find n s.host.slices = some sl)
    (hstart : sl'.started = sl.started) (hrings : ∀ k, Table.has k sl.rings = true → Table.has k sl'.rings = true) :
    AnswersKept s (s.setSlice n sl') := by
  refine ⟨rfl, fun m x hx => ?_⟩
  by_cases h : m = n
  · subst h
    cases hsl.symm.trans hx
    exact ⟨sl', State.find_setSlice .., hstart, hrings⟩
  · exact ⟨x, (Table.find_put_other h ..).trans hx, rfl, fun _ => id⟩

theorem AnswersKept.setRing {s : State} {n k : Nat} {sl : Slice} (hsl : Table.find n s.host.slices = some sl) (r : Ring) :
    AnswersKept s (s.setRing n sl k r) := by
  refine .setSlice hsl rfl fun j hj => ?_
  unfold Table.has at *
  by_cases h : j = k
  · rw [h, Table.find_put_same]
    rfl
  · rw [Table.find_put_other h]
    exact hj

theorem State.fireVector_answers (s : State) (v : Nat) : AnswersKept s (s.fireVector v) := by
  refine ⟨?_, fun n sl h => ⟨sl, by rw [State.fireVector_slices]; exact h, rfl, fun _ => id⟩⟩
  unfold State.fireVector
  extract_lets e
  split <;> rfl

theorem State.pollRing_answers (s : State) (n k : Nat) : AnswersKept s (s.pollRing n k) := by
  unfold State.pollRing
  split
  · exact .refl s
  next sl hsl =>
    split
    · exact .refl s
    next r hr =>
      split
      · exact (AnswersKept.setRing hsl _).trans (State.fireVector_answers ..)
      · exact .refl s

theorem State.cqWrite_answers (s : State) (n k cid status r0 r1 : Nat) (noIrq isEvent : Bool) :
    AnswersKept s (s.cqWrite n k cid status r0 r1 noIrq isEvent) := by
  unfold State.cqWrite
  split
  · exact .refl s
  next sl hsl =>
    split
    · exact .refl s
    next r hr =>
      extract_lets size r' t
      exact ((AnswersKept.setRing hsl r').trans (.of_host (State.sendHost_host ..))).trans (State.pollRing_answers ..)

/-- The mark of dropped events aside, a slice table stays as it is. -/
theorem AnswersKept.undropped (s : State) (n : Nat) :
    AnswersKept s { s with host.slices := Table.modify n (fun sl => { sl with dropped := false }) s.host.slices } := by
  refine ⟨rfl, fun m sl hsl => ?_⟩
  unfold Table.modify
  cases hn : Table.find n s.host.slices with
  | none => exact ⟨sl, hsl, rfl, fun _ => id⟩
  | some x =>
    by_cases h : m = n
    · subst h
      cases hn.symm.trans hsl
      exact ⟨_, Table.find_put_same .., rfl, fun _ => id⟩
    · exact ⟨sl, (Table.find_put_other h ..).trans hsl, rfl, fun _ => id⟩

theorem State.postTo_answers (s : State) (n code detail : Nat) : AnswersKept s (s.postTo n code detail) := by
  have held : AnswersKept s { s with host.held := s.host.held ++ [⟨code, detail, s.ringTime⟩] } :=
    ⟨rfl, fun _ sl h => ⟨sl, h, rfl, fun _ => id⟩⟩
  unfold State.postTo
  split
  next sl hsl =>
    split
    · split
      · exact .refl s
      · split
        · exact (AnswersKept.setSlice (sl' := { sl with dropped := true }) hsl rfl fun _ => id).trans (.of_host (State.bump_host ..))
        · exact (State.cqWrite_answers ..).trans (.undropped ..)
    · exact held
  · exact held

theorem State.posts_answers (code detail : Nat) (l : List Nat) (s : State) :
    AnswersKept s (l.foldl (fun s n => s.postTo n code detail) s) := by
  induction l generalizing s with
  | nil => exact .refl s
  | cons n r ih => exact (State.postTo_answers ..).trans (ih _)

theorem State.passRecord_answers (s : State) (code : Nat) (detail : List Byte) : AnswersKept s (s.passRecord code detail) := by
  have hbuf (s : State) (r : EventRecord) : (s.bufferRecord r).host = s.host :=
    (State.bufferRecord_frame (ps := Part.but [.host]) r (.refl _ _) rfl).only.host rfl
  have hfront (s : State) (r : EventRecord) : (s.frontRecord r false).host = s.host :=
    (State.frontRecord_frame (ps := Part.but [.host]) r false (.refl _ _) rfl).only.host rfl
  unfold State.passRecord
  extract_lets r u v
  refine AnswersKept.trans (.of_host ?_) (State.posts_answers ..)
  show (if _ then _ else _ : State).host = _
  split
  · rw [hfront, hbuf]
  · exact hbuf ..

theorem State.event_answers (s : State) (code : Nat) (detail : List Byte) : AnswersKept s (s.event code detail) := by
  unfold State.event
  split
  · exact State.passRecord_answers ..
  · extract_lets rate burst b level u v
    split
    · exact .of_host rfl
    · refine AnswersKept.trans ?_ (State.passRecord_answers ..)
      show AnswersKept s (if _ then _ else _)
      split
      · exact .of_host rfl
      · exact AnswersKept.trans (t := u) (.of_host rfl) (State.passRecord_answers ..)

/-! The ring commands (R263, R265, R397) -/

/-- Work asked for on a namespace joins the internal work that waits for a tag, with its ring command. -/
theorem State.changeNs_asks (s : State) (c : HostCmd) (nsid tenant : Nat) (op : MetaOp) :
    Asks s (s.changeNs c nsid tenant op) (.change op) (some c) := ⟨_, rfl, rfl⟩

/-- A command that its slice takes, and whose run completes it, completes. -/
theorem Answers.completes {i : Instr} {s : State} {c : HostCmd} {cap : Cap} {run : Slice → State} {status : Nat}
    (hi : exec i s = .next (s.ringGate c cap run)) (h : s.accepts c cap = true) (hrun : run (s.sliceOf c) = s.complete c status) :
    Answers i s fun t => Completes s t c status 0 0 := by
  refine .of_eq hi ?_
  rw [State.ringGate_accepts h, hrun]
  exact State.complete_completes (State.answers_of_accepts h) ..

/-- A command that its slice takes, and whose run asks for a change, has asked for it. -/
theorem Answers.asks {i : Instr} {s : State} {c : HostCmd} {cap : Cap} {run : Slice → State} {nsid tenant : Nat} {op : MetaOp}
    (hi : exec i s = .next (s.ringGate c cap run)) (h : s.accepts c cap = true)
    (hrun : run (s.sliceOf c) = s.changeNs c nsid tenant op) : Answers i s fun t => Asks s t (.change op) (some c) := by
  refine .of_eq hi ?_
  rw [State.ringGate_accepts h, hrun]
  exact State.changeNs_asks ..

/-- What NS_CREATE does with good parameters: it is refused while no page number is left, else it asks for the record. -/
theorem nsCreate_good {s : State} {c : HostCmd} {p : NsParams} (h : s.accepts c .namespaces = true) (hbase : s.rd Reg.MAP_NS_BASE.BASE ≠ 0)
    (hzero : p.reservedZero = true) (hid : 1 ≤ p.nsid ∧ p.nsid ≤ 65536) (hnew : s.nsidTaken p.nsid = false) (htenant : p.tenant < 4096)
    (hpool : p.pool < 64) (hgroup : p.group < 1024) (hsize : 1 ≤ p.size ∧ p.size ≤ 2 ^ 40)
    (hname : (s.sliceOf c).mayName p.tenant = true) :
    if s.numbersLeft (s.groupOf p.group).owner = 0 then Answers (.nsCreate c p) s fun t => Completes s t c 0x4002 0 0
    else Answers (.nsCreate c p) s fun t => Asks s t (.change (.nsCreate p.nsid p.tenant p.pool p.size p.group p.programs)) (some c) := by
  have hgood : (!p.reservedZero || !(decide (1 ≤ p.nsid ∧ p.nsid ≤ 65536)) || s.nsidTaken p.nsid || 4096 ≤ p.tenant || 64 ≤ p.pool ||
      1024 ≤ p.group || !(decide (1 ≤ p.size ∧ p.size ≤ 2 ^ 40))) = false := by
    simp only [hzero, hid, hnew, hsize, and_self, decide_true, Bool.not_true, Bool.or_false, Bool.false_or, Bool.or_eq_false_iff, decide_eq_false_iff_not]
    exact ⟨⟨htenant.not_ge, hpool.not_ge⟩, hgroup.not_ge⟩
  split
  · next hleft => exact .completes rfl h (by simp only [hbase, hgood, hname, hleft, if_false, if_true, Bool.not_true, Bool.false_eq_true])
  · next hleft => exact .asks rfl h (by simp only [hbase, hgood, hname, hleft, if_false, Bool.not_true, Bool.false_eq_true]; rfl)

/-- A namespace that exists changes as asked, where the parameters are good. -/
theorem nsChange_good {s : State} {c : HostCmd} {p : NsParams} {x : Namespace} (h : s.accepts c .namespaces = true)
    (hx : Table.find p.nsid s.map.ns = some x) (hzero : p.reservedZero = true) (hsize : ∀ z, p.newSize = some z → 1 ≤ z ∧ z ≤ 2 ^ 40)
    (hpool : ∀ q, p.newPool = some q → q < 64) (hname : (s.sliceOf c).mayName x.tenant = true) :
    Answers (.nsChange c p) s fun t => Asks s t (.change (.nsChange p.nsid p.newSize p.newPrograms (p.newPool.map some))) (some c) := by
  refine .asks (nsid := p.nsid) (tenant := x.tenant) rfl h ?_
  simp -zeta only [hx]
  extract_lets sizeOk poolOk
  have hs : sizeOk = true := by
    cases hn : p.newSize with
    | none => simp only [sizeOk, hn]
    | some z => simp only [sizeOk, hn, hsize z hn, and_self, decide_true]
  have hp : poolOk = true := by
    cases hn : p.newPool with
    | none => simp only [poolOk, hn]
    | some q => simp only [poolOk, hn, hpool q hn, decide_true]
  simp only [hzero, hs, hp, hname, Bool.not_true, Bool.or_self, Bool.false_eq_true, if_false]

/-- NS_DELETE of a namespace whose snapshot a clone uses is refused, after an event that leaves the ring command answerable. -/
theorem nsDelete_used {s : State} {c : HostCmd} {nsid : Nat} {x : Namespace} (h : s.accepts c .namespaces = true)
    (hx : Table.find nsid s.map.ns = some x) (hname : (s.sliceOf c).mayName x.tenant = true)
    (hused : (s.snapIds nsid).any (s.snapUsed nsid) = true) : Answers (.nsDelete c nsid) s fun t => Completes s t c 0x400C 0 0 := by
  refine ⟨(s.event1 0x400C nsid).complete c 0x400C, ?_, ?_⟩
  · show execNsDelete c nsid s = _
    simp only [execNsDelete, State.ringGate_accepts h, hx, hname, hused, Bool.not_true, Bool.false_eq_true, if_false, if_true]
  · have hkept := (State.event_answers s 0x400C (le 8 nsid)).answers (State.answers_of_accepts h)
    exact (State.complete_completes hkept ..).earlier (State.event_frame (ps := Part.every) _ _ (.refl _ _) rfl).sent

/-- The write that MAP_IMPORT queues: the container as it is, at its place, without a fingerprint. -/
def State.importWrite (s : State) (addr : Nat) (b : Container) : WriteJob :=
  { segs := [{ off := addr, len := (Header.parse b).orig, lane := s.pickLane [], got := (Header.parse b).orig }]
    chunks := [{ off := addr, bytes := [], lane := s.pickLane [], fwd := some ((Header.parse b).orig, b), state := .stored b false }] }

/-- MAP_IMPORT on a namespace that exists, in a domain that the slice may name. -/
theorem mapImport_eq {s : State} {c : HostCmd} {nsid addr : Nat} {b : Container} {x : Namespace} (h : s.accepts c .namespaces = true)
    (hx : Table.find nsid s.map.ns = some x) (hname : (s.sliceOf c).mayName x.tenant = true) :
    exec (.mapImport c nsid addr b) s = .next (
      if !(headerGood b x.tenant b.length) || x.size * 4096 < addr + (Header.parse b).orig then s.complete c 0x1001
      else if s.numbersLeft (s.nsOwner nsid) = 0 then s.complete c 0x4002
      else s.askInternal { internalCmd .handOver (some c) nsid x.tenant with write := some (s.importWrite addr b) }) := by
  show execMapImport c nsid addr b s = _
  simp only [execMapImport, State.ringGate_accepts h, hx, hname, Bool.not_true, Bool.false_eq_true, if_false]
  rfl

/-- Settles O26: each command's run where its slice takes it, and what its completion or its internal work leaves. -/
theorem namespaces : Obligations.Namespaces := by
  unfold Obligations.Namespaces
  refine ⟨fun s c p h => ⟨fun hbase => ?_, fun hbase hbad => ?_, fun hbase hzero h1 h2 hnew ht hp hg hs1 hs2 hname =>
      nsCreate_good h hbase hzero ⟨h1, h2⟩ hnew ht hp hg ⟨hs1, hs2⟩ hname⟩,
    fun s c p h => ?_, fun s c nsid x h hx hname => ?_, fun s c nsid addr b x h hx hname => ?_, fun s nsid x p l hx hm hfind => ?_,
    fun s nsid x p hx hm hnone => ?_⟩
  · exact .completes rfl h (if_pos hbase)
  · exact .completes rfl h (by rcases hbad with hb | hb | hb <;> simp [hbase, hb])
  · split
    · next hx => exact .completes rfl h (by simp only [hx])
    · next x hx => exact fun hzero hsize hpool hname => nsChange_good h hx hzero hsize hpool hname
  · split
    · next hused => exact nsDelete_used h hx hname hused
    · next hused => exact .asks rfl h (by simp only [hx, hname, hused]; rfl)
  · have ha := State.answers_of_accepts h
    rw [Answers, Answers, Answers, mapImport_eq h hx hname]
    refine ⟨fun hbad => ⟨_, rfl, ?_⟩, fun hgood hin hleft => ⟨_, rfl, ?_⟩, fun hgood hin hleft => ⟨_, rfl, ?_⟩⟩
    · simp only [hbad, Bool.not_false, Bool.true_or, if_true]
      exact State.complete_completes ha ..
    · have hin' : ¬ x.size * 4096 < addr + (Header.parse b).orig := by omega
      simp only [hgood, hin', hleft, Bool.not_true, decide_false, Bool.or_false, Bool.false_eq_true, if_false]
      refine ⟨⟨_, rfl, rfl⟩, _, _, _, _, List.getLast?_concat, rfl, rfl, rfl, rfl, rfl, rfl, rfl⟩
    · have hin' : ¬ x.size * 4096 < addr + (Header.parse b).orig := by omega
      simp only [hgood, hin', hleft, Bool.not_true, decide_false, Bool.or_false, Bool.false_eq_true, if_false, if_true]
      exact State.complete_completes ha ..
  · refine .of_eq (t := s.askFetch (.collect p) l (s.tenantOf nsid)) ?_ ⟨_, rfl, rfl⟩
    show execPoolMoveCopy nsid s = _
    simp only [execPoolMoveCopy, hx, Option.bind_some, hm, hfind]
  · have hgo (asked : Bool) (h : (s.cmd.internal.any fun w => w.made.any fun c =>
        c.job == some (.change (.nsChange nsid none none (some none)))) = asked) : exec (.poolMoveComplete nsid) s =
        if asked then .next s else .next (s.askInternal (internalCmd (.change (.nsChange nsid none none (some none))) none nsid x.tenant)) := by
      show execPoolMoveComplete nsid s = _
      simp only [execPoolMoveComplete, hx, hm, hnone, h]
      cases asked <;> rfl
    exact ⟨fun h => .of_eq (hgo false h) ⟨_, rfl, rfl⟩, fun h => hgo true h⟩

end Sys2Proof.Machine
end

section
/-!
The read path (O15): a member read that another has overtaken delivers nothing, so a proxy read of it gives the ring no data.
-/
namespace Sys2Proof.Machine
open Sys2Proof

/-- A proxy read of one codeword, which another read has overtaken. -/
def overtakenRead : LeafRead := { leaf := 0, unit := 0, folio := 0, first := 0, count := 1, use := .proxy 0, overtaken := true }

/-- A link of the ring is up, and the overtaken read is at its leaf. -/
def overtakenProxyRead : State :=
  { State.reset.wr Reg.XRN_LINK_STATUS.STATE 5 0 with lfl.ops := [(0, { leaf := 0, cmd := .read, for_ := .read overtakenRead })] }

/-- Nothing has been sent, and nothing waits for a link. -/
def State.ringSilent (s : State) : Bool := s.out.isEmpty && s.chan.waiting.isEmpty && s.chan.owed.isEmpty

/-- The read's completion leaves the ring silent. -/
theorem overtakenProxyRead_silent : (match exec (.leafReadCompletion 0 0 0 [.good 0 []]) overtakenProxyRead with
    | .next t => t.ringSilent
    | _ => false) = true := by
  decide

/-- Where a link takes a message, a silent ring has not been given it. -/
theorem State.not_rings_of_silent {s t : State} {o : Out} {l : Nat} (hl : s.linkFor o = some l) (h : t.ringSilent = true) :
    ¬ Rings s t o := by
  simp only [State.ringSilent, Bool.and_eq_true, List.isEmpty_iff] at h
  obtain ⟨⟨hout, hwait⟩, howed⟩ := h
  intro hr
  rcases hr l hl with ⟨new, hnew, ho⟩ | hw | ⟨-, ho⟩
  · rw [hout] at hnew
    rw [(List.append_eq_nil_iff.1 hnew.symm).1] at ho
    exact List.not_mem_nil ho
  · rw [hwait] at hw
    exact List.not_mem_nil hw
  · rw [howed] at ho
    exact List.not_mem_nil ho

/-- Refutes O15: LEAF_READ_COMPLETION of a proxy read that another read has overtaken, its codeword decoded at the first read, gives the ring
nothing, though a link is up. -/
theorem not_readPath : ¬ Obligations.ReadPath := by
  unfold Obligations.ReadPath
  rintro ⟨-, -, -, -, completion, -⟩
  obtain ⟨t, ht, hr⟩ := completion overtakenProxyRead 0 0 0 0 [] _ _ 0 rfl rfl rfl rfl rfl
  have silent := overtakenProxyRead_silent
  rw [ht] at silent
  exact State.not_rings_of_silent (l := 0) (by decide) silent hr

end Sys2Proof.Machine
end

section
/-!
Tags that stay out of use and completions that stay queued: what the work of a command leaves of the tag table.
-/
namespace Sys2Proof.Machine
open Sys2Proof

/-- No tag has come into use, and the queue of completions is as it was. -/
structure CmdKept (s t : State) : Prop where
  free    : ∀ n, s.tag n = none → t.tag n = none
  posting : t.cmd.posting = s.cmd.posting

theorem CmdKept.refl (s : State) : CmdKept s s := ⟨fun _ => id, rfl⟩

theorem CmdKept.frame {s t u : State} (h : CmdKept s t) (g : Within (Part.but [.cmd]) t u) : CmdKept s u := by
  have hcmd : u.cmd = t.cmd := g.only.cmd rfl
  refine ⟨fun n hn => ?_, by rw [hcmd, h.posting]⟩
  unfold State.tag
  rw [hcmd]
  exact h.free n hn

theorem CmdKept.ite {s t u : State} {p : Prop} [Decidable p] (h : CmdKept s t) (g : CmdKept s u) : CmdKept s (if p then t else u) := by
  split <;> assumption

theorem CmdKept.foldl {α : Type} {s t : State} {f : State → α → State} (l : List α) (h : CmdKept s t)
    (g : ∀ u x, CmdKept s u → CmdKept s (f u x)) : CmdKept s (l.foldl f t) := by
  induction l generalizing t with
  | nil => exact h
  | cons x r ih => exact ih (g t x h)

/-- A record update that brings no tag into use and keeps the queue. -/
theorem CmdKept.putTags {s t : State}
    {a_pending a_regs a_holding a_clock a_ringTime a_pins a_fuses a_straps a_power a_boot a_test a_evt a_nor a_host a_ports a_trn a_cmd a_bnd
      a_ddp a_keys a_wc a_sig a_lfl a_map a_rep a_prg a_xrn a_chan a_own a_store a_mem a_free a_out a_hostWait}
    (h : CmdKept s t) (_ : a_pending = t.pending) (ht : ∀ n, Table.find n t.cmd.tags = none → Table.find n a_cmd.tags = none) (hp : a_cmd.posting = t.cmd.posting) :
    CmdKept s (State.mk a_pending a_regs a_holding a_clock a_ringTime a_pins a_fuses a_straps a_power a_boot a_test a_evt a_nor a_host a_ports
      a_trn a_cmd a_bnd a_ddp a_keys a_wc a_sig a_lfl a_map a_rep a_prg a_xrn a_chan a_own a_store a_mem a_free a_out a_hostWait) :=
  ⟨fun n hn => ht n (h.free n hn), hp.trans h.posting⟩

/-- A record update that keeps the tags and the queue. -/
theorem CmdKept.put {s t : State}
    {a_pending a_regs a_holding a_clock a_ringTime a_pins a_fuses a_straps a_power a_boot a_test a_evt a_nor a_host a_ports a_trn a_cmd a_bnd
      a_ddp a_keys a_wc a_sig a_lfl a_map a_rep a_prg a_xrn a_chan a_own a_store a_mem a_free a_out a_hostWait}
    (h : CmdKept s t) (hu : a_pending = t.pending) (ht : a_cmd.tags = t.cmd.tags) (hp : a_cmd.posting = t.cmd.posting) :
    CmdKept s (State.mk a_pending a_regs a_holding a_clock a_ringTime a_pins a_fuses a_straps a_power a_boot a_test a_evt a_nor a_host a_ports
      a_trn a_cmd a_bnd a_ddp a_keys a_wc a_sig a_lfl a_map a_rep a_prg a_xrn a_chan a_own a_store a_mem a_free a_out a_hostWait) :=
  .putTags h hu (fun n hn => by rw [ht]; exact hn) hp

theorem Table.find_modify_none {α : Type} {n : Nat} {t : Table α} (k : Nat) (f : α → α) (h : Table.find n t = none) :
    Table.find n (Table.modify k f t) = none := by
  unfold Table.modify
  split
  · next x hx =>
    rw [Table.find_put_other, h]
    rintro rfl
    simp [h] at hx
  · exact h

theorem Table.find_mapVals_none {α : Type} {n : Nat} {t : Table α} (f : Nat → α → α) (h : Table.find n t = none) :
    Table.find n (Table.mapVals f t) = none := by
  induction t with
  | nil => rfl
  | cons e r ih =>
    simp only [Table.find, Table.mapVals, List.map_cons] at h ⊢
    split at h
    · cases h
    · next hne =>
      rw [if_neg hne]
      exact ih h

section
variable {s t : State} (h : CmdKept s t)
include h

/-! The tag table's own operations -/

theorem CmdKept.modTag n f : CmdKept s (t.modTag n f) := .putTags h rfl (fun _ hm => Table.find_modify_none n f hm) rfl

theorem CmdKept.refuse n st : CmdKept s (t.refuse n st) := h.modTag ..

theorem CmdKept.finish n st : CmdKept s (t.finish n st) := h.modTag ..

theorem CmdKept.modWrite n f : CmdKept s (t.modWrite n f) := h.modTag ..

theorem CmdKept.modChunk n off f : CmdKept s (t.modChunk n off f) := h.modWrite ..

theorem CmdKept.askInternal c : CmdKept s (t.askInternal c) := .put h rfl rfl rfl

theorem CmdKept.hold n : CmdKept s (t.hold n) := by
  unfold State.hold
  extract_lets order _ u v
  have hu : CmdKept s u := .put h rfl rfl rfl
  have hv : CmdKept s v := hu.modTag ..
  exact .ite (.put hv rfl rfl rfl) hv

theorem CmdKept.start n : CmdKept s (t.start n) := by
  unfold State.start
  split
  · exact h
  · refine .ite (h.hold _) (.ite (CmdKept.hold (.frame ?_ (State.wr_frame _ _ _ _ (.refl _ _) rfl)) _) (h.modTag ..))
    exact .put h rfl rfl rfl

/-! The end of a command, and the locks that it leaves (R92, R100) -/

theorem CmdKept.settleFlush : CmdKept s t.settleFlush := .foldl _ h fun _ _ h => h.modTag ..

theorem CmdKept.admitLocks : CmdKept s t.admitLocks := .foldl _ h fun _ _ h => h.modTag ..

theorem CmdKept.afterLock n : CmdKept s (t.afterLock n) := by
  unfold State.afterLock
  split
  · exact h
  · split
    · split
      · exact h.refuse ..
      · split
        · refine .ite (.frame (h.refuse ..) (State.event1_frame _ _ (.refl _ _) rfl))
            (CmdKept.hold (.frame ?_ (State.bump_frame _ _ _ _ (.refl _ _) rfl)) _)
          exact .put h rfl rfl rfl
        · exact h.start _
    · split
      · exact h.refuse ..
      · exact h.start _
    · exact h.start _

theorem CmdKept.grantLocks : CmdKept s t.grantLocks := .foldl _ h.admitLocks fun _ _ h => (h.modTag ..).afterLock _

theorem CmdKept.endServed n c : CmdKept s (t.endServed n c) := by
  unfold State.endServed
  split
  · exact h
  · exact .ite (h.finish ..) h

theorem CmdKept.endHalf c st : CmdKept s (t.endHalf c st) := by
  unfold State.endHalf
  split
  · exact h
  · split
    · exact h
    · exact .ite ((h.modTag ..).refuse ..) (h.modTag ..)

/-! A change of the metadata (R176, R263) -/

theorem CmdKept.notice ctrl code about : CmdKept s (t.notice ctrl code about) := by
  unfold State.notice
  split
  · exact h
  · split
    · exact .put h rfl rfl rfl
    · refine CmdKept.modTag ?_ ..
      exact .put h rfl rfl rfl

theorem CmdKept.tellNs nsid : CmdKept s (t.tellNs nsid) := by
  refine .foldl _ ?_ fun _ _ h => .ite (h.notice ..) h
  exact .put h rfl rfl rfl

theorem CmdKept.setResv nsid r : CmdKept s (t.setResv nsid r) := .put h rfl rfl rfl

theorem CmdKept.applyMeta op : CmdKept s (t.applyMeta op) := by
  unfold State.applyMeta
  split
  · exact .ite h (h.frame (State.takeCut_frame _ _ _ _ (.refl _ _) rfl))
  · exact h.frame (State.removeSnap_frame _ _ (.refl _ _) rfl)
  · exact .ite h (h.frame (State.makeClone_frame _ _ _ (.refl _ _) rfl))
  · exact .ite h (h.frame (State.addNs_frame _ _ (.refl _ _) rfl))
  · exact h.frame (State.deleteNs_frame _ (.refl _ _) rfl)
  · refine .frame ?_ (State.qmLines_frame _ _ (.refl _ _) rfl)
    exact .put h rfl rfl rfl
  · split
    · exact h
    · exact h.frame (State.dropPage_frame _ (State.setRoot_frame _ _ (.refl _ _) rfl) rfl)
  · split
    · exact h.setResv ..
    · exact h

theorem CmdKept.applyChange op : CmdKept s (t.applyChange op) := by
  unfold State.applyChange
  dsimp only
  split
  iterate 4 exact (h.applyMeta _).tellNs _
  iterate 4 exact h.applyMeta _

/-! A write that is given up -/

theorem CmdKept.removeIndex key : CmdKept s (t.removeIndex key) := by
  unfold State.removeIndex
  split
  · exact h
  · refine .ite (h.frame (State.dropIndex_frame _ (.refl _ _) rfl)) (.frame ?_ (State.dropIndex_frame _ (.refl _ _) rfl))
    refine .putTags h rfl (fun m hm => ?_) rfl
    dsimp only
    exact Table.find_mapVals_none _ hm

theorem CmdKept.releaseStorage loc : CmdKept s (t.releaseStorage loc) := by
  have gone : CmdKept s (((t.indexKeysOf loc).foldl State.removeIndex t).uncountStored loc) :=
    .frame (.foldl _ h fun _ _ h => h.removeIndex _) (State.uncountStored_frame _ (.refl _ _) rfl)
  unfold State.releaseStorage
  dsimp only
  split
  · refine .frame ?_ (State.sendRing_frame _ (.refl _ _) rfl)
    exact .put gone rfl rfl rfl
  · exact .put gone rfl rfl rfl

theorem CmdKept.unpin key : CmdKept s (t.unpin key) := by
  unfold State.unpin
  split
  · exact h
  · extract_lets e' _ u _ v
    have hu : CmdKept s u := .ite (.put h rfl rfl rfl) (.put h rfl rfl rfl)
    have hv : CmdKept s v := .put hu rfl rfl rfl
    exact .ite (.ite (hv.releaseStorage _) hv) hu

theorem CmdKept.unpinChunks chunks : CmdKept s (t.unpinChunks chunks) := .foldl _ h fun _ _ h => h.unpin _

theorem CmdKept.giveUp n c : CmdKept s (t.giveUp n c) := by
  unfold State.giveUp
  extract_lets u _ v w
  have hu : CmdKept s u := by
    unfold u
    split
    · exact (h.unpinChunks _).frame (State.dropPending_frame _ (.refl _ _) rfl)
    · exact h
  have hv : CmdKept s v := by
    unfold v
    split
    · exact hu.frame (State.removeSnap_frame _ _ (.refl _ _) rfl)
    · exact .ite (hu.askInternal _) hu
    · exact .put hu rfl rfl rfl
    · exact hu
  have hw : CmdKept s w := hv.frame (State.stopRun_frame _ (State.leaveGroup_frame _ _ (.refl _ _) rfl) rfl)
  exact .put hw rfl rfl rfl

theorem CmdKept.cancelWith n st : CmdKept s (t.cancelWith n st) := by
  unfold State.cancelWith
  split
  · exact h
  · refine CmdKept.modTag (.ite ?_ (h.giveUp ..)) ..
    exact .put (h.giveUp ..) rfl rfl rfl

theorem CmdKept.failWrite n st event : CmdKept s (t.failWrite n st event) :=
  (h.cancelWith ..).frame (State.event1_frame _ _ (.refl _ _) rfl)

theorem CmdKept.cipherFault n : CmdKept s (t.cipherFault n) :=
  .failWrite (h.frame (State.bump_frame _ _ _ _ (State.fresh_frame (.refl _ _) rfl) rfl)) ..

/-! The chunks of a write (R107, R113) -/

theorem CmdKept.stall n lane : CmdKept s (t.stall n lane) := by
  unfold State.stall
  extract_lets first u v
  have hu : CmdKept s u := by
    unfold u
    split
    · exact h.frame (State.setOwn_frame _ _ (.refl _ _) rfl)
    · exact h
  have hv : CmdKept s v := .ite (hu.frame (State.bump_frame _ _ _ _ (.refl _ _) rfl)) hu
  refine CmdKept.modWrite ?_ ..
  exact .put hv rfl rfl rfl

theorem CmdKept.forwardChunk n domain k fp : CmdKept s (t.forwardChunk n domain k fp) := by
  unfold State.forwardChunk
  split
  · exact (h.failWrite ..).frame (State.sendRing_frame _ (.refl _ _) rfl)
  · have drawn : CmdKept s t.dummyRound.2 := h.frame (State.dummyRound_frame (.refl _ _) rfl)
    exact .ite ((drawn.cipherFault _).frame (State.sendRing_frame _ (.refl _ _) rfl))
      ((drawn.modChunk ..).frame (State.forwardUnit_frame _ _ _ (.refl _ _) rfl))

theorem CmdKept.askChunk n domain k : CmdKept s (t.askChunk n domain k) := by
  unfold State.askChunk
  split
  · exact h.failWrite ..
  · refine .ite (h.failWrite ..) ?_
    split
    · exact h
    · have used := h.frame (State.useStates_frame k.lane (t.rd Reg.DDP_DOMAIN_KEYS.DIGEST_SLOT domain) (.refl _ _) rfl)
      exact .ite (used.forwardChunk ..) ((used.modChunk ..).frame (State.send_frame _ (.refl _ _) rfl))

theorem CmdKept.bump f v i j (hf : Part.sub [.block f.block] (Part.but [.cmd]) = true) : CmdKept s (t.bump f v i j) :=
  h.frame (State.bump_frame _ _ _ _ (.refl _ _) hf)

theorem CmdKept.storeChunk n domain k noIndex : CmdKept s (t.storeChunk n domain k noIndex) := by
  unfold State.storeChunk
  extract_lets built
  generalize built = b
  split
  · exact h.failWrite ..
  · extract_lets hd u v
    have hu : CmdKept s u := h.modChunk ..
    have hv : CmdKept s v := .ite (hu.bump _ _ _ _ rfl) hu
    exact (hv.bump _ _ _ _ rfl).bump _ _ _ _ rfl

theorem CmdKept.cutChunk n domain total g off bytes : CmdKept s (t.cutChunk n domain total g off bytes) := by
  unfold State.cutChunk
  extract_lets time k u _ v w x
  have hu : CmdKept s u := h.modWrite ..
  have hv : CmdKept s v := by
    refine CmdKept.bump ?_ _ _ _ _ rfl
    exact .put hu rfl rfl rfl
  have hw : CmdKept s w := .ite (hv.bump _ _ _ _ rfl) hv
  have hx : CmdKept s x := .ite (hw.bump _ _ _ _ rfl) hw
  have drawn : CmdKept s x.dummyRound.2 := hx.frame (State.dummyRound_frame (.refl _ _) rfl)
  have zeroed := (hx.modChunk n off fun k => { k with state := .zero }).bump Reg.BND_ZERO.COUNT 1 0 0 rfl
  exact .ite (.ite (zeroed.frame (State.forwardUnit_frame _ _ _ (.refl _ _) rfl)) zeroed)
    (.ite (.ite (hx.forwardChunk ..) (.ite (drawn.cipherFault _) (drawn.storeChunk ..))) (hx.askChunk ..))

/-! The intake and the hand-off of a write (R107, R160) -/

theorem CmdKept.takeIn n off : CmdKept s (t.takeIn n off) := by
  unfold State.takeIn
  split
  · exact h
  split
  · exact h
  split
  · exact h
  refine .ite h ?_
  dsimp only
  exact .foldl _ (.frame (h.modWrite ..) (State.serveStream_frame _ _ (.refl _ _) rfl)) fun _ _ h => h.cutChunk ..

theorem CmdKept.queueItems n nsid lanes : CmdKept s (t.queueItems n nsid lanes) := by
  unfold State.queueItems
  refine .ite (h.cancelWith ..) ?_
  split
  · exact CmdKept.stall (h.frame (State.fillSegs_frame _ (.refl _ _) rfl)) ..
  · next built =>
    exact CmdKept.modTag (CmdKept.modWrite (h.frame ((State.buildRecords_frame _ _ _ _ _ _ _ _ _ built).mono rfl)) ..) ..

theorem CmdKept.tryHandOff n : CmdKept s (t.tryHandOff n) := by
  unfold State.tryHandOff
  split
  · exact h
  split
  · exact h
  · exact .ite (h.queueItems ..) h

theorem CmdKept.queueRead n tag off len : CmdKept s (t.queueRead n tag off len) := by
  unfold State.queueRead
  refine .frame ?_ (State.issueRead_frame _ (.refl _ _) rfl)
  exact .putTags (h.frame (State.setQp_frame _ _ (.refl _ _) rfl)) rfl (fun _ hm => Table.find_modify_none _ _ hm) rfl

theorem CmdKept.startSeg n off : CmdKept s (t.startSeg n off) := by
  unfold State.startSeg
  split
  · exact h
  split
  · exact h
  refine .ite h ?_
  extract_lets held fix _ u
  have hu : CmdKept s u := .putTags h rfl (fun _ hm => Table.find_modify_none _ _ hm) rfl
  exact .ite hu (hu.queueRead ..)

theorem CmdKept.pumpTag n : CmdKept s (t.pumpTag n) := by
  unfold State.pumpTag
  split
  · exact h
  · exact CmdKept.tryHandOff (.foldl _ h fun _ _ h => (h.startSeg ..).takeIn ..) _

theorem CmdKept.pumpLanes : CmdKept s t.pumpLanes :=
  .frame (.foldl _ h fun _ _ h => h.pumpTag _) (State.startJobs_frame (.refl _ _) rfl)

end

end Sys2Proof.Machine
end

section
/-!
A RoCEv2 packet given to its port (R41, R43, R461), and what later work leaves of it and of the queue pairs.
-/
namespace Sys2Proof.Machine
open Sys2Proof

/-! A packet that has been given to its port stays given -/

/-- MACsec drops what a port would send: it is on there, and no association may send (R43). -/
structure State.Drops (s : State) (l : Nat) : Prop where
  on   : s.on Reg.ETH_MACSEC_CTRL.EN (l / 4) = true
  none : ∀ a, Table.find (s.lport l).txAn (s.lport l).txSa = some a → (!a.enabled || decide (2 ^ 64 - 1 ≤ a.nextPn)) = true

theorem State.Drops.secTake {s : State} {l : Nat} (h : s.Drops l) (n : Nat) : s.secTake l n = (.drop, s) := by
  unfold State.secTake
  simp only [h.on, Bool.not_true, Bool.false_eq_true, if_false]
  split
  · rfl
  · next a ha => rw [if_pos (h.none a ha)]

/-- What MACsec does with frames to be sent: nothing where it is off or drops them, else it numbers them under an association. -/
theorem State.secTake_cases (s : State) (l n : Nat) : s.secTake l n = (.plain, s) ∨ (s.secTake l n = (.drop, s) ∧ s.Drops l) ∨
    ∃ a tags sa, ∃ b : Bool, s.secTake l n = (.protect a tags, if b then (s.setLPort l { s.lport l with txSa := sa }).send
      (.saReport l (s.lport l).txAn) else s.setLPort l { s.lport l with txSa := sa }) ∧ ¬ s.Drops l := by
  unfold State.secTake
  split
  · exact .inl rfl
  next hon =>
  have hon : s.on Reg.ETH_MACSEC_CTRL.EN (l / 4) = true := by simpa using hon
  dsimp only
  split
  · next hnone => exact .inr (.inl ⟨rfl, hon, fun a ha => by rw [hnone] at ha; cases ha⟩)
  next a ha =>
  split
  · next hbad => exact .inr (.inl ⟨rfl, hon, fun x hx => by rw [ha] at hx; cases hx; exact hbad⟩)
  next hgood =>
  exact .inr (.inr ⟨a, _, _, _, rfl, fun hd => hgood (hd.none a ha)⟩)

theorem State.secTake_drop_iff (s : State) (l n : Nat) : (s.secTake l n).1 = .drop ↔ s.Drops l := by
  rcases s.secTake_cases l n with h | ⟨h, hd⟩ | ⟨a, tags, sa, b, h, hd⟩
  · refine ⟨fun hp => ?_, fun hd => by rw [hd.secTake]⟩
    rw [h] at hp
    cases hp
  · simp [h, hd]
  · simp [h, hd]

/-- Each port still holds the packets that it held, and drops where it dropped. -/
structure PortsKept (s t : State) : Prop where
  held  : ∀ l x, x ∈ (s.lport l).held → x ∈ (t.lport l).held
  drops : ∀ l, s.Drops l → t.Drops l
  sent  : s.out <:+ t.out

theorem PortsKept.refl (s : State) : PortsKept s s := ⟨fun _ _ => id, fun _ => id, List.suffix_refl _⟩

theorem PortsKept.trans {s t u : State} (h : PortsKept s t) (g : PortsKept t u) : PortsKept s u :=
  ⟨fun l x hx => g.held l x (h.held l x hx), fun l hl => g.drops l (h.drops l hl), h.sent.trans g.sent⟩

/-- What leaves the logical ports and the block ETH alone keeps what the ports were given. -/
theorem PortsKept.of_within {s t : State} (g : Within (Part.butBlock 8 |>.filter fun p => p != .ports) s t) : PortsKept s t := by
  have hport (l : Nat) : t.lport l = s.lport l := by
    unfold State.lport
    rw [g.only.ports rfl]
  refine ⟨fun l x hx => by rw [hport]; exact hx, fun l hl => ⟨?_, fun a => ?_⟩, g.sent⟩
  · rw [State.on_of_rd (g.only.rd Reg.ETH_MACSEC_CTRL.EN (l / 4) 0 rfl rfl), hl.on]
  · rw [hport]
    exact hl.none a

/-- A port changed that still holds what it held, and whose associations may send where they could. -/
theorem PortsKept.setLPort {s : State} {l : Nat} {p : LPort} (hh : ∀ x, x ∈ (s.lport l).held → x ∈ p.held)
    (hd : s.Drops l → p.txAn = (s.lport l).txAn ∧ p.txSa = (s.lport l).txSa) : PortsKept s (s.setLPort l p) := by
  have hother {m : Nat} (hm : m ≠ l) : (s.setLPort l p).lport m = s.lport m := Table.get_put_other hm ..
  refine ⟨fun m x hx => ?_, fun m hm => ⟨hm.on, fun a => ?_⟩, List.suffix_refl _⟩
  · by_cases h : m = l
    · subst h
      rw [State.lport_setLPort]
      exact hh x hx
    · rw [hother h]
      exact hx
  · by_cases h : m = l
    · subst h
      rw [State.lport_setLPort, (hd hm).1, (hd hm).2]
      exact hm.none a
    · rw [hother h]
      exact hm.none a

theorem PortsKept.send (s : State) (o : Out) : PortsKept s (s.send o) := ⟨fun _ _ => id, fun _ h => ⟨h.on, h.none⟩, List.suffix_cons ..⟩

theorem State.secTake_ports (s : State) (l n : Nat) : PortsKept s (s.secTake l n).2 := by
  rcases s.secTake_cases l n with h | ⟨h, -⟩ | ⟨a, tags, sa, b, h, hd⟩
  · rw [h]
    exact .refl s
  · rw [h]
    exact .refl s
  · have put : PortsKept s (s.setLPort l { s.lport l with txSa := sa }) := .setLPort (fun _ => id) fun hd' => absurd hd' hd
    rw [h]
    cases b with
    | true => exact put.trans (.send ..)
    | false => exact put

theorem State.wirePacket_ports (s : State) (l n : Nat) (o : RoceOut) : PortsKept s (s.wirePacket l n o) := by
  unfold State.wirePacket
  have taken := s.secTake_ports l ((s.qp n).frames o)
  generalize s.secTake l ((s.qp n).frames o) = r at taken
  obtain ⟨w, t⟩ := r
  cases w with
  | plain => exact taken.trans (.send ..)
  | drop => exact taken
  | protect a tags => exact taken.trans (.send ..)

theorem State.sendPacket_ports (s : State) (n : Nat) (o : RoceOut) : PortsKept s (s.sendPacket n o) := by
  unfold State.sendPacket
  dsimp only
  split
  · exact .setLPort (fun x hx => List.mem_append_left _ hx) fun _ => ⟨rfl, rfl⟩
  · exact s.wirePacket_ports ..

theorem State.transmit_ports (s : State) (qpn n : Nat) (o : RoceOut) : PortsKept s (s.transmit qpn n o) := by
  unfold State.transmit
  refine PortsKept.trans (t := { s with trn.qps := _ }) ?_ (State.sendPacket_ports ..)
  exact ⟨fun _ _ => id, fun _ h => ⟨h.on, h.none⟩, List.suffix_refl _⟩

/-- A packet that is transmitted is given to the port of its queue pair. -/
theorem State.wirePacket_emits (s : State) (n : Nat) (o : RoceOut) : Emits s (s.wirePacket (s.qp n).lport n o) n o := by
  unfold State.wirePacket Emits
  have taken := s.secTake_ports (s.qp n).lport ((s.qp n).frames o)
  rcases h : s.secTake (s.qp n).lport ((s.qp n).frames o) with ⟨w, t⟩
  rw [h] at taken
  cases w with
  | plain => exact .inl ((Sends.refl_send t _).earlier taken.sent)
  | drop =>
    refine .inr (.inr (.inr ?_))
    have hd : s.Drops (s.qp n).lport := (s.secTake_drop_iff _ _).1 (by rw [h])
    exact (t.secTake_drop_iff _ _).2 (taken.drops _ hd)
  | protect a tags => exact .inr (.inl ⟨tags, (Sends.refl_send t _).earlier taken.sent⟩)

theorem State.sendPacket_emits (s : State) (n : Nat) (o : RoceOut) : Emits s (s.sendPacket n o) n o := by
  unfold State.sendPacket
  dsimp only
  split
  · refine .inr (.inr (.inl ?_))
    rw [State.lport_setLPort]
    simp
  · exact s.wirePacket_emits ..

/-- A packet given to its port stays given. -/
theorem Emits.later {s t u : State} {n : Nat} {o : RoceOut} (h : Emits s t n o) (g : PortsKept t u) : Emits s u n o := by
  rcases h with h | ⟨tags, h⟩ | h | h
  · exact .inl (h.later g.sent)
  · exact .inr (.inl ⟨tags, h.later g.sent⟩)
  · exact .inr (.inr (.inl (g.held _ _ h)))
  · exact .inr (.inr (.inr ((u.secTake_drop_iff _ _).2 (g.drops _ ((t.secTake_drop_iff _ _).1 h)))))

/-- A packet given from a state is given from an earlier one whose queue pair has the same port. -/
theorem Emits.earlier {r s t : State} {n : Nat} {o : RoceOut} (h : Emits s t n o) (g : r.out <:+ s.out)
    (hp : (s.qp n).lport = (r.qp n).lport) : Emits r t n o := by
  unfold Emits at *
  rw [← hp]
  rcases h with h | ⟨tags, h⟩ | h | h
  · exact .inl (h.earlier g)
  · exact .inr (.inl ⟨tags, h.earlier g⟩)
  · exact .inr (.inr (.inl h))
  · exact .inr (.inr (.inr h))

/-! The queue pairs -/

theorem State.qp_setQp (s : State) (n : Nat) (q : Qp) : (s.setQp n q).qp n = q := Table.get_put_same ..

/-- What of a queue pair the sending of packets and completions leaves alone: its port, its NVMe queue, its slice and its state. -/
def Qp.place (q : Qp) : Nat × NvmeQueue × Nat × QpState := (q.lport, q.nvme, q.slice, q.state)

/-- Every queue pair is in its place. -/
structure QpsKept (s t : State) : Prop where
  place : ∀ n, (t.qp n).place = (s.qp n).place

theorem QpsKept.refl (s : State) : QpsKept s s := ⟨fun _ => rfl⟩

theorem QpsKept.trans {s t u : State} (h : QpsKept s t) (g : QpsKept t u) : QpsKept s u :=
  ⟨fun n => (g.place n).trans (h.place n)⟩

theorem QpsKept.of_trn {s t : State} (h : t.trn = s.trn) : QpsKept s t := ⟨fun n => by
  unfold State.qp
  rw [h]⟩

theorem QpsKept.lport {s t : State} (h : QpsKept s t) (n : Nat) : (t.qp n).lport = (s.qp n).lport := congrArg Prod.fst (h.place n)
theorem QpsKept.nvme {s t : State} (h : QpsKept s t) (n : Nat) : (t.qp n).nvme = (s.qp n).nvme := congrArg (fun p => p.2.1) (h.place n)
theorem QpsKept.slice {s t : State} (h : QpsKept s t) (n : Nat) : (t.qp n).slice = (s.qp n).slice := congrArg (fun p => p.2.2.1) (h.place n)
theorem QpsKept.state {s t : State} (h : QpsKept s t) (n : Nat) : (t.qp n).state = (s.qp n).state := congrArg (fun p => p.2.2.2) (h.place n)

theorem QpsKept.setQp {s : State} {n : Nat} {q : Qp} (h : q.place = (s.qp n).place) : QpsKept s (s.setQp n q) := by
  refine ⟨fun m => ?_⟩
  by_cases hm : m = n
  · subst hm
    rw [State.qp_setQp, h]
  · unfold State.qp State.setQp
    rw [Table.get_put_other hm]

theorem QpsKept.modify {s : State} (n : Nat) {f : Qp → Qp} (h : ∀ q, (f q).place = q.place) :
    QpsKept s { s with trn.qps := Table.modify n f s.trn.qps } := by
  unfold Table.modify
  split
  · next q hq =>
    refine QpsKept.setQp (s := s) ?_
    rw [h, State.qp, Table.get, hq]
    rfl
  · exact .refl s

/-- To transmit is to note the packet in its queue pair, in place, and to give it to the port. -/
theorem State.transmit_eq (s : State) (qpn n : Nat) (o : RoceOut) : ∃ f : Qp → Qp, (∀ q, (f q).place = q.place) ∧
    s.transmit qpn n o = ({ s with trn.qps := Table.modify qpn f s.trn.qps } : State).sendPacket qpn o := by
  refine ⟨_, fun q => ?_, rfl⟩
  rfl

theorem State.transmit_qps (s : State) (qpn n : Nat) (o : RoceOut) : QpsKept s (s.transmit qpn n o) := by
  obtain ⟨f, hf, h⟩ := s.transmit_eq qpn n o
  rw [h]
  exact (QpsKept.modify qpn hf).trans (.of_trn ((State.sendPacket_frame (ps := Part.but [.trn]) _ _ (.refl _ _) rfl).only.trn rfl))

theorem State.transmit_emits (s : State) (qpn n : Nat) (o : RoceOut) : Emits s (s.transmit qpn n o) qpn o := by
  obtain ⟨f, hf, h⟩ := s.transmit_eq qpn n o
  rw [h]
  exact (State.sendPacket_emits ..).earlier (List.suffix_refl _) ((QpsKept.modify qpn hf).lport qpn)

/-! The lanes' reads (R56, R107) -/

theorem PortsKept.foldl {α : Type} {s t : State} {f : State → α → State} (l : List α) (h : PortsKept s t)
    (g : ∀ u x, PortsKept u (f u x)) : PortsKept s (l.foldl f t) := by
  induction l generalizing t with
  | nil => exact h
  | cons x r ih => exact ih (h.trans (g t x))

theorem PortsKept.ite {s t u : State} {p : Prop} [Decidable p] (h : PortsKept s t) (g : PortsKept s u) : PortsKept s (if p then t else u) := by
  split <;> assumption

/-- A record update that keeps the ports, the registers and the outputs. -/
theorem PortsKept.put {s t : State} (hp : t.ports = s.ports) (hr : t.regs = s.regs) (ho : t.out = s.out) : PortsKept s t := by
  have hport (l : Nat) : t.lport l = s.lport l := by
    unfold State.lport
    rw [hp]
  refine ⟨fun l x hx => by rw [hport]; exact hx, fun l hl => ⟨?_, fun a => ?_⟩, by rw [ho]⟩
  · rw [State.on_of_rd (State.rd_congr hr ..), hl.on]
  · rw [hport]
    exact hl.none a

theorem State.issueRead_ports (s : State) (n : Nat) : PortsKept s (s.issueRead n) := by
  unfold State.issueRead
  dsimp only
  split
  · exact .refl s
  split
  · exact .refl s
  refine .ite (.refl s) (.ite ?_ ?_)
  · split
    · refine PortsKept.trans ?_ (State.transmit_ports ..)
      exact .put rfl rfl rfl
    · exact .put rfl rfl rfl
  · refine PortsKept.trans ?_ (State.transmit_ports ..)
    exact .put rfl rfl rfl

theorem State.queueRead_ports (s : State) (n tag off len : Nat) : PortsKept s (s.queueRead n tag off len) := by
  unfold State.queueRead
  refine PortsKept.trans ?_ (State.issueRead_ports ..)
  exact .put rfl rfl rfl

theorem State.startSeg_ports (s : State) (n off : Nat) : PortsKept s (s.startSeg n off) := by
  unfold State.startSeg
  split
  · exact .refl s
  split
  · exact .refl s
  refine .ite (.refl s) ?_
  dsimp only
  refine .ite ?_ (PortsKept.trans ?_ (State.queueRead_ports ..))
  · exact .put rfl rfl rfl
  · exact .put rfl rfl rfl

theorem State.pumpTag_ports (s : State) (n : Nat) : PortsKept s (s.pumpTag n) := by
  unfold State.pumpTag
  split
  · exact .refl s
  · refine PortsKept.trans (.foldl _ (.refl s) fun u g => ?_) (.of_within (State.tryHandOff_frame _ (.refl _ _) rfl))
    exact (State.startSeg_ports ..).trans (.of_within (State.takeIn_frame _ _ (.refl _ _) rfl))

theorem State.pumpLanes_ports (s : State) : PortsKept s s.pumpLanes :=
  PortsKept.trans (.foldl _ (.refl s) fun _ _ => State.pumpTag_ports ..) (.of_within (State.startJobs_frame (.refl _ _) rfl))

end Sys2Proof.Machine
end

section
/-!
A queue pair that goes to Error (R50): its event reaches its slice, and nothing that ends with it brings it back.
-/
namespace Sys2Proof.Machine
open Sys2Proof

/-! A slice that can take an event goes on taking one, until an event comes -/

/-- A live slice whose CQ 0 has room for an event. -/
def Slice.takesEvent (sl : Slice) : Bool :=
  sl.live && (Table.find 0 sl.rings).any fun r => decide ((r.waiting.filter fun e => e.2.2).length < 16)

theorem State.takesEvents_eq (s : State) (n : Nat) :
    s.takesEvents n = (!s.host.d3hot && (Table.find n s.host.slices).any Slice.takesEvent) := rfl

/-- Each slice that could take an event still can. -/
structure EventsKept (s t : State) : Prop where
  takes : ∀ n, s.takesEvents n = true → t.takesEvents n = true

theorem EventsKept.refl (s : State) : EventsKept s s := ⟨fun _ => id⟩

theorem EventsKept.of_host {s t : State} (h : t.host = s.host) : EventsKept s t := ⟨fun n hn => by
  rw [State.takesEvents_eq, h]
  exact hn⟩

theorem EventsKept.trans {s t u : State} (h : EventsKept s t) (g : EventsKept t u) : EventsKept s u :=
  ⟨fun n hn => g.takes n (h.takes n hn)⟩

theorem EventsKept.setSlice {s : State} {n : Nat} {sl sl' : Slice} (hsl : Table.find n s.host.slices = some sl)
    (hroom : sl.takesEvent = true → sl'.takesEvent = true) : EventsKept s (s.setSlice n sl') := by
  refine ⟨fun m hm => ?_⟩
  rw [State.takesEvents_eq, Bool.and_eq_true] at hm ⊢
  refine ⟨hm.1, ?_⟩
  by_cases h : m = n
  · subst h
    rw [hsl] at hm
    rw [State.find_setSlice]
    exact hroom hm.2
  · rw [show Table.find m (s.setSlice n sl').host.slices = Table.find m s.host.slices from Table.find_put_other h ..]
    exact hm.2

/-- A ring changed that holds as many events as it held. -/
theorem EventsKept.setRing {s : State} {n k : Nat} {sl : Slice} {r r' : Ring} (hsl : Table.find n s.host.slices = some sl)
    (hr : Table.find k sl.rings = some r) (hsame : (r'.waiting.filter fun e => e.2.2) = r.waiting.filter fun e => e.2.2) :
    EventsKept s (s.setRing n sl k r') := by
  refine .setSlice hsl fun h => ?_
  unfold Slice.takesEvent at h ⊢
  rw [Bool.and_eq_true] at h ⊢
  refine ⟨h.1, ?_⟩
  dsimp only
  by_cases hk : 0 = k
  · subst hk
    rw [Table.find_put_same]
    rw [hr] at h
    simpa only [Option.any_some, hsame] using h.2
  · rw [Table.find_put_other hk]
    exact h.2

theorem State.fireVector_events (s : State) (v : Nat) : EventsKept s (s.fireVector v) := by
  unfold State.fireVector
  extract_lets e
  split
  · exact ⟨fun _ h => h⟩
  · exact .of_host rfl

theorem State.pollRing_events (s : State) (n k : Nat) : EventsKept s (s.pollRing n k) := by
  unfold State.pollRing
  split
  · exact .refl s
  next sl hsl =>
  split
  · exact .refl s
  next r hr =>
  split
  · exact (EventsKept.setRing (r' := { r with armed := false }) hsl hr rfl).trans (State.fireVector_events ..)
  · exact .refl s

theorem State.cqWrite_events (s : State) (n k cid status r0 r1 : Nat) (noIrq : Bool) :
    EventsKept s (s.cqWrite n k cid status r0 r1 noIrq false) := by
  unfold State.cqWrite
  split
  · exact .refl s
  next sl hsl =>
  split
  · exact .refl s
  next r hr =>
  extract_lets size r' t
  have ht : EventsKept s t := .setRing hsl hr (by simp [r'])
  exact (ht.trans (.of_host (State.sendHost_host ..))).trans (State.pollRing_events ..)

theorem State.complete_events (s : State) (c : HostCmd) (status r0 r1 : Nat) : EventsKept s (s.complete c status r0 r1) := by
  cases hsl : Table.find c.slice s.host.slices with
  | none =>
    unfold State.complete
    rw [hsl]
    exact .refl s
  | some sl =>
    rw [State.complete_eq hsl]
    have ended : EventsKept s (s.setSlice c.slice (sl.ended c)) := .setSlice hsl fun h => h
    split
    · exact ended
    · exact ended.trans (State.cqWrite_events ..)

/-- An event for a slice that can take it stands in its CQ 0 (R396). -/
theorem State.postObject_posts {s : State} {n : Nat} (h : s.takesEvents n = true) (code detail : Nat) :
    Posts s (s.postObject n code detail) n code detail := by
  simp only [State.takesEvents_eq, Slice.takesEvent, Bool.and_eq_true, Bool.not_eq_true', Option.any_eq_true, decide_eq_true_eq] at h
  obtain ⟨hd, sl, hsl, hlive, r, hr, hroom⟩ := h
  have hfew : ¬ 16 ≤ (r.waiting.filter fun e => e.2.2).length := by omega
  generalize hr1 : (s.ringTime % 2 ^ 63 + if sl.dropped then 2 ^ 63 else 0) = r1
  have posted : (s.postObject n code detail).out = (s.cqWrite n 0 0xFFFFFFFF code detail r1 false true).out := by
    unfold State.postObject State.postTo
    simp only [hsl, hlive, hr, if_true, if_neg hfew, hr1]
  exact ⟨_, _, _, (State.cqWrite_sends hsl hr hd 0xFFFFFFFF code detail r1 false true).later (posted ▸ List.suffix_refl _)⟩

/-! The end of the commands of a queue pair leaves every queue pair in its place (R50, R81) -/

theorem QpsKept.foldl {α : Type} {s t : State} {f : State → α → State} (l : List α) (h : QpsKept s t)
    (g : ∀ u x, QpsKept u (f u x)) : QpsKept s (l.foldl f t) := by
  induction l generalizing t with
  | nil => exact h
  | cons x r ih => exact ih (h.trans (g t x))

theorem QpsKept.ite {s t u : State} {p : Prop} [Decidable p] (h : QpsKept s t) (g : QpsKept s u) : QpsKept s (if p then t else u) := by
  split <;> assumption

theorem QpsKept.frame {s t u : State} (h : QpsKept s t) (g : Within (Part.but [.trn]) t u) : QpsKept s u := h.trans (.of_trn (g.only.trn rfl))

theorem State.issueRead_qps (s : State) (n : Nat) : QpsKept s (s.issueRead n) := by
  unfold State.issueRead
  dsimp only
  split
  · exact .refl s
  split
  · exact .refl s
  refine .ite (.refl s) (.ite ?_ ?_)
  · split
    · refine QpsKept.trans (.setQp ?_) (State.transmit_qps ..)
      rfl
    · refine .setQp ?_
      rfl
  · refine QpsKept.trans (.setQp ?_) (State.transmit_qps ..)
    rfl

theorem State.issueReads_qps (s : State) (role : Nat) : QpsKept s (s.issueReads role) :=
  .foldl _ (.refl s) fun u _ => .foldl _ (.refl u) fun _ _ => State.issueRead_qps ..

theorem State.flushWork_qps (s : State) (n : Nat) : QpsKept s (s.flushWork n) := by
  unfold State.flushWork
  dsimp only
  refine QpsKept.trans (.foldl _ (.setQp ?_) fun u w => ?_) (State.issueReads_qps ..)
  · rfl
  · exact .of_trn ((State.endWork_frame (ps := Part.but [.trn]) _ _ (.refl _ _) rfl).only.trn rfl)

theorem State.answer_qps (s : State) (n : Nat) (c : Cmd) (st : NvmeStatus) : QpsKept s (s.answer n c st) := by
  unfold State.answer
  refine .ite (.refl s) ?_
  split
  · refine QpsKept.trans (.modify _ ?_) (State.transmit_qps ..)
    exact fun _ => rfl
  · exact (QpsKept.refl s).frame (State.sendRing_frame _ (.refl _ _) rfl)
  · split
    · exact (QpsKept.refl s).frame (State.complete_frame _ _ _ _ (.refl _ _) rfl)
    · exact .refl s

theorem State.acceptOne_qps (s : State) (n : Nat) (rest : List Nat) : QpsKept s (s.acceptOne n rest) := by
  unfold State.acceptOne
  dsimp only
  split
  · refine QpsKept.trans ?_ (State.answer_qps ..)
    exact .of_trn rfl
  · exact .of_trn rfl

theorem State.acceptUpTo_qps (n : Nat) (l : List Nat) (s : State) : QpsKept s (State.acceptUpTo n l s) := by
  induction l generalizing s with
  | nil => exact .refl s
  | cons u r ih => exact .ite (State.acceptOne_qps ..) ((State.acceptOne_qps ..).trans (ih _))

theorem State.freeTag_qps (s : State) (n : Nat) : QpsKept s (s.freeTag n) := by
  unfold State.freeTag
  extract_lets u
  have hu : QpsKept s u := .ite (State.acceptUpTo_qps ..) (.refl s)
  clear_value u
  split
  · exact hu
  · extract_lets dead
    refine .ite (hu.frame (State.noteTags_frame ?_ rfl)) hu
    exact .put (a := [.cmd, .map]) (.refl _ _) rfl rfl rfl rfl rfl

theorem State.resetTag_qps (s : State) (n : Nat) : QpsKept s (s.resetTag n) := by
  unfold State.resetTag
  have dropped {u : State} : Within (Part.but [.trn]) u (u.modTag n fun c => { c with discard := true }) := State.modTag_frame _ _ (.refl _ _) rfl
  split
  · exact .refl s
  split
  · exact .refl s
  iterate 4
    · exact QpsKept.trans (.frame (.refl s) (State.queueCompletion_frame _ (State.modTag_frame _ _ (State.cancelWith_frame _ _ (.refl _ _) rfl) rfl) rfl))
        (State.freeTag_qps ..)
  · exact .ite (.frame (.refl s) dropped) (.frame (.refl s) (State.sendRing_frame _ dropped rfl))
  · exact .ite (.frame (.refl s) (State.finish_frame _ _ (State.leaveSets_frame _ dropped rfl) rfl)) (.frame (.refl s) dropped)
  · exact QpsKept.trans (.frame (.refl s) dropped) (State.freeTag_qps ..)

theorem State.resetController_qps (s : State) (ctrl : Nat) (keep : Option Nat) : QpsKept s (s.resetController ctrl keep) := by
  unfold State.resetController
  split
  · exact .refl s
  · refine .frame (.foldl _ ?_ fun _ _ => State.resetTag_qps ..)
      (State.settlePs_frame _ (State.noteTags_frame (State.dropIntake_frame _ (.refl _ _) rfl) rfl) rfl)
    exact .of_trn rfl

theorem State.queueLost_qps (s : State) (n : Nat) : QpsKept s (s.queueLost n) := by
  unfold State.queueLost
  split
  · exact .refl s
  · exact .ite (State.resetController_qps ..) (.frame (.foldl _ (.refl s) fun _ _ => State.resetTag_qps ..)
      (State.noteTags_frame (State.dropIntake_frame _ (.refl _ _) rfl) rfl))

theorem State.flushWork_events (s : State) (n : Nat) : EventsKept s (s.flushWork n) := by
  unfold State.flushWork
  dsimp only
  refine EventsKept.trans (t := List.foldl _ _ _) ?_ (.of_host ((State.issueReads_frame (ps := Part.but [.host]) _ (.refl _ _) rfl).only.host rfl))
  have ends (l : List WorkReq) (u : State) : EventsKept u (l.foldl (fun s w => s.endWork w 0x1009) u) := by
    induction l generalizing u with
    | nil => exact .refl u
    | cons w r ih =>
      refine EventsKept.trans ?_ (ih _)
      show EventsKept u (u.endWork w 0x1009)
      unfold State.endWork
      split
      · exact State.complete_events ..
      · exact .refl u
  refine EventsKept.trans ?_ (ends _ _)
  exact .of_host rfl

/-- A queue pair that was not in Error, with a reason given, goes there and its slice has the event (R50). -/
theorem State.qpError_fails {s : State} {n r : Nat} (h : (s.qp n).state ≠ .error) : Fails s (s.qpError n (some r)) n r := by
  unfold State.qpError
  rw [if_neg h]
  dsimp only
  generalize hu : s.setQp n { s.qp n with state := .error } = u
  have herr : (u.qp n).state = .error := by rw [← hu, State.qp_setQp]
  have hslice : (u.qp n).slice = (s.qp n).slice := by rw [← hu, State.qp_setQp]
  have flushed := u.flushWork_qps n
  refine ⟨?_, fun htakes => ?_⟩
  · rw [(State.queueLost_qps ..).state, QpsKept.state (.of_trn ((State.postObject_frame (ps := Part.but [.trn]) _ _ _ (.refl _ _) rfl).only.trn rfl)),
      flushed.state, herr]
  · have htakes' : (u.flushWork n).takesEvents ((u.flushWork n).qp n).slice = true := by
      rw [flushed.slice, hslice]
      refine (u.flushWork_events n).takes _ ?_
      rw [← hu]
      exact htakes
    obtain ⟨hd, r1, p, hp⟩ := State.postObject_posts htakes' qpErrorStatus (n + 2 ^ 24 * (r % 256))
    rw [flushed.slice, hslice] at hp ⊢
    refine ⟨hd, r1, p, (hp.later (State.queueLost_frame (ps := Part.every) _ (.refl _ _) rfl).sent).earlier ?_⟩
    have := (State.flushWork_frame (ps := Part.every) n (.refl _ u) rfl).sent
    rw [← hu] at this ⊢
    exact this

end Sys2Proof.Machine
end

section
/-!
Capsules, tags, holds and PS3 (O12): the answers to capsules, the tag that a capsule gets, the end of a command, and the steps of PS3.
-/
namespace Sys2Proof.Machine
open Sys2Proof

/-! What QC's notes and answers leave -/

theorem State.cmd_noteTags (s : State) : s.noteTags.cmd = s.cmd := (State.noteTags_frame (ps := Part.but [.cmd]) (.refl _ _) rfl).only.cmd rfl

/-- QC's notes of its use leave the fields of other registers. -/
theorem State.rd_noteTags (s : State) (f : RField) (i j : Nat) (h : ∀ g ∈ [Reg.CMD_TAG_USE.IN_USE, Reg.CMD_TAG_PEAK.PEAK, Reg.CMD_LOCK_USE.IN_USE,
      Reg.CMD_LOCK_USE.WAITING, Reg.CMD_HOLD.HELD, Reg.CMD_INTAKE.ROLE0, Reg.CMD_INTAKE.ROLE1], g.id ≠ f.id) :
    s.noteTags.rd f i j = s.rd f i j := by
  simp only [List.forall_mem_cons, List.not_mem_nil, false_implies, implies_true, and_true] at h
  obtain ⟨h1, h2, h3, h4, h5, h6, h7⟩ := h
  unfold State.noteTags
  simp only [State.rd_wr_field _ _ _ _ _ _ _ _ h1, State.rd_peak_field _ _ _ _ _ _ _ _ h2, State.rd_wr_field _ _ _ _ _ _ _ _ h3,
    State.rd_wr_field _ _ _ _ _ _ _ _ h4, State.rd_wr_field _ _ _ _ _ _ _ _ h5, State.rd_wr_field _ _ _ _ _ _ _ _ h6,
    State.rd_wr_field _ _ _ _ _ _ _ _ h7]

theorem State.completionOf_congr {s t : State} (h : QpsKept s t) (k : Capsule) (st : NvmeStatus) :
    t.completionOf k st = s.completionOf k st := by
  unfold State.completionOf
  rw [h.nvme]

/-- Work that leaves the logical ports and the block ETH alone keeps what the ports were given. -/
theorem Emits.within {s t u : State} {n : Nat} {o : RoceOut} (h : Emits s t n o)
    (g : Within ((Part.butBlock 8).filter fun p => p != .ports) t u) : Emits s u n o := h.later (.of_within g)

/-! Capsules that arrive (R78, R79, R80) -/

theorem State.recvBufs_bump (s : State) (f : RField) (n q : Nat) : ((s.bump f n).qp q).recvBufs = (s.qp q).recvBufs := by
  unfold State.qp
  rw [State.bump_trn]

theorem State.nak_emits (s : State) (n : Nat) (o : RoceOut) : Emits s (s.nak n o) n o := by
  unfold State.nak
  refine (State.sendPacket_emits ..).earlier (List.suffix_refl _) (QpsKept.lport (.setQp ?_) n)
  rfl

theorem State.qp_sendPacket (s : State) (n : Nat) (o : RoceOut) (q : Nat) : (s.sendPacket n o).qp q = s.qp q := by
  unfold State.qp
  rw [(State.sendPacket_frame (ps := Part.but [.trn]) _ _ (.refl _ _) rfl).only.trn rfl]

theorem State.nak_recvBufs (s : State) (n : Nat) (o : RoceOut) : ((s.nak n o).qp n).recvBufs = (s.qp n).recvBufs := by
  unfold State.nak
  rw [State.qp_sendPacket, State.qp_setQp]

/-- A capsule that finds its intake full is turned away: its buffer comes back, and an RNR NAK goes out (R79). -/
theorem State.turnAway_effect (s : State) (k : Capsule) : ((s.turnAway k).qp k.qpn).recvBufs = (s.qp k.qpn).recvBufs + 1 ∧
    Emits s (s.turnAway k) k.qpn
      (.rnrNak (((s.qp k.qpn).expPsn + 2 ^ 24 - (s.qp k.qpn).packets k.bytes) % 2 ^ 24) (s.qp k.qpn).rnrDelay) := by
  unfold State.turnAway
  dsimp only
  constructor
  · rw [State.recvBufs_bump, State.nak_recvBufs, State.qp_setQp]
  · refine Emits.within ?_ (State.bump_frame _ _ _ _ (.refl _ _) rfl)
    refine (State.nak_emits ..).earlier (List.suffix_refl _) ?_
    rw [State.qp_setQp]

theorem State.enterIntake_even (s : State) {k : Capsule} (h : k.qpn % 2 = 0) :
    ∃ w : Waiting, w.cap = k ∧ (s.enterIntake k).cmd.intake0 = s.cmd.intake0 ++ [w] := by
  unfold State.enterIntake
  dsimp only
  rw [if_pos h, State.cmd_noteTags]
  exact ⟨_, rfl, rfl⟩

theorem State.enterIntake_odd (s : State) {k : Capsule} (h : k.qpn % 2 = 1) :
    ∃ w : Waiting, w.cap = k ∧ (s.enterIntake k).cmd.intake1 = s.cmd.intake1 ++ [w] := by
  unfold State.enterIntake
  dsimp only
  rw [if_neg (by omega), State.cmd_noteTags]
  exact ⟨_, rfl, rfl⟩

/-! The oldest admin capsule gets a tag (R82, R83) -/

/-- A running command that nothing holds, outside PS3, starts (R83, R97). -/
theorem State.start_running {s : State} {n : Nat} {c : Cmd} (hc : s.tag n = some c) (hh : s.holds c = false)
    (hps : s.rd Reg.CMD_PS_CFG.EFFECTIVE ≠ 3) : s.start n = s.modTag n fun c => { c with state := .running } := by
  unfold State.start
  simp [hc, hh, hps]

theorem State.tag_modTag {s : State} {n : Nat} {c : Cmd} (hc : s.tag n = some c) (f : Cmd → Cmd) : (s.modTag n f).tag n = some (f c) := by
  unfold State.tag at hc
  unfold State.tag State.modTag Table.modify
  rw [hc]
  exact Table.find_put_same ..

theorem State.tag_congr {s t : State} (h : t.cmd = s.cmd) (n : Nat) : t.tag n = s.tag n := by
  unfold State.tag
  rw [h]

/-- A capsule's tag, with its command as it is decoded. -/
theorem State.giveTag_admin {s : State} {w : Waiting} {c : Cmd} (ho : w.cap.op ≠ .flush) (hr : w.rtag = none) (hm : w.made = none)
    (hc : c = { cap := w.cap, ctrl := w.ctrl, tenant := w.tenant, admin := w.admin, order := w.at_, started := s.clock, hostId := w.hostId,
                ticket := w.at_ }) :
    s.giveTag w .initiator = (lowestFree (s.cmd.tags.map Prod.fst) 0,
      (((s.unqueue w).setTag (lowestFree (s.cmd.tags.map Prod.fst) 0) c).noteTags).tagRun w.at_ (lowestFree (s.cmd.tags.map Prod.fst) 0)) := by
  subst hc
  unfold State.giveTag
  simp only [hr, hm, if_neg ho]

/-- The checks of a command's fields read the namespaces and one bit of CMD_CTRL. -/
theorem State.checkFields_congr {s t : State} (c : Cmd) (hb : t.on Reg.CMD_CTRL.INIT_FW_EN = s.on Reg.CMD_CTRL.INIT_FW_EN) (hm : t.map = s.map) :
    t.checkFields c = s.checkFields c := by
  unfold State.checkFields
  rw [hb, hm]

/-- An admin command with good fields, which nothing holds, runs at once. -/
theorem State.decodeTag_admin {s : State} {n : Nat} {c : Cmd} (hc : s.tag n = some c) (hcls : c.cls = .initiator) (hadmin : c.admin = true)
    (hop : c.cap.op ≠ .formatNvm) (hok : s.checkFields c = none) (hh : s.holds c = false) (hps : s.rd Reg.CMD_PS_CFG.EFFECTIVE ≠ 3) :
    s.decodeTag n = s.modTag n fun c => { c with state := .running } := by
  unfold State.decodeTag
  simp only [hc, hcls, hok]
  unfold State.advance
  simp only [hc, hadmin, bne_iff_ne.2 hop, Bool.and_self, if_true]
  exact State.start_running hc hh hps

theorem State.rd_unlisted {s t : State} (h : t.regs = s.noteTags.regs) (f : RField) (hf : ∀ g ∈ [Reg.CMD_TAG_USE.IN_USE, Reg.CMD_TAG_PEAK.PEAK,
      Reg.CMD_LOCK_USE.IN_USE, Reg.CMD_LOCK_USE.WAITING, Reg.CMD_HOLD.HELD, Reg.CMD_INTAKE.ROLE0, Reg.CMD_INTAKE.ROLE1], g.id ≠ f.id) :
    t.rd f = s.rd f := (State.rd_congr h f 0 0).trans (s.rd_noteTags f 0 0 hf)

/-- The oldest admin capsule gets the lowest free tag and runs there (R82, R83). -/
theorem tagAssign_admin {s : State} {w : Waiting} {c : Cmd} (hlost : s.power.headLost = false) (hrole : s.roleGap .qc 0 = false)
    (hdisp : s.dispatches = true) (hmay : s.mayTag .initiator = true) (hold : oldest s.intake (fun w => w.admin) = some w)
    (hadmin : w.admin = true) (hfused : w.cap.fused = .none) (hfmt : w.cap.op ≠ .formatNvm) (hflush : w.cap.op ≠ .flush) (hr : w.rtag = none)
    (hm : w.made = none) (hps : s.rd Reg.CMD_PS_CFG.EFFECTIVE ≠ 3)
    (hc : c = { cap := w.cap, ctrl := w.ctrl, tenant := w.tenant, admin := true, order := w.at_, started := s.clock, hostId := w.hostId,
                ticket := w.at_ }) (hok : s.checkFields c = none) (hh : s.holds c = false) :
    Answers .tagAssign s fun t => t.tag (lowestFree (s.cmd.tags.map Prod.fst) 0) = some { c with state := .running } ∧
      t.cmd.intake0 = s.cmd.intake0.erase w ∧ t.cmd.intake1 = s.cmd.intake1.erase w := by
  have hgive := State.giveTag_admin (s := s) hflush hr hm (hc.trans (by rw [hadmin]))
  have hchoose : s.choose = (some (w, .initiator), s) := by
    unfold State.choose
    simp only [hdisp, hmay, Bool.and_self, if_true, hold]
  generalize lowestFree (s.cmd.tags.map Prod.fst) 0 = n at hgive ⊢
  generalize hu : (((s.unqueue w).setTag n c).noteTags).tagRun w.at_ n = u at hgive
  have hcmd : u.cmd = ((s.unqueue w).setTag n c).cmd := by
    rw [← hu]
    exact State.cmd_noteTags _
  have htag : u.tag n = some c := by
    rw [State.tag_congr hcmd]
    exact Table.find_put_same ..
  have hregs : u.regs = ((s.unqueue w).setTag n c).noteTags.regs := by rw [← hu]; rfl
  have hmap : u.map = s.map := by
    rw [← hu]
    exact (State.noteTags_frame (ps := Part.but [.map]) (.refl _ ((s.unqueue w).setTag n c)) rfl).only.map rfl
  have hok' : u.checkFields c = none := by
    rw [State.checkFields_congr c (State.on_of_rd ?_) hmap, hok]
    exact State.rd_unlisted hregs _ (by decide)
  have hholds' : u.holds c = false := by
    unfold State.holds at hh ⊢
    rw [State.on_of_rd (State.rd_unlisted hregs _ (by decide)), hcmd]
    exact hh
  have hps' : u.rd Reg.CMD_PS_CFG.EFFECTIVE ≠ 3 := by
    rw [State.rd_unlisted hregs _ (by decide)]
    exact hps
  have hdec := State.decodeTag_admin htag (by rw [hc]) (by rw [hc]) (by rw [hc]; exact hfmt) hok' hholds' hps'
  refine .of_eq (t := (u.decodeTag n).noteTags) ?_ ?_
  · show execTagAssign s = _
    unfold execTagAssign
    simp only [hlost, hrole, Bool.or_self, Bool.false_eq_true, if_false, hchoose, hfused, hgive]
  · rw [hdec, State.tag_congr (State.cmd_noteTags _), State.tag_modTag htag, State.cmd_noteTags]
    refine ⟨rfl, ?_⟩
    rw [show (u.modTag n fun c => { c with state := .running }).cmd.intake0 = u.cmd.intake0 from rfl,
      show (u.modTag n fun c => { c with state := .running }).cmd.intake1 = u.cmd.intake1 from rfl, hcmd]
    exact ⟨rfl, rfl⟩

/-! Completions (R81, R92) -/

/-- A command that ends queues its completion behind those queued before. -/
theorem State.queueCompletion_posting {s : State} {n : Nat} {c : Cmd} {st : NvmeStatus} (hc : s.tag n = some c) (hst : c.status = some st)
    (hstate : c.state ≠ .completing) (hres : s.resvBehind n c = false) : (s.queueCompletion n).cmd.posting = s.cmd.posting ++ [n] := by
  have hnot : ¬ (c.state = .completing || s.resvBehind n c) = true := by simp [hstate, hres]
  unfold State.queueCompletion
  simp -zeta only [hc, hst]
  rw [if_neg hnot]
  extract_lets st' c' _ _ u v w x
  have hu : u.cmd.posting = s.cmd.posting ++ [n] := rfl
  have hv : CmdKept u v := .ite (.refl u) (.frame (.refl u) (.put (a := [.evt]) (.refl _ _) rfl rfl rfl rfl rfl))
  have hw : CmdKept u w := .ite (hv.frame (State.detachRuns_frame _ (.refl _ _) rfl)) hv
  have hx : CmdKept u x := by
    unfold x
    split
    · exact .ite (hw.applyChange _) hw
    · exact hw
  clear_value x
  rw [State.cmd_noteTags, ((((hx.endServed ..).endHalf ..).grantLocks).settleFlush).posting, hu]

/-! Tags that come free (R92) -/

theorem State.cmd_answer (s : State) (n : Nat) (c : Cmd) (st : NvmeStatus) : (s.answer n c st).cmd = s.cmd :=
  (State.answer_frame (ps := Part.but [.cmd]) _ _ _ (.refl _ _) rfl).only.cmd rfl

theorem State.acceptOne_tags (s : State) (n : Nat) (rest : List Nat) : (s.acceptOne n rest).cmd.tags = s.cmd.tags := by
  unfold State.acceptOne
  dsimp only
  split
  · rw [State.cmd_answer]
  · rfl

theorem State.acceptUpTo_tags (n : Nat) (l : List Nat) (s : State) : (State.acceptUpTo n l s).cmd.tags = s.cmd.tags := by
  induction l generalizing s with
  | nil => rfl
  | cons u r ih =>
    unfold State.acceptUpTo
    dsimp only
    split
    · exact s.acceptOne_tags ..
    · rw [ih, State.acceptOne_tags]

/-- An initiator's command that is not discarded is answered with its completion. -/
theorem State.answer_emits {s : State} {n : Nat} {c : Cmd} (hd : c.discard = false) (hcls : c.cls = .initiator) (st : NvmeStatus) :
    Emits s (s.answer n c st) c.cap.qpn (s.completionOf c.cap st) := by
  unfold State.answer
  simp only [hd, hcls, Bool.false_eq_true, if_false]
  have kept : QpsKept s { s with trn.qps := Table.modify c.cap.qpn (fun q => { q with capsulesUnacked := q.capsulesUnacked + 1 }) s.trn.qps } := by
    refine .modify _ fun q => ?_
    rfl
  rw [← State.completionOf_congr kept]
  exact (State.transmit_emits ..).earlier (List.suffix_refl _) (kept.lport _)

/-- Accepting the completions up to one of them sends that one (R81). -/
theorem State.acceptUpTo_emits {n : Nat} {c : Cmd} {st : NvmeStatus} (hst : c.status = some st) (hd : c.discard = false)
    (hcls : c.cls = .initiator) {l : List Nat} {s : State} (hc : s.tag n = some c) (hn : n ∈ l) :
    Emits s (State.acceptUpTo n l s) c.cap.qpn (s.completionOf c.cap st) := by
  induction l generalizing s with
  | nil => cases hn
  | cons u r ih =>
    unfold State.acceptUpTo
    dsimp only
    by_cases hu : u = n
    · subst hu
      rw [if_pos rfl]
      have hput : ({ s with cmd.posting := r } : State).tag u = some c := hc
      unfold State.acceptOne
      simp only [hput, hst, Option.getD_some]
      have kept : QpsKept s { s with cmd.posting := r } := .of_trn rfl
      rw [← State.completionOf_congr kept]
      exact (State.answer_emits hd hcls st).earlier (List.suffix_refl _) (kept.lport _)
    · rw [if_neg hu]
      have hc' : (s.acceptOne u r).tag n = some c := by
        unfold State.tag
        rw [State.acceptOne_tags]
        exact hc
      have kept := s.acceptOne_qps u r
      rw [← State.completionOf_congr kept]
      exact (ih hc' (List.mem_of_ne_of_mem (Ne.symm hu) hn)).earlier (State.acceptOne_frame (ps := Part.every) _ _ (.refl _ _) rfl).sent (kept.lport _)

/-- A Completing tag with no RDMA Read open comes free. -/
theorem State.freeTag_effect {s : State} {n : Nat} {c : Cmd} (hc : s.tag n = some c) (hstate : c.state = .completing) (hreads : c.readsLeft = 0) :
    (s.freeTag n).tag n = none ∧ ∀ st, n ∈ s.cmd.posting → c.status = some st → c.discard = false → c.cls = .initiator →
      Emits s (s.freeTag n) c.cap.qpn (s.completionOf c.cap st) := by
  unfold State.freeTag
  extract_lets u
  have htag : u.tag n = some c := by
    unfold u
    split
    · unfold State.tag
      rw [State.acceptUpTo_tags]
      exact hc
    · exact hc
  have hemits : ∀ st, n ∈ s.cmd.posting → c.status = some st → c.discard = false → c.cls = .initiator →
      Emits s u c.cap.qpn (s.completionOf c.cap st) := by
    intro st hn hst hd hcls
    unfold u
    rw [if_pos (by simpa using hn)]
    exact State.acceptUpTo_emits hst hd hcls hc hn
  clear_value u
  simp only [htag]
  rw [if_pos (by simp [hstate, hreads])]
  constructor
  · rw [State.tag_congr (State.cmd_noteTags _)]
    exact Table.find_drop_same ..
  · intro st hn hst hd hcls
    refine (hemits st hn hst hd hcls).within (State.noteTags_frame ?_ rfl)
    exact .put (a := [.cmd, .map]) (.refl _ _) rfl rfl rfl rfl rfl

theorem tagFree_effect {s : State} {n : Nat} {c : Cmd} (hc : s.tag n = some c) (hstate : c.state = .completing) (hreads : c.readsLeft = 0) :
    Answers (.tagFree n) s fun t => t.tag n = none ∧ (∀ st, n ∈ s.cmd.posting → c.status = some st → c.discard = false → c.cls = .initiator →
      Emits s t c.cap.qpn (s.completionOf c.cap st)) := by
  obtain ⟨hfree, hemits⟩ := State.freeTag_effect hc hstate hreads
  refine ⟨(s.freeTag n).pumpLanes, rfl, (CmdKept.pumpLanes (.refl _)).free n hfree, fun st hn hst hd hcls => ?_⟩
  exact (hemits st hn hst hd hcls).later (State.pumpLanes_ports _)

/-! ABORT of a capsule in intake (R96) -/

theorem State.ready_iff {s : State} {n : Nat} {op : NvmeOp} {c : Cmd} (h : s.ready n op = some c) :
    s.tag n = some c ∧ c.cap.op = op ∧ c.status = none := by
  unfold State.ready at h
  rw [Option.filter_eq_some_iff] at h
  obtain ⟨htag, hc⟩ := h
  simp only [Bool.and_eq_true, beq_iff_eq, Option.isNone_iff_eq_none] at hc
  exact ⟨htag, hc.1.1.2, hc.1.2⟩

/-- A tag with an ABORT is one of those counted, so the others are fewer. -/
theorem Table.countP_other_lt {t : Table Cmd} {n : Nat} {c c' : Cmd} {q : Nat × Cmd → Bool} (hc : Table.find n t = some c) (hq : q (n, c) = true) :
    ((Table.put n c' t).countP fun e => e.1 != n && q e) < t.countP q := by
  have hsplit : ((Table.put n c' t).countP fun e => e.1 != n && q e) = (t.filter fun e => e.1 != n).countP q := by
    have hfilter := Table.filter_put t (fun k => k != n) n c' (by simp)
    rw [← hfilter, List.countP_filter]
    congr 1
    funext e
    exact Bool.and_comm ..
  have hmem : (n, c) ∈ t.filter fun e => !(e.1 != n) := by
    have mem {t : Table Cmd} (hc : Table.find n t = some c) : (n, c) ∈ t := by
      induction t with
      | nil => cases hc
      | cons x r ih =>
        obtain ⟨a, v⟩ := x
        simp only [Table.find] at hc
        split at hc
        · next ha =>
          cases hc
          subst ha
          exact List.mem_cons_self ..
        · exact List.mem_cons_of_mem _ (ih hc)
    simpa using mem hc
  have hpos : 0 < (t.filter fun e => !(e.1 != n)).countP q := List.countP_pos_iff.2 ⟨_, hmem, hq⟩
  have hadd : t.countP q = (t.filter fun e => e.1 != n).countP q + (t.filter fun e => !(e.1 != n)).countP q := by
    rw [List.countP_filter, List.countP_filter, List.countP_eq_countP_filter_add t q fun e => e.1 != n]
    simp only [List.countP_filter]
  omega

theorem abort_intake {s : State} {n : Nat} {c : Cmd} {k : Controller} {w : Waiting} (hready : s.ready n .abort = some c)
    (hk : Table.find c.ctrl s.cmd.ctrls = some k) (hfew : (s.cmd.tags.countP fun e => e.2.cap.op == .abort) ≤ 4)
    (hw : s.intake.find? (fun w => some w.cap.qpn == k.qpOf (c.cap.cdw10 % 65536) && w.cap.cid == c.cap.cdw10 / 65536 && !w.cap.op.isAdmin) = some w) :
    Answers (.abort n) s fun t => Emits s t w.cap.qpn (s.completionOf w.cap (generic 0x07)) ∧ t.ended n = some success ∧
      t.cmd.intake0 = s.cmd.intake0.erase w := by
  obtain ⟨htag, hop, hstatus⟩ := State.ready_iff hready
  generalize hu : s.setTag n { c with begun := true } = u
  have hothers : ¬ 4 ≤ u.cmd.tags.countP fun e => e.1 != n && e.2.ctrl == c.ctrl && e.2.cap.op == .abort && e.2.begun && e.2.state != .completing := by
    have hlt := Table.countP_other_lt (c' := { c with begun := true }) (q := fun e => e.2.cap.op == .abort) htag (by simp [hop])
    have hle : (u.cmd.tags.countP fun e => e.1 != n && e.2.ctrl == c.ctrl && e.2.cap.op == .abort && e.2.begun && e.2.state != .completing) ≤
        u.cmd.tags.countP fun e => e.1 != n && e.2.cap.op == .abort := by
      refine List.countP_mono_left fun e _ he => ?_
      simp only [Bool.and_eq_true] at he ⊢
      exact ⟨he.1.1.1.1, he.1.1.2⟩
    have hput : u.cmd.tags = Table.put n { c with begun := true } s.cmd.tags := by rw [← hu]; rfl
    rw [← hput] at hlt
    omega
  have huw : u.intake.find? (fun w => some w.cap.qpn == k.qpOf (c.cap.cdw10 % 65536) && w.cap.cid == c.cap.cdw10 / 65536 && !w.cap.op.isAdmin) =
      some w := by
    rw [← hu]
    exact hw
  have hrefuse (v : State) : (v.refuseCapsule w.cap (generic 0x07)).cmd = v.cmd :=
    (State.transmit_frame (ps := Part.but [.cmd]) _ _ _ (.refl _ _) rfl).only.cmd rfl
  have hku : Table.find c.ctrl u.cmd.ctrls = some k := by
    rw [← hu]
    exact hk
  refine .of_eq (t := (((u.unqueue w).refuseCapsule w.cap (generic 0x07)).noteTags).endAbort n false) ?_ ⟨?_, ?_, ?_⟩
  · show execAbort n s = _
    unfold execAbort State.checkAbort State.begin
    simp only [hready, hu, hku, huw]
    rw [if_neg hothers]
  · have kept : QpsKept s (u.unqueue w) := .of_trn (by rw [← hu]; rfl)
    rw [← State.completionOf_congr kept]
    refine Emits.within ?_ (State.endAbort_frame _ _ (State.noteTags_frame (.refl _ _) rfl) rfl)
    refine (State.transmit_emits ..).earlier ?_ (kept.lport _)
    rw [← hu]
    exact List.suffix_refl _
  · have hended : (((u.unqueue w).refuseCapsule w.cap (generic 0x07)).noteTags).tag n = some { c with begun := true } := by
      rw [State.tag_congr (State.cmd_noteTags _), State.tag_congr (hrefuse (u.unqueue w)), ← hu]
      exact Table.find_put_same ..
    unfold State.ended State.endAbort State.finish
    simp only [Bool.false_eq_true, if_false]
    rw [State.tag_congr (State.bump_cmd ..), State.tag_modTag hended]
    simp [hstatus, success]
  · show (((u.unqueue w).refuseCapsule w.cap (generic 0x07)).noteTags).cmd.intake0 = _
    rw [State.cmd_noteTags, hrefuse, ← hu]
    rfl

/-! Holds and PS3 (R30, R97, R98) -/

theorem holdRelease_only {s : State} {n : Nat} {c : Cmd} (hc : s.tag n = some c)
    (hheld : (s.cmd.tags.filter fun e => e.2.state == .held && !(s.stillHeld e.1 e.2)) = [(n, c)]) (hop : c.cap.op ≠ .abort)
    (hcls : c.cls ≠ .internal) (hstate : c.state = .held) (hlock : c.locked = true) (hh : s.holds c = false)
    (hps : s.rd Reg.CMD_PS_CFG.EFFECTIVE ≠ 3) : Answers .holdRelease s fun t => (t.tag n).map Cmd.state = some .running := by
  have hrelease : s.release n = s.modTag n fun c => { c with state := .running } := by
    unfold State.release
    simp only [hc, hlock, beq_eq_false_iff_ne.2 hcls, if_true, Bool.false_eq_true, if_false]
    exact State.start_running hc hh hps
  refine ⟨(s.modTag n fun c => { c with state := .running }).noteTags, ?_, ?_⟩
  · show execHoldRelease s = _
    unfold execHoldRelease State.releaseHeld
    simp [hheld, hop, hc, hstate, hrelease]
  · show ((s.modTag n _).noteTags.tag n).map Cmd.state = _
    rw [State.tag_congr (State.cmd_noteTags _), State.tag_modTag hc]
    rfl

theorem State.settlePs3_phase (s : State) :
    (s.settlePs3.cmd.phase = .steady ∧ s.settlePs3.rd Reg.CMD_HOLD.POWER_STATE = 0) ∨ s.settlePs3.cmd.phase = .exiting := by
  unfold State.settlePs3
  split
  · exact .inr rfl
  · split
    · exact .inr rfl
    · exact .inl ⟨rfl, State.rd_wr_same ..⟩

theorem State.serve_stateCap (l : List TokenLot) (s : State) : (State.serve l s).power.stateCap = s.power.stateCap := by
  induction l generalizing s with
  | nil => rfl
  | cons x r ih =>
    unfold State.serve
    extract_lets room
    split
    extract_lets give s'
    split
    · split
      · exact ih s'
      · rfl
    · rfl

theorem State.serveWaiting_stateCap (s : State) : s.serveWaiting.power.stateCap = s.power.stateCap :=
  (congrArg Power.stateCap (Within.power_eq (State.noteGranted_frame (.refl _ _) rfl))).trans (State.serve_stateCap _ s)

theorem State.recallExcess_stateCap (s : State) : s.recallExcess.power.stateCap = s.power.stateCap := by
  unfold State.recallExcess
  extract_lets need
  split
  · rfl
  · rfl

theorem State.settleBudget_stateCap (s : State) : s.settleBudget.power.stateCap = s.power.stateCap := by
  unfold State.settleBudget
  split
  extract_lets u v
  have hu : u.power = s.power := rfl
  have hv : v.power = u.power := by
    unfold v
    split
    · rfl
    · exact Within.power_eq (State.event1_frame _ _ (.refl _ _) rfl)
  rw [State.serveWaiting_stateCap, State.recallExcess_stateCap, hv, hu]

theorem ps3ExitEnd_cap {s : State} (hphase : s.cmd.phase = .exiting) (hagain : s.cmd.psAgain = false) :
    Answers .ps3ExitEnd s fun t => t.power.stateCap = psCap (s.cmd.psWake.getD 0) := by
  generalize hu : (ps3Quarters.foldl State.ps3Up s).thawRuns.leavePs3 (s.cmd.psWake.getD 0) = u
  have up : Within [.block 11, .block 19, .power] s (ps3Quarters.foldl State.ps3Up s) :=
    .foldl _ (.refl _ _) fun _ _ => State.ps3Up_frame _ (.refl _ _) rfl
  have hpsAgain : u.cmd.psAgain = false := by
    rw [← hu, show ∀ t : State, (t.leavePs3 (s.cmd.psWake.getD 0)).cmd.psAgain = t.cmd.psAgain from fun _ => rfl,
      (State.thawRuns_frame (ps := Part.but [.cmd]) (.refl _ _) rfl).only.cmd rfl, up.only.cmd rfl, hagain]
  have hcap : u.power.stateCap = psCap (s.cmd.psWake.getD 0) := by
    rw [← hu]
    rfl
  generalize hv : ({ (u.wr Reg.CMD_HOLD.POWER_STATE 0).wr Reg.CMD_PS_CFG.EFFECTIVE (s.cmd.psWake.getD 0) with cmd.psAgain := false } : State) = v
  refine .of_eq (t := v.settleBudget.releaseHeld) ?_ ?_
  · show execPs3ExitEnd s = _
    unfold execPs3ExitEnd
    rw [if_pos hphase]
    simp only [hu, State.wr_cmd, hpsAgain, Bool.false_eq_true, if_false]
    rw [← hv]
    rfl
  · rw [Within.power_eq (State.releaseHeld_frame (.refl _ _) rfl), State.settleBudget_stateCap, ← hv]
    exact hcap

theorem execCapsuleArrive_eq (k : Capsule) (s : State) : exec (.capsuleArrive k) s = .next (
    if k.bytes < 64 then s.qpError k.qpn (some 0x07)
    else if s.cidInUse k then s.refuseCapsule k (generic 0x03)
    else if s.outOfSequence k then s.refuseCapsule k (generic 0x0C)
    else if 32768 ≤ (if k.qpn % 2 = 0 then s.cmd.intake0 else s.cmd.intake1).length then s.turnAway k
    else s.enterIntake k) := by
  show execCapsuleArrive k s = _
  unfold execCapsuleArrive
  split_ifs <;> rfl

/-- Settles O12: each command's answer in the state that the clause describes, and what the work after it leaves of that. -/
theorem capsuleTags : Obligations.CapsuleTags := by
  unfold Obligations.CapsuleTags
  refine ⟨fun s k hshort herr => .of_eq (execCapsuleArrive_eq k s) ?_, fun s k hlong => ?_,
    fun s w hlost hrole hdisp hmay hold hadmin hfused hfmt hflush hr hm hps c hc hok hh =>
      tagAssign_admin hlost hrole hdisp hmay hold hadmin hfused hfmt hflush hr hm hps hc hok hh,
    fun s n c st hc hst hstate hres => .of_eq (t := s.queueCompletion n) rfl ?_,
    fun s n c hc hstate hreads => tagFree_effect hc hstate hreads, fun s v hwr => ?_,
    fun s n c k w hready hk hfew hw => abort_intake hready hk hfew hw,
    fun s n c hc hheld hop hcls hstate hlock hh hps => holdRelease_only hc hheld hop hcls hstate hlock hh hps,
    fun s hphase => ?_, fun s hphase hagain => ps3ExitEnd_cap hphase hagain⟩
  · rw [if_pos hshort]
    exact State.qpError_fails herr
  · have hlong' : ¬ k.bytes < 64 := by omega
    rw [Answers, Answers, Answers, Answers, Answers, execCapsuleArrive_eq, if_neg hlong']
    refine ⟨fun hin => ⟨_, rfl, ?_⟩, fun hin hseq => ⟨_, rfl, ?_⟩, fun hin hseq hfull => ⟨_, rfl, ?_⟩, fun hin hseq heven hroom => ⟨_, rfl, ?_⟩,
      fun hin hseq hodd hroom => ⟨_, rfl, ?_⟩⟩
    · rw [if_pos hin]
      exact State.transmit_emits ..
    · simp only [hin, hseq, Bool.false_eq_true, if_false, if_true]
      exact State.transmit_emits ..
    · simp only [hin, hseq, hfull, Bool.false_eq_true, if_false, if_true]
      exact s.turnAway_effect k
    · have hroom' : ¬ 32768 ≤ s.cmd.intake0.length := by omega
      simp only [hin, hseq, heven, hroom', Bool.false_eq_true, if_false, if_true]
      exact s.enterIntake_even heven
    · have hroom' : ¬ 32768 ≤ s.cmd.intake1.length := by omega
      simp only [hin, hseq, hodd, hroom', Bool.false_eq_true, if_false, one_ne_zero]
      exact s.enterIntake_odd hodd
  · rw [State.queueCompletion_posting hc hst hstate hres]
  · refine .of_eq (show execCmdTagQuery v s = _ from rfl) ?_
    rw [if_pos hwr, State.rd_wr_same]
    cases s.tag (v % 2 ^ 17) with
    | none => rfl
    | some c => cases h : c.state <;> simp [h, TagState.code, Reg.CMD_TAG_STATE.STATE]
  · refine .of_eq (show execPs3EntryEnd s = _ from if_pos hphase) ?_
    exact State.settlePs3_phase _

end Sys2Proof.Machine
end

section
/-!
Messages on the ring that stay given to it (R335): no work on commands takes a message back from a channel, nor changes the registers of
ownership.
-/
namespace Sys2Proof.Machine
open Sys2Proof

/-- No message has left a channel but to a link, and the registers of the block OWN are as they were. -/
structure RingKept (s t : State) : Prop where
  waiting : ∀ k o, o ∈ Table.get k [] s.chan.waiting → o ∈ Table.get k [] t.chan.waiting
  owed    : ∀ o, o ∈ s.chan.owed → o ∈ t.chan.owed
  sent    : s.out <:+ t.out
  regs    : ∀ f i j, RField.block f = 17 → t.rd f i j = s.rd f i j

theorem RingKept.refl (s : State) : RingKept s s := ⟨fun _ _ => id, fun _ => id, List.suffix_refl _, fun _ _ _ _ => rfl⟩

theorem RingKept.trans {s t u : State} (h : RingKept s t) (g : RingKept t u) : RingKept s u :=
  ⟨fun k o ho => g.waiting k o (h.waiting k o ho), fun o ho => g.owed o (h.owed o ho), h.sent.trans g.sent,
    fun f i j hf => (g.regs f i j hf).trans (h.regs f i j hf)⟩

/-- The parts that work on commands may change but for the channels: not the registers of the block OWN. -/
def Part.calm : List Part := (Part.butBlock 17).filter fun p => p != .chan

theorem RingKept.frame {s t u : State} (h : RingKept s t) (g : Within Part.calm t u) : RingKept s u := by
  have hchan : u.chan = t.chan := g.only.chan rfl
  refine h.trans ⟨fun k o ho => by rw [hchan]; exact ho, fun o ho => by rw [hchan]; exact ho, g.sent, fun f i j hf => ?_⟩
  refine g.only.rd f i j rfl ?_
  rw [hf]
  rfl

theorem RingKept.ite {s t u : State} {p : Prop} [Decidable p] (h : RingKept s t) (g : RingKept s u) : RingKept s (if p then t else u) := by
  split <;> assumption

theorem RingKept.foldl {α : Type} {s t : State} {f : State → α → State} (l : List α) (h : RingKept s t)
    (g : ∀ u x, RingKept s u → RingKept s (f u x)) : RingKept s (l.foldl f t) := by
  induction l generalizing t with
  | nil => exact h
  | cons x r ih => exact ih (g t x h)

/-- A record update that keeps the registers, the channels and the outputs. -/
theorem RingKept.put {s t : State}
    {a_pending a_regs a_holding a_clock a_ringTime a_pins a_fuses a_straps a_power a_boot a_test a_evt a_nor a_host a_ports a_trn a_cmd a_bnd
      a_ddp a_keys a_wc a_sig a_lfl a_map a_rep a_prg a_xrn a_chan a_own a_store a_mem a_free a_out a_hostWait}
    (h : RingKept s t) (_ : a_pending = t.pending) (hr : a_regs = t.regs) (hc : a_chan = t.chan) (ho : a_out = t.out) :
    RingKept s (State.mk a_pending a_regs a_holding a_clock a_ringTime a_pins a_fuses a_straps a_power a_boot a_test a_evt a_nor a_host a_ports
      a_trn a_cmd a_bnd a_ddp a_keys a_wc a_sig a_lfl a_map a_rep a_prg a_xrn a_chan a_own a_store a_mem a_free a_out a_hostWait) := by
  subst hc ho
  exact h.trans ⟨fun _ _ => id, fun _ => id, List.suffix_refl _, fun f i j _ => State.rd_congr hr f i j⟩

/-! A message given to the ring -/

/-- What is in a channel's queue stays behind what joins it. -/
theorem RingKept.append (s : State) (k : Nat) (o : Out) :
    RingKept s { s with chan := { s.chan with waiting := Table.upd k [] (fun q => q ++ [o]) s.chan.waiting } } := by
  refine ⟨fun j x hx => ?_, fun _ => id, List.suffix_refl _, fun _ _ _ _ => rfl⟩
  show x ∈ Table.get j [] (Table.put k _ s.chan.waiting)
  by_cases hj : j = k
  · subst hj
    rw [Table.get_put_same]
    exact List.mem_append_left _ hx
  · rw [Table.get_put_other hj]
    exact hx

theorem State.sendOn_kept (s : State) (l : Nat) (o : Out) : RingKept s (s.sendOn l o) := by
  unfold State.sendOn
  refine .ite ?_ (.append ..)
  exact ⟨fun _ _ => id, fun _ => id, List.suffix_cons .., fun _ _ _ _ => rfl⟩

theorem State.sendRing_kept (s : State) (o : Out) : RingKept s (s.sendRing o) := by
  unfold State.sendRing
  refine .ite (.ite ?_ (.refl s)) ?_
  · exact ⟨fun _ _ => id, fun _ => List.mem_append_left _, List.suffix_refl _, fun _ _ _ _ => rfl⟩
  · split
    · exact .refl s
    · exact State.sendOn_kept ..

/-- A message on a link leaves, or waits in its virtual channel. -/
theorem State.sendOn_given (s : State) (l : Nat) (o : Out) :
    Sends s (s.sendOn l o) o ∨ o ∈ Table.get (chanKey l o.channel) [] (s.sendOn l o).chan.waiting := by
  unfold State.sendOn
  dsimp only
  split
  · exact .inl ⟨[o], rfl, List.mem_singleton.2 rfl⟩
  · refine .inr ?_
    show o ∈ Table.get _ [] (Table.put _ _ s.chan.waiting)
    rw [Table.get_put_same]
    exact List.mem_append_right _ (List.mem_singleton.2 rfl)

/-- A message sent on the ring is given to it (R335). -/
theorem State.sendRing_rings (s : State) (o : Out) : Rings s (s.sendRing o) o := by
  intro l hl
  unfold State.sendRing
  by_cases hw : s.waitsForPair o = true
  · have howed : o.owedTo.isSome = true := by
      unfold State.waitsForPair at hw
      rw [hl] at hw
      cases ho : o.owedTo with
      | none => simp [ho] at hw
      | some a => rfl
    rw [if_pos hw, if_pos howed]
    exact .inr (.inr ⟨hw, List.mem_append_right _ (List.mem_singleton.2 rfl)⟩)
  · rw [if_neg hw]
    simp only [hl]
    rcases s.sendOn_given l o with h | h
    · exact .inl h
    · exact .inr (.inl h)

/-- A message given to the ring stays given. -/
theorem Rings.later {s t u : State} {o : Out} (h : Rings s t o) (g : RingKept t u) : Rings s u o := by
  intro l hl
  rcases h l hl with h | h | ⟨hw, h⟩
  · exact .inl (h.later g.sent)
  · exact .inr (.inl (g.waiting _ _ h))
  · exact .inr (.inr ⟨hw, g.owed _ h⟩)

/-- A message given from a state is given from an earlier one whose links it would take, and that waits for the same heads. -/
theorem Rings.earlier {r s t : State} {o : Out} (h : Rings s t o) (g : r.out <:+ s.out) (hl : s.linkFor o = r.linkFor o)
    (hw : s.waitsForPair o = r.waitsForPair o) : Rings r t o := by
  intro l hlr
  rcases h l (hl.trans hlr) with h | h | ⟨hws, h⟩
  · exact .inl (h.earlier g)
  · exact .inr (.inl h)
  · exact .inr (.inr ⟨hw ▸ hws, h⟩)

/-! What the work on commands leaves of the ring -/

section
variable {s t : State} (h : RingKept s t)
include h

theorem RingKept.sendRing o : RingKept s (t.sendRing o) := h.trans (State.sendRing_kept ..)

theorem RingKept.releaseStorage loc : RingKept s (t.releaseStorage loc) := by
  have gone : RingKept s (((t.indexKeysOf loc).foldl State.removeIndex t).uncountStored loc) :=
    .frame (.foldl _ h fun _ _ h => h.frame (State.removeIndex_frame _ (.refl _ _) rfl)) (State.uncountStored_frame _ (.refl _ _) rfl)
  unfold State.releaseStorage
  dsimp only
  split
  · refine RingKept.sendRing ?_ _
    exact .put gone rfl rfl rfl rfl
  · exact .put gone rfl rfl rfl rfl

theorem RingKept.unpin key : RingKept s (t.unpin key) := by
  unfold State.unpin
  split
  · exact h
  · extract_lets e' _ u _ v
    have hu : RingKept s u := .ite (.put h rfl rfl rfl rfl) (.put h rfl rfl rfl rfl)
    have hv : RingKept s v := .put hu rfl rfl rfl rfl
    exact .ite (.ite (hv.releaseStorage _) hv) hu

theorem RingKept.unpinChunks chunks : RingKept s (t.unpinChunks chunks) := .foldl _ h fun _ _ h => h.unpin _

theorem RingKept.giveUp n c : RingKept s (t.giveUp n c) := by
  unfold State.giveUp
  extract_lets u _ v w
  have hu : RingKept s u := by
    unfold u
    split
    · exact (h.unpinChunks _).frame (State.dropPending_frame _ (.refl _ _) rfl)
    · exact h
  have hv : RingKept s v := by
    unfold v
    split
    · exact hu.frame (State.removeSnap_frame _ _ (.refl _ _) rfl)
    · exact .ite (hu.frame (State.askInternal_frame _ (.refl _ _) rfl)) hu
    · exact .put hu rfl rfl rfl rfl
    · exact hu
  have hw : RingKept s w := hv.frame (State.stopRun_frame _ (State.leaveGroup_frame _ _ (.refl _ _) rfl) rfl)
  exact .put hw rfl rfl rfl rfl

theorem RingKept.cancelWith n st : RingKept s (t.cancelWith n st) := by
  unfold State.cancelWith
  split
  · exact h
  · refine RingKept.frame (.ite ?_ (h.giveUp ..)) (State.modTag_frame _ _ (.refl _ _) rfl)
    exact .put (h.giveUp ..) rfl rfl rfl rfl

theorem RingKept.abortTag n : RingKept s (t.abortTag n) := (h.cancelWith ..).frame (State.queueCompletion_frame _ (.refl _ _) rfl)

theorem RingKept.checkAbort n : RingKept s (t.checkAbort n) := by
  unfold State.checkAbort State.begin
  split
  · exact h
  next c hc =>
  have hu : RingKept s (t.setTag n { c with begun := true }) := h.frame (State.setTag_frame _ _ (.refl _ _) rfl)
  generalize t.setTag n { c with begun := true } = u at hu ⊢
  have ended {v : State} (hv : RingKept s v) (ran : Bool) : RingKept s (v.endAbort n ran) := hv.frame (State.endAbort_frame _ _ (.refl _ _) rfl)
  dsimp only
  split
  · exact ended hu _
  refine .ite (hu.frame (State.finish_frame _ _ (.refl _ _) rfl)) ?_
  split
  · exact ended (hu.frame (State.noteTags_frame (State.refuseCapsule_frame _ _ (State.unqueue_frame _ (.refl _ _) rfl) rfl) rfl)) _
  split
  · exact ended hu _
  refine .ite (ended hu _) ?_
  split
  iterate 4 exact ended (hu.abortTag _) _
  · exact .ite (ended hu _) ((hu.sendRing _).frame (State.modTag_frame _ _ (.refl _ _) rfl))
  iterate 3 exact ended hu _

/-! A held command that goes on (R83, R361) -/

theorem RingKept.forwardOne n : RingKept s (t.forwardOne n) := by
  unfold State.forwardOne
  split
  · exact h
  · extract_lets g u hd raw _ v
    have hu : RingKept s u := h.frame (State.modTag_frame _ _ (.refl _ _) rfl)
    have hv : RingKept s v := (hu.sendRing _).frame (State.bump_frame _ _ _ _ (.refl _ _) rfl)
    exact .ite hv (hv.frame (State.fetchForwarded_frame _ _ (.refl _ _) rfl))

theorem RingKept.forward n : RingKept s (t.forward n) := by
  unfold State.forward
  extract_lets u
  have hu : RingKept s u := h.forwardOne _
  split
  · exact hu
  · exact .ite (hu.forwardOne _) hu

theorem RingKept.advance n : RingKept s (t.advance n) := by
  unfold State.advance
  have held {u : State} (hu : RingKept s u) : RingKept s (u.hold n) := hu.frame (State.hold_frame _ (.refl _ _) rfl)
  have refused {u : State} (hu : RingKept s u) (st : NvmeStatus) : RingKept s (u.refuse n st) := hu.frame (State.refuse_frame _ _ (.refl _ _) rfl)
  split
  · exact h
  refine .ite (h.frame (State.start_frame _ (.refl _ _) rfl)) ?_
  split
  · exact held h
  · exact .ite (refused (h.frame (State.modTag_frame _ _ (.refl _ _) rfl)) _) (.ite (held h) (h.forward _))
  · exact refused h _
  · exact refused h _
  · split
    · exact .ite (refused h _) ((refused h _).frame (State.event1_frame _ _ (.refl _ _) rfl))
    · exact h.frame (State.requestLock_frame _ (.refl _ _) rfl)

/-! A container that is fetched (R206, R207) -/

theorem RingKept.deliverCopy u loc copy : RingKept s (t.deliverCopy u loc copy) := by
  unfold State.deliverCopy
  have dropped {v : State} (hv : RingKept s v) (job : InternalJob) : RingKept s (v.dropJob job) := hv.frame (State.dropJob_frame _ (.refl _ _) rfl)
  split
  · exact h.frame (State.modPiece_frame _ _ _ (.refl _ _) rfl)
  · exact h.frame (State.modChunk_frame _ _ _ (.refl _ _) rfl)
  · split
    · exact dropped h _
    · refine dropped ?_ _
      exact .put h rfl rfl rfl rfl
  · exact dropped (h.sendRing _) _
  · split
    · exact dropped h _
    · refine dropped ?_ _
      exact .put h rfl rfl rfl rfl
  · exact (dropped h _).frame (State.shipUnit_frame _ _ _ _ (.refl _ _) rfl)
  · exact h.frame (State.deliverSpan_frame _ _ _ _ _ (.refl _ _) rfl)

theorem RingKept.settleRemote : RingKept s t.settleRemote := by
  unfold State.settleRemote
  refine .foldl _ ?_ fun u r hu => ?_
  · exact .put h rfl rfl rfl rfl
  · split
    · refine .ite (RingKept.sendRing ?_ _) ?_
      · exact .put hu rfl rfl rfl rfl
      · exact .put hu rfl rfl rfl rfl
    · exact hu

theorem RingKept.askRemote f loc : RingKept s (t.askRemote f loc) := by
  unfold State.askRemote
  refine .ite (RingKept.settleRemote ?_) (h.deliverCopy ..)
  exact .put h rfl rfl rfl rfl

/-! A container that cannot be had (R212) -/

theorem RingKept.raise f bits i (hf : Part.sub [.block f.block] Part.calm = true) : RingKept s (t.raise f bits i) := by
  unfold State.raise
  exact .put (h.frame (State.wr_frame f _ _ _ (.refl _ _) hf)) rfl rfl rfl rfl

theorem RingKept.lostAppend entry : RingKept s (t.lostAppend entry) := by
  unfold State.lostAppend
  refine .ite ((h.raise _ _ _ rfl).frame (State.event_frame _ _ (.refl _ _) rfl)) (.frame ?_ (State.wr_frame _ _ _ _ (.refl _ _) rfl))
  exact .put h rfl rfl rfl rfl

theorem RingKept.listExtents loc domain full : RingKept s (t.listExtents loc domain full) :=
  .foldl _ h fun _ _ h => .foldl _ h fun _ _ h => (h.lostAppend _).frame (State.event_frame _ _ (.refl _ _) rfl)

theorem RingKept.loseContainer loc domain : RingKept s (t.loseContainer loc domain) := by
  unfold State.loseContainer
  refine .ite (h.frame (State.loseImage_frame _ (.refl _ _) rfl)) ?_
  dsimp only
  refine .foldl _ ?_ fun _ _ h => .foldl _ h fun _ _ h => h.sendRing _
  have listed := RingKept.listExtents (((h.lostAppend (loc.lostEntry domain t.ringTime)).frame
    (State.event_frame 0x500C loc.lostDetail (.refl _ _) rfl)).frame (State.forgetIndex_frame loc (.refl _ _) rfl)) loc domain true
  exact listed.frame (State.markLoss_frame _ (State.rewriteLoc_frame _ _ (.refl _ _) rfl) rfl)

theorem RingKept.gatherLost id : RingKept s (t.gatherLost id) := by
  unfold State.gatherLost
  split
  · exact h
  next g hg =>
  extract_lets _ u domain v second
  have hu : RingKept s u := .put h rfl rfl rfl rfl
  have hv : RingKept s v := hu.frame (State.event1_frame _ _ (State.countDecode_frame _ (.refl _ _) rfl) rfl)
  clear_value second v u
  refine .ite (hu.deliverCopy ..) ?_
  split
  · exact (hv.loseContainer ..).frame (State.failRead_frame _ _ (.refl _ _) rfl)
  · exact (hv.loseContainer ..).frame (State.deliverSpan_frame _ _ _ _ _ (.refl _ _) rfl)
  · exact (hv.loseContainer ..).deliverCopy ..
  · exact (hu.loseContainer ..).deliverCopy ..

/-! A container in flash (R206) -/

theorem RingKept.sendRead r : RingKept s (t.sendRead r) := by
  unfold State.sendRead
  split
  · exact h.frame (State.leafOp_frame _ _ _ _ _ (State.trialRead_frame _ (.refl _ _) rfl) rfl)
  · refine RingKept.sendRing ?_ _
    exact .put h rfl rfl rfl rfl
  · exact h

theorem RingKept.loseWord q quire sig word members but : RingKept s (t.loseWord q quire sig word members but) :=
  .foldl _ h fun _ _ h => h.loseContainer ..

theorem RingKept.wordGone g want failed : RingKept s (t.wordGone g want failed) := by
  unfold State.wordGone
  split
  · exact (h.loseWord ..).gatherLost _
  · exact h.gatherLost _

theorem RingKept.degradeWord r : RingKept s (t.degradeWord r) := by
  unfold State.degradeWord
  split
  · exact h.sendRing _
  · exact h.frame (State.noteTrailer_frame _ _ _ _ (.refl _ _) rfl)
  · exact h.frame (State.notePatrol_frame _ _ _ _ _ (.refl _ _) rfl)
  · exact h
  · split
    · exact h.gatherLost _
    · refine .ite (h.wordGone ..) (.foldl _ ?_ fun _ _ h => h.sendRead _)
      exact .put h rfl rfl rfl rfl
  · split
    · exact h
    · split
      · split
        · refine RingKept.sendRead ?_ _
          exact .put h rfl rfl rfl rfl
        · refine RingKept.wordGone ?_ ..
          exact .put h rfl rfl rfl rfl
      · exact h

theorem RingKept.degrade r : RingKept s (t.degrade r) :=
  .foldl _ (h.frame (State.bump_frame _ _ _ _ (.refl _ _) rfl)) fun _ _ h => h.degradeWord _

theorem RingKept.startRead r forced : RingKept s (t.startRead r forced) := by
  unfold State.startRead
  split
  · exact h.degrade _
  iterate 2 exact .ite (h.degrade _) (h.sendRead _)

theorem RingKept.gather f loc forced : RingKept s (t.gather f loc forced) := by
  unfold State.gather
  split
  · split
    · refine .ite (h.deliverCopy ..) ?_
      exact .put h rfl rfl rfl rfl
    · refine .foldl _ ?_ fun _ _ h => h.startRead ..
      exact .put h rfl rfl rfl rfl
  · exact h.deliverCopy ..

theorem RingKept.fetchCopy f loc forced : RingKept s (t.fetchCopy f loc forced) := by
  unfold State.fetchCopy
  split
  · exact h.deliverCopy ..
  · exact h.gather ..
  · exact h.askRemote ..
  iterate 4 exact h.deliverCopy ..

/-! Records for the mirror (R161, R162) -/

theorem RingKept.sendRecord n x : RingKept s (t.sendRecord n x) := by
  unfold State.sendRecord
  split
  · exact h
  · refine RingKept.sendRing ?_ _
    exact .put h rfl rfl rfl rfl

theorem RingKept.pumpMirror : RingKept s t.pumpMirror := .ite h (.foldl _ h fun _ _ h => h.sendRecord ..)

theorem RingKept.mirrorRecord r : RingKept s (t.mirrorRecord r).2 := by
  unfold State.mirrorRecord
  refine .frame (RingKept.pumpMirror ?_) (State.noteMirror_frame (.refl _ _) rfl)
  exact .put h rfl rfl rfl rfl

theorem RingKept.queueRecord r : RingKept s (t.queueRecord r).2 := by
  unfold State.queueRecord
  dsimp only
  split
  · exact (h.mirrorRecord _).frame (State.setOwn_frame _ _ (.refl _ _) rfl)
  · exact h.frame (State.setOwn_frame _ _ (.refl _ _) rfl)

theorem RingKept.withTree op want : RingKept s (t.withTree op want).2 := h.frame (State.withTree_frame _ _ (.refl _ _) rfl)

end

theorem RingKept.buildRecords {s : State} {tag nsid parts : Nat} (l : List (Nat × List RecItem)) :
    ∀ {k : Nat} {t u : State} {d : List Extent} {q : List Nat}, RingKept s t →
      State.buildRecords tag nsid parts l k t = .ok (d, q, u) → RingKept s u := by
  induction l with
  | nil =>
    rintro k t u d q h built
    cases built
    exact h
  | cons x r ih =>
    intro k t u d q h built
    rw [State.buildRecords] at built
    have room : RingKept s (t.roomFor x.1 (itemsLen x.2)).2 := h.frame (State.roomFor_frame _ _ (.refl _ _) rfl)
    dsimp only at built
    split at built
    · cases built
    next n opens v found =>
    rw [found] at room
    split at built
    · cases built
    next rest =>
    cases built
    exact ih (room.queueRecord _) rest

section
variable {s t : State} (h : RingKept s t)
include h

theorem RingKept.queueItems n nsid lanes : RingKept s (t.queueItems n nsid lanes) := by
  unfold State.queueItems
  refine .ite (h.cancelWith ..) ?_
  split
  · exact (h.frame (State.fillSegs_frame _ (.refl _ _) rfl)).frame (State.stall_frame _ _ (.refl _ _) rfl)
  next built =>
    exact (RingKept.buildRecords _ h built).frame (State.modTag_frame _ _ (State.modWrite_frame _ _ (.refl _ _) rfl) rfl)

theorem RingKept.tryHandOff n : RingKept s (t.tryHandOff n) := by
  unfold State.tryHandOff
  split
  · exact h
  split
  · exact h
  · exact .ite (h.queueItems ..) h

theorem RingKept.queueMeta n nsid op : RingKept s (t.queueMeta n nsid op) := by
  unfold State.queueMeta
  extract_lets op' stays
  refine .ite ((h.frame (State.modTag_frame _ _ (.refl _ _) rfl)).cancelWith ..) ?_
  have room : RingKept s (t.roomFor metaLane 192).2 := h.frame (State.roomFor_frame _ _ (.refl _ _) rfl)
  split
  · exact h.frame (State.stall_frame _ _ (State.modTag_frame _ _ (.refl _ _) rfl) rfl)
  next k opens u found =>
    rw [found] at room
    have tree := room.withTree op' none
    generalize u.withTree op' none = planted at tree
    obtain ⟨op'', v⟩ := planted
    dsimp only at tree ⊢
    generalize hr : v.queueRecord _ = queued
    have kept : RingKept s queued.2 := hr ▸ tree.queueRecord _
    refine .frame ?_ (State.modTag_frame _ _ (.refl _ _) rfl)
    exact .put kept rfl rfl rfl rfl

theorem RingKept.runJob n : RingKept s (t.runJob n) := by
  unfold State.runJob
  split
  · exact h
  refine .ite h ?_
  have begun (c : Cmd) : RingKept s (t.setTag n c) := h.frame (State.setTag_frame _ _ (.refl _ _) rfl)
  dsimp only
  split
  · exact (begun _).queueMeta ..
  · exact (begun _).tryHandOff _
  · exact (begun _).queueItems ..
  · exact (begun _).fetchCopy ..
  iterate 3 exact begun _

theorem RingKept.release n : RingKept s (t.release n) := by
  unfold State.release
  have started : RingKept s (t.start n) := h.frame (State.start_frame _ (.refl _ _) rfl)
  split
  · exact h
  · exact .ite (started.runJob _) (.ite started (h.advance _))

/-- The held commands that go on take no message back from the ring. -/
theorem RingKept.releaseHeld : RingKept s t.releaseHeld := by
  unfold State.releaseHeld
  refine .frame (.foldl _ (.foldl _ h fun _ _ h => (h.release _).checkAbort _) fun _ _ h => .ite (h.release _) h) (State.noteTags_frame (.refl _ _) rfl)

end

end Sys2Proof.Machine
end

section
/-!
Heartbeats, contests and epochs (O23): a round of the contest, the end of suspicion, the first state of an epoch, and what goes on the ring.
-/
namespace Sys2Proof.Machine
open Sys2Proof

/-! Links -/

/-- The parts that may change while the links stay as they are. -/
def Part.offLinks : List Part := (Part.butBlock 16).filter fun p => p != .xrn

section
variable {r s t : State} {o : Out}

theorem State.linkFor_within (h : Within Part.offLinks s t) (o : Out) : t.linkFor o = s.linkFor o := by
  have hrd (l : Nat) : t.rd Reg.XRN_LINK_STATUS.STATE l = s.rd Reg.XRN_LINK_STATUS.STATE l := h.only.rd _ _ _ rfl rfl
  have hports : t.peerPorts false = s.peerPorts false := by
    unfold State.peerPorts
    simp only [hrd]
  unfold State.linkFor
  simp only [hrd, hports, h.only.xrn rfl]

/-- Only a message that is owed to one head waits for that head. -/
theorem State.waitsForPair_of_unowed (s : State) (ho : o.owedTo = none) : s.waitsForPair o = (s.linkFor o).isNone := by
  unfold State.waitsForPair
  rw [ho]
  exact Bool.or_false _

/-- A message for whoever is at the link's other end, given from a state whose links are those of an earlier one, is given from that. -/
theorem Rings.before (h : Rings s t o) (g : Within Part.offLinks r s) (ho : o.owedTo = none) : Rings r t o := by
  have hl := State.linkFor_within g o
  refine h.earlier g.sent hl ?_
  rw [State.waitsForPair_of_unowed s ho, State.waitsForPair_of_unowed r ho, hl]

/-- Each of several messages sent one after the other is given to the ring. -/
theorem State.foldl_sendRing_rings {f : Nat → Out} (hf : ∀ l, (f l).owedTo = none) (ls : List Nat) (s : State) :
    ∀ l ∈ ls, Rings s (ls.foldl (fun s l => s.sendRing (f l)) s) (f l) := by
  induction ls generalizing s with
  | nil => exact fun _ hl => absurd hl List.not_mem_nil
  | cons a rest ih =>
    intro l hl
    rcases List.mem_cons.1 hl with rfl | hl
    · exact (s.sendRing_rings (f l)).later (RingKept.foldl rest (.refl _) fun _ _ h => h.sendRing _)
    · exact (ih _ l hl).before (State.sendRing_frame _ (.refl _ _) rfl) (hf l)

end

/-! A round of the contest (R369) -/

/-- The parts that the opening of a round may change. -/
def Part.round : List Part := [.block 4, .block 6, .evt, .nor, .host, .lfl, .own, .out, .hostWait]

/-- A round runs with the witness set asked; of the block OWN nothing else changed. -/
def State.InRound (s : State) (c : Contest) (t : State) : Prop :=
  Within Part.round s t ∧ ∃ x : Contest, t.own = { s.own with contest := some x } ∧ x.asked = s.witnessSet ∧ x.atStart = c.atStart

/-- A round in which no leaf was asked to install a record is open (R369). -/
theorem State.judgeRound_of_unanswered (s : State) (c : Contest) (hc : s.own.contest = some c) (ho : c.opened = false) (ht : c.term ≠ 0)
    (ha : c.answered = []) (hcas : c.cas = []) (hwon : c.won = []) (hback : c.back = []) : s.judgeRound = s.openRound c := by
  unfold State.judgeRound
  simp [hc, ho, ht, ha, hcas, hwon, hback]

/-- With no record read there is nothing to write, and the round is open (R369). -/
theorem State.startCas_of_unanswered (s : State) (c : Contest) (h : c.answered = []) (ho : c.opened = false) :
    ∃ x : Contest, s.startCas c = ({ s with own.contest := some x } : State).openRound x ∧ x.asked = c.asked ∧ x.atStart = c.atStart := by
  refine ⟨{ c with term := 1, cas := [], won := [], back := [], issued := c.issued }, ?_, rfl, rfl⟩
  unfold State.startCas
  simp only [h, List.any_nil, Bool.and_false, Bool.false_eq_true, if_false, List.foldl_nil, List.map_nil, List.isEmpty_nil, Bool.not_true,
    Bool.or_false, Nat.add_zero]
  exact State.judgeRound_of_unanswered _ _ rfl ho Nat.one_ne_zero h rfl rfl rfl

/-- A round begins with every leaf of the set asked; where none can be asked it is open at once (R369). -/
theorem State.settleReads_inRound (s : State) (c x : Contest) (r : State) (hr : Within Part.round r s) (hown : s.own = { r.own with contest := some x })
    (hasked : x.asked = r.witnessSet) (hstart : x.atStart = c.atStart) (ho : x.opened = false) (hread : x.answered = []) :
    r.InRound c s.settleReads := by
  have hc : s.own.contest = some x := by rw [hown]
  unfold State.settleReads
  simp only [hc]
  split
  · obtain ⟨y, hy, hya, hys⟩ := s.startCas_of_unanswered x hread ho
    rw [hy]
    unfold State.openRound
    refine ⟨State.event1_frame _ _ (.put (a := [.own]) (.put (a := [.own]) hr rfl rfl rfl rfl rfl) rfl rfl rfl rfl rfl) rfl, 
      { y with opened := true, round := y.round + 1 }, ?_, hya.trans hasked, hys.trans hstart⟩
    rw [(State.event1_frame (ps := Part.but [.own]) _ _ (.refl _ _) rfl).only.own rfl]
    simp only [hown]
  · exact ⟨hr, x, hown, hasked, hstart⟩

theorem State.startRound_inRound (s : State) (c : Contest) : s.InRound c (s.startRound c) := by
  unfold State.startRound
  extract_lets set near far c' _ u
  have asked : Within (Part.but [.own]) u (near.foldl (fun s l => s.leafOp l .witnessRead .witnessRead []) u) :=
    .foldl _ (.refl _ _) fun _ _ => State.leafOp_frame _ _ _ _ _ (.refl _ _) rfl
  have begun : Within Part.round s u := .put (a := [.own]) (.refl _ _) rfl rfl rfl rfl rfl
  refine State.settleReads_inRound _ c c' s (.foldl _ begun fun _ _ => State.leafOp_frame _ _ _ _ _ (.refl _ _) rfl) (asked.only.own rfl) rfl rfl rfl ?_
  simp [Contest.answered, c', far]

theorem State.startContest_runs (s : State) (h : s.mayContest = true) (atStart : Bool) :
    (s.wr Reg.OWN_STATE.CONTESTING 1).InRound { asked := [], atStart := atStart } (s.startContest atStart) := by
  unfold State.mayContest at h
  simp only [Bool.and_eq_true, Option.isNone_iff_eq_none, bne_iff_ne, Bool.not_eq_true'] at h
  obtain ⟨⟨⟨hen, hidle⟩, hmode⟩, hloser⟩ := h
  unfold State.startContest
  rw [hen, hidle, hloser, beq_eq_false_iff_ne.2 hmode]
  exact State.startRound_inRound ..

/-- What the start of a contest leaves (R366, R369). -/
theorem State.startContest_contest (s : State) (h : s.mayContest = true) (atStart : Bool) :
    ∃ x : Contest, (s.startContest atStart).own = { s.own with contest := some x } ∧ x.atStart = atStart := by
  obtain ⟨-, x, hown, -, hx⟩ := s.startContest_runs h atStart
  exact ⟨x, hown, hx⟩

theorem State.startContest_isSome (s : State) (h : s.mayContest = true) (atStart : Bool) : (s.startContest atStart).own.contest.isSome = true := by
  obtain ⟨x, hown, -⟩ := s.startContest_contest h atStart
  rw [hown]
  rfl

/-- The start of a contest shows in OWN_STATE alone, of the block OWN. -/
theorem State.startContest_rd (s : State) (h : s.mayContest = true) (atStart : Bool) (f : RField) (i j : Nat) (hf : f.block = 17) :
    (s.startContest atStart).rd f i j = (s.wr Reg.OWN_STATE.CONTESTING 1).rd f i j := by
  refine (s.startContest_runs h atStart).1.only.rd f i j rfl ?_
  rw [hf]
  rfl

/-! Suspicion (R366) -/

theorem State.enterSuspect_mode (s : State) (h : s.wc.mode ≠ .destage) : s.enterSuspect.wc.mode ≠ .destage := by
  have set (u : State) (hu : u.wc.mode ≠ .destage) : (u.setMode .suspect).wc.mode ≠ .destage := by
    unfold State.setMode
    split
    · exact hu
    · rw [(State.event_frame (ps := Part.but [.wc]) _ _ (.refl _ _) rfl).only.wc rfl]
      exact nofun
  unfold State.enterSuspect
  split
  iterate 2 exact set _ h
  iterate 4 exact h

/-- The end of suspicion keeps the time of the last heartbeat. -/
theorem State.clearSuspicion_lastBeat (s : State) : s.clearSuspicion.own.lastBeat = s.own.lastBeat := by
  unfold State.clearSuspicion
  extract_lets issued _ t
  split
  · have hown := (State.releaseHeld_frame (State.anaChange_frame s (State.leaveSuspect_frame (State.event_frame 0x8041 []
      (State.setPeer_frame .healthy (.refl (Part.but [.own]) t.endContest) rfl) rfl) rfl) rfl) rfl).only.own rfl
    rw [hown]
    rfl
  · rfl

/-! Epochs (R367) -/

/-- The first state of an epoch: paired, with no proposal left, and the scrub pass at its start. -/
theorem State.startEpoch_own (s : State) (e : Nat) : (s.startEpoch e).own.paired = true ∧ (s.startEpoch e).own.proposed = none ∧
    (s.startEpoch e).own.passDone = false ∧ (s.startEpoch e).own.scrubAt = 0 := by
  unfold State.startEpoch
  extract_lets released u emptied _ _ v w order x y _ z
  have resent : Within (Part.but [.own]) w z := by
    have sent : Within (Part.but [.own]) w y := .foldl order (State.mapLocs_frame _ (.refl _ w) rfl) fun _ _ => State.resendSeg_frame _ (.refl _ _) rfl
    exact .put (a := [.wc]) sent rfl rfl rfl rfl rfl
  have hown := (State.endResync_frame (State.sendTables_frame (State.noteMirror_frame (State.noteDirty_frame (State.setPeer_frame .healthy
    (State.setMode_frame .resync (State.waitAgain_frame resent rfl) rfl) rfl) rfl) rfl) rfl) rfl).only.own rfl
  rw [hown]
  exact ⟨rfl, rfl, rfl, rfl⟩

/-- The proposal of an epoch is out (R367). -/
theorem State.proposeEpoch_own (s : State) : ∃ n, s.proposeEpoch.own = { s.own with proposed := some n } := by
  refine ⟨max (s.rd Reg.DDR_MIR_EPOCH.EPOCH) s.own.peerEpoch + 1, ?_⟩
  unfold State.proposeEpoch
  dsimp only
  rw [(State.sendRing_frame (ps := Part.but [.own]) _ (.refl _ _) rfl).only.own rfl]
  dsimp only
  rw [(State.chooseWitness_frame (ps := Part.but [.own]) (.refl _ s) rfl).only.own rfl]

theorem State.takeRejoin_of_unasked (s : State) (h : s.own.rejoin = false) : s.takeRejoin = s := by
  unfold State.takeRejoin
  rw [h]
  rfl

/-- A request to rejoin is all that asking for it notes. -/
theorem State.askRejoin_own (s : State) : s.askRejoin.own.lastBeat = s.own.lastBeat ∧ s.askRejoin.own.starting = s.own.starting := by
  unfold State.askRejoin
  split
  · rw [(State.sendRing_frame (ps := Part.but [.own]) _ (.refl _ _) rfl).only.own rfl]
    exact ⟨rfl, rfl⟩
  · exact ⟨rfl, rfl⟩

/-- The start of an epoch changes no link. -/
theorem State.startEpoch_offLinks {s t : State} (h : Within Part.offLinks s t) (e : Nat) : Within Part.offLinks s (t.startEpoch e) :=
  State.startEpoch_frame e h rfl

/-! The obligation's clauses -/

theorem pfHoldoffExpiry_starts (s : State) (hh : s.own.holdoff = true) (hw : s.warned = false) (h : s.mayContest = true) :
    Answers .pfHoldoffExpiry s fun t => t.own.holdoff = false ∧ t.own.contest.isSome = true ∧ t.on Reg.OWN_STATE.CONTESTING = true := by
  have hm : s.wc.mode ≠ .destage := by
    simp only [State.mayContest, Bool.and_eq_true, bne_iff_ne] at h
    exact h.1.2
  have may : ({ s with own.holdoff := false } : State).mayContest = true := h
  refine .of_eq (t := ({ s with own.holdoff := false } : State).startContest false) ?_ ?_
  · show execPfHoldoffExpiry s = _
    simp [execPfHoldoffExpiry, hh, hm, hw]
  · obtain ⟨x, hown, -⟩ := State.startContest_contest _ may false
    rw [hown]
    refine ⟨rfl, rfl, ?_⟩
    rw [State.on_of_rd (State.startContest_rd _ may false _ 0 0 rfl), State.on_wr_same]
    rfl

theorem execHeartbeatSend_eq (s : State) (hen : s.on Reg.OWN_CTRL.EN = true) (hl : s.power.headLost = false) (hr : s.own.rejoin = false) :
    ∃ body, execHeartbeatSend s = .next ((s.peerPorts false).foldl (fun u l => u.sendRing (.ring 0x01 (l :: body) []))
      { s with own.beatSeq := (s.own.beatSeq + 1) % 2 ^ 32 }) := by
  have unasked (n : Nat) : ({ s with own.beatSeq := n } : State).takeRejoin = { s with own.beatSeq := n } := State.takeRejoin_of_unasked _ hr
  unfold execHeartbeatSend
  rw [hen, hl]
  dsimp only
  rw [unasked]
  exact ⟨_, rfl⟩

theorem heartbeatSend_sends (s : State) (hen : s.on Reg.OWN_CTRL.EN = true) (hl : s.power.headLost = false) (hr : s.own.rejoin = false) :
    Answers .heartbeatSend s fun t =>
      t.own.beatSeq = (s.own.beatSeq + 1) % 2 ^ 32 ∧ ∀ l ∈ s.peerPorts false, ∃ b, Rings s t (.ring 0x01 (l :: b) []) := by
  obtain ⟨body, h⟩ := execHeartbeatSend_eq s hen hl hr
  refine ⟨_, h, ?_, fun l hl => ⟨body, ?_⟩⟩
  · rw [(Within.foldl (ps := Part.but [.own]) _ (.refl _ _) fun _ _ => State.sendRing_frame _ (.refl _ _) rfl).only.own rfl]
  · refine (State.foldl_sendRing_rings (fun _ => rfl) _ _ l hl).before ?_ rfl
    exact .put (a := [.own]) (.refl _ _) rfl rfl rfl rfl rfl

/-- What a heartbeat of the peer brings before this head answers it: its time, its epoch and term, and the end of suspicion. -/
def State.heard (s : State) (beat : Heartbeat) : State :=
  have s := ({ s with
    own.lastBeat := some s.ringTime
    own.peerEpoch := max s.own.peerEpoch beat.epoch }.peak Reg.OWN_TERM.TERM beat.term).clearSuspicion
  if s.rd Reg.OWN_STATE.PEER = 0 then s.setPeer .healthy else s

theorem execHeartbeat_eq (s : State) (beat : Heartbeat) (hen : s.on Reg.OWN_CTRL.EN = true) (hb : beat.head ≠ s.headB) :
    execHeartbeat beat s =
      if (s.heard beat).wc.mode = .off && (s.heard beat).own.proposed.isNone && !(s.heard beat).own.rejoin then
        if beat.mode = 3 then .next { s.heard beat with own.starting := false }.askRejoin
        else if beat.mode = 0 && !(s.heard beat).headB then .next { s.heard beat with own.starting := false }.proposeEpoch
        else .next { s.heard beat with own.starting := false }
      else .next { s.heard beat with own.starting := false } := by
  unfold execHeartbeat
  rw [hen, beq_eq_false_iff_ne.2 hb]
  rfl

theorem State.heard_lastBeat (s : State) (beat : Heartbeat) : (s.heard beat).own.lastBeat = some s.ringTime := by
  unfold State.heard
  dsimp only
  split
  · unfold State.setPeer
    rw [State.wr_own, State.clearSuspicion_lastBeat, State.peak_own]
  · rw [State.clearSuspicion_lastBeat, State.peak_own]

theorem heartbeat_noted (s : State) (b : Heartbeat) (hen : s.on Reg.OWN_CTRL.EN = true) (hb : b.head ≠ s.headB) :
    Answers (.heartbeat b) s fun t => t.own.lastBeat = some s.ringTime ∧ t.own.starting = false := by
  have heard := s.heard_lastBeat b
  have h : exec (.heartbeat b) s = _ := execHeartbeat_eq s b hen hb
  generalize s.heard b = u at h heard
  split at h
  · split at h
    · obtain ⟨hbeat, hstart⟩ := State.askRejoin_own { u with own.starting := false }
      exact ⟨_, h, hbeat.trans heard, hstart⟩
    split at h
    · obtain ⟨n, hown⟩ := State.proposeEpoch_own { u with own.starting := false }
      exact ⟨_, h, (congrArg Ownership.lastBeat hown).trans heard, congrArg Ownership.starting hown⟩
    · exact ⟨_, h, heard, rfl⟩
  · exact ⟨_, h, heard, rfl⟩

/-- The peer is Suspect, before the contest starts. -/
def State.suspected (s : State) : State := (({ s with own.suspect := some s.clock }.enterSuspect.setPeer .suspect).event 0x8040).anaChange s

theorem State.suspected_own (s : State) : s.suspected.own = { s.own with suspect := some s.clock } :=
  (State.anaChange_frame s (State.event_frame 0x8040 [] (State.setPeer_frame .suspect
    (State.enterSuspect_frame (.refl (Part.but [.own]) { s with own.suspect := some s.clock }) rfl) rfl) rfl) rfl).only.own rfl

theorem State.suspected_mode (s : State) (h : s.wc.mode ≠ .destage) : s.suspected.wc.mode ≠ .destage := by
  have kept := (State.anaChange_frame s (State.event_frame 0x8040 [] (State.setPeer_frame .suspect
    (.refl (Part.but [.wc]) ({ s with own.suspect := some s.clock } : State).enterSuspect) rfl) rfl) rfl).only.wc rfl
  rw [State.suspected, kept]
  exact State.enterSuspect_mode _ h

/-- Of the block OWN, suspicion shows in OWN_STATE.PEER alone. -/
theorem State.suspected_rd (s : State) (f : RField) (hf : f.block = 17) (hp : Reg.OWN_STATE.PEER.id ≠ f.id) : s.suspected.rd f = s.rd f := by
  have noted := State.anaChange_frame s (State.event_frame 0x8040 [] (.refl (Part.butBlock 17)
    (({ s with own.suspect := some s.clock } : State).enterSuspect.setPeer .suspect)) rfl) rfl
  have entered := State.enterSuspect_frame (.refl (Part.butBlock 17) { s with own.suspect := some s.clock }) rfl
  rw [State.suspected, noted.only.rd f 0 0 rfl (by rw [hf]; rfl), State.setPeer, State.rd_wr_field _ _ _ _ _ _ _ _ hp,
    entered.only.rd f 0 0 rfl (by rw [hf]; rfl)]
  rfl

theorem State.suspected_peer (s : State) : s.suspected.rd Reg.OWN_STATE.PEER = 2 := by
  have noted := State.anaChange_frame s (State.event_frame 0x8040 [] (.refl (Part.butBlock 17)
    (({ s with own.suspect := some s.clock } : State).enterSuspect.setPeer .suspect)) rfl) rfl
  rw [State.suspected, noted.only.rd _ _ _ rfl rfl, State.setPeer, State.rd_wr_same]
  rfl

theorem State.suspected_mayContest (s : State) (h : s.mayContest = true) : s.suspected.mayContest = true := by
  simp only [State.mayContest, Bool.and_eq_true, bne_iff_ne] at h ⊢
  obtain ⟨⟨⟨hen, hidle⟩, hmode⟩, hloser⟩ := h
  refine ⟨⟨⟨?_, ?_⟩, s.suspected_mode hmode⟩, ?_⟩
  · rw [State.on_of_rd (s.suspected_rd _ rfl (by decide))]
    exact hen
  · rw [s.suspected_own]
    exact hidle
  · rw [s.suspected_own]
    exact hloser

theorem peerSuspect_contests (s : State) (h : s.mayContest = true) (hb : s.own.lastBeat.isSome = true) (hn : s.own.suspect = none)
    (hv : s.rd Reg.OWN_STATE.PEER ≤ 1) : Answers .peerSuspect s fun t =>
      t.own.suspect = some s.clock ∧ t.rd Reg.OWN_STATE.PEER = 2 ∧ t.own.contest.isSome = true := by
  refine .of_eq (t := s.suspected.startContest false) ?_ ?_
  · simp only [State.mayContest, Bool.and_eq_true, Bool.not_eq_true'] at h
    obtain ⟨⟨⟨hen, hidle⟩, hmode⟩, hloser⟩ := h
    show execPeerSuspect s = _
    unfold execPeerSuspect
    extract_lets view
    have hview : decide (view ≤ 1) = true := decide_eq_true hv
    rw [hen, hb, hn, hmode, hloser, hview]
    rfl
  · have may := s.suspected_mayContest h
    obtain ⟨x, hx, -⟩ := State.startContest_contest _ may false
    rw [hx, s.suspected_own]
    refine ⟨rfl, ?_, rfl⟩
    rw [State.startContest_rd _ may _ _ _ _ rfl, State.rd_wr_field _ _ _ _ _ _ _ _ (by decide), s.suspected_peer]

/-- What a head takes from a proposal before the epoch begins: the groups and the witness set, its own regions discarded where it rejoins. -/
def State.joined (s : State) (p : Proposal) : State :=
  (p.groups.foldl (fun s e => s.setGroup e.1 e.2) (if s.own.loser || s.own.rejoin then s.discardRegions else s)).setWitness p.witness

theorem execEpochProposal_eq (s : State) (p : Proposal) (hen : s.on Reg.OWN_CTRL.EN = true) (he : s.rd Reg.DDR_MIR_EPOCH.EPOCH < p.epoch)
    (hm : s.wc.mode ≠ .destage) : execEpochProposal p s = .next
      (((((s.joined p).startEpoch p.epoch).sendRing (.ring 0x03 [p.epoch] [])).wr Reg.OWN_STATE.WITNESS_HELD 0).anaChange s).releaseHeld := by
  unfold execEpochProposal
  rw [hen, beq_eq_false_iff_ne.2 hm, decide_eq_false (Nat.not_le.2 he)]
  rfl

theorem epochProposal_accepted (s : State) (p : Proposal) (hen : s.on Reg.OWN_CTRL.EN = true) (he : s.rd Reg.DDR_MIR_EPOCH.EPOCH < p.epoch)
    (hm : s.wc.mode ≠ .destage) : Answers (.epochProposal p) s fun t =>
      Rings s t (.ring 0x03 [p.epoch] []) ∧ t.own.paired = true ∧ t.own.proposed = none ∧ t.on Reg.OWN_STATE.WITNESS_HELD = false := by
  refine .of_eq (execEpochProposal_eq s p hen he hm) ?_
  have links : Within Part.offLinks s (s.joined p) := State.setWitness_frame _
    (.foldl _ (.ite (State.discardRegions_frame (.refl _ _) rfl) (.refl _ _)) fun _ _ => State.setGroup_frame _ _ (.refl _ _) rfl) rfl
  have begun : Within Part.offLinks s ((s.joined p).startEpoch p.epoch) := State.startEpoch_offLinks links p.epoch
  obtain ⟨hpaired, hproposed, -, -⟩ := (s.joined p).startEpoch_own p.epoch
  generalize (s.joined p).startEpoch p.epoch = u at begun hpaired hproposed
  generalize hv : (u.sendRing (.ring 0x03 [p.epoch] [])).wr Reg.OWN_STATE.WITNESS_HELD 0 = v
  have hvown : v.own = u.own := by
    rw [← hv, State.wr_own, (State.sendRing_frame (ps := Part.but [.own]) _ (.refl _ u) rfl).only.own rfl]
  have rung : Rings u v (.ring 0x03 [p.epoch] []) := hv ▸ u.sendRing_rings _
  have kept : RingKept v (v.anaChange s).releaseHeld := (RingKept.frame (.refl v) (State.anaChange_frame s (.refl _ _) rfl)).releaseHeld
  have hown := (State.releaseHeld_frame (State.anaChange_frame s (.refl (Part.but [.own]) v) rfl) rfl).only.own rfl
  rw [hown, hvown]
  refine ⟨(rung.before begun rfl).later kept, hpaired, hproposed, ?_⟩
  rw [State.on_of_rd (kept.regs _ _ _ rfl), ← hv, State.on_wr_same]
  rfl

theorem epochAccept_starts (s : State) (n : Nat) (hp : s.own.proposed = some n) (hm : s.wc.mode ≠ .destage) :
    Answers (.epochAccept n) s fun t =>
      t.own.paired = true ∧ t.own.proposed = none ∧ t.own.passDone = false ∧ t.own.scrubAt = 0 := by
  refine .of_eq (t := ((s.startEpoch n).anaChange s).releaseHeld) ?_ ?_
  · show execEpochAccept n s = _
    simp [execEpochAccept, hp, hm]
  · rw [(State.releaseHeld_frame (State.anaChange_frame s (.refl (Part.but [.own]) (s.startEpoch n)) rfl) rfl).only.own rfl]
    exact s.startEpoch_own n

theorem rejoinRequest_waits (s : State) (hp : s.rd Reg.OWN_STATE.PEER = 3) (ha : (s.wc.mir.any fun e => e.2.adopted) = true) :
    exec .rejoinRequest s = .next { s with own.rejoin := true } := by
  show execRejoinRequest s = _
  simp [execRejoinRequest, State.takeRejoin, hp, ha]

theorem rejoinRequest_proposes (s : State) (hp : s.rd Reg.OWN_STATE.PEER = 3) (ha : (s.wc.mir.any fun e => e.2.adopted) = false)
    (hn : s.own.proposed = none) : Answers .rejoinRequest s fun t => t.own.proposed.isSome = true := by
  refine ⟨_, (if_pos hp : execRejoinRequest s = _), ?_⟩
  have taken : ∃ u : State, ({ s with own.rejoin := true } : State).takeRejoin = u.proposeEpoch := by
    have hpeer : ({ s with own.rejoin := true } : State).rd Reg.OWN_STATE.PEER = 3 := hp
    unfold State.takeRejoin
    rw [hpeer, ha, hn]
    exact ⟨_, rfl⟩
  obtain ⟨u, hu⟩ := taken
  obtain ⟨m, hm⟩ := u.proposeEpoch_own
  rw [hu]
  exact congrArg (fun o : Ownership => o.proposed.isSome) hm

theorem contestRetry_asks (s : State) (c : Contest) (hc : s.own.contest = some c) (ho : c.opened = true) :
    Answers .contestRetry s fun t => t.own.contest.any (fun x => x.asked == s.witnessSet) = true := by
  refine .of_eq (t := s.startRound c) ?_ ?_
  · show execContestRetry s = _
    simp [execContestRetry, hc, ho]
  · obtain ⟨-, x, hown, hasked, -⟩ := s.startRound_inRound c
    rw [hown]
    exact beq_iff_eq.2 hasked

/-- READY as OWN_HEALTH shows it, a change with its event (R377). -/
def State.showReady (s : State) (r : Nat) : State :=
  if s.rd Reg.OWN_HEALTH.SELF_READY = r then s else (s.wr Reg.OWN_HEALTH.SELF_READY r).event1 0x804B r

theorem State.showReady_rd (s : State) (r : Nat) (hr : r ≤ 1) : (s.showReady r).rd Reg.OWN_HEALTH.SELF_READY = r := by
  unfold State.showReady
  split
  · assumption
  · rw [(State.event1_frame (ps := Part.butBlock 17) _ _ (.refl _ _) rfl).only.rd _ _ _ rfl rfl, State.rd_wr_same]
    exact Nat.mod_eq_of_lt (by show r < 2; omega)

theorem State.showReady_frame {ps s t} r (h : Within ps s t) (hp : Part.sub [.block 4, .block 6, .block 17, .evt, .nor, .host, .out, .hostWait] ps = true) :
    Within ps s (State.showReady t r) :=
  h.step (.ite (.refl _ _) (State.event1_frame _ _ (State.wr_frame _ _ _ _ (.refl _ _) rfl) rfl)) hp

/-- What is shown before a health report is sent: READY, and the lag. -/
def State.showHealth (s : State) : State :=
  have s := s.showReady (if s.isReady then 1 else 0)
  s.wr Reg.OWN_HEALTH.LAG_US (min 65535 s.lagUs)

theorem execHealthReportSend_eq (s : State) (hen : s.on Reg.OWN_CTRL.EN = true) : execHealthReportSend s = .next
    (s.showHealth.sendRing (.ring 0x06 [if s.isReady then 1 else 0, min 65535 s.showHealth.lagUs, s.showHealth.rd Reg.BOOT_STATUS.TRIAL] [])) := by
  unfold execHealthReportSend
  rw [hen]
  rfl

theorem State.showHealth_within (s : State) : Within [.block 4, .block 6, .block 17, .evt, .nor, .host, .out, .hostWait] s s.showHealth :=
  State.wr_frame _ _ _ _ (State.showReady_frame _ (.refl _ _) rfl) rfl

theorem State.showHealth_ready (s : State) : s.showHealth.rd Reg.OWN_HEALTH.SELF_READY = if s.isReady then 1 else 0 := by
  unfold State.showHealth
  rw [State.rd_wr_field _ _ _ _ _ _ _ _ (by decide), State.showReady_rd]
  split <;> decide

theorem State.showHealth_lagUs (s : State) : s.showHealth.lagUs = s.lagUs := by
  unfold State.lagUs
  rw [s.showHealth_within.only.wc rfl, s.showHealth_within.only.ringTime rfl]

theorem healthReportSend_shows (s : State) (hen : s.on Reg.OWN_CTRL.EN = true) : Answers .healthReportSend s fun t =>
      t.rd Reg.OWN_HEALTH.SELF_READY = (if s.isReady then 1 else 0) ∧
      Rings s t (.ring 0x06 [if s.isReady then 1 else 0, min 65535 s.lagUs, s.rd Reg.BOOT_STATUS.TRIAL] []) := by
  have shown := s.showHealth_within
  refine .of_eq (execHealthReportSend_eq s hen) ?_
  rw [(State.sendRing_frame (ps := Part.butBlock 17) _ (.refl _ s.showHealth) rfl).only.rd _ _ _ rfl rfl, s.showHealth_lagUs,
    shown.only.rd Reg.BOOT_STATUS.TRIAL 0 0 rfl rfl]
  exact ⟨s.showHealth_ready, (State.sendRing_rings _ _).before (shown.mono rfl) rfl⟩

theorem healthReport_shown (s : State) (r tr : Bool) (hen : s.on Reg.OWN_CTRL.EN = true) :
    Answers (.healthReport r tr) s fun t => t.on Reg.OWN_HEALTH.PEER_READY = r ∧ t.own.peerTrial = tr := by
  refine ⟨_, (if_pos hen : execHealthReport r tr s = _), ?_, rfl⟩
  rw [State.on_wr_same]
  cases r <;> rfl

/-- Settles O23: each clause by the steps of its command, with the open round, the first state of an epoch and the ring as lemmas. -/
theorem heartbeatsAndContests : Obligations.HeartbeatsAndContests := by
  unfold Obligations.HeartbeatsAndContests
  refine ⟨fun s hen hm hl => ?_, fun s hh => ⟨fun hw h => pfHoldoffExpiry_starts s hh hw h, fun hw => ?_⟩, heartbeatSend_sends, fun s hl => ?_,
    heartbeat_noted, peerSuspect_contests, fun s h hm hn => ?_, fun s h hs hb => ?_, contestRetry_asks, fun s hw h => ?_, epochProposal_accepted,
    epochAccept_starts, fun s hp => ⟨rejoinRequest_waits s hp, rejoinRequest_proposes s hp⟩, healthReportSend_shows, healthReport_shown⟩
  · show execPowerFailNotice s = _
    simp [execPowerFailNotice, hen, hm, hl]
  · show execPfHoldoffExpiry s = _
    simp [execPfHoldoffExpiry, hw]
  · show execHeartbeatSend s = _
    simp [execHeartbeatSend, hl]
  · refine .of_eq (t := s.startContest false) ?_ (s.startContest_isSome h false)
    show execStuckSuspectExpiry s = _
    simp [execStuckSuspectExpiry, hm, hn]
  · refine .of_eq (t := s.startContest true) ?_ ?_
    · show execStartHeartbeatTimeout s = _
      simp [execStartHeartbeatTimeout, hs, hb]
    · obtain ⟨x, hown, hx⟩ := s.startContest_contest h true
      rw [hown]
      exact hx
  · exact .of_eq (if_pos hw : execForce s = _) (s.startContest_isSome h false)

end Sys2Proof.Machine
end

section
/-!
Flow control and links of the front ports (O55): what a frame or packet that leaves a port keeps of the paused priorities, and where a priority
stops and goes on.
-/
namespace Sys2Proof.Machine
open Sys2Proof

/-! What leaves a port keeps its paused priorities (R41) -/

/-- Every logical port has the paused priorities that it had. -/
structure PausedKept (s t : State) : Prop where
  paused : ∀ l, (t.lport l).paused = (s.lport l).paused

theorem PausedKept.refl (s : State) : PausedKept s s := ⟨fun _ => rfl⟩

theorem PausedKept.trans {s t u : State} (h : PausedKept s t) (g : PausedKept t u) : PausedKept s u :=
  ⟨fun l => (g.paused l).trans (h.paused l)⟩

theorem PausedKept.of_within {s t : State} (g : Within (Part.but [.ports]) s t) : PausedKept s t := ⟨fun l => by rw [g.lport_eq]⟩

theorem PausedKept.foldl {α : Type} {s t : State} {f : State → α → State} (l : List α) (h : PausedKept s t)
    (g : ∀ u x, PausedKept u (f u x)) : PausedKept s (l.foldl f t) := by
  induction l generalizing t with
  | nil => exact h
  | cons x r ih => exact ih (h.trans (g t x))

theorem State.lport_setLPort_other (s : State) {l m : Nat} (p : LPort) (h : m ≠ l) : (s.setLPort l p).lport m = s.lport m :=
  Table.get_put_other h ..

theorem PausedKept.setLPort {s : State} {l : Nat} {p : LPort} (h : p.paused = (s.lport l).paused) : PausedKept s (s.setLPort l p) := by
  refine ⟨fun m => ?_⟩
  by_cases hm : m = l
  · rw [hm, State.lport_setLPort, h]
  · rw [State.lport_setLPort_other _ _ hm]

theorem State.secTake_paused (s : State) (l n : Nat) : PausedKept s (s.secTake l n).2 := by
  rcases s.secTake_cases l n with h | ⟨h, -⟩ | ⟨a, tags, sa, b, h, -⟩
  · rw [h]
    exact .refl s
  · rw [h]
    exact .refl s
  · have put : PausedKept s (s.setLPort l { s.lport l with txSa := sa }) := .setLPort rfl
    rw [h]
    cases b with
    | true => exact put.trans ⟨fun _ => rfl⟩
    | false => exact put

theorem State.wireFrame_paused (s : State) (f : TxFrame) (bytes : List Byte) : PausedKept s (s.wireFrame f bytes).2 := by
  unfold State.wireFrame
  split
  · exact ⟨fun _ => rfl⟩
  · have taken := s.secTake_paused f.lport 1
    generalize s.secTake f.lport = r at taken
    obtain ⟨w, t⟩ := r
    cases w with
    | plain => exact taken.trans ⟨fun _ => rfl⟩
    | drop => exact taken
    | protect a tags => exact taken.trans ⟨fun _ => rfl⟩

theorem State.wirePacket_paused (s : State) (l n : Nat) (o : RoceOut) : PausedKept s (s.wirePacket l n o) := by
  unfold State.wirePacket
  have taken := s.secTake_paused l ((s.qp n).frames o)
  generalize s.secTake l ((s.qp n).frames o) = r at taken
  obtain ⟨w, t⟩ := r
  cases w with
  | plain => exact taken.trans ⟨fun _ => rfl⟩
  | drop => exact taken
  | protect a tags => exact taken.trans ⟨fun _ => rfl⟩

theorem State.frameDone_paused (s : State) (f : TxFrame) (ok : Bool) (stamp : Option Nat) : PausedKept s (s.frameDone f ok stamp) :=
  .of_within (State.frameDone_frame _ _ _ (.refl _ _) rfl)

theorem State.emitFrame_paused (s : State) (f : TxFrame) : PausedKept s (s.emitFrame f) := by
  unfold State.emitFrame
  extract_lets stamp
  split
  · split
    · exact (s.wireFrame_paused ..).trans (State.frameDone_paused ..)
    · next m t _ _ _ =>
      have wired := s.wireFrame_paused f f.bytes
      generalize s.wireFrame f f.bytes = r at wired
      obtain ⟨ok, u⟩ := r
      cases ok with
      | true => exact wired.trans (.trans (.of_within (State.pushStamp_frame _ _ (.refl _ _) rfl)) (State.frameDone_paused ..))
      | false => exact wired.trans (State.frameDone_paused ..)
  · exact (s.wireFrame_paused ..).trans (State.frameDone_paused ..)

theorem State.releasePackets_paused (s : State) (l : Nat) : PausedKept s (s.releasePackets l) := by
  unfold State.releasePackets
  extract_lets p stay
  split
  · exact .refl s
  · refine .foldl _ (.setLPort ?_) fun u e => State.wirePacket_paused ..
    rfl

/-! Where a priority goes on and where it stops (R41) -/

/-- Transmission resumed on a priority leaves the other paused priorities alone standing. -/
theorem State.unpause_paused (s : State) (l prio : Nat) :
    ((s.unpause l prio).lport l).paused = (s.lport l).paused.filter fun x => x != prio := by
  unfold State.unpause
  extract_lets p go t
  have kept : PausedKept t ((go.foldl State.emitFrame t).releasePackets l) :=
    .trans (.foldl go (.refl t) State.emitFrame_paused) (State.releasePackets_paused ..)
  rw [kept.paused, State.lport_setLPort]

theorem State.not_mem_unpause (s : State) (l prio : Nat) : prio ∉ ((s.unpause l prio).lport l).paused := by
  rw [State.unpause_paused]
  simp

/-- What one priority's pause time in a PFC frame does. -/
def State.pfcEntry (s : State) (l : Nat) (e : Nat × Nat) : State :=
  if (s.rd Reg.ETH_PFC_CTRL.PAUSE_HONOUR (l / 4)).testBit e.1 then
    if e.2 = 0 then s.unpause l e.1
    else s.setLPort l { s.lport l with
      paused := if (s.lport l).paused.contains e.1 then (s.lport l).paused else (s.lport l).paused ++ [e.1] }
  else s

theorem execPfcReceive_eq (l : Nat) (times : List (Nat × Nat)) (s : State) :
    exec (.pfcReceive l times) s = .next (times.foldl (fun s e => s.pfcEntry l e) s) := rfl

theorem State.pfcEntry_ignored {s : State} {l : Nat} {e : Nat × Nat}
    (h : (s.rd Reg.ETH_PFC_CTRL.PAUSE_HONOUR (l / 4)).testBit e.1 = false) : s.pfcEntry l e = s := by
  simp [State.pfcEntry, h]

/-- A pause time other than 0 stops its priority where the port honours it, lets no other go on, and leaves the registers alone. -/
theorem State.pfcEntry_stops (s : State) (l : Nat) {e : Nat × Nat} (h : e.2 ≠ 0) : (s.pfcEntry l e).regs = s.regs ∧
    (∀ x ∈ (s.lport l).paused, x ∈ ((s.pfcEntry l e).lport l).paused) ∧
    ((s.rd Reg.ETH_PFC_CTRL.PAUSE_HONOUR (l / 4)).testBit e.1 = true → e.1 ∈ ((s.pfcEntry l e).lport l).paused) := by
  unfold State.pfcEntry
  split
  · rw [State.lport_setLPort]
    dsimp only
    refine ⟨rfl, fun x hx => ?_, fun _ => ?_⟩
    · split
      · exact hx
      · exact List.mem_append_left _ hx
    · split
      · next hc => exact List.contains_iff_mem.1 hc
      · simp
  · next hn => exact ⟨rfl, fun _ => id, fun hon => absurd hon hn⟩

/-- Pause times other than 0 stop every priority among them that the port honours. -/
theorem State.pfcEntries_stop (l : Nat) (times : List (Nat × Nat)) (h : ∀ x ∈ times, x.2 ≠ 0) (s : State) :
    (∀ x ∈ (s.lport l).paused, x ∈ ((times.foldl (fun s e => s.pfcEntry l e) s).lport l).paused) ∧
    ∀ x ∈ times, (s.rd Reg.ETH_PFC_CTRL.PAUSE_HONOUR (l / 4)).testBit x.1 = true →
      x.1 ∈ ((times.foldl (fun s e => s.pfcEntry l e) s).lport l).paused := by
  induction times generalizing s with
  | nil => exact ⟨fun _ => id, fun _ hx => absurd hx List.not_mem_nil⟩
  | cons e r ih =>
    obtain ⟨hregs, hstay, hstop⟩ := s.pfcEntry_stops l (h e List.mem_cons_self)
    obtain ⟨later, rest⟩ := ih (fun x hx => h x (List.mem_cons_of_mem _ hx)) (s.pfcEntry l e)
    refine ⟨fun x hx => later x (hstay x hx), fun x hx hon => ?_⟩
    rcases List.mem_cons.1 hx with rfl | hx
    · exact later _ (hstop hon)
    · exact rest x hx (by rw [State.rd_congr hregs]; exact hon)

theorem State.pfcEntries_ignored (l : Nat) (times : List (Nat × Nat)) (s : State)
    (h : ∀ x ∈ times, (s.rd Reg.ETH_PFC_CTRL.PAUSE_HONOUR (l / 4)).testBit x.1 = false) :
    times.foldl (fun s e => s.pfcEntry l e) s = s := by
  induction times with
  | nil => rfl
  | cons e r ih =>
    rw [List.foldl_cons, State.pfcEntry_ignored (h e List.mem_cons_self)]
    exact ih fun x hx => h x (List.mem_cons_of_mem _ hx)

/-! Frames that leave as they are (R43, R47) -/

theorem State.wireFrame_plain {s : State} {f : TxFrame} (h : f.eapol = true ∨ s.on Reg.ETH_MACSEC_CTRL.EN (f.lport / 4) = false) (bytes : List Byte) :
    s.wireFrame f bytes = (true, s.send (.frame f.lport bytes)) := by
  unfold State.wireFrame
  rcases h with h | h
  · rw [if_pos h]
  · cases f.eapol with
    | true => rfl
    | false => simp [State.secTake, h]

theorem State.emitFrame_no_ptp {s : State} {f : TxFrame} (h : f.ptp = none) :
    s.emitFrame f = (s.wireFrame f f.bytes).2.frameDone f (s.wireFrame f f.bytes).1 none := by
  simp only [State.emitFrame, h, State.ptpStamp]

theorem State.frameDone_sent (s : State) (f : TxFrame) (ok : Bool) (stamp : Option Nat) : s.out <:+ (s.frameDone f ok stamp).out :=
  (State.frameDone_frame (ps := Part.every) f ok stamp (.refl _ s) rfl).sent

/-- A frame without a PTP message, which MACsec leaves alone, leaves as it is. -/
theorem State.emitFrame_sends {s : State} {f : TxFrame} (hptp : f.ptp = none)
    (h : f.eapol = true ∨ s.on Reg.ETH_MACSEC_CTRL.EN (f.lport / 4) = false) : Sends s (s.emitFrame f) (.frame f.lport f.bytes) := by
  rw [State.emitFrame_no_ptp hptp, State.wireFrame_plain h]
  exact (Sends.refl_send ..).later (State.frameDone_sent ..)

/-- A lone frame that waited for a priority leaves when transmission resumes. -/
theorem State.unpause_sends {s : State} {l prio : Nat} {f : TxFrame} (hlone : ((s.lport l).txq.filter fun g => g.prio == prio) = [f])
    (hptp : f.ptp = none) (hsec : s.on Reg.ETH_MACSEC_CTRL.EN (f.lport / 4) = false) :
    Sends s (s.unpause l prio) (.frame f.lport f.bytes) := by
  unfold State.unpause
  extract_lets p go t
  have hgo : go = [f] := hlone
  have sends : Sends t (t.emitFrame f) (.frame f.lport f.bytes) := State.emitFrame_sends hptp (.inr hsec)
  rw [hgo]
  exact Sends.earlier (s := t) (List.suffix_refl _) (sends.later (State.releasePackets_frame (ps := Part.every) _ (.refl _ _) rfl).sent)

/-! XOFF (R41) -/

/-- PFC on one logical port, where its front port generates PFC. -/
def State.pfcAt (s : State) (xoff : Bool) (l : Nat) : State :=
  if s.on Reg.ETH_PFC_CTRL.GEN_EN (l / 4) then
    s.send (.pfc l (s.rd Reg.ETH_PFC_CTRL.ROCE_PRIO (l / 4)) (if xoff then s.rd Reg.ETH_PFC_CTRL.QUANTA (l / 4) else 0))
  else s

theorem State.sendPfc_eq (s : State) (xoff : Bool) : s.sendPfc xoff = s.portsInUse.foldl (fun s l => s.pfcAt xoff l) s := rfl

theorem State.pfcAt_within (s : State) (xoff : Bool) (l : Nat) : Within [.out] s (s.pfcAt xoff l) := by
  unfold State.pfcAt
  exact .ite (State.send_frame _ (.refl _ _) rfl) (.refl _ _)

/-- XOFF over a list of ports is sent on each of them that generates PFC. -/
theorem State.pfcAts_send {l : Nat} (ports : List Nat) (s : State) (hl : l ∈ ports)
    (hgen : s.on Reg.ETH_PFC_CTRL.GEN_EN (l / 4) = true) : Sends s (ports.foldl (fun s l => s.pfcAt true l) s)
      (.pfc l (s.rd Reg.ETH_PFC_CTRL.ROCE_PRIO (l / 4)) (s.rd Reg.ETH_PFC_CTRL.QUANTA (l / 4))) := by
  induction ports generalizing s with
  | nil => exact absurd hl List.not_mem_nil
  | cons k r ih =>
    have now := s.pfcAt_within true k
    rcases List.mem_cons.1 hl with rfl | hl
    · have sends : Sends s (s.pfcAt true l) (.pfc l (s.rd Reg.ETH_PFC_CTRL.ROCE_PRIO (l / 4)) (s.rd Reg.ETH_PFC_CTRL.QUANTA (l / 4))) := by
        rw [State.pfcAt, if_pos hgen]
        exact .refl_send ..
      exact sends.later (Within.foldl r (.refl [.out] _) fun u k => u.pfcAt_within true k).sent
    · have hregs (f : RField) : (s.pfcAt true k).rd f (l / 4) = s.rd f (l / 4) := State.rd_congr (now.only.regs_eq rfl) ..
      have sends := ih (s.pfcAt true k) hl (by rw [State.on_of_rd (hregs _), hgen])
      rw [hregs, hregs] at sends
      exact sends.earlier now.sent

/-! Links (R36, R37, R69) -/

/-- A link that changes flips its bit of LINK_UP and sets its bit of LINK_CHANGE. -/
theorem linkChange_flips {s : State} {l : Nat} {up : Bool}
    (hup : up = false ∨ s.on Reg.ETH_LINK_STATUS.MAP_ERR (l / 4) = false ∧ l ∈ s.portsInUse)
    (hnew : (s.rd Reg.ETH_LINK_STATUS.LINK_UP (l / 4)).testBit (l % 4) ≠ up) : exec (.linkChange l up) s =
      .next ((s.wr Reg.ETH_LINK_STATUS.LINK_UP (s.rd Reg.ETH_LINK_STATUS.LINK_UP (l / 4) ^^^ 2 ^ (l % 4)) (l / 4)).raise
        Reg.ETH_LINK_STATUS.LINK_CHANGE (2 ^ (l % 4)) (l / 4)) := by
  show execLinkChange l up s = _
  unfold execLinkChange
  extract_lets port bit old
  rw [if_neg]
  rcases hup with h | ⟨hmap, hport⟩
  · simp [old, port, h] at hnew ⊢
    exact hnew
  · simp [old, port, hmap, hport, Ne.symm hnew]

theorem linkChange_shows {s : State} {l : Nat} {up : Bool}
    (hup : up = false ∨ s.on Reg.ETH_LINK_STATUS.MAP_ERR (l / 4) = false ∧ l ∈ s.portsInUse) : Answers (.linkChange l up) s fun t =>
      (t.rd Reg.ETH_LINK_STATUS.LINK_UP (l / 4)).testBit (l % 4) = up ∧
      ((s.rd Reg.ETH_LINK_STATUS.LINK_UP (l / 4)).testBit (l % 4) ≠ up →
        (t.rd Reg.ETH_LINK_STATUS.LINK_CHANGE (l / 4)).testBit (l % 4) = true) := by
  have hbit : l % 4 < 4 := Nat.mod_lt _ (by decide)
  by_cases hnew : (s.rd Reg.ETH_LINK_STATUS.LINK_UP (l / 4)).testBit (l % 4) = up
  · refine .of_eq (t := s) ?_ ⟨hnew, fun h => absurd hnew h⟩
    show execLinkChange l up s = _
    simp [execLinkChange, hnew]
  · refine .of_eq (linkChange_flips hup hnew) ⟨?_, fun _ => ?_⟩
    · rw [State.rd_raise_field _ _ _ _ _ _ _ (by decide), State.rd_wr_same, show Reg.ETH_LINK_STATUS.LINK_UP.width = 4 from rfl,
        Nat.testBit_mod_two_pow, Nat.testBit_xor, Nat.testBit_two_pow_self]
      simp [hbit, Bool.eq_not_of_ne hnew]
    · rw [State.rd_raise_same, show Reg.ETH_LINK_STATUS.LINK_CHANGE.width = 4 from rfl, Nat.testBit_mod_two_pow, Nat.testBit_or,
        Nat.testBit_two_pow_self]
      simp [hbit]

/-- Settles O55, command by command: the links, the priorities that PFC stops and lets go on, and XOFF on each port. -/
theorem portFlow : Obligations.PortFlow := by
  unfold Obligations.PortFlow
  refine ⟨fun s => ⟨rfl, .of_eq rfl ⟨?keys, ?counts⟩⟩, fun s l up => ⟨?down, linkChange_shows⟩, fun s l times => ⟨fun h => ?stops, fun h => ?ignored⟩,
    fun s l p hon => ?goes, fun s l p => ?expiry, fun s => ⟨fun hx => ?xoff, fun hx => ?xon⟩⟩
  case keys => simp [Table.mapVals, Function.comp_def]
  case counts =>
    intro e he
    obtain ⟨x, -, rfl⟩ := List.mem_map.1 he
    rfl
  case down =>
    intro hup h
    show execLinkChange l up s = _
    rcases h with h | h <;> simp [execLinkChange, hup, h]
  case stops => exact .of_eq (execPfcReceive_eq l times s) (State.pfcEntries_stop l times h s).2
  case ignored => rw [execPfcReceive_eq, State.pfcEntries_ignored l times s h]
  case goes =>
    refine .of_eq (execPfcReceive_eq l [(p, 0)] s) ?_
    rw [List.foldl_cons, List.foldl_nil, State.pfcEntry, if_pos hon]
    exact s.not_mem_unpause l p
  case expiry => exact .of_eq rfl ⟨s.not_mem_unpause l p, fun f => State.unpause_sends⟩
  case xoff =>
    refine .of_eq (t := s.sendPfc true) ?_ fun l hl hgen => State.pfcAts_send s.portsInUse s hl hgen
    show execXoffRefresh s = _
    rw [execXoffRefresh, if_pos hx]
  case xon =>
    show execXoffRefresh s = _
    simp [execXoffRefresh, hx]

end Sys2Proof.Machine
end

section
/-!
Frames that a front port sends (O56): under MACsec, with a PTP stamp, and the transmit stamps that software reads.
-/
namespace Sys2Proof.Machine
open Sys2Proof

/-- A frame on a priority that is not paused leaves at once. -/
theorem frameTransmit_free {s : State} {f : TxFrame} (h : f.prio ∉ (s.lport f.lport).paused) :
    exec (.frameTransmit f) s = .next (s.emitFrame f) := by
  show execFrameTransmit f s = _
  simp [execFrameTransmit, State.transmitFrame, h]

/-- A frame on a paused priority joins those that wait at its port. -/
theorem State.transmitFrame_paused {s : State} {f : TxFrame} (h : f.prio ∈ (s.lport f.lport).paused) :
    ((s.transmitFrame f).lport f.lport).txq = (s.lport f.lport).txq ++ [f] := by
  simp [State.transmitFrame, h, State.lport_setLPort]

theorem State.frameDone_ports (s : State) (f : TxFrame) (ok : Bool) (stamp : Option Nat) (l : Nat) :
    (s.frameDone f ok stamp).lport l = s.lport l := Within.lport_eq (State.frameDone_frame _ _ _ (.refl _ _) rfl) l

/-! Under MACsec (R43, R44) -/

/-- One frame that an association may send takes its packet number; what else is noted leaves the port's outputs and other ports as they are. -/
theorem State.secTake_one {s : State} {l : Nat} {a : SecAssoc} (hon : s.on Reg.ETH_MACSEC_CTRL.EN (l / 4) = true)
    (ha : Table.find (s.lport l).txAn (s.lport l).txSa = some a) (hen : a.enabled = true) (hpn : a.nextPn < 2 ^ 64 - 1) :
    (s.secTake l).1 = .protect a [{ an := (s.lport l).txAn, pn := a.nextPn, sci := s.on Reg.ETH_MACSEC_CTRL.SEND_SCI (l / 4) }] ∧
    (Table.find (s.lport l).txAn ((s.secTake l).2.lport l).txSa).map SecAssoc.nextPn = some (a.nextPn + 1) := by
  have hone : min 1 (2 ^ 64 - 1 - a.nextPn) = 1 := by omega
  have hless : ¬ 2 ^ 64 - 1 ≤ a.nextPn := by omega
  simp only [State.secTake, hon, ha, hen, decide_eq_false hless, hone]
  refine ⟨rfl, ?_⟩
  simp only [Bool.not_true, Bool.or_self, Bool.false_eq_true, if_false]
  have hport (b : Bool) (u : State) (o : Out) : (if b then u.send o else u).lport l = u.lport l := by cases b <;> rfl
  rw [hport, State.lport_setLPort, Table.find_put_same]
  rfl

theorem State.wireFrame_secured {s : State} {f : TxFrame} {a : SecAssoc} {tag : SecOut} (he : f.eapol = false)
    (h : (s.secTake f.lport).1 = .protect a [tag]) (bytes : List Byte) :
    s.wireFrame f bytes = (true, (s.secTake f.lport).2.send (.frame f.lport (securedFrame a tag bytes))) := by
  unfold State.wireFrame
  rw [if_neg (by simp [he])]
  generalize s.secTake f.lport = r at h
  obtain ⟨w, t⟩ := r
  cases h
  rfl

theorem State.wireFrame_dropped {s : State} {f : TxFrame} (he : f.eapol = false) (h : s.Drops f.lport) (bytes : List Byte) :
    s.wireFrame f bytes = (false, s) := by
  simp [State.wireFrame, he, h.secTake]

theorem frameTransmit_secured {s : State} {f : TxFrame} {a : SecAssoc} (hprio : f.prio ∉ (s.lport f.lport).paused) (hptp : f.ptp = none)
    (he : f.eapol = false) (hon : s.on Reg.ETH_MACSEC_CTRL.EN (f.lport / 4) = true)
    (ha : Table.find (s.lport f.lport).txAn (s.lport f.lport).txSa = some a) (hen : a.enabled = true) (hpn : a.nextPn < 2 ^ 64 - 1) :
    Answers (.frameTransmit f) s fun t =>
      Sends s t (.frame f.lport (securedFrame a { an := (s.lport f.lport).txAn, pn := a.nextPn, sci := s.on Reg.ETH_MACSEC_CTRL.SEND_SCI (f.lport / 4) } f.bytes)) ∧
      (Table.find (s.lport f.lport).txAn (t.lport f.lport).txSa).map SecAssoc.nextPn = some (a.nextPn + 1) := by
  obtain ⟨htag, hnext⟩ := State.secTake_one hon ha hen hpn
  refine .of_eq (frameTransmit_free hprio) ?_
  rw [State.emitFrame_no_ptp hptp, State.wireFrame_secured he htag, State.frameDone_ports]
  exact ⟨((Sends.refl_send ..).later (State.frameDone_sent ..)).earlier (State.secTake_ports ..).sent, hnext⟩

theorem frameTransmit_dropped {s : State} {f : TxFrame} (hprio : f.prio ∉ (s.lport f.lport).paused) (hptp : f.ptp = none)
    (he : f.eapol = false) (hdrop : s.Drops f.lport) (hcmd : f.cmd = none) : exec (.frameTransmit f) s = .next s := by
  rw [frameTransmit_free hprio, State.emitFrame_no_ptp hptp, State.wireFrame_dropped he hdrop, State.frameDone, hcmd]

/-! PTP messages (R46, R47) -/

theorem State.showStamp_within (s : State) (port : Nat) : Within [.block 8] s (s.showStamp port) := State.showStamp_frame _ (.refl _ _) rfl

/-- An egress stamp joins its port's FIFO, over the oldest where 16 stand there. -/
theorem State.pushStamp_stamps (s : State) (port : Nat) (e : StampEntry) : Table.get port [] (s.pushStamp port e).trn.stamps =
    (if (Table.get port [] s.trn.stamps).length < 16 then Table.get port [] s.trn.stamps
      else (Table.get port [] s.trn.stamps).drop 1) ++ [e] := by
  unfold State.pushStamp
  extract_lets l t v u
  have ht : t.trn = s.trn := by
    show (if _ then _ else _ : State).trn = _
    split <;> rfl
  have hu : Table.get port [] u.trn.stamps = (if 16 ≤ l.length then l.drop 1 else l) ++ [e] := by
    show Table.get port [] (State.showStamp _ port).trn.stamps = _
    rw [(State.showStamp_within ..).only.trn rfl]
    exact Table.get_put_same ..
  have hraise (b : Prop) [Decidable b] : (if b then u.raise Reg.ETH_PTP_TX_STAMP_HI.VALID 1 port else u).trn = u.trn := by
    split <;> rfl
  rw [hraise, hu]
  show _ = (if l.length < 16 then l else l.drop 1) ++ [e]
  split
  · rw [if_neg (by omega)]
  · rw [if_pos (by omega)]

theorem State.emitFrame_oneStep {s : State} {f : TxFrame} {m : PtpMsg} {x : Nat} (hm : f.ptp = some m) (hx : s.ptpStamp f.lport f.ptp = some x)
    (hstep : s.on Reg.ETH_PTP_CTRL.ONE_STEP (f.lport / 4) = true) (ht : m.msgType = 0 ∨ m.msgType = 3)
    (hplain : f.eapol = true ∨ s.on Reg.ETH_MACSEC_CTRL.EN (f.lport / 4) = false) :
    s.emitFrame f = (s.send (.frame f.lport (oneStep m x f.residence f.bytes))).frameDone f true (some x) := by
  have ht' : (m.msgType == 0 || m.msgType == 3) = true := by simpa using ht
  rw [hm] at hx
  simp only [State.emitFrame, hm, hx, hstep, ht', Bool.and_self, if_true, State.wireFrame_plain hplain]

theorem State.emitFrame_stamped {s : State} {f : TxFrame} {m : PtpMsg} {x : Nat} (hm : f.ptp = some m) (hx : s.ptpStamp f.lport f.ptp = some x)
    (htwo : s.on Reg.ETH_PTP_CTRL.ONE_STEP (f.lport / 4) = false ∨ m.msgType = 1 ∨ m.msgType = 2)
    (hplain : f.eapol = true ∨ s.on Reg.ETH_MACSEC_CTRL.EN (f.lport / 4) = false) :
    s.emitFrame f = ((s.send (.frame f.lport f.bytes)).pushStamp (f.lport / 4)
      { stamp := x, seqId := m.seqId, msgType := m.msgType, domain := m.domain, subport := f.lport % 4 }).frameDone f true (some x) := by
  have htwo' : (s.on Reg.ETH_PTP_CTRL.ONE_STEP (f.lport / 4) && (m.msgType == 0 || m.msgType == 3)) = false := by
    rcases htwo with h | h | h <;> simp [h]
  rw [hm] at hx
  simp only [State.emitFrame, hm, hx, htwo', Bool.false_eq_true, if_false, if_true, State.wireFrame_plain hplain]

theorem frameTransmit_oneStep {s : State} {f : TxFrame} {m : PtpMsg} {x : Nat} (hprio : f.prio ∉ (s.lport f.lport).paused)
    (hm : f.ptp = some m) (hx : s.ptpStamp f.lport f.ptp = some x) (hstep : s.on Reg.ETH_PTP_CTRL.ONE_STEP (f.lport / 4) = true)
    (ht : m.msgType = 0 ∨ m.msgType = 3) (hplain : f.eapol = true ∨ s.on Reg.ETH_MACSEC_CTRL.EN (f.lport / 4) = false) :
    Answers (.frameTransmit f) s fun t => Sends s t (.frame f.lport (oneStep m x f.residence f.bytes)) := by
  refine .of_eq (frameTransmit_free hprio) ?_
  rw [State.emitFrame_oneStep hm hx hstep ht hplain]
  exact (Sends.refl_send ..).later (State.frameDone_sent ..)

theorem frameTransmit_stamped {s : State} {f : TxFrame} {m : PtpMsg} {x : Nat} (hprio : f.prio ∉ (s.lport f.lport).paused)
    (hm : f.ptp = some m) (hx : s.ptpStamp f.lport f.ptp = some x)
    (htwo : s.on Reg.ETH_PTP_CTRL.ONE_STEP (f.lport / 4) = false ∨ m.msgType = 1 ∨ m.msgType = 2)
    (hplain : f.eapol = true ∨ s.on Reg.ETH_MACSEC_CTRL.EN (f.lport / 4) = false) :
    Answers (.frameTransmit f) s fun t => Sends s t (.frame f.lport f.bytes) ∧ Table.get (f.lport / 4) [] t.trn.stamps =
      (if (Table.get (f.lport / 4) [] s.trn.stamps).length < 16 then Table.get (f.lport / 4) [] s.trn.stamps
        else (Table.get (f.lport / 4) [] s.trn.stamps).drop 1) ++
      [{ stamp := x, seqId := m.seqId, msgType := m.msgType, domain := m.domain, subport := f.lport % 4 }] := by
  refine .of_eq (frameTransmit_free hprio) ?_
  rw [State.emitFrame_stamped hm hx htwo hplain,
    (State.frameDone_frame (ps := Part.but [.trn]) _ _ _ (.refl _ _) rfl).only.trn rfl, State.pushStamp_stamps]
  refine ⟨((Sends.refl_send ..).later ?_).later (State.frameDone_sent ..), rfl⟩
  exact (State.pushStamp_frame (ps := Part.every) _ _ (.refl _ _) rfl).sent

/-! The transmit stamps that software reads (R47, R69, R502) -/

/-- A read clears OVERFLOW where it was not set in this clock. -/
theorem State.popStamp_overflow {s : State} {port : Nat} (h : s.stampRaised Reg.ETH_PTP_TX_STAMP_HI.OVERFLOW port = false) :
    (s.popStamp port).on Reg.ETH_PTP_TX_STAMP_HI.OVERFLOW port = false := by
  unfold State.popStamp
  simp only [h, Bool.false_eq_true, if_false]
  generalize hu : s.wr Reg.ETH_PTP_TX_STAMP_HI.OVERFLOW 0 port = u
  have hclear : u.on Reg.ETH_PTP_TX_STAMP_HI.OVERFLOW port = false := by
    rw [← hu, State.on_wr_same]
    rfl
  split
  · exact hclear
  · unfold State.showStamp
    extract_lets e z x v w
    simp only [w, v]
    repeat rw [State.on_wr_field _ _ _ _ _ _ _ _ (by decide)]
    exact hclear

/-- A read takes the oldest stamp that stood before this clock. -/
theorem State.popStamp_stamps (s : State) (port : Nat) : Table.get port [] (s.popStamp port).trn.stamps =
    if s.stampRaised Reg.ETH_PTP_TX_STAMP_HI.VALID port then Table.get port [] s.trn.stamps else (Table.get port [] s.trn.stamps).drop 1 := by
  unfold State.popStamp
  extract_lets u
  have hu : u.trn = s.trn ∧ u.holding = s.holding := by
    show (if _ then _ else _ : State).trn = _ ∧ (if _ then _ else _ : State).holding = _
    split <;> exact ⟨rfl, rfl⟩
  have hraised : u.stampRaised Reg.ETH_PTP_TX_STAMP_HI.VALID port = s.stampRaised Reg.ETH_PTP_TX_STAMP_HI.VALID port := by
    unfold State.stampRaised State.raisedBits
    rw [hu.2]
  rw [hraised]
  split
  · rw [hu.1]
  · rw [(State.showStamp_within ..).only.trn rfl]
    exact (Table.get_put_same ..).trans (by rw [hu.1])

theorem ptpTxStampRead_unanswered {s : State} {p : Nat} (h : s.writable 8 = false) :
    exec (.ptpTxStampRead p) s = .next (s.send (.readValue (Reg.ETH_PTP_TX_STAMP_HI.VALID.addr p 0) 0)) := by
  show execPtpTxStampRead p s = _
  simp [execPtpTxStampRead, h]

theorem ptpTxStampRead_eq {s : State} {p : Nat} (h : s.writable 8 = true) : exec (.ptpTxStampRead p) s =
    .next ((s.send (.readValue (Reg.ETH_PTP_TX_STAMP_HI.VALID.addr p 0) (s.stampWord p))).popStamp p) := by
  show execPtpTxStampRead p s = _
  simp [execPtpTxStampRead, h]

/-- Settles O56: a frame that waits, leaves as it is, under MACsec or with its stamp; and the read of a stamp. -/
theorem frameTransmission : Obligations.FrameTransmission := by
  unfold Obligations.FrameTransmission
  refine ⟨fun s f => ⟨fun h => .of_eq rfl (State.transmitFrame_paused h), fun hprio hptp hplain => ?plain⟩,
    fun s f p hp hprio hptp he hon => ⟨fun a ha hen hpn => ?secured, fun hnone hcmd => ?dropped⟩,
    fun s f m x hprio hm hx hplain => ⟨fun hstep ht => frameTransmit_oneStep hprio hm hx hstep ht hplain,
      fun htwo => frameTransmit_stamped hprio hm hx htwo hplain⟩,
    fun s p => ⟨fun h => ?read, ptpTxStampRead_unanswered⟩⟩
  case plain => exact .of_eq (frameTransmit_free hprio) (State.emitFrame_sends hptp hplain)
  case secured =>
    subst hp
    exact frameTransmit_secured hprio hptp he hon ha hen hpn
  case dropped =>
    subst hp
    refine frameTransmit_dropped hprio hptp he ⟨hon, fun a ha => ?_⟩ hcmd
    rw [Bool.or_eq_true, Bool.not_eq_true', decide_eq_true_eq]
    exact hnone a ha
  case read =>
    refine .of_eq (ptpTxStampRead_eq h) ⟨?_, fun hraised => State.popStamp_overflow hraised, State.popStamp_stamps ..⟩
    exact (Sends.refl_send ..).later (State.popStamp_frame (ps := Part.every) _ (.refl _ _) rfl).sent

end Sys2Proof.Machine
end

section
/-!
DDR bytes that a command leaves alone (O51): the frame of a run of bytes, of the payloads that are placed, and of each command that stores.
-/
namespace Sys2Proof.Machine
open Sys2Proof

/-! Runs of bytes -/

/-- Every byte of DDR at an address of a set reads in `t` as in `s`. -/
structure BytesKept (kept : Nat → Prop) (s t : State) : Prop where
  read : ∀ y, kept y → Memory.read t.mem y = Memory.read s.mem y

theorem BytesKept.of_mem {kept : Nat → Prop} {s t : State} (h : t.mem = s.mem) : BytesKept kept s t := ⟨fun _ _ => by rw [h]⟩

theorem BytesKept.refl (kept : Nat → Prop) (s : State) : BytesKept kept s s := .of_mem rfl

theorem BytesKept.trans {kept : Nat → Prop} {s t u : State} (h : BytesKept kept s t) (g : BytesKept kept t u) : BytesKept kept s u :=
  ⟨fun y hy => (g.read y hy).trans (h.read y hy)⟩

theorem BytesKept.mono {kept kept' : Nat → Prop} {s t : State} (h : BytesKept kept s t) (hk : ∀ y, kept' y → kept y) : BytesKept kept' s t :=
  ⟨fun y hy => h.read y (hk y hy)⟩

/-- Work that leaves DDR alone keeps what is kept. -/
theorem BytesKept.frame {kept : Nat → Prop} {s t u : State} (h : BytesKept kept s t) (g : Within (Part.but [.mem]) t u) : BytesKept kept s u :=
  h.trans (.of_mem (g.only.mem rfl))

theorem State.ddrWriteList_within (s : State) (a : Nat) (b : List Byte) : Within [.mem] s (s.ddrWriteList a b) :=
  State.ddrWriteList_frame _ _ (.refl _ _) rfl

/-- One byte stored leaves every other alone. -/
theorem State.ddrWrite_kept (s : State) (a : Nat) (b : Byte) : BytesKept (· ≠ a) s (s.ddrWrite a b) := by
  unfold State.ddrWrite
  split
  · exact .refl _ s
  · exact ⟨fun y hy => Memory.read_write_other hy ..⟩

/-- A run of bytes stored leaves every byte outside it alone. -/
theorem State.ddrWriteList_kept (s : State) (a : Nat) (b : List Byte) :
    BytesKept (fun y => y < a ∨ a + b.length ≤ y) s (s.ddrWriteList a b) := by
  induction b generalizing s a with
  | nil => exact .refl _ s
  | cons x r ih =>
    have hlen : (x :: r).length = r.length + 1 := rfl
    exact ((s.ddrWrite_kept a x).mono fun y hy => by omega).trans ((ih ..).mono fun y hy => by omega)

/-- A run that lies within `n` bytes from an address. -/
theorem State.ddrWriteList_kept_within (s : State) {a n : Nat} {b : List Byte} (h : b.length ≤ n) :
    BytesKept (fun y => y < a ∨ a + n ≤ y) s (s.ddrWriteList a b) := (s.ddrWriteList_kept a b).mono fun y hy => by omega

@[simp] theorem le_length (n v : Nat) : (le n v).length = n := by simp [le]

/-! DMA bursts (R409, R410) -/

theorem groupsOf_length_le (n fuel : Nat) (b : List Byte) : (groupsOf n fuel b).flatten.length ≤ b.length := by
  induction fuel generalizing b with
  | zero => simp [groupsOf]
  | succ fuel ih =>
    rw [groupsOf]
    split
    · simp
    · have later := ih (b.drop n)
      rw [List.flatten_cons, List.length_append, List.length_take]
      rw [List.length_drop] at later
      omega

/-- A unit swapped is no longer than it was. -/
theorem swapOne_length_le (mode : Nat) (u : List Byte) : (swapOne mode u).length ≤ u.length := by
  unfold swapOne
  split
  · rw [List.length_flatten, List.map_reverse, List.sum_reverse, ← List.length_flatten]
    exact groupsOf_length_le ..
  · rw [List.length_reverse]

/-- Bytes swapped are no more than they were. -/
theorem swapBytes_length_le (mode : Nat) (b : List Byte) : (swapBytes mode b).length ≤ b.length := by
  refine Nat.le_trans ?_ (groupsOf_length_le (swapUnit mode) b.length b)
  unfold swapBytes
  induction groupsOf (swapUnit mode) b.length b with
  | nil => simp
  | cons u r ih =>
    have one := swapOne_length_le mode u
    simp only [List.flatMap_cons, List.flatten_cons, List.length_append]
    omega

/-- Where in its source the burst at an offset of a transfer lies (R408). -/
def DmaDesc.srcAt (d : DmaDesc) (off : Nat) : Nat := d.src + off / d.lineLen * d.srcStride + off % d.lineLen

/-- Where in its destination the burst at an offset of a transfer lies (R408). -/
def DmaDesc.dstAt (d : DmaDesc) (off : Nat) : Nat := d.dst + off / d.lineLen * d.dstStride + off % d.lineLen

/-- Whether a burst reads a lost line of DDR (R466). -/
def State.burstDead (s : State) (d : DmaDesc) (off len : Nat) : Bool :=
  match s.dmaAddr d.srcSpace d.srcKey (d.srcAt off) with
  | some a => s.touchesLost a len
  | none => false

/-- The bytes that a burst brings: read from DDR at its source, or as the host returned them. -/
def State.burstData (s : State) (d : DmaDesc) (off len : Nat) (host : List Byte) : List Byte :=
  match s.dmaAddr d.srcSpace d.srcKey (d.srcAt off) with
  | some a => s.ddrReadList a len
  | none => (host ++ zeros len).take len

/-- The bytes of a burst stored at its destination, in DDR or in host memory. -/
def State.storeBurst (s : State) (x : DmaXfer) (off : Nat) (data : List Byte) : State :=
  match s.dmaAddr x.desc.dstSpace x.desc.dstKey (x.desc.dstAt off) with
  | some a => s.ddrWriteList a data
  | none => s.sendHost (.hostWrite x.cmd.slice (x.desc.dstAt off) data)

theorem State.burstData_length (s : State) (d : DmaDesc) (off len : Nat) (host : List Byte) : (s.burstData d off len host).length ≤ len := by
  unfold State.burstData
  split
  · simp [State.ddrReadList]
  · simp

/-- A burst from a lost line fails; any other stores its bytes, and its channel goes on. -/
theorem dmaBurstDone_eq {s : State} {k off len : Nat} {x : DmaXfer} {r : List (Nat × Nat)} (host : List Byte)
    (hcur : (s.channel k).cur = some x) (hflight : x.flight = (off, len) :: r) : ∃ ch, exec (.dmaBurstDone k host none) s =
      .next (if s.burstDead x.desc off len then s.failBurst k 0x2005
        else (((((s.storeBurst x off (swapBytes x.desc.swap (s.burstData x.desc off len host))).bump Reg.DMA_BYTES.BYTES len).setChannel k
          ch).settleChannel k).settleAts)) := by
  refine ⟨{ s.channel k with cur := some { x with flight := r, done := x.done + len } }, ?_⟩
  rw [apply_ite Host.Outcome.next]
  show execDmaBurstDone k host none s = _
  simp only [execDmaBurstDone, hcur, hflight]
  rfl

/-- A burst's end leaves DDR as the stored burst has it, or as it was. -/
theorem dmaBurstDone_stores {s : State} {k off len : Nat} {x : DmaXfer} {r : List (Nat × Nat)} (host : List Byte)
    (hcur : (s.channel k).cur = some x) (hflight : x.flight = (off, len) :: r) : ∃ data u, data.length ≤ len ∧
      exec (.dmaBurstDone k host none) s = .next u ∧ (u.mem = s.mem ∨ u.mem = (s.storeBurst x off data).mem) := by
  obtain ⟨ch, h⟩ := dmaBurstDone_eq host hcur hflight
  refine ⟨swapBytes x.desc.swap (s.burstData x.desc off len host), _, (swapBytes_length_le ..).trans (s.burstData_length x.desc off len host), h, ?_⟩
  split
  · exact .inl ((State.failBurst_frame (ps := Part.but [.mem]) _ _ (.refl _ _) rfl).only.mem rfl)
  · exact .inr ((State.settleAts_frame (ps := Part.but [.mem]) (State.settleChannel_frame _ (State.setChannel_frame _ _
      (State.bump_frame _ _ _ _ (.refl _ _) rfl) rfl) rfl) rfl).only.mem rfl)

/-- A burst into DDR keeps every byte outside its own. -/
theorem dmaBurstDone_kept {s : State} {k off len a : Nat} {x : DmaXfer} {r : List (Nat × Nat)} (host : List Byte)
    (hcur : (s.channel k).cur = some x) (hflight : x.flight = (off, len) :: r)
    (hdst : s.dmaAddr x.desc.dstSpace x.desc.dstKey (x.desc.dstAt off) = some a) :
    Answers (.dmaBurstDone k host none) s (BytesKept (fun y => y < a ∨ a + len ≤ y) s) := by
  obtain ⟨data, u, hlen, h, hmem⟩ := dmaBurstDone_stores host hcur hflight
  refine .of_eq h ?_
  rcases hmem with hmem | hmem
  · exact .of_mem hmem
  · rw [State.storeBurst, hdst] at hmem
    exact (s.ddrWriteList_kept_within hlen).trans (.of_mem hmem)

/-- A burst to the host keeps DDR as it is. -/
theorem dmaBurstDone_toHost {s : State} {k off len : Nat} {x : DmaXfer} {r : List (Nat × Nat)} (host : List Byte)
    (hcur : (s.channel k).cur = some x) (hflight : x.flight = (off, len) :: r)
    (hdst : s.dmaAddr x.desc.dstSpace x.desc.dstKey (x.desc.dstAt off) = none) :
    Answers (.dmaBurstDone k host none) s fun t => t.mem = s.mem := by
  obtain ⟨data, u, -, h, hmem⟩ := dmaBurstDone_stores host hcur hflight
  refine .of_eq h (hmem.elim id fun hmem => hmem.trans ?_)
  rw [State.storeBurst, hdst]
  exact (State.sendHost_frame (ps := Part.but [.mem]) _ (.refl _ s) rfl).only.mem rfl

/-! Payloads that are placed (R62, R64) -/

/-- An address outside the payloads of a queue pair that wait to be placed. -/
def State.offPayloads (s : State) (n y : Nat) : Prop := ∀ p ∈ (s.qp n).placements, y < p.addr ∨ p.addr + p.bytes.length ≤ y

theorem State.qp_setQp_other (s : State) {n m : Nat} (q : Qp) (h : m ≠ n) : (s.setQp n q).qp m = s.qp m := Table.get_put_other h ..

/-- Payloads stored leave the queue pairs alone, and every byte outside them. -/
theorem storePayloads_kept (l : List Placement) (s : State) :
    BytesKept (fun y => ∀ p ∈ l, y < p.addr ∨ p.addr + p.bytes.length ≤ y) s (l.foldl (fun s p => s.ddrWriteList p.addr p.bytes) s) := by
  induction l generalizing s with
  | nil => exact .refl _ s
  | cons p r ih =>
    exact ((s.ddrWriteList_kept p.addr p.bytes).mono fun y hy => hy p List.mem_cons_self).trans
      ((ih _).mono fun y hy q hq => hy q (List.mem_cons_of_mem _ hq))

theorem storePayloads_within (l : List Placement) (s : State) : Within [.mem] s (l.foldl (fun s p => s.ddrWriteList p.addr p.bytes) s) :=
  .foldl l (.refl _ s) fun u p => u.ddrWriteList_within p.addr p.bytes

/-- Payloads placed leave those that the test does not name, and no queue pair else changes. -/
theorem State.qp_placeAll (s : State) (n : Nat) (which : Placement → Bool) : (s.placeAll n which).qp n =
    { s.qp n with placements := (s.qp n).placements.filter fun p => !which p } := State.qp_setQp ..

theorem State.qp_placeAll_other (s : State) {n m : Nat} (which : Placement → Bool) (h : m ≠ n) : (s.placeAll n which).qp m = s.qp m := by
  unfold State.placeAll
  extract_lets q t
  rw [State.qp_setQp_other _ _ h]
  unfold State.qp
  rw [(storePayloads_within ..).only.trn rfl]

/-- What waits to be placed after some payloads have been placed waited before. -/
theorem State.placements_placeAll (s : State) (n : Nat) (which : Placement → Bool) (m : Nat) {p : Placement}
    (h : p ∈ ((s.placeAll n which).qp m).placements) : p ∈ (s.qp m).placements := by
  by_cases hm : m = n
  · subst hm
    rw [State.qp_placeAll] at h
    exact List.mem_of_mem_filter h
  · rwa [State.qp_placeAll_other _ _ hm] at h

theorem State.placeAll_kept (s : State) (n : Nat) (which : Placement → Bool) : BytesKept (s.offPayloads n) s (s.placeAll n which) := by
  unfold State.placeAll
  extract_lets q t
  have stored : BytesKept (s.offPayloads n) s t := (storePayloads_kept _ s).mono fun y hy p hp => hy p (List.mem_of_mem_filter hp)
  exact stored.trans (.of_mem rfl)

/-- The payloads of several queue pairs placed leave every byte outside those of all queue pairs alone. -/
theorem State.placeAlls_kept (which : Placement → Bool) (l : List Nat) (s : State) :
    BytesKept (fun y => ∀ q, s.offPayloads q y) s (l.foldl (fun s q => s.placeAll q which) s) := by
  induction l generalizing s with
  | nil => exact .refl _ s
  | cons n r ih =>
    exact ((s.placeAll_kept n which).mono fun y hy => hy n).trans
      ((ih _).mono fun y hy q p hp => hy q p (s.placements_placeAll n which q hp))

theorem finalFlagProcess_kept (s : State) (n : Nat) : Answers (.finalFlagProcess n) s (BytesKept (s.offPayloads n) s) := by
  have placed := s.placeAll_kept n fun _ => true
  show ∃ t, execFinalFlagProcess n s = .next t ∧ _
  unfold execFinalFlagProcess
  extract_lets t q
  split
  · exact ⟨_, rfl, placed⟩
  · exact ⟨_, rfl, placed.frame (State.processFinal_frame _ _ (State.setQp_frame _ _ (.refl _ _) rfl) rfl)⟩

theorem invalidationComplete_kept (s : State) (n : Nat) :
    Answers (.invalidationComplete n) s (BytesKept (fun y => ∀ q, s.offPayloads q y) s) := by
  show ∃ t, execInvalidationComplete n s = .next t ∧ _
  unfold execInvalidationComplete
  split
  · exact ⟨_, rfl, (State.placeAlls_kept ..).frame (State.endInvalidation_frame _ (.refl _ _) rfl)⟩
  · exact ⟨_, rfl, .refl _ s⟩

/-! Images, histograms and tables -/

theorem firmwareImageDownload_kept {s : State} {n : Nat} {c : Cmd} (h : s.ready n .firmwareDownload = some c) :
    Answers (.firmwareImageDownload n) s (BytesKept (fun y => y < s.rd Reg.BOOT_FW_BASE.BASE + 4 * c.cap.cdw11 ∨
      s.rd Reg.BOOT_FW_BASE.BASE + 4 * c.cap.cdw11 + 4 * (c.cap.cdw10 + 1) ≤ y) s) := by
  refine .of_eq rfl ?_
  simp only [State.begin, h]
  have finished {u : State} (st : NvmeStatus) : Within (Part.but [.mem]) u (u.finish n st) := State.finish_frame _ _ (.refl _ _) rfl
  have begun (x : Cmd) : BytesKept (fun y => y < s.rd Reg.BOOT_FW_BASE.BASE + 4 * c.cap.cdw11 ∨
      s.rd Reg.BOOT_FW_BASE.BASE + 4 * c.cap.cdw11 + 4 * (c.cap.cdw10 + 1) ≤ y) s (s.setTag n x) := .of_mem rfl
  split
  · exact (begun _).frame (finished _)
  · refine BytesKept.frame ((begun _).trans ((State.ddrWriteList_kept_within _ (List.length_take_le ..)).mono fun y hy => ?_))
      ((State.wr_frame _ _ _ _ (.refl _ _) rfl).trans (finished _))
    exact hy

theorem State.histBytes_length (s : State) : s.histBytes.length = 65536 := by
  simp only [State.histBytes, List.length_flatMap, le_length, List.map_const', List.sum_replicate_nat, List.length_range]

theorem histSwap_kept (s : State) : Answers .histSwap s (BytesKept (fun y =>
      y < s.rd Reg.EVT_HIST_BASE.BASE + 65536 * ((s.rd Reg.EVT_HIST_STAT.SEQ + 1) % 2 ^ 32 % 2) ∨
        s.rd Reg.EVT_HIST_BASE.BASE + 65536 * ((s.rd Reg.EVT_HIST_STAT.SEQ + 1) % 2 ^ 32 % 2) + 65536 ≤ y) s) := by
  show ∃ t, execHistSwap s = .next t ∧ _
  unfold execHistSwap
  split
  · have stored := s.ddrWriteList_kept_within (a := s.rd Reg.EVT_HIST_BASE.BASE + 65536 * ((s.rd Reg.EVT_HIST_STAT.SEQ + 1) % 2 ^ 32 % 2))
      s.histBytes_length.le
    exact ⟨_, rfl, stored.frame (State.wr_frame _ _ _ _ (State.clearHist_frame (.refl _ _) rfl) rfl)⟩
  · exact ⟨_, rfl, .refl _ s⟩

theorem Acct.entry_length (a : Acct) : a.entry.length = 64 := by
  simp only [Acct.entry, withCrc, List.length_append, le_length]

theorem State.setAcct_kept (s : State) (tenant : Nat) (a : Acct) : BytesKept (fun y =>
      y < s.rd Reg.PRG_ACCT_BASE.BASE + 64 * tenant ∨ s.rd Reg.PRG_ACCT_BASE.BASE + 64 * tenant + 64 ≤ y) s (s.setAcct tenant a) := by
  unfold State.setAcct
  extract_lets prg t
  have ht : BytesKept (fun y => y < s.rd Reg.PRG_ACCT_BASE.BASE + 64 * tenant ∨ s.rd Reg.PRG_ACCT_BASE.BASE + 64 * tenant + 64 ≤ y) s t :=
    .of_mem rfl
  split
  · exact ht
  · exact ht.trans (t.ddrWriteList_kept_within (n := 64) a.entry_length.le)

theorem acctClear_kept {s : State} {v : Nat} (hone : v.testBit 13 = false) : Answers (.acctClear v) s (BytesKept (fun y =>
      y < s.rd Reg.PRG_ACCT_BASE.BASE + 64 * (v % 4096) ∨ s.rd Reg.PRG_ACCT_BASE.BASE + 64 * (v % 4096) + 64 ≤ y) s) := by
  show ∃ t, execAcctClear v s = .next t ∧ _
  unfold execAcctClear
  rw [hone]
  split
  · exact ⟨_, rfl, .refl _ s⟩
  · exact ⟨_, rfl, s.setAcct_kept ..⟩

/-! The directory (R342, R344) -/

theorem DirEntry.bytes_length (e : DirEntry) : e.bytes.length = 32 := by
  simp only [DirEntry.bytes, List.length_append, le_length, List.length_cons, List.length_nil]

/-- An address outside the entries of a directory in DDR. -/
def State.offDirectory (s : State) (dir : Table DirEntry) (y : Nat) : Prop :=
  ∀ e ∈ dir, y < s.rd Reg.XRN_DIR_BASE.BASE + 32 * e.1 ∨ s.rd Reg.XRN_DIR_BASE.BASE + 32 * e.1 + 32 ≤ y

theorem storeDirectory_kept (dir : Table DirEntry) (s : State) : BytesKept (s.offDirectory dir) s
    (dir.foldl (fun s e => s.ddrWriteList (s.rd Reg.XRN_DIR_BASE.BASE + 32 * e.1) e.2.bytes) s) := by
  induction dir generalizing s with
  | nil => exact .refl _ s
  | cons e r ih =>
    have now := s.ddrWriteList_within (s.rd Reg.XRN_DIR_BASE.BASE + 32 * e.1) e.2.bytes
    have stored := s.ddrWriteList_kept_within (a := s.rd Reg.XRN_DIR_BASE.BASE + 32 * e.1) e.2.bytes_length.le
    rw [List.foldl_cons]
    refine (stored.mono fun y hy => hy e List.mem_cons_self).trans ((ih _).mono fun y hy x hx => ?_)
    rw [now.only.rd _ _ _ rfl rfl]
    exact hy x (List.mem_cons_of_mem _ hx)

/-- A directory put in place leaves every byte outside its entries alone. -/
theorem State.setDir_kept (s : State) (dir : Table DirEntry) : BytesKept (s.offDirectory dir) s (s.setDir dir) := by
  unfold State.setDir
  extract_lets here hops on xrn t u v w
  have ht : Within [.ddp, .xrn, .chan, .out] s t :=
    State.sendOwed_frame (State.settleRemote_frame (.put (a := [.xrn]) (.refl _ s) rfl rfl rfl rfl rfl) rfl) rfl
  have hw : Within [.block 16, .ddp, .xrn, .chan, .out] s w :=
    State.wr_frame _ _ _ _ (State.wr_frame _ _ _ _ (State.wr_frame _ _ _ _ (ht.mono rfl) rfl) rfl) rfl
  have hbase : w.rd Reg.XRN_DIR_BASE.BASE = s.rd Reg.XRN_DIR_BASE.BASE := by
    show State.rd (State.wr _ _ _ _ _) _ _ _ = _
    rw [State.rd_wr_field _ _ _ _ _ _ _ _ (by decide), State.rd_wr_field _ _ _ _ _ _ _ _ (by decide),
      State.rd_wr_field _ _ _ _ _ _ _ _ (by decide), ht.only.rd _ _ _ rfl rfl]
  clear_value w
  have kept : BytesKept (s.offDirectory dir) s w := .of_mem (hw.only.mem rfl)
  split
  · exact kept
  · refine kept.trans ((storeDirectory_kept hops w).mono fun y hy e he => ?_)
    obtain ⟨x, hx, rfl⟩ := List.mem_map.1 he
    rw [hbase]
    exact hy x hx

theorem Table.find_mem {α : Type} {k : Nat} {v : α} {t : Table α} (h : Table.find k t = some v) : (k, v) ∈ t := by
  induction t with
  | nil => cases h
  | cons e r ih =>
    obtain ⟨a, x⟩ := e
    rw [Table.find] at h
    split at h
    · next ha =>
      cases h
      exact ha ▸ List.mem_cons_self
    · exact List.mem_cons_of_mem _ (ih h)

/-- A table with an entry changed has no new keys. -/
theorem Table.mem_modify {α : Type} {k : Nat} {f : α → α} {t : Table α} {e : Nat × α} (h : e ∈ Table.modify k f t) : ∃ x ∈ t, x.1 = e.1 := by
  unfold Table.modify at h
  split at h
  · next v hv =>
    rcases Table.mem_put h with rfl | h
    · exact ⟨_, Table.find_mem hv, rfl⟩
    · exact ⟨e, h, rfl⟩
  · exact ⟨e, h, rfl⟩

theorem leaveNotice_kept (s : State) (d : Nat) : Answers (.leaveNotice d) s (BytesKept (s.offDirectory s.xrn.dir) s) := by
  refine .of_eq rfl ?_
  unfold State.markGone
  split
  · exact .refl _ s
  · next a ha =>
    extract_lets t
    have kept : BytesKept (s.offDirectory s.xrn.dir) s t := (s.setDir_kept _).mono fun y hy e he => by
      obtain ⟨x, hx, hkey⟩ := Table.mem_modify he
      rw [← hkey]
      exact hy x hx
    split
    · exact kept.frame (State.broadcastDir_frame (.refl _ _) rfl)
    · exact kept

/-- Settles O51: each command keeps the bytes outside the runs that it stores. -/
theorem memoryStores : Obligations.MemoryStores := by
  unfold Obligations.MemoryStores
  refine ⟨fun s k h x off len r hcur hflight => ?burst, fun s n => ⟨?final, ?invalidation⟩, fun s n c h => ?download, fun s => ?hist,
    fun s v h => ?acct, fun s d => ?leave⟩
  case burst =>
    cases hdst : s.dmaAddr x.desc.dstSpace x.desc.dstKey (x.desc.dstAt off) with
    | some a =>
      refine (dmaBurstDone_kept h hcur hflight hdst).imp fun t ht => ?_
      rw [DmaDesc.dstAt] at hdst
      rw [hdst]
      exact ht.read
    | none =>
      refine (dmaBurstDone_toHost h hcur hflight hdst).imp fun t ht => ?_
      rw [DmaDesc.dstAt] at hdst
      rw [hdst]
      exact ht
  case final => exact (finalFlagProcess_kept s n).imp fun _ ht => ht.read
  case invalidation => exact (invalidationComplete_kept s n).imp fun _ ht => ht.read
  case download => exact (firmwareImageDownload_kept h).imp fun _ ht => ht.read
  case hist => exact (histSwap_kept s).imp fun _ ht => ht.read
  case acct => exact (acctClear_kept h).imp fun _ ht => ht.read
  case leave => exact (leaveNotice_kept s d).imp fun _ ht => ht.read

end Sys2Proof.Machine
end

section
/-!
Queue-pair rates, contexts and timers (O5): a fetch leaves its own queue pair's place, a context that fails, and what the timers send.
-/
namespace Sys2Proof.Machine
open Sys2Proof

/-! Failures -/

/-- A queue pair that fails in a state fails from an earlier one with the same slice, which could take events no better. -/
theorem Fails.earlier {r s t : State} {n x : Nat} (h : Fails s t n x) (hq : (s.qp n).slice = (r.qp n).slice) (hk : EventsKept r s)
    (hout : r.out <:+ s.out) : Fails r t n x := by
  obtain ⟨herr, hpost⟩ := h
  refine ⟨herr, fun htakes => ?_⟩
  rw [hq] at hpost
  obtain ⟨hd, r1, p, hs⟩ := hpost (hk.takes _ htakes)
  exact ⟨hd, r1, p, hs.earlier hout⟩

/-- What leaves the host's side and the queue pairs alone takes nothing from a failure that follows. -/
theorem Fails.before {r s t : State} {n x : Nat} (h : Fails s t n x) (g : Within (Part.but [.host]) r s)
    (hq : (s.qp n).slice = (r.qp n).slice) : Fails r t n x := h.earlier hq (.of_host (g.only.host rfl)) g.sent

/-! Contexts (R54 to R56) -/

/-- A fetch that starts takes nothing of its own queue pair to the leaving ones. -/
theorem State.startFetch_leaving (s : State) (q : Nat) : (s.startFetch q).trn.leaving.count q = s.trn.leaving.count q := by
  unfold State.startFetch
  split
  · rfl
  next hmiss =>
  split
  · rfl
  split
  · next v hv =>
    have hmem : v ∈ s.dieSet (qpSet q) := List.mem_reverse.1 (List.mem_of_find?_eq_some hv)
    have hne : v ≠ q := by
      rintro rfl
      exact hmiss (by simp [State.onDie, hmem])
    show (s.trn.leaving ++ [v]).count q = _
    rw [List.count_append, List.count_singleton]
    simp [hne]
  · split <;> rfl

theorem contextWritebackAck_leaves {s : State} {q : Nat} (h : q ∈ s.trn.leaving) : Answers (.contextWritebackAck q) s fun t =>
    t.trn.leaving.count q + 1 = s.trn.leaving.count q := by
  have hcount : 0 < s.trn.leaving.count q := List.count_pos_iff.2 h
  have herase : (s.trn.leaving.erase q).count q + 1 = s.trn.leaving.count q := by
    rw [List.count_erase_self]
    omega
  show ∃ t, execContextWritebackAck q s = .next t ∧ _
  simp only [execContextWritebackAck, List.contains_iff_mem.2 h, if_true]
  refine ⟨_, rfl, ?_⟩
  split
  · exact herase
  · rw [State.startFetch_leaving]
    exact herase

theorem contextEligible_evicts {s : State} {q w : Nat} (hdie : s.onDie q = true) (hel : s.eligible q = true)
    (hw : (s.trn.fetchWait.find? fun x => qpSet x == qpSet q) = some w) :
    exec (.contextEligible q) s = .next ((s.evict q).issueFetch w) := by
  show execContextEligible q s = _
  simp [execContextEligible, hdie, hel, hw]

/-- The state in which the outcome of a fetch is judged: the context is on die, and its time is noted. -/
def State.fetched (s : State) (q ns : Nat) : State := (s.endFetch q).peak Reg.TRN_FETCH_MAX.MAX_NS ns

theorem contextFetchDone_good {s : State} {q : Nat} (ns : Nat) (h : q ∈ s.trn.fetching) (hcrc : (s.qp q).crcOk = true) :
    exec (.contextFetchDone q ns .good) s = .next (s.fetched q ns) := by
  have hcrc' : ((s.fetched q ns).qp q).crcOk = true := hcrc
  show execContextFetchDone q ns .good s = _
  simp only [execContextFetchDone, List.contains_iff_mem.2 h, if_true]
  exact congrArg _ (if_pos hcrc')

theorem contextFetchDone_crcFail {s : State} {q : Nat} (ns : Nat) (h : q ∈ s.trn.fetching) :
    exec (.contextFetchDone q ns .crcFail) s = .next ((s.fetched q ns).failFetch q 0x08) := by
  show execContextFetchDone q ns .crcFail s = _
  simp only [execContextFetchDone, List.contains_iff_mem.2 h, if_true]
  rfl

theorem contextFetchDone_uncorrectable {s : State} {q : Nat} (ns : Nat) (h : q ∈ s.trn.fetching) :
    exec (.contextFetchDone q ns .uncorrectable) s = .next (((s.fetched q ns).noteUncorr
      ((s.fetched q ns).rd Reg.TRN_CTX_BASE.BASE + 384 * q)).failFetch q 0x09) := by
  show execContextFetchDone q ns .uncorrectable s = _
  simp only [execContextFetchDone, List.contains_iff_mem.2 h, if_true]
  rfl

/-- The lay-by's notes leave the lay-by and the queue pairs alone. -/
theorem State.noteLayby_trn (s : State) : s.noteLayby.trn.layby = s.trn.layby ∧ s.noteLayby.trn.qps = s.trn.qps := by
  have sent (u : State) (x : Bool) : (u.sendPfc x).trn = u.trn := (State.sendPfc_frame (ps := [.out]) x (.refl _ _) rfl).only.trn rfl
  unfold State.noteLayby
  extract_lets a b u
  split
  · rw [sent]
    exact ⟨rfl, rfl⟩
  · split
    · rw [sent]
      exact ⟨rfl, rfl⟩
    · exact ⟨rfl, rfl⟩

/-- A context that could not be fetched fails with its reason. -/
theorem State.failFetch_fails {s : State} {q reason : Nat} (h : (s.qp q).state ≠ .error) : Fails s (s.failFetch q reason) q reason := by
  unfold State.failFetch
  have hqp : (State.noteLayby { s with trn.layby := Table.drop q s.trn.layby }).qp q = s.qp q := by
    unfold State.qp
    rw [(State.noteLayby_trn _).2]
  refine (State.qpError_fails (by rw [hqp]; exact h)).before ?_ (by rw [hqp])
  exact State.noteLayby_frame (.put (a := [.trn]) (.refl _ s) rfl rfl rfl rfl rfl) rfl

/-! The lay-by (R58) -/

/-- A packet for a queue pair in Reset is dropped and counted, whatever its opcode. -/
theorem State.processPacket_reset {s : State} {p : Packet} (h : (s.qp p.qpn).state = .reset) : s.processPacket p = s.dropPacket 2 := by
  have at_ (isSend : Bool) (run : State → State) : s.atQp p isSend run = s.dropPacket 2 := by simp only [State.atQp, h]
  unfold State.processPacket
  simp only [at_, ite_self]

theorem State.qp_modify (s : State) (n : Nat) (f : Qp → Qp) (h : Table.has n s.trn.qps = true) :
    ({ s with trn.qps := Table.modify n f s.trn.qps } : State).qp n = f (s.qp n) := by
  obtain ⟨x, hx⟩ := Option.isSome_iff_exists.1 h
  simp [State.qp, Table.modify, hx, Table.get, Table.find_put_same]

/-- The use of a context leaves its place alone, the lay-by, the packets of the direct path and the registers. -/
theorem State.touchQp_keeps (s : State) (q : Nat) : QpsKept s (s.touchQp q) ∧ (s.touchQp q).trn.layby = s.trn.layby ∧
    (s.touchQp q).regs = s.regs := by
  unfold State.touchQp
  extract_lets set trn t
  have ht : t.trn.qps = s.trn.qps ∧ t.trn.layby = s.trn.layby ∧ t.regs = s.regs := by
    show (if _ then _ else _ : State).trn.qps = _ ∧ (if _ then _ else _ : State).trn.layby = _ ∧ (if _ then _ else _ : State).regs = _
    split <;> exact ⟨rfl, rfl, rfl⟩
  obtain ⟨hqps, hlayby, hregs⟩ := ht
  refine ⟨QpsKept.trans ⟨fun n => ?_⟩ (.modify q fun _ => rfl), hlayby, hregs⟩
  unfold State.qp
  rw [hqps]

theorem State.rd_noteLayby (s : State) (f : RField) (i j : Nat) (ha : Reg.TRN_LAYBY_USE.ROLE0_CELLS.id ≠ f.id)
    (hb : Reg.TRN_LAYBY_USE.ROLE1_CELLS.id ≠ f.id) : s.noteLayby.rd f i j = s.rd f i j := by
  have sent (u : State) (x : Bool) : (u.sendPfc x).rd f i j = u.rd f i j :=
    State.rd_congr ((State.sendPfc_frame (ps := [.out]) x (.refl _ u) rfl).only.regs_eq rfl) ..
  have noted (a b : Nat) : ((s.wr Reg.TRN_LAYBY_USE.ROLE0_CELLS a).wr Reg.TRN_LAYBY_USE.ROLE1_CELLS b).rd f i j = s.rd f i j := by
    rw [State.rd_wr_field _ _ _ _ _ _ _ _ hb, State.rd_wr_field _ _ _ _ _ _ _ _ ha]
  unfold State.noteLayby
  extract_lets a b u
  split
  · rw [sent]
    exact noted a b
  · split
    · rw [sent]
      exact noted a b
    · exact noted a b

theorem laybyDrainPacket_reset {s : State} {q : Nat} {p : Packet} {r : List Packet} (hwait : s.waitingPackets q = p :: r)
    (hdie : s.onDie q = true) (hq : p.qpn = q) (hreset : (s.qp q).state = .reset) : Answers (.laybyDrainPacket q) s fun t =>
      t.waitingPackets q = r ∧
      t.rd Reg.TRN_DROP.COUNT 2 = Reg.TRN_DROP.COUNT.fit (satAdd Reg.TRN_DROP.COUNT.width (s.rd Reg.TRN_DROP.COUNT 2) 1) := by
  subst hq
  show ∃ t, execLaybyDrainPacket p.qpn s = .next t ∧ _
  simp only [execLaybyDrainPacket, hwait, hdie, if_true]
  refine ⟨_, rfl, ?_⟩
  generalize hu : ({ s with trn.layby := if r.isEmpty then Table.drop p.qpn s.trn.layby else Table.put p.qpn r s.trn.layby } : State) = u
  obtain ⟨hplace, hlayby, hregs⟩ := u.noteLayby.touchQp_keeps p.qpn
  have hstate : ((u.noteLayby.touchQp p.qpn).qp p.qpn).state = .reset := by
    rw [hplace.state, State.qp, u.noteLayby_trn.2, ← hu]
    exact hreset
  rw [State.processPacket_reset hstate, State.rd_dropPacket, State.rd_congr hregs, State.rd_noteLayby _ _ _ _ (by decide) (by decide), ← hu]
  refine ⟨?_, rfl⟩
  show Table.get p.qpn [] (State.touchQp _ p.qpn).trn.layby = r
  rw [hu, hlayby, u.noteLayby_trn.1, ← hu]
  cases r with
  | nil => exact Table.get_drop_same ..
  | cons x xs => exact Table.get_put_same ..

/-! Rates and timers (R42, R49, R50) -/

theorem roceCnp_effect (s : State) (q : Nat) : Answers (.roceCnp q) s fun t =>
    if s.takesPackets q = true then
      (t.qp q).rate = max 100 ((s.qp q).rate * (256 - s.rd Reg.TRN_CC_CFG.DECREASE) / 256) ∧ (t.qp q).cnps = (s.qp q).cnps + 1
    else t.rd Reg.TRN_DROP.COUNT 2 = Reg.TRN_DROP.COUNT.fit (satAdd Reg.TRN_DROP.COUNT.width (s.rd Reg.TRN_DROP.COUNT 2) 1) := by
  refine .of_eq rfl ?_
  split
  · rw [State.cutRate, State.qp_setQp]
    exact ⟨rfl, rfl⟩
  · exact s.rd_dropPacket 2

theorem rateIncrease_raises {s : State} {q : Nat} (h : Table.has q s.trn.qps = true) : Answers (.rateIncrease q) s fun t =>
    (t.qp q).rate = min (s.lineRate (s.qp q).lport) ((s.qp q).rate + s.rd Reg.TRN_CC_CFG.INCREASE) :=
  .of_eq rfl (congrArg Qp.rate (s.qp_modify q _ h))

theorem ackCoalesceTimer_acks {s : State} {q : Nat} (h : (s.qp q).unackedRx ≠ 0) : Answers (.ackCoalesceTimer q) s fun t =>
    (t.qp q).unackedRx = 0 ∧ Emits s t q (.ack (prevPsn (s.qp q).expPsn)) := by
  refine .of_eq (if_neg h) ⟨?_, ?_⟩
  · rw [State.qp_sendPacket, State.qp_setQp]
  · exact (State.sendPacket_emits ..).earlier (List.suffix_refl _) (by rw [State.qp_setQp])

/-- A retry sends again from the oldest unacknowledged packet. -/
theorem State.retry_sends {s : State} {n : Nat} (h : (s.qp n).retries < (s.qp n).retryMax) :
    ((s.retry n).qp n).retries = (s.qp n).retries + 1 ∧ Emits s (s.retry n) n (.retransmit (s.qp n).unackedPsn) := by
  unfold State.retry
  rw [if_neg (by omega)]
  refine ⟨?_, (State.sendPacket_emits ..).earlier (List.suffix_refl _) (by rw [State.qp_setQp])⟩
  rw [State.qp_sendPacket, State.qp_setQp]

theorem ackTimeout_effect {s : State} {q : Nat} (ht : (s.qp q).timeoutExp ≠ 0) (hopen : (s.qp q).unackedPsn ≠ (s.qp q).sendPsn)
    (hstate : (s.qp q).state = .rts ∨ (s.qp q).state = .sqd) : Answers (.ackTimeout q) s fun t =>
      if (s.qp q).retries < (s.qp q).retryMax then
        (t.qp q).retries = (s.qp q).retries + 1 ∧ Emits s t q (.retransmit (s.qp q).unackedPsn)
      else Fails s t q 0x01 := by
  have hdue : ¬ ((s.qp q).timeoutExp = 0 ∨ (s.qp q).unackedPsn = (s.qp q).sendPsn ∨ ((s.qp q).state ≠ .rts ∧ (s.qp q).state ≠ .sqd)) := by
    rcases hstate with h | h <;> simp [ht, hopen, h]
  refine .of_eq (if_neg hdue) ?_
  split
  · next hless => exact State.retry_sends hless
  · next hless =>
    rw [State.retry, if_pos (by omega)]
    refine State.qpError_fails ?_
    rcases hstate with h | h <;> simp [h]

theorem rnrTimer_effect {s : State} {q : Nat} (ht : (s.qp q).rnrTimer ≠ 0) (hstate : (s.qp q).state ≠ .error) :
    Answers (.rnrTimer q) s fun t =>
      if (s.qp q).rnrMax = 7 ∨ (s.qp q).rnrTries < (s.qp q).rnrMax then
        (t.qp q).rnrTimer = 0 ∧ Emits s t q (.retransmit (s.qp q).unackedPsn)
      else Fails s t q 0x02 := by
  show ∃ t, execRnrTimer q s = .next t ∧ _
  simp only [execRnrTimer, if_neg ht]
  split
  · refine ⟨_, rfl, ?_, (State.sendPacket_emits ..).earlier (List.suffix_refl _) (by rw [State.qp_setQp])⟩
    rw [State.qp_sendPacket, State.qp_setQp]
  · refine ⟨_, rfl, Fails.before (State.qpError_fails ?_) (State.setQp_frame _ _ (.refl _ s) rfl) ?_⟩
    · rw [State.qp_setQp]
      exact hstate
    · rw [State.qp_setQp]

/-! Placement (R62, R64) -/

theorem finalFlagProcess_delivers {s : State} {q : Nat} {b : List Byte} {r : List FinalMsg} (h : (s.qp q).finals = .send b none :: r) :
    Answers (.finalFlagProcess q) s fun t => (t.qp q).placements = [] ∧ (t.qp q).finals = r ∧ Sends s t (.deliver q b none false) := by
  have placed := s.qp_placeAll q fun _ => true
  have sent := (State.placeAll_frame (ps := Part.every) q (fun _ => true) (.refl _ s) rfl).sent
  show ∃ t, execFinalFlagProcess q s = .next t ∧ _
  unfold execFinalFlagProcess
  generalize s.placeAll q (fun _ => true) = t at placed sent
  simp only [placed, h]
  refine ⟨_, rfl, ?_, ?_, (Sends.refl_send ..).earlier (s := t) sent⟩
  · exact (congrArg Qp.placements (State.qp_setQp ..)).trans (by simp)
  · exact congrArg Qp.finals (State.qp_setQp ..)

/-- The end of an invalidation leaves the queue pairs alone. -/
theorem State.endInvalidation_qps (s : State) (k : Nat) : (s.endInvalidation k).trn.qps = s.trn.qps := by
  unfold State.endInvalidation
  split
  · rfl
  split
  · rfl
  · extract_lets regions u
    rw [(Within.foldl (ps := Part.but [.trn]) _ (.refl _ u) fun v c => State.complete_frame _ _ _ _ (.refl _ _) rfl).only.trn rfl]

/-- Once the payloads that a test names have been placed for some queue pairs, none of theirs is left. -/
theorem State.placeAlls_placed (which : Placement → Bool) (l : List Nat) (s : State) :
    (∀ q, ∀ p ∈ ((l.foldl (fun s q => s.placeAll q which) s).qp q).placements, p ∈ (s.qp q).placements) ∧
    ∀ q ∈ l, ∀ p ∈ ((l.foldl (fun s q => s.placeAll q which) s).qp q).placements, which p = false := by
  induction l generalizing s with
  | nil => exact ⟨fun _ _ => id, fun _ hq => absurd hq List.not_mem_nil⟩
  | cons n r ih =>
    obtain ⟨fewer, placed⟩ := ih (s.placeAll n which)
    refine ⟨fun q p hp => s.placements_placeAll n which q (fewer q p hp), fun q hq p hp => ?_⟩
    rcases List.mem_cons.1 hq with rfl | hq
    · have hp := fewer _ p hp
      rw [State.qp_placeAll] at hp
      simpa using (List.mem_filter.1 hp).2
    · exact placed q hq p hp

/-- A queue pair whose number is in no row has no context. -/
theorem Table.find_none_of_not_mem {α : Type} {k : Nat} {t : Table α} (h : k ∉ t.map Prod.fst) : Table.find k t = none := by
  cases hx : Table.find k t with
  | none => rfl
  | some x => exact absurd (List.mem_map.2 ⟨_, Table.find_mem hx, rfl⟩) h

theorem invalidationComplete_placed {s : State} {k : Nat} {r : Region} (hr : Table.find k s.trn.regions = some r) (hv : r.valid = false) :
    Answers (.invalidationComplete k) s fun t => ∀ q, ∀ p ∈ (t.qp q).placements, p.region ≠ k := by
  obtain ⟨fewer, placed⟩ := s.placeAlls_placed (fun p => p.region == k) (s.trn.qps.map Prod.fst)
  show ∃ t, execInvalidationComplete k s = .next t ∧ _
  simp only [execInvalidationComplete, hr, Option.any_some, hv, Bool.not_false, if_true]
  refine ⟨_, rfl, fun q p hp => ?_⟩
  rw [State.qp, State.endInvalidation_qps] at hp
  by_cases hq : q ∈ s.trn.qps.map Prod.fst
  · exact ne_of_beq_false (placed q hq p hp)
  · have none := fewer q p hp
    rw [State.qp, Table.get, Table.find_none_of_not_mem hq] at none
    exact absurd none List.not_mem_nil

/-! The transport state (R63, R70) -/

theorem trnStateWrite_effect {s : State} (v : Nat) (h : s.running = true) : Answers (.trnStateWrite v) s fun t =>
    if (v = 1 ∧ (s.rd Reg.TRN_CTRL.STATE = 0 ∨ s.rd Reg.TRN_CTRL.STATE = 2)) ∨ (v = 2 ∧ s.rd Reg.TRN_CTRL.STATE = 0) ∨
        (v = 3 ∧ s.rd Reg.TRN_CTRL.STATE = 1) then
      t.rd Reg.TRN_CTRL.STATE = v ∧ (v = 1 → t.on Reg.TRN_WHOLE_KEY.EN = false)
    else t = s := by
  have hw : s.writable 9 = true := by simp [State.writable, h]
  show ∃ t, execTrnStateWrite v s = .next t ∧ _
  simp only [execTrnStateWrite, hw, Bool.not_true, Bool.false_eq_true, if_false]
  split
  · next hgo =>
    have hfit : v % 2 ^ Reg.TRN_CTRL.STATE.width = v := Nat.mod_eq_of_lt (by
      show v < 4
      omega)
    refine ⟨_, rfl, ?_⟩
    by_cases h1 : v = 1
    · rw [if_pos h1, State.rd_wr_field _ _ _ _ _ _ _ _ (by decide), State.rd_wr_same, State.on_wr_same]
      exact ⟨hfit, fun _ => rfl⟩
    · rw [if_neg h1, State.rd_wr_same]
      exact ⟨hfit, fun h => absurd h h1⟩
  · exact ⟨s, rfl, rfl⟩

/-- Settles O5, command by command. -/
theorem queuePairContexts : Obligations.QueuePairContexts := by
  unfold Obligations.QueuePairContexts
  refine ⟨roceCnp_effect, fun s q => rateIncrease_raises, fun s q => contextWritebackAck_leaves, fun s q w hdie hel hw => ?eligible,
    fun s q ns hf => ⟨fun hcrc => ?good, fun hst => ?crcFail, fun hst => ?uncorrectable⟩, fun s q p r => laybyDrainPacket_reset,
    fun s q => ackCoalesceTimer_acks, fun s q => ackTimeout_effect, fun s q => rnrTimer_effect, fun s q b r => finalFlagProcess_delivers,
    fun s k r => invalidationComplete_placed, fun s v => trnStateWrite_effect v⟩
  case eligible => exact .of_eq (contextEligible_evicts hdie hel hw) ⟨rfl, rfl⟩
  case good => exact .of_eq (contextFetchDone_good ns hf hcrc) ⟨Table.get_put_same .., rfl⟩
  case crcFail =>
    exact .of_eq (contextFetchDone_crcFail ns hf) (Fails.earlier (State.failFetch_fails hst) rfl (.of_host rfl) (List.suffix_refl _))
  case uncorrectable =>
    exact .of_eq (contextFetchDone_uncorrectable ns hf) (Fails.earlier (State.failFetch_fails hst) rfl (.of_host rfl) (List.suffix_refl _))

end Sys2Proof.Machine
end

section
/-!
Frames, queue pairs and regions (O10): a command that its slice takes runs, what it sends on the way leaves it answerable, and a work request
that is posted stays in its send queue.
-/
namespace Sys2Proof.Machine
open Sys2Proof

/-! Ring commands that run -/

/-- A command that its slice takes does what its run does. -/
theorem Answers.runs {i : Instr} {s : State} {c : HostCmd} {cap : Cap} {run : Slice → State} {post : State → Prop}
    (hi : exec i s = .next (s.ringGate c cap run)) (h : s.accepts c cap = true) (hpost : post (run (s.sliceOf c))) : Answers i s post := by
  refine .of_eq hi ?_
  rw [State.ringGate_accepts h]
  exact hpost

/-- Work that leaves the host's side alone leaves a command to complete as it could before. -/
theorem Completes.after {s t : State} {c : HostCmd} {cap : Cap} (h : s.accepts c cap = true) (hhost : t.host = s.host) (hout : s.out <:+ t.out)
    (status r0 r1 : Nat) : Completes s (t.complete c status r0 r1) c status r0 r1 :=
  (State.complete_completes ((AnswersKept.of_host hhost).answers (State.answers_of_accepts h)) ..).earlier hout

theorem State.complete_trn (s : State) (c : HostCmd) (status r0 r1 : Nat) : (s.complete c status r0 r1).trn = s.trn :=
  (State.complete_frame (ps := Part.but [.trn]) c status r0 r1 (.refl _ _) rfl).only.trn rfl

theorem State.completes_trn (status : Nat) (l : List HostCmd) (s : State) : (l.foldl (fun s c => s.complete c status) s).trn = s.trn := by
  induction l generalizing s with
  | nil => rfl
  | cons c r ih => exact (ih _).trans (State.complete_trn ..)

theorem State.qp_complete (s : State) (c : HostCmd) (status r0 r1 n : Nat) : (s.complete c status r0 r1).qp n = s.qp n := by
  unfold State.qp
  rw [State.complete_trn]

theorem State.qp_eq {s : State} {n : Nat} {q : Qp} (h : Table.find n s.trn.qps = some q) : s.qp n = q := by
  simp [State.qp, Table.get, h]

/-! Frames (R400) -/

theorem frameSend_good {s : State} {c : HostCmd} {f : TxFrame} (h : s.accepts c .frames = true) (hport : f.lport ≤ 15)
    (hlow : 60 ≤ f.bytes.length) (hhigh : f.bytes.length ≤ 9212) :
    exec (.frameSend c f) s = .next (s.transmitFrame { f with cmd := some c }) := by
  show execFrameSend c f s = _
  rw [execFrameSend, State.ringGate_accepts h, if_neg (by omega)]

/-- A frame without a PTP message that leaves as it is completes the command that sent it, with no stamp. -/
theorem State.emitFrame_completes {s : State} {c : HostCmd} {cap : Cap} {f : TxFrame} (h : s.accepts c cap = true) (hcmd : f.cmd = some c)
    (hptp : f.ptp = none) (hen : s.on Reg.ETH_MACSEC_CTRL.EN (f.lport / 4) = false) : Completes s (s.emitFrame f) c 0 0 0 := by
  rw [State.emitFrame_no_ptp hptp, State.wireFrame_plain (.inr hen)]
  simp only [State.frameDone, hcmd]
  exact .after (t := s.send _) h rfl (List.suffix_cons ..) 0 0 0

theorem frameSend_leaves {s : State} {c : HostCmd} {f : TxFrame} (h : s.accepts c .frames = true) (hport : f.lport ≤ 15)
    (hlow : 60 ≤ f.bytes.length) (hhigh : f.bytes.length ≤ 9212) (hptp : f.ptp = none) (hprio : f.prio ∉ (s.lport f.lport).paused)
    (hen : s.on Reg.ETH_MACSEC_CTRL.EN (f.lport / 4) = false) :
    Answers (.frameSend c f) s fun t => Sends s t (.frame f.lport f.bytes) ∧ Completes s t c 0 0 0 := by
  refine .of_eq (frameSend_good h hport hlow hhigh) ?_
  have hgo : s.transmitFrame { f with cmd := some c } = s.emitFrame { f with cmd := some c } := by
    simp [State.transmitFrame, hprio]
  rw [hgo]
  exact ⟨State.emitFrame_sends hptp (.inr hen), State.emitFrame_completes h rfl hptp hen⟩

theorem frameSend_badLength {s : State} {c : HostCmd} {f : TxFrame} (h : s.accepts c .frames = true)
    (hlen : f.bytes.length < 60 ∨ 9212 < f.bytes.length) : Answers (.frameSend c f) s fun t => Completes s t c 0x1001 0 0 :=
  .completes rfl h (if_pos (.inr hlen))

theorem frameRxPost_queues {s : State} {c : HostCmd} {l a n : Nat} (h : s.accepts c .frames = true) (hport : l ≤ 15) (hlen : 9216 ≤ n)
    (hclaim : Table.get l c.slice s.host.claims = c.slice) : Answers (.frameRxPost c l a n) s fun t =>
      Table.find l t.host.claims = some c.slice ∧
        Table.get l [] t.host.buffers = Table.get l [] s.host.buffers ++ [{ cmd := c, address := a, length := n }] := by
  refine .runs rfl h ?_
  rw [if_neg (by omega), if_neg (not_not_intro hclaim)]
  exact ⟨Table.find_put_same .., Table.get_put_same ..⟩

/-! Queue pairs (R399) -/

theorem qpCreate_installs {s : State} {c : HostCmd} {q : Nat} {ctx : Qp} (h : s.accepts c .qp = true)
    (hbase : s.rd Reg.TRN_CTX_BASE.BASE ≠ 0) (hvalid : s.validQpn q = true) (hfree : Table.has q s.trn.qps = false)
    (hstate : ctx.state = .reset ∨ ctx.state = .init) (hfields : ctx.fieldsOk = true) (hname : (s.sliceOf c).mayName ctx.tenant = true)
    (hpin : (ctx.pinned && !(s.mayPin q)) = false) : Answers (.qpCreate c q ctx) s fun t =>
      t.qp q = { ctx with slice := c.slice, generation := s.trn.generation + 1, rate := s.lineRate ctx.lport, targetRate := s.lineRate ctx.lport, crcOk := true } ∧
        Completes s t c 0 0 0 := by
  have hgood : ¬ ((ctx.state ≠ .reset ∧ ctx.state ≠ .init) ∨ ctx.fieldsOk = false) := by
    rcases hstate with hs | hs <;> simp [hs, hfields]
  refine .runs rfl h ?_
  rw [if_neg hbase, if_neg (by simp [hvalid, hfree]), if_neg hgood, if_neg (by simp [hname]), if_neg (by simp [hpin])]
  refine ⟨?_, .after h ?_ ?_ 0 0 0⟩
  · rw [State.qp_complete, State.qp_setQp]
  · rfl
  · exact List.suffix_refl _

/-- The context that the lines of a mask make of a queue pair's. -/
def Qp.merged (q ctx : Qp) (mask : Nat) : Qp := ((List.range 5).filter fun k => mask.testBit k).foldl (fun (o : Qp) k => o.mergeLine ctx k) q

theorem qpModify_badMask {s : State} {c : HostCmd} {q mask : Nat} {x : Qp} (ctx : Qp) (h : s.accepts c .qp = true)
    (hx : Table.find q s.trn.qps = some x) (hmask : 64 ≤ mask) : Answers (.qpModify c q mask ctx) s fun t => Completes s t c 0x1001 0 0 := by
  refine .completes rfl h ?_
  rw [hx]
  exact if_pos (.inl hmask)

theorem qpModify_merges {s : State} {c : HostCmd} {q mask : Nat} {x ctx : Qp} (h : s.accepts c .qp = true)
    (hx : Table.find q s.trn.qps = some x) (hmask : mask < 64) (hfields : (x.merged ctx mask).fieldsOk = true)
    (hold : (s.sliceOf c).mayName x.tenant = true) (hnew : (s.sliceOf c).mayName (x.merged ctx mask).tenant = true)
    (hchange : qpChangeOk x.state (x.merged ctx mask).state = true) (hpin : ((x.merged ctx mask).pinned && !(s.mayPin q)) = false)
    (herr : (x.merged ctx mask).state = .error → x.state = .error) (hsqd : x.state = .sqd → (x.merged ctx mask).state ≠ .rts) :
    Answers (.qpModify c q mask ctx) s fun t => t.qp q = x.merged ctx mask ∧ Completes s t c 0 0 0 := by
  have hrun : exec (.qpModify c q mask ctx) s = .next ((s.setQp q (x.merged ctx mask)).complete c 0) := by
    show execQpModify c q mask ctx s = _
    rw [execQpModify, State.ringGate_accepts h, hx]
    unfold Qp.merged at *
    dsimp only
    rw [if_neg (by simp [hmask.not_ge, hfields]), if_neg (by simp [hold, hnew]), if_neg (by simp [hchange]), if_neg (by simp [hpin]),
      if_neg (fun e => e.2 (herr e.1)), if_neg (fun e => hsqd e.1 e.2)]
  refine .of_eq hrun ⟨?_, .after (t := s.setQp q _) h rfl (List.suffix_refl _) 0 0 0⟩
  rw [State.qp_complete, State.qp_setQp]

theorem qpDestroy_removes {s : State} {c : HostCmd} {q : Nat} {x : Qp} (h : s.accepts c .qp = true) (hx : Table.find q s.trn.qps = some x)
    (hname : (s.sliceOf c).mayName x.tenant = true) :
    Answers (.qpDestroy c q) s fun t => Table.find q t.trn.qps = none ∧ Table.find q t.trn.layby = none := by
  refine .runs rfl h ?_
  rw [hx]
  dsimp only
  rw [if_neg (by simp [hname]), State.complete_trn, (State.noteLayby_trn _).1, (State.noteLayby_trn _).2]
  exact ⟨Table.find_drop_same .., Table.find_drop_same ..⟩

theorem qpQuery_writes {s : State} {c : HostCmd} {q : Nat} {x : Qp} (h : s.accepts c .qp = true) (hx : Table.find q s.trn.qps = some x)
    (hname : (s.sliceOf c).mayName x.tenant = true) : Answers (.qpQuery c q) s fun t =>
      Sends s t (.context c (x.bytes q (s.outstanding q))) ∧ Completes s t c 0 0 0 := by
  obtain ⟨-, -, hawake, -⟩ := State.answers_iff (State.answers_of_accepts h)
  refine .runs rfl h ?_
  rw [hx]
  dsimp only
  rw [if_pos hname, State.sendHost_d0 hawake]
  exact ⟨(Sends.refl_send ..).later (State.complete_frame (ps := Part.every) _ _ _ _ (.refl _ _) rfl).sent,
    .after (t := s.send _) h rfl (List.suffix_cons ..) 0 0 0⟩

/-! Regions (R60, R62) -/

/-- The variant that the key of an entry has next. -/
def nextVariant : Option Region → Nat
  | some r => (r.variant + 1) % 256
  | none => 0

theorem regionRegister_makes {s : State} {c : HostCmd} {k : Nat} {r : Region} (h : s.accepts c .qp = true)
    (hbase : s.rd Reg.TRN_REGION_BASE.BASE ≠ 0) (hpos : 0 < r.length) (hlen : r.length ≤ 2 ^ 40) (hname : (s.sliceOf c).mayName r.tenant = true)
    (hk : k < s.rd Reg.TRN_REGION_COUNT.COUNT) (hfree : (Table.find k s.trn.regions).any Region.busy = false) :
    Answers (.regionRegister c (some k) r) s fun t =>
      (Table.find k t.trn.regions).any (fun x => x.valid && x.base == r.base && x.length == r.length && x.slice == c.slice) = true ∧
        Completes s t c 0 (256 * k + nextVariant (Table.find k s.trn.regions)) 0 := by
  refine .runs rfl h ?_
  simp only [Option.getD_some]
  rw [if_neg hbase, if_neg (by omega), if_neg (by simp [hname]), if_neg (by omega), if_neg (by simp [hfree])]
  refine ⟨?_, .after h ?_ ?_ ..⟩
  · rw [State.complete_trn, Table.find_put_same]
    simp
  · rfl
  · exact List.suffix_refl _

/-- The end of an invalidation leaves every entry's validity as it is. -/
theorem State.endInvalidation_valid (s : State) (k j : Nat) :
    (Table.find j (s.endInvalidation k).trn.regions).map Region.valid = (Table.find j s.trn.regions).map Region.valid := by
  unfold State.endInvalidation
  split
  · rfl
  next r hr =>
  split
  · rfl
  extract_lets t
  rw [State.completes_trn]
  by_cases hj : j = k
  · subst hj
    rw [hr]
    exact (congrArg (Option.map Region.valid) (Table.find_put_same ..)).trans rfl
  · exact congrArg _ (Table.find_put_other hj ..)

theorem regionInvalidate_ends {s : State} {c : HostCmd} {key : Nat} {r : Region} (h : s.accepts c .qp = true)
    (hr : Table.find (key / 256) s.trn.regions = some r) (hvalid : r.valid = true) (hvar : r.variant = key % 256)
    (hname : (s.sliceOf c).mayName r.tenant = true) :
    Answers (.regionInvalidate c key) s fun t => (Table.find (key / 256) t.trn.regions).map Region.valid = some false := by
  refine .runs rfl h ?_
  rw [hr]
  dsimp only
  rw [if_neg (by simp [hvalid, hvar]), if_neg (by simp [hname]), State.endInvalidation_valid, Table.find_put_same]
  rfl

/-! Work requests (R66, R399) -/

/-- Every queue pair's send queue is as it was. -/
structure SendQueuesKept (s t : State) : Prop where
  queue : ∀ n, (t.qp n).sendQueue = (s.qp n).sendQueue

theorem SendQueuesKept.refl (s : State) : SendQueuesKept s s := ⟨fun _ => rfl⟩

theorem SendQueuesKept.trans {s t u : State} (h : SendQueuesKept s t) (g : SendQueuesKept t u) : SendQueuesKept s u :=
  ⟨fun n => (g.queue n).trans (h.queue n)⟩

theorem SendQueuesKept.setQp {s : State} {n : Nat} {q : Qp} (h : q.sendQueue = (s.qp n).sendQueue) : SendQueuesKept s (s.setQp n q) := by
  refine ⟨fun m => ?_⟩
  by_cases hm : m = n
  · rw [hm, State.qp_setQp, h]
  · rw [State.qp_setQp_other _ _ hm]

/-- To transmit moves a queue pair's next PSN, its deadline and its counts, and nothing else of any. -/
theorem State.qp_transmit (s : State) (qpn n : Nat) (o : RoceOut) (m : Nat) : ∃ psn d k b, (s.transmit qpn n o).qp m =
    { s.qp m with sendPsn := psn, deadline := d, pktsOut := k, bytesOut := b } := by
  unfold State.transmit
  extract_lets bump
  rw [State.qp_sendPacket]
  unfold Table.modify
  split
  · next q hq =>
    by_cases hm : m = qpn
    · subst hm
      obtain rfl := State.qp_eq hq
      exact ⟨_, _, _, _, State.qp_setQp s m (bump _)⟩
    · exact ⟨_, _, _, _, State.qp_setQp_other s (bump q) hm⟩
  · exact ⟨_, _, _, _, rfl⟩

theorem State.transmit_queues (s : State) (qpn n : Nat) (o : RoceOut) : SendQueuesKept s (s.transmit qpn n o) := by
  refine ⟨fun m => ?_⟩
  obtain ⟨psn, d, k, b, h⟩ := s.qp_transmit qpn n o m
  rw [h]

theorem State.issueRead_queues (s : State) (n : Nat) : SendQueuesKept s (s.issueRead n) := by
  unfold State.issueRead
  dsimp only
  split
  · exact .refl s
  split
  · exact .refl s
  split
  · exact .refl s
  have issued (r : List ReadReq) : SendQueuesKept s (s.setQp n { s.qp n with reads := r }) := .setQp rfl
  split
  · split
    · exact (issued _).trans (State.transmit_queues ..)
    · exact issued _
  · exact (issued _).trans (State.transmit_queues ..)

theorem State.issueReads_of_queues {α : Type} (n : Nat) (l : List α) (s : State) : SendQueuesKept s (l.foldl (fun s _ => s.issueRead n) s) := by
  induction l generalizing s with
  | nil => exact .refl s
  | cons x r ih => exact (State.issueRead_queues s n).trans (ih _)

/-- A work request that is sent stands last in the send queue of its queue pair. -/
theorem State.sendWork_queue (s : State) (w : WorkReq) :
    ((s.sendWork w).qp w.qpn).sendQueue.map WorkReq.cmd = (s.qp w.qpn).sendQueue.map WorkReq.cmd ++ [w.cmd] := by
  unfold State.sendWork
  extract_lets q n x t
  have ht : (t.qp w.qpn).sendQueue = q.sendQueue ++ [x] := by rw [State.qp_setQp]
  have kept (u : State) (h : SendQueuesKept t u) : (u.qp w.qpn).sendQueue.map WorkReq.cmd = q.sendQueue.map WorkReq.cmd ++ [w.cmd] := by
    rw [h.queue, ht, List.map_append]
    rfl
  split
  · refine kept _ (SendQueuesKept.trans (.setQp ?_) (State.issueReads_of_queues ..))
    rfl
  · exact kept _ (State.transmit_queues ..)

theorem State.postWork_queue (s : State) (w : WorkReq) :
    ((s.postWork w).qp w.qpn).sendQueue.map WorkReq.cmd = (s.qp w.qpn).sendQueue.map WorkReq.cmd ++ [w.cmd] := by
  unfold State.postWork
  split
  · rw [State.qp_setQp, List.map_append]
    rfl
  · exact State.sendWork_queue ..

theorem wrPost_joins {s : State} {c : HostCmd} {w : WorkReq} {q : Qp} (h : s.accepts c .qp = true) (hop : w.op ≠ .sendInv)
    (hq : Table.find w.qpn s.trn.qps = some q) (hname : (s.sliceOf c).mayName q.tenant = true)
    (hkey : (s.keyCheck w.localKey (some q.tenant) (w.op == .read) w.offset w.length).isSome = true) (hstate : q.state = .rts ∨ q.state = .sqd)
    (harmed : w.armed = false) (hroom : q.sendQueue.length < q.sqSize) : Answers (.wrPost c w) s fun t =>
      (t.qp w.qpn).sendQueue.map WorkReq.cmd = q.sendQueue.map WorkReq.cmd ++ [some c] := by
  refine .runs rfl h ?_
  rw [hq]
  dsimp only
  rw [if_neg hop, if_neg (by simp [hname]), if_neg (by simp [Option.isNone_eq_false_iff.2 hkey]), if_neg (by rcases hstate with e | e <;> simp [e]),
    if_neg (by rcases hstate with e | e <;> simp [e]), if_neg (by simp [harmed]), if_neg (by omega)]
  refine (State.postWork_queue ..).trans ?_
  rw [State.qp_setQp]

/-- Settles O10. -/
theorem hostObjects : Obligations.HostObjects := by
  unfold Obligations.HostObjects
  refine ⟨fun s c f h hport => ⟨fun hlow hhigh hptp hprio hen => frameSend_leaves h hport hlow hhigh hptp hprio hen, fun hlow hhigh hprio => ?_,
      fun hlen => frameSend_badLength h hlen⟩,
    fun s c l a n h hport hlen hclaim => frameRxPost_queues h hport hlen hclaim,
    fun s c q ctx h hbase hvalid hfree hstate hfields hname hpin => qpCreate_installs h hbase hvalid hfree hstate hfields hname hpin,
    fun s c q x mask ctx h hx => ⟨fun hmask => qpModify_badMask ctx h hx hmask, ?_⟩,
    fun s c q x h hx hname => qpDestroy_removes h hx hname,
    fun s c q x h hx hname => qpQuery_writes h hx hname,
    fun s c k r h hbase hpos hlen hname hk hfree => ?_,
    fun s c key r h hr hvalid hvar hname => regionInvalidate_ends h hr hvalid hvar hname,
    fun s c w q h hop hq hname hkey hstate harmed hroom => wrPost_joins h hop hq hname hkey hstate harmed hroom⟩
  · exact .of_eq (frameSend_good h hport hlow hhigh) (State.transmitFrame_paused (f := { f with cmd := some c }) hprio)
  · rintro _ rfl hmask hfields hold hnew hchange hpin herr hsqd
    exact qpModify_merges h hx hmask hfields hold hnew hchange hpin herr hsqd
  · refine (regionRegister_makes h hbase hpos hlen hname hk hfree).imp fun t ht => ?_
    unfold nextVariant at ht
    exact ht

end Sys2Proof.Machine
end

section
/-!
A queue pair that goes to Error (R50) keeps what its port was given, and a reason that R50 does not list is one all the same.
-/
namespace Sys2Proof.Machine
open Sys2Proof

/-! The end of the commands of a queue pair keeps what the ports were given (R50, R81) -/

theorem PortsKept.frame {s t u : State} (h : PortsKept s t) (g : Within ((Part.butBlock 8).filter fun p => p != .ports) t u) : PortsKept s u :=
  h.trans (.of_within g)

theorem State.issueReads_ports (s : State) (role : Nat) : PortsKept s (s.issueReads role) :=
  .foldl _ (.refl s) fun u _ => .foldl _ (.refl u) fun _ _ => State.issueRead_ports ..

theorem State.flushWork_ports (s : State) (n : Nat) : PortsKept s (s.flushWork n) := by
  unfold State.flushWork
  dsimp only
  refine PortsKept.trans (.foldl _ ?_ fun u w => .of_within (State.endWork_frame _ _ (.refl _ _) rfl)) (State.issueReads_ports ..)
  exact .put rfl rfl rfl

theorem State.answer_ports (s : State) (n : Nat) (c : Cmd) (st : NvmeStatus) : PortsKept s (s.answer n c st) := by
  unfold State.answer
  refine .ite (.refl s) ?_
  split
  · refine PortsKept.trans ?_ (State.transmit_ports ..)
    exact .put rfl rfl rfl
  · exact .of_within (State.sendRing_frame _ (.refl _ _) rfl)
  · split
    · exact .of_within (State.complete_frame _ _ _ _ (.refl _ _) rfl)
    · exact .refl s

theorem State.acceptOne_ports (s : State) (n : Nat) (rest : List Nat) : PortsKept s (s.acceptOne n rest) := by
  unfold State.acceptOne
  dsimp only
  split
  · refine PortsKept.trans ?_ (State.answer_ports ..)
    exact .put rfl rfl rfl
  · exact .put rfl rfl rfl

theorem State.acceptUpTo_ports (n : Nat) (l : List Nat) (s : State) : PortsKept s (State.acceptUpTo n l s) := by
  induction l generalizing s with
  | nil => exact .refl s
  | cons u r ih => exact .ite (State.acceptOne_ports ..) ((State.acceptOne_ports ..).trans (ih _))

theorem State.freeTag_ports (s : State) (n : Nat) : PortsKept s (s.freeTag n) := by
  unfold State.freeTag
  extract_lets u
  have hu : PortsKept s u := .ite (State.acceptUpTo_ports ..) (.refl s)
  clear_value u
  split
  · exact hu
  · extract_lets dead
    refine .ite (hu.frame (State.noteTags_frame ?_ rfl)) hu
    exact .put (a := [.cmd, .map]) (.refl _ _) rfl rfl rfl rfl rfl

theorem State.resetTag_ports (s : State) (n : Nat) : PortsKept s (s.resetTag n) := by
  unfold State.resetTag
  have dropped {u : State} : Within ((Part.butBlock 8).filter fun p => p != .ports) u (u.modTag n fun c => { c with discard := true }) :=
    State.modTag_frame _ _ (.refl _ _) rfl
  split
  · exact .refl s
  split
  · exact .refl s
  iterate 4
    · exact PortsKept.trans (.of_within (State.queueCompletion_frame _ (State.modTag_frame _ _ (State.cancelWith_frame _ _ (.refl _ _) rfl) rfl) rfl))
        (State.freeTag_ports ..)
  · exact .ite (.of_within dropped) (.of_within (State.sendRing_frame _ dropped rfl))
  · exact .ite (.of_within (State.finish_frame _ _ (State.leaveSets_frame _ dropped rfl) rfl)) (.of_within dropped)
  · exact PortsKept.trans (.of_within dropped) (State.freeTag_ports ..)

theorem State.resetController_ports (s : State) (ctrl : Nat) (keep : Option Nat) : PortsKept s (s.resetController ctrl keep) := by
  unfold State.resetController
  split
  · exact .refl s
  · refine .frame (.foldl _ ?_ fun _ _ => State.resetTag_ports ..)
      (State.settlePs_frame _ (State.noteTags_frame (State.dropIntake_frame _ (.refl _ _) rfl) rfl) rfl)
    exact .put rfl rfl rfl

theorem State.queueLost_ports (s : State) (n : Nat) : PortsKept s (s.queueLost n) := by
  unfold State.queueLost
  split
  · exact .refl s
  · exact .ite (State.resetController_ports ..) (.frame (.foldl _ (.refl s) fun _ _ => State.resetTag_ports ..)
      (State.noteTags_frame (State.dropIntake_frame _ (.refl _ _) rfl) rfl))

/-- The state in which the event of a queue pair that goes to Error is posted (R50): it is in Error, and its work has been flushed. -/
def State.flushed (s : State) (n : Nat) : State := (s.setQp n { s.qp n with state := .error }).flushWork n

theorem State.flushed_ports (s : State) (n : Nat) : PortsKept s (s.flushed n) := by
  refine PortsKept.trans ?_ (State.flushWork_ports ..)
  exact .put rfl rfl rfl

theorem State.flushed_error (s : State) (n : Nat) : ((s.flushed n).qp n).state = .error :=
  ((State.flushWork_qps ..).state n).trans (by rw [State.qp_setQp])

theorem State.flushed_slice (s : State) (n : Nat) : ((s.flushed n).qp n).slice = (s.qp n).slice :=
  ((State.flushWork_qps ..).slice n).trans (by rw [State.qp_setQp])

theorem State.flushed_events (s : State) (n : Nat) : EventsKept s (s.flushed n) := by
  refine EventsKept.trans ?_ (State.flushWork_events ..)
  exact .of_host rfl

theorem State.qpError_none {s : State} {n : Nat} (h : (s.qp n).state ≠ .error) : s.qpError n none =
    ((s.flushed n).fresh.2.postObject ((s.flushed n).qp n).slice qpErrorStatus (n + 2 ^ 24 * ((s.flushed n).fresh.1 % 256))).queueLost n := by
  unfold State.qpError
  rw [if_neg h]
  rfl

theorem State.qpError_ports (s : State) (n : Nat) (reason : Option Nat) : PortsKept s (s.qpError n reason) := by
  have flushed := s.flushed_ports n
  have posted (u : State) (m code detail : Nat) : PortsKept u ((u.postObject m code detail).queueLost n) :=
    PortsKept.trans (.of_within (State.postObject_frame _ _ _ (.refl _ _) rfl)) (State.queueLost_ports ..)
  unfold State.qpError
  refine .ite (.refl s) ?_
  cases reason with
  | some r => exact flushed.trans (posted ..)
  | none =>
    refine PortsKept.trans (flushed.trans ?_) (posted (s.flushed n).fresh.2 ..)
    exact .put rfl rfl rfl

/-! A reason of none -/

/-- A queue pair in Error whose event is posted has failed, with the reason of the event. -/
theorem State.fails_of_lost {s u : State} {n : Nat} (r : Nat) (herr : (u.qp n).state = .error) (hslice : (u.qp n).slice = (s.qp n).slice)
    (hevents : EventsKept s u) (hout : s.out <:+ u.out) :
    Fails s ((u.postObject (u.qp n).slice qpErrorStatus (n + 2 ^ 24 * (r % 256))).queueLost n) n r := by
  refine ⟨?_, fun htakes => ?_⟩
  · rw [(State.queueLost_qps ..).state, QpsKept.state (.of_trn ((State.postObject_frame (ps := Part.but [.trn]) _ _ _ (.refl _ _) rfl).only.trn rfl)), herr]
  · rw [hslice]
    obtain ⟨hd, r1, p, hp⟩ := State.postObject_posts (hevents.takes _ htakes) qpErrorStatus (n + 2 ^ 24 * (r % 256))
    exact ⟨hd, r1, p, (hp.later (State.queueLost_frame (ps := Part.every) _ (.refl _ _) rfl).sent).earlier hout⟩

/-- A queue pair that was not in Error goes there with some reason, where R50 lists none. -/
theorem State.qpError_fails_unlisted {s : State} {n : Nat} (h : (s.qp n).state ≠ .error) : ∃ r, Fails s (s.qpError n none) n r := by
  refine ⟨(s.flushed n).fresh.1, ?_⟩
  rw [State.qpError_none h]
  exact State.fails_of_lost (u := (s.flushed n).fresh.2) _ (s.flushed_error n) (s.flushed_slice n)
    ((s.flushed_events n).trans (.of_host rfl)) (s.flushed_ports n).sent

end Sys2Proof.Machine
end

section
/-!
The bytes of DDR that a RoCEv2 packet reads and writes (O6): the tables' rows, keys and lost lines are as before where the queue pairs and
ports alone have changed.
-/
namespace Sys2Proof.Machine
open Sys2Proof

/-! The 384 bytes of a context (R52) -/

theorem fit_length (n : Nat) (b : List Byte) : (fit n b).length = n := by
  simp [fit, zeros, List.length_take]

theorem Inbound.bytes_length (b : Inbound) : b.bytes.length = 24 := by
  cases b <;> simp [Inbound.bytes, zeros]

theorem Qp.bytes_length (n outstanding : Nat) (q : Qp) : (q.bytes n outstanding).length = 384 := by
  simp [Qp.bytes, sealed, Qp.identity, Qp.requester, Qp.responder, Qp.triggerBytes, Qp.counters, NvmeQueue.bytes, fit_length, zeros,
    Inbound.bytes_length]

/-! What a table has no row for (R52, R465) -/

theorem areaByte_none_iff {base stride a : Nat} {row : Nat → Option (List Byte)} (hpos : 0 < stride)
    (hlen : ∀ k b, row k = some b → b.length = stride) :
    areaByte base stride row a = none ↔ base = 0 ∨ a < base ∨ row ((a - base) / stride) = none := by
  unfold areaByte
  split
  · next h => exact ⟨fun _ => by omega, fun _ => rfl⟩
  · next h =>
    cases hrow : row ((a - base) / stride) with
    | none => simp
    | some b =>
      have hlt : (a - base) % stride < b.length := by
        rw [hlen _ b hrow]
        exact Nat.mod_lt _ hpos
      simp only [Option.bind_some, List.getElem?_eq_getElem hlt, reduceCtorEq, or_false, false_iff]
      exact h

/-- What differs from a state in the queue pairs, the direct path, the ports and the outputs at most. -/
structure LinesKept (s t : State) : Prop where
  within  : Within [.trn, .ports, .out] s t
  regions : t.trn.regions = s.trn.regions
  rows    : ∀ n, Table.has n t.trn.qps = Table.has n s.trn.qps

theorem LinesKept.trans {s t u : State} (h : LinesKept s t) (g : LinesKept t u) : LinesKept s u :=
  ⟨h.within.trans g.within, g.regions.trans h.regions, fun n => (g.rows n).trans (h.rows n)⟩

theorem LinesKept.setQp {s : State} {n : Nat} (q : Qp) (h : Table.has n s.trn.qps = true) : LinesKept s (s.setQp n q) := by
  refine ⟨State.setQp_frame n q (.refl _ s) rfl, rfl, fun m => ?_⟩
  show Table.has m (Table.put n q s.trn.qps) = _
  by_cases hm : m = n
  · rw [hm, h]
    simp [Table.has, Table.find_put_same]
  · simp [Table.has, Table.find_put_other hm]

theorem State.sendPacket_lines (s : State) (n : Nat) (o : RoceOut) : LinesKept s (s.sendPacket n o) := by
  have htrn : (s.sendPacket n o).trn = s.trn := (State.sendPacket_frame (ps := Part.but [.trn]) n o (.refl _ s) rfl).only.trn rfl
  exact ⟨State.sendPacket_frame n o (.refl _ s) rfl, by rw [htrn], fun m => by rw [htrn]⟩

/-- A state that agrees with another but for some parts is that one with those parts put in place. -/
theorem OnlyIn.eq_put {s t : State} (h : OnlyIn [.trn, .ports, .out] s t) :
    t = { s with trn := t.trn, ports := t.ports, out := t.out } := by
  have hb := congrArg (fun u : State => { u with trn := t.trn, ports := t.ports, out := t.out }) h
  exact hb

theorem LinesKept.tableByte {s t : State} (h : LinesKept s t) {a : Nat} (ha : s.tableByte a = none) : t.tableByte a = none := by
  have ht := h.within.only.eq_put
  have hregions := h.regions
  have hrows := h.rows
  generalize t.trn = r at *
  generalize t.ports = p at *
  generalize t.out = o at *
  subst ht
  have context (u : State) (base : Nat) : areaByte base 384 (fun n => (Table.find n u.trn.qps).map fun q => q.bytes n (u.outstanding n)) a = none ↔
      base = 0 ∨ a < base ∨ Table.has ((a - base) / 384) u.trn.qps = false := by
    rw [areaByte_none_iff (by decide)]
    · simp [Table.has]
    · intro k b hb
      obtain ⟨q, -, rfl⟩ := Option.map_eq_some_iff.1 hb
      exact Qp.bytes_length ..
  unfold State.tableByte at *
  dsimp only at *
  rw [Option.or_eq_none_iff] at *
  obtain ⟨hctx, hrest⟩ := ha
  refine ⟨?_, ?_⟩
  · rw [context] at *
    rw [← hrows] at hctx
    exact hctx
  · rw [← hregions] at hrest
    exact hrest

/-- A run of bytes where no table stands reads as before. -/
theorem LinesKept.ddrReadList {s t : State} (h : LinesKept s t) {a n : Nat} (ha : ∀ k, k < n → s.tableByte (a + k) = none) :
    t.ddrReadList a n = s.ddrReadList a n := by
  have hregs : t.regs = s.regs := h.within.only.regs_eq rfl
  have hshare (x : Nat) : t.inParityShare x = s.inParityShare x := by
    simp only [State.inParityShare, State.rd_congr hregs]
  unfold State.ddrReadList
  refine List.map_congr_left fun k hk => ?_
  have hnone := ha k (List.mem_range.1 hk)
  simp only [State.ddrRead, hshare, hnone, h.tableByte hnone, h.within.only.mem rfl]

/-! Keys and stores -/

/-- A key is checked against the registers, the straps, the memory installed and the regions. -/
theorem State.keyCheck_congr {s t : State} (hregs : t.regs = s.regs) (hstraps : t.straps = s.straps) (htest : t.test = s.test)
    (hregions : t.trn.regions = s.trn.regions) (key : Nat) (tenant : Option Nat) (write : Bool) (va len : Nat) :
    t.keyCheck key tenant write va len = s.keyCheck key tenant write va len := by
  unfold State.keyCheck State.on
  rw [State.rd_congr hregs, State.rd_congr hregs, State.rd_congr hregs, hstraps, htest, hregions]

theorem State.onLostLine_congr {s t : State} (hregs : t.regs = s.regs) (htest : t.test = s.test) (a : Nat) :
    t.onLostLine a = s.onLostLine a := by
  have hmeta : t.inMetadata a = s.inMetadata a := by simp only [State.inMetadata, State.rd_congr hregs]
  have hseg : t.inSegTables a = s.inSegTables a := by simp only [State.inSegTables, State.rd_congr hregs]
  have hchannel : t.channelOf a = s.channelOf a := by
    unfold State.channelOf
    rw [hmeta, State.rd_congr hregs]
  unfold State.onLostLine
  rw [hmeta, hseg, hchannel, htest]

/-- A store goes by the registers and the channels that are lost. -/
theorem State.ddrWriteList_congr {s t : State} (hmem : t.mem = s.mem) (hregs : t.regs = s.regs) (htest : t.test = s.test) (a : Nat) (b : List Byte) :
    (t.ddrWriteList a b).mem = (s.ddrWriteList a b).mem := by
  induction b generalizing s t a with
  | nil => exact hmem
  | cons x r ih =>
    have hshare : t.inParityShare a = s.inParityShare a := by simp only [State.inParityShare, State.rd_congr hregs]
    refine ih ?_ ?_ ?_ (a + 1)
    all_goals
      unfold State.ddrWrite
      rw [hshare, State.onLostLine_congr hregs htest]
      split
    · exact hmem
    · exact congrArg (fun m => Memory.write m a x) hmem
    · exact hregs
    · exact hregs
    · exact htest
    · exact htest

end Sys2Proof.Machine
end

section
/-!
RoCEv2 packets (O6): a packet that is its queue pair's oldest on the direct path is processed by its opcode (R48, R58), and what each opcode
does to the queue pair and sends.
-/
namespace Sys2Proof.Machine
open Sys2Proof

/-! The way to a packet's meaning (R48, R53, R58) -/

/-- A row's packet that is its queue pair's oldest on the direct path is processed. -/
theorem State.roceRow_first {s : State} {p : Packet} {mine : Nat → Bool} (h : s.first p = true) (hm : mine p.opcode = true) :
    s.roceRow p mine = (s.takeDirect p).processPacket p := by
  simp only [State.first, Bool.and_eq_true] at h
  unfold State.roceRow
  rw [if_pos (by simp only [hm, h.1, h.2, Bool.and_self])]

/-- A store goes by nothing of the direct path. -/
theorem State.mem_takeDirect (s : State) (p : Packet) (a : Nat) (b : List Byte) :
    ((s.takeDirect p).ddrWriteList a b).mem = (s.ddrWriteList a b).mem := State.ddrWriteList_congr (s := s) (t := s.takeDirect p) rfl rfl rfl ..

/-- The states of a queue pair in which it takes packets (R53). -/
def QpState.takes (x : QpState) : Prop := x = .rtr ∨ x = .rts ∨ x = .sqd

theorem State.atQp_takes {s : State} {p : Packet} (h : (s.qp p.qpn).state.takes) (isSend : Bool) (run : State → State) :
    s.atQp p isSend run = run s := by
  rcases h with h | h | h <;> simp [State.atQp, h]

theorem roceSend_runs {s : State} {p : Packet} (ho : p.opcode ≤ 0x05) (h : s.first p = true) (hq : (s.qp p.qpn).state.takes) :
    exec (.roceSend p) s = .next ((s.takeDirect p).recvSend p) := by
  show execRoceSend p s = _
  rw [execRoceSend, State.roceRow_first h (by simpa using ho), State.processPacket, if_pos ho]
  exact congrArg _ (State.atQp_takes (s := s.takeDirect p) hq ..)

theorem roceSendInvalidate_runs {s : State} {p : Packet} (ho : p.opcode = 0x16 ∨ p.opcode = 0x17) (h : s.first p = true)
    (hq : (s.qp p.qpn).state = .rts) : exec (.roceSendInvalidate p) s = .next ((s.takeDirect p).recvSendInvalidate p) := by
  show execRoceSendInvalidate p s = _
  rw [execRoceSendInvalidate, State.roceRow_first h (by simpa using ho), State.processPacket, if_neg (by omega), if_pos ho]
  exact congrArg _ (State.atQp_takes (s := s.takeDirect p) (.inr (.inl hq)) ..)

theorem roceRdmaWrite_runs {s : State} {p : Packet} (hlow : 0x06 ≤ p.opcode) (hhigh : p.opcode ≤ 0x0B) (h : s.first p = true)
    (hq : (s.qp p.qpn).state = .rts) : exec (.roceRdmaWrite p) s = .next ((s.takeDirect p).recvWrite p) := by
  show execRoceRdmaWrite p s = _
  rw [execRoceRdmaWrite, State.roceRow_first h (by simp [hlow, hhigh]), State.processPacket, if_neg (by omega), if_neg (by omega), if_pos hhigh]
  exact congrArg _ (State.atQp_takes (s := s.takeDirect p) (.inr (.inl hq)) ..)

theorem roceReadRequest_runs {s : State} {p : Packet} (ho : p.opcode = 0x0C) (h : s.first p = true) (hq : (s.qp p.qpn).state = .rts) :
    exec (.roceReadRequest p) s = .next ((s.takeDirect p).recvReadRequest p) := by
  show execRoceReadRequest p s = _
  rw [execRoceReadRequest, State.roceRow_first h (by simp [ho]), State.processPacket, if_neg (by omega), if_neg (by omega), if_neg (by omega), if_pos ho]
  exact congrArg _ (State.atQp_takes (s := s.takeDirect p) (.inr (.inl hq)) ..)

theorem roceReadResponse_runs {s : State} {p : Packet} (hlow : 0x0D ≤ p.opcode) (hhigh : p.opcode ≤ 0x10) (h : s.first p = true)
    (hq : (s.qp p.qpn).state = .rts) : exec (.roceReadResponse p) s = .next ((s.takeDirect p).recvReadResponse p) := by
  show execRoceReadResponse p s = _
  rw [execRoceReadResponse, State.roceRow_first h (by simp [hlow, hhigh]), State.processPacket, if_neg (by omega), if_neg (by omega),
    if_neg (by omega), if_neg (by omega), if_pos hhigh]
  exact congrArg _ (State.atQp_takes (s := s.takeDirect p) (.inr (.inl hq)) ..)

theorem roceAcknowledge_runs {s : State} {p : Packet} (ho : p.opcode = 0x11) (h : s.first p = true) (hq : (s.qp p.qpn).state = .rts) :
    exec (.roceAcknowledge p) s = .next ((s.takeDirect p).recvAck p) := by
  show execRoceAcknowledge p s = _
  rw [execRoceAcknowledge, State.roceRow_first h (by simp [ho]), State.processPacket, if_neg (by omega), if_neg (by omega), if_neg (by omega),
    if_neg (by omega), if_neg (by omega), if_pos ho]
  exact congrArg _ (State.atQp_takes (s := s.takeDirect p) (.inr (.inl hq)) ..)

theorem roceAtomic_runs {s : State} {p : Packet} (ho : (0x12 ≤ p.opcode ∧ p.opcode ≤ 0x15) ∨ (0x18 ≤ p.opcode ∧ p.opcode < 0x20))
    (h : s.first p = true) (hq : (s.qp p.qpn).state = .rts) : exec (.roceAtomic p) s = .next ((s.takeDirect p).nakInvalid p none) := by
  show execRoceAtomic p s = _
  rw [execRoceAtomic, State.roceRow_first h (by simpa using ho), State.processPacket, if_neg (by omega), if_neg (by omega), if_neg (by omega),
    if_neg (by omega), if_neg (by omega), if_neg (by omega)]
  exact congrArg _ (State.atQp_takes (s := s.takeDirect p) (.inr (.inl hq)) ..)

/-! NAKs that end in Error (R48, R61) -/

theorem State.nakInvalid_emits (s : State) (p : Packet) (reason : Option Nat) : Emits s (s.nakInvalid p reason) p.qpn (.nakInvalid p.psn) :=
  (State.nak_emits ..).later (State.qpError_ports ..)

theorem State.nakAccess_emits (s : State) (p : Packet) : Emits s (s.nakAccess p) p.qpn (.nakAccess p.psn) :=
  (State.nak_emits ..).later (State.qpError_ports ..)

/-- A queue pair changed in place on its port emits what the state before it did. -/
theorem Emits.of_setQp {s t : State} {n : Nat} {q : Qp} {o : RoceOut} (h : Emits (s.setQp n q) t n o) (hq : q.lport = (s.qp n).lport) :
    Emits s t n o := h.earlier (List.suffix_refl _) (by rw [State.qp_setQp, hq])

theorem State.nak_qps (s : State) (n : Nat) (o : RoceOut) : QpsKept s (s.nak n o) := by
  unfold State.nak
  refine QpsKept.trans (.setQp ?_) ⟨fun m => by rw [State.qp_sendPacket]⟩
  rfl

theorem State.nakInvalid_fails {s : State} {p : Packet} (h : (s.qp p.qpn).state ≠ .error) : ∃ r, Fails s (s.nakInvalid p none) p.qpn r := by
  have kept := s.nak_qps p.qpn (.nakInvalid p.psn)
  obtain ⟨r, hr⟩ := State.qpError_fails_unlisted (s := s.nak p.qpn (.nakInvalid p.psn)) (n := p.qpn) (by rw [kept.state]; exact h)
  exact ⟨r, hr.before (State.nak_frame _ _ (.refl _ _) rfl) (kept.slice _)⟩

/-! Requests in PSN order (R58, R59) -/

/-- A queue pair that has counted a packet in. -/
def Qp.counted (q : Qp) (p : Packet) : Qp := { q with pktsIn := q.pktsIn + 1, bytesIn := q.bytesIn + p.payload.length }

theorem State.inOrder_now {s : State} {p : Packet} (h : psnDiff p.psn (s.qp p.qpn).expPsn = 0) (run : Qp → State) :
    s.inOrder p run = run ((s.qp p.qpn).counted p) := if_pos h

theorem State.inOrder_behind {s : State} {p : Packet} (h : psnDiff p.psn (s.qp p.qpn).expPsn < 0) (run : Qp → State) :
    s.inOrder p run = s.sendPacket p.qpn (.ack (prevPsn (s.qp p.qpn).expPsn)) := by
  unfold State.inOrder
  dsimp only
  rw [if_neg (by omega), if_pos h]

theorem State.inOrder_ahead {s : State} {p : Packet} (h : 0 < psnDiff p.psn (s.qp p.qpn).expPsn) (run : Qp → State) :
    s.inOrder p run = s.nak p.qpn (.nakSequence (s.qp p.qpn).expPsn) := by
  unfold State.inOrder
  dsimp only
  rw [if_neg (by omega), if_neg (by omega)]

/-- A queue pair that has taken the last packet of a message, of `n` sequence numbers. -/
def Qp.tookLast (q : Qp) (n : Nat) : Qp :=
  { q with expPsn := (q.expPsn + n) % 2 ^ 24, recvMsn := (q.recvMsn + 1) % 2 ^ 24, unackedRx := 0 }

/-- The last packet of a message is acknowledged (R49). -/
theorem State.takePacket_last (s : State) (p : Packet) (q : Qp) (n : Nat) :
    s.takePacket p q n true = (s.setQp p.qpn (q.tookLast n)).sendPacket p.qpn (.ack (prevPsn ((q.expPsn + n) % 2 ^ 24))) := rfl

theorem State.qp_takePacket_last (s : State) (p : Packet) (q : Qp) (n : Nat) : (s.takePacket p q n true).qp p.qpn = q.tookLast n := by
  rw [State.takePacket_last, State.qp_sendPacket, State.qp_setQp]

theorem State.takePacket_last_regions (s : State) (p : Packet) (q : Qp) (n : Nat) : (s.takePacket p q n true).trn.regions = s.trn.regions := by
  rw [State.takePacket_last, (State.sendPacket_frame (ps := Part.but [.trn]) _ _ (.refl _ _) rfl).only.trn rfl]
  rfl

/-- A final-flagged message waits for nothing where nothing of its queue pair is unplaced (R64). -/
theorem State.finalFlag_now {s : State} {n : Nat} (hp : (s.qp n).placements = []) (hf : (s.qp n).finals = []) (m : FinalMsg) :
    s.finalFlag n m = s.processFinal n m := by
  simp [State.finalFlag, hp, hf]

/-! SEND (R48, R62, R68) -/

/-- A SEND that ends with its first packet, in sequence and with a buffer for it, is delivered, and the key of every region stands. -/
theorem State.recvSend_delivers {s : State} {p : Packet} (hd : psnDiff p.psn (s.qp p.qpn).expPsn = 0) (hfirst : firstOf p.opcode = true)
    (hlast : lastOf p.opcode = true) (himm : p.imm = none) (hbufs : (s.qp p.qpn).recvBufs ≠ 0) (hfreeze : s.freezing (s.qp p.qpn).slice = false)
    (hroom : (s.carriesNvme p.qpn && s.intakeFull p.qpn) = false) (hlen : p.payload.length ≤ (s.qp p.qpn).recvSize)
    (hplaced : (s.qp p.qpn).placements = []) (hfinals : (s.qp p.qpn).finals = []) :
    Sends s (s.recvSend p) (.deliver p.qpn p.payload none false) ∧
      ((s.recvSend p).qp p.qpn).expPsn = ((s.qp p.qpn).expPsn + 1) % 2 ^ 24 ∧ (s.recvSend p).trn.regions = s.trn.regions := by
  let q : Qp := { (s.qp p.qpn).counted p with inbound := .none, recvBufs := (s.qp p.qpn).recvBufs - 1, recvNext := ((s.qp p.qpn).recvNext + 1) % 2 ^ 16 }
  have hrun : s.recvSend p = (s.takePacket p q 1 true).send (.deliver p.qpn p.payload none false) := by
    have hnow := State.finalFlag_now (s := s.takePacket p q 1 true) (n := p.qpn) (by rw [State.qp_takePacket_last]; exact hplaced)
      (by rw [State.qp_takePacket_last]; exact hfinals) (.send p.payload none)
    rw [State.recvSend, State.inOrder_now hd, if_neg (by simp [Qp.counted, hbufs, hfreeze]), if_neg (by simpa [hfirst] using hroom)]
    dsimp only
    rw [if_neg (by simp [hfirst, hlast, Qp.counted, hlen]), if_pos hlast, hfirst, himm]
    exact hnow
  rw [hrun]
  refine ⟨(Sends.refl_send ..).earlier (State.takePacket_frame (ps := Part.every) _ _ _ _ (.refl _ s) rfl).sent, ?_,
    s.takePacket_last_regions p q 1⟩
  exact congrArg Qp.expPsn (s.qp_takePacket_last p q 1)

theorem State.recvSend_noBuffer {s : State} {p : Packet} (hd : psnDiff p.psn (s.qp p.qpn).expPsn = 0) (hfirst : firstOf p.opcode = true)
    (hbufs : (s.qp p.qpn).recvBufs = 0) : Emits s (s.recvSend p) p.qpn (.rnrNak p.psn (s.qp p.qpn).rnrDelay) := by
  rw [State.recvSend, State.inOrder_now hd, if_pos (by simp [Qp.counted, hfirst, hbufs])]
  exact (State.nak_emits ..).of_setQp rfl

theorem State.recvSendInvalidate_unnamed {s : State} {p : Packet} (hd : psnDiff p.psn (s.qp p.qpn).expPsn = 0)
    (hr : Table.find (p.invKey.getD 0 / 256) s.trn.regions = none) : s.recvSendInvalidate p = s.nakAccess p := by
  simp only [State.recvSendInvalidate, hd, hr, if_true]

/-- A SEND with Invalidate whose key its region allows is processed, and leaves the key invalid where it was taken. -/
theorem State.recvSendInvalidate_allowed {s : State} {p : Packet} {r : Region} (hd : psnDiff p.psn (s.qp p.qpn).expPsn = 0)
    (hr : Table.find (p.invKey.getD 0 / 256) s.trn.regions = some r) (hvalid : r.valid = true) (hvar : r.variant = p.invKey.getD 0 % 256)
    (htenant : r.tenant = (s.qp p.qpn).tenant) (hinv : r.invSend = true)
    (htaken : ((s.recvSend p).qp p.qpn).expPsn ≠ (s.qp p.qpn).expPsn) :
    s.recvSendInvalidate p = ((s.recvSend p).invalidate (p.invKey.getD 0 / 256)).endInvalidation (p.invKey.getD 0 / 256) := by
  simp only [State.recvSendInvalidate, hd, hr, if_true]
  rw [if_pos (by simp [hvalid, hvar, htenant, hinv]), if_neg htaken]

theorem State.invalidate_sent (s : State) (k : Nat) : s.out <:+ ((s.invalidate k).endInvalidation k).out :=
  (State.endInvalidation_frame (ps := Part.every) k (.refl _ (s.invalidate k)) rfl).sent

/-- A key that is invalidated is invalid once its invalidation has been seen to (R62). -/
theorem State.invalidate_ends {s : State} {k : Nat} {r : Region} (hr : Table.find k s.trn.regions = some r) :
    (Table.find k ((s.invalidate k).endInvalidation k).trn.regions).map Region.valid = some false := by
  rw [State.endInvalidation_valid]
  simp [State.invalidate, Table.modify, hr, Table.find_put_same]

/-! RDMA WRITE and READ Request (R61, R64, R68) -/

/-- A NAK of Remote Access Error for a packet that has been counted. -/
theorem State.nakAccess_counted (s : State) (p : Packet) :
    Emits s ((s.setQp p.qpn ((s.qp p.qpn).counted p)).nakAccess p) p.qpn (.nakAccess p.psn) := (State.nakAccess_emits ..).of_setQp rfl

/-- A message begun in this packet whose key fails its check is answered with a NAK. -/
theorem State.recvWrite_denied {s : State} {p : Packet} {r : Reth} (hd : psnDiff p.psn (s.qp p.qpn).expPsn = 0)
    (hfirst : firstOf p.opcode = true) (hreth : p.reth = some r)
    (hkey : s.keyCheck r.key (some (s.qp p.qpn).tenant) true r.va p.payload.length = none) :
    Emits s (s.recvWrite p) p.qpn (.nakAccess p.psn) := by
  have hkey' : (s.setQp p.qpn ((s.qp p.qpn).counted p)).keyCheck r.key (some ((s.qp p.qpn).counted p).tenant) true r.va p.payload.length = none := hkey
  have hrun : s.recvWrite p = (s.setQp p.qpn ((s.qp p.qpn).counted p)).nakAccess p := by
    rw [State.recvWrite, State.inOrder_now hd]
    cases hin : ((s.qp p.qpn).counted p).inbound <;> simp [hfirst, hreth, hkey']
  rw [hrun]
  exact s.nakAccess_counted p

/-- An RDMA WRITE of one packet whose key passes stands in DDR at once, where the queue pair is not relaxed. -/
theorem State.recvWrite_only {s : State} {p : Packet} {r : Reth} {a : Nat} (hd : psnDiff p.psn (s.qp p.qpn).expPsn = 0)
    (ho : p.opcode = 0x0A) (hreth : p.reth = some r) (hlen : p.payload.length = r.len) (himm : p.imm = none) (hrelaxed : (s.qp p.qpn).relaxed = false)
    (hkey : s.keyCheck r.key (some (s.qp p.qpn).tenant) true r.va p.payload.length = some a) :
    (s.recvWrite p).mem = (s.ddrWriteList a p.payload).mem ∧ ((s.recvWrite p).qp p.qpn).expPsn = ((s.qp p.qpn).expPsn + 1) % 2 ^ 24 := by
  let q := (s.qp p.qpn).counted p
  let u := (s.setQp p.qpn q).ddrWriteList a p.payload
  have hkey' : (s.setQp p.qpn q).keyCheck r.key (some q.tenant) true r.va r.len = some a := hlen ▸ hkey
  have hplace : (s.setQp p.qpn q).place p.qpn r.key a p.payload = u := by
    have hq : ((s.setQp p.qpn q).qp p.qpn).relaxed = false := by rw [State.qp_setQp]; exact hrelaxed
    simp [State.place, hq, u]
  have hqu : u.qp p.qpn = q := by
    have : u.trn = (s.setQp p.qpn q).trn := (State.ddrWriteList_within ..).only.trn rfl
    unfold State.qp
    rw [this]
    exact State.qp_setQp ..
  have hrun : s.recvWrite p = u.takePacket p { q with inbound := .none } 1 true := by
    rw [State.recvWrite, State.inOrder_now hd]
    cases hin : ((s.qp p.qpn).counted p).inbound <;>
      simp [ho, firstOf, lastOf, hreth, hlen, himm, hkey', hplace, hqu, q]
  rw [hrun]
  refine ⟨?_, congrArg Qp.expPsn (State.qp_takePacket_last u p { q with inbound := .none } 1)⟩
  rw [(State.takePacket_frame (ps := Part.but [.mem]) _ _ _ _ (.refl _ u) rfl).only.mem rfl]
  exact State.ddrWriteList_congr (s := s) (t := s.setQp p.qpn q) rfl rfl rfl ..

theorem State.recvReadRequest_denied {s : State} {p : Packet} {r : Reth} (hd : psnDiff p.psn (s.qp p.qpn).expPsn = 0) (hreth : p.reth = some r)
    (hkey : s.keyCheck r.key (some (s.qp p.qpn).tenant) false r.va r.len = none) :
    Emits s (s.recvReadRequest p) p.qpn (.nakAccess p.psn) := by
  have hkey' : (s.setQp p.qpn ((s.qp p.qpn).counted p)).keyCheck r.key (some ((s.qp p.qpn).counted p).tenant) false r.va r.len = none := hkey
  have hrun : s.recvReadRequest p = (s.setQp p.qpn ((s.qp p.qpn).counted p)).nakAccess p := by
    rw [State.recvReadRequest, State.inOrder_now hd]
    simp [hreth, hkey']
  rw [hrun]
  exact s.nakAccess_counted p

/-- A queue pair that takes packets exists. -/
theorem State.has_of_rts {s : State} {n : Nat} (h : (s.qp n).state = .rts) : Table.has n s.trn.qps = true := by
  unfold State.qp Table.get at h
  unfold Table.has
  cases hf : Table.find n s.trn.qps with
  | some q => rfl
  | none =>
    rw [hf] at h
    cases h

/-- A READ Request whose key passes is answered with the bytes that it names, where no payload of its queue pair waits. -/
theorem State.recvReadRequest_answers {s : State} {p : Packet} {r : Reth} {a : Nat} (hd : psnDiff p.psn (s.qp p.qpn).expPsn = 0)
    (hreth : p.reth = some r) (hrts : (s.qp p.qpn).state = .rts) (hkey : s.keyCheck r.key (some (s.qp p.qpn).tenant) false r.va r.len = some a)
    (hplaced : (s.qp p.qpn).placements = []) (hfinals : (s.qp p.qpn).finals = []) (htables : ∀ k, k < r.len → s.tableByte (a + k) = none) :
    Emits s (s.recvReadRequest p) p.qpn (.readResponse (s.ddrReadList a r.len)) := by
  let q := (s.qp p.qpn).counted p
  let u := (s.setQp p.qpn q).takePacket p q (q.packets r.len) true
  have hqu : u.qp p.qpn = q.tookLast (q.packets r.len) := State.qp_takePacket_last ..
  have hnow := State.finalFlag_now (s := u) (n := p.qpn) (by rw [hqu]; exact hplaced) (by rw [hqu]; exact hfinals) (.read { r with va := a })
  have hrun : s.recvReadRequest p = u.sendPacket p.qpn (.readResponse (u.ddrReadList a r.len)) := by
    have hkey' : (s.setQp p.qpn q).keyCheck r.key (some q.tenant) false r.va r.len = some a := hkey
    have hfew : ¬ 64 ≤ q.inboundReads := by
      have : q.inboundReads = 0 := by
        unfold Qp.inboundReads
        rw [show q.finals = [] from hfinals]
        rfl
      omega
    rw [State.recvReadRequest, State.inOrder_now hd]
    simp only [hreth, Option.getD_some]
    rw [hkey']
    dsimp only
    rw [if_neg hfew]
    exact hnow
  have lines : LinesKept s u := by
    have set (v : State) (x : Qp) (h : Table.has p.qpn v.trn.qps = true) := LinesKept.setQp (s := v) x h
    have first := set s q (State.has_of_rts hrts)
    refine first.trans (LinesKept.trans (set _ (q.tookLast (q.packets r.len)) ?_) (State.sendPacket_lines ..))
    rw [first.rows]
    exact State.has_of_rts hrts
  rw [hrun, lines.ddrReadList htables]
  refine (State.sendPacket_emits ..).earlier lines.within.sent ?_
  rw [hqu]
  rfl

/-! Acknowledgements (R49, R50) -/

/-- A queue pair that has had packets up to one acknowledged (R49). -/
def State.ackedQp (s : State) (n psn : Nat) : Qp :=
  if psnDiff psn (s.qp n).unackedPsn < 0 ∨ 0 ≤ psnDiff psn (s.qp n).sendPsn then s.qp n
  else { s.qp n with
    unackedPsn := (psn + 1) % 2 ^ 24
    deadline := if (psn + 1) % 2 ^ 24 = (s.qp n).sendPsn then 0 else (s.qp n).deadlineFrom s.ringTime
    retries := 0
    rnrTries := 0
    capsulesUnacked := if (psn + 1) % 2 ^ 24 = (s.qp n).sendPsn then 0 else (s.qp n).capsulesUnacked
    sendQueue := (s.qp n).sendQueue.filter fun w => !(w.sent && w.op != .read && decide (psnDiff w.lastPsn psn ≤ 0)) }

theorem State.endWorks_trn (status : Nat) (l : List WorkReq) (s : State) : (l.foldl (fun s w => s.endWork w status) s).trn = s.trn := by
  induction l generalizing s with
  | nil => rfl
  | cons w r ih => exact (ih _).trans ((State.endWork_frame (ps := Part.but [.trn]) w status (.refl _ s) rfl).only.trn rfl)

/-- To acknowledge moves the queue pair on, and no other part of the transport. -/
theorem State.ackUpTo_trn (s : State) (n psn : Nat) :
    (s.ackUpTo n psn).qp n = s.ackedQp n psn ∧ (s.ackUpTo n psn).trn.regions = s.trn.regions := by
  unfold State.ackUpTo State.ackedQp
  extract_lets q done next t
  split
  · exact ⟨rfl, rfl⟩
  · rw [State.endWorks_trn]
    refine ⟨?_, rfl⟩
    unfold State.qp
    rw [State.endWorks_trn]
    exact State.qp_setQp ..

/-- What of a queue pair an acknowledgement leaves alone. -/
theorem State.ackedQp_keeps (s : State) (n psn : Nat) : (s.ackedQp n psn).naksIn = (s.qp n).naksIn ∧
    (s.ackedQp n psn).reads = (s.qp n).reads ∧ (s.ackedQp n psn).tenant = (s.qp n).tenant := by
  unfold State.ackedQp
  split <;> exact ⟨rfl, rfl, rfl⟩

/-- An acknowledgement leaves the READ requests in the send queue, the oldest one first. -/
theorem State.ackedQp_read (s : State) (n psn : Nat) : ((s.ackedQp n psn).sendQueue.find? fun w => w.op == .read && w.sent) =
    (s.qp n).sendQueue.find? fun w => w.op == .read && w.sent := by
  unfold State.ackedQp
  split
  · rfl
  · rw [List.find?_filter]
    congr 1
    funext w
    by_cases h : w.op = .read <;> simp [h]

theorem recvAck_acks {s : State} {p : Packet} {m : Nat} (haeth : p.aeth = some (0, m)) (hlow : 0 ≤ psnDiff p.psn (s.qp p.qpn).unackedPsn)
    (hhigh : psnDiff p.psn (s.qp p.qpn).sendPsn < 0) : ((s.recvAck p).qp p.qpn).unackedPsn = (p.psn + 1) % 2 ^ 24 := by
  have hrun : s.recvAck p = s.ackUpTo p.qpn p.psn := by simp [State.recvAck, haeth]
  rw [hrun, (s.ackUpTo_trn _ _).1, State.ackedQp, if_neg (by omega)]

theorem recvAck_rnr {s : State} {p : Packet} {k m : Nat} (haeth : p.aeth = some (k, m)) (hk : k / 32 % 4 = 1) :
    ((s.recvAck p).qp p.qpn).rnrTimer = 1 ∧ ((s.recvAck p).qp p.qpn).naksIn = (s.qp p.qpn).naksIn + 1 := by
  simp only [State.recvAck, haeth, Option.getD_some, hk, State.qp_setQp, true_and]
  rw [(s.ackUpTo_trn _ _).1, (s.ackedQp_keeps _ _).1]

/-- A NAK of a fault of the request moves the queue pair to Error with the fault's reason (R50). -/
theorem recvAck_fails {s : State} {p : Packet} {k m : Nat} (haeth : p.aeth = some (k, m)) (hk : k = 97 ∨ k = 98 ∨ k = 99)
    (h : (s.qp p.qpn).state ≠ .error) : Fails s (s.recvAck p) p.qpn (k - 94) := by
  let u := s.setQp p.qpn { s.qp p.qpn with naksIn := (s.qp p.qpn).naksIn + 1 }
  have hrun : s.recvAck p = u.qpError p.qpn (some (k - 94)) := by
    rcases hk with rfl | rfl | rfl <;> simp [State.recvAck, haeth, u]
  rw [hrun]
  refine (State.qpError_fails (s := u) ?_).before (State.setQp_frame _ _ (.refl _ s) rfl) ?_
  · rw [State.qp_setQp]
    exact h
  · rw [State.qp_setQp]

/-! READ responses (R49, R68) -/

/-- A response that lies in no read that was issued is dropped and counted. -/
theorem State.recvReadResponse_unasked {s : State} {p : Packet} (h : ∀ r ∈ (s.qp p.qpn).reads, r.issued = true →
      psnDiff p.psn r.psn < 0 ∨ (s.qp p.qpn).packets r.len ≤ psnDiff p.psn r.psn) : s.recvReadResponse p = s.dropPacket 2 := by
  unfold State.recvReadResponse
  dsimp only
  split
  · rfl
  next r rs hreads =>
  rw [if_pos]
  simp only [Bool.not_eq_true', List.any_eq_false, Bool.and_eq_true, decide_eq_true_eq, not_and]
  intro x hx hissued
  have := h x hx hissued
  omega

/-- A queue pair whose oldest read has had a response packet (R68). -/
def Qp.answered (q : Qp) (p : Packet) (r : ReadReq) : Qp :=
  { q with
    pktsIn := q.pktsIn + 1
    bytesIn := q.bytesIn + p.payload.length
    reads := q.reads.set 0 { r with left := r.left - p.payload.length, next := (r.next + 1) % 2 ^ 24 } }

theorem Qp.answered_keeps (q : Qp) (p : Packet) (r : ReadReq) : (q.answered p r).sendQueue = q.sendQueue ∧
    (q.answered p r).tenant = q.tenant := ⟨rfl, rfl⟩

/-- The state in which the bytes of a response land: what was sent before it is acknowledged, and the oldest read has moved on. -/
def State.answered (s : State) (p : Packet) (r : ReadReq) : State :=
  (s.ackUpTo p.qpn p.psn).setQp p.qpn ((s.ackedQp p.qpn p.psn).answered p r)

theorem State.regions_setQp (s : State) (n : Nat) (q : Qp) : (s.setQp n q).trn.regions = s.trn.regions := rfl

/-- What the bytes of a response find when they land: the queue pair's READ requests, its tenant and the keys, all as before. -/
theorem State.answered_keeps (s : State) (p : Packet) (r : ReadReq) :
    (((s.answered p r).qp p.qpn).sendQueue.find? fun w => w.op == .read && w.sent) =
        ((s.qp p.qpn).sendQueue.find? fun w => w.op == .read && w.sent) ∧
      ((s.answered p r).qp p.qpn).tenant = (s.qp p.qpn).tenant ∧ (s.answered p r).trn.regions = s.trn.regions := by
  obtain ⟨-, -, htenant⟩ := s.ackedQp_keeps p.qpn p.psn
  refine ⟨?_, ?_, ?_⟩
  · rw [State.answered, State.qp_setQp, (Qp.answered_keeps ..).1, State.ackedQp_read]
  · rw [State.answered, State.qp_setQp, (Qp.answered_keeps ..).2, htenant]
  · rw [State.answered, State.regions_setQp, (s.ackUpTo_trn ..).2]

/-- A response packet in the middle of the oldest read, with its next PSN, lands, and staging space goes to other reads. -/
theorem State.recvReadResponse_middle {s : State} {p : Packet} {r : ReadReq} {rs : List ReadReq} (ho : p.opcode = 0x0E)
    (hreads : (s.qp p.qpn).reads = r :: rs) (hissued : r.issued = true) (hlow : 0 ≤ psnDiff p.psn r.psn)
    (hhigh : psnDiff p.psn r.psn < (s.qp p.qpn).packets r.len) (hnext : p.psn = r.next) (hlen : p.payload.length ≤ r.left) :
    s.recvReadResponse p = ((s.answered p r).landRead p.qpn r p.payload).issueReads (p.qpn % 2) := by
  have hasked : ((s.qp p.qpn).reads.any fun x => x.issued && decide (0 ≤ psnDiff p.psn x.psn ∧ psnDiff p.psn x.psn < (s.qp p.qpn).packets x.len)) = true := by
    rw [hreads, List.any_cons]
    simp [hissued, hlow, hhigh]
  unfold State.recvReadResponse
  dsimp only
  rw [hreads] at hasked ⊢
  dsimp only
  rw [if_neg (by rw [hasked]; decide), if_neg (by simp [hissued, hnext]), if_neg (by simp [ho, hlen]), if_neg (by simp [ho]), (s.ackUpTo_trn _ _).1]
  rfl

/-- Bytes for no lane and no command land in DDR at most. -/
theorem State.landRead_within {s : State} {n : Nat} {r : ReadReq} (h : r.void = true ∨ r.local_ = true) (bytes : List Byte) :
    Within [.mem] s (s.landRead n r bytes) := by
  unfold State.landRead
  split
  · exact .refl _ s
  next hvoid =>
  rw [if_pos (h.resolve_left hvoid)]
  split
  · exact .refl _ s
  · split
    · exact State.ddrWriteList_within ..
    · exact .refl _ s

/-- The oldest read of a queue pair. -/
def State.oldestRead (s : State) (n : Nat) : Option ReadReq := (s.qp n).reads.head?

theorem State.transmit_oldestRead (s : State) (qpn n : Nat) (o : RoceOut) (m : Nat) : (s.transmit qpn n o).oldestRead m = s.oldestRead m := by
  obtain ⟨psn, d, k, b, h⟩ := s.qp_transmit qpn n o m
  unfold State.oldestRead
  rw [h]

/-- To issue a read leaves the oldest one as it is, where that has been issued. -/
theorem State.issueRead_oldestRead {s : State} {m : Nat} {r : ReadReq} (h : s.oldestRead m = some r) (hissued : r.issued = true) (n : Nat) :
    (s.issueRead n).oldestRead m = some r := by
  unfold State.issueRead
  dsimp only
  split
  · exact h
  next k hk =>
  split
  · exact h
  next x hx =>
  split
  · exact h
  have set : (s.setQp n { s.qp n with reads := (s.qp n).reads.set k { x with issued := true, psn := (s.qp n).sendPsn, next := (s.qp n).sendPsn } }).oldestRead m =
      some r := by
    unfold State.oldestRead at *
    by_cases hm : m = n
    · subst hm
      have hne : k ≠ 0 := by
        rintro rfl
        rw [List.findIdx?_eq_some_iff_getElem] at hk
        obtain ⟨hlt, hno, -⟩ := hk
        rw [List.head?_eq_getElem?, List.getElem?_eq_getElem hlt, Option.some_inj] at h
        simp [h, hissued] at hno
      rw [State.qp_setQp]
      simpa [List.head?_eq_getElem?, List.getElem?_set, hne] using h
    · rw [State.qp_setQp_other _ _ hm]
      exact h
  split
  · split
    · rw [State.transmit_oldestRead]
      exact set
    · exact set
  · rw [State.transmit_oldestRead]
    exact set

theorem State.issueReads_oldestRead {s : State} {m : Nat} {r : ReadReq} (h : s.oldestRead m = some r) (hissued : r.issued = true) (role : Nat) :
    (s.issueReads role).oldestRead m = some r := by
  have times {α : Type} (n : Nat) (l : List α) (u : State) (hu : u.oldestRead m = some r) :
      (l.foldl (fun s _ => s.issueRead n) u).oldestRead m = some r := by
    induction l generalizing u with
    | nil => exact hu
    | cons _ l ih => exact ih _ (State.issueRead_oldestRead hu hissued n)
  unfold State.issueReads
  generalize s.trn.qps.filter _ = l
  induction l generalizing s with
  | nil => exact h
  | cons e l ih => exact ih (times e.1 e.2.reads s h)

theorem State.oldestRead_of_trn {s t : State} (h : t.trn = s.trn) (n : Nat) : t.oldestRead n = s.oldestRead n := by
  unfold State.oldestRead State.qp
  rw [h]

/-- The oldest read has its bytes and its next PSN taken off, once its response is processed. -/
theorem State.answered_oldestRead {s : State} {p : Packet} {r : ReadReq} {rs : List ReadReq} (hreads : (s.qp p.qpn).reads = r :: rs) :
    (s.answered p r).oldestRead p.qpn = some { r with left := r.left - p.payload.length, next := (r.next + 1) % 2 ^ 24 } := by
  unfold State.oldestRead State.answered Qp.answered
  rw [State.qp_setQp]
  simp only [(s.ackedQp_keeps _ _).2.1, hreads, List.set_cons_zero, List.head?_cons]

theorem State.landed_oldestRead {s : State} {p : Packet} {r : ReadReq} {rs : List ReadReq} (hreads : (s.qp p.qpn).reads = r :: rs)
    (hissued : r.issued = true) (hland : r.void = true ∨ r.local_ = true) :
    (((s.answered p r).landRead p.qpn r p.payload).issueReads (p.qpn % 2)).oldestRead p.qpn =
      some { r with left := r.left - p.payload.length, next := (r.next + 1) % 2 ^ 24 } := by
  refine State.issueReads_oldestRead ?_ (by exact hissued) _
  rw [State.oldestRead_of_trn ((State.landRead_within hland _).only.trn rfl)]
  exact State.answered_oldestRead hreads

/-- The bytes of a READ work request's response land in its local region (R68). -/
theorem State.landRead_local {s : State} {n a : Nat} {r : ReadReq} {w : WorkReq} {bytes : List Byte} (hvoid : r.void = false) (hlocal : r.local_ = true)
    (hw : ((s.qp n).sendQueue.find? fun w => w.op == .read && w.sent) = some w)
    (hkey : s.keyCheck w.localKey (some (s.qp n).tenant) true (w.offset + r.segment + (r.len - r.left)) bytes.length = some a) :
    s.landRead n r bytes = s.ddrWriteList a bytes := by
  simp [State.landRead, hvoid, hlocal, hw, hkey]

/-- The bytes of a READ work request's response stand in DDR, once its response is processed. -/
theorem State.landed_mem {s : State} {p : Packet} {r : ReadReq} {w : WorkReq} {a : Nat} (hvoid : r.void = false) (hlocal : r.local_ = true)
    (hw : ((s.qp p.qpn).sendQueue.find? fun w => w.op == .read && w.sent) = some w)
    (hkey : s.keyCheck w.localKey (some (s.qp p.qpn).tenant) true (w.offset + r.segment + (r.len - r.left)) p.payload.length = some a) :
    (((s.answered p r).landRead p.qpn r p.payload).issueReads (p.qpn % 2)).mem = (s.ddrWriteList a p.payload).mem := by
  obtain ⟨hqueue, htenant, hregions⟩ := s.answered_keeps p r
  have within : Within [.host, .trn, .out, .hostWait] s (s.answered p r) :=
    State.setQp_frame _ _ (State.ackUpTo_frame _ _ (.refl _ s) rfl) rfl
  have hregs : (s.answered p r).regs = s.regs := within.only.regs_eq rfl
  have hland : (s.answered p r).landRead p.qpn r p.payload = (s.answered p r).ddrWriteList a p.payload := by
    refine State.landRead_local (w := w) hvoid hlocal ?_ ?_
    · rw [hqueue, hw]
    · rw [State.keyCheck_congr hregs (within.only.straps rfl) (within.only.test rfl) hregions, htenant, hkey]
  rw [(State.issueReads_frame (ps := Part.but [.mem]) _ (.refl _ _) rfl).only.mem rfl, hland]
  exact State.ddrWriteList_congr (within.only.mem rfl) hregs (within.only.test rfl) ..

/-- Settles O6, row by row, each through the meaning of its opcode. -/
theorem rocePackets : Obligations.RocePackets := by
  unfold Obligations.RocePackets
  refine ⟨fun s p ho h hq => .of_eq (roceSend_runs ho h hq) ⟨fun hd => ?behind, fun hd => ?ahead, fun hd hfirst hbufs => ?noBuffer,
      fun hd ho himm hbufs hfreeze hroom hlen hplaced hfinals => ?deliver⟩,
    fun s p ho h hq hd => ⟨fun hr => .of_eq (roceSendInvalidate_runs ho h hq) ?unnamed,
      fun r hr hvalid hvar htenant hinv ho' himm hbufs hfreeze hroom hlen hplaced hfinals => .of_eq (roceSendInvalidate_runs ho h hq) ?invalidate⟩,
    fun s p r ho hreth h hq hd => ⟨fun hkey => .of_eq (roceRdmaWrite_runs (by omega) (by omega) h hq) ?writeDenied,
      fun a hkey ho' himm hlen hrelaxed => .of_eq (roceRdmaWrite_runs (by omega) (by omega) h hq) ?write⟩,
    fun s p r ho hreth h hq hd => .of_eq (roceReadRequest_runs ho h hq) ?readRequest,
    fun s p hlow hhigh h hq hno => .of_eq (roceReadResponse_runs hlow hhigh h hq) ?unasked,
    fun s p r rs ho h hq hreads hissued hlow hhigh hnext hlen => ?response,
    fun s p m k ho haeth h hq => .of_eq (roceAcknowledge_runs ho h hq) ⟨fun hk hlow hhigh => ?ack, fun hk => recvAck_rnr haeth hk,
      fun hk => ?nak⟩,
    fun s p ho h hq => .of_eq (roceAtomic_runs ho h hq) ⟨State.nakInvalid_emits (s.takeDirect p) p none, ?atomic⟩⟩
  case behind =>
    rw [State.recvSend, State.inOrder_behind (s := s.takeDirect p) hd]
    exact State.sendPacket_emits (s.takeDirect p) ..
  case ahead =>
    rw [State.recvSend, State.inOrder_ahead (s := s.takeDirect p) hd]
    exact State.nak_emits (s.takeDirect p) ..
  case noBuffer => exact State.recvSend_noBuffer (s := s.takeDirect p) hd hfirst hbufs
  case deliver =>
    obtain ⟨hsent, hpsn, -⟩ := State.recvSend_delivers (s := s.takeDirect p) hd (by rw [ho]; rfl) (by rw [ho]; rfl) himm hbufs hfreeze hroom hlen hplaced
      hfinals
    exact ⟨hsent, hpsn⟩
  case unnamed =>
    rw [State.recvSendInvalidate_unnamed (s := s.takeDirect p) hd hr]
    exact State.nakAccess_emits (s.takeDirect p) p
  case invalidate =>
    obtain ⟨hsent, hpsn, hregions⟩ := State.recvSend_delivers (s := s.takeDirect p) hd (by rw [ho']; rfl) (by rw [ho']; rfl) himm hbufs hfreeze hroom
      hlen hplaced hfinals
    have htaken : (((s.takeDirect p).recvSend p).qp p.qpn).expPsn ≠ ((s.takeDirect p).qp p.qpn).expPsn := by
      rw [hpsn]
      omega
    rw [State.recvSendInvalidate_allowed (s := s.takeDirect p) hd hr hvalid hvar htenant hinv htaken]
    exact ⟨hsent.later (State.invalidate_sent ..), State.invalidate_ends (hregions ▸ hr)⟩
  case writeDenied =>
    have hfirst : firstOf p.opcode = true := by rcases ho with ho | ho | ho <;> rw [ho] <;> rfl
    exact State.recvWrite_denied (s := s.takeDirect p) hd hfirst hreth hkey
  case write =>
    rw [← s.mem_takeDirect p]
    exact State.recvWrite_only (s := s.takeDirect p) hd ho' hreth hlen himm hrelaxed hkey
  case readRequest =>
    split
    · next hkey => exact State.recvReadRequest_denied (s := s.takeDirect p) hd hreth hkey
    · next a hkey => exact State.recvReadRequest_answers (s := s.takeDirect p) hd hreth hq hkey
  case unasked =>
    rw [State.recvReadResponse_unasked (s := s.takeDirect p) hno, State.rd_dropPacket]
    rfl
  case response =>
    have hrun := (roceReadResponse_runs (by omega) (by omega) h hq).trans (congrArg _
      (State.recvReadResponse_middle (s := s.takeDirect p) ho hreads hissued hlow hhigh hnext hlen))
    refine ⟨fun hland => .of_eq hrun ?_, fun w a hvoid hlocal hw hkey => .of_eq hrun ?_⟩
    · exact State.landed_oldestRead (s := s.takeDirect p) hreads hissued hland
    · rw [← s.mem_takeDirect p]
      exact State.landed_mem (s := s.takeDirect p) hvoid hlocal hw hkey
  case ack =>
    subst hk
    exact recvAck_acks (s := s.takeDirect p) haeth hlow hhigh
  case nak => exact recvAck_fails (s := s.takeDirect p) haeth hk (by rw [show ((s.takeDirect p).qp p.qpn).state = .rts from hq]; decide)
  case atomic => exact State.nakInvalid_fails (s := s.takeDirect p) (by rw [show ((s.takeDirect p).qp p.qpn).state = .rts from hq]; decide)

end Sys2Proof.Machine
end

section
/-!
The worked examples of the spec (O54).
-/
namespace Sys2Proof.Machine
open Sys2Proof

/-- Settles O54: each of the spec's worked values is one closed evaluation of the model. -/
theorem workedExamples : Obligations.WorkedExamples := by
  unfold Obligations.WorkedExamples
  refine ⟨?crc, ?parity, ?latency, ?stamp, ?location, ?swap, ?plan⟩
  case crc => decide +kernel
  case parity => rfl
  case latency => rfl
  case stamp => rfl
  case location => rfl
  case swap => rfl
  case plan => rfl

end Sys2Proof.Machine
end

section
/-!
Consistency groups (O25): the cut of a group lets held work go on, and work that must be mirrored and would not be takes back the snapshot
that it names, the member's own cut of this moment too.
-/
namespace Sys2Proof.Machine
open Sys2Proof

/-- Group 0 is armed and its T has come: its one member, in tag 5, is to cut snapshot 3 of namespace 9. Tag 6 holds internal work that records
the same snapshot, and the mode is Destage, in which every change is refused. -/
def cutAmidHeldWork : State :=
  { State.reset.wr Reg.MAP_CG_CFG.ARMED 1 0 with
    cmd.tags := [
      (5, { state := .held, locked := true, cap := { qpn := 4, cid := 1, op := .snapshotCreate, nsid := 9, cdw10 := 3, cdw11 := 1 } }),
      (6, { state := .held, cls := .internal, cap := { qpn := 0, cid := 0, op := .other, nsid := 9 },
            job := some (.change (.snapCreate 9 3 0 none)) })]
    map.ns := [(9, { tenant := 0, pool := 0, size := 16777216, root := 1, group := 0 })]
    map.joined := [(0, [5])]
    wc.mode := .destage }

/-- The cut is taken, and the held commands have yet to go on. -/
def cutAmidHeldWorkTaken : State :=
  have s := cutAmidHeldWork.cutMember 0 0 5
  have s := (({ s with map.joined := [] }).wr Reg.MAP_CG_CFG.TAKEN 1 0).wr Reg.MAP_CG_CFG.ARMED 0 0
  s.event 0x4007 (le 4 0 ++ le 4 1)

theorem cutAmidHeldWork_cuts : cutAmidHeldWork.consistencyCut 0 = cutAmidHeldWorkTaken.releaseHeld := by
  unfold State.consistencyCut
  rw [if_neg (by decide)]
  rfl

/-- Held commands of which none is an Abort go on in the order in which they were held (R96). -/
theorem State.releaseHeld_of_no_abort {s : State} {l : List (Nat × Cmd)}
    (hl : ((s.cmd.tags.filter fun e => e.2.state == .held && !(s.stillHeld e.1 e.2)).mergeSort fun a b =>
      decide (a.2.heldAt ≤ b.2.heldAt)) = l) (hno : ∀ e ∈ l, e.2.cap.op ≠ .abort) :
    s.releaseHeld = (l.foldl (fun s e => if (s.tag e.1).any (fun c => c.state == .held) then s.release e.1 else s) s).noteTags := by
  have aborts : l.filter (fun e => e.2.cap.op == .abort) = [] := List.filter_eq_nil_iff.2 fun e he => by simpa using hno e he
  have rest : l.filter (fun e => e.2.cap.op != .abort) = l := List.filter_eq_self.2 fun e he => by simpa using hno e he
  unfold State.releaseHeld
  simp only [hl, aborts, rest, List.foldl_nil]

/-- Both held commands go on, and the refusal of that of tag 6 gives up snapshot 3. -/
theorem cutAmidHeldWork_loses : (cutAmidHeldWork.consistencyCut 0).snap 9 3 = none := by
  have held : (cutAmidHeldWorkTaken.cmd.tags.filter fun e => e.2.state == .held && !(cutAmidHeldWorkTaken.stillHeld e.1 e.2)) =
      cutAmidHeldWorkTaken.cmd.tags := by
    decide +kernel
  have sorted : (cutAmidHeldWorkTaken.cmd.tags.mergeSort fun a b => decide (a.2.heldAt ≤ b.2.heldAt)) = cutAmidHeldWorkTaken.cmd.tags :=
    List.mergeSort_of_pairwise (by decide +kernel)
  rw [cutAmidHeldWork_cuts, State.releaseHeld_of_no_abort (held ▸ sorted) (by decide +kernel)]
  decide +kernel

/-- Refutes O25: CONSISTENCY_CUT of an armed group whose T has come leaves its one member without its snapshot, where internal work that is
held meanwhile names the same snapshot and is refused as it goes on. -/
theorem not_snapshotsAndGroups : ¬ Obligations.SnapshotsAndGroups := by
  unfold Obligations.SnapshotsAndGroups
  rintro ⟨-, -, -, -, -, -, cut⟩
  obtain ⟨-, due⟩ := cut cutAmidHeldWork 0 (by decide) rfl
  obtain ⟨t, ht, -, -, snapped⟩ := due (by decide)
  have kept := snapped 5 _ _ rfl rfl rfl (by decide) rfl
  have run : exec (.consistencyCut 0) cutAmidHeldWork = .next (cutAmidHeldWork.consistencyCut 0) := rfl
  rw [run] at ht
  injection ht with ht
  change t.snap 9 3 = _ at kept
  rw [← ht, cutAmidHeldWork_loses] at kept
  cases kept

end Sys2Proof.Machine
end

section
/-!
The own step of a command in a tag (R82): it runs on the state in which the command has begun, and what the shared operations leave of the
command's tag and of the controllers.
-/
namespace Sys2Proof.Machine
open Sys2Proof

variable {s : State} {n : Nat} {c : Cmd}

/-- The own step of a command that is ready runs. -/
theorem State.begin_ready {op : NvmeOp} (h : s.ready n op = some c) (run : Cmd → State → State) :
    s.begin n op run = run { c with begun := true } (s.begun n c) := by
  unfold State.begin
  rw [h]
  rfl

theorem State.ready_begun {op : NvmeOp} (h : s.ready n op = some c) : c.state = .running ∧ c.begun = false := by
  unfold State.ready at h
  rw [Option.filter_eq_some_iff] at h
  obtain ⟨-, hc⟩ := h
  simp only [Bool.and_eq_true, beq_iff_eq, Bool.not_eq_true'] at hc
  exact ⟨hc.1.1.1.1, hc.1.1.1.2⟩

theorem State.ready_status {op : NvmeOp} (h : s.ready n op = some c) : c.status = none := (State.ready_iff h).2.2

@[simp] theorem State.tag_begun (s : State) (n : Nat) (c : Cmd) : (s.begun n c).tag n = some { c with begun := true } := Table.find_put_same ..

@[simp] theorem State.ctrls_begun (s : State) (n : Nat) (c : Cmd) : (s.begun n c).cmd.ctrls = s.cmd.ctrls := rfl

@[simp] theorem State.map_begun (s : State) (n : Nat) (c : Cmd) : (s.begun n c).map = s.map := rfl

/-! The end of a command -/

theorem State.finish_ended (hc : s.tag n = some c) (hs : c.status = none) (st : NvmeStatus) : (s.finish n st).ended n = some st := by
  unfold State.ended State.finish
  rw [State.tag_modTag hc]
  simp [hs]

@[simp] theorem State.finish_ctrls (s : State) (n : Nat) (st : NvmeStatus) : (s.finish n st).cmd.ctrls = s.cmd.ctrls := rfl

theorem State.ended_eq (hc : s.tag n = some c) : s.ended n = c.status := by
  unfold State.ended
  rw [hc]
  rfl

/-- A command that has begun ends with the status that its own step finds. -/
theorem State.begun_ends {op : NvmeOp} {u : State} (h : s.ready n op = some c) (hu : u.tag n = (s.begun n c).tag n) (st : NvmeStatus) :
    (u.finish n st).ended n = some st :=
  State.finish_ended (hu.trans (s.tag_begun n c)) (show c.status = none from State.ready_status h) st

/-- A command that has begun, and that nothing has ended, is under way. -/
theorem State.begun_open {op : NvmeOp} {u : State} (h : s.ready n op = some c) (hu : u.tag n = (s.begun n c).tag n) : u.ended n = none :=
  (State.ended_eq (hu.trans (s.tag_begun n c))).trans (show c.status = none from State.ready_status h)

/-- A command that answers with data sends it and ends well. -/
theorem State.begun_answers {op : NvmeOp} (h : s.ready n op = some c) (kind sel : Nat) (fields : List Nat) :
    Sends s ((s.begun n c).answerData n kind sel fields) (.adminData n kind sel fields) ∧
      ((s.begun n c).answerData n kind sel fields).ended n = some success :=
  ⟨⟨[.adminData n kind sel fields], rfl, List.mem_singleton_self _⟩, State.begun_ends (u := (s.begun n c).send _) h rfl _⟩

/-! Controllers -/

theorem Table.find_modify_same {α : Type} (k : Nat) (f : α → α) (t : Table α) : Table.find k (Table.modify k f t) = (Table.find k t).map f := by
  unfold Table.modify
  split
  · next x hx => rw [Table.find_put_same, hx, Option.map_some]
  · next hx => rw [hx, Option.map_none]

@[simp] theorem State.find_modCtrl (s : State) (x : Nat) (f : Controller → Controller) :
    Table.find x (s.modCtrl x f).cmd.ctrls = (Table.find x s.cmd.ctrls).map f := Table.find_modify_same ..

theorem State.ctrlFor_begun {k : Controller} (hk : Table.find c.ctrl s.cmd.ctrls = some k) :
    (s.begun n c).ctrlFor { c with begun := true } = k := by
  unfold State.ctrlFor Table.get
  rw [State.ctrls_begun, hk, Option.getD_some]

end Sys2Proof.Machine
end

section
/-!
NVMe admin and Fabrics commands (O13): the answer of each in the state in which it has begun.
-/
namespace Sys2Proof.Machine
open Sys2Proof

section
variable {s : State} {n : Nat} {c : Cmd} {k : Controller}

/-! Power states (R97) -/

/-- The head takes up its effective power state: of the state of QC only the phase of the power-state change moves. -/
theorem State.settlePs_cmd (s : State) (waiter : Option Nat) : ∃ phase before waiter' wake again, (s.settlePs waiter).cmd =
    { s.cmd with phase := phase, psBefore := before, psWaiter := waiter', psWake := wake, psAgain := again } := by
  have closes (l : List Nat) (u : State) : (l.foldl State.ps3Close u).cmd = u.cmd :=
    (Within.foldl (ps := Part.but [.cmd]) l (.refl _ u) fun _ _ => State.ps3Close_frame _ (.refl _ _) rfl).only.cmd rfl
  have stops (u : State) : u.stopRotation.cmd = u.cmd := (State.stopRotation_frame (ps := Part.but [.cmd]) (.refl _ _) rfl).only.cmd rfl
  have settles (u : State) : u.settleBudget.cmd = u.cmd := (State.settleBudget_frame (ps := Part.but [.cmd]) (.refl _ _) rfl).only.cmd rfl
  unfold State.settlePs
  dsimp only
  split_ifs
  · exact ⟨_, _, _, _, _, rfl⟩
  · exact ⟨_, _, _, _, _, rfl⟩
  · rw [closes, stops]
    exact ⟨_, _, _, _, _, rfl⟩
  · exact ⟨_, _, _, _, _, rfl⟩
  · rw [settles]
    exact ⟨_, _, _, _, _, rfl⟩

theorem State.settlePs_ctrls (s : State) (waiter : Option Nat) : (s.settlePs waiter).cmd.ctrls = s.cmd.ctrls := by
  obtain ⟨_, _, _, _, _, h⟩ := s.settlePs_cmd waiter
  rw [h]

theorem State.settlePs_tag (s : State) (waiter : Option Nat) (m : Nat) : (s.settlePs waiter).tag m = s.tag m := by
  obtain ⟨_, _, _, _, _, h⟩ := s.settlePs_cmd waiter
  unfold State.tag
  rw [h]

theorem State.settlePs_intake (s : State) (waiter : Option Nat) : (s.settlePs waiter).intake = s.intake := by
  obtain ⟨_, _, _, _, _, h⟩ := s.settlePs_cmd waiter
  unfold State.intake
  rw [h]

/-! Logs and structures (R73, R74) -/

theorem getLogPage_changed (h : s.ready n .getLogPage = some c) (hk : Table.find c.ctrl s.cmd.ctrls = some k) (hlog : c.cap.cdw10 % 256 = 4) :
    Answers (.getLogPage n) s fun t => Sends s t (.adminData n 2 4 k.changedNs) ∧ t.ended n = some success ∧
      (Table.find c.ctrl t.cmd.ctrls).map Controller.changedNs = some [] := by
  refine .of_eq (t := ((s.begun n c).answerData n 2 4 k.changedNs).modCtrl c.ctrl fun k => { k with changedNs := [] }) ?_ ?_
  · show execGetLogPage n s = _
    unfold execGetLogPage
    rw [State.begin_ready h]
    simp only [hlog]
    rw [State.ctrlFor_begun hk]
  · obtain ⟨hsends, hended⟩ := State.begun_answers h 2 4 k.changedNs
    refine ⟨hsends, hended, ?_⟩
    rw [State.find_modCtrl, show ((s.begun n c).answerData n 2 4 k.changedNs).cmd.ctrls = s.cmd.ctrls from rfl, hk]
    rfl

theorem getLogPage_unknown (h : s.ready n .getLogPage = some c) (hlog : c.cap.cdw10 % 256 = 0x7F) :
    Answers (.getLogPage n) s fun t => t.ended n = some { sct := 1, sc := 0x09 } := by
  refine .of_eq (t := (s.begun n c).finish n { sct := 1, sc := 0x09 }) ?_ (State.begun_ends h rfl _)
  show execGetLogPage n s = _
  unfold execGetLogPage
  rw [State.begin_ready h]
  simp only [hlog]

theorem identify_namespace (h : s.ready n .identify = some c) (hcns : c.cap.cdw10 % 256 = 0) {x : Namespace}
    (hx : Table.find c.cap.nsid s.map.ns = some x) : Answers (.identify n) s fun t =>
      Sends s t (.adminData n 6 0 [x.size, 4096, 0x09, 31, 31, 31, 0, x.group + 1, 1, 0, 12, 0, 0, 0]) ∧ t.ended n = some success := by
  refine .of_eq (t := (s.begun n c).answerData n 6 0 [x.size, 4096, 0x09, 31, 31, 31, 0, x.group + 1, 1, 0, 12, 0, 0, 0]) ?_
    (State.begun_answers h _ _ _)
  show execIdentify n s = _
  unfold execIdentify
  rw [State.begin_ready h]
  simp only [hcns, State.map_begun, hx]

theorem identify_absent (h : s.ready n .identify = some c) (hcns : c.cap.cdw10 % 256 = 0) (hx : Table.find c.cap.nsid s.map.ns = none) :
    Answers (.identify n) s fun t => t.ended n = some (generic 0x0B) := by
  refine .of_eq (t := (s.begun n c).finish n (generic 0x0B)) ?_ (State.begun_ends h rfl _)
  show execIdentify n s = _
  unfold execIdentify
  rw [State.begin_ready h]
  simp only [hcns, State.map_begun, hx]

/-! Features (R97, R505) -/

/-- A Set Features that no field refuses sets its feature on the controller. -/
theorem setFeatures_accepted (h : s.ready n .setFeatures = some c) (hk : Table.find c.ctrl s.cmd.ctrls = some k) (hfid : c.cap.cdw10 < 256)
    (h12 : c.cap.cdw12 = 0) (h13 : c.cap.cdw13 = 0) (h14 : c.cap.cdw14 = 0) (h15 : c.cap.cdw15 = 0)
    (hns : c.cap.cdw10 ≠ 0x83 ∨ c.cap.nsid = 0xFFFFFFFF ∨ Table.has c.cap.nsid s.map.ns = true) {k' : Controller} {d : Nat}
    (hset : k.setFeature c.cap.cdw10 c.cap.cdw11 = some (k', d)) : exec (.setFeatures n) s = .next (
      have u := (s.begun n c).modCtrl c.ctrl fun _ => k'
      have u := if c.cap.cdw10 = 0x02 then u.settlePs (some n) else u
      if c.cap.cdw10 = 0x83 then u.setPersist n { c with begun := true }
      else if u.cmd.phase = .entering ∧ u.cmd.psWaiter = some n then u
      else u.finish n { sct := 0, sc := 0, dw0 := d }) := by
  have hsv : c.cap.cdw10.testBit 31 = false := Nat.testBit_lt_two_pow (by omega)
  have hmod : c.cap.cdw10 % 256 = c.cap.cdw10 := Nat.mod_eq_of_lt hfid
  have hrest : ¬ (c.cap.cdw10 / 256 % 2 ^ 23 ≠ 0 ∨ c.cap.cdw12 ≠ 0 ∨ c.cap.cdw13 ≠ 0 ∨ c.cap.cdw14 ≠ 0 ∨ c.cap.cdw15 ≠ 0) := by
    rw [Nat.div_eq_of_lt hfid]
    omega
  have hthere : ¬ (c.cap.cdw10 % 256 = 0x83 ∧ c.cap.nsid ≠ 0xFFFFFFFF ∧ Table.has c.cap.nsid (s.begun n c).map.ns = false) := by
    rintro ⟨hf, hne, hno⟩
    rw [hmod] at hf
    rcases hns with hns | hns | hns
    · exact hns hf
    · exact hne hns
    · rw [State.map_begun, hns] at hno
      cases hno
  show execSetFeatures n s = _
  unfold execSetFeatures
  rw [State.begin_ready h]
  dsimp only
  rw [if_neg (by simp [hsv]), if_neg hrest, if_neg hthere, State.ctrlFor_begun hk, hmod, hset]

theorem setFeatures_saved (h : s.ready n .setFeatures = some c) (hsv : c.cap.cdw10.testBit 31 = true) :
    Answers (.setFeatures n) s fun t => t.ended n = some { sct := 1, sc := 0x0D } := by
  refine .of_eq (t := (s.begun n c).finish n { sct := 1, sc := 0x0D }) ?_ (State.begun_ends h rfl _)
  show execSetFeatures n s = _
  unfold execSetFeatures
  rw [State.begin_ready h]
  exact congrArg _ (if_pos hsv)

theorem setFeatures_reserved (h : s.ready n .setFeatures = some c) (hsv : c.cap.cdw10.testBit 31 = false)
    (hrest : c.cap.cdw10 / 256 % 2 ^ 23 ≠ 0 ∨ c.cap.cdw12 ≠ 0 ∨ c.cap.cdw13 ≠ 0 ∨ c.cap.cdw14 ≠ 0 ∨ c.cap.cdw15 ≠ 0) :
    Answers (.setFeatures n) s fun t => t.ended n = some (generic 0x02) := by
  refine .of_eq (t := (s.begun n c).finish n (generic 0x02)) ?_ (State.begun_ends h rfl _)
  show execSetFeatures n s = _
  unfold execSetFeatures
  rw [State.begin_ready h]
  dsimp only
  rw [if_neg (by simp [hsv]), if_pos hrest]

theorem setFeatures_stores (h : s.ready n .setFeatures = some c) (hk : Table.find c.ctrl s.cmd.ctrls = some k)
    (h12 : c.cap.cdw12 = 0) (h13 : c.cap.cdw13 = 0) (h14 : c.cap.cdw14 = 0) (h15 : c.cap.cdw15 = 0) {k' : Controller} {d : Nat}
    (hfid : c.cap.cdw10 < 256) (hps : c.cap.cdw10 ≠ 2) (hpersist : c.cap.cdw10 ≠ 0x83)
    (hset : k.setFeature c.cap.cdw10 c.cap.cdw11 = some (k', d)) (hphase : s.cmd.phase ≠ .entering ∨ s.cmd.psWaiter ≠ some n) :
    Answers (.setFeatures n) s fun t => Table.find c.ctrl t.cmd.ctrls = some k' ∧ t.ended n = some { sct := 0, sc := 0, dw0 := d } := by
  refine .of_eq (t := ((s.begun n c).modCtrl c.ctrl fun _ => k').finish n { sct := 0, sc := 0, dw0 := d }) ?_ ⟨?_, ?_⟩
  · rw [setFeatures_accepted h hk hfid h12 h13 h14 h15 (.inl hpersist) hset]
    have hwait : ¬ (((s.begun n c).modCtrl c.ctrl fun _ => k').cmd.phase = .entering ∧
        ((s.begun n c).modCtrl c.ctrl fun _ => k').cmd.psWaiter = some n) :=
      not_and_or.2 hphase
    simp only [if_neg hps, if_neg hpersist, if_neg hwait]
  · rw [State.finish_ctrls, State.find_modCtrl, State.ctrls_begun, hk]
    rfl
  · exact State.begun_ends (u := (s.begun n c).modCtrl c.ctrl _) h rfl _

theorem setFeatures_power (h : s.ready n .setFeatures = some c) (hk : Table.find c.ctrl s.cmd.ctrls = some k)
    (h12 : c.cap.cdw12 = 0) (h13 : c.cap.cdw13 = 0) (h14 : c.cap.cdw14 = 0) (h15 : c.cap.cdw15 = 0)
    (hfid : c.cap.cdw10 = 2) (hv : c.cap.cdw11 ≤ 3) :
    Answers (.setFeatures n) s fun t => (Table.find c.ctrl t.cmd.ctrls).map Controller.ps = some c.cap.cdw11 := by
  generalize hk' : ({ k with ps := c.cap.cdw11, lastOpPs := if c.cap.cdw11 ≤ 2 then c.cap.cdw11 else k.lastOpPs } : Controller) = k'
  have hset : k.setFeature c.cap.cdw10 c.cap.cdw11 = some (k', 0) := by
    unfold Controller.setFeature
    simp only [hfid, if_pos hv, hk']
  refine .of_eq (setFeatures_accepted h hk (by omega) h12 h13 h14 h15 (.inl (by omega)) hset) ?_
  simp only [hfid, if_true, show ¬ 2 = 0x83 by decide, if_false]
  have hctrl : Table.find c.ctrl (((s.begun n c).modCtrl c.ctrl fun _ => k').settlePs (some n)).cmd.ctrls = some k' := by
    rw [State.settlePs_ctrls, State.find_modCtrl, State.ctrls_begun, hk]
    rfl
  split
  · rw [hctrl, ← hk']
    rfl
  · rw [State.finish_ctrls, hctrl, ← hk']
    rfl

theorem setFeatures_persist_absent (h : s.ready n .setFeatures = some c)
    (h12 : c.cap.cdw12 = 0) (h13 : c.cap.cdw13 = 0) (h14 : c.cap.cdw14 = 0) (h15 : c.cap.cdw15 = 0) (hfid : c.cap.cdw10 = 0x83)
    (hall : c.cap.nsid ≠ 0xFFFFFFFF) (hno : Table.has c.cap.nsid s.map.ns = false) :
    Answers (.setFeatures n) s fun t => t.ended n = some (generic 0x0B) := by
  refine .of_eq (t := (s.begun n c).finish n (generic 0x0B)) ?_ (State.begun_ends h rfl _)
  show execSetFeatures n s = _
  unfold execSetFeatures
  rw [State.begin_ready h]
  dsimp only
  rw [hfid, if_neg (by decide), if_neg (by omega), if_pos ⟨rfl, hall, by rw [State.map_begun, hno]⟩]

/-- Reservation Persistence, of namespaces that are there, is set by internal work. -/
theorem setFeatures_persist (h : s.ready n .setFeatures = some c) (hk : Table.find c.ctrl s.cmd.ctrls = some k)
    (h12 : c.cap.cdw12 = 0) (h13 : c.cap.cdw13 = 0) (h14 : c.cap.cdw14 = 0) (h15 : c.cap.cdw15 = 0) (hfid : c.cap.cdw10 = 0x83)
    (hv : c.cap.cdw11 ≤ 1) (hns : c.cap.nsid = 0xFFFFFFFF ∨ Table.has c.cap.nsid s.map.ns = true) :
    exec (.setFeatures n) s = .next (((s.begun n c).modCtrl c.ctrl fun _ => k).setPersist n { c with begun := true }) := by
  have hset : k.setFeature c.cap.cdw10 c.cap.cdw11 = some (k, 0) := by
    unfold Controller.setFeature
    simp only [hfid, if_pos hv]
  rw [setFeatures_accepted h hk (by omega) h12 h13 h14 h15 (.inr hns) hset]
  simp only [hfid, show ¬ 0x83 = 0x02 by decide, if_false, if_true]

theorem State.setPersist_none (s : State) (n : Nat) (c : Cmd) (h : s.map.ns = []) : s.setPersist n c = s.finish n success := by
  unfold State.setPersist
  simp [h]

/-- Internal work that is asked for joins the work that waits, and the tags stay as they are. -/
theorem State.askInternals_effect (f : State → Nat → Cmd) (l : List Nat) (s : State) :
    (l.foldl (fun s x => s.askInternal (f s x)) s).cmd.tags = s.cmd.tags ∧
      (∀ w ∈ s.cmd.internal, w ∈ (l.foldl (fun s x => s.askInternal (f s x)) s).cmd.internal) ∧
      ∀ x ∈ l, ∃ u, ∃ w ∈ (l.foldl (fun s x => s.askInternal (f s x)) s).cmd.internal, w.made = some (f u x) := by
  induction l generalizing s with
  | nil => exact ⟨rfl, fun _ => id, fun _ hx => nomatch hx⟩
  | cons y r ih =>
    obtain ⟨htags, hkept, hasked⟩ := ih (s.askInternal (f s y))
    have asked : ∃ w ∈ (s.askInternal (f s y)).cmd.internal, w.made = some (f s y) :=
      ⟨_, List.mem_append_right _ (List.mem_singleton_self _), rfl⟩
    refine ⟨htags, fun w hw => hkept w (List.mem_append_left _ hw), fun x hx => ?_⟩
    rcases List.mem_cons.1 hx with rfl | hx
    · obtain ⟨w, hw, hmade⟩ := asked
      exact ⟨s, w, hkept w hw, hmade⟩
    · exact hasked x hx

theorem Table.mem_keys_of_has {α : Type} {x : Nat} {t : Table α} (h : Table.has x t = true) : x ∈ t.map Prod.fst := by
  obtain ⟨v, hv⟩ := Option.isSome_iff_exists.1 h
  exact List.mem_map.2 ⟨(x, v), Table.find_mem hv, rfl⟩

/-- The persistence of reservations is internal work on every namespace named, which answers the Set Features (R505). -/
theorem State.setPersist_asks {x : Nat} (hx : Table.has x s.map.ns = true) (hnamed : c.cap.nsid = 0xFFFFFFFF ∨ c.cap.nsid = x) :
    (s.setPersist n c).cmd.tags = s.cmd.tags ∧ ∃ w ∈ (s.setPersist n c).cmd.internal, w.made.map (fun (m : Cmd) => (m.job, m.serves)) =
      some (some (.change (.reservation x (.persist (c.cap.cdw11 == 1)))), some (n, c.ticket)) := by
  unfold State.setPersist
  extract_lets on all
  have hmem : x ∈ all := List.mem_filter.2 ⟨Table.mem_keys_of_has hx, by simpa using hnamed⟩
  have hsome : all.isEmpty = false := by
    rw [List.isEmpty_eq_false_iff]
    exact List.ne_nil_of_mem hmem
  rw [hsome, if_neg Bool.false_ne_true]
  obtain ⟨htags, -, hasked⟩ := State.askInternals_effect (fun u x =>
    { internalCmd (.change (.reservation x (.persist on))) none x (u.tenantOf x) with serves := some (n, c.ticket) }) all s
  obtain ⟨u, w, hw, hmade⟩ := hasked x hmem
  exact ⟨htags, w, hw, by rw [hmade]; rfl⟩

theorem getFeatures_value (h : s.ready n .getFeatures = some c) (hk : Table.find c.ctrl s.cmd.ctrls = some k) (hfid : c.cap.cdw10 < 256)
    (hpersist : c.cap.cdw10 ≠ 0x83) (h11 : c.cap.cdw11 = 0) (h12 : c.cap.cdw12 = 0) (h13 : c.cap.cdw13 = 0) (h14 : c.cap.cdw14 = 0)
    (h15 : c.cap.cdw15 = 0) : Answers (.getFeatures n) s fun t =>
      t.ended n = some (match k.getFeature c.cap.cdw10 with | some v => { sct := 0, sc := 0, dw0 := v } | none => generic 0x02) := by
  have hmod : c.cap.cdw10 % 256 = c.cap.cdw10 := Nat.mod_eq_of_lt hfid
  unfold Answers
  rw [show exec (.getFeatures n) s = execGetFeatures n s from rfl]
  unfold execGetFeatures
  rw [State.begin_ready h]
  dsimp only
  rw [if_neg (by rw [Nat.div_eq_of_lt hfid]; omega), if_neg (by omega), State.ctrlFor_begun hk, hmod]
  cases k.getFeature c.cap.cdw10 with
  | none => exact ⟨_, rfl, State.begun_ends h rfl _⟩
  | some v => exact ⟨_, rfl, State.begun_ends h rfl _⟩

theorem getFeatures_reserved (h : s.ready n .getFeatures = some c) (hrest : 256 ≤ c.cap.cdw10 ∨ c.cap.cdw11 ≠ 0 ∨ c.cap.cdw12 ≠ 0 ∨
      c.cap.cdw13 ≠ 0 ∨ c.cap.cdw14 ≠ 0 ∨ c.cap.cdw15 ≠ 0) : Answers (.getFeatures n) s fun t => t.ended n = some (generic 0x02) := by
  refine .of_eq (t := (s.begun n c).finish n (generic 0x02)) ?_ (State.begun_ends h rfl _)
  show execGetFeatures n s = _
  unfold execGetFeatures
  rw [State.begin_ready h]
  exact congrArg _ (if_pos (hrest.imp_left fun hbig => by dsimp only; omega))

/-! Events (R73) and the keep-alive timer (R100) -/

theorem asynchronousEventRequest_answered (h : s.ready n .asyncEventRequest = some c) (hk : Table.find c.ctrl s.cmd.ctrls = some k)
    {a : Nat × Nat} {r : List (Nat × Nat)} (hn : k.notices = a :: r) : Answers (.asynchronousEventRequest n) s fun t =>
      t.ended n = some { sct := 0, sc := 0, dw0 := a.1, dw1 := a.2 } ∧ (Table.find c.ctrl t.cmd.ctrls).map Controller.notices = some r := by
  refine .of_eq (t := ((s.begun n c).modCtrl c.ctrl fun k => { k with notices := r }).finish n { sct := 0, sc := 0, dw0 := a.1, dw1 := a.2 }) ?_
    ⟨State.begun_ends (u := (s.begun n c).modCtrl c.ctrl _) h rfl _, ?_⟩
  · show execAsynchronousEventRequest n s = _
    unfold execAsynchronousEventRequest
    rw [State.begin_ready h]
    simp only [State.ctrlFor_begun hk, hn]
  · rw [State.finish_ctrls, State.find_modCtrl, State.ctrls_begun, hk]
    rfl

theorem asynchronousEventRequest_waits (h : s.ready n .asyncEventRequest = some c) (hk : Table.find c.ctrl s.cmd.ctrls = some k)
    (hn : k.notices = []) (hroom : k.aers.length < 4) : Answers (.asynchronousEventRequest n) s fun t =>
      t.ended n = none ∧ (Table.find c.ctrl t.cmd.ctrls).map Controller.aers = some (k.aers ++ [n]) := by
  refine .of_eq (t := (s.begun n c).modCtrl c.ctrl fun k => { k with aers := k.aers ++ [n] }) ?_ ⟨State.begun_open h rfl, ?_⟩
  · show execAsynchronousEventRequest n s = _
    unfold execAsynchronousEventRequest
    rw [State.begin_ready h]
    simp only [State.ctrlFor_begun hk, hn, if_neg (Nat.not_le.2 hroom)]
  · rw [State.find_modCtrl, State.ctrls_begun, hk]
    rfl

theorem asynchronousEventRequest_refused (h : s.ready n .asyncEventRequest = some c) (hk : Table.find c.ctrl s.cmd.ctrls = some k)
    (hn : k.notices = []) (hfull : 4 ≤ k.aers.length) : Answers (.asynchronousEventRequest n) s fun t =>
      t.ended n = some { sct := 1, sc := 0x05 } := by
  refine .of_eq (t := (s.begun n c).finish n { sct := 1, sc := 0x05 }) ?_ (State.begun_ends h rfl _)
  show execAsynchronousEventRequest n s = _
  unfold execAsynchronousEventRequest
  rw [State.begin_ready h]
  simp only [State.ctrlFor_begun hk, hn, if_pos hfull]

theorem keepAlive_restarts (h : s.ready n .keepAlive = some c) (hk : Table.find c.ctrl s.cmd.ctrls = some k) :
    Answers (.keepAlive n) s fun t => Table.find c.ctrl t.cmd.ctrls = some { k with keepAlives := k.keepAlives + 1 } ∧ t.ended n = some success := by
  refine .of_eq (t := ((s.begun n c).modCtrl c.ctrl fun k => { k with keepAlives := k.keepAlives + 1 }).finish n success)
    (congrArg _ (State.begin_ready h _)) ⟨?_, ?_⟩
  · rw [State.finish_ctrls, State.find_modCtrl, State.ctrls_begun, hk]
    rfl
  · exact State.begun_ends (u := (s.begun n c).modCtrl c.ctrl _) h rfl _

/-- A controller that is reset has no capsule left in intake (R94). -/
theorem State.resetController_intake {x : Nat} (hx : Table.find x s.cmd.ctrls = some k) (keep : Option Nat) :
    ∀ w ∈ (s.resetController x keep).intake, w.ctrl ≠ x := by
  unfold State.resetController
  simp only [hx]
  generalize List.foldl State.resetTag _ _ = u
  intro w hw
  rw [State.settlePs_intake, State.intake, State.cmd_noteTags, ← State.intake] at hw
  rcases List.mem_append.1 hw with hw | hw
  · exact by simpa using (List.mem_filter.1 hw).2
  · exact by simpa using (List.mem_filter.1 hw).2

/-! Associations (R94, R503) -/

theorem fabricsConnect_makes (h : s.ready n .connect = some c) (hq : c.cap.cdw10 < 65536) (hnone : s.ctrlOf c.cap.qpn = none) :
    Answers (.fabricsConnect n) s fun t => Table.find s.cmd.nextCtrl t.cmd.ctrls =
        some { adminQp := c.cap.qpn, kato := c.cap.cdw12, hostId := num (slice c.cap.data 0 16) } ∧
      t.cmd.nextCtrl = s.cmd.nextCtrl + 1 ∧ t.ended n = some { sct := 0, sc := 0, dw0 := s.cmd.nextCtrl } := by
  generalize hk : ({ adminQp := c.cap.qpn, kato := c.cap.cdw12, hostId := num (slice c.cap.data 0 16) } : Controller) = k
  generalize hu : ({ s.begun n c with
    cmd.ctrls := Table.put s.cmd.nextCtrl k s.cmd.ctrls
    cmd.nextCtrl := s.cmd.nextCtrl + 1 } : State) = u
  have htag : u.tag n = some { c with begun := true } := by
    rw [← hu]
    exact s.tag_begun n c
  refine .of_eq (t := (u.modTag n fun c => { c with ctrl := s.cmd.nextCtrl }).finish n { sct := 0, sc := 0, dw0 := s.cmd.nextCtrl }) ?_ ⟨?_, ?_, ?_⟩
  · show execFabricsConnect n s = _
    unfold execFabricsConnect
    rw [State.begin_ready h]
    dsimp only
    have hfree : ((s.begun n c).ctrlOf c.cap.qpn).isSome = false := congrArg Option.isSome hnone
    rw [if_pos (Nat.div_eq_of_lt hq), hfree, if_neg Bool.false_ne_true, hk, ← hu]
    rfl
  · rw [← hu]
    exact Table.find_put_same ..
  · rw [← hu]
    rfl
  · exact State.finish_ended (State.tag_modTag htag _) (show c.status = none from State.ready_status h) _

theorem propertyGet_cc (h : s.ready n .propertyGet = some c) (hk : Table.find c.ctrl s.cmd.ctrls = some k) (hp : c.cap.cdw11 = 0x14) :
    Answers (.propertyGet n) s fun t => t.ended n = some { sct := 0, sc := 0, dw0 := k.cc } := by
  refine .of_eq (t := (s.begun n c).finish n { sct := 0, sc := 0, dw0 := k.cc }) ?_ (State.begun_ends h rfl _)
  show execPropertyGet n s = _
  unfold execPropertyGet
  rw [State.begin_ready h]
  simp only [hp]
  rw [State.ctrlFor_begun hk]

theorem propertyGet_csts (h : s.ready n .propertyGet = some c) (hk : Table.find c.ctrl s.cmd.ctrls = some k) (hp : c.cap.cdw11 = 0x1C) :
    Answers (.propertyGet n) s fun t => t.ended n = some { sct := 0, sc := 0, dw0 := k.csts } := by
  refine .of_eq (t := (s.begun n c).finish n { sct := 0, sc := 0, dw0 := k.csts }) ?_ (State.begun_ends h rfl _)
  show execPropertyGet n s = _
  unfold execPropertyGet
  rw [State.begin_ready h]
  simp only [hp]
  rw [State.ctrlFor_begun hk]

/-- A write of CC that raises EN, with no shutdown, enables the controller, which is ready at once (R94). -/
theorem State.writeCc_enables {x v : Nat} (hk : Table.find x s.cmd.ctrls = some k) (hen : k.en = false) (hreset : k.resetting = false)
    (hv : v % 2 = 1) (hshn : v / 2 ^ 14 % 4 = 0) : s.writeCc n x v =
      ((s.modCtrl x fun k => { k with cc := v }).modCtrl x fun k => { k with en := true, rdy := true, shn := 0, shst := 0 }).settlePs none := by
  unfold State.writeCc
  simp only [hk, hen, hreset, hv, hshn]
  rfl

theorem propertySet_enables (h : s.ready n .propertySet = some c) (hk : Table.find c.ctrl s.cmd.ctrls = some k) (hp : c.cap.cdw11 = 0x14)
    (hv : c.cap.cdw12 % 2 = 1) (hshn : c.cap.cdw12 / 2 ^ 14 % 4 = 0) (hen : k.en = false) (hreset : k.resetting = false) :
    Answers (.propertySet n) s fun t => (Table.find c.ctrl t.cmd.ctrls).any (fun x => x.en && x.rdy && x.cc == c.cap.cdw12) = true ∧
      t.ended n = some success := by
  generalize hu : ((s.begun n c).modCtrl c.ctrl fun k => { k with cc := c.cap.cdw12 }).modCtrl c.ctrl
    (fun k => { k with en := true, rdy := true, shn := 0, shst := 0 }) = u
  refine .of_eq (t := (u.settlePs none).finish n success) ?_ ⟨?_, ?_⟩
  · show execPropertySet n s = _
    unfold execPropertySet
    rw [State.begin_ready h]
    dsimp only
    rw [if_pos hp, State.writeCc_enables (s := s.begun n c) (k := k) hk hen hreset hv hshn, hu]
  · rw [State.finish_ctrls, State.settlePs_ctrls, ← hu, State.find_modCtrl, State.find_modCtrl, State.ctrls_begun, hk]
    simp
  · refine State.begun_ends h ?_ _
    rw [State.settlePs_tag, ← hu]
    rfl

theorem propertySet_other (h : s.ready n .propertySet = some c) (hp : c.cap.cdw11 ≠ 0x14) :
    Answers (.propertySet n) s fun t => t.ended n = some (generic 0x02) := by
  refine .of_eq (t := (s.begun n c).finish n (generic 0x02)) ?_ (State.begun_ends h rfl _)
  show execPropertySet n s = _
  unfold execPropertySet
  rw [State.begin_ready h]
  exact congrArg _ (if_neg hp)

theorem disconnect_ends (h : s.ready n .disconnect = some c) (hk : Table.find c.ctrl s.cmd.ctrls = some k) :
    Answers (.disconnect n) s fun t =>
      (∀ w ∈ t.intake, w.ctrl ≠ c.ctrl) ∧ ∀ x, Table.find c.ctrl t.cmd.ctrls = some x → x.connected = false := by
  have empty := State.resetController_intake (s := s.begun n c) (k := k) hk (some n)
  refine .of_eq (t := (((s.begun n c).resetController c.ctrl (some n)).modCtrl c.ctrl fun k => { k with connected := false }).finish n success)
    (congrArg _ (State.begin_ready h _)) ⟨empty, fun x hx => ?_⟩
  rw [State.finish_ctrls, State.find_modCtrl, Option.map_eq_some_iff] at hx
  obtain ⟨y, -, rfl⟩ := hx
  rfl

theorem cstsRdyClear_clears {x : Nat} (hk : Table.find x s.cmd.ctrls = some k) (hreset : k.resetting = true)
    (hnone : (s.cmd.tags.any fun e => e.2.cls == .initiator && e.2.ctrl == x) = false) :
    Answers (.cstsRdyClear x) s fun t => Table.find x t.cmd.ctrls =
      if k.connected then some { k with rdy := false, resetting := false, shst := if k.shn = 2 then 2 else k.shst } else none := by
  unfold Answers
  rw [show exec (.cstsRdyClear x) s = execCstsRdyClear x s from rfl]
  unfold execCstsRdyClear
  simp only [hk, hreset, hnone, Bool.not_false, Bool.and_self, if_true]
  split
  · exact ⟨_, rfl, by rw [State.find_modCtrl, hk]; rfl⟩
  · exact ⟨_, rfl, Table.find_drop_same ..⟩

theorem shutdownComplete_sets {x : Nat} (hk : Table.find x s.cmd.ctrls = some k) (hshn : k.shn = 1) (hshst : k.shst = 1)
    (hnone : (s.cmd.tags.any fun e => e.2.cls == .initiator && e.2.ctrl == x && !(k.aers.contains e.1)) = false)
    (hempty : (s.intake.any fun w => w.ctrl == x) = false) :
    Answers (.shutdownComplete x) s fun t => Table.find x t.cmd.ctrls = some { k with shst := 2 } := by
  refine .of_eq (t := s.modCtrl x fun k => { k with shst := 2 }) ?_ (by rw [State.find_modCtrl, hk]; rfl)
  show execShutdownComplete x s = _
  unfold execShutdownComplete
  simp only [hk, hshn, hshst, hnone, hempty, beq_self_eq_true, Bool.not_false, Bool.and_self, if_true]

end

/-- Settles O13, command by command. -/
theorem adminCommands : Obligations.AdminCommands := by
  unfold Obligations.AdminCommands
  refine ⟨fun s n c k h hk => ⟨getLogPage_changed h hk, getLogPage_unknown h⟩,
    fun s n c h hcns => ⟨fun x hx => identify_namespace h hcns hx, identify_absent h hcns⟩,
    fun s n c k h hk => ⟨setFeatures_saved h, setFeatures_reserved h, fun h12 h13 h14 h15 =>
      ⟨fun k' d hfid hps hpersist => setFeatures_stores h hk h12 h13 h14 h15 hfid hps hpersist, setFeatures_power h hk h12 h13 h14 h15,
        fun hfid hv => ⟨setFeatures_persist_absent h h12 h13 h14 h15 hfid, fun hall hno => ?noNamespace, fun x hx hnamed => ?persist⟩⟩⟩,
    fun s n c k h hk => ⟨getFeatures_value h hk, getFeatures_reserved h⟩,
    fun s n c k h hk => ⟨fun a r hn => asynchronousEventRequest_answered h hk hn, asynchronousEventRequest_waits h hk,
      asynchronousEventRequest_refused h hk⟩,
    fun s n c k h hk => keepAlive_restarts h hk,
    fun s x k hk hkato => .of_eq (t := s.resetController x) ?expires (State.resetController_intake hk none),
    fun s n c h hq hnone => fabricsConnect_makes h hq hnone,
    fun s n c k h hk => ⟨propertyGet_cc h hk, propertyGet_csts h hk⟩,
    fun s n c k h hk => ⟨fun hp hv hshn hen hreset => propertySet_enables h hk hp hv hshn hen hreset, propertySet_other h⟩,
    fun s n c k h hk => disconnect_ends h hk,
    fun s x k hk hreset hnone => cstsRdyClear_clears hk hreset hnone,
    fun s x k hk hshn hshst hnone hempty => shutdownComplete_sets hk hshn hshst hnone hempty⟩
  case noNamespace =>
    refine .of_eq (setFeatures_persist h hk h12 h13 h14 h15 hfid hv (.inl hall)) ?_
    rw [State.setPersist_none ((s.begun n c).modCtrl c.ctrl _) _ _ hno]
    exact State.begun_ends (u := (s.begun n c).modCtrl c.ctrl _) h rfl _
  case persist =>
    have hnamed' : c.cap.nsid = 0xFFFFFFFF ∨ Table.has c.cap.nsid s.map.ns = true := hnamed.imp_right fun e => by rw [e, hx]
    refine .of_eq (setFeatures_persist h hk h12 h13 h14 h15 hfid hv hnamed') ?_
    obtain ⟨htags, hasks⟩ := State.setPersist_asks (s := (s.begun n c).modCtrl c.ctrl fun _ => k) (n := n) (c := { c with begun := true }) hx hnamed
    exact ⟨State.begun_open h (congrArg (Table.find n) htags), hasks⟩
  case expires =>
    show execKeepAliveExpiry x s = _
    unfold execKeepAliveExpiry
    simp only [hk, if_neg hkato]

end Sys2Proof.Machine
end

section
/-!
Commands that stay in their tags: what the work of a command leaves of it there, up to its end.
-/
namespace Sys2Proof.Machine
open Sys2Proof

/-- The segments of a command's write: first byte and length of each. -/
def Cmd.parts (c : Cmd) : Option (List (Nat × Nat)) := c.write.map fun w => w.segs.map fun g => (g.off, g.len)

/-- A command stays of its class; where it has not ended, its write stays divided as it was (into segments of different first bytes), and where
it has, it stays ended. -/
structure Cmd.Stays (c d : Cmd) : Prop where
  cls   : d.cls = c.cls
  ended : c.status.isSome = true → d.status.isSome = true
  parts : ∀ l, c.parts = some l → (l.map Prod.fst).Nodup → d.status.isSome = true ∨ d.parts = some l

theorem Cmd.Stays.refl (c : Cmd) : c.Stays c := ⟨rfl, id, fun _ hl _ => .inr hl⟩

theorem Cmd.Stays.trans {c d e : Cmd} (h : c.Stays d) (g : d.Stays e) : c.Stays e := by
  refine ⟨g.cls.trans h.cls, g.ended ∘ h.ended, fun l hl hdistinct => ?_⟩
  rcases h.parts l hl hdistinct with hd | hd
  · exact .inl (g.ended hd)
  · exact g.parts l hd hdistinct

/-- A change of neither class nor status keeps a command, where it keeps how its write is divided. -/
theorem Cmd.Stays.of_parts {c d : Cmd} (hcls : d.cls = c.cls) (hst : d.status = c.status) (hparts : d.parts = c.parts) : c.Stays d :=
  ⟨hcls, fun h => hst ▸ h, fun _ hl _ => .inr (hparts.trans hl)⟩

/-- A command that is given a status stays. -/
theorem Cmd.Stays.of_ended {c d : Cmd} (hcls : d.cls = c.cls) (hst : d.status.isSome = true) : c.Stays d :=
  ⟨hcls, fun _ => hst, fun _ _ _ => .inl hst⟩

/-- Every command of a tag is there, as far as it has not ended. -/
structure TagsStay (s t : State) : Prop where
  stays : ∀ m c, s.tag m = some c → ∃ d, t.tag m = some d ∧ c.Stays d

theorem TagsStay.refl (s : State) : TagsStay s s := ⟨fun _ c hc => ⟨c, hc, .refl c⟩⟩

theorem TagsStay.trans {s t u : State} (h : TagsStay s t) (g : TagsStay t u) : TagsStay s u := by
  refine ⟨fun m c hc => ?_⟩
  obtain ⟨d, hd, hcd⟩ := h.stays m c hc
  obtain ⟨e, he, hde⟩ := g.stays m d hd
  exact ⟨e, he, hcd.trans hde⟩

theorem TagsStay.of_tags {s t : State} (h : t.cmd.tags = s.cmd.tags) : TagsStay s t := by
  refine ⟨fun m c hc => ⟨c, ?_, .refl c⟩⟩
  unfold State.tag at hc ⊢
  rw [h, hc]

theorem TagsStay.frame {s t u : State} (h : TagsStay s t) (g : Within (Part.but [.cmd]) t u) : TagsStay s u :=
  h.trans (.of_tags (by rw [g.only.cmd rfl]))

theorem TagsStay.ite {s t u : State} {p : Prop} [Decidable p] (h : TagsStay s t) (g : TagsStay s u) : TagsStay s (if p then t else u) := by
  split <;> assumption

theorem TagsStay.foldl {α : Type} {s t : State} {f : State → α → State} (l : List α) (h : TagsStay s t)
    (g : ∀ u x, TagsStay s u → TagsStay s (f u x)) : TagsStay s (l.foldl f t) := by
  induction l generalizing t with
  | nil => exact h
  | cons x r ih => exact ih (g t x h)

theorem Table.find_mapVals {α : Type} (f : Nat → α → α) (k : Nat) (t : Table α) :
    Table.find k (Table.mapVals f t) = (Table.find k t).map (f k) := by
  induction t with
  | nil => rfl
  | cons e r ih =>
    simp only [Table.find, Table.mapVals, List.map_cons]
    by_cases he : e.1 = k
    · rw [if_pos he, if_pos he, he, Option.map_some]
    · rw [if_neg he, if_neg he]
      exact ih

/-- Where the command of one tag is changed so that it stays, all do. -/
theorem TagsStay.modify {s t u : State} (h : TagsStay s t) {n : Nat} {f : Cmd → Cmd} (hu : u.cmd.tags = Table.modify n f t.cmd.tags)
    (hf : ∀ c : Cmd, t.tag n = some c → c.Stays (f c)) : TagsStay s u := by
  refine h.trans ⟨fun m c hc => ?_⟩
  unfold State.tag at hc ⊢
  rw [hu]
  by_cases hm : m = n
  · subst hm
    rw [Table.find_modify_same, hc]
    exact ⟨f c, rfl, hf c hc⟩
  · refine ⟨c, ?_, .refl c⟩
    unfold Table.modify
    split
    · rw [Table.find_put_other hm, hc]
    · exact hc

section
variable {s t : State} (h : TagsStay s t)
include h

/-! The tag table's own operations -/

theorem TagsStay.modTag n {f : Cmd → Cmd} (hf : ∀ c : Cmd, c.Stays (f c)) : TagsStay s (t.modTag n f) := h.modify rfl fun c _ => hf c

theorem TagsStay.modWrite n {f : WriteJob → WriteJob} (hf : ∀ w, (f w).segs.map (fun g => (g.off, g.len)) = w.segs.map fun g => (g.off, g.len)) :
    TagsStay s (t.modWrite n f) := by
  refine h.modTag n fun c => .of_parts rfl rfl ?_
  unfold Cmd.parts
  cases c.write with
  | none => rfl
  | some w => exact congrArg some (hf w)

theorem TagsStay.modChunk n off f : TagsStay s (t.modChunk n off f) := h.modWrite n fun _ => rfl

/-! What a cancelled command gives up (R90) -/

theorem TagsStay.removeIndex key : TagsStay s (t.removeIndex key) := by
  unfold State.removeIndex
  split
  · exact h
  · refine .ite (h.frame (State.dropIndex_frame _ (.refl _ _) rfl)) (.frame ?_ (State.dropIndex_frame _ (.refl _ _) rfl))
    refine h.trans ⟨fun m c hc => ?_⟩
    unfold State.tag at hc ⊢
    dsimp only
    rw [Table.find_mapVals, hc]
    refine ⟨_, rfl, .of_parts rfl rfl ?_⟩
    unfold Cmd.parts
    dsimp only
    rw [Option.map_map]
    rfl

theorem TagsStay.releaseStorage loc : TagsStay s (t.releaseStorage loc) := by
  have gone : TagsStay s (((t.indexKeysOf loc).foldl State.removeIndex t).uncountStored loc) :=
    .frame (.foldl _ h fun _ _ h => h.removeIndex _) (State.uncountStored_frame _ (.refl _ _) rfl)
  unfold State.releaseStorage
  dsimp only
  split
  · refine .frame ?_ (State.sendRing_frame _ (.refl _ _) rfl)
    exact gone.trans (.of_tags rfl)
  · exact gone.trans (.of_tags rfl)

theorem TagsStay.unpin key : TagsStay s (t.unpin key) := by
  unfold State.unpin
  split
  · exact h
  · extract_lets e' _ u _ v
    have hu : TagsStay s u := .ite (h.trans (.of_tags rfl)) (h.trans (.of_tags rfl))
    have hv : TagsStay s v := hu.trans (.of_tags rfl)
    exact .ite (.ite (hv.releaseStorage _) hv) hu

theorem TagsStay.unpinChunks chunks : TagsStay s (t.unpinChunks chunks) := .foldl _ h fun _ _ h => h.unpin _

theorem TagsStay.giveUp n c : TagsStay s (t.giveUp n c) := by
  unfold State.giveUp
  extract_lets u _ v w
  have hu : TagsStay s u := by
    unfold u
    split
    · exact (h.unpinChunks _).frame (State.dropPending_frame _ (.refl _ _) rfl)
    · exact h
  have hv : TagsStay s v := by
    unfold v
    split
    · exact hu.frame (State.removeSnap_frame _ _ (.refl _ _) rfl)
    · exact .ite (hu.trans (.of_tags rfl)) hu
    · exact hu.trans (.of_tags rfl)
    · exact hu
  have hw : TagsStay s w := hv.frame (State.stopRun_frame _ (State.leaveGroup_frame _ _ (.refl _ _) rfl) rfl)
  exact hw.trans (.of_tags rfl)

theorem TagsStay.cancelWith n st : TagsStay s (t.cancelWith n st) := by
  unfold State.cancelWith
  split
  · exact h
  · refine TagsStay.modTag (.ite ?_ (h.giveUp ..)) _ fun _ => ?_
    · exact (h.giveUp ..).trans (.of_tags rfl)
    · exact .of_ended rfl rfl

theorem TagsStay.failWrite n st event : TagsStay s (t.failWrite n st event) :=
  (h.cancelWith ..).frame (State.event1_frame _ _ (.refl _ _) rfl)

theorem TagsStay.cipherFault n : TagsStay s (t.cipherFault n) :=
  .failWrite (h.frame (State.bump_frame _ _ _ _ (State.fresh_frame (.refl _ _) rfl) rfl)) ..

/-! The chunks of a write (R107, R113) -/

theorem TagsStay.stall n lane : TagsStay s (t.stall n lane) := by
  unfold State.stall
  extract_lets first u v
  have hu : TagsStay s u := by
    unfold u
    split
    · exact h.frame (State.setOwn_frame _ _ (.refl _ _) rfl)
    · exact h
  have hv : TagsStay s v := .ite (hu.frame (State.bump_frame _ _ _ _ (.refl _ _) rfl)) hu
  refine TagsStay.modWrite ?_ _ fun _ => rfl
  exact hv.trans (.of_tags rfl)

theorem TagsStay.forwardChunk n domain k fp : TagsStay s (t.forwardChunk n domain k fp) := by
  unfold State.forwardChunk
  split
  · exact (h.failWrite ..).frame (State.sendRing_frame _ (.refl _ _) rfl)
  · have drawn : TagsStay s t.dummyRound.2 := h.frame (State.dummyRound_frame (.refl _ _) rfl)
    exact .ite ((drawn.cipherFault _).frame (State.sendRing_frame _ (.refl _ _) rfl))
      ((drawn.modChunk ..).frame (State.forwardUnit_frame _ _ _ (.refl _ _) rfl))

theorem TagsStay.askChunk n domain k : TagsStay s (t.askChunk n domain k) := by
  unfold State.askChunk
  split
  · exact h.failWrite ..
  · refine .ite (h.failWrite ..) ?_
    split
    · exact h
    · have used := h.frame (State.useStates_frame k.lane (t.rd Reg.DDP_DOMAIN_KEYS.DIGEST_SLOT domain) (.refl _ _) rfl)
      exact .ite (used.forwardChunk ..) ((used.modChunk ..).frame (State.send_frame _ (.refl _ _) rfl))

theorem TagsStay.bump f v i j (hf : Part.sub [.block f.block] (Part.but [.cmd]) = true) : TagsStay s (t.bump f v i j) :=
  h.frame (State.bump_frame _ _ _ _ (.refl _ _) hf)

theorem TagsStay.storeChunk n domain k noIndex : TagsStay s (t.storeChunk n domain k noIndex) := by
  unfold State.storeChunk
  extract_lets built
  generalize built = b
  split
  · exact h.failWrite ..
  · extract_lets hd u v
    have hu : TagsStay s u := h.modChunk ..
    have hv : TagsStay s v := .ite (hu.bump _ _ _ _ rfl) hu
    exact (hv.bump _ _ _ _ rfl).bump _ _ _ _ rfl

theorem TagsStay.cutChunk n domain total g off bytes : TagsStay s (t.cutChunk n domain total g off bytes) := by
  unfold State.cutChunk
  extract_lets time k u _ v w x
  have hu : TagsStay s u := h.modWrite n fun _ => rfl
  have hv : TagsStay s v := by
    refine TagsStay.bump ?_ _ _ _ _ rfl
    exact hu.trans (.of_tags rfl)
  have hw : TagsStay s w := .ite (hv.bump _ _ _ _ rfl) hv
  have hx : TagsStay s x := .ite (hw.bump _ _ _ _ rfl) hw
  have drawn : TagsStay s x.dummyRound.2 := hx.frame (State.dummyRound_frame (.refl _ _) rfl)
  have zeroed := (hx.modChunk n off fun k => { k with state := .zero }).bump Reg.BND_ZERO.COUNT 1 0 0 rfl
  exact .ite (.ite (zeroed.frame (State.forwardUnit_frame _ _ _ (.refl _ _) rfl)) zeroed)
    (.ite (.ite (hx.forwardChunk ..) (.ite (drawn.cipherFault _) (drawn.storeChunk ..))) (hx.askChunk ..))

end

/-! Segments that take in bytes keep their place (R106) -/

theorem Segment.feed_place (seed grid base : Nat) (g : Segment) (b : Byte) :
    (g.feed seed grid base b).1.off = g.off ∧ (g.feed seed grid base b).1.len = g.len := by
  unfold Segment.feed
  dsimp only
  split_ifs <;> exact ⟨rfl, rfl⟩

theorem Segment.feedAll_place (seed grid base : Nat) (l : List Byte) (g : Segment) (cuts : List (Nat × List Byte)) :
    (Segment.feedAll seed grid base l g cuts).1.off = g.off ∧ (Segment.feedAll seed grid base l g cuts).1.len = g.len := by
  induction l generalizing g cuts with
  | nil => exact ⟨rfl, rfl⟩
  | cons b r ih =>
    unfold Segment.feedAll
    split
    · exact ⟨rfl, rfl⟩
    · obtain ⟨hoff, hlen⟩ := ih (g.feed seed grid base b).1 (cuts ++ (g.feed seed grid base b).2.toList)
      obtain ⟨hoff', hlen'⟩ := g.feed_place seed grid base b
      exact ⟨hoff.trans hoff', hlen.trans hlen'⟩

/-- A write one segment of which is changed, its place kept, stays divided as it was. -/
theorem Cmd.Stays.of_segment {c : Cmd} {w : WriteJob} {old new : Segment} (hw : c.write = some w) (hold : old ∈ w.segs)
    (hoff : new.off = old.off) (hlen : new.len = old.len) :
    c.Stays { c with write := c.write.map fun w => { w with segs := w.segs.map fun x => if x.off = old.off then new else x } } := by
  refine ⟨rfl, id, fun l hl hdistinct => .inr ?_⟩
  unfold Cmd.parts at hl ⊢
  dsimp only at hl ⊢
  rw [hw, Option.map_some, Option.some.injEq] at hl
  rw [hw, Option.map_some, Option.map_some, Option.some.injEq, List.map_map, ← hl]
  rw [← hl, List.map_map] at hdistinct
  refine List.map_congr_left fun x hx => ?_
  dsimp only [Function.comp]
  split
  · next hsame => rw [List.inj_on_of_nodup_map hdistinct hx hold hsame, hoff, hlen]
  · rfl

section
variable {s t : State} (h : TagsStay s t)
include h

/-! The intake and the hand-off of a write (R107, R160) -/

theorem TagsStay.takeIn n off : TagsStay s (t.takeIn n off) := by
  unfold State.takeIn
  split
  · exact h
  · next c hc =>
    split
    · exact h
    · next w hw =>
      split
      · exact h
      · next old hold =>
        have hoff : old.off = off := by
          have := List.find?_some hold
          simp only [Bool.and_eq_true, beq_iff_eq] at this
          exact this.1
        subst hoff
        refine .ite h ?_
        dsimp only
        refine .foldl _ (.frame ?_ (State.serveStream_frame _ _ (.refl _ _) rfl)) fun _ _ h => h.cutChunk ..
        refine h.modify rfl fun c' hc' => ?_
        obtain rfl : c = c' := Option.some.inj (hc.symm.trans hc')
        exact .of_segment hw (List.mem_of_find?_eq_some hold) (Segment.feedAll_place ..).1 (Segment.feedAll_place ..).2

theorem TagsStay.queueItems n nsid lanes : TagsStay s (t.queueItems n nsid lanes) := by
  unfold State.queueItems
  refine .ite (h.cancelWith ..) ?_
  split
  · exact TagsStay.stall (h.frame (State.fillSegs_frame _ (.refl _ _) rfl)) ..
  · next built =>
    have records := h.frame ((State.buildRecords_frame _ _ _ _ _ _ _ _ _ built).mono rfl)
    refine TagsStay.modTag (TagsStay.modWrite records _ fun _ => ?_) _ fun _ => ?_
    · rfl
    · exact .of_parts rfl rfl rfl

theorem TagsStay.tryHandOff n : TagsStay s (t.tryHandOff n) := by
  unfold State.tryHandOff
  split
  · exact h
  split
  · exact h
  · exact .ite (h.queueItems ..) h

theorem TagsStay.queueRead n tag off len : TagsStay s (t.queueRead n tag off len) := by
  unfold State.queueRead
  refine .frame ?_ (State.issueRead_frame _ (.refl _ _) rfl)
  have hq := h.frame (State.setQp_frame n { t.qp n with reads := (t.qp n).reads ++ [{ tag := tag, segment := off, len := len, left := len }] } (.refl _ _) rfl)
  exact hq.modify rfl fun _ _ => .of_parts rfl rfl rfl

theorem TagsStay.startSeg n off : TagsStay s (t.startSeg n off) := by
  unfold State.startSeg
  split
  · exact h
  split
  · exact h
  refine .ite h ?_
  extract_lets held fix _ u
  have hu : TagsStay s u := by
    refine h.modify rfl fun c _ => .of_parts rfl rfl ?_
    have keeps (x : Segment) : (fix x).off = x.off ∧ (fix x).len = x.len := by
      unfold fix
      split <;> exact ⟨rfl, rfl⟩
    unfold Cmd.parts
    dsimp only
    rw [Option.map_map]
    refine congrArg (Option.map · c.write) (funext fun w => ?_)
    dsimp only [Function.comp]
    rw [List.map_map]
    exact List.map_congr_left fun x _ => Prod.ext (keeps x).1 (keeps x).2
  exact .ite hu (hu.queueRead ..)

theorem TagsStay.pumpTag n : TagsStay s (t.pumpTag n) := by
  unfold State.pumpTag
  split
  · exact h
  · exact TagsStay.tryHandOff (.foldl _ h fun _ _ h => (h.startSeg ..).takeIn ..) _

/-! Notices (R73) -/

theorem TagsStay.notice ctrl code about : TagsStay s (t.notice ctrl code about) := by
  unfold State.notice
  split
  · exact h
  · split
    · exact h.trans (.of_tags rfl)
    · refine TagsStay.modTag ?_ _ fun _ => ?_
      · exact h.trans (.of_tags rfl)
      · exact .of_ended rfl rfl

theorem TagsStay.tellHosts nsid hosts bit : TagsStay s (t.tellHosts nsid hosts bit) :=
  .foldl _ h fun _ _ h => .ite ((h.notice ..).trans (.of_tags rfl)) h

end

end Sys2Proof.Machine
end

section
/-!
Changes of metadata at their hand-off (R163, R171): a change that is barred ends its command, and one that finds room is queued.
-/
namespace Sys2Proof.Machine
open Sys2Proof

section
variable {s : State} {n : Nat} {c : Cmd}

theorem State.tag_frame {s t : State} (h : Within (Part.but [.cmd]) s t) (n : Nat) : t.tag n = s.tag n := State.tag_congr (h.only.cmd rfl) n

theorem State.cancelWith_ended (hc : s.tag n = some c) (st : NvmeStatus) : (s.cancelWith n st).ended n = some st := by
  obtain ⟨d, hd, -⟩ := ((TagsStay.refl s).giveUp n c).stays n c hc
  unfold State.cancelWith State.ended
  rw [hc]
  dsimp only
  have hu : State.tag (if (s.giveUp n c).cmd.psWaiter = some n then { s.giveUp n c with cmd.psWaiter := none } else s.giveUp n c) n = some d := by
    split
    · exact hd
    · exact hd
  rw [State.tag_modTag hu]
  rfl

/-- A change that is barred ends its command (R171). -/
theorem State.queueMeta_barred (hc : s.tag n = some c) (hbars : s.bars n = true) (nsid : Nat) (op : MetaOp) :
    (s.queueMeta n nsid op).ended n = some (vendor 0xE3) := by
  unfold State.queueMeta
  dsimp only
  rw [if_pos hbars]
  exact State.cancelWith_ended (State.tag_modTag hc _) _

theorem State.roomFor_of_hasRoom {len : Nat} (h : s.hasRoom len = true) : ∃ seg opens u, s.roomFor metaLane len = (some (seg, opens), u) := by
  obtain ⟨⟨seg, opens⟩, hx⟩ := Option.isSome_iff_exists.1 h
  exact ⟨seg, opens, (s.roomFor metaLane len).2, Prod.ext hx rfl⟩

/-- A change that is not barred, and that finds room, is queued with the root of its new tree. -/
theorem State.queueMeta_queued (hc : s.tag n = some c) (hbars : s.bars n = false) (hroom : s.hasRoom 192 = true) {op : MetaOp} (nsid : Nat)
    (hop : ∀ m (r : Reservation), op ≠ .reservation m (.set r)) : ∃ d w, ∃ u : State, (s.queueMeta n nsid op).tag n = some d ∧
      d.change = some (u.withTree op none).1 ∧ d.write = some w ∧ w.queued = true ∧ ((∀ m r, op ≠ .reservation m r) → d.state = .pastReturn) := by
  obtain ⟨seg, opens, u, hu⟩ := State.roomFor_of_hasRoom hroom
  unfold State.queueMeta
  extract_lets due stays
  have same : op = due := by
    unfold due
    split
    · next m r => exact absurd rfl (hop m r)
    · rfl
  have leaves (hno : ∀ m r, op ≠ .reservation m r) : stays = false := by
    unfold stays
    rw [← same]
    split
    · next m r => exact absurd rfl (hno m r)
    · rfl
  clear_value stays due
  subst same
  rw [hbars, if_neg Bool.false_ne_true, hu]
  dsimp only
  have htag (r : MirRec) : ((u.withTree op none).2.queueRecord r).2.tag n = some c := by
    rw [State.tag_frame (State.queueRecord_frame r (.refl _ _) rfl), State.tag_frame (State.withTree_frame op none (.refl _ _) rfl),
      ← hc, ← State.tag_frame (State.roomFor_frame metaLane 192 (.refl _ s) rfl), hu]
  exact ⟨_, _, u, State.tag_modTag (by exact htag _) _, rfl, rfl, rfl, fun hno => if_neg (by simp [leaves hno])⟩

end

end Sys2Proof.Machine
end

section
/-!
Changes without data (R163, R251): the extents of a Write Zeroes or a deallocation make one record of the metadata lane.
-/
namespace Sys2Proof.Machine
open Sys2Proof

/-! The extents of a run of bytes -/

/-- The lengths of the first extents of a run add up to the bytes that they cover. -/
theorem bareLens_sum (size len m : Nat) : ((List.range m).map fun k => min size (len - k * size)).sum = min len (m * size) := by
  induction m with
  | zero => simp
  | succ m ih =>
    rw [List.range_succ, List.map_append, List.sum_append, ih, Nat.succ_mul]
    simp only [List.map_cons, List.map_nil, List.sum_cons, List.sum_nil]
    omega

theorem bareExtents_sum (loc : Loc) (addr len : Nat) : ((bareExtents loc addr len).map Extent.len).sum = len := by
  unfold bareExtents
  rw [List.map_map]
  refine (bareLens_sum 0xFFFFF000 len _).trans ?_
  omega

theorem bareExtents_le {loc : Loc} {addr len : Nat} {e : Extent} (he : e ∈ bareExtents loc addr len) : e.len ≤ 0xFFFFF000 := by
  obtain ⟨k, -, rfl⟩ := List.mem_map.1 he
  exact Nat.min_le_left _ _

theorem bareExtents_length (loc : Loc) (addr len : Nat) : (bareExtents loc addr len).length = (len + 0xFFFFEFFF) / 0xFFFFF000 := by
  unfold bareExtents
  rw [List.length_map, List.length_range]

/-- A run that is not longer than an extent is one extent. -/
theorem bareExtents_one (loc : Loc) (addr : Nat) {len : Nat} (hpos : 0 < len) (hle : len ≤ 0xFFFFF000) :
    bareExtents loc addr len = [{ addr := addr, len := len, loc := loc }] := by
  unfold bareExtents
  have hcount : (len + 0xFFFFEFFF) / 0xFFFFF000 = 1 := by omega
  rw [hcount]
  simp [Nat.min_eq_right hle]

theorem bareExtents_zero (loc : Loc) (addr : Nat) : bareExtents loc addr 0 = [] := List.eq_nil_of_length_eq_zero (bareExtents_length ..)

/-! Extents without containers in a record -/

/-- The items of extents without containers. -/
def bareItems (es : List Extent) : List RecItem := es.map fun e => (e, none)

theorem itemsLen_bareItems_le (es : List Extent) : itemsLen (bareItems es) ≤ 127 + 64 * es.length := by
  have units : deltaUnits es ≤ 2 * es.length := by
    unfold deltaUnits
    refine (List.sum_le_card_nsmul _ 2 fun x hx => ?_).trans ?_
    · obtain ⟨e, -, rfl⟩ := List.mem_map.1 hx
      split <;> decide
    · simp [Nat.mul_comm]
  have hfst : (bareItems es).map Prod.fst = es := by simp [bareItems, Function.comp_def]
  have hsnd : ((bareItems es).filterMap fun i => i.2.map List.length) = [] := by simp [bareItems]
  unfold itemsLen recordLen
  rw [hfst, hsnd]
  simp only [List.map_nil, List.sum_nil]
  omega

/-- Extents without containers, as far as they are not too many, make one record. -/
theorem packItems_bareItems (es pre : List Extent) (hfew : (pre ++ es).length ≤ 8192) (hne : pre ++ es ≠ []) :
    packItems (bareItems es) (bareItems pre) = [bareItems (pre ++ es)] := by
  induction es generalizing pre with
  | nil =>
    rw [List.append_nil] at hne ⊢
    unfold bareItems packItems
    simp [hne]
  | cons e r ih =>
    have hjoin : bareItems pre ++ [(e, none)] = bareItems (pre ++ [e]) := by simp [bareItems]
    have hle : ¬ 1048576 < itemsLen (bareItems (pre ++ [e])) := by
      have := itemsLen_bareItems_le (pre ++ [e])
      simp only [List.length_append, List.length_cons, List.length_nil] at this hfew
      omega
    have hassoc : pre ++ e :: r = (pre ++ [e]) ++ r := by simp
    rw [show bareItems (e :: r) = (e, none) :: bareItems r from rfl, packItems, hjoin, if_neg (by simp [hle]), hassoc]
    exact ih _ (hassoc ▸ hfew) (by simp)

theorem placeItems_bareItems (head : Bool) (seg gen : Nat) (es : List Extent) (start : Nat) :
    (placeItems head seg gen (bareItems es) start).map Prod.fst = es := by
  induction es with
  | nil => rfl
  | cons e r ih => exact congrArg (e :: ·) ih

section
variable {s : State} {n : Nat} {c : Cmd}

theorem State.bars_of_tag {u : State} {d : Cmd} (hc : s.tag n = some c) (hd : u.tag n = some d) (hcls : d.cls = c.cls) (hwc : u.wc = s.wc)
    (hregs : u.regs = s.regs) : u.bars n = s.bars n := by
  unfold State.bars State.refusesWrites State.on State.rd
  rw [hc, hd, hwc, hregs, Option.any_some, Option.any_some, hcls]

/-- A segment that changes leaves the limit of the own region, and all other segments, as they are. -/
theorem State.setOwn_room (s : State) (n : Nat) (g : OwnSeg) :
    (s.setOwn n g).wc.own = Table.put n g s.wc.own ∧ (s.setOwn n g).rd Reg.DDR_WC_CFG.LIMIT_SEGS = s.rd Reg.DDR_WC_CFG.LIMIT_SEGS := by
  have shows (u : State) : u.showMeta.rd Reg.DDR_WC_CFG.LIMIT_SEGS = u.rd Reg.DDR_WC_CFG.LIMIT_SEGS := State.rd_wr_field _ _ _ _ _ _ _ _ (by decide)
  have notes (u : State) : u.noteMeta.rd Reg.DDR_WC_CFG.LIMIT_SEGS = u.rd Reg.DDR_WC_CFG.LIMIT_SEGS := by
    unfold State.noteMeta
    split
    · have cleans : Within [.block 13, .sig, .map, .store] u u.cleanPages.saveStore :=
        State.saveStore_frame (State.cleanPages_frame (.refl _ u) rfl) rfl
      rw [shows, cleans.only.rd _ _ _ rfl rfl]
    · exact shows u
  have noted : Within (Part.but [.wc]) { s with wc.own := Table.put n g s.wc.own } (s.setOwn n g) := State.noteDirty_frame (.refl _ _) rfl
  refine ⟨by rw [noted.only.wc rfl], ?_⟩
  unfold State.setOwn State.noteDirty
  rw [notes, State.rd_wr_field _ _ _ _ _ _ _ _ (by decide), State.rd_wr_field _ _ _ _ _ _ _ _ (by decide)]
  rfl

theorem State.freeSeg_of {s u : State} (hown : u.wc.own = s.wc.own)
    (hlimit : u.rd Reg.DDR_WC_CFG.LIMIT_SEGS = s.rd Reg.DDR_WC_CFG.LIMIT_SEGS) : u.freeSeg = s.freeSeg := by
  unfold State.freeSeg State.ownSeg
  rw [hown, hlimit]

/-- The room of a lane is a matter of the own segments and their limit. -/
theorem State.hasRoom_of {u : State} (hown : u.wc.own = s.wc.own)
    (hlimit : u.rd Reg.DDR_WC_CFG.LIMIT_SEGS = s.rd Reg.DDR_WC_CFG.LIMIT_SEGS) (hclock : u.clock = s.clock) (len : Nat) :
    u.hasRoom len = s.hasRoom len := by
  have same : u.openSeg metaLane = s.openSeg metaLane := by
    unfold State.openSeg
    rw [hown]
  unfold State.hasRoom State.roomFor
  rw [same]
  cases s.openSeg metaLane with
  | none =>
    dsimp only
    rw [State.freeSeg_of hown hlimit]
    cases s.freeSeg <;> rfl
  | some e =>
    obtain ⟨m, g⟩ := e
    dsimp only
    by_cases hfit : g.fill + len ≤ 1048576
    · rw [if_pos hfit]
    · have full : (u.setOwn m { g with state := .full, fullAt := u.clock }).freeSeg = (s.setOwn m { g with state := .full, fullAt := s.clock }).freeSeg := by
        obtain ⟨huown, hulimit⟩ := u.setOwn_room m { g with state := .full, fullAt := u.clock }
        obtain ⟨hsown, hslimit⟩ := s.setOwn_room m { g with state := .full, fullAt := s.clock }
        exact State.freeSeg_of (by rw [huown, hsown, hown, hclock]) (by rw [hulimit, hslimit, hlimit])
      rw [if_neg hfit]
      dsimp only
      rw [full]
      cases (s.setOwn m { g with state := .full, fullAt := s.clock }).freeSeg <;> rfl

/-- A record on one lane, where it finds room, is built and queued, and changes no tag. -/
theorem State.buildRecords_bareItems (nsid : Nat) {es : List Extent} (hroom : s.hasRoom (itemsLen (bareItems es)) = true) :
    ∃ seqs u, State.buildRecords n nsid 1 [(metaLane, bareItems es)] 0 s = .ok (es, seqs, u) ∧ u.tag n = s.tag n := by
  obtain ⟨seg, opens, v, hv⟩ := State.roomFor_of_hasRoom hroom
  have htag (r : MirRec) : (v.queueRecord r).2.tag n = s.tag n := by
    rw [State.tag_frame (State.queueRecord_frame r (.refl _ _) rfl), ← State.tag_frame (State.roomFor_frame metaLane _ (.refl _ s) rfl), hv]
  unfold State.buildRecords
  dsimp only
  rw [hv]
  simp only [State.buildRecords, placeItems_bareItems, List.append_nil]
  exact ⟨_, _, rfl, htag _⟩

/-- A change without data that is not barred, and that finds room, is handed off with its extents. -/
theorem State.handOffExtents_handed (hc : s.tag n = some c) (hbars : s.bars n = false) (nsid : Nat) {es : List Extent} (hfew : es.length ≤ 8192)
    (hne : es ≠ []) (hroom : s.hasRoom (itemsLen (bareItems es)) = true) :
    ((s.handOffExtents n nsid es).tag n).map Cmd.state = some .pastReturn ∧
      (((s.handOffExtents n nsid es).tag n).bind Cmd.write).map WriteJob.delta = some es := by
  have hpack : packItems (bareItems es) [] = [bareItems es] := packItems_bareItems es [] hfew hne
  unfold State.handOffExtents
  rw [show (es.map fun e => ((e, none) : RecItem)) = bareItems es from rfl, hpack]
  dsimp only
  generalize hu : (s.modTag n fun c => { c with write := some { delta := es } }) = u
  have htag : u.tag n = some { c with write := some { delta := es } } := hu ▸ State.tag_modTag hc _
  have hbars' : u.bars n = false := (State.bars_of_tag hc htag rfl (by rw [← hu]; rfl) (by rw [← hu]; rfl)).trans hbars
  have hroom' : u.hasRoom (itemsLen (bareItems es)) = true :=
    (State.hasRoom_of (by rw [← hu]; rfl) (by rw [← hu]; rfl) (by rw [← hu]; rfl) _).trans hroom
  obtain ⟨seqs, v, hv, hvtag⟩ := State.buildRecords_bareItems (n := n) nsid hroom'
  unfold State.queueItems
  rw [hbars', if_neg Bool.false_ne_true]
  simp only [List.map_cons, List.map_nil, List.length_cons, List.length_nil, hv]
  have hwrite := State.tag_modTag (hvtag.trans htag)
  unfold State.modWrite
  rw [State.tag_modTag (hwrite _)]
  exact ⟨rfl, rfl⟩

end

end Sys2Proof.Machine
end

section
/-!
Formats, flushes, changes without data and reservations (O14): what each does in the state in which it has begun.
-/
namespace Sys2Proof.Machine
open Sys2Proof

section
variable {s : State} {n : Nat} {c : Cmd}

theorem State.ready_tag {op : NvmeOp} (h : s.ready n op = some c) : s.tag n = some c := (State.ready_iff h).1

theorem State.begun_bars {op : NvmeOp} (h : s.ready n op = some c) : (s.begun n c).bars n = s.bars n :=
  State.bars_of_tag (State.ready_tag h) (s.tag_begun n c) rfl rfl rfl

theorem State.begun_hasRoom (s : State) (n : Nat) (c : Cmd) (len : Nat) : (s.begun n c).hasRoom len = s.hasRoom len :=
  State.hasRoom_of (u := s.begun n c) (s := s) rfl rfl rfl len

/-! Formats (R72) -/

theorem exec_formatNvm (h : s.ready n .formatNvm = some c) :
    exec (.formatNvm n) s = .next ((s.begun n c).queueMeta n c.cap.nsid (.format c.cap.nsid)) := congrArg _ (State.begin_ready h _)

theorem formatNvm_handsOff (h : s.ready n .formatNvm = some c) (hbars : s.bars n = false) (hroom : s.hasRoom 192 = true) :
    Answers (.formatNvm n) s fun t => ∃ root, t.handedOff n (.format c.cap.nsid root) := by
  refine .of_eq (exec_formatNvm h) ?_
  obtain ⟨d, w, u, hd, hchange, hw, hqueued, hstate⟩ := State.queueMeta_queued (s.tag_begun n c) ((State.begun_bars h).trans hbars)
    ((s.begun_hasRoom ..).trans hroom) (op := .format c.cap.nsid) c.cap.nsid nofun
  exact ⟨_, d, w, hd, hstate nofun, hchange, hw, hqueued⟩

theorem formatNvm_barred (h : s.ready n .formatNvm = some c) (hbars : s.bars n = true) :
    Answers (.formatNvm n) s fun t => t.ended n = some (vendor 0xE3) :=
  .of_eq (exec_formatNvm h) (State.queueMeta_barred (s.tag_begun n c) ((State.begun_bars h).trans hbars) ..)

/-! Flushes (R93) -/

/-- A command is as open before its own step as after it. -/
theorem State.begun_writeOpen (hc : s.tag n = some c) (t : Nat × Nat) : (s.begun n c).writeOpen t = s.writeOpen t := by
  unfold State.writeOpen
  by_cases ht : t.1 = n
  · rw [ht, State.tag_begun, hc]
  · rw [show (s.begun n c).tag t.1 = s.tag t.1 from Table.find_put_other ht _ _]

/-- The commands of some tags end well. -/
theorem State.foldl_succeed (l : List (Nat × Cmd)) (hc : s.tag n = some c) :
    (l.foldl (fun s e => s.modTag e.1 fun c => { c with status := some success }) s).ended n =
      if n ∈ l.map Prod.fst then some success else c.status := by
  induction l generalizing s c with
  | nil => exact State.ended_eq hc
  | cons e r ih =>
    rw [List.foldl_cons]
    by_cases he : e.1 = n
    · rw [he, ih (State.tag_modTag hc _)]
      simp [he]
    · have hkept : (s.modTag e.1 fun c => { c with status := some success }).tag n = some c := by
        rw [← hc]
        unfold State.modTag State.tag Table.modify
        dsimp only
        split
        · exact Table.find_put_other (Ne.symm he) _ _
        · rfl
      rw [ih hkept]
      exact if_congr (by simp [Ne.symm he]) rfl rfl

/-- A flush is settled where none of the writes that it covers is open. -/
theorem State.settleFlush_ends (h : s.ready n .flush = some c) (hdone : c.covers.any s.writeOpen = false) :
    (s.begun n c).settleFlush.ended n = some success := by
  obtain ⟨htag, hop, hstatus⟩ := State.ready_iff h
  have same : (s.begun n c).writeOpen = s.writeOpen := funext (State.begun_writeOpen htag)
  refine (State.foldl_succeed _ (s.tag_begun n c)).trans (if_pos ?_)
  refine List.mem_map.2 ⟨(n, { c with begun := true }), List.mem_filter.2 ⟨Table.find_mem (s.tag_begun n c), ?_⟩, rfl⟩
  simp [hop, hstatus, same, hdone]

/-- A flush waits while a write that it covers is open. -/
theorem State.settleFlush_waits (h : s.ready n .flush = some c) (hopen : c.covers.any s.writeOpen = true)
    (honly : ∀ e ∈ s.cmd.tags, e.1 = n → e.2 = c) : (s.begun n c).settleFlush.ended n = none := by
  obtain ⟨htag, -, hstatus⟩ := State.ready_iff h
  have same : (s.begun n c).writeOpen = s.writeOpen := funext (State.begun_writeOpen htag)
  refine ((State.foldl_succeed _ (s.tag_begun n c)).trans (if_neg fun hmem => ?_)).trans hstatus
  obtain ⟨e, he, hen⟩ := List.mem_map.1 hmem
  obtain ⟨hin, hsettled⟩ := List.mem_filter.1 he
  rcases Table.mem_put hin with rfl | hold
  · simp [same, hopen] at hsettled
  · simp [honly e hold hen, (State.ready_begun h).2] at hsettled

theorem flush_settles (h : s.ready n .flush = some c) : Answers (.flush n) s fun t =>
    (c.covers.any s.writeOpen = false → t.ended n = some success) ∧
    (c.covers.any s.writeOpen = true → (∀ e ∈ s.cmd.tags, e.1 = n → e.2 = c) → t.ended n = none) :=
  .of_eq (t := (s.begun n c).settleFlush) (congrArg _ (State.begin_ready h _)) ⟨State.settleFlush_ends h, State.settleFlush_waits h⟩

/-! Changes without data (R73, R84, R251) -/

theorem writeZeroes_handsOff (h : s.ready n .writeZeroes = some c) (hbars : s.bars n = false) {e : Extent}
    (he : e = { addr := c.cap.slba * 4096, len := c.cap.nlb * 4096, loc := if c.cap.cdw12.testBit 25 then .unmapped else .zero })
    (hroom : s.hasRoom (itemsLen [(e, none)]) = true) : Answers (.writeZeroes n) s fun t =>
      (t.tag n).map Cmd.state = some .pastReturn ∧ ((t.tag n).bind Cmd.write).map WriteJob.delta = some [e] := by
  have hnlb : c.cap.nlb ≤ 65536 ∧ 0 < c.cap.nlb := by
    unfold Capsule.nlb
    omega
  have hone := bareExtents_one (if c.cap.cdw12.testBit 25 then .unmapped else .zero) (c.cap.slba * 4096) (len := c.cap.nlb * 4096) (by omega) (by omega)
  rw [← he] at hone
  refine .of_eq (t := (s.begun n c).handOffExtents n c.cap.nsid [e]) ?_ ?_
  · rw [← hone]
    exact congrArg _ (State.begin_ready h _)
  · exact State.handOffExtents_handed (s.tag_begun n c) ((State.begun_bars h).trans hbars) _ (by simp) (by simp)
      ((s.begun_hasRoom ..).trans hroom)

/-- The extents of a deallocation. -/
def Cmd.deallocates (c : Cmd) : List Extent := c.cap.ranges.flatMap fun r => bareExtents .unmapped (r.1 * 4096) (r.2 * 4096)

theorem exec_datasetManagement (h : s.ready n .datasetManagement = some c) : exec (.datasetManagement n) s = .next (
    if c.cap.cdw11.testBit 2 && !c.deallocates.isEmpty then (s.begun n c).handOffExtents n c.cap.nsid c.deallocates
    else (s.begun n c).finish n success) := congrArg _ (State.begin_ready h _)

theorem datasetManagement_ends (h : s.ready n .datasetManagement = some c) (hnone : c.cap.cdw11.testBit 2 = false ∨ ∀ r ∈ c.cap.ranges, r.2 = 0) :
    Answers (.datasetManagement n) s fun t => t.ended n = some success := by
  refine .of_eq (t := (s.begun n c).finish n success) ?_ (State.begun_ends h rfl _)
  rw [exec_datasetManagement h, if_neg]
  rcases hnone with hoff | hempty
  · simp [hoff]
  · have : c.deallocates = [] := by
      refine List.flatMap_eq_nil_iff.2 fun r hr => ?_
      rw [hempty r hr, Nat.zero_mul, bareExtents_zero]
    simp [this]

theorem num_lt (l : List Byte) : num l < 256 ^ l.length := by
  induction l with
  | nil => decide
  | cons b r ih =>
    have hb : b.toNat < 256 := b.isLt
    rw [num, List.length_cons, Nat.pow_succ]
    omega

/-- A range of a Dataset Management has fewer than 2^32 blocks. -/
theorem Capsule.ranges_lt {p : Capsule} {r : Nat × Nat} (hr : r ∈ p.ranges) : r.2 < 2 ^ 32 := by
  obtain ⟨k, -, rfl⟩ := List.mem_map.1 hr
  exact (num_lt _).trans_le (Nat.pow_le_pow_right (by decide) (List.length_take_le 4 _))

theorem datasetManagement_deallocates (h : s.ready n .datasetManagement = some c) {lba k : Nat} {es : List Extent} (hdealloc : c.cap.cdw11.testBit 2 = true)
    (hbars : s.bars n = false) (hrange : c.cap.ranges = [(lba, k)]) (hk : 0 < k) (hes : es = bareExtents .unmapped (lba * 4096) (k * 4096))
    (hroom : s.hasRoom (itemsLen (es.map fun e => (e, none))) = true) : Answers (.datasetManagement n) s fun t =>
      (t.tag n).map Cmd.state = some .pastReturn ∧ ((t.tag n).bind Cmd.write).map WriteJob.delta = some es ∧ (∀ e ∈ es, e.len ≤ 0xFFFFF000) ∧
        (es.map Extent.len).sum = k * 4096 := by
  have hlt : k < 2 ^ 32 := Capsule.ranges_lt (r := (lba, k)) (by rw [hrange]; exact List.mem_singleton_self _)
  have hall : c.deallocates = es := by
    unfold Cmd.deallocates
    rw [hrange, hes, List.flatMap_singleton]
  have hlen : es.length = (k * 4096 + 0xFFFFEFFF) / 0xFFFFF000 := hes ▸ bareExtents_length ..
  have hne : es ≠ [] := by
    rintro rfl
    rw [List.length_nil] at hlen
    omega
  refine .of_eq (t := (s.begun n c).handOffExtents n c.cap.nsid es) ?_ ?_
  · rw [exec_datasetManagement h, hall, if_pos (by simp [hdealloc, hne])]
  · obtain ⟨hstate, hdelta⟩ := State.handOffExtents_handed (s.tag_begun n c) ((State.begun_bars h).trans hbars) c.cap.nsid (by omega) hne
      ((s.begun_hasRoom ..).trans hroom)
    exact ⟨hstate, hdelta, fun e he => bareExtents_le (hes ▸ he), hes ▸ bareExtents_sum ..⟩

/-! Reservations (R73) -/

/-- What is noticed, and who is told of it, is a matter of QC. -/
theorem State.tellHosts_cmd (s : State) (nsid : Nat) (hosts : List Nat) (bit : Nat) : ∃ x, s.tellHosts nsid hosts bit = { s with cmd := x } := by
  have notices (s : State) ctrl code about : ∃ x, s.notice ctrl code about = { s with cmd := x } := by
    unfold State.notice
    split
    · exact ⟨_, rfl⟩
    · split <;> exact ⟨_, rfl⟩
  unfold State.tellHosts
  generalize s.cmd.ctrls = l
  induction l generalizing s with
  | nil => exact ⟨_, rfl⟩
  | cons e r ih =>
    rw [List.foldl_cons]
    split
    · obtain ⟨x, hx⟩ := notices s e.1 resvNotice 0
      obtain ⟨y, hy⟩ := ih ((s.notice e.1 resvNotice).modCtrl e.1 fun k => { k with resvLog := k.resvLog ++ [(bit, nsid)], resvCount := k.resvCount + 1 })
      rw [hy, hx]
      exact ⟨y, rfl⟩
    · exact ih s

/-- A change of a reservation that is not barred, and that finds room, is handed off. -/
theorem State.queueResv_queued {u : State} {d : Cmd} (hd : u.tag n = some d) (hbars : u.bars n = false) (hroom : u.hasRoom 192 = true) (nsid : Nat)
    {op : ResvOp} (hop : ∀ r, op ≠ .set r) : ((u.queueResv n nsid op).tag n).bind Cmd.change = some (.reservation nsid op) := by
  obtain ⟨e, w, v, he, hchange, -⟩ := State.queueMeta_queued hd hbars hroom (op := .reservation nsid op) nsid fun m r heq => hop r (by injection heq)
  unfold State.queueResv
  rw [he, Option.bind_some, hchange]
  rfl

/-- A change of a reservation of which hosts are told is handed off all the same. -/
theorem State.tellHosts_queueResv (h : s.tag n = some c) (hbars : s.bars n = false) (hroom : s.hasRoom 192 = true) (nsid : Nat) (hosts : List Nat)
    (bit : Nat) {op : ResvOp} (hop : ∀ r, op ≠ .set r) :
    (((s.tellHosts nsid hosts bit).queueResv n nsid op).tag n).bind Cmd.change = some (.reservation nsid op) := by
  obtain ⟨d, hd, hstays⟩ := ((TagsStay.refl s).tellHosts nsid hosts bit).stays n c h
  obtain ⟨x, hx⟩ := s.tellHosts_cmd nsid hosts bit
  refine State.queueResv_queued hd ?_ ?_ nsid hop
  · rw [State.bars_of_tag h hd hstays.cls (by rw [hx]) (by rw [hx]), hbars]
  · rw [State.hasRoom_of (s := s) (by rw [hx]) (by rw [hx]; rfl) (by rw [hx]), hroom]

/-- The host of a command, which the beginning of its own step does not change. -/
theorem State.begun_hostOf (s : State) (n : Nat) (c : Cmd) : (s.begun n c).hostOf { c with begun := true } = s.hostOf c := rfl

end

end Sys2Proof.Machine
end

section
/-!
Reservations (R73, O14): each change judged by the reservation as it will stand, and handed off.
-/
namespace Sys2Proof.Machine
open Sys2Proof

section
variable {s : State} {n : Nat} {c : Cmd} {r : Reservation}

theorem Reservation.change_register (r : Reservation) (host cdw10 cur new : Nat) (ptpl : Option Bool) :
    r.change (.register host cdw10 cur new ptpl) = (r.register host cdw10 cur new).map fun r => { r with ptpl := ptpl.getD r.ptpl } := rfl

/-- A reservation change that its command hands off. -/
theorem State.begun_queueResv {op : NvmeOp} (h : s.ready n op = some c) (hbars : s.bars n = false) (hroom : s.hasRoom 192 = true) (nsid : Nat)
    {change : ResvOp} (hop : ∀ r, change ≠ .set r) :
    (((s.begun n c).queueResv n nsid change).tag n).bind Cmd.change = some (.reservation nsid change) :=
  State.queueResv_queued (s.tag_begun n c) ((State.begun_bars h).trans hbars) ((s.begun_hasRoom ..).trans hroom) nsid hop

/-- A reservation change of which hosts are told, and that its command hands off. -/
theorem State.begun_tellHosts {op : NvmeOp} (h : s.ready n op = some c) (hbars : s.bars n = false) (hroom : s.hasRoom 192 = true) (nsid : Nat)
    (hosts : List Nat) (bit : Nat) {change : ResvOp} (hop : ∀ r, change ≠ .set r) :
    ((((s.begun n c).tellHosts nsid hosts bit).queueResv n nsid change).tag n).bind Cmd.change = some (.reservation nsid change) :=
  State.tellHosts_queueResv (s.tag_begun n c) ((State.begun_bars h).trans hbars) ((s.begun_hasRoom ..).trans hroom) nsid hosts bit hop

theorem reservationRegister_reserved (h : s.ready n .resvRegister = some c) (hbad : 3 ≤ c.cap.cdw10 % 8 ∨ c.cap.cdw10 / 2 ^ 30 % 4 = 1) :
    Answers (.reservationRegister n) s fun t => t.ended n = some (generic 0x02) := by
  refine .of_eq (t := (s.begun n c).finish n (generic 0x02)) ?_ (State.begun_ends h rfl _)
  show execReservationRegister n s = _
  unfold execReservationRegister
  rw [State.begin_ready h]
  exact congrArg _ (if_pos hbad)

/-- A registration, of fields that are not reserved, is refused as a conflict, or queued. -/
theorem exec_reservationRegister (h : s.ready n .resvRegister = some c) {op : ResvOp} (hr : r = (s.begun n c).resvDue c.cap.nsid)
    (hact : c.cap.cdw10 % 8 < 3) (hptpl : c.cap.cdw10 / 2 ^ 30 % 4 ≠ 1)
    (hop : op = .register ((s.hostOf c).getD 0) c.cap.cdw10 (num (slice c.cap.data 0 8)) (num (slice c.cap.data 8 8))
      (if c.cap.cdw10 / 2 ^ 30 % 4 = 0 then none else some (c.cap.cdw10 / 2 ^ 30 % 4 == 3))) :
    exec (.reservationRegister n) s = .next (match r.change op with
      | none => (s.begun n c).finish n (generic 0x83)
      | some _ => (s.begun n c).queueResv n c.cap.nsid op) := by
  show execReservationRegister n s = _
  unfold execReservationRegister
  rw [State.begin_ready h, hop, hr]
  exact congrArg _ ((if_neg (by dsimp only; omega)).trans rfl)

theorem reservationRegister_effect (h : s.ready n .resvRegister = some c) {op : ResvOp} (hr : r = (s.begun n c).resvDue c.cap.nsid)
    (hact : c.cap.cdw10 % 8 < 3) (hptpl : c.cap.cdw10 / 2 ^ 30 % 4 ≠ 1)
    (hop : op = .register ((s.hostOf c).getD 0) c.cap.cdw10 (num (slice c.cap.data 0 8)) (num (slice c.cap.data 8 8))
      (if c.cap.cdw10 / 2 ^ 30 % 4 = 0 then none else some (c.cap.cdw10 / 2 ^ 30 % 4 == 3))) :
    (r.register ((s.hostOf c).getD 0) c.cap.cdw10 (num (slice c.cap.data 0 8)) (num (slice c.cap.data 8 8)) = none →
      Answers (.reservationRegister n) s fun t => t.ended n = some (generic 0x83)) ∧
    ∀ x, r.register ((s.hostOf c).getD 0) c.cap.cdw10 (num (slice c.cap.data 0 8)) (num (slice c.cap.data 8 8)) = some x →
      s.bars n = false → s.hasRoom 192 = true → Answers (.reservationRegister n) s fun t =>
        (t.tag n).bind Cmd.change = some (.reservation c.cap.nsid op) ∧
        r.change op = some { x with ptpl := if c.cap.cdw10 / 2 ^ 30 % 4 = 0 then x.ptpl else c.cap.cdw10 / 2 ^ 30 % 4 == 3 } := by
  refine ⟨fun hx => ?_, fun x hx hbars hroom => ?_⟩
  · have hchange : r.change op = none := by
      rw [hop, Reservation.change_register, hx, Option.map_none]
    refine .of_eq (t := (s.begun n c).finish n (generic 0x83)) ?_ (State.begun_ends h rfl _)
    rw [exec_reservationRegister h hr hact hptpl hop, hchange]
  · have hchange : r.change op = some { x with ptpl := if c.cap.cdw10 / 2 ^ 30 % 4 = 0 then x.ptpl else c.cap.cdw10 / 2 ^ 30 % 4 == 3 } := by
      rw [hop, Reservation.change_register, hx, Option.map_some]
      split <;> rfl
    refine .of_eq (t := (s.begun n c).queueResv n c.cap.nsid op) ?_ ⟨?_, hchange⟩
    · rw [exec_reservationRegister h hr hact hptpl hop, hchange]
    · refine State.begun_queueResv h hbars hroom _ ?_
      rw [hop]
      exact nofun

theorem reservationReport_answers (h : s.ready n .resvReport = some c) (hr : r = s.resvOf c.cap.nsid) :
    Answers (.reservationReport n) s fun t => t.ended n = some success ∧ Sends s t (.adminData n 0x0E c.cap.nsid
      ([r.gen, r.rtype, if r.ptpl then 1 else 0, r.holder.getD 0, r.regs.length] ++ r.regs.flatMap fun e => [e.1, e.2])) := by
  obtain ⟨hsends, hended⟩ := State.begun_answers h 0x0E c.cap.nsid
    ([r.gen, r.rtype, if r.ptpl then 1 else 0, r.holder.getD 0, r.regs.length] ++ r.regs.flatMap fun e => [e.1, e.2])
  refine .of_eq ?_ ⟨hended, hsends⟩
  subst hr
  exact congrArg _ (State.begin_ready h _)

theorem reservationAcquire_conflicts (h : s.ready n .resvAcquire = some c) (hr : r = (s.begun n c).resvDue c.cap.nsid) (hact : c.cap.cdw10 % 8 = 0)
    (hlow : 1 ≤ c.cap.cdw10 / 256 % 256) (hhigh : c.cap.cdw10 / 256 % 256 ≤ 6)
    (hkey : r.keyOf ((s.hostOf c).getD 0) ≠ some (num (slice c.cap.data 0 8))) :
    Answers (.reservationAcquire n) s fun t => t.ended n = some (generic 0x83) := by
  refine .of_eq (t := (s.begun n c).finish n (generic 0x83)) ?_ (State.begun_ends h rfl _)
  subst hr
  show execReservationAcquire n s = _
  unfold execReservationAcquire
  rw [State.begin_ready h]
  exact congrArg _ ((if_neg (by dsimp only; omega)).trans (if_pos hkey))

theorem reservationAcquire_acquires (h : s.ready n .resvAcquire = some c) (hr : r = (s.begun n c).resvDue c.cap.nsid) (hact : c.cap.cdw10 % 8 = 0)
    (hlow : 1 ≤ c.cap.cdw10 / 256 % 256) (hhigh : c.cap.cdw10 / 256 % 256 ≤ 6)
    (hkey : r.keyOf ((s.hostOf c).getD 0) = some (num (slice c.cap.data 0 8))) (hfree : r.holder = none) (hbars : s.bars n = false)
    (hroom : s.hasRoom 192 = true) : Answers (.reservationAcquire n) s fun t => ∃ op,
      (t.tag n).bind Cmd.change = some (.reservation c.cap.nsid op) ∧
      r.change op = some { r with holder := some ((s.hostOf c).getD 0), rtype := c.cap.cdw10 / 256 % 256 } := by
  refine .of_eq (t := (s.begun n c).queueResv n c.cap.nsid (.acquire ((s.hostOf c).getD 0) (c.cap.cdw10 / 256 % 256))) ?_
    ⟨_, State.begun_queueResv h hbars hroom _ nofun, by unfold Reservation.change; rw [hfree]⟩
  subst hr
  show execReservationAcquire n s = _
  unfold execReservationAcquire
  rw [State.begin_ready h]
  dsimp only
  rw [if_neg (by omega), State.begun_hostOf, if_neg (by simp [hkey]), if_pos hact, hfree]

theorem reservationRelease_conflicts (h : s.ready n .resvRelease = some c) (hr : r = (s.begun n c).resvDue c.cap.nsid) (hact : c.cap.cdw10 % 8 < 2)
    (hkey : r.keyOf ((s.hostOf c).getD 0) ≠ some (num (slice c.cap.data 0 8))) :
    Answers (.reservationRelease n) s fun t => t.ended n = some (generic 0x83) := by
  refine .of_eq (t := (s.begun n c).finish n (generic 0x83)) ?_ (State.begun_ends h rfl _)
  subst hr
  show execReservationRelease n s = _
  unfold execReservationRelease
  rw [State.begin_ready h]
  exact congrArg _ ((if_neg (Nat.not_le.2 hact)).trans (if_pos hkey))

/-- A release or a clear by a host with its key. -/
theorem exec_reservationRelease (h : s.ready n .resvRelease = some c) (hr : r = (s.begun n c).resvDue c.cap.nsid) (hact : c.cap.cdw10 % 8 < 2)
    (hkey : r.keyOf ((s.hostOf c).getD 0) = some (num (slice c.cap.data 0 8))) : exec (.reservationRelease n) s = .next (
      have others := (r.regs.map Prod.fst).filter fun h => h != (s.hostOf c).getD 0
      if c.cap.cdw10 % 8 = 1 then ((s.begun n c).tellHosts c.cap.nsid others 3).queueResv n c.cap.nsid .clear
      else if r.holder ≠ some ((s.hostOf c).getD 0) then (s.begun n c).finish n success
      else if r.rtype ≠ c.cap.cdw10 / 256 % 256 then (s.begun n c).finish n (generic 0x02)
      else ((s.begun n c).tellHosts c.cap.nsid others 2).queueResv n c.cap.nsid (.release ((s.hostOf c).getD 0))) := by
  subst hr
  show execReservationRelease n s = _
  unfold execReservationRelease
  rw [State.begin_ready h]
  exact congrArg _ ((if_neg (Nat.not_le.2 hact)).trans (if_neg (by rw [State.begun_hostOf]; exact not_not_intro hkey)))

theorem reservationRelease_idle (h : s.ready n .resvRelease = some c) (hr : r = (s.begun n c).resvDue c.cap.nsid) (hact : c.cap.cdw10 % 8 = 0)
    (hkey : r.keyOf ((s.hostOf c).getD 0) = some (num (slice c.cap.data 0 8))) (hother : r.holder ≠ some ((s.hostOf c).getD 0)) :
    Answers (.reservationRelease n) s fun t => t.ended n = some success := by
  refine .of_eq (t := (s.begun n c).finish n success) ?_ (State.begun_ends h rfl _)
  rw [exec_reservationRelease h hr (by omega) hkey]
  dsimp only
  rw [if_neg (by omega), if_pos hother]

theorem reservationRelease_releases (h : s.ready n .resvRelease = some c) (hr : r = (s.begun n c).resvDue c.cap.nsid) (hact : c.cap.cdw10 % 8 = 0)
    (hkey : r.keyOf ((s.hostOf c).getD 0) = some (num (slice c.cap.data 0 8))) (hholds : r.holder = some ((s.hostOf c).getD 0))
    (htype : r.rtype = c.cap.cdw10 / 256 % 256) (hbars : s.bars n = false) (hroom : s.hasRoom 192 = true) :
    Answers (.reservationRelease n) s fun t => ∃ op, (t.tag n).bind Cmd.change = some (.reservation c.cap.nsid op) ∧
      r.change op = some { r with holder := none, rtype := 0 } := by
  refine .of_eq (exec_reservationRelease h hr (by omega) hkey) ?_
  dsimp only
  rw [if_neg (by omega), if_neg (not_not_intro hholds), if_neg (not_not_intro htype)]
  exact ⟨_, State.begun_tellHosts h hbars hroom _ _ _ nofun, if_pos hholds⟩

theorem reservationRelease_clears (h : s.ready n .resvRelease = some c) (hr : r = (s.begun n c).resvDue c.cap.nsid) (hact : c.cap.cdw10 % 8 = 1)
    (hkey : r.keyOf ((s.hostOf c).getD 0) = some (num (slice c.cap.data 0 8))) (hbars : s.bars n = false) (hroom : s.hasRoom 192 = true) :
    Answers (.reservationRelease n) s fun t => ∃ op, (t.tag n).bind Cmd.change = some (.reservation c.cap.nsid op) ∧
      r.change op = some { gen := r.gen + 1, ptpl := r.ptpl } := by
  refine .of_eq (exec_reservationRelease h hr (by omega) hkey) ?_
  dsimp only
  rw [if_pos hact]
  exact ⟨_, State.begun_tellHosts h hbars hroom _ _ _ nofun, rfl⟩

end

end Sys2Proof.Machine
end

section
/-!
Writes (R104, R112, O14): a write is divided into segments, and each that a lane takes as a stream is asked for once.
-/
namespace Sys2Proof.Machine
open Sys2Proof

/-! The parts that division points make (R104, R108) -/

/-- Parts follow one another: each starts where none before it has, and none is empty. -/
theorem cutAt_parts (n : Nat) (pts : List Nat) (start : Nat) :
    (∀ p ∈ cutAt n pts start, start ≤ p.1 ∧ 0 < p.2) ∧ ((cutAt n pts start).map Prod.fst).Nodup := by
  induction pts generalizing start with
  | nil =>
    unfold cutAt
    split
    · next h => simpa using Nat.sub_pos_of_lt h
    · simp
  | cons p r ih =>
    unfold cutAt
    split
    · next h =>
      obtain ⟨hlater, hdistinct⟩ := ih p
      refine ⟨fun q hq => ?_, ?_⟩
      · rcases List.mem_cons.1 hq with rfl | hq
        · exact ⟨le_rfl, Nat.sub_pos_of_lt h⟩
        · exact ⟨h.le.trans (hlater q hq).1, (hlater q hq).2⟩
      · refine List.nodup_cons.2 ⟨fun hmem => ?_, hdistinct⟩
        obtain ⟨q, hq, hqp⟩ := List.mem_map.1 hmem
        exact absurd (hlater q hq).1 (by rw [hqp]; exact Nat.not_le.2 h)
    · exact ih start

theorem divide_nodup (seg grid base n : Nat) : ((divide seg grid base n).map Prod.fst).Nodup := (cutAt_parts ..).2

theorem divide_pos {seg grid base n : Nat} {p : Nat × Nat} (hp : p ∈ divide seg grid base n) : 0 < p.2 := ((cutAt_parts ..).1 p hp).2

theorem cutAt_ne_nil {n : Nat} {pts : List Nat} (hpts : ∀ p ∈ pts, p < n) {start : Nat} (h : start < n) : cutAt n pts start ≠ [] := by
  induction pts generalizing start with
  | nil =>
    unfold cutAt
    rw [if_pos h]
    exact List.cons_ne_nil _ _
  | cons p r ih =>
    unfold cutAt
    split
    · exact List.cons_ne_nil _ _
    · exact ih (fun q hq => hpts q (List.mem_cons_of_mem _ hq)) h

theorem divide_ne_nil (seg grid base : Nat) {n : Nat} (h : 0 < n) : divide seg grid base n ≠ [] :=
  cutAt_ne_nil (fun _ hp => of_decide_eq_true (List.mem_filter.1 hp).2) h

/-- First byte and length of a segment. -/
def Segment.place (g : Segment) : Nat × Nat := (g.off, g.len)

/-- The segments of a new write have the places given, and nothing has begun. -/
theorem State.assignLanes_fresh (s : State) (wait : Bool) (l used : List (Nat × Nat)) :
    (s.assignLanes wait l used).map Segment.place = l ∧ ∀ g ∈ s.assignLanes wait l used, g.begun = false ∧ g.got = 0 ∧ g.staged = [] := by
  induction l generalizing used with
  | nil => exact ⟨rfl, nofun⟩
  | cons p r ih =>
    obtain ⟨hplaces, hfresh⟩ := ih ((s.pickLane used, p.2) :: used)
    refine ⟨congrArg (p :: ·) hplaces, fun g hg => ?_⟩
    rcases List.mem_cons.1 hg with rfl | hg
    · exact ⟨rfl, rfl, rfl⟩
    · exact hfresh g hg

/-! Reads of the segments -/

/-- A segment of which nothing has been staged becomes a stream where it is the one named. -/
def Segment.fetch (off : Nat) (g : Segment) : Segment := if g.off = off then { g with begun := true, staged := [] } else g

@[simp] theorem Segment.fetch_place (off : Nat) (g : Segment) : (g.fetch off).place = g.place := by
  unfold Segment.fetch
  split <;> rfl

theorem Segment.fetch_other {off : Nat} {g : Segment} (h : g.off ≠ off) : g.fetch off = g := if_neg h

/-- One more segment is a stream, where one that was none becomes one. -/
theorem Segment.countP_fetch {l : List Segment} {g : Segment} (hdistinct : (l.map Segment.off).Nodup) (hg : g ∈ l) (hbegun : g.begun = false) :
    (l.map (Segment.fetch g.off)).countP Segment.begun = l.countP Segment.begun + 1 := by
  induction l with
  | nil => cases hg
  | cons x r ih =>
    obtain ⟨hfirst, hrest⟩ := List.nodup_cons.1 hdistinct
    rw [List.map_cons, List.countP_cons, List.countP_cons]
    rcases List.mem_cons.1 hg with rfl | hg
    · have others : r.map (Segment.fetch g.off) = r := by
        refine (List.map_congr_left fun y hy => Segment.fetch_other fun hsame => ?_).trans (List.map_id r)
        exact hfirst (List.mem_map.2 ⟨y, hy, hsame⟩)
      rw [others]
      simp [Segment.fetch, hbegun]
    · have hx : x.off ≠ g.off := fun hsame => hfirst (List.mem_map.2 ⟨g, hg, hsame.symm⟩)
      rw [ih hrest hg, Segment.fetch_other hx]
      omega

/-- A write of which no byte has come: its segments have the places given, and a read has been asked for each that is a stream. -/
structure State.Reading (s : State) (n : Nat) (c : Cmd) (l : List (Nat × Nat)) (segs : List Segment) : Prop where
  tag    : s.tag n = some { c with write := some { segs := segs }, readsLeft := c.readsLeft + segs.countP Segment.begun }
  places : segs.map Segment.place = l
  empty  : ∀ g ∈ segs, g.got = 0 ∧ g.staged = []

section
variable {s : State} {n : Nat} {c : Cmd} {l : List (Nat × Nat)} {segs : List Segment}

/-- A read that is asked for counts as one more of its command (R49). -/
theorem State.queueRead_tag (hc : s.tag n = some c) (qp off len : Nat) :
    (s.queueRead qp n off len).tag n = some { c with readsLeft := c.readsLeft + 1 } := by
  unfold State.queueRead
  dsimp only
  rw [State.tag_frame (State.issueRead_frame _ (.refl _ _) rfl)]
  refine (Table.find_modify_same ..).trans ?_
  rw [(State.setQp_frame (ps := Part.but [.cmd]) _ _ (.refl _ s) rfl).only.cmd rfl, show Table.find n s.cmd.tags = _ from hc]
  rfl

/-- A segment of a write with a keyed data pointer becomes a stream, and is asked for. -/
theorem State.Reading.startSeg (h : s.Reading n c l segs) (hkeyed : c.cap.sgl = .keyed) (hdistinct : (l.map Prod.fst).Nodup) (off : Nat) :
    ∃ segs', (s.startSeg n off).Reading n c l segs' := by
  obtain ⟨htag, hplaces, hempty⟩ := h
  unfold State.startSeg
  rw [show Table.find n s.cmd.tags = _ from htag]
  dsimp only [Option.bind_some]
  split
  · exact ⟨segs, htag, hplaces, hempty⟩
  · next g hfind =>
    split
    · exact ⟨segs, htag, hplaces, hempty⟩
    · have hg : g ∈ segs := List.mem_of_find?_eq_some hfind
      have hnew := List.find?_some hfind
      simp only [Bool.and_eq_true, beq_iff_eq, Bool.not_eq_true'] at hnew
      obtain ⟨⟨rfl, hbegun⟩, -⟩ := hnew
      have hoffs : (segs.map Segment.off).Nodup := by
        rw [← hplaces, List.map_map] at hdistinct
        exact hdistinct
      refine ⟨segs.map (Segment.fetch g.off), ?_, ?_, ?_⟩
      · rw [hkeyed, if_neg (by decide)]
        rw [State.queueRead_tag (c := { c with
          write := some { segs := segs.map (Segment.fetch g.off) }, readsLeft := c.readsLeft + segs.countP Segment.begun }) ?_]
        · rw [Segment.countP_fetch hoffs hg hbegun, Nat.add_assoc]
        · refine (Table.find_modify_same ..).trans ?_
          rw [show Table.find n s.cmd.tags = _ from htag]
          rfl
      · rw [List.map_map, ← hplaces]
        exact List.map_congr_left fun x _ => x.fetch_place _
      · intro x hx
        obtain ⟨y, hy, rfl⟩ := List.mem_map.1 hx
        unfold Segment.fetch
        split
        · exact ⟨(hempty y hy).1, rfl⟩
        · exact hempty y hy

/-- A lane has nothing to take in of a write of which no byte has come. -/
theorem State.Reading.takeIn (h : s.Reading n c l segs) (hpos : ∀ p ∈ l, 0 < p.2) (off : Nat) : s.takeIn n off = s := by
  obtain ⟨htag, hplaces, hempty⟩ := h
  unfold State.takeIn
  rw [htag]
  dsimp only
  split
  · rfl
  · next g hfind =>
    have hg : g ∈ segs := List.mem_of_find?_eq_some hfind
    obtain ⟨hgot, hstaged⟩ := hempty g hg
    have hlen : 0 < g.len := hpos g.place (by rw [← hplaces]; exact List.mem_map_of_mem hg)
    rw [if_pos]
    rw [hgot, hstaged, if_neg (by simp; omega)]
    simp

/-- A write is not handed off while bytes of a segment are missing (R163). -/
theorem State.tryHandOff_missing {w : WriteJob} {g : Segment} (hc : s.tag n = some c) (hw : c.write = some w) (hg : g ∈ w.segs) (hgot : g.got ≠ g.len) :
    s.tryHandOff n = s := by
  have hleft : (w.segs.all fun g => g.got == g.len) = false := List.all_eq_false.2 ⟨g, hg, by simpa using hgot⟩
  unfold State.tryHandOff
  rw [hc]
  dsimp only
  rw [hw]
  dsimp only
  rw [hleft]
  simp

theorem State.Reading.tryHandOff (h : s.Reading n c l segs) (hpos : ∀ p ∈ l, 0 < p.2) (hne : l ≠ []) : s.tryHandOff n = s := by
  obtain ⟨htag, hplaces, hempty⟩ := h
  obtain ⟨g, hg⟩ := List.exists_mem_of_ne_nil segs (by rintro rfl; exact hne hplaces.symm)
  have hlen : 0 < g.len := hpos g.place (by rw [← hplaces]; exact List.mem_map_of_mem hg)
  exact State.tryHandOff_missing htag rfl hg (by rw [(hempty g hg).1]; omega)

theorem State.Reading.pumpTag (h : s.Reading n c l segs) (hkeyed : c.cap.sgl = .keyed) (hdistinct : (l.map Prod.fst).Nodup)
    (hpos : ∀ p ∈ l, 0 < p.2) (hne : l ≠ []) : ∃ segs', (s.pumpTag n).Reading n c l segs' := by
  have pumps (todo : List Segment) (u : State) (hu : ∃ segs, u.Reading n c l segs) :
      ∃ segs, (todo.foldl (fun s g => (s.startSeg n g.off).takeIn n g.off) u).Reading n c l segs := by
    induction todo generalizing u with
    | nil => exact hu
    | cons g r ih =>
      obtain ⟨x, hx⟩ := hu
      obtain ⟨y, hy⟩ := hx.startSeg hkeyed hdistinct g.off
      exact ih _ ⟨y, by dsimp only; rw [hy.takeIn hpos]; exact hy⟩
  unfold State.pumpTag
  rw [h.tag]
  dsimp only [Option.bind_some]
  obtain ⟨x, hx⟩ := pumps segs s ⟨segs, h⟩
  exact ⟨x, (hx.tryHandOff hpos hne).symm ▸ hx⟩

end

/-! The write in its tag -/

section
variable {s : State} {n : Nat} {c : Cmd}

/-- The parts of a write as it begins. -/
def State.writeParts (s : State) (c : Cmd) : List (Nat × Nat) := divide s.segBytes (s.grid c.tenant) (c.cap.slba * 4096) (c.cap.nlb * 4096)

/-- A write as it begins: its segments on their lanes, none a stream yet. -/
def State.begunWrite (s : State) (n : Nat) (c : Cmd) : State :=
  (s.begun n c).modTag n fun c' => { c' with write := some { segs := (s.begun n c).assignLanes false (s.writeParts c) [] } }

theorem exec_write (h : s.ready n .write = some c) (hcls : c.cls ≠ .forwardedIn) : exec (.write n) s = .next ((s.begunWrite n c).pumpTag n) := by
  show execWrite n s = _
  unfold execWrite
  rw [State.begin_ready h]
  dsimp only
  rw [if_neg hcls]
  rfl

theorem State.begunWrite_tag (s : State) (n : Nat) (c : Cmd) : (s.begunWrite n c).tag n =
    some { c with begun := true, write := some { segs := (s.begun n c).assignLanes false (s.writeParts c) [] } } :=
  State.tag_modTag (s.tag_begun n c) _

/-- A write stays divided as it was as it began, up to its end. -/
theorem write_divided (h : s.ready n .write = some c) (hcls : c.cls ≠ .forwardedIn) : Answers (.write n) s fun t => t.ended n ≠ none ∨
    ((t.tag n).bind Cmd.write).map (fun w => w.segs.map fun g => (g.off, g.len)) = some (s.writeParts c) := by
  refine .of_eq (exec_write h hcls) ?_
  obtain ⟨d, hd, hstays⟩ := ((TagsStay.refl (s.begunWrite n c)).pumpTag n).stays n _ (s.begunWrite_tag n c)
  rcases hstays.parts (s.writeParts c) (congrArg some ((s.begun n c).assignLanes_fresh ..).1) (divide_nodup ..) with hended | hparts
  · refine .inl ?_
    rw [State.ended_eq hd]
    exact Option.isSome_iff_ne_none.1 hended
  · refine .inr ?_
    rw [hd]
    exact hparts

theorem write_reads (h : s.ready n .write = some c) (hnlb : 0 < c.cap.nlb) (hcls : c.cls ≠ .forwardedIn) (hkeyed : c.cap.sgl = .keyed) :
    Answers (.write n) s fun t => ∃ w, (t.tag n).bind Cmd.write = some w ∧ (w.segs.map fun g => (g.off, g.len)) = s.writeParts c ∧
      (t.tag n).map Cmd.readsLeft = some (c.readsLeft + w.segs.countP Segment.begun) := by
  refine .of_eq (exec_write h hcls) ?_
  obtain ⟨hplaces, hfresh⟩ := (s.begun n c).assignLanes_fresh false (s.writeParts c) []
  have hnone : ((s.begun n c).assignLanes false (s.writeParts c) []).countP Segment.begun = 0 :=
    List.countP_eq_zero.2 fun g hg => by simp [(hfresh g hg).1]
  have hreading : (s.begunWrite n c).Reading n { c with begun := true } (s.writeParts c) ((s.begun n c).assignLanes false (s.writeParts c) []) :=
    ⟨by rw [hnone]; exact s.begunWrite_tag n c, hplaces, fun g hg => (hfresh g hg).2⟩
  obtain ⟨segs, htag, hparts, -⟩ := hreading.pumpTag hkeyed (divide_nodup ..) (fun p hp => divide_pos hp) (divide_ne_nil _ _ _ (by omega))
  rw [htag]
  exact ⟨_, rfl, hparts, rfl⟩

/-- A forwarded-in write as it begins: it is one segment (R104). -/
def State.begunForwarded (s : State) (n : Nat) (c : Cmd) : State :=
  (s.begun n c).modTag n fun c' =>
    { c' with write := some { segs := [{ off := 0, len := c.cap.nlb * 4096, lane := (s.begun n c).pickLane [] }] } }

theorem write_forwardedIn (h : s.ready n .write = some c) (hnlb : 0 < c.cap.nlb) (hcls : c.cls = .forwardedIn) (hnew : c.write = none) :
    Answers (.write n) s fun t =>
      ((t.tag n).bind Cmd.write).map (fun w => w.segs.map fun g => (g.off, g.len)) = some [(0, c.cap.nlb * 4096)] := by
  have htag : (s.begunForwarded n c).tag n = some _ := State.tag_modTag (s.tag_begun n c) _
  refine .of_eq (t := s.begunForwarded n c) ?_ (by rw [htag]; rfl)
  have waits : (s.begunForwarded n c).tryHandOff n = s.begunForwarded n c :=
    State.tryHandOff_missing htag rfl (List.mem_singleton_self _) (by dsimp only; omega)
  show execWrite n s = _
  unfold execWrite
  rw [State.begin_ready h]
  dsimp only
  rw [if_pos hcls, hnew]
  exact congrArg _ waits

end

end Sys2Proof.Machine
end

section
/-!
Writes, flushes, formats and reservations (O14), command by command.
-/
namespace Sys2Proof.Machine
open Sys2Proof

/-- Settles O14, command by command. -/
theorem blockCommands : Obligations.BlockCommands := by
  unfold Obligations.BlockCommands
  refine ⟨fun s n c h => ⟨formatNvm_handsOff h, formatNvm_barred h⟩, fun s n c h => flush_settles h,
    fun s n c h hnlb => ⟨write_divided h, write_reads h hnlb, write_forwardedIn h hnlb⟩,
    fun s n c e h hbars he hroom => writeZeroes_handsOff h hbars he hroom,
    fun s n c h => ⟨datasetManagement_ends h, fun lba k es hdealloc hbars hrange hk hes hroom =>
      datasetManagement_deallocates h hdealloc hbars hrange hk hes hroom⟩,
    fun s n c h => ⟨reservationRegister_reserved h, fun r op hr hact hptpl hop => ?registers⟩,
    fun s n c h => reservationReport_answers h rfl,
    fun s n c r h hr hact hlow hhigh => ⟨reservationAcquire_conflicts h hr hact hlow hhigh, reservationAcquire_acquires h hr hact hlow hhigh⟩,
    fun s n c r h hr hact => ⟨reservationRelease_conflicts h hr hact, fun hkey => ⟨fun hzero => reservationRelease_idle h hr hzero hkey,
      fun hzero => reservationRelease_releases h hr hzero hkey, fun hone => reservationRelease_clears h hr hone hkey⟩⟩⟩
  case registers =>
    obtain ⟨conflicts, changes⟩ := reservationRegister_effect h hr hact hptpl hop
    split
    · next hx => exact conflicts hx
    · next x hx => exact changes x hx

end Sys2Proof.Machine
end

section
/-!
Ring links, enumeration and the directory (O32): what a link or a directory put in place leaves, and what a broadcast gives to the links.
-/
namespace Sys2Proof.Machine
open Sys2Proof

/-! What a state that differs off the links keeps (R337, R342) -/

section
variable {s t : State} (h : Within Part.offLinks s t)
include h

theorem Within.xrn_eq : t.xrn = s.xrn := h.only.xrn rfl

theorem Within.rd_xrn (f : RField) (i j : Nat) (hf : f.block = 16) : t.rd f i j = s.rd f i j := by
  refine h.only.rd f i j rfl ?_
  rw [hf]
  rfl

theorem Within.on_xrn (f : RField) (i j : Nat) (hf : f.block = 16) : t.on f i j = s.on f i j := State.on_of_rd (h.rd_xrn f i j hf)

theorem Within.link_eq (l : Nat) : t.link l = s.link l := by
  unfold State.link
  rw [h.xrn_eq]

theorem Within.childLinks_eq : t.childLinks = s.childLinks := by
  unfold State.childLinks State.activeLinks State.link
  rw [h.xrn_eq, h.rd_xrn _ _ _ rfl]

end

/-! A link put in place (R338) -/

/-- Of the ring's own state a link put in place changes that link alone. -/
theorem State.xrn_setLink (s : State) (l : Nat) (x : RingLink) : (s.setLink l x).xrn = { s.xrn with links := Table.put l x s.xrn.links } := by
  unfold State.setLink
  extract_lets changed _ u v
  have hv : Within (Part.but [.xrn]) u v :=
    .ite (State.dropLink_frame _ (.refl _ _) rfl) (.ite (State.mirrorReady_frame _ (.refl _ _) rfl) (.refl _ _))
  have hall : Within (Part.but [.xrn]) u (if changed = true then v.raise Reg.XRN_LINK_STATUS.CHANGE 1 l else v) :=
    .ite (State.raise_frame _ _ _ hv rfl) hv
  exact hall.only.xrn rfl

@[simp] theorem State.link_setLink (s : State) (l : Nat) (x : RingLink) : (s.setLink l x).link l = x := by
  unfold State.link
  rw [State.xrn_setLink]
  exact Table.get_put_same ..

theorem LinkState.code_lt (c : LinkState) : c.code < 8 := by
  cases c <;> decide

/-- XRN_LINK_STATUS shows the state of a link put in place. -/
theorem State.rd_state_setLink (s : State) (l : Nat) (x : RingLink) : (s.setLink l x).rd Reg.XRN_LINK_STATUS.STATE l = x.state.code := by
  unfold State.setLink
  extract_lets changed _ u v
  have hu : u.rd Reg.XRN_LINK_STATUS.STATE l = x.state.code := (State.rd_wr_same ..).trans (Nat.mod_eq_of_lt x.state.code_lt)
  have hv : Within Part.offLinks u v :=
    .ite (State.dropLink_frame _ (.refl _ _) rfl) (.ite (State.mirrorReady_frame _ (.refl _ _) rfl) (.refl _ _))
  have shown : v.rd Reg.XRN_LINK_STATUS.STATE l = x.state.code := (hv.rd_xrn _ _ _ rfl).trans hu
  split
  · exact (State.rd_raise_field _ _ _ _ _ _ _ (by decide)).trans shown
  · exact shown

@[simp] theorem State.link_wr (s : State) (f : RField) (v i j l : Nat) : (s.wr f v i j).link l = s.link l := rfl

@[simp] theorem State.link_bump (s : State) (f : RField) (v i j l : Nat) : (s.bump f v i j).link l = s.link l := rfl

@[simp] theorem State.link_send (s : State) (o : Out) (l : Nat) : (s.send o).link l = s.link l := rfl

/-- A bit that is written reads as it was written. -/
theorem State.on_wr_bit (s : State) {f : RField} (hf : f.width = 1) (b : Bool) (i j : Nat) : (s.wr f (if b then 1 else 0) i j).on f i j = b := by
  rw [State.on_wr_same, hf]
  cases b <;> rfl

/-! Links that come up and go down (R337, R338, R339) -/

theorem ringLinkDetect_detects (s : State) (l : Nat) (hen : s.on Reg.XRN_CTRL.EN = true) (hex : s.linkExists l = true)
    (hdown : (s.link l).state = .down) : Answers (.ringLinkDetect l) s fun t =>
      (t.link l).state = .detect ∧ t.rd Reg.XRN_LINK_STATUS.STATE l = LinkState.detect.code := by
  refine .of_eq (t := s.setLink l { state := .detect }) ?_ ⟨by rw [State.link_setLink], State.rd_state_setLink ..⟩
  show execRingLinkDetect l s = _
  simp [execRingLinkDetect, hen, hex, hdown]

/-- A link that has locked: it is in Hello, and its width is shown. -/
def State.trained (s : State) (l : Nat) (narrow : Bool) : State :=
  (s.setLink l { s.link l with state := .hello }).wr Reg.XRN_LINK_STATUS.NARROW (if narrow then 1 else 0) l

theorem ringLinkTrained_hello (s : State) (l : Nat) (n : Bool) (hen : s.on Reg.XRN_CTRL.EN = true) (hex : s.linkExists l = true)
    (hs : (s.link l).state = .detect ∨ (s.link l).state = .equalize ∨ (s.link l).state = .lock) : Answers (.ringLinkTrained l n) s fun t =>
      (t.link l).state = .hello ∧ (∃ b, Sends s t (.ringFlit l 2 b)) ∧ t.on Reg.XRN_LINK_STATUS.NARROW l = n := by
  have run : exec (.ringLinkTrained l n) s = .next ((if n then (s.trained l n).event1 0x8003 l else s.trained l n).sendHello l) := by
    show execRingLinkTrained l n s = _
    rcases hs with hs | hs | hs <;> simp [execRingLinkTrained, hen, hex, hs, State.trained]
  refine .of_eq run ?_
  have told : Within Part.offLinks (s.trained l n) (if n then (s.trained l n).event1 0x8003 l else s.trained l n) :=
    .ite (State.event1_frame _ _ (.refl _ _) rfl) (.refl _ _)
  have sent := State.sendHello_frame l told rfl
  refine ⟨?_, ⟨_, (Sends.refl_send _ _).earlier ?_⟩, ?_⟩
  · rw [sent.link_eq, State.trained, State.link_wr, State.link_setLink]
  · exact (State.setLink_frame _ _ (.refl _ s) (ps := Part.every) rfl).sent.trans told.sent
  · rw [sent.on_xrn _ _ _ rfl]
    exact State.on_wr_bit _ rfl ..

theorem ringLinkTrained_active (s : State) (l : Nat) (n : Bool) (hen : s.on Reg.XRN_CTRL.EN = true) (hex : s.linkExists l = true)
    (hs : (s.link l).state = .retrain) : Answers (.ringLinkTrained l n) s fun t =>
      (t.link l).state = .active ∧ t.on Reg.XRN_LINK_STATUS.NARROW l = n := by
  refine .of_eq (t := ((s.setLink l { s.link l with state := .active, failed := 0, replays := 0 }).wr Reg.XRN_LINK_STATUS.NARROW
    (if n then 1 else 0) l).event1 0x8003 l) ?_ ?_
  · show execRingLinkTrained l n s = _
    simp [execRingLinkTrained, hen, hex, hs]
  · generalize hu : s.setLink l { s.link l with state := .active, failed := 0, replays := 0 } = u
    have told := State.event1_frame 0x8003 l (.refl Part.offLinks (u.wr Reg.XRN_LINK_STATUS.NARROW (if n then 1 else 0) l)) rfl
    refine ⟨?_, ?_⟩
    · rw [told.link_eq, State.link_wr, ← hu, State.link_setLink]
    · rw [told.on_xrn _ _ _ rfl]
      exact State.on_wr_bit _ rfl ..

/-- The far end's hello makes a link Active where the wiring and the versions allow it, and else Isolated (R330, R339). -/
theorem State.settleHello_state (s : State) (l : Nat) (h : Hello) :
    ((s.settleHello l h).link l).state = if wiringGood s.headB l h && versionGood h then .active else .isolated := by
  unfold State.settleHello
  extract_lets _ x was u v w y e
  split
  · have told : Within Part.offLinks v w := .ite (.refl _ _) (State.event1_frame _ _ (.refl _ _) rfl)
    have reported : Within Part.offLinks v y := State.reportLinks_frame told rfl
    have asked : Within Part.offLinks v (if (decide (l % 2 = 0) && y.own.loser && !y.own.rejoin) = true then y.askRejoin else y) :=
      .ite (State.askRejoin_frame reported rfl) reported
    rw [asked.link_eq, State.link_wr, State.link_wr, State.link_setLink]
  · have told : Within Part.offLinks (s.setLink l { x with state := .isolated }) e := State.event1_frame _ _ (.refl _ _) rfl
    rw [State.link_wr, State.link_wr, told.link_eq, State.link_setLink]

theorem ringHello_settles (s : State) (l : Nat) (h : Hello) (hs : (s.link l).state = .hello) : Answers (.ringHello l h) s fun t =>
    (t.link l).state = if wiringGood s.headB l h && versionGood h then .active else .isolated := by
  refine .of_eq (t := s.settleHello l h) ?_ (s.settleHello_state l h)
  show execRingHello l h s = _
  simp [execRingHello, hs]

/-- What a link that goes Down leaves (R334, R338). -/
theorem State.ringLinkDown_shows (s : State) (l n : Nat) : ((s.ringLinkDown l n).link l).state = .down ∧
    (s.ringLinkDown l n).rd Reg.XRN_LINK_STATUS.STATE l = LinkState.down.code ∧ (s.ringLinkDown l n).on Reg.XRN_LINK_STATUS.PEER l = false := by
  unfold State.ringLinkDown
  extract_lets was u v
  have reported : Within Part.offLinks v (if was = true then v.reportLinks else v) := .ite (State.reportLinks_frame (.refl _ _) rfl) (.refl _ _)
  have told : Within Part.offLinks ((s.setLink l {}).bump Reg.XRN_DROP.PARTIAL n) u := State.event1_frame 0x8002 l (.refl _ _) rfl
  refine ⟨?_, ?_, ?_⟩
  · rw [reported.link_eq, State.link_wr, State.link_wr, told.link_eq, State.link_bump, State.link_setLink]
  · rw [reported.rd_xrn _ _ _ rfl, State.rd_wr_field _ _ _ _ _ _ _ _ (by decide), State.rd_wr_field _ _ _ _ _ _ _ _ (by decide),
      told.rd_xrn _ _ _ rfl, State.rd_bump_field _ _ _ _ _ _ _ _ (by decide), State.rd_state_setLink]
  · rw [reported.on_xrn _ _ _ rfl, State.on_wr_field _ _ _ _ _ _ _ _ (by decide), State.on_wr_same]
    rfl

theorem ringLinkDown_down (s : State) (l n : Nat) (hex : s.linkExists l = true) (hs : (s.link l).state ≠ .down) :
    Answers (.ringLinkDown l n) s fun t =>
      (t.link l).state = .down ∧ t.rd Reg.XRN_LINK_STATUS.STATE l = LinkState.down.code ∧ t.on Reg.XRN_LINK_STATUS.PEER l = false := by
  refine .of_eq (t := s.ringLinkDown l n) ?_ (s.ringLinkDown_shows l n)
  show execRingLinkDown l n s = _
  simp [execRingLinkDown, hex, hs]

theorem ringTrainingTimeout_down (s : State) (l : Nat) (hs : (s.link l).state = .detect ∨ (s.link l).state = .equalize ∨
    (s.link l).state = .lock ∨ (s.link l).state = .hello ∨ (s.link l).state = .retrain ∧ 2 ≤ (s.link l).failed) :
    Answers (.ringTrainingTimeout l) s fun t => (t.link l).state = .down := by
  refine .of_eq (t := s.ringLinkDown l 0) ?_ (s.ringLinkDown_shows l 0).1
  show execRingTrainingTimeout l s = _
  rcases hs with hs | hs | hs | hs | ⟨hs, hf⟩
  iterate 4 simp [execRingTrainingTimeout, hs]
  simp [execRingTrainingTimeout, hs, hf]

theorem ringTrainingTimeout_counts (s : State) (l : Nat) (hs : (s.link l).state = .retrain) (hf : (s.link l).failed < 2) :
    Answers (.ringTrainingTimeout l) s fun t => t.link l = { s.link l with failed := (s.link l).failed + 1 } := by
  refine .of_eq (t := (s.setLink l { s.link l with failed := (s.link l).failed + 1 }).bump Reg.XRN_LINK_RETRY.RETRAINS 1 l) ?_
    (State.link_setLink ..)
  show execRingTrainingTimeout l s = _
  simp [execRingTrainingTimeout, hs, Nat.not_le.2 hf]

/-! Replays and partial messages (R334, R337) -/

theorem ringReplayRequest_retrains (s : State) (l n : Nat) (hs : (s.link l).state = .active) (hq : (s.link l).seq = n % 1024)
    (hr : 4 ≤ (s.link l).replays) : Answers (.ringReplayRequest l n) s fun t => (t.link l).state = .retrain := by
  refine .of_eq (t := ((s.bump Reg.XRN_LINK_RETRY.REPLAYS 1 l).setLink l { s.link l with state := .retrain, replays := 0 }).bump
    Reg.XRN_LINK_RETRY.RETRAINS 1 l) ?_ (congrArg RingLink.state (State.link_setLink ..))
  show execRingReplayRequest l n s = _
  simp [execRingReplayRequest, hs, hq, hr]

theorem ringReplayRequest_replays (s : State) (l n : Nat) (hs : (s.link l).state = .active) (hq : (s.link l).seq ≠ n % 1024) :
    Answers (.ringReplayRequest l n) s fun t => Sends s t (.ringFlit l 2 [n % 1024]) ∧ (t.link l).seq = n % 1024 ∧ (t.link l).replays = 1 := by
  have run : exec (.ringReplayRequest l n) s = .next (((s.bump Reg.XRN_LINK_RETRY.REPLAYS 1 l).setLink l
      { s.link l with seq := n % 1024, replays := 1 }).send (.ringFlit l 2 [n % 1024])) := by
    show execRingReplayRequest l n s = _
    simp [execRingReplayRequest, hs, hq]
  refine .of_eq run ⟨(Sends.refl_send _ _).earlier ?_, ?_⟩
  · exact (State.setLink_frame _ _ (.refl _ (s.bump Reg.XRN_LINK_RETRY.REPLAYS 1 l)) (ps := Part.every) rfl).sent
  · rw [State.link_send, State.link_setLink]
    exact ⟨rfl, rfl⟩

theorem partialMessageTimeout_counts (s : State) (l : Nat) (hs : (s.link l).state = .active) : Answers (.partialMessageTimeout l) s fun t =>
    t.rd Reg.XRN_DROP.PARTIAL = Reg.XRN_DROP.PARTIAL.fit (satAdd Reg.XRN_DROP.PARTIAL.width (s.rd Reg.XRN_DROP.PARTIAL) 1) :=
  .of_eq (if_pos hs : execPartialMessageTimeout l s = _) (State.rd_bump_same ..)

/-! A newer term (R341, R342) -/

/-- The device state leaves every register but its own field and the lock alone (R344). -/
theorem State.rd_setDevice (s : State) (d : DeviceState) (f : RField) (i j : Nat) (h : Reg.XRN_ADDR.STATE.id ≠ f.id)
    (h' : Reg.XRN_TIME_STATUS.LOCK.id ≠ f.id) : (s.setDevice d).rd f i j = s.rd f i j :=
  (State.rd_wr_field _ _ _ _ _ _ _ _ h').trans (State.rd_wr_field _ _ _ _ _ _ _ _ h)

/-- A newer term taken over (R342): its link is the parent's, and a keeper stands down. -/
def State.followTerm (s : State) (link term keeper depth : Nat) : State :=
  have stood := s.isKeeper
  have s := if stood && s.on Reg.XRN_ROLE.KEEPER_STRAP then s.event1 0x8008 term else s
  have s := { s with
    xrn.parent := some link
    xrn.depth := depth + 1
    xrn.gathering := false
    xrn.enumSeen := some (term, keeper, depth + 1) }
  have s := ((s.wr Reg.XRN_ROLE.IS_KEEPER 0).wr Reg.XRN_TERM.TERM term).wr Reg.XRN_KEEPER_ID.ID keeper
  have s := s.wr Reg.XRN_DEVICES.DEPTH (depth + 1)
  if stood then s.setDevice .locking else s

theorem State.followTerm_shows (s : State) (l n k d : Nat) :
    (s.followTerm l n k d).xrn.parent = some l ∧ (s.followTerm l n k d).xrn.depth = d + 1 ∧
    (s.followTerm l n k d).on Reg.XRN_ROLE.IS_KEEPER = false ∧ (s.followTerm l n k d).rd Reg.XRN_TERM.TERM = Reg.XRN_TERM.TERM.fit n ∧
    (s.followTerm l n k d).rd Reg.XRN_KEEPER_ID.ID = Reg.XRN_KEEPER_ID.ID.fit k := by
  unfold State.followTerm
  extract_lets stood u _ v w x
  have keeper : x.rd Reg.XRN_ROLE.IS_KEEPER = 0 := by
    rw [State.rd_wr_field _ _ _ _ _ _ _ _ (by decide), State.rd_wr_field _ _ _ _ _ _ _ _ (by decide),
      State.rd_wr_field _ _ _ _ _ _ _ _ (by decide), State.rd_wr_same]
    rfl
  have term : x.rd Reg.XRN_TERM.TERM = Reg.XRN_TERM.TERM.fit n := by
    rw [State.rd_wr_field _ _ _ _ _ _ _ _ (by decide), State.rd_wr_field _ _ _ _ _ _ _ _ (by decide), State.rd_wr_same]
    rfl
  have id : x.rd Reg.XRN_KEEPER_ID.ID = Reg.XRN_KEEPER_ID.ID.fit k := by
    rw [State.rd_wr_field _ _ _ _ _ _ _ _ (by decide), State.rd_wr_same]
    rfl
  split
  · refine ⟨rfl, rfl, ?_, ?_, ?_⟩
    · rw [State.on, State.rd_setDevice _ _ _ _ _ (by decide) (by decide), keeper]
      rfl
    · rw [State.rd_setDevice _ _ _ _ _ (by decide) (by decide), term]
    · rw [State.rd_setDevice _ _ _ _ _ (by decide) (by decide), id]
  · exact ⟨rfl, rfl, by rw [State.on, keeper]; rfl, term, id⟩

theorem enumerationFlit_follows (s : State) (l n k d : Nat) (hs : (s.link l).state = .active) (hg : s.xrn.gathering = false) (hd : d < 16)
    (hseen : s.xrn.enumSeen = none ∨ ∃ u v w, s.xrn.enumSeen = some (u, v, w) ∧ u < n) : Answers (.enumerationFlit l n k d) s fun t =>
      t.xrn.parent = some l ∧ t.xrn.depth = d + 1 ∧ t.on Reg.XRN_ROLE.IS_KEEPER = false ∧ t.rd Reg.XRN_TERM.TERM = Reg.XRN_TERM.TERM.fit n ∧
        t.rd Reg.XRN_KEEPER_ID.ID = Reg.XRN_KEEPER_ID.ID.fit k := by
  have run : exec (.enumerationFlit l n k d) s = .next
      (((s.followTerm l n k d).sendEnum ((s.followTerm l n k d).activeLinks.filter fun x => x != l)).sendJoin) := by
    have hdeep : ¬ 16 < d + 1 := by omega
    show execEnumerationFlit l n k d s = _
    rcases hseen with h | ⟨u, v, w, h, hlt⟩
    · simp [execEnumerationFlit, State.followTerm, hs, hg, hdeep, h]
    · simp [execEnumerationFlit, State.followTerm, hs, hg, hdeep, h, hlt]
  refine .of_eq run ?_
  have sent : Within Part.offLinks (s.followTerm l n k d)
      (((s.followTerm l n k d).sendEnum ((s.followTerm l n k d).activeLinks.filter fun x => x != l)).sendJoin) :=
    State.sendJoin_frame (State.sendEnum_frame _ (.refl _ _) rfl) rfl
  rw [sent.xrn_eq, sent.on_xrn _ _ _ rfl, sent.rd_xrn _ _ _ rfl, sent.rd_xrn _ _ _ rfl]
  exact s.followTerm_shows l n k d

/-! A directory put in place (R342, R343) -/

/-- Of the ring's own state a directory put in place is all that changes: the entries given, with the hops from here. -/
theorem State.xrn_setDir (s : State) (dir : Table DirEntry) : ∃ hops : Nat → Nat,
    (s.setDir dir).xrn = { s.xrn with dir := Table.mapVals (fun a e => { e with hops := hops a }) dir } := by
  refine ⟨treeHops dir (s.rd Reg.XRN_ADDR.ASSIGNED), ?_⟩
  unfold State.setDir
  extract_lets here hops on _ t u v w
  have ht : Within (Part.but [.xrn]) { s with xrn.dir := hops } t := State.sendOwed_frame (State.settleRemote_frame (.refl _ _) rfl) rfl
  have hw : Within (Part.but [.xrn]) { s with xrn.dir := hops } w :=
    State.wr_frame _ _ _ _ (State.wr_frame _ _ _ _ (State.wr_frame _ _ _ _ ht rfl) rfl) rfl
  refine (Within.ite hw (.foldl _ hw fun _ _ => State.ddrWriteList_frame _ _ (.refl _ _) rfl)).only.xrn rfl

/-- A directory put in place shows in its own three fields alone, of the block XRN (R358). -/
theorem State.rd_setDir (s : State) (dir : Table DirEntry) (f : RField) (i j : Nat) (hb : f.block = 16)
    (hf : ∀ g ∈ [Reg.XRN_DEVICES.COUNT, Reg.XRN_VERSION.CASCADE_MINOR, Reg.XRN_FEATURES_CASCADE.BITS], g.id ≠ f.id) :
    (s.setDir dir).rd f i j = s.rd f i j := by
  unfold State.setDir
  extract_lets here hops on _ t u v w
  have ht : Within (Part.butBlock 16) s t :=
    State.sendOwed_frame (State.settleRemote_frame (.put (a := [.xrn]) (.refl _ s) rfl rfl rfl rfl rfl) rfl) rfl
  have hw : w.rd f i j = s.rd f i j := by
    rw [State.rd_wr_field _ _ _ _ _ _ _ _ (hf _ (by simp)), State.rd_wr_field _ _ _ _ _ _ _ _ (hf _ (by simp)),
      State.rd_wr_field _ _ _ _ _ _ _ _ (hf _ (by simp))]
    refine ht.only.rd f i j rfl ?_
    rw [hb]
    rfl
  have stored : Within (Part.butBlock 16) w (if w.rd Reg.XRN_DIR_BASE.BASE = 0 then w else
      hops.foldl (fun s e => s.ddrWriteList (s.rd Reg.XRN_DIR_BASE.BASE + 32 * e.1) e.2.bytes) w) :=
    .ite (.refl _ _) (.foldl _ (.refl _ _) fun _ _ => State.ddrWriteList_frame _ _ (.refl _ _) rfl)
  refine (stored.only.rd f i j rfl ?_).trans hw
  rw [hb]
  rfl

/-- An entry put into the directory stands there, but for its hops. -/
theorem State.find_setDir_put (s : State) (a : Nat) (e : DirEntry) (dir : Table DirEntry) :
    ∃ n, Table.find a (s.setDir (Table.put a e dir)).xrn.dir = some { e with hops := n } := by
  obtain ⟨hops, hx⟩ := s.xrn_setDir (Table.put a e dir)
  exact ⟨hops a, by rw [hx, Table.find_mapVals, Table.find_put_same, Option.map_some]⟩

/-! What is broadcast (R342) -/

/-- The parts that may change while the links stay as they are and the channels keep what waits. -/
def Part.offRing : List Part := Part.offLinks.filter fun p => Part.calm.contains p

/-- A message sent on several links has left on each, or waits there. -/
theorem State.foldl_sendOn_given (o : Out) (ls : List Nat) (s : State) : ∀ l ∈ ls, Sends s (ls.foldl (fun s l => s.sendOn l o) s) o ∨
    o ∈ Table.get (chanKey l o.channel) [] (ls.foldl (fun s l => s.sendOn l o) s).chan.waiting := by
  induction ls generalizing s with
  | nil => exact fun _ hl => absurd hl List.not_mem_nil
  | cons a rest ih =>
    have kept : RingKept (s.sendOn a o) (rest.foldl (fun s l => s.sendOn l o) (s.sendOn a o)) :=
      .foldl rest (.refl _) fun _ _ h => h.trans (State.sendOn_kept ..)
    intro l hl
    rw [List.foldl_cons]
    rcases List.mem_cons.1 hl with rfl | hl
    · exact (s.sendOn_given l o).imp (fun h => h.later kept.sent) (kept.waiting _ _)
    · exact (ih _ l hl).imp_left fun h => h.earlier (State.sendOn_kept s a o).sent

/-- The directory that is broadcast is on every link down the parent tree, and stays there through what leaves the links alone. -/
theorem State.broadcastDir_casts {r s t : State} (h : r.out <:+ s.out) (g : Within Part.offRing s.broadcastDir t) :
    ∃ b c, Casts r t (.ring 0x11 b c) := by
  have cast : Within Part.offLinks s s.broadcastDir := State.broadcastDir_frame (.refl _ _) rfl
  have kept : RingKept s.broadcastDir t := (RingKept.refl _).frame (g.mono rfl)
  refine ⟨[s.rd Reg.XRN_TERM.TERM], s.xrn.dir.flatMap fun e => le 2 e.1 ++ e.2.bytes, fun l hl => ?_⟩
  rw [(g.mono (b := Part.offLinks) rfl).childLinks_eq, cast.childLinks_eq] at hl
  exact (State.foldl_sendOn_given _ s.childLinks s l hl).imp (fun h' => (h'.later kept.sent).earlier h) (kept.waiting _ _)

/-! Joins (R342, R343, R346) -/

theorem enumerationJoin_gathered (s : State) (j : Join) (hk : s.isKeeper = true) (hg : s.xrn.gathering = true) :
    Answers (.enumerationJoin j) s fun t => j ∈ t.xrn.joins := by
  have run : execEnumerationJoin j s = _ := (if_neg (by simp [hk])).trans (if_pos hg)
  exact .of_eq run (List.mem_append_right _ (List.mem_singleton.2 rfl))

/-- A join that a keeper grants takes its place in the directory (R343). -/
theorem State.admitJoin_granted (s : State) (j : Join) (a : Nat) (hl : s.limitsGood j = true) (ha : grantAddress s.xrn.dir j = some a) :
    (Table.find a (s.admitJoin j).xrn.dir).map DirEntry.device = some j.hello.device := by
  unfold State.admitJoin
  rw [hl, ha]
  dsimp only
  rw [if_neg (by decide)]
  obtain ⟨n, hn⟩ := State.find_setDir_put _ a _ _
  rw [hn]
  rfl

theorem enumerationJoin_placed (s : State) (j : Join) (a : Nat) (hk : s.isKeeper = true) (hg : s.xrn.gathering = false)
    (hl : s.limitsGood j = true) (ha : grantAddress s.xrn.dir j = some a) : Answers (.enumerationJoin j) s fun t =>
      (Table.find a t.xrn.dir).map DirEntry.device = some j.hello.device ∧ ∃ b c, Casts s t (.ring 0x11 b c) := by
  generalize hn : ({ s with xrn.neigh := Table.put j.hello.device j.neighbours s.xrn.neigh } : State) = u
  have placed : (Table.find a (u.admitJoin j).xrn.dir).map DirEntry.device = some j.hello.device := by
    subst hn
    exact State.admitJoin_granted _ j a hl ha
  have run : exec (.enumerationJoin j) s = .next
      (if Table.find j.hello.device s.xrn.neigh != some j.neighbours then
        (u.admitJoin j).broadcastDir.sendEnum (u.admitJoin j).broadcastDir.activeLinks else (u.admitJoin j).broadcastDir) := by
    subst hn
    show execEnumerationJoin j s = _
    simp [execEnumerationJoin, hk, hg]
  refine .of_eq run ?_
  have told (v : State) : Within Part.offRing v
      (if Table.find j.hello.device s.xrn.neigh != some j.neighbours then v.sendEnum v.activeLinks else v) :=
    .ite (State.sendEnum_frame _ (.refl _ _) rfl) (.refl _ _)
  have cast : Within Part.offLinks (u.admitJoin j) (u.admitJoin j).broadcastDir := State.broadcastDir_frame (.refl _ _) rfl
  refine ⟨?_, State.broadcastDir_casts ?_ (told _)⟩
  · rw [((told _).mono (b := Part.offLinks) rfl).xrn_eq, cast.xrn_eq, placed]
  · have admitted : u.out <:+ (u.admitJoin j).out := (State.admitJoin_frame j (.refl Part.every u) rfl).sent
    rwa [← hn] at admitted ⊢

/-! The directory at a device (R342, R344) -/

/-- What a directory says of this device (R343, R344): its address, and whether it joins. -/
def State.readDir (s : State) (dir : Table DirEntry) : State :=
  match addressOf dir s.fuses.deviceId with
  | none => (s.wr Reg.XRN_ADDR.VALID 0).setDevice .isolated
  | some a =>
    have e : DirEntry := Table.get a { device := 0 } dir
    have s := (s.wr Reg.XRN_ADDR.ASSIGNED a).wr Reg.XRN_ADDR.VALID 1
    have s := { s with xrn.floor := max s.xrn.floor e.floor }
    if e.state == .gone then s.setDevice DeviceState.gone
    else if s.xrn.state == .isolated || s.xrn.state == .gone then s.setDevice DeviceState.joining
    else s

theorem execEnumerationDirectory_eq (s : State) (dir : Table DirEntry) (hk : s.isKeeper = false) :
    execEnumerationDirectory dir [] s = .next ((s.readDir dir).setDir dir).broadcastDir := by
  unfold execEnumerationDirectory
  rw [hk]
  rfl

/-- What a device takes from a directory it shows once the directory stands and has been forwarded. -/
theorem enumerationDirectory_shows {s u : State} {dir : Table DirEntry} (hk : s.isKeeper = false) (hu : s.readDir dir = u)
    (hsent : s.out <:+ u.out) : Answers (.enumerationDirectory dir []) s fun t =>
      t.xrn.state = u.xrn.state ∧ t.xrn.floor = u.xrn.floor ∧ t.rd Reg.XRN_ADDR.VALID = u.rd Reg.XRN_ADDR.VALID ∧
      t.rd Reg.XRN_ADDR.ASSIGNED = u.rd Reg.XRN_ADDR.ASSIGNED ∧ ∃ b c, Casts s t (.ring 0x11 b c) := by
  refine .of_eq (execEnumerationDirectory_eq s dir hk) ?_
  rw [hu]
  have cast : Within Part.offLinks (u.setDir dir) (u.setDir dir).broadcastDir := State.broadcastDir_frame (.refl _ _) rfl
  obtain ⟨hops, hx⟩ := u.xrn_setDir dir
  rw [cast.xrn_eq, hx, cast.rd_xrn _ _ _ rfl, cast.rd_xrn _ _ _ rfl, u.rd_setDir _ _ _ _ rfl (by decide), u.rd_setDir _ _ _ _ rfl (by decide)]
  exact ⟨rfl, rfl, rfl, rfl,
    State.broadcastDir_casts (hsent.trans (State.setDir_frame dir (.refl Part.every u) rfl).sent) (.refl _ _)⟩

theorem enumerationDirectory_isolates (s : State) (dir : Table DirEntry) (hk : s.isKeeper = false)
    (ha : addressOf dir s.fuses.deviceId = none) : Answers (.enumerationDirectory dir []) s fun t =>
      t.xrn.state = .isolated ∧ t.on Reg.XRN_ADDR.VALID = false := by
  have hu : s.readDir dir = (s.wr Reg.XRN_ADDR.VALID 0).setDevice .isolated := by
    unfold State.readDir
    rw [ha]
  refine (enumerationDirectory_shows hk hu (List.suffix_refl _)).imp fun t ⟨hstate, _, hvalid, _⟩ => ⟨hstate, ?_⟩
  rw [State.on_of_rd hvalid, State.on_of_rd (State.rd_setDevice _ _ _ _ _ (by decide) (by decide)), State.on_wr_same]
  rfl

theorem enumerationDirectory_joins (s : State) (dir : Table DirEntry) (a : Nat) (hk : s.isKeeper = false)
    (ha : addressOf dir s.fuses.deviceId = some a) (hg : (Table.get a { device := 0 } dir).state ≠ .gone) (hs : s.xrn.state = .isolated) :
    Answers (.enumerationDirectory dir []) s fun t => t.xrn.state = .joining ∧ t.on Reg.XRN_ADDR.VALID = true ∧
      t.rd Reg.XRN_ADDR.ASSIGNED = Reg.XRN_ADDR.ASSIGNED.fit a ∧ t.xrn.floor = max s.xrn.floor (Table.get a { device := 0 } dir).floor ∧
        ∃ b c, Casts s t (.ring 0x11 b c) := by
  generalize hv : ({ (s.wr Reg.XRN_ADDR.ASSIGNED a).wr Reg.XRN_ADDR.VALID 1 with
    xrn.floor := max s.xrn.floor (Table.get a { device := 0 } dir).floor } : State) = v
  have hu : s.readDir dir = v.setDevice .joining := by
    subst hv
    unfold State.readDir
    simp [ha, hg, hs]
  have regs : v.regs = ((s.wr Reg.XRN_ADDR.ASSIGNED a).wr Reg.XRN_ADDR.VALID 1).regs := by rw [← hv]
  have valid : v.on Reg.XRN_ADDR.VALID = true := by
    rw [State.on_of_rd (State.rd_congr regs ..), State.on_wr_same]
    rfl
  have assigned : v.rd Reg.XRN_ADDR.ASSIGNED = Reg.XRN_ADDR.ASSIGNED.fit a := by
    rw [State.rd_congr regs, State.rd_wr_field _ _ _ _ _ _ _ _ (by decide), State.rd_wr_same]
    rfl
  refine (enumerationDirectory_shows hk hu (by subst hv; exact List.suffix_refl _)).imp
    fun t ⟨hstate, hfloor, hvalid, hassigned, hcast⟩ => ⟨hstate, ?_, ?_, hfloor.trans (by subst hv; rfl), hcast⟩
  · rw [State.on_of_rd hvalid, State.on_of_rd (State.rd_setDevice _ _ _ _ _ (by decide) (by decide)), valid]
  · rw [hassigned, State.rd_setDevice _ _ _ _ _ (by decide) (by decide), assigned]

/-! The end of the gathering, and an address that comes free (R343, R351) -/

theorem State.admitJoin_gathering (s : State) (j : Join) : (s.admitJoin j).xrn.gathering = s.xrn.gathering := by
  have told (code : Nat) (b : List Byte) : (s.event code b).xrn = s.xrn :=
    (State.event_frame (ps := Part.but [.xrn]) code b (.refl _ s) rfl).only.xrn rfl
  unfold State.admitJoin State.event1
  split
  · rw [told]
  · split
    · rw [told]
    · extract_lets u old self e
      obtain ⟨hops, hx⟩ := u.xrn_setDir (Table.put _ e u.xrn.dir)
      rw [hx]
      show u.xrn.gathering = _
      unfold u
      split
      · rfl
      · rw [told]

theorem State.admitSelf_gathering (s : State) : s.admitSelf.xrn.gathering = s.xrn.gathering := by
  unfold State.admitSelf
  extract_lets _ u fresh
  have hu : u.xrn.gathering = s.xrn.gathering := s.admitJoin_gathering _
  split
  · next a _ =>
    extract_lets v _ w
    have told : Within Part.offLinks w (if fresh then w.event1 0x800D a else w) := .ite (State.event1_frame _ _ (.refl _ _) rfl) (.refl _ _)
    rw [told.xrn_eq]
    exact hu
  · exact hu

theorem State.admitJoins_gathering (js : List Join) (s : State) : (js.foldl State.admitJoin s).xrn.gathering = s.xrn.gathering := by
  induction js generalizing s with
  | nil => rfl
  | cons j rest ih => exact (ih _).trans (s.admitJoin_gathering j)

theorem keeperGatherExpiry_starts (s : State) (hk : s.isKeeper = true) (hg : s.xrn.gathering = true) : Answers .keeperGatherExpiry s fun t =>
    t.xrn.gathering = false ∧ t.ringTime = max s.ringTime ((s.xrn.joins.map fun j => j.hello.floor).foldl max s.xrn.floor) ∧
      ∃ b c, Casts s t (.ring 0x11 b c) := by
  generalize hfloor : (s.xrn.joins.map fun j => j.hello.floor).foldl max s.xrn.floor = floor
  generalize hu : s.xrn.joins.foldl State.admitJoin (s.endGathering floor).admitSelf = u
  have run : exec .keeperGatherExpiry s = .next
      ((s.xrn.joins.flatMap Join.settings).foldl (fun s h => s.checkSettings h.1 h.2) u.broadcastDir) := by
    subst hu hfloor
    show execKeeperGatherExpiry s = _
    simp [execKeeperGatherExpiry, hk, hg]
  refine .of_eq run ?_
  have checked : Within Part.offRing u.broadcastDir
      ((s.xrn.joins.flatMap Join.settings).foldl (fun s h => s.checkSettings h.1 h.2) u.broadcastDir) :=
    .foldl _ (.refl _ _) fun _ _ => State.checkSettings_frame _ _ (.refl _ _) rfl
  have cast : Within Part.offLinks u u.broadcastDir := State.broadcastDir_frame (.refl _ _) rfl
  have admitted : Within (Part.but [.ringTime]) (s.endGathering floor) u :=
    hu ▸ .foldl _ (State.admitSelf_frame (.refl _ _) rfl) fun _ _ => State.admitJoin_frame _ (.refl _ _) rfl
  refine ⟨?_, ?_, State.broadcastDir_casts admitted.sent checked⟩
  · rw [(checked.mono (b := Part.offLinks) rfl).xrn_eq, cast.xrn_eq, ← hu, State.admitJoins_gathering, State.admitSelf_gathering]
    rfl
  · have timed : Within (Part.but [.ringTime]) u
        ((s.xrn.joins.flatMap Join.settings).foldl (fun s h => s.checkSettings h.1 h.2) u.broadcastDir) :=
      .foldl _ (State.broadcastDir_frame (.refl _ _) rfl) fun _ _ => State.checkSettings_frame _ _ (.refl _ _) rfl
    rw [timed.only.ringTime rfl, admitted.only.ringTime rfl]
    rfl

theorem addressReserveExpiry_frees (s : State) (a : Nat) (e : DirEntry) (he : Table.find a s.xrn.dir = some e) (hk : s.isKeeper = true)
    (hg : e.state = .gone) : Answers (.addressReserveExpiry a) s fun t =>
      (Table.find a t.xrn.dir).map DirEntry.device = some 0 ∧ (Table.find a t.xrn.dir).map DirEntry.floor = some e.floor ∧
        ∃ b c, Casts s t (.ring 0x11 b c) := by
  generalize hx : ({ device := 0, state := .gone, floor := e.floor, minor := 0, features := 0 } : DirEntry) = x
  have run : exec (.addressReserveExpiry a) s = .next (s.setDir (Table.put a x s.xrn.dir)).broadcastDir := by
    subst hx
    show execAddressReserveExpiry a s = _
    simp [execAddressReserveExpiry, he, hk, hg]
  refine .of_eq run ?_
  obtain ⟨n, hn⟩ := s.find_setDir_put a x s.xrn.dir
  generalize hu : s.setDir (Table.put a x s.xrn.dir) = u at hn ⊢
  have cast : Within Part.offLinks u u.broadcastDir := State.broadcastDir_frame (.refl _ _) rfl
  rw [cast.xrn_eq, hn, ← hx]
  exact ⟨rfl, rfl, State.broadcastDir_casts (hu ▸ (State.setDir_frame _ (.refl Part.every s) rfl).sent) (.refl _ _)⟩

/-- Settles O32, command by command. -/
theorem ringLinks : Obligations.RingLinks := by
  unfold Obligations.RingLinks
  refine ⟨ringLinkDetect_detects, fun s l n hen hex => ⟨ringLinkTrained_hello s l n hen hex, ringLinkTrained_active s l n hen hex⟩,
    ringHello_settles, ringLinkDown_down, fun s l => ⟨fun hs => ringTrainingTimeout_down s l ?_,
      fun hs hf => ringTrainingTimeout_down s l (.inr (.inr (.inr (.inr ⟨hs, hf⟩)))), ringTrainingTimeout_counts s l⟩,
    fun s l n hs => ⟨ringReplayRequest_retrains s l n hs, ringReplayRequest_replays s l n hs⟩, partialMessageTimeout_counts,
    enumerationFlit_follows, fun s j hk => ⟨enumerationJoin_gathered s j hk, fun a => enumerationJoin_placed s j a hk⟩,
    fun s d hk => ⟨enumerationDirectory_isolates s d hk, fun a => enumerationDirectory_joins s d a hk⟩, keeperGatherExpiry_starts,
    addressReserveExpiry_frees⟩
  exact hs.imp_right (Or.imp_right (Or.imp_right .inl))

end Sys2Proof.Machine
end

section
/-!
Dedup (O16): a sweep of a domain whose home is another pair takes a tag for each chunk that it asks the home for (R77, R127), and stays
unfinished where the tags run out.
-/
namespace Sys2Proof.Machine
open Sys2Proof

/-! Tags for internal work (R77, R78) -/

theorem lowestFree_range' (m n : Nat) : lowestFree (List.range' n m) n = n + m := by
  induction m generalizing n with
  | zero => rfl
  | succ m ih =>
    rw [List.range'_succ, lowestFree, if_pos rfl, ih]
    omega

/-- A key above all others makes a table longer by one. -/
theorem Table.length_put_above {α : Type} {k : Nat} {v : α} {t : Table α} (h : ∀ e ∈ t, e.1 < k) : (Table.put k v t).length = t.length + 1 := by
  induction t with
  | nil => rfl
  | cons e r ih =>
    have he := h e List.mem_cons_self
    rw [Table.put, if_neg (by omega), if_neg (by omega), List.length_cons, ih fun x hx => h x (List.mem_cons_of_mem _ hx), List.length_cons]

/-- With no reserve for forwarded-in commands, internal work takes any tag that is left (R78). -/
theorem State.mayTag_internal {s : State} (h : s.rd Reg.CMD_TAG_RESERVE.FORWARDED = 0) :
    s.mayTag .internal = decide (s.cmd.tags.length < 131072) := by
  simp only [State.mayTag, h, Nat.zero_sub, Nat.sub_pos_iff_lt]

/-- Where the first `n` tags are in use, held work takes one more (R77). -/
theorem State.length_holdTag {s : State} {n : Nat} (h : s.cmd.tags.map Prod.fst = List.range n) (job : InternalJob) (tenant : Nat) :
    (s.holdTag job tenant).cmd.tags.length = n + 1 := by
  have free : lowestFree (s.cmd.tags.map Prod.fst) 0 = n := by
    rw [h, List.range_eq_range', lowestFree_range', Nat.zero_add]
  have below : ∀ e ∈ s.cmd.tags, e.1 < n := fun e he => List.mem_range.1 (h ▸ List.mem_map_of_mem he)
  have len : s.cmd.tags.length = n := by
    rw [← List.length_map (f := Prod.fst), h, List.length_range]
  unfold State.holdTag
  dsimp only
  rw [State.cmd_noteTags]
  show (Table.put (lowestFree (s.cmd.tags.map Prod.fst) 0) _ s.cmd.tags).length = _
  rw [free, Table.length_put_above below, len]

theorem State.rd_holdTag_reserve (s : State) (job : InternalJob) (tenant : Nat) :
    (s.holdTag job tenant).rd Reg.CMD_TAG_RESERVE.FORWARDED = s.rd Reg.CMD_TAG_RESERVE.FORWARDED :=
  State.rd_noteTags _ _ _ _ (by decide)

/-! An entry of a domain whose home is another pair (R127) -/

/-- The home is asked for an entry, which holds a tag until the answer (R77). -/
def State.askHome (s : State) (e : JournalEntry) : State :=
  have n := (s.ddp.seqOut + 1) % 2 ^ 32
  have held := ({ s with
    ddp.seqOut := n
    ddp.asked := Table.put n e s.ddp.asked }).holdTag (.reconcile n) e.domain
  held.sendRing (.ring 0x40 [s.rd Reg.DDP_DOMAIN_HOME.HOME e.domain, e.domain, held.pairAddr, n] e.fp)

/-- An entry of a domain whose home is reached and is another pair is asked for where a tag is left, and else waits. -/
theorem State.settleEntry_cascaded {s : State} {e : JournalEntry} (upset : Bool) (hc : s.cascaded e.domain = true)
    (hr : s.pairReached (s.rd Reg.DDP_DOMAIN_HOME.HOME e.domain) = true) :
    s.settleEntry e upset = if s.mayTag .internal then (true, s.askHome e) else (false, s) := by
  simp only [State.settleEntry, hc, hr, Bool.true_and, if_true, State.askHome]

theorem State.askHome_frame {ps s t} (e : JournalEntry) (h : Within ps s t)
    (hp : Part.sub [.block 10, .cmd, .ddp, .chan, .out] ps = true) : Within ps s (t.askHome e) :=
  h.step (State.sendRing_frame _ (State.holdTag_frame _ _ (.put (a := [.ddp]) (.refl _ t) rfl rfl rfl rfl rfl) rfl) rfl) hp

theorem State.ddp_askHome (s : State) (e : JournalEntry) : (s.askHome e).ddp = { s.ddp with
    seqOut := (s.ddp.seqOut + 1) % 2 ^ 32
    asked := Table.put ((s.ddp.seqOut + 1) % 2 ^ 32) e s.ddp.asked } := by
  unfold State.askHome
  extract_lets n _ held
  have sent : Within (Part.but [.ddp]) { s with ddp.seqOut := n, ddp.asked := Table.put n e s.ddp.asked } (held.sendRing _) :=
    State.sendRing_frame (.ring 0x40 [s.rd Reg.DDP_DOMAIN_HOME.HOME e.domain, e.domain, held.pairAddr, n] e.fp)
      (State.holdTag_frame _ _ (.refl _ _) rfl) rfl
  exact sent.only.ddp rfl

/-- An entry asked for takes a tag, and no reserve changes. -/
theorem State.askHome_tags {s : State} {n : Nat} (h : s.cmd.tags.map Prod.fst = List.range n) (e : JournalEntry) :
    (s.askHome e).cmd.tags.length = n + 1 ∧ (s.askHome e).rd Reg.CMD_TAG_RESERVE.FORWARDED = s.rd Reg.CMD_TAG_RESERVE.FORWARDED := by
  unfold State.askHome
  extract_lets q _ held
  have sent : Within [.chan, .out] held (held.sendRing _) :=
    State.sendRing_frame (.ring 0x40 [s.rd Reg.DDP_DOMAIN_HOME.HOME e.domain, e.domain, held.pairAddr, q] e.fp) (.refl _ _) rfl
  rw [sent.only.cmd rfl, sent.only.rd _ _ _ rfl rfl]
  exact ⟨State.length_holdTag (s := { s with ddp.seqOut := q, ddp.asked := Table.put q e s.ddp.asked }) h _ _, State.rd_holdTag_reserve ..⟩

/-- What work that takes tags and sends messages leaves of a domain's settings and of its home's place. -/
theorem State.home_within {s t : State} (h : Within [.block 10, .cmd, .ddp, .chan, .out] s t) (d : Nat) : t.cascaded d = s.cascaded d ∧
    t.pairReached (t.rd Reg.DDP_DOMAIN_HOME.HOME d) = s.pairReached (s.rd Reg.DDP_DOMAIN_HOME.HOME d) := by
  have settings (f : RField) (i : Nat) (hf : f.block = 12 ∨ f.block = 16) : t.rd f i = s.rd f i :=
    h.only.rd f i 0 rfl (by rcases hf with hf | hf <;> rw [hf] <;> rfl)
  unfold State.cascaded State.pairAddr State.pairReached State.on
  rw [settings _ _ (.inl rfl), settings _ _ (.inl rfl), settings _ _ (.inl rfl), settings _ _ (.inr rfl), h.only.xrn rfl]
  exact ⟨rfl, rfl⟩

/-! A sweep (R123) -/

/-- A stored chunk that stands in no flash index, and that no home has been asked for, is settled by the sweep. -/
theorem State.sweepOne_settles {s : State} {m : StoredMark} {fp : List Byte} (upset : List Nat) (i : Nat) (hfp : m.fp = some fp)
    (hst : s.isStored m.loc = true) (hfl : s.flashEntry m.domain fp = none)
    (hasked : (s.ddp.asked.any fun a => a.2 == { domain := m.domain, fp := fp, loc := m.loc }) = false) :
    s.sweepOne upset (m, i) = s.settleEntry { domain := m.domain, fp := fp, loc := m.loc } (upset.contains i) := by
  simp only [State.sweepOne, hfp, hst, hfl, hasked, Option.all_none, Bool.not_false, Bool.and_self, if_true]

/-- A sweep goes on to the next chunk: whether every chunk so far could be settled, and the state. -/
def sweepNext (upset : List Nat) (acc : Bool × State) (m : StoredMark × Nat) : Bool × State :=
  (acc.1 && (acc.2.sweepOne upset m).1, (acc.2.sweepOne upset m).2)

/-- A sweep in which a chunk could not be settled leaves SWEEP_NEEDED as it stands (R123). -/
theorem domainSweep_unfinished {s u : State} {d : Nat} {marks : List StoredMark} (needed : s.on Reg.DDP_DOMAIN_STAT.SWEEP_NEEDED d = true)
    (may : s.mayReconcile = true) (mode : s.rd Reg.DDP_DOMAIN_CFG.MODE d = 2)
    (reached : s.pairReached (s.rd Reg.DDP_DOMAIN_HOME.HOME d) = true) (hmarks : (s.keys.stored.filter fun m => m.domain == d) = marks)
    (swept : (marks.filter fun m => m.loc.inFlash).zipIdx.foldl (sweepNext []) (true, s) = (false, u)) :
    exec (.domainSweep { domain := d }) s = .next u := by
  subst hmarks
  show execDomainSweep { domain := d } s = _
  unfold execDomainSweep
  unfold sweepNext at swept
  simp only [needed, may, mode, reached, swept, Bool.and_self, beq_self_eq_true, if_true, Bool.not_true, Bool.and_false, Bool.false_eq_true,
    if_false, Bool.not_false, Bool.true_or]

/-- A stored chunk of domain 0, in flash, with its fingerprint. -/
def sweptChunk (off : Nat) : StoredMark :=
  { loc := .flash 0 0 0 0 off 4096, domain := 0, slot := 0, gen := 1, cut := 0, fp := some [byteOf off] }

/-- The entry for which the home is asked. -/
def sweptEntry (off : Nat) : JournalEntry := { domain := 0, fp := [byteOf off], loc := .flash 0 0 0 0 off 4096 }

/-- Domain 0 is exact, wants a sweep and has pair 2 as its home, which is Attached. Two of its chunks stand in flash, and neither in a flash
index. No tag is reserved for forwarded-in commands. -/
def sweepAmid (tags : Table Cmd) : State :=
  { (((((State.reset.wr Reg.DDP_CTRL.RECON_EN 1).wr Reg.DDP_DOMAIN_STAT.SWEEP_NEEDED 1).wr Reg.DDP_DOMAIN_CFG.MODE 2).wr
      Reg.DDP_DOMAIN_CFG.CASCADE 1).wr Reg.DDP_DOMAIN_HOME.HOME 2).wr Reg.CMD_TAG_RESERVE.FORWARDED 0 with
    cmd.tags := tags
    xrn.dir := [(2, { device := 1, state := .attached })]
    keys.stored := [sweptChunk 1, sweptChunk 2] }

/-- Its home is another pair, and can be reached. -/
theorem sweepAmid_home (tags : Table Cmd) : (sweepAmid tags).cascaded 0 = true ∧
    (sweepAmid tags).pairReached ((sweepAmid tags).rd Reg.DDP_DOMAIN_HOME.HOME 0) = true := by
  have others : Within [.block 10, .cmd, .ddp, .chan, .out] (sweepAmid []) (sweepAmid tags) :=
    .put (a := [.cmd]) (.refl _ (sweepAmid [])) rfl rfl rfl rfl rfl
  obtain ⟨hc, hr⟩ := State.home_within others 0
  rw [hc, hr]
  decide

section
variable {tags : Table Cmd} (h : tags.map Prod.fst = List.range 131071)
include h

theorem sweepAmid_mayTag : (sweepAmid tags).mayTag .internal = true := by
  have len : tags.length = 131071 := by rw [← List.length_map (f := Prod.fst), h, List.length_range]
  rw [State.mayTag_internal rfl]
  exact decide_eq_true (by show tags.length < _; omega)

theorem sweepAmid_mayReconcile : (sweepAmid tags).mayReconcile = true := by
  rw [State.mayReconcile, sweepAmid_mayTag h]
  rfl

/-- The first chunk takes the last tag. -/
theorem sweepAmid_first : (sweepAmid tags).sweepOne [] (sweptChunk 1, 0) = (true, (sweepAmid tags).askHome (sweptEntry 1)) := by
  rw [State.sweepOne_settles [] 0 rfl rfl rfl rfl]
  exact (State.settleEntry_cascaded _ (sweepAmid_home tags).1 (sweepAmid_home tags).2).trans (if_pos (sweepAmid_mayTag h))

/-- For the second chunk no tag is left. -/
theorem sweepAmid_second : ((sweepAmid tags).askHome (sweptEntry 1)).sweepOne [] (sweptChunk 2, 1) =
    (false, (sweepAmid tags).askHome (sweptEntry 1)) := by
  have asked : Within [.block 10, .cmd, .ddp, .chan, .out] (sweepAmid tags) ((sweepAmid tags).askHome (sweptEntry 1)) :=
    State.askHome_frame _ (.refl _ _) rfl
  have hddp := (sweepAmid tags).ddp_askHome (sweptEntry 1)
  obtain ⟨htags, hres⟩ := State.askHome_tags (s := sweepAmid tags) h (sweptEntry 1)
  obtain ⟨hcasc, hreach⟩ := State.home_within asked 0
  rw [(sweepAmid_home tags).1] at hcasc
  rw [(sweepAmid_home tags).2] at hreach
  generalize (sweepAmid tags).askHome (sweptEntry 1) = u at asked hddp htags hres hcasc hreach ⊢
  have none_left : u.mayTag .internal = false := by
    rw [State.mayTag_internal hres, htags]
    rfl
  have stored : u.isStored (sweptChunk 2).loc = true := by
    unfold State.isStored
    rw [asked.only.keys rfl]
    rfl
  have unindexed : u.flashEntry (sweptChunk 2).domain [byteOf 2] = none := by
    unfold State.flashEntry
    rw [hddp]
    rfl
  have unasked : (u.ddp.asked.any fun a => a.2 == sweptEntry 2) = false := by
    rw [show u.ddp.asked = [(1, sweptEntry 1)] by rw [hddp]; rfl]
    decide
  rw [State.sweepOne_settles [] 1 rfl stored unindexed unasked]
  exact (State.settleEntry_cascaded (e := sweptEntry 2) _ hcasc hreach).trans (by rw [none_left]; rfl)

/-- The sweep asks for the first chunk and ends there. -/
theorem sweepAmid_asks : exec (.domainSweep { domain := 0 }) (sweepAmid tags) = .next ((sweepAmid tags).askHome (sweptEntry 1)) := by
  have swept : [(sweptChunk 1, 0), (sweptChunk 2, 1)].foldl (sweepNext []) (true, sweepAmid tags) =
      (false, (sweepAmid tags).askHome (sweptEntry 1)) := by
    simp only [List.foldl_cons, List.foldl_nil, sweepNext, sweepAmid_first h, sweepAmid_second h, Bool.and_false]
  exact domainSweep_unfinished rfl (sweepAmid_mayReconcile h) rfl (sweepAmid_home tags).2 rfl swept

end

/-- The first tags, with a read in each. -/
def readsInTags (n : Nat) : Table Cmd := (List.range n).map fun k => (k, { state := .running, cap := { qpn := 4, cid := k, op := .read } })

theorem readsInTags_keys (n : Nat) : (readsInTags n).map Prod.fst = List.range n := by
  rw [readsInTags, List.map_map]
  exact List.map_id _

/-- Refutes O16: with all tags but one in use, DOMAIN_SWEEP of a domain whose home is another pair, which can be reached, asks the home for
the first of two chunks only and leaves SWEEP_NEEDED set, though every chunk of the domain stands in flash. -/
theorem not_dedupCommands : ¬ Obligations.DedupCommands := by
  unfold Obligations.DedupCommands
  rintro ⟨-, -, -, -, -, -, sweep, -⟩
  have keys := readsInTags_keys 131071
  generalize readsInTags 131071 = tags at keys
  have inFlash : ∀ m ∈ (sweepAmid tags).keys.stored, m.domain = 0 → m.loc.inFlash = true ∨ m.fp = none := by
    show ∀ m ∈ [sweptChunk 1, sweptChunk 2], _
    decide
  obtain ⟨hcasc, hreach⟩ := sweepAmid_home tags
  obtain ⟨t, ht, cleared⟩ := sweep (sweepAmid tags) 0 [] rfl (sweepAmid_mayReconcile keys) rfl (by rw [hcasc, hreach]; rfl) inFlash
  rw [sweepAmid_asks keys] at ht
  injection ht with ht
  have asked : Within [.block 10, .cmd, .ddp, .chan, .out] (sweepAmid tags) t := ht ▸ State.askHome_frame _ (.refl _ _) rfl
  rw [State.on_of_rd (asked.only.rd _ _ _ rfl rfl)] at cleared
  exact absurd cleared (by show true ≠ false; decide)

end Sys2Proof.Machine
end

section
/-!
The container header (O52): what the little-endian bytes of a number spell, and where each field of a header stands (R132).
-/
namespace Sys2Proof.Machine
open Sys2Proof

/-! Numbers in bytes -/

theorem le_succ (n v : Nat) : le (n + 1) v = byteOf v :: le n (v / 256) := by
  unfold le
  rw [List.range_succ_eq_map, List.map_cons, List.map_map, pow_zero, Nat.div_one]
  refine congrArg (byteOf v :: ·) (List.map_congr_left fun k _ => ?_)
  rw [Function.comp_apply, Nat.pow_succ', ← Nat.div_div_eq_div_mul]

/-- Bytes written from a number spell its low digits. -/
theorem num_le (n v : Nat) : num (le n v) = v % 256 ^ n := by
  induction n generalizing v with
  | zero => simp [le, num, Nat.mod_one]
  | succ n ih =>
    rw [le_succ, num, ih, Nat.pow_succ', Nat.mod_mul]
    rfl

theorem num_byte (v : Nat) : num [byteOf v] = v % 256 := rfl

/-! Pieces of a byte string -/

theorem slice_skip {a : List Byte} {off : Nat} (h : a.length ≤ off) (b : List Byte) (len : Nat) :
    slice (a ++ b) off len = slice b (off - a.length) len := by
  rw [slice, List.drop_append, List.drop_eq_nil_of_le h, List.nil_append, slice]

theorem slice_here {a : List Byte} {len : Nat} (h : a.length = len) (b : List Byte) : slice (a ++ b) 0 len = a := by
  rw [slice, List.drop_zero, ← h, List.take_left]

/-! The header -/

/-- Where each field of a header stands: the fields of its bytes are its own, each at its place's width. -/
theorem Header.parse_bytes (h : Header) (b : List Byte) : Header.parse (h.bytes ++ b) =
    { alg := (1 + 16 * h.alg + if h.payload < 16 then 64 else 0) % 256 / 16 % 4
      domain := h.domain % 4096 % 256 ^ 2 % 4096
      slot := h.slot % 8192 % 256 ^ 2 % 8192
      gen := h.gen % 256
      orig := h.orig % 256 ^ 4 % 131072
      payload := h.payload % 256 ^ 4 % 131072
      cut := h.cut % 256 ^ 8
      ring := (h.ring % 4096 + 4096 * h.lane) % 256 ^ 4 % 4096
      lane := (h.ring % 4096 + 4096 * h.lane) % 256 ^ 4 / 4096 % 64
      crc := h.crc % 256 ^ 4 } := by
  have bytes : h.bytes ++ b = [0xC9] ++ ([byteOf (1 + 16 * h.alg + if h.payload < 16 then 64 else 0)] ++ (le 2 (h.domain % 4096) ++
      (le 2 (h.slot % 8192) ++ ([byteOf h.gen] ++ ([0] ++ (le 4 h.orig ++ (le 4 h.payload ++ (le 8 h.cut ++
      (le 4 (h.ring % 4096 + 4096 * h.lane) ++ (le 4 h.crc ++ b)))))))))) := by
    simp only [Header.bytes, List.append_assoc, List.cons_append, List.nil_append]
  rw [bytes, Header.parse]
  simp only [slice_skip, slice_here, le_length, List.length_singleton, num_le, num_byte, Nat.reduceLeDiff, Nat.reduceSub]

theorem Header.bytes_length (h : Header) : h.bytes.length = 32 := by
  simp only [Header.bytes, List.length_append, List.length_cons, List.length_nil, le_length]

/-- Settles O52: every field of a header fits the place where it stands. -/
theorem containerHeaderRoundTrip : Obligations.ContainerHeaderRoundTrip := by
  unfold Obligations.ContainerHeaderRoundTrip
  intro h b hfits
  refine ⟨h.bytes_length, ?_⟩
  simp only [Header.fits, decide_eq_true_eq] at hfits
  obtain ⟨halg, hdomain, hslot, hgen, horig, hpayload, hcut, hring, hlane, hcrc⟩ := hfits
  have alg : (1 + 16 * h.alg + if h.payload < 16 then 64 else 0) % 256 / 16 % 4 = h.alg := by
    split <;> omega
  rw [Header.parse_bytes, alg]
  congr <;> omega

end Sys2Proof.Machine
end

section
/-!
Keys and their slots (O17): what a load, a retirement, a revocation and a sweep leave in the tables of slots and ledgers (R149 to R155), and
that work on writes which a revocation ends leaves the table of digest slots.
-/
namespace Sys2Proof.Machine
open Sys2Proof

/-! Completions -/

/-- Work off the host's side leaves a command to complete as it could before. -/
theorem Completes.within {s t : State} {c : HostCmd} {cap : Cap} (h : s.accepts c cap = true) (g : Within (Part.but [.host]) s t) (status : Nat) :
    Completes s (t.complete c status) c status 0 0 := .after h (g.only.host rfl) g.sent ..

theorem State.complete_keys (s : State) (c : HostCmd) (status r0 r1 : Nat) : (s.complete c status r0 r1).keys = s.keys :=
  (State.complete_frame (ps := Part.but [.keys]) c status r0 r1 (.refl _ _) rfl).only.keys rfl

theorem State.completes_keys (l : List HostCmd) (s : State) : (l.foldl (fun s c => s.complete c 0) s).keys = s.keys := by
  induction l generalizing s with
  | nil => rfl
  | cons c r ih => exact (ih _).trans (State.complete_keys ..)

/-! Slots and ledgers -/

theorem State.cipherSlot_congr {s t : State} (h : t.keys = s.keys) (n : Nat) : t.cipherSlot n = s.cipherSlot n := by
  unfold State.cipherSlot
  rw [h]

theorem State.ledger_congr {s t : State} (h : t.keys = s.keys) (n : Nat) : t.ledger n = s.ledger n := by
  unfold State.ledger
  rw [h]

@[simp] theorem State.cipherSlot_complete (s : State) (c : HostCmd) (status r0 r1 n : Nat) :
    (s.complete c status r0 r1).cipherSlot n = s.cipherSlot n := State.cipherSlot_congr (State.complete_keys ..) n

@[simp] theorem State.ledger_complete (s : State) (c : HostCmd) (status r0 r1 n : Nat) :
    (s.complete c status r0 r1).ledger n = s.ledger n := State.ledger_congr (State.complete_keys ..) n

/-- A slot that is sealed holds what was put into it, under new seals. -/
theorem State.cipherSlot_sealCipher (s : State) (n : Nat) (k : CipherSlot) : ∃ x, (s.sealCipher n k).cipherSlot n = { k with seals := x } :=
  ⟨_, Table.get_put_same ..⟩

@[simp] theorem State.ledger_sealCipher (s : State) (n m : Nat) (k : CipherSlot) : (s.sealCipher n k).ledger m = s.ledger m := rfl

@[simp] theorem State.ledger_setLedger (s : State) (n : Nat) (l : Ledger) : (s.setLedger n l).ledger n = l := Table.get_put_same ..

@[simp] theorem State.cipherSlot_setLedger (s : State) (n m : Nat) (l : Ledger) : (s.setLedger n l).cipherSlot m = s.cipherSlot m := rfl

/-! Loads (R150) -/

/-- A key that passed every check is put in its place. -/
def State.loadKey (s : State) (k : KeyLoad) (key : List Byte) : KeyType → State
  | .sak => s.loadSak k key
  | .hmac => (s.setDigest k.slot k.tenant key).noteKeys
  | .aes128 => if k.op = 0 then (s.loadCipher .aes128 k key).restartCounters k.slot else s.restoreCipher .aes128 k key
  | .aes256 => if k.op = 0 then (s.loadCipher .aes256 k key).restartCounters k.slot else s.restoreCipher .aes256 k key
  | .xts128 => if k.op = 0 then (s.loadCipher .xts128 k key).restartCounters k.slot else s.restoreCipher .xts128 k key
  | .xts256 => if k.op = 0 then (s.loadCipher .xts256 k key).restartCounters k.slot else s.restoreCipher .xts256 k key

theorem State.loadKey_cipher {type : KeyType} (h : type.isCipher = true) (s : State) (k : KeyLoad) (key : List Byte) : s.loadKey k key type =
    if k.op = 0 then (s.loadCipher type k key).restartCounters k.slot else s.restoreCipher type k key := by
  cases type <;> first | rfl | cases h

theorem State.loadKey_within (s : State) (k : KeyLoad) (key : List Byte) (type : KeyType) :
    Within (Part.but [.host]) s (s.loadKey k key type) := by
  by_cases h : type.isCipher = true
  · rw [State.loadKey_cipher h]
    exact .ite (State.restartCounters_frame _ (State.loadCipher_frame _ _ _ (.refl _ _) rfl) rfl) (State.restoreCipher_frame _ _ _ (.refl _ _) rfl)
  · cases type with
    | sak => exact State.loadSak_frame _ _ (.refl _ _) rfl
    | hmac => exact State.noteKeys_frame (State.setDigest_frame _ _ _ (.refl _ _) rfl) rfl
    | aes128 | aes256 | xts128 | xts256 => exact absurd rfl h

section
variable {s : State} {c : HostCmd} {k : KeyLoad}

theorem keyLoad_refused (h : s.accepts c .keys = true) (hname : (s.sliceOf c).mayName k.tenant = true) {code : Nat}
    (hcheck : s.checkLoad k = .error code) : Answers (.keyLoad c k none) s fun t => Completes s t c code 0 0 := by
  refine .runs rfl h ?_
  simp only [State.damageAny, hname, hcheck, Bool.not_true, Bool.false_eq_true, if_false]
  exact .within h (.ite (State.bump_frame _ _ _ _ (.refl _ _) rfl) (.refl _ _)) code

theorem exec_keyLoad (h : s.accepts c .keys = true) (hname : (s.sliceOf c).mayName k.tenant = true) {type : KeyType} {key : List Byte}
    (hcheck : s.checkLoad k = .ok (type, key)) : exec (.keyLoad c k none) s = .next ((s.loadKey k key type).complete c 0) := by
  show execKeyLoad c k none s = _
  simp only [execKeyLoad, State.damageAny, State.ringGate_accepts h, hname, hcheck, Bool.not_true, Bool.false_eq_true, if_false]
  by_cases hop : k.op = 0 <;> cases type <;> simp only [State.loadKey, hop, if_true, if_false]

/-- A loaded cipher key is its slot's current generation, under the number that the ledger gives. -/
theorem State.loadCipher_current (s : State) (type : KeyType) (k : KeyLoad) (key : List Byte) :
    ((s.loadCipher type k key).cipherSlot k.slot).cur = some { gen := (s.ledger k.slot).nextGen.getD 0, type := type, key := key } ∧
      ((s.loadCipher type k key).ledger k.slot).cur = some ((s.ledger k.slot).nextGen.getD 0) := by
  unfold State.loadCipher
  dsimp only
  generalize (if (s.ledger k.slot).cur.isSome then (s.cipherSlot k.slot).cur else (s.cipherSlot k.slot).prev) = old
  obtain ⟨x, hx⟩ := s.cipherSlot_sealCipher k.slot
    { tenant := k.tenant, cur := some { gen := (s.ledger k.slot).nextGen.getD 0, type := type, key := key }, prev := old }
  refine ⟨?_, by rw [State.ledger_setLedger]⟩
  rw [State.cipherSlot_setLedger]
  exact congrArg CipherSlot.cur hx

theorem keyLoad_loads (h : s.accepts c .keys = true) (hname : (s.sliceOf c).mayName k.tenant = true) {type : KeyType} {key : List Byte}
    (hcheck : s.checkLoad k = .ok (type, key)) : Answers (.keyLoad c k none) s fun t => Completes s t c 0 0 0 ∧
      (type = .hmac → (Table.find k.slot t.keys.digest).map (fun d => (d.tenant, d.key)) = some (k.tenant, key)) ∧
      (type.isCipher = true → k.op = 0 →
        (t.cipherSlot k.slot).cur = some { gen := (s.ledger k.slot).nextGen.getD 0, type := type, key := key } ∧
        (t.ledger k.slot).cur = some ((s.ledger k.slot).nextGen.getD 0)) := by
  refine .of_eq (exec_keyLoad h hname hcheck) ⟨.within h (s.loadKey_within k key type) 0, ?_, fun hcipher hop => ?_⟩
  · rintro rfl
    rw [State.complete_keys, show (s.loadKey k key .hmac).keys.digest = Table.put k.slot _ s.keys.digest from rfl, Table.find_put_same]
    rfl
  · rw [State.cipherSlot_complete, State.ledger_complete, State.loadKey_cipher hcipher, if_pos hop]
    exact s.loadCipher_current type k key

/-! Retirements (R152) -/

variable {n : Nat}

/-- KEY_RETIRE of a slot that the slice may name looks at its ledger. -/
theorem exec_keyRetire (h : s.accepts c .keys = true) (hn : n < 8192) (hname : (s.slotInUse n && !((s.sliceOf c).mayName (s.slotTenant n))) = false) :
    exec (.keyRetire c n) s = .next (match (s.ledger n).prev with
      | none => s.complete c 0
      | some g => if (s.ledger n).count g ≠ 0 then s.complete c 0x320E
        else ((s.sealCipher n { s.cipherSlot n with prev := none }).setLedger n { s.ledger n with prev := none }).complete c 0) := by
  show execKeyRetire c n s = _
  simp only [execKeyRetire, State.ringGate_accepts h, hname, Bool.false_eq_true, if_false, if_neg hn.not_ge] <;> rfl

theorem keyRetire_retires (h : s.accepts c .keys = true) (hn : n < 8192)
    (hname : (s.slotInUse n && !((s.sliceOf c).mayName (s.slotTenant n))) = false) {g : Nat} (hprev : (s.ledger n).prev = some g)
    (hcount : (s.ledger n).count g = 0) : Answers (.keyRetire c n) s fun t => (t.cipherSlot n).prev = none ∧
      (t.ledger n).prev = none ∧ (t.cipherSlot n).cur = (s.cipherSlot n).cur ∧ Completes s t c 0 0 0 := by
  refine .of_eq (exec_keyRetire h hn hname) ?_
  simp only [hprev, hcount, ne_eq, not_true_eq_false, if_false, State.cipherSlot_complete, State.ledger_complete, State.cipherSlot_setLedger,
    State.ledger_setLedger]
  obtain ⟨x, hx⟩ := s.cipherSlot_sealCipher n { s.cipherSlot n with prev := none }
  rw [hx]
  exact ⟨rfl, trivial, rfl, .within h (State.setLedger_frame _ _ (State.sealCipher_frame _ _ (.refl _ _) rfl) rfl) 0⟩

theorem keyRetire_held (h : s.accepts c .keys = true) (hn : n < 8192)
    (hname : (s.slotInUse n && !((s.sliceOf c).mayName (s.slotTenant n))) = false) {g : Nat} (hprev : (s.ledger n).prev = some g)
    (hcount : (s.ledger n).count g ≠ 0) : Answers (.keyRetire c n) s fun t => Completes s t c 0x320E 0 0 := by
  refine .of_eq (exec_keyRetire h hn hname) ?_
  simp only [hprev, hcount, ne_eq, not_false_eq_true, if_true]
  exact .within h (.refl _ _) _

theorem keyRetire_idle (h : s.accepts c .keys = true) (hn : n < 8192)
    (hname : (s.slotInUse n && !((s.sliceOf c).mayName (s.slotTenant n))) = false) (hprev : (s.ledger n).prev = none) :
    Answers (.keyRetire c n) s fun t => Completes s t c 0 0 0 := by
  refine .of_eq (exec_keyRetire h hn hname) ?_
  simp only [hprev]
  exact .within h (.refl _ _) _

/-! Revocations (R152, R153, R155) -/

/-- The generations of a slot are gone, and its ledger names none. -/
def State.revokeLedger (s : State) (n : Nat) : State :=
  ({ s with keys.gone := s.keys.gone ++ ((s.ledger n).cur.toList ++ (s.ledger n).prev.toList).map fun g => (n, g) }).setLedger n
    (s.ledger n).revoke

theorem exec_keyRevoke_cipher (h : s.accepts c .keys = true) (huse : s.slotInUse n = true)
    (hname : (s.sliceOf c).mayName (s.slotTenant n) = true) : exec (.keyRevoke c .cipher n) s = .next (
      (if Table.has n s.keys.cipher then (s.revokeLedger n).sealCipher n { s.cipherSlot n with cur := none, prev := none, damaged := false }
      else s.revokeLedger n).complete c 0) := by
  show execKeyRevoke c .cipher n s = _
  simp only [execKeyRevoke, State.ringGate_accepts h, huse, hname, Bool.not_true, Bool.false_eq_true, if_false]
  rfl

theorem keyRevoke_cipher (h : s.accepts c .keys = true) (huse : s.slotInUse n = true)
    (hname : (s.sliceOf c).mayName (s.slotTenant n) = true) : Answers (.keyRevoke c .cipher n) s fun t =>
      (t.cipherSlot n).cur = none ∧ (t.cipherSlot n).prev = none ∧ (t.cipherSlot n).damaged = false ∧
      (t.ledger n).cur = none ∧ (t.ledger n).prev = none ∧ Completes s t c 0 0 0 := by
  have ledger : (s.revokeLedger n).ledger n = (s.ledger n).revoke := State.ledger_setLedger ..
  refine .of_eq (exec_keyRevoke_cipher h huse hname) ?_
  rw [State.cipherSlot_complete, State.ledger_complete]
  split
  · obtain ⟨x, hx⟩ := (s.revokeLedger n).cipherSlot_sealCipher n { s.cipherSlot n with cur := none, prev := none, damaged := false }
    rw [hx, State.ledger_sealCipher, ledger]
    have kept : Within (Part.but [.host]) (s.revokeLedger n) ((s.revokeLedger n).sealCipher n
      { s.cipherSlot n with cur := none, prev := none, damaged := false }) := State.sealCipher_frame _ _ (.refl _ _) rfl
    exact ⟨rfl, rfl, rfl, rfl, rfl, .after h (kept.only.host rfl) kept.sent ..⟩
  · next hnone =>
    have empty : (s.revokeLedger n).cipherSlot n = {} := by
      simp only [Table.has, Option.not_isSome_iff_eq_none] at hnone
      show (Table.find n s.keys.cipher).getD {} = {}
      rw [hnone]
      rfl
    rw [empty, ledger]
    exact ⟨rfl, rfl, rfl, rfl, rfl, .after (t := s.revokeLedger n) h rfl (List.suffix_refl _) ..⟩

/-! Work on writes leaves the table of digest slots -/

theorem State.uncountStored_digest (s : State) (loc : Loc) : (s.uncountStored loc).keys.digest = s.keys.digest := by
  unfold State.uncountStored
  split <;> rfl

/-- A change off the keys leaves the digest slots. -/
theorem Within.digest_eq {s t : State} (h : Within (Part.but [.keys]) s t) : t.keys.digest = s.keys.digest := congrArg Keys.digest (h.only.keys rfl)

theorem State.releaseStorage_digest (s : State) (loc : Loc) : (s.releaseStorage loc).keys.digest = s.keys.digest := by
  have gone : (((s.indexKeysOf loc).foldl State.removeIndex s).uncountStored loc).keys.digest = s.keys.digest :=
    (State.uncountStored_digest ..).trans (Within.digest_eq (.foldl _ (.refl _ _) fun _ _ => State.removeIndex_frame _ (.refl _ _) rfl))
  unfold State.releaseStorage
  dsimp only
  split
  · exact (Within.digest_eq (State.sendRing_frame _ (.refl _ _) rfl)).trans gone
  · exact gone

theorem State.unpin_digest (s : State) (key : Nat) : (s.unpin key).keys.digest = s.keys.digest := by
  unfold State.unpin
  split
  · rfl
  · extract_lets e' _ u _ v
    have hu : u.keys = s.keys := by
      unfold u
      split <;> rfl
    have hv : v.keys.digest = s.keys.digest := congrArg Keys.digest hu
    split
    · split
      · exact (State.releaseStorage_digest ..).trans hv
      · exact hv
    · exact hv

theorem State.unpinChunks_digest (s : State) (chunks : List Chunk) : (s.unpinChunks chunks).keys.digest = s.keys.digest := by
  unfold State.unpinChunks
  induction chunks.filterMap Chunk.pin generalizing s with
  | nil => rfl
  | cons k r ih => exact (ih _).trans (State.unpin_digest ..)

theorem State.giveUp_digest (s : State) (n : Nat) (c : Cmd) : (s.giveUp n c).keys.digest = s.keys.digest := by
  unfold State.giveUp
  extract_lets u _ v w
  have hu : u.keys.digest = s.keys.digest := by
    unfold u
    split
    · exact (Within.digest_eq (State.dropPending_frame _ (.refl _ _) rfl)).trans (State.unpinChunks_digest ..)
    · rfl
  have hv : v.keys.digest = u.keys.digest := by
    unfold v
    split
    · exact Within.digest_eq (State.removeSnap_frame _ _ (.refl _ _) rfl)
    · exact Within.digest_eq (.ite (State.askInternal_frame _ (.refl _ _) rfl) (.refl _ _))
    · rfl
    · rfl
  exact (Within.digest_eq (State.stopRun_frame n (State.leaveGroup_frame n c (.refl _ _) rfl) rfl)).trans (hv.trans hu)

theorem State.failWrite_digest (s : State) (n : Nat) (st : NvmeStatus) (code : Nat) : (s.failWrite n st code).keys.digest = s.keys.digest := by
  refine (Within.digest_eq (State.event1_frame _ _ (.refl _ _) rfl)).trans ?_
  unfold State.cancelWith
  split
  · rfl
  · refine (Within.digest_eq (State.modTag_frame _ _ (.refl _ _) rfl)).trans ?_
    split <;> exact State.giveUp_digest ..

theorem State.failWrite_answers (s : State) (n : Nat) (st : NvmeStatus) (code : Nat) : AnswersKept s (s.failWrite n st code) :=
  have cancelled : Within (Part.but [.host]) s (s.cancelWith n st) := State.cancelWith_frame _ _ (.refl _ _) rfl
  (AnswersKept.of_host (cancelled.only.host rfl)).trans (State.event_answers ..)

/-- Writes that wait for the states of a digest slot end, and leave the digest slots and the host's rings. -/
theorem State.endKeyWaits_keeps (s : State) (n code : Nat) :
    (s.endKeyWaits n code).keys.digest = s.keys.digest ∧ AnswersKept s (s.endKeyWaits n code) := by
  unfold State.endKeyWaits
  generalize s.cmd.tags.filter _ = waits
  induction waits generalizing s with
  | nil => exact ⟨rfl, .refl s⟩
  | cons e r ih =>
    obtain ⟨hdigest, hanswers⟩ := ih (s.failWrite e.1 (vendor 0xE1) code)
    exact ⟨hdigest.trans (State.failWrite_digest ..), (State.failWrite_answers ..).trans hanswers⟩

theorem exec_keyRevoke_digest (h : s.accepts c .keys = true) {d : DigestSlot} (hd : Table.find n s.keys.digest = some d)
    (hname : (s.sliceOf c).mayName d.tenant = true) : exec (.keyRevoke c .digest n) s = .next ((s.emptyDigest n).complete c 0) := by
  show execKeyRevoke c .digest n s = _
  simp only [execKeyRevoke, State.ringGate_accepts h, hd, hname, if_true]

theorem keyRevoke_digest (h : s.accepts c .keys = true) {d : DigestSlot} (hd : Table.find n s.keys.digest = some d)
    (hname : (s.sliceOf c).mayName d.tenant = true) : Answers (.keyRevoke c .digest n) s fun t =>
      Table.find n t.keys.digest = none ∧ Completes s t c 0 0 0 := by
  refine .of_eq (exec_keyRevoke_digest h hd hname) ?_
  obtain ⟨hdigest, hanswers⟩ := State.endKeyWaits_keeps
    ((({ s with keys.digest := Table.drop n s.keys.digest } : State).noteKeys).dropStates n) n 0x3001
  constructor
  · rw [State.complete_keys, State.emptyDigest, hdigest]
    exact Table.find_drop_same ..
  · have noted : AnswersKept s (s.emptyDigest n) := .trans
      (t := (({ s with keys.digest := Table.drop n s.keys.digest } : State).noteKeys).dropStates n) (.of_host rfl) hanswers
    have sent : s.out <:+ (s.emptyDigest n).out := (State.emptyDigest_frame (ps := Part.every) n (.refl _ _) rfl).sent
    exact (State.complete_completes (noted.answers (State.answers_of_accepts h)) ..).earlier sent

/-! Sweeps (R152) -/

/-- A domain's sweeps whose work is done complete. -/
theorem State.settleSweep_done {s : State} {d : Nat} (hold : s.oldGen d = none) : s.settleSweep d =
    (Table.get d [] s.keys.sweeps).foldl (fun s c => s.complete c 0) { s with keys.sweeps := Table.drop d s.keys.sweeps } := by
  simp only [State.settleSweep, hold, if_true]

theorem State.settleSweep_waits {s : State} {d g : Nat} (hold : s.oldGen d = some g)
    (hcount : (s.ledger (s.rd Reg.DDP_DOMAIN_KEYS.CIPHER_SLOT d)).count g ≠ 0) : s.settleSweep d = s := by
  simp only [State.settleSweep, hold, hcount, if_false]

theorem State.settleSweep_ends {s : State} {d : Nat} (hold : s.oldGen d = none) : Table.find d (s.settleSweep d).keys.sweeps = none := by
  rw [State.settleSweep_done hold, State.completes_keys]
  exact Table.find_drop_same ..

variable {d : Nat}

/-- A sweep joins those of its domain. -/
def State.addSweep (s : State) (d : Nat) (c : HostCmd) : State := { s with keys.sweeps := Table.upd d [] (fun l => l ++ [c]) s.keys.sweeps }

theorem exec_keyResweep (h : s.accepts c .keys = true) (hd : d < 4096) (hname : (s.sliceOf c).mayName d = true)
    (hcur : (s.cipherSlot (s.rd Reg.DDP_DOMAIN_KEYS.CIPHER_SLOT d)).cur.isSome = true) :
    exec (.keyResweep c d) s = .next ((s.addSweep d c).settleSweep d) := by
  show execKeyResweep c d s = _
  rw [Option.isSome_iff_ne_none] at hcur
  simp only [execKeyResweep, State.ringGate_accepts h, hname, if_neg hd.not_ge, Option.isNone_iff_eq_none, hcur, Bool.not_true,
    Bool.false_eq_true, if_false]
  rfl

theorem keyResweep_waits (h : s.accepts c .keys = true) (hd : d < 4096) (hname : (s.sliceOf c).mayName d = true)
    (hcur : (s.cipherSlot (s.rd Reg.DDP_DOMAIN_KEYS.CIPHER_SLOT d)).cur.isSome = true) {g : Nat} (hold : s.oldGen d = some g)
    (hcount : (s.ledger (s.rd Reg.DDP_DOMAIN_KEYS.CIPHER_SLOT d)).count g ≠ 0) : Answers (.keyResweep c d) s fun t =>
      Table.find d t.keys.sweeps = some (Table.get d [] s.keys.sweeps ++ [c]) := by
  refine .of_eq (exec_keyResweep h hd hname hcur) ?_
  rw [State.settleSweep_waits (s := s.addSweep d c) hold hcount]
  exact Table.find_put_same ..

theorem keyResweep_ends (h : s.accepts c .keys = true) (hd : d < 4096) (hname : (s.sliceOf c).mayName d = true)
    (hcur : (s.cipherSlot (s.rd Reg.DDP_DOMAIN_KEYS.CIPHER_SLOT d)).cur.isSome = true) (hold : s.oldGen d = none)
    (hnone : Table.find d s.keys.sweeps = none) : Answers (.keyResweep c d) s fun t => Completes s t c 0 0 0 ∧
      Table.find d t.keys.sweeps = none := by
  refine .of_eq (exec_keyResweep h hd hname hcur) ⟨?_, State.settleSweep_ends (s := s.addSweep d c) hold⟩
  have alone : Table.get d [] (s.addSweep d c).keys.sweeps = [c] := by
    rw [State.addSweep, Table.upd, Table.get_put_same, Table.get, hnone]
    rfl
  rw [State.settleSweep_done (s := s.addSweep d c) hold, alone, List.foldl_cons, List.foldl_nil]
  exact .after (t := { s.addSweep d c with keys.sweeps := Table.drop d (s.addSweep d c).keys.sweeps }) h rfl (List.suffix_refl _) ..

theorem rekeySweepStep_ends {fault : Bool} (hhas : Table.has d s.keys.sweeps = true)
    (hread : (s.keys.rekeyed.find? fun e => s.domainOf e.1 == d) = none) (hold : s.oldGen d = none) :
    Answers (.rekeySweepStep { domain := d, fault := fault }) s fun t => Table.find d t.keys.sweeps = none := by
  have none_left (slot : Nat) : (s.keys.stored.find? fun m =>
      m.domain == d && m.slot == slot && some m.gen == s.oldGen d && m.loc.quire.isSome && !(s.onTheMove m.loc)) = none := by
    rw [List.find?_eq_none]
    intro m _
    simp [hold]
  refine .of_eq (t := s.settleSweep d) ?_ (State.settleSweep_ends hold)
  show execRekeySweepStep _ s = _
  simp only [execRekeySweepStep, hhas, hread, none_left, Bool.not_true, Bool.false_eq_true, if_false]

/-! KEKs (R151, R159) -/

theorem kekLoad_locked {v : Nat} (hlock : s.locked 21 = true) : exec (.kekLoad v) s = .next s := by
  show execKekLoad v s = _
  simp [execKekLoad, hlock]

/-- The data registers of a KEK cleared. -/
def State.clearKekData (s : State) : State :=
  (((s.wr Reg.KEY_KEK_DATA.DATA 0 0).wr Reg.KEY_KEK_DATA.DATA 0 1).wr Reg.KEY_KEK_DATA.DATA 0 2).wr Reg.KEY_KEK_DATA.DATA 0 3

theorem State.rd_clearKekData (s : State) {i : Nat} (hi : i < 4) : s.clearKekData.rd Reg.KEY_KEK_DATA.DATA i = 0 := by
  have other (u : State) {a b : Nat} (ha : a < 4) (hb : b < 4) (h : a ≠ b) :
      (u.wr Reg.KEY_KEK_DATA.DATA 0 a).rd Reg.KEY_KEK_DATA.DATA b = u.rd Reg.KEY_KEK_DATA.DATA b := State.rd_wr_elem _ _ _ _ _ _ _ (by omega)
  unfold State.clearKekData
  obtain rfl | rfl | rfl | rfl : i = 0 ∨ i = 1 ∨ i = 2 ∨ i = 3 := by omega
  · rw [other _ (by decide) (by decide) (by decide), other _ (by decide) (by decide) (by decide), other _ (by decide) (by decide) (by decide),
      State.rd_wr_same, Nat.zero_mod]
  · rw [other _ (by decide) (by decide) (by decide), other _ (by decide) (by decide) (by decide), State.rd_wr_same, Nat.zero_mod]
  · rw [other _ (by decide) (by decide) (by decide), State.rd_wr_same, Nat.zero_mod]
  · rw [State.rd_wr_same, Nat.zero_mod]

theorem State.rd_clearKekData_loaded (s : State) : s.clearKekData.rd Reg.KEY_KEK_STATUS.LOADED = s.rd Reg.KEY_KEK_STATUS.LOADED := by
  unfold State.clearKekData
  iterate 4 rw [State.rd_wr_field _ _ _ _ _ _ _ _ (by decide)]

/-- The 32 bytes of KEY_KEK_DATA. -/
def State.kekData (s : State) : List Byte := le 8 (s.rd Reg.KEY_KEK_DATA.DATA 0) ++ le 8 (s.rd Reg.KEY_KEK_DATA.DATA 1) ++
  le 8 (s.rd Reg.KEY_KEK_DATA.DATA 2) ++ le 8 (s.rd Reg.KEY_KEK_DATA.DATA 3)

theorem exec_kekLoad {v : Nat} (hw : s.writable 21 = true) (hgo : v.testBit 4 = true) (hindex : v % 16 ≠ 0) (hlock : s.locked 21 = false) :
    exec (.kekLoad v) s = .next (({ s.clearKekData with keys.keks := Table.put (v % 16) s.kekData s.keys.keks }).wr Reg.KEY_KEK_STATUS.LOADED
      (s.clearKekData.rd Reg.KEY_KEK_STATUS.LOADED ||| 2 ^ (v % 16 - 1))) := by
  have data : ((List.range 4).flatMap fun i => le 8 (s.rd Reg.KEY_KEK_DATA.DATA i)) = s.kekData := by
    simp only [List.range_succ_eq_map, List.range_zero, List.map_cons, List.map_nil, List.flatMap_cons, List.flatMap_nil, State.kekData,
      List.append_assoc, List.append_nil]
  have hidx : (v % 16 != 0) = true := by simpa using hindex
  have cleared (u : State) : (List.range 4).foldl (fun s i => s.wr Reg.KEY_KEK_DATA.DATA 0 i) u = u.clearKekData := rfl
  show execKekLoad v s = _
  simp only [execKekLoad, hw, hgo, hlock, data, hidx, cleared, Bool.not_false, Bool.and_self, if_true]
  rfl

theorem kekLoad_loads {v : Nat} (hw : s.writable 21 = true) (hgo : v.testBit 4 = true) (hindex : v % 16 ≠ 0) (hlock : s.locked 21 = false) :
    Answers (.kekLoad v) s fun t => Table.find (v % 16) t.keys.keks = some s.kekData ∧
      (t.rd Reg.KEY_KEK_STATUS.LOADED) = Reg.KEY_KEK_STATUS.LOADED.fit (s.rd Reg.KEY_KEK_STATUS.LOADED ||| 2 ^ (v % 16 - 1)) ∧
      ∀ i, i < 4 → t.rd Reg.KEY_KEK_DATA.DATA i = 0 := by
  refine .of_eq (exec_kekLoad hw hgo hindex hlock) ⟨Table.find_put_same .., ?_, fun i hi => ?_⟩
  · rw [State.rd_wr_same, State.rd_clearKekData_loaded]
    rfl
  · rw [State.rd_wr_field _ _ _ _ _ _ _ _ (by decide)]
    exact (State.rd_congr rfl ..).trans (s.rd_clearKekData hi)

end

end Sys2Proof.Machine
end

section
/-!
Jobs of the control host (O17): what their start and end leave of the list of jobs (R104, R147), and that the lanes' work on writes leaves the
jobs (R112).
-/
namespace Sys2Proof.Machine
open Sys2Proof

/-! The list of jobs -/

/-- A job but for whether it is a stream of its lane yet. -/
def Job.entry (j : Job) : Job := { j with begun := false }

/-- The jobs are as they were, but that some have become streams. -/
def JobsKept (s t : State) : Prop := t.bnd.jobs.map Job.entry = s.bnd.jobs.map Job.entry

theorem JobsKept.refl (s : State) : JobsKept s s := rfl

theorem JobsKept.trans {s t u : State} (h : JobsKept s t) (g : JobsKept t u) : JobsKept s u := Eq.trans g h

theorem JobsKept.of_bnd {s t : State} (h : t.bnd.jobs = s.bnd.jobs) : JobsKept s t := congrArg (List.map Job.entry) h

theorem JobsKept.frame {s t u : State} (h : JobsKept s t) (g : Within (Part.but [.bnd]) t u) : JobsKept s u :=
  h.trans (.of_bnd (congrArg Bindery.jobs (g.only.bnd rfl)))

theorem JobsKept.ite {s t u : State} {p : Prop} [Decidable p] (h : JobsKept s t) (g : JobsKept s u) : JobsKept s (if p then t else u) := by
  split <;> assumption

theorem JobsKept.foldl {α : Type} {s t : State} {f : State → α → State} (l : List α) (h : JobsKept s t)
    (g : ∀ u x, JobsKept s u → JobsKept s (f u x)) : JobsKept s (l.foldl f t) := by
  induction l generalizing t with
  | nil => exact h
  | cons x r ih => exact ih (g t x h)

theorem JobsKept.cmds {s t : State} (h : JobsKept s t) : t.bnd.jobs.map Job.cmd = s.bnd.jobs.map Job.cmd := by
  have cmd (l : List Job) : l.map Job.cmd = (l.map Job.entry).map Job.cmd := by
    rw [List.map_map]
    rfl
  rw [cmd, h, ← cmd]

/-- What a job at the end of the list is for stays so. -/
theorem JobsKept.last {s t : State} (h : JobsKept s t) {α : Type} (f : Job → α) (hf : ∀ j, f j.entry = f j) :
    t.bnd.jobs.getLast?.map f = s.bnd.jobs.getLast?.map f := by
  have last (l : List Job) : l.getLast?.map f = (l.map Job.entry).getLast?.map f := by
    rw [List.getLast?_map, Option.map_map]
    exact congrArg (Option.map · _) (funext fun j => (hf j).symm)
  rw [last, h, ← last]

section
variable {s t : State} (h : JobsKept s t)
include h

theorem JobsKept.startJobs : JobsKept s t.startJobs := by
  refine .foldl _ h fun u j hu => .ite hu (hu.trans ?_)
  unfold JobsKept
  dsimp only
  rw [List.map_map]
  refine List.map_congr_left fun x _ => ?_
  dsimp only [Function.comp]
  split <;> rfl

/-! The lanes' work on writes (R107, R112) -/

theorem JobsKept.askChunk n domain k : JobsKept s (t.askChunk n domain k) := by
  have failed code : JobsKept s (t.failWrite n (vendor 0xE1) code) := h.frame (State.failWrite_frame _ _ _ (.refl _ _) rfl)
  unfold State.askChunk
  split
  · exact failed _
  · refine .ite (failed _) ?_
    split
    · exact h
    · have used : JobsKept s (t.useStates k.lane (t.rd Reg.DDP_DOMAIN_KEYS.DIGEST_SLOT domain)) := h.trans (.of_bnd rfl)
      exact .ite (used.frame (State.forwardChunk_frame _ _ _ _ (.refl _ _) rfl))
        (used.frame (State.send_frame _ (State.modChunk_frame _ _ _ (.refl _ _) rfl) rfl))

theorem JobsKept.cutChunk n domain total g off bytes : JobsKept s (t.cutChunk n domain total g off bytes) := by
  unfold State.cutChunk
  extract_lets time k u _ v w x
  have hu : JobsKept s u := h.frame (State.modWrite_frame _ _ (.refl _ _) rfl)
  have cut : JobsKept s { u with bnd.lastCut := Table.put g.lane time u.bnd.lastCut } := hu.trans (.of_bnd rfl)
  have hv : JobsKept s v := cut.frame (State.bump_frame _ _ _ _ (.refl _ _) rfl)
  have hx : JobsKept s x := hv.frame (.ite (State.bump_frame _ _ _ _ (.ite (State.bump_frame _ _ _ _ (.refl _ _) rfl) (.refl _ _)) rfl)
    (.ite (State.bump_frame _ _ _ _ (.refl _ _) rfl) (.refl _ _)))
  have zeroed : JobsKept s ((x.modChunk n off fun k => { k with state := .zero }).bump Reg.BND_ZERO.COUNT) :=
    hx.frame (State.bump_frame _ _ _ _ (State.modChunk_frame _ _ _ (.refl _ _) rfl) rfl)
  have drawn : JobsKept s x.dummyRound.2 := hx.frame (State.dummyRound_frame (.refl _ _) rfl)
  exact .ite (.ite (zeroed.frame (State.forwardUnit_frame _ _ _ (.refl _ _) rfl)) zeroed)
    (.ite (.ite (hx.frame (State.forwardChunk_frame _ _ _ _ (.refl _ _) rfl)) (.ite (drawn.frame (State.cipherFault_frame _ (.refl _ _) rfl))
      (drawn.frame (State.storeChunk_frame _ _ _ _ (.refl _ _) rfl)))) (hx.askChunk ..))

theorem JobsKept.serveStream ticket g : JobsKept s (t.serveStream ticket g) := by
  unfold State.serveStream
  extract_lets me _ u
  have hu : JobsKept s u := h.trans (.of_bnd rfl)
  split
  · exact .ite hu (hu.frame (State.bump_frame _ _ _ _ (.refl _ _) rfl))
  · exact hu

theorem JobsKept.takeIn n off : JobsKept s (t.takeIn n off) := by
  unfold State.takeIn
  split
  · exact h
  split
  · exact h
  split
  · exact h
  refine .ite h ?_
  dsimp only
  exact .foldl _ (JobsKept.serveStream (h.frame (State.modWrite_frame _ _ (.refl _ _) rfl)) ..) fun _ _ h => h.cutChunk ..

theorem JobsKept.pumpTag n : JobsKept s (t.pumpTag n) := by
  unfold State.pumpTag
  split
  · exact h
  · refine .frame (.foldl _ h fun _ _ h => ?_) (State.tryHandOff_frame _ (.refl _ _) rfl)
    exact JobsKept.takeIn (h.frame (State.startSeg_frame _ _ (.refl _ _) rfl)) ..

theorem JobsKept.pumpLanes : JobsKept s t.pumpLanes := JobsKept.startJobs (.foldl _ h fun _ _ h => h.pumpTag _)

end

/-! Starts and refusals (R143, R144, R145) -/

variable {s : State} {c : HostCmd}

/-- A job that starts joins the list on the lane chosen. -/
theorem State.startJob_jobs (s : State) (j : Job) : (s.startJob j).bnd.jobs.map Job.cmd = s.bnd.jobs.map Job.cmd ++ [j.cmd] ∧
    ∀ {α : Type} (f : Job → α), (∀ x, f x.entry = f x) → (s.startJob j).bnd.jobs.getLast?.map f = some (f { j with lane := s.pickLane [] }) := by
  have kept : JobsKept { s with bnd.jobs := s.bnd.jobs ++ [{ j with lane := s.pickLane [] }] } (s.startJob j) := JobsKept.startJobs (.refl _)
  refine ⟨kept.cmds.trans List.map_append, fun f hf => (kept.last f hf).trans ?_⟩
  rw [List.getLast?_concat, Option.map_some]

/-- A refused job ends with its result block and its completion. -/
theorem State.refuseJob_refuses {u : State} (h : s.accepts c .jobs = true) (hhost : u.host = s.host) (hout : s.out <:+ u.out) (code : Nat) :
    Sends s (u.refuseJob c code) (.jobResult c { status := code }) ∧ Completes s (u.refuseJob c code) c code 0 0 := by
  obtain ⟨-, -, hd, -⟩ := State.answers_iff (State.answers_of_accepts h)
  unfold State.refuseJob
  rw [State.sendHost_d0 (hhost ▸ hd)]
  constructor
  · exact ((Sends.refl_send u _).later (State.complete_frame (ps := Part.every) _ _ _ _ (.refl _ _) rfl).sent).earlier hout
  · exact .after (t := u.send (.jobResult c { status := code })) h hhost (hout.trans (List.suffix_cons ..)) ..

/-! Compression jobs (R143, R145) -/

theorem compJob_starts {block : List Byte} {domain dst : Nat} {p : CompParams} (h : s.accepts c .jobs = true)
    (hp : CompParams.parse (fit 32 block) domain dst = some p) (hgood : p.good = true) (hformat : ¬(p.op = .compress ∧ p.format = .lz4)) :
    Answers (.compJob c { block := block, domain := domain, dst := dst }) s fun t =>
      t.bnd.jobs.map Job.cmd = s.bnd.jobs.map Job.cmd ++ [c] ∧
      t.bnd.jobs.getLast?.map (fun j => (j.cmd, j.lane, j.comp)) = some (c, s.pickLane [], some p) := by
  refine .runs rfl h ?_
  simp only [hp, hgood, hformat, Bool.not_true, Bool.false_eq_true, if_false]
  obtain ⟨hcmds, hlast⟩ := s.startJob_jobs { cmd := c, lane := 0, comp := some p }
  exact ⟨hcmds, hlast _ fun _ => rfl⟩

theorem compJob_lz4 {block : List Byte} {domain dst : Nat} {p : CompParams} (h : s.accepts c .jobs = true)
    (hp : CompParams.parse (fit 32 block) domain dst = some p) (hgood : p.good = true) (hop : p.op = .compress) (hformat : p.format = .lz4) :
    Answers (.compJob c { block := block, domain := domain, dst := dst }) s fun t =>
      Sends s t (.jobResult c { status := 0x310A }) ∧ Completes s t c 0x310A 0 0 := by
  refine .runs rfl h ?_
  simp only [hp, hgood, hop, hformat, and_self, Bool.not_true, Bool.false_eq_true, if_false, if_true]
  exact State.refuseJob_refuses (u := s.countDecode 0x310A) h rfl (List.suffix_refl _) _

theorem compJob_bad {block : List Byte} {domain dst : Nat} (h : s.accepts c .jobs = true)
    (hbad : (CompParams.parse (fit 32 block) domain dst).all CompParams.good = false ∨ CompParams.parse (fit 32 block) domain dst = none) :
    Answers (.compJob c { block := block, domain := domain, dst := dst }) s fun t =>
      Sends s t (.jobResult c { status := 0x1001 }) ∧ Completes s t c 0x1001 0 0 := by
  refine .runs rfl h ?_
  have refused := State.refuseJob_refuses h rfl (List.suffix_refl _) 0x1001
  dsimp only
  cases hp : CompParams.parse (fit 32 block) domain dst with
  | none => exact refused
  | some p =>
    have hgood : p.good = false := by simpa [hp] using hbad
    simp only [hgood, Bool.not_false, if_true]
    exact refused

/-! Cipher jobs (R144) -/

theorem cipherJob_unparsed {block : List Byte} {dst : Nat} (h : s.accepts c .jobs = true) (hp : CipherParams.parse (fit 64 block) dst = none) :
    Answers (.cipherJob c { block := block, dst := dst }) s fun t => Completes s t c 0x3202 0 0 := by
  refine .runs rfl h ?_
  simp only [hp]
  exact (State.refuseJob_refuses h rfl (List.suffix_refl _) _).2

theorem cipherJob_fields {block : List Byte} {dst : Nat} {p : CipherParams} (h : s.accepts c .jobs = true)
    (hp : CipherParams.parse (fit 64 block) dst = some p) (hfields : p.fields ≠ 0) :
    Answers (.cipherJob c { block := block, dst := dst }) s fun t => Completes s t c p.fields 0 0 := by
  refine .runs rfl h ?_
  simp only [hp, hfields, ne_eq, not_false_eq_true, if_true]
  exact (State.refuseJob_refuses h rfl (List.suffix_refl _) _).2

theorem cipherJob_starts {block : List Byte} {dst : Nat} {p : CipherParams} {g : KeyGen} (h : s.accepts c .jobs = true)
    (hp : CipherParams.parse (fit 64 block) dst = some p) (hfields : p.fields = 0) (hlength : p.length = 0)
    (hgen : s.keyGen p.slot p.gen = some g) (hfits : g.type.fits p.mode = true)
    (hname : (s.sliceOf c).mayName (s.cipherSlot p.slot).tenant = true) (henv : s.envelopeSlot p.slot = false) :
    Answers (.cipherJob c { block := block, dst := dst }) s fun t => t.bnd.jobs.map Job.cmd = s.bnd.jobs.map Job.cmd ++ [c] ∧
      t.bnd.jobs.getLast?.map (fun j => (j.cmd, j.lane, j.cipher)) = some (c, s.pickLane [], some p) := by
  refine .runs rfl h ?_
  simp only [hp, hfields, hlength, hgen, hfits, hname, henv, ne_eq, not_true_eq_false, Bool.not_true, Bool.or_self, Bool.false_eq_true, if_false]
  obtain ⟨hcmds, hlast⟩ := s.startJob_jobs { cmd := c, lane := 0, cipher := some p }
  exact ⟨hcmds, hlast _ fun _ => rfl⟩

/-! The end of a CRC job (R145, R147) -/

/-- A job that ends unsquashed posts its result, and is over. -/
theorem State.endJob_posts {j : Job} (hsquash : j.squashed = false) (hd : s.host.d3hot = false) (r : JobResult) :
    Sends s (s.endJob j r) (.jobResult j.cmd r) ∧
      JobsKept { s with bnd.jobs := s.bnd.jobs.filter fun x => x.cmd != j.cmd } (s.endJob j r) := by
  have started : JobsKept { s with bnd.jobs := s.bnd.jobs.filter fun x => x.cmd != j.cmd }
      (State.startJobs { s with bnd.jobs := s.bnd.jobs.filter fun x => x.cmd != j.cmd }) := JobsKept.startJobs (.refl _)
  have within := State.startJobs_frame (ps := [.bnd]) (.refl _ { s with bnd.jobs := s.bnd.jobs.filter fun x => x.cmd != j.cmd }) rfl
  simp only [State.endJob, hsquash, Bool.false_eq_true, if_false]
  generalize State.startJobs { s with bnd.jobs := s.bnd.jobs.filter fun x => x.cmd != j.cmd } = u at started within
  have hu : u.host.d3hot = false := (congrArg HostIf.d3hot (within.only.host rfl)).trans hd
  rw [State.sendHost_d0 hu]
  constructor
  · exact ((Sends.refl_send u _).later (State.complete_frame (ps := Part.every) _ _ _ _ (.refl _ _) rfl).sent).earlier within.sent
  · exact started.frame (State.complete_frame _ _ _ _ (State.send_frame _ (.refl _ _) rfl) rfl)

/-- The last slice of a CRC job ends it. -/
theorem exec_jobSliceEnd_crc {j : Job} {p : CompParams} {b : List Byte} {fault upset : Bool}
    (hj : (s.bnd.jobs.find? fun j => j.cmd.slice == c.slice && j.cmd.ring == c.ring && j.cmd.cid == c.cid) = some j)
    (hcomp : j.comp = some p) (hop : p.op = .crc) (hcipher : j.cipher = none) (hstop : j.stop = false) (hnext : s.servesNext j = true)
    (hlen : b.length = j.sliceLen) (hwhole : j.input.length + b.length = p.inLen) : exec (.jobSliceEnd c b fault upset) s =
      .next ((s.endJob { j with input := j.input ++ b } { status := 0, crc := crc32cFrom p.seed (j.input ++ b) }).pumpLanes) := by
  have plain : ({ j with input := j.input ++ b } : Job).ciphers = false := by
    simp [Job.ciphers, hcomp, hcipher, hop]
  have total : ({ j with input := j.input ++ b } : Job).total ≤ (j.input ++ b).length := by
    simp [Job.total, hcomp, hwhole]
  show execJobSliceEnd c b fault upset s = _
  unfold execJobSliceEnd
  rw [hj]
  dsimp only
  rw [if_neg (by simp [hstop]), if_neg (by simp [hnext, hlen]), plain, Bool.and_false, if_neg Bool.false_ne_true, hcomp]
  rw [hcomp] at total
  dsimp only
  rw [if_pos total]
  simp only [State.compEnd, hop]

theorem jobSliceEnd_crc {j : Job} {p : CompParams} {b : List Byte} {fault upset : Bool}
    (hj : (s.bnd.jobs.find? fun j => j.cmd.slice == c.slice && j.cmd.ring == c.ring && j.cmd.cid == c.cid) = some j)
    (hcomp : j.comp = some p) (hop : p.op = .crc) (hcipher : j.cipher = none) (hstop : j.stop = false) (hsquash : j.squashed = false)
    (hnext : s.servesNext j = true) (hlen : b.length = j.sliceLen) (hwhole : j.input.length + b.length = p.inLen)
    (hd : s.host.d3hot = false) : Answers (.jobSliceEnd c b fault upset) s fun t =>
      Sends s t (.jobResult j.cmd { status := 0, crc := crc32cFrom p.seed (j.input ++ b) }) ∧
      t.bnd.jobs.map Job.cmd = (s.bnd.jobs.filter fun x => x.cmd != j.cmd).map Job.cmd := by
  refine .of_eq (exec_jobSliceEnd_crc hj hcomp hop hcipher hstop hnext hlen hwhole) ?_
  obtain ⟨hsends, hjobs⟩ := State.endJob_posts (j := { j with input := j.input ++ b }) hsquash hd
    { status := 0, crc := crc32cFrom p.seed (j.input ++ b) }
  exact ⟨hsends.later (State.pumpLanes_frame (ps := Part.every) (.refl _ _) rfl).sent, hjobs.pumpLanes.cmds⟩

/-- Settles O17, command by command. -/
theorem keySlots : Obligations.KeySlots := by
  unfold Obligations.KeySlots
  refine ⟨fun s c k h hname => ?_, fun s c n h hn hname => ?_, fun s c n h => ?_, fun s c d h hd hname hcur => ?_,
    fun s d fault hhas hread hold => rekeySweepStep_ends hhas hread hold, fun s v hw hgo hindex => ?_, fun s c block domain dst h => ?_,
    fun s c block dst h => ?_, fun s c j p b fault upset hj hcomp hop hcipher hstop hsquash hnext hlen hwhole hd =>
      jobSliceEnd_crc hj hcomp hop hcipher hstop hsquash hnext hlen hwhole hd⟩
  case refine_1 =>
    cases hcheck : s.checkLoad k with
    | error code => exact keyLoad_refused h hname hcheck
    | ok loaded => exact keyLoad_loads h hname hcheck
  case refine_2 =>
    exact ⟨fun g hprev hcount => keyRetire_retires h hn hname hprev hcount, fun g hprev hcount => keyRetire_held h hn hname hprev hcount,
      keyRetire_idle h hn hname⟩
  case refine_3 => exact ⟨keyRevoke_cipher h, fun d hd hname => keyRevoke_digest h hd hname⟩
  case refine_4 => exact ⟨fun g hold hcount => keyResweep_waits h hd hname hcur hold hcount, keyResweep_ends h hd hname hcur⟩
  case refine_5 => exact ⟨kekLoad_loads hw hgo hindex, kekLoad_locked⟩
  case refine_6 => exact ⟨fun p hp hgood => ⟨compJob_starts h hp hgood, compJob_lz4 h hp hgood⟩, compJob_bad h⟩
  case refine_7 =>
    exact ⟨cipherJob_unparsed h, fun p hp => cipherJob_fields h hp, fun p g hp hfields hlength hgen hfits hname henv =>
      cipherJob_starts h hp hfields hlength hgen hfits hname henv⟩

end Sys2Proof.Machine
end

section
/-!
The table of runs (O29): what the shared operations on runs leave there. A run that ends holds its status, and a piece that runs keeps its run
(R318, R319, R320).
-/
namespace Sys2Proof.Machine
open Sys2Proof

/-! Accounts (R326) -/

theorem State.setAcct_prg (s : State) (d : Nat) (a : Acct) : (s.setAcct d a).prg = { s.prg with acct := Table.put d a s.prg.acct } := by
  unfold State.setAcct
  dsimp only
  split
  · rfl
  · exact (State.ddrWriteList_frame (ps := Part.but [.prg]) _ _ (.refl _ _) rfl).only.prg rfl

@[simp] theorem State.setAcct_runs (s : State) (d : Nat) (a : Acct) : (s.setAcct d a).prg.runs = s.prg.runs := by
  rw [State.setAcct_prg]

@[simp] theorem State.addAcct_runs (s : State) (d : Nat) (a : Acct) : (s.addAcct d a).prg.runs = s.prg.runs := State.setAcct_runs ..

@[simp] theorem State.noteRuns_prg (s : State) : s.noteRuns.prg = s.prg := rfl

/-- A started run whose account is updated has nothing left to book. -/
theorem State.postAcct_started {r : Run} (h : r.startedAt.isSome = true) (s : State) (k : Nat) : ∃ from_,
    (s.postAcct k r).prg.runs = Table.put k { r with acct := {}, acctFrom := from_ } s.prg.runs := by
  rw [Option.isSome_iff_ne_none] at h
  refine ⟨r.acctFrom + (s.clock - r.acctFrom) / 8000 * 8000, ?_⟩
  simp only [State.postAcct, Option.isNone_iff_eq_none, h, if_false, State.addAcct_runs]

theorem State.postAcct_unstarted {r : Run} (h : r.startedAt = none) (s : State) (k : Nat) : s.postAcct k r = s := by
  simp only [State.postAcct, h, Option.isNone_none, if_true]

/-! Runs that end (R318, R319) -/

/-- A scan that ends holds its status, and its results stay. -/
theorem State.endRun_scan {s : State} {k n : Nat} {r : Run} (hr : Table.find k s.prg.runs = some r) (hkind : r.kind = .scan n)
    (hdone : r.doneAt = none) (st : NvmeStatus) : ∃ y, Table.find k (s.endRun k st).prg.runs = some y ∧ y.kind = .scan n ∧ y.status = some st ∧
      y.doneAt.isSome = true := by
  have ended : ∃ y u, (s.endRun k st).prg.runs = Table.put k y u ∧ y.kind = .scan n ∧ y.status = some st ∧ y.doneAt.isSome = true := by
    unfold State.endRun
    simp only [hr, hdone, hkind, Option.isSome_none, Bool.false_eq_true, if_false]
    exact ⟨_, _, rfl, rfl, rfl, rfl⟩
  obtain ⟨y, u, hruns, hy⟩ := ended
  exact ⟨y, by rw [hruns, Table.find_put_same], hy⟩

theorem State.endRun_done {s : State} {k : Nat} {r : Run} (hr : Table.find k s.prg.runs = some r) (hdone : r.doneAt.isSome = true)
    (st : NvmeStatus) : s.endRun k st = s := by
  simp only [State.endRun, hr, hdone, if_true]

theorem State.invokeEnd_prg (s : State) (m : Nat) (x : VmEnd) : (s.invokeEnd m x).2.prg = s.prg :=
  (State.invokeEnd_frame (ps := Part.but [.prg]) m x (.refl _ _) rfl).only.prg rfl

/-- A program that does not go on ends its scan. -/
theorem State.stopBy_scan {s : State} {k n : Nat} {r : Run} (hr : Table.find k s.prg.runs = some r) (hkind : r.kind = .scan n)
    (hdone : r.doneAt = none) (m : Nat) (x : VmEnd) : ∃ y, Table.find k (s.stopBy k m x).prg.runs = some y ∧ y.kind = .scan n ∧
      y.status = some (s.invokeEnd m x).1 ∧ y.doneAt.isSome = true := by
  have hr' : Table.find k (s.invokeEnd m x).2.prg.runs = some r := by
    rw [State.invokeEnd_prg, hr]
  unfold State.stopBy
  simp only [hr', hkind]
  exact State.endRun_scan hr' hkind hdone _

/-- A tap that a program stops is gone. -/
theorem State.stopBy_tap {s : State} {k : Nat} {r : Run} (hr : Table.find k s.prg.runs = some r) (hkind : r.kind.isTap = true) (m : Nat)
    (x : VmEnd) : Table.find k (s.stopBy k m x).prg.runs = none := by
  have hr' : Table.find k (s.invokeEnd m x).2.prg.runs = some r := by
    rw [State.invokeEnd_prg, hr]
  have gone : Table.find k ((s.invokeEnd m x).2.detachTap k r).prg.runs = none := Table.find_drop_same ..
  have told : Table.find k (((s.invokeEnd m x).2.detachTap k r).event1 0x7014 k).prg.runs = none := by
    rw [(State.event1_frame (ps := Part.but [.prg]) 0x7014 k (.refl _ _) rfl).only.prg rfl, gone]
  unfold State.stopBy
  simp only [hr']
  cases hk : r.kind with
  | tap => simp only; split <;> assumption
  | scan | host | index => rw [hk] at hkind; cases hkind

/-! Pieces that run (R315, R320) -/

/-- What a program's run over a piece comes to: the run with its records, then its end where the program does not go on. -/
theorem State.runPiece_comes (s : State) (k : Nat) (r : Run) (m pc bytes : Nat) (ds : List Delivery) : ∃ u r' recs x,
    s.runPiece k r m pc bytes ds = (match x with
      | some e => (State.keepRecords u k r' recs).stopBy k m e
      | none => State.keepRecords u k r' recs) ∧ r'.kind = r.kind ∧ r'.doneAt = r.doneAt ∧ r'.spans = r.spans := by
  unfold State.runPiece
  extract_lets t v
  generalize State.invokeAll r m pc ds v s = out
  obtain ⟨x, v', u⟩ := out
  exact ⟨u, _, _, x, rfl, rfl, rfl, rfl⟩

/-- A program that runs over a piece ends its scan, or leaves the scan's spans. -/
theorem State.runPiece_scan (s : State) (k : Nat) {r : Run} {n : Nat} (hkind : r.kind = .scan n) (hdone : r.doneAt = none)
    (m pc bytes : Nat) (ds : List Delivery) : ∃ y, Table.find k (s.runPiece k r m pc bytes ds).prg.runs = some y ∧ y.kind = .scan n ∧
      (y.doneAt.isSome = true ∨ y.spans = r.spans) := by
  obtain ⟨u, r', recs, x, heq, hkind', hdone', hspans⟩ := s.runPiece_comes k r m pc bytes ds
  have kept : ∃ y, Table.find k (u.keepRecords k r' recs).prg.runs = some y ∧ y.kind = .scan n ∧ y.doneAt = none ∧ y.spans = r'.spans := by
    simp only [State.keepRecords, hkind', hkind, Table.find_put_same]
    exact ⟨_, rfl, rfl, hdone'.trans hdone, rfl⟩
  obtain ⟨y, hy, hyk, hyd, hys⟩ := kept
  rw [heq]
  cases x with
  | none => exact ⟨y, hy, hyk, .inr (hys.trans hspans)⟩
  | some e =>
    obtain ⟨z, hz, hzk, -, hzd⟩ := State.stopBy_scan hy hyk hyd m e
    exact ⟨z, hz, hzk, .inl hzd⟩

end Sys2Proof.Machine
end

section
/-!
Grants of tiles (O29, R318): a run that waits goes on waiting, or is granted what it asks for.
-/
namespace Sys2Proof.Machine
open Sys2Proof

/-- What a run is for: its command, its program and its range. -/
def Run.task (r : Run) : RunKind × Option Nat × Nat × Nat × Nat := (r.kind, r.tag, r.slot, r.lo, r.hi)

/-- A run that is granted tiles leaves the waiting ones and starts in its slot. -/
theorem State.grantRun_runs {s : State} {r : Run} {p : Program} (hp : s.programAt r.tenant r.slot = some p) (w k : Nat) : ∃ y,
    (s.grantRun w r k).prg.runs = Table.put k y (Table.drop w s.prg.runs) ∧ y.task = r.task ∧ y.startedAt = some s.clock ∧
      (s.freeTiles ≠ [] → y.tiles ≠ []) := by
  unfold State.grantRun
  simp only [hp]
  refine ⟨_, rfl, rfl, rfl, fun hfree => ?_⟩
  rw [ne_eq, List.map_eq_nil_iff, List.take_eq_nil_iff]
  rintro (h | h)
  · omega
  · exact hfree h

/-- A run that ends before it starts leaves the table. -/
theorem State.endUnstarted_runs (s : State) (w : Nat) (r : Run) : (s.endUnstarted w r).prg.runs = Table.drop w s.prg.runs := by
  have complete (u : State) (c : HostCmd) (status r0 r1 : Nat) : (u.complete c status r0 r1).prg = u.prg :=
    (State.complete_frame (ps := Part.but [.prg]) c status r0 r1 (.refl _ _) rfl).only.prg rfl
  have sendHost (u : State) (o : Out) : (u.sendHost o).prg = u.prg :=
    (State.sendHost_frame (ps := Part.but [.prg]) o (.refl _ _) rfl).only.prg rfl
  have runCode (u : State) (st : NvmeStatus) : (u.runCode st).2.prg = u.prg :=
    (State.runCode_frame (ps := Part.but [.prg]) st (.refl _ _) rfl).only.prg rfl
  have hostRun (c : HostCmd) (dest len : Nat) (build : Bool) (st : NvmeStatus) :
      (s.endHostRun w r c dest len build st).prg.runs = Table.drop w s.prg.runs := by
    unfold State.endHostRun
    extract_lets entries bytes u v x written
    have hu : u.prg = s.prg := by
      unfold u
      split
      · rfl
      · exact sendHost ..
    have hx : x.prg.runs = s.prg.runs := by
      rw [State.addAcct_runs, sendHost, hu]
    split
    · next code y hcode =>
      have hy : y.prg = x.prg := by rw [show y = (x.runCode st).2 by rw [hcode], runCode]
      split
      · show Table.drop w y.prg.runs = _
        rw [hy, hx]
      · rw [complete]
        show Table.drop w y.prg.runs = _
        rw [hy, hx]
  unfold State.endUnstarted
  split
  · rfl
  · exact hostRun ..
  · exact hostRun ..
  · rfl

/-- A run whose tiles were all fenced stays where it is when it takes a free one: the runs that wait are as they were. -/
theorem State.regrant_waiting (s : State) : s.regrant.prg.table = s.prg.table ∧
    (s.regrant.prg.runs = s.prg.runs ∨ ∃ a y, a < 4096 ∧ s.regrant.prg.runs = Table.put a y s.prg.runs) := by
  unfold State.regrant
  split
  · next e t ts he hfree =>
    have low := List.find?_some he
    simp only [Bool.and_eq_true, decide_eq_true_eq] at low
    exact ⟨rfl, .inr ⟨e.1, _, low.1.1.1, rfl⟩⟩
  · exact ⟨rfl, .inl rfl⟩

theorem State.freeRunSlot_lt {s : State} {j : Nat} (h : s.freeRunSlot = some j) : j < 4096 := by
  unfold State.freeRunSlot at h
  exact List.mem_range.1 (List.mem_of_find?_eq_some h)

/-- A run that waits alone under its key, for a program that is there, goes on waiting or is granted. -/
theorem State.grantRuns_keeps {s : State} {k : Nat} {r : Run} (hk : 4096 ≤ k) (hr : Table.find k s.prg.runs = some r)
    (halone : ∀ e ∈ s.prg.runs, e.1 = k → e.2 = r) (hprog : (s.programAt r.tenant r.slot).isSome = true) :
    ∃ e ∈ s.grantRuns.prg.runs, e.2.task = r.task := by
  obtain ⟨htable, hruns⟩ := s.regrant_waiting
  have hr' : Table.find k s.regrant.prg.runs = some r := by
    rcases hruns with h | ⟨a, y, ha, h⟩
    · rw [h, hr]
    · rw [h, Table.find_put_other (by omega), hr]
  have halone' : ∀ e ∈ s.regrant.prg.runs, e.1 = k → e.2 = r := by
    intro e he hek
    rcases hruns with h | ⟨a, y, ha, h⟩
    · exact halone e (h ▸ he) hek
    · rcases Table.mem_put (h ▸ he) with rfl | he
      · exact absurd hek (by dsimp only; omega)
      · exact halone e he hek
  have hprog' : (s.regrant.programAt r.tenant r.slot).isSome = true := by
    unfold State.programAt at hprog ⊢
    rw [htable]
    exact hprog
  unfold State.grantRuns
  generalize s.regrant = u at hr' halone' hprog'
  dsimp only
  split
  · exact ⟨(k, r), Table.find_mem hr', rfl⟩
  · split
    · next e j he hj =>
      have hj : j < 4096 := State.freeRunSlot_lt hj
      by_cases hek : e.1 = k
      · have her : e.2 = r := halone' e (List.mem_of_find?_eq_some he) hek
        obtain ⟨p, hp⟩ := Option.isSome_iff_exists.1 hprog'
        obtain ⟨y, hy, hty, -, -⟩ := State.grantRun_runs (s := u) (r := e.2) (her ▸ hp) e.1 j
        exact ⟨(j, y), Table.find_mem (by rw [hy, Table.find_put_same]), hty.trans (congrArg Run.task her)⟩
      · refine ⟨(k, r), Table.find_mem ?_, rfl⟩
        cases hp : u.programAt e.2.tenant e.2.slot with
        | none =>
          rw [show u.grantRun e.1 e.2 j = u.endUnstarted e.1 e.2 by simp only [State.grantRun, hp], State.endUnstarted_runs,
            Table.find_drop_other (Ne.symm hek), hr']
        | some p =>
          obtain ⟨y, hy, -⟩ := State.grantRun_runs (s := u) hp e.1 j
          rw [hy, Table.find_put_other (by omega), Table.find_drop_other (Ne.symm hek), hr']
    · exact ⟨(k, r), Table.find_mem hr', rfl⟩

/-- The key under which a run joins those that wait lies above every other. -/
theorem waitKey_above (l : Table Run) (a : Nat) : a ≤ l.foldl (fun k e => max k (e.1 + 1)) a ∧
    ∀ e ∈ l, e.1 < l.foldl (fun k e => max k (e.1 + 1)) a := by
  induction l generalizing a with
  | nil => exact ⟨le_refl a, nofun⟩
  | cons e r ih =>
    obtain ⟨hle, hlt⟩ := ih (max a (e.1 + 1))
    refine ⟨by rw [List.foldl_cons]; omega, fun x hx => ?_⟩
    rw [List.foldl_cons]
    rcases List.mem_cons.1 hx with rfl | hx
    · omega
    · exact hlt x hx

/-- A run of a program that is there waits for tiles, or is on them. -/
theorem State.awaitTiles_waits {s : State} {r : Run} (hprog : (s.programAt r.tenant r.slot).isSome = true) :
    ∃ e ∈ (s.awaitTiles r).prg.runs, e.2.task = r.task := by
  obtain ⟨hhigh, habove⟩ := waitKey_above s.prg.runs 4096
  refine State.grantRuns_keeps hhigh (Table.find_put_same ..) (fun e he hek => ?_) hprog
  rcases Table.mem_put he with rfl | he
  · rfl
  · exact absurd hek (habove e he).ne

section
variable {s : State} {n : Nat} {c : Cmd}

theorem programRun_waits (h : s.ready n .programRun = some c) (hprog : (s.programAt c.tenant c.cap.cdw10).isSome = true) :
    Answers (.programRun n) s fun t => ∃ e, e ∈ t.prg.runs ∧ e.2.kind = .scan n ∧ e.2.tag = some n ∧ e.2.slot = c.cap.cdw10 ∧
      e.2.lo = c.cap.runLba * 4096 ∧ e.2.hi = (c.cap.runLba + c.cap.cdw14) * 4096 := by
  refine .of_eq (congrArg Host.Outcome.next (State.begin_ready h _)) ?_
  dsimp only
  generalize hu : (if (c.cls == .forwardedIn || c.cap.sgl == .inCapsule) = true then s.begun n c
    else (s.begun n c).queueRead c.cap.qpn n 0 c.cap.sglLen) = u
  have hprg : u.prg = s.prg := by
    rw [← hu]
    split
    · rfl
    · exact (State.queueRead_frame (ps := Part.but [.prg]) _ _ _ _ (.refl _ _) rfl).only.prg rfl
  have hprog' : (u.programAt c.tenant c.cap.cdw10).isSome = true := by
    unfold State.programAt at hprog ⊢
    rw [hprg]
    exact hprog
  obtain ⟨e, he, htask⟩ := State.awaitTiles_waits (s := u) (r :=
    { kind := .scan n, tag := some n, tenant := c.tenant, slot := c.cap.cdw10, nsid := c.cap.nsid, lo := c.cap.runLba * 4096,
      hi := (c.cap.runLba + c.cap.cdw14) * 4096 }) hprog'
  simp only [Run.task, Prod.mk.injEq] at htask
  exact ⟨e, he, htask⟩

end

theorem tileGrant_starts {s : State} {e : Nat × Run} {k : Nat}
    (hwhole : (s.prg.runs.find? fun e => decide (e.1 < 4096) && e.2.startedAt.isSome && e.2.doneAt.isNone && e.2.tiles.isEmpty) = none)
    (hhold : s.on Reg.CMD_HOLD.ACTIVATION = false) (hfree : s.freeTiles ≠ [])
    (he : (s.prg.runs.find? fun e => decide (4096 ≤ e.1) && s.runReady e.2) = some e) (hk : s.freeRunSlot = some k)
    (hprog : (s.programAt e.2.tenant e.2.slot).isSome = true) : Answers .tileGrant s fun t =>
      ∃ r, Table.find k t.prg.runs = some r ∧ r.startedAt = some s.clock ∧ r.tiles ≠ [] ∧ r.kind = e.2.kind := by
  have regrant : s.regrant = s := by
    simp only [State.regrant, hwhole]
  have granted : s.grantRuns = s.grantRun e.1 e.2 k := by
    simp only [State.grantRuns, regrant, hhold, List.isEmpty_iff, hfree, he, hk, Bool.false_or, if_false]
  obtain ⟨p, hp⟩ := Option.isSome_iff_exists.1 hprog
  obtain ⟨y, hy, htask, hstart, htiles⟩ := State.grantRun_runs hp e.1 k
  refine .of_eq (t := s.grantRuns) rfl ⟨y, ?_, hstart, htiles hfree, congrArg Prod.fst htask⟩
  rw [granted, hy, Table.find_put_same]

end Sys2Proof.Machine
end

section
/-!
A container that a span waits for (O29, R206, R207, R212): asking for it, reading it again from the other members and losing it leave where
the spans of every run stand, and a span that asks for its second copy leaves BND_DECOMP_ERR.LAST as it is.
-/
namespace Sys2Proof.Machine
open Sys2Proof

/-! What the loss of a container leaves (R212) -/

/-- Every part of the state but the runs, the leaf lanes and register block BND. -/
def Part.afield : List Part := (Part.butBlock 11).filter fun p => p != .prg && p != .lfl

section
variable {s t : State} (h : Within Part.afield s t)
include h

theorem State.raise_afield f bits i (hf : Part.sub [.block f.block] Part.afield = true) : Within Part.afield s (t.raise f bits i) :=
  .put (a := [.holding]) (State.wr_frame f _ _ _ h hf) rfl rfl rfl rfl rfl

theorem State.lostAppend_afield entry : Within Part.afield s (t.lostAppend entry) := by
  unfold State.lostAppend
  refine .ite (State.event_frame _ _ (State.raise_afield h _ _ _ rfl) rfl) (State.wr_frame _ _ _ _ ?_ rfl)
  exact .putMem h rfl (fun h => Memory.wf_writeList _ _ h) rfl rfl

theorem State.listExtents_afield loc domain full : Within Part.afield s (t.listExtents loc domain full) :=
  .foldl _ h fun _ _ => .foldl _ (.refl _ _) fun _ _ => State.event_frame _ _ (State.lostAppend_afield (.refl _ _) _) rfl

theorem State.loseContainer_afield loc domain : Within Part.afield s (t.loseContainer loc domain) := by
  unfold State.loseContainer
  refine .ite (State.loseImage_frame _ h rfl) ?_
  dsimp only
  refine .foldl _ ?_ fun _ _ => .foldl _ (.refl _ _) fun _ _ => State.sendRing_frame _ (.refl _ _) rfl
  have told := State.event_frame 0x500C loc.lostDetail (State.lostAppend_afield h (loc.lostEntry domain t.ringTime)) rfl
  have listed := State.listExtents_afield (State.forgetIndex_frame loc told rfl) loc domain true
  exact State.markLoss_frame _ (State.rewriteLoc_frame _ _ listed rfl) rfl

theorem State.loseWord_afield q quire sig word members but : Within Part.afield s (t.loseWord q quire sig word members but) :=
  .foldl _ h fun _ _ => State.loseContainer_afield (.refl _ _) ..

end

/-! Where the spans of a run stand (R317) -/

/-- A span's tile, its end, its position, and whether it asks for a container's second copy. -/
def Span.place (p : Span) : Nat × Bool × Nat × Bool := (p.tile, p.ended, p.pos, p.second.isSome)

/-- Whether a run has ended, and where its spans stand. -/
def State.places (s : State) (k : Nat) : Option (Option Nat × List (Nat × Bool × Nat × Bool)) :=
  (Table.find k s.prg.runs).map fun r => (r.doneAt, r.spans.map Span.place)

/-- Whether a run's span on a tile asks for a container's second copy. -/
def State.onSecond (s : State) (k m : Nat) : Bool := (s.spanOf k m).any fun p => p.second.isSome

theorem State.onSecond_eq (s : State) (k m : Nat) : s.onSecond k m =
    (s.places k).any fun x => (x.2.find? fun p => p.1 == m && !p.2.1).any fun p => p.2.2.2 := by
  unfold State.onSecond State.spanOf State.places
  cases Table.find k s.prg.runs with
  | none => rfl
  | some r =>
    simp only [Option.bind_some, Option.map_some, Option.any_some, List.find?_map, Option.any_map]
    rfl

theorem State.onSecond_congr {s t : State} {k : Nat} (h : t.places k = s.places k) (m : Nat) : t.onSecond k m = s.onSecond k m := by
  rw [State.onSecond_eq, State.onSecond_eq, h]

theorem State.places_congr {s t : State} (h : t.prg = s.prg) (k : Nat) : t.places k = s.places k := by
  unfold State.places
  rw [h]

/-- A change of one element that a function does not see. -/
theorem map_modify_of_eq {α β : Type} {f : α → α} {g : α → β} (hf : ∀ x, g (f x) = g x) (l : List α) (i : Nat) :
    (l.modify i f).map g = l.map g := by
  refine List.ext_getElem? fun j => ?_
  rw [List.getElem?_map, List.getElem?_map, List.getElem?_modify]
  cases l[j]? with
  | none => rfl
  | some x =>
    dsimp only [Option.map_eq_map, Option.map_some]
    split
    · rw [hf]
    · rfl

/-- A change of a span that leaves its place. -/
theorem State.modSpan_places {f : Span → Span} (hf : ∀ p, (f p).place = p.place) (s : State) (k run tile : Nat) :
    (s.modSpan run tile f).places k = s.places k := by
  unfold State.modSpan
  split
  · rfl
  next r hr =>
  split
  · rfl
  next i _ =>
  unfold State.places
  dsimp only
  by_cases hk : k = run
  · subst hk
    rw [Table.find_put_same, hr, Option.map_some, Option.map_some, map_modify_of_eq hf]
  · rw [Table.find_put_other hk]

/-- The spans of run `k` stand where they stood, and while its span on tile `m` asks for a second copy no damage is counted. -/
structure SpanKept (k m : Nat) (s t : State) : Prop where
  places : t.places k = s.places k
  last : s.onSecond k m = true → t.rd Reg.BND_DECOMP_ERR.LAST = s.rd Reg.BND_DECOMP_ERR.LAST

theorem SpanKept.refl (k m : Nat) (s : State) : SpanKept k m s s := ⟨rfl, fun _ => rfl⟩

theorem SpanKept.trans {k m : Nat} {s t u : State} (h : SpanKept k m s t) (g : SpanKept k m t u) : SpanKept k m s u :=
  ⟨g.places.trans h.places, fun hs => (g.last ((State.onSecond_congr h.places m).trans hs)).trans (h.last hs)⟩

theorem SpanKept.of_eq {k m : Nat} {s t : State} (hprg : t.prg = s.prg) (hregs : t.regs = s.regs) : SpanKept k m s t :=
  ⟨State.places_congr hprg k, fun _ => State.rd_congr hregs ..⟩

section
variable {k m : Nat} {s t u : State} (h : SpanKept k m s t)
include h

theorem SpanKept.frame (g : Within (.lfl :: Part.afield) t u) : SpanKept k m s u :=
  h.trans ⟨State.places_congr (g.only.prg rfl) k, fun _ => g.only.rd _ _ _ rfl rfl⟩

theorem SpanKept.modSpan {f : Span → Span} (hf : ∀ p, (f p).place = p.place) (run tile : Nat) : SpanKept k m s (t.modSpan run tile f) :=
  h.trans ⟨State.modSpan_places hf t k run tile, fun _ => (State.modSpan_frame (ps := [.prg]) _ _ _ (.refl _ _) rfl).only.rd _ _ _ rfl rfl⟩

theorem SpanKept.deliverSpan run tile loc copy lost : SpanKept k m s (t.deliverSpan run tile loc copy lost) := by
  unfold State.deliverSpan
  split
  · exact h.modSpan (by exact fun _ => rfl) _ _
  · exact h

end

/-! The reads for one container of a span (R206, R207, R212) -/

/-- What keeps the spans of run `k` while gathering `id` collects a container for its span on tile `m`. -/
structure SpanFetch (k m id : Nat) (s t : State) : Prop extends SpanKept k m s t where
  asks : ∀ g, Table.find id t.lfl.gathers = some g → g.for_ = .span k m

section
variable {k m id : Nat} {s t u : State}

theorem SpanFetch.of_gathers (h : SpanFetch k m id s t) (hgathers : u.lfl.gathers = t.lfl.gathers) (kept : SpanKept k m s u) :
    SpanFetch k m id s u := ⟨kept, fun g hg => h.asks g (hgathers ▸ hg)⟩

theorem SpanFetch.foldl {α : Type} {f : State → α → State} (l : List α) (h : SpanFetch k m id s t)
    (g : ∀ u x, SpanFetch k m id s u → SpanFetch k m id s (f u x)) : SpanFetch k m id s (l.foldl f t) := by
  induction l generalizing t with
  | nil => exact h
  | cons x r ih => exact ih (g t x h)

theorem SpanFetch.ite {p : Prop} [Decidable p] (h : SpanFetch k m id s t) (g : SpanFetch k m id s u) : SpanFetch k m id s (if p then t else u) := by
  split <;> assumption

theorem State.trialRead_gathers (s : State) (r : LeafRead) : (s.trialRead r).2.lfl.gathers = s.lfl.gathers := by
  unfold State.trialRead
  dsimp only
  split
  · rfl
  · split <;> rfl

theorem State.leafOp_gathers (s : State) l f cmd params bytes : (s.leafOp l f cmd params bytes).lfl.gathers = s.lfl.gathers := by
  unfold State.leafOp
  dsimp only
  split <;> rfl

theorem State.sendRead_gathers (s : State) (r : LeafRead) : (s.sendRead r).lfl.gathers = s.lfl.gathers := by
  unfold State.sendRead
  split
  · exact (State.leafOp_gathers ..).trans (State.trialRead_gathers ..)
  · exact (congrArg LeafSide.gathers ((State.sendRing_frame (ps := Part.but [.lfl]) _ (.refl _ _) rfl).only.lfl rfl)).trans rfl
  · rfl

variable (h : SpanFetch k m id s t)
include h

theorem SpanFetch.frame (g : Within Part.afield t u) : SpanFetch k m id s u :=
  h.of_gathers (congrArg LeafSide.gathers (g.only.lfl rfl)) (h.toSpanKept.frame (g.mono rfl))

theorem SpanFetch.sendRead r : SpanFetch k m id s (t.sendRead r) :=
  h.of_gathers (State.sendRead_gathers ..) (h.toSpanKept.frame (State.sendRead_frame _ (.refl _ _) rfl))

theorem SpanFetch.deliverSpan run tile loc copy lost : SpanFetch k m id s (t.deliverSpan run tile loc copy lost) :=
  h.of_gathers (congrArg LeafSide.gathers ((State.deliverSpan_frame (ps := [.prg]) _ _ _ _ _ (.refl _ _) rfl).only.lfl rfl))
    (h.toSpanKept.deliverSpan ..)

/-- The container's first copy cannot be had: it is lost, and the damage is counted; the second: the span is told. -/
theorem SpanFetch.gatherLost : SpanFetch k m id s (t.gatherLost id) := by
  unfold State.gatherLost
  split
  · exact h
  next g hg =>
  have hfor : g.for_ = .span k m := h.asks g hg
  rw [hfor]
  extract_lets _ u domain v second
  have hu : SpanFetch k m id s u :=
    ⟨h.toSpanKept.trans (.of_eq rfl rfl), fun g hg => nomatch (Table.find_drop_same ..).symm.trans hg⟩
  have hsecond : second = s.onSecond k m := State.onSecond_congr hu.places m
  split
  · exact hu.deliverSpan ..
  next hfirst =>
  have hv : SpanFetch k m id s v := by
    have within : Within [.block 4, .block 6, .block 11, .evt, .nor, .host, .out, .hostWait] u v :=
      State.event1_frame _ _ (State.countDecode_frame _ (.refl _ _) rfl) rfl
    exact ⟨⟨(State.places_congr (within.only.prg rfl) k).trans hu.places, fun hs => absurd (hsecond.trans hs) hfirst⟩,
      fun g hg => hu.asks g (within.only.lfl rfl ▸ hg)⟩
  exact (hv.frame (State.loseContainer_afield (.refl _ _) ..)).deliverSpan ..

/-- A word that cannot be made good loses the containers over it. -/
theorem SpanFetch.wordGone want failed : SpanFetch k m id s (t.wordGone id want failed) := by
  unfold State.wordGone
  split
  · exact (h.frame (State.loseWord_afield (.refl _ _) ..)).gatherLost
  · exact h.gatherLost

theorem SpanFetch.degradeWord {r : LeafRead} (hr : r.use = .gather id) : SpanFetch k m id s (t.degradeWord r) := by
  unfold State.degradeWord
  rw [hr]
  dsimp only
  split
  · exact h.gatherLost
  · refine .ite (h.wordGone ..) (.foldl _ ?_ fun _ _ h => h.sendRead _)
    exact h.of_gathers rfl (h.toSpanKept.trans (.of_eq rfl rfl))

theorem SpanFetch.degrade {r : LeafRead} (hr : r.use = .gather id) : SpanFetch k m id s (t.degrade r) :=
  .foldl _ (h.of_gathers rfl (h.toSpanKept.frame (State.bump_frame _ _ _ _ (.refl _ _) rfl))) fun _ _ h => h.degradeWord hr

theorem SpanFetch.startRead {r : LeafRead} (hr : r.use = .gather id) forced : SpanFetch k m id s (t.startRead r forced) := by
  unfold State.startRead
  split
  · exact h.degrade hr
  iterate 2 exact .ite (h.degrade hr) (h.sendRead _)

end

/-! A container that a span fetches -/

section
variable {k m : Nat} {s t : State} (h : SpanKept k m s t)
include h

theorem SpanKept.gather loc forced : SpanKept k m s (t.gather (.span k m) loc forced) := by
  unfold State.gather
  split
  · split
    · split
      · exact h.deliverSpan ..
      · exact h.trans (.of_eq rfl rfl)
    · extract_lets id _ u
      have asks : ∀ g, Table.find id u.lfl.gathers = some g → g.for_ = .span k m := by
        intro g hg
        rw [← Option.some.inj ((Table.find_put_same ..).symm.trans hg)]
      have hu : SpanFetch k m id s u := ⟨h.trans (.of_eq rfl rfl), asks⟩
      exact (SpanFetch.foldl _ hu fun _ _ h => h.startRead rfl _).toSpanKept
  · exact h.deliverSpan ..

theorem SpanKept.askRemote loc : SpanKept k m s (t.askRemote (.span k m) loc) := by
  unfold State.askRemote
  split
  · exact h.frame (State.settleRemote_frame (.put (a := [.ddp]) (.refl _ _) rfl rfl rfl rfl rfl) rfl)
  · exact h.deliverSpan ..

theorem SpanKept.fetchCopy loc forced : SpanKept k m s (t.fetchCopy (.span k m) loc forced) := by
  unfold State.fetchCopy
  split
  · exact h.deliverSpan ..
  · exact h.gather ..
  · exact h.askRemote ..
  iterate 4 exact h.deliverSpan ..

/-- The container for a span's next piece is asked for (R206). -/
theorem SpanKept.fetchSpan : SpanKept k m s (t.fetchSpan k m) := by
  unfold State.fetchSpan
  split
  · split
    · exact h
    · split
      · exact h
      · exact (h.modSpan (by exact fun _ => rfl) k m).fetchCopy ..
  · exact h

end
end Sys2Proof.Machine
end

section
/-!
Pieces of a scan (O29, R139, R140, R315).
-/
namespace Sys2Proof.Machine
open Sys2Proof

section
variable {s : State} {k n m i : Nat} {r : Run} {p : Span}

/-- The span on a tile is the first that has not ended. -/
theorem State.spanOf_at (hr : Table.find k s.prg.runs = some r) (hi : (r.spans.findIdx? fun p => p.tile == m && !p.ended) = some i)
    (hp : r.spans[i]? = some p) : s.spanOf k m = some p := by
  rw [State.spanOf, hr, Option.bind_some, List.find?_eq_bind_findIdx?_getElem?, hi, Option.bind_some, hp]

theorem State.modSpan_at (hr : Table.find k s.prg.runs = some r) (hi : (r.spans.findIdx? fun p => p.tile == m && !p.ended) = some i)
    (hp : r.spans[i]? = some p) {f : Span → Span} (hf : ∀ p, ((f p).tile == m && !(f p).ended) = (p.tile == m && !p.ended)) :
    (s.modSpan k m f).spanOf k m = some (f p) := by
  have index (l : List Span) : (l.findIdx? fun p => p.tile == m && !p.ended) = (l.map fun p => p.tile == m && !p.ended).findIdx? id := by
    rw [List.findIdx?_map]
    rfl
  have changed : s.modSpan k m f = { s with prg.runs := Table.put k { r with spans := r.spans.modify i f } s.prg.runs } := by
    simp only [State.modSpan, hr, hi]
  rw [changed]
  refine State.spanOf_at (i := i) (Table.find_put_same ..) ?_ ?_
  · dsimp only
    rw [index, map_modify_of_eq hf, ← index, hi]
  · dsimp only
    rw [List.getElem?_modify, hp]
    simp only [if_true, Option.map_eq_map, Option.map_some]

/-- A whole piece moves its span on, or the program ends the run (R315). -/
theorem State.spanBytes_moves (hkind : r.kind = .scan n) (hdone : r.doneAt = none) (hframing : framing r.image = 0) (hp : r.spans[i]? = some p)
    (s : State) (bytes : List Byte) (zero : Bool) : ∃ y, Table.find k (s.spanBytes k r i m p bytes zero).prg.runs = some y ∧
      (y.doneAt.isSome = true ∨ (y.spans[i]?).map Span.pos = some (p.pos + bytes.length)) := by
  have there : i < r.spans.length := (List.getElem?_eq_some_iff.1 hp).1
  unfold State.spanBytes
  extract_lets p' pc count q t
  have ran : ∃ y, Table.find k t.prg.runs = some y ∧
      (y.doneAt.isSome = true ∨ (y.spans.map Span.place)[i]?.map (fun x => x.2.2.1) = some (p.pos + bytes.length)) := by
    unfold t
    rw [if_pos hframing]
    obtain ⟨y, hy, -, hends⟩ := s.runPiece_scan k (r := { r with spans := r.spans.set i q }) hkind hdone m pc count
      (wholePiece r.image p'.pos bytes zero false)
    refine ⟨y, hy, hends.imp_right fun hspans => ?_⟩
    rw [hspans, List.getElem?_map, List.getElem?_set_self there]
    rfl
  obtain ⟨y, hy, hends⟩ := ran
  have kept := ((SpanKept.refl k m t).fetchSpan).places
  simp only [State.places, hy, Option.map_some, Option.map_eq_some_iff, Prod.mk.injEq] at kept
  obtain ⟨z, hz, hdone', hplaces⟩ := kept
  refine ⟨z, hz, ?_⟩
  rw [hdone']
  refine hends.imp_right fun hpos => ?_
  rw [← hplaces, List.getElem?_map, Option.map_map] at hpos
  exact hpos

/-- Damage in the first copy is shown, and the second is asked for (R140). -/
theorem State.spanSecond_last (hr : Table.find k s.prg.runs = some r) (hi : (r.spans.findIdx? fun p => p.tile == m && !p.ended) = some i)
    (hp : r.spans[i]? = some p) (x : Run) (loc : Loc) (code : Nat) :
    (s.spanSecond k m x loc code).rd Reg.BND_DECOMP_ERR.LAST = code % 256 := by
  have prg : (s.countDecode code).prg = s.prg := (State.countDecode_frame (ps := [.block 11]) code (.refl _ _) rfl).only.prg rfl
  have shown : (s.countDecode code).rd Reg.BND_DECOMP_ERR.LAST = code % 256 := (State.rd_wr_same ..).trans (Nat.mod_mod ..)
  unfold State.spanSecond
  extract_lets u
  have hu : u.rd Reg.BND_DECOMP_ERR.LAST = code % 256 :=
    ((State.modSpan_frame (ps := [.prg]) _ _ _ (.refl _ _) rfl).only.rd _ _ _ rfl rfl).trans shown
  have second : u.onSecond k m = true := by
    unfold State.onSecond u
    rw [State.modSpan_at (by rw [prg, hr]) hi hp (by exact fun _ => rfl)]
    rfl
  clear_value u
  split
  · exact (((SpanKept.refl k m u).frame (State.sendRing_frame _ (.refl _ _) rfl)).last second).trans hu
  · exact ((SpanKept.refl k m u).fetchCopy _ _).last second |>.trans hu

end

/-! PIECE_DELIVER -/

section
variable {s : State} {k n m i : Nat} {r : Run} {p : Span} {e : Extent} (hr : Table.find k s.prg.runs = some r) (hkind : r.kind = .scan n)
  (hstart : r.startedAt.isSome = true) (hdone : r.doneAt = none) (hhas : Table.has m r.tiles = true) (hfrozen : s.prg.frozenAt = none)
  (hi : (r.spans.findIdx? fun p => p.tile == m && !p.ended) = some i) (hp : r.spans[i]? = some p) (he : s.nextExtent r p = some e)
include hr hkind hstart hdone hhas hfrozen hi hp he

/-- What a delivery to a scan's span does, by what its next piece is. -/
theorem exec_pieceDeliver : exec (.pieceDeliver k m {}) s = .next (
    if e.loc.reads0 then s.spanBytes k r i m p (zeros e.len) true
    else if p.lost then s.endRun k (media 0x81)
    else
      match p.copy with
      | none => s.fetchSpan k m
      | some copy =>
        match s.decodeContainer r.tenant (p.loc.getD e.loc).size
            ((if p.second.isNone && s.cacheLost (p.loc.getD e.loc) then none else copy).getD []) with
        | .ok plain => (match p.second with
          | some first => s.event1 first r.tenant
          | none => s).spanBytes k r i m p (slice plain e.off e.len) false
        | .error (.key code) => (s.event1 code r.tenant).endRun k (vendor 0xE1)
        | .error (.damage code) =>
          match p.second with
          | none => s.spanSecond k m r (p.loc.getD e.loc) code
          | some first => (((s.countDecode code).event1 first r.tenant).event1 code r.tenant).endRun k (vendor 0xE0)) := by
  show execPieceDeliver k m {} s = _
  have open_ : (r.startedAt.isNone || r.doneAt.isSome || !(Table.has m r.tiles) || s.prg.frozenAt.isSome) = false := by
    simp [hdone, hhas, hfrozen, hstart]
  unfold execPieceDeliver State.spanPiece
  simp only [hr, open_, hkind, hi, State.spanOf_at hr hi hp, he, State.dummyFails, Bool.and_false, Bool.false_and, Bool.false_or,
    Bool.false_eq_true, if_false] <;> rfl

theorem pieceDeliver_hole (hreads : e.loc.reads0 = true) (hframing : framing r.image = 0) : Answers (.pieceDeliver k m {}) s fun t =>
    ∃ y, Table.find k t.prg.runs = some y ∧ (y.doneAt.isSome = true ∨ (y.spans[i]?).map Span.pos = some (p.pos + e.len)) := by
  refine .of_eq (exec_pieceDeliver hr hkind hstart hdone hhas hfrozen hi hp he) ?_
  rw [if_pos hreads]
  have moved := State.spanBytes_moves (k := k) (m := m) hkind hdone hframing hp s (zeros e.len) true
  rwa [zeros, List.length_replicate] at moved

theorem pieceDeliver_lost (hreads : e.loc.reads0 = false) (hlost : p.lost = true) : Answers (.pieceDeliver k m {}) s fun t =>
    (Table.find k t.prg.runs).bind Run.status = some (media 0x81) := by
  refine .of_eq (exec_pieceDeliver hr hkind hstart hdone hhas hfrozen hi hp he) ?_
  rw [hreads, hlost, if_neg Bool.false_ne_true, if_pos rfl]
  obtain ⟨y, hy, -, hstatus, -⟩ := State.endRun_scan hr hkind hdone (media 0x81)
  rw [hy, Option.bind_some, hstatus]

theorem pieceDeliver_container {c : Container} (hreads : e.loc.reads0 = false) (hlost : p.lost = false) (hcopy : p.copy = some (some c))
    (hcache : s.cacheLost (p.loc.getD e.loc) = false) :
    match s.decodeContainer r.tenant (p.loc.getD e.loc).size c with
    | .ok plain => framing r.image = 0 → Answers (.pieceDeliver k m {}) s fun t => ∃ y, Table.find k t.prg.runs = some y ∧
        (y.doneAt.isSome = true ∨ (y.spans[i]?).map Span.pos = some (p.pos + (slice plain e.off e.len).length))
    | .error (.key _) => Answers (.pieceDeliver k m {}) s fun t => (Table.find k t.prg.runs).bind Run.status = some (vendor 0xE1)
    | .error (.damage code) => Answers (.pieceDeliver k m {}) s fun t =>
        if p.second.isSome then (Table.find k t.prg.runs).bind Run.status = some (vendor 0xE0) else t.rd Reg.BND_DECOMP_ERR.LAST = code % 256 := by
  have told (u : State) (code d : Nat) : (u.event1 code d).prg = u.prg :=
    (State.event1_frame (ps := Part.but [.prg]) code d (.refl _ _) rfl).only.prg rfl
  have counted (code : Nat) : (s.countDecode code).prg = s.prg := (State.countDecode_frame (ps := [.block 11]) code (.refl _ _) rfl).only.prg rfl
  have ended {u : State} (hu : u.prg = s.prg) (st : NvmeStatus) : (Table.find k (u.endRun k st).prg.runs).bind Run.status = some st := by
    obtain ⟨y, hy, -, hstatus, -⟩ := State.endRun_scan (by rw [hu, hr]) hkind hdone st
    rw [hy, Option.bind_some, hstatus]
  have step := exec_pieceDeliver hr hkind hstart hdone hhas hfrozen hi hp he
  rw [hreads, hlost, hcopy] at step
  simp only [hcache, Bool.and_false, Bool.false_eq_true, if_false, Option.getD_some] at step
  cases hdecode : s.decodeContainer r.tenant (p.loc.getD e.loc).size c with
  | ok plain =>
    rw [hdecode] at step
    exact fun hframing => .of_eq step (State.spanBytes_moves hkind hdone hframing hp ..)
  | error x =>
    rw [hdecode] at step
    cases x with
    | key code => exact .of_eq step (ended (told ..) _)
    | damage code =>
      refine .of_eq step ?_
      cases hsecond : p.second with
      | none => exact State.spanSecond_last hr hi hp ..
      | some first => exact ended ((told ..).trans ((told ..).trans (counted _))) _

end

end Sys2Proof.Machine
end

section
/-!
Budgets, ends and results of runs (O29, R318, R319, R321, R323).
-/
namespace Sys2Proof.Machine
open Sys2Proof

/-! BUDGET_EXCEEDED (R318) -/

section
variable {s : State} {k n : Nat} {r : Run} (hr : Table.find k s.prg.runs = some r) (hstart : r.startedAt.isSome = true) (hdone : r.doneAt = none)
include hr hstart hdone

theorem exec_budgetExceeded : exec (.budgetExceeded k) s = .next (s.stopBy k ((r.tiles.map Prod.fst).headD 32) .budget) := by
  have running : (r.startedAt.isNone || r.doneAt.isSome) = false := by simp [hstart, hdone]
  show execBudgetExceeded k s = _
  simp only [execBudgetExceeded, hr, running, Bool.false_eq_true, if_false]

theorem budgetExceeded_scan (hkind : r.kind = .scan n) : Answers (.budgetExceeded k) s fun t =>
    (Table.find k t.prg.runs).bind Run.status = some (vendor 0xD2) := by
  refine .of_eq (exec_budgetExceeded hr hstart hdone) ?_
  obtain ⟨y, hy, -, hstatus, -⟩ := State.stopBy_scan hr hkind hdone ((r.tiles.map Prod.fst).headD 32) .budget
  rw [hy, Option.bind_some, hstatus]
  rfl

theorem budgetExceeded_tap (hkind : r.kind.isTap = true) : Answers (.budgetExceeded k) s fun t => Table.find k t.prg.runs = none :=
  .of_eq (exec_budgetExceeded hr hstart hdone) (State.stopBy_tap hr hkind _ _)

end

/-! RUN_COMPLETE (R319) -/

/-- Run `k` is a scan of command `n`. -/
def State.scans (s : State) (k n : Nat) : Prop := ∃ y, Table.find k s.prg.runs = some y ∧ y.kind = .scan n

theorem State.finishTile_scans {s : State} {k n : Nat} (h : s.scans k n) (m : Nat) : (s.finishTile k m).scans k n := by
  obtain ⟨r, hr, hkind⟩ := h
  unfold State.finishTile
  simp only [hr]
  split
  · exact ⟨r, hr, hkind⟩
  · next hdone =>
    obtain ⟨y, hy, hyk, -⟩ := s.runPiece_scan k hkind (Option.not_isSome_iff_eq_none.1 hdone) m (pkgNum r.image 0x0C 4) 0
      [{ addr := 2 ^ 64 - 1, bytes := [], len := 0, flags := 4 }]
    exact ⟨y, hy, hyk⟩

theorem State.foldl_finishTile_scans {k n : Nat} (l : List Nat) {s : State} (h : s.scans k n) :
    (l.foldl (fun s t => s.finishTile k t) s).scans k n := by
  induction l generalizing s with
  | nil => exact h
  | cons m l ih => exact ih (State.finishTile_scans h m)

theorem State.endRun_completes {s : State} {k n : Nat} (h : s.scans k n) (st : NvmeStatus) :
    (Table.find k (s.endRun k st).prg.runs).any (fun y => y.doneAt.isSome) = true := by
  obtain ⟨r, hr, hkind⟩ := h
  cases hdone : r.doneAt with
  | none =>
    obtain ⟨y, hy, -, -, hyd⟩ := State.endRun_scan hr hkind hdone st
    rw [hy, Option.any_some, hyd]
  | some at_ =>
    have ended : r.doneAt.isSome = true := by rw [hdone, Option.isSome_some]
    rw [State.endRun_done hr ended, hr, Option.any_some, ended]

theorem runComplete_scan {s : State} {k n : Nat} {r : Run} (hr : Table.find k s.prg.runs = some r) (hkind : r.kind = .scan n)
    (hstart : r.startedAt.isSome = true) (hdone : r.doneAt = none) (hspans : (r.spans.all Span.ended) = true) :
    Answers (.runComplete k) s fun t => (Table.find k t.prg.runs).any (fun y => y.doneAt.isSome) = true ∧
      (pkgFlag r.image 3 = false → (Table.find k t.prg.runs).bind Run.status = some success) := by
  have step : exec (.runComplete k) s = .next ((if pkgFlag r.image 3 then (r.tiles.map Prod.fst).foldl (fun s t => s.finishTile k t) s
      else s).endRun k success) := by
    have running : (false || r.startedAt.isNone || r.doneAt.isSome || !(r.spans.all Span.ended)) = false := by simp [hstart, hdone, hspans]
    show execRunComplete k s = _
    simp only [execRunComplete, hr, hkind, running, Bool.false_eq_true, if_false]
  refine .of_eq step ⟨?_, fun hfinish => ?_⟩
  · refine State.endRun_completes (n := n) ?_ success
    split
    · exact State.foldl_finishTile_scans _ ⟨r, hr, hkind⟩
    · exact ⟨r, hr, hkind⟩
  · rw [hfinish, if_neg Bool.false_ne_true]
    obtain ⟨y, hy, -, hstatus, -⟩ := State.endRun_scan hr hkind hdone success
    rw [hy, Option.bind_some, hstatus]

/-! PROGRAM_RESULTS (R321) -/

/-- The results go out, and the command is still open. -/
theorem State.sendResult_open {s : State} {n : Nat} {c : Cmd} (hc : s.tag n = some c) (hs : c.status = none) (x : Cmd) (bytes : List Byte) :
    ∃ y, (s.sendResult n x bytes).tag n = some y ∧ y.status = none := by
  unfold State.sendResult
  split
  · exact ⟨c, (State.tag_congr ((State.sendRing_frame (ps := [.chan, .out]) _ (.refl _ _) rfl).only.cmd rfl) n).trans hc, hs⟩
  · unfold State.sendData
    simp only [hc]
    refine ⟨_, (State.tag_congr ((State.transmit_frame (ps := [.ports, .trn, .out]) _ _ _ (.refl _ _) rfl).only.cmd rfl) n).trans
      (Table.find_put_same ..), hs⟩

theorem State.sendResult_ends {s : State} {n : Nat} {c : Cmd} (hc : s.tag n = some c) (hs : c.status = none) (x : Cmd) (bytes : List Byte)
    (st : NvmeStatus) : ((s.sendResult n x bytes).finish n st).ended n = some st := by
  obtain ⟨y, hy, hstatus⟩ := State.sendResult_open hc hs x bytes
  exact State.finish_ended hy hstatus st

section
variable {s : State} {n : Nat} {c : Cmd}

theorem programResults_unknown (h : s.ready n .programResults = some c) (hr : Table.find (c.cap.cdw10 % 4096) s.prg.runs = none) :
    Answers (.programResults n) s fun t => t.ended n = some (vendor 0xD7) := by
  refine .of_eq (t := (s.begun n c).finish n (vendor 0xD7)) ?_ (State.begun_ends h rfl _)
  show execProgramResults n s = _
  unfold execProgramResults
  rw [State.begin_ready h]
  dsimp only
  rw [show Table.find (c.cap.cdw10 % 4096) (s.begun n c).prg.runs = none from hr]

theorem programResults_ends (h : s.ready n .programResults = some c) {r : Run} {m : Nat}
    (hr : Table.find (c.cap.cdw10 % 4096) s.prg.runs = some r) (hkind : r.kind = .scan m) (hdone : r.doneAt.isSome = true)
    (hhandle : s.handle (c.cap.cdw10 % 4096) r.gen = c.cap.cdw10) (htenant : r.tenant = c.tenant) : Answers (.programResults n) s fun t =>
      if c.cap.cdw11 + 1 < 16 + ((r.records.head?).map PrgRecord.dwords).getD 0 then t.ended n = some (vendor 0xD6)
      else t.ended n = some { success with dw0 := 16 + ((takeWhole (c.cap.cdw11 + 1 - 16) r.records).flatMap PrgRecord.stored).length / 4 } := by
  have mine : (r.doneAt.isNone || !true || s.handle (c.cap.cdw10 % 4096) r.gen != c.cap.cdw10 || r.tenant != c.tenant) = false := by
    simp [hdone, hhandle, htenant]
  refine .of_eq (congrArg Host.Outcome.next (State.begin_ready h _)) ?_
  dsimp only
  rw [show Table.find (c.cap.cdw10 % 4096) (s.begun n c).prg.runs = some r from hr]
  dsimp only
  rw [hkind]
  dsimp only
  rw [show (s.begun n c).handle (c.cap.cdw10 % 4096) r.gen = s.handle (c.cap.cdw10 % 4096) r.gen from rfl, mine, if_neg Bool.false_ne_true]
  by_cases hroom : c.cap.cdw11 + 1 < 16 + ((r.records.head?).map PrgRecord.dwords).getD 0
  · rw [if_pos hroom, if_pos hroom]
    exact State.begun_ends h rfl _
  · rw [if_neg hroom, if_neg hroom]
    have booked (u : State) (d : Nat) (a : Acct) : (u.noteRuns.addAcct d a).tag n = u.tag n :=
      State.tag_congr ((State.setAcct_frame (ps := Part.but [.cmd]) _ _ (State.noteRuns_frame (.refl _ _) rfl) rfl).only.cmd rfl) n
    refine State.sendResult_ends (c := { c with begun := true }) ?_ (show c.status = none from State.ready_status h) ..
    exact (booked _ _ _).trans (s.tag_begun n c)

end

/-! RESULT_KEEP_EXPIRY (R319) -/

theorem resultKeepExpiry_frees {s : State} {k : Nat} {r : Run} (hr : Table.find k s.prg.runs = some r) (hdone : r.doneAt.isSome = true) :
    Answers (.resultKeepExpiry k) s fun t => Table.find k t.prg.runs = none := by
  have freed : Table.find k (State.noteRuns { s with prg.runs := Table.drop k s.prg.runs }).prg.runs = none := Table.find_drop_same ..
  have step : exec (.resultKeepExpiry k) s = .next (if r.records.isEmpty then State.noteRuns { s with prg.runs := Table.drop k s.prg.runs }
      else (State.noteRuns { s with prg.runs := Table.drop k s.prg.runs }).event1 0x7015 (s.handle k r.gen)) := by
    have ended : r.doneAt.isNone = false := by simpa using hdone
    show execResultKeepExpiry k s = _
    simp only [execResultKeepExpiry, hr, ended, Bool.false_eq_true, if_false]
  refine .of_eq step ?_
  split
  · exact freed
  · rw [(State.event1_frame (ps := Part.but [.prg]) 0x7015 _ (.refl _ _) rfl).only.prg rfl, freed]

/-! Accounts (R326) -/

/-- What has not been booked of run `k` is a started, unfinished run's that is still to come. -/
def Unbooked (k : Nat) (l : Table Run) (s : State) : Prop := ∀ r, Table.find k s.prg.runs = some r → r.startedAt.isSome = true → r.doneAt = none →
  r.acct = {} ∨ (k, r) ∈ l

theorem Unbooked.step {k : Nat} {e : Nat × Run} {l : Table Run} {s : State} (h : Unbooked k (e :: l) s) :
    Unbooked k l (if e.2.doneAt.isNone then s.postAcct e.1 e.2 else s) := by
  have rest {r : Run} (hne : (k, r) ≠ e) (hb : r.acct = {} ∨ (k, r) ∈ e :: l) : r.acct = {} ∨ (k, r) ∈ l :=
    hb.imp_right fun hin => (List.mem_cons.1 hin).resolve_left hne
  intro r hr hstart hdone
  by_cases hopen : e.2.doneAt.isNone = true
  · rw [if_pos hopen] at hr
    cases hbegun : e.2.startedAt with
    | none =>
      rw [State.postAcct_unstarted hbegun] at hr
      refine rest ?_ (h r hr hstart hdone)
      rintro rfl
      rw [hbegun] at hstart
      cases hstart
    | some at_ =>
      obtain ⟨from_, hruns⟩ := State.postAcct_started (by rw [hbegun, Option.isSome_some]) s e.1
      rw [hruns] at hr
      by_cases hk : k = e.1
      · subst hk
        rw [Table.find_put_same] at hr
        exact .inl (by rw [← Option.some.inj hr])
      · rw [Table.find_put_other hk] at hr
        exact rest (fun heq => hk (congrArg Prod.fst heq)) (h r hr hstart hdone)
  · rw [if_neg hopen] at hr
    refine rest ?_ (h r hr hstart hdone)
    rintro rfl
    rw [hdone] at hopen
    exact hopen rfl

theorem accountingUpdate_books (s : State) : Answers .accountingUpdate s fun t => ∀ k r, Table.find k t.prg.runs = some r →
    r.startedAt.isSome = true → r.doneAt = none → r.acct = {} := by
  have books (k : Nat) (l : Table Run) (u : State) (h : Unbooked k l u) :
      Unbooked k [] (l.foldl (fun s e => if e.2.doneAt.isNone then s.postAcct e.1 e.2 else s) u) := by
    induction l generalizing u with
    | nil => exact h
    | cons e l ih => exact ih _ h.step
  refine .of_eq rfl fun k r hr hstart hdone => ?_
  exact (books k _ s (fun r hr _ _ => .inr (Table.find_mem hr)) r hr hstart hdone).resolve_right List.not_mem_nil

theorem acctClear_one {s : State} {v : Nat} (hw : s.writable 19 = true) (hgo : v.testBit 12 = true) (hone : v.testBit 13 = false) :
    exec (.acctClear v) s = .next (s.setAcct (v % 4096) {}) := by
  show execAcctClear v s = _
  simp only [execAcctClear, hw, hgo, hone, Bool.not_true, Bool.or_self, Bool.false_eq_true, if_false]

theorem acctClear_all {s : State} {v : Nat} (hw : s.writable 19 = true) (hgo : v.testBit 12 = true) (hall : v.testBit 13 = true) :
    exec (.acctClear v) s = .next ((s.prg.acct.map Prod.fst).foldl (fun s t => s.setAcct t {}) s) := by
  show execAcctClear v s = _
  simp only [execAcctClear, hw, hgo, hall, Bool.not_true, Bool.or_self, Bool.false_eq_true, if_false, if_true]

/-- Entries cleared one after another. -/
theorem State.foldl_setAcct_clears (l : List Nat) {s : State} (h : ∀ d, d ∉ l → Table.get d {} s.prg.acct = {}) (d : Nat) :
    Table.get d {} (l.foldl (fun s t => s.setAcct t {}) s).prg.acct = {} := by
  induction l generalizing s with
  | nil => exact h d List.not_mem_nil
  | cons a l ih =>
    refine ih fun x hx => ?_
    rw [State.setAcct_prg]
    by_cases hxa : x = a
    · rw [hxa, Table.get_put_same]
    · have other : Table.get x ({} : Acct) (Table.put a {} s.prg.acct) = Table.get x {} s.prg.acct := by
        rw [Table.get, Table.find_put_other hxa, Table.get]
      rw [other]
      exact h x (by simp [hxa, hx])

theorem acctClear_clears {s : State} {v : Nat} (hw : s.writable 19 = true) (hgo : v.testBit 12 = true) : Answers (.acctClear v) s fun t =>
    (v.testBit 13 = false → Table.find (v % 4096) t.prg.acct = some {}) ∧ (v.testBit 13 = true → ∀ d, Table.get d {} t.prg.acct = {}) := by
  cases hall : v.testBit 13 with
  | false =>
    refine .of_eq (acctClear_one hw hgo hall) ⟨fun _ => ?_, nofun⟩
    rw [State.setAcct_prg]
    exact Table.find_put_same ..
  | true =>
    refine .of_eq (acctClear_all hw hgo hall) ⟨nofun, fun _ => State.foldl_setAcct_clears _ fun d hd => ?_⟩
    have absent : Table.find d s.prg.acct = none := by
      rw [Option.eq_none_iff_forall_ne_some]
      exact fun x hx => hd (List.mem_map_of_mem (Table.find_mem hx))
    rw [Table.get, absent, Option.getD_none]

end Sys2Proof.Machine
end

section
/-!
Fences of tiles (O29, R325): what happens to the run on a fenced tile leaves the tiles in service and the fenced ones as the fence has them.
-/
namespace Sys2Proof.Machine
open Sys2Proof

/-- The tiles in service and the fenced ones are the same. -/
def TilesKept (s t : State) : Prop := t.rd Reg.PRG_TILE_INSERVICE.TILES = s.rd Reg.PRG_TILE_INSERVICE.TILES ∧
  t.rd Reg.PRG_TILE_FENCED.TILES = s.rd Reg.PRG_TILE_FENCED.TILES

theorem TilesKept.refl (s : State) : TilesKept s s := ⟨rfl, rfl⟩

theorem TilesKept.trans {s t u : State} (h : TilesKept s t) (g : TilesKept t u) : TilesKept s u := ⟨g.1.trans h.1, g.2.trans h.2⟩

section
variable {s t u : State} (h : TilesKept s t)
include h

theorem TilesKept.frame (g : Within (Part.butBlock 19) t u) : TilesKept s u := h.trans ⟨g.only.rd _ _ _ rfl rfl, g.only.rd _ _ _ rfl rfl⟩

/-- The runs are noted after a change outside the register file. -/
theorem TilesKept.noteRuns (g : u.regs = t.regs) : TilesKept s u.noteRuns := by
  refine (h.trans (u := u) ⟨State.rd_congr g .., State.rd_congr g ..⟩).trans ?_
  unfold TilesKept State.noteRuns
  dsimp only
  constructor
  · iterate 3 rw [State.rd_wr_field _ _ _ _ _ _ _ _ (by decide)]
  · iterate 3 rw [State.rd_wr_field _ _ _ _ _ _ _ _ (by decide)]

theorem TilesKept.endHostRun k r c dest len build st : TilesKept s (t.endHostRun k r c dest len build st) := by
  unfold State.endHostRun
  extract_lets entries bytes u v x written
  have hx : TilesKept s x := by
    refine h.frame (State.setAcct_frame _ _ (State.sendHost_frame _ ?_ rfl) rfl)
    exact .ite (.refl _ _) (State.sendHost_frame _ (.refl _ _) rfl)
  split
  next code y hcode =>
  have hy : TilesKept s y := hx.frame (.of_pair hcode (State.runCode_frame st (.refl _ _) rfl))
  have left : TilesKept s (State.noteRuns { y with prg.runs := Table.drop k y.prg.runs }) := hy.noteRuns rfl
  split
  · exact left.frame (State.finish_frame _ _ (.refl _ _) rfl)
  · exact left.frame (State.complete_frame _ _ _ _ (.refl _ _) rfl)

theorem TilesKept.endRun k st : TilesKept s (t.endRun k st) := by
  unfold State.endRun
  split
  · exact h
  split
  · exact h
  next r _ _ =>
  extract_lets r' u y
  have hu : TilesKept s u := h.frame (State.postAcct_frame _ _ (.refl _ _) rfl)
  split
  · have noted : TilesKept s (State.noteRuns { u with prg.runs := Table.put k y u.prg.runs }) := hu.noteRuns rfl
    exact noted.frame (State.finish_frame _ _ (.refl _ _) rfl)
  · exact hu.endHostRun ..
  · exact hu.endHostRun ..
  · exact hu.noteRuns rfl

theorem TilesKept.regrant : TilesKept s t.regrant := by
  unfold State.regrant
  split
  · exact h.noteRuns rfl
  · exact h

theorem TilesKept.detachTap k r : TilesKept s (t.detachTap k r) :=
  (h.frame (State.postAcct_frame k r (.refl _ _) rfl)).noteRuns rfl

theorem TilesKept.leaveTile k m r : TilesKept s (t.leaveTile k m r) := by
  unfold State.leaveTile
  dsimp only
  split
  · split
    · exact (h.detachTap _ _).frame (State.event1_frame _ _ (.refl _ _) rfl)
    · exact h.noteRuns rfl
  all_goals
    split
    · refine TilesKept.regrant ?_
      exact h.noteRuns rfl
    · exact h.endRun ..

theorem TilesKept.leaveRun m : TilesKept s (t.leaveRun m) := by
  unfold State.leaveRun
  split
  · exact h
  · exact h.leaveTile ..

end

/-- A fence takes the tile out of service and shows it fenced. -/
theorem State.markFenced_shows {m : Nat} (hm : m < 32) (s : State) : ((s.markFenced m).rd Reg.PRG_TILE_INSERVICE.TILES).testBit m = false ∧
    ((s.markFenced m).rd Reg.PRG_TILE_FENCED.TILES).testBit m = true := by
  unfold State.markFenced
  dsimp only
  constructor
  · rw [State.rd_wr_field _ _ _ _ _ _ _ _ (by decide), State.rd_wr_same, Nat.testBit_mod_two_pow, Nat.testBit_sub_and]
    simp
  · rw [State.rd_wr_same, Nat.testBit_mod_two_pow, Nat.testBit_or, Nat.testBit_two_pow_self, Bool.or_true, Bool.and_true]
    exact decide_eq_true hm

theorem tileFence_fences (s : State) {m : Nat} (hm : m < 32) : Answers (.tileFence m) s fun t =>
    (t.rd Reg.PRG_TILE_INSERVICE.TILES).testBit m = false ∧ (t.rd Reg.PRG_TILE_FENCED.TILES).testBit m = true := by
  obtain ⟨hservice, hfenced⟩ := State.markFenced_shows hm s
  have told : TilesKept (s.markFenced m) ((s.markFenced m).event1 0x7010 m) := (TilesKept.refl _).frame (State.event1_frame _ _ (.refl _ _) rfl)
  obtain ⟨keepsService, keepsFenced⟩ := told.leaveRun m
  refine .of_eq (t := s.fenceTile m) ?_ ⟨?_, ?_⟩
  · show execTileFence m s = _
    simp only [execTileFence, Nat.not_le.2 hm, if_false]
  · rw [State.fenceTile, keepsService, hservice]
  · rw [State.fenceTile, keepsFenced, hfenced]

/-- Settles O29, command by command. -/
theorem runsAndTiles : Obligations.RunsAndTiles := by
  unfold Obligations.RunsAndTiles
  refine ⟨fun s n c h hprog => programRun_waits h hprog, fun s e k hwhole hhold hfree he hk hprog =>
      tileGrant_starts hwhole hhold hfree he hk hprog, ?_, fun s k r hr hstart hdone =>
      ⟨fun n hkind => budgetExceeded_scan hr hstart hdone hkind, budgetExceeded_tap hr hstart hdone⟩,
    fun s k r n hr hkind hstart hdone hspans => runComplete_scan hr hkind hstart hdone hspans, fun s n c h =>
      ⟨programResults_unknown h, fun r m hr hkind hdone hhandle htenant => programResults_ends h hr hkind hdone hhandle htenant⟩,
    fun s k r hr hdone => resultKeepExpiry_frees hr hdone, fun s m hm => tileFence_fences s hm, accountingUpdate_books,
    fun s v hw hgo => acctClear_clears hw hgo⟩
  intro s k r n m i p e hr hkind hstart hdone hhas hfrozen hi hp he
  exact ⟨pieceDeliver_hole hr hkind hstart hdone hhas hfrozen hi hp he, pieceDeliver_lost hr hkind hstart hdone hhas hfrozen hi hp he,
    fun c hreads hlost hcopy hcache => pieceDeliver_container hr hkind hstart hdone hhas hfrozen hi hp he hreads hlost hcopy hcache⟩

end Sys2Proof.Machine
end
